-- ==== Sys2Proof/Word.lean ====
section
/-!
DEFINITION. The word types: registers are 32-bit words (R5), memories hold bytes (R16), a hall register is 16 bits (R319).
-/

namespace Sys2Proof

/-- A register or shared-memory word. -/
abbrev Word := BitVec 32

/-- A byte of a memory, a message or an image. -/
abbrev Byte := BitVec 8

/-- A 16-bit hall register or sample component. -/
abbrev Half := BitVec 16

/-- One complex sample or coefficient: real and imaginary part as exact integers in the units of the format the spec names. -/
structure Cplx where
  re : Int
  im : Int
deriving DecidableEq, Repr, Inhabited

end Sys2Proof
end

