-- ==== Sys2Proof/Syntax.lean ====
section
/-!
DEFINITION. The commands of the block (R7 to R741): one constructor of `Instr` per row of spec/opcode_table.json, and the types of
their operands. A time operand `t` is the instant of the command in 3932.16 MHz ticks since power-on (DESIGN CHOICE, log entry 1); what the outside
world supplies (a received message, a measurement, a capture, the result of a vendor program) is an operand (DESIGN CHOICE, log entry 2).
-/

namespace Sys2Proof

/-- A host channel (R650): 0 the vestibule port, 1 to 8 the SXM sessions. -/
abbrev Channel := Fin 9

/-- A vestibule frame after its mark (R657). `data` is read for WRITE alone. -/
structure VestFrame where
  address : BitVec 9
  command : BitVec 4
  count : BitVec 4
  register : BitVec 30
  data : Word
  crc : Byte
deriving DecidableEq, Repr, Inhabited

/-- Where an SXM message came from (R414, R663): the port it arrived on and its source addresses. -/
structure Source where
  port : Nat
  mac : List Byte
  vid : Option Nat
  ip : List Byte
  udp : Nat
deriving DecidableEq, Repr, Inhabited
/-- The FEM events of R149. -/
inductive FemEvent where
  | init | paCheck | rxCheck | poll | sleep | wake
deriving DecidableEq, Repr

/-- What one part of a calibration measured (R167, R171): its code, the coefficients found as exact integers in the register's units, and, for
RX_DC, the estimate of every gain. -/
structure CalResult where
  code : Nat
  values : List Cplx
  estimates : List Cplx
deriving DecidableEq, Repr, Inhabited

/-- A carrier, and the codes of a symbol that ends on it, as SYMBOL_BOUNDARY has them. -/
structure LastSymbol where
  carrier : Fin 8
  adc : List (List Cplx)
deriving DecidableEq, Repr

/-- One section of a received C-plane message (R383, R384), its fields in the units of R383 and R251: a type 3 section gives its FFT
size in points and its spacing in Hz; a type 6 section its values, an exponent byte and 64 mantissas for each PRB. -/
structure CSection where
  type : Nat
  dl : Bool
  frame : Nat
  subframe : Nat
  slot : Nat
  startSym : Nat
  numSym : Nat
  sectionId : Nat
  startPrb : Nat
  numPrb : Nat
  compMeth : Nat
  width : Nat
  beam : Nat
  filterIndex : Nat
  rb : Nat
  symInc : Nat
  reMask : Nat
  ef : Nat
  ue : Nat
  timeOffset : Nat
  fftSize : Nat
  raHz : Nat
  cpLength : Nat
  freq : Int
  antennas : Nat
  ciWidth : Nat
  values : List (Nat × List Cplx)
deriving DecidableEq, Repr, Inhabited

/-- A received U-plane section (R388, R389): each PRB's exponent byte and 12 complex mantissas. -/
structure USection where
  frame : Nat
  subframe : Nat
  slot : Nat
  sym : Nat
  compMeth : Nat
  width : Nat
  startPrb : Nat
  prbs : List (Nat × List Cplx)
deriving DecidableEq, Repr, Inhabited

/-- One eCPRI message of a frame (R380, R381): type, eAxC, E bit and subsequence ID. -/
structure EcpriMsg where
  type : Nat
  eaxc : Nat
  ebit : Bool
  sub : Nat
deriving DecidableEq, Repr, Inhabited

/-- What a frame carries after its Ethernet header (R378, R379, R415): an IP datagram gives whether it is a fragment or has options,
its destination address and UDP port (none: not UDP), and its UDP payload length. -/
inductive FrameBody where
  | ecpri (revision : Nat) (msgs : List EcpriMsg)
  | ip (addr : List Byte) (odd : Bool) (udp : Option Nat) (len : Nat)
  | other
deriving DecidableEq, Repr, Inhabited

/-- A received Ethernet frame (R378). `vids` holds the VLAN IDs of its IEEE 802.1Q tags. -/
structure Frame where
  fcsOk : Bool
  length : Nat
  dst : List Byte
  src : List Byte
  vids : List Nat
  etherType : Nat
  body : FrameBody
deriving DecidableEq, Repr, Inhabited

/-- What a PTP message brings (R410 to R412): an Announce's clock class, accuracy, variance, priority 2, identity and steps; the
origin and receipt times of a Sync, the sending and receipt times of a Delay_Req with its Delay_Resp, in ps of array time. -/
inductive PtpBody where
  | announce (cls acc var prio identity steps : Nat)
  | sync (t1 t2 : Int)
  | delayResp (t3 t4 : Int)
deriving DecidableEq, Repr, Inhabited
/-- The Gram matrix of one group: its upper entries row by row with e_G (R304, R305). -/
structure GramRec where
  group : Nat
  dl : Bool
  g : List Cplx
  eG : Int
deriving DecidableEq, Repr, Inhabited

/-- The solution of one group as the top sends it: A and e_A, s and e_s, or a failure (R308 to R310). -/
structure InverseRec where
  group : Nat
  dl : Bool
  a : List (List Cplx)
  eA : Int
  sc : List Int
  eS : Int
  failed : Bool
deriving DecidableEq, Repr, Inhabited

/-- A chunk of a class-0 record (R444): one layer of a symbol, the slot counted from the epoch modulo 4,096; each PRB's exponent and
12 mantissas. -/
structure Chunk where
  carrier : Nat
  layer : Nat
  slot : Nat
  sym : Nat
  first : Nat
  prbs : List (Int × List Cplx)
deriving DecidableEq, Repr, Inhabited

/-- A window of an OTA schedule (R478): kind 0 LOOP, 1 BURST, 2 RETRY, and its senders. -/
structure OtaWindow where
  kind : Nat
  senders : List Nat
deriving DecidableEq, Repr, Inhabited

/-- The OTA records (R478). -/
inductive OtaMsg where
  | schedule (round first period : Nat) (windows : List OtaWindow)
  | report (round window sender receiver phi : Nat) (metric : Int)
  | missed (round window receiver sender : Nat)
  | solution (round : Nat) (entries : List (Nat × Nat × Bool))
  | stale (landing : Nat)
deriving DecidableEq, Repr

/-- The TXN records (R519, R520): commit point as a word, T and D in array-time ticks. -/
inductive TxnMsg where
  | openReq (landing tag : Nat)
  | announce (id slot origin tag result : Nat)
  | prepareReq (id : Nat) (point : Word)
  | prepare (id time decide carrier : Nat)
  | vote (id yes no cause : Nat)
  | decision (id : Nat) (commit : Bool) (cause landing : Nat)
  | abortReq (id landing : Nat)
  | query (id landing : Nat)
  | hold (id : Nat) (held : Bool) (carrier symbol : Nat)
  | outcomes (landing : Nat) (entries : List (Nat × Nat))
deriving DecidableEq, Repr

/-- What a HELLO says (R447). -/
structure Hello where
  landing : Nat
  role : Nat
  tree : Nat
  depth : Nat
  tag : Nat
  count : Nat
  top : Nat
deriving DecidableEq, Repr, Inhabited

/-- What a detect burst says (R435). -/
structure Burst where
  landing : Nat
  port : Nat
  split : Bool
  tag : Nat
  ack : Bool
deriving DecidableEq, Repr, Inhabited

/-- The records of a flight (R443). A REPARENT asks (0), confirms (1) or refuses (2), and
asks with the landings of the subtree that moves; a TREE record may name one landing. -/
inductive StairMsg where
  | partialSum (x : Chunk)
  | supplement (origin : Nat) (x : Chunk)
  | missing (root carrier layer slot sym first : Nat)
  | layer (x : Chunk)
  | sections (carrier : Nat) (l : List (Nat × CSection))
  | finished (x : Chunk)
  | txn (m : TxnMsg)
  | time (index : Nat) (t1 t4 : Int)
  | join (landing uid : Nat) (path : List Nat)
  | tree (state path addition start : Nat) (target : Option Nat)
  | reparent (landing carrier symbol kind : Nat) (members : List (Nat × List Nat))
  | resume (carrier symbol : Nat)
  | gram (carrier slot : Nat) (l : List GramRec)
  | inverse (carrier slot : Nat) (l : List InverseRec)
  | ota (m : OtaMsg)
  | hello (h : Hello)
  | sleep
deriving DecidableEq, Repr

/-- The commands. Each constructor's docstring names its row and rule. -/
inductive Instr where
  /-- REGISTER_WRITE (R7): a host write of a register without behaviour of its own. -/
  | registerWrite (t : Nat) (ch : Channel) (addr value : Word)
  /-- LOW_HALF_READ (R9). -/
  | lowHalfRead (t : Nat) (ch : Channel) (addr : Word)
  /-- HIGH_HALF_READ (R11). -/
  | highHalfRead (t : Nat) (ch : Channel) (addr : Word)
  /-- HIGH_HALF_WRITE (R13). -/
  | highHalfWrite (t : Nat) (ch : Channel) (addr value : Word)
  /-- LOW_HALF_WRITE (R14). -/
  | lowHalfWrite (t : Nat) (ch : Channel) (addr value : Word)
  /-- WINDOW_WRITE (R506): a word written into the shared-memory window. -/
  | windowWrite (t : Nat) (ch : Channel) (addr value : Word)
  /-- READ (R658): a vestibule frame READ. -/
  | read (t : Nat) (f : VestFrame)
  /-- WRITE (R658): a vestibule frame WRITE. -/
  | write (t : Nat) (f : VestFrame)
  /-- READ_BURST (R658): a vestibule frame READ_BURST. -/
  | readBurst (t : Nat) (f : VestFrame)
  /-- VEST_FRAME_TIMEOUT (R722). -/
  | vestFrameTimeout (t : Nat)
  /-- SXM_HELLO (R663): the UDP payload of a HELLO. -/
  | sxmHello (t : Nat) (src : Source) (msg : List Byte)
  /-- REQUEST (R664): the UDP payload of a REQUEST. -/
  | request (t : Nat) (src : Source) (msg : List Byte)
  /-- CLOSE (R667): the UDP payload of a CLOSE. -/
  | close (t : Nat) (src : Source) (msg : List Byte)
  /-- SXM_IDLE_TIMEOUT (R667) of session `n` + 1. -/
  | sxmIdleTimeout (t : Nat) (n : Fin 8)
  /-- SXM_CTL_WRITE (R667): a host write of HOST.SXM_CTL. -/
  | sxmCtlWrite (t : Nat) (ch : Channel) (value : Word)
  /-- NOTIFY (R668) of session `n` + 1. -/
  | notify (t : Nat) (n : Fin 8)
  /-- KEEP_READ (R681). -/
  | keepRead (t : Nat) (ch : Channel)
  /-- PROGRAM (R681). -/
  | program (t : Nat) (ch : Channel)
  /-- BEGIN (R681). -/
  | keepBegin (t : Nat) (ch : Channel)
  /-- COMMIT (R678). -/
  | keepCommit (t : Nat) (ch : Channel)
  /-- ABORT_UPDATE (R681). -/
  | abortUpdate (t : Nat) (ch : Channel)
  /-- ERASE_SLOT (R681). -/
  | eraseSlot (t : Nat) (ch : Channel)
  /-- COPY (R681). -/
  | copy (t : Nat) (ch : Channel)
  /-- KEEP_CMD_DONE (R682). -/
  | keepCmdDone (t : Nat)
  /-- LOG_PAGE_PROGRAM (R680). -/
  | logPageProgram (t : Nat)
  /-- OTP_PROGRAM (R684). -/
  | otpProgram (t : Nat) (ch : Channel)
  /-- NONCE (R688). -/
  | nonce (t : Nat) (ch : Channel)
  /-- UNLOCK (R688). -/
  | unlock (t : Nat) (ch : Channel)
  /-- SXM_KEY_STORE (R686). -/
  | sxmKeyStore (t : Nat) (ch : Channel) (slot : Fin 4)
  /-- SXM_KEY_CLEAR (R686). -/
  | sxmKeyClear (t : Nat) (ch : Channel) (slot : Fin 4)
  /-- SECURITY_CMD_DONE (R684). -/
  | securityCmdDone (t : Nat)
  /-- LOAD (R91). -/
  | load (t : Nat) (ch : Channel)
  /-- LOAD_INSTALL (R92). -/
  | loadInstall (t : Nat)
  /-- VERIFY (R98). -/
  | verify (t : Nat) (ch : Channel)
  /-- VERIFY_DONE (R113). -/
  | verifyDone (t : Nat)
  /-- CONFIRM (R112). -/
  | confirm (t : Nat) (ch : Channel)
  /-- RAISE_FLOOR (R111). -/
  | raiseFloor (t : Nat) (ch : Channel)
  /-- PREFER (R112). -/
  | prefer (t : Nat) (ch : Channel) (slot : Fin 2)
  /-- TRY (R112). -/
  | tryCmd (t : Nat) (ch : Channel) (slot : Fin 2)
  /-- LOCK (R95). -/
  | lock (t : Nat) (ch : Channel)
  /-- SLOT_RECORD_UPDATE_DONE (R112). -/
  | slotRecordUpdateDone (t : Nat)
  /-- FULL_RESET (R673). `source` is the event of R702: 1 POWER_ON, 2 PIN, 3 HOST, 5 AUTO_RESTART; `ch` the channel of a HOST reset.
  `failed` holds what fails, here and below: 0x1 and a tile, 0x2 and a path or 64 + a spare
  pipeline, 0x5 and a bank or 768 + a spare bank that fails self-test (R675); 0x0 and the address of a TRIM register whose OTP word fails (R644);
  0x6 and a keep slot that cannot be read (R83). -/
  | fullReset (t : Nat) (source : Fin 6) (ch : Channel) (failed : List (Nat × Nat))
  /-- BOOT_READY (R674). `passed` gives what the start-up calibration of each path that passed has found; `failed` gives, for each path
  that failed a step, the path, the calibration, the result and the precondition (R175, R176). -/
  | bootReady (t : Nat) (passed : List (Fin 64 × List CalResult)) (failed : List (Fin 64 × Nat × Nat × Nat))
  /-- PIN_RESET (R672): RESET_N is low for `ns` nanoseconds. -/
  | pinReset (t : Nat) (ns : Nat)
  /-- POWER_GOOD_FALL (R712): power-good input `n` falls for `ns` nanoseconds. -/
  | powerGoodFall (t : Nat) (n : Fin 4) (ns : Nat)
  /-- HOST_RESET (R672): a host write of HOST.RESET. -/
  | hostReset (t : Nat) (ch : Channel) (value : Word) (failed : List (Nat × Nat))
  /-- BOOT_STEP_TIMEOUT (R675): boot step 2 to 4 exceeds its timeout in unit `unit`. -/
  | bootStepTimeout (t : Nat) (step : Nat) (unit : Nat)
  /-- RESET_N_RELEASE (R654): RESET_N rises with DEV_ID at `devId`. -/
  | resetNRelease (t : Nat) (devId : BitVec 9) (failed : List (Nat × Nat))
  /-- POWER_GOOD_RISE (R714): power-good input `n` rises. -/
  | powerGoodRise (t : Nat) (n : Fin 4) (failed : List (Nat × Nat))
  /-- DC_BLOCK_UPDATE (R128): a block of 64 samples of path `p`. -/
  | dcBlockUpdate (t : Nat) (p : Fin 64) (samples : List Cplx)
  /-- IQ_WINDOW_END (R131): the window's mean power in 1/256 dBFS and the estimated residual of each tap. -/
  | iqWindowEnd (t : Nat) (p : Fin 64) (power : Int) (residual : List Cplx)
  /-- BLANK_RISE (R144) of input BLANKn. -/
  | blankRise (t : Nat) (n : Fin 4)
  /-- BLANK_FALL (R145) of input BLANKn. -/
  | blankFall (t : Nat) (n : Fin 4)
  /-- PATH_RETIRE (R178): a host write of 1 to retire. -/
  | pathRetire (t : Nat) (ch : Channel) (p : Fin 64)
  /-- PATH_FAULT (R178): a failure with cause 1 to 5 is detected. -/
  | pathFault (t : Nat) (p : Fin 64) (cause : Fin 6)
  /-- FEM_SCRIPT (R149): event `ev` runs on the bus of group `g`; `replies` holds, for each path of the group, its slave's answers in read order
  (none: no reply or parity error). -/
  | femScript (t : Nat) (g : Fin 8) (ev : FemEvent) (replies : List (List (Option Byte)))
  /-- FEM_INIT_TIMEOUT (R151): `served` paths of the group were served. -/
  | femInitTimeout (t : Nat) (g : Fin 8) (served : Nat)
  /-- LO_BIAS_DONE (R153). -/
  | loBiasDone (t : Nat) (b : Fin 2)
  /-- LO_BAND_DONE (R153). -/
  | loBandDone (t : Nat) (b : Fin 2)
  /-- LO_LOCK_DECLARED (R153). -/
  | loLockDeclared (t : Nat) (b : Fin 2)
  /-- LO_ACQUIRE_TIMEOUT (R153). -/
  | loAcquireTimeout (t : Nat) (b : Fin 2)
  /-- LO_SETTLE_DONE (R153). -/
  | loSettleDone (t : Nat) (b : Fin 2)
  /-- LO_LOCK_LOSS (R157). -/
  | loLockLoss (t : Nat) (b : Fin 2)
  /-- LO_HANDBACK (R161). -/
  | loHandback (t : Nat) (b : Fin 2)
  /-- LO_RELOCK (R154): a host write of relock. -/
  | loRelock (t : Nat) (ch : Channel) (b : Fin 2)
  /-- RX_DC (R167). `fem` gives the slave's answers to the check script of the precondition (R149). -/
  | rxDc (t : Nat) (ch : Channel) (p : Fin 64) (fem : List (Option Byte))
  /-- RX_IQ (R167). -/
  | rxIq (t : Nat) (ch : Channel) (p : Fin 64) (fem : List (Option Byte))
  /-- TX_LOL (R167). -/
  | txLol (t : Nat) (ch : Channel) (p : Fin 64) (fem : List (Option Byte))
  /-- TX_IQ (R167). -/
  | txIq (t : Nat) (ch : Channel) (p : Fin 64) (fem : List (Option Byte))
  /-- OBS (R172). -/
  | obs (t : Nat) (ch : Channel) (p : Fin 64)
  /-- ALL (R167): answers to PA_CHECK and RX_CHECK. -/
  | all (t : Nat) (ch : Channel) (p : Fin 64) (rx tx : List (Option Byte))
  /-- CAL_CANCEL (R173). -/
  | calCancel (t : Nat) (ch : Channel) (p : Fin 64)
  /-- CAL_START (R172). -/
  | calStart (t : Nat) (p : Fin 64)
  /-- CAL_DONE (R174): the measured result of each part, in order. -/
  | calDone (t : Nat) (p : Fin 64) (results : List CalResult)
  /-- CAL_LOST_MIDWAY (R170): precondition `precond` fails during a calibration. -/
  | calLostMidway (t : Nat) (p : Fin 64) (precond : Nat)
  /-- OBS_ATTEMPT (R212) of group `g`. -/
  | obsAttempt (t : Nat) (g : Fin 8)
  /-- OBS_CAPTURE_DONE (R218): the observation receiver's 12-bit codes of the window, in-phase and quadrature, and the two sums of its
  NMSE (spec/04_transmit_dfe.md, before R221) as the vendor's program forms them, of |z / G - x|² and of |x|². -/
  | obsCaptureDone (t : Nat) (g : Fin 8) (inPhase quadrature : List Int) (err ref : Nat)
  /-- OBS_HOST_REQ (R217): a host write of host_req with host_path `n`. -/
  | obsHostReq (t : Nat) (ch : Channel) (g n : Fin 8)
  /-- OBS_RELEARN (R218): a host write of relearn. -/
  | obsRelearn (t : Nat) (ch : Channel) (g : Fin 8)
  /-- DPD_ROUND_END (R221). -/
  | dpdRoundEnd (t : Nat) (g : Fin 8)
  /-- DPD_FIT_DONE (R222): the tables the vendor program fitted, 8,320 bytes a path. -/
  | dpdFitDone (t : Nat) (g : Fin 8) (tables : List (Nat × List Byte))
  /-- DPD_VERIFY_END (R223). -/
  | dpdVerifyEnd (t : Nat) (g : Fin 8)
  /-- DPD_DISCARD (R225): a host write of discard. -/
  | dpdDiscard (t : Nat) (ch : Channel) (g : Fin 8)
  /-- DPD_MODE_WRITE (R227): a host write of DPD_ADAPT. -/
  | dpdModeWrite (t : Nat) (ch : Channel) (g : Fin 8) (value : Word)
  /-- SYMBOL_BOUNDARY (R45) of carrier `c`: for each path, its ADC codes at 1966.08 MS/s from 65,536 samples before the symbol that ends to
  65,536 after its end (empty: none received). -/
  | symbolBoundary (t : Nat) (c : Fin 8) (adc : List (List Cplx))
  /-- RELEASE_TIME (R24). -/
  | releaseTime (t : Nat)
  /-- DOWNLINK_DEADLINE (R29) of the next symbol of carrier `c`. -/
  | downlinkDeadline (t : Nat) (c : Fin 8)
  /-- CARRIER_START (R250). -/
  | carrierStart (t : Nat) (c : Fin 8)
  /-- CARRIER_STOP (R250): the codes of its last symbol, as SYMBOL_BOUNDARY has them. -/
  | carrierStop (t : Nat) (c : LastSymbol)
  /-- CAP_ARM (R266): a host write of CAP_CTL with arm. -/
  | capArm (t : Nat) (ch : Channel) (value : Word)
  /-- CAP_CANCEL (R266). -/
  | capCancel (t : Nat) (ch : Channel)
  /-- CAP_TRIGGER (R266). -/
  | capTrigger (t : Nat)
  /-- CAP_END (R265): the ADC codes of the capture's path in the symbol in progress, from 65,536 samples before it. -/
  | capEnd (t : Nat) (codes : List Cplx)
  /-- PRACH_OCCASION (R251): carrier `c`'s occasion number `n`; for each path, its ADC codes from 65,536 samples before the occasion to 65,536
  after its end (empty: none received). -/
  | prachOccasion (t : Nat) (c : Fin 8) (n : Nat) (adc : List (List Cplx))
  /-- SOLVER_EPOCH_START (R300) of carrier `c`. -/
  | solverEpochStart (t : Nat) (c : Fin 8)
  /-- SOLVER_EPOCH_DONE (R303) of carrier `c`. -/
  | solverEpochDone (t : Nat) (c : Fin 8)
  /-- Hall instruction NOP (R322): hall `h` issues the word at its PC. -/
  | nop (t : Nat) (h : Fin 136)
  /-- Hall instruction JMP (R323): hall `h` issues the word at its PC. -/
  | jmp (t : Nat) (h : Fin 136)
  /-- Hall instruction CALL (R322): hall `h` issues the word at its PC. -/
  | call (t : Nat) (h : Fin 136)
  /-- Hall instruction RET (R341): hall `h` issues the word at its PC. -/
  | ret (t : Nat) (h : Fin 136)
  /-- Hall instruction LOOP (R341): hall `h` issues the word at its PC. -/
  | loop (t : Nat) (h : Fin 136)
  /-- Hall instruction WAITE (R346): hall `h` issues the word at its PC. -/
  | waite (t : Nat) (h : Fin 136)
  /-- Hall instruction RETE (R345): hall `h` issues the word at its PC. -/
  | rete (t : Nat) (h : Fin 136)
  /-- Hall instruction EVMASK (R322): hall `h` issues the word at its PC. -/
  | evmask (t : Nat) (h : Fin 136)
  /-- Hall instruction SIG (R322): hall `h` issues the word at its PC. -/
  | sig (t : Nat) (h : Fin 136)
  /-- Hall instruction ADDI (R322): hall `h` issues the word at its PC. -/
  | addi (t : Nat) (h : Fin 136)
  /-- Hall instruction LUI (R322): hall `h` issues the word at its PC. -/
  | lui (t : Nat) (h : Fin 136)
  /-- Hall instruction ORI (R322): hall `h` issues the word at its PC. -/
  | ori (t : Nat) (h : Fin 136)
  /-- Hall instruction ADD (R322): hall `h` issues the word at its PC. -/
  | add (t : Nat) (h : Fin 136)
  /-- Hall instruction SUB (R322): hall `h` issues the word at its PC. -/
  | sub (t : Nat) (h : Fin 136)
  /-- Hall instruction AND (R322): hall `h` issues the word at its PC. -/
  | hallAnd (t : Nat) (h : Fin 136)
  /-- Hall instruction OR (R322): hall `h` issues the word at its PC. -/
  | hallOr (t : Nat) (h : Fin 136)
  /-- Hall instruction XOR (R322): hall `h` issues the word at its PC. -/
  | hallXor (t : Nat) (h : Fin 136)
  /-- Hall instruction SHL (R322): hall `h` issues the word at its PC. -/
  | shl (t : Nat) (h : Fin 136)
  /-- Hall instruction SHRA (R322): hall `h` issues the word at its PC. -/
  | shra (t : Nat) (h : Fin 136)
  /-- Hall instruction SHRL (R322): hall `h` issues the word at its PC. -/
  | shrl (t : Nat) (h : Fin 136)
  /-- Hall instruction CMP (R322): hall `h` issues the word at its PC. -/
  | cmp (t : Nat) (h : Fin 136)
  /-- Hall instruction GETS (R340): hall `h` issues the word at its PC. -/
  | gets (t : Nat) (h : Fin 136)
  /-- Hall instruction PUTS (R340): hall `h` issues the word at its PC. -/
  | puts (t : Nat) (h : Fin 136)
  /-- Hall instruction LDV (R322): hall `h` issues the word at its PC. -/
  | ldv (t : Nat) (h : Fin 136)
  /-- Hall instruction LDB (R322): hall `h` issues the word at its PC. -/
  | ldb (t : Nat) (h : Fin 136)
  /-- Hall instruction LDL (R322): hall `h` issues the word at its PC. -/
  | ldl (t : Nat) (h : Fin 136)
  /-- Hall instruction STV (R322): hall `h` issues the word at its PC. -/
  | stv (t : Nat) (h : Fin 136)
  /-- Hall instruction STL (R322): hall `h` issues the word at its PC. -/
  | stl (t : Nat) (h : Fin 136)
  /-- Hall instruction LDW (R322): hall `h` issues the word at its PC. -/
  | ldw (t : Nat) (h : Fin 136)
  /-- Hall instruction STW (R322): hall `h` issues the word at its PC. -/
  | stw (t : Nat) (h : Fin 136)
  /-- Hall instruction SEND (R359): hall `h` issues the word at its PC. -/
  | send (t : Nat) (h : Fin 136)
  /-- Hall instruction FETCH (R361): hall `h` issues the word at its PC. -/
  | fetch (t : Nat) (h : Fin 136)
  /-- Hall instruction CMUL (R322): hall `h` issues the word at its PC. -/
  | cmul (t : Nat) (h : Fin 136)
  /-- Hall instruction CMAC (R322): hall `h` issues the word at its PC. -/
  | cmac (t : Nat) (h : Fin 136)
  /-- Hall instruction CMSC (R322): hall `h` issues the word at its PC. -/
  | cmsc (t : Nat) (h : Fin 136)
  /-- Hall instruction RMAC (R322): hall `h` issues the word at its PC. -/
  | rmac (t : Nat) (h : Fin 136)
  /-- Hall instruction VADD (R322): hall `h` issues the word at its PC. -/
  | vadd (t : Nat) (h : Fin 136)
  /-- Hall instruction VSUB (R322): hall `h` issues the word at its PC. -/
  | vsub (t : Nat) (h : Fin 136)
  /-- Hall instruction VSHR (R322): hall `h` issues the word at its PC. -/
  | vshr (t : Nat) (h : Fin 136)
  /-- Hall instruction VSHL (R322): hall `h` issues the word at its PC. -/
  | vshl (t : Nat) (h : Fin 136)
  /-- Hall instruction VMOV (R322): hall `h` issues the word at its PC. -/
  | vmov (t : Nat) (h : Fin 136)
  /-- Hall instruction CLRA (R328): hall `h` issues the word at its PC. -/
  | clra (t : Nat) (h : Fin 136)
  /-- Hall instruction EXTR (R322): hall `h` issues the word at its PC. -/
  | extr (t : Nat) (h : Fin 136)
  /-- Hall instruction RSUM (R332): hall `h` issues the word at its PC. -/
  | rsum (t : Nat) (h : Fin 136)
  /-- Hall instruction EXP (R329): hall `h` issues the word at its PC. -/
  | hallExp (t : Nat) (h : Fin 136)
  /-- Hall instruction NORM (R330): hall `h` issues the word at its PC. -/
  | norm (t : Nat) (h : Fin 136)
  /-- Hall instruction CLRF (R322): hall `h` issues the word at its PC. -/
  | clrf (t : Nat) (h : Fin 136)
  /-- EVENT_ACCEPT (R344) by hall `h`. -/
  | eventAccept (t : Nat) (h : Fin 136)
  /-- MBOX_IN_WRITE (R348). -/
  | mboxInWrite (t : Nat) (ch : Channel) (h : Fin 136) (value : Word)
  /-- DM_DATA_ACCESS (R368): a host read (no value) or write of HALL[h].DM_DATA. -/
  | dmDataAccess (t : Nat) (ch : Channel) (h : Fin 136) (value : Option Word)
  /-- FLIT_ARRIVAL (R354): the oldest flit of flow `f` of hall `h` that is on its way reaches its destination. -/
  | flitArrival (t : Nat) (h : Fin 136) (f : Fin 16)
  /-- FETCH_RESULT (R361): the oldest flit that hall `h` has fetched arrives. -/
  | fetchResult (t : Nat) (h : Fin 136)
  /-- HALL_TIMER (R342). -/
  | hallTimer (t : Nat) (h : Fin 136)
  /-- DOORBELL (R342). -/
  | doorbell (t : Nat) (h : Fin 136)
  /-- ROUTE_FLIT_RELEASE (R105) of flow `f` of hall `h`. -/
  | routeFlitRelease (t : Nat) (h : Fin 136) (f : Fin 16)
  /-- PORT_SIGNAL_DETECT (R373) on every lane of FPn. -/
  | portSignalDetect (t : Nat) (n : Fin 8)
  /-- PORT_TRAIN_DONE (R373): the figure of merit of each lane of FPn. -/
  | portTrainDone (t : Nat) (n : Fin 8) (foms : List Nat)
  /-- PORT_ALIGN_DONE (R373): lanes aligned, no Local Fault for 100 µs. -/
  | portAlignDone (t : Nat) (n : Fin 8)
  /-- PORT_TRAIN_TIMEOUT (R374). -/
  | portTrainTimeout (t : Nat) (n : Fin 8)
  /-- PORT_RETRY (R374). -/
  | portRetry (t : Nat) (n : Fin 8)
  /-- LINK_FAULT (R375): cause 1 to 6 on FPn. -/
  | linkFault (t : Nat) (n : Fin 8) (cause : Fin 7)
  /-- FLOW_RETURN_HOME (R407) of a partner's flows. -/
  | flowReturnHome (t : Nat) (n : Fin 64)
  /-- UL_STALE_DISCARD (R405) on FPn. -/
  | ulStaleDiscard (t : Nat) (n : Fin 8)
  /-- FRAME_RECEIVE (R379) on FPn. -/
  | frameReceive (t : Nat) (n : Fin 8) (f : Frame)
  /-- CPLANE_MESSAGE (R399) of partner entry `n`. -/
  | cplaneMessage (t : Nat) (n : Fin 64) (eaxc seq : Nat) (sections : List CSection)
  /-- GAP_SKIP (R400) of an entry's window. -/
  | gapSkip (t : Nat) (n : Fin 64) (eaxc : Nat)
  /-- UPLANE_SECTION (R388) of partner entry `n`. -/
  | uplaneSection (t : Nat) (n : Fin 64) (eaxc : Nat) (u : USection)
  /-- DELAY_MEASUREMENT (R413): action code, measurement ID, receive timestamp in ps. -/
  | delayMeasurement (t : Nat) (n : Fin 8) (action id : Nat) (stamp : Int)
  /-- PTP_MESSAGE (R410) on FPn in a domain. -/
  | ptpMessage (t : Nat) (n : Fin 8) (domain : Nat) (body : PtpBody)
  /-- ARP_REQUEST (R414): the requester's MAC and IPv4 address and the address asked for. -/
  | arpRequest (t : Nat) (n : Fin 8) (mac : List Byte) (ip target : List Byte)
  /-- NEIGHBOUR_SOLICITATION (R414). -/
  | neighbourSolicitation (t : Nat) (n : Fin 8) (mac : List Byte) (ip target : List Byte)
  /-- ECHO_REQUEST (R414): ICMP or ICMPv6, with its identifier, sequence number and data. -/
  | echoRequest (t : Nat) (n : Fin 8) (src dst : List Byte) (id seq : Nat) (data : List Byte)
  /-- PT_CONFIRM (R396): a host write of confirm. -/
  | ptConfirm (t : Nat) (ch : Channel) (n : Fin 64)
  /-- FH_ADAPT_COMMIT (R417): the figure of merit of a fronthaul lane at a 1 ms commit. -/
  | fhAdaptCommit (t : Nat) (lane : Fin 8) (fom : Nat)
  /-- INJ_ONE (R418): a host write of inj_one. -/
  | injOne (t : Nat) (ch : Channel) (lane : Fin 8)
  /-- CHECKER_LOCK (R418): 64 error-free bits on a lane, then the bits and errors counted since. -/
  | checkerLock (t : Nat) (lane : Fin 8) (bits errors : Nat)
  /-- CODEWORD_RECEIVE (R428) on lane `lane` of its port: number, control bit 9, the ack of a pilot block where one came with it, and
  the FEC's verdict: 0 clean, 1 corrected, 2 uncorrectable. -/
  | codewordReceive (t : Nat) (lane : Fin 16) (seq : Nat) (content : Bool) (ack : Option Nat) (fec : Fin 3)
  /-- CODEWORD_RESEND (R429) on a port: the oldest unacknowledged codeword due. -/
  | codewordResend (t : Nat) (port : Fin 4)
  /-- ACK_STALL (R429). -/
  | ackStall (t : Nat) (port : Fin 4)
  /-- DETECT_BURST (R435) with a valid CRC. -/
  | detectBurst (t : Nat) (port : Fin 4) (b : Burst)
  /-- DETECT_BURST_SEND (R435). -/
  | detectBurstSend (t : Nat) (port : Fin 4)
  /-- ECHO_PHASE_END (R436). -/
  | echoPhaseEnd (t : Nat) (port : Fin 4)
  /-- FAR_EQ_DONE (R437): the figure of merit of each lane of the port. -/
  | farEqDone (t : Nat) (port : Fin 4) (foms : List Nat)
  /-- FULL_DONE (R437): the 16 delay measurements in ps. -/
  | fullDone (t : Nat) (port : Fin 4) (delays : List Int)
  /-- PORT_PHASE_TIMEOUT (R438). -/
  | portPhaseTimeout (t : Nat) (port : Fin 4)
  /-- HOLDOFF_END (R438). -/
  | holdoffEnd (t : Nat) (port : Fin 4)
  /-- STAIR_ADAPT_COMMIT (R433) of a lane with its figure of merit. -/
  | stairAdaptCommit (t : Nat) (lane : Fin 16) (fom : Nat)
  /-- IDLE_ROLLBACK (R434) of a lane with its figure of merit. -/
  | idleRollback (t : Nat) (lane : Fin 16) (fom : Nat)
  /-- LANE_IDLE (R434). -/
  | laneIdle (t : Nat) (lane : Fin 16)
  /-- LANE_FAULT (R453) with cause 1 to 5. -/
  | laneFault (t : Nat) (lane : Fin 16) (cause : Fin 6)
  /-- LANE_REJOIN (R453). -/
  | laneRejoin (t : Nat) (lane : Fin 16)
  /-- FLIGHT_FAULT (R454) with its cause, 8 to 14 of PORT_STATUS. -/
  | flightFault (t : Nat) (port : Fin 4) (cause : Fin 16)
  /-- HELLO_SEND (R447). -/
  | helloSend (t : Nat) (port : Fin 4)
  /-- HELLO_TIMEOUT (R447). -/
  | helloTimeout (t : Nat) (port : Fin 4)
  /-- HELLO (R447). -/
  | hello (t : Nat) (port : Fin 4) (h : Hello)
  /-- PARTIAL (R445) from a child. -/
  | partialSum (t : Nat) (port : Fin 4) (x : Chunk)
  /-- CHUNK_FORWARD (R445) of a chunk: carrier, layer, slot, symbol, first PRB. -/
  | chunkForward (t : Nat) (carrier layer slot sym first : Nat)
  /-- SUPPLEMENT (R459). -/
  | supplement (t : Nat) (port : Fin 4) (origin : Nat) (x : Chunk)
  /-- MISSING (R458): the missing subtree's root and the chunk. -/
  | missing (t : Nat) (port : Fin 4) (root carrier layer slot sym first : Nat)
  /-- LAYER (R443). -/
  | layer (t : Nat) (port : Fin 4) (x : Chunk)
  /-- SECTIONS (R302): sections by layer. -/
  | sections (t : Nat) (port : Fin 4) (carrier : Nat) (l : List (Nat × CSection))
  /-- FINISHED (R443). -/
  | finished (t : Nat) (port : Fin 4) (x : Chunk)
  /-- TIME (R464): the index and the parent's times in ps. -/
  | time (t : Nat) (port : Fin 4) (index : Nat) (t1 t4 : Int)
  /-- TIME_MARK (R463): a marked pilot block is sent, or (`heard`) received, at an array time in ps. -/
  | timeMark (t : Nat) (port : Fin 4) (heard : Option Nat) (stamp : Int)
  /-- JOIN (R450): landing number, UID, and its path of ports so far. -/
  | join (t : Nat) (port : Fin 4) (landing uid : Nat) (path : List Nat)
  /-- TREE (R451). -/
  | tree (t : Nat) (port : Fin 4) (state path addition start : Nat) (target : Option Nat)
  /-- TREE_HEARTBEAT (R452) of the top. -/
  | treeHeartbeat (t : Nat)
  /-- TREE_LOST (R452). -/
  | treeLost (t : Nat)
  /-- REPARENT (R456): the landings of the moving subtree with their paths so far. -/
  | reparent (t : Nat) (port : Fin 4) (landing carrier symbol : Nat) (kind : Fin 3) (members : List (Nat × List Nat))
  /-- REPARENT_TIMEOUT (R456). -/
  | reparentTimeout (t : Nat)
  /-- RESUME (R460). -/
  | resume (t : Nat) (port : Fin 4) (carrier symbol : Nat)
  /-- GRAM (R305). -/
  | gram (t : Nat) (port : Fin 4) (carrier slot : Nat) (l : List GramRec)
  /-- INVERSE (R311). -/
  | inverse (t : Nat) (port : Fin 4) (carrier slot : Nat) (l : List InverseRec)
  /-- SLEEP (R467). -/
  | sleep (t : Nat) (port : Fin 4)
  /-- WAKE_PATTERN_DETECT (R468): the wake pattern, or activity alone. -/
  | wakePatternDetect (t : Nat) (port : Fin 4) (pattern : Bool)
  /-- WAKE_PATTERN_SENT (R469). -/
  | wakePatternSent (t : Nat) (port : Fin 4)
  /-- STAIR_WAKE (R469): a host write of wake. -/
  | stairWake (t : Nat) (ch : Channel) (port : Fin 4)
  /-- STAIR_RETRAIN (R441): a host write of retrain. -/
  | stairRetrain (t : Nat) (ch : Channel) (port : Fin 4)
  /-- LANE_TXF_WRITE (R432): a host write of LANE_TXF, or the far end's request (no channel). -/
  | laneTxfWrite (t : Nat) (ch : Option Channel) (lane : Fin 16) (value : Word)
  /-- MASK_WRITE (R432): a host write of MASKk. -/
  | maskWrite (t : Nat) (ch : Channel) (k : Fin 8) (value : Word)
  /-- OTA_START (R477): a host write of start. -/
  | otaStart (t : Nat) (ch : Channel)
  /-- OTA_DISCARD (R495): a host write of discard. -/
  | otaDiscard (t : Nat) (ch : Channel)
  /-- OTA_ROUND_TIMER (R477). -/
  | otaRoundTimer (t : Nat)
  /-- SCHEDULE (R478). -/
  | schedule (t : Nat) (round first period : Nat) (windows : List OtaWindow)
  /-- OTA_WINDOW (R475): window `number` begins, or ends; at the end of a LOOP window the factors measured, in the layout of TX_CORR:
  path, τ, ρ (R472). -/
  | otaWindow (t : Nat) (number : Nat) (ends : Bool) (factors : List (Nat × Word × Word))
  /-- OTA_DETECTION (R485): a detection declared by correlator `k` on detection path D0 or D1 with its metric in Q8.8 dB. -/
  | otaDetection (t : Nat) (k : Fin 2) (path : Fin 2) (metric : Int)
  /-- OTA_CAPTURE_DONE (R489): the 64 header bits, each path's 768 measurement samples at 30.72 MS/s, and the overload
  samples counted. -/
  | otaCaptureDone (t : Nat) (k : Fin 2) (header : BitVec 64) (streams : List (List Cplx)) (overloads : Nat)
  /-- REPORT (R492). -/
  | report (t : Nat) (round window sender receiver phi : Nat) (metric : Int)
  /-- MISSED (R490). -/
  | missed (t : Nat) (round window receiver sender : Nat)
  /-- OTA_RETRY_SCHEDULE (R491) at the top. -/
  | otaRetrySchedule (t : Nat)
  /-- OTA_SOLUTION_DONE (R492): what the vendor program gives: ψ by landing, and the top's residual. -/
  | otaSolutionDone (t : Nat) (psi : List (Nat × Nat)) (resid : Nat)
  /-- SOLUTION (R494): landing, ψ, unreached. -/
  | solution (t : Nat) (round : Nat) (entries : List (Nat × Nat × Bool))
  /-- STALE (R497) of a landing. -/
  | stale (t : Nat) (landing : Nat)
  /-- OPEN (R502). -/
  | openLocal (t : Nat) (ch : Channel)
  /-- OPEN_ARRAY (R520). -/
  | openArray (t : Nat) (ch : Channel)
  /-- PREPARE (R510) of the slot operand. -/
  | prepare (t : Nat) (ch : Channel) (slot : Fin 32)
  /-- ABORT (R515). -/
  | abort (t : Nat) (ch : Channel) (slot : Fin 32)
  /-- RELEASE (R516). -/
  | release (t : Nat) (ch : Channel) (slot : Fin 32)
  /-- TXN_BIND (R503): a write of TXN.BIND. -/
  | txnBind (t : Nat) (ch : Channel) (value : Word)
  /-- LIVE_PREPARE_DONE (R510) of a slot. -/
  | livePrepareDone (t : Nat) (slot : Fin 20)
  /-- OPEN_REQ (R520): requesting landing and tag. -/
  | openReq (t : Nat) (landing tag : Nat)
  /-- ANNOUNCE (R520). -/
  | announce (t : Nat) (id slot origin tag result : Nat)
  /-- PREPARE_REQ (R521): ID and commit point in the layout of SLOT_CTL. -/
  | prepareReq (t : Nat) (id : Nat) (point : Word)
  /-- PREPARE message (R522): ID, T, D, carrier. -/
  | prepareMessage (t : Nat) (id time decide carrier : Nat)
  /-- VOTE (R523) from the child on a stair port: YES count, lowest NO landing or 0xFFFF, its cause. -/
  | vote (t : Nat) (port : Fin 4) (id yes no cause : Nat)
  /-- DECISION (R525). -/
  | decision (t : Nat) (id : Nat) (commit : Bool) (cause landing : Nat)
  /-- TXN_DECISION_TIMEOUT (R523) of an array-wide slot. -/
  | txnDecisionTimeout (t : Nat) (slot : Fin 29)
  /-- ABORT_REQ (R524). -/
  | abortReq (t : Nat) (id landing : Nat)
  /-- QUERY (R526) received on a stair port. -/
  | query (t : Nat) (port : Fin 4) (id landing : Nat)
  /-- QUERY_RETRY (R527) of a slot. -/
  | queryRetry (t : Nat) (slot : Fin 29)
  /-- HOLD (R527) from the child on a stair port: flag, first held carrier and symbol. -/
  | hold (t : Nat) (port : Fin 4) (id : Nat) (held : Bool) (carrier symbol : Nat)
  /-- OUTCOMES (R528): landing, IDs with their outcomes (3 COMMITTED, 4 ABORTED, 0x12 in doubt). -/
  | outcomes (t : Nat) (landing : Nat) (entries : List (Nat × Nat))
  /-- COMMIT_LATCH (R512). -/
  | commitLatch (t : Nat)
  /-- INTERNAL_CHECKPOINT (R531) of a hardened unit. -/
  | internalCheckpoint (t : Nat) (unit : Nat)
  /-- HALL_FAULT (R536) of a tile: 0 to 135 a hall's own, 136 to 143 an alcove's. `carriers` has bit c set where work of carrier Cc
  waits for the hall. -/
  | hallFault (t : Nat) (tile : Fin 144) (carriers : Nat)
  /-- PIPE_FAULT (R536) of the pipeline that serves path `p`. -/
  | pipeFault (t : Nat) (p : Fin 64)
  /-- BEAM_FAULT (R536). -/
  | beamFault (t : Nat)
  /-- ATRIUM_FAULT (R536); `carriers` as in HALL_FAULT. -/
  | atriumFault (t : Nat) (carriers : Nat)
  /-- SCRUB_PASS (R536) of a bank: the errors it corrected, and the byte offset in the bank of an uncorrectable word. -/
  | scrubPass (t : Nat) (bank : Fin 768) (corrected : Nat) (bad : Option Nat)
  /-- BANK_UNCORRECTABLE (R537): the byte offset in the bank of the failed word, the carriers whose work waits on the read, and what the
  failed words held where the memory map does not say it: in the weight double buffer carrier, direction (1 downlink) and PRB group; in the
  fronthaul buffers carrier, symbol counted from the epoch and layer, or, for a frame of the journal of port FPn, 8 + n, eAxC and sequence ID. -/
  | bankUncorrectable (t : Nat) (bank : Fin 768) (word : Nat) (carriers : Nat) (held : List (Nat × Nat × Nat))
  /-- CORRIDOR_CRC_ERROR (R536) on a hop of the router of hall `h`. -/
  | corridorCrcError (t : Nat) (h : Fin 136) (persistent : Bool)
  /-- REPLAY_DONE (R545) of the recovery of a class on an instance. -/
  | replayDone (t : Nat) (cls inst : Nat)
  /-- REFCLK_LOSS (R605). -/
  | refclkLoss (t : Nat)
  /-- REF_HOLDOVER_LIMIT (R606). -/
  | refHoldoverLimit (t : Nat)
  /-- REFCLK_ACCEPT (R607): a REFCLK of `hz` Hz has been present for `us` microseconds. -/
  | refclkAccept (t : Nat) (hz us : Nat)
  /-- REF_PULL_END (R607). -/
  | refPullEnd (t : Nat)
  /-- SOURCE_LOSS (R598). -/
  | sourceLoss (t : Nat)
  /-- SYNC_IN_EDGE (R603). -/
  | syncInEdge (t : Nat)
  /-- ALIGN (R603): a host write of align. -/
  | align (t : Nat) (ch : Channel)
  /-- SYNTH_LOCK_LOSS (R621) of island 0 (REF), 3 (CNV), 4 (FHL), 5 (STL), 6 (TIM), 7 (HKP). -/
  | synthLockLoss (t : Nat) (island : Fin 8)
  /-- SYNTH_LOCK_DECLARED (R608); for CNV `unit` is 0 for CNV-X, 1 for CNV-Y. -/
  | synthLockDeclared (t : Nat) (island : Fin 8) (unit : Fin 2)
  /-- SYNTH_ATTEMPT_TIMEOUT (R611). -/
  | synthAttemptTimeout (t : Nat) (island : Fin 8) (unit : Fin 2)
  /-- CNV_HANDOVER (R618). -/
  | cnvHandover (t : Nat)
  /-- CNV_STOP (R620). -/
  | cnvStop (t : Nat)
  /-- CNV_STANDBY_TRACKING (R618): the phase difference in 0.01 ps. -/
  | cnvStandbyTracking (t : Nat) (diff : Int)
  /-- XFEED_MEASURE (R617): the phase measured, in 2π / 65,536. -/
  | xfeedMeasure (t : Nat) (delta : Int)
  /-- DITHER_FORCE_WRITE (R613): a host write of CLOCK.DITHER_CTL. -/
  | ditherForceWrite (t : Nat) (ch : Channel) (value : Word)
  /-- PLANNING_SLOT_BOUNDARY (R561); `ok` says that the regulator acknowledged a VOUT_COMMAND, if one was issued. -/
  | planningSlotBoundary (t : Nat) (ok : Bool)
  /-- PMBUS_READBACK (R690): READ_VOUT in mV, none where the retry failed too. -/
  | pmbusReadback (t : Nat) (mv : Option Nat)
  /-- PM_ALERT (R720): STATUS_WORD, none where the retry failed too. -/
  | pmAlert (t : Nat) (status : Option Nat)
  /-- ENERGY_UPDATE (R552): measured energy of the slot that ended, CORE and the other groups, in µJ. -/
  | energyUpdate (t : Nat) (core nonCore : Nat)
  /-- SPEED_MEASURE (R556): the sixteen rates in MHz. -/
  | speedMeasure (t : Nat) (readings : List Nat)
  /-- SPEED_MISS (R560). -/
  | speedMiss (t : Nat)
  /-- ENTER_IDLE (R572) through a channel; `asserted` has the bit of each wake source that is asserted, here and below. -/
  | enterIdle (t : Nat) (ch : Channel) (asserted : Nat)
  /-- ENTER_DOZE (R572). -/
  | enterDoze (t : Nat) (ch : Channel) (asserted : Nat)
  /-- ENTER_DEEP (R572). -/
  | enterDeep (t : Nat) (ch : Channel) (asserted : Nat)
  /-- POWER_STATE_ENTERED (R573): the entry sequence is complete. -/
  | powerStateEntered (t : Nat)
  /-- WAKE_SOURCE (R576) by its bit in WAKE_EN. -/
  | wakeSource (t : Nat) (src : Fin 7)
  /-- WAKE_STEP_TIMEOUT (R580): 0 REGULATOR, with its power-good input, 1 OSCILLATOR. -/
  | wakeStepTimeout (t : Nat) (step : Fin 2) (unit : Nat)
  /-- WAKE_DONE (R577): retained banks whose signature differs, and the weight sets (carrier, set) with words in them. -/
  | wakeDone (t : Nat) (failed : List Nat) (sets : List (Nat × Nat))
  /-- RET_RELEASE (R583). -/
  | retRelease (t : Nat) (ch : Channel) (value : Word)
  /-- HK_ROUND_START (R631). -/
  | hkRoundStart (t : Nat)
  /-- HK_ENTRY_DONE (R632): the inputs that entry `k`'s conversions sampled and the reference, in one unit of voltage. -/
  | hkEntryDone (t : Nat) (k : Fin 96) (inputs : List Int) (ref : Nat)
  /-- HK_ROUND_END (R584): the inputs of HK-B's own conversions of channels 0x32 and 0x30 (R639), and the reference, in one unit. -/
  | hkRoundEnd (t : Nat) (zero check : Int) (ref : Nat)
  /-- HK_INJECT (R635): a host write of HK.INJ_CTL with go. -/
  | hkInject (t : Nat) (ch : Channel) (value : Word)
  /-- HK_INJECT_DONE (R636), inputs and reference as in HK_ENTRY_DONE. -/
  | hkInjectDone (t : Nat) (inputs : List Int) (ref : Nat)
  /-- HK_REF_WRITE (R628): a host write of HK.CTL. -/
  | hkRefWrite (t : Nat) (ch : Channel) (value : Word)
  /-- HK_REF_SETTLED (R628). -/
  | hkRefSettled (t : Nat)
  /-- ZERO (R640): a host write of HK.SYSCAL_CTL with this command. -/
  | zero (t : Nat) (ch : Channel) (value : Word)
  /-- SPAN (R641). -/
  | span (t : Nat) (ch : Channel) (value : Word)
  /-- SYSCAL_CANCEL (R643). -/
  | syscalCancel (t : Nat) (ch : Channel)
  /-- SYSCAL_CAPTURE_DONE (R641), inputs and reference as in HK_ENTRY_DONE. -/
  | syscalCaptureDone (t : Nat) (inputs : List Int) (ref : Nat)
  /-- TRIM_RELOAD (R646): a host write of reload. -/
  | trimReload (t : Nat) (ch : Channel)
  /-- TRIM_WRITE (R647): a host write of a TRIM register. -/
  | trimWrite (t : Nat) (ch : Channel) (addr value : Word)
  /-- TRIM_COPY_DONE (R646). -/
  | trimCopyDone (t : Nat)
  /-- BANDGAP_SETTLED (R647). -/
  | bandgapSettled (t : Nat)
  /-- HK_CONVERSION_TIMEOUT (R638): a conversion of HK-A does not complete. -/
  | hkConversionTimeout (t : Nat)
deriving DecidableEq, Repr

end Sys2Proof
end

