-- ==== Sys2Proof/Decode.lean ====
section
/-!
DEFINITION. The command that a word spells. The table gives no row any bits: the block takes commands from outside, and decodes no
instruction of its own here (the words of hall programs are read in Machine/Hall.lean).
-/

namespace Sys2Proof

/-- The command that a word of `nbits` bits spells by the table: none (DESIGN CHOICE, log entry 42). -/
def decodeTableWord (_nbits _w : Nat) : Option Instr := none

end Sys2Proof
end

