-- ==== Sys2Proof/Config.lean ====
section
/-!
DEFINITION. What one part fixes and the spec leaves open: values of the factory, of the vendor's built-in tables and of random
sources. Each is opaque: a claim about the block holds whatever they are. Each is named in the log entry its comment gives.
-/

namespace Sys2Proof

/-- The random source of R663 and R688, one byte per draw (free value, DESIGN CHOICE, log entry 10). -/
opaque Config.random : Nat → Byte

/-- The device UID of the factory OTP (R688; DESIGN CHOICE, log entry 11). -/
opaque Config.uid : BitVec 64

/-- The factory trim value of the TRIM register at an address (R644; free value, DESIGN CHOICE, log entry 11). -/
opaque Config.otpTrim : Nat → Word

/-- The version of the factory trim set (DESIGN CHOICE, log entry 11). -/
opaque Config.otpTrimVersion : BitVec 16

/-- A byte of the keep, at its byte address, while it is erased (DESIGN CHOICE, log entry 12). -/
opaque Config.erasedByte : Nat → Byte
/-- The local latencies that a carrier record fixes, in ns: downlink, uplink, PRACH (R28, R32, R257 give bounds; free values, DESIGN CHOICE, log
entry 22). -/
opaque Config.dlLatency : List Byte → Nat
opaque Config.ulLatency : List Byte → Nat
opaque Config.prachLatency : List Byte → Nat

/-- Taps of the fixed half-band filters, one list for all interpolators that use one and one for all decimators, and of the built-in channel
filter, in Q1.17, and the PRACH decimator's output (R187, R188, R233, R254 give their responses; free values, DESIGN CHOICE, log entry 23). -/
opaque Config.halfBandUp : List Int
opaque Config.halfBandDown : List Int
opaque Config.txChannel : List Int
opaque Config.rxChannel : List Int
opaque Config.prachTaps : Nat → List Int

/-- 10 log10 of a ratio in dB, Q8.8: the rounding is not stated (R218; free value, DESIGN CHOICE, log entry 24). -/
opaque Config.decibel : Nat → Nat → Int

/-- Is a DC estimate i / 2^e that is no whole code rounded up when it is subtracted? The rounding to the sample format is not stated (R128;
free value, DESIGN CHOICE, log entry 25). -/
opaque Config.dcRound : Int → Nat → Bool

/-- Is the movement of an IQ tap by 2^-n of a residual, where it is no whole unit of Q1.15, rounded up? The rounding is not stated (R131;
free value, DESIGN CHOICE, log entry 25). -/
opaque Config.iqStep : Int → Nat → Bool

/-- A byte of a memory area that the spec leaves undefined, by the count of draws (R227; free value, DESIGN CHOICE, log entry 27). -/
opaque Config.freeByte : Nat → Byte

/-- Byte `i` of the 64-byte header of a capture or record, from its kind and the values it records: the places of the values are not
stated (R211, R261, R265; free value, DESIGN CHOICE, log entry 26). -/
opaque Config.headerByte : Nat → List Nat → Nat → Byte

/-- The low-PAPR sounding sequence of 3GPP TS 38.211 clause 5.2.2 and 6.4.1.4.2 in Q1.17, from its length, group, number, cyclic shift
and largest cyclic shift (R293 names it and does not give it; free value, DESIGN CHOICE, log entry 28). -/
opaque Config.soundingSequence : Nat → Nat → Nat → Nat → Nat → List Cplx
/-- The credits that a unit port advertises to a flow, by unit port code (R360 does not give them; DESIGN CHOICE, log entry 29). -/
opaque Config.unitCredits : Nat → Nat
/-- Bytes of the body of a stair record that is not of class 0, by its type code (R443 gives their content alone; DEDUCED, log entry 31). -/
opaque Config.recordBytes : Nat → Nat

/-- Bytes of a stair record after its type, by type, the number of its first codeword, and place, and bytes of a segment header after its
type, by the last-segment flag, the length and place: their layout is not stated (R442, R443; free value, DESIGN CHOICE, log entry 78). -/
opaque Config.recordByte : Nat → Nat → Nat → Byte
opaque Config.segmentByte : Nat → Nat → Nat → Byte
/-- The parity symbols of RS(288,272), the scrambler seed of a lane and direction, and the known sequence of a lane's pilot blocks: the
generator polynomial, the seeds and the PRBS13 polynomial are not stated (R422, R425, R426; free value, DESIGN CHOICE, log entry 78). -/
opaque Config.rsParity : List Nat → Nat → Nat
opaque Config.laneSeed : Nat → Nat → Nat
opaque Config.pilotKnown : Nat → Nat → Bool

/-- The dither seed of CNV-X (0) and CNV-Y (1), which no register gives (R611; free value, DESIGN CHOICE, log entry 84). -/
opaque Config.cnvSeed : Nat → Nat

/-- When a record of a symbol leaves its release gate toward a stair port, in ns: by its type (0 LAYER, 1 PARTIAL, 2 FINISHED), the depth of
the landing and the bytes of the carrier's record. R24 and R446 name a release time and do not state it (free value, DESIGN CHOICE, log
entry 68). -/
opaque Config.stairRelease : Nat → Nat → List Byte → Nat

/-- Whose symbols the outputs of a hall enter, by its program: bit 2c uplink, bit 2c + 1 downlink of carrier c (R540, R567 speak of a hall's
outputs and the spec does not tie them to carriers; free value, DESIGN CHOICE, log entry 71). -/
opaque Config.hallServes : List Byte → Nat

/-- The pseudo-random offset of a detect burst in ns, 0 to 25,000, by the count of bursts sent (R435; DEDUCED, log entry 31). -/
opaque Config.burstOffset : Nat → Nat
/-- arg(0) in units of 2π / 65,536 as R489 would give it: the spec states none (free value, DESIGN CHOICE, log entry 34). -/
opaque Config.phaseOfZero : Nat
/-- The non-core energy in µJ of a planning slot that was not measured, by its number (R553; free value, DESIGN CHOICE, log entry 36). -/
opaque Config.unmeasured : Nat → Nat

/-- A quotient rounded to γ's UQ2.14, before its clamp; the spec states neither the rounding nor a quotient by 0 (R555; free value, DESIGN CHOICE, log
entry 36). -/
opaque Config.gammaRound : Nat → Nat → Nat

/-- A weight whose memory was not retained over a sleep, by the count of draws (R581; free value, DESIGN CHOICE, log entry 36). -/
opaque Config.freeSample : Nat → Cplx
/-- The steering word s of R596 that the loop filter of a discipline source gives, by the count of draws: the spec gives the loop's
bandwidth alone (R597, R601; free value, DESIGN CHOICE, log entry 33). -/
opaque Config.steer : Nat → Int

/-- How many pages of a COPY, or sectors of an erase, are complete when a shutdown stops it (R591; free value, DESIGN CHOICE, log entry 12). -/
opaque Config.keepStopped : Nat → Nat

/-- The reading in mV of a code on a channel: the dividers and the rounding are not stated (R625; free value, DESIGN CHOICE, log entry 37). -/
opaque Config.millivolts : Nat → Nat → Nat

/-- The energy in µJ of a voltage in mV and a current in mA over a round's length in µs: the rounding is not stated (R549, R633; free
value, DESIGN CHOICE, log entry 37). -/
opaque Config.roundEnergy : Nat → Nat → Nat → Nat

/-- Which wake sources are asserted when a request for a power state arrives inside a frame, which carries no such operand (R572; free
value, DESIGN CHOICE, log entry 38). -/
opaque Config.assertedSources : Nat → Nat

/-- An answer of an RFFE slave to the check script of a calibration that a frame requests (R149; free value, DESIGN CHOICE, log entry 38). -/
opaque Config.femReply : Nat → Option Byte

/-- How many ticks after its start a boot has completed its update of the slot record, at most 136 ms: the instant is not stated (R87, R673; free
value, DESIGN CHOICE, log entry 77). -/
opaque Config.bootUpdate : Nat → Nat

/-- The seconds that SESSIONn shows for a number of ticks: the rounding is not stated (R667; free value, DEDUCED, log entry 41). -/
opaque Config.secondsLeft : Nat → Nat

/-- The one status of a command over several words that meet different ones (R658, R665; free value, DEDUCED, log entry 41). -/
opaque Config.mixedStatus : List Nat → Nat

/-- The seq of a WELCOME and of a REFUSE: none is stated (R662; free value, DEDUCED, log entry 41). -/
opaque Config.helloSeq : Nat → Nat

/-- Has the beam engine no work due within 5 µs, at an instant at which carriers run? The instants of its work are not stated (R571; free
value, DEDUCED, log entry 41). -/
opaque Config.beamQuiet : Nat → Bool

/-- The units that fail self-test, or trims that fail their ECC, at a reset that a frame asks for (R644, R673; free value, log entry
38). -/
opaque Config.failedUnits : Nat → List (Nat × Nat)

/-- The compensation value of a port in delay measurements: the spec states none (R413; free value, DESIGN CHOICE, log entry 82). -/
opaque Config.compensation : Nat → Int

end Sys2Proof
end

