-- ==== Sys2Proof/Machine/Bits.lean ====
section
/-!
DEFINITION. The bit-field, sign and byte-order helpers (R16, R17): fields of a word, little- and big-endian bytes, two's
complement reading of a field, saturation and truncation of exact integers.
-/

namespace Sys2Proof.Machine

/-- The field of `width` bits from bit `lo` of a word, as a number. -/
def getBits (x : Word) (lo width : Nat) : Nat :=
  (x.toNat / 2 ^ lo) % 2 ^ width

/-- The word with the field of `width` bits from bit `lo` set to `v` modulo 2^width. -/
def setBits (x : Word) (lo width v : Nat) : Word :=
  BitVec.ofNat 32 (x.toNat / 2 ^ (lo + width) * 2 ^ (lo + width) + (v % 2 ^ width) * 2 ^ lo + x.toNat % 2 ^ lo)

/-- Bit `i` of a number. -/
def bit (n i : Nat) : Bool := n.testBit i

/-- One for true, zero for false. -/
def b2n (b : Bool) : Nat := if b then 1 else 0

/-- The number `n` with bit `i` set to `b`. -/
def withBit (n i : Nat) (b : Bool) : Nat :=
  if b then n ||| 2 ^ i else if n.testBit i then n - 2 ^ i else n

/-- The signed value of an unsigned field of `w` bits (R17). -/
def signed (w n : Nat) : Int :=
  if n % 2 ^ w < 2 ^ (w - 1) then ((n % 2 ^ w : Nat) : Int) else ((n % 2 ^ w : Nat) : Int) - (2 ^ w : Nat)

/-- The two's-complement field of `w` bits that holds an integer (modulo 2^w). -/
def unsigned (w : Nat) (x : Int) : Nat := (x % ((2 ^ w : Nat) : Int)).toNat

/-- The integer nearest to `x` from `lo` to `hi`. -/
def clampInt (lo hi x : Int) : Int := if x < lo then lo else if hi < x then hi else x

/-- Saturation to a signed format of `w` bits, two's complement limits. -/
def satS (w : Nat) (x : Int) : Int := clampInt (-((2 ^ (w - 1) : Nat) : Int)) (((2 ^ (w - 1) : Nat) : Int) - 1) x

/-- Saturation at plus and minus 32,767 (R122). -/
def sat16sym (x : Int) : Int := clampInt (-32767) 32767 x

/-- The floor of x / 2^k, an arithmetic right shift. -/
def shrFloor (x : Int) (k : Nat) : Int := x.fdiv ((2 ^ k : Nat) : Int)

/-- Rounding of x / 2^k to nearest, ties upward. -/
def shrRound (x : Int) (k : Nat) : Int :=
  match k with
  | 0 => x
  | k + 1 => (x + ((2 ^ k : Nat) : Int)).fdiv ((2 ^ (k + 1) : Nat) : Int)

/-- Truncation of x / 2^k toward zero. -/
def shrTrunc (x : Int) (k : Nat) : Int := x.tdiv ((2 ^ k : Nat) : Int)

/-- The bytes of a number, `k` of them, least significant first (R16). -/
def leBytes : Nat → Nat → List Byte
  | 0, _ => []
  | k + 1, n => BitVec.ofNat 8 n :: leBytes k (n / 256)

/-- The bytes of a number, `k` of them, most significant first. -/
def beBytes (k n : Nat) : List Byte := (leBytes k n).reverse

/-- The number spelled by bytes, least significant first. -/
def leNat : List Byte → Nat
  | [] => 0
  | b :: bs => b.toNat + 256 * leNat bs

/-- The number spelled by bytes, most significant first. -/
def beNat (bs : List Byte) : Nat := bs.foldl (fun n b => n * 256 + b.toNat) 0

/-- `n` bytes from an offset; bytes past the end are left out. -/
def slice (bs : List Byte) (off n : Nat) : List Byte := (bs.drop off).take n

/-- The little-endian number of `n` bytes at an offset. -/
def leAt (bs : List Byte) (off n : Nat) : Nat := leNat (slice bs off n)

/-- Are all the bytes zero? -/
def allZero (bs : List Byte) : Bool := bs.all fun b => b == 0

/-- The words of a byte string, little-endian, four bytes each. -/
def leWords (n : Nat) (bs : List Byte) : List Word :=
  (List.range n).map fun i => BitVec.ofNat 32 (leAt bs (4 * i) 4)

/-- The smallest index below `n` that satisfies `p`. -/
def firstIdx (n : Nat) (p : Nat → Bool) : Option Nat := (List.range n).find? p

/-- The quotient rounded up. -/
def ceilDiv (a b : Nat) : Nat := (a + b - 1) / b

/-- The largest member of a list, zero for none. -/
def maxNat (l : List Nat) : Nat := l.foldl max 0

/-- The sum of a list. -/
def sumNat (l : List Nat) : Nat := l.foldl (fun a b => a + b) 0

/-- The sum of a list of integers. -/
def sumInt (l : List Int) : Int := l.foldl (fun a b => a + b) 0

/-- The number of members that satisfy `p`. -/
def countIf {α : Type} (p : α → Bool) (l : List α) : Nat := (l.filter p).length

/-- The entry of a keyed list. -/
def assoc? {α : Type} (l : List (Nat × α)) (k : Nat) : Option α := (l.find? fun e => e.1 == k).map fun e => e.2

/-- A keyed list with the entry of `k` replaced or added at the end. -/
def assocSet {α : Type} (l : List (Nat × α)) (k : Nat) (v : α) : List (Nat × α) :=
  if l.any fun e => e.1 == k then l.map fun e => if e.1 == k then (k, v) else e else l ++ [(k, v)]

/-- A keyed list without the entries of `k`. -/
def assocErase {α : Type} (l : List (Nat × α)) (k : Nat) : List (Nat × α) := l.filter fun e => e.1 != k

end Sys2Proof.Machine
end

