-- ==== Sys2Proof/Machine/RegMap.lean ====
section
/-!
DEFINITION. The register map of R694 to R699 and the field tables of the chapters: for every register its address, its
replication strides, and its fields with place, access code (R7) and reset value (R697). `Reg.<BLOCK>.<NAME>.<field>` names one
field as a `Fld`; `Reg.<BLOCK>.<NAME>.word` names the whole register. A replicated register takes its instance numbers as
arguments, in the order of the spec's name.
-/

namespace Sys2Proof.Machine

/-- The access codes of R7. -/
inductive Access where
  | ro | rw | rw1c | rc | wo | rws | rwl
deriving DecidableEq, Repr

/-- One field of a register: its lowest bit, its width, its access code and its reset value. -/
structure RegField where
  lo : Nat
  width : Nat
  access : Access
  reset : Nat
deriving DecidableEq, Repr

/-- One register of the map, replicated `n1` times at stride `s1` and, inside each, `n2` times at stride `s2`. -/
structure RegDesc where
  base : Nat
  s1 : Nat
  n1 : Nat
  s2 : Nat
  n2 : Nat
  fields : List RegField
deriving DecidableEq, Repr

/-- A place in the register file: the byte address of a register, and a field's lowest bit and width. -/
structure Fld where
  addr : Nat
  lo : Nat
  width : Nat
deriving DecidableEq, Repr

/-- Does the descriptor cover the byte address? -/
def RegDesc.covers (d : RegDesc) (a : Nat) : Bool :=
  d.base ≤ a && (a - d.base) / d.s1 < d.n1 && ((a - d.base) % d.s1) % d.s2 == 0 && ((a - d.base) % d.s1) / d.s2 < d.n2

/-- The reset value of a described register (R697): its fields' reset values, every reserved bit 0. -/
def RegDesc.resetWord (d : RegDesc) : Word :=
  BitVec.ofNat 32 (d.fields.foldl (fun n f => n + f.reset * 2 ^ f.lo) 0)

/-- The registers of the block DEVICE (base 0x0). -/
def regsOfDevice : List RegDesc := [
  ⟨0x0, 0x4, 1, 4, 1, [⟨16, 16, .ro, 25700⟩, ⟨8, 8, .ro, 1⟩]⟩,
  ⟨0x4, 0x4, 1, 4, 1, [⟨4, 4, .ro, 1⟩, ⟨0, 4, .ro, 0⟩]⟩,
  ⟨0x8, 0x4, 1, 4, 1, [⟨0, 32, .rw, 0⟩]⟩,
  ⟨0x10, 0x4, 1, 4, 1, [⟨24, 4, .ro, 0⟩, ⟨20, 4, .ro, 0⟩, ⟨16, 4, .ro, 0⟩, ⟨8, 8, .ro, 255⟩]⟩,
  ⟨0x14, 0x4, 1, 4, 1, [⟨0, 32, .ro, 0⟩]⟩,
  ⟨0x18, 0x4, 1, 4, 1, [⟨1, 1, .ro, 0⟩, ⟨0, 1, .rw1c, 0⟩]⟩,
  ⟨0x1C, 0x4, 1, 4, 1, [⟨0, 32, .ro, 0⟩]⟩,
  ⟨0x40, 0x4, 1, 4, 1, [⟨0, 32, .ro, 256⟩]⟩]

/-- The registers of the block HOST (base 0x10000). -/
def regsOfHost : List RegDesc := [
  ⟨0x10000, 0x4, 1, 4, 1, [⟨7, 1, .rw1c, 0⟩, ⟨6, 1, .rw1c, 0⟩, ⟨5, 1, .rw1c, 0⟩, ⟨4, 1, .rw1c, 0⟩, ⟨3, 1, .rw1c, 0⟩, ⟨2, 1, .rw1c, 0⟩, ⟨1, 1, .rw1c, 0⟩, ⟨0, 1, .rw1c, 0⟩]⟩,
  ⟨0x10004, 0x4, 1, 4, 1, [⟨0, 8, .rw, 64⟩]⟩,
  ⟨0x10008, 0x4, 1, 4, 1, [⟨0, 4, .ro, 0⟩]⟩,
  ⟨0x1000C, 0x4, 1, 4, 1, [⟨0, 32, .wo, 0⟩]⟩,
  ⟨0x10010, 0x4, 1, 4, 1, [⟨31, 1, .ro, 0⟩, ⟨24, 4, .ro, 0⟩, ⟨0, 16, .ro, 0⟩]⟩,
  ⟨0x10014, 0x4, 1, 4, 1, [⟨0, 32, .ro, 0⟩]⟩,
  ⟨0x10020, 0x4, 1, 4, 1, [⟨24, 8, .rw, 10⟩, ⟨0, 4, .rw, 0⟩]⟩,
  ⟨0x10024, 0x4, 1, 4, 1, [⟨0, 8, .rw, 0⟩]⟩,
  ⟨0x10028, 0x4, 1, 4, 1, [⟨0, 32, .ro, 0⟩]⟩,
  ⟨0x1002C, 0x4, 1, 4, 1, [⟨0, 32, .ro, 0⟩]⟩,
  ⟨0x10040, 0x4, 8, 4, 1, [⟨28, 4, .ro, 0⟩, ⟨24, 4, .ro, 0⟩, ⟨16, 3, .ro, 0⟩, ⟨0, 16, .ro, 0⟩]⟩]

/-- The registers of the block POWER (base 0x20000). -/
def regsOfPower : List RegDesc := [
  ⟨0x20000, 0x4, 1, 4, 1, [⟨28, 4, .ro, 0⟩, ⟨24, 4, .ro, 0⟩, ⟨16, 3, .ro, 0⟩, ⟨15, 1, .ro, 0⟩, ⟨14, 1, .ro, 0⟩, ⟨13, 1, .ro, 0⟩, ⟨12, 1, .rw1c, 0⟩, ⟨11, 1, .rw1c, 0⟩, ⟨10, 1, .rw1c, 0⟩, ⟨9, 1, .rw1c, 0⟩, ⟨8, 1, .rw1c, 0⟩]⟩,
  ⟨0x20004, 0x4, 1, 4, 1, [⟨2, 1, .wo, 0⟩, ⟨0, 2, .rw, 0⟩]⟩,
  ⟨0x20008, 0x4, 1, 4, 1, [⟨0, 8, .rw, 48⟩]⟩,
  ⟨0x2000C, 0x4, 1, 4, 1, [⟨0, 8, .rw1c, 0⟩]⟩,
  ⟨0x20010, 0x4, 1, 4, 1, [⟨0, 32, .rw, 0⟩]⟩,
  ⟨0x20014, 0x4, 1, 4, 1, [⟨28, 4, .ro, 0⟩, ⟨24, 4, .ro, 0⟩, ⟨16, 8, .ro, 0⟩, ⟨8, 8, .ro, 0⟩]⟩,
  ⟨0x20018, 0x4, 1, 4, 1, [⟨0, 32, .rw, 55000⟩]⟩,
  ⟨0x2001C, 0x4, 1, 4, 1, [⟨0, 16, .rw, 50⟩]⟩,
  ⟨0x20020, 0x4, 1, 4, 1, [⟨0, 32, .ro, 50000⟩]⟩,
  ⟨0x20024, 0x4, 1, 4, 1, [⟨16, 16, .ro, 800⟩, ⟨8, 1, .ro, 0⟩, ⟨0, 3, .ro, 0⟩]⟩,
  ⟨0x20028, 0x4, 1, 4, 1, [⟨16, 8, .rw, 32⟩]⟩,
  ⟨0x2002C, 0x4, 1, 4, 1, [⟨16, 16, .rw, 950⟩, ⟨0, 16, .rw, 720⟩]⟩,
  ⟨0x20030, 0x4, 1, 4, 1, [⟨0, 16, .ro, 16384⟩]⟩,
  ⟨0x20034, 0x4, 1, 4, 1, [⟨0, 32, .ro, 0⟩]⟩,
  ⟨0x20038, 0x4, 1, 4, 1, [⟨0, 32, .ro, 0⟩]⟩,
  ⟨0x20040, 0x8, 7, 4, 1, [⟨0, 32, .ro, 0⟩]⟩,
  ⟨0x20044, 0x8, 7, 4, 1, [⟨0, 32, .ro, 0⟩]⟩,
  ⟨0x20080, 0x4, 1, 4, 1, [⟨0, 32, .ro, 0⟩]⟩,
  ⟨0x20084, 0x4, 7, 4, 1, [⟨0, 32, .ro, 0⟩]⟩,
  ⟨0x200A0, 0x4, 8, 4, 1, [⟨0, 32, .ro, 0⟩]⟩,
  ⟨0x200C0, 0x4, 16, 4, 1, [⟨0, 32, .ro, 0⟩]⟩,
  ⟨0x20100, 0x4, 1, 4, 1, [⟨1, 10, .rw1c, 0⟩]⟩,
  ⟨0x20104, 0x4, 1, 4, 1, [⟨0, 8, .ro, 0⟩]⟩,
  ⟨0x20108, 0x4, 1, 4, 1, [⟨0, 8, .wo, 0⟩]⟩,
  ⟨0x20140, 0x4, 16, 4, 1, [⟨31, 1, .ro, 0⟩, ⟨0, 16, .ro, 0⟩]⟩,
  ⟨0x20200, 0x4, 1, 4, 1, [⟨24, 7, .rwl, 64⟩, ⟨16, 1, .rwl, 1⟩, ⟨0, 16, .rwl, 800⟩]⟩,
  ⟨0x20204, 0x4, 1, 4, 1, [⟨24, 8, .ro, 0⟩, ⟨16, 1, .ro, 0⟩, ⟨0, 16, .ro, 0⟩]⟩]

/-- The registers of the block HK (base 0x30000). -/
def regsOfHk : List RegDesc := [
  ⟨0x30000, 0x4, 1, 4, 1, [⟨8, 8, .rw, 8⟩, ⟨0, 2, .rw, 0⟩]⟩,
  ⟨0x30004, 0x4, 1, 4, 1, [⟨5, 1, .ro, 0⟩, ⟨4, 1, .ro, 0⟩, ⟨3, 1, .ro, 0⟩, ⟨2, 1, .ro, 0⟩, ⟨0, 1, .ro, 1⟩]⟩,
  ⟨0x30008, 0x4, 1, 4, 1, [⟨31, 1, .wo, 0⟩, ⟨30, 1, .ro, 0⟩, ⟨27, 3, .rw, 0⟩, ⟨16, 8, .rw, 0⟩, ⟨0, 16, .rw, 0⟩]⟩,
  ⟨0x3000C, 0x4, 1, 4, 1, [⟨31, 1, .rw1c, 0⟩, ⟨30, 1, .ro, 0⟩, ⟨16, 8, .ro, 0⟩, ⟨0, 16, .ro, 0⟩]⟩,
  ⟨0x30010, 0x4, 1, 4, 1, [⟨0, 32, .ro, 0⟩]⟩,
  ⟨0x30014, 0x4, 1, 4, 1, [⟨28, 4, .ro, 0⟩, ⟨0, 8, .ro, 0⟩]⟩,
  ⟨0x30018, 0x4, 1, 4, 1, [⟨30, 2, .wo, 0⟩, ⟨16, 4, .rw, 0⟩, ⟨0, 14, .rw, 0⟩]⟩,
  ⟨0x3001C, 0x4, 1, 4, 1, [⟨28, 4, .ro, 0⟩, ⟨27, 1, .ro, 0⟩, ⟨26, 1, .ro, 0⟩, ⟨25, 1, .rw1c, 0⟩, ⟨0, 14, .ro, 0⟩]⟩,
  ⟨0x30020, 0x4, 1, 4, 1, [⟨0, 32, .ro, 0⟩]⟩,
  ⟨0x30100, 0x4, 96, 4, 1, [⟨31, 1, .rw, 0⟩, ⟨16, 8, .rw, 0⟩, ⟨8, 3, .rw, 0⟩, ⟨0, 8, .rw, 4⟩]⟩,
  ⟨0x30300, 0x4, 96, 4, 1, [⟨31, 1, .ro, 0⟩, ⟨30, 1, .ro, 0⟩, ⟨0, 16, .ro, 0⟩]⟩,
  ⟨0x30500, 0x4, 16, 4, 1, [⟨16, 16, .rw, 16384⟩, ⟨15, 1, .ro, 0⟩, ⟨0, 14, .rw, 0⟩]⟩]

/-- The registers of the block THERMAL (base 0x38000). -/
def regsOfThermal : List RegDesc := [
  ⟨0x38000, 0x4, 1, 4, 1, [⟨0, 1, .rw, 0⟩]⟩,
  ⟨0x38004, 0x4, 1, 4, 1, [⟨24, 8, .rwl, 120⟩, ⟨16, 8, .rw, 105⟩, ⟨8, 8, .rw, 100⟩]⟩,
  ⟨0x38008, 0x4, 1, 4, 1, [⟨24, 8, .ro, 0⟩, ⟨16, 8, .rw, 30⟩, ⟨0, 10, .rw, 60⟩]⟩,
  ⟨0x3800C, 0x4, 1, 4, 1, [⟨27, 5, .ro, 0⟩, ⟨19, 1, .ro, 0⟩, ⟨18, 1, .ro, 0⟩, ⟨17, 1, .ro, 0⟩, ⟨16, 1, .ro, 0⟩, ⟨0, 16, .ro, 0⟩]⟩,
  ⟨0x38010, 0x4, 1, 4, 1, [⟨0, 32, .ro, 55000⟩]⟩,
  ⟨0x38014, 0x4, 1, 4, 1, [⟨0, 24, .ro, 0⟩]⟩,
  ⟨0x38100, 0x4, 24, 4, 1, [⟨31, 1, .ro, 0⟩, ⟨30, 1, .ro, 0⟩, ⟨0, 16, .ro, 0⟩]⟩]

/-- The registers of the block TRIM (base 0x40000). -/
def regsOfTrim : List RegDesc := [
  ⟨0x40000, 0x4, 1, 4, 1, [⟨0, 1, .wo, 0⟩]⟩,
  ⟨0x40004, 0x4, 1, 4, 1, [⟨16, 16, .ro, 0⟩, ⟨3, 1, .ro, 0⟩, ⟨2, 1, .rw1c, 0⟩, ⟨1, 1, .ro, 0⟩, ⟨0, 1, .ro, 0⟩]⟩,
  ⟨0x40010, 0x4, 1, 4, 1, [⟨0, 10, .rw, 0⟩]⟩,
  ⟨0x40014, 0x4, 1, 4, 1, [⟨16, 16, .rw, 0⟩, ⟨0, 14, .rw, 0⟩]⟩,
  ⟨0x40018, 0x4, 1, 4, 1, [⟨16, 16, .rw, 0⟩, ⟨0, 14, .rw, 0⟩]⟩,
  ⟨0x40020, 0x4, 6, 4, 1, [⟨0, 16, .rw, 0⟩]⟩,
  ⟨0x40040, 0x4, 1, 4, 1, [⟨0, 16, .rw, 0⟩]⟩,
  ⟨0x40100, 0x4, 24, 4, 1, [⟨16, 16, .rw, 0⟩, ⟨0, 16, .rw, 0⟩]⟩,
  ⟨0x40200, 0x4, 16, 4, 1, [⟨0, 16, .rw, 0⟩]⟩,
  ⟨0x40300, 0x4, 64, 4, 1, [⟨16, 16, .rw, 0⟩, ⟨0, 16, .rw, 0⟩]⟩,
  ⟨0x40400, 0x4, 8, 4, 1, [⟨0, 16, .rw, 0⟩]⟩,
  ⟨0x41000, 0x100, 64, 4, 43, [⟨0, 16, .rw, 0⟩]⟩]

/-- The registers of the block CLOCK (base 0x50000). -/
def regsOfClock : List RegDesc := [
  ⟨0x50000, 0x4, 1, 4, 1, [⟨24, 8, .rw, 10⟩, ⟨8, 1, .rw, 1⟩, ⟨0, 2, .rw, 0⟩]⟩,
  ⟨0x50004, 0x4, 1, 4, 1, [⟨30, 2, .ro, 3⟩, ⟨29, 1, .ro, 0⟩, ⟨28, 1, .ro, 0⟩, ⟨26, 2, .ro, 0⟩, ⟨25, 1, .ro, 0⟩, ⟨0, 16, .ro, 0⟩]⟩,
  ⟨0x5000C, 0x4, 1, 4, 1, [⟨4, 1, .wo, 0⟩, ⟨0, 2, .rw, 0⟩]⟩,
  ⟨0x50028, 0x4, 1, 4, 1, [⟨28, 4, .ro, 0⟩, ⟨27, 1, .ro, 0⟩, ⟨26, 1, .rw1c, 0⟩]⟩,
  ⟨0x50030, 0x4, 1, 4, 1, [⟨4, 4, .rw, 2⟩, ⟨0, 2, .rw, 0⟩]⟩,
  ⟨0x50034, 0x4, 1, 4, 1, [⟨8, 1, .rw1c, 0⟩, ⟨0, 3, .rw, 0⟩]⟩,
  ⟨0x50040, 0x4, 1, 4, 1, [⟨8, 8, .ro, 0⟩, ⟨0, 8, .ro, 0⟩]⟩,
  ⟨0x50064, 0x4, 1, 4, 1, [⟨28, 4, .ro, 0⟩, ⟨24, 4, .ro, 0⟩, ⟨23, 1, .ro, 0⟩, ⟨22, 1, .ro, 0⟩, ⟨0, 16, .ro, 0⟩]⟩,
  ⟨0x50068, 0x4, 1, 4, 1, [⟨31, 1, .ro, 0⟩, ⟨0, 16, .ro, 0⟩]⟩,
  ⟨0x50008, 0x4, 1, 4, 1, [⟨0, 32, .ro, 0⟩]⟩,
  ⟨0x50010, 0x4, 1, 4, 1, [⟨0, 32, .ro, 0⟩]⟩,
  ⟨0x50020, 0x4, 1, 4, 1, [⟨0, 32, .ro, 0⟩]⟩,
  ⟨0x50024, 0x4, 1, 4, 1, [⟨0, 32, .ro, 0⟩]⟩,
  ⟨0x5002C, 0x4, 1, 4, 1, [⟨0, 32, .ro, 0⟩]⟩,
  ⟨0x50060, 0x4, 1, 4, 1, [⟨0, 8, .rw, 1⟩]⟩,
  ⟨0x50080, 0x4, 8, 4, 1, [⟨24, 8, .ro, 0⟩, ⟨16, 8, .ro, 0⟩]⟩,
  ⟨0x50100, 0x40, 2, 4, 1, [⟨8, 8, .rw, 1⟩, ⟨2, 1, .rw, 0⟩, ⟨1, 1, .wo, 0⟩]⟩,
  ⟨0x50104, 0x40, 2, 4, 1, [⟨28, 4, .ro, 0⟩, ⟨26, 2, .ro, 0⟩, ⟨25, 1, .ro, 0⟩, ⟨24, 1, .ro, 0⟩, ⟨23, 1, .ro, 0⟩, ⟨22, 1, .ro, 0⟩]⟩,
  ⟨0x50108, 0x40, 2, 4, 1, [⟨24, 8, .ro, 0⟩, ⟨16, 8, .ro, 0⟩, ⟨0, 16, .ro, 0⟩]⟩]

/-- The registers of the block TXN (base 0x60000). -/
def regsOfTxn : List RegDesc := [
  ⟨0x60000, 0x4, 1, 4, 1, [⟨8, 5, .wo, 0⟩, ⟨0, 4, .wo, 0⟩]⟩,
  ⟨0x60004, 0x4, 1, 4, 1, [⟨5, 1, .rw, 0⟩, ⟨0, 5, .rw, 0⟩]⟩,
  ⟨0x60008, 0x4, 1, 4, 1, [⟨24, 8, .ro, 0⟩, ⟨16, 5, .ro, 0⟩, ⟨8, 1, .ro, 0⟩, ⟨3, 1, .rw1c, 0⟩, ⟨2, 1, .rw1c, 0⟩, ⟨1, 1, .rw1c, 0⟩, ⟨0, 1, .rw1c, 0⟩]⟩,
  ⟨0x6000C, 0x4, 1, 4, 1, [⟨0, 16, .rw, 100⟩]⟩,
  ⟨0x60010, 0x4, 1, 4, 1, [⟨0, 32, .ro, 0⟩]⟩,
  ⟨0x60014, 0x4, 1, 4, 1, [⟨0, 32, .ro, 0⟩]⟩,
  ⟨0x60100, 0x20, 20, 4, 1, [⟨31, 1, .rw, 1⟩, ⟨28, 3, .rw, 0⟩, ⟨18, 10, .rw, 0⟩, ⟨11, 7, .rw, 0⟩, ⟨7, 4, .rw, 0⟩]⟩,
  ⟨0x60104, 0x20, 20, 4, 1, [⟨28, 4, .ro, 0⟩, ⟨20, 8, .ro, 0⟩, ⟨19, 1, .ro, 0⟩, ⟨18, 1, .ro, 0⟩, ⟨17, 1, .ro, 0⟩, ⟨16, 1, .ro, 0⟩, ⟨12, 4, .ro, 0⟩, ⟨11, 1, .ro, 0⟩]⟩,
  ⟨0x60108, 0x20, 20, 4, 1, [⟨0, 32, .ro, 0⟩]⟩,
  ⟨0x6010C, 0x20, 20, 4, 1, [⟨13, 19, .ro, 0⟩, ⟨0, 13, .ro, 0⟩]⟩,
  ⟨0x60110, 0x20, 20, 4, 1, [⟨0, 32, .ro, 0⟩]⟩,
  ⟨0x60114, 0x20, 20, 4, 1, [⟨0, 32, .ro, 0⟩]⟩,
  ⟨0x60118, 0x20, 20, 4, 1, [⟨0, 32, .ro, 0⟩]⟩,
  ⟨0x6011C, 0x20, 20, 4, 1, [⟨24, 8, .ro, 0⟩, ⟨0, 9, .ro, 0⟩]⟩]

/-- The registers of the block RECOVERY (base 0x70000). -/
def regsOfRecovery : List RegDesc := [
  ⟨0x70000, 0x4, 1, 4, 1, [⟨0, 6, .rws, 20⟩]⟩,
  ⟨0x70004, 0x4, 1, 4, 1, [⟨24, 8, .ro, 8⟩, ⟨20, 4, .ro, 4⟩, ⟨8, 8, .ro, 48⟩, ⟨7, 1, .ro, 0⟩, ⟨6, 1, .ro, 0⟩, ⟨5, 1, .ro, 0⟩]⟩,
  ⟨0x70008, 0x4, 1, 4, 1, [⟨9, 1, .ro, 0⟩, ⟨8, 1, .ro, 0⟩, ⟨7, 1, .ro, 0⟩, ⟨6, 1, .ro, 0⟩, ⟨5, 1, .ro, 0⟩, ⟨4, 1, .ro, 0⟩, ⟨3, 1, .ro, 0⟩, ⟨2, 1, .ro, 0⟩, ⟨1, 1, .ro, 0⟩, ⟨0, 1, .ro, 0⟩]⟩,
  ⟨0x7000C, 0x4, 1, 4, 1, [⟨0, 32, .ro, 0⟩]⟩,
  ⟨0x70010, 0x4, 1, 4, 1, [⟨0, 32, .ro, 0⟩]⟩,
  ⟨0x70014, 0x4, 1, 4, 1, [⟨0, 32, .ro, 0⟩]⟩,
  ⟨0x70018, 0x4, 1, 4, 1, [⟨0, 16, .ro, 0⟩]⟩,
  ⟨0x7001C, 0x4, 1, 4, 1, [⟨0, 32, .ro, 4294967295⟩]⟩,
  ⟨0x70040, 0x4, 8, 4, 1, [⟨0, 32, .ro, 0⟩]⟩,
  ⟨0x70060, 0x4, 8, 4, 1, [⟨0, 32, .ro, 0⟩]⟩,
  ⟨0x70100, 0x4, 24, 4, 1, [⟨16, 16, .ro, 65535⟩, ⟨0, 16, .ro, 65535⟩]⟩]

/-- The registers of the block IMAGE (base 0x80000). -/
def regsOfImage : List RegDesc := [
  ⟨0x80000, 0x4, 1, 4, 1, [⟨4, 1, .wo, 0⟩, ⟨0, 4, .wo, 0⟩]⟩,
  ⟨0x80004, 0x4, 1, 4, 1, [⟨24, 8, .ro, 0⟩, ⟨16, 8, .ro, 255⟩, ⟨12, 4, .ro, 1⟩, ⟨10, 2, .ro, 3⟩, ⟨9, 1, .ro, 0⟩, ⟨8, 1, .ro, 0⟩, ⟨7, 1, .ro, 0⟩, ⟨6, 1, .ro, 0⟩, ⟨5, 1, .ro, 0⟩, ⟨4, 1, .rw1c, 0⟩, ⟨3, 1, .rw1c, 0⟩, ⟨0, 1, .rw1c, 0⟩]⟩,
  ⟨0x80008, 0x4, 1, 4, 1, [⟨0, 32, .ro, 0⟩]⟩,
  ⟨0x8000C, 0x4, 1, 4, 1, [⟨0, 32, .ro, 0⟩]⟩,
  ⟨0x80010, 0x4, 1, 4, 1, [⟨0, 32, .ro, 0⟩]⟩,
  ⟨0x80014, 0x4, 1, 4, 1, [⟨0, 32, .rws, 0⟩]⟩,
  ⟨0x80020, 0x4, 12, 4, 1, [⟨0, 32, .ro, 0⟩]⟩]

/-- The registers of the block KEEP (base 0x81000). -/
def regsOfKeep : List RegDesc := [
  ⟨0x81000, 0x4, 1, 4, 1, [⟨0, 4, .wo, 0⟩]⟩,
  ⟨0x81004, 0x4, 1, 4, 1, [⟨24, 8, .ro, 0⟩, ⟨2, 1, .rw1c, 0⟩, ⟨1, 1, .ro, 0⟩, ⟨0, 1, .rw1c, 0⟩]⟩,
  ⟨0x81008, 0x4, 1, 4, 1, [⟨28, 4, .rw, 0⟩, ⟨0, 16, .rw, 0⟩]⟩,
  ⟨0x8100C, 0x4, 1, 4, 1, [⟨0, 21, .rw, 0⟩]⟩,
  ⟨0x81010, 0x4, 1, 4, 1, [⟨0, 32, .ro, 0⟩]⟩,
  ⟨0x81014, 0x4, 1, 4, 1, [⟨0, 16, .ro, 0⟩]⟩,
  ⟨0x81100, 0x4, 64, 4, 1, [⟨0, 32, .rw, 0⟩]⟩]

/-- The registers of the block SECURITY (base 0x82000). -/
def regsOfSecurity : List RegDesc := [
  ⟨0x82000, 0x4, 1, 4, 1, [⟨24, 8, .ro, 0⟩, ⟨20, 4, .ro, 0⟩, ⟨16, 4, .ro, 0⟩, ⟨12, 4, .ro, 0⟩, ⟨11, 1, .ro, 0⟩, ⟨8, 3, .ro, 0⟩, ⟨1, 1, .ro, 0⟩, ⟨0, 1, .rw1c, 0⟩]⟩,
  ⟨0x82004, 0x4, 1, 4, 1, [⟨4, 2, .wo, 0⟩, ⟨0, 4, .wo, 0⟩]⟩,
  ⟨0x82008, 0x4, 1, 4, 1, [⟨2, 8, .rw, 0⟩]⟩,
  ⟨0x8200C, 0x4, 1, 4, 1, [⟨0, 32, .rw, 0⟩]⟩,
  ⟨0x82010, 0x4, 1, 4, 1, [⟨0, 32, .ro, 0⟩]⟩,
  ⟨0x82014, 0x4, 1, 4, 1, [⟨0, 32, .ro, 0⟩]⟩,
  ⟨0x82020, 0x4, 4, 4, 1, [⟨0, 32, .ro, 0⟩]⟩,
  ⟨0x82044, 0x4, 1, 4, 1, [⟨0, 32, .wo, 0⟩]⟩,
  ⟨0x82100, 0x4, 64, 4, 1, [⟨0, 32, .rw, 0⟩]⟩]

/-- The registers of the block PATH (base 0x100000). -/
def regsOfPath : List RegDesc := [
  ⟨0x100000, 0x1000, 64, 4, 1, [⟨8, 1, .wo, 0⟩, ⟨1, 1, .rw, 0⟩, ⟨0, 1, .rws, 0⟩]⟩,
  ⟨0x100004, 0x1000, 64, 4, 1, [⟨28, 4, .ro, 0⟩, ⟨24, 4, .ro, 0⟩, ⟨16, 8, .ro, 16⟩, ⟨15, 1, .ro, 0⟩, ⟨14, 1, .ro, 0⟩, ⟨11, 1, .ro, 0⟩, ⟨10, 1, .ro, 0⟩]⟩,
  ⟨0x100008, 0x1000, 64, 4, 1, [⟨0, 8, .rws, 160⟩]⟩,
  ⟨0x10000C, 0x1000, 64, 4, 1, [⟨16, 16, .rws, 4096⟩, ⟨8, 6, .rws, 20⟩, ⟨0, 6, .rws, 20⟩]⟩,
  ⟨0x100010, 0x1000, 64, 4, 1, [⟨16, 8, .rw, 12⟩, ⟨8, 8, .rw, 4⟩, ⟨4, 4, .rw, 6⟩, ⟨0, 2, .rw, 0⟩]⟩,
  ⟨0x100014, 0x1000, 64, 4, 1, [⟨20, 4, .rw, 6⟩, ⟨16, 2, .rw, 1⟩, ⟨7, 1, .rw, 0⟩, ⟨6, 1, .rw, 0⟩, ⟨5, 1, .rw, 1⟩, ⟨4, 1, .rw, 1⟩, ⟨1, 1, .ro, 0⟩, ⟨0, 1, .ro, 0⟩]⟩,
  ⟨0x100018, 0x1000, 64, 4, 1, [⟨0, 4, .wo, 0⟩]⟩,
  ⟨0x10001C, 0x1000, 64, 4, 1, [⟨24, 8, .ro, 0⟩, ⟨16, 8, .ro, 0⟩, ⟨12, 4, .ro, 0⟩, ⟨11, 1, .ro, 0⟩, ⟨9, 1, .ro, 0⟩, ⟨8, 1, .ro, 0⟩, ⟨0, 1, .rw1c, 0⟩]⟩,
  ⟨0x100020, 0x1000, 64, 4, 1, [⟨16, 8, .rw, 0⟩, ⟨0, 8, .rw, 0⟩]⟩,
  ⟨0x100024, 0x1000, 64, 4, 1, [⟨16, 16, .rw, 0⟩, ⟨0, 16, .rw, 0⟩]⟩,
  ⟨0x100040, 0x1000, 64, 4, 8, [⟨16, 16, .rw, 0⟩, ⟨0, 16, .rw, 0⟩]⟩,
  ⟨0x100060, 0x1000, 64, 4, 8, [⟨16, 16, .rw, 0⟩, ⟨0, 16, .rw, 0⟩]⟩,
  ⟨0x100080, 0x1000, 64, 4, 1, [⟨0, 32, .ro, 0⟩]⟩,
  ⟨0x100084, 0x1000, 64, 4, 1, [⟨0, 32, .ro, 0⟩]⟩,
  ⟨0x100088, 0x1000, 64, 4, 1, [⟨0, 32, .ro, 0⟩]⟩,
  ⟨0x10008C, 0x1000, 64, 4, 1, [⟨0, 32, .ro, 0⟩]⟩]

/-- The registers of the block GROUP (base 0x140000). -/
def regsOfGroup : List RegDesc := [
  ⟨0x140000, 0x1000, 8, 4, 1, [⟨8, 5, .rw, 26⟩, ⟨0, 1, .rw, 1⟩]⟩,
  ⟨0x140004, 0x1000, 8, 4, 1, [⟨0, 4, .rw, 1⟩, ⟨4, 4, .rw, 2⟩, ⟨8, 4, .rw, 3⟩, ⟨12, 4, .rw, 4⟩, ⟨16, 4, .rw, 5⟩, ⟨20, 4, .rw, 6⟩, ⟨24, 4, .rw, 7⟩, ⟨28, 4, .rw, 8⟩]⟩,
  ⟨0x140008, 0x1000, 8, 4, 1, [⟨24, 8, .rw, 255⟩, ⟨16, 8, .rw, 255⟩, ⟨8, 8, .rw, 255⟩, ⟨0, 8, .rw, 255⟩]⟩,
  ⟨0x14000C, 0x1000, 8, 4, 1, [⟨8, 8, .rw, 255⟩, ⟨0, 8, .rw, 255⟩]⟩,
  ⟨0x140010, 0x1000, 8, 4, 1, [⟨16, 8, .ro, 0⟩, ⟨8, 8, .ro, 0⟩, ⟨1, 1, .ro, 0⟩, ⟨0, 1, .rw1c, 0⟩]⟩,
  ⟨0x140014, 0x1000, 8, 4, 1, [⟨16, 9, .rw, 150⟩, ⟨0, 9, .rw, 100⟩]⟩,
  ⟨0x140018, 0x1000, 8, 4, 1, [⟨0, 8, .rw, 0⟩]⟩,
  ⟨0x14001C, 0x1000, 8, 4, 1, [⟨0, 32, .ro, 0⟩]⟩,
  ⟨0x140020, 0x1000, 8, 4, 1, [⟨0, 32, .ro, 0⟩]⟩,
  ⟨0x140100, 0x1000, 8, 4, 64, [⟨0, 32, .rw, 0⟩]⟩,
  ⟨0x140200, 0x1000, 8, 4, 16, [⟨0, 32, .ro, 0⟩]⟩,
  ⟨0x140300, 0x1000, 8, 4, 1, [⟨0, 1, .rws, 0⟩]⟩,
  ⟨0x140304, 0x1000, 8, 4, 1, [⟨16, 10, .rws, 1023⟩, ⟨3, 1, .rws, 0⟩, ⟨0, 3, .rws, 0⟩]⟩,
  ⟨0x140308, 0x1000, 8, 4, 1, [⟨20, 10, .rws, 1023⟩, ⟨10, 10, .rws, 1023⟩, ⟨0, 10, .rws, 1023⟩]⟩,
  ⟨0x14030C, 0x1000, 8, 4, 1, [⟨8, 4, .rw, 3⟩, ⟨4, 4, .rw, 2⟩, ⟨3, 1, .wo, 0⟩, ⟨0, 2, .rw, 0⟩]⟩,
  ⟨0x140310, 0x1000, 8, 4, 1, [⟨16, 8, .ro, 0⟩, ⟨7, 1, .ro, 0⟩, ⟨6, 1, .ro, 0⟩, ⟨5, 1, .ro, 0⟩, ⟨4, 1, .ro, 0⟩, ⟨3, 1, .ro, 0⟩, ⟨1, 1, .rw1c, 0⟩, ⟨0, 1, .rw1c, 0⟩]⟩,
  ⟨0x140314, 0x1000, 8, 4, 1, [⟨30, 2, .rw, 1⟩, ⟨16, 5, .rw, 10⟩, ⟨7, 1, .wo, 0⟩, ⟨6, 1, .wo, 0⟩, ⟨0, 3, .rw, 0⟩]⟩,
  ⟨0x140318, 0x1000, 8, 4, 1, [⟨8, 8, .rw, 255⟩, ⟨0, 8, .rw, 4⟩]⟩,
  ⟨0x14031C, 0x1000, 8, 4, 1, [⟨28, 4, .ro, 0⟩, ⟨23, 1, .ro, 0⟩, ⟨22, 1, .rw1c, 0⟩, ⟨21, 1, .rw1c, 0⟩, ⟨16, 3, .ro, 0⟩]⟩,
  ⟨0x140320, 0x1000, 8, 4, 1, [⟨0, 32, .ro, 0⟩]⟩,
  ⟨0x140324, 0x1000, 8, 4, 1, [⟨0, 32, .ro, 0⟩]⟩,
  ⟨0x140328, 0x1000, 8, 4, 1, [⟨0, 32, .ro, 0⟩]⟩,
  ⟨0x14032C, 0x1000, 8, 4, 1, [⟨0, 32, .ro, 0⟩]⟩,
  ⟨0x140380, 0x1000, 8, 4, 24, [⟨31, 1, .rws, 0⟩, ⟨24, 6, .rws, 0⟩, ⟨16, 6, .rws, 0⟩]⟩,
  ⟨0x1403E0, 0x1000, 8, 4, 8, [⟨31, 1, .rws, 0⟩, ⟨24, 6, .rws, 0⟩, ⟨16, 6, .rws, 0⟩]⟩,
  ⟨0x140400, 0x1000, 8, 4, 64, [⟨16, 16, .rws, 0⟩, ⟨0, 16, .rws, 0⟩]⟩,
  ⟨0x140600, 0x1000, 8, 4, 128, [⟨16, 16, .rws, 0⟩, ⟨0, 16, .rws, 0⟩]⟩]

/-- The registers of the block PIPE (base 0x180000). -/
def regsOfPipe : List RegDesc := [
  ⟨0x180000, 0x1000, 64, 4, 1, [⟨1, 1, .rws, 0⟩, ⟨0, 1, .rws, 0⟩]⟩,
  ⟨0x180004, 0x1000, 64, 4, 1, [⟨16, 4, .ro, 0⟩, ⟨1, 1, .ro, 0⟩, ⟨0, 1, .rw1c, 0⟩]⟩,
  ⟨0x180008, 0x1000, 64, 4, 1, [⟨0, 32, .ro, 0⟩]⟩,
  ⟨0x18000C, 0x1000, 64, 4, 1, [⟨16, 16, .ro, 0⟩, ⟨0, 16, .ro, 0⟩]⟩,
  ⟨0x180010, 0x1000, 64, 4, 1, [⟨16, 16, .ro, 32768⟩, ⟨0, 16, .ro, 0⟩]⟩,
  ⟨0x180014, 0x1000, 64, 4, 1, [⟨0, 32, .ro, 0⟩]⟩,
  ⟨0x180018, 0x1000, 64, 4, 1, [⟨0, 32, .ro, 0⟩]⟩,
  ⟨0x18001C, 0x1000, 64, 4, 1, [⟨0, 32, .ro, 0⟩]⟩,
  ⟨0x180020, 0x1000, 64, 4, 1, [⟨0, 32, .ro, 0⟩]⟩,
  ⟨0x180024, 0x1000, 64, 4, 1, [⟨0, 32, .ro, 0⟩]⟩]

/-- The registers of the block CARRIER (base 0x200000). -/
def regsOfCarrier : List RegDesc := [
  ⟨0x200000, 0x1000, 8, 4, 1, [⟨30, 2, .ro, 0⟩, ⟨29, 1, .ro, 0⟩, ⟨27, 2, .ro, 0⟩, ⟨26, 1, .ro, 0⟩, ⟨20, 4, .ro, 0⟩, ⟨16, 4, .ro, 0⟩, ⟨0, 16, .ro, 0⟩]⟩,
  ⟨0x200004, 0x1000, 8, 4, 1, [⟨0, 20, .ro, 0⟩]⟩,
  ⟨0x200008, 0x1000, 8, 4, 1, [⟨0, 20, .ro, 0⟩]⟩,
  ⟨0x20000C, 0x1000, 8, 4, 1, [⟨0, 20, .ro, 0⟩]⟩,
  ⟨0x200010, 0x1000, 8, 4, 1, [⟨16, 6, .rws, 8⟩, ⟨8, 5, .rws, 0⟩]⟩,
  ⟨0x200014, 0x1000, 8, 4, 1, [⟨0, 16, .rws, 16384⟩]⟩,
  ⟨0x200018, 0x1000, 8, 4, 1, [⟨0, 1, .rws, 0⟩]⟩,
  ⟨0x200040, 0x1000, 8, 4, 32, [⟨0, 18, .rws, 0⟩]⟩,
  ⟨0x200100, 0x1000, 8, 4, 1, [⟨24, 8, .rws, 0⟩, ⟨16, 8, .rws, 0⟩, ⟨14, 2, .rws, 0⟩, ⟨0, 14, .rws, 0⟩]⟩,
  ⟨0x200104, 0x1000, 8, 4, 1, [⟨29, 3, .rws, 0⟩, ⟨16, 9, .rws, 0⟩, ⟨0, 9, .rws, 0⟩]⟩,
  ⟨0x200108, 0x1000, 8, 4, 1, [⟨7, 1, .ro, 0⟩, ⟨6, 1, .rw1c, 0⟩, ⟨4, 2, .ro, 0⟩, ⟨0, 2, .rw1c, 0⟩]⟩,
  ⟨0x20010C, 0x1000, 8, 4, 1, [⟨0, 32, .ro, 0⟩]⟩,
  ⟨0x200110, 0x1000, 8, 4, 1, [⟨0, 32, .ro, 0⟩]⟩,
  ⟨0x200140, 0x1000, 8, 4, 1, [⟨28, 4, .ro, 0⟩, ⟨0, 3, .ro, 0⟩]⟩,
  ⟨0x200144, 0x1000, 8, 4, 1, [⟨0, 32, .ro, 0⟩]⟩,
  ⟨0x200148, 0x1000, 8, 4, 1, [⟨0, 32, .ro, 0⟩]⟩,
  ⟨0x200180, 0x1000, 8, 4, 1, [⟨0, 32, .ro, 0⟩]⟩,
  ⟨0x200184, 0x1000, 8, 4, 1, [⟨0, 32, .ro, 0⟩]⟩,
  ⟨0x200188, 0x1000, 8, 4, 1, [⟨0, 32, .ro, 0⟩]⟩,
  ⟨0x200800, 0x1000, 8, 4, 1, [⟨0, 16, .rws, 16384⟩]⟩,
  ⟨0x200804, 0x1000, 8, 4, 1, [⟨0, 32, .ro, 0⟩]⟩,
  ⟨0x200808, 0x1000, 8, 4, 1, [⟨0, 1, .rws, 0⟩]⟩,
  ⟨0x200840, 0x1000, 8, 4, 32, [⟨0, 18, .rws, 0⟩]⟩]

/-- The registers of the block CARRIER (carrier-wide) (base 0x208000). -/
def regsOfCarrierWide : List RegDesc := [
  ⟨0x208004, 0x4, 15, 4, 1, [⟨28, 4, .rws, 0⟩, ⟨20, 7, .rws, 0⟩, ⟨16, 4, .rws, 0⟩, ⟨8, 7, .rws, 0⟩, ⟨0, 4, .rws, 0⟩]⟩,
  ⟨0x208100, 0x4, 1, 4, 1, [⟨30, 2, .rw, 0⟩, ⟨24, 3, .rw, 0⟩, ⟨16, 6, .rw, 0⟩, ⟨4, 12, .rw, 1⟩, ⟨1, 1, .wo, 0⟩, ⟨0, 1, .wo, 0⟩]⟩,
  ⟨0x208104, 0x4, 1, 4, 1, [⟨31, 1, .rw, 1⟩, ⟨8, 7, .rw, 0⟩, ⟨0, 4, .rw, 0⟩]⟩,
  ⟨0x208108, 0x4, 1, 4, 1, [⟨28, 4, .ro, 0⟩, ⟨2, 1, .rw1c, 0⟩, ⟨1, 1, .ro, 0⟩, ⟨0, 1, .rw1c, 0⟩]⟩,
  ⟨0x20810C, 0x4, 1, 4, 1, [⟨0, 32, .ro, 0⟩]⟩,
  ⟨0x208110, 0x4, 1, 4, 1, [⟨0, 32, .ro, 0⟩]⟩]

/-- The registers of the block BEAM (base 0x280000). -/
def regsOfBeam : List RegDesc := [
  ⟨0x280000, 0x4, 1, 4, 1, [⟨2, 1, .ro, 0⟩, ⟨1, 1, .ro, 0⟩, ⟨0, 1, .rw1c, 0⟩]⟩,
  ⟨0x280004, 0x4, 1, 4, 1, [⟨0, 32, .ro, 0⟩]⟩,
  ⟨0x280008, 0x4, 1, 4, 1, [⟨16, 15, .rws, 0⟩, ⟨0, 16, .rws, 0⟩]⟩,
  ⟨0x28000C, 0x4, 1, 4, 1, [⟨16, 15, .rws, 0⟩, ⟨0, 16, .rws, 0⟩]⟩,
  ⟨0x280010, 0x4, 1, 4, 1, [⟨24, 8, .ro, 0⟩, ⟨16, 8, .ro, 0⟩, ⟨0, 16, .ro, 16384⟩]⟩,
  ⟨0x280014, 0x4, 1, 4, 1, [⟨0, 16, .ro, 0⟩]⟩,
  ⟨0x280018, 0x4, 1, 4, 1, [⟨0, 32, .ro, 0⟩]⟩,
  ⟨0x28001C, 0x4, 1, 4, 1, [⟨0, 32, .ro, 0⟩]⟩,
  ⟨0x280020, 0x4, 1, 4, 1, [⟨0, 32, .ro, 0⟩]⟩,
  ⟨0x280024, 0x4, 1, 4, 1, [⟨0, 32, .ro, 0⟩]⟩,
  ⟨0x280028, 0x4, 1, 4, 1, [⟨0, 32, .ro, 0⟩]⟩,
  ⟨0x280040, 0x4, 8, 4, 1, [⟨0, 7, .rws, 0⟩]⟩,
  ⟨0x280400, 0x4, 64, 4, 1, [⟨16, 16, .rws, 0⟩, ⟨0, 16, .rws, 16384⟩]⟩,
  ⟨0x280500, 0x4, 64, 4, 1, [⟨16, 16, .rws, 0⟩, ⟨0, 16, .rws, 16384⟩]⟩,
  ⟨0x281000, 0x4, 1024, 4, 1, [⟨0, 32, .ro, 0⟩]⟩]

/-- The registers of the block SOLVER (base 0x288000). -/
def regsOfSolver : List RegDesc := [
  ⟨0x288000, 0x4, 1, 4, 1, [⟨0, 16, .rws, 328⟩]⟩,
  ⟨0x288004, 0x4, 1, 4, 1, [⟨8, 8, .ro, 0⟩, ⟨2, 1, .rw1c, 0⟩, ⟨1, 1, .rw1c, 0⟩, ⟨0, 1, .rw1c, 0⟩]⟩,
  ⟨0x288020, 0x4, 8, 4, 1, [⟨24, 8, .rws, 0⟩, ⟨0, 16, .rws, 300⟩]⟩,
  ⟨0x288040, 0x4, 8, 4, 1, [⟨16, 16, .ro, 0⟩, ⟨0, 16, .ro, 0⟩]⟩,
  ⟨0x288060, 0x4, 8, 4, 1, [⟨0, 32, .ro, 0⟩]⟩,
  ⟨0x288080, 0x4, 1, 4, 1, [⟨0, 32, .ro, 0⟩]⟩,
  ⟨0x288084, 0x4, 1, 4, 1, [⟨0, 32, .ro, 0⟩]⟩,
  ⟨0x288088, 0x4, 1, 4, 1, [⟨0, 32, .ro, 0⟩]⟩,
  ⟨0x28808C, 0x4, 1, 4, 1, [⟨0, 32, .ro, 0⟩]⟩,
  ⟨0x288090, 0x4, 1, 4, 1, [⟨0, 32, .ro, 0⟩]⟩,
  ⟨0x289000, 0x4, 1024, 4, 1, [⟨29, 3, .rws, 0⟩, ⟨25, 4, .rws, 0⟩, ⟨22, 3, .rws, 0⟩, ⟨18, 4, .rws, 0⟩, ⟨13, 5, .rws, 0⟩, ⟨12, 1, .rws, 0⟩, ⟨0, 1, .rws, 0⟩]⟩]

/-- The registers of the block HALL (base 0x300000). -/
def regsOfHall : List RegDesc := [
  ⟨0x300000, 0x1000, 144, 4, 1, [⟨28, 4, .ro, 0⟩, ⟨24, 4, .ro, 0⟩, ⟨16, 8, .ro, 0⟩, ⟨15, 1, .ro, 0⟩, ⟨14, 1, .ro, 0⟩, ⟨13, 1, .rw1c, 0⟩]⟩,
  ⟨0x300004, 0x1000, 136, 4, 1, [⟨16, 12, .ro, 0⟩, ⟨0, 12, .ro, 0⟩]⟩,
  ⟨0x300008, 0x1000, 136, 4, 1, [⟨8, 4, .rw1c, 0⟩, ⟨4, 4, .rw1c, 0⟩, ⟨0, 1, .rw1c, 0⟩]⟩,
  ⟨0x30000C, 0x1000, 136, 4, 1, [⟨16, 16, .ro, 0⟩, ⟨0, 16, .ro, 0⟩]⟩,
  ⟨0x300010, 0x1000, 136, 4, 1, [⟨0, 32, .rw, 0⟩]⟩,
  ⟨0x300014, 0x1000, 136, 4, 1, [⟨0, 32, .ro, 0⟩]⟩,
  ⟨0x300018, 0x1000, 136, 4, 1, [⟨2, 14, .rw, 0⟩]⟩,
  ⟨0x30001C, 0x1000, 136, 4, 1, [⟨0, 32, .rw, 0⟩]⟩,
  ⟨0x300020, 0x1000, 136, 4, 1, [⟨0, 32, .ro, 0⟩]⟩,
  ⟨0x300024, 0x1000, 136, 4, 1, [⟨0, 32, .ro, 0⟩]⟩,
  ⟨0x300028, 0x1000, 136, 4, 1, [⟨0, 32, .ro, 0⟩]⟩,
  ⟨0x300030, 0x1000, 136, 4, 1, [⟨0, 32, .ro, 0⟩]⟩,
  ⟨0x30002C, 0x1000, 136, 4, 1, [⟨0, 16, .ro, 0⟩]⟩]

/-- The registers of the block FRONTHAUL (base 0x400000). -/
def regsOfFronthaul : List RegDesc := [
  ⟨0x400000, 0x4, 1, 4, 1, [⟨16, 16, .rw, 9216⟩, ⟨0, 2, .rw, 0⟩]⟩,
  ⟨0x400004, 0x4, 1, 4, 1, [⟨24, 8, .rws, 32⟩, ⟨12, 4, .rws, 4⟩, ⟨8, 4, .rws, 2⟩, ⟨4, 4, .rws, 4⟩, ⟨0, 4, .rws, 6⟩]⟩,
  ⟨0x400010, 0x4, 1, 4, 1, [⟨16, 8, .rw, 10⟩, ⟨0, 6, .rw, 8⟩]⟩,
  ⟨0x400014, 0x4, 1, 4, 1, [⟨24, 8, .rw, 0⟩, ⟨16, 1, .rw, 0⟩, ⟨8, 8, .rw, 24⟩, ⟨0, 2, .rw, 0⟩]⟩,
  ⟨0x400018, 0x4, 1, 4, 1, [⟨24, 8, .rw, 255⟩, ⟨0, 16, .rw, 40964⟩]⟩,
  ⟨0x400008, 0x4, 1, 4, 1, [⟨0, 32, .rwl, 0⟩]⟩,
  ⟨0x40000C, 0x4, 1, 4, 1, [⟨0, 16, .rwl, 0⟩]⟩,
  ⟨0x40001C, 0x4, 1, 4, 1, [⟨12, 1, .rw, 0⟩, ⟨0, 12, .rw, 0⟩]⟩,
  ⟨0x400020, 0x4, 1, 4, 1, [⟨0, 32, .rw, 0⟩]⟩,
  ⟨0x400024, 0x4, 1, 4, 1, [⟨0, 32, .ro, 0⟩]⟩,
  ⟨0x400030, 0x4, 4, 4, 1, [⟨0, 32, .rw, 0⟩]⟩,
  ⟨0x400100, 0x40, 8, 4, 1, [⟨24, 8, .rw, 128⟩, ⟨16, 8, .rw, 64⟩, ⟨3, 1, .rw, 1⟩, ⟨2, 1, .rw, 0⟩, ⟨1, 1, .rw, 0⟩, ⟨0, 1, .rw, 0⟩]⟩,
  ⟨0x400104, 0x40, 8, 4, 1, [⟨28, 4, .ro, 0⟩, ⟨24, 4, .ro, 0⟩, ⟨8, 8, .ro, 0⟩, ⟨0, 8, .ro, 0⟩]⟩,
  ⟨0x400108, 0x40, 8, 4, 1, [⟨0, 32, .rw, 0⟩]⟩,
  ⟨0x400110, 0x40, 8, 4, 1, [⟨0, 32, .ro, 0⟩]⟩,
  ⟨0x400114, 0x40, 8, 4, 1, [⟨0, 32, .ro, 0⟩]⟩,
  ⟨0x400118, 0x40, 8, 4, 1, [⟨0, 32, .ro, 0⟩]⟩,
  ⟨0x40011C, 0x40, 8, 4, 1, [⟨0, 32, .ro, 0⟩]⟩,
  ⟨0x400120, 0x40, 8, 4, 1, [⟨0, 32, .ro, 0⟩]⟩,
  ⟨0x400124, 0x40, 8, 4, 1, [⟨0, 32, .ro, 0⟩]⟩,
  ⟨0x400128, 0x40, 8, 4, 1, [⟨0, 32, .ro, 0⟩]⟩,
  ⟨0x400400, 0x20, 8, 4, 1, [⟨16, 5, .rw, 4⟩, ⟨8, 6, .rw, 48⟩, ⟨0, 5, .rw, 8⟩]⟩,
  ⟨0x400404, 0x20, 8, 4, 1, [⟨24, 8, .ro, 0⟩, ⟨16, 8, .ro, 0⟩, ⟨8, 8, .ro, 0⟩, ⟨0, 1, .rw, 0⟩]⟩,
  ⟨0x400408, 0x20, 8, 4, 1, [⟨28, 4, .rw, 0⟩, ⟨26, 2, .rw, 0⟩, ⟨16, 5, .rw, 0⟩, ⟨8, 1, .rw, 0⟩, ⟨4, 1, .rw1c, 0⟩, ⟨3, 1, .wo, 0⟩, ⟨1, 1, .ro, 0⟩, ⟨0, 1, .rw, 0⟩]⟩,
  ⟨0x400410, 0x20, 8, 4, 1, [⟨0, 32, .ro, 0⟩]⟩,
  ⟨0x400414, 0x20, 8, 4, 1, [⟨0, 32, .ro, 0⟩]⟩,
  ⟨0x400418, 0x20, 8, 4, 1, [⟨0, 32, .ro, 0⟩]⟩,
  ⟨0x40041C, 0x20, 8, 4, 1, [⟨0, 32, .ro, 0⟩]⟩,
  ⟨0x401000, 0x20, 64, 4, 1, [⟨0, 32, .rws, 0⟩]⟩,
  ⟨0x401004, 0x20, 64, 4, 1, [⟨28, 1, .rws, 0⟩, ⟨16, 12, .rws, 0⟩, ⟨0, 16, .rws, 0⟩]⟩,
  ⟨0x401008, 0x20, 64, 4, 1, [⟨16, 16, .rws, 0⟩, ⟨0, 16, .rws, 0⟩]⟩,
  ⟨0x40100C, 0x20, 64, 4, 1, [⟨30, 1, .wo, 0⟩, ⟨8, 8, .rws, 255⟩, ⟨1, 3, .rws, 0⟩, ⟨0, 1, .rws, 0⟩]⟩,
  ⟨0x401010, 0x20, 64, 4, 1, [⟨28, 4, .ro, 0⟩, ⟨27, 1, .ro, 0⟩, ⟨24, 3, .ro, 0⟩, ⟨20, 4, .ro, 0⟩, ⟨0, 16, .ro, 0⟩]⟩,
  ⟨0x404000, 0x40, 64, 4, 14, [⟨0, 32, .ro, 0⟩]⟩]

/-- The registers of the block STAIR (base 0x480000). -/
def regsOfStair : List RegDesc := [
  ⟨0x480000, 0x4, 1, 4, 1, [⟨8, 8, .rw, 10⟩, ⟨0, 1, .rw, 1⟩]⟩,
  ⟨0x480004, 0x4, 1, 4, 1, [⟨28, 4, .ro, 0⟩, ⟨24, 4, .ro, 0⟩, ⟨22, 2, .ro, 3⟩, ⟨21, 1, .ro, 0⟩, ⟨19, 2, .ro, 0⟩, ⟨18, 1, .ro, 0⟩, ⟨0, 9, .ro, 0⟩]⟩,
  ⟨0x480008, 0x4, 1, 4, 1, [⟨24, 8, .ro, 0⟩, ⟨16, 8, .ro, 0⟩, ⟨0, 16, .ro, 0⟩]⟩,
  ⟨0x480010, 0x4, 1, 4, 1, [⟨8, 8, .rw, 16⟩, ⟨0, 8, .rw, 1⟩]⟩,
  ⟨0x48000C, 0x4, 1, 4, 1, [⟨0, 32, .rwl, 0⟩]⟩,
  ⟨0x480014, 0x4, 1, 4, 1, [⟨0, 32, .ro, 0⟩]⟩,
  ⟨0x480018, 0x4, 1, 4, 1, [⟨0, 10, .ro, 0⟩]⟩,
  ⟨0x480020, 0x4, 1, 4, 1, [⟨0, 32, .ro, 0⟩]⟩,
  ⟨0x480024, 0x4, 1, 4, 1, [⟨0, 32, .ro, 0⟩]⟩,
  ⟨0x480028, 0x4, 1, 4, 1, [⟨0, 32, .ro, 0⟩]⟩,
  ⟨0x48002C, 0x4, 1, 4, 1, [⟨0, 32, .ro, 0⟩]⟩,
  ⟨0x480040, 0x4, 1, 4, 1, [⟨16, 16, .rw, 0⟩, ⟨0, 16, .rw, 0⟩]⟩,
  ⟨0x480044, 0x4, 7, 4, 1, [⟨16, 16, .rw, 65535⟩, ⟨0, 16, .rw, 0⟩]⟩,
  ⟨0x480100, 0x40, 4, 4, 1, [⟨24, 8, .rw, 64⟩, ⟨16, 1, .rw, 0⟩, ⟨3, 1, .wo, 0⟩, ⟨2, 1, .rw, 0⟩, ⟨1, 1, .wo, 0⟩, ⟨0, 1, .rw, 0⟩]⟩,
  ⟨0x480104, 0x40, 4, 4, 1, [⟨28, 4, .ro, 0⟩, ⟨24, 4, .ro, 0⟩, ⟨20, 4, .ro, 0⟩, ⟨18, 2, .ro, 0⟩, ⟨8, 8, .ro, 0⟩, ⟨0, 8, .ro, 0⟩]⟩,
  ⟨0x480108, 0x40, 4, 4, 1, [⟨31, 1, .ro, 0⟩, ⟨24, 4, .ro, 0⟩, ⟨22, 2, .ro, 0⟩, ⟨20, 2, .ro, 0⟩, ⟨17, 3, .ro, 0⟩, ⟨0, 9, .ro, 0⟩]⟩,
  ⟨0x480110, 0x40, 4, 4, 1, [⟨0, 32, .rw, 0⟩]⟩,
  ⟨0x48010C, 0x40, 4, 4, 1, [⟨0, 32, .ro, 0⟩]⟩,
  ⟨0x480114, 0x40, 4, 4, 1, [⟨0, 32, .ro, 0⟩]⟩,
  ⟨0x480118, 0x40, 4, 4, 1, [⟨0, 32, .ro, 0⟩]⟩,
  ⟨0x480120, 0x40, 4, 4, 1, [⟨0, 32, .ro, 0⟩]⟩,
  ⟨0x480124, 0x40, 4, 4, 1, [⟨0, 32, .ro, 0⟩]⟩,
  ⟨0x480128, 0x40, 4, 4, 1, [⟨0, 32, .ro, 0⟩]⟩,
  ⟨0x480400, 0x20, 16, 4, 1, [⟨24, 6, .rw, 0⟩, ⟨18, 6, .rw, 60⟩, ⟨12, 6, .rw, 48⟩, ⟨6, 6, .rw, 56⟩, ⟨0, 6, .rw, 0⟩]⟩,
  ⟨0x480404, 0x20, 16, 4, 1, [⟨24, 8, .ro, 0⟩, ⟨16, 8, .ro, 0⟩, ⟨8, 8, .ro, 0⟩, ⟨1, 1, .ro, 0⟩, ⟨0, 1, .rw, 0⟩]⟩,
  ⟨0x480408, 0x20, 16, 4, 1, [⟨28, 4, .ro, 0⟩, ⟨24, 4, .ro, 0⟩, ⟨16, 1, .rw1c, 0⟩, ⟨8, 8, .ro, 0⟩]⟩]

/-- The registers of the block OTA (base 0x500000). -/
def regsOfOta : List RegDesc := [
  ⟨0x500000, 0x4, 1, 4, 1, [⟨24, 8, .rw, 5⟩, ⟨16, 8, .rw, 10⟩, ⟨10, 6, .rw, 12⟩, ⟨8, 2, .rw, 1⟩, ⟨4, 3, .rw, 0⟩, ⟨0, 2, .rw, 0⟩]⟩,
  ⟨0x500004, 0x4, 1, 4, 1, [⟨24, 6, .rw, 36⟩, ⟨16, 6, .rw, 0⟩, ⟨0, 8, .rw, 32⟩]⟩,
  ⟨0x500008, 0x4, 1, 4, 1, [⟨1, 1, .wo, 0⟩, ⟨0, 1, .wo, 0⟩]⟩,
  ⟨0x50000C, 0x4, 1, 4, 1, [⟨28, 4, .ro, 0⟩, ⟨24, 4, .ro, 0⟩, ⟨20, 4, .ro, 0⟩, ⟨11, 1, .ro, 0⟩, ⟨10, 1, .ro, 0⟩, ⟨9, 1, .ro, 0⟩, ⟨8, 1, .rw1c, 0⟩, ⟨0, 1, .rw1c, 0⟩]⟩,
  ⟨0x500010, 0x4, 1, 4, 1, [⟨16, 16, .ro, 0⟩, ⟨0, 16, .ro, 0⟩]⟩,
  ⟨0x500014, 0x4, 1, 4, 1, [⟨0, 15, .rw, 0⟩]⟩,
  ⟨0x500018, 0x4, 1, 4, 1, [⟨16, 16, .ro, 0⟩, ⟨0, 16, .ro, 0⟩]⟩,
  ⟨0x50001C, 0x4, 1, 4, 1, [⟨0, 32, .ro, 0⟩]⟩,
  ⟨0x500020, 0x4, 1, 4, 1, [⟨0, 32, .ro, 0⟩]⟩,
  ⟨0x500024, 0x4, 1, 4, 1, [⟨0, 32, .ro, 0⟩]⟩,
  ⟨0x500028, 0x4, 1, 4, 1, [⟨0, 32, .ro, 0⟩]⟩,
  ⟨0x50002C, 0x4, 1, 4, 1, [⟨0, 32, .ro, 0⟩]⟩,
  ⟨0x500100, 0x4, 64, 4, 1, [⟨16, 16, .rw, 0⟩, ⟨0, 16, .rw, 16384⟩]⟩,
  ⟨0x500200, 0x4, 64, 4, 1, [⟨16, 16, .rw, 0⟩, ⟨0, 16, .rw, 16384⟩]⟩]

/-- The blocks of R694: first address, last address, registers. -/
def regBlocks : List (Nat × Nat × List RegDesc) := [
  (0x0, 0xFFFF, regsOfDevice),
  (0x10000, 0x1FFFF, regsOfHost),
  (0x20000, 0x2FFFF, regsOfPower),
  (0x30000, 0x37FFF, regsOfHk),
  (0x38000, 0x3FFFF, regsOfThermal),
  (0x40000, 0x4FFFF, regsOfTrim),
  (0x50000, 0x5FFFF, regsOfClock),
  (0x60000, 0x6FFFF, regsOfTxn),
  (0x70000, 0x7FFFF, regsOfRecovery),
  (0x80000, 0x80FFF, regsOfImage),
  (0x81000, 0x81FFF, regsOfKeep),
  (0x82000, 0x82FFF, regsOfSecurity),
  (0x100000, 0x13FFFF, regsOfPath),
  (0x140000, 0x147FFF, regsOfGroup),
  (0x180000, 0x1C3FFF, regsOfPipe),
  (0x200000, 0x207FFF, regsOfCarrier),
  (0x208000, 0x208FFF, regsOfCarrierWide),
  (0x280000, 0x287FFF, regsOfBeam),
  (0x288000, 0x289FFF, regsOfSolver),
  (0x300000, 0x38FFFF, regsOfHall),
  (0x400000, 0x40FFFF, regsOfFronthaul),
  (0x480000, 0x48FFFF, regsOfStair),
  (0x500000, 0x50FFFF, regsOfOta)]

/-- The registers of the block that holds the address; none outside every block (UNMAPPED, R659, R694). -/
def blockAt (a : Nat) : Option (List RegDesc) :=
  (regBlocks.find? fun b => b.1 ≤ a && a ≤ b.2.1).map fun b => b.2.2

/-- The descriptor of the register at a byte address; none where no chapter defines one (R694). -/
def descAt (a : Nat) : Option RegDesc :=
  (blockAt a).bind fun l => l.find? fun d => d.covers a

/-- The reset value of the register at an address (R697), and what the register file reads as where nothing was stored. -/
def resetWordAt (a : Nat) : Word :=
  match descAt a with
  | some d => d.resetWord
  | none => 0

/-! ### The fields by name -/

/-- `DEVICE.ID`, the whole register. -/
abbrev Reg.DEVICE.ID.word : Fld := ⟨0x0, 0, 32⟩
abbrev Reg.DEVICE.ID.part : Fld := ⟨0x0, 16, 16⟩
abbrev Reg.DEVICE.ID.variant : Fld := ⟨0x0, 8, 8⟩
/-- `DEVICE.STEPPING`, the whole register. -/
abbrev Reg.DEVICE.STEPPING.word : Fld := ⟨0x4, 0, 32⟩
abbrev Reg.DEVICE.STEPPING.major : Fld := ⟨0x4, 4, 4⟩
abbrev Reg.DEVICE.STEPPING.minor : Fld := ⟨0x4, 0, 4⟩
/-- `DEVICE.SCRATCH`. -/
abbrev Reg.DEVICE.SCRATCH.word : Fld := ⟨0x8, 0, 32⟩
/-- `DEVICE.RESET_CAUSE`, the whole register. -/
abbrev Reg.DEVICE.RESET_CAUSE.word : Fld := ⟨0x10, 0, 32⟩
abbrev Reg.DEVICE.RESET_CAUSE.cause : Fld := ⟨0x10, 24, 4⟩
abbrev Reg.DEVICE.RESET_CAUSE.source : Fld := ⟨0x10, 20, 4⟩
abbrev Reg.DEVICE.RESET_CAUSE.prior : Fld := ⟨0x10, 16, 4⟩
abbrev Reg.DEVICE.RESET_CAUSE.channel : Fld := ⟨0x10, 8, 8⟩
/-- `DEVICE.BOOT_COUNT`. -/
abbrev Reg.DEVICE.BOOT_COUNT.word : Fld := ⟨0x14, 0, 32⟩
/-- `DEVICE.HOLD_STATUS`, the whole register. -/
abbrev Reg.DEVICE.HOLD_STATUS.word : Fld := ⟨0x18, 0, 32⟩
abbrev Reg.DEVICE.HOLD_STATUS.held : Fld := ⟨0x18, 1, 1⟩
abbrev Reg.DEVICE.HOLD_STATUS.unpaired : Fld := ⟨0x18, 0, 1⟩
/-- `DEVICE.HOLD_TAG`. -/
abbrev Reg.DEVICE.HOLD_TAG.word : Fld := ⟨0x1C, 0, 32⟩
/-- `DEVICE.CAP_HEAD`. -/
abbrev Reg.DEVICE.CAP_HEAD.word : Fld := ⟨0x40, 0, 32⟩
/-- `HOST.INT_STATUS`, the whole register. -/
abbrev Reg.HOST.INT_STATUS.word : Fld := ⟨0x10000, 0, 32⟩
abbrev Reg.HOST.INT_STATUS.wake : Fld := ⟨0x10000, 7, 1⟩
abbrev Reg.HOST.INT_STATUS.image : Fld := ⟨0x10000, 6, 1⟩
abbrev Reg.HOST.INT_STATUS.alarm : Fld := ⟨0x10000, 5, 1⟩
abbrev Reg.HOST.INT_STATUS.retention : Fld := ⟨0x10000, 4, 1⟩
abbrev Reg.HOST.INT_STATUS.topology : Fld := ⟨0x10000, 3, 1⟩
abbrev Reg.HOST.INT_STATUS.event : Fld := ⟨0x10000, 2, 1⟩
abbrev Reg.HOST.INT_STATUS.degradation : Fld := ⟨0x10000, 1, 1⟩
abbrev Reg.HOST.INT_STATUS.fault : Fld := ⟨0x10000, 0, 1⟩
/-- `HOST.INT_ENABLE`, the whole register. -/
abbrev Reg.HOST.INT_ENABLE.word : Fld := ⟨0x10004, 0, 32⟩
abbrev Reg.HOST.INT_ENABLE.bits : Fld := ⟨0x10004, 0, 8⟩
/-- `HOST.CHANNEL`, the whole register. -/
abbrev Reg.HOST.CHANNEL.word : Fld := ⟨0x10008, 0, 32⟩
abbrev Reg.HOST.CHANNEL.channel : Fld := ⟨0x10008, 0, 4⟩
/-- `HOST.RESET`. -/
abbrev Reg.HOST.RESET.word : Fld := ⟨0x1000C, 0, 32⟩
/-- `HOST.BOOT_STATUS`, the whole register. -/
abbrev Reg.HOST.BOOT_STATUS.word : Fld := ⟨0x10010, 0, 32⟩
abbrev Reg.HOST.BOOT_STATUS.ready : Fld := ⟨0x10010, 31, 1⟩
abbrev Reg.HOST.BOOT_STATUS.step : Fld := ⟨0x10010, 24, 4⟩
abbrev Reg.HOST.BOOT_STATUS.ms : Fld := ⟨0x10010, 0, 16⟩
/-- `HOST.VEST_CRC_ERR`. -/
abbrev Reg.HOST.VEST_CRC_ERR.word : Fld := ⟨0x10014, 0, 32⟩
/-- `HOST.SXM_CTL`, the whole register. -/
abbrev Reg.HOST.SXM_CTL.word : Fld := ⟨0x10020, 0, 32⟩
abbrev Reg.HOST.SXM_CTL.idle : Fld := ⟨0x10020, 24, 8⟩
abbrev Reg.HOST.SXM_CTL.key_mask : Fld := ⟨0x10020, 0, 4⟩
/-- `HOST.NOTIFY_MASK`, the whole register. -/
abbrev Reg.HOST.NOTIFY_MASK.word : Fld := ⟨0x10024, 0, 32⟩
abbrev Reg.HOST.NOTIFY_MASK.mask : Fld := ⟨0x10024, 0, 8⟩
/-- `HOST.SXM_DROP_AUTH`. -/
abbrev Reg.HOST.SXM_DROP_AUTH.word : Fld := ⟨0x10028, 0, 32⟩
/-- `HOST.SXM_DROP_SEQ`. -/
abbrev Reg.HOST.SXM_DROP_SEQ.word : Fld := ⟨0x1002C, 0, 32⟩
/-- `HOST.SESSIONn`, the whole register. -/
abbrev Reg.HOST.SESSION.word (n : Nat) : Fld := ⟨0x10040 + 0x4 * n, 0, 32⟩
abbrev Reg.HOST.SESSION.state (n : Nat) : Fld := ⟨0x10040 + 0x4 * n, 28, 4⟩
abbrev Reg.HOST.SESSION.key (n : Nat) : Fld := ⟨0x10040 + 0x4 * n, 24, 4⟩
abbrev Reg.HOST.SESSION.port (n : Nat) : Fld := ⟨0x10040 + 0x4 * n, 16, 3⟩
abbrev Reg.HOST.SESSION.left (n : Nat) : Fld := ⟨0x10040 + 0x4 * n, 0, 16⟩
/-- `POWER.STATUS`, the whole register. -/
abbrev Reg.POWER.STATUS.word : Fld := ⟨0x20000, 0, 32⟩
abbrev Reg.POWER.STATUS.state : Fld := ⟨0x20000, 28, 4⟩
abbrev Reg.POWER.STATUS.last_refuser : Fld := ⟨0x20000, 24, 4⟩
abbrev Reg.POWER.STATUS.level : Fld := ⟨0x20000, 16, 3⟩
abbrev Reg.POWER.STATUS.throttle : Fld := ⟨0x20000, 15, 1⟩
abbrev Reg.POWER.STATUS.warning : Fld := ⟨0x20000, 14, 1⟩
abbrev Reg.POWER.STATUS.sub072_blocked : Fld := ⟨0x20000, 13, 1⟩
abbrev Reg.POWER.STATUS.over_budget : Fld := ⟨0x20000, 12, 1⟩
abbrev Reg.POWER.STATUS.speed_miss : Fld := ⟨0x20000, 11, 1⟩
abbrev Reg.POWER.STATUS.ret_loss : Fld := ⟨0x20000, 10, 1⟩
abbrev Reg.POWER.STATUS.refused : Fld := ⟨0x20000, 9, 1⟩
abbrev Reg.POWER.STATUS.done : Fld := ⟨0x20000, 8, 1⟩
/-- `POWER.MODE_CTL`, the whole register. -/
abbrev Reg.POWER.MODE_CTL.word : Fld := ⟨0x20004, 0, 32⟩
abbrev Reg.POWER.MODE_CTL.enter : Fld := ⟨0x20004, 2, 1⟩
abbrev Reg.POWER.MODE_CTL.target : Fld := ⟨0x20004, 0, 2⟩
/-- `POWER.WAKE_EN`, the whole register. -/
abbrev Reg.POWER.WAKE_EN.word : Fld := ⟨0x20008, 0, 32⟩
abbrev Reg.POWER.WAKE_EN.sources : Fld := ⟨0x20008, 0, 8⟩
/-- `POWER.WAKE_CAUSE`, the whole register. -/
abbrev Reg.POWER.WAKE_CAUSE.word : Fld := ⟨0x2000C, 0, 32⟩
abbrev Reg.POWER.WAKE_CAUSE.sources : Fld := ⟨0x2000C, 0, 8⟩
/-- `POWER.WAKE_TIMER`. -/
abbrev Reg.POWER.WAKE_TIMER.word : Fld := ⟨0x20010, 0, 32⟩
/-- `POWER.WAKE_FAIL`, the whole register. -/
abbrev Reg.POWER.WAKE_FAIL.word : Fld := ⟨0x20014, 0, 32⟩
abbrev Reg.POWER.WAKE_FAIL.step : Fld := ⟨0x20014, 28, 4⟩
abbrev Reg.POWER.WAKE_FAIL.unit : Fld := ⟨0x20014, 24, 4⟩
abbrev Reg.POWER.WAKE_FAIL.sources : Fld := ⟨0x20014, 16, 8⟩
abbrev Reg.POWER.WAKE_FAIL.attempts : Fld := ⟨0x20014, 8, 8⟩
/-- `POWER.ENVELOPE`. -/
abbrev Reg.POWER.ENVELOPE.word : Fld := ⟨0x20018, 0, 32⟩
/-- `POWER.BUCKET_DEPTH`, the whole register. -/
abbrev Reg.POWER.BUCKET_DEPTH.word : Fld := ⟨0x2001C, 0, 32⟩
abbrev Reg.POWER.BUCKET_DEPTH.depth : Fld := ⟨0x2001C, 0, 16⟩
/-- `POWER.BUCKET_LEVEL`. -/
abbrev Reg.POWER.BUCKET_LEVEL.word : Fld := ⟨0x20020, 0, 32⟩
/-- `POWER.PLAN`, the whole register. -/
abbrev Reg.POWER.PLAN.word : Fld := ⟨0x20024, 0, 32⟩
abbrev Reg.POWER.PLAN.v_target : Fld := ⟨0x20024, 16, 16⟩
abbrev Reg.POWER.PLAN.below_072 : Fld := ⟨0x20024, 8, 1⟩
abbrev Reg.POWER.PLAN.level : Fld := ⟨0x20024, 0, 3⟩
/-- `POWER.SPEED_CTL`, the whole register. -/
abbrev Reg.POWER.SPEED_CTL.word : Fld := ⟨0x20028, 0, 32⟩
abbrev Reg.POWER.SPEED_CTL.margin : Fld := ⟨0x20028, 16, 8⟩
/-- `POWER.V_LIMITS`, the whole register. -/
abbrev Reg.POWER.V_LIMITS.word : Fld := ⟨0x2002C, 0, 32⟩
abbrev Reg.POWER.V_LIMITS.v_max : Fld := ⟨0x2002C, 16, 16⟩
abbrev Reg.POWER.V_LIMITS.v_min : Fld := ⟨0x2002C, 0, 16⟩
/-- `POWER.GAMMA`, the whole register. -/
abbrev Reg.POWER.GAMMA.word : Fld := ⟨0x20030, 0, 32⟩
abbrev Reg.POWER.GAMMA.gamma : Fld := ⟨0x20030, 0, 16⟩
/-- `POWER.OVER_BUDGET`. -/
abbrev Reg.POWER.OVER_BUDGET.word : Fld := ⟨0x20034, 0, 32⟩
/-- `POWER.SPEED_MISS`. -/
abbrev Reg.POWER.SPEED_MISS.word : Fld := ⟨0x20038, 0, 32⟩
/-- `POWER.E_*_LO`. -/
abbrev Reg.POWER.E_LO.word (n : Nat) : Fld := ⟨0x20040 + 0x8 * n, 0, 32⟩
/-- `POWER.E_*_HI`. -/
abbrev Reg.POWER.E_HI.word (n : Nat) : Fld := ⟨0x20044 + 0x8 * n, 0, 32⟩
/-- `POWER.SHED_SLOTS`. -/
abbrev Reg.POWER.SHED_SLOTS.word : Fld := ⟨0x20080, 0, 32⟩
/-- `POWER.SHED_ACTn (n - 1)`. -/
abbrev Reg.POWER.SHED_ACT.word (n : Nat) : Fld := ⟨0x20084 + 0x4 * n, 0, 32⟩
/-- `POWER.SHED_SYMc`. -/
abbrev Reg.POWER.SHED_SYM.word (n : Nat) : Fld := ⟨0x200A0 + 0x4 * n, 0, 32⟩
/-- `POWER.REFUSE_CNTn`. -/
abbrev Reg.POWER.REFUSE_CNT.word (n : Nat) : Fld := ⟨0x200C0 + 0x4 * n, 0, 32⟩
/-- `POWER.RET_STATUS`, the whole register. -/
abbrev Reg.POWER.RET_STATUS.word : Fld := ⟨0x20100, 0, 32⟩
abbrev Reg.POWER.RET_STATUS.kinds : Fld := ⟨0x20100, 1, 10⟩
/-- `POWER.RET_HOLD`, the whole register. -/
abbrev Reg.POWER.RET_HOLD.word : Fld := ⟨0x20104, 0, 32⟩
abbrev Reg.POWER.RET_HOLD.held : Fld := ⟨0x20104, 0, 8⟩
/-- `POWER.RET_RELEASE`, the whole register. -/
abbrev Reg.POWER.RET_RELEASE.word : Fld := ⟨0x20108, 0, 32⟩
abbrev Reg.POWER.RET_RELEASE.carriers : Fld := ⟨0x20108, 0, 8⟩
/-- `POWER.SPEEDn`, the whole register. -/
abbrev Reg.POWER.SPEED.word (n : Nat) : Fld := ⟨0x20140 + 0x4 * n, 0, 32⟩
abbrev Reg.POWER.SPEED.valid (n : Nat) : Fld := ⟨0x20140 + 0x4 * n, 31, 1⟩
abbrev Reg.POWER.SPEED.rate (n : Nat) : Fld := ⟨0x20140 + 0x4 * n, 0, 16⟩
/-- `POWER.PMBUS_CTL`, the whole register. -/
abbrev Reg.POWER.PMBUS_CTL.word : Fld := ⟨0x20200, 0, 32⟩
abbrev Reg.POWER.PMBUS_CTL.addr : Fld := ⟨0x20200, 24, 7⟩
abbrev Reg.POWER.PMBUS_CTL.fast : Fld := ⟨0x20200, 16, 1⟩
abbrev Reg.POWER.PMBUS_CTL.boot_mv : Fld := ⟨0x20200, 0, 16⟩
/-- `POWER.PMBUS_STATUS`, the whole register. -/
abbrev Reg.POWER.PMBUS_STATUS.word : Fld := ⟨0x20204, 0, 32⟩
abbrev Reg.POWER.PMBUS_STATUS.errors : Fld := ⟨0x20204, 24, 8⟩
abbrev Reg.POWER.PMBUS_STATUS.fault : Fld := ⟨0x20204, 16, 1⟩
abbrev Reg.POWER.PMBUS_STATUS.vout : Fld := ⟨0x20204, 0, 16⟩
/-- `HK.CTL`, the whole register. -/
abbrev Reg.HK.CTL.word : Fld := ⟨0x30000, 0, 32⟩
abbrev Reg.HK.CTL.period : Fld := ⟨0x30000, 8, 8⟩
abbrev Reg.HK.CTL.ref : Fld := ⟨0x30000, 0, 2⟩
/-- `HK.STATUS`, the whole register. -/
abbrev Reg.HK.STATUS.word : Fld := ⟨0x30004, 0, 32⟩
abbrev Reg.HK.STATUS.hkb_fault : Fld := ⟨0x30004, 5, 1⟩
abbrev Reg.HK.STATUS.hka_fault : Fld := ⟨0x30004, 4, 1⟩
abbrev Reg.HK.STATUS.vref_range : Fld := ⟨0x30004, 3, 1⟩
abbrev Reg.HK.STATUS.stretched : Fld := ⟨0x30004, 2, 1⟩
abbrev Reg.HK.STATUS.ref_settled : Fld := ⟨0x30004, 0, 1⟩
/-- `HK.INJ_CTL`, the whole register. -/
abbrev Reg.HK.INJ_CTL.word : Fld := ⟨0x30008, 0, 32⟩
abbrev Reg.HK.INJ_CTL.go : Fld := ⟨0x30008, 31, 1⟩
abbrev Reg.HK.INJ_CTL.pending : Fld := ⟨0x30008, 30, 1⟩
abbrev Reg.HK.INJ_CTL.avg : Fld := ⟨0x30008, 27, 3⟩
abbrev Reg.HK.INJ_CTL.channel : Fld := ⟨0x30008, 16, 8⟩
abbrev Reg.HK.INJ_CTL.delay : Fld := ⟨0x30008, 0, 16⟩
/-- `HK.INJ_RESULT`, the whole register. -/
abbrev Reg.HK.INJ_RESULT.word : Fld := ⟨0x3000C, 0, 32⟩
abbrev Reg.HK.INJ_RESULT.done : Fld := ⟨0x3000C, 31, 1⟩
abbrev Reg.HK.INJ_RESULT.suspect : Fld := ⟨0x3000C, 30, 1⟩
abbrev Reg.HK.INJ_RESULT.channel : Fld := ⟨0x3000C, 16, 8⟩
abbrev Reg.HK.INJ_RESULT.value : Fld := ⟨0x3000C, 0, 16⟩
/-- `HK.INJ_DROP`. -/
abbrev Reg.HK.INJ_DROP.word : Fld := ⟨0x30010, 0, 32⟩
/-- `HK.INJ_LAST`, the whole register. -/
abbrev Reg.HK.INJ_LAST.word : Fld := ⟨0x30014, 0, 32⟩
abbrev Reg.HK.INJ_LAST.cause : Fld := ⟨0x30014, 28, 4⟩
abbrev Reg.HK.INJ_LAST.channel : Fld := ⟨0x30014, 0, 8⟩
/-- `HK.SYSCAL_CTL`, the whole register. -/
abbrev Reg.HK.SYSCAL_CTL.word : Fld := ⟨0x30018, 0, 32⟩
abbrev Reg.HK.SYSCAL_CTL.cmd : Fld := ⟨0x30018, 30, 2⟩
abbrev Reg.HK.SYSCAL_CTL.input : Fld := ⟨0x30018, 16, 4⟩
abbrev Reg.HK.SYSCAL_CTL.fs_code : Fld := ⟨0x30018, 0, 14⟩
/-- `HK.SYSCAL_STATUS`, the whole register. -/
abbrev Reg.HK.SYSCAL_STATUS.word : Fld := ⟨0x3001C, 0, 32⟩
abbrev Reg.HK.SYSCAL_STATUS.result : Fld := ⟨0x3001C, 28, 4⟩
abbrev Reg.HK.SYSCAL_STATUS.running : Fld := ⟨0x3001C, 27, 1⟩
abbrev Reg.HK.SYSCAL_STATUS.suspect : Fld := ⟨0x3001C, 26, 1⟩
abbrev Reg.HK.SYSCAL_STATUS.done : Fld := ⟨0x3001C, 25, 1⟩
abbrev Reg.HK.SYSCAL_STATUS.mean : Fld := ⟨0x3001C, 0, 14⟩
/-- `HK.ROUNDS`. -/
abbrev Reg.HK.ROUNDS.word : Fld := ⟨0x30020, 0, 32⟩
/-- `HK.ENTRYk`, the whole register. -/
abbrev Reg.HK.ENTRY.word (n : Nat) : Fld := ⟨0x30100 + 0x4 * n, 0, 32⟩
abbrev Reg.HK.ENTRY.enable (n : Nat) : Fld := ⟨0x30100 + 0x4 * n, 31, 1⟩
abbrev Reg.HK.ENTRY.channel (n : Nat) : Fld := ⟨0x30100 + 0x4 * n, 16, 8⟩
abbrev Reg.HK.ENTRY.avg (n : Nat) : Fld := ⟨0x30100 + 0x4 * n, 8, 3⟩
abbrev Reg.HK.ENTRY.settle (n : Nat) : Fld := ⟨0x30100 + 0x4 * n, 0, 8⟩
/-- `HK.READk`, the whole register. -/
abbrev Reg.HK.READ.word (n : Nat) : Fld := ⟨0x30300 + 0x4 * n, 0, 32⟩
abbrev Reg.HK.READ.stale (n : Nat) : Fld := ⟨0x30300 + 0x4 * n, 31, 1⟩
abbrev Reg.HK.READ.suspect (n : Nat) : Fld := ⟨0x30300 + 0x4 * n, 30, 1⟩
abbrev Reg.HK.READ.value (n : Nat) : Fld := ⟨0x30300 + 0x4 * n, 0, 16⟩
/-- `HK.SYSCAL_INi`, the whole register. -/
abbrev Reg.HK.SYSCAL_IN.word (n : Nat) : Fld := ⟨0x30500 + 0x4 * n, 0, 32⟩
abbrev Reg.HK.SYSCAL_IN.gain (n : Nat) : Fld := ⟨0x30500 + 0x4 * n, 16, 16⟩
abbrev Reg.HK.SYSCAL_IN.suspect (n : Nat) : Fld := ⟨0x30500 + 0x4 * n, 15, 1⟩
abbrev Reg.HK.SYSCAL_IN.ofs (n : Nat) : Fld := ⟨0x30500 + 0x4 * n, 0, 14⟩
/-- `THERMAL.CTL`, the whole register. -/
abbrev Reg.THERMAL.CTL.word : Fld := ⟨0x38000, 0, 32⟩
abbrev Reg.THERMAL.CTL.restart : Fld := ⟨0x38000, 0, 1⟩
/-- `THERMAL.THRESH`, the whole register. -/
abbrev Reg.THERMAL.THRESH.word : Fld := ⟨0x38004, 0, 32⟩
abbrev Reg.THERMAL.THRESH.shutdown : Fld := ⟨0x38004, 24, 8⟩
abbrev Reg.THERMAL.THRESH.throttle : Fld := ⟨0x38004, 16, 8⟩
abbrev Reg.THERMAL.THRESH.warning : Fld := ⟨0x38004, 8, 8⟩
/-- `THERMAL.THROTTLE`, the whole register. -/
abbrev Reg.THERMAL.THROTTLE.word : Fld := ⟨0x38008, 0, 32⟩
abbrev Reg.THERMAL.THROTTLE.excess : Fld := ⟨0x38008, 24, 8⟩
abbrev Reg.THERMAL.THROTTLE.floor : Fld := ⟨0x38008, 16, 8⟩
abbrev Reg.THERMAL.THROTTLE.k : Fld := ⟨0x38008, 0, 10⟩
/-- `THERMAL.STATUS`, the whole register. -/
abbrev Reg.THERMAL.STATUS.word : Fld := ⟨0x3800C, 0, 32⟩
abbrev Reg.THERMAL.STATUS.hottest : Fld := ⟨0x3800C, 27, 5⟩
abbrev Reg.THERMAL.STATUS.shutdown : Fld := ⟨0x3800C, 19, 1⟩
abbrev Reg.THERMAL.STATUS.throttle : Fld := ⟨0x3800C, 18, 1⟩
abbrev Reg.THERMAL.STATUS.warning : Fld := ⟨0x3800C, 17, 1⟩
abbrev Reg.THERMAL.STATUS.held : Fld := ⟨0x3800C, 16, 1⟩
abbrev Reg.THERMAL.STATUS.t_hot : Fld := ⟨0x3800C, 0, 16⟩
/-- `THERMAL.P_EFF`. -/
abbrev Reg.THERMAL.P_EFF.word : Fld := ⟨0x38010, 0, 32⟩
/-- `THERMAL.EXCLUDED`, the whole register. -/
abbrev Reg.THERMAL.EXCLUDED.word : Fld := ⟨0x38014, 0, 32⟩
abbrev Reg.THERMAL.EXCLUDED.invalid : Fld := ⟨0x38014, 0, 24⟩
/-- `THERMAL.TSn`, the whole register. -/
abbrev Reg.THERMAL.TS.word (n : Nat) : Fld := ⟨0x38100 + 0x4 * n, 0, 32⟩
abbrev Reg.THERMAL.TS.valid (n : Nat) : Fld := ⟨0x38100 + 0x4 * n, 31, 1⟩
abbrev Reg.THERMAL.TS.substituted (n : Nat) : Fld := ⟨0x38100 + 0x4 * n, 30, 1⟩
abbrev Reg.THERMAL.TS.reading (n : Nat) : Fld := ⟨0x38100 + 0x4 * n, 0, 16⟩
/-- `TRIM.CTL`, the whole register. -/
abbrev Reg.TRIM.CTL.word : Fld := ⟨0x40000, 0, 32⟩
abbrev Reg.TRIM.CTL.reload : Fld := ⟨0x40000, 0, 1⟩
/-- `TRIM.STATUS`, the whole register. -/
abbrev Reg.TRIM.STATUS.word : Fld := ⟨0x40004, 0, 32⟩
abbrev Reg.TRIM.STATUS.version : Fld := ⟨0x40004, 16, 16⟩
abbrev Reg.TRIM.STATUS.settling : Fld := ⟨0x40004, 3, 1⟩
abbrev Reg.TRIM.STATUS.write_lost : Fld := ⟨0x40004, 2, 1⟩
abbrev Reg.TRIM.STATUS.otp_error : Fld := ⟨0x40004, 1, 1⟩
abbrev Reg.TRIM.STATUS.loaded : Fld := ⟨0x40004, 0, 1⟩
/-- `TRIM.BANDGAP`, the whole register. -/
abbrev Reg.TRIM.BANDGAP.word : Fld := ⟨0x40010, 0, 32⟩
abbrev Reg.TRIM.BANDGAP.code : Fld := ⟨0x40010, 0, 10⟩
/-- `TRIM.HKA`, the whole register. -/
abbrev Reg.TRIM.HKA.word : Fld := ⟨0x40014, 0, 32⟩
abbrev Reg.TRIM.HKA.gain : Fld := ⟨0x40014, 16, 16⟩
abbrev Reg.TRIM.HKA.ofs : Fld := ⟨0x40014, 0, 14⟩
/-- `TRIM.HKB`, the whole register. -/
abbrev Reg.TRIM.HKB.word : Fld := ⟨0x40018, 0, 32⟩
abbrev Reg.TRIM.HKB.gain : Fld := ⟨0x40018, 16, 16⟩
abbrev Reg.TRIM.HKB.ofs : Fld := ⟨0x40018, 0, 14⟩
/-- `TRIM.RAIL_Ii`, the whole register. -/
abbrev Reg.TRIM.RAIL_I.word (n : Nat) : Fld := ⟨0x40020 + 0x4 * n, 0, 32⟩
abbrev Reg.TRIM.RAIL_I.gain (n : Nat) : Fld := ⟨0x40020 + 0x4 * n, 0, 16⟩
/-- `TRIM.CPM`, the whole register. -/
abbrev Reg.TRIM.CPM.word : Fld := ⟨0x40040, 0, 32⟩
abbrev Reg.TRIM.CPM.gain : Fld := ⟨0x40040, 0, 16⟩
/-- `TRIM.TSn`, the whole register. -/
abbrev Reg.TRIM.TS.word (n : Nat) : Fld := ⟨0x40100 + 0x4 * n, 0, 32⟩
abbrev Reg.TRIM.TS.slope (n : Nat) : Fld := ⟨0x40100 + 0x4 * n, 16, 16⟩
abbrev Reg.TRIM.TS.offset (n : Nat) : Fld := ⟨0x40100 + 0x4 * n, 0, 16⟩
/-- `TRIM.SPEEDn`, the whole register. -/
abbrev Reg.TRIM.SPEED.word (n : Nat) : Fld := ⟨0x40200 + 0x4 * n, 0, 32⟩
abbrev Reg.TRIM.SPEED.gain (n : Nat) : Fld := ⟨0x40200 + 0x4 * n, 0, 16⟩
/-- `TRIM.DELAYp`, the whole register. -/
abbrev Reg.TRIM.DELAY.word (n : Nat) : Fld := ⟨0x40300 + 0x4 * n, 0, 32⟩
abbrev Reg.TRIM.DELAY.transmit (n : Nat) : Fld := ⟨0x40300 + 0x4 * n, 16, 16⟩
abbrev Reg.TRIM.DELAY.receive (n : Nat) : Fld := ⟨0x40300 + 0x4 * n, 0, 16⟩
/-- `TRIM.REFTONEg`, the whole register. -/
abbrev Reg.TRIM.REFTONE.word (n : Nat) : Fld := ⟨0x40400 + 0x4 * n, 0, 32⟩
abbrev Reg.TRIM.REFTONE.phase (n : Nat) : Fld := ⟨0x40400 + 0x4 * n, 0, 16⟩
/-- `TRIM.RX_GAINp_g`, the whole register. -/
abbrev Reg.TRIM.RX_GAIN.word (n : Nat) (k : Nat) : Fld := ⟨0x41000 + 0x100 * n + 0x4 * k, 0, 32⟩
abbrev Reg.TRIM.RX_GAIN.gain (n : Nat) (k : Nat) : Fld := ⟨0x41000 + 0x100 * n + 0x4 * k, 0, 16⟩
/-- `CLOCK.REF_CTL`, the whole register. -/
abbrev Reg.CLOCK.REF_CTL.word : Fld := ⟨0x50000, 0, 32⟩
abbrev Reg.CLOCK.REF_CTL.holdover_max : Fld := ⟨0x50000, 24, 8⟩
abbrev Reg.CLOCK.REF_CTL.step_en : Fld := ⟨0x50000, 8, 1⟩
abbrev Reg.CLOCK.REF_CTL.source : Fld := ⟨0x50000, 0, 2⟩
/-- `CLOCK.REF_STATUS`, the whole register. -/
abbrev Reg.CLOCK.REF_STATUS.word : Fld := ⟨0x50004, 0, 32⟩
abbrev Reg.CLOCK.REF_STATUS.rate : Fld := ⟨0x50004, 30, 2⟩
abbrev Reg.CLOCK.REF_STATUS.refclk_ok : Fld := ⟨0x50004, 29, 1⟩
abbrev Reg.CLOCK.REF_STATUS.holdover : Fld := ⟨0x50004, 28, 1⟩
abbrev Reg.CLOCK.REF_STATUS.source : Fld := ⟨0x50004, 26, 2⟩
abbrev Reg.CLOCK.REF_STATUS.ref_stop : Fld := ⟨0x50004, 25, 1⟩
abbrev Reg.CLOCK.REF_STATUS.holdover_ms : Fld := ⟨0x50004, 0, 16⟩
/-- `CLOCK.SYNC_CTL`, the whole register. -/
abbrev Reg.CLOCK.SYNC_CTL.word : Fld := ⟨0x5000C, 0, 32⟩
abbrev Reg.CLOCK.SYNC_CTL.align : Fld := ⟨0x5000C, 4, 1⟩
abbrev Reg.CLOCK.SYNC_CTL.mode : Fld := ⟨0x5000C, 0, 2⟩
/-- `CLOCK.TIME_STATUS`, the whole register. -/
abbrev Reg.CLOCK.TIME_STATUS.word : Fld := ⟨0x50028, 0, 32⟩
abbrev Reg.CLOCK.TIME_STATUS.state : Fld := ⟨0x50028, 28, 4⟩
abbrev Reg.CLOCK.TIME_STATUS.carried : Fld := ⟨0x50028, 27, 1⟩
abbrev Reg.CLOCK.TIME_STATUS.stepped : Fld := ⟨0x50028, 26, 1⟩
/-- `CLOCK.SSC_CTL`, the whole register. -/
abbrev Reg.CLOCK.SSC_CTL.word : Fld := ⟨0x50030, 0, 32⟩
abbrev Reg.CLOCK.SSC_CTL.depth : Fld := ⟨0x50030, 4, 4⟩
abbrev Reg.CLOCK.SSC_CTL.mode : Fld := ⟨0x50030, 0, 2⟩
/-- `CLOCK.DITHER_CTL`, the whole register. -/
abbrev Reg.CLOCK.DITHER_CTL.word : Fld := ⟨0x50034, 0, 32⟩
abbrev Reg.CLOCK.DITHER_CTL.refused : Fld := ⟨0x50034, 8, 1⟩
abbrev Reg.CLOCK.DITHER_CTL.force : Fld := ⟨0x50034, 0, 3⟩
/-- `CLOCK.ISLAND_STATUS`, the whole register. -/
abbrev Reg.CLOCK.ISLAND_STATUS.word : Fld := ⟨0x50040, 0, 32⟩
abbrev Reg.CLOCK.ISLAND_STATUS.locked : Fld := ⟨0x50040, 8, 8⟩
abbrev Reg.CLOCK.ISLAND_STATUS.running : Fld := ⟨0x50040, 0, 8⟩
/-- `CLOCK.CNV_STATUS`, the whole register. -/
abbrev Reg.CLOCK.CNV_STATUS.word : Fld := ⟨0x50064, 0, 32⟩
abbrev Reg.CLOCK.CNV_STATUS.x_state : Fld := ⟨0x50064, 28, 4⟩
abbrev Reg.CLOCK.CNV_STATUS.y_state : Fld := ⟨0x50064, 24, 4⟩
abbrev Reg.CLOCK.CNV_STATUS.active : Fld := ⟨0x50064, 23, 1⟩
abbrev Reg.CLOCK.CNV_STATUS.tracking : Fld := ⟨0x50064, 22, 1⟩
abbrev Reg.CLOCK.CNV_STATUS.diff : Fld := ⟨0x50064, 0, 16⟩
/-- `CLOCK.XFEED_MEAS`, the whole register. -/
abbrev Reg.CLOCK.XFEED_MEAS.word : Fld := ⟨0x50068, 0, 32⟩
abbrev Reg.CLOCK.XFEED_MEAS.valid : Fld := ⟨0x50068, 31, 1⟩
abbrev Reg.CLOCK.XFEED_MEAS.delta : Fld := ⟨0x50068, 0, 16⟩
/-- `CLOCK.REF_STEER`. -/
abbrev Reg.CLOCK.REF_STEER.word : Fld := ⟨0x50008, 0, 32⟩
/-- `CLOCK.SYNC_OFFSET`. -/
abbrev Reg.CLOCK.SYNC_OFFSET.word : Fld := ⟨0x50010, 0, 32⟩
/-- `CLOCK.TIME_LO`. -/
abbrev Reg.CLOCK.TIME_LO.word : Fld := ⟨0x50020, 0, 32⟩
/-- `CLOCK.TIME_HI`. -/
abbrev Reg.CLOCK.TIME_HI.word : Fld := ⟨0x50024, 0, 32⟩
/-- `CLOCK.TIME_STEPS`. -/
abbrev Reg.CLOCK.TIME_STEPS.word : Fld := ⟨0x5002C, 0, 32⟩
/-- `CLOCK.CNV_CTL`, the whole register. -/
abbrev Reg.CLOCK.CNV_CTL.word : Fld := ⟨0x50060, 0, 32⟩
abbrev Reg.CLOCK.CNV_CTL.seed : Fld := ⟨0x50060, 0, 8⟩
/-- `CLOCK.ISLAND_CNTn`, the whole register. -/
abbrev Reg.CLOCK.ISLAND_CNT.word (n : Nat) : Fld := ⟨0x50080 + 0x4 * n, 0, 32⟩
abbrev Reg.CLOCK.ISLAND_CNT.losses (n : Nat) : Fld := ⟨0x50080 + 0x4 * n, 24, 8⟩
abbrev Reg.CLOCK.ISLAND_CNT.failed (n : Nat) : Fld := ⟨0x50080 + 0x4 * n, 16, 8⟩
/-- `CLOCK.LOA_CTL, CLOCK.LOB_CTL`, the whole register. -/
abbrev Reg.CLOCK.LO_CTL.word (n : Nat) : Fld := ⟨0x50100 + 0x40 * n, 0, 32⟩
abbrev Reg.CLOCK.LO_CTL.seed (n : Nat) : Fld := ⟨0x50100 + 0x40 * n, 8, 8⟩
abbrev Reg.CLOCK.LO_CTL.hold_crossfeed (n : Nat) : Fld := ⟨0x50100 + 0x40 * n, 2, 1⟩
abbrev Reg.CLOCK.LO_CTL.relock (n : Nat) : Fld := ⟨0x50100 + 0x40 * n, 1, 1⟩
/-- `CLOCK.LOA_STATUS, CLOCK.LOB_STATUS`, the whole register. -/
abbrev Reg.CLOCK.LO_STATUS.word (n : Nat) : Fld := ⟨0x50104 + 0x40 * n, 0, 32⟩
abbrev Reg.CLOCK.LO_STATUS.state (n : Nat) : Fld := ⟨0x50104 + 0x40 * n, 28, 4⟩
abbrev Reg.CLOCK.LO_STATUS.attempt (n : Nat) : Fld := ⟨0x50104 + 0x40 * n, 26, 2⟩
abbrev Reg.CLOCK.LO_STATUS.own_lock (n : Nat) : Fld := ⟨0x50104 + 0x40 * n, 25, 1⟩
abbrev Reg.CLOCK.LO_STATUS.crossfed (n : Nat) : Fld := ⟨0x50104 + 0x40 * n, 24, 1⟩
abbrev Reg.CLOCK.LO_STATUS.dither (n : Nat) : Fld := ⟨0x50104 + 0x40 * n, 23, 1⟩
abbrev Reg.CLOCK.LO_STATUS.vco_margin_low (n : Nat) : Fld := ⟨0x50104 + 0x40 * n, 22, 1⟩
/-- `CLOCK.LOA_COUNT, CLOCK.LOB_COUNT`, the whole register. -/
abbrev Reg.CLOCK.LO_COUNT.word (n : Nat) : Fld := ⟨0x50108 + 0x40 * n, 0, 32⟩
abbrev Reg.CLOCK.LO_COUNT.losses (n : Nat) : Fld := ⟨0x50108 + 0x40 * n, 24, 8⟩
abbrev Reg.CLOCK.LO_COUNT.relock_fail (n : Nat) : Fld := ⟨0x50108 + 0x40 * n, 16, 8⟩
abbrev Reg.CLOCK.LO_COUNT.degraded_sym (n : Nat) : Fld := ⟨0x50108 + 0x40 * n, 0, 16⟩
/-- `TXN.CMD`, the whole register. -/
abbrev Reg.TXN.CMD.word : Fld := ⟨0x60000, 0, 32⟩
abbrev Reg.TXN.CMD.slot : Fld := ⟨0x60000, 8, 5⟩
abbrev Reg.TXN.CMD.cmd : Fld := ⟨0x60000, 0, 4⟩
/-- `TXN.BIND`, the whole register. -/
abbrev Reg.TXN.BIND.word : Fld := ⟨0x60004, 0, 32⟩
abbrev Reg.TXN.BIND.bound : Fld := ⟨0x60004, 5, 1⟩
abbrev Reg.TXN.BIND.slot : Fld := ⟨0x60004, 0, 5⟩
/-- `TXN.CH_STATUS`, the whole register. -/
abbrev Reg.TXN.CH_STATUS.word : Fld := ⟨0x60008, 0, 32⟩
abbrev Reg.TXN.CH_STATUS.result : Fld := ⟨0x60008, 24, 8⟩
abbrev Reg.TXN.CH_STATUS.slot : Fld := ⟨0x60008, 16, 5⟩
abbrev Reg.TXN.CH_STATUS.busy : Fld := ⟨0x60008, 8, 1⟩
abbrev Reg.TXN.CH_STATUS.limit : Fld := ⟨0x60008, 3, 1⟩
abbrev Reg.TXN.CH_STATUS.closed : Fld := ⟨0x60008, 2, 1⟩
abbrev Reg.TXN.CH_STATUS.rws_lost : Fld := ⟨0x60008, 1, 1⟩
abbrev Reg.TXN.CH_STATUS.done : Fld := ⟨0x60008, 0, 1⟩
/-- `TXN.ARRAY_CTL`, the whole register. -/
abbrev Reg.TXN.ARRAY_CTL.word : Fld := ⟨0x6000C, 0, 32⟩
abbrev Reg.TXN.ARRAY_CTL.guard : Fld := ⟨0x6000C, 0, 16⟩
/-- `TXN.RWS_LOST`. -/
abbrev Reg.TXN.RWS_LOST.word : Fld := ⟨0x60010, 0, 32⟩
/-- `TXN.LAST_COMMIT`. -/
abbrev Reg.TXN.LAST_COMMIT.word : Fld := ⟨0x60014, 0, 32⟩
/-- `TXN.SLOT_CTLn`, the whole register. -/
abbrev Reg.TXN.SLOT_CTL.word (n : Nat) : Fld := ⟨0x60100 + 0x20 * n, 0, 32⟩
abbrev Reg.TXN.SLOT_CTL.next (n : Nat) : Fld := ⟨0x60100 + 0x20 * n, 31, 1⟩
abbrev Reg.TXN.SLOT_CTL.carrier (n : Nat) : Fld := ⟨0x60100 + 0x20 * n, 28, 3⟩
abbrev Reg.TXN.SLOT_CTL.sfn (n : Nat) : Fld := ⟨0x60100 + 0x20 * n, 18, 10⟩
abbrev Reg.TXN.SLOT_CTL.slot (n : Nat) : Fld := ⟨0x60100 + 0x20 * n, 11, 7⟩
abbrev Reg.TXN.SLOT_CTL.symbol (n : Nat) : Fld := ⟨0x60100 + 0x20 * n, 7, 4⟩
/-- `TXN.SLOT_STATUSn`, the whole register. -/
abbrev Reg.TXN.SLOT_STATUS.word (n : Nat) : Fld := ⟨0x60104 + 0x20 * n, 0, 32⟩
abbrev Reg.TXN.SLOT_STATUS.state (n : Nat) : Fld := ⟨0x60104 + 0x20 * n, 28, 4⟩
abbrev Reg.TXN.SLOT_STATUS.cause (n : Nat) : Fld := ⟨0x60104 + 0x20 * n, 20, 8⟩
abbrev Reg.TXN.SLOT_STATUS.array (n : Nat) : Fld := ⟨0x60104 + 0x20 * n, 19, 1⟩
abbrev Reg.TXN.SLOT_STATUS.in_doubt (n : Nat) : Fld := ⟨0x60104 + 0x20 * n, 18, 1⟩
abbrev Reg.TXN.SLOT_STATUS.abort_pending (n : Nat) : Fld := ⟨0x60104 + 0x20 * n, 17, 1⟩
abbrev Reg.TXN.SLOT_STATUS.preparing (n : Nat) : Fld := ⟨0x60104 + 0x20 * n, 16, 1⟩
abbrev Reg.TXN.SLOT_STATUS.owner (n : Nat) : Fld := ⟨0x60104 + 0x20 * n, 12, 4⟩
abbrev Reg.TXN.SLOT_STATUS.poisoned (n : Nat) : Fld := ⟨0x60104 + 0x20 * n, 11, 1⟩
/-- `TXN.SLOT_IDn`. -/
abbrev Reg.TXN.SLOT_ID.word (n : Nat) : Fld := ⟨0x60108 + 0x20 * n, 0, 32⟩
/-- `TXN.SLOT_USEn`, the whole register. -/
abbrev Reg.TXN.SLOT_USE.word (n : Nat) : Fld := ⟨0x6010C + 0x20 * n, 0, 32⟩
abbrev Reg.TXN.SLOT_USE.bytes (n : Nat) : Fld := ⟨0x6010C + 0x20 * n, 13, 19⟩
abbrev Reg.TXN.SLOT_USE.entries (n : Nat) : Fld := ⟨0x6010C + 0x20 * n, 0, 13⟩
/-- `TXN.SLOT_REFUSEn`. -/
abbrev Reg.TXN.SLOT_REFUSE.word (n : Nat) : Fld := ⟨0x60110 + 0x20 * n, 0, 32⟩
/-- `TXN.SLOT_TIME_LOn`. -/
abbrev Reg.TXN.SLOT_TIME_LO.word (n : Nat) : Fld := ⟨0x60114 + 0x20 * n, 0, 32⟩
/-- `TXN.SLOT_TIME_HIn`. -/
abbrev Reg.TXN.SLOT_TIME_HI.word (n : Nat) : Fld := ⟨0x60118 + 0x20 * n, 0, 32⟩
/-- `TXN.SLOT_PEERn`, the whole register. -/
abbrev Reg.TXN.SLOT_PEER.word (n : Nat) : Fld := ⟨0x6011C + 0x20 * n, 0, 32⟩
abbrev Reg.TXN.SLOT_PEER.cause (n : Nat) : Fld := ⟨0x6011C + 0x20 * n, 24, 8⟩
abbrev Reg.TXN.SLOT_PEER.landing (n : Nat) : Fld := ⟨0x6011C + 0x20 * n, 0, 9⟩
/-- `RECOVERY.RESERVE`, the whole register. -/
abbrev Reg.RECOVERY.RESERVE.word : Fld := ⟨0x70000, 0, 32⟩
abbrev Reg.RECOVERY.RESERVE.reserve : Fld := ⟨0x70000, 0, 6⟩
/-- `RECOVERY.STATUS`, the whole register. -/
abbrev Reg.RECOVERY.STATUS.word : Fld := ⟨0x70004, 0, 32⟩
abbrev Reg.RECOVERY.STATUS.alcoves_free : Fld := ⟨0x70004, 24, 8⟩
abbrev Reg.RECOVERY.STATUS.pipes_free : Fld := ⟨0x70004, 20, 4⟩
abbrev Reg.RECOVERY.STATUS.banks_free : Fld := ⟨0x70004, 8, 8⟩
abbrev Reg.RECOVERY.STATUS.cnv_standby : Fld := ⟨0x70004, 7, 1⟩
abbrev Reg.RECOVERY.STATUS.hkb_standin : Fld := ⟨0x70004, 6, 1⟩
abbrev Reg.RECOVERY.STATUS.wedged_any : Fld := ⟨0x70004, 5, 1⟩
/-- `RECOVERY.WEDGED`, the whole register. -/
abbrev Reg.RECOVERY.WEDGED.word : Fld := ⟨0x70008, 0, 32⟩
abbrev Reg.RECOVERY.WEDGED.stair : Fld := ⟨0x70008, 9, 1⟩
abbrev Reg.RECOVERY.WEDGED.fronthaul : Fld := ⟨0x70008, 8, 1⟩
abbrev Reg.RECOVERY.WEDGED.memory : Fld := ⟨0x70008, 7, 1⟩
abbrev Reg.RECOVERY.WEDGED.halls : Fld := ⟨0x70008, 6, 1⟩
abbrev Reg.RECOVERY.WEDGED.cnv : Fld := ⟨0x70008, 5, 1⟩
abbrev Reg.RECOVERY.WEDGED.lo_b : Fld := ⟨0x70008, 4, 1⟩
abbrev Reg.RECOVERY.WEDGED.lo_a : Fld := ⟨0x70008, 3, 1⟩
abbrev Reg.RECOVERY.WEDGED.corridors : Fld := ⟨0x70008, 2, 1⟩
abbrev Reg.RECOVERY.WEDGED.beam : Fld := ⟨0x70008, 1, 1⟩
abbrev Reg.RECOVERY.WEDGED.atrium : Fld := ⟨0x70008, 0, 1⟩
/-- `RECOVERY.LOG_HEAD`. -/
abbrev Reg.RECOVERY.LOG_HEAD.word : Fld := ⟨0x7000C, 0, 32⟩
/-- `RECOVERY.KEEP_LOST`. -/
abbrev Reg.RECOVERY.KEEP_LOST.word : Fld := ⟨0x70010, 0, 32⟩
/-- `RECOVERY.FAULTS`. -/
abbrev Reg.RECOVERY.FAULTS.word : Fld := ⟨0x70014, 0, 32⟩
/-- `RECOVERY.REPLAY_MAX`, the whole register. -/
abbrev Reg.RECOVERY.REPLAY_MAX.word : Fld := ⟨0x70018, 0, 32⟩
abbrev Reg.RECOVERY.REPLAY_MAX.tenths : Fld := ⟨0x70018, 0, 16⟩
/-- `RECOVERY.PIPE_MAP`. -/
abbrev Reg.RECOVERY.PIPE_MAP.word : Fld := ⟨0x7001C, 0, 32⟩
/-- `RECOVERY.MISSED_SYMc`. -/
abbrev Reg.RECOVERY.MISSED_SYM.word (n : Nat) : Fld := ⟨0x70040 + 0x4 * n, 0, 32⟩
/-- `RECOVERY.DEGRADED_SYMc`. -/
abbrev Reg.RECOVERY.DEGRADED_SYM.word (n : Nat) : Fld := ⟨0x70060 + 0x4 * n, 0, 32⟩
/-- `RECOVERY.BANK_MAPk`, the whole register. -/
abbrev Reg.RECOVERY.BANK_MAP.word (n : Nat) : Fld := ⟨0x70100 + 0x4 * n, 0, 32⟩
abbrev Reg.RECOVERY.BANK_MAP.odd (n : Nat) : Fld := ⟨0x70100 + 0x4 * n, 16, 16⟩
abbrev Reg.RECOVERY.BANK_MAP.even (n : Nat) : Fld := ⟨0x70100 + 0x4 * n, 0, 16⟩
/-- `IMAGE.CTL`, the whole register. -/
abbrev Reg.IMAGE.CTL.word : Fld := ⟨0x80000, 0, 32⟩
abbrev Reg.IMAGE.CTL.slot : Fld := ⟨0x80000, 4, 1⟩
abbrev Reg.IMAGE.CTL.cmd : Fld := ⟨0x80000, 0, 4⟩
/-- `IMAGE.STATUS`, the whole register. -/
abbrev Reg.IMAGE.STATUS.word : Fld := ⟨0x80004, 0, 32⟩
abbrev Reg.IMAGE.STATUS.code : Fld := ⟨0x80004, 24, 8⟩
abbrev Reg.IMAGE.STATUS.section : Fld := ⟨0x80004, 16, 8⟩
abbrev Reg.IMAGE.STATUS.state : Fld := ⟨0x80004, 12, 4⟩
abbrev Reg.IMAGE.STATUS.source : Fld := ⟨0x80004, 10, 2⟩
abbrev Reg.IMAGE.STATUS.partial_ready : Fld := ⟨0x80004, 9, 1⟩
abbrev Reg.IMAGE.STATUS.locked : Fld := ⟨0x80004, 8, 1⟩
abbrev Reg.IMAGE.STATUS.trial : Fld := ⟨0x80004, 7, 1⟩
abbrev Reg.IMAGE.STATUS.fallback : Fld := ⟨0x80004, 6, 1⟩
abbrev Reg.IMAGE.STATUS.busy : Fld := ⟨0x80004, 5, 1⟩
abbrev Reg.IMAGE.STATUS.cmd_lost : Fld := ⟨0x80004, 4, 1⟩
abbrev Reg.IMAGE.STATUS.buf_write_lost : Fld := ⟨0x80004, 3, 1⟩
abbrev Reg.IMAGE.STATUS.done : Fld := ⟨0x80004, 0, 1⟩
/-- `IMAGE.RUN_SERIAL`. -/
abbrev Reg.IMAGE.RUN_SERIAL.word : Fld := ⟨0x80008, 0, 32⟩
/-- `IMAGE.FLOOR`. -/
abbrev Reg.IMAGE.FLOOR.word : Fld := ⟨0x8000C, 0, 32⟩
/-- `IMAGE.LOAD_BUF`. -/
abbrev Reg.IMAGE.LOAD_BUF.word : Fld := ⟨0x80010, 0, 32⟩
/-- `IMAGE.LIVE_APPLY`, the whole register. -/
abbrev Reg.IMAGE.LIVE_APPLY.word : Fld := ⟨0x80014, 0, 32⟩
abbrev Reg.IMAGE.LIVE_APPLY.serial : Fld := ⟨0x80014, 0, 32⟩
/-- `IMAGE.DIGESTk`. -/
abbrev Reg.IMAGE.DIGEST.word (n : Nat) : Fld := ⟨0x80020 + 0x4 * n, 0, 32⟩
/-- `KEEP.CMD`, the whole register. -/
abbrev Reg.KEEP.CMD.word : Fld := ⟨0x81000, 0, 32⟩
abbrev Reg.KEEP.CMD.cmd : Fld := ⟨0x81000, 0, 4⟩
/-- `KEEP.STATUS`, the whole register. -/
abbrev Reg.KEEP.STATUS.word : Fld := ⟨0x81004, 0, 32⟩
abbrev Reg.KEEP.STATUS.result : Fld := ⟨0x81004, 24, 8⟩
abbrev Reg.KEEP.STATUS.cmd_lost : Fld := ⟨0x81004, 2, 1⟩
abbrev Reg.KEEP.STATUS.busy : Fld := ⟨0x81004, 1, 1⟩
abbrev Reg.KEEP.STATUS.done : Fld := ⟨0x81004, 0, 1⟩
/-- `KEEP.ADDR`, the whole register. -/
abbrev Reg.KEEP.ADDR.word : Fld := ⟨0x81008, 0, 32⟩
abbrev Reg.KEEP.ADDR.area : Fld := ⟨0x81008, 28, 4⟩
abbrev Reg.KEEP.ADDR.page : Fld := ⟨0x81008, 0, 16⟩
/-- `KEEP.LEN`, the whole register. -/
abbrev Reg.KEEP.LEN.word : Fld := ⟨0x8100C, 0, 32⟩
abbrev Reg.KEEP.LEN.bytes : Fld := ⟨0x8100C, 0, 21⟩
/-- `KEEP.UPDATE`. -/
abbrev Reg.KEEP.UPDATE.word : Fld := ⟨0x81010, 0, 32⟩
/-- `KEEP.WEAR`, the whole register. -/
abbrev Reg.KEEP.WEAR.word : Fld := ⟨0x81014, 0, 32⟩
abbrev Reg.KEEP.WEAR.count : Fld := ⟨0x81014, 0, 16⟩
/-- `KEEP.PAGEk`. -/
abbrev Reg.KEEP.PAGE.word (n : Nat) : Fld := ⟨0x81100 + 0x4 * n, 0, 32⟩
/-- `SECURITY.STATUS`, the whole register. -/
abbrev Reg.SECURITY.STATUS.word : Fld := ⟨0x82000, 0, 32⟩
abbrev Reg.SECURITY.STATUS.result : Fld := ⟨0x82000, 24, 8⟩
abbrev Reg.SECURITY.STATUS.programmed : Fld := ⟨0x82000, 20, 4⟩
abbrev Reg.SECURITY.STATUS.revoked : Fld := ⟨0x82000, 16, 4⟩
abbrev Reg.SECURITY.STATUS.sxm_keys : Fld := ⟨0x82000, 12, 4⟩
abbrev Reg.SECURITY.STATUS.jtag_open : Fld := ⟨0x82000, 11, 1⟩
abbrev Reg.SECURITY.STATUS.locks : Fld := ⟨0x82000, 8, 3⟩
abbrev Reg.SECURITY.STATUS.busy : Fld := ⟨0x82000, 1, 1⟩
abbrev Reg.SECURITY.STATUS.done : Fld := ⟨0x82000, 0, 1⟩
/-- `SECURITY.CMD`, the whole register. -/
abbrev Reg.SECURITY.CMD.word : Fld := ⟨0x82004, 0, 32⟩
abbrev Reg.SECURITY.CMD.slot : Fld := ⟨0x82004, 4, 2⟩
abbrev Reg.SECURITY.CMD.cmd : Fld := ⟨0x82004, 0, 4⟩
/-- `SECURITY.OTP_ADDR`. -/
abbrev Reg.SECURITY.OTP_ADDR.word : Fld := ⟨0x82008, 2, 8⟩
/-- `SECURITY.OTP_DATA`, the whole register. -/
abbrev Reg.SECURITY.OTP_DATA.word : Fld := ⟨0x8200C, 0, 32⟩
abbrev Reg.SECURITY.OTP_DATA.data : Fld := ⟨0x8200C, 0, 32⟩
/-- `SECURITY.UID_LO`. -/
abbrev Reg.SECURITY.UID_LO.word : Fld := ⟨0x82010, 0, 32⟩
/-- `SECURITY.UID_HI`. -/
abbrev Reg.SECURITY.UID_HI.word : Fld := ⟨0x82014, 0, 32⟩
/-- `SECURITY.NONCEk`. -/
abbrev Reg.SECURITY.NONCE.word (n : Nat) : Fld := ⟨0x82020 + 0x4 * n, 0, 32⟩
/-- `SECURITY.SXM_KEY_DATA`. -/
abbrev Reg.SECURITY.SXM_KEY_DATA.word : Fld := ⟨0x82044, 0, 32⟩
/-- `SECURITY.TOKENk`. -/
abbrev Reg.SECURITY.TOKEN.word (n : Nat) : Fld := ⟨0x82100 + 0x4 * n, 0, 32⟩
/-- `PATH[p].CTL`, the whole register. -/
abbrev Reg.PATH.CTL.word (p : Nat) : Fld := ⟨0x100000 + 0x1000 * p, 0, 32⟩
abbrev Reg.PATH.CTL.retire (p : Nat) : Fld := ⟨0x100000 + 0x1000 * p, 8, 1⟩
abbrev Reg.PATH.CTL.mute (p : Nat) : Fld := ⟨0x100000 + 0x1000 * p, 1, 1⟩
abbrev Reg.PATH.CTL.service (p : Nat) : Fld := ⟨0x100000 + 0x1000 * p, 0, 1⟩
/-- `PATH[p].STATUS`, the whole register. -/
abbrev Reg.PATH.STATUS.word (p : Nat) : Fld := ⟨0x100004 + 0x1000 * p, 0, 32⟩
abbrev Reg.PATH.STATUS.retire_cause (p : Nat) : Fld := ⟨0x100004 + 0x1000 * p, 28, 4⟩
abbrev Reg.PATH.STATUS.state (p : Nat) : Fld := ⟨0x100004 + 0x1000 * p, 24, 4⟩
abbrev Reg.PATH.STATUS.mute_reasons (p : Nat) : Fld := ⟨0x100004 + 0x1000 * p, 16, 8⟩
abbrev Reg.PATH.STATUS.uncal (p : Nat) : Fld := ⟨0x100004 + 0x1000 * p, 15, 1⟩
abbrev Reg.PATH.STATUS.cal_stale (p : Nat) : Fld := ⟨0x100004 + 0x1000 * p, 14, 1⟩
abbrev Reg.PATH.STATUS.tx_active (p : Nat) : Fld := ⟨0x100004 + 0x1000 * p, 11, 1⟩
abbrev Reg.PATH.STATUS.rx_valid (p : Nat) : Fld := ⟨0x100004 + 0x1000 * p, 10, 1⟩
/-- `PATH[p].TX_ATTEN`, the whole register. -/
abbrev Reg.PATH.TX_ATTEN.word (p : Nat) : Fld := ⟨0x100008 + 0x1000 * p, 0, 32⟩
abbrev Reg.PATH.TX_ATTEN.atten (p : Nat) : Fld := ⟨0x100008 + 0x1000 * p, 0, 8⟩
/-- `PATH[p].RX_GAIN`, the whole register. -/
abbrev Reg.PATH.RX_GAIN.word (p : Nat) : Fld := ⟨0x10000C + 0x1000 * p, 0, 32⟩
abbrev Reg.PATH.RX_GAIN.dgain (p : Nat) : Fld := ⟨0x10000C + 0x1000 * p, 16, 16⟩
abbrev Reg.PATH.RX_GAIN.ref (p : Nat) : Fld := ⟨0x10000C + 0x1000 * p, 8, 6⟩
abbrev Reg.PATH.RX_GAIN.gain (p : Nat) : Fld := ⟨0x10000C + 0x1000 * p, 0, 6⟩
/-- `PATH[p].AGC_CTL`, the whole register. -/
abbrev Reg.PATH.AGC_CTL.word (p : Nat) : Fld := ⟨0x100010 + 0x1000 * p, 0, 32⟩
abbrev Reg.PATH.AGC_CTL.target (p : Nat) : Fld := ⟨0x100010 + 0x1000 * p, 16, 8⟩
abbrev Reg.PATH.AGC_CTL.ovl_thresh (p : Nat) : Fld := ⟨0x100010 + 0x1000 * p, 8, 8⟩
abbrev Reg.PATH.AGC_CTL.step (p : Nat) : Fld := ⟨0x100010 + 0x1000 * p, 4, 4⟩
abbrev Reg.PATH.AGC_CTL.mode (p : Nat) : Fld := ⟨0x100010 + 0x1000 * p, 0, 2⟩
/-- `PATH[p].LOOP_CTL`, the whole register. -/
abbrev Reg.PATH.LOOP_CTL.word (p : Nat) : Fld := ⟨0x100014 + 0x1000 * p, 0, 32⟩
abbrev Reg.PATH.LOOP_CTL.iq_step (p : Nat) : Fld := ⟨0x100014 + 0x1000 * p, 20, 4⟩
abbrev Reg.PATH.LOOP_CTL.dc_bw (p : Nat) : Fld := ⟨0x100014 + 0x1000 * p, 16, 2⟩
abbrev Reg.PATH.LOOP_CTL.iq_freeze (p : Nat) : Fld := ⟨0x100014 + 0x1000 * p, 7, 1⟩
abbrev Reg.PATH.LOOP_CTL.dc_freeze (p : Nat) : Fld := ⟨0x100014 + 0x1000 * p, 6, 1⟩
abbrev Reg.PATH.LOOP_CTL.iq_track (p : Nat) : Fld := ⟨0x100014 + 0x1000 * p, 5, 1⟩
abbrev Reg.PATH.LOOP_CTL.dc_track (p : Nat) : Fld := ⟨0x100014 + 0x1000 * p, 4, 1⟩
abbrev Reg.PATH.LOOP_CTL.dc_frozen (p : Nat) : Fld := ⟨0x100014 + 0x1000 * p, 1, 1⟩
abbrev Reg.PATH.LOOP_CTL.iq_frozen (p : Nat) : Fld := ⟨0x100014 + 0x1000 * p, 0, 1⟩
/-- `PATH[p].CAL_CMD`, the whole register. -/
abbrev Reg.PATH.CAL_CMD.word (p : Nat) : Fld := ⟨0x100018 + 0x1000 * p, 0, 32⟩
abbrev Reg.PATH.CAL_CMD.cal (p : Nat) : Fld := ⟨0x100018 + 0x1000 * p, 0, 4⟩
/-- `PATH[p].CAL_STATUS`, the whole register. -/
abbrev Reg.PATH.CAL_STATUS.word (p : Nat) : Fld := ⟨0x10001C + 0x1000 * p, 0, 32⟩
abbrev Reg.PATH.CAL_STATUS.result (p : Nat) : Fld := ⟨0x10001C + 0x1000 * p, 24, 8⟩
abbrev Reg.PATH.CAL_STATUS.precond (p : Nat) : Fld := ⟨0x10001C + 0x1000 * p, 16, 8⟩
abbrev Reg.PATH.CAL_STATUS.last (p : Nat) : Fld := ⟨0x10001C + 0x1000 * p, 12, 4⟩
abbrev Reg.PATH.CAL_STATUS.lost_midway (p : Nat) : Fld := ⟨0x10001C + 0x1000 * p, 11, 1⟩
abbrev Reg.PATH.CAL_STATUS.queued (p : Nat) : Fld := ⟨0x10001C + 0x1000 * p, 9, 1⟩
abbrev Reg.PATH.CAL_STATUS.running (p : Nat) : Fld := ⟨0x10001C + 0x1000 * p, 8, 1⟩
abbrev Reg.PATH.CAL_STATUS.done (p : Nat) : Fld := ⟨0x10001C + 0x1000 * p, 0, 1⟩
/-- `PATH[p].RX_DC_TRIM`, the whole register. -/
abbrev Reg.PATH.RX_DC_TRIM.word (p : Nat) : Fld := ⟨0x100020 + 0x1000 * p, 0, 32⟩
abbrev Reg.PATH.RX_DC_TRIM.q (p : Nat) : Fld := ⟨0x100020 + 0x1000 * p, 16, 8⟩
abbrev Reg.PATH.RX_DC_TRIM.i (p : Nat) : Fld := ⟨0x100020 + 0x1000 * p, 0, 8⟩
/-- `PATH[p].TX_LO_COMP`, the whole register. -/
abbrev Reg.PATH.TX_LO_COMP.word (p : Nat) : Fld := ⟨0x100024 + 0x1000 * p, 0, 32⟩
abbrev Reg.PATH.TX_LO_COMP.q (p : Nat) : Fld := ⟨0x100024 + 0x1000 * p, 16, 16⟩
abbrev Reg.PATH.TX_LO_COMP.i (p : Nat) : Fld := ⟨0x100024 + 0x1000 * p, 0, 16⟩
/-- `PATH[p].RX_IQ_TAPk`, the whole register. -/
abbrev Reg.PATH.RX_IQ_TAP.word (p : Nat) (k : Nat) : Fld := ⟨0x100040 + 0x1000 * p + 0x4 * k, 0, 32⟩
abbrev Reg.PATH.RX_IQ_TAP.im (p : Nat) (k : Nat) : Fld := ⟨0x100040 + 0x1000 * p + 0x4 * k, 16, 16⟩
abbrev Reg.PATH.RX_IQ_TAP.re (p : Nat) (k : Nat) : Fld := ⟨0x100040 + 0x1000 * p + 0x4 * k, 0, 16⟩
/-- `PATH[p].TX_IQ_TAPk`, the whole register. -/
abbrev Reg.PATH.TX_IQ_TAP.word (p : Nat) (k : Nat) : Fld := ⟨0x100060 + 0x1000 * p + 0x4 * k, 0, 32⟩
abbrev Reg.PATH.TX_IQ_TAP.im (p : Nat) (k : Nat) : Fld := ⟨0x100060 + 0x1000 * p + 0x4 * k, 16, 16⟩
abbrev Reg.PATH.TX_IQ_TAP.re (p : Nat) (k : Nat) : Fld := ⟨0x100060 + 0x1000 * p + 0x4 * k, 0, 16⟩
/-- `PATH[p].LATE_START`. -/
abbrev Reg.PATH.LATE_START.word (p : Nat) : Fld := ⟨0x100080 + 0x1000 * p, 0, 32⟩
/-- `PATH[p].LOST_SYM`. -/
abbrev Reg.PATH.LOST_SYM.word (p : Nat) : Fld := ⟨0x100084 + 0x1000 * p, 0, 32⟩
/-- `PATH[p].OVERLOAD`. -/
abbrev Reg.PATH.OVERLOAD.word (p : Nat) : Fld := ⟨0x100088 + 0x1000 * p, 0, 32⟩
/-- `PATH[p].TURN_CLIP`. -/
abbrev Reg.PATH.TURN_CLIP.word (p : Nat) : Fld := ⟨0x10008C + 0x1000 * p, 0, 32⟩
/-- `GROUP[g].RFFE_CTL`, the whole register. -/
abbrev Reg.GROUP.RFFE_CTL.word (g : Nat) : Fld := ⟨0x140000 + 0x1000 * g, 0, 32⟩
abbrev Reg.GROUP.RFFE_CTL.sclk (g : Nat) : Fld := ⟨0x140000 + 0x1000 * g, 8, 5⟩
abbrev Reg.GROUP.RFFE_CTL.enable (g : Nat) : Fld := ⟨0x140000 + 0x1000 * g, 0, 1⟩
/-- `GROUP[g].USID_MAP`, the whole register. -/
abbrev Reg.GROUP.USID_MAP.word (g : Nat) : Fld := ⟨0x140004 + 0x1000 * g, 0, 32⟩
abbrev Reg.GROUP.USID_MAP.usid0 (g : Nat) : Fld := ⟨0x140004 + 0x1000 * g, 0, 4⟩
abbrev Reg.GROUP.USID_MAP.usid1 (g : Nat) : Fld := ⟨0x140004 + 0x1000 * g, 4, 4⟩
abbrev Reg.GROUP.USID_MAP.usid2 (g : Nat) : Fld := ⟨0x140004 + 0x1000 * g, 8, 4⟩
abbrev Reg.GROUP.USID_MAP.usid3 (g : Nat) : Fld := ⟨0x140004 + 0x1000 * g, 12, 4⟩
abbrev Reg.GROUP.USID_MAP.usid4 (g : Nat) : Fld := ⟨0x140004 + 0x1000 * g, 16, 4⟩
abbrev Reg.GROUP.USID_MAP.usid5 (g : Nat) : Fld := ⟨0x140004 + 0x1000 * g, 20, 4⟩
abbrev Reg.GROUP.USID_MAP.usid6 (g : Nat) : Fld := ⟨0x140004 + 0x1000 * g, 24, 4⟩
abbrev Reg.GROUP.USID_MAP.usid7 (g : Nat) : Fld := ⟨0x140004 + 0x1000 * g, 28, 4⟩
/-- `GROUP[g].FEM_ENTRY0`, the whole register. -/
abbrev Reg.GROUP.FEM_ENTRY0.word (g : Nat) : Fld := ⟨0x140008 + 0x1000 * g, 0, 32⟩
abbrev Reg.GROUP.FEM_ENTRY0.init (g : Nat) : Fld := ⟨0x140008 + 0x1000 * g, 24, 8⟩
abbrev Reg.GROUP.FEM_ENTRY0.pa_check (g : Nat) : Fld := ⟨0x140008 + 0x1000 * g, 16, 8⟩
abbrev Reg.GROUP.FEM_ENTRY0.rx_check (g : Nat) : Fld := ⟨0x140008 + 0x1000 * g, 8, 8⟩
abbrev Reg.GROUP.FEM_ENTRY0.poll (g : Nat) : Fld := ⟨0x140008 + 0x1000 * g, 0, 8⟩
/-- `GROUP[g].FEM_ENTRY1`, the whole register. -/
abbrev Reg.GROUP.FEM_ENTRY1.word (g : Nat) : Fld := ⟨0x14000C + 0x1000 * g, 0, 32⟩
abbrev Reg.GROUP.FEM_ENTRY1.sleep (g : Nat) : Fld := ⟨0x14000C + 0x1000 * g, 8, 8⟩
abbrev Reg.GROUP.FEM_ENTRY1.wake (g : Nat) : Fld := ⟨0x14000C + 0x1000 * g, 0, 8⟩
/-- `GROUP[g].RFFE_STATUS`, the whole register. -/
abbrev Reg.GROUP.RFFE_STATUS.word (g : Nat) : Fld := ⟨0x140010 + 0x1000 * g, 0, 32⟩
abbrev Reg.GROUP.RFFE_STATUS.errors (g : Nat) : Fld := ⟨0x140010 + 0x1000 * g, 16, 8⟩
abbrev Reg.GROUP.RFFE_STATUS.no_reply (g : Nat) : Fld := ⟨0x140010 + 0x1000 * g, 8, 8⟩
abbrev Reg.GROUP.RFFE_STATUS.busy (g : Nat) : Fld := ⟨0x140010 + 0x1000 * g, 1, 1⟩
abbrev Reg.GROUP.RFFE_STATUS.script_error (g : Nat) : Fld := ⟨0x140010 + 0x1000 * g, 0, 1⟩
/-- `GROUP[g].TR_TIMING`, the whole register. -/
abbrev Reg.GROUP.TR_TIMING.word (g : Nat) : Fld := ⟨0x140014 + 0x1000 * g, 0, 32⟩
abbrev Reg.GROUP.TR_TIMING.tx_lead (g : Nat) : Fld := ⟨0x140014 + 0x1000 * g, 16, 9⟩
abbrev Reg.GROUP.TR_TIMING.tx_lag (g : Nat) : Fld := ⟨0x140014 + 0x1000 * g, 0, 9⟩
/-- `GROUP[g].BLANK_CTL`, the whole register. -/
abbrev Reg.GROUP.BLANK_CTL.word (g : Nat) : Fld := ⟨0x140018 + 0x1000 * g, 0, 32⟩
abbrev Reg.GROUP.BLANK_CTL.actions (g : Nat) : Fld := ⟨0x140018 + 0x1000 * g, 0, 8⟩
/-- `GROUP[g].BLANK_TX_SYM`. -/
abbrev Reg.GROUP.BLANK_TX_SYM.word (g : Nat) : Fld := ⟨0x14001C + 0x1000 * g, 0, 32⟩
/-- `GROUP[g].BLANK_RX_SYM`. -/
abbrev Reg.GROUP.BLANK_RX_SYM.word (g : Nat) : Fld := ⟨0x140020 + 0x1000 * g, 0, 32⟩
/-- `GROUP[g].FEM_SCRIPTk`. -/
abbrev Reg.GROUP.FEM_SCRIPT.word (g : Nat) (k : Nat) : Fld := ⟨0x140100 + 0x1000 * g + 0x4 * k, 0, 32⟩
/-- `GROUP[g].FEM_DATAk`. -/
abbrev Reg.GROUP.FEM_DATA.word (g : Nat) (k : Nat) : Fld := ⟨0x140200 + 0x1000 * g + 0x4 * k, 0, 32⟩
/-- `GROUP[g].MASK_CTL`, the whole register. -/
abbrev Reg.GROUP.MASK_CTL.word (g : Nat) : Fld := ⟨0x140300 + 0x1000 * g, 0, 32⟩
abbrev Reg.GROUP.MASK_CTL.enable (g : Nat) : Fld := ⟨0x140300 + 0x1000 * g, 0, 1⟩
/-- `GROUP[g].CFR_CTL`, the whole register. -/
abbrev Reg.GROUP.CFR_CTL.word (g : Nat) : Fld := ⟨0x140304 + 0x1000 * g, 0, 32⟩
abbrev Reg.GROUP.CFR_CTL.clip (g : Nat) : Fld := ⟨0x140304 + 0x1000 * g, 16, 10⟩
abbrev Reg.GROUP.CFR_CTL.clip_en (g : Nat) : Fld := ⟨0x140304 + 0x1000 * g, 3, 1⟩
abbrev Reg.GROUP.CFR_CTL.stage_en (g : Nat) : Fld := ⟨0x140304 + 0x1000 * g, 0, 3⟩
/-- `GROUP[g].CFR_THRESH`, the whole register. -/
abbrev Reg.GROUP.CFR_THRESH.word (g : Nat) : Fld := ⟨0x140308 + 0x1000 * g, 0, 32⟩
abbrev Reg.GROUP.CFR_THRESH.t2 (g : Nat) : Fld := ⟨0x140308 + 0x1000 * g, 20, 10⟩
abbrev Reg.GROUP.CFR_THRESH.t1 (g : Nat) : Fld := ⟨0x140308 + 0x1000 * g, 10, 10⟩
abbrev Reg.GROUP.CFR_THRESH.t0 (g : Nat) : Fld := ⟨0x140308 + 0x1000 * g, 0, 10⟩
/-- `GROUP[g].DPD_ADAPT`, the whole register. -/
abbrev Reg.GROUP.DPD_ADAPT.word (g : Nat) : Fld := ⟨0x14030C + 0x1000 * g, 0, 32⟩
abbrev Reg.GROUP.DPD_ADAPT.rb_db (g : Nat) : Fld := ⟨0x14030C + 0x1000 * g, 8, 4⟩
abbrev Reg.GROUP.DPD_ADAPT.mu_shift (g : Nat) : Fld := ⟨0x14030C + 0x1000 * g, 4, 4⟩
abbrev Reg.GROUP.DPD_ADAPT.discard (g : Nat) : Fld := ⟨0x14030C + 0x1000 * g, 3, 1⟩
abbrev Reg.GROUP.DPD_ADAPT.mode (g : Nat) : Fld := ⟨0x14030C + 0x1000 * g, 0, 2⟩
/-- `GROUP[g].DPD_STATUS`, the whole register. -/
abbrev Reg.GROUP.DPD_STATUS.word (g : Nat) : Fld := ⟨0x140310 + 0x1000 * g, 0, 32⟩
abbrev Reg.GROUP.DPD_STATUS.staged_mask (g : Nat) : Fld := ⟨0x140310 + 0x1000 * g, 16, 8⟩
abbrev Reg.GROUP.DPD_STATUS.no_capture (g : Nat) : Fld := ⟨0x140310 + 0x1000 * g, 7, 1⟩
abbrev Reg.GROUP.DPD_STATUS.frozen (g : Nat) : Fld := ⟨0x140310 + 0x1000 * g, 6, 1⟩
abbrev Reg.GROUP.DPD_STATUS.verifying (g : Nat) : Fld := ⟨0x140310 + 0x1000 * g, 5, 1⟩
abbrev Reg.GROUP.DPD_STATUS.fitting (g : Nat) : Fld := ⟨0x140310 + 0x1000 * g, 4, 1⟩
abbrev Reg.GROUP.DPD_STATUS.staged (g : Nat) : Fld := ⟨0x140310 + 0x1000 * g, 3, 1⟩
abbrev Reg.GROUP.DPD_STATUS.round_discarded (g : Nat) : Fld := ⟨0x140310 + 0x1000 * g, 1, 1⟩
abbrev Reg.GROUP.DPD_STATUS.rollback (g : Nat) : Fld := ⟨0x140310 + 0x1000 * g, 0, 1⟩
/-- `GROUP[g].OBS_CTL`, the whole register. -/
abbrev Reg.GROUP.OBS_CTL.word (g : Nat) : Fld := ⟨0x140314 + 0x1000 * g, 0, 32⟩
abbrev Reg.GROUP.OBS_CTL.len (g : Nat) : Fld := ⟨0x140314 + 0x1000 * g, 30, 2⟩
abbrev Reg.GROUP.OBS_CTL.atten (g : Nat) : Fld := ⟨0x140314 + 0x1000 * g, 16, 5⟩
abbrev Reg.GROUP.OBS_CTL.relearn (g : Nat) : Fld := ⟨0x140314 + 0x1000 * g, 7, 1⟩
abbrev Reg.GROUP.OBS_CTL.host_req (g : Nat) : Fld := ⟨0x140314 + 0x1000 * g, 6, 1⟩
abbrev Reg.GROUP.OBS_CTL.host_path (g : Nat) : Fld := ⟨0x140314 + 0x1000 * g, 0, 3⟩
/-- `GROUP[g].OBS_SCHED`, the whole register. -/
abbrev Reg.GROUP.OBS_SCHED.word (g : Nat) : Fld := ⟨0x140318 + 0x1000 * g, 0, 32⟩
abbrev Reg.GROUP.OBS_SCHED.mask (g : Nat) : Fld := ⟨0x140318 + 0x1000 * g, 8, 8⟩
abbrev Reg.GROUP.OBS_SCHED.period (g : Nat) : Fld := ⟨0x140318 + 0x1000 * g, 0, 8⟩
/-- `GROUP[g].OBS_STATUS`, the whole register. -/
abbrev Reg.GROUP.OBS_STATUS.word (g : Nat) : Fld := ⟨0x14031C + 0x1000 * g, 0, 32⟩
abbrev Reg.GROUP.OBS_STATUS.last_cause (g : Nat) : Fld := ⟨0x14031C + 0x1000 * g, 28, 4⟩
abbrev Reg.GROUP.OBS_STATUS.suspect (g : Nat) : Fld := ⟨0x14031C + 0x1000 * g, 23, 1⟩
abbrev Reg.GROUP.OBS_STATUS.host_refused (g : Nat) : Fld := ⟨0x14031C + 0x1000 * g, 22, 1⟩
abbrev Reg.GROUP.OBS_STATUS.host_done (g : Nat) : Fld := ⟨0x14031C + 0x1000 * g, 21, 1⟩
abbrev Reg.GROUP.OBS_STATUS.path (g : Nat) : Fld := ⟨0x14031C + 0x1000 * g, 16, 3⟩
/-- `GROUP[g].OBS_DISCARD`. -/
abbrev Reg.GROUP.OBS_DISCARD.word (g : Nat) : Fld := ⟨0x140320 + 0x1000 * g, 0, 32⟩
/-- `GROUP[g].DPD_ROLLBACK`. -/
abbrev Reg.GROUP.DPD_ROLLBACK.word (g : Nat) : Fld := ⟨0x140324 + 0x1000 * g, 0, 32⟩
/-- `GROUP[g].DPD_COMMITS`. -/
abbrev Reg.GROUP.DPD_COMMITS.word (g : Nat) : Fld := ⟨0x140328 + 0x1000 * g, 0, 32⟩
/-- `GROUP[g].OBS_HOST_ADDR`. -/
abbrev Reg.GROUP.OBS_HOST_ADDR.word (g : Nat) : Fld := ⟨0x14032C + 0x1000 * g, 0, 32⟩
/-- `GROUP[g].DPD_TERMt`, the whole register. -/
abbrev Reg.GROUP.DPD_TERM.word (g : Nat) (k : Nat) : Fld := ⟨0x140380 + 0x1000 * g + 0x4 * k, 0, 32⟩
abbrev Reg.GROUP.DPD_TERM.en (g : Nat) (k : Nat) : Fld := ⟨0x140380 + 0x1000 * g + 0x4 * k, 31, 1⟩
abbrev Reg.GROUP.DPD_TERM.a (g : Nat) (k : Nat) : Fld := ⟨0x140380 + 0x1000 * g + 0x4 * k, 24, 6⟩
abbrev Reg.GROUP.DPD_TERM.b (g : Nat) (k : Nat) : Fld := ⟨0x140380 + 0x1000 * g + 0x4 * k, 16, 6⟩
/-- `GROUP[g].DPD_CTERMt`, the whole register. -/
abbrev Reg.GROUP.DPD_CTERM.word (g : Nat) (k : Nat) : Fld := ⟨0x1403E0 + 0x1000 * g + 0x4 * k, 0, 32⟩
abbrev Reg.GROUP.DPD_CTERM.en (g : Nat) (k : Nat) : Fld := ⟨0x1403E0 + 0x1000 * g + 0x4 * k, 31, 1⟩
abbrev Reg.GROUP.DPD_CTERM.c (g : Nat) (k : Nat) : Fld := ⟨0x1403E0 + 0x1000 * g + 0x4 * k, 24, 6⟩
abbrev Reg.GROUP.DPD_CTERM.d (g : Nat) (k : Nat) : Fld := ⟨0x1403E0 + 0x1000 * g + 0x4 * k, 16, 6⟩
/-- `GROUP[g].MASK_TAPk`, the whole register. -/
abbrev Reg.GROUP.MASK_TAP.word (g : Nat) (k : Nat) : Fld := ⟨0x140400 + 0x1000 * g + 0x4 * k, 0, 32⟩
abbrev Reg.GROUP.MASK_TAP.im (g : Nat) (k : Nat) : Fld := ⟨0x140400 + 0x1000 * g + 0x4 * k, 16, 16⟩
abbrev Reg.GROUP.MASK_TAP.re (g : Nat) (k : Nat) : Fld := ⟨0x140400 + 0x1000 * g + 0x4 * k, 0, 16⟩
/-- `GROUP[g].CFR_PULSEk`, the whole register. -/
abbrev Reg.GROUP.CFR_PULSE.word (g : Nat) (k : Nat) : Fld := ⟨0x140600 + 0x1000 * g + 0x4 * k, 0, 32⟩
abbrev Reg.GROUP.CFR_PULSE.im (g : Nat) (k : Nat) : Fld := ⟨0x140600 + 0x1000 * g + 0x4 * k, 16, 16⟩
abbrev Reg.GROUP.CFR_PULSE.re (g : Nat) (k : Nat) : Fld := ⟨0x140600 + 0x1000 * g + 0x4 * k, 0, 16⟩
/-- `PIPE[p].DPD_CTL`, the whole register. -/
abbrev Reg.PIPE.DPD_CTL.word (p : Nat) : Fld := ⟨0x180000 + 0x1000 * p, 0, 32⟩
abbrev Reg.PIPE.DPD_CTL.bank (p : Nat) : Fld := ⟨0x180000 + 0x1000 * p, 1, 1⟩
abbrev Reg.PIPE.DPD_CTL.enable (p : Nat) : Fld := ⟨0x180000 + 0x1000 * p, 0, 1⟩
/-- `PIPE[p].DPD_STATUS`, the whole register. -/
abbrev Reg.PIPE.DPD_STATUS.word (p : Nat) : Fld := ⟨0x180004 + 0x1000 * p, 0, 32⟩
abbrev Reg.PIPE.DPD_STATUS.cpl_disabled (p : Nat) : Fld := ⟨0x180004 + 0x1000 * p, 16, 4⟩
abbrev Reg.PIPE.DPD_STATUS.bank_in_force (p : Nat) : Fld := ⟨0x180004 + 0x1000 * p, 1, 1⟩
abbrev Reg.PIPE.DPD_STATUS.write_lost (p : Nat) : Fld := ⟨0x180004 + 0x1000 * p, 0, 1⟩
/-- `PIPE[p].DPD_TABLE`. -/
abbrev Reg.PIPE.DPD_TABLE.word (p : Nat) : Fld := ⟨0x180008 + 0x1000 * p, 0, 32⟩
/-- `PIPE[p].DPD_NMSE`, the whole register. -/
abbrev Reg.PIPE.DPD_NMSE.word (p : Nat) : Fld := ⟨0x18000C + 0x1000 * p, 0, 32⟩
abbrev Reg.PIPE.DPD_NMSE.nmse_commit (p : Nat) : Fld := ⟨0x18000C + 0x1000 * p, 16, 16⟩
abbrev Reg.PIPE.DPD_NMSE.nmse_last (p : Nat) : Fld := ⟨0x18000C + 0x1000 * p, 0, 16⟩
/-- `PIPE[p].OBS_GAIN`, the whole register. -/
abbrev Reg.PIPE.OBS_GAIN.word (p : Nat) : Fld := ⟨0x180010 + 0x1000 * p, 0, 32⟩
abbrev Reg.PIPE.OBS_GAIN.ref (p : Nat) : Fld := ⟨0x180010 + 0x1000 * p, 16, 16⟩
abbrev Reg.PIPE.OBS_GAIN.last (p : Nat) : Fld := ⟨0x180010 + 0x1000 * p, 0, 16⟩
/-- `PIPE[p].TX_SAT`. -/
abbrev Reg.PIPE.TX_SAT.word (p : Nat) : Fld := ⟨0x180014 + 0x1000 * p, 0, 32⟩
/-- `PIPE[p].DPD_SAT`. -/
abbrev Reg.PIPE.DPD_SAT.word (p : Nat) : Fld := ⟨0x180018 + 0x1000 * p, 0, 32⟩
/-- `PIPE[p].CFR_PEAKS`. -/
abbrev Reg.PIPE.CFR_PEAKS.word (p : Nat) : Fld := ⟨0x18001C + 0x1000 * p, 0, 32⟩
/-- `PIPE[p].CFR_SKIP`. -/
abbrev Reg.PIPE.CFR_SKIP.word (p : Nat) : Fld := ⟨0x180020 + 0x1000 * p, 0, 32⟩
/-- `PIPE[p].CFR_CLIPS`. -/
abbrev Reg.PIPE.CFR_CLIPS.word (p : Nat) : Fld := ⟨0x180024 + 0x1000 * p, 0, 32⟩
/-- `CARRIER[c].STATUS`, the whole register. -/
abbrev Reg.CARRIER.STATUS.word (c : Nat) : Fld := ⟨0x200000 + 0x1000 * c, 0, 32⟩
abbrev Reg.CARRIER.STATUS.state (c : Nat) : Fld := ⟨0x200000 + 0x1000 * c, 30, 2⟩
abbrev Reg.CARRIER.STATUS.joint (c : Nat) : Fld := ⟨0x200000 + 0x1000 * c, 29, 1⟩
abbrev Reg.CARRIER.STATUS.spacing (c : Nat) : Fld := ⟨0x200000 + 0x1000 * c, 27, 2⟩
abbrev Reg.CARRIER.STATUS.ecp (c : Nat) : Fld := ⟨0x200000 + 0x1000 * c, 26, 1⟩
abbrev Reg.CARRIER.STATUS.tdd (c : Nat) : Fld := ⟨0x200000 + 0x1000 * c, 20, 4⟩
abbrev Reg.CARRIER.STATUS.fft (c : Nat) : Fld := ⟨0x200000 + 0x1000 * c, 16, 4⟩
abbrev Reg.CARRIER.STATUS.epoch (c : Nat) : Fld := ⟨0x200000 + 0x1000 * c, 0, 16⟩
/-- `CARRIER[c].DL_LATENCY`, the whole register. -/
abbrev Reg.CARRIER.DL_LATENCY.word (c : Nat) : Fld := ⟨0x200004 + 0x1000 * c, 0, 32⟩
abbrev Reg.CARRIER.DL_LATENCY.ns (c : Nat) : Fld := ⟨0x200004 + 0x1000 * c, 0, 20⟩
/-- `CARRIER[c].UL_LATENCY`, the whole register. -/
abbrev Reg.CARRIER.UL_LATENCY.word (c : Nat) : Fld := ⟨0x200008 + 0x1000 * c, 0, 32⟩
abbrev Reg.CARRIER.UL_LATENCY.ns (c : Nat) : Fld := ⟨0x200008 + 0x1000 * c, 0, 20⟩
/-- `CARRIER[c].PRACH_LATENCY`, the whole register. -/
abbrev Reg.CARRIER.PRACH_LATENCY.word (c : Nat) : Fld := ⟨0x20000C + 0x1000 * c, 0, 32⟩
abbrev Reg.CARRIER.PRACH_LATENCY.ns (c : Nat) : Fld := ⟨0x20000C + 0x1000 * c, 0, 20⟩
/-- `CARRIER[c].OFDM_CTL`, the whole register. -/
abbrev Reg.CARRIER.OFDM_CTL.word (c : Nat) : Fld := ⟨0x200010 + 0x1000 * c, 0, 32⟩
abbrev Reg.CARRIER.OFDM_CTL.fft_adv (c : Nat) : Fld := ⟨0x200010 + 0x1000 * c, 16, 6⟩
abbrev Reg.CARRIER.OFDM_CTL.ifft_adj (c : Nat) : Fld := ⟨0x200010 + 0x1000 * c, 8, 5⟩
/-- `CARRIER[c].RX_SCALE`, the whole register. -/
abbrev Reg.CARRIER.RX_SCALE.word (c : Nat) : Fld := ⟨0x200014 + 0x1000 * c, 0, 32⟩
abbrev Reg.CARRIER.RX_SCALE.scale (c : Nat) : Fld := ⟨0x200014 + 0x1000 * c, 0, 16⟩
/-- `CARRIER[c].RX_CHF_CTL`, the whole register. -/
abbrev Reg.CARRIER.RX_CHF_CTL.word (c : Nat) : Fld := ⟨0x200018 + 0x1000 * c, 0, 32⟩
abbrev Reg.CARRIER.RX_CHF_CTL.src (c : Nat) : Fld := ⟨0x200018 + 0x1000 * c, 0, 1⟩
/-- `CARRIER[c].RX_CHF_TAPk`, the whole register. -/
abbrev Reg.CARRIER.RX_CHF_TAP.word (c : Nat) (k : Nat) : Fld := ⟨0x200040 + 0x1000 * c + 0x4 * k, 0, 32⟩
abbrev Reg.CARRIER.RX_CHF_TAP.tap (c : Nat) (k : Nat) : Fld := ⟨0x200040 + 0x1000 * c + 0x4 * k, 0, 18⟩
/-- `CARRIER[c].SRS_CTL`, the whole register. -/
abbrev Reg.CARRIER.SRS_CTL.word (c : Nat) : Fld := ⟨0x200100 + 0x1000 * c, 0, 32⟩
abbrev Reg.CARRIER.SRS_CTL.period (c : Nat) : Fld := ⟨0x200100 + 0x1000 * c, 24, 8⟩
abbrev Reg.CARRIER.SRS_CTL.offset (c : Nat) : Fld := ⟨0x200100 + 0x1000 * c, 16, 8⟩
abbrev Reg.CARRIER.SRS_CTL.comb (c : Nat) : Fld := ⟨0x200100 + 0x1000 * c, 14, 2⟩
abbrev Reg.CARRIER.SRS_CTL.sym_mask (c : Nat) : Fld := ⟨0x200100 + 0x1000 * c, 0, 14⟩
/-- `CARRIER[c].SRS_RANGE`, the whole register. -/
abbrev Reg.CARRIER.SRS_RANGE.word (c : Nat) : Fld := ⟨0x200104 + 0x1000 * c, 0, 32⟩
abbrev Reg.CARRIER.SRS_RANGE.comb_off (c : Nat) : Fld := ⟨0x200104 + 0x1000 * c, 29, 3⟩
abbrev Reg.CARRIER.SRS_RANGE.n_prb (c : Nat) : Fld := ⟨0x200104 + 0x1000 * c, 16, 9⟩
abbrev Reg.CARRIER.SRS_RANGE.prb_start (c : Nat) : Fld := ⟨0x200104 + 0x1000 * c, 0, 9⟩
/-- `CARRIER[c].SRS_STATUS`, the whole register. -/
abbrev Reg.CARRIER.SRS_STATUS.word (c : Nat) : Fld := ⟨0x200108 + 0x1000 * c, 0, 32⟩
abbrev Reg.CARRIER.SRS_STATUS.no_area (c : Nat) : Fld := ⟨0x200108 + 0x1000 * c, 7, 1⟩
abbrev Reg.CARRIER.SRS_STATUS.skip_dl (c : Nat) : Fld := ⟨0x200108 + 0x1000 * c, 6, 1⟩
abbrev Reg.CARRIER.SRS_STATUS.held (c : Nat) : Fld := ⟨0x200108 + 0x1000 * c, 4, 2⟩
abbrev Reg.CARRIER.SRS_STATUS.ready (c : Nat) : Fld := ⟨0x200108 + 0x1000 * c, 0, 2⟩
/-- `CARRIER[c].SRS_ADDR`. -/
abbrev Reg.CARRIER.SRS_ADDR.word (c : Nat) : Fld := ⟨0x20010C + 0x1000 * c, 0, 32⟩
/-- `CARRIER[c].SRS_DROP`. -/
abbrev Reg.CARRIER.SRS_DROP.word (c : Nat) : Fld := ⟨0x200110 + 0x1000 * c, 0, 32⟩
/-- `CARRIER[c].PRACH_STATUS`, the whole register. -/
abbrev Reg.CARRIER.PRACH_STATUS.word (c : Nat) : Fld := ⟨0x200140 + 0x1000 * c, 0, 32⟩
abbrev Reg.CARRIER.PRACH_STATUS.last_cause (c : Nat) : Fld := ⟨0x200140 + 0x1000 * c, 28, 4⟩
abbrev Reg.CARRIER.PRACH_STATUS.active (c : Nat) : Fld := ⟨0x200140 + 0x1000 * c, 0, 3⟩
/-- `CARRIER[c].PRACH_DONE`. -/
abbrev Reg.CARRIER.PRACH_DONE.word (c : Nat) : Fld := ⟨0x200144 + 0x1000 * c, 0, 32⟩
/-- `CARRIER[c].PRACH_REFUSED`. -/
abbrev Reg.CARRIER.PRACH_REFUSED.word (c : Nat) : Fld := ⟨0x200148 + 0x1000 * c, 0, 32⟩
/-- `CARRIER[c].UL_SYM`. -/
abbrev Reg.CARRIER.UL_SYM.word (c : Nat) : Fld := ⟨0x200180 + 0x1000 * c, 0, 32⟩
/-- `CARRIER[c].RX_SAT`. -/
abbrev Reg.CARRIER.RX_SAT.word (c : Nat) : Fld := ⟨0x200184 + 0x1000 * c, 0, 32⟩
/-- `CARRIER[c].TX_IFFT_SAT`. -/
abbrev Reg.CARRIER.TX_IFFT_SAT.word (c : Nat) : Fld := ⟨0x200188 + 0x1000 * c, 0, 32⟩
/-- `CARRIER[c].TX_SCALE`, the whole register. -/
abbrev Reg.CARRIER.TX_SCALE.word (c : Nat) : Fld := ⟨0x200800 + 0x1000 * c, 0, 32⟩
abbrev Reg.CARRIER.TX_SCALE.scale (c : Nat) : Fld := ⟨0x200800 + 0x1000 * c, 0, 16⟩
/-- `CARRIER[c].TX_NCO`. -/
abbrev Reg.CARRIER.TX_NCO.word (c : Nat) : Fld := ⟨0x200804 + 0x1000 * c, 0, 32⟩
/-- `CARRIER[c].TX_CHF_CTL`, the whole register. -/
abbrev Reg.CARRIER.TX_CHF_CTL.word (c : Nat) : Fld := ⟨0x200808 + 0x1000 * c, 0, 32⟩
abbrev Reg.CARRIER.TX_CHF_CTL.src (c : Nat) : Fld := ⟨0x200808 + 0x1000 * c, 0, 1⟩
/-- `CARRIER[c].TX_CHF_TAPk`, the whole register. -/
abbrev Reg.CARRIER.TX_CHF_TAP.word (c : Nat) (k : Nat) : Fld := ⟨0x200840 + 0x1000 * c + 0x4 * k, 0, 32⟩
abbrev Reg.CARRIER.TX_CHF_TAP.tap (c : Nat) (k : Nat) : Fld := ⟨0x200840 + 0x1000 * c + 0x4 * k, 0, 18⟩
/-- `CARRIER.TDD_PATk (k - 1)`, the whole register. -/
abbrev Reg.CARRIER.TDD_PAT.word (n : Nat) : Fld := ⟨0x208004 + 0x4 * n, 0, 32⟩
abbrev Reg.CARRIER.TDD_PAT.period (n : Nat) : Fld := ⟨0x208004 + 0x4 * n, 28, 4⟩
abbrev Reg.CARRIER.TDD_PAT.dl_slots (n : Nat) : Fld := ⟨0x208004 + 0x4 * n, 20, 7⟩
abbrev Reg.CARRIER.TDD_PAT.dl_syms (n : Nat) : Fld := ⟨0x208004 + 0x4 * n, 16, 4⟩
abbrev Reg.CARRIER.TDD_PAT.ul_slots (n : Nat) : Fld := ⟨0x208004 + 0x4 * n, 8, 7⟩
abbrev Reg.CARRIER.TDD_PAT.ul_syms (n : Nat) : Fld := ⟨0x208004 + 0x4 * n, 0, 4⟩
/-- `CARRIER.CAP_CTL`, the whole register. -/
abbrev Reg.CARRIER.CAP_CTL.word : Fld := ⟨0x208100, 0, 32⟩
abbrev Reg.CARRIER.CAP_CTL.tap : Fld := ⟨0x208100, 30, 2⟩
abbrev Reg.CARRIER.CAP_CTL.carrier : Fld := ⟨0x208100, 24, 3⟩
abbrev Reg.CARRIER.CAP_CTL.path : Fld := ⟨0x208100, 16, 6⟩
abbrev Reg.CARRIER.CAP_CTL.length : Fld := ⟨0x208100, 4, 12⟩
abbrev Reg.CARRIER.CAP_CTL.cancel : Fld := ⟨0x208100, 1, 1⟩
abbrev Reg.CARRIER.CAP_CTL.arm : Fld := ⟨0x208100, 0, 1⟩
/-- `CARRIER.CAP_TRIG`, the whole register. -/
abbrev Reg.CARRIER.CAP_TRIG.word : Fld := ⟨0x208104, 0, 32⟩
abbrev Reg.CARRIER.CAP_TRIG.immediate : Fld := ⟨0x208104, 31, 1⟩
abbrev Reg.CARRIER.CAP_TRIG.slot : Fld := ⟨0x208104, 8, 7⟩
abbrev Reg.CARRIER.CAP_TRIG.symbol : Fld := ⟨0x208104, 0, 4⟩
/-- `CARRIER.CAP_STATUS`, the whole register. -/
abbrev Reg.CARRIER.CAP_STATUS.word : Fld := ⟨0x208108, 0, 32⟩
abbrev Reg.CARRIER.CAP_STATUS.cause : Fld := ⟨0x208108, 28, 4⟩
abbrev Reg.CARRIER.CAP_STATUS.refused : Fld := ⟨0x208108, 2, 1⟩
abbrev Reg.CARRIER.CAP_STATUS.armed : Fld := ⟨0x208108, 1, 1⟩
abbrev Reg.CARRIER.CAP_STATUS.done : Fld := ⟨0x208108, 0, 1⟩
/-- `CARRIER.CAP_ADDR`. -/
abbrev Reg.CARRIER.CAP_ADDR.word : Fld := ⟨0x20810C, 0, 32⟩
/-- `CARRIER.CAP_SIZE`. -/
abbrev Reg.CARRIER.CAP_SIZE.word : Fld := ⟨0x208110, 0, 32⟩
/-- `BEAM.STATUS`, the whole register. -/
abbrev Reg.BEAM.STATUS.word : Fld := ⟨0x280000, 0, 32⟩
abbrev Reg.BEAM.STATUS.rot_b : Fld := ⟨0x280000, 2, 1⟩
abbrev Reg.BEAM.STATUS.rot_a : Fld := ⟨0x280000, 1, 1⟩
abbrev Reg.BEAM.STATUS.write_lost : Fld := ⟨0x280000, 0, 1⟩
/-- `BEAM.TABLE_BASE`. -/
abbrev Reg.BEAM.TABLE_BASE.word : Fld := ⟨0x280004, 0, 32⟩
/-- `BEAM.VALIDATE`, the whole register. -/
abbrev Reg.BEAM.VALIDATE.word : Fld := ⟨0x280008, 0, 32⟩
abbrev Reg.BEAM.VALIDATE.first : Fld := ⟨0x280008, 16, 15⟩
abbrev Reg.BEAM.VALIDATE.count : Fld := ⟨0x280008, 0, 16⟩
/-- `BEAM.INVALIDATE`, the whole register. -/
abbrev Reg.BEAM.INVALIDATE.word : Fld := ⟨0x28000C, 0, 32⟩
abbrev Reg.BEAM.INVALIDATE.first : Fld := ⟨0x28000C, 16, 15⟩
abbrev Reg.BEAM.INVALIDATE.count : Fld := ⟨0x28000C, 0, 16⟩
/-- `BEAM.RENORM`, the whole register. -/
abbrev Reg.BEAM.RENORM.word : Fld := ⟨0x280010, 0, 32⟩
abbrev Reg.BEAM.RENORM.n_plan : Fld := ⟨0x280010, 24, 8⟩
abbrev Reg.BEAM.RENORM.n_svc : Fld := ⟨0x280010, 16, 8⟩
abbrev Reg.BEAM.RENORM.factor : Fld := ⟨0x280010, 0, 16⟩
/-- `BEAM.XFEED_PHASE`, the whole register. -/
abbrev Reg.BEAM.XFEED_PHASE.word : Fld := ⟨0x280014, 0, 32⟩
abbrev Reg.BEAM.XFEED_PHASE.delta : Fld := ⟨0x280014, 0, 16⟩
/-- `BEAM.INVALID_USE`. -/
abbrev Reg.BEAM.INVALID_USE.word : Fld := ⟨0x280018, 0, 32⟩
/-- `BEAM.WRITE_LOST`. -/
abbrev Reg.BEAM.WRITE_LOST.word : Fld := ⟨0x28001C, 0, 32⟩
/-- `BEAM.SPLIT_GROUP`. -/
abbrev Reg.BEAM.SPLIT_GROUP.word : Fld := ⟨0x280020, 0, 32⟩
/-- `BEAM.UL_SAT`. -/
abbrev Reg.BEAM.UL_SAT.word : Fld := ⟨0x280024, 0, 32⟩
/-- `BEAM.W_SAT`. -/
abbrev Reg.BEAM.W_SAT.word : Fld := ⟨0x280028, 0, 32⟩
/-- `BEAM.OUT_CTLc`, the whole register. -/
abbrev Reg.BEAM.OUT_CTL.word (n : Nat) : Fld := ⟨0x280040 + 0x4 * n, 0, 32⟩
abbrev Reg.BEAM.OUT_CTL.out_exp (n : Nat) : Fld := ⟨0x280040 + 0x4 * n, 0, 7⟩
/-- `BEAM.TX_CORRp`, the whole register. -/
abbrev Reg.BEAM.TX_CORR.word (n : Nat) : Fld := ⟨0x280400 + 0x4 * n, 0, 32⟩
abbrev Reg.BEAM.TX_CORR.im (n : Nat) : Fld := ⟨0x280400 + 0x4 * n, 16, 16⟩
abbrev Reg.BEAM.TX_CORR.re (n : Nat) : Fld := ⟨0x280400 + 0x4 * n, 0, 16⟩
/-- `BEAM.RX_CORRp`, the whole register. -/
abbrev Reg.BEAM.RX_CORR.word (n : Nat) : Fld := ⟨0x280500 + 0x4 * n, 0, 32⟩
abbrev Reg.BEAM.RX_CORR.im (n : Nat) : Fld := ⟨0x280500 + 0x4 * n, 16, 16⟩
abbrev Reg.BEAM.RX_CORR.re (n : Nat) : Fld := ⟨0x280500 + 0x4 * n, 0, 16⟩
/-- `BEAM.VALIDn`. -/
abbrev Reg.BEAM.VALID.word (n : Nat) : Fld := ⟨0x281000 + 0x4 * n, 0, 32⟩
/-- `SOLVER.CTL`, the whole register. -/
abbrev Reg.SOLVER.CTL.word : Fld := ⟨0x288000, 0, 32⟩
abbrev Reg.SOLVER.CTL.rho : Fld := ⟨0x288000, 0, 16⟩
/-- `SOLVER.STATUS`, the whole register. -/
abbrev Reg.SOLVER.STATUS.word : Fld := ⟨0x288004, 0, 32⟩
abbrev Reg.SOLVER.STATUS.running : Fld := ⟨0x288004, 8, 8⟩
abbrev Reg.SOLVER.STATUS.late_map : Fld := ⟨0x288004, 2, 1⟩
abbrev Reg.SOLVER.STATUS.pivot_fail : Fld := ⟨0x288004, 1, 1⟩
abbrev Reg.SOLVER.STATUS.late : Fld := ⟨0x288004, 0, 1⟩
/-- `SOLVER.EPOCH_CTLc`, the whole register. -/
abbrev Reg.SOLVER.EPOCH_CTL.word (n : Nat) : Fld := ⟨0x288020 + 0x4 * n, 0, 32⟩
abbrev Reg.SOLVER.EPOCH_CTL.period (n : Nat) : Fld := ⟨0x288020 + 0x4 * n, 24, 8⟩
abbrev Reg.SOLVER.EPOCH_CTL.lead (n : Nat) : Fld := ⟨0x288020 + 0x4 * n, 0, 16⟩
/-- `SOLVER.EPOCH_TIMEc`, the whole register. -/
abbrev Reg.SOLVER.EPOCH_TIME.word (n : Nat) : Fld := ⟨0x288040 + 0x4 * n, 0, 32⟩
abbrev Reg.SOLVER.EPOCH_TIME.max (n : Nat) : Fld := ⟨0x288040 + 0x4 * n, 16, 16⟩
abbrev Reg.SOLVER.EPOCH_TIME.last (n : Nat) : Fld := ⟨0x288040 + 0x4 * n, 0, 16⟩
/-- `SOLVER.LATE_EPOCHc`. -/
abbrev Reg.SOLVER.LATE_EPOCH.word (n : Nat) : Fld := ⟨0x288060 + 0x4 * n, 0, 32⟩
/-- `SOLVER.PIVOT_FAIL`. -/
abbrev Reg.SOLVER.PIVOT_FAIL.word : Fld := ⟨0x288080, 0, 32⟩
/-- `SOLVER.NO_CHAN`. -/
abbrev Reg.SOLVER.NO_CHAN.word : Fld := ⟨0x288084, 0, 32⟩
/-- `SOLVER.LATE_MAP`. -/
abbrev Reg.SOLVER.LATE_MAP.word : Fld := ⟨0x288088, 0, 32⟩
/-- `SOLVER.BAD_UE`. -/
abbrev Reg.SOLVER.BAD_UE.word : Fld := ⟨0x28808C, 0, 32⟩
/-- `SOLVER.NO_SOUND`. -/
abbrev Reg.SOLVER.NO_SOUND.word : Fld := ⟨0x288090, 0, 32⟩
/-- `SOLVER.SRCu`, the whole register. -/
abbrev Reg.SOLVER.SRC.word (n : Nat) : Fld := ⟨0x289000 + 0x4 * n, 0, 32⟩
abbrev Reg.SOLVER.SRC.carrier (n : Nat) : Fld := ⟨0x289000 + 0x4 * n, 29, 3⟩
abbrev Reg.SOLVER.SRC.symbol (n : Nat) : Fld := ⟨0x289000 + 0x4 * n, 25, 4⟩
abbrev Reg.SOLVER.SRC.comb_off (n : Nat) : Fld := ⟨0x289000 + 0x4 * n, 22, 3⟩
abbrev Reg.SOLVER.SRC.n_cs (n : Nat) : Fld := ⟨0x289000 + 0x4 * n, 18, 4⟩
abbrev Reg.SOLVER.SRC.group (n : Nat) : Fld := ⟨0x289000 + 0x4 * n, 13, 5⟩
abbrev Reg.SOLVER.SRC.seq (n : Nat) : Fld := ⟨0x289000 + 0x4 * n, 12, 1⟩
abbrev Reg.SOLVER.SRC.valid (n : Nat) : Fld := ⟨0x289000 + 0x4 * n, 0, 1⟩
/-- `HALL[h].STATUS`, the whole register. -/
abbrev Reg.HALL.STATUS.word (h : Nat) : Fld := ⟨0x300000 + 0x1000 * h, 0, 32⟩
abbrev Reg.HALL.STATUS.state (h : Nat) : Fld := ⟨0x300000 + 0x1000 * h, 28, 4⟩
abbrev Reg.HALL.STATUS.trap_cause (h : Nat) : Fld := ⟨0x300000 + 0x1000 * h, 24, 4⟩
abbrev Reg.HALL.STATUS.tile (h : Nat) : Fld := ⟨0x300000 + 0x1000 * h, 16, 8⟩
abbrev Reg.HALL.STATUS.bank (h : Nat) : Fld := ⟨0x300000 + 0x1000 * h, 15, 1⟩
abbrev Reg.HALL.STATUS.bitrev (h : Nat) : Fld := ⟨0x300000 + 0x1000 * h, 14, 1⟩
abbrev Reg.HALL.STATUS.dm_write_lost (h : Nat) : Fld := ⟨0x300000 + 0x1000 * h, 13, 1⟩
/-- `HALL[h].PC`, the whole register. -/
abbrev Reg.HALL.PC.word (h : Nat) : Fld := ⟨0x300004 + 0x1000 * h, 0, 32⟩
abbrev Reg.HALL.PC.epc (h : Nat) : Fld := ⟨0x300004 + 0x1000 * h, 16, 12⟩
abbrev Reg.HALL.PC.pc (h : Nat) : Fld := ⟨0x300004 + 0x1000 * h, 0, 12⟩
/-- `HALL[h].FLAGS`, the whole register. -/
abbrev Reg.HALL.FLAGS.word (h : Nat) : Fld := ⟨0x300008 + 0x1000 * h, 0, 32⟩
abbrev Reg.HALL.FLAGS.acc_ovf (h : Nat) : Fld := ⟨0x300008 + 0x1000 * h, 8, 4⟩
abbrev Reg.HALL.FLAGS.circ_wrapped (h : Nat) : Fld := ⟨0x300008 + 0x1000 * h, 4, 4⟩
abbrev Reg.HALL.FLAGS.sat (h : Nat) : Fld := ⟨0x300008 + 0x1000 * h, 0, 1⟩
/-- `HALL[h].EVENTS`, the whole register. -/
abbrev Reg.HALL.EVENTS.word (h : Nat) : Fld := ⟨0x30000C + 0x1000 * h, 0, 32⟩
abbrev Reg.HALL.EVENTS.enabled (h : Nat) : Fld := ⟨0x30000C + 0x1000 * h, 16, 16⟩
abbrev Reg.HALL.EVENTS.pending (h : Nat) : Fld := ⟨0x30000C + 0x1000 * h, 0, 16⟩
/-- `HALL[h].MBOX_IN`. -/
abbrev Reg.HALL.MBOX_IN.word (h : Nat) : Fld := ⟨0x300010 + 0x1000 * h, 0, 32⟩
/-- `HALL[h].MBOX_OUT`. -/
abbrev Reg.HALL.MBOX_OUT.word (h : Nat) : Fld := ⟨0x300014 + 0x1000 * h, 0, 32⟩
/-- `HALL[h].DM_ADDR`, the whole register. -/
abbrev Reg.HALL.DM_ADDR.word (h : Nat) : Fld := ⟨0x300018 + 0x1000 * h, 0, 32⟩
abbrev Reg.HALL.DM_ADDR.addr (h : Nat) : Fld := ⟨0x300018 + 0x1000 * h, 2, 14⟩
/-- `HALL[h].DM_DATA`. -/
abbrev Reg.HALL.DM_DATA.word (h : Nat) : Fld := ⟨0x30001C + 0x1000 * h, 0, 32⟩
/-- `HALL[h].RETIRED_LO`. -/
abbrev Reg.HALL.RETIRED_LO.word (h : Nat) : Fld := ⟨0x300020 + 0x1000 * h, 0, 32⟩
/-- `HALL[h].RETIRED_HI`. -/
abbrev Reg.HALL.RETIRED_HI.word (h : Nat) : Fld := ⟨0x300024 + 0x1000 * h, 0, 32⟩
/-- `HALL[h].ECC_CORR`. -/
abbrev Reg.HALL.ECC_CORR.word (h : Nat) : Fld := ⟨0x300028 + 0x1000 * h, 0, 32⟩
/-- `HALL[h].SUPPRESSED`. -/
abbrev Reg.HALL.SUPPRESSED.word (h : Nat) : Fld := ⟨0x300030 + 0x1000 * h, 0, 32⟩
/-- `HALL[h].CORR_STATUS`, the whole register. -/
abbrev Reg.HALL.CORR_STATUS.word (h : Nat) : Fld := ⟨0x30002C + 0x1000 * h, 0, 32⟩
abbrev Reg.HALL.CORR_STATUS.waiting (h : Nat) : Fld := ⟨0x30002C + 0x1000 * h, 0, 16⟩
/-- `FRONTHAUL.MODE`, the whole register. -/
abbrev Reg.FRONTHAUL.MODE.word : Fld := ⟨0x400000, 0, 32⟩
abbrev Reg.FRONTHAUL.MODE.mtu : Fld := ⟨0x400000, 16, 16⟩
abbrev Reg.FRONTHAUL.MODE.ports : Fld := ⟨0x400000, 0, 2⟩
/-- `FRONTHAUL.EAXC_MAP`, the whole register. -/
abbrev Reg.FRONTHAUL.EAXC_MAP.word : Fld := ⟨0x400004, 0, 32⟩
abbrev Reg.FRONTHAUL.EAXC_MAP.prach_base : Fld := ⟨0x400004, 24, 8⟩
abbrev Reg.FRONTHAUL.EAXC_MAP.du_bits : Fld := ⟨0x400004, 12, 4⟩
abbrev Reg.FRONTHAUL.EAXC_MAP.bs_bits : Fld := ⟨0x400004, 8, 4⟩
abbrev Reg.FRONTHAUL.EAXC_MAP.cc_bits : Fld := ⟨0x400004, 4, 4⟩
abbrev Reg.FRONTHAUL.EAXC_MAP.ru_bits : Fld := ⟨0x400004, 0, 4⟩
/-- `FRONTHAUL.DH_CTL`, the whole register. -/
abbrev Reg.FRONTHAUL.DH_CTL.word : Fld := ⟨0x400010, 0, 32⟩
abbrev Reg.FRONTHAUL.DH_CTL.hold : Fld := ⟨0x400010, 16, 8⟩
abbrev Reg.FRONTHAUL.DH_CTL.margin : Fld := ⟨0x400010, 0, 6⟩
/-- `FRONTHAUL.PTP_CTL`, the whole register. -/
abbrev Reg.FRONTHAUL.PTP_CTL.word : Fld := ⟨0x400014, 0, 32⟩
abbrev Reg.FRONTHAUL.PTP_CTL.port_mask : Fld := ⟨0x400014, 24, 8⟩
abbrev Reg.FRONTHAUL.PTP_CTL.addr : Fld := ⟨0x400014, 16, 1⟩
abbrev Reg.FRONTHAUL.PTP_CTL.domain : Fld := ⟨0x400014, 8, 8⟩
abbrev Reg.FRONTHAUL.PTP_CTL.mode : Fld := ⟨0x400014, 0, 2⟩
/-- `FRONTHAUL.SXM_CTL`, the whole register. -/
abbrev Reg.FRONTHAUL.SXM_CTL.word : Fld := ⟨0x400018, 0, 32⟩
abbrev Reg.FRONTHAUL.SXM_CTL.port_mask : Fld := ⟨0x400018, 24, 8⟩
abbrev Reg.FRONTHAUL.SXM_CTL.udp : Fld := ⟨0x400018, 0, 16⟩
/-- `FRONTHAUL.MAC_LO`. -/
abbrev Reg.FRONTHAUL.MAC_LO.word : Fld := ⟨0x400008, 0, 32⟩
/-- `FRONTHAUL.MAC_HI`, the whole register. -/
abbrev Reg.FRONTHAUL.MAC_HI.word : Fld := ⟨0x40000C, 0, 32⟩
abbrev Reg.FRONTHAUL.MAC_HI.bytes : Fld := ⟨0x40000C, 0, 16⟩
/-- `FRONTHAUL.SXM_VLAN`, the whole register. -/
abbrev Reg.FRONTHAUL.SXM_VLAN.word : Fld := ⟨0x40001C, 0, 32⟩
abbrev Reg.FRONTHAUL.SXM_VLAN.tagged : Fld := ⟨0x40001C, 12, 1⟩
abbrev Reg.FRONTHAUL.SXM_VLAN.vid : Fld := ⟨0x40001C, 0, 12⟩
/-- `FRONTHAUL.IP4_ADDR`. -/
abbrev Reg.FRONTHAUL.IP4_ADDR.word : Fld := ⟨0x400020, 0, 32⟩
/-- `FRONTHAUL.SXM_DROP`. -/
abbrev Reg.FRONTHAUL.SXM_DROP.word : Fld := ⟨0x400024, 0, 32⟩
/-- `FRONTHAUL.IP6_ADDRk`. -/
abbrev Reg.FRONTHAUL.IP6_ADDR.word (n : Nat) : Fld := ⟨0x400030 + 0x4 * n, 0, 32⟩
/-- `FRONTHAUL.PORT_CTLn`, the whole register. -/
abbrev Reg.FRONTHAUL.PORT_CTL.word (n : Nat) : Fld := ⟨0x400100 + 0x40 * n, 0, 32⟩
abbrev Reg.FRONTHAUL.PORT_CTL.local_prio (n : Nat) : Fld := ⟨0x400100 + 0x40 * n, 24, 8⟩
abbrev Reg.FRONTHAUL.PORT_CTL.fom_min (n : Nat) : Fld := ⟨0x400100 + 0x40 * n, 16, 8⟩
abbrev Reg.FRONTHAUL.PORT_CTL.train (n : Nat) : Fld := ⟨0x400100 + 0x40 * n, 3, 1⟩
abbrev Reg.FRONTHAUL.PORT_CTL.half (n : Nat) : Fld := ⟨0x400100 + 0x40 * n, 2, 1⟩
abbrev Reg.FRONTHAUL.PORT_CTL.test (n : Nat) : Fld := ⟨0x400100 + 0x40 * n, 1, 1⟩
abbrev Reg.FRONTHAUL.PORT_CTL.enable (n : Nat) : Fld := ⟨0x400100 + 0x40 * n, 0, 1⟩
/-- `FRONTHAUL.PORT_STATUSn`, the whole register. -/
abbrev Reg.FRONTHAUL.PORT_STATUS.word (n : Nat) : Fld := ⟨0x400104 + 0x40 * n, 0, 32⟩
abbrev Reg.FRONTHAUL.PORT_STATUS.state (n : Nat) : Fld := ⟨0x400104 + 0x40 * n, 28, 4⟩
abbrev Reg.FRONTHAUL.PORT_STATUS.fault_cause (n : Nat) : Fld := ⟨0x400104 + 0x40 * n, 24, 4⟩
abbrev Reg.FRONTHAUL.PORT_STATUS.link_faults (n : Nat) : Fld := ⟨0x400104 + 0x40 * n, 8, 8⟩
abbrev Reg.FRONTHAUL.PORT_STATUS.train_fail (n : Nat) : Fld := ⟨0x400104 + 0x40 * n, 0, 8⟩
/-- `FRONTHAUL.PORT_ASYMn`. -/
abbrev Reg.FRONTHAUL.PORT_ASYM.word (n : Nat) : Fld := ⟨0x400108 + 0x40 * n, 0, 32⟩
/-- `FRONTHAUL.PORTn_DROP_FCS`. -/
abbrev Reg.FRONTHAUL.PORT_DROP_FCS.word (n : Nat) : Fld := ⟨0x400110 + 0x40 * n, 0, 32⟩
/-- `FRONTHAUL.PORTn_DROP_FORM`. -/
abbrev Reg.FRONTHAUL.PORT_DROP_FORM.word (n : Nat) : Fld := ⟨0x400114 + 0x40 * n, 0, 32⟩
/-- `FRONTHAUL.PORTn_DROP_PARTNER`. -/
abbrev Reg.FRONTHAUL.PORT_DROP_PARTNER.word (n : Nat) : Fld := ⟨0x400118 + 0x40 * n, 0, 32⟩
/-- `FRONTHAUL.PORTn_DROP_OWNER`. -/
abbrev Reg.FRONTHAUL.PORT_DROP_OWNER.word (n : Nat) : Fld := ⟨0x40011C + 0x40 * n, 0, 32⟩
/-- `FRONTHAUL.PORTn_FEC_CORR_LO`. -/
abbrev Reg.FRONTHAUL.PORT_FEC_CORR_LO.word (n : Nat) : Fld := ⟨0x400120 + 0x40 * n, 0, 32⟩
/-- `FRONTHAUL.PORTn_FEC_CORR_HI`. -/
abbrev Reg.FRONTHAUL.PORT_FEC_CORR_HI.word (n : Nat) : Fld := ⟨0x400124 + 0x40 * n, 0, 32⟩
/-- `FRONTHAUL.PORTn_FEC_UNCORR`. -/
abbrev Reg.FRONTHAUL.PORT_FEC_UNCORR.word (n : Nat) : Fld := ⟨0x400128 + 0x40 * n, 0, 32⟩
/-- `FRONTHAUL.LANE_TXn`, the whole register. -/
abbrev Reg.FRONTHAUL.LANE_TX.word (n : Nat) : Fld := ⟨0x400400 + 0x20 * n, 0, 32⟩
abbrev Reg.FRONTHAUL.LANE_TX.pre (n : Nat) : Fld := ⟨0x400400 + 0x20 * n, 16, 5⟩
abbrev Reg.FRONTHAUL.LANE_TX.main (n : Nat) : Fld := ⟨0x400400 + 0x20 * n, 8, 6⟩
abbrev Reg.FRONTHAUL.LANE_TX.post (n : Nat) : Fld := ⟨0x400400 + 0x20 * n, 0, 5⟩
/-- `FRONTHAUL.LANE_RXn`, the whole register. -/
abbrev Reg.FRONTHAUL.LANE_RX.word (n : Nat) : Fld := ⟨0x400404 + 0x20 * n, 0, 32⟩
abbrev Reg.FRONTHAUL.LANE_RX.fom (n : Nat) : Fld := ⟨0x400404 + 0x20 * n, 24, 8⟩
abbrev Reg.FRONTHAUL.LANE_RX.fom_committed (n : Nat) : Fld := ⟨0x400404 + 0x20 * n, 16, 8⟩
abbrev Reg.FRONTHAUL.LANE_RX.rollback (n : Nat) : Fld := ⟨0x400404 + 0x20 * n, 8, 8⟩
abbrev Reg.FRONTHAUL.LANE_RX.freeze (n : Nat) : Fld := ⟨0x400404 + 0x20 * n, 0, 1⟩
/-- `FRONTHAUL.LANE_TESTn`, the whole register. -/
abbrev Reg.FRONTHAUL.LANE_TEST.word (n : Nat) : Fld := ⟨0x400408 + 0x20 * n, 0, 32⟩
abbrev Reg.FRONTHAUL.LANE_TEST.pattern (n : Nat) : Fld := ⟨0x400408 + 0x20 * n, 28, 4⟩
abbrev Reg.FRONTHAUL.LANE_TEST.loopback (n : Nat) : Fld := ⟨0x400408 + 0x20 * n, 26, 2⟩
abbrev Reg.FRONTHAUL.LANE_TEST.inj_rate (n : Nat) : Fld := ⟨0x400408 + 0x20 * n, 16, 5⟩
abbrev Reg.FRONTHAUL.LANE_TEST.nrz (n : Nat) : Fld := ⟨0x400408 + 0x20 * n, 8, 1⟩
abbrev Reg.FRONTHAUL.LANE_TEST.refused (n : Nat) : Fld := ⟨0x400408 + 0x20 * n, 4, 1⟩
abbrev Reg.FRONTHAUL.LANE_TEST.inj_one (n : Nat) : Fld := ⟨0x400408 + 0x20 * n, 3, 1⟩
abbrev Reg.FRONTHAUL.LANE_TEST.chk_lock (n : Nat) : Fld := ⟨0x400408 + 0x20 * n, 1, 1⟩
abbrev Reg.FRONTHAUL.LANE_TEST.chk_en (n : Nat) : Fld := ⟨0x400408 + 0x20 * n, 0, 1⟩
/-- `FRONTHAUL.LANE_ERR_LOn`. -/
abbrev Reg.FRONTHAUL.LANE_ERR_LO.word (n : Nat) : Fld := ⟨0x400410 + 0x20 * n, 0, 32⟩
/-- `FRONTHAUL.LANE_ERR_HIn`. -/
abbrev Reg.FRONTHAUL.LANE_ERR_HI.word (n : Nat) : Fld := ⟨0x400414 + 0x20 * n, 0, 32⟩
/-- `FRONTHAUL.LANE_BITS_LOn`. -/
abbrev Reg.FRONTHAUL.LANE_BITS_LO.word (n : Nat) : Fld := ⟨0x400418 + 0x20 * n, 0, 32⟩
/-- `FRONTHAUL.LANE_BITS_HIn`. -/
abbrev Reg.FRONTHAUL.LANE_BITS_HI.word (n : Nat) : Fld := ⟨0x40041C + 0x20 * n, 0, 32⟩
/-- `FRONTHAUL.PT_MAC_LOn`. -/
abbrev Reg.FRONTHAUL.PT_MAC_LO.word (n : Nat) : Fld := ⟨0x401000 + 0x20 * n, 0, 32⟩
/-- `FRONTHAUL.PT_MAC_HIn`, the whole register. -/
abbrev Reg.FRONTHAUL.PT_MAC_HI.word (n : Nat) : Fld := ⟨0x401004 + 0x20 * n, 0, 32⟩
abbrev Reg.FRONTHAUL.PT_MAC_HI.tagged (n : Nat) : Fld := ⟨0x401004 + 0x20 * n, 28, 1⟩
abbrev Reg.FRONTHAUL.PT_MAC_HI.vid (n : Nat) : Fld := ⟨0x401004 + 0x20 * n, 16, 12⟩
abbrev Reg.FRONTHAUL.PT_MAC_HI.bytes (n : Nat) : Fld := ⟨0x401004 + 0x20 * n, 0, 16⟩
/-- `FRONTHAUL.PT_EAXCn`, the whole register. -/
abbrev Reg.FRONTHAUL.PT_EAXC.word (n : Nat) : Fld := ⟨0x401008 + 0x20 * n, 0, 32⟩
abbrev Reg.FRONTHAUL.PT_EAXC.last (n : Nat) : Fld := ⟨0x401008 + 0x20 * n, 16, 16⟩
abbrev Reg.FRONTHAUL.PT_EAXC.first (n : Nat) : Fld := ⟨0x401008 + 0x20 * n, 0, 16⟩
/-- `FRONTHAUL.PT_CTLn`, the whole register. -/
abbrev Reg.FRONTHAUL.PT_CTL.word (n : Nat) : Fld := ⟨0x40100C + 0x20 * n, 0, 32⟩
abbrev Reg.FRONTHAUL.PT_CTL.confirm (n : Nat) : Fld := ⟨0x40100C + 0x20 * n, 30, 1⟩
abbrev Reg.FRONTHAUL.PT_CTL.alt (n : Nat) : Fld := ⟨0x40100C + 0x20 * n, 8, 8⟩
abbrev Reg.FRONTHAUL.PT_CTL.home (n : Nat) : Fld := ⟨0x40100C + 0x20 * n, 1, 3⟩
abbrev Reg.FRONTHAUL.PT_CTL.valid (n : Nat) : Fld := ⟨0x40100C + 0x20 * n, 0, 1⟩
/-- `FRONTHAUL.PT_STATUSn`, the whole register. -/
abbrev Reg.FRONTHAUL.PT_STATUS.word (n : Nat) : Fld := ⟨0x401010 + 0x20 * n, 0, 32⟩
abbrev Reg.FRONTHAUL.PT_STATUS.state (n : Nat) : Fld := ⟨0x401010 + 0x20 * n, 28, 4⟩
abbrev Reg.FRONTHAUL.PT_STATUS.unreachable (n : Nat) : Fld := ⟨0x401010 + 0x20 * n, 27, 1⟩
abbrev Reg.FRONTHAUL.PT_STATUS.port (n : Nat) : Fld := ⟨0x401010 + 0x20 * n, 24, 3⟩
abbrev Reg.FRONTHAUL.PT_STATUS.last_cause (n : Nat) : Fld := ⟨0x401010 + 0x20 * n, 20, 4⟩
abbrev Reg.FRONTHAUL.PT_STATUS.lease_left (n : Nat) : Fld := ⟨0x401010 + 0x20 * n, 0, 16⟩
/-- `FRONTHAUL.PCNTn_i`. -/
abbrev Reg.FRONTHAUL.PCNT.word (n : Nat) (k : Nat) : Fld := ⟨0x404000 + 0x40 * n + 0x4 * k, 0, 32⟩
/-- `STAIR.CTL`, the whole register. -/
abbrev Reg.STAIR.CTL.word : Fld := ⟨0x480000, 0, 32⟩
abbrev Reg.STAIR.CTL.history : Fld := ⟨0x480000, 8, 8⟩
abbrev Reg.STAIR.CTL.wake_fwd : Fld := ⟨0x480000, 0, 1⟩
/-- `STAIR.STATUS`, the whole register. -/
abbrev Reg.STAIR.STATUS.word : Fld := ⟨0x480004, 0, 32⟩
abbrev Reg.STAIR.STATUS.tree : Fld := ⟨0x480004, 28, 4⟩
abbrev Reg.STAIR.STATUS.depth : Fld := ⟨0x480004, 24, 4⟩
abbrev Reg.STAIR.STATUS.role : Fld := ⟨0x480004, 22, 2⟩
abbrev Reg.STAIR.STATUS.has_parent : Fld := ⟨0x480004, 21, 1⟩
abbrev Reg.STAIR.STATUS.parent : Fld := ⟨0x480004, 19, 2⟩
abbrev Reg.STAIR.STATUS.ptp_ignored : Fld := ⟨0x480004, 18, 1⟩
abbrev Reg.STAIR.STATUS.landing : Fld := ⟨0x480004, 0, 9⟩
/-- `STAIR.TREE`, the whole register. -/
abbrev Reg.STAIR.TREE.word : Fld := ⟨0x480008, 0, 32⟩
abbrev Reg.STAIR.TREE.formed_path : Fld := ⟨0x480008, 24, 8⟩
abbrev Reg.STAIR.TREE.current_path : Fld := ⟨0x480008, 16, 8⟩
abbrev Reg.STAIR.TREE.addition : Fld := ⟨0x480008, 0, 16⟩
/-- `STAIR.TIME_CTL`, the whole register. -/
abbrev Reg.STAIR.TIME_CTL.word : Fld := ⟨0x480010, 0, 32⟩
abbrev Reg.STAIR.TIME_CTL.filter : Fld := ⟨0x480010, 8, 8⟩
abbrev Reg.STAIR.TIME_CTL.period : Fld := ⟨0x480010, 0, 8⟩
/-- `STAIR.ARRAY_TAG`. -/
abbrev Reg.STAIR.ARRAY_TAG.word : Fld := ⟨0x48000C, 0, 32⟩
/-- `STAIR.TIME_ERR`. -/
abbrev Reg.STAIR.TIME_ERR.word : Fld := ⟨0x480014, 0, 32⟩
/-- `STAIR.LANDINGS`, the whole register. -/
abbrev Reg.STAIR.LANDINGS.word : Fld := ⟨0x480018, 0, 32⟩
abbrev Reg.STAIR.LANDINGS.count : Fld := ⟨0x480018, 0, 10⟩
/-- `STAIR.SUPPL_USED`. -/
abbrev Reg.STAIR.SUPPL_USED.word : Fld := ⟨0x480020, 0, 32⟩
/-- `STAIR.SUPPL_DROP`. -/
abbrev Reg.STAIR.SUPPL_DROP.word : Fld := ⟨0x480024, 0, 32⟩
/-- `STAIR.MISSING_SYM`. -/
abbrev Reg.STAIR.MISSING_SYM.word : Fld := ⟨0x480028, 0, 32⟩
/-- `STAIR.REPARENTS`. -/
abbrev Reg.STAIR.REPARENTS.word : Fld := ⟨0x48002C, 0, 32⟩
/-- `STAIR.MASKk`, the whole register. -/
abbrev Reg.STAIR.MASK.word (n : Nat) : Fld := ⟨0x480040 + 0x4 * n, 0, 32⟩
abbrev Reg.STAIR.MASK.freq (n : Nat) : Fld := ⟨0x480040 + 0x4 * n, 16, 16⟩
abbrev Reg.STAIR.MASK.limit (n : Nat) : Fld := ⟨0x480040 + 0x4 * n, 0, 16⟩
/-- `STAIR.PORT_CTLn`, the whole register. -/
abbrev Reg.STAIR.PORT_CTL.word (n : Nat) : Fld := ⟨0x480100 + 0x40 * n, 0, 32⟩
abbrev Reg.STAIR.PORT_CTL.fom_min (n : Nat) : Fld := ⟨0x480100 + 0x40 * n, 24, 8⟩
abbrev Reg.STAIR.PORT_CTL.min4 (n : Nat) : Fld := ⟨0x480100 + 0x40 * n, 16, 1⟩
abbrev Reg.STAIR.PORT_CTL.wake (n : Nat) : Fld := ⟨0x480100 + 0x40 * n, 3, 1⟩
abbrev Reg.STAIR.PORT_CTL.split (n : Nat) : Fld := ⟨0x480100 + 0x40 * n, 2, 1⟩
abbrev Reg.STAIR.PORT_CTL.retrain (n : Nat) : Fld := ⟨0x480100 + 0x40 * n, 1, 1⟩
abbrev Reg.STAIR.PORT_CTL.enable (n : Nat) : Fld := ⟨0x480100 + 0x40 * n, 0, 1⟩
/-- `STAIR.PORT_STATUSn`, the whole register. -/
abbrev Reg.STAIR.PORT_STATUS.word (n : Nat) : Fld := ⟨0x480104 + 0x40 * n, 0, 32⟩
abbrev Reg.STAIR.PORT_STATUS.state (n : Nat) : Fld := ⟨0x480104 + 0x40 * n, 28, 4⟩
abbrev Reg.STAIR.PORT_STATUS.cause (n : Nat) : Fld := ⟨0x480104 + 0x40 * n, 24, 4⟩
abbrev Reg.STAIR.PORT_STATUS.lanes (n : Nat) : Fld := ⟨0x480104 + 0x40 * n, 20, 4⟩
abbrev Reg.STAIR.PORT_STATUS.use (n : Nat) : Fld := ⟨0x480104 + 0x40 * n, 18, 2⟩
abbrev Reg.STAIR.PORT_STATUS.flight_faults (n : Nat) : Fld := ⟨0x480104 + 0x40 * n, 8, 8⟩
abbrev Reg.STAIR.PORT_STATUS.train_fail (n : Nat) : Fld := ⟨0x480104 + 0x40 * n, 0, 8⟩
/-- `STAIR.PORT_PEERn`, the whole register. -/
abbrev Reg.STAIR.PORT_PEER.word (n : Nat) : Fld := ⟨0x480108 + 0x40 * n, 0, 32⟩
abbrev Reg.STAIR.PORT_PEER.valid (n : Nat) : Fld := ⟨0x480108 + 0x40 * n, 31, 1⟩
abbrev Reg.STAIR.PORT_PEER.depth (n : Nat) : Fld := ⟨0x480108 + 0x40 * n, 24, 4⟩
abbrev Reg.STAIR.PORT_PEER.role (n : Nat) : Fld := ⟨0x480108 + 0x40 * n, 22, 2⟩
abbrev Reg.STAIR.PORT_PEER.port (n : Nat) : Fld := ⟨0x480108 + 0x40 * n, 20, 2⟩
abbrev Reg.STAIR.PORT_PEER.tree (n : Nat) : Fld := ⟨0x480108 + 0x40 * n, 17, 3⟩
abbrev Reg.STAIR.PORT_PEER.landing (n : Nat) : Fld := ⟨0x480108 + 0x40 * n, 0, 9⟩
/-- `STAIR.PORT_ASYMn`. -/
abbrev Reg.STAIR.PORT_ASYM.word (n : Nat) : Fld := ⟨0x480110 + 0x40 * n, 0, 32⟩
/-- `STAIR.PORT_DELAYn`. -/
abbrev Reg.STAIR.PORT_DELAY.word (n : Nat) : Fld := ⟨0x48010C + 0x40 * n, 0, 32⟩
/-- `STAIR.PORT_RESENTn`. -/
abbrev Reg.STAIR.PORT_RESENT.word (n : Nat) : Fld := ⟨0x480114 + 0x40 * n, 0, 32⟩
/-- `STAIR.PORT_DUPn`. -/
abbrev Reg.STAIR.PORT_DUP.word (n : Nat) : Fld := ⟨0x480118 + 0x40 * n, 0, 32⟩
/-- `STAIR.PORT_FEC_CORR_LOn`. -/
abbrev Reg.STAIR.PORT_FEC_CORR_LO.word (n : Nat) : Fld := ⟨0x480120 + 0x40 * n, 0, 32⟩
/-- `STAIR.PORT_FEC_CORR_HIn`. -/
abbrev Reg.STAIR.PORT_FEC_CORR_HI.word (n : Nat) : Fld := ⟨0x480124 + 0x40 * n, 0, 32⟩
/-- `STAIR.PORT_FEC_UNCORRn`. -/
abbrev Reg.STAIR.PORT_FEC_UNCORR.word (n : Nat) : Fld := ⟨0x480128 + 0x40 * n, 0, 32⟩
/-- `STAIR.LANE_TXFi`, the whole register. -/
abbrev Reg.STAIR.LANE_TXF.word (n : Nat) : Fld := ⟨0x480400 + 0x20 * n, 0, 32⟩
abbrev Reg.STAIR.LANE_TXF.pre2 (n : Nat) : Fld := ⟨0x480400 + 0x20 * n, 24, 6⟩
abbrev Reg.STAIR.LANE_TXF.pre1 (n : Nat) : Fld := ⟨0x480400 + 0x20 * n, 18, 6⟩
abbrev Reg.STAIR.LANE_TXF.main (n : Nat) : Fld := ⟨0x480400 + 0x20 * n, 12, 6⟩
abbrev Reg.STAIR.LANE_TXF.post1 (n : Nat) : Fld := ⟨0x480400 + 0x20 * n, 6, 6⟩
abbrev Reg.STAIR.LANE_TXF.post2 (n : Nat) : Fld := ⟨0x480400 + 0x20 * n, 0, 6⟩
/-- `STAIR.LANE_ADAPTi`, the whole register. -/
abbrev Reg.STAIR.LANE_ADAPT.word (n : Nat) : Fld := ⟨0x480404 + 0x20 * n, 0, 32⟩
abbrev Reg.STAIR.LANE_ADAPT.fom (n : Nat) : Fld := ⟨0x480404 + 0x20 * n, 24, 8⟩
abbrev Reg.STAIR.LANE_ADAPT.fom_committed (n : Nat) : Fld := ⟨0x480404 + 0x20 * n, 16, 8⟩
abbrev Reg.STAIR.LANE_ADAPT.rollback (n : Nat) : Fld := ⟨0x480404 + 0x20 * n, 8, 8⟩
abbrev Reg.STAIR.LANE_ADAPT.idle (n : Nat) : Fld := ⟨0x480404 + 0x20 * n, 1, 1⟩
abbrev Reg.STAIR.LANE_ADAPT.freeze (n : Nat) : Fld := ⟨0x480404 + 0x20 * n, 0, 1⟩
/-- `STAIR.LANE_STATUSi`, the whole register. -/
abbrev Reg.STAIR.LANE_STATUS.word (n : Nat) : Fld := ⟨0x480408 + 0x20 * n, 0, 32⟩
abbrev Reg.STAIR.LANE_STATUS.state (n : Nat) : Fld := ⟨0x480408 + 0x20 * n, 28, 4⟩
abbrev Reg.STAIR.LANE_STATUS.cause (n : Nat) : Fld := ⟨0x480408 + 0x20 * n, 24, 4⟩
abbrev Reg.STAIR.LANE_STATUS.mask_fail (n : Nat) : Fld := ⟨0x480408 + 0x20 * n, 16, 1⟩
abbrev Reg.STAIR.LANE_STATUS.faults (n : Nat) : Fld := ⟨0x480408 + 0x20 * n, 8, 8⟩
/-- `OTA.CTL`, the whole register. -/
abbrev Reg.OTA.CTL.word : Fld := ⟨0x500000, 0, 32⟩
abbrev Reg.OTA.CTL.temp_delta : Fld := ⟨0x500000, 24, 8⟩
abbrev Reg.OTA.CTL.interval : Fld := ⟨0x500000, 16, 8⟩
abbrev Reg.OTA.CTL.level : Fld := ⟨0x500000, 10, 6⟩
abbrev Reg.OTA.CTL.reuse : Fld := ⟨0x500000, 8, 2⟩
abbrev Reg.OTA.CTL.carrier : Fld := ⟨0x500000, 4, 3⟩
abbrev Reg.OTA.CTL.mode : Fld := ⟨0x500000, 0, 2⟩
/-- `OTA.DET_CTL`, the whole register. -/
abbrev Reg.OTA.DET_CTL.word : Fld := ⟨0x500004, 0, 32⟩
abbrev Reg.OTA.DET_CTL.path1 : Fld := ⟨0x500004, 24, 6⟩
abbrev Reg.OTA.DET_CTL.path0 : Fld := ⟨0x500004, 16, 6⟩
abbrev Reg.OTA.DET_CTL.thresh : Fld := ⟨0x500004, 0, 8⟩
/-- `OTA.CMD`, the whole register. -/
abbrev Reg.OTA.CMD.word : Fld := ⟨0x500008, 0, 32⟩
abbrev Reg.OTA.CMD.discard : Fld := ⟨0x500008, 1, 1⟩
abbrev Reg.OTA.CMD.start : Fld := ⟨0x500008, 0, 1⟩
/-- `OTA.STATUS`, the whole register. -/
abbrev Reg.OTA.STATUS.word : Fld := ⟨0x50000C, 0, 32⟩
abbrev Reg.OTA.STATUS.state : Fld := ⟨0x50000C, 28, 4⟩
abbrev Reg.OTA.STATUS.cause : Fld := ⟨0x50000C, 24, 4⟩
abbrev Reg.OTA.STATUS.last_discard : Fld := ⟨0x50000C, 20, 4⟩
abbrev Reg.OTA.STATUS.unreached : Fld := ⟨0x50000C, 11, 1⟩
abbrev Reg.OTA.STATUS.stale : Fld := ⟨0x50000C, 10, 1⟩
abbrev Reg.OTA.STATUS.staged : Fld := ⟨0x50000C, 9, 1⟩
abbrev Reg.OTA.STATUS.loop_fail : Fld := ⟨0x50000C, 8, 1⟩
abbrev Reg.OTA.STATUS.done : Fld := ⟨0x50000C, 0, 1⟩
/-- `OTA.PSI`, the whole register. -/
abbrev Reg.OTA.PSI.word : Fld := ⟨0x500010, 0, 32⟩
abbrev Reg.OTA.PSI.resid : Fld := ⟨0x500010, 16, 16⟩
abbrev Reg.OTA.PSI.total : Fld := ⟨0x500010, 0, 16⟩
/-- `OTA.BEAM`, the whole register. -/
abbrev Reg.OTA.BEAM.word : Fld := ⟨0x500014, 0, 32⟩
abbrev Reg.OTA.BEAM.entry : Fld := ⟨0x500014, 0, 15⟩
/-- `OTA.ROUND`, the whole register. -/
abbrev Reg.OTA.ROUND.word : Fld := ⟨0x500018, 0, 32⟩
abbrev Reg.OTA.ROUND.windows : Fld := ⟨0x500018, 16, 16⟩
abbrev Reg.OTA.ROUND.number : Fld := ⟨0x500018, 0, 16⟩
/-- `OTA.FALSE_DETECT`. -/
abbrev Reg.OTA.FALSE_DETECT.word : Fld := ⟨0x50001C, 0, 32⟩
/-- `OTA.PREEMPTED`. -/
abbrev Reg.OTA.PREEMPTED.word : Fld := ⟨0x500020, 0, 32⟩
/-- `OTA.DISCARD`. -/
abbrev Reg.OTA.DISCARD.word : Fld := ⟨0x500024, 0, 32⟩
/-- `OTA.CAPTURES`. -/
abbrev Reg.OTA.CAPTURES.word : Fld := ⟨0x500028, 0, 32⟩
/-- `OTA.STAGED_ADDR`. -/
abbrev Reg.OTA.STAGED_ADDR.word : Fld := ⟨0x50002C, 0, 32⟩
/-- `OTA.STATIC_TXp`, the whole register. -/
abbrev Reg.OTA.STATIC_TX.word (n : Nat) : Fld := ⟨0x500100 + 0x4 * n, 0, 32⟩
abbrev Reg.OTA.STATIC_TX.im (n : Nat) : Fld := ⟨0x500100 + 0x4 * n, 16, 16⟩
abbrev Reg.OTA.STATIC_TX.re (n : Nat) : Fld := ⟨0x500100 + 0x4 * n, 0, 16⟩
/-- `OTA.STATIC_RXp`, the whole register. -/
abbrev Reg.OTA.STATIC_RX.word (n : Nat) : Fld := ⟨0x500200 + 0x4 * n, 0, 32⟩
abbrev Reg.OTA.STATIC_RX.im (n : Nat) : Fld := ⟨0x500200 + 0x4 * n, 16, 16⟩
abbrev Reg.OTA.STATIC_RX.re (n : Nat) : Fld := ⟨0x500200 + 0x4 * n, 0, 16⟩

end Sys2Proof.Machine
end

