-- ==== Sys2Proof/Machine/Cells.lean ====
section
/-!
DEFINITION. The two stores in canonical form: byte memories (R16, R74, R696) and the register file (R694 to R697). Each is a list
in strictly rising address order that lists no entry equal to what an unlisted address reads as: 0 for a byte, the register's
reset value for a register.
-/

namespace Sys2Proof.Machine

/-- A list without the entries of one key. -/
def dropCell {α : Type} (k : Nat) (l : List (Nat × α)) : List (Nat × α) := l.filter fun e => e.1 != k

/-- Insert, replace or remove the entry of one key in a list sorted by key; `d` is the value the key reads as when unlisted. -/
def insertCell {α : Type} [DecidableEq α] (d : α) (k : Nat) (v : α) : List (Nat × α) → List (Nat × α)
  | [] => if v = d then [] else [(k, v)]
  | (a, x) :: rest =>
    if k < a then (if v = d then dropCell k ((a, x) :: rest) else (k, v) :: (a, x) :: rest)
    else if k = a then (if v = d then dropCell k rest else (k, v) :: rest)
    else (a, x) :: insertCell d k v rest

/-- The value of a key in a list, or none where it is unlisted. -/
def findCell {α : Type} (k : Nat) : List (Nat × α) → Option α
  | [] => none
  | (a, x) :: rest => if a = k then some x else findCell k rest

/-- Strictly rising keys, every one above `lo` if given. -/
def rising {α : Type} : List (Nat × α) → Bool
  | [] => true
  | [_] => true
  | (a, _) :: (b, y) :: rest => a < b && rising ((b, y) :: rest)

/-- What an unlisted byte of a memory reads as: 0 (DESIGN CHOICE, log entry 3). -/
def memDefault : Byte := 0

/-- The byte at an address of a memory. -/
def Memory.read (m : List Host.Cell) (a : Nat) : Byte := (findCell a m).getD memDefault

/-- A memory with one byte written. -/
def Memory.write (m : List Host.Cell) (a : Nat) (b : Byte) : List Host.Cell := insertCell memDefault a b m

/-- A memory with consecutive bytes written from an address. -/
def Memory.writeBytes (m : List Host.Cell) (a : Nat) : List Byte → List Host.Cell
  | [] => m
  | b :: bs => Memory.writeBytes (Memory.write m a b) (a + 1) bs

/-- `n` consecutive bytes of a memory. -/
def Memory.readBytes (m : List Host.Cell) (a : Nat) : Nat → List Byte
  | 0 => []
  | n + 1 => Memory.read m a :: Memory.readBytes m (a + 1) n

/-- The canonical form of a memory: strictly rising addresses, no entry that reads as unlisted. -/
def Memory.wf (m : List Host.Cell) : Bool := rising m && m.all fun c => c.2 != memDefault

/-- A memory without the bytes of an address range. -/
def Memory.clear (m : List Host.Cell) (a n : Nat) : List Host.Cell := m.filter fun c => c.1 < a || a + n ≤ c.1

/-- The word of the register file at an address: the stored word, or the reset value (R697). -/
def RegFile.read (r : List (Nat × Word)) (a : Nat) : Word := (findCell a r).getD (resetWordAt a)

/-- The register file with one word stored. -/
def RegFile.write (r : List (Nat × Word)) (a : Nat) (v : Word) : List (Nat × Word) := insertCell (resetWordAt a) a v r

/-- The canonical form of the register file. -/
def RegFile.wf (r : List (Nat × Word)) : Bool := rising r && r.all fun c => c.2 != resetWordAt c.1

end Sys2Proof.Machine
end

