-- ==== Sys2Proof/Machine/State.lean ====
section
/-!
DEFINITION. The state of the block: every register by address in `regs` (R694), every store and every piece of internal state the
spec gives the part, as plain data, and the queue of waiting commands.
-/

namespace Sys2Proof.Machine

open Sys2Proof

/-! ### Host channels, sessions, keep and security (R10, R13, R503, R519, R663, R677, R684) -/

/-- What the part holds for one host channel: the holding register (R10), a pending high half (R13), its banked registers (R698). -/
structure HostChan where
  /-- Tag and value of the holding register. -/
  hold : Option (Nat × Word)
  unpaired : Bool
  pendingHigh : Option Word
  /-- HOST.NOTIFY_MASK. -/
  notifyMask : Nat
  /-- TXN.BIND. -/
  bound : Bool
  bindSlot : Nat
  /-- TXN.CH_STATUS. -/
  result : Nat
  slot : Nat
  busy : Bool
  limit : Bool
  closed : Bool
  rwsLost : Bool
  done : Bool
deriving DecidableEq, Repr, Inhabited

/-- A channel's copies at reset (R698). -/
def HostChan.reset : HostChan where
  hold := none
  unpaired := false
  pendingHigh := none
  notifyMask := 0
  bound := false
  bindSlot := 0
  result := 0
  slot := 0
  busy := false
  limit := false
  closed := false
  rwsLost := false
  done := false

/-- An open SXM session (R663 to R668). -/
structure Session where
  keySlot : Nat
  src : Source
  /-- The session key K_s. -/
  ks : List Byte
  /-- The seq of the last accepted REQUEST, 0 for none. -/
  lastSeq : Nat
  /-- The stored RESPONSE. -/
  response : List Byte
  /-- When its last REQUEST was accepted, or its WELCOME sent. -/
  lastAccept : Nat
  notifySeq : Nat
  lastNotify : Option Nat
  notifyDue : Bool
deriving DecidableEq, Repr, Inhabited

/-- A programmed page of the snapshot area (R677): physical page, logical page or 0xFFFF, update sequence, commit flag, data. -/
structure SnapPage where
  phys : Nat
  logical : Nat
  seq : Nat
  commit : Bool
  data : List Byte
deriving DecidableEq, Repr, Inhabited

/-- One record of the fault log (R544), field by field. -/
structure LogRecord where
  seq : Nat
  time : Nat
  kind : Nat
  cls : Nat
  unit : Nat
  inst : Nat
  cause : Nat
  action : Nat
  spare : Nat
  missed : Nat
  degraded : Nat
  detail : Nat
  tenths : Nat
  carriers : Nat
deriving DecidableEq, Repr, Inhabited

/-- The slot record of the keep (R86). -/
structure SlotRecord where
  preferred : Nat
  trial : Bool
  trialStarted : Bool
  floor : Nat
deriving DecidableEq, Repr, Inhabited

/-- The commands of the keep (R681). -/
inductive KeepCmd where
  | read | program | begin | commit | abortUpdate | eraseSlot | copy
deriving DecidableEq, Repr

/-- A host command in progress (R681): its operands and the page buffer as they were at its acceptance. -/
structure KeepJob where
  cmd : KeepCmd
  area : Nat
  page : Nat
  len : Nat
  data : List Byte
deriving DecidableEq, Repr

/-- The keep (R677 to R683): its content lasts through resets. -/
structure Keep where
  /-- Programmed raw pages of the image slots: 6144 × slot + page, 256 bytes. -/
  raw : List (Nat × List Byte)
  slotRec : SlotRecord
  bootCount : Nat
  snap : List SnapPage
  /-- Highest update sequence ever opened. -/
  snapSeq : Nat
  /-- The open snapshot update. -/
  openUpdate : Option Nat
  /-- Programmed fault-log pages, oldest first, and how many were ever programmed. -/
  logPages : List (List LogRecord)
  logCount : Nat
  /-- Records that await programming and when the first of them arrived. -/
  logBuffer : List LogRecord
  logSince : Nat
  sxmKeys : List (Option (List Byte))
  /-- Erase count of each sector that was ever erased. -/
  erases : List (Nat × Nat)
  /-- The host command in progress. -/
  running : Option KeepJob
deriving DecidableEq, Repr, Inhabited

/-- The commands of SECURITY.CMD (R684 to R688). -/
inductive SecCmd where
  | otpProgram (word : Nat) (bits : Word) | nonce | unlock (token : List Byte) | keyStore (slot : Nat) (key : List Byte) | keyClear (slot : Nat)
deriving DecidableEq, Repr

/-- Keys, OTP and debug. -/
structure Security where
  /-- The customer OTP: word number and value, unlisted words 0 (R684). -/
  otp : List (Nat × Word)
  /-- The words last written to SXM_KEY_DATA, at most eight, oldest first. -/
  keyData : List Word
  nonceValid : Bool
  jtagOpen : Bool
  running : Option SecCmd
  /-- How many random bytes were drawn so far (model's own, DESIGN CHOICE, log entry 10). -/
  drawn : Nat
deriving DecidableEq, Repr, Inhabited

/-! ### The structure image (R65 to R113) -/

/-- One section of an image: type, instance, bytes. -/
structure Section where
  type : Nat
  inst : Nat
  bytes : List Byte
deriving DecidableEq, Repr, Inhabited

/-- The running state of the structure image (R107). -/
structure Running where
  serial : Nat
  digest : List Byte
  sections : List Section
  /-- The running state includes a live replacement (R111). -/
  live : Bool
deriving DecidableEq, Repr, Inhabited

/-- A verified partial image, or its standby sections once prepared (R98, R100). -/
structure Partial where
  serial : Nat
  digest : List Byte
  sections : List Section
deriving DecidableEq, Repr, Inhabited

/-- The commands of IMAGE.CTL in progress (R110). -/
inductive ImageCmd where
  | load | verify | slotUpdate (r : SlotRecord)
  /-- A LOAD that has installed its image and waits for it to run (R113). -/
  | restart
deriving DecidableEq, Repr

/-- Internal state of image handling. -/
structure ImageState where
  running : Option Running
  /-- The verified partial image in the load buffer. -/
  ready : Option Partial
  cmd : Option ImageCmd
  /-- The image that LOAD has verified and is to install, and its lock_on_load flag. -/
  candidate : Option Running
  lockOnLoad : Bool
deriving DecidableEq, Repr, Inhabited

/-- Where the boot timeline stands (R673 to R676, R714). -/
inductive BootPhase where
  /-- RESET_N is low. -/
  | held
  /-- RESET_N is high and a power-good input is low (R714). -/
  | waitPower
  /-- The boot timeline runs. -/
  | booting
  /-- ready has set. -/
  | ready
  /-- No image passed (R676). -/
  | noImage
deriving DecidableEq, Repr, Inhabited

/-- Reset inputs and boot. -/
structure BootState where
  phase : BootPhase
  /-- DEV_ID sampled at the release of RESET_N (R654). -/
  devId : Nat
  /-- Levels of PG_CORE, PG_MEM, PG_LINK, PG_RFA (R711). -/
  pg : List Bool
  resetN : Bool
  /-- When the boot timeline started, or will start (R714), and when RESET_N was released or a reset without it began. -/
  start : Nat
  released : Nat
  /-- The image has been selected (R86). -/
  selected : Bool
  /-- PG_CORE is monitored (R712). -/
  coreMonitored : Bool
  /-- The snapshot update that a reset has left incomplete, with the sector of its first page, until boot reports it (R592). -/
  left : Option (Nat × Nat)
  /-- The slot record before the update that this boot made, and when that update is complete (R87). -/
  recordWas : Option (SlotRecord × Nat)
deriving DecidableEq, Repr, Inhabited

/-! ### Transactions (R500 to R530) -/

/-- One staged entry (R504, R506): a register word, or bytes of the beam table at a window offset. -/
inductive Staged where
  | reg (addr : Nat) (value : Word)
  | window (addr : Nat) (bytes : List Byte)
deriving DecidableEq, Repr

/-- What a committed or internal transaction brings about when it takes effect. -/
inductive Effect where
  /-- The RWS fields of a staged register write. -/
  | reg (addr : Nat) (value : Word)
  /-- A staged write of the beam table. -/
  | window (addr : Nat) (bytes : List Byte)
  /-- Live replacement (R102). -/
  | live (p : Partial)
  /-- The beam engine and solver exclude the path (R179). -/
  | exclude (p : Nat)
  /-- The path leaves service: no pipeline serves it (R541). -/
  | pathOut (p : Nat)
  /-- The path's pre-distortion bank takes over (R222). -/
  | dpdBank (p bank : Nat)
  /-- A round of group `g` has committed: its verification begins (R223). -/
  | dpdRound (g : Nat)
  /-- A rollback of group `g` has taken effect (R223). -/
  | dpdBack (g : Nat)
  /-- Weight set `set` of a carrier becomes the one in force (R303). -/
  | weights (c set : Nat)
  /-- The new total of an OTA round takes effect beside its corrections (R494). -/
  | ota (total : Nat)
deriving DecidableEq, Repr

/-- A transaction on its way into effect (R512): commit boundary, ID, the slot that holds it, if any, what is left to take effect,
and the carriers whose configuration epoch it is still to advance. `decided` is false while the decision of an array-wide
transaction has not arrived. -/
structure Commit where
  time : Nat
  id : Nat
  slot : Option Nat
  decided : Bool
  latched : Bool
  effects : List Effect
  touch : List Nat
deriving DecidableEq, Repr, Inhabited

/-- Internal state of a transaction slot. Slots 0 to 19 are the host's; 20 to 27 hold the internal array-wide transaction of the
epoch of carrier slot - 20, and 28 that of an OTA round (R530, DESIGN CHOICE, log entry 32). -/
structure TxnSlot where
  /-- The state of SLOT_STATUS and its other fields. -/
  state : Nat
  cause : Nat
  array : Bool
  inDoubt : Bool
  abortPending : Bool
  preparing : Bool
  owner : Nat
  poisoned : Bool
  id : Nat
  /-- The staged entries, in the order in which their addresses were first staged, and the bytes they take. -/
  staged : List Staged
  /-- SLOT_REFUSE, and the cause and landing of SLOT_PEER. -/
  refuse : Nat
  peerCause : Nat
  peer : Nat
  /-- The resolved commit boundary T in array time, and the carrier that names it. -/
  time : Nat
  carrier : Nat
  /-- Array time of the request to prepare. -/
  asked : Nat
  /-- The partial image that the transaction applies, and the serial of the one that it holds since it staged it (R99). -/
  live : Option Partial
  claim : Option Nat
  /-- What an internal transaction stages here; none while its part is not staged (R530). -/
  part : Option (List Effect)
  /-- The slot returns to FREE then, its session having ended (R517). -/
  freeAt : Option Nat
  /-- The landing and request tag that opened it (R520), and the decision time D in array time (R521). -/
  origin : Nat
  tag : Nat
  decideAt : Nat
  /-- PREPARE has arrived; this landing votes YES; the YES counts of the children by port; the lowest NO landing and its cause; the
  vote that was last sent up: 0 none, 1 YES, 2 NO (R522). -/
  asking : Bool
  ownYes : Bool
  childYes : List (Nat × Nat)
  no : Option (Nat × Nat)
  voted : Nat
  /-- Channels whose PREPARE or ABORT waits for the decision (R519), and those that asked for an abort (R524). -/
  waiters : List Nat
  aborters : List Nat
  /-- Ports whose QUERY waits for the decision (R526). -/
  queries : List Nat
  /-- The decision that an in-doubt landing has received, with the array time at which it applies it (R527). -/
  verdict : Option (Bool × Nat × Nat × Nat)
deriving DecidableEq, Repr, Inhabited

/-- An array-wide transaction as its top landing holds it (R520 to R523); decided: COMMIT or ABORT, its cause and landing. -/
structure TopTxn where
  id : Nat
  slot : Nat
  prepared : Bool
  time : Nat
  decideAt : Nat
  decision : Option (Bool × Nat × Nat)
deriving DecidableEq, Repr, Inhabited

/-- Transaction bookkeeping outside the slots. -/
structure TxnState where
  slots : List TxnSlot
  /-- Transactions prepared, waiting for their boundary or on their way into effect, in commit order. -/
  commits : List Commit
  /-- The ID counter of the landing (R500) and of the top's array-wide IDs. -/
  nextId : Nat
  nextArray : Nat
  top : List TopTxn
  /-- IDs and outcomes of the four most recent array-wide transactions, newest first: 3 COMMITTED, 4 ABORTED (R525). -/
  outcomes : List (Nat × Nat)
  /-- Channels whose OPEN_ARRAY waits for its ANNOUNCE, by request tag. -/
  openWait : List (Nat × Nat)
  nextTag : Nat
deriving DecidableEq, Repr, Inhabited

/-- A free slot. -/
def TxnSlot.free : TxnSlot where
  state := 0
  cause := 0
  array := false
  inDoubt := false
  abortPending := false
  preparing := false
  owner := 0
  poisoned := false
  id := 0
  staged := []
  refuse := 0
  peerCause := 0
  peer := 0
  time := 0
  carrier := 0
  asked := 0
  live := none
  claim := none
  part := none
  freeAt := none
  origin := 0
  tag := 0
  decideAt := 0
  asking := false
  ownYes := false
  childYes := []
  no := none
  voted := 0
  waiters := []
  aborters := []
  queries := []
  verdict := none
/-! ### Carriers (R44 to R48, R77, R246 to R264) -/

/-- One carrier record of the carrier plan (R77). -/
structure CarrierRec where
  enable : Bool
  joint : Bool
  ecp : Bool
  spacing : Nat
  width : Nat
  offset : Int
  fft : Nat
  tdd : Nat
  dl : Nat
  ul : Nat
  group : Nat
  mode : Nat
  ingress : Nat
  egress : Nat
deriving DecidableEq, Repr, Inhabited

/-- A beam that an occasion is requested for (R256): the beam-table entry, the partner's entry and eAxC, section ID and width. -/
structure OccBeam where
  beam : Nat
  entry : Nat
  eaxc : Nat
  sectionId : Nat
  width : Nat
deriving DecidableEq, Repr, Inhabited

/-- A PRACH occasion accepted from a section type 3 request (R251, R255): times in array-time ticks, the frequency offset in half
PRACH spacings, the slot that names it, and its beams. -/
structure Occasion where
  start : Nat
  cp : Nat
  freq : Int
  bits : Nat
  /-- Δf_RA in Hz. -/
  spacing : Nat
  windows : Nat
  prbs : Nat
  firstPrb : Nat
  slot : Nat
  beams : List OccBeam
deriving DecidableEq, Repr, Inhabited

/-- The weights of a layer in a PRB group for a symbol: one vector of 64 with its exponent, whether a step saturated, and whether the
beam it names is invalid (R278, R281, R291). -/
structure LayerWeights where
  w : List Cplx
  eW : Int
  sat : Bool
  invalid : Bool
deriving DecidableEq, Repr, Inhabited

/-- The weights that the uplink symbol in progress uses, taken at its boundary (R47): by layer and group, and each group's inverse. -/
structure UplinkUse where
  weights : List (List (Option LayerWeights))
  inverses : List (List (List Cplx) × Int)
deriving DecidableEq, Repr, Inhabited

/-- What a carrier holds beside its registers. -/
structure CarrierState where
  /-- The record under which the carrier runs or will start; none while OFF. Its bytes in the plan, which fix its latencies. -/
  form : Option CarrierRec
  bytes : List Byte
  /-- The record that replaces it at its stop boundary (R106), none in the inner option where the carrier is removed. -/
  after : Option (Option CarrierRec)
  /-- When the carrier became due to start, or its stop was decided. -/
  since : Nat
  /-- Last and previous committed symbol boundary, in array-time ticks (R45). -/
  committed : Nat
  previous : Nat
  /-- The configuration epoch (R47, R512). -/
  epoch : Nat
  /-- TDD pattern and replay reserve (µs) in force on the carrier (R39, R249). -/
  pattern : Word
  reserve : Nat
  /-- Release of the latest uplink symbol of each eAxC (R33), array time. -/
  released : List (Nat × Nat)
  /-- The latest symbols found degraded, and those of them that are yet to be counted at their release (R538). -/
  degraded : List Nat
  degradedDue : List Nat
  /-- The latest symbols counted as missed, downlink and uplink (R539). -/
  missedDl : List Nat
  missedUl : List Nat
  /-- The sounding slot whose records each area holds or takes up, and the sounding slot that was dropped last (R263). -/
  srsAreas : List (Option Nat)
  srsDrop : Option Nat
  /-- The feeds of the banks at each record of each area, by the record's place (R283, R295). -/
  srsFeeds : List (List (Nat × Nat))
  occasions : List Occasion
  /-- The weight set in force, 0 or 1 (R287), and when the other one left service. -/
  set : Nat
  setLeft : Nat
  /-- Cross-feed of banks A and B as of the symbol boundary, two bits (R283). -/
  feed : Nat
  /-- The first symbol it processes since it started, and the latest whose boundary it has passed. -/
  first : Nat
  begun : Option Nat
deriving DecidableEq, Repr, Inhabited

/-- The diagnostic capture (R265, R266). -/
structure CapState where
  armed : Bool
  recording : Bool
  /-- CAP_CTL and CAP_TRIG as they were armed. -/
  ctl : Word
  trig : Word
  /-- Array time of the first sample, and the data recorded so far. -/
  start : Nat
  data : List Byte
deriving DecidableEq, Repr, Inhabited

/-! ### Observation and adaptation (R210 to R228) -/

/-- A capture in progress: path, start and end, requested by the host, bank in force, attenuation, epoch, and the slot used. -/
structure ObsCapture where
  path : Nat
  start : Nat
  stop : Nat
  host : Bool
  bank : Nat
  atten : Nat
  epoch : Nat
  slot : Nat
deriving DecidableEq, Repr, Inhabited

/-- The adaptation of one group. -/
structure ObsGroup where
  cursor : Option Nat
  /-- The switch position: a path's number in the group; none in the internal loopback (R210). -/
  position : Option Nat
  /-- Schedule period, from the epoch, whose attempt has been made, and the one in which an attempt looks for its window (R213). -/
  period : Option Nat
  trying : Option Nat
  capture : Option ObsCapture
  hostReq : Option Nat
  nextSlot : Nat
  /-- First schedule period of the round in progress, counted in periods of the present length (R221). -/
  roundStart : Int
  /-- No round is in progress: a freeze holds back the next (R228). -/
  idle : Bool
  /-- The path of each accepted capture of the round, taken after the path's last bank switch. -/
  used : List Nat
  /-- Paths of the running fit, and its writes are abandoned (R209). -/
  fit : List Nat
  abandoned : Bool
  /-- Paths of the last AUTO commit, those not verified yet, and the period in which it ends at the latest. -/
  commit : List Nat
  verify : List Nat
  verifyEnd : Int
  /-- A commit of tables, a rollback, has been requested and has not taken effect (R222, R223). -/
  committing : Bool
  returning : Bool
  /-- The adaptation mode that governs (R227). -/
  mode : Nat
  /-- Gain and IQ of the observation receiver as its last OBS calibration set them (R167). -/
  receiver : List Cplx
deriving DecidableEq, Repr, Inhabited

/-- What observation holds for one path. -/
structure ObsPath where
  /-- Attenuation recorded with the reference; none until learned. -/
  attenRef : Option Nat
  /-- Array time of the last bank switch, and of the change of neighbour plan. -/
  switched : Nat
  planned : Nat
  /-- The bank that last left service and when (R208). -/
  left : Option (Nat × Nat)
  /-- Times of the present row of mismatches, newest first, at most three, and of the last capture within 6 dB. -/
  misses : List Nat
  lastGood : Option Nat
deriving DecidableEq, Repr, Inhabited

/-- A carrier's downlink samples for one path after stage 1 of R181: from an array-time tick on, one sample every `step` ticks. -/
structure TxBlock where
  carrier : Nat
  path : Nat
  start : Nat
  step : Nat
  samples : List Cplx
deriving DecidableEq, Repr, Inhabited
/-! ### Radio paths and LO banks (R119 to R180) -/

/-- A DC estimate, exact: (i + j q) / 2^e ADC codes (R128). -/
structure DcEst where
  i : Int
  q : Int
  e : Nat
deriving DecidableEq, Repr, Inhabited

/-- A calibration accepted on a path (R167, R172). -/
structure CalRun where
  code : Nat
  running : Bool
  /-- When it began to run, and when it ends. -/
  startAt : Nat
  endAt : Nat
deriving DecidableEq, Repr, Inhabited

/-- One stage of crest factor reduction on a path: the index of its input, counted from the epoch, up to which its peaks are decided, and
its latest accepted peaks, newest first (R198). -/
structure CfrStage where
  decided : Int
  peaks : List Int
deriving DecidableEq, Repr, Inhabited

/-- What a path holds beside its registers: the values in force of what a host write changes at the next update point (R120, R132), and
its loops, counters and failures. -/
structure PathState where
  /-- Analogue gain in force, dB. -/
  gain : Nat
  /-- The gain that SLOT_FAST or SLOT AGC has decided for the next update point (R125, R126). -/
  backoff : Bool
  /-- RX_DC_TRIM, TX_LO_COMP, RX_IQ_TAP0 to 7, TX_IQ_TAP0 to 7 in force. -/
  coeffs : List Word
  /-- d[g] for gains 0 to 42 (R128). -/
  dc : List DcEst
  /-- The estimate subtracted from samples, taken up at update points (R132). -/
  dcForce : DcEst
  /-- The estimates and receive taps that calibration last set (R155). -/
  calDc : List DcEst
  calIq : List Word
  /-- The highest symbol peak of each recent slot with uplink, by the slot's number from the epoch (R125). -/
  peaks : List (Nat × Nat)
  /-- Freezes of R133 that end at an instant: DC loop, IQ tracking. -/
  dcUntil : Nat
  iqUntil : Nat
  /-- The IQ window in progress is discarded (R133). -/
  iqDiscard : Bool
  /-- When the IQ window in progress began (R131). -/
  iqFrom : Nat
  cal : Option CalRun
  /-- Consecutive housekeeping rounds with a FEM failure (R178). -/
  femFails : Nat
  /-- Consecutive uplink symbols of each carrier in overrange (R178). -/
  overrange : List (Nat × Nat)
  /-- When the failure that retires the path was detected, and the carriers that exclude it (R179). -/
  failedAt : Option Nat
  excluded : List Nat
  /-- It was IN_SERVICE when it failed, and how many symbols it has degraded since (R180). -/
  failedIn : Bool
  failedSyms : Nat
  /-- The latest symbol of each carrier counted in LOST_SYM, by 2 × carrier + direction (R159). -/
  lost : List (Nat × Nat)
  /-- The three stages of crest factor reduction. -/
  cfr : List CfrStage
deriving DecidableEq, Repr, Inhabited

/-- The dividers of an LO synthesiser (R612): the divider of the VCO frequency that gives the LO, the VCO frequency in kHz, and the whole and
fractional parts of its feedback divider. -/
structure LoDividers where
  d : Nat
  vco : Nat
  n : Nat
  f : Nat
deriving DecidableEq, Repr, Inhabited

/-- An LO bank (R152 to R166, R612). -/
structure LoBank where
  /-- Composite centre in force, kHz. -/
  freq : Nat
  /-- A composite centre that waits for its boundary (R154). -/
  retune : Option Nat
  relock : Bool
  /-- The interval without LO began with a loss of lock (R159, R165). -/
  byLoss : Bool
  /-- The bank has been LOCKED since boot (R737). -/
  everLocked : Bool
  lockedAt : Nat
  /-- The start in progress has zeroed symbols (R165). -/
  lateZeroed : Bool
  /-- Array time at which cross-feed of the bank's paths last began or ended (R213). -/
  switchedAt : Option Nat
  /-- The dither seed in force (R153). -/
  seed : Nat
  /-- What the attempt in progress loaded into the dither LFSR; 0 before the first (R613). -/
  lfsr : Nat
  /-- The dividers in force; all 0 before the first start (R612). -/
  div : LoDividers
deriving DecidableEq, Repr, Inhabited

/-- The settings of the sample streams as they stood from an array time on: each sample is computed with those in force for it (R120,
R184, R234). -/
structure Shot where
  since : Nat
  regs : List (Nat × Word)
  trimsRx : List (Nat × Word)
  paths : List PathState
  blank : List Bool
  carriers : List CarrierState
  running : Option Running
  mem : List Host.Cell
deriving DecidableEq, Repr

/-- Paths, buses, banks and blanking inputs. -/
structure RadioState where
  paths : List PathState
  banks : List LoBank
  /-- Levels of BLANK0 to BLANK3. -/
  blank : List Bool
  /-- Array time at which blanking was last asserted on each group (R214). -/
  blankedAt : List (Option Nat)
  /-- Intervals of array time in which receive samples of a group are blanked: group, start, end (none: still blanked) (R145). -/
  blankSpans : List (Nat × Nat × Option Nat)
  /-- Latest symbol counted as touched by TX_MUTE and RX_BLANK, by 8 × group + carrier (R146). -/
  blankTx : List (Nat × Nat)
  blankRx : List (Nat × Nat)
  /-- Paths that the events INIT, since the image was installed, have found ready (R149). -/
  femReady : List Bool
  /-- When INIT began on the buses, and those on which it is over (R151, R175); the SLEEP or WAKE that a bus has yet to run (R149). -/
  initAt : Option Nat
  initDone : List Bool
  /-- When INIT was over on all buses: the start-up calibration counts from it (R175). -/
  initEnd : Nat
  femDue : List (Option FemEvent)
  /-- The settings of recent samples, newest first. -/
  shots : List Shot
deriving DecidableEq, Repr, Inhabited

/-! ### Clocks (R594 to R623) -/

/-- Clocks, reference and array time. -/
structure ClockState where
  /-- Array time runs (R603). -/
  started : Bool
  /-- Array time minus `now`, in ticks. -/
  offset : Int
  /-- Array time holds this value (TIM and CNV stopped, R621). -/
  frozen : Option Nat
  /-- A step of array time due at the next planning-slot boundary, in ticks (R602). -/
  stepDue : Option Int
  /-- align waits for an edge (R603). -/
  alignArmed : Bool
  /-- Sources, 1 PTP or 2 PARENT, whose discipline has taken hold since reset, and whether the next measurement decides on a step
  (R602). -/
  held : List Nat
  fresh : Bool
  /-- Carriers wait until array time is disciplined again (R578). -/
  await : Bool
  /-- Consecutive good measurements (R604). -/
  good : Nat
  /-- When REFCLK was lost. -/
  lostAt : Option Nat
  /-- Restart attempts of each island, and of CNV-X and CNV-Y. -/
  attempts : List Nat
  cnvAttempts : List Nat
  /-- Islands, and CNV-X and CNV-Y, that restart. -/
  restarting : List Bool
  cnvRestarting : List Bool
  /-- The dither LFSR of CNV-X and CNV-Y as an attempt loads it (R611, R613), and the time since which the comparator of R618 has not read
  beyond ±2 ps with both locked. -/
  cnvLfsr : List Nat
  cnvSince : Nat
  /-- The CNV clock is stopped (R620), and has locked again and waits for its planning-slot boundary. -/
  cnvStopped : Bool
  cnvReturn : Bool
  /-- Carriers whose work the stopped CNV clock holds, as they were at the stop. -/
  cnvMask : Nat
  /-- HKP stays on its oscillator until full reset (R621). -/
  hkpOscillator : Bool
  /-- The last 16 measurements of R617, newest first. -/
  xfeed : List Int
  /-- Spread-spectrum setting that waits for a housekeeping round boundary (R622), and the one in force. -/
  ssc : Nat
deriving DecidableEq, Repr, Inhabited
/-! ### Reset values of the parts -/

/-- The keep of a new device: erased, slot 0 preferred, floor 0 (DESIGN CHOICE, log entry 12). -/
def Keep.erased : Keep where
  raw := []
  slotRec := { preferred := 0, trial := false, trialStarted := false, floor := 0 }
  bootCount := 0
  snap := []
  snapSeq := 0
  openUpdate := none
  logPages := []
  logCount := 0
  logBuffer := []
  logSince := 0
  sxmKeys := List.replicate 4 none
  erases := []
  running := none

/-- A new device's security state: customer OTP all 0 (R684). -/
def Security.reset : Security where
  otp := []
  keyData := []
  nonceValid := false
  jtagOpen := false
  running := none
  drawn := 0

/-- No image, no command. -/
def ImageState.reset : ImageState where
  running := none
  ready := none
  cmd := none
  candidate := none
  lockOnLoad := false

/-- RESET_N just released with every power-good input high and DEV_ID 0 (DESIGN CHOICE, log entry 5). -/
def BootState.reset : BootState where
  phase := .booting
  devId := 0
  pg := [false, true, true, true]
  resetN := true
  start := 0
  released := 0
  selected := false
  coreMonitored := false
  left := none
  recordWas := none

/-- No transaction (R500). -/
def TxnState.reset : TxnState where
  slots := List.replicate 29 TxnSlot.free
  commits := []
  nextId := 1
  nextArray := 0
  top := []
  outcomes := []
  openWait := []
  nextTag := 0

/-- A path at reset. -/
def PathState.reset : PathState where
  gain := 20
  backoff := false
  coeffs := List.replicate 18 0
  dc := List.replicate 43 { i := 0, q := 0, e := 0 }
  dcForce := { i := 0, q := 0, e := 0 }
  calDc := List.replicate 43 { i := 0, q := 0, e := 0 }
  calIq := List.replicate 8 0
  peaks := []
  dcUntil := 0
  iqUntil := 0
  iqDiscard := false
  iqFrom := 0
  cal := none
  femFails := 0
  overrange := []
  failedAt := none
  excluded := []
  failedIn := false
  failedSyms := 0
  lost := []
  cfr := List.replicate 3 { decided := 0, peaks := [] }

/-- A bank at reset: OFF. -/
def LoBank.reset : LoBank where
  freq := 0
  retune := none
  relock := false
  byLoss := false
  everLocked := false
  lockedAt := 0
  lateZeroed := false
  switchedAt := none
  seed := 0
  lfsr := 0
  div := { d := 0, vco := 0, n := 0, f := 0 }

/-- Paths, banks and buses at reset. -/
def RadioState.reset : RadioState where
  paths := List.replicate 64 PathState.reset
  banks := List.replicate 2 LoBank.reset
  blank := List.replicate 4 false
  blankedAt := List.replicate 8 none
  blankSpans := []
  blankTx := []
  blankRx := []
  femReady := List.replicate 64 false
  initAt := none
  initDone := List.replicate 8 false
  initEnd := 0
  femDue := List.replicate 8 none
  shots := []

/-- Clocks at reset. -/
def ClockState.reset : ClockState where
  started := false
  offset := 0
  frozen := none
  stepDue := none
  alignArmed := false
  held := []
  fresh := false
  await := false
  good := 0
  lostAt := none
  attempts := List.replicate 8 0
  cnvAttempts := [0, 0]
  restarting := List.replicate 8 false
  cnvRestarting := [false, false]
  cnvLfsr := [0, 0]
  cnvSince := 0
  cnvStopped := false
  cnvReturn := false
  cnvMask := 0
  hkpOscillator := false
  xfeed := []
  ssc := 0
/-- A carrier that is OFF. -/
def CarrierState.off : CarrierState where
  form := none
  bytes := []
  after := none
  since := 0
  committed := 0
  previous := 0
  epoch := 0
  pattern := 0
  reserve := 20
  released := []
  degraded := []
  degradedDue := []
  missedDl := []
  missedUl := []
  srsAreas := [none, none]
  srsDrop := none
  srsFeeds := [[], []]
  occasions := []
  set := 0
  setLeft := 0
  feed := 0
  first := 0
  begun := none

/-- A group's observation at reset. -/
def ObsGroup.reset : ObsGroup where
  cursor := none
  position := some 0
  period := none
  trying := none
  capture := none
  hostReq := none
  nextSlot := 0
  roundStart := 0
  idle := false
  used := []
  fit := []
  abandoned := false
  commit := []
  verify := []
  verifyEnd := 0
  committing := false
  returning := false
  mode := 0
  receiver := []

/-- A path's observation at reset. -/
def ObsPath.reset : ObsPath where
  attenRef := none
  switched := 0
  planned := 0
  left := none
  misses := []
  lastGood := none
/-! ### Beam engine and solver (R269 to R317) -/

/-- What one weight set holds for one PRB group: the estimate mantissas H, 64 rows of one column a layer, with e_H; the inverse A with
e_A; the downlink weights, one vector of 64 a layer, with their exponents e_w (R295, R309, R311). -/
structure GroupWeights where
  h : List (List Cplx)
  eH : Int
  a : List (List Cplx)
  eA : Int
  w : List (List Cplx)
  eW : List Int
deriving DecidableEq, Repr, Inhabited

/-- A weight set of one carrier: its groups for downlink and uplink, and each path's feed tag, true for CROSS (R283, R287). -/
structure WeightSet where
  dl : List GroupWeights
  ul : List GroupWeights
  dlTags : List Bool
  ulTags : List Bool
deriving DecidableEq, Repr, Inhabited

/-- The layer map of one direction (R299): for each layer, its source in each PRB; none where no source is known. -/
structure LayerMap where
  dl : List (List (Option Nat))
  ul : List (List (Option Nat))
deriving DecidableEq, Repr, Inhabited

/-- A layer assignment of a section type 5 message, for a slot from the epoch on (R299). -/
structure MapEntry where
  slot : Nat
  dl : Bool
  layer : Nat
  ue : Nat
  first : Nat
  count : Nat
deriving DecidableEq, Repr, Inhabited

/-- An epoch in progress (R300 to R303). -/
structure Epoch where
  slot : Nat
  start : Nat
  /-- Estimates of each group by direction, with their tags and valid layers. -/
  dlH : List (List (List Cplx) × Int)
  ulH : List (List (List Cplx) × Int)
  tags : List Bool
  /-- Sums of Gram records received and own, and how many children have contributed (array-joint). -/
  grams : List GramRec
  heard : List Nat
  inverses : List InverseRec
  /-- Solver areas held until the estimates are formed, and whether this landing has the layer map (R314). -/
  hasMap : Bool
  /-- The idle set holds the epoch's weights and waits for its transaction. -/
  ready : Bool
deriving DecidableEq, Repr, Inhabited

/-- Channel information of one source (R296): carrier, values by PRB (exponent and 64 mantissas), feed tags. -/
structure ChanInfo where
  carrier : Nat
  prbs : List (Nat × Int × List Cplx)
  tags : List Bool
deriving DecidableEq, Repr, Inhabited

/-- A replay record of the beam engine for one symbol of a carrier (R45 to R47): its boundary, the configuration epoch in force at it, and
the weights with which its downlink and uplink are worked. -/
structure BeamReplay where
  symbol : Nat
  boundary : Nat
  epoch : Nat
  weights : List (List (Option LayerWeights))
  use : UplinkUse
deriving DecidableEq, Repr, Inhabited

/-- Beam engine and solver. -/
structure BeamState where
  /-- The replay records of each carrier, newest first, and the boundary of its last checkpoint (R45, R46). -/
  replays : List (List BeamReplay)
  checks : List Nat
  /-- The valid bits of the beam table, bit e for entry E<e> (R288). -/
  valid : Nat
  /-- Ranges whose invalidation committed at a time and may still serve a replay (R289). -/
  leaving : List (Nat × Nat × Nat)
  /-- Sets 0 and 1 of each carrier. -/
  sets : List (WeightSet × WeightSet)
  maps : List LayerMap
  mapsDue : List (Nat × MapEntry)
  epochs : List (Option Epoch)
  chans : List (Nat × ChanInfo)
  /-- Slot of the last epoch that started, by carrier. -/
  lastEpoch : List (Option Nat)
deriving DecidableEq, Repr, Inhabited

/-- No weights. -/
def WeightSet.empty : WeightSet where
  dl := []
  ul := []
  dlTags := []
  ulTags := []

/-- Beam engine and solver at reset: no entry valid, no weights. -/
def BeamState.reset : BeamState where
  replays := List.replicate 8 []
  checks := List.replicate 8 0
  valid := 0
  leaving := []
  sets := List.replicate 8 (WeightSet.empty, WeightSet.empty)
  maps := List.replicate 8 { dl := [], ul := [] }
  mapsDue := []
  epochs := List.replicate 8 none
  chans := []
  lastEpoch := List.replicate 8 none
/-! ### Hall fabric (R318 to R368) -/

/-- One set of general registers and flags (R333, R344). -/
structure RegSet where
  g : List Word
  z : Bool
  n : Bool
  c : Bool
  v : Bool
deriving DecidableEq, Repr, Inhabited

/-- An address generator (R334). -/
structure AddrGen where
  ptr : Nat
  off : Int
  base : Nat
  len : Nat
  bits : Nat
deriving DecidableEq, Repr, Inhabited

/-- A loop in progress (R341): first and last address of its body, and the passes left, the present one included. -/
structure HallLoop where
  first : Nat
  last : Nat
  left : Nat
deriving DecidableEq, Repr, Inhabited

/-- An inbound ring (R340, R354, R359): read pointer and unread flits, and the next number expected of each flow, by 16 × hall +
flow. -/
structure HallRing where
  rd : Nat
  count : Nat
  expected : List (Nat × Nat)
deriving DecidableEq, Repr, Inhabited

/-- An outbound flow (R354, R360, R105): the next sequence number, the place of the next flit in the banks of a memory flow, and
whether its route has changed and flits sent under the old route may still be on their way. -/
structure HallFlow where
  seq : Nat
  place : Nat
  rerouted : Bool
deriving DecidableEq, Repr, Inhabited

/-- What a hall's program works on, and its checkpoint holds (R352). -/
structure HallCore where
  /-- Data memory, in canonical form (Memory.wf). -/
  dm : List Host.Cell
  primary : RegSet
  shadowSet : RegSet
  /-- The shadow set is active (R344). -/
  shadow : Bool
  v : List (List Cplx)
  acc : List (List Cplx)
  ag : List AddrGen
  /-- Innermost first. -/
  loops : List HallLoop
  returns : List Nat
  /-- Depths of both stacks when the event being handled was accepted (R345). -/
  loopsAt : Nat
  returnsAt : Nat
  enabled : Nat
  pending : Nat
  evcause : Nat
  pc : Nat
  epc : Nat
  timer : Nat
  /-- TIME_HI held by the last read of TIME_LO (R340). -/
  timeHi : Option Nat
  flows : List HallFlow
  rings : List HallRing
deriving DecidableEq, Repr, Inhabited

/-- A value that entered a hall (R353), with the retired-instruction count at which it did. -/
inductive HallInput where
  | flit (at_ ring : Nat) (data : List Word)
  | fetch (at_ ring : Nat) (data : List Word)
  | event (at_ number : Nat)
  | special (at_ sreg : Nat) (value : Word)
deriving DecidableEq, Repr

/-- A flit on its way through the corridors (R354 to R360): its flow, its number, kind and destination of its route, and whether it is
held at injection (R105). -/
structure Flit where
  hall : Nat
  flow : Nat
  seq : Nat
  kind : Nat
  dest : Nat
  ring : Nat
  /-- Its class, and the router outputs that it has still to pass: tile and port (R362). -/
  cls : Nat
  links : List (Nat × Nat)
  held : Bool
  data : List Word
deriving DecidableEq, Repr, Inhabited

/-- A hall: its work, whichever tile does it. -/
structure Hall where
  /-- The program section in force, and the two halves of program memory (R103, R320). -/
  program : Option (List Byte)
  half0 : List Byte
  half1 : List Byte
  bank : Nat
  core : HallCore
  /-- Checkpoint, and what has entered and what was sent since (R352, R353). -/
  check : HallCore
  inputs : List HallInput
  sent : List Flit
  /-- Trap cause, 0 for none (R349). -/
  trap : Nat
  /-- The mask of the WAITE in progress (R346), and the flow that a SEND or FETCH waits for (R347). -/
  waiting : Option Nat
  credit : Option Nat
  /-- Shed for the present planning slot (R367), shed until full reset (R540), given up (R543). -/
  shed : Bool
  evicted : Bool
  wedged : Bool
  /-- Retired instructions. -/
  retired : Nat
  /-- The tile that serves the hall; none serves evicted or wedged work (R741). -/
  tile : Option Nat
  /-- Fetched flits on their way (R361): ring and window offset, oldest first. -/
  fetches : List (Nat × Nat)
deriving DecidableEq, Repr, Inhabited

/-- An alcove (R355, R741): the hall it serves; its tile has faulted. -/
structure Alcove where
  serves : Option Nat
  retired : Bool
deriving DecidableEq, Repr, Inhabited

/-- A set of registers, all 0. -/
def RegSet.zero : RegSet where
  g := List.replicate 32 0
  z := false
  n := false
  c := false
  v := false

/-- A hall's work before any program: everything clear (R318). -/
def HallCore.clear : HallCore where
  dm := []
  primary := RegSet.zero
  shadowSet := RegSet.zero
  shadow := false
  v := List.replicate 16 (List.replicate 16 ⟨0, 0⟩)
  acc := List.replicate 4 (List.replicate 16 ⟨0, 0⟩)
  ag := List.replicate 4 { ptr := 0, off := 0, base := 0, len := 0, bits := 0 }
  loops := []
  returns := []
  loopsAt := 0
  returnsAt := 0
  enabled := 0
  pending := 0
  evcause := 0
  pc := 0
  epc := 0
  timer := 0
  timeHi := none
  flows := List.replicate 16 { seq := 0, place := 0, rerouted := false }
  rings := List.replicate 8 { rd := 0, count := 0, expected := [] }

/-- A hall without a program, served by its own tile. -/
def Hall.empty (h : Nat) : Hall where
  program := none
  half0 := []
  half1 := []
  bank := 0
  core := HallCore.clear
  check := HallCore.clear
  inputs := []
  sent := []
  trap := 0
  waiting := none
  credit := none
  shed := false
  evicted := false
  wedged := false
  retired := 0
  tile := some h
  fetches := []
/-! ### Fronthaul (R369 to R420) -/

/-- A C-plane message held in a reordering window (R399). -/
structure Held where
  seq : Nat
  at_ : Nat
  sections : List CSection
deriving DecidableEq, Repr, Inhabited

/-- The reordering window of one eAxC (R399). -/
structure Window where
  eaxc : Nat
  expected : Option Nat
  held : List Held
deriving DecidableEq, Repr, Inhabited

/-- What a partner entry holds beside its registers: its windows and when its last message was accepted (R397). -/
structure Partner where
  windows : List Window
  last : Nat
deriving DecidableEq, Repr, Inhabited

/-- A type 1 section in force (R385): symbols first to last - 1, counted from the epoch, and the order in which it took effect. -/
structure CForce where
  carrier : Nat
  layer : Nat
  dl : Bool
  entry : Nat
  eaxc : Nat
  sectionId : Nat
  first : Nat
  last : Nat
  startPrb : Nat
  numPrb : Nat
  width : Nat
  beam : Nat
deriving DecidableEq, Repr, Inhabited

/-- Downlink data of one layer and PRB of a symbol (R274, R389). -/
structure PrbData where
  carrier : Nat
  symbol : Nat
  layer : Nat
  prb : Nat
  exp : Int
  vals : List Cplx
deriving DecidableEq, Repr, Inhabited

/-- Part of an uplink frame (R390, R391): section ID, first PRB, width, and for each PRB its exponent and mantissas. -/
structure USend where
  sectionId : Nat
  startPrb : Nat
  width : Nat
  prbs : List (Nat × List Cplx)
deriving DecidableEq, Repr, Inhabited

/-- An uplink frame before it has its sequence ID (R391, R392): its partner entry, eAxC, the symbol's names, its sections. -/
structure UFrame where
  entry : Nat
  eaxc : Nat
  frame : Nat
  subframe : Nat
  slot : Nat
  sym : Nat
  sections : List USend
deriving DecidableEq, Repr, Inhabited

/-- A frame that a port holds to send, or has sent: sequence ID, release, and start of transmission (R402, R405). -/
structure SentFrame where
  frame : UFrame
  seq : Nat
  release : Nat
  start : Nat
  again : Bool
deriving DecidableEq, Repr, Inhabited

/-- One port of the fronthaul beside its registers. -/
structure FhPort where
  /-- When it entered its present state, and when an attempt may begin again (R374). -/
  since : Nat
  retryAt : Nat
  /-- A topology notice was raised since it was last UP or enabled (R374). -/
  noticed : Bool
  /-- Frames that wait, in sending order, and frames of the last 50 µs (R402, R405). -/
  queue : List SentFrame
  journal : List SentFrame
  busy : Nat
deriving DecidableEq, Repr, Inhabited

/-- A PTP master heard on a port (R410): Announce data, and the last Sync. -/
structure PtpMaster where
  quality : List Nat
  at_ : Nat
  sync : Option (Int × Int)
deriving DecidableEq, Repr, Inhabited

/-- A replay record of the fronthaul for one symbol of a carrier (R45 to R47): the sections in force and the data received. -/
structure FhReplay where
  symbol : Nat
  boundary : Nat
  epoch : Nat
  force : List CForce
  data : List PrbData
deriving DecidableEq, Repr, Inhabited

/-- Fronthaul beside its registers. -/
structure FhState where
  /-- The replay records of each carrier, newest first, and the boundary of its last checkpoint (R45, R46). -/
  replays : List (List FhReplay)
  checks : List Nat
  ports : List FhPort
  partners : List Partner
  /-- Type 1 sections in force, in the order in which they took effect, and downlink data received. -/
  force : List CForce
  data : List PrbData
  /-- Downlink sections counted as late: symbol, entry, eAxC, section ID (R388). -/
  lateOf : List (Nat × Nat × Nat × Nat)
  /-- Uplink sequence IDs by eAxC (R392). -/
  ulSeq : List (Nat × Nat)
  /-- The port layout in force (R372). -/
  layout : Nat
  masters : List (Option PtpMaster)
  /-- SXM datagrams accepted in the present second (R415). -/
  sxmSecond : Nat
  sxmCount : Nat
  /-- When the committed coefficient set of each lane was last put back in force; 0 for never (R417). -/
  laneBack : List Nat
  /-- Single bit errors injected on each lane since its checker last counted (R418, R419). -/
  injected : List Nat
  /-- Requests with Follow_Up whose Follow_Up has not come: port, measurement ID, receive timestamp (R413). -/
  asked : List (Nat × Nat × Int)
deriving DecidableEq, Repr, Inhabited

/-- A partner without windows. -/
def Partner.empty : Partner where
  windows := []
  last := 0

/-- A port that is DISABLED. -/
def FhPort.reset : FhPort where
  since := 0
  retryAt := 0
  noticed := false
  queue := []
  journal := []
  busy := 0

/-- Fronthaul at reset. -/
def FhState.reset : FhState where
  replays := List.replicate 8 []
  checks := List.replicate 8 0
  ports := List.replicate 8 FhPort.reset
  partners := List.replicate 64 Partner.empty
  force := []
  data := []
  lateOf := []
  ulSeq := []
  layout := 0
  masters := List.replicate 8 none
  sxmSecond := 0
  sxmCount := 0
  laneBack := List.replicate 8 0
  injected := List.replicate 8 0
  asked := []
/-! ### Stair network (R421 to R470) -/

/-- A codeword (R426 to R428): its number, when its transmission began, the record that ends in it, and what it carries: record, unit of the
record, codeword of the unit; none: PAD alone. -/
structure Codeword where
  seq : Nat
  begun : Nat
  msg : Option StairMsg
  load : Option (StairMsg × Nat × Nat)
deriving DecidableEq, Repr

/-- A stair port beside its registers. -/
structure StairPort where
  /-- When it entered its present state. -/
  since : Nat
  /-- A topology notice was raised since it was last UP or enabled (R438). -/
  noticed : Bool
  /-- The far end's last detect burst, and whether a burst of ours has acknowledged it (R435). -/
  far : Option Burst
  acked : Bool
  /-- Echo-training phases over (R436). -/
  echoes : Nat
  /-- Control bits in force since the port entered LISTEN: split, min4 (R441). -/
  split : Bool
  min4 : Bool
  /-- Records that wait for codewords, the next codeword number, unacknowledged codewords oldest first, and when the ack advanced. -/
  queue : List StairMsg
  next : Nat
  unacked : List Codeword
  /-- Segments sent of the record in progress in classes 1, 2 and 3, and the counts of units in a row of R442, pair of classes by pair. -/
  parts : List Nat
  runs : List Nat
  /-- The lane of the port to which the next codeword is dealt first (R427). -/
  turn : Nat
  ackAt : Nat
  /-- The lowest codeword number not received, and numbers beyond it that were. -/
  rxNext : Nat
  rxHave : List Nat
  lastHello : Nat
  helloSent : Nat
  burstAt : Nat
  hello : Option Hello
  /-- Marks sent and received by index with their array time in ps, and the measurements D of R464, newest first. -/
  markAt : Nat
  markIndex : Nat
  sentMarks : List (Nat × Int)
  heardMarks : List (Nat × Int)
  delays : List Int
  /-- Excluded as a parent until the next TREE heartbeat (R456). -/
  excluded : Bool
  /-- The landing at the far end was confirmed as a child here (R448), with the array time from which its chunks are expected, and the
  first symbol boundary for which it is held (R527). -/
  adopted : Bool
  expectFrom : Nat
  /-- A landing that has asked to be a child here, and the array time from which it will deliver its chunks (R455). -/
  adopting : Option (Nat × Nat)
  heldFrom : Option Nat
  /-- The child landing below the port, also while its flight has faulted, and the array time from which a rejoined one delivers
  (R445, R739). -/
  child : Option Nat
  rejoinAt : Nat
  /-- The child's flight has faulted, and it has not joined again through this port (R445, R739). -/
  gone : Bool
  /-- PORT_DELAY holds until 16 new measurements are taken (R466). -/
  holdDelay : Bool
deriving DecidableEq, Repr, Inhabited

/-- A stair lane beside its registers. -/
structure StairLane where
  since : Nat
  /-- Its loops are frozen at the committed coefficients (R434). -/
  rolled : Bool
  /-- It has retrained and waits for a planning-slot boundary (R453). -/
  qualified : Bool
  /-- When a codeword with content was last sent or received on it. -/
  busyAt : Nat
  /-- When its first pilot block began, from which its scrambler runs and its symbols are counted; none: its transmitter carries no
  codewords (R422, R424). -/
  startAt : Option Nat
  /-- Codewords begun on it since. -/
  sent : Nat
deriving DecidableEq, Repr, Inhabited

/-- The sum of one chunk in progress (R312, R445): what has been added, the ports that are expected, those that have delivered, and
whether the landing's own outputs are in. -/
structure ChunkSum where
  carrier : Nat
  /-- The record under which the symbol was worked. -/
  form : CarrierRec
  layer : Nat
  slot : Nat
  sym : Nat
  first : Nat
  parts : List Chunk
  expected : List Nat
  heard : List Nat
  own : Bool
  /-- It has been forwarded, or completed at the top; the sum itself at the top. -/
  complete : Bool
  total : List (Int × List Cplx)
  /-- The inverses and the output scale of the symbol (R47, R279, R280). -/
  inverses : List (List (List Cplx) × Int)
  outExp : Int
deriving DecidableEq, Repr, Inhabited

/-- The tree as a landing holds it. -/
structure TreeState where
  /-- Landings joined, with their paths from the top and UIDs (top). -/
  joined : List (Nat × List Nat × Nat)
  /-- The path of ports from here to each landing of the subtree (R450). -/
  below : List (Nat × List Nat)
  /-- The top landing's number (R447). -/
  top : Nat
  /-- At the top: the tree forms again after LOST (R528). -/
  again : Bool
  /-- The start boundary of array-joint carriers in force, in array time. -/
  start : Nat
  lastTree : Nat
  /-- The landing joined below a formed tree, and waits for the top's answer (R739, DEDUCED, log entry 31). -/
  waits : Bool
  heartbeat : Nat
  /-- A new parent awaits its confirmation: the port and when it was asked (R456). -/
  asking : Option (Nat × Nat)
  /-- Records that wait for a confirmed parent, chunks among them as SUPPLEMENT records, and the array time of the first symbol whose
  chunks are PARTIAL records again (R455, R456, R458). -/
  supplements : List StairMsg
  normalFrom : Nat
  /-- Records kept under R460, with their arrival. -/
  history : List (Nat × StairMsg)
  sums : List ChunkSum
  /-- MISSING records at the top not yet matched: root and chunk; supplements not yet matched. -/
  missing : List (Nat × Nat × Nat × Nat × Nat × Nat)
  suppl : List (Nat × Chunk)
  /-- Landings that have sent OUTCOMES since the tree formed, and IDs reported in doubt and COMMITTED (R528). -/
  outcomesFrom : List Nat
  doubts : List Nat
  commits : List Nat
  /-- Symbols counted in MISSING_SYM, the latest of each carrier. -/
  counted : List (Nat × Nat × Nat)
  /-- Detect bursts sent so far. -/
  bursts : Nat
  /-- Landings that have re-parented, and the array time from which they deliver through their new parent (R455). -/
  moved : List (Nat × Nat)
deriving DecidableEq, Repr, Inhabited

/-- The stair network beside its registers. -/
structure StairState where
  ports : List StairPort
  lanes : List StairLane
  tree : TreeState
deriving DecidableEq, Repr, Inhabited

/-- A port that is DISABLED. -/
def StairPort.reset : StairPort where
  since := 0
  noticed := false
  far := none
  acked := false
  echoes := 0
  split := false
  min4 := false
  queue := []
  next := 0
  unacked := []
  parts := [0, 0, 0]
  runs := [0, 0, 0, 0, 0, 0]
  turn := 0
  ackAt := 0
  rxNext := 0
  rxHave := []
  lastHello := 0
  helloSent := 0
  burstAt := 0
  hello := none
  markAt := 0
  markIndex := 0
  sentMarks := []
  heardMarks := []
  delays := []
  excluded := false
  adopted := false
  expectFrom := 0
  adopting := none
  heldFrom := none
  child := none
  rejoinAt := 0
  gone := false
  holdDelay := false

/-- A lane that is OFF. -/
def StairLane.reset : StairLane where
  since := 0
  rolled := false
  qualified := false
  busyAt := 0
  startAt := none
  sent := 0

/-- No tree. -/
def TreeState.reset : TreeState where
  joined := []
  below := []
  top := 0
  again := false
  start := 0
  lastTree := 0
  waits := false
  heartbeat := 0
  asking := none
  supplements := []
  normalFrom := 0
  history := []
  sums := []
  missing := []
  suppl := []
  outcomesFrom := []
  doubts := []
  commits := []
  counted := []
  bursts := 0
  moved := []

/-- The stair network at reset. -/
def StairState.reset : StairState where
  ports := List.replicate 4 StairPort.reset
  lanes := List.replicate 16 StairLane.reset
  tree := TreeState.reset
/-! ### Over-the-air calibration (R471 to R499) -/

/-- A capture in progress on a correlator (R484, R485): its window, detection path (0 or 1), metric in Q8.8 dB, and the array time at
which its preamble ended. -/
structure OtaCapture where
  window : Nat
  path : Nat
  metric : Int
  preambleEnd : Nat
deriving DecidableEq, Repr, Inhabited

/-- The landing's own transmission in a window (R479, R482), as its T/R lines follow it: from an array time to another, on the paths whose
place in their group is `turn`; none for every path. -/
structure OtaAir where
  from_ : Nat
  until_ : Nat
  turn : Option Nat
deriving DecidableEq, Repr, Inhabited

/-- Over-the-air calibration beside its registers. -/
structure OtaState where
  /-- A round is in progress on this landing, and the windows it knows: number, pattern period counted from the epoch, window. -/
  active : Bool
  windows : List (Nat × Nat × OtaWindow)
  /-- The SCHEDULE of the RETRY windows has arrived (R491). -/
  retryKnown : Bool
  /-- The window in progress, and whether the landing takes part in it (R564). -/
  now : Option (Nat × Bool)
  /-- The landing's transmission in the last window in which it sent. -/
  air : Option OtaAir
  /-- Captures in progress on K0 and K1, and senders accepted in the round (R485, R489). -/
  captures : List (Option OtaCapture)
  accepted : List Nat
  /-- τ_p and ρ_p in force and those of the round, as words in the layout of TX_CORR (R472). -/
  tau : List Word
  rho : List Word
  newTau : List Word
  newRho : List Word
  /-- At the top: accepted reports, receiver, sender, φ, metric; senders reported missing, receiver and sender; pairs received in the last
  completed round (R490, R492). -/
  reports : List (Nat × Nat × Nat × Int)
  missed : List (Nat × Nat)
  lastPairs : List (Nat × Nat)
  /-- A round has completed since reset. -/
  completed : Bool
  /-- The landing marked itself stale during the round (R493). -/
  staleRound : Bool
  /-- At the top: when a landing reported itself stale, and when the last round began (R477). -/
  staleAt : Option Nat
  lastStart : Nat
  /-- The new total of a round that waits to take effect, and whether its solution reached the landing (R493 to R495). -/
  newTotal : Nat
  reached : Bool
  /-- Temperature at the last commit, signed Q12.4 °C (R497). -/
  tempAt : Option Int
deriving DecidableEq, Repr, Inhabited

/-- 1.0 in the layout of TX_CORR: Q2.14, the real part in [15:0]. -/
def unitCorr : Word := 0x00004000

/-- Over-the-air calibration at reset; the factors are 1.0 until a round yields others (DESIGN CHOICE, log entry 34). -/
def OtaState.reset : OtaState where
  active := false
  windows := []
  retryKnown := false
  now := none
  air := none
  captures := [none, none]
  accepted := []
  tau := List.replicate 64 unitCorr
  rho := List.replicate 64 unitCorr
  newTau := List.replicate 64 unitCorr
  newRho := List.replicate 64 unitCorr
  reports := []
  missed := []
  lastPairs := []
  completed := false
  staleRound := false
  staleAt := none
  lastStart := 0
  newTotal := 0
  reached := false
  tempAt := none
/-! ### Recovery (R531 to R543, R741) -/

/-- A recovery in progress: what its record will say, when it was detected in array time and on the ruler, the carriers whose work it
holds, the one path it concerns where it concerns one, the counters at its start, and whether a degradation notice follows. -/
structure Recov where
  cls : Nat
  unit : Nat
  inst : Nat
  action : Nat
  spare : Nat
  detail : Nat
  since : Nat
  at_ : Nat
  mask : Nat
  path : Option Nat
  missed : Nat
  degraded : Nat
  degrades : Bool
deriving DecidableEq, Repr, Inhabited

/-- A spare pipeline or a spare bank: what it serves; it has failed. -/
structure Spare where
  serves : Option Nat
  retired : Bool
deriving DecidableEq, Repr, Inhabited

/-- Recovery beside its registers. -/
structure RecState where
  running : List Recov
  pipes : List Spare
  banks : List Spare
  /-- Banks lost with no spare free (R542). -/
  lost : List Nat
  /-- Beam-table entries that become invalid at the next symbol boundary, and paths whose tables are cleared at their next update
  point (R537). -/
  invalid : List Nat
  clears : List Nat
  /-- Carriers and weight sets with a group whose weights were lost, until the set is filled again (R537). -/
  zeroed : List (Nat × Nat)
  /-- Paths whose pipeline failed with no spare free (R541), and hops that were retried (R536 class 0x0F). -/
  pathsOut : List Nat
  hops : Nat
deriving DecidableEq, Repr, Inhabited

/-- Recovery at reset: every spare free. -/
def RecState.reset : RecState where
  running := []
  pipes := List.replicate 4 { serves := none, retired := false }
  banks := List.replicate 48 { serves := none, retired := false }
  lost := []
  invalid := []
  clears := []
  zeroed := []
  pathsOut := []
  hops := 0
/-! ### Energy and power states (R548 to R583) -/

/-- A plan fixed for a planning slot (R561): its target in mV, shedding level, predicted energy and the CORE term without γ, both in
nJ × 2^78 × 800^3. -/
structure Plan where
  slot : Nat
  mv : Nat
  level : Nat
  energy : Int
  core : Int
  /-- Carriers whose downlink and uplink work level 7 leaves and the speed model does not admit, by mask (R27). -/
  noDl : Nat
  noUl : Nat
deriving DecidableEq, Repr, Inhabited

/-- A speed monitor (R556): consecutive measurements outside and inside 15 %, and whether it is valid. -/
structure Monitor where
  bad : Nat
  good : Nat
  valid : Bool
deriving DecidableEq, Repr, Inhabited

/-- Energy and power states beside the registers. -/
structure EnergyState where
  /-- The bucket level in nJ (R552). -/
  bucket : Int
  /-- The planning slot in progress, its plan and the plan of the next; the slot that ended before it, and its plan. -/
  slot : Option Nat
  plan : Option Plan
  next : Option Plan
  endSlot : Nat
  ended : Option Plan
  /-- Measured non-core energy of recent planning slots, in µJ (R553). -/
  nonCore : List (Nat × Nat)
  /-- Speed readings of recent slots with their array time, newest first, and the monitors. -/
  speeds : List (Nat × List Nat)
  monitors : List Monitor
  /-- READ_VOUT readings of recent slots with their array time, newest first. -/
  vouts : List (Nat × Nat)
  /-- The target in force, the one before it, the last confirmed voltage in mV, and whether readback has confirmed the target. -/
  target : Nat
  before : Nat
  confirmed : Nat
  settled : Bool
  /-- A speed-miss block is due at the next plan, and the instant it ends (R560). -/
  missDue : Bool
  blockedTo : Nat
  /-- The state asked for (R572), the wake sources latched (R574, R577), when WAIT was executed, and the target that wake restores. -/
  goal : Nat
  latched : Nat
  waitAt : Nat
  lastActive : Nat
  /-- Failures of the wake steps REGULATOR, OSCILLATOR, PLL (R580). -/
  failures : List Nat
deriving DecidableEq, Repr, Inhabited

/-- Energy at reset: the bucket is full (R552), γ is 1. -/
def EnergyState.reset : EnergyState where
  bucket := 50000000
  slot := none
  plan := none
  next := none
  endSlot := 0
  ended := none
  nonCore := []
  speeds := []
  monitors := List.replicate 16 { bad := 0, good := 0, valid := true }
  vouts := []
  target := 800
  before := 800
  confirmed := 800
  settled := true
  missDue := false
  blockedTo := 0
  goal := 0
  latched := 0
  waitAt := 0
  lastActive := 800
  failures := [0, 0, 0]
/-! ### Housekeeping and thermal control (R584 to R592, R625 to R649) -/

/-- A temperature sensor (R584): consecutive rounds outside and within 6 °C of its neighbours, and whether it is valid. -/
structure Sensor where
  bad : Nat
  good : Nat
  valid : Bool
deriving DecidableEq, Repr, Inhabited

/-- An injected conversion that is pending (R635): channel, averaging exponent, delay in µs, and when it was written. -/
structure Injection where
  channel : Nat
  avg : Nat
  delay : Nat
  at_ : Nat
deriving DecidableEq, Repr, Inhabited

/-- A system calibration in progress (R640): its input and expected code, the mean z for a SPAN, and when its command was accepted. -/
structure SysCal where
  input : Nat
  full : Nat
  zero : Option Int
  at_ : Nat
deriving DecidableEq, Repr, Inhabited

/-- Housekeeping beside its registers. -/
structure HkState where
  /-- A round is in progress; when it began, and its length in µs; HK-B converts it. -/
  running : Bool
  start : Option Nat
  length : Nat
  byB : Bool
  /-- The entries that it has yet to convert: entry, channel, averaging exponent. -/
  left : List (Nat × Nat × Nat × Nat)
  /-- Consecutive rounds in which the checks of R638 and of R639 failed; HK-B failed while it stood in, and rounds have stopped. -/
  badA : Nat
  badB : Nat
  stopped : Bool
  /-- The converter codes of TS0 to TS23. -/
  codes : List Nat
  /-- Instants from which conversions of a channel count, by channel code (R628, R647), and at which the reference and the band-gap
  will have settled. -/
  from_ : List Nat
  refAt : Option Nat
  bandgapAt : Option Nat
  /-- For each HK_IN input the coefficients before their last change, and when that was (R641). -/
  coefs : List (Nat × Word)
  injected : Option Injection
  cal : Option SysCal
  /-- The means of the inputs whose ZERO has completed since the last SPAN (R640). -/
  zeros : List (Nat × Int)
  /-- The copy from OTP into the TRIM registers runs (R646). -/
  copying : Bool
  sensors : List Sensor
  /-- The least excess while the throttle holds after an exclusion (R588). -/
  held : Option Nat
deriving DecidableEq, Repr, Inhabited

/-- Housekeeping at reset: no round has run, every sensor counts as valid. -/
def HkState.reset : HkState where
  running := false
  start := none
  length := 2048
  byB := false
  left := []
  badA := 0
  badB := 0
  stopped := false
  codes := List.replicate 24 0
  from_ := List.replicate 80 0
  refAt := none
  bandgapAt := none
  coefs := List.replicate 16 (0, 0x40000000)
  injected := none
  cal := none
  zeros := []
  copying := false
  sensors := List.replicate 24 { bad := 0, good := 0, valid := true }
  held := none

/-- The instants the part itself arms (R45 to R741): each names what is due. -/
inductive Timer where
  /-- A fault-log page is due (R680). -/
  | logPage
  /-- BIAS, BAND, ACQUIRE or SETTLE of bank `b` ends (R152). -/
  | lo (b : Nat)
  /-- The calibration running on path `p` ends (R167). -/
  | cal (p : Nat)
  /-- The prepare of slot `n` with a live apply ends (R510). -/
  | livePrepare (n : Nat)
  /-- Decision time of the array-wide slot `n` (R523). -/
  | decide (n : Nat)
  /-- The next QUERY of the in-doubt slot `n` (R527). -/
  | query (n : Nat)
  /-- An in-doubt slot applies its decision (R527). -/
  | apply (n : Nat)
  /-- TIM has tracked for 100 µs since it relocked (R621). -/
  | tim
  /-- The measurement of the planning slot that has ended is complete (R552). -/
  | energy
  /-- The next READ_VOUT after a VOUT_COMMAND (R690). -/
  | readVout
deriving DecidableEq, Repr

/-- Data at an end of a fronthaul lane in TEST (R419): the lane's transmit data as they stand before its serialiser, its transmit output at
the pads, the receive data recovered from the link. -/
inductive LaneData where
  | parallel
  | output
  | link
deriving DecidableEq, Repr, Inhabited

/-- What the block sends or drives, in order of sending. -/
inductive Output where
  /-- A vestibule response frame (R658): status, words, CRC-8. -/
  | vest (status : Nat) (words : List Word) (crc : Byte)
  /-- What a read of a channel returned. -/
  | readData (ch : Nat) (addr : Nat) (value : Word)
  /-- An SXM message (R662) to a source address. -/
  | sxm (dst : Source) (msg : List Byte)
  /-- A PMBus command (R689): code and value. -/
  | pmbus (code : Nat) (value : Nat)
  /-- One RFFE command on the bus of a group (R147): op, USID, address, data. -/
  | rffe (g op usid addr data : Nat)
  /-- From an instant on a transmit calibration drives a path's output at a level in -dBFS, or no more (R167). -/
  | calDrive (path at_ : Nat) (level : Option Nat)
  /-- DAC samples of a path from an array-time tick on (R181). -/
  | dac (path : Nat) (start : Nat) (samples : List Cplx)
  /-- A hall rings the atrium controller with a code (R322). -/
  | sig (hall code : Nat)
  /-- A flit reaches a unit port (R356). -/
  | unitFlit (unit hall flow : Nat) (data : List Word)
  /-- An uplink frame on a fronthaul port with its sequence ID (R391 to R393). -/
  | uplane (port seq : Nat) (f : UFrame)
  /-- An answer of the timing or address plane on a port (R413, R414): delay measurement (action, ID, timestamp, compensation value), ARP reply,
  neighbour advertisement, echo reply. -/
  | delay (port action id : Nat) (stamp compensation : Int)
  | arpReply (port : Nat) (dst ip target : List Byte)
  | advertise (port : Nat) (dst ip target : List Byte)
  | echoReply (port : Nat) (src dst : List Byte) (id seq : Nat) (data : List Byte)
  /-- What the transmitter of a fronthaul lane in TEST drives onto the balls, and what its receiver hears (R419). -/
  | laneLoop (lane : Nat) (drives hears : LaneData)
  /-- A transmitter of a fronthaul lane injects one bit error (R418). -/
  | injectOne (lane : Nat)
  /-- A record on a stair port (R443). -/
  | stair (port : Nat) (m : StairMsg)
  /-- A codeword on a stair lane: the place among the lane's codewords, its number, and the levels of its symbols with the pilot blocks that
  fall into it (R422, R424, R426). -/
  | codeword (lane place seq : Nat) (levels : List Int)
  /-- Codewords filled with PAD on the lanes of a stair port: the number of the first; lane, first place and count; numbers go on in the
  order of places, and of lanes in a place (R423, R427). -/
  | pads (port first : Nat) (lanes : List (Nat × Nat × Nat))
  /-- The levels of a pilot block on a stair lane (R425). -/
  | pilot (lane : Nat) (levels : List Int)
  /-- A codeword of a stair port is sent again (R429). -/
  | codewordAgain (port seq : Nat)
  /-- A detect burst on a stair port (R435). -/
  | detectBurst (port : Nat) (b : Burst)
  /-- The wake pattern on a stair port (R468), and a marked pilot block (R463). -/
  | wakePattern (port : Nat)
  | pilotMark (port index : Nat)
  /-- A far-end tap request is refused on a stair lane (R432). -/
  | tapRefusal (lane : Nat)
  /-- The landing transmits a burst through the entry of OTA.BEAM at a level in -dBFS (R481, R482): its window, its 64 header bits and its
  1,536 samples at 30.72 MS/s, of which the first leaves at an array time. -/
  | otaBurst (window entry level header start : Nat) (samples : List Cplx)
  /-- One path of each group transmits the loopback sequence (R476, R480): the window. -/
  | otaLoop (window : Nat)
deriving DecidableEq, Repr

/-- What a release gate holds. -/
inductive GateKind where
  /-- A downlink symbol toward the paths. -/
  | down
  /-- An uplink symbol toward the fronthaul. -/
  | up
  /-- A PRACH occasion toward the fronthaul. -/
  | prach
  /-- Records of a symbol toward the stair ports. -/
  | stair
deriving DecidableEq, Repr, Inhabited

/-- One output in a release gate (R24, R25): carrier, symbol counted from the epoch, release in array time, and what leaves. -/
structure GateEntry where
  kind : GateKind
  carrier : Nat
  /-- The record under which the symbol was worked. -/
  form : CarrierRec
  symbol : Nat
  release : Nat
  /-- Chunks that an array-joint symbol still waits for. -/
  wait : Nat
  /-- Configuration epoch of the symbol (R47). -/
  epoch : Nat
  /-- Records toward the stair ports. -/
  msgs : List StairMsg
  /-- Uplink frames, which take their sequence IDs at the release. -/
  frames : List UFrame
  /-- Downlink data that met the deadline, with the beams of the sections in force, precoded with the state in force at the symbol's
  boundary (R47). -/
  data : List PrbData
  force : List CForce
  /-- Counters that advance at the release (R48): register address and increment. -/
  counts : List (Nat × Nat)
deriving DecidableEq, Repr, Inhabited
/-- The state of the block. -/
structure State where
  /-- Time since power-on in ticks of 3932.16 MHz, the model's own ruler (DESIGN CHOICE, log entry 1). -/
  now : Nat
  /-- The register file, in canonical form (RegFile.wf). -/
  regs : List (Nat × Word)
  /-- The 96 MiB of shared memory by window offset (R696), in canonical form (Memory.wf). -/
  mem : List Host.Cell
  /-- TRIM registers written by the host since the trim set was loaded (R647); the others read as the factory set. -/
  trims : List (Nat × Word)
  /-- The receive-gain trims in force on the paths, taken up at update points (R648). -/
  trimsRx : List (Nat × Word)
  /-- The delay trims in force, taken up at planning-slot boundaries, and the reference-tone trims, at LOOP windows (R648). -/
  trimsDelay : List (Nat × Word)
  trimsTone : List (Nat × Word)
  /-- The trim set is loaded (R644). -/
  trimsLoaded : Bool
  /-- TRIM registers whose OTP word fails its ECC (R644), by address, as the last full reset that names failures gave them. -/
  trimsBad : List Nat
  chans : List HostChan
  sessions : List (Option Session)
  keep : Keep
  sec : Security
  image : ImageState
  boot : BootState
  txn : TxnState
  radio : RadioState
  clock : ClockState
  /-- The fault log ring, newest first (R546). -/
  log : List LogRecord
  /-- Levels of the pins INT_N and FAULT_N: asserted (R670, R671). -/
  intN : Bool
  faultN : Bool
  carriers : List CarrierState
  cap : CapState
  obs : List ObsGroup
  obsPath : List ObsPath
  /-- The release gates (R24). -/
  gates : List GateEntry
  /-- Released downlink samples that still shape the output, and the array time up to which DAC samples have left. -/
  txBlocks : List TxBlock
  txDone : Nat
  /-- How many free values have been drawn (the model's own, DESIGN CHOICE, log entry 27). -/
  free : Nat
  beam : BeamState
  fh : FhState
  /-- The work of H0 to H135, the alcoves, and the flits in the corridors in order of sending. -/
  halls : List Hall
  alcoves : List Alcove
  flits : List Flit
  /-- Router outputs, as 8 × tile + port, with the grants in a row that their lower classes have waited through: of C-0 by C-1, C-2, C-3, of C-1
  by C-2, C-3, of C-2 by C-3 (R362). -/
  routers : List (Nat × List Nat)
  stair : StairState
  ota : OtaState
  recov : RecState
  energy : EnergyState
  hk : HkState
  /-- Instants that are armed. -/
  timers : List (Timer × Nat)
  /-- Everything sent so far, oldest first. -/
  out : List Output
  /-- The commands that wait, first in, first out. -/
  pending : List Instr
deriving DecidableEq, Repr

/-- No meaning stops with a fault: every command the table lists has an effect (DEDUCED, log entry 4). -/
inductive Fault where
  /-- Raised by no meaning; the constructor keeps the type inhabited. Safe. -/
  | none
deriving DecidableEq, Repr

/-- Why a command has no outcome. -/
inductive Refusal where
  /-- Raised by an arm of `exec` whose command has no meaning yet. Safe: the run stops. -/
  | notModelled (mnemonic : String)
deriving DecidableEq, Repr

/-- The state at the release of RESET_N of a new device: registers at their reset values (R697), an erased keep, customer OTP all
0 (R684), no image (R89). -/
def State.reset : State where
  now := 0
  regs := [(0x10, 0x0220FF00)]
  mem := []
  trims := []
  trimsRx := []
  trimsDelay := []
  trimsTone := []
  trimsLoaded := false
  trimsBad := []
  chans := List.replicate 9 HostChan.reset
  sessions := List.replicate 8 none
  keep := Keep.erased
  sec := Security.reset
  image := ImageState.reset
  boot := BootState.reset
  txn := TxnState.reset
  radio := RadioState.reset
  clock := ClockState.reset
  log := []
  intN := false
  faultN := false
  carriers := List.replicate 8 CarrierState.off
  cap := { armed := false, recording := false, ctl := 0, trig := 0, start := 0, data := [] }
  obs := List.replicate 8 ObsGroup.reset
  obsPath := List.replicate 64 ObsPath.reset
  gates := []
  txBlocks := []
  txDone := 0
  free := 0
  beam := BeamState.reset
  fh := FhState.reset
  halls := (List.range 136).map Hall.empty
  alcoves := List.replicate 8 { serves := none, retired := false }
  flits := []
  routers := []
  stair := StairState.reset
  ota := OtaState.reset
  recov := RecState.reset
  energy := EnergyState.reset
  hk := HkState.reset
  timers := []
  out := []
  pending := []

end Sys2Proof.Machine
end

