-- ==== Sys2Proof/Machine/Ops.lean ====
section
/-!
DEFINITION. The operations every meaning uses: reading and writing register fields (R4 to R7), time (R599 to R601), armed instants,
records and notices (R544 to R546, R668, R669), the pins INT_N and FAULT_N, and shared memory by window offset (R696).
-/

namespace Sys2Proof.Machine

open Sys2Proof

/-! ### Register fields -/

/-- The stored word of a register. -/
def State.word (s : State) (a : Nat) : Word := RegFile.read s.regs a

/-- Store a whole register word. -/
def State.setWord (s : State) (a : Nat) (v : Word) : State := { s with regs := RegFile.write s.regs a v }

/-- The value of a field. -/
def State.get (s : State) (f : Fld) : Nat := getBits (s.word f.addr) f.lo f.width

/-- The field's value as a truth value: not zero. -/
def State.flag (s : State) (f : Fld) : Bool := s.get f != 0

/-- The signed value of a field (R17). -/
def State.getS (s : State) (f : Fld) : Int := signed f.width (s.get f)

/-- Set a field, modulo its width. -/
def State.put (s : State) (f : Fld) (v : Nat) : State := s.setWord f.addr (setBits (s.word f.addr) f.lo f.width v)

/-- Set a one-bit field. -/
def State.putB (s : State) (f : Fld) (b : Bool) : State := s.put f (b2n b)

/-- Set a signed field, modulo its width. -/
def State.putS (s : State) (f : Fld) (x : Int) : State := s.put f (unsigned f.width x)

/-- Advance a counter that wraps at its width. -/
def State.addTo (s : State) (f : Fld) (n : Nat) : State := s.put f (s.get f + n)

/-- Advance a wrapping counter by one. -/
def State.bump (s : State) (f : Fld) : State := s.addTo f 1

/-- Advance a counter that saturates at its largest value. -/
def State.bumpSat (s : State) (f : Fld) : State := s.put f (min (s.get f + 1) (2 ^ f.width - 1))

/-- Set bit `i` of a field. -/
def State.putBit (s : State) (f : Fld) (i : Nat) (b : Bool) : State := s.put f (withBit (s.get f) i b)

/-- Apply an update once for each member of a list, in order. -/
def State.forEach {α : Type} (s : State) (l : List α) (f : α → State → State) : State := l.foldl (fun s a => f a s) s

/-- Apply an update where a condition holds. -/
def State.when (s : State) (b : Bool) (f : State → State) : State := if b then f s else s

/-- Forget every stored register of an address range: its registers return to their reset values (R673, R92). -/
def State.resetRange (s : State) (lo hi : Nat) : State := { s with regs := s.regs.filter fun c => c.1 < lo || hi < c.1 }

/-! ### Time -/

/-- Ticks in `n` nanoseconds, rounded up. -/
def ticksOfNs (n : Nat) : Nat := ceilDiv (n * 98304) 25000

/-- Ticks in `n` microseconds, rounded up. -/
def ticksOfUs (n : Nat) : Nat := ceilDiv (n * 98304) 25

/-- Ticks in `n` milliseconds. -/
def ticksOfMs (n : Nat) : Nat := n * 3932160

/-- Ticks in a second. -/
def ticksPerSecond : Nat := 3932160000

/-- Ticks in a planning slot, which is half a subframe. -/
def planningSlot : Nat := 1966080

/-- Slots of ended sessions return to FREE (R517). -/
def State.freeDue (s : State) : State :=
  let at0 := s.now
  { s with txn := { s.txn with slots := s.txn.slots.map fun x => match x.freeAt with
      | some t => if t ≤ at0 then TxnSlot.free else x
      | none => x } }

/-- The time of a command: time never runs backwards; what has become due by it (R517) has happened. -/
def State.atTime (s : State) (t : Nat) : State := State.freeDue { s with now := max s.now t }

/-- Array time in ticks since its epoch (R599, R603); 0 before it starts. -/
def State.arrayNow (s : State) : Nat :=
  if s.clock.started then s.clock.frozen.getD ((s.now : Int) + s.clock.offset).toNat else 0

/-- The array time of an instant of the model's ruler. -/
def State.arrayAt (s : State) (t : Nat) : Nat := ((t : Int) + s.clock.offset).toNat

/-- The instant of the model's ruler at which array time reaches a value. -/
def State.instantOf (s : State) (a : Nat) : Nat := ((a : Int) - s.clock.offset).toNat

/-- The halves of an array-time value: ticks within the second, seconds (R599). -/
def timeLo (a : Nat) : Nat := a % ticksPerSecond
def timeHi (a : Nat) : Nat := a / ticksPerSecond

/-- An array-time value from its two halves. -/
def timeOf (lo hi : Nat) : Nat := hi * ticksPerSecond + lo

/-- An array-time value as eight bytes in the layout of TIME_LO and TIME_HI (R599). -/
def timeBytes (a : Nat) : List Byte := leBytes 4 (timeLo a) ++ leBytes 4 (timeHi a)

/-! ### Armed instants -/

/-- When an instant is armed for. -/
def State.dueAt (s : State) (x : Timer) : Option Nat := (s.timers.find? fun e => decide (e.1 = x)).map fun e => e.2

/-- Disarm. -/
def State.disarm (s : State) (x : Timer) : State := { s with timers := s.timers.filter fun e => !decide (e.1 = x) }

/-- Arm for an instant, replacing an earlier arming. -/
def State.arm (s : State) (x : Timer) (t : Nat) : State := { s.disarm x with timers := (s.disarm x).timers ++ [(x, t)] }

/-- Is the instant armed? -/
def State.armed (s : State) (x : Timer) : Bool := (s.dueAt x).isSome

/-- Has the armed instant come? -/
def State.due (s : State) (x : Timer) : Bool :=
  match s.dueAt x with
  | some t => t ≤ s.now
  | none => false

/-! ### Output -/

/-- Send one output. -/
def State.emit (s : State) (o : Output) : State := { s with out := s.out ++ [o] }

/-! ### Lists inside the state -/

/-- The host channel's copies. -/
def State.chan (s : State) (ch : Nat) : HostChan := s.chans.getD ch HostChan.reset

/-- Change a host channel's copies. -/
def State.modChan (s : State) (ch : Nat) (f : HostChan → HostChan) : State := { s with chans := s.chans.modify ch f }

/-- A session, if open; `n` is the session number less one. -/
def State.session (s : State) (n : Nat) : Option Session := s.sessions.getD n none

/-- Replace a session. -/
def State.setSession (s : State) (n : Nat) (x : Option Session) : State := { s with sessions := s.sessions.set n x }

/-- A path's internal state. -/
def State.path (s : State) (p : Nat) : PathState := s.radio.paths.getD p PathState.reset

/-- Change a path's internal state. -/
def State.modPath (s : State) (p : Nat) (f : PathState → PathState) : State :=
  { s with radio := { s.radio with paths := s.radio.paths.modify p f } }

/-- An LO bank. -/
def State.bank (s : State) (b : Nat) : LoBank := s.radio.banks.getD b LoBank.reset

/-- Change an LO bank. -/
def State.modBank (s : State) (b : Nat) (f : LoBank → LoBank) : State :=
  { s with radio := { s.radio with banks := s.radio.banks.modify b f } }

/-- A transaction slot's internal state. -/
def State.slot (s : State) (n : Nat) : TxnSlot := s.txn.slots.getD n TxnSlot.free

/-- Change a transaction slot's internal state. -/
def State.modSlot (s : State) (n : Nat) (f : TxnSlot → TxnSlot) : State :=
  { s with txn := { s.txn with slots := s.txn.slots.modify n f } }

/-! ### Power state (R571 to R590) -/

/-- The codes of POWER.STATUS.state. -/
def powerActive : Nat := 0
def powerQuiet : Nat := 1
def powerEntering : Nat := 2
def powerIdle : Nat := 3
def powerDoze : Nat := 4
def powerDeep : Nat := 5
def powerWaking : Nat := 6
def powerWakeFailed : Nat := 7
def powerThermalOff : Nat := 8

/-- The present power state. -/
def State.power (s : State) : Nat := s.get Reg.POWER.STATUS.state

/-- From the acceptance of a power request until the return to ACTIVE (R573). -/
def State.away (s : State) : Bool := s.power != powerActive && s.power != powerQuiet

/-- What arrives on a link in IDLE wakes the part as the activity source of that link, where it is enabled (R576, R577). -/
def State.idleWake (s : State) (src : Nat) : State :=
  if s.power == powerIdle && (s.get Reg.POWER.WAKE_EN.sources).testBit src then
    { s.put Reg.POWER.STATUS.state powerWaking with energy := { s.energy with latched := withBit s.energy.latched src true } }
  else if s.power == powerWaking && s.energy.goal == 1 && (s.get Reg.POWER.WAKE_EN.sources).testBit src then
    { s with energy := { s.energy with latched := withBit s.energy.latched src true } }
  else s

/-! ### Notices and records -/

/-- The bits of HOST.INT_STATUS (R669). -/
inductive Notice where
  | fault | degradation | event | topology | retention | alarm | image | wake
deriving DecidableEq, Repr

/-- The bit of a notice. -/
def Notice.bit : Notice → Nat
  | .fault => 0
  | .degradation => 1
  | .event => 2
  | .topology => 3
  | .retention => 4
  | .alarm => 5
  | .image => 6
  | .wake => 7

/-- Mark a NOTIFY due for every open session whose mask holds a bit of `bits` (R668). -/
def State.notifyDue (s : State) (bits : Nat) : State :=
  { s with sessions := (List.range s.sessions.length).map fun n =>
      match s.session n with
      | some x => if (s.chan (n + 1)).notifyMask &&& bits != 0 then some { x with notifyDue := true } else some x
      | none => none }

/-- Raise a notice: its bit sets, and a NOTIFY becomes due where a mask holds the bit (R668, R669). -/
def State.notice (s : State) (k : Notice) : State :=
  (s.put ⟨Reg.HOST.INT_STATUS.fault.addr, k.bit, 1⟩ 1).notifyDue (2 ^ k.bit)

/-- INT_N is asserted while a bit of INT_STATUS and its bit of INT_ENABLE are both set (R670). -/
def State.intAsserted (s : State) : Bool :=
  (s.get Reg.HOST.INT_STATUS.word &&& s.get Reg.HOST.INT_ENABLE.bits) != 0

/-- FAULT_N is asserted while a function is wedged, or in WAKE_FAILED or THERMAL_OFF (R671). -/
def State.faultAsserted (s : State) : Bool :=
  s.flag Reg.RECOVERY.STATUS.wedged_any || s.power == powerWakeFailed || s.power == powerThermalOff

/-- Record kinds (R544). -/
inductive Kind where
  | fault | degradation | event | topology | retention | wedged
deriving DecidableEq, Repr

/-- The kind's code in word 3. -/
def Kind.code : Kind → Nat
  | .fault => 1
  | .degradation => 2
  | .event => 3
  | .topology => 4
  | .retention => 5
  | .wedged => 6

/-- The notice that accompanies a record of the kind (R669). -/
def Kind.notice : Kind → Notice
  | .fault => .fault
  | .degradation => .degradation
  | .event => .event
  | .topology => .topology
  | .retention => .retention
  | .wedged => .alarm

/-- What a record says beside its sequence number and time (R544); spare 0xFFFF names none. -/
structure Rec where
  kind : Kind
  cls : Nat := 0
  unit : Nat
  inst : Nat := 0
  cause : Nat := 0
  action : Nat := 0
  spare : Nat := 0xFFFF
  missed : Nat := 0
  degraded : Nat := 0
  detail : Nat := 0
  tenths : Nat := 0
  carriers : Nat := 0
  /-- Array time of detection, where it lies before the record. -/
  since : Option Nat := none
deriving DecidableEq, Repr

/-- The words of a record (R544). -/
def LogRecord.words (r : LogRecord) : List Word :=
  [BitVec.ofNat 32 r.seq, BitVec.ofNat 32 (timeLo r.time), BitVec.ofNat 32 (timeHi r.time),
   BitVec.ofNat 32 (r.kind % 16 * 2 ^ 28 + r.cls % 256 * 2 ^ 20 + r.unit % 256 * 2 ^ 12 + r.inst % 4096),
   BitVec.ofNat 32 (r.cause % 256 * 2 ^ 24 + r.action % 256 * 2 ^ 16 + r.spare % 65536),
   BitVec.ofNat 32 (r.missed % 65536 * 2 ^ 16 + r.degraded % 65536), BitVec.ofNat 32 r.detail,
   BitVec.ofNat 32 (min r.tenths 65535 * 2 ^ 16 + r.carriers % 256 * 2 ^ 8)]

/-- The unit codes of R740 and the capability IDs of R118. -/
def unitDevice : Nat := 0xF0
def unitAtrium : Nat := 0xF1
def unitMemory : Nat := 0xF2
def unitCorridor : Nat := 0xF3
def unitClock : Nat := 0xF4
def unitKeep : Nat := 0xF5
def unitPmbus : Nat := 0xF6
def unitPath : Nat := 0x01
def unitTxFront : Nat := 0x02
def unitDpd : Nat := 0x03
def unitOfdm : Nat := 0x04
def unitBeam : Nat := 0x05
def unitSolver : Nat := 0x06
def unitHall : Nat := 0x07
def unitFronthaul : Nat := 0x08
def unitStair : Nat := 0x09
def unitOta : Nat := 0x0A
def unitTxn : Nat := 0x0B
def unitRecovery : Nat := 0x0C
def unitEnergy : Nat := 0x0D
def unitHk : Nat := 0x0E
def unitSecurity : Nat := 0x0F

/-- The keep can take a log record: the housekeeping island is powered in every state but a shutdown (R546, R591). -/
def State.keepAvailable (s : State) : Bool := s.power != powerThermalOff

/-- A record copied to the fault log of the keep (R546, R680): it waits for its page. -/
def State.keepLog (s : State) (r : LogRecord) : State :=
  if s.keepAvailable then
    let since := if s.keep.logBuffer.isEmpty then s.now else s.keep.logSince
    let s := { s with keep := { s.keep with logBuffer := s.keep.logBuffer ++ [r], logSince := since } }
    s.arm .logPage (if 7 ≤ s.keep.logBuffer.length then s.now else since + ticksOfMs 100)
  else s.bump Reg.RECOVERY.KEEP_LOST.word

/-- Write a record: its sequence number is assigned, it enters the ring, LOG_HEAD advances, kinds FAULT, RETENTION and WEDGED are
copied to the keep (R544, R546); a fault that no symbol was missed for counts as absorbed. No notice is raised. -/
def State.writeRecord (s : State) (x : Rec) : State :=
  let seq := (s.get Reg.RECOVERY.LOG_HEAD.word + 1) % 2 ^ 32
  let r : LogRecord := { seq := seq, time := x.since.getD s.arrayNow, kind := x.kind.code, cls := x.cls, unit := x.unit, inst := x.inst,
                         cause := x.cause, action := x.action, spare := x.spare, missed := x.missed, degraded := x.degraded,
                         detail := x.detail, tenths := x.tenths, carriers := x.carriers }
  let s := { s with log := (r :: s.log).take 256 }
  let s := s.put Reg.RECOVERY.LOG_HEAD.word seq
  match x.kind with
  | .fault => (s.when (x.missed == 0) fun s => s.bump Reg.RECOVERY.FAULTS.word).keepLog r
  | .retention => s.keepLog r
  | .wedged => s.keepLog r
  | _ => s

/-- Write a record and then raise the notice of its kind (R58, R544, R669). -/
def State.record (s : State) (x : Rec) : State := (s.writeRecord x).notice x.kind.notice

/-- The functions of RECOVERY.WEDGED, by bit. -/
inductive Function where
  | atrium | beam | corridors | loA | loB | cnv | halls | memory | fronthaul | stair
deriving DecidableEq, Repr

/-- The function's bit. -/
def Function.bit : Function → Nat
  | .atrium => 0
  | .beam => 1
  | .corridors => 2
  | .loA => 3
  | .loB => 4
  | .cnv => 5
  | .halls => 6
  | .memory => 7
  | .fronthaul => 8
  | .stair => 9

/-- Has recovery given the function up? -/
def State.isWedged (s : State) (f : Function) : Bool := s.flag ⟨Reg.RECOVERY.WEDGED.word.addr, f.bit, 1⟩

/-- A function that recovery cannot restore: its bit and wedged_any set, then a WEDGED record and the alarm notice (R543). -/
def State.wedge (s : State) (f : Function) (x : Rec) : State :=
  if s.isWedged f then s
  else
    let s := s.put ⟨Reg.RECOVERY.WEDGED.word.addr, f.bit, 1⟩ 1
    let s := s.put Reg.RECOVERY.STATUS.wedged_any 1
    s.record { x with kind := .wedged, action := 5 }

/-- The pins INT_N and FAULT_N follow the state (R670, R671). -/
def State.drivePins (s : State) : State := { s with intN := s.intAsserted, faultN := s.faultAsserted }

/-! ### The settings in force for each sample (R120, R184, R234) -/

/-- How far back the settings of samples are kept, in ms (DESIGN CHOICE, log entry 56). -/
def shotMs : Nat := 100

/-- The settings of the sample streams as they stand. -/
def State.shot (s : State) : Shot :=
  { since := s.arrayNow, regs := s.regs, trimsRx := s.trimsRx, paths := s.radio.paths, blank := s.radio.blank, carriers := s.carriers,
    running := s.image.running, mem := s.mem }

/-- Settings, newest first, without those that no sample after `a` had. -/
def pruneShots (a : Nat) : List Shot → List Shot
  | [] => []
  | x :: xs => if a < x.since then x :: pruneShots a xs else [x]

/-- Once array time runs, the settings that a command leaves are those of the samples from its array time on. -/
def State.recordShot (s : State) : State :=
  if s.clock.started then
    let old := pruneShots (s.arrayNow - ticksOfMs shotMs) (s.radio.shots.filter fun x => decide (x.since < s.arrayNow))
    { s with radio := { s.radio with shots := s.shot :: old } }
  else s

/-- The state with the settings of a shot in place of the present ones. -/
def State.withShot (s : State) (x : Shot) : State :=
  { s with regs := x.regs, trimsRx := x.trimsRx, carriers := x.carriers, mem := x.mem, image := { s.image with running := x.running },
           radio := { s.radio with paths := x.paths, blank := x.blank } }

/-- The state with the settings that were in force for samples at array time `a`: the present ones from now on, the oldest ones known
before them. -/
def State.asOf (s : State) (a : Nat) : State :=
  if s.arrayNow ≤ a then s
  else match s.radio.shots.find? fun x => decide (x.since ≤ a) with
    | some x => s.withShot x
    | none => match s.radio.shots.getLast? with
      | some x => s.withShot x
      | none => s

/-- The states whose settings were in force for samples from array time `a` to before `b`. -/
def State.over (s : State) (a b : Nat) : List State :=
  s.asOf a :: (s.radio.shots.filter fun x => decide (a < x.since) && decide (x.since < b)).map s.withShot ++
    if a < s.arrayNow && s.arrayNow < b then [s] else []

/-- The end of every command: the settings of the samples that follow are recorded, and the pins follow the state. -/
def State.settled (s : State) : State := s.recordShot.drivePins

/-- The end of every command: the block goes on. -/
def finish (s : State) : Host.Outcome State Fault Refusal := .next s.settled

/-! ### Recoveries in progress (R536) -/

/-- A hall whose work is being replayed. -/
def State.replaying (s : State) (h : Nat) : Bool := s.recov.running.any fun r => r.cls == 1 && r.inst == h

/-- The recoveries that hold work of a carrier. -/
def State.holders (s : State) (c : Nat) : List Recov := s.recov.running.filter fun r => r.mask.testBit c

/-- Is a stage holding back the carrier's work (R45)? -/
def State.held (s : State) (c : Nat) : Bool := !(s.holders c).isEmpty

/-! ### Shared memory by window offset (R74, R696) -/

/-- Bytes of a bank. -/
def bankBytes : Nat := 0x20000

/-- Bytes of the window. -/
def windowBytes : Nat := 768 * 0x20000

/-- The first address of the window. -/
def windowBase : Nat := 0x10000000

/-- Is the address in the shared-memory window? -/
def inWindow (a : Nat) : Bool := decide (windowBase ≤ a) && decide (a < windowBase + windowBytes)

/-- Read bytes of shared memory at a window offset. -/
def State.memRead (s : State) (off n : Nat) : List Byte := Memory.readBytes s.mem off n

/-- Write bytes of shared memory at a window offset. -/
def State.memWrite (s : State) (off : Nat) (bs : List Byte) : State := { s with mem := Memory.writeBytes s.mem off bs }

/-- A 32-bit word of shared memory. -/
def State.memWord (s : State) (off : Nat) : Nat := leNat (s.memRead off 4)

/-! ### Random bytes (R663, R688) -/

/-- Draw `n` bytes from the random source. -/
def State.randomBytes (s : State) (n : Nat) : List Byte := (List.range n).map fun i => Config.random (s.sec.drawn + i)

/-- The source has been drawn on. -/
def State.drew (s : State) (n : Nat) : State := { s with sec := { s.sec with drawn := s.sec.drawn + n } }

/-! ### Arbitration by class (R362, R442) -/

/-- The place of a pair of classes, `j` above `k`, among the counts. -/
def runPlace (j k : Nat) : Nat := [0, 0, 1, 2, 0, 0, 3, 4, 0, 0, 0, 5].getD (4 * j + k) 0

/-- How many grants to class `j` in a row class `k` has waited through. -/
def runOf (runs : List Nat) (j k : Nat) : Nat := runs.getD (runPlace j k) 0

/-- The class that is granted next among those that wait, from class `j` on: strict order, but a class that has waited through 31 grants in a
row to one above it comes before that (R362, R442; DEDUCED, log entry 75). -/
def grantFrom (runs : List Nat) (waits : List Nat) : Nat → Nat → Nat
  | 0, j => j
  | n + 1, j =>
    if !waits.contains j then grantFrom runs waits n (j + 1)
    else
      let due := waits.filter fun k => decide (j < k) && decide (31 ≤ runOf runs j k)
      if due.isEmpty then j else grantFrom runs due n (j + 1)

/-- The counts after a grant to class `g`: it goes on for those that wait below, and ends for those that it lies above. -/
def runsAfter (runs : List Nat) (waits : List Nat) (g : Nat) : List Nat :=
  ([(0, 1), (0, 2), (0, 3), (1, 2), (1, 3), (2, 3)] : List (Nat × Nat)).map fun p =>
    if g < p.1 then runOf runs p.1 p.2 else if g = p.1 && waits.contains p.2 then min 31 (runOf runs p.1 p.2 + 1) else 0

end Sys2Proof.Machine
end

