-- ==== Sys2Proof/Machine/RegStore.lean ====
section
/-!
DEFINITION. What a write stores (R7): each field by its access code, and then the limits that a field's own meaning puts on the
value it stores. The same limits apply to a staged value when it takes effect.
-/

namespace Sys2Proof.Machine

open Sys2Proof

/-! ### Limits on one field of a word -/

/-- A value above `m` is stored as `m`. -/
def capF (lo width m : Nat) (w : Word) : Word := if m < getBits w lo width then setBits w lo width m else w

/-- A value below `m` is stored as `m`. -/
def floorF (lo width m : Nat) (w : Word) : Word := if getBits w lo width < m then setBits w lo width m else w

/-- A value that `bad` holds for is stored as `v`. -/
def asF (lo width : Nat) (bad : Nat → Bool) (v : Nat) (w : Word) : Word :=
  if bad (getBits w lo width) then setBits w lo width v else w

/-- A value that `bad` holds for is ignored: the previous one remains. -/
def keepF (old : Word) (lo width : Nat) (bad : Nat → Bool) (w : Word) : Word :=
  if bad (getBits w lo width) then setBits w lo width (getBits old lo width) else w

/-- The offset of an address within a replicated block. -/
def within (a base last : Nat) : Option Nat := if base ≤ a && a ≤ last then some ((a - base) % 0x1000) else none

/-! ### The limits, block by block -/

/-- Limits of the PATH registers (R135, R123, R125). -/
def legalPath (o : Nat) (old w : Word) : Word :=
  if o = 0x008 then capF 0 8 160 w
  else if o = 0x00C then capF 0 6 42 (capF 8 6 42 w)
  else if o = 0x010 then keepF old 0 2 (· == 3) (capF 16 8 31 w)
  else w

/-- Limits of the GROUP registers (R140, R147, R211, R212, R220). -/
def legalGroup (o : Nat) (old w : Word) : Word :=
  if o = 0x000 then capF 8 5 26 (floorF 8 5 1 w)
  else if o = 0x014 then capF 16 9 393 (capF 0 9 196 w)
  else if o = 0x30C then keepF old 0 2 (· == 3) w
  else if o = 0x314 then capF 30 2 2 w
  else if o = 0x318 then floorF 0 8 1 w
  else w

/-- The comb spacing K of a sounding control word (R260). -/
def combOf (w : Word) : Nat := [2, 4, 8, 8].getD (getBits w 14 2) 8

/-- Limits of the CARRIER registers (R259, R260): the comb offset is stored modulo K, the PRB count within the carrier's width. -/
def legalCarrier (o : Nat) (ctl : Word) (width : Nat) (w : Word) : Word :=
  if o = 0x100 then capF 14 2 2 w
  else if o = 0x104 then
    let w := setBits w 29 3 (getBits w 29 3 % combOf ctl)
    capF 16 9 (width - getBits w 0 9) w
  else w

/-- Limits of the POWER, THERMAL and HK registers (R551, R562, R586, R589, R625). -/
def legalPower (a : Nat) (old w : Word) : Word :=
  if a = 0x20018 then capF 0 32 75000 (floorF 0 32 5000 w)
  else if a = 0x2001C then capF 0 16 1000 (floorF 0 16 1 w)
  else if a = 0x2002C then
    let w := floorF 16 16 720 w
    let w := floorF 0 16 600 w
    capF 0 16 (getBits w 16 16) w
  else if a = 0x20200 then capF 0 16 950 (floorF 0 16 720 w)
  else if a = 0x38004 then capF 24 8 125 w
  else if a = 0x38008 then floorF 16 8 1 w
  else if a = 0x30000 then keepF old 0 2 (· == 3) (floorF 8 8 1 w)
  else w

/-- Limits of the CLOCK registers (R597, R603, R622); FREE is ignored on a landing with a parent. -/
def legalClock (a : Nat) (parent : Bool) (old w : Word) : Word :=
  if a = 0x50000 then keepF old 0 2 (fun v => parent && v == 1) (asF 0 2 (2 ≤ ·) 0 w)
  else if a = 0x5000C then keepF old 0 2 (· == 3) w
  else if a = 0x50030 then keepF old 0 2 (· == 3) (capF 4 4 4 (floorF 4 4 1 w))
  else w

/-- Reduce `main` until the sum of the other taps and main is at most 63 (R416, R430). -/
def reduceMain (lo width others : Nat) (w : Word) : Word := capF lo width (63 - others) w

/-- The magnitude of a signed field. -/
def magOf (w : Word) (lo width : Nat) : Nat := (signed width (getBits w lo width)).natAbs

/-- Limits of the FRONTHAUL registers (R409, R410, R416, R418). -/
def legalFronthaul (a : Nat) (old w : Word) : Word :=
  if a = 0x400000 then keepF old 0 2 (· == 3) (capF 16 16 9216 (floorF 16 16 1518 w))
  else if a = 0x400010 then capF 0 6 40 (floorF 0 6 4 w)
  else if a = 0x400014 then keepF old 0 2 (· == 3) (asF 8 8 (fun v => v < 24 || 43 < v) 24 w)
  else if 0x400400 ≤ a && a < 0x400500 && (a - 0x400400) % 0x20 == 0 then
    let w := capF 16 5 16 (capF 0 5 24 w)
    reduceMain 8 6 (getBits w 16 5 + getBits w 0 5) w
  else if 0x400400 ≤ a && a < 0x400500 && (a - 0x400400) % 0x20 == 8 then
    asF 16 5 (fun v => v != 0 && v < 10) 0 w
  else w

/-- Limits of the STAIR registers (R430, R460, R463). -/
def legalStair (a : Nat) (w : Word) : Word :=
  if a = 0x480000 then floorF 8 8 1 w
  else if a = 0x480010 then floorF 0 8 1 (capF 8 8 64 (floorF 8 8 1 w))
  else if 0x480400 ≤ a && a < 0x480600 && (a - 0x480400) % 0x20 == 0 then
    reduceMain 12 6 (magOf w 24 6 + magOf w 18 6 + magOf w 6 6 + magOf w 0 6) w
  else w

/-- Limits of the OTA registers (R471, R479, R497). -/
def legalOta (a : Nat) (old w : Word) : Word :=
  if a = 0x500000 then keepF old 0 2 (· == 3) (capF 10 6 40 (floorF 24 8 1 w)) else w

/-- The value that a register stores for a written word: the word within the limits that the register's fields state (R7). -/
def State.legal (s : State) (parent : Bool) (width : Nat → Nat) (a : Nat) (old w : Word) : Word :=
  if 0x100000 ≤ a && a ≤ 0x13FFFF then legalPath (a % 0x1000) old w
  else if 0x140000 ≤ a && a ≤ 0x147FFF then legalGroup (a % 0x1000) old w
  else if 0x200000 ≤ a && a ≤ 0x207FFF then
    let c := (a - 0x200000) / 0x1000
    legalCarrier (a % 0x1000) (s.word (0x200100 + 0x1000 * c)) (width c) w
  else if 0x20000 ≤ a && a ≤ 0x3FFFF then legalPower a old w
  else if 0x50000 ≤ a && a ≤ 0x5FFFF then legalClock a parent old w
  else if a = 0x6000C then capF 0 16 1000 (floorF 0 16 60 w)
  else if a = 0x70000 then capF 0 6 60 w
  else if a = 0x10020 then floorF 24 8 1 w
  else if a = 0x288000 then floorF 0 16 1 w
  else if 0x288020 ≤ a && a < 0x288040 then capF 0 16 2000 (floorF 0 16 50 w)
  else if 0x400000 ≤ a && a ≤ 0x40FFFF then legalFronthaul a old w
  else if 0x480000 ≤ a && a ≤ 0x48FFFF then legalStair a w
  else if 0x500000 ≤ a && a ≤ 0x50FFFF then legalOta a old w
  else w

/-! ### Storing by access code (R7) -/

/-- One field of the stored word after a write. -/
def storeField (locked : Bool) (v : Word) (x : Word) (f : RegField) : Word :=
  match f.access with
  | .rw => setBits x f.lo f.width (getBits v f.lo f.width)
  | .rwl => if locked then x else setBits x f.lo f.width (getBits v f.lo f.width)
  | .rw1c => setBits x f.lo f.width (getBits x f.lo f.width &&& (2 ^ f.width - 1 - getBits v f.lo f.width))
  | .ro => x
  | .rc => x
  | .wo => x
  | .rws => x

/-- The RWS fields of a staged word put in force. -/
def stagedField (v : Word) (x : Word) (f : RegField) : Word :=
  match f.access with
  | .rws => setBits x f.lo f.width (getBits v f.lo f.width)
  | _ => x

/-- The fields of the register at an address, none where undefined. -/
def fieldsAt (a : Nat) : List RegField := ((descAt a).map fun d => d.fields).getD []

/-- Has the register a field of the access code? -/
def hasAccess (a : Nat) (x : Access) : Bool := (fieldsAt a).any fun f => decide (f.access = x)

/-- Has the landing a parent in the tree? -/
def State.hasParent (s : State) : Bool := s.flag Reg.STAIR.STATUS.has_parent

/-- Is the structure image locked (R95)? -/
def State.imageLocked (s : State) : Bool := s.flag Reg.IMAGE.STATUS.locked

/-! ### Host access (R650, R660) -/

/-- Does a block answer in the present power state (R660)? -/
def State.answers (s : State) (a : Nat) : Bool :=
  let asleep := s.power == powerDoze || s.power == powerDeep || s.power == powerWakeFailed || s.power == powerThermalOff
  !asleep || a < 0x50000 || (0x80000 ≤ a && a ≤ 0x82FFF)

/-- Can the channel carry an access: the vestibule port once the part has left reset (R714), or an open SXM session? -/
def State.channelOpen (s : State) (ch : Nat) : Bool :=
  !decide (s.boot.phase = .held) && !decide (s.boot.phase = .waitPower) && decide (s.boot.start ≤ s.now) && (ch == 0 || (s.session (ch - 1)).isSome)

/-- A host's command through a register: nothing happens where the channel is not open or the block does not answer (R660). -/
def State.hostCmd (s : State) (t ch a : Nat) (f : State → State) : State :=
  let s := s.atTime t
  if s.channelOpen ch && s.answers a then f s else s

end Sys2Proof.Machine
end

