-- ==== Sys2Proof/Machine/Trims.lean ====
section
/-!
DEFINITION. The value of a TRIM register (R644 to R647): written by the host since the last copy, else the factory value, else, where
its OTP word failed its check, the nominal value of the register table.
-/

namespace Sys2Proof.Machine

open Sys2Proof

/-- The nominal value of the TRIM register at an address. -/
def trimNominal (a : Nat) : Word :=
  let o := a - 0x40000
  if o = 0x10 then 0x200
  else if o = 0x14 || o = 0x18 then 0x80000000
  else if 0x20 ≤ o && o ≤ 0x34 then 0x1000
  else if o = 0x40 then 0x4000
  else if 0x100 ≤ o && o ≤ 0x15C then 0x3700FC40
  else if 0x200 ≤ o && o ≤ 0x23C then 0x1000
  else if 0x1000 ≤ o then BitVec.ofNat 32 (o % 0x100 / 4 * 256)
  else 0

/-- The value that the copy from OTP loads into a TRIM register (R644). -/
def State.trimLoaded (s : State) (a : Nat) : Word := if s.trimsBad.contains a then trimNominal a else Config.otpTrim a

/-- The value of a TRIM register. -/
def State.trimWord (s : State) (a : Nat) : Word :=
  if s.trimsLoaded then (assoc? s.trims a).getD (s.trimLoaded a) else 0

/-- A signed or unsigned field of a TRIM register. -/
def State.trim (s : State) (f : Fld) : Nat := getBits (s.trimWord f.addr) f.lo f.width
def State.trimS (s : State) (f : Fld) : Int := signed f.width (s.trim f)

end Sys2Proof.Machine
end

