-- ==== Sys2Proof/Machine/Hk.lean ====
section
/-!
DEFINITION. The housekeeping converters and the factory trims (R625 to R648): conversions and readings, the round's entries, the
stand-in, injected conversions, system calibration, and writes of the HK and TRIM registers.
-/

namespace Sys2Proof.Machine

open Sys2Proof

/-! ### Conversions and readings (R625 to R627) -/

/-- The kinds of channel. -/
def isTs (ch : Nat) : Bool := ch < 24
def isCurrent (ch : Nat) : Bool := 0x28 ≤ ch && ch ≤ 0x2D
def isHkIn (ch : Nat) : Bool := 0x40 ≤ ch && ch ≤ 0x4F

/-- Is the channel code valid (R625)? -/
def hkChannel (ch : Nat) : Bool := isTs ch || (0x20 ≤ ch && ch ≤ 0x25) || (0x28 ≤ ch && ch ≤ 0x2E) || (0x30 ≤ ch && ch ≤ 0x32) || isHkIn ch

/-- Largest converter code. -/
def codeMax : Nat := 16383

/-- A conversion before the converter's trim (R626). -/
def converted (v : Int) (ref : Nat) : Int := clampInt 0 codeMax ((v * 16384).fdiv ref)

/-- The trim of a converter, HK-B where `b` (R626). -/
def State.trimmed (s : State) (b : Bool) (c : Int) : Int :=
  let ofs := if b then s.trimS Reg.TRIM.HKB.ofs else s.trimS Reg.TRIM.HKA.ofs
  let gain := if b then s.trim Reg.TRIM.HKB.gain else s.trim Reg.TRIM.HKA.gain
  clampInt 0 codeMax (((c - ofs) * gain).fdiv 32768)

/-- The mean of conversions, truncated toward -∞ (R630). -/
def State.meanCode (s : State) (b : Bool) (inputs : List Int) (ref : Nat) : Nat :=
  ((sumInt (inputs.map fun v => s.trimmed b (converted v ref))).fdiv inputs.length).toNat

/-- A corrected HK_IN code, from the word of SYSCAL_INi (R641). -/
def hkInReading (coef : Word) (code : Nat) : Int :=
  satS 16 ((((code : Int) - (getBits coef 0 14 : Nat)) * (getBits coef 16 16 : Nat)).fdiv 16384)

/-- The reading of a code on a channel (R625, TRIM.TSn, TRIM.RAIL_In). -/
def State.reading (s : State) (coef : Word) (ch code : Nat) : Int :=
  if isTs ch then (code * s.trim (Reg.TRIM.TS.slope ch) / 65536 : Nat) + s.trimS (Reg.TRIM.TS.offset ch)
  else if isCurrent ch then (code * s.trim (Reg.TRIM.RAIL_I.gain (ch - 0x28)) / 4096 : Nat)
  else if ch = 0x32 then code
  else if isHkIn ch then hkInReading coef code
  else Config.millivolts ch code

/-- The coefficients of an input for conversions that start at an instant (R641, R642). -/
def State.coefAt (s : State) (ch at_ : Nat) : Word :=
  let i := ch - 0x40
  let old := s.hk.coefs.getD i (0, 0)
  if at_ < old.1 then old.2 else s.word (Reg.HK.SYSCAL_IN.word i).addr

/-- The instant from which conversions of a channel count. -/
def State.hkFrom (s : State) (ch : Nat) : Nat := s.hk.from_.getD ch 0

/-! ### The entries (R630, R632) -/

/-- The channel of a fixed entry. -/
def fixedChannel (k : Nat) : Nat :=
  if k < 24 then k else if k < 30 then k - 24 + 0x20 else if k < 36 then k - 30 + 0x28 else [0x2E, 0x30, 0x31, 0x32].getD (k - 36) 0x32

/-- What HK.ENTRYk reads for a fixed entry: enabled, its channel, avg 2, settle 4 µs. -/
def fixedEntry (k : Nat) : Word := BitVec.ofNat 32 (0x80000204 + fixedChannel k * 65536)

/-- The word of an entry. -/
def State.entryWord (s : State) (k : Nat) : Word := if k < 40 then fixedEntry k else s.word (Reg.HK.ENTRY.word k).addr

/-- An entry's fields. -/
def entryOn (w : Word) : Bool := getBits w 31 1 == 1
def entryChannel (w : Word) : Nat := getBits w 16 8
def entryAvg (w : Word) : Nat := getBits w 8 3
def entrySettle (w : Word) : Nat := getBits w 0 8

/-- The readings of every channel of a list are stale from now on (R628, R647). -/
def State.staleChannels (s : State) (chs : List Nat) : State :=
  s.forEach ((List.range 96).filter fun k => entryOn (s.entryWord k) && chs.contains (entryChannel (s.entryWord k))) fun k s =>
    s.put (Reg.HK.READ.stale k) 1

/-- Conversions of channels count from an instant on alone. -/
def State.countFrom (s : State) (chs : List Nat) (at_ : Nat) : State :=
  { s with hk := { s.hk with from_ := (List.range 80).map fun ch => if chs.contains ch then max at_ (s.hkFrom ch) else s.hkFrom ch } }

/-- Whether HK_VREF lies outside 1.0 to 1.25 V follows its latest reading (R629). -/
def State.noteVref (s : State) (ch : Nat) (mv : Int) : State :=
  if ch = 0x31 then s.putB Reg.HK.STATUS.vref_range (decide (mv < 1000) || decide (1250 < mv)) else s

/-- An entry's result is posted: a channel whose trim or reference had not settled when the conversions started keeps its reading, stale
(R628, R632, R647). -/
def State.postEntry (s : State) (k ch avg code : Nat) : State :=
  let began := s.now - ticksOfUs (2 ^ avg)
  if began < s.hkFrom ch then s.put (Reg.HK.READ.stale k) 1
  else
    let coef := s.coefAt ch began
    let v := s.reading coef ch code
    let s := ((s.put (Reg.HK.READ.value k) (unsigned 16 v)).put (Reg.HK.READ.stale k) 0).putB (Reg.HK.READ.suspect k) (isHkIn ch && bit coef.toNat 15)
    let s := s.noteVref ch v
    if k < 24 then
      let s : State := { s with hk := { s.hk with codes := s.hk.codes.set k code } }
      s.put (Reg.THERMAL.TS.reading k) (unsigned 16 v)
    else s

/-- HK_ENTRY_DONE: the next entry of the round completes, no sooner than its settle times and conversions allow (R630, R631). -/
def State.entryDone (s : State) (k : Nat) (inputs : List Int) (ref : Nat) : State :=
  match s.hk.left with
  | [] => s
  | (k', ch, avg, due) :: rest =>
    if !s.hk.running || k != k' || s.now < s.hk.start.getD 0 + ticksOfUs due then s
    else
      let s : State := { s with hk := { s.hk with left := rest } }
      s.postEntry k ch avg (s.meanCode s.hk.byB inputs ref)

/-- HK_ENTRY_DONE (R632). -/
def execHkEntryDone (t : Nat) (k : Fin 96) (inputs : List Int) (ref : Nat) (s : State) : Host.Outcome State Fault Refusal :=
  finish ((s.atTime t).entryDone k.val inputs ref)

/-! ### The round's start (R622, R631, R634) -/

/-- How many entries, from entry 0 on, the round serves in the present power state. -/
def State.roundLimit (s : State) : Nat :=
  if s.power == powerThermalOff || s.power == powerWakeFailed then 24
  else if s.power == powerDoze || s.power == powerDeep then 40
  else 96

/-- The entries of a round that begins now: those enabled and served whose channel is valid. -/
def State.roundEntries (s : State) : List Nat :=
  (List.range s.roundLimit).filter fun k => entryOn (s.entryWord k) && hkChannel (entryChannel (s.entryWord k))

/-- The time in µs that entries take. -/
def State.entriesTime (s : State) (l : List Nat) : Nat :=
  sumNat (l.map fun k => entrySettle (s.entryWord k) + 2 ^ entryAvg (s.entryWord k))

/-- The period set, in µs. -/
def State.roundPeriod (s : State) : Nat := s.get Reg.HK.CTL.period * 256 * (if s.power == powerDeep then 8 else 1)

/-- Is a round due? -/
def State.roundDue (s : State) : Bool :=
  match s.hk.start with
  | some t => t + ticksOfUs s.hk.length ≤ s.now
  | none => true

/-- HK_ROUND_START: entries, period and converter are taken up; a period too short stretches; spread spectrum follows its register. -/
def State.roundStart (s : State) : State :=
  if s.hk.running || s.hk.stopped || !s.trimsLoaded || !s.roundDue then s
  else
    let l := s.roundEntries
    let need := s.entriesTime l
    let long := s.roundPeriod < need
    let len := if long then ceilDiv need 256 * 256 else s.roundPeriod
    let order := (List.range l.length).map fun i =>
      let k := l.getD i 0
      (k, entryChannel (s.entryWord k), entryAvg (s.entryWord k), s.entriesTime (l.take (i + 1)))
    let skipped := (List.range 96).filter fun k => entryOn (s.entryWord k) && !hkChannel (entryChannel (s.entryWord k))
    let at0 := s.now
    let byB := s.flag Reg.RECOVERY.STATUS.hkb_standin
    let ssc := s.get ⟨Reg.CLOCK.SSC_CTL.mode.addr, 0, 32⟩
    let s : State := { s with hk := { s.hk with running := true, start := some at0, length := len, byB := byB, left := order },
                              clock := { s.clock with ssc := ssc } }
    (s.putB Reg.HK.STATUS.stretched long).forEach skipped fun k s => s.setWord (Reg.HK.READ.word k).addr 0

/-- HK_ROUND_START (R631). -/
def execHkRoundStart (t : Nat) (s : State) : Host.Outcome State Fault Refusal := finish (s.atTime t).roundStart

/-! ### Drops of injected conversions (R637) -/

/-- The causes of INJ_LAST. -/
def injChannel : Nat := 1
def injPower : Nat := 2
def injStandin : Nat := 3
def injCal : Nat := 4
def injBusy : Nat := 5
def injRef : Nat := 6

/-- A request is dropped: counted, its cause and channel shown. -/
def State.injDrop (s : State) (cause ch : Nat) : State :=
  ((s.bump Reg.HK.INJ_DROP.word).put Reg.HK.INJ_LAST.cause cause).put Reg.HK.INJ_LAST.channel ch

/-- The pending request is dropped. -/
def State.dropPending (s : State) (cause : Nat) : State :=
  match s.hk.injected with
  | none => s
  | some j =>
    let s : State := { s with hk := { s.hk with injected := none } }
    (s.put Reg.HK.INJ_CTL.pending 0).injDrop cause j.channel

/-- HK-B has no power. -/
def State.hkbOff (s : State) : Bool := s.power == powerDeep || s.power == powerThermalOff || s.power == powerWakeFailed

/-- HK-B stands in, or has faulted. -/
def State.hkbTaken (s : State) : Bool := s.flag Reg.RECOVERY.STATUS.hkb_standin || s.flag Reg.HK.STATUS.hkb_fault

/-! ### System calibration (R640 to R643) -/

/-- The results of SYSCAL_STATUS. -/
def calibBusy : Nat := 1
def calibSequence : Nat := 2
def calibStandin : Nat := 3
def calibRef : Nat := 4
def calibCancelled : Nat := 5

/-- A calibration command is over, with a result. -/
def State.calOver (s : State) (code : Nat) : State :=
  let s : State := { s with hk := { s.hk with cal := none } }
  ((s.put Reg.HK.SYSCAL_STATUS.running 0).put Reg.HK.SYSCAL_STATUS.result code).put Reg.HK.SYSCAL_STATUS.done 1

/-- The capture in progress, if there is one, ends with a result. -/
def State.calStopped (s : State) (code : Nat) : State := if s.hk.cal.isSome then s.calOver code else s

/-- The first cause that refuses a command, 0 for none (R643). -/
def State.calRefusal (s : State) (span : Bool) (input : Nat) : Nat :=
  if s.hk.cal.isSome then calibBusy
  else if s.hkbTaken then calibStandin
  else if !s.flag Reg.HK.STATUS.ref_settled then calibRef
  else if span && (assoc? s.hk.zeros input).isNone then calibSequence
  else 0

/-- ZERO or SPAN of the input that SYSCAL_CTL names. -/
def State.calCommand (s : State) (span : Bool) : State :=
  let input := s.get Reg.HK.SYSCAL_CTL.input
  let code := s.calRefusal span input
  if code != 0 then (s.put Reg.HK.SYSCAL_STATUS.result code).put Reg.HK.SYSCAL_STATUS.done 1
  else
    let s := s.dropPending injCal
    let job : SysCal := { input := input, full := s.get Reg.HK.SYSCAL_CTL.fs_code,
                          zero := if span then assoc? s.hk.zeros input else none, at_ := s.now }
    let s : State := { s with hk := { s.hk with cal := some job, zeros := if span then [] else s.hk.zeros } }
    (s.put Reg.HK.SYSCAL_STATUS.running 1).put Reg.HK.SYSCAL_STATUS.done 0

/-- SYSCAL_INi changes; conversions in progress keep the coefficients they started with. -/
def State.setCoefs (s : State) (i : Nat) (w : Word) : State :=
  let a := (Reg.HK.SYSCAL_IN.word i).addr
  let before := (s.now, s.word a)
  ({ s with hk := { s.hk with coefs := s.hk.coefs.set i before } } : State).setWord a w

/-- The coefficients of a SPAN, gain and suspect, from z, f and the expected code (R641, R642). -/
def spanGain (z f : Int) (full : Nat) : Nat := if f ≤ z then 0xFFFF else min 0xFFFF ((full * 16384 : Nat) / (f - z)).toNat
def spanSuspect (z f : Int) (full : Nat) : Bool :=
  decide (((full / 20 : Nat) : Int) < z.natAbs) || decide (10 * (f - z) < (8 * full : Nat)) || decide (((12 * full : Nat) : Int) < 10 * (f - z))

/-- SYSCAL_CAPTURE_DONE: 264 µs of a command that HK-B could serve are over. -/
def State.sysCaptureDone (s : State) (inputs : List Int) (ref : Nat) : State :=
  match s.hk.cal with
  | none => s
  | some j =>
    if s.hkbOff || s.now < max j.at_ (s.hk.bandgapAt.getD 0) + ticksOfUs 264 then s
    else
      let m := s.meanCode true inputs ref
      let s := s.put Reg.HK.SYSCAL_STATUS.mean m
      match j.zero with
      | none =>
        let s : State := { s with hk := { s.hk with zeros := assocSet s.hk.zeros j.input (m : Int) } }
        s.calOver 0
      | some z =>
        let sus := spanSuspect z m j.full
        let w := BitVec.ofNat 32 (spanGain z m j.full * 65536 + b2n sus * 32768 + unsigned 14 z)
        ((s.setCoefs j.input w).putB Reg.HK.SYSCAL_STATUS.suspect sus).calOver 0

/-- SYSCAL_CAPTURE_DONE (R641). -/
def execSyscalCaptureDone (t : Nat) (inputs : List Int) (ref : Nat) (s : State) : Host.Outcome State Fault Refusal :=
  finish ((s.atTime t).sysCaptureDone inputs ref)

/-! ### Faults of the converters (R638, R639) -/

/-- The round stops, and every sensor reads code 0 (R639). -/
def State.stopRounds (s : State) : State :=
  let s : State := { s with hk := { s.hk with stopped := true, left := [], codes := List.replicate 24 0 } }
  s.forEach (List.range 24) fun n s =>
    let v := unsigned 16 (s.reading 0 n 0)
    (s.put (Reg.HK.READ.value n) v).put (Reg.THERMAL.TS.reading n) v

/-- HK-A faults: HK-B stands in from the next round on (R638, class 0x0E). -/
def State.hkaFault (s : State) : State :=
  if s.flag Reg.HK.STATUS.hka_fault then s
  else
    let s := (s.put Reg.HK.STATUS.hka_fault 1).put Reg.RECOVERY.STATUS.hkb_standin 1
    let s := (s.dropPending injStandin).calStopped calibStandin
    let s := s.when (s.flag Reg.HK.STATUS.hkb_fault) State.stopRounds
    s.record { kind := .fault, cls := 0x0E, unit := unitHk, action := 1, spare := 1 }

/-- HK-B faults (R639). -/
def State.hkbFault (s : State) : State :=
  let s := s.put Reg.HK.STATUS.hkb_fault 1
  let s := (s.dropPending injStandin).calStopped calibStandin
  s.when (s.flag Reg.RECOVERY.STATUS.hkb_standin) State.stopRounds

/-- HK_CONVERSION_TIMEOUT: the converter that serves the round has faulted at once, and its round is over (R638; for HK-B standing in,
R639; DEDUCED, log 85). -/
def State.conversionTimeout (s : State) : State :=
  if !s.hk.running then s
  else
    let s : State := { s with hk := { s.hk with left := [] } }
    if s.hk.byB then s.hkbFault else s.hkaFault

/-- HK_CONVERSION_TIMEOUT (R638). -/
def execHkConversionTimeout (t : Nat) (s : State) : Host.Outcome State Fault Refusal := finish (s.atTime t).conversionTimeout

/-! ### Injected conversions (R635 to R637) -/

/-- A request of what INJ_CTL names: dropped on its first cause, or pending. -/
def State.inject (s : State) : State :=
  let ch := s.get Reg.HK.INJ_CTL.channel
  if !hkChannel ch then s.injDrop injChannel ch
  else if s.hkbOff then s.injDrop injPower ch
  else if s.hkbTaken then s.injDrop injStandin ch
  else if s.hk.cal.isSome then s.injDrop injCal ch
  else if s.hk.injected.isSome then s.injDrop injBusy ch
  else if isHkIn ch && !s.flag Reg.HK.STATUS.ref_settled then s.injDrop injRef ch
  else
    let j : Injection := { channel := ch, avg := s.get Reg.HK.INJ_CTL.avg, delay := s.get Reg.HK.INJ_CTL.delay, at_ := s.now }
    ({ s with hk := { s.hk with injected := some j } } : State).put Reg.HK.INJ_CTL.pending 1

/-- The result of the pending request is posted; readings of its channel that were stale no longer are. -/
def State.injPost (s : State) (j : Injection) (began code : Nat) : State :=
  let coef := s.coefAt j.channel began
  let v := s.reading coef j.channel code
  let s : State := { s with hk := { s.hk with injected := none } }
  let s := (s.put Reg.HK.INJ_RESULT.value (unsigned 16 v)).put Reg.HK.INJ_RESULT.channel j.channel
  let s := (s.putB Reg.HK.INJ_RESULT.suspect (isHkIn j.channel && bit coef.toNat 15)).noteVref j.channel v
  let s := if began < s.hkFrom j.channel then s
    else s.forEach ((List.range 96).filter fun k => entryChannel (s.entryWord k) == j.channel) fun k s => s.put (Reg.HK.READ.stale k) 0
  (s.put Reg.HK.INJ_CTL.pending 0).put Reg.HK.INJ_RESULT.done 1

/-- HK_INJECT_DONE: delay, settle time and conversions are over. A request of HK_IN that sampled before the reference had settled is
dropped, and conversions before the band-gap has settled do not count. -/
def State.injectDone (s : State) (inputs : List Int) (ref : Nat) : State :=
  match s.hk.injected with
  | none => s
  | some j =>
    let began := s.now - ticksOfUs (2 ^ j.avg)
    if began < j.at_ + ticksOfUs (j.delay + 4) then s
    else if isHkIn j.channel && decide (began < s.hk.refAt.getD 0) then s.dropPending injRef
    else if began < s.hk.bandgapAt.getD 0 then s
    else s.injPost j began (s.meanCode true inputs ref)

/-- HK_INJECT_DONE (R636). -/
def execHkInjectDone (t : Nat) (inputs : List Int) (ref : Nat) (s : State) : Host.Outcome State Fault Refusal :=
  finish ((s.atTime t).injectDone inputs ref)

/-! ### Writes of the HK registers -/

/-- A write stores the fields of an HK or TRIM register by access code. -/
def State.storeHk (s : State) (a : Nat) (v : Word) : State :=
  let old := s.word a
  s.setWord a (legalPower a old ((fieldsAt a).foldl (storeField s.imageLocked v) old))

/-- The codes of the HK_IN channels. -/
def hkInChannels : List Nat := (List.range 16).map fun i => 0x40 + i

/-- A write of HK.CTL: a change of the reference unsettles it for 200 µs and ends a capture with REF (R628, R643). -/
def State.hkCtl (s : State) (v : Word) : State :=
  let was := s.get Reg.HK.CTL.ref
  let s := s.storeHk Reg.HK.CTL.ref.addr v
  if s.get Reg.HK.CTL.ref = was then s
  else
    let settled := s.now + ticksOfUs 200
    let s : State := { s with hk := { s.hk with refAt := some settled } }
    (((s.put Reg.HK.STATUS.ref_settled 0).countFrom hkInChannels settled).staleChannels hkInChannels).calStopped calibRef

/-- A write of HK.INJ_CTL. -/
def State.hkInj (s : State) (v : Word) : State := (s.storeHk Reg.HK.INJ_CTL.go.addr v).when (getBits v 31 1 == 1) State.inject

/-- A write of HK.SYSCAL_CTL. -/
def State.hkSyscal (s : State) (v : Word) : State :=
  let s := s.storeHk Reg.HK.SYSCAL_CTL.cmd.addr v
  let cmd := getBits v 30 2
  if cmd = 1 then s.calCommand false
  else if cmd = 2 then s.calCommand true
  else if cmd = 3 then s.calStopped calibCancelled
  else s

/-- A write of an HK register. -/
def State.hkWrite (s : State) (a : Nat) (v : Word) : State :=
  let o := a - 0x30000
  if o = 0x000 then s.hkCtl v
  else if o = 0x008 then s.hkInj v
  else if o = 0x018 then s.hkSyscal v
  else if 0x100 ≤ o && o < 0x1A0 then s
  else if 0x500 ≤ o && o < 0x540 then
    let i := (o - 0x500) / 4
    s.setCoefs i ((s.storeHk a v).word a)
  else s.storeHk a v

/-- HK_INJECT (R635). -/
def execHkInject (t : Nat) (ch : Channel) (value : Word) (s : State) : Host.Outcome State Fault Refusal :=
  finish (s.hostCmd t ch.val Reg.HK.INJ_CTL.go.addr fun s => (s.storeHk Reg.HK.INJ_CTL.go.addr value).inject)

/-- HK_REF_WRITE (R628). -/
def execHkRefWrite (t : Nat) (ch : Channel) (value : Word) (s : State) : Host.Outcome State Fault Refusal :=
  finish (s.hostCmd t ch.val Reg.HK.CTL.ref.addr fun s => s.hkCtl value)

/-- ZERO (R640). -/
def execZero (t : Nat) (ch : Channel) (value : Word) (s : State) : Host.Outcome State Fault Refusal :=
  finish (s.hostCmd t ch.val Reg.HK.SYSCAL_CTL.cmd.addr fun s => (s.storeHk Reg.HK.SYSCAL_CTL.cmd.addr value).calCommand false)

/-- SPAN (R641). -/
def execSpan (t : Nat) (ch : Channel) (value : Word) (s : State) : Host.Outcome State Fault Refusal :=
  finish (s.hostCmd t ch.val Reg.HK.SYSCAL_CTL.cmd.addr fun s => (s.storeHk Reg.HK.SYSCAL_CTL.cmd.addr value).calCommand true)

/-- SYSCAL_CANCEL (R643). -/
def execSyscalCancel (t : Nat) (ch : Channel) (s : State) : Host.Outcome State Fault Refusal :=
  finish (s.hostCmd t ch.val Reg.HK.SYSCAL_CTL.cmd.addr fun s => s.calStopped calibCancelled)

/-- HK_REF_SETTLED: 200 µs after the write. -/
def State.refSettled (s : State) : State :=
  match s.hk.refAt with
  | some t => if t ≤ s.now then s.put Reg.HK.STATUS.ref_settled 1 else s
  | none => s

/-- HK_REF_SETTLED (R628). -/
def execHkRefSettled (t : Nat) (s : State) : Host.Outcome State Fault Refusal := finish (s.atTime t).refSettled

/-! ### Trims (R644 to R648) -/

/-- Channels of the entries, all of them. -/
def allChannels : List Nat := (List.range 80).filter hkChannel

/-- Channels whose readings do not count before an instant, and are stale until then. -/
def State.unsettle (s : State) (chs : List Nat) (at_ : Nat) : State := (s.countFrom chs at_).staleChannels chs

/-- The band-gap has been written: it settles 200 µs later. -/
def State.bandgapWritten (s : State) : State :=
  let settled := s.now + ticksOfUs 200
  let s : State := { s with hk := { s.hk with bandgapAt := some settled } }
  (s.put Reg.TRIM.STATUS.settling 1).unsettle allChannels settled

/-- What a write of a trim does to readings (R647). -/
def State.trimTouched (s : State) (a : Nat) : State :=
  let o := a - 0x40000
  let standin := s.flag Reg.RECOVERY.STATUS.hkb_standin
  if o = 0x10 then s.bandgapWritten
  else if (o = 0x14 && !standin) || (o = 0x18 && standin) then s.unsettle allChannels s.now
  else if 0x20 ≤ o && o < 0x38 then s.unsettle [0x28 + (o - 0x20) / 4] s.now
  else if 0x100 ≤ o && o < 0x160 then s.unsettle [(o - 0x100) / 4] s.now
  else s

/-- Is the address that of a trim? -/
def isTrim (a : Nat) : Bool := 0x40010 ≤ a && hasAccess a .rw

/-- A host write of a trim: discarded while the copy runs. -/
def State.writeTrim (s : State) (a : Nat) (v : Word) : State :=
  if !isTrim a then s
  else if s.hk.copying then s.put Reg.TRIM.STATUS.write_lost 1
  else
    let w := (fieldsAt a).foldl (storeField false v) (s.trimWord a)
    ({ s with trims := assocSet s.trims a w } : State).trimTouched a

/-- The copy from OTP begins. -/
def State.trimReload (s : State) : State := ({ s with hk := { s.hk with copying := true } } : State).put Reg.TRIM.STATUS.loaded 0

/-- A write of a TRIM register. -/
def State.trimWritten (s : State) (a : Nat) (v : Word) : State :=
  if a = Reg.TRIM.CTL.reload.addr then s.when (getBits v 0 1 == 1) State.trimReload
  else if a = Reg.TRIM.STATUS.loaded.addr then s.storeHk a v
  else s.writeTrim a v

/-- TRIM_RELOAD (R646). -/
def execTrimReload (t : Nat) (ch : Channel) (s : State) : Host.Outcome State Fault Refusal :=
  finish (s.hostCmd t ch.val Reg.TRIM.CTL.reload.addr State.trimReload)

/-- TRIM_WRITE (R647). -/
def execTrimWrite (t : Nat) (ch : Channel) (addr value : Word) (s : State) : Host.Outcome State Fault Refusal :=
  finish (if isTrim addr.toNat then s.hostCmd t ch.val addr.toNat fun s => s.writeTrim addr.toNat value else s.atTime t)

/-- The addresses of the trims. -/
def trimAddrs : List Nat :=
  ((List.range 3).map fun i => 0x40010 + 4 * i) ++ ((List.range 6).map fun i => 0x40020 + 4 * i) ++ [0x40040] ++
    ((List.range 24).map fun i => 0x40100 + 4 * i) ++ ((List.range 16).map fun i => 0x40200 + 4 * i) ++
    ((List.range 64).map fun i => 0x40300 + 4 * i) ++ ((List.range 8).map fun i => 0x40400 + 4 * i) ++
    ((List.range 64).map fun p => (List.range 43).map fun g => 0x41000 + 0x100 * p + 4 * g).flatten

/-- The copy is complete: every trim holds its OTP value, and a word that failed its check is named by an event record (R644). The first
copy since reset comes before any reading, and is in force at once; a later one is a write of every trim (R646). -/
def State.trimsCopied (s : State) : State :=
  let again := s.trimsLoaded
  let s : State := { s with trims := [], trimsLoaded := true, hk := { s.hk with copying := false } }
  let s : State := if again then s else { s with trimsRx := [], trimsDelay := [], trimsTone := [] }
  let s := (s.put Reg.TRIM.STATUS.loaded 1).put Reg.TRIM.STATUS.version Config.otpTrimVersion.toNat
  let s := s.forEach (trimAddrs.filter s.trimsBad.contains) fun a s =>
    (s.put Reg.TRIM.STATUS.otp_error 1).record { kind := .event, unit := unitHk, detail := a }
  s.when again State.bandgapWritten

/-- TRIM_COPY_DONE (R646). -/
def execTrimCopyDone (t : Nat) (s : State) : Host.Outcome State Fault Refusal :=
  let s := s.atTime t
  finish (if s.hk.copying then s.trimsCopied else s)

/-- BANDGAP_SETTLED: 200 µs after the write. -/
def State.bandgapSettled (s : State) : State :=
  match s.hk.bandgapAt with
  | some t => if t ≤ s.now then s.put Reg.TRIM.STATUS.settling 0 else s
  | none => s

/-- BANDGAP_SETTLED (R647). -/
def execBandgapSettled (t : Nat) (s : State) : Host.Outcome State Fault Refusal := finish (s.atTime t).bandgapSettled

end Sys2Proof.Machine
end

