-- ==== Sys2Proof/Machine/Dsp.lean ====
section
/-!
DEFINITION. The exact arithmetic of the signal path: complex products, magnitudes (R195), rounded sines and cosines (R190, R243),
filters, the block-floating-point transform (R242, R243), crest factor reduction (R196 to R201) and the pre-distortion model (R202
to R204).
-/

namespace Sys2Proof

open Sys2Proof.Machine

/-! ### Complex integers -/

def Cplx.add (a b : Cplx) : Cplx := ⟨a.re + b.re, a.im + b.im⟩
def Cplx.sub (a b : Cplx) : Cplx := ⟨a.re - b.re, a.im - b.im⟩
def Cplx.mul (a b : Cplx) : Cplx := ⟨a.re * b.re - a.im * b.im, a.re * b.im + a.im * b.re⟩
def Cplx.conj (a : Cplx) : Cplx := ⟨a.re, -a.im⟩
def Cplx.neg (a : Cplx) : Cplx := ⟨-a.re, -a.im⟩
def Cplx.smul (k : Int) (a : Cplx) : Cplx := ⟨k * a.re, k * a.im⟩
def Cplx.map (f : Int → Int) (a : Cplx) : Cplx := ⟨f a.re, f a.im⟩

/-- The zero sample. -/
def Cplx.zero : Cplx := ⟨0, 0⟩

/-- The sum of squares of the components. -/
def Cplx.power (a : Cplx) : Nat := (a.re * a.re + a.im * a.im).toNat

/-- The larger magnitude of the two components. -/
def Cplx.peak (a : Cplx) : Nat := max a.re.natAbs a.im.natAbs

/-- The magnitude of R195. -/
def Cplx.mag (a : Cplx) : Nat := a.power.sqrt

/-- The sum of complex numbers. -/
def sumC (l : List Cplx) : Cplx := l.foldl Cplx.add Cplx.zero

/-- The sample as a word: the imaginary part in [31:16], the real part in [15:0]. -/
def Cplx.word (a : Cplx) : Word := BitVec.ofNat 32 (unsigned 16 a.im * 65536 + unsigned 16 a.re)

/-- The complex value of such a word. -/
def cplxOfWord (w : Nat) : Cplx := ⟨signed 16 w, signed 16 (w / 65536)⟩

/-- Truncation of each component by `k` bits toward minus infinity. -/
def Cplx.shr (k : Nat) (a : Cplx) : Cplx := a.map fun x => shrFloor x k

/-- Truncation to Q1.15 with saturation (R182), and whether a component saturated. -/
def Cplx.out16 (k : Nat) (a : Cplx) : Cplx := (a.shr k).map (satS 16)
def Cplx.sat16 (k : Nat) (a : Cplx) : Bool := (a.shr k).out16 0 != a.shr k

end Sys2Proof

namespace Sys2Proof.Machine

open Sys2Proof

/-! ### Sines and cosines -/

/-- 2π in units of 2^-96. -/
def twoPi96 : Int := 497805226624462170461043889244

/-- Terms of the Taylor series from term `j` on, in units of 2^-96; `t` is the present term. -/
def taylor (x2 : Int) : Nat → Nat → Int → Int
  | 0, _, _ => 0
  | n + 1, j, t => t + taylor x2 n (j + 2) (-(t * x2 / (2 ^ 96)) / (((j + 1) * (j + 2) : Nat) : Int))

/-- cos and sin of 2πk/n in units of 2^-96, for k < n. -/
def cos96 (k n : Nat) : Int :=
  let x := twoPi96 * k / n
  taylor (x * x / 2 ^ 96) 32 0 (2 ^ 96)
def sin96 (k n : Nat) : Int :=
  let x := twoPi96 * k / n
  taylor (x * x / 2 ^ 96) 32 1 x

/-- Rounding of x / 2^k to nearest, ties away from zero. -/
def roundAway (x : Int) (k : Nat) : Int := x.sign * (((x.natAbs + 2 ^ (k - 1)) / 2 ^ k : Nat) : Int)

/-- cos θ + j sin θ with θ = 2πk/n, each component the nearest Q1.17 value; an angle that is a multiple of π/2 is exact (R241, R243). -/
def phasor (k n : Nat) : Cplx :=
  let k := k % n
  if 4 * k % n = 0 then
    match 4 * k / n with
    | 0 => ⟨131072, 0⟩
    | 1 => ⟨0, 131072⟩
    | 2 => ⟨-131072, 0⟩
    | _ => ⟨0, -131072⟩
  else (⟨roundAway (cos96 k n) 79, roundAway (sin96 k n) 79⟩ : Cplx).map (satS 18)

/-- The same, with every component a Q1.17 value also at a multiple of π/2 (R190). -/
def phasor17 (k n : Nat) : Cplx := (phasor k n).map (satS 18)

/-- The NCO increment of a frequency `num`/`den` of the sample rate: round(num × 2^32 / den), half away from zero, modulo 2^32
(R189, R252). -/
def ncoInc (num : Int) (den : Nat) : Nat :=
  unsigned 32 (num.sign * (((num.natAbs * 2 ^ 33 + den) / (2 * den) : Nat) : Int))

/-- The NCO factor of R190 for increment `inc` at sample index `n`. -/
def ncoAt (inc n : Nat) : Cplx := phasor17 (inc * n % 2 ^ 32 / 2 ^ 14) (2 ^ 18)

/-! ### Filters -/

/-- One output of a filter whose newest sample comes first in `hist`. -/
def dot (taps : List Int) (hist : List Cplx) : Cplx := sumC (List.zipWith Cplx.smul taps hist)
def dotC (taps : List Cplx) (hist : List Cplx) : Cplx := sumC (List.zipWith Cplx.mul taps hist)

/-- A signal sampled on a grid: `n` samples from index `lo` on, the indices counted from the epoch. -/
abbrev Stream := Int → Nat → List Cplx

/-- The zero signal. -/
def Stream.zero : Stream := fun _ n => List.replicate n Cplx.zero

/-- For each of `n` outputs from index `lo` on, the `l` inputs that a filter of `l` taps takes, newest first, with a delay of `d` samples
removed: the inputs from `d` later down to `l - 1 - d` earlier. -/
def windows (l d : Nat) (x : Stream) (lo : Int) (n : Nat) : List (List Cplx) :=
  let arr := (x (lo + d + 1 - l) (n + l - 1)).toArray
  (List.range n).map fun i => (List.range l).map fun k => arr.getD (i + (l - 1 - k)) Cplx.zero

/-- A symmetric filter's taps from its first half: h[k] = h[62 - k] (R186). -/
def symTaps (half : List Int) : List Int := half ++ (half.dropLast).reverse

/-- One zero after each sample. -/
def upsample (x : Stream) : Stream := fun lo n =>
  let b := lo.fdiv 2
  let arr := (x b (n / 2 + 1)).toArray
  (List.range n).map fun (i : Nat) =>
    let m := lo + i
    if m % 2 = 0 then arr.getD (m.fdiv 2 - b).toNat Cplx.zero else Cplx.zero

/-- Every second sample, the even ones. -/
def downsample {α : Type} (d : α) (x : Int → Nat → List α) : Int → Nat → List α := fun lo n =>
  let arr := (x (2 * lo) (2 * n - 1)).toArray
  (List.range n).map fun i => arr.getD (2 * i) d

/-- A filter with real taps in units of 2^-17, its group delay removed: outputs truncated and saturated (R182, R183). -/
def filter (taps : List Int) (x : Stream) : Stream := fun lo n =>
  (windows taps.length (taps.length / 2) x lo n).map fun h => (dot taps h).out16 17

/-- An interpolation by 2 (R188). -/
def interpolate (taps : List Int) (x : Stream) : Stream := filter taps (upsample x)

/-- Interpolate `k` times. -/
def interpolateN (taps : List Int) : Nat → Stream → Stream
  | 0, x => x
  | k + 1, x => interpolateN taps k (interpolate taps x)

/-- A decimation by 2 (R233). -/
def decimate (taps : List Int) (x : Stream) : Stream := downsample Cplx.zero (filter taps x)

/-- Decimate `k` times. -/
def decimateN (taps : List Int) : Nat → Stream → Stream
  | 0, x => x
  | k + 1, x => decimateN taps k (decimate taps x)

/-- A list as the stream that begins at index `lo`, zero outside. -/
def streamOf (lo : Int) (xs : List Cplx) : Stream :=
  let arr := xs.toArray
  fun a n => (List.range n).map fun (i : Nat) =>
    let k := a + i - lo
    if 0 ≤ k then arr.getD k.toNat Cplx.zero else Cplx.zero

/-! ### The transform (R242, R243) -/

/-- The shift before a stage. -/
def stageShift (m : Nat) : Nat := if m < 2 ^ 13 then 0 else if m < 2 ^ 14 then 1 else 2

/-- The peak of a block. -/
def blockPeak (xs : List Cplx) : Nat := maxNat (xs.map Cplx.peak)

/-- The butterflies of one group of 2h points, at twiddle step `st`; `inv` selects the inverse transform. -/
def butterflies (inv : Bool) (n h st : Nat) (xs : List Cplx) : List Cplx :=
  let a := xs.take h
  let b := xs.drop h
  let w := fun j => if inv then phasor (j * st) n else (phasor (j * st) n).conj
  List.zipWith Cplx.add a b ++ ((List.range h).zip (List.zipWith Cplx.sub a b)).map fun e => ((w e.1).mul e.2).shr 17

/-- A list cut into groups of `k`, `m` of them. -/
def chunks {α : Type} (k : Nat) : Nat → List α → List (List α)
  | 0, _ => []
  | m + 1, xs => xs.take k :: chunks k m (xs.drop k)

/-- One stage. -/
def fftStage (inv : Bool) (n s : Nat) (x : List Cplx × Nat) : List Cplx × Nat :=
  let sh := stageShift (blockPeak x.1)
  let ys := x.1.map (Cplx.shr sh)
  let h := n / 2 ^ (s + 1)
  (((chunks (2 * h) (2 ^ s) ys).map (butterflies inv n h (2 ^ s))).flatten, x.2 + sh)

/-- Bit reversal of the lowest `b` bits. -/
def bitReverse : Nat → Nat → Nat
  | 0, _ => 0
  | b + 1, i => i % 2 * 2 ^ b + bitReverse b (i / 2)

/-- Is a block all zero? -/
def isZero (xs : List Cplx) : Bool := xs.all fun x => x == Cplx.zero

/-- The block-floating-point transform of 2^b points: mantissas in natural order and the exponent. An all-zero block stays as it is. -/
def transform (inv : Bool) (b : Nat) (xs : List Cplx) : List Cplx × Nat :=
  let n := 2 ^ b
  if isZero xs then (List.replicate n Cplx.zero, 0) else
  let r := (List.range b).foldl (fun x s => fftStage inv n s x) (xs, 0)
  let arr := r.1.toArray
  ((List.range n).map fun i => arr.getD (bitReverse b i) Cplx.zero, r.2)

/-- The cyclic prefix of a symbol in samples at Fs_c (R238). -/
def prefixLen (n mu : Nat) (ecp halfStart : Bool) : Nat :=
  if ecp then n / 4 else 144 * n / 2048 + (if halfStart then 16 * 2 ^ mu * n / 2048 else 0)

/-- The window advance δ (R240). -/
def windowAdvance (n adv : Nat) (ecp : Bool) : Nat := adv * prefixLen n 0 ecp false / 64

/-- The bin of a transform of `n` points that carries subcarrier `s` of a carrier of `w` PRBs (R236), counted from 0. -/
def binOf (n w s : Nat) : Nat := (n + s - 6 * w) % n

/-- The uplink block of a symbol: the window of R240, the transform, the rotation of R241 and the carrier's subcarriers (R236).
`xs` holds the symbol's samples from its boundary. -/
def uplinkBlock (b mu w adv : Nat) (ecp halfStart : Bool) (xs : List Cplx) : List Cplx × Nat :=
  let n := 2 ^ b
  let d := windowAdvance n adv ecp
  let win := (xs.drop (prefixLen n mu ecp halfStart - d)).take n
  let r := transform false b win
  let arr := r.1.toArray
  ((List.range (12 * w)).map fun s =>
    let k := binOf n w s
    ((phasor (k * d) n).mul (arr.getD k Cplx.zero)).shr 17, r.2)

/-- The scaling of an IFFT output component by 2^a (R245). -/
def scaleExp (a : Int) (x : Int) : Int := if 0 ≤ a then satS 16 (x * 2 ^ a.toNat) else shrFloor x (-a).toNat

/-- The downlink symbol of R239 and R245 from the carrier's subcarriers with block exponent `eb`: samples with prefix, and how many
saturated. -/
def downlinkSymbol (b mu w : Nat) (ecp halfStart : Bool) (adj : Int) (eb : Int) (re : List Cplx) : List Cplx × Nat :=
  let n := 2 ^ b
  let ncp := prefixLen n mu ecp halfStart
  if isZero re then (List.replicate (ncp + n) Cplx.zero, 0) else
  let arr := re.toArray
  let bins := (List.range n).map fun k =>
    let s := (k + 6 * w) % n
    if s < 12 * w then arr.getD s Cplx.zero else Cplx.zero
  let r := transform true b bins
  let a : Int := eb + r.2 - b + adj
  let raw := r.1.map (Cplx.map fun x => if 0 ≤ a then x * 2 ^ a.toNat else shrFloor x (-a).toNat)
  let out := raw.map (Cplx.map (satS 16))
  (out.drop (n - ncp) ++ out, countIf (fun e => e.1 != e.2) (raw.zip out))

/-! ### Crest factor reduction (R196 to R201) -/

/-- The peaks among indices `lo` to before `hi` of a stage's input, which begins at index `base`, in time order; the threshold is that at
each index, none where the stage is off (R196, R197). -/
def cfrPeaks (base : Int) (xs : Array Cplx) (ts : Array (Option Nat)) (lo hi : Int) : List Int :=
  ((List.range (hi - lo).toNat).filter fun (i : Nat) =>
    let k := (lo + i - base).toNat
    let r := fun j => (xs.getD j Cplx.zero).mag
    match ts.getD k none with
    | some th => th < r k && r (k - 1) ≤ r k && r (k + 1) < r k
    | none => false).map fun (i : Nat) => lo + i

/-- Peaks taken in time order after the accepted ones `acc`, newest first: those accepted now, and how many are not (R198). -/
def cfrAccept (acc : List Int) : List Int → List Int × Nat
  | [] => (acc, 0)
  | n :: ns =>
    if countIf (fun m => decide (n ≤ m + 254)) acc < 16 then cfrAccept (n :: acc) ns
    else
      let y := cfrAccept acc ns
      (y.1, y.2 + 1)

/-- The pulse at an offset: h[-k] is the conjugate of h[k] (R200). -/
def cfrPulse (h : Array Cplx) (d : Int) : Cplx :=
  if d < 0 then (h.getD d.natAbs Cplx.zero).conj else h.getD d.natAbs Cplx.zero

/-- The correction of an accepted peak of value `x` over threshold `ts` (R199). -/
def cfrScale (ts : Nat) (x : Cplx) : Cplx :=
  let g := (x.mag - ts) * 65536 / x.mag
  x.map fun v => shrFloor (v * g) 16

/-- The clip of one sample at level `lc` (R201). -/
def cfrClip (lc : Nat) (x : Cplx) : Cplx :=
  if lc < x.mag then x.map fun v => shrFloor (v * ((lc * 65536 / x.mag : Nat) : Int)) 16 else x

/-! ### Pre-distortion (R202 to R204) -/

/-- The value of a look-up table at magnitude `r` (R203). -/
def lutValue (l : Array Cplx) (r : Nat) : Cplx :=
  if r < 32768 then
    let i := r / 512
    let f := r % 512
    let a := l.getD i Cplx.zero
    let b := l.getD (i + 1) Cplx.zero
    ⟨a.re + shrFloor ((b.re - a.re) * f) 9, a.im + shrFloor ((b.im - a.im) * f) 9⟩
  else l.getD 64 Cplx.zero

/-- One enabled term: the delay of the sample, the delay of the magnitude, the samples that it multiplies and its table. -/
structure DpdTerm where
  sample : Nat
  mag : Nat
  xs : Array Cplx
  lut : Array Cplx
deriving Repr

/-- The model's output at index `n`: its exact sum truncated by 14 bits, and whether it saturated (R202, R204). -/
def dpdAt (xp : Array Cplx) (terms : List DpdTerm) (n : Nat) : Cplx × Bool :=
  let sum := terms.foldl (fun a t =>
    a.add ((t.xs.getD (n - t.sample) Cplx.zero).mul (lutValue t.lut (xp.getD (n - t.mag) Cplx.zero).mag)))
    (Cplx.smul 16384 (xp.getD n Cplx.zero))
  (sum.out16 14, sum.sat16 14)

/-- The correlation Σ z × conj(x) and the power Σ |x|² of a capture (R218). -/
def corrOf (z x : List Cplx) : Cplx × Nat :=
  (sumC (List.zipWith (fun a b => a.mul b.conj) z x), sumNat (x.map Cplx.power))

end Sys2Proof.Machine
end

