-- ==== Sys2Proof/Machine/Plan.lean ====
section
/-!
DEFINITION. The plans and policies of the structure image, read from their section bytes: memory plan (R74, R75), path and neighbour
plan (R76), carrier plan (R77, R78), stair role (R80), fault policy, energy policy (R570), partner policy, corridor routes (R356)
and hall programs (R73).
-/

namespace Sys2Proof.Machine

open Sys2Proof

/-! ### Section types (R71) -/

def secFirmware : Nat := 0x0001
def secTasks : Nat := 0x0002
def secHall : Nat := 0x0010
def secRoutes : Nat := 0x0011
def secMemory : Nat := 0x0020
def secPaths : Nat := 0x0030
def secCarriers : Nat := 0x0031
def secStair : Nat := 0x0040
def secPartner : Nat := 0x0050
def secEnergy : Nat := 0x0051
def secFault : Nat := 0x0052
def secPresets : Nat := 0x0060

/-- The section of a type and instance in a list of sections. -/
def sectionOf (l : List Section) (type inst : Nat) : Option Section :=
  l.find? fun x => x.type == type && x.inst == inst

/-- The bytes of a section of the running state; none while no image runs. -/
def State.section? (s : State) (type inst : Nat) : Option (List Byte) :=
  match s.image.running with
  | some r => (sectionOf r.sections type inst).map fun x => x.bytes
  | none => none

/-- The bytes of a section, empty where absent. -/
def State.sectionBytes (s : State) (type : Nat) : List Byte := (s.section? type 0).getD []

/-- Sections with those of a partial image put in place of, or added to, the old ones. -/
def replaceSections (old new : List Section) : List Section :=
  (old.filter fun o => !(new.any fun n => n.type == o.type && n.inst == o.inst)) ++ new

/-! ### Memory plan (R74, R75) -/

/-- One allocation record. -/
structure MemRec where
  kind : Nat
  inst : Nat
  first : Nat
  count : Nat
  flags : Nat
deriving DecidableEq, Repr, Inhabited

/-- The records of a memory-plan section. -/
def memRecs (bs : List Byte) : List MemRec :=
  (List.range (bs.length / 16)).map fun i =>
    { kind := leAt bs (16 * i) 1, inst := leAt bs (16 * i + 1) 1, first := leAt bs (16 * i + 4) 2,
      count := leAt bs (16 * i + 6) 2, flags := leAt bs (16 * i + 8) 1 }

/-- The kinds of R74. -/
def kindBeam : Nat := 1
def kindWeights : Nat := 2
def kindReplay : Nat := 3
def kindCapture : Nat := 4
def kindSolver : Nat := 5
def kindFronthaul : Nat := 6
def kindStair : Nat := 7
def kindDpd : Nat := 8
def kindLoad : Nat := 9
def kindCustomer : Nat := 10

/-- The records of one kind in ascending instance order (R75). -/
def kindRecs (l : List MemRec) (k : Nat) : List MemRec :=
  ((List.range 256).map fun i => l.filter fun r => r.kind == k && r.inst == i).flatten

/-- The banks of one kind, in the order of R75. -/
def kindBanks (l : List MemRec) (k : Nat) : List Nat :=
  ((kindRecs l k).map fun r => (List.range r.count).map fun i => r.first + i).flatten

/-- The memory plan in force. -/
def State.memPlan (s : State) : List MemRec := memRecs (s.sectionBytes secMemory)

/-- The banks of an allocation; in NO_IMAGE banks 0 to 11 form the load buffer (R89). -/
def State.banksOf (s : State) (k : Nat) : List Nat :=
  match s.image.running with
  | some _ => kindBanks s.memPlan k
  | none => if k == kindLoad then List.range 12 else []

/-- A bank that was lost with no spare free belongs to no allocation any more (R542). -/
def State.bankLost (s : State) (b : Nat) : Bool := s.recov.lost.contains b

/-- The window offset of byte `o` of an allocation; none beyond it, or in a lost bank. -/
def State.offsetIn (s : State) (banks : List Nat) (o : Nat) : Option Nat :=
  match banks[o / bankBytes]? with
  | some b => if s.bankLost b then none else some (b * bankBytes + o % bankBytes)
  | none => none

/-- The window offset of byte `o` of the allocation of a kind. -/
def State.allocOffset (s : State) (k o : Nat) : Option Nat := s.offsetIn (s.banksOf k) o

/-- The window address of byte `o` of an allocation, 0 beyond it. -/
def State.allocAddr (s : State) (k o : Nat) : Nat :=
  match s.allocOffset k o with
  | some x => windowBase + x
  | none => 0

/-- Bytes of an allocation. -/
def State.allocBytes (s : State) (k : Nat) : Nat := countIf (fun b => !s.bankLost b) (s.banksOf k) * bankBytes

/-- The place of a window offset inside an allocation. -/
def State.placeIn (s : State) (k off : Nat) : Option Nat :=
  ((s.banksOf k).findIdx? fun b => b == off / bankBytes).map fun i => i * bankBytes + off % bankBytes

/-- Read bytes of an allocation, from consecutive places. -/
def State.allocRead (s : State) (k o n : Nat) : List Byte :=
  let banks := s.banksOf k
  (List.range n).map fun i => match s.offsetIn banks (o + i) with
    | some x => Memory.read s.mem x
    | none => 0

/-- Write bytes of an allocation at consecutive places; places beyond it are left out. -/
def State.allocWrite (s : State) (k o : Nat) (bs : List Byte) : State :=
  let banks := s.banksOf k
  { s with mem := ((List.range bs.length).zip bs).foldl (fun m e => match s.offsetIn banks (o + e.1) with
      | some x => Memory.write m x e.2
      | none => m) s.mem }

/-- Bytes of a bank of a path's tables, and its place in the allocation of pre-distortion tables (R205, R206). -/
def dpdBytes : Nat := 8320
def dpdPlace (p bank : Nat) : Nat := 16640 * p + dpdBytes * bank

/-! ### Path and neighbour plan (R76) -/

/-- The sub-array number of a path. -/
def planSubarray (bs : List Byte) (p : Nat) : Nat := leAt bs (8 * p) 1

/-- The neighbour in slot `j` of a path; none for 0xFF. -/
def planNeighbour (bs : List Byte) (p j : Nat) : Option Nat :=
  if leAt bs (8 * p + 1 + j) 1 < 64 then some (leAt bs (8 * p + 1 + j) 1) else none

/-- Is the path enabled in the plan? -/
def planEnabled (bs : List Byte) (p : Nat) : Bool := bit (leAt bs (8 * p + 5) 1) 0

/-- Are the path's coupled terms on? -/
def planCoupled (bs : List Byte) (p : Nat) : Bool := bit (leAt bs (8 * p + 5) 1) 1

/-- Is the path enabled in the plan in force? -/
def State.pathEnabled (s : State) (p : Nat) : Bool := planEnabled (s.sectionBytes secPaths) p

/-! ### Carrier plan (R77, R78) -/

/-- The record of carrier `c` in a carrier-plan section. -/
def planCarrier (bs : List Byte) (c : Nat) : CarrierRec :=
  let o := 8 + 32 * c
  { enable := bit (leAt bs o 1) 0, joint := bit (leAt bs o 1) 1, ecp := bit (leAt bs o 1) 2, spacing := leAt bs (o + 1) 1,
    width := leAt bs (o + 2) 2, offset := signed 32 (leAt bs (o + 4) 4), fft := leAt bs (o + 8) 1, tdd := leAt bs (o + 9) 1,
    dl := leAt bs (o + 10) 1, ul := leAt bs (o + 11) 1, group := leAt bs (o + 12) 1, mode := leAt bs (o + 13) 1,
    ingress := leAt bs (o + 14) 2, egress := leAt bs (o + 16) 2 }

/-- The composite centre of a bank in kHz. -/
def planCentre (bs : List Byte) (b : Nat) : Nat := leAt bs (4 * b) 4

/-- The records of the enabled carriers, with their numbers. -/
def planCarriers (bs : List Byte) : List (Nat × CarrierRec) :=
  ((List.range 8).map fun c => (c, planCarrier bs c)).filter fun e => e.2.enable

/-- Symbols of a slot (R248). -/
def CarrierRec.symbols (r : CarrierRec) : Nat := if r.ecp then 12 else 14

/-- Subcarrier spacing in kHz. -/
def CarrierRec.khz (r : CarrierRec) : Nat := 15 * 2 ^ r.spacing

/-- PRBs of a weight group (R285). -/
def CarrierRec.groupSize (r : CarrierRec) : Nat := 2 ^ r.group

/-- Weight groups of the carrier (R285). -/
def CarrierRec.groups (r : CarrierRec) : Nat := ceilDiv r.width r.groupSize

/-- Weight modes (R269). -/
def modeBeamId : Nat := 0
def modeChannel : Nat := 1
def modeSounding : Nat := 2

/-! ### Stair role (R80) -/

/-- The landing number, the role (0 top, 1 inner, 2 leaf), the expected parent port, the child mask, the landing count. -/
def roleLanding (bs : List Byte) : Nat := leAt bs 0 2
def roleRole (bs : List Byte) : Nat := leAt bs 2 1
def roleParent (bs : List Byte) : Nat := leAt bs 3 1
def roleChildren (bs : List Byte) : Nat := leAt bs 4 1 % 16
def roleCount (bs : List Byte) : Nat := leAt bs 6 2

/-- This landing's number, role, and whether it is the top. -/
def State.landing (s : State) : Nat := roleLanding (s.sectionBytes secStair)
def State.role (s : State) : Nat := roleRole (s.sectionBytes secStair)
def State.isTop (s : State) : Bool := s.image.running.isSome && s.role == 0
def State.landingCount (s : State) : Nat := roleCount (s.sectionBytes secStair)

/-! ### Fault policy -/

/-- The preempt flag, the migration threshold, the stop order, a hall's priority byte, a carrier's need of banks of a kind. -/
def State.faultPreempt (s : State) : Bool := bit (leAt (s.sectionBytes secFault) 0 1) 0
def State.faultMigrate (s : State) : Nat := leAt (s.sectionBytes secFault) 1 1
def State.stopOrder (s : State) : List Nat :=
  ((slice (s.sectionBytes secFault) 4 8).map fun b => b.toNat).takeWhile fun c => c != 0xFF
def State.hallPrio (s : State) (h : Nat) : Nat := leAt (s.sectionBytes secFault) (0x10 + h) 1 % 8
def State.hallPreemptible (s : State) (h : Nat) : Bool := bit (leAt (s.sectionBytes secFault) (0x10 + h) 1) 7
/-- The kinds that the needs list, in their order. -/
def needKinds : List Nat := [kindWeights, kindReplay, kindSolver, kindFronthaul, kindStair]
def State.needOf (s : State) (c i : Nat) : Nat := leAt (s.sectionBytes secFault) (0x98 + 10 * c + 2 * i) 2

/-! ### Energy policy (R564, R570) -/

/-- The actions of the shedding table (R564). -/
def shedDiag : Nat := 1
def shedAdapt : Nat := 2
def shedOta : Nat := 3
def shedEpoch : Nat := 4
def shedHalls : Nat := 5
def shedUl : Nat := 6
def shedDl : Nat := 7

/-- Entry `n` of the shedding table, 1 to 7: action, operand, mask. -/
def State.shedEntry (s : State) (n : Nat) : Nat × Nat × Nat :=
  let bs := s.sectionBytes secEnergy
  let o := 0x20 + 8 * (n - 1)
  (leAt bs o 1, leAt bs (o + 1) 1, leAt bs (o + 4) 4)

/-- The entries of an action in force at the present shedding level (R563). -/
def State.shedding (s : State) (action : Nat) : List (Nat × Nat × Nat) :=
  ((List.range (s.get Reg.POWER.STATUS.level)).map fun i => s.shedEntry (i + 1)).filter fun e => e.1 == action

/-- Is an action in force for bit `i` of its mask? -/
def State.shedBit (s : State) (action i : Nat) : Bool := (s.shedding action).any fun e => e.2.2.testBit i

/-- Is a carrier's downlink, or uplink, work shed in the present planning slot: by the level, or because it is not admitted (R27)? -/
def State.shedDown (s : State) (c : Nat) : Bool := s.shedBit shedDl c || s.energy.plan.any fun p => p.noDl.testBit c
def State.shedUp (s : State) (c : Nat) : Bool := s.shedBit shedUl c || s.energy.plan.any fun p => p.noUl.testBit c

/-! ### Hall programs (R73) -/

/-- The program's length in bytes, its entry, its vector count, its record count. -/
def progLen (bs : List Byte) : Nat := leAt bs 0 4
def progEntry (bs : List Byte) : Nat := leAt bs 4 2
def progVectors (bs : List Byte) : Nat := leAt bs 6 1
def progRecords (bs : List Byte) : Nat := leAt bs 8 2

/-- The data-initialisation records of a hall program from byte `o` on: address and bytes; none where one, its padding included, runs past the
section or past data memory. -/
def progInit (bs : List Byte) : Nat → Nat → Option (List (Nat × List Byte))
  | 0, _ => some []
  | n + 1, o =>
    let addr := leAt bs o 2
    let len := leAt bs (o + 2) 2
    if bs.length < o + 4 + ceilDiv len 4 * 4 || len == 0 || addr % 4 != 0 || 65536 < addr + len then none
    else (progInit bs n (o + 4 + ceilDiv len 4 * 4)).map fun l => (addr, slice bs (o + 4) len) :: l

/-! ### Corridor routes (R356) -/

/-- One outbound flow of a hall. -/
structure FlowRec where
  kind : Nat
  dest : Nat
  cls : Nat
  yx : Bool
  ring : Nat
  first : Nat
  count : Nat
deriving DecidableEq, Repr, Inhabited

/-- Outbound flow `f` of hall `h`. -/
def routeFlow (bs : List Byte) (h f : Nat) : FlowRec :=
  let o := 196 * h + 4 + 8 * f
  let x := leAt bs (o + 2) 1
  { kind := leAt bs o 1, dest := leAt bs (o + 1) 1, cls := x % 4, yx := bit x 2, ring := x / 16 % 8, first := leAt bs (o + 4) 2,
    count := leAt bs (o + 6) 2 }

/-- Base, length and event threshold of inbound ring `q` of hall `h`. -/
def ringBase (bs : List Byte) (h q : Nat) : Nat := leAt bs (196 * h + 132 + 8 * q) 2
def ringLen (bs : List Byte) (h q : Nat) : Nat := leAt bs (196 * h + 132 + 8 * q + 2) 2
def ringThreshold (bs : List Byte) (h q : Nat) : Nat := leAt bs (196 * h + 132 + 8 * q + 4) 1

end Sys2Proof.Machine
end

