-- ==== Sys2Proof/Machine/Timeline.lean ====
section
/-!
DEFINITION. The symbol and slot timeline of a carrier in array time (R44, R238, R246 to R248, R509): symbol boundaries, slots, system
frames, and the direction of a symbol under its TDD pattern.
-/

namespace Sys2Proof.Machine

open Sys2Proof

/-- Ticks of one Ts = 1/30.72 MHz. -/
def tsTicks : Nat := 128

/-- Symbols of a carrier in a half-subframe. -/
def CarrierRec.symsPerHalf (r : CarrierRec) : Nat := if r.ecp then 6 * 2 ^ r.spacing else 7 * 2 ^ r.spacing

/-- Ticks of an ordinary symbol. -/
def CarrierRec.symLen (r : CarrierRec) : Nat := if r.ecp then 2560 * tsTicks / 2 ^ r.spacing else 2192 * tsTicks / 2 ^ r.spacing

/-- Extra ticks of the first symbol of a half-subframe (R238). -/
def CarrierRec.symExtra (r : CarrierRec) : Nat := if r.ecp then 0 else 16 * tsTicks

/-- Array time at which symbol `n`, counted from the epoch, begins. -/
def CarrierRec.boundary (r : CarrierRec) (n : Nat) : Nat :=
  let l := n % r.symsPerHalf
  n / r.symsPerHalf * planningSlot + if l = 0 then 0 else l * r.symLen + r.symExtra

/-- The symbol in progress at an array time. -/
def CarrierRec.symbolAt (r : CarrierRec) (a : Nat) : Nat :=
  let o := a % planningSlot
  a / planningSlot * r.symsPerHalf + (if o < r.symLen + r.symExtra then 0 else min ((o - r.symExtra) / r.symLen) (r.symsPerHalf - 1))

/-- The first symbol that begins at or after an array time. -/
def CarrierRec.symbolFrom (r : CarrierRec) (a : Nat) : Nat :=
  if r.boundary (r.symbolAt a) = a then r.symbolAt a else r.symbolAt a + 1

/-- Is the array time a symbol boundary of the carrier? -/
def CarrierRec.isBoundary (r : CarrierRec) (a : Nat) : Bool := r.boundary (r.symbolAt a) == a

/-- The slot of a symbol, counted from the epoch, and the symbol's place in it. -/
def CarrierRec.slotOf (r : CarrierRec) (n : Nat) : Nat := n / r.symbols
def CarrierRec.symIn (r : CarrierRec) (n : Nat) : Nat := n % r.symbols

/-- Does a slot begin with symbol `n`? -/
def CarrierRec.isSlotStart (r : CarrierRec) (n : Nat) : Bool := n % r.symbols == 0

/-- Is the array time a slot boundary of the carrier? -/
def CarrierRec.isSlotBoundary (r : CarrierRec) (a : Nat) : Bool := r.isBoundary a && r.isSlotStart (r.symbolAt a)

/-- The first slot boundary at or after an array time. -/
def CarrierRec.slotFrom (r : CarrierRec) (a : Nat) : Nat :=
  r.boundary (ceilDiv (r.symbolFrom a) r.symbols * r.symbols)

/-- Slots of a system frame. -/
def CarrierRec.slotsPerFrame (r : CarrierRec) : Nat := 10 * 2 ^ r.spacing

/-- The system frame of an array time, modulo 1,024 (R509). -/
def sfnOf (a : Nat) : Nat := a / (20 * planningSlot) % 1024

/-- The next occurrence, after an array time, of symbol `sym` of slot `slot` of system frame `sfn`; none where the numerology has no
such slot or symbol (R509). -/
def CarrierRec.nextNamed (r : CarrierRec) (a sfn slot sym : Nat) : Option Nat :=
  if slot < r.slotsPerFrame && sym < r.symbols then
    let cycle := 1024 * (20 * planningSlot)
    let inCycle := sfn * (20 * planningSlot) + r.boundary (slot * r.symbols + sym)
    let here := a / cycle * cycle + inCycle
    some (if a < here then here else here + cycle)
  else none

/-- The first planning-slot boundary at or after an array time. -/
def planningFrom (a : Nat) : Nat := ceilDiv a planningSlot * planningSlot

/-! ### TDD patterns (R246 to R248) -/

/-- A pattern's period in eighths of a millisecond, by its period code. -/
def periodEighths (code : Nat) : Nat := [4, 5, 8, 10, 16, 20, 40, 80].getD code 0

/-- A pattern's fields. -/
structure Pattern where
  period : Nat
  dlSlots : Nat
  dlSyms : Nat
  ulSlots : Nat
  ulSyms : Nat
deriving DecidableEq, Repr, Inhabited

/-- The fields of a TDD_PAT word. -/
def patternOf (w : Word) : Pattern :=
  { period := getBits w 28 4, dlSlots := getBits w 20 7, dlSyms := getBits w 16 4, ulSlots := getBits w 8 7, ulSyms := getBits w 0 4 }

/-- The slots of a pattern's period for a carrier, where whole (R246). -/
def Pattern.slots (x : Pattern) (r : CarrierRec) : Nat := periodEighths x.period * 2 ^ r.spacing / 8

/-- Is the pattern valid for the carrier (R248)? -/
def Pattern.valid (x : Pattern) (r : CarrierRec) : Bool :=
  x.period < 8 && periodEighths x.period * 2 ^ r.spacing % 8 == 0 &&
    (x.dlSlots + x.ulSlots) * r.symbols + x.dlSyms + x.ulSyms ≤ x.slots r * r.symbols

/-- The direction of a symbol. -/
inductive Dir where
  | dl | ul | flexible
deriving DecidableEq, Repr

/-- The direction that a pattern gives symbol `n` of a carrier (R246). -/
def Pattern.dirOf (x : Pattern) (r : CarrierRec) (n : Nat) : Dir :=
  let whole := x.slots r * r.symbols
  let i := if whole = 0 then 0 else n % whole
  if i < x.dlSlots * r.symbols + x.dlSyms then .dl
  else if whole - (x.ulSlots * r.symbols + x.ulSyms) ≤ i then .ul
  else .flexible

/-- Does symbol `n` carry downlink, uplink? An FDD carrier (pattern index 0, R138) carries both in every symbol. -/
def carriesDl (r : CarrierRec) (x : Pattern) (n : Nat) : Bool := r.tdd == 0 || decide (x.dirOf r n = .dl)
def carriesUl (r : CarrierRec) (x : Pattern) (n : Nat) : Bool := r.tdd == 0 || decide (x.dirOf r n = .ul)

end Sys2Proof.Machine
end

