-- ==== Sys2Proof/Machine/Carriers.lean ====
section
/-!
DEFINITION. Operations on carriers that every family shares: their states (R250), their records in force (R77, R106), their latencies
(R28, R32, R35, R36), the timing carrier and update points (R119), and internal transactions (R500, R509).
-/

namespace Sys2Proof.Machine

open Sys2Proof

/-- The codes of CARRIER[c].STATUS.state. -/
def carrierOff : Nat := 0
def carrierStarting : Nat := 1
def carrierRunning : Nat := 2
def carrierStopping : Nat := 3

/-- A carrier's internal state. -/
def State.car (s : State) (c : Nat) : CarrierState := s.carriers.getD c CarrierState.off

/-- Change a carrier's internal state. -/
def State.modCar (s : State) (c : Nat) (f : CarrierState → CarrierState) : State := { s with carriers := s.carriers.modify c f }

/-- A carrier's state code. -/
def State.carState (s : State) (c : Nat) : Nat := s.get (Reg.CARRIER.STATUS.state c)

/-- Is the carrier RUNNING? -/
def State.running (s : State) (c : Nat) : Bool := s.carState c == carrierRunning

/-- Does the carrier process symbols: RUNNING, or STOPPING until its stop boundary (R250)? -/
def State.carActive (s : State) (c : Nat) : Bool := s.running c || s.carState c == carrierStopping

/-- The record in force on a carrier. -/
def State.form? (s : State) (c : Nat) : Option CarrierRec := (s.car c).form

/-- A record of no carrier. -/
def CarrierRec.none : CarrierRec :=
  { enable := false, joint := false, ecp := false, spacing := 0, width := 0, offset := 0, fft := 8, tdd := 0, dl := 0, ul := 0,
    group := 0, mode := 0, ingress := 0, egress := 0 }

/-- The record in force, or the empty record. -/
def State.form (s : State) (c : Nat) : CarrierRec := (s.form? c).getD CarrierRec.none

/-- The record of a carrier in the plan in force. -/
def State.planRec (s : State) (c : Nat) : CarrierRec := planCarrier (s.sectionBytes secCarriers) c

/-- The carriers that process symbols, in rising order. -/
def State.activeCarriers (s : State) : List Nat := (List.range 8).filter s.carActive

/-- The RUNNING carriers. -/
def State.runningCarriers (s : State) : List Nat := (List.range 8).filter s.running

/-- The timing carrier: the lowest-numbered RUNNING one (R119). -/
def State.timing (s : State) : Option Nat := s.runningCarriers.head?

/-- The TDD pattern of a carrier's record, as the register holds it. -/
def State.patternWord (s : State) (r : CarrierRec) : Word :=
  if r.tdd = 0 then 0 else s.word (Reg.CARRIER.TDD_PAT.word (r.tdd - 1)).addr

/-- The pattern under which symbol `n` of a carrier runs: the one in force, and from the first boundary of a changed pattern's period
after the symbol in progress the changed one (R249). -/
def State.patternFor (s : State) (c n : Nat) : Word :=
  let x := s.car c
  let r := s.form c
  let want := s.patternWord r
  let period := max 1 ((patternOf want).slots r)
  match x.begun with
  | some m => if want != x.pattern && r.slotOf m / period < r.slotOf n / period then want else x.pattern
  | none => x.pattern

/-- Does symbol `n` of the carrier carry downlink, uplink? -/
def State.dlSym (s : State) (c n : Nat) : Bool := carriesDl (s.form c) (patternOf (s.patternFor c n)) n
def State.ulSym (s : State) (c n : Nat) : Bool := carriesUl (s.form c) (patternOf (s.patternFor c n)) n

/-- Show a carrier's form fields: its record in the plan in force while it is enabled there, 0 otherwise (R250), and the NCO increment of the
record in force on it (R189). -/
def State.showForm (s : State) (c : Nat) : State :=
  let s := s.put (Reg.CARRIER.TX_NCO.word c) (ncoInc (s.form c).offset 983040)
  let r := s.planRec c
  let on := r.enable && s.carState c != carrierOff
  let s := s.put (Reg.CARRIER.STATUS.joint c) (if on then b2n r.joint else 0)
  let s := s.put (Reg.CARRIER.STATUS.spacing c) (if on then r.spacing else 0)
  let s := s.put (Reg.CARRIER.STATUS.ecp c) (if on then b2n r.ecp else 0)
  let s := s.put (Reg.CARRIER.STATUS.tdd c) (if on then r.tdd else 0)
  s.put (Reg.CARRIER.STATUS.fft c) (if on then r.fft else 0)

/-- The array-joint addition in ns: 9 µs up to 12 flights, else 1.8 µs + 0.6 µs a flight (R35, R36). -/
def jointAddition (path : Nat) : Nat := if path ≤ 12 then 9000 else 1800 + 600 * path

/-- The bytes of a carrier record, on which its latencies depend. -/
def State.carBytes (s : State) (c : Nat) : List Byte := slice (s.sectionBytes secCarriers) (8 + 32 * c) 32

/-- The bytes of the record in force on a carrier: those of the plan while it has none (R106). -/
def State.formBytes (s : State) (c : Nat) : List Byte := if (s.car c).form.isSome then (s.car c).bytes else s.carBytes c

/-- Is the record in force that of an array-joint carrier? -/
def State.formJoint (s : State) (c : Nat) : Bool := ((s.form? c).getD (s.planRec c)).joint

/-- The latencies of a carrier in ns: fixed by its record within their bounds, and the joint addition (R28, R32; DESIGN CHOICE, log entry
22). -/
def State.dlLatency (s : State) (c : Nat) : Nat :=
  min 48000 (Config.dlLatency (s.formBytes c)) + if s.formJoint c then s.get Reg.STAIR.TREE.addition else 0
def State.ulLatency (s : State) (c : Nat) : Nat :=
  min 62000 (Config.ulLatency (s.formBytes c)) + if s.formJoint c then s.get Reg.STAIR.TREE.addition else 0

/-- The one PRACH latency of a carrier's plan: within the limits of both classes of format (R257; DESIGN CHOICE, log entry 22). -/
def State.prachLatency (s : State) (c : Nat) : Nat := min 60000 (Config.prachLatency (s.formBytes c))

/-- Show a carrier's latencies. -/
def State.showLatency (s : State) (c : Nat) : State :=
  let on := (s.planRec c).enable
  let s := s.put (Reg.CARRIER.DL_LATENCY.ns c) (if on then s.dlLatency c else 0)
  let s := s.put (Reg.CARRIER.UL_LATENCY.ns c) (if on then s.ulLatency c else 0)
  s.put (Reg.CARRIER.PRACH_LATENCY.ns c) (if on then s.prachLatency c else 0)

/-- A carrier becomes due to start with a record at the first slot boundary at or after array time `a` (R250). -/
def State.dueStart (s : State) (c a : Nat) (r : CarrierRec) : State :=
  let bytes := s.carBytes c
  let s := s.modCar c fun x => { x with form := some r, bytes := bytes, after := none, since := a }
  (s.put (Reg.CARRIER.STATUS.state c) carrierStarting).showForm c

/-- The stop of a carrier is decided, to take place at its first slot boundary at or after `a`; `next` is what follows: a restart
with a record, or OFF (R250). A carrier that has not started is settled at once. -/
def State.decideStop (s : State) (c a : Nat) (next : Option CarrierRec) : State :=
  if s.carActive c then
    let s := s.modCar c fun x => { x with after := some next, since := a }
    s.put (Reg.CARRIER.STATUS.state c) carrierStopping
  else match next with
    | some r => s.dueStart c a r
    | none =>
      let s := s.modCar c fun x => { x with form := none, after := none }
      (s.put (Reg.CARRIER.STATUS.state c) carrierOff).showForm c

/-- The update points of the paths (R119): boundaries of the timing carrier, or planning-slot boundaries. -/
def State.updateFrom (s : State) (a : Nat) : Nat :=
  match s.timing with
  | some c => (s.form c).boundary ((s.form c).symbolFrom a)
  | none => planningFrom a

/-! ### Internal transactions (R500, R509, R512) -/

/-- An ID of the landing's counter with bit 31 clear. -/
def State.newTxnId (s : State) : Nat × State :=
  (s.txn.nextId % 2 ^ 31, { s with txn := { s.txn with nextId := (s.txn.nextId + 1) % 2 ^ 31 } })

/-- The boundary to which NEXT resolves on a carrier (R509). -/
def State.resolveNext (s : State) (c : Nat) : Nat :=
  let a := s.arrayNow + ticksOfUs 2
  if s.running c then (s.form c).boundary ((s.form c).symbolFrom a) else planningFrom a

/-- The boundary to which NEXT of an internal transaction resolves: it names the timing carrier. -/
def State.resolveInternal (s : State) : Nat :=
  match s.timing with
  | some c => s.resolveNext c
  | none => planningFrom (s.arrayNow + ticksOfUs 2)

/-- ID a precedes ID b (R501): bit 31 clear before set, then serial arithmetic. -/
def idBefore (a b : Nat) : Bool :=
  if a / 2 ^ 31 % 2 = b / 2 ^ 31 % 2 then
    let d := (b % 2 ^ 31 + 2 ^ 31 - a % 2 ^ 31) % 2 ^ 31
    1 ≤ d && d ≤ 2 ^ 30
  else decide (a / 2 ^ 31 % 2 < b / 2 ^ 31 % 2)

/-- Insert a commit in commit order: by time, then by ID (R54, R513). -/
def insertCommit (x : Commit) : List Commit → List Commit
  | [] => [x]
  | y :: ys => if x.time < y.time || (x.time == y.time && idBefore x.id y.id) then x :: y :: ys else y :: insertCommit x ys

/-- Where an effect falls (R512): on one carrier at its boundary, on the paths at an update point, on each carrier at its own boundary,
or everywhere at T. -/
inductive Place where
  | carrier (c : Nat)
  | update
  | each
  | everywhere
deriving DecidableEq, Repr

/-- The place of a staged register: the settings of one carrier (R184, R234), of paths, groups and pipelines (R120, R184), the rest. -/
def regPlace (a : Nat) : Place :=
  if 0x200000 ≤ a && a < 0x208000 then .carrier ((a - 0x200000) / 0x1000)
  else if 0x100000 ≤ a && a < 0x200000 then .update
  else if 0x280040 ≤ a && a < 0x280060 then .carrier ((a - 0x280040) / 4)
  else if 0x288020 ≤ a && a < 0x288040 then .carrier ((a - 0x288020) / 4)
  else .everywhere

/-- The place of an effect. -/
def Effect.place : Effect → Place
  | .reg a _ => regPlace a
  | .window _ _ => .everywhere
  | .live _ => .everywhere
  | .exclude _ => .each
  | .pathOut _ => .update
  | .dpdBank _ _ => .update
  | .dpdRound _ => .update
  | .dpdBack _ => .update
  | .weights c _ => .carrier c
  | .ota _ => .everywhere

/-- The carriers on which an effect takes effect at their boundary; the patterns and the replay reserve have boundaries of their own
(R39, R249). -/
def Effect.touches (e : Effect) : List Nat :=
  match e, e.place with
  | .reg a _, .everywhere => if a = 0x70000 || 0x208000 ≤ a && a < 0x209000 then [] else List.range 8
  | _, .carrier c => [c]
  | _, _ => List.range 8

/-- The carriers whose epoch a transaction advances (R512). -/
def touched (l : List Effect) : List Nat := (List.range 8).filter fun c => l.any fun e => e.touches.contains c

/-- Add a commit to those on their way into effect. -/
def State.addCommit (s : State) (x : Commit) : State := { s with txn := { s.txn with commits := insertCommit x s.txn.commits } }

/-- An internal transaction with the given effects at array time `a` (R500, R509). -/
def State.internalAt (s : State) (a : Nat) (effects : List Effect) : State :=
  let r := s.newTxnId
  r.2.addCommit { time := a, id := r.1, slot := none, decided := true, latched := false, effects := effects, touch := touched effects }

/-- An internal transaction that commits at NEXT. -/
def State.internalTxn (s : State) (effects : List Effect) : State := s.internalAt s.resolveInternal effects

/-! ### Counting symbols -/

/-- Is the release of symbol `n` of a carrier yet to come: an output of it waits in a gate, or the uplink symbol has not ended? -/
def State.releaseAhead (s : State) (c n : Nat) : Bool :=
  (s.gates.any fun g => g.carrier == c && g.symbol == n && (decide (g.kind = .down) || decide (g.kind = .up))) ||
    (!s.dlSym c n && s.ulSym c n && (s.car c).begun == some n)

/-- Symbol `n` of a carrier becomes degraded: it is counted once, at its release, or at once where that has passed (R538). -/
def State.degraded (s : State) (c n : Nat) : State :=
  if (s.car c).degraded.contains n then s
  else
    let ahead := s.releaseAhead c n
    let s := s.modCar c fun x => { x with degraded := n :: x.degraded.take 63,
                                          degradedDue := if ahead then n :: x.degradedDue.take 63 else x.degradedDue }
    if ahead then s else s.bump (Reg.RECOVERY.DEGRADED_SYM.word c)

/-- A symbol passes its gate, or is missed: found degraded before, it is counted now (R48, R538). -/
def State.countDegraded (s : State) (c n : Nat) : State :=
  if (s.car c).degradedDue.contains n then
    (s.modCar c fun x => { x with degradedDue := x.degradedDue.filter fun m => m != n }).bump (Reg.RECOVERY.DEGRADED_SYM.word c)
  else s

/-- Symbol `n` of a carrier is missed in one direction, and is counted there once, in `f` (R539, R567). -/
def State.missedIn (s : State) (f : Nat → Fld) (c n : Nat) (dl : Bool) : State :=
  let x := s.car c
  if (if dl then x.missedDl else x.missedUl).contains n then s
  else
    (s.modCar c fun x => if dl then { x with missedDl := n :: x.missedDl.take 63 } else { x with missedUl := n :: x.missedUl.take 63 }).bump (f c)

/-- Symbol `n` of a carrier is missed in one direction (R539). -/
def State.missed (s : State) (c n : Nat) (dl : Bool) : State := s.missedIn Reg.RECOVERY.MISSED_SYM.word c n dl

end Sys2Proof.Machine
end

