-- ==== Sys2Proof/Machine/Crypto.lean ====
section
/-!
DEFINITION. The digests, checks and signatures the spec names by their standards: CRC-32 of IEEE 802.3 (R67), CRC-8 of R657, SHA-384
and ECDSA P-384 (R69, R70), HMAC-SHA-256 (R662).
-/

namespace Sys2Proof.Machine

open Sys2Proof

/-- One bit of a reflected CRC. -/
def crcBitReflected (poly c : Nat) : Nat := if c % 2 = 1 then (c / 2) ^^^ poly else c / 2

/-- CRC-32 of R67: reflected polynomial 0xEDB8_8320, initial value and final exclusive-OR 0xFFFF_FFFF. -/
def crc32 (bs : List Byte) : Nat :=
  (bs.foldl (fun c b => Nat.repeat (crcBitReflected 0xEDB88320) 8 (c ^^^ b.toNat)) 0xFFFFFFFF) ^^^ 0xFFFFFFFF

/-- A CRC over bits, most significant first, of width `w` with polynomial `poly` and a given initial value. -/
def crcBits (w poly init : Nat) (bits : List Bool) : Nat :=
  bits.foldl (fun c b =>
    let top := c / 2 ^ (w - 1) % 2
    let c := (c * 2) % 2 ^ w
    if top ^^^ b2n b = 1 then c ^^^ poly else c) init

/-- The bits of a number, most significant first. -/
def msbBits (w n : Nat) : List Bool := (List.range w).map fun i => n.testBit (w - 1 - i)

/-- CRC-8 of R657: x^8 + x^2 + x + 1, initial value 0. -/
def crc8 (bits : List Bool) : Nat := crcBits 8 0x07 0 bits

/-- The bits of a byte string, each byte most significant bit first. -/
def bytesBits (bs : List Byte) : List Bool := (bs.map fun b => msbBits 8 b.toNat).flatten

/-! ### SHA-2 -/

def sha256K0 : List Nat :=
  [0x428A2F98, 0x71374491, 0xB5C0FBCF, 0xE9B5DBA5, 0x3956C25B, 0x59F111F1, 0x923F82A4, 0xAB1C5ED5,
   0xD807AA98, 0x12835B01, 0x243185BE, 0x550C7DC3, 0x72BE5D74, 0x80DEB1FE, 0x9BDC06A7, 0xC19BF174,
   0xE49B69C1, 0xEFBE4786, 0xFC19DC6, 0x240CA1CC, 0x2DE92C6F, 0x4A7484AA, 0x5CB0A9DC, 0x76F988DA,
   0x983E5152, 0xA831C66D, 0xB00327C8, 0xBF597FC7, 0xC6E00BF3, 0xD5A79147, 0x6CA6351, 0x14292967]

def sha256K1 : List Nat :=
  [0x27B70A85, 0x2E1B2138, 0x4D2C6DFC, 0x53380D13, 0x650A7354, 0x766A0ABB, 0x81C2C92E, 0x92722C85,
   0xA2BFE8A1, 0xA81A664B, 0xC24B8B70, 0xC76C51A3, 0xD192E819, 0xD6990624, 0xF40E3585, 0x106AA070,
   0x19A4C116, 0x1E376C08, 0x2748774C, 0x34B0BCB5, 0x391C0CB3, 0x4ED8AA4A, 0x5B9CCA4F, 0x682E6FF3,
   0x748F82EE, 0x78A5636F, 0x84C87814, 0x8CC70208, 0x90BEFFFA, 0xA4506CEB, 0xBEF9A3F7, 0xC67178F2]

/-- The round constants of SHA-256. -/
def sha256K : List Nat := sha256K0 ++ sha256K1

def sha512K0 : List Nat :=
  [0x428A2F98D728AE22, 0x7137449123EF65CD, 0xB5C0FBCFEC4D3B2F, 0xE9B5DBA58189DBBC,
   0x3956C25BF348B538, 0x59F111F1B605D019, 0x923F82A4AF194F9B, 0xAB1C5ED5DA6D8118,
   0xD807AA98A3030242, 0x12835B0145706FBE, 0x243185BE4EE4B28C, 0x550C7DC3D5FFB4E2,
   0x72BE5D74F27B896F, 0x80DEB1FE3B1696B1, 0x9BDC06A725C71235, 0xC19BF174CF692694,
   0xE49B69C19EF14AD2, 0xEFBE4786384F25E3, 0xFC19DC68B8CD5B5, 0x240CA1CC77AC9C65,
   0x2DE92C6F592B0275, 0x4A7484AA6EA6E483, 0x5CB0A9DCBD41FBD4, 0x76F988DA831153B5,
   0x983E5152EE66DFAB, 0xA831C66D2DB43210, 0xB00327C898FB213F, 0xBF597FC7BEEF0EE4,
   0xC6E00BF33DA88FC2, 0xD5A79147930AA725, 0x6CA6351E003826F, 0x142929670A0E6E70]

def sha512K1 : List Nat :=
  [0x27B70A8546D22FFC, 0x2E1B21385C26C926, 0x4D2C6DFC5AC42AED, 0x53380D139D95B3DF,
   0x650A73548BAF63DE, 0x766A0ABB3C77B2A8, 0x81C2C92E47EDAEE6, 0x92722C851482353B,
   0xA2BFE8A14CF10364, 0xA81A664BBC423001, 0xC24B8B70D0F89791, 0xC76C51A30654BE30,
   0xD192E819D6EF5218, 0xD69906245565A910, 0xF40E35855771202A, 0x106AA07032BBD1B8,
   0x19A4C116B8D2D0C8, 0x1E376C085141AB53, 0x2748774CDF8EEB99, 0x34B0BCB5E19B48A8,
   0x391C0CB3C5C95A63, 0x4ED8AA4AE3418ACB, 0x5B9CCA4F7763E373, 0x682E6FF3D6B2B8A3,
   0x748F82EE5DEFB2FC, 0x78A5636F43172F60, 0x84C87814A1F0AB72, 0x8CC702081A6439EC,
   0x90BEFFFA23631E28, 0xA4506CEBDE82BDE9, 0xBEF9A3F7B2C67915, 0xC67178F2E372532B]

def sha512K2 : List Nat :=
  [0xCA273ECEEA26619C, 0xD186B8C721C0C207, 0xEADA7DD6CDE0EB1E, 0xF57D4F7FEE6ED178,
   0x6F067AA72176FBA, 0xA637DC5A2C898A6, 0x113F9804BEF90DAE, 0x1B710B35131C471B,
   0x28DB77F523047D84, 0x32CAAB7B40C72493, 0x3C9EBE0A15C9BEBC, 0x431D67C49C100D4C,
   0x4CC5D4BECB3E42B6, 0x597F299CFC657E2A, 0x5FCB6FAB3AD6FAEC, 0x6C44198C4A475817]

/-- The round constants of SHA-512 and SHA-384. -/
def sha512K : List Nat := sha512K0 ++ sha512K1 ++ sha512K2

/-- The initial value of SHA-256. -/
def sha256H : List Nat :=
  [0x6A09E667, 0xBB67AE85, 0x3C6EF372, 0xA54FF53A, 0x510E527F, 0x9B05688C, 0x1F83D9AB, 0x5BE0CD19]

/-- The initial value of SHA-384. -/
def sha384H : List Nat :=
  [0xCBBB9D5DC1059ED8, 0x629A292A367CD507, 0x9159015A3070DD17, 0x152FECD8F70E5939,
   0x67332667FFC00B31, 0x8EB44A8768581511, 0xDB0C2E0D64F98FA7, 0x47B5481DBEFA4FA4]

/-- Rotation right of a word of `w` bits. -/
def rotr (w n x : Nat) : Nat := (x / 2 ^ n) ||| (x % 2 ^ n * 2 ^ (w - n))

/-- The parameters of one member of the SHA-2 family. -/
structure Sha2 where
  w : Nat
  k : List Nat
  s0 : Nat × Nat × Nat
  s1 : Nat × Nat × Nat
  e0 : Nat × Nat × Nat
  e1 : Nat × Nat × Nat

/-- SHA-256's parameters. -/
def sha256Params : Sha2 := ⟨32, sha256K, (7, 18, 3), (17, 19, 10), (2, 13, 22), (6, 11, 25)⟩

/-- SHA-384's parameters. -/
def sha512Params : Sha2 := ⟨64, sha512K, (1, 8, 7), (19, 61, 6), (28, 34, 39), (14, 18, 41)⟩

/-- The message-schedule functions (two rotations and a shift). -/
def Sha2.small (h : Sha2) (r : Nat × Nat × Nat) (x : Nat) : Nat := rotr h.w r.1 x ^^^ rotr h.w r.2.1 x ^^^ (x / 2 ^ r.2.2)

/-- The compression functions (three rotations). -/
def Sha2.big (h : Sha2) (r : Nat × Nat × Nat) (x : Nat) : Nat := rotr h.w r.1 x ^^^ rotr h.w r.2.1 x ^^^ rotr h.w r.2.2 x

/-- Extend a message schedule held newest first. -/
def Sha2.extend (h : Sha2) : Nat → List Nat → List Nat
  | 0, ws => ws
  | n + 1, ws =>
    let x := (h.small h.s1 (ws.getD 1 0) + ws.getD 6 0 + h.small h.s0 (ws.getD 14 0) + ws.getD 15 0) % 2 ^ h.w
    h.extend n (x :: ws)

/-- One round. -/
def Sha2.round (h : Sha2) (v : List Nat) (kw : Nat × Nat) : List Nat :=
  match v with
  | [a, b, c, d, e, f, g, x] =>
    let m := 2 ^ h.w
    let ch := (e &&& f) ^^^ ((m - 1 - e) &&& g)
    let t1 := (x + h.big h.e1 e + ch + kw.1 + kw.2) % m
    let maj := (a &&& b) ^^^ (a &&& c) ^^^ (b &&& c)
    let t2 := (h.big h.e0 a + maj) % m
    [(t1 + t2) % m, a, b, c, (d + t1) % m, e, f, g]
  | v => v

/-- One block of sixteen words. -/
def Sha2.block (h : Sha2) (v ws : List Nat) : List Nat :=
  let sched := (h.extend (h.k.length - 16) ws.reverse).reverse
  let r := (h.k.zip sched).foldl h.round v
  (v.zip r).map fun p => (p.1 + p.2) % 2 ^ h.w

/-- The big-endian words of a byte string. -/
def beWords (n : Nat) : Nat → List Byte → List Nat
  | 0, _ => []
  | k + 1, bs => beNat (bs.take n) :: beWords n k (bs.drop n)

/-- All the blocks of a padded message. -/
def Sha2.blocks (h : Sha2) : Nat → List Nat → List Byte → List Nat
  | 0, v, _ => v
  | n + 1, v, bs => h.blocks n (h.block v (beWords (h.w / 8) 16 (bs.take (2 * h.w)))) (bs.drop (2 * h.w))

/-- The digest of a message: `n` words of the final value. -/
def Sha2.digest (h : Sha2) (init : List Nat) (n : Nat) (bs : List Byte) : List Byte :=
  let blk := 2 * h.w
  let zeros := (2 * blk - (bs.length + 1 + h.w / 4) % blk) % blk
  let padded := bs ++ [0x80] ++ List.replicate zeros 0 ++ beBytes (h.w / 4) (8 * bs.length)
  (((h.blocks (padded.length / blk) init padded).take n).map fun x => beBytes (h.w / 8) x).flatten

/-- SHA-256. -/
def sha256 (bs : List Byte) : List Byte := sha256Params.digest sha256H 8 bs

/-- SHA-384. -/
def sha384 (bs : List Byte) : List Byte := sha512Params.digest sha384H 6 bs

/-- HMAC-SHA-256 (R662). -/
def hmacSha256 (key msg : List Byte) : List Byte :=
  let k := if 64 < key.length then sha256 key else key
  let k := k ++ List.replicate (64 - k.length) 0
  let pad := fun x : Byte => k.map fun b => b ^^^ x
  sha256 (pad 0x5C ++ sha256 (pad 0x36 ++ msg))

/-! ### ECDSA over P-384 (R69) -/

/-- The field prime, the group order, and the curve's coefficient b and base point. -/
def p384p : Nat := 0xFFFFFFFFFFFFFFFFFFFFFFFFFFFFFFFFFFFFFFFFFFFFFFFFFFFFFFFFFFFFFFFEFFFFFFFF0000000000000000FFFFFFFF
def p384n : Nat := 0xFFFFFFFFFFFFFFFFFFFFFFFFFFFFFFFFFFFFFFFFFFFFFFFFC7634D81F4372DDF581A0DB248B0A77AECEC196ACCC52973
def p384b : Nat := 0xB3312FA7E23EE7E4988E056BE3F82D19181D9C6EFE8141120314088F5013875AC656398D8A2ED19D2A85C8EDD3EC2AEF
def p384gx : Nat := 0xAA87CA22BE8B05378EB1C71EF320AD746E1D3B628BA79B9859F741E082542A385502F25DBF55296C3A545E3872760AB7
def p384gy : Nat := 0x3617DE4A96262C6F5D9E98BF9292DC29F8F41DBD289A147CE9DA3113B5F0B8C00A60B1CE1D7E819D7A431D7C90EA0E5F

/-- A power modulo `m`, over `k` exponent bits. -/
def powMod (m : Nat) : Nat → Nat → Nat → Nat
  | 0, _, _ => 1
  | k + 1, x, e => (if e % 2 = 1 then x else 1) * powMod m k (x * x % m) (e / 2) % m

/-- The inverse modulo a prime of at most 384 bits. -/
def invMod (m x : Nat) : Nat := powMod m 384 (x % m) (m - 2)

/-- A point in Jacobian coordinates; z = 0 is the point at infinity. -/
structure JPoint where
  x : Nat
  y : Nat
  z : Nat
deriving DecidableEq, Repr

/-- Doubling on y² = x³ − 3x + b. -/
def JPoint.double (a : JPoint) : JPoint :=
  let m := p384p
  let d := a.z * a.z % m
  let g := a.y * a.y % m
  let b := a.x * g % m
  let al := 3 * ((a.x + m - d) % m) * ((a.x + d) % m) % m
  let x := (al * al + 8 * (m - b)) % m
  let z := (2 * a.y * a.z) % m
  let y := (al * ((4 * b + (m - x)) % m) + 8 * (m - g * g % m)) % m
  ⟨x, y, z⟩

/-- Addition. -/
def JPoint.add (a b : JPoint) : JPoint :=
  let m := p384p
  if a.z = 0 then b
  else if b.z = 0 then a
  else
    let z1 := a.z * a.z % m
    let z2 := b.z * b.z % m
    let u1 := a.x * z2 % m
    let u2 := b.x * z1 % m
    let s1 := a.y * z2 % m * b.z % m
    let s2 := b.y * z1 % m * a.z % m
    if u1 = u2 then (if s1 = s2 then a.double else ⟨1, 1, 0⟩)
    else
      let h := (u2 + m - u1) % m
      let r := (s2 + m - s1) % m
      let h2 := h * h % m
      let h3 := h2 * h % m
      let v := u1 * h2 % m
      let x := (r * r + (m - h3) + 2 * (m - v)) % m
      let y := (r * ((v + m - x) % m) + (m - s1 * h3 % m)) % m
      ⟨x, y, h * a.z % m * b.z % m⟩

/-- The multiple of a point, over `k` scalar bits. -/
def JPoint.mul : Nat → Nat → JPoint → JPoint
  | 0, _, _ => ⟨1, 1, 0⟩
  | k + 1, e, a => if e % 2 = 1 then a.add (JPoint.mul k (e / 2) a.double) else JPoint.mul k (e / 2) a.double

/-- Verification of an ECDSA P-384 signature (r, s) over a SHA-384 digest with the public point (x, y). -/
def ecdsaP384 (digest : List Byte) (x y r s : Nat) : Bool :=
  let n := p384n
  let onCurve := x < p384p && y < p384p && y * y % p384p == (x * x % p384p * x + 3 * (p384p - x) + p384b) % p384p
  if onCurve && 0 < r && r < n && 0 < s && s < n then
    let e := beNat digest % n
    let w := invMod n s
    let q := (JPoint.mul 384 (e * w % n) ⟨p384gx, p384gy, 1⟩).add (JPoint.mul 384 (r * w % n) ⟨x, y, 1⟩)
    if q.z = 0 then false
    else
      let zi := invMod p384p q.z
      q.x * (zi * zi % p384p) % p384p % n == r
  else false

/-- Does the signature block's key and signature pass for a signed byte string? `pub` is the 97-byte uncompressed point. -/
def signatureOk (signed pub sigR sigS : List Byte) : Bool :=
  pub.headD 0 == 0x04 && ecdsaP384 (sha384 signed) (beNat (slice pub 1 48)) (beNat (slice pub 49 48)) (beNat sigR) (beNat sigS)

end Sys2Proof.Machine
end

