-- ==== Sys2Proof/Machine/LaneCode.lean ====
section
/-!
DEFINITION. What a stair lane carries (R422 to R427, R442, R444): records and segments in bits, codewords, the scrambler, Gray coding,
and pilot blocks. The order of bits and bytes where these rules do not state it is the model's (log entry 78).
-/

namespace Sys2Proof.Machine

open Sys2Proof

/-! ### Records and units (R442 to R444) -/

/-- The type code of a record, and its class. -/
def msgType : StairMsg → Nat
  | .partialSum _ => 0x01
  | .supplement _ _ => 0x02
  | .missing _ _ _ _ _ _ => 0x03
  | .layer _ => 0x04
  | .sections _ _ => 0x05
  | .finished _ => 0x06
  | .txn _ => 0x10
  | .time _ _ _ => 0x11
  | .join _ _ _ => 0x12
  | .tree _ _ _ _ _ => 0x13
  | .reparent _ _ _ _ _ => 0x14
  | .resume _ _ => 0x15
  | .gram _ _ _ => 0x20
  | .inverse _ _ _ => 0x21
  | .ota _ => 0x22
  | .hello _ => 0x30
  | .sleep => 0x31

/-- The class of a record (R443). -/
def msgClass (m : StairMsg) : Nat := msgType m / 16

/-- Bytes of the body of a record (R444). -/
def bodyBytes (m : StairMsg) : Nat :=
  match m with
  | .partialSum x => 37 * x.prbs.length
  | .layer x => 37 * x.prbs.length
  | .finished x => 37 * x.prbs.length
  | .supplement _ x => 2 + 37 * x.prbs.length
  | .missing _ _ _ _ _ _ => 2
  | .txn (.openReq _ _) => 5
  | .txn (.announce _ _ _ _ _) => 11
  | .txn (.prepareReq _ _) => 9
  | .txn (.prepare _ _ _ _) => 22
  | .txn (.vote _ _ _ _) => 10
  | .txn (.decision _ _ _ _) => 9
  | .txn (.abortReq _ _) => 7
  | .txn (.query _ _) => 7
  | .txn (.hold _ _ _ _) => 8
  | .txn (.outcomes _ _) => 23
  | m => Config.recordBytes (msgType m)

/-- Bytes of a record with its header of 8 bytes. -/
def msgBytes (m : StairMsg) : Nat := 8 + bodyBytes m

/-- Units of a record: class 0 whole, the others in segments of at most 256 bytes. -/
def msgUnits (m : StairMsg) : Nat := if msgClass m = 0 then 1 else ceilDiv (msgBytes m) 256

/-- The header of a class-0 record, and the body of a chunk (R444): 16-bit fields least significant byte first, mantissas most significant
bit first. -/
def chunkHeader (type len : Nat) (x : Chunk) (count : Nat) : List Byte :=
  leBytes 1 type ++ leBytes 1 (x.carrier * 32 + x.layer) ++ leBytes 2 len ++ leBytes 2 (x.sym * 4096 + x.slot) ++
    leBytes 2 (x.first * 128 + (count - 1) * 2)
def chunkBody (x : Chunk) : List Bool :=
  (x.prbs.map fun q => msbBits 8 (unsigned 8 q.1) ++
    (q.2.map fun v => msbBits 12 (unsigned 12 v.re) ++ msbBits 12 (unsigned 12 v.im)).flatten).flatten

/-- The bits of a record whose first codeword has number `seq`. The layout of records other than R444's is not stated: after the type their
bytes are free (DESIGN CHOICE, log entry 78). -/
def recordBits (m : StairMsg) (seq : Nat) : List Bool :=
  let head := fun (x : Chunk) (n : Nat) => bytesBits (chunkHeader (msgType m) (bodyBytes m) x n)
  match m with
  | .partialSum x => head x x.prbs.length ++ chunkBody x
  | .layer x => head x x.prbs.length ++ chunkBody x
  | .finished x => head x x.prbs.length ++ chunkBody x
  | .supplement origin x => head x x.prbs.length ++ bytesBits (leBytes 2 origin) ++ chunkBody x
  | .missing root c l slot sym first =>
    head { carrier := c, layer := l, slot := slot, sym := sym, first := first, prbs := [] } 1 ++ bytesBits (leBytes 2 root)
  | m => bytesBits (leBytes 1 (msgType m) ++ (List.range (msgBytes m - 1)).map fun i => Config.recordByte (msgType m) seq i)

/-- The bits of unit `u` of a record: the record, or a segment with its header of 4 bytes. -/
def unitBits (m : StairMsg) (seq u : Nat) : List Bool :=
  if msgClass m = 0 then recordBits m seq
  else
    let len := min 256 (msgBytes m - 256 * u)
    let last := b2n (decide (u + 1 = msgUnits m))
    bytesBits (leBytes 1 (0xF0 + msgClass m) ++ (List.range 3).map fun i => Config.segmentByte last len i) ++
      ((recordBits m seq).drop (2048 * u)).take (8 * len)

/-- Bytes of a unit, and the codewords it takes: 2,710 payload bits each (R426), from the first byte boundary of the port's bit stream in a
codeword of its own on (R427; DEDUCED, log entry 31). -/
def unitBytes (m : StairMsg) (u : Nat) : Nat := if msgClass m = 0 then msgBytes m else 4 + min 256 (msgBytes m - 256 * u)
def unitCodewords (m : StairMsg) (u : Nat) : Nat := ceilDiv (8 * unitBytes m u + 6) 2710

/-! ### Codewords (R426, R427) -/

/-- Bits of the port's stream from the start of codeword `seq` to its first byte boundary: a codeword's 2,710 bits are 6 more than whole
bytes. -/
def toByte (seq : Nat) : Nat := 2 * seq % 8

/-- The payload of a codeword: its part of its unit, and PAD. -/
def payloadBits (w : Codeword) : List Bool :=
  let l := match w.load with
    | some (m, u, j) =>
      let first := (w.seq + 16384 - j % 16384) % 16384
      ((List.replicate (toByte first) false ++ unitBits m first u).drop (2710 * j)).take 2710
    | none => []
  l ++ List.replicate (2710 - l.length) false

/-- The control symbol: content, and the low 9 bits of the number. -/
def controlSymbol (w : Codeword) : Nat := 512 * b2n w.load.isSome + w.seq % 512

/-- Symbols of ten bits, most significant first; `k` bounds them. -/
def symbols10 : Nat → List Bool → List Nat
  | 0, _ => []
  | k + 1, l => (l.take 10).foldl (fun n b => 2 * n + b2n b) 0 :: symbols10 k (l.drop 10)

/-- A codeword of RS(288,272): 272 data symbols and 16 parity symbols; the code's generator is not stated (free value, log entry 78). -/
def codeSymbols (w : Codeword) : List Nat :=
  let d := controlSymbol w :: symbols10 271 (payloadBits w)
  d ++ (List.range 16).map fun k => Config.rsParity d k % 1024

/-- The 2,880 bits of a codeword. -/
def codewordBits (w : Codeword) : List Bool := ((codeSymbols w).map (msbBits 10)).flatten

/-! ### The scrambler (R422) -/

/-- Polynomials over GF(2) as numbers, modulo z^58 + z^19 + 1: the bits of the sequence of x^58 + x^39 + 1 obey s(k + 58) = s(k + 19) + s(k). -/
def scrTimesZ (p : Nat) : Nat := if p.testBit 57 then (2 * p - 2 ^ 58) ^^^ 0x80001 else 2 * p
def scrMul (a b : Nat) : Nat :=
  (List.range 58).foldl (fun r i => let r2 := scrTimesZ r; if b.testBit (57 - i) then r2 ^^^ a else r2) 0

/-- z^k; `f` bounds the bits of k. -/
def scrPower : Nat → Nat → Nat
  | 0, _ => 1
  | f + 1, k =>
    if k = 0 then 1
    else
      let h := scrPower f (k / 2)
      let h2 := scrMul h h
      if k % 2 = 1 then scrTimesZ h2 else h2

/-- Is the number of ones of a number of 58 bits odd? -/
def oddOnes (x : Nat) : Bool := (List.range 58).foldl (fun b i => b ^^ x.testBit i) false

/-- `n` bits of the sequence from the polynomial of the first on. -/
def scrRun (seed : Nat) : Nat → Nat → List Bool
  | 0, _ => []
  | n + 1, p => oddOnes (p &&& seed) :: scrRun seed n (scrTimesZ p)

/-- The scrambler's `n` bits from bit `k` after its restart on. The seed's bits are its first 58 bits. -/
def scrambler (seed k n : Nat) : List Bool := scrRun seed n (scrPower 64 k)

/-- The seed of a lane in a direction (0 sent, 1 received), never 0: its value is not stated (free value, log entry 78). -/
def laneSeed (lane dir : Nat) : Nat := 1 + Config.laneSeed lane dir % (2 ^ 58 - 1)

/-- Bits scrambled, and bits scrambled back. -/
def scrambled (l key : List Bool) : List Bool := List.zipWith Bool.xor l key

/-! ### Gray coding and pilots (R422, R424, R425) -/

/-- Two bits, the first more significant, on one of the levels -3, -1, 1, 3 (DEDUCED, log entry 78), and back. -/
def grayLevel (a b : Bool) : Int :=
  match a, b with
  | false, false => -3
  | false, true => -1
  | true, true => 1
  | true, false => 3
def grayPair (v : Int) : Bool × Bool := (decide (0 < v), decide (v = -1) || decide (v = 1))

/-- The levels of bits, and the bits of levels. -/
def grayLevels : List Bool → List Int
  | a :: b :: l => grayLevel a b :: grayLevels l
  | _ => []
def grayBits (l : List Int) : List Bool := (l.map fun v => [(grayPair v).1, (grayPair v).2]).flatten

/-- The pilot block (R425) of a lane: the known sequence at levels ±3 (free value, log entry 78), and 48 bits: the number of the next
codeword to begin on the lane, the ack, a mark and its index, the training request, the CRC-12. -/
def pilotBits (seq ack : Nat) (mark : Option Nat) (train : Nat) : List Bool :=
  let l := msbBits 14 seq ++ msbBits 14 ack ++ [mark.isSome] ++ msbBits 3 (mark.getD 0) ++ msbBits 4 train
  l ++ msbBits 12 (crcBits 12 0x80F 0 l)
def pilotBlock (lane seq ack : Nat) (mark : Option Nat) (train : Nat) : List Int :=
  ((List.range 40).map fun k => if Config.pilotKnown lane k then 3 else -3) ++ grayLevels (pilotBits seq ack mark train)

/-- The symbols of codewords laid out from data symbol `at_` of the lane on: a pilot block before every 4,032 of them. -/
def withPilots (pilot : List Int) : Nat → List Int → List Int
  | _, [] => []
  | at_, v :: l => if at_ % 4032 = 0 then pilot ++ v :: withPilots pilot (at_ + 1) l else v :: withPilots pilot (at_ + 1) l

/-- The symbols of the period that are no pilots, from symbol `at_` of the lane on. -/
def noPilots : Nat → List Int → List Int
  | _, [] => []
  | at_, v :: l => if at_ % 4096 < 64 then noPilots (at_ + 1) l else v :: noPilots (at_ + 1) l

/-- The symbol of a lane at which data symbol `d` stands, counted from the first pilot block; where a pilot block precedes it, that block's
first. -/
def laneSymbol (d : Nat) : Nat := 4096 * (d / 4032) + (if d % 4032 = 0 then 0 else 64 + d % 4032)

/-- The levels of a codeword that is the `place`-th of its lane: scrambled after its FEC encoding, Gray-coded, with the pilot blocks that
fall into it. -/
def codewordLevels (lane place : Nat) (w : Codeword) (pilot : List Int) : List Int :=
  withPilots pilot (1440 * place) (grayLevels (scrambled (codewordBits w) (scrambler (laneSeed lane 0) (2880 * place) 2880)))

/-- Codewords that a lane has sent whole in `n` ticks from its first pilot block on, at 26.5625 GBd (R421, R424). -/
def codewordsIn (n : Nat) : Nat :=
  let y := n * 1328125 / 196608
  (4032 * (y / 4096) + (y % 4096 - 64)) / 1440

end Sys2Proof.Machine
end

