-- ==== Sys2Proof/Machine/Links.lean ====
section
/-!
DEFINITION. Sending and routing on the stair network (R427 to R429, R442 to R444, R448): ports, lanes and their states, codewords,
records to the parent, to the children and to one landing; and the mark of a landing whose calibration is stale (R497).
-/

namespace Sys2Proof.Machine

open Sys2Proof

/-! ### Ports and lanes -/

/-- The port states of PORT_STATUS. -/
def spDisabled : Nat := 0
def spListen : Nat := 1
def spDetect : Nat := 2
def spEcho : Nat := 3
def spFarEq : Nat := 4
def spFull : Nat := 5
def spUp : Nat := 6
def spHoldoff : Nat := 7
def spSleep : Nat := 8
def spWaking : Nat := 9

/-- The lane states of LANE_STATUS. -/
def slOff : Nat := 0
def slTraining : Nat := 1
def slActive : Nat := 2
def slOut : Nat := 3
def slHoldoff : Nat := 4

/-- The uses of a flight, and the tree states. -/
def useNone : Nat := 0
def useParent : Nat := 1
def useChild : Nat := 2
def useStandby : Nat := 3
def treeNone : Nat := 0
def treeForming : Nat := 1
def treeFormed : Nat := 2
def treeOrphan : Nat := 3
def treeLost : Nat := 4
def treeRefused : Nat := 5

/-- A port beside its registers. -/
def State.sPort (s : State) (n : Nat) : StairPort := s.stair.ports.getD n StairPort.reset
def State.modSPort (s : State) (n : Nat) (f : StairPort → StairPort) : State :=
  { s with stair := { s.stair with ports := s.stair.ports.modify n f } }

/-- A lane beside its registers. -/
def State.sLane (s : State) (i : Nat) : StairLane := s.stair.lanes.getD i StairLane.reset
def State.modSLane (s : State) (i : Nat) (f : StairLane → StairLane) : State :=
  { s with stair := { s.stair with lanes := s.stair.lanes.modify i f } }

/-- The tree as the landing holds it. -/
def State.treeOf (s : State) : TreeState := s.stair.tree
def State.modTree (s : State) (f : TreeState → TreeState) : State := { s with stair := { s.stair with tree := f s.stair.tree } }

/-- A port's state, a lane's state, the tree state, the depth. -/
def State.sState (s : State) (n : Nat) : Nat := s.get (Reg.STAIR.PORT_STATUS.state n)
def State.sUp (s : State) (n : Nat) : Bool := s.sState n == spUp
def State.laneState (s : State) (i : Nat) : Nat := s.get (Reg.STAIR.LANE_STATUS.state i)
def State.treeState (s : State) : Nat := s.get Reg.STAIR.STATUS.tree
def State.depth (s : State) : Nat := s.get Reg.STAIR.STATUS.depth

/-- The lanes of a port, and those that are ACTIVE. -/
def portLanes (n : Nat) : List Nat := (List.range 4).map fun l => 4 * n + l
def State.activeLanes (s : State) (n : Nat) : List Nat := (portLanes n).filter fun i => s.laneState i == slActive

/-- PORT_STATUS.lanes follows the lanes. -/
def State.showLanes (s : State) (n : Nat) : State :=
  s.put (Reg.STAIR.PORT_STATUS.lanes n) (sumNat ((List.range 4).map fun l => if s.laneState (4 * n + l) == slActive then 2 ^ l else 0))

/-- The use of a port's flight. -/
def State.sUse (s : State) (n : Nat) : Nat := s.get (Reg.STAIR.PORT_STATUS.use n)

/-- The parent port in use, and the child ports. -/
def State.parentPort (s : State) : Option Nat :=
  if s.flag Reg.STAIR.STATUS.has_parent then some (s.get Reg.STAIR.STATUS.parent) else none
def State.childPorts (s : State) : List Nat := (List.range 4).filter fun n => s.sUp n && s.sUse n == useChild

/-- The child ports whose landing takes part: its flight has not faulted since it last joined (R445, R739). -/
def State.liveChildren (s : State) : List Nat := s.childPorts.filter fun n => !(s.sPort n).gone

/-! ### Records (R442 to R444) -/

/-- Does a lane of a port transmit codewords: in split mode the lower two only (R439)? -/
def State.transmits (s : State) (i : Nat) : Bool := !(s.sPort (i / 4)).split || i % 4 < 2

/-- The active lanes of a port that transmit, from the one dealt to next on (R427). -/
def State.dealOrder (s : State) (n : Nat) : List Nat :=
  let l := (s.activeLanes n).filter s.transmits
  let t := 4 * n + (s.sPort n).turn
  (l.filter fun i => t ≤ i) ++ l.filter fun i => i < t

/-- The transmitters of a port's lanes begin: the first pilot block, from which the scramblers run (R422, R424). -/
def State.lanesBegin (s : State) (lanes : List Nat) : State :=
  let at0 := s.now
  s.forEach (lanes.filter s.transmits) fun i s => s.modSLane i fun x => { x with startAt := some at0, sent := 0 }

/-- The codewords filled with PAD that the lanes have sent since the last codeword with content (R423). Each counts as acknowledged as it
leaves (DESIGN CHOICE, log entry 78). A port with 512 unacknowledged codewords begins none: repeats take their places (R429). -/
def State.padLanes (s : State) (n : Nat) : State :=
  let due := (portLanes n).filterMap fun i =>
    let x := s.sLane i
    match x.startAt with
    | some a => let k := codewordsIn (s.now - a); if x.sent < k && s.laneState i != slOut then some (i, x.sent, k - x.sent) else none
    | none => none
  if due.isEmpty then s
  else
    let first := (s.sPort n).next
    let s := s.forEach due fun e s => s.modSLane e.1 fun x => { x with sent := e.2.1 + e.2.2 }
    if 512 ≤ (s.sPort n).unacked.length then s
    else (s.modSPort n fun x => { x with next := (first + sumNat (due.map fun e => e.2.2)) % 16384 }).emit (.pads n first due)

/-- A codeword leaves on a lane, with the pilot blocks that fall into it: before its first symbol the pilot names it, later the codeword
that the lane is dealt after it (R424 to R427). -/
def State.onLane (s : State) (i : Nat) (w : Codeword) : State :=
  let at0 := s.now
  let n := i / 4
  let x := s.sLane i
  let next := if 1440 * x.sent % 4032 = 0 then w.seq else (w.seq + (s.dealOrder n).length) % 16384
  let pilot := pilotBlock i next (s.sPort n).rxNext none 0
  let s := s.emit (.codeword i x.sent w.seq (codewordLevels i x.sent w pilot))
  let s := (s.modSLane i fun y => { y with sent := y.sent + 1, busyAt := if w.load.isSome then at0 else y.busyAt }).modSPort n fun y =>
    { y with turn := (i + 1) % 4 }
  if w.load.isSome then s.put (Reg.STAIR.LANE_ADAPT.idle i) 0 else s

/-- A new codeword of a port is dealt to its next lane, and kept until it is acknowledged (R427, R428). -/
def State.dealCodeword (s : State) (n : Nat) (msg : Option StairMsg) (load : StairMsg × Nat × Nat) : State :=
  let at0 := s.now
  let w : Codeword := { seq := (s.sPort n).next, begun := at0, msg := msg, load := some load }
  let s := s.modSPort n fun x =>
    { x with unacked := x.unacked ++ [w], next := (x.next + 1) % 16384, ackAt := if x.unacked.isEmpty then at0 else x.ackAt }
  match s.dealOrder n with
  | i :: _ => s.onLane i w
  | [] => s

/-- Unit `u` of a record leaves on a port; with its last unit the record has left. -/
def State.sendUnit (s : State) (n : Nat) (m : StairMsg) (u : Nat) : State :=
  let k := unitCodewords m u
  let last := u + 1 = msgUnits m
  let s := (s.padLanes n).forEach (List.range k) fun j s =>
    s.dealCodeword n (if last && decide (j + 1 = k) then some m else none) (m, u, j)
  if last then s.emit (.stair n m) else s

/-- The record whose unit a port sends next, by class (R442), its place in the queue, and the number of the unit. -/
def StairPort.nextUnit (x : StairPort) : Option (Nat × StairMsg × Nat) :=
  let g := grantFrom x.runs (x.queue.map msgClass) 4 0
  match x.queue.findIdx? fun m => msgClass m == g with
  | some i => (x.queue[i]?).map fun m => (i, m, if g = 0 then 0 else x.parts.getD (g - 1) 0)
  | none => none

/-- The port once unit `u` of the record at place `i` of its queue has been chosen. -/
def StairPort.took (x : StairPort) (i : Nat) (m : StairMsg) (u : Nat) : StairPort :=
  let g := msgClass m
  let last := u + 1 = msgUnits m
  { x with queue := if last then x.queue.eraseIdx i else x.queue,
           parts := if g = 0 then x.parts else x.parts.set (g - 1) (if last then 0 else u + 1),
           runs := runsAfter x.runs (x.queue.map msgClass) g }

/-- Units that wait on a port leave while fewer than 512 codewords are unacknowledged; `k` bounds them. -/
def State.drainUnits (s : State) (n : Nat) : Nat → State
  | 0 => s
  | k + 1 =>
    match (s.sPort n).nextUnit with
    | none => s
    | some (i, m, u) =>
      if 512 ≤ (s.sPort n).unacked.length then s
      else ((s.modSPort n fun x => x.took i m u).sendUnit n m u).drainUnits n k

/-- All units that wait on a port leave, as far as the window allows. -/
def State.drainStair (s : State) (n : Nat) : State := s.drainUnits n (sumNat ((s.sPort n).queue.map msgUnits))

/-- Send a record on a port in UP; on any other port nothing leaves. -/
def State.sendOn (s : State) (n : Nat) (m : StairMsg) : State :=
  if s.sUp n then
    (s.modSPort n fun x => { x with queue := x.queue ++ [m] }).drainStair n
  else s

/-- Send to the parent, to every child, to one child's subtree. -/
def State.sendUp (s : State) (m : StairMsg) : State :=
  match s.parentPort with
  | some n => s.sendOn n m
  | none => s
def State.sendDown (s : State) (m : StairMsg) : State := s.forEach s.childPorts fun n s => s.sendOn n m
def State.sendTo (s : State) (landing : Nat) (m : StairMsg) : State :=
  match assoc? s.treeOf.below landing with
  | some (n :: _) => s.sendOn n m
  | _ => s

/-- A record for a confirmed parent: it goes up, or waits (R456). -/
def State.sendConfirmed (s : State) (m : StairMsg) : State :=
  if s.parentPort.isSome then s.sendUp m else s.modTree fun t => { t with supplements := t.supplements ++ [m] }

/-! ### Stale calibration (R497) -/

/-- The landing marks itself stale, and says so to the top; within a round it keeps its total (R477, R493, R497; DESIGN CHOICE, log entry 34). -/
def State.markStale (s : State) : State :=
  let at0 := s.now
  let s := s.put Reg.OTA.STATUS.stale 1
  let s := { s with ota := { s.ota with staleRound := s.ota.staleRound || s.ota.active } }
  if s.isTop then { s with ota := { s.ota with staleAt := some at0 } } else s.sendUp (.ota (.stale s.landing))

/-- The hottest valid temperature reading, signed Q12.4 °C (R497). -/
def State.hottestValid (s : State) : Option Int :=
  let l := ((List.range 24).filter fun n => s.flag (Reg.THERMAL.TS.valid n)).map fun n => s.getS (Reg.THERMAL.TS.reading n)
  match l with
  | [] => none
  | x :: xs => some (xs.foldl max x)

/-! ### The end of a calibration round (R478, R494, R497) -/

/-- The round ends on this landing, with a cause where it ends without its result. -/
def State.otaEnd (s : State) (cause : Nat) : State :=
  let s := if cause = 0 then s else s.put Reg.OTA.STATUS.cause cause
  let s := (s.put Reg.OTA.STATUS.state 0).put Reg.OTA.STATUS.done 1
  { s with ota := { s.ota with active := false, windows := [], now := none, captures := [none, none] } }

/-- The tree has left FORMED: a round in progress is abandoned with cause TREE (R478). -/
def State.otaAbandon (s : State) : State := if s.get Reg.OTA.STATUS.state = 0 then s else s.otaEnd 4

/-- New totals and factors are in force: stale clears where the solution reached the landing (R493, R497). -/
def State.otaInForce (s : State) (total : Nat) : State :=
  let t := s.hottestValid
  let s := s.put Reg.OTA.PSI.total total
  let s := { s with ota := { s.ota with tau := s.ota.newTau, rho := s.ota.newRho, tempAt := t } }
  if s.ota.reached then s.put Reg.OTA.STATUS.stale 0 else s

end Sys2Proof.Machine
end

