-- ==== Sys2Proof/Machine/Paths.lean ====
section
/-!
DEFINITION. Operations on the transceiver paths that several families share: states and mute reasons (R136), LO delivery (R158,
R159), blanking (R143), freezes (R133), update points (R120), service and retirement (R177 to R180), and the receive and transmit
corrections of a sample stream (R122, R128, R130, R134).
-/

namespace Sys2Proof.Machine

open Sys2Proof

/-- The codes of PATH[p].STATUS.state. -/
def pathDisabled : Nat := 0
def pathOut : Nat := 1
def pathIn : Nat := 2
def pathCal : Nat := 3
def pathRetired : Nat := 4

/-- A path's state code. -/
def State.pathState (s : State) (p : Nat) : Nat := s.get (Reg.PATH.STATUS.state p)

/-- Is the path IN_SERVICE? -/
def State.inService (s : State) (p : Nat) : Bool := s.pathState p == pathIn

/-- The bits of mute_reasons (R136). -/
def muteHost : Nat := 0
def muteLo : Nat := 1
def muteLate : Nat := 2
def muteBlank : Nat := 3
def muteService : Nat := 4
def muteCal : Nat := 5
def muteRetired : Nat := 6

/-- The mute reasons of a path. -/
def State.mutes (s : State) (p : Nat) : Nat := s.get (Reg.PATH.STATUS.mute_reasons p)

/-- Is the path muted for any reason? -/
def State.muted (s : State) (p : Nat) : Bool := s.mutes p != 0

/-- What observation holds for a path. -/
def State.obsOf (s : State) (p : Nat) : ObsPath := s.obsPath.getD p ObsPath.reset

/-- Change it. -/
def State.modObs (s : State) (p : Nat) (f : ObsPath → ObsPath) : State := { s with obsPath := s.obsPath.modify p f }

/-- Set or clear a mute reason. -/
def State.setMute (s : State) (p bit : Nat) (on : Bool) : State :=
  if (s.mutes p).testBit bit == on then s else s.putBit (Reg.PATH.STATUS.mute_reasons p) bit on

/-- The group and the bank of a path. -/
def groupOf (p : Nat) : Nat := p / 8
def bankOf (p : Nat) : Nat := p / 32

/-- The paths of a group and of a bank. -/
def groupPaths (g : Nat) : List Nat := (List.range 8).map fun n => 8 * g + n
def bankPaths (b : Nat) : List Nat := (List.range 32).map fun n => 32 * b + n

/-! ### LO delivery -/

/-- The codes of CLOCK.LOx_STATUS.state (R152). -/
def loOff : Nat := 0
def loBias : Nat := 1
def loBand : Nat := 2
def loAcquire : Nat := 3
def loSettle : Nat := 4
def loLocked : Nat := 5
def loFailed : Nat := 6

/-- A bank's state code, and whether it is cross-fed. -/
def State.loState (s : State) (b : Nat) : Nat := s.get (Reg.CLOCK.LO_STATUS.state b)
def State.crossfed (s : State) (b : Nat) : Bool := s.flag (Reg.CLOCK.LO_STATUS.crossfed b)

/-- Have a bank's paths an LO: the bank is LOCKED, or cross-fed by the other one, which is? -/
def State.loDelivers (s : State) (b : Nat) : Bool := s.loState b == loLocked || (s.crossfed b && s.loState (1 - b) == loLocked)

/-- The mute reason lo of every path of a bank follows the LO (R136, R159). -/
def State.muteByLo (s : State) (b : Nat) : State :=
  s.forEach (bankPaths b) fun p s => s.setMute p muteLo (!s.loDelivers b)

/-! ### Blanking (R143) -/

/-- The actions asserted on a group: transmit mute, receive blank. -/
def State.blankOf (s : State) (g : Nat) : Bool × Bool :=
  let ctl := s.get (Reg.GROUP.BLANK_CTL.actions g)
  let act := (List.range 4).map fun n => if s.radio.blank.getD n false then ctl / 4 ^ n % 4 else 0
  (act.any fun a => a % 2 == 1, act.any fun a => a / 2 == 1)

/-- Is any blanking asserted on the group? -/
def State.blanked (s : State) (g : Nat) : Bool := (s.blankOf g).1 || (s.blankOf g).2

/-! ### Direction and freezes (R133, R138 to R142) -/

/-- Are all the carriers that process symbols FDD? -/
def State.allFdd (s : State) : Bool := s.activeCarriers.all fun c => (s.form c).tdd == 0

/-- The downlink symbol of a carrier in progress at array time `a`, where there is one. -/
def State.onAir (s : State) (c a : Nat) : Option Nat :=
  let h := s.asOf a
  let n := (h.form c).symbolAt a
  if h.carActive c && h.dlSym c n then some n else none

/-- The largest lead and lag that TR_TIMING stores, in ticks (R140). -/
def maxLead : Nat := 8 * 393
def maxLag : Nat := 8 * 196

/-- tx_lead in ticks for a switch to transmission at array time `a`, tx_lag for one to reception: the value written before the switch
can begin (R140; DEDUCED, log entry 57). -/
def State.txLead (s : State) (g a : Nat) : Nat := 8 * (s.asOf (a - maxLead)).get (Reg.GROUP.TR_TIMING.tx_lead g)
def State.txLag (s : State) (g a : Nat) : Nat := 8 * (s.asOf a).get (Reg.GROUP.TR_TIMING.tx_lag g)

/-- Has a carrier at array time `a` a downlink symbol, or the turnaround around one on the paths of group `g`: tx_lead before its first
sample, tx_lag and `extra` ticks after its last (R139, R140)? -/
def State.dlAround (s : State) (c g a extra : Nat) : Bool :=
  (s.onAir c a).isSome ||
    (match s.onAir c (a + maxLead) with
      | some n => let b := ((s.asOf (a + maxLead)).form c).boundary n; decide (b ≤ a + s.txLead g b)
      | none => false) ||
    (match s.onAir c (a - (maxLag + extra)) with
      | some n => let e := ((s.asOf (a - (maxLag + extra))).form c).boundary (n + 1); decide (a < e + s.txLag g e + extra)
      | none => false)

/-- Does the landing's own transmission of a calibration round hold a path's output at array time `a`, from `before` ahead of it to `after`
past its end (R480, R482)? -/
def State.otaAir (s : State) (p a before after : Nat) : Bool :=
  match s.ota.air with
  | some x => (x.turn.all fun k => p % 8 == k) && decide (x.from_ ≤ a + before) && decide (a < x.until_ + after)
  | none => false

/-- The T/R line of a path at array time `a` (R138 to R140, R142), also around the landing's own calibration transmissions (R482); low in
THERMAL_OFF (R590). -/
def State.trHigh (s : State) (p a : Nat) : Bool :=
  let h := s.asOf a
  h.inService p && s.power != powerThermalOff && (if h.allFdd && !h.activeCarriers.isEmpty then true
    else s.otaAir p a (s.txLead (groupOf p) a) (s.txLag (groupOf p) a) ||
      (List.range 8).any fun c => s.dlAround c (groupOf p) a 0)

/-- Are the receive samples of group `g` at array time `a` inside a transmission or a turnaround (R139, R140)? Never where every carrier
is FDD (R138). -/
def State.rxOff (s : State) (g a : Nat) : Bool :=
  !(s.asOf a).allFdd && (List.range 8).any fun c => s.dlAround c g a (ticksOfNs 400)

/-- Are the receive samples of a path at array time `a` valid (R140)? -/
def State.rxValid (s : State) (p a : Nat) : Bool :=
  let h := s.asOf a
  h.pathState p != pathRetired && h.power != powerThermalOff && !s.rxOff (groupOf p) a

/-- Is the modulator output stage of a path enabled at array time `a`: from 200 ns before the first downlink sample to 20 ns after the
last, and at no time while the path is muted (R136, R140)? -/
def State.stageOn (s : State) (p a : Nat) : Bool :=
  let h := s.asOf a
  !h.muted p && ((h.allFdd && !h.activeCarriers.isEmpty) || s.otaAir p a (ticksOfNs 200) (ticksOfNs 20) ||
    (List.range 8).any fun c => (s.onAir c a).isSome || (s.onAir c (a + ticksOfNs 200)).isSome || (s.onAir c (a - ticksOfNs 20)).isSome)

/-- The freezes of R133 as they stand: DC loop, IQ tracking. Receive samples must have been valid for 100 ns. -/
def State.freezes (s : State) (p : Nat) : Bool × Bool :=
  let x := s.path p
  let a := s.arrayNow
  let both := !s.rxValid p a || !s.rxValid p (a - ticksOfNs 100) || (s.blankOf (groupOf p)).2 || (x.cal.any fun r => r.running) ||
    !s.loDelivers (bankOf p)
  (both || s.now < x.dcUntil || s.flag (Reg.PATH.LOOP_CTL.dc_freeze p),
   both || s.now < x.iqUntil || s.flag (Reg.PATH.LOOP_CTL.iq_freeze p))

/-- A timed freeze of the DC loop for `ns`, the IQ window discarded (R133). -/
def State.freezeFor (s : State) (p ns : Nat) : State :=
  s.modPath p fun x => { x with dcUntil := max x.dcUntil (s.now + ticksOfNs ns), iqDiscard := true }

/-! ### Update points (R120, R132) -/

/-- The estimate that the DC loop holds for a gain. -/
def PathState.estimate (x : PathState) (g : Nat) : DcEst := x.dc.getD g { i := 0, q := 0, e := 0 }

/-- The analogue gain changes on a path at an update point, which takes up the estimate of the new gain (R121, R129, R133). -/
def State.setGain (s : State) (p g : Nat) : State :=
  if (s.path p).gain = g then s else (s.modPath p fun x => { x with gain := g, dcForce := x.estimate g }).freezeFor p 1000

/-- The coefficient words that a path's registers hold: trim, leakage, receive and transmit taps. -/
def State.coeffWords (s : State) (p : Nat) : List Word :=
  [s.word (Reg.PATH.RX_DC_TRIM.word p).addr, s.word (Reg.PATH.TX_LO_COMP.word p).addr] ++
    ((List.range 8).map fun k => s.word (Reg.PATH.RX_IQ_TAP.word p k).addr) ++
    ((List.range 8).map fun k => s.word (Reg.PATH.TX_IQ_TAP.word p k).addr)

/-- Every path is muted for the host in IDLE (R573) and in THERMAL_OFF (R590). -/
def State.allMuted (s : State) : Bool := s.power == powerIdle || (s.power == powerWaking && s.energy.goal == 1) || s.power == powerThermalOff

/-- At an update point the coefficients, the manual gain and the host mute of a path take effect (R120, R123, R129,
R132). -/
def State.updatePath (s : State) (p : Nat) : State :=
  let words := s.coeffWords p
  let s := s.modPath p fun x => { x with coeffs := words }
  let s := s.setMute p muteHost (s.allMuted || s.flag (Reg.PATH.CTL.mute p))
  let s := if s.get (Reg.PATH.AGC_CTL.mode p) = 0 then s.setGain p (s.get (Reg.PATH.RX_GAIN.gain p)) else s
  s.modPath p fun x => { x with dcForce := x.estimate x.gain }

/-- Every path takes up what waits for its update point, the gain trims with it (R648). -/
def State.updatePaths (s : State) : State := { s with trimsRx := s.trims }.forEach (List.range 64) fun p s => s.updatePath p

/-! ### The end of a calibration (R167, R170, R174) -/

/-- The codes of CAL_STATUS.result. -/
def resOk : Nat := 0
def resPrecond : Nat := 1
def resBusy : Nat := 2
def resRange : Nat := 3
def resCancelled : Nat := 4
def resCommand : Nat := 5

/-- Report the outcome of a request: result, precondition, code, lost_midway, and then done (R174). -/
def State.calReport (s : State) (p result precond code : Nat) (lost : Bool) : State :=
  let s := s.put (Reg.PATH.CAL_STATUS.result p) result
  let s := s.put (Reg.PATH.CAL_STATUS.precond p) precond
  let s := s.put (Reg.PATH.CAL_STATUS.last p) code
  let s := s.putB (Reg.PATH.CAL_STATUS.lost_midway p) lost
  s.put (Reg.PATH.CAL_STATUS.done p) 1

/-- Does a calibration of a code check a precondition (R167)? OBS checks 0x03 and 0x07, receive calibrations not 0x04, transmit ones not
0x05. -/
def calChecks (code precond : Nat) : Bool :=
  1 ≤ precond && precond ≤ 8 &&
    (if code = 5 then precond = 3 || precond = 7 else !(precond = 4 && (code = 1 || code = 2)) && !(precond = 5 && (code = 3 || code = 4)))

/-- The calibration on a path is over: its flags and its hold on the path end, and a transmitter that it drove is silent. -/
def State.calClear (s : State) (p : Nat) : State :=
  let drove := (s.mutes p).testBit muteCal
  let s := s.modPath p fun x => { x with cal := none }
  let s := (s.put (Reg.PATH.CAL_STATUS.queued p) 0).put (Reg.PATH.CAL_STATUS.running p) 0
  let s := if s.pathState p == pathCal then s.put (Reg.PATH.STATUS.state p) pathOut else s
  let s := (s.setMute p muteCal false).disarm (.cal p)
  if drove then s.emit (.calDrive p s.now none) else s

/-- A precondition that a calibration checks fails while it runs: it stops, coefficients unchanged (R170). -/
def State.calLost (s : State) (p precond : Nat) : State :=
  match (s.path p).cal with
  | some r => if r.running && calChecks r.code precond then (s.calClear p).calReport p resPrecond precond r.code true else s
  | none => s

/-- A precondition fails for good: a running calibration stops, and one that waits is refused. -/
def State.calRefuse (s : State) (p precond : Nat) : State :=
  match (s.path p).cal with
  | some r =>
    if r.running then s.calLost p precond
    else if calChecks r.code precond then (s.calClear p).calReport p resPrecond precond r.code false
    else s
  | none => s

/-! ### Service and retirement (R177 to R180) -/

/-- The service bit takes effect on a path: its state and its mute reason follow; in service no calibration runs on it (R170); a path that
returns makes the landing stale (R497). -/
def State.applyService (s : State) (p : Nat) (on : Bool) : State :=
  if s.pathState p == pathRetired || s.pathState p == pathDisabled then s
  else
    let was := s.inService p
    let s := if on then s.calLost p 1 else s
    let cal := (s.path p).cal.any fun r => r.running
    let s := s.put (Reg.PATH.STATUS.state p) (if on then pathIn else if cal then pathCal else pathOut)
    let s := s.setMute p muteService (!on)
    if on && !was then (s.modObs p fun o => { o with attenRef := none }).markStale else s

/-- The paths IN_SERVICE. -/
def State.pathsIn (s : State) : List Nat := (List.range 64).filter s.inService

/-- Does the beam engine use the path on a carrier: IN_SERVICE, or retired in service and not yet excluded (R177, R179)? -/
def State.beamPath (s : State) (c p : Nat) : Bool :=
  let x := s.path p
  !x.excluded.contains c && (s.inService p || (x.failedAt.isSome && x.failedIn))

/-- The record and the notice of a retired path, once its exclusion is complete, with the symbols that it degraded (R180, R545). -/
def State.retireRecord (s : State) (p detected : Nat) : State :=
  let cause := s.get (Reg.PATH.STATUS.retire_cause p)
  let s := s.record { kind := .fault, cls := 0x09, unit := unitPath, inst := p, cause := cause, action := 3,
                      degraded := (s.path p).failedSyms, tenths := (s.arrayNow - detected) * 10000 / 3932160, since := some detected,
                      carriers := sumNat (s.activeCarriers.map fun c => 2 ^ c) }
  s.notice .event

/-- Retire a path (R178, R179): its state and cause, muted, its T/R line low, its calibration ended, its exclusion under way. With no
carrier to exclude it from, it is recorded at once. -/
def State.retire (s : State) (p cause : Nat) : State :=
  if s.pathState p == pathRetired then s
  else
    let was := s.inService p
    let s := s.put (Reg.PATH.STATUS.retire_cause p) cause
    let s := s.put (Reg.PATH.STATUS.state p) pathRetired
    let s := (s.setMute p muteRetired true).calRefuse p 2
    if s.activeCarriers.isEmpty then
      (s.modPath p fun x => { x with failedAt := none, failedIn := false, failedSyms := 0, excluded := List.range 8 }).retireRecord p s.arrayNow
    else
      (s.modPath p fun x => { x with failedAt := some s.arrayNow, failedIn := was, failedSyms := 0, excluded := [] }).internalAt
        (s.arrayNow + ticksOfUs 2) [.exclude p]

/-! ### The corrections of a sample stream -/

/-- The instants from array time `a` to before `b` from which other settings were in force, newest first, and `a`. -/
def State.changes (s : State) (a b : Nat) : List Nat :=
  (if a < s.arrayNow && s.arrayNow < b then [s.arrayNow] else []) ++
    (s.radio.shots.filterMap fun x => if a < x.since && x.since < b then some x.since else none) ++ [a]

/-- What a setting is for each of `n` samples that lie `step` ticks apart from index `lo` on. -/
def State.track {α : Type} (s : State) (lo : Int) (step n : Nat) (f : State → α) : List α :=
  let time := fun (i : Nat) => ((lo + i) * step).toNat
  let marks := (s.changes (time 0) (time n)).map fun t => (t, f (s.asOf t))
  (List.range n).map fun i => match marks.find? fun m => decide (m.1 ≤ time i) with
    | some m => m.2
    | none => f s

/-- A power. -/
def natPow (b n : Nat) : Nat := b ^ n

/-- The largest `y` with y^5120 × 10^neg ≤ 4096^5120 × 10^pos: the truncated UQ7.12 value of 10^(x/5120), x = pos - neg. -/
def powSearch (pos neg : Nat) : Nat → Nat → Nat
  | 0, lo => lo
  | k + 1, lo =>
    let y := lo + 2 ^ k
    powSearch pos neg k (if natPow y 5120 * 10 ^ neg ≤ natPow 4096 5120 * 10 ^ pos then y else lo)

/-- The entry of the digital-gain table for a difference of `x` 1/256 dB (R122): UQ7.12, at most its largest value. -/
def gainEntry (x : Int) : Nat := powSearch x.toNat (-x).toNat 19 0

/-- The trim of a path's analogue gain step `g` in force, in 1/256 dB (R648). -/
def State.gainTrim (s : State) (p g : Nat) : Nat :=
  let a := (Reg.TRIM.RX_GAIN.word p g).addr
  getBits ((assoc? s.trimsRx a).getD (s.trimLoaded a)) 0 16

/-- The table entry of a path at gain `g`. -/
def State.gainFactor (s : State) (p g : Nat) : Nat :=
  gainEntry ((s.get (Reg.PATH.RX_GAIN.ref p) * 256 : Nat) - (s.gainTrim p g : Int))

/-- A DC estimate's component x / 2^e in whole codes: only the direction of its rounding is open (R128). -/
def dcCodes (x : Int) (e : Nat) : Int :=
  shrFloor x e + if x % (2 ^ e : Nat) = 0 then 0 else (b2n (Config.dcRound x e) : Int)

/-- Eight samples around the one at index `i` of a list, newest first: the newest lies 3 samples later, so that the delay of R130 is
removed (DEDUCED, log entry 58). -/
def iqSamples (arr : Array Cplx) (i : Nat) : List Cplx :=
  (List.range 8).map fun k => if k ≤ i + 3 then arr.getD (i + 3 - k) Cplx.zero else Cplx.zero

/-- The IQ correction of R130 and R134 with eight taps, newest sample first in `h`. -/
def iqCorrect (taps : List Cplx) (h : List Cplx) : Cplx :=
  ((Cplx.smul 32768 (h.getD 3 Cplx.zero)).add (dotC taps (h.map Cplx.conj))).out16 15

/-- What the receive corrections of a path are set to: DC estimate, IQ taps, digital gain times the table entry of the gain in force. -/
def State.rxSettings (s : State) (p : Nat) : (Int × Int) × List Cplx × Nat :=
  let x := s.path p
  let d := x.dcForce
  ((dcCodes d.i d.e, dcCodes d.q d.e), (x.coeffs.drop 2).take 8 |>.map (fun w => cplxOfWord w.toNat),
   s.get (Reg.PATH.RX_GAIN.dgain p) * s.gainFactor p x.gain)

/-- The receive samples of a path from ADC codes that begin at sample index `lo`: DC loop (R128), IQ correction (R130), digital gain (R122),
each with the settings in force for the sample (R120). -/
def State.rxFront (s : State) (p : Nat) (lo : Int) (codes : List Cplx) : List Cplx :=
  let set := s.track lo 2 codes.length fun h => h.rxSettings p
  let dc := (List.zipWith (fun v y => (⟨v.re - y.1.1, v.im - y.1.2⟩ : Cplx)) codes set).toArray
  ((List.range codes.length).zip set).map fun e =>
    (iqCorrect e.2.2.1 (iqSamples dc e.1)).map fun v => sat16sym (shrFloor (v * e.2.2.2) 24)

/-- The transmit correction of a path: IQ taps, then the leakage compensation that is added with saturation (R134). -/
def State.txSettings (s : State) (p : Nat) : List Cplx × Cplx :=
  let x := s.path p
  ((x.coeffs.drop 10).take 8 |>.map (fun w => cplxOfWord w.toNat), cplxOfWord (x.coeffs.getD 1 0).toNat)

end Sys2Proof.Machine
end

