-- ==== Sys2Proof/Machine/Fem.lean ====
section
/-!
DEFINITION. The RFFE bus and its scripts (R147 to R151): running a script for one path with the slave's answers, and the FEM events.
-/

namespace Sys2Proof.Machine

open Sys2Proof

/-- How a script ended (R148, R150). -/
inductive FemResult where
  | ok | checkFailed | noReply | scriptError
deriving DecidableEq, Repr

/-- What running a script for one path does: bus commands in order, bytes stored in the path's FEM_DATA pair, answers not used. -/
structure FemRun where
  outs : List Output
  stores : List (Nat × Nat)
  rest : List (Option Byte)
  failures : Nat
  result : FemResult
deriving DecidableEq, Repr

/-- The answer of a read, retried once (R150): the value or none, the answers left, and how often the read went out. -/
def femAnswer : List (Option Byte) → Option Byte × List (Option Byte) × Nat
  | some v :: r => (some v, r, 1)
  | none :: some v :: r => (some v, r, 2)
  | none :: none :: r => (none, r, 2)
  | [none] => (none, [], 2)
  | [] => (none, [], 2)

/-- The operation codes of a script word. -/
def femWrite : Nat := 0
def femReadStore : Nat := 1
def femReadCheck : Nat := 2
def femDelay : Nat := 3
def femEnd : Nat := 4
def femWrite0 : Nat := 5

/-- Run the script words of a group from word `i`, for a path with slave ID `own` (R147, R148, R150). A script that runs past word 63, or
whose entry lies past it, is a script error, and 64 words without END end it as if by END (DESIGN CHOICE, log entry 61). -/
def State.femScriptRun (s : State) (g own : Nat) : Nat → Nat → FemRun → FemRun
  | 0, _, r => r
  | n + 1, i, r =>
    if 64 ≤ i then { r with result := .scriptError }
    else
      let w := s.word (Reg.GROUP.FEM_SCRIPT.word g i).addr
      let op := getBits w 29 3
      let id := getBits w 25 4
      let addr := getBits w 16 8
      let data := getBits w 8 8
      let aux := getBits w 0 8
      let usid := if id = 15 then own else id
      let cmd := Output.rffe g op usid addr data
      let read := op = femReadStore || op = femReadCheck
      if op = femEnd then r
      else if 5 < op || (id = 0 && read) then { r with result := .scriptError }
      else if op = femDelay then s.femScriptRun g own n (i + 1) r
      else if op = femWrite || op = femWrite0 then s.femScriptRun g own n (i + 1) { r with outs := r.outs ++ [cmd] }
      else
        let a := femAnswer r.rest
        let r := { r with outs := r.outs ++ List.replicate a.2.2 cmd, rest := a.2.1 }
        match a.1 with
        | none => { r with failures := r.failures + 1, result := .noReply }
        | some v =>
          if op = femReadStore then s.femScriptRun g own n (i + 1) { r with stores := r.stores ++ [(aux % 8, v.toNat)] }
          else if v.toNat &&& aux = data &&& aux then s.femScriptRun g own n (i + 1) r
          else { r with result := .checkFailed }

/-- The slave ID of a path's front-end module. -/
def State.usidOf (s : State) (p : Nat) : Nat := getBits (s.word (Reg.GROUP.USID_MAP.word (groupOf p)).addr) (4 * (p % 8)) 4

/-- Run the script at an entry word for a path, with its slave's answers. -/
def State.femPath (s : State) (p entry : Nat) (replies : List (Option Byte)) : FemRun :=
  s.femScriptRun (groupOf p) (s.usidOf p) 64 entry { outs := [], stores := [], rest := replies, failures := 0, result := .ok }

/-- The bytes that a script stored, put into the path's pair of FEM_DATA words. -/
def State.femStore (s : State) (p : Nat) (stores : List (Nat × Nat)) : State :=
  s.forEach stores fun e s =>
    s.put ⟨(Reg.GROUP.FEM_DATA.word (groupOf p) (2 * (p % 8) + e.1 / 4)).addr, 8 * (e.1 % 4), 8⟩ e.2

/-- What a run for one path leaves: bus commands sent, bytes stored, failed reads counted, no_reply of the path shown. -/
def State.femLeave (s : State) (p : Nat) (r : FemRun) : State :=
  let g := groupOf p
  let s := s.forEach r.outs fun o s => s.emit o
  let s := s.femStore p r.stores
  let s := s.put (Reg.GROUP.RFFE_STATUS.errors g) (min (s.get (Reg.GROUP.RFFE_STATUS.errors g) + r.failures) 255)
  let s := s.putBit (Reg.GROUP.RFFE_STATUS.no_reply g) (p % 8) (decide (r.result = .noReply))
  if r.result = .scriptError then s.put (Reg.GROUP.RFFE_STATUS.script_error g) 1 else s

/-- Run the script at an entry word for one path. -/
def State.femRun (s : State) (p entry : Nat) (replies : List (Option Byte)) : State × FemResult :=
  let r := s.femPath p entry replies
  (s.femLeave p r, r.result)

/-- Run a check script for the paths of a group in turn, the answers coming in the order of the reads, and report the result for path `p`;
a script error leaves the paths behind it unserved (R149, R150). -/
def State.femCheck (s : State) (p entry : Nat) : List Nat → List (Option Byte) → FemResult → State × FemResult
  | [], _, res => (s, res)
  | q :: rest, replies, res =>
    let r := s.femPath q entry replies
    let s := s.femLeave q r
    if r.result = .scriptError then (s, if q ≤ p then .scriptError else res)
    else s.femCheck p entry rest r.rest (if q = p then r.result else res)

/-- The entry word of an event on a group; 0xFF means none. -/
def State.femEntry (s : State) (g : Nat) : FemEvent → Nat
  | .init => s.get (Reg.GROUP.FEM_ENTRY0.init g)
  | .paCheck => s.get (Reg.GROUP.FEM_ENTRY0.pa_check g)
  | .rxCheck => s.get (Reg.GROUP.FEM_ENTRY0.rx_check g)
  | .poll => s.get (Reg.GROUP.FEM_ENTRY0.poll g)
  | .sleep => s.get (Reg.GROUP.FEM_ENTRY1.sleep g)
  | .wake => s.get (Reg.GROUP.FEM_ENTRY1.wake g)

/-- Is the FEM of a path ready (INIT answered, R149)? -/
def State.femReady (s : State) (p : Nat) (on : Bool) : State :=
  { s with radio := { s.radio with femReady := s.radio.femReady.set p on } }

/-- What an event's result means for a path (R149, R178). -/
def State.femOutcome (s : State) (ev : FemEvent) (p : Nat) (r : FemResult) : State :=
  match ev with
  | .init => s.femReady p (decide (r = .ok))
  | .poll =>
    let bad := decide (r = .noReply) || decide (r = .checkFailed)
    let s := s.modPath p fun x => { x with femFails := if bad then x.femFails + 1 else 0 }
    if 3 ≤ (s.path p).femFails then s.retire p 5 else s
  | .paCheck => s
  | .rxCheck => s
  | .sleep => s
  | .wake => s

/-- Serve the paths of an event in order; a script error leaves the rest unserved (R150). -/
def State.femServe (s : State) (ev : FemEvent) (entry : Nat) : List (Nat × List (Option Byte)) → State
  | [] => s
  | (p, replies) :: rest =>
    let r := s.femRun p entry replies
    let s := r.1.femOutcome ev p r.2
    if r.2 = .scriptError then s else s.femServe ev entry rest

/-- Has an event a script to run on a group: its bus is enabled and its entry defined? -/
def State.femScripted (s : State) (g : Nat) (ev : FemEvent) : Bool := s.femEntry g ev != 0xFF && s.flag (Reg.GROUP.RFFE_CTL.enable g)

/-- The script of an event on a group (R149): each path in turn, P8g first, with its slave's answers. -/
def State.femEvent (s : State) (g : Nat) (ev : FemEvent) (replies : List (List (Option Byte))) : State :=
  if s.femScripted g ev then s.femServe ev (s.femEntry g ev) ((groupPaths g).map fun p => (p, replies.getD (p % 8) [])) else s

/-- The answers of a slave where no operand gives them: as many as 64 words can ask for (free values, log entry 38). -/
def State.femReplies (s : State) (k : Nat) : List (Option Byte) := (List.range 128).map fun i => Config.femReply (s.free + 128 * k + i)

/-! ### INIT (R149, R151, R175) -/

/-- Have the used banks an LO or no hope of one: each is LOCKED or FAILED (R175)? -/
def State.banksDecided (s : State) : Bool := [0, 1].all fun b =>
  !((bankPaths b).any s.pathEnabled) || s.loState b == loLocked || s.loState b == loFailed

/-- INIT runs: it has begun on the buses, and on bus `g` it is not over. -/
def State.initRuns (s : State) (g : Nat) : Bool := s.radio.initAt.isSome && !s.radio.initDone.getD g true

/-- INIT is over on every bus. -/
def State.initOver (s : State) : Bool := s.radio.initAt.isSome && s.radio.initDone.all fun b => b

/-- INIT is over on bus `g`. -/
def State.initEnds (s : State) (g : Nat) : State :=
  let at0 := s.now
  if s.radio.initAt.isSome then { s with radio := { s.radio with initDone := s.radio.initDone.set g true, initEnd := at0 } } else s

/-- INIT begins on all buses once the presets of an image have been applied and each used bank is decided; a bus with no script for it has
nothing to run (R149, R175). -/
def State.initBegins (s : State) : State :=
  if decide (s.boot.phase = .booting) && s.image.running.isSome && s.radio.initAt.isNone && s.banksDecided then
    let at0 := s.now
    let done := (List.range 8).map fun g => !s.femScripted g .init
    { s with radio := { s.radio with initAt := some at0, initDone := done, initEnd := at0 } }
  else s

/-! ### SLEEP and WAKE (R149) -/

/-- SLEEP or WAKE arises on every bus that has a script for it. -/
def State.femArises (s : State) (ev : FemEvent) : State :=
  let due := (List.range 8).map fun g => if s.femScripted g ev then some ev else none
  { s with radio := { s.radio with femDue := due } }

/-- Has bus `g` yet to run the event? -/
def State.femWaits (s : State) (g : Nat) (ev : FemEvent) : Bool := decide (s.radio.femDue.getD g none = some ev)

/-- The event that bus `g` has yet to run is run. -/
def State.femTaken (s : State) (g : Nat) : State := { s with radio := { s.radio with femDue := s.radio.femDue.set g none } }

/-- Every bus runs the SLEEP or WAKE that no command has run on it, before what must follow it; the slaves' answers are free (DESIGN
CHOICE, log entry 62). -/
def State.femFlush (s : State) : State :=
  s.forEach (List.range 8) fun g s => match s.radio.femDue.getD g none with
    | some ev =>
      let s' := (s.femTaken g).femEvent g ev ((List.range 8).map s.femReplies)
      { s' with free := s'.free + 1024 }
    | none => s

/-- FEM_SCRIPT (R149): INIT, SLEEP and WAKE run where they have arisen and are not over. -/
def State.femCommand (s : State) (g : Nat) (ev : FemEvent) (replies : List (List (Option Byte))) : State :=
  match ev with
  | .init => if s.initRuns g then (s.femEvent g .init replies).initEnds g else s
  | .sleep => if s.femWaits g .sleep then (s.femTaken g).femEvent g .sleep replies else s
  | .wake => if s.femWaits g .wake then (s.femTaken g).femEvent g .wake replies else s
  | .paCheck => s.femEvent g .paCheck replies
  | .rxCheck => s.femEvent g .rxCheck replies
  | .poll => s.femEvent g .poll replies

/-- FEM_SCRIPT (R149). -/
def execFemScript (t : Nat) (g : Fin 8) (ev : FemEvent) (replies : List (List (Option Byte))) (s : State) :
    Host.Outcome State Fault Refusal :=
  finish ((s.atTime t).femCommand g.val ev replies)

/-- Has INIT on bus `g` run for 5 ms without end (R151)? -/
def State.initLate (s : State) (g : Nat) : Bool := s.initRuns g && s.radio.initAt.any fun t => decide (t + ticksOfMs 5 ≤ s.now)

/-- INIT on bus `g` ends with FEM_NO_REPLY for the paths from the `served`-th on. -/
def State.initTimeout (s : State) (g served : Nat) : State :=
  if s.initLate g then
    (s.forEach ((groupPaths g).drop served) fun p s => (s.putBit (Reg.GROUP.RFFE_STATUS.no_reply g) (p % 8) true).femReady p false).initEnds g
  else s

/-- FEM_INIT_TIMEOUT (R151): the paths not yet served have FEM_NO_REPLY. -/
def execFemInitTimeout (t : Nat) (g : Fin 8) (served : Nat) (s : State) : Host.Outcome State Fault Refusal :=
  finish ((s.atTime t).initTimeout g.val served)

end Sys2Proof.Machine
end

