-- ==== Sys2Proof/Machine/Calibration.lean ====
section
/-!
DEFINITION. The radio calibrations (R167 to R174): requests with their preconditions, queueing on the observation receiver, start,
completion, cancelling and loss midway.
-/

namespace Sys2Proof.Machine

open Sys2Proof

/-- The codes of R167. -/
def calRxDc : Nat := 1
def calRxIq : Nat := 2
def calTxLol : Nat := 3
def calTxIq : Nat := 4
def calObs : Nat := 5
def calAll : Nat := 6

/-- The duration in µs (R167). -/
def calUs (code : Nat) : Nat := [0, 120, 300, 150, 250, 500, 820].getD code 0

/-- Does the calibration need the group's observation receiver? ALL does for its transmit parts, and waits for it at its start. -/
def calNeedsObs (code : Nat) : Bool := code == calTxLol || code == calTxIq || code == calObs || code == calAll

/-- Does it drive the path's transmitter? -/
def calDrives (code : Nat) : Bool := code == calTxLol || code == calTxIq || code == calAll

/-- Length of the transmit parts of ALL, in µs. -/
def calAllTx : Nat := 400

/-- The span of the model's ruler in which a running calibration uses the group's observation receiver: ALL does so for its transmit parts. -/
def CalRun.span (r : CalRun) : Option (Nat × Nat) :=
  if !r.running || !calNeedsObs r.code then none
  else some (if r.code = calAll then r.endAt - ticksOfUs calAllTx else r.startAt, r.endAt)

/-- The spans in which the group's receiver is used: by calibrations, and by a capture until it is over. -/
def State.receiverSpans (s : State) (g : Nat) : List (Nat × Nat) :=
  ((groupPaths g).filterMap fun p => (s.path p).cal.bind CalRun.span) ++
    match (s.obs.getD g ObsGroup.reset).capture with
    | some c => [(0, max (s.now + 1) (s.instantOf c.stop))]
    | none => []

/-- Is the group's receiver taken at some time in a span? -/
def State.receiverTaken (s : State) (g a b : Nat) : Bool := (s.receiverSpans g).any fun x => decide (x.1 < b) && decide (a < x.2)

/-- The first instant from `a` on at which no span taken so far holds the receiver any more. -/
def State.receiverFree (s : State) (g a : Nat) : Nat := (s.receiverSpans g).foldl (fun m x => max m x.2) a

/-- Is any calibration queued or running on the group (R213, R215)? -/
def State.calOnGroup (s : State) (g : Nat) : Bool := (groupPaths g).any fun p => (s.path p).cal.isSome

/-- Does a calibration wait for the group's receiver? -/
def State.calQueued (s : State) (g : Nat) : Bool := (groupPaths g).any fun p => (s.path p).cal.any fun r => !r.running

/-- When a calibration that begins now ends: ALL runs its receive parts at once and its transmit parts as soon as the receiver is free for
them (R167; DESIGN CHOICE, log entry 63). -/
def State.calEnd (s : State) (p code : Nat) : Nat :=
  if code = calAll then s.receiverFree (groupOf p) (s.now + ticksOfUs (calUs calAll - calAllTx)) + ticksOfUs calAllTx
  else s.now + ticksOfUs (calUs code)

/-- A calibration begins to run on a path: a transmit one drives its output at -30 dBFS through the loopback of the group's switch (R167,
R210). -/
def State.calRun (s : State) (p code : Nat) : State :=
  let start := s.now
  let stop := s.calEnd p code
  let s := s.modPath p fun x => { x with cal := some { code := code, running := true, startAt := start, endAt := stop } }
  let s := s.put (Reg.PATH.CAL_STATUS.queued p) 0
  let s := s.put (Reg.PATH.CAL_STATUS.running p) 1
  let s := if s.pathState p == pathOut then s.put (Reg.PATH.STATUS.state p) pathCal else s
  let s := s.arm (.cal p) stop
  if calDrives code then
    let s : State := { s with obs := s.obs.modify (groupOf p) fun x => { x with position := none } }
    (s.setMute p muteCal true).emit (.calDrive p (if code = calAll then stop - ticksOfUs calAllTx else start) (some 30))
  else s

/-- The first failing precondition of a calibration, in the order of R169, given whether it is a receive or a transmit one and the
result of its check script; 0 for none. A script error leaves the state of the FEM unconfirmed: it is taken as 0x04 or 0x05 (DESIGN CHOICE,
log entry 64). -/
def State.calPrecond (s : State) (p : Nat) (tx : Bool) (entry : Nat) (fem : FemResult) : Nat :=
  if s.inService p then 1
  else if s.pathState p == pathRetired then 2
  else if s.loState (bankOf p) != loLocked || s.crossfed (bankOf p) then 3
  else if entry != 0xFF && tx && (fem == .checkFailed || fem == .scriptError) then 4
  else if entry != 0xFF && !tx && (fem == .checkFailed || fem == .scriptError) then 5
  else if entry != 0xFF && fem == .noReply then 6
  else if s.blanked (groupOf p) then 7
  else if entry == 0xFF then 8
  else 0

/-- Run the check script of a receive or transmit calibration on the group, where one is defined, and judge the preconditions. On a bus that
is disabled the FEM cannot answer (DESIGN CHOICE, log entry 64). -/
def State.calCheck (s : State) (p : Nat) (tx : Bool) (fem : List (Option Byte)) : State × Nat :=
  let g := groupOf p
  let entry := s.femEntry g (if tx then .paCheck else .rxCheck)
  if entry = 0xFF then (s, s.calPrecond p tx entry .ok)
  else if !s.flag (Reg.GROUP.RFFE_CTL.enable g) then (s, s.calPrecond p tx entry .noReply)
  else
    let r := s.femCheck p entry (groupPaths g) fem .ok
    (r.1, r.1.calPrecond p tx entry r.2)

/-- The preconditions of OBS: 0x03 and 0x07. -/
def State.obsPrecond (s : State) (p : Nat) : Nat :=
  if s.loState (bankOf p) != loLocked || s.crossfed (bankOf p) then 3
  else if s.blanked (groupOf p) then 7
  else 0

/-- Must a calibration wait for the group's receiver: it is taken in the span that it needs, or another waits already? ALL begins with parts
that do not need it. -/
def State.calWaits (s : State) (p code : Nat) : Bool :=
  code != calAll && calNeedsObs code && s.receiverTaken (groupOf p) s.now (s.now + ticksOfUs (calUs code))

/-- Accept a calibration: it runs, or it waits for the observation receiver (R167, R172). -/
def State.calAccept (s : State) (p code : Nat) : State :=
  if s.calWaits p code || (code != calAll && calNeedsObs code && s.calQueued (groupOf p)) then
    let s := s.modPath p fun x => { x with cal := some { code := code, running := false, startAt := 0, endAt := 0 } }
    s.put (Reg.PATH.CAL_STATUS.queued p) 1
  else s.calRun p code

/-- The precondition code of a request: receive parts, transmit parts, or OBS. -/
def State.calRequestCheck (s : State) (p code : Nat) (rx tx : List (Option Byte)) : State × Nat :=
  if code = calObs then (s, s.obsPrecond p)
  else if code = calRxDc || code = calRxIq then s.calCheck p false rx
  else if code = calTxLol || code = calTxIq then s.calCheck p true tx
  else
    let a := s.calCheck p false rx
    if a.2 != 0 then a else a.1.calCheck p true tx

/-- A calibration request (R167 to R172, R573); OBS on a path other than P8g is refused with CAL_COMMAND (DESIGN CHOICE, log entry 64). -/
def State.calRequest (s : State) (p code : Nat) (rx tx : List (Option Byte)) : State :=
  if s.away || (s.path p).cal.isSome then s.calReport p resBusy 0 code false
  else if code = 0 || 6 < code || (code = calObs && p % 8 != 0) then s.calReport p resCommand 0 code false
  else
    let r := s.calRequestCheck p code rx tx
    if r.2 != 0 then r.1.calReport p resPrecond r.2 code false else r.1.calAccept p code

/-- The result of one part: the coefficients of its register, where they lie in range (R171); OBS has no register. -/
def calInRange (r : CalResult) : Bool :=
  r.code == calObs ||
  let lim := fun w (x : Int) => -((2 ^ (w - 1) : Nat) : Int) ≤ x && x < ((2 ^ (w - 1) : Nat) : Int)
  let w := if r.code = calRxDc then 8 else 16
  r.values.all fun v => lim w v.re && lim w v.im

/-- Put the coefficients of one part into their registers, or the gain and IQ of the observation receiver into it (R167); coefficients take
effect at the next update point (R120). -/
def State.calApply (s : State) (p : Nat) (r : CalResult) : State :=
  let v := fun k => r.values.getD k Cplx.zero
  if r.code = calRxDc then
    let s := (s.putS (Reg.PATH.RX_DC_TRIM.i p) (v 0).re).putS (Reg.PATH.RX_DC_TRIM.q p) (v 0).im
    let dc : List DcEst := (List.range 43).map fun g =>
      let e := r.estimates.getD g Cplx.zero
      { i := e.re, q := e.im, e := 0 }
    s.modPath p fun x => { x with dc := dc, calDc := dc }
  else if r.code = calRxIq then
    let s := s.forEach (List.range 8) fun k s =>
      (s.putS (Reg.PATH.RX_IQ_TAP.re p k) (v k).re).putS (Reg.PATH.RX_IQ_TAP.im p k) (v k).im
    s.modPath p fun x => { x with calIq := (List.range 8).map fun k => (v k).word }
  else if r.code = calTxLol then
    (s.putS (Reg.PATH.TX_LO_COMP.i p) (v 0).re).putS (Reg.PATH.TX_LO_COMP.q p) (v 0).im
  else if r.code = calTxIq then
    s.forEach (List.range 8) fun k s => (s.putS (Reg.PATH.TX_IQ_TAP.re p k) (v k).re).putS (Reg.PATH.TX_IQ_TAP.im p k) (v k).im
  else if r.code = calObs then { s with obs := s.obs.modify (groupOf p) fun x => { x with receiver := r.values } }
  else s

/-- What a completed calibration brings beside its coefficients: ALL clears cal_stale (R155), OBS clears suspect (R220), transmit
calibrations make the reference gain be learned again (R218). -/
def State.calEffects (s : State) (p code : Nat) : State :=
  let s := if code = calAll then s.put (Reg.PATH.STATUS.cal_stale p) 0 else s
  let s := if code = calObs then s.put (Reg.GROUP.OBS_STATUS.suspect (groupOf p)) 0 else s
  if calDrives code then s.modObs p fun o => { o with attenRef := none } else s

/-- RX_DC (R167). -/
def execRxDc (t : Nat) (ch : Channel) (p : Fin 64) (fem : List (Option Byte)) (s : State) : Host.Outcome State Fault Refusal :=
  finish (s.hostCmd t ch.val (Reg.PATH.CAL_CMD.word p.val).addr fun s => s.calRequest p.val calRxDc fem [])

/-- RX_IQ (R167). -/
def execRxIq (t : Nat) (ch : Channel) (p : Fin 64) (fem : List (Option Byte)) (s : State) : Host.Outcome State Fault Refusal :=
  finish (s.hostCmd t ch.val (Reg.PATH.CAL_CMD.word p.val).addr fun s => s.calRequest p.val calRxIq fem [])

/-- TX_LOL (R167). -/
def execTxLol (t : Nat) (ch : Channel) (p : Fin 64) (fem : List (Option Byte)) (s : State) : Host.Outcome State Fault Refusal :=
  finish (s.hostCmd t ch.val (Reg.PATH.CAL_CMD.word p.val).addr fun s => s.calRequest p.val calTxLol [] fem)

/-- TX_IQ (R167). -/
def execTxIq (t : Nat) (ch : Channel) (p : Fin 64) (fem : List (Option Byte)) (s : State) : Host.Outcome State Fault Refusal :=
  finish (s.hostCmd t ch.val (Reg.PATH.CAL_CMD.word p.val).addr fun s => s.calRequest p.val calTxIq [] fem)

/-- OBS (R167, R172). -/
def execObs (t : Nat) (ch : Channel) (p : Fin 64) (s : State) : Host.Outcome State Fault Refusal :=
  finish (s.hostCmd t ch.val (Reg.PATH.CAL_CMD.word p.val).addr fun s => s.calRequest p.val calObs [] [])

/-- ALL (R167). -/
def execAll (t : Nat) (ch : Channel) (p : Fin 64) (rx tx : List (Option Byte)) (s : State) : Host.Outcome State Fault Refusal :=
  finish (s.hostCmd t ch.val (Reg.PATH.CAL_CMD.word p.val).addr fun s => s.calRequest p.val calAll rx tx)

/-- Cancel the calibration queued or running on a path (R173). -/
def State.calCancelled (s : State) (p : Nat) : State :=
  match (s.path p).cal with
  | some r => (s.calClear p).calReport p resCancelled 0 r.code false
  | none => s

/-- CAL_CANCEL (R173). -/
def execCalCancel (t : Nat) (ch : Channel) (p : Fin 64) (s : State) : Host.Outcome State Fault Refusal :=
  finish (s.hostCmd t ch.val (Reg.PATH.CAL_CMD.word p.val).addr fun s => s.calCancelled p.val)

/-- The first precondition of a calibration that has failed since it was accepted, as the state shows it; 0 for none (R170). -/
def State.calFailing (s : State) (p code : Nat) : Nat :=
  let b := bankOf p
  let bad := fun k => if k = 1 then s.inService p else if k = 2 then s.pathState p == pathRetired
    else if k = 3 then s.loState b != loLocked || s.crossfed b else s.blanked (groupOf p)
  (([1, 2, 3, 7].filter fun k => calChecks code k && bad k).head?).getD 0

/-- A queued calibration begins once the receiver is free, if its preconditions still hold (R170, R172). -/
def State.calStarted (s : State) (p : Nat) : State :=
  match (s.path p).cal with
  | some r =>
    if r.running then s
    else if s.calFailing p r.code != 0 then s.calRefuse p (s.calFailing p r.code)
    else if s.calWaits p r.code then s
    else s.calRun p r.code
  | none => s

/-- CAL_START (R172). -/
def execCalStart (t : Nat) (p : Fin 64) (s : State) : Host.Outcome State Fault Refusal :=
  finish ((s.atTime t).calStarted p.val)

/-- A calibration completes with what it measured: results in range are applied, else CAL_RANGE (R171, R174). -/
def State.calDone (s : State) (p : Nat) (results : List CalResult) : State :=
  match (s.path p).cal with
  | some r =>
    if r.running && s.due (.cal p) then
      let good := results.all calInRange
      let s := s.calClear p
      let s := s.forEach (results.filter calInRange) fun x s => s.calApply p x
      let s := if good then s.calEffects p r.code else s
      s.calReport p (if good then resOk else resRange) 0 r.code false
    else s
  | none => s

/-- CAL_DONE (R174). -/
def execCalDone (t : Nat) (p : Fin 64) (results : List CalResult) (s : State) : Host.Outcome State Fault Refusal :=
  finish ((s.atTime t).calDone p.val results)

/-- CAL_LOST_MIDWAY (R170). -/
def execCalLostMidway (t : Nat) (p : Fin 64) (precond : Nat) (s : State) : Host.Outcome State Fault Refusal :=
  finish ((s.atTime t).calLost p.val precond)

end Sys2Proof.Machine
end

