-- ==== Sys2Proof/Machine/Radio.lean ====
section
/-!
DEFINITION. The radio commands: DC loop and IQ tracking (R128, R131, R133), blanking (R143 to R146), retirement (R178, R179).
-/

namespace Sys2Proof.Machine

open Sys2Proof

/-- The exponent k of the DC loop (R128). -/
def dcExponent (bw : Nat) : Nat := [16, 14, 12, 10].getD bw 14

/-- One component of d + 2^-k × (m - d), with d = x / 2^e and m = sum / 64. -/
def dcStep (x sum : Int) (e k : Nat) : Int := x * (2 ^ (6 + k) : Nat) + sum * (2 ^ e : Nat) - x * 64

/-- The DC estimate of the gain in force moves toward the mean of a block of 64 samples (R128). -/
def State.dcBlock (s : State) (p : Nat) (samples : List Cplx) : State :=
  if s.flag (Reg.PATH.LOOP_CTL.dc_track p) && !(s.freezes p).1 && samples.length == 64 then
    let k := dcExponent (s.get (Reg.PATH.LOOP_CTL.dc_bw p))
    let sum := sumC samples
    s.modPath p fun x =>
      let d := x.estimate x.gain
      { x with dc := x.dc.set x.gain { i := dcStep d.i sum.re d.e k, q := dcStep d.q sum.im d.e k, e := d.e + 6 + k } }
  else s

/-- DC_BLOCK_UPDATE (R128). -/
def execDcBlockUpdate (t : Nat) (p : Fin 64) (samples : List Cplx) (s : State) : Host.Outcome State Fault Refusal :=
  finish ((s.atTime t).dcBlock p.val samples)

/-- Ticks of an IQ window (R131). -/
def iqWindowTicks : Nat := ticksOfMs 10

/-- A tap component's movement of 2^-n times the residual: only the direction of its rounding is open (R131). -/
def iqMove (x : Int) (n : Nat) : Int :=
  shrFloor x n + if x % (2 ^ n : Nat) = 0 then 0 else (b2n (Config.iqStep x n) : Int)

/-- A window of IQ tracking of 10 ms ends and the next begins (DESIGN CHOICE, log entry 60): the taps move, unless tracking is off or
frozen, the window was discarded, or its mean power lies below -50 dBFS (R131, R133). -/
def State.iqWindow (s : State) (p : Nat) (power : Int) (residual : List Cplx) : State :=
  if s.now < (s.path p).iqFrom + iqWindowTicks then s
  else
    let on := s.flag (Reg.PATH.LOOP_CTL.iq_track p) && !(s.freezes p).2 && !(s.path p).iqDiscard && decide (-50 * 256 ≤ power)
    let n := s.get (Reg.PATH.LOOP_CTL.iq_step p) + 8
    let at0 := s.now
    let s := s.modPath p fun x => { x with iqDiscard := false, iqFrom := at0 }
    if on then
      s.forEach (List.range 8) fun k s =>
        let r := residual.getD k Cplx.zero
        let s := s.putS (Reg.PATH.RX_IQ_TAP.re p k) (satS 16 (s.getS (Reg.PATH.RX_IQ_TAP.re p k) + iqMove r.re n))
        s.putS (Reg.PATH.RX_IQ_TAP.im p k) (satS 16 (s.getS (Reg.PATH.RX_IQ_TAP.im p k) + iqMove r.im n))
    else s

/-- IQ_WINDOW_END (R131). -/
def execIqWindowEnd (t : Nat) (p : Fin 64) (power : Int) (residual : List Cplx) (s : State) : Host.Outcome State Fault Refusal :=
  finish ((s.atTime t).iqWindow p.val power residual)

/-! ### Blanking -/

/-- Count the downlink symbol `n` of a carrier on a group's paths in the plan as touched by TX_MUTE, once (R137, R146). -/
def State.countBlankTx (s : State) (g c n : Nat) : State :=
  if !s.dlSym c n || assoc? s.radio.blankTx (8 * g + c) == some n then s
  else
    let s := { s with radio := { s.radio with blankTx := assocSet s.radio.blankTx (8 * g + c) n } }
    s.addTo (Reg.GROUP.BLANK_TX_SYM.word g) (countIf s.pathEnabled (groupPaths g))

/-- Count the uplink symbol `n` of a carrier on a group's paths in the plan as touched by RX_BLANK, once (R146). -/
def State.countBlankRx (s : State) (g c n : Nat) : State :=
  if !s.ulSym c n || assoc? s.radio.blankRx (8 * g + c) == some n then s
  else
    let s := { s with radio := { s.radio with blankRx := assocSet s.radio.blankRx (8 * g + c) n } }
    s.addTo (Reg.GROUP.BLANK_RX_SYM.word g) (countIf s.pathEnabled (groupPaths g))

/-- Count the symbols of every carrier that a group's blanking touches at an array time: TX_MUTE at once, RX_BLANK 100 ns later
(R144, R145). -/
def State.countBlanked (s : State) (g : Nat) (tx rx : Bool) : State :=
  s.forEach s.activeCarriers fun c s =>
    let r := s.form c
    let s := if tx then s.countBlankTx g c (r.symbolAt s.arrayNow) else s
    if rx then s.countBlankRx g c (r.symbolAt (s.arrayNow + ticksOfNs 100)) else s

/-- The blanking of the groups has changed since `before`: mutes, freezes, counts; the freeze outlasts blanking by 1 µs (R133). -/
def State.blankFollow (s before : State) : State :=
  s.forEach (List.range 8) fun g s =>
    let b := before.blankOf g
    let a := s.blankOf g
    let s := s.countBlanked g (a.1 || b.1) (a.2 || b.2)
    let s := if a.1 || a.2 || b.1 || b.2 then
        let stamp := some s.arrayNow
        { s with radio := { s.radio with blankedAt := s.radio.blankedAt.set g stamp } }
      else s
    let edge := s.arrayNow + ticksOfNs 100
    let s := if !b.2 && a.2 then
        { s with radio := { s.radio with blankSpans := s.radio.blankSpans ++ [(g, edge, none)] } }
      else if b.2 && !a.2 then
        { s with radio := { s.radio with blankSpans := s.radio.blankSpans.map fun x =>
            if x.1 == g && x.2.2.isNone then (g, x.2.1, some edge) else x } }
      else s
    s.forEach (groupPaths g) fun p s =>
      let s := s.setMute p muteBlank a.1
      let s := if b.2 && !a.2 then
          s.modPath p fun x => { x with dcUntil := max x.dcUntil (s.now + ticksOfUs 1), iqUntil := max x.iqUntil (s.now + ticksOfUs 1) }
        else s
      if !(b.1 || b.2) && (a.1 || a.2) then s.calLost p 7 else s

/-- The level of a blanking input changes. -/
def State.setBlank (s : State) (n : Nat) (on : Bool) : State :=
  ({ s with radio := { s.radio with blank := s.radio.blank.set n on } } : State).blankFollow s

/-- BLANK_RISE (R144). -/
def execBlankRise (t : Nat) (n : Fin 4) (s : State) : Host.Outcome State Fault Refusal := finish ((s.atTime t).setBlank n.val true)

/-- BLANK_FALL (R145). -/
def execBlankFall (t : Nat) (n : Fin 4) (s : State) : Host.Outcome State Fault Refusal := finish ((s.atTime t).setBlank n.val false)

/-! ### Retirement -/

/-- PATH_RETIRE (R178). -/
def execPathRetire (t : Nat) (ch : Channel) (p : Fin 64) (s : State) : Host.Outcome State Fault Refusal :=
  finish (s.hostCmd t ch.val (Reg.PATH.CTL.word p.val).addr fun s => s.retire p.val 6)

/-- PATH_FAULT (R178): causes 1 to 5; the amplitude detector retires a path only while its bank delivers LO. -/
def execPathFault (t : Nat) (p : Fin 64) (cause : Fin 6) (s : State) : Host.Outcome State Fault Refusal :=
  let s := s.atTime t
  finish (if cause.val = 0 || (cause.val = 4 && !s.loDelivers (bankOf p.val)) then s else s.retire p.val cause.val)

end Sys2Proof.Machine
end

