-- ==== Sys2Proof/Machine/Lo.lean ====
section
/-!
DEFINITION. The state machines of the LO banks (R152 to R166, R737, R738): locking, loss of lock, cross-feed, handback, relock, retune
and late transmission starts. Bank 0 is A, bank 1 is B.
-/

namespace Sys2Proof.Machine

open Sys2Proof

/-- Dither is on in BIAS, BAND and ACQUIRE, and while it is forced (R152, R613). -/
def State.showDither (s : State) (b : Nat) : State :=
  let st := s.loState b
  s.putB (Reg.CLOCK.LO_STATUS.dither b) (st == loBias || st == loBand || st == loAcquire || (s.get Reg.CLOCK.DITHER_CTL.force).testBit b)

/-- Enter a state of a bank, with dither as R152 says. -/
def State.loEnter (s : State) (b st : Nat) : State := (s.put (Reg.CLOCK.LO_STATUS.state b) st).showDither b

/-- The dither seed of an attempt: the bank's seed plus the attempt, modulo 256 (R153). -/
def State.loSeed (s : State) (b : Nat) : Nat := (s.get (Reg.CLOCK.LO_CTL.seed b) + s.get (Reg.CLOCK.LO_STATUS.attempt b)) % 256

/-- The dither LFSR (x^23 + x^18 + 1) as a seed loads it (R613). -/
def ditherLoad (seed : Nat) : Nat := 2 ^ 22 + seed % 256

/-- The seed of the attempt that begins is in force, and the dither LFSR starts from it. -/
def State.loSeeded (s : State) (b : Nat) : State :=
  let seed := s.loSeed b
  s.modBank b fun x => { x with seed := seed, lfsr := ditherLoad seed }

/-- A bank powers up: OFF to BIAS for 20 µs (R152, R153). -/
def State.loStart (s : State) (b : Nat) : State :=
  let s := ((s.loEnter b loBias).put (Reg.CLOCK.LO_STATUS.attempt b) 0).loSeeded b
  (s.modBank b fun x => { x with byLoss := false }).arm (.lo b) (s.now + ticksOfUs 20)

/-- The measurement of the inter-bank phase is not valid while a bank's own detector declares no lock (R617). -/
def State.xfeedLost (s : State) : State :=
  { s.put Reg.CLOCK.XFEED_MEAS.valid 0 with clock := { s.clock with xfeed := [] } }

/-- The dividers for an LO frequency in kHz (R612). -/
def LoDividers.of (f : Nat) : LoDividers :=
  let d := if 16 * f ≤ 14400000 then 16 else if 8 * f ≤ 14400000 then 8 else if 4 * f ≤ 14400000 then 4 else 2
  { d := d, vco := d * f, n := d * f / 122880, f := d * f % 122880 }

/-- A bank enters BAND for 40 µs on the dividers of its composite centre (R612); its paths lose its LO. -/
def State.loToBand (s : State) (b : Nat) : State :=
  let s := s.xfeedLost
  let s := ((s.loEnter b loBand).put (Reg.CLOCK.LO_STATUS.own_lock b) 0).loSeeded b
  (s.modBank b fun x => { x with div := LoDividers.of x.freq }).arm (.lo b) (s.now + ticksOfUs 40)

/-- A bank leaves LOCKED: its paths lose the reference gain learned (R218), calibrations on them are lost (R170), and the landing is
stale (R497). -/
def State.loLeft (s : State) (b : Nat) : State :=
  (s.forEach (bankPaths b) fun p s => (s.modObs p fun o => { o with attenRef := none }).calLost p 3).markStale

/-- The mute reason lo of the paths of both banks follows. -/
def State.muteByBanks (s : State) : State := (s.muteByLo 0).muteByLo 1

/-- A bank powers down (R153). One that has FAILED stays so until full reset, and cross-fed if it was (R152, R162; DEDUCED, log entry 65). -/
def State.loStop (s : State) (b : Nat) : State :=
  let s := s.xfeedLost
  let s := if s.loState b == loLocked then s.loLeft b else s
  let s :=
    if s.loState b == loFailed then s
    else
      let s := ((s.loEnter b loOff).put (Reg.CLOCK.LO_STATUS.own_lock b) 0).put (Reg.CLOCK.LO_STATUS.crossfed b) 0
      s.put (Reg.CLOCK.LO_STATUS.attempt b) 0
  ((s.modBank b fun x => { x with retune := none, relock := false }).disarm (.lo b)).muteByBanks

/-- Has the bank an enabled path (R152)? -/
def State.bankUsed (s : State) (b : Nat) : Bool := (bankPaths b).any s.pathEnabled

/-- The banks follow the plan: one with an enabled path leaves OFF, one without enters it (R152, DESIGN CHOICE, log entry 36). -/
def State.banksFollow (s : State) : State :=
  s.forEach [0, 1] fun b s =>
    let off := s.get (Reg.CLOCK.LO_STATUS.state b) == loOff
    if s.bankUsed b && off then s.loStart b else if !s.bankUsed b && !off then s.loStop b else s

/-- A switch of a bank's paths to or from the other bank: the inter-bank phase is latched (R617), freezes and the time of the switch
(R133, R213). -/
def State.loSwitched (s : State) (b : Nat) : State :=
  let s := s.put Reg.BEAM.XFEED_PHASE.delta (s.get Reg.CLOCK.XFEED_MEAS.delta)
  let s := s.modBank b fun x => { x with switchedAt := some s.arrayNow }
  s.forEach (bankPaths b) fun p s => s.freezeFor p 10000

/-- The carriers with a downlink or uplink symbol in progress. -/
def State.carriersOn (s : State) : List Nat := s.activeCarriers.filter fun c =>
  let n := (s.form c).symbolAt s.arrayNow
  s.dlSym c n || s.ulSym c n

/-- The symbol in progress of each carrier is degraded on a bank's paths (R158, R538). -/
def State.loDegraded (s : State) (b : Nat) : State :=
  let s := s.addTo (Reg.CLOCK.LO_COUNT.degraded_sym b) s.carriersOn.length
  s.forEach s.carriersOn fun c s => s.degraded c ((s.form c).symbolAt s.arrayNow)

/-- The island code of a bank in records (R740): islands 1 and 2. -/
def loIsland (b : Nat) : Nat := b + 1

/-- The record of a loss of lock and its degradation notice (R536 class 0x08), with action cross-feed or none. -/
def State.loRecord (s : State) (b action : Nat) : State :=
  (s.record { kind := .fault, cls := 0x08, unit := unitClock, inst := loIsland b, action := action,
              degraded := if action = 6 then s.carriersOn.length else 0,
              carriers := sumNat (s.activeCarriers.map fun c => 2 ^ c) }).notice .degradation

/-- The other bank feeds a bank's paths (R158). -/
def State.loCrossfeed (s : State) (b : Nat) : State :=
  let s := s.put (Reg.CLOCK.LO_STATUS.crossfed b) 1
  let s := (s.loSwitched b).loDegraded b
  s.muteByLo b

/-- The bank that is not `b`. -/
def otherBank (b : Nat) : Nat := 1 - b

/-- Are both banks tuned to one frequency? -/
def State.loSameFreq (s : State) : Bool := (s.bank 0).freq == (s.bank 1).freq

/-- Count the downlink (`dl`) or uplink symbol `n` of a carrier as lost on a path, once (R159). -/
def State.countLost (s : State) (p c n : Nat) (dl : Bool) : State :=
  let key := 2 * c + b2n dl
  let at0 := (s.form c).boundary n
  if assoc? (s.path p).lost key == some at0 then s
  else (s.modPath p fun x => { x with lost := assocSet x.lost key at0 }).bump (Reg.PATH.LOST_SYM.word p)

/-- Count symbol `n` of a carrier as lost in one direction, where it carries that, on the paths of a bank that are IN_SERVICE (R159). -/
def State.lostOn (s : State) (b c n : Nat) (dl : Bool) : State :=
  if (if dl then s.dlSym c n else s.ulSym c n) then s.forEach ((bankPaths b).filter s.inService) fun p s => s.countLost p c n dl else s

/-- Count the symbols in progress as lost on a bank's paths, each direction's symbol once (R159). -/
def State.loLost (s : State) (b : Nat) : State :=
  s.forEach s.activeCarriers fun c s =>
    let n := (s.form c).symbolAt s.arrayNow
    (s.lostOn b c n true).lostOn b c n false

/-- The paths of a bank without LO are muted with reason lo, and the symbol in progress is lost (R159). -/
def State.loMute (s : State) (b : Nat) : State := (s.loLost b).muteByLo b

/-- A LOCKED bank loses lock in service (R157 to R159, R163, R738); no cross-feed begins at boot (R737). -/
def State.loLossLocked (s : State) (b : Nat) : State :=
  let o := otherBank b
  let feeds := s.crossfed o
  let oGood := s.loState o == loLocked && s.loSameFreq && !decide (s.boot.phase = .booting)
  let s := (s.bump (Reg.CLOCK.LO_COUNT.losses b)).modBank b fun x => { x with byLoss := true }
  let s := (s.loToBand b).loLeft b
  let s :=
    if feeds then
      let s := s.put (Reg.CLOCK.LO_STATUS.crossfed o) 0
      let s := s.loSwitched o
      if s.loState o == loLocked then (s.loDegraded o).muteByLo o
      else (s.modBank o fun x => { x with byLoss := true }).loMute o
    else s
  if oGood then (s.loCrossfeed b).loRecord b 6
  else (s.loMute b).loRecord b 0

/-- The wake steps of POWER.WAKE_FAIL (R580). -/
def stepRegulator : Nat := 1
def stepOscillator : Nat := 2
def stepPll : Nat := 3

/-- WAKE_FAILED after the third failure of a step, with its unit; the notice follows the fields (R580). -/
def State.wakeFail (s : State) (step unit attempts : Nat) : State :=
  let s := ((s.put Reg.POWER.WAKE_FAIL.step step).put Reg.POWER.WAKE_FAIL.unit unit).put Reg.POWER.WAKE_FAIL.attempts attempts
  let s := s.put Reg.POWER.WAKE_FAIL.sources s.energy.latched
  ((s.put Reg.POWER.STATUS.state powerWakeFailed).dropPending injPower).notice .event

/-- The function of a bank in RECOVERY.WEDGED. -/
def loFunction (b : Nat) : Function := if b = 0 then .loA else .loB

/-- A bank reaches FAILED (R153, R162, R737); during a wake that is the third failure of the synthesiser step of its island (R580). -/
def State.loFail (s : State) (b : Nat) : State :=
  let s := (s.loEnter b loFailed).put (Reg.CLOCK.LO_STATUS.own_lock b) 0
  let s := s.disarm (.lo b)
  if s.power == powerWaking then s.wakeFail stepPll (loIsland b) 3
  else if s.crossfed b then s.record { kind := .degradation, unit := unitClock, inst := loIsland b, action := 6 }
  else
    let s := s.wedge (loFunction b) { kind := .wedged, cls := 0x08, unit := unitClock, inst := loIsland b }
    if (s.bank b).everLocked then s
    else (s.forEach ((bankPaths b).filter s.pathEnabled) fun p s => s.put (Reg.PATH.STATUS.uncal p) 1).initBegins

/-- An attempt fails (R153). -/
def State.loAttemptFailed (s : State) (b : Nat) : State :=
  let s := s.bump (Reg.CLOCK.LO_COUNT.relock_fail b)
  let a := s.get (Reg.CLOCK.LO_STATUS.attempt b)
  if a < 2 then (s.put (Reg.CLOCK.LO_STATUS.attempt b) (a + 1)).loToBand b else s.loFail b

/-- BIAS ends, WAKE having run on the buses (R149, R153). -/
def State.loBiasDone (s : State) (b : Nat) : State :=
  if s.loState b == loBias && s.due (.lo b) then s.femFlush.loToBand b else s

/-- BAND ends: the loop closes and waits for lock, at most 1 ms (R152, R153). -/
def State.loBandDone (s : State) (b : Nat) : State :=
  if s.loState b == loBand && s.due (.lo b) then (s.loEnter b loAcquire).arm (.lo b) (s.now + ticksOfMs 1) else s

/-- The lock detector declares lock (R153). -/
def State.loLockDeclared (s : State) (b : Nat) : State :=
  if s.loState b == loAcquire then
    ((s.loEnter b loSettle).put (Reg.CLOCK.LO_STATUS.own_lock b) 1).arm (.lo b) (s.now + ticksOfUs 30)
  else s

/-- 1 ms in ACQUIRE without lock (R153). -/
def State.loAcquireTimeout (s : State) (b : Nat) : State :=
  if s.loState b == loAcquire && s.due (.lo b) then s.loAttemptFailed b else s

/-- A bank reaches LOCKED (R153, R163): it delivers its own LO unless it stays cross-fed, and feeds the other bank where both had
lost lock in service and that one's paths are not muted for good (R162). -/
def State.loSettleDone (s : State) (b : Nat) : State :=
  if s.loState b == loSettle && s.due (.lo b) then
    let o := otherBank b
    let s := (s.loEnter b loLocked).put (Reg.CLOCK.LO_STATUS.attempt b) 0
    let s := (s.disarm (.lo b)).modBank b fun x => { x with everLocked := true, lockedAt := s.arrayNow }
    let s := s.muteByBanks
    let s :=
      if !s.loDelivers o && (s.bank o).byLoss && (s.bank b).byLoss && s.loSameFreq && !s.isWedged (loFunction o) &&
          !decide (s.boot.phase = .booting) then
        (s.loCrossfeed o).notice .degradation
      else s
    s.initBegins
  else s

/-- Loss of lock: in LOCKED under R157, in SETTLE a failed attempt (R153). -/
def State.loLockLoss (s : State) (b : Nat) : State :=
  if s.loState b == loLocked then s.loLossLocked b
  else if s.loState b == loSettle then s.loAttemptFailed b
  else s

/-- No active carrier has a downlink or uplink symbol from now for 1 µs (R161). -/
def State.radioGap (s : State) : Bool :=
  s.activeCarriers.all fun c =>
    [s.arrayNow, s.arrayNow + ticksOfUs 1 - 1].all fun a =>
      let n := (s.form c).symbolAt a
      !s.dlSym c n && !s.ulSym c n

/-- A cross-fed bank that is LOCKED takes its paths back, in a gap, or on FDD carriers at a planning-slot boundary (R161). -/
def State.loHandback (s : State) (b : Nat) : State :=
  let fdd := s.allFdd && !s.activeCarriers.isEmpty
  if s.loState b == loLocked && s.crossfed b && !s.flag (Reg.CLOCK.LO_CTL.hold_crossfeed b) &&
      (if fdd then s.arrayNow % planningSlot == 0 else s.radioGap) then
    let s := s.put (Reg.CLOCK.LO_STATUS.crossfed b) 0
    let s := s.loSwitched b
    if fdd then s.loDegraded b else s
  else s

/-- A LOCKED bank leaves service for a retune or a relock request (R153, R154). Paths that it feeds are without LO from then on: those of a
bank that has FAILED until it is LOCKED again (log entry 65). -/
def State.loLeave (s : State) (b : Nat) : State :=
  if s.loState b == loLocked then
    let o := otherBank b
    let s := (s.modBank b fun x => { x with byLoss := false }).loToBand b
    let s := s.loLeft b
    let s := if s.crossfed o && s.loState o != loFailed then (s.put (Reg.CLOCK.LO_STATUS.crossfed o) 0).loSwitched o else s
    s.muteByBanks
  else s

/-- A relock request that waits takes effect (R154). -/
def State.loRelockNow (s : State) (b : Nat) : State :=
  if (s.bank b).relock then (s.modBank b fun x => { x with relock := false }).loLeave b else s

/-- A move of more than 20 MHz leaves every path of the bank with stale calibrations and tracking back at its calibrated values
(R155). -/
def State.loStale (s : State) (b : Nat) : State :=
  s.forEach (bankPaths b) fun p s =>
    let x := s.path p
    let s := s.put (Reg.PATH.STATUS.cal_stale p) 1
    let s := s.modPath p fun x => { x with dc := x.calDc }
    s.forEach (List.range 8) fun k s => s.setWord (Reg.PATH.RX_IQ_TAP.word p k).addr (x.calIq.getD k 0)

/-- A change of composite centre that waits takes effect (R154, R155); a bank that is locking begins again in BAND (R614). -/
def State.loRetuneNow (s : State) (b : Nat) : State :=
  match (s.bank b).retune with
  | some f =>
    let old := (s.bank b).freq
    let s := s.modBank b fun x => { x with freq := f, retune := none }
    let s := if 20000 < ((f : Int) - old).natAbs then s.loStale b else s
    let st := s.loState b
    if st == loBand || st == loAcquire || st == loSettle then s.loToBand b else s.loLeave b
  | none => s

/-- Is the array time a slot boundary of every enabled carrier (R154)? -/
def State.commonSlot (s : State) (a : Nat) : Bool :=
  (List.range 8).all fun c =>
    match s.form? c with
    | some r => r.isSlotBoundary a
    | none => true

/-! ### A transmission start while the bank settles (R164, R165) -/

/-- Has the bank an LO at least 1 µs before a boundary: its own, or that of the bank that feeds its paths? -/
def State.loInTime (s : State) (b a : Nat) : Bool :=
  s.loDelivers b && decide ((s.bank (if s.crossfed b then otherBank b else b)).lockedAt + ticksOfUs 1 ≤ a)

/-- At the boundary of downlink symbol `n` of a carrier: a bank whose LO comes late zeroes the symbol on its paths and counts it, as lost
after a loss of lock, else as a late start; the first symbol in time ends the start and raises its notice. -/
def State.loDownlink (s : State) (c n a b : Nat) : State :=
  if s.loInTime b a then
    let s := s.forEach (bankPaths b) fun p s => s.setMute p muteLate false
    if (s.bank b).lateZeroed then (s.modBank b fun x => { x with lateZeroed := false }).notice .event else s
  else
    let s := s.forEach (bankPaths b) fun p s => s.setMute p muteLate true
    if (s.bank b).byLoss then s.lostOn b c n true
    else
      let paths := (bankPaths b).filter s.inService
      let s := s.forEach paths fun p s => s.bump (Reg.PATH.LATE_START.word p)
      if paths.isEmpty then s else s.modBank b fun x => { x with lateZeroed := true }

/-- At the boundary of uplink symbol `n` of a carrier, after a loss of lock: lost on the muted paths (R159). -/
def State.loUplink (s : State) (c n b : Nat) : State :=
  if !s.loDelivers b && (s.bank b).byLoss then s.lostOn b c n false else s

/-- What the banks do at the boundary of symbol `n` of a carrier. -/
def State.loSymbol (s : State) (c n a : Nat) : State :=
  s.forEach [0, 1] fun b s =>
    let s := if s.ulSym c n then s.loUplink c n b else s
    if s.dlSym c n then s.loDownlink c n a b else s

/-- Relock requests take effect at a planning-slot boundary, and new centres at a slot boundary of every enabled carrier (R154). -/
def State.loBoundary (s : State) (a : Nat) : State :=
  let s := if a % planningSlot = 0 then s.forEach [0, 1] fun b s => s.loRelockNow b else s
  if s.commonSlot a then s.forEach [0, 1] fun b s => s.loRetuneNow b else s

/-! ### The commands -/

/-- LO_BIAS_DONE (R153). -/
def execLoBiasDone (t : Nat) (b : Fin 2) (s : State) : Host.Outcome State Fault Refusal := finish ((s.atTime t).loBiasDone b.val)

/-- LO_BAND_DONE (R153). -/
def execLoBandDone (t : Nat) (b : Fin 2) (s : State) : Host.Outcome State Fault Refusal := finish ((s.atTime t).loBandDone b.val)

/-- LO_LOCK_DECLARED (R153). -/
def execLoLockDeclared (t : Nat) (b : Fin 2) (s : State) : Host.Outcome State Fault Refusal :=
  finish ((s.atTime t).loLockDeclared b.val)

/-- LO_ACQUIRE_TIMEOUT (R153). -/
def execLoAcquireTimeout (t : Nat) (b : Fin 2) (s : State) : Host.Outcome State Fault Refusal :=
  finish ((s.atTime t).loAcquireTimeout b.val)

/-- LO_SETTLE_DONE (R153). -/
def execLoSettleDone (t : Nat) (b : Fin 2) (s : State) : Host.Outcome State Fault Refusal :=
  finish ((s.atTime t).loSettleDone b.val)

/-- LO_LOCK_LOSS (R157). -/
def execLoLockLoss (t : Nat) (b : Fin 2) (s : State) : Host.Outcome State Fault Refusal := finish ((s.atTime t).loLockLoss b.val)

/-- LO_HANDBACK (R161). -/
def execLoHandback (t : Nat) (b : Fin 2) (s : State) : Host.Outcome State Fault Refusal := finish ((s.atTime t).loHandback b.val)

/-- LO_RELOCK (R154). -/
def execLoRelock (t : Nat) (ch : Channel) (b : Fin 2) (s : State) : Host.Outcome State Fault Refusal :=
  finish (s.hostCmd t ch.val (Reg.CLOCK.LO_CTL.word b.val).addr fun s => s.modBank b.val fun x => { x with relock := true })

end Sys2Proof.Machine
end

