-- ==== Sys2Proof/Machine/TxChain.lean ====
section
/-!
DEFINITION. The transmit chain (R181 to R204): from the released symbols of every carrier to the DAC samples of every path. The group
delay of every stage is removed (R183), so that a sample's time is its time at the converters, and each stage works with the settings in
force for its sample (R120, R184).
-/

namespace Sys2Proof.Machine

open Sys2Proof

/-- Ticks between samples at 983.04 and 1966.08 MS/s. -/
def tick983 : Nat := 4
def tick1966 : Nat := 2

/-- Ticks between samples of a carrier at Fs_c. -/
def CarrierRec.step (r : CarrierRec) : Nat := 262144 / (2 ^ r.fft * 2 ^ r.spacing)

/-- Decimations by 2 in stage 4 of the receive chain (R229). -/
def CarrierRec.doublings (r : CarrierRec) : Nat := 15 - r.spacing - r.fft

/-! ### Stages 1 to 4, carrier by carrier -/

/-- Stage 1 input of a carrier on a path at the grid of `step` ticks: the released symbols, zero elsewhere. -/
def stageInput (blocks : List TxBlock) (step : Nat) : Stream :=
  let arrs := blocks.map fun b => (b.start / step, b.samples.toArray)
  fun lo n => (List.range n).map fun (i : Nat) =>
    let k := lo + i
    match arrs.find? fun b => decide ((b.1 : Int) ≤ k) && decide (k < b.1 + b.2.size) with
    | some b => b.2.getD (k - b.1).toNat Cplx.zero
    | none => Cplx.zero

/-- Stage 1: the carrier scale (R185). -/
def State.txScaled (s : State) (c step : Nat) (x : Stream) : Stream := fun lo n =>
  List.zipWith (fun k v => (Cplx.smul ((k : Nat) : Int) v).out16 14) (s.track lo step n fun h => h.get (Reg.CARRIER.TX_SCALE.scale c)) (x lo n)

/-- The 63 taps of the channel filter of a carrier: programmed, or built in (R186, R187). -/
def State.txTaps (s : State) (c : Nat) : List Int :=
  symTaps ((List.range 32).map fun k => if s.flag (Reg.CARRIER.TX_CHF_CTL.src c) then s.getS (Reg.CARRIER.TX_CHF_TAP.tap c k)
    else Config.txChannel.getD k 0)

/-- Stage 2: the channel filter, interpolating by 2 (R186). -/
def State.txChannel (s : State) (c step : Nat) (x : Stream) : Stream := fun lo n =>
  List.zipWith (fun taps h => (dot taps h).out16 17) (s.track lo (step / 2) n fun h => h.txTaps c) (windows 63 31 (upsample x) lo n)

/-- The blocks of a carrier on a path, by the grid on which they lie. -/
def State.blocksOf (s : State) (c p : Nat) : List TxBlock := s.txBlocks.filter fun b => b.carrier == c && b.path == p && !isZero b.samples

/-- Stage 3 of a carrier on a path: every grid that its records have had, interpolated to 983.04 MS/s. -/
def State.txBase (s : State) (c p : Nat) : Stream := fun lo n =>
  let blocks := s.blocksOf c p
  ((blocks.map fun b => b.step).eraseDups).foldl (fun acc step =>
    let x := s.txChannel c step (s.txScaled c step (stageInput (blocks.filter fun b => b.step == step) step))
    List.zipWith Cplx.add acc (interpolateN Config.halfBandUp (Nat.log2 step - 3) x lo n)) (List.replicate n Cplx.zero)

/-- The factor of a carrier's NCO for a sample of 983.04 MS/s, zero outside its downlink symbols (R190, R192). -/
def State.txFactors (s : State) (c : Nat) (lo : Int) (n : Nat) : List Cplx :=
  ((List.range n).zip (s.track lo tick983 n fun h => h.get (Reg.CARRIER.TX_NCO.word c))).map fun e =>
    let k := (lo + e.1).toNat
    if (s.onAir c (k * tick983)).isSome then ncoAt e.2 k else Cplx.zero

/-- Stage 4 of a carrier on a path (R190). -/
def State.carrierWave (s : State) (c p : Nat) : Stream := fun lo n =>
  if (s.blocksOf c p).isEmpty then List.replicate n Cplx.zero
  else List.zipWith (fun f v => (f.mul v).out16 17) (s.txFactors c lo n) (s.txBase c p lo n)

/-! ### Stages 5 to 9 of a path -/

/-- The exact composite sum before saturation (R192). -/
def State.compositeRaw (s : State) (p : Nat) : Stream := fun lo n =>
  (List.range 8).foldl (fun acc c => List.zipWith Cplx.add acc (s.carrierWave c p lo n)) (List.replicate n Cplx.zero)

/-- Stage 5. -/
def State.composite (s : State) (p : Nat) : Stream := fun lo n => (s.compositeRaw p lo n).map (Cplx.map (satS 16))

/-- The taps of a group's spectral mask; none where it is off. -/
def State.maskTaps (s : State) (g : Nat) : Option (List Cplx) :=
  if s.flag (Reg.GROUP.MASK_CTL.enable g) then
    some ((List.range 64).map fun k => cplxOfWord (s.word (Reg.GROUP.MASK_TAP.word g k).addr).toNat)
  else none

/-- Stage 6: the spectral mask, or its delay, 32 samples in either case, removed (R193, R194). -/
def State.maskFilter (s : State) (g : Nat) (x : Stream) : Stream := fun lo n =>
  List.zipWith (fun taps h => match taps with
    | some l => (dotC l h).out16 15
    | none => h.getD 32 Cplx.zero) (s.track lo tick983 n fun h => h.maskTaps g) (windows 64 32 x lo n)

/-- Stage 7. -/
def State.stage7 (s : State) (p : Nat) : Stream := interpolate Config.halfBandUp (s.maskFilter (groupOf p) (s.composite p))

/-- The threshold of a CFR stage; none while it is off (R196, R197). -/
def State.cfrThreshold (s : State) (g st : Nat) : Option Nat :=
  if (s.get (Reg.GROUP.CFR_CTL.stage_en g)).testBit st then
    some (32 * (if st = 0 then s.get (Reg.GROUP.CFR_THRESH.t0 g) else if st = 1 then s.get (Reg.GROUP.CFR_THRESH.t1 g)
          else s.get (Reg.GROUP.CFR_THRESH.t2 g)))
  else none

/-- The pulse of a group. -/
def State.cfrTaps (s : State) (g : Nat) : Array Cplx :=
  ((List.range 128).map fun k => cplxOfWord (s.word (Reg.GROUP.CFR_PULSE.word g k).addr).toNat).toArray

/-- Samples of 1966.08 MS/s that a CFR stage needs before an output and, one more, after it. -/
def cfrSpan : Nat := 128

/-- What one CFR stage yields: its output, the stage as it then stands, peaks accepted and skipped. -/
structure CfrRun where
  out : List Cplx
  stage : CfrStage
  accepted : Nat
  skipped : Nat

/-- CFR stage `st` on a path of group `g` for `n` outputs from index `lo` on (R196 to R200). `xs` is its input from `lo - cfrSpan` on, which
holds `2 × cfrSpan + 1` samples more. A peak's threshold and pulse are those in force at its index. -/
def State.cfrStage (s : State) (g st : Nat) (x : CfrStage) (lo : Int) (n : Nat) (xs : List Cplx) : CfrRun :=
  let base := lo - cfrSpan
  let arr := xs.toArray
  let ts := (s.track base tick1966 xs.length fun h => h.cfrThreshold g st).toArray
  let from0 := max x.decided (base + 1)
  let upto := lo + n + cfrSpan
  let peaks := cfrPeaks base arr ts from0 upto
  let y := cfrAccept x.peaks peaks
  let pulses := (y.1.filter fun k => decide (base < k) && decide (k < upto)).map fun k =>
    let i := (k - base).toNat
    (k, cfrScale ((ts.getD i none).getD 0) (arr.getD i Cplx.zero), (s.asOf (2 * k).toNat).cfrTaps g)
  let out := (List.range n).map fun (i : Nat) =>
    let k := lo + i
    let v := arr.getD (i + cfrSpan) Cplx.zero
    match ts.getD (i + cfrSpan) none with
    | none => v
    | some _ =>
      let corr := sumC ((pulses.filter fun q => decide ((k - q.1).natAbs ≤ 127)).map fun q => q.2.1.mul (cfrPulse q.2.2 (k - q.1)))
      ((Cplx.smul 16384 v).sub corr).out16 14
  { out := out, stage := { decided := max x.decided upto, peaks := y.1 }, accepted := y.1.length - x.peaks.length, skipped := y.2 }

/-- The clip level of a group; none while the final clip is off (R201). -/
def State.clipLevel (s : State) (g : Nat) : Option Nat :=
  if s.flag (Reg.GROUP.CFR_CTL.clip_en g) then some (32 * s.get (Reg.GROUP.CFR_CTL.clip g)) else none

/-- What stages 8 and 9 of a path yield for an interval: samples at 3932.16 MS/s, the CFR stages as they then stand, and the counts of
R198 and R201. -/
structure TxRun where
  out : List Cplx
  stages : List CfrStage
  accepted : Nat
  skipped : Nat
  clips : Nat
deriving Inhabited

/-- Stage 8 of a path for `n` samples from index `lo` on, the clips counted between indices `cl` and `ch` (R196 to R201). -/
def State.stage8 (s : State) (p : Nat) (lo : Int) (n : Nat) (cl ch : Int) : TxRun :=
  let g := groupOf p
  let stage := fun k => (s.path p).cfr.getD k { decided := 0, peaks := [] }
  let w := 2 * cfrSpan + 1
  let a := s.cfrStage g 0 (stage 0) (lo - 2 * cfrSpan) (n + 2 * w) (s.stage7 p (lo - 3 * cfrSpan) (n + 3 * w))
  let b := s.cfrStage g 1 (stage 1) (lo - cfrSpan) (n + w) a.out
  let c := s.cfrStage g 2 (stage 2) lo n b.out
  let levels := s.track lo tick1966 n fun h => h.clipLevel g
  let clip := fun (l : Option Nat) (x : Cplx) => match l with
    | some lc => cfrClip lc x
    | none => x
  let hit := fun (l : Option Nat) (x : Cplx) => l.any fun lc => decide (lc < x.mag)
  { out := List.zipWith clip levels c.out
    stages := [a.stage, b.stage, c.stage]
    accepted := a.accepted + b.accepted + c.accepted
    skipped := a.skipped + b.skipped + c.skipped
    clips := countIf (fun (e : Nat × Option Nat × Cplx) => decide (cl ≤ lo + e.1) && decide (lo + e.1 < ch) && hit e.2.1 e.2.2)
      ((List.range n).zip (levels.zip c.out)) }

/-- Stages 5 to 9 of a path for `n` samples at 3932.16 MS/s from tick `lo` on; the counts are those of ticks `cl` to before `ch`. A path
without any sample but zero stays at zero. -/
def State.stage9 (s : State) (p : Nat) (lo : Int) (n : Nat) (cl ch : Int) : TxRun :=
  if (s.txBlocks.all fun b => b.path != p || isZero b.samples) then
    { out := List.replicate n Cplx.zero, stages := (s.path p).cfr, accepted := 0, skipped := 0, clips := 0 }
  else
    let l := Config.halfBandUp.length
    let a := (lo - l).fdiv 2
    let m := (n + 2 * l) / 2 + 2
    let y := s.stage8 p a m (cl.fdiv 2) (ch.fdiv 2)
    { y with out := interpolate Config.halfBandUp (streamOf a y.out) lo n }

/-- Composite samples of a path that saturate, among ticks `a` to before `b` (R192). -/
def State.compositeSat (s : State) (p a b : Nat) : Nat :=
  countIf (fun (x : Cplx) => x.map (satS 16) != x) (s.compositeRaw p ((a / tick983 : Nat) : Int) ((b - a) / tick983))

/-! ### Stages 10 to 12 -/

/-- A path's look-up table from shared memory: 65 entries (R203, R205). -/
def State.lut (s : State) (p bank t : Nat) : Array Cplx :=
  let banks := s.banksOf kindDpd
  ((List.range 65).map fun k => match s.offsetIn banks (dpdPlace p bank + 260 * t + 4 * k) with
    | some x => cplxOfWord (s.memWord x)
    | none => Cplx.zero).toArray

/-- The enabled terms of a path's model (R202), from the stage 9 streams of every path: its own, and those of others with the samples in which
they are muted at zero. -/
def State.dpdTerms (s : State) (p : Nat) (own heard : Nat → Array Cplx) : List DpdTerm :=
  let g := groupOf p
  let bank := s.get (Reg.PIPE.DPD_STATUS.bank_in_force p)
  let plan := s.sectionBytes secPaths
  let self := ((List.range 24).filter fun t => s.flag (Reg.GROUP.DPD_TERM.en g t)).map fun t =>
    { sample := s.get (Reg.GROUP.DPD_TERM.a g t), mag := s.get (Reg.GROUP.DPD_TERM.b g t), xs := own p, lut := s.lut p bank t }
  let coupled := ((List.range 8).filter fun i => s.flag (Reg.GROUP.DPD_CTERM.en g i)).filterMap fun i =>
    let j := i / 2
    match planNeighbour plan p j with
    | some q =>
      if planCoupled plan p && !(s.get (Reg.PIPE.DPD_STATUS.cpl_disabled p)).testBit j then
        some { sample := s.get (Reg.GROUP.DPD_CTERM.c g i), mag := s.get (Reg.GROUP.DPD_CTERM.d g i), xs := heard q,
               lut := s.lut p bank (24 + i) }
      else none
    | none => none
  self ++ coupled

/-- The model in force on a path: none while pre-distortion is off. -/
def State.dpdModel (s : State) (p : Nat) (own heard : Nat → Array Cplx) : Option (List DpdTerm) :=
  if s.flag (Reg.PIPE.DPD_CTL.enable p) then some (s.dpdTerms p own heard) else none

/-- A stream of samples with zeros where the path is muted. -/
def State.heardFrom (s : State) (p : Nat) (lo : Int) (xs : List Cplx) : List Cplx :=
  List.zipWith (fun m x => if m then Cplx.zero else x) (s.track lo 1 xs.length fun h => h.muted p) xs

/-- Samples of stage 9 before an interval that pre-distortion reaches, and those of stage 10 before and after that IQ correction takes. -/
def dpdReach : Nat := 64
def iqReach : Nat := 4

/-- Stage 10 of a path for `n` samples from tick `lo` on, each with whether it saturated; the streams begin `dpdReach` earlier. -/
def State.stage10 (s : State) (p : Nat) (lo : Int) (n : Nat) (own heard : Nat → Array Cplx) : List (Cplx × Bool) :=
  let xp := own p
  ((List.range n).zip (s.track lo 1 n fun h => h.dpdModel p own heard)).map fun e => match e.2 with
    | some terms => dpdAt xp terms (e.1 + dpdReach)
    | none => (xp.getD (e.1 + dpdReach) Cplx.zero, false)

/-- Stages 11 and 12 of a path: `xs` are the stage 10 samples from `iqReach` before tick `lo` to `iqReach` after the `n` outputs (R134,
R136, R182). -/
def State.dacSamples (s : State) (p : Nat) (lo : Int) (n : Nat) (xs : List Cplx) : List Cplx :=
  let arr := xs.toArray
  ((List.range n).zip ((s.track lo 1 n fun h => h.txSettings p).zip (s.track lo 1 n fun h => h.muted p))).map fun e =>
    if e.2.2 then Cplx.zero
    else (((iqCorrect e.2.1.1 (iqSamples arr (e.1 + iqReach))).add e.2.1.2).map (satS 16)).shr 2

/-- The DAC samples of every path for ticks `a` to before `b` (R181 stages 5 to 12), with their counters. -/
def State.transmit (s : State) (a b : Nat) : State :=
  let n := b - a
  let lo : Int := a - iqReach - dpdReach
  let m := n + 2 * iqReach + dpdReach
  let runs := ((List.range 64).map fun p => s.stage9 p lo m a b).toArray
  let own := ((List.range 64).map fun p => (runs.getD p default).out.toArray).toArray
  let heard := ((List.range 64).map fun p => (s.heardFrom p lo (runs.getD p default).out).toArray).toArray
  s.forEach (List.range 64) fun p s =>
    let y := runs.getD p default
    let pre := s.stage10 p ((a : Int) - iqReach) (n + 2 * iqReach) (fun q => own.getD q #[]) (fun q => heard.getD q #[])
    let sat := countIf (fun (e : Cplx × Bool) => e.2) ((pre.drop iqReach).take n)
    let out := s.dacSamples p a n (pre.map fun e => e.1)
    let s := s.addTo (Reg.PIPE.TX_SAT.word p) (s.compositeSat p a b)
    let s := s.addTo (Reg.PIPE.CFR_PEAKS.word p) y.accepted
    let s := s.addTo (Reg.PIPE.CFR_SKIP.word p) y.skipped
    let s := s.addTo (Reg.PIPE.CFR_CLIPS.word p) y.clips
    let s := s.addTo (Reg.PIPE.DPD_SAT.word p) sat
    let s := s.modPath p fun x => { x with cfr := y.stages }
    s.emit (.dac p a out)

/-! ### What has left the DACs -/

/-- Ticks by which a stage 1 sample on a grid of `step` ticks can precede or follow a DAC sample that it shapes: the filters of every
stage. -/
def txReach (step : Nat) : Nat := (Config.halfBandUp.length + 66) * (step + 4) + 8 * cfrSpan + 1024

/-- The largest reach of the released symbols. -/
def State.txSpan (s : State) : Nat := maxNat (s.txBlocks.map fun b => txReach b.step)

/-- The array time back to which a capture in progress may ask for stage 9 samples (R211). -/
def State.txWanted (s : State) (a : Nat) : Nat := (s.obs.filterMap fun g => g.capture.map fun c => c.start).foldl min a

/-- Send the DAC samples of the interval up to array time `a` that no later release can change, and drop what no longer shapes the
output. An interval that no released symbol shapes is not sent (DESIGN CHOICE, log entry 59). -/
def State.transmitUpTo (s : State) (a : Nat) : State :=
  let upto := (a - s.txSpan) / tick983 * tick983
  let from0 := max s.txDone (((s.txBlocks.map fun b => b.start - txReach b.step).foldl min upto) / tick983 * tick983)
  if s.txBlocks.isEmpty || upto ≤ s.txDone then s
  else
    let s := if from0 < upto then s.transmit from0 upto else s
    let keep := s.txWanted upto
    let blocks := s.txBlocks.filter fun b => decide (keep < b.start + b.step * b.samples.length + 2 * txReach b.step)
    let s : State := { s with txDone := upto, txBlocks := blocks }
    s.forEach (List.range 64) fun p s => s.modPath p fun x =>
      { x with cfr := x.cfr.map fun y => { y with peaks := y.peaks.filter fun k => decide ((keep : Int) < 2 * k + 16 * cfrSpan) } }

end Sys2Proof.Machine
end

