-- ==== Sys2Proof/Machine/Dfe.lean ====
section
/-!
DEFINITION. Observation and pre-distortion adaptation (R205 to R228): capture attempts, supervision, rounds, fits, verification and
rollback, and the writes that a pre-distortion table accepts. The end of a capture stands in Observe.lean.
-/

namespace Sys2Proof.Machine

open Sys2Proof

/-! ### Groups, captures and their memory -/

/-- The observation state of a group. -/
def State.obsGroup (s : State) (g : Nat) : ObsGroup := s.obs.getD g ObsGroup.reset

/-- Change it. -/
def State.modObsGroup (s : State) (g : Nat) (f : ObsGroup → ObsGroup) : State := { s with obs := s.obs.modify g f }

/-- The modes of DPD_ADAPT. -/
def dpdOff : Nat := 0
def dpdAuto : Nat := 1
def dpdStage : Nat := 2

/-- The adaptation mode that a group's register holds, and the one that governs (R227). -/
def State.dpdMode (s : State) (g : Nat) : Nat := s.get (Reg.GROUP.DPD_ADAPT.mode g)
def State.dpdGoverns (s : State) (g : Nat) : Nat := (s.obsGroup g).mode

/-- Samples of a capture (R211). -/
def State.obsLen (s : State) (g : Nat) : Nat := 4096 * 2 ^ min 2 (s.get (Reg.GROUP.OBS_CTL.len g))

/-- Bytes of a capture slot (R216). -/
def State.obsSlotBytes (s : State) (g : Nat) : Nat := 6 * s.obsLen g * 4 + 64

/-- For each group in order, where its two slots begin in the capture allocation; none where they do not fit (R216). -/
def obsPlaces (size : Nat) : Nat → List Nat → List (Option Nat)
  | _, [] => []
  | o, n :: ns => if o + 2 * n ≤ size then some o :: obsPlaces size (o + 2 * n) ns else none :: obsPlaces size o ns

/-- Where group `g`'s slots begin. -/
def State.obsPlace (s : State) (g : Nat) : Option Nat :=
  (obsPlaces (s.allocBytes kindCapture) 0 ((List.range 8).map s.obsSlotBytes)).getD g none

/-- Bytes of the capture allocation that the groups' slots take (R216). -/
def State.obsBytes (s : State) : Nat :=
  sumNat ((List.range 8).map fun g => if (s.obsPlace g).isSome then 2 * s.obsSlotBytes g else 0)

/-- no_capture of every group follows the allocation and the lengths (R216). -/
def State.showCaptureFit (s : State) : State :=
  s.forEach (List.range 8) fun g s => s.putB (Reg.GROUP.DPD_STATUS.no_capture g) (s.obsPlace g).isNone

/-- Is the group's adaptation frozen (R220, R228)? -/
def State.dpdFrozen (s : State) (g : Nat) : Bool :=
  s.flag (Reg.GROUP.OBS_STATUS.suspect g) || s.shedBit shedAdapt g || !s.loDelivers (g / 4)

/-- Ticks of a schedule period, and the schedule period in progress (R212). -/
def State.obsPeriod (s : State) (g : Nat) : Nat := s.get (Reg.GROUP.OBS_SCHED.period g) * 196608
def State.obsPeriodNow (s : State) (g : Nat) : Nat := s.arrayNow / s.obsPeriod g

/-- Is the path scheduled and IN_SERVICE (R212)? -/
def State.obsEligible (s : State) (p : Nat) : Bool :=
  (s.get (Reg.GROUP.OBS_SCHED.mask (groupOf p))).testBit (p % 8) && s.inService p

/-- The path that the next attempt serves: a host request first, else the next eligible one after the last captured (R212, R217). -/
def State.obsNext (s : State) (g : Nat) : Option Nat :=
  match (s.obsGroup g).hostReq with
  | some n => some (8 * g + n)
  | none =>
    let from0 := match (s.obsGroup g).cursor with
      | some n => n + 1
      | none => 0
    ((List.range 8).map fun i => 8 * g + (from0 + i) % 8).find? s.obsEligible

/-- Does an LO switch of the bank fall within 10 µs of a window (R213)? -/
def State.loSwitchNear (s : State) (b start stop : Nat) : Bool :=
  match (s.bank b).switchedAt with
  | some a => start ≤ a + ticksOfUs 10 && a ≤ stop + ticksOfUs 10
  | none => false

/-- Does a window from array time `a` to `b` meet the conditions of R213, as far as the present state tells? A window is shorter than a
symbol: what holds at both ends holds between them. -/
def State.obsReady (s : State) (p a b : Nat) : Bool :=
  ([a, b - 1].all fun x => s.trHigh p x && s.stageOn p x) && !s.blanked (groupOf p) && !s.loSwitchNear (bankOf p) a b &&
    !s.calOnGroup (groupOf p)

/-- A discard: count and cause (R214). -/
def State.obsDiscard (s : State) (g cause : Nat) : State :=
  (s.bump (Reg.GROUP.OBS_DISCARD.word g)).put (Reg.GROUP.OBS_STATUS.last_cause g) cause

/-- Where a capture of path `p` that begins now has its first sample: the switch settles for 200 ns once it changes position (R210). -/
def State.obsStart (s : State) (p : Nat) : Nat :=
  s.arrayNow + if (s.obsGroup (groupOf p)).position == some (p % 8) then 0 else ticksOfNs 200

/-- Begin a capture of path `p` (R210, R213). A host's capture does not move the place from which the schedule continues (DESIGN CHOICE,
log entry 66). -/
def State.obsBegin (s : State) (p : Nat) : State :=
  let g := groupOf p
  let x := s.obsGroup g
  let start := s.obsStart p
  let epoch := match s.timing with
    | some c => (s.car c).epoch
    | none => 0
  let cap : ObsCapture := { path := p, start := start, stop := start + s.obsLen g, host := x.hostReq.isSome,
                            bank := s.get (Reg.PIPE.DPD_STATUS.bank_in_force p), atten := s.get (Reg.PATH.TX_ATTEN.atten p),
                            epoch := epoch, slot := x.nextSlot }
  let s := s.put (Reg.GROUP.OBS_STATUS.path g) (p % 8)
  let k := s.obsPeriodNow g
  s.modObsGroup g fun y => { y with capture := some cap, period := some k, trying := none, nextSlot := 1 - y.nextSlot,
                                    position := some (p % 8), cursor := if cap.host then y.cursor else some (p % 8), hostReq := none }

/-- The attempt of a period that is over ended without a window (R213, R214). -/
def State.obsMissed (s : State) (g : Nat) : State :=
  match (s.obsGroup g).trying with
  | some k =>
    if k < s.obsPeriodNow g then (s.modObsGroup g fun y => { y with period := some k, trying := none }).obsDiscard g 6 else s
  | none => s

/-- One attempt of the present period (R212, R213): it captures where the conditions hold for the whole window, and otherwise goes on to the
end of its period, where it ends with cause NO_WINDOW. -/
def State.obsAttempt (s : State) (g : Nat) : State :=
  let s := s.obsMissed g
  let x := s.obsGroup g
  let k := s.obsPeriodNow g
  if x.capture.isSome || x.period == some k || (s.obsPlace g).isNone then s
  else match s.obsNext g with
    | none => s
    | some p =>
      let start := s.obsStart p
      if start / s.obsPeriod g = k && s.obsReady p start (start + s.obsLen g) then s.obsBegin p
      else if (s.arrayNow + 1) % s.obsPeriod g == 0 then
        (s.modObsGroup g fun y => { y with period := some k, trying := none }).obsDiscard g 6
      else s.modObsGroup g fun y => { y with trying := some k }

/-- OBS_ATTEMPT (R212). -/
def execObsAttempt (t : Nat) (g : Fin 8) (s : State) : Host.Outcome State Fault Refusal :=
  finish ((s.atTime t).obsAttempt g.val)

/-! ### Bank switches and table writes (R207 to R209) -/

/-- A path's bank switch: the bank that leaves service, the coupled terms enabled again, staged tables taken up (R207 to R209,
R225). -/
def State.switchDpd (s : State) (p bank : Nat) : State :=
  let old := s.get (Reg.PIPE.DPD_STATUS.bank_in_force p)
  let g := groupOf p
  let s := s.put (Reg.PIPE.DPD_CTL.bank p) bank
  if old == bank then s
  else
    let s := s.put (Reg.PIPE.DPD_STATUS.bank_in_force p) bank
    let s := s.put (Reg.PIPE.DPD_STATUS.cpl_disabled p) 0
    let at0 := s.arrayNow
    let s := s.modObs p fun o => { o with switched := at0, left := some (old, at0) }
    let s := s.putBit (Reg.GROUP.DPD_STATUS.staged_mask g) (p % 8) false
    let s := s.modObsGroup g fun x => { x with used := x.used.filter fun q => q != p }
    if s.get (Reg.GROUP.DPD_STATUS.staged_mask g) = 0 then s.put (Reg.GROUP.DPD_STATUS.staged g) 0 else s

/-- Is a bank of a path closed to table writes: in force, or one that a replay may still read (R208)? -/
def State.dpdBankHeld (s : State) (p bank : Nat) : Bool :=
  bank == s.get (Reg.PIPE.DPD_STATUS.bank_in_force p) ||
    match (s.obsOf p).left, s.timing with
    | some (b, a), some c => b == bank && (s.car c).committed < a
    | _, _ => false

/-- Does the table of a path discard a window write into a bank (R208)? -/
def State.dpdWriteLost (s : State) (p bank : Nat) : Bool :=
  s.dpdBankHeld p bank || s.dpdGoverns (groupOf p) == dpdAuto || s.dpdGoverns (groupOf p) == dpdStage

/-- A new path and neighbour plan takes effect: coupled terms whose neighbour changes are disabled, captures and fits that used the
old plan are void, the accepted ones of the round discarded with cause PLAN (R209, R214). -/
def State.neighboursChanged (s : State) (old new : List Byte) : State :=
  s.forEach (List.range 64) fun p s =>
    let slots := (List.range 4).filter fun j => planNeighbour old p j != planNeighbour new p j
    if slots.isEmpty then s
    else
      let s := s.forEach slots fun j s => s.putBit (Reg.PIPE.DPD_STATUS.cpl_disabled p) j true
      let at0 := s.arrayNow
      let s := s.modObs p fun o => { o with planned := at0 }
      let g := groupOf p
      let lost := countIf (fun q => q == p) (s.obsGroup g).used
      let s := s.modObsGroup g fun x =>
        { x with used := x.used.filter fun q => q != p, abandoned := x.abandoned || x.fit.contains p }
      s.forEach (List.replicate lost ()) fun _ s => s.obsDiscard g 7

/-! ### Supervision (R218 to R220) -/

/-- Supervision of the output of a path from its measured gain (R218 to R220). -/
def State.supervise (s : State) (p : Nat) (c : ObsCapture) (gain : Int) : State :=
  let g := groupOf p
  match (s.obsOf p).attenRef with
  | none =>
    let s := s.putS (Reg.PIPE.OBS_GAIN.ref p) gain
    s.modObs p fun o => { o with attenRef := some c.atten, misses := [], lastGood := some c.stop }
  | some a0 =>
    let predicted := s.getS (Reg.PIPE.OBS_GAIN.ref p) - 64 * ((c.atten : Int) - a0)
    if 1536 < (gain - predicted).natAbs then
      let s := s.modObs p fun o => { o with misses := (c.start :: o.misses).take 3 }
      match (s.obsOf p).misses with
      | [_, _, first] =>
        if (groupPaths g).any fun q => q != p && ((s.obsOf q).lastGood.any fun a => first ≤ a) then s.retire p 3
        else if s.flag (Reg.GROUP.OBS_STATUS.suspect g) then s
        else (s.put (Reg.GROUP.OBS_STATUS.suspect g) 1).record { kind := .event, unit := unitDpd, inst := g }
      | _ => s
    else s.modObs p fun o => { o with misses := [], lastGood := some c.stop }

/-- A host request for one capture; refused while the group adapts, while DIAG is shed, and where the group cannot capture (R217,
R216, R564). -/
def State.obsRequest (s : State) (g n : Nat) : State :=
  let s := s.put (Reg.GROUP.OBS_CTL.host_path g) n
  if s.dpdGoverns g != dpdOff || !(s.shedding shedDiag).isEmpty || (s.obsPlace g).isNone then
    s.put (Reg.GROUP.OBS_STATUS.host_refused g) 1
  else s.modObsGroup g fun y => { y with hostReq := some n }

/-- OBS_HOST_REQ (R217). -/
def execObsHostReq (t : Nat) (ch : Channel) (g n : Fin 8) (s : State) : Host.Outcome State Fault Refusal :=
  finish (s.hostCmd t ch.val (Reg.GROUP.OBS_CTL.word g.val).addr fun s => s.obsRequest g.val n.val)

/-- The reference gain of every path of a group is learned again (R218). -/
def State.obsRelearn (s : State) (g : Nat) : State :=
  s.forEach (groupPaths g) fun p s => s.modObs p fun o => { o with attenRef := none, misses := [] }

/-- OBS_RELEARN (R218). -/
def execObsRelearn (t : Nat) (ch : Channel) (g : Fin 8) (s : State) : Host.Outcome State Fault Refusal :=
  finish (s.hostCmd t ch.val (Reg.GROUP.OBS_CTL.word g.val).addr fun s => s.obsRelearn g.val)

/-! ### Rounds (R221 to R228) -/

/-- A new round begins in the present schedule period, or waits for the end of a freeze (R221, R228). -/
def State.dpdNewRound (s : State) (g : Nat) : State :=
  let k := s.obsPeriodNow g
  let wait := s.dpdFrozen g
  s.modObsGroup g fun y => { y with used := [], roundStart := k, idle := wait }

/-- A round that a freeze held back begins once that is over. -/
def State.dpdThaw (s : State) (g : Nat) : State := if (s.obsGroup g).idle && !s.dpdFrozen g then s.dpdNewRound g else s

/-- Has the round in progress ended (R221)? -/
def State.dpdRoundOver (s : State) (g : Nat) : Bool :=
  let x := s.obsGroup g
  !x.idle && (((groupPaths g).all fun p => !s.obsEligible p || x.used.contains p) || decide (x.roundStart + 16 ≤ s.obsPeriodNow g))

/-- A commit of tables, its verification or its rollback is under way (R223, R224, R227). -/
def State.dpdPending (s : State) (g : Nat) : Bool :=
  s.flag (Reg.GROUP.DPD_STATUS.verifying g) || (s.obsGroup g).committing || (s.obsGroup g).returning

/-- The mode that the register holds governs once no commit is under way (R227). -/
def State.dpdGovern (s : State) (g : Nat) : State :=
  if s.dpdPending g then s
  else
    let mode := s.dpdMode g
    s.modObsGroup g fun y => { y with mode := mode }

/-- The length of the schedule periods changes at array time `a`: the rounds and verifications in progress keep the periods that they have
had and are left (R221, R223; DEDUCED, log entry 66). -/
def State.obsRebase (s : State) (g old : Nat) : State :=
  let was := s.arrayNow / old
  let k := s.obsPeriodNow g
  let move : Int := k - was
  let same := fun (m : Nat) => if m = was then k else m
  s.modObsGroup g fun y => { y with roundStart := y.roundStart + move, verifyEnd := y.verifyEnd + move, period := y.period.map same,
                                    trying := y.trying.map same }

/-- Roll an AUTO commit back (R223). -/
def State.dpdRollback (s : State) (g : Nat) : State :=
  let x := s.obsGroup g
  let s := s.internalTxn ((x.commit.map fun p => .dpdBank p (1 - s.get (Reg.PIPE.DPD_STATUS.bank_in_force p))) ++ [.dpdBack g])
  let s := s.bump (Reg.GROUP.DPD_ROLLBACK.word g)
  let s := (s.put (Reg.GROUP.DPD_STATUS.rollback g) 1).put (Reg.GROUP.DPD_STATUS.verifying g) 0
  let s := s.modObsGroup g fun y => { y with commit := [], verify := [], returning := true }
  s.record { kind := .event, unit := unitDpd, inst := g }

/-- A rollback has taken effect. -/
def State.dpdReturned (s : State) (g : Nat) : State := (s.modObsGroup g fun y => { y with returning := false }).dpdGovern g

/-- Have the 16 schedule periods of a verification passed (R223)? -/
def State.dpdVerifyLate (s : State) (g : Nat) : Bool := decide ((s.obsGroup g).verifyEnd ≤ s.obsPeriodNow g)

/-- Verification ends once every path has been verified, or after 16 schedule periods (R223). -/
def State.dpdVerifyEnd (s : State) (g : Nat) : State :=
  if s.flag (Reg.GROUP.DPD_STATUS.verifying g) && ((s.obsGroup g).verify.isEmpty || s.dpdVerifyLate g) then
    ((s.put (Reg.GROUP.DPD_STATUS.verifying g) 0).modObsGroup g fun y => { y with commit := [], verify := [] }).dpdGovern g
  else s

/-- DPD_VERIFY_END (R223). -/
def execDpdVerifyEnd (t : Nat) (g : Fin 8) (s : State) : Host.Outcome State Fault Refusal :=
  finish ((s.atTime t).dpdVerifyEnd g.val)

/-- An accepted capture taken wholly after the switch of its path verifies it, while verification goes on (R223). -/
def State.dpdVerify (s : State) (g : Nat) (c : ObsCapture) (nmse : Int) : State :=
  let x := s.obsGroup g
  if s.flag (Reg.GROUP.DPD_STATUS.verifying g) && !s.dpdVerifyLate g && x.verify.contains c.path && (s.obsOf c.path).switched < c.start then
    let s := s.modObsGroup g fun y => { y with verify := y.verify.filter fun q => q != c.path }
    let margin : Int := (256 * s.get (Reg.GROUP.DPD_ADAPT.rb_db g) : Nat)
    if s.getS (Reg.PIPE.DPD_NMSE.nmse_commit c.path) + margin < nmse then s.dpdRollback g else s
  else s

/-- An accepted capture joins the round in progress (R221, R228). -/
def State.dpdUse (s : State) (g : Nat) (c : ObsCapture) : State :=
  if s.dpdGoverns g != dpdOff && !s.dpdFrozen g && (s.obsOf c.path).switched < c.start then
    (s.dpdThaw g).modObsGroup g fun y => { y with used := y.used ++ [c.path] }
  else s

/-- The end of a round: its fit starts, unless a commit, a fit or staged tables hold it back, adaptation is off or frozen, or the group cannot
capture (R216, R221, R224, R225, R228). -/
def State.dpdRoundEnd (s : State) (g : Nat) : State :=
  let busy := s.dpdPending g || s.flag (Reg.GROUP.DPD_STATUS.fitting g) || s.get (Reg.GROUP.DPD_STATUS.staged_mask g) != 0
  if s.dpdGoverns g == dpdOff || busy || s.dpdFrozen g || (s.obsPlace g).isNone then s
  else
    let s := s.dpdThaw g
    if !s.dpdRoundOver g then s
    else if (s.obsGroup g).used.isEmpty then s.dpdNewRound g
    else
      let s := s.modObsGroup g fun y => { y with fit := y.used.eraseDups, abandoned := false }
      (s.put (Reg.GROUP.DPD_STATUS.fitting g) 1).dpdNewRound g

/-- DPD_ROUND_END (R221). -/
def execDpdRoundEnd (t : Nat) (g : Fin 8) (s : State) : Host.Outcome State Fault Refusal := finish ((s.atTime t).dpdRoundEnd g.val)

/-- Write a fitted table set into a path's idle bank (R205, R208). -/
def State.writeTables (s : State) (p : Nat) (bytes : List Byte) : State :=
  let idle := 1 - s.get (Reg.PIPE.DPD_STATUS.bank_in_force p)
  if s.dpdBankHeld p idle then s.put (Reg.PIPE.DPD_STATUS.write_lost p) 1
  else s.allocWrite kindDpd (dpdPlace p idle) (bytes.take dpdBytes)

/-- Does an internal transaction prepare? Not while the part leaves ACTIVE or is away from it, nor while a LOAD stops what runs: both abort
what is open (R92, R518; DEDUCED, log entry 15). -/
def State.internalPrepares (s : State) : Bool := !s.away && s.image.candidate.isNone

/-- The tables of a fit that is done are in the idle banks: AUTO commits them, where the transaction prepares, and STAGE offers them (R222,
R225). -/
def State.dpdOffer (s : State) (g : Nat) (fit : List Nat) : State :=
  if s.dpdGoverns g == dpdAuto then
    if s.internalPrepares then
      let s := s.modObsGroup g fun y => { y with commit := fit, committing := true }
      s.internalTxn ((fit.map fun p => .dpdBank p (1 - s.get (Reg.PIPE.DPD_STATUS.bank_in_force p))) ++ [.dpdRound g])
    else (s.put (Reg.GROUP.DPD_STATUS.round_discarded g) 1).dpdNewRound g
  else
    let s := s.put (Reg.GROUP.DPD_STATUS.staged_mask g) (sumNat (fit.map fun p => 2 ^ (p % 8)))
    s.put (Reg.GROUP.DPD_STATUS.staged g) 1

/-- A fit ends: the idle banks hold its tables. One that used captures of an old plan is abandoned, and so is one of AUTO that ends in a
freeze, which leaves the banks in force alone, or in a group that cannot capture any more (R209, R216, R228). -/
def State.dpdFitDone (s : State) (g : Nat) (tables : List (Nat × List Byte)) : State :=
  if !s.flag (Reg.GROUP.DPD_STATUS.fitting g) then s
  else
    let x := s.obsGroup g
    let s := s.put (Reg.GROUP.DPD_STATUS.fitting g) 0
    let s := s.modObsGroup g fun y => { y with fit := [], abandoned := false }
    if x.abandoned || (s.obsPlace g).isNone then s
    else
      let s := s.forEach x.fit fun p s =>
        let s := s.writeTables p ((assoc? tables p).getD [])
        s.put (Reg.PIPE.DPD_NMSE.nmse_commit p) (s.get (Reg.PIPE.DPD_NMSE.nmse_last p))
      if s.dpdFrozen g && s.dpdGoverns g == dpdAuto then s.dpdNewRound g else s.dpdOffer g x.fit

/-- DPD_FIT_DONE (R222). -/
def execDpdFitDone (t : Nat) (g : Fin 8) (tables : List (Nat × List Byte)) (s : State) : Host.Outcome State Fault Refusal :=
  finish ((s.atTime t).dpdFitDone g.val tables)

/-- A committed round takes effect: it counts, its verification begins, and the next round's captures count from here (R223,
R224). -/
def State.dpdCommitted (s : State) (g : Nat) : State :=
  let s := s.bump (Reg.GROUP.DPD_COMMITS.word g)
  let s := s.put (Reg.GROUP.DPD_STATUS.verifying g) 1
  let k := s.obsPeriodNow g
  (s.modObsGroup g fun y => { y with verify := y.commit, verifyEnd := k + 16, committing := false }).dpdNewRound g

/-- Staged tables are released (R225). -/
def State.dpdDiscard (s : State) (g : Nat) : State :=
  (s.put (Reg.GROUP.DPD_STATUS.staged_mask g) 0).put (Reg.GROUP.DPD_STATUS.staged g) 0

/-- DPD_DISCARD (R225). -/
def execDpdDiscard (t : Nat) (ch : Channel) (g : Fin 8) (s : State) : Host.Outcome State Fault Refusal :=
  finish (s.hostCmd t ch.val (Reg.GROUP.DPD_ADAPT.word g.val).addr fun s => s.dpdDiscard g.val)

/-- Bytes that the spec leaves undefined, and the draws they take. -/
def State.freeBytes (s : State) (n : Nat) : List Byte := (List.range n).map fun i => Config.freeByte (s.free + i)

/-- A write of DPD_ADAPT: step exponent and margin, then the mode, which stops a fit, leaves the idle banks it was writing undefined, and
governs once no commit is under way; mode 0b11 is ignored (R225, R227). -/
def State.dpdModeWrite (s : State) (g : Nat) (v : Word) : State :=
  let a := (Reg.GROUP.DPD_ADAPT.word g).addr
  let mode := getBits v 0 2
  let s := s.setWord a ((fieldsAt a).foldl (storeField false (keepF (s.word a) 0 2 (· == 3) v)) (s.word a))
  let s := if getBits v 3 1 = 1 then s.dpdDiscard g else s
  if mode = 3 then s
  else
    let s := if s.flag (Reg.GROUP.DPD_STATUS.fitting g) then
        let s := s.forEach (s.obsGroup g).fit fun p s =>
          let idle := 1 - s.get (Reg.PIPE.DPD_STATUS.bank_in_force p)
          let s' := s.allocWrite kindDpd (dpdPlace p idle) (s.freeBytes dpdBytes)
          { s' with free := s'.free + dpdBytes }
        (s.put (Reg.GROUP.DPD_STATUS.fitting g) 0).modObsGroup g fun y => { y with fit := [], abandoned := false }
      else s
    (s.dpdGovern g).dpdNewRound g

/-- DPD_MODE_WRITE (R227). -/
def execDpdModeWrite (t : Nat) (ch : Channel) (g : Fin 8) (value : Word) (s : State) : Host.Outcome State Fault Refusal :=
  finish (s.hostCmd t ch.val (Reg.GROUP.DPD_ADAPT.word g.val).addr fun s => s.dpdModeWrite g.val value)

end Sys2Proof.Machine
end

