-- ==== Sys2Proof/Machine/Rx.lean ====
section
/-!
DEFINITION. The receive chain (R122, R124 to R127, R139, R145, R229 to R245, R262): from ADC codes to the uplink block of a symbol on
every path, zero-filled samples, valid paths, and the gain control that follows from a symbol's peak. Every sample is worked with the
settings that were in force for it (R120, R234).
-/

namespace Sys2Proof.Machine

open Sys2Proof

/-- Older samples that precede a symbol's codes, and later ones that follow, at 1966.08 MS/s: every filter is settled in the symbol. -/
def rxPad : Nat := 65536

/-! ### Zero-filled samples (R139, R145) -/

/-- Is a receive sample of group `g` at array time `a` replaced by zero? -/
def State.rxZero (s : State) (g a : Nat) : Bool :=
  s.rxOff g a || s.radio.blankSpans.any fun x => x.1 == g && x.2.1 ≤ a && (x.2.2.all fun e => decide (a < e))

/-- Does a downlink symbol of a carrier, with its turnaround on group `g`, meet the interval from array time `a` to `b` (R139, R140)? -/
def State.dlMeets (s : State) (c g a b : Nat) : Bool :=
  let r := (s.asOf a).form c
  let from0 := r.symbolAt (a - (maxLag + ticksOfNs 400))
  (List.range (r.symbolAt (b - 1 + maxLead) + 1 - from0)).any fun i =>
    let n := from0 + i
    let e := r.boundary (n + 1)
    s.onAir c (r.boundary n) == some n && decide (r.boundary n < b + s.txLead g (r.boundary n)) &&
      decide (a < e + s.txLag g e + ticksOfNs 400)

/-- Does another carrier's transmission or turnaround zero samples of an uplink symbol of carrier `c` on group `g` (R139)? -/
def State.turnClip (s : State) (c g a b : Nat) : Bool :=
  !(s.asOf a).allFdd && (List.range 8).any fun d => d != c && s.dlMeets d g a b

/-- Is any sample of group `g` from array time `a` to `b` zero-filled, by blanking or by transmission? -/
def State.rxZeroIn (s : State) (g a b : Nat) : Bool :=
  (s.radio.blankSpans.any fun x => x.1 == g && decide (x.2.1 < b) && (x.2.2.all fun e => decide (a < e))) ||
    (!(s.asOf a).allFdd && (List.range 8).any fun d => s.dlMeets d g a b)

/-! ### The chain (R229 to R235) -/

/-- Stage 1 of a path: the corrected samples of codes that begin at sample index `lo`, zero where they are zero-filled. -/
def State.rxInput (s : State) (p : Nat) (lo : Int) (codes : List Cplx) : List Cplx :=
  ((List.range codes.length).zip (s.rxFront p lo codes)).map fun e =>
    if s.rxZero (groupOf p) (2 * (lo + e.1)).toNat then Cplx.zero else e.2

/-- The 63 taps of the receive channel filter of a carrier: programmed, or built in (R232). -/
def State.rxTaps (s : State) (c : Nat) : List Int :=
  symTaps ((List.range 32).map fun k => if s.flag (Reg.CARRIER.RX_CHF_CTL.src c) then s.getS (Reg.CARRIER.RX_CHF_TAP.tap c k)
    else Config.rxChannel.getD k 0)

/-- Stage 3 of a carrier, before its output is truncated and saturated: the NCO shifts its centre to 0 Hz (R231). -/
def State.rxMixed (s : State) (c : Nat) (x : Stream) : Stream := fun lo n =>
  ((List.range n).zip ((s.track lo 4 n fun h => h.get (Reg.CARRIER.TX_NCO.word c)).zip (decimate Config.halfBandDown x lo n))).map fun e =>
    (ncoAt e.2.1 (lo + e.1).toNat).conj.mul e.2.2

/-- Stage 5 before its output is truncated and saturated: the channel filter at twice Fs_c, whose even outputs are kept (R232). -/
def State.rxFiltered (s : State) (c step : Nat) (x : Stream) : Stream :=
  downsample Cplx.zero fun lo n =>
    List.zipWith (fun taps h => dot taps h) (s.track lo (step / 2) n fun h => h.rxTaps c) (windows 63 31 x lo n)

/-- Stages 2 to 6 of a carrier under record `r` from the stage 1 samples of a path: `n` samples at Fs_c from index `lo` on, and which of them
saturated in stage 3, 5 or 6 (R229, R230). A stage 3 saturation counts with the stage 6 sample of its instant. -/
def State.rxStage6 (s : State) (c : Nat) (r : CarrierRec) (x : Stream) (lo : Int) (n : Nat) : List Cplx × List Bool :=
  let mixed := s.rxMixed c x
  let y4 := decimateN Config.halfBandDown r.doublings fun l k => (mixed l k).map (Cplx.out16 17)
  let y5 := s.rxFiltered c r.step y4 lo n
  let y6 := List.zipWith (fun k v => Cplx.smul ((k : Nat) : Int) (v.out16 17)) (s.track lo r.step n fun h => h.get (Reg.CARRIER.RX_SCALE.scale c)) y5
  let d : Nat := 2 ^ (r.doublings + 1)
  let sat3 := ((mixed (lo * (d : Int)) (n * d)).map fun v => v.sat16 17).toArray
  (y6.map (Cplx.out16 14), ((List.range n).zip (y6.zip y5)).map fun e =>
    e.2.1.sat16 14 || e.2.2.sat16 17 || (List.range d).any fun j => sat3.getD (e.1 * d + j) false)

/-- The stage 1 samples of a path for codes that begin `rxPad` samples before array time `a`. -/
def State.rxPath (s : State) (p a : Nat) (codes : List Cplx) : Stream :=
  let lo : Int := (a / 2 : Nat) - rxPad
  streamOf lo (s.rxInput p lo codes)

/-- The stage 6 samples of symbol `n` of a carrier on a path, from its boundary on, with their saturations. -/
def State.rxSymbol (s : State) (c p n : Nat) (codes : List Cplx) : List Cplx × List Bool :=
  let r := s.form c
  let a := r.boundary n
  s.rxStage6 c r (s.rxPath p a codes) ((a / r.step : Nat) : Int) ((r.boundary (n + 1) - a) / r.step)

/-- The stage 9 block of symbol `n` on a path: the carrier's subcarriers, the exponent, and how many stage 6 samples saturated (R236,
R240 to R244). -/
def State.rxBlock (s : State) (c p n : Nat) (codes : List Cplx) : List Cplx × Nat × Nat :=
  let r := s.form c
  let y := s.rxSymbol c p n codes
  let b := uplinkBlock r.fft r.spacing r.width (s.get (Reg.CARRIER.OFDM_CTL.fft_adv c)) r.ecp (n % r.symsPerHalf == 0) y.1
  (b.1, b.2, countIf (fun x => x) y.2)

/-! ### Valid paths (R262) -/

/-- The FFT window of symbol `n` of a carrier in array time (R240). -/
def State.fftWindow (s : State) (c n : Nat) : Nat × Nat :=
  let r := s.form c
  let pts := 2 ^ r.fft
  let ncp := prefixLen pts r.spacing r.ecp (n % r.symsPerHalf == 0)
  let d := windowAdvance pts (s.get (Reg.CARRIER.OFDM_CTL.fft_adv c)) r.ecp
  let a := r.boundary n + (ncp - d) * r.step
  (a, a + pts * r.step)

/-- Is the path valid for symbol `n` of a carrier: in use, no mute reason but host in the FFT window, no sample of it zero-filled (R262,
R284)? -/
def State.pathValid (s : State) (c n p : Nat) : Bool :=
  let w := s.fftWindow c n
  s.beamPath c p && ((s.over w.1 w.2).all fun h => h.mutes p / 2 == 0) && !s.rxZeroIn (groupOf p) w.1 w.2

/-! ### Gain control (R124 to R127) -/

/-- The symbol's codes themselves. -/
def State.symbolCodes (s : State) (c n : Nat) (codes : List Cplx) : List Cplx :=
  let r := s.form c
  (codes.drop rxPad).take ((r.boundary (n + 1) - r.boundary n) / 2)

/-- A peak in dBFS below full scale, truncated toward minus infinity: the least k with peak ≥ 8192 × 10^(-k/20), up to 96. -/
def peakBelow (peak : Nat) : Nat := ((List.range 96).find? fun k => 8192 ^ 20 ≤ peak ^ 20 * 10 ^ k).getD 96

/-- Does the AGC of a path rest at array time `a`: blanking, a calibration, or a path that does not receive (R127)? -/
def State.agcRests (s : State) (p a : Nat) : Bool :=
  let h := s.asOf a
  h.blanked (groupOf p) || ((h.path p).cal.any fun r => r.running) || !s.rxValid p a

/-- The slot of the timing carrier in progress at array time `a`, by its number from the epoch. -/
def State.timingSlot (s : State) (a : Nat) : Nat :=
  match s.timing with
  | some c => (s.form c).slotOf ((s.form c).symbolAt a)
  | none => a / planningSlot

/-- Does slot `k` of the timing carrier `c` hold an uplink symbol of any carrier? -/
def State.slotHasUl (s : State) (c k : Nat) : Bool :=
  let r := s.form c
  let a := r.boundary (k * r.symbols)
  let b := r.boundary ((k + 1) * r.symbols)
  let h := s.asOf a
  h.activeCarriers.any fun d =>
    let from0 := (h.form d).symbolAt a
    (List.range ((h.form d).symbolAt (b - 1) + 1 - from0)).any fun i => h.ulSym d (from0 + i)

/-- The samples of an uplink symbol that the AGC measures: those at which it does not rest (R127). -/
def State.agcSamples (s : State) (p a : Nat) (codes : List Cplx) : List Cplx :=
  (((List.range codes.length).zip codes).filter fun e => !s.agcRests p (a + 2 * e.1)).map fun e => e.2

/-- An uplink symbol of a path is measured: overload samples and peak; in SLOT_FAST an overload decides a back-off, and in every mode it
freezes the DC loop and spoils the IQ window until the end of the following symbol (R124, R126, R133). -/
def State.agcMeasure (s : State) (c n p : Nat) (codes : List Cplx) : State :=
  let r := s.form c
  let a := r.boundary n
  let l := s.agcSamples p a codes
  if l.isEmpty then s
  else
    let overN := countIf (fun v : Cplx => decide (8128 ≤ v.peak)) l
    let k := s.timingSlot a
    let peak := maxNat (l.map Cplx.peak)
    let hot := decide (16 * s.get (Reg.PATH.AGC_CTL.ovl_thresh p) < overN)
    let fast := s.get (Reg.PATH.AGC_CTL.mode p) == 2
    let until_ := s.instantOf (r.boundary (n + 2))
    let s := s.addTo (Reg.PATH.OVERLOAD.word p) overN
    let s := s.modPath p fun x =>
      { x with peaks := (assocSet x.peaks k (max peak ((assoc? x.peaks k).getD 0))).filter fun e => decide (k < e.1 + 256),
               backoff := x.backoff || (fast && hot) }
    if hot then s.modPath p fun x => { x with dcUntil := max x.dcUntil until_, iqDiscard := true } else s

/-- The update point of a path at the boundary of symbol `n` of the timing carrier `c`: SLOT and SLOT_FAST set the gain at the first one
of a slot that holds an uplink symbol, from the highest peak of the slot before it that held one; SLOT_FAST backs off at one that begins
an uplink symbol (R125, R126). -/
def State.agcUpdate (s : State) (c n p : Nat) : State :=
  let mode := s.get (Reg.PATH.AGC_CTL.mode p)
  let r := s.form c
  let a := r.boundary n
  if mode = 0 || s.agcRests p a then s
  else
    let slot := r.slotOf n
    let s :=
      if r.isSlotStart n && s.slotHasUl c slot then
        let before := ((List.range (min slot 256)).map fun i => slot - 1 - i).find? fun k => s.slotHasUl c k
        match before.bind fun k => assoc? (s.path p).peaks k with
        | some pk =>
          let pt : Int := -(s.get (Reg.PATH.AGC_CTL.target p) : Int)
          let d := clampInt (-12) 3 (pt + peakBelow pk)
          s.setGain p (clampInt 0 42 ((s.path p).gain + d)).toNat
        | none => s
      else s
    let begins := s.activeCarriers.any fun d => (s.form d).isBoundary a && s.ulSym d ((s.form d).symbolAt a)
    if (s.path p).backoff && begins then
      (s.setGain p ((s.path p).gain - s.get (Reg.PATH.AGC_CTL.step p))).modPath p fun y => { y with backoff := false }
    else s

/-! ### Failures of the converter (R178) -/

/-- The longest row of equal values, a gap ending a row. -/
def longestRow : Option Int → Nat → List (Option Int) → Nat
  | _, k, [] => k
  | last, k, x :: xs => match x with
    | none => max k (longestRow none 0 xs)
    | some v => if last = some v then longestRow last (k + 1) xs else max k (longestRow (some v) 1 xs)

/-- Is the converter of a path stuck: the same code on I or Q for 4,096 valid samples in a row, with no blanking, up to the end of symbol
`n`? `codes` begin `rxPad` samples before the symbol. -/
def State.adcStuck (s : State) (c n p : Nat) (codes : List Cplx) : Bool :=
  let r := s.form c
  let a := r.boundary n
  let skip := rxPad - 4095
  let l := (codes.drop skip).take (4095 + (r.boundary (n + 1) - a) / 2)
  let seen := ((List.range l.length).zip l).map fun e =>
    let t := ((2 * ((a / 2 : Nat) - 4095 + (e.1 : Int)) : Int)).toNat
    if s.rxValid p t && !(s.asOf t).blanked (groupOf p) then some e.2 else none
  4096 ≤ max (longestRow none 0 (seen.map fun x => x.map fun v => v.re)) (longestRow none 0 (seen.map fun x => x.map fun v => v.im))

/-- An uplink symbol in which more than half the samples overload at gain 0 dB (R178). -/
def State.overranges (s : State) (c n p : Nat) (codes : List Cplx) : Bool :=
  ((s.asOf ((s.form c).boundary n)).path p).gain == 0 &&
    decide (codes.length < 2 * countIf (fun v : Cplx => decide (8128 ≤ v.peak)) codes)

end Sys2Proof.Machine
end

