-- ==== Sys2Proof/Machine/Beam.lean ====
section
/-!
DEFINITION. The arithmetic of the beam engine and solver (R272 to R284, R291, R304 to R313): block normalisation, corrected weights,
precoding, combining, Gram matrices, their regularised inverse, and the weights formed from it.
-/

namespace Sys2Proof.Machine

open Sys2Proof

/-! ### Exact values and block normalisation (R272) -/

/-- An exact complex value: a mantissa times 2^exponent. -/
abbrev Exact := Cplx × Int

/-- The least exponent of some exact values, 0 for none. -/
def minExp (l : List Int) : Int :=
  match l with
  | [] => 0
  | x :: xs => xs.foldl min x

/-- The integer that an exact value is in units of 2^f, for f at most its exponent. -/
def inUnits (f : Int) (x : Exact) : Cplx := Cplx.smul (2 ^ (x.2 - f).toNat) x.1

/-- The exact sum of a list in units of 2^f. -/
def sumUnits (f : Int) (l : List Exact) : Cplx := sumC (l.map (inUnits f))

/-- The least L with an integer in [-2^L, 2^L - 1]. -/
def intLen (x : Int) : Nat :=
  let n := if 0 ≤ x then x.toNat else (-x - 1).toNat
  if n = 0 then 0 else n.log2 + 1

/-- The least L for both components. -/
def cplxLen (x : Cplx) : Nat := max (intLen x.re) (intLen x.im)

/-- The block normalisation to `b` bits of values in units of 2^f: mantissas and exponent. -/
def blockNorm (b : Nat) (f : Int) (l : List Cplx) : List Cplx × Int :=
  if l.all fun x => x == Cplx.zero then (l, 0)
  else
    let m := maxNat ((l.filter fun x => x != Cplx.zero).map cplxLen)
    let e := f + m - (b - 1 : Nat)
    if m ≤ b - 1 then (l.map (Cplx.smul (2 ^ (b - 1 - m))), e)
    else (l.map (Cplx.shr (m - (b - 1))), e)

/-- The block normalisation of a list of exact sums. -/
def normSums (b : Nat) (l : List (List Exact)) : List Cplx × Int :=
  let f := minExp ((l.flatten).map fun x => x.2)
  blockNorm b f (l.map (sumUnits f))

/-- Saturation to 16 bits of both components, after a floor by `k` bits. -/
def floorSat (k : Nat) (x : Cplx) : Cplx := x.out16 k

/-! ### Corrected weights (R281 to R283) -/

/-- The correction word of a path. -/
def State.txCorr (s : State) (p : Nat) : Cplx := cplxOfWord (s.word (Reg.BEAM.TX_CORR.word p).addr).toNat
def State.rxCorr (s : State) (p : Nat) : Cplx := cplxOfWord (s.word (Reg.BEAM.RX_CORR.word p).addr).toNat

/-- The reciprocity factor r_p. -/
def State.reciprocity (s : State) (p : Nat) : Cplx := floorSat 14 ((s.txCorr p).mul (s.rxCorr p).conj)

/-- The uses of a weight. -/
inductive WeightUse where
  | beamDl | beamUl | solvedDl | solvedUl
deriving DecidableEq, Repr

/-- The rotation of R283 for a path of bank `b`, whose tag says CROSS or not, with the feeds of a carrier. -/
def State.feedRotation (s : State) (feed b : Nat) (tag : Bool) : Option Cplx :=
  let cross := feed.testBit b
  if cross == tag then none
  else
    let d : Int := if b = 0 then s.get Reg.BEAM.XFEED_PHASE.delta else -(s.get Reg.BEAM.XFEED_PHASE.delta : Int)
    let k := unsigned 16 (if tag then d else -d)
    some (phasor k 65536)

/-- A weight corrected at use: correction, rotation, renormalisation, and whether a step saturated. -/
def State.correctWeight (s : State) (feed p : Nat) (use : WeightUse) (tag : Bool) (w : Cplx) : Cplx × Bool :=
  let step := fun (x : Cplx × Bool) (k : Nat) (f : Cplx) => (floorSat k (x.1.mul f), x.2 || (x.1.mul f).sat16 k)
  let x0 : Cplx × Bool := (w, false)
  let x1 := match use with
    | .beamDl => step x0 14 (s.txCorr p)
    | .beamUl => step x0 14 (s.rxCorr p)
    | .solvedDl => step x0 14 (s.reciprocity p)
    | .solvedUl => x0
  let x2 := match s.feedRotation feed (bankOf p) tag with
    | some r => step x1 17 r
    | none => x1
  match use with
  | .beamDl => step x2 14 ⟨s.get Reg.BEAM.RENORM.factor, 0⟩
  | _ => x2

/-- The beam-table entry's weight of a path (R288). -/
def State.beamWeight (s : State) (e p : Nat) : Cplx :=
  match s.allocOffset kindBeam (256 * e + 4 * p) with
  | some o => cplxOfWord (s.memWord o)
  | none => Cplx.zero

/-- Is the entry valid? -/
def State.beamValid (s : State) (e : Nat) : Bool := s.beam.valid.testBit e

/-- ρ of R282: round(2^14 × sqrt(plan / svc)), half away from zero, at most 0xFFFF; 0x4000 where svc is 0. -/
def renormFactor (plan svc : Nat) : Nat :=
  if svc = 0 then 0x4000
  else min 0xFFFF ((((plan * 2 ^ 30) / svc).sqrt + 1) / 2)

/-- RENORM follows the plan and the paths in service (R282). -/
def State.showRenorm (s : State) : State :=
  let plan := (List.range 64).filter s.pathEnabled
  let svc := countIf s.inService plan
  let s := s.put Reg.BEAM.RENORM.n_plan plan.length
  (s.put Reg.BEAM.RENORM.n_svc svc).put Reg.BEAM.RENORM.factor (renormFactor plan.length svc)

/-! ### Weights in use -/

/-- Correct a vector of 64 weights; a path out of use has weight 0. -/
def State.correctVector (s : State) (c : Nat) (use : WeightUse) (tags : List Bool) (eW : Int) (w : List Cplx) : LayerWeights :=
  let y := (List.range 64).map fun p =>
    if s.beamPath c p then s.correctWeight (s.car c).feed p use (tags.getD p false) (w.getD p Cplx.zero) else (Cplx.zero, false)
  { w := y.map fun e => e.1, eW := eW, sat := y.any fun e => e.2, invalid := false }

/-- The beam of the section that covers a PRB for a layer, the latest to take effect first (R286, R387). -/
def beamOf (force : List CForce) (dl : Bool) (c layer n prb : Nat) : Option CForce :=
  (force.filter fun f => f.carrier == c && f.dl == dl && f.layer == layer && decide (f.first ≤ n) && decide (n < f.last) &&
    decide (f.startPrb ≤ prb) && decide (prb < f.startPrb + f.numPrb)).getLast?

/-- The weights of a carrier, a direction, a layer and a group for symbol `n` (R278, R286, R291, R311). -/
def State.layerWeights (s : State) (force : List CForce) (dl : Bool) (c layer n g : Nat) : Option LayerWeights :=
  let r := s.form c
  if r.mode = modeBeamId then
    match beamOf force dl c layer n (g * r.groupSize) with
    | some f =>
      if s.beamValid f.beam then
        some (s.correctVector c (if dl then .beamDl else .beamUl) [] 0 ((List.range 64).map fun p => s.beamWeight f.beam p))
      else some { w := [], eW := 0, sat := false, invalid := true }
    | none => none
  else
    let sets := s.beam.sets.getD c (WeightSet.empty, WeightSet.empty)
    let set := if (s.car c).set = 0 then sets.1 else sets.2
    if dl then
      match set.dl[g]? with
      | some gw => some (s.correctVector c .solvedDl set.dlTags (gw.eW.getD layer 0) (gw.w.getD layer []))
      | none => none
    else
      match set.ul[g]? with
      | some gw => some (s.correctVector c .solvedUl set.ulTags (gw.eH + 15) (gw.h.map fun row => row.getD layer Cplx.zero))
      | none => none

/-! ### Downlink precoding (R275, R276) -/

/-- The terms of bin `k` of a path, for the data of one symbol. -/
def precodeTerms (weights : Nat → Nat → Option LayerWeights) (groupSize : Nat) (data : List PrbData) (p k : Nat) : List Exact :=
  (data.filter fun d => d.prb == k / 12).filterMap fun d =>
    match weights d.layer (d.prb / groupSize) with
    | some lw => some ((lw.w.getD p Cplx.zero).mul (d.vals.getD (k % 12) Cplx.zero), d.exp + lw.eW - 15)
    | none => none

/-- One path's block: mantissas of the carrier's subcarriers and e_b. -/
def precodePath (weights : Nat → Nat → Option LayerWeights) (groupSize width : Nat) (data : List PrbData) (p : Nat) : List Cplx × Int :=
  normSums 16 ((List.range (12 * width)).map fun k => precodeTerms weights groupSize data p k)

/-! ### Uplink combining (R277 to R280) -/

/-- The blocks of the 64 paths aligned to the largest exponent of the valid ones: mantissas by path, and E. -/
def alignBlocks (blocks : List (List Cplx × Nat)) (valid : List Bool) : List (List Cplx) × Int :=
  let e := maxNat (((blocks.zip valid).filter fun x => x.2).map fun x => x.1.2)
  ((blocks.zip valid).map fun x => if x.2 then x.1.1.map (Cplx.shr (e - x.1.2)) else [], (e : Int))

/-- The combination of one bin with a vector of weights: Σ conj(w_p) × y_p. -/
def combineBin (w : List Cplx) (ys : List (List Cplx)) (k : Nat) : Cplx :=
  sumC (List.zipWith (fun wp y => (Cplx.conj wp).mul (y.getD k Cplx.zero)) w ys)

/-- The matched-filter or beam outputs of a layer in one PRB, exact: 12 values in units of 2^e. -/
def combinePrb (lw : Option LayerWeights) (ys : List (List Cplx)) (e : Int) (prb : Nat) : List Cplx × Int :=
  match lw with
  | some w => ((List.range 12).map fun i => combineBin w.w ys (12 * prb + i), e + w.eW - 15)
  | none => (List.replicate 12 Cplx.zero, 0)

/-- Step 2 of R279: v_l := Σ_m A_{l,m} × ẑ_m for one PRB; `z` gives each layer's mantissas and exponent. -/
def applyInverse (a : List (List Cplx)) (eA : Int) (z : List (List Cplx × Int)) (l : Nat) : List (List Exact) :=
  (List.range 12).map fun i =>
    List.zipWith (fun am (zm : List Cplx × Int) => (am.mul (zm.1.getD i Cplx.zero), eA + zm.2)) (a.getD l []) z

/-- Delivery under R280: u := floor(v / 2^o), saturated, and whether it saturated. -/
def deliver (o : Int) (x : Exact) : Cplx × Bool :=
  let k := x.2 - o
  let y := if 0 ≤ k then Cplx.smul (2 ^ k.toNat) x.1 else x.1.shr (-k).toNat
  (y.map (satS 16), y.map (satS 16) != y)

/-! ### The solver (R304 to R311) -/

/-- Entry (m, l) of an upper triangle stored row by row, completed by Hermitian symmetry. -/
def upperAt (n : Nat) (u : List Cplx) (m l : Nat) : Cplx :=
  let idx := fun i j => i * n - i * (i - 1) / 2 + (j - i)
  if m ≤ l then u.getD (idx m l) Cplx.zero else (u.getD (idx l m) Cplx.zero).conj

/-- The pairs m ≤ l of an upper triangle, row by row. -/
def upperPairs (n : Nat) : List (Nat × Nat) :=
  ((List.range n).map fun m => (List.range (n - m)).map fun j => (m, m + j)).flatten

/-- The Gram matrix of one group (R304). -/
def gramOf (layers : Nat) (h : List (List Cplx)) (eH : Int) : List Cplx × Int :=
  blockNorm 24 (2 * eH) ((upperPairs layers).map fun e =>
    sumC (h.map fun row => (row.getD e.1 Cplx.zero).conj.mul (row.getD e.2 Cplx.zero)))

/-- The sum of Gram contributions (R305). -/
def gramSum (l : List (List Cplx × Int)) : List Cplx × Int :=
  match l with
  | [] => ([], 0)
  | x :: _ => normSums 24 ((List.range x.1.length).map fun i => l.map fun y => (y.1.getD i Cplx.zero, y.2))

/-- The regularised matrix M and e_M, or none where the trace is 0 (R306, R308). -/
def regularise (layers rho : Nat) (g : List Cplx) (eG : Int) : Option (List Cplx × Int) :=
  let tr := sumInt ((List.range layers).map fun l => (upperAt layers g l l).re)
  if tr = 0 then none
  else
    let lam := ((rho : Int) * tr).fdiv (((layers * 65536 : Nat)) : Int)
    let reg := List.zipWith (fun (e : Nat × Nat) (v : Cplx) => if e.1 = e.2 then (⟨v.re + lam, v.im⟩ : Cplx) else v) (upperPairs layers) g
    let m := blockNorm 31 eG reg
    if m.2 % 2 = 0 then some m else some (m.1.map (Cplx.shr 1), m.2 + 1)

/-- Division of a complex integer by a natural number, each component to its floor. -/
def divFloor (x : Cplx) (n : Nat) : Cplx := ⟨x.re.fdiv n, x.im.fdiv n⟩

/-- One row step of the factor R (R307): `r` holds the finished rows, each from column 0 on. -/
def cholRow (n : Nat) (m : List Cplx) (rows : List (List Cplx)) (j : Nat) : Option (List Cplx) :=
  let prior := fun a b => sumC (rows.map fun row => (row.getD a Cplx.zero).conj.mul (row.getD b Cplx.zero))
  let d := (upperAt n m j j).re * 2 ^ 32 - (prior j j).re
  if d ≤ 0 then none
  else
    let p : Nat := d.toNat.sqrt
    some ((List.range n).map fun i =>
      if i < j then Cplx.zero
      else if i = j then ⟨p, 0⟩
      else divFloor ((Cplx.smul (2 ^ 32) (upperAt n m j i)).sub (prior j i)) p)

/-- The factor R by rows; none on a pivot failure (R307). -/
def cholesky (n : Nat) (m : List Cplx) : Nat → List (List Cplx) → Option (List (List Cplx))
  | 0, rows => some rows
  | k + 1, rows =>
    match cholRow n m rows rows.length with
    | some row => cholesky n m k (rows ++ [row])
    | none => none

/-- T by rows, built from the diagonal outward: row i needs T[i][i] to T[i][j-1] (R309). -/
def invRow (n : Nat) (r : List (List Cplx)) (i : Nat) : List Cplx :=
  let diag := fun j => ((r.getD j []).getD j Cplx.zero).re.toNat
  (List.range n).foldl (fun row j =>
    if j < i then row ++ [Cplx.zero]
    else if j = i then row ++ [⟨((2 ^ 62 / diag j : Nat) : Int), 0⟩]
    else
      let acc := sumC ((List.range (j - i)).map fun d => (row.getD (i + d) Cplx.zero).mul ((r.getD (i + d) []).getD j Cplx.zero))
      row ++ [divFloor acc.neg (diag j)]) []

/-- The inverse A of a regularised matrix, block normalised to 16 bits, with e_A; none on a pivot failure (R307 to R309). -/
def inverseOf (n : Nat) (m : List Cplx) (eM : Int) : Option (List (List Cplx) × Int) :=
  match cholesky n m n [] with
  | none => none
  | some r =>
    let t := (List.range n).map (invRow n r)
    let flat := ((List.range n).map fun a => (List.range n).map fun b =>
      sumC ((List.range n).map fun k => ((t.getD a []).getD k Cplx.zero).mul ((t.getD b []).getD k Cplx.zero).conj)).flatten
    let y := blockNorm 16 (-92 - eM) flat
    some (chunks n n y.1, y.2)

/-- The scales of the layers and e_s (R310). -/
def scalesOf (n : Nat) (a : List (List Cplx)) (eA : Int) (g : List Cplx) (eG : Int) : List Int × Int :=
  let fn := 2 * eA + eG
  let at0 := fun (i j : Nat) => (a.getD i []).getD j Cplx.zero
  let raw := (List.range n).map fun l =>
    (sumC (((List.range n).map fun m => (List.range n).map fun k => ((at0 m l).conj.mul (upperAt n g m k)).mul (at0 k l)).flatten)).re.toNat
  let odd := fn % 2 != 0
  let f := if odd then fn - 1 else fn
  let sc : List Exact := raw.map fun x =>
    let q := (if odd then 2 * x else x).sqrt
    (⟨if q = 0 then 0 else ((2 ^ 48 / q : Nat) : Int), 0⟩, -48 - f / 2)
  let y := normSums 16 (sc.map fun x => [x])
  (y.1.map fun v => v.re, y.2)

/-- The solution of one group from its Gram matrix (R306 to R310). -/
def solveGroup (layers rho : Nat) (dl : Bool) (group : Nat) (g : List Cplx) (eG : Int) : InverseRec :=
  let bad : InverseRec := { group := group, dl := dl, a := [], eA := 0, sc := [], eS := 0, failed := true }
  match regularise layers rho g eG with
  | none => bad
  | some m =>
    match inverseOf layers m.1 m.2 with
    | none => bad
    | some a =>
      let y := scalesOf layers a.1 a.2 g eG
      { group := group, dl := dl, a := a.1, eA := a.2, sc := y.1, eS := y.2, failed := false }

/-- A landing's downlink weights of one group: each layer's 64 mantissas and e_w (R311). -/
def weightsOf (layers : Nat) (h : List (List Cplx)) (eH : Int) (x : InverseRec) : List (List Cplx) × List Int :=
  let y := (List.range layers).map fun l =>
    let s := x.sc.getD l 0
    blockNorm 16 (eH + x.eA + x.eS) (h.map fun row =>
      Cplx.smul s (sumC ((List.range layers).map fun m => (row.getD m Cplx.zero).mul ((x.a.getD m []).getD l Cplx.zero))).conj)
  (y.map fun e => e.1, y.map fun e => e.2 + 15)

end Sys2Proof.Machine
end

