-- ==== Sys2Proof/Machine/Flights.lean ====
section
/-!
DEFINITION. Symbols on the stair network (R302, R443, R444, R460): names of symbols and chunks, and downlink layers and sections on their
way through the tree.
-/

namespace Sys2Proof.Machine

open Sys2Proof

/-! ### Symbols by name (R444) -/

/-- The name of a symbol in a record: slot modulo 4,096, symbol in the slot. -/
def CarrierRec.name (r : CarrierRec) (n : Nat) : Nat × Nat := (r.slotOf n % 4096, r.symIn n)

/-- The symbol nearest to an array time that a record names. -/
def CarrierRec.named (r : CarrierRec) (a slot sym : Nat) : Nat :=
  let here := r.slotOf (r.symbolAt a)
  let d := (slot + 4096 - here % 4096) % 4096
  let m := if d < 2048 then here + d else here + d - 4096
  m * r.symbols + sym

/-- PRBs of a chunk (R444). -/
def chunkPrbs : Nat := 64

/-- The first PRBs of the chunks of a carrier. -/
def CarrierRec.chunks (r : CarrierRec) : List Nat := (List.range (ceilDiv r.width chunkPrbs)).map fun i => i * chunkPrbs

/-- Does the landing run an array-joint carrier's work with others: it has a parent or is the top? -/
def State.isIngress (s : State) (c : Nat) : Bool := (s.form c).ingress == s.landing
def State.isEgress (s : State) (c : Nat) : Bool := (s.form c).egress == s.landing

/-! ### Downlink layers and sections (R34, R302, R443) -/

/-- A record that the landing keeps for RESUME (R460). -/
def State.remember (s : State) (m : StairMsg) : State :=
  let keep := ticksOfUs (10 * s.get Reg.STAIR.CTL.history)
  let at0 := s.now
  s.modTree fun x => { x with history := (x.history.filter fun e => at0 ≤ e.1 + keep) ++ [(at0, m)] }

/-- Downlink data that met its deadline waits for its symbol, in the symbol's gate where there is one. -/
def State.storeData (s : State) (c n : Nat) (new : List PrbData) : State :=
  { s with fh := { s.fh with data := s.fh.data ++ new },
           gates := s.gates.map fun g =>
             if decide (g.kind = .down) && g.carrier == c && g.symbol == n then { g with data := g.data ++ new } else g }

/-- Data of a chunk, for the symbol it names; a PRB that is there already is a duplicate (R460). -/
def State.takeLayer (s : State) (x : Chunk) : State :=
  let r := s.form x.carrier
  let n := r.named s.arrayNow x.slot x.sym
  let have_ := fun prb => s.fh.data.any fun d => d.carrier == x.carrier && d.symbol == n && d.layer == x.layer && d.prb == prb
  let new := ((List.range x.prbs.length).zip x.prbs).filterMap fun e =>
    if have_ (x.first + e.1) then none
    else some ({ carrier := x.carrier, symbol := n, layer := x.layer, prb := x.first + e.1, exp := e.2.1, vals := e.2.2 } : PrbData)
  s.storeData x.carrier n new

/-- A LAYER or SECTIONS record that goes up from the ingress landing and from the top down to all: on the way up it is forwarded to the
parent; at the top and on the way down it goes to every child and is taken. Says whether the landing takes it. -/
def State.spread (s : State) (m : StairMsg) (fromParent : Bool) : State × Bool :=
  if s.isTop || fromParent then ((s.remember m).sendDown m, true) else (s.sendUp m, false)

/-! ### Release gates (R24, R446) -/

/-- Put an output into its release gate. -/
def State.addGate (s : State) (g : GateEntry) : State := { s with gates := s.gates ++ [g] }

/-- The downlink deadline of symbol `n` of a carrier (R29), as an array time. The reserve in force governs all data that arrives from its
effective boundary on, also for symbols whose deadline under the old reserve lay elsewhere (R40 also reads as the symbols that begin from
then on; DEDUCED, log entry 67). -/
def State.dlDeadline (s : State) (c n : Nat) : Nat :=
  (s.form c).boundary n - ticksOfNs (s.dlLatency c) - ticksOfUs (s.car c).reserve

/-- When a record of a symbol leaves toward a stair port, counted from array time `a` and at most `most` later (log entry 68). -/
def State.stairTime (s : State) (c kind depth a most : Nat) : Nat :=
  a + min most (ticksOfNs (Config.stairRelease kind depth (s.formBytes c)))

/-- The release of the LAYER records of symbol `n` at the ingress landing: between the downlink deadline and the boundary. -/
def State.layerRelease (s : State) (c n : Nat) : Nat :=
  s.stairTime c 0 s.depth (s.dlDeadline c n) (ticksOfNs (s.dlLatency c) + ticksOfUs (s.car c).reserve)

/-- The release of a record of uplink symbol `n` under record `r` at a landing of a depth: between the symbol's end and its release to the
fronthaul. -/
def State.sumRelease (s : State) (c kind depth : Nat) (r : CarrierRec) (n : Nat) : Nat :=
  s.stairTime c kind depth (r.boundary (n + 1)) (ticksOfNs (s.ulLatency c) + ticksOfUs (s.car c).reserve)

/-- A record of a symbol enters its gate toward the stair ports; after its release time it is not sent, and its symbol is missed (R25,
R446, R539). -/
def State.stairGate (s : State) (c n release : Nat) (dl : Bool) (r : CarrierRec) (counts : List (Nat × Nat)) (m : StairMsg) : State :=
  if release < s.arrayNow then s.missed c n dl
  else s.addGate { kind := .stair, carrier := c, form := r, symbol := n, release := release, wait := 0, epoch := (s.car c).epoch,
                   msgs := [m], frames := [], data := [], force := [], counts := counts }

/-- The ingress landing's converted layer data of a symbol: it keeps the data for itself, and LAYER records of it wait for their release. -/
def State.sendLayer (s : State) (c n layer : Nat) (new : List PrbData) : State :=
  let r := s.form c
  let name := r.name n
  (s.storeData c n new).forEach r.chunks fun first s =>
    let l := new.filter fun d => first ≤ d.prb && d.prb < first + chunkPrbs
    match l with
    | [] => s
    | d :: _ =>
      let x : Chunk := { carrier := c, layer := layer, slot := name.1, sym := name.2, first := d.prb, prbs := l.map fun e => (e.exp, e.vals) }
      s.stairGate c n (s.layerRelease c n) true r [] (.layer x)

/-- A LAYER record passes its gate at the ingress landing. -/
def State.layerOut (s : State) (x : Chunk) : State :=
  let y := s.spread (.layer x) false
  if y.2 then y.1.takeLayer x else y.1

end Sys2Proof.Machine
end

