-- ==== Sys2Proof/Machine/Fronthaul.lean ====
section
/-!
DEFINITION. Fronthaul and partners (R369 to R419): ports, frames, the partner table, reordering windows, sections, downlink data, the
egress journal with failover, and the answers of the address and delay planes.
-/

namespace Sys2Proof.Machine

open Sys2Proof

/-! ### Ports (R369 to R377) -/

/-- The codes of PORT_STATUSn.state. -/
def fhDisabled : Nat := 0
def fhListen : Nat := 1
def fhTrain : Nat := 2
def fhAlign : Nat := 3
def fhUp : Nat := 4
def fhTest : Nat := 5

/-- A port beside its registers. -/
def State.fhPort (s : State) (n : Nat) : FhPort := s.fh.ports.getD n FhPort.reset

/-- Change it. -/
def State.modFhPort (s : State) (n : Nat) (f : FhPort → FhPort) : State := { s with fh := { s.fh with ports := s.fh.ports.modify n f } }

/-- A port's state code, and its entry into a state. -/
def State.fhPortState (s : State) (n : Nat) : Nat := s.get (Reg.FRONTHAUL.PORT_STATUS.state n)
def State.fhUpOn (s : State) (n : Nat) : Bool := n < 8 && s.fhPortState n == fhUp
def State.fhEnter (s : State) (n st : Nat) : State :=
  let at0 := s.now
  (s.put (Reg.FRONTHAUL.PORT_STATUS.state n) st).modFhPort n fun x => { x with since := at0 }

/-- How many ports the layout in force has, and the lanes of a port (R369). -/
def State.fhPorts (s : State) : Nat := 2 * 2 ^ min 2 s.fh.layout
def State.fhLanes (s : State) (n : Nat) : List Nat := let k := 8 / s.fhPorts; (List.range k).map fun i => k * n + i

/-- The port that a lane belongs to. -/
def State.fhPortOf (s : State) (lane : Nat) : Nat := lane / (8 / s.fhPorts)

/-- The MAC address of port FP0 as a number (R378): as in every MAC and IPv4 address, the first byte on the wire is the most significant
(DESIGN CHOICE, log entry 69). -/
def State.fhMac (s : State) : Nat := s.get Reg.FRONTHAUL.MAC_HI.word * 2 ^ 32 + s.get Reg.FRONTHAUL.MAC_LO.word

/-- The state that a port's controls give it apart from link events (bring-up table, R376); no port comes up before boot step 12 (R89,
R674). -/
def State.fhHome (s : State) (n : Nat) : Nat :=
  if !decide (s.boot.phase = .ready) || s.get (Reg.FRONTHAUL.PORT_CTL.enable n) = 0 || s.fhMac = 0 || s.fhPorts ≤ n then fhDisabled
  else if s.flag (Reg.FRONTHAUL.PORT_CTL.test n) then fhTest
  else fhListen

/-- Bits that a port sends in a microsecond (R369, R370). -/
def State.fhRate (s : State) (n : Nat) : Nat := 800000 / s.fhPorts / (if s.flag (Reg.FRONTHAUL.PORT_CTL.half n) then 2 else 1)

/-! ### Partner entries (R394 to R398) -/

/-- The codes of PT_STATUSn.state. -/
def ptEmpty : Nat := 0
def ptActive : Nat := 1
def ptProvisional : Nat := 2
def ptExpired : Nat := 3

/-- An entry's state, MAC (log entry 69), tag and VID, and range. -/
def State.ptState (s : State) (n : Nat) : Nat := s.get (Reg.FRONTHAUL.PT_STATUS.state n)
def State.ptMac (s : State) (n : Nat) : Nat := s.get (Reg.FRONTHAUL.PT_MAC_HI.bytes n) * 2 ^ 32 + s.get (Reg.FRONTHAUL.PT_MAC_LO.word n)
def State.ptVlan (s : State) (n : Nat) : Option Nat :=
  if s.flag (Reg.FRONTHAUL.PT_MAC_HI.tagged n) then some (s.get (Reg.FRONTHAUL.PT_MAC_HI.vid n)) else none
def State.ptHas (s : State) (n eaxc : Nat) : Bool :=
  s.get (Reg.FRONTHAUL.PT_EAXC.first n) ≤ eaxc && eaxc ≤ s.get (Reg.FRONTHAUL.PT_EAXC.last n)

/-- The entries that are not EMPTY. -/
def State.ptUsed (s : State) : List Nat := (List.range 64).filter fun n => s.ptState n != ptEmpty

/-- A partner beside its registers. -/
def State.partner (s : State) (n : Nat) : Partner := s.fh.partners.getD n Partner.empty
def State.modPartner (s : State) (n : Nat) (f : Partner → Partner) : State :=
  { s with fh := { s.fh with partners := s.fh.partners.modify n f } }

/-- The counters of an entry, in their order. -/
inductive PCnt where
  | form | cGap | cDup | cLate | cRefused | cOverlap | cExpired | uLate | uNoCplane | uDup | uComp | ulDiscard | ulStale | dhResent
deriving DecidableEq, Repr

/-- A counter's place. -/
def PCnt.idx : PCnt → Nat
  | .form => 0
  | .cGap => 1
  | .cDup => 2
  | .cLate => 3
  | .cRefused => 4
  | .cOverlap => 5
  | .cExpired => 6
  | .uLate => 7
  | .uNoCplane => 8
  | .uDup => 9
  | .uComp => 10
  | .ulDiscard => 11
  | .ulStale => 12
  | .dhResent => 13

/-- Count on an entry. -/
def State.pcount (s : State) (n : Nat) (k : PCnt) (m : Nat) : State := if n < 64 then s.addTo (Reg.FRONTHAUL.PCNT.word n k.idx) m else s

/-- The partner policy (R394). -/
def State.policy (s : State) : List Byte := s.sectionBytes secPartner

/-- The lease in ticks. -/
def State.lease (s : State) : Nat := ticksOfMs (leAt s.policy 4 4)

/-- An entry begins anew: its windows are empty, its counters cleared, its flows on the home port or, where that is not UP, on the
alternate (R395, R398, R402). -/
def State.ptBegin (s : State) (n st : Nat) : State :=
  let at0 := s.now
  let s := s.modPartner n fun _ => { windows := [], last := at0 }
  let s := s.forEach (List.range 14) fun i s => s.put (Reg.FRONTHAUL.PCNT.word n i) 0
  let home := s.get (Reg.FRONTHAUL.PT_CTL.home n)
  let alt := s.get (Reg.FRONTHAUL.PT_CTL.alt n)
  let port := if !s.fhUpOn home && s.fhUpOn alt then alt else home
  let s := s.put (Reg.FRONTHAUL.PT_STATUS.port n) port
  let s := s.putB (Reg.FRONTHAUL.PT_STATUS.unreachable n) (!s.fhUpOn port)
  s.put (Reg.FRONTHAUL.PT_STATUS.state n) st

/-- An entry's windows are cleared; messages held in them are counted (R59, R397). -/
def State.ptDrop (s : State) (n : Nat) : State :=
  (s.pcount n .cExpired (sumNat ((s.partner n).windows.map fun w => w.held.length))).modPartner n fun x => { x with windows := [] }

/-- An entry becomes EMPTY: its windows go, and what it had in force for later symbols (R396). -/
def State.ptClear (s : State) (n : Nat) : State :=
  let s := (s.ptDrop n).modPartner n fun _ => Partner.empty
  let s := { s with fh := { s.fh with force := s.fh.force.filter fun f => f.entry != n } }
  let s := (s.put (Reg.FRONTHAUL.PT_STATUS.unreachable n) 0).put (Reg.FRONTHAUL.PT_STATUS.lease_left n) 0
  s.put (Reg.FRONTHAUL.PT_STATUS.state n) ptEmpty

/-- The valid bit of an entry's registers takes effect: a static entry appears, or goes (R394, R396); a provisional one that turns static keeps
its counters (R398). -/
def State.ptFollow (s : State) (n : Nat) : State :=
  let valid := s.flag (Reg.FRONTHAUL.PT_CTL.valid n)
  let st := s.ptState n
  if valid && st == ptEmpty then s.ptBegin n ptActive
  else if valid && st == ptProvisional then s.put (Reg.FRONTHAUL.PT_STATUS.state n) ptActive
  else if !valid && (st == ptActive || st == ptExpired) then s.ptClear n
  else s

/-- The range from prov_first to prov_last less the other entries' ranges up to the first conflict, around an eAxC: it begins at the
policy's first and ends before the first conflict (R395). -/
def State.provRange (s : State) : Nat × Nat :=
  let first := leAt s.policy 8 2
  let last := leAt s.policy 10 2
  let free := fun e => !(s.ptUsed.any fun n => s.ptHas n e)
  let lo := ((List.range (last + 1 - first)).map fun i => first + i).find? free |>.getD first
  let run := ((List.range (last + 1 - lo)).map fun i => lo + i).takeWhile free
  (lo, lo + run.length - 1)

/-- May a message with this VLAN and eAxC enrol (R395)? -/
def State.mayEnrol (s : State) (vids : List Nat) (eaxc : Nat) : Bool :=
  let flags := leAt s.policy 0 1
  let vlanOk := match vids with
    | [v] => v == leAt s.policy 12 2 % 4096
    | [] => flags.testBit 1
    | _ => false
  flags.testBit 0 && leAt s.policy 8 2 ≤ eaxc && eaxc ≤ leAt s.policy 10 2 && !(s.ptUsed.any fun n => s.ptHas n eaxc) && vlanOk &&
    countIf (fun n => s.ptState n == ptProvisional) (List.range 64) < leAt s.policy 1 1 &&
    (List.range 64).any fun n => s.ptState n == ptEmpty

/-- Enrol a provisional entry: the lowest EMPTY one, with its notice after it is readable (R395). The MAC stands first byte most significant as
in `State.fhMac` (DESIGN CHOICE, log entry 69). -/
def State.enrol (s : State) (src : List Byte) (vids : List Nat) : State × Nat :=
  let n := ((List.range 64).find? fun n => s.ptState n == ptEmpty).getD 0
  let range := s.provRange
  let mac := beNat src
  let s := s.put (Reg.FRONTHAUL.PT_MAC_LO.word n) (mac % 2 ^ 32)
  let s := s.put (Reg.FRONTHAUL.PT_MAC_HI.bytes n) (mac / 2 ^ 32)
  let s := s.putB (Reg.FRONTHAUL.PT_MAC_HI.tagged n) (!vids.isEmpty)
  let s := s.put (Reg.FRONTHAUL.PT_MAC_HI.vid n) (vids.headD 0)
  let s := (s.put (Reg.FRONTHAUL.PT_EAXC.first n) range.1).put (Reg.FRONTHAUL.PT_EAXC.last n) range.2
  let s := (s.put (Reg.FRONTHAUL.PT_CTL.home n) (leAt s.policy 14 1)).put (Reg.FRONTHAUL.PT_CTL.alt n) (leAt s.policy 15 1)
  ((s.ptBegin n ptProvisional).notice .event, n)

/-- An accepted message renews its partner's lease and returns an EXPIRED entry to ACTIVE (R397, R398). -/
def State.ptAccept (s : State) (n : Nat) : State :=
  let at0 := s.now
  let s := s.modPartner n fun x => { x with last := at0 }
  if s.ptState n == ptExpired then
    (s.modPartner n fun x => { x with windows := [] }).put (Reg.FRONTHAUL.PT_STATUS.state n) ptActive
  else s

/-- Leases at a planning-slot boundary (R397). -/
def State.leases (s : State) : State :=
  s.forEach (List.range 64) fun n s =>
    let st := s.ptState n
    if st != ptActive && st != ptProvisional then s
    else
      let age := s.now - (s.partner n).last
      if s.lease < age then
        let mac := s.ptMac n
        let s := if st == ptProvisional then s.ptClear n
          else (s.ptDrop n).put (Reg.FRONTHAUL.PT_STATUS.state n) ptExpired
        let s := s.put (Reg.FRONTHAUL.PT_STATUS.lease_left n) 0
        s.record { kind := .event, unit := unitFronthaul, inst := n, detail := mac % 2 ^ 32 }
      else s.put (Reg.FRONTHAUL.PT_STATUS.lease_left n) (min 65535 ((s.lease - age) / ticksOfMs 1))

/-! ### eAxC (R382) -/

/-- The carrier and the RU port value of an eAxC. -/
def State.eaxcCarrier (s : State) (e : Nat) : Nat := e / 2 ^ s.get Reg.FRONTHAUL.EAXC_MAP.ru_bits % 2 ^ s.get Reg.FRONTHAUL.EAXC_MAP.cc_bits
def State.eaxcPort (s : State) (e : Nat) : Nat := e % 2 ^ s.get Reg.FRONTHAUL.EAXC_MAP.ru_bits
def State.eaxcPrach (s : State) (e : Nat) : Bool := s.get Reg.FRONTHAUL.EAXC_MAP.prach_base ≤ s.eaxcPort e

/-- The absolute slot that frame, subframe and slot numbers name on a carrier, the nearest to now (R383). -/
def State.namedSlot (s : State) (r : CarrierRec) (frame subframe slot : Nat) : Option Nat :=
  let f := s.arrayNow / (20 * planningSlot)
  let d := (frame % 256 + 256 - f % 256) % 256
  if 10 ≤ subframe || 2 ^ r.spacing ≤ slot then none
  else if d < 128 then some ((f + d) * r.slotsPerFrame + subframe * 2 ^ r.spacing + slot)
  else if 256 ≤ f + d then some ((f + d - 256) * r.slotsPerFrame + subframe * 2 ^ r.spacing + slot)
  else none

/-- The names of a symbol: frame modulo 256, subframe, slot, symbol (R383). -/
def symbolNames (r : CarrierRec) (n : Nat) : Nat × Nat × Nat × Nat :=
  let slot := n / r.symbols
  (slot / r.slotsPerFrame % 256, slot % r.slotsPerFrame / 2 ^ r.spacing, slot % 2 ^ r.spacing, n % r.symbols)

/-! ### C-plane (R383 to R387, R399, R400) -/

/-- The PRBs of a section on a carrier: numPrbc 0 means to the end. -/
def sectionPrbs (x : CSection) (width : Nat) : Nat := if x.numPrb = 0 then width - x.startPrb else x.numPrb

/-- A width the compression allows. -/
def compWidth (w : Nat) : Bool := w == 8 || w == 9 || w == 12 || w == 14

/-- Layers of a direction. -/
def CarrierRec.layers (r : CarrierRec) (dl : Bool) : Nat := if dl then r.dl else r.ul

/-- The first refusal cause of a section, 0 for none (R386). -/
def State.sectionCause (s : State) (eaxc : Nat) (x : CSection) : Nat :=
  let c := s.eaxcCarrier eaxc
  let r := s.form c
  let known := x.type == 1 || x.type == 3 || x.type == 5 || x.type == 6
  let format :=
    if x.type = 1 then x.filterIndex == 0 && x.rb == 0 && x.symInc == 0 && x.reMask == 0xFFF && x.ef == 0
    else if x.type = 3 then x.filterIndex != 0 && x.ef == 0
    else if x.type = 5 then x.ef == 0
    else x.antennas == 64
  let layerBad := if x.type = 3 then false else s.eaxcPrach eaxc || r.layers x.dl ≤ s.eaxcPort eaxc
  let comp := if x.type = 5 then true else if x.type = 6 then compWidth x.ciWidth else x.compMeth == 1 && compWidth x.width
  if !known then 1
  else if !format then 2
  else if !s.running c then 3
  else if layerBad then 4
  else if x.type != 3 && (r.width ≤ x.startPrb || r.width < x.startPrb + sectionPrbs x r.width) then 5
  else if !comp then 6
  else if x.type == 6 && r.mode != modeChannel then 7
  else 0

/-- Do two sections of one eAxC and direction cover a PRB of one symbol? -/
def CForce.overlaps (a b : CForce) : Bool :=
  a.eaxc == b.eaxc && a.dl == b.dl && a.first < b.last && b.first < a.last && a.startPrb < b.startPrb + b.numPrb &&
    b.startPrb < a.startPrb + a.numPrb

/-- A type 1 section takes effect on its symbols that are not late (R385, R387). -/
def State.section1 (s : State) (n eaxc c layer : Nat) (x : CSection) : State :=
  let r := s.form c
  match s.namedSlot r x.frame x.subframe x.slot with
  | none => s
  | some slot =>
    let first := slot * r.symbols + x.startSym
    let last := first + x.numSym
    let late := fun m => if x.dl then s.dlDeadline c m < s.arrayNow else r.boundary m < s.arrayNow + ticksOfUs 10
    let from0 := first + ((List.range x.numSym).takeWhile fun i => late (first + i)).length
    let s := if from0 = first then s else s.pcount n .cLate 1
    if last ≤ from0 then s
    else
      let f : CForce := { carrier := c, layer := layer, dl := x.dl, entry := n, eaxc := eaxc, sectionId := x.sectionId,
                          first := from0, last := last, startPrb := x.startPrb, numPrb := sectionPrbs x r.width, width := x.width,
                          beam := x.beam }
      let s := if s.fh.force.any f.overlaps then s.pcount n .cOverlap 1 else s
      { s with fh := { s.fh with force := s.fh.force ++ [f] } }

/-- The cause that refuses a type 3 request, 0 for none (R255): `start` is the occasion's beginning, `came` the instant at which the message
arrived. -/
def State.prachCause (s : State) (c start came : Nat) (x : CSection) : Nat :=
  let r := s.form c
  let fs := 2 ^ r.fft * 15000 * 2 ^ r.spacing
  let long := x.raHz == 1250 || x.raHz == 5000
  let fRa := x.fftSize * x.raHz
  let stop := start + x.cpLength * tsTicks + (x.numSym * ticksPerSecond) / max 1 x.raHz
  let near := (s.car c).occasions.filter fun o =>
    decide (o.start < stop) && decide (start < o.start + o.cp * tsTicks + o.windows * ticksPerSecond / max 1 o.spacing) &&
      !(o.start == start && o.freq == x.freq)
  let same := (s.car c).occasions.find? fun o => o.start == start && o.freq == x.freq
  if start < s.arrayAt came + ticksOfUs 10 then 1
  else if (x.fftSize != 256 && x.fftSize != 1024) || (x.fftSize == 1024) != long then 2
  else if fRa = 0 || fs % fRa != 0 || fs / fRa = 0 || (!long && x.raHz != 15000 * 2 ^ r.spacing) then 3
  else if 40 * fs < 100 * (x.freq.natAbs * x.raHz / 2 + 6 * x.numPrb * x.raHz) then 4
  else if 4 ≤ near.length then 5
  else if (same.map fun o => o.beams.length).getD 0 ≥ 16 then 6
  else 0

/-- A type 3 section that R386 accepts, of a message that arrived at `came`: an occasion, or another beam of one (R251, R255). -/
def State.section3 (s : State) (n eaxc came : Nat) (x : CSection) : State :=
  let c := s.eaxcCarrier eaxc
  let r := s.form c
  match s.namedSlot r x.frame x.subframe x.slot with
  | none => s
  | some slot =>
    let start := r.boundary (slot * r.symbols) + x.timeOffset * tsTicks
    let cause := s.prachCause c start came x
    if cause != 0 then (s.bump (Reg.CARRIER.PRACH_REFUSED.word c)).put (Reg.CARRIER.PRACH_STATUS.last_cause c) cause
    else
      let beam : OccBeam := { beam := x.beam, entry := n, eaxc := eaxc, sectionId := x.sectionId, width := x.width }
      let here := fun (o : Occasion) => o.start == start && o.freq == x.freq
      if (s.car c).occasions.any here then
        s.modCar c fun y => { y with occasions := y.occasions.map fun o => if here o then { o with beams := o.beams ++ [beam] } else o }
      else
        let o : Occasion := { start := start, cp := x.cpLength, freq := x.freq, bits := if x.fftSize = 1024 then 10 else 8,
                              spacing := x.raHz, windows := x.numSym, prbs := x.numPrb, firstPrb := x.startPrb, slot := slot, beams := [beam] }
        let s := s.modCar c fun y => { y with occasions := y.occasions ++ [o] }
        s.put (Reg.CARRIER.PRACH_STATUS.active c) (min 4 (s.car c).occasions.length)

/-- A type 5 section: the layer's source for a slot; late where the partner's message arrived so at `came` (R299, R302). -/
def State.section5 (s : State) (c layer : Nat) (came : Option Nat) (x : CSection) : State :=
  let r := s.form c
  if 1023 < x.ue then s.bump Reg.SOLVER.BAD_UE.word
  else match s.namedSlot r x.frame x.subframe x.slot with
    | none => s
    | some slot =>
      let lead := ticksOfUs (s.get (Reg.SOLVER.EPOCH_CTL.lead c)) + if r.joint then ticksOfNs (s.get Reg.STAIR.TREE.addition) else 0
      let late := match came with
        | some a => decide (r.boundary (slot * r.symbols) < a + lead)
        | none => false
      let s := if late then (s.bump Reg.SOLVER.LATE_MAP.word).put Reg.SOLVER.STATUS.late_map 1 else s
      let e : MapEntry := { slot := slot, dl := x.dl, layer := layer, ue := x.ue, first := x.startPrb,
                            count := sectionPrbs x r.width }
      { s with beam := { s.beam with mapsDue := s.beam.mapsDue ++ [(c, e)] } }

/-- The feed tags of the paths as they stand: true for CROSS (R283). -/
def State.feedTags (s : State) : List Bool := (List.range 64).map fun p => s.crossfed (bankOf p)

/-- A type 6 section: the latest channel information of a source (R296, R384). -/
def State.section6 (s : State) (eaxc : Nat) (x : CSection) : State :=
  let c := s.eaxcCarrier eaxc
  if 1023 < x.ue then s.bump Reg.SOLVER.BAD_UE.word
  else
    let new := ((List.range x.values.length).zip x.values).map fun e => (x.startPrb + e.1, ((e.2.1 % 16 : Nat) : Int), e.2.2)
    let old := match assoc? s.beam.chans x.ue with
      | some i => if i.carrier = c then i.prbs.filter fun q => !(new.any fun m => m.1 == q.1) else []
      | none => []
    let info : ChanInfo := { carrier := c, prbs := old ++ new, tags := s.feedTags }
    { s with beam := { s.beam with chans := assocSet s.beam.chans x.ue info } }

/-- The entry and eAxC under which sections of a SECTIONS record stand: no partner of this landing (R302). -/
def remoteEntry : Nat := 64

/-- A type 1 or type 5 section of an array-joint carrier that came down the tree (R302, R443). -/
def State.remoteSection (s : State) (c layer : Nat) (x : CSection) : State :=
  if x.type = 1 then s.section1 remoteEntry (65536 + 64 * c + layer) c layer x
  else if x.type = 5 then s.section5 c layer none x
  else s

/-- A section of a message that arrived at `came` leaves its window (R385, R386). A type 1 or type 5 section of an array-joint carrier at its
ingress landing goes on to every landing (R302, R443); elsewhere its landing alone uses it. -/
def State.applySection (s : State) (n eaxc came : Nat) (x : CSection) : State :=
  let c := s.eaxcCarrier eaxc
  let layer := s.eaxcPort eaxc
  let cause := s.sectionCause eaxc x
  if cause != 0 then (s.pcount n .cRefused 1).put (Reg.FRONTHAUL.PT_STATUS.last_cause n) cause
  else if x.type = 3 then s.section3 n eaxc came x
  else if x.type = 6 then s.section6 eaxc x
  else
    let s := if x.type = 1 then s.section1 n eaxc c layer x else s.section5 c layer (some came) x
    if (s.form c).joint && s.isIngress c then (s.spread (.sections c [(layer, x)]) false).1 else s

/-- A message leaves its window. -/
def State.applySections (s : State) (n eaxc came : Nat) (l : List CSection) : State := s.forEach l fun x s => s.applySection n eaxc came x

/-- A window, and its replacement. -/
def State.window (s : State) (n eaxc : Nat) : Window :=
  ((s.partner n).windows.find? fun w => w.eaxc == eaxc).getD { eaxc := eaxc, expected := none, held := [] }
def State.setWindow (s : State) (n : Nat) (w : Window) : State :=
  s.modPartner n fun x => { x with windows := (x.windows.filter fun y => y.eaxc != w.eaxc) ++ [w] }

/-- Held messages that are now in order follow (R399); `k` bounds how many. -/
def State.drainWindow (s : State) (n eaxc : Nat) : Nat → State
  | 0 => s
  | k + 1 =>
    let w := s.window n eaxc
    match w.held.find? fun h => w.expected == some h.seq with
    | some h =>
      let s := s.setWindow n { w with expected := some ((h.seq + 1) % 256), held := w.held.filter fun y => y.seq != h.seq }
      (s.applySections n eaxc h.at_ h.sections).drainWindow n eaxc k
    | none => s

/-- Skip the missing IDs up to one, applying the held messages on the way in order (R399, R400); `k` bounds the IDs. -/
def State.skipTo (s : State) (n eaxc seq : Nat) : Nat → State
  | 0 => s
  | k + 1 =>
    let w := s.window n eaxc
    let e := w.expected.getD seq
    if e = seq then s
    else
      match w.held.find? fun h => h.seq == e with
      | some h =>
        let s := s.setWindow n { w with expected := some ((e + 1) % 256), held := w.held.filter fun y => y.seq != e }
        (s.applySections n eaxc h.at_ h.sections).skipTo n eaxc seq k
      | none => ((s.setWindow n { w with expected := some ((e + 1) % 256) }).pcount n .cGap 1).skipTo n eaxc seq k

/-- A C-plane message in its reordering window (R399). -/
def State.cplane (s : State) (n eaxc seq : Nat) (sections : List CSection) : State :=
  if s.ptState n == ptEmpty || !s.ptHas n eaxc then s
  else
    let s := s.ptAccept n
    let seq := seq % 256
    let w := s.window n eaxc
    let d := (seq + 256 - (w.expected.getD seq)) % 256
    if d = 0 then
      let s := s.setWindow n { w with expected := some ((seq + 1) % 256) }
      (s.applySections n eaxc s.now sections).drainWindow n eaxc 32
    else if d < 32 then
      if w.held.any fun h => h.seq == seq then s.pcount n .cDup 1
      else s.setWindow n { w with held := w.held ++ [{ seq := seq, at_ := s.now, sections := sections }] }
    else if d < 128 then
      let s := s.skipTo n eaxc seq 256
      let s := s.setWindow n { s.window n eaxc with expected := some ((seq + 1) % 256) }
      (s.applySections n eaxc s.now sections).drainWindow n eaxc 32
    else s.pcount n .cDup 1

/-- CPLANE_MESSAGE (R399). -/
def execCplaneMessage (t : Nat) (n : Fin 64) (eaxc seq : Nat) (sections : List CSection) (s : State) : Host.Outcome State Fault Refusal :=
  finish ((s.atTime t).cplane n.val eaxc seq sections)

/-- The gap of a window is skipped 100 µs after the earliest held message arrived (R400). -/
def State.gapSkip (s : State) (n eaxc : Nat) : State :=
  let w := s.window n eaxc
  match w.held with
  | [] => s
  | h :: rest =>
    let first := (rest.map fun x => x.at_).foldl min h.at_
    if s.now < first + ticksOfUs 100 then s
    else
      let e := w.expected.getD 0
      let next := ((List.range 32).map fun i => (e + i) % 256).find? fun q => w.held.any fun x => x.seq == q
      match next with
      | some q => (s.skipTo n eaxc q 256).drainWindow n eaxc 32
      | none => s

/-- GAP_SKIP (R400). -/
def execGapSkip (t : Nat) (n : Fin 64) (eaxc : Nat) (s : State) : Host.Outcome State Fault Refusal :=
  finish ((s.atTime t).gapSkip n.val eaxc)

/-! ### Frames (R378 to R381, R395, R414, R415) -/

/-- The destinations that the IEEE 1588 plane listens to (R378). -/
def State.ptpDst (s : State) : Nat := if s.flag Reg.FRONTHAUL.PTP_CTL.addr then 0x0180C200000E else 0x011B19000000

/-- The IPv6 address, its registers little-endian (R16), and its solicited-node multicast MAC (R378); all 0 disables IPv6. -/
def State.ip6 (s : State) : List Byte := ((List.range 4).map fun k => leBytes 4 (s.get (Reg.FRONTHAUL.IP6_ADDR.word k))).flatten
def State.ip6On (s : State) : Bool := !allZero s.ip6
def State.solicitedMac (s : State) : Nat := 0x3333FF000000 + beNat (s.ip6.drop 13)

/-- Is a frame's EtherType and destination one that the port accepts (R378)? -/
def State.formOk (s : State) (n : Nat) (f : Frame) : Bool :=
  let own := s.fhMac + n
  let d := beNat f.dst
  let typeOk :=
    if f.etherType = 0xAEFE then d == own
    else if f.etherType = 0x88F7 then d == s.ptpDst
    else if f.etherType = 0x0800 then d == own
    else if f.etherType = 0x0806 then d == 0xFFFFFFFFFFFF || d == own
    else if f.etherType = 0x86DD then d == own || (s.ip6On && d == s.solicitedMac)
    else false
  let rev := match f.body with
    | .ecpri r _ => r == 1
    | _ => true
  f.vids.length ≤ 1 && typeOk && rev

/-- Does a frame's source and VLAN match an entry? -/
def State.srcMatches (s : State) (n : Nat) (f : Frame) : Bool := s.ptMac n == beNat f.src && s.ptVlan n == f.vids.head?

/-- One eCPRI message of a frame; `dropped` says whether the frame has been counted at the port (R379 to R381, R395). -/
def State.ecpriMsg (s : State) (port : Nat) (f : Frame) (dropped : Bool) (m : EcpriMsg) : State × Bool :=
  let mine := s.ptUsed.find? fun n => s.srcMatches n f && (m.type == 5 || s.ptHas n m.eaxc)
  let src := s.ptUsed.find? fun n => s.srcMatches n f
  let formOk := (m.type == 0 || m.type == 2) && m.ebit && m.sub == 0 || m.type == 5
  match mine with
  | some n => if formOk then (s.ptAccept n, dropped) else (s.pcount n .form 1, dropped)
  | none =>
    if m.type != 0 && m.type != 2 then
      match src with
      | some n => (s.pcount n .form 1, dropped)
      | none => if dropped then (s, true) else (s.bump (Reg.FRONTHAUL.PORT_DROP_PARTNER.word port), true)
    else if s.mayEnrol f.vids m.eaxc then
      let e := s.enrol f.src f.vids
      if formOk then (e.1.ptAccept e.2, dropped) else (e.1.pcount e.2 .form 1, dropped)
    else if dropped then (s, true)
    else if src.isSome && (s.ptUsed.any fun n => s.ptHas n m.eaxc) then (s.bump (Reg.FRONTHAUL.PORT_DROP_OWNER.word port), true)
    else (s.bump (Reg.FRONTHAUL.PORT_DROP_PARTNER.word port), true)

/-- The SXM plane of a frame: datagrams that R415 drops are counted, at most 4,096 a second pass (R414, R415). -/
def State.sxmDatagram (s : State) (odd : Bool) (len : Nat) : State :=
  let sec := s.now / ticksPerSecond
  let s := if s.fh.sxmSecond = sec then s else { s with fh := { s.fh with sxmSecond := sec, sxmCount := 0 } }
  if odd || 1472 < len || 4096 ≤ s.fh.sxmCount then s.bump Reg.FRONTHAUL.SXM_DROP.word
  else { s with fh := { s.fh with sxmCount := s.fh.sxmCount + 1 } }

/-- The VLAN of the SXM plane. -/
def State.sxmVlan (s : State) : Option Nat :=
  if s.flag Reg.FRONTHAUL.SXM_VLAN.tagged then some (s.get Reg.FRONTHAUL.SXM_VLAN.vid) else none

/-- A frame on a port that is UP (R378, R379). -/
def State.frame (s : State) (n : Nat) (f : Frame) : State :=
  if !s.fhUpOn n then s
  else
  let s := s.idleWake 0
  if !f.fcsOk || f.length < 64 || s.get Reg.FRONTHAUL.MODE.mtu < f.length then s.bump (Reg.FRONTHAUL.PORT_DROP_FCS.word n)
  else if !s.formOk n f then s.bump (Reg.FRONTHAUL.PORT_DROP_FORM.word n)
  else match f.body with
    | .ecpri _ msgs => (msgs.foldl (fun (x : State × Bool) m => x.1.ecpriMsg n f x.2 m) (s, false)).1
    | .ip _ odd udp len =>
      let toSxm := udp.isNone || udp == some (s.get Reg.FRONTHAUL.SXM_CTL.udp)
      if (s.get Reg.FRONTHAUL.SXM_CTL.port_mask).testBit n && s.sxmVlan == f.vids.head? && toSxm && (udp.isSome || odd) then
        s.sxmDatagram odd len
      else s
    | .other => s

/-- FRAME_RECEIVE (R379): the checks of the frame, its drop counters, enrolment and leases; the effect of a message or datagram that it
carries is that message's own command. -/
def execFrameReceive (t : Nat) (n : Fin 8) (f : Frame) (s : State) : Host.Outcome State Fault Refusal :=
  finish ((s.atTime t).frame n.val f)

/-! ### U-plane (R388, R389) -/

/-- The type 1 section in force that governs a PRB of a symbol (R387). -/
def State.governs (s : State) (eaxc : Nat) (dl : Bool) (m q : Nat) : Option CForce :=
  (s.fh.force.filter fun f => f.eaxc == eaxc && f.dl == dl && decide (f.first ≤ m) && decide (m < f.last) &&
    decide (f.startPrb ≤ q) && decide (q < f.startPrb + f.numPrb)).getLast?

/-- A section is late for a symbol: counted once for both (R388). -/
def State.countLate (s : State) (m : Nat) (f : CForce) : State :=
  let key := (m, f.entry, f.eaxc, f.sectionId)
  if s.fh.lateOf.contains key then s else ({ s with fh := { s.fh with lateOf := s.fh.lateOf ++ [key] } } : State).pcount f.entry .uLate 1

/-- The data of downlink sections that has not arrived by the deadline of symbol `m` of a carrier is late (R388). -/
def State.lateSections (s : State) (c m : Nat) : State :=
  let have_ := fun (l q : Nat) => s.fh.data.any fun d => d.carrier == c && d.symbol == m && d.layer == l && d.prb == q
  let open_ := s.fh.force.filter fun f => f.carrier == c && f.dl && decide (f.first ≤ m) && decide (m < f.last) &&
    (List.range f.numPrb).any fun i => s.governs f.eaxc true m (f.startPrb + i) == some f && !have_ f.layer (f.startPrb + i)
  s.forEach open_ fun f s => s.countLate m f

/-- A downlink U-plane section (R388, R389). The layer data of an array-joint carrier enters at its ingress landing alone (R34); elsewhere it
has no section that takes it (DESIGN CHOICE, log entry 70). -/
def State.uplane (s : State) (n eaxc : Nat) (u : USection) : State :=
  if s.ptState n == ptEmpty || !s.ptHas n eaxc then s
  else
    let s := s.ptAccept n
    let c := s.eaxcCarrier eaxc
    let r := s.form c
    let layer := s.eaxcPort eaxc
    match s.namedSlot r u.frame u.subframe u.slot with
    | none => s.pcount n .uNoCplane 1
    | some slot =>
      let m := slot * r.symbols + u.sym
      let prbs := (List.range u.prbs.length).map fun i => u.startPrb + i
      let cover := s.governs eaxc true m
      if !s.carActive c || (r.joint && !s.isIngress c) || prbs.any fun q => (cover q).isNone then s.pcount n .uNoCplane 1
      else if u.compMeth != 1 || prbs.any fun q => (cover q).any fun f => f.width != u.width then s.pcount n .uComp 1
      else if s.fh.data.any fun d => d.carrier == c && d.symbol == m && d.layer == layer && prbs.contains d.prb then s.pcount n .uDup 1
      else if s.dlDeadline c m < s.arrayNow then s.forEach ((prbs.filterMap cover).eraseDups) fun f s => s.countLate m f
      else
        let new := (prbs.zip u.prbs).map fun e =>
          let vals := e.2.2
          let ex : Int := ((e.2.1 % 16 : Nat) : Int)
          let y := if r.joint then normSums 12 (vals.map fun v => [(v, ex)]) else (vals, ex)
          ({ carrier := c, symbol := m, layer := layer, prb := e.1, exp := y.2, vals := y.1 } : PrbData)
        if r.joint then s.sendLayer c m layer new else s.storeData c m new

/-! ### Egress (R391 to R393, R401 to R407) -/

/-- Bytes of a frame and its one section before the PRBs (DESIGN CHOICE, log entry 82), and of a PRB of width `w`. -/
def frameOverhead : Nat := 40
def prbBytes (w : Nat) : Nat := 1 + 3 * w

/-- Bytes of an uplink frame. -/
def UFrame.bytes (f : UFrame) : Nat := frameOverhead + sumNat (f.sections.map fun x => x.prbs.length * prbBytes x.width)

/-- Compress the 24 components of one PRB to width `w` (R390). -/
def compressPrb (w : Nat) (u : List Cplx) : Nat × List Cplx :=
  let l := maxNat (u.map cplxLen)
  let ex := l - (w - 1)
  (ex, u.map (Cplx.shr ex))

/-- A section cut into parts that fit in a frame (R391); `k` bounds the parts. -/
def splitSection (perFrame : Nat) : Nat → USend → List USend
  | 0, _ => []
  | k + 1, x =>
    if x.prbs.isEmpty then []
    else { x with prbs := x.prbs.take perFrame } ::
      splitSection perFrame k { x with startPrb := x.startPrb + perFrame, prbs := x.prbs.drop perFrame }

/-- The frames of one section (R391): one frame for each part. -/
def State.framesOf (s : State) (entry eaxc : Nat) (names : Nat × Nat × Nat × Nat) (x : USend) : List UFrame :=
  let per := max 1 ((s.get Reg.FRONTHAUL.MODE.mtu - frameOverhead) / prbBytes x.width)
  (splitSection per 512 x).map fun part =>
    { entry := entry, eaxc := eaxc, frame := names.1, subframe := names.2.1, slot := names.2.2.1, sym := names.2.2.2, sections := [part] }

/-- Ticks that a frame takes on a port. -/
def State.frameTicks (s : State) (port bytes : Nat) : Nat := ticksOfNs (bytes * 8 * 1000 / max 1 (s.fhRate port))

/-- The frames of a port whose transmission began before `edge` leave; the journal keeps those of the last 50 µs (R402, R405). -/
def State.sendBefore (s : State) (n edge : Nat) : State :=
  let gone := (s.fhPort n).queue.takeWhile fun f => f.start < edge
  let busy := match gone.getLast? with
    | some f => f.start + s.frameTicks n f.frame.bytes
    | none => (s.fhPort n).busy
  let s := s.forEach gone fun f s =>
    let s := if f.again then s.pcount f.frame.entry .dhResent 1 else s
    s.emit (.uplane n f.seq f.frame)
  let at0 := s.now
  s.modFhPort n fun y => { y with queue := y.queue.drop gone.length, busy := busy,
                                  journal := (y.journal ++ gone).filter fun f => at0 ≤ f.start + ticksOfUs 50 }

/-- The frames of a port whose transmission has begun leave. -/
def State.drainPort (s : State) (n : Nat) : State := s.sendBefore n (s.now + 1)

/-- Does a frame go before another on a port: the earlier release time, among equal ones the lower eAxC (R393)? -/
def SentFrame.before (a b : SentFrame) : Bool :=
  decide (a.release < b.release) || (a.release == b.release && decide (a.frame.eaxc < b.frame.eaxc))

/-- Put a frame into a port's sending order. -/
def insertFrame (f : SentFrame) : List SentFrame → List SentFrame
  | [] => [f]
  | x :: xs => if f.before x then f :: x :: xs else x :: insertFrame f xs

/-- Frames that wait go one behind the other from an instant on, each for the ticks that it takes. -/
def sendTimes (ticks : UFrame → Nat) : Nat → List SentFrame → List SentFrame
  | _, [] => []
  | at_, f :: l => { f with start := at_ } :: sendTimes ticks (at_ + ticks f.frame) l

/-- Put a frame among those that wait at a port (R393, R405). -/
def State.queueFrame (s : State) (n release seq : Nat) (again : Bool) (f : UFrame) : State :=
  let s := s.sendBefore n s.now
  let at0 := s.now
  let ticks := fun (f : UFrame) => s.frameTicks n f.bytes
  s.modFhPort n fun x =>
    { x with queue := sendTimes ticks (max at0 x.busy)
               (insertFrame { frame := f, seq := seq, release := release, start := at0, again := again } x.queue) }

/-- A frame passes its release gate, whose time was `release` on the array's ruler: its sequence ID, its carrying port, or its discard where
the partner is unreachable (R392, R401, R406). -/
def State.releaseFrame (s : State) (release : Nat) (f : UFrame) : State :=
  let seq := (assoc? s.fh.ulSeq f.eaxc).getD 0
  let s := { s with fh := { s.fh with ulSeq := assocSet s.fh.ulSeq f.eaxc ((seq + 1) % 256) } }
  let port := s.get (Reg.FRONTHAUL.PT_STATUS.port f.entry)
  if s.ptState f.entry == ptEmpty || s.flag (Reg.FRONTHAUL.PT_STATUS.unreachable f.entry) || !s.fhUpOn port then
    s.pcount f.entry .ulDiscard 1
  else s.queueFrame port (s.now - (s.arrayNow - release)) seq false f

/-- Every port sends what is due. -/
def State.drainPorts (s : State) : State := s.forEach (List.range 8) fun n s => s.drainPort n

/-- Frames still unsent 50 µs after their release are discarded (R405). -/
def State.staleDiscard (s : State) (n : Nat) : State :=
  let s := s.drainPort n
  let stale := (s.fhPort n).queue.filter fun f => decide (f.release + ticksOfUs 50 ≤ s.now)
  let s := s.forEach stale fun f s => s.pcount f.frame.entry .ulStale 1
  let edge := s.now
  s.modFhPort n fun x => { x with queue := x.queue.filter fun f => decide (edge < f.release + ticksOfUs 50) }

/-- UL_STALE_DISCARD (R405). -/
def execUlStaleDiscard (t : Nat) (n : Fin 8) (s : State) : Host.Outcome State Fault Refusal := finish ((s.atTime t).staleDiscard n.val)

/-- The flows of an entry leave a failed port: to the alternate with the journalled frames from the cut point on, or the partner is
unreachable and its frames that wait are discarded (R403, R404, R406). -/
def State.failoverEntry (s : State) (n port cut : Nat) (lost : List SentFrame) : State :=
  let home := s.get (Reg.FRONTHAUL.PT_CTL.home n)
  let alt := s.get (Reg.FRONTHAUL.PT_CTL.alt n)
  let other := if port = home then alt else home
  let mine := lost.filter fun f => f.frame.entry == n
  if s.fhUpOn other && other != port then
    let s := s.put (Reg.FRONTHAUL.PT_STATUS.port n) other
    s.forEach mine fun f s => s.queueFrame other f.release f.seq (decide (f.start ≤ s.now) && decide (cut ≤ f.start)) f.frame
  else (s.put (Reg.FRONTHAUL.PT_STATUS.unreachable n) 1).pcount n .ulDiscard (countIf (fun f => decide (s.now < f.start)) mine)

/-- The flows that a port carried move (R403). -/
def State.failover (s : State) (port : Nat) : State :=
  let cut := s.now - ticksOfUs (s.get Reg.FRONTHAUL.DH_CTL.margin)
  let x := s.fhPort port
  let lost := (x.journal.filter fun f => decide (cut ≤ f.start)) ++ x.queue
  let s := s.modFhPort port fun y => { y with queue := [], journal := [], busy := 0 }
  s.forEach (s.ptUsed.filter fun n => s.get (Reg.FRONTHAUL.PT_STATUS.port n) == port) fun n s => s.failoverEntry n port cut lost

/-- A link fault on a port in UP (R375, R376). -/
def State.linkFault (s : State) (n cause : Nat) : State :=
  if !s.fhUpOn n then s
  else
    let s := s.drainPort n
    let s := (s.put (Reg.FRONTHAUL.PORT_STATUS.fault_cause n) cause).bump (Reg.FRONTHAUL.PORT_STATUS.link_faults n)
    let s := s.fhEnter n (if cause = 6 then s.fhHome n else fhListen)
    let s := s.modFhPort n fun x => { x with noticed := false }
    let s := s.failover n
    if cause = 6 then s
    else s.record { kind := .fault, cls := 0x0A, unit := unitFronthaul, inst := n, cause := cause, action := 7 }

/-- LINK_FAULT (R375). -/
def execLinkFault (t : Nat) (n : Fin 8) (cause : Fin 7) (s : State) : Host.Outcome State Fault Refusal :=
  finish (if cause.val = 0 then s.atTime t else (s.atTime t).linkFault n.val cause.val)

/-- A port reaches UP: flows of its home partners that no port carries return to service on it (R402, R406). -/
def State.fhPortUp (s : State) (n : Nat) : State :=
  let s := (s.fhEnter n fhUp).modFhPort n fun x => { x with noticed := false, queue := [], journal := [], busy := 0 }
  s.forEach (s.ptUsed.filter fun e => s.flag (Reg.FRONTHAUL.PT_STATUS.unreachable e)) fun e s =>
    if s.get (Reg.FRONTHAUL.PT_CTL.home e) == n || s.get (Reg.FRONTHAUL.PT_CTL.alt e) == n then
      (s.put (Reg.FRONTHAUL.PT_STATUS.port e) n).put (Reg.FRONTHAUL.PT_STATUS.unreachable e) 0
    else s

/-- PORT_SIGNAL_DETECT (R373): no attempt begins within 100 ms of the last timeout (R374), or while FHL is not locked (R621). -/
def execPortSignalDetect (t : Nat) (n : Fin 8) (s : State) : Host.Outcome State Fault Refusal :=
  let s := s.atTime t
  let clock := (s.get Reg.CLOCK.ISLAND_STATUS.locked).testBit 4
  finish (if clock && s.fhPortState n.val == fhListen && (s.fhPort n.val).retryAt ≤ s.now then s.fhEnter n.val fhTrain else s)

/-- Training has completed on the lanes of a port (R373). -/
def State.trainDone (s : State) (n : Nat) (foms : List Nat) : State :=
  let lanes := s.fhLanes n
  if s.fhPortState n != fhTrain then s
  else
    let s := s.forEach (lanes.zip foms) fun e s => (s.put (Reg.FRONTHAUL.LANE_RX.fom e.1) e.2).put (Reg.FRONTHAUL.LANE_RX.fom_committed e.1) e.2
    if foms.length == lanes.length && foms.all fun f => decide (s.get (Reg.FRONTHAUL.PORT_CTL.fom_min n) ≤ f) then s.fhEnter n fhAlign else s

/-- PORT_TRAIN_DONE (R373). -/
def execPortTrainDone (t : Nat) (n : Fin 8) (foms : List Nat) (s : State) : Host.Outcome State Fault Refusal :=
  finish ((s.atTime t).trainDone n.val foms)

/-- PORT_ALIGN_DONE (R373). -/
def execPortAlignDone (t : Nat) (n : Fin 8) (s : State) : Host.Outcome State Fault Refusal :=
  let s := s.atTime t
  finish (if s.fhPortState n.val == fhAlign then s.fhPortUp n.val else s)

/-- A bring-up phase times out after 10 ms (R374). -/
def State.trainTimeout (s : State) (n : Nat) : State :=
  let st := s.fhPortState n
  if (st == fhTrain || st == fhAlign) && (s.fhPort n).since + ticksOfMs 10 ≤ s.now then
    let s := s.bump (Reg.FRONTHAUL.PORT_STATUS.train_fail n)
    let again := s.now + ticksOfMs 100
    let first := !(s.fhPort n).noticed
    let s := (s.fhEnter n fhListen).modFhPort n fun x => { x with retryAt := again, noticed := true }
    if first then s.notice .topology else s
  else s

/-- PORT_TRAIN_TIMEOUT (R374). -/
def execPortTrainTimeout (t : Nat) (n : Fin 8) (s : State) : Host.Outcome State Fault Refusal := finish ((s.atTime t).trainTimeout n.val)

/-- PORT_RETRY (R374): 100 ms after the last timeout a port in LISTEN may begin a new attempt. -/
def execPortRetry (t : Nat) (n : Fin 8) (s : State) : Host.Outcome State Fault Refusal :=
  let s := s.atTime t
  finish (if s.fhPortState n.val == fhListen && (s.fhPort n.val).retryAt ≤ s.now then s.modFhPort n.val fun x => { x with retryAt := 0 } else s)

/-- A flow returns home (R407). -/
def State.returnHome (s : State) (n : Nat) : State :=
  let home := s.get (Reg.FRONTHAUL.PT_CTL.home n)
  let port := s.get (Reg.FRONTHAUL.PT_STATUS.port n)
  let steady := s.fhUpOn home && (s.fhPort home).since + ticksOfMs (10 * s.get Reg.FRONTHAUL.DH_CTL.hold) ≤ s.now
  let queued := (s.fhPort port).queue.any fun f => f.frame.entry == n
  let due := s.gates.any fun g => decide (g.release ≤ s.arrayNow + ticksOfUs 10) &&
    ((g.frames.any fun f => f.entry == n) || (decide (g.kind = .up) && g.force.any fun f => f.entry == n))
  if s.ptState n != ptEmpty && port != home && steady && !queued && !due then s.put (Reg.FRONTHAUL.PT_STATUS.port n) home else s

/-- FLOW_RETURN_HOME (R407). -/
def execFlowReturnHome (t : Nat) (n : Fin 64) (s : State) : Host.Outcome State Fault Refusal :=
  let s := s.atTime t
  finish ((s.drainPort (s.get (Reg.FRONTHAUL.PT_STATUS.port n.val))).returnHome n.val)

/-- A change of the port layout takes effect at a planning-slot boundary: every port leaves UP with cause HOST and restarts (R372). -/
def State.fhLayout (s : State) : State :=
  let want := s.get Reg.FRONTHAUL.MODE.ports
  if want = s.fh.layout then s
  else
    let s := s.forEach (List.range 8) fun n s => s.linkFault n 6
    let s := { s with fh := { s.fh with layout := want } }
    s.forEach (List.range 8) fun n s => s.fhEnter n (s.fhHome n)

/-- A write of a port's control acts on its state at once (R375, R376). -/
def State.fhControl (s : State) (n : Nat) : State :=
  let home := s.fhHome n
  let st := s.fhPortState n
  if home == fhListen && (st == fhListen || st == fhTrain || st == fhAlign || st == fhUp) then s
  else if st == home then s
  else if st == fhUp then s.linkFault n 6
  else (s.fhEnter n home).modFhPort n fun x => { x with noticed := false, retryAt := 0 }

/-- PT_CONFIRM (R396). -/
def execPtConfirm (t : Nat) (ch : Channel) (n : Fin 64) (s : State) : Host.Outcome State Fault Refusal :=
  finish (s.hostCmd t ch.val (Reg.FRONTHAUL.PT_CTL.word n.val).addr fun s =>
    if s.ptState n.val == ptProvisional then (s.put (Reg.FRONTHAUL.PT_CTL.valid n.val) 1).put (Reg.FRONTHAUL.PT_STATUS.state n.val) ptActive
    else s)

/-! ### Answers (R413, R414) and lane tests (R417, R418) -/

/-- A delay-measurement message is answered (R413): a Request with a Response, a Request with Follow_Up, whose receive timestamp waits, once
the Follow_Up of its measurement ID has come, a Remote Request with a Request of its own. -/
def State.delayAnswer (s : State) (n action id : Nat) (stamp : Int) : State :=
  let others := s.fh.asked.filter fun a => !(a.1 == n && a.2.1 == id)
  if !s.fhUpOn n then s
  else if action = 0 then s.emit (.delay n 2 id stamp (Config.compensation n))
  else if action = 1 then { s with fh := { s.fh with asked := others ++ [(n, id, stamp)] } }
  else if action = 5 then
    match s.fh.asked.find? fun a => a.1 == n && a.2.1 == id with
    | some a =>
      ({ s with fh := { s.fh with asked := others } } : State).emit (.delay n 2 id a.2.2 (Config.compensation n))
    | none => s
  else if action = 3 then s.emit (.delay n 0 id stamp (Config.compensation n))
  else if action = 4 then s.emit (.delay n 1 id stamp (Config.compensation n))
  else s

/-- DELAY_MEASUREMENT (R413). -/
def execDelayMeasurement (t : Nat) (n : Fin 8) (action id : Nat) (stamp : Int) (s : State) : Host.Outcome State Fault Refusal :=
  finish ((s.atTime t).delayAnswer n.val action id stamp)

/-- Is an IPv4 address the part's own, an IPv6 address? IP4_ADDR holds the first byte as the most significant (DESIGN CHOICE, log entry 69). -/
def State.ownIp4 (s : State) (a : List Byte) : Bool := s.get Reg.FRONTHAUL.IP4_ADDR.word != 0 && beNat a == s.get Reg.FRONTHAUL.IP4_ADDR.word
def State.ownIp6 (s : State) (a : List Byte) : Bool := s.ip6On && a == s.ip6

/-- ARP_REQUEST (R414). -/
def execArpRequest (t : Nat) (n : Fin 8) (mac ip target : List Byte) (s : State) : Host.Outcome State Fault Refusal :=
  let s := s.atTime t
  finish (if s.fhUpOn n.val && s.ownIp4 target then s.emit (.arpReply n.val mac ip target) else s)

/-- NEIGHBOUR_SOLICITATION (R414). -/
def execNeighbourSolicitation (t : Nat) (n : Fin 8) (mac ip target : List Byte) (s : State) : Host.Outcome State Fault Refusal :=
  let s := s.atTime t
  finish (if s.fhUpOn n.val && s.ownIp6 target then s.emit (.advertise n.val mac ip target) else s)

/-- ECHO_REQUEST (R414). -/
def execEchoRequest (t : Nat) (n : Fin 8) (src dst : List Byte) (id seq : Nat) (data : List Byte) (s : State) :
    Host.Outcome State Fault Refusal :=
  let s := s.atTime t
  finish (if s.fhUpOn n.val && (s.ownIp4 dst || s.ownIp6 dst) then s.emit (.echoReply n.val dst src id seq data) else s)

/-- The 1 ms commit of a lane's receive coefficients (R417): a frozen lane shows its figure, but commits and restores no set (DESIGN CHOICE,
log entry 83). -/
def State.fhAdapt (s : State) (lane fom : Nat) : State :=
  let st := s.fhPortState (s.fhPortOf lane)
  if st != fhTrain && st != fhUp then s
  else
    let old := s.get (Reg.FRONTHAUL.LANE_RX.fom_committed lane)
    let fom := min 255 fom
    let s := s.put (Reg.FRONTHAUL.LANE_RX.fom lane) fom
    if s.flag (Reg.FRONTHAUL.LANE_RX.freeze lane) then s
    else if old ≤ fom + 4 then s.put (Reg.FRONTHAUL.LANE_RX.fom_committed lane) fom
    else if fom + 12 < old then
      let at0 := s.now
      ({ s with fh := { s.fh with laneBack := s.fh.laneBack.set lane at0 } } : State).bump (Reg.FRONTHAUL.LANE_RX.rollback lane)
    else s

/-- FH_ADAPT_COMMIT (R417). -/
def execFhAdaptCommit (t : Nat) (lane : Fin 8) (fom : Nat) (s : State) : Host.Outcome State Fault Refusal :=
  finish ((s.atTime t).fhAdapt lane.val fom)

/-- Is the lane's port in TEST (R418)? -/
def State.laneInTest (s : State) (lane : Nat) : Bool := s.fhPortState (s.fhPortOf lane) == fhTest

/-- What the transmitter of a lane in TEST drives: in far-end loopback the receive data (R419). -/
def State.laneDrives (s : State) (lane : Nat) : LaneData :=
  if s.get (Reg.FRONTHAUL.LANE_TEST.loopback lane) = 3 then .link else .output

/-- What the receiver of a lane in TEST hears: its own transmit output at the pads in near-end serial loopback, its transmit data before the
serialiser in near-end parallel, else the link (R419). -/
def State.laneHears (s : State) (lane : Nat) : LaneData :=
  match s.get (Reg.FRONTHAUL.LANE_TEST.loopback lane) with
  | 1 => .output
  | 2 => .parallel
  | _ => .link

/-- One bit error is injected into a lane's transmit data. -/
def State.injectError (s : State) (lane : Nat) : State :=
  ({ s with fh := { s.fh with injected := s.fh.injected.modify lane fun k => k + 1 } } : State).emit (.injectOne lane)

/-- Errors that a lane's checker finds in `bits` bits: from the link or the pads those that arrived; in near-end parallel loopback those
that the lane itself injects (R418, R419; DEDUCED, log entry 79). -/
def State.checkedErrors (s : State) (lane bits errors : Nat) : Nat :=
  let rate := s.get (Reg.FRONTHAUL.LANE_TEST.inj_rate lane)
  if s.laneHears lane = .parallel then s.fh.injected.getD lane 0 + (if rate = 0 then 0 else bits / 2 ^ rate) else errors

/-- Can a lane's checker lock: it hears a pattern from the link, or its own (R418, R419)? -/
def State.hearsPattern (s : State) (lane : Nat) : Bool :=
  s.laneHears lane == .link || s.get (Reg.FRONTHAUL.LANE_TEST.pattern lane) != 0

/-- INJ_ONE (R418): one bit error in TEST; elsewhere the write is discarded. -/
def execInjOne (t : Nat) (ch : Channel) (lane : Fin 8) (s : State) : Host.Outcome State Fault Refusal :=
  finish (s.hostCmd t ch.val (Reg.FRONTHAUL.LANE_TEST.word lane.val).addr fun s =>
    if s.laneInTest lane.val then s.injectError lane.val else s.put (Reg.FRONTHAUL.LANE_TEST.refused lane.val) 1)

/-- Add to a 64-bit counter held in two registers, low half first. -/
def State.add64 (s : State) (lo hi : Fld) (n : Nat) : State :=
  let v := s.get hi * 2 ^ 32 + s.get lo + n
  (s.put lo (v % 2 ^ 32)).put hi (v / 2 ^ 32)

/-- CHECKER_LOCK (R418): the checker locks, and counts bits and errors from lock. -/
def execCheckerLock (t : Nat) (lane : Fin 8) (bits errors : Nat) (s : State) : Host.Outcome State Fault Refusal :=
  let s := s.atTime t
  let errors := s.checkedErrors lane.val bits errors
  finish (if s.laneInTest lane.val && s.flag (Reg.FRONTHAUL.LANE_TEST.chk_en lane.val) && s.hearsPattern lane.val then
      let s : State := { s with fh := { s.fh with injected := s.fh.injected.set lane.val 0 } }
      let s := s.put (Reg.FRONTHAUL.LANE_TEST.chk_lock lane.val) 1
      let s := s.add64 (Reg.FRONTHAUL.LANE_BITS_LO.word lane.val) (Reg.FRONTHAUL.LANE_BITS_HI.word lane.val) bits
      s.add64 (Reg.FRONTHAUL.LANE_ERR_LO.word lane.val) (Reg.FRONTHAUL.LANE_ERR_HI.word lane.val) errors
    else s)

end Sys2Proof.Machine
end

