-- ==== Sys2Proof/Machine/Solver.lean ====
section
/-!
DEFINITION. Sounding capture and the weight solver (R259 to R264, R287 to R303): areas and records in the solver workspace, estimates,
layer maps, the start of an epoch, the weights that it writes, and what a commit does to the beam table and to the weight sets.
-/

namespace Sys2Proof.Machine

open Sys2Proof

/-! ### Sounding areas and records (R259 to R264) -/

/-- K, the bins of a record, the symbols of the mask in rising order, and the bytes of a record and of an area. -/
def State.srsComb (s : State) (c : Nat) : Nat := combOf (s.word (Reg.CARRIER.SRS_CTL.word c).addr)
def State.srsBins (s : State) (c : Nat) : Nat :=
  ceilDiv (12 * s.get (Reg.CARRIER.SRS_RANGE.n_prb c) - s.get (Reg.CARRIER.SRS_RANGE.comb_off c)) (s.srsComb c)
def State.srsSyms (s : State) (c : Nat) : List Nat := (List.range 14).filter fun l => (s.get (Reg.CARRIER.SRS_CTL.sym_mask c)).testBit l
def State.srsRecBytes (s : State) (c : Nat) : Nat := 64 + 64 * (4 + 4 * s.srsBins c)
def State.srsAreaBytes (s : State) (c : Nat) : Nat := s.srsRecBytes c * (s.srsSyms c).length

/-- Where each carrier's two areas begin in the solver workspace, carriers in rising order; none where they do not fit (R263). -/
def State.srsPlace (s : State) (c : Nat) : Option Nat :=
  (obsPlaces (s.allocBytes kindSolver) 0 ((List.range 8).map s.srsAreaBytes)).getD c none

/-- SRS_ADDR and no_area follow the settings (R263). -/
def State.showSrs (s : State) : State :=
  s.forEach (List.range 8) fun c s =>
    let on := s.get (Reg.CARRIER.SRS_CTL.period c) != 0
    let s := s.put (Reg.CARRIER.SRS_ADDR.word c) (match s.srsPlace c with
      | some o => s.allocAddr kindSolver o
      | none => 0)
    s.putB (Reg.CARRIER.SRS_STATUS.no_area c) (on && (s.srsPlace c).isNone)

/-- Is slot `m` a sounding slot (R259)? -/
def State.soundingSlot (s : State) (c m : Nat) : Bool :=
  let p := s.get (Reg.CARRIER.SRS_CTL.period c)
  p != 0 && m % p == s.get (Reg.CARRIER.SRS_CTL.offset c) % p

/-- The area of a sounding slot: they alternate by sounding slot. -/
def State.srsArea (s : State) (c m : Nat) : Nat := m / s.get (Reg.CARRIER.SRS_CTL.period c) % 2

/-- The bytes of one record (R261, R262): header, then each path's word and bins. -/
def State.srsRecord (s : State) (c n : Nat) (blocks : List (List Cplx × Nat)) (valid : List Bool) : List Byte :=
  let r := s.form c
  let k := s.srsComb c
  let from0 := 12 * s.get (Reg.CARRIER.SRS_RANGE.prb_start c) + s.get (Reg.CARRIER.SRS_RANGE.comb_off c)
  let mask := sumNat ((List.range 64).map fun p => if valid.getD p false then 2 ^ p else 0)
  let header := [r.boundary n, c, n / r.symbols, n % r.symbols, (s.car c).epoch, s.get (Reg.CARRIER.SRS_RANGE.prb_start c),
    s.get (Reg.CARRIER.SRS_RANGE.n_prb c), k, s.get (Reg.CARRIER.SRS_RANGE.comb_off c), mask]
  ((List.range 64).map (Config.headerByte 1 header)) ++ ((List.range 64).map fun p =>
    let ok := valid.getD p false
    let b := blocks.getD p ([], 0)
    leBytes 4 ((if ok then 256 else 0) + b.2 % 32) ++ ((List.range (s.srsBins c)).map fun i =>
      leBytes 4 (if ok then (b.1.getD (from0 + k * i) Cplx.zero).word.toNat else 0)).flatten).flatten

/-- An uplink symbol of a sounding slot is captured; a marked symbol without uplink is skipped; a slot whose area the solver holds is
dropped (R259, R263, R264). -/
def State.sounding (s : State) (c n : Nat) (blocks : List (List Cplx × Nat)) (valid : List Bool) : State :=
  let r := s.form c
  let m := n / r.symbols
  let l := n % r.symbols
  if !s.soundingSlot c m || !(s.srsSyms c).contains l then s
  else if !s.ulSym c n then s.put (Reg.CARRIER.SRS_STATUS.skip_dl c) 1
  else match s.srsPlace c with
    | none => s
    | some place =>
      let a := s.srsArea c m
      if (s.get (Reg.CARRIER.SRS_STATUS.held c)).testBit a then
        if (s.car c).srsDrop == some m then s
        else
          let s := s.modCar c fun x => { x with srsDrop := some m }
          (s.bump (Reg.CARRIER.SRS_DROP.word c)).record { kind := .event, unit := unitOfdm, inst := c }
      else if (s.car c).srsDrop == some m then s
      else
        let idx := ((s.srsSyms c).takeWhile fun x => x < l).length
        let fresh := (s.car c).srsAreas.getD a none != some m
        let feeds := (idx, (s.car c).feed) :: if fresh then [] else (s.car c).srsFeeds.getD a []
        let s := s.modCar c fun x => { x with srsAreas := x.srsAreas.set a (some m), srsFeeds := x.srsFeeds.set a feeds }
        let s := if fresh then s.putBit (Reg.CARRIER.SRS_STATUS.ready c) a false else s
        let s := s.allocWrite kindSolver (place + a * s.srsAreaBytes c + idx * s.srsRecBytes c) (s.srsRecord c n blocks valid)
        let last := (((s.srsSyms c).filter fun x => s.ulSym c (m * r.symbols + x)).getLast?).getD l
        if l = last then s.putBit (Reg.CARRIER.SRS_STATUS.ready c) a true else s

/-! ### Estimates (R292 to R297) -/

/-- n_cs_max for a comb (R293). -/
def ncsMax (k : Nat) : Nat := if k = 2 then 8 else if k = 4 then 12 else 6

/-- One record of an area as the solver reads it: for each path its validity, exponent and bins. -/
def State.readRecord (s : State) (c a idx : Nat) : List (Bool × Nat × List Cplx) :=
  let bins := s.srsBins c
  let base := (s.srsPlace c).getD 0 + a * s.srsAreaBytes c + idx * s.srsRecBytes c + 64
  (List.range 64).map fun p =>
    let o := base + p * (4 + 4 * bins)
    let w := leNat (s.allocRead kindSolver o 4)
    (w.testBit 8, w % 32, (List.range bins).map fun i => cplxOfWord (leNat (s.allocRead kindSolver (o + 4 + 4 * i) 4)))

/-- The SRCu word's fields that must match, and its sequence (R292, R293). -/
def State.srcSequence (s : State) (c u : Nat) : List Cplx :=
  let k := s.srsComb c
  Config.soundingSequence (s.srsBins c) (s.get (Reg.SOLVER.SRC.group u)) (s.get (Reg.SOLVER.SRC.seq u)) (s.get (Reg.SOLVER.SRC.n_cs u))
    (ncsMax k)

/-- The record of a source in an area, by its place: none where the source is not described, is not one of the carrier's comb offset, or its
symbol has no record in the area's slot (R292, R297). -/
def State.sourceRecord (s : State) (c a u : Nat) : Option Nat :=
  let sym := s.get (Reg.SOLVER.SRC.symbol u)
  let captured := match (s.car c).srsAreas.getD a none with
    | some m => s.ulSym c (m * (s.form c).symbols + sym)
    | none => false
  if s.flag (Reg.SOLVER.SRC.valid u) && s.get (Reg.SOLVER.SRC.carrier u) == c && (s.srsSyms c).contains sym && captured &&
      s.get (Reg.SOLVER.SRC.comb_off u) == s.get (Reg.CARRIER.SRS_RANGE.comb_off c) then
    some ((s.srsSyms c).takeWhile fun x => x < sym).length
  else none

/-- The estimates of a source from sounding for group `g`: 64 exact values, or none where the source has no record (R294, R297). -/
def State.soundEstimate (s : State) (c a g u : Nat) : Option (List Exact) :=
  let r := s.form c
  match s.sourceRecord c a u with
  | none => none
  | some idx =>
    let rec_ := s.readRecord c a idx
    let er := maxNat ((rec_.filter fun y => y.1).map fun y => y.2.1)
    let seq := s.srcSequence c u
    let k := s.srsComb c
    let prb := fun i => (12 * s.get (Reg.CARRIER.SRS_RANGE.prb_start c) + s.get (Reg.CARRIER.SRS_RANGE.comb_off c) + k * i) / 12
    let mine := (List.range (s.srsBins c)).filter fun i => prb i / r.groupSize == g
    some (rec_.map fun y =>
      if y.1 then (sumC (mine.map fun i => (seq.getD i Cplx.zero).conj.mul ((y.2.2.getD i Cplx.zero).shr (er - y.2.1))), (er : Int) - 17)
      else (Cplx.zero, 0))

/-- The estimates of a source from channel information for group `g` (R296). -/
def State.chanEstimate (s : State) (c g u : Nat) : Option (List Exact) :=
  let r := s.form c
  match assoc? s.beam.chans u with
  | none => none
  | some i =>
    if i.carrier != c then none
    else
      let prbs := i.prbs.filter fun q => q.1 / r.groupSize == g
      let f := minExp (prbs.map fun q => q.2.1)
      some ((List.range 64).map fun p => (sumUnits f (prbs.map fun q => (q.2.2.getD p Cplx.zero, q.2.1)), f))

/-- The estimate matrix of one group: mantissas by row and e_H (R295). `rows` says which paths take part. -/
def estimateMatrix (cols : List (Option (List Exact))) (rows : List Bool) : List (List Cplx) × Int :=
  let n := cols.length
  let vals := ((List.range 64).map fun p => cols.map fun col =>
    if rows.getD p false then match col with
      | some l => [l.getD p (Cplx.zero, 0)]
      | none => []
    else []).flatten
  let y := normSums 16 vals
  (chunks n 64 y.1, y.2)

/-! ### Layer maps and epochs (R299 to R303) -/

/-- The layer map of a carrier with the messages for slots up to `n` applied (R299). -/
def applyMaps (width : Nat) (old : LayerMap) (l : List MapEntry) : LayerMap :=
  let put := fun (m : List (List (Option Nat))) (e : MapEntry) =>
    (List.range (max m.length (e.layer + 1))).map fun i =>
      let row := m.getD i (List.replicate width none)
      if i = e.layer then (List.range width).map fun q => if e.first ≤ q && q < e.first + e.count then some e.ue else row.getD q none
      else row
  l.foldl (fun m e => if e.dl then { m with dl := put m.dl e } else { m with ul := put m.ul e }) old

/-- The source of a layer in a group: that of the group's first PRB; and whether the group has different ones (R299). -/
def groupSource (row : List (Option Nat)) (size g : Nat) : Option Nat × Bool :=
  let l := (row.drop (g * size)).take size
  (l.headD none, l.any fun x => x != l.headD none)

/-- The layers of a direction to which the messages applied give different sources within one group (R299). -/
def mapSplits (due : List MapEntry) (dl : Bool) (groups size : Nat) (rows : List (List (Option Nat))) : Nat :=
  countIf (fun e : Nat × List (Option Nat) => (due.any fun m => m.dl == dl && m.layer == e.1) &&
    (List.range groups).any fun g => (groupSource e.2 size g).2) ((List.range rows.length).zip rows)

/-- The sounding slot of an epoch that starts at array time `a` (R301). -/
def State.epochSounding (s : State) (c a : Nat) : Option Nat :=
  let r := s.form c
  let here := r.slotOf (r.symbolAt a)
  ((List.range 1024).filterMap fun i => if i ≤ here then some (here - i) else none).find? fun m =>
    s.soundingSlot c m &&
      match ((s.srsSyms c).filter fun x => s.ulSym c (m * r.symbols + x)).getLast? with
      | some l => decide (r.boundary (m * r.symbols + l + 1) + ticksOfUs 100 ≤ a)
      | none => false

/-- An epoch ends without commit: it is late (R303). -/
def State.epochLate (s : State) (c slot : Nat) : State :=
  let s := (s.bump (Reg.SOLVER.LATE_EPOCH.word c)).put Reg.SOLVER.STATUS.late 1
  let s := (s.putBit Reg.SOLVER.STATUS.running c false).put (Reg.CARRIER.SRS_STATUS.held c) 0
  let s := { s with beam := { s.beam with epochs := s.beam.epochs.set c none } }
  s.record { kind := .event, unit := unitSolver, inst := c, detail := slot % 2 ^ 32 }

/-- The estimates of every group of a direction (R294 to R296): matrix and exponent by group. -/
def State.epochEstimates (s : State) (c : Nat) (area : Option Nat) (rows : List Bool) (map : List (List (Option Nat))) (layers : Nat) :
    List (List (List Cplx) × Int) :=
  let r := s.form c
  (List.range r.groups).map fun g =>
    estimateMatrix ((List.range layers).map fun l =>
      match (groupSource (map.getD l []) r.groupSize g).1 with
      | none => none
      | some u =>
        if r.mode = modeChannel then s.chanEstimate c g u
        else match area with
          | some a => s.soundEstimate c a g u
          | none => none) rows

/-- The sources of a layer, one for each group. -/
def State.layerSources (s : State) (c : Nat) (map : List (List (Option Nat))) (l : Nat) : List (Option Nat) :=
  ((List.range (s.form c).groups).map fun g => (groupSource (map.getD l []) (s.form c).groupSize g).1).eraseDups

/-- Layers of a direction with a source that gives nothing (R297). -/
def State.noChannel (s : State) (c : Nat) (area : Option Nat) (map : List (List (Option Nat))) (layers : Nat) : Nat :=
  countIf (fun l => (s.layerSources c map l).any fun x => match x with
    | none => true
    | some u => if (s.form c).mode = modeChannel then (s.chanEstimate c 0 u).isNone
      else match area with
        | some a => (s.sourceRecord c a u).isNone
        | none => false) (List.range layers)

/-- The sources of the layers of an epoch: maps with their layer counts. -/
def State.epochSources (s : State) (c : Nat) (maps : List (List (List (Option Nat)) × Nat)) : List Nat :=
  ((maps.map fun e => ((List.range e.2).map fun l => (s.layerSources c e.1 l).filterMap id).flatten).flatten).eraseDups

/-- The paths that are valid in every record of an area that some sources use (R295). -/
def State.recordsValid (s : State) (c a : Nat) (sources : List Nat) : List Bool :=
  let places := (sources.filterMap fun u => s.sourceRecord c a u).eraseDups
  places.foldl (fun l i => List.zipWith (fun ok (y : Bool × Nat × List Cplx) => ok && y.1) l (s.readRecord c a i)) (List.replicate 64 true)

/-- The feed tags of the channel information of some sources, and the paths whose tags do not differ among them (R295, R296). -/
def State.chanTags (s : State) (c : Nat) (sources : List Nat) : List Bool × List Bool :=
  let all := sources.filterMap fun u => match assoc? s.beam.chans u with
    | some i => if i.carrier = c then some i.tags else none
    | none => none
  let first := all.headD (List.replicate 64 false)
  (first, (List.range 64).map fun p => all.all fun t => t.getD p false == first.getD p false)

/-- The Gram records of a direction (R304). -/
def gramsOf (dl : Bool) (layers : Nat) (h : List (List (List Cplx) × Int)) : List GramRec :=
  ((List.range h.length).zip h).map fun e =>
    let y := gramOf layers e.2.1 e.2.2
    { group := e.1, dl := dl, g := y.1, eG := y.2 }

/-- An epoch of carrier `c` starts (R300, R301, R303). -/
def State.epochStart (s : State) (c : Nat) : State :=
  let r := s.form c
  let p := s.get (Reg.SOLVER.EPOCH_CTL.period c)
  let lead := ticksOfUs (s.get (Reg.SOLVER.EPOCH_CTL.lead c))
  let n := r.slotOf (r.symbolAt (s.arrayNow + lead))
  if !s.running c || p = 0 || n % p != 0 || s.beam.lastEpoch.getD c none == some n || r.mode == modeBeamId ||
      r.boundary (n * r.symbols) ≤ s.arrayNow then s
  else
    let s := { s with beam := { s.beam with lastEpoch := s.beam.lastEpoch.set c (some n) } }
    let x := s.car c
    if s.shedBit shedEpoch c then s
    else if (s.beam.epochs.getD c none).isSome || (x.setLeft != 0 && x.committed < x.setLeft) then s.epochLate c n
    else
      let due := (s.beam.mapsDue.filter fun e => e.1 == c && decide (e.2.slot ≤ n)).map fun e => e.2
      let map := applyMaps r.width (s.beam.maps.getD c { dl := [], ul := [] }) due
      let split := mapSplits due true r.groups r.groupSize map.dl + mapSplits due false r.groups r.groupSize map.ul
      let s := s.addTo Reg.BEAM.SPLIT_GROUP.word split
      let s := { s with beam := { s.beam with maps := s.beam.maps.set c map,
                                              mapsDue := s.beam.mapsDue.filter fun e => !(e.1 == c && decide (e.2.slot ≤ n)) } }
      let syms := (List.range r.symbols).map fun i => n * r.symbols + i
      let useDl := syms.any (s.dlSym c)
      let useUl := syms.any (s.ulSym c)
      let sound := if r.mode = modeSounding then s.epochSounding c (r.boundary (n * r.symbols) - lead) else none
      let area := match sound with
        | some m =>
          let a := s.srsArea c m
          if x.srsAreas.getD a none == some m && (s.get (Reg.CARRIER.SRS_STATUS.ready c)).testBit a then some a else none
        | none => none
      let s := if r.mode = modeSounding && area.isNone then s.bump Reg.SOLVER.NO_SOUND.word else s
      let sources := s.epochSources c [(map.dl, if useDl then r.dl else 0), (map.ul, if useUl then r.ul else 0)]
      let y := match area with
        | some a =>
          let feeds := (sources.filterMap (s.sourceRecord c a)).filterMap fun i => assoc? (x.srsFeeds.getD a []) i
          let feed := feeds.headD x.feed
          let same := fun b => feeds.all fun f => f.testBit b == feed.testBit b
          ((List.range 64).map (fun q => feed.testBit (bankOf q)),
           List.zipWith (fun ok q => ok && same (bankOf q)) (s.recordsValid c a sources) (List.range 64))
        | none => if r.mode = modeChannel then s.chanTags c sources else (s.feedTags, List.replicate 64 false)
      let rows := (List.range 64).map fun q => s.inService q && y.2.getD q false
      let tags := y.1
      let dlH := if useDl then s.epochEstimates c area rows map.dl r.dl else []
      let ulH := if useUl then s.epochEstimates c area rows map.ul r.ul else []
      let s := s.addTo Reg.SOLVER.NO_CHAN.word ((if useDl then s.noChannel c area map.dl r.dl else 0) +
        (if useUl then s.noChannel c area map.ul r.ul else 0))
      let e : Epoch := { slot := n, start := s.arrayNow, dlH := dlH, ulH := ulH, tags := tags,
                         grams := gramsOf true r.dl dlH ++ gramsOf false r.ul ulH, heard := [], inverses := [],
                         hasMap := !r.joint || !due.isEmpty || !map.dl.isEmpty || !map.ul.isEmpty, ready := false }
      let s := { s with beam := { s.beam with epochs := s.beam.epochs.set c (some e) } }
      let s := match area with
        | some a => s.putBit (Reg.CARRIER.SRS_STATUS.held c) a true
        | none => s
      s.putBit Reg.SOLVER.STATUS.running c true

/-- The set of a carrier in force, and the idle one. -/
def State.setInForce (s : State) (c : Nat) : WeightSet :=
  let sets := s.beam.sets.getD c (WeightSet.empty, WeightSet.empty)
  if (s.car c).set = 0 then sets.1 else sets.2

/-- The weights of one group of the idle set from its inverse; a failed group keeps those in force (R308, R311). -/
def groupWeights (dl : Bool) (layers : Nat) (old : Option GroupWeights) (h : List (List Cplx) × Int) (x : InverseRec) : GroupWeights :=
  let none_ : GroupWeights := { h := [], eH := 0, a := [], eA := 0, w := [], eW := [] }
  if x.failed then old.getD none_
  else if dl then
    let y := weightsOf layers h.1 h.2 x
    { h := [], eH := 0, a := [], eA := 0, w := y.1, eW := y.2 }
  else { h := h.1, eH := h.2, a := x.a, eA := x.eA, w := [], eW := [] }

/-- Write the idle set of a carrier from its epoch's inverses: directions that the epoch did not solve keep the set in force (R287,
R308, R311). -/
def State.writeIdleSet (s : State) (c : Nat) (e : Epoch) : State :=
  let r := s.form c
  let old := s.setInForce c
  let inv := fun (dl : Bool) (g : Nat) => (e.inverses.find? fun x => x.dl == dl && x.group == g).getD
    { group := g, dl := dl, a := [], eA := 0, sc := [], eS := 0, failed := true }
  let build := fun (dl : Bool) (h : List (List (List Cplx) × Int)) (prev : List GroupWeights) (layers : Nat) =>
    if h.isEmpty then prev
    else ((List.range h.length).zip h).map fun x => groupWeights dl layers prev[x.1]? x.2 (inv dl x.1)
  let new : WeightSet := { dl := build true e.dlH old.dl r.dl, ul := build false e.ulH old.ul r.ul,
                           dlTags := if e.dlH.isEmpty then old.dlTags else e.tags,
                           ulTags := if e.ulH.isEmpty then old.ulTags else e.tags }
  let sets := s.beam.sets.getD c (WeightSet.empty, WeightSet.empty)
  let pair := if (s.car c).set = 0 then (sets.1, new) else (new, sets.2)
  let fails := countIf (fun x : InverseRec => x.failed) e.inverses
  let s := { s with beam := { s.beam with sets := s.beam.sets.set c pair } }
  let filled := (c, 1 - (s.car c).set)
  let s := { s with recov := { s.recov with zeroed := s.recov.zeroed.filter fun e => e != filled } }
  let s := s.addTo Reg.SOLVER.PIVOT_FAIL.word fails
  if fails = 0 then s else s.put Reg.SOLVER.STATUS.pivot_fail 1

/-- The inverses of every group from summed Grams (R306 to R310). -/
def State.solveAll (s : State) (c : Nat) (grams : List GramRec) : List InverseRec :=
  let r := s.form c
  grams.map fun g => solveGroup (if g.dl then r.dl else r.ul) (max 1 (s.get Reg.SOLVER.CTL.rho)) g.dl g.group g.g g.eG

/-- The duration of an epoch, from its start to the request of its transaction. -/
def State.epochTime (s : State) (c : Nat) (e : Epoch) : State :=
  let us := min 65535 ((s.arrayNow - e.start) * 25 / 98304)
  let s := s.put (Reg.SOLVER.EPOCH_TIME.last c) us
  s.put (Reg.SOLVER.EPOCH_TIME.max c) (max us (s.get (Reg.SOLVER.EPOCH_TIME.max c)))

/-! ### What a commit does (R288 to R290, R303) -/

/-- The weight set of a carrier switches (R287, R303). -/
def State.switchWeights (s : State) (c set : Nat) : State :=
  let at0 := s.arrayNow
  let s := s.modCar c fun x => if x.set = set then x else { x with set := set, setLeft := at0 }
  { s with beam := { s.beam with epochs := s.beam.epochs.set c none } }

/-- The valid bits of a range of entries; a range beyond the table ends at its last entry (R290). -/
def State.setValid (s : State) (first count : Nat) (on : Bool) : State :=
  let n := min count (32768 - first)
  let mask := (2 ^ n - 1) * 2 ^ first
  let v := if on then s.beam.valid ||| mask else s.beam.valid - (s.beam.valid &&& mask)
  let at0 := s.arrayNow
  let leaving := if on || n = 0 then s.beam.leaving else s.beam.leaving ++ [(first, n, at0)]
  { s with beam := { s.beam with valid := v, leaving := leaving } }

/-- The beam-table entries that a window write at an offset touches. -/
def State.entriesAt (s : State) (off len : Nat) : List Nat :=
  let points := ((List.range ((len + 255) / 256)).map fun i => off + 256 * i) ++ [off + (len - 1)]
  points.foldl (fun l x => match s.placeIn kindBeam x with
    | some o => if l.contains (o / 256) then l else l ++ [o / 256]
    | none => l) []

/-- An entry takes staged content and becomes valid (R290). -/
def State.commitEntry (s : State) (off : Nat) (bytes : List Byte) : State :=
  (s.memWrite off bytes).forEach (s.entriesAt off bytes.length) fun e s => s.setValid e 1 true

/-- Is a write to an entry outside a transaction discarded (R289)? `staged` says that an open transaction holds a write to it. -/
def State.entryHeld (s : State) (e : Nat) (staged : Bool) : Bool :=
  s.beamValid e || staged || s.beam.leaving.any fun x => decide (x.1 ≤ e) && decide (e < x.1 + x.2.1) &&
    (s.activeCarriers.any fun c => decide ((s.car c).committed < x.2.2))

/-- Entries whose invalidation no replay can reach any more. -/
def State.pruneLeaving (s : State) : State :=
  { s with beam := { s.beam with leaving := s.beam.leaving.filter fun x => s.activeCarriers.any fun c => decide ((s.car c).committed < x.2.2) } }

end Sys2Proof.Machine
end

