-- ==== Sys2Proof/Machine/LostData.lean ====
section
/-!
DEFINITION. Data lost with a bank of shared memory (R537): beam-table entries, weights, pre-distortion tables, and downlink data.
-/

namespace Sys2Proof.Machine

open Sys2Proof

/-- Entries that lost a word become invalid at the next symbol boundary (R537). -/
def State.dropEntries (s : State) : State :=
  let s := s.forEach s.recov.invalid fun e s => s.setValid e 1 false
  { s with recov := { s.recov with invalid := [] } }

/-- Both banks of a path that lost a word are cleared at its next update point, so that its output is its input (R206, R537). -/
def State.clearTables (s : State) : State :=
  let s := s.forEach s.recov.clears fun p s => s.allocWrite kindDpd (dpdPlace p 0) (List.replicate (2 * dpdBytes) 0)
  { s with recov := { s.recov with clears := [] } }

/-- A PRB group whose weights are lost contributes zeros: its matrices are gone from the set in force (R537). -/
def GroupWeights.lose (x : GroupWeights) : GroupWeights :=
  { x with h := x.h.map fun v => v.map fun _ => Cplx.zero, a := x.a.map fun v => v.map fun _ => Cplx.zero,
           w := x.w.map fun v => v.map fun _ => Cplx.zero }

/-- The weights of one group of a carrier's set in force are lost. -/
def State.loseWeights (s : State) (c : Nat) (dl : Bool) (g : Nat) : State :=
  let sets := s.beam.sets.getD c (WeightSet.empty, WeightSet.empty)
  let cut := fun (x : WeightSet) => if dl then { x with dl := x.dl.modify g GroupWeights.lose }
    else { x with ul := x.ul.modify g GroupWeights.lose }
  let n := (s.car c).set
  let pair := if n = 0 then (cut sets.1, sets.2) else (sets.1, cut sets.2)
  { s with beam := { s.beam with sets := s.beam.sets.set c pair },
           recov := { s.recov with zeroed := (s.recov.zeroed.filter fun e => e != (c, n)) ++ [(c, n)] } }

/-- Does the set in force of a carrier lack a group's weights? -/
def State.lacksWeights (s : State) (c : Nat) : Bool := s.recov.zeroed.any fun e => e == (c, (s.car c).set)

/-- A frame of a port's egress journal is lost: it is not sent again (R537). -/
def State.loseJournal (s : State) (port eaxc seq : Nat) : State :=
  let keep := fun (f : SentFrame) => !(f.frame.eaxc == eaxc && f.seq == seq)
  { s with fh := { s.fh with ports := s.fh.ports.modify port fun x => { x with journal := x.journal.filter keep } } }

/-- Received downlink data of a layer of a symbol is lost, in the buffers and in the gate (R30, R537). -/
def State.loseData (s : State) (c n l : Nat) : State :=
  let keep := fun (d : PrbData) => !(d.carrier == c && d.symbol == n && d.layer == l)
  { s with fh := { s.fh with data := s.fh.data.filter keep },
           gates := s.gates.map fun g => if decide (g.kind = .down) then { g with data := g.data.filter keep } else g }

end Sys2Proof.Machine
end

