-- ==== Sys2Proof/Machine/Hall.lean ====
section
/-!
DEFINITION. What every hall instruction uses (R318 to R349): a hall's program and state, issue and completion, loops, traps, events,
address generators, narrowing and accumulation.
-/

namespace Sys2Proof.Machine

open Sys2Proof

/-! ### Halls -/

/-- Hall `h`. -/
def State.hall (s : State) (h : Nat) : Hall := s.halls.getD h (Hall.empty h)

/-- Change hall `h`. -/
def State.modHall (s : State) (h : Nat) (f : Hall → Hall) : State := { s with halls := s.halls.modify h f }

/-- Change the work of hall `h`. -/
def State.modCore (s : State) (h : Nat) (f : HallCore → HallCore) : State := s.modHall h fun x => { x with core := f x.core }

/-- The work of hall `h`. -/
def State.core (s : State) (h : Nat) : HallCore := (s.hall h).core

/-- The state codes of HALL[h].STATUS. -/
def hallNoProgram : Nat := 0
def hallRunning : Nat := 1
def hallWaiting : Nat := 2
def hallHandler : Nat := 3
def hallTrapped : Nat := 4
def hallShed : Nat := 5
def hallWedged : Nat := 6
def hallSpare : Nat := 7
def hallRetired : Nat := 8

/-- The state that HALL[h].STATUS shows; a hall that waits for credit reads WAITING too (DEDUCED, log entry 30). -/
def Hall.state (x : Hall) : Nat :=
  if x.wedged then hallWedged
  else if x.evicted then hallShed
  else if x.program.isNone then hallNoProgram
  else if x.trap != 0 then hallTrapped
  else if x.shed then hallShed
  else if x.waiting.isSome || x.credit.isSome then hallWaiting
  else if x.core.shadow then hallHandler
  else hallRunning

/-- Is pm = 0b11 valid in hall `h`'s work, whichever tile does it (R338)? -/
def bitrevValid (h : Nat) : Bool := h < 32

/-- HALL[h].STATUS but its stored field (R368), for a hall and for an alcove. -/
def State.hallStatus (s : State) (h : Nat) : Nat :=
  if h < 136 then
    let x := s.hall h
    x.state * 2 ^ 28 + x.trap * 2 ^ 24 + (x.tile.getD 0xFF) * 2 ^ 16 + x.bank * 2 ^ 15 + b2n (bitrevValid h) * 2 ^ 14
  else
    let a := s.alcoves.getD (h - 136) { serves := none, retired := false }
    let st := if a.retired then hallRetired else match a.serves with
      | some g => (s.hall g).state
      | none => hallSpare
    st * 2 ^ 28 + (a.serves.getD 0xFF) * 2 ^ 16 + b2n (match a.serves with | some g => bitrevValid g | none => false) * 2 ^ 14

/-! ### Program memory and start (R318, R320) -/

/-- The program words of a section. -/
def progBytes (bs : List Byte) : List Byte := slice bs 16 (progLen bs)

/-- The word at a bank-relative address: the bank's half for a program of at most 8 KiB, the whole memory otherwise. -/
def Hall.fetchWord (x : Hall) (pc : Nat) : Nat :=
  let a := (pc + 2048 * x.bank) % 4096
  if a < 2048 then leAt x.half0 (4 * a) 4 else leAt x.half1 (4 * (a - 2048)) 4

/-- Put the program words of a section into a half of program memory, or into both. -/
def Hall.place (x : Hall) (bank : Nat) (bs : List Byte) : Hall :=
  let p := progBytes bs
  if 8192 < p.length then { x with half0 := p.take 8192, half1 := p.drop 8192 }
  else if bank = 0 then { x with half0 := p }
  else { x with half1 := p }

/-- Where a live replacement of a hall's program goes: the other bank, or the first where no program runs (R103). -/
def Hall.otherBank (x : Hall) : Nat := if x.program.isSome then 1 - x.bank else 0

/-- Write initialisation records into data memory. -/
def dataInit (m : List Host.Cell) (l : List (Nat × List Byte)) : List Host.Cell := l.foldl (fun m e => Memory.writeBytes m e.1 e.2) m

/-- The reset of R318 under a program; `dm` is the data memory it starts from. -/
def Hall.start (x : Hall) (bank : Nat) (bs : List Byte) (dm : List Host.Cell) : Hall :=
  let recs := (progInit bs (progRecords bs) (16 + progLen bs)).getD []
  let core := { HallCore.clear with dm := dataInit dm recs, pc := progEntry bs }
  { x.place bank bs with program := some bs, bank := bank, core := core, check := core, inputs := [], sent := [],
                         trap := 0, waiting := none, credit := none, fetches := [] }

/-- The sticky flags of a hall clear (R318). -/
def State.clearSticky (s : State) (h : Nat) : State := s.put (Reg.HALL.FLAGS.word h) 0

/-- Every hall starts under the sections of the image that is installed, its data memory 0 but for its records (R318, R319). The tiles
that serve the halls, and what is given up until full reset, stay (R540, R543, R741). -/
def State.startHalls (s : State) : State :=
  { s with flits := [],
           routers := [],
           halls := (List.range 136).map fun h =>
             let x := s.hall h
             let new : Hall := { Hall.empty h with tile := x.tile, evicted := x.evicted, wedged := x.wedged }
             match s.section? secHall h with
             | some bs => new.start 0 bs []
             | none => new }

/-- Hall `h` numbers its flits from 0 again, and its receivers expect them so (R354). -/
def Hall.forget (x : Hall) (h : Nat) : Hall :=
  let rings := x.core.rings.map fun r => { r with expected := r.expected.filter fun e => e.1 / 16 != h }
  { x with core := { x.core with rings := rings } }

/-- The reset of one hall at the commit boundary of a live replacement of its program: the other bank; data memory, rings and the registers that
R318 does not name are kept (R103, R318). Flits that it sent before are gone, and its memory flows begin at their first place (DESIGN CHOICE,
log entry 81). -/
def State.replaceHall (s : State) (h : Nat) (bs : List Byte) : State :=
  let s := ({ s with flits := s.flits.filter fun f => f.hall != h }.clearSticky h).modHall h fun x =>
    let y := x.start x.otherBank bs x.core.dm
    let core := { y.core with rings := x.core.rings, timer := x.core.timer, evcause := x.core.evcause, epc := x.core.epc }
    { y with core := core, check := core }
  { s with halls := s.halls.map fun x => x.forget h }

/-- The programs of a partial image are copied into the banks that they will run in: those of the hall's work, whichever tile serves it (R100,
R103, R104). -/
def State.standby (s : State) (p : Partial) : State :=
  s.forEach (p.sections.filter fun x => x.type == secHall) fun x s => s.modHall x.inst fun y => y.place y.otherBank x.bytes

/-! ### Issue -/

/-- Halls issue instructions while the part is awake (R573, R576). -/
def State.hallsPowered (s : State) : Bool := s.power == powerActive || s.power == powerQuiet || s.power == powerEntering

/-- An event is there to accept (R344). -/
def Hall.acceptable (x : Hall) : Bool := !x.core.shadow && (x.core.pending &&& x.core.enabled) != 0

/-- The hall's tile issues: it has a program and a tile, and neither traps, nor is shed, nor is being replayed. -/
def State.hallLive (s : State) (h : Nat) : Bool :=
  let x := s.hall h
  s.hallsPowered && x.program.isSome && x.trap == 0 && !x.shed && !x.evicted && !x.wedged && !s.replaying h

/-- The hall can issue an instruction: it is not waiting under WAITE, and no event is there to accept first (R344). -/
def State.hallReady (s : State) (h : Nat) : Bool := s.hallLive h && (s.hall h).waiting.isNone && !(s.hall h).acceptable

/-- How an instruction ends. -/
inductive HallRes where
  /-- Complete; the next address in sequence follows. -/
  | next (s : State)
  /-- Complete; control continues at an address. -/
  | jump (s : State) (pc : Nat)
  /-- Complete after address `a` as though the instruction there had completed. -/
  | after (s : State) (a : Nat)
  /-- Not complete: the hall waits. -/
  | wait (s : State)
  /-- A trap (R349). -/
  | trap (cause : Nat)

/-- The trap causes. -/
def trapIllegal : Nat := 1
def trapField : Nat := 2
def trapBitrev : Nat := 3
def trapStack : Nat := 4
def trapLoop : Nat := 5
def trapRete : Nat := 6
def trapRange : Nat := 7

/-- A trap stops the hall and makes one event record with the hall, the cause and the PC (R349). -/
def State.hallTrap (s : State) (h cause : Nat) : State :=
  let s := s.modHall h fun x => { x with trap := cause, credit := none }
  s.record { kind := .event, unit := unitHall, inst := h, cause := cause, detail := (s.core h).pc }

/-- The loops and return addresses that belong to the context that runs: in a handler those pushed since acceptance. -/
def HallCore.ownLoops (c : HallCore) : List HallLoop := c.loops.take (c.loops.length - if c.shadow then c.loopsAt else 0)
def HallCore.keptLoops (c : HallCore) : List HallLoop := c.loops.drop (c.loops.length - if c.shadow then c.loopsAt else 0)

/-- Loop bookkeeping after the instruction at address `a` completed in sequence: the address that follows and the loops that remain. -/
def loopNext (a : Nat) : List HallLoop → Nat × List HallLoop
  | [] => ((a + 1) % 4096, [])
  | l :: ls =>
    if a = l.last then (if 1 < l.left then (l.first, { l with left := l.left - 1 } :: ls) else loopNext a ls)
    else ((a + 1) % 4096, l :: ls)

/-- The loops that a transfer to an address leaves: the innermost ones whose body does not hold it end (R341). -/
def loopLeave (a : Nat) (l : List HallLoop) : List HallLoop := l.dropWhile fun x => a < x.first || x.last < a

/-- The hall goes on after the instruction at `a`. -/
def HallCore.afterAt (c : HallCore) (a : Nat) : HallCore :=
  let r := loopNext a c.ownLoops
  { c with pc := r.1, loops := r.2 ++ c.keptLoops }

/-- The hall goes on at address `a` after a transfer of control. -/
def HallCore.jumpTo (c : HallCore) (a : Nat) : HallCore := { c with pc := a % 4096, loops := loopLeave (a % 4096) c.ownLoops ++ c.keptLoops }

/-- An instruction has completed. -/
def State.retireHall (s : State) (h : Nat) (f : HallCore → HallCore) : State :=
  s.modHall h fun x => { x with core := f x.core, retired := (x.retired + 1) % 2 ^ 64, credit := none }

/-- The end of an instruction of hall `h`. -/
def State.hallEnd (s : State) (h : Nat) (r : HallRes) : State :=
  match r with
  | .next s => s.retireHall h fun c => c.afterAt c.pc
  | .jump s a => s.retireHall h fun c => c.jumpTo a
  | .after s a => s.retireHall h fun c => c.afterAt a
  | .wait s => s
  | .trap cause => s.hallTrap h cause

/-- The opcodes that R322 lists. -/
def hallOpcodes : List Nat :=
  [0x00, 0x01, 0x02, 0x03, 0x04, 0x05, 0x06, 0x07, 0x08, 0x10, 0x11, 0x12, 0x13, 0x14, 0x15, 0x16, 0x17, 0x18, 0x19, 0x1A, 0x1B, 0x1C,
   0x1D, 0x20, 0x21, 0x22, 0x23, 0x24, 0x25, 0x26, 0x28, 0x29, 0x30, 0x31, 0x32, 0x33, 0x34, 0x35, 0x36, 0x37, 0x38, 0x39, 0x3A, 0x3B,
   0x3C, 0x3D, 0x3E]

/-- The word at the PC of hall `h`. -/
def State.hallWord (s : State) (h : Nat) : Nat := (s.hall h).fetchWord (s.core h).pc

/-- A field of an instruction word. -/
def field (w lo width : Nat) : Nat := w / 2 ^ lo % 2 ^ width

/-- Hall `h` issues the word at its PC: an opcode that R322 does not list traps, and a word of the opcode `op` does `f`. A word of
another opcode is not this command's (DEDUCED, log entry 30). -/
def State.issue (s : State) (h op : Nat) (f : Nat → HallRes) : State :=
  if s.hallReady h then
    let w := s.hallWord h
    let code := field w 26 6
    if !hallOpcodes.contains code then s.hallTrap h trapIllegal
    else if code == op then s.hallEnd h (f w)
    else s
  else s

/-- An instruction with its reserved bits 0 does `r`; another traps (R321). -/
def reserved (bad : Bool) (r : HallRes) : HallRes := if bad then .trap trapField else r

/-! ### Registers and flags -/

/-- The active set of registers. -/
def HallCore.set (c : HallCore) : RegSet := if c.shadow then c.shadowSet else c.primary

/-- Change the active set. -/
def HallCore.modSet (c : HallCore) (f : RegSet → RegSet) : HallCore :=
  if c.shadow then { c with shadowSet := f c.shadowSet } else { c with primary := f c.primary }

/-- A general register of the active set. -/
def HallCore.g (c : HallCore) (r : Nat) : Word := c.set.g.getD r 0

/-- Write a general register of the active set. -/
def HallCore.setG (c : HallCore) (r : Nat) (v : Word) : HallCore := c.modSet fun x => { x with g := x.g.set r v }

/-- Set the flags Z, N, C, V from a result. -/
def HallCore.flags (c : HallCore) (r : Word) (cy ov : Bool) : HallCore :=
  c.modSet fun x => { x with z := r == 0, n := r.msb, c := cy, v := ov }

/-- A sticky flag of hall `h` sets. -/
def State.stick (s : State) (h bit : Nat) : State := s.put ⟨(Reg.HALL.FLAGS.word h).addr, bit, 1⟩ 1

/-! ### Events (R342 to R347) -/

def evCommit : Nat := 0
def evSymbol : Nat := 1
def evSlot : Nat := 2
def evInq : Nat := 3
def evMbox : Nat := 11
def evDoorbell : Nat := 12
def evTimer : Nat := 13
def evShed : Nat := 14
def evAccOvf : Nat := 15

/-- A WAITE whose mask holds a pending enabled event ends, unless the hall is shed (R346, R367). -/
def State.endWaite (s : State) (h : Nat) : State :=
  match (s.hall h).waiting with
  | some mask =>
    let c := s.core h
    if s.hallLive h && (mask &&& c.pending &&& c.enabled) != 0 then
      (s.modHall h fun x => { x with waiting := none }).retireHall h fun c => c.afterAt c.pc
    else s
  | none => s

/-- Event `e` of hall `h` is raised (R343). -/
def State.raise (s : State) (h e : Nat) : State := (s.modCore h fun c => { c with pending := withBit c.pending e true }).endWaite h

/-- Event `e` of every hall with a program is raised. -/
def State.raiseAll (s : State) (e : Nat) : State :=
  s.forEach ((List.range 136).filter fun h => (s.hall h).program.isSome) fun h s => s.raise h e

/-- An acc_ovf bit sets, and event 15 is raised (R326, R342). -/
def State.overflow (s : State) (h bank : Nat) : State := (s.stick h (8 + bank)).raise h evAccOvf

/-- A value that entered hall `h` is recorded (R353). -/
def State.entered (s : State) (h : Nat) (f : Nat → HallInput) : State :=
  s.modHall h fun x => { x with inputs := x.inputs ++ [f x.retired] }

/-- Ring `q` holds at least its threshold (R342). -/
def State.ringFull (s : State) (h q : Nat) : Bool :=
  let bs := s.sectionBytes secRoutes
  ringLen bs h q != 0 && ringThreshold bs h q ≤ ((s.core h).rings.getD q default).count

/-! ### Address generators (R334 to R339) -/

/-- Bits [1:0] of a field are 0 for element access. -/
def word4 (x : Nat) : Nat := x / 4 * 4

/-- Address generator `k`. -/
def HallCore.gen (c : HallCore) (k : Nat) : AddrGen := c.ag.getD k default

/-- The offset o of the pointer (R335). -/
def AddrGen.offset (x : AddrGen) : Nat := (word4 x.ptr + 65536 - word4 x.base) % 65536

/-- The address of element `j` (R335). -/
def AddrGen.element (x : AddrGen) (j : Nat) : Nat :=
  if word4 x.len = 0 then (word4 x.ptr + 4 * j) % 65536
  else (word4 x.base + (x.offset + 4 * j) % word4 x.len) % 65536

/-- The offset field as element access takes it. -/
def AddrGen.step (x : AddrGen) : Int := x.off.fdiv 4 * 4

/-- The low `k` bits of a number reversed. -/
def revBits (k i : Nat) : Nat := sumNat ((List.range k).map fun b => if i.testBit b then 2 ^ (k - 1 - b) else 0)

/-- The bit-reversed increment of R337 applied to an offset. -/
def bitrevNext (k : Nat) (o : Nat) (step : Int) : Nat :=
  let i := o / 4 % 2 ^ k
  let f := ((step.fdiv 4) % ((2 ^ k : Nat) : Int)).toNat
  o / 4 / 2 ^ k * 2 ^ k * 4 + revBits k ((revBits k i + revBits k f) % 2 ^ k) * 4 + o % 4

/-- The pointer after an access (R336, R337). -/
def AddrGen.advance (x : AddrGen) (pm : Nat) : AddrGen :=
  if pm = 0 then x
  else
    let o : Int := if word4 x.len = 0 then word4 x.ptr else x.offset
    let o' : Int := if pm = 1 then o + x.step else if pm = 2 then o - x.step else bitrevNext x.bits o.toNat x.step
    if word4 x.len = 0 then { x with ptr := (o' % 65536).toNat }
    else { x with ptr := (word4 x.base + (o' % (word4 x.len : Int)).toNat) % 65536 }

/-- The address generator after the access. -/
def State.advanceGen (s : State) (h k pm : Nat) : State := s.modCore h fun c => { c with ag := c.ag.modify k fun x => x.advance pm }

/-- An access with `pm` in hall `h`: pm = 0b11 traps where bit reversal is not valid (R338). -/
def withPm (h pm : Nat) (r : HallRes) : HallRes := if pm == 3 && !bitrevValid h then .trap trapBitrev else r

/-- A 32-bit word of data memory at an element address. -/
def HallCore.load (c : HallCore) (a : Nat) : Nat := leNat (Memory.readBytes c.dm a 4)

/-- Store a 32-bit word into data memory. -/
def HallCore.store (c : HallCore) (a v : Nat) : HallCore := { c with dm := Memory.writeBytes c.dm a (leBytes 4 v) }

/-! ### Narrowing and accumulation (R326, R327) -/

/-- Narrow an exact value to `b` bits: the value, and whether it saturated. -/
def narrow (sat : Bool) (b : Nat) (y : Int) : Int × Bool :=
  if sat then (satS b y, satS b y != y) else (signed b (unsigned b y), false)

/-- Narrow both components. -/
def narrowC (sat : Bool) (b : Nat) (y : Cplx) : Cplx × Bool :=
  let r := narrow sat b y.re
  let i := narrow sat b y.im
  (⟨r.1, i.1⟩, r.2 || i.2)

/-- Take an exact sum into an accumulator component: the value, and whether it overflowed. -/
def accum (sat : Bool) (t : Int) : Int × Bool := ((narrow sat 44 t).1, satS 44 t != t)

/-- Both components. -/
def accumC (sat : Bool) (t : Cplx) : Cplx × Bool :=
  let r := accum sat t.re
  let i := accum sat t.im
  (⟨r.1, i.1⟩, r.2 || i.2)

/-- Sixteen zeros. -/
def lanes0 : List Cplx := List.replicate 16 Cplx.zero

/-- A vector register, an accumulator bank. -/
def HallCore.vec (c : HallCore) (r : Nat) : List Cplx := c.v.getD r lanes0
def HallCore.bankAcc (c : HallCore) (b : Nat) : List Cplx := c.acc.getD b lanes0

/-- Write a vector register with narrowed lanes; sat sets where one saturated. -/
def State.setVec (s : State) (h r : Nat) (l : List (Cplx × Bool)) : State :=
  (s.modCore h fun c => { c with v := c.v.set r (l.map fun x => x.1) }).when (l.any fun x => x.2) fun s => s.stick h 0

/-- Write an accumulator bank with accumulated lanes; acc_ovf sets where one overflowed. -/
def State.setAcc (s : State) (h b : Nat) (l : List (Cplx × Bool)) : State :=
  (s.modCore h fun c => { c with acc := c.acc.set b (l.map fun x => x.1) }).when (l.any fun x => x.2) fun s => s.overflow h b

end Sys2Proof.Machine
end

