-- ==== Sys2Proof/Machine/HallScalar.lean ====
section
/-!
DEFINITION. The hall instructions of program flow and of the scalar unit (R322, R323, R333, R339 to R347).
-/

namespace Sys2Proof.Machine

open Sys2Proof

/-- Hall `h` issues the opcode `op` at time `t`. -/
def hallDo (t : Nat) (h : Fin 136) (op : Nat) (s : State) (f : State → Nat → HallRes) : Host.Outcome State Fault Refusal :=
  let s := s.atTime t
  finish (s.issue h.val op fun w => f s w)

/-- Bits [16:12] of format B, and bit 16 where the instruction takes a mask, are reserved. -/
def badB (w : Nat) : Bool := field w 12 5 != 0
def badMask (w : Nat) : Bool := field w 16 1 != 0

/-! ### Program flow -/

/-- NOP (R322). -/
def execNop (t : Nat) (h : Fin 136) (s : State) : Host.Outcome State Fault Refusal :=
  hallDo t h 0x00 s fun s w => reserved (badB w) (.next s)

/-- A branch condition (R323); 0xF is invalid. -/
def branchHolds (c : HallCore) (flags : Nat) (cond : Nat) : Bool :=
  let x := c.set
  match cond with
  | 0x0 => true
  | 0x1 => x.z
  | 0x2 => !x.z
  | 0x3 => x.n
  | 0x4 => !x.n
  | 0x5 => x.c
  | 0x6 => !x.c
  | 0x7 => x.v
  | 0x8 => !x.v
  | 0x9 => x.n != x.v
  | 0xA => x.n == x.v
  | 0xB => !x.z && x.n == x.v
  | 0xC => x.z || x.n != x.v
  | 0xD => field flags 8 4 != 0
  | 0xE => flags.testBit 0
  | _ => false

/-- JMP (R322, R323). -/
def execJmp (t : Nat) (h : Fin 136) (s : State) : Host.Outcome State Fault Refusal :=
  hallDo t h 0x01 s fun s w =>
    reserved (badB w || field w 22 4 == 0xF)
      (if branchHolds (s.core h.val) (s.get (Reg.HALL.FLAGS.word h.val)) (field w 22 4) then .jump s (field w 0 12) else .next s)

/-- CALL (R322, R341). -/
def execCall (t : Nat) (h : Fin 136) (s : State) : Host.Outcome State Fault Refusal :=
  hallDo t h 0x02 s fun s w =>
    reserved (badB w)
      (if 4 ≤ (s.core h.val).returns.length then .trap trapStack
       else .jump (s.modCore h.val fun c => { c with returns := (c.pc + 1) % 4096 :: c.returns }) (field w 0 12))

/-- RET (R322, R341). -/
def execRet (t : Nat) (h : Fin 136) (s : State) : Host.Outcome State Fault Refusal :=
  hallDo t h 0x03 s fun s w =>
    reserved (badB w)
      (match (s.core h.val).returns with
       | [] => .trap trapStack
       | a :: rest => .jump (s.modCore h.val fun c => { c with returns := rest }) a)

/-- LOOP (R341): a count of 0 goes on at end + 1. -/
def execLoop (t : Nat) (h : Fin 136) (s : State) : Host.Outcome State Fault Refusal :=
  hallDo t h 0x04 s fun s w =>
    reserved (badB w)
      (let c := s.core h.val
       let n := (c.g (field w 17 5)).toNat
       if n = 0 then .after s (field w 0 12)
       else if 4 ≤ c.loops.length then .trap trapLoop
       else
         let first := (c.pc + 1) % 4096
         .jump (s.modCore h.val fun c => { c with loops := { first := first, last := field w 0 12, left := n } :: c.loops }) first)

/-- WAITE (R346): complete at once where an event in its mask is pending and enabled, else the hall waits. -/
def execWaite (t : Nat) (h : Fin 136) (s : State) : Host.Outcome State Fault Refusal :=
  hallDo t h 0x05 s fun s w =>
    reserved (badMask w)
      (let c := s.core h.val
       if (field w 0 16 &&& c.pending &&& c.enabled) != 0 then .next s
       else .wait (s.modHall h.val fun x => { x with waiting := some (field w 0 16) }))

/-- RETE (R345, R343): back to the primary set at EPC; entries pushed since acceptance go; a ring that still holds its threshold raises
its event again. -/
def execRete (t : Nat) (h : Fin 136) (s : State) : Host.Outcome State Fault Refusal :=
  hallDo t h 0x06 s fun s w =>
    reserved (badB w)
      (let c := s.core h.val
       if !c.shadow then .trap trapRete
       else
         let again := (List.range 8).filter fun q => s.ringFull h.val q
         let s := s.retireHall h.val fun c =>
           { c with shadow := false, pc := c.epc, loops := c.keptLoops,
                    returns := c.returns.drop (c.returns.length - c.returnsAt) }
         .wait (s.forEach again fun q s => s.raise h.val (evInq + q)))

/-- EVMASK (R322, R342): bits at or above the program's vector count are ignored. -/
def execEvmask (t : Nat) (h : Fin 136) (s : State) : Host.Outcome State Fault Refusal :=
  hallDo t h 0x07 s fun s w =>
    reserved (badMask w)
      (let n := progVectors ((s.hall h.val).program.getD [])
       .next (s.modCore h.val fun c => { c with enabled := field w 0 16 % 2 ^ min n 16 }))

/-- SIG (R322): the atrium controller is rung with the code. -/
def execSig (t : Nat) (h : Fin 136) (s : State) : Host.Outcome State Fault Refusal :=
  hallDo t h 0x08 s fun s w => reserved (badB w) (.next (s.emit (.sig h.val (field w 0 8))))

/-- CLRF (R322): the sticky flags that the mask selects clear. -/
def execClrf (t : Nat) (h : Fin 136) (s : State) : Host.Outcome State Fault Refusal :=
  hallDo t h 0x3E s fun s w =>
    reserved (badMask w)
      (let f := s.get (Reg.HALL.FLAGS.word h.val)
       .next (s.put (Reg.HALL.FLAGS.word h.val) (f - (f &&& field w 0 12))))

/-! ### Scalar arithmetic (R333) -/

/-- a + b with its flags. -/
def HallCore.addG (c : HallCore) (gd : Nat) (a b : Word) : HallCore :=
  let r := a + b
  (c.flags r (2 ^ 32 ≤ a.toNat + b.toNat) (a.msb == b.msb && r.msb != a.msb)).setG gd r

/-- Flags of a − b. -/
def HallCore.subFlags (c : HallCore) (a b : Word) : HallCore :=
  let r := a - b
  c.flags r (b.toNat ≤ a.toNat) (a.msb != b.msb && r.msb != a.msb)

/-- A logical result: Z and N follow it, C and V clear. -/
def HallCore.logicG (c : HallCore) (gd : Nat) (r : Word) : HallCore := (c.flags r false false).setG gd r

/-- The operands of format S. -/
def HallCore.ga (c : HallCore) (w : Nat) : Word := c.g (field w 16 5)
def HallCore.gb (c : HallCore) (w : Nat) : Word := c.g (field w 11 5)

/-- The immediate, sign-extended. -/
def simm (w : Nat) : Word := BitVec.ofInt 32 (signed 16 (field w 0 16))

/-- A scalar instruction: `f` changes the hall's work. -/
def scalarDo (t : Nat) (h : Fin 136) (op : Nat) (s : State) (bad : Nat → Bool) (f : Nat → HallCore → HallCore) :
    Host.Outcome State Fault Refusal :=
  hallDo t h op s fun s w => reserved (bad w) (.next (s.modCore h.val (f w)))

/-- No field of the word is invalid. -/
def anyField (_ : Nat) : Bool := false

/-- gd must be 0. -/
def badGd (w : Nat) : Bool := field w 21 5 != 0

/-- ADDI. -/
def execAddi (t : Nat) (h : Fin 136) (s : State) : Host.Outcome State Fault Refusal :=
  scalarDo t h 0x10 s anyField fun w c => c.addG (field w 21 5) (c.ga w) (simm w)

/-- LUI. -/
def execLui (t : Nat) (h : Fin 136) (s : State) : Host.Outcome State Fault Refusal :=
  scalarDo t h 0x11 s anyField fun w c => c.logicG (field w 21 5) (BitVec.ofNat 32 (field w 0 16 * 2 ^ 16))

/-- ORI. -/
def execOri (t : Nat) (h : Fin 136) (s : State) : Host.Outcome State Fault Refusal :=
  scalarDo t h 0x12 s anyField fun w c => c.logicG (field w 21 5) (c.ga w ||| BitVec.ofNat 32 (field w 0 16))

/-- ADD. -/
def execAdd (t : Nat) (h : Fin 136) (s : State) : Host.Outcome State Fault Refusal :=
  scalarDo t h 0x13 s anyField fun w c => c.addG (field w 21 5) (c.ga w) (c.gb w)

/-- SUB. -/
def execSub (t : Nat) (h : Fin 136) (s : State) : Host.Outcome State Fault Refusal :=
  scalarDo t h 0x14 s anyField fun w c => (c.subFlags (c.ga w) (c.gb w)).setG (field w 21 5) (c.ga w - c.gb w)

/-- AND. -/
def execHallAnd (t : Nat) (h : Fin 136) (s : State) : Host.Outcome State Fault Refusal :=
  scalarDo t h 0x15 s anyField fun w c => c.logicG (field w 21 5) (c.ga w &&& c.gb w)

/-- OR. -/
def execHallOr (t : Nat) (h : Fin 136) (s : State) : Host.Outcome State Fault Refusal :=
  scalarDo t h 0x16 s anyField fun w c => c.logicG (field w 21 5) (c.ga w ||| c.gb w)

/-- XOR. -/
def execHallXor (t : Nat) (h : Fin 136) (s : State) : Host.Outcome State Fault Refusal :=
  scalarDo t h 0x17 s anyField fun w c => c.logicG (field w 21 5) (c.ga w ^^^ c.gb w)

/-- A shift writes its result; Z and N follow it, C is the last bit shifted out, V clears. A shift by 0 shifts no bit out: C is then a
free value (DESIGN CHOICE, log entry 29). -/
def shiftDo (t : Nat) (h : Fin 136) (op : Nat) (s : State) (r : Word → Nat → Word) (out : Word → Nat → Bool) :
    Host.Outcome State Fault Refusal :=
  hallDo t h op s fun s w =>
    let n := field w 0 5
    let a := (s.core h.val).ga w
    let cy := if n = 0 then (Config.freeByte s.free).getLsbD 0 else out a n
    let s := if n = 0 then { s with free := s.free + 1 } else s
    .next (s.modCore h.val fun c => (c.flags (r a n) cy false).setG (field w 21 5) (r a n))

/-- SHL. -/
def execShl (t : Nat) (h : Fin 136) (s : State) : Host.Outcome State Fault Refusal :=
  shiftDo t h 0x18 s (fun a n => a <<< n) fun a n => a.getLsbD (32 - n)

/-- SHRA. -/
def execShra (t : Nat) (h : Fin 136) (s : State) : Host.Outcome State Fault Refusal :=
  shiftDo t h 0x19 s (fun a n => a.sshiftRight n) fun a n => a.getLsbD (n - 1)

/-- SHRL. -/
def execShrl (t : Nat) (h : Fin 136) (s : State) : Host.Outcome State Fault Refusal :=
  shiftDo t h 0x1A s (fun a n => a >>> n) fun a n => a.getLsbD (n - 1)

/-- CMP: flags of ga − gb; gd must be 0. -/
def execCmp (t : Nat) (h : Fin 136) (s : State) : Host.Outcome State Fault Refusal :=
  scalarDo t h 0x1B s badGd fun w c => c.subFlags (c.ga w) (c.gb w)

/-! ### Special registers (R340) -/

/-- A field of an address generator as GETS reads it: off sign-extended. -/
def AddrGen.read (x : AddrGen) (f : Nat) : Word :=
  match f with
  | 0 => BitVec.ofNat 32 x.ptr
  | 1 => BitVec.ofInt 32 x.off
  | 2 => BitVec.ofNat 32 x.base
  | 3 => BitVec.ofNat 32 x.len
  | _ => BitVec.ofNat 32 x.bits

/-- A new length takes effect: a pointer whose offset it leaves outside is reduced (R339); says whether it was. -/
def AddrGen.setLen (x : AddrGen) (n : Nat) : AddrGen × Bool :=
  let l := word4 n
  if l != 0 && l ≤ x.offset then ({ x with len := n, ptr := (word4 x.base + x.offset % l) % 65536 }, true) else ({ x with len := n }, false)

/-- A field written by PUTS (R334); len is apart. -/
def AddrGen.write (x : AddrGen) (f v : Nat) : AddrGen :=
  match f with
  | 0 => { x with ptr := v % 65536 }
  | 1 => { x with off := signed 16 v }
  | 2 => { x with base := v % 65536 }
  | _ => { x with bits := v % 16 }

/-- A value that GETS takes from outside the hall's own state is recorded (R353). -/
def State.getSpecial (s : State) (h gd sreg : Nat) (v : Word) (rec : Bool) : HallRes :=
  let s := s.when rec fun s => s.entered h fun n => .special n sreg v
  .next (s.modCore h fun c => c.setG gd v)

/-- GETS (R340). -/
def execGets (t : Nat) (h : Fin 136) (s : State) : Host.Outcome State Fault Refusal :=
  hallDo t h 0x1C s fun s w =>
    let gd := field w 21 5
    let r := field w 0 6
    let c := s.core h.val
    if r = 0x00 then s.getSpecial h.val gd r (BitVec.ofNat 32 h.val) false
    else if r = 0x01 then
      (s.modCore h.val fun c => { c with timeHi := some (timeHi s.arrayNow) }).getSpecial h.val gd r
        (BitVec.ofNat 32 (timeLo s.arrayNow)) true
    else if r = 0x02 then s.getSpecial h.val gd r (BitVec.ofNat 32 (c.timeHi.getD (timeHi s.arrayNow))) true
    else if r = 0x03 then
      s.getSpecial h.val gd r (BitVec.ofNat 32 ((match s.timing with | some k => (s.car k).epoch | none => 0) % 65536)) false
    else if r = 0x04 then s.getSpecial h.val gd r (BitVec.ofNat 32 c.evcause) false
    else if r = 0x05 then s.getSpecial h.val gd r (s.word (Reg.HALL.MBOX_IN.word h.val).addr) true
    else if r = 0x07 then s.getSpecial h.val gd r (BitVec.ofNat 32 c.timer) false
    else if 0x10 ≤ r && r < 0x24 then s.getSpecial h.val gd r ((c.gen ((r - 0x10) / 5)).read ((r - 0x10) % 5)) false
    else if 0x28 ≤ r && r < 0x38 then
      let ring := c.rings.getD ((r - 0x28) / 2) default
      if r % 2 = 0 then s.getSpecial h.val gd r (BitVec.ofNat 32 ring.rd) false
      else s.getSpecial h.val gd r (BitVec.ofNat 32 ring.count) true
    else .trap trapField

/-- Slots of inbound ring `q` of hall `h`. -/
def State.ringSlots (s : State) (h q : Nat) : Nat := ringLen (s.sectionBytes secRoutes) h q / 64

/-- INQq.rd is written: the slots passed are read, at most the unread ones (R340, R359; the pointer counts modulo the ring's slots, DEDUCED, log
entry 30). -/
def HallRing.setRd (x : HallRing) (n v : Nat) : HallRing :=
  if n = 0 then { x with rd := 0 }
  else { x with rd := v % n, count := x.count - min x.count ((v % n + n - x.rd % n) % n) }

/-- PUTS (R339, R340); gd must be 0. -/
def execPuts (t : Nat) (h : Fin 136) (s : State) : Host.Outcome State Fault Refusal :=
  hallDo t h 0x1D s fun s w =>
    let r := field w 0 6
    let v := ((s.core h.val).ga w).toNat
    reserved (badGd w)
      (if r = 0x06 then .next (s.put (Reg.HALL.MBOX_OUT.word h.val) v)
       else if r = 0x07 then .next (s.modCore h.val fun c => { c with timer := v })
       else if 0x10 ≤ r && r < 0x24 then
         let k := (r - 0x10) / 5
         let f := (r - 0x10) % 5
         if f = 3 then
           let x := ((s.core h.val).gen k).setLen (v % 65536)
           .next ((s.modCore h.val fun c => { c with ag := c.ag.set k x.1 }).when x.2 fun s => s.stick h.val (4 + k))
         else .next (s.modCore h.val fun c => { c with ag := c.ag.modify k fun x => x.write f v })
       else if 0x28 ≤ r && r < 0x38 && r % 2 = 0 then
         let q := (r - 0x28) / 2
         .next (s.modCore h.val fun c => { c with rings := c.rings.modify q fun x => x.setRd (s.ringSlots h.val q) v })
       else .trap trapField)

end Sys2Proof.Machine
end

