-- ==== Sys2Proof/Machine/HallVector.lean ====
section
/-!
DEFINITION. The hall instructions of memory and of the vector unit (R324 to R338).
-/

namespace Sys2Proof.Machine

open Sys2Proof

/-! ### Memory (R324, R334 to R338) -/

/-- The fields of format M: register, address generator, pointer modification, lane, SAT; its reserved bits. -/
def mV (w : Nat) : Nat := field w 21 4
def mG (w : Nat) : Nat := field w 21 5
def mAg (w : Nat) : Nat := field w 19 2
def mPm (w : Nat) : Nat := field w 17 2
def mLane (w : Nat) : Nat := field w 0 4
def mSat (w : Nat) : Bool := w.testBit 25
def badM (w : Nat) : Bool := field w 4 13 != 0

/-- A memory instruction: `f` does the access with the address generator as it stands, and pm then moves the pointer. -/
def memDo (t : Nat) (h : Fin 136) (op : Nat) (s : State) (f : Nat → AddrGen → State → State) : Host.Outcome State Fault Refusal :=
  hallDo t h op s fun s w =>
    reserved (badM w) (withPm h.val (mPm w)
      (.next ((f w ((s.core h.val).gen (mAg w)) s).advanceGen h.val (mAg w) (mPm w))))

/-- Element `j` of an access. -/
def HallCore.elem (c : HallCore) (x : AddrGen) (j : Nat) : Cplx := cplxOfWord (c.load (x.element j))

/-- LDV. -/
def execLdv (t : Nat) (h : Fin 136) (s : State) : Host.Outcome State Fault Refusal :=
  memDo t h 0x20 s fun w x s => s.modCore h.val fun c => { c with v := c.v.set (mV w) ((List.range 16).map fun j => c.elem x j) }

/-- LDB. -/
def execLdb (t : Nat) (h : Fin 136) (s : State) : Host.Outcome State Fault Refusal :=
  memDo t h 0x21 s fun w x s => s.modCore h.val fun c => { c with v := c.v.set (mV w) (List.replicate 16 (c.elem x 0)) }

/-- LDL. -/
def execLdl (t : Nat) (h : Fin 136) (s : State) : Host.Outcome State Fault Refusal :=
  memDo t h 0x22 s fun w x s => s.modCore h.val fun c => { c with v := c.v.set (mV w) ((c.vec (mV w)).set (mLane w) (c.elem x 0)) }

/-- Store narrowed elements at addresses. -/
def State.storeElems (s : State) (h : Nat) (sat : Bool) (l : List (Nat × Cplx)) : State :=
  let r := l.map fun e => (e.1, narrowC sat 16 e.2)
  (s.modCore h fun c => r.foldl (fun c e => c.store e.1 (e.2.1.word).toNat) c).when (r.any fun e => e.2.2) fun s => s.stick h 0

/-- STV. -/
def execStv (t : Nat) (h : Fin 136) (s : State) : Host.Outcome State Fault Refusal :=
  memDo t h 0x23 s fun w x s =>
    s.storeElems h.val (mSat w) ((List.range 16).map fun j => (x.element j, ((s.core h.val).vec (mV w)).getD j Cplx.zero))

/-- STL. -/
def execStl (t : Nat) (h : Fin 136) (s : State) : Host.Outcome State Fault Refusal :=
  memDo t h 0x24 s fun w x s =>
    s.storeElems h.val (mSat w) [(x.element 0, ((s.core h.val).vec (mV w)).getD (mLane w) Cplx.zero)]

/-- LDW. -/
def execLdw (t : Nat) (h : Fin 136) (s : State) : Host.Outcome State Fault Refusal :=
  memDo t h 0x25 s fun w x s => s.modCore h.val fun c => c.setG (mG w) (BitVec.ofNat 32 (c.load (x.element 0)))

/-- STW. -/
def execStw (t : Nat) (h : Fin 136) (s : State) : Host.Outcome State Fault Refusal :=
  memDo t h 0x26 s fun w x s => s.modCore h.val fun c => c.store (x.element 0) (c.g (mG w)).toNat

/-! ### Vectors and accumulators (R325 to R332) -/

/-- The fields of format V. -/
def vSat (w : Nat) : Bool := w.testBit 25
def vD (w : Nat) : Nat := field w 21 4
def vA (w : Nat) : Nat := field w 17 4
def vB (w : Nat) : Nat := field w 13 4
def vBb (w : Nat) : Bool := w.testBit 10
def vBl (w : Nat) : Nat := field w 6 4
def vSh (w : Nat) : Nat := field w 0 6

/-- A bank field above 3 is invalid (R321). -/
def badBank (x : Nat) : Bool := 4 ≤ x

/-- Operand a, a vector or a bank, after conjugation. -/
def conjIf (on : Bool) (l : List Cplx) : List Cplx := if on then l.map Cplx.conj else l
def HallCore.opA (c : HallCore) (w : Nat) : List Cplx := conjIf (w.testBit 12) (c.vec (vA w))
def HallCore.opBank (c : HallCore) (w : Nat) : List Cplx := conjIf (w.testBit 12) (c.bankAcc (vA w))

/-- Operand b after conjugation and broadcast. -/
def HallCore.opB (c : HallCore) (w : Nat) : List Cplx :=
  let l := conjIf (w.testBit 11) (c.vec (vB w))
  if vBb w then List.replicate 16 (l.getD (vBl w) Cplx.zero) else l

/-- An instruction that accumulates into bank d: `f` gives each lane's exact sum from the lane, a and b. -/
def macDo (t : Nat) (h : Fin 136) (op : Nat) (s : State) (f : Cplx → Cplx → Cplx → Cplx) : Host.Outcome State Fault Refusal :=
  hallDo t h op s fun s w =>
    reserved (badBank (vD w))
      (let c := s.core h.val
       .next (s.setAcc h.val (vD w)
         ((List.zipWith (fun q ab => accumC (vSat w) (f q ab.1 ab.2)) (c.bankAcc (vD w)) (List.zip (c.opA w) (c.opB w))))))

/-- CMUL. -/
def execCmul (t : Nat) (h : Fin 136) (s : State) : Host.Outcome State Fault Refusal := macDo t h 0x30 s fun _ a b => a.mul b

/-- CMAC. -/
def execCmac (t : Nat) (h : Fin 136) (s : State) : Host.Outcome State Fault Refusal := macDo t h 0x31 s fun q a b => q.add (a.mul b)

/-- CMSC. -/
def execCmsc (t : Nat) (h : Fin 136) (s : State) : Host.Outcome State Fault Refusal := macDo t h 0x32 s fun q a b => q.sub (a.mul b)

/-- RMAC. -/
def execRmac (t : Nat) (h : Fin 136) (s : State) : Host.Outcome State Fault Refusal :=
  macDo t h 0x33 s fun q a b => q.add ⟨a.re * b.re, a.im * b.im⟩

/-- An instruction that writes vector d with lanes narrowed to 18 bits. -/
def vecDo (t : Nat) (h : Fin 136) (op : Nat) (s : State) (bad : Nat → Bool) (f : Nat → HallCore → List Cplx) :
    Host.Outcome State Fault Refusal :=
  hallDo t h op s fun s w =>
    reserved (bad w) (.next (s.setVec h.val (vD w) ((f w (s.core h.val)).map fun y => narrowC (vSat w) 18 y)))

/-- VADD. -/
def execVadd (t : Nat) (h : Fin 136) (s : State) : Host.Outcome State Fault Refusal :=
  vecDo t h 0x34 s anyField fun w c => List.zipWith Cplx.add (c.opA w) (c.opB w)

/-- VSUB. -/
def execVsub (t : Nat) (h : Fin 136) (s : State) : Host.Outcome State Fault Refusal :=
  vecDo t h 0x35 s anyField fun w c => List.zipWith Cplx.sub (c.opA w) (c.opB w)

/-- VSHR. -/
def execVshr (t : Nat) (h : Fin 136) (s : State) : Host.Outcome State Fault Refusal :=
  vecDo t h 0x36 s anyField fun w c => (c.opA w).map (Cplx.shr (vSh w))

/-- VSHL. -/
def execVshl (t : Nat) (h : Fin 136) (s : State) : Host.Outcome State Fault Refusal :=
  vecDo t h 0x37 s anyField fun w c => (c.opA w).map (Cplx.smul (2 ^ vSh w : Nat))

/-- VMOV. -/
def execVmov (t : Nat) (h : Fin 136) (s : State) : Host.Outcome State Fault Refusal :=
  vecDo t h 0x38 s anyField fun w c => c.opB w

/-- CLRA (R328): the bias 2^(sh−1) in every lane, or in lane bl alone; sh above 43 is invalid. -/
def execClra (t : Nat) (h : Fin 136) (s : State) : Host.Outcome State Fault Refusal :=
  hallDo t h 0x39 s fun s w =>
    reserved (badBank (vD w) || 43 < vSh w)
      (let x : Int := if vSh w = 0 then 0 else (2 ^ (vSh w - 1) : Nat)
       let l : List Cplx := (List.range 16).map fun l => if vBb w && l != vBl w then Cplx.zero else ⟨x, x⟩
       .next (s.modCore h.val fun c => { c with acc := c.acc.set (vD w) l }))

/-- EXTR. -/
def execExtr (t : Nat) (h : Fin 136) (s : State) : Host.Outcome State Fault Refusal :=
  vecDo t h 0x3A s (fun w => badBank (vA w)) fun w c => (c.opBank w).map (Cplx.shr (vSh w))

/-- RSUM (R332). -/
def execRsum (t : Nat) (h : Fin 136) (s : State) : Host.Outcome State Fault Refusal :=
  hallDo t h 0x3B s fun s w =>
    reserved (badBank (vD w))
      (.next (s.setAcc h.val (vD w)
        (accumC (vSat w) (sumC ((s.core h.val).bankAcc (vD w))) :: List.replicate 15 (Cplx.zero, false))))

/-- The redundant sign bits of a 44-bit value. -/
def signBits (x : Int) : Nat :=
  let m := if x < 0 then (-x - 1).toNat else x.toNat
  43 - (if m = 0 then 0 else m.log2 + 1)

/-- The fields of format X. -/
def xG (w : Nat) : Nat := field w 21 5
def xBank (w : Nat) : Nat := field w 19 2
def badX (w : Nat) : Bool := field w 0 13 != 0

/-- EXP (R329). -/
def execHallExp (t : Nat) (h : Fin 136) (s : State) : Host.Outcome State Fault Refusal :=
  hallDo t h 0x3C s fun s w =>
    reserved (badX w)
      (let l := (s.core h.val).bankAcc (xBank w)
       let seen := if w.testBit 14 then l else [l.getD (field w 15 4) Cplx.zero]
       let n := (seen.map fun y => min (signBits y.re) (signBits y.im)).foldl min 43
       .next (s.modCore h.val fun c => c.setG (xG w) (BitVec.ofNat 32 n)))

/-- A component shifted by `k` under R330: the value, and whether bits that differ from the sign were lost. -/
def normPart (sat : Bool) (k : Int) (x : Int) : Int × Bool :=
  if 0 ≤ k then accum sat (x * (2 ^ k.toNat : Nat)) else (shrFloor x (-k).toNat, false)

/-- NORM (R330): a component that saturates sets sat too (R327). -/
def execNorm (t : Nat) (h : Fin 136) (s : State) : Host.Outcome State Fault Refusal :=
  hallDo t h 0x3D s fun s w =>
    reserved (badX w)
      (let c := s.core h.val
       let k := clampInt (-43) 43 (signed 32 (c.g (xG w)).toNat)
       let sat := w.testBit 13
       let l := (c.bankAcc (xBank w)).map fun y =>
         let r := normPart sat k y.re
         let i := normPart sat k y.im
         ((⟨r.1, i.1⟩ : Cplx), r.2 || i.2)
       .next ((s.setAcc h.val (xBank w) l).when (sat && l.any fun x => x.2) fun s => s.stick h.val 0))

end Sys2Proof.Machine
end

