-- ==== Sys2Proof/Machine/ImageCheck.lean ====
section
/-!
DEFINITION. The checks of a structure image in the order of R83, and the checks of a carrier plan that a live change repeats (R64,
R100).
-/

namespace Sys2Proof.Machine

open Sys2Proof

/-! ### The codes of R83 -/

def codeOk : Nat := 0x00
def codeFormat : Nat := 0x01
def codeDevice : Nat := 0x02
def codeLength : Nat := 0x03
def codeHdrCrc : Nat := 0x04
def codeKey : Nat := 0x05
def codeSig : Nat := 0x06
def codeKind : Nat := 0x07
def codeRollback : Nat := 0x08
def codeBase : Nat := 0x09
def codeTable : Nat := 0x0A
def codeSecCrc : Nat := 0x0B
def codeSecSet : Nat := 0x0C
def codeLive : Nat := 0x0D
def codeMemPlan : Nat := 0x0E
def codeRoute : Nat := 0x0F
def codeHall : Nat := 0x10
def codeCapacity : Nat := 0x11
def codePreset : Nat := 0x12
def codeNotReady : Nat := 0x13
def codeClaimed : Nat := 0x14
def codeLiveTime : Nat := 0x15
def codeBank : Nat := 0x16
def codeKeep : Nat := 0x17
def codeCommand : Nat := 0x18

/-! ### Keys (R70, R684, R685) -/

/-- A word of the customer OTP. -/
def State.otpWord (s : State) (n : Nat) : Word := (findCell n s.sec.otp).getD 0

/-- The customer OTP's bytes from an offset. -/
def State.otpBytes (s : State) (off n : Nat) : List Byte :=
  (List.range n).map fun i => BitVec.ofNat 8 (getBits (s.otpWord ((off + i) / 4)) (8 * ((off + i) % 4)) 8)

/-- The hash of key slot `k`. -/
def State.keyHash (s : State) (k : Nat) : List Byte := s.otpBytes (48 * k) 48

/-- Does slot `k` hold a hash, and is it revoked? -/
def State.keyProgrammed (s : State) (k : Nat) : Bool := !allZero (s.keyHash k)
def State.keyRevoked (s : State) (k : Nat) : Bool := bit (s.otpWord 0x30).toNat k

/-- The acceptance of a public key (R70). -/
def State.keyAccepts (s : State) (slot : Nat) (pub : List Byte) : Bool :=
  slot < 4 && s.keyProgrammed slot && !s.keyRevoked slot && sha384 pub == s.keyHash slot

/-! ### The image's parts (R66 to R69) -/

/-- An entry of the section table. -/
structure TableEntry where
  type : Nat
  inst : Nat
  offset : Nat
  length : Nat
  crc : Nat
  format : Nat
  clean : Bool
deriving DecidableEq, Repr, Inhabited

/-- Entry `i` of an image's section table. -/
def tableEntry (im : List Byte) (i : Nat) : TableEntry :=
  let e := slice im (128 + 32 * i) 32
  { type := leAt e 0 2, inst := leAt e 2 2, offset := leAt e 4 4, length := leAt e 8 4, crc := leAt e 12 4, format := leAt e 16 2,
    clean := allZero (slice e 18 14) }

/-- Header fields. -/
def imgLen (im : List Byte) : Nat := leAt im 8 4
def imgSerial (im : List Byte) : Nat := leAt im 0x10 4
def imgPartial (im : List Byte) : Bool := bit (leAt im 0x14 4) 0
def imgLockOnLoad (im : List Byte) : Bool := bit (leAt im 0x14 4) 1
def imgCount (im : List Byte) : Nat := leAt im 0x18 2
def imgEntries (im : List Byte) : List TableEntry := (List.range (imgCount im)).map fun i => tableEntry im i
def imgSections (im : List Byte) : List Section :=
  (imgEntries im).map fun e => { type := e.type, inst := e.inst, bytes := slice im e.offset e.length }

/-- The digest that the signature covers (R69, R107). -/
def imgDigest (im : List Byte) : List Byte := sha384 (im.take (imgLen im - 256))

/-! ### What a check reads besides the image -/

/-- The values a check of a plan takes from outside the image: TDD patterns (R84), split bits (R61), the sections of the running
state that a partial image leaves in place, and where the partner, energy and stair rules find them. -/
structure CheckEnv where
  pattern : Nat → Word
  split : Bool
  sections : List Section

/-- A list of tests, the first failing one's index. -/
def firstFail {α : Type} (l : List α) (ok : α → Bool) : Option Nat := l.findIdx? fun x => !ok x

/-! ### Section-table and section checks -/

/-- R68 for one entry against the earlier ones. -/
def entryOk (im : List Byte) (earlier : List TableEntry) (e : TableEntry) : Bool :=
  e.offset % 16 == 0 && 128 + 32 * imgCount im ≤ e.offset && e.offset + e.length ≤ imgLen im - 256 && e.format == 1 && e.clean &&
    earlier.all fun x => e.offset + e.length ≤ x.offset || x.offset + x.length ≤ e.offset

/-- The index of the first entry that breaks R68. -/
def tableFail (im : List Byte) : Option Nat :=
  (List.range (imgCount im)).find? fun i => !entryOk im ((imgEntries im).take i) (tableEntry im i)

/-- The types of R71, and which are live. -/
def knownTypes : List Nat := [0x0001, 0x0002, 0x0010, 0x0011, 0x0020, 0x0030, 0x0031, 0x0040, 0x0050, 0x0051, 0x0052, 0x0060]
def liveTypes : List Nat := [0x0010, 0x0011, 0x0030, 0x0031, 0x0050, 0x0051, 0x0052]
def requiredTypes : List Nat := [0x0001, 0x0011, 0x0020, 0x0030, 0x0031, 0x0040, 0x0050, 0x0051, 0x0052]

/-- The length rule of R735. -/
def lengthOk (x : Section) : Bool :=
  let n := x.bytes.length
  match x.type with
  | 0x0001 => 1 ≤ n && n ≤ 524288
  | 0x0002 => 1 ≤ n && n ≤ 131072
  | 0x0010 => true
  | 0x0011 => n == 26656
  | 0x0020 => 0 < n && n % 16 == 0
  | 0x0030 => n == 512
  | 0x0031 => n == 264
  | 0x0040 => n == 16
  | 0x0050 => 16 ≤ n && leAt x.bytes 2 2 ≤ 64 && n == 16 + 16 * leAt x.bytes 2 2
  | 0x0051 => 96 ≤ n && leAt x.bytes 0x12 2 ≤ 512 && n == 96 + 24 * leAt x.bytes 0x12 2
  | 0x0052 => n == 232
  | 0x0060 => n % 8 == 0 && n ≤ 32768
  | _ => false

/-- The stair-role rules of R80. -/
def stairOk (bs : List Byte) : Bool :=
  let role := roleRole bs
  let parent := roleParent bs
  let kids := roleChildren bs
  role ≤ 2 && (parent < 4 || parent == 0xFF) && 1 ≤ roleCount bs && roleCount bs ≤ 512 && roleLanding bs < roleCount bs &&
    (if role == 0 then parent == 0xFF else parent < 4) && (role != 2 || kids == 0) && !(parent < 4 && bit kids parent)

/-- One section's part of SEC_SET: its type, its instance, its length, the stair role, and in a full image no second section of its
type and instance, nor a 137th hall program (R71). -/
def secSetOk (full : Bool) (earlier : List Section) (x : Section) : Bool :=
  knownTypes.contains x.type && (x.type == secHall || x.inst == 0) && lengthOk x && (x.type != secStair || stairOk x.bytes) &&
    (!full || (!(earlier.any fun y => y.type == x.type && y.inst == x.inst) &&
      (x.type != secHall || decide (countIf (fun y : Section => y.type == secHall) earlier < 136))))

/-- SEC_SET: the failing entry, or 0xFF for a section that is missing. -/
def secSetFail (full : Bool) (l : List Section) : Option Nat :=
  match (List.range l.length).find? fun i => !secSetOk full (l.take i) (l.getD i default) with
  | some i => some i
  | none => if full && !(requiredTypes.all fun t => l.any fun x => x.type == t) then some 0xFF else none

/-- LIVE: an entry that cannot be replaced live or repeats an earlier one. -/
def liveFail (l : List Section) : Option Nat :=
  (List.range l.length).find? fun i =>
    let x := l.getD i default
    !liveTypes.contains x.type || (l.take i).any fun y => y.type == x.type && y.inst == x.inst

/-- The least bank counts of R74. -/
def kindMinima : List (Nat × Nat) := [(1, 64), (2, 144), (3, 192), (5, 64), (6, 96), (7, 32), (8, 16)]

/-- The memory-plan rules of R74 and R75. A record of a kind that the table of R74 does not list breaks it (DESIGN CHOICE, log entry 76). -/
def memPlanOk (bs : List Byte) : Bool :=
  let l := memRecs bs
  let banks := (l.map fun r => (List.range r.count).map fun i => r.first + i).flatten
  (l.all fun r => 1 ≤ r.kind && r.kind ≤ 10 && 1 ≤ r.count && r.first + r.count ≤ 768) &&
    ((List.range l.length).all fun i => (l.take i).all fun y =>
      !(y.kind == (l.getD i default).kind && y.inst == (l.getD i default).inst)) &&
    ((List.range 768).all fun b => countIf (fun x => x == b) banks ≤ 1) &&
    (kindMinima.all fun m => m.2 ≤ (kindBanks l m.1).length) &&
    ((kindBanks l kindLoad).length == 0 || (kindBanks l kindLoad).length == 12)

/-! ### Corridor routes (R356, R357) -/

/-- A directed link of the grid: the router's tile and the port it leaves by (0 north, 1 south, 2 east, 3 west, 4 local out,
5 local in). -/
abbrev Link := Nat × Nat

/-- The links of a straight run of `n` hops from tile `h` by port `d`, and the tile it ends at. -/
def runLinks (d : Nat) : Nat → Nat → List Link × Nat
  | 0, h => ([], h)
  | n + 1, h =>
    let next := if d = 0 then h - 12 else if d = 1 then h + 12 else if d = 2 then h + 1 else h - 1
    let r := runLinks d n next
    ((h, d) :: r.1, r.2)

/-- Hops along a row or a column from one coordinate to another, by the two ports. -/
def legLinks (h from_ to_ back fwd : Nat) : List Link × Nat :=
  if from_ ≤ to_ then runLinks fwd (to_ - from_) h else runLinks back (from_ - to_) h

/-- The dimension-ordered route between two tiles, closing with the exit port `o` (R357). -/
def routeLinks (src dst : Nat) (yx : Bool) (o : Nat) : List Link :=
  let row := fun h => legLinks h (h % 12) (dst % 12) 3 2
  let col := fun h => legLinks h (h / 12) (dst / 12) 0 1
  let a := if yx then col src else row src
  let b := if yx then row a.2 else col a.2
  (src, 5) :: a.1 ++ b.1 ++ [(dst, o)]

/-- The route of one flow of the tile `src`: to a hall's tile, along its column to the nearer memory edge, or along its row to the
edge of the unit (DEDUCED, log entry 21). -/
def flowLinks (tile : Nat → Nat) (h : Nat) (f : FlowRec) : List Link :=
  let src := tile h
  match f.kind with
  | 1 => routeLinks src (tile f.dest) f.yx 4
  | 2 => if src / 12 < 6 then routeLinks src (src % 12) f.yx 0 else routeLinks src (132 + src % 12) f.yx 1
  | _ => if f.dest ≤ 0x17 && 1 ≤ f.dest then routeLinks src (src / 12 * 12) f.yx 3 else routeLinks src (src / 12 * 12 + 11) f.yx 2

/-- Consecutive pairs of a route. -/
def linkPairs : List Link → List (Link × Link)
  | [] => []
  | [_] => []
  | a :: b :: rest => (a, b) :: linkPairs (b :: rest)

/-- Drop, `n` times, every edge whose source link no remaining edge enters. -/
def peel : Nat → List (Link × Link) → List (Link × Link)
  | 0, es => es
  | n + 1, es =>
    let rest := es.filter fun e => es.any fun x => decide (x.2 = e.1)
    if rest.length = es.length then es else peel n rest

/-- Does the dependency graph hold a cycle? -/
def cyclic (es : List (Link × Link)) : Bool := !(peel es.length es).isEmpty

/-- The flows of a route table: hall and flow. -/
def tableFlows (bs : List Byte) : List (Nat × FlowRec) :=
  ((List.range 136).map fun h => ((List.range 16).map fun f => (h, routeFlow bs h f)).filter fun e => 1 ≤ e.2.kind && e.2.kind ≤ 3).flatten

/-- No class of a table has a dependency cycle, for a placement of halls on tiles. -/
def acyclic (flows : List (Nat × FlowRec)) (tile : Nat → Nat) : Bool :=
  (List.range 4).all fun c =>
    !cyclic (((flows.filter fun e => e.2.cls == c).map fun e => linkPairs (flowLinks tile e.1 e.2)).flatten.eraseDups)

/-- The ROUTE check (R83, R356, R357): hall numbers, destinations, and no cycle in the table as written or with any one working hall
on any alcove. -/
def routesOk (bs : List Byte) : Bool :=
  let flows := tableFlows bs
  ((List.range 136).all fun h => leAt bs (196 * h) 2 == h) && (flows.all fun e => e.2.kind != 1 || e.2.dest < 136) &&
    acyclic flows id &&
    (List.range 136).all fun h => !(flows.any fun e => e.1 == h || (e.2.kind == 1 && e.2.dest == h)) ||
      (List.range 8).all fun a => acyclic flows fun x => if x = h then 136 + a else x

/-! ### Hall programs and path plan -/

/-- R72 and R73 for a hall-program section. -/
def hallOk (x : Section) : Bool :=
  let bs := x.bytes
  let n := progLen bs
  x.inst < 136 && 16 ≤ bs.length && n % 4 == 0 && 4 ≤ n && n ≤ 16384 && 16 + n ≤ bs.length && progEntry bs < n / 4 &&
    progVectors bs ≤ 16 && progVectors bs ≤ n / 4 && (progInit bs (progRecords bs) (16 + n)).isSome

/-- R76 for the path and neighbour plan. -/
def pathPlanOk (bs : List Byte) : Bool :=
  (List.range 64).all fun p =>
    let ns := (List.range 4).map fun j => leAt bs (8 * p + 1 + j) 1
    planSubarray bs p ≤ 15 && (ns.all fun n => n == 0xFF || (n < 64 && n != p)) &&
      (List.range 4).all fun j => ns.getD j 0 == 0xFF || !((ns.take j).contains (ns.getD j 0))

/-! ### Carrier plan (R60 to R63, R77, R78, R237, R248, R270, R315, R316, R565) -/

/-- The rules of R78, R77, R237 and R270 for one enabled carrier. -/
def carrierOk (r : CarrierRec) (count : Nat) : Bool :=
  r.spacing ≤ 3 && 1 ≤ r.width && r.width ≤ 275 && 8 ≤ r.fft && r.fft ≤ 12 && r.tdd ≤ 15 && r.group ≤ 4 && r.dl ≤ 32 && r.ul ≤ 32 &&
    r.mode ≤ 2 && !(r.joint && r.mode == modeChannel) && (!r.joint || (r.ingress < count && r.egress < count)) &&
    (!r.ecp || r.spacing == 2) && 12 * r.width * 10 ≤ 8 * 2 ^ r.fft && r.fft + r.spacing ≤ 15

/-- The occupied band (R63) in kHz from the composite centre, and its rules: at most 100 MHz wide, within ±400 MHz (R77). -/
def bandOk (r : CarrierRec) : Bool :=
  let half : Int := (6 * r.width * r.khz : Nat)
  12 * r.width * r.khz ≤ 100000 && -400000 ≤ r.offset - half && r.offset + half ≤ 400000

/-- Real multiply-accumulates per second that a carrier asks of the beam engine (R316). -/
def macRate (r : CarrierRec) (top : Bool) : Nat :=
  let re := 12 * r.width * r.symbols * 1000 * 2 ^ r.spacing
  let layers := if r.tdd = 0 then r.dl + r.ul else max r.dl r.ul
  re * (256 * layers) + (if top && r.joint && r.mode == modeSounding then re * (4 * r.ul * r.ul) else 0)

/-- Bytes of one weight set (R315). -/
def weightBytes (r : CarrierRec) : Nat :=
  if r.mode = modeBeamId then 0 else r.groups * (256 * r.dl + 256 * r.ul + 4 * r.ul * r.ul + 64)

/-- The shed actions CARRIER_UL and CARRIER_DL of an energy policy: the union of their masks (R564, R565). -/
def shedCarrierMask (bs : List Byte) : Nat :=
  (List.range 7).foldl (fun m i =>
    if leAt bs (0x20 + 8 * i) 1 == 6 || leAt bs (0x20 + 8 * i) 1 == 7 then m ||| leAt bs (0x20 + 8 * i + 4) 4 else m) 0

/-- R565 on a set of sections: no array-joint carrier is shed. -/
def planPolicyOk (l : List Section) : Bool :=
  let bytes := fun t => ((sectionOf l t 0).map fun x => x.bytes).getD []
  ((planCarriers (bytes secCarriers)).filter fun e => e.2.joint).all fun e => !bit (shedCarrierMask (bytes secEnergy)) e.1

/-- The limits of R60 to R63, R77, R78, R237, R270, R315 and R316 on a set of sections, without the patterns. -/
def planCarriersOk (l : List Section) (split : Bool) : Bool :=
  let bytes := fun t => ((sectionOf l t 0).map fun x => x.bytes).getD []
  let cs := planCarriers (bytes secCarriers)
  let joint := cs.filter fun e => e.2.joint
  let top := roleRole (bytes secStair) == 0
  let limit := if split then 32 else 64
  (cs.all fun e => carrierOk e.2 (roleCount (bytes secStair)) && bandOk e.2) &&
    sumNat (cs.map fun e => e.2.dl) ≤ 128 && sumNat (cs.map fun e => e.2.ul) ≤ 128 &&
    sumNat (joint.map fun e => e.2.dl) ≤ limit && sumNat (joint.map fun e => e.2.ul) ≤ limit &&
    sumNat (cs.map fun e => 2 * weightBytes e.2) ≤ (kindBanks (memRecs (bytes secMemory)) kindWeights).length * bankBytes &&
    sumNat (cs.map fun e => macRate e.2 top) ≤ 6400000000000

/-- Both, as a prepare checks them. -/
def planCapacityOk (l : List Section) (split : Bool) : Bool := planCarriersOk l split && planPolicyOk l

/-- R248 for every enabled carrier with a TDD pattern. -/
def planPatternsOk (l : List Section) (pattern : Nat → Word) : Bool :=
  (planCarriers (((sectionOf l secCarriers 0).map fun x => x.bytes).getD [])).all fun e =>
    e.2.tdd == 0 || (patternOf (pattern e.2.tdd)).valid e.2

/-! ### Register presets (R82) -/

/-- The address and value pairs of a preset section. -/
def presetPairs (bs : List Byte) : List (Nat × Word) :=
  (List.range (bs.length / 8)).map fun i => (leAt bs (8 * i) 4, BitVec.ofNat 32 (leAt bs (8 * i + 4) 4))

/-- Is bit `i` of the register a bit a preset may hold at 1? -/
def presetBitOk (d : RegDesc) (i : Nat) : Bool :=
  d.fields.any fun f => f.lo ≤ i && i < f.lo + f.width && f.access != .ro && f.access != .wo

/-- One preset's rules: the shared-memory window is a block of R694 too, and holds no RO, WO or reserved bit. -/
def presetOk (e : Nat × Word) : Bool :=
  if inWindow e.1 then e.1 % 4 == 0
  else (blockAt e.1).isSome && e.1 % 4 == 0 &&
    match descAt e.1 with
    | some d => (List.range 32).all fun i => !e.2.getLsbD i || presetBitOk d i
    | none => e.2 == 0

/-- The value of a register under a preset list: the last preset to its address, or its reset value (R84). -/
def presetValue (l : List (Nat × Word)) (a : Nat) : Word :=
  match (l.reverse.find? fun e => e.1 == a) with
  | some e => e.2
  | none => resetWordAt a

/-! ### The whole check -/

/-- The outcome of a check: the code of R83 and the failing entry or 0xFF. -/
abbrev CheckResult := Nat × Nat

/-- The index of the first section of a type that breaks a rule. -/
def sectionFail (l : List Section) (type : Nat) (ok : Section → Bool) : Option Nat :=
  l.findIdx? fun x => x.type == type && !ok x

/-- The checks of the header up to HDR_CRC (R83). -/
def headerCheck (im : List Byte) : Nat :=
  if im.length < 128 || slice im 0 4 != [0x46, 0x4F, 0x4C, 0x4E] || leAt im 4 2 != 1 || leAt im 6 2 != 128 || leAt im 0x1C 4 != 128 ||
      4 ≤ leAt im 0x14 4 || leAt im 0x1A 2 != 0 || !allZero (slice im 0x70 12) || (!imgPartial im && !allZero (slice im 0x40 48)) then
    codeFormat
  else if leAt im 0x0C 4 != 0x6464 then codeDevice
  else if 1572864 < imgLen im || imgLen im % 16 != 0 || imgLen im < 416 || im.length < imgLen im then codeLength
  else if crc32 (slice im 0 0x7C) != leAt im 0x7C 4 then codeHdrCrc
  else codeOk

/-- The checks of key and signature (R69, R70). -/
def State.keyCheck (s : State) (im : List Byte) : Nat :=
  let blk := slice im (imgLen im - 256) 256
  let pub := slice blk 8 97
  if slice blk 0 4 != [0x53, 0x49, 0x47, 0x42] || 3 < leAt blk 4 4 || !allZero (slice blk 0x69 3) || !allZero (slice blk 0xCC 52) ||
      !s.keyAccepts (leAt blk 4 4) pub then codeKey
  else if !signatureOk (im.take (imgLen im - 256)) pub (slice blk 0x6C 48) (slice blk 0x9C 48) then codeSig
  else codeOk

/-- The checks of kind, serial and base against the floor and the running state. While no image runs there is no running digest that a partial
image could name: BASE (DESIGN CHOICE, log entry 76). -/
def State.kindCheck (s : State) (partialWanted : Bool) (im : List Byte) : Nat :=
  if imgPartial im != partialWanted then codeKind
  else
    match partialWanted, s.image.running with
    | false, _ => if imgSerial im < s.keep.slotRec.floor then codeRollback else codeOk
    | true, some r => if imgSerial im ≤ r.serial then codeRollback else if slice im 0x40 48 != r.digest then codeBase else codeOk
    | true, none => codeBase

/-- Is split mode set on any port? -/
def splitOf (value : Nat → Word) : Bool :=
  (List.range 4).any fun n => getBits (value (Reg.STAIR.PORT_CTL.split n).addr) 2 1 == 1

/-- The checks of the section table and sections, in the order of R83. -/
def State.sectionsCheck (s : State) (full : Bool) (im : List Byte) : CheckResult :=
  if imgCount im < 1 || 160 < imgCount im then (codeTable, 0xFF)
  else match tableFail im with
  | some i => (codeTable, i)
  | none =>
    let l := imgSections im
    match firstFail (imgEntries im) fun e => crc32 (slice im e.offset e.length) == e.crc with
    | some i => (codeSecCrc, i)
    | none =>
      match secSetFail full l with
      | some i => (codeSecSet, i)
      | none =>
        match (if full then none else liveFail l) with
        | some i => (codeLive, i)
        | none =>
          match sectionFail l secMemory fun x => memPlanOk x.bytes with
          | some i => (codeMemPlan, i)
          | none =>
            match sectionFail l secRoutes fun x => routesOk x.bytes with
            | some i => (codeRoute, i)
            | none =>
              match l.findIdx? fun x => (x.type == secHall && !hallOk x) || (x.type == secPaths && !pathPlanOk x.bytes) with
              | some i => (codeHall, i)
              | none =>
                let presets := presetPairs (((sectionOf l secPresets 0).map fun x => x.bytes).getD [])
                let value := fun a => if full then presetValue presets a else s.word a
                let whole := if full then l else replaceSections ((s.image.running.map fun r => r.sections).getD []) l
                let touches := full || l.any fun x => x.type == secCarriers || x.type == secEnergy
                let indexOf := fun t => l.findIdx? fun x => x.type == t
                if touches && !(planCarriersOk whole (splitOf value) &&
                    planPatternsOk whole fun k => value (Reg.CARRIER.TDD_PAT.word (k - 1)).addr) then
                  (codeCapacity, (indexOf secCarriers).getD 0xFF)
                else if touches && !planPolicyOk whole then
                  (codeCapacity, ((indexOf secEnergy).orElse fun _ => indexOf secCarriers).getD 0xFF)
                else
                  match sectionFail l secPresets fun x => (presetPairs x.bytes).all presetOk with
                  | some i => (codePreset, i)
                  | none => (codeOk, 0xFF)

/-- The checks of R83 on the bytes supplied by a slot or the load buffer, in their order. -/
def State.checkImage (s : State) (partialWanted : Bool) (im : List Byte) : CheckResult :=
  if headerCheck im != codeOk then (headerCheck im, 0xFF)
  else if s.keyCheck im != codeOk then (s.keyCheck im, 0xFF)
  else if s.kindCheck partialWanted im != codeOk then (s.kindCheck partialWanted im, 0xFF)
  else s.sectionsCheck (!partialWanted) im

end Sys2Proof.Machine
end

