-- ==== Sys2Proof/Machine/HallCorridor.lean ====
section
/-!
DEFINITION. The hall fabric's corridors and events (R342 to R348, R354 to R361, R368, R105): SEND, FETCH, arrivals, acceptance of
events, the mailbox and the host's access to data memory.
-/

namespace Sys2Proof.Machine

open Sys2Proof

/-! ### Flows and credits (R359 to R361) -/

/-- The route of flow `f` of hall `h`. -/
def State.route (s : State) (h f : Nat) : FlowRec := routeFlow (s.sectionBytes secRoutes) h f

/-- Flits on their way to ring `q` of hall `h`, fetched ones included. -/
def State.ringTaken (s : State) (h q : Nat) : Nat :=
  countIf (fun f : Flit => f.kind == 1 && f.dest == h && f.ring == q) s.flits + countIf (fun e : Nat × Nat => e.1 == q) (s.hall h).fetches

/-- Free slots of ring `q` of hall `h`: the credits of a flow to it. -/
def State.ringFree (s : State) (h q : Nat) : Nat :=
  s.ringSlots h q - (((s.core h).rings.getD q default).count + s.ringTaken h q)

/-- The credits of a flow: a flow to a hall, a flow to a unit port; a flow to memory takes none; a flow of kind 0 has none. -/
def State.credits (s : State) (h f : Nat) : Option Nat :=
  let r := s.route h f
  if r.kind = 1 then some (s.ringFree r.dest r.ring)
  else if r.kind = 2 then none
  else if r.kind = 3 then some (Config.unitCredits r.dest - countIf (fun x : Flit => x.hall == h && x.flow == f) s.flits)
  else some 0

/-- The fields of format C. -/
def cG (w : Nat) : Nat := field w 21 5
def cFlow (w : Nat) : Nat := field w 13 4
def cCount (w : Nat) : Nat := field w 0 13

/-- The hall waits for credit on a flow (R347). -/
def State.waitCredit (s : State) (h f : Nat) : State := s.modHall h fun x => { x with credit := some f }

/-- The next number of a flow, and the flow after it. -/
def State.sendSeq (s : State) (h f : Nat) : Nat := ((s.core h).flows.getD f default).seq
def State.modFlow (s : State) (h f : Nat) (g : HallFlow → HallFlow) : State :=
  s.modCore h fun c => { c with flows := c.flows.modify f g }

/-- A flit of a memory flow goes to the next place of its banks (R360). -/
def State.memFlit (s : State) (h f : Nat) (data : List Word) : State :=
  let r := s.route h f
  let flits := r.count * 2048
  let place := ((s.core h).flows.getD f default).place
  let off := r.first * bankBytes + (if flits = 0 then 0 else place % flits * 64)
  (s.memWrite off (data.map fun w => leBytes 4 w.toNat).flatten).modFlow h f fun x =>
    { x with place := if flits = 0 then 0 else (place + 1) % flits }

/-- The tile that does a hall's work. -/
def State.tileOf (s : State) (h : Nat) : Nat := (s.hall h).tile.getD h

/-- The router outputs that a flit of a flow passes, in order: its route without the local input (R357, R362). -/
def State.outputs (s : State) (h f : Nat) : List Link := (flowLinks s.tileOf h (s.route h f)).drop 1

/-- A flit leaves: into shared memory (R360), or into the corridors, held at injection while flits of the flow's old route are on their
way (R105). -/
def State.sendFlit (s : State) (h f : Nat) (data : List Word) : State :=
  let r := s.route h f
  let x := (s.core h).flows.getD f default
  let old := x.rerouted && s.flits.any fun y => y.hall == h && y.flow == f
  let s := s.modFlow h f fun x => { x with seq := (x.seq + 1) % 2 ^ 32, rerouted := old }
  if r.kind = 2 && !old then s.memFlit h f data
  else
    let y : Flit := { hall := h, flow := f, seq := x.seq, kind := r.kind, dest := r.dest, ring := r.ring, cls := r.cls,
                      links := s.outputs h f, held := old, data := data }
    { s with flits := s.flits ++ [y] }.modHall h fun z => { z with sent := if r.kind = 2 then z.sent else z.sent ++ [y] }

/-- SEND (R359, R360): one flit of 16 elements; a memory flow without banks is out of range (R349). -/
def execSend (t : Nat) (h : Fin 136) (s : State) : Host.Outcome State Fault Refusal :=
  hallDo t h 0x28 s fun s w =>
    withPm h.val (mPm w)
      (let f := cFlow w
       let r := s.route h.val f
       let x := (s.core h.val).gen (mAg w)
       if r.kind == 2 && r.count == 0 then .trap trapRange
       else if s.credits h.val f == some 0 then .wait (s.waitCredit h.val f)
       else
         .next ((s.sendFlit h.val f ((List.range 16).map fun j => BitVec.ofNat 32 ((s.core h.val).load (x.element j)))).advanceGen
           h.val (mAg w) (mPm w)))

/-- FETCH (R361): the range must lie within the flow's banks; the flits take credits of the fetching hall's ring. -/
def execFetch (t : Nat) (h : Fin 136) (s : State) : Host.Outcome State Fault Refusal :=
  hallDo t h 0x29 s fun s w =>
    let f := cFlow w
    let n := cCount w
    let r := s.route h.val f
    let a := ((s.core h.val).g (cG w)).toNat
    let lo := windowBase + r.first * bankBytes
    reserved (n == 0)
      (if !(r.kind == 2 && lo ≤ a && a + 64 * n ≤ lo + r.count * bankBytes) then .trap trapRange
       else if s.ringFree h.val r.ring < n then .wait (s.waitCredit h.val f)
       else .next (s.modHall h.val fun x =>
         { x with fetches := x.fetches ++ (List.range n).map fun i => (r.ring, a - windowBase + 64 * i) }))

/-! ### Arrivals (R354, R358, R361) -/

/-- A flit enters ring `q` of hall `h`: its bytes into the next slot, the count, and the ring's event at its threshold. -/
def State.enterRing (s : State) (h q : Nat) (data : List Word) : State :=
  let bs := s.sectionBytes secRoutes
  let n := s.ringSlots h q
  let x := (s.core h).rings.getD q default
  let at_ := ringBase bs h q + 64 * (if n = 0 then 0 else (x.rd + x.count) % n)
  let s := s.modCore h fun c =>
    { c with dm := Memory.writeBytes c.dm at_ (data.map fun w => leBytes 4 w.toNat).flatten,
             rings := c.rings.modify q fun x => { x with count := x.count + 1 } }
  s.when (s.ringFull h q) fun s => s.raise h (evInq + q)

/-- Take the first member that satisfies `p` out of a list. -/
def takeFirst {α : Type} (p : α → Bool) : List α → Option (α × List α)
  | [] => none
  | a :: l => if p a then some (a, l) else (takeFirst p l).map fun r => (r.1, a :: r.2)

/-! ### Router outputs (R362) -/

/-- A router output's number. -/
def outputKey (o : Link) : Nat := 8 * o.1 + o.2

/-- The counts of a router output. -/
def State.runsAt (s : State) (o : Link) : List Nat := (assoc? s.routers (outputKey o)).getD [0, 0, 0, 0, 0, 0]

/-- The classes of the flits that wait at a router output, and `cls`. -/
def State.classesAt (s : State) (o : Link) (cls : Nat) : List Nat :=
  (cls :: (s.flits.filter fun x => !x.held && x.links.head? == some o).map fun x => x.cls).eraseDups

/-- A flit passes the outputs of its route, in order, as far as they grant it: the outputs that it has still to pass (R362). -/
def State.passOutputs (s : State) (cls : Nat) : List Link → State × List Link
  | [] => (s, [])
  | o :: rest =>
    let waits := s.classesAt o cls
    let runs := s.runsAt o
    if grantFrom runs waits 4 0 = cls then
      ({ s with routers := assocSet s.routers (outputKey o) (runsAfter runs waits cls) } : State).passOutputs cls rest
    else (s, o :: rest)

/-- FLIT_ARRIVAL (R354): the flit passes the routers, and waits at the output that grants another class first (R362); the receiver takes the
number it expects; a lower number is discarded and counted; flits wait while their destination is being replayed, and for good where the
corridors are given up (R355, R543). -/
def State.flitArrives (s : State) (h f : Nat) : State :=
  match takeFirst (fun x : Flit => x.hall == h && x.flow == f && !x.held) s.flits with
  | none => s
  | some (x, rest) =>
    if s.isWedged .corridors || (x.kind = 1 && s.replaying x.dest) then s
    else
    let r := ({ s with flits := rest } : State).passOutputs x.cls x.links
    if !r.2.isEmpty then
      { r.1 with flits := s.flits.map fun y => if y.hall == h && y.flow == f && y.seq == x.seq then { y with links := r.2 } else y }
    else
    let s := r.1
    if x.kind = 1 then
      let key := 16 * h + f
      let want := (assoc? ((s.core x.dest).rings.getD x.ring default).expected key).getD 0
      if x.seq = want then
        let s := s.modCore x.dest fun c => { c with rings := c.rings.modify x.ring fun r =>
          { r with expected := assocSet r.expected key ((want + 1) % 2 ^ 32) } }
        let s := s.entered x.dest fun n => .flit n x.ring x.data
        s.enterRing x.dest x.ring x.data
      else s.bump (Reg.HALL.SUPPRESSED.word h)
    else s.emit (.unitFlit x.dest h f x.data)

/-- FLIT_ARRIVAL (R354, R358). -/
def execFlitArrival (t : Nat) (h : Fin 136) (f : Fin 16) (s : State) : Host.Outcome State Fault Refusal :=
  finish ((s.atTime t).flitArrives h.val f.val)

/-- FETCH_RESULT (R361). -/
def execFetchResult (t : Nat) (h : Fin 136) (s : State) : Host.Outcome State Fault Refusal :=
  let s := s.atTime t
  finish (match (s.hall h.val).fetches with
    | [] => s
    | (q, off) :: rest =>
      let data := leWords 16 (s.memRead off 64)
      let s := s.modHall h.val fun x => { x with fetches := rest }
      let s := s.entered h.val fun n => .fetch n q data
      s.enterRing h.val q data)

/-- ROUTE_FLIT_RELEASE (R105): the held flits of a flow are injected once none of its old route is on its way; those of a flow to memory
are written. -/
def execRouteFlitRelease (t : Nat) (h : Fin 136) (f : Fin 16) (s : State) : Host.Outcome State Fault Refusal :=
  let s := s.atTime t
  let mine := fun x : Flit => x.hall == h.val && x.flow == f.val
  finish (if s.flits.any fun x => mine x && !x.held then s
    else
      let toMemory := fun x : Flit => mine x && x.kind == 2
      let free := (s.flits.filter fun x => !toMemory x).map fun x => if mine x then { x with held := false } else x
      let s' := { s with flits := free }.modFlow h.val f.val fun x => { x with rerouted := false }
      s'.forEach (s.flits.filter toMemory) fun x s => s.memFlit h.val f.val x.data)

/-- A new route table is in force: flows whose record differs are marked (R105). -/
def State.routesChanged (s : State) (old : List Byte) : State :=
  let new := s.sectionBytes secRoutes
  s.forEach (List.range 136) fun h s =>
    s.forEach ((List.range 16).filter fun f => routeFlow old h f != routeFlow new h f) fun f s =>
      s.modFlow h f fun x => { x with rerouted := true }

/-! ### Events -/

/-- EVENT_ACCEPT (R344, R347). -/
def State.acceptEvent (s : State) (h : Nat) : State :=
  let x := s.hall h
  let ev := x.core.pending &&& x.core.enabled
  if s.hallLive h && x.waiting.isNone && x.acceptable then
    match firstIdx 16 ev.testBit with
    | some e =>
      let s := s.entered h fun n => .event n e
      s.modHall h fun x => { x with credit := none, core :=
        { x.core with epc := x.core.pc, pc := e, pending := withBit x.core.pending e false, evcause := e, shadow := true,
                      loopsAt := x.core.loops.length, returnsAt := x.core.returns.length } }
    | none => s
  else s

/-- EVENT_ACCEPT (R344). -/
def execEventAccept (t : Nat) (h : Fin 136) (s : State) : Host.Outcome State Fault Refusal := finish ((s.atTime t).acceptEvent h.val)

/-- HALL_TIMER (R342): array time is at the TIMER value. -/
def execHallTimer (t : Nat) (h : Fin 136) (s : State) : Host.Outcome State Fault Refusal :=
  let s := s.atTime t
  finish (if s.clock.started && (s.hall h.val).program.isSome && timeLo s.arrayNow == (s.core h.val).timer then s.raise h.val evTimer else s)

/-- DOORBELL (R342). -/
def execDoorbell (t : Nat) (h : Fin 136) (s : State) : Host.Outcome State Fault Refusal :=
  let s := s.atTime t
  finish (if (s.hall h.val).program.isSome then s.raise h.val evDoorbell else s)

/-! ### The host's access -/

/-- MBOX_IN takes the value and event 11 is raised (R348); a hall without a program takes no event (R319). -/
def State.mboxIn (s : State) (h : Nat) (v : Word) : State :=
  let s := s.setWord (Reg.HALL.MBOX_IN.word h).addr v
  s.when (s.hall h).program.isSome fun s => s.raise h evMbox

/-- MBOX_IN_WRITE (R348). -/
def execMboxInWrite (t : Nat) (ch : Channel) (h : Fin 136) (value : Word) (s : State) : Host.Outcome State Fault Refusal :=
  finish (s.hostCmd t ch.val (Reg.HALL.MBOX_IN.word h.val).addr fun s => s.mboxIn h.val value)

/-- DM_ADDR goes on by a word, modulo 64 KiB. -/
def State.dmNext (s : State) (h : Nat) : State := s.put (Reg.HALL.DM_ADDR.addr h) (s.get (Reg.HALL.DM_ADDR.addr h) + 1)

/-- The data-memory word at DM_ADDR. -/
def State.dmWord (s : State) (h : Nat) : Word := BitVec.ofNat 32 ((s.core h).load (4 * s.get (Reg.HALL.DM_ADDR.addr h)))

/-- A host write of DM_DATA (R368): taken in NO_PROGRAM and TRAP alone. -/
def State.dmWrite (s : State) (h : Nat) (v : Word) : State :=
  let st := (s.hall h).state
  let s := if st == hallNoProgram || st == hallTrapped then
      let a := 4 * s.get (Reg.HALL.DM_ADDR.addr h)
      s.modCore h fun c => c.store a v.toNat
    else s.put (Reg.HALL.STATUS.dm_write_lost h) 1
  s.dmNext h

/-- DM_DATA_ACCESS (R368). -/
def execDmDataAccess (t : Nat) (ch : Channel) (h : Fin 136) (value : Option Word) (s : State) : Host.Outcome State Fault Refusal :=
  let a := (Reg.HALL.DM_DATA.word h.val).addr
  finish (s.hostCmd t ch.val a fun s => match value with
    | some v => s.dmWrite h.val v
    | none => (s.emit (.readData ch.val a (s.dmWord h.val))).dmNext h.val)

/-! ### The registers the host reads -/

/-- HALL[h].PC, EVENTS, CORR_STATUS. -/
def State.hallPc (s : State) (h : Nat) : Nat := (s.core h).epc * 2 ^ 16 + (s.core h).pc
def State.hallEvents (s : State) (h : Nat) : Nat := (s.core h).enabled * 2 ^ 16 + (s.core h).pending
def State.hallCorr (s : State) (h : Nat) : Nat := match (s.hall h).credit with
  | some f => 2 ^ f
  | none => 0

/-- What a HALL register at offset `o` of hall `h` shows beside its stored fields. -/
def State.hallView (s : State) (h o : Nat) : Option Nat :=
  if o = 0x000 then some (s.hallStatus h + s.get (Reg.HALL.STATUS.dm_write_lost h) * 2 ^ 13)
  else if 136 ≤ h then some 0
  else if o = 0x004 then some (s.hallPc h)
  else if o = 0x00C then some (s.hallEvents h)
  else if o = 0x01C then some (s.dmWord h).toNat
  else if o = 0x020 then some ((s.hall h).retired % 2 ^ 32)
  else if o = 0x024 then some ((s.hall h).retired / 2 ^ 32)
  else if o = 0x02C then some (s.hallCorr h)
  else none

/-- The checkpoint of every hall at a committed boundary of the timing carrier (R352). -/
def State.hallCheckpoints (s : State) : State :=
  { s with halls := s.halls.map fun x =>
      if x.program.isSome then { x with check := x.core, inputs := [], sent := [] } else x }

end Sys2Proof.Machine
end

