-- ==== Sys2Proof/Machine/Apply.lean ====
section
/-!
DEFINITION. How a committed transaction takes effect (R512, R513): each staged register with what it brings about, live replacement
(R102 to R107), and the boundaries at which effects fall (R39, R106, R119, R179, R184, R234, R249).
-/

namespace Sys2Proof.Machine

open Sys2Proof

/-! ### Carriers of a plan (R106, R250) -/

/-- Two records count symbols alike. -/
def CarrierRec.sameNumerology (a b : CarrierRec) : Bool := a.spacing == b.spacing && a.ecp == b.ecp

/-- A carrier begins under a new record with no weights and no layer map. -/
def State.clearBeam (s : State) (c : Nat) : State :=
  { s with beam := { s.beam with sets := s.beam.sets.set c (WeightSet.empty, WeightSet.empty),
                                 maps := s.beam.maps.set c { dl := [], ul := [] },
                                 mapsDue := s.beam.mapsDue.filter fun e => e.1 != c,
                                 epochs := s.beam.epochs.set c none,
                                 chans := s.beam.chans.filter fun e => e.2.carrier != c,
                                 lastEpoch := s.beam.lastEpoch.set c none } }

/-- One carrier of a live plan change at commit boundary `a` (R106): added, removed, changed, or left undisturbed. A record that keeps its
numerology replaces the old one at one boundary; another stops the carrier first. -/
def State.replanCarrier (s : State) (c a : Nat) (old new : CarrierRec) : State :=
  if old == new then s
  else if !new.enable then (if old.enable then s.decideStop c a none else s)
  else if !old.enable then s.dueStart c a new
  else if s.running c && old.sameNumerology new then s.modCar c fun x => { x with after := some (some new), since := a }
  else s.decideStop c a (some new)

/-- A change of composite centre waits for its boundary (R154). -/
def State.replanBanks (s : State) (old new : List Byte) : State :=
  s.forEach (List.range 2) fun b s =>
    if planCentre old b = planCentre new b then s else s.modBank b fun x => { x with retune := some (planCentre new b) }

/-- A new carrier plan (R106, R154, R250). -/
def State.replan (s : State) (a : Nat) (old new : List Byte) : State :=
  let s := (s.replanBanks old new).forEach (List.range 8) fun c s => s.replanCarrier c a (planCarrier old c) (planCarrier new c)
  s.forEach (List.range 8) fun c s => (s.showForm c).showLatency c

/-! ### Paths of a plan -/

/-- The paths that the plan enables leave DISABLED, the others enter it. -/
def State.pathPlan (s : State) : State :=
  (s.forEach (List.range 64) fun p s =>
    if s.pathState p == pathRetired then s
    else if !s.pathEnabled p then s.put (Reg.PATH.STATUS.state p) pathDisabled
    else if s.pathState p == pathDisabled then (s.put (Reg.PATH.STATUS.state p) pathOut).applyService p (s.flag (Reg.PATH.CTL.service p))
    else s).showRenorm

/-! ### Static partner entries (R394) -/

/-- The fields of static entry `i` of a partner policy: MAC (first byte most significant as in `State.fhMac`: DESIGN CHOICE, log entry 69), tag
and VID, first and last eAxC, home and alternate port. -/
def policyMac (bs : List Byte) (i : Nat) : Nat := beNat (slice bs (0x10 + 16 * i) 6)
def policyTag (bs : List Byte) (i : Nat) : Nat := leAt bs (0x16 + 16 * i) 2 % 8192
def policyFirst (bs : List Byte) (i : Nat) : Nat := leAt bs (0x18 + 16 * i) 2
def policyLast (bs : List Byte) (i : Nat) : Nat := leAt bs (0x1A + 16 * i) 2

/-- Does a static entry overlap an earlier one? -/
def policyOverlaps (bs : List Byte) (i : Nat) : Bool :=
  (List.range i).any fun j => policyFirst bs i ≤ policyLast bs j && policyFirst bs j ≤ policyLast bs i

/-- The static entries of the partner policy enter the table; one that overlaps an earlier one is named by an event record. -/
def State.loadPartners (s : State) : State :=
  let bs := s.policy
  s.forEach (List.range (min 64 (leAt bs 2 2))) fun i s =>
    if policyOverlaps bs i then s.record { kind := .event, unit := unitFronthaul, inst := i, detail := policyMac bs i % 2 ^ 32 }
    else
      let s := s.put (Reg.FRONTHAUL.PT_MAC_LO.word i) (policyMac bs i % 2 ^ 32)
      let s := s.put (Reg.FRONTHAUL.PT_MAC_HI.word i) (policyTag bs i * 2 ^ 16 + policyMac bs i / 2 ^ 32)
      let s := (s.put (Reg.FRONTHAUL.PT_EAXC.first i) (policyFirst bs i)).put (Reg.FRONTHAUL.PT_EAXC.last i) (policyLast bs i)
      let s := (s.put (Reg.FRONTHAUL.PT_CTL.home i) (leAt bs (0x1C + 16 * i) 1)).put (Reg.FRONTHAUL.PT_CTL.alt i) (leAt bs (0x1D + 16 * i) 1)
      (s.put (Reg.FRONTHAUL.PT_CTL.valid i) 1).ptBegin i ptActive

/-! ### Live replacement (R102 to R107) -/

/-- The running serial and digest show what runs. -/
def State.showRunning (s : State) : State :=
  match s.image.running with
  | some r =>
    (s.put Reg.IMAGE.RUN_SERIAL.word r.serial).forEach (List.range 12) fun k s =>
      s.put (Reg.IMAGE.DIGEST.word k) (leAt r.digest (4 * k) 4)
  | none => (s.put Reg.IMAGE.RUN_SERIAL.word 0).forEach (List.range 12) fun k s => s.put (Reg.IMAGE.DIGEST.word k) 0

/-- One replaced section takes effect; `was` is the section that it replaces. -/
def State.liveSection (s : State) (a : Nat) (x : Section) (was : List Byte) : State :=
  if x.type = secHall then s.replaceHall x.inst x.bytes
  else if x.type = secRoutes then s.routesChanged was
  else if x.type = secPaths then (s.neighboursChanged was x.bytes).pathPlan.banksFollow
  else if x.type = secCarriers then s.replan a was x.bytes
  else if x.type = secPartner then s.loadPartners
  else s

/-- The sections of a partial image take effect at array time `a`: the running serial and digest follow (R102, R107). -/
def State.applyLive (s : State) (a : Nat) (p : Partial) : State :=
  match s.image.running with
  | none => s
  | some r =>
    let new : Running := { serial := p.serial, digest := sha384 (r.digest ++ p.digest), sections := replaceSections r.sections p.sections,
                           live := true }
    let s := { s with image := { s.image with running := some new, ready := none } }
    let s := (s.put Reg.IMAGE.STATUS.partial_ready 0).showRunning
    s.forEach p.sections fun x s => s.liveSection a x (((sectionOf r.sections x.type x.inst).map fun y => y.bytes).getD [])

/-! ### Staged registers (R7, R512) -/

/-- The stored word once the staged fields of a written word are in force. -/
def State.stagedWord (s : State) (a : Nat) (v : Word) : Word :=
  let old := s.word a
  s.legal s.hasParent (fun c => (s.planRec c).width) a old ((fieldsAt a).foldl (stagedField v) old)

/-- The host has committed corrections: those that OTA staged are in force (R495). -/
def State.stagedTaken (s : State) : State :=
  if s.flag Reg.OTA.STATUS.staged then (s.otaInForce s.ota.newTotal).put Reg.OTA.STATUS.staged 0 else s

/-- What follows from the new value of a staged register. -/
def State.stagedFollow (s : State) (a : Nat) : State :=
  let o := a % 0x1000
  if 0x100000 ≤ a && a < 0x140000 then
    let p := (a - 0x100000) / 0x1000
    if o = 0x000 then (s.applyService p (s.flag (Reg.PATH.CTL.service p))).showRenorm
    else s
  else if 0x180000 ≤ a && a < 0x1C0000 && o = 0 then
    let p := (a - 0x180000) / 0x1000
    s.switchDpd p (s.get (Reg.PIPE.DPD_CTL.bank p))
  else if 0x200000 ≤ a && a < 0x208000 && (o = 0x100 || o = 0x104) then s.showSrs
  else if a = 0x280008 then s.setValid (s.get Reg.BEAM.VALIDATE.first) (s.get Reg.BEAM.VALIDATE.count) true
  else if a = 0x28000C then s.setValid (s.get Reg.BEAM.INVALIDATE.first) (s.get Reg.BEAM.INVALIDATE.count) false
  else if 0x280400 ≤ a && a < 0x280600 then s.stagedTaken
  else if 0x401000 ≤ a && a < 0x401800 then s.ptFollow ((a - 0x401000) / 0x20)
  else s

/-- A staged register takes effect. -/
def State.applyReg (s : State) (a : Nat) (v : Word) : State := (s.setWord a (s.stagedWord a v)).stagedFollow a

/-- One effect takes effect; `a` is the commit boundary. -/
def State.applyEffect (s : State) (a : Nat) : Effect → State
  | .reg addr v => s.applyReg addr v
  | .window off bytes => s.commitEntry off bytes
  | .live p => s.applyLive a p
  | .exclude _ => s
  | .pathOut p => ((s.put (Reg.PATH.CTL.service p) 0).applyService p false).showRenorm
  | .dpdBank p bank => s.switchDpd p bank
  | .dpdRound g => s.dpdCommitted g
  | .dpdBack g => s.dpdReturned g
  | .weights c set => s.switchWeights c set
  | .ota total => (s.otaInForce total).otaEnd 0

/-- The effects of staged entries, in the order in which they take effect at one boundary: a live replacement first, invalidation last
(R290). -/
def stagedEffects (live : Option Partial) (l : List Staged) : List Effect :=
  let all := l.map fun
    | .reg a v => Effect.reg a v
    | .window o bs => Effect.window o bs
  let last := fun (e : Effect) => match e with
    | .reg a _ => a == 0x28000C
    | _ => false
  (match live with | some p => [Effect.live p] | none => []) ++ all.filter (fun e => !last e) ++ all.filter last

/-! ### The latch (R512) -/

/-- A latched local transaction reads COMMITTED, while its slot still holds it. -/
def State.latchSlot (s : State) (n id : Nat) : State :=
  s.modSlot n fun x => if x.id = id && x.state = 2 then { x with state := 3 } else x

/-- The latch of every decided transaction whose boundary lies at most 1 µs ahead, in commit order (R512, R525). -/
def State.latchDue (s : State) : State :=
  let due := s.txn.commits.filter fun x => !x.latched && x.decided && x.time ≤ s.arrayNow + ticksOfUs 1
  let s := s.forEach due fun x s =>
    let s := s.put Reg.TXN.LAST_COMMIT.word x.id
    match x.slot with
    | some n => s.latchSlot n x.id
    | none => s
  { s with txn := { s.txn with commits := s.txn.commits.map fun x => if due.contains x then { x with latched := true } else x } }

/-! ### Effects at a boundary (R512, R513) -/

/-- Does an effect fall at a boundary of carrier `bc`, or at a planning-slot boundary where `bc` is none? A carrier that processes no
symbols takes its effects at once. -/
def State.falls (s : State) (bc : Option Nat) (e : Effect) : Bool :=
  match e.place with
  | .carrier c => bc == some c || !s.carActive c
  | .update => bc == s.timing
  | .each => false
  | .everywhere => true

/-- The configuration epoch of a carrier advances (R47, R512). -/
def State.bumpEpoch (s : State) (c : Nat) : State :=
  let s := s.modCar c fun x => { x with epoch := x.epoch + 1 }
  s.put (Reg.CARRIER.STATUS.epoch c) (s.car c).epoch

/-- The exclusion of a path reaches a carrier; once every carrier has taken it, the retirement is recorded (R179, R180). -/
def State.excludeOn (s : State) (bc : Option Nat) (p : Nat) : State × Bool :=
  let s := match bc with
    | some c => s.modPath p fun x => { x with excluded := if x.excluded.contains c then x.excluded else x.excluded ++ [c] }
    | none => s
  if s.activeCarriers.all fun c => (s.path p).excluded.contains c then
    let at0 := (s.path p).failedAt.getD s.arrayNow
    let s := s.modPath p fun x => { x with failedAt := none }
    ((s.showRenorm).retireRecord p at0, true)
  else (s, false)

/-- The effects of one transaction that fall at a boundary take effect in order; the others are left. -/
def State.applyList (s : State) (bc : Option Nat) (a : Nat) : List Effect → State × List Effect
  | [] => (s, [])
  | e :: rest =>
    match e with
    | .exclude p =>
      let r := s.excludeOn bc p
      let q := r.1.applyList bc a rest
      (q.1, if r.2 then q.2 else e :: q.2)
    | _ =>
      if s.falls bc e then (s.applyEffect a e).applyList bc a rest
      else
        let q := s.applyList bc a rest
        (q.1, e :: q.2)

/-- One latched transaction at a boundary: its effects, and the epoch of the boundary's carrier. -/
def State.applyCommit (s : State) (bc : Option Nat) (x : Commit) : State × Commit :=
  if !x.latched || s.arrayNow < x.time then (s, x)
  else
    let first := x.effects.any fun e => s.falls bc e
    let r := s.applyList bc x.time x.effects
    let s := r.1
    let s := match bc with
      | some c => if x.touch.contains c && s.carActive c then s.bumpEpoch c else s
      | none => s
    let s := if first && bc == s.timing then s.raiseAll evCommit else s
    (s, { x with effects := r.2, touch := x.touch.filter fun c => some c != bc })

/-- Every latched transaction at a boundary, in commit order. -/
def State.applyAll (s : State) (bc : Option Nat) : List Commit → State × List Commit
  | [] => (s, [])
  | x :: rest =>
    let r := s.applyCommit bc x
    let q := r.1.applyAll bc rest
    (q.1, r.2 :: q.2)

/-- What is committed takes effect at a boundary of carrier `bc`, or at a planning-slot boundary (none). -/
def State.applyBoundary (s : State) (bc : Option Nat) : State :=
  let s := s.latchDue
  let r := s.applyAll bc s.txn.commits
  let s := r.1
  let new := s.txn.commits.filter fun x => !(r.2.any fun y => y.id == x.id)
  let left := r.2.filter fun x => !x.effects.isEmpty || !x.latched || x.touch.any s.carActive
  { s with txn := { s.txn with commits := new.foldl (fun l x => insertCommit x l) left } }

/-- The patterns and the replay reserve in force on a carrier follow their registers at its slot boundaries (R39, R249). -/
def State.followSlot (s : State) (c n : Nat) : State :=
  let r := s.form c
  if !r.isSlotStart n then s
  else
    let want := s.patternWord r
    let x := s.car c
    let s := if want != x.pattern && r.slotOf n % max 1 ((patternOf want).slots r) == 0 then
        (s.modCar c fun x => { x with pattern := want }).bumpEpoch c
      else s
    let reserve := s.get Reg.RECOVERY.RESERVE.reserve
    if reserve != x.reserve then (s.modCar c fun x => { x with reserve := reserve }).bumpEpoch c else s

end Sys2Proof.Machine
end

