-- ==== Sys2Proof/Machine/TxnCheck.lean ====
section
/-!
DEFINITION. What a prepare checks (R99 to R101, R226, R248, R293, R382, R394, R496, R509 to R511), and the staging of writes (R504 to R508).
-/

namespace Sys2Proof.Machine

open Sys2Proof

/-! ### Slot states, causes, results -/

/-- The states of SLOT_STATUS. -/
def txFree : Nat := 0
def txOpen : Nat := 1
def txPrepared : Nat := 2
def txCommitted : Nat := 3
def txAborted : Nat := 4
def txTooLate : Nat := 5

/-- The causes of SLOT_STATUS. -/
def causeHost : Nat := 0x01
def causeLimit : Nat := 0x02
def causeNear : Nat := 0x03
def causePast : Nat := 0x04
def causeCarrier : Nat := 0x05
def causeCapacity : Nat := 0x06
def causeValue : Nat := 0x07
def causeOwned : Nat := 0x08
def causeLive : Nat := 0x09
def causeLoad : Nat := 0x0A
def causeSession : Nat := 0x0B
def causePower : Nat := 0x0C
def causePeer : Nat := 0x0D
def causeTimeout : Nat := 0x0E
def causeTop : Nat := 0x0F
def causeNotHeld : Nat := 0x10

/-- The results of CH_STATUS. -/
def resultOk : Nat := 0
def resultNoSlot : Nat := 1
def resultNotOwner : Nat := 2
def resultState : Nat := 3
def resultCommand : Nat := 4
def resultTree : Nat := 5

/-- Is the state final? -/
def TxnSlot.final (x : TxnSlot) : Bool := x.state == txCommitted || x.state == txAborted || x.state == txTooLate

/-- Bytes staged (R506). -/
def Staged.bytes : Staged → Nat
  | .reg _ _ => 4
  | .window _ bs => bs.length

/-- SLOT_STATUS and the other registers of a slot, by their offset in its block of 0x20. -/
def TxnSlot.view (x : TxnSlot) (o : Nat) : Option Nat :=
  if o = 0x04 then
    some (x.state * 2 ^ 28 + x.cause % 256 * 2 ^ 20 + b2n x.array * 2 ^ 19 + b2n x.inDoubt * 2 ^ 18 + b2n x.abortPending * 2 ^ 17 +
          b2n x.preparing * 2 ^ 16 + x.owner * 2 ^ 12 + b2n x.poisoned * 2 ^ 11)
  else if o = 0x08 then some x.id
  else if o = 0x0C then some (sumNat (x.staged.map Staged.bytes) * 2 ^ 13 + x.staged.length)
  else if o = 0x10 then some x.refuse
  else if o = 0x14 then some (timeLo x.time)
  else if o = 0x18 then some (timeHi x.time)
  else if o = 0x1C then some (x.peerCause * 2 ^ 24 + x.peer)
  else none

/-! ### Staging (R504 to R508) -/

/-- The value that a transaction stages for a register. -/
def stagedAt (l : List Staged) (a : Nat) : Option Word :=
  l.findSome? fun
    | .reg b v => if b = a then some v else none
    | .window _ _ => none

/-- The staged entries with one more: a register replaces the earlier entry of its address (R504). -/
def addStaged (l : List Staged) (x : Staged) : List Staged :=
  match x with
  | .reg a _ => if (stagedAt l a).isSome then l.map fun
      | .reg b v => if b = a then x else .reg b v
      | y => y
    else l ++ [x]
  | .window _ _ => l ++ [x]

/-- Does a transaction other than that of slot `n`, neither final nor free, hold the partial image of a serial (R99)? -/
def State.claimed (s : State) (n serial : Nat) : Bool :=
  (List.range s.txn.slots.length).any fun m =>
    let x := s.slot m
    m != n && x.claim == some serial && x.state != txFree && !x.final

/-- An RWS write is discarded (R505). -/
def State.rwsLost (s : State) (ch : Nat) (closed : Bool) : State :=
  (s.modChan ch fun x => { x with rwsLost := true, closed := x.closed || closed }).bump Reg.TXN.RWS_LOST.word

/-- The partial image that slot `n` holds once it stages an entry: a write of LIVE_APPLY names another, which it holds where no transaction
that is open has it (R99). -/
def State.claimOf (s : State) (n : Nat) (x : Staged) (was : Option Nat) : Option Nat :=
  match x with
  | .reg a v =>
    if a = Reg.IMAGE.LIVE_APPLY.word.addr then (if s.claimed n v.toNat then none else some v.toNat) else was
  | .window _ _ => was

/-- Stage an entry in the transaction to which a channel is bound (R504 to R507). -/
def State.stage (s : State) (ch : Nat) (x : Staged) : State :=
  let c := s.chan ch
  if !c.bound then s.rwsLost ch false
  else
    let n := c.bindSlot
    let t := s.slot n
    if t.state != txOpen || t.preparing then s.rwsLost ch true
    else
      let l := addStaged t.staged x
      if 4096 < l.length || 262144 < sumNat (l.map Staged.bytes) then
        (s.modSlot n fun t => { t with poisoned := true }).modChan ch fun c => { c with limit := true }
      else
        let claim := s.claimOf n x t.claim
        s.modSlot n fun t => { t with staged := l, claim := claim }

/-- Does an open transaction hold a staged write to entry `e` of the beam table (R289)? -/
def State.entryStaged (s : State) (e : Nat) : Bool :=
  s.txn.slots.any fun t => (t.state == txOpen || t.state == txPrepared) && t.staged.any fun
    | .window off bytes => (s.entriesAt off bytes.length).contains e
    | .reg _ _ => false

/-! ### The configuration that would result -/

/-- The serial that a transaction's live apply names (R99). -/
def liveSerial (l : List Staged) : Option Nat := (stagedAt l Reg.IMAGE.LIVE_APPLY.word.addr).map fun w => w.toNat

/-- The partial image that a live apply would take: the verified one, where its serial agrees. -/
def State.livePartial (s : State) (l : List Staged) : Option Partial :=
  match liveSerial l, s.image.ready with
  | some n, some p => if p.serial = n then some p else none
  | _, _ => none

/-- The sections that would run. -/
def State.resultSections (s : State) (l : List Staged) : List Section :=
  let now := (s.image.running.map fun r => r.sections).getD []
  match s.livePartial l with
  | some p => replaceSections now p.sections
  | none => now

/-- A register as staged, or in force. -/
def State.resultWord (s : State) (l : List Staged) (a : Nat) : Word :=
  match stagedAt l a with
  | some v => s.stagedWord a v
  | none => s.word a

/-- The address of CARRIER.TDD_PATk. -/
def patAddr (k : Nat) : Nat := (Reg.CARRIER.TDD_PAT.word (k - 1)).addr

/-- A field of a word. -/
def fieldOf (f : Fld) (w : Word) : Nat := getBits w f.lo f.width

/-- Do two partner entries that would both be valid overlap, one of them entry `n` (R394)? -/
def State.partnerClash (s : State) (l : List Staged) (n : Nat) : Bool :=
  let valid := fun i => fieldOf (Reg.FRONTHAUL.PT_CTL.valid 0) (s.resultWord l (Reg.FRONTHAUL.PT_CTL.word i).addr) == 1
  let first := fun i => fieldOf (Reg.FRONTHAUL.PT_EAXC.first 0) (s.resultWord l (Reg.FRONTHAUL.PT_EAXC.word i).addr)
  let last := fun i => fieldOf (Reg.FRONTHAUL.PT_EAXC.last 0) (s.resultWord l (Reg.FRONTHAUL.PT_EAXC.word i).addr)
  valid n && (List.range 64).any fun i => i != n && valid i && first i ≤ last n && first n ≤ last i

/-- Does the value of a staged register break its own rule (R510)? -/
def State.valueBad (s : State) (l : List Staged) (a : Nat) : Bool :=
  let w := s.resultWord l a
  if patAddr 1 ≤ a && a ≤ patAddr 15 then
    let k := (a - patAddr 1) / 4 + 1
    8 ≤ (patternOf w).period ||
      (planCarriers (((sectionOf (s.resultSections l) secCarriers 0).map fun x => x.bytes).getD [])).any fun e =>
        e.2.tdd == k && !(patternOf w).valid e.2
  else if 0x289000 ≤ a && a < 0x28A000 then
    let c := fieldOf (Reg.SOLVER.SRC.carrier 0) w
    let k := combOf (s.resultWord l (Reg.CARRIER.SRS_CTL.word c).addr)
    29 < fieldOf (Reg.SOLVER.SRC.group 0) w || ncsMax k ≤ fieldOf (Reg.SOLVER.SRC.n_cs 0) w
  else if a = Reg.FRONTHAUL.EAXC_MAP.word.addr then
    fieldOf Reg.FRONTHAUL.EAXC_MAP.du_bits w + fieldOf Reg.FRONTHAUL.EAXC_MAP.bs_bits w + fieldOf Reg.FRONTHAUL.EAXC_MAP.cc_bits w +
      fieldOf Reg.FRONTHAUL.EAXC_MAP.ru_bits w != 16
  else if 0x401000 ≤ a && a < 0x401800 then s.partnerClash l ((a - 0x401000) / 0x20)
  else false

/-- Does a staged register belong to a function in AUTO mode (R226, R496)? -/
def State.owned (s : State) (a : Nat) : Bool :=
  if 0x180000 ≤ a && a < 0x1C0000 && a % 0x1000 = 0 then s.dpdGoverns (groupOf ((a - 0x180000) / 0x1000)) == dpdAuto
  else 0x280400 ≤ a && a < 0x280600 && s.get Reg.OTA.CTL.mode == 1

/-- The address of the first staged register that a test holds for. -/
def firstStaged (l : List Staged) (bad : Nat → Bool) : Option Nat :=
  l.findSome? fun
    | .reg a _ => if bad a then some a else none
    | .window _ _ => none

/-- The pattern that the resulting plan would leave an enabled carrier with, where it is invalid. -/
def State.patternBad (s : State) (l : List Staged) : Option Nat :=
  (planCarriers (((sectionOf (s.resultSections l) secCarriers 0).map fun x => x.bytes).getD [])).findSome? fun e =>
    if e.2.tdd != 0 && !(patternOf (s.resultWord l (patAddr e.2.tdd))).valid e.2 then some (patAddr e.2.tdd) else none

/-- Install time in ticks: 50 µs plus 1 µs per KiB, or part of one, of section content (R101). -/
def installTicks (p : Partial) : Nat := ticksOfUs (50 + ceilDiv (sumNat (p.sections.map fun x => x.bytes.length)) 1024)

/-- Is a hall program that would be replaced, or its successor, larger than a bank (R103)? -/
def State.bankBad (s : State) (p : Partial) : Bool :=
  p.sections.any fun x => x.type == secHall && (8192 < progLen x.bytes || match s.section? secHall x.inst with
    | some old => 8192 < progLen old
    | none => false)

/-- The image code with which the live-apply checks of slot `n` refuse (R99 to R101), 0 for none. -/
def State.liveCode (s : State) (n time asked : Nat) (l : List Staged) : Nat :=
  match liveSerial l with
  | none => 0
  | some serial =>
    match s.livePartial l with
    | none => codeNotReady
    | some p =>
      if s.claimed n serial then codeClaimed
      else if s.bankBad p then codeBank
      else if time < asked + installTicks p then codeLiveTime
      else 0

/-! ### The checks of R510 -/

/-- The outcome of a prepare's checks: cause, address for SLOT_REFUSE, image code; cause 0 for a pass. -/
structure Verdict where
  cause : Nat
  refuse : Nat
  code : Nat

/-- The checks on the staged writes: OWNED, VALUE, CAPACITY, LIVE (R510, R511). -/
def State.checkStaged (s : State) (n time asked : Nat) (l : List Staged) : Verdict :=
  let value := match firstStaged l (s.valueBad l) with
    | some a => some a
    | none => s.patternBad l
  match firstStaged l s.owned, value with
  | some a, _ => ⟨causeOwned, a, 0⟩
  | none, some a => ⟨causeValue, a, 0⟩
  | none, none =>
    if (s.livePartial l).isSome && !planCapacityOk (s.resultSections l) (splitOf fun a => (s.word a).toNat) then
      ⟨causeCapacity, Reg.IMAGE.LIVE_APPLY.word.addr, 0⟩
    else
      let code := s.liveCode n time asked l
      if code = 0 then ⟨0, 0, 0⟩ else ⟨causeLive, 0, code⟩

/-- A commit point in the layout of SLOT_CTL (R509). -/
structure Point where
  next : Bool
  carrier : Nat
  sfn : Nat
  slot : Nat
  sym : Nat

/-- The fields of a commit point. -/
def pointOf (w : Word) : Point :=
  { next := getBits w 31 1 == 1, carrier := getBits w 28 3, sfn := getBits w 18 10, slot := getBits w 11 7, sym := getBits w 7 4 }

/-- The array-time instant to which a commit point resolves now; none where a named point never occurs (R509). -/
def State.resolvePoint (s : State) (p : Point) : Option Nat :=
  if p.next then some (s.resolveNext p.carrier) else (s.form p.carrier).nextNamed s.arrayNow p.sfn p.slot p.sym

/-- The checks on the commit point: CARRIER, PAST, NEAR (R510); the resolved instant and the cause, 0 for a pass. `margin` is the least
distance of the decision, or of T, from the request. -/
def State.checkPoint (s : State) (p : Point) (guard margin : Nat) : Nat × Nat :=
  if !p.next && !s.running p.carrier then (0, causeCarrier)
  else match s.resolvePoint p with
    | none => (0, causePast)
    | some time =>
      if s.arrayNow + 512 * ticksOfMs 10 < time then (time, causePast)
      else if time < s.arrayNow + guard + margin then (time, causeNear)
      else (time, 0)

end Sys2Proof.Machine
end

