-- ==== Sys2Proof/Machine/Txn.lean ====
section
/-!
DEFINITION. Transactions (R500 to R530): the commands of TXN.CMD, local and array-wide prepares, votes and decisions, landings in doubt.
-/

namespace Sys2Proof.Machine

open Sys2Proof

/-! ### What every command uses -/

/-- A command of a channel has completed (R519). -/
def State.txnDone (s : State) (ch result : Nat) : State :=
  s.modChan ch fun c => { c with result := result, busy := false, done := true }

/-- A command of a channel waits for its outcome. -/
def State.txnBusy (s : State) (ch : Nat) : State := s.modChan ch fun c => { c with busy := true }

/-- Bind a channel to a slot. -/
def State.bindTo (s : State) (ch n : Nat) : State := s.modChan ch fun c => { c with bound := true, bindSlot := n, slot := n }

/-- Replace a slot. -/
def State.setSlot (s : State) (n : Nat) (x : TxnSlot) : State := s.modSlot n fun _ => x

/-- A transaction's commit leaves the list. -/
def State.dropCommit (s : State) (id : Nat) : State :=
  { s with txn := { s.txn with commits := s.txn.commits.filter fun x => x.latched || x.id != id } }

/-- A slot becomes ABORTED; its staged values are discarded (R515). -/
def State.abortSlot (s : State) (n cause : Nat) : State :=
  let s := (s.dropCommit (s.slot n).id).disarm (.livePrepare n)
  s.modSlot n fun x => { x with state := txAborted, cause := cause, staged := [], live := none, preparing := false, inDoubt := false }

/-- The effects that a slot holds: what its host staged, or the internal part (R512, R530). -/
def TxnSlot.effects (x : TxnSlot) : List Effect := match x.part with
  | some l => l
  | none => stagedEffects x.live x.staged

/-- A slot's transaction is on its way to its boundary. -/
def State.addSlotCommit (s : State) (n time : Nat) (decided : Bool) : State :=
  let x := s.slot n
  s.addCommit { time := time, id := x.id, slot := some n, decided := decided, latched := false, effects := x.effects, touch := touched x.effects }

/-- A slot becomes PREPARED; the hall programs of a live apply are in their standby places (R100, R104). -/
def State.prepareSlot (s : State) (n : Nat) (decided : Bool) : State :=
  let s := s.modSlot n fun x => { x with state := txPrepared, preparing := false }
  let s := match (s.slot n).live with
    | some p => s.standby p
    | none => s
  s.addSlotCommit n (s.slot n).time decided

/-- A lowest-numbered slot of a range that is FREE. -/
def State.freeSlot (s : State) (lo n : Nat) : Option Nat :=
  ((List.range n).map fun i => lo + i).find? fun i => (s.slot i).state == txFree

/-! ### Opening (R502, R503) -/

/-- OPEN (R502, R573). -/
def State.txnOpen (s : State) (ch : Nat) : State :=
  if s.away then s.txnDone ch resultState
  else match s.freeSlot 0 16 with
  | none => s.txnDone ch resultNoSlot
  | some n =>
    let r := s.newTxnId
    ((r.2.setSlot n { TxnSlot.free with state := txOpen, owner := ch, id := r.1 }).bindTo ch n).txnDone ch resultOk

/-- A write of TXN.BIND (R503). -/
def State.txnBind (s : State) (ch : Nat) (v : Word) : State :=
  let n := getBits v 0 5
  let x := s.slot n
  if getBits v 5 1 = 0 then s.modChan ch fun c => { c with bound := false, bindSlot := n }
  else if n < 20 && x.state != txFree && (x.array || x.owner == ch) then s.modChan ch fun c => { c with bound := true, bindSlot := n }
  else s.modChan ch fun c => { c with bound := false, bindSlot := n, result := resultNotOwner }

/-! ### Local prepare (R510 to R512) -/

/-- The image code of a refused live apply shows. -/
def State.showLiveCode (s : State) (v : Verdict) : State := s.when (v.code != 0) fun s => s.put Reg.IMAGE.STATUS.code v.code

/-- The prepare of a local transaction (R510): its checks, then PREPARED, or with a live apply the copying of its sections. -/
def State.localPrepare (s : State) (ch n : Nat) : State :=
  let p := pointOf (s.word (Reg.TXN.SLOT_CTL.word n).addr)
  let at0 := s.arrayNow
  let s := s.modSlot n fun x => { x with asked := at0, carrier := p.carrier }
  let x := s.slot n
  let pt := s.checkPoint p 0 (ticksOfUs 2)
  if x.poisoned then (s.abortSlot n causeLimit).txnDone ch resultOk
  else if pt.2 != 0 then
    ((s.modSlot n fun x => { x with time := pt.1 }).abortSlot n pt.2).txnDone ch resultOk
  else
    let s := s.modSlot n fun x => { x with time := pt.1 }
    let v := s.checkStaged n pt.1 at0 x.staged
    if v.cause != 0 then
      (((s.modSlot n fun x => { x with refuse := v.refuse }).abortSlot n v.cause).showLiveCode v).txnDone ch resultOk
    else match s.livePartial x.staged with
      | some q =>
        ((s.modSlot n fun x => { x with live := some q, claim := some q.serial, preparing := true,
                                        waiters := [ch] }).txnBusy ch).arm (.livePrepare n) (s.now + installTicks q)
      | none => (s.prepareSlot n true).txnDone ch resultOk

/-- Tell every channel that waits for the outcome of a slot (R519). -/
def State.wakeWaiters (s : State) (n : Nat) : State :=
  let l := (s.slot n).waiters
  (s.modSlot n fun x => { x with waiters := [] }).forEach l fun ch s => s.txnDone ch resultOk

/-! ### Array-wide transactions: the top (R520 to R523) -/

/-- An ID of the top's array-wide counter: bit 31 set, the boot count in bits [30:16] (R500, R529). -/
def State.newArrayId (s : State) : Nat × State :=
  let n := s.txn.nextArray + 1
  (2 ^ 31 + s.keep.bootCount % 2 ^ 15 * 2 ^ 16 + n % 2 ^ 16, { s with txn := { s.txn with nextArray := n } })

/-- An array-wide transaction at the top. -/
def State.topTxn (s : State) (id : Nat) : Option TopTxn := s.txn.top.find? fun x => x.id == id
def State.modTop (s : State) (id : Nat) (f : TopTxn → TopTxn) : State :=
  { s with txn := { s.txn with top := s.txn.top.map fun x => if x.id == id then f x else x } }

/-- The slot that holds an array-wide transaction here. -/
def State.slotOf (s : State) (id : Nat) : Option Nat :=
  (List.range s.txn.slots.length).find? fun n => (s.slot n).array && (s.slot n).state != txFree && (s.slot n).id == id

/-! ### Announcing (R520) -/

/-- This landing holds an announced transaction in the slot named, unless an undecided one is there (R520). An internal part that was
staged before stays (R530). -/
def State.holdAnnounced (s : State) (id n origin tag : Nat) : State :=
  let x := s.slot n
  if x.state == txPrepared || (x.state == txOpen && x.asking) then s
  else s.setSlot n { TxnSlot.free with state := txOpen, array := true, id := id, origin := origin, tag := tag, part := x.part }

/-- The requesting channel of a tag learns the result (R520). -/
def State.openAnswered (s : State) (tag n result : Nat) : State :=
  match assoc? s.txn.openWait tag with
  | none => s
  | some ch =>
    let s := { s with txn := { s.txn with openWait := assocErase s.txn.openWait tag } }
    if result != 0 then s.txnDone ch resultNoSlot
    else ((s.modSlot n fun x => { x with owner := ch }).bindTo ch n).txnDone ch resultOk

/-- ANNOUNCE at a landing: forwarded down, then held (R520). -/
def State.announced (s : State) (id n origin tag result : Nat) : State :=
  let s := s.sendDown (.txn (.announce id n origin tag result))
  let s := if result = 0 then s.holdAnnounced id n origin tag else s
  if origin = s.landing && n < 20 then s.openAnswered tag n result else s

/-- OPEN_REQ at the top: the lowest slot from 16 to 19 that no undecided transaction holds (R520). -/
def State.topOpen (s : State) (landing tag : Nat) : State :=
  let taken := fun n => s.txn.top.any fun x => x.slot == n && x.decision.isNone
  match [16, 17, 18, 19].find? fun n => !taken n with
  | none => s.announced 0 0 landing tag resultNoSlot
  | some n =>
    let r := s.newArrayId
    let t : TopTxn := { id := r.1, slot := n, prepared := false, time := 0, decideAt := 0, decision := none }
    let s := { r.2 with txn := { r.2.txn with top := (r.2.txn.top.filter fun (x : TopTxn) => x.slot != n) ++ [t] } }
    s.announced r.1 n landing tag 0

/-- OPEN_ARRAY (R520, R573). -/
def State.txnOpenArray (s : State) (ch : Nat) : State :=
  if s.away then s.txnDone ch resultState
  else if s.treeState != treeFormed then s.txnDone ch resultTree
  else
    let tag := s.txn.nextTag % 2 ^ 16
    let s := { s with txn := { s.txn with nextTag := s.txn.nextTag + 1, openWait := s.txn.openWait ++ [(tag, ch)] } }
    let s := s.txnBusy ch
    if s.isTop then s.topOpen s.landing tag else s.sendUp (.txn (.openReq s.landing tag))

/-! ### Decisions (R523 to R527) -/

/-- Keep the outcome of an array-wide transaction (R525). -/
def State.keepOutcome (s : State) (id : Nat) (commit : Bool) : State :=
  { s with txn := { s.txn with outcomes := ((id, if commit then txCommitted else txAborted) :: s.txn.outcomes).take 4 } }

/-- An internal array-wide transaction has ended without committing: the epoch is late, or the OTA round ends (R303, R494). -/
def State.internalLost (s : State) (n : Nat) : State :=
  if 20 ≤ n && n < 28 then
    match s.beam.epochs.getD (n - 20) none with
    | some e => s.epochLate (n - 20) e.slot
    | none => s
  else s.otaEnd 6

/-- A decision reaches the slot that holds the transaction: COMMITTED or TOO_LATE, or ABORTED with its cause; a landing named refuses
(PEER) (R522 to R525). -/
def State.decideSlot (s : State) (n : Nat) (commit : Bool) (cause landing : Nat) : State :=
  let x := s.slot n
  let s := s.keepOutcome x.id commit
  let s := if commit then
      let s := { s with txn := { s.txn with commits := s.txn.commits.map fun (y : Commit) => if y.id == x.id then { y with decided := true } else y } }
      s.modSlot n fun x => { x with state := if x.aborters.isEmpty then txCommitted else txTooLate, abortPending := false, preparing := false }
    else
      let peer := landing != 0xFFFF
      let s := s.modSlot n fun x => { x with peerCause := if peer then cause else 0, peer := if peer then landing else 0x1FF }
      let s := (s.dropCommit x.id).disarm (.livePrepare n)
      s.modSlot n fun x => { x with state := txAborted, cause := if peer then causePeer else cause, staged := [], live := none, preparing := false,
                                    abortPending := false }
  let s := s.wakeWaiters n
  if n < 20 then s
  else
    let s := if commit then s else s.internalLost n
    s.setSlot n TxnSlot.free

/-- The first planning-slot boundary at least 1 ms from now (R527). -/
def State.inOneMs (s : State) : Nat := planningFrom (s.arrayNow + ticksOfMs 1)

/-- DECISION at a landing: forwarded down, answered to the ports that asked, and taken by the slot; an in-doubt landing applies it later
(R525 to R527). -/
def State.decided (s : State) (id : Nat) (commit : Bool) (cause landing : Nat) : State :=
  let m := StairMsg.txn (.decision id commit cause landing)
  let s := s.sendDown m
  match s.slotOf id with
  | none => s
  | some n =>
    let x := s.slot n
    let s := s.forEach (x.queries.filter fun p => !s.childPorts.contains p) fun p s => s.sendOn p m
    let s := s.modSlot n fun y => { y with queries := [] }
    if x.final || x.verdict.isSome then s
    else if x.inDoubt then
      let at0 := s.inOneMs
      (s.modSlot n fun y => { y with verdict := some (commit, cause, landing, at0) }).disarm (.query n)
    else s.decideSlot n commit cause landing

/-- The top records its decision and sends it (R523). -/
def State.topDecide (s : State) (id : Nat) (commit : Bool) (cause landing : Nat) : State :=
  match s.topTxn id with
  | none => s
  | some x =>
    if x.decision.isSome then s
    else ((s.modTop id fun y => { y with decision := some (commit, cause, landing) }).disarm (.decide x.slot)).decided id commit cause landing

/-! ### Votes (R522, R523) -/

/-- The YES votes of a landing's subtree. -/
def TxnSlot.yes (x : TxnSlot) : Nat := b2n x.ownYes + sumNat (x.childYes.map fun e => e.2)

/-- A vote that a landing holds goes up, or decides at the top: NO at once, YES when it and every child have voted YES. -/
def State.voteCheck (s : State) (n : Nat) : State :=
  let x := s.slot n
  match x.no with
  | some (landing, cause) =>
    if s.isTop then s.topDecide x.id false cause landing
    else (s.modSlot n fun y => { y with voted := 2 }).sendUp (.txn (.vote x.id 0 landing cause))
  | none =>
    if s.isTop then (if x.ownYes && x.yes == s.landingCount then s.topDecide x.id true 0 0xFFFF else s)
    else if x.voted = 0 && x.asking && x.ownYes && s.liveChildren.all fun p => (assoc? x.childYes p).isSome then
      (s.modSlot n fun y => { y with voted := 1 }).sendUp (.txn (.vote x.id x.yes 0xFFFF 0))
    else s

/-- A NO with the lowest landing number known. -/
def lowestNo (a : Option (Nat × Nat)) (landing cause : Nat) : Option (Nat × Nat) :=
  match a with
  | some y => if y.1 ≤ landing then some y else some (landing, cause)
  | none => some (landing, cause)

/-- This landing votes on a slot (R522). -/
def State.voteOwn (s : State) (n : Nat) (cause : Nat) : State :=
  if cause = 0 then ((s.prepareSlot n false).modSlot n fun x => { x with ownYes := true }).voteCheck n
  else
    let here := s.landing
    (s.modSlot n fun x => { x with no := lowestNo x.no here cause }).voteCheck n

/-- Is an array time a symbol boundary of this landing's carrier of a number (R522)? -/
def State.isOwnBoundary (s : State) (c a : Nat) : Bool :=
  if (s.planRec c).enable then (s.planRec c).isBoundary a else a % planningSlot == 0

/-- PREPARE at a landing: forwarded down; the landing checks and votes, with a live apply once its sections are copied, an internal
transaction once its part is staged (R522, R530). -/
def State.prepareArrived (s : State) (id time decide carrier : Nat) : State :=
  let s := s.sendDown (.txn (.prepare id time decide carrier))
  match s.slotOf id with
  | none =>
    if s.isTop then s.topDecide id false causeNotHeld s.landing
    else s.sendUp (.txn (.vote id 0 s.landing causeNotHeld))
  | some n =>
    let at0 := s.arrayNow
    let s := s.modSlot n fun x => { x with asking := true, preparing := true, asked := at0, time := time, decideAt := decide, carrier := carrier }
    let x := s.slot n
    if 20 ≤ n then (if x.part.isSome then s.voteOwn n (if s.isOwnBoundary carrier time then 0 else causeCarrier) else s)
    else if x.poisoned then s.voteOwn n causeLimit
    else if !s.isOwnBoundary carrier time then s.voteOwn n causeCarrier
    else
      let v := s.checkStaged n time at0 x.staged
      let s := (s.modSlot n fun x => { x with refuse := v.refuse }).showLiveCode v
      if v.cause != 0 then s.voteOwn n v.cause
      else match s.livePartial x.staged with
        | some q => (s.modSlot n fun x => { x with live := some q, claim := some q.serial }).arm (.livePrepare n) (s.now + installTicks q)
        | none => s.voteOwn n 0

/-- The copying of a live apply's sections ends (R100, R510): a load buffer that changed meanwhile refuses. -/
def State.livePrepared (s : State) (n : Nat) : State :=
  if !s.due (.livePrepare n) then s
  else
    let s := s.disarm (.livePrepare n)
    let x := s.slot n
    let ok := (s.livePartial x.staged).isSome
    let s := if ok then s else s.put Reg.IMAGE.STATUS.code codeNotReady
    if x.array then s.voteOwn n (if ok then 0 else causeLive)
    else ((if ok then s.prepareSlot n true else s.abortSlot n causeLive)).wakeWaiters n

/-- VOTE from a child: NO is passed on at once; YES votes are added, and one that comes after this landing's own is passed on by itself
(R522, R523). -/
def State.voted (s : State) (port id yes no cause : Nat) : State :=
  match s.slotOf id with
  | none => if s.isTop then (if no = 0xFFFF then s else s.topDecide id false cause no) else s.sendUp (.txn (.vote id yes no cause))
  | some n =>
    if no != 0xFFFF then (s.modSlot n fun x => { x with no := lowestNo x.no no cause }).voteCheck n
    else
      let x := s.slot n
      let s := s.modSlot n fun x => { x with childYes := assocSet x.childYes port ((assoc? x.childYes port).getD 0 + yes) }
      if x.voted = 1 then s.sendUp (.txn (.vote id yes 0xFFFF 0)) else if x.voted = 2 then s else s.voteCheck n

/-! ### Prepare and abort of an array-wide transaction (R521, R524) -/

/-- PREPARE_REQ: forwarded to the top, which resolves T and D, decides ABORT at once, or sends PREPARE (R521). -/
def State.prepareAsked (s : State) (id : Nat) (point : Word) : State :=
  if !s.isTop then s.sendUp (.txn (.prepareReq id point))
  else match s.topTxn id with
    | none => s
    | some x =>
      if x.prepared || x.decision.isSome then s
      else
        let p := pointOf point
        let guard := ticksOfUs (s.get Reg.TXN.ARRAY_CTL.guard)
        let r := s.checkPoint p guard (ticksOfNs (5000 + 1200 * s.get Reg.STAIR.TREE.formed_path))
        if r.2 != 0 then s.topDecide id false r.2 0xFFFF
        else
          let d := r.1 - guard
          let s := s.modTop id fun y => { y with prepared := true, time := r.1, decideAt := d }
          (s.arm (.decide x.slot) (s.instantOf d)).prepareArrived id r.1 d p.carrier

/-- At D without a decision the top decides ABORT with cause TIMEOUT (R523). -/
def State.decisionTimeout (s : State) (n : Nat) : State :=
  if !s.due (.decide n) then s
  else
    let s := s.disarm (.decide n)
    match s.txn.top.find? fun x => x.slot == n && x.decision.isNone with
    | some x => s.topDecide x.id false causeTimeout 0xFFFF
    | none => s

/-- ABORT_REQ: forwarded to the top, which decides ABORT with cause HOST where it has not decided (R524). -/
def State.abortAsked (s : State) (id landing : Nat) : State :=
  if s.isTop then s.topDecide id false causeHost 0xFFFF else s.sendUp (.txn (.abortReq id landing))

/-! ### TXN.CMD (R514 to R516) -/

/-- PREPARE (R510, R514, R521). -/
def State.txnPrepare (s : State) (ch n : Nat) : State :=
  let x := s.slot n
  if 19 < n then s.txnDone ch resultCommand
  else if x.state = txFree then s.txnDone ch resultState
  else if x.owner != ch || (x.array && x.origin != s.landing) then s.txnDone ch resultNotOwner
  else if x.state != txOpen || x.preparing then s.txnDone ch resultState
  else if x.array then
    let s := (s.modSlot n fun x => { x with preparing := true, waiters := x.waiters ++ [ch] }).txnBusy ch
    s.prepareAsked x.id (s.word (Reg.TXN.SLOT_CTL.word n).addr)
  else s.localPrepare ch n

/-- ABORT (R514, R515, R524). -/
def State.txnAbort (s : State) (ch n : Nat) : State :=
  let s := s.latchDue
  let x := s.slot n
  if 19 < n then s.txnDone ch resultCommand
  else if x.state = txFree then s.txnDone ch resultState
  else if !x.array && x.owner != ch then s.txnDone ch resultNotOwner
  else if x.state = txCommitted then (s.modSlot n fun x => { x with state := txTooLate }).txnDone ch resultOk
  else if x.final then s.txnDone ch resultState
  else if x.array then
    let s := s.modSlot n fun x => { x with abortPending := true, waiters := x.waiters ++ [ch], aborters := x.aborters ++ [ch] }
    (s.txnBusy ch).abortAsked x.id s.landing
  else ((s.abortSlot n causeHost).wakeWaiters n).txnDone ch resultOk

/-- RELEASE (R514, R516). -/
def State.txnRelease (s : State) (ch n : Nat) : State :=
  let x := s.slot n
  if 19 < n then s.txnDone ch resultCommand
  else if x.state = txFree then s.txnDone ch resultState
  else if !x.array && x.owner != ch then s.txnDone ch resultNotOwner
  else if x.final then (s.setSlot n TxnSlot.free).txnDone ch resultOk
  else s.txnDone ch resultState

/-! ### Session end, LOAD, sleep (R517, R518) -/

/-- What becomes of a channel's local transactions when its session ends (R517). -/
def State.txnSessionEnd (s : State) (ch : Nat) : State :=
  let s := s.forEach (List.range 16) fun n s =>
    let x := s.slot n
    if x.state = txFree || x.owner != ch then s
    else
      let later := s.now + planningSlot
      if x.state = txOpen then (s.abortSlot n causeSession).modSlot n fun x => { x with freeAt := some later }
      else if x.state = txPrepared then
        let after := s.instantOf (x.time + planningSlot)
        s.modSlot n fun x => { x with freeAt := some after }
      else s.modSlot n fun x => { x with freeAt := some later }
  { s with txn := { s.txn with openWait := s.txn.openWait.filter fun e => e.2 != ch,
                               slots := s.txn.slots.map fun x => { x with waiters := x.waiters.filter fun c => c != ch } } }

/-- Every transaction in one of the states becomes ABORTED with a cause (R518). -/
def State.txnAbortAll (s : State) (states : List Nat) (cause : Nat) : State :=
  s.forEach (List.range s.txn.slots.length) fun n s =>
    if states.contains (s.slot n).state then (s.abortSlot n cause).wakeWaiters n else s

/-! ### Landings in doubt (R527) -/

/-- The first array-joint carrier and symbol that begin at or after an array time. -/
def State.firstHeld (s : State) (a : Nat) : Nat × Nat :=
  let l := (s.activeCarriers.filter fun c => (s.form c).joint).map fun c => (c, (s.form c).symbolFrom a)
  match l with
  | [] => (0, 0)
  | x :: xs => xs.foldl (fun b y => if (s.form y.1).boundary y.2 < (s.form b.1).boundary b.2 then y else b) x

/-- A prepared array-wide transaction without a decision at T - 1 µs is in doubt: it is not applied, HOLD and QUERY go up (R527). -/
def State.doubtDue (s : State) : State :=
  s.forEach (List.range s.txn.slots.length) fun n s =>
    let x := s.slot n
    if x.array && x.state == txPrepared && !x.inDoubt && x.time ≤ s.arrayNow + ticksOfUs 1 then
      let s := (s.dropCommit x.id).modSlot n fun x => { x with inDoubt := true }
      let f := s.firstHeld x.time
      let s := s.sendUp (.txn (.hold x.id true f.1 (f.2 % 65536)))
      (s.sendUp (.txn (.query x.id s.landing))).arm (.query n) (s.now + ticksOfUs 100)
    else s

/-- Does the landing take no part in array-joint work at an array time (R527)? -/
def State.jointHeld (s : State) (a : Nat) : Bool := s.txn.slots.any fun x => x.array && x.state == txPrepared && x.inDoubt && x.time ≤ a

/-- The latch, and the landing's doubts. -/
def State.latchAll (s : State) : State := s.latchDue.doubtDue

/-- Decisions that an in-doubt landing applies at a planning-slot boundary, with HOLD released (R527). -/
def State.verdictsDue (s : State) : State :=
  s.forEach (List.range s.txn.slots.length) fun n s =>
    match (s.slot n).verdict with
    | none => s
    | some (commit, cause, landing, at0) =>
      if s.arrayNow < at0 then s
      else
        let x := s.slot n
        let s := if commit then s.addSlotCommit n at0 true else s
        let s := s.modSlot n fun x => { x with verdict := none }
        let s := (s.decideSlot n commit cause landing).latchDue
        s.sendUp (.txn (.hold x.id false 0 0))

/-! ### Queries (R526) -/

/-- QUERY: answered with the decision where it is held, else remembered and forwarded. -/
def State.queried (s : State) (port id landing : Nat) : State :=
  let known := match s.topTxn id with
    | some x => x.decision
    | none => none
  let own := match s.slotOf id with
    | some n =>
      let x := s.slot n
      match x.verdict with
      | some v => some (v.1, v.2.1, v.2.2.1)
      | none => if x.final then some (x.state != txAborted, if x.cause = causePeer then x.peerCause else x.cause,
                                      if x.cause = causePeer then x.peer else 0xFFFF) else none
    | none => (assoc? s.txn.outcomes id).map fun o => (o == txCommitted, causeTop, 0xFFFF)
  match known, own with
  | some d, _ => s.sendOn port (.txn (.decision id d.1 d.2.1 d.2.2))
  | none, some d => s.sendOn port (.txn (.decision id d.1 d.2.1 d.2.2))
  | none, none =>
    let s := match s.slotOf id with
      | some n => s.modSlot n fun x => { x with queries := if x.queries.contains port then x.queries else x.queries ++ [port] }
      | none => s
    s.sendUp (.txn (.query id landing))

/-- The landing asks its new parent for the decision of every transaction it holds PREPARED (R526). -/
def State.queryAll (s : State) : State :=
  s.forEach (List.range s.txn.slots.length) fun n s =>
    let x := s.slot n
    if x.array && x.state == txPrepared && x.verdict.isNone then s.sendUp (.txn (.query x.id s.landing)) else s

/-- The next QUERY of an in-doubt slot (R527). -/
def State.queryRetry (s : State) (n : Nat) : State :=
  if !s.due (.query n) then s
  else
    let x := s.slot n
    if x.inDoubt && x.state == txPrepared && x.verdict.isNone then
      (s.sendUp (.txn (.query x.id s.landing))).arm (.query n) (s.now + ticksOfUs 100)
    else s.disarm (.query n)

/-- HOLD from a child: it is missing from the first held symbol on, or takes part again (R527). -/
def State.holdArrived (s : State) (port : Nat) (held : Bool) (carrier symbol : Nat) : State :=
  let r := s.form carrier
  let here := r.symbolAt s.arrayNow
  let d := (symbol + 65536 - here % 65536) % 65536
  let n := if d < 32768 then here + d else here + d - 65536
  let from_ := r.boundary n
  s.modSPort port fun x => { x with heldFrom := if held then some from_ else none }

/-! ### Internal array-wide transactions (R530) -/

/-- The top opens an internal array-wide transaction in its hidden slot for time `a`, which carrier `c` names. -/
def State.topInternal (s : State) (n c a : Nat) : State :=
  let r := s.newArrayId
  let d := a - ticksOfUs (s.get Reg.TXN.ARRAY_CTL.guard)
  let t : TopTxn := { id := r.1, slot := n, prepared := true, time := a, decideAt := d, decision := none }
  let s := { r.2 with txn := { r.2.txn with top := (r.2.txn.top.filter fun (x : TopTxn) => x.slot != n) ++ [t] } }
  ((s.announced r.1 n s.landing 0 0).arm (.decide n) (s.instantOf d)).prepareArrived r.1 a d c

/-- This landing's part of an internal array-wide transaction is staged: it votes if it has been asked (R530). -/
def State.stagePart (s : State) (n : Nat) (part : List Effect) : State :=
  let s := s.modSlot n fun x => { x with part := some part }
  let x := s.slot n
  if x.array && x.asking && x.state == txOpen then s.voteOwn n (if s.isOwnBoundary x.carrier x.time then 0 else causeCarrier) else s

/-! ### The commands -/

/-- OPEN (R502). -/
def execOpenLocal (t : Nat) (ch : Channel) (s : State) : Host.Outcome State Fault Refusal :=
  finish (s.hostCmd t ch.val Reg.TXN.CMD.word.addr fun s => s.txnOpen ch.val)

/-- OPEN_ARRAY (R520). -/
def execOpenArray (t : Nat) (ch : Channel) (s : State) : Host.Outcome State Fault Refusal :=
  finish (s.hostCmd t ch.val Reg.TXN.CMD.word.addr fun s => s.txnOpenArray ch.val)

/-- PREPARE (R510). -/
def execPrepare (t : Nat) (ch : Channel) (slot : Fin 32) (s : State) : Host.Outcome State Fault Refusal :=
  finish (s.hostCmd t ch.val Reg.TXN.CMD.word.addr fun s => s.txnPrepare ch.val slot.val)

/-- ABORT (R515). -/
def execAbort (t : Nat) (ch : Channel) (slot : Fin 32) (s : State) : Host.Outcome State Fault Refusal :=
  finish (s.hostCmd t ch.val Reg.TXN.CMD.word.addr fun s => s.txnAbort ch.val slot.val)

/-- RELEASE (R516). -/
def execRelease (t : Nat) (ch : Channel) (slot : Fin 32) (s : State) : Host.Outcome State Fault Refusal :=
  finish (s.hostCmd t ch.val Reg.TXN.CMD.word.addr fun s => s.txnRelease ch.val slot.val)

/-- TXN_BIND (R503). -/
def execTxnBind (t : Nat) (ch : Channel) (value : Word) (s : State) : Host.Outcome State Fault Refusal :=
  finish (s.hostCmd t ch.val Reg.TXN.BIND.word.addr fun s => s.txnBind ch.val value)

/-- LIVE_PREPARE_DONE (R510). -/
def execLivePrepareDone (t : Nat) (slot : Fin 20) (s : State) : Host.Outcome State Fault Refusal :=
  finish ((s.atTime t).livePrepared slot.val)

/-- OPEN_REQ (R520). -/
def execOpenReq (t : Nat) (landing tag : Nat) (s : State) : Host.Outcome State Fault Refusal :=
  let s := s.atTime t
  finish (if s.isTop then s.topOpen landing tag else s.sendUp (.txn (.openReq landing tag)))

/-- ANNOUNCE (R520). -/
def execAnnounce (t : Nat) (id slot origin tag result : Nat) (s : State) : Host.Outcome State Fault Refusal :=
  finish ((s.atTime t).announced id slot origin tag result)

/-- PREPARE_REQ (R521). -/
def execPrepareReq (t : Nat) (id : Nat) (point : Word) (s : State) : Host.Outcome State Fault Refusal :=
  finish ((s.atTime t).prepareAsked id point)

/-- PREPARE message (R522). -/
def execPrepareMessage (t : Nat) (id time decide carrier : Nat) (s : State) : Host.Outcome State Fault Refusal :=
  finish ((s.atTime t).prepareArrived id time decide carrier)

/-- VOTE (R523). -/
def execVote (t : Nat) (port : Fin 4) (id yes no cause : Nat) (s : State) : Host.Outcome State Fault Refusal :=
  finish ((s.atTime t).voted port.val id yes no cause)

/-- DECISION (R525). -/
def execDecision (t : Nat) (id : Nat) (commit : Bool) (cause landing : Nat) (s : State) : Host.Outcome State Fault Refusal :=
  finish ((s.atTime t).decided id commit cause landing)

/-- TXN_DECISION_TIMEOUT (R523). -/
def execTxnDecisionTimeout (t : Nat) (slot : Fin 29) (s : State) : Host.Outcome State Fault Refusal :=
  finish ((s.atTime t).decisionTimeout slot.val)

/-- ABORT_REQ (R524). -/
def execAbortReq (t : Nat) (id landing : Nat) (s : State) : Host.Outcome State Fault Refusal :=
  finish ((s.atTime t).abortAsked id landing)

/-- QUERY (R526). -/
def execQuery (t : Nat) (port : Fin 4) (id landing : Nat) (s : State) : Host.Outcome State Fault Refusal :=
  finish ((s.atTime t).queried port.val id landing)

/-- QUERY_RETRY (R527). -/
def execQueryRetry (t : Nat) (slot : Fin 29) (s : State) : Host.Outcome State Fault Refusal :=
  finish ((s.atTime t).queryRetry slot.val)

/-- HOLD (R527). -/
def execHold (t : Nat) (port : Fin 4) (_id : Nat) (held : Bool) (carrier symbol : Nat) (s : State) : Host.Outcome State Fault Refusal :=
  finish ((s.atTime t).holdArrived port.val held carrier symbol)

/-- COMMIT_LATCH (R512). -/
def execCommitLatch (t : Nat) (s : State) : Host.Outcome State Fault Refusal := finish (s.atTime t).latchAll

end Sys2Proof.Machine
end

