-- ==== Sys2Proof/Machine/Sums.lean ====
section
/-!
DEFINITION. Array-joint sums and solutions over the tree (R304 to R314, R445, R458 to R460): partial sums, missing subtrees and
supplements, completion at the top, finished layers, layer data and sections on their way down, Gram matrices and inverses, and the end
of a solver epoch (R303).
-/

namespace Sys2Proof.Machine

open Sys2Proof

/-! ### The sum of one chunk (R312, R445) -/

/-- Is a chunk sum that of a carrier, layer, slot, symbol and first PRB? -/
def ChunkSum.named (x : ChunkSum) (c layer slot sym first : Nat) : Bool :=
  x.carrier == c && x.layer == layer && x.slot == slot && x.sym == sym && x.first == first

/-- The symbol of a chunk sum, counted from the epoch. -/
def State.sumSymbol (s : State) (x : ChunkSum) : Nat := x.form.named s.arrayNow x.slot x.sym

/-- The sum of a chunk in progress. -/
def State.sumOf (s : State) (c layer slot sym first : Nat) : Option ChunkSum :=
  s.treeOf.sums.find? fun x => x.named c layer slot sym first

/-- The record under which the symbols of a carrier that a chunk names were worked: that of a sum or gate of the symbol, where the carrier
has changed or stopped since (R250). -/
def State.formOf (s : State) (c slot sym : Nat) : CarrierRec :=
  match s.treeOf.sums.find? fun x => x.carrier == c && x.slot == slot && x.sym == sym with
  | some x => x.form
  | none =>
    match s.gates.find? fun g => decide (g.kind = .up) && g.carrier == c && g.form.name g.symbol == (slot, sym) with
    | some g => g.form
    | none => s.form c

/-- Keep a chunk sum. -/
def State.setSum (s : State) (x : ChunkSum) : State :=
  s.modTree fun y => { y with sums := (y.sums.filter fun z => !z.named x.carrier x.layer x.slot x.sym x.first) ++ [x] }

/-- The ports that a chunk of a symbol that begins at `a` is expected from: those with a child below them, unless it delivers through
them only from a later time on (R445, R455). -/
def State.expectedPorts (s : State) (a : Nat) : List Nat :=
  (List.range 4).filter fun n => (s.sPort n).child.isSome && (s.sPort n).expectFrom ≤ a

/-- Does a chunk of a symbol that begins at `a` not come from a port: its flight has faulted, or its child is treated so until it has
rejoined, or takes no part (R445, R527, R739)? -/
def State.portMissing (s : State) (n a : Nat) : Bool :=
  let x := s.sPort n
  !s.sUp n || s.sUse n != useChild || x.gone || decide (a < x.rejoinAt) ||
    match x.heldFrom with
    | some h => decide (h ≤ a)
    | none => false

/-- The sum of a chunk, begun where there is none. -/
def State.beginSum (s : State) (c layer slot sym first : Nat) : ChunkSum :=
  match s.sumOf c layer slot sym first with
  | some x => x
  | none =>
    let r := s.formOf c slot sym
    let a := r.boundary (r.named s.arrayNow slot sym)
    { carrier := c, form := r, layer := layer, slot := slot, sym := sym, first := first, parts := [], expected := s.expectedPorts a, heard := [],
      own := false, complete := false, total := [], inverses := [], outExp := 0 }

/-- Is a chunk past every use: its symbol has been released (R25)? -/
def State.chunkLate (s : State) (c slot sym : Nat) : Bool :=
  let r := s.formOf c slot sym
  r.boundary (r.named s.arrayNow slot sym + 1) + ticksOfNs (s.ulLatency c) + ticksOfUs (s.car c).reserve < s.arrayNow

/-- The exact sum of chunks, each PRB of each normalised to 12 bits (R312). -/
def sumChunks (parts : List Chunk) : List (Int × List Cplx) :=
  (List.range (maxNat (parts.map fun x => x.prbs.length))).map fun i =>
    let y := normSums 12 ((List.range 12).map fun k => parts.filterMap fun x => (x.prbs[i]?).map fun q => (q.2.getD k Cplx.zero, q.1))
    (y.2, y.1)

/-- The landing's own outputs of one chunk enter its sum, with the inverses and the output scale of their symbol (R47, R312). -/
def State.ownChunk (s : State) (x : Chunk) (inverses : List (List (List Cplx) × Int)) (outExp : Int) : State :=
  let y := s.beginSum x.carrier x.layer x.slot x.sym x.first
  s.setSum { y with own := true, parts := y.parts ++ [x], inverses := inverses, outExp := outExp }

/-- A child's chunk enters the sum, once (R445). -/
def State.childChunk (s : State) (port : Nat) (x : Chunk) : State :=
  if s.sUse port != useChild || s.chunkLate x.carrier x.slot x.sym then s
  else
    let y := s.beginSum x.carrier x.layer x.slot x.sym x.first
    if y.complete || y.heard.contains port then s
    else s.setSum { y with heard := y.heard ++ [port], parts := y.parts ++ [x] }

/-- PARTIAL (R445). -/
def execPartialSum (t : Nat) (port : Fin 4) (x : Chunk) (s : State) : Host.Outcome State Fault Refusal :=
  finish ((s.atTime t).childChunk port.val x)

/-! ### Finished layers (R280, R313, R443) -/

/-- One layer of a chunk of combined values at the egress landing: the values enter the symbol's gate, which waits for one chunk less. -/
def State.gateChunk (s : State) (c n layer first : Nat) (prbs : List (Int × List Cplx)) (sat : Nat) : State :=
  let new := ((List.range prbs.length).zip prbs).map fun e =>
    ({ carrier := c, symbol := n, layer := layer, prb := first + e.1, exp := e.2.1, vals := e.2.2 } : PrbData)
  { s with gates := s.gates.map fun g =>
      if g.kind = .up && g.carrier == c && g.symbol == n then
        { g with data := g.data ++ new, wait := g.wait - 1,
                 counts := if sat = 0 then g.counts else g.counts ++ [(Reg.BEAM.UL_SAT.word.addr, sat)] }
      else g }

/-- Delivery of one PRB of combined values (R280): the delivered components and how many elements saturated. -/
def deliverPrb (o : Int) (l : List Exact) : List Cplx × Nat :=
  let y := l.map (deliver o)
  (y.map fun e => e.1, countIf (fun e => e.2) y)

/-- The combined values of one layer in one PRB of a completed chunk: the inverse applied to every layer's sum, or the sum (R313). -/
def combined (inverse : Option (List (List Cplx) × Int)) (layers : List ChunkSum) (layer i : Nat) : List Exact :=
  let z := layers.map fun x => let q := x.total.getD i (0, []); (q.2, q.1)
  match inverse with
  | some a =>
    (applyInverse a.1 a.2 z layer).map fun terms => let f := minExp (terms.map fun t => t.2); (sumUnits f terms, f)
  | none => let q := z.getD layer ([], 0); (List.range 12).map fun k => (q.1.getD k Cplx.zero, q.2)

/-- The combined values of one layer of a chunk are delivered to the egress landing (R313), by way of the release gate where that is another
one (R24). -/
def State.deliverLayer (s : State) (layers : List ChunkSum) (x : ChunkSum) (layer : Nat) : State :=
  let r := x.form
  let n := s.sumSymbol x
  let y := (List.range x.total.length).map fun i =>
    let inverse := if r.mode = modeBeamId then none else some (x.inverses.getD ((x.first + i) / r.groupSize) ([], 0))
    deliverPrb x.outExp (combined inverse layers layer i)
  let sat := sumNat (y.map fun e => e.2)
  if r.egress == s.landing then s.gateChunk x.carrier n layer x.first (y.map fun e => (0, e.1)) sat
  else
    let prbs := y.map fun e => let q := normSums 12 (e.1.map fun v => [(v, (0 : Int))]); (q.2, q.1)
    s.stairGate x.carrier n (s.sumRelease x.carrier 2 s.depth r n) false r (if sat = 0 then [] else [(Reg.BEAM.UL_SAT.word.addr, sat)])
      (.finished { carrier := x.carrier, layer := layer, slot := x.slot, sym := x.sym, first := x.first, prbs := prbs })

/-- The chunks of every layer of a symbol at one first PRB, by layer. -/
def State.layerSums (s : State) (x : ChunkSum) : List ChunkSum :=
  (List.range x.form.ul).filterMap fun l => s.sumOf x.carrier l x.slot x.sym x.first

/-- What a completed chunk delivers: in BEAM_ID mode its layer, otherwise every layer once all are complete (R313). -/
def State.deliverChunk (s : State) (x : ChunkSum) : State :=
  if x.form.mode = modeBeamId then s.deliverLayer ((List.range x.layer).map (fun _ => x) ++ [x]) x x.layer
  else
    let all := s.layerSums x
    if all.length = x.form.ul && all.all fun y => y.complete then
      s.forEach (List.range all.length) fun l s => s.deliverLayer all x l
    else s

/-- FINISHED (R443): at the egress landing the values enter the symbol's gate; elsewhere the record goes on toward it. -/
def State.finishedArrived (s : State) (x : Chunk) : State :=
  let r := s.formOf x.carrier x.slot x.sym
  if r.egress == s.landing then s.gateChunk x.carrier (r.named s.arrayNow x.slot x.sym) x.layer x.first x.prbs 0
  else s.sendTo r.egress (.finished x)

/-- FINISHED (R443). -/
def execFinished (t : Nat) (_port : Fin 4) (x : Chunk) (s : State) : Host.Outcome State Fault Refusal :=
  finish ((s.atTime t).finishedArrived x)

/-! ### Missing subtrees and supplements (R458, R459) -/

/-- The MISSING records at the top that name a chunk. -/
def State.missingOf (s : State) (c layer slot sym first : Nat) : List (Nat × Nat × Nat × Nat × Nat × Nat) :=
  s.treeOf.missing.filter fun m => m.2 == (c, layer, slot, sym, first)

/-- The top adds a supplement that a MISSING record names (R459). -/
def State.useSupplement (s : State) (origin : Nat) (x : Chunk) : State :=
  let y := s.beginSum x.carrier x.layer x.slot x.sym x.first
  let s := s.setSum { y with parts := y.parts ++ [x] }
  let key := (origin, x.carrier, x.layer, x.slot, x.sym, x.first)
  (s.modTree fun t => { t with missing := t.missing.erase key }).bump Reg.STAIR.SUPPL_USED.word

/-- MISSING at the top: matched with a supplement that waits, or kept; a subtree that delivers through another flight is not missing. -/
def State.topMissing (s : State) (root c layer slot sym first : Nat) : State :=
  let r := s.formOf c slot sym
  let a := r.boundary (r.named s.arrayNow slot sym)
  let movedAway := match assoc? s.treeOf.moved root with
    | some m => decide (m ≤ a)
    | none => false
  let done := match s.sumOf c layer slot sym first with
    | some x => x.complete
    | none => s.chunkLate c slot sym
  if movedAway || done then s
  else
    let s := s.modTree fun t => { t with missing := t.missing ++ [(root, c, layer, slot, sym, first)] }
    let same := fun (e : Nat × Chunk) => e.1 == root && e.2.carrier == c && e.2.layer == layer && e.2.slot == slot && e.2.sym == sym &&
      e.2.first == first
    match s.treeOf.suppl.find? same with
    | some e => (s.modTree fun t => { t with suppl := t.suppl.filter fun y => !same y }).useSupplement root e.2
    | none => s

/-- MISSING (R458). -/
def execMissing (t : Nat) (_port : Fin 4) (root carrier layer slot sym first : Nat) (s : State) : Host.Outcome State Fault Refusal :=
  let s := s.atTime t
  finish (if s.isTop then s.topMissing root carrier layer slot sym first
    else s.sendConfirmed (.missing root carrier layer slot sym first))

/-- SUPPLEMENT at the top: added if a MISSING record names its origin for the chunk, dropped if the chunk is complete, else kept until it
is (R459). -/
def State.topSupplement (s : State) (origin : Nat) (x : Chunk) : State :=
  let done := match s.sumOf x.carrier x.layer x.slot x.sym x.first with
    | some y => y.complete
    | none => s.chunkLate x.carrier x.slot x.sym
  if done then s.bump Reg.STAIR.SUPPL_DROP.word
  else if s.treeOf.missing.contains (origin, x.carrier, x.layer, x.slot, x.sym, x.first) then s.useSupplement origin x
  else s.modTree fun t => { t with suppl := t.suppl ++ [(origin, x)] }

/-- SUPPLEMENT (R459). -/
def execSupplement (t : Nat) (_port : Fin 4) (origin : Nat) (x : Chunk) (s : State) : Host.Outcome State Fault Refusal :=
  let s := s.atTime t
  finish (if s.isTop then s.topSupplement origin x else s.sendConfirmed (.supplement origin x))

/-- A symbol completes without some of its subtrees: counted once (R459, R538). -/
def State.countMissing (s : State) (c n slot sym : Nat) : State :=
  if s.treeOf.counted.contains (c, slot, sym) then s
  else ((s.modTree fun t => { t with counted := (t.counted.filter fun e => e.1 != c) ++ [(c, slot, sym)] }).bump
    Reg.STAIR.MISSING_SYM.word).degraded c n

/-! ### Forwarding and completion (R445, R459) -/

/-- The latest time at which the top still waits for supplements: the release less one flight time for each flight of the formed path
(DEDUCED, log entry 31). -/
def State.completionTime (s : State) (c : Nat) (r : CarrierRec) (n : Nat) : Nat :=
  r.boundary (n + 1) + ticksOfNs (s.ulLatency c) + ticksOfUs (s.car c).reserve - ticksOfNs (600 * s.get Reg.STAIR.TREE.formed_path)

/-- The top completes a chunk. -/
def State.completeSum (s : State) (x : ChunkSum) : State :=
  let lost := s.missingOf x.carrier x.layer x.slot x.sym x.first
  if !lost.isEmpty && s.arrayNow < s.completionTime x.carrier x.form (s.sumSymbol x) then s.setSum x
  else
    let s := if lost.isEmpty then s else s.countMissing x.carrier (s.sumSymbol x) x.slot x.sym
    let here := fun (e : Nat × Chunk) => e.2.carrier == x.carrier && e.2.layer == x.layer && e.2.slot == x.slot && e.2.sym == x.sym &&
      e.2.first == x.first
    let dropped := countIf here s.treeOf.suppl
    let s := s.addTo Reg.STAIR.SUPPL_DROP.word dropped
    let s := s.modTree fun t => { t with missing := t.missing.filter (fun m => !lost.contains m), suppl := t.suppl.filter fun e => !here e }
    let x := { x with complete := true, total := sumChunks x.parts, parts := [] }
    (s.setSum x).deliverChunk x

/-- The landing's sum of a chunk of a symbol that begins at `a` goes up: as a SUPPLEMENT where the symbol lies before those that its new parent
expects (R455, R458). -/
def State.sendPartial (s : State) (a : Nat) (x : Chunk) : State :=
  if s.parentPort.isSome && s.treeOf.normalFrom ≤ a then s.sendUp (.partialSum x) else s.sendConfirmed (.supplement s.landing x)

/-- Is it past the time at which a child's PARTIAL record of a chunk would have arrived? A child that missed its symbol sends none, and the
chunk counts as missing (R539; DEDUCED, log entry 68). -/
def State.childOverdue (s : State) (x : ChunkSum) : Bool :=
  decide (s.sumRelease x.carrier 1 (s.depth + 1) x.form (s.sumSymbol x) + ticksOfNs 600 < s.arrayNow)

/-- A chunk is forwarded once the landing's own outputs are in and every expected child has delivered it or is missing; a MISSING record
for each missing child goes first, and the sum waits for its release (R24, R445, R458). -/
def State.forwardChunk (s : State) (c layer slot sym first : Nat) : State :=
  match s.sumOf c layer slot sym first with
  | none => s
  | some x =>
    let n := s.sumSymbol x
    let a := x.form.boundary n
    let gone := x.expected.filter fun n => !x.heard.contains n
    if x.complete || !x.own || !(s.childOverdue x || gone.all fun n => s.portMissing n a) then s
    else
      let x := { x with expected := x.heard }
      let root := fun n => (s.sPort n).child.getD 0
      if s.isTop then
        let s := s.setSum x
        let s := s.forEach gone fun n s => s.topMissing (root n) c layer slot sym first
        s.completeSum ((s.sumOf c layer slot sym first).getD x)
      else
        let s := s.forEach gone fun n s => s.sendConfirmed (.missing (root n) c layer slot sym first)
        let s := s.stairGate c n (s.sumRelease c 1 s.depth x.form n) false x.form []
          (.partialSum { carrier := c, layer := layer, slot := slot, sym := sym, first := first, prbs := sumChunks x.parts })
        s.setSum { x with complete := true, parts := [] }

/-- CHUNK_FORWARD (R445). -/
def execChunkForward (t : Nat) (carrier layer slot sym first : Nat) (s : State) : Host.Outcome State Fault Refusal :=
  finish ((s.atTime t).forwardChunk carrier layer slot sym first)

/-- A record of a symbol under record `r` passes its gate toward the stair ports. -/
def State.stairOut (s : State) (r : CarrierRec) (n : Nat) (m : StairMsg) : State :=
  match m with
  | .layer x => s.layerOut x
  | .partialSum x => s.sendPartial (r.boundary n) x
  | .finished x => s.sendTo r.egress (.finished x)
  | _ => s

/-- Sums of released symbols are dropped, and supplements that no MISSING record matched (R459). -/
def State.pruneSums (s : State) : State :=
  let old := fun (x : ChunkSum) => s.chunkLate x.carrier x.slot x.sym
  let lateS := fun (e : Nat × Chunk) => s.chunkLate e.2.carrier e.2.slot e.2.sym
  let drops := countIf lateS s.treeOf.suppl
  let gone := fun (m : Nat × Nat × Nat × Nat × Nat × Nat) => s.chunkLate m.2.1 m.2.2.2.1 m.2.2.2.2.1
  let waits := fun (m : StairMsg) => match m with
    | .supplement _ x => !s.chunkLate x.carrier x.slot x.sym
    | .missing _ c _ slot sym _ => !s.chunkLate c slot sym
    | _ => true
  let s := s.modTree fun t => { t with sums := t.sums.filter (fun x => !old x), supplements := t.supplements.filter waits,
                                       suppl := t.suppl.filter (fun e => !lateS e), missing := t.missing.filter fun m => !gone m }
  s.addTo Reg.STAIR.SUPPL_DROP.word drops

/-! ### Layers and sections on their way (R302, R443, R460) -/

/-- Did a record arrive on the parent port? -/
def State.fromParent (s : State) (port : Nat) : Bool := s.parentPort == some port

/-- Records that the landing holds already (R460). -/
def State.holds (s : State) (m : StairMsg) : Bool := s.treeOf.history.any fun e => decide (e.2 = m)

/-- LAYER: up from the ingress landing, down to all; copied for precoding on the way down (R443). -/
def execLayer (t : Nat) (port : Fin 4) (x : Chunk) (s : State) : Host.Outcome State Fault Refusal :=
  let s := s.atTime t
  let down := s.fromParent port.val
  finish (if (down || s.isTop) && s.holds (.layer x) then s
    else
      let y := s.spread (.layer x) down
      if y.2 then y.1.takeLayer x else y.1)

/-- SECTIONS: as LAYER; the ingress landing has applied them already (R302, R443). -/
def execSections (t : Nat) (port : Fin 4) (carrier : Nat) (l : List (Nat × CSection)) (s : State) : Host.Outcome State Fault Refusal :=
  let s := s.atTime t
  let m := StairMsg.sections carrier l
  let down := s.fromParent port.val
  finish (if (down || s.isTop) && s.holds m then s
    else
      let y := s.spread m down
      if y.2 && !s.isIngress carrier then y.1.forEach l fun e s => s.remoteSection carrier e.1 e.2 else y.1)

/-- Does a record of the history belong to the symbol that a RESUME names? -/
def State.ofSymbol (s : State) (carrier n : Nat) (m : StairMsg) : Bool :=
  match m with
  | .layer x => x.carrier == carrier && ((s.form carrier).name n == (x.slot, x.sym))
  | _ => false

/-- What follows the last element that a predicate holds for; everything where it holds for none. -/
def afterLast {α : Type} (f : α → Bool) (l : List α) : List α := (l.reverse.takeWhile fun x => !f x).reverse

/-- RESUME: every record after the symbol named goes down again from the history (R460). -/
def execResume (t : Nat) (port : Fin 4) (carrier symbol : Nat) (s : State) : Host.Outcome State Fault Refusal :=
  let s := s.atTime t
  let again := afterLast (fun (e : Nat × StairMsg) => s.ofSymbol carrier symbol e.2) s.treeOf.history
  finish (s.forEach again fun e s => s.sendOn port.val e.2)

/-! ### Gram matrices and inverses (R304 to R311) -/

/-- The epoch of a carrier that a record's slot names. -/
def State.epochOf (s : State) (c slot : Nat) : Option Epoch :=
  match s.beam.epochs.getD c none with
  | some e => if e.slot % 4096 = slot % 4096 then some e else none
  | none => none

/-- Keep an epoch. -/
def State.setEpoch (s : State) (c : Nat) (e : Epoch) : State := { s with beam := { s.beam with epochs := s.beam.epochs.set c (some e) } }

/-- A port's place among those heard for a group and direction; place 4 says that the group has gone on. -/
def gramKey (port group : Nat) (dl : Bool) : Nat := 8 * (2 * group + b2n dl) + port

/-- The inverses of some groups: kept here and sent down to all (R311). -/
def State.inversesDown (s : State) (c slot : Nat) (l : List InverseRec) : State :=
  let m := StairMsg.inverse c (slot % 4096) l
  let s := (s.remember m).sendDown m
  match s.epochOf c slot with
  | some e =>
    let new := l.filter fun x => !(e.inverses.any fun y => y.dl == x.dl && y.group == x.group)
    s.setEpoch c { e with inverses := e.inverses ++ new }
  | none => s

/-- Groups of an epoch whose contributions are all in go on: their sum up, or from the top their inverse down (R305, R306, R311). -/
def State.gramsForward (s : State) (c : Nat) : State :=
  match s.beam.epochs.getD c none with
  | none => s
  | some e =>
    if !(s.form c).joint then s
    else
      let r := s.form c
      let keys := (List.range r.groups).map (fun g => (g, true)) ++ (List.range r.groups).map fun g => (g, false)
      let parts := fun (k : Nat × Bool) => e.grams.filter fun x => x.group == k.1 && x.dl == k.2
      let ready := keys.filter fun k => !(parts k).isEmpty && !e.heard.contains (gramKey 4 k.1 k.2) &&
        s.liveChildren.all fun p => e.heard.contains (gramKey p k.1 k.2)
      if ready.isEmpty then s
      else
        let sums := ready.map fun k =>
          let y := gramSum ((parts k).map fun x => (x.g, x.eG))
          ({ group := k.1, dl := k.2, g := y.1, eG := y.2 } : GramRec)
        let s := s.setEpoch c { e with heard := e.heard ++ ready.map fun k => gramKey 4 k.1 k.2 }
        if s.isTop then s.inversesDown c e.slot (s.solveAll c sums) else s.sendUp (.gram c (e.slot % 4096) sums)

/-- SOLVER_EPOCH_START (R300): an array-joint carrier's own contribution enters the tree. -/
def execSolverEpochStart (t : Nat) (c : Fin 8) (s : State) : Host.Outcome State Fault Refusal :=
  finish (((s.atTime t).epochStart c.val).gramsForward c.val)

/-- A child's Gram matrices enter the sums of the epoch (R305). -/
def State.gramArrived (s : State) (port c slot : Nat) (l : List GramRec) : State :=
  match s.epochOf c slot with
  | none => s
  | some e =>
    let new := l.filter fun x => !e.heard.contains (gramKey port x.group x.dl)
    (s.setEpoch c { e with grams := e.grams ++ new, heard := e.heard ++ new.map fun x => gramKey port x.group x.dl }).gramsForward c

/-- GRAM (R305). -/
def execGram (t : Nat) (port : Fin 4) (carrier slot : Nat) (l : List GramRec) (s : State) : Host.Outcome State Fault Refusal :=
  finish ((s.atTime t).gramArrived port.val carrier slot l)

/-- INVERSE (R311): forwarded down to all. -/
def execInverse (t : Nat) (_port : Fin 4) (carrier slot : Nat) (l : List InverseRec) (s : State) : Host.Outcome State Fault Refusal :=
  let s := s.atTime t
  finish (if s.holds (.inverse carrier (slot % 4096) l) then s else s.inversesDown carrier slot l)

/-! ### The end of an epoch (R303, R314) -/

/-- An epoch's weights are complete: the idle set holds them, and its transaction is requested. -/
def State.epochSolved (s : State) (c a : Nat) (e : Epoch) : State :=
  let idle := 1 - (s.car c).set
  let s := (s.writeIdleSet c e).epochTime c e
  let s := (s.putBit Reg.SOLVER.STATUS.running c false).put (Reg.CARRIER.SRS_STATUS.held c) 0
  let s := s.setEpoch c { e with ready := true }
  if !(s.form c).joint then s.internalAt a [.weights c idle]
  else
    let s := if s.isTop then s.topInternal (20 + c) c a else s
    s.stagePart (20 + c) [.weights c idle]

/-- SOLVER_EPOCH_DONE: on a local carrier the landing solves for itself; on an array-joint one it needs the layer map and every group's
inverse (R303, R314). An epoch that is too late for its boundary leaves the set in force. -/
def State.epochDone (s : State) (c : Nat) : State :=
  match s.beam.epochs.getD c none with
  | none => s
  | some e =>
    let r := s.form c
    let a := r.boundary (e.slot * r.symbols)
    if e.ready then s
    else if r.joint then
      let own := (e.dlH.length + e.ulH.length)
      if !e.hasMap || e.inverses.length < own || a < s.arrayNow + ticksOfUs (s.get Reg.TXN.ARRAY_CTL.guard) then s
      else s.epochSolved c a e
    else if a < s.arrayNow + ticksOfUs 2 then s.epochLate c e.slot
    else s.epochSolved c a { e with inverses := s.solveAll c e.grams }

/-- SOLVER_EPOCH_DONE (R303). -/
def execSolverEpochDone (t : Nat) (c : Fin 8) (s : State) : Host.Outcome State Fault Refusal := finish ((s.atTime t).epochDone c.val)

/-- An epoch whose slot has come without its weights is late (R303). -/
def State.epochOverdue (s : State) (c slot : Nat) : State :=
  match s.beam.epochs.getD c none with
  | some e => if e.slot ≤ slot then s.epochLate c e.slot else s
  | none => s

end Sys2Proof.Machine
end

