-- ==== Sys2Proof/Machine/Symbol.lean ====
section
/-!
DEFINITION. The symbol timeline at work (R24 to R48, R119, R250, R275 to R281): symbol boundaries, what an uplink symbol yields, the
release gates, downlink deadlines, and the start and stop of carriers.
-/

namespace Sys2Proof.Machine

open Sys2Proof

/-! ### Missed and shed symbols (R539, R566) -/

/-- A symbol of a carrier is shed in one direction. -/
def State.shedSymbol (s : State) (c : Nat) : State := s.bump (Reg.POWER.SHED_SYM.word c)

/-- Counters that advance at a release (R48). -/
def State.countAll (s : State) (l : List (Nat × Nat)) : State := s.forEach l fun e s => s.addTo ⟨e.1, 0, 32⟩ e.2

/-- The sections of a symbol, carrier and direction in force. -/
def forcesOf (force : List CForce) (dl : Bool) (c n : Nat) : List CForce :=
  force.filter fun f => f.carrier == c && f.dl == dl && decide (f.first ≤ n) && decide (n < f.last)

/-- Does a section begin or end inside a group (R286)? -/
def CForce.splits (f : CForce) (size width : Nat) : Bool :=
  f.startPrb % size != 0 || ((f.startPrb + f.numPrb) % size != 0 && f.startPrb + f.numPrb != width)

/-- The counts that the weights of a symbol bring: W_SAT once where any correction saturated, INVALID_USE once for each layer that names
an invalid entry, SPLIT_GROUP for each section that splits a group (R281, R286, R291). -/
def weightCounts (size width : Nat) (weights : List (List (Option LayerWeights))) (forces : List CForce) (beamId : Bool) : List (Nat × Nat) :=
  let any_ := fun (f : LayerWeights → Bool) (l : List (Option LayerWeights)) => l.any fun x => match x with
    | some w => f w
    | none => false
  [(Reg.BEAM.W_SAT.word.addr, b2n (weights.any (any_ fun w => w.sat))),
   (Reg.BEAM.INVALID_USE.word.addr, countIf (any_ fun w => w.invalid) weights),
   (Reg.BEAM.SPLIT_GROUP.word.addr, if beamId then countIf (fun f => f.splits size width) forces else 0)]

/-- The weights of a direction for symbol `n`, by layer and group. -/
def State.weightTable (s : State) (force : List CForce) (dl : Bool) (c n : Nat) : List (List (Option LayerWeights)) :=
  let r := s.form c
  (List.range (r.layers dl)).map fun l => (List.range r.groups).map fun g => s.layerWeights force dl c l n g

/-- The weights that the uplink symbol `n` uses, as they stand. -/
def State.uplinkUse (s : State) (c n : Nat) : UplinkUse :=
  { weights := s.weightTable s.fh.force false c n,
    inverses := if (s.form c).mode = modeBeamId then [] else (s.setInForce c).ul.map fun g => (g.a, g.eA) }

/-! ### An uplink symbol (R277 to R280, R312, R390) -/

/-- The matched-filter or beam outputs of every layer in one PRB, normalised to `b` bits. -/
def matched (b groupSize : Nat) (use : UplinkUse) (ys : List (List Cplx)) (e : Int) (prb : Nat) : List (List Cplx × Int) :=
  use.weights.map fun row =>
    let z := combinePrb (row.getD (prb / groupSize) none) ys e prb
    normSums b (z.1.map fun v => [(v, z.2)])

/-- The combined values of one layer in one PRB on a local carrier (R278, R279). -/
def localCombined (beamId : Bool) (groupSize : Nat) (use : UplinkUse) (ys : List (List Cplx)) (e : Int) (layer prb : Nat) : List Exact :=
  if beamId then
    let z := combinePrb ((use.weights.getD layer []).getD (prb / groupSize) none) ys e prb
    z.1.map fun v => (v, z.2)
  else
    let a := use.inverses.getD (prb / groupSize) ([], 0)
    (applyInverse a.1 a.2 (matched 16 groupSize use ys e prb) layer).map fun terms =>
      let f := minExp (terms.map fun t => t.2)
      (sumUnits f terms, f)

/-- The output scale o of a carrier (R280). -/
def State.outExp (s : State) (c : Nat) : Int := s.getS (Reg.BEAM.OUT_CTL.out_exp c)

/-- The partner entry and eAxC that a section of an array-joint carrier leaves through at its egress landing (R313): its own, or, where
it came down the tree, the first that carries its layer here. -/
def State.egressOf (s : State) (f : CForce) : Option (Nat × Nat) :=
  if f.entry < remoteEntry then some (f.entry, f.eaxc)
  else (s.ptUsed.filterMap fun n =>
    let first := s.get (Reg.FRONTHAUL.PT_EAXC.first n)
    ((List.range (s.get (Reg.FRONTHAUL.PT_EAXC.last n) + 1 - first)).find? fun i =>
      s.eaxcCarrier (first + i) == f.carrier && s.eaxcPort (first + i) == f.layer && !s.eaxcPrach (first + i)).map fun i => (n, first + i)).head?

/-- Put a section into a list in order of its first PRB. -/
def insertForce (f : CForce) : List CForce → List CForce
  | [] => [f]
  | x :: xs => if f.startPrb < x.startPrb then f :: x :: xs else x :: insertForce f xs

/-- The frames of the sections of a symbol, worked under record `r`, from the delivered values by layer and PRB, in order of their first PRBs, a
frame for each section (R390, R391). -/
def State.uplinkFrames (s : State) (r : CarrierRec) (n : Nat) (forces : List CForce) (vals : Nat → Nat → List Cplx) : List UFrame :=
  ((forces.foldl (fun l f => insertForce f l) []).map fun f => match s.egressOf f with
    | some e => s.framesOf e.1 e.2 (symbolNames r n)
        { sectionId := f.sectionId, startPrb := f.startPrb, width := f.width,
          prbs := (List.range f.numPrb).map fun i => compressPrb f.width (vals f.layer (f.startPrb + i)) }
    | none => []).flatten

/-- The delivered components that a gate of an array-joint symbol holds for a layer and PRB (R313). -/
def gateValue (data : List PrbData) (layer prb : Nat) : List Cplx :=
  match data.find? fun d => d.layer == layer && d.prb == prb with
  | some d => d.vals.map fun v => if 0 ≤ d.exp then Cplx.smul (2 ^ d.exp.toNat) v else v.shr (-d.exp).toNat
  | none => List.replicate 12 Cplx.zero

/-- The release that an uplink symbol of a carrier has of itself, in array time, and that of its bytes for one eAxC: no earlier than that of
the previous symbol of the eAxC (R33, R41). -/
def State.uplinkRelease (s : State) (c n : Nat) : Nat :=
  (s.form c).boundary (n + 1) + ticksOfNs (s.ulLatency c) + ticksOfUs (s.car c).reserve
def State.eaxcRelease (s : State) (c n e : Nat) : Nat := max (s.uplinkRelease c n) ((assoc? (s.car c).released e).getD 0)

/-- What an uplink symbol sends on one eAxC: frames, or on an array-joint carrier the sections that its data fills. -/
structure UpPart where
  eaxc : Nat
  frames : List UFrame
  force : List CForce

/-- The gates of an uplink symbol: one at its own release, which also counts, and one for each later release of an eAxC. UL_SYM counts with
the first byte (R268). -/
def State.upGate (s : State) (c n wait : Nat) (parts : List UpPart) (counts : List (Nat × Nat)) : State :=
  let base := s.uplinkRelease c n
  let at_ := fun (p : UpPart) => s.eaxcRelease c n p.eaxc
  let times := parts.map at_
  let begun := (times.foldl (fun m t => match m with
    | some k => some (min k t)
    | none => some t) none)
  let gate := fun (t : Nat) (l : List (Nat × Nat)) =>
    let mine := parts.filter fun p => at_ p == t
    ({ kind := .up, carrier := c, form := s.form c, symbol := n, release := t, wait := wait, epoch := (s.car c).epoch, msgs := [],
       frames := (mine.map fun p => p.frames).flatten, data := [], force := (mine.map fun p => p.force).flatten,
       counts := if begun == some t then ((Reg.CARRIER.UL_SYM.word c).addr, 1) :: l else l } : GateEntry)
  let later := (times.filter fun t => t != base).eraseDups
  let gates := gate base counts :: later.map fun t => gate t []
  let released := parts.foldl (fun l p => assocSet l p.eaxc (at_ p)) (s.car c).released
  (s.modCar c fun x => { x with released := released }).forEach gates fun g s => s.addGate g

/-- The paths' samples of an uplink symbol are measured: turnarounds, gain control, a converter that is stuck or in overrange (R124, R139,
R178). -/
def State.measureSymbol (s : State) (c n : Nat) (adc : List (List Cplx)) : State :=
  let r := s.form c
  let clip := (List.range 8).map fun g => s.turnClip c g (r.boundary n) (r.boundary (n + 1))
  s.forEach (List.range 64) fun p s =>
    let s := if s.pathEnabled p && clip.getD (groupOf p) false then s.bump (Reg.PATH.TURN_CLIP.word p) else s
    let xs := adc.getD p []
    if xs.isEmpty then s
    else
      let codes := s.symbolCodes c n xs
      let s := s.agcMeasure c n p codes
      let s := if s.adcStuck c n p xs then s.retire p 1 else s
      let k := if s.overranges c n p codes then (assoc? (s.path p).overrange c).getD 0 + 1 else 0
      let s := s.modPath p fun x => { x with overrange := assocSet x.overrange c k }
      if 10 ≤ k then s.retire p 2 else s

/-! ### Replay records (R45 to R47) -/

/-- The record of the beam engine and that of the fronthaul for a symbol of a carrier. -/
def State.beamReplay (s : State) (c n : Nat) : Option BeamReplay := (s.beam.replays.getD c []).find? fun x => x.symbol == n
def State.fhReplay (s : State) (c n : Nat) : Option FhReplay := (s.fh.replays.getD c []).find? fun x => x.symbol == n

/-- The sections and the weights under which the work of a symbol executes, again or for the first time: those of its records, or what
stands where its boundary has not passed (R47). -/
def State.forceFor (s : State) (c n : Nat) (dl : Bool) : List CForce :=
  forcesOf (match s.fhReplay c n with
    | some x => x.force
    | none => s.fh.force) dl c n
def State.tableFor (s : State) (c n : Nat) : List (List (Option LayerWeights)) :=
  match s.beamReplay c n with
  | some x => x.weights
  | none => s.weightTable s.fh.force true c n
def State.useFor (s : State) (c n : Nat) : UplinkUse :=
  match s.beamReplay c n with
  | some x => x.use
  | none => s.uplinkUse c n

/-- At its boundary a symbol's records are made, with the configuration epoch in force, and its downlink gate takes that epoch and the record
in force (R46, R47). -/
def State.recordReplay (s : State) (c n : Nat) : State :=
  let r := s.form c
  let a := r.boundary n
  let epoch := (s.car c).epoch
  let b : BeamReplay := { symbol := n, boundary := a, epoch := epoch,
                          weights := if s.dlSym c n then s.weightTable s.fh.force true c n else [],
                          use := if s.ulSym c n then s.uplinkUse c n else { weights := [], inverses := [] } }
  let f : FhReplay := { symbol := n, boundary := a, epoch := epoch,
                        force := forcesOf s.fh.force true c n ++ forcesOf s.fh.force false c n,
                        data := s.fh.data.filter fun d => d.carrier == c && d.symbol == n }
  { s with beam := { s.beam with replays := s.beam.replays.modify c fun l => b :: l },
           fh := { s.fh with replays := s.fh.replays.modify c fun l => f :: l },
           gates := s.gates.map fun g =>
             if decide (g.kind = .down) && g.carrier == c && g.symbol == n then { g with epoch := epoch, form := r } else g }

/-- The records of a carrier older than its previous committed boundary are freed once both units have their checkpoint of the boundary
(R45, R46). -/
def State.freeReplays (s : State) (c a : Nat) : State :=
  let old := (s.car c).previous
  { s with beam := { s.beam with checks := s.beam.checks.set c a,
                                 replays := s.beam.replays.modify c fun l => l.filter fun x => decide (old ≤ x.boundary) },
           fh := { s.fh with checks := s.fh.checks.set c a,
                             replays := s.fh.replays.modify c fun l => l.filter fun x => decide (old ≤ x.boundary) } }

/-- An uplink symbol of a local carrier: its frames enter the gates of their eAxCs (R278 to R280, R390). -/
def State.localUplink (s : State) (c n : Nat) (ys : List (List Cplx)) (e : Int) (rxSat : Nat) : State :=
  let r := s.form c
  let use := s.useFor c n
  let beamId := r.mode == modeBeamId
  let forces := s.forceFor c n false
  let layers := (List.range r.ul).filter fun l => forces.any fun f => f.layer == l
  let vals := layers.map fun l => (l, (List.range r.width).map fun prb => deliverPrb (s.outExp c) (localCombined beamId r.groupSize use ys e l prb))
  let value := fun l prb => (((assoc? vals l).getD []).getD prb ([], 0)).1
  let sat := sumNat (vals.map fun x => sumNat (x.2.map fun y => y.2))
  let frames := s.uplinkFrames r n forces value
  let parts := (frames.map fun f => f.eaxc).eraseDups.map fun k => ({ eaxc := k, frames := frames.filter fun f => f.eaxc == k, force := [] } : UpPart)
  s.upGate c n 0 parts
    (((Reg.CARRIER.RX_SAT.word c).addr, rxSat) :: (Reg.BEAM.UL_SAT.word.addr, sat) :: weightCounts r.groupSize r.width use.weights forces beamId)

/-- An uplink symbol of an array-joint carrier: the landing's own outputs enter the sums; the egress landing's gates wait for every layer of
every chunk (R312, R313). -/
def State.jointUplink (s : State) (c n : Nat) (ys : List (List Cplx)) (e : Int) (rxSat : Nat) : State :=
  let r := s.form c
  let use := s.useFor c n
  let beamId := r.mode == modeBeamId
  let forces := s.forceFor c n false
  let counts := ((Reg.CARRIER.RX_SAT.word c).addr, rxSat) :: weightCounts r.groupSize r.width use.weights forces beamId
  let egress := s.isEgress c
  let eaxcs := if egress then (forces.filterMap fun f => (s.egressOf f).map fun x => x.2).eraseDups else []
  let parts := eaxcs.map fun k =>
    ({ eaxc := k, frames := [], force := forces.filter fun f => (s.egressOf f).any fun x => x.2 == k } : UpPart)
  let s := s.upGate c n (if egress then r.ul * r.chunks.length else 0) parts counts
  if s.jointHeld (r.boundary n) then s
  else
    let rows := (List.range r.width).map fun prb => matched 12 r.groupSize use ys e prb
    let name := r.name n
    let o := s.outExp c
    let inverses := if s.isTop then use.inverses else []
    s.forEach (List.range r.ul) fun l s => s.forEach r.chunks fun first s =>
      let prbs := ((rows.drop first).take chunkPrbs).map fun row => let y := row.getD l ([], 0); (y.2, y.1)
      s.ownChunk { carrier := c, layer := l, slot := name.1, sym := name.2, first := first, prbs := prbs } inverses o

/-- Uplink symbol `n` of a carrier has ended, with the codes that each path received. -/
def State.uplinkEnd (s : State) (c n : Nat) (adc : List (List Cplx)) : State :=
  let s := s.measureSymbol c n adc
  if s.shedUp c then s.shedSymbol c
  else
    let got := fun p => !(adc.getD p []).isEmpty
    let raw := (List.range 64).map fun p => if got p then s.rxBlock c p n (adc.getD p []) else ([], 0, 0)
    let valid := (List.range 64).map fun p => got p && s.pathValid c n p
    let blocks := raw.map fun x => (x.1, x.2.1)
    let rxSat := sumNat (raw.map fun x => x.2.2)
    let s := s.sounding c n blocks valid
    let al := alignBlocks blocks valid
    if (s.form c).joint then s.jointUplink c n al.1 al.2 rxSat else s.localUplink c n al.1 al.2 rxSat

/-- Symbols processed between the failure of a path and its exclusion are degraded by it (R180), and those that lack a group's weights
(R537). -/
def State.degradedByPath (s : State) (c n : Nat) : State :=
  let failed := (List.range 64).filter fun p => let x := s.path p; x.failedAt.isSome && x.failedIn && !x.excluded.contains c
  let s := s.forEach failed fun p s => s.modPath p fun x => { x with failedSyms := x.failedSyms + 1 }
  if s.lacksWeights c || !failed.isEmpty then s.degraded c n else s

/-! ### What a diagnostic capture records (R265, R267) -/

/-- Place and size of the diagnostic capture buffer: what the observation slots leave of the capture allocation (R265). -/
def State.capPlace (s : State) : Nat := s.obsBytes
def State.capSize (s : State) : Nat := s.allocBytes kindCapture - s.obsBytes

/-- Bytes that an armed capture may take, its header included, and those of its data. -/
def State.capLength (s : State) : Nat := 1024 * getBits s.cap.ctl 4 12
def State.capRoom (s : State) : Nat := min s.capLength s.capSize - 64

/-- Carrier, path and tap of the armed capture. -/
def State.capCarrier (s : State) : Nat := getBits s.cap.ctl 24 3
def State.capOn (s : State) : Nat := getBits s.cap.ctl 16 6
def State.capTapOf (s : State) : Nat := getBits s.cap.ctl 30 2

/-- What the tap yields for symbol `n` from the path's codes: stage 1 samples, stage 6 samples, or the stage 9 block after its exponent. -/
def State.capBytes (s : State) (n : Nat) (codes : List Cplx) : List Byte :=
  let c := s.capCarrier
  let p := s.capOn
  let r := s.form c
  let a := r.boundary n
  let words := fun (l : List Cplx) => (l.map fun v => leBytes 4 v.word.toNat).flatten
  if s.capTapOf = 0 then words (s.rxPath p a codes ((a / 2 : Nat) : Int) ((r.boundary (n + 1) - a) / 2))
  else if s.capTapOf = 1 then words (s.rxSymbol c p n codes).1
  else
    let b := s.rxBlock c p n codes
    leBytes 4 b.2.1 ++ words b.1

/-- Symbol `n` of a carrier enters a capture that records on it, as far as there is room: an FFT block whole or not at all. -/
def State.capTake (s : State) (c n : Nat) (codes : List Cplx) : State :=
  if s.cap.recording && s.capCarrier == c && decide (s.cap.start ≤ (s.form c).boundary n) then
    let new := s.capBytes n codes
    let all := s.cap.data ++ new
    if s.capTapOf = 2 && s.capRoom < all.length then s
    else { s with cap := { s.cap with data := all.take s.capRoom } }
  else s

/-- The end of a capture: what it recorded is in the buffer after its header, its cause shows, and it is done (R265, R266). -/
def State.capStop (s : State) (cause : Nat) : State :=
  let s := if s.cap.recording then
      let header := (List.range 64).map
        (Config.headerByte 2 [s.capTapOf, s.capCarrier, s.capOn, s.cap.start, 64 + s.cap.data.length, cause])
      s.allocWrite kindCapture s.capPlace (header ++ s.cap.data)
    else s
  let s := { s with cap := { s.cap with armed := false, recording := false } }
  ((s.put Reg.CARRIER.CAP_STATUS.cause cause).put Reg.CARRIER.CAP_STATUS.armed 0).put Reg.CARRIER.CAP_STATUS.done 1

/-- Symbol `n` of a carrier has ended: a capture takes it, whatever its direction (R247), then its work is done; a marked symbol of a
sounding slot without uplink is skipped (R259). -/
def State.endSymbol (s : State) (c n : Nat) (adc : List (List Cplx)) : State :=
  let s := s.capTake c n (adc.getD s.capOn [])
  let s := if s.ulSym c n then s.uplinkEnd c n adc else s.sounding c n [] []
  if s.dlSym c n || s.ulSym c n then s.degradedByPath c n else s

/-! ### Downlink gates (R29, R30, R40) -/

/-- Does symbol `n` carry downlink, also on a carrier that is about to start, or that stops? -/
def State.willDl (s : State) (c n : Nat) : Bool :=
  let r := s.form c
  if s.carState c == carrierStarting then
    carriesDl r (patternOf (s.patternWord r)) n && decide ((s.car c).since ≤ r.boundary n)
  else s.carActive c && s.dlSym c n && (s.carState c != carrierStopping || decide (r.boundary n < r.slotFrom (s.car c).since))

/-- The data that met the deadline of symbol `n`, with the sections in force, enters the symbol's gate; what has not arrived is late. A
symbol that has its gate keeps it. -/
def State.gateDown (s : State) (c n : Nat) : State :=
  let have_ := s.gates.any fun g => decide (g.kind = .down) && g.carrier == c && g.symbol == n
  if have_ || !s.willDl c n then s
  else
    (s.lateSections c n).addGate
      { kind := .down, carrier := c, form := s.form c, symbol := n, release := (s.form c).boundary n, wait := 0, epoch := (s.car c).epoch,
        msgs := [], frames := [], data := s.fh.data.filter (fun d => d.carrier == c && d.symbol == n),
        force := forcesOf s.fh.force true c n, counts := [] }

/-- DOWNLINK_DEADLINE: every symbol of the carrier to come whose deadline has passed has its gate, also where the deadline moved past it
(R40). -/
def State.deadline (s : State) (c : Nat) : State :=
  match s.form? c with
  | none => s
  | some r =>
    if !s.clock.started then s
    else
      let from0 := r.symbolAt s.arrayNow + 1
      let upto := r.symbolAt (s.arrayNow + ticksOfNs (s.dlLatency c) + ticksOfUs (s.car c).reserve)
      s.forEach ((List.range (upto + 1 - from0)).map fun i => from0 + i) fun n s => s.gateDown c n

/-- DOWNLINK_DEADLINE (R29). -/
def execDownlinkDeadline (t : Nat) (c : Fin 8) (s : State) : Host.Outcome State Fault Refusal := finish ((s.atTime t).deadline c.val)

/-! ### Releases (R24, R25) -/

/-- The samples of a downlink symbol on every path, with what they count (R239, R245, R275, R276). -/
def State.downSamples (s : State) (g : GateEntry) (data : List PrbData) : List (List Cplx × Nat) × List (Nat × Nat) :=
  let c := g.carrier
  let r := g.form
  let table := s.tableFor c g.symbol
  let weights := fun l grp => (table.getD l []).getD grp none
  let adj := s.getS (Reg.CARRIER.OFDM_CTL.ifft_adj c)
  let blocks := (List.range 64).map fun p =>
    let y := precodePath weights r.groupSize r.width data p
    downlinkSymbol r.fft r.spacing r.width r.ecp (g.symbol % r.symsPerHalf == 0) adj y.2 y.1
  (blocks, ((Reg.CARRIER.TX_IFFT_SAT.word c).addr, sumNat (blocks.map fun b => b.2)) ::
    weightCounts r.groupSize r.width table (s.forceFor c g.symbol true) (r.mode == modeBeamId))

/-- The blocks of a downlink symbol on every path but those `off`, a shed symbol as zeros (R566), and its counts. -/
def State.downWork (s : State) (g : GateEntry) (off : List Nat) : List TxBlock × List (Nat × Nat) :=
  let y := s.downSamples g (if s.shedDown g.carrier then [] else g.data)
  ((((List.range 64).zip y.1).filter fun e => !off.contains e.1).map fun e =>
    { carrier := g.carrier, path := e.1, start := g.release, step := g.form.step, samples := e.2.1 }, y.2)
def State.downBlocks (s : State) (g : GateEntry) (off : List Nat) : List TxBlock := (s.downWork g off).1

/-- A downlink symbol passes its gate but on the paths `off`. -/
def State.releaseDown (s : State) (g : GateEntry) (off : List Nat) : State :=
  let y := s.downWork g off
  let s := s.when (s.shedDown g.carrier) fun s => s.shedSymbol g.carrier
  ({ s with txBlocks := s.txBlocks ++ y.1 }).countAll y.2

/-- An uplink symbol passes its gate: its frames, its counters (R268, R392). -/
def State.releaseUp (s : State) (g : GateEntry) : State :=
  let frames := if g.force.isEmpty then g.frames else s.uplinkFrames g.form g.symbol g.force (gateValue g.data)
  (s.countAll g.counts).forEach frames fun f s => s.releaseFrame g.release f

/-- The frames of a PRACH occasion pass their gate (R257). -/
def State.releasePrach (s : State) (g : GateEntry) : State := (s.countAll g.counts).forEach g.frames fun f s =>
  s.releaseFrame g.release f

/-- The records of a symbol pass their gate toward the stair ports (R446). -/
def State.releaseStair (s : State) (g : GateEntry) : State := (s.countAll g.counts).forEach g.msgs fun m s => s.stairOut g.form g.symbol m

/-- Is the output's work lost with a function that recovery has given up (R543)? -/
def State.severed (s : State) (g : GateEntry) : Bool :=
  s.isWedged .beam || s.isWedged .cnv || s.isWedged .memory ||
    ((decide (g.kind = .up) || decide (g.kind = .prach)) && s.isWedged .fronthaul) || (g.form.joint && s.isWedged .stair)

/-- Do outputs of hall `h` enter the symbols of a carrier and direction? What a hall's program contributes is the program's matter (log entry
71). -/
def State.hallServes (s : State) (h c : Nat) (dl : Bool) : Bool :=
  match (s.hall h).program with
  | some bs => (Config.hallServes bs).testBit (2 * c + b2n dl)
  | none => false

/-- Does an output lack the work of a hall: of one that has lost its tile for good (R540, R543) or that has trapped (R350), of one that is shed
(R567)? -/
def State.hallGone (s : State) (c : Nat) (dl : Bool) : Bool :=
  (List.range s.halls.length).any fun h => ((s.hall h).evicted || (s.hall h).wedged || (s.hall h).trap != 0) && s.hallServes h c dl
def State.shedByHall (s : State) (c : Nat) (dl : Bool) : Bool :=
  (List.range s.halls.length).any fun h => (s.hall h).shed && s.hallServes h c dl

/-- The recoveries that hold back an output due at a release time: the work still on its way to its gate when the fault came, which is
the work due later than the reserve (R25, R42, R43; DEDUCED, log entry 35). -/
def State.holdersAt (s : State) (c release : Nat) : List Recov :=
  (s.holders c).filter fun r => decide (r.since + ticksOfUs (s.car c).reserve < release)

/-- The paths concerned, where every recovery that holds an output of the carrier concerns one path. -/
def State.heldPaths (s : State) (c release : Nat) : Option (List Nat) :=
  let l := s.holdersAt c release
  if l.isEmpty || l.any fun r => r.path.isNone then none else some (l.filterMap fun r => r.path)

/-- The direction of an output. -/
def GateEntry.isDl (g : GateEntry) : Bool :=
  decide (g.kind = .down) || g.msgs.any fun m => match m with
    | .layer _ => true
    | _ => false

/-- Is the symbol of a downlink gate no downlink symbol after all: its carrier does not run, or a pattern that has changed gives it another
direction (R249)? -/
def State.noDown (s : State) (g : GateEntry) : Bool := decide (g.kind = .down) && (!s.carActive g.carrier || !s.dlSym g.carrier g.symbol)

/-- Is an output not released at its time for want of work that recovery, an array-wide transaction in doubt or a lost function holds, or
because its symbol was missed on its way (R25, R539, R543)? -/
def State.withheld (s : State) (g : GateEntry) : Bool :=
  !(s.holdersAt g.carrier g.release).isEmpty || s.severed g || s.hallGone g.carrier g.isDl || 0 < g.wait ||
    (decide (g.kind = .down) && (g.form.joint && s.jointHeld g.release || (s.car g.carrier).missedDl.contains g.symbol))

/-- The output passes its gate. -/
def State.passGate (s : State) (g : GateEntry) : State :=
  match g.kind with
  | .down => s.releaseDown g []
  | .up => s.releaseUp g
  | .prach => s.releasePrach g
  | .stair => s.releaseStair g

/-- The output is withheld, and its symbol missed; where only path pipelines are being replayed, the other paths transmit a downlink symbol
(R539). -/
def State.missGate (s : State) (g : GateEntry) : State :=
  let before := (s.car g.carrier).missedDl.contains g.symbol
  let s := s.missed g.carrier g.symbol g.isDl
  match s.heldPaths g.carrier g.release with
  | some ps =>
    if decide (g.kind = .down) && !before && !s.severed g && !s.hallGone g.carrier true && !(g.form.joint && s.jointHeld g.release) then
      s.releaseDown g ps
    else s
  | none => s

/-- One output at its release time (R25, R538, R539, R567). -/
def State.releaseOne (s : State) (g : GateEntry) : State :=
  if s.noDown g then s
  else
    let s := if decide (g.kind = .down) || decide (g.kind = .up) then s.countDegraded g.carrier g.symbol else s
    if s.withheld g then s.missGate g
    else if s.shedByHall g.carrier g.isDl then s.missedIn Reg.POWER.SHED_SYM.word g.carrier g.symbol g.isDl
    else s.passGate g

/-- Put a gate entry into a list in order of release. -/
def insertGate (g : GateEntry) : List GateEntry → List GateEntry
  | [] => [g]
  | x :: xs => if g.release < x.release then g :: x :: xs else x :: insertGate g xs

/-- Has an output's time come? A downlink symbol passes its gate as it begins. -/
def State.ripe (s : State) (g : GateEntry) : Bool :=
  decide (g.release ≤ s.arrayNow) &&
    (decide (g.kind ≠ .down) || decide (g.release < s.arrayNow) || (s.car g.carrier).begun == some g.symbol)

/-- Every output whose time has come, in the order of their times, and the samples that nothing can change any more. -/
def State.releases (s : State) : State :=
  let due := (s.gates.filter s.ripe).foldl (fun l g => insertGate g l) []
  let s := { s with gates := s.gates.filter fun g => !s.ripe g }
  ((s.forEach due fun g s => s.releaseOne g).drainPorts).transmitUpTo s.arrayNow

/-- RELEASE_TIME (R24). -/
def execReleaseTime (t : Nat) (s : State) : Host.Outcome State Fault Refusal := finish (s.atTime t).releases

/-! ### Symbol boundaries (R45, R119) -/

/-- The boundary becomes the carrier's committed one, unless a stage holds its checkpoint back; the halls record theirs with the timing
carrier's (R45, R352). -/
def State.checkpoint (s : State) (c a : Nat) : State :=
  if s.held c then s
  else
    let s := (s.modCar c fun x => { x with previous := x.committed, committed := a }).freeReplays c a
    if s.timing == some c then s.hallCheckpoints else s

/-- A record that keeps the numerology replaces the old one at a slot boundary (R106). The weight sets and the layer map of the carrier begin
anew with it: the spec does not say what becomes of them (DESIGN CHOICE, log entry 72). -/
def State.swapRecord (s : State) (c n a : Nat) : State :=
  let x := s.car c
  match x.after with
  | some (some r) =>
    if s.running c && a ≥ x.since && (s.form c).isSlotStart n then
      let pat := if r.tdd = (s.form c).tdd then x.pattern else s.patternWord r
      let bytes := s.carBytes c
      (((s.modCar c fun y => { y with form := some r, bytes := bytes, pattern := pat, after := none }).clearBeam c).showForm c).showLatency c
    else s
  | _ => s

/-- What an update point brings to the paths: coefficients and mutes, and then the gains that the AGC has decided (R120, R125, R126). -/
def State.updatePoint (s : State) (c n : Nat) : State :=
  s.clearTables.updatePaths.forEach (List.range 64) fun p s => s.agcUpdate c n p

/-- Does the beam engine rotate weights of a bank's paths: does the feed of an active carrier differ from a tag of what it uses (R283)? -/
def State.rotates (s : State) (b : Nat) : Bool :=
  s.activeCarriers.any fun c =>
    let cross := (s.car c).feed.testBit b
    if (s.form c).mode = modeBeamId then cross
    else
      let set := s.setInForce c
      ((List.range 64).filter fun p => bankOf p == b).any fun p =>
        (!set.dl.isEmpty && set.dlTags.getD p false != cross) || (!set.ul.isEmpty && set.ulTags.getD p false != cross)

/-- BEAM.STATUS shows the rotation of each bank's paths (R283). -/
def State.showRotation (s : State) : State :=
  (s.putB Reg.BEAM.STATUS.rot_a (s.rotates 0)).putB Reg.BEAM.STATUS.rot_b (s.rotates 1)

/-- A symbol of a carrier begins: LO banks, feeds, gains and settings of the paths at update points, blanking, the replay records, the events
of the halls, and the symbol's own downlink output. -/
def State.beginSymbol (s : State) (c n : Nat) : State :=
  let r := s.form c
  let a := r.boundary n
  let s := s.loBoundary a
  let feed := b2n (s.crossfed 0) + 2 * b2n (s.crossfed 1)
  let s := (s.modCar c fun x => { x with feed := feed, begun := some n }).showRotation
  let s := if s.timing == some c then s.updatePoint c n else s
  let s := s.loSymbol c n a
  let s := s.forEach (List.range 8) fun g s => let b := s.blankOf g; s.countBlanked g b.1 b.2
  let s := (s.gateDown c n).recordReplay c n
  let s :=
    if s.timing == some c then
      let s := s.raiseAll evSymbol
      if r.isSlotStart n then s.raiseAll evSlot else s
    else s
  s.releases

/-- What no replay and no later symbol can reach is dropped. -/
def State.pruneSymbol (s : State) (c n : Nat) : State :=
  let old := (s.car c).previous
  let keepSym := n - 2
  let s := { s with fh := { s.fh with force := s.fh.force.filter (fun f => f.carrier != c || decide (keepSym < f.last)),
                                      data := s.fh.data.filter (fun d => d.carrier != c || decide (keepSym ≤ d.symbol)),
                                      lateOf := s.fh.lateOf.filter fun k => s.eaxcCarrier k.2.2.1 != c || decide (keepSym ≤ k.1) } }
  let s := { s with radio := { s.radio with blankSpans := s.radio.blankSpans.filter fun x => match x.2.2 with
      | some e => decide (old < e + 2 * rxPad)
      | none => true } }
  s.pruneLeaving.pruneSums

/-- Does the carrier stop at or before the boundary of symbol `n`? -/
def State.stopsBy (s : State) (c n : Nat) : Bool :=
  s.carState c == carrierStopping && decide ((s.form c).slotFrom (s.car c).since ≤ (s.form c).boundary n)

/-- Symbol `n` of a carrier is at its boundary: the one before it ends, staged values take effect, and the boundary is checkpointed. -/
def State.passBoundary (s : State) (c n : Nat) (adc : List (List Cplx)) : State :=
  let r := s.form c
  let s := s.latchAll.checkpoint c (r.boundary n)
  let s := if (s.car c).first < n then s.endSymbol c (n - 1) adc else s
  let s := (s.applyBoundary (some c)).dropEntries.followSlot c n
  if r.isSlotStart n then s.epochOverdue c (r.slotOf n) else s

/-- SYMBOL_BOUNDARY: symbol `n` of the carrier begins, and the one before it ends. At its stop boundary a carrier begins none. -/
def State.symbolBoundary (s : State) (c : Nat) (adc : List (List Cplx)) : State :=
  let n := (s.form c).symbolAt s.arrayNow
  let x := s.car c
  if !s.carActive c || !s.clock.started || (match x.begun with | some m => decide (n ≤ m) | none => false) then s
  else if s.stopsBy c n then (s.passBoundary c n adc).modCar c fun x => { x with begun := some n }
  else (((s.passBoundary c n adc).swapRecord c n ((s.form c).boundary n)).beginSymbol c n).pruneSymbol c n

/-- SYMBOL_BOUNDARY (R45). -/
def execSymbolBoundary (t : Nat) (c : Fin 8) (adc : List (List Cplx)) (s : State) : Host.Outcome State Fault Refusal :=
  finish ((s.atTime t).symbolBoundary c.val adc)

/-- INTERNAL_CHECKPOINT: a hardened unit records a checkpoint between symbol boundaries; replay records stay until R45 frees them, and
nothing that the outside can see changes (R531). -/
def execInternalCheckpoint (t : Nat) (_unit : Nat) (s : State) : Host.Outcome State Fault Refusal := finish (s.atTime t)

/-! ### Start and stop of carriers (R250, R451, R578, R583) -/

/-- Does a condition hold a carrier's start at array time `a`? -/
def State.startHeld (s : State) (c a : Nat) : Bool :=
  let r := s.form c
  let up := decide (s.boot.phase = .ready) && (s.power == powerActive || s.power == powerQuiet)
  !up || !s.clock.started || s.clock.await || s.clock.stepDue.isSome || (s.get Reg.POWER.RET_HOLD.held).testBit c ||
    (r.joint && (s.treeState != treeFormed || s.flag Reg.CLOCK.REF_STATUS.ref_stop || decide (a < s.treeOf.start) || s.jointHeld a))

/-- CARRIER_START: a carrier that is due starts at its first slot boundary at which nothing holds it. -/
def State.carrierStart (s : State) (c : Nat) : State :=
  let r := s.form c
  let a := s.arrayNow
  if s.carState c != carrierStarting || (s.form? c).isNone || a < (s.car c).since || !r.isSlotBoundary a || s.startHeld c a then s
  else
    let n := r.symbolAt a
    let s := s.put (Reg.CARRIER.STATUS.state c) carrierRunning
    let pat := s.patternWord r
    let reserve := s.get Reg.RECOVERY.RESERVE.reserve
    let s := s.modCar c fun x => { x with pattern := pat, reserve := reserve, committed := a, previous := a,
                                          released := [], degraded := [], degradedDue := [], missedDl := [], missedUl := [],
                                          srsAreas := [none, none], srsDrop := none, first := n, begun := none }
    ((s.showForm c).showLatency c).beginSymbol c n

/-- CARRIER_START (R250). -/
def execCarrierStart (t : Nat) (c : Fin 8) (s : State) : Host.Outcome State Fault Refusal := finish ((s.atTime t).carrierStart c.val)

/-- A carrier that stops: its last symbol ends, with the codes that each path received, where its boundary has not been passed; a capture on
it ends, its epochs end, what waited for later symbols is dropped, and it reads OFF, or STARTING where it will start again. -/
def State.carrierStop (s : State) (c : Nat) (adc : List (List Cplx)) : State :=
  let r := s.form c
  let x := s.car c
  let a := s.arrayNow
  if s.carState c != carrierStopping || a < x.since || !r.isSlotBoundary a then s
  else
    let s := s.symbolBoundary c adc
    let s := if s.cap.armed && s.capCarrier == c then s.capStop 5 else s
    let s := { s with beam := { s.beam with epochs := s.beam.epochs.set c none },
                      gates := s.gates.filter fun (g : GateEntry) => !(decide (g.kind = GateKind.down) && g.carrier == c && decide (a ≤ g.release)) }
    let s := (s.putBit Reg.SOLVER.STATUS.running c false).put (Reg.CARRIER.SRS_STATUS.held c) 0
    match (s.car c).after with
    | some (some r') => ((if r' == r then s else s.clearBeam c).dueStart c a r').showLatency c
    | _ =>
      let s := (s.clearBeam c).modCar c fun y => { y with form := none, after := none }
      ((s.put (Reg.CARRIER.STATUS.state c) carrierOff).showForm c).showLatency c


end Sys2Proof.Machine
end

