-- ==== Sys2Proof/Machine/Observe.lean ====
section
/-!
DEFINITION. The end of an observation capture (R211, R214, R217, R218): its streams, the causes that discard it, and what an accepted one
feeds.
-/

namespace Sys2Proof.Machine

open Sys2Proof

/-- Does a value of the settings differ within a span of array time? -/
def State.differs {α : Type} [BEq α] (s : State) (a b : Nat) (f : State → α) : Bool :=
  match (s.over a b).map f with
  | [] => false
  | x :: xs => xs.any fun y => !(y == x)

/-- The first discard cause that applies to a finished capture, 0 for none (R214): each judged by the settings of the window. -/
def State.obsCause (s : State) (g : Nat) (c : ObsCapture) (z x : List Cplx) : Nat :=
  let h := s.over c.start c.stop
  let near := ticksOfUs 10
  if h.any fun h => h.blanked g then 1
  else if h.any fun h => h.muted c.path then 2
  else if s.differs (c.start - near) (c.stop + near + 1) fun h => h.crossfed (g / 4) then 3
  else if 8 < countIf (fun v => decide (2040 ≤ v.re.natAbs) || decide (2040 ≤ v.im.natAbs)) z then 4
  else if sumNat (x.map Cplx.power) * 10000 < (c.stop - c.start) * 2 ^ 30 then 5
  else if c.start < (s.obsOf c.path).planned then 7
  else if s.differs c.start (c.stop + 1) fun h => h.get (Reg.PATH.TX_ATTEN.atten c.path) then 8
  else 0

/-- The state with every downlink symbol that shapes the output by array time `a` released. -/
def State.shapedThrough (s : State) (a : Nat) : State :=
  let due := s.gates.filter fun g => decide (g.kind = .down) && decide (g.release ≤ a + txReach g.form.step)
  { s with txBlocks := s.txBlocks ++ (due.map fun g => s.downBlocks g []).flatten }

/-- The stage 9 samples of a path in a capture's window (R211). -/
def State.capturedX (s : State) (p : Nat) (c : ObsCapture) : List Cplx := (s.stage9 p c.start (c.stop - c.start) c.start c.start).out

/-- What the pre-distortion of a path sees of its neighbour in slot `j` in a capture's window: zeros where there is none (R202, R211). -/
def State.capturedNeighbour (s : State) (c : ObsCapture) (j : Nat) : List Cplx :=
  match planNeighbour ((s.asOf c.start).sectionBytes secPaths) c.path j with
  | some q => s.heardFrom q c.start (s.capturedX q c)
  | none => List.replicate (c.stop - c.start) Cplx.zero

/-- A capture in its slot: header, then six streams of L samples (R211). -/
def captureBytes (header : List Nat) (l : Nat) (z : List Cplx) (x : List Cplx) (xn : List (List Cplx)) : List Byte :=
  let stream := fun (v : List Cplx) =>
    let arr := v.toArray
    ((List.range l).map fun i => leBytes 4 (arr.getD i Cplx.zero).word.toNat).flatten
  ((List.range 64).map (Config.headerByte 0 header)) ++ stream z ++ stream x ++ ((List.range 4).map fun j => stream (xn.getD j [])).flatten

/-- The gain of R218 in dB from the streams z and x of a capture. -/
def captureGain (z x : List Cplx) : Int :=
  let r := corrOf z x
  satS 16 (Config.decibel r.1.power (r.2 * r.2))

/-- An accepted capture: gain, supervision, the round in progress, verification (R218 to R223). -/
def State.obsAccept (s : State) (g : Nat) (c : ObsCapture) (z x : List Cplx) (nmse : Int) : State :=
  let gain := captureGain z x
  let s := s.putS (Reg.PIPE.OBS_GAIN.last c.path) gain
  let s := s.putS (Reg.PIPE.DPD_NMSE.nmse_last c.path) (satS 16 nmse)
  let s := s.supervise c.path c gain
  (s.dpdUse g c).dpdVerify g c (satS 16 nmse)

/-- A capture ends (R211, R214, R217, R218); `codes` are its observation codes of 12 bits, which stand in [15:4] of stream z. One whose slot
no longer fits the allocation is dropped (R216). -/
def State.obsFinish (s : State) (g : Nat) (codes : List Cplx) (nmse : Int) : State :=
  match (s.obsGroup g).capture with
  | none => s
  | some c =>
    if s.arrayNow < c.stop then s
    else
      let s := s.modObsGroup g fun y => { y with capture := none }
      match s.obsPlace g with
      | none => s
      | some base =>
        let l := c.stop - c.start
        let u := s.shapedThrough c.stop
        let x := u.capturedX c.path c
        let z := (codes.take l).map (Cplx.smul 16)
        let cause := s.obsCause g c (codes.take l) x
        let place := base + c.slot * s.obsSlotBytes g
        let s := s.allocWrite kindCapture place
          (captureBytes [c.path, c.bank, c.epoch, c.start, l, c.atten, cause] l z x ((List.range 4).map (u.capturedNeighbour c)))
        let s := if c.host then
            (s.put (Reg.GROUP.OBS_HOST_ADDR.word g) (s.allocAddr kindCapture place)).put (Reg.GROUP.OBS_STATUS.host_done g) 1
          else s
        if cause != 0 then s.obsDiscard g cause else s.obsAccept g c z x nmse

/-- OBS_CAPTURE_DONE (R218); the NMSE is the ratio of the two sums in dB. -/
def execObsCaptureDone (t : Nat) (g : Fin 8) (inPhase quadrature : List Int) (err ref : Nat) (s : State) :
    Host.Outcome State Fault Refusal :=
  finish ((s.atTime t).obsFinish g.val (inPhase.zipWith Cplx.mk quadrature) (Config.decibel err ref))

end Sys2Proof.Machine
end

