-- ==== Sys2Proof/Machine/Capture.lean ====
section
/-!
DEFINITION. What the OFDM engine delivers on request: the diagnostic capture (R265 to R267) and PRACH occasions (R251 to R258).
-/

namespace Sys2Proof.Machine

open Sys2Proof

/-! ### Writing the fields of a register (R7) -/

/-- A write stores each field of a register by its access code, within its limits. -/
def State.storeWord (s : State) (a : Nat) (v : Word) : State :=
  let old := s.word a
  s.setWord a (s.legal s.hasParent (fun c => (s.planRec c).width) a old ((fieldsAt a).foldl (storeField s.imageLocked v) old))

/-! ### The diagnostic capture (R265, R266) -/

/-- The causes that refuse an arm, or end a capture. -/
def capBusy : Nat := 1
def capBigger : Nat := 2
def capPath : Nat := 3
def capTap : Nat := 4
def capOff : Nat := 5
def capTrig : Nat := 6
def capCancelled : Nat := 7

/-- The first cause that refuses an arm, 0 for none (R266, R564, R573). -/
def State.capRefusal (s : State) : Nat :=
  let w := s.word Reg.CARRIER.CAP_CTL.word.addr
  let t := s.word Reg.CARRIER.CAP_TRIG.word.addr
  let c := getBits w 24 3
  let up := s.power == powerActive || s.power == powerQuiet
  if s.cap.armed || !up then capBusy
  else if !(s.shedding shedDiag).isEmpty then capCancelled
  else if s.capSize < 1024 * getBits w 4 12 then capBigger
  else if !s.pathEnabled (getBits w 16 6) then capPath
  else if getBits w 30 2 = 3 then capTap
  else if !s.running c then capOff
  else if getBits t 31 1 = 0 && (s.form c).slotsPerFrame ≤ getBits t 8 7 then capTrig
  else 0

/-- CAP_ARM: the write stores CAP_CTL, then the capture is armed or refused. A CAP_CTL that a capture is armed with stays in force for
it. -/
def State.capArm (s : State) (v : Word) : State :=
  let s := s.storeWord Reg.CARRIER.CAP_CTL.word.addr v
  let cause := s.capRefusal
  if cause != 0 then (s.put Reg.CARRIER.CAP_STATUS.cause cause).put Reg.CARRIER.CAP_STATUS.refused 1
  else
    let w := s.word Reg.CARRIER.CAP_CTL.word.addr
    let t := s.word Reg.CARRIER.CAP_TRIG.word.addr
    let s := { s with cap := { armed := true, recording := false, ctl := w, trig := t, start := 0, data := [] } }
    (s.put Reg.CARRIER.CAP_STATUS.cause 0).put Reg.CARRIER.CAP_STATUS.armed 1

/-- CAP_ARM (R266). -/
def execCapArm (t : Nat) (ch : Channel) (value : Word) (s : State) : Host.Outcome State Fault Refusal :=
  finish (s.hostCmd t ch.val Reg.CARRIER.CAP_CTL.word.addr fun s => s.capArm value)

/-- CAP_CANCEL: an armed capture ends (R266). -/
def execCapCancel (t : Nat) (ch : Channel) (s : State) : Host.Outcome State Fault Refusal :=
  finish (s.hostCmd t ch.val Reg.CARRIER.CAP_CTL.word.addr fun s => if s.cap.armed then s.capStop capCancelled else s)

/-- CAP_TRIGGER: an armed capture begins at the boundary of the slot and symbol named, or at the next symbol boundary of its carrier. -/
def State.capTrigger (s : State) : State :=
  let c := s.capCarrier
  let r := s.form c
  let n := r.symbolAt s.arrayNow
  let here := getBits s.cap.trig 31 1 == 1 ||
    (r.slotOf n % r.slotsPerFrame == getBits s.cap.trig 8 7 && r.symIn n == getBits s.cap.trig 0 4)
  if s.cap.armed && !s.cap.recording && s.carActive c && r.isBoundary s.arrayNow && here then
    let a := s.arrayNow
    { s with cap := { s.cap with recording := true, start := a } }
  else s

/-- CAP_TRIGGER (R266). -/
def execCapTrigger (t : Nat) (s : State) : Host.Outcome State Fault Refusal := finish (s.atTime t).capTrigger

/-- Is what a capture has recorded all that fits: to the last byte, or to the last whole FFT block? -/
def State.capFull (s : State) : Bool :=
  let next := if s.capTapOf = 2 then 4 + 48 * (s.form s.capCarrier).width else 1
  decide (s.capRoom < s.cap.data.length + next)

/-- CAP_END: with what its path has received of the symbol in progress the capture has its length, and ends (R265). -/
def State.capEnd (s : State) (codes : List Cplx) : State :=
  let c := s.capCarrier
  if s.cap.armed && s.cap.recording then
    let s := if s.capFull || s.capTapOf = 2 then s else s.capTake c ((s.form c).symbolAt s.arrayNow) codes
    if s.capFull then s.capStop 0 else s
  else s

/-- CAP_END (R265). -/
def execCapEnd (t : Nat) (codes : List Cplx) (s : State) : Host.Outcome State Fault Refusal := finish ((s.atTime t).capEnd codes)

/-! ### PRACH occasions (R251 to R258) -/

/-- The decimation D of an occasion (R253). -/
def Occasion.decimation (o : Occasion) (r : CarrierRec) : Nat := 2 ^ r.fft * 15000 * 2 ^ r.spacing / max 1 (2 ^ o.bits * o.spacing)

/-- The PRACH mixer's increment: round(f_RA × 2^32 / Fs_c), half away from zero (R252). -/
def Occasion.increment (o : Occasion) (r : CarrierRec) : Nat :=
  let fs : Nat := 2 ^ r.fft * 15000 * 2 ^ r.spacing
  let mag : Nat := (o.freq.natAbs * o.spacing * 2 ^ 32 + fs) / (2 * fs)
  unsigned 32 (if o.freq < 0 then -(mag : Int) else mag)

/-- The index at Fs_c of the occasion's first sample, and that of the first sample of window `w`: the first ones at or after their instants
(R251; DEDUCED, log entry 73). -/
def Occasion.from (o : Occasion) (r : CarrierRec) : Nat := ceilDiv o.start r.step
def Occasion.window (o : Occasion) (r : CarrierRec) (w : Nat) : Nat :=
  ceilDiv (o.start + o.cp * tsTicks) r.step + w * (o.decimation r * 2 ^ o.bits)

/-- The end of the last window in array time. -/
def Occasion.stop (o : Occasion) : Nat := o.start + o.cp * tsTicks + o.windows * ticksPerSecond / max 1 o.spacing

/-- The stage 6 samples of a carrier that the extractor shifts to 0 Hz, n counted from the occasion's start (R252). -/
def State.prachMixed (s : State) (c : Nat) (r : CarrierRec) (o : Occasion) (x : Stream) : Stream := fun lo n =>
  let inc := o.increment r
  ((List.range n).zip (s.rxStage6 c r x lo n).1).map fun e =>
    ((ncoAt inc ((lo + e.1 - (o.from r : Int)) % 2 ^ 32).toNat).conj.mul e.2).out16 17

/-- The bins of window `w` on one path, `x` its stage 1 samples: mantissas and exponent. The decimator's delay is removed (R183, R252). -/
def State.prachBins (s : State) (c : Nat) (r : CarrierRec) (o : Occasion) (w : Nat) (x : Stream) : List Cplx × Nat :=
  let d := max 1 (o.decimation r)
  let taps := Config.prachTaps d
  let pts := 2 ^ o.bits
  let rows := (windows taps.length (taps.length / 2) (s.prachMixed c r o x) (o.window r w) (d * pts)).toArray
  let y := transform false o.bits ((List.range pts).map fun i => (dot taps (rows.getD (d * i) [])).out16 17)
  let arr := y.1.toArray
  ((List.range (12 * o.prbs)).map fun i => arr.getD ((i + pts - 6 * o.prbs) % pts) Cplx.zero, y.2)

/-- The output of one beam in one window: the delivered components of each PRB, and how many saturated (R256, R278, R280). -/
def State.prachBeam (s : State) (c : Nat) (o : Occasion) (beam : Nat) (ys : List (List Cplx)) (e : Int) : List (List Cplx × Nat) :=
  let lw := if s.beamValid beam then
      some (s.correctVector c .beamUl [] 0 ((List.range 64).map fun p => s.beamWeight beam p))
    else none
  (List.range o.prbs).map fun q =>
    let z := combinePrb lw ys e q
    deliverPrb (s.outExp c) (z.1.map fun v => (v, z.2))

/-- The frames of every window and beam of an occasion, and how many components saturated (R256). -/
def State.prachFrames (s : State) (c : Nat) (o : Occasion) (adc : List (List Cplx)) : List UFrame × Nat :=
  let r := s.form c
  let names := symbolNames r (o.slot * r.symbols)
  let got := (List.range 64).map fun p => s.pathEnabled p && !(adc.getD p []).isEmpty
  let outs := ((List.range o.windows).map fun w =>
    let blocks := (List.range 64).map fun p =>
      if got.getD p false then s.prachBins c r o w (s.rxPath p o.start (adc.getD p [])) else ([], 0)
    let al := alignBlocks blocks got
    o.beams.map fun b =>
      let y := s.prachBeam c o b.beam al.1 al.2
      (s.framesOf b.entry b.eaxc (names.1, names.2.1, names.2.2.1, w)
        { sectionId := b.sectionId, startPrb := o.firstPrb, width := b.width, prbs := y.map fun q => compressPrb b.width q.1 },
       sumNat (y.map fun q => q.2))).flatten
  ((outs.map fun x => x.1).flatten, sumNat (outs.map fun x => x.2))

/-- An occasion of a carrier is over. -/
def State.prachGone (s : State) (c k : Nat) : State :=
  let s := s.modCar c fun x => { x with occasions := x.occasions.eraseIdx k }
  s.put (Reg.CARRIER.PRACH_STATUS.active c) (min 4 (s.car c).occasions.length)

/-- The occasion's windows have been extracted and combined: its frames wait in their gate (R256, R257). `adc` holds each path's codes as
SYMBOL_BOUNDARY does, from `rxPad` samples before the occasion's start to `rxPad` after its end. -/
def State.prachDone (s : State) (c k : Nat) (o : Occasion) (adc : List (List Cplx)) : State :=
  let y := s.prachFrames c o adc
  let bad := countIf (fun (b : OccBeam) => !s.beamValid b.beam) o.beams * o.windows
  let g : GateEntry := { kind := .prach, carrier := c, form := s.form c, symbol := (s.form c).symbolAt o.start,
                         release := o.stop + ticksOfNs (s.prachLatency c) + ticksOfUs (s.car c).reserve, wait := 0,
                         epoch := (s.car c).epoch, msgs := [], frames := y.1, data := [], force := [],
                         counts := [((Reg.CARRIER.PRACH_DONE.word c).addr, 1), (Reg.BEAM.UL_SAT.word.addr, y.2),
                                    (Reg.BEAM.INVALID_USE.word.addr, bad)] }
  (s.prachGone c k).addGate g

/-- PRACH_OCCASION: the last window of occasion `k` of the carrier has ended. That of a carrier whose uplink is shed counts as shed, that of
one that has stopped as missed (R59; DESIGN CHOICE, log entry 73). -/
def State.prachOccasion (s : State) (c k : Nat) (adc : List (List Cplx)) : State :=
  match (s.car c).occasions[k]? with
  | none => s
  | some o =>
    let n := (s.form c).symbolAt o.start
    if s.arrayNow < o.stop then s
    else if !s.carActive c then (s.prachGone c k).missed c n false
    else if s.shedUp c then (s.prachGone c k).missedIn Reg.POWER.SHED_SYM.word c n false
    else s.prachDone c k o adc

/-- PRACH_OCCASION (R251). -/
def execPrachOccasion (t : Nat) (c : Fin 8) (n : Nat) (adc : List (List Cplx)) (s : State) : Host.Outcome State Fault Refusal :=
  finish ((s.atTime t).prachOccasion c.val n adc)

end Sys2Proof.Machine
end

