-- ==== Sys2Proof/Machine/StairMask.lean ====
section
/-!
DEFINITION. The transmit filter of a stair lane and the spectral mask (R430 to R432).
-/

namespace Sys2Proof.Machine

open Sys2Proof

/-! ### Levels in dB -/

/-- cos(2π j / 128) for j from 0 to 32, in units of 2^-30, rounded. -/
def cosTable : List Int :=
  [1073741824, 1072448455, 1068571464, 1062120190, 1053110176, 1041563127, 1027506862, 1010975242,
   992008094, 970651112, 946955747, 920979082, 892783698, 862437520, 830013654, 795590213,
   759250125, 721080937, 681174602, 639627258, 596538995, 552013618, 506158392, 459083786,
   410903207, 361732726, 311690799, 260897982, 209476638, 157550647, 105245103, 52686014,
   0]

/-- cos and sin of 2π j / 128, in units of 2^-30. -/
def cosOf (j : Nat) : Int :=
  let i := j % 128
  if i ≤ 32 then cosTable.getD i 0
  else if i ≤ 64 then -cosTable.getD (64 - i) 0
  else if i ≤ 96 then -cosTable.getD (i - 64) 0
  else cosTable.getD (128 - i) 0
def sinOf (j : Nat) : Int := cosOf (j + 96)

/-- The binary digits of log2 of a mantissa from 1 to 2, in units of 2^-40, by squaring: `k` digits after those of `acc`. -/
def log2Digits : Nat → Nat → Nat → Nat
  | 0, _, acc => acc
  | k + 1, m, acc =>
    let q := m * m / 2 ^ 40
    if 2 ^ 41 ≤ q then log2Digits k (q / 2) (2 * acc + 1) else log2Digits k q (2 * acc)

/-- log2 of a positive number in units of 2^-24. -/
def log2Of (n : Nat) : Int :=
  let e := Nat.log2 n
  let m := if e ≤ 40 then n * 2 ^ (40 - e) else n / 2 ^ (e - 40)
  ((e * 2 ^ 24 + log2Digits 24 m 0 : Nat) : Int)

/-- 10 log10 of a ratio of positive numbers in units of 2^-24 dB (DESIGN CHOICE, log entry 24). -/
def tenLog (a b : Nat) : Int := ((log2Of a - log2Of b) * 30102999566398).fdiv 10000000000000

/-! ### The response of a tap set (R430, R431) -/

/-- The taps of a LANE_TXF word: pre2, pre1, main, post1, post2. -/
def tapsOf (w : Word) : List Int :=
  [signed 6 (getBits w 24 6), signed 6 (getBits w 18 6), (getBits w 12 6 : Nat), signed 6 (getBits w 6 6), signed 6 (getBits w 0 6)]

/-- |Σ c_k exp(-j 2π m k / 128)|² in units of 2^-60, k from -2 to +2. -/
def tapPower (taps : List Int) (m : Nat) : Nat :=
  let at0 := fun (k : Nat) => m * (k + 126) % 128
  let re := sumInt ((List.range 5).map fun k => taps.getD k 0 * cosOf (at0 k))
  let im := sumInt ((List.range 5).map fun k => taps.getD k 0 * sinOf (at0 k))
  (re * re + im * im).toNat

/-- A mask breakpoint by frequency, the lower limit first where two share one. -/
def insertBreak (x : Nat × Int) : List (Nat × Int) → List (Nat × Int)
  | [] => [x]
  | y :: ys => if x.1 < y.1 || (x.1 == y.1 && x.2 ≤ y.2) then x :: y :: ys else y :: insertBreak x ys

/-- The used breakpoints in ascending frequency, the lowest limit alone at each (R431). -/
def State.maskBreaks (s : State) : List (Nat × Int) :=
  let l := (List.range 8).filterMap fun k =>
    let f := s.get (Reg.STAIR.MASK.freq k)
    if f = 0xFFFF then none else some (f, s.getS (Reg.STAIR.MASK.limit k))
  let sorted := l.foldr insertBreak []
  sorted.filter fun x => sorted.find? (fun y => y.1 == x.1) == some x

/-- The limit at `m` times 207.52 MHz in units of 2^-24 dB; none without a breakpoint (R431). -/
def maskLimit (l : List (Nat × Int)) (m : Nat) : Option Int :=
  let f := 20752 * m
  let below := l.filter fun x => 100 * x.1 ≤ f
  let above := l.filter fun x => f < 100 * x.1
  match below.getLast?, above.head? with
  | none, none => none
  | some a, none => some (a.2 * 65536)
  | none, some b => some (b.2 * 65536)
  | some a, some b => some (a.2 * 65536 + ((b.2 - a.2) * 65536 * ((f : Int) - 100 * a.1)).fdiv (100 * b.1 - 100 * a.1))

/-- Does a tap set exceed the mask by more than 0.01 dB anywhere (R432)? -/
def exceedsMask (l : List (Nat × Int)) (w : Word) : Bool :=
  let taps := tapsOf w
  (List.range 64).any fun m =>
    let p := tapPower taps m
    match maskLimit l m with
    | some limit => p != 0 && decide (limit + 167772 < tenLog p (63 * 63 * 2 ^ 60))
    | none => false

/-! ### Writes (R430, R432) -/

/-- A tap set for a lane, from the host or the far end: refused where it exceeds the mask. -/
def State.writeTaps (s : State) (lane : Nat) (v : Word) : State :=
  let a := (Reg.STAIR.LANE_TXF.word lane).addr
  let new := s.storeWord a v
  if exceedsMask s.maskBreaks (new.word a) then s.put (Reg.STAIR.LANE_STATUS.mask_fail lane) 1 else new

/-- LANE_TXF_WRITE (R432): a refused request of the far end is answered. -/
def execLaneTxfWrite (t : Nat) (ch : Option Channel) (lane : Fin 16) (value : Word) (s : State) : Host.Outcome State Fault Refusal :=
  let a := (Reg.STAIR.LANE_TXF.word lane.val).addr
  finish (match ch with
    | some c => s.hostCmd t c.val a fun s => s.writeTaps lane.val value
    | none =>
      let s := s.atTime t
      let bad := exceedsMask s.maskBreaks ((s.storeWord a value).word a)
      (s.writeTaps lane.val value).when bad fun s => s.emit (.tapRefusal lane.val))

/-- A mask register changes: lanes whose taps in force now exceed the mask say so, and no taps change. -/
def State.writeMask (s : State) (k : Nat) (v : Word) : State :=
  let s := s.storeWord (Reg.STAIR.MASK.word k).addr v
  let l := s.maskBreaks
  s.forEach (List.range 16) fun i s =>
    if exceedsMask l (s.word (Reg.STAIR.LANE_TXF.word i).addr) then s.put (Reg.STAIR.LANE_STATUS.mask_fail i) 1 else s

/-- MASK_WRITE (R432). -/
def execMaskWrite (t : Nat) (ch : Channel) (k : Fin 8) (value : Word) (s : State) : Host.Outcome State Fault Refusal :=
  finish (s.hostCmd t ch.val (Reg.STAIR.MASK.word k.val).addr fun s => s.writeMask k.val value)

end Sys2Proof.Machine
end

