-- ==== Sys2Proof/Machine/Discipline.lean ====
section
/-!
DEFINITION. The frequency source and array time (R465, R596 to R604): which source disciplines the landing, what a measurement of its
phase does, and a step of array time.
-/

namespace Sys2Proof.Machine

open Sys2Proof

/-- The sources of REF_STATUS, and the states of TIME_STATUS. -/
def srcFree : Nat := 0
def srcPtp : Nat := 1
def srcParent : Nat := 2
def timeFree : Nat := 0
def timeAcquiring : Nat := 1
def timeLocked : Nat := 2
def timeHoldover : Nat := 3

/-! ### The source (R410, R597, R598) -/

/-- Does a list of numbers come before another, the first difference deciding? -/
def lexBefore : List Nat → List Nat → Bool
  | a :: as, b :: bs => if a = b then lexBefore as bs else a < b
  | [], _ :: _ => true
  | _, [] => false

/-- What the alternate BMCA compares for the master heard on a port, the best first: class, accuracy, variance, priority 2, local
priority, identity, steps, port (R410, DESIGN CHOICE, log entry 33). -/
def State.masterKey (s : State) (n : Nat) (m : PtpMaster) : List Nat :=
  let q := fun i => m.quality.getD i 0
  [q 0, q 1, q 2, q 3, s.get (Reg.FRONTHAUL.PORT_CTL.local_prio n), q 4, q 5, n]

/-- The port that the BMCA selects among those of the mask with a master (R410). -/
def State.ptpPort (s : State) : Option Nat :=
  let l := (List.range 8).filterMap fun n =>
    if (s.get Reg.FRONTHAUL.PTP_CTL.port_mask).testBit n then (s.fh.masters.getD n none).map fun m => (s.masterKey n m, n) else none
  match l with
  | [] => none
  | x :: xs => some (xs.foldl (fun b y => if lexBefore y.1 b.1 then y else b) x).2

/-- Is the part a PTP slave (R411)? -/
def State.ptpSlave (s : State) : Bool := s.get Reg.FRONTHAUL.PTP_CTL.mode == 1

/-- The source that R597 takes now; none where the source in force is lost (R598). -/
def State.wantedSource (s : State) : Option Nat :=
  if s.hasParent then some srcParent
  else if s.get Reg.CLOCK.REF_CTL.source = 1 then some srcFree
  else if s.ptpSlave && s.ptpPort.isSome then some srcPtp
  else if s.get Reg.CLOCK.TIME_STATUS.state = timeFree then some srcFree
  else none

/-- Discipline by a source takes hold: the first time since reset its first measurement decides on a step (R602). -/
def State.takeHold (s : State) (src : Nat) : State :=
  if s.clock.held.contains src then s
  else { s with clock := { s.clock with held := s.clock.held ++ [src], fresh := true } }

/-- The source follows the tree, the PTP masters and the host; a lost source leaves holdover (R465, R597, R598, R604). -/
def State.chooseSource (s : State) : State :=
  let s := s.putB Reg.STAIR.STATUS.ptp_ignored (s.hasParent && s.ptpSlave)
  let st := s.get Reg.CLOCK.TIME_STATUS.state
  match s.wantedSource with
  | none => { s.put Reg.CLOCK.TIME_STATUS.state timeHoldover with clock := { s.clock with good := 0 } }
  | some w =>
    if w = srcFree then
      let s := ((s.put Reg.CLOCK.REF_STATUS.source w).put Reg.CLOCK.TIME_STATUS.state timeFree).put Reg.CLOCK.REF_STEER.word 0
      { s with clock := { s.clock with await := false, good := 0 } }
    else if w = s.get Reg.CLOCK.REF_STATUS.source && (st = timeAcquiring || st = timeLocked) then s
    else
      let s := (s.put Reg.CLOCK.REF_STATUS.source w).put Reg.CLOCK.TIME_STATUS.state timeAcquiring
      let s := { s with clock := { s.clock with good := 0 } }
      if w = srcPtp then s.takeHold srcPtp else s

/-! ### Steps of array time (R602) -/

/-- A step of `d` ticks at the next planning-slot boundary: each carrier stops at its last slot boundary before it. -/
def State.requestStep (s : State) (d : Int) : State :=
  if !s.flag Reg.CLOCK.REF_CTL.step_en || s.clock.stepDue.isSome then s
  else
    let p := planningFrom (s.arrayNow + 1)
    let here := s.arrayNow
    let s := s.forEach s.runningCarriers fun c s =>
      let r := s.form c
      let last := r.boundary (r.symbolAt p / r.symbols * r.symbols)
      s.decideStop c (max here last) (some r)
    { s with clock := { s.clock with stepDue := some d } }

/-- The step takes place: array time moves, what waits in a gate keeps its instant, and the carriers start again after it. -/
def State.applyStep (s : State) : State :=
  match s.clock.stepDue with
  | none => s
  | some d =>
    let moved := fun (a : Nat) => ((a : Int) + d).toNat
    let s := { s with clock := { s.clock with stepDue := none, offset := s.clock.offset + d },
                      gates := s.gates.map fun (g : GateEntry) => { g with release := moved g.release },
                      carriers := s.carriers.map fun (x : CarrierState) => { x with since := moved x.since } }
    let a := s.arrayNow
    let s := s.forEach s.activeCarriers fun c s => match (s.car c).after with
      | some none => s
      | some (some r) => s.dueStart c a r
      | none => s.dueStart c a (s.form c)
    let s := (s.bump Reg.CLOCK.TIME_STEPS.word).put Reg.CLOCK.TIME_STATUS.stepped 1
    s.record { kind := .event, unit := unitDevice, detail := unsigned 32 d }

/-! ### Measurements (R601, R602, R604) -/

/-- Ticks nearest to a time in ps. -/
def ticksOfPs (x : Int) : Int := (x * 98304 + 12500000).fdiv 25000000

/-- The steering that a measurement leads to, within ±50 ppm (R596, R601). -/
def State.steered (s : State) : State :=
  let v := clampInt (-54975581) 54975581 (Config.steer s.free)
  { s.putS Reg.CLOCK.REF_STEER.word v with free := s.free + 1 }

/-- A phase error in ps of the source in force, `limit` ps being small: a step where discipline has just taken hold with more than 1 µs,
and LOCKED after 16 small ones (R602, R604). -/
def State.disciplined (s : State) (err : Int) (limit : Nat) : State :=
  let first := s.clock.fresh
  let s := { s with clock := { s.clock with fresh := false } }
  let s := if first && 1000000 < err.natAbs then s.requestStep (ticksOfPs (-err)) else s
  let good := if err.natAbs < limit then s.clock.good + 1 else 0
  let s := { s with clock := { s.clock with good := good } }
  let s := s.steered
  if s.get Reg.CLOCK.TIME_STATUS.state = timeAcquiring && 16 ≤ good then
    { s.put Reg.CLOCK.TIME_STATUS.state timeLocked with clock := { s.clock with await := false } }
  else s

end Sys2Proof.Machine
end

