-- ==== Sys2Proof/Machine/StairTree.lean ====
section
/-!
DEFINITION. The tree of the stair network (R447 to R461, R528, R739): uses of flights, joining, forming, heartbeats, choosing a new
parent and re-parenting, and the outcomes that a landing reports when the tree forms again.
-/

namespace Sys2Proof.Machine

open Sys2Proof

/-- A topology change: its record and notice (R544, R669). -/
def State.topology (s : State) (port cause action : Nat) : State :=
  s.record { kind := .topology, unit := unitStair, inst := port, cause := cause, action := action }

/-! ### State of the landing (R449 to R452) -/

/-- STAIR.LANDINGS: landings joined, the top among them; elsewhere the subtree with the landing itself. -/
def State.showLandings (s : State) : State :=
  s.put Reg.STAIR.LANDINGS.count (1 + if s.isTop then s.treeOf.joined.length else s.treeOf.below.length)

/-- The tree state changes; a landing that is not FORMED runs no array-joint carrier (R451, R452). -/
def State.treeEnter (s : State) (st : Nat) : State :=
  let s := s.put Reg.STAIR.STATUS.tree st
  if st = treeFormed then s
  else
    let a := s.arrayNow
    let s := s.otaAbandon
    s.forEach (s.runningCarriers.filter fun c => (s.form c).joint) fun c s => s.decideStop c ((s.form c).slotFrom a) (some (s.form c))

/-- A parent flight is in use on a port, or none is (R448); the source of time follows (R597). -/
def State.setParent (s : State) (p : Option Nat) : State :=
  match p with
  | some n =>
    (((s.put Reg.STAIR.STATUS.has_parent 1).put Reg.STAIR.STATUS.parent n).put (Reg.STAIR.PORT_STATUS.use n) useParent).chooseSource
  | none => ((s.put Reg.STAIR.STATUS.has_parent 0).put Reg.STAIR.STATUS.parent 0).chooseSource

/-- Is the port in the child mask of the stair role? -/
def State.childMask (s : State) (n : Nat) : Bool := (roleChildren (s.sectionBytes secStair)).testBit n

/-- The use of a flight in UP (R448). -/
def State.assignUse (s : State) (n : Nat) : State :=
  if s.image.running.isNone then s.put (Reg.STAIR.PORT_STATUS.use n) useStandby
  else if !s.isTop && roleParent (s.sectionBytes secStair) == n && s.parentPort.isNone && s.treeOf.asking.isNone then s.setParent (some n)
  else s.put (Reg.STAIR.PORT_STATUS.use n) (if s.childMask n || (s.sPort n).adopted then useChild else useStandby)

/-! ### The formed tree (R35 to R37, R450) -/

/-- The depth of a landing as the top knows it. -/
def State.depthOf (s : State) (landing : Nat) : Nat :=
  match s.treeOf.joined.find? fun e => e.1 == landing with
  | some e => e.2.1.length
  | none => 0

/-- The longest flight path (R35). -/
def State.longestPath (s : State) : Nat :=
  let deepest := maxNat (s.treeOf.joined.map fun e => e.2.1.length)
  let joint := (planCarriers (s.sectionBytes secCarriers)).filter fun e => e.2.joint
  deepest + maxNat (joint.map fun e => max (s.depthOf e.2.ingress) (s.depthOf e.2.egress))

/-- The landing is FORMED, with the path, the addition and the start boundary of a TREE record (R450, R451). -/
def State.formed (s : State) (path addition start : Nat) : State :=
  let s := ((s.put Reg.STAIR.TREE.formed_path path).put Reg.STAIR.TREE.current_path path).put Reg.STAIR.TREE.addition addition
  let s := s.modTree fun t => { t with start := start }
  let s := s.treeEnter treeFormed
  s.forEach (List.range 8) fun c s => s.showLatency c

/-- The first planning-slot boundary at least 1 ms from now (R450, R739). -/
def State.startBoundary (s : State) : Nat := planningFrom (s.arrayNow + ticksOfMs 1)

/-- Has every landing whose OUTCOMES the top waits for sent it (R528)? -/
def State.outcomesIn (s : State) : Bool :=
  !s.treeOf.again || s.treeOf.joined.all fun e => s.treeOf.outcomesFrom.contains e.1

/-- The top decides what landings report in doubt: COMMIT where one has committed it, else ABORT with cause TOP (R528). -/
def State.settleDoubts (s : State) : State :=
  let l := s.treeOf.doubts.eraseDups
  let s := s.forEach l fun id s =>
    let commit := s.treeOf.commits.contains id
    s.decided id commit (if commit then 0 else causeTop) 0xFFFF
  s.modTree fun t => { t with doubts := [], commits := [], outcomesFrom := [], again := false }

/-- The top forms the tree once every other landing has joined, and, after LOST, has sent its outcomes (R450, R528). -/
def State.topForm (s : State) : State :=
  if !s.isTop || s.treeState != treeForming || s.treeOf.joined.length + 1 != s.landingCount || !s.outcomesIn then s
  else
    let s := s.settleDoubts
    let path := s.longestPath
    let start := s.startBoundary
    let s := s.formed path (jointAddition path) start
    s.sendDown (.tree treeFormed path (jointAddition path) start none)

/-- The stair role of an image comes into force: a top begins to form its tree (R449). -/
def State.treeInstall (s : State) : State :=
  let s := (s.put Reg.STAIR.STATUS.role s.role).put Reg.STAIR.STATUS.landing s.landing
  let s := s.showLandings
  if s.isTop then
    let l := s.landing
    (((s.modTree fun t => { t with top := l }).put Reg.STAIR.STATUS.depth 0).treeEnter treeForming).topForm
  else s

/-! ### Joining (R449, R450, R739) -/

/-- The UID of the device (R449). -/
def uidNat : Nat := Config.uid.toNat

/-- What a landing reports when the tree forms again: transactions in doubt, 2, and outcomes it keeps, four entries (R528, DEDUCED, log entry 31). -/
def State.outcomeEntries (s : State) : List (Nat × Nat) :=
  let doubts := (s.txn.slots.filter fun x => x.array && x.inDoubt && x.state == txPrepared && x.verdict.isNone).map fun x => (x.id, txPrepared)
  (doubts ++ s.txn.outcomes).take 4

/-- The landing takes a depth below its parent and joins (R449), `formed` where the tree above is formed (R739); after LOST it sends its
outcomes too (R528). -/
def State.takeDepth (s : State) (parentDepth : Nat) (formed : Bool) : State :=
  match s.parentPort with
  | none => s
  | some n =>
    if 15 ≤ parentDepth then (s.treeEnter treeNone).put (Reg.STAIR.PORT_STATUS.cause n) 0xD
    else
      let lost := s.treeState == treeLost
      let at0 := s.now
      let kept := s.treeOf.supplements
      let s := (s.put Reg.STAIR.STATUS.depth (parentDepth + 1)).treeEnter treeForming
      let s := (s.modTree fun t => { t with lastTree := at0, waits := formed, supplements := [] }).takeHold srcParent
      let s := (s.sendOn n (.join s.landing uidNat [])).forEach kept fun m s => s.sendOn n m
      if lost then s.sendOn n (.txn (.outcomes s.landing s.outcomeEntries)) else s

/-- Landings of the subtree are learned with their paths from here (R450, R456). -/
def State.learn (s : State) (members : List (Nat × List Nat)) : State :=
  (s.modTree fun t => { t with below := (t.below.filter fun e => !(members.any fun m => m.1 == e.1)) ++ members }).showLandings

/-- A TREE record for one landing goes down to it; the parent expects its chunks from the start boundary (R739). -/
def State.routeTree (s : State) (st path addition start landing : Nat) : State :=
  let m := StairMsg.tree st path addition start (some landing)
  let s := match assoc? s.treeOf.below landing with
    | some [n] => if st = treeFormed then s.modSPort n fun x => { x with rejoinAt := start, gone := false } else s
    | _ => s
  s.sendTo landing m

/-- A landing that joins directly below a port. -/
def State.childJoins (s : State) (n landing : Nat) : State :=
  let again := s.treeState == treeFormed
  s.modSPort n fun x => { x with child := some landing, gone := x.gone || again }

/-- The top answers a JOIN: refused, a rejoin, or accepted (R450, R739). -/
def State.topJoin (s : State) (port landing uid : Nat) (path : List Nat) : State :=
  let old := s.treeOf.joined.find? fun e => e.1 == landing
  let other := match old with
    | some e => e.2.2 != uid
    | none => landing == s.landing
  let s := s.learn [(landing, path)]
  if s.landingCount ≤ landing || other then
    let s := s.routeTree treeRefused 0 0 0 landing
    let s := match old with
      | some e => s.learn [(landing, e.2.1)]
      | none => (s.modTree fun t => { t with below := t.below.filter fun e => e.1 != landing }).showLandings
    s.topology port 0 0
  else
    let s := s.modTree fun t => { t with joined := (t.joined.filter fun e => e.1 != landing) ++ [(landing, path, uid)] }
    let s := s.showLandings
    let s := if path.length = 1 then s.childJoins port landing else s
    if s.treeState = treeFormed then
      let path := s.longestPath
      let longer := decide (s.get Reg.STAIR.TREE.formed_path < path)
      let s := s.put Reg.STAIR.TREE.current_path path
      let s := s.routeTree treeFormed (s.get Reg.STAIR.TREE.formed_path) (s.get Reg.STAIR.TREE.addition) s.startBoundary landing
      if longer && s.get Reg.STAIR.TREE.addition < jointAddition path then s.topology port 0 0 else s
    else s.topForm

/-- JOIN (R449, R450): learned and forwarded with the port it came in by; answered by the top. -/
def State.joinArrived (s : State) (port landing uid : Nat) (path : List Nat) : State :=
  let path := port :: path
  if s.isTop then s.topJoin port landing uid path
  else
    let s := s.learn [(landing, path)]
    let s := if path.length = 1 then s.childJoins port landing else s
    s.sendUp (.join landing uid path)

/-- JOIN (R450). -/
def execJoin (t : Nat) (port : Fin 4) (landing uid : Nat) (path : List Nat) (s : State) : Host.Outcome State Fault Refusal :=
  finish ((s.atTime t).joinArrived port.val landing uid path)

/-- OUTCOMES at the top: what is in doubt and what has committed; elsewhere it goes up (R528). -/
def State.outcomesArrived (s : State) (landing : Nat) (entries : List (Nat × Nat)) : State :=
  if !s.isTop then s.sendUp (.txn (.outcomes landing entries))
  else
    let doubts := (entries.filter fun e => e.2 == txPrepared).map fun e => e.1
    let commits := (entries.filter fun e => e.2 == txCommitted).map fun e => e.1
    if s.treeState = treeForming then
      (s.modTree fun t => { t with outcomesFrom := t.outcomesFrom ++ [landing], doubts := t.doubts ++ doubts, commits := t.commits ++ commits,
                                   again := true }).topForm
    else
      s.forEach doubts fun id s => match (s.topTxn id).bind fun x => x.decision with
        | some d => s.decided id d.1 d.2.1 d.2.2
        | none => s

/-- OUTCOMES (R528). -/
def execOutcomes (t : Nat) (landing : Nat) (entries : List (Nat × Nat)) (s : State) : Host.Outcome State Fault Refusal :=
  finish ((s.atTime t).outcomesArrived landing entries)

/-! ### A new parent (R455 to R458) -/

/-- A peer that R455 admits as a new parent, by depth and landing number. -/
def State.candidate (s : State) (n : Nat) : Option (Nat × Nat) :=
  match (s.sPort n).hello with
  | some h =>
    let nearer := decide (h.depth < s.depth) || (h.depth == s.depth && decide (h.landing < s.landing))
    if s.sUp n && s.sUse n == useStandby && h.tree == treeFormed && h.depth ≤ 14 && nearer && !(s.sPort n).excluded then some (h.depth, h.landing)
    else none
  | none => none

/-- The best candidate: the lowest depth, then the lowest landing number. -/
def State.bestParent (s : State) : Option (Nat × Nat) :=
  let l := (List.range 4).filterMap fun n => (s.candidate n).map fun k => (k, n)
  match l with
  | [] => none
  | x :: xs =>
    let y := xs.foldl (fun b y => if y.1.1 < b.1.1 || (y.1.1 == b.1.1 && y.1.2 < b.1.2) then y else b) x
    some (y.2, y.1.1)

/-- The landing chooses a new parent and asks, or is an orphan (R455); one that is LOST stays so without a candidate (R452). -/
def State.chooseParent (s : State) : State :=
  match s.bestParent with
  | none => if s.treeState = treeOrphan || s.treeState = treeLost then s else s.treeEnter treeOrphan
  | some (n, depth) =>
    let f := s.firstHeld (s.arrayNow + ticksOfUs 20)
    let from_ := (s.form f.1).boundary f.2
    let at0 := s.now
    let s := (s.put Reg.STAIR.STATUS.depth (depth + 1)).bump Reg.STAIR.REPARENTS.word
    let s := s.modTree fun t => { t with asking := some (n, at0), normalFrom := from_ }
    let s := s.sendOn n (.reparent s.landing f.1 f.2 0 ((s.landing, []) :: s.treeOf.below))
    s.topology n 0 8

/-- What a landing keeps of the records it could not deliver on its old parent flight: chunks as SUPPLEMENT records (R458, R461). -/
def keptRecord (landing : Nat) : StairMsg → Option StairMsg
  | .partialSum x => some (.supplement landing x)
  | .supplement o x => some (.supplement o x)
  | .missing r c l slot sym first => some (.missing r c l slot sym first)
  | .layer x => some (.layer x)
  | .sections c l => some (.sections c l)
  | _ => none

/-- The parent flight has faulted, or the parent is lost to the tree: records not acknowledged are kept, and a new parent is chosen where
the landing is in the tree (R455, R457, R458). -/
def State.parentLost (s : State) (unsent : List StairMsg) : State :=
  let here := s.landing
  let s := s.setParent none
  let s := s.modTree fun t => { t with supplements := t.supplements ++ unsent.filterMap (keptRecord here) }
  if s.treeState = treeForming || s.treeState = treeFormed then s.chooseParent else s

/-- The new parent is given up: the flight is excluded until the next heartbeat, and the landing chooses again (R456). -/
def State.abandon (s : State) : State :=
  match s.treeOf.asking with
  | none => s
  | some (n, _) => ((s.modSPort n fun x => { x with excluded := true }).modTree fun t => { t with asking := none }).chooseParent

/-- PRBs held of a symbol's layers in the history, by carrier. -/
def State.heldPrbs (s : State) (c n : Nat) : Nat :=
  sumNat (s.treeOf.history.map fun e => match e.2 with
    | .layer x => if s.ofSymbol c n e.2 then x.prbs.length else 0
    | _ => 0)

/-- The last symbol held complete, by carrier: every PRB of every downlink layer (R460). None: the first symbol of the history's span. -/
def State.lastComplete (s : State) : Nat × Nat :=
  let complete := s.treeOf.history.filterMap fun e => match e.2 with
    | .layer x =>
      let r := s.form x.carrier
      let n := r.named s.arrayNow x.slot x.sym
      if s.heldPrbs x.carrier n = r.dl * r.width then some (x.carrier, n) else none
    | _ => none
  match complete.getLast? with
  | some x => x
  | none => s.firstHeld (s.arrayNow - ticksOfUs (10 * s.get Reg.STAIR.CTL.history))

/-- Transactions in doubt keep the landing held at its new parent too (R527). -/
def State.holdAgain (s : State) : State :=
  s.forEach s.txn.slots fun x s =>
    if x.array && x.inDoubt && x.state == txPrepared then
      let f := s.firstHeld x.time
      s.sendUp (.txn (.hold x.id true f.1 (f.2 % 65536)))
    else s

/-- The new parent is confirmed: it is the parent, what was kept goes up, RESUME and QUERY follow; an orphan joins again (R456, R458,
R460, R526, R739). -/
def State.parentConfirmed (s : State) (n : Nat) : State :=
  let at0 := s.now
  let lost := s.treeState == treeLost
  let orphan := lost || s.treeState == treeOrphan
  let kept := s.treeOf.supplements
  let s := s.modTree fun t => { t with asking := none, supplements := [], lastTree := at0, waits := orphan }
  let s := s.setParent (some n)
  let s := s.forEach kept fun m s => s.sendUp m
  let f := s.lastComplete
  let s := s.sendUp (.resume f.1 f.2)
  let s := s.queryAll.holdAgain
  let s := if orphan then (s.treeEnter treeForming).sendUp (.join s.landing uidNat []) else s
  if lost then s.sendUp (.txn (.outcomes s.landing s.outcomeEntries)) else s

/-- A landing that asked for this parent is confirmed: it is the child on its port from now on (R448, R455). -/
def State.adopt (s : State) (n landing from_ : Nat) : State :=
  let s := s.modSPort n fun x => { x with adopting := none, adopted := true, child := some landing, gone := false, expectFrom := from_, rejoinAt := 0,
                                          heldFrom := none }
  s.put (Reg.STAIR.PORT_STATUS.use n) useChild

/-- The port on which a landing waits to be confirmed as a child. -/
def State.adoptingPort (s : State) (landing : Nat) : Option (Nat × Nat) :=
  ((List.range 4).filterMap fun n => match (s.sPort n).adopting with
    | some (l, a) => if l = landing then some (n, a) else none
    | none => none).head?

/-- A confirmation on its way down (R456). -/
def State.confirmDown (s : State) (landing carrier symbol : Nat) : State :=
  let m := StairMsg.reparent landing carrier symbol 1 []
  match s.adoptingPort landing with
  | some (n, a) => (s.adopt n landing a).sendOn n m
  | none => s.sendTo landing m

/-- The top takes a re-parented subtree: paths, the time from which it delivers there, the longest path, and the confirmation (R37, R456). -/
def State.topReparent (s : State) (port landing carrier symbol : Nat) (members : List (Nat × List Nat)) : State :=
  let from_ := (s.form carrier).boundary symbol
  let s := s.modTree fun t =>
    { t with joined := t.joined.map fun e => match assoc? members e.1 with
               | some p => (e.1, p, e.2.2)
               | none => e,
             moved := (t.moved.filter fun e => e.1 != landing) ++ [(landing, from_)] }
  let path := s.longestPath
  let s := s.put Reg.STAIR.TREE.current_path path
  let s := s.confirmDown landing carrier symbol
  if s.get Reg.STAIR.TREE.addition < jointAddition path then s.topology port 0 8 else s

/-- A REPARENT that asks (R456): refused by a landing that waits for a parent itself, else learned, remembered on the flight it came by
where it is standby, and forwarded to the top. -/
def State.reparentAsked (s : State) (port landing carrier symbol : Nat) (members : List (Nat × List Nat)) : State :=
  if landing = s.landing then (if s.sUse port == useChild then s.abandon else s)
  else if s.sUse port != useChild && !s.isTop && s.parentPort.isNone then s.sendOn port (.reparent landing carrier symbol 2 [])
  else
    let members := members.map fun e => (e.1, port :: e.2)
    let from_ := (s.form carrier).boundary symbol
    let direct := assoc? members landing == some [port]
    let s := if direct then s.modSPort port fun x => { x with adopting := some (landing, from_) } else s
    let s := s.learn members
    if s.isTop then s.topReparent port landing carrier symbol members else s.sendUp (.reparent landing carrier symbol 0 members)

/-- REPARENT (R455, R456): it asks, confirms or refuses. -/
def execReparent (t : Nat) (port : Fin 4) (landing carrier symbol : Nat) (kind : Fin 3) (members : List (Nat × List Nat)) (s : State) :
    Host.Outcome State Fault Refusal :=
  let s := s.atTime t
  let asked := match s.treeOf.asking with
    | some (n, _) => n == port.val && landing == s.landing
    | none => false
  finish (match kind.val with
    | 0 => s.reparentAsked port.val landing carrier symbol members
    | 1 => if asked then s.parentConfirmed port.val else s.confirmDown landing carrier symbol
    | _ => if asked then s.abandon else s)

/-- REPARENT_TIMEOUT (R456): no confirmation within 20 µs. -/
def execReparentTimeout (t : Nat) (s : State) : Host.Outcome State Fault Refusal :=
  let s := s.atTime t
  finish (match s.treeOf.asking with
    | some (_, since) => if since + ticksOfUs 20 ≤ s.now then s.abandon else s
    | none => s)

/-! ### HELLO (R447, R449, R455, R457) -/

/-- What this landing's HELLO says. -/
def State.ownHello (s : State) : Hello :=
  { landing := s.get Reg.STAIR.STATUS.landing, role := s.get Reg.STAIR.STATUS.role, tree := s.treeState, depth := s.depth,
    tag := s.get Reg.STAIR.ARRAY_TAG.word, count := s.landingCount, top := if s.isTop then s.landing else s.treeOf.top }

/-- HELLO_SEND (R447): every 100 µs in UP, and first on reaching UP. -/
def execHelloSend (t : Nat) (port : Fin 4) (s : State) : Host.Outcome State Fault Refusal :=
  let s := s.atTime t
  let x := s.sPort port.val
  let at0 := s.now
  finish (if s.sUp port.val && (x.helloSent < x.since || x.helloSent + ticksOfUs 100 ≤ s.now) then
      (s.modSPort port.val fun x => { x with helloSent := at0 }).sendOn port.val (.hello s.ownHello)
    else s)

/-- PORT_PEER shows a HELLO. -/
def State.showPeer (s : State) (n : Nat) (h : Hello) : State :=
  let s := (s.put (Reg.STAIR.PORT_PEER.valid n) 1).put (Reg.STAIR.PORT_PEER.depth n) h.depth
  let s := (s.put (Reg.STAIR.PORT_PEER.role n) h.role).put (Reg.STAIR.PORT_PEER.tree n) h.tree
  s.put (Reg.STAIR.PORT_PEER.landing n) h.landing

/-- What a parent's HELLO brings (R449, R457). -/
def State.parentHello (s : State) (h : Hello) : State :=
  let lost := h.tree == treeOrphan || h.tree == treeLost || h.tree == treeRefused
  let joins := h.tree == treeForming || h.tree == treeFormed
  let s := s.modTree fun t => { t with top := h.top }
  if lost then
    match s.parentPort with
    | some n => (s.put (Reg.STAIR.PORT_STATUS.use n) useStandby).parentLost ((s.sPort n).unacked.filterMap fun c => c.msg)
    | none => s
  else if joins && (s.treeState == treeNone || s.treeState == treeOrphan) then s.takeDepth h.depth (h.tree == treeFormed)
  else if joins && s.treeState != treeRefused && h.depth < 15 then s.put Reg.STAIR.STATUS.depth (h.depth + 1)
  else s

/-- HELLO on a port in UP. -/
def State.helloArrived (s : State) (n : Nat) (h : Hello) : State :=
  if !s.sUp n then s
  else
    let at0 := s.now
    let s := (s.modSPort n fun x => { x with hello := some h, lastHello := at0 }).showPeer n h
    if s.isTop then
      if s.treeState == treeForming && h.tree == treeLost then s.modTree fun t => { t with again := true } else s
    else if s.parentPort == some n then s.parentHello h
    else if s.parentPort.isNone && s.treeOf.asking.isNone && s.image.running.isSome then
      if roleParent (s.sectionBytes secStair) == n && (h.tree == treeForming || h.tree == treeFormed) && !(s.sPort n).excluded then
        (s.setParent (some n)).parentHello h
      else if s.treeState = treeOrphan || s.treeState = treeLost then s.chooseParent
      else s
    else s

/-- HELLO (R447). -/
def execHello (t : Nat) (port : Fin 4) (h : Hello) (s : State) : Host.Outcome State Fault Refusal := finish ((s.atTime t).helloArrived port.val h)

/-! ### TREE records (R450 to R452, R739) -/

/-- A TREE record that names one landing. -/
def State.treeTargeted (s : State) (st path addition start landing : Nat) : State :=
  if landing = s.landing then
    if st = treeRefused then s.treeEnter treeRefused
    else if st = treeFormed && s.treeState == treeForming then s.formed path addition start
    else s
  else s.routeTree st path addition start landing

/-- The depth that the parent last showed. -/
def State.parentDepth (s : State) : Nat :=
  match s.parentPort.bind fun n => (s.sPort n).hello with
  | some h => h.depth
  | none => s.depth - 1

/-- A TREE record to all: a heartbeat, forwarded; a LOST landing joins again, and a FORMING one that waits for no answer of the top is
FORMED (R450, R452, R739). -/
def State.treeBroadcast (s : State) (st path addition start : Nat) : State :=
  let at0 := s.now
  let s := s.modTree fun t => { t with lastTree := at0 }
  let s := s.forEach (List.range 4) fun n s => s.modSPort n fun x => { x with excluded := false }
  let s := s.sendDown (.tree st path addition start none)
  if s.treeState = treeLost && (st = treeForming || st = treeFormed) then s.takeDepth s.parentDepth (st == treeFormed)
  else if s.treeState = treeForming && st = treeFormed && !s.treeOf.waits then s.formed path addition start
  else if s.treeState = treeFormed && st = treeFormed then s.put Reg.STAIR.TREE.current_path path
  else s

/-- TREE (R451), from the parent. -/
def execTree (t : Nat) (port : Fin 4) (state path addition start : Nat) (target : Option Nat) (s : State) : Host.Outcome State Fault Refusal :=
  let s := s.atTime t
  finish (if s.isTop || !s.fromParent port.val then s
    else match target with
      | some l => s.treeTargeted state path addition start l
      | none => s.treeBroadcast state path addition start)

/-- TREE_HEARTBEAT (R452): the top's, every 1 ms. -/
def execTreeHeartbeat (t : Nat) (s : State) : Host.Outcome State Fault Refusal :=
  let s := s.atTime t
  let at0 := s.now
  finish (if s.isTop && (s.treeState == treeForming || s.treeState == treeFormed) && s.treeOf.heartbeat + ticksOfMs 1 ≤ s.now then
      let s := s.modTree fun t => { t with heartbeat := at0 }
      s.sendDown (.tree s.treeState (s.get Reg.STAIR.TREE.current_path) (s.get Reg.STAIR.TREE.addition) s.treeOf.start none)
    else s)

/-- TREE_LOST (R452): no heartbeat for 3 ms; an orphan hears none either. -/
def execTreeLost (t : Nat) (s : State) : Host.Outcome State Fault Refusal :=
  let s := s.atTime t
  let inTree := s.treeState == treeForming || s.treeState == treeFormed || s.treeState == treeOrphan
  finish (if !s.isTop && inTree && s.treeOf.lastTree + ticksOfMs 3 ≤ s.now then (s.treeEnter treeLost).topology 0 0 0 else s)

end Sys2Proof.Machine
end

