-- ==== Sys2Proof/Machine/StairPorts.lean ====
section
/-!
DEFINITION. Stair ports and lanes (R428 to R441, R447, R453, R454, R463 to R469, R736): bring-up, training, codewords and their
acknowledgement, adaptation, lane and flight faults, the measurement of array time, sleep and wake.
-/

namespace Sys2Proof.Machine

open Sys2Proof

/-! ### Port states (R435 to R441) -/

/-- A port enters a state. -/
def State.sEnter (s : State) (n st : Nat) : State :=
  let at0 := s.now
  (s.put (Reg.STAIR.PORT_STATUS.state n) st).modSPort n fun x => { x with since := at0 }

/-- Every lane of a port enters a state. -/
def State.lanesEnter (s : State) (n st : Nat) : State :=
  let at0 := s.now
  let s := s.forEach (portLanes n) fun i s =>
    ((s.put (Reg.STAIR.LANE_STATUS.state i) st).put (Reg.STAIR.LANE_ADAPT.idle i) 0).modSLane i fun x =>
      { x with since := at0, rolled := false, qualified := false, startAt := none, sent := 0 }
  s.showLanes n

/-- A port without traffic: its flight has no use, and what it held for the far end is gone. -/
def State.portQuiet (s : State) (n st : Nat) : State :=
  let s := (((s.padLanes n).sEnter n st).lanesEnter n slOff).put (Reg.STAIR.PORT_STATUS.use n) useNone
  let s := s.put (Reg.STAIR.PORT_PEER.valid n) 0
  s.modSPort n fun x => { x with queue := [], unacked := [], parts := [0, 0, 0], runs := [0, 0, 0, 0, 0, 0],
                                 hello := none, adopted := false, adopting := none, gone := x.child.isSome }

/-- LISTEN: detect bursts begin, and the control bits are latched (R441). -/
def State.portListen (s : State) (n : Nat) : State :=
  let at0 := s.now
  let split := s.flag (Reg.STAIR.PORT_CTL.split n)
  let min4 := s.flag (Reg.STAIR.PORT_CTL.min4 n)
  (s.portQuiet n spListen).modSPort n fun x => { x with burstAt := at0, far := none, acked := false, echoes := 0, split := split, min4 := min4 }

/-- HOLDOFF with a cause. -/
def State.portHoldoff (s : State) (n cause : Nat) : State := (s.portQuiet n spHoldoff).put (Reg.STAIR.PORT_STATUS.cause n) cause

/-- Lanes that must be ACTIVE: in split mode every lane, else three or four (R440). -/
def State.minLanes (s : State) (n : Nat) : Nat := if (s.sPort n).split || (s.sPort n).min4 then 4 else 3

/-! ### Lane and flight faults (R453 to R455) -/

/-- Records whose codewords the far end has not acknowledged, and those that wait, in order. -/
def State.unsent (s : State) (n : Nat) : List StairMsg := (s.sPort n).unacked.filterMap (fun c => c.msg) ++ (s.sPort n).queue

/-- A port in UP declares a flight fault (R454): it enters `st`, and a landing that loses its parent chooses another. -/
def State.flightFaultTo (s : State) (n cause st : Nat) : State :=
  if !s.sUp n then s
  else
    let parent := s.parentPort == some n
    let asked := match s.treeOf.asking with
      | some (m, _) => m == n
      | none => false
    let unsent := s.unsent n
    let s := s.bump (Reg.STAIR.PORT_STATUS.flight_faults n)
    let s := (s.portQuiet n st).put (Reg.STAIR.PORT_STATUS.cause n) cause
    let s := (s.record { kind := .fault, cls := 0x0C, unit := unitStair, inst := n, cause := cause, action := if parent then 8 else 0 }).notice .topology
    if parent then s.parentLost unsent else if asked then s.abandon else s

/-- A flight fault: HOLDOFF (R454). -/
def State.flightFault (s : State) (n cause : Nat) : State := s.flightFaultTo n cause spHoldoff

/-- FLIGHT_FAULT (R454): the loss of the stair clock faults all four ports. -/
def execFlightFault (t : Nat) (port : Fin 4) (cause : Fin 16) (s : State) : Host.Outcome State Fault Refusal :=
  let s := s.atTime t
  let c := cause.val
  finish (if c < 8 || 14 < c || c = 13 then s
    else if c = 11 then s.forEach (List.range 4) fun n s => s.flightFault n c
    else s.flightFault port.val c)

/-- A lane is removed from its port in UP, with its record (R453); the average of a port whose lowest lane changes starts anew (R466). -/
def State.removeLane (s : State) (i cause : Nat) : State :=
  let n := i / 4
  if !s.sUp n || s.laneState i != slActive then s
  else
    let lowest := (s.activeLanes n).head? == some i
    let s := s.padLanes n
    let at0 := s.now
    let s := (s.put (Reg.STAIR.LANE_STATUS.state i) slOut).put (Reg.STAIR.LANE_STATUS.cause i) cause
    let s := (s.bump (Reg.STAIR.LANE_STATUS.faults i)).put (Reg.STAIR.LANE_ADAPT.idle i) 0
    let s := (s.modSLane i fun x => { x with since := at0, rolled := false, qualified := false, startAt := none, sent := 0 }).showLanes n
    let s := if lowest then s.modSPort n fun x => { x with delays := [], holdDelay := true, sentMarks := [], heardMarks := [] } else s
    s.record { kind := .fault, cls := 0x0B, unit := unitStair, inst := i, cause := cause, action := 9 }

/-- A lane fault, and a flight fault where too few lanes are left (R440, R453, R454). -/
def State.laneFault (s : State) (i cause : Nat) : State :=
  let n := i / 4
  let s := s.removeLane i cause
  if s.sUp n && (s.activeLanes n).length < s.minLanes n then s.flightFault n 8 else s

/-- LANE_FAULT (R453). -/
def execLaneFault (t : Nat) (lane : Fin 16) (cause : Fin 6) (s : State) : Host.Outcome State Fault Refusal :=
  let s := s.atTime t
  let idle := cause.val == 4 && s.flag (Reg.STAIR.LANE_ADAPT.idle lane.val)
  finish (if cause.val = 0 || idle then s else s.laneFault lane.val cause.val)

/-- A retrained lane takes part again (R453, R466); its scrambler starts with its first pilot block, as at the entry to FULL (R422; DEDUCED, log
entry 78). -/
def State.laneBack (s : State) (i : Nat) : State :=
  let n := i / 4
  let at0 := s.now
  let s := s.put (Reg.STAIR.LANE_STATUS.state i) slActive
  let s := ((s.modSLane i fun x => { x with since := at0, busyAt := at0, qualified := false }).lanesBegin [i]).showLanes n
  if (s.activeLanes n).head? == some i then s.modSPort n fun x => { x with delays := [], holdDelay := true, sentMarks := [], heardMarks := [] } else s

/-- LANE_REJOIN (R453): a lane that is OUT has qualified; it rejoins at a planning-slot boundary. -/
def execLaneRejoin (t : Nat) (lane : Fin 16) (s : State) : Host.Outcome State Fault Refusal :=
  let s := s.atTime t
  let i := lane.val
  finish (if !s.sUp (i / 4) || s.laneState i != slOut then s
    else if s.clock.started && s.arrayNow % planningSlot = 0 then s.laneBack i
    else s.modSLane i fun x => { x with qualified := true })

/-- Lanes at a planning-slot boundary: those that have qualified rejoin; one that times out holds off 100 ms and tries again (R453). -/
def State.lanesPlanned (s : State) : State :=
  s.forEach (List.range 16) fun i s =>
    let x := s.sLane i
    let at0 := s.now
    if !s.sUp (i / 4) then s
    else if s.laneState i == slOut then
      if x.qualified then s.laneBack i
      else if x.since + ticksOfMs 10 ≤ s.now then (s.put (Reg.STAIR.LANE_STATUS.state i) slHoldoff).modSLane i fun y => { y with since := at0 }
      else s
    else if s.laneState i == slHoldoff && x.since + ticksOfMs 100 ≤ s.now then
      (s.put (Reg.STAIR.LANE_STATUS.state i) slOut).modSLane i fun y => { y with since := at0 }
    else s

/-! ### Detect bursts and training (R435 to R438, R736) -/

/-- Both ends have acknowledged: training begins, or the flight is refused (R435, R436). -/
def State.detected (s : State) (n : Nat) (b : Burst) : State :=
  let x := s.sPort n
  let cause := if b.tag != s.get Reg.STAIR.ARRAY_TAG.word then 5 else if b.split != x.split then 7
    else if b.landing == s.get Reg.STAIR.STATUS.landing then 6 else 0
  if cause != 0 then (s.portHoldoff n cause).topology n cause 0
  else
    let s := (s.put (Reg.STAIR.PORT_PEER.landing n) b.landing).put (Reg.STAIR.PORT_PEER.port n) b.port
    let s := (s.modSPort n fun x => { x with echoes := 0 }).lanesEnter n slTraining
    s.sEnter n (if x.split then spFarEq else spEcho)

/-- In DETECT: on once each end has acknowledged the other. -/
def State.detectCheck (s : State) (n : Nat) : State :=
  let x := s.sPort n
  match x.far with
  | some b => if s.sState n == spDetect && b.ack && x.acked then s.detected n b else s
  | none => s

/-- A landing is awake where its stair island runs (R467, R571). -/
def State.awake (s : State) : Bool :=
  (s.power == powerActive || s.power == powerQuiet || s.power == powerIdle) && (s.get Reg.CLOCK.ISLAND_STATUS.locked).testBit 5

/-- DETECT_BURST (R435, R454, R469). -/
def execDetectBurst (t : Nat) (port : Fin 4) (b : Burst) (s : State) : Host.Outcome State Fault Refusal :=
  let s := s.atTime t
  let n := port.val
  let st := s.sState n
  let at0 := s.now
  let begin_ := st == spListen || (st == spSleep && s.awake)
  let heard := fun (s : State) => s.modSPort n fun x => { x with far := some b }
  finish (if st == spUp then s.flightFault n 0xA
    else if begin_ then heard ((s.sEnter n spDetect).modSPort n fun x => { x with burstAt := at0, acked := false })
    else if st == spDetect then (heard s).detectCheck n
    else s)

/-- DETECT_BURST_SEND (R435): in LISTEN once in every 50 µs at a pseudo-random offset, in DETECT every 20 µs. -/
def execDetectBurstSend (t : Nat) (port : Fin 4) (s : State) : Host.Outcome State Fault Refusal :=
  let s := s.atTime t
  let n := port.val
  let x := s.sPort n
  let k := s.treeOf.bursts
  let listen := s.sState n == spListen
  let due := if listen then x.burstAt + ticksOfNs (Config.burstOffset k % 25001) else x.burstAt
  let ack := !listen && x.far.isSome
  finish (if (listen || s.sState n == spDetect) && due ≤ s.now then
      let s := s.emit (.detectBurst n { landing := s.get Reg.STAIR.STATUS.landing, port := n, split := x.split,
                                        tag := s.get Reg.STAIR.ARRAY_TAG.word, ack := ack })
      let s := s.modTree fun t => { t with bursts := k + 1 }
      (s.modSPort n fun x => { x with burstAt := x.burstAt + ticksOfUs (if listen then 50 else 20), acked := x.acked || ack }).detectCheck n
    else s)

/-- ECHO_PHASE_END (R436): 1 ms for each end. -/
def execEchoPhaseEnd (t : Nat) (port : Fin 4) (s : State) : Host.Outcome State Fault Refusal :=
  let s := s.atTime t
  let n := port.val
  let k := (s.sPort n).echoes + 1
  finish (if s.sState n == spEcho && (s.sPort n).since + ticksOfMs k ≤ s.now then
      let s := s.modSPort n fun x => { x with echoes := k }
      if k = 2 then s.sEnter n spFarEq else s
    else s)

/-- The figures of merit at the end of FAR_EQ (R437, R440): lanes that qualify go on to FULL, where their codewords begin (R422), the others
are OUT. -/
def State.farEq (s : State) (n : Nat) (foms : List Nat) : State :=
  if s.sState n != spFarEq then s
  else
    let s := s.forEach ((portLanes n).zip foms) fun e s => (s.put (Reg.STAIR.LANE_ADAPT.fom e.1) e.2).put (Reg.STAIR.LANE_ADAPT.fom_committed e.1) e.2
    let least := s.get (Reg.STAIR.PORT_CTL.fom_min n)
    let split := (s.sPort n).split
    let good := fun i => (split && i % 4 < 2) || decide (least ≤ foms.getD (i % 4) 0)
    let out := (portLanes n).filter fun i => !good i
    if 4 < out.length + s.minLanes n then s
    else
      let s := (s.forEach out fun i s => s.put (Reg.STAIR.LANE_STATUS.state i) slOut).sEnter n spFull
      s.lanesBegin ((portLanes n).filter fun i => !out.contains i)

/-- FAR_EQ_DONE (R437). -/
def execFarEqDone (t : Nat) (port : Fin 4) (foms : List Nat) (s : State) : Host.Outcome State Fault Refusal :=
  finish ((s.atTime t).farEq port.val foms)

/-- The array-joint layer-carriers that the carrier plan in force gives, downlink and uplink (R61, R736). -/
def State.jointLayers (s : State) : Nat × Nat :=
  let l := (planCarriers (s.sectionBytes secCarriers)).filter fun e => e.2.joint && e.2.enable
  (sumNat (l.map fun e => e.2.dl), sumNat (l.map fun e => e.2.ul))

/-- The average of delay measurements, to the nearest. -/
def meanOf (l : List Int) : Int := if l.isEmpty then 0 else (2 * sumInt l + l.length).fdiv (2 * l.length)

/-- A port reaches UP (R437): its sequence starts, its flight has its use, its lanes carry traffic. -/
def State.portUp (s : State) (n : Nat) (delays : List Int) : State :=
  let at0 := s.now
  let s := s.padLanes n
  let s := s.forEach (portLanes n) fun i s =>
    let s := if s.laneState i == slOut then s else s.put (Reg.STAIR.LANE_STATUS.state i) slActive
    s.modSLane i fun x => { x with since := at0, busyAt := at0, rolled := false, qualified := false }
  let s := (s.sEnter n spUp).showLanes n
  let s := s.modSPort n fun x =>
    { x with noticed := false, queue := [], next := 0, unacked := [], parts := [0, 0, 0], runs := [0, 0, 0, 0, 0, 0], turn := 0,
             ackAt := at0, rxNext := 0, rxHave := [], lastHello := at0, helloSent := 0,
             hello := none, markAt := at0, markIndex := 0, sentMarks := [], heardMarks := [], delays := delays.reverse, excluded := false,
             holdDelay := false }
  let s := (s.putS (Reg.STAIR.PORT_DELAY.word n) (meanOf delays)).put (Reg.STAIR.PORT_PEER.valid n) 0
  s.assignUse n

/-- FULL_DONE (R437, R736). -/
def execFullDone (t : Nat) (port : Fin 4) (delays : List Int) (s : State) : Host.Outcome State Fault Refusal :=
  let s := s.atTime t
  let n := port.val
  let overN := (s.sPort n).split && (32 < s.jointLayers.1 || 32 < s.jointLayers.2)
  finish (if s.sState n != spFull then s
    else if overN then (s.portHoldoff n 7).topology n 7 0
    else s.portUp n delays)

/-- PORT_PHASE_TIMEOUT (R438). -/
def execPortPhaseTimeout (t : Nat) (port : Fin 4) (s : State) : Host.Outcome State Fault Refusal :=
  let s := s.atTime t
  let n := port.val
  let st := s.sState n
  finish (if spDetect ≤ st && st ≤ spFull && (s.sPort n).since + ticksOfMs 10 ≤ s.now then
      let first := !(s.sPort n).noticed
      let s := (s.bump (Reg.STAIR.PORT_STATUS.train_fail n)).portHoldoff n (st - 1)
      let s := s.modSPort n fun x => { x with noticed := true }
      if first then s.topology n (st - 1) 0 else s
    else s)

/-- HOLDOFF_END (R438). -/
def execHoldoffEnd (t : Nat) (port : Fin 4) (s : State) : Host.Outcome State Fault Refusal :=
  let s := s.atTime t
  let n := port.val
  finish (if s.sState n == spHoldoff && (s.sPort n).since + ticksOfMs 100 ≤ s.now then s.portListen n else s)

/-- PORT_CTL has been written: enable starts the port, or ends it (R438, R454). -/
def State.portControl (s : State) (n : Nat) : State :=
  let on := s.flag (Reg.STAIR.PORT_CTL.enable n) && decide (s.boot.phase = .ready)
  if on && s.sState n == spDisabled then (s.modSPort n fun x => { x with noticed := false }).portListen n
  else if !on && s.sState n != spDisabled then (s.flightFault n 0xC).portQuiet n spDisabled
  else s

/-- A port returns to LISTEN at the host's wish; in UP its lanes are removed and its flight faults with cause HOST (R441, R453). -/
def State.retrain (s : State) (n : Nat) : State :=
  if s.sState n == spDisabled then s
  else if s.sUp n then
    let s := s.forEach (s.activeLanes n) fun i s => s.removeLane i 5
    (s.flightFault n 0xC).portListen n
  else s.portListen n

/-- STAIR_RETRAIN (R441). -/
def execStairRetrain (t : Nat) (ch : Channel) (port : Fin 4) (s : State) : Host.Outcome State Fault Refusal :=
  finish (s.hostCmd t ch.val (Reg.STAIR.PORT_CTL.word port.val).addr fun s => s.retrain port.val)

/-! ### Codewords (R427 to R429) -/

/-- How far a codeword number lies ahead of another, modulo 16,384. -/
def seqAhead (a b : Nat) : Nat := (a + 16384 - b % 16384) % 16384

/-- An ack: codewords before it are kept no longer (R428). -/
def State.acked (s : State) (n ack : Nat) : State :=
  let x := s.sPort n
  let left := x.unacked.filter fun c => seqAhead c.seq ack < 8192
  let at0 := s.now
  if left.length = x.unacked.length then s
  else (s.modSPort n fun x => { x with unacked := left, ackAt := at0 }).drainStair n

/-- Codeword numbers that have come in a row are counted off; `k` bounds them. -/
def takeRow : Nat → Nat → List Nat → Nat × List Nat
  | 0, next, have_ => (next, have_)
  | k + 1, next, have_ => if have_.contains next then takeRow k ((next + 1) % 16384) (have_.filter fun q => q != next) else (next, have_)

/-- A decoded codeword: a duplicate is dropped and counted, another takes its place (R427, R428). -/
def State.codeword (s : State) (n seq : Nat) : State :=
  let x := s.sPort n
  let q := seq % 16384
  if 8192 ≤ seqAhead q x.rxNext || x.rxHave.contains q then s.bump (Reg.STAIR.PORT_DUP.word n)
  else
    let y := takeRow (x.rxHave.length + 1) x.rxNext (q :: x.rxHave)
    s.modSPort n fun x => { x with rxNext := y.1, rxHave := y.2 }

/-- CODEWORD_RECEIVE (R428): the ack of a pilot, the FEC's counts, and the codeword. -/
def execCodewordReceive (t : Nat) (lane : Fin 16) (seq : Nat) (content : Bool) (ack : Option Nat) (fec : Fin 3) (s : State) :
    Host.Outcome State Fault Refusal :=
  let s := s.atTime t
  let i := lane.val
  let n := i / 4
  let at0 := s.now
  finish (if !s.sUp n || s.laneState i != slActive then s
    else
      let s := match ack with
        | some a => s.acked n a
        | none => s
      if fec.val = 2 then s.bump (Reg.STAIR.PORT_FEC_UNCORR.word n)
      else
        let s := if fec.val = 1 then s.add64 (Reg.STAIR.PORT_FEC_CORR_LO.word n) (Reg.STAIR.PORT_FEC_CORR_HI.word n) 1 else s
        let s := if content then s.idleWake 2 else s
        let s := if content then (s.modSLane i fun x => { x with busyAt := at0, rolled := false }).put (Reg.STAIR.LANE_ADAPT.idle i) 0 else s
        s.codeword n seq)

/-- The codeword that a port sends again: the one sent longest ago of those that have waited 2 µs for their ack, or of all where 512 are
unacknowledged (R429). -/
def State.againOf (s : State) (n : Nat) : Option Codeword :=
  let x := s.sPort n
  let l := if 512 ≤ x.unacked.length then x.unacked else x.unacked.filter fun c => decide (c.begun + ticksOfUs 2 ≤ s.now)
  match l with
  | [] => none
  | c :: rest => some (rest.foldl (fun (b y : Codeword) => if y.begun < b.begun then y else b) c)

/-- CODEWORD_RESEND (R429): a codeword is sent again, unchanged, on the next active lane. -/
def execCodewordResend (t : Nat) (port : Fin 4) (s : State) : Host.Outcome State Fault Refusal :=
  let s := s.atTime t
  let n := port.val
  let at0 := s.now
  finish (match s.againOf n with
    | some c =>
      if s.sUp n then
        let s := s.modSPort n fun x => { x with unacked := x.unacked.map fun (y : Codeword) => if y.seq = c.seq then { y with begun := at0 } else y }
        let s := ((s.bump (Reg.STAIR.PORT_RESENT.word n)).emit (.codewordAgain n c.seq)).padLanes n
        match s.dealOrder n with
        | i :: _ => s.onLane i c
        | [] => s
      else s
    | none => s)

/-- ACK_STALL (R429): no advance of the ack for 20 µs. -/
def execAckStall (t : Nat) (port : Fin 4) (s : State) : Host.Outcome State Fault Refusal :=
  let s := s.atTime t
  let x := s.sPort port.val
  finish (if s.sUp port.val && !x.unacked.isEmpty && x.ackAt + ticksOfUs 20 ≤ s.now then s.flightFault port.val 0xE else s)

/-- HELLO_TIMEOUT (R447): no HELLO for 1 ms. -/
def execHelloTimeout (t : Nat) (port : Fin 4) (s : State) : Host.Outcome State Fault Refusal :=
  let s := s.atTime t
  finish (if s.sUp port.val && (s.sPort port.val).lastHello + ticksOfMs 1 ≤ s.now then s.flightFault port.val 9 else s)

/-! ### Adaptation and idle (R433, R434) -/

/-- STAIR_ADAPT_COMMIT (R433): the figure is shown; a frozen lane commits no set (DESIGN CHOICE, log entry 83). -/
def execStairAdaptCommit (t : Nat) (lane : Fin 16) (fom : Nat) (s : State) : Host.Outcome State Fault Refusal :=
  let s := s.atTime t
  let i := lane.val
  finish (if s.laneState i != slActive then s
    else
      let s := s.put (Reg.STAIR.LANE_ADAPT.fom i) fom
      let frozen := s.flag (Reg.STAIR.LANE_ADAPT.freeze i) || (s.sLane i).rolled
      if !frozen && s.get (Reg.STAIR.LANE_ADAPT.fom_committed i) ≤ s.get (Reg.STAIR.LANE_ADAPT.fom i) + 4 then
        s.put (Reg.STAIR.LANE_ADAPT.fom_committed i) fom
      else s)

/-- LANE_IDLE (R434): nothing but PAD for 10 µs. -/
def execLaneIdle (t : Nat) (lane : Fin 16) (s : State) : Host.Outcome State Fault Refusal :=
  let s := s.atTime t
  let i := lane.val
  finish (if s.laneState i == slActive && (s.sLane i).busyAt + ticksOfUs 10 ≤ s.now then s.put (Reg.STAIR.LANE_ADAPT.idle i) 1 else s)

/-- IDLE_ROLLBACK (R434): an idle lane whose figure has fallen by more than 12 returns to its committed coefficients and holds them. -/
def execIdleRollback (t : Nat) (lane : Fin 16) (fom : Nat) (s : State) : Host.Outcome State Fault Refusal :=
  let s := s.atTime t
  let i := lane.val
  let low := decide (fom + 12 < s.get (Reg.STAIR.LANE_ADAPT.fom_committed i))
  finish (if s.laneState i == slActive && s.flag (Reg.STAIR.LANE_ADAPT.idle i) && low && !(s.sLane i).rolled then
      let s := (s.put (Reg.STAIR.LANE_ADAPT.fom i) fom).bump (Reg.STAIR.LANE_ADAPT.rollback i)
      s.modSLane i fun x => { x with rolled := true }
    else s)

/-! ### Array time over the tree (R463 to R466) -/

/-- The parent's TIME record for an index, once both of its times are known (R463). -/
def State.timeRecord (s : State) (n index : Nat) : State :=
  let x := s.sPort n
  if s.sUse n != useChild then s
  else match assoc? x.sentMarks index, assoc? x.heardMarks index with
    | some t1, some t4 =>
      let s := s.modSPort n fun x => { x with sentMarks := assocErase x.sentMarks index, heardMarks := assocErase x.heardMarks index }
      s.sendOn n (.time index t1 t4)
    | _, _ => s

/-- TIME_MARK (R463): a mark is sent, one every period, or received. -/
def execTimeMark (t : Nat) (port : Fin 4) (heard : Option Nat) (stamp : Int) (s : State) : Host.Outcome State Fault Refusal :=
  let s := s.atTime t
  let n := port.val
  let x := s.sPort n
  finish (if !s.sUp n then s
    else match heard with
      | some index => (s.modSPort n fun x => { x with heardMarks := assocSet x.heardMarks (index % 8) stamp }).timeRecord n (index % 8)
      | none =>
        if s.now < x.markAt then s
        else
          let i := x.markIndex
          let next := s.now + ticksOfMs (s.get Reg.STAIR.TIME_CTL.period)
          let s := s.modSPort n fun x => { x with sentMarks := assocSet x.sentMarks i stamp, markIndex := (i + 1) % 8, markAt := next }
          let s := (s.padLanes n).emit (.pilotMark n i)
          let s := s.forEach ((s.activeLanes n).take 1) fun l s =>
            s.emit (.pilot l (pilotBlock l (s.sPort n).next (s.sPort n).rxNext (some i) 0))
          s.timeRecord n i)

/-- A measurement of the flight's delay enters the average (R464, R466). -/
def State.delayMeasured (s : State) (n : Nat) (d : Int) : State :=
  let k := s.get Reg.STAIR.TIME_CTL.filter
  let l := (d :: (s.sPort n).delays).take k
  let hold := (s.sPort n).holdDelay && decide (l.length < min k 16)
  let s := s.modSPort n fun x => { x with delays := l, holdDelay := hold }
  if hold then s else s.putS (Reg.STAIR.PORT_DELAY.word n) (meanOf l)

/-- TIME at the child: D and θ of the index (R464), which discipline array time (R601). -/
def State.timeArrived (s : State) (n index : Nat) (t1 t4 : Int) : State :=
  let x := s.sPort n
  match assoc? x.heardMarks index, assoc? x.sentMarks index with
  | some t2, some t3 =>
    let s := s.modSPort n fun x => { x with sentMarks := assocErase x.sentMarks index, heardMarks := assocErase x.heardMarks index }
    let d := ((t4 - t1) - (t3 - t2)).fdiv 2 + s.getS (Reg.STAIR.PORT_ASYM.word n)
    let theta := t2 - t1 - d
    let s := (s.delayMeasured n d).putS Reg.STAIR.TIME_ERR.word (satS 32 theta)
    if s.get Reg.CLOCK.REF_STATUS.source = srcParent then s.disciplined theta 10 else s
  | _, _ => s

/-- TIME (R464). -/
def execTime (t : Nat) (port : Fin 4) (index : Nat) (t1 t4 : Int) (s : State) : Host.Outcome State Fault Refusal :=
  let s := s.atTime t
  finish (if s.fromParent port.val then s.timeArrived port.val (index % 8) t1 t4 else s)

/-! ### Sleep and wake (R467 to R469) -/

/-- A port goes to sleep; a parent that sleeps is no parent in use. -/
def State.portSleep (s : State) (n : Nat) : State :=
  if !s.sUp n then s
  else
    let parent := s.parentPort == some n
    let s := s.portQuiet n spSleep
    if parent then s.setParent none else s

/-- SLEEP (R467). -/
def execSleep (t : Nat) (port : Fin 4) (s : State) : Host.Outcome State Fault Refusal := finish ((s.atTime t).portSleep port.val)

/-- The landing tells its peers that it sleeps (R467). -/
def State.sleepPorts (s : State) : State :=
  s.forEach ((List.range 4).filter s.sUp) fun n s => (s.sendOn n .sleep).portSleep n

/-- A port sends the wake pattern (R469). -/
def State.portWake (s : State) (n : Nat) : State := (s.portQuiet n spWaking).emit (.wakePattern n)

/-- STAIR_WAKE (R469): an enabled port that is not in UP or training. -/
def execStairWake (t : Nat) (ch : Channel) (port : Fin 4) (s : State) : Host.Outcome State Fault Refusal :=
  finish (s.hostCmd t ch.val (Reg.STAIR.PORT_CTL.word port.val).addr fun s =>
    let st := s.sState port.val
    if st == spSleep || st == spListen || st == spHoldoff then s.portWake port.val else s)

/-- WAKE_PATTERN_SENT (R469): after 20 µs the port listens. -/
def execWakePatternSent (t : Nat) (port : Fin 4) (s : State) : Host.Outcome State Fault Refusal :=
  let s := s.atTime t
  let n := port.val
  finish (if s.sState n == spWaking && (s.sPort n).since + ticksOfUs 20 ≤ s.now then s.portListen n else s)

end Sys2Proof.Machine
end

