-- ==== Sys2Proof/Machine/Ota.lean ====
section
/-!
DEFINITION. Over-the-air calibration (R471 to R499): rounds and their windows, bursts and their reception, the solution and the
corrections it leads to.
-/

namespace Sys2Proof.Machine

open Sys2Proof

/-! ### Numbers (R473, R481, R489) -/

/-- a ⊗ b of R473 on words of Q2.14 components. -/
def corrMul (a b : Word) : Word :=
  (((cplxOfWord a.toNat).mul (cplxOfWord b.toNat)).map fun x => satS 16 (shrFloor x 14)).word

/-- rot(x, φ) of R473. -/
def corrRot (x : Word) (phi : Nat) : Word :=
  (((cplxOfWord x.toNat).mul (phasor17 (phi % 65536) 65536)).map fun y => satS 16 (shrFloor y 17)).word

/-- s of R481: the Zadoff–Chu sequence of root 25 and length 127, and its first sample again. -/
def burstSample (i : Nat) : Cplx :=
  let k := i % 128 % 127
  phasor17 ((254 - 25 * k * (k + 1) % 254) % 254) 254

/-- The 1,536 samples of a burst with 64 header bits (R481). -/
def burstWave (header : Nat) : List Cplx :=
  let period := (List.range 128).map burstSample
  let bit := fun (k : Nat) => if header.testBit (63 - k) then burstSample 0 else (burstSample 0).neg
  (List.replicate 4 period).flatten ++ ((List.range 64).map fun k => List.replicate 4 (bit k)).flatten ++ (List.replicate 6 period).flatten

/-- CRC-16 with polynomial 0x1021 over the top `k` bits of a 48-bit number, from a value. -/
def crc16Bits : Nat → Nat → Nat → Nat
  | 0, _, crc => crc
  | k + 1, x, crc =>
    let b := (x / 2 ^ k + crc / 2 ^ 15) % 2
    crc16Bits k x (Nat.xor (crc * 2 % 65536) (if b = 1 then 0x1021 else 0))

/-- The header of a burst (R481): sender, window, round, tag and CRC. -/
def burstHeader (sender window round tag : Nat) : Nat :=
  let x := sender % 512 * 2 ^ 39 + window % 1024 * 2 ^ 29 + round % 256 * 2 ^ 21 + tag % 65536 * 2 ^ 5
  x * 65536 + crc16Bits 48 x 0xFFFF

/-- Is the direction 2πj / 131,072, j below 32,768, at or before a point of the first quadrant? -/
def dirBefore (j : Nat) (m : Cplx) : Bool := decide (0 ≤ cos96 j 131072 * m.im - sin96 j 131072 * m.re)

/-- The last direction of the first quadrant at or before a point: `k` binary digits below `j`. -/
def dirSearch (m : Cplx) : Nat → Nat → Nat
  | 0, j => j
  | k + 1, j => if dirBefore (j + 2 ^ k) m then dirSearch m k (j + 2 ^ k) else dirSearch m k j

/-- round(65,536 × arg(m) / 2π) modulo 65,536, half away from zero (R489). -/
def phaseOf (m : Cplx) : Nat :=
  let turn := fun (q : Nat) (x : Cplx) => (q * 16384 + (dirSearch x 15 0 + 1) / 2) % 65536
  if m.re = 0 && m.im = 0 then Config.phaseOfZero % 65536
  else if 0 < m.re && 0 ≤ m.im then turn 0 m
  else if m.re ≤ 0 && 0 < m.im then turn 1 ⟨m.im, -m.re⟩
  else if m.re < 0 && m.im ≤ 0 then turn 2 ⟨-m.re, -m.im⟩
  else turn 3 ⟨-m.im, m.re⟩

/-! ### Windows (R475, R476, R478) -/

/-- The OTA carrier, its pattern, and the ticks of a period. -/
def State.otaCarrier (s : State) : Nat := s.get Reg.OTA.CTL.carrier
def State.otaPattern (s : State) : Pattern := patternOf (s.car s.otaCarrier).pattern
def State.otaPeriod (s : State) : Nat := max 1 (periodEighths s.otaPattern.period * 491520)

/-- The first flexible symbol of a period of the OTA carrier and the first after it that is not, counted in the period; none without
flexible symbols. -/
def State.flexible (s : State) : Option (Nat × Nat) :=
  let r := s.form s.otaCarrier
  let x := s.otaPattern
  let whole := x.slots r * r.symbols
  if r.tdd = 0 then none
  else match firstIdx whole fun i => decide (x.dirOf r i = .flexible) with
    | none => none
    | some i => some (i, (firstIdx whole fun j => decide (i < j) && decide (x.dirOf r j ≠ .flexible)).getD whole)

/-- Begin and end of the window of a period, in array time (R475). -/
def State.windowAt (s : State) (period : Nat) : Option (Nat × Nat) :=
  let r := s.form s.otaCarrier
  let whole := s.otaPattern.slots r * r.symbols
  s.flexible.map fun f => (r.boundary (period * whole + f.1), r.boundary (period * whole + f.2))

/-- May a round run on the OTA carrier: it runs, spans 20 MHz, and its windows last 60 µs (R475)? -/
def State.windowOk (s : State) : Bool :=
  let r := s.form s.otaCarrier
  s.running s.otaCarrier && 20000 ≤ r.width * 12 * r.khz &&
    match s.windowAt (s.arrayNow / s.otaPeriod + 1) with
    | some w => decide (w.1 + ticksOfUs 60 ≤ w.2)
    | none => false

/-- Senders of a window at most: OTA.CTL.reuse + 1. -/
def State.otaReuse (s : State) : Nat := s.get Reg.OTA.CTL.reuse + 1

/-- BURST windows of a round over `n` landings (R476). -/
def State.burstCount (s : State) (n : Nat) : Nat := if n = 1 then 0 else ceilDiv n s.otaReuse

/-- The LOOP and BURST windows of a round (R476). -/
def State.roundWindows (s : State) : List OtaWindow :=
  let n := s.landingCount
  let b := s.burstCount n
  (List.range 8).map (fun _ => { kind := 0, senders := [] }) ++
    (List.range b).map fun k => { kind := 1, senders := (List.range n).filter fun l => l % b == k }

/-! ### A round begins (R477, R478, R491) -/

/-- A landing takes a SCHEDULE record: the first of a round, or that of its RETRY windows. -/
def State.scheduleTaken (s : State) (round first period : Nat) (windows : List OtaWindow) : State :=
  let here := s.arrayNow / s.otaPeriod
  let d := (period + 2 ^ 32 - here % 2 ^ 32) % 2 ^ 32
  let p := if d < 2 ^ 31 then here + d else here + d - 2 ^ 32
  let new := (List.range windows.length).zip windows |>.map fun e => (first + e.1, p + e.1, e.2)
  let off := s.get Reg.OTA.CTL.mode == 0 || !s.running s.otaCarrier
  if first = 0 then
    if off then s
    else
      let s := (s.put Reg.OTA.ROUND.number (if s.isTop then s.get Reg.OTA.ROUND.number else round)).put Reg.OTA.ROUND.windows windows.length
      let s := s.put Reg.OTA.STATUS.state 1
      { s with ota := { s.ota with active := true, windows := new, retryKnown := false, now := none, captures := [none, none], accepted := [],
                                   newTau := s.ota.tau, newRho := s.ota.rho, staleRound := false } }
  else if !s.ota.active || round % 256 != s.get Reg.OTA.ROUND.number % 256 then s
  else
    let s := s.addTo Reg.OTA.ROUND.windows windows.length
    let s := { s with ota := { s.ota with windows := s.ota.windows ++ new, retryKnown := true } }
    if windows.isEmpty then s.put Reg.OTA.STATUS.state 4 else s

/-- The top begins a round: its schedule goes down (R478). -/
def State.beginRound (s : State) : State :=
  let windows := s.roundWindows
  let s := s.bump Reg.OTA.ROUND.number
  let round := s.get Reg.OTA.ROUND.number % 256
  let p := ceilDiv (s.arrayNow + ticksOfMs 2) s.otaPeriod
  let at0 := s.now
  let s := { s with ota := { s.ota with reports := [], missed := [], staleAt := none, lastStart := at0 } }
  let s := s.sendDown (.ota (.schedule round 0 (p % 2 ^ 32) windows))
  s.scheduleTaken round 0 p windows

/-- The cause that refuses a start, 0 for none (R475, R477, R495, R573). -/
def State.startCause (s : State) : Nat :=
  let busy := s.get Reg.OTA.STATUS.state != 0 || s.flag Reg.OTA.STATUS.staged || !(s.power == powerActive || s.power == powerQuiet)
  if !s.isTop then 1
  else if busy then 2
  else if s.get Reg.OTA.CTL.mode = 0 then 5
  else if s.treeState != treeFormed then 4
  else if !s.windowOk then 3
  else 0

/-- A start is accepted or refused with its cause. -/
def State.startRound (s : State) : State :=
  let c := s.startCause
  if c = 0 then s.beginRound else s.put Reg.OTA.STATUS.cause c

/-- OTA_START (R477). -/
def execOtaStart (t : Nat) (ch : Channel) (s : State) : Host.Outcome State Fault Refusal :=
  finish (s.hostCmd t ch.val Reg.OTA.CMD.word.addr fun s => s.startRound)

/-- OTA_DISCARD (R495): staged corrections are released. -/
def execOtaDiscard (t : Nat) (ch : Channel) (s : State) : Host.Outcome State Fault Refusal :=
  finish (s.hostCmd t ch.val Reg.OTA.CMD.word.addr fun s => s.put Reg.OTA.STATUS.staged 0)

/-- OTA_ROUND_TIMER (R477): in AUTO the top starts a round at every interval, and once a landing reports itself stale. -/
def execOtaRoundTimer (t : Nat) (s : State) : Host.Outcome State Fault Refusal :=
  let s := s.atTime t
  let k := s.get Reg.OTA.CTL.interval
  let due := (k != 0 && decide (s.ota.lastStart + ticksOfMs (100 * k) ≤ s.now)) || s.ota.staleAt.isSome
  finish (if s.isTop && s.get Reg.OTA.CTL.mode == 1 && due then s.startRound else s)

/-- SCHEDULE (R478): forwarded to all, and taken. -/
def execSchedule (t : Nat) (round first period : Nat) (windows : List OtaWindow) (s : State) : Host.Outcome State Fault Refusal :=
  finish (((s.atTime t).sendDown (.ota (.schedule round first period windows))).scheduleTaken round first period windows)

/-! ### Windows take place (R479, R480, R482, R490, R564) -/

/-- Has a blanking span of a group, or of any, met the time from `a` to `b`? -/
def State.blankMet (s : State) (g : Option Nat) (a b : Nat) : Bool :=
  s.radio.blankSpans.any fun e => (g.all fun k => e.1 == k) && decide (e.2.1 ≤ b) && e.2.2.all fun z => decide (a < z)

/-- Did a path take part in a LOOP window that began at `a` and ends now (R479)? -/
def State.loopPath (s : State) (a p : Nat) : Bool :=
  let fed := ((s.bank (bankOf p)).switchedAt.all fun z => decide (z < a))
  s.inService p && s.loState (bankOf p) == loLocked && !s.crossfed (bankOf p) && fed && !s.blanked (groupOf p) &&
    !s.blankMet (some (groupOf p)) a s.arrayNow

/-- The factors that a LOOP window yields (R472, R479). -/
def State.loopFactors (s : State) (a number : Nat) (factors : List (Nat × Word × Word)) : State :=
  s.forEach ((List.range 8).map fun g => 8 * g + number) fun p s =>
    match assoc? factors p with
    | some f =>
      if s.loopPath a p then { s with ota := { s.ota with newTau := s.ota.newTau.set p f.1, newRho := s.ota.newRho.set p f.2 } }
      else s.put Reg.OTA.STATUS.loop_fail 1
    | none => s.put Reg.OTA.STATUS.loop_fail 1

/-- A missed sender, at the top (R490). -/
def State.topMissed (s : State) (receiver sender : Nat) : State :=
  { s with ota := { s.ota with missed := s.ota.missed ++ [(receiver, sender)] } }

/-- After the last BURST window: a MISSED record for each scheduled sender not accepted (R490). -/
def State.sendMissed (s : State) : State :=
  let here := s.landing
  let round := s.get Reg.OTA.ROUND.number % 256
  let all := s.ota.windows.foldl (fun l e => if e.2.2.kind = 1 then l ++ e.2.2.senders.map fun x => (e.1, x) else l) []
  let lost := all.filter fun e => e.2 != here && !s.ota.accepted.contains e.2
  s.forEach lost fun e s =>
    if s.isTop then s.topMissed here e.2 else s.sendUp (.ota (.missed round e.1 here e.2))

/-- The landing transmits in a window that begins at `a`: path `number` of each group from 12 µs on until its T/R line goes low at 57 µs in a
LOOP window, every path for the 50 µs of a burst (R480 to R482). -/
def State.otaSends (s : State) (x : OtaAir) : State := { s with ota := { s.ota with air := some x } }
def loopAir (a number : Nat) : OtaAir := { from_ := a + ticksOfUs 12, until_ := a + ticksOfUs 57, turn := some number }
def burstAir (a : Nat) : OtaAir := { from_ := a + ticksOfUs 2, until_ := a + ticksOfUs 52, turn := none }

/-- A window that began at `a` is under way: a sender transmits its burst 2 µs after `a` (R476, R482); a shed window is skipped (R564). -/
def State.windowBegins (s : State) (a number : Nat) (w : OtaWindow) : State :=
  let skip := !(s.shedding shedOta).isEmpty || !s.carActive s.otaCarrier
  let s := s.put Reg.OTA.STATUS.state (w.kind + 1)
  let s := { s with ota := { s.ota with now := some (number, !skip) } }
  if skip then s
  else if w.kind = 0 then (({ s with trimsTone := s.trims } : State).otaSends (loopAir a number)).emit (.otaLoop number)
  else if w.senders.contains s.landing then
    let header := burstHeader s.landing number (s.get Reg.OTA.ROUND.number) (s.get Reg.STAIR.ARRAY_TAG.word)
    (s.otaSends (burstAir a)).emit
      (.otaBurst number (s.get Reg.OTA.BEAM.entry) (s.get Reg.OTA.CTL.level) header (a + ticksOfUs 2) (burstWave header))
  else s

/-- A window ends: a LOOP window yields its factors, the last BURST window the MISSED records, the last window the end of reception. -/
def State.windowEnds (s : State) (a number : Nat) (w : OtaWindow) (factors : List (Nat × Word × Word)) : State :=
  let took := match s.ota.now with
    | some (n, yes) => n == number && yes
    | none => false
  let s := { s with ota := { s.ota with now := none, captures := [none, none] } }
  let s := if w.kind = 0 && took then s.loopFactors a number factors else s
  let lastOf := fun (k : Nat) => !(s.ota.windows.any fun e => e.2.2.kind == k && decide (number < e.1))
  if w.kind = 1 && lastOf 1 then s.sendMissed
  else if w.kind = 2 && lastOf 2 then s.put Reg.OTA.STATUS.state 4
  else if w.kind = 0 && number = 7 && lastOf 1 then s.put Reg.OTA.STATUS.state 4
  else s

/-- OTA_WINDOW (R475). -/
def execOtaWindow (t : Nat) (number : Nat) (ends : Bool) (factors : List (Nat × Word × Word)) (s : State) : Host.Outcome State Fault Refusal :=
  let s := s.atTime t
  finish (match s.ota.windows.find? fun e => e.1 == number with
    | some (_, period, w) =>
      match s.windowAt period with
      | some span =>
        if !s.ota.active || s.arrayNow < (if ends then span.2 else span.1) then s
        else if ends then s.windowEnds span.1 number w factors
        else if s.arrayNow < span.2 then s.windowBegins span.1 number w
        else s
      | none => s
    | none => s)

/-! ### Reception (R483 to R489) -/

/-- Ticks of one sample at 30.72 MS/s. -/
def burstTick : Nat := 128

/-- The window in progress in which the landing receives: a BURST or RETRY window that it takes part in and does not send in. -/
def State.receivingWindow (s : State) : Option (Nat × Nat × OtaWindow) :=
  match s.ota.now with
  | some (number, true) =>
    (s.ota.windows.find? fun e => e.1 == number).bind fun e =>
      if e.2.2.kind = 0 || e.2.2.senders.contains s.landing then none else some e
  | _ => none

/-- A detection declared on a correlator (R483 to R486). -/
def State.detection (s : State) (k path : Nat) (metric : Int) : State :=
  match s.receivingWindow with
  | none => s
  | some (number, _, _) =>
    let c : OtaCapture := { window := number, path := path, metric := metric, preambleEnd := s.arrayNow - 64 * burstTick }
    let start := fun (s : State) => { s with ota := { s.ota with captures := (s.ota.captures.set k (some c)).set (1 - k) none } }
    if metric < 64 * (s.get Reg.OTA.DET_CTL.thresh : Nat) then s
    else match s.ota.captures.getD k none, s.ota.captures.getD (1 - k) none with
      | none, none => start s
      | none, some other =>
        if other.metric + 1536 ≤ metric && s.arrayNow < other.preambleEnd + 512 * burstTick then (start s).bump Reg.OTA.PREEMPTED.word else s
      | some _, _ => s

/-- OTA_DETECTION (R485). -/
def execOtaDetection (t : Nat) (k : Fin 2) (path : Fin 2) (metric : Int) (s : State) : Host.Outcome State Fault Refusal :=
  finish ((s.atTime t).detection k.val path.val metric)

/-- The cause that discards a capture from `a` to `b`, 0 for none (R488). -/
def State.discardCause (s : State) (c : OtaCapture) (a b overloads : Nat) : Nat :=
  let p := if c.path = 0 then s.get Reg.OTA.DET_CTL.path0 else s.get Reg.OTA.DET_CTL.path1
  let switched := (List.range 2).any fun i => match (s.bank i).switchedAt with
    | some z => decide (a ≤ z) && decide (z ≤ b)
    | none => false
  let past := match (s.ota.windows.find? fun e => e.1 == c.window).bind fun e => s.windowAt e.2.1 with
    | some w => decide (w.2 < b)
    | none => true
  if s.blankMet none a b then 1
  else if switched || s.loState (bankOf p) != loLocked then 2
  else if 8 < overloads then 3
  else if past then 4
  else 0

/-- The payload check of a capture (R487): the sender, where it passes. -/
def State.payload (s : State) (c : OtaCapture) (header : Nat) : Option Nat :=
  let x := header / 65536
  let sender := header / 2 ^ 55 % 512
  let scheduled := s.ota.windows.any fun e => e.1 == c.window && e.2.2.senders.contains sender
  let right := crc16Bits 48 x 0xFFFF == header % 65536 && header / 2 ^ 21 % 65536 == s.get Reg.STAIR.ARRAY_TAG.word % 65536 &&
    header / 2 ^ 37 % 256 == s.get Reg.OTA.ROUND.number % 256 && header / 2 ^ 45 % 1024 == c.window
  if right && scheduled then some sender else none

/-- A report, at the top (R492). -/
def State.topReport (s : State) (sender receiver phi : Nat) (metric : Int) : State :=
  let kept := s.ota.reports.filter fun e => !(e.1 == receiver && e.2.1 == sender)
  { s with ota := { s.ota with reports := kept ++ [(receiver, sender, phi, metric)] } }

/-- The combined stream of 768 samples through the entry of OTA.BEAM (R278, R484); `streams` holds each path's. -/
def State.otaCombined (s : State) (streams : List (List Cplx)) : List Cplx :=
  let e := s.get Reg.OTA.BEAM.entry
  let w := s.correctVector s.otaCarrier .beamUl [] 0 ((List.range 64).map fun p => s.beamWeight e p)
  ((List.range 64).map fun k => (combinePrb (if s.beamValid e then some w else none) streams 0 k).1).flatten

/-- A capture has ended (R487 to R489). -/
def State.captureDone (s : State) (k header : Nat) (streams : List (List Cplx)) (overloads : Nat) : State :=
  match s.ota.captures.getD k none with
  | none => s
  | some c =>
    let a := c.preambleEnd - 512 * burstTick
    let b := c.preambleEnd + 1024 * burstTick
    if s.arrayNow < b then s
    else
      let s := { s with ota := { s.ota with captures := s.ota.captures.set k none } }
      match s.payload c header with
      | none => s.bump Reg.OTA.FALSE_DETECT.word
      | some sender =>
        let cause := s.discardCause c a b overloads
        if cause != 0 then (s.put Reg.OTA.STATUS.last_discard cause).bump Reg.OTA.DISCARD.word
        else
          let y := (s.otaCombined streams).toArray
          let m := sumC ((List.range 768).map fun i => (burstSample i).conj.mul (y.getD i Cplx.zero))
          let phi := phaseOf m
          let here := s.landing
          let s := s.bump Reg.OTA.CAPTURES.word
          let s := { s with ota := { s.ota with accepted := s.ota.accepted ++ [sender] } }
          if s.isTop then s.topReport sender here phi c.metric
          else s.sendUp (.ota (.report (s.get Reg.OTA.ROUND.number % 256) c.window sender here phi c.metric))

/-- OTA_CAPTURE_DONE (R489). -/
def execOtaCaptureDone (t : Nat) (k : Fin 2) (header : BitVec 64) (streams : List (List Cplx)) (overloads : Nat) (s : State) :
    Host.Outcome State Fault Refusal :=
  finish ((s.atTime t).captureDone k.val header.toNat streams overloads)

/-! ### The top (R490 to R493) -/

/-- REPORT (R492): kept at the top for the round in progress, elsewhere forwarded. -/
def execReport (t : Nat) (round window sender receiver phi : Nat) (metric : Int) (s : State) : Host.Outcome State Fault Refusal :=
  let s := s.atTime t
  finish (if !s.isTop then s.sendUp (.ota (.report round window sender receiver phi metric))
    else if s.ota.active && round % 256 == s.get Reg.OTA.ROUND.number % 256 then s.topReport sender receiver phi metric
    else s)

/-- MISSED (R490): kept at the top for the round in progress, elsewhere forwarded. -/
def execMissed (t : Nat) (round window receiver sender : Nat) (s : State) : Host.Outcome State Fault Refusal :=
  let s := s.atTime t
  finish (if !s.isTop then s.sendUp (.ota (.missed round window receiver sender))
    else if s.ota.active && round % 256 == s.get Reg.OTA.ROUND.number % 256 then s.topMissed receiver sender
    else s)

/-- A list cut into pieces of `n`; `k` bounds them. -/
def pieces {α : Type} (n : Nat) : Nat → List α → List (List α)
  | 0, _ => []
  | _, [] => []
  | k + 1, l => l.take n :: pieces n k (l.drop n)

/-- The RETRY windows: senders that a landing misses and received in the last completed round, in ascending order (R490). -/
def State.retryWindows (s : State) : List OtaWindow :=
  let again := fun (l : Nat) => s.ota.missed.any fun e => e.2 == l && s.ota.lastPairs.contains e
  let senders := if s.ota.completed then (List.range s.landingCount).filter again else []
  (pieces s.otaReuse 8 senders).map fun l => { kind := 2, senders := l }

/-- The first pattern period whose window begins at or after an array time; `k` bounds the search. -/
def State.periodFrom (s : State) (a : Nat) : Nat → Nat → Nat
  | 0, p => p
  | k + 1, p => match s.windowAt p with
    | some w => if a ≤ w.1 then p else s.periodFrom a k (p + 1)
    | none => p

/-- OTA_RETRY_SCHEDULE (R491): after the last BURST window the top sends the schedule of the RETRY windows. -/
def State.retrySchedule (s : State) : State :=
  let burst := s.ota.windows.filter fun e => e.2.2.kind == 1
  let overN := match burst.getLast? with
    | some e => (match s.windowAt e.2.1 with
      | some w => decide (w.2 ≤ s.arrayNow)
      | none => true)
    | none => false
  if !s.isTop || !s.ota.active || s.ota.retryKnown || s.get Reg.OTA.STATUS.state != 2 || !overN then s
  else
    let windows := s.retryWindows
    let first := 8 + burst.length
    let round := s.get Reg.OTA.ROUND.number % 256
    let a := s.arrayNow + ticksOfUs 500
    let p := s.periodFrom a 4 (s.arrayNow / s.otaPeriod)
    (s.sendDown (.ota (.schedule round first (p % 2 ^ 32) windows))).scheduleTaken round first p windows

/-- OTA_RETRY_SCHEDULE (R491). -/
def execOtaRetrySchedule (t : Nat) (s : State) : Host.Outcome State Fault Refusal := finish ((s.atTime t).retrySchedule)

/-- Pairs of landings with an accepted report in both directions (R492). -/
def State.otaPairs (s : State) : List (Nat × Nat) :=
  (s.ota.reports.filter fun e => s.ota.reports.any fun y => y.1 == e.2.1 && y.2.1 == e.1).map fun e => (e.1, e.2.1)

/-- Landings joined to those of a list by a pair, `k` times over: the landings of the spanning tree (R492). -/
def reachedFrom (pairs : List (Nat × Nat)) : Nat → List Nat → List Nat
  | 0, l => l
  | k + 1, l => reachedFrom pairs k (l ++ ((pairs.filter fun e => l.contains e.1 && !l.contains e.2).map fun e => e.2).eraseDups)

/-! ### The solution (R473, R493 to R495) -/

/-- The corrections derived for a path with an array phase (R473): TX_CORR and RX_CORR. -/
def State.derived (s : State) (total p : Nat) : Word × Word :=
  (corrRot (corrMul (s.ota.newTau.getD p unitCorr) (s.word (Reg.OTA.STATIC_TX.word p).addr)) (65536 - total % 65536),
   corrMul (s.ota.newRho.getD p unitCorr) (s.word (Reg.OTA.STATIC_RX.word p).addr))

/-- The place of the area of R495 in its allocation: the stair allocation, which nothing else of the model uses (DESIGN CHOICE, log entry 34). -/
def stagedPlace : Nat := 0

/-- STAGE: the derived corrections are written to the area, and staged sets (R495). -/
def State.stageArea (s : State) (total : Nat) : State :=
  let words := (List.range 64).map (fun p => (s.derived total p).1) ++ (List.range 64).map fun p => (s.derived total p).2
  let s := s.allocWrite kindStair stagedPlace (words.foldl (fun l w => l ++ leBytes 4 w.toNat) [])
  let s := { s with ota := { s.ota with newTotal := total } }
  (s.otaEnd 0).put Reg.OTA.STATUS.staged 1

/-- AUTO: the derived corrections are this landing's part of the internal array-wide transaction (R494). -/
def State.stageAuto (s : State) (total : Nat) : State :=
  let regs := (List.range 64).map (fun p => Effect.reg (Reg.BEAM.TX_CORR.word p).addr (s.derived total p).1) ++
    (List.range 64).map fun p => Effect.reg (Reg.BEAM.RX_CORR.word p).addr (s.derived total p).2
  (s.put Reg.OTA.STATUS.state 5).stagePart 28 (regs ++ [Effect.ota total])

/-- A landing takes a SOLUTION record (R493 to R495). -/
def State.solutionTaken (s : State) (entries : List (Nat × Nat × Bool)) : State :=
  if !s.ota.active then s.stagePart 28 []
  else
    let own := entries.find? fun e => e.1 == s.landing
    let psi := match own with
      | some e => if e.2.2 then none else some e.2.1
      | none => none
    let psi := if s.ota.staleRound then none else psi
    let total := (s.get Reg.OTA.PSI.total + psi.getD 0) % 65536
    let s := { s with ota := { s.ota with reached := psi.isSome } }
    let s := if psi.isSome then s.put Reg.OTA.STATUS.unreached 0 else (s.put Reg.OTA.STATUS.unreached 1).notice .event
    if s.get Reg.OTA.CTL.mode = 1 then s.stageAuto total
    else if s.get Reg.OTA.CTL.mode = 2 then (s.stageArea total).stagePart 28 []
    else (s.otaEnd 0).stagePart 28 []

/-- SOLUTION (R494): forwarded to all, and taken. -/
def execSolution (t : Nat) (round : Nat) (entries : List (Nat × Nat × Bool)) (s : State) : Host.Outcome State Fault Refusal :=
  let s := (s.atTime t).sendDown (.ota (.solution round entries))
  finish (if s.ota.active && round % 256 != s.get Reg.OTA.ROUND.number % 256 then s else s.solutionTaken entries)

/-- The top has the solution (R492, R493): it goes down, and in AUTO the transaction that commits it is opened (R494). -/
def State.solved (s : State) (psi : List (Nat × Nat)) (resid : Nat) : State :=
  if !s.isTop || !s.ota.active || s.get Reg.OTA.STATUS.state != 4 then s
  else
    let pairs := s.otaPairs
    let tree := reachedFrom pairs s.landingCount [s.landing]
    let entries := (List.range s.landingCount).map fun k =>
      if tree.contains k then (k, if k = s.landing then 0 else (assoc? psi k).getD 0 % 65536, false) else (k, 0, true)
    let round := s.get Reg.OTA.ROUND.number % 256
    let a := planningFrom (s.arrayNow + ticksOfMs 2)
    let got := s.ota.reports.map fun e => (e.1, e.2.1)
    let s : State := { s with ota := { s.ota with lastPairs := got, completed := true } }
    let s := (s.put Reg.OTA.PSI.resid resid).sendDown (.ota (.solution round entries))
    let s := if s.get Reg.OTA.CTL.mode = 1 then s.topInternal 28 s.otaCarrier a else s
    s.solutionTaken entries

/-- OTA_SOLUTION_DONE (R492). -/
def execOtaSolutionDone (t : Nat) (psi : List (Nat × Nat)) (resid : Nat) (s : State) : Host.Outcome State Fault Refusal :=
  finish ((s.atTime t).solved psi resid)

/-- STALE (R497): remembered at the top, elsewhere forwarded. -/
def execStale (t : Nat) (landing : Nat) (s : State) : Host.Outcome State Fault Refusal :=
  let s := s.atTime t
  let at0 := s.now
  finish (if s.isTop then { s with ota := { s.ota with staleAt := some at0 } } else s.sendUp (.ota (.stale landing)))

end Sys2Proof.Machine
end

