-- ==== Sys2Proof/Machine/Recovery.lean ====
section
/-!
DEFINITION. Unit faults and their recovery (R536, R537, R540 to R545, R741): halls, path pipelines, beam engine, atrium controller, banks
of shared memory, corridor hops. A recovery runs from its fault to REPLAY_DONE; meanwhile the outputs of the work it holds do not reach
their gates.
-/

namespace Sys2Proof.Machine

open Sys2Proof

/-! ### The counts of a recovery -/

/-- Bit c set for each carrier that is active. -/
def State.activeMask (s : State) : Nat := sumNat (s.activeCarriers.map fun c => 2 ^ c)

/-- Symbols missed, and degraded, so far on the carriers of a mask. -/
def State.missedOf (s : State) (mask : Nat) : Nat :=
  sumNat (((List.range 8).filter mask.testBit).map fun c => s.get (Reg.RECOVERY.MISSED_SYM.word c))
def State.degradedOf (s : State) (mask : Nat) : Nat :=
  sumNat (((List.range 8).filter mask.testBit).map fun c => s.get (Reg.RECOVERY.DEGRADED_SYM.word c))

/-- A recovery that begins now. -/
def State.newRecov (s : State) (cls unit inst action spare mask : Nat) : Recov :=
  { cls := cls, unit := unit, inst := inst, action := action, spare := spare, detail := 0, since := s.arrayNow, at_ := s.now, mask := mask,
    path := none, missed := s.missedOf mask, degraded := s.degradedOf mask, degrades := false }

/-- The recovery in progress of a class on an instance. -/
def State.recovOf (s : State) (cls inst : Nat) : Option Recov := s.recov.running.find? fun r => r.cls == cls && r.inst == inst

/-- A recovery begins: what it holds back, `State.holdersAt` says (step 1 of the timeline under R534). -/
def State.beginRecov (s : State) (r : Recov) : State := { s with recov := { s.recov with running := s.recov.running ++ [r] } }

/-- A recovery is over: what no other recovery holds reaches its gate. -/
def State.endRecov (s : State) (r : Recov) : State :=
  { s with recov := { s.recov with running := s.recov.running.filter fun x => !(x.cls == r.cls && x.inst == r.inst) } }

/-- A recovery that another fault of the same work interrupts goes on under new particulars, and its times add (R535). -/
def State.restartRecov (s : State) (r : Recov) : State :=
  match s.recovOf r.cls r.inst with
  | some x => (s.endRecov x).beginRecov { r with since := x.since, at_ := x.at_, mask := x.mask ||| r.mask, missed := x.missed, degraded := x.degraded }
  | none => s.beginRecov r

/-- A recovery that cannot be completed ends without a record of its own. -/
def State.dropRecov (s : State) (cls inst : Nat) : State :=
  match s.recovOf cls inst with
  | some x => s.endRecov x
  | none => s

/-- The spares that are free, a spare whose recovery has not completed counted as free until it has (step 5 of the timeline). -/
def State.showSpares (s : State) : State :=
  let free := fun (cls : Nat) (x : Spare) => !x.retired && match x.serves with
    | some n => (s.recovOf cls n).isSome
    | none => true
  let bankFree := fun (x : Spare) => free 5 x || free 6 x
  let alcove := fun (x : Alcove) => free 1 { serves := x.serves, retired := x.retired }
  let s := s.put Reg.RECOVERY.STATUS.alcoves_free (countIf alcove s.alcoves)
  let s := s.put Reg.RECOVERY.STATUS.pipes_free (countIf (free 2) s.recov.pipes)
  s.put Reg.RECOVERY.STATUS.banks_free (countIf bankFree s.recov.banks)

/-- REPLAY_DONE: the spare counts, the longest recovery, the record with its final counts, its notices (R545). Of recoveries that overlap, each
is recorded as it completes: a later fault can stand before an earlier one (R55, R544; DEDUCED, log entry 80). The flits that a hall's
replay sends again are discarded and counted (R354). -/
def State.replayDone (s : State) (cls inst : Nat) : State :=
  match s.recovOf cls inst with
  | none => s
  | some r =>
    let s := (s.endRecov r).showSpares
    let s := s.when (cls == 1) fun s => s.addTo (Reg.HALL.SUPPRESSED.word inst) (s.hall inst).sent.length
    let tenths := min 65535 ((s.now - r.at_) * 10000 / 3932160)
    let s := s.put Reg.RECOVERY.REPLAY_MAX.tenths (max tenths (s.get Reg.RECOVERY.REPLAY_MAX.tenths))
    let s := s.record { kind := .fault, cls := r.cls, unit := r.unit, inst := r.inst, action := r.action, spare := r.spare,
                        missed := s.missedOf r.mask - r.missed, degraded := s.degradedOf r.mask - r.degraded, detail := r.detail,
                        tenths := tenths, carriers := r.mask, since := some r.since }
    s.when r.degrades fun s => s.notice .degradation

/-- REPLAY_DONE (R545). -/
def execReplayDone (t : Nat) (cls inst : Nat) (s : State) : Host.Outcome State Fault Refusal := finish ((s.atTime t).replayDone cls inst)

/-! ### Halls (R355, R540, R741) -/

/-- Change an alcove. -/
def State.modAlcove (s : State) (k : Nat) (f : Alcove → Alcove) : State := { s with alcoves := s.alcoves.modify k f }

/-- A tile takes a hall's number. -/
def State.tileServes (s : State) (h tile : Nat) : State :=
  let s := s.modHall h fun x => { x with tile := some tile }
  if 136 ≤ tile then s.modAlcove (tile - 136) fun a => { a with serves := some h } else s

/-- The hall that loses its tile to a failed one: preemptible, of a priority below, the lowest first. -/
def State.victim (s : State) (h : Nat) : Option Nat :=
  let l := (List.range 136).filter fun v =>
    s.hallPreemptible v && decide (s.hallPrio h < s.hallPrio v) && (s.hall v).tile.isSome
  l.foldl (fun best v => match best with
    | some b => if s.hallPrio b ≤ s.hallPrio v then some v else best
    | none => some v) none

/-- The work of a hall whose tile has failed finds another tile, or is given up. -/
def State.rehouse (s : State) (h mask : Nat) : State :=
  let go := fun (s : State) (tile : Nat) =>
    (s.tileServes h tile).restartRecov { s.newRecov 1 unitHall h 1 tile mask with detail := (s.hall h).check.pc }
  match s.alcoves.findIdx? fun a => !a.retired && a.serves.isNone with
  | some k => go s (136 + k)
  | none =>
    match (if s.faultPreempt then s.victim h else none) with
    | some v =>
      let tile := ((s.hall v).tile).getD v
      let s := (s.dropRecov 1 v).modHall v fun x => { x with evicted := true, tile := none }
      go (s.record { kind := .degradation, unit := unitHall, inst := v, action := 4 }) tile
    | none =>
      let s := (s.dropRecov 1 h).modHall h fun x => { x with wedged := true, tile := none }
      let s := s.showSpares.record { kind := .degradation, unit := unitHall, inst := h, action := 5 }
      s.wedge .halls { kind := .wedged, cls := 1, unit := unitHall, inst := h }

/-- HALL_FAULT: the tile is retired until full reset; an idle alcove's fault is recorded at once. -/
def State.hallFault (s : State) (tile mask : Nat) : State :=
  if 136 ≤ tile then
    let a := s.alcoves.getD (tile - 136) { serves := none, retired := true }
    let s' := s.modAlcove (tile - 136) fun _ => { serves := none, retired := true }
    if a.retired then s
    else match a.serves with
      | some h => s'.rehouse h mask
      | none => s'.showSpares.record { kind := .fault, cls := 1, unit := unitHall, inst := tile, action := 3 }
  else match (List.range 136).find? fun h => (s.hall h).tile == some tile with
    | some h => s.rehouse h mask
    | none => s

/-- HALL_FAULT (R536 class 0x01). -/
def execHallFault (t : Nat) (tile : Fin 144) (carriers : Nat) (s : State) : Host.Outcome State Fault Refusal :=
  finish ((s.atTime t).hallFault tile.val (carriers % 256))

/-! ### Path pipelines (R21, R541) -/

/-- Show the path that spare pipeline `k` serves. -/
def State.showPipe (s : State) (k : Nat) : State :=
  let x := (s.recov.pipes.getD k { serves := none, retired := true }).serves
  s.put ⟨Reg.RECOVERY.PIPE_MAP.word.addr, 8 * k, 8⟩ (x.getD 0xFF)

/-- A spare pipeline serves a path, or is retired. -/
def State.setPipe (s : State) (k : Nat) (x : Spare) : State :=
  let s : State := { s with recov := { s.recov with pipes := s.recov.pipes.set k x } }
  s.showPipe k

/-- PIPE_FAULT: a spare takes the path, or the path leaves service. -/
def State.pipeFault (s : State) (p : Nat) : State :=
  if s.recov.pathsOut.contains p then s
  else
    let s := match s.recov.pipes.findIdx? fun x => x.serves == some p with
      | some k => s.setPipe k { serves := none, retired := true }
      | none => s
    match s.recov.pipes.findIdx? fun x => !x.retired && x.serves.isNone with
    | some k =>
      let s := s.setPipe k { serves := some p, retired := false }
      s.restartRecov { s.newRecov 2 unitPath p 1 k s.activeMask with path := some p }
    | none =>
      let s := (s.dropRecov 2 p).showSpares
      let s : State := { s with recov := { s.recov with pathsOut := s.recov.pathsOut ++ [p] } }
      (s.internalTxn [.pathOut p]).record { kind := .degradation, unit := unitPath, inst := p }

/-- PIPE_FAULT (R536 class 0x02). -/
def execPipeFault (t : Nat) (p : Fin 64) (s : State) : Host.Outcome State Fault Refusal := finish ((s.atTime t).pipeFault p.val)

/-! ### Replay in place (R536 classes 0x03, 0x04) -/

/-- A unit replays in place; a second fault in the same work wedges it. -/
def State.inPlace (s : State) (f : Function) (cls unit mask : Nat) : State :=
  if s.isWedged f then s
  else match s.recovOf cls 0 with
    | some r => (s.endRecov r).wedge f { kind := .wedged, cls := cls, unit := unit }
    | none => s.beginRecov (s.newRecov cls unit 0 2 0xFFFF mask)

/-- BEAM_FAULT (R536 class 0x03). -/
def execBeamFault (t : Nat) (s : State) : Host.Outcome State Fault Refusal :=
  let s := s.atTime t
  finish (s.inPlace .beam 3 unitBeam s.activeMask)

/-- ATRIUM_FAULT (R536 class 0x04). -/
def execAtriumFault (t : Nat) (carriers : Nat) (s : State) : Host.Outcome State Fault Refusal :=
  finish ((s.atTime t).inPlace .atrium 4 unitAtrium (carriers % 256))

/-! ### Banks of shared memory (R537, R542) -/

/-- Show the bank that spare `k` serves. -/
def State.showBank (s : State) (k : Nat) : State :=
  let x := (s.recov.banks.getD k { serves := none, retired := true }).serves
  s.put ⟨(Reg.RECOVERY.BANK_MAP.word (k / 2)).addr, 16 * (k % 2), 16⟩ (x.getD 0xFFFF)

/-- A spare bank serves a bank's number, or is retired. -/
def State.setBank (s : State) (k : Nat) (x : Spare) : State :=
  let s : State := { s with recov := { s.recov with banks := s.recov.banks.set k x } }
  s.showBank k

/-- The next free spare takes a bank's number (R74); a spare that served it before is retired. -/
def State.spareBank (s : State) (b : Nat) : Option Nat × State :=
  match s.recov.banks.findIdx? fun x => !x.retired && x.serves.isNone with
  | some k =>
    let s := match s.recov.banks.findIdx? fun x => x.serves == some b with
      | some j => s.setBank j { serves := none, retired := true }
      | none => s
    (some k, s.setBank k { serves := some b, retired := false })
  | none => (none, s)

/-- The memory-plan record that holds a bank. -/
def State.bankRec (s : State) (b : Nat) : Option MemRec := s.memPlan.find? fun r => decide (r.first ≤ b) && decide (b < r.first + r.count)

/-- The kind of the allocation that holds a bank, 0 for none. -/
def State.bankKind (s : State) (b : Nat) : Nat := match s.bankRec b with
  | some r => r.kind
  | none => 0

/-- Data at `n` bytes from a window offset on is lost, handled by the kind of its allocation (R537). Replay records have a second copy,
and what the part computes itself is computed again; the spec does not say what becomes of customer data, which takes free bytes (DEDUCED, log
entry 35). -/
def State.loseBytes (s : State) (off n : Nat) (held : List (Nat × Nat × Nat)) : State :=
  let k := s.bankKind (off / bankBytes)
  if k = kindBeam then
    match s.placeIn kindBeam off with
    | some o =>
      let es := (List.range 32768).filter fun e => decide (o / 256 ≤ e) && decide (e ≤ (o + n - 1) / 256)
      { s with recov := { s.recov with invalid := s.recov.invalid ++ es } }
    | none => s
  else if k = kindWeights then s.forEach held fun e s => s.loseWeights e.1 (e.2.1 == 1) e.2.2
  else if k = kindDpd then
    let o := (s.placeIn kindDpd off).getD 0
    let ps := (List.range 64).filter fun p => decide (dpdPlace p 0 < o + n) && decide (o < dpdPlace (p + 1) 0)
    { s with recov := { s.recov with clears := s.recov.clears ++ ps } }
  else if k = kindFronthaul then s.forEach held fun e s =>
    if e.1 < 8 then s.loseData e.1 e.2.1 e.2.2 else s.loseJournal (e.1 - 8) e.2.1 e.2.2
  else if k = kindCustomer then
    let s' := s.memWrite off (s.freeBytes n)
    { s' with free := s'.free + n }
  else s

/-- Do the needs of the running carriers fit every allocation of R542? -/
def State.needsFit (s : State) : Bool :=
  (List.range 5).all fun i =>
    decide (sumNat (s.runningCarriers.map fun c => s.needOf c i) ≤ countIf (fun b => !s.bankLost b) (s.banksOf (needKinds.getD i 0)))

/-- Carriers stop in the policy's order until the needs fit; each stop is recorded (R542). -/
def State.stopUntilFit (s : State) : State :=
  s.forEach s.stopOrder fun c s =>
    if s.needsFit || !s.running c then s
    else (s.decideStop c s.arrayNow none).record { kind := .degradation, unit := unitOfdm, inst := c, action := 4, carriers := 2 ^ c }

/-- A bank is lost and no spare is free (R542). -/
def State.loseBank (s : State) (b : Nat) (held : List (Nat × Nat × Nat)) : State :=
  let s := s.loseBytes (b * bankBytes) bankBytes held
  let s : State := { s with recov := { s.recov with lost := s.recov.lost ++ [b] }, mem := Memory.clear s.mem (b * bankBytes) bankBytes }
  let s := s.record { kind := .degradation, unit := unitMemory, inst := b }
  if !needKinds.contains (s.bankKind b) then s
  else
    let s := s.stopUntilFit
    if s.needsFit then s else s.wedge .memory { kind := .wedged, cls := 6, unit := unitMemory, inst := b }

/-- The word of R544's detail field: the first entry that a failed word makes invalid, or the word's window address. -/
def State.lossDetail (s : State) (off : Nat) : Nat :=
  match (if s.bankKind (off / bankBytes) = kindBeam then s.placeIn kindBeam off else none) with
  | some o => o / 256
  | none => windowBase + off

/-- BANK_UNCORRECTABLE: a spare takes the bank's number, and the failed word is handled by kind. -/
def State.wordLost (s : State) (b word mask : Nat) (held : List (Nat × Nat × Nat)) : State :=
  if s.bankLost b then s
  else
    let off := b * bankBytes + word % bankBytes / 4 * 4
    match s.spareBank b with
    | (some k, s) =>
      let r := { s.newRecov 6 unitMemory b 1 k mask with detail := s.lossDetail off, degrades := s.bankKind b == kindDpd }
      ((s.dropRecov 5 b).restartRecov r).loseBytes off 4 held
    | (none, s) => (s.dropRecov 6 b).loseBank b held

/-- BANK_UNCORRECTABLE (R537, R542). -/
def execBankUncorrectable (t : Nat) (bank : Fin 768) (word carriers : Nat) (held : List (Nat × Nat × Nat)) (s : State) :
    Host.Outcome State Fault Refusal :=
  finish ((s.atTime t).wordLost bank.val word (carriers % 256) held)

/-- SCRUB_PASS: at the policy's threshold a spare takes the copy of the bank (R536 class 0x05). -/
def State.scrubbed (s : State) (b corrected : Nat) (bad : Option Nat) : State :=
  let marked := match s.bankRec b with
    | some r => bit r.flags 1
    | none => false
  if !marked || s.bankLost b then s
  else match bad with
    | some w => s.wordLost b w 0 []
    | none =>
      let n := s.faultMigrate
      if n = 0 || corrected < n || (s.recovOf 5 b).isSome then s
      else match s.spareBank b with
        | (some k, s) => s.beginRecov (s.newRecov 5 unitMemory b 1 k 0)
        | (none, s) => s

/-- SCRUB_PASS (R536). -/
def execScrubPass (t : Nat) (bank : Fin 768) (corrected : Nat) (bad : Option Nat) (s : State) : Host.Outcome State Fault Refusal :=
  finish ((s.atTime t).scrubbed bank.val corrected bad)

/-- CORRIDOR_CRC_ERROR: the hop is retried and counted; a persistent fault gives the corridors up (R536 class 0x0F). -/
def execCorridorCrcError (t : Nat) (h : Fin 136) (persistent : Bool) (s : State) : Host.Outcome State Fault Refusal :=
  let s := s.atTime t
  let s : State := { s with recov := { s.recov with hops := s.recov.hops + 1 } }
  finish (if persistent then s.wedge .corridors { kind := .wedged, cls := 0x0F, unit := unitCorridor, inst := h.val } else s)

end Sys2Proof.Machine
end

