-- ==== Sys2Proof/Machine/Clock.lean ====
section
/-!
DEFINITION. Clock islands and the reference (R594 to R623): REFCLK, SYNC_IN, IEEE 1588 messages, loss of lock and restart of the islands,
the converter clock and its standby, the inter-bank phase, forced dither.
-/

namespace Sys2Proof.Machine

open Sys2Proof

/-- The islands of R594. -/
def islandRef : Nat := 0
def islandCnv : Nat := 3
def islandFhl : Nat := 4
def islandStl : Nat := 5
def islandTim : Nat := 6
def islandHkp : Nat := 7

/-- An island's clock runs and its synthesiser declares lock, or neither. -/
def State.setIsland (s : State) (n : Nat) (on : Bool) : State :=
  (s.putBit Reg.CLOCK.ISLAND_STATUS.running n on).putBit Reg.CLOCK.ISLAND_STATUS.locked n on

/-! ### REFCLK (R595, R605 to R607) -/

/-- The rates of R595 in Hz, by code. -/
def refRates : List Nat := [122880000, 245760000, 491520000]

/-- The rate code of a measured REFCLK, 3 for none. -/
def refRate (hz : Nat) : Nat := (refRates.findIdx? fun r => decide (95 * r ≤ 100 * hz) && decide (100 * hz ≤ 105 * r)).getD 3

/-- REFCLK is lost: the loop opens and IREF continues (R605). -/
def State.refLost (s : State) : State :=
  if !s.flag Reg.CLOCK.REF_STATUS.refclk_ok then s
  else
    let s : State := { s with clock := { s.clock with lostAt := some s.now } }
    let s := (s.put Reg.CLOCK.REF_STATUS.refclk_ok 0).put Reg.CLOCK.REF_STATUS.holdover 1
    let s := (s.putBit Reg.CLOCK.ISLAND_STATUS.locked islandRef false).bump (Reg.CLOCK.ISLAND_CNT.losses islandRef)
    s.record { kind := .event, unit := unitClock, inst := islandRef }

/-- REFCLK_LOSS (R605). -/
def execRefclkLoss (t : Nat) (s : State) : Host.Outcome State Fault Refusal := finish (s.atTime t).refLost

/-- REF_HOLDOVER_LIMIT: array-joint carriers stop until REFCLK returns (R606). -/
def State.refLimit (s : State) : State :=
  let k := s.get Reg.CLOCK.REF_CTL.holdover_max
  match s.clock.lostAt with
  | none => s
  | some a =>
    if k = 0 || s.flag Reg.CLOCK.REF_STATUS.refclk_ok || s.flag Reg.CLOCK.REF_STATUS.ref_stop || s.now < a + ticksOfMs (100 * k) then s
    else
      let s := s.forEach (s.runningCarriers.filter fun c => (s.form c).joint) fun c s => s.decideStop c s.arrayNow (some (s.form c))
      (s.put Reg.CLOCK.REF_STATUS.ref_stop 1).record { kind := .degradation, unit := unitClock, inst := islandRef }

/-- REF_HOLDOVER_LIMIT (R606). -/
def execRefHoldoverLimit (t : Nat) (s : State) : Host.Outcome State Fault Refusal := finish (s.atTime t).refLimit

/-- REFCLK_ACCEPT: the first REFCLK gives the rate; one that returns is accepted after 10 ms at the rate found before (R595, R607). -/
def State.refAccept (s : State) (hz us : Nat) : State :=
  let rate := s.get Reg.CLOCK.REF_STATUS.rate
  let r := refRate hz
  let first := rate = 3 && r != 3
  let back := rate != 3 && r = rate && !s.flag Reg.CLOCK.REF_STATUS.refclk_ok && 10000 ≤ us
  if first || back then
    let s := (s.put Reg.CLOCK.REF_STATUS.rate r).put Reg.CLOCK.REF_STATUS.refclk_ok 1
    (s.put Reg.CLOCK.REF_STATUS.ref_stop 0).setIsland islandRef true
  else s

/-- REFCLK_ACCEPT (R607). -/
def execRefclkAccept (t : Nat) (hz us : Nat) (s : State) : Host.Outcome State Fault Refusal := finish ((s.atTime t).refAccept hz us)

/-- REF_PULL_END (R607). -/
def execRefPullEnd (t : Nat) (s : State) : Host.Outcome State Fault Refusal :=
  let s := s.atTime t
  finish (if s.flag Reg.CLOCK.REF_STATUS.refclk_ok then
      { s.put Reg.CLOCK.REF_STATUS.holdover 0 with clock := { s.clock with lostAt := none } }
    else s)

/-- The time in holdover in ms, as REF_STATUS shows it. -/
def State.holdoverMs (s : State) : Nat := match s.clock.lostAt with
  | some a => min 65535 ((s.now - a) / ticksOfMs 1)
  | none => 0

/-! ### The source (R410 to R412, R598) -/

/-- SOURCE_LOSS: no Announce within the receipt timeout on the port that the BMCA has selected (R410, R598). -/
def execSourceLoss (t : Nat) (s : State) : Host.Outcome State Fault Refusal :=
  let s := s.atTime t
  let s : State := match s.ptpPort with
    | some n => { s with fh := { s.fh with masters := s.fh.masters.set n none } }
    | none => s
  finish s.chooseSource

/-- A PTP message on a port in UP, in the domain (R410 to R412): an Announce enters the BMCA; a Sync and a Delay_Resp of the selected
master give its offset, which disciplines array time where PTP is the source in force. -/
def State.ptpArrived (s : State) (n domain : Nat) (body : PtpBody) : State :=
  if !s.fhUpOn n || s.get Reg.FRONTHAUL.PTP_CTL.mode = 0 || domain != s.get Reg.FRONTHAUL.PTP_CTL.domain then s
  else
    let x := s.fh.masters.getD n none
    let put := fun (s : State) (m : PtpMaster) => ({ s with fh := { s.fh with masters := s.fh.masters.set n (some m) } } : State)
    match body with
    | .announce cls acc var prio identity steps =>
      (put s { quality := [cls, acc, var, prio, identity, steps], at_ := s.now, sync := match x with | some m => m.sync | none => none }).chooseSource
    | .sync t1 t2 => match x with
      | some m => put s { m with sync := some (t1, t2) }
      | none => s
    | .delayResp t3 t4 => match x with
      | some m => match m.sync with
        | some (t1, t2) =>
          let offset := ((t2 - t1) - (t4 - t3)).fdiv 2 + s.getS (Reg.FRONTHAUL.PORT_ASYM.word n)
          if s.get Reg.CLOCK.REF_STATUS.source = srcPtp && s.ptpPort == some n && s.ptpSlave && !s.hasParent then
            s.disciplined offset 100000
          else s
        | none => s
      | none => s

/-- PTP_MESSAGE (R410). -/
def execPtpMessage (t : Nat) (n : Fin 8) (domain : Nat) (body : PtpBody) (s : State) : Host.Outcome State Fault Refusal :=
  finish ((s.atTime t).ptpArrived n.val domain body)

/-! ### SYNC_IN (R603) -/

/-- Ticks between the boundaries that SYNC_IN marks. -/
def syncPeriod (mode : Nat) : Nat := if mode = 1 then ticksPerSecond else 20 * planningSlot

/-- The offset of an instant of array time from the nearest boundary, in ticks. -/
def syncOffset (period a : Nat) : Int := if 2 * (a % period) < period then ((a % period : Nat) : Int) else ((a % period : Nat) : Int) - period

/-- SYNC_IN_EDGE: measured; under FREE an align that waits steps array time so that the edge falls on its boundary (R602, R603). -/
def State.syncEdge (s : State) : State :=
  let mode := s.get Reg.CLOCK.SYNC_CTL.mode
  if mode = 0 || !s.clock.started then s
  else
    let o := syncOffset (syncPeriod mode) s.arrayNow
    let s := s.putS Reg.CLOCK.SYNC_OFFSET.word o
    if s.clock.alignArmed && s.get Reg.CLOCK.TIME_STATUS.state = timeFree then
      let s : State := { s with clock := { s.clock with alignArmed := false } }
      s.requestStep (-o)
    else s

/-- SYNC_IN_EDGE (R603). -/
def execSyncInEdge (t : Nat) (s : State) : Host.Outcome State Fault Refusal := finish (s.atTime t).syncEdge

/-- The next edge is to step array time (R603). -/
def State.alignNext (s : State) : State := { s with clock := { s.clock with alignArmed := true } }

/-- ALIGN (R603). -/
def execAlign (t : Nat) (ch : Channel) (s : State) : Host.Outcome State Fault Refusal :=
  finish (s.hostCmd t ch.val Reg.CLOCK.SYNC_CTL.word.addr fun s => s.alignNext)

/-! ### The converter clock (R618 to R620) -/

/-- The state field of CNV-X (0) or CNV-Y (1), coded as R152, and its instance code in records (R740). -/
def cnvField (u : Nat) : Fld := if u = 0 then Reg.CLOCK.CNV_STATUS.x_state else Reg.CLOCK.CNV_STATUS.y_state
def cnvInst (u : Nat) : Nat := if u = 0 then 0x003 else 0x103

/-- The unit that is active. -/
def State.cnvActive (s : State) : Nat := s.get Reg.CLOCK.CNV_STATUS.active

/-- The standby no longer tracks. -/
def State.cnvUntracked (s : State) : State := (s.put Reg.CLOCK.CNV_STATUS.tracking 0).put Reg.RECOVERY.STATUS.cnv_standby 0

/-- Attempt `k` of a CNV synthesiser loads its dither LFSR with its seed plus `k`, modulo 256 (R611, R613); no register gives that seed
(log 84). -/
def State.cnvSeeded (s : State) (u k : Nat) : State :=
  { s with clock := { s.clock with cnvLfsr := s.clock.cnvLfsr.set u (ditherLoad (Config.cnvSeed u + k)) } }

/-- A CNV synthesiser restarts (R611); its state reads ACQUIRE until it declares lock (DESIGN CHOICE, log 84). -/
def State.cnvRestart (s : State) (u : Nat) : State :=
  let s := s.cnvSeeded u 0
  { s.put (cnvField u) loAcquire with
    clock := { s.clock with cnvAttempts := s.clock.cnvAttempts.set u 0, cnvRestarting := s.clock.cnvRestarting.set u true } }

/-- CNV_HANDOVER: the standby takes the clock, and the lost synthesiser restarts as the standby (R618, R619). -/
def State.cnvHandover (s : State) : State :=
  if !s.flag Reg.CLOCK.CNV_STATUS.tracking || s.clock.cnvStopped then s
  else
    let u := s.cnvActive
    let s := ((s.put Reg.CLOCK.CNV_STATUS.active (1 - u)).cnvUntracked.cnvRestart u).bump (Reg.CLOCK.ISLAND_CNT.losses islandCnv)
    s.record { kind := .fault, cls := 7, unit := unitClock, inst := cnvInst u, action := 1, spare := cnvInst (1 - u), carriers := s.activeMask }

/-- CNV_HANDOVER (R618). -/
def execCnvHandover (t : Nat) (s : State) : Host.Outcome State Fault Refusal := finish (s.atTime t).cnvHandover

/-- The CNV clock stops: its outputs miss their gates until it returns, and both synthesisers restart (R620). Array time that the CNV
clock carries holds its value (R621). -/
def State.cnvStops (s : State) : State :=
  if s.clock.cnvStopped then s
  else
    let u := s.cnvActive
    let mask := s.activeMask
    let s := (s.cnvUntracked.bump (Reg.CLOCK.ISLAND_CNT.losses islandCnv)).setIsland islandCnv false
    let s := (s.cnvRestart 0).cnvRestart 1
    let hold := if s.flag Reg.CLOCK.TIME_STATUS.carried then some s.arrayNow else s.clock.frozen
    let s : State := { s with clock := { s.clock with cnvStopped := true, cnvReturn := false, cnvMask := mask, frozen := hold } }
    s.beginRecov { s.newRecov 7 unitClock (cnvInst u) 0 0xFFFF mask with degrades := false }

/-- CNV_STOP (R620): only while no standby is tracking. -/
def execCnvStop (t : Nat) (s : State) : Host.Outcome State Fault Refusal :=
  let s := s.atTime t
  finish (if s.flag Reg.CLOCK.CNV_STATUS.tracking then s else s.cnvStops)

/-- The recovery that a stopped CNV clock opened. -/
def State.cnvRecov (s : State) : Option Recov := s.recov.running.find? fun r => r.cls == 7

/-- At a planning-slot boundary after a CNV synthesiser has locked, the island runs again; each carrier resumes at its slot boundary, and
once all have, the record is written (R545, R620). -/
def State.cnvResume (s : State) : State :=
  if !s.clock.cnvReturn then s
  else
    let s := (s.setIsland islandCnv true)
    let s : State := { s with clock := { s.clock with cnvStopped := false } }
    match s.cnvRecov with
    | none => { s with clock := { s.clock with cnvReturn := false } }
    | some r =>
      let still := (List.range 8).filter fun c => r.mask.testBit c && s.carActive c && !(s.form c).isSlotBoundary s.arrayNow
      let r' := { r with mask := sumNat (still.map fun c => 2 ^ c) }
      let s := s.endRecov r
      if !still.isEmpty then s.beginRecov r'
      else
        let m := s.clock.cnvMask
        let s : State := { s with clock := { s.clock with cnvReturn := false } }
        let tenths := min 65535 ((s.now - r.at_) * 10000 / 3932160)
        let s := s.put Reg.RECOVERY.REPLAY_MAX.tenths (max tenths (s.get Reg.RECOVERY.REPLAY_MAX.tenths))
        s.record { kind := .fault, cls := 7, unit := unitClock, inst := r.inst, missed := s.missedOf m - r.missed,
                   degraded := s.degradedOf m - r.degraded, tenths := tenths, carriers := m, since := some r.since }

/-- A CNV synthesiser fails its third attempt: no standby remains, or the converter clock is given up (R619, R620). -/
def State.cnvFailed (s : State) (u : Nat) : State :=
  let s := s.put (cnvField u) loFailed
  let s : State := { s with clock := { s.clock with cnvRestarting := s.clock.cnvRestarting.set u false } }
  if !s.clock.cnvStopped then s.record { kind := .degradation, unit := unitClock, inst := cnvInst u }
  else if s.get (cnvField (1 - u)) = loFailed then
    let s := match s.cnvRecov with
      | some r => s.endRecov r
      | none => s
    s.wedge .cnv { kind := .wedged, cls := 7, unit := unitClock, inst := cnvInst u }
  else s

/-- CNV_STANDBY_TRACKING: the comparator's reading. After 100 µs within ±2 ps the standby tracks; a reading beyond 10 ps stands for the
three consecutive ones of the rule, and with neither detector in error both restart (R618; log 84). -/
def State.cnvTracking (s : State) (diff : Int) : State :=
  let s := s.putS Reg.CLOCK.CNV_STATUS.diff (satS 16 diff)
  let s : State := if diff.natAbs ≤ 200 then s else { s with clock := { s.clock with cnvSince := s.now } }
  let locked := s.get (cnvField (1 - s.cnvActive)) = loLocked && !s.clock.cnvStopped
  if !locked then s
  else if diff.natAbs ≤ 200 then
    if s.now < s.clock.cnvSince + ticksOfUs 100 then s else (s.put Reg.CLOCK.CNV_STATUS.tracking 1).put Reg.RECOVERY.STATUS.cnv_standby 1
  else if 1000 < diff.natAbs then s.cnvStops
  else s

/-- CNV_STANDBY_TRACKING (R618). -/
def execCnvStandbyTracking (t : Nat) (diff : Int) (s : State) : Host.Outcome State Fault Refusal := finish ((s.atTime t).cnvTracking diff)

/-! ### Loss of lock and restart of the islands (R608 to R611, R621) -/

/-- An island's synthesiser loses lock and restarts. -/
def State.islandLost (s : State) (n : Nat) : State :=
  let s := (s.setIsland n false).bump (Reg.CLOCK.ISLAND_CNT.losses n)
  { s with clock := { s.clock with attempts := s.clock.attempts.set n 0, restarting := s.clock.restarting.set n true } }

/-- SYNTH_LOCK_LOSS, by island (R621). -/
def State.synthLost (s : State) (n : Nat) : State :=
  let lockedNow := (s.get Reg.CLOCK.ISLAND_STATUS.locked).testBit n
  if n = islandRef then s.refLost
  else if n = 1 || n = 2 then s.loLockLoss (n - 1)
  else if n = islandCnv then (if s.flag Reg.CLOCK.CNV_STATUS.tracking then s.cnvHandover else s.cnvStops)
  else if !lockedNow then s
  else
    let s := s.islandLost n
    if n = islandFhl then s.forEach (List.range 8) fun p s => s.linkFault p 1
    else if n = islandStl then s.forEach (List.range 4) fun p s => s.flightFault p 0xB
    else if n = islandTim then
      let hold := if s.clock.cnvStopped then some s.arrayNow else none
      let s : State := { (s.put Reg.CLOCK.TIME_STATUS.carried 1).disarm .tim with clock := { s.clock with frozen := hold } }
      s.record { kind := .event, unit := unitClock, inst := n }
    else (s.putBit Reg.CLOCK.ISLAND_STATUS.running n true).record { kind := .event, unit := unitClock, inst := n }

/-- SYNTH_LOCK_LOSS (R621). -/
def execSynthLockLoss (t : Nat) (island : Fin 8) (s : State) : Host.Outcome State Fault Refusal := finish ((s.atTime t).synthLost island.val)

/-- Array time that was held runs again, and the landing takes it from its source as at the start of discipline (R621). -/
def State.thaw (s : State) : State :=
  match s.clock.frozen with
  | none => s
  | some a =>
    let s : State := { s with clock := { s.clock with frozen := none, offset := (a : Int) - s.now, held := [] } }
    let src := s.get Reg.CLOCK.REF_STATUS.source
    if src = srcFree then s
    else ({ s.put Reg.CLOCK.TIME_STATUS.state timeAcquiring with clock := { s.clock with good := 0 } } : State).takeHold src

/-- SYNTH_LOCK_DECLARED: a restarting synthesiser has lock (R608, R610, R620, R621). -/
def State.synthLocked (s : State) (n u : Nat) : State :=
  if n = islandCnv then
    if !s.clock.cnvRestarting.getD u false then s
    else
      let s := s.put (cnvField u) loLocked
      let s : State := { s with clock := { s.clock with cnvRestarting := s.clock.cnvRestarting.set u false, cnvSince := s.now } }
      if s.clock.cnvStopped && !s.clock.cnvReturn then
        let s := s.put Reg.CLOCK.CNV_STATUS.active u
        ({ s with clock := { s.clock with cnvReturn := true } } : State).thaw
      else s
  else if !s.clock.restarting.getD n false then s
  else
    let s := s.setIsland n true
    let s : State := { s with clock := { s.clock with restarting := s.clock.restarting.set n false } }
    if n = islandTim then s.thaw.arm .tim (s.now + ticksOfUs 100) else s

/-- SYNTH_LOCK_DECLARED (R608). -/
def execSynthLockDeclared (t : Nat) (island : Fin 8) (unit : Fin 2) (s : State) : Host.Outcome State Fault Refusal :=
  finish ((s.atTime t).synthLocked island.val unit.val)

/-- SYNTH_ATTEMPT_TIMEOUT: 1 ms without lock; the third failure gives the island up, as each island's row of R621 says, and during a wake
the step (R580, R611). -/
def State.synthTimeout (s : State) (n u : Nat) : State :=
  let running := if n = islandCnv then s.clock.cnvRestarting.getD u false else s.clock.restarting.getD n false
  if !running then s
  else
    let k := (if n = islandCnv then s.clock.cnvAttempts.getD u 0 else s.clock.attempts.getD n 0) + 1
    let s := s.bump (Reg.CLOCK.ISLAND_CNT.failed n)
    let s : State := if n = islandCnv then { s with clock := { s.clock with cnvAttempts := s.clock.cnvAttempts.set u k } }
      else { s with clock := { s.clock with attempts := s.clock.attempts.set n k } }
    if k < 3 then (if n = islandCnv then s.cnvSeeded u k else s)
    else if n = islandCnv then
      if s.power == powerWaking then s.wakeFail stepPll n 3 else s.cnvFailed u
    else
      let s : State := { s with clock := { s.clock with restarting := s.clock.restarting.set n false } }
      if s.power == powerWaking then s.wakeFail stepPll n 3
      else if n = islandFhl then s.wedge .fronthaul { kind := .wedged, unit := unitFronthaul }
      else if n = islandStl then s.wedge .stair { kind := .wedged, unit := unitStair }
      else if n = islandHkp then { s with clock := { s.clock with hkpOscillator := true } }
      else s

/-- SYNTH_ATTEMPT_TIMEOUT (R611). -/
def execSynthAttemptTimeout (t : Nat) (island : Fin 8) (unit : Fin 2) (s : State) : Host.Outcome State Fault Refusal :=
  finish ((s.atTime t).synthTimeout island.val unit.val)

/-- At a planning-slot boundary TIM takes array time back (R621). -/
def State.timResume (s : State) : State :=
  if s.due .tim then (s.disarm .tim).put Reg.CLOCK.TIME_STATUS.carried 0 else s

/-! ### The inter-bank phase (R617) and dither (R613) -/

/-- XFEED_MEASURE: Δ, averaged over the last 16 measurements about the newest, while both detectors declare lock at one frequency. -/
def State.xfeedMeasured (s : State) (delta : Int) : State :=
  if !s.loSameFreq || !s.flag (Reg.CLOCK.LO_STATUS.own_lock 0) || !s.flag (Reg.CLOCK.LO_STATUS.own_lock 1) then s
  else
    let near := s.clock.xfeed.map fun x => delta + signed 16 (unsigned 16 (x - delta))
    let l := (delta :: near).take 16
    let s : State := { s with clock := { s.clock with xfeed := l } }
    let s := s.putS Reg.CLOCK.XFEED_MEAS.delta (meanOf l)
    s.putB Reg.CLOCK.XFEED_MEAS.valid (s.loState 0 == loLocked && s.loState 1 == loLocked)

/-- XFEED_MEASURE (R617). -/
def execXfeedMeasure (t : Nat) (delta : Int) (s : State) : Host.Outcome State Fault Refusal := finish ((s.atTime t).xfeedMeasured delta)

/-- Does the island of a DITHER_CTL bit carry traffic (R613)? -/
def State.carriesTraffic (s : State) (i : Nat) : Bool :=
  if i < 2 then (bankPaths i).any s.inService else !s.runningCarriers.isEmpty

/-- DITHER_FORCE_WRITE: a write that sets a bit whose island carries traffic is discarded (R613). -/
def State.ditherWrite (s : State) (v : Word) : State :=
  let old := s.get Reg.CLOCK.DITHER_CTL.force
  let new := getBits v 0 3
  let bad := (List.range 3).any fun i => new.testBit i && !old.testBit i && s.carriesTraffic i
  let s := if bit v.toNat 8 then s.put Reg.CLOCK.DITHER_CTL.refused 0 else s
  if bad then s.put Reg.CLOCK.DITHER_CTL.refused 1
  else (s.put Reg.CLOCK.DITHER_CTL.force new).forEach [0, 1] fun b s => s.showDither b

/-- DITHER_FORCE_WRITE (R613). -/
def execDitherForceWrite (t : Nat) (ch : Channel) (value : Word) (s : State) : Host.Outcome State Fault Refusal :=
  finish (s.hostCmd t ch.val Reg.CLOCK.DITHER_CTL.word.addr fun s => s.ditherWrite value)

/-! ### Islands as a whole -/

/-- Islands stop for a sleep (step 6 of the entries of R573). -/
def State.islandsStop (s : State) (l : List Nat) : State :=
  let s := s.forEach l fun n s => s.setIsland n false
  if l.contains islandCnv then ((s.put (cnvField 0) loOff).put (cnvField 1) loOff).cnvUntracked else s

/-- Islands start at a wake: each has its attempts before it (R611). -/
def State.islandsStart (s : State) (l : List Nat) : State :=
  let s := if l.contains islandCnv then (s.cnvRestart 0).cnvRestart 1 else s
  s.forEach (l.filter fun n => n != islandCnv) fun n s =>
    { s with clock := { s.clock with attempts := s.clock.attempts.set n 0, restarting := s.clock.restarting.set n true } }

/-- Every island runs and is locked, CNV-X active and CNV-Y standing by (R618): the end of a boot or wake. -/
def State.islandsUp (s : State) : State :=
  let s := s.forEach [0, 3, 4, 5, 6, 7] fun n s => s.setIsland n true
  let s : State := { s with clock := { s.clock with restarting := List.replicate 8 false, cnvRestarting := [false, false], cnvSince := s.now } }
  (s.put (cnvField 0) loLocked).put (cnvField 1) loLocked

/-- The pins LOCK_A, LOCK_B, LOCK_CNV: whether each drives density 255/256 (R616). -/
def State.lockPins (s : State) : List Bool :=
  [s.flag (Reg.CLOCK.LO_STATUS.own_lock 0), s.flag (Reg.CLOCK.LO_STATUS.own_lock 1), s.get (cnvField s.cnvActive) == loLocked]

end Sys2Proof.Machine
end

