-- ==== Sys2Proof/Machine/Planner.lean ====
section
/-!
DEFINITION. The energy planner (R548 to R570): the energy account, the prediction, speed monitors and the margin rule, the plan, the
planning-slot boundary, and the PMBus regulator (R689 to R692, R720).
-/

namespace Sys2Proof.Machine

open Sys2Proof

/-! ### The energy policy section (R570) -/

/-- One work item. -/
structure WorkItem where
  carrier : Nat
  kind : Nat
  shedBy : Nat
  prio : Nat
  w : Nat
  b : Nat
  e : Nat
deriving DecidableEq, Repr, Inhabited

/-- The items of the policy in force. -/
def State.workItems (s : State) : List WorkItem :=
  let bs := s.sectionBytes secEnergy
  (List.range (leAt bs 0x12 2)).map fun i =>
    let o := 0x60 + 24 * i
    { carrier := leAt bs (o + 2) 1, kind := leAt bs (o + 3) 1, shedBy := leAt bs (o + 4) 1, prio := leAt bs (o + 5) 1,
      w := leAt bs (o + 8) 4, b := leAt bs (o + 12) 4, e := leAt bs (o + 16) 4 }

/-- P_s0 in mW, and flag [0]. -/
def State.staticPower (s : State) : Nat := leAt (s.sectionBytes secEnergy) 0x10 2
def State.below072Allowed (s : State) : Bool := bit (leAt (s.sectionBytes secEnergy) 0x07 1) 0

/-- Does an active carrier have a downlink, or an uplink, symbol in planning slot `k`? -/
def State.symbolsIn (s : State) (dl : Bool) (c k : Nat) : Bool :=
  let r := s.form c
  s.carActive c && (List.range r.symsPerHalf).any fun i =>
    if dl then s.dlSym c (k * r.symsPerHalf + i) else s.ulSym c (k * r.symsPerHalf + i)

/-- Does an item apply to planning slot `k` (R554)? -/
def State.applies (s : State) (k : Nat) (x : WorkItem) : Bool :=
  bit x.kind 2 || (bit x.kind 0 && x.carrier < 8 && s.symbolsIn true x.carrier k) ||
    (bit x.kind 1 && x.carrier < 8 && s.symbolsIn false x.carrier k)

/-- Does an entry of the shedding table remove an item (R563, R564)? An item names no group, so ADAPT with any group removes it (DESIGN CHOICE, log
entry 36). -/
def WorkItem.removedBy (x : WorkItem) (e : Nat × Nat × Nat) : Bool :=
  x.shedBy != 0 && x.shedBy == e.1 &&
    (if e.1 = shedHalls then x.prio != 0xFF && decide (e.2.1 ≤ x.prio)
     else if e.1 = shedAdapt then e.2.2 != 0
     else if e.1 = shedEpoch || e.1 = shedUl || e.1 = shedDl then (if x.carrier < 8 then e.2.2.testBit x.carrier else e.2.2 != 0)
     else true)

/-- The items of planning slot `k` that remain at level `n`. -/
def State.itemsAt (s : State) (k n : Nat) : List WorkItem :=
  let l := (List.range n).map fun i => s.shedEntry (i + 1)
  s.workItems.filter fun x => s.applies k x && !(l.any x.removedBy)

/-! ### The prediction (R553) -/

/-- The largest x below 2^b, above what is found, with x^k at most `goal`. -/
def rootSearch (k goal : Nat) : Nat → Nat → Nat
  | 0, x => x
  | b + 1, x => rootSearch k goal b (if (x + 2 ^ b) ^ k ≤ goal then x + 2 ^ b else x)

/-- 2^(n / 320) in units of 2^-64, rounded down: a temperature of n / 16 °C over 20 °C (DESIGN CHOICE, log entry 36). -/
def pow320 (n : Int) : Nat :=
  let q := n.fdiv 320
  let root := rootSearch 320 (2 ^ (64 * 320 + (n.fmod 320).toNat)) 65 0
  if 0 ≤ q then root * 2 ^ q.toNat else root / 2 ^ (-q).toNat

/-- nJ in the units of a plan: 2^78 × 800^3 to the nJ. -/
def nJ : Nat := 2 ^ 78 * 800 ^ 3

/-- The CORE term without γ: P_s0 over 500 µs, scaled by voltage and temperature, and the items' dynamic energy. -/
def State.coreEnergy (s : State) (mv : Nat) (items : List WorkItem) : Nat :=
  let t := s.getS Reg.THERMAL.STATUS.t_hot + 32 - 85 * 16
  (s.staticPower * 500 * mv ^ 3 * pow320 t + sumNat (items.map fun x => x.e) * mv ^ 2 * 800 * 2 ^ 64) * 2 ^ 14

/-- The number of planning slots after which the TDD patterns of all running carriers repeat together. -/
def State.patternSlots (s : State) : Nat :=
  let l := (s.runningCarriers.filter fun c => (s.form c).tdd != 0).map fun c => periodEighths (patternOf (s.car c).pattern).period
  l.foldl Nat.lcm 4 / 4

/-- E_nc(k) in µJ: the measured slot at the same position in the pattern. -/
def State.nonCoreOf (s : State) (k : Nat) : Nat :=
  let p := max 1 s.patternSlots
  let back := ceilDiv 3 p * p
  (assoc? s.energy.nonCore (k - back)).getD (Config.unmeasured (k - back))

/-- The predicted energy of planning slot `k` at a voltage with the items left. -/
def State.predicted (s : State) (k mv : Nat) (items : List WorkItem) : Int :=
  (s.nonCoreOf k * 1000 * nJ + s.get Reg.POWER.GAMMA.gamma * (s.coreEnergy mv items / 2 ^ 14) : Nat)

/-! ### The speed model (R556 to R560) -/

/-- The nominal column of the speed table: mV, MHz (R366). -/
def speedRows : List (Nat × Nat) := [(600, 650), (650, 900), (700, 1120), (720, 1200), (800, 1500), (900, 1820), (950, 1950)]

/-- 400 × den × N at num / den mV, interpolated between the rows; the ends of the table hold beyond it (DESIGN CHOICE, log entry 36). -/
def nominalOn (num den : Nat) : List (Nat × Nat) → Nat
  | (v0, n0) :: (v1, n1) :: rest =>
    if num ≤ v0 * den then 400 * den * n0
    else if num ≤ v1 * den then 400 * den * n0 + (n1 - n0) * (num - v0 * den) * (400 / (v1 - v0))
    else nominalOn num den ((v1, n1) :: rest)
  | [(_, n)] => 400 * den * n
  | [] => 0

/-- N at num / den mV. -/
def nominal (num den : Nat) : Nat := nominalOn num den speedRows

/-- r_meas: the lowest reading of any valid monitor over a planning slot. -/
def State.slowest (s : State) (k : Nat) : Option Nat :=
  let l := (s.energy.speeds.filter fun e => e.1 / planningSlot == k).map fun e =>
    ((List.range 16).filter fun n => (s.energy.monitors.getD n default).valid).map fun n => e.2.getD n 0
  match l.flatten with
  | [] => none
  | a :: rest => some (rest.foldl min a)

/-- V_m: the mean readback over a planning slot, as sum and count; the last reading before it where the slot has none. -/
def State.meanVout (s : State) (k : Nat) : Nat × Nat :=
  let l := s.energy.vouts.filter fun e => e.1 / planningSlot == k
  if l.isEmpty then
    match s.energy.vouts.find? fun e => decide (e.1 / planningSlot < k) with
    | some e => (e.2, 1)
    | none => (s.energy.confirmed, 1)
  else (sumNat (l.map fun e => e.2), l.length)

/-- The margin rule for one item below 0.72 V, by the measurements of planning slot `k` (R557, R558). -/
def State.itemFits (s : State) (k mv : Nat) (x : WorkItem) : Bool :=
  match s.slowest k with
  | none => false
  | some r =>
    let v := s.meanVout k
    x.w * 1000 * 256 * nominal v.1 v.2 ≤ x.b * r * nominal mv 1 * v.2 * (256 - s.get Reg.POWER.SPEED_CTL.margin)

/-- Does every item fit at a voltage? -/
def State.allFit (s : State) (k mv : Nat) (items : List WorkItem) : Bool := 720 ≤ mv || items.all (s.itemFits k mv)

/-- Are voltages below 0.72 V blocked (R559)? -/
def State.blocked072 (s : State) : Bool :=
  countIf (fun (m : Monitor) => m.valid) s.energy.monitors < 12 || !s.below072Allowed || s.now < s.energy.blockedTo

/-- STATUS.sub072_blocked follows. -/
def State.showBlocked (s : State) : State := s.putB Reg.POWER.STATUS.sub072_blocked s.blocked072

/-- One reading against the median, given doubled: within 15 % or beyond; three in a row change the validity. -/
def Monitor.judge (m : Monitor) (r median2 : Nat) : Monitor :=
  let out := decide (15 * median2 < ((2 * r : Int) - median2).natAbs * 100)
  let bad := if out then m.bad + 1 else 0
  let good := if out then 0 else m.good + 1
  { bad := bad, good := good, valid := if m.valid then bad < 3 else 3 ≤ good }

/-- Insert into an ascending list. -/
def insertNat (x : Nat) : List Nat → List Nat
  | [] => [x]
  | y :: l => if x ≤ y then x :: y :: l else y :: insertNat x l

/-- Twice the median of a list: the sum of its middle two, or twice its middle. -/
def median2 (l : List Nat) : Nat :=
  let l := l.foldr insertNat []
  let n := l.length
  l.getD ((n - 1) / 2) 0 + l.getD (n / 2) 0

/-- VDD_CORE is on. -/
def State.coreOn (s : State) : Bool := s.power != powerDeep && s.power != powerWakeFailed && s.power != powerThermalOff

/-- SPEED_MEASURE: the monitors' readings, validity and event records. -/
def State.speedMeasured (s : State) (readings : List Nat) : State :=
  if !s.coreOn then s
  else
    let l := (List.range 16).map fun n => readings.getD n 0 % 65536
    let med := median2 l
    let new := (List.range 16).map fun n => (s.energy.monitors.getD n default).judge (l.getD n 0) med
    let changed := (List.range 16).filter fun n => (new.getD n default).valid != (s.energy.monitors.getD n default).valid
    let s : State := { s with energy := { s.energy with monitors := new, speeds := (s.arrayNow, l) :: s.energy.speeds.take 200 } }
    let s := s.forEach (List.range 16) fun n s =>
      (s.put (Reg.POWER.SPEED.rate n) (l.getD n 0)).putB (Reg.POWER.SPEED.valid n) (new.getD n default).valid
    s.showBlocked.forEach changed fun n s => s.record { kind := .event, unit := unitEnergy, inst := n }

/-- SPEED_MEASURE (R556). -/
def execSpeedMeasure (t : Nat) (readings : List Nat) (s : State) : Host.Outcome State Fault Refusal :=
  finish ((s.atTime t).speedMeasured readings)

/-- SPEED_MISS: an item admitted below 0.72 V missed its budget; the block starts at the next plan (R560). -/
def State.speedMissed (s : State) : State :=
  match s.energy.plan with
  | some p =>
    if p.mv < 720 || s.energy.target < 720 then
      let s := (s.put Reg.POWER.STATUS.speed_miss 1).bump Reg.POWER.SPEED_MISS.word
      { s with energy := { s.energy with missDue := true } }
    else s
  | none => s

/-- SPEED_MISS (R560). -/
def execSpeedMiss (t : Nat) (s : State) : Host.Outcome State Fault Refusal := finish (s.atTime t).speedMissed

/-! ### The bucket and γ (R550 to R552, R555) -/

/-- The effective envelope P_eff in mW (R587). -/
def State.pEff (s : State) : Nat :=
  let env := s.get Reg.POWER.ENVELOPE.word
  if s.flag Reg.THERMAL.STATUS.throttle then
    env * max (10 * s.get Reg.THERMAL.THROTTLE.floor) (1000 - s.get Reg.THERMAL.THROTTLE.k * s.get Reg.THERMAL.THROTTLE.excess) / 1000
  else env

/-- P_eff is recomputed. -/
def State.showPEff (s : State) : State := s.put Reg.THERMAL.P_EFF.word s.pEff

/-- The bucket depth D, and a slot's share of P_eff, in nJ. -/
def State.depthNj (s : State) : Int := (s.get Reg.POWER.BUCKET_DEPTH.depth * 1000000 : Nat)
def State.shareNj (s : State) : Int := (s.get Reg.THERMAL.P_EFF.word * 500 : Nat)

/-- The bucket level changes; BUCKET_LEVEL shows it in µJ, saturating. -/
def State.setBucket (s : State) (b : Int) : State :=
  let s : State := { s with energy := { s.energy with bucket := b } }
  s.putS Reg.POWER.BUCKET_LEVEL.word (satS 32 (b.fdiv 1000))

/-- The counters run in every state but WAKE_FAILED and THERMAL_OFF (R550). -/
def State.metered (s : State) : Bool := s.power != powerWakeFailed && s.power != powerThermalOff

/-- Energy in µJ enters the counter of a rail group, and the total (R548). -/
def State.addEnergy (s : State) (g uJ : Nat) : State :=
  (s.add64 (Reg.POWER.E_LO.word g) (Reg.POWER.E_HI.word g) uJ).add64 (Reg.POWER.E_LO.word 6) (Reg.POWER.E_HI.word 6) uJ

/-- γ after a slot, before rounding a quotient with the CORE term of its plan (R555). -/
def gammaNext (γ coreUj : Nat) (p : Plan) : Nat :=
  min 32768 (max 8192 (Config.gammaRound (15 * γ * p.core.toNat + coreUj * 1000 * 2 ^ 14 * nJ) (16 * p.core.toNat)))

/-- ENERGY_UPDATE, 20 µs after a boundary: CORE counter, bucket, γ, and the slot's non-core energy (R549, R552, R555). -/
def State.energyUpdated (s : State) (core nonCore : Nat) : State :=
  if !s.due .energy then s
  else if !s.metered then s.disarm .energy
  else
    let s := (s.disarm .energy).addEnergy 0 core
    let s := s.setBucket (min s.depthNj (s.energy.bucket + s.shareNj - ((core + nonCore) * 1000 : Nat)))
    let s := match s.energy.ended with
      | some p => s.put Reg.POWER.GAMMA.gamma (gammaNext (s.get Reg.POWER.GAMMA.gamma) core p)
      | none => s
    { s with energy := { s.energy with nonCore := (s.energy.endSlot, nonCore) :: s.energy.nonCore.take 40 } }

/-- ENERGY_UPDATE (R552). -/
def execEnergyUpdate (t : Nat) (core nonCore : Nat) (s : State) : Host.Outcome State Fault Refusal :=
  finish ((s.atTime t).energyUpdated core nonCore)

/-! ### The regulator (R689 to R692, R720) -/

/-- The PMBus commands of R689. -/
def pmOperation : Nat := 0x01
def pmClearFaults : Nat := 0x03
def pmVoutMode : Nat := 0x20
def pmVoutCommand : Nat := 0x21
def pmStatusWord : Nat := 0x79
def pmReadVout : Nat := 0x8B
def pmReadIout : Nat := 0x8C

/-- OPERATION on and off. -/
def pmOn : Nat := 0x80
def pmOff : Nat := 0

/-- A transaction whose retry failed, or one that succeeded (R691). -/
def State.pmBus (s : State) (ok : Bool) : State :=
  if ok then s.put Reg.POWER.PMBUS_STATUS.fault 0
  else ((s.bump Reg.POWER.PMBUS_STATUS.errors).put Reg.POWER.PMBUS_STATUS.fault 1).record { kind := .event, unit := unitPmbus }

/-- A new target is commanded; readback begins 20 µs later (R569, R690). -/
def State.voutCommand (s : State) (mv : Nat) (ok : Bool) : State :=
  let s : State := { s with energy := { s.energy with before := s.energy.target, target := mv, settled := false } }
  ((s.emit (.pmbus pmVoutCommand mv)).pmBus ok).arm .readVout (s.now + ticksOfUs 20)

/-- PMBUS_READBACK: a reading within 10 mV confirms the target. -/
def State.readback (s : State) (mv : Option Nat) : State :=
  if !s.due .readVout then s
  else
    let s := (s.emit (.pmbus pmReadVout 0)).arm .readVout (s.now + ticksOfUs 20)
    match mv with
    | none => s.pmBus false
    | some v =>
      let v := v % 65536
      let s := (s.pmBus true).put Reg.POWER.PMBUS_STATUS.vout v
      let near := decide (((v : Int) - s.energy.target).natAbs ≤ 10)
      { s with energy := { s.energy with vouts := (s.arrayNow, v) :: s.energy.vouts.take 200, settled := s.energy.settled || near,
                                         confirmed := if near then s.energy.target else s.energy.confirmed } }

/-- PMBUS_READBACK (R690). -/
def execPmbusReadback (t : Nat) (mv : Option Nat) (s : State) : Host.Outcome State Fault Refusal := finish ((s.atTime t).readback mv)

/-- PM_ALERT: STATUS_WORD goes into an event record (R720). -/
def State.pmAlerted (s : State) (status : Option Nat) : State :=
  let s := s.emit (.pmbus pmStatusWord 0)
  match status with
  | some w => (s.pmBus true).record { kind := .event, unit := unitPmbus, detail := w % 65536 }
  | none => s.pmBus false

/-- PM_ALERT (R720). -/
def execPmAlert (t : Nat) (status : Option Nat) (s : State) : Host.Outcome State Fault Refusal := finish ((s.atTime t).pmAlerted status)

/-! ### The plan (R561 to R569) -/

/-- The candidates in ascending order: 10 mV steps between the limits, above a block 0.72 V at least; under a PMBus fault the last
confirmed voltage alone (R559, R561, R691). -/
def State.candidates (s : State) : List Nat :=
  if s.flag Reg.POWER.PMBUS_STATUS.fault then [s.energy.confirmed]
  else
    let lo := s.get Reg.POWER.V_LIMITS.v_min
    let hi := s.get Reg.POWER.V_LIMITS.v_max
    ((List.range ((hi - lo) / 10 + 1)).map fun i => lo + 10 * i).filter fun v => v ≤ hi && (720 ≤ v || !s.blocked072)

/-- The items that the plan of a slot admits. -/
def State.admitted (s : State) (p : Plan) : List WorkItem :=
  (s.itemsAt p.slot p.level).filter fun x => !(bit x.kind 0 && p.noDl.testBit x.carrier) && !(bit x.kind 1 && p.noUl.testBit x.carrier)

/-- Does the work of the slot in progress meet its deadlines while the rail falls to a voltage below its target (R49)? -/
def State.slewFits (s : State) (k v : Nat) : Bool :=
  s.energy.target ≤ v || (match s.energy.plan with
    | some p => s.allFit (k - 2) v (s.admitted p)
    | none => 720 ≤ v)

/-- The best voltage of a level with its predicted energy, the higher of two with equal energies (R561: its prose says so, its pseudocode keeps
the lower; DESIGN CHOICE, log entry 36); v_max where no candidate fits (R562, DESIGN CHOICE, log entry 36). -/
def State.bestVoltage (s : State) (k n : Nat) : Nat × Int :=
  let items := s.itemsAt k n
  let fits := s.candidates.filter fun v => s.allFit (k - 2) v items && s.slewFits k v
  let pick := fun (best : Option (Nat × Int)) (v : Nat) =>
    let e := s.predicted k v items
    match best with
    | some b => if e ≤ b.2 then some (v, e) else best
    | none => some (v, e)
  match fits.foldl pick none with
  | some b => b
  | none => (s.get Reg.POWER.V_LIMITS.v_max, s.predicted k (s.get Reg.POWER.V_LIMITS.v_max) items)

/-- The plan of slot `k` at a voltage and a level that admit all the level leaves. -/
def State.planAt (s : State) (k mv n : Nat) : Plan :=
  let items := s.itemsAt k n
  { slot := k, mv := mv, level := n, energy := s.predicted k mv items, core := (s.coreEnergy mv items : Nat), noDl := 0, noUl := 0 }

/-- The first level from `n` on whose energy fits the budget: the plan, and whether none does and level 7 is over budget. -/
def State.fitPlan (s : State) (k : Nat) (budget : Int) : Nat → Nat → Plan × Bool
  | 0, n =>
    let b := s.bestVoltage k n
    (s.planAt k b.1 n, decide (budget * nJ < b.2))
  | fuel + 1, n =>
    let b := s.bestVoltage k n
    if b.2 ≤ budget * nJ then (s.planAt k b.1 n, false) else s.fitPlan k budget fuel (n + 1)

/-- The halls that a level sheds (R564, R567). -/
def State.hallsShed (s : State) (n : Nat) : List Nat :=
  let l := ((List.range n).map fun i => s.shedEntry (i + 1)).filter fun e => e.1 == shedHalls
  (List.range 136).filter fun h => l.any fun e => decide (e.2.1 ≤ s.hallPrio h)

/-- A planning slot admitted at a level counts (R568); levels up to `was` have counted already. -/
def State.countShed (s : State) (was n : Nat) : State :=
  let s := s.when (was == 0 && n != 0) fun s => s.bump Reg.POWER.SHED_SLOTS.word
  s.forEach ((List.range n).filter fun j => was ≤ j) fun j s => s.bump (Reg.POWER.SHED_ACT.word j)

/-- The record of a changed level names both (R568). -/
def State.levelRecord (s : State) (was n : Nat) : State :=
  s.when (was != n) fun s => s.record { kind := .event, unit := unitEnergy, detail := was * 256 + n }

/-- The planner runs: an image is installed, the part is not asleep, and the atrium controller is not given up (R562, R575). -/
def State.planning (s : State) : Bool :=
  s.image.running.isSome && (s.power == powerActive || s.power == powerQuiet || s.power == powerEntering) && !s.isWedged .atrium

/-- The plan for slot `k` is fixed at the start of slot `k` - 1. -/
def State.fixPlan (s : State) (k : Nat) (ok : Bool) : State :=
  let until_ := if s.energy.missDue then s.now + ticksPerSecond else s.energy.blockedTo
  let s : State := { s with energy := { s.energy with missDue := false, blockedTo := until_ } }
  let s := s.showBlocked.showPEff
  let share := s.shareNj
  let now := match s.energy.plan with
    | some p => p.energy
    | none => 0
  let proj := min (s.depthNj * nJ) ((s.energy.bucket + share) * nJ - now)
  let budget := proj.fdiv nJ + share
  let r := s.fitPlan k budget 7 0
  let p := r.1
  let was := match s.energy.plan with
    | some q => q.level
    | none => 0
  let s := ((s.put Reg.POWER.PLAN.v_target p.mv).putB Reg.POWER.PLAN.below_072 (p.mv < 720)).put Reg.POWER.PLAN.level p.level
  let s := s.when r.2 fun s => (s.put Reg.POWER.STATUS.over_budget 1).bump Reg.POWER.OVER_BUDGET.word
  let s := (s.countShed 0 p.level).levelRecord was p.level
  let s := s.forEach (s.hallsShed p.level) fun h s => s.raise h evShed
  let s : State := { s with energy := { s.energy with next := some p } }
  s.when (p.mv != s.energy.target) fun s => s.voutCommand p.mv ok

/-- The voltage that the planner takes the rail to be at: the target, once readback has confirmed it, else the lower of the old and the new
one (R50). -/
def State.railMv (s : State) : Nat := if s.energy.settled then s.energy.target else min s.energy.before s.energy.target

/-- Slot `k` admitted at a voltage under R27, from level `n` on, by the measurements of the slot before it: the first level at which all items
fit. Where level 7 leaves one that does not, the work of its carrier is not started, nor is what an item of no carrier stands for (DESIGN CHOICE,
log entry 74). -/
def State.admitFrom (s : State) (k mv n : Nat) : Plan :=
  match (List.range 8).find? fun m => decide (n ≤ m) && s.allFit (k - 1) mv (s.itemsAt k m) with
  | some m => s.planAt k mv m
  | none =>
    let late := (s.itemsAt k 7).filter fun x => !s.itemFits (k - 1) mv x
    let mask := fun b => ((late.filter fun x => bit x.kind b && decide (x.carrier < 8)).map fun x => x.carrier).eraseDups
    let p := s.planAt k mv 7
    let p : Plan := { p with noDl := sumNat ((mask 0).map fun c => 2 ^ c), noUl := sumNat ((mask 1).map fun c => 2 ^ c) }
    let items := (s.admitted p).filter fun x => !late.contains x
    { p with energy := s.predicted k mv items, core := (s.coreEnergy mv items : Nat) }

/-- A target that readback has not confirmed when its slot starts: the slot is planned again at the lower of the two, and at a higher level
where the work needs it (R50). -/
def State.replanSlot (s : State) (p : Plan) : Plan := if s.energy.settled then p else s.admitFrom p.slot s.railMv p.level

/-- The work of a planning slot is admitted: the actions of its level take effect (R564). -/
def State.shedNow (s : State) (n : Nat) : State :=
  let s := s.put Reg.POWER.STATUS.level n
  let s := if s.cap.armed && !(s.shedding shedDiag).isEmpty then s.capStop 7 else s
  let shed := s.hallsShed n
  { s with halls := (List.range s.halls.length).map fun h => { s.hall h with shed := shed.contains h } }

/-- Slot `k` begins under the plan fixed for it. One that no plan was fixed for, such as the first after a wake, is admitted under R27 at the
rail as it stands (DESIGN CHOICE, log entry 74). -/
def State.slotBegins (s : State) (k : Nat) : State :=
  let was := s.energy.plan
  let p := match s.energy.next.filter fun p => p.slot == k with
    | some p => some (s.replanSlot p, p.level)
    | none => if s.planning then some (s.admitFrom k s.railMv 0, 0) else none
  let s : State := { s with energy := { s.energy with endSlot := s.energy.slot.getD 0, ended := was, slot := some k,
                                                      plan := p.map fun x => x.1, next := none } }
  match p with
  | some (q, planned) => ((s.countShed planned q.level).levelRecord planned q.level).shedNow q.level
  | none => s.shedNow 0

/-- What waits for a planning-slot boundary beside the plan: commits (R512), decisions (R527), lost tables (R537), clocks (R618, R621),
stair lanes, partner leases (R397), the fronthaul layout (R372), the LOs (R154); without a timing carrier it is an update point and raises the
hall events of one (R119). -/
def State.slotWork (s : State) : State :=
  let s := (s.latchAll.verdictsDue).applyBoundary none
  let s := if s.timing.isNone then (((s.dropEntries.clearTables).updatePaths).raiseAll evSymbol).raiseAll evSlot else s
  let s := (s.cnvResume.timResume).lanesPlanned.leases.fhLayout
  s.loBoundary s.arrayNow

/-- PLANNING_SLOT_BOUNDARY: the slot begins, the plan for the next one is fixed, and a step of array time that waits is taken (R602). -/
def State.planningBoundary (s : State) (ok : Bool) : State :=
  let k := s.arrayNow / planningSlot
  if !s.clock.started || s.energy.slot == some k then s
  else
    let s := (s.slotWork.slotBegins k).arm .energy (s.now + ticksOfUs 20)
    let s : State := { s with trimsDelay := s.trims }
    let s := if s.planning then s.fixPlan (k + 1) ok else s
    let s := if k % 64 = 0 && s.coreOn then (s.emit (.pmbus pmReadVout 0)).emit (.pmbus pmReadIout 0) else s
    s.applyStep

/-- PLANNING_SLOT_BOUNDARY (R561). -/
def execPlanningSlotBoundary (t : Nat) (ok : Bool) (s : State) : Host.Outcome State Fault Refusal :=
  finish ((s.atTime t).planningBoundary ok)

end Sys2Proof.Machine
end

