-- ==== Sys2Proof/Machine/PowerStates.lean ====
section
/-!
DEFINITION. Power states (R571 to R583): requests and their refusers, entry, wake sources, wake, retention; the end of SXM sessions
(R667).
-/

namespace Sys2Proof.Machine

open Sys2Proof

/-! ### Sessions (R517, R667) -/

/-- An SXM session ends: its transactions follow R517, and its channel's copies return to their reset values (R698). -/
def State.endSession (s : State) (n : Nat) : State :=
  match s.session n with
  | none => s
  | some _ => ((s.txnSessionEnd (n + 1)).setSession n none).modChan (n + 1) fun _ => HostChan.reset

/-- Every session ends. -/
def State.endSessions (s : State) : State := s.forEach (List.range s.sessions.length) fun n s => s.endSession n

/-! ### Requests (R572, R573) -/

/-- IMAGE.STATUS.source of a direct load. -/
def sourceDirect : Nat := 2

/-- A keep write is in progress: a host command other than READ, or a slot-record update. -/
def State.keepWriting (s : State) : Bool :=
  (match s.image.cmd with
    | some (.slotUpdate _) => true
    | _ => false) ||
  match s.keep.running with
    | some j => !decide (j.cmd = .read)
    | none => false

/-- The conditions of the refusers by ascending ID, 1 to 13, for a target. -/
def State.refuses (s : State) (target asserted : Nat) : List Bool :=
  let sleep := target == 2 || target == 3
  let enabled := s.get Reg.POWER.WAKE_EN.sources
  [ (List.range 8).any fun c => (s.form c).joint && (s.running c || s.carState c == carrierStarting),
    sleep && s.txn.slots.any fun x => x.state == txPrepared,
    s.flag Reg.IMAGE.STATUS.busy || (s.txn.slots.any fun x => x.state == txPrepared && x.live.isSome) ||
      (target == 3 && (s.get Reg.IMAGE.STATUS.source == sourceDirect || (match s.image.running with
        | some r => r.live
        | none => false))),
    sleep && s.keepWriting,
    (List.range 64).any fun p => (s.path p).cal.isSome,
    !s.recov.running.isEmpty,
    s.ota.active,
    (asserted &&& enabled) != 0,
    sleep && enabled == 0,
    target == 0 || (s.power != powerActive && s.power != powerQuiet),
    s.flag Reg.RECOVERY.STATUS.wedged_any,
    sleep && s.isTop && !s.treeOf.joined.isEmpty,
    s.flag Reg.THERMAL.STATUS.shutdown ]

/-- The first refuser that applies. -/
def State.refuser (s : State) (target asserted : Nat) : Option Nat :=
  ((s.refuses target asserted).findIdx? fun b => b).map fun i => i + 1

/-- Step 1 of an entry is over, no carrier being active: OPEN transactions end, and for DOZE and DEEP the stair ports send SLEEP and the
fronthaul ports go to signal detection (steps 2 and 3; R467, R518); SLEEP arises on every bus (step 4; R149). -/
def State.entryStopped (s : State) : State :=
  if s.power != powerEntering || !s.activeCarriers.isEmpty then s
  else
    let s := s.txnAbortAll [txOpen] causePower
    if s.energy.goal = 1 then s
    else
      (s.sleepPorts.forEach ((List.range 8).filter fun n => s.fhPortState n != fhDisabled && s.fhPortState n != fhTest) fun n s =>
        s.fhEnter n fhListen).femArises .sleep

/-- CARRIER_STOP (R250); the last one of an entry ends its step 1. -/
def execCarrierStop (t : Nat) (c : LastSymbol) (s : State) : Host.Outcome State Fault Refusal :=
  let s := s.atTime t
  let s' := s.carrierStop c.carrier.val c.adc
  finish (if s.activeCarriers.isEmpty then s' else s'.entryStopped)

/-- Entry begins: the carriers stop, and for DOZE and DEEP the sessions end (R573, R667). -/
def State.enterBegin (s : State) (target : Nat) : State :=
  let s := s.put Reg.POWER.STATUS.state powerEntering
  let s : State := { s with energy := { s.energy with goal := target, latched := 0, lastActive := s.energy.target } }
  let s := s.forEach ((List.range 8).filter fun c => s.running c || s.carState c == carrierStarting) fun c s =>
    s.decideStop c s.arrayNow (some (s.form c))
  let s := s.when (target != 1) fun s => s.endSessions
  s.entryStopped

/-- A request for a power state; `asserted` holds the wake sources that are asserted (R572). -/
def State.powerRequest (s : State) (target asserted : Nat) : State :=
  let s := s.put Reg.POWER.MODE_CTL.target target
  match s.refuser target asserted with
  | some k =>
    let s := (s.put Reg.POWER.STATUS.last_refuser k).bump (Reg.POWER.REFUSE_CNT.word k)
    (s.put Reg.POWER.STATUS.refused 1).put Reg.POWER.STATUS.done 1
  | none => s.enterBegin target

/-- ENTER_IDLE (R572). -/
def execEnterIdle (t : Nat) (ch : Channel) (asserted : Nat) (s : State) : Host.Outcome State Fault Refusal :=
  finish (s.hostCmd t ch.val Reg.POWER.MODE_CTL.word.addr fun s => s.powerRequest 1 asserted)

/-- ENTER_DOZE (R572). -/
def execEnterDoze (t : Nat) (ch : Channel) (asserted : Nat) (s : State) : Host.Outcome State Fault Refusal :=
  finish (s.hostCmd t ch.val Reg.POWER.MODE_CTL.word.addr fun s => s.powerRequest 2 asserted)

/-- ENTER_DEEP (R572). -/
def execEnterDeep (t : Nat) (ch : Channel) (asserted : Nat) (s : State) : Host.Outcome State Fault Refusal :=
  finish (s.hostCmd t ch.val Reg.POWER.MODE_CTL.word.addr fun s => s.powerRequest 3 asserted)

/-! ### Entry and wake (R573 to R580) -/

/-- The state that a target names. -/
def stateOf (target : Nat) : Nat := if target = 1 then powerIdle else if target = 2 then powerDoze else powerDeep

/-- The islands that DOZE stops, and DEEP beside HKP, which goes on on its internal oscillator. -/
def sleepIslands (target : Nat) : List Nat := if target = 3 then [islandRef, islandCnv, islandFhl, islandStl, islandTim] else [islandCnv, islandFhl, islandStl]

/-- Every path mutes for the host, or follows its own mute bit again. -/
def State.hostMutes (s : State) (all : Bool) : State :=
  s.forEach (List.range 64) fun p s => s.setMute p muteHost (all || s.flag (Reg.PATH.CTL.mute p))

/-- The LO banks and the islands stop, and VDD_CORE goes to 0.60 V, or off (step 6, R692). -/
def State.powerDown (s : State) (target : Nat) : State :=
  let s := ((s.loStop 0).loStop 1).islandsStop (sleepIslands target)
  let s := s.voutCommand 600 true
  if target = 3 then
    let s := (s.emit (.pmbus pmOperation pmOff)).disarm .readVout
    let s := (s.put Reg.CLOCK.REF_STATUS.refclk_ok 0).putBit Reg.CLOCK.ISLAND_STATUS.locked islandHkp false
    { s with clock := { s.clock with hkpOscillator := true }, boot := { s.boot with coreMonitored := false } }
  else s

/-- The wake begins: VDD_CORE returns to the last ACTIVE target, the islands start, and the LO banks leave OFF; WAKE arises on every bus
(R149, R152, R692). -/
def State.beginWake (s : State) : State :=
  let from_ := s.power
  let s := s.put Reg.POWER.STATUS.state powerWaking
  let s : State := { s with energy := { s.energy with failures := [0, 0, 0] } }
  if from_ = powerIdle then s
  else
    let s := s.when (from_ == powerDeep) fun s => s.emit (.pmbus pmOperation pmOn)
    let s : State := { s with boot := { s.boot with coreMonitored := true } }
    let s := (s.voutCommand s.energy.lastActive true).islandsStart ((sleepIslands s.energy.goal).filter fun n => n != islandRef)
    (s.forEach ([0, 1].filter s.bankUsed) fun b s => s.loStart b).femArises .wake

/-- POWER_STATE_ENTERED: WAIT is executed; a source that is latched begins the wake at once (R573, R574). SLEEP has run on
every bus by then. -/
def State.stateEntered (s : State) : State :=
  if s.power != powerEntering || !s.activeCarriers.isEmpty then s
  else
    let target := s.energy.goal
    let s := if target = 1 then s.hostMutes true else (s.femFlush.powerDown target).when (target == 3) fun s => s.dropPending injPower
    let at0 := s.now
    let s : State := { s.put Reg.POWER.STATUS.state (stateOf target) with energy := { s.energy with waitAt := at0, next := none } }
    if s.energy.latched = 0 then s else s.beginWake

/-- POWER_STATE_ENTERED (R573). -/
def execPowerStateEntered (t : Nat) (s : State) : Host.Outcome State Fault Refusal := finish (s.atTime t).stateEntered

/-- A wake source is latched. -/
def State.latchWake (s : State) (src : Nat) : State := { s with energy := { s.energy with latched := withBit s.energy.latched src true } }

/-- The part is in IDLE, DOZE or DEEP. -/
def State.asleep (s : State) : Bool := s.power == powerIdle || s.power == powerDoze || s.power == powerDeep

/-- Has WAKE_TIMER run out since WAIT, within 2 % in DEEP (R576)? -/
def State.timerElapsed (s : State) : Bool :=
  let ms := s.get Reg.POWER.WAKE_TIMER.word
  let share := if s.power == powerDeep then 98 else 100
  ms != 0 && s.asleep && s.energy.waitAt + ticksOfMs ms * share / 100 ≤ s.now

/-- A wake source asserts: it is latched from the refuser check on, and in IDLE, DOZE and DEEP the wake begins (R574, R576, R577). A
vestibule frame is a source in those three states alone (R661). -/
def State.wakeSource (s : State) (src : Nat) : State :=
  if !(s.get Reg.POWER.WAKE_EN.sources).testBit src || (src == 6 && !s.timerElapsed) || (src == 4 && !s.asleep) then s
  else if s.power == powerEntering || s.power == powerWaking then s.latchWake src
  else if s.asleep then (s.latchWake src).beginWake
  else s

/-- WAKE_SOURCE (R576). -/
def execWakeSource (t : Nat) (src : Fin 7) (s : State) : Host.Outcome State Fault Refusal := finish ((s.atTime t).wakeSource src.val)

/-- WAKE_PATTERN_DETECT: a detector of a sleeping port reports the wake pattern, or activity alone (R467, R468, R576). -/
def execWakePatternDetect (t : Nat) (port : Fin 4) (pattern : Bool) (s : State) : Host.Outcome State Fault Refusal :=
  let s := s.atTime t
  finish (if s.sState port.val == spDisabled then s
    else
      let s := if s.power == powerIdle then s else s.wakeSource 2
      if pattern then s.wakeSource 3 else s)

/-- WAKE_STEP_TIMEOUT: the step is undone and tried again; its third failure is WAKE_FAILED (R580). -/
def State.wakeTimeout (s : State) (step unit : Nat) : State :=
  if s.power != powerWaking then s
  else
    let n := s.energy.failures.getD step 0 + 1
    let s : State := { s with energy := { s.energy with failures := s.energy.failures.set step n } }
    if n < 3 then s else s.wakeFail (step + 1) unit n

/-- WAKE_STEP_TIMEOUT (R580). -/
def execWakeStepTimeout (t : Nat) (step : Fin 2) (unit : Nat) (s : State) : Host.Outcome State Fault Refusal :=
  finish ((s.atTime t).wakeTimeout step.val unit)

/-! ### Retention (R581, R582) -/

/-- Is a bank retained in DOZE and DEEP? -/
def State.retained (s : State) (b : Nat) : Bool :=
  match s.bankRec b with
  | some r => bit r.flags 0
  | none => false

/-- Every other bank holds undefined content at wake (R581). -/
def State.loseUnretained (s : State) : State :=
  s.forEach ((List.range 768).filter fun b => !s.retained b && !s.bankLost b) fun b s =>
    let s' := s.memWrite (b * bankBytes) (s.freeBytes bankBytes)
    { s' with free := s'.free + bankBytes }

/-- Weights that were not retained: as many, of undefined values. -/
def scrambleRows (n : Nat) (l : List (List Cplx)) : List (List Cplx) :=
  (List.range l.length).map fun i => (List.range (l.getD i []).length).map fun j => Config.freeSample (n + 65536 * i + j)

/-- One group's weights, undefined. -/
def scrambleGroup (n : Nat) (x : GroupWeights) : GroupWeights :=
  { x with h := scrambleRows n x.h, a := scrambleRows (n + 2 ^ 24) x.a, w := scrambleRows (n + 2 ^ 25) x.w }

/-- A weight set in banks that are not retained. -/
def scrambleSet (n : Nat) (x : WeightSet) : WeightSet :=
  { x with dl := (List.range x.dl.length).map fun g => scrambleGroup (n + 2 ^ 26 * (2 * g)) (x.dl.getD g default),
           ul := (List.range x.ul.length).map fun g => scrambleGroup (n + 2 ^ 26 * (2 * g + 1)) (x.ul.getD g default) }

/-- The weight sets, where a bank of theirs is not retained (DESIGN CHOICE, log entry 36). -/
def State.loseSets (s : State) : State :=
  if (s.banksOf kindWeights).all s.retained then s
  else
    let n := s.free
    let sets := (List.range 8).map fun c =>
      let p := s.beam.sets.getD c (WeightSet.empty, WeightSet.empty)
      (scrambleSet (n + 2 ^ 37 * (2 * c)) p.1, scrambleSet (n + 2 ^ 37 * (2 * c + 1)) p.2)
    { s with beam := { s.beam with sets := sets }, free := n + 2 ^ 41 }

/-- A weight set with words in a lost bank is empty (R582). -/
def State.emptySet (s : State) (c set : Nat) : State :=
  let p := s.beam.sets.getD c (WeightSet.empty, WeightSet.empty)
  { s with beam := { s.beam with sets := s.beam.sets.set c (if set = 0 then (WeightSet.empty, p.2) else (p.1, WeightSet.empty)) } }

/-- The content of a retained bank whose signature differs, by kind (R582). -/
def State.retentionContent (s : State) (b : Nat) (sets : List (Nat × Nat)) : State :=
  let k := s.bankKind b
  let s := if k = kindBeam then
      let s := match s.placeIn kindBeam (b * bankBytes) with
        | some o => s.setValid (o / 256) 512 false
        | none => s
      s.put Reg.POWER.RET_HOLD.held 0xFF
    else if k = kindWeights then s.forEach sets fun e s => s.emptySet e.1 e.2
    else s
  { s with mem := Memory.clear s.mem (b * bankBytes) bankBytes }

/-- A retained bank whose signature differs: a spare takes its number, its content follows its kind, the record, and R542 where no
spare is free (R582). -/
def State.retentionLost (s : State) (b : Nat) (sets : List (Nat × Nat)) : State :=
  if !s.retained b || s.bankLost b then s
  else
    let k := s.bankKind b
    let r := s.spareBank b
    let s := (r.2.retentionContent b sets).putBit Reg.POWER.RET_STATUS.kinds (k - 1) true
    let s := (s.put Reg.POWER.STATUS.ret_loss 1).showSpares
    let s := s.record { kind := .retention, unit := unitMemory, inst := b, cause := k, action := if r.1.isSome then 1 else 0,
                        spare := r.1.getD 0xFFFF }
    if r.1.isSome then s else s.loseBank b []

/-! ### The return to ACTIVE (R552, R577 to R579) -/

/-- A used LO bank has an LO. -/
def State.banksReady (s : State) : Bool := [0, 1].all fun b => !s.bankUsed b || s.loDelivers b

/-- What a wake from DOZE or DEEP does: memory, halls, islands, stair ports; after DEEP array time waits for its source (R469, R578,
R579, R581). -/
def State.wakeUp (s : State) (deep : Bool) (failed : List Nat) (sets : List (Nat × Nat)) : State :=
  let s := (s.femFlush.loseUnretained.loseSets).forEach failed fun b s => s.retentionLost b sets
  let s := (s.startHalls.forEach (List.range 136) fun h s => s.clearSticky h).islandsUp
  let s := if deep then
      let free := s.get Reg.CLOCK.REF_STATUS.source == srcFree
      let s := (s.put Reg.CLOCK.REF_STATUS.refclk_ok 1).when (!free) fun s => s.put Reg.CLOCK.TIME_STATUS.state timeAcquiring
      { s with clock := { s.clock with await := !free, good := 0, hkpOscillator := false } }
    else s
  if s.flag Reg.STAIR.CTL.wake_fwd then s.forEach ((List.range 4).filter fun n => s.sState n == spSleep) fun n s => s.portWake n else s

/-- Carriers that are due start no earlier than 2 µs from now. -/
def State.startsFromHere (s : State) (l : List Nat) : State :=
  let a := s.arrayNow + ticksOfUs 2
  s.forEach (l.filter fun c => s.carState c == carrierStarting) fun c s => s.modCar c fun x => { x with since := a }

/-- WAKE_DONE: ACTIVE, a full bucket, the causes, and then the notice. -/
def State.wakeDone (s : State) (failed : List Nat) (sets : List (Nat × Nat)) : State :=
  if s.power != powerWaking || (s.energy.goal != 1 && !s.banksReady) then s
  else
    let s := if s.energy.goal = 1 then s.hostMutes false else s.wakeUp (s.energy.goal == 3) failed sets
    let s := (s.put Reg.POWER.STATUS.state powerActive).setBucket s.depthNj
    let s := s.startsFromHere (List.range 8)
    let s := (s.put Reg.POWER.WAKE_CAUSE.sources s.energy.latched).put Reg.POWER.STATUS.done 1
    let s : State := { s with energy := { s.energy with latched := 0 } }
    s.notice .wake

/-- WAKE_DONE (R577). -/
def execWakeDone (t : Nat) (failed : List Nat) (sets : List (Nat × Nat)) (s : State) : Host.Outcome State Fault Refusal :=
  finish ((s.atTime t).wakeDone failed sets)

/-- RET_RELEASE: held carriers start at their first slot boundary at least 2 µs later (R583). -/
def State.retReleased (s : State) (v : Word) : State :=
  let held := s.get Reg.POWER.RET_HOLD.held
  let mask := getBits v 0 8
  let freed := (List.range 8).filter fun c => held.testBit c && mask.testBit c
  (s.put Reg.POWER.RET_HOLD.held (held - (held &&& mask))).startsFromHere freed

/-- RET_RELEASE (R583). -/
def execRetRelease (t : Nat) (ch : Channel) (value : Word) (s : State) : Host.Outcome State Fault Refusal :=
  finish (s.hostCmd t ch.val Reg.POWER.RET_RELEASE.word.addr fun s => s.retReleased value)

end Sys2Proof.Machine
end

