-- ==== Sys2Proof/Machine/Keep.lean ====
section
/-!
DEFINITION. The keep (R677 to R683): areas and pages, the snapshot's updates, the fault log's pages, host commands.
-/

namespace Sys2Proof.Machine

open Sys2Proof

/-! ### Sectors and their erase counts (R679) -/

/-- Erase counts rise for sectors, and WEAR shows the highest. -/
def State.wear (s : State) (sectors : List Nat) : State :=
  let er := sectors.foldl (fun l n => assocSet l n ((assoc? l n).getD 0 + 1)) s.keep.erases
  let s : State := { s with keep := { s.keep with erases := er } }
  s.put Reg.KEEP.WEAR.count (maxNat (er.map fun e => e.2))

/-! ### Raw pages: the image slots -/

/-- Pages of a slot. -/
def slotPages : Nat := 6144

/-- A raw page of a slot, if programmed. -/
def Keep.rawPage (k : Keep) (slot page : Nat) : Option (List Byte) := assoc? k.raw (slotPages * slot + page)

/-- A raw page as it reads; an erased page reads as the cells do. -/
def Keep.readRaw (k : Keep) (slot page : Nat) : List Byte :=
  (k.rawPage slot page).getD ((List.range 256).map fun i => Config.erasedByte ((slotPages * slot + page) * 256 + i))

/-- The bytes of a slot. -/
def Keep.slotBytes (k : Keep) (slot n : Nat) : List Byte :=
  (((List.range (ceilDiv n 256)).map fun p => k.readRaw slot p).flatten).take n

/-- Program raw pages from one on. -/
def Keep.programRaw (k : Keep) (slot page : Nat) (pages : List (List Byte)) : Keep :=
  { k with raw := ((List.range pages.length).zip pages).foldl (fun l e => assocSet l (slotPages * slot + page + e.1) e.2) k.raw }

/-- Erase the first sectors of a slot. -/
def State.eraseSectors (s : State) (slot n : Nat) : State :=
  let s : State := { s with keep := { s.keep with raw := s.keep.raw.filter fun e =>
    !(decide (slotPages * slot ≤ e.1) && decide (e.1 < slotPages * slot + 64 * n)) } }
  s.wear ((List.range n).map fun i => 96 * slot + i)

/-! ### The snapshot: a tagged copy-on-write area (R677, R678) -/

/-- Physical pages of the snapshot area, its logical pages, and its first sector. -/
def snapPages : Nat := 1536
def snapLogical : Nat := 768
def snapSector : Nat := 228

/-- Is an update complete: has it a commit page that names the number of its pages? -/
def Keep.complete (k : Keep) (seq : Nat) : Bool :=
  k.snap.any fun p => p.commit && p.seq == seq &&
    leAt p.data 0 2 == countIf (fun (q : SnapPage) => !q.commit && q.seq == seq) k.snap

/-- The copy of a logical page that R678 selects: the highest complete update sequence, the last copy programmed. -/
def Keep.selected (k : Keep) (page : Nat) : Option SnapPage :=
  k.snap.foldl (fun best p =>
    if p.commit || p.logical != page || !k.complete p.seq then best
    else match best with
      | some b => if b.seq ≤ p.seq then some p else best
      | none => some p) none

/-- Must a page stay: selected, a commit page of an update with selected pages, or of the open update (DESIGN CHOICE, log entry 12)? -/
def Keep.needed (k : Keep) (p : SnapPage) : Bool :=
  k.openUpdate == some p.seq ||
    (if p.commit then k.snap.any fun q => !q.commit && q.seq == p.seq && k.selected q.logical == some q
     else k.selected p.logical == some p)

/-- Sectors of the snapshot area that hold pages and none that must stay. -/
def Keep.stale (k : Keep) : List Nat :=
  (List.range 24).filter fun x =>
    let l := k.snap.filter fun p => p.phys / 64 == x
    !l.isEmpty && !l.any k.needed

/-- The lowest erased page of the snapshot area. -/
def Keep.erasedPage (k : Keep) : Option Nat := (List.range snapPages).find? fun n => !k.snap.any fun p => p.phys == n

/-- Stale sectors are erased where no erased page is left (R679). -/
def State.reclaim (s : State) : State :=
  if s.keep.erasedPage.isSome then s
  else
    let l := s.keep.stale
    let s : State := { s with keep := { s.keep with snap := s.keep.snap.filter fun p => !l.contains (p.phys / 64) } }
    s.wear (l.map fun x => snapSector + x)

/-- A page of the open update is programmed. -/
def State.programSnap (s : State) (logical : Nat) (commit : Bool) (data : List Byte) : State :=
  match s.keep.erasedPage, s.keep.openUpdate with
  | some n, some seq =>
    { s with keep := { s.keep with snap := s.keep.snap ++ [{ phys := n, logical := logical, seq := seq, commit := commit, data := data }] } }
  | _, _ => s

/-- The data bytes of a commit page: the number of the update's pages, then erased bytes. -/
def Keep.commitData (k : Keep) (seq : Nat) : List Byte :=
  leBytes 2 (countIf (fun (q : SnapPage) => !q.commit && q.seq == seq) k.snap) ++ List.replicate 246 0

/-! ### The fault log's pages (R546, R680) -/

/-- Physical pages of the fault-log area, and its first sector. -/
def logArea : Nat := 2048
def logSector : Nat := 196

/-- LOG_PAGE_PROGRAM: up to seven records fill a page; a full area loses its oldest sector. Waits behind a host command (R683). -/
def State.logPage (s : State) : State :=
  if !s.due .logPage || s.keep.running.isSome || s.power == powerThermalOff || s.keep.logBuffer.isEmpty then s
  else
    let recs := s.keep.logBuffer.take 7
    let rest := s.keep.logBuffer.drop 7
    let s := if s.keep.logPages.length < logArea then s
      else
        let oldest := (s.keep.logCount - s.keep.logPages.length) % logArea / 64
        ({ s with keep := { s.keep with logPages := s.keep.logPages.drop 64 } } : State).wear [logSector + oldest]
    let at0 := s.now
    let s : State := { s.disarm .logPage with keep := { s.keep with logPages := s.keep.logPages ++ [recs], logCount := s.keep.logCount + 1,
                                                                    logBuffer := rest, logSince := at0 } }
    if rest.isEmpty then s else s.arm .logPage (if 7 ≤ rest.length then at0 else at0 + ticksOfMs 100)

/-- LOG_PAGE_PROGRAM (R680). -/
def execLogPageProgram (t : Nat) (s : State) : Host.Outcome State Fault Refusal := finish (s.atTime t).logPage

/-- The page of records at a physical page of the fault-log area. -/
def Keep.logAt (k : Keep) (page : Nat) : Option (List LogRecord) :=
  (List.range k.logPages.length).foldl (fun best i =>
    if (k.logCount - k.logPages.length + i) % logArea = page then k.logPages[i]? else best) none

/-! ### Host commands (R681, R682) -/

/-- The results of KEEP.STATUS. -/
def keepBusy : Nat := 1
def keepSlotRunning : Nat := 2
def keepArea : Nat := 3
def keepPage : Nat := 4
def keepNoUpdate : Nat := 5
def keepUpdateOpen : Nat := 6
def keepFull : Nat := 7
def keepPower : Nat := 8
def keepCommand : Nat := 9
def keepNoBuffer : Nat := 10

/-- The 256 bytes of KEEP.PAGE0 to KEEP.PAGE63. -/
def State.keepBuffer (s : State) : List Byte := ((List.range 64).map fun k => leBytes 4 (s.get (Reg.KEEP.PAGE.word k))).flatten

/-- Fill the page buffer. -/
def State.setKeepBuffer (s : State) (bs : List Byte) : State :=
  s.forEach (List.range 64) fun k s => s.put (Reg.KEEP.PAGE.word k) (leAt bs (4 * k) 4)

/-- The slot of the running image. -/
def State.runningSlot (s : State) : Option Nat :=
  if s.image.running.isSome && s.get Reg.IMAGE.STATUS.source < 2 then some (s.get Reg.IMAGE.STATUS.source) else none

/-- Bytes of the load buffer. -/
def State.loadBytes (s : State) : Nat := s.allocBytes kindLoad

/-- Is the area open to a command under the area table? -/
def areaOpen (cmd : KeepCmd) (area : Nat) : Bool :=
  match cmd with
  | .read => area ≤ 4
  | .program => area ≤ 1 || area == 4
  | .eraseSlot | .copy => area ≤ 1
  | .begin | .commit | .abortUpdate => true

/-- Pages of an area as its commands number them. -/
def areaPages (area : Nat) : Nat :=
  if area ≤ 1 then slotPages else if area = 2 then 128 else if area = 3 then logArea else snapLogical

/-- Is the page, or the range of pages, fit for the command? -/
def State.keepPageOk (s : State) (cmd : KeepCmd) (area page len : Nat) : Bool :=
  match cmd with
  | .read => page < areaPages area
  | .program => page < areaPages area && (1 < area || (s.keep.rawPage area page).isNone)
  | .copy =>
    let n := ceilDiv len 256
    page + n ≤ slotPages && (List.range n).all fun i => (s.keep.rawPage area (page + i)).isNone
  | _ => true

/-- The first cause of R682 that refuses a command, 0 for none. -/
def State.keepRefusal (s : State) (cmd : KeepCmd) : Nat :=
  let area := s.get Reg.KEEP.ADDR.area
  let page := s.get Reg.KEEP.ADDR.page
  let len := s.get Reg.KEEP.LEN.bytes
  let writes := match cmd with
    | .program | .eraseSlot | .copy => true
    | _ => false
  let snapProgram := decide (cmd = .program) && area == 4
  let needsPage := snapProgram || decide (cmd = .commit)
  if writes && s.runningSlot == some area then keepSlotRunning
  else if !areaOpen cmd area then keepArea
  else if !s.keepPageOk cmd area page len then keepPage
  else if (snapProgram || decide (cmd = .commit) || decide (cmd = .abortUpdate)) && s.keep.openUpdate.isNone then keepNoUpdate
  else if decide (cmd = .begin) && s.keep.openUpdate.isSome then keepUpdateOpen
  else if needsPage && s.reclaim.keep.erasedPage.isNone then keepFull
  else if s.power == powerEntering || s.power == powerThermalOff then keepPower
  else if decide (cmd = .copy) && s.loadBytes < max 1 len then keepNoBuffer
  else 0

/-- A command is refused with a result. -/
def State.keepRefused (s : State) (code : Nat) : State := (s.put Reg.KEEP.STATUS.result code).put Reg.KEEP.STATUS.done 1

/-- A command of KEEP.CMD, none for an unknown one. -/
def State.keepCmd (s : State) (cmd : Option KeepCmd) : State :=
  if s.keep.running.isSome then s.put Reg.KEEP.STATUS.cmd_lost 1
  else
    let s := s.put Reg.KEEP.STATUS.done 0
    match cmd with
    | none => s.keepRefused (if s.power == powerEntering || s.power == powerThermalOff then keepPower else keepCommand)
    | some c =>
      let code := s.keepRefusal c
      if code != 0 then s.keepRefused code
      else
        let s := if decide (c = .program) && s.get Reg.KEEP.ADDR.area == 4 || decide (c = .commit) then s.reclaim else s
        let job : KeepJob := { cmd := c, area := s.get Reg.KEEP.ADDR.area, page := s.get Reg.KEEP.ADDR.page, len := s.get Reg.KEEP.LEN.bytes,
                               data := s.keepBuffer }
        let s : State := { s with keep := { s.keep with running := some job } }
        s.put Reg.KEEP.STATUS.busy 1

/-- A command through a channel. -/
def State.keepAsk (s : State) (t ch : Nat) (c : KeepCmd) : State := s.hostCmd t ch Reg.KEEP.CMD.word.addr fun s => s.keepCmd (some c)

/-- KEEP_READ (R681). -/
def execKeepRead (t : Nat) (ch : Channel) (s : State) : Host.Outcome State Fault Refusal := finish (s.keepAsk t ch.val .read)

/-- PROGRAM (R681). -/
def execProgram (t : Nat) (ch : Channel) (s : State) : Host.Outcome State Fault Refusal := finish (s.keepAsk t ch.val .program)

/-- BEGIN (R681). -/
def execKeepBegin (t : Nat) (ch : Channel) (s : State) : Host.Outcome State Fault Refusal := finish (s.keepAsk t ch.val .begin)

/-- COMMIT (R678). -/
def execKeepCommit (t : Nat) (ch : Channel) (s : State) : Host.Outcome State Fault Refusal := finish (s.keepAsk t ch.val .commit)

/-- ABORT_UPDATE (R681). -/
def execAbortUpdate (t : Nat) (ch : Channel) (s : State) : Host.Outcome State Fault Refusal := finish (s.keepAsk t ch.val .abortUpdate)

/-- ERASE_SLOT (R681). -/
def execEraseSlot (t : Nat) (ch : Channel) (s : State) : Host.Outcome State Fault Refusal := finish (s.keepAsk t ch.val .eraseSlot)

/-- COPY (R681). -/
def execCopy (t : Nat) (ch : Channel) (s : State) : Host.Outcome State Fault Refusal := finish (s.keepAsk t ch.val .copy)

/-- The pages of a COPY: the load buffer from its start, the last page filled up with what follows there. -/
def State.copyPages (s : State) (n : Nat) : List (List Byte) := (List.range n).map fun i => s.allocRead kindLoad (256 * i) 256

/-- What READ finds. The system area's layout, and what fills a log page or an erased tagged page, are not stated: free bytes (DESIGN CHOICE, log
entry 12). -/
def State.keepPageRead (s : State) (area page : Nat) : List Byte × State :=
  let drawn := s.freeBytes 248
  let drew : State := { s with free := s.free + 248 }
  let tag := List.replicate 8 (0 : Byte)
  if area ≤ 1 then (s.keep.readRaw area page, s)
  else if area = 4 then
    match s.keep.selected page with
    | some p => (p.data ++ tag, s)
    | none => (drawn ++ tag, drew)
  else if area = 3 then
    match s.keep.logAt page with
    | some l =>
      let bs := (l.map fun r => ((r.words).map fun w => leBytes 4 w.toNat).flatten).flatten
      (bs ++ drawn.drop bs.length ++ tag, drew)
    | none => (drawn ++ tag, drew)
  else (drawn ++ tag, drew)

/-- What a command does once it is complete. -/
def State.keepEffect (s : State) (j : KeepJob) : State :=
  match j.cmd with
  | .read =>
    let r := s.keepPageRead j.area j.page
    r.2.setKeepBuffer r.1
  | .program =>
    if j.area ≤ 1 then { s with keep := s.keep.programRaw j.area j.page [j.data] } else s.programSnap j.page false (j.data.take 248)
  | .begin =>
    let n := (s.keep.snapSeq + 1) % 2 ^ 32
    ({ s with keep := { s.keep with snapSeq := n, openUpdate := some n } } : State).put Reg.KEEP.UPDATE.word n
  | .commit =>
    match s.keep.openUpdate with
    | some seq =>
      let s := s.programSnap 0xFFFF true (s.keep.commitData seq)
      { s with keep := { s.keep with openUpdate := none } }
    | none => s
  | .abortUpdate => { s with keep := { s.keep with openUpdate := none } }
  | .eraseSlot => s.eraseSectors j.area 96
  | .copy => { s with keep := s.keep.programRaw j.area j.page (s.copyPages (ceilDiv j.len 256)) }

/-- The command is over, with a result. -/
def State.keepOver (s : State) (code : Nat) : State :=
  let s : State := { s with keep := { s.keep with running := none } }
  ((s.put Reg.KEEP.STATUS.busy 0).put Reg.KEEP.STATUS.result code).put Reg.KEEP.STATUS.done 1

/-- KEEP_CMD_DONE: the command in progress completes. -/
def State.keepDone (s : State) : State :=
  match s.keep.running with
  | some j => (s.keepEffect j).keepOver 0
  | none => s

/-- KEEP_CMD_DONE (R682). -/
def execKeepCmdDone (t : Nat) (s : State) : Host.Outcome State Fault Refusal := finish (s.atTime t).keepDone

/-- A shutdown: the page being programmed completes, and a command of several stops between them (R591). -/
def State.keepShutdown (s : State) : State :=
  match s.keep.running with
  | none => s
  | some j =>
    let n := Config.keepStopped s.free
    match j.cmd with
    | .copy =>
      let pages := s.copyPages (ceilDiv j.len 256)
      ({ s with keep := s.keep.programRaw j.area j.page (pages.take n), free := s.free + 1 } : State).keepOver keepPower
    | .eraseSlot => ({ s.eraseSectors j.area (min 96 n) with free := s.free + 1 } : State).keepOver keepPower
    | _ => s.keepDone

end Sys2Proof.Machine
end

