-- ==== Sys2Proof/Machine/Security.lean ====
section
/-!
DEFINITION. Keys, OTP and debug (R684 to R688).
-/

namespace Sys2Proof.Machine

open Sys2Proof

/-- The results of SECURITY.STATUS. -/
def secLocked : Nat := 1
def secLastKey : Nat := 2
def secChannel : Nat := 3
def secToken : Nat := 4
def secNonce : Nat := 5
def secKey : Nat := 6
def secSig : Nat := 7
def secCommand : Nat := 8
def secBusy : Nat := 9

/-- The customer words of the revocations and of the locks. -/
def otpRevoked : Nat := 0x30
def otpLocks : Nat := 0x31

/-- jtag_lock, hash_final, sxm_key_lock. -/
def State.otpLock (s : State) (i : Nat) : Bool := bit (s.otpWord otpLocks).toNat i

/-- SECURITY.STATUS shows what the OTP and the keep hold. -/
def State.showSecurity (s : State) : State :=
  let s := s.put Reg.SECURITY.STATUS.programmed (sumNat ((List.range 4).map fun k => b2n (s.keyProgrammed k) * 2 ^ k))
  let s := s.put Reg.SECURITY.STATUS.revoked (getBits (s.otpWord otpRevoked) 0 4)
  let s := s.put Reg.SECURITY.STATUS.locks (getBits (s.otpWord otpLocks) 0 3)
  let s := s.put Reg.SECURITY.STATUS.sxm_keys (sumNat ((List.range 4).map fun k => b2n (s.keep.sxmKeys.getD k none).isSome * 2 ^ k))
  s.putB Reg.SECURITY.STATUS.jtag_open s.sec.jtagOpen

/-- OTP_PROGRAM's refusal, 0 for none (R684). -/
def State.otpRefusal (s : State) (word : Nat) (bits : Word) : Nat :=
  let revoked := getBits (s.otpWord otpRevoked) 0 4
  let new := revoked ||| getBits bits 0 4
  if word < 48 && (s.otpLock 1 || s.keyRevoked (word / 12)) then secLocked
  else if word = otpRevoked && new != revoked && !((List.range 4).any fun k => s.keyProgrammed k && !new.testBit k) then secLastKey
  else 0

/-- SXM_KEY_STORE and SXM_KEY_CLEAR are locked (R686). -/
def State.sxmLocked (s : State) : Bool := s.otpLock 2 && s.imageLocked

/-- The key that SXM_KEY_DATA holds; words that were not written are undefined (DESIGN CHOICE, log entry 10). -/
def State.keyWritten (s : State) : List Byte :=
  let bs := (s.sec.keyData.map fun w => leBytes 4 w.toNat).flatten
  bs ++ s.freeBytes (32 - bs.length)

/-- A command is refused with a result; done sets. -/
def State.secRefused (s : State) (code : Nat) : State := (s.put Reg.SECURITY.STATUS.result code).put Reg.SECURITY.STATUS.done 1

/-- A command of SECURITY.CMD by its code: BUSY leaves the command in progress alone; no command is taken from a channel but 0 (R684,
R686). -/
def State.secCmd (s : State) (ch code slot : Nat) : State :=
  if s.sec.running.isSome then s.put Reg.SECURITY.STATUS.result secBusy
  else
    let s := s.put Reg.SECURITY.STATUS.done 0
    let go := fun (c : SecCmd) => ({ s with sec := { s.sec with running := some c } } : State).put Reg.SECURITY.STATUS.busy 1
    let word := s.get Reg.SECURITY.OTP_ADDR.word
    let bits := s.word Reg.SECURITY.OTP_DATA.word.addr
    if code < 1 || 5 < code then s.secRefused secCommand
    else if ch != 0 then s.secRefused secChannel
    else if code = 1 then (if s.otpRefusal word bits = 0 then go (.otpProgram word bits) else s.secRefused (s.otpRefusal word bits))
    else if code = 2 then go .nonce
    else if code = 3 then go (.unlock ((List.range 64).map fun k => leBytes 4 (s.get (Reg.SECURITY.TOKEN.word k))).flatten)
    else if s.sxmLocked then s.secRefused secLocked
    else if code = 4 then
      let key := s.keyWritten
      let s' := go (.keyStore slot key)
      { s' with sec := { s'.sec with keyData := [] }, free := s'.free + 32 }
    else go (.keyClear slot)

/-- A command through a channel. -/
def State.secAsk (s : State) (t ch code slot : Nat) : State := s.hostCmd t ch Reg.SECURITY.CMD.word.addr fun s => s.secCmd ch code slot

/-- OTP_PROGRAM (R684). -/
def execOtpProgram (t : Nat) (ch : Channel) (s : State) : Host.Outcome State Fault Refusal := finish (s.secAsk t ch.val 1 0)

/-- NONCE (R688). -/
def execNonce (t : Nat) (ch : Channel) (s : State) : Host.Outcome State Fault Refusal := finish (s.secAsk t ch.val 2 0)

/-- UNLOCK (R688). -/
def execUnlock (t : Nat) (ch : Channel) (s : State) : Host.Outcome State Fault Refusal := finish (s.secAsk t ch.val 3 0)

/-- SXM_KEY_STORE (R686). -/
def execSxmKeyStore (t : Nat) (ch : Channel) (slot : Fin 4) (s : State) : Host.Outcome State Fault Refusal :=
  finish (s.secAsk t ch.val 4 slot.val)

/-- SXM_KEY_CLEAR (R686). -/
def execSxmKeyClear (t : Nat) (ch : Channel) (slot : Fin 4) (s : State) : Host.Outcome State Fault Refusal :=
  finish (s.secAsk t ch.val 5 slot.val)

/-- The nonce registers. -/
def State.nonceBytes (s : State) : List Byte := ((List.range 4).map fun k => leBytes 4 (s.get (Reg.SECURITY.NONCE.word k))).flatten
def State.setNonce (s : State) (bs : List Byte) : State := s.forEach (List.range 4) fun k s => s.put (Reg.SECURITY.NONCE.word k) (leAt bs (4 * k) 4)

/-- The checks of UNLOCK in their order; 0 where all pass (R688). -/
def State.unlockCode (s : State) (token : List Byte) : Nat :=
  let pub := slice token 0x30 97
  if slice token 0 4 != [0x4A, 0x54, 0x4B, 0x4E] || !bit (leAt token 0x20 4) 0 || leAt token 8 8 != Config.uid.toNat then secToken
  else if !s.sec.nonceValid || slice token 0x10 16 != s.nonceBytes then secNonce
  else if !s.keyAccepts (leAt token 4 4) pub then secKey
  else if !signatureOk (slice token 0 0x94) pub (slice token 0x94 48) (slice token 0xC4 48) then secSig
  else 0

/-- Sessions keyed from a slot end (R686). -/
def State.endKeyed (s : State) (slot : Nat) : State :=
  s.forEach (List.range s.sessions.length) fun n s =>
    match s.session n with
    | some x => if x.keySlot = slot then s.endSession n else s
    | none => s

/-- What a command does once it is complete: its result. -/
def State.secEffect (s : State) : SecCmd → Nat × State
  | .otpProgram word bits => (0, { s with sec := { s.sec with otp := insertCell 0 word (s.otpWord word ||| bits) s.sec.otp } })
  | .nonce =>
    let bs := s.randomBytes 16
    let s := (s.drew 16).setNonce bs
    (0, { s with sec := { s.sec with nonceValid := true } })
  | .unlock token =>
    let code := s.unlockCode token
    let s := s.setNonce (List.replicate 16 0)
    (code, { s with sec := { s.sec with nonceValid := false, jtagOpen := s.sec.jtagOpen || code == 0 } })
  | .keyStore slot key => (0, { s with keep := { s.keep with sxmKeys := s.keep.sxmKeys.set slot (some key) } })
  | .keyClear slot => (0, ({ s with keep := { s.keep with sxmKeys := s.keep.sxmKeys.set slot none } } : State).endKeyed slot)

/-- SECURITY_CMD_DONE: the command in progress completes. -/
def State.secDone (s : State) : State :=
  match s.sec.running with
  | none => s
  | some c =>
    let r := s.secEffect c
    let s : State := { r.2 with sec := { r.2.sec with running := none } }
    ((s.showSecurity.put Reg.SECURITY.STATUS.busy 0).put Reg.SECURITY.STATUS.result r.1).put Reg.SECURITY.STATUS.done 1

/-- SECURITY_CMD_DONE (R684). -/
def execSecurityCmdDone (t : Nat) (s : State) : Host.Outcome State Fault Refusal := finish (s.atTime t).secDone

end Sys2Proof.Machine
end

