-- ==== Sys2Proof/Machine/Follow.lean ====
section
/-!
DEFINITION. What a write of a register brings about beside the value it stores (R7, R504, R651): by a host channel, and by a register
preset (R82); and what a write of the shared-memory window does (R89, R93, R98, R208, R289, R290, R506).
-/

namespace Sys2Proof.Machine

open Sys2Proof

/-! ### Storing (R7, R82, R504) -/

/-- The fields of a write by a host channel: RWS fields are staged, the others take effect at once (R504). -/
def State.hostStore (s : State) (ch a : Nat) (v : Word) : State :=
  (s.when (hasAccess a .rws) fun s => s.stage ch (.reg a v)).storeWord a v

/-- The fields of a preset: the image lock does not hold it back, and RWS fields take effect directly (R82; DEDUCED, log entry 39). -/
def State.presetStore (s : State) (a : Nat) (v : Word) : State :=
  let old := s.word a
  let w := (fieldsAt a).foldl (storeField false v) old
  let s := s.setWord a (s.legal s.hasParent (fun c => (s.planRec c).width) a old w)
  s.when (hasAccess a .rws) fun s => s.applyReg a v

/-- Who writes: a host channel, or the preset list of an image (none). -/
abbrev Writer := Option Nat

/-- Store the fields of a written word. -/
def State.stored (s : State) (w : Writer) (a : Nat) (v : Word) : State :=
  match w with
  | some ch => s.hostStore ch a v
  | none => s.presetStore a v

/-- The channel that writes; a preset of a register that is banked by channel has no effect (DEDUCED, log entry 39). -/
def State.byChannel (s : State) (w : Writer) (f : Nat → State → State) : State :=
  match w with
  | some ch => f ch s
  | none => s

/-! ### DEVICE, HOST, POWER, THERMAL, CLOCK -/

/-- HOLD_STATUS is banked: a 1 clears unpaired for the writing channel (R703). -/
def State.deviceWrite (s : State) (w : Writer) (a : Nat) (v : Word) : State :=
  if a = Reg.DEVICE.HOLD_STATUS.word.addr then
    s.byChannel w fun ch s => s.when (getBits v 0 1 == 1) fun s => s.modChan ch fun c => { c with unpaired := false }
  else s.stored w a v

/-- Ticks without an accepted REQUEST after which a session ends (R667). -/
def State.sxmIdle (s : State) : Nat := s.get Reg.HOST.SXM_CTL.idle * ticksPerSecond

/-- Sessions that have idled for the time in force end. -/
def State.idleSessions (s : State) : State :=
  s.forEach (List.range s.sessions.length) fun n s => match s.session n with
    | some x => s.when (x.lastAccept + s.sxmIdle ≤ s.now) fun s => s.endSession n
    | none => s

/-- A write of NOTIFY_MASK: a set bit that it newly shares with INT_STATUS makes a NOTIFY due; channel 0 ignores it (R668). -/
def State.maskWrite (s : State) (ch : Nat) (v : Word) : State :=
  if ch = 0 then s
  else
    let old := (s.chan ch).notifyMask
    let new := getBits v 0 8
    let s := s.modChan ch fun c => { c with notifyMask := new }
    if (new - (new &&& old)) &&& s.get Reg.HOST.INT_STATUS.word = 0 then s
    else match s.session (ch - 1) with
      | some x => s.setSession (ch - 1) (some { x with notifyDue := true })
      | none => s

/-- HOST registers; a reset that HOST.RESET asks for follows the response (R672) and is no part of the write. -/
def State.hostBlockWrite (s : State) (w : Writer) (a : Nat) (v : Word) : State :=
  if a = Reg.HOST.NOTIFY_MASK.word.addr then s.byChannel w fun ch s => s.maskWrite ch v
  else if a = Reg.HOST.SXM_CTL.word.addr then (s.stored w a v).idleSessions
  else s.stored w a v

/-- POWER registers. -/
def State.powerWrite (s : State) (w : Writer) (a : Nat) (v : Word) : State :=
  let s := s.stored w a v
  if a = Reg.POWER.MODE_CTL.word.addr then
    s.when (getBits v 2 1 == 1) fun s =>
      ({ s with free := s.free + 1 } : State).powerRequest (getBits v 0 2) (Config.assertedSources s.free % 128)
  else if a = Reg.POWER.RET_RELEASE.word.addr then s.retReleased v
  else if a = Reg.POWER.ENVELOPE.word.addr then s.showPEff
  else s

/-- CLOCK registers. -/
def State.clockWrite (s : State) (w : Writer) (a : Nat) (v : Word) : State :=
  if a = Reg.CLOCK.DITHER_CTL.word.addr then s.ditherWrite v
  else
    let s := s.stored w a v
    if a = Reg.CLOCK.REF_CTL.word.addr then s.chooseSource
    else if a = Reg.CLOCK.SYNC_CTL.word.addr then s.when (getBits v 4 1 == 1) State.alignNext
    else s.forEach [0, 1] fun b s =>
      s.when (a == (Reg.CLOCK.LO_CTL.word b).addr && getBits v 1 1 == 1) fun s => s.modBank b fun x => { x with relock := true }

/-! ### TXN, KEEP, SECURITY -/

/-- A write of TXN.CMD (R502, R514 to R516, R520). -/
def State.txnCommand (s : State) (ch : Nat) (v : Word) : State :=
  let n := getBits v 8 5
  let cmd := getBits v 0 4
  if cmd = 1 then s.txnOpen ch
  else if cmd = 2 then s.txnOpenArray ch
  else if cmd = 3 then s.txnPrepare ch n
  else if cmd = 4 then s.txnAbort ch n
  else if cmd = 5 then s.txnRelease ch n
  else s.txnDone ch resultCommand

/-- May a channel write SLOT_CTL of a slot? The owner alone, before PREPARE. -/
def State.slotCtlOpen (s : State) (ch n : Nat) : Bool :=
  let x := s.slot n
  x.state == txOpen && !x.preparing && x.owner == ch

/-- Flags of CH_STATUS cleared by a write. -/
def HostChan.clear (c : HostChan) (v : Word) : HostChan :=
  { c with limit := c.limit && getBits v 3 1 == 0, closed := c.closed && getBits v 2 1 == 0, rwsLost := c.rwsLost && getBits v 1 1 == 0,
           done := c.done && getBits v 0 1 == 0 }

/-- TXN registers. -/
def State.txnWrite (s : State) (w : Writer) (a : Nat) (v : Word) : State :=
  if a = Reg.TXN.CMD.word.addr then s.byChannel w fun ch s => s.txnCommand ch v
  else if a = Reg.TXN.BIND.word.addr then s.byChannel w fun ch s => s.txnBind ch v
  else if a = Reg.TXN.CH_STATUS.word.addr then s.byChannel w fun ch s => s.modChan ch fun c => c.clear v
  else match w with
    | none => s.stored w a v
    | some ch =>
      let n := (a - 0x60100) / 0x20
      if 0x60100 ≤ a && (a - 0x60100) % 0x20 == 0 && n < 20 then s.when (s.slotCtlOpen ch n) fun s => s.stored w a v
      else s.stored w a v

/-- KEEP registers. -/
def State.keepWrite (s : State) (w : Writer) (a : Nat) (v : Word) : State :=
  if a = Reg.KEEP.CMD.word.addr then
    s.byChannel w fun _ s => s.keepCmd ([none, some .read, some .program, some .begin, some .commit, some .abortUpdate, some .eraseSlot,
      some .copy].getD (getBits v 0 4) none)
  else s.stored w a v

/-- SECURITY registers: successive words of SXM_KEY_DATA form the key (R686). -/
def State.securityWrite (s : State) (w : Writer) (a : Nat) (v : Word) : State :=
  if a = Reg.SECURITY.CMD.word.addr then s.byChannel w fun ch s => s.secCmd ch (getBits v 0 4) (getBits v 4 2)
  else if a = Reg.SECURITY.SXM_KEY_DATA.word.addr then
    s.byChannel w fun _ s =>
      let l := s.sec.keyData ++ [v]
      { s with sec := { s.sec with keyData := l.drop (l.length - 8) } }
  else s.stored w a v

/-! ### PATH, GROUP, CARRIER, HALL -/

/-- A write of CAL_CMD (R167, R173): the answers of the group's slaves to the check scripts are free (log entry 38). -/
def State.calWrite (s : State) (p : Nat) (v : Word) : State :=
  let code := getBits v 0 4
  if code = 0 then s
  else if code = 15 then s.calCancelled p
  else
    let answers := fun k => ((List.range 8).map fun i => s.femReplies (8 * k + i)).flatten
    ({ s with free := s.free + 2048 } : State).calRequest p code (answers 0) (answers 1)

/-- PATH registers; the host mute waits for an update point (R120). -/
def State.pathWrite (s : State) (w : Writer) (p o a : Nat) (v : Word) : State :=
  if o = 0x018 then s.byChannel w fun _ s => s.calWrite p v
  else
    let s := s.stored w a v
    s.when (o == 0 && getBits v 8 1 == 1) fun s => s.retire p 6

/-- GROUP registers. -/
def State.groupWrite (s : State) (w : Writer) (g o a : Nat) (v : Word) : State :=
  if o = 0x30C then s.dpdModeWrite g v
  else
    let before := s
    let s := s.stored w a v
    if o = 0x018 then s.blankFollow before
    else if o = 0x314 then
      let s := (s.showCaptureFit).when (getBits v 7 1 == 1) fun s => s.obsRelearn g
      s.when (getBits v 6 1 == 1) fun s => s.obsRequest g (getBits v 0 3)
    else if o = 0x318 then s.when (s.obsPeriod g != before.obsPeriod g) fun s => s.obsRebase g (before.obsPeriod g)
    else s

/-- CAP_CTL: a cancel ends the capture that is armed, and an arm follows it (R266). -/
def State.captureWrite (s : State) (w : Writer) (v : Word) : State :=
  let s := s.when (getBits v 1 1 == 1 && s.cap.armed) fun s => s.capStop capCancelled
  if getBits v 0 1 == 1 then s.capArm v else s.stored w Reg.CARRIER.CAP_CTL.word.addr v

/-- HALL registers. -/
def State.hallWrite (s : State) (w : Writer) (h o a : Nat) (v : Word) : State :=
  if o = 0x010 then s.mboxIn h v
  else if o = 0x01C then s.dmWrite h v
  else s.stored w a v

/-! ### FRONTHAUL, STAIR, OTA -/

/-- A write of LANE_TEST: one that selects PRBS, injection, loopback or the checker outside TEST is discarded (R418); in TEST the
loopback joins the ends of the lane (R419). -/
def State.laneTest (s : State) (w : Writer) (lane a : Nat) (v : Word) : State :=
  let selects := getBits v 28 4 != 0 || getBits v 26 2 != 0 || getBits v 16 5 != 0 || getBits v 3 1 == 1 || getBits v 0 1 == 1
  if selects && !s.laneInTest lane then s.put (Reg.FRONTHAUL.LANE_TEST.refused lane) 1
  else
    let s := s.stored w a v
    let s := s.when (s.laneInTest lane) fun s => s.emit (.laneLoop lane (s.laneDrives lane) (s.laneHears lane))
    let s := s.when (getBits v 3 1 == 1) fun s => s.injectError lane
    s.when (getBits v 0 1 == 0) fun s => s.put (Reg.FRONTHAUL.LANE_TEST.chk_lock lane) 0

/-- PTP_CTL: masters heard in another domain are forgotten (R410). -/
def State.ptpWrite (s : State) (w : Writer) (a : Nat) (v : Word) : State :=
  let old := s.get Reg.FRONTHAUL.PTP_CTL.domain
  let s := s.stored w a v
  let s : State := if s.get Reg.FRONTHAUL.PTP_CTL.domain = old then s else { s with fh := { s.fh with masters := List.replicate 8 none } }
  s.chooseSource

/-- A provisional entry is confirmed (R396). -/
def State.confirmEntry (s : State) (n : Nat) : State :=
  if s.ptState n == ptProvisional then (s.put (Reg.FRONTHAUL.PT_CTL.valid n) 1).put (Reg.FRONTHAUL.PT_STATUS.state n) ptActive else s

/-- FRONTHAUL registers. -/
def State.fronthaulWrite (s : State) (w : Writer) (a : Nat) (v : Word) : State :=
  let o := a - 0x400000
  if o = 0x014 then s.ptpWrite w a v
  else if 0x400 ≤ o && o < 0x500 && (o - 0x400) % 0x20 == 8 then s.laneTest w ((o - 0x400) / 0x20) a v
  else
    let s := s.stored w a v
    if 0x100 ≤ o && o < 0x300 && (o - 0x100) % 0x40 == 0 then s.fhControl ((o - 0x100) / 0x40)
    else if 0x1000 ≤ o && o < 0x1800 && (o - 0x1000) % 0x20 == 0xC then
      s.when (getBits v 30 1 == 1) fun s => s.confirmEntry ((o - 0x1000) / 0x20)
    else s

/-- PORT_CTL of a stair port: enable, then retrain, then wake (R438, R441, R469). -/
def State.stairControl (s : State) (w : Writer) (n a : Nat) (v : Word) : State :=
  let s := (s.stored w a v).portControl n
  let s := s.when (getBits v 1 1 == 1) fun s => s.retrain n
  let st := s.sState n
  s.when (getBits v 3 1 == 1 && (st == spSleep || st == spListen || st == spHoldoff)) fun s => s.portWake n

/-- STAIR registers. -/
def State.stairWrite (s : State) (w : Writer) (a : Nat) (v : Word) : State :=
  let o := a - 0x480000
  if 0x040 ≤ o && o < 0x060 then s.writeMask ((o - 0x040) / 4) v
  else if 0x100 ≤ o && o < 0x200 && (o - 0x100) % 0x40 == 0 then s.stairControl w ((o - 0x100) / 0x40) a v
  else if 0x400 ≤ o && o < 0x600 && (o - 0x400) % 0x20 == 0 then s.writeTaps ((o - 0x400) / 0x20) v
  else s.stored w a v

/-- OTA registers. -/
def State.otaWrite (s : State) (w : Writer) (a : Nat) (v : Word) : State :=
  let s := s.stored w a v
  if a = Reg.OTA.CMD.word.addr then
    let s := s.when (getBits v 1 1 == 1) fun s => s.put Reg.OTA.STATUS.staged 0
    s.when (getBits v 0 1 == 1) State.startRound
  else s

/-! ### Every block but the commands of IMAGE.CTL -/

/-- A write of a register at an address (R694). An undefined offset ignores it. -/
def State.blockWrite (s : State) (w : Writer) (a : Nat) (v : Word) : State :=
  let o := a % 0x1000
  if (fieldsAt a).isEmpty then s
  else if a < 0x10000 then s.deviceWrite w a v
  else if a < 0x20000 then s.hostBlockWrite w a v
  else if a < 0x30000 then s.powerWrite w a v
  else if a < 0x38000 then s.hkWrite a v
  else if a < 0x40000 then (s.stored w a v).showPEff
  else if a < 0x50000 then s.trimWritten a v
  else if a < 0x60000 then s.clockWrite w a v
  else if a < 0x70000 then s.txnWrite w a v
  else if a < 0x81000 then s.stored w a v
  else if a < 0x82000 then s.keepWrite w a v
  else if a < 0x83000 then s.securityWrite w a v
  else if a < 0x140000 then s.pathWrite w ((a - 0x100000) / 0x1000) o a v
  else if a < 0x148000 then s.groupWrite w ((a - 0x140000) / 0x1000) o a v
  else if a = Reg.CARRIER.CAP_CTL.word.addr then s.captureWrite w v
  else if 0x300000 ≤ a && a < 0x390000 then s.hallWrite w ((a - 0x300000) / 0x1000) o a v
  else if 0x400000 ≤ a && a < 0x410000 then s.fronthaulWrite w a v
  else if 0x480000 ≤ a && a < 0x490000 then s.stairWrite w a v
  else if 0x500000 ≤ a && a < 0x510000 then s.otaWrite w a v
  else s.stored w a v

/-! ### The shared-memory window -/

/-- The path and the bank of its tables in which a window offset lies (R205). -/
def State.tableAt (s : State) (off : Nat) : Option (Nat × Nat) :=
  match s.placeIn kindDpd off with
  | some o => if o < dpdPlace 64 0 then some (o / dpdPlace 1 0, o % dpdPlace 1 0 / dpdBytes) else none
  | none => none

/-- LOAD or VERIFY is reading the load buffer (R93). -/
def State.readsBuffer (s : State) : Bool :=
  match s.image.cmd with
  | some .load => s.image.candidate.isNone
  | some .verify => true
  | _ => false

/-- A write into the load buffer (R93, R98). -/
def State.bufferWrite (s : State) (off : Nat) (bytes : List Byte) : State :=
  if s.readsBuffer then s.put Reg.IMAGE.STATUS.buf_write_lost 1
  else
    let s := (s.memWrite off bytes).put Reg.IMAGE.STATUS.partial_ready 0
    { s with image := { s.image with ready := none } }

/-- A window write of one word outside any transaction, by a host or by a preset: by the rules of the allocation it lies in. -/
def State.windowDirect (s : State) (off : Nat) (v : Word) : State :=
  let bytes := leBytes 4 v.toNat
  let b := off / bankBytes
  if s.bankLost b || (s.image.running.isNone && 12 ≤ b) then s
  else if (s.placeIn kindLoad off).isSome then s.bufferWrite off bytes
  else match s.placeIn kindBeam off with
    | some o =>
      if s.entryHeld (o / 256) (s.entryStaged (o / 256)) then (s.bump Reg.BEAM.WRITE_LOST.word).put Reg.BEAM.STATUS.write_lost 1
      else s.memWrite off bytes
    | none =>
      match s.tableAt off with
      | some x => if s.dpdWriteLost x.1 x.2 then s.put (Reg.PIPE.DPD_STATUS.write_lost x.1) 1 else s.memWrite off bytes
      | none => s.memWrite off bytes

/-- A window write of one word by a channel: in the beam table a bound channel stages it (R506). -/
def State.windowWord (s : State) (ch off : Nat) (v : Word) : State :=
  let b := off / bankBytes
  if !s.bankLost b && (s.placeIn kindBeam off).isSome && (s.chan ch).bound && s.image.running.isSome then
    s.stage ch (.window off (leBytes 4 v.toNat))
  else s.windowDirect off v

/-- A window write of successive words: one that lies in the beam table whole and comes from a bound channel is one entry of its own
length (R506). -/
def State.windowWords (s : State) (ch off : Nat) (ws : List Word) : State :=
  let inTable := (List.range ws.length).all fun i =>
    (s.placeIn kindBeam (off + 4 * i)).isSome && !s.bankLost ((off + 4 * i) / bankBytes)
  if inTable && (s.chan ch).bound && !ws.isEmpty then
    s.stage ch (.window off ((ws.map fun w => leBytes 4 w.toNat).flatten))
  else s.forEach ((List.range ws.length).zip ws) fun e s => s.windowWord ch (off + 4 * e.1) e.2

end Sys2Proof.Machine
end

