-- ==== Sys2Proof/Machine/Image.lean ====
section
/-!
DEFINITION. The commands of IMAGE.CTL (R91 to R98, R110 to R113) and the installation of a full image (R82, R92, R206, R288, R318, R394,
R449, R551, R570, R603).
-/

namespace Sys2Proof.Machine

open Sys2Proof

/-! ### Where images come from (R83, R86, R91) -/

/-- The bytes that a keep slot supplies: none where its first page is erased (DESIGN CHOICE, log entry 12). -/
def Keep.slotImage (k : Keep) (slot : Nat) : List Byte :=
  match k.rawPage slot 0 with
  | some page => k.slotBytes slot (max 256 (min 1572864 (imgLen page)))
  | none => []

/-- The bytes that the load buffer supplies. -/
def State.bufferImage (s : State) : List Byte :=
  let head := s.allocRead kindLoad 0 (min 256 s.loadBytes)
  s.allocRead kindLoad 0 (min s.loadBytes (max 256 (imgLen head)))

/-- What runs once a full image is installed (R107). -/
def imageRunning (im : List Byte) : Running := { serial := imgSerial im, digest := imgDigest im, sections := imgSections im, live := false }

/-- The codes of IMAGE.STATUS.state, and its source "none". -/
def imageNone : Nat := 0
def imageBooting : Nat := 1
def imageRunningCode : Nat := 2
def imageRestarting : Nat := 3
def sourceNone : Nat := 3

/-- The running image is on trial: a trial that has started, of the slot that it came from (R86, R112). -/
def State.onTrial (s : State) : Bool :=
  let r := s.keep.slotRec
  r.trial && r.trialStarted && s.get Reg.IMAGE.STATUS.source == r.preferred

/-- IMAGE shows the load buffer, the floor and the trial. -/
def State.showImage (s : State) : State :=
  let s := s.showRunning.put Reg.IMAGE.LOAD_BUF.word (s.allocAddr kindLoad 0)
  (s.put Reg.IMAGE.FLOOR.word s.keep.slotRec.floor).putB Reg.IMAGE.STATUS.trial s.onTrial

/-! ### Installation -/

/-- A field of the energy policy. -/
def State.energyField (s : State) (off n : Nat) : Nat := leAt (s.sectionBytes secEnergy) off n

/-- Store the fields of one register that the energy policy loads, at the nearer limit where a value is out of range. -/
def State.policyLoad (s : State) (a : Nat) (l : List (Fld × Nat)) : State :=
  let w := l.foldl (fun w e => setBits w e.1.lo e.1.width e.2) (s.word a)
  s.setWord a (s.legal s.hasParent (fun c => (s.planRec c).width) a (s.word a) w)

/-- The registers that the energy policy loads (R551, R562, R570). -/
def State.loadEnergy (s : State) : State :=
  let s := s.policyLoad Reg.POWER.ENVELOPE.word.addr [(Reg.POWER.ENVELOPE.word, s.energyField 0x00 4)]
  let s := s.policyLoad Reg.POWER.BUCKET_DEPTH.word.addr [(Reg.POWER.BUCKET_DEPTH.depth, s.energyField 0x04 2)]
  let s := s.policyLoad Reg.POWER.SPEED_CTL.word.addr [(Reg.POWER.SPEED_CTL.margin, s.energyField 0x06 1)]
  let s := s.policyLoad Reg.POWER.V_LIMITS.word.addr
    [(Reg.POWER.V_LIMITS.v_max, s.energyField 0x0A 2), (Reg.POWER.V_LIMITS.v_min, s.energyField 0x08 2)]
  let s := s.policyLoad Reg.THERMAL.THROTTLE.word.addr
    [(Reg.THERMAL.THROTTLE.k, s.energyField 0x0C 2), (Reg.THERMAL.THROTTLE.floor, s.energyField 0x0E 1)]
  s.showPEff.showBlocked

/-- Every entry of the beam table is zero and invalid, every pre-distortion table zero (R206, R288). -/
def State.clearTablesAll (s : State) : State :=
  let s := s.forEach (s.banksOf kindBeam) fun b s => { s with mem := Memory.clear s.mem (b * bankBytes) bankBytes }
  let s := s.forEach (s.banksOf kindDpd) fun b s => { s with mem := Memory.clear s.mem (b * bankBytes) bankBytes }
  s.forEach (List.range 64) fun p s => s.put (Reg.PIPE.DPD_TABLE.word p) (s.allocAddr kindDpd (dpdPlace p 0))

/-- The banks are tuned to the plan: at once while they are off, else at their boundary (R77, R154). -/
def State.tuneBanks (s : State) : State :=
  let plan := s.sectionBytes secCarriers
  s.forEach [0, 1] fun b s =>
    let f := planCentre plan b
    if s.loState b == loOff then s.modBank b fun x => { x with freq := f, retune := none }
    else s.modBank b fun x => { x with retune := if x.freq = f then none else some f }

/-- The presets, in list order (R82). -/
def State.applyPresets (s : State) : State :=
  s.forEach (presetPairs (s.sectionBytes secPresets)) fun e s =>
    if inWindow e.1 then s.windowDirect (e.1 - windowBase) e.2 else s.blockWrite none e.1 e.2

/-- Array time starts at 0 at the first installation after a full reset (R603). -/
def State.startTime (s : State) : State :=
  if s.clock.started then s
  else { s with clock := { s.clock with started := true, offset := -(s.now : Int) } }

/-- The carriers of the plan become due; none starts before ready (R250, R674). -/
def State.dueCarriers (s : State) : State :=
  let a := s.arrayNow
  s.forEach (List.range 8) fun c s =>
    let r := s.planRec c
    (if r.enable then s.dueStart c a r else s.showForm c).showLatency c

/-- Paths stay retired until full reset (R178). -/
def State.keepRetired (s : State) (retired : List (Nat × Nat)) : State :=
  s.forEach retired fun e s =>
    ((s.put (Reg.PATH.STATUS.state e.1) pathRetired).put (Reg.PATH.STATUS.retire_cause e.1) e.2).setMute e.1 muteRetired true

/-- A full image is installed: sections, then presets, then INIT on the buses and what the carriers need (R82, R85, R149). -/
def State.installImage (s : State) (r : Running) (source : Nat) : State :=
  let s : State := { s with image := { s.image with running := some r, ready := none, candidate := none } }
  let s := ((s.put Reg.IMAGE.STATUS.source source).put Reg.IMAGE.STATUS.partial_ready 0).showImage
  let s := s.startTime.startHalls.clearTablesAll.loadEnergy.tuneBanks
  let s := (s.pathPlan.loadPartners).applyPresets
  let wanted := s.get Reg.FRONTHAUL.MODE.ports
  let s : State := { s with fh := { s.fh with layout := wanted } }
  let s := (s.banksFollow.muteByLo 0).muteByLo 1
  let s := s.treeInstall.chooseSource.dueCarriers
  (s.showCaptureFit.showSrs).initBegins

/-- Registers and internal state of the blocks that the image configures return to reset (R92). -/
def State.clearBlocks (s : State) : State :=
  let retired := ((List.range 64).filter fun p => s.pathState p == pathRetired).map fun p => (p, s.get (Reg.PATH.STATUS.retire_cause p))
  let s := s.resetRange 0x100000 0x50FFFF
  let s : State := { s with
    carriers := List.replicate 8 CarrierState.off
    cap := State.reset.cap
    obs := List.replicate 8 ObsGroup.reset
    obsPath := List.replicate 64 ObsPath.reset
    gates := []
    txBlocks := []
    beam := BeamState.reset
    fh := FhState.reset
    flits := []
    routers := []
    stair := StairState.reset
    ota := OtaState.reset
    radio := { s.radio with paths := List.replicate 64 PathState.reset, femReady := List.replicate 64 false, blankedAt := List.replicate 8 none,
                            blankSpans := [], blankTx := [], blankRx := [], initAt := none, initDone := List.replicate 8 false,
                            femDue := List.replicate 8 none }
    recov := { s.recov with invalid := [], clears := [], zeroed := [] }
    timers := s.timers.filter fun e => match e.1 with
      | .cal _ => false
      | _ => true }
  s.keepRetired retired

/-! ### Commands (R91, R98, R110 to R113) -/

/-- A command is over: code and section first, then done (R113). -/
def State.imageOver (s : State) (code section_ : Nat) : State :=
  let s : State := { s with image := { s.image with cmd := none } }
  let s := (s.put Reg.IMAGE.STATUS.code code).put Reg.IMAGE.STATUS.section section_
  (s.put Reg.IMAGE.STATUS.busy 0).put Reg.IMAGE.STATUS.done 1

/-- IMAGE.CTL takes commands: awake, and no boot in progress (R573; DEDUCED, log entry 40). -/
def State.imageOpen (s : State) : Bool := !s.away && (decide (s.boot.phase = .ready) || decide (s.boot.phase = .noImage))

/-- Is a command allowed in the present state (R97, R111, R112)? RAISE_FLOOR has no serial to take while no image runs, and is refused
(DESIGN CHOICE, log entry 76). -/
def State.imageAllowed (s : State) (cmd slot : Nat) : Bool :=
  s.imageOpen &&
    if cmd = 1 || cmd = 2 then s.loadBytes != 0
    else if cmd = 3 then s.flag Reg.IMAGE.STATUS.trial
    else if cmd = 4 then (match s.image.running with
      | some r => !r.live
      | none => false)
    else if cmd = 5 then true
    else if cmd = 6 then s.keep.slotRec.preferred != slot
    else cmd = 7

/-- The slot record that a command writes (R111, R112). -/
def State.newSlotRecord (s : State) (cmd slot : Nat) : SlotRecord :=
  let r := s.keep.slotRec
  if cmd = 3 then { r with trial := false, trialStarted := false }
  else if cmd = 4 then { r with floor := (s.image.running.map fun x => x.serial).getD r.floor }
  else if cmd = 5 then { r with preferred := slot, trial := false, trialStarted := false }
  else { r with preferred := slot, trial := true, trialStarted := false }

/-- What a command starts. -/
def State.imageBegin (s : State) (cmd slot : Nat) : State :=
  let start := fun (c : ImageCmd) => ({ s with image := { s.image with cmd := some c } } : State)
  if cmd = 1 then start .load
  else if cmd = 2 then start .verify
  else if cmd = 7 then (s.put Reg.IMAGE.STATUS.locked 1).imageOver codeOk 0xFF
  else start (.slotUpdate (s.newSlotRecord cmd slot))

/-- A write of IMAGE.CTL. -/
def State.imageCommand (s : State) (cmd slot : Nat) : State :=
  if cmd = 0 then s
  else if s.flag Reg.IMAGE.STATUS.busy then s.put Reg.IMAGE.STATUS.cmd_lost 1
  else
    let s := (s.put Reg.IMAGE.STATUS.done 0).put Reg.IMAGE.STATUS.busy 1
    if s.imageAllowed cmd slot then s.imageBegin cmd slot else s.imageOver codeCommand 0xFF

/-- A command of IMAGE.CTL through a channel. -/
def State.imageAsk (s : State) (t ch cmd slot : Nat) : State := s.hostCmd t ch Reg.IMAGE.CTL.word.addr fun s => s.imageCommand cmd slot

/-- LOAD (R91). -/
def execLoad (t : Nat) (ch : Channel) (s : State) : Host.Outcome State Fault Refusal := finish (s.imageAsk t ch.val 1 0)

/-- VERIFY (R98). -/
def execVerify (t : Nat) (ch : Channel) (s : State) : Host.Outcome State Fault Refusal := finish (s.imageAsk t ch.val 2 0)

/-- CONFIRM (R112). -/
def execConfirm (t : Nat) (ch : Channel) (s : State) : Host.Outcome State Fault Refusal := finish (s.imageAsk t ch.val 3 0)

/-- RAISE_FLOOR (R111). -/
def execRaiseFloor (t : Nat) (ch : Channel) (s : State) : Host.Outcome State Fault Refusal := finish (s.imageAsk t ch.val 4 0)

/-- PREFER (R112). -/
def execPrefer (t : Nat) (ch : Channel) (slot : Fin 2) (s : State) : Host.Outcome State Fault Refusal :=
  finish (s.imageAsk t ch.val 5 slot.val)

/-- TRY (R112). -/
def execTryCmd (t : Nat) (ch : Channel) (slot : Fin 2) (s : State) : Host.Outcome State Fault Refusal :=
  finish (s.imageAsk t ch.val 6 slot.val)

/-- LOCK (R95). -/
def execLock (t : Nat) (ch : Channel) (s : State) : Host.Outcome State Fault Refusal := finish (s.imageAsk t ch.val 7 0)

/-! ### Completion -/

/-- A VERIFY is complete (R98). -/
def State.partialVerified (s : State) : State :=
  let im := s.bufferImage
  let r := s.checkImage true im
  let ok := r.1 == codeOk
  let ready : Option Partial := if ok then some { serial := imgSerial im, digest := imgDigest im, sections := imgSections im } else none
  let s : State := { s with image := { s.image with ready := ready } }
  (s.putB Reg.IMAGE.STATUS.partial_ready ok).imageOver r.1 r.2

/-- The verification of a LOAD is complete: a failure disturbs nothing (R91); after a success the carriers stop and every OPEN and
PREPARED transaction is aborted (R92). -/
def State.loadVerified (s : State) : State :=
  let im := s.bufferImage
  let r := s.checkImage false im
  if r.1 != codeOk then s.imageOver r.1 r.2
  else
    let s : State := { s with image := { s.image with candidate := some (imageRunning im), lockOnLoad := imgLockOnLoad im } }
    let s := s.forEach ((List.range 8).filter fun c => s.carState c != carrierOff) fun c s => s.decideStop c s.arrayNow none
    s.txnAbortAll [txOpen, txPrepared] causeLoad

/-- VERIFY_DONE: the verification in progress is complete. -/
def State.verifyOver (s : State) : State :=
  if s.power == powerThermalOff || s.power == powerWakeFailed then s
  else match s.image.cmd with
  | some .verify => s.partialVerified
  | some .load => if s.image.candidate.isSome then s else s.loadVerified
  | _ => s

/-- VERIFY_DONE (R113). -/
def execVerifyDone (t : Nat) (s : State) : Host.Outcome State Fault Refusal := finish (s.atTime t).verifyOver

/-- LOAD installs what it has verified, once the carriers have stopped; it is over, and done sets, once the image runs (R92, R94, R95, R113). -/
def State.loadInstalled (s : State) (r : Running) : State :=
  let lock := s.image.lockOnLoad
  let s := s.applyBoundary none
  let s : State := { s with txn := { s.txn with commits := [] } }
  let s := s.endSessions
  let s : State := { s with chans := s.chans.map fun (c : HostChan) => { c with hold := none, pendingHigh := none } }
  let s := (s.clearBlocks.put Reg.IMAGE.STATUS.state imageRestarting)
  let s : State := { s with boot := { s.boot with phase := .booting } }
  let s := s.installImage r sourceDirect
  let s := s.when (!s.flag Reg.HOST.BOOT_STATUS.ready) fun s => s.put Reg.HOST.BOOT_STATUS.step 8
  { s.when lock fun s => s.put Reg.IMAGE.STATUS.locked 1 with image := { s.image with cmd := some .restart } }

/-- LOAD_INSTALL: verification comes first where it is not complete yet. -/
def State.loadInstall (s : State) : State :=
  match s.image.cmd with
  | some .load =>
    let s := s.verifyOver
    match s.image.candidate with
    | some r => if s.activeCarriers.isEmpty then s.loadInstalled r else s
    | none => s
  | _ => s

/-- LOAD_INSTALL (R92). -/
def execLoadInstall (t : Nat) (s : State) : Host.Outcome State Fault Refusal := finish (s.atTime t).loadInstall

/-- The slot record holds what a command wrote. -/
def State.slotRecorded (s : State) (r : SlotRecord) : State :=
  let s : State := { s with keep := { s.keep with slotRec := r } }
  ((s.put Reg.IMAGE.FLOOR.word r.floor).putB Reg.IMAGE.STATUS.trial s.onTrial).imageOver codeOk 0xFF

/-- SLOT_RECORD_UPDATE_DONE: behind a host command of the keep the update waits (R683). -/
def State.slotUpdated (s : State) : State :=
  match s.image.cmd with
  | some (.slotUpdate r) => if s.keep.running.isSome then s else s.slotRecorded r
  | _ => s

/-- SLOT_RECORD_UPDATE_DONE (R112). -/
def execSlotRecordUpdateDone (t : Nat) (s : State) : Host.Outcome State Fault Refusal := finish (s.atTime t).slotUpdated

end Sys2Proof.Machine
end

