-- ==== Sys2Proof/Machine/Boot.lean ====
section
/-!
DEFINITION. Reset and boot (R86 to R89, R175, R176, R592, R654, R672 to R676, R689, R702, R711 to R716, R737): the sources of a full
reset, what lasts through it, the boot timeline up to the installation of an image, and ready.
-/

namespace Sys2Proof.Machine

open Sys2Proof

/-! ### The cause of a reset (R702) -/

/-- The sources of RESET_CAUSE. -/
def srcPowerOn : Nat := 1
def srcPin : Nat := 2
def srcHost : Nat := 3
def srcAutoRestart : Nat := 5

/-- The order in which the first of several events is named: POWER_ON, PIN, AUTO_RESTART, HOST. -/
def resetRank (source : Nat) : Nat := if source = srcPowerOn then 0 else if source = srcPin then 1 else if source = srcAutoRestart then 2 else 3

/-- The state at a reset, as prior shows it. -/
def State.priorState (s : State) : Nat :=
  if s.power == powerWakeFailed then 1
  else if s.power == powerThermalOff then 2
  else if s.flag Reg.RECOVERY.STATUS.wedged_any then 3
  else 0

/-- The part is in reset: RESET_N is low, or a power-good input that boot needs is (R714). -/
def State.inReset (s : State) : Bool := decide (s.boot.phase = .held) || decide (s.boot.phase = .waitPower)

/-- The word of RESET_CAUSE after an event; while the part is still in reset an earlier event may remain the one named. -/
def State.resetCause (s : State) (source ch : Nat) : Word :=
  let w := s.word Reg.DEVICE.RESET_CAUSE.word.addr
  let old := getBits w 20 4
  if s.inReset && resetRank old ≤ resetRank source then w
  else
    let prior := if source = srcPowerOn then 0 else if s.inReset then getBits w 16 4 else s.priorState
    let cause := if source = srcPowerOn then srcPowerOn else if prior = 2 then 4 else source
    BitVec.ofNat 32 (cause * 2 ^ 24 + source * 2 ^ 20 + prior * 2 ^ 16 + (if source = srcHost then ch else 0xFF) * 2 ^ 8)

/-! ### What lasts through a full reset (R673) -/

/-- A slot-record update whose page is being programmed completes (R591, R716). -/
def State.slotShutdown (s : State) : State :=
  match s.image.cmd with
  | some (.slotUpdate r) => if s.keep.running.isSome then s else s.slotRecorded r
  | _ => s

/-- What the keep holds after a reset: the page being programmed is complete, an open update is abandoned, and so is an update of the slot record
that boot has not completed (R87); log records that await
programming are lost with power (R591, R673, R680). -/
def State.keepLeft (s : State) (source : Nat) : Keep :=
  let off := source == srcPowerOn || s.power == powerThermalOff
  let k := s.slotShutdown.keepShutdown.keep
  let rec_ := match s.boot.recordWas with
    | some (old, t) => if s.now < t then old else k.slotRec
    | none => k.slotRec
  { k with slotRec := rec_, openUpdate := none, running := none, snapSeq := maxNat (k.snap.map fun p => p.seq), logBuffer := if off then [] else k.logBuffer }

/-- The update that the reset leaves incomplete, with the sector of its first page (R592). -/
def State.leftUpdate (s : State) : Option (Nat × Nat) :=
  match s.keep.openUpdate with
  | some seq => (s.keep.snap.find? fun p => p.seq == seq).map fun p => (seq, snapSector + p.phys / 64)
  | none => s.boot.left

/-- Every register at its reset value, no session, JTAG closed; the keep, the OTP, the inputs of the package and RESET_CAUSE last. -/
def State.afterReset (s : State) (source ch : Nat) : State :=
  let new : State := { State.reset with
    now := s.now
    trimsBad := s.trimsBad
    keep := s.keepLeft source
    sec := { Security.reset with otp := s.sec.otp, drawn := s.sec.drawn }
    radio := { RadioState.reset with blank := s.radio.blank }
    boot := { s.boot with selected := false, coreMonitored := false, left := s.leftUpdate, recordWas := none }
    free := s.free
    out := s.out
    pending := s.pending }
  let new := new.setWord Reg.DEVICE.RESET_CAUSE.word.addr (s.resetCause source ch)
  if new.keep.logBuffer.isEmpty then new
  else new.arm .logPage (if 7 ≤ new.keep.logBuffer.length then new.now else new.keep.logSince + ticksOfMs 100)

/-! ### Self-test (R675) -/

/-- The class of a failure that self-test or the copy of the trims finds. -/
def failTrim : Nat := 0
def failHall : Nat := 1
def failPipe : Nat := 2
def failBank : Nat := 5
/-- The class of a keep slot that cannot be read (R83). -/
def failSlot : Nat := 6

/-- A unit fails self-test: a spare replaces it, with its record; a spare that fails is retired. False where no spare is left. -/
def State.selfTestUnit (s : State) (cls n : Nat) : State × Bool :=
  let rec_ : Rec := { kind := .fault, cls := cls, unit := if cls = failHall then unitHall else if cls = failPipe then unitPath else unitMemory,
                      inst := n, action := 1 }
  if cls = failHall then
    if 144 ≤ n then (s, true)
    else if 136 ≤ n then
      ((s.modAlcove (n - 136) fun _ => { serves := none, retired := true }).showSpares.record { rec_ with action := 3 }, true)
    else match s.alcoves.findIdx? fun a => !a.retired && a.serves.isNone with
      | some k => ((s.tileServes n (136 + k)).showSpares.record { rec_ with spare := 136 + k }, true)
      | none => (s, false)
  else if cls = failPipe then
    if 68 ≤ n then (s, true)
    else if 64 ≤ n then ((s.setPipe (n - 64) { serves := none, retired := true }).showSpares.record { rec_ with action := 3 }, true)
    else match s.recov.pipes.findIdx? fun x => !x.retired && x.serves.isNone with
      | some k => ((s.setPipe k { serves := some n, retired := false }).showSpares.record { rec_ with spare := k }, true)
      | none => (s, false)
  else if cls = failBank then
    if 816 ≤ n then (s, true)
    else if 768 ≤ n then ((s.setBank (n - 768) { serves := none, retired := true }).showSpares.record { rec_ with action := 3 }, true)
    else match s.spareBank n with
      | (some k, s) => (s.showSpares.record { rec_ with spare := k }, true)
      | (none, _) => (s, false)
  else (s, true)

/-- The spares that have failed are left out first, then the units that have failed take spares; those that find none are left over. -/
def State.selfTest (s : State) (failed : List (Nat × Nat)) : State × List (Nat × Nat) :=
  let spare := fun (e : Nat × Nat) => (e.1 == failHall && 136 ≤ e.2) || (e.1 == failPipe && 64 ≤ e.2) || (e.1 == failBank && 768 ≤ e.2)
  (failed.filter spare ++ failed.filter fun e => !spare e).foldl (fun acc e =>
    let r := acc.1.selfTestUnit e.1 e.2
    if r.2 then (r.1, acc.2) else (acc.1, acc.2 ++ [e])) (s, [])

/-- A unit that found no spare, once the image whose policy decides is installed (R540 to R542). -/
def State.selfTestLeft (s : State) (l : List (Nat × Nat)) : State :=
  s.forEach l fun e s =>
    if e.1 = failHall then s.hallFault e.2 0
    else if e.1 = failPipe then s.pipeFault e.2
    else s.loseBank e.2 []

/-! ### Selection (R86 to R89) -/

/-- The slot record as boot changes it, and whether a trial has fallen back. -/
def bootRecord (r : SlotRecord) : SlotRecord × Bool :=
  if r.trial && r.trialStarted then ({ r with preferred := 1 - r.preferred, trial := false }, true)
  else if r.trial then ({ r with trialStarted := true }, false)
  else (r, false)

/-- Slots are tried in order: the failures, and the image that passes with its slot. One that cannot be read fails with KEEP (R83). -/
def State.trySlots (s : State) (unread : List Nat) : List Nat → List (Nat × Nat × Nat) × Option (Nat × List Byte)
  | [] => ([], none)
  | n :: rest =>
    let im := s.keep.slotImage n
    let r := if unread.contains n then (codeKeep, 0xFF) else s.checkImage false im
    if r.1 == codeOk then ([], some (n, im))
    else
      let x := s.trySlots unread rest
      ((n, r) :: x.1, x.2)

/-- Boot selects and installs an image, or stops in NO_IMAGE; `unread` holds the slots that cannot be read. A change of the slot record is in force
from its completion on (R87). -/
def State.bootSelect (s : State) (unread : List Nat) : State :=
  let was := s.keep.slotRec
  let b := bootRecord was
  let until_ := s.boot.start + min (ticksOfMs 136) (Config.bootUpdate s.keep.bootCount)
  let s : State := { s with keep := { s.keep with slotRec := b.1 },
                            boot := { s.boot with recordWas := if b.1 = was then none else some (was, until_) } }
  let s := s.when b.2 fun s => s.record { kind := .event, unit := unitDevice }
  let x := s.trySlots unread [b.1.preferred, 1 - b.1.preferred]
  let s := s.forEach x.1 fun e s => s.record { kind := .event, unit := unitDevice, inst := e.1, cause := e.2.1, detail := e.2.2 }
  match x.2 with
  | some (slot, im) =>
    let s := (s.put Reg.IMAGE.STATUS.code codeOk).put Reg.IMAGE.STATUS.section 0xFF
    let s := (s.putB Reg.IMAGE.STATUS.fallback (slot != b.1.preferred)).installImage (imageRunning im) slot
    let s := s.setBucket s.depthNj
    (s.putB Reg.IMAGE.STATUS.locked (imgLockOnLoad im)).put Reg.HOST.BOOT_STATUS.step 8
  | none =>
    let last := (x.1.getLast?).getD (0, codeFormat, 0xFF)
    let s := (s.put Reg.IMAGE.STATUS.code last.2.1).put Reg.IMAGE.STATUS.section last.2.2
    let s := (s.put Reg.IMAGE.STATUS.state imageNone).put Reg.HOST.BOOT_STATUS.step 7
    let s : State := { s.showImage with boot := { s.boot with phase := .noImage } }
    s.notice .image

/-! ### The boot timeline (R673, R689) -/

/-- Steps 1 to 8 of the boot timeline, which starts at `start`: trims, VDD_CORE at the boot target, synthesisers, self-test, the keep
scanned, the boot count, the image (DESIGN CHOICE, log entry 5). -/
def State.startBoot (s : State) (start : Nat) (failed : List (Nat × Nat)) : State :=
  let left := s.boot.left
  let trims := (failed.filter fun e => e.1 == failTrim).map fun e => e.2
  let s : State := { s with
    trimsBad := if failed.isEmpty then s.trimsBad else trims
    boot := { s.boot with phase := .booting, start := start, selected := true, coreMonitored := true, left := none } }
  let s := s.trimsCopied
  let mv := s.get Reg.POWER.PMBUS_CTL.boot_mv
  let s := (s.emit (.pmbus pmVoutMode 0)).emit (.pmbus pmOperation pmOn)
  let s := s.voutCommand mv true
  let s : State := { s with energy := { s.energy with before := mv, confirmed := mv } }
  let s := s.islandsUp.setIsland islandRef (s.flag Reg.CLOCK.REF_STATUS.refclk_ok)
  let n := (s.keep.bootCount + 1) % 2 ^ 32
  let s : State := { s with keep := { s.keep with bootCount := n } }
  let s := (s.put Reg.DEVICE.BOOT_COUNT.word n).showSecurity
  let s := match left with
    | some e => s.record { kind := .event, unit := unitKeep, inst := e.2, detail := e.1 }
    | none => s
  let t := s.selfTest (failed.filter fun e => e.1 != failTrim)
  let unread := (failed.filter fun e => e.1 == failSlot).map fun e => e.2
  (t.1.bootSelect unread).selfTestLeft t.2

/-- PG_MEM, PG_LINK and PG_RFA are high. -/
def State.railsGood (s : State) : Bool := [1, 2, 3].all fun n => s.boot.pg.getD n true

/-- The part leaves reset: boot starts, or waits for the rails (R714). -/
def State.leaveReset (s : State) (failed : List (Nat × Nat)) : State :=
  if s.railsGood then s.startBoot s.now failed else { s with boot := { s.boot with phase := .waitPower } }

/-- A full reset from a source other than RESET_N: the timeline starts at once, or once the rails are good; while RESET_N is low it
waits for its release. -/
def State.fullReset (s : State) (source ch : Nat) (failed : List (Nat × Nat)) : State :=
  let n := s.afterReset source ch
  if decide (s.boot.phase = .held) then n
  else
    let at0 := n.now
    ({ n with boot := { n.boot with released := at0 } } : State).leaveReset failed

/-- RESET_N is low for at least 1 µs (R672). -/
def State.pinLow (s : State) (ns : Nat) : State :=
  if ns < 1000 then s
  else
    let n := s.afterReset srcPin 0
    { n with boot := { n.boot with resetN := false, phase := .held } }

/-- PIN_RESET (R672). -/
def execPinReset (t ns : Nat) (s : State) : Host.Outcome State Fault Refusal := finish ((s.atTime t).pinLow ns)

/-- RESET_N is released: DEV_ID is sampled, and boot starts or waits for the rails (R654, R714). -/
def State.pinHigh (s : State) (devId : Nat) (failed : List (Nat × Nat)) : State :=
  if decide (s.boot.phase = .held) || (decide (s.boot.phase = .booting) && !s.boot.selected) then
    let at0 := s.now
    ({ s with boot := { s.boot with resetN := true, devId := devId, released := at0 } } : State).leaveReset failed
  else s

/-- RESET_N_RELEASE (R654). -/
def execResetNRelease (t : Nat) (devId : BitVec 9) (failed : List (Nat × Nat)) (s : State) : Host.Outcome State Fault Refusal :=
  finish ((s.atTime t).pinHigh devId.toNat failed)

/-- FULL_RESET (R673) by one of the sources of R702; one by RESET_N ends with its release. -/
def execFullReset (t : Nat) (source : Fin 6) (ch : Channel) (failed : List (Nat × Nat)) (s : State) : Host.Outcome State Fault Refusal :=
  let s := s.atTime t
  finish (if source.val = 0 || source.val = 4 then s
    else if source.val = srcPin then (s.pinLow 1000).pinHigh s.boot.devId failed
    else s.fullReset source.val ch.val failed)

/-- POWER_GOOD_FALL: of PG_CORE while it is monitored, of the others at any time, for at least 1 µs (R712). -/
def State.pgFall (s : State) (n ns : Nat) : State :=
  if ns < 1000 then s
  else
    let watched := n != 0 || s.boot.coreMonitored
    let s : State := { s with boot := { s.boot with pg := s.boot.pg.set n false } }
    s.when watched fun s => s.fullReset srcPowerOn 0 []

/-- POWER_GOOD_FALL (R712). -/
def execPowerGoodFall (t : Nat) (n : Fin 4) (ns : Nat) (s : State) : Host.Outcome State Fault Refusal := finish ((s.atTime t).pgFall n.val ns)

/-- The value of HOST.RESET that resets. -/
def resetKey : Word := 0x6464

/-- A write of HOST.RESET (R672). -/
def State.hostReset (s : State) (ch : Nat) (v : Word) (failed : List (Nat × Nat)) : State :=
  if v = resetKey then s.fullReset srcHost ch failed else s

/-- HOST_RESET (R672). -/
def execHostReset (t : Nat) (ch : Channel) (value : Word) (failed : List (Nat × Nat)) (s : State) : Host.Outcome State Fault Refusal :=
  finish (s.hostCmd t ch.val Reg.HOST.RESET.word.addr fun s => s.hostReset ch.val value failed)

/-- POWER_GOOD_RISE: the last rail that boot waits for starts the timeline 1 ms later (R714). -/
def State.pgRise (s : State) (n : Nat) (failed : List (Nat × Nat)) : State :=
  let s : State := { s with boot := { s.boot with pg := s.boot.pg.set n true } }
  if decide (s.boot.phase = .waitPower) && s.railsGood then s.startBoot (s.now + ticksOfMs 1) failed else s

/-- POWER_GOOD_RISE (R714). -/
def execPowerGoodRise (t : Nat) (n : Fin 4) (failed : List (Nat × Nat)) (s : State) : Host.Outcome State Fault Refusal :=
  finish ((s.atTime t).pgRise n.val failed)

/-! ### A step that fails (R580, R675) -/

/-- No image is installed, and what one configures is at its reset values. -/
def State.uninstall (s : State) : State :=
  let s : State := { s.clearBlocks.resetRange 0x80000 0x80FFF with image := ImageState.reset }
  s.startHalls

/-- BOOT_STEP_TIMEOUT of step 2 REGULATOR, 3 OSCILLATOR or 4 PLL: the third failure of one is WAKE_FAILED, and no later step has taken
place. -/
def State.bootTimeout (s : State) (step unit : Nat) : State :=
  if !decide (s.boot.phase = .booting) || step < 2 || 4 < step || s.power == powerWakeFailed ||
      s.get Reg.IMAGE.STATUS.state != imageBooting then s
  else
    let n := s.energy.failures.getD (step - 2) 0 + 1
    let s : State := { s with energy := { s.energy with failures := s.energy.failures.set (step - 2) n } }
    if n < 3 then s else ((s.uninstall).put Reg.HOST.BOOT_STATUS.step (step - 1)).wakeFail (step - 1) unit n

/-- BOOT_STEP_TIMEOUT (R675). -/
def execBootStepTimeout (t step unit : Nat) (s : State) : Host.Outcome State Fault Refusal := finish ((s.atTime t).bootTimeout step unit)

/-! ### Ready (R175, R176, R674, R737) -/

/-- A path may take part in start-up calibration: the plan enables it, its bank is LOCKED and not cross-fed (R737), it is not retired and has a
pipeline. -/
def State.calibrates (s : State) (p : Nat) : Bool :=
  s.pathEnabled p && s.loState (bankOf p) == loLocked && !s.crossfed (bankOf p) && s.pathState p != pathRetired && !s.recov.pathsOut.contains p

/-- A path fails a start-up step: it stays out of service, uncalibrated, its coefficients at their reset values. -/
def State.startupFailed (s : State) (p code result precond : Nat) : State :=
  let s := s.resetRange (0x100020 + 0x1000 * p) (0x10007F + 0x1000 * p)
  let s := s.modPath p fun x => { x with dc := PathState.reset.dc, calDc := PathState.reset.calDc, calIq := PathState.reset.calIq }
  (s.put (Reg.PATH.STATUS.uncal p) 1).calReport p result precond code false

/-- A path passes: its coefficients, and its service. -/
def State.startupPassed (s : State) (p : Nat) (results : List CalResult) : State :=
  match results.find? fun r => !calInRange r with
  | some r => s.startupFailed p r.code resRange 0
  | none =>
    let s := s.forEach results fun r s => s.calApply p r
    let s := (s.put (Reg.PATH.STATUS.uncal p) 0).put (Reg.PATH.CTL.service p) 1
    s.applyService p true

/-- Start-up calibration of the paths that take part (R175, R176): one that no list names has not passed every step. Those of a bank that
FAILED stay uncalibrated (R737). -/
def State.startup (s : State) (passed : List (Fin 64 × List CalResult)) (failed : List (Fin 64 × Nat × Nat × Nat)) : State :=
  let s := s.forEach (failed.filter fun e => s.calibrates e.1.val) fun e s => s.startupFailed e.1.val e.2.1 e.2.2.1 e.2.2.2
  let bad := failed.map fun e => e.1
  let s := s.forEach (passed.filter fun e => s.calibrates e.1.val && !bad.contains e.1) fun e s => s.startupPassed e.1.val e.2
  let named := (passed.map fun e => e.1.val) ++ failed.map fun e => e.1.val
  let s := s.forEach ((List.range 64).filter fun p => s.pathEnabled p &&
      (s.loState (bankOf p) == loFailed || (s.calibrates p && !named.contains p))) fun p s => s.put (Reg.PATH.STATUS.uncal p) 1
  s.showRenorm

/-- Step 12: ready, a LOAD is over, the ports that the presets enable, and the carriers of the plan at least 2 µs later. -/
def State.nowReady (s : State) : State :=
  let s := s.when (!s.flag Reg.HOST.BOOT_STATUS.ready) fun s =>
    s.put Reg.HOST.BOOT_STATUS.ms (min 65535 ((s.now - s.boot.released) / ticksOfMs 1))
  let s := ((s.put Reg.HOST.BOOT_STATUS.step 12).put Reg.HOST.BOOT_STATUS.ready 1).put Reg.IMAGE.STATUS.state imageRunningCode
  let s : State := { s with boot := { s.boot with phase := .ready, recordWas := none } }
  let s := if s.image.cmd = some .restart then s.imageOver codeOk 0xFF else s
  let s := s.forEach (List.range 8) fun n s => s.fhControl n
  let s := s.forEach (List.range 4) fun n s => s.portControl n
  s.startsFromHere (List.range 8)

/-- Start-up calibration is over: 4.32 ms after INIT on all buses, where a path takes part in it (R175). -/
def State.startupOver (s : State) : Bool :=
  s.initOver && (!((List.range 64).any s.calibrates) || decide (s.radio.initEnd + ticksOfUs 4320 ≤ s.now))

/-- The timeline can complete: an image is installed, the reference is accepted, each used bank is LOCKED or FAILED, start-up calibration is
over. -/
def State.bootComplete (s : State) : Bool :=
  decide (s.boot.phase = .booting) && s.banksDecided && s.startupOver && decide (s.boot.start ≤ s.now) &&
    s.image.running.isSome && s.flag Reg.CLOCK.REF_STATUS.refclk_ok && s.power == powerActive

/-- BOOT_READY. At the state after power-up the timeline has not begun: it begins here. -/
def State.bootReady (s : State) (passed : List (Fin 64 × List CalResult)) (failed : List (Fin 64 × Nat × Nat × Nat)) : State :=
  let s := if decide (s.boot.phase = .booting) && !s.boot.selected then s.startBoot s.now [] else s
  if s.bootComplete then (s.startup passed failed).nowReady else s

/-- BOOT_READY (R674). -/
def execBootReady (t : Nat) (passed : List (Fin 64 × List CalResult)) (failed : List (Fin 64 × Nat × Nat × Nat)) (s : State) :
    Host.Outcome State Fault Refusal :=
  finish ((s.atTime t).bootReady passed failed)

end Sys2Proof.Machine
end

