-- ==== Sys2Proof/Machine/Thermal.lean ====
section
/-!
DEFINITION. The end of a housekeeping round (R549, R584 to R591, R632, R633, R638, R639): checks of the converters, energy, temperature
sensors, thresholds, throttle and shutdown.
-/

namespace Sys2Proof.Machine

open Sys2Proof

/-! ### Checks of the converters (R638, R639) -/

/-- A zero code and a check-cell reading in mV are out of range. -/
def checksFail (z mv : Nat) : Bool := decide (32 < z) || decide (mv < 990) || decide (1010 < mv)

/-- The round served the fixed entries, 37 and 39 among them. -/
def State.roundWhole (s : State) : Bool := decide (40 ≤ s.roundLimit)

/-- The checks on the entries that the serving converter has read. -/
def State.checkServing (s : State) : State :=
  if !s.roundWhole || s.hk.stopped then s
  else
    let bad := checksFail (s.get (Reg.HK.READ.value 39)) (s.get (Reg.HK.READ.value 37))
    if s.hk.byB then
      let n := if bad then s.hk.badB + 1 else 0
      let s : State := { s with hk := { s.hk with badB := n } }
      if 3 ≤ n then s.hkbFault else s
    else
      let n := if bad then s.hk.badA + 1 else 0
      let s : State := { s with hk := { s.hk with badA := n } }
      if 3 ≤ n then s.hkaFault else s

/-- HK-B converts zero and the check cell once per round while it has nothing else to do. -/
def State.checkStandby (s : State) (zero check : Int) (ref : Nat) : State :=
  if s.hkbOff || s.hkbTaken || s.hk.injected.isSome || s.hk.cal.isSome then s
  else
    let bad := checksFail (s.meanCode true [zero] ref) (Config.millivolts 0x30 (s.meanCode true [check] ref))
    let n := if bad then s.hk.badB + 1 else 0
    let s : State := { s with hk := { s.hk with badB := n } }
    if 3 ≤ n then s.hkbFault else s

/-! ### Energy of the round (R549, R550, R633) -/

/-- The energy of rail `r` of six over the round, in µJ. -/
def State.railEnergy (s : State) (r : Nat) : Nat :=
  Config.roundEnergy (s.get (Reg.HK.READ.value (24 + r))) (s.get (Reg.HK.READ.value (30 + r))) s.hk.length

/-- The groups beside CORE take the round's energy; IO takes that of VDD_IO and VDD_KEEP. -/
def State.roundEnergies (s : State) : State :=
  if !s.metered || !s.roundWhole then s
  else
    let s := s.forEach (List.range 4) fun r s => s.addEnergy (r + 1) (s.railEnergy r)
    s.addEnergy 5 (s.railEnergy 4 + s.railEnergy 5)

/-! ### Sensors (R584, R585) -/

/-- The sensors above, below, left and right of one in the grid of four rows and six columns. -/
def tsNeighbours (n : Nat) : List Nat :=
  (List.range 24).filter fun m => (m % 6 == n % 6 && (m + 6 == n || n + 6 == m)) || (m / 6 == n / 6 && (m + 1 == n || n + 1 == m))

/-- Insert into an ascending list. -/
def insertInt (x : Int) : List Int → List Int
  | [] => [x]
  | y :: l => if x ≤ y then x :: y :: l else y :: insertInt x l

/-- Twice the median. -/
def medianInt2 (l : List Int) : Int :=
  let l := l.foldr insertInt []
  let n := l.length
  l.getD ((n - 1) / 2) 0 + l.getD (n / 2) 0

/-- A sensor's own reading in Q12.4 °C. -/
def State.tsReading (s : State) (n : Nat) : Int := signed 16 (unsigned 16 (s.reading 0 n (s.hk.codes.getD n 0)))

/-- A sensor. -/
def State.sensor (s : State) (n : Nat) : Sensor := s.hk.sensors.getD n default

/-- The valid ones of a sensor's neighbours. -/
def State.validNear (s : State) (n : Nat) : List Nat := (tsNeighbours n).filter fun m => (s.sensor m).valid

/-- One round's verdict on a sensor: code 0 or full scale, or 6 °C from the median of its valid neighbours; without one there is no
comparison. -/
def State.judgeSensor (s : State) (n : Nat) : Sensor :=
  let x := s.sensor n
  let code := s.hk.codes.getD n 0
  if code = 0 || code = codeMax then { bad := 0, good := 0, valid := false }
  else
    let near := s.validNear n
    if near.isEmpty then x
    else
      let off := decide (192 < (2 * s.tsReading n - medianInt2 (near.map s.tsReading)).natAbs)
      let bad := if off then x.bad + 1 else 0
      let good := if off then 0 else x.good + 1
      { bad := bad, good := good, valid := if x.valid then decide (bad < 3) else decide (10 ≤ good) }

/-- What stands for a sensor's region: its reading, or 4 °C above its highest valid neighbour. -/
def State.regionTemp (s : State) (n : Nat) : Option Int :=
  if (s.sensor n).valid then some (s.tsReading n)
  else match (s.validNear n).map s.tsReading with
    | [] => none
    | x :: l => some (l.foldl max x + 64)

/-- THERMAL shows one sensor. -/
def State.showSensor (s : State) (n : Nat) : State :=
  let ok := (s.sensor n).valid
  let s := s.putB (Reg.THERMAL.TS.valid n) ok
  let s := (s.putBit Reg.THERMAL.EXCLUDED.invalid n (!ok)).putB (Reg.THERMAL.TS.substituted n) (!ok && (s.regionTemp n).isSome)
  s.put (Reg.THERMAL.TS.reading n) (unsigned 16 ((s.regionTemp n).getD (s.tsReading n)))

/-- Every sensor is judged; the number that this round excludes, each with its record. -/
def State.judgeSensors (s : State) : State × Nat :=
  let new := (List.range 24).map s.judgeSensor
  let lost := (List.range 24).filter fun n => (s.sensor n).valid && !(new.getD n default).valid
  let s : State := { s with hk := { s.hk with sensors := new } }
  let s := s.forEach (List.range 24) fun n s => s.showSensor n
  (s.forEach lost fun n s => s.record { kind := .fault, cls := 0x0D, unit := unitHk, inst := n, action := 3 }, lost.length)

/-- The region that gives T_hot, the lowest of several, with its temperature. -/
def State.hotRegion (s : State) : Option (Nat × Int) :=
  ((List.range 24).filterMap fun n => (s.regionTemp n).map fun t => (n, t)).foldl (fun best x => match best with
    | some b => if b.2 < x.2 then some x else best
    | none => some x) none

/-! ### Thresholds (R585 to R589) -/

/-- A level of THRESH in Q12.4. -/
def State.level (s : State) (f : Fld) : Int := (16 * s.get f : Nat)

/-- A state with hysteresis: set at its level, clear below its level less `h` °C. -/
def hysteresis (on : Bool) (t level : Int) (h : Int) : Bool := if on then decide (level - 16 * h ≤ t) else decide (level ≤ t)

/-- The excess at a temperature (R587). -/
def excessAt (t level : Int) : Nat := (max 1 ((t - level).fdiv 16 + 1)).toNat

/-- The throttle follows T_hot; `lost` sensors were excluded in this round (R587 to R589). -/
def State.throttleAt (s : State) (t : Int) (lost : Nat) : State :=
  let was := s.flag Reg.THERMAL.STATUS.throttle
  let old := s.get Reg.THERMAL.THROTTLE.excess
  let on := hysteresis was t (s.level Reg.THERMAL.THRESH.throttle) 3
  let held := if !on then none else if was && lost != 0 then some (max old (s.hk.held.getD 0)) else s.hk.held
  let excess := if on then min 255 (max (excessAt t (s.level Reg.THERMAL.THRESH.throttle)) (held.getD 0)) else 0
  let s : State := { s with hk := { s.hk with held := held } }
  let s := (s.putB Reg.THERMAL.STATUS.throttle on).putB Reg.THERMAL.STATUS.held held.isSome
  let s := ((s.put Reg.THERMAL.THROTTLE.excess excess).putB Reg.POWER.STATUS.throttle on).showPEff
  s.when (on != was || excess != old) fun s => s.record { kind := .event, unit := unitEnergy, detail := excess }

/-- The warning follows T_hot; setting it raises a notice. -/
def State.warningAt (s : State) (t : Int) : State :=
  let was := s.flag Reg.THERMAL.STATUS.warning
  let on := hysteresis was t (s.level Reg.THERMAL.THRESH.warning) 3
  let s := (s.putB Reg.THERMAL.STATUS.warning on).putB Reg.POWER.STATUS.warning on
  s.when (on && !was) fun s => s.notice .event

/-! ### Shutdown (R590, R591) -/

/-- Work that a page of the keep does not hold ends: nothing is transmitted, received or released any more. -/
def State.workStops (s : State) : State :=
  let s : State := { s with gates := [], txBlocks := [], timers := [],
                            carriers := List.replicate 8 CarrierState.off, recov := { s.recov with running := [] },
                            keep := { s.keep with logBuffer := [] } }
  let s := s.forEach (List.range 8) fun c s => (s.put (Reg.CARRIER.STATUS.state c) carrierOff).showForm c
  s.hostMutes true

/-- The shutdown threshold is reached: mute, stop, THERMAL_OFF, VDD_CORE off. -/
def State.thermalOff (s : State) : State :=
  if s.power == powerThermalOff || s.power == powerWakeFailed then s
  else
    let s := s.slotShutdown.keepShutdown.workStops
    let s := s.forEach (List.range 8) fun n s => s.fhEnter n fhDisabled
    let s := s.forEach (List.range 4) fun n s => s.portQuiet n spDisabled
    let s := ((s.loStop 0).loStop 1).islandsStop [islandRef, islandCnv, islandFhl, islandStl, islandTim]
    let s := (s.put Reg.POWER.STATUS.state powerThermalOff).dropPending injPower
    let s := s.emit (.pmbus pmOperation pmOff)
    { s with boot := { s.boot with coreMonitored := false }, timers := [] }

/-- Thermal control acts on T_hot; fewer than eight valid sensors count as the shutdown threshold reached (R585). -/
def State.thermal (s : State) (lost : Nat) : State :=
  let few := decide (countIf (fun (x : Sensor) => x.valid) s.hk.sensors < 8)
  let level := s.level Reg.THERMAL.THRESH.shutdown
  let hot := s.hotRegion.getD (0, level)
  let t := if few then max hot.2 level else hot.2
  let s := (s.put Reg.THERMAL.STATUS.hottest hot.1).put Reg.THERMAL.STATUS.t_hot (unsigned 16 t)
  let shut := hysteresis (s.flag Reg.THERMAL.STATUS.shutdown) t level 15
  let s := s.putB Reg.THERMAL.STATUS.shutdown shut
  let s := (s.warningAt t).throttleAt t lost
  if shut then s.thermalOff
  else if s.power == powerThermalOff && s.flag Reg.THERMAL.CTL.restart then s.fullReset srcAutoRestart 0 []
  else s

/-- The landing is stale once its hottest valid sensor has moved too far from its value at the last commit (R497). -/
def State.tempMoved (s : State) : State :=
  match s.hottestValid, s.ota.tempAt with
  | some t, some t0 =>
    if decide (16 * s.get Reg.OTA.CTL.temp_delta < (t - t0).natAbs) && !s.flag Reg.OTA.STATUS.stale then s.markStale else s
  | _, _ => s

/-- HK_ROUND_END. -/
def State.roundEnd (s : State) (zero check : Int) (ref : Nat) : State :=
  if !s.hk.running || !s.hk.left.isEmpty then s
  else
    let s : State := { s with hk := { s.hk with running := false } }
    let s := (s.bump Reg.HK.ROUNDS.word).checkServing.checkStandby zero check ref
    let r := s.roundEnergies.judgeSensors
    (r.1.when r.1.coreOn State.tempMoved).thermal r.2

/-- HK_ROUND_END (R584). -/
def execHkRoundEnd (t : Nat) (zero check : Int) (ref : Nat) (s : State) : Host.Outcome State Fault Refusal :=
  finish ((s.atTime t).roundEnd zero check ref)

end Sys2Proof.Machine
end

