-- ==== Sys2Proof/Machine/Host.lean ====
section
/-!
DEFINITION. The host's access to the register space: what a read returns (R5 to R12, R694 to R703), what a write does beside a
command's own row, and the vestibule port (R650 to R661, R722).
-/

namespace Sys2Proof.Machine

open Sys2Proof

/-! ### Values shown (R3, R114 to R118, R571, R701) -/

/-- Bases and parameters of the capability records, words 2 and 3 (R118). -/
def capUnits : List (Nat × Nat) :=
  [(0x00100000, 0x04040840), (0x00140000, 0x00000850), (0x00180000, 0x00000804), (0x00200000, 0x0000F8C8), (0x00280000, 0x80208000),
   (0x00288000, 0x00004020), (0x00300000, 0x0C200890), (0x00400000, 0x00008408), (0x00480000, 0x00F20044), (0x00500000, 0x00000002),
   (0x00060000, 0x01000410), (0x00070000, 0x03C40830), (0x00020000, 0x00000508), (0x00030000, 0x00181060), (0x00082000, 0x00000204)]

/-- Word `j` of the capability record of ID `i` + 1 (R115, R701). -/
def capWord (i j : Nat) : Nat :=
  let u := capUnits.getD i (0, 0)
  if j = 0 then 0x10000 + (i + 1) else if j = 1 then (if i = 14 then 0 else 0x100 + 16 * (i + 1)) else if j = 2 then u.1 else u.2

/-- QUIET: every hall is WAITING or SHED and the beam engine has no work due within 5 µs (R571). -/
def State.quiet (s : State) : Bool :=
  (s.halls.all fun x => x.state == hallWaiting || x.state == hallShed) && (s.runningCarriers.isEmpty || Config.beamQuiet s.now)

/-- Does the rotation of R283 apply to paths of a bank: has a running carrier a weight in use there whose tag is not the present feed? -/
def State.rotated (s : State) (b : Nat) : Bool :=
  s.runningCarriers.any fun c =>
    let x := s.beam.sets.getD c (WeightSet.empty, WeightSet.empty)
    let set := if (s.car c).set = 0 then x.1 else x.2
    (List.range 32).any fun i =>
      let p := 32 * b + i
      let tags := if (s.form c).mode = modeBeamId then [false] else [set.dlTags.getD p false, set.ulTags.getD p false]
      s.beamPath c p && tags.any fun tag => tag != (s.car c).feed.testBit b

/-- SESSIONn of HOST (R667). -/
def State.sessionWord (s : State) (n : Nat) : Nat :=
  match s.session n with
  | some x => 2 ^ 28 + x.keySlot * 2 ^ 24 + x.src.port % 8 * 2 ^ 16 + Config.secondsLeft (x.lastAccept + s.sxmIdle - s.now) % 2 ^ 16
  | none => 0

/-- CH_STATUS of a channel. -/
def HostChan.statusWord (c : HostChan) : Nat :=
  c.result % 256 * 2 ^ 24 + c.slot % 32 * 2 ^ 16 + b2n c.busy * 2 ^ 8 + b2n c.limit * 2 ^ 3 + b2n c.closed * 2 ^ 2 + b2n c.rwsLost * 2 +
    b2n c.done

/-- A word of the fault log ring: record s lies at 0x78000 + 32 × (s mod 256) (R546). -/
def State.logWord (s : State) (o : Nat) : Nat :=
  match s.log.find? fun r => r.seq % 256 == o / 32 with
  | some r => (r.words.getD (o % 32 / 4) 0).toNat
  | none => 0

/-- The stored word as a host reads it: reserved bits and WO fields read 0 (R6, R7). -/
def readMask (a : Nat) (w : Word) : Word :=
  (fieldsAt a).foldl (fun x f => if f.access = .wo then x else setBits x f.lo f.width (getBits w f.lo f.width)) 0

/-- A stored word with one field shown instead. -/
def State.showing (s : State) (f : Fld) (v : Nat) : Nat := (setBits (readMask f.addr (s.word f.addr)) f.lo f.width v).toNat

/-- The views of DEVICE, HOST, POWER and HK: none where the stored word is read. -/
def State.viewControl (s : State) (ch a : Nat) : Option Nat :=
  let c := s.chan ch
  if a = Reg.DEVICE.HOLD_STATUS.word.addr then some (2 * b2n c.hold.isSome + b2n c.unpaired)
  else if a = Reg.DEVICE.HOLD_TAG.word.addr then some ((c.hold.map fun h => h.1).getD 0)
  else if 0x100 ≤ a && a < 0x1F0 then some (capWord ((a - 0x100) / 16) (a % 16 / 4))
  else if a = Reg.HOST.CHANNEL.word.addr then some ch
  else if a = Reg.HOST.NOTIFY_MASK.word.addr then some (if ch = 0 then 0 else c.notifyMask)
  else if 0x10040 ≤ a && a < 0x10060 then some (s.sessionWord ((a - 0x10040) / 4))
  else if a = Reg.POWER.STATUS.word.addr then
    if s.power == powerActive && s.quiet then some (s.showing Reg.POWER.STATUS.state powerQuiet) else none
  else if 0x30100 ≤ a && a < 0x30280 then some (s.entryWord ((a - 0x30100) / 4)).toNat
  else if 0x40010 ≤ a && a < 0x50000 then some (readMask a (s.trimWord a)).toNat
  else none

/-- The views of CLOCK to SECURITY. -/
def State.viewSystem (s : State) (ch a : Nat) : Option Nat :=
  let c := s.chan ch
  if a = Reg.CLOCK.TIME_LO.word.addr then some (timeLo s.arrayNow)
  else if a = Reg.CLOCK.TIME_HI.word.addr then some (timeHi s.arrayNow)
  else if a = Reg.CLOCK.REF_STATUS.word.addr then some (s.showing Reg.CLOCK.REF_STATUS.holdover_ms s.holdoverMs)
  else if a = Reg.TXN.BIND.word.addr then some (b2n c.bound * 2 ^ 5 + c.bindSlot % 32)
  else if a = Reg.TXN.CH_STATUS.word.addr then some c.statusWord
  else if 0x60100 ≤ a && a < 0x60380 then (s.slot ((a - 0x60100) / 0x20)).view ((a - 0x60100) % 0x20)
  else if 0x78000 ≤ a && a < 0x7A000 then some (s.logWord (a - 0x78000))
  else if a = Reg.SECURITY.OTP_DATA.word.addr then some (s.otpWord (s.get Reg.SECURITY.OTP_ADDR.word)).toNat
  else if a = Reg.SECURITY.UID_LO.word.addr then some (Config.uid.toNat % 2 ^ 32)
  else if a = Reg.SECURITY.UID_HI.word.addr then some (Config.uid.toNat / 2 ^ 32)
  else none

/-- The views of path `p`, or of group `p` - 64: the T/R line and the receive samples (R140), freezes (R133, R228). -/
def State.viewRadio (s : State) (p o : Nat) : Option Nat :=
  if p < 64 then
    if o = 0x004 then
      let w := setBits (readMask (0x100004 + 0x1000 * p) (s.word (0x100004 + 0x1000 * p))) 11 1 (b2n (s.trHigh p s.arrayNow))
      some (setBits w 10 1 (b2n (s.rxValid p s.arrayNow))).toNat
    else if o = 0x014 then
      let f := s.freezes p
      let w := setBits (readMask (0x100014 + 0x1000 * p) (s.word (0x100014 + 0x1000 * p))) 1 1 (b2n f.1)
      some (setBits w 0 1 (b2n f.2)).toNat
    else none
  else if o = 0x310 then some (s.showing (Reg.GROUP.DPD_STATUS.frozen (p - 64)) (b2n (s.dpdFrozen (p - 64))))
  else none

/-- The views of the signal path, the halls and OTA. -/
def State.viewUnits (s : State) (a : Nat) : Option Nat :=
  if a = Reg.CARRIER.CAP_ADDR.word.addr then some (s.allocAddr kindCapture s.capPlace)
  else if a = Reg.CARRIER.CAP_SIZE.word.addr then some s.capSize
  else if a = Reg.BEAM.STATUS.word.addr then
    some (s.showing Reg.BEAM.STATUS.word (b2n (s.rotated 1) * 4 + b2n (s.rotated 0) * 2 + s.get Reg.BEAM.STATUS.write_lost))
  else if a = Reg.BEAM.TABLE_BASE.word.addr then some (s.allocAddr kindBeam 0)
  else if 0x281000 ≤ a && a < 0x282000 then some (s.beam.valid / 2 ^ (8 * (a - 0x281000)) % 2 ^ 32)
  else if 0x300000 ≤ a && a < 0x390000 then s.hallView ((a - 0x300000) / 0x1000) (a % 0x1000)
  else if a = Reg.OTA.STAGED_ADDR.word.addr then some (s.allocAddr kindStair stagedPlace)
  else if 0x100000 ≤ a && a < 0x148000 then s.viewRadio ((a - 0x100000) / 0x1000) (a % 0x1000)
  else none

/-- What a register reads as on a channel. An offset that no chapter defines reads 0 (R694, R695). -/
def State.readValue (s : State) (ch a : Nat) : Word :=
  let v := if a < 0x50000 then s.viewControl ch a else if a < 0x100000 then s.viewSystem ch a else s.viewUnits a
  match v with
  | some x => BitVec.ofNat 32 x
  | none => readMask a (s.word a)

/-! ### Values of two halves (R8 to R12, R699) -/

/-- Is the address that of the first word of a pair among `n` pairs from a base at a stride? -/
def pairAt (a base stride n : Nat) : Bool := decide (base ≤ a) && (a - base) % stride == 0 && decide ((a - base) / stride < n)

/-- Is the register the low half of a 64-bit value (R699)? -/
def isLowHalf (a : Nat) : Bool :=
  pairAt a 0x50020 8 1 || pairAt a 0x20040 8 7 || pairAt a 0x60114 0x20 20 || pairAt a 0x82010 8 1 || pairAt a 0x300020 0x1000 136 ||
    pairAt a 0x400120 0x40 8 || pairAt a 0x400410 0x20 8 || pairAt a 0x400418 0x20 8 || pairAt a 0x480120 0x40 4

/-- Is it a high half? -/
def isHighHalf (a : Nat) : Bool := decide (4 ≤ a) && isLowHalf (a - 4)

/-- A read of a low half copies the high half into the channel's holding register (R9, R10). -/
def State.readLow (s : State) (ch a : Nat) : Word × State :=
  (s.readValue ch a, s.modChan ch fun c => { c with hold := some (a, s.readValue ch (a + 4)) })

/-- A read of a high half: the held copy, or the live half, which sets unpaired (R11). -/
def State.readHigh (s : State) (ch a : Nat) : Word × State :=
  match (s.chan ch).hold with
  | some h => if h.1 + 4 = a then (h.2, s) else (s.readValue ch a, s.modChan ch fun c => { c with unpaired := true })
  | none => (s.readValue ch a, s.modChan ch fun c => { c with unpaired := true })

/-! ### One access (R5, R659, R660, R694) -/

/-- The statuses of R659. -/
def statusOk : Nat := 0
def statusCrc : Nat := 1
def statusCommand : Nat := 2
def statusUnmapped : Nat := 3
def statusAsleep : Nat := 4
def statusFormat : Nat := 6
def statusTooLong : Nat := 7

/-- The first and last addresses of the blocks (R694). -/
def blockRanges : List (Nat × Nat) :=
  [(0x0, 0x4FFFF), (0x50000, 0x7FFFF), (0x80000, 0x82FFF), (0x100000, 0x147FFF), (0x180000, 0x1C3FFF), (0x200000, 0x208FFF),
   (0x280000, 0x289FFF), (0x300000, 0x38FFFF), (0x400000, 0x40FFFF), (0x480000, 0x48FFFF), (0x500000, 0x50FFFF),
   (windowBase, windowBase + windowBytes - 1)]

/-- Is the address in a block? -/
def isMapped (a : Nat) : Bool := blockRanges.any fun r => decide (r.1 ≤ a) && decide (a ≤ r.2)

/-- The status with which an access at an address is answered, by which blocks answer. -/
def accessStatus (answers : Nat → Bool) (a : Nat) : Nat :=
  if a % 4 != 0 then statusCommand else if !isMapped a then statusUnmapped else if !answers a then statusAsleep else statusOk

/-- A word of the window. A bank lost with no spare holds no data: what it reads as is a free value (R542, DESIGN CHOICE, log entry 27). -/
def State.windowRead (s : State) (off : Nat) : Word × State :=
  if s.bankLost (off / bankBytes) then
    (BitVec.ofNat 32 (leNat ((List.range 4).map fun i => Config.freeByte (s.free + i))), { s with free := s.free + 4 })
  else (BitVec.ofNat 32 (s.memWord off), s)

/-- A read that is answered OK. -/
def State.readOk (s : State) (ch a : Nat) : Word × State :=
  if inWindow a then s.windowRead (a - windowBase)
  else if isLowHalf a then s.readLow ch a
  else if isHighHalf a then s.readHigh ch a
  else if 0x300000 ≤ a && a < 0x388000 && a % 0x1000 = 0x01C then (s.readValue ch a, s.dmNext ((a - 0x300000) / 0x1000))
  else (s.readValue ch a, s)

/-- A read of one word: its status, its value, 0 unless OK, and what the read does (R5, R659, R700). -/
def State.readReg (s : State) (answers : Nat → Bool) (ch a : Nat) : Nat × Word × State :=
  let st := accessStatus answers a
  if st = statusOk then (st, s.readOk ch a) else (st, 0, s)

/-- A write that is answered OK; a reset that HOST.RESET asks for comes after the response (R672). -/
def State.writeOk (s : State) (ch a : Nat) (v : Word) : State :=
  if inWindow a then s.windowWord ch (a - windowBase) v
  else if a = Reg.IMAGE.CTL.word.addr then s.imageCommand (getBits v 0 4) (getBits v 4 1)
  else s.blockWrite (some ch) a v

/-- A write of one word: its status and its effect. -/
def State.writeReg (s : State) (answers : Nat → Bool) (ch a : Nat) (v : Word) : Nat × State :=
  let st := accessStatus answers a
  if st = statusOk then (st, s.writeOk ch a v) else (st, s)

/-- Does a write ask for a full reset (R672)? -/
def asksReset (a : Nat) (v : Word) : Bool := a == Reg.HOST.RESET.word.addr && v == resetKey

/-- The reset that a frame has asked for, after its response (R672; DESIGN CHOICE, log entry 38). -/
def State.resetAsked (s : State) (ch : Nat) (asked : Bool) : State :=
  if asked then ({ s with free := s.free + 1 } : State).hostReset ch resetKey (Config.failedUnits s.free) else s

/-- One status for several words: that of all of them where they agree (DEDUCED, log entry 41). -/
def oneStatus (l : List Nat) : Nat :=
  match l with
  | [] => statusOk
  | x :: rest => if rest.all fun y => y == x then x else Config.mixedStatus l % 16

/-- Reads at ascending addresses, each a separate read (R653, R658, R700): status, words and effect. -/
def State.readRun (s : State) (answers : Nat → Bool) (ch a n : Nat) : Nat × List Word × State :=
  let r := (List.range n).foldl (fun (x : List Nat × List Word × State) i =>
    let y := x.2.2.readReg answers ch (a + 4 * i)
    (x.1 ++ [y.1], x.2.1 ++ [y.2.1], y.2.2)) ([], [], s)
  (oneStatus r.1, r.2.1, r.2.2)

/-! ### Register access rows -/

/-- REGISTER_WRITE (R7). -/
def State.registerWrite (s : State) (t ch : Nat) (a : Nat) (v : Word) : State :=
  s.hostCmd t ch a fun s => ((s.writeReg s.answers ch a v).2).resetAsked ch (asksReset a v)

/-- REGISTER_WRITE (R7). -/
def execRegisterWrite (t : Nat) (ch : Channel) (addr value : Word) (s : State) : Host.Outcome State Fault Refusal :=
  finish (s.registerWrite t ch.val addr.toNat value)

/-- A read whose value goes to the channel that asked. -/
def readOut (ch a : Nat) (r : Word × State) : State := r.2.emit (.readData ch a r.1)

/-- LOW_HALF_READ (R9). -/
def execLowHalfRead (t : Nat) (ch : Channel) (addr : Word) (s : State) : Host.Outcome State Fault Refusal :=
  finish (s.hostCmd t ch.val addr.toNat fun s =>
    s.when (isLowHalf addr.toNat) fun s => readOut ch.val addr.toNat (s.readLow ch.val addr.toNat))

/-- HIGH_HALF_READ (R11). -/
def execHighHalfRead (t : Nat) (ch : Channel) (addr : Word) (s : State) : Host.Outcome State Fault Refusal :=
  finish (s.hostCmd t ch.val addr.toNat fun s =>
    s.when (isHighHalf addr.toNat) fun s => readOut ch.val addr.toNat (s.readHigh ch.val addr.toNat))

/-- Is the register the low half of a 64-bit value that a host can write? No half of R699 is writable. -/
def isWritablePair (_a : Nat) : Bool := false

/-- A write of a high half is kept pending for the channel (R13, R14); of a pair that is not writable it has no effect (R699). -/
def State.highWrite (s : State) (ch a : Nat) (v : Word) : State :=
  if isWritablePair (a - 4) then s.modChan ch fun c => { c with pendingHigh := some v } else s

/-- A write of a low half makes both halves take effect, with the pending high half or the unchanged one (R13, R14); of a pair that is
not writable it has no effect (R699). -/
def State.lowWrite (s : State) (ch a : Nat) (v : Word) : State :=
  if isWritablePair a then
    let high := (s.chan ch).pendingHigh.getD (s.word (a + 4))
    ((s.setWord (a + 4) high).setWord a v).modChan ch fun c => { c with pendingHigh := none }
  else s

/-- HIGH_HALF_WRITE (R13). -/
def execHighHalfWrite (t : Nat) (ch : Channel) (addr value : Word) (s : State) : Host.Outcome State Fault Refusal :=
  finish (s.hostCmd t ch.val addr.toNat fun s => s.highWrite ch.val addr.toNat value)

/-- LOW_HALF_WRITE (R14). -/
def execLowHalfWrite (t : Nat) (ch : Channel) (addr value : Word) (s : State) : Host.Outcome State Fault Refusal :=
  finish (s.hostCmd t ch.val addr.toNat fun s => s.lowWrite ch.val addr.toNat value)

/-- WINDOW_WRITE (R506). -/
def execWindowWrite (t : Nat) (ch : Channel) (addr value : Word) (s : State) : Host.Outcome State Fault Refusal :=
  finish (s.hostCmd t ch.val addr.toNat fun s =>
    s.when (inWindow addr.toNat && addr.toNat % 4 == 0) fun s => s.windowWord ch.val (addr.toNat - windowBase) value)

/-- SXM_CTL_WRITE (R667). -/
def execSxmCtlWrite (t : Nat) (ch : Channel) (value : Word) (s : State) : Host.Outcome State Fault Refusal :=
  finish (s.hostCmd t ch.val Reg.HOST.SXM_CTL.word.addr fun s => s.blockWrite (some ch.val) Reg.HOST.SXM_CTL.word.addr value)

/-! ### The vestibule port (R654 to R661, R722) -/

/-- The bits of a frame that its CRC covers, and the CRC over them (R657). -/
def vestBits (f : VestFrame) : List Bool :=
  msbBits 9 f.address.toNat ++ msbBits 4 f.command.toNat ++ msbBits 4 f.count.toNat ++ msbBits 30 f.register.toNat ++
    (if f.command = 2 then msbBits 32 f.data.toNat else [])

/-- Does the frame's CRC hold? -/
def vestOk (f : VestFrame) : Bool := crc8 (vestBits f) == f.crc.toNat

/-- The CRC of a response (R658). -/
def responseCrc (status : Nat) (words : List Word) : Byte :=
  BitVec.ofNat 8 (crc8 (msbBits 4 status ++ (words.map fun w => msbBits 32 w.toNat).flatten))

/-- Send a response frame (R658). -/
def State.respond (s : State) (status : Nat) (words : List Word) : State := s.emit (.vest status words (responseCrc status words))

/-- The command of an accepted frame, and its response (R658, R659); an unknown command is answered with COMMAND. -/
def State.vestCommand (s : State) (answers : Nat → Bool) (f : VestFrame) : State :=
  let a := 4 * f.register.toNat
  if f.command = 1 && f.count = 0 then
    let r := s.readRun answers 0 a 1
    r.2.2.respond r.1 r.2.1
  else if f.command = 2 && f.count = 0 then
    let r := s.writeReg answers 0 a f.data
    (r.2.respond r.1 []).resetAsked 0 (r.1 == statusOk && asksReset a f.data)
  else if f.command = 3 then
    let r := s.readRun answers 0 a (f.count.toNat + 1)
    r.2.2.respond r.1 r.2.1
  else s.respond statusCommand []

/-- A vestibule frame after its mark: the device whose DEV_ID it names serves it (R656 to R661). The match wakes the part, and the blocks
that answer are those of the state that the frame found (DEDUCED, log entry 41). -/
def State.vestFrame (s : State) (f : VestFrame) : State :=
  if !s.channelOpen 0 || f.address.toNat != s.boot.devId then s
  else
    let found := s.answers
    let s := s.wakeSource 4
    if vestOk f then s.vestCommand found f else (s.bump Reg.HOST.VEST_CRC_ERR.word).respond statusCrc []

/-- READ (R658): a frame is served by its command field. -/
def execRead (t : Nat) (f : VestFrame) (s : State) : Host.Outcome State Fault Refusal := finish ((s.atTime t).vestFrame f)

/-- WRITE (R658). -/
def execWrite (t : Nat) (f : VestFrame) (s : State) : Host.Outcome State Fault Refusal := finish ((s.atTime t).vestFrame f)

/-- READ_BURST (R658). -/
def execReadBurst (t : Nat) (f : VestFrame) (s : State) : Host.Outcome State Fault Refusal := finish ((s.atTime t).vestFrame f)

/-- VEST_FRAME_TIMEOUT (R722). -/
def execVestFrameTimeout (t : Nat) (s : State) : Host.Outcome State Fault Refusal :=
  let s := s.atTime t
  finish (s.when (s.channelOpen 0) fun s => s.bump Reg.HOST.VEST_CRC_ERR.word)

/-! ### U-plane -/

/-- UPLANE_SECTION (R388). -/
def execUplaneSection (t : Nat) (n : Fin 64) (eaxc : Nat) (u : USection) (s : State) : Host.Outcome State Fault Refusal :=
  finish ((s.atTime t).uplane n.val eaxc u)

end Sys2Proof.Machine
end

