-- ==== Sys2Proof/Machine/Sxm.lean ====
section
/-!
DEFINITION. SXM, the management protocol of the sessions (R662 to R668): messages, sessions, requests, notifications.
-/

namespace Sys2Proof.Machine

open Sys2Proof

/-! ### Messages (R662) -/

/-- The types of a message. -/
def sxmTypeHello : Nat := 1
def sxmTypeWelcome : Nat := 2
def sxmTypeRequest : Nat := 3
def sxmTypeResponse : Nat := 4
def sxmTypeNotify : Nat := 5
def sxmTypeClose : Nat := 6
def sxmTypeRefuse : Nat := 7

/-- The largest body in bytes. -/
def sxmMax : Nat := 1440

/-- The fields of a message's header. -/
def sxmType (m : List Byte) : Nat := leAt m 1 1
def sxmSession (m : List Byte) : Nat := leAt m 2 1
def sxmKey (m : List Byte) : Nat := leAt m 3 1
def sxmSeq (m : List Byte) : Nat := leAt m 4 4
def sxmLength (m : List Byte) : Nat := leAt m 8 2

/-- The body of a message. -/
def sxmBody (m : List Byte) : List Byte := slice m 16 (m.length - 32)

/-- The tag that a key gives a header and body: the first 16 bytes of the HMAC. -/
def sxmTag (key bytes : List Byte) : List Byte := (hmacSha256 key bytes).take 16

/-- Is the message tagged with the key? -/
def sxmTagged (key m : List Byte) : Bool := sxmTag key (m.take (m.length - 16)) == m.drop (m.length - 16)

/-- Version, type and length are as R662 asks. -/
def sxmFormed (m : List Byte) : Bool :=
  decide (32 ≤ m.length) && leAt m 0 1 == 1 && decide (1 ≤ sxmType m) && decide (sxmType m ≤ 7) && decide (sxmLength m ≤ sxmMax) &&
    sxmLength m + 32 == m.length

/-- A message of the 6464: header, body and tag. -/
def sxmMessage (key : List Byte) (type session seq : Nat) (body : List Byte) : List Byte :=
  let h := leBytes 1 1 ++ leBytes 1 type ++ leBytes 1 session ++ leBytes 1 0 ++ leBytes 4 seq ++ leBytes 2 body.length ++ leBytes 6 0
  h ++ body ++ sxmTag key (h ++ body)

/-- SXM hears a source: an image runs, the port is UP and accepts SXM, and the VLAN is that of SXM (R414, R650). -/
def State.sxmHears (s : State) (src : Source) : Bool :=
  s.image.running.isSome && s.fhUpOn src.port && (s.get Reg.FRONTHAUL.SXM_CTL.port_mask).testBit src.port && s.sxmVlan == src.vid

/-- A message is dropped without an answer (R662). -/
def State.dropAuth (s : State) : State := s.bump Reg.HOST.SXM_DROP_AUTH.word

/-! ### HELLO (R663) -/

/-- The key of a slot that HELLO may name: enabled by key_mask and provisioned. -/
def State.helloKey (s : State) (k : Nat) : Option (List Byte) :=
  if k < 4 && (s.get Reg.HOST.SXM_CTL.key_mask).testBit k then s.keep.sxmKeys.getD k none else none

/-- The session key K_s of session `n` + 1. -/
def sessionKey (kk nh nd : List Byte) (n : Nat) : List Byte := hmacSha256 kk (leBytes 4 0x314D5853 ++ nh ++ nd ++ leBytes 1 (n + 1))

/-- Open session `n` + 1 and answer with a WELCOME. -/
def State.openSession (s : State) (src : Source) (k : Nat) (kk nh : List Byte) (n : Nat) : State :=
  let nd := s.randomBytes 16
  let ks := sessionKey kk nh nd n
  let s := s.drew 16
  let x : Session := { keySlot := k, src := src, ks := ks, lastSeq := 0, response := [], lastAccept := s.now, notifySeq := 0, lastNotify := none,
                       notifyDue := false }
  let s := (s.modChan (n + 1) fun _ => HostChan.reset).setSession n (some x)
  s.emit (.sxm src (sxmMessage ks sxmTypeWelcome (n + 1) (Config.helloSeq n) nd))

/-- An accepted HELLO takes the lowest free session, or is refused with FULL. -/
def State.helloAccepted (s : State) (src : Source) (k : Nat) (kk nh : List Byte) : State :=
  match firstIdx 8 fun n => (s.session n).isNone with
  | some n => s.openSession src k kk nh n
  | none => s.emit (.sxm src (sxmMessage kk sxmTypeRefuse 0 (Config.helloSeq 8) [1]))

/-- A HELLO; one whose body is not a nonce of 16 bytes is not accepted (DEDUCED, log entry 41). -/
def State.hello (s : State) (src : Source) (m : List Byte) : State :=
  match s.helloKey (sxmKey m) with
  | some kk => if sxmTagged kk m && (sxmBody m).length == 16 then s.helloAccepted src (sxmKey m) kk (sxmBody m) else s.dropAuth
  | none => s.dropAuth

/-! ### REQUEST (R664 to R666) -/

/-- One command of a REQUEST: write or read, count of words, address, words. -/
structure SxmCmd where
  write : Bool
  count : Nat
  addr : Nat
  words : List Word
deriving DecidableEq, Repr

/-- The commands of a body; none where it does not parse. `n` bounds the number of commands. -/
def sxmParse : Nat → List Byte → Option (List SxmCmd)
  | _, [] => some []
  | 0, _ => none
  | n + 1, bs =>
    let op := leAt bs 0 1
    let count := leAt bs 1 1
    let data := if op = 2 then 4 * count else 0
    if bs.length < 8 + data || count == 0 || (op != 1 && op != 2) then none
    else
      let c : SxmCmd := { write := op == 2, count := count, addr := leAt bs 4 4, words := if op = 2 then leWords count (bs.drop 8) else [] }
      (sxmParse n (bs.drop (8 + data))).map fun l => c :: l

/-- Bytes of a command's RESPONSE entry. -/
def SxmCmd.answerBytes (c : SxmCmd) : Nat := if c.write then 4 else 4 + 4 * c.count

/-- The entry of a RESPONSE (R665). -/
def sxmEntry (status count : Nat) (words : List Word) : List Byte :=
  leBytes 1 status ++ leBytes 1 count ++ leBytes 2 0 ++ (words.map fun w => leBytes 4 w.toNat).flatten

/-- The writes of a command at ascending addresses; words that lie in the window go in as one run (R506). -/
def State.sxmWrite (s : State) (ch : Nat) (c : SxmCmd) : List Nat × State :=
  let places := (List.range c.count).map fun i => c.addr + 4 * i
  let status := places.map fun a => accessStatus s.answers a
  if places.all fun a => inWindow a && accessStatus s.answers a == statusOk then (status, s.windowWords ch (c.addr - windowBase) c.words)
  else
    (places.zip c.words).foldl (fun (x : List Nat × State) e =>
      let r := x.2.writeReg x.2.answers ch e.1 e.2
      (x.1 ++ [r.1], r.2)) ([], s)

/-- Execute one command: its entry, and whether it has asked for a reset. -/
def State.sxmCommand (s : State) (ch : Nat) (c : SxmCmd) : List Byte × Bool × State :=
  if c.addr % 4 != 0 then (sxmEntry statusCommand c.count (if c.write then [] else List.replicate c.count 0), false, s)
  else if c.write then
    let asked := (List.range c.count).any fun i => asksReset (c.addr + 4 * i) (c.words.getD i 0)
    let r := s.sxmWrite ch c
    (sxmEntry (oneStatus r.1) c.count [], asked, r.2)
  else
    let r := s.readRun s.answers ch c.addr c.count
    (sxmEntry r.1 c.count r.2.1, false, r.2.2)

/-- Execute a list of commands in order: the RESPONSE body, and whether a reset was asked for. -/
def State.sxmCommands (s : State) (ch : Nat) (l : List SxmCmd) : List Byte × Bool × State :=
  l.foldl (fun (x : List Byte × Bool × State) c =>
    let r := x.2.2.sxmCommand ch c
    (x.1 ++ r.1, x.2.1 || r.2.1, r.2.2)) ([], false, s)

/-- The body of a REQUEST: refused whole with FORMAT or TOO_LONG, or executed (R665, R666). -/
def State.sxmExecute (s : State) (ch : Nat) (body : List Byte) : List Byte × Bool × State :=
  match sxmParse (body.length + 1) body with
  | none => (sxmEntry statusFormat 0 [], false, s)
  | some l =>
    if sxmMax < sumNat (l.map SxmCmd.answerBytes) then (sxmEntry statusTooLong 0 [], false, s) else s.sxmCommands ch l

/-- An accepted REQUEST: executed, its RESPONSE stored and sent, and then the reset it has asked for (R664, R665, R672). -/
def State.requestAccepted (s : State) (n : Nat) (x : Session) (src : Source) (m : List Byte) : State :=
  let s := s.setSession n (some { x with src := src, lastSeq := sxmSeq m, lastAccept := s.now })
  let r := s.sxmExecute (n + 1) (sxmBody m)
  let out := sxmMessage x.ks sxmTypeResponse (n + 1) (sxmSeq m) r.1
  let s := match r.2.2.session n with
    | some y => r.2.2.setSession n (some { y with response := out })
    | none => r.2.2
  (s.emit (.sxm src out)).resetAsked (n + 1) r.2.1

/-- A REQUEST of an open session (R664). -/
def State.sxmRequest (s : State) (n : Nat) (x : Session) (src : Source) (m : List Byte) : State :=
  if sxmSeq m = (x.lastSeq + 1) % 2 ^ 32 then s.requestAccepted n x src m
  else if sxmSeq m = x.lastSeq && !x.response.isEmpty then
    (s.setSession n (some { x with src := src })).emit (.sxm src x.response)
  else s.bump Reg.HOST.SXM_DROP_SEQ.word

/-! ### Rows -/

/-- A message that arrives (R662): HELLO, or a message of an open session that its tag proves; the others are dropped. The types that
the 6464 alone sends have no effect on it. -/
def State.sxmMessageIn (s : State) (src : Source) (m : List Byte) : State :=
  if !s.sxmHears src then s
  else if !sxmFormed m then s.dropAuth
  else if sxmType m = sxmTypeHello then s.hello src m
  else
    let n := sxmSession m - 1
    match if sxmSession m = 0 then none else s.session n with
    | none => s.dropAuth
    | some x =>
      if !sxmTagged x.ks m then s.dropAuth
      else if sxmType m = sxmTypeRequest then s.sxmRequest n x src m
      else if sxmType m = sxmTypeClose then s.endSession n
      else s

/-- SXM_HELLO (R663): a message is served by its type field. -/
def execSxmHello (t : Nat) (src : Source) (msg : List Byte) (s : State) : Host.Outcome State Fault Refusal :=
  finish ((s.atTime t).sxmMessageIn src msg)

/-- REQUEST (R664). -/
def execRequest (t : Nat) (src : Source) (msg : List Byte) (s : State) : Host.Outcome State Fault Refusal :=
  finish ((s.atTime t).sxmMessageIn src msg)

/-- CLOSE (R667). -/
def execClose (t : Nat) (src : Source) (msg : List Byte) (s : State) : Host.Outcome State Fault Refusal :=
  finish ((s.atTime t).sxmMessageIn src msg)

/-- SXM_IDLE_TIMEOUT: a session without an accepted REQUEST for the idle time ends (R667). -/
def execSxmIdleTimeout (t : Nat) (n : Fin 8) (s : State) : Host.Outcome State Fault Refusal :=
  let s := s.atTime t
  finish (match s.session n.val with
    | some x => s.when (decide (x.lastAccept + s.sxmIdle ≤ s.now)) fun s => s.endSession n.val
    | none => s)

/-- The body of a NOTIFY: INT_STATUS, LOG_HEAD, the array time of sending (R668). -/
def State.notifyBody (s : State) : List Byte :=
  leBytes 4 (s.get Reg.HOST.INT_STATUS.word) ++ leBytes 4 (s.get Reg.RECOVERY.LOG_HEAD.word) ++ timeBytes s.arrayNow

/-- A NOTIFY that is due is sent, at most once per millisecond (R668). -/
def State.sendNotify (s : State) (n : Nat) : State :=
  match s.session n with
  | some x =>
    let early := match x.lastNotify with
      | some a => decide (s.now < a + ticksOfMs 1)
      | none => false
    if !x.notifyDue || early then s
    else
      let msg := sxmMessage x.ks sxmTypeNotify (n + 1) (x.notifySeq + 1) s.notifyBody
      (s.setSession n (some { x with notifyDue := false, lastNotify := some s.now, notifySeq := x.notifySeq + 1 })).emit (.sxm x.src msg)
  | none => s

/-- NOTIFY (R668). -/
def execNotify (t : Nat) (n : Fin 8) (s : State) : Host.Outcome State Fault Refusal := finish ((s.atTime t).sendNotify n.val)

end Sys2Proof.Machine
end

