-- ==== Sys2Proof/Machine/Dispatch.lean ====
section
/-!
DEFINITION. Which meaning each command has: one arm per row of the opcode table.
-/

namespace Sys2Proof.Machine

open Sys2Proof

def exec (i : Instr) (s : State) : Host.Outcome State Fault Refusal :=
  match i with
  | .registerWrite t ch addr value => Sys2Proof.Machine.execRegisterWrite t ch addr value s
  | .lowHalfRead t ch addr => Sys2Proof.Machine.execLowHalfRead t ch addr s
  | .highHalfRead t ch addr => Sys2Proof.Machine.execHighHalfRead t ch addr s
  | .highHalfWrite t ch addr value => Sys2Proof.Machine.execHighHalfWrite t ch addr value s
  | .lowHalfWrite t ch addr value => Sys2Proof.Machine.execLowHalfWrite t ch addr value s
  | .windowWrite t ch addr value => Sys2Proof.Machine.execWindowWrite t ch addr value s
  | .read t f => Sys2Proof.Machine.execRead t f s
  | .write t f => Sys2Proof.Machine.execWrite t f s
  | .readBurst t f => Sys2Proof.Machine.execReadBurst t f s
  | .vestFrameTimeout t => Sys2Proof.Machine.execVestFrameTimeout t s
  | .sxmHello t src msg => Sys2Proof.Machine.execSxmHello t src msg s
  | .request t src msg => Sys2Proof.Machine.execRequest t src msg s
  | .close t src msg => Sys2Proof.Machine.execClose t src msg s
  | .sxmIdleTimeout t n => Sys2Proof.Machine.execSxmIdleTimeout t n s
  | .sxmCtlWrite t ch value => Sys2Proof.Machine.execSxmCtlWrite t ch value s
  | .notify t n => Sys2Proof.Machine.execNotify t n s
  | .keepRead t ch => Sys2Proof.Machine.execKeepRead t ch s
  | .program t ch => Sys2Proof.Machine.execProgram t ch s
  | .keepBegin t ch => Sys2Proof.Machine.execKeepBegin t ch s
  | .keepCommit t ch => Sys2Proof.Machine.execKeepCommit t ch s
  | .abortUpdate t ch => Sys2Proof.Machine.execAbortUpdate t ch s
  | .eraseSlot t ch => Sys2Proof.Machine.execEraseSlot t ch s
  | .copy t ch => Sys2Proof.Machine.execCopy t ch s
  | .keepCmdDone t => Sys2Proof.Machine.execKeepCmdDone t s
  | .logPageProgram t => Sys2Proof.Machine.execLogPageProgram t s
  | .otpProgram t ch => Sys2Proof.Machine.execOtpProgram t ch s
  | .nonce t ch => Sys2Proof.Machine.execNonce t ch s
  | .unlock t ch => Sys2Proof.Machine.execUnlock t ch s
  | .sxmKeyStore t ch slot => Sys2Proof.Machine.execSxmKeyStore t ch slot s
  | .sxmKeyClear t ch slot => Sys2Proof.Machine.execSxmKeyClear t ch slot s
  | .securityCmdDone t => Sys2Proof.Machine.execSecurityCmdDone t s
  | .load t ch => Sys2Proof.Machine.execLoad t ch s
  | .loadInstall t => Sys2Proof.Machine.execLoadInstall t s
  | .verify t ch => Sys2Proof.Machine.execVerify t ch s
  | .verifyDone t => Sys2Proof.Machine.execVerifyDone t s
  | .confirm t ch => Sys2Proof.Machine.execConfirm t ch s
  | .raiseFloor t ch => Sys2Proof.Machine.execRaiseFloor t ch s
  | .prefer t ch slot => Sys2Proof.Machine.execPrefer t ch slot s
  | .tryCmd t ch slot => Sys2Proof.Machine.execTryCmd t ch slot s
  | .lock t ch => Sys2Proof.Machine.execLock t ch s
  | .slotRecordUpdateDone t => Sys2Proof.Machine.execSlotRecordUpdateDone t s
  | .fullReset t source ch failed => Sys2Proof.Machine.execFullReset t source ch failed s
  | .bootReady t passed failed => Sys2Proof.Machine.execBootReady t passed failed s
  | .pinReset t ns => Sys2Proof.Machine.execPinReset t ns s
  | .powerGoodFall t n ns => Sys2Proof.Machine.execPowerGoodFall t n ns s
  | .hostReset t ch value failed => Sys2Proof.Machine.execHostReset t ch value failed s
  | .bootStepTimeout t step unit => Sys2Proof.Machine.execBootStepTimeout t step unit s
  | .resetNRelease t devId failed => Sys2Proof.Machine.execResetNRelease t devId failed s
  | .powerGoodRise t n failed => Sys2Proof.Machine.execPowerGoodRise t n failed s
  | .dcBlockUpdate t p samples => Sys2Proof.Machine.execDcBlockUpdate t p samples s
  | .iqWindowEnd t p power residual => Sys2Proof.Machine.execIqWindowEnd t p power residual s
  | .blankRise t n => Sys2Proof.Machine.execBlankRise t n s
  | .blankFall t n => Sys2Proof.Machine.execBlankFall t n s
  | .pathRetire t ch p => Sys2Proof.Machine.execPathRetire t ch p s
  | .pathFault t p cause => Sys2Proof.Machine.execPathFault t p cause s
  | .femScript t g ev replies => Sys2Proof.Machine.execFemScript t g ev replies s
  | .femInitTimeout t g served => Sys2Proof.Machine.execFemInitTimeout t g served s
  | .loBiasDone t b => Sys2Proof.Machine.execLoBiasDone t b s
  | .loBandDone t b => Sys2Proof.Machine.execLoBandDone t b s
  | .loLockDeclared t b => Sys2Proof.Machine.execLoLockDeclared t b s
  | .loAcquireTimeout t b => Sys2Proof.Machine.execLoAcquireTimeout t b s
  | .loSettleDone t b => Sys2Proof.Machine.execLoSettleDone t b s
  | .loLockLoss t b => Sys2Proof.Machine.execLoLockLoss t b s
  | .loHandback t b => Sys2Proof.Machine.execLoHandback t b s
  | .loRelock t ch b => Sys2Proof.Machine.execLoRelock t ch b s
  | .rxDc t ch p fem => Sys2Proof.Machine.execRxDc t ch p fem s
  | .rxIq t ch p fem => Sys2Proof.Machine.execRxIq t ch p fem s
  | .txLol t ch p fem => Sys2Proof.Machine.execTxLol t ch p fem s
  | .txIq t ch p fem => Sys2Proof.Machine.execTxIq t ch p fem s
  | .obs t ch p => Sys2Proof.Machine.execObs t ch p s
  | .all t ch p rx tx => Sys2Proof.Machine.execAll t ch p rx tx s
  | .calCancel t ch p => Sys2Proof.Machine.execCalCancel t ch p s
  | .calStart t p => Sys2Proof.Machine.execCalStart t p s
  | .calDone t p results => Sys2Proof.Machine.execCalDone t p results s
  | .calLostMidway t p precond => Sys2Proof.Machine.execCalLostMidway t p precond s
  | .obsAttempt t g => Sys2Proof.Machine.execObsAttempt t g s
  | .obsCaptureDone t g inPhase quadrature err ref => Sys2Proof.Machine.execObsCaptureDone t g inPhase quadrature err ref s
  | .obsHostReq t ch g n => Sys2Proof.Machine.execObsHostReq t ch g n s
  | .obsRelearn t ch g => Sys2Proof.Machine.execObsRelearn t ch g s
  | .dpdRoundEnd t g => Sys2Proof.Machine.execDpdRoundEnd t g s
  | .dpdFitDone t g tables => Sys2Proof.Machine.execDpdFitDone t g tables s
  | .dpdVerifyEnd t g => Sys2Proof.Machine.execDpdVerifyEnd t g s
  | .dpdDiscard t ch g => Sys2Proof.Machine.execDpdDiscard t ch g s
  | .dpdModeWrite t ch g value => Sys2Proof.Machine.execDpdModeWrite t ch g value s
  | .symbolBoundary t c adc => Sys2Proof.Machine.execSymbolBoundary t c adc s
  | .releaseTime t => Sys2Proof.Machine.execReleaseTime t s
  | .downlinkDeadline t c => Sys2Proof.Machine.execDownlinkDeadline t c s
  | .carrierStart t c => Sys2Proof.Machine.execCarrierStart t c s
  | .carrierStop t c => Sys2Proof.Machine.execCarrierStop t c s
  | .capArm t ch value => Sys2Proof.Machine.execCapArm t ch value s
  | .capCancel t ch => Sys2Proof.Machine.execCapCancel t ch s
  | .capTrigger t => Sys2Proof.Machine.execCapTrigger t s
  | .capEnd t codes => Sys2Proof.Machine.execCapEnd t codes s
  | .prachOccasion t c n adc => Sys2Proof.Machine.execPrachOccasion t c n adc s
  | .solverEpochStart t c => Sys2Proof.Machine.execSolverEpochStart t c s
  | .solverEpochDone t c => Sys2Proof.Machine.execSolverEpochDone t c s
  | .nop t h => Sys2Proof.Machine.execNop t h s
  | .jmp t h => Sys2Proof.Machine.execJmp t h s
  | .call t h => Sys2Proof.Machine.execCall t h s
  | .ret t h => Sys2Proof.Machine.execRet t h s
  | .loop t h => Sys2Proof.Machine.execLoop t h s
  | .waite t h => Sys2Proof.Machine.execWaite t h s
  | .rete t h => Sys2Proof.Machine.execRete t h s
  | .evmask t h => Sys2Proof.Machine.execEvmask t h s
  | .sig t h => Sys2Proof.Machine.execSig t h s
  | .addi t h => Sys2Proof.Machine.execAddi t h s
  | .lui t h => Sys2Proof.Machine.execLui t h s
  | .ori t h => Sys2Proof.Machine.execOri t h s
  | .add t h => Sys2Proof.Machine.execAdd t h s
  | .sub t h => Sys2Proof.Machine.execSub t h s
  | .hallAnd t h => Sys2Proof.Machine.execHallAnd t h s
  | .hallOr t h => Sys2Proof.Machine.execHallOr t h s
  | .hallXor t h => Sys2Proof.Machine.execHallXor t h s
  | .shl t h => Sys2Proof.Machine.execShl t h s
  | .shra t h => Sys2Proof.Machine.execShra t h s
  | .shrl t h => Sys2Proof.Machine.execShrl t h s
  | .cmp t h => Sys2Proof.Machine.execCmp t h s
  | .gets t h => Sys2Proof.Machine.execGets t h s
  | .puts t h => Sys2Proof.Machine.execPuts t h s
  | .ldv t h => Sys2Proof.Machine.execLdv t h s
  | .ldb t h => Sys2Proof.Machine.execLdb t h s
  | .ldl t h => Sys2Proof.Machine.execLdl t h s
  | .stv t h => Sys2Proof.Machine.execStv t h s
  | .stl t h => Sys2Proof.Machine.execStl t h s
  | .ldw t h => Sys2Proof.Machine.execLdw t h s
  | .stw t h => Sys2Proof.Machine.execStw t h s
  | .send t h => Sys2Proof.Machine.execSend t h s
  | .fetch t h => Sys2Proof.Machine.execFetch t h s
  | .cmul t h => Sys2Proof.Machine.execCmul t h s
  | .cmac t h => Sys2Proof.Machine.execCmac t h s
  | .cmsc t h => Sys2Proof.Machine.execCmsc t h s
  | .rmac t h => Sys2Proof.Machine.execRmac t h s
  | .vadd t h => Sys2Proof.Machine.execVadd t h s
  | .vsub t h => Sys2Proof.Machine.execVsub t h s
  | .vshr t h => Sys2Proof.Machine.execVshr t h s
  | .vshl t h => Sys2Proof.Machine.execVshl t h s
  | .vmov t h => Sys2Proof.Machine.execVmov t h s
  | .clra t h => Sys2Proof.Machine.execClra t h s
  | .extr t h => Sys2Proof.Machine.execExtr t h s
  | .rsum t h => Sys2Proof.Machine.execRsum t h s
  | .hallExp t h => Sys2Proof.Machine.execHallExp t h s
  | .norm t h => Sys2Proof.Machine.execNorm t h s
  | .clrf t h => Sys2Proof.Machine.execClrf t h s
  | .eventAccept t h => Sys2Proof.Machine.execEventAccept t h s
  | .mboxInWrite t ch h value => Sys2Proof.Machine.execMboxInWrite t ch h value s
  | .dmDataAccess t ch h value => Sys2Proof.Machine.execDmDataAccess t ch h value s
  | .flitArrival t h f => Sys2Proof.Machine.execFlitArrival t h f s
  | .fetchResult t h => Sys2Proof.Machine.execFetchResult t h s
  | .hallTimer t h => Sys2Proof.Machine.execHallTimer t h s
  | .doorbell t h => Sys2Proof.Machine.execDoorbell t h s
  | .routeFlitRelease t h f => Sys2Proof.Machine.execRouteFlitRelease t h f s
  | .portSignalDetect t n => Sys2Proof.Machine.execPortSignalDetect t n s
  | .portTrainDone t n foms => Sys2Proof.Machine.execPortTrainDone t n foms s
  | .portAlignDone t n => Sys2Proof.Machine.execPortAlignDone t n s
  | .portTrainTimeout t n => Sys2Proof.Machine.execPortTrainTimeout t n s
  | .portRetry t n => Sys2Proof.Machine.execPortRetry t n s
  | .linkFault t n cause => Sys2Proof.Machine.execLinkFault t n cause s
  | .flowReturnHome t n => Sys2Proof.Machine.execFlowReturnHome t n s
  | .ulStaleDiscard t n => Sys2Proof.Machine.execUlStaleDiscard t n s
  | .frameReceive t n f => Sys2Proof.Machine.execFrameReceive t n f s
  | .cplaneMessage t n eaxc seq sections => Sys2Proof.Machine.execCplaneMessage t n eaxc seq sections s
  | .gapSkip t n eaxc => Sys2Proof.Machine.execGapSkip t n eaxc s
  | .uplaneSection t n eaxc u => Sys2Proof.Machine.execUplaneSection t n eaxc u s
  | .delayMeasurement t n action id stamp => Sys2Proof.Machine.execDelayMeasurement t n action id stamp s
  | .ptpMessage t n domain body => Sys2Proof.Machine.execPtpMessage t n domain body s
  | .arpRequest t n mac ip target => Sys2Proof.Machine.execArpRequest t n mac ip target s
  | .neighbourSolicitation t n mac ip target => Sys2Proof.Machine.execNeighbourSolicitation t n mac ip target s
  | .echoRequest t n src dst id seq data => Sys2Proof.Machine.execEchoRequest t n src dst id seq data s
  | .ptConfirm t ch n => Sys2Proof.Machine.execPtConfirm t ch n s
  | .fhAdaptCommit t lane fom => Sys2Proof.Machine.execFhAdaptCommit t lane fom s
  | .injOne t ch lane => Sys2Proof.Machine.execInjOne t ch lane s
  | .checkerLock t lane bits errors => Sys2Proof.Machine.execCheckerLock t lane bits errors s
  | .codewordReceive t lane seq content ack fec => Sys2Proof.Machine.execCodewordReceive t lane seq content ack fec s
  | .codewordResend t port => Sys2Proof.Machine.execCodewordResend t port s
  | .ackStall t port => Sys2Proof.Machine.execAckStall t port s
  | .detectBurst t port b => Sys2Proof.Machine.execDetectBurst t port b s
  | .detectBurstSend t port => Sys2Proof.Machine.execDetectBurstSend t port s
  | .echoPhaseEnd t port => Sys2Proof.Machine.execEchoPhaseEnd t port s
  | .farEqDone t port foms => Sys2Proof.Machine.execFarEqDone t port foms s
  | .fullDone t port delays => Sys2Proof.Machine.execFullDone t port delays s
  | .portPhaseTimeout t port => Sys2Proof.Machine.execPortPhaseTimeout t port s
  | .holdoffEnd t port => Sys2Proof.Machine.execHoldoffEnd t port s
  | .stairAdaptCommit t lane fom => Sys2Proof.Machine.execStairAdaptCommit t lane fom s
  | .idleRollback t lane fom => Sys2Proof.Machine.execIdleRollback t lane fom s
  | .laneIdle t lane => Sys2Proof.Machine.execLaneIdle t lane s
  | .laneFault t lane cause => Sys2Proof.Machine.execLaneFault t lane cause s
  | .laneRejoin t lane => Sys2Proof.Machine.execLaneRejoin t lane s
  | .flightFault t port cause => Sys2Proof.Machine.execFlightFault t port cause s
  | .helloSend t port => Sys2Proof.Machine.execHelloSend t port s
  | .helloTimeout t port => Sys2Proof.Machine.execHelloTimeout t port s
  | .hello t port h => Sys2Proof.Machine.execHello t port h s
  | .partialSum t port x => Sys2Proof.Machine.execPartialSum t port x s
  | .chunkForward t carrier layer slot sym first => Sys2Proof.Machine.execChunkForward t carrier layer slot sym first s
  | .supplement t port origin x => Sys2Proof.Machine.execSupplement t port origin x s
  | .missing t port root carrier layer slot sym first => Sys2Proof.Machine.execMissing t port root carrier layer slot sym first s
  | .layer t port x => Sys2Proof.Machine.execLayer t port x s
  | .sections t port carrier l => Sys2Proof.Machine.execSections t port carrier l s
  | .finished t port x => Sys2Proof.Machine.execFinished t port x s
  | .time t port index t1 t4 => Sys2Proof.Machine.execTime t port index t1 t4 s
  | .timeMark t port heard stamp => Sys2Proof.Machine.execTimeMark t port heard stamp s
  | .join t port landing uid path => Sys2Proof.Machine.execJoin t port landing uid path s
  | .tree t port state path addition start target => Sys2Proof.Machine.execTree t port state path addition start target s
  | .treeHeartbeat t => Sys2Proof.Machine.execTreeHeartbeat t s
  | .treeLost t => Sys2Proof.Machine.execTreeLost t s
  | .reparent t port landing carrier symbol kind members => Sys2Proof.Machine.execReparent t port landing carrier symbol kind members s
  | .reparentTimeout t => Sys2Proof.Machine.execReparentTimeout t s
  | .resume t port carrier symbol => Sys2Proof.Machine.execResume t port carrier symbol s
  | .gram t port carrier slot l => Sys2Proof.Machine.execGram t port carrier slot l s
  | .inverse t port carrier slot l => Sys2Proof.Machine.execInverse t port carrier slot l s
  | .sleep t port => Sys2Proof.Machine.execSleep t port s
  | .wakePatternDetect t port pattern => Sys2Proof.Machine.execWakePatternDetect t port pattern s
  | .wakePatternSent t port => Sys2Proof.Machine.execWakePatternSent t port s
  | .stairWake t ch port => Sys2Proof.Machine.execStairWake t ch port s
  | .stairRetrain t ch port => Sys2Proof.Machine.execStairRetrain t ch port s
  | .laneTxfWrite t ch lane value => Sys2Proof.Machine.execLaneTxfWrite t ch lane value s
  | .maskWrite t ch k value => Sys2Proof.Machine.execMaskWrite t ch k value s
  | .otaStart t ch => Sys2Proof.Machine.execOtaStart t ch s
  | .otaDiscard t ch => Sys2Proof.Machine.execOtaDiscard t ch s
  | .otaRoundTimer t => Sys2Proof.Machine.execOtaRoundTimer t s
  | .schedule t round first period windows => Sys2Proof.Machine.execSchedule t round first period windows s
  | .otaWindow t number ends factors => Sys2Proof.Machine.execOtaWindow t number ends factors s
  | .otaDetection t k path metric => Sys2Proof.Machine.execOtaDetection t k path metric s
  | .otaCaptureDone t k header samples overloads => Sys2Proof.Machine.execOtaCaptureDone t k header samples overloads s
  | .report t round window sender receiver phi metric => Sys2Proof.Machine.execReport t round window sender receiver phi metric s
  | .missed t round window receiver sender => Sys2Proof.Machine.execMissed t round window receiver sender s
  | .otaRetrySchedule t => Sys2Proof.Machine.execOtaRetrySchedule t s
  | .otaSolutionDone t psi resid => Sys2Proof.Machine.execOtaSolutionDone t psi resid s
  | .solution t round entries => Sys2Proof.Machine.execSolution t round entries s
  | .stale t landing => Sys2Proof.Machine.execStale t landing s
  | .openLocal t ch => Sys2Proof.Machine.execOpenLocal t ch s
  | .openArray t ch => Sys2Proof.Machine.execOpenArray t ch s
  | .prepare t ch slot => Sys2Proof.Machine.execPrepare t ch slot s
  | .abort t ch slot => Sys2Proof.Machine.execAbort t ch slot s
  | .release t ch slot => Sys2Proof.Machine.execRelease t ch slot s
  | .txnBind t ch value => Sys2Proof.Machine.execTxnBind t ch value s
  | .livePrepareDone t slot => Sys2Proof.Machine.execLivePrepareDone t slot s
  | .openReq t landing tag => Sys2Proof.Machine.execOpenReq t landing tag s
  | .announce t id slot origin tag result => Sys2Proof.Machine.execAnnounce t id slot origin tag result s
  | .prepareReq t id point => Sys2Proof.Machine.execPrepareReq t id point s
  | .prepareMessage t id time decide carrier => Sys2Proof.Machine.execPrepareMessage t id time decide carrier s
  | .vote t port id yes no cause => Sys2Proof.Machine.execVote t port id yes no cause s
  | .decision t id commit cause landing => Sys2Proof.Machine.execDecision t id commit cause landing s
  | .txnDecisionTimeout t slot => Sys2Proof.Machine.execTxnDecisionTimeout t slot s
  | .abortReq t id landing => Sys2Proof.Machine.execAbortReq t id landing s
  | .query t port id landing => Sys2Proof.Machine.execQuery t port id landing s
  | .queryRetry t slot => Sys2Proof.Machine.execQueryRetry t slot s
  | .hold t port id held carrier symbol => Sys2Proof.Machine.execHold t port id held carrier symbol s
  | .outcomes t landing entries => Sys2Proof.Machine.execOutcomes t landing entries s
  | .commitLatch t => Sys2Proof.Machine.execCommitLatch t s
  | .internalCheckpoint t unit => Sys2Proof.Machine.execInternalCheckpoint t unit s
  | .hallFault t tile carriers => Sys2Proof.Machine.execHallFault t tile carriers s
  | .pipeFault t p => Sys2Proof.Machine.execPipeFault t p s
  | .beamFault t => Sys2Proof.Machine.execBeamFault t s
  | .atriumFault t carriers => Sys2Proof.Machine.execAtriumFault t carriers s
  | .scrubPass t bank corrected bad => Sys2Proof.Machine.execScrubPass t bank corrected bad s
  | .bankUncorrectable t bank word carriers held => Sys2Proof.Machine.execBankUncorrectable t bank word carriers held s
  | .corridorCrcError t h persistent => Sys2Proof.Machine.execCorridorCrcError t h persistent s
  | .replayDone t cls inst => Sys2Proof.Machine.execReplayDone t cls inst s
  | .refclkLoss t => Sys2Proof.Machine.execRefclkLoss t s
  | .refHoldoverLimit t => Sys2Proof.Machine.execRefHoldoverLimit t s
  | .refclkAccept t hz us => Sys2Proof.Machine.execRefclkAccept t hz us s
  | .refPullEnd t => Sys2Proof.Machine.execRefPullEnd t s
  | .sourceLoss t => Sys2Proof.Machine.execSourceLoss t s
  | .syncInEdge t => Sys2Proof.Machine.execSyncInEdge t s
  | .align t ch => Sys2Proof.Machine.execAlign t ch s
  | .synthLockLoss t island => Sys2Proof.Machine.execSynthLockLoss t island s
  | .synthLockDeclared t island unit => Sys2Proof.Machine.execSynthLockDeclared t island unit s
  | .synthAttemptTimeout t island unit => Sys2Proof.Machine.execSynthAttemptTimeout t island unit s
  | .cnvHandover t => Sys2Proof.Machine.execCnvHandover t s
  | .cnvStop t => Sys2Proof.Machine.execCnvStop t s
  | .cnvStandbyTracking t diff => Sys2Proof.Machine.execCnvStandbyTracking t diff s
  | .xfeedMeasure t delta => Sys2Proof.Machine.execXfeedMeasure t delta s
  | .ditherForceWrite t ch value => Sys2Proof.Machine.execDitherForceWrite t ch value s
  | .planningSlotBoundary t ok => Sys2Proof.Machine.execPlanningSlotBoundary t ok s
  | .pmbusReadback t mv => Sys2Proof.Machine.execPmbusReadback t mv s
  | .pmAlert t status => Sys2Proof.Machine.execPmAlert t status s
  | .energyUpdate t core nonCore => Sys2Proof.Machine.execEnergyUpdate t core nonCore s
  | .speedMeasure t readings => Sys2Proof.Machine.execSpeedMeasure t readings s
  | .speedMiss t => Sys2Proof.Machine.execSpeedMiss t s
  | .enterIdle t ch asserted => Sys2Proof.Machine.execEnterIdle t ch asserted s
  | .enterDoze t ch asserted => Sys2Proof.Machine.execEnterDoze t ch asserted s
  | .enterDeep t ch asserted => Sys2Proof.Machine.execEnterDeep t ch asserted s
  | .powerStateEntered t => Sys2Proof.Machine.execPowerStateEntered t s
  | .wakeSource t src => Sys2Proof.Machine.execWakeSource t src s
  | .wakeStepTimeout t step unit => Sys2Proof.Machine.execWakeStepTimeout t step unit s
  | .wakeDone t failed sets => Sys2Proof.Machine.execWakeDone t failed sets s
  | .retRelease t ch value => Sys2Proof.Machine.execRetRelease t ch value s
  | .hkRoundStart t => Sys2Proof.Machine.execHkRoundStart t s
  | .hkEntryDone t k inputs ref => Sys2Proof.Machine.execHkEntryDone t k inputs ref s
  | .hkRoundEnd t zero check ref => Sys2Proof.Machine.execHkRoundEnd t zero check ref s
  | .hkInject t ch value => Sys2Proof.Machine.execHkInject t ch value s
  | .hkInjectDone t inputs ref => Sys2Proof.Machine.execHkInjectDone t inputs ref s
  | .hkRefWrite t ch value => Sys2Proof.Machine.execHkRefWrite t ch value s
  | .hkRefSettled t => Sys2Proof.Machine.execHkRefSettled t s
  | .zero t ch value => Sys2Proof.Machine.execZero t ch value s
  | .span t ch value => Sys2Proof.Machine.execSpan t ch value s
  | .syscalCancel t ch => Sys2Proof.Machine.execSyscalCancel t ch s
  | .syscalCaptureDone t inputs ref => Sys2Proof.Machine.execSyscalCaptureDone t inputs ref s
  | .trimReload t ch => Sys2Proof.Machine.execTrimReload t ch s
  | .trimWrite t ch addr value => Sys2Proof.Machine.execTrimWrite t ch addr value s
  | .trimCopyDone t => Sys2Proof.Machine.execTrimCopyDone t s
  | .bandgapSettled t => Sys2Proof.Machine.execBandgapSettled t s
  | .hkConversionTimeout t => Sys2Proof.Machine.execHkConversionTimeout t s

end Sys2Proof.Machine
end

