-- ==== Sys2Proof/Machine/Step.lean ====
section
/-!
DEFINITION. One step: the command at the front of the queue (first in, first out).
-/

namespace Sys2Proof.Machine

open Sys2Proof

/-- One step: the command at the front of the queue acts on the rest; on an empty queue the block idles (DESIGN CHOICE, log entry 42).
What happens at an instant of time is a command of its own, whose operand names the instant (DESIGN CHOICE, log entry 1). -/
def step (s : State) : Host.Outcome State Fault Refusal :=
  match s.pending with
  | [] => .next s
  | c :: rest => exec c { s with pending := rest }

/-- The state with the command that a word spells in front of its queue; unchanged where the word spells none. -/
def State.withFetchWord (s : State) (nbits w : Nat) : State :=
  match decodeTableWord nbits w with
  | some c => { s with pending := c :: s.pending }
  | none => s

end Sys2Proof.Machine
end

