-- ==== Sys2Proof/WellFormed.lean ====
section
/-!
DEFINITION. When a command is well-formed: its operands lie within the ranges that the spec gives them. The meanings are total and do
not depend on it; claims may.
-/

namespace Sys2Proof

/-- Is a number below a bound? -/
def below (n x : Nat) : Bool := decide (x < n)

/-- Is a number in a range, ends included? -/
def between (lo hi x : Nat) : Bool := decide (lo ≤ x) && decide (x ≤ hi)

/-- A list of `n` members. -/
def ofLength {α : Type} (n : Nat) (l : List α) : Bool := l.length == n

/-- A MAC address, and an IPv4 or IPv6 address. -/
def macWf (l : List Byte) : Bool := ofLength 6 l
def ipWf (l : List Byte) : Bool := ofLength 4 l || ofLength 16 l

/-- Where an SXM message came from: a port, a MAC and an IP address, a VLAN ID, a UDP port. -/
def Source.wf (x : Source) : Bool :=
  below 8 x.port && macWf x.mac && ipWf x.ip && below 65536 x.udp && (match x.vid with
    | some v => below 4096 v
    | none => true)

/-- An SXM message is a UDP payload of at most 1,472 bytes (R415). -/
def sxmWf (src : Source) (msg : List Byte) : Bool := src.wf && decide (msg.length ≤ 1472)

/-- A landing number (R80). -/
def landingWf (n : Nat) : Bool := below 512 n

/-- What fails at a reset: a trim word's register address, a tile, a path or spare pipeline, a bank or spare bank. -/
def failedWf (l : List (Nat × Nat)) : Bool :=
  l.all fun e => e.1 == 0 || (e.1 == 1 && below 144 e.2) || (e.1 == 2 && below 68 e.2) || (e.1 == 5 && below 816 e.2)

/-- A chunk of a symbol (R444). -/
def Chunk.wf (x : Chunk) : Bool := below 8 x.carrier && below 32 x.layer && below 14 x.sym && x.prbs.all fun e => ofLength 12 e.2

/-- A section of a U-plane message (R388). -/
def USection.wf (u : USection) : Bool := below 14 u.sym && u.prbs.all fun e => below 256 e.1 && ofLength 12 e.2

/-- Is the command well-formed? -/
def Instr.wf : Instr → Bool
  | .sxmHello _ src msg => sxmWf src msg
  | .request _ src msg => sxmWf src msg
  | .close _ src msg => sxmWf src msg
  | .fullReset _ source _ failed => (source == 1 || source == 2 || source == 3 || source == 5) && failedWf failed
  | .hostReset _ _ _ failed => failedWf failed
  | .resetNRelease _ _ failed => failedWf failed
  | .powerGoodRise _ _ failed => failedWf failed
  | .bootStepTimeout _ step _ => between 2 4 step
  | .dcBlockUpdate _ _ samples => ofLength 64 samples
  | .pathFault _ _ cause => between 1 5 cause.val
  | .femScript _ _ _ replies => ofLength 8 replies
  | .femInitTimeout _ _ served => between 0 8 served
  | .symbolBoundary _ _ adc => ofLength 64 adc
  | .linkFault _ _ cause => between 1 6 cause.val
  | .cplaneMessage _ _ eaxc seq _ => below 65536 eaxc && below 256 seq
  | .gapSkip _ _ eaxc => below 65536 eaxc
  | .uplaneSection _ _ eaxc u => below 65536 eaxc && u.wf
  | .arpRequest _ _ mac ip target => macWf mac && ofLength 4 ip && ofLength 4 target
  | .neighbourSolicitation _ _ mac ip target => macWf mac && ofLength 16 ip && ofLength 16 target
  | .echoRequest _ _ src dst id seq _ => ipWf src && ipWf dst && below 65536 id && below 65536 seq
  | .fullDone _ _ delays => ofLength 16 delays
  | .laneFault _ _ cause => between 1 5 cause.val
  | .flightFault _ _ cause => between 8 14 cause.val
  | .partialSum _ _ x => x.wf
  | .supplement _ _ origin x => landingWf origin && x.wf
  | .layer _ _ x => x.wf
  | .finished _ _ x => x.wf
  | .join _ _ landing uid _ => landingWf landing && below (2 ^ 64) uid
  | .otaCaptureDone _ _ _ streams _ => ofLength 64 streams && streams.all fun x => ofLength 768 x
  | .prepareMessage _ _ _ _ carrier => below 8 carrier
  | .vote _ _ _ _ no _ => landingWf no || no == 0xFFFF
  | .hallFault _ _ carriers => below 256 carriers
  | .atriumFault _ carriers => below 256 carriers
  | .scrubPass _ _ _ bad => match bad with
    | some o => below 0x20000 o
    | none => true
  | .bankUncorrectable _ _ word carriers _ => below 0x20000 word && below 256 carriers
  | .synthLockLoss _ island => island != 1 && island != 2
  | .synthLockDeclared _ island _ => island != 1 && island != 2
  | .synthAttemptTimeout _ island _ => island != 1 && island != 2
  | .speedMeasure _ readings => ofLength 16 readings
  | .wakeDone _ failed sets => failed.all (below 768) && sets.all fun e => below 8 e.1 && below 2 e.2
  | .enterIdle _ _ asserted => below 128 asserted
  | .enterDoze _ _ asserted => below 128 asserted
  | .enterDeep _ _ asserted => below 128 asserted
  | _ => true

end Sys2Proof
end

