-- ==== Sys2Proof/Safety.lean ====
section
/-!
DEFINITION. What counts as a safe run, in the terms that claims use.
-/

namespace Sys2Proof.Machine

open Sys2Proof

/-- The pins tell the truth: INT_N and FAULT_N are asserted exactly while R670 and R671 say so. -/
def State.pinsTrue (s : State) : Prop := s.intN = s.intAsserted ∧ s.faultN = s.faultAsserted

/-- The two stores are in canonical form. -/
def State.storesWf (s : State) : Bool := RegFile.wf s.regs && Memory.wf s.mem

/-- Every fixed collection of the block has the number of members that the hardware has: channels, sessions, slots, paths, groups, ports, lanes,
partners, carriers, halls, alcoves, spares, islands, monitors, sensors. -/
def State.shaped (s : State) : Bool :=
  [(s.chans.length, 9), (s.sessions.length, 8), (s.keep.sxmKeys.length, 4), (s.boot.pg.length, 4), (s.txn.slots.length, 29),
   (s.radio.paths.length, 64), (s.radio.banks.length, 2), (s.radio.blank.length, 4), (s.radio.femReady.length, 64),
   (s.radio.blankedAt.length, 8), (s.radio.initDone.length, 8), (s.radio.femDue.length, 8), (s.clock.attempts.length, 8),
   (s.clock.restarting.length, 8), (s.clock.cnvAttempts.length, 2), (s.clock.cnvRestarting.length, 2), (s.clock.cnvLfsr.length, 2),
   (s.carriers.length, 8), (s.obs.length, 8), (s.obsPath.length, 64), (s.beam.sets.length, 8),
   (s.beam.maps.length, 8), (s.beam.replays.length, 8), (s.beam.checks.length, 8), (s.beam.epochs.length, 8), (s.beam.lastEpoch.length, 8), (s.fh.ports.length, 8), (s.fh.partners.length, 64),
   (s.fh.masters.length, 8), (s.fh.replays.length, 8), (s.fh.checks.length, 8), (s.fh.laneBack.length, 8),
   (s.fh.injected.length, 8), (s.halls.length, 136), (s.alcoves.length, 8), (s.stair.ports.length, 4), (s.stair.lanes.length, 16),
   (s.ota.tau.length, 64), (s.ota.rho.length, 64), (s.ota.newTau.length, 64), (s.ota.newRho.length, 64), (s.ota.captures.length, 2),
   (s.recov.pipes.length, 4), (s.recov.banks.length, 48), (s.energy.monitors.length, 16), (s.energy.failures.length, 3),
   (s.hk.codes.length, 24), (s.hk.sensors.length, 24)].all fun e => e.1 == e.2

/-- The state after the first `k` commands of the queue, or none where one of them does not end in a next state. -/
def State.after (s : State) : Nat → Option State
  | 0 => some s
  | k + 1 => match s.after k with
    | some x => match step x with
      | .next y => some y
      | _ => none
    | none => none

/-- Every waiting command is well-formed. -/
def State.queueWf (s : State) : Bool := s.pending.all Instr.wf

end Sys2Proof.Machine
end

