-- ==== Sys2Proof/Certificates/Slice0/Obligations.lean ====
section
/-!
DEFINITION. The statements about the block, for the provers. A statement of what a command does has as its conclusion that
`Sys2Proof.Machine.exec` answers a next state, and says which.
-/

namespace Sys2Proof.Machine

open Sys2Proof

/-- A host channel reaches a register at a time: it is open, and the block answers (R650, R660). -/
abbrev State.reaches (s : State) (t : Nat) (ch : Channel) (a : Nat) : Prop :=
  (s.atTime t).channelOpen ch.val = true ∧ (s.atTime t).answers a = true

/-- The command answers the state `u` as every command leaves it: the settings of the samples that follow are recorded, and the pins follow
R670 and R671. -/
def Gives (c : Instr) (s u : State) : Prop := exec c s = .next u.settled

/-- Every register but those at the addresses of a list reads as before. -/
def SameWords (s u : State) (l : List Nat) : Prop := ∀ a, a ∉ l → u.word a = s.word a

/-- Hall `h` can issue at time `t`, the word at its PC is `w`, and the word's opcode is `op`. -/
abbrev State.issuing (s : State) (t h op w : Nat) : Prop :=
  (s.atTime t).hallReady h = true ∧ s.hallWord h = w ∧ field w 26 6 = op ∧ s.halls.length = 136

/-- Hall `h` completes its instruction: its work changes by `f`, and the next address in sequence follows. -/
def State.completes (s : State) (t h : Nat) (f : HallCore → HallCore) : State :=
  (s.atTime t).retireHall h fun c => (f c).afterAt (f c).pc

/-- The command traps hall `h` with a cause: the hall's work stays as it was and an event record says so (R349). -/
def Traps (i : Instr) (s : State) (h cause : Nat) : Prop :=
  ∃ u, Gives i s u ∧ (u.hall h).trap = cause ∧ u.core h = s.core h ∧ u.mem = s.mem ∧
    (u.log.head?.map fun r => (r.kind, r.unit, r.inst, r.cause, r.detail)) = some (3, unitHall, h, cause, (s.core h).pc)

/-- May a round begin at time `t` (R475, R477, R495)? -/
abbrev State.mayStart (s : State) (t : Nat) : Prop :=
  s.isTop = true ∧ s.get Reg.OTA.STATUS.state = 0 ∧ s.get Reg.OTA.STATUS.staged = 0 ∧ (s.power = powerActive ∨ s.power = powerQuiet) ∧
    s.get Reg.OTA.CTL.mode ≠ 0 ∧ s.treeState = treeFormed ∧ (s.atTime t).windowOk = true

/-- A round has begun at the top: its number, its LOOP windows and BURST windows, nothing reported (R476 to R478). -/
def RoundBegun (s u : State) : Prop :=
  u.get Reg.OTA.STATUS.state = 1 ∧ u.get Reg.OTA.ROUND.number = (s.get Reg.OTA.ROUND.number + 1) % 65536 ∧
    u.get Reg.OTA.ROUND.windows = (8 + s.burstCount s.landingCount) % 65536 ∧ u.ota.active = true ∧
    (u.ota.windows.map fun e => e.2.2) = s.roundWindows ∧ u.ota.reports = [] ∧ u.ota.missed = [] ∧ u.ota.lastStart = u.now ∧
    (s.childPorts = [] → u.out = s.out)

/-- The newest record of the event log: kind, class, unit, instance (R544). -/
def State.newest (s : State) : Option (Nat × Nat × Nat × Nat) := s.log.head?.map fun r => (r.kind, r.cls, r.unit, r.inst)

/-- The state at the end of a housekeeping round before thermal control acts, and how many sensors the round excluded (R549, R584, R638, R639). -/
def State.roundJudged (s : State) (zero check : Int) (ref : Nat) : State × Nat :=
  let r := ((({ s with hk := { s.hk with running := false } } : State).bump Reg.HK.ROUNDS.word).checkServing.checkStandby zero check ref)
  let j := r.roundEnergies.judgeSensors
  (j.1.when j.1.coreOn State.tempMoved, j.2)

end Sys2Proof.Machine

open Sys2Proof Sys2Proof.Machine

/-! ### The queue and the pins -/

/-- A step is the command at the front of the queue acting on the rest; an empty queue idles (the model's choice, log entry 42). -/
def Obligations.StepRunsFrontCommand : Prop :=
  (∀ (s : State) (c : Instr) (rest : List Instr), Sys2Proof.Machine.step { s with pending := c :: rest } = exec c { s with pending := rest }) ∧
  (∀ s : State, s.pending = [] → Sys2Proof.Machine.step s = .next s)

/-- Every command answers a next state from every state (no meaning stops: log entry 4), and a step keeps the invariant that INT_N and FAULT_N
are asserted exactly as R670 and R671 say. -/
def Obligations.PinsTellTruth : Prop :=
  (∀ (s : State) (c : Instr), ∃ u, exec c s = .next u ∧ u.pinsTrue) ∧
  (∀ s t : State, s.pinsTrue → Sys2Proof.Machine.step s = .next t → t.pinsTrue)

/-- Invariant: every step keeps shared memory and the register file in canonical form: addresses strictly rising, and no entry that an unlisted
address would read as. -/
def Obligations.StoresStayCanonical : Prop :=
  ∀ s t : State, s.storesWf = true → Sys2Proof.Machine.step s = .next t → t.storesWf = true

/-- Invariant: every step keeps the number of members that each fixed collection of the block has. The statements about one member of such a
collection take this as a premise. -/
def Obligations.ShapeIsKept : Prop :=
  ∀ s t : State, s.shaped = true → Sys2Proof.Machine.step s = .next t → t.shaped = true

/-- At reset the pins tell the truth, both stores are in canonical form, every collection has its members, and nothing waits. -/
def Obligations.ResetIsSound : Prop :=
  State.reset.pinsTrue ∧ State.reset.storesWf = true ∧ State.reset.shaped = true ∧ State.reset.queueWf = true ∧ State.reset.pending = []

/-! ### Register access (R5 to R14, R650 to R661) -/

/-- R7: what a write makes of each field of a register, by its access code; `locked` says that the image is locked. -/
def Obligations.AccessCodes : Prop :=
  ∀ (locked : Bool) (v x : Word) (f : RegField), f.lo + f.width ≤ 32 →
    getBits (storeField locked v x f) f.lo f.width =
      (match f.access with
       | .rw => getBits v f.lo f.width
       | .rwl => if locked then getBits x f.lo f.width else getBits v f.lo f.width
       | .rw1c => getBits x f.lo f.width &&& (2 ^ f.width - 1 - getBits v f.lo f.width)
       | .ro => getBits x f.lo f.width
       | .rc => getBits x f.lo f.width
       | .wo => getBits x f.lo f.width
       | .rws => getBits x f.lo f.width) ∧
    ∀ l w, l + w ≤ f.lo ∨ f.lo + f.width ≤ l → getBits (storeField locked v x f) l w = getBits x l w

/-- REGISTER_WRITE of DEVICE.SCRATCH, a plain RW register, stores the word and does nothing else; of a register in no block, or at an
unaligned address, it does nothing (R5, R659). -/
def Claim.RegisterWrite : Prop :=
  (∀ (s : State) (t : Nat) (ch : Channel) (v : Word), s.reaches t ch Reg.DEVICE.SCRATCH.word.addr →
    Gives (.registerWrite t ch 0x8 v) s ((s.atTime t).setWord Reg.DEVICE.SCRATCH.word.addr v)) ∧
  (∀ (s : State) (t : Nat) (ch : Channel) (a v : Word), (isMapped a.toNat = false ∨ a.toNat % 4 ≠ 0) →
    Gives (.registerWrite t ch a v) s (s.atTime t))

/-- LOW_HALF_READ copies the high half into the channel's holding register; HIGH_HALF_READ returns it where the tag matches, and
otherwise the live half, with unpaired set. No other channel's holding register changes. -/
def Claim.HalfReads : Prop :=
  ∀ (s : State) (t : Nat) (ch : Channel) (a : Word), s.reaches t ch a.toNat →
    (isLowHalf a.toNat = true →
      Gives (.lowHalfRead t ch a) s
        (((s.atTime t).modChan ch.val fun c => { c with hold := some (a.toNat, (s.atTime t).readValue ch.val (a.toNat + 4)) }).emit
          (.readData ch.val a.toNat ((s.atTime t).readValue ch.val a.toNat)))) ∧
    (isHighHalf a.toNat = true →
      (∀ v, (s.chan ch.val).hold = some (a.toNat - 4, v) →
        Gives (.highHalfRead t ch a) s ((s.atTime t).emit (.readData ch.val a.toNat v))) ∧
      ((∀ h, (s.chan ch.val).hold = some h → h.1 + 4 ≠ a.toNat) →
        Gives (.highHalfRead t ch a) s
          (((s.atTime t).modChan ch.val fun c => { c with unpaired := true }).emit
            (.readData ch.val a.toNat ((s.atTime t).readValue ch.val a.toNat)))))

/-- No half of R699 is writable: HIGH_HALF_WRITE and LOW_HALF_WRITE have no effect. -/
def Claim.HalfWritesNoEffect : Prop :=
  ∀ (s : State) (t : Nat) (ch : Channel) (a v : Word),
    Gives (.highHalfWrite t ch a v) s (s.atTime t) ∧ Gives (.lowHalfWrite t ch a v) s (s.atTime t)

/-- WINDOW_WRITE, while no image runs, of a word of the first twelve banks (the load buffer) is stored, and unreadies a partial image; of
another bank it does nothing; while a LOAD or VERIFY reads the load buffer the write is lost and flagged (R93, R506). -/
def Claim.WindowWrites : Prop :=
  ∀ (s : State) (t : Nat) (ch : Channel) (off : Nat) (v : Word), s.reaches t ch (windowBase + off) → off % 4 = 0 → off < windowBytes →
    s.bankLost (off / bankBytes) = false →
    (s.image.running = none → 12 ≤ off / bankBytes →
      Gives (.windowWrite t ch (BitVec.ofNat 32 (windowBase + off)) v) s (s.atTime t)) ∧
    ((s.image.running.isSome = true ∨ off / bankBytes < 12) → ((s.placeIn kindLoad off).isSome = true) →
      (s.readsBuffer = true →
        Gives (.windowWrite t ch (BitVec.ofNat 32 (windowBase + off)) v) s ((s.atTime t).put Reg.IMAGE.STATUS.buf_write_lost 1)) ∧
      (s.readsBuffer = false →
        ∃ u, Gives (.windowWrite t ch (BitVec.ofNat 32 (windowBase + off)) v) s u ∧ u.mem = Memory.writeBytes s.mem off (leBytes 4 v.toNat) ∧
          u.image.ready = none ∧ u.get Reg.IMAGE.STATUS.partial_ready = 0 ∧ SameWords s u [Reg.IMAGE.STATUS.word.addr]))

/-- A vestibule frame (READ, WRITE, READ_BURST): a frame for another DEV_ID does nothing; one whose CRC fails is counted and answered
with CRC and no words; an accepted READ is answered with its status and its word, a WRITE with its status alone. Every frame of the
device is a wake source (R656 to R661). -/
def Claim.VestibuleFrames : Prop :=
  ∀ (s : State) (t : Nat) (f : VestFrame), ∀ i ∈ [Instr.read t f, Instr.write t f, Instr.readBurst t f],
    (f.address.toNat ≠ s.boot.devId → Gives i s (s.atTime t)) ∧
    (f.address.toNat = s.boot.devId → (s.atTime t).channelOpen 0 = true →
      (vestOk f = false → Gives i s ((((s.atTime t).wakeSource 4).bump Reg.HOST.VEST_CRC_ERR.word).respond statusCrc [])) ∧
      (vestOk f = true → f.command = 1 → f.count = 0 →
        (accessStatus s.answers (4 * f.register.toNat) ≠ statusOk →
          Gives i s (((s.atTime t).wakeSource 4).respond (accessStatus s.answers (4 * f.register.toNat)) [0])) ∧
        (accessStatus s.answers (4 * f.register.toNat) = statusOk →
          Gives i s ((((s.atTime t).wakeSource 4).readOk 0 (4 * f.register.toNat)).2.respond statusOk
            [(((s.atTime t).wakeSource 4).readOk 0 (4 * f.register.toNat)).1]))) ∧
      (vestOk f = true → f.command = 3 →
        ∃ (status : Nat) (words : List Word) (u : State), words.length = f.count.toNat + 1 ∧ Gives i s (u.respond status words)) ∧
      (vestOk f = true → f.command = 2 → f.count = 0 → asksReset (4 * f.register.toNat) f.data = false →
        (accessStatus s.answers (4 * f.register.toNat) ≠ statusOk →
          Gives i s (((s.atTime t).wakeSource 4).respond (accessStatus s.answers (4 * f.register.toNat)) [])) ∧
        (accessStatus s.answers (4 * f.register.toNat) = statusOk →
          Gives i s ((((s.atTime t).wakeSource 4).writeOk 0 (4 * f.register.toNat) f.data).respond statusOk []))))

/-- VEST_FRAME_TIMEOUT counts an incomplete frame while the port is served (R722). -/
def Claim.VestibuleTimeout : Prop :=
  ∀ (s : State) (t : Nat), (s.atTime t).channelOpen 0 = true →
    ∃ u, Gives (.vestFrameTimeout t) s u ∧ u.get Reg.HOST.VEST_CRC_ERR.word = (s.get Reg.HOST.VEST_CRC_ERR.word + 1) % 2 ^ 32 ∧
      SameWords s u [Reg.HOST.VEST_CRC_ERR.word.addr] ∧ u.out = s.out ∧ u.mem = s.mem

/-! ### SXM (R662 to R668) -/

/-- An SXM message that its form or its tag does not prove is dropped and counted, and one that SXM does not hear does nothing: no
session, register but the counter, or output changes (R650, R662). -/
def Claim.SxmDropsUnproven : Prop :=
  ∀ (s : State) (t : Nat) (src : Source) (m : List Byte), ∀ i ∈ [Instr.sxmHello t src m, Instr.request t src m, Instr.close t src m],
    (s.sxmHears src = false → Gives i s (s.atTime t)) ∧
    (s.sxmHears src = true →
      (sxmFormed m = false ∨
        (sxmType m = sxmTypeHello ∧ (∀ k, s.helloKey (sxmKey m) = some k → sxmTagged k m = false)) ∨
        (sxmType m ≠ sxmTypeHello ∧ (sxmSession m = 0 ∨ ∀ x, s.session (sxmSession m - 1) = some x → sxmTagged x.ks m = false))) →
      Gives i s ((s.atTime t).bump Reg.HOST.SXM_DROP_AUTH.word))

/-- An accepted HELLO opens the lowest free session under the key it names and answers WELCOME; with none free it is refused (R663).
A REQUEST with the next seq is executed and answered; one with the last seq is answered again and not executed; another is dropped
and counted (R664). CLOSE ends its session (R667). -/
def Claim.SxmServes : Prop :=
  ∀ (s : State) (t : Nat) (src : Source) (m : List Byte), s.sxmHears src = true → sxmFormed m = true →
    (∀ k, sxmType m = sxmTypeHello → s.helloKey (sxmKey m) = some k → sxmTagged k m = true → (sxmBody m).length = 16 →
      (∀ n, (firstIdx 8 fun n => (s.session n).isNone) = some n →
        Gives (.sxmHello t src m) s ((s.atTime t).openSession src (sxmKey m) k (sxmBody m) n)) ∧
      ((firstIdx 8 fun n => (s.session n).isNone) = none →
        Gives (.sxmHello t src m) s ((s.atTime t).emit (.sxm src (sxmMessage k sxmTypeRefuse 0 (Config.helloSeq 8) [1]))))) ∧
    (∀ x, sxmSession m ≠ 0 → s.session (sxmSession m - 1) = some x → sxmTagged x.ks m = true →
      (sxmType m = sxmTypeRequest →
        (sxmSeq m = (x.lastSeq + 1) % 2 ^ 32 →
          Gives (.request t src m) s ((s.atTime t).requestAccepted (sxmSession m - 1) x src m)) ∧
        (sxmSeq m ≠ (x.lastSeq + 1) % 2 ^ 32 → sxmSeq m = x.lastSeq → x.response ≠ [] →
          Gives (.request t src m) s (((s.atTime t).setSession (sxmSession m - 1) (some { x with src := src })).emit (.sxm src x.response))) ∧
        (sxmSeq m ≠ (x.lastSeq + 1) % 2 ^ 32 → (sxmSeq m ≠ x.lastSeq ∨ x.response = []) →
          Gives (.request t src m) s ((s.atTime t).bump Reg.HOST.SXM_DROP_SEQ.word))) ∧
      (sxmType m = sxmTypeClose → Gives (.close t src m) s ((s.atTime t).endSession (sxmSession m - 1))))

/-- SXM_IDLE_TIMEOUT ends a session that has gone without an accepted REQUEST for the idle time (R667); NOTIFY sends one where it is due
and the last lies at least 1 ms back, and clears its mark (R668); SXM_CTL_WRITE ends the sessions that the idle time now in force has
run out on. -/
def Obligations.SxmTimers : Prop :=
  ∀ (s : State) (t : Nat) (n : Fin 8) (x : Session), s.session n.val = some x →
    (x.lastAccept + s.sxmIdle ≤ max s.now t → Gives (.sxmIdleTimeout t n) s ((s.atTime t).endSession n.val)) ∧
    (max s.now t < x.lastAccept + s.sxmIdle → Gives (.sxmIdleTimeout t n) s (s.atTime t)) ∧
    (x.notifyDue = true → (∀ a, x.lastNotify = some a → a + ticksOfMs 1 ≤ max s.now t) →
      ∃ u, Gives (.notify t n) s u ∧
        u.session n.val = some { x with notifyDue := false, lastNotify := some (max s.now t), notifySeq := x.notifySeq + 1 } ∧
        u.regs = s.regs ∧
        u.out = s.out ++ [.sxm x.src (sxmMessage x.ks sxmTypeNotify (n.val + 1) (x.notifySeq + 1) (s.atTime t).notifyBody)]) ∧
    (x.notifyDue = false → Gives (.notify t n) s (s.atTime t)) ∧
    (∀ (ch : Channel) (v : Word), s.reaches t ch Reg.HOST.SXM_CTL.word.addr →
      Gives (.sxmCtlWrite t ch v) s (((s.atTime t).storeWord Reg.HOST.SXM_CTL.word.addr v).idleSessions))

/-! ### Keep (R677 to R683), security (R684 to R688) -/

/-- A keep command while another runs is discarded and flagged; one that a cause of R682 refuses ends at once with that code and no other
effect; an accepted one takes its operands and runs. -/
def Claim.KeepCommands : Prop :=
  ∀ (s : State) (t : Nat) (ch : Channel), s.reaches t ch Reg.KEEP.CMD.word.addr →
    ∀ p ∈ [(Instr.keepRead t ch, KeepCmd.read), (.program t ch, .program), (.keepBegin t ch, .begin), (.keepCommit t ch, .commit),
        (.abortUpdate t ch, .abortUpdate), (.eraseSlot t ch, .eraseSlot), (.copy t ch, .copy)],
      (s.keep.running.isSome = true → Gives p.1 s ((s.atTime t).put Reg.KEEP.STATUS.cmd_lost 1)) ∧
      (s.keep.running = none → ∀ code, ((s.atTime t).put Reg.KEEP.STATUS.done 0).keepRefusal p.2 = code →
        (code ≠ 0 →
          Gives p.1 s ((((s.atTime t).put Reg.KEEP.STATUS.done 0).put Reg.KEEP.STATUS.result code).put Reg.KEEP.STATUS.done 1)) ∧
        (code = 0 →
          ∃ u job, Gives p.1 s u ∧ u.keep.running = some job ∧ job.cmd = p.2 ∧ job.area = s.get Reg.KEEP.ADDR.area ∧
            job.page = s.get Reg.KEEP.ADDR.page ∧ job.len = s.get Reg.KEEP.LEN.bytes ∧ u.get Reg.KEEP.STATUS.busy = 1 ∧
            u.get Reg.KEEP.STATUS.done = 0 ∧ u.mem = s.mem ∧ u.out = s.out))

/-- KEEP_CMD_DONE ends the command in progress with OK and does what it is for: BEGIN opens the update with the next sequence,
ABORT_UPDATE closes it, PROGRAM of a raw page programs the buffer, ERASE_SLOT erases 96 sectors, READ fills the buffer with the page;
with none in progress it does nothing (R681, R682). -/
def Claim.KeepCompletes : Prop :=
  ∀ (s : State) (t : Nat),
    (s.keep.running = none → Gives (.keepCmdDone t) s (s.atTime t)) ∧
    (∀ j, s.keep.running = some j →
      Gives (.keepCmdDone t) s (((s.atTime t).keepEffect j).keepOver 0) ∧
      ∃ u, Gives (.keepCmdDone t) s u ∧ u.keep.running = none ∧ u.get Reg.KEEP.STATUS.busy = 0 ∧ u.get Reg.KEEP.STATUS.done = 1 ∧
        u.get Reg.KEEP.STATUS.result = 0 ∧
        (j.cmd = .begin → u.keep.openUpdate = some ((s.keep.snapSeq + 1) % 2 ^ 32) ∧ u.keep.snap = s.keep.snap) ∧
        (j.cmd = .abortUpdate → u.keep.openUpdate = none ∧ u.keep.snap = s.keep.snap) ∧
        (j.cmd = .program → j.area ≤ 1 → u.keep.raw = (s.keep.programRaw j.area j.page [j.data]).raw ∧ u.keep.snap = s.keep.snap) ∧
        (j.cmd = .eraseSlot → u.keep.snap = s.keep.snap ∧ u.keep.raw = ((s.atTime t).eraseSectors j.area 96).keep.raw) ∧
        (j.cmd = .read → u.keep.raw = s.keep.raw ∧ u.keep.snap = s.keep.snap))

/-- LOG_PAGE_PROGRAM programs up to seven waiting records as one page, once the page is due and no host command runs; else nothing
(R680, R683). -/
def Claim.LogPages : Prop :=
  ∀ (s : State) (t : Nat),
    ((s.atTime t).due .logPage = true → s.keep.running = none → s.power ≠ powerThermalOff → s.keep.logBuffer ≠ [] →
      s.keep.logPages.length < logArea →
      ∃ u, Gives (.logPageProgram t) s u ∧ u.keep.logPages = s.keep.logPages ++ [s.keep.logBuffer.take 7] ∧
        u.keep.logBuffer = s.keep.logBuffer.drop 7 ∧ u.keep.logCount = s.keep.logCount + 1 ∧ u.regs = s.regs) ∧
    ((s.atTime t).due .logPage = false ∨ s.keep.running.isSome = true → Gives (.logPageProgram t) s (s.atTime t))

/-- SECURITY commands: from a channel other than 0 each is refused with CHANNEL; while one runs, BUSY; from channel 0 NONCE, UNLOCK,
OTP_PROGRAM (where R684 lets it) and the key commands (where R686 lets them) run. -/
def Claim.SecurityCommands : Prop :=
  ∀ (s : State) (t : Nat) (ch : Channel) (k : Fin 4), s.reaches t ch Reg.SECURITY.CMD.word.addr →
    (∀ i ∈ [Instr.otpProgram t ch, .nonce t ch, .unlock t ch, .sxmKeyStore t ch k, .sxmKeyClear t ch k],
      (s.sec.running.isSome = true → Gives i s ((s.atTime t).put Reg.SECURITY.STATUS.result secBusy)) ∧
      (s.sec.running = none → ch ≠ 0 →
        Gives i s ((((s.atTime t).put Reg.SECURITY.STATUS.done 0).put Reg.SECURITY.STATUS.result secChannel).put
          Reg.SECURITY.STATUS.done 1))) ∧
    (s.sec.running = none → ch = 0 →
      (∃ u, Gives (.nonce t ch) s u ∧ u.sec.running = some .nonce ∧ u.get Reg.SECURITY.STATUS.busy = 1 ∧ u.get Reg.SECURITY.STATUS.done = 0) ∧
      (∃ u token, Gives (.unlock t ch) s u ∧ u.sec.running = some (.unlock token) ∧ token.length = 256 ∧
        u.get Reg.SECURITY.STATUS.busy = 1 ∧ u.get Reg.SECURITY.STATUS.done = 0) ∧
      (s.otpRefusal (s.get Reg.SECURITY.OTP_ADDR.word) (s.word Reg.SECURITY.OTP_DATA.word.addr) = 0 →
        ∃ u, Gives (.otpProgram t ch) s u ∧
          u.sec.running = some (.otpProgram (s.get Reg.SECURITY.OTP_ADDR.word) (s.word Reg.SECURITY.OTP_DATA.word.addr)) ∧
          u.get Reg.SECURITY.STATUS.busy = 1) ∧
      (s.sxmLocked = false →
        (∃ u key, Gives (.sxmKeyStore t ch k) s u ∧ u.sec.running = some (.keyStore k.val key) ∧ u.sec.keyData = []) ∧
        (∃ u, Gives (.sxmKeyClear t ch k) s u ∧ u.sec.running = some (.keyClear k.val))) ∧
      (s.sxmLocked = true → ∀ i ∈ [Instr.sxmKeyStore t ch k, .sxmKeyClear t ch k],
        ∃ u, Gives i s u ∧ u.sec.running = none ∧ u.get Reg.SECURITY.STATUS.result = secLocked ∧ u.get Reg.SECURITY.STATUS.done = 1))

/-- SECURITY_CMD_DONE completes the command in progress. OTP bits only change from 0 to 1; UNLOCK, passed or failed, consumes the nonce
and opens JTAG only where every check of R688 passes; a stored key takes its slot, a cleared one leaves it. -/
def Claim.SecurityCompletes : Prop :=
  ∀ (s : State) (t : Nat),
    (s.sec.running = none → Gives (.securityCmdDone t) s (s.atTime t)) ∧
    (∀ c, s.sec.running = some c →
      ∃ u, Gives (.securityCmdDone t) s u ∧ u.sec.running = none ∧ u.get Reg.SECURITY.STATUS.done = 1 ∧ u.get Reg.SECURITY.STATUS.busy = 0 ∧
        (∀ w bits, c = .otpProgram w bits →
          u.otpWord w = s.otpWord w ||| bits ∧ (∀ k, k ≠ w → u.otpWord k = s.otpWord k) ∧ u.sec.jtagOpen = s.sec.jtagOpen) ∧
        (∀ token, c = .unlock token →
          u.sec.nonceValid = false ∧ (u.sec.jtagOpen = true ↔ s.sec.jtagOpen = true ∨ s.unlockCode token = 0) ∧
          u.get Reg.SECURITY.STATUS.result = s.unlockCode token) ∧
        (c = .nonce → u.sec.nonceValid = true ∧ u.sec.drawn = s.sec.drawn + 16 ∧ u.sec.otp = s.sec.otp) ∧
        (∀ slot key, c = .keyStore slot key → u.keep.sxmKeys = s.keep.sxmKeys.set slot (some key)) ∧
        (∀ slot, c = .keyClear slot → (∀ n x, s.session n = some x → x.keySlot ≠ slot) →
          u.keep.sxmKeys = s.keep.sxmKeys.set slot none ∧ u.sessions = s.sessions))

/-! ### Image commands (R91 to R113) -/

/-- Commands of IMAGE.CTL: while one runs the command is discarded and flagged (R110); where it is not allowed it ends with COMMAND;
otherwise LOAD and VERIFY start, CONFIRM, RAISE_FLOOR, PREFER and TRY start the slot-record update that R111 and R112 give, and LOCK locks
the image at once. -/
def Claim.ImageCommands : Prop :=
  ∀ (s : State) (t : Nat) (ch : Channel) (n : Fin 2), s.reaches t ch Reg.IMAGE.CTL.word.addr →
    ∀ p ∈ [(Instr.load t ch, 1, 0, some ImageCmd.load), (.verify t ch, 2, 0, some .verify),
        (.confirm t ch, 3, 0, some (.slotUpdate { s.keep.slotRec with trial := false, trialStarted := false })),
        (.raiseFloor t ch, 4, 0,
          some (.slotUpdate { s.keep.slotRec with floor := (s.image.running.map fun x => x.serial).getD s.keep.slotRec.floor })),
        (.prefer t ch n, 5, n.val, some (.slotUpdate { s.keep.slotRec with preferred := n.val, trial := false, trialStarted := false })),
        (.tryCmd t ch n, 6, n.val, some (.slotUpdate { s.keep.slotRec with preferred := n.val, trial := true, trialStarted := false })),
        (.lock t ch, 7, 0, none)],
      (s.flag Reg.IMAGE.STATUS.busy = true → Gives p.1 s ((s.atTime t).put Reg.IMAGE.STATUS.cmd_lost 1)) ∧
      (s.flag Reg.IMAGE.STATUS.busy = false → s.imageAllowed p.2.1 p.2.2.1 = false →
        ∃ u, Gives p.1 s u ∧ u.image = { s.image with cmd := none } ∧ u.get Reg.IMAGE.STATUS.code = codeCommand ∧
          u.get Reg.IMAGE.STATUS.busy = 0 ∧ u.get Reg.IMAGE.STATUS.done = 1 ∧ SameWords s u [Reg.IMAGE.STATUS.word.addr]) ∧
      (s.flag Reg.IMAGE.STATUS.busy = false → s.imageAllowed p.2.1 p.2.2.1 = true →
        ∃ u, Gives p.1 s u ∧ u.keep = s.keep ∧ SameWords s u [Reg.IMAGE.STATUS.word.addr] ∧
          (∀ c, p.2.2.2 = some c → u.image = { s.image with cmd := some c } ∧ u.get Reg.IMAGE.STATUS.busy = 1 ∧
            u.get Reg.IMAGE.STATUS.done = 0) ∧
          (p.2.2.2 = none → u.get Reg.IMAGE.STATUS.locked = 1 ∧ u.get Reg.IMAGE.STATUS.code = codeOk ∧ u.get Reg.IMAGE.STATUS.done = 1))

/-- VERIFY_DONE of a VERIFY reports the check of the load buffer and readies the partial image only where it passed. VERIFY_DONE of a LOAD that
fails its check ends it and disturbs nothing but IMAGE.STATUS (R91, R98, R113); a LOAD that installs is over once the image runs;
SLOT_RECORD_UPDATE_DONE puts the record into the keep, behind a host command of the keep. -/
def Claim.ImageCompletes : Prop :=
  ∀ (s : State) (t : Nat), s.power ≠ powerThermalOff → s.power ≠ powerWakeFailed →
    (s.image.cmd = some .verify →
      ∃ u, Gives (.verifyDone t) s u ∧ u.image.cmd = none ∧ u.get Reg.IMAGE.STATUS.done = 1 ∧ u.get Reg.IMAGE.STATUS.busy = 0 ∧
        u.get Reg.IMAGE.STATUS.code = (s.checkImage true s.bufferImage).1 % 256 ∧
        (u.image.ready.isSome = true ↔ (s.checkImage true s.bufferImage).1 = codeOk) ∧ u.image.running = s.image.running ∧
        SameWords s u [Reg.IMAGE.STATUS.word.addr]) ∧
    (s.image.cmd = some .load → s.image.candidate = none → (s.checkImage false s.bufferImage).1 ≠ codeOk →
      ∀ i ∈ [Instr.verifyDone t, .loadInstall t],
        ∃ u, Gives i s u ∧ u.image = { s.image with cmd := none } ∧ u.get Reg.IMAGE.STATUS.done = 1 ∧
          u.get Reg.IMAGE.STATUS.code = (s.checkImage false s.bufferImage).1 % 256 ∧ u.carriers = s.carriers ∧
          SameWords s u [Reg.IMAGE.STATUS.word.addr]) ∧
    (∀ r, s.image.cmd = some .load → s.image.candidate = some r → s.activeCarriers = [] →
      Gives (.loadInstall t) s ((s.atTime t).loadInstalled r) ∧ ((s.atTime t).loadInstalled r).image.cmd = some .restart) ∧
    (∀ r, s.image.cmd = some (.slotUpdate r) →
      (s.keep.running = none → ∃ u, Gives (.slotRecordUpdateDone t) s u ∧ u.keep = { s.keep with slotRec := r } ∧ u.image.cmd = none ∧
        u.get Reg.IMAGE.STATUS.done = 1 ∧ u.get Reg.IMAGE.FLOOR.word = r.floor % 2 ^ 32) ∧
      (s.keep.running.isSome = true → Gives (.slotRecordUpdateDone t) s (s.atTime t)))

/-! ### Reset and boot (R672 to R676, R702, R712, R714) -/

/-- RESET_N low, or a monitored power-good input low, for 1 µs is a full reset: every register but RESET_CAUSE returns to its reset value,
every session ends, the customer OTP stays; shorter, it does nothing. -/
def Claim.PinReset : Prop :=
  ∀ (s : State) (t ns : Nat) (n : Fin 4),
    (ns < 1000 → Gives (.pinReset t ns) s (s.atTime t) ∧ Gives (.powerGoodFall t n ns) s (s.atTime t)) ∧
    (1000 ≤ ns →
      (∃ u, Gives (.pinReset t ns) s u ∧ SameWords State.reset u [Reg.DEVICE.RESET_CAUSE.word.addr] ∧
        u.word Reg.DEVICE.RESET_CAUSE.word.addr = s.resetCause srcPin 0 ∧ u.boot.phase = .held ∧ u.sec.otp = s.sec.otp ∧
        u.sec.jtagOpen = false ∧ (∀ k, u.session k = none) ∧ u.image.running = none ∧ u.pending = s.pending ∧ u.out = s.out) ∧
      (n ≠ 0 → s.boot.phase ≠ .held → s.boot.pg.length = 4 →
        ∃ u, Gives (.powerGoodFall t n ns) s u ∧ SameWords State.reset u [Reg.DEVICE.RESET_CAUSE.word.addr] ∧
          u.boot.phase = .waitPower ∧ u.sec.otp = s.sec.otp ∧ (∀ k, u.session k = none)))

/-- A write of HOST.RESET other than the key does nothing; with the key it is a full reset whose cause names the host and its channel.
FULL_RESET by each source of R702 is one. Each then runs boot (R672, R673). -/
def Claim.HostReset : Prop :=
  ∀ (s : State) (t : Nat) (ch : Channel) (v : Word) (failed : List (Nat × Nat)),
    (s.reaches t ch Reg.HOST.RESET.word.addr →
      (v ≠ resetKey → Gives (.hostReset t ch v failed) s (s.atTime t)) ∧
      (v = resetKey → Gives (.hostReset t ch v failed) s ((s.atTime t).fullReset srcHost ch.val failed))) ∧
    (∀ k : Fin 6, (k = 1 ∨ k = 3 ∨ k = 5) → Gives (.fullReset t k ch failed) s ((s.atTime t).fullReset k.val ch.val failed)) ∧
    Gives (.fullReset t 2 ch failed) s (((s.atTime t).pinLow 1000).pinHigh s.boot.devId failed)

/-- RESET_N_RELEASE out of reset samples DEV_ID, and boots where the rails are good, else waits for them; POWER_GOOD_RISE of the last rail
boots 1 ms later (R654, R714). Where no image passes, boot ends in NO_IMAGE with the image notice raised (R676). -/
def Claim.BootStarts : Prop :=
  ∀ (s : State) (t : Nat) (id : BitVec 9) (n : Fin 4) (failed : List (Nat × Nat)),
    (s.boot.phase = .held → s.railsGood = false →
      ∃ u, Gives (.resetNRelease t id failed) s u ∧ u.boot.devId = id.toNat ∧ u.boot.phase = .waitPower ∧ u.boot.resetN = true ∧
        u.regs = s.regs) ∧
    (s.boot.phase = .held → s.railsGood = true →
      Gives (.resetNRelease t id failed) s
        (State.startBoot { s.atTime t with boot := { s.boot with resetN := true, devId := id.toNat, released := max s.now t } }
          (max s.now t) failed)) ∧
    (s.boot.phase = .waitPower → ∀ s' : State, s' = { s.atTime t with boot := { s.boot with pg := s.boot.pg.set n.val true } } →
      (s'.railsGood = true → Gives (.powerGoodRise t n failed) s (s'.startBoot (max s.now t + ticksOfMs 1) failed)) ∧
      (s'.railsGood = false → Gives (.powerGoodRise t n failed) s s'))

/-- BOOT_READY ends the boot timeline: ready sets with step 12 and the image reads RUNNING (R674). BOOT_STEP_TIMEOUT counts a failure of
its step, and the third is WAKE_FAILED (R675). -/
def Claim.BootEnds : Prop :=
  ∀ (s : State) (t : Nat),
    (∀ (passed : List (Fin 64 × List CalResult)) (failed : List (Fin 64 × Nat × Nat × Nat)),
      s.boot.selected = true → (s.atTime t).bootComplete = true →
        Gives (.bootReady t passed failed) s (((s.atTime t).startup passed failed).nowReady)) ∧
    (∀ (step unit : Nat), s.boot.phase = .booting → 2 ≤ step → step ≤ 4 → s.power ≠ powerWakeFailed →
      s.get Reg.IMAGE.STATUS.state = imageBooting →
      (s.energy.failures.getD (step - 2) 0 < 2 →
        ∃ u, Gives (.bootStepTimeout t step unit) s u ∧
          u.energy.failures = s.energy.failures.set (step - 2) (s.energy.failures.getD (step - 2) 0 + 1) ∧ u.regs = s.regs) ∧
      (2 ≤ s.energy.failures.getD (step - 2) 0 →
        ∃ u, Gives (.bootStepTimeout t step unit) s u ∧ u.get Reg.POWER.STATUS.state = powerWakeFailed))

/-! ### Paths, front ends and LO banks (R119 to R180) -/

/-- DC_BLOCK_UPDATE, while the loop tracks and no freeze of R133 holds, moves the estimate of the gain in force by 2^-k of the distance to
the block's mean, with k of R128; otherwise no estimate moves. -/
def Claim.DcLoopMoves : Prop :=
  ∀ (s : State) (t : Nat) (p : Fin 64) (samples : List Cplx), s.radio.paths.length = 64 →
    ∃ u, Gives (.dcBlockUpdate t p samples) s u ∧ SameWords s u [(Reg.PATH.LOOP_CTL.word p.val).addr] ∧ u.mem = s.mem ∧ u.out = s.out ∧
      (∀ q, q ≠ p.val → u.path q = s.path q) ∧
      (((s.atTime t).freezes p.val).1 = true ∨ s.get (Reg.PATH.LOOP_CTL.dc_track p.val) = 0 → u.path p.val = s.path p.val) ∧
      (((s.atTime t).freezes p.val).1 = false → s.get (Reg.PATH.LOOP_CTL.dc_track p.val) = 1 → samples.length = 64 →
        ∀ d, (s.path p.val).dc[(s.path p.val).gain]? = some d →
          ∃ d' k, (u.path p.val).dc[(s.path p.val).gain]? = some d' ∧
            (s.get (Reg.PATH.LOOP_CTL.dc_bw p.val), k) ∈ [(0, 16), (1, 14), (2, 12), (3, 10)] ∧
            (d'.i : Rat) / 2 ^ d'.e = d.i / 2 ^ d.e + (1 / 2 ^ k) * ((sumC samples).re / 64 - d.i / 2 ^ d.e) ∧
            (d'.q : Rat) / 2 ^ d'.e = d.q / 2 ^ d.e + (1 / 2 ^ k) * ((sumC samples).im / 64 - d.q / 2 ^ d.e) ∧
            ∀ g, g ≠ (s.path p.val).gain → (u.path p.val).dc[g]? = (s.path p.val).dc[g]?)

/-- IQ_WINDOW_END, once the window of 10 ms has passed, moves the eight taps by 2^-n of the residual, to within one code and saturated, where
tracking is on and not frozen, the window was not discarded and its mean power is at least -50 dBFS; otherwise no register changes. Before, it
does nothing (R131, R133). -/
def Claim.IqTracking : Prop :=
  ∀ (s : State) (t : Nat) (p : Fin 64) (power : Int) (residual : List Cplx),
    (max s.now t < (s.path p.val).iqFrom + ticksOfMs 10 → Gives (.iqWindowEnd t p power residual) s (s.atTime t)) ∧
    ((s.path p.val).iqFrom + ticksOfMs 10 ≤ max s.now t →
      ((s.get (Reg.PATH.LOOP_CTL.iq_track p.val) = 0 ∨ ((s.atTime t).freezes p.val).2 = true ∨ (s.path p.val).iqDiscard = true ∨
          power < -12800) →
        Gives (.iqWindowEnd t p power residual) s
          ((s.atTime t).modPath p.val fun x => { x with iqDiscard := false, iqFrom := max s.now t })) ∧
      (s.get (Reg.PATH.LOOP_CTL.iq_track p.val) = 1 → ((s.atTime t).freezes p.val).2 = false → (s.path p.val).iqDiscard = false →
        -12800 ≤ power →
        ∃ u, Gives (.iqWindowEnd t p power residual) s u ∧
          (∀ k, k < 8 → ∀ n, n = s.get (Reg.PATH.LOOP_CTL.iq_step p.val) + 8 →
            (∃ m : Int, (m - 1) * 2 ^ n < (residual.getD k Cplx.zero).re ∧ (residual.getD k Cplx.zero).re < (m + 1) * 2 ^ n ∧
              u.getS (Reg.PATH.RX_IQ_TAP.re p.val k) = satS 16 (s.getS (Reg.PATH.RX_IQ_TAP.re p.val k) + m)) ∧
            (∃ m : Int, (m - 1) * 2 ^ n < (residual.getD k Cplx.zero).im ∧ (residual.getD k Cplx.zero).im < (m + 1) * 2 ^ n ∧
              u.getS (Reg.PATH.RX_IQ_TAP.im p.val k) = satS 16 (s.getS (Reg.PATH.RX_IQ_TAP.im p.val k) + m))) ∧
          SameWords s u ((List.range 8).map fun k => (Reg.PATH.RX_IQ_TAP.word p.val k).addr) ∧ u.mem = s.mem ∧ u.out = s.out))

/-- BLANK_RISE and BLANK_FALL set the level of their input; every path is then muted for blanking exactly while an asserted input mutes its
group (R143 to R145). -/
def Claim.Blanking : Prop :=
  ∀ (s : State) (t : Nat) (n : Fin 4), ∀ c ∈ [(Instr.blankRise t n, true), (.blankFall t n, false)],
    ∃ u, Gives c.1 s u ∧ u.radio.blank = s.radio.blank.set n.val c.2 ∧ u.mem = s.mem ∧
      ((∀ p, p < 64 → (s.path p).cal = none) → u.out = s.out) ∧
      (∀ g, g < 8 → u.get (Reg.GROUP.BLANK_CTL.actions g) = s.get (Reg.GROUP.BLANK_CTL.actions g)) ∧
      ∀ p, p < 64 → (u.mutes p).testBit muteBlank = (u.blankOf (p / 8)).1

/-- PATH_RETIRE, and PATH_FAULT with a cause of R178 (the amplitude detector's only while the bank delivers LO), retire a path: its state, its
cause, its mute, its T/R line low, its calibration over (that of its group's observation receiver goes on). A retired path stays as it is. -/
def Claim.Retirement : Prop :=
  ∀ (s : State) (t : Nat) (ch : Channel) (p : Fin 64) (cause : Fin 6), s.radio.paths.length = 64 →
    (cause = 0 ∨ (cause = 4 ∧ s.loDelivers (bankOf p.val) = false) → Gives (.pathFault t p cause) s (s.atTime t)) ∧
    (∀ c ∈ [(Instr.pathRetire t ch p, 6), (.pathFault t p cause, cause.val)],
        (c.1 = .pathRetire t ch p → s.reaches t ch (Reg.PATH.CTL.word p.val).addr) → c.2 ≠ 0 →
        (c.1 = .pathFault t p cause → cause = 4 → s.loDelivers (bankOf p.val) = true) →
        (s.pathState p.val = pathRetired → Gives c.1 s (s.atTime t)) ∧
        (s.pathState p.val ≠ pathRetired →
          ∃ u, Gives c.1 s u ∧ u.pathState p.val = pathRetired ∧ u.get (Reg.PATH.STATUS.retire_cause p.val) = c.2 ∧
            (u.mutes p.val).testBit muteRetired = true ∧ u.trHigh p.val u.arrayNow = false ∧
            u.rxValid p.val u.arrayNow = false ∧ ((∀ r, (s.path p.val).cal = some r → r.code ≠ calObs) → (u.path p.val).cal = none) ∧
            u.mem = s.mem ∧ ((s.path p.val).cal = none → u.out = s.out) ∧
            ∀ q, q < 64 → q ≠ p.val → u.word (Reg.PATH.STATUS.word q).addr = s.word (Reg.PATH.STATUS.word q).addr))

/-- A check or a poll of a group that is not enabled or has no entry does nothing; otherwise it serves the group's paths in order, and one that
scripts no bus command sends none. INIT, SLEEP and WAKE run once, where they have arisen on the bus. FEM_INIT_TIMEOUT, 5 ms after INIT began,
leaves the unserved paths without reply and ends INIT on the bus (R149 to R151). -/
def Claim.FemEvents : Prop :=
  ∀ (s : State) (t : Nat) (g : Fin 8) (ev : FemEvent) (replies : List (List (Option Byte))) (served : Nat),
    (ev ∈ [FemEvent.paCheck, .rxCheck, .poll] → s.femScripted g.val ev = false → Gives (.femScript t g ev replies) s (s.atTime t)) ∧
    (∀ e ∈ [FemEvent.sleep, .wake],
      (s.femWaits g.val e = false → Gives (.femScript t g e replies) s (s.atTime t)) ∧
      (s.femWaits g.val e = true → Gives (.femScript t g e replies) s (((s.atTime t).femTaken g.val).femEvent g.val e replies))) ∧
    (s.initRuns g.val = false → Gives (.femScript t g .init replies) s (s.atTime t)) ∧
    (s.initRuns g.val = true → s.radio.initDone.length = 8 →
      ∃ u, Gives (.femScript t g .init replies) s u ∧ u.radio.initDone = s.radio.initDone.set g.val true ∧ u.radio.initEnd = max s.now t ∧
        u.mem = s.mem ∧ (s.femScripted g.val .init = false → u.regs = s.regs ∧ u.out = s.out)) ∧
    (ev ∈ [FemEvent.paCheck, .rxCheck, .poll] → s.femEntry g.val ev ≠ 0xFF → s.get (Reg.GROUP.RFFE_CTL.enable g.val) = 1 →
      Gives (.femScript t g ev replies) s
        ((s.atTime t).femServe ev (s.femEntry g.val ev) ((groupPaths g.val).map fun p => (p, replies.getD (p % 8) []))) ∧
      (s.femEntry g.val ev < 64 → getBits (s.word (Reg.GROUP.FEM_SCRIPT.word g.val (s.femEntry g.val ev)).addr) 29 3 = femEnd →
        ∃ u, Gives (.femScript t g ev replies) s u ∧ u.out = s.out ∧ u.mem = s.mem ∧ u.get (Reg.GROUP.RFFE_STATUS.no_reply g.val) = 0 ∧
          SameWords s u [(Reg.GROUP.RFFE_STATUS.word g.val).addr])) ∧
    ((s.atTime t).initLate g.val = false → Gives (.femInitTimeout t g served) s (s.atTime t)) ∧
    ((s.atTime t).initLate g.val = true → s.radio.femReady.length = 64 →
      ∃ u, Gives (.femInitTimeout t g served) s u ∧ u.radio.initDone = s.radio.initDone.set g.val true ∧
        (∀ n, n < 8 → served ≤ n → (u.get (Reg.GROUP.RFFE_STATUS.no_reply g.val)).testBit n = true ∧
          u.radio.femReady.getD (8 * g.val + n) true = false) ∧
        (∀ n, n < 8 → n < served → (u.get (Reg.GROUP.RFFE_STATUS.no_reply g.val)).testBit n =
          (s.get (Reg.GROUP.RFFE_STATUS.no_reply g.val)).testBit n) ∧
        SameWords s u [(Reg.GROUP.RFFE_STATUS.word g.val).addr])

/-- A FEM script word: WRITE sends its command for the slave it names (15 names the path's own), a READ_STORE answered at the first try stores the
answer, a read without answer goes out twice, END ends with OK, an undefined operation is a script error (R147, R148, R150). -/
def Claim.FemScriptWords : Prop :=
  ∀ (s : State) (p i : Nat) (replies : List (Option Byte)) (w w' : Word), i + 1 < 64 →
    s.word (Reg.GROUP.FEM_SCRIPT.word (groupOf p) i).addr = w →
    s.word (Reg.GROUP.FEM_SCRIPT.word (groupOf p) (i + 1)).addr = w' → getBits w' 29 3 = femEnd →
    (getBits w 29 3 = femWrite →
      s.femPath p i replies = { outs := [.rffe (groupOf p) femWrite (if getBits w 25 4 = 15 then s.usidOf p else getBits w 25 4)
          (getBits w 16 8) (getBits w 8 8)], stores := [], rest := replies, failures := 0, result := .ok }) ∧
    (getBits w 29 3 = femDelay →
      s.femPath p i replies = { outs := [], stores := [], rest := replies, failures := 0, result := .ok }) ∧
    (getBits w 29 3 = femReadStore → getBits w 25 4 ≠ 0 → ∀ v rest, replies = some v :: rest →
      (s.femPath p i replies).stores = [(getBits w 0 8 % 8, v.toNat)] ∧ (s.femPath p i replies).result = .ok) ∧
    (getBits w 29 3 = femReadCheck → getBits w 25 4 ≠ 0 → ∀ rest, replies = none :: none :: rest →
      (s.femPath p i replies).result = .noReply ∧ (s.femPath p i replies).failures = 1 ∧
      (s.femPath p i replies).outs = List.replicate 2 (.rffe (groupOf p) femReadCheck
        (if getBits w 25 4 = 15 then s.usidOf p else getBits w 25 4) (getBits w 16 8) (getBits w 8 8))) ∧
    (6 ≤ getBits w 29 3 → (s.femPath p i replies).result = .scriptError)

/-- The dividers of an LO frequency f in kHz: D is the largest of 2, 4, 8 and 16 with D f at most 14,400,000 kHz, V = D f, and the feedback divider
N + F / 122,880 makes V exactly from 122.88 MHz (R612). A bank that enters BAND has those of its composite centre. -/
def Claim.LoDividers : Prop :=
  (∀ f, f ≤ 7200000 → ∀ x, x = LoDividers.of f →
    x.d ∈ [2, 4, 8, 16] ∧ x.d * f ≤ 14400000 ∧ (∀ e ∈ [2, 4, 8, 16], e * f ≤ 14400000 → e ≤ x.d) ∧ x.vco = x.d * f ∧
      x.n * 122880 + x.f = x.vco ∧ x.f < 122880) ∧
  (∀ (s : State) (b : Nat), b < s.radio.banks.length → ((s.loToBand b).bank b).div = LoDividers.of (s.bank b).freq)

/-- The steps of a bank's locking (R152, R153): each acts in its own state only, and what ends by time only when the time has come. BIAS leads
to BAND for 40 µs, WAKE having run on the buses, BAND to ACQUIRE for at most 1 ms, a declared lock to SETTLE for 30 µs, and SETTLE to LOCKED,
whose paths lose the mute reason lo; ACQUIRE without lock begins again in BAND twice and then has FAILED. -/
def Claim.LoLocking : Prop :=
  ∀ (s : State) (t : Nat) (b : Fin 2),
    (∀ c ∈ [(Instr.loBiasDone t b, loBias), (.loBandDone t b, loBand), (.loAcquireTimeout t b, loAcquire), (.loSettleDone t b, loSettle)],
      (s.loState b.val ≠ c.2 ∨ (s.atTime t).due (.lo b.val) = false) → Gives c.1 s (s.atTime t)) ∧
    (s.loState b.val ≠ loAcquire → Gives (.loLockDeclared t b) s (s.atTime t)) ∧
    (s.loState b.val = loAcquire →
      ∃ u, Gives (.loLockDeclared t b) s u ∧ u.loState b.val = loSettle ∧ u.get (Reg.CLOCK.LO_STATUS.own_lock b.val) = 1 ∧
        u.dueAt (.lo b.val) = some (max s.now t + ticksOfUs 30) ∧ SameWords s u [(Reg.CLOCK.LO_STATUS.word b.val).addr] ∧ u.mem = s.mem) ∧
    ((s.atTime t).due (.lo b.val) = true →
      (s.loState b.val = loBias →
        Gives (.loBiasDone t b) s ((s.atTime t).femFlush.loToBand b.val) ∧
        ((∀ g, g < 8 → s.radio.femDue.getD g none = none) →
          ∃ u, Gives (.loBiasDone t b) s u ∧ u.loState b.val = loBand ∧ u.dueAt (.lo b.val) = some (max s.now t + ticksOfUs 40) ∧
            (s.radio.banks.length = 2 → (u.bank b.val).div = LoDividers.of (s.bank b.val).freq) ∧
            SameWords s u [(Reg.CLOCK.LO_STATUS.word b.val).addr, Reg.CLOCK.XFEED_MEAS.word.addr])) ∧
      (s.loState b.val = loBand →
        ∃ u, Gives (.loBandDone t b) s u ∧ u.loState b.val = loAcquire ∧ u.dueAt (.lo b.val) = some (max s.now t + ticksOfMs 1) ∧
          SameWords s u [(Reg.CLOCK.LO_STATUS.word b.val).addr]) ∧
      (s.loState b.val = loAcquire →
        (s.get (Reg.CLOCK.LO_STATUS.attempt b.val) < 2 →
          ∃ u, Gives (.loAcquireTimeout t b) s u ∧ u.loState b.val = loBand ∧
            u.get (Reg.CLOCK.LO_STATUS.attempt b.val) = s.get (Reg.CLOCK.LO_STATUS.attempt b.val) + 1 ∧
            u.dueAt (.lo b.val) = some (max s.now t + ticksOfUs 40)) ∧
        (2 ≤ s.get (Reg.CLOCK.LO_STATUS.attempt b.val) → s.power ≠ powerWaking →
          ∃ u, Gives (.loAcquireTimeout t b) s u ∧ u.loState b.val = loFailed ∧ u.get (Reg.CLOCK.LO_STATUS.own_lock b.val) = 0)) ∧
      (s.loState b.val = loSettle →
        ∃ u, Gives (.loSettleDone t b) s u ∧ u.loState b.val = loLocked ∧ u.get (Reg.CLOCK.LO_STATUS.attempt b.val) = 0 ∧
          u.dueAt (.lo b.val) = none ∧ ∀ p ∈ bankPaths b.val, (u.mutes p).testBit muteLo = false))

/-- A LOCKED bank that loses lock counts the loss and returns to BAND; the other bank, where it is LOCKED at the same frequency, feeds its
paths, but not at boot (R737), and otherwise they are muted with reason lo (R157 to R159). In SETTLE the attempt has failed; in other states
nothing happens. -/
def Claim.LoLoss : Prop :=
  ∀ (s : State) (t : Nat) (b : Fin 2),
    (s.loState b.val ≠ loLocked → s.loState b.val ≠ loSettle → Gives (.loLockLoss t b) s (s.atTime t)) ∧
    (s.loState b.val = loSettle → Gives (.loLockLoss t b) s ((s.atTime t).loAttemptFailed b.val)) ∧
    (s.loState b.val = loLocked → s.crossfed b.val = false → s.crossfed (1 - b.val) = false →
      ∃ u, Gives (.loLockLoss t b) s u ∧ u.loState b.val = loBand ∧ u.get (Reg.CLOCK.LO_STATUS.own_lock b.val) = 0 ∧
        u.get (Reg.CLOCK.LO_COUNT.losses b.val) = (s.get (Reg.CLOCK.LO_COUNT.losses b.val) + 1) % 2 ^ (Reg.CLOCK.LO_COUNT.losses b.val).width ∧
        u.loState (1 - b.val) = s.loState (1 - b.val) ∧
        (s.loState (1 - b.val) = loLocked → s.loSameFreq = true → s.boot.phase ≠ .booting →
          u.crossfed b.val = true ∧ u.get Reg.BEAM.XFEED_PHASE.delta = s.get Reg.CLOCK.XFEED_MEAS.delta ∧
          ∀ p ∈ bankPaths b.val, (u.mutes p).testBit muteLo = false) ∧
        ((s.loState (1 - b.val) ≠ loLocked ∨ s.loSameFreq = false ∨ s.boot.phase = .booting) →
          u.crossfed b.val = false ∧ ∀ p ∈ bankPaths b.val, (u.mutes p).testBit muteLo = true))

/-- LO_HANDBACK: a LOCKED, cross-fed bank that its host does not hold takes its paths back in a gap of the radio (R161); otherwise nothing
happens. LO_RELOCK leaves a request that takes effect at a common slot boundary (R154). -/
def Claim.LoHandover : Prop :=
  ∀ (s : State) (t : Nat) (ch : Channel) (b : Fin 2),
    ((s.loState b.val ≠ loLocked ∨ s.crossfed b.val = false ∨ s.get (Reg.CLOCK.LO_CTL.hold_crossfeed b.val) = 1) →
      Gives (.loHandback t b) s (s.atTime t)) ∧
    (s.loState b.val = loLocked → s.crossfed b.val = true → s.get (Reg.CLOCK.LO_CTL.hold_crossfeed b.val) = 0 →
      ((s.allFdd = false ∨ s.activeCarriers = []) → (s.atTime t).radioGap = true →
        ∃ u, Gives (.loHandback t b) s u ∧ u.crossfed b.val = false ∧ u.loState b.val = loLocked ∧
          u.get Reg.BEAM.XFEED_PHASE.delta = s.get Reg.CLOCK.XFEED_MEAS.delta ∧ u.mem = s.mem ∧ u.out = s.out ∧
          u.get (Reg.CLOCK.LO_COUNT.degraded_sym b.val) = s.get (Reg.CLOCK.LO_COUNT.degraded_sym b.val)) ∧
      (s.allFdd = true → s.activeCarriers ≠ [] → (s.atTime t).arrayNow % planningSlot ≠ 0 → Gives (.loHandback t b) s (s.atTime t))) ∧
    (s.reaches t ch (Reg.CLOCK.LO_CTL.word b.val).addr →
      Gives (.loRelock t ch b) s ((s.atTime t).modBank b.val fun x => { x with relock := true }))

/-! ### Calibration (R167 to R174) -/

/-- A calibration request: BUSY while one is queued or runs on the path or the part is away, COMMAND for OBS on a path that is not the
group's first, PRECOND with the first failing precondition, and otherwise it is queued where the observation receiver is taken and runs
for its time where it is not. A path IN_SERVICE fails precondition 1 of every calibration but OBS. -/
def Claim.CalibrationRequests : Prop :=
  ∀ (s : State) (t : Nat) (ch : Channel) (p : Fin 64) (x y : List (Option Byte)), s.reaches t ch (Reg.PATH.CAL_CMD.word p.val).addr →
    ∀ c ∈ [(Instr.rxDc t ch p x, calRxDc, x, []), (.rxIq t ch p x, calRxIq, x, []), (.txLol t ch p x, calTxLol, [], x),
        (.txIq t ch p x, calTxIq, [], x), (.obs t ch p, calObs, [], []), (.all t ch p x y, calAll, x, y)],
      (s.away = true ∨ (s.path p.val).cal ≠ none → Gives c.1 s ((s.atTime t).calReport p.val resBusy 0 c.2.1 false)) ∧
      (s.away = false → (s.path p.val).cal = none →
        (c.2.1 = calObs → p.val % 8 ≠ 0 → Gives c.1 s ((s.atTime t).calReport p.val resCommand 0 c.2.1 false)) ∧
        (c.2.1 ≠ calObs ∨ p.val % 8 = 0 → ∀ s' code, (s.atTime t).calRequestCheck p.val c.2.1 c.2.2.1 c.2.2.2 = (s', code) →
          (c.2.1 ≠ calObs → s.pathState p.val = pathIn → code = 1) ∧
          (code ≠ 0 →
            ∃ u, Gives c.1 s u ∧ u = s'.calReport p.val resPrecond code c.2.1 false ∧ u.get (Reg.PATH.CAL_STATUS.result p.val) = resPrecond ∧
              u.get (Reg.PATH.CAL_STATUS.precond p.val) = code ∧ u.get (Reg.PATH.CAL_STATUS.done p.val) = 1) ∧
          (code = 0 → s.radio.paths.length = 64 →
            ∃ u r, Gives c.1 s u ∧ (u.path p.val).cal = some r ∧ r.code = c.2.1 ∧
              (r.running = true ↔ s'.calWaits p.val c.2.1 = false ∧
                ¬ (c.2.1 ≠ calAll ∧ calNeedsObs c.2.1 = true ∧ s'.calQueued (groupOf p.val) = true)) ∧
              (r.running = true → u.get (Reg.PATH.CAL_STATUS.running p.val) = 1 ∧ u.dueAt (.cal p.val) = some r.endAt ∧
                r.startAt = max s.now t ∧ (c.2.1 ≠ calAll → r.endAt = max s.now t + ticksOfUs (calUs c.2.1)) ∧
                max s.now t + ticksOfUs (calUs c.2.1) ≤ r.endAt + 2) ∧
              (r.running = false → u.get (Reg.PATH.CAL_STATUS.queued p.val) = 1))))

/-- CAL_CANCEL ends the calibration on the path with CANCELLED, CAL_LOST_MIDWAY a running one that checks the precondition with that
precondition and lost_midway; CAL_START runs a queued one once the receiver is free and its preconditions still hold, and refuses one whose
preconditions have failed; CAL_DONE, at its time, applies what lies in range and reports OK or RANGE. With no calibration on the path none of
them does anything. Coefficients change only at CAL_DONE (R170 to R174). -/
def Claim.CalibrationEnds : Prop :=
  ∀ (s : State) (t : Nat) (ch : Channel) (p : Fin 64) (precond : Nat) (results : List CalResult), s.radio.paths.length = 64 →
    ((s.path p.val).cal = none → ∀ c ∈ [Instr.calStart t p, .calDone t p results, .calLostMidway t p precond],
      Gives c s (s.atTime t)) ∧
    (s.reaches t ch (Reg.PATH.CAL_CMD.word p.val).addr → (s.path p.val).cal = none → Gives (.calCancel t ch p) s (s.atTime t)) ∧
    (∀ r, (s.path p.val).cal = some r →
      (s.reaches t ch (Reg.PATH.CAL_CMD.word p.val).addr →
        ∃ u, Gives (.calCancel t ch p) s u ∧ (u.path p.val).cal = none ∧ u.get (Reg.PATH.CAL_STATUS.result p.val) = resCancelled ∧
          u.get (Reg.PATH.CAL_STATUS.running p.val) = 0 ∧ u.get (Reg.PATH.CAL_STATUS.queued p.val) = 0 ∧
          u.get (Reg.PATH.CAL_STATUS.done p.val) = 1 ∧ u.coeffWords p.val = s.coeffWords p.val) ∧
      (r.running = true → calChecks r.code precond = true →
        ∃ u, Gives (.calLostMidway t p precond) s u ∧ (u.path p.val).cal = none ∧ u.get (Reg.PATH.CAL_STATUS.result p.val) = resPrecond ∧
          u.get (Reg.PATH.CAL_STATUS.precond p.val) = precond ∧ u.get (Reg.PATH.CAL_STATUS.lost_midway p.val) = 1 ∧
          u.get (Reg.PATH.CAL_STATUS.done p.val) = 1 ∧ u.coeffWords p.val = s.coeffWords p.val) ∧
      (r.running = false ∨ calChecks r.code precond = false → Gives (.calLostMidway t p precond) s (s.atTime t)) ∧
      (r.running = false → s.calFailing p.val r.code ≠ 0 →
        ∃ u, Gives (.calStart t p) s u ∧ (u.path p.val).cal = none ∧ u.get (Reg.PATH.CAL_STATUS.result p.val) = resPrecond ∧
          u.get (Reg.PATH.CAL_STATUS.precond p.val) = s.calFailing p.val r.code ∧ u.get (Reg.PATH.CAL_STATUS.lost_midway p.val) = 0 ∧
          u.get (Reg.PATH.CAL_STATUS.done p.val) = 1 ∧ u.coeffWords p.val = s.coeffWords p.val) ∧
      (r.running = false → s.calFailing p.val r.code = 0 →
        ((s.atTime t).calWaits p.val r.code = true → Gives (.calStart t p) s (s.atTime t)) ∧
        ((s.atTime t).calWaits p.val r.code = false →
          ∃ u, Gives (.calStart t p) s u ∧
            (u.path p.val).cal = some { r with running := true, startAt := max s.now t, endAt := (s.atTime t).calEnd p.val r.code } ∧
            (r.code ≠ calAll → (s.atTime t).calEnd p.val r.code = max s.now t + ticksOfUs (calUs r.code)) ∧
            u.get (Reg.PATH.CAL_STATUS.running p.val) = 1 ∧ u.get (Reg.PATH.CAL_STATUS.queued p.val) = 0)) ∧
      (r.running = true → (s.atTime t).due (.cal p.val) = true →
        ∃ u, Gives (.calDone t p results) s u ∧ (u.path p.val).cal = none ∧ u.get (Reg.PATH.CAL_STATUS.done p.val) = 1 ∧
          u.get (Reg.PATH.CAL_STATUS.running p.val) = 0 ∧
          u.get (Reg.PATH.CAL_STATUS.result p.val) = (if results.all calInRange then resOk else resRange) ∧
          (results.any calInRange = false → u.coeffWords p.val = s.coeffWords p.val)))

/-! ### Observation and pre-distortion (R205 to R228) -/

/-- OBS_ATTEMPT: nothing while a capture is in progress, once the period is served, or where the group cannot capture or has no path to serve;
where the conditions of R213 hold for a whole window in the period it captures L samples of the next path; where they do not, the attempt goes
on to the last tick of the period, which discards it with cause NO_WINDOW, and so does the first attempt after a period that ended without
window (R212 to R214). -/
def Claim.ObsAttempts : Prop :=
  ∀ (s : State) (t : Nat) (g : Fin 8), s.obs.length = 8 →
    (∀ k, (s.obsGroup g.val).trying = some k → k < (s.atTime t).obsPeriodNow g.val →
      (s.obsGroup g.val).capture ≠ none ∨ s.obsPlace g.val = none ∨ s.obsNext g.val = none →
      Gives (.obsAttempt t g) s (((s.atTime t).modObsGroup g.val fun y => { y with period := some k, trying := none }).obsDiscard g.val 6)) ∧
    ((∀ k, (s.obsGroup g.val).trying = some k → (s.atTime t).obsPeriodNow g.val ≤ k) →
      ((s.obsGroup g.val).capture ≠ none ∨ (s.obsGroup g.val).period = some ((s.atTime t).obsPeriodNow g.val) ∨ s.obsPlace g.val = none ∨
        s.obsNext g.val = none → Gives (.obsAttempt t g) s (s.atTime t)) ∧
      (∀ p start, (s.obsGroup g.val).capture = none → (s.obsGroup g.val).period ≠ some ((s.atTime t).obsPeriodNow g.val) →
        s.obsPlace g.val ≠ none → s.obsNext g.val = some p → p / 8 = g.val →
        start = (s.atTime t).arrayNow + (if (s.obsGroup g.val).position = some (p % 8) then 0 else ticksOfNs 200) →
        (start / s.obsPeriod g.val = (s.atTime t).obsPeriodNow g.val → (s.atTime t).obsReady p start (start + s.obsLen g.val) = true →
          ∃ u cap, Gives (.obsAttempt t g) s u ∧ (u.obsGroup g.val).capture = some cap ∧ cap.path = p ∧ cap.start = start ∧
            cap.stop = start + s.obsLen g.val ∧ u.get (Reg.GROUP.OBS_STATUS.path g.val) = p % 8 ∧
            (u.obsGroup g.val).position = some (p % 8) ∧ (u.obsGroup g.val).period = some ((s.atTime t).obsPeriodNow g.val) ∧
            (u.obsGroup g.val).hostReq = none ∧ u.mem = s.mem) ∧
        (start / s.obsPeriod g.val ≠ (s.atTime t).obsPeriodNow g.val ∨ (s.atTime t).obsReady p start (start + s.obsLen g.val) = false →
          (((s.atTime t).arrayNow + 1) % s.obsPeriod g.val = 0 →
            ∃ u, Gives (.obsAttempt t g) s u ∧ u.get (Reg.GROUP.OBS_STATUS.last_cause g.val) = 6 ∧
              u.get (Reg.GROUP.OBS_DISCARD.word g.val) = (s.get (Reg.GROUP.OBS_DISCARD.word g.val) + 1) % 2 ^ 32 ∧
              (u.obsGroup g.val).period = some ((s.atTime t).obsPeriodNow g.val) ∧ (u.obsGroup g.val).capture = none) ∧
          (((s.atTime t).arrayNow + 1) % s.obsPeriod g.val ≠ 0 →
            Gives (.obsAttempt t g) s
              ((s.atTime t).modObsGroup g.val fun y => { y with trying := some ((s.atTime t).obsPeriodNow g.val) })))))

/-- OBS_CAPTURE_DONE, once the capture's last sample is in, ends it: where the group still has room, with the first cause of R214 that applies
it is discarded and counted, and otherwise the path's NMSE is the ratio of the given sums in dB; stream z holds the observation codes in [15:4], stream x the
model's own stage 9 output (R211). Before that time, or with none in progress, it does nothing. -/
def Claim.ObsCaptures : Prop :=
  ∀ (s : State) (t : Nat) (g : Fin 8) (inPhase quadrature : List Int) (err ref : Nat), s.obs.length = 8 →
    ((s.obsGroup g.val).capture = none → Gives (.obsCaptureDone t g inPhase quadrature err ref) s (s.atTime t)) ∧
    (∀ c, (s.obsGroup g.val).capture = some c →
      ((s.atTime t).arrayNow < c.stop → Gives (.obsCaptureDone t g inPhase quadrature err ref) s (s.atTime t)) ∧
      (c.stop ≤ (s.atTime t).arrayNow → s.obsPlace g.val = none →
        Gives (.obsCaptureDone t g inPhase quadrature err ref) s ((s.atTime t).modObsGroup g.val fun y => { y with capture := none })) ∧
      (c.stop ≤ (s.atTime t).arrayNow → s.obsPlace g.val ≠ none → c.path / 8 = g.val →
        ∀ (v : State) (codes : List Cplx) (cause : Nat), codes = inPhase.zipWith Cplx.mk quadrature →
        v = ((s.atTime t).modObsGroup g.val fun y => { y with capture := none }) →
        cause = v.obsCause g.val c (codes.take (c.stop - c.start)) ((v.shapedThrough c.stop).capturedX c.path c) →
        ∃ u, Gives (.obsCaptureDone t g inPhase quadrature err ref) s u ∧ (u.obsGroup g.val).capture = none ∧
          (cause ≠ 0 →
            u.get (Reg.GROUP.OBS_DISCARD.word g.val) = (s.get (Reg.GROUP.OBS_DISCARD.word g.val) + 1) % 2 ^ 32 ∧
            u.get (Reg.GROUP.OBS_STATUS.last_cause g.val) = cause ∧
            u.word (Reg.PIPE.DPD_NMSE.word c.path).addr = s.word (Reg.PIPE.DPD_NMSE.word c.path).addr) ∧
          (cause = 0 →
            u.getS (Reg.PIPE.DPD_NMSE.nmse_last c.path) = satS 16 (Config.decibel err ref) ∧
            u.word (Reg.GROUP.OBS_DISCARD.word g.val).addr = s.word (Reg.GROUP.OBS_DISCARD.word g.val).addr) ∧
          (c.host = true → u.get (Reg.GROUP.OBS_STATUS.host_done g.val) = 1)))

/-- OBS_HOST_REQ waits for the next attempt, or is refused while the group adapts, DIAG is shed or the group cannot capture (R216, R217,
R564); OBS_RELEARN makes every path of the group learn its reference gain again and touches no register (R218). -/
def Claim.ObsHost : Prop :=
  ∀ (s : State) (t : Nat) (ch : Channel) (g n : Fin 8), s.reaches t ch (Reg.GROUP.OBS_CTL.word g.val).addr → s.obs.length = 8 →
    (s.dpdGoverns g.val ≠ dpdOff ∨ s.shedding shedDiag ≠ [] ∨ s.obsPlace g.val = none →
      ∃ u, Gives (.obsHostReq t ch g n) s u ∧ u.get (Reg.GROUP.OBS_STATUS.host_refused g.val) = 1 ∧ u.obs = s.obs) ∧
    (s.dpdGoverns g.val = dpdOff → s.shedding shedDiag = [] → s.obsPlace g.val ≠ none →
      ∃ u, Gives (.obsHostReq t ch g n) s u ∧ (u.obsGroup g.val).hostReq = some n.val ∧
        u.get (Reg.GROUP.OBS_CTL.host_path g.val) = n.val ∧ SameWords s u [(Reg.GROUP.OBS_CTL.word g.val).addr]) ∧
    (s.obsPath.length = 64 →
      ∃ u, Gives (.obsRelearn t ch g) s u ∧ u.regs = s.regs ∧ u.mem = s.mem ∧
        (∀ p ∈ groupPaths g.val, (u.obsOf p).attenRef = none ∧ (u.obsOf p).misses = []) ∧
        ∀ p, p / 8 ≠ g.val → u.obsOf p = s.obsOf p)

/-- DPD_ROUND_END of a round that is over starts its fit with the paths captured, or a new round where there is none; a round that a freeze
held back begins. DPD_VERIFY_END ends the verification once every path is verified or its time is over, and the mode that the register holds
governs. Neither acts otherwise (R216, R221, R223, R224, R227, R228). -/
def Claim.DpdRounds : Prop :=
  ∀ (s : State) (t : Nat) (g : Fin 8), s.obs.length = 8 →
    ((s.dpdGoverns g.val = dpdOff ∨ s.dpdPending g.val = true ∨ s.flag (Reg.GROUP.DPD_STATUS.fitting g.val) = true ∨
        s.get (Reg.GROUP.DPD_STATUS.staged_mask g.val) ≠ 0 ∨ s.dpdFrozen g.val = true ∨ s.obsPlace g.val = none) →
      Gives (.dpdRoundEnd t g) s (s.atTime t)) ∧
    (s.dpdGoverns g.val ≠ dpdOff → s.dpdPending g.val = false →
      s.flag (Reg.GROUP.DPD_STATUS.fitting g.val) = false → s.get (Reg.GROUP.DPD_STATUS.staged_mask g.val) = 0 → s.dpdFrozen g.val = false →
      s.obsPlace g.val ≠ none →
      ((s.obsGroup g.val).idle = true →
        Gives (.dpdRoundEnd t g) s ((s.atTime t).dpdNewRound g.val) ∧ (((s.atTime t).dpdNewRound g.val).obsGroup g.val).idle = false) ∧
      ((s.obsGroup g.val).idle = false → (s.atTime t).dpdRoundOver g.val = false → Gives (.dpdRoundEnd t g) s (s.atTime t)) ∧
      ((s.obsGroup g.val).idle = false → (s.atTime t).dpdRoundOver g.val = true →
        ∃ u, Gives (.dpdRoundEnd t g) s u ∧ (u.obsGroup g.val).used = [] ∧ (u.obsGroup g.val).roundStart = (s.atTime t).obsPeriodNow g.val ∧
          ((s.obsGroup g.val).used = [] → u.flag (Reg.GROUP.DPD_STATUS.fitting g.val) = false) ∧
          ((s.obsGroup g.val).used ≠ [] →
            u.flag (Reg.GROUP.DPD_STATUS.fitting g.val) = true ∧ (u.obsGroup g.val).fit = (s.obsGroup g.val).used.eraseDups) ∧
          u.mem = s.mem)) ∧
    (s.flag (Reg.GROUP.DPD_STATUS.verifying g.val) = true →
      ((s.obsGroup g.val).verify = [] ∨ (s.obsGroup g.val).verifyEnd ≤ (s.atTime t).obsPeriodNow g.val →
        ∃ u, Gives (.dpdVerifyEnd t g) s u ∧ u.flag (Reg.GROUP.DPD_STATUS.verifying g.val) = false ∧ (u.obsGroup g.val).verify = [] ∧
          ((s.obsGroup g.val).committing = false → (s.obsGroup g.val).returning = false → u.dpdGoverns g.val = s.dpdMode g.val) ∧
          SameWords s u [(Reg.GROUP.DPD_STATUS.word g.val).addr]) ∧
      ((s.obsGroup g.val).verify ≠ [] → (s.atTime t).obsPeriodNow g.val < (s.obsGroup g.val).verifyEnd →
        Gives (.dpdVerifyEnd t g) s (s.atTime t))) ∧
    (s.flag (Reg.GROUP.DPD_STATUS.verifying g.val) = false → Gives (.dpdVerifyEnd t g) s (s.atTime t))

/-- DPD_FIT_DONE ends the fit in progress; an abandoned one, or one of a group that cannot capture any more, commits nothing, and neither does
one of AUTO that ends in a freeze; in AUTO otherwise one internal transaction switches every fitted path's bank and commits the round, or,
where it does not prepare, discards it; in STAGE the tables are offered to the host (R209, R216, R222, R225, R228). -/
def Claim.DpdFits : Prop :=
  ∀ (s : State) (t : Nat) (g : Fin 8) (tables : List (Nat × List Byte)), s.obs.length = 8 →
    (s.flag (Reg.GROUP.DPD_STATUS.fitting g.val) = false → Gives (.dpdFitDone t g tables) s (s.atTime t)) ∧
    (s.flag (Reg.GROUP.DPD_STATUS.fitting g.val) = true → (∀ p ∈ (s.obsGroup g.val).fit, p / 8 = g.val) →
      ∃ u, Gives (.dpdFitDone t g tables) s u ∧ u.flag (Reg.GROUP.DPD_STATUS.fitting g.val) = false ∧ (u.obsGroup g.val).fit = [] ∧
        ((s.obsGroup g.val).abandoned = true ∨ s.obsPlace g.val = none → u.txn.commits = (s.atTime t).txn.commits ∧ u.mem = s.mem) ∧
        ((s.obsGroup g.val).abandoned = false → s.obsPlace g.val ≠ none →
          (∀ p ∈ (s.obsGroup g.val).fit, u.get (Reg.PIPE.DPD_NMSE.nmse_commit p) = s.get (Reg.PIPE.DPD_NMSE.nmse_last p)) ∧
          (s.dpdGoverns g.val = dpdAuto → s.dpdFrozen g.val = true →
            u.txn.commits = (s.atTime t).txn.commits ∧ (u.obsGroup g.val).used = []) ∧
          (s.dpdGoverns g.val = dpdAuto → s.dpdFrozen g.val = false → s.internalPrepares = false →
            u.txn.commits = (s.atTime t).txn.commits ∧ u.get (Reg.GROUP.DPD_STATUS.round_discarded g.val) = 1 ∧ (u.obsGroup g.val).used = []) ∧
          (s.dpdGoverns g.val = dpdAuto → s.dpdFrozen g.val = false → s.internalPrepares = true →
            (u.obsGroup g.val).committing = true ∧ (u.obsGroup g.val).commit = (s.obsGroup g.val).fit ∧
            ∃ c ∈ u.txn.commits, c.decided = true ∧ c.slot = none ∧
              c.effects = ((s.obsGroup g.val).fit.map fun p => Effect.dpdBank p (1 - s.get (Reg.PIPE.DPD_STATUS.bank_in_force p))) ++
                [.dpdRound g.val]) ∧
          (s.dpdGoverns g.val ≠ dpdAuto →
            u.flag (Reg.GROUP.DPD_STATUS.staged g.val) = true ∧ u.txn.commits = (s.atTime t).txn.commits ∧
            u.get (Reg.GROUP.DPD_STATUS.staged_mask g.val) = sumNat ((s.obsGroup g.val).fit.map fun p => 2 ^ (p % 8)) % 256)))

/-- DPD_DISCARD releases the staged tables and does nothing else. DPD_MODE_WRITE stores a mode other than 0b11, stops a fit and begins a new
round, and governs unless a commit, its verification or its rollback is under way; 0b11 leaves the mode, the fit and the round (R225, R227). -/
def Claim.DpdHost : Prop :=
  ∀ (s : State) (t : Nat) (ch : Channel) (g : Fin 8) (v : Word), s.reaches t ch (Reg.GROUP.DPD_ADAPT.word g.val).addr → s.obs.length = 8 →
    (∃ u, Gives (.dpdDiscard t ch g) s u ∧ u.get (Reg.GROUP.DPD_STATUS.staged_mask g.val) = 0 ∧
      u.get (Reg.GROUP.DPD_STATUS.staged g.val) = 0 ∧ SameWords s u [(Reg.GROUP.DPD_STATUS.word g.val).addr] ∧ u.mem = s.mem) ∧
    (getBits v 0 2 = 3 →
      ∃ u, Gives (.dpdModeWrite t ch g v) s u ∧ u.dpdMode g.val = s.dpdMode g.val ∧ u.obs = s.obs ∧ u.mem = s.mem ∧
        u.get (Reg.GROUP.DPD_STATUS.fitting g.val) = s.get (Reg.GROUP.DPD_STATUS.fitting g.val)) ∧
    (getBits v 0 2 ≠ 3 →
      ∃ u, Gives (.dpdModeWrite t ch g v) s u ∧ u.dpdMode g.val = getBits v 0 2 ∧ u.get (Reg.GROUP.DPD_STATUS.fitting g.val) = 0 ∧
        (u.obsGroup g.val).used = [] ∧ (u.obsGroup g.val).roundStart = (s.atTime t).obsPeriodNow g.val ∧
        u.dpdGoverns g.val = (if s.dpdPending g.val then s.dpdGoverns g.val else getBits v 0 2) ∧
        (s.get (Reg.GROUP.DPD_STATUS.fitting g.val) = 0 → u.mem = s.mem))

/-! ### The symbol timeline (R24 to R48, R238, R250) -/

/-- Every array time lies in exactly one symbol: the symbol in progress begins at or before it and the next begins after it, and symbols
begin in order; half-subframes hold a whole number of symbols (R238). -/
def Obligations.SymbolTimeline : Prop :=
  ∀ (r : CarrierRec), r.spacing ≤ 3 →
    (∀ a, r.boundary (r.symbolAt a) ≤ a ∧ a < r.boundary (r.symbolAt a + 1)) ∧
    (∀ n, r.symbolAt (r.boundary n) = n) ∧
    (∀ k, r.boundary (k * r.symsPerHalf) = k * planningSlot)

/-- SYMBOL_BOUNDARY of a carrier that processes no symbols, of one whose symbol has begun already, or before array time starts, does nothing;
otherwise the boundary is passed and the symbol begins, unless the carrier stops there. INTERNAL_CHECKPOINT changes nothing that anyone can see
(R45, R250, R531). -/
def Obligations.SymbolBoundaries : Prop :=
  ∀ (s : State) (t : Nat) (c : Fin 8) (adc : List (List Cplx)) (unit : Nat),
    Gives (.internalCheckpoint t unit) s (s.atTime t) ∧
    (s.carActive c.val = false ∨ s.clock.started = false ∨
        (∃ m, (s.car c.val).begun = some m ∧ (s.form c.val).symbolAt (s.atTime t).arrayNow ≤ m) →
      Gives (.symbolBoundary t c adc) s (s.atTime t)) ∧
    (s.carActive c.val = true → s.clock.started = true → s.carriers.length = 8 → ∀ n, n = (s.form c.val).symbolAt (s.atTime t).arrayNow →
      (∀ m, (s.car c.val).begun = some m → m < n) →
      (s.stopsBy c.val n = true →
        Gives (.symbolBoundary t c adc) s (((s.atTime t).passBoundary c.val n adc).modCar c.val fun x => { x with begun := some n })) ∧
      (s.stopsBy c.val n = false →
        ∃ u, Gives (.symbolBoundary t c adc) s u ∧ (u.car c.val).begun = some n ∧
          u = ((((s.atTime t).passBoundary c.val n adc).swapRecord c.val n ((s.form c.val).boundary n)).beginSymbol c.val n).pruneSymbol
            c.val n))

/-- RELEASE_TIME releases every output whose time has come, a downlink symbol as it begins, and keeps the others waiting, but for layer data that a
released LAYER record brings them; an output that
nothing holds back passes its gate, one that lacks a shed hall's work counts as shed, and an uplink symbol that lacks data is missed (R24, R25,
R48, R539, R567). -/
def Claim.Releases : Prop :=
  ∀ (s : State) (t : Nat),
    (∃ u, Gives (.releaseTime t) s u ∧ u.mem = s.mem ∧
      u.gates.map (fun g => { g with data := [] }) = (s.gates.filter fun g => !(s.atTime t).ripe g).map (fun g => { g with data := [] }) ∧
      ((∀ g ∈ s.gates, (s.atTime t).ripe g = true → g.kind ≠ .stair) → u.gates = s.gates.filter fun g => !(s.atTime t).ripe g)) ∧
    (∀ g, (s.gates.filter fun g => (s.atTime t).ripe g) = [g] →
      Gives (.releaseTime t) s
        ((((({ s.atTime t with gates := s.gates.filter fun g => !(s.atTime t).ripe g } : State).releaseOne g)).drainPorts).transmitUpTo
          (s.atTime t).arrayNow)) ∧
    (∀ g, (s.noDown g = true → s.releaseOne g = s) ∧
      (s.noDown g = false → ∀ w : State, w = (if g.kind = .down ∨ g.kind = .up then s.countDegraded g.carrier g.symbol else s) →
        (w.withheld g = false → w.shedByHall g.carrier g.isDl = false → s.releaseOne g = w.passGate g) ∧
        (w.withheld g = false → w.shedByHall g.carrier g.isDl = true →
          s.releaseOne g = w.missedIn Reg.POWER.SHED_SYM.word g.carrier g.symbol g.isDl) ∧
        (g.kind ≠ .down → w.withheld g = true → s.releaseOne g = w.missed g.carrier g.symbol g.isDl)))

/-- DOWNLINK_DEADLINE gives every symbol to come whose deadline has passed, carries downlink and has no gate yet, a gate with the data and the
sections then in hand; otherwise it does nothing (R29, R30, R40). -/
def Claim.DownlinkDeadlines : Prop :=
  ∀ (s : State) (t : Nat) (c : Fin 8),
    (s.form? c.val = none ∨ s.clock.started = false → Gives (.downlinkDeadline t c) s (s.atTime t)) ∧
    (∀ r now last, s.form? c.val = some r → s.clock.started = true → now = r.symbolAt (s.atTime t).arrayNow →
      last = r.symbolAt ((s.atTime t).arrayNow + ticksOfNs (s.dlLatency c.val) + ticksOfUs (s.car c.val).reserve) →
      ((∀ n, now < n → n ≤ last → (∃ g ∈ s.gates, g.kind = .down ∧ g.carrier = c.val ∧ g.symbol = n) ∨ s.willDl c.val n = false) →
        Gives (.downlinkDeadline t c) s (s.atTime t)) ∧
      ∃ u, Gives (.downlinkDeadline t c) s u ∧ u.mem = s.mem ∧ u.out = s.out ∧ (∀ g ∈ s.gates, g ∈ u.gates) ∧
        (∀ g ∈ u.gates, g ∈ s.gates ∨ (g.kind = .down ∧ g.carrier = c.val ∧ now < g.symbol ∧ g.symbol ≤ last ∧
          s.willDl c.val g.symbol = true ∧ g.release = r.boundary g.symbol ∧
          g.data = s.fh.data.filter (fun d => d.carrier == c.val && d.symbol == g.symbol) ∧
          g.force = forcesOf s.fh.force true c.val g.symbol)) ∧
        ∀ n, now < n → n ≤ last → s.willDl c.val n = true → ∃ g ∈ u.gates, g.kind = .down ∧ g.carrier = c.val ∧ g.symbol = n)

/-- CARRIER_START: a carrier that is due starts at a slot boundary of its own that nothing holds, and reads RUNNING; CARRIER_STOP: one that
stops at a slot boundary ends its last symbol and reads OFF, or STARTING where a restart follows. At other times they do nothing (R250). -/
def Obligations.CarrierStates : Prop :=
  ∀ (s : State) (t : Nat) (c : Fin 8) (adc : List (List Cplx)), s.carriers.length = 8 →
    (s.carState c.val ≠ carrierStarting ∨ s.form? c.val = none ∨ (s.atTime t).arrayNow < (s.car c.val).since ∨
        (s.form c.val).isSlotBoundary (s.atTime t).arrayNow = false ∨ (s.atTime t).startHeld c.val (s.atTime t).arrayNow = true →
      Gives (.carrierStart t c) s (s.atTime t)) ∧
    (s.carState c.val = carrierStarting → s.form? c.val ≠ none → (s.car c.val).since ≤ (s.atTime t).arrayNow →
      (s.form c.val).isSlotBoundary (s.atTime t).arrayNow = true → (s.atTime t).startHeld c.val (s.atTime t).arrayNow = false →
      ∃ u, Gives (.carrierStart t c) s u ∧ u.carState c.val = carrierRunning ∧ (u.car c.val).committed = (s.atTime t).arrayNow ∧
        (u.car c.val).first = (s.form c.val).symbolAt (s.atTime t).arrayNow) ∧
    (s.carState c.val ≠ carrierStopping ∨ (s.atTime t).arrayNow < (s.car c.val).since ∨
        (s.form c.val).isSlotBoundary (s.atTime t).arrayNow = false → Gives (.carrierStop t ⟨c, adc⟩) s (s.atTime t)) ∧
    (s.carState c.val = carrierStopping → (s.car c.val).since ≤ (s.atTime t).arrayNow →
      (s.form c.val).isSlotBoundary (s.atTime t).arrayNow = true → ∀ v : State, v = (s.atTime t).symbolBoundary c.val adc →
      ∃ u, Gives (.carrierStop t ⟨c, adc⟩) s u ∧
        (∀ r, (v.car c.val).after = some (some r) → u.carState c.val = carrierStarting ∧ u.form? c.val = some r) ∧
        ((v.car c.val).after = none ∨ (v.car c.val).after = some none → u.carState c.val = carrierOff ∧ u.form? c.val = none) ∧
        ∀ g ∈ u.gates, g.kind = .down → g.carrier = c.val → g.release < (s.atTime t).arrayNow)

/-! ### Diagnostic capture, PRACH, weights (R251 to R267, R292 to R314) -/

/-- CAP_ARM arms a capture or refuses it with the first cause that applies; CAP_CANCEL ends an armed one with cause 7; CAP_TRIGGER starts one
at the boundary that its trigger names; CAP_END adds what its path has received of the symbol in progress, and ends one that has its
length with cause 0. Without one, the last three do nothing (R265, R266). -/
def Claim.DiagnosticCapture : Prop :=
  ∀ (s : State) (t : Nat) (ch : Channel) (v : Word) (codes : List Cplx),
    (s.reaches t ch Reg.CARRIER.CAP_CTL.word.addr →
      (∀ code, ((s.atTime t).storeWord Reg.CARRIER.CAP_CTL.word.addr v).capRefusal = code →
        (code ≠ 0 → ∃ u, Gives (.capArm t ch v) s u ∧ u.get Reg.CARRIER.CAP_STATUS.refused = 1 ∧ u.get Reg.CARRIER.CAP_STATUS.cause = code ∧
          u.cap = s.cap ∧ SameWords s u [Reg.CARRIER.CAP_CTL.word.addr, Reg.CARRIER.CAP_STATUS.word.addr]) ∧
        (code = 0 → ∃ u, Gives (.capArm t ch v) s u ∧ u.cap.armed = true ∧ u.cap.recording = false ∧
          u.cap.ctl = u.word Reg.CARRIER.CAP_CTL.word.addr ∧ u.cap.trig = s.word Reg.CARRIER.CAP_TRIG.word.addr ∧
          u.get Reg.CARRIER.CAP_STATUS.armed = 1 ∧ u.mem = s.mem)) ∧
      (s.cap.armed = false → Gives (.capCancel t ch) s (s.atTime t)) ∧
      (s.cap.armed = true → ∃ u, Gives (.capCancel t ch) s u ∧ u.cap.armed = false ∧ u.get Reg.CARRIER.CAP_STATUS.cause = 7 ∧
        u.get Reg.CARRIER.CAP_STATUS.done = 1 ∧ u.get Reg.CARRIER.CAP_STATUS.armed = 0 ∧ (s.cap.recording = false → u.mem = s.mem))) ∧
    (s.cap.armed = false → Gives (.capTrigger t) s (s.atTime t) ∧ Gives (.capEnd t codes) s (s.atTime t)) ∧
    (s.cap.recording = false → Gives (.capEnd t codes) s (s.atTime t)) ∧
    (s.cap.armed = true → s.cap.recording = false → s.carActive (getBits s.cap.ctl 24 3) = true →
      (s.form (getBits s.cap.ctl 24 3)).isBoundary (s.atTime t).arrayNow = true → getBits s.cap.trig 31 1 = 1 →
      Gives (.capTrigger t) s { s.atTime t with cap := { s.cap with recording := true, start := (s.atTime t).arrayNow } }) ∧
    (s.cap.armed = true → s.cap.recording = true → ∀ w : State,
      w = (if s.capFull = true ∨ s.capTapOf = 2 then s.atTime t
        else (s.atTime t).capTake s.capCarrier ((s.form s.capCarrier).symbolAt (s.atTime t).arrayNow) codes) →
      (w.capFull = false → Gives (.capEnd t codes) s w ∧ w.regs = s.regs ∧ w.mem = s.mem ∧ w.cap.armed = true) ∧
      (w.capFull = true →
        ∃ u, Gives (.capEnd t codes) s u ∧ u.cap.armed = false ∧ u.cap.recording = false ∧ u.get Reg.CARRIER.CAP_STATUS.cause = 0 ∧
          u.get Reg.CARRIER.CAP_STATUS.done = 1 ∧ SameWords s u [Reg.CARRIER.CAP_STATUS.word.addr]))

/-- PRACH_OCCASION: before the occasion's last window ends, or for one that does not exist, nothing; after it the occasion is gone, and where
its carrier processes uplink its frames wait in a gate for the release of R257. That of a carrier whose uplink is shed counts as shed, of one
that has stopped as missed (the model's choice, log entry 73). -/
def Claim.PrachOccasions : Prop :=
  ∀ (s : State) (t : Nat) (c : Fin 8) (k : Nat) (adc : List (List Cplx)), s.carriers.length = 8 →
    ((s.car c.val).occasions[k]? = none → Gives (.prachOccasion t c k adc) s (s.atTime t)) ∧
    (∀ o stop, (s.car c.val).occasions[k]? = some o →
      stop = o.start + o.cp * tsTicks + o.windows * ticksPerSecond / max 1 o.spacing →
      ((s.atTime t).arrayNow < stop → Gives (.prachOccasion t c k adc) s (s.atTime t)) ∧
      (stop ≤ (s.atTime t).arrayNow →
        ∃ u, Gives (.prachOccasion t c k adc) s u ∧ (u.car c.val).occasions = (s.car c.val).occasions.eraseIdx k ∧
          (s.carActive c.val = true → s.shedUp c.val = false →
            ∃ g, u.gates = s.gates ++ [g] ∧ g.kind = .prach ∧ g.carrier = c.val ∧
              g.release = stop + ticksOfNs (s.prachLatency c.val) + ticksOfUs (s.car c.val).reserve) ∧
          (s.carActive c.val = false → u.gates = s.gates ∧
            u = ((s.atTime t).prachGone c.val k).missed c.val ((s.form c.val).symbolAt o.start) false) ∧
          (s.carActive c.val = true → s.shedUp c.val = true → u.gates = s.gates ∧
            u = ((s.atTime t).prachGone c.val k).missedIn Reg.POWER.SHED_SYM.word c.val ((s.form c.val).symbolAt o.start) false)))

/-- SOLVER_EPOCH_START begins the epoch of the slot that its lead names, once and only on a RUNNING carrier with epochs; a further one finds the
epoch before it unfinished and is late. SOLVER_EPOCH_DONE of a local carrier requests the switch to the idle set where at least 2 µs are left,
and is late otherwise; with none in progress it does nothing (R300 to R303). -/
def Obligations.SolverEpochs : Prop :=
  ∀ (s : State) (t : Nat) (c : Fin 8), s.beam.epochs.length = 8 → s.beam.lastEpoch.length = 8 → (s.form c.val).joint = false →
    ((s.running c.val = false ∨ s.get (Reg.SOLVER.EPOCH_CTL.period c.val) = 0 ∨ (s.form c.val).mode = modeBeamId) →
      Gives (.solverEpochStart t c) s (s.atTime t)) ∧
    (∀ n, n = (s.form c.val).slotOf ((s.form c.val).symbolAt ((s.atTime t).arrayNow + ticksOfUs (s.get (Reg.SOLVER.EPOCH_CTL.lead c.val)))) →
      s.running c.val = true → s.get (Reg.SOLVER.EPOCH_CTL.period c.val) ≠ 0 → n % s.get (Reg.SOLVER.EPOCH_CTL.period c.val) = 0 →
      s.beam.lastEpoch.getD c.val none ≠ some n → (s.form c.val).mode ≠ modeBeamId →
      (s.atTime t).arrayNow < (s.form c.val).boundary (n * (s.form c.val).symbols) → s.shedBit shedEpoch c.val = false →
      ((s.beam.epochs.getD c.val none).isSome = true →
        ∃ u, Gives (.solverEpochStart t c) s u ∧ u.beam.epochs.getD c.val none = none ∧ u.get Reg.SOLVER.STATUS.late = 1 ∧
          u.get (Reg.SOLVER.LATE_EPOCH.word c.val) = (s.get (Reg.SOLVER.LATE_EPOCH.word c.val) + 1) % 2 ^ 32) ∧
      (s.beam.epochs.getD c.val none = none → (s.car c.val).setLeft = 0 →
        ∃ u e, Gives (.solverEpochStart t c) s u ∧ u.beam.epochs.getD c.val none = some e ∧ e.slot = n ∧ e.ready = false ∧
          e.start = (s.atTime t).arrayNow ∧ (u.get Reg.SOLVER.STATUS.running).testBit c.val = true)) ∧
    (s.beam.epochs.getD c.val none = none → Gives (.solverEpochDone t c) s (s.atTime t)) ∧
    (∀ e, s.beam.epochs.getD c.val none = some e →
      (e.ready = true → Gives (.solverEpochDone t c) s (s.atTime t)) ∧
      (e.ready = false →
        ((s.form c.val).boundary (e.slot * (s.form c.val).symbols) < (s.atTime t).arrayNow + ticksOfUs 2 →
          Gives (.solverEpochDone t c) s ((s.atTime t).epochLate c.val e.slot)) ∧
        ((s.atTime t).arrayNow + ticksOfUs 2 ≤ (s.form c.val).boundary (e.slot * (s.form c.val).symbols) →
          ∃ u e', Gives (.solverEpochDone t c) s u ∧ u.beam.epochs.getD c.val none = some e' ∧ e'.ready = true ∧
            (∃ x ∈ u.txn.commits, x.time = (s.form c.val).boundary (e.slot * (s.form c.val).symbols) ∧
              x.effects = [.weights c.val (1 - (s.car c.val).set)]) ∧
            (u.get Reg.SOLVER.STATUS.running).testBit c.val = false)))
/-! ### The hall fabric (R318 to R368) -/

/-- Every hall instruction is issued only by a hall that can issue, and only where the word at its PC is its own; an opcode that R322 does not
list traps with cause 1, a word with a reserved bit set or an invalid field with cause 2 (R321, R322, R349). A word of another opcode is not
the command's (the model's choice, log entry 30). -/
def Obligations.HallIssue : Prop :=
  ∀ (s : State) (t : Nat) (h : Fin 136), s.halls.length = 136 →
    ∀ p ∈ [(Instr.nop t h, 0x00, badB), (.jmp t h, 0x01, fun w => badB w || field w 22 4 == 0xF), (.call t h, 0x02, badB), (.ret t h, 0x03, badB),
        (.loop t h, 0x04, badB), (.waite t h, 0x05, badMask), (.rete t h, 0x06, badB), (.evmask t h, 0x07, badMask), (.sig t h, 0x08, badB),
        (.addi t h, 0x10, anyField), (.lui t h, 0x11, anyField), (.ori t h, 0x12, anyField), (.add t h, 0x13, anyField),
        (.sub t h, 0x14, anyField), (.hallAnd t h, 0x15, anyField), (.hallOr t h, 0x16, anyField), (.hallXor t h, 0x17, anyField),
        (.shl t h, 0x18, anyField), (.shra t h, 0x19, anyField), (.shrl t h, 0x1A, anyField), (.cmp t h, 0x1B, badGd), (.gets t h, 0x1C, anyField),
        (.puts t h, 0x1D, badGd), (.ldv t h, 0x20, badM), (.ldb t h, 0x21, badM), (.ldl t h, 0x22, badM), (.stv t h, 0x23, badM),
        (.stl t h, 0x24, badM), (.ldw t h, 0x25, badM), (.stw t h, 0x26, badM), (.send t h, 0x28, anyField),
        (.fetch t h, 0x29, fun w => cCount w == 0), (.cmul t h, 0x30, fun w => badBank (vD w)), (.cmac t h, 0x31, fun w => badBank (vD w)),
        (.cmsc t h, 0x32, fun w => badBank (vD w)), (.rmac t h, 0x33, fun w => badBank (vD w)), (.vadd t h, 0x34, anyField),
        (.vsub t h, 0x35, anyField), (.vshr t h, 0x36, anyField), (.vshl t h, 0x37, anyField), (.vmov t h, 0x38, anyField),
        (.clra t h, 0x39, fun w => badBank (vD w) || decide (43 < vSh w)), (.extr t h, 0x3A, fun w => badBank (vA w)),
        (.rsum t h, 0x3B, fun w => badBank (vD w)), (.hallExp t h, 0x3C, badX), (.norm t h, 0x3D, badX), (.clrf t h, 0x3E, badMask)],
      ((s.atTime t).hallReady h.val = false → Gives p.1 s (s.atTime t)) ∧
      ((s.atTime t).hallReady h.val = true → field (s.hallWord h.val) 26 6 ∉ hallOpcodes → Traps p.1 s h.val 1) ∧
      ((s.atTime t).hallReady h.val = true → field (s.hallWord h.val) 26 6 ∈ hallOpcodes → field (s.hallWord h.val) 26 6 ≠ p.2.1 →
        Gives p.1 s (s.atTime t)) ∧
      ((s.atTime t).hallReady h.val = true → field (s.hallWord h.val) 26 6 = p.2.1 → p.2.2 (s.hallWord h.val) = true → Traps p.1 s h.val 2)

/-- The scalar results of R333: sum and difference modulo 2^32 with C as the carry out or the absence of a borrow and V as signed
overflow, logic with C and V clear. Z and N follow the result. The shadow set serves in a handler. -/
def Claim.HallScalar : Prop :=
  ∀ (s : State) (t w : Nat) (h : Fin 136),
    ∀ p ∈ ([(.addi t h, 0x10, fun a _ i => (a + i.signExtend 32, decide (2 ^ 32 ≤ a.toNat + (i.signExtend 32).toNat),
            decide (a.toInt + i.toInt ≠ (a + i.signExtend 32).toInt))),
        (.lui t h, 0x11, fun _ _ i => (i.zeroExtend 32 <<< 16, false, false)),
        (.ori t h, 0x12, fun a _ i => (a ||| i.zeroExtend 32, false, false)),
        (.add t h, 0x13, fun a b _ => (a + b, decide (2 ^ 32 ≤ a.toNat + b.toNat), decide (a.toInt + b.toInt ≠ (a + b).toInt))),
        (.sub t h, 0x14, fun a b _ => (a - b, decide (b.toNat ≤ a.toNat), decide (a.toInt - b.toInt ≠ (a - b).toInt))),
        (.hallAnd t h, 0x15, fun a b _ => (a &&& b, false, false)), (.hallOr t h, 0x16, fun a b _ => (a ||| b, false, false)),
        (.hallXor t h, 0x17, fun a b _ => (a ^^^ b, false, false)),
        (.cmp t h, 0x1B, fun a b _ => (a - b, decide (b.toNat ≤ a.toNat), decide (a.toInt - b.toInt ≠ (a - b).toInt)))] :
        List (Instr × Nat × (Word → Word → BitVec 16 → Word × Bool × Bool))),
      s.issuing t h.val p.2.1 w → (p.2.1 = 0x1B → badGd w = false) →
      ∀ r, r = p.2.2 ((s.core h.val).ga w) ((s.core h.val).gb w) (BitVec.ofNat 16 w) →
        Gives p.1 s (s.completes t h.val fun c => c.modSet fun x =>
          { g := if p.2.1 = 0x1B then x.g else x.g.set (field w 21 5) r.1, z := r.1 == 0, n := r.1.msb, c := r.2.1, v := r.2.2 })

/-- Shifts by n places: Z and N follow the result, C is the last bit shifted out, V clears. A shift by 0 keeps the operand, and C is then a free
value (log entry 29). -/
def Claim.HallShifts : Prop :=
  ∀ (s : State) (t w n : Nat) (h : Fin 136) (a : Word), n = field w 0 5 → a = (s.core h.val).ga w →
    ∀ p ∈ ([(.shl t h, 0x18, a <<< n, decide (a.toNat / 2 ^ (32 - n) % 2 = 1)),
        (.shra t h, 0x19, BitVec.ofInt 32 (a.toInt / 2 ^ n), decide (a.toNat / 2 ^ (n - 1) % 2 = 1)),
        (.shrl t h, 0x1A, BitVec.ofNat 32 (a.toNat / 2 ^ n), decide (a.toNat / 2 ^ (n - 1) % 2 = 1))] : List (Instr × Nat × Word × Bool)),
      s.issuing t h.val p.2.1 w →
      (n ≠ 0 → Gives p.1 s (s.completes t h.val fun c => c.modSet fun x =>
        { g := x.g.set (field w 21 5) p.2.2.1, z := p.2.2.1 == 0, n := p.2.2.1.msb, c := p.2.2.2, v := false })) ∧
      (n = 0 → Gives p.1 s { s.completes t h.val fun c => c.modSet fun x =>
        { g := x.g.set (field w 21 5) a, z := a == 0, n := a.msb, c := (Config.freeByte s.free).getLsbD 0, v := false } with free := s.free + 1 })

/-- Program flow: NOP goes on; JMP goes where its condition holds; CALL pushes the next address on a stack of four, RET pops it; LOOP begins a
body of n passes on a stack of four, and with n = 0 goes on after it; SIG rings the atrium; EVMASK and CLRF set the enabled events and clear
sticky flags. The stacks and RETE outside a handler trap (R322, R323, R341 to R347, R349). -/
def Claim.HallFlow : Prop :=
  ∀ (s : State) (t w : Nat) (h : Fin 136) (c : HallCore), c = s.core h.val →
    (s.issuing t h.val 0x00 w → badB w = false → Gives (.nop t h) s (s.completes t h.val id)) ∧
    (s.issuing t h.val 0x01 w → badB w = false → field w 22 4 ≠ 0xF →
      (branchHolds c (s.get (Reg.HALL.FLAGS.word h.val)) (field w 22 4) = true →
        Gives (.jmp t h) s ((s.atTime t).retireHall h.val fun c => c.jumpTo (field w 0 12))) ∧
      (branchHolds c (s.get (Reg.HALL.FLAGS.word h.val)) (field w 22 4) = false → Gives (.jmp t h) s (s.completes t h.val id))) ∧
    (s.issuing t h.val 0x02 w → badB w = false →
      (4 ≤ c.returns.length → Traps (.call t h) s h.val 4) ∧
      (c.returns.length < 4 → Gives (.call t h) s ((s.atTime t).retireHall h.val fun c =>
        { c with returns := (c.pc + 1) % 4096 :: c.returns }.jumpTo (field w 0 12)))) ∧
    (s.issuing t h.val 0x03 w → badB w = false →
      (c.returns = [] → Traps (.ret t h) s h.val 4) ∧
      (∀ a rest, c.returns = a :: rest → Gives (.ret t h) s ((s.atTime t).retireHall h.val fun c => { c with returns := rest }.jumpTo a))) ∧
    (s.issuing t h.val 0x04 w → badB w = false →
      (c.g (field w 17 5) = 0 → Gives (.loop t h) s ((s.atTime t).retireHall h.val fun c => c.afterAt (field w 0 12))) ∧
      (c.g (field w 17 5) ≠ 0 → 4 ≤ c.loops.length → Traps (.loop t h) s h.val 5) ∧
      (c.g (field w 17 5) ≠ 0 → c.loops.length < 4 → Gives (.loop t h) s ((s.atTime t).retireHall h.val fun c =>
        { c with loops := { first := (c.pc + 1) % 4096, last := field w 0 12, left := (c.g (field w 17 5)).toNat } :: c.loops }.jumpTo
          ((c.pc + 1) % 4096)))) ∧
    (s.issuing t h.val 0x05 w → badMask w = false →
      (field w 0 16 &&& c.pending &&& c.enabled ≠ 0 → Gives (.waite t h) s (s.completes t h.val id)) ∧
      (field w 0 16 &&& c.pending &&& c.enabled = 0 →
        Gives (.waite t h) s ((s.atTime t).modHall h.val fun x => { x with waiting := some (field w 0 16) }))) ∧
    (s.issuing t h.val 0x06 w → badB w = false →
      (c.shadow = false → Traps (.rete t h) s h.val 6) ∧
      (c.shadow = true → ∃ u, Gives (.rete t h) s u ∧ (u.core h.val).shadow = false ∧ (u.core h.val).pc = c.epc ∧
        (u.core h.val).loops = c.keptLoops ∧ (u.core h.val).primary = c.primary ∧ (u.core h.val).dm = c.dm ∧
        SameWords s u [] ∧ u.mem = s.mem)) ∧
    (s.issuing t h.val 0x07 w → badMask w = false →
      Gives (.evmask t h) s (s.completes t h.val fun c =>
        { c with enabled := field w 0 16 % 2 ^ min (progVectors ((s.hall h.val).program.getD [])) 16 })) ∧
    (s.issuing t h.val 0x08 w → badB w = false →
      Gives (.sig t h) s { s.completes t h.val id with out := s.out ++ [.sig h.val (field w 0 8)] }) ∧
    (s.issuing t h.val 0x3E w → badMask w = false →
      ∃ u, Gives (.clrf t h) s u ∧ u.get (Reg.HALL.FLAGS.word h.val) =
          s.get (Reg.HALL.FLAGS.word h.val) - (s.get (Reg.HALL.FLAGS.word h.val) &&& field w 0 12) ∧
        u.hall h.val = (s.completes t h.val id).hall h.val ∧ SameWords s u [(Reg.HALL.FLAGS.word h.val).addr] ∧ u.mem = s.mem)

/-- GETS reads each special register of R340 into gd, TIME_LO holding TIME_HI for the next read of it; PUTS writes MBOX_OUT, TIMER, the fields of
the address generators and the read pointers of the rings. Another number traps with cause 2 (R339, R340). -/
def Claim.HallSpecials : Prop :=
  ∀ (s : State) (t w : Nat) (h : Fin 136) (c : HallCore), c = s.core h.val →
    (s.issuing t h.val 0x1C w →
      (∀ k, k < 4 → ∀ f, f < 5 → ∀ q, q < 8 →
        ∀ p ∈ [(0x00, BitVec.ofNat 32 h.val), (0x01, BitVec.ofNat 32 (timeLo (s.atTime t).arrayNow)),
            (0x02, BitVec.ofNat 32 (c.timeHi.getD (timeHi (s.atTime t).arrayNow))), (0x03, BitVec.ofNat 32 ((match s.timing with | some j => (s.car j).epoch | none => 0) % 65536)), (0x04, BitVec.ofNat 32 c.evcause),
            (0x05, s.word (Reg.HALL.MBOX_IN.word h.val).addr), (0x07, BitVec.ofNat 32 c.timer), (0x10 + 5 * k + f, (c.gen k).read f),
            (0x28 + 2 * q, BitVec.ofNat 32 (c.rings.getD q default).rd), (0x29 + 2 * q, BitVec.ofNat 32 (c.rings.getD q default).count)],
          field w 0 6 = p.1 →
          ∃ u, Gives (.gets t h) s u ∧ (u.core h.val).set.g = c.set.g.set (field w 21 5) p.2 ∧ (u.core h.val).pc = (c.afterAt c.pc).pc ∧
            (p.1 = 0x01 → (u.core h.val).timeHi = some (timeHi (s.atTime t).arrayNow)) ∧ (p.1 ≠ 0x01 → (u.core h.val).timeHi = c.timeHi) ∧
            (u.core h.val).dm = c.dm ∧ (u.core h.val).v = c.v ∧ (u.core h.val).acc = c.acc ∧ u.regs = s.regs ∧ u.mem = s.mem ∧ u.out = s.out) ∧
      (field w 0 6 = 6 ∨ (0x08 ≤ field w 0 6 ∧ field w 0 6 < 0x10) ∨ (0x24 ≤ field w 0 6 ∧ field w 0 6 < 0x28) ∨ 0x38 ≤ field w 0 6 →
        Traps (.gets t h) s h.val 2)) ∧
    (s.issuing t h.val 0x1D w → badGd w = false → ∀ v, v = (c.ga w).toNat →
      (field w 0 6 = 6 →
        ∃ u, Gives (.puts t h) s u ∧ u.get (Reg.HALL.MBOX_OUT.word h.val) = v ∧ SameWords s u [(Reg.HALL.MBOX_OUT.word h.val).addr] ∧
          u.hall h.val = (s.completes t h.val id).hall h.val ∧ u.mem = s.mem) ∧
      (field w 0 6 = 7 → Gives (.puts t h) s (s.completes t h.val fun c => { c with timer := v })) ∧
      (∀ k f, k < 4 → f < 5 → field w 0 6 = 0x10 + 5 * k + f →
        (f ≠ 3 → Gives (.puts t h) s (s.completes t h.val fun c => { c with ag := c.ag.modify k fun x => x.write f v })) ∧
        (f = 3 → (word4 (v % 65536) = 0 ∨ (c.gen k).offset < word4 (v % 65536)) →
          Gives (.puts t h) s (s.completes t h.val fun c => { c with ag := c.ag.set k { c.gen k with len := v % 65536 } })) ∧
        (f = 3 → word4 (v % 65536) ≠ 0 → word4 (v % 65536) ≤ (c.gen k).offset →
          ∃ u, Gives (.puts t h) s u ∧ (k < c.ag.length → (u.core h.val).gen k =
              { c.gen k with len := v % 65536,
                             ptr := (word4 (c.gen k).base + (c.gen k).offset % word4 (v % 65536)) % 65536 }) ∧
            u.get ⟨(Reg.HALL.FLAGS.word h.val).addr, 4 + k, 1⟩ = 1)) ∧
      (∀ q, q < 8 → field w 0 6 = 0x28 + 2 * q →
        Gives (.puts t h) s (s.completes t h.val fun c =>
          { c with rings := c.rings.modify q fun x => x.setRd (s.ringSlots h.val q) v })) ∧
      (field w 0 6 < 6 → Traps (.puts t h) s h.val 2))

/-- Memory accesses: 16 elements, one element broadcast or put into a lane, or a word go between data memory at the addresses of R335 and a
register, and pm then moves the pointer (R324, R334 to R338); stores narrow each component to 16 bits. pm = 0b11 traps with cause 3 where bit
reversal is not valid. -/
def Claim.HallMemory : Prop :=
  ∀ (s : State) (t w : Nat) (h : Fin 136) (c : HallCore) (x : AddrGen), c = s.core h.val → x = c.gen (mAg w) → badM w = false →
    (∀ p ∈ [(Instr.ldv t h, 0x20), (.ldb t h, 0x21), (.ldl t h, 0x22), (.stv t h, 0x23), (.stl t h, 0x24), (.ldw t h, 0x25), (.stw t h, 0x26)],
      s.issuing t h.val p.2 w → mPm w = 3 → 32 ≤ h.val → Traps p.1 s h.val 3) ∧
    ((mPm w ≠ 3 ∨ h.val < 32) →
      (∀ p ∈ ([(.ldv t h, 0x20, fun c => { c with v := c.v.set (mV w) ((List.range 16).map fun j => c.elem x j) }),
          (.ldb t h, 0x21, fun c => { c with v := c.v.set (mV w) (List.replicate 16 (c.elem x 0)) }),
          (.ldl t h, 0x22, fun c => { c with v := c.v.set (mV w) ((c.vec (mV w)).set (mLane w) (c.elem x 0)) }),
          (.ldw t h, 0x25, fun c => c.setG (mG w) (BitVec.ofNat 32 (c.load (x.element 0)))),
          (.stw t h, 0x26, fun c => { c with dm := Memory.writeBytes c.dm (x.element 0) (leBytes 4 (c.g (mG w)).toNat) })] :
          List (Instr × Nat × (HallCore → HallCore))),
        s.issuing t h.val p.2.1 w →
          Gives p.1 s (s.completes t h.val fun c => { p.2.2 c with ag := c.ag.modify (mAg w) fun x => x.advance (mPm w) })) ∧
      (∀ p ∈ ([(.stv t h, 0x23, (List.range 16).map fun j => (x.element j, (c.vec (mV w)).getD j Cplx.zero)),
          (.stl t h, 0x24, [(x.element 0, (c.vec (mV w)).getD (mLane w) Cplx.zero)])] : List (Instr × Nat × List (Nat × Cplx))),
        s.issuing t h.val p.2.1 w →
          (∃ u, Gives p.1 s u ∧ (u.core h.val).dm = p.2.2.foldl (fun m e =>
              Memory.writeBytes m e.1 (leBytes 4 ((narrowC (mSat w) 16 e.2).1.word).toNat)) c.dm ∧
            (u.core h.val).ag = c.ag.modify (mAg w) (fun x => x.advance (mPm w)) ∧ (u.core h.val).pc = (c.afterAt c.pc).pc ∧
            (u.core h.val).v = c.v ∧ u.mem = s.mem ∧
            (u.get (Reg.HALL.FLAGS.sat h.val) = 1 ↔ s.get (Reg.HALL.FLAGS.sat h.val) = 1 ∨ ∃ e ∈ p.2.2, (narrowC (mSat w) 16 e.2).2 = true))))

/-- Multiply-accumulate: each lane of bank d takes the exact sum of R325, narrowed to 44 bits by wrap or, with SAT, by saturation; a lane that
overflows sets acc_ovf of its bank. While no lane overflows, the sums are exact and no flag changes (R325 to R327). -/
def Claim.HallMac : Prop :=
  ∀ (s : State) (t w : Nat) (h : Fin 136) (c : HallCore), c = s.core h.val → vD w < 4 →
    ∀ p ∈ ([(.cmul t h, 0x30, fun _ a b => a.mul b), (.cmac t h, 0x31, fun q a b => q.add (a.mul b)), (.cmsc t h, 0x32, fun q a b => q.sub (a.mul b)),
        (.rmac t h, 0x33, fun q a b => ⟨q.re + a.re * b.re, q.im + a.im * b.im⟩)] : List (Instr × Nat × (Cplx → Cplx → Cplx → Cplx))),
      s.issuing t h.val p.2.1 w → ∀ sums, sums = List.zipWith (fun q ab => p.2.2 q ab.1 ab.2) (c.bankAcc (vD w)) (List.zip (c.opA w) (c.opB w)) →
        ((∀ y ∈ sums, -(2 ^ 43) ≤ y.re ∧ y.re < 2 ^ 43 ∧ -(2 ^ 43) ≤ y.im ∧ y.im < 2 ^ 43) →
          Gives p.1 s (s.completes t h.val fun c => { c with acc := c.acc.set (vD w) sums })) ∧
        ((∃ y ∈ sums, y.re < -(2 ^ 43) ∨ 2 ^ 43 ≤ y.re ∨ y.im < -(2 ^ 43) ∨ 2 ^ 43 ≤ y.im) →
          ∃ u, Gives p.1 s u ∧ u.get ⟨(Reg.HALL.FLAGS.word h.val).addr, 8 + vD w, 1⟩ = 1 ∧
            (u.core h.val).acc = c.acc.set (vD w) (sums.map fun y => (accumC (vSat w) y).1) ∧ ((u.core h.val).pending).testBit evAccOvf = true ∧
            (u.core h.val).v = c.v ∧ (u.core h.val).dm = c.dm ∧ u.mem = s.mem)

/-- Vector results are narrowed to 18 bits by wrap, or with SAT by saturation, which sets sat; results that fit are exact and change no flag
(R325 to R327, R331). -/
def Claim.HallVector : Prop :=
  ∀ (s : State) (t w : Nat) (h : Fin 136) (c : HallCore), c = s.core h.val →
    ∀ p ∈ ([(.vadd t h, 0x34, List.zipWith Cplx.add (c.opA w) (c.opB w)), (.vsub t h, 0x35, List.zipWith Cplx.sub (c.opA w) (c.opB w)),
        (.vshr t h, 0x36, (c.opA w).map fun y => ⟨y.re / 2 ^ vSh w, y.im / 2 ^ vSh w⟩),
        (.vshl t h, 0x37, (c.opA w).map fun y => ⟨y.re * 2 ^ vSh w, y.im * 2 ^ vSh w⟩), (.vmov t h, 0x38, c.opB w),
        (.extr t h, 0x3A, (c.opBank w).map fun y => ⟨y.re / 2 ^ vSh w, y.im / 2 ^ vSh w⟩)] : List (Instr × Nat × List Cplx)),
      s.issuing t h.val p.2.1 w → (p.2.1 = 0x3A → vA w < 4) →
        ((∀ y ∈ p.2.2, -(2 ^ 17) ≤ y.re ∧ y.re < 2 ^ 17 ∧ -(2 ^ 17) ≤ y.im ∧ y.im < 2 ^ 17) →
          Gives p.1 s (s.completes t h.val fun c => { c with v := c.v.set (vD w) p.2.2 })) ∧
        (∃ u, Gives p.1 s u ∧ (u.core h.val).v = c.v.set (vD w) (p.2.2.map fun y => (narrowC (vSat w) 18 y).1) ∧
          (u.core h.val).acc = c.acc ∧ (u.core h.val).dm = c.dm ∧ u.mem = s.mem ∧
          (u.get (Reg.HALL.FLAGS.sat h.val) = 1 ↔ s.get (Reg.HALL.FLAGS.sat h.val) = 1 ∨
            (vSat w = true ∧ ∃ y ∈ p.2.2, y.re < -(2 ^ 17) ∨ 2 ^ 17 ≤ y.re ∨ y.im < -(2 ^ 17) ∨ 2 ^ 17 ≤ y.im)))

/-- CLRA sets a bank to the rounding bias, or lane bl alone; RSUM puts the sum of the lanes into lane 0 and clears the rest; EXP finds the
redundant sign bits of a lane or of all; NORM shifts a bank left by the clamped amount of a register, or right (R328 to R332). -/
def Obligations.HallAccumulators : Prop :=
  ∀ (s : State) (t w : Nat) (h : Fin 136) (c : HallCore), c = s.core h.val →
    (s.issuing t h.val 0x39 w → vD w < 4 → vSh w ≤ 43 → ∀ x : Int, x = (if vSh w = 0 then 0 else 2 ^ (vSh w - 1)) →
      Gives (.clra t h) s (s.completes t h.val fun c => { c with acc := c.acc.set (vD w) ((List.range 16).map fun l =>
        if vBb w = true ∧ l ≠ vBl w then Cplx.zero else ⟨x, x⟩) })) ∧
    (s.issuing t h.val 0x3B w → vD w < 4 → ∀ y, y = sumC (c.bankAcc (vD w)) →
      -(2 ^ 43) ≤ y.re → y.re < 2 ^ 43 → -(2 ^ 43) ≤ y.im → y.im < 2 ^ 43 →
      Gives (.rsum t h) s (s.completes t h.val fun c => { c with acc := c.acc.set (vD w) (y :: List.replicate 15 Cplx.zero) })) ∧
    (s.issuing t h.val 0x3B w → vD w < 4 →
      ∃ u, Gives (.rsum t h) s u ∧ (u.core h.val).acc =
        c.acc.set (vD w) ((accumC (vSat w) (sumC (c.bankAcc (vD w)))).1 :: List.replicate 15 Cplx.zero)) ∧
    (s.issuing t h.val 0x3C w → badX w = false → ∀ lanes, lanes = (if w.testBit 14 then c.bankAcc (xBank w) else [(c.bankAcc (xBank w)).getD (field w 15 4) Cplx.zero]) →
      (∀ y ∈ lanes, -(2 ^ 43) ≤ y.re ∧ y.re < 2 ^ 43 ∧ -(2 ^ 43) ≤ y.im ∧ y.im < 2 ^ 43) →
      ∃ n, Gives (.hallExp t h) s (s.completes t h.val fun c => c.setG (xG w) (BitVec.ofNat 32 n)) ∧ n ≤ 43 ∧
        (∀ y ∈ lanes, -(2 ^ 43) ≤ y.re * 2 ^ n ∧ y.re * 2 ^ n < 2 ^ 43 ∧ -(2 ^ 43) ≤ y.im * 2 ^ n ∧ y.im * 2 ^ n < 2 ^ 43) ∧
        (n < 43 → ∃ y ∈ lanes, y.re * 2 ^ (n + 1) < -(2 ^ 43) ∨ 2 ^ 43 ≤ y.re * 2 ^ (n + 1) ∨ y.im * 2 ^ (n + 1) < -(2 ^ 43) ∨ 2 ^ 43 ≤ y.im * 2 ^ (n + 1))) ∧
    (s.issuing t h.val 0x3D w → badX w = false → ∀ k, k = clampInt (-43) 43 (c.g (xG w)).toInt →
      (k < 0 → Gives (.norm t h) s (s.completes t h.val fun c => { c with acc := c.acc.set (xBank w) ((c.bankAcc (xBank w)).map fun y =>
        ⟨y.re / 2 ^ (-k).toNat, y.im / 2 ^ (-k).toNat⟩) })) ∧
      (0 ≤ k → (∀ y ∈ c.bankAcc (xBank w), -(2 ^ 43) ≤ y.re * 2 ^ k.toNat ∧ y.re * 2 ^ k.toNat < 2 ^ 43 ∧ -(2 ^ 43) ≤ y.im * 2 ^ k.toNat ∧
          y.im * 2 ^ k.toNat < 2 ^ 43) →
        Gives (.norm t h) s (s.completes t h.val fun c => { c with acc := c.acc.set (xBank w) ((c.bankAcc (xBank w)).map fun y =>
          ⟨y.re * 2 ^ k.toNat, y.im * 2 ^ k.toNat⟩) })))

/-- SEND takes 16 elements from data memory to its flow: into the flow's banks of shared memory, or into the corridors where the flow has
credit, and otherwise the hall waits; while flits of the flow's old route are on their way it is held. FETCH asks for its flits where the range
lies in the flow's banks and its ring has room. Outside the banks they trap with cause 7 (R105, R347, R349, R359 to R362). -/
def Claim.HallCorridors : Prop :=
  ∀ (s : State) (t w : Nat) (h : Fin 136) (c : HallCore) (r : FlowRec) (old : Prop), c = s.core h.val → r = s.route h.val (cFlow w) →
    old = ((c.flows.getD (cFlow w) default).rerouted = true ∧ ∃ x ∈ s.flits, x.hall = h.val ∧ x.flow = cFlow w) →
    (s.issuing t h.val 0x28 w →
      (mPm w = 3 → 32 ≤ h.val → Traps (.send t h) s h.val 3) ∧
      ((mPm w ≠ 3 ∨ h.val < 32) →
        (r.kind = 2 → r.count = 0 → Traps (.send t h) s h.val 7) ∧
        (¬ (r.kind = 2 ∧ r.count = 0) → s.credits h.val (cFlow w) = some 0 →
          Gives (.send t h) s ((s.atTime t).modHall h.val fun x => { x with credit := some (cFlow w) })) ∧
        (r.kind = 2 → r.count ≠ 0 → ¬ old → ∀ data, data = ((List.range 16).map fun j => leBytes 4 (c.load ((c.gen (mAg w)).element j))).flatten →
          ∃ u, Gives (.send t h) s u ∧ u.mem = Memory.writeBytes s.mem (r.first * bankBytes + (c.flows.getD (cFlow w) default).place % (r.count * 2048) * 64) data ∧
            u.flits = s.flits ∧ (u.core h.val).dm = c.dm ∧ (u.core h.val).ag = c.ag.modify (mAg w) (fun x => x.advance (mPm w)) ∧
            (u.core h.val).pc = (c.afterAt c.pc).pc ∧ SameWords s u []) ∧
        (r.kind = 2 → r.count ≠ 0 → old → ∃ u f, Gives (.send t h) s u ∧ u.flits = s.flits ++ [f] ∧ f.held = true ∧ u.mem = s.mem) ∧
        ((r.kind = 1 ∨ r.kind = 3) → s.credits h.val (cFlow w) ≠ some 0 →
          ∃ u f, Gives (.send t h) s u ∧ u.flits = s.flits ++ [f] ∧ f.hall = h.val ∧ f.flow = cFlow w ∧ f.dest = r.dest ∧ f.ring = r.ring ∧
            f.cls = r.cls ∧ f.links = s.outputs h.val (cFlow w) ∧ (f.held = true ↔ old) ∧ f.seq = (c.flows.getD (cFlow w) default).seq ∧
            f.data = (List.range 16).map (fun j => BitVec.ofNat 32 (c.load ((c.gen (mAg w)).element j))) ∧ u.mem = s.mem ∧ SameWords s u []))) ∧
    (s.issuing t h.val 0x29 w → cCount w ≠ 0 → ∀ a, a = (c.g (cG w)).toNat →
      (¬ (r.kind = 2 ∧ windowBase + r.first * bankBytes ≤ a ∧ a + 64 * cCount w ≤ windowBase + (r.first + r.count) * bankBytes) →
        Traps (.fetch t h) s h.val 7) ∧
      (r.kind = 2 → windowBase + r.first * bankBytes ≤ a → a + 64 * cCount w ≤ windowBase + (r.first + r.count) * bankBytes →
        (s.ringFree h.val r.ring < cCount w → Gives (.fetch t h) s ((s.atTime t).modHall h.val fun x => { x with credit := some (cFlow w) })) ∧
        (cCount w ≤ s.ringFree h.val r.ring →
          ∃ u, Gives (.fetch t h) s u ∧ (u.hall h.val).fetches = (s.hall h.val).fetches ++
              (List.range (cCount w)).map (fun i => (r.ring, a - windowBase + 64 * i)) ∧
            (u.core h.val).pc = (c.afterAt c.pc).pc ∧ (u.core h.val).dm = c.dm ∧ u.mem = s.mem ∧ SameWords s u [])))

/-- Arrivals: the oldest flit of a flow that is not held passes the router outputs on its way, and waits where one grants another class first;
past the last it leaves the corridors; with the number expected it enters the next slot of its ring, with another it is suppressed and
counted. FETCH_RESULT brings the oldest fetched flit; ROUTE_FLIT_RELEASE lets held flits go, those to memory into their banks, once none of the
old route is on its way. Without such a flit nothing happens (R105, R354, R358, R361, R362). -/
def Claim.HallArrivals : Prop :=
  ∀ (s : State) (t : Nat) (h : Fin 136) (f : Fin 16), s.halls.length = 136 →
    ((∀ x ∈ s.flits, x.hall = h.val → x.flow = f.val → x.held = true) → Gives (.flitArrival t h f) s (s.atTime t)) ∧
    (∀ x rest, takeFirst (fun x : Flit => x.hall == h.val && x.flow == f.val && !x.held) s.flits = some (x, rest) →
      s.isWedged .corridors = false →
      (x.kind = 1 → s.replaying x.dest = true → Gives (.flitArrival t h f) s (s.atTime t)) ∧
      (∀ o l, x.links = o :: l → (∀ y ∈ s.flits, y.hall = h.val → y.flow = f.val → y.seq = x.seq → y.links = x.links) →
        grantFrom (s.runsAt o) (({ s with flits := rest } : State).classesAt o x.cls) 4 0 ≠ x.cls →
        Gives (.flitArrival t h f) s (s.atTime t)) ∧
      (∀ p, p = ({ s with flits := rest } : State).passOutputs x.cls x.links → p.2 = [] →
        (x.kind ≠ 1 → Gives (.flitArrival t h f) s
          (State.emit { s.atTime t with flits := rest, routers := p.1.routers } (.unitFlit x.dest h.val f.val x.data))) ∧
        (∀ want, want = (assoc? ((s.core x.dest).rings.getD x.ring default).expected (16 * h.val + f.val)).getD 0 →
          x.kind = 1 → s.replaying x.dest = false →
          (x.seq ≠ want → Gives (.flitArrival t h f) s
            (({ s.atTime t with flits := rest, routers := p.1.routers } : State).bump (Reg.HALL.SUPPRESSED.word h.val))) ∧
          (x.seq = want → x.dest < 136 → x.ring < (s.core x.dest).rings.length →
            ∃ u, Gives (.flitArrival t h f) s u ∧ u.flits = rest ∧
              ((u.core x.dest).rings.getD x.ring default).count = ((s.core x.dest).rings.getD x.ring default).count + 1 ∧
              assoc? ((u.core x.dest).rings.getD x.ring default).expected (16 * h.val + f.val) = some ((want + 1) % 2 ^ 32) ∧
              (∀ n, n = s.ringSlots x.dest x.ring → n ≠ 0 →
                (u.core x.dest).dm = Memory.writeBytes (s.core x.dest).dm (ringBase (s.sectionBytes secRoutes) x.dest x.ring +
                  64 * ((((s.core x.dest).rings.getD x.ring default).rd + ((s.core x.dest).rings.getD x.ring default).count) % n))
                  (x.data.map fun w => leBytes 4 w.toNat).flatten) ∧
              u.mem = s.mem ∧ u.regs = s.regs)))) ∧
    ((s.hall h.val).fetches = [] → Gives (.fetchResult t h) s (s.atTime t)) ∧
    (∀ q off rest, (s.hall h.val).fetches = (q, off) :: rest → q < (s.core h.val).rings.length →
      ∃ u, Gives (.fetchResult t h) s u ∧ (u.hall h.val).fetches = rest ∧
        ((u.core h.val).rings.getD q default).count = ((s.core h.val).rings.getD q default).count + 1 ∧ u.mem = s.mem ∧ u.regs = s.regs) ∧
    ((∃ x ∈ s.flits, x.hall = h.val ∧ x.flow = f.val ∧ x.held = false) → Gives (.routeFlitRelease t h f) s (s.atTime t)) ∧
    ((∀ x ∈ s.flits, x.hall = h.val → x.flow = f.val → x.held = true) → ∀ mine, mine = (fun x : Flit => x.hall == h.val && x.flow == f.val) →
      ∃ u, Gives (.routeFlitRelease t h f) s u ∧
        u.flits = (s.flits.filter fun x => !(mine x && x.kind == 2)).map (fun x => if mine x = true then { x with held := false } else x) ∧
        u.regs = s.regs ∧ ((∀ x ∈ s.flits, mine x = true → x.kind ≠ 2) → u.mem = s.mem) ∧
        (∀ x, s.flits.filter (fun x => mine x && x.kind == 2) = [x] → ∀ r, r = s.route h.val f.val → r.count ≠ 0 →
          u.mem = Memory.writeBytes s.mem (r.first * bankBytes + ((s.core h.val).flows.getD f.val default).place % (r.count * 2048) * 64)
            (x.data.map fun w => leBytes 4 w.toNat).flatten))

/-- Router outputs and stair ports grant in strict class order; a class that has waited through 31 grants in a row to class 0 comes before it
once, the highest such class first, after which class 0 comes first again. What is granted waits (R362, R442). -/
def Claim.ClassGrants : Prop :=
  ∀ runs waits : List Nat, (∀ k ∈ waits, k < 4) →
    (waits ≠ [] → grantFrom runs waits 4 0 ∈ waits) ∧
    (0 ∈ waits → (∀ k ∈ waits, k = 0 ∨ runOf runs 0 k < 31) → grantFrom runs waits 4 0 = 0) ∧
    (0 ∈ waits → ∀ g ∈ waits, 0 < g → 31 ≤ runOf runs 0 g → (∀ k ∈ waits, 0 < k → k < g → runOf runs 0 k < 31) →
      (∀ k ∈ waits, g < k → runOf runs g k < 31) →
      grantFrom runs waits 4 0 = g ∧
        ∀ next : List Nat, (∀ k ∈ next, k < 4) → 0 ∈ next → grantFrom (runsAfter runs waits g) next 4 0 = 0) ∧
    (0 ∈ waits → ∀ k ∈ waits, 0 < k → runOf (runsAfter runs waits 0) 0 k = min 31 (runOf runs 0 k + 1)) ∧
    (0 ∈ waits → ∀ k, 0 < k → k < 4 → k ∉ waits → runOf (runsAfter runs waits 0) 0 k = 0)

/-- Events: EVENT_ACCEPT takes the lowest pending enabled event of a hall that may accept one, saving the PC in EPC; DOORBELL, HALL_TIMER at the
timer's time and MBOX_IN_WRITE raise theirs in a hall with a program; DM_DATA is written only in NO_PROGRAM and TRAP and advances DM_ADDR
(R342 to R348, R368). -/
def Claim.HallEvents : Prop :=
  ∀ (s : State) (t : Nat) (h : Fin 136) (ch : Channel) (v : Word) (x : Hall), x = s.hall h.val → s.halls.length = 136 →
    (((s.atTime t).hallLive h.val = false ∨ x.waiting ≠ none ∨ x.core.shadow = true ∨ x.core.pending &&& x.core.enabled = 0) →
      Gives (.eventAccept t h) s (s.atTime t)) ∧
    (∀ e, e < 16 → (s.atTime t).hallLive h.val = true → x.waiting = none → x.core.shadow = false →
      (x.core.pending &&& x.core.enabled).testBit e = true → (∀ d, d < e → (x.core.pending &&& x.core.enabled).testBit d = false) →
      ∃ u, Gives (.eventAccept t h) s u ∧ (u.core h.val).pc = e ∧ (u.core h.val).epc = x.core.pc ∧ (u.core h.val).evcause = e ∧
        (u.core h.val).shadow = true ∧ ((u.core h.val).pending).testBit e = false ∧ (u.core h.val).primary = x.core.primary ∧
        (u.core h.val).dm = x.core.dm ∧ u.regs = s.regs ∧ u.mem = s.mem) ∧
    (x.program = none → Gives (.doorbell t h) s (s.atTime t) ∧ Gives (.hallTimer t h) s (s.atTime t)) ∧
    (x.program ≠ none →
      (∃ u, Gives (.doorbell t h) s u ∧ ((u.core h.val).pending).testBit evDoorbell = true ∧ u.regs = s.regs ∧ u.mem = s.mem) ∧
      (s.clock.started = true → timeLo (s.atTime t).arrayNow = x.core.timer →
        ∃ u, Gives (.hallTimer t h) s u ∧ ((u.core h.val).pending).testBit evTimer = true ∧ u.regs = s.regs ∧ u.mem = s.mem) ∧
      (s.clock.started = false ∨ timeLo (s.atTime t).arrayNow ≠ x.core.timer → Gives (.hallTimer t h) s (s.atTime t))) ∧
    (s.reaches t ch (Reg.HALL.MBOX_IN.word h.val).addr →
      ∃ u, Gives (.mboxInWrite t ch h v) s u ∧ u.word (Reg.HALL.MBOX_IN.word h.val).addr = v ∧
        (x.program ≠ none → ((u.core h.val).pending).testBit evMbox = true) ∧ (x.program = none → u.halls = s.halls) ∧
        SameWords s u [(Reg.HALL.MBOX_IN.word h.val).addr] ∧ u.mem = s.mem) ∧
    (s.reaches t ch (Reg.HALL.DM_DATA.word h.val).addr → ∀ a, a = s.get (Reg.HALL.DM_ADDR.addr h.val) →
      (∃ u, Gives (.dmDataAccess t ch h none) s u ∧ u.out = s.out ++ [.readData ch.val (Reg.HALL.DM_DATA.word h.val).addr (s.dmWord h.val)] ∧
        u.get (Reg.HALL.DM_ADDR.addr h.val) = (a + 1) % 2 ^ 14 ∧ u.halls = s.halls) ∧
      (x.state = hallNoProgram ∨ x.state = hallTrapped →
        ∃ u, Gives (.dmDataAccess t ch h (some v)) s u ∧ (u.core h.val).dm = Memory.writeBytes x.core.dm (4 * a) (leBytes 4 v.toNat) ∧
          u.get (Reg.HALL.DM_ADDR.addr h.val) = (a + 1) % 2 ^ 14) ∧
      (x.state ≠ hallNoProgram → x.state ≠ hallTrapped →
        ∃ u, Gives (.dmDataAccess t ch h (some v)) s u ∧ u.halls = s.halls ∧ u.get (Reg.HALL.STATUS.dm_write_lost h.val) = 1 ∧
          u.get (Reg.HALL.DM_ADDR.addr h.val) = (a + 1) % 2 ^ 14))
/-! ### Fronthaul (R369 to R419) -/

/-- Bring-up: a signal takes a port in LISTEN to TRAIN (once 100 ms have passed since its last timeout, FHL locked), trained lanes that all reach
the figure of merit take it to ALIGN, alignment to UP; TRAIN and ALIGN fail after 10 ms back to LISTEN, counted. Each acts in its own state only
(R373, R374, R621). -/
def Claim.FhBringUp : Prop :=
  ∀ (s : State) (t : Nat) (n : Fin 8) (foms : List Nat), s.fh.ports.length = 8 →
    ((s.fhPortState n.val ≠ fhListen ∨ max s.now t < (s.fhPort n.val).retryAt ∨ (s.get Reg.CLOCK.ISLAND_STATUS.locked).testBit 4 = false →
        Gives (.portSignalDetect t n) s (s.atTime t)) ∧
      (s.fhPortState n.val = fhListen → (s.fhPort n.val).retryAt ≤ max s.now t → (s.get Reg.CLOCK.ISLAND_STATUS.locked).testBit 4 = true →
        ∃ u, Gives (.portSignalDetect t n) s u ∧ u.fhPortState n.val = fhTrain ∧ (u.fhPort n.val).since = max s.now t ∧
          SameWords s u [(Reg.FRONTHAUL.PORT_STATUS.word n.val).addr])) ∧
    ((s.fhPortState n.val ≠ fhTrain → Gives (.portTrainDone t n foms) s (s.atTime t)) ∧
      (s.fhPortState n.val = fhTrain → s.fhPorts ≤ 8 → n.val < s.fhPorts → foms.length = (s.fhLanes n.val).length → (∀ f ∈ foms, f < 256) →
        ∃ u, Gives (.portTrainDone t n foms) s u ∧
          u.fhPortState n.val = (if ∀ f ∈ foms, s.get (Reg.FRONTHAUL.PORT_CTL.fom_min n.val) ≤ f then fhAlign else fhTrain) ∧
          (∀ e ∈ (s.fhLanes n.val).zip foms, u.get (Reg.FRONTHAUL.LANE_RX.fom e.1) = e.2 ∧ u.get (Reg.FRONTHAUL.LANE_RX.fom_committed e.1) = e.2))) ∧
    ((s.fhPortState n.val ≠ fhAlign → Gives (.portAlignDone t n) s (s.atTime t)) ∧
      (s.fhPortState n.val = fhAlign →
        ∃ u, Gives (.portAlignDone t n) s u ∧ u.fhPortState n.val = fhUp ∧ (u.fhPort n.val).queue = [] ∧
          (∀ e, e < 64 → s.ptState e ≠ ptEmpty → s.get (Reg.FRONTHAUL.PT_STATUS.unreachable e) = 1 →
            (s.get (Reg.FRONTHAUL.PT_CTL.home e) = n.val ∨ s.get (Reg.FRONTHAUL.PT_CTL.alt e) = n.val) →
            u.get (Reg.FRONTHAUL.PT_STATUS.unreachable e) = 0 ∧ u.get (Reg.FRONTHAUL.PT_STATUS.port e) = n.val))) ∧
    (((s.fhPortState n.val ≠ fhTrain ∧ s.fhPortState n.val ≠ fhAlign) ∨ max s.now t < (s.fhPort n.val).since + ticksOfMs 10 →
        Gives (.portTrainTimeout t n) s (s.atTime t)) ∧
      (s.fhPortState n.val = fhTrain ∨ s.fhPortState n.val = fhAlign → (s.fhPort n.val).since + ticksOfMs 10 ≤ max s.now t →
        ∃ u, Gives (.portTrainTimeout t n) s u ∧ u.fhPortState n.val = fhListen ∧ (u.fhPort n.val).retryAt = max s.now t + ticksOfMs 100 ∧
          u.get (Reg.FRONTHAUL.PORT_STATUS.train_fail n.val) = (s.get (Reg.FRONTHAUL.PORT_STATUS.train_fail n.val) + 1) % 256 ∧
          ((s.fhPort n.val).noticed = false → u.get Reg.HOST.INT_STATUS.topology = 1))) ∧
    (s.fhPortState n.val = fhListen → (s.fhPort n.val).retryAt ≤ max s.now t →
      ∃ u, Gives (.portRetry t n) s u ∧ (u.fhPort n.val).retryAt = 0 ∧ u.regs = s.regs) ∧
    (s.fhPortState n.val ≠ fhListen ∨ max s.now t < (s.fhPort n.val).retryAt → Gives (.portRetry t n) s (s.atTime t))

/-- A link fault of a port in UP counts, shows its cause and takes it to LISTEN; a flow whose other port is UP moves to it, and a partner with
none is unreachable; a port not in UP has none. FLOW_RETURN_HOME moves a flow back once its home port has been UP for the hold time and nothing
of it is on its way; UL_STALE_DISCARD drops frames unsent for 50 µs (R375, R402 to R407). -/
def Claim.FhFailover : Prop :=
  ∀ (s : State) (t : Nat) (n : Fin 8) (e : Fin 64) (cause : Fin 7), s.fh.ports.length = 8 →
    (cause = 0 ∨ s.fhPortState n.val ≠ fhUp → Gives (.linkFault t n cause) s (s.atTime t)) ∧
    (cause ≠ 0 → cause ≠ 6 → s.fhPortState n.val = fhUp →
      ∃ u, Gives (.linkFault t n cause) s u ∧ u.fhPortState n.val = fhListen ∧ u.get (Reg.FRONTHAUL.PORT_STATUS.fault_cause n.val) = cause.val ∧
        u.get (Reg.FRONTHAUL.PORT_STATUS.link_faults n.val) = (s.get (Reg.FRONTHAUL.PORT_STATUS.link_faults n.val) + 1) % 256 ∧
        (u.fhPort n.val).journal = [] ∧
        (u.log.head?.map fun r => (r.kind, r.cls, r.unit, r.inst, r.cause)) = some (1, 0x0A, unitFronthaul, n.val, cause.val) ∧
        (s.ptState e.val ≠ ptEmpty → s.get (Reg.FRONTHAUL.PT_STATUS.port e.val) = n.val →
          ∀ home alt other, home = s.get (Reg.FRONTHAUL.PT_CTL.home e.val) → alt = s.get (Reg.FRONTHAUL.PT_CTL.alt e.val) →
            other = (if n.val = home then alt else home) →
            (other ≠ n.val → s.fhUpOn other = true → u.get (Reg.FRONTHAUL.PT_STATUS.port e.val) = other) ∧
            (other = n.val ∨ s.fhUpOn other = false → u.get (Reg.FRONTHAUL.PT_STATUS.unreachable e.val) = 1)) ∧
        (s.get (Reg.FRONTHAUL.PT_STATUS.port e.val) ≠ n.val →
          u.get (Reg.FRONTHAUL.PT_STATUS.port e.val) = s.get (Reg.FRONTHAUL.PT_STATUS.port e.val) ∧
          u.get (Reg.FRONTHAUL.PT_STATUS.unreachable e.val) = s.get (Reg.FRONTHAUL.PT_STATUS.unreachable e.val))) ∧
    (∀ home port, home = s.get (Reg.FRONTHAUL.PT_CTL.home e.val) → port = s.get (Reg.FRONTHAUL.PT_STATUS.port e.val) →
      (s.ptState e.val ≠ ptEmpty → port ≠ home → s.fhPortState home = fhUp →
        (s.fhPort home).since + ticksOfMs (10 * s.get Reg.FRONTHAUL.DH_CTL.hold) ≤ max s.now t → (s.fhPort port).queue = [] → s.gates = [] →
        ∃ u, Gives (.flowReturnHome t e) s u ∧ u.get (Reg.FRONTHAUL.PT_STATUS.port e.val) = home ∧ u.mem = s.mem) ∧
      (s.ptState e.val = ptEmpty ∨ port = home ∨ s.fhPortState home ≠ fhUp → (s.fhPort port).queue = [] →
        ∃ u, Gives (.flowReturnHome t e) s u ∧ SameWords s u [] ∧ u.out = s.out ∧ u.mem = s.mem)) ∧
    (∃ u, Gives (.ulStaleDiscard t n) s u ∧ (∀ f ∈ (u.fhPort n.val).queue, max s.now t < f.release + ticksOfUs 50) ∧ u.mem = s.mem ∧
      ((s.fhPort n.val).queue = [] → SameWords s u [] ∧ u.out = s.out))

/-- FRAME_RECEIVE on a port that is not UP does nothing; a frame that fails the length or check sequence is counted there and dropped, one of a
form that R378 does not list likewise; PT_CONFIRM makes a PROVISIONAL partner ACTIVE with valid set, and does nothing else (R378, R379, R396). -/
def Claim.FhFrames : Prop :=
  ∀ (s : State) (t : Nat) (n : Fin 8) (f : Frame) (ch : Channel) (e : Fin 64),
    (s.fhPortState n.val ≠ fhUp → Gives (.frameReceive t n f) s (s.atTime t)) ∧
    (s.fhPortState n.val = fhUp → s.power = powerActive →
      ((f.fcsOk = false ∨ f.length < 64 ∨ s.get Reg.FRONTHAUL.MODE.mtu < f.length) →
        Gives (.frameReceive t n f) s ((s.atTime t).bump (Reg.FRONTHAUL.PORT_DROP_FCS.word n.val))) ∧
      (f.fcsOk = true → 64 ≤ f.length → f.length ≤ s.get Reg.FRONTHAUL.MODE.mtu →
        (s.formOk n.val f = false → Gives (.frameReceive t n f) s ((s.atTime t).bump (Reg.FRONTHAUL.PORT_DROP_FORM.word n.val))) ∧
        (s.formOk n.val f = true → f.body = .other → Gives (.frameReceive t n f) s (s.atTime t)) ∧
        (∀ m p, s.formOk n.val f = true → f.body = .ecpri 1 [m] → m.type = 0 → m.ebit = true → m.sub = 0 →
          (s.ptUsed.find? fun k => s.srcMatches k f && s.ptHas k m.eaxc) = some p → p < 64 → s.ptState p = ptActive →
          Gives (.frameReceive t n f) s ((s.atTime t).modPartner p fun x => { x with last := max s.now t })) ∧
        (∀ m, s.formOk n.val f = true → f.body = .ecpri 1 [m] → m.type = 0 → m.ebit = true → m.sub = 0 → s.ptUsed = [] →
          s.mayEnrol f.vids m.eaxc = false →
          Gives (.frameReceive t n f) s ((s.atTime t).bump (Reg.FRONTHAUL.PORT_DROP_PARTNER.word n.val))))) ∧
    (s.reaches t ch (Reg.FRONTHAUL.PT_CTL.word e.val).addr →
      (s.ptState e.val ≠ ptProvisional → Gives (.ptConfirm t ch e) s (s.atTime t)) ∧
      (s.ptState e.val = ptProvisional → ∃ u, Gives (.ptConfirm t ch e) s u ∧ u.ptState e.val = ptActive ∧
        u.get (Reg.FRONTHAUL.PT_CTL.valid e.val) = 1 ∧
        SameWords s u [(Reg.FRONTHAUL.PT_CTL.word e.val).addr, (Reg.FRONTHAUL.PT_STATUS.word e.val).addr] ∧ u.mem = s.mem))

/-- C-plane messages pass their window in the order of their sequence numbers: the one expected is applied at once and those it was waited for
after it, one up to 31 ahead is held, one up to 127 ahead skips the gap, one further ahead is a duplicate; GAP_SKIP skips the gap of a window
whose earliest held message is 100 µs old. No window is touched for an eAxC that the partner does not have (R399, R400). -/
def Claim.FhCplane : Prop :=
  ∀ (s : State) (t : Nat) (n : Fin 64) (eaxc seq : Nat) (l : List CSection) (w : Window), w = s.window n.val eaxc → s.fh.partners.length = 64 →
    (s.ptState n.val = ptEmpty ∨ s.ptHas n.val eaxc = false → Gives (.cplaneMessage t n eaxc seq l) s (s.atTime t)) ∧
    (s.ptState n.val ≠ ptEmpty → s.ptHas n.val eaxc = true → ∀ s' w', s' = (s.atTime t).ptAccept n.val → w' = s'.window n.val eaxc →
      (∀ d, d = (seq % 256 + 256 - w'.expected.getD (seq % 256)) % 256 →
        (d = 0 → Gives (.cplaneMessage t n eaxc seq l) s
          (((s'.setWindow n.val { w' with expected := some ((seq % 256 + 1) % 256) }).applySections n.val eaxc (max s.now t) l).drainWindow n.val eaxc 32)) ∧
        (0 < d → d < 32 → (∀ h ∈ w'.held, h.seq ≠ seq % 256) →
          ∃ u, Gives (.cplaneMessage t n eaxc seq l) s u ∧
            u.window n.val eaxc = { w' with held := w'.held ++ [{ seq := seq % 256, at_ := max s.now t, sections := l }] } ∧
            u.regs = s'.regs ∧ u.fh.force = s.fh.force) ∧
        (0 < d → d < 32 → (∃ h ∈ w'.held, h.seq = seq % 256) →
          Gives (.cplaneMessage t n eaxc seq l) s (s'.addTo (Reg.FRONTHAUL.PCNT.word n.val PCnt.cDup.idx) 1)) ∧
        (32 ≤ d → d < 128 → ∀ v, v = s'.skipTo n.val eaxc (seq % 256) 256 →
          Gives (.cplaneMessage t n eaxc seq l) s
            (((v.setWindow n.val { v.window n.val eaxc with expected := some ((seq % 256 + 1) % 256) }).applySections n.val eaxc (max s.now t) l).drainWindow
              n.val eaxc 32)) ∧
        (128 ≤ d → Gives (.cplaneMessage t n eaxc seq l) s (s'.addTo (Reg.FRONTHAUL.PCNT.word n.val PCnt.cDup.idx) 1)))) ∧
    (w.held = [] → Gives (.gapSkip t n eaxc) s (s.atTime t)) ∧
    (∀ h, w.held = [h] →
      (max s.now t < h.at_ + ticksOfUs 100 → Gives (.gapSkip t n eaxc) s (s.atTime t)) ∧
      (h.at_ + ticksOfUs 100 ≤ max s.now t → ∀ e, w.expected = some e → h.seq = (e + 1) % 256 → e < 256 →
        Gives (.gapSkip t n eaxc) s
          (((((s.atTime t).setWindow n.val { w with expected := some ((e + 1) % 256) }).addTo (Reg.FRONTHAUL.PCNT.word n.val PCnt.cGap.idx) 1).drainWindow
            n.val eaxc 32))))

/-- A section that R386 refuses is counted with its cause and has no other effect; a downlink U-plane section without cover, of another
compression, of data already in hand or after its deadline is counted and discarded, a late one once for its symbol, and one in time waits as
data of its symbol. At a landing that is not the ingress of an array-joint carrier no section takes the data (the model's choice, log entry 70)
(R386, R388, R389). -/
def Claim.FhUplane : Prop :=
  ∀ (s : State) (t : Nat) (n : Fin 64) (eaxc : Nat) (x : CSection) (v : USection) (c m slot : Nat) (prbs : List Nat) (s' : State),
    c = s.eaxcCarrier eaxc → s' = (s.atTime t).ptAccept n.val → prbs = (List.range v.prbs.length).map (fun i => v.startPrb + i) →
    (s.sectionCause eaxc x ≠ 0 →
      s.applySection n.val eaxc t x = (s.pcount n .cRefused 1).put (Reg.FRONTHAUL.PT_STATUS.last_cause n.val) (s.sectionCause eaxc x)) ∧
    (s.ptState n.val = ptEmpty ∨ s.ptHas n.val eaxc = false → Gives (.uplaneSection t n eaxc v) s (s.atTime t)) ∧
    (s.ptState n.val ≠ ptEmpty → s.ptHas n.val eaxc = true →
      (s'.namedSlot (s.form c) v.frame v.subframe v.slot = none ∨ s.carActive c = false ∨ ((s.form c).joint = true ∧ s.isIngress c = false) →
        Gives (.uplaneSection t n eaxc v) s (s'.addTo (Reg.FRONTHAUL.PCNT.word n.val PCnt.uNoCplane.idx) 1)) ∧
      (s'.namedSlot (s.form c) v.frame v.subframe v.slot = some slot → m = slot * (s.form c).symbols + v.sym → s.carActive c = true →
        ((s.form c).joint = false ∨ s.isIngress c = true) →
        ((∃ q ∈ prbs, s.governs eaxc true m q = none) →
          Gives (.uplaneSection t n eaxc v) s (s'.addTo (Reg.FRONTHAUL.PCNT.word n.val PCnt.uNoCplane.idx) 1)) ∧
        ((∀ q ∈ prbs, ∃ f, s.governs eaxc true m q = some f) →
          ((v.compMeth ≠ 1 ∨ ∃ q ∈ prbs, ∃ f, s.governs eaxc true m q = some f ∧ f.width ≠ v.width) →
            Gives (.uplaneSection t n eaxc v) s (s'.addTo (Reg.FRONTHAUL.PCNT.word n.val PCnt.uComp.idx) 1)) ∧
          (v.compMeth = 1 → (∀ q ∈ prbs, ∀ f, s.governs eaxc true m q = some f → f.width = v.width) →
            ((∃ d ∈ s.fh.data, d.carrier = c ∧ d.symbol = m ∧ d.layer = s.eaxcPort eaxc ∧ d.prb ∈ prbs) →
              Gives (.uplaneSection t n eaxc v) s (s'.addTo (Reg.FRONTHAUL.PCNT.word n.val PCnt.uDup.idx) 1)) ∧
            ((∀ d ∈ s.fh.data, ¬ (d.carrier = c ∧ d.symbol = m ∧ d.layer = s.eaxcPort eaxc ∧ d.prb ∈ prbs)) →
              (s.dlDeadline c m < (s.atTime t).arrayNow → prbs ≠ [] →
                ∀ f key, (∀ q ∈ prbs, s.governs eaxc true m q = some f) → f.entry < 64 → key = (m, f.entry, f.eaxc, f.sectionId) →
                (key ∈ s.fh.lateOf → Gives (.uplaneSection t n eaxc v) s s') ∧
                (key ∉ s.fh.lateOf →
                  Gives (.uplaneSection t n eaxc v) s (({ s' with fh := { s'.fh with lateOf := s.fh.lateOf ++ [key] } } : State).addTo
                    (Reg.FRONTHAUL.PCNT.word f.entry PCnt.uLate.idx) 1))) ∧
              ((s.atTime t).arrayNow ≤ s.dlDeadline c m → (s.form c).joint = false →
                ∃ u, Gives (.uplaneSection t n eaxc v) s u ∧ u.regs = s'.regs ∧
                  u.fh.data = s.fh.data ++ (prbs.zip v.prbs).map fun e =>
                    { carrier := c, symbol := m, layer := s.eaxcPort eaxc, prb := e.1, exp := ((e.2.1 % 16 : Nat) : Int), vals := e.2.2 }))))))

/-- Answers of a port in UP: a delay measurement by its action, a Request with Follow_Up once the Follow_Up of its ID has come, each with the
compensation of R413 (free); an ARP request and an echo request for the part's own address, a neighbour
solicitation for its IPv6 address; a PTP message of the domain is heard. On a port not in UP, or for another address, nothing (R410 to
R414). -/
def Claim.FhAnswers : Prop :=
  ∀ (s : State) (t : Nat) (n : Fin 8) (action id seq domain : Nat) (stamp : Int) (mac ip target data : List Byte) (body : PtpBody),
    (s.fhPortState n.val ≠ fhUp →
      ∀ i ∈ [Instr.delayMeasurement t n action id stamp, .arpRequest t n mac ip target, .neighbourSolicitation t n mac ip target,
        .echoRequest t n ip target id seq data, .ptpMessage t n domain body], Gives i s (s.atTime t)) ∧
    (s.fhPortState n.val = fhUp →
      (∀ p ∈ [(0, 2), (3, 0), (4, 1)], action = p.1 →
        Gives (.delayMeasurement t n action id stamp) s ((s.atTime t).emit (.delay n.val p.2 id stamp (Config.compensation n.val)))) ∧
      (action = 1 → ∃ u, Gives (.delayMeasurement t n action id stamp) s u ∧ (n.val, id, stamp) ∈ u.fh.asked ∧
        (∀ a ∈ u.fh.asked, a.1 = n.val → a.2.1 = id → a.2.2 = stamp) ∧ u.out = s.out ∧ u.regs = s.regs) ∧
      (action = 5 → (∀ a ∈ s.fh.asked, ¬ (a.1 = n.val ∧ a.2.1 = id)) → Gives (.delayMeasurement t n action id stamp) s (s.atTime t)) ∧
      (∀ x, action = 5 → (n.val, id, x) ∈ s.fh.asked → (∀ a ∈ s.fh.asked, a.1 = n.val → a.2.1 = id → a.2.2 = x) →
        ∃ u, Gives (.delayMeasurement t n action id stamp) s u ∧ u.out = s.out ++ [.delay n.val 2 id x (Config.compensation n.val)] ∧
          (∀ a ∈ u.fh.asked, ¬ (a.1 = n.val ∧ a.2.1 = id)) ∧ u.regs = s.regs) ∧
      (action = 2 ∨ 6 ≤ action → Gives (.delayMeasurement t n action id stamp) s (s.atTime t)) ∧
      (s.ownIp4 target = true →
        Gives (.arpRequest t n mac ip target) s ((s.atTime t).emit (.arpReply n.val mac ip target)) ∧
        Gives (.echoRequest t n ip target id seq data) s ((s.atTime t).emit (.echoReply n.val target ip id seq data))) ∧
      (s.ownIp6 target = true → Gives (.neighbourSolicitation t n mac ip target) s ((s.atTime t).emit (.advertise n.val mac ip target))) ∧
      (s.ownIp4 target = false → Gives (.arpRequest t n mac ip target) s (s.atTime t) ∧
        (s.ownIp6 target = false → Gives (.echoRequest t n ip target id seq data) s (s.atTime t))) ∧
      (s.ownIp6 target = false → Gives (.neighbourSolicitation t n mac ip target) s (s.atTime t)) ∧
      (s.get Reg.FRONTHAUL.PTP_CTL.mode = 0 ∨ domain ≠ s.get Reg.FRONTHAUL.PTP_CTL.domain → Gives (.ptpMessage t n domain body) s (s.atTime t)) ∧
      (∀ t1 t2 x, s.get Reg.FRONTHAUL.PTP_CTL.mode ≠ 0 → domain = s.get Reg.FRONTHAUL.PTP_CTL.domain → body = .sync t1 t2 →
        s.fh.masters.getD n.val none = some x → s.fh.masters.length = 8 →
        ∃ u, Gives (.ptpMessage t n domain body) s u ∧ u.fh.masters.getD n.val none = some { x with sync := some (t1, t2) } ∧
          u.regs = s.regs ∧ u.mem = s.mem))

/-- Lanes: an adaptation commit shows the figure of merit; unless the lane is frozen (the model's reading of freeze, log entry 83) it raises or
keeps the committed one by R417, and rolls back a fall of more than 12. In TEST an error is injected, and a checker that hears a pattern counts
its bits, and the errors from the link or the pads, in near-end parallel loopback those that the lane injects itself; elsewhere a commit and a
checker do nothing and an injection is refused. A loopback returns the lane's own output, its own data or, at the far end, what it receives
(R417 to R419). -/
def Claim.FhLanes : Prop :=
  ∀ (s : State) (t : Nat) (ch : Channel) (lane : Fin 8) (fom bits errors : Nat) (st old found : Nat), st = s.fhPortState (s.fhPortOf lane.val) →
    old = s.get (Reg.FRONTHAUL.LANE_RX.fom_committed lane.val) → fom < 256 → s.fh.injected.length = 8 → s.fh.laneBack.length = 8 →
    (st ≠ fhTrain ∧ st ≠ fhUp → Gives (.fhAdaptCommit t lane fom) s (s.atTime t)) ∧
    (st = fhTrain ∨ st = fhUp →
      (s.get (Reg.FRONTHAUL.LANE_RX.freeze lane.val) = 1 →
        Gives (.fhAdaptCommit t lane fom) s ((s.atTime t).put (Reg.FRONTHAUL.LANE_RX.fom lane.val) fom)) ∧
      (s.get (Reg.FRONTHAUL.LANE_RX.freeze lane.val) = 0 →
        ∃ u, Gives (.fhAdaptCommit t lane fom) s u ∧ u.get (Reg.FRONTHAUL.LANE_RX.fom lane.val) = fom ∧
          u.get (Reg.FRONTHAUL.LANE_RX.fom_committed lane.val) = (if old ≤ fom + 4 then fom else old) ∧
          u.get (Reg.FRONTHAUL.LANE_RX.rollback lane.val) =
            (s.get (Reg.FRONTHAUL.LANE_RX.rollback lane.val) + (if fom + 12 < old then 1 else 0)) % 256 ∧
          u.fh.laneBack = (if fom + 12 < old then s.fh.laneBack.set lane.val (max s.now t) else s.fh.laneBack) ∧
          SameWords s u [(Reg.FRONTHAUL.LANE_RX.word lane.val).addr])) ∧
    (s.reaches t ch (Reg.FRONTHAUL.LANE_TEST.word lane.val).addr →
      (st = fhTest → ∃ u, Gives (.injOne t ch lane) s u ∧ u.out = s.out ++ [.injectOne lane.val] ∧ u.regs = s.regs ∧
        u.fh.injected.getD lane.val 0 = s.fh.injected.getD lane.val 0 + 1) ∧
      (st ≠ fhTest → Gives (.injOne t ch lane) s ((s.atTime t).put (Reg.FRONTHAUL.LANE_TEST.refused lane.val) 1))) ∧
    (st ≠ fhTest ∨ s.get (Reg.FRONTHAUL.LANE_TEST.chk_en lane.val) = 0 ∨ s.hearsPattern lane.val = false →
      Gives (.checkerLock t lane bits errors) s (s.atTime t)) ∧
    (∀ mode, mode = s.get (Reg.FRONTHAUL.LANE_TEST.loopback lane.val) →
      s.laneHears lane.val = (if mode = 1 then .output else if mode = 2 then .parallel else .link) ∧
      s.laneDrives lane.val = (if mode = 3 then .link else .output)) ∧
    (st = fhTest → s.get (Reg.FRONTHAUL.LANE_TEST.chk_en lane.val) = 1 → s.hearsPattern lane.val = true →
      found = (if s.get (Reg.FRONTHAUL.LANE_TEST.loopback lane.val) = 2 then s.fh.injected.getD lane.val 0 +
        (if s.get (Reg.FRONTHAUL.LANE_TEST.inj_rate lane.val) = 0 then 0 else bits / 2 ^ s.get (Reg.FRONTHAUL.LANE_TEST.inj_rate lane.val)) else errors) →
      ∃ u, Gives (.checkerLock t lane bits errors) s u ∧ u.get (Reg.FRONTHAUL.LANE_TEST.chk_lock lane.val) = 1 ∧
        u.get (Reg.FRONTHAUL.LANE_BITS_HI.word lane.val) * 2 ^ 32 + u.get (Reg.FRONTHAUL.LANE_BITS_LO.word lane.val) =
          (s.get (Reg.FRONTHAUL.LANE_BITS_HI.word lane.val) * 2 ^ 32 + s.get (Reg.FRONTHAUL.LANE_BITS_LO.word lane.val) + bits) % 2 ^ 64 ∧
        u.get (Reg.FRONTHAUL.LANE_ERR_HI.word lane.val) * 2 ^ 32 + u.get (Reg.FRONTHAUL.LANE_ERR_LO.word lane.val) =
          (s.get (Reg.FRONTHAUL.LANE_ERR_HI.word lane.val) * 2 ^ 32 + s.get (Reg.FRONTHAUL.LANE_ERR_LO.word lane.val) + found) % 2 ^ 64 ∧
        u.fh.injected.getD lane.val 0 = 0 ∧ u.mem = s.mem ∧ u.out = s.out)

/-! ### Stair flights (R427 to R441, R453, R454, R463 to R469) -/

/-- Bring-up of a flight: a burst heard in LISTEN leads to DETECT, bursts go out when due, ECHO lasts 1 ms for each end, FAR_EQ goes on with the
lanes that qualify and whose codewords then begin, FULL ends in UP unless split mode cannot carry the plan's layers; a phase that lasts 10 ms
fails to HOLDOFF, counted, and HOLDOFF ends after 100 ms in LISTEN. Each acts in its own state only (R422, R435 to R438, R736). -/
def Claim.StairTraining : Prop :=
  ∀ (s : State) (t : Nat) (n : Fin 4) (b : Burst) (foms : List Nat) (delays : List Int), s.stair.ports.length = 4 → s.stair.lanes.length = 16 →
    (s.sState n.val = spListen → ∃ u, Gives (.detectBurst t n b) s u ∧ u.sState n.val = spDetect ∧ (u.sPort n.val).far = some b ∧
      (u.sPort n.val).since = max s.now t ∧ (u.sPort n.val).acked = false ∧ SameWords s u [(Reg.STAIR.PORT_STATUS.word n.val).addr]) ∧
    ((s.sState n.val = spDisabled ∨ s.sState n.val = spEcho ∨ s.sState n.val = spFarEq ∨ s.sState n.val = spFull ∨
        s.sState n.val = spHoldoff ∨ s.sState n.val = spWaking) → Gives (.detectBurst t n b) s (s.atTime t)) ∧
    (s.sState n.val = spDetect → b.ack = false ∨ (s.sPort n.val).acked = false →
      Gives (.detectBurst t n b) s ((s.atTime t).modSPort n.val fun x => { x with far := some b })) ∧
    (s.sState n.val = spDetect → b.ack = true → (s.sPort n.val).acked = true → b.tag = s.get Reg.STAIR.ARRAY_TAG.word →
      b.split = (s.sPort n.val).split → b.landing ≠ s.get Reg.STAIR.STATUS.landing →
      ∃ u, Gives (.detectBurst t n b) s u ∧ u.sState n.val = (if b.split then spFarEq else spEcho) ∧
        ∀ i ∈ portLanes n.val, u.laneState i = slTraining) ∧
    (s.sState n.val ≠ spListen → s.sState n.val ≠ spDetect → Gives (.detectBurstSend t n) s (s.atTime t)) ∧
    (s.sState n.val = spDetect → (s.sPort n.val).burstAt ≤ max s.now t → (s.sPort n.val).far = none →
      ∃ u, Gives (.detectBurstSend t n) s u ∧ u.regs = s.regs ∧ (u.sPort n.val).burstAt = (s.sPort n.val).burstAt + ticksOfUs 20 ∧
        u.out = s.out ++ [.detectBurst n.val { landing := s.get Reg.STAIR.STATUS.landing, port := n.val, split := (s.sPort n.val).split,
                                               tag := s.get Reg.STAIR.ARRAY_TAG.word, ack := false }]) ∧
    (s.sState n.val ≠ spEcho ∨ max s.now t < (s.sPort n.val).since + ticksOfMs ((s.sPort n.val).echoes + 1) →
      Gives (.echoPhaseEnd t n) s (s.atTime t)) ∧
    (s.sState n.val = spEcho → (s.sPort n.val).since + ticksOfMs ((s.sPort n.val).echoes + 1) ≤ max s.now t →
      ∃ u, Gives (.echoPhaseEnd t n) s u ∧ (u.sPort n.val).echoes = (s.sPort n.val).echoes + 1 ∧
        u.sState n.val = (if (s.sPort n.val).echoes = 1 then spFarEq else spEcho)) ∧
    (s.sState n.val ≠ spFarEq → Gives (.farEqDone t n foms) s (s.atTime t)) ∧
    (s.sState n.val = spFarEq → foms.length = 4 → (∀ f ∈ foms, s.get (Reg.STAIR.PORT_CTL.fom_min n.val) ≤ f ∧ f < 256) →
      ∃ u, Gives (.farEqDone t n foms) s u ∧ u.sState n.val = spFull ∧
        (∀ i ∈ portLanes n.val, s.transmits i = true → (u.sLane i).startAt = some (max s.now t) ∧ (u.sLane i).sent = 0) ∧
        ∀ e ∈ (portLanes n.val).zip foms, u.get (Reg.STAIR.LANE_ADAPT.fom e.1) = e.2 ∧ u.get (Reg.STAIR.LANE_ADAPT.fom_committed e.1) = e.2) ∧
    (s.sState n.val = spFarEq → foms.length = 4 → (s.sPort n.val).split = false → (∀ f ∈ foms, f < s.get (Reg.STAIR.PORT_CTL.fom_min n.val)) →
      ∃ u, Gives (.farEqDone t n foms) s u ∧ u.sState n.val = spFarEq) ∧
    (s.sState n.val ≠ spFull → Gives (.fullDone t n delays) s (s.atTime t)) ∧
    (s.sState n.val = spFull → (s.sPort n.val).split = false →
      ∃ u, Gives (.fullDone t n delays) s u ∧ u.sState n.val = spUp ∧ (u.sPort n.val).unacked = [] ∧ (u.sPort n.val).next = 0 ∧
        (∀ i ∈ portLanes n.val, s.laneState i ≠ slOut → u.laneState i = slActive) ∧ (∀ i ∈ portLanes n.val, s.laneState i = slOut → u.laneState i = slOut)) ∧
    (s.sState n.val < spDetect ∨ spFull < s.sState n.val ∨ max s.now t < (s.sPort n.val).since + ticksOfMs 10 →
      Gives (.portPhaseTimeout t n) s (s.atTime t)) ∧
    (spDetect ≤ s.sState n.val → s.sState n.val ≤ spFull → (s.sPort n.val).since + ticksOfMs 10 ≤ max s.now t →
      ∃ u, Gives (.portPhaseTimeout t n) s u ∧ u.sState n.val = spHoldoff ∧ u.get (Reg.STAIR.PORT_STATUS.cause n.val) = s.sState n.val - 1 ∧
        u.get (Reg.STAIR.PORT_STATUS.train_fail n.val) = (s.get (Reg.STAIR.PORT_STATUS.train_fail n.val) + 1) % 256) ∧
    (s.sState n.val = spHoldoff → (s.sPort n.val).since + ticksOfMs 100 ≤ max s.now t →
      ∃ u, Gives (.holdoffEnd t n) s u ∧ u.sState n.val = spListen ∧ u.sUse n.val = useNone ∧ ∀ i ∈ portLanes n.val, u.laneState i = slOff) ∧
    (s.sState n.val ≠ spHoldoff ∨ max s.now t < (s.sPort n.val).since + ticksOfMs 100 → Gives (.holdoffEnd t n) s (s.atTime t))

/-- Codewords: on an ACTIVE lane of a port in UP one whose number is new moves the row of received numbers on, a repeated one is counted and
dropped, an uncorrectable one is counted; the one sent longest ago, of those that have waited 2 µs for their ack or of all where 512 wait, is
sent again unchanged on the next lane, and an ack that stalls for 20 µs faults the flight (R427 to R429). -/
def Claim.StairCodewords : Prop :=
  ∀ (s : State) (t : Nat) (lane : Fin 16) (n : Fin 4) (seq : Nat) (content : Bool) (ack : Option Nat) (fec : Fin 3), s.stair.ports.length = 4 →
    (s.sUp (lane.val / 4) = false ∨ s.laneState lane.val ≠ slActive → Gives (.codewordReceive t lane seq content ack fec) s (s.atTime t)) ∧
    (s.sUp (lane.val / 4) = true → s.laneState lane.val = slActive →
      Gives (.codewordReceive t lane seq content none 2) s ((s.atTime t).bump (Reg.STAIR.PORT_FEC_UNCORR.word (lane.val / 4))) ∧
      (seq % 16384 = (s.sPort (lane.val / 4)).rxNext → (s.sPort (lane.val / 4)).rxHave = [] →
        Gives (.codewordReceive t lane seq false none 0) s
          ((s.atTime t).modSPort (lane.val / 4) fun x => { x with rxNext := (seq % 16384 + 1) % 16384, rxHave := [] })) ∧
      (8192 ≤ seqAhead (seq % 16384) (s.sPort (lane.val / 4)).rxNext ∨ seq % 16384 ∈ (s.sPort (lane.val / 4)).rxHave →
        Gives (.codewordReceive t lane seq false none 0) s ((s.atTime t).bump (Reg.STAIR.PORT_DUP.word (lane.val / 4))))) ∧
    (((s.sPort n.val).unacked.length < 512 ∧ ∀ c ∈ (s.sPort n.val).unacked, max s.now t < c.begun + ticksOfUs 2) ∨ s.sUp n.val = false →
      Gives (.codewordResend t n) s (s.atTime t)) ∧
    (∀ due, due = (fun c : Codeword => 512 ≤ (s.sPort n.val).unacked.length ∨ c.begun + ticksOfUs 2 ≤ max s.now t) →
      (∃ c ∈ (s.sPort n.val).unacked, due c) → s.sUp n.val = true →
      ∃ u c, Gives (.codewordResend t n) s u ∧ c ∈ (s.sPort n.val).unacked ∧ due c ∧ (∀ d ∈ (s.sPort n.val).unacked, due d → c.begun ≤ d.begun) ∧
        (s.out ++ [.codewordAgain n.val c.seq]) <+: u.out ∧
        u.get (Reg.STAIR.PORT_RESENT.word n.val) = (s.get (Reg.STAIR.PORT_RESENT.word n.val) + 1) % 2 ^ 32 ∧
        (u.sPort n.val).unacked = (s.sPort n.val).unacked.map (fun y => if y.seq = c.seq then { y with begun := max s.now t } else y) ∧
        (∀ i rest, s.dealOrder n.val = i :: rest → ∃ place levels, u.out.getLast? = some (.codeword i place c.seq levels)) ∧ u.mem = s.mem) ∧
    (s.sUp n.val = false ∨ (s.sPort n.val).unacked = [] ∨ max s.now t < (s.sPort n.val).ackAt + ticksOfUs 20 → Gives (.ackStall t n) s (s.atTime t)) ∧
    (s.sUp n.val = true → (s.sPort n.val).unacked ≠ [] → (s.sPort n.val).ackAt + ticksOfUs 20 ≤ max s.now t →
      Gives (.ackStall t n) s ((s.atTime t).flightFault n.val 0xE)) ∧
    (s.sUp n.val = true → (s.sPort n.val).lastHello + ticksOfMs 1 ≤ max s.now t → Gives (.helloTimeout t n) s ((s.atTime t).flightFault n.val 9)) ∧
    (s.sUp n.val = false ∨ max s.now t < (s.sPort n.val).lastHello + ticksOfMs 1 → Gives (.helloTimeout t n) s (s.atTime t))

/-- What a lane carries: Gray coding, in which neighbouring levels differ in one bit, and scrambling are undone by their inverses; the symbols of
a lane are its data symbols with a pilot block of 64 before every 4,032 of them; a codeword has 288 symbols of ten bits, its control symbol
first with the low 9 bits of its number; the scrambler's bits obey x^58 + x^39 + 1, begin with the lane's own seed, which is not 0, and go on
from codeword to codeword (R422, R424, R426, R427). The order of bits and the levels of pairs of bits are the model's (log entry 78). -/
def Obligations.LaneCoding : Prop :=
  (∀ l : List Bool, l.length % 2 = 0 → grayBits (grayLevels l) = l) ∧
  (∀ a b c d : Bool, (grayLevel c d - grayLevel a b).natAbs = 2 → (a = c ∧ b ≠ d) ∨ (a ≠ c ∧ b = d)) ∧
  (∀ l key : List Bool, key.length = l.length → scrambled (scrambled l key) key = l) ∧
  (∀ pilot l : List Int, pilot.length = 64 →
    noPilots 0 (withPilots pilot 0 l) = l ∧
    (∀ d, d < l.length → (withPilots pilot 0 l).getD (4096 * (d / 4032) + 64 + d % 4032) 0 = l.getD d 0) ∧
    (∀ k j, 4032 * k < l.length → j < 64 → (withPilots pilot 0 l).getD (4096 * k + j) 0 = pilot.getD j 0)) ∧
  (∀ w : Codeword, (codeSymbols w).length = 288 ∧ (codeSymbols w).head? = some (512 * b2n w.load.isSome + w.seq % 512) ∧
    (codewordBits w).length = 2880) ∧
  (∀ lane dir, 0 < laneSeed lane dir ∧ laneSeed lane dir < 2 ^ 58) ∧
  (∀ seed n i, i + 58 < n → (scrambler seed 0 n).getD (i + 58) false =
    ((scrambler seed 0 n).getD (i + 19) false ^^ (scrambler seed 0 n).getD i false)) ∧
  (∀ seed i, i < 58 → (scrambler seed 0 58).getD i false = seed.testBit i) ∧
  (∀ seed k n m, k + n < 2 ^ 64 → scrambler seed k (n + m) = scrambler seed k n ++ scrambler seed (k + n) m)

/-- A flight fault takes a port in UP to HOLDOFF, counted, with its cause, its lanes OFF and its flight without use; a landing that loses no parent
by it keeps its tree. A lane fault takes an ACTIVE lane OUT with its cause and count while enough lanes stay. Causes that R454 does not list
for the row, and ports not in UP, have none (R440, R453, R454). -/
def Claim.StairFaults : Prop :=
  ∀ (s : State) (t : Nat) (n : Fin 4) (lane : Fin 16) (cause : Fin 16) (lc : Fin 6), s.stair.ports.length = 4 → s.stair.lanes.length = 16 →
    (cause.val < 8 ∨ cause.val = 13 ∨ cause.val = 15 → Gives (.flightFault t n cause) s (s.atTime t)) ∧
    (8 ≤ cause.val → cause.val ≤ 14 → cause.val ≠ 11 → cause.val ≠ 13 →
      (s.sUp n.val = false → Gives (.flightFault t n cause) s (s.atTime t)) ∧
      (s.sUp n.val = true → s.parentPort ≠ some n.val → (∀ x, s.treeOf.asking = some x → x.1 ≠ n.val) →
        ∃ u, Gives (.flightFault t n cause) s u ∧ u.sState n.val = spHoldoff ∧ u.get (Reg.STAIR.PORT_STATUS.cause n.val) = cause.val ∧
          u.get (Reg.STAIR.PORT_STATUS.flight_faults n.val) = (s.get (Reg.STAIR.PORT_STATUS.flight_faults n.val) + 1) % 256 ∧
          u.sUse n.val = useNone ∧ (∀ i ∈ portLanes n.val, u.laneState i = slOff) ∧ (u.sPort n.val).queue = [] ∧ (u.sPort n.val).unacked = [] ∧
          u.get Reg.STAIR.STATUS.word = s.get Reg.STAIR.STATUS.word ∧
          (u.log.head?.map fun r => (r.kind, r.cls, r.unit, r.inst, r.cause)) = some (1, 0x0C, unitStair, n.val, cause.val))) ∧
    (lc = 0 ∨ s.sUp (lane.val / 4) = false → Gives (.laneFault t lane lc) s (s.atTime t)) ∧
    (lc ≠ 0 → lc ≠ 4 → s.sUp (lane.val / 4) = true → s.laneState lane.val = slActive →
      s.minLanes (lane.val / 4) < (s.activeLanes (lane.val / 4)).length →
      ∃ u, Gives (.laneFault t lane lc) s u ∧ u.laneState lane.val = slOut ∧ u.get (Reg.STAIR.LANE_STATUS.cause lane.val) = lc.val ∧
        u.get (Reg.STAIR.LANE_STATUS.faults lane.val) = (s.get (Reg.STAIR.LANE_STATUS.faults lane.val) + 1) % 256 ∧ u.sUp (lane.val / 4) = true ∧
        (u.get (Reg.STAIR.PORT_STATUS.lanes (lane.val / 4))).testBit (lane.val % 4) = false) ∧
    (s.sUp (lane.val / 4) = false ∨ s.laneState lane.val ≠ slOut → Gives (.laneRejoin t lane) s (s.atTime t)) ∧
    (s.sUp (lane.val / 4) = true → s.laneState lane.val = slOut →
      (s.clock.started = true → (s.atTime t).arrayNow % planningSlot = 0 →
        ∃ u, Gives (.laneRejoin t lane) s u ∧ u.laneState lane.val = slActive ∧
          (u.get (Reg.STAIR.PORT_STATUS.lanes (lane.val / 4))).testBit (lane.val % 4) = true) ∧
      (s.clock.started = false ∨ (s.atTime t).arrayNow % planningSlot ≠ 0 →
        Gives (.laneRejoin t lane) s ((s.atTime t).modSLane lane.val fun x => { x with qualified := true })))

/-- Lanes: an adaptation commit on an ACTIVE lane shows the figure of merit and, unless the lane is frozen or rolled back (the model's reading of
freeze, log entry 83), commits it where it has not fallen by more than 4; a lane idle for 10 µs says so;
an idle lane that has fallen by more than 12 rolls back once. Elsewhere nothing (R433, R434). -/
def Claim.StairLanes : Prop :=
  ∀ (s : State) (t : Nat) (lane : Fin 16) (fom : Nat), fom < 256 → s.stair.lanes.length = 16 →
    (s.laneState lane.val ≠ slActive → Gives (.stairAdaptCommit t lane fom) s (s.atTime t) ∧ Gives (.laneIdle t lane) s (s.atTime t) ∧
      Gives (.idleRollback t lane fom) s (s.atTime t)) ∧
    (s.laneState lane.val = slActive →
      (∃ u, Gives (.stairAdaptCommit t lane fom) s u ∧ u.get (Reg.STAIR.LANE_ADAPT.fom lane.val) = fom ∧
        u.get (Reg.STAIR.LANE_ADAPT.fom_committed lane.val) =
          (if s.get (Reg.STAIR.LANE_ADAPT.freeze lane.val) = 0 ∧ (s.sLane lane.val).rolled = false ∧
              s.get (Reg.STAIR.LANE_ADAPT.fom_committed lane.val) ≤ fom + 4 then fom
            else s.get (Reg.STAIR.LANE_ADAPT.fom_committed lane.val)) ∧
        SameWords s u [(Reg.STAIR.LANE_ADAPT.word lane.val).addr]) ∧
      ((s.sLane lane.val).busyAt + ticksOfUs 10 ≤ max s.now t → Gives (.laneIdle t lane) s ((s.atTime t).put (Reg.STAIR.LANE_ADAPT.idle lane.val) 1)) ∧
      (max s.now t < (s.sLane lane.val).busyAt + ticksOfUs 10 → Gives (.laneIdle t lane) s (s.atTime t)) ∧
      (s.get (Reg.STAIR.LANE_ADAPT.idle lane.val) = 1 → fom + 12 < s.get (Reg.STAIR.LANE_ADAPT.fom_committed lane.val) →
        (s.sLane lane.val).rolled = false →
        ∃ u, Gives (.idleRollback t lane fom) s u ∧ u.get (Reg.STAIR.LANE_ADAPT.fom lane.val) = fom ∧
          u.get (Reg.STAIR.LANE_ADAPT.rollback lane.val) = (s.get (Reg.STAIR.LANE_ADAPT.rollback lane.val) + 1) % 256 ∧
          u.get (Reg.STAIR.LANE_ADAPT.fom_committed lane.val) = s.get (Reg.STAIR.LANE_ADAPT.fom_committed lane.val) ∧
          (u.sLane lane.val).rolled = true))

/-- Array time over a flight: a mark heard is kept under its index, a mark sent every period in a pilot block of the lowest active lane; TIME
from the parent with both marks of its index gives the delay and the offset of R464, to the nearest below. -/
def Claim.StairTime : Prop :=
  ∀ (s : State) (t : Nat) (n : Fin 4) (index : Nat) (stamp t1 t2 t3 t4 : Int), s.stair.ports.length = 4 →
    (s.sUp n.val = false → ∀ heard, Gives (.timeMark t n heard stamp) s (s.atTime t)) ∧
    (s.sUp n.val = true → s.sUse n.val ≠ useChild →
      Gives (.timeMark t n (some index) stamp) s
        ((s.atTime t).modSPort n.val fun x => { x with heardMarks := assocSet x.heardMarks (index % 8) stamp }) ∧
      (max s.now t < (s.sPort n.val).markAt → Gives (.timeMark t n none stamp) s (s.atTime t)) ∧
      ((s.sPort n.val).markAt ≤ max s.now t →
        ∃ u pads, Gives (.timeMark t n none stamp) s u ∧ pads.length ≤ 1 ∧ (∀ o ∈ pads, ∃ first l, o = .pads n.val first l) ∧
          u.out = s.out ++ pads ++ .pilotMark n.val (s.sPort n.val).markIndex :: ((s.activeLanes n.val).take 1).map (fun l =>
            .pilot l (pilotBlock l (u.sPort n.val).next (s.sPort n.val).rxNext (some (s.sPort n.val).markIndex) 0)) ∧
          assoc? (u.sPort n.val).sentMarks (s.sPort n.val).markIndex = some stamp ∧
          (u.sPort n.val).markAt = max s.now t + ticksOfMs (s.get Reg.STAIR.TIME_CTL.period))) ∧
    (s.parentPort ≠ some n.val → Gives (.time t n index t1 t4) s (s.atTime t)) ∧
    (s.parentPort = some n.val → assoc? (s.sPort n.val).heardMarks (index % 8) = some t2 → assoc? (s.sPort n.val).sentMarks (index % 8) = some t3 →
      s.get Reg.CLOCK.REF_STATUS.source ≠ srcParent → (s.sPort n.val).holdDelay = false →
      ∀ d, d = ((t4 - t1) - (t3 - t2)) / 2 + s.getS (Reg.STAIR.PORT_ASYM.word n.val) →
        ∃ u, Gives (.time t n index t1 t4) s u ∧ u.getS Reg.STAIR.TIME_ERR.word = satS 32 (t2 - t1 - d) ∧
          (u.sPort n.val).delays = (d :: (s.sPort n.val).delays).take (s.get Reg.STAIR.TIME_CTL.filter) ∧
          assoc? (u.sPort n.val).heardMarks (index % 8) = none)

/-- Sleep, wake and retraining: SLEEP takes a port in UP to SLEEP; STAIR_WAKE sends the wake pattern from SLEEP, LISTEN and HOLDOFF; after 20 µs
the port listens; STAIR_RETRAIN returns an enabled port to LISTEN; a detector of an enabled port is the wake sources 2 and 3
(R441, R467 to R469). -/
def Claim.StairSleep : Prop :=
  ∀ (s : State) (t : Nat) (ch : Channel) (n : Fin 4), s.stair.ports.length = 4 →
    (s.sUp n.val = false → Gives (.sleep t n) s (s.atTime t)) ∧
    (s.sUp n.val = true → s.parentPort ≠ some n.val → ∃ u, Gives (.sleep t n) s u ∧ u.sState n.val = spSleep ∧ u.sUse n.val = useNone ∧
      u.get Reg.STAIR.STATUS.word = s.get Reg.STAIR.STATUS.word) ∧
    (s.reaches t ch (Reg.STAIR.PORT_CTL.word n.val).addr →
      (s.sState n.val = spSleep ∨ s.sState n.val = spListen ∨ s.sState n.val = spHoldoff →
        ∃ u, Gives (.stairWake t ch n) s u ∧ u.sState n.val = spWaking ∧ u.out.getLast? = some (.wakePattern n.val) ∧
          ((∀ i ∈ portLanes n.val, (s.sLane i).startAt = none) → u.out = s.out ++ [.wakePattern n.val])) ∧
      (s.sState n.val = spDisabled ∨ s.sState n.val = spUp ∨ (spDetect ≤ s.sState n.val ∧ s.sState n.val ≤ spFull) →
        Gives (.stairWake t ch n) s (s.atTime t)) ∧
      (s.sState n.val = spDisabled → Gives (.stairRetrain t ch n) s (s.atTime t)) ∧
      (s.sState n.val ≠ spDisabled → s.sState n.val ≠ spUp →
        ∃ u, Gives (.stairRetrain t ch n) s u ∧ u.sState n.val = spListen ∧ (u.sPort n.val).split = s.flag (Reg.STAIR.PORT_CTL.split n.val) ∧
          ((∀ i ∈ portLanes n.val, (s.sLane i).startAt = none) → u.out = s.out) ∧ u.mem = s.mem)) ∧
    (s.sState n.val ≠ spWaking ∨ max s.now t < (s.sPort n.val).since + ticksOfUs 20 → Gives (.wakePatternSent t n) s (s.atTime t)) ∧
    (s.sState n.val = spWaking → (s.sPort n.val).since + ticksOfUs 20 ≤ max s.now t →
      ∃ u, Gives (.wakePatternSent t n) s u ∧ u.sState n.val = spListen) ∧
    (s.sState n.val = spDisabled → ∀ pat, Gives (.wakePatternDetect t n pat) s (s.atTime t)) ∧
    (s.sState n.val ≠ spDisabled → s.power ≠ powerIdle →
      Gives (.wakePatternDetect t n false) s ((s.atTime t).wakeSource 2) ∧
      Gives (.wakePatternDetect t n true) s (((s.atTime t).wakeSource 2).wakeSource 3))

/-- A transmit tap set that exceeds the spectral mask is refused, shown in mask_fail, and answered where the far end asked; another is
stored. A mask write shows the lanes whose taps now exceed it and changes no taps (R430 to R432). -/
def Claim.StairMasks : Prop :=
  ∀ (s : State) (t : Nat) (ch : Channel) (lane : Fin 16) (k : Fin 8) (v : Word) (new : State),
    new = (s.atTime t).storeWord (Reg.STAIR.LANE_TXF.word lane.val).addr v →
    (s.reaches t ch (Reg.STAIR.LANE_TXF.word lane.val).addr →
      (exceedsMask s.maskBreaks (new.word (Reg.STAIR.LANE_TXF.word lane.val).addr) = true →
        Gives (.laneTxfWrite t (some ch) lane v) s ((s.atTime t).put (Reg.STAIR.LANE_STATUS.mask_fail lane.val) 1)) ∧
      (exceedsMask s.maskBreaks (new.word (Reg.STAIR.LANE_TXF.word lane.val).addr) = false → Gives (.laneTxfWrite t (some ch) lane v) s new)) ∧
    (exceedsMask s.maskBreaks (new.word (Reg.STAIR.LANE_TXF.word lane.val).addr) = true →
      Gives (.laneTxfWrite t none lane v) s (((s.atTime t).put (Reg.STAIR.LANE_STATUS.mask_fail lane.val) 1).emit (.tapRefusal lane.val))) ∧
    (exceedsMask s.maskBreaks (new.word (Reg.STAIR.LANE_TXF.word lane.val).addr) = false → Gives (.laneTxfWrite t none lane v) s new) ∧
    (s.reaches t ch (Reg.STAIR.MASK.word k.val).addr →
      ∃ u, Gives (.maskWrite t ch k v) s u ∧
        (∀ i, i < 16 → u.word (Reg.STAIR.LANE_TXF.word i).addr = s.word (Reg.STAIR.LANE_TXF.word i).addr ∧
          (exceedsMask u.maskBreaks (u.word (Reg.STAIR.LANE_TXF.word i).addr) = true → u.get (Reg.STAIR.LANE_STATUS.mask_fail i) = 1) ∧
          (exceedsMask u.maskBreaks (u.word (Reg.STAIR.LANE_TXF.word i).addr) = false →
            u.get (Reg.STAIR.LANE_STATUS.mask_fail i) = s.get (Reg.STAIR.LANE_STATUS.mask_fail i))) ∧ u.mem = s.mem ∧ u.out = s.out)

/-! ### The tree (R445 to R461, R739) -/

/-- HELLO: sent on reaching UP and every 100 µs; one that arrives on a port in UP is shown in PORT_PEER, and on one that is not does nothing.
The heartbeat is the top's alone, every 1 ms, to every child; a landing that hears none for 3 ms is LOST (R447, R452). -/
def Claim.TreeBeats : Prop :=
  ∀ (s : State) (t : Nat) (n : Fin 4) (h : Hello), s.stair.ports.length = 4 →
    (s.sUp n.val = false → Gives (.helloSend t n) s (s.atTime t) ∧ Gives (.hello t n h) s (s.atTime t)) ∧
    (s.sUp n.val = true →
      (s.sPort n.val).helloSent < (s.sPort n.val).since ∨ (s.sPort n.val).helloSent + ticksOfUs 100 ≤ max s.now t →
      ∃ u, Gives (.helloSend t n) s u ∧ (u.sPort n.val).helloSent = max s.now t ∧
        u = ((s.atTime t).modSPort n.val fun x => { x with helloSent := max s.now t }).sendOn n.val (.hello s.ownHello)) ∧
    (s.sUp n.val = true → s.isTop = true → h.depth < 16 → h.role < 4 → h.tree < 8 → h.landing < 512 →
      ∃ u, Gives (.hello t n h) s u ∧ (u.sPort n.val).hello = some h ∧ (u.sPort n.val).lastHello = max s.now t ∧
        u.get (Reg.STAIR.PORT_PEER.valid n.val) = 1 ∧ u.get (Reg.STAIR.PORT_PEER.depth n.val) = h.depth ∧
        u.get (Reg.STAIR.PORT_PEER.role n.val) = h.role ∧ u.get (Reg.STAIR.PORT_PEER.tree n.val) = h.tree ∧
        u.get (Reg.STAIR.PORT_PEER.landing n.val) = h.landing ∧ SameWords s u [(Reg.STAIR.PORT_PEER.word n.val).addr]) ∧
    (s.isTop = false ∨ (s.treeState ≠ treeForming ∧ s.treeState ≠ treeFormed) ∨ max s.now t < s.treeOf.heartbeat + ticksOfMs 1 →
      Gives (.treeHeartbeat t) s (s.atTime t)) ∧
    (s.isTop = true → s.treeState = treeForming ∨ s.treeState = treeFormed → s.treeOf.heartbeat + ticksOfMs 1 ≤ max s.now t →
      Gives (.treeHeartbeat t) s (((s.atTime t).modTree fun x => { x with heartbeat := max s.now t }).sendDown
        (.tree s.treeState (s.get Reg.STAIR.TREE.current_path) (s.get Reg.STAIR.TREE.addition) s.treeOf.start none))) ∧
    (s.isTop = true ∨ s.treeState = treeNone ∨ s.treeState = treeLost ∨ s.treeState = treeRefused ∨
      max s.now t < s.treeOf.lastTree + ticksOfMs 3 → Gives (.treeLost t) s (s.atTime t)) ∧
    (s.isTop = false → s.treeState = treeForming ∨ s.treeState = treeFormed ∨ s.treeState = treeOrphan →
      s.treeOf.lastTree + ticksOfMs 3 ≤ max s.now t →
      ∃ u, Gives (.treeLost t) s u ∧ u.treeState = treeLost ∧ (u.log.head?.map fun r => (r.kind, r.unit)) = some (4, unitStair) ∧
        u.get Reg.HOST.INT_STATUS.topology = 1)

/-- JOIN is learned with its path and goes up from a landing that is not the top; TREE that is not from the parent, or at the top, does
nothing; a targeted TREE makes a FORMING landing FORMED with its path and addition, or refuses it; a broadcast refreshes a FORMED landing
(R450, R451, R739). -/
def Claim.TreeForming : Prop :=
  ∀ (s : State) (t : Nat) (n : Fin 4) (landing uid st path addition start : Nat) (via : List Nat) (target : Option Nat), s.stair.ports.length = 4 →
    (s.isTop = false →
      ∃ u, Gives (.join t n landing uid via) s u ∧ assoc? u.treeOf.below landing = some (n.val :: via) ∧
        (via = [] → (u.sPort n.val).child = some landing) ∧ u.treeState = s.treeState) ∧
    (s.isTop = true → s.landingCount ≤ landing → s.stair.tree.joined = [] →
      ∃ u, Gives (.join t n landing uid via) s u ∧ u.treeOf.joined = [] ∧ u.treeState = s.treeState ∧
        (u.log.head?.map fun r => (r.kind, r.unit, r.inst)) = some (4, unitStair, n.val)) ∧
    (s.isTop = true ∨ s.parentPort ≠ some n.val → Gives (.tree t n st path addition start target) s (s.atTime t)) ∧
    (s.isTop = false → s.parentPort = some n.val →
      (st = treeFormed → s.treeState = treeForming → path < 256 → addition < 65536 →
        ∃ u, Gives (.tree t n st path addition start (some s.landing)) s u ∧ u.treeState = treeFormed ∧
          u.get Reg.STAIR.TREE.formed_path = path ∧ u.get Reg.STAIR.TREE.current_path = path ∧ u.get Reg.STAIR.TREE.addition = addition ∧
          u.treeOf.start = start) ∧
      (st = treeRefused → ∃ u, Gives (.tree t n st path addition start (some s.landing)) s u ∧ u.treeState = treeRefused) ∧
      (st = treeFormed → s.treeState = treeFormed → s.childPorts = [] → path < 256 →
        ∃ u, Gives (.tree t n st path addition start none) s u ∧ u.treeState = treeFormed ∧ u.treeOf.lastTree = max s.now t ∧
          u.get Reg.STAIR.TREE.current_path = path ∧ SameWords s u [Reg.STAIR.TREE.word.addr]))

/-- REPARENT: a confirmation or refusal that the landing waits for confirms or gives up its new parent, another confirmation goes down, another
refusal does nothing; without an answer for 20 µs the parent is given up. RESUME sends down again what followed the symbol named, and nothing
from an empty history (R455, R456, R460). -/
def Claim.TreeParents : Prop :=
  ∀ (s : State) (t : Nat) (n : Fin 4) (landing carrier symbol : Nat) (members : List (Nat × List Nat)),
    (s.treeOf.asking = none → Gives (.reparent t n landing carrier symbol 2 members) s (s.atTime t) ∧
      Gives (.reparent t n landing carrier symbol 1 members) s ((s.atTime t).confirmDown landing carrier symbol) ∧
      Gives (.reparentTimeout t) s (s.atTime t)) ∧
    (∀ m since, s.treeOf.asking = some (m, since) →
      (max s.now t < since + ticksOfUs 20 → Gives (.reparentTimeout t) s (s.atTime t)) ∧
      (since + ticksOfUs 20 ≤ max s.now t →
        ∃ u, Gives (.reparentTimeout t) s u ∧ u = (((s.atTime t).modSPort m fun x => { x with excluded := true }).modTree fun x =>
          { x with asking := none }).chooseParent) ∧
      (m = n.val → landing = s.landing →
        Gives (.reparent t n landing carrier symbol 1 members) s ((s.atTime t).parentConfirmed n.val) ∧
        Gives (.reparent t n landing carrier symbol 2 members) s ((s.atTime t).abandon))) ∧
    (landing ≠ s.landing → s.isTop = true →
      ∃ u, Gives (.reparent t n landing carrier symbol 0 members) s u ∧
        assoc? u.treeOf.moved landing = some ((s.form carrier).boundary symbol)) ∧
    (s.treeOf.history = [] → Gives (.resume t n carrier symbol) s (s.atTime t)) ∧
    (∀ at0 m, s.treeOf.history = [(at0, m)] → s.ofSymbol carrier symbol m = false →
      Gives (.resume t n carrier symbol) s ((s.atTime t).sendOn n.val m)) ∧
    (∀ at0 m, s.treeOf.history = [(at0, m)] → (s.atTime t).ofSymbol carrier symbol m = true → Gives (.resume t n carrier symbol) s (s.atTime t))

/-- Sums: a child's chunk enters its sum once and in time; a chunk without a sum is not forwarded, and one with all its parts waits for its release;
MISSING and SUPPLEMENT go up from a landing
below the top, and at the top a supplement that no MISSING record names waits; FINISHED goes on to the egress landing; LAYER and SECTIONS go up
from the ingress landing, and one that is held already is dropped on its way down (R443, R445, R458 to R460). -/
def Claim.TreeSums : Prop :=
  ∀ (s : State) (t : Nat) (n : Fin 4) (x : Chunk) (root origin carrier layer slot sym first : Nat) (l : List (Nat × CSection)),
    (s.sUse n.val ≠ useChild ∨ (s.atTime t).chunkLate x.carrier x.slot x.sym = true → Gives (.partialSum t n x) s (s.atTime t)) ∧
    (s.sUse n.val = useChild → (s.atTime t).chunkLate x.carrier x.slot x.sym = false →
      ∀ y, y = (s.atTime t).beginSum x.carrier x.layer x.slot x.sym x.first →
        (y.complete = true ∨ n.val ∈ y.heard → Gives (.partialSum t n x) s (s.atTime t)) ∧
        (y.complete = false → n.val ∉ y.heard → y.named x.carrier x.layer x.slot x.sym x.first = true →
          ∃ u, Gives (.partialSum t n x) s u ∧
            u.sumOf x.carrier x.layer x.slot x.sym x.first = some { y with heard := y.heard ++ [n.val], parts := y.parts ++ [x] } ∧
            u.regs = s.regs ∧ u.mem = s.mem ∧ u.out = s.out)) ∧
    (s.sumOf carrier layer slot sym first = none → Gives (.chunkForward t carrier layer slot sym first) s (s.atTime t)) ∧
    (∀ y, s.sumOf carrier layer slot sym first = some y →
      (y.complete = true ∨ y.own = false → Gives (.chunkForward t carrier layer slot sym first) s (s.atTime t)) ∧
      ((s.atTime t).childOverdue y = false →
        (∃ p ∈ y.expected, p ∉ y.heard ∧ s.portMissing p (y.form.boundary ((s.atTime t).sumSymbol y)) = false) →
        Gives (.chunkForward t carrier layer slot sym first) s (s.atTime t)) ∧
      (∀ m, m = (s.atTime t).sumSymbol y → y.complete = false → y.own = true → (∀ p ∈ y.expected, p ∈ y.heard) → s.isTop = false →
        ∃ v, Gives (.chunkForward t carrier layer slot sym first) s (v.setSum { y with expected := y.heard, complete := true, parts := [] }) ∧
          v = (s.atTime t).stairGate carrier m ((s.atTime t).sumRelease carrier 1 s.depth y.form m) false y.form []
            (.partialSum { carrier := carrier, layer := layer, slot := slot, sym := sym, first := first, prbs := sumChunks y.parts }))) ∧
    (s.isTop = false →
      Gives (.missing t n root carrier layer slot sym first) s ((s.atTime t).sendConfirmed (.missing root carrier layer slot sym first)) ∧
      Gives (.supplement t n origin x) s ((s.atTime t).sendConfirmed (.supplement origin x))) ∧
    (s.isTop = true → s.sumOf x.carrier x.layer x.slot x.sym x.first = none → (s.atTime t).chunkLate x.carrier x.slot x.sym = false →
      (origin, x.carrier, x.layer, x.slot, x.sym, x.first) ∉ s.treeOf.missing →
      Gives (.supplement t n origin x) s ((s.atTime t).modTree fun y => { y with suppl := y.suppl ++ [(origin, x)] })) ∧
    (s.isTop = true → s.sumOf carrier layer slot sym first = none → (s.atTime t).chunkLate carrier slot sym = false → s.treeOf.suppl = [] →
      assoc? s.treeOf.moved root = none →
      Gives (.missing t n root carrier layer slot sym first) s ((s.atTime t).modTree fun y =>
        { y with missing := y.missing ++ [(root, carrier, layer, slot, sym, first)] })) ∧
    (∀ r, r = s.formOf x.carrier x.slot x.sym →
      (r.egress ≠ s.landing → Gives (.finished t n x) s ((s.atTime t).sendTo r.egress (.finished x))) ∧
      (r.egress = s.landing → ∃ u, Gives (.finished t n x) s u ∧ u.gates.length = s.gates.length ∧ u.regs = s.regs ∧
      ∀ g ∈ s.gates, g.kind = .up → g.carrier = x.carrier → g.symbol = r.named (s.atTime t).arrayNow x.slot x.sym →
        ∃ g' ∈ u.gates, g'.carrier = g.carrier ∧ g'.symbol = g.symbol ∧ g'.wait = g.wait - 1 ∧ g'.data.length = g.data.length + x.prbs.length)) ∧
    (s.isTop = false → s.parentPort ≠ some n.val →
      Gives (.layer t n x) s ((s.atTime t).sendUp (.layer x)) ∧ Gives (.sections t n carrier l) s ((s.atTime t).sendUp (.sections carrier l))) ∧
    ((s.isTop = true ∨ s.parentPort = some n.val) →
      (s.holds (.layer x) = true → Gives (.layer t n x) s (s.atTime t)) ∧
      (s.holds (.layer x) = false → Gives (.layer t n x) s ((((s.atTime t).remember (.layer x)).sendDown (.layer x)).takeLayer x)) ∧
      (s.holds (.sections carrier l) = true → Gives (.sections t n carrier l) s (s.atTime t)) ∧
      (s.holds (.sections carrier l) = false → l = [] →
        Gives (.sections t n carrier l) s (((s.atTime t).remember (.sections carrier l)).sendDown (.sections carrier l))))

/-- GRAM enters the epoch that its slot names, once from each port for a group and direction; INVERSE is kept for that epoch and goes down to all,
and one held already is dropped; without the epoch a GRAM does nothing (R304 to R311). -/
def Claim.TreeGrams : Prop :=
  ∀ (s : State) (t : Nat) (n : Fin 4) (carrier slot : Nat) (l : List GramRec) (v : List InverseRec),
    (s.epochOf carrier slot = none → Gives (.gram t n carrier slot l) s (s.atTime t)) ∧
    (∀ e, s.epochOf carrier slot = some e → (s.form carrier).joint = false → carrier < s.beam.epochs.length →
      ∃ u e', Gives (.gram t n carrier slot l) s u ∧ u.epochOf carrier slot = some e' ∧
        e'.grams = e.grams ++ l.filter (fun x => !e.heard.contains (gramKey n.val x.group x.dl)) ∧ u.regs = s.regs ∧ u.out = s.out) ∧
    (s.holds (.inverse carrier (slot % 4096) v) = true → Gives (.inverse t n carrier slot v) s (s.atTime t)) ∧
    (∀ e, s.epochOf carrier slot = some e → s.holds (.inverse carrier (slot % 4096) v) = false → s.childPorts = [] → carrier < s.beam.epochs.length →
      ∃ u e', Gives (.inverse t n carrier slot v) s u ∧ u.epochOf carrier slot = some e' ∧
        e'.inverses = e.inverses ++ v.filter (fun x => !(e.inverses.any fun y => y.dl == x.dl && y.group == x.group)) ∧ u.regs = s.regs ∧
        u.out = s.out)
/-! ### Over-the-air calibration (R471 to R499) -/

/-- OTA_START begins a round at the top, or shows the cause that refuses it; the timer starts one in AUTO when the interval has passed or a
landing is stale; OTA_DISCARD releases staged corrections; SCHEDULE makes a landing take part (R477, R478, R491, R495, R497). -/
def Claim.OtaRounds : Prop :=
  ∀ (s : State) (t : Nat) (ch : Channel) (round first period : Nat) (windows : List OtaWindow),
    (s.reaches t ch Reg.OTA.CMD.word.addr →
      (s.mayStart t → ∃ u, Gives (.otaStart t ch) s u ∧ RoundBegun s u) ∧
      (s.isTop = false → Gives (.otaStart t ch) s ((s.atTime t).put Reg.OTA.STATUS.cause 1)) ∧
      (s.isTop = true → s.get Reg.OTA.STATUS.state ≠ 0 ∨ s.get Reg.OTA.STATUS.staged = 1 →
        Gives (.otaStart t ch) s ((s.atTime t).put Reg.OTA.STATUS.cause 2)) ∧
      (s.isTop = true → s.get Reg.OTA.STATUS.state = 0 → s.get Reg.OTA.STATUS.staged = 0 → s.power = powerActive ∨ s.power = powerQuiet →
        (s.get Reg.OTA.CTL.mode = 0 → Gives (.otaStart t ch) s ((s.atTime t).put Reg.OTA.STATUS.cause 5)) ∧
        (s.get Reg.OTA.CTL.mode ≠ 0 → s.treeState ≠ treeFormed → Gives (.otaStart t ch) s ((s.atTime t).put Reg.OTA.STATUS.cause 4)) ∧
        (s.get Reg.OTA.CTL.mode ≠ 0 → s.treeState = treeFormed → (s.atTime t).windowOk = false →
          Gives (.otaStart t ch) s ((s.atTime t).put Reg.OTA.STATUS.cause 3))) ∧
      Gives (.otaDiscard t ch) s ((s.atTime t).put Reg.OTA.STATUS.staged 0)) ∧
    (s.isTop = false ∨ s.get Reg.OTA.CTL.mode ≠ 1 → Gives (.otaRoundTimer t) s (s.atTime t)) ∧
    (s.ota.staleAt = none → s.get Reg.OTA.CTL.interval = 0 ∨ max s.now t < s.ota.lastStart + ticksOfMs (100 * s.get Reg.OTA.CTL.interval) →
      Gives (.otaRoundTimer t) s (s.atTime t)) ∧
    (s.mayStart t → s.get Reg.OTA.CTL.mode = 1 →
      s.ota.staleAt ≠ none ∨ (s.get Reg.OTA.CTL.interval ≠ 0 ∧ s.ota.lastStart + ticksOfMs (100 * s.get Reg.OTA.CTL.interval) ≤ max s.now t) →
      ∃ u, Gives (.otaRoundTimer t) s u ∧ RoundBegun s u) ∧
    (s.get Reg.OTA.CTL.mode = 0 ∨ s.running s.otaCarrier = false →
      Gives (.schedule t round 0 period windows) s ((s.atTime t).sendDown (.ota (.schedule round 0 period windows)))) ∧
    (s.get Reg.OTA.CTL.mode ≠ 0 → s.running s.otaCarrier = true → s.isTop = false →
      ∃ u, Gives (.schedule t round 0 period windows) s u ∧ u.get Reg.OTA.STATUS.state = 1 ∧ u.get Reg.OTA.ROUND.number = round % 65536 ∧
        u.get Reg.OTA.ROUND.windows = windows.length % 65536 ∧ u.ota.active = true ∧ u.ota.retryKnown = false ∧ u.ota.accepted = [] ∧
        (u.ota.windows.map fun e => (e.1, e.2.2)) = (List.range windows.length).zip windows) ∧
    (first ≠ 0 →
      (s.ota.active = false ∨ round % 256 ≠ s.get Reg.OTA.ROUND.number % 256 →
        Gives (.schedule t round first period windows) s ((s.atTime t).sendDown (.ota (.schedule round first period windows)))) ∧
      (s.ota.active = true → round % 256 = s.get Reg.OTA.ROUND.number % 256 →
        ∃ u, Gives (.schedule t round first period windows) s u ∧ u.ota.retryKnown = true ∧
          (u.ota.windows.map fun e => e.2.2) = (s.ota.windows.map fun e => e.2.2) ++ windows ∧
          u.get Reg.OTA.STATUS.state = (if windows = [] then 4 else s.get Reg.OTA.STATUS.state)))

/-- OTA_WINDOW acts on a scheduled window of an active round once it begins or ends. A LOOP window sends its tone and yields the factors of the
paths that took part, loop_fail for the others; in a BURST window a sender transmits its burst, 2 µs after the window's begin and for 50 µs; a
shed window is skipped; at the end of the last BURST window the top notes each sender that was not accepted (R475, R476, R479, R482, R490,
R564). -/
def Claim.OtaWindows : Prop :=
  ∀ (s : State) (t number period : Nat) (w : OtaWindow) (span : Nat × Nat) (factors : List (Nat × Word × Word)) (begins ends : Prop),
    begins = (span.1 ≤ (s.atTime t).arrayNow ∧ (s.atTime t).arrayNow < span.2) → ends = (span.2 ≤ (s.atTime t).arrayNow) →
    ((∀ e ∈ s.ota.windows, e.1 ≠ number) ∨ s.ota.active = false → ∀ b, Gives (.otaWindow t number b factors) s (s.atTime t)) ∧
    (s.ota.active = true → (s.ota.windows.find? fun e => e.1 == number) = some (number, period, w) → s.windowAt period = some span →
      (¬ begins → Gives (.otaWindow t number false factors) s (s.atTime t)) ∧
      (¬ ends → Gives (.otaWindow t number true factors) s (s.atTime t)) ∧
      (begins → s.shedding shedOta ≠ [] ∨ s.carActive s.otaCarrier = false → ∃ u, Gives (.otaWindow t number false factors) s u ∧ u.ota.now = some (number, false) ∧ u.out = s.out ∧
        u.get Reg.OTA.STATUS.state = (w.kind + 1) % 16) ∧
      (begins → s.shedding shedOta = [] → s.carActive s.otaCarrier = true → ∃ u, Gives (.otaWindow t number false factors) s u ∧
        u.ota.now = some (number, true) ∧ u.get Reg.OTA.STATUS.state = (w.kind + 1) % 16 ∧ u.mem = s.mem ∧
        SameWords s u [Reg.OTA.STATUS.word.addr] ∧
        (∀ header, header = burstHeader s.landing number (s.get Reg.OTA.ROUND.number) (s.get Reg.STAIR.ARRAY_TAG.word) →
          (burstWave header).length = 1536 ∧
          u.out = s.out ++ (if w.kind = 0 then [.otaLoop number] else if s.landing ∈ w.senders then
            [.otaBurst number (s.get Reg.OTA.BEAM.entry) (s.get Reg.OTA.CTL.level) header (span.1 + ticksOfUs 2) (burstWave header)] else [])) ∧
        u.ota.air = (if w.kind = 0 then some { from_ := span.1 + ticksOfUs 12, until_ := span.1 + ticksOfUs 57, turn := some number }
          else if s.landing ∈ w.senders then some { from_ := span.1 + ticksOfUs 2, until_ := span.1 + ticksOfUs 52, turn := none } else s.ota.air)) ∧
      (ends → w.kind = 0 → s.ota.now = some (number, true) → s.ota.newTau.length = 64 → s.ota.newRho.length = 64 → number < 8 →
        ∃ u, Gives (.otaWindow t number true factors) s u ∧ u.ota.now = none ∧ u.out = s.out ∧
          ∀ g, g < 8 →
            (∀ f, assoc? factors (8 * g + number) = some f → (s.atTime t).loopPath span.1 (8 * g + number) = true →
              u.ota.newTau.getD (8 * g + number) unitCorr = f.1 ∧ u.ota.newRho.getD (8 * g + number) unitCorr = f.2) ∧
            ((s.atTime t).loopPath span.1 (8 * g + number) = false → u.get Reg.OTA.STATUS.loop_fail = 1)) ∧
      (ends → w.kind = 0 → s.ota.now ≠ some (number, true) → number ≠ 7 →
        ∃ u, Gives (.otaWindow t number true factors) s u ∧ u.ota = { s.ota with now := none, captures := [none, none] } ∧ u.regs = s.regs) ∧
      (ends → w.kind = 1 → (∀ e ∈ s.ota.windows, e.2.2.kind = 1 → e.1 ≤ number) → s.isTop = true →
        ∃ u, Gives (.otaWindow t number true factors) s u ∧ u.ota.now = none ∧ u.out = s.out ∧
          (∀ e ∈ s.ota.windows, e.2.2.kind = 1 → ∀ x ∈ e.2.2.senders, x ≠ s.landing → x ∉ s.ota.accepted → (s.landing, x) ∈ u.ota.missed) ∧
          (∀ x ∈ s.ota.accepted, (s.landing, x) ∈ u.ota.missed → (s.landing, x) ∈ s.ota.missed)) ∧
      (ends → w.kind = 2 → (∀ e ∈ s.ota.windows, e.2.2.kind = 2 → e.1 ≤ number) →
        ∃ u, Gives (.otaWindow t number true factors) s u ∧ u.get Reg.OTA.STATUS.state = 4 ∧ u.ota.now = none ∧ u.out = s.out))

/-- Detections and captures: a metric below the threshold, or a window in which the landing does not receive, has no effect; the first detection
starts a capture; one on the other correlator preempts only a capture that it exceeds by 1536 and before the preamble has passed. A capture that
ends is a false detection, is discarded with a cause, or yields the phase of R489 and its report (R483 to R489). -/
def Claim.OtaReception : Prop :=
  ∀ (s : State) (t : Nat) (k path : Fin 2) (metric : Int) (header : BitVec 64) (streams : List (List Cplx)) (overloads : Nat) (r : State), r = s.atTime t →
    s.ota.captures.length = 2 →
    (s.receivingWindow = none ∨ metric < 64 * (s.get Reg.OTA.DET_CTL.thresh : Nat) → Gives (.otaDetection t k path metric) s r) ∧
    (∀ number x, s.receivingWindow = some (number, x) → 64 * (s.get Reg.OTA.DET_CTL.thresh : Nat) ≤ metric →
      ∀ c : OtaCapture, c = { window := number, path := path.val, metric := metric, preambleEnd := r.arrayNow - 64 * 128 } →
      (s.ota.captures.getD k.val none ≠ none → Gives (.otaDetection t k path metric) s r) ∧
      (s.ota.captures.getD k.val none = none → s.ota.captures.getD (1 - k.val) none = none →
        ∃ u, Gives (.otaDetection t k path metric) s u ∧ u.ota.captures.getD k.val none = some c ∧ u.ota.captures.getD (1 - k.val) none = none ∧
          u.regs = s.regs ∧ u.out = s.out) ∧
      (∀ o, s.ota.captures.getD k.val none = none → s.ota.captures.getD (1 - k.val) none = some o →
        (o.metric + 1536 ≤ metric → r.arrayNow < o.preambleEnd + 512 * 128 →
          ∃ u, Gives (.otaDetection t k path metric) s u ∧ u.ota.captures.getD k.val none = some c ∧ u.ota.captures.getD (1 - k.val) none = none ∧
            u.get Reg.OTA.PREEMPTED.word = (s.get Reg.OTA.PREEMPTED.word + 1) % 2 ^ 32 ∧ SameWords s u [Reg.OTA.PREEMPTED.word.addr]) ∧
        (metric < o.metric + 1536 ∨ o.preambleEnd + 512 * 128 ≤ r.arrayNow → Gives (.otaDetection t k path metric) s r))) ∧
    (s.ota.captures.getD k.val none = none → Gives (.otaCaptureDone t k header streams overloads) s r) ∧
    (∀ c, s.ota.captures.getD k.val none = some c →
      (r.arrayNow < c.preambleEnd + 1024 * 128 → Gives (.otaCaptureDone t k header streams overloads) s r) ∧
      (c.preambleEnd + 1024 * 128 ≤ r.arrayNow →
        ∀ v, v = { r with ota := { r.ota with captures := r.ota.captures.set k.val none } } →
        (s.payload c header.toNat = none → Gives (.otaCaptureDone t k header streams overloads) s (v.bump Reg.OTA.FALSE_DETECT.word)) ∧
        (∀ sender cause, s.payload c header.toNat = some sender →
          cause = r.discardCause c (c.preambleEnd - 512 * 128) (c.preambleEnd + 1024 * 128) overloads →
          (cause ≠ 0 → Gives (.otaCaptureDone t k header streams overloads) s
            ((v.put Reg.OTA.STATUS.last_discard cause).bump Reg.OTA.DISCARD.word)) ∧
          (cause = 0 → s.isTop = true →
            ∃ u, Gives (.otaCaptureDone t k header streams overloads) s u ∧
              u.get Reg.OTA.CAPTURES.word = (s.get Reg.OTA.CAPTURES.word + 1) % 2 ^ 32 ∧ u.ota.accepted = s.ota.accepted ++ [sender] ∧
              u.ota.reports = (s.ota.reports.filter fun e => !(e.1 == s.landing && e.2.1 == sender)) ++
                [(s.landing, sender, phaseOf (sumC ((List.range 768).map fun i => (burstSample i).conj.mul ((s.otaCombined streams).getD i Cplx.zero))), c.metric)] ∧
              SameWords s u [Reg.OTA.CAPTURES.word.addr]) ∧
          (cause = 0 → s.isTop = false →
            Gives (.otaCaptureDone t k header streams overloads) s
              (({ (v.bump Reg.OTA.CAPTURES.word) with ota := { v.ota with accepted := s.ota.accepted ++ [sender] } } : State).sendUp
                (.ota (.report (s.get Reg.OTA.ROUND.number % 256) c.window sender s.landing
                  (phaseOf (sumC ((List.range 768).map fun i => (burstSample i).conj.mul ((s.otaCombined streams).getD i Cplx.zero)))) c.metric)))))))

/-- REPORT, MISSED and STALE go up to the top, which keeps those of the round in progress; the RETRY schedule follows the last BURST window once;
the solution ends reception: staged in STAGE, the landing's part of a transaction in AUTO (R490 to R495, R497). -/
def Claim.OtaSolutions : Prop :=
  ∀ (s : State) (t round window sender receiver phi resid : Nat) (metric : Int) (psi : List (Nat × Nat)) (entries : List (Nat × Nat × Bool))
      (r : State), r = s.atTime t → s.txn.slots.length = 29 →
    (s.isTop = false →
      Gives (.report t round window sender receiver phi metric) s (r.sendUp (.ota (.report round window sender receiver phi metric))) ∧
      Gives (.missed t round window receiver sender) s (r.sendUp (.ota (.missed round window receiver sender))) ∧
      (∀ l, Gives (.stale t l) s (r.sendUp (.ota (.stale l)))) ∧
      Gives (.otaRetrySchedule t) s r ∧ Gives (.otaSolutionDone t psi resid) s r) ∧
    (s.isTop = true →
      (∀ l, Gives (.stale t l) s { r with ota := { r.ota with staleAt := some (max s.now t) } }) ∧
      (s.ota.active = false ∨ round % 256 ≠ s.get Reg.OTA.ROUND.number % 256 →
        Gives (.report t round window sender receiver phi metric) s r ∧ Gives (.missed t round window receiver sender) s r) ∧
      (s.ota.active = true → round % 256 = s.get Reg.OTA.ROUND.number % 256 →
        Gives (.report t round window sender receiver phi metric) s { r with ota := { r.ota with
          reports := (s.ota.reports.filter fun e => !(e.1 == receiver && e.2.1 == sender)) ++ [(receiver, sender, phi, metric)] } } ∧
        Gives (.missed t round window receiver sender) s { r with ota := { r.ota with missed := s.ota.missed ++ [(receiver, sender)] } }) ∧
      (s.ota.active = false ∨ s.ota.retryKnown = true ∨ s.get Reg.OTA.STATUS.state ≠ 2 → Gives (.otaRetrySchedule t) s r) ∧
      (∀ e w, (s.ota.windows.filter fun e => e.2.2.kind == 1).getLast? = some e → s.windowAt e.2.1 = some w →
        (r.arrayNow < w.2 → Gives (.otaRetrySchedule t) s r) ∧
        (w.2 ≤ r.arrayNow → s.ota.active = true → s.ota.retryKnown = false → s.get Reg.OTA.STATUS.state = 2 →
          ∃ u, Gives (.otaRetrySchedule t) s u ∧ u.ota.retryKnown = true ∧
            (u.ota.windows.map fun x => x.2.2) = (s.ota.windows.map fun x => x.2.2) ++ s.retryWindows ∧
            u.get Reg.OTA.ROUND.windows = (s.get Reg.OTA.ROUND.windows + s.retryWindows.length) % 65536 ∧
            u.get Reg.OTA.STATUS.state = (if s.retryWindows = [] then 4 else 2))) ∧
      (s.ota.active = false ∨ s.get Reg.OTA.STATUS.state ≠ 4 → Gives (.otaSolutionDone t psi resid) s r) ∧
      (s.ota.active = true → s.get Reg.OTA.STATUS.state = 4 → s.get Reg.OTA.CTL.mode = 2 → s.ota.staleRound = false →
        s.landing < s.landingCount → (r.slot 28).asking = false →
        ∃ u, Gives (.otaSolutionDone t psi resid) s u ∧ u.get Reg.OTA.PSI.resid = resid % 65536 ∧ u.get Reg.OTA.STATUS.state = 0 ∧
          u.get Reg.OTA.STATUS.done = 1 ∧ u.get Reg.OTA.STATUS.staged = 1 ∧ u.get Reg.OTA.STATUS.unreached = 0 ∧
          u.ota.lastPairs = (s.ota.reports.map fun e => (e.1, e.2.1)) ∧ u.ota.completed = true ∧ u.ota.active = false ∧
          u.ota.newTotal = s.get Reg.OTA.PSI.total)) ∧
    (s.ota.active = true → round % 256 ≠ s.get Reg.OTA.ROUND.number % 256 →
      Gives (.solution t round entries) s (r.sendDown (.ota (.solution round entries)))) ∧
    (s.ota.active = true → round % 256 = s.get Reg.OTA.ROUND.number % 256 → s.get Reg.OTA.CTL.mode = 1 → s.ota.staleRound = false →
      (r.slot 28).asking = false → ∀ p, (entries.find? fun e => e.1 == s.landing) = some (s.landing, p, false) →
      ∀ total, total = (s.get Reg.OTA.PSI.total + p) % 65536 →
      ∃ u, Gives (.solution t round entries) s u ∧ u.get Reg.OTA.STATUS.state = 5 ∧ u.get Reg.OTA.STATUS.unreached = 0 ∧
        u.get Reg.OTA.PSI.total = s.get Reg.OTA.PSI.total ∧
        (u.slot 28).part = some (((List.range 64).map fun i => Effect.reg (Reg.BEAM.TX_CORR.word i).addr (s.derived total i).1) ++
          ((List.range 64).map fun i => Effect.reg (Reg.BEAM.RX_CORR.word i).addr (s.derived total i).2) ++ [Effect.ota total]))

/-! ### Transactions (R500 to R530) -/

/-- OPEN takes the lowest free local slot for its channel, or answers NO_SLOT; OPEN_ARRAY needs a FORMED tree, waits for its ANNOUNCE below the top,
and opens at the top; both are refused while the part is away. TXN_BIND binds a channel to a slot it may use (R502, R503, R520, R573). -/
def Claim.TxnOpening : Prop :=
  ∀ (s : State) (t : Nat) (ch : Channel) (n : Nat) (v : Word) (r : State), r = s.atTime t → s.txn.slots.length = 29 → s.chans.length = 9 →
    (s.reaches t ch Reg.TXN.CMD.word.addr →
      (s.away = true → Gives (.openLocal t ch) s (r.txnDone ch.val resultState) ∧ Gives (.openArray t ch) s (r.txnDone ch.val resultState)) ∧
      (s.away = false →
        ((∀ i, i < 16 → (r.slot i).state ≠ txFree) → Gives (.openLocal t ch) s (r.txnDone ch.val resultNoSlot)) ∧
        (n < 16 → (r.slot n).state = txFree → (∀ i, i < n → (r.slot i).state ≠ txFree) →
          ∃ u, Gives (.openLocal t ch) s u ∧ u.slot n = { TxnSlot.free with state := txOpen, owner := ch.val, id := s.txn.nextId % 2 ^ 31 } ∧
            u.txn.nextId = (s.txn.nextId + 1) % 2 ^ 31 ∧ (∀ i, i ≠ n → u.slot i = r.slot i) ∧ u.regs = s.regs ∧ u.mem = s.mem ∧
            ((u.chan ch.val).bound, (u.chan ch.val).bindSlot, (u.chan ch.val).slot, (u.chan ch.val).result, (u.chan ch.val).busy,
              (u.chan ch.val).done) = (true, n, n, resultOk, false, true)) ∧
        (s.treeState ≠ treeFormed → Gives (.openArray t ch) s (r.txnDone ch.val resultTree)) ∧
        (s.treeState = treeFormed → s.isTop = false →
          ∃ w : State, Gives (.openArray t ch) s (w.sendUp (.txn (.openReq s.landing (s.txn.nextTag % 2 ^ 16)))) ∧ (w.chan ch.val).busy = true ∧
            w.txn.openWait = s.txn.openWait ++ [(s.txn.nextTag % 2 ^ 16, ch.val)] ∧ w.txn.nextTag = s.txn.nextTag + 1 ∧ w.regs = s.regs) ∧
        (s.treeState = treeFormed → s.isTop = true → s.txn.top = [] → s.txn.openWait = [] → (r.slot 16).state = txFree →
          ∃ u, Gives (.openArray t ch) s u ∧ (u.slot 16).state = txOpen ∧ (u.slot 16).array = true ∧ (u.slot 16).owner = ch.val ∧
            (u.slot 16).id = 2 ^ 31 + s.keep.bootCount % 2 ^ 15 * 2 ^ 16 + (s.txn.nextArray + 1) % 2 ^ 16 ∧ u.txn.openWait = [] ∧
            ((u.chan ch.val).bound, (u.chan ch.val).bindSlot, (u.chan ch.val).result, (u.chan ch.val).busy, (u.chan ch.val).done) =
              (true, 16, resultOk, false, true)))) ∧
    (s.reaches t ch Reg.TXN.BIND.word.addr → n = getBits v 0 5 →
      (getBits v 5 1 = 0 → Gives (.txnBind t ch v) s (r.modChan ch.val fun c => { c with bound := false, bindSlot := n })) ∧
      (getBits v 5 1 = 1 → n < 20 → (r.slot n).state ≠ txFree → (r.slot n).array = true ∨ (r.slot n).owner = ch.val →
        Gives (.txnBind t ch v) s (r.modChan ch.val fun c => { c with bound := true, bindSlot := n })) ∧
      (getBits v 5 1 = 1 → 20 ≤ n ∨ (r.slot n).state = txFree ∨ ((r.slot n).array = false ∧ (r.slot n).owner ≠ ch.val) →
        Gives (.txnBind t ch v) s (r.modChan ch.val fun c => { c with bound := false, bindSlot := n, result := resultNotOwner })))

/-- PREPARE, ABORT and RELEASE check, in this order, the slot's number, that it is not FREE, its owner and its state. A local prepare that passes
its checks becomes PREPARED with its resolved time; one that fails ABORTED with the cause. An abort of a local transaction discards what it staged;
a release frees a slot in a final state. LIVE_PREPARE_DONE ends the copying of a live apply (R510 to R516, R519). -/
def Claim.TxnLocal : Prop :=
  ∀ (s : State) (t : Nat) (ch : Channel) (n : Fin 32) (r : State) (x : TxnSlot), r = s.atTime t → x = r.slot n.val →
      s.txn.slots.length = 29 → s.chans.length = 9 → s.txn.commits = [] →
    (s.reaches t ch Reg.TXN.CMD.word.addr → ∀ c, c ∈ [Instr.prepare t ch n, Instr.abort t ch n, Instr.release t ch n] →
      (19 < n.val → Gives c s (r.txnDone ch.val resultCommand)) ∧
      (n.val ≤ 19 → x.state = txFree → Gives c s (r.txnDone ch.val resultState)) ∧
      (n.val ≤ 19 → x.state ≠ txFree → x.array = false → x.owner ≠ ch.val → Gives c s (r.txnDone ch.val resultNotOwner))) ∧
    (s.reaches t ch Reg.TXN.CMD.word.addr → n.val ≤ 19 → x.state ≠ txFree → x.array = false → x.owner = ch.val →
      (x.state ≠ txOpen ∨ x.preparing = true → Gives (.prepare t ch n) s (r.txnDone ch.val resultState)) ∧
      (x.state = txOpen → x.preparing = false → ∀ p, p = r.checkPoint (pointOf (s.word (Reg.TXN.SLOT_CTL.word n.val).addr)) 0 (ticksOfUs 2) →
        (x.poisoned = true → ∃ u, Gives (.prepare t ch n) s u ∧ (u.slot n.val).state = txAborted ∧ (u.slot n.val).cause = causeLimit ∧
          (u.slot n.val).staged = []) ∧
        (x.poisoned = false → p.2 ≠ 0 → ∃ u, Gives (.prepare t ch n) s u ∧ (u.slot n.val).state = txAborted ∧ (u.slot n.val).cause = p.2 ∧
          (u.slot n.val).staged = [] ∧ (u.chan ch.val).result = resultOk) ∧
        (x.poisoned = false → p.2 = 0 → (r.checkStaged n.val p.1 r.arrayNow x.staged).cause ≠ 0 →
          ∃ u, Gives (.prepare t ch n) s u ∧ (u.slot n.val).state = txAborted ∧
            (u.slot n.val).cause = (r.checkStaged n.val p.1 r.arrayNow x.staged).cause ∧
            (u.slot n.val).refuse = (r.checkStaged n.val p.1 r.arrayNow x.staged).refuse ∧ (u.slot n.val).staged = []) ∧
        (x.poisoned = false → p.2 = 0 → (r.checkStaged n.val p.1 r.arrayNow x.staged).cause = 0 → s.livePartial x.staged = none →
          x.part = none → x.live = none →
          ∃ u, Gives (.prepare t ch n) s u ∧ (u.slot n.val).state = txPrepared ∧ (u.slot n.val).time = p.1 ∧ (u.slot n.val).staged = x.staged ∧
            (u.chan ch.val).result = resultOk ∧ (u.chan ch.val).done = true ∧ u.mem = s.mem ∧ u.regs = s.regs ∧
            u.txn.commits.map (fun y => (y.time, y.id, y.slot, y.decided, y.effects)) =
              [(p.1, x.id, some n.val, true, stagedEffects none x.staged)]) ∧
        (∀ q, x.poisoned = false → p.2 = 0 → (r.checkStaged n.val p.1 r.arrayNow x.staged).cause = 0 → s.livePartial x.staged = some q →
          ∃ u, Gives (.prepare t ch n) s u ∧ (u.slot n.val).state = txOpen ∧ (u.slot n.val).preparing = true ∧ (u.slot n.val).live = some q ∧
            (u.chan ch.val).busy = true ∧ u.dueAt (.livePrepare n.val) = some (max s.now t + installTicks q))) ∧
      (x.state = txOpen ∨ x.state = txPrepared → ∃ u, Gives (.abort t ch n) s u ∧ (u.slot n.val).state = txAborted ∧
        (u.slot n.val).cause = causeHost ∧ (u.slot n.val).staged = [] ∧ (u.chan ch.val).result = resultOk ∧ (u.chan ch.val).done = true ∧
        u.regs = s.regs ∧ u.mem = s.mem) ∧
      (x.state = txCommitted → ∃ u, Gives (.abort t ch n) s u ∧ (u.slot n.val).state = txTooLate ∧ (u.chan ch.val).result = resultOk) ∧
      (x.state = txAborted ∨ x.state = txTooLate → Gives (.abort t ch n) s (r.txnDone ch.val resultState)) ∧
      (x.final = true → ∃ u, Gives (.release t ch n) s u ∧ u.slot n.val = TxnSlot.free ∧ (∀ i, i ≠ n.val → u.slot i = r.slot i) ∧
        (u.chan ch.val).result = resultOk ∧ u.regs = s.regs ∧ u.mem = s.mem) ∧
      (x.final = false → Gives (.release t ch n) s (r.txnDone ch.val resultState))) ∧
    (∀ m : Fin 20, m.val = n.val →
      (r.due (.livePrepare m.val) = false → Gives (.livePrepareDone t m) s r) ∧
      (r.due (.livePrepare m.val) = true → x.array = false →
        (s.livePartial x.staged ≠ none → ∃ u, Gives (.livePrepareDone t m) s u ∧ (u.slot m.val).state = txPrepared ∧
          (u.slot m.val).preparing = false ∧ (u.slot m.val).time = x.time) ∧
        (s.livePartial x.staged = none → ∃ u, Gives (.livePrepareDone t m) s u ∧ (u.slot m.val).state = txAborted ∧
          (u.slot m.val).cause = causeLive ∧ u.get Reg.IMAGE.STATUS.code = codeNotReady)))

/-- Array-wide transactions reach the top as requests, which the top answers: OPEN_REQ opens the lowest slot from 16 on, PREPARE_REQ resolves T and D
or decides ABORT, ABORT_REQ decides ABORT with cause HOST while undecided. ANNOUNCE is held by every landing and binds the channel that asked
(R520, R521, R524). -/
def Claim.TxnRequests : Prop :=
  ∀ (s : State) (t landing tag id slot origin result : Nat) (point : Word) (r : State), r = s.atTime t → s.txn.slots.length = 29 →
      s.chans.length = 9 →
    (s.isTop = false → Gives (.openReq t landing tag) s (r.sendUp (.txn (.openReq landing tag))) ∧
      Gives (.prepareReq t id point) s (r.sendUp (.txn (.prepareReq id point))) ∧
      Gives (.abortReq t id landing) s (r.sendUp (.txn (.abortReq id landing)))) ∧
    (s.isTop = true → s.txn.top = [] → (r.slot 16).state = txFree →
      ∃ u, Gives (.openReq t landing tag) s u ∧ (u.slot 16).state = txOpen ∧ (u.slot 16).array = true ∧ (u.slot 16).origin = landing ∧
        (u.slot 16).tag = tag ∧ (u.slot 16).id = 2 ^ 31 + s.keep.bootCount % 2 ^ 15 * 2 ^ 16 + (s.txn.nextArray + 1) % 2 ^ 16 ∧
        u.txn.top.map (fun x => (x.id, x.slot, x.prepared, x.decision)) = [((u.slot 16).id, 16, false, none)]) ∧
    (s.isTop = true → (∀ m ∈ [16, 17, 18, 19], ∃ x ∈ s.txn.top, x.slot = m ∧ x.decision = none) →
      Gives (.openReq t landing tag) s (r.announced 0 0 landing tag resultNoSlot)) ∧
    (result ≠ 0 → origin ≠ s.landing →
      Gives (.announce t id slot origin tag result) s (r.sendDown (.txn (.announce id slot origin tag result)))) ∧
    (slot < 20 → (r.slot slot).state ≠ txPrepared → ((r.slot slot).state = txOpen → (r.slot slot).asking = false) → origin ≠ s.landing →
      ∃ u, Gives (.announce t id slot origin tag 0) s u ∧
        u.slot slot = { TxnSlot.free with state := txOpen, array := true, id := id, origin := origin, tag := tag, part := (r.slot slot).part } ∧
        ∀ i, i ≠ slot → u.slot i = r.slot i) ∧
    (∀ ch : Channel, s.txn.openWait = [(tag, ch.val)] → slot < 20 → origin = s.landing →
      (result ≠ 0 → ∃ u, Gives (.announce t id slot origin tag result) s u ∧ (u.chan ch.val).result = resultNoSlot ∧
        (u.chan ch.val).busy = false ∧ u.txn.openWait = []) ∧
      (∃ u, Gives (.announce t id slot origin tag 0) s u ∧ (u.slot slot).owner = ch.val ∧ (u.chan ch.val).bound = true ∧
        (u.chan ch.val).bindSlot = slot ∧ (u.chan ch.val).result = resultOk ∧ (u.chan ch.val).busy = false)) ∧
    (s.isTop = true → s.topTxn id = none → Gives (.prepareReq t id point) s r ∧ Gives (.abortReq t id landing) s r) ∧
    (∀ x, s.isTop = true → s.topTxn id = some x →
      (x.decision ≠ none → Gives (.prepareReq t id point) s r ∧ Gives (.abortReq t id landing) s r) ∧
      (x.prepared = true → Gives (.prepareReq t id point) s r) ∧
      (x.decision = none → s.slotOf id = none →
        ∃ u, Gives (.abortReq t id landing) s u ∧ (u.topTxn id).map (fun y => y.decision) = some (some (false, causeHost, 0xFFFF))) ∧
      (x.prepared = false → x.decision = none → ∀ g p, g = ticksOfUs (s.get Reg.TXN.ARRAY_CTL.guard) →
        p = r.checkPoint (pointOf point) g (ticksOfNs (5000 + 1200 * s.get Reg.STAIR.TREE.formed_path)) →
        (p.2 ≠ 0 → r.slotOf id = none →
          ∃ u, Gives (.prepareReq t id point) s u ∧ (u.topTxn id).map (fun y => y.decision) = some (some (false, p.2, 0xFFFF))) ∧
        (∀ n, p.2 = 0 → r.slotOf id = some n → n < 20 →
          ∃ u, Gives (.prepareReq t id point) s u ∧
            (u.topTxn id).map (fun y => (y.prepared, y.time, y.decideAt)) = some (true, p.1, p.1 - g))))

/-- PREPARE and VOTE: a landing that does not hold the transaction votes NOT_HELD; one that passes its checks and has no children votes YES with
the resolved times; the top decides COMMIT when every landing has voted YES and ABORT, with cause PEER and the landing, at a NO
(R522, R523, R525). -/
def Claim.TxnVotes : Prop :=
  ∀ (s : State) (t id time decide carrier yes no cause n : Nat) (port : Fin 4) (r : State) (x : TxnSlot), r = s.atTime t → x = r.slot n →
      s.txn.slots.length = 29 →
    (r.slotOf id = none → s.isTop = false →
      Gives (.prepareMessage t id time decide carrier) s
        ((r.sendDown (.txn (.prepare id time decide carrier))).sendUp (.txn (.vote id 0 s.landing causeNotHeld))) ∧
      Gives (.vote t port id yes no cause) s (r.sendUp (.txn (.vote id yes no cause)))) ∧
    (r.slotOf id = none → s.isTop = true → Gives (.vote t port id yes 0xFFFF cause) s r) ∧
    (r.slotOf id = some n → n < 20 → s.isTop = false → s.childPorts = [] → x.state = txOpen → x.poisoned = false → x.no = none → x.voted = 0 →
      s.isOwnBoundary carrier time = true → (r.checkStaged n time r.arrayNow x.staged).cause = 0 → s.livePartial x.staged = none →
      ∃ u, Gives (.prepareMessage t id time decide carrier) s u ∧ (u.slot n).state = txPrepared ∧ (u.slot n).time = time ∧
        (u.slot n).decideAt = decide ∧ (u.slot n).ownYes = true ∧ (u.slot n).voted = 1 ∧ (u.slot n).staged = x.staged) ∧
    (r.slotOf id = some n → n < 20 → s.isTop = false → s.childPorts = [] → x.poisoned = false → x.no = none → s.isOwnBoundary carrier time = false →
      ∃ u, Gives (.prepareMessage t id time decide carrier) s u ∧ (u.slot n).no = some (s.landing, causeCarrier) ∧ (u.slot n).voted = 2) ∧
    (∀ y, r.slotOf id = some n → n < 20 → s.isTop = true → s.topTxn id = some y → y.decision = none → x.no = none → x.verdict = none →
      x.inDoubt = false → x.state = txOpen ∨ x.state = txPrepared →
      (x.ownYes = true → x.voted = 0 → x.childYes = [] → x.aborters = [] → yes + 1 = s.landingCount →
        ∃ u, Gives (.vote t port id yes 0xFFFF cause) s u ∧ (u.slot n).state = txCommitted ∧ u.txn.outcomes.head? = some (id, txCommitted) ∧
          (u.topTxn id).map (fun z => z.decision) = some (some (true, 0, 0xFFFF)) ∧ ∀ z ∈ u.txn.commits, z.id = id → z.decided = true) ∧
      (x.ownYes = true → x.voted = 0 → x.childYes = [] → yes + 1 < s.landingCount →
        ∃ u, Gives (.vote t port id yes 0xFFFF cause) s u ∧ (u.slot n).state = x.state ∧ (u.slot n).childYes = [(port.val, yes)] ∧
          u.txn.top = s.txn.top) ∧
      (no ≠ 0xFFFF → ∃ u, Gives (.vote t port id yes no cause) s u ∧ (u.slot n).state = txAborted ∧ (u.slot n).cause = causePeer ∧
        (u.slot n).peerCause = cause ∧ (u.slot n).peer = no ∧ (u.slot n).staged = [] ∧ u.txn.outcomes.head? = some (id, txAborted)))

/-- A decision takes effect in the slot that holds the transaction, later where the landing is in doubt; at D without one the top decides ABORT with
cause TIMEOUT; QUERY is answered by a landing that knows the decision and goes up from one that does not, again every 100 µs from a landing in
doubt; HOLD tells the parent from which symbol on a child is missing (R512, R523, R525 to R528). -/
def Obligations.TxnDecisions : Prop :=
  ∀ (s : State) (t id cause landing n carrier symbol : Nat) (commit : Bool) (port : Fin 4) (slot : Fin 29) (r : State) (x : TxnSlot),
      r = s.atTime t → x = r.slot n → s.txn.slots.length = 29 → s.stair.ports.length = 4 →
    (r.slotOf id = none → Gives (.decision t id commit cause landing) s (r.sendDown (.txn (.decision id commit cause landing)))) ∧
    (r.slotOf id = some n → n < 20 → x.state = txOpen ∨ x.state = txPrepared → x.verdict = none →
      (x.inDoubt = true → ∃ u, Gives (.decision t id commit cause landing) s u ∧ (u.slot n).verdict = some (commit, cause, landing, r.inOneMs) ∧
        (u.slot n).state = x.state ∧ u.dueAt (.query n) = none) ∧
      (x.inDoubt = false → x.aborters = [] →
        ∃ u, Gives (.decision t id commit cause landing) s u ∧ (u.slot n).state = (if commit then txCommitted else txAborted) ∧
          u.txn.outcomes.head? = some (id, if commit then txCommitted else txAborted) ∧ (u.slot n).waiters = [] ∧
          (commit = false → (u.slot n).cause = (if landing = 0xFFFF then cause else causePeer) ∧ (u.slot n).staged = [] ∧
            ∀ y ∈ u.txn.commits, y.id = id → y.latched = true))) ∧
    (r.due (.decide slot.val) = false → Gives (.txnDecisionTimeout t slot) s r) ∧
    (r.due (.decide slot.val) = true →
      ((∀ y ∈ s.txn.top, y.slot = slot.val → y.decision ≠ none) → Gives (.txnDecisionTimeout t slot) s (r.disarm (.decide slot.val))) ∧
      (∀ y, s.txn.top = [y] → y.slot = slot.val → y.decision = none → r.slotOf y.id = none →
        ∃ u, Gives (.txnDecisionTimeout t slot) s u ∧ u.txn.top = [{ y with decision := some (false, causeTimeout, 0xFFFF) }])) ∧
    (∀ y d, s.topTxn id = some y → y.decision = some d →
      Gives (.query t port id landing) s (r.sendOn port.val (.txn (.decision id d.1 d.2.1 d.2.2)))) ∧
    (s.topTxn id = none → r.slotOf id = none →
      (assoc? s.txn.outcomes id = none → Gives (.query t port id landing) s (r.sendUp (.txn (.query id landing)))) ∧
      (∀ o, assoc? s.txn.outcomes id = some o →
        Gives (.query t port id landing) s (r.sendOn port.val (.txn (.decision id (o == txCommitted) causeTop 0xFFFF))))) ∧
    (r.due (.query slot.val) = false → Gives (.queryRetry t slot) s r) ∧
    (r.due (.query slot.val) = true →
      ((r.slot slot.val).inDoubt = true → (r.slot slot.val).state = txPrepared → (r.slot slot.val).verdict = none →
        Gives (.queryRetry t slot) s
          ((r.sendUp (.txn (.query (r.slot slot.val).id s.landing))).arm (.query slot.val) (max s.now t + ticksOfUs 100))) ∧
      ((r.slot slot.val).inDoubt = false ∨ (r.slot slot.val).state ≠ txPrepared ∨ (r.slot slot.val).verdict ≠ none →
        Gives (.queryRetry t slot) s (r.disarm (.query slot.val)))) ∧
    (∃ u, Gives (.hold t port id false carrier symbol) s u ∧ (u.sPort port.val).heldFrom = none ∧ u.regs = s.regs) ∧
    (65536 ≤ (r.form carrier).symbolAt r.arrayNow → symbol < 65536 →
      ∃ u k, Gives (.hold t port id true carrier symbol) s u ∧ (u.sPort port.val).heldFrom = some ((r.form carrier).boundary k) ∧
        k % 65536 = symbol ∧ u.regs = s.regs ∧ u.out = s.out) ∧
    (s.isTop = false → ∀ l, Gives (.outcomes t landing l) s (r.sendUp (.txn (.outcomes landing l)))) ∧
    (s.isTop = true → s.treeState ≠ treeForming → ∀ l, (∀ e ∈ l, e.2 ≠ txPrepared) → Gives (.outcomes t landing l) s r) ∧
    (s.isTop = true → s.treeState = treeForming → s.treeOf.joined = [] → 1 < s.landingCount →
      ∃ u, Gives (.outcomes t landing []) s u ∧ u.treeOf.outcomesFrom = s.treeOf.outcomesFrom ++ [landing] ∧ u.treeState = treeForming) ∧
    (∀ c, s.txn.commits = [c] → c.decided = true → c.latched = false → c.slot = some n → x.id = c.id → x.state = txPrepared → x.array = false →
      c.id < 2 ^ 32 →
      (c.time ≤ r.arrayNow + ticksOfUs 1 → ∃ u, Gives (.commitLatch t) s u ∧ (u.slot n).state = txCommitted ∧
        u.get Reg.TXN.LAST_COMMIT.word = c.id ∧ u.txn.commits = [{ c with latched := true }] ∧ u.mem = s.mem)) ∧
    (s.txn.commits = [] → n < 29 → x.array = true → x.state = txPrepared → x.inDoubt = false → x.time ≤ r.arrayNow + ticksOfUs 1 →
      ∃ u, Gives (.commitLatch t) s u ∧ (u.slot n).state = txPrepared ∧ (u.slot n).inDoubt = true ∧
        u.dueAt (.query n) = some (max s.now t + ticksOfUs 100)) ∧
    (s.txn.commits = [] → (∀ y ∈ r.txn.slots, y.array = false ∨ y.state ≠ txPrepared) → Gives (.commitLatch t) s r)

/-! ### Recovery (R536 to R545) -/

/-- Halls and pipelines. A failed tile's hall moves to a free alcove and its work is replayed from its checkpoint; with none free it takes the tile
of a preemptible hall of lower priority where the policy allows, or is given up. An idle alcove's fault is recorded at once. A failed pipeline's
path moves to a spare, or leaves service (R536, R540, R541, R741). -/
def Claim.RecoverUnits : Prop :=
  ∀ (s : State) (t : Nat) (tile : Fin 144) (p : Fin 64) (carriers : Nat) (r : State), r = s.atTime t → s.halls.length = 136 →
      s.alcoves.length = 8 → s.recov.pipes.length = 4 →
    (136 ≤ tile.val → (s.alcoves.getD (tile.val - 136) { serves := none, retired := true }).retired = true →
      Gives (.hallFault t tile carriers) s r) ∧
    (136 ≤ tile.val → s.alcoves.getD (tile.val - 136) { serves := none, retired := true } = { serves := none, retired := false } →
      ∃ u, Gives (.hallFault t tile carriers) s u ∧ u.alcoves = s.alcoves.set (tile.val - 136) { serves := none, retired := true } ∧
        u.newest = some (1, 1, unitHall, tile.val) ∧ u.get Reg.HOST.INT_STATUS.fault = 1 ∧ u.halls = s.halls) ∧
    (tile.val < 136 → (∀ h, h < 136 → (s.hall h).tile ≠ some tile.val) → Gives (.hallFault t tile carriers) s r) ∧
    (∀ h, tile.val < 136 → (List.range 136).find? (fun h => (s.hall h).tile == some tile.val) = some h → s.recovOf 1 h = none →
      (∀ k, (s.alcoves.findIdx? fun a => !a.retired && a.serves.isNone) = some k →
        ∃ u, Gives (.hallFault t tile carriers) s u ∧ (u.hall h).tile = some (136 + k) ∧
          u.alcoves.getD k { serves := none, retired := true } = { serves := some h, retired := false } ∧
          u.recov.running = s.recov.running ++
            [{ r.newRecov 1 unitHall h 1 (136 + k) (carriers % 256) with detail := (s.hall h).check.pc }] ∧ u.log = s.log ∧ u.mem = s.mem) ∧
      ((∀ a ∈ s.alcoves, a.retired = true ∨ a.serves ≠ none) →
        (s.faultPreempt = false → s.isWedged .halls = false →
          ∃ u, Gives (.hallFault t tile carriers) s u ∧ (u.hall h).wedged = true ∧ (u.hall h).tile = none ∧ u.isWedged .halls = true ∧
            u.get Reg.RECOVERY.STATUS.wedged_any = 1 ∧ u.newest = some (6, 1, unitHall, h) ∧ u.get Reg.HOST.INT_STATUS.alarm = 1 ∧
            u.get Reg.HOST.INT_STATUS.degradation = 1) ∧
        (∀ v tv, s.faultPreempt = true → s.victim h = some v → v < 136 → (s.hall v).tile = some tv →
          ∃ u, Gives (.hallFault t tile carriers) s u ∧ (u.hall v).evicted = true ∧ (u.hall v).tile = none ∧ (u.hall h).tile = some tv ∧
            u.newest = some (2, 0, unitHall, v) ∧ u.get Reg.HOST.INT_STATUS.degradation = 1))) ∧
    (p.val ∈ s.recov.pathsOut → Gives (.pipeFault t p) s r) ∧
    (p.val ∉ s.recov.pathsOut → s.recovOf 2 p.val = none → (∀ x ∈ s.recov.pipes, x.serves ≠ some p.val) →
      (∀ k, (s.recov.pipes.findIdx? fun x => !x.retired && x.serves.isNone) = some k →
        ∃ u, Gives (.pipeFault t p) s u ∧ u.recov.pipes = s.recov.pipes.set k { serves := some p.val, retired := false } ∧
          u.get ⟨Reg.RECOVERY.PIPE_MAP.word.addr, 8 * k, 8⟩ = p.val ∧ u.recov.pathsOut = s.recov.pathsOut ∧
          u.recov.running = s.recov.running ++ [{ r.newRecov 2 unitPath p.val 1 k r.activeMask with path := some p.val }] ∧ u.log = s.log) ∧
      ((∀ x ∈ s.recov.pipes, x.retired = true ∨ x.serves ≠ none) →
        ∃ u, Gives (.pipeFault t p) s u ∧ u.recov.pathsOut = s.recov.pathsOut ++ [p.val] ∧ u.newest = some (2, 0, unitPath, p.val) ∧
          u.get Reg.HOST.INT_STATUS.degradation = 1 ∧ u.recov.running = s.recov.running))

/-- The beam engine and the atrium replay in place, and a second fault in the same work wedges them; a corridor hop is counted, a persistent fault
wedges the corridors; REPLAY_DONE ends a recovery with its record, and does nothing where none runs (R536, R543 to R545). -/
def Claim.RecoverInPlace : Prop :=
  ∀ (s : State) (t : Nat) (h : Fin 136) (carriers cls inst : Nat) (r : State), r = s.atTime t →
    (s.isWedged .beam = true → Gives (.beamFault t) s r) ∧ (s.isWedged .atrium = true → Gives (.atriumFault t carriers) s r) ∧
    (s.isWedged .beam = false → s.recovOf 3 0 = none → Gives (.beamFault t) s (r.beginRecov (r.newRecov 3 unitBeam 0 2 0xFFFF r.activeMask))) ∧
    (s.isWedged .atrium = false → s.recovOf 4 0 = none →
      Gives (.atriumFault t carriers) s (r.beginRecov (r.newRecov 4 unitAtrium 0 2 0xFFFF (carriers % 256)))) ∧
    (∀ x, s.isWedged .beam = false → s.recovOf 3 0 = some x →
      ∃ u, Gives (.beamFault t) s u ∧ u.isWedged .beam = true ∧ u.get Reg.RECOVERY.STATUS.wedged_any = 1 ∧ u.newest = some (6, 3, unitBeam, 0) ∧
        u.get Reg.HOST.INT_STATUS.alarm = 1 ∧ u.faultAsserted = true) ∧
    (∀ x, s.isWedged .atrium = false → s.recovOf 4 0 = some x →
      ∃ u, Gives (.atriumFault t carriers) s u ∧ u.isWedged .atrium = true ∧ u.get Reg.RECOVERY.STATUS.wedged_any = 1 ∧
        u.newest = some (6, 4, unitAtrium, 0) ∧ u.get Reg.HOST.INT_STATUS.alarm = 1) ∧
    Gives (.corridorCrcError t h false) s { r with recov := { r.recov with hops := s.recov.hops + 1 } } ∧
    (s.isWedged .corridors = false →
      ∃ u, Gives (.corridorCrcError t h true) s u ∧ u.recov.hops = s.recov.hops + 1 ∧ u.isWedged .corridors = true ∧
        u.newest = some (6, 0x0F, unitCorridor, h.val) ∧ u.get Reg.HOST.INT_STATUS.alarm = 1) ∧
    (s.recovOf cls inst = none → Gives (.replayDone t cls inst) s r) ∧
    (∀ x, s.recovOf cls inst = some x →
      ∃ u, Gives (.replayDone t cls inst) s u ∧ u.recovOf cls inst = none ∧ u.newest = some (1, cls, x.unit, inst) ∧
        u.get Reg.HOST.INT_STATUS.fault = 1 ∧ (x.degrades = true → u.get Reg.HOST.INT_STATUS.degradation = 1) ∧
        (u.log.head?.map fun y => y.carriers) = some x.mask ∧ u.mem = s.mem ∧
        u.get Reg.RECOVERY.REPLAY_MAX.tenths =
          max (min 65535 ((max s.now t - x.at_) * 10000 / 3932160)) (s.get Reg.RECOVERY.REPLAY_MAX.tenths))

/-- Banks of shared memory: an uncorrectable word gives the bank's number to a spare and its work is recovered; with none free the bank is lost,
recorded, and the wedged function shows where the plan no longer fits. A scrub pass of a marked bank copies it to a spare at the policy's
threshold (R536, R537, R542). -/
def Obligations.RecoveryOfBanks : Prop :=
  ∀ (s : State) (t : Nat) (b : Fin 768) (word carriers corrected : Nat) (held : List (Nat × Nat × Nat)) (bad : Option Nat) (r : State),
      r = s.atTime t →
    (s.bankLost b.val = true → Gives (.bankUncorrectable t b word carriers held) s r ∧ Gives (.scrubPass t b corrected bad) s r) ∧
    (s.bankLost b.val = false → (∀ x ∈ s.recov.banks, x.serves ≠ some b.val) →
      (∀ k, (s.recov.banks.findIdx? fun x => !x.retired && x.serves.isNone) = some k →
        ∃ u, Gives (.bankUncorrectable t b word carriers held) s u ∧
          u.recov.banks = s.recov.banks.set k { serves := some b.val, retired := false } ∧
          (∃ x ∈ u.recov.running, x.cls = 6 ∧ x.unit = unitMemory ∧ x.inst = b.val ∧ x.spare = k) ∧ u.bankLost b.val = false) ∧
      ((∀ x ∈ s.recov.banks, x.retired = true ∨ x.serves ≠ none) → s.bankKind b.val ∉ needKinds →
        ∃ u, Gives (.bankUncorrectable t b word carriers held) s u ∧ u.bankLost b.val = true ∧ u.newest = some (2, 0, unitMemory, b.val) ∧
          u.get Reg.HOST.INT_STATUS.degradation = 1)) ∧
    ((∀ x, s.bankRec b.val = some x → bit x.flags 1 = false) → Gives (.scrubPass t b corrected bad) s r) ∧
    (s.faultMigrate = 0 ∨ corrected < s.faultMigrate ∨ (s.recovOf 5 b.val).isSome = true → Gives (.scrubPass t b corrected none) s r) ∧
    (∀ x k, s.bankRec b.val = some x → bit x.flags 1 = true → s.bankLost b.val = false → s.faultMigrate ≠ 0 → s.faultMigrate ≤ corrected →
      s.recovOf 5 b.val = none → (∀ x ∈ s.recov.banks, x.serves ≠ some b.val) →
      (s.recov.banks.findIdx? fun x => !x.retired && x.serves.isNone) = some k →
      ∃ u, Gives (.scrubPass t b corrected none) s u ∧ u.recov.banks = s.recov.banks.set k { serves := some b.val, retired := false } ∧
        (∃ y ∈ u.recov.running, y.cls = 5 ∧ y.inst = b.val ∧ y.spare = k) ∧ u.log = s.log)

/-! ### Clocks (R594 to R623) -/

/-- REFCLK: its loss opens the loop into holdover, which reaches its limit once and is left when REFCLK, accepted at its rate, has pulled in; an
event record marks the loss (R595, R605 to R607). -/
def Claim.Refclk : Prop :=
  ∀ (s : State) (t hz us : Nat) (r : State), r = s.atTime t →
    (s.get Reg.CLOCK.REF_STATUS.refclk_ok = 0 → Gives (.refclkLoss t) s r ∧ Gives (.refPullEnd t) s r) ∧
    (s.get Reg.CLOCK.REF_STATUS.refclk_ok = 1 →
      (∃ u, Gives (.refclkLoss t) s u ∧ u.get Reg.CLOCK.REF_STATUS.refclk_ok = 0 ∧ u.get Reg.CLOCK.REF_STATUS.holdover = 1 ∧
        u.clock.lostAt = some (max s.now t) ∧ (u.get Reg.CLOCK.ISLAND_STATUS.locked).testBit 0 = false ∧
        u.get (Reg.CLOCK.ISLAND_CNT.losses 0) = (s.get (Reg.CLOCK.ISLAND_CNT.losses 0) + 1) % 256 ∧ u.newest = some (3, 0, unitClock, 0) ∧
        u.get Reg.HOST.INT_STATUS.event = 1 ∧ u.carriers = s.carriers) ∧
      Gives (.refPullEnd t) s { r.put Reg.CLOCK.REF_STATUS.holdover 0 with clock := { r.clock with lostAt := none } } ∧
      Gives (.refHoldoverLimit t) s r) ∧
    (s.get Reg.CLOCK.REF_CTL.holdover_max = 0 ∨ s.get Reg.CLOCK.REF_STATUS.ref_stop = 1 ∨ s.clock.lostAt = none → Gives (.refHoldoverLimit t) s r) ∧
    (∀ a, s.clock.lostAt = some a →
      (max s.now t < a + ticksOfMs (100 * s.get Reg.CLOCK.REF_CTL.holdover_max) → Gives (.refHoldoverLimit t) s r) ∧
      (a + ticksOfMs (100 * s.get Reg.CLOCK.REF_CTL.holdover_max) ≤ max s.now t → s.get Reg.CLOCK.REF_CTL.holdover_max ≠ 0 →
        s.get Reg.CLOCK.REF_STATUS.refclk_ok = 0 → s.get Reg.CLOCK.REF_STATUS.ref_stop = 0 →
        ∃ u, Gives (.refHoldoverLimit t) s u ∧ u.get Reg.CLOCK.REF_STATUS.ref_stop = 1 ∧ u.newest = some (2, 0, unitClock, 0) ∧
          u.get Reg.HOST.INT_STATUS.degradation = 1 ∧ ∀ c ∈ s.runningCarriers, (s.form c).joint = true → u.running c = false)) ∧
    (s.get Reg.CLOCK.REF_STATUS.rate = 3 → refRate hz = 3 → Gives (.refclkAccept t hz us) s r) ∧
    (s.get Reg.CLOCK.REF_STATUS.rate ≠ 3 →
      refRate hz ≠ s.get Reg.CLOCK.REF_STATUS.rate ∨ us < 10000 ∨ s.get Reg.CLOCK.REF_STATUS.refclk_ok = 1 → Gives (.refclkAccept t hz us) s r) ∧
    ((s.get Reg.CLOCK.REF_STATUS.rate = 3 ∧ refRate hz ≠ 3) ∨
        (s.get Reg.CLOCK.REF_STATUS.rate ≠ 3 ∧ refRate hz = s.get Reg.CLOCK.REF_STATUS.rate ∧ s.get Reg.CLOCK.REF_STATUS.refclk_ok = 0 ∧ 10000 ≤ us) →
      ∃ u, Gives (.refclkAccept t hz us) s u ∧ u.get Reg.CLOCK.REF_STATUS.rate = refRate hz ∧ u.get Reg.CLOCK.REF_STATUS.refclk_ok = 1 ∧
        u.get Reg.CLOCK.REF_STATUS.ref_stop = 0 ∧ (u.get Reg.CLOCK.ISLAND_STATUS.locked).testBit 0 = true ∧
        (u.get Reg.CLOCK.ISLAND_STATUS.running).testBit 0 = true ∧
        SameWords s u [Reg.CLOCK.REF_STATUS.word.addr, Reg.CLOCK.ISLAND_STATUS.word.addr])

/-- Array time's source: the loss of the selected master chooses another source, or leaves holdover; SYNC_IN is measured against its nearest
boundary, and an ALIGN that waits steps array time at the next edge (R410, R598, R602, R603). -/
def Claim.TimeSources : Prop :=
  ∀ (s : State) (t : Nat) (ch : Channel) (r v : State), r = s.atTime t →
    (s.ptpPort = none → Gives (.sourceLoss t) s r.chooseSource) ∧
    (∀ n, s.ptpPort = some n → v = { r with fh := { r.fh with masters := s.fh.masters.set n none } } →
      (v.wantedSource = none → ∃ u, Gives (.sourceLoss t) s u ∧ u.get Reg.CLOCK.TIME_STATUS.state = timeHoldover ∧
        u.get Reg.CLOCK.REF_STATUS.source = s.get Reg.CLOCK.REF_STATUS.source ∧ u.fh.masters = s.fh.masters.set n none) ∧
      (v.wantedSource = some srcFree → ∃ u, Gives (.sourceLoss t) s u ∧ u.get Reg.CLOCK.TIME_STATUS.state = timeFree ∧
        u.get Reg.CLOCK.REF_STATUS.source = srcFree ∧ u.get Reg.CLOCK.REF_STEER.word = 0)) ∧
    (s.get Reg.CLOCK.SYNC_CTL.mode = 0 ∨ s.clock.started = false → Gives (.syncInEdge t) s r) ∧
    (s.get Reg.CLOCK.SYNC_CTL.mode ≠ 0 → s.clock.started = true →
      ∀ o, o = syncOffset (syncPeriod (s.get Reg.CLOCK.SYNC_CTL.mode)) r.arrayNow →
      (s.clock.alignArmed = false ∨ s.get Reg.CLOCK.TIME_STATUS.state ≠ timeFree →
        Gives (.syncInEdge t) s (r.putS Reg.CLOCK.SYNC_OFFSET.word o)) ∧
      (s.clock.alignArmed = true → s.get Reg.CLOCK.TIME_STATUS.state = timeFree → s.get Reg.CLOCK.REF_CTL.step_en = 1 → s.clock.stepDue = none →
        ∃ u, Gives (.syncInEdge t) s u ∧ u.clock.alignArmed = false ∧ u.clock.stepDue = some (-o) ∧
          u.getS Reg.CLOCK.SYNC_OFFSET.word = o ∧ u.clock.offset = s.clock.offset)) ∧
    (s.reaches t ch Reg.CLOCK.SYNC_CTL.word.addr → Gives (.align t ch) s { r with clock := { r.clock with alignArmed := true } })

/-- Islands: a loss of lock is counted, and the synthesiser restarts; a restart that finds lock runs the island again; the third attempt of 1 ms
without lock gives the island up as its row of R621 says (R608 to R611, R621). -/
def Claim.Islands : Prop :=
  ∀ (s : State) (t : Nat) (n : Fin 8) (unit : Fin 2) (r : State), r = s.atTime t → s.clock.restarting.length = 8 → s.clock.attempts.length = 8 →
      s.clock.cnvRestarting.length = 2 → s.clock.cnvAttempts.length = 2 → s.fh.ports.length = 8 →
    (4 ≤ n.val → (s.get Reg.CLOCK.ISLAND_STATUS.locked).testBit n.val = false → Gives (.synthLockLoss t n) s r) ∧
    (n = 0 → Gives (.synthLockLoss t n) s r.refLost) ∧ (n = 1 → Gives (.synthLockLoss t n) s (r.loLockLoss 0)) ∧
    (n = 2 → Gives (.synthLockLoss t n) s (r.loLockLoss 1)) ∧
    (n = 3 → Gives (.synthLockLoss t n) s (if s.get Reg.CLOCK.CNV_STATUS.tracking = 1 then r.cnvHandover else r.cnvStops)) ∧
    (4 ≤ n.val → (s.get Reg.CLOCK.ISLAND_STATUS.locked).testBit n.val = true →
      ∃ u, Gives (.synthLockLoss t n) s u ∧ (u.get Reg.CLOCK.ISLAND_STATUS.locked).testBit n.val = false ∧
        u.get (Reg.CLOCK.ISLAND_CNT.losses n.val) = (s.get (Reg.CLOCK.ISLAND_CNT.losses n.val) + 1) % 256 ∧
        u.clock.restarting.getD n.val false = true ∧
        (n = 4 → ∀ p, p < 8 → u.fhPortState p ≠ fhUp) ∧
        (n = 6 → u.get Reg.CLOCK.TIME_STATUS.carried = 1 ∧ u.clock.frozen = (if s.clock.cnvStopped then some r.arrayNow else none) ∧
          u.newest = some (3, 0, unitClock, 6)) ∧
        (n = 7 → (u.get Reg.CLOCK.ISLAND_STATUS.running).testBit 7 = true ∧ u.newest = some (3, 0, unitClock, 7))) ∧
    (n ≠ 3 → s.clock.restarting.getD n.val false = false →
      Gives (.synthLockDeclared t n unit) s r ∧ Gives (.synthAttemptTimeout t n unit) s r) ∧
    (n ≠ 3 → s.clock.restarting.getD n.val false = true →
      (∃ u, Gives (.synthLockDeclared t n unit) s u ∧ (u.get Reg.CLOCK.ISLAND_STATUS.locked).testBit n.val = true ∧
        (u.get Reg.CLOCK.ISLAND_STATUS.running).testBit n.val = true ∧ u.clock.restarting.getD n.val true = false ∧
        (n = 6 → u.dueAt .tim = some (max s.now t + ticksOfUs 100))) ∧
      ∃ u, Gives (.synthAttemptTimeout t n unit) s u ∧
        u.get (Reg.CLOCK.ISLAND_CNT.failed n.val) = (s.get (Reg.CLOCK.ISLAND_CNT.failed n.val) + 1) % 256 ∧
        u.clock.attempts.getD n.val 0 = s.clock.attempts.getD n.val 0 + 1 ∧
        (s.clock.attempts.getD n.val 0 < 2 → SameWords s u [(Reg.CLOCK.ISLAND_CNT.word n.val).addr]) ∧
        (2 ≤ s.clock.attempts.getD n.val 0 → u.clock.restarting.getD n.val true = false ∧
          (s.power = powerWaking → u.power = powerWakeFailed ∧ u.get Reg.POWER.WAKE_FAIL.step = 3) ∧
          (s.power ≠ powerWaking → (n = 4 → u.isWedged .fronthaul = true) ∧ (n = 5 → u.isWedged .stair = true) ∧
            (n = 7 → u.clock.hkpOscillator = true)))) ∧
    (n = 3 → s.clock.cnvRestarting.getD unit.val false = true →
      ∃ u, Gives (.synthLockDeclared t n unit) s u ∧ u.get (cnvField unit.val) = loLocked ∧ u.clock.cnvRestarting.getD unit.val true = false ∧
        (s.clock.cnvStopped = true → s.clock.cnvReturn = false → u.get Reg.CLOCK.CNV_STATUS.active = unit.val ∧ u.clock.cnvReturn = true)) ∧
    (n = 3 → s.clock.cnvRestarting.getD unit.val false = true → s.clock.cnvAttempts.getD unit.val 0 < 2 → s.clock.cnvLfsr.length = 2 →
      ∃ u, Gives (.synthAttemptTimeout t n unit) s u ∧ u.clock.cnvAttempts.getD unit.val 0 = s.clock.cnvAttempts.getD unit.val 0 + 1 ∧
        u.get (Reg.CLOCK.ISLAND_CNT.failed 3) = (s.get (Reg.CLOCK.ISLAND_CNT.failed 3) + 1) % 256 ∧
        u.clock.cnvLfsr.getD unit.val 0 = ditherLoad (Config.cnvSeed unit.val + s.clock.cnvAttempts.getD unit.val 0 + 1))

/-- The converter clock hands over to a tracking standby, or stops; the comparator decides whether the standby tracks; the inter-bank phase is
measured while both detectors declare lock at one frequency; the standby tracks after 100 µs within ±2 ps, and one reading beyond 10 ps stands
for the three of the rule (the model's reading, log entry 84); dither is not forced on an island that carries traffic (R613, R617 to R620). -/
def Claim.ConverterClock : Prop :=
  ∀ (s : State) (t : Nat) (ch : Channel) (delta : Int) (v : Word) (r : State), r = s.atTime t →
    (s.get Reg.CLOCK.CNV_STATUS.tracking = 0 ∨ s.clock.cnvStopped = true → Gives (.cnvHandover t) s r) ∧
    (s.get Reg.CLOCK.CNV_STATUS.tracking = 1 → Gives (.cnvStop t) s r) ∧ (s.clock.cnvStopped = true → Gives (.cnvStop t) s r) ∧
    (s.get Reg.CLOCK.CNV_STATUS.tracking = 1 → s.clock.cnvStopped = false →
      ∃ u, Gives (.cnvHandover t) s u ∧ u.get Reg.CLOCK.CNV_STATUS.active = 1 - s.get Reg.CLOCK.CNV_STATUS.active ∧
        u.get Reg.CLOCK.CNV_STATUS.tracking = 0 ∧ u.get Reg.RECOVERY.STATUS.cnv_standby = 0 ∧
        u.get (cnvField (s.get Reg.CLOCK.CNV_STATUS.active)) = loAcquire ∧
        u.get (Reg.CLOCK.ISLAND_CNT.losses 3) = (s.get (Reg.CLOCK.ISLAND_CNT.losses 3) + 1) % 256 ∧
        u.newest = some (1, 7, unitClock, cnvInst (s.get Reg.CLOCK.CNV_STATUS.active)) ∧ u.clock.cnvStopped = false) ∧
    (s.get Reg.CLOCK.CNV_STATUS.tracking = 0 → s.clock.cnvStopped = false →
      ∃ u, Gives (.cnvStop t) s u ∧ u.clock.cnvStopped = true ∧ (u.get Reg.CLOCK.ISLAND_STATUS.running).testBit 3 = false ∧
        (u.get Reg.CLOCK.ISLAND_STATUS.locked).testBit 3 = false ∧ u.get Reg.CLOCK.CNV_STATUS.x_state = loAcquire ∧
        u.get Reg.CLOCK.CNV_STATUS.y_state = loAcquire ∧ (u.recov.running.getLast?.map fun x => (x.cls, x.mask)) = some (7, r.activeMask) ∧
        u.clock.frozen = (if s.get Reg.CLOCK.TIME_STATUS.carried = 1 then some r.arrayNow else s.clock.frozen)) ∧
    (∀ w, w = (if delta.natAbs ≤ 200 then r.putS Reg.CLOCK.CNV_STATUS.diff (satS 16 delta)
        else { r.putS Reg.CLOCK.CNV_STATUS.diff (satS 16 delta) with clock := { r.clock with cnvSince := max s.now t } }) →
      (s.get (cnvField (1 - s.get Reg.CLOCK.CNV_STATUS.active)) ≠ loLocked ∨ s.clock.cnvStopped = true → Gives (.cnvStandbyTracking t delta) s w) ∧
      (s.get (cnvField (1 - s.get Reg.CLOCK.CNV_STATUS.active)) = loLocked → s.clock.cnvStopped = false →
        (delta.natAbs ≤ 200 → max s.now t < s.clock.cnvSince + ticksOfUs 100 → Gives (.cnvStandbyTracking t delta) s w) ∧
        (delta.natAbs ≤ 200 → s.clock.cnvSince + ticksOfUs 100 ≤ max s.now t → Gives (.cnvStandbyTracking t delta) s
          ((w.put Reg.CLOCK.CNV_STATUS.tracking 1).put Reg.RECOVERY.STATUS.cnv_standby 1)) ∧
        (200 < delta.natAbs → delta.natAbs ≤ 1000 → Gives (.cnvStandbyTracking t delta) s w) ∧
        (1000 < delta.natAbs → ∃ u, Gives (.cnvStandbyTracking t delta) s u ∧ u.clock.cnvStopped = true))) ∧
    (s.loSameFreq = false ∨ s.get (Reg.CLOCK.LO_STATUS.own_lock 0) = 0 ∨ s.get (Reg.CLOCK.LO_STATUS.own_lock 1) = 0 →
      Gives (.xfeedMeasure t delta) s r) ∧
    (s.loSameFreq = true → s.get (Reg.CLOCK.LO_STATUS.own_lock 0) = 1 → s.get (Reg.CLOCK.LO_STATUS.own_lock 1) = 1 → s.clock.xfeed = [] →
      -32768 ≤ delta → delta ≤ 32767 →
      ∃ u, Gives (.xfeedMeasure t delta) s u ∧ u.clock.xfeed = [delta] ∧ u.getS Reg.CLOCK.XFEED_MEAS.delta = delta ∧
        (u.get Reg.CLOCK.XFEED_MEAS.valid = 1 ↔ s.loState 0 = loLocked ∧ s.loState 1 = loLocked) ∧
        SameWords s u [Reg.CLOCK.XFEED_MEAS.word.addr]) ∧
    (s.reaches t ch Reg.CLOCK.DITHER_CTL.word.addr →
      ((∃ i, i < 3 ∧ (getBits v 0 3).testBit i = true ∧ (s.get Reg.CLOCK.DITHER_CTL.force).testBit i = false ∧ s.carriesTraffic i = true) →
        ∃ u, Gives (.ditherForceWrite t ch v) s u ∧ u.get Reg.CLOCK.DITHER_CTL.refused = 1 ∧
          u.get Reg.CLOCK.DITHER_CTL.force = s.get Reg.CLOCK.DITHER_CTL.force ∧ SameWords s u [Reg.CLOCK.DITHER_CTL.word.addr]) ∧
      ((∀ i, i < 3 → (getBits v 0 3).testBit i = true → (s.get Reg.CLOCK.DITHER_CTL.force).testBit i = false → s.carriesTraffic i = false) →
        ∃ u, Gives (.ditherForceWrite t ch v) s u ∧ u.get Reg.CLOCK.DITHER_CTL.force = getBits v 0 3 ∧
          SameWords s u [Reg.CLOCK.DITHER_CTL.word.addr, (Reg.CLOCK.LO_STATUS.word 0).addr, (Reg.CLOCK.LO_STATUS.word 1).addr]))

/-! ### Power states (R571 to R583) -/

/-- A request for a power state that a refuser applies to is refused, counted and shown; another begins the entry: the running carriers stop,
OPEN transactions end with cause POWER once none is active, and for DOZE and DEEP the sessions end and SLEEP arises on the FEM buses.
POWER_STATE_ENTERED completes it, after the SLEEP scripts that are still to run (R149, R517, R518, R572, R573, R667). -/
def Claim.PowerEntry : Prop :=
  ∀ (s : State) (t asserted : Nat) (ch : Channel) (r : State) (idle : Prop), r = s.atTime t → s.txn.slots.length = 29 →
    idle = (∀ g, g < 8 → s.radio.femDue.getD g none = none) →
    (s.reaches t ch Reg.POWER.MODE_CTL.word.addr → ∀ e, e ∈ [(Instr.enterIdle t ch asserted, 1), (Instr.enterDoze t ch asserted, 2),
        (Instr.enterDeep t ch asserted, 3)] →
      (∀ k, r.refuser e.2 asserted = some k →
        ∃ u, Gives e.1 s u ∧ u.get Reg.POWER.STATUS.last_refuser = k ∧ u.get Reg.POWER.STATUS.refused = 1 ∧ u.get Reg.POWER.STATUS.done = 1 ∧
          u.get (Reg.POWER.REFUSE_CNT.word k) = (s.get (Reg.POWER.REFUSE_CNT.word k) + 1) % 2 ^ 32 ∧ u.power = s.power ∧
          u.get Reg.POWER.MODE_CTL.target = e.2 ∧ u.carriers = s.carriers ∧ u.txn = r.txn) ∧
      (r.refuser e.2 asserted = none →
        ∃ u, Gives e.1 s u ∧ u.power = powerEntering ∧ u.energy.goal = e.2 ∧ u.energy.latched = 0 ∧ u.get Reg.POWER.MODE_CTL.target = e.2 ∧
          (∀ c, c < 8 → s.running c = true → u.carState c = carrierStopping) ∧
          (e.2 ≠ 1 → ∀ n, n < s.sessions.length → u.session n = none) ∧
          (e.2 ≠ 1 → s.activeCarriers = [] → ∀ g, g < 8 → u.femWaits g .sleep = s.femScripted g .sleep) ∧
          (e.2 = 1 → s.activeCarriers = [] → ∀ n, n < 29 → (r.slot n).state = txOpen →
            (u.slot n).state = txAborted ∧ (u.slot n).cause = causePower))) ∧
    (s.power ≠ powerEntering ∨ s.activeCarriers ≠ [] → Gives (.powerStateEntered t) s r) ∧
    (s.power = powerEntering → s.activeCarriers = [] →
      (s.energy.goal = 1 → s.energy.latched = 0 →
        ∃ u, Gives (.powerStateEntered t) s u ∧ u.power = powerIdle ∧ u.energy.waitAt = max s.now t ∧ u.energy.next = none ∧
          (∀ p, p < 64 → (u.mutes p).testBit muteHost = true) ∧ u.out = s.out ∧ u.mem = s.mem) ∧
      (s.energy.goal = 2 → s.energy.latched = 0 →
        ∃ u, Gives (.powerStateEntered t) s u ∧ u.power = powerDoze ∧ u.energy.target = 600 ∧ u.energy.waitAt = max s.now t ∧
          (u.get Reg.CLOCK.ISLAND_STATUS.running).testBit 3 = false ∧ u.loState 0 = loOff ∧ u.loState 1 = loOff ∧
          (idle → u.out = s.out ++ [.pmbus pmVoutCommand 600]) ∧ (∃ l, u.out = s.out ++ l ++ [.pmbus pmVoutCommand 600]) ∧ u.mem = s.mem) ∧
      (s.energy.goal = 3 → s.energy.latched = 0 →
        ∃ u, Gives (.powerStateEntered t) s u ∧ u.power = powerDeep ∧ u.get Reg.CLOCK.REF_STATUS.refclk_ok = 0 ∧ u.clock.hkpOscillator = true ∧
          u.boot.coreMonitored = false ∧ (idle → u.out = s.out ++ [.pmbus pmVoutCommand 600, .pmbus pmOperation pmOff]) ∧
          (∃ l, u.out = s.out ++ l ++ [.pmbus pmVoutCommand 600, .pmbus pmOperation pmOff]) ∧ u.mem = s.mem) ∧
      (s.energy.goal = 1 → s.energy.latched ≠ 0 → ∃ u, Gives (.powerStateEntered t) s u ∧ u.power = powerWaking))

/-- A wake source acts where it is enabled: latched during an entry or a wake, it begins the wake in IDLE, DOZE and DEEP. The third failure of a
wake step is WAKE_FAILED with FAULT_N; a wake from DOZE or DEEP lets WAKE arise on the FEM buses; WAKE_DONE returns to ACTIVE with a full
bucket, the causes and the wake notice, retained banks as they were; RET_RELEASE lets the carriers it names go (R552, R574 to R583). -/
def Claim.PowerWake : Prop :=
  ∀ (s : State) (t : Nat) (ch : Channel) (src : Fin 7) (step : Fin 2) (unit : Nat) (v : Word) (r : State), r = s.atTime t →
      s.energy.failures.length = 3 →
    ((s.get Reg.POWER.WAKE_EN.sources).testBit src.val = false ∨ (src = 6 ∧ r.timerElapsed = false) ∨ (src = 4 ∧ s.asleep = false) ∨
        s.power = powerActive ∨ s.power = powerQuiet → Gives (.wakeSource t src) s r) ∧
    ((s.get Reg.POWER.WAKE_EN.sources).testBit src.val = true → (src = 6 → r.timerElapsed = true) →
      (s.power = powerEntering ∨ s.power = powerWaking → src ≠ 4 →
        Gives (.wakeSource t src) s { r with energy := { r.energy with latched := withBit s.energy.latched src.val true } }) ∧
      (s.power = powerIdle → ∃ u, Gives (.wakeSource t src) s u ∧ u.power = powerWaking ∧ u.energy.latched = withBit s.energy.latched src.val true ∧
        u.out = s.out ∧ SameWords s u [Reg.POWER.STATUS.word.addr]) ∧
      (s.power = powerDoze ∨ s.power = powerDeep → ∃ u, Gives (.wakeSource t src) s u ∧ u.power = powerWaking ∧
        u.energy.target = s.energy.lastActive ∧ u.energy.latched = withBit s.energy.latched src.val true ∧ u.boot.coreMonitored = true ∧
        (∀ g, g < 8 → u.femWaits g .wake = s.femScripted g .wake) ∧
        u.out = s.out ++ (if s.power = powerDeep then [.pmbus pmOperation pmOn] else []) ++ [.pmbus pmVoutCommand s.energy.lastActive])) ∧
    (s.power ≠ powerWaking → Gives (.wakeStepTimeout t step unit) s r ∧ ∀ failed sets, Gives (.wakeDone t failed sets) s r) ∧
    (s.power = powerWaking →
      (s.energy.failures.getD step.val 0 < 2 → Gives (.wakeStepTimeout t step unit) s
        { r with energy := { r.energy with failures := s.energy.failures.set step.val (s.energy.failures.getD step.val 0 + 1) } }) ∧
      (s.energy.failures.getD step.val 0 = 2 → unit < 16 →
        ∃ u, Gives (.wakeStepTimeout t step unit) s u ∧ u.power = powerWakeFailed ∧ u.get Reg.POWER.WAKE_FAIL.step = step.val + 1 ∧
          u.get Reg.POWER.WAKE_FAIL.unit = unit ∧ u.get Reg.POWER.WAKE_FAIL.attempts = 3 ∧
          u.get Reg.POWER.WAKE_FAIL.sources = s.energy.latched % 256 ∧ u.get Reg.HOST.INT_STATUS.event = 1 ∧ u.faultAsserted = true) ∧
      (s.energy.goal ≠ 1 → r.banksReady = false → ∀ failed sets, Gives (.wakeDone t failed sets) s r) ∧
      (s.energy.goal = 1 ∨ r.banksReady = true → ∀ sets,
        ∃ u, Gives (.wakeDone t [] sets) s u ∧ u.power = powerActive ∧ u.energy.bucket = s.depthNj ∧ u.get Reg.POWER.WAKE_CAUSE.sources = s.energy.latched % 256 ∧
          u.energy.latched = 0 ∧ u.get Reg.POWER.STATUS.done = 1 ∧ u.get Reg.HOST.INT_STATUS.wake = 1 ∧
          (s.energy.goal = 1 → u.mem = s.mem ∧ u.halls = s.halls) ∧
          ∀ a, s.retained (a / bankBytes) = true → Memory.read u.mem a = Memory.read s.mem a)) ∧
    (s.reaches t ch Reg.POWER.RET_RELEASE.word.addr →
      ∃ u, Gives (.retRelease t ch v) s u ∧ SameWords s u [Reg.POWER.RET_HOLD.word.addr] ∧ u.mem = s.mem ∧
        ∀ i, i < 8 → (u.get Reg.POWER.RET_HOLD.held).testBit i = ((s.get Reg.POWER.RET_HOLD.held).testBit i && !(getBits v 0 8).testBit i) ∧
          (s.carriers.length = 8 → (s.get Reg.POWER.RET_HOLD.held).testBit i = true → (getBits v 0 8).testBit i = true →
            s.carState i = carrierStarting → (u.car i).since = r.arrayNow + ticksOfUs 2))

/-! ### The energy planner (R548 to R570, R689 to R692, R720) -/

/-- A planning-slot boundary begins its slot once, under the plan fixed for it, planned again at the lower voltage while readback has not confirmed
the target, and arms its energy update; where the planner runs, the plan of the next slot is fixed and shown. A slot admitted so admits no
work of a carrier that does not fit; one without a plan is admitted in the same way (the model's choice, log entry 74).
Energy enters the counters and the bucket, which is never fuller than its depth (R27, R50, R549, R552, R561, R562). -/
def Claim.PlannerSlots : Prop :=
  ∀ (s : State) (t core nonCore : Nat) (ok : Bool) (r : State), r = s.atTime t →
    (s.clock.started = false ∨ s.energy.slot = some (r.arrayNow / planningSlot) → Gives (.planningSlotBoundary t ok) s r) ∧
    (∀ k w, k = r.arrayNow / planningSlot → w = r.slotWork.slotBegins k → s.clock.started = true → s.energy.slot ≠ some k →
      ∃ u, Gives (.planningSlotBoundary t ok) s u ∧ u.energy.slot = some k ∧ u.energy.ended = w.energy.ended ∧
        u.dueAt .energy = some (w.now + ticksOfUs 20) ∧
        (w.planning = true → ∃ p, u.energy.next = some p ∧ p.slot = k + 1 ∧ p.level ≤ 7 ∧ u.get Reg.POWER.PLAN.level = p.level ∧
          u.get Reg.POWER.PLAN.v_target = p.mv % 65536 ∧ (u.get Reg.POWER.PLAN.below_072 = 1 ↔ p.mv < 720)) ∧
        (w.planning = false → u.energy.next = none) ∧
        (∀ v, v = r.slotWork →
          (∀ p, v.energy.next = some p → p.slot = k →
            u.energy.plan = some (if v.energy.settled then p else v.admitFrom k (min v.energy.before v.energy.target) p.level)) ∧
          (v.energy.next = none → u.energy.plan = if v.planning then some (v.admitFrom k v.railMv 0) else none))) ∧
    (∀ k mv n x, mv < 720 → x ∈ s.admitted (s.admitFrom k mv n) → x.carrier < 8 → bit x.kind 0 = true ∨ bit x.kind 1 = true →
      s.itemFits (k - 1) mv x = true) ∧
    (r.due .energy = false → Gives (.energyUpdate t core nonCore) s r) ∧
    (r.due .energy = true → s.metered = false → Gives (.energyUpdate t core nonCore) s (r.disarm .energy)) ∧
    (r.due .energy = true → s.metered = true →
      ∃ u, Gives (.energyUpdate t core nonCore) s u ∧
        u.energy.bucket = min s.depthNj (s.energy.bucket + s.shareNj - ((core + nonCore) * 1000 : Nat)) ∧
        u.get (Reg.POWER.E_HI.word 0) * 2 ^ 32 + u.get (Reg.POWER.E_LO.word 0) =
          (s.get (Reg.POWER.E_HI.word 0) * 2 ^ 32 + s.get (Reg.POWER.E_LO.word 0) + core) % 2 ^ 64 ∧
        u.get (Reg.POWER.E_HI.word 6) * 2 ^ 32 + u.get (Reg.POWER.E_LO.word 6) =
          (s.get (Reg.POWER.E_HI.word 6) * 2 ^ 32 + s.get (Reg.POWER.E_LO.word 6) + core) % 2 ^ 64 ∧
        u.energy.nonCore.head? = some (s.energy.endSlot, nonCore) ∧ u.dueAt .energy = none ∧
        (∀ p, s.energy.ended = some p → u.get Reg.POWER.GAMMA.gamma = gammaNext (s.get Reg.POWER.GAMMA.gamma) core p) ∧
        (s.energy.ended = none → u.get Reg.POWER.GAMMA.gamma = s.get Reg.POWER.GAMMA.gamma) ∧ u.mem = s.mem ∧ u.out = s.out)

/-- Speed monitors show their readings and validity; a speed miss is counted while a plan or voltage below 0.72 V is in force. The PMBus: a readback
within 10 mV confirms the target, a failed transaction is counted and raises the fault with an event record, an alert records STATUS_WORD
(R556, R560, R690, R691, R720). -/
def Claim.PlannerInputs : Prop :=
  ∀ (s : State) (t : Nat) (readings : List Nat) (r : State), r = s.atTime t → s.energy.monitors.length = 16 →
    (s.coreOn = false → Gives (.speedMeasure t readings) s r) ∧
    (s.coreOn = true → ∃ u, Gives (.speedMeasure t readings) s u ∧
      ∀ n, n < 16 → u.get (Reg.POWER.SPEED.rate n) = readings.getD n 0 % 65536 ∧
        u.energy.monitors.getD n default =
          (s.energy.monitors.getD n default).judge (readings.getD n 0 % 65536) (median2 ((List.range 16).map fun i => readings.getD i 0 % 65536)) ∧
        (u.get (Reg.POWER.SPEED.valid n) = 1 ↔ (u.energy.monitors.getD n default).valid = true)) ∧
    (s.energy.plan = none ∨ (∃ p, s.energy.plan = some p ∧ 720 ≤ p.mv ∧ 720 ≤ s.energy.target) → Gives (.speedMiss t) s r) ∧
    (∀ p, s.energy.plan = some p → p.mv < 720 ∨ s.energy.target < 720 →
      ∃ u, Gives (.speedMiss t) s u ∧ u.get Reg.POWER.STATUS.speed_miss = 1 ∧
        u.get Reg.POWER.SPEED_MISS.word = (s.get Reg.POWER.SPEED_MISS.word + 1) % 2 ^ 32 ∧ u.energy.missDue = true ∧
        SameWords s u [Reg.POWER.STATUS.word.addr, Reg.POWER.SPEED_MISS.word.addr] ∧ u.mem = s.mem ∧ u.out = s.out) ∧
    (r.due .readVout = false → ∀ mv, Gives (.pmbusReadback t mv) s r) ∧
    (r.due .readVout = true →
      (∃ u, Gives (.pmbusReadback t none) s u ∧ u.get Reg.POWER.PMBUS_STATUS.fault = 1 ∧
        u.get Reg.POWER.PMBUS_STATUS.errors = (s.get Reg.POWER.PMBUS_STATUS.errors + 1) % 256 ∧ u.newest = some (3, 0, unitPmbus, 0) ∧
        u.get Reg.HOST.INT_STATUS.event = 1 ∧ u.energy.confirmed = s.energy.confirmed ∧ u.dueAt .readVout = some (max s.now t + ticksOfUs 20)) ∧
      ∀ mv, mv < 65536 → ∃ u, Gives (.pmbusReadback t (some mv)) s u ∧ u.get Reg.POWER.PMBUS_STATUS.vout = mv ∧
        u.get Reg.POWER.PMBUS_STATUS.fault = 0 ∧ u.energy.target = s.energy.target ∧
        (((mv : Int) - s.energy.target).natAbs ≤ 10 → u.energy.settled = true ∧ u.energy.confirmed = s.energy.target) ∧
        (10 < ((mv : Int) - s.energy.target).natAbs → u.energy.settled = s.energy.settled ∧ u.energy.confirmed = s.energy.confirmed) ∧
        SameWords s u [Reg.POWER.PMBUS_STATUS.word.addr] ∧ u.out = s.out ++ [.pmbus pmReadVout 0]) ∧
    (∃ u, Gives (.pmAlert t none) s u ∧ u.get Reg.POWER.PMBUS_STATUS.fault = 1 ∧ u.out = s.out ++ [.pmbus pmStatusWord 0] ∧
      u.newest = some (3, 0, unitPmbus, 0)) ∧
    (∀ w, ∃ u, Gives (.pmAlert t (some w)) s u ∧ u.get Reg.POWER.PMBUS_STATUS.fault = 0 ∧ u.newest = some (3, 0, unitPmbus, 0) ∧
      (u.log.head?.map fun x => x.detail) = some (w % 65536) ∧ u.get Reg.HOST.INT_STATUS.event = 1 ∧ u.out = s.out ++ [.pmbus pmStatusWord 0])

/-! ### Housekeeping and trims (R584 to R591, R625 to R648) -/

/-- A round starts when due, once the trims are loaded; each entry, in its order and when its settle times and conversions are over, posts the
reading of the mean of its conversions, or is stale where they began before its channel counts; the end of the round counts it and acts on
T_hot: below every threshold nothing else changes, at the shutdown threshold the part goes to THERMAL_OFF. A conversion timeout is a fault of
HK-A and HK-B stands in; of HK-B standing in, it stops the rounds (the model's reading, log entry 85) (R584 to R591, R626 to R632, R638, R639).
-/
def Claim.HkRounds : Prop :=
  ∀ (s : State) (t : Nat) (k : Fin 96) (inputs : List Int) (zero check : Int) (ref : Nat) (r : State), r = s.atTime t →
    (s.hk.running = true ∨ s.hk.stopped = true ∨ s.trimsLoaded = false ∨ r.roundDue = false → Gives (.hkRoundStart t) s r) ∧
    (s.hk.running = false → s.hk.stopped = false → s.trimsLoaded = true → r.roundDue = true →
      ∃ u, Gives (.hkRoundStart t) s u ∧ u.hk.running = true ∧ u.hk.start = some (max s.now t) ∧
        (u.hk.left.map fun e => (e.1, e.2.1, e.2.2.1)) = s.roundEntries.map (fun k => (k, entryChannel (s.entryWord k), entryAvg (s.entryWord k))) ∧
        (∀ i, i < s.roundEntries.length → (u.hk.left.map fun e => e.2.2.2).getD i 0 = s.entriesTime (s.roundEntries.take (i + 1))) ∧
        (u.hk.byB = true ↔ s.get Reg.RECOVERY.STATUS.hkb_standin = 1) ∧
        (u.get Reg.HK.STATUS.stretched = 1 ↔ s.roundPeriod < s.entriesTime s.roundEntries) ∧
        (s.entriesTime s.roundEntries ≤ s.roundPeriod → u.hk.length = s.roundPeriod) ∧
        (s.roundPeriod < s.entriesTime s.roundEntries →
          256 ∣ u.hk.length ∧ s.entriesTime s.roundEntries ≤ u.hk.length ∧ u.hk.length < s.entriesTime s.roundEntries + 256)) ∧
    (s.hk.running = false ∨ s.hk.left = [] → Gives (.hkEntryDone t k inputs ref) s r) ∧
    (∀ k' c a due rest, s.hk.left = (k', c, a, due) :: rest →
      (k' ≠ k.val ∨ max s.now t < s.hk.start.getD 0 + ticksOfUs due → Gives (.hkEntryDone t k inputs ref) s r) ∧
      (k' = k.val → s.hk.start.getD 0 + ticksOfUs due ≤ max s.now t → s.hk.running = true → ∀ began, began = max s.now t - ticksOfUs (2 ^ a) →
        (began < s.hkFrom c → Gives (.hkEntryDone t k inputs ref) s
          (({ r with hk := { r.hk with left := rest } } : State).put (Reg.HK.READ.stale k.val) 1)) ∧
        (s.hkFrom c ≤ began →
          ∃ u, Gives (.hkEntryDone t k inputs ref) s u ∧ u.hk.left = rest ∧ u.get (Reg.HK.READ.stale k.val) = 0 ∧
            u.get (Reg.HK.READ.value k.val) = unsigned 16 (s.reading (s.coefAt c began) c (s.meanCode s.hk.byB inputs ref)) ∧
            (k.val < 24 → s.hk.codes.length = 24 → u.hk.codes.getD k.val 0 = s.meanCode s.hk.byB inputs ref) ∧ u.mem = s.mem ∧ u.out = s.out))) ∧
    (s.hk.running = false ∨ s.hk.left ≠ [] → Gives (.hkRoundEnd t zero check ref) s r) ∧
    (∀ w, w = r.roundJudged zero check ref → s.hk.running = true → s.hk.left = [] →
      ∀ n T, w.1.hotRegion = some (n, T) → 8 ≤ countIf (fun (x : Sensor) => x.valid) w.1.hk.sensors →
      (w.1.power ≠ powerThermalOff → w.1.get Reg.THERMAL.STATUS.shutdown = 0 → T < w.1.level Reg.THERMAL.THRESH.shutdown →
        T < w.1.level Reg.THERMAL.THRESH.warning - 48 → T < w.1.level Reg.THERMAL.THRESH.throttle - 48 →
        ∃ u, Gives (.hkRoundEnd t zero check ref) s u ∧ u.power = w.1.power ∧ u.get Reg.THERMAL.STATUS.hottest = n % 32 ∧
          u.get Reg.THERMAL.STATUS.t_hot = unsigned 16 T ∧ u.get Reg.THERMAL.STATUS.warning = 0 ∧ u.get Reg.THERMAL.STATUS.throttle = 0 ∧
          u.get Reg.THERMAL.STATUS.shutdown = 0 ∧ u.get Reg.THERMAL.THROTTLE.excess = 0 ∧
          u.get Reg.THERMAL.P_EFF.word = w.1.get Reg.POWER.ENVELOPE.word ∧ u.gates = w.1.gates) ∧
      (w.1.power ≠ powerThermalOff → w.1.power ≠ powerWakeFailed → w.1.level Reg.THERMAL.THRESH.shutdown ≤ T →
        ∃ u, Gives (.hkRoundEnd t zero check ref) s u ∧ u.power = powerThermalOff ∧ u.get Reg.THERMAL.STATUS.shutdown = 1 ∧ u.gates = [] ∧
          u.timers = [] ∧ u.faultAsserted = true ∧ ∀ c, c < 8 → u.carState c = carrierOff)) ∧
    (s.hk.running = false → Gives (.hkConversionTimeout t) s r) ∧
    (s.hk.running = true → s.hk.byB = true → s.get Reg.RECOVERY.STATUS.hkb_standin = 1 →
      ∃ u, Gives (.hkConversionTimeout t) s u ∧ u.get Reg.HK.STATUS.hkb_fault = 1 ∧ u.hk.left = [] ∧ u.hk.stopped = true ∧
        u.hk.codes = List.replicate 24 0) ∧
    (s.hk.running = true → s.hk.byB = false → s.get Reg.HK.STATUS.hka_fault = 0 → s.get Reg.HK.STATUS.hkb_fault = 0 →
      ∃ u, Gives (.hkConversionTimeout t) s u ∧ u.get Reg.HK.STATUS.hka_fault = 1 ∧ u.get Reg.RECOVERY.STATUS.hkb_standin = 1 ∧ u.hk.left = [] ∧
        u.newest = some (1, 0x0E, unitHk, 0) ∧ u.get Reg.HOST.INT_STATUS.fault = 1)

/-- Injected conversions: a request is dropped with its cause, counted, or waits, and posts its result once its delay and conversions are over. A
change of the reference unsettles it for 200 µs and ends a calibration capture (R628, R635 to R637). -/
def Claim.HkInjected : Prop :=
  ∀ (s : State) (t : Nat) (ch : Channel) (value : Word) (inputs : List Int) (ref : Nat) (r : State), r = s.atTime t →
    (s.reaches t ch Reg.HK.INJ_CTL.go.addr → ∀ v c, v = r.storeHk Reg.HK.INJ_CTL.go.addr value → c = v.get Reg.HK.INJ_CTL.channel →
      (hkChannel c = false → Gives (.hkInject t ch value) s (v.injDrop injChannel c)) ∧
      (hkChannel c = true → s.hkbOff = true → Gives (.hkInject t ch value) s (v.injDrop injPower c)) ∧
      (hkChannel c = true → s.hkbOff = false → s.hkbTaken = true → Gives (.hkInject t ch value) s (v.injDrop injStandin c)) ∧
      (hkChannel c = true → s.hkbOff = false → s.hkbTaken = false →
        (s.hk.cal ≠ none → Gives (.hkInject t ch value) s (v.injDrop injCal c)) ∧
        (s.hk.cal = none → s.hk.injected ≠ none → Gives (.hkInject t ch value) s (v.injDrop injBusy c)) ∧
        (s.hk.cal = none → s.hk.injected = none →
          (isHkIn c = true → s.get Reg.HK.STATUS.ref_settled = 0 → Gives (.hkInject t ch value) s (v.injDrop injRef c)) ∧
          (isHkIn c = false ∨ s.get Reg.HK.STATUS.ref_settled = 1 →
            ∃ u, Gives (.hkInject t ch value) s u ∧ u.get Reg.HK.INJ_CTL.pending = 1 ∧ (u.hk.injected.map fun j => (j.channel, j.at_)) = some (c, max s.now t) ∧
              SameWords s u [Reg.HK.INJ_CTL.go.addr] ∧ u.mem = s.mem)))) ∧
    (s.hk.injected = none → Gives (.hkInjectDone t inputs ref) s r) ∧
    (∀ j, s.hk.injected = some j → ∀ began, began = max s.now t - ticksOfUs (2 ^ j.avg) →
      (began < j.at_ + ticksOfUs (j.delay + 4) → Gives (.hkInjectDone t inputs ref) s r) ∧
      (j.at_ + ticksOfUs (j.delay + 4) ≤ began →
        (isHkIn j.channel = true → began < s.hk.refAt.getD 0 → Gives (.hkInjectDone t inputs ref) s (r.dropPending injRef)) ∧
        (isHkIn j.channel = false ∨ s.hk.refAt.getD 0 ≤ began → began < s.hk.bandgapAt.getD 0 → Gives (.hkInjectDone t inputs ref) s r) ∧
        (isHkIn j.channel = false ∨ s.hk.refAt.getD 0 ≤ began → s.hk.bandgapAt.getD 0 ≤ began → j.channel < 256 →
          ∃ u, Gives (.hkInjectDone t inputs ref) s u ∧ u.get Reg.HK.INJ_RESULT.done = 1 ∧ u.get Reg.HK.INJ_RESULT.channel = j.channel ∧
            u.get Reg.HK.INJ_RESULT.value = unsigned 16 (s.reading (s.coefAt j.channel began) j.channel (s.meanCode true inputs ref)) ∧
            u.get Reg.HK.INJ_CTL.pending = 0 ∧ u.hk.injected = none ∧ u.mem = s.mem))) ∧
    (s.reaches t ch Reg.HK.CTL.ref.addr → ∀ v, v = r.storeHk Reg.HK.CTL.ref.addr value →
      (v.get Reg.HK.CTL.ref = s.get Reg.HK.CTL.ref → Gives (.hkRefWrite t ch value) s v) ∧
      (v.get Reg.HK.CTL.ref ≠ s.get Reg.HK.CTL.ref →
        ∃ u, Gives (.hkRefWrite t ch value) s u ∧ u.get Reg.HK.CTL.ref = v.get Reg.HK.CTL.ref ∧ u.get Reg.HK.STATUS.ref_settled = 0 ∧
          u.hk.refAt = some (max s.now t + ticksOfUs 200) ∧ (s.hk.cal ≠ none → u.hk.cal = none ∧ u.get Reg.HK.SYSCAL_STATUS.result = calibRef ∧
            u.get Reg.HK.SYSCAL_STATUS.done = 1 ∧ u.get Reg.HK.SYSCAL_STATUS.running = 0))) ∧
    (∀ x, s.hk.refAt = some x →
      (x ≤ max s.now t → Gives (.hkRefSettled t) s (r.put Reg.HK.STATUS.ref_settled 1)) ∧ (max s.now t < x → Gives (.hkRefSettled t) s r)) ∧
    (s.hk.refAt = none → Gives (.hkRefSettled t) s r)

/-- System calibration: ZERO and SPAN are refused with their first cause or run one at a time; a capture that ends shows its mean, keeps z of a ZERO,
and computes the coefficients of a SPAN; a cancel ends it (R640 to R643). -/
def Claim.SysCalibration : Prop :=
  ∀ (s : State) (t : Nat) (ch : Channel) (value : Word) (inputs : List Int) (ref : Nat) (span : Bool) (r : State), r = s.atTime t →
    (s.reaches t ch Reg.HK.SYSCAL_CTL.cmd.addr → ∀ v c x, v = r.storeHk Reg.HK.SYSCAL_CTL.cmd.addr value →
        c = (if span then Instr.span t ch value else Instr.zero t ch value) → x = v.get Reg.HK.SYSCAL_CTL.input →
      (∀ code, code = s.calRefusal span x → code ≠ 0 →
        Gives c s ((v.put Reg.HK.SYSCAL_STATUS.result code).put Reg.HK.SYSCAL_STATUS.done 1)) ∧
      (s.calRefusal span x = 0 →
        ∃ u, Gives c s u ∧ u.get Reg.HK.SYSCAL_STATUS.running = 1 ∧ u.get Reg.HK.SYSCAL_STATUS.done = 0 ∧ u.hk.injected = none ∧
          u.hk.cal = some { input := x, full := v.get Reg.HK.SYSCAL_CTL.fs_code, zero := if span then assoc? s.hk.zeros x else none,
                            at_ := max s.now t } ∧
          (s.hk.injected ≠ none → u.get Reg.HK.INJ_LAST.cause = injCal) ∧ u.mem = s.mem)) ∧
    (s.reaches t ch Reg.HK.SYSCAL_CTL.cmd.addr →
      (s.hk.cal = none → Gives (.syscalCancel t ch) s r) ∧
      (s.hk.cal ≠ none → ∃ u, Gives (.syscalCancel t ch) s u ∧ u.hk.cal = none ∧ u.get Reg.HK.SYSCAL_STATUS.result = calibCancelled ∧
        u.get Reg.HK.SYSCAL_STATUS.done = 1 ∧ u.get Reg.HK.SYSCAL_STATUS.running = 0 ∧ SameWords s u [Reg.HK.SYSCAL_STATUS.word.addr])) ∧
    (s.hk.cal = none → Gives (.syscalCaptureDone t inputs ref) s r) ∧
    (∀ j, s.hk.cal = some j →
      (s.hkbOff = true ∨ max s.now t < max j.at_ (s.hk.bandgapAt.getD 0) + ticksOfUs 264 → Gives (.syscalCaptureDone t inputs ref) s r) ∧
      (s.hkbOff = false → max j.at_ (s.hk.bandgapAt.getD 0) + ticksOfUs 264 ≤ max s.now t → ∀ m, m = s.meanCode true inputs ref → m < 16384 →
        (j.zero = none → ∃ u, Gives (.syscalCaptureDone t inputs ref) s u ∧ u.get Reg.HK.SYSCAL_STATUS.mean = m ∧
          assoc? u.hk.zeros j.input = some (m : Int) ∧ u.get Reg.HK.SYSCAL_STATUS.result = 0 ∧ u.get Reg.HK.SYSCAL_STATUS.done = 1 ∧
          u.hk.cal = none ∧ SameWords s u [Reg.HK.SYSCAL_STATUS.word.addr]) ∧
        (∀ z, j.zero = some z → ∃ u, Gives (.syscalCaptureDone t inputs ref) s u ∧ u.get Reg.HK.SYSCAL_STATUS.mean = m ∧
          u.get (Reg.HK.SYSCAL_IN.gain j.input) = spanGain z m j.full ∧ u.get (Reg.HK.SYSCAL_IN.ofs j.input) = unsigned 14 z ∧
          u.get (Reg.HK.SYSCAL_IN.suspect j.input) = b2n (spanSuspect z m j.full) ∧
          u.get Reg.HK.SYSCAL_STATUS.suspect = b2n (spanSuspect z m j.full) ∧ u.get Reg.HK.SYSCAL_STATUS.result = 0 ∧
          u.get Reg.HK.SYSCAL_STATUS.done = 1 ∧ u.hk.cal = none ∧
          SameWords s u [Reg.HK.SYSCAL_STATUS.word.addr, (Reg.HK.SYSCAL_IN.word j.input).addr])))

/-- Trims: a reload copies them from OTP, during which host writes are lost; a write takes effect on its fields; a written band-gap settles after
200 µs (R644 to R648). -/
def Claim.Trims : Prop :=
  ∀ (s : State) (t : Nat) (ch : Channel) (addr value : Word) (r : State), r = s.atTime t →
    (s.reaches t ch Reg.TRIM.CTL.reload.addr → ∃ u, Gives (.trimReload t ch) s u ∧ u.hk.copying = true ∧ u.get Reg.TRIM.STATUS.loaded = 0 ∧
      u.trims = s.trims ∧ SameWords s u [Reg.TRIM.STATUS.word.addr]) ∧
    (isTrim addr.toNat = false → Gives (.trimWrite t ch addr value) s r) ∧
    (isTrim addr.toNat = true → s.reaches t ch addr.toNat →
      (s.hk.copying = true → Gives (.trimWrite t ch addr value) s (r.put Reg.TRIM.STATUS.write_lost 1)) ∧
      (s.hk.copying = false → s.trimsLoaded = true →
        ∃ u, Gives (.trimWrite t ch addr value) s u ∧
          u.trimWord addr.toNat = (fieldsAt addr.toNat).foldl (storeField false value) (s.trimWord addr.toNat) ∧
          (∀ a, a ≠ addr.toNat → u.trimWord a = s.trimWord a) ∧ u.mem = s.mem ∧ u.out = s.out ∧
          (addr.toNat = 0x40010 → u.get Reg.TRIM.STATUS.settling = 1 ∧ u.hk.bandgapAt = some (max s.now t + ticksOfUs 200)))) ∧
    (s.hk.copying = false → Gives (.trimCopyDone t) s r) ∧
    (s.hk.copying = true → ∃ u, Gives (.trimCopyDone t) s u ∧ u.hk.copying = false ∧ u.trimsLoaded = true ∧ u.trims = [] ∧
      u.get Reg.TRIM.STATUS.loaded = 1 ∧ u.get Reg.TRIM.STATUS.version = Config.otpTrimVersion.toNat ∧
      (∀ a, u.trimWord a = s.trimLoaded a) ∧ ((∃ a ∈ trimAddrs, a ∈ s.trimsBad) → u.get Reg.TRIM.STATUS.otp_error = 1) ∧
      (s.trimsLoaded = true → u.get Reg.TRIM.STATUS.settling = 1)) ∧
    (∀ x, s.hk.bandgapAt = some x →
      (x ≤ max s.now t → Gives (.bandgapSettled t) s (r.put Reg.TRIM.STATUS.settling 0)) ∧ (max s.now t < x → Gives (.bandgapSettled t) s r)) ∧
    (s.hk.bandgapAt = none → Gives (.bandgapSettled t) s r)

/-! ### Claims of one subject, stated together -/

/-- Wide values read and written in halves. -/
def Obligations.RegisterHalves : Prop := Claim.HalfReads ∧ Claim.HalfWritesNoEffect

/-- What the host writes to a plain register and to shared memory. -/
def Obligations.HostWrites : Prop := Claim.RegisterWrite ∧ Claim.WindowWrites

/-- The vestibule port: frames and their time-out. -/
def Obligations.VestibulePort : Prop := Claim.VestibuleFrames ∧ Claim.VestibuleTimeout

/-- SXM messages: those dropped and those served. -/
def Obligations.SxmMessages : Prop := Claim.SxmDropsUnproven ∧ Claim.SxmServes

/-- The keep: its commands, their ends, and the pages of the log. -/
def Obligations.KeepWork : Prop := Claim.KeepCommands ∧ Claim.KeepCompletes ∧ Claim.LogPages

/-- The security commands and their ends. -/
def Obligations.SecurityPort : Prop := Claim.SecurityCommands ∧ Claim.SecurityCompletes

/-- The commands of IMAGE.CTL and their ends. -/
def Obligations.ImageControl : Prop := Claim.ImageCommands ∧ Claim.ImageCompletes

/-- Full resets by pins, power and the host. -/
def Obligations.FullResets : Prop := Claim.PinReset ∧ Claim.HostReset

/-- How boot starts and ends. -/
def Obligations.BootTimeline : Prop := Claim.BootStarts ∧ Claim.BootEnds

/-- The DC loop and the IQ tracking of a path. -/
def Obligations.ReceiveLoops : Prop := Claim.DcLoopMoves ∧ Claim.IqTracking

/-- Blanking and retirement of paths. -/
def Obligations.PathMuting : Prop := Claim.Blanking ∧ Claim.Retirement

/-- Front-end module events and scripts. -/
def Obligations.FemControl : Prop := Claim.FemEvents ∧ Claim.FemScriptWords

/-- The LO banks: locking, loss of lock, hand-back and relock. -/
def Obligations.LoBanks : Prop := Claim.LoDividers ∧ Claim.LoLocking ∧ Claim.LoLoss ∧ Claim.LoHandover

/-- Radio calibrations from request to end. -/
def Obligations.RadioCalibration : Prop := Claim.CalibrationRequests ∧ Claim.CalibrationEnds

/-- Observation captures from attempt to end. -/
def Obligations.ObservationCaptures : Prop := Claim.ObsAttempts ∧ Claim.ObsCaptures

/-- What the host asks of observation and pre-distortion. -/
def Obligations.PredistortionHost : Prop := Claim.ObsHost ∧ Claim.DpdHost

/-- Rounds and fits of the pre-distortion. -/
def Obligations.PredistortionRounds : Prop := Claim.DpdRounds ∧ Claim.DpdFits

/-- The release gates: what enters them and what leaves them. -/
def Obligations.ReleaseGates : Prop := Claim.Releases ∧ Claim.DownlinkDeadlines

/-- Diagnostic capture and PRACH occasions. -/
def Obligations.CaptureOutputs : Prop := Claim.DiagnosticCapture ∧ Claim.PrachOccasions

/-- The scalar unit of a hall. -/
def Obligations.HallScalarUnit : Prop := Claim.HallScalar ∧ Claim.HallShifts

/-- Program flow and special registers of a hall. -/
def Obligations.HallProgramFlow : Prop := Claim.HallFlow ∧ Claim.HallSpecials

/-- Data memory and corridors as a hall uses them. -/
def Obligations.HallMemoryAccess : Prop := Claim.HallMemory ∧ Claim.HallCorridors

/-- Multiply-accumulate and vector instructions of a hall. -/
def Obligations.HallVectorUnit : Prop := Claim.HallMac ∧ Claim.HallVector

/-- What arrives at a hall, the order in which routers let it pass, and its events. -/
def Obligations.HallArrivalsEvents : Prop := Claim.ClassGrants ∧ Claim.HallArrivals ∧ Claim.HallEvents

/-- Fronthaul ports: bring-up, link faults and the return home. -/
def Obligations.FronthaulPorts : Prop := Claim.FhBringUp ∧ Claim.FhFailover

/-- Fronthaul frames, partners and answers. -/
def Obligations.FronthaulFrames : Prop := Claim.FhFrames ∧ Claim.FhAnswers

/-- The control plane and the downlink user plane. -/
def Obligations.FronthaulPlanes : Prop := Claim.FhCplane ∧ Claim.FhUplane

/-- Adaptation and test of fronthaul and stair lanes. -/
def Obligations.LaneTuning : Prop := Claim.FhLanes ∧ Claim.StairLanes

/-- Stair flights: training, sleep, wake and retraining. -/
def Obligations.StairBringUp : Prop := Claim.StairTraining ∧ Claim.StairSleep

/-- Codewords on a flight, and its faults. -/
def Obligations.StairDelivery : Prop := Claim.StairCodewords ∧ Claim.StairFaults

/-- Array time over a flight, and the spectral mask of its lanes. -/
def Obligations.StairTimeMasks : Prop := Claim.StairTime ∧ Claim.StairMasks

/-- The stair tree: its beats, its forming, its changes of parent. -/
def Obligations.TreeFormation : Prop := Claim.TreeBeats ∧ Claim.TreeForming ∧ Claim.TreeParents

/-- Data over the stair tree. -/
def Obligations.TreeData : Prop := Claim.TreeSums ∧ Claim.TreeGrams

/-- Over-the-air calibration: rounds and windows. -/
def Obligations.OtaRoundWindows : Prop := Claim.OtaRounds ∧ Claim.OtaWindows

/-- Over-the-air calibration: captures and the solution. -/
def Obligations.OtaCapturesSolution : Prop := Claim.OtaReception ∧ Claim.OtaSolutions

/-- Transactions of a landing. -/
def Obligations.TxnOnLanding : Prop := Claim.TxnOpening ∧ Claim.TxnLocal

/-- Array-wide transactions: requests and votes. -/
def Obligations.TxnRequestsVotes : Prop := Claim.TxnRequests ∧ Claim.TxnVotes

/-- Recovery of halls, pipelines, the beam engine, the atrium and the corridors. -/
def Obligations.RecoveryOfUnits : Prop := Claim.RecoverUnits ∧ Claim.RecoverInPlace

/-- The reference clock and the source of array time. -/
def Obligations.ReferenceTime : Prop := Claim.Refclk ∧ Claim.TimeSources

/-- Islands, their synthesisers and the converter clock. -/
def Obligations.ClockIslands : Prop := Claim.Islands ∧ Claim.ConverterClock

/-- Entering a power state and waking. -/
def Obligations.PowerStates : Prop := Claim.PowerEntry ∧ Claim.PowerWake

/-- The energy planner and its inputs. -/
def Obligations.EnergyPlanner : Prop := Claim.PlannerSlots ∧ Claim.PlannerInputs

/-- Housekeeping rounds and injected conversions. -/
def Obligations.Housekeeping : Prop := Claim.HkRounds ∧ Claim.HkInjected

/-- System calibration and factory trims. -/
def Obligations.HkCalibrationTrims : Prop := Claim.SysCalibration ∧ Claim.Trims
end

