-- ==== Sys2Proof/Laws/Cells.lean ====
section
/-!
SUPPORT. The two stores: a read finds what was written last, a write leaves every other place alone, and every operation on a store
keeps its canonical form (R16, R696, R697).
-/

namespace Sys2Proof.Machine

open Sys2Proof

/-! ### Cells -/

section Cells

variable {α : Type} [DecidableEq α] {d v : α} {k j : Nat} {l : List (Nat × α)}

omit [DecidableEq α] in
theorem findCell_dropCell_same (k : Nat) (l : List (Nat × α)) : findCell k (dropCell k l) = none := by
  induction l with
  | nil => rfl
  | cons e l ih =>
    unfold dropCell at ih ⊢
    by_cases h : e.1 = k
    · simpa [List.filter_cons, h] using ih
    · simpa [List.filter_cons, h, findCell] using ih

omit [DecidableEq α] in
theorem findCell_dropCell_other (h : j ≠ k) (l : List (Nat × α)) : findCell j (dropCell k l) = findCell j l := by
  induction l with
  | nil => rfl
  | cons e l ih =>
    unfold dropCell at ih ⊢
    by_cases hk : e.1 = k
    · have hj : ¬ e.1 = j := fun hj => h (hj.symm.trans hk)
      simp only [List.filter_cons, hk, bne_self_eq_false, Bool.false_eq_true, if_false, findCell, ih]
      rw [if_neg (by simpa [hk] using hj)]
    · by_cases hj : e.1 = j
      · subst hj; simp [hk, findCell]
      · simp [hk, findCell, hj, ih]

/-- A key reads as the value inserted last. -/
theorem findCell_insertCell_same (d : α) (k : Nat) (v : α) (l : List (Nat × α)) : (findCell k (insertCell d k v l)).getD d = v := by
  induction l with
  | nil => by_cases h : v = d <;> simp [insertCell, findCell, h]
  | cons e l ih =>
    obtain ⟨a, x⟩ := e
    unfold insertCell
    split
    · split
      · simp [findCell_dropCell_same, *]
      · simp [findCell]
    · split
      · split
        · simp [findCell_dropCell_same, *]
        · simp [findCell, *]
      · rename_i h1 h2
        have h3 : ¬ a = k := fun h => h2 h.symm
        simpa [findCell, h3] using ih

/-- Another key reads as before. -/
theorem findCell_insertCell_other (h : j ≠ k) (d v : α) (l : List (Nat × α)) : findCell j (insertCell d k v l) = findCell j l := by
  have hk : ¬ k = j := fun e => h e.symm
  induction l with
  | nil => by_cases hv : v = d <;> simp [insertCell, findCell, hv, hk]
  | cons e l ih =>
    obtain ⟨a, x⟩ := e
    unfold insertCell
    split
    · split
      · exact findCell_dropCell_other h _
      · simp [findCell, hk]
    · split
      · rename_i h1 h2
        subst h2
        split
        · simp [findCell_dropCell_other h, findCell, hk]
        · simp [findCell, hk]
      · simp [findCell, ih]

omit [DecidableEq α] in
/-- Strictly rising keys, pair by pair. -/
theorem rising_iff (l : List (Nat × α)) : rising l = true ↔ l.Pairwise fun x y => x.1 < y.1 := by
  match l with
  | [] => simp [rising]
  | [_] => simp [rising]
  | (a, x) :: (b, y) :: rest =>
    have split : List.Pairwise (fun x y => x.1 < y.1) ((a, x) :: (b, y) :: rest) ↔
        (∀ z ∈ (b, y) :: rest, a < z.1) ∧ List.Pairwise (fun x y => x.1 < y.1) ((b, y) :: rest) := List.pairwise_cons
    rw [rising, Bool.and_eq_true, rising_iff ((b, y) :: rest), split, decide_eq_true_eq]
    constructor
    · rintro ⟨h, p⟩
      refine ⟨fun z hz => ?_, p⟩
      rcases List.mem_cons.1 hz with rfl | hz
      · exact h
      · exact h.trans ((List.pairwise_cons.1 p).1 z hz)
    · rintro ⟨h, p⟩
      exact ⟨h (b, y) (by simp), p⟩

theorem mem_insertCell {e : Nat × α} (h : e ∈ insertCell d k v l) : e ∈ l ∨ (e = (k, v) ∧ v ≠ d) := by
  induction l with
  | nil =>
    by_cases hv : v = d
    · simp [insertCell, hv] at h
    · right; simpa [insertCell, hv] using h
  | cons x l ih =>
    obtain ⟨a, y⟩ := x
    unfold insertCell at h
    split at h
    · split at h
      · exact .inl (List.mem_of_mem_filter h)
      · rcases List.mem_cons.1 h with rfl | h
        · exact .inr ⟨rfl, ‹_›⟩
        · exact .inl h
    · split at h
      · split at h
        · exact .inl (List.mem_cons_of_mem _ (List.mem_of_mem_filter h))
        · rcases List.mem_cons.1 h with rfl | h
          · exact .inr ⟨rfl, ‹_›⟩
          · exact .inl (List.mem_cons_of_mem _ h)
      · rcases List.mem_cons.1 h with rfl | h
        · exact .inl (by simp)
        · rcases ih h with h | h
          · exact .inl (List.mem_cons_of_mem _ h)
          · exact .inr h

/-- Inserting keeps the order of the keys. -/
theorem rising_insertCell (h : rising l = true) : rising (insertCell d k v l) = true := by
  rw [rising_iff] at h ⊢
  induction l with
  | nil => by_cases hv : v = d <;> simp [insertCell, hv]
  | cons x l ih =>
    obtain ⟨a, y⟩ := x
    have hl := (List.pairwise_cons.1 h).2
    have ha := (List.pairwise_cons.1 h).1
    unfold insertCell
    split
    · split
      · exact h.filter _
      · refine List.pairwise_cons.2 ⟨fun z hz => ?_, h⟩
        rcases List.mem_cons.1 hz with rfl | hz
        · assumption
        · exact lt_trans (by assumption) (ha z hz)
    · split
      · split
        · exact hl.filter _
        · rename_i h2 _; subst h2; exact List.pairwise_cons.2 ⟨ha, hl⟩
      · refine List.pairwise_cons.2 ⟨fun z hz => ?_, ih hl⟩
        rcases mem_insertCell hz with hz | ⟨rfl, -⟩
        · exact ha z hz
        · simp only; omega

omit [DecidableEq α] in
theorem rising_filter (p : Nat × α → Bool) (h : rising l = true) : rising (l.filter p) = true := by
  rw [rising_iff] at h ⊢
  exact h.filter p

end Cells

/-! ### Memory (R16, R696) -/

/-- A byte reads as it was written. -/
@[simp] theorem Memory.read_write_same (m : List Host.Cell) (a : Nat) (b : Byte) : Memory.read (Memory.write m a b) a = b :=
  findCell_insertCell_same _ _ _ _

/-- A write leaves every other byte alone. -/
theorem Memory.read_write_other {a c : Nat} (h : c ≠ a) (m : List Host.Cell) (b : Byte) :
    Memory.read (Memory.write m a b) c = Memory.read m c := by
  unfold Memory.read Memory.write
  rw [findCell_insertCell_other h]

/-- A write keeps the canonical form. -/
theorem Memory.wf_write {m : List Host.Cell} (h : Memory.wf m = true) (a : Nat) (b : Byte) : Memory.wf (Memory.write m a b) = true := by
  unfold Memory.wf at h ⊢
  rw [Bool.and_eq_true] at h ⊢
  refine ⟨rising_insertCell h.1, List.all_eq_true.2 fun e he => ?_⟩
  rcases mem_insertCell he with he | ⟨rfl, hb⟩
  · exact List.all_eq_true.1 h.2 e he
  · simpa using hb

/-- A run of writes keeps the canonical form. -/
theorem Memory.wf_writeBytes {m : List Host.Cell} (h : Memory.wf m = true) (a : Nat) (bs : List Byte) :
    Memory.wf (Memory.writeBytes m a bs) = true := by
  induction bs generalizing m a with
  | nil => exact h
  | cons b bs ih => exact ih (Memory.wf_write h a b) (a + 1)

/-- Clearing a range keeps the canonical form. -/
theorem Memory.wf_clear {m : List Host.Cell} (h : Memory.wf m = true) (a n : Nat) : Memory.wf (Memory.clear m a n) = true := by
  unfold Memory.wf Memory.clear at *
  rw [Bool.and_eq_true] at h ⊢
  exact ⟨rising_filter _ h.1, List.all_eq_true.2 fun e he => List.all_eq_true.1 h.2 e (List.mem_of_mem_filter he)⟩

/-- A run of writes leaves every byte outside it alone. -/
theorem Memory.read_writeBytes_outside {a c : Nat} (m : List Host.Cell) (bs : List Byte) (h : c < a ∨ a + bs.length ≤ c) :
    Memory.read (Memory.writeBytes m a bs) c = Memory.read m c := by
  induction bs generalizing m a with
  | nil => rfl
  | cons b bs ih =>
    simp only [List.length_cons] at h
    rw [Memory.writeBytes, ih _ (by omega), Memory.read_write_other (by omega)]

/-- A run of writes reads back. -/
theorem Memory.read_writeBytes_inside {a i : Nat} (m : List Host.Cell) (bs : List Byte) (h : i < bs.length) :
    Memory.read (Memory.writeBytes m a bs) (a + i) = bs[i] := by
  induction bs generalizing m a i with
  | nil => simp at h
  | cons b bs ih =>
    cases i with
    | zero =>
      rw [Memory.writeBytes, Memory.read_writeBytes_outside _ _ (by omega)]
      simp
    | succ i =>
      have := ih (m := Memory.write m a b) (a := a + 1) (i := i) (by simpa using h)
      rw [Memory.writeBytes, show a + (i + 1) = a + 1 + i by omega, this]
      rfl

/-! ### The register file (R694 to R697) -/

/-- A register reads as it was written. -/
@[simp] theorem RegFile.read_write_same (r : List (Nat × Word)) (a : Nat) (v : Word) : RegFile.read (RegFile.write r a v) a = v :=
  findCell_insertCell_same _ _ _ _

/-- A write leaves every other register alone. -/
theorem RegFile.read_write_other {a c : Nat} (h : c ≠ a) (r : List (Nat × Word)) (v : Word) :
    RegFile.read (RegFile.write r a v) c = RegFile.read r c := by
  unfold RegFile.read RegFile.write
  rw [findCell_insertCell_other h]

/-- A write keeps the canonical form. -/
theorem RegFile.wf_write {r : List (Nat × Word)} (h : RegFile.wf r = true) (a : Nat) (v : Word) : RegFile.wf (RegFile.write r a v) = true := by
  unfold RegFile.wf at h ⊢
  rw [Bool.and_eq_true] at h ⊢
  refine ⟨rising_insertCell h.1, List.all_eq_true.2 fun e he => ?_⟩
  rcases mem_insertCell he with he | ⟨rfl, hb⟩
  · exact List.all_eq_true.1 h.2 e he
  · simpa using hb

/-- Forgetting a range of registers keeps the canonical form. -/
theorem State.regs_wf_resetRange {s : State} (h : RegFile.wf s.regs = true) (lo hi : Nat) : RegFile.wf (s.resetRange lo hi).regs = true := by
  unfold RegFile.wf State.resetRange at *
  rw [Bool.and_eq_true] at h ⊢
  exact ⟨rising_filter _ h.1, List.all_eq_true.2 fun e he => List.all_eq_true.1 h.2 e (List.mem_of_mem_filter he)⟩

end Sys2Proof.Machine
end

