-- ==== Sys2Proof/Laws/State.lean ====
section
/-!
SUPPORT. What each plain update of the state leaves as it was: one lemma per field and update, and the same for the words and fields of the
registers where the update does not touch them.
-/

namespace Sys2Proof.Machine

open Sys2Proof

/-! ### setWord -/

@[simp] theorem State.now_setWord (s : State) (a : Nat) (v : Word) : (s.setWord a v).now = s.now := rfl
@[simp] theorem State.mem_setWord (s : State) (a : Nat) (v : Word) : (s.setWord a v).mem = s.mem := rfl
@[simp] theorem State.trims_setWord (s : State) (a : Nat) (v : Word) : (s.setWord a v).trims = s.trims := rfl
@[simp] theorem State.trimsRx_setWord (s : State) (a : Nat) (v : Word) : (s.setWord a v).trimsRx = s.trimsRx := rfl
@[simp] theorem State.trimsDelay_setWord (s : State) (a : Nat) (v : Word) : (s.setWord a v).trimsDelay = s.trimsDelay := rfl
@[simp] theorem State.trimsTone_setWord (s : State) (a : Nat) (v : Word) : (s.setWord a v).trimsTone = s.trimsTone := rfl
@[simp] theorem State.trimsLoaded_setWord (s : State) (a : Nat) (v : Word) : (s.setWord a v).trimsLoaded = s.trimsLoaded := rfl
@[simp] theorem State.trimsBad_setWord (s : State) (a : Nat) (v : Word) : (s.setWord a v).trimsBad = s.trimsBad := rfl
@[simp] theorem State.chans_setWord (s : State) (a : Nat) (v : Word) : (s.setWord a v).chans = s.chans := rfl
@[simp] theorem State.sessions_setWord (s : State) (a : Nat) (v : Word) : (s.setWord a v).sessions = s.sessions := rfl
@[simp] theorem State.keep_setWord (s : State) (a : Nat) (v : Word) : (s.setWord a v).keep = s.keep := rfl
@[simp] theorem State.sec_setWord (s : State) (a : Nat) (v : Word) : (s.setWord a v).sec = s.sec := rfl
@[simp] theorem State.image_setWord (s : State) (a : Nat) (v : Word) : (s.setWord a v).image = s.image := rfl
@[simp] theorem State.boot_setWord (s : State) (a : Nat) (v : Word) : (s.setWord a v).boot = s.boot := rfl
@[simp] theorem State.txn_setWord (s : State) (a : Nat) (v : Word) : (s.setWord a v).txn = s.txn := rfl
@[simp] theorem State.radio_setWord (s : State) (a : Nat) (v : Word) : (s.setWord a v).radio = s.radio := rfl
@[simp] theorem State.clock_setWord (s : State) (a : Nat) (v : Word) : (s.setWord a v).clock = s.clock := rfl
@[simp] theorem State.log_setWord (s : State) (a : Nat) (v : Word) : (s.setWord a v).log = s.log := rfl
@[simp] theorem State.intN_setWord (s : State) (a : Nat) (v : Word) : (s.setWord a v).intN = s.intN := rfl
@[simp] theorem State.faultN_setWord (s : State) (a : Nat) (v : Word) : (s.setWord a v).faultN = s.faultN := rfl
@[simp] theorem State.carriers_setWord (s : State) (a : Nat) (v : Word) : (s.setWord a v).carriers = s.carriers := rfl
@[simp] theorem State.cap_setWord (s : State) (a : Nat) (v : Word) : (s.setWord a v).cap = s.cap := rfl
@[simp] theorem State.obs_setWord (s : State) (a : Nat) (v : Word) : (s.setWord a v).obs = s.obs := rfl
@[simp] theorem State.obsPath_setWord (s : State) (a : Nat) (v : Word) : (s.setWord a v).obsPath = s.obsPath := rfl
@[simp] theorem State.gates_setWord (s : State) (a : Nat) (v : Word) : (s.setWord a v).gates = s.gates := rfl
@[simp] theorem State.txBlocks_setWord (s : State) (a : Nat) (v : Word) : (s.setWord a v).txBlocks = s.txBlocks := rfl
@[simp] theorem State.txDone_setWord (s : State) (a : Nat) (v : Word) : (s.setWord a v).txDone = s.txDone := rfl
@[simp] theorem State.free_setWord (s : State) (a : Nat) (v : Word) : (s.setWord a v).free = s.free := rfl
@[simp] theorem State.beam_setWord (s : State) (a : Nat) (v : Word) : (s.setWord a v).beam = s.beam := rfl
@[simp] theorem State.fh_setWord (s : State) (a : Nat) (v : Word) : (s.setWord a v).fh = s.fh := rfl
@[simp] theorem State.halls_setWord (s : State) (a : Nat) (v : Word) : (s.setWord a v).halls = s.halls := rfl
@[simp] theorem State.alcoves_setWord (s : State) (a : Nat) (v : Word) : (s.setWord a v).alcoves = s.alcoves := rfl
@[simp] theorem State.flits_setWord (s : State) (a : Nat) (v : Word) : (s.setWord a v).flits = s.flits := rfl
@[simp] theorem State.routers_setWord (s : State) (a : Nat) (v : Word) : (s.setWord a v).routers = s.routers := rfl
@[simp] theorem State.stair_setWord (s : State) (a : Nat) (v : Word) : (s.setWord a v).stair = s.stair := rfl
@[simp] theorem State.ota_setWord (s : State) (a : Nat) (v : Word) : (s.setWord a v).ota = s.ota := rfl
@[simp] theorem State.recov_setWord (s : State) (a : Nat) (v : Word) : (s.setWord a v).recov = s.recov := rfl
@[simp] theorem State.energy_setWord (s : State) (a : Nat) (v : Word) : (s.setWord a v).energy = s.energy := rfl
@[simp] theorem State.hk_setWord (s : State) (a : Nat) (v : Word) : (s.setWord a v).hk = s.hk := rfl
@[simp] theorem State.timers_setWord (s : State) (a : Nat) (v : Word) : (s.setWord a v).timers = s.timers := rfl
@[simp] theorem State.out_setWord (s : State) (a : Nat) (v : Word) : (s.setWord a v).out = s.out := rfl
@[simp] theorem State.pending_setWord (s : State) (a : Nat) (v : Word) : (s.setWord a v).pending = s.pending := rfl

/-! ### put -/

@[simp] theorem State.now_put (s : State) (f : Fld) (v : Nat) : (s.put f v).now = s.now := rfl
@[simp] theorem State.mem_put (s : State) (f : Fld) (v : Nat) : (s.put f v).mem = s.mem := rfl
@[simp] theorem State.trims_put (s : State) (f : Fld) (v : Nat) : (s.put f v).trims = s.trims := rfl
@[simp] theorem State.trimsRx_put (s : State) (f : Fld) (v : Nat) : (s.put f v).trimsRx = s.trimsRx := rfl
@[simp] theorem State.trimsDelay_put (s : State) (f : Fld) (v : Nat) : (s.put f v).trimsDelay = s.trimsDelay := rfl
@[simp] theorem State.trimsTone_put (s : State) (f : Fld) (v : Nat) : (s.put f v).trimsTone = s.trimsTone := rfl
@[simp] theorem State.trimsLoaded_put (s : State) (f : Fld) (v : Nat) : (s.put f v).trimsLoaded = s.trimsLoaded := rfl
@[simp] theorem State.trimsBad_put (s : State) (f : Fld) (v : Nat) : (s.put f v).trimsBad = s.trimsBad := rfl
@[simp] theorem State.chans_put (s : State) (f : Fld) (v : Nat) : (s.put f v).chans = s.chans := rfl
@[simp] theorem State.sessions_put (s : State) (f : Fld) (v : Nat) : (s.put f v).sessions = s.sessions := rfl
@[simp] theorem State.keep_put (s : State) (f : Fld) (v : Nat) : (s.put f v).keep = s.keep := rfl
@[simp] theorem State.sec_put (s : State) (f : Fld) (v : Nat) : (s.put f v).sec = s.sec := rfl
@[simp] theorem State.image_put (s : State) (f : Fld) (v : Nat) : (s.put f v).image = s.image := rfl
@[simp] theorem State.boot_put (s : State) (f : Fld) (v : Nat) : (s.put f v).boot = s.boot := rfl
@[simp] theorem State.txn_put (s : State) (f : Fld) (v : Nat) : (s.put f v).txn = s.txn := rfl
@[simp] theorem State.radio_put (s : State) (f : Fld) (v : Nat) : (s.put f v).radio = s.radio := rfl
@[simp] theorem State.clock_put (s : State) (f : Fld) (v : Nat) : (s.put f v).clock = s.clock := rfl
@[simp] theorem State.log_put (s : State) (f : Fld) (v : Nat) : (s.put f v).log = s.log := rfl
@[simp] theorem State.intN_put (s : State) (f : Fld) (v : Nat) : (s.put f v).intN = s.intN := rfl
@[simp] theorem State.faultN_put (s : State) (f : Fld) (v : Nat) : (s.put f v).faultN = s.faultN := rfl
@[simp] theorem State.carriers_put (s : State) (f : Fld) (v : Nat) : (s.put f v).carriers = s.carriers := rfl
@[simp] theorem State.cap_put (s : State) (f : Fld) (v : Nat) : (s.put f v).cap = s.cap := rfl
@[simp] theorem State.obs_put (s : State) (f : Fld) (v : Nat) : (s.put f v).obs = s.obs := rfl
@[simp] theorem State.obsPath_put (s : State) (f : Fld) (v : Nat) : (s.put f v).obsPath = s.obsPath := rfl
@[simp] theorem State.gates_put (s : State) (f : Fld) (v : Nat) : (s.put f v).gates = s.gates := rfl
@[simp] theorem State.txBlocks_put (s : State) (f : Fld) (v : Nat) : (s.put f v).txBlocks = s.txBlocks := rfl
@[simp] theorem State.txDone_put (s : State) (f : Fld) (v : Nat) : (s.put f v).txDone = s.txDone := rfl
@[simp] theorem State.free_put (s : State) (f : Fld) (v : Nat) : (s.put f v).free = s.free := rfl
@[simp] theorem State.beam_put (s : State) (f : Fld) (v : Nat) : (s.put f v).beam = s.beam := rfl
@[simp] theorem State.fh_put (s : State) (f : Fld) (v : Nat) : (s.put f v).fh = s.fh := rfl
@[simp] theorem State.halls_put (s : State) (f : Fld) (v : Nat) : (s.put f v).halls = s.halls := rfl
@[simp] theorem State.alcoves_put (s : State) (f : Fld) (v : Nat) : (s.put f v).alcoves = s.alcoves := rfl
@[simp] theorem State.flits_put (s : State) (f : Fld) (v : Nat) : (s.put f v).flits = s.flits := rfl
@[simp] theorem State.routers_put (s : State) (f : Fld) (v : Nat) : (s.put f v).routers = s.routers := rfl
@[simp] theorem State.stair_put (s : State) (f : Fld) (v : Nat) : (s.put f v).stair = s.stair := rfl
@[simp] theorem State.ota_put (s : State) (f : Fld) (v : Nat) : (s.put f v).ota = s.ota := rfl
@[simp] theorem State.recov_put (s : State) (f : Fld) (v : Nat) : (s.put f v).recov = s.recov := rfl
@[simp] theorem State.energy_put (s : State) (f : Fld) (v : Nat) : (s.put f v).energy = s.energy := rfl
@[simp] theorem State.hk_put (s : State) (f : Fld) (v : Nat) : (s.put f v).hk = s.hk := rfl
@[simp] theorem State.timers_put (s : State) (f : Fld) (v : Nat) : (s.put f v).timers = s.timers := rfl
@[simp] theorem State.out_put (s : State) (f : Fld) (v : Nat) : (s.put f v).out = s.out := rfl
@[simp] theorem State.pending_put (s : State) (f : Fld) (v : Nat) : (s.put f v).pending = s.pending := rfl

/-! ### putB -/

@[simp] theorem State.now_putB (s : State) (f : Fld) (b : Bool) : (s.putB f b).now = s.now := rfl
@[simp] theorem State.mem_putB (s : State) (f : Fld) (b : Bool) : (s.putB f b).mem = s.mem := rfl
@[simp] theorem State.trims_putB (s : State) (f : Fld) (b : Bool) : (s.putB f b).trims = s.trims := rfl
@[simp] theorem State.trimsRx_putB (s : State) (f : Fld) (b : Bool) : (s.putB f b).trimsRx = s.trimsRx := rfl
@[simp] theorem State.trimsDelay_putB (s : State) (f : Fld) (b : Bool) : (s.putB f b).trimsDelay = s.trimsDelay := rfl
@[simp] theorem State.trimsTone_putB (s : State) (f : Fld) (b : Bool) : (s.putB f b).trimsTone = s.trimsTone := rfl
@[simp] theorem State.trimsLoaded_putB (s : State) (f : Fld) (b : Bool) : (s.putB f b).trimsLoaded = s.trimsLoaded := rfl
@[simp] theorem State.trimsBad_putB (s : State) (f : Fld) (b : Bool) : (s.putB f b).trimsBad = s.trimsBad := rfl
@[simp] theorem State.chans_putB (s : State) (f : Fld) (b : Bool) : (s.putB f b).chans = s.chans := rfl
@[simp] theorem State.sessions_putB (s : State) (f : Fld) (b : Bool) : (s.putB f b).sessions = s.sessions := rfl
@[simp] theorem State.keep_putB (s : State) (f : Fld) (b : Bool) : (s.putB f b).keep = s.keep := rfl
@[simp] theorem State.sec_putB (s : State) (f : Fld) (b : Bool) : (s.putB f b).sec = s.sec := rfl
@[simp] theorem State.image_putB (s : State) (f : Fld) (b : Bool) : (s.putB f b).image = s.image := rfl
@[simp] theorem State.boot_putB (s : State) (f : Fld) (b : Bool) : (s.putB f b).boot = s.boot := rfl
@[simp] theorem State.txn_putB (s : State) (f : Fld) (b : Bool) : (s.putB f b).txn = s.txn := rfl
@[simp] theorem State.radio_putB (s : State) (f : Fld) (b : Bool) : (s.putB f b).radio = s.radio := rfl
@[simp] theorem State.clock_putB (s : State) (f : Fld) (b : Bool) : (s.putB f b).clock = s.clock := rfl
@[simp] theorem State.log_putB (s : State) (f : Fld) (b : Bool) : (s.putB f b).log = s.log := rfl
@[simp] theorem State.intN_putB (s : State) (f : Fld) (b : Bool) : (s.putB f b).intN = s.intN := rfl
@[simp] theorem State.faultN_putB (s : State) (f : Fld) (b : Bool) : (s.putB f b).faultN = s.faultN := rfl
@[simp] theorem State.carriers_putB (s : State) (f : Fld) (b : Bool) : (s.putB f b).carriers = s.carriers := rfl
@[simp] theorem State.cap_putB (s : State) (f : Fld) (b : Bool) : (s.putB f b).cap = s.cap := rfl
@[simp] theorem State.obs_putB (s : State) (f : Fld) (b : Bool) : (s.putB f b).obs = s.obs := rfl
@[simp] theorem State.obsPath_putB (s : State) (f : Fld) (b : Bool) : (s.putB f b).obsPath = s.obsPath := rfl
@[simp] theorem State.gates_putB (s : State) (f : Fld) (b : Bool) : (s.putB f b).gates = s.gates := rfl
@[simp] theorem State.txBlocks_putB (s : State) (f : Fld) (b : Bool) : (s.putB f b).txBlocks = s.txBlocks := rfl
@[simp] theorem State.txDone_putB (s : State) (f : Fld) (b : Bool) : (s.putB f b).txDone = s.txDone := rfl
@[simp] theorem State.free_putB (s : State) (f : Fld) (b : Bool) : (s.putB f b).free = s.free := rfl
@[simp] theorem State.beam_putB (s : State) (f : Fld) (b : Bool) : (s.putB f b).beam = s.beam := rfl
@[simp] theorem State.fh_putB (s : State) (f : Fld) (b : Bool) : (s.putB f b).fh = s.fh := rfl
@[simp] theorem State.halls_putB (s : State) (f : Fld) (b : Bool) : (s.putB f b).halls = s.halls := rfl
@[simp] theorem State.alcoves_putB (s : State) (f : Fld) (b : Bool) : (s.putB f b).alcoves = s.alcoves := rfl
@[simp] theorem State.flits_putB (s : State) (f : Fld) (b : Bool) : (s.putB f b).flits = s.flits := rfl
@[simp] theorem State.routers_putB (s : State) (f : Fld) (b : Bool) : (s.putB f b).routers = s.routers := rfl
@[simp] theorem State.stair_putB (s : State) (f : Fld) (b : Bool) : (s.putB f b).stair = s.stair := rfl
@[simp] theorem State.ota_putB (s : State) (f : Fld) (b : Bool) : (s.putB f b).ota = s.ota := rfl
@[simp] theorem State.recov_putB (s : State) (f : Fld) (b : Bool) : (s.putB f b).recov = s.recov := rfl
@[simp] theorem State.energy_putB (s : State) (f : Fld) (b : Bool) : (s.putB f b).energy = s.energy := rfl
@[simp] theorem State.hk_putB (s : State) (f : Fld) (b : Bool) : (s.putB f b).hk = s.hk := rfl
@[simp] theorem State.timers_putB (s : State) (f : Fld) (b : Bool) : (s.putB f b).timers = s.timers := rfl
@[simp] theorem State.out_putB (s : State) (f : Fld) (b : Bool) : (s.putB f b).out = s.out := rfl
@[simp] theorem State.pending_putB (s : State) (f : Fld) (b : Bool) : (s.putB f b).pending = s.pending := rfl

/-! ### putS -/

@[simp] theorem State.now_putS (s : State) (f : Fld) (x : Int) : (s.putS f x).now = s.now := rfl
@[simp] theorem State.mem_putS (s : State) (f : Fld) (x : Int) : (s.putS f x).mem = s.mem := rfl
@[simp] theorem State.trims_putS (s : State) (f : Fld) (x : Int) : (s.putS f x).trims = s.trims := rfl
@[simp] theorem State.trimsRx_putS (s : State) (f : Fld) (x : Int) : (s.putS f x).trimsRx = s.trimsRx := rfl
@[simp] theorem State.trimsDelay_putS (s : State) (f : Fld) (x : Int) : (s.putS f x).trimsDelay = s.trimsDelay := rfl
@[simp] theorem State.trimsTone_putS (s : State) (f : Fld) (x : Int) : (s.putS f x).trimsTone = s.trimsTone := rfl
@[simp] theorem State.trimsLoaded_putS (s : State) (f : Fld) (x : Int) : (s.putS f x).trimsLoaded = s.trimsLoaded := rfl
@[simp] theorem State.trimsBad_putS (s : State) (f : Fld) (x : Int) : (s.putS f x).trimsBad = s.trimsBad := rfl
@[simp] theorem State.chans_putS (s : State) (f : Fld) (x : Int) : (s.putS f x).chans = s.chans := rfl
@[simp] theorem State.sessions_putS (s : State) (f : Fld) (x : Int) : (s.putS f x).sessions = s.sessions := rfl
@[simp] theorem State.keep_putS (s : State) (f : Fld) (x : Int) : (s.putS f x).keep = s.keep := rfl
@[simp] theorem State.sec_putS (s : State) (f : Fld) (x : Int) : (s.putS f x).sec = s.sec := rfl
@[simp] theorem State.image_putS (s : State) (f : Fld) (x : Int) : (s.putS f x).image = s.image := rfl
@[simp] theorem State.boot_putS (s : State) (f : Fld) (x : Int) : (s.putS f x).boot = s.boot := rfl
@[simp] theorem State.txn_putS (s : State) (f : Fld) (x : Int) : (s.putS f x).txn = s.txn := rfl
@[simp] theorem State.radio_putS (s : State) (f : Fld) (x : Int) : (s.putS f x).radio = s.radio := rfl
@[simp] theorem State.clock_putS (s : State) (f : Fld) (x : Int) : (s.putS f x).clock = s.clock := rfl
@[simp] theorem State.log_putS (s : State) (f : Fld) (x : Int) : (s.putS f x).log = s.log := rfl
@[simp] theorem State.intN_putS (s : State) (f : Fld) (x : Int) : (s.putS f x).intN = s.intN := rfl
@[simp] theorem State.faultN_putS (s : State) (f : Fld) (x : Int) : (s.putS f x).faultN = s.faultN := rfl
@[simp] theorem State.carriers_putS (s : State) (f : Fld) (x : Int) : (s.putS f x).carriers = s.carriers := rfl
@[simp] theorem State.cap_putS (s : State) (f : Fld) (x : Int) : (s.putS f x).cap = s.cap := rfl
@[simp] theorem State.obs_putS (s : State) (f : Fld) (x : Int) : (s.putS f x).obs = s.obs := rfl
@[simp] theorem State.obsPath_putS (s : State) (f : Fld) (x : Int) : (s.putS f x).obsPath = s.obsPath := rfl
@[simp] theorem State.gates_putS (s : State) (f : Fld) (x : Int) : (s.putS f x).gates = s.gates := rfl
@[simp] theorem State.txBlocks_putS (s : State) (f : Fld) (x : Int) : (s.putS f x).txBlocks = s.txBlocks := rfl
@[simp] theorem State.txDone_putS (s : State) (f : Fld) (x : Int) : (s.putS f x).txDone = s.txDone := rfl
@[simp] theorem State.free_putS (s : State) (f : Fld) (x : Int) : (s.putS f x).free = s.free := rfl
@[simp] theorem State.beam_putS (s : State) (f : Fld) (x : Int) : (s.putS f x).beam = s.beam := rfl
@[simp] theorem State.fh_putS (s : State) (f : Fld) (x : Int) : (s.putS f x).fh = s.fh := rfl
@[simp] theorem State.halls_putS (s : State) (f : Fld) (x : Int) : (s.putS f x).halls = s.halls := rfl
@[simp] theorem State.alcoves_putS (s : State) (f : Fld) (x : Int) : (s.putS f x).alcoves = s.alcoves := rfl
@[simp] theorem State.flits_putS (s : State) (f : Fld) (x : Int) : (s.putS f x).flits = s.flits := rfl
@[simp] theorem State.routers_putS (s : State) (f : Fld) (x : Int) : (s.putS f x).routers = s.routers := rfl
@[simp] theorem State.stair_putS (s : State) (f : Fld) (x : Int) : (s.putS f x).stair = s.stair := rfl
@[simp] theorem State.ota_putS (s : State) (f : Fld) (x : Int) : (s.putS f x).ota = s.ota := rfl
@[simp] theorem State.recov_putS (s : State) (f : Fld) (x : Int) : (s.putS f x).recov = s.recov := rfl
@[simp] theorem State.energy_putS (s : State) (f : Fld) (x : Int) : (s.putS f x).energy = s.energy := rfl
@[simp] theorem State.hk_putS (s : State) (f : Fld) (x : Int) : (s.putS f x).hk = s.hk := rfl
@[simp] theorem State.timers_putS (s : State) (f : Fld) (x : Int) : (s.putS f x).timers = s.timers := rfl
@[simp] theorem State.out_putS (s : State) (f : Fld) (x : Int) : (s.putS f x).out = s.out := rfl
@[simp] theorem State.pending_putS (s : State) (f : Fld) (x : Int) : (s.putS f x).pending = s.pending := rfl

/-! ### addTo -/

@[simp] theorem State.now_addTo (s : State) (f : Fld) (n : Nat) : (s.addTo f n).now = s.now := rfl
@[simp] theorem State.mem_addTo (s : State) (f : Fld) (n : Nat) : (s.addTo f n).mem = s.mem := rfl
@[simp] theorem State.trims_addTo (s : State) (f : Fld) (n : Nat) : (s.addTo f n).trims = s.trims := rfl
@[simp] theorem State.trimsRx_addTo (s : State) (f : Fld) (n : Nat) : (s.addTo f n).trimsRx = s.trimsRx := rfl
@[simp] theorem State.trimsDelay_addTo (s : State) (f : Fld) (n : Nat) : (s.addTo f n).trimsDelay = s.trimsDelay := rfl
@[simp] theorem State.trimsTone_addTo (s : State) (f : Fld) (n : Nat) : (s.addTo f n).trimsTone = s.trimsTone := rfl
@[simp] theorem State.trimsLoaded_addTo (s : State) (f : Fld) (n : Nat) : (s.addTo f n).trimsLoaded = s.trimsLoaded := rfl
@[simp] theorem State.trimsBad_addTo (s : State) (f : Fld) (n : Nat) : (s.addTo f n).trimsBad = s.trimsBad := rfl
@[simp] theorem State.chans_addTo (s : State) (f : Fld) (n : Nat) : (s.addTo f n).chans = s.chans := rfl
@[simp] theorem State.sessions_addTo (s : State) (f : Fld) (n : Nat) : (s.addTo f n).sessions = s.sessions := rfl
@[simp] theorem State.keep_addTo (s : State) (f : Fld) (n : Nat) : (s.addTo f n).keep = s.keep := rfl
@[simp] theorem State.sec_addTo (s : State) (f : Fld) (n : Nat) : (s.addTo f n).sec = s.sec := rfl
@[simp] theorem State.image_addTo (s : State) (f : Fld) (n : Nat) : (s.addTo f n).image = s.image := rfl
@[simp] theorem State.boot_addTo (s : State) (f : Fld) (n : Nat) : (s.addTo f n).boot = s.boot := rfl
@[simp] theorem State.txn_addTo (s : State) (f : Fld) (n : Nat) : (s.addTo f n).txn = s.txn := rfl
@[simp] theorem State.radio_addTo (s : State) (f : Fld) (n : Nat) : (s.addTo f n).radio = s.radio := rfl
@[simp] theorem State.clock_addTo (s : State) (f : Fld) (n : Nat) : (s.addTo f n).clock = s.clock := rfl
@[simp] theorem State.log_addTo (s : State) (f : Fld) (n : Nat) : (s.addTo f n).log = s.log := rfl
@[simp] theorem State.intN_addTo (s : State) (f : Fld) (n : Nat) : (s.addTo f n).intN = s.intN := rfl
@[simp] theorem State.faultN_addTo (s : State) (f : Fld) (n : Nat) : (s.addTo f n).faultN = s.faultN := rfl
@[simp] theorem State.carriers_addTo (s : State) (f : Fld) (n : Nat) : (s.addTo f n).carriers = s.carriers := rfl
@[simp] theorem State.cap_addTo (s : State) (f : Fld) (n : Nat) : (s.addTo f n).cap = s.cap := rfl
@[simp] theorem State.obs_addTo (s : State) (f : Fld) (n : Nat) : (s.addTo f n).obs = s.obs := rfl
@[simp] theorem State.obsPath_addTo (s : State) (f : Fld) (n : Nat) : (s.addTo f n).obsPath = s.obsPath := rfl
@[simp] theorem State.gates_addTo (s : State) (f : Fld) (n : Nat) : (s.addTo f n).gates = s.gates := rfl
@[simp] theorem State.txBlocks_addTo (s : State) (f : Fld) (n : Nat) : (s.addTo f n).txBlocks = s.txBlocks := rfl
@[simp] theorem State.txDone_addTo (s : State) (f : Fld) (n : Nat) : (s.addTo f n).txDone = s.txDone := rfl
@[simp] theorem State.free_addTo (s : State) (f : Fld) (n : Nat) : (s.addTo f n).free = s.free := rfl
@[simp] theorem State.beam_addTo (s : State) (f : Fld) (n : Nat) : (s.addTo f n).beam = s.beam := rfl
@[simp] theorem State.fh_addTo (s : State) (f : Fld) (n : Nat) : (s.addTo f n).fh = s.fh := rfl
@[simp] theorem State.halls_addTo (s : State) (f : Fld) (n : Nat) : (s.addTo f n).halls = s.halls := rfl
@[simp] theorem State.alcoves_addTo (s : State) (f : Fld) (n : Nat) : (s.addTo f n).alcoves = s.alcoves := rfl
@[simp] theorem State.flits_addTo (s : State) (f : Fld) (n : Nat) : (s.addTo f n).flits = s.flits := rfl
@[simp] theorem State.routers_addTo (s : State) (f : Fld) (n : Nat) : (s.addTo f n).routers = s.routers := rfl
@[simp] theorem State.stair_addTo (s : State) (f : Fld) (n : Nat) : (s.addTo f n).stair = s.stair := rfl
@[simp] theorem State.ota_addTo (s : State) (f : Fld) (n : Nat) : (s.addTo f n).ota = s.ota := rfl
@[simp] theorem State.recov_addTo (s : State) (f : Fld) (n : Nat) : (s.addTo f n).recov = s.recov := rfl
@[simp] theorem State.energy_addTo (s : State) (f : Fld) (n : Nat) : (s.addTo f n).energy = s.energy := rfl
@[simp] theorem State.hk_addTo (s : State) (f : Fld) (n : Nat) : (s.addTo f n).hk = s.hk := rfl
@[simp] theorem State.timers_addTo (s : State) (f : Fld) (n : Nat) : (s.addTo f n).timers = s.timers := rfl
@[simp] theorem State.out_addTo (s : State) (f : Fld) (n : Nat) : (s.addTo f n).out = s.out := rfl
@[simp] theorem State.pending_addTo (s : State) (f : Fld) (n : Nat) : (s.addTo f n).pending = s.pending := rfl

/-! ### bump -/

@[simp] theorem State.now_bump (s : State) (f : Fld) : (s.bump f).now = s.now := rfl
@[simp] theorem State.mem_bump (s : State) (f : Fld) : (s.bump f).mem = s.mem := rfl
@[simp] theorem State.trims_bump (s : State) (f : Fld) : (s.bump f).trims = s.trims := rfl
@[simp] theorem State.trimsRx_bump (s : State) (f : Fld) : (s.bump f).trimsRx = s.trimsRx := rfl
@[simp] theorem State.trimsDelay_bump (s : State) (f : Fld) : (s.bump f).trimsDelay = s.trimsDelay := rfl
@[simp] theorem State.trimsTone_bump (s : State) (f : Fld) : (s.bump f).trimsTone = s.trimsTone := rfl
@[simp] theorem State.trimsLoaded_bump (s : State) (f : Fld) : (s.bump f).trimsLoaded = s.trimsLoaded := rfl
@[simp] theorem State.trimsBad_bump (s : State) (f : Fld) : (s.bump f).trimsBad = s.trimsBad := rfl
@[simp] theorem State.chans_bump (s : State) (f : Fld) : (s.bump f).chans = s.chans := rfl
@[simp] theorem State.sessions_bump (s : State) (f : Fld) : (s.bump f).sessions = s.sessions := rfl
@[simp] theorem State.keep_bump (s : State) (f : Fld) : (s.bump f).keep = s.keep := rfl
@[simp] theorem State.sec_bump (s : State) (f : Fld) : (s.bump f).sec = s.sec := rfl
@[simp] theorem State.image_bump (s : State) (f : Fld) : (s.bump f).image = s.image := rfl
@[simp] theorem State.boot_bump (s : State) (f : Fld) : (s.bump f).boot = s.boot := rfl
@[simp] theorem State.txn_bump (s : State) (f : Fld) : (s.bump f).txn = s.txn := rfl
@[simp] theorem State.radio_bump (s : State) (f : Fld) : (s.bump f).radio = s.radio := rfl
@[simp] theorem State.clock_bump (s : State) (f : Fld) : (s.bump f).clock = s.clock := rfl
@[simp] theorem State.log_bump (s : State) (f : Fld) : (s.bump f).log = s.log := rfl
@[simp] theorem State.intN_bump (s : State) (f : Fld) : (s.bump f).intN = s.intN := rfl
@[simp] theorem State.faultN_bump (s : State) (f : Fld) : (s.bump f).faultN = s.faultN := rfl
@[simp] theorem State.carriers_bump (s : State) (f : Fld) : (s.bump f).carriers = s.carriers := rfl
@[simp] theorem State.cap_bump (s : State) (f : Fld) : (s.bump f).cap = s.cap := rfl
@[simp] theorem State.obs_bump (s : State) (f : Fld) : (s.bump f).obs = s.obs := rfl
@[simp] theorem State.obsPath_bump (s : State) (f : Fld) : (s.bump f).obsPath = s.obsPath := rfl
@[simp] theorem State.gates_bump (s : State) (f : Fld) : (s.bump f).gates = s.gates := rfl
@[simp] theorem State.txBlocks_bump (s : State) (f : Fld) : (s.bump f).txBlocks = s.txBlocks := rfl
@[simp] theorem State.txDone_bump (s : State) (f : Fld) : (s.bump f).txDone = s.txDone := rfl
@[simp] theorem State.free_bump (s : State) (f : Fld) : (s.bump f).free = s.free := rfl
@[simp] theorem State.beam_bump (s : State) (f : Fld) : (s.bump f).beam = s.beam := rfl
@[simp] theorem State.fh_bump (s : State) (f : Fld) : (s.bump f).fh = s.fh := rfl
@[simp] theorem State.halls_bump (s : State) (f : Fld) : (s.bump f).halls = s.halls := rfl
@[simp] theorem State.alcoves_bump (s : State) (f : Fld) : (s.bump f).alcoves = s.alcoves := rfl
@[simp] theorem State.flits_bump (s : State) (f : Fld) : (s.bump f).flits = s.flits := rfl
@[simp] theorem State.routers_bump (s : State) (f : Fld) : (s.bump f).routers = s.routers := rfl
@[simp] theorem State.stair_bump (s : State) (f : Fld) : (s.bump f).stair = s.stair := rfl
@[simp] theorem State.ota_bump (s : State) (f : Fld) : (s.bump f).ota = s.ota := rfl
@[simp] theorem State.recov_bump (s : State) (f : Fld) : (s.bump f).recov = s.recov := rfl
@[simp] theorem State.energy_bump (s : State) (f : Fld) : (s.bump f).energy = s.energy := rfl
@[simp] theorem State.hk_bump (s : State) (f : Fld) : (s.bump f).hk = s.hk := rfl
@[simp] theorem State.timers_bump (s : State) (f : Fld) : (s.bump f).timers = s.timers := rfl
@[simp] theorem State.out_bump (s : State) (f : Fld) : (s.bump f).out = s.out := rfl
@[simp] theorem State.pending_bump (s : State) (f : Fld) : (s.bump f).pending = s.pending := rfl

/-! ### bumpSat -/

@[simp] theorem State.now_bumpSat (s : State) (f : Fld) : (s.bumpSat f).now = s.now := rfl
@[simp] theorem State.mem_bumpSat (s : State) (f : Fld) : (s.bumpSat f).mem = s.mem := rfl
@[simp] theorem State.trims_bumpSat (s : State) (f : Fld) : (s.bumpSat f).trims = s.trims := rfl
@[simp] theorem State.trimsRx_bumpSat (s : State) (f : Fld) : (s.bumpSat f).trimsRx = s.trimsRx := rfl
@[simp] theorem State.trimsDelay_bumpSat (s : State) (f : Fld) : (s.bumpSat f).trimsDelay = s.trimsDelay := rfl
@[simp] theorem State.trimsTone_bumpSat (s : State) (f : Fld) : (s.bumpSat f).trimsTone = s.trimsTone := rfl
@[simp] theorem State.trimsLoaded_bumpSat (s : State) (f : Fld) : (s.bumpSat f).trimsLoaded = s.trimsLoaded := rfl
@[simp] theorem State.trimsBad_bumpSat (s : State) (f : Fld) : (s.bumpSat f).trimsBad = s.trimsBad := rfl
@[simp] theorem State.chans_bumpSat (s : State) (f : Fld) : (s.bumpSat f).chans = s.chans := rfl
@[simp] theorem State.sessions_bumpSat (s : State) (f : Fld) : (s.bumpSat f).sessions = s.sessions := rfl
@[simp] theorem State.keep_bumpSat (s : State) (f : Fld) : (s.bumpSat f).keep = s.keep := rfl
@[simp] theorem State.sec_bumpSat (s : State) (f : Fld) : (s.bumpSat f).sec = s.sec := rfl
@[simp] theorem State.image_bumpSat (s : State) (f : Fld) : (s.bumpSat f).image = s.image := rfl
@[simp] theorem State.boot_bumpSat (s : State) (f : Fld) : (s.bumpSat f).boot = s.boot := rfl
@[simp] theorem State.txn_bumpSat (s : State) (f : Fld) : (s.bumpSat f).txn = s.txn := rfl
@[simp] theorem State.radio_bumpSat (s : State) (f : Fld) : (s.bumpSat f).radio = s.radio := rfl
@[simp] theorem State.clock_bumpSat (s : State) (f : Fld) : (s.bumpSat f).clock = s.clock := rfl
@[simp] theorem State.log_bumpSat (s : State) (f : Fld) : (s.bumpSat f).log = s.log := rfl
@[simp] theorem State.intN_bumpSat (s : State) (f : Fld) : (s.bumpSat f).intN = s.intN := rfl
@[simp] theorem State.faultN_bumpSat (s : State) (f : Fld) : (s.bumpSat f).faultN = s.faultN := rfl
@[simp] theorem State.carriers_bumpSat (s : State) (f : Fld) : (s.bumpSat f).carriers = s.carriers := rfl
@[simp] theorem State.cap_bumpSat (s : State) (f : Fld) : (s.bumpSat f).cap = s.cap := rfl
@[simp] theorem State.obs_bumpSat (s : State) (f : Fld) : (s.bumpSat f).obs = s.obs := rfl
@[simp] theorem State.obsPath_bumpSat (s : State) (f : Fld) : (s.bumpSat f).obsPath = s.obsPath := rfl
@[simp] theorem State.gates_bumpSat (s : State) (f : Fld) : (s.bumpSat f).gates = s.gates := rfl
@[simp] theorem State.txBlocks_bumpSat (s : State) (f : Fld) : (s.bumpSat f).txBlocks = s.txBlocks := rfl
@[simp] theorem State.txDone_bumpSat (s : State) (f : Fld) : (s.bumpSat f).txDone = s.txDone := rfl
@[simp] theorem State.free_bumpSat (s : State) (f : Fld) : (s.bumpSat f).free = s.free := rfl
@[simp] theorem State.beam_bumpSat (s : State) (f : Fld) : (s.bumpSat f).beam = s.beam := rfl
@[simp] theorem State.fh_bumpSat (s : State) (f : Fld) : (s.bumpSat f).fh = s.fh := rfl
@[simp] theorem State.halls_bumpSat (s : State) (f : Fld) : (s.bumpSat f).halls = s.halls := rfl
@[simp] theorem State.alcoves_bumpSat (s : State) (f : Fld) : (s.bumpSat f).alcoves = s.alcoves := rfl
@[simp] theorem State.flits_bumpSat (s : State) (f : Fld) : (s.bumpSat f).flits = s.flits := rfl
@[simp] theorem State.routers_bumpSat (s : State) (f : Fld) : (s.bumpSat f).routers = s.routers := rfl
@[simp] theorem State.stair_bumpSat (s : State) (f : Fld) : (s.bumpSat f).stair = s.stair := rfl
@[simp] theorem State.ota_bumpSat (s : State) (f : Fld) : (s.bumpSat f).ota = s.ota := rfl
@[simp] theorem State.recov_bumpSat (s : State) (f : Fld) : (s.bumpSat f).recov = s.recov := rfl
@[simp] theorem State.energy_bumpSat (s : State) (f : Fld) : (s.bumpSat f).energy = s.energy := rfl
@[simp] theorem State.hk_bumpSat (s : State) (f : Fld) : (s.bumpSat f).hk = s.hk := rfl
@[simp] theorem State.timers_bumpSat (s : State) (f : Fld) : (s.bumpSat f).timers = s.timers := rfl
@[simp] theorem State.out_bumpSat (s : State) (f : Fld) : (s.bumpSat f).out = s.out := rfl
@[simp] theorem State.pending_bumpSat (s : State) (f : Fld) : (s.bumpSat f).pending = s.pending := rfl

/-! ### putBit -/

@[simp] theorem State.now_putBit (s : State) (f : Fld) (i : Nat) (b : Bool) : (s.putBit f i b).now = s.now := rfl
@[simp] theorem State.mem_putBit (s : State) (f : Fld) (i : Nat) (b : Bool) : (s.putBit f i b).mem = s.mem := rfl
@[simp] theorem State.trims_putBit (s : State) (f : Fld) (i : Nat) (b : Bool) : (s.putBit f i b).trims = s.trims := rfl
@[simp] theorem State.trimsRx_putBit (s : State) (f : Fld) (i : Nat) (b : Bool) : (s.putBit f i b).trimsRx = s.trimsRx := rfl
@[simp] theorem State.trimsDelay_putBit (s : State) (f : Fld) (i : Nat) (b : Bool) : (s.putBit f i b).trimsDelay = s.trimsDelay := rfl
@[simp] theorem State.trimsTone_putBit (s : State) (f : Fld) (i : Nat) (b : Bool) : (s.putBit f i b).trimsTone = s.trimsTone := rfl
@[simp] theorem State.trimsLoaded_putBit (s : State) (f : Fld) (i : Nat) (b : Bool) : (s.putBit f i b).trimsLoaded = s.trimsLoaded := rfl
@[simp] theorem State.trimsBad_putBit (s : State) (f : Fld) (i : Nat) (b : Bool) : (s.putBit f i b).trimsBad = s.trimsBad := rfl
@[simp] theorem State.chans_putBit (s : State) (f : Fld) (i : Nat) (b : Bool) : (s.putBit f i b).chans = s.chans := rfl
@[simp] theorem State.sessions_putBit (s : State) (f : Fld) (i : Nat) (b : Bool) : (s.putBit f i b).sessions = s.sessions := rfl
@[simp] theorem State.keep_putBit (s : State) (f : Fld) (i : Nat) (b : Bool) : (s.putBit f i b).keep = s.keep := rfl
@[simp] theorem State.sec_putBit (s : State) (f : Fld) (i : Nat) (b : Bool) : (s.putBit f i b).sec = s.sec := rfl
@[simp] theorem State.image_putBit (s : State) (f : Fld) (i : Nat) (b : Bool) : (s.putBit f i b).image = s.image := rfl
@[simp] theorem State.boot_putBit (s : State) (f : Fld) (i : Nat) (b : Bool) : (s.putBit f i b).boot = s.boot := rfl
@[simp] theorem State.txn_putBit (s : State) (f : Fld) (i : Nat) (b : Bool) : (s.putBit f i b).txn = s.txn := rfl
@[simp] theorem State.radio_putBit (s : State) (f : Fld) (i : Nat) (b : Bool) : (s.putBit f i b).radio = s.radio := rfl
@[simp] theorem State.clock_putBit (s : State) (f : Fld) (i : Nat) (b : Bool) : (s.putBit f i b).clock = s.clock := rfl
@[simp] theorem State.log_putBit (s : State) (f : Fld) (i : Nat) (b : Bool) : (s.putBit f i b).log = s.log := rfl
@[simp] theorem State.intN_putBit (s : State) (f : Fld) (i : Nat) (b : Bool) : (s.putBit f i b).intN = s.intN := rfl
@[simp] theorem State.faultN_putBit (s : State) (f : Fld) (i : Nat) (b : Bool) : (s.putBit f i b).faultN = s.faultN := rfl
@[simp] theorem State.carriers_putBit (s : State) (f : Fld) (i : Nat) (b : Bool) : (s.putBit f i b).carriers = s.carriers := rfl
@[simp] theorem State.cap_putBit (s : State) (f : Fld) (i : Nat) (b : Bool) : (s.putBit f i b).cap = s.cap := rfl
@[simp] theorem State.obs_putBit (s : State) (f : Fld) (i : Nat) (b : Bool) : (s.putBit f i b).obs = s.obs := rfl
@[simp] theorem State.obsPath_putBit (s : State) (f : Fld) (i : Nat) (b : Bool) : (s.putBit f i b).obsPath = s.obsPath := rfl
@[simp] theorem State.gates_putBit (s : State) (f : Fld) (i : Nat) (b : Bool) : (s.putBit f i b).gates = s.gates := rfl
@[simp] theorem State.txBlocks_putBit (s : State) (f : Fld) (i : Nat) (b : Bool) : (s.putBit f i b).txBlocks = s.txBlocks := rfl
@[simp] theorem State.txDone_putBit (s : State) (f : Fld) (i : Nat) (b : Bool) : (s.putBit f i b).txDone = s.txDone := rfl
@[simp] theorem State.free_putBit (s : State) (f : Fld) (i : Nat) (b : Bool) : (s.putBit f i b).free = s.free := rfl
@[simp] theorem State.beam_putBit (s : State) (f : Fld) (i : Nat) (b : Bool) : (s.putBit f i b).beam = s.beam := rfl
@[simp] theorem State.fh_putBit (s : State) (f : Fld) (i : Nat) (b : Bool) : (s.putBit f i b).fh = s.fh := rfl
@[simp] theorem State.halls_putBit (s : State) (f : Fld) (i : Nat) (b : Bool) : (s.putBit f i b).halls = s.halls := rfl
@[simp] theorem State.alcoves_putBit (s : State) (f : Fld) (i : Nat) (b : Bool) : (s.putBit f i b).alcoves = s.alcoves := rfl
@[simp] theorem State.flits_putBit (s : State) (f : Fld) (i : Nat) (b : Bool) : (s.putBit f i b).flits = s.flits := rfl
@[simp] theorem State.routers_putBit (s : State) (f : Fld) (i : Nat) (b : Bool) : (s.putBit f i b).routers = s.routers := rfl
@[simp] theorem State.stair_putBit (s : State) (f : Fld) (i : Nat) (b : Bool) : (s.putBit f i b).stair = s.stair := rfl
@[simp] theorem State.ota_putBit (s : State) (f : Fld) (i : Nat) (b : Bool) : (s.putBit f i b).ota = s.ota := rfl
@[simp] theorem State.recov_putBit (s : State) (f : Fld) (i : Nat) (b : Bool) : (s.putBit f i b).recov = s.recov := rfl
@[simp] theorem State.energy_putBit (s : State) (f : Fld) (i : Nat) (b : Bool) : (s.putBit f i b).energy = s.energy := rfl
@[simp] theorem State.hk_putBit (s : State) (f : Fld) (i : Nat) (b : Bool) : (s.putBit f i b).hk = s.hk := rfl
@[simp] theorem State.timers_putBit (s : State) (f : Fld) (i : Nat) (b : Bool) : (s.putBit f i b).timers = s.timers := rfl
@[simp] theorem State.out_putBit (s : State) (f : Fld) (i : Nat) (b : Bool) : (s.putBit f i b).out = s.out := rfl
@[simp] theorem State.pending_putBit (s : State) (f : Fld) (i : Nat) (b : Bool) : (s.putBit f i b).pending = s.pending := rfl

/-! ### resetRange -/

@[simp] theorem State.now_resetRange (s : State) (lo hi : Nat) : (s.resetRange lo hi).now = s.now := rfl
@[simp] theorem State.mem_resetRange (s : State) (lo hi : Nat) : (s.resetRange lo hi).mem = s.mem := rfl
@[simp] theorem State.trims_resetRange (s : State) (lo hi : Nat) : (s.resetRange lo hi).trims = s.trims := rfl
@[simp] theorem State.trimsRx_resetRange (s : State) (lo hi : Nat) : (s.resetRange lo hi).trimsRx = s.trimsRx := rfl
@[simp] theorem State.trimsDelay_resetRange (s : State) (lo hi : Nat) : (s.resetRange lo hi).trimsDelay = s.trimsDelay := rfl
@[simp] theorem State.trimsTone_resetRange (s : State) (lo hi : Nat) : (s.resetRange lo hi).trimsTone = s.trimsTone := rfl
@[simp] theorem State.trimsLoaded_resetRange (s : State) (lo hi : Nat) : (s.resetRange lo hi).trimsLoaded = s.trimsLoaded := rfl
@[simp] theorem State.trimsBad_resetRange (s : State) (lo hi : Nat) : (s.resetRange lo hi).trimsBad = s.trimsBad := rfl
@[simp] theorem State.chans_resetRange (s : State) (lo hi : Nat) : (s.resetRange lo hi).chans = s.chans := rfl
@[simp] theorem State.sessions_resetRange (s : State) (lo hi : Nat) : (s.resetRange lo hi).sessions = s.sessions := rfl
@[simp] theorem State.keep_resetRange (s : State) (lo hi : Nat) : (s.resetRange lo hi).keep = s.keep := rfl
@[simp] theorem State.sec_resetRange (s : State) (lo hi : Nat) : (s.resetRange lo hi).sec = s.sec := rfl
@[simp] theorem State.image_resetRange (s : State) (lo hi : Nat) : (s.resetRange lo hi).image = s.image := rfl
@[simp] theorem State.boot_resetRange (s : State) (lo hi : Nat) : (s.resetRange lo hi).boot = s.boot := rfl
@[simp] theorem State.txn_resetRange (s : State) (lo hi : Nat) : (s.resetRange lo hi).txn = s.txn := rfl
@[simp] theorem State.radio_resetRange (s : State) (lo hi : Nat) : (s.resetRange lo hi).radio = s.radio := rfl
@[simp] theorem State.clock_resetRange (s : State) (lo hi : Nat) : (s.resetRange lo hi).clock = s.clock := rfl
@[simp] theorem State.log_resetRange (s : State) (lo hi : Nat) : (s.resetRange lo hi).log = s.log := rfl
@[simp] theorem State.intN_resetRange (s : State) (lo hi : Nat) : (s.resetRange lo hi).intN = s.intN := rfl
@[simp] theorem State.faultN_resetRange (s : State) (lo hi : Nat) : (s.resetRange lo hi).faultN = s.faultN := rfl
@[simp] theorem State.carriers_resetRange (s : State) (lo hi : Nat) : (s.resetRange lo hi).carriers = s.carriers := rfl
@[simp] theorem State.cap_resetRange (s : State) (lo hi : Nat) : (s.resetRange lo hi).cap = s.cap := rfl
@[simp] theorem State.obs_resetRange (s : State) (lo hi : Nat) : (s.resetRange lo hi).obs = s.obs := rfl
@[simp] theorem State.obsPath_resetRange (s : State) (lo hi : Nat) : (s.resetRange lo hi).obsPath = s.obsPath := rfl
@[simp] theorem State.gates_resetRange (s : State) (lo hi : Nat) : (s.resetRange lo hi).gates = s.gates := rfl
@[simp] theorem State.txBlocks_resetRange (s : State) (lo hi : Nat) : (s.resetRange lo hi).txBlocks = s.txBlocks := rfl
@[simp] theorem State.txDone_resetRange (s : State) (lo hi : Nat) : (s.resetRange lo hi).txDone = s.txDone := rfl
@[simp] theorem State.free_resetRange (s : State) (lo hi : Nat) : (s.resetRange lo hi).free = s.free := rfl
@[simp] theorem State.beam_resetRange (s : State) (lo hi : Nat) : (s.resetRange lo hi).beam = s.beam := rfl
@[simp] theorem State.fh_resetRange (s : State) (lo hi : Nat) : (s.resetRange lo hi).fh = s.fh := rfl
@[simp] theorem State.halls_resetRange (s : State) (lo hi : Nat) : (s.resetRange lo hi).halls = s.halls := rfl
@[simp] theorem State.alcoves_resetRange (s : State) (lo hi : Nat) : (s.resetRange lo hi).alcoves = s.alcoves := rfl
@[simp] theorem State.flits_resetRange (s : State) (lo hi : Nat) : (s.resetRange lo hi).flits = s.flits := rfl
@[simp] theorem State.routers_resetRange (s : State) (lo hi : Nat) : (s.resetRange lo hi).routers = s.routers := rfl
@[simp] theorem State.stair_resetRange (s : State) (lo hi : Nat) : (s.resetRange lo hi).stair = s.stair := rfl
@[simp] theorem State.ota_resetRange (s : State) (lo hi : Nat) : (s.resetRange lo hi).ota = s.ota := rfl
@[simp] theorem State.recov_resetRange (s : State) (lo hi : Nat) : (s.resetRange lo hi).recov = s.recov := rfl
@[simp] theorem State.energy_resetRange (s : State) (lo hi : Nat) : (s.resetRange lo hi).energy = s.energy := rfl
@[simp] theorem State.hk_resetRange (s : State) (lo hi : Nat) : (s.resetRange lo hi).hk = s.hk := rfl
@[simp] theorem State.timers_resetRange (s : State) (lo hi : Nat) : (s.resetRange lo hi).timers = s.timers := rfl
@[simp] theorem State.out_resetRange (s : State) (lo hi : Nat) : (s.resetRange lo hi).out = s.out := rfl
@[simp] theorem State.pending_resetRange (s : State) (lo hi : Nat) : (s.resetRange lo hi).pending = s.pending := rfl

/-! ### storeWord -/

@[simp] theorem State.now_storeWord (s : State) (a : Nat) (v : Word) : (s.storeWord a v).now = s.now := rfl
@[simp] theorem State.mem_storeWord (s : State) (a : Nat) (v : Word) : (s.storeWord a v).mem = s.mem := rfl
@[simp] theorem State.trims_storeWord (s : State) (a : Nat) (v : Word) : (s.storeWord a v).trims = s.trims := rfl
@[simp] theorem State.trimsRx_storeWord (s : State) (a : Nat) (v : Word) : (s.storeWord a v).trimsRx = s.trimsRx := rfl
@[simp] theorem State.trimsDelay_storeWord (s : State) (a : Nat) (v : Word) : (s.storeWord a v).trimsDelay = s.trimsDelay := rfl
@[simp] theorem State.trimsTone_storeWord (s : State) (a : Nat) (v : Word) : (s.storeWord a v).trimsTone = s.trimsTone := rfl
@[simp] theorem State.trimsLoaded_storeWord (s : State) (a : Nat) (v : Word) : (s.storeWord a v).trimsLoaded = s.trimsLoaded := rfl
@[simp] theorem State.trimsBad_storeWord (s : State) (a : Nat) (v : Word) : (s.storeWord a v).trimsBad = s.trimsBad := rfl
@[simp] theorem State.chans_storeWord (s : State) (a : Nat) (v : Word) : (s.storeWord a v).chans = s.chans := rfl
@[simp] theorem State.sessions_storeWord (s : State) (a : Nat) (v : Word) : (s.storeWord a v).sessions = s.sessions := rfl
@[simp] theorem State.keep_storeWord (s : State) (a : Nat) (v : Word) : (s.storeWord a v).keep = s.keep := rfl
@[simp] theorem State.sec_storeWord (s : State) (a : Nat) (v : Word) : (s.storeWord a v).sec = s.sec := rfl
@[simp] theorem State.image_storeWord (s : State) (a : Nat) (v : Word) : (s.storeWord a v).image = s.image := rfl
@[simp] theorem State.boot_storeWord (s : State) (a : Nat) (v : Word) : (s.storeWord a v).boot = s.boot := rfl
@[simp] theorem State.txn_storeWord (s : State) (a : Nat) (v : Word) : (s.storeWord a v).txn = s.txn := rfl
@[simp] theorem State.radio_storeWord (s : State) (a : Nat) (v : Word) : (s.storeWord a v).radio = s.radio := rfl
@[simp] theorem State.clock_storeWord (s : State) (a : Nat) (v : Word) : (s.storeWord a v).clock = s.clock := rfl
@[simp] theorem State.log_storeWord (s : State) (a : Nat) (v : Word) : (s.storeWord a v).log = s.log := rfl
@[simp] theorem State.intN_storeWord (s : State) (a : Nat) (v : Word) : (s.storeWord a v).intN = s.intN := rfl
@[simp] theorem State.faultN_storeWord (s : State) (a : Nat) (v : Word) : (s.storeWord a v).faultN = s.faultN := rfl
@[simp] theorem State.carriers_storeWord (s : State) (a : Nat) (v : Word) : (s.storeWord a v).carriers = s.carriers := rfl
@[simp] theorem State.cap_storeWord (s : State) (a : Nat) (v : Word) : (s.storeWord a v).cap = s.cap := rfl
@[simp] theorem State.obs_storeWord (s : State) (a : Nat) (v : Word) : (s.storeWord a v).obs = s.obs := rfl
@[simp] theorem State.obsPath_storeWord (s : State) (a : Nat) (v : Word) : (s.storeWord a v).obsPath = s.obsPath := rfl
@[simp] theorem State.gates_storeWord (s : State) (a : Nat) (v : Word) : (s.storeWord a v).gates = s.gates := rfl
@[simp] theorem State.txBlocks_storeWord (s : State) (a : Nat) (v : Word) : (s.storeWord a v).txBlocks = s.txBlocks := rfl
@[simp] theorem State.txDone_storeWord (s : State) (a : Nat) (v : Word) : (s.storeWord a v).txDone = s.txDone := rfl
@[simp] theorem State.free_storeWord (s : State) (a : Nat) (v : Word) : (s.storeWord a v).free = s.free := rfl
@[simp] theorem State.beam_storeWord (s : State) (a : Nat) (v : Word) : (s.storeWord a v).beam = s.beam := rfl
@[simp] theorem State.fh_storeWord (s : State) (a : Nat) (v : Word) : (s.storeWord a v).fh = s.fh := rfl
@[simp] theorem State.halls_storeWord (s : State) (a : Nat) (v : Word) : (s.storeWord a v).halls = s.halls := rfl
@[simp] theorem State.alcoves_storeWord (s : State) (a : Nat) (v : Word) : (s.storeWord a v).alcoves = s.alcoves := rfl
@[simp] theorem State.flits_storeWord (s : State) (a : Nat) (v : Word) : (s.storeWord a v).flits = s.flits := rfl
@[simp] theorem State.routers_storeWord (s : State) (a : Nat) (v : Word) : (s.storeWord a v).routers = s.routers := rfl
@[simp] theorem State.stair_storeWord (s : State) (a : Nat) (v : Word) : (s.storeWord a v).stair = s.stair := rfl
@[simp] theorem State.ota_storeWord (s : State) (a : Nat) (v : Word) : (s.storeWord a v).ota = s.ota := rfl
@[simp] theorem State.recov_storeWord (s : State) (a : Nat) (v : Word) : (s.storeWord a v).recov = s.recov := rfl
@[simp] theorem State.energy_storeWord (s : State) (a : Nat) (v : Word) : (s.storeWord a v).energy = s.energy := rfl
@[simp] theorem State.hk_storeWord (s : State) (a : Nat) (v : Word) : (s.storeWord a v).hk = s.hk := rfl
@[simp] theorem State.timers_storeWord (s : State) (a : Nat) (v : Word) : (s.storeWord a v).timers = s.timers := rfl
@[simp] theorem State.out_storeWord (s : State) (a : Nat) (v : Word) : (s.storeWord a v).out = s.out := rfl
@[simp] theorem State.pending_storeWord (s : State) (a : Nat) (v : Word) : (s.storeWord a v).pending = s.pending := rfl

/-! ### atTime -/

@[simp] theorem State.regs_atTime (s : State) (t : Nat) : (s.atTime t).regs = s.regs := rfl
@[simp] theorem State.mem_atTime (s : State) (t : Nat) : (s.atTime t).mem = s.mem := rfl
@[simp] theorem State.trims_atTime (s : State) (t : Nat) : (s.atTime t).trims = s.trims := rfl
@[simp] theorem State.trimsRx_atTime (s : State) (t : Nat) : (s.atTime t).trimsRx = s.trimsRx := rfl
@[simp] theorem State.trimsDelay_atTime (s : State) (t : Nat) : (s.atTime t).trimsDelay = s.trimsDelay := rfl
@[simp] theorem State.trimsTone_atTime (s : State) (t : Nat) : (s.atTime t).trimsTone = s.trimsTone := rfl
@[simp] theorem State.trimsLoaded_atTime (s : State) (t : Nat) : (s.atTime t).trimsLoaded = s.trimsLoaded := rfl
@[simp] theorem State.trimsBad_atTime (s : State) (t : Nat) : (s.atTime t).trimsBad = s.trimsBad := rfl
@[simp] theorem State.chans_atTime (s : State) (t : Nat) : (s.atTime t).chans = s.chans := rfl
@[simp] theorem State.sessions_atTime (s : State) (t : Nat) : (s.atTime t).sessions = s.sessions := rfl
@[simp] theorem State.keep_atTime (s : State) (t : Nat) : (s.atTime t).keep = s.keep := rfl
@[simp] theorem State.sec_atTime (s : State) (t : Nat) : (s.atTime t).sec = s.sec := rfl
@[simp] theorem State.image_atTime (s : State) (t : Nat) : (s.atTime t).image = s.image := rfl
@[simp] theorem State.boot_atTime (s : State) (t : Nat) : (s.atTime t).boot = s.boot := rfl
@[simp] theorem State.radio_atTime (s : State) (t : Nat) : (s.atTime t).radio = s.radio := rfl
@[simp] theorem State.clock_atTime (s : State) (t : Nat) : (s.atTime t).clock = s.clock := rfl
@[simp] theorem State.log_atTime (s : State) (t : Nat) : (s.atTime t).log = s.log := rfl
@[simp] theorem State.intN_atTime (s : State) (t : Nat) : (s.atTime t).intN = s.intN := rfl
@[simp] theorem State.faultN_atTime (s : State) (t : Nat) : (s.atTime t).faultN = s.faultN := rfl
@[simp] theorem State.carriers_atTime (s : State) (t : Nat) : (s.atTime t).carriers = s.carriers := rfl
@[simp] theorem State.cap_atTime (s : State) (t : Nat) : (s.atTime t).cap = s.cap := rfl
@[simp] theorem State.obs_atTime (s : State) (t : Nat) : (s.atTime t).obs = s.obs := rfl
@[simp] theorem State.obsPath_atTime (s : State) (t : Nat) : (s.atTime t).obsPath = s.obsPath := rfl
@[simp] theorem State.gates_atTime (s : State) (t : Nat) : (s.atTime t).gates = s.gates := rfl
@[simp] theorem State.txBlocks_atTime (s : State) (t : Nat) : (s.atTime t).txBlocks = s.txBlocks := rfl
@[simp] theorem State.txDone_atTime (s : State) (t : Nat) : (s.atTime t).txDone = s.txDone := rfl
@[simp] theorem State.free_atTime (s : State) (t : Nat) : (s.atTime t).free = s.free := rfl
@[simp] theorem State.beam_atTime (s : State) (t : Nat) : (s.atTime t).beam = s.beam := rfl
@[simp] theorem State.fh_atTime (s : State) (t : Nat) : (s.atTime t).fh = s.fh := rfl
@[simp] theorem State.halls_atTime (s : State) (t : Nat) : (s.atTime t).halls = s.halls := rfl
@[simp] theorem State.alcoves_atTime (s : State) (t : Nat) : (s.atTime t).alcoves = s.alcoves := rfl
@[simp] theorem State.flits_atTime (s : State) (t : Nat) : (s.atTime t).flits = s.flits := rfl
@[simp] theorem State.routers_atTime (s : State) (t : Nat) : (s.atTime t).routers = s.routers := rfl
@[simp] theorem State.stair_atTime (s : State) (t : Nat) : (s.atTime t).stair = s.stair := rfl
@[simp] theorem State.ota_atTime (s : State) (t : Nat) : (s.atTime t).ota = s.ota := rfl
@[simp] theorem State.recov_atTime (s : State) (t : Nat) : (s.atTime t).recov = s.recov := rfl
@[simp] theorem State.energy_atTime (s : State) (t : Nat) : (s.atTime t).energy = s.energy := rfl
@[simp] theorem State.hk_atTime (s : State) (t : Nat) : (s.atTime t).hk = s.hk := rfl
@[simp] theorem State.timers_atTime (s : State) (t : Nat) : (s.atTime t).timers = s.timers := rfl
@[simp] theorem State.out_atTime (s : State) (t : Nat) : (s.atTime t).out = s.out := rfl
@[simp] theorem State.pending_atTime (s : State) (t : Nat) : (s.atTime t).pending = s.pending := rfl
@[simp] theorem State.word_atTime (s : State) (t : Nat) (r : Nat) : (s.atTime t).word r = s.word r := rfl
@[simp] theorem State.get_atTime (s : State) (t : Nat) (r : Fld) : (s.atTime t).get r = s.get r := rfl
@[simp] theorem State.getS_atTime (s : State) (t : Nat) (r : Fld) : (s.atTime t).getS r = s.getS r := rfl
@[simp] theorem State.flag_atTime (s : State) (t : Nat) (r : Fld) : (s.atTime t).flag r = s.flag r := rfl

/-! ### disarm -/

@[simp] theorem State.now_disarm (s : State) (x : Timer) : (s.disarm x).now = s.now := rfl
@[simp] theorem State.regs_disarm (s : State) (x : Timer) : (s.disarm x).regs = s.regs := rfl
@[simp] theorem State.mem_disarm (s : State) (x : Timer) : (s.disarm x).mem = s.mem := rfl
@[simp] theorem State.trims_disarm (s : State) (x : Timer) : (s.disarm x).trims = s.trims := rfl
@[simp] theorem State.trimsRx_disarm (s : State) (x : Timer) : (s.disarm x).trimsRx = s.trimsRx := rfl
@[simp] theorem State.trimsDelay_disarm (s : State) (x : Timer) : (s.disarm x).trimsDelay = s.trimsDelay := rfl
@[simp] theorem State.trimsTone_disarm (s : State) (x : Timer) : (s.disarm x).trimsTone = s.trimsTone := rfl
@[simp] theorem State.trimsLoaded_disarm (s : State) (x : Timer) : (s.disarm x).trimsLoaded = s.trimsLoaded := rfl
@[simp] theorem State.trimsBad_disarm (s : State) (x : Timer) : (s.disarm x).trimsBad = s.trimsBad := rfl
@[simp] theorem State.chans_disarm (s : State) (x : Timer) : (s.disarm x).chans = s.chans := rfl
@[simp] theorem State.sessions_disarm (s : State) (x : Timer) : (s.disarm x).sessions = s.sessions := rfl
@[simp] theorem State.keep_disarm (s : State) (x : Timer) : (s.disarm x).keep = s.keep := rfl
@[simp] theorem State.sec_disarm (s : State) (x : Timer) : (s.disarm x).sec = s.sec := rfl
@[simp] theorem State.image_disarm (s : State) (x : Timer) : (s.disarm x).image = s.image := rfl
@[simp] theorem State.boot_disarm (s : State) (x : Timer) : (s.disarm x).boot = s.boot := rfl
@[simp] theorem State.txn_disarm (s : State) (x : Timer) : (s.disarm x).txn = s.txn := rfl
@[simp] theorem State.radio_disarm (s : State) (x : Timer) : (s.disarm x).radio = s.radio := rfl
@[simp] theorem State.clock_disarm (s : State) (x : Timer) : (s.disarm x).clock = s.clock := rfl
@[simp] theorem State.log_disarm (s : State) (x : Timer) : (s.disarm x).log = s.log := rfl
@[simp] theorem State.intN_disarm (s : State) (x : Timer) : (s.disarm x).intN = s.intN := rfl
@[simp] theorem State.faultN_disarm (s : State) (x : Timer) : (s.disarm x).faultN = s.faultN := rfl
@[simp] theorem State.carriers_disarm (s : State) (x : Timer) : (s.disarm x).carriers = s.carriers := rfl
@[simp] theorem State.cap_disarm (s : State) (x : Timer) : (s.disarm x).cap = s.cap := rfl
@[simp] theorem State.obs_disarm (s : State) (x : Timer) : (s.disarm x).obs = s.obs := rfl
@[simp] theorem State.obsPath_disarm (s : State) (x : Timer) : (s.disarm x).obsPath = s.obsPath := rfl
@[simp] theorem State.gates_disarm (s : State) (x : Timer) : (s.disarm x).gates = s.gates := rfl
@[simp] theorem State.txBlocks_disarm (s : State) (x : Timer) : (s.disarm x).txBlocks = s.txBlocks := rfl
@[simp] theorem State.txDone_disarm (s : State) (x : Timer) : (s.disarm x).txDone = s.txDone := rfl
@[simp] theorem State.free_disarm (s : State) (x : Timer) : (s.disarm x).free = s.free := rfl
@[simp] theorem State.beam_disarm (s : State) (x : Timer) : (s.disarm x).beam = s.beam := rfl
@[simp] theorem State.fh_disarm (s : State) (x : Timer) : (s.disarm x).fh = s.fh := rfl
@[simp] theorem State.halls_disarm (s : State) (x : Timer) : (s.disarm x).halls = s.halls := rfl
@[simp] theorem State.alcoves_disarm (s : State) (x : Timer) : (s.disarm x).alcoves = s.alcoves := rfl
@[simp] theorem State.flits_disarm (s : State) (x : Timer) : (s.disarm x).flits = s.flits := rfl
@[simp] theorem State.routers_disarm (s : State) (x : Timer) : (s.disarm x).routers = s.routers := rfl
@[simp] theorem State.stair_disarm (s : State) (x : Timer) : (s.disarm x).stair = s.stair := rfl
@[simp] theorem State.ota_disarm (s : State) (x : Timer) : (s.disarm x).ota = s.ota := rfl
@[simp] theorem State.recov_disarm (s : State) (x : Timer) : (s.disarm x).recov = s.recov := rfl
@[simp] theorem State.energy_disarm (s : State) (x : Timer) : (s.disarm x).energy = s.energy := rfl
@[simp] theorem State.hk_disarm (s : State) (x : Timer) : (s.disarm x).hk = s.hk := rfl
@[simp] theorem State.out_disarm (s : State) (x : Timer) : (s.disarm x).out = s.out := rfl
@[simp] theorem State.pending_disarm (s : State) (x : Timer) : (s.disarm x).pending = s.pending := rfl
@[simp] theorem State.word_disarm (s : State) (x : Timer) (r : Nat) : (s.disarm x).word r = s.word r := rfl
@[simp] theorem State.get_disarm (s : State) (x : Timer) (r : Fld) : (s.disarm x).get r = s.get r := rfl
@[simp] theorem State.getS_disarm (s : State) (x : Timer) (r : Fld) : (s.disarm x).getS r = s.getS r := rfl
@[simp] theorem State.flag_disarm (s : State) (x : Timer) (r : Fld) : (s.disarm x).flag r = s.flag r := rfl

/-! ### arm -/

@[simp] theorem State.now_arm (s : State) (x : Timer) (t : Nat) : (s.arm x t).now = s.now := rfl
@[simp] theorem State.regs_arm (s : State) (x : Timer) (t : Nat) : (s.arm x t).regs = s.regs := rfl
@[simp] theorem State.mem_arm (s : State) (x : Timer) (t : Nat) : (s.arm x t).mem = s.mem := rfl
@[simp] theorem State.trims_arm (s : State) (x : Timer) (t : Nat) : (s.arm x t).trims = s.trims := rfl
@[simp] theorem State.trimsRx_arm (s : State) (x : Timer) (t : Nat) : (s.arm x t).trimsRx = s.trimsRx := rfl
@[simp] theorem State.trimsDelay_arm (s : State) (x : Timer) (t : Nat) : (s.arm x t).trimsDelay = s.trimsDelay := rfl
@[simp] theorem State.trimsTone_arm (s : State) (x : Timer) (t : Nat) : (s.arm x t).trimsTone = s.trimsTone := rfl
@[simp] theorem State.trimsLoaded_arm (s : State) (x : Timer) (t : Nat) : (s.arm x t).trimsLoaded = s.trimsLoaded := rfl
@[simp] theorem State.trimsBad_arm (s : State) (x : Timer) (t : Nat) : (s.arm x t).trimsBad = s.trimsBad := rfl
@[simp] theorem State.chans_arm (s : State) (x : Timer) (t : Nat) : (s.arm x t).chans = s.chans := rfl
@[simp] theorem State.sessions_arm (s : State) (x : Timer) (t : Nat) : (s.arm x t).sessions = s.sessions := rfl
@[simp] theorem State.keep_arm (s : State) (x : Timer) (t : Nat) : (s.arm x t).keep = s.keep := rfl
@[simp] theorem State.sec_arm (s : State) (x : Timer) (t : Nat) : (s.arm x t).sec = s.sec := rfl
@[simp] theorem State.image_arm (s : State) (x : Timer) (t : Nat) : (s.arm x t).image = s.image := rfl
@[simp] theorem State.boot_arm (s : State) (x : Timer) (t : Nat) : (s.arm x t).boot = s.boot := rfl
@[simp] theorem State.txn_arm (s : State) (x : Timer) (t : Nat) : (s.arm x t).txn = s.txn := rfl
@[simp] theorem State.radio_arm (s : State) (x : Timer) (t : Nat) : (s.arm x t).radio = s.radio := rfl
@[simp] theorem State.clock_arm (s : State) (x : Timer) (t : Nat) : (s.arm x t).clock = s.clock := rfl
@[simp] theorem State.log_arm (s : State) (x : Timer) (t : Nat) : (s.arm x t).log = s.log := rfl
@[simp] theorem State.intN_arm (s : State) (x : Timer) (t : Nat) : (s.arm x t).intN = s.intN := rfl
@[simp] theorem State.faultN_arm (s : State) (x : Timer) (t : Nat) : (s.arm x t).faultN = s.faultN := rfl
@[simp] theorem State.carriers_arm (s : State) (x : Timer) (t : Nat) : (s.arm x t).carriers = s.carriers := rfl
@[simp] theorem State.cap_arm (s : State) (x : Timer) (t : Nat) : (s.arm x t).cap = s.cap := rfl
@[simp] theorem State.obs_arm (s : State) (x : Timer) (t : Nat) : (s.arm x t).obs = s.obs := rfl
@[simp] theorem State.obsPath_arm (s : State) (x : Timer) (t : Nat) : (s.arm x t).obsPath = s.obsPath := rfl
@[simp] theorem State.gates_arm (s : State) (x : Timer) (t : Nat) : (s.arm x t).gates = s.gates := rfl
@[simp] theorem State.txBlocks_arm (s : State) (x : Timer) (t : Nat) : (s.arm x t).txBlocks = s.txBlocks := rfl
@[simp] theorem State.txDone_arm (s : State) (x : Timer) (t : Nat) : (s.arm x t).txDone = s.txDone := rfl
@[simp] theorem State.free_arm (s : State) (x : Timer) (t : Nat) : (s.arm x t).free = s.free := rfl
@[simp] theorem State.beam_arm (s : State) (x : Timer) (t : Nat) : (s.arm x t).beam = s.beam := rfl
@[simp] theorem State.fh_arm (s : State) (x : Timer) (t : Nat) : (s.arm x t).fh = s.fh := rfl
@[simp] theorem State.halls_arm (s : State) (x : Timer) (t : Nat) : (s.arm x t).halls = s.halls := rfl
@[simp] theorem State.alcoves_arm (s : State) (x : Timer) (t : Nat) : (s.arm x t).alcoves = s.alcoves := rfl
@[simp] theorem State.flits_arm (s : State) (x : Timer) (t : Nat) : (s.arm x t).flits = s.flits := rfl
@[simp] theorem State.routers_arm (s : State) (x : Timer) (t : Nat) : (s.arm x t).routers = s.routers := rfl
@[simp] theorem State.stair_arm (s : State) (x : Timer) (t : Nat) : (s.arm x t).stair = s.stair := rfl
@[simp] theorem State.ota_arm (s : State) (x : Timer) (t : Nat) : (s.arm x t).ota = s.ota := rfl
@[simp] theorem State.recov_arm (s : State) (x : Timer) (t : Nat) : (s.arm x t).recov = s.recov := rfl
@[simp] theorem State.energy_arm (s : State) (x : Timer) (t : Nat) : (s.arm x t).energy = s.energy := rfl
@[simp] theorem State.hk_arm (s : State) (x : Timer) (t : Nat) : (s.arm x t).hk = s.hk := rfl
@[simp] theorem State.out_arm (s : State) (x : Timer) (t : Nat) : (s.arm x t).out = s.out := rfl
@[simp] theorem State.pending_arm (s : State) (x : Timer) (t : Nat) : (s.arm x t).pending = s.pending := rfl
@[simp] theorem State.word_arm (s : State) (x : Timer) (t : Nat) (r : Nat) : (s.arm x t).word r = s.word r := rfl
@[simp] theorem State.get_arm (s : State) (x : Timer) (t : Nat) (r : Fld) : (s.arm x t).get r = s.get r := rfl
@[simp] theorem State.getS_arm (s : State) (x : Timer) (t : Nat) (r : Fld) : (s.arm x t).getS r = s.getS r := rfl
@[simp] theorem State.flag_arm (s : State) (x : Timer) (t : Nat) (r : Fld) : (s.arm x t).flag r = s.flag r := rfl

/-! ### emit -/

@[simp] theorem State.now_emit (s : State) (o : Output) : (s.emit o).now = s.now := rfl
@[simp] theorem State.regs_emit (s : State) (o : Output) : (s.emit o).regs = s.regs := rfl
@[simp] theorem State.mem_emit (s : State) (o : Output) : (s.emit o).mem = s.mem := rfl
@[simp] theorem State.trims_emit (s : State) (o : Output) : (s.emit o).trims = s.trims := rfl
@[simp] theorem State.trimsRx_emit (s : State) (o : Output) : (s.emit o).trimsRx = s.trimsRx := rfl
@[simp] theorem State.trimsDelay_emit (s : State) (o : Output) : (s.emit o).trimsDelay = s.trimsDelay := rfl
@[simp] theorem State.trimsTone_emit (s : State) (o : Output) : (s.emit o).trimsTone = s.trimsTone := rfl
@[simp] theorem State.trimsLoaded_emit (s : State) (o : Output) : (s.emit o).trimsLoaded = s.trimsLoaded := rfl
@[simp] theorem State.trimsBad_emit (s : State) (o : Output) : (s.emit o).trimsBad = s.trimsBad := rfl
@[simp] theorem State.chans_emit (s : State) (o : Output) : (s.emit o).chans = s.chans := rfl
@[simp] theorem State.sessions_emit (s : State) (o : Output) : (s.emit o).sessions = s.sessions := rfl
@[simp] theorem State.keep_emit (s : State) (o : Output) : (s.emit o).keep = s.keep := rfl
@[simp] theorem State.sec_emit (s : State) (o : Output) : (s.emit o).sec = s.sec := rfl
@[simp] theorem State.image_emit (s : State) (o : Output) : (s.emit o).image = s.image := rfl
@[simp] theorem State.boot_emit (s : State) (o : Output) : (s.emit o).boot = s.boot := rfl
@[simp] theorem State.txn_emit (s : State) (o : Output) : (s.emit o).txn = s.txn := rfl
@[simp] theorem State.radio_emit (s : State) (o : Output) : (s.emit o).radio = s.radio := rfl
@[simp] theorem State.clock_emit (s : State) (o : Output) : (s.emit o).clock = s.clock := rfl
@[simp] theorem State.log_emit (s : State) (o : Output) : (s.emit o).log = s.log := rfl
@[simp] theorem State.intN_emit (s : State) (o : Output) : (s.emit o).intN = s.intN := rfl
@[simp] theorem State.faultN_emit (s : State) (o : Output) : (s.emit o).faultN = s.faultN := rfl
@[simp] theorem State.carriers_emit (s : State) (o : Output) : (s.emit o).carriers = s.carriers := rfl
@[simp] theorem State.cap_emit (s : State) (o : Output) : (s.emit o).cap = s.cap := rfl
@[simp] theorem State.obs_emit (s : State) (o : Output) : (s.emit o).obs = s.obs := rfl
@[simp] theorem State.obsPath_emit (s : State) (o : Output) : (s.emit o).obsPath = s.obsPath := rfl
@[simp] theorem State.gates_emit (s : State) (o : Output) : (s.emit o).gates = s.gates := rfl
@[simp] theorem State.txBlocks_emit (s : State) (o : Output) : (s.emit o).txBlocks = s.txBlocks := rfl
@[simp] theorem State.txDone_emit (s : State) (o : Output) : (s.emit o).txDone = s.txDone := rfl
@[simp] theorem State.free_emit (s : State) (o : Output) : (s.emit o).free = s.free := rfl
@[simp] theorem State.beam_emit (s : State) (o : Output) : (s.emit o).beam = s.beam := rfl
@[simp] theorem State.fh_emit (s : State) (o : Output) : (s.emit o).fh = s.fh := rfl
@[simp] theorem State.halls_emit (s : State) (o : Output) : (s.emit o).halls = s.halls := rfl
@[simp] theorem State.alcoves_emit (s : State) (o : Output) : (s.emit o).alcoves = s.alcoves := rfl
@[simp] theorem State.flits_emit (s : State) (o : Output) : (s.emit o).flits = s.flits := rfl
@[simp] theorem State.routers_emit (s : State) (o : Output) : (s.emit o).routers = s.routers := rfl
@[simp] theorem State.stair_emit (s : State) (o : Output) : (s.emit o).stair = s.stair := rfl
@[simp] theorem State.ota_emit (s : State) (o : Output) : (s.emit o).ota = s.ota := rfl
@[simp] theorem State.recov_emit (s : State) (o : Output) : (s.emit o).recov = s.recov := rfl
@[simp] theorem State.energy_emit (s : State) (o : Output) : (s.emit o).energy = s.energy := rfl
@[simp] theorem State.hk_emit (s : State) (o : Output) : (s.emit o).hk = s.hk := rfl
@[simp] theorem State.timers_emit (s : State) (o : Output) : (s.emit o).timers = s.timers := rfl
@[simp] theorem State.pending_emit (s : State) (o : Output) : (s.emit o).pending = s.pending := rfl
@[simp] theorem State.word_emit (s : State) (o : Output) (r : Nat) : (s.emit o).word r = s.word r := rfl
@[simp] theorem State.get_emit (s : State) (o : Output) (r : Fld) : (s.emit o).get r = s.get r := rfl
@[simp] theorem State.getS_emit (s : State) (o : Output) (r : Fld) : (s.emit o).getS r = s.getS r := rfl
@[simp] theorem State.flag_emit (s : State) (o : Output) (r : Fld) : (s.emit o).flag r = s.flag r := rfl

/-! ### modChan -/

@[simp] theorem State.now_modChan (s : State) (ch : Nat) (f : HostChan → HostChan) : (s.modChan ch f).now = s.now := rfl
@[simp] theorem State.regs_modChan (s : State) (ch : Nat) (f : HostChan → HostChan) : (s.modChan ch f).regs = s.regs := rfl
@[simp] theorem State.mem_modChan (s : State) (ch : Nat) (f : HostChan → HostChan) : (s.modChan ch f).mem = s.mem := rfl
@[simp] theorem State.trims_modChan (s : State) (ch : Nat) (f : HostChan → HostChan) : (s.modChan ch f).trims = s.trims := rfl
@[simp] theorem State.trimsRx_modChan (s : State) (ch : Nat) (f : HostChan → HostChan) : (s.modChan ch f).trimsRx = s.trimsRx := rfl
@[simp] theorem State.trimsDelay_modChan (s : State) (ch : Nat) (f : HostChan → HostChan) : (s.modChan ch f).trimsDelay = s.trimsDelay := rfl
@[simp] theorem State.trimsTone_modChan (s : State) (ch : Nat) (f : HostChan → HostChan) : (s.modChan ch f).trimsTone = s.trimsTone := rfl
@[simp] theorem State.trimsLoaded_modChan (s : State) (ch : Nat) (f : HostChan → HostChan) : (s.modChan ch f).trimsLoaded = s.trimsLoaded := rfl
@[simp] theorem State.trimsBad_modChan (s : State) (ch : Nat) (f : HostChan → HostChan) : (s.modChan ch f).trimsBad = s.trimsBad := rfl
@[simp] theorem State.sessions_modChan (s : State) (ch : Nat) (f : HostChan → HostChan) : (s.modChan ch f).sessions = s.sessions := rfl
@[simp] theorem State.keep_modChan (s : State) (ch : Nat) (f : HostChan → HostChan) : (s.modChan ch f).keep = s.keep := rfl
@[simp] theorem State.sec_modChan (s : State) (ch : Nat) (f : HostChan → HostChan) : (s.modChan ch f).sec = s.sec := rfl
@[simp] theorem State.image_modChan (s : State) (ch : Nat) (f : HostChan → HostChan) : (s.modChan ch f).image = s.image := rfl
@[simp] theorem State.boot_modChan (s : State) (ch : Nat) (f : HostChan → HostChan) : (s.modChan ch f).boot = s.boot := rfl
@[simp] theorem State.txn_modChan (s : State) (ch : Nat) (f : HostChan → HostChan) : (s.modChan ch f).txn = s.txn := rfl
@[simp] theorem State.radio_modChan (s : State) (ch : Nat) (f : HostChan → HostChan) : (s.modChan ch f).radio = s.radio := rfl
@[simp] theorem State.clock_modChan (s : State) (ch : Nat) (f : HostChan → HostChan) : (s.modChan ch f).clock = s.clock := rfl
@[simp] theorem State.log_modChan (s : State) (ch : Nat) (f : HostChan → HostChan) : (s.modChan ch f).log = s.log := rfl
@[simp] theorem State.intN_modChan (s : State) (ch : Nat) (f : HostChan → HostChan) : (s.modChan ch f).intN = s.intN := rfl
@[simp] theorem State.faultN_modChan (s : State) (ch : Nat) (f : HostChan → HostChan) : (s.modChan ch f).faultN = s.faultN := rfl
@[simp] theorem State.carriers_modChan (s : State) (ch : Nat) (f : HostChan → HostChan) : (s.modChan ch f).carriers = s.carriers := rfl
@[simp] theorem State.cap_modChan (s : State) (ch : Nat) (f : HostChan → HostChan) : (s.modChan ch f).cap = s.cap := rfl
@[simp] theorem State.obs_modChan (s : State) (ch : Nat) (f : HostChan → HostChan) : (s.modChan ch f).obs = s.obs := rfl
@[simp] theorem State.obsPath_modChan (s : State) (ch : Nat) (f : HostChan → HostChan) : (s.modChan ch f).obsPath = s.obsPath := rfl
@[simp] theorem State.gates_modChan (s : State) (ch : Nat) (f : HostChan → HostChan) : (s.modChan ch f).gates = s.gates := rfl
@[simp] theorem State.txBlocks_modChan (s : State) (ch : Nat) (f : HostChan → HostChan) : (s.modChan ch f).txBlocks = s.txBlocks := rfl
@[simp] theorem State.txDone_modChan (s : State) (ch : Nat) (f : HostChan → HostChan) : (s.modChan ch f).txDone = s.txDone := rfl
@[simp] theorem State.free_modChan (s : State) (ch : Nat) (f : HostChan → HostChan) : (s.modChan ch f).free = s.free := rfl
@[simp] theorem State.beam_modChan (s : State) (ch : Nat) (f : HostChan → HostChan) : (s.modChan ch f).beam = s.beam := rfl
@[simp] theorem State.fh_modChan (s : State) (ch : Nat) (f : HostChan → HostChan) : (s.modChan ch f).fh = s.fh := rfl
@[simp] theorem State.halls_modChan (s : State) (ch : Nat) (f : HostChan → HostChan) : (s.modChan ch f).halls = s.halls := rfl
@[simp] theorem State.alcoves_modChan (s : State) (ch : Nat) (f : HostChan → HostChan) : (s.modChan ch f).alcoves = s.alcoves := rfl
@[simp] theorem State.flits_modChan (s : State) (ch : Nat) (f : HostChan → HostChan) : (s.modChan ch f).flits = s.flits := rfl
@[simp] theorem State.routers_modChan (s : State) (ch : Nat) (f : HostChan → HostChan) : (s.modChan ch f).routers = s.routers := rfl
@[simp] theorem State.stair_modChan (s : State) (ch : Nat) (f : HostChan → HostChan) : (s.modChan ch f).stair = s.stair := rfl
@[simp] theorem State.ota_modChan (s : State) (ch : Nat) (f : HostChan → HostChan) : (s.modChan ch f).ota = s.ota := rfl
@[simp] theorem State.recov_modChan (s : State) (ch : Nat) (f : HostChan → HostChan) : (s.modChan ch f).recov = s.recov := rfl
@[simp] theorem State.energy_modChan (s : State) (ch : Nat) (f : HostChan → HostChan) : (s.modChan ch f).energy = s.energy := rfl
@[simp] theorem State.hk_modChan (s : State) (ch : Nat) (f : HostChan → HostChan) : (s.modChan ch f).hk = s.hk := rfl
@[simp] theorem State.timers_modChan (s : State) (ch : Nat) (f : HostChan → HostChan) : (s.modChan ch f).timers = s.timers := rfl
@[simp] theorem State.out_modChan (s : State) (ch : Nat) (f : HostChan → HostChan) : (s.modChan ch f).out = s.out := rfl
@[simp] theorem State.pending_modChan (s : State) (ch : Nat) (f : HostChan → HostChan) : (s.modChan ch f).pending = s.pending := rfl
@[simp] theorem State.word_modChan (s : State) (ch : Nat) (f : HostChan → HostChan) (r : Nat) : (s.modChan ch f).word r = s.word r := rfl
@[simp] theorem State.get_modChan (s : State) (ch : Nat) (f : HostChan → HostChan) (r : Fld) : (s.modChan ch f).get r = s.get r := rfl
@[simp] theorem State.getS_modChan (s : State) (ch : Nat) (f : HostChan → HostChan) (r : Fld) : (s.modChan ch f).getS r = s.getS r := rfl
@[simp] theorem State.flag_modChan (s : State) (ch : Nat) (f : HostChan → HostChan) (r : Fld) : (s.modChan ch f).flag r = s.flag r := rfl

/-! ### setSession -/

@[simp] theorem State.now_setSession (s : State) (n : Nat) (x : Option Session) : (s.setSession n x).now = s.now := rfl
@[simp] theorem State.regs_setSession (s : State) (n : Nat) (x : Option Session) : (s.setSession n x).regs = s.regs := rfl
@[simp] theorem State.mem_setSession (s : State) (n : Nat) (x : Option Session) : (s.setSession n x).mem = s.mem := rfl
@[simp] theorem State.trims_setSession (s : State) (n : Nat) (x : Option Session) : (s.setSession n x).trims = s.trims := rfl
@[simp] theorem State.trimsRx_setSession (s : State) (n : Nat) (x : Option Session) : (s.setSession n x).trimsRx = s.trimsRx := rfl
@[simp] theorem State.trimsDelay_setSession (s : State) (n : Nat) (x : Option Session) : (s.setSession n x).trimsDelay = s.trimsDelay := rfl
@[simp] theorem State.trimsTone_setSession (s : State) (n : Nat) (x : Option Session) : (s.setSession n x).trimsTone = s.trimsTone := rfl
@[simp] theorem State.trimsLoaded_setSession (s : State) (n : Nat) (x : Option Session) : (s.setSession n x).trimsLoaded = s.trimsLoaded := rfl
@[simp] theorem State.trimsBad_setSession (s : State) (n : Nat) (x : Option Session) : (s.setSession n x).trimsBad = s.trimsBad := rfl
@[simp] theorem State.chans_setSession (s : State) (n : Nat) (x : Option Session) : (s.setSession n x).chans = s.chans := rfl
@[simp] theorem State.keep_setSession (s : State) (n : Nat) (x : Option Session) : (s.setSession n x).keep = s.keep := rfl
@[simp] theorem State.sec_setSession (s : State) (n : Nat) (x : Option Session) : (s.setSession n x).sec = s.sec := rfl
@[simp] theorem State.image_setSession (s : State) (n : Nat) (x : Option Session) : (s.setSession n x).image = s.image := rfl
@[simp] theorem State.boot_setSession (s : State) (n : Nat) (x : Option Session) : (s.setSession n x).boot = s.boot := rfl
@[simp] theorem State.txn_setSession (s : State) (n : Nat) (x : Option Session) : (s.setSession n x).txn = s.txn := rfl
@[simp] theorem State.radio_setSession (s : State) (n : Nat) (x : Option Session) : (s.setSession n x).radio = s.radio := rfl
@[simp] theorem State.clock_setSession (s : State) (n : Nat) (x : Option Session) : (s.setSession n x).clock = s.clock := rfl
@[simp] theorem State.log_setSession (s : State) (n : Nat) (x : Option Session) : (s.setSession n x).log = s.log := rfl
@[simp] theorem State.intN_setSession (s : State) (n : Nat) (x : Option Session) : (s.setSession n x).intN = s.intN := rfl
@[simp] theorem State.faultN_setSession (s : State) (n : Nat) (x : Option Session) : (s.setSession n x).faultN = s.faultN := rfl
@[simp] theorem State.carriers_setSession (s : State) (n : Nat) (x : Option Session) : (s.setSession n x).carriers = s.carriers := rfl
@[simp] theorem State.cap_setSession (s : State) (n : Nat) (x : Option Session) : (s.setSession n x).cap = s.cap := rfl
@[simp] theorem State.obs_setSession (s : State) (n : Nat) (x : Option Session) : (s.setSession n x).obs = s.obs := rfl
@[simp] theorem State.obsPath_setSession (s : State) (n : Nat) (x : Option Session) : (s.setSession n x).obsPath = s.obsPath := rfl
@[simp] theorem State.gates_setSession (s : State) (n : Nat) (x : Option Session) : (s.setSession n x).gates = s.gates := rfl
@[simp] theorem State.txBlocks_setSession (s : State) (n : Nat) (x : Option Session) : (s.setSession n x).txBlocks = s.txBlocks := rfl
@[simp] theorem State.txDone_setSession (s : State) (n : Nat) (x : Option Session) : (s.setSession n x).txDone = s.txDone := rfl
@[simp] theorem State.free_setSession (s : State) (n : Nat) (x : Option Session) : (s.setSession n x).free = s.free := rfl
@[simp] theorem State.beam_setSession (s : State) (n : Nat) (x : Option Session) : (s.setSession n x).beam = s.beam := rfl
@[simp] theorem State.fh_setSession (s : State) (n : Nat) (x : Option Session) : (s.setSession n x).fh = s.fh := rfl
@[simp] theorem State.halls_setSession (s : State) (n : Nat) (x : Option Session) : (s.setSession n x).halls = s.halls := rfl
@[simp] theorem State.alcoves_setSession (s : State) (n : Nat) (x : Option Session) : (s.setSession n x).alcoves = s.alcoves := rfl
@[simp] theorem State.flits_setSession (s : State) (n : Nat) (x : Option Session) : (s.setSession n x).flits = s.flits := rfl
@[simp] theorem State.routers_setSession (s : State) (n : Nat) (x : Option Session) : (s.setSession n x).routers = s.routers := rfl
@[simp] theorem State.stair_setSession (s : State) (n : Nat) (x : Option Session) : (s.setSession n x).stair = s.stair := rfl
@[simp] theorem State.ota_setSession (s : State) (n : Nat) (x : Option Session) : (s.setSession n x).ota = s.ota := rfl
@[simp] theorem State.recov_setSession (s : State) (n : Nat) (x : Option Session) : (s.setSession n x).recov = s.recov := rfl
@[simp] theorem State.energy_setSession (s : State) (n : Nat) (x : Option Session) : (s.setSession n x).energy = s.energy := rfl
@[simp] theorem State.hk_setSession (s : State) (n : Nat) (x : Option Session) : (s.setSession n x).hk = s.hk := rfl
@[simp] theorem State.timers_setSession (s : State) (n : Nat) (x : Option Session) : (s.setSession n x).timers = s.timers := rfl
@[simp] theorem State.out_setSession (s : State) (n : Nat) (x : Option Session) : (s.setSession n x).out = s.out := rfl
@[simp] theorem State.pending_setSession (s : State) (n : Nat) (x : Option Session) : (s.setSession n x).pending = s.pending := rfl
@[simp] theorem State.word_setSession (s : State) (n : Nat) (x : Option Session) (r : Nat) : (s.setSession n x).word r = s.word r := rfl
@[simp] theorem State.get_setSession (s : State) (n : Nat) (x : Option Session) (r : Fld) : (s.setSession n x).get r = s.get r := rfl
@[simp] theorem State.getS_setSession (s : State) (n : Nat) (x : Option Session) (r : Fld) : (s.setSession n x).getS r = s.getS r := rfl
@[simp] theorem State.flag_setSession (s : State) (n : Nat) (x : Option Session) (r : Fld) : (s.setSession n x).flag r = s.flag r := rfl

/-! ### notifyDue -/

@[simp] theorem State.now_notifyDue (s : State) (bits : Nat) : (s.notifyDue bits).now = s.now := rfl
@[simp] theorem State.regs_notifyDue (s : State) (bits : Nat) : (s.notifyDue bits).regs = s.regs := rfl
@[simp] theorem State.mem_notifyDue (s : State) (bits : Nat) : (s.notifyDue bits).mem = s.mem := rfl
@[simp] theorem State.trims_notifyDue (s : State) (bits : Nat) : (s.notifyDue bits).trims = s.trims := rfl
@[simp] theorem State.trimsRx_notifyDue (s : State) (bits : Nat) : (s.notifyDue bits).trimsRx = s.trimsRx := rfl
@[simp] theorem State.trimsDelay_notifyDue (s : State) (bits : Nat) : (s.notifyDue bits).trimsDelay = s.trimsDelay := rfl
@[simp] theorem State.trimsTone_notifyDue (s : State) (bits : Nat) : (s.notifyDue bits).trimsTone = s.trimsTone := rfl
@[simp] theorem State.trimsLoaded_notifyDue (s : State) (bits : Nat) : (s.notifyDue bits).trimsLoaded = s.trimsLoaded := rfl
@[simp] theorem State.trimsBad_notifyDue (s : State) (bits : Nat) : (s.notifyDue bits).trimsBad = s.trimsBad := rfl
@[simp] theorem State.chans_notifyDue (s : State) (bits : Nat) : (s.notifyDue bits).chans = s.chans := rfl
@[simp] theorem State.keep_notifyDue (s : State) (bits : Nat) : (s.notifyDue bits).keep = s.keep := rfl
@[simp] theorem State.sec_notifyDue (s : State) (bits : Nat) : (s.notifyDue bits).sec = s.sec := rfl
@[simp] theorem State.image_notifyDue (s : State) (bits : Nat) : (s.notifyDue bits).image = s.image := rfl
@[simp] theorem State.boot_notifyDue (s : State) (bits : Nat) : (s.notifyDue bits).boot = s.boot := rfl
@[simp] theorem State.txn_notifyDue (s : State) (bits : Nat) : (s.notifyDue bits).txn = s.txn := rfl
@[simp] theorem State.radio_notifyDue (s : State) (bits : Nat) : (s.notifyDue bits).radio = s.radio := rfl
@[simp] theorem State.clock_notifyDue (s : State) (bits : Nat) : (s.notifyDue bits).clock = s.clock := rfl
@[simp] theorem State.log_notifyDue (s : State) (bits : Nat) : (s.notifyDue bits).log = s.log := rfl
@[simp] theorem State.intN_notifyDue (s : State) (bits : Nat) : (s.notifyDue bits).intN = s.intN := rfl
@[simp] theorem State.faultN_notifyDue (s : State) (bits : Nat) : (s.notifyDue bits).faultN = s.faultN := rfl
@[simp] theorem State.carriers_notifyDue (s : State) (bits : Nat) : (s.notifyDue bits).carriers = s.carriers := rfl
@[simp] theorem State.cap_notifyDue (s : State) (bits : Nat) : (s.notifyDue bits).cap = s.cap := rfl
@[simp] theorem State.obs_notifyDue (s : State) (bits : Nat) : (s.notifyDue bits).obs = s.obs := rfl
@[simp] theorem State.obsPath_notifyDue (s : State) (bits : Nat) : (s.notifyDue bits).obsPath = s.obsPath := rfl
@[simp] theorem State.gates_notifyDue (s : State) (bits : Nat) : (s.notifyDue bits).gates = s.gates := rfl
@[simp] theorem State.txBlocks_notifyDue (s : State) (bits : Nat) : (s.notifyDue bits).txBlocks = s.txBlocks := rfl
@[simp] theorem State.txDone_notifyDue (s : State) (bits : Nat) : (s.notifyDue bits).txDone = s.txDone := rfl
@[simp] theorem State.free_notifyDue (s : State) (bits : Nat) : (s.notifyDue bits).free = s.free := rfl
@[simp] theorem State.beam_notifyDue (s : State) (bits : Nat) : (s.notifyDue bits).beam = s.beam := rfl
@[simp] theorem State.fh_notifyDue (s : State) (bits : Nat) : (s.notifyDue bits).fh = s.fh := rfl
@[simp] theorem State.halls_notifyDue (s : State) (bits : Nat) : (s.notifyDue bits).halls = s.halls := rfl
@[simp] theorem State.alcoves_notifyDue (s : State) (bits : Nat) : (s.notifyDue bits).alcoves = s.alcoves := rfl
@[simp] theorem State.flits_notifyDue (s : State) (bits : Nat) : (s.notifyDue bits).flits = s.flits := rfl
@[simp] theorem State.routers_notifyDue (s : State) (bits : Nat) : (s.notifyDue bits).routers = s.routers := rfl
@[simp] theorem State.stair_notifyDue (s : State) (bits : Nat) : (s.notifyDue bits).stair = s.stair := rfl
@[simp] theorem State.ota_notifyDue (s : State) (bits : Nat) : (s.notifyDue bits).ota = s.ota := rfl
@[simp] theorem State.recov_notifyDue (s : State) (bits : Nat) : (s.notifyDue bits).recov = s.recov := rfl
@[simp] theorem State.energy_notifyDue (s : State) (bits : Nat) : (s.notifyDue bits).energy = s.energy := rfl
@[simp] theorem State.hk_notifyDue (s : State) (bits : Nat) : (s.notifyDue bits).hk = s.hk := rfl
@[simp] theorem State.timers_notifyDue (s : State) (bits : Nat) : (s.notifyDue bits).timers = s.timers := rfl
@[simp] theorem State.out_notifyDue (s : State) (bits : Nat) : (s.notifyDue bits).out = s.out := rfl
@[simp] theorem State.pending_notifyDue (s : State) (bits : Nat) : (s.notifyDue bits).pending = s.pending := rfl
@[simp] theorem State.word_notifyDue (s : State) (bits : Nat) (r : Nat) : (s.notifyDue bits).word r = s.word r := rfl
@[simp] theorem State.get_notifyDue (s : State) (bits : Nat) (r : Fld) : (s.notifyDue bits).get r = s.get r := rfl
@[simp] theorem State.getS_notifyDue (s : State) (bits : Nat) (r : Fld) : (s.notifyDue bits).getS r = s.getS r := rfl
@[simp] theorem State.flag_notifyDue (s : State) (bits : Nat) (r : Fld) : (s.notifyDue bits).flag r = s.flag r := rfl

/-! ### modPath -/

@[simp] theorem State.now_modPath (s : State) (p : Nat) (f : PathState → PathState) : (s.modPath p f).now = s.now := rfl
@[simp] theorem State.regs_modPath (s : State) (p : Nat) (f : PathState → PathState) : (s.modPath p f).regs = s.regs := rfl
@[simp] theorem State.mem_modPath (s : State) (p : Nat) (f : PathState → PathState) : (s.modPath p f).mem = s.mem := rfl
@[simp] theorem State.trims_modPath (s : State) (p : Nat) (f : PathState → PathState) : (s.modPath p f).trims = s.trims := rfl
@[simp] theorem State.trimsRx_modPath (s : State) (p : Nat) (f : PathState → PathState) : (s.modPath p f).trimsRx = s.trimsRx := rfl
@[simp] theorem State.trimsDelay_modPath (s : State) (p : Nat) (f : PathState → PathState) : (s.modPath p f).trimsDelay = s.trimsDelay := rfl
@[simp] theorem State.trimsTone_modPath (s : State) (p : Nat) (f : PathState → PathState) : (s.modPath p f).trimsTone = s.trimsTone := rfl
@[simp] theorem State.trimsLoaded_modPath (s : State) (p : Nat) (f : PathState → PathState) : (s.modPath p f).trimsLoaded = s.trimsLoaded := rfl
@[simp] theorem State.trimsBad_modPath (s : State) (p : Nat) (f : PathState → PathState) : (s.modPath p f).trimsBad = s.trimsBad := rfl
@[simp] theorem State.chans_modPath (s : State) (p : Nat) (f : PathState → PathState) : (s.modPath p f).chans = s.chans := rfl
@[simp] theorem State.sessions_modPath (s : State) (p : Nat) (f : PathState → PathState) : (s.modPath p f).sessions = s.sessions := rfl
@[simp] theorem State.keep_modPath (s : State) (p : Nat) (f : PathState → PathState) : (s.modPath p f).keep = s.keep := rfl
@[simp] theorem State.sec_modPath (s : State) (p : Nat) (f : PathState → PathState) : (s.modPath p f).sec = s.sec := rfl
@[simp] theorem State.image_modPath (s : State) (p : Nat) (f : PathState → PathState) : (s.modPath p f).image = s.image := rfl
@[simp] theorem State.boot_modPath (s : State) (p : Nat) (f : PathState → PathState) : (s.modPath p f).boot = s.boot := rfl
@[simp] theorem State.txn_modPath (s : State) (p : Nat) (f : PathState → PathState) : (s.modPath p f).txn = s.txn := rfl
@[simp] theorem State.clock_modPath (s : State) (p : Nat) (f : PathState → PathState) : (s.modPath p f).clock = s.clock := rfl
@[simp] theorem State.log_modPath (s : State) (p : Nat) (f : PathState → PathState) : (s.modPath p f).log = s.log := rfl
@[simp] theorem State.intN_modPath (s : State) (p : Nat) (f : PathState → PathState) : (s.modPath p f).intN = s.intN := rfl
@[simp] theorem State.faultN_modPath (s : State) (p : Nat) (f : PathState → PathState) : (s.modPath p f).faultN = s.faultN := rfl
@[simp] theorem State.carriers_modPath (s : State) (p : Nat) (f : PathState → PathState) : (s.modPath p f).carriers = s.carriers := rfl
@[simp] theorem State.cap_modPath (s : State) (p : Nat) (f : PathState → PathState) : (s.modPath p f).cap = s.cap := rfl
@[simp] theorem State.obs_modPath (s : State) (p : Nat) (f : PathState → PathState) : (s.modPath p f).obs = s.obs := rfl
@[simp] theorem State.obsPath_modPath (s : State) (p : Nat) (f : PathState → PathState) : (s.modPath p f).obsPath = s.obsPath := rfl
@[simp] theorem State.gates_modPath (s : State) (p : Nat) (f : PathState → PathState) : (s.modPath p f).gates = s.gates := rfl
@[simp] theorem State.txBlocks_modPath (s : State) (p : Nat) (f : PathState → PathState) : (s.modPath p f).txBlocks = s.txBlocks := rfl
@[simp] theorem State.txDone_modPath (s : State) (p : Nat) (f : PathState → PathState) : (s.modPath p f).txDone = s.txDone := rfl
@[simp] theorem State.free_modPath (s : State) (p : Nat) (f : PathState → PathState) : (s.modPath p f).free = s.free := rfl
@[simp] theorem State.beam_modPath (s : State) (p : Nat) (f : PathState → PathState) : (s.modPath p f).beam = s.beam := rfl
@[simp] theorem State.fh_modPath (s : State) (p : Nat) (f : PathState → PathState) : (s.modPath p f).fh = s.fh := rfl
@[simp] theorem State.halls_modPath (s : State) (p : Nat) (f : PathState → PathState) : (s.modPath p f).halls = s.halls := rfl
@[simp] theorem State.alcoves_modPath (s : State) (p : Nat) (f : PathState → PathState) : (s.modPath p f).alcoves = s.alcoves := rfl
@[simp] theorem State.flits_modPath (s : State) (p : Nat) (f : PathState → PathState) : (s.modPath p f).flits = s.flits := rfl
@[simp] theorem State.routers_modPath (s : State) (p : Nat) (f : PathState → PathState) : (s.modPath p f).routers = s.routers := rfl
@[simp] theorem State.stair_modPath (s : State) (p : Nat) (f : PathState → PathState) : (s.modPath p f).stair = s.stair := rfl
@[simp] theorem State.ota_modPath (s : State) (p : Nat) (f : PathState → PathState) : (s.modPath p f).ota = s.ota := rfl
@[simp] theorem State.recov_modPath (s : State) (p : Nat) (f : PathState → PathState) : (s.modPath p f).recov = s.recov := rfl
@[simp] theorem State.energy_modPath (s : State) (p : Nat) (f : PathState → PathState) : (s.modPath p f).energy = s.energy := rfl
@[simp] theorem State.hk_modPath (s : State) (p : Nat) (f : PathState → PathState) : (s.modPath p f).hk = s.hk := rfl
@[simp] theorem State.timers_modPath (s : State) (p : Nat) (f : PathState → PathState) : (s.modPath p f).timers = s.timers := rfl
@[simp] theorem State.out_modPath (s : State) (p : Nat) (f : PathState → PathState) : (s.modPath p f).out = s.out := rfl
@[simp] theorem State.pending_modPath (s : State) (p : Nat) (f : PathState → PathState) : (s.modPath p f).pending = s.pending := rfl
@[simp] theorem State.word_modPath (s : State) (p : Nat) (f : PathState → PathState) (r : Nat) : (s.modPath p f).word r = s.word r := rfl
@[simp] theorem State.get_modPath (s : State) (p : Nat) (f : PathState → PathState) (r : Fld) : (s.modPath p f).get r = s.get r := rfl
@[simp] theorem State.getS_modPath (s : State) (p : Nat) (f : PathState → PathState) (r : Fld) : (s.modPath p f).getS r = s.getS r := rfl
@[simp] theorem State.flag_modPath (s : State) (p : Nat) (f : PathState → PathState) (r : Fld) : (s.modPath p f).flag r = s.flag r := rfl

/-! ### modBank -/

@[simp] theorem State.now_modBank (s : State) (b : Nat) (f : LoBank → LoBank) : (s.modBank b f).now = s.now := rfl
@[simp] theorem State.regs_modBank (s : State) (b : Nat) (f : LoBank → LoBank) : (s.modBank b f).regs = s.regs := rfl
@[simp] theorem State.mem_modBank (s : State) (b : Nat) (f : LoBank → LoBank) : (s.modBank b f).mem = s.mem := rfl
@[simp] theorem State.trims_modBank (s : State) (b : Nat) (f : LoBank → LoBank) : (s.modBank b f).trims = s.trims := rfl
@[simp] theorem State.trimsRx_modBank (s : State) (b : Nat) (f : LoBank → LoBank) : (s.modBank b f).trimsRx = s.trimsRx := rfl
@[simp] theorem State.trimsDelay_modBank (s : State) (b : Nat) (f : LoBank → LoBank) : (s.modBank b f).trimsDelay = s.trimsDelay := rfl
@[simp] theorem State.trimsTone_modBank (s : State) (b : Nat) (f : LoBank → LoBank) : (s.modBank b f).trimsTone = s.trimsTone := rfl
@[simp] theorem State.trimsLoaded_modBank (s : State) (b : Nat) (f : LoBank → LoBank) : (s.modBank b f).trimsLoaded = s.trimsLoaded := rfl
@[simp] theorem State.trimsBad_modBank (s : State) (b : Nat) (f : LoBank → LoBank) : (s.modBank b f).trimsBad = s.trimsBad := rfl
@[simp] theorem State.chans_modBank (s : State) (b : Nat) (f : LoBank → LoBank) : (s.modBank b f).chans = s.chans := rfl
@[simp] theorem State.sessions_modBank (s : State) (b : Nat) (f : LoBank → LoBank) : (s.modBank b f).sessions = s.sessions := rfl
@[simp] theorem State.keep_modBank (s : State) (b : Nat) (f : LoBank → LoBank) : (s.modBank b f).keep = s.keep := rfl
@[simp] theorem State.sec_modBank (s : State) (b : Nat) (f : LoBank → LoBank) : (s.modBank b f).sec = s.sec := rfl
@[simp] theorem State.image_modBank (s : State) (b : Nat) (f : LoBank → LoBank) : (s.modBank b f).image = s.image := rfl
@[simp] theorem State.boot_modBank (s : State) (b : Nat) (f : LoBank → LoBank) : (s.modBank b f).boot = s.boot := rfl
@[simp] theorem State.txn_modBank (s : State) (b : Nat) (f : LoBank → LoBank) : (s.modBank b f).txn = s.txn := rfl
@[simp] theorem State.clock_modBank (s : State) (b : Nat) (f : LoBank → LoBank) : (s.modBank b f).clock = s.clock := rfl
@[simp] theorem State.log_modBank (s : State) (b : Nat) (f : LoBank → LoBank) : (s.modBank b f).log = s.log := rfl
@[simp] theorem State.intN_modBank (s : State) (b : Nat) (f : LoBank → LoBank) : (s.modBank b f).intN = s.intN := rfl
@[simp] theorem State.faultN_modBank (s : State) (b : Nat) (f : LoBank → LoBank) : (s.modBank b f).faultN = s.faultN := rfl
@[simp] theorem State.carriers_modBank (s : State) (b : Nat) (f : LoBank → LoBank) : (s.modBank b f).carriers = s.carriers := rfl
@[simp] theorem State.cap_modBank (s : State) (b : Nat) (f : LoBank → LoBank) : (s.modBank b f).cap = s.cap := rfl
@[simp] theorem State.obs_modBank (s : State) (b : Nat) (f : LoBank → LoBank) : (s.modBank b f).obs = s.obs := rfl
@[simp] theorem State.obsPath_modBank (s : State) (b : Nat) (f : LoBank → LoBank) : (s.modBank b f).obsPath = s.obsPath := rfl
@[simp] theorem State.gates_modBank (s : State) (b : Nat) (f : LoBank → LoBank) : (s.modBank b f).gates = s.gates := rfl
@[simp] theorem State.txBlocks_modBank (s : State) (b : Nat) (f : LoBank → LoBank) : (s.modBank b f).txBlocks = s.txBlocks := rfl
@[simp] theorem State.txDone_modBank (s : State) (b : Nat) (f : LoBank → LoBank) : (s.modBank b f).txDone = s.txDone := rfl
@[simp] theorem State.free_modBank (s : State) (b : Nat) (f : LoBank → LoBank) : (s.modBank b f).free = s.free := rfl
@[simp] theorem State.beam_modBank (s : State) (b : Nat) (f : LoBank → LoBank) : (s.modBank b f).beam = s.beam := rfl
@[simp] theorem State.fh_modBank (s : State) (b : Nat) (f : LoBank → LoBank) : (s.modBank b f).fh = s.fh := rfl
@[simp] theorem State.halls_modBank (s : State) (b : Nat) (f : LoBank → LoBank) : (s.modBank b f).halls = s.halls := rfl
@[simp] theorem State.alcoves_modBank (s : State) (b : Nat) (f : LoBank → LoBank) : (s.modBank b f).alcoves = s.alcoves := rfl
@[simp] theorem State.flits_modBank (s : State) (b : Nat) (f : LoBank → LoBank) : (s.modBank b f).flits = s.flits := rfl
@[simp] theorem State.routers_modBank (s : State) (b : Nat) (f : LoBank → LoBank) : (s.modBank b f).routers = s.routers := rfl
@[simp] theorem State.stair_modBank (s : State) (b : Nat) (f : LoBank → LoBank) : (s.modBank b f).stair = s.stair := rfl
@[simp] theorem State.ota_modBank (s : State) (b : Nat) (f : LoBank → LoBank) : (s.modBank b f).ota = s.ota := rfl
@[simp] theorem State.recov_modBank (s : State) (b : Nat) (f : LoBank → LoBank) : (s.modBank b f).recov = s.recov := rfl
@[simp] theorem State.energy_modBank (s : State) (b : Nat) (f : LoBank → LoBank) : (s.modBank b f).energy = s.energy := rfl
@[simp] theorem State.hk_modBank (s : State) (b : Nat) (f : LoBank → LoBank) : (s.modBank b f).hk = s.hk := rfl
@[simp] theorem State.timers_modBank (s : State) (b : Nat) (f : LoBank → LoBank) : (s.modBank b f).timers = s.timers := rfl
@[simp] theorem State.out_modBank (s : State) (b : Nat) (f : LoBank → LoBank) : (s.modBank b f).out = s.out := rfl
@[simp] theorem State.pending_modBank (s : State) (b : Nat) (f : LoBank → LoBank) : (s.modBank b f).pending = s.pending := rfl
@[simp] theorem State.word_modBank (s : State) (b : Nat) (f : LoBank → LoBank) (r : Nat) : (s.modBank b f).word r = s.word r := rfl
@[simp] theorem State.get_modBank (s : State) (b : Nat) (f : LoBank → LoBank) (r : Fld) : (s.modBank b f).get r = s.get r := rfl
@[simp] theorem State.getS_modBank (s : State) (b : Nat) (f : LoBank → LoBank) (r : Fld) : (s.modBank b f).getS r = s.getS r := rfl
@[simp] theorem State.flag_modBank (s : State) (b : Nat) (f : LoBank → LoBank) (r : Fld) : (s.modBank b f).flag r = s.flag r := rfl

/-! ### modSlot -/

@[simp] theorem State.now_modSlot (s : State) (n : Nat) (f : TxnSlot → TxnSlot) : (s.modSlot n f).now = s.now := rfl
@[simp] theorem State.regs_modSlot (s : State) (n : Nat) (f : TxnSlot → TxnSlot) : (s.modSlot n f).regs = s.regs := rfl
@[simp] theorem State.mem_modSlot (s : State) (n : Nat) (f : TxnSlot → TxnSlot) : (s.modSlot n f).mem = s.mem := rfl
@[simp] theorem State.trims_modSlot (s : State) (n : Nat) (f : TxnSlot → TxnSlot) : (s.modSlot n f).trims = s.trims := rfl
@[simp] theorem State.trimsRx_modSlot (s : State) (n : Nat) (f : TxnSlot → TxnSlot) : (s.modSlot n f).trimsRx = s.trimsRx := rfl
@[simp] theorem State.trimsDelay_modSlot (s : State) (n : Nat) (f : TxnSlot → TxnSlot) : (s.modSlot n f).trimsDelay = s.trimsDelay := rfl
@[simp] theorem State.trimsTone_modSlot (s : State) (n : Nat) (f : TxnSlot → TxnSlot) : (s.modSlot n f).trimsTone = s.trimsTone := rfl
@[simp] theorem State.trimsLoaded_modSlot (s : State) (n : Nat) (f : TxnSlot → TxnSlot) : (s.modSlot n f).trimsLoaded = s.trimsLoaded := rfl
@[simp] theorem State.trimsBad_modSlot (s : State) (n : Nat) (f : TxnSlot → TxnSlot) : (s.modSlot n f).trimsBad = s.trimsBad := rfl
@[simp] theorem State.chans_modSlot (s : State) (n : Nat) (f : TxnSlot → TxnSlot) : (s.modSlot n f).chans = s.chans := rfl
@[simp] theorem State.sessions_modSlot (s : State) (n : Nat) (f : TxnSlot → TxnSlot) : (s.modSlot n f).sessions = s.sessions := rfl
@[simp] theorem State.keep_modSlot (s : State) (n : Nat) (f : TxnSlot → TxnSlot) : (s.modSlot n f).keep = s.keep := rfl
@[simp] theorem State.sec_modSlot (s : State) (n : Nat) (f : TxnSlot → TxnSlot) : (s.modSlot n f).sec = s.sec := rfl
@[simp] theorem State.image_modSlot (s : State) (n : Nat) (f : TxnSlot → TxnSlot) : (s.modSlot n f).image = s.image := rfl
@[simp] theorem State.boot_modSlot (s : State) (n : Nat) (f : TxnSlot → TxnSlot) : (s.modSlot n f).boot = s.boot := rfl
@[simp] theorem State.radio_modSlot (s : State) (n : Nat) (f : TxnSlot → TxnSlot) : (s.modSlot n f).radio = s.radio := rfl
@[simp] theorem State.clock_modSlot (s : State) (n : Nat) (f : TxnSlot → TxnSlot) : (s.modSlot n f).clock = s.clock := rfl
@[simp] theorem State.log_modSlot (s : State) (n : Nat) (f : TxnSlot → TxnSlot) : (s.modSlot n f).log = s.log := rfl
@[simp] theorem State.intN_modSlot (s : State) (n : Nat) (f : TxnSlot → TxnSlot) : (s.modSlot n f).intN = s.intN := rfl
@[simp] theorem State.faultN_modSlot (s : State) (n : Nat) (f : TxnSlot → TxnSlot) : (s.modSlot n f).faultN = s.faultN := rfl
@[simp] theorem State.carriers_modSlot (s : State) (n : Nat) (f : TxnSlot → TxnSlot) : (s.modSlot n f).carriers = s.carriers := rfl
@[simp] theorem State.cap_modSlot (s : State) (n : Nat) (f : TxnSlot → TxnSlot) : (s.modSlot n f).cap = s.cap := rfl
@[simp] theorem State.obs_modSlot (s : State) (n : Nat) (f : TxnSlot → TxnSlot) : (s.modSlot n f).obs = s.obs := rfl
@[simp] theorem State.obsPath_modSlot (s : State) (n : Nat) (f : TxnSlot → TxnSlot) : (s.modSlot n f).obsPath = s.obsPath := rfl
@[simp] theorem State.gates_modSlot (s : State) (n : Nat) (f : TxnSlot → TxnSlot) : (s.modSlot n f).gates = s.gates := rfl
@[simp] theorem State.txBlocks_modSlot (s : State) (n : Nat) (f : TxnSlot → TxnSlot) : (s.modSlot n f).txBlocks = s.txBlocks := rfl
@[simp] theorem State.txDone_modSlot (s : State) (n : Nat) (f : TxnSlot → TxnSlot) : (s.modSlot n f).txDone = s.txDone := rfl
@[simp] theorem State.free_modSlot (s : State) (n : Nat) (f : TxnSlot → TxnSlot) : (s.modSlot n f).free = s.free := rfl
@[simp] theorem State.beam_modSlot (s : State) (n : Nat) (f : TxnSlot → TxnSlot) : (s.modSlot n f).beam = s.beam := rfl
@[simp] theorem State.fh_modSlot (s : State) (n : Nat) (f : TxnSlot → TxnSlot) : (s.modSlot n f).fh = s.fh := rfl
@[simp] theorem State.halls_modSlot (s : State) (n : Nat) (f : TxnSlot → TxnSlot) : (s.modSlot n f).halls = s.halls := rfl
@[simp] theorem State.alcoves_modSlot (s : State) (n : Nat) (f : TxnSlot → TxnSlot) : (s.modSlot n f).alcoves = s.alcoves := rfl
@[simp] theorem State.flits_modSlot (s : State) (n : Nat) (f : TxnSlot → TxnSlot) : (s.modSlot n f).flits = s.flits := rfl
@[simp] theorem State.routers_modSlot (s : State) (n : Nat) (f : TxnSlot → TxnSlot) : (s.modSlot n f).routers = s.routers := rfl
@[simp] theorem State.stair_modSlot (s : State) (n : Nat) (f : TxnSlot → TxnSlot) : (s.modSlot n f).stair = s.stair := rfl
@[simp] theorem State.ota_modSlot (s : State) (n : Nat) (f : TxnSlot → TxnSlot) : (s.modSlot n f).ota = s.ota := rfl
@[simp] theorem State.recov_modSlot (s : State) (n : Nat) (f : TxnSlot → TxnSlot) : (s.modSlot n f).recov = s.recov := rfl
@[simp] theorem State.energy_modSlot (s : State) (n : Nat) (f : TxnSlot → TxnSlot) : (s.modSlot n f).energy = s.energy := rfl
@[simp] theorem State.hk_modSlot (s : State) (n : Nat) (f : TxnSlot → TxnSlot) : (s.modSlot n f).hk = s.hk := rfl
@[simp] theorem State.timers_modSlot (s : State) (n : Nat) (f : TxnSlot → TxnSlot) : (s.modSlot n f).timers = s.timers := rfl
@[simp] theorem State.out_modSlot (s : State) (n : Nat) (f : TxnSlot → TxnSlot) : (s.modSlot n f).out = s.out := rfl
@[simp] theorem State.pending_modSlot (s : State) (n : Nat) (f : TxnSlot → TxnSlot) : (s.modSlot n f).pending = s.pending := rfl
@[simp] theorem State.word_modSlot (s : State) (n : Nat) (f : TxnSlot → TxnSlot) (r : Nat) : (s.modSlot n f).word r = s.word r := rfl
@[simp] theorem State.get_modSlot (s : State) (n : Nat) (f : TxnSlot → TxnSlot) (r : Fld) : (s.modSlot n f).get r = s.get r := rfl
@[simp] theorem State.getS_modSlot (s : State) (n : Nat) (f : TxnSlot → TxnSlot) (r : Fld) : (s.modSlot n f).getS r = s.getS r := rfl
@[simp] theorem State.flag_modSlot (s : State) (n : Nat) (f : TxnSlot → TxnSlot) (r : Fld) : (s.modSlot n f).flag r = s.flag r := rfl

/-! ### notice -/

@[simp] theorem State.now_notice (s : State) (k : Notice) : (s.notice k).now = s.now := rfl
@[simp] theorem State.mem_notice (s : State) (k : Notice) : (s.notice k).mem = s.mem := rfl
@[simp] theorem State.trims_notice (s : State) (k : Notice) : (s.notice k).trims = s.trims := rfl
@[simp] theorem State.trimsRx_notice (s : State) (k : Notice) : (s.notice k).trimsRx = s.trimsRx := rfl
@[simp] theorem State.trimsDelay_notice (s : State) (k : Notice) : (s.notice k).trimsDelay = s.trimsDelay := rfl
@[simp] theorem State.trimsTone_notice (s : State) (k : Notice) : (s.notice k).trimsTone = s.trimsTone := rfl
@[simp] theorem State.trimsLoaded_notice (s : State) (k : Notice) : (s.notice k).trimsLoaded = s.trimsLoaded := rfl
@[simp] theorem State.trimsBad_notice (s : State) (k : Notice) : (s.notice k).trimsBad = s.trimsBad := rfl
@[simp] theorem State.chans_notice (s : State) (k : Notice) : (s.notice k).chans = s.chans := rfl
@[simp] theorem State.keep_notice (s : State) (k : Notice) : (s.notice k).keep = s.keep := rfl
@[simp] theorem State.sec_notice (s : State) (k : Notice) : (s.notice k).sec = s.sec := rfl
@[simp] theorem State.image_notice (s : State) (k : Notice) : (s.notice k).image = s.image := rfl
@[simp] theorem State.boot_notice (s : State) (k : Notice) : (s.notice k).boot = s.boot := rfl
@[simp] theorem State.txn_notice (s : State) (k : Notice) : (s.notice k).txn = s.txn := rfl
@[simp] theorem State.radio_notice (s : State) (k : Notice) : (s.notice k).radio = s.radio := rfl
@[simp] theorem State.clock_notice (s : State) (k : Notice) : (s.notice k).clock = s.clock := rfl
@[simp] theorem State.log_notice (s : State) (k : Notice) : (s.notice k).log = s.log := rfl
@[simp] theorem State.intN_notice (s : State) (k : Notice) : (s.notice k).intN = s.intN := rfl
@[simp] theorem State.faultN_notice (s : State) (k : Notice) : (s.notice k).faultN = s.faultN := rfl
@[simp] theorem State.carriers_notice (s : State) (k : Notice) : (s.notice k).carriers = s.carriers := rfl
@[simp] theorem State.cap_notice (s : State) (k : Notice) : (s.notice k).cap = s.cap := rfl
@[simp] theorem State.obs_notice (s : State) (k : Notice) : (s.notice k).obs = s.obs := rfl
@[simp] theorem State.obsPath_notice (s : State) (k : Notice) : (s.notice k).obsPath = s.obsPath := rfl
@[simp] theorem State.gates_notice (s : State) (k : Notice) : (s.notice k).gates = s.gates := rfl
@[simp] theorem State.txBlocks_notice (s : State) (k : Notice) : (s.notice k).txBlocks = s.txBlocks := rfl
@[simp] theorem State.txDone_notice (s : State) (k : Notice) : (s.notice k).txDone = s.txDone := rfl
@[simp] theorem State.free_notice (s : State) (k : Notice) : (s.notice k).free = s.free := rfl
@[simp] theorem State.beam_notice (s : State) (k : Notice) : (s.notice k).beam = s.beam := rfl
@[simp] theorem State.fh_notice (s : State) (k : Notice) : (s.notice k).fh = s.fh := rfl
@[simp] theorem State.halls_notice (s : State) (k : Notice) : (s.notice k).halls = s.halls := rfl
@[simp] theorem State.alcoves_notice (s : State) (k : Notice) : (s.notice k).alcoves = s.alcoves := rfl
@[simp] theorem State.flits_notice (s : State) (k : Notice) : (s.notice k).flits = s.flits := rfl
@[simp] theorem State.routers_notice (s : State) (k : Notice) : (s.notice k).routers = s.routers := rfl
@[simp] theorem State.stair_notice (s : State) (k : Notice) : (s.notice k).stair = s.stair := rfl
@[simp] theorem State.ota_notice (s : State) (k : Notice) : (s.notice k).ota = s.ota := rfl
@[simp] theorem State.recov_notice (s : State) (k : Notice) : (s.notice k).recov = s.recov := rfl
@[simp] theorem State.energy_notice (s : State) (k : Notice) : (s.notice k).energy = s.energy := rfl
@[simp] theorem State.hk_notice (s : State) (k : Notice) : (s.notice k).hk = s.hk := rfl
@[simp] theorem State.timers_notice (s : State) (k : Notice) : (s.notice k).timers = s.timers := rfl
@[simp] theorem State.out_notice (s : State) (k : Notice) : (s.notice k).out = s.out := rfl
@[simp] theorem State.pending_notice (s : State) (k : Notice) : (s.notice k).pending = s.pending := rfl

/-! ### drivePins -/

@[simp] theorem State.now_drivePins (s : State) : s.drivePins.now = s.now := rfl
@[simp] theorem State.regs_drivePins (s : State) : s.drivePins.regs = s.regs := rfl
@[simp] theorem State.mem_drivePins (s : State) : s.drivePins.mem = s.mem := rfl
@[simp] theorem State.trims_drivePins (s : State) : s.drivePins.trims = s.trims := rfl
@[simp] theorem State.trimsRx_drivePins (s : State) : s.drivePins.trimsRx = s.trimsRx := rfl
@[simp] theorem State.trimsDelay_drivePins (s : State) : s.drivePins.trimsDelay = s.trimsDelay := rfl
@[simp] theorem State.trimsTone_drivePins (s : State) : s.drivePins.trimsTone = s.trimsTone := rfl
@[simp] theorem State.trimsLoaded_drivePins (s : State) : s.drivePins.trimsLoaded = s.trimsLoaded := rfl
@[simp] theorem State.trimsBad_drivePins (s : State) : s.drivePins.trimsBad = s.trimsBad := rfl
@[simp] theorem State.chans_drivePins (s : State) : s.drivePins.chans = s.chans := rfl
@[simp] theorem State.sessions_drivePins (s : State) : s.drivePins.sessions = s.sessions := rfl
@[simp] theorem State.keep_drivePins (s : State) : s.drivePins.keep = s.keep := rfl
@[simp] theorem State.sec_drivePins (s : State) : s.drivePins.sec = s.sec := rfl
@[simp] theorem State.image_drivePins (s : State) : s.drivePins.image = s.image := rfl
@[simp] theorem State.boot_drivePins (s : State) : s.drivePins.boot = s.boot := rfl
@[simp] theorem State.txn_drivePins (s : State) : s.drivePins.txn = s.txn := rfl
@[simp] theorem State.radio_drivePins (s : State) : s.drivePins.radio = s.radio := rfl
@[simp] theorem State.clock_drivePins (s : State) : s.drivePins.clock = s.clock := rfl
@[simp] theorem State.log_drivePins (s : State) : s.drivePins.log = s.log := rfl
@[simp] theorem State.carriers_drivePins (s : State) : s.drivePins.carriers = s.carriers := rfl
@[simp] theorem State.cap_drivePins (s : State) : s.drivePins.cap = s.cap := rfl
@[simp] theorem State.obs_drivePins (s : State) : s.drivePins.obs = s.obs := rfl
@[simp] theorem State.obsPath_drivePins (s : State) : s.drivePins.obsPath = s.obsPath := rfl
@[simp] theorem State.gates_drivePins (s : State) : s.drivePins.gates = s.gates := rfl
@[simp] theorem State.txBlocks_drivePins (s : State) : s.drivePins.txBlocks = s.txBlocks := rfl
@[simp] theorem State.txDone_drivePins (s : State) : s.drivePins.txDone = s.txDone := rfl
@[simp] theorem State.free_drivePins (s : State) : s.drivePins.free = s.free := rfl
@[simp] theorem State.beam_drivePins (s : State) : s.drivePins.beam = s.beam := rfl
@[simp] theorem State.fh_drivePins (s : State) : s.drivePins.fh = s.fh := rfl
@[simp] theorem State.halls_drivePins (s : State) : s.drivePins.halls = s.halls := rfl
@[simp] theorem State.alcoves_drivePins (s : State) : s.drivePins.alcoves = s.alcoves := rfl
@[simp] theorem State.flits_drivePins (s : State) : s.drivePins.flits = s.flits := rfl
@[simp] theorem State.routers_drivePins (s : State) : s.drivePins.routers = s.routers := rfl
@[simp] theorem State.stair_drivePins (s : State) : s.drivePins.stair = s.stair := rfl
@[simp] theorem State.ota_drivePins (s : State) : s.drivePins.ota = s.ota := rfl
@[simp] theorem State.recov_drivePins (s : State) : s.drivePins.recov = s.recov := rfl
@[simp] theorem State.energy_drivePins (s : State) : s.drivePins.energy = s.energy := rfl
@[simp] theorem State.hk_drivePins (s : State) : s.drivePins.hk = s.hk := rfl
@[simp] theorem State.timers_drivePins (s : State) : s.drivePins.timers = s.timers := rfl
@[simp] theorem State.out_drivePins (s : State) : s.drivePins.out = s.out := rfl
@[simp] theorem State.pending_drivePins (s : State) : s.drivePins.pending = s.pending := rfl
@[simp] theorem State.word_drivePins (s : State) (r : Nat) : s.drivePins.word r = s.word r := rfl
@[simp] theorem State.get_drivePins (s : State) (r : Fld) : s.drivePins.get r = s.get r := rfl
@[simp] theorem State.getS_drivePins (s : State) (r : Fld) : s.drivePins.getS r = s.getS r := rfl
@[simp] theorem State.flag_drivePins (s : State) (r : Fld) : s.drivePins.flag r = s.flag r := rfl

/-! ### memWrite -/

@[simp] theorem State.now_memWrite (s : State) (off : Nat) (bs : List Byte) : (s.memWrite off bs).now = s.now := rfl
@[simp] theorem State.regs_memWrite (s : State) (off : Nat) (bs : List Byte) : (s.memWrite off bs).regs = s.regs := rfl
@[simp] theorem State.trims_memWrite (s : State) (off : Nat) (bs : List Byte) : (s.memWrite off bs).trims = s.trims := rfl
@[simp] theorem State.trimsRx_memWrite (s : State) (off : Nat) (bs : List Byte) : (s.memWrite off bs).trimsRx = s.trimsRx := rfl
@[simp] theorem State.trimsDelay_memWrite (s : State) (off : Nat) (bs : List Byte) : (s.memWrite off bs).trimsDelay = s.trimsDelay := rfl
@[simp] theorem State.trimsTone_memWrite (s : State) (off : Nat) (bs : List Byte) : (s.memWrite off bs).trimsTone = s.trimsTone := rfl
@[simp] theorem State.trimsLoaded_memWrite (s : State) (off : Nat) (bs : List Byte) : (s.memWrite off bs).trimsLoaded = s.trimsLoaded := rfl
@[simp] theorem State.trimsBad_memWrite (s : State) (off : Nat) (bs : List Byte) : (s.memWrite off bs).trimsBad = s.trimsBad := rfl
@[simp] theorem State.chans_memWrite (s : State) (off : Nat) (bs : List Byte) : (s.memWrite off bs).chans = s.chans := rfl
@[simp] theorem State.sessions_memWrite (s : State) (off : Nat) (bs : List Byte) : (s.memWrite off bs).sessions = s.sessions := rfl
@[simp] theorem State.keep_memWrite (s : State) (off : Nat) (bs : List Byte) : (s.memWrite off bs).keep = s.keep := rfl
@[simp] theorem State.sec_memWrite (s : State) (off : Nat) (bs : List Byte) : (s.memWrite off bs).sec = s.sec := rfl
@[simp] theorem State.image_memWrite (s : State) (off : Nat) (bs : List Byte) : (s.memWrite off bs).image = s.image := rfl
@[simp] theorem State.boot_memWrite (s : State) (off : Nat) (bs : List Byte) : (s.memWrite off bs).boot = s.boot := rfl
@[simp] theorem State.txn_memWrite (s : State) (off : Nat) (bs : List Byte) : (s.memWrite off bs).txn = s.txn := rfl
@[simp] theorem State.radio_memWrite (s : State) (off : Nat) (bs : List Byte) : (s.memWrite off bs).radio = s.radio := rfl
@[simp] theorem State.clock_memWrite (s : State) (off : Nat) (bs : List Byte) : (s.memWrite off bs).clock = s.clock := rfl
@[simp] theorem State.log_memWrite (s : State) (off : Nat) (bs : List Byte) : (s.memWrite off bs).log = s.log := rfl
@[simp] theorem State.intN_memWrite (s : State) (off : Nat) (bs : List Byte) : (s.memWrite off bs).intN = s.intN := rfl
@[simp] theorem State.faultN_memWrite (s : State) (off : Nat) (bs : List Byte) : (s.memWrite off bs).faultN = s.faultN := rfl
@[simp] theorem State.carriers_memWrite (s : State) (off : Nat) (bs : List Byte) : (s.memWrite off bs).carriers = s.carriers := rfl
@[simp] theorem State.cap_memWrite (s : State) (off : Nat) (bs : List Byte) : (s.memWrite off bs).cap = s.cap := rfl
@[simp] theorem State.obs_memWrite (s : State) (off : Nat) (bs : List Byte) : (s.memWrite off bs).obs = s.obs := rfl
@[simp] theorem State.obsPath_memWrite (s : State) (off : Nat) (bs : List Byte) : (s.memWrite off bs).obsPath = s.obsPath := rfl
@[simp] theorem State.gates_memWrite (s : State) (off : Nat) (bs : List Byte) : (s.memWrite off bs).gates = s.gates := rfl
@[simp] theorem State.txBlocks_memWrite (s : State) (off : Nat) (bs : List Byte) : (s.memWrite off bs).txBlocks = s.txBlocks := rfl
@[simp] theorem State.txDone_memWrite (s : State) (off : Nat) (bs : List Byte) : (s.memWrite off bs).txDone = s.txDone := rfl
@[simp] theorem State.free_memWrite (s : State) (off : Nat) (bs : List Byte) : (s.memWrite off bs).free = s.free := rfl
@[simp] theorem State.beam_memWrite (s : State) (off : Nat) (bs : List Byte) : (s.memWrite off bs).beam = s.beam := rfl
@[simp] theorem State.fh_memWrite (s : State) (off : Nat) (bs : List Byte) : (s.memWrite off bs).fh = s.fh := rfl
@[simp] theorem State.halls_memWrite (s : State) (off : Nat) (bs : List Byte) : (s.memWrite off bs).halls = s.halls := rfl
@[simp] theorem State.alcoves_memWrite (s : State) (off : Nat) (bs : List Byte) : (s.memWrite off bs).alcoves = s.alcoves := rfl
@[simp] theorem State.flits_memWrite (s : State) (off : Nat) (bs : List Byte) : (s.memWrite off bs).flits = s.flits := rfl
@[simp] theorem State.routers_memWrite (s : State) (off : Nat) (bs : List Byte) : (s.memWrite off bs).routers = s.routers := rfl
@[simp] theorem State.stair_memWrite (s : State) (off : Nat) (bs : List Byte) : (s.memWrite off bs).stair = s.stair := rfl
@[simp] theorem State.ota_memWrite (s : State) (off : Nat) (bs : List Byte) : (s.memWrite off bs).ota = s.ota := rfl
@[simp] theorem State.recov_memWrite (s : State) (off : Nat) (bs : List Byte) : (s.memWrite off bs).recov = s.recov := rfl
@[simp] theorem State.energy_memWrite (s : State) (off : Nat) (bs : List Byte) : (s.memWrite off bs).energy = s.energy := rfl
@[simp] theorem State.hk_memWrite (s : State) (off : Nat) (bs : List Byte) : (s.memWrite off bs).hk = s.hk := rfl
@[simp] theorem State.timers_memWrite (s : State) (off : Nat) (bs : List Byte) : (s.memWrite off bs).timers = s.timers := rfl
@[simp] theorem State.out_memWrite (s : State) (off : Nat) (bs : List Byte) : (s.memWrite off bs).out = s.out := rfl
@[simp] theorem State.pending_memWrite (s : State) (off : Nat) (bs : List Byte) : (s.memWrite off bs).pending = s.pending := rfl
@[simp] theorem State.word_memWrite (s : State) (off : Nat) (bs : List Byte) (r : Nat) : (s.memWrite off bs).word r = s.word r := rfl
@[simp] theorem State.get_memWrite (s : State) (off : Nat) (bs : List Byte) (r : Fld) : (s.memWrite off bs).get r = s.get r := rfl
@[simp] theorem State.getS_memWrite (s : State) (off : Nat) (bs : List Byte) (r : Fld) : (s.memWrite off bs).getS r = s.getS r := rfl
@[simp] theorem State.flag_memWrite (s : State) (off : Nat) (bs : List Byte) (r : Fld) : (s.memWrite off bs).flag r = s.flag r := rfl

/-! ### drew -/

@[simp] theorem State.now_drew (s : State) (n : Nat) : (s.drew n).now = s.now := rfl
@[simp] theorem State.regs_drew (s : State) (n : Nat) : (s.drew n).regs = s.regs := rfl
@[simp] theorem State.mem_drew (s : State) (n : Nat) : (s.drew n).mem = s.mem := rfl
@[simp] theorem State.trims_drew (s : State) (n : Nat) : (s.drew n).trims = s.trims := rfl
@[simp] theorem State.trimsRx_drew (s : State) (n : Nat) : (s.drew n).trimsRx = s.trimsRx := rfl
@[simp] theorem State.trimsDelay_drew (s : State) (n : Nat) : (s.drew n).trimsDelay = s.trimsDelay := rfl
@[simp] theorem State.trimsTone_drew (s : State) (n : Nat) : (s.drew n).trimsTone = s.trimsTone := rfl
@[simp] theorem State.trimsLoaded_drew (s : State) (n : Nat) : (s.drew n).trimsLoaded = s.trimsLoaded := rfl
@[simp] theorem State.trimsBad_drew (s : State) (n : Nat) : (s.drew n).trimsBad = s.trimsBad := rfl
@[simp] theorem State.chans_drew (s : State) (n : Nat) : (s.drew n).chans = s.chans := rfl
@[simp] theorem State.sessions_drew (s : State) (n : Nat) : (s.drew n).sessions = s.sessions := rfl
@[simp] theorem State.keep_drew (s : State) (n : Nat) : (s.drew n).keep = s.keep := rfl
@[simp] theorem State.image_drew (s : State) (n : Nat) : (s.drew n).image = s.image := rfl
@[simp] theorem State.boot_drew (s : State) (n : Nat) : (s.drew n).boot = s.boot := rfl
@[simp] theorem State.txn_drew (s : State) (n : Nat) : (s.drew n).txn = s.txn := rfl
@[simp] theorem State.radio_drew (s : State) (n : Nat) : (s.drew n).radio = s.radio := rfl
@[simp] theorem State.clock_drew (s : State) (n : Nat) : (s.drew n).clock = s.clock := rfl
@[simp] theorem State.log_drew (s : State) (n : Nat) : (s.drew n).log = s.log := rfl
@[simp] theorem State.intN_drew (s : State) (n : Nat) : (s.drew n).intN = s.intN := rfl
@[simp] theorem State.faultN_drew (s : State) (n : Nat) : (s.drew n).faultN = s.faultN := rfl
@[simp] theorem State.carriers_drew (s : State) (n : Nat) : (s.drew n).carriers = s.carriers := rfl
@[simp] theorem State.cap_drew (s : State) (n : Nat) : (s.drew n).cap = s.cap := rfl
@[simp] theorem State.obs_drew (s : State) (n : Nat) : (s.drew n).obs = s.obs := rfl
@[simp] theorem State.obsPath_drew (s : State) (n : Nat) : (s.drew n).obsPath = s.obsPath := rfl
@[simp] theorem State.gates_drew (s : State) (n : Nat) : (s.drew n).gates = s.gates := rfl
@[simp] theorem State.txBlocks_drew (s : State) (n : Nat) : (s.drew n).txBlocks = s.txBlocks := rfl
@[simp] theorem State.txDone_drew (s : State) (n : Nat) : (s.drew n).txDone = s.txDone := rfl
@[simp] theorem State.free_drew (s : State) (n : Nat) : (s.drew n).free = s.free := rfl
@[simp] theorem State.beam_drew (s : State) (n : Nat) : (s.drew n).beam = s.beam := rfl
@[simp] theorem State.fh_drew (s : State) (n : Nat) : (s.drew n).fh = s.fh := rfl
@[simp] theorem State.halls_drew (s : State) (n : Nat) : (s.drew n).halls = s.halls := rfl
@[simp] theorem State.alcoves_drew (s : State) (n : Nat) : (s.drew n).alcoves = s.alcoves := rfl
@[simp] theorem State.flits_drew (s : State) (n : Nat) : (s.drew n).flits = s.flits := rfl
@[simp] theorem State.routers_drew (s : State) (n : Nat) : (s.drew n).routers = s.routers := rfl
@[simp] theorem State.stair_drew (s : State) (n : Nat) : (s.drew n).stair = s.stair := rfl
@[simp] theorem State.ota_drew (s : State) (n : Nat) : (s.drew n).ota = s.ota := rfl
@[simp] theorem State.recov_drew (s : State) (n : Nat) : (s.drew n).recov = s.recov := rfl
@[simp] theorem State.energy_drew (s : State) (n : Nat) : (s.drew n).energy = s.energy := rfl
@[simp] theorem State.hk_drew (s : State) (n : Nat) : (s.drew n).hk = s.hk := rfl
@[simp] theorem State.timers_drew (s : State) (n : Nat) : (s.drew n).timers = s.timers := rfl
@[simp] theorem State.out_drew (s : State) (n : Nat) : (s.drew n).out = s.out := rfl
@[simp] theorem State.pending_drew (s : State) (n : Nat) : (s.drew n).pending = s.pending := rfl
@[simp] theorem State.word_drew (s : State) (n : Nat) (r : Nat) : (s.drew n).word r = s.word r := rfl
@[simp] theorem State.get_drew (s : State) (n : Nat) (r : Fld) : (s.drew n).get r = s.get r := rfl
@[simp] theorem State.getS_drew (s : State) (n : Nat) (r : Fld) : (s.drew n).getS r = s.getS r := rfl
@[simp] theorem State.flag_drew (s : State) (n : Nat) (r : Fld) : (s.drew n).flag r = s.flag r := rfl

/-! ### modCar -/

@[simp] theorem State.now_modCar (s : State) (c : Nat) (f : CarrierState → CarrierState) : (s.modCar c f).now = s.now := rfl
@[simp] theorem State.regs_modCar (s : State) (c : Nat) (f : CarrierState → CarrierState) : (s.modCar c f).regs = s.regs := rfl
@[simp] theorem State.mem_modCar (s : State) (c : Nat) (f : CarrierState → CarrierState) : (s.modCar c f).mem = s.mem := rfl
@[simp] theorem State.trims_modCar (s : State) (c : Nat) (f : CarrierState → CarrierState) : (s.modCar c f).trims = s.trims := rfl
@[simp] theorem State.trimsRx_modCar (s : State) (c : Nat) (f : CarrierState → CarrierState) : (s.modCar c f).trimsRx = s.trimsRx := rfl
@[simp] theorem State.trimsDelay_modCar (s : State) (c : Nat) (f : CarrierState → CarrierState) : (s.modCar c f).trimsDelay = s.trimsDelay := rfl
@[simp] theorem State.trimsTone_modCar (s : State) (c : Nat) (f : CarrierState → CarrierState) : (s.modCar c f).trimsTone = s.trimsTone := rfl
@[simp] theorem State.trimsLoaded_modCar (s : State) (c : Nat) (f : CarrierState → CarrierState) : (s.modCar c f).trimsLoaded = s.trimsLoaded := rfl
@[simp] theorem State.trimsBad_modCar (s : State) (c : Nat) (f : CarrierState → CarrierState) : (s.modCar c f).trimsBad = s.trimsBad := rfl
@[simp] theorem State.chans_modCar (s : State) (c : Nat) (f : CarrierState → CarrierState) : (s.modCar c f).chans = s.chans := rfl
@[simp] theorem State.sessions_modCar (s : State) (c : Nat) (f : CarrierState → CarrierState) : (s.modCar c f).sessions = s.sessions := rfl
@[simp] theorem State.keep_modCar (s : State) (c : Nat) (f : CarrierState → CarrierState) : (s.modCar c f).keep = s.keep := rfl
@[simp] theorem State.sec_modCar (s : State) (c : Nat) (f : CarrierState → CarrierState) : (s.modCar c f).sec = s.sec := rfl
@[simp] theorem State.image_modCar (s : State) (c : Nat) (f : CarrierState → CarrierState) : (s.modCar c f).image = s.image := rfl
@[simp] theorem State.boot_modCar (s : State) (c : Nat) (f : CarrierState → CarrierState) : (s.modCar c f).boot = s.boot := rfl
@[simp] theorem State.txn_modCar (s : State) (c : Nat) (f : CarrierState → CarrierState) : (s.modCar c f).txn = s.txn := rfl
@[simp] theorem State.radio_modCar (s : State) (c : Nat) (f : CarrierState → CarrierState) : (s.modCar c f).radio = s.radio := rfl
@[simp] theorem State.clock_modCar (s : State) (c : Nat) (f : CarrierState → CarrierState) : (s.modCar c f).clock = s.clock := rfl
@[simp] theorem State.log_modCar (s : State) (c : Nat) (f : CarrierState → CarrierState) : (s.modCar c f).log = s.log := rfl
@[simp] theorem State.intN_modCar (s : State) (c : Nat) (f : CarrierState → CarrierState) : (s.modCar c f).intN = s.intN := rfl
@[simp] theorem State.faultN_modCar (s : State) (c : Nat) (f : CarrierState → CarrierState) : (s.modCar c f).faultN = s.faultN := rfl
@[simp] theorem State.cap_modCar (s : State) (c : Nat) (f : CarrierState → CarrierState) : (s.modCar c f).cap = s.cap := rfl
@[simp] theorem State.obs_modCar (s : State) (c : Nat) (f : CarrierState → CarrierState) : (s.modCar c f).obs = s.obs := rfl
@[simp] theorem State.obsPath_modCar (s : State) (c : Nat) (f : CarrierState → CarrierState) : (s.modCar c f).obsPath = s.obsPath := rfl
@[simp] theorem State.gates_modCar (s : State) (c : Nat) (f : CarrierState → CarrierState) : (s.modCar c f).gates = s.gates := rfl
@[simp] theorem State.txBlocks_modCar (s : State) (c : Nat) (f : CarrierState → CarrierState) : (s.modCar c f).txBlocks = s.txBlocks := rfl
@[simp] theorem State.txDone_modCar (s : State) (c : Nat) (f : CarrierState → CarrierState) : (s.modCar c f).txDone = s.txDone := rfl
@[simp] theorem State.free_modCar (s : State) (c : Nat) (f : CarrierState → CarrierState) : (s.modCar c f).free = s.free := rfl
@[simp] theorem State.beam_modCar (s : State) (c : Nat) (f : CarrierState → CarrierState) : (s.modCar c f).beam = s.beam := rfl
@[simp] theorem State.fh_modCar (s : State) (c : Nat) (f : CarrierState → CarrierState) : (s.modCar c f).fh = s.fh := rfl
@[simp] theorem State.halls_modCar (s : State) (c : Nat) (f : CarrierState → CarrierState) : (s.modCar c f).halls = s.halls := rfl
@[simp] theorem State.alcoves_modCar (s : State) (c : Nat) (f : CarrierState → CarrierState) : (s.modCar c f).alcoves = s.alcoves := rfl
@[simp] theorem State.flits_modCar (s : State) (c : Nat) (f : CarrierState → CarrierState) : (s.modCar c f).flits = s.flits := rfl
@[simp] theorem State.routers_modCar (s : State) (c : Nat) (f : CarrierState → CarrierState) : (s.modCar c f).routers = s.routers := rfl
@[simp] theorem State.stair_modCar (s : State) (c : Nat) (f : CarrierState → CarrierState) : (s.modCar c f).stair = s.stair := rfl
@[simp] theorem State.ota_modCar (s : State) (c : Nat) (f : CarrierState → CarrierState) : (s.modCar c f).ota = s.ota := rfl
@[simp] theorem State.recov_modCar (s : State) (c : Nat) (f : CarrierState → CarrierState) : (s.modCar c f).recov = s.recov := rfl
@[simp] theorem State.energy_modCar (s : State) (c : Nat) (f : CarrierState → CarrierState) : (s.modCar c f).energy = s.energy := rfl
@[simp] theorem State.hk_modCar (s : State) (c : Nat) (f : CarrierState → CarrierState) : (s.modCar c f).hk = s.hk := rfl
@[simp] theorem State.timers_modCar (s : State) (c : Nat) (f : CarrierState → CarrierState) : (s.modCar c f).timers = s.timers := rfl
@[simp] theorem State.out_modCar (s : State) (c : Nat) (f : CarrierState → CarrierState) : (s.modCar c f).out = s.out := rfl
@[simp] theorem State.pending_modCar (s : State) (c : Nat) (f : CarrierState → CarrierState) : (s.modCar c f).pending = s.pending := rfl
@[simp] theorem State.word_modCar (s : State) (c : Nat) (f : CarrierState → CarrierState) (r : Nat) : (s.modCar c f).word r = s.word r := rfl
@[simp] theorem State.get_modCar (s : State) (c : Nat) (f : CarrierState → CarrierState) (r : Fld) : (s.modCar c f).get r = s.get r := rfl
@[simp] theorem State.getS_modCar (s : State) (c : Nat) (f : CarrierState → CarrierState) (r : Fld) : (s.modCar c f).getS r = s.getS r := rfl
@[simp] theorem State.flag_modCar (s : State) (c : Nat) (f : CarrierState → CarrierState) (r : Fld) : (s.modCar c f).flag r = s.flag r := rfl

/-! ### modObsGroup -/

@[simp] theorem State.now_modObsGroup (s : State) (g : Nat) (f : ObsGroup → ObsGroup) : (s.modObsGroup g f).now = s.now := rfl
@[simp] theorem State.regs_modObsGroup (s : State) (g : Nat) (f : ObsGroup → ObsGroup) : (s.modObsGroup g f).regs = s.regs := rfl
@[simp] theorem State.mem_modObsGroup (s : State) (g : Nat) (f : ObsGroup → ObsGroup) : (s.modObsGroup g f).mem = s.mem := rfl
@[simp] theorem State.trims_modObsGroup (s : State) (g : Nat) (f : ObsGroup → ObsGroup) : (s.modObsGroup g f).trims = s.trims := rfl
@[simp] theorem State.trimsRx_modObsGroup (s : State) (g : Nat) (f : ObsGroup → ObsGroup) : (s.modObsGroup g f).trimsRx = s.trimsRx := rfl
@[simp] theorem State.trimsDelay_modObsGroup (s : State) (g : Nat) (f : ObsGroup → ObsGroup) : (s.modObsGroup g f).trimsDelay = s.trimsDelay := rfl
@[simp] theorem State.trimsTone_modObsGroup (s : State) (g : Nat) (f : ObsGroup → ObsGroup) : (s.modObsGroup g f).trimsTone = s.trimsTone := rfl
@[simp] theorem State.trimsLoaded_modObsGroup (s : State) (g : Nat) (f : ObsGroup → ObsGroup) : (s.modObsGroup g f).trimsLoaded = s.trimsLoaded := rfl
@[simp] theorem State.trimsBad_modObsGroup (s : State) (g : Nat) (f : ObsGroup → ObsGroup) : (s.modObsGroup g f).trimsBad = s.trimsBad := rfl
@[simp] theorem State.chans_modObsGroup (s : State) (g : Nat) (f : ObsGroup → ObsGroup) : (s.modObsGroup g f).chans = s.chans := rfl
@[simp] theorem State.sessions_modObsGroup (s : State) (g : Nat) (f : ObsGroup → ObsGroup) : (s.modObsGroup g f).sessions = s.sessions := rfl
@[simp] theorem State.keep_modObsGroup (s : State) (g : Nat) (f : ObsGroup → ObsGroup) : (s.modObsGroup g f).keep = s.keep := rfl
@[simp] theorem State.sec_modObsGroup (s : State) (g : Nat) (f : ObsGroup → ObsGroup) : (s.modObsGroup g f).sec = s.sec := rfl
@[simp] theorem State.image_modObsGroup (s : State) (g : Nat) (f : ObsGroup → ObsGroup) : (s.modObsGroup g f).image = s.image := rfl
@[simp] theorem State.boot_modObsGroup (s : State) (g : Nat) (f : ObsGroup → ObsGroup) : (s.modObsGroup g f).boot = s.boot := rfl
@[simp] theorem State.txn_modObsGroup (s : State) (g : Nat) (f : ObsGroup → ObsGroup) : (s.modObsGroup g f).txn = s.txn := rfl
@[simp] theorem State.radio_modObsGroup (s : State) (g : Nat) (f : ObsGroup → ObsGroup) : (s.modObsGroup g f).radio = s.radio := rfl
@[simp] theorem State.clock_modObsGroup (s : State) (g : Nat) (f : ObsGroup → ObsGroup) : (s.modObsGroup g f).clock = s.clock := rfl
@[simp] theorem State.log_modObsGroup (s : State) (g : Nat) (f : ObsGroup → ObsGroup) : (s.modObsGroup g f).log = s.log := rfl
@[simp] theorem State.intN_modObsGroup (s : State) (g : Nat) (f : ObsGroup → ObsGroup) : (s.modObsGroup g f).intN = s.intN := rfl
@[simp] theorem State.faultN_modObsGroup (s : State) (g : Nat) (f : ObsGroup → ObsGroup) : (s.modObsGroup g f).faultN = s.faultN := rfl
@[simp] theorem State.carriers_modObsGroup (s : State) (g : Nat) (f : ObsGroup → ObsGroup) : (s.modObsGroup g f).carriers = s.carriers := rfl
@[simp] theorem State.cap_modObsGroup (s : State) (g : Nat) (f : ObsGroup → ObsGroup) : (s.modObsGroup g f).cap = s.cap := rfl
@[simp] theorem State.obsPath_modObsGroup (s : State) (g : Nat) (f : ObsGroup → ObsGroup) : (s.modObsGroup g f).obsPath = s.obsPath := rfl
@[simp] theorem State.gates_modObsGroup (s : State) (g : Nat) (f : ObsGroup → ObsGroup) : (s.modObsGroup g f).gates = s.gates := rfl
@[simp] theorem State.txBlocks_modObsGroup (s : State) (g : Nat) (f : ObsGroup → ObsGroup) : (s.modObsGroup g f).txBlocks = s.txBlocks := rfl
@[simp] theorem State.txDone_modObsGroup (s : State) (g : Nat) (f : ObsGroup → ObsGroup) : (s.modObsGroup g f).txDone = s.txDone := rfl
@[simp] theorem State.free_modObsGroup (s : State) (g : Nat) (f : ObsGroup → ObsGroup) : (s.modObsGroup g f).free = s.free := rfl
@[simp] theorem State.beam_modObsGroup (s : State) (g : Nat) (f : ObsGroup → ObsGroup) : (s.modObsGroup g f).beam = s.beam := rfl
@[simp] theorem State.fh_modObsGroup (s : State) (g : Nat) (f : ObsGroup → ObsGroup) : (s.modObsGroup g f).fh = s.fh := rfl
@[simp] theorem State.halls_modObsGroup (s : State) (g : Nat) (f : ObsGroup → ObsGroup) : (s.modObsGroup g f).halls = s.halls := rfl
@[simp] theorem State.alcoves_modObsGroup (s : State) (g : Nat) (f : ObsGroup → ObsGroup) : (s.modObsGroup g f).alcoves = s.alcoves := rfl
@[simp] theorem State.flits_modObsGroup (s : State) (g : Nat) (f : ObsGroup → ObsGroup) : (s.modObsGroup g f).flits = s.flits := rfl
@[simp] theorem State.routers_modObsGroup (s : State) (g : Nat) (f : ObsGroup → ObsGroup) : (s.modObsGroup g f).routers = s.routers := rfl
@[simp] theorem State.stair_modObsGroup (s : State) (g : Nat) (f : ObsGroup → ObsGroup) : (s.modObsGroup g f).stair = s.stair := rfl
@[simp] theorem State.ota_modObsGroup (s : State) (g : Nat) (f : ObsGroup → ObsGroup) : (s.modObsGroup g f).ota = s.ota := rfl
@[simp] theorem State.recov_modObsGroup (s : State) (g : Nat) (f : ObsGroup → ObsGroup) : (s.modObsGroup g f).recov = s.recov := rfl
@[simp] theorem State.energy_modObsGroup (s : State) (g : Nat) (f : ObsGroup → ObsGroup) : (s.modObsGroup g f).energy = s.energy := rfl
@[simp] theorem State.hk_modObsGroup (s : State) (g : Nat) (f : ObsGroup → ObsGroup) : (s.modObsGroup g f).hk = s.hk := rfl
@[simp] theorem State.timers_modObsGroup (s : State) (g : Nat) (f : ObsGroup → ObsGroup) : (s.modObsGroup g f).timers = s.timers := rfl
@[simp] theorem State.out_modObsGroup (s : State) (g : Nat) (f : ObsGroup → ObsGroup) : (s.modObsGroup g f).out = s.out := rfl
@[simp] theorem State.pending_modObsGroup (s : State) (g : Nat) (f : ObsGroup → ObsGroup) : (s.modObsGroup g f).pending = s.pending := rfl
@[simp] theorem State.word_modObsGroup (s : State) (g : Nat) (f : ObsGroup → ObsGroup) (r : Nat) : (s.modObsGroup g f).word r = s.word r := rfl
@[simp] theorem State.get_modObsGroup (s : State) (g : Nat) (f : ObsGroup → ObsGroup) (r : Fld) : (s.modObsGroup g f).get r = s.get r := rfl
@[simp] theorem State.getS_modObsGroup (s : State) (g : Nat) (f : ObsGroup → ObsGroup) (r : Fld) : (s.modObsGroup g f).getS r = s.getS r := rfl
@[simp] theorem State.flag_modObsGroup (s : State) (g : Nat) (f : ObsGroup → ObsGroup) (r : Fld) : (s.modObsGroup g f).flag r = s.flag r := rfl

/-! ### modObs -/

@[simp] theorem State.now_modObs (s : State) (p : Nat) (f : ObsPath → ObsPath) : (s.modObs p f).now = s.now := rfl
@[simp] theorem State.regs_modObs (s : State) (p : Nat) (f : ObsPath → ObsPath) : (s.modObs p f).regs = s.regs := rfl
@[simp] theorem State.mem_modObs (s : State) (p : Nat) (f : ObsPath → ObsPath) : (s.modObs p f).mem = s.mem := rfl
@[simp] theorem State.trims_modObs (s : State) (p : Nat) (f : ObsPath → ObsPath) : (s.modObs p f).trims = s.trims := rfl
@[simp] theorem State.trimsRx_modObs (s : State) (p : Nat) (f : ObsPath → ObsPath) : (s.modObs p f).trimsRx = s.trimsRx := rfl
@[simp] theorem State.trimsDelay_modObs (s : State) (p : Nat) (f : ObsPath → ObsPath) : (s.modObs p f).trimsDelay = s.trimsDelay := rfl
@[simp] theorem State.trimsTone_modObs (s : State) (p : Nat) (f : ObsPath → ObsPath) : (s.modObs p f).trimsTone = s.trimsTone := rfl
@[simp] theorem State.trimsLoaded_modObs (s : State) (p : Nat) (f : ObsPath → ObsPath) : (s.modObs p f).trimsLoaded = s.trimsLoaded := rfl
@[simp] theorem State.trimsBad_modObs (s : State) (p : Nat) (f : ObsPath → ObsPath) : (s.modObs p f).trimsBad = s.trimsBad := rfl
@[simp] theorem State.chans_modObs (s : State) (p : Nat) (f : ObsPath → ObsPath) : (s.modObs p f).chans = s.chans := rfl
@[simp] theorem State.sessions_modObs (s : State) (p : Nat) (f : ObsPath → ObsPath) : (s.modObs p f).sessions = s.sessions := rfl
@[simp] theorem State.keep_modObs (s : State) (p : Nat) (f : ObsPath → ObsPath) : (s.modObs p f).keep = s.keep := rfl
@[simp] theorem State.sec_modObs (s : State) (p : Nat) (f : ObsPath → ObsPath) : (s.modObs p f).sec = s.sec := rfl
@[simp] theorem State.image_modObs (s : State) (p : Nat) (f : ObsPath → ObsPath) : (s.modObs p f).image = s.image := rfl
@[simp] theorem State.boot_modObs (s : State) (p : Nat) (f : ObsPath → ObsPath) : (s.modObs p f).boot = s.boot := rfl
@[simp] theorem State.txn_modObs (s : State) (p : Nat) (f : ObsPath → ObsPath) : (s.modObs p f).txn = s.txn := rfl
@[simp] theorem State.radio_modObs (s : State) (p : Nat) (f : ObsPath → ObsPath) : (s.modObs p f).radio = s.radio := rfl
@[simp] theorem State.clock_modObs (s : State) (p : Nat) (f : ObsPath → ObsPath) : (s.modObs p f).clock = s.clock := rfl
@[simp] theorem State.log_modObs (s : State) (p : Nat) (f : ObsPath → ObsPath) : (s.modObs p f).log = s.log := rfl
@[simp] theorem State.intN_modObs (s : State) (p : Nat) (f : ObsPath → ObsPath) : (s.modObs p f).intN = s.intN := rfl
@[simp] theorem State.faultN_modObs (s : State) (p : Nat) (f : ObsPath → ObsPath) : (s.modObs p f).faultN = s.faultN := rfl
@[simp] theorem State.carriers_modObs (s : State) (p : Nat) (f : ObsPath → ObsPath) : (s.modObs p f).carriers = s.carriers := rfl
@[simp] theorem State.cap_modObs (s : State) (p : Nat) (f : ObsPath → ObsPath) : (s.modObs p f).cap = s.cap := rfl
@[simp] theorem State.obs_modObs (s : State) (p : Nat) (f : ObsPath → ObsPath) : (s.modObs p f).obs = s.obs := rfl
@[simp] theorem State.gates_modObs (s : State) (p : Nat) (f : ObsPath → ObsPath) : (s.modObs p f).gates = s.gates := rfl
@[simp] theorem State.txBlocks_modObs (s : State) (p : Nat) (f : ObsPath → ObsPath) : (s.modObs p f).txBlocks = s.txBlocks := rfl
@[simp] theorem State.txDone_modObs (s : State) (p : Nat) (f : ObsPath → ObsPath) : (s.modObs p f).txDone = s.txDone := rfl
@[simp] theorem State.free_modObs (s : State) (p : Nat) (f : ObsPath → ObsPath) : (s.modObs p f).free = s.free := rfl
@[simp] theorem State.beam_modObs (s : State) (p : Nat) (f : ObsPath → ObsPath) : (s.modObs p f).beam = s.beam := rfl
@[simp] theorem State.fh_modObs (s : State) (p : Nat) (f : ObsPath → ObsPath) : (s.modObs p f).fh = s.fh := rfl
@[simp] theorem State.halls_modObs (s : State) (p : Nat) (f : ObsPath → ObsPath) : (s.modObs p f).halls = s.halls := rfl
@[simp] theorem State.alcoves_modObs (s : State) (p : Nat) (f : ObsPath → ObsPath) : (s.modObs p f).alcoves = s.alcoves := rfl
@[simp] theorem State.flits_modObs (s : State) (p : Nat) (f : ObsPath → ObsPath) : (s.modObs p f).flits = s.flits := rfl
@[simp] theorem State.routers_modObs (s : State) (p : Nat) (f : ObsPath → ObsPath) : (s.modObs p f).routers = s.routers := rfl
@[simp] theorem State.stair_modObs (s : State) (p : Nat) (f : ObsPath → ObsPath) : (s.modObs p f).stair = s.stair := rfl
@[simp] theorem State.ota_modObs (s : State) (p : Nat) (f : ObsPath → ObsPath) : (s.modObs p f).ota = s.ota := rfl
@[simp] theorem State.recov_modObs (s : State) (p : Nat) (f : ObsPath → ObsPath) : (s.modObs p f).recov = s.recov := rfl
@[simp] theorem State.energy_modObs (s : State) (p : Nat) (f : ObsPath → ObsPath) : (s.modObs p f).energy = s.energy := rfl
@[simp] theorem State.hk_modObs (s : State) (p : Nat) (f : ObsPath → ObsPath) : (s.modObs p f).hk = s.hk := rfl
@[simp] theorem State.timers_modObs (s : State) (p : Nat) (f : ObsPath → ObsPath) : (s.modObs p f).timers = s.timers := rfl
@[simp] theorem State.out_modObs (s : State) (p : Nat) (f : ObsPath → ObsPath) : (s.modObs p f).out = s.out := rfl
@[simp] theorem State.pending_modObs (s : State) (p : Nat) (f : ObsPath → ObsPath) : (s.modObs p f).pending = s.pending := rfl
@[simp] theorem State.word_modObs (s : State) (p : Nat) (f : ObsPath → ObsPath) (r : Nat) : (s.modObs p f).word r = s.word r := rfl
@[simp] theorem State.get_modObs (s : State) (p : Nat) (f : ObsPath → ObsPath) (r : Fld) : (s.modObs p f).get r = s.get r := rfl
@[simp] theorem State.getS_modObs (s : State) (p : Nat) (f : ObsPath → ObsPath) (r : Fld) : (s.modObs p f).getS r = s.getS r := rfl
@[simp] theorem State.flag_modObs (s : State) (p : Nat) (f : ObsPath → ObsPath) (r : Fld) : (s.modObs p f).flag r = s.flag r := rfl

/-! ### modFhPort -/

@[simp] theorem State.now_modFhPort (s : State) (n : Nat) (f : FhPort → FhPort) : (s.modFhPort n f).now = s.now := rfl
@[simp] theorem State.regs_modFhPort (s : State) (n : Nat) (f : FhPort → FhPort) : (s.modFhPort n f).regs = s.regs := rfl
@[simp] theorem State.mem_modFhPort (s : State) (n : Nat) (f : FhPort → FhPort) : (s.modFhPort n f).mem = s.mem := rfl
@[simp] theorem State.trims_modFhPort (s : State) (n : Nat) (f : FhPort → FhPort) : (s.modFhPort n f).trims = s.trims := rfl
@[simp] theorem State.trimsRx_modFhPort (s : State) (n : Nat) (f : FhPort → FhPort) : (s.modFhPort n f).trimsRx = s.trimsRx := rfl
@[simp] theorem State.trimsDelay_modFhPort (s : State) (n : Nat) (f : FhPort → FhPort) : (s.modFhPort n f).trimsDelay = s.trimsDelay := rfl
@[simp] theorem State.trimsTone_modFhPort (s : State) (n : Nat) (f : FhPort → FhPort) : (s.modFhPort n f).trimsTone = s.trimsTone := rfl
@[simp] theorem State.trimsLoaded_modFhPort (s : State) (n : Nat) (f : FhPort → FhPort) : (s.modFhPort n f).trimsLoaded = s.trimsLoaded := rfl
@[simp] theorem State.trimsBad_modFhPort (s : State) (n : Nat) (f : FhPort → FhPort) : (s.modFhPort n f).trimsBad = s.trimsBad := rfl
@[simp] theorem State.chans_modFhPort (s : State) (n : Nat) (f : FhPort → FhPort) : (s.modFhPort n f).chans = s.chans := rfl
@[simp] theorem State.sessions_modFhPort (s : State) (n : Nat) (f : FhPort → FhPort) : (s.modFhPort n f).sessions = s.sessions := rfl
@[simp] theorem State.keep_modFhPort (s : State) (n : Nat) (f : FhPort → FhPort) : (s.modFhPort n f).keep = s.keep := rfl
@[simp] theorem State.sec_modFhPort (s : State) (n : Nat) (f : FhPort → FhPort) : (s.modFhPort n f).sec = s.sec := rfl
@[simp] theorem State.image_modFhPort (s : State) (n : Nat) (f : FhPort → FhPort) : (s.modFhPort n f).image = s.image := rfl
@[simp] theorem State.boot_modFhPort (s : State) (n : Nat) (f : FhPort → FhPort) : (s.modFhPort n f).boot = s.boot := rfl
@[simp] theorem State.txn_modFhPort (s : State) (n : Nat) (f : FhPort → FhPort) : (s.modFhPort n f).txn = s.txn := rfl
@[simp] theorem State.radio_modFhPort (s : State) (n : Nat) (f : FhPort → FhPort) : (s.modFhPort n f).radio = s.radio := rfl
@[simp] theorem State.clock_modFhPort (s : State) (n : Nat) (f : FhPort → FhPort) : (s.modFhPort n f).clock = s.clock := rfl
@[simp] theorem State.log_modFhPort (s : State) (n : Nat) (f : FhPort → FhPort) : (s.modFhPort n f).log = s.log := rfl
@[simp] theorem State.intN_modFhPort (s : State) (n : Nat) (f : FhPort → FhPort) : (s.modFhPort n f).intN = s.intN := rfl
@[simp] theorem State.faultN_modFhPort (s : State) (n : Nat) (f : FhPort → FhPort) : (s.modFhPort n f).faultN = s.faultN := rfl
@[simp] theorem State.carriers_modFhPort (s : State) (n : Nat) (f : FhPort → FhPort) : (s.modFhPort n f).carriers = s.carriers := rfl
@[simp] theorem State.cap_modFhPort (s : State) (n : Nat) (f : FhPort → FhPort) : (s.modFhPort n f).cap = s.cap := rfl
@[simp] theorem State.obs_modFhPort (s : State) (n : Nat) (f : FhPort → FhPort) : (s.modFhPort n f).obs = s.obs := rfl
@[simp] theorem State.obsPath_modFhPort (s : State) (n : Nat) (f : FhPort → FhPort) : (s.modFhPort n f).obsPath = s.obsPath := rfl
@[simp] theorem State.gates_modFhPort (s : State) (n : Nat) (f : FhPort → FhPort) : (s.modFhPort n f).gates = s.gates := rfl
@[simp] theorem State.txBlocks_modFhPort (s : State) (n : Nat) (f : FhPort → FhPort) : (s.modFhPort n f).txBlocks = s.txBlocks := rfl
@[simp] theorem State.txDone_modFhPort (s : State) (n : Nat) (f : FhPort → FhPort) : (s.modFhPort n f).txDone = s.txDone := rfl
@[simp] theorem State.free_modFhPort (s : State) (n : Nat) (f : FhPort → FhPort) : (s.modFhPort n f).free = s.free := rfl
@[simp] theorem State.beam_modFhPort (s : State) (n : Nat) (f : FhPort → FhPort) : (s.modFhPort n f).beam = s.beam := rfl
@[simp] theorem State.halls_modFhPort (s : State) (n : Nat) (f : FhPort → FhPort) : (s.modFhPort n f).halls = s.halls := rfl
@[simp] theorem State.alcoves_modFhPort (s : State) (n : Nat) (f : FhPort → FhPort) : (s.modFhPort n f).alcoves = s.alcoves := rfl
@[simp] theorem State.flits_modFhPort (s : State) (n : Nat) (f : FhPort → FhPort) : (s.modFhPort n f).flits = s.flits := rfl
@[simp] theorem State.routers_modFhPort (s : State) (n : Nat) (f : FhPort → FhPort) : (s.modFhPort n f).routers = s.routers := rfl
@[simp] theorem State.stair_modFhPort (s : State) (n : Nat) (f : FhPort → FhPort) : (s.modFhPort n f).stair = s.stair := rfl
@[simp] theorem State.ota_modFhPort (s : State) (n : Nat) (f : FhPort → FhPort) : (s.modFhPort n f).ota = s.ota := rfl
@[simp] theorem State.recov_modFhPort (s : State) (n : Nat) (f : FhPort → FhPort) : (s.modFhPort n f).recov = s.recov := rfl
@[simp] theorem State.energy_modFhPort (s : State) (n : Nat) (f : FhPort → FhPort) : (s.modFhPort n f).energy = s.energy := rfl
@[simp] theorem State.hk_modFhPort (s : State) (n : Nat) (f : FhPort → FhPort) : (s.modFhPort n f).hk = s.hk := rfl
@[simp] theorem State.timers_modFhPort (s : State) (n : Nat) (f : FhPort → FhPort) : (s.modFhPort n f).timers = s.timers := rfl
@[simp] theorem State.out_modFhPort (s : State) (n : Nat) (f : FhPort → FhPort) : (s.modFhPort n f).out = s.out := rfl
@[simp] theorem State.pending_modFhPort (s : State) (n : Nat) (f : FhPort → FhPort) : (s.modFhPort n f).pending = s.pending := rfl
@[simp] theorem State.word_modFhPort (s : State) (n : Nat) (f : FhPort → FhPort) (r : Nat) : (s.modFhPort n f).word r = s.word r := rfl
@[simp] theorem State.get_modFhPort (s : State) (n : Nat) (f : FhPort → FhPort) (r : Fld) : (s.modFhPort n f).get r = s.get r := rfl
@[simp] theorem State.getS_modFhPort (s : State) (n : Nat) (f : FhPort → FhPort) (r : Fld) : (s.modFhPort n f).getS r = s.getS r := rfl
@[simp] theorem State.flag_modFhPort (s : State) (n : Nat) (f : FhPort → FhPort) (r : Fld) : (s.modFhPort n f).flag r = s.flag r := rfl

/-! ### modPartner -/

@[simp] theorem State.now_modPartner (s : State) (n : Nat) (f : Partner → Partner) : (s.modPartner n f).now = s.now := rfl
@[simp] theorem State.regs_modPartner (s : State) (n : Nat) (f : Partner → Partner) : (s.modPartner n f).regs = s.regs := rfl
@[simp] theorem State.mem_modPartner (s : State) (n : Nat) (f : Partner → Partner) : (s.modPartner n f).mem = s.mem := rfl
@[simp] theorem State.trims_modPartner (s : State) (n : Nat) (f : Partner → Partner) : (s.modPartner n f).trims = s.trims := rfl
@[simp] theorem State.trimsRx_modPartner (s : State) (n : Nat) (f : Partner → Partner) : (s.modPartner n f).trimsRx = s.trimsRx := rfl
@[simp] theorem State.trimsDelay_modPartner (s : State) (n : Nat) (f : Partner → Partner) : (s.modPartner n f).trimsDelay = s.trimsDelay := rfl
@[simp] theorem State.trimsTone_modPartner (s : State) (n : Nat) (f : Partner → Partner) : (s.modPartner n f).trimsTone = s.trimsTone := rfl
@[simp] theorem State.trimsLoaded_modPartner (s : State) (n : Nat) (f : Partner → Partner) : (s.modPartner n f).trimsLoaded = s.trimsLoaded := rfl
@[simp] theorem State.trimsBad_modPartner (s : State) (n : Nat) (f : Partner → Partner) : (s.modPartner n f).trimsBad = s.trimsBad := rfl
@[simp] theorem State.chans_modPartner (s : State) (n : Nat) (f : Partner → Partner) : (s.modPartner n f).chans = s.chans := rfl
@[simp] theorem State.sessions_modPartner (s : State) (n : Nat) (f : Partner → Partner) : (s.modPartner n f).sessions = s.sessions := rfl
@[simp] theorem State.keep_modPartner (s : State) (n : Nat) (f : Partner → Partner) : (s.modPartner n f).keep = s.keep := rfl
@[simp] theorem State.sec_modPartner (s : State) (n : Nat) (f : Partner → Partner) : (s.modPartner n f).sec = s.sec := rfl
@[simp] theorem State.image_modPartner (s : State) (n : Nat) (f : Partner → Partner) : (s.modPartner n f).image = s.image := rfl
@[simp] theorem State.boot_modPartner (s : State) (n : Nat) (f : Partner → Partner) : (s.modPartner n f).boot = s.boot := rfl
@[simp] theorem State.txn_modPartner (s : State) (n : Nat) (f : Partner → Partner) : (s.modPartner n f).txn = s.txn := rfl
@[simp] theorem State.radio_modPartner (s : State) (n : Nat) (f : Partner → Partner) : (s.modPartner n f).radio = s.radio := rfl
@[simp] theorem State.clock_modPartner (s : State) (n : Nat) (f : Partner → Partner) : (s.modPartner n f).clock = s.clock := rfl
@[simp] theorem State.log_modPartner (s : State) (n : Nat) (f : Partner → Partner) : (s.modPartner n f).log = s.log := rfl
@[simp] theorem State.intN_modPartner (s : State) (n : Nat) (f : Partner → Partner) : (s.modPartner n f).intN = s.intN := rfl
@[simp] theorem State.faultN_modPartner (s : State) (n : Nat) (f : Partner → Partner) : (s.modPartner n f).faultN = s.faultN := rfl
@[simp] theorem State.carriers_modPartner (s : State) (n : Nat) (f : Partner → Partner) : (s.modPartner n f).carriers = s.carriers := rfl
@[simp] theorem State.cap_modPartner (s : State) (n : Nat) (f : Partner → Partner) : (s.modPartner n f).cap = s.cap := rfl
@[simp] theorem State.obs_modPartner (s : State) (n : Nat) (f : Partner → Partner) : (s.modPartner n f).obs = s.obs := rfl
@[simp] theorem State.obsPath_modPartner (s : State) (n : Nat) (f : Partner → Partner) : (s.modPartner n f).obsPath = s.obsPath := rfl
@[simp] theorem State.gates_modPartner (s : State) (n : Nat) (f : Partner → Partner) : (s.modPartner n f).gates = s.gates := rfl
@[simp] theorem State.txBlocks_modPartner (s : State) (n : Nat) (f : Partner → Partner) : (s.modPartner n f).txBlocks = s.txBlocks := rfl
@[simp] theorem State.txDone_modPartner (s : State) (n : Nat) (f : Partner → Partner) : (s.modPartner n f).txDone = s.txDone := rfl
@[simp] theorem State.free_modPartner (s : State) (n : Nat) (f : Partner → Partner) : (s.modPartner n f).free = s.free := rfl
@[simp] theorem State.beam_modPartner (s : State) (n : Nat) (f : Partner → Partner) : (s.modPartner n f).beam = s.beam := rfl
@[simp] theorem State.halls_modPartner (s : State) (n : Nat) (f : Partner → Partner) : (s.modPartner n f).halls = s.halls := rfl
@[simp] theorem State.alcoves_modPartner (s : State) (n : Nat) (f : Partner → Partner) : (s.modPartner n f).alcoves = s.alcoves := rfl
@[simp] theorem State.flits_modPartner (s : State) (n : Nat) (f : Partner → Partner) : (s.modPartner n f).flits = s.flits := rfl
@[simp] theorem State.routers_modPartner (s : State) (n : Nat) (f : Partner → Partner) : (s.modPartner n f).routers = s.routers := rfl
@[simp] theorem State.stair_modPartner (s : State) (n : Nat) (f : Partner → Partner) : (s.modPartner n f).stair = s.stair := rfl
@[simp] theorem State.ota_modPartner (s : State) (n : Nat) (f : Partner → Partner) : (s.modPartner n f).ota = s.ota := rfl
@[simp] theorem State.recov_modPartner (s : State) (n : Nat) (f : Partner → Partner) : (s.modPartner n f).recov = s.recov := rfl
@[simp] theorem State.energy_modPartner (s : State) (n : Nat) (f : Partner → Partner) : (s.modPartner n f).energy = s.energy := rfl
@[simp] theorem State.hk_modPartner (s : State) (n : Nat) (f : Partner → Partner) : (s.modPartner n f).hk = s.hk := rfl
@[simp] theorem State.timers_modPartner (s : State) (n : Nat) (f : Partner → Partner) : (s.modPartner n f).timers = s.timers := rfl
@[simp] theorem State.out_modPartner (s : State) (n : Nat) (f : Partner → Partner) : (s.modPartner n f).out = s.out := rfl
@[simp] theorem State.pending_modPartner (s : State) (n : Nat) (f : Partner → Partner) : (s.modPartner n f).pending = s.pending := rfl
@[simp] theorem State.word_modPartner (s : State) (n : Nat) (f : Partner → Partner) (r : Nat) : (s.modPartner n f).word r = s.word r := rfl
@[simp] theorem State.get_modPartner (s : State) (n : Nat) (f : Partner → Partner) (r : Fld) : (s.modPartner n f).get r = s.get r := rfl
@[simp] theorem State.getS_modPartner (s : State) (n : Nat) (f : Partner → Partner) (r : Fld) : (s.modPartner n f).getS r = s.getS r := rfl
@[simp] theorem State.flag_modPartner (s : State) (n : Nat) (f : Partner → Partner) (r : Fld) : (s.modPartner n f).flag r = s.flag r := rfl

/-! ### modHall -/

@[simp] theorem State.now_modHall (s : State) (h : Nat) (f : Hall → Hall) : (s.modHall h f).now = s.now := rfl
@[simp] theorem State.regs_modHall (s : State) (h : Nat) (f : Hall → Hall) : (s.modHall h f).regs = s.regs := rfl
@[simp] theorem State.mem_modHall (s : State) (h : Nat) (f : Hall → Hall) : (s.modHall h f).mem = s.mem := rfl
@[simp] theorem State.trims_modHall (s : State) (h : Nat) (f : Hall → Hall) : (s.modHall h f).trims = s.trims := rfl
@[simp] theorem State.trimsRx_modHall (s : State) (h : Nat) (f : Hall → Hall) : (s.modHall h f).trimsRx = s.trimsRx := rfl
@[simp] theorem State.trimsDelay_modHall (s : State) (h : Nat) (f : Hall → Hall) : (s.modHall h f).trimsDelay = s.trimsDelay := rfl
@[simp] theorem State.trimsTone_modHall (s : State) (h : Nat) (f : Hall → Hall) : (s.modHall h f).trimsTone = s.trimsTone := rfl
@[simp] theorem State.trimsLoaded_modHall (s : State) (h : Nat) (f : Hall → Hall) : (s.modHall h f).trimsLoaded = s.trimsLoaded := rfl
@[simp] theorem State.trimsBad_modHall (s : State) (h : Nat) (f : Hall → Hall) : (s.modHall h f).trimsBad = s.trimsBad := rfl
@[simp] theorem State.chans_modHall (s : State) (h : Nat) (f : Hall → Hall) : (s.modHall h f).chans = s.chans := rfl
@[simp] theorem State.sessions_modHall (s : State) (h : Nat) (f : Hall → Hall) : (s.modHall h f).sessions = s.sessions := rfl
@[simp] theorem State.keep_modHall (s : State) (h : Nat) (f : Hall → Hall) : (s.modHall h f).keep = s.keep := rfl
@[simp] theorem State.sec_modHall (s : State) (h : Nat) (f : Hall → Hall) : (s.modHall h f).sec = s.sec := rfl
@[simp] theorem State.image_modHall (s : State) (h : Nat) (f : Hall → Hall) : (s.modHall h f).image = s.image := rfl
@[simp] theorem State.boot_modHall (s : State) (h : Nat) (f : Hall → Hall) : (s.modHall h f).boot = s.boot := rfl
@[simp] theorem State.txn_modHall (s : State) (h : Nat) (f : Hall → Hall) : (s.modHall h f).txn = s.txn := rfl
@[simp] theorem State.radio_modHall (s : State) (h : Nat) (f : Hall → Hall) : (s.modHall h f).radio = s.radio := rfl
@[simp] theorem State.clock_modHall (s : State) (h : Nat) (f : Hall → Hall) : (s.modHall h f).clock = s.clock := rfl
@[simp] theorem State.log_modHall (s : State) (h : Nat) (f : Hall → Hall) : (s.modHall h f).log = s.log := rfl
@[simp] theorem State.intN_modHall (s : State) (h : Nat) (f : Hall → Hall) : (s.modHall h f).intN = s.intN := rfl
@[simp] theorem State.faultN_modHall (s : State) (h : Nat) (f : Hall → Hall) : (s.modHall h f).faultN = s.faultN := rfl
@[simp] theorem State.carriers_modHall (s : State) (h : Nat) (f : Hall → Hall) : (s.modHall h f).carriers = s.carriers := rfl
@[simp] theorem State.cap_modHall (s : State) (h : Nat) (f : Hall → Hall) : (s.modHall h f).cap = s.cap := rfl
@[simp] theorem State.obs_modHall (s : State) (h : Nat) (f : Hall → Hall) : (s.modHall h f).obs = s.obs := rfl
@[simp] theorem State.obsPath_modHall (s : State) (h : Nat) (f : Hall → Hall) : (s.modHall h f).obsPath = s.obsPath := rfl
@[simp] theorem State.gates_modHall (s : State) (h : Nat) (f : Hall → Hall) : (s.modHall h f).gates = s.gates := rfl
@[simp] theorem State.txBlocks_modHall (s : State) (h : Nat) (f : Hall → Hall) : (s.modHall h f).txBlocks = s.txBlocks := rfl
@[simp] theorem State.txDone_modHall (s : State) (h : Nat) (f : Hall → Hall) : (s.modHall h f).txDone = s.txDone := rfl
@[simp] theorem State.free_modHall (s : State) (h : Nat) (f : Hall → Hall) : (s.modHall h f).free = s.free := rfl
@[simp] theorem State.beam_modHall (s : State) (h : Nat) (f : Hall → Hall) : (s.modHall h f).beam = s.beam := rfl
@[simp] theorem State.fh_modHall (s : State) (h : Nat) (f : Hall → Hall) : (s.modHall h f).fh = s.fh := rfl
@[simp] theorem State.alcoves_modHall (s : State) (h : Nat) (f : Hall → Hall) : (s.modHall h f).alcoves = s.alcoves := rfl
@[simp] theorem State.flits_modHall (s : State) (h : Nat) (f : Hall → Hall) : (s.modHall h f).flits = s.flits := rfl
@[simp] theorem State.routers_modHall (s : State) (h : Nat) (f : Hall → Hall) : (s.modHall h f).routers = s.routers := rfl
@[simp] theorem State.stair_modHall (s : State) (h : Nat) (f : Hall → Hall) : (s.modHall h f).stair = s.stair := rfl
@[simp] theorem State.ota_modHall (s : State) (h : Nat) (f : Hall → Hall) : (s.modHall h f).ota = s.ota := rfl
@[simp] theorem State.recov_modHall (s : State) (h : Nat) (f : Hall → Hall) : (s.modHall h f).recov = s.recov := rfl
@[simp] theorem State.energy_modHall (s : State) (h : Nat) (f : Hall → Hall) : (s.modHall h f).energy = s.energy := rfl
@[simp] theorem State.hk_modHall (s : State) (h : Nat) (f : Hall → Hall) : (s.modHall h f).hk = s.hk := rfl
@[simp] theorem State.timers_modHall (s : State) (h : Nat) (f : Hall → Hall) : (s.modHall h f).timers = s.timers := rfl
@[simp] theorem State.out_modHall (s : State) (h : Nat) (f : Hall → Hall) : (s.modHall h f).out = s.out := rfl
@[simp] theorem State.pending_modHall (s : State) (h : Nat) (f : Hall → Hall) : (s.modHall h f).pending = s.pending := rfl
@[simp] theorem State.word_modHall (s : State) (h : Nat) (f : Hall → Hall) (r : Nat) : (s.modHall h f).word r = s.word r := rfl
@[simp] theorem State.get_modHall (s : State) (h : Nat) (f : Hall → Hall) (r : Fld) : (s.modHall h f).get r = s.get r := rfl
@[simp] theorem State.getS_modHall (s : State) (h : Nat) (f : Hall → Hall) (r : Fld) : (s.modHall h f).getS r = s.getS r := rfl
@[simp] theorem State.flag_modHall (s : State) (h : Nat) (f : Hall → Hall) (r : Fld) : (s.modHall h f).flag r = s.flag r := rfl

/-! ### modCore -/

@[simp] theorem State.now_modCore (s : State) (h : Nat) (f : HallCore → HallCore) : (s.modCore h f).now = s.now := rfl
@[simp] theorem State.regs_modCore (s : State) (h : Nat) (f : HallCore → HallCore) : (s.modCore h f).regs = s.regs := rfl
@[simp] theorem State.mem_modCore (s : State) (h : Nat) (f : HallCore → HallCore) : (s.modCore h f).mem = s.mem := rfl
@[simp] theorem State.trims_modCore (s : State) (h : Nat) (f : HallCore → HallCore) : (s.modCore h f).trims = s.trims := rfl
@[simp] theorem State.trimsRx_modCore (s : State) (h : Nat) (f : HallCore → HallCore) : (s.modCore h f).trimsRx = s.trimsRx := rfl
@[simp] theorem State.trimsDelay_modCore (s : State) (h : Nat) (f : HallCore → HallCore) : (s.modCore h f).trimsDelay = s.trimsDelay := rfl
@[simp] theorem State.trimsTone_modCore (s : State) (h : Nat) (f : HallCore → HallCore) : (s.modCore h f).trimsTone = s.trimsTone := rfl
@[simp] theorem State.trimsLoaded_modCore (s : State) (h : Nat) (f : HallCore → HallCore) : (s.modCore h f).trimsLoaded = s.trimsLoaded := rfl
@[simp] theorem State.trimsBad_modCore (s : State) (h : Nat) (f : HallCore → HallCore) : (s.modCore h f).trimsBad = s.trimsBad := rfl
@[simp] theorem State.chans_modCore (s : State) (h : Nat) (f : HallCore → HallCore) : (s.modCore h f).chans = s.chans := rfl
@[simp] theorem State.sessions_modCore (s : State) (h : Nat) (f : HallCore → HallCore) : (s.modCore h f).sessions = s.sessions := rfl
@[simp] theorem State.keep_modCore (s : State) (h : Nat) (f : HallCore → HallCore) : (s.modCore h f).keep = s.keep := rfl
@[simp] theorem State.sec_modCore (s : State) (h : Nat) (f : HallCore → HallCore) : (s.modCore h f).sec = s.sec := rfl
@[simp] theorem State.image_modCore (s : State) (h : Nat) (f : HallCore → HallCore) : (s.modCore h f).image = s.image := rfl
@[simp] theorem State.boot_modCore (s : State) (h : Nat) (f : HallCore → HallCore) : (s.modCore h f).boot = s.boot := rfl
@[simp] theorem State.txn_modCore (s : State) (h : Nat) (f : HallCore → HallCore) : (s.modCore h f).txn = s.txn := rfl
@[simp] theorem State.radio_modCore (s : State) (h : Nat) (f : HallCore → HallCore) : (s.modCore h f).radio = s.radio := rfl
@[simp] theorem State.clock_modCore (s : State) (h : Nat) (f : HallCore → HallCore) : (s.modCore h f).clock = s.clock := rfl
@[simp] theorem State.log_modCore (s : State) (h : Nat) (f : HallCore → HallCore) : (s.modCore h f).log = s.log := rfl
@[simp] theorem State.intN_modCore (s : State) (h : Nat) (f : HallCore → HallCore) : (s.modCore h f).intN = s.intN := rfl
@[simp] theorem State.faultN_modCore (s : State) (h : Nat) (f : HallCore → HallCore) : (s.modCore h f).faultN = s.faultN := rfl
@[simp] theorem State.carriers_modCore (s : State) (h : Nat) (f : HallCore → HallCore) : (s.modCore h f).carriers = s.carriers := rfl
@[simp] theorem State.cap_modCore (s : State) (h : Nat) (f : HallCore → HallCore) : (s.modCore h f).cap = s.cap := rfl
@[simp] theorem State.obs_modCore (s : State) (h : Nat) (f : HallCore → HallCore) : (s.modCore h f).obs = s.obs := rfl
@[simp] theorem State.obsPath_modCore (s : State) (h : Nat) (f : HallCore → HallCore) : (s.modCore h f).obsPath = s.obsPath := rfl
@[simp] theorem State.gates_modCore (s : State) (h : Nat) (f : HallCore → HallCore) : (s.modCore h f).gates = s.gates := rfl
@[simp] theorem State.txBlocks_modCore (s : State) (h : Nat) (f : HallCore → HallCore) : (s.modCore h f).txBlocks = s.txBlocks := rfl
@[simp] theorem State.txDone_modCore (s : State) (h : Nat) (f : HallCore → HallCore) : (s.modCore h f).txDone = s.txDone := rfl
@[simp] theorem State.free_modCore (s : State) (h : Nat) (f : HallCore → HallCore) : (s.modCore h f).free = s.free := rfl
@[simp] theorem State.beam_modCore (s : State) (h : Nat) (f : HallCore → HallCore) : (s.modCore h f).beam = s.beam := rfl
@[simp] theorem State.fh_modCore (s : State) (h : Nat) (f : HallCore → HallCore) : (s.modCore h f).fh = s.fh := rfl
@[simp] theorem State.alcoves_modCore (s : State) (h : Nat) (f : HallCore → HallCore) : (s.modCore h f).alcoves = s.alcoves := rfl
@[simp] theorem State.flits_modCore (s : State) (h : Nat) (f : HallCore → HallCore) : (s.modCore h f).flits = s.flits := rfl
@[simp] theorem State.routers_modCore (s : State) (h : Nat) (f : HallCore → HallCore) : (s.modCore h f).routers = s.routers := rfl
@[simp] theorem State.stair_modCore (s : State) (h : Nat) (f : HallCore → HallCore) : (s.modCore h f).stair = s.stair := rfl
@[simp] theorem State.ota_modCore (s : State) (h : Nat) (f : HallCore → HallCore) : (s.modCore h f).ota = s.ota := rfl
@[simp] theorem State.recov_modCore (s : State) (h : Nat) (f : HallCore → HallCore) : (s.modCore h f).recov = s.recov := rfl
@[simp] theorem State.energy_modCore (s : State) (h : Nat) (f : HallCore → HallCore) : (s.modCore h f).energy = s.energy := rfl
@[simp] theorem State.hk_modCore (s : State) (h : Nat) (f : HallCore → HallCore) : (s.modCore h f).hk = s.hk := rfl
@[simp] theorem State.timers_modCore (s : State) (h : Nat) (f : HallCore → HallCore) : (s.modCore h f).timers = s.timers := rfl
@[simp] theorem State.out_modCore (s : State) (h : Nat) (f : HallCore → HallCore) : (s.modCore h f).out = s.out := rfl
@[simp] theorem State.pending_modCore (s : State) (h : Nat) (f : HallCore → HallCore) : (s.modCore h f).pending = s.pending := rfl
@[simp] theorem State.word_modCore (s : State) (h : Nat) (f : HallCore → HallCore) (r : Nat) : (s.modCore h f).word r = s.word r := rfl
@[simp] theorem State.get_modCore (s : State) (h : Nat) (f : HallCore → HallCore) (r : Fld) : (s.modCore h f).get r = s.get r := rfl
@[simp] theorem State.getS_modCore (s : State) (h : Nat) (f : HallCore → HallCore) (r : Fld) : (s.modCore h f).getS r = s.getS r := rfl
@[simp] theorem State.flag_modCore (s : State) (h : Nat) (f : HallCore → HallCore) (r : Fld) : (s.modCore h f).flag r = s.flag r := rfl

/-! ### retireHall -/

@[simp] theorem State.now_retireHall (s : State) (h : Nat) (f : HallCore → HallCore) : (s.retireHall h f).now = s.now := rfl
@[simp] theorem State.regs_retireHall (s : State) (h : Nat) (f : HallCore → HallCore) : (s.retireHall h f).regs = s.regs := rfl
@[simp] theorem State.mem_retireHall (s : State) (h : Nat) (f : HallCore → HallCore) : (s.retireHall h f).mem = s.mem := rfl
@[simp] theorem State.trims_retireHall (s : State) (h : Nat) (f : HallCore → HallCore) : (s.retireHall h f).trims = s.trims := rfl
@[simp] theorem State.trimsRx_retireHall (s : State) (h : Nat) (f : HallCore → HallCore) : (s.retireHall h f).trimsRx = s.trimsRx := rfl
@[simp] theorem State.trimsDelay_retireHall (s : State) (h : Nat) (f : HallCore → HallCore) : (s.retireHall h f).trimsDelay = s.trimsDelay := rfl
@[simp] theorem State.trimsTone_retireHall (s : State) (h : Nat) (f : HallCore → HallCore) : (s.retireHall h f).trimsTone = s.trimsTone := rfl
@[simp] theorem State.trimsLoaded_retireHall (s : State) (h : Nat) (f : HallCore → HallCore) : (s.retireHall h f).trimsLoaded = s.trimsLoaded := rfl
@[simp] theorem State.trimsBad_retireHall (s : State) (h : Nat) (f : HallCore → HallCore) : (s.retireHall h f).trimsBad = s.trimsBad := rfl
@[simp] theorem State.chans_retireHall (s : State) (h : Nat) (f : HallCore → HallCore) : (s.retireHall h f).chans = s.chans := rfl
@[simp] theorem State.sessions_retireHall (s : State) (h : Nat) (f : HallCore → HallCore) : (s.retireHall h f).sessions = s.sessions := rfl
@[simp] theorem State.keep_retireHall (s : State) (h : Nat) (f : HallCore → HallCore) : (s.retireHall h f).keep = s.keep := rfl
@[simp] theorem State.sec_retireHall (s : State) (h : Nat) (f : HallCore → HallCore) : (s.retireHall h f).sec = s.sec := rfl
@[simp] theorem State.image_retireHall (s : State) (h : Nat) (f : HallCore → HallCore) : (s.retireHall h f).image = s.image := rfl
@[simp] theorem State.boot_retireHall (s : State) (h : Nat) (f : HallCore → HallCore) : (s.retireHall h f).boot = s.boot := rfl
@[simp] theorem State.txn_retireHall (s : State) (h : Nat) (f : HallCore → HallCore) : (s.retireHall h f).txn = s.txn := rfl
@[simp] theorem State.radio_retireHall (s : State) (h : Nat) (f : HallCore → HallCore) : (s.retireHall h f).radio = s.radio := rfl
@[simp] theorem State.clock_retireHall (s : State) (h : Nat) (f : HallCore → HallCore) : (s.retireHall h f).clock = s.clock := rfl
@[simp] theorem State.log_retireHall (s : State) (h : Nat) (f : HallCore → HallCore) : (s.retireHall h f).log = s.log := rfl
@[simp] theorem State.intN_retireHall (s : State) (h : Nat) (f : HallCore → HallCore) : (s.retireHall h f).intN = s.intN := rfl
@[simp] theorem State.faultN_retireHall (s : State) (h : Nat) (f : HallCore → HallCore) : (s.retireHall h f).faultN = s.faultN := rfl
@[simp] theorem State.carriers_retireHall (s : State) (h : Nat) (f : HallCore → HallCore) : (s.retireHall h f).carriers = s.carriers := rfl
@[simp] theorem State.cap_retireHall (s : State) (h : Nat) (f : HallCore → HallCore) : (s.retireHall h f).cap = s.cap := rfl
@[simp] theorem State.obs_retireHall (s : State) (h : Nat) (f : HallCore → HallCore) : (s.retireHall h f).obs = s.obs := rfl
@[simp] theorem State.obsPath_retireHall (s : State) (h : Nat) (f : HallCore → HallCore) : (s.retireHall h f).obsPath = s.obsPath := rfl
@[simp] theorem State.gates_retireHall (s : State) (h : Nat) (f : HallCore → HallCore) : (s.retireHall h f).gates = s.gates := rfl
@[simp] theorem State.txBlocks_retireHall (s : State) (h : Nat) (f : HallCore → HallCore) : (s.retireHall h f).txBlocks = s.txBlocks := rfl
@[simp] theorem State.txDone_retireHall (s : State) (h : Nat) (f : HallCore → HallCore) : (s.retireHall h f).txDone = s.txDone := rfl
@[simp] theorem State.free_retireHall (s : State) (h : Nat) (f : HallCore → HallCore) : (s.retireHall h f).free = s.free := rfl
@[simp] theorem State.beam_retireHall (s : State) (h : Nat) (f : HallCore → HallCore) : (s.retireHall h f).beam = s.beam := rfl
@[simp] theorem State.fh_retireHall (s : State) (h : Nat) (f : HallCore → HallCore) : (s.retireHall h f).fh = s.fh := rfl
@[simp] theorem State.alcoves_retireHall (s : State) (h : Nat) (f : HallCore → HallCore) : (s.retireHall h f).alcoves = s.alcoves := rfl
@[simp] theorem State.flits_retireHall (s : State) (h : Nat) (f : HallCore → HallCore) : (s.retireHall h f).flits = s.flits := rfl
@[simp] theorem State.routers_retireHall (s : State) (h : Nat) (f : HallCore → HallCore) : (s.retireHall h f).routers = s.routers := rfl
@[simp] theorem State.stair_retireHall (s : State) (h : Nat) (f : HallCore → HallCore) : (s.retireHall h f).stair = s.stair := rfl
@[simp] theorem State.ota_retireHall (s : State) (h : Nat) (f : HallCore → HallCore) : (s.retireHall h f).ota = s.ota := rfl
@[simp] theorem State.recov_retireHall (s : State) (h : Nat) (f : HallCore → HallCore) : (s.retireHall h f).recov = s.recov := rfl
@[simp] theorem State.energy_retireHall (s : State) (h : Nat) (f : HallCore → HallCore) : (s.retireHall h f).energy = s.energy := rfl
@[simp] theorem State.hk_retireHall (s : State) (h : Nat) (f : HallCore → HallCore) : (s.retireHall h f).hk = s.hk := rfl
@[simp] theorem State.timers_retireHall (s : State) (h : Nat) (f : HallCore → HallCore) : (s.retireHall h f).timers = s.timers := rfl
@[simp] theorem State.out_retireHall (s : State) (h : Nat) (f : HallCore → HallCore) : (s.retireHall h f).out = s.out := rfl
@[simp] theorem State.pending_retireHall (s : State) (h : Nat) (f : HallCore → HallCore) : (s.retireHall h f).pending = s.pending := rfl
@[simp] theorem State.word_retireHall (s : State) (h : Nat) (f : HallCore → HallCore) (r : Nat) : (s.retireHall h f).word r = s.word r := rfl
@[simp] theorem State.get_retireHall (s : State) (h : Nat) (f : HallCore → HallCore) (r : Fld) : (s.retireHall h f).get r = s.get r := rfl
@[simp] theorem State.getS_retireHall (s : State) (h : Nat) (f : HallCore → HallCore) (r : Fld) : (s.retireHall h f).getS r = s.getS r := rfl
@[simp] theorem State.flag_retireHall (s : State) (h : Nat) (f : HallCore → HallCore) (r : Fld) : (s.retireHall h f).flag r = s.flag r := rfl

/-! ### modFlow -/

@[simp] theorem State.now_modFlow (s : State) (h f : Nat) (g : HallFlow → HallFlow) : (s.modFlow h f g).now = s.now := rfl
@[simp] theorem State.regs_modFlow (s : State) (h f : Nat) (g : HallFlow → HallFlow) : (s.modFlow h f g).regs = s.regs := rfl
@[simp] theorem State.mem_modFlow (s : State) (h f : Nat) (g : HallFlow → HallFlow) : (s.modFlow h f g).mem = s.mem := rfl
@[simp] theorem State.trims_modFlow (s : State) (h f : Nat) (g : HallFlow → HallFlow) : (s.modFlow h f g).trims = s.trims := rfl
@[simp] theorem State.trimsRx_modFlow (s : State) (h f : Nat) (g : HallFlow → HallFlow) : (s.modFlow h f g).trimsRx = s.trimsRx := rfl
@[simp] theorem State.trimsDelay_modFlow (s : State) (h f : Nat) (g : HallFlow → HallFlow) : (s.modFlow h f g).trimsDelay = s.trimsDelay := rfl
@[simp] theorem State.trimsTone_modFlow (s : State) (h f : Nat) (g : HallFlow → HallFlow) : (s.modFlow h f g).trimsTone = s.trimsTone := rfl
@[simp] theorem State.trimsLoaded_modFlow (s : State) (h f : Nat) (g : HallFlow → HallFlow) : (s.modFlow h f g).trimsLoaded = s.trimsLoaded := rfl
@[simp] theorem State.trimsBad_modFlow (s : State) (h f : Nat) (g : HallFlow → HallFlow) : (s.modFlow h f g).trimsBad = s.trimsBad := rfl
@[simp] theorem State.chans_modFlow (s : State) (h f : Nat) (g : HallFlow → HallFlow) : (s.modFlow h f g).chans = s.chans := rfl
@[simp] theorem State.sessions_modFlow (s : State) (h f : Nat) (g : HallFlow → HallFlow) : (s.modFlow h f g).sessions = s.sessions := rfl
@[simp] theorem State.keep_modFlow (s : State) (h f : Nat) (g : HallFlow → HallFlow) : (s.modFlow h f g).keep = s.keep := rfl
@[simp] theorem State.sec_modFlow (s : State) (h f : Nat) (g : HallFlow → HallFlow) : (s.modFlow h f g).sec = s.sec := rfl
@[simp] theorem State.image_modFlow (s : State) (h f : Nat) (g : HallFlow → HallFlow) : (s.modFlow h f g).image = s.image := rfl
@[simp] theorem State.boot_modFlow (s : State) (h f : Nat) (g : HallFlow → HallFlow) : (s.modFlow h f g).boot = s.boot := rfl
@[simp] theorem State.txn_modFlow (s : State) (h f : Nat) (g : HallFlow → HallFlow) : (s.modFlow h f g).txn = s.txn := rfl
@[simp] theorem State.radio_modFlow (s : State) (h f : Nat) (g : HallFlow → HallFlow) : (s.modFlow h f g).radio = s.radio := rfl
@[simp] theorem State.clock_modFlow (s : State) (h f : Nat) (g : HallFlow → HallFlow) : (s.modFlow h f g).clock = s.clock := rfl
@[simp] theorem State.log_modFlow (s : State) (h f : Nat) (g : HallFlow → HallFlow) : (s.modFlow h f g).log = s.log := rfl
@[simp] theorem State.intN_modFlow (s : State) (h f : Nat) (g : HallFlow → HallFlow) : (s.modFlow h f g).intN = s.intN := rfl
@[simp] theorem State.faultN_modFlow (s : State) (h f : Nat) (g : HallFlow → HallFlow) : (s.modFlow h f g).faultN = s.faultN := rfl
@[simp] theorem State.carriers_modFlow (s : State) (h f : Nat) (g : HallFlow → HallFlow) : (s.modFlow h f g).carriers = s.carriers := rfl
@[simp] theorem State.cap_modFlow (s : State) (h f : Nat) (g : HallFlow → HallFlow) : (s.modFlow h f g).cap = s.cap := rfl
@[simp] theorem State.obs_modFlow (s : State) (h f : Nat) (g : HallFlow → HallFlow) : (s.modFlow h f g).obs = s.obs := rfl
@[simp] theorem State.obsPath_modFlow (s : State) (h f : Nat) (g : HallFlow → HallFlow) : (s.modFlow h f g).obsPath = s.obsPath := rfl
@[simp] theorem State.gates_modFlow (s : State) (h f : Nat) (g : HallFlow → HallFlow) : (s.modFlow h f g).gates = s.gates := rfl
@[simp] theorem State.txBlocks_modFlow (s : State) (h f : Nat) (g : HallFlow → HallFlow) : (s.modFlow h f g).txBlocks = s.txBlocks := rfl
@[simp] theorem State.txDone_modFlow (s : State) (h f : Nat) (g : HallFlow → HallFlow) : (s.modFlow h f g).txDone = s.txDone := rfl
@[simp] theorem State.free_modFlow (s : State) (h f : Nat) (g : HallFlow → HallFlow) : (s.modFlow h f g).free = s.free := rfl
@[simp] theorem State.beam_modFlow (s : State) (h f : Nat) (g : HallFlow → HallFlow) : (s.modFlow h f g).beam = s.beam := rfl
@[simp] theorem State.fh_modFlow (s : State) (h f : Nat) (g : HallFlow → HallFlow) : (s.modFlow h f g).fh = s.fh := rfl
@[simp] theorem State.alcoves_modFlow (s : State) (h f : Nat) (g : HallFlow → HallFlow) : (s.modFlow h f g).alcoves = s.alcoves := rfl
@[simp] theorem State.flits_modFlow (s : State) (h f : Nat) (g : HallFlow → HallFlow) : (s.modFlow h f g).flits = s.flits := rfl
@[simp] theorem State.routers_modFlow (s : State) (h f : Nat) (g : HallFlow → HallFlow) : (s.modFlow h f g).routers = s.routers := rfl
@[simp] theorem State.stair_modFlow (s : State) (h f : Nat) (g : HallFlow → HallFlow) : (s.modFlow h f g).stair = s.stair := rfl
@[simp] theorem State.ota_modFlow (s : State) (h f : Nat) (g : HallFlow → HallFlow) : (s.modFlow h f g).ota = s.ota := rfl
@[simp] theorem State.recov_modFlow (s : State) (h f : Nat) (g : HallFlow → HallFlow) : (s.modFlow h f g).recov = s.recov := rfl
@[simp] theorem State.energy_modFlow (s : State) (h f : Nat) (g : HallFlow → HallFlow) : (s.modFlow h f g).energy = s.energy := rfl
@[simp] theorem State.hk_modFlow (s : State) (h f : Nat) (g : HallFlow → HallFlow) : (s.modFlow h f g).hk = s.hk := rfl
@[simp] theorem State.timers_modFlow (s : State) (h f : Nat) (g : HallFlow → HallFlow) : (s.modFlow h f g).timers = s.timers := rfl
@[simp] theorem State.out_modFlow (s : State) (h f : Nat) (g : HallFlow → HallFlow) : (s.modFlow h f g).out = s.out := rfl
@[simp] theorem State.pending_modFlow (s : State) (h f : Nat) (g : HallFlow → HallFlow) : (s.modFlow h f g).pending = s.pending := rfl
@[simp] theorem State.word_modFlow (s : State) (h f : Nat) (g : HallFlow → HallFlow) (r : Nat) : (s.modFlow h f g).word r = s.word r := rfl
@[simp] theorem State.get_modFlow (s : State) (h f : Nat) (g : HallFlow → HallFlow) (r : Fld) : (s.modFlow h f g).get r = s.get r := rfl
@[simp] theorem State.getS_modFlow (s : State) (h f : Nat) (g : HallFlow → HallFlow) (r : Fld) : (s.modFlow h f g).getS r = s.getS r := rfl
@[simp] theorem State.flag_modFlow (s : State) (h f : Nat) (g : HallFlow → HallFlow) (r : Fld) : (s.modFlow h f g).flag r = s.flag r := rfl

/-! ### stick -/

@[simp] theorem State.now_stick (s : State) (h b : Nat) : (s.stick h b).now = s.now := rfl
@[simp] theorem State.mem_stick (s : State) (h b : Nat) : (s.stick h b).mem = s.mem := rfl
@[simp] theorem State.trims_stick (s : State) (h b : Nat) : (s.stick h b).trims = s.trims := rfl
@[simp] theorem State.trimsRx_stick (s : State) (h b : Nat) : (s.stick h b).trimsRx = s.trimsRx := rfl
@[simp] theorem State.trimsDelay_stick (s : State) (h b : Nat) : (s.stick h b).trimsDelay = s.trimsDelay := rfl
@[simp] theorem State.trimsTone_stick (s : State) (h b : Nat) : (s.stick h b).trimsTone = s.trimsTone := rfl
@[simp] theorem State.trimsLoaded_stick (s : State) (h b : Nat) : (s.stick h b).trimsLoaded = s.trimsLoaded := rfl
@[simp] theorem State.trimsBad_stick (s : State) (h b : Nat) : (s.stick h b).trimsBad = s.trimsBad := rfl
@[simp] theorem State.chans_stick (s : State) (h b : Nat) : (s.stick h b).chans = s.chans := rfl
@[simp] theorem State.sessions_stick (s : State) (h b : Nat) : (s.stick h b).sessions = s.sessions := rfl
@[simp] theorem State.keep_stick (s : State) (h b : Nat) : (s.stick h b).keep = s.keep := rfl
@[simp] theorem State.sec_stick (s : State) (h b : Nat) : (s.stick h b).sec = s.sec := rfl
@[simp] theorem State.image_stick (s : State) (h b : Nat) : (s.stick h b).image = s.image := rfl
@[simp] theorem State.boot_stick (s : State) (h b : Nat) : (s.stick h b).boot = s.boot := rfl
@[simp] theorem State.txn_stick (s : State) (h b : Nat) : (s.stick h b).txn = s.txn := rfl
@[simp] theorem State.radio_stick (s : State) (h b : Nat) : (s.stick h b).radio = s.radio := rfl
@[simp] theorem State.clock_stick (s : State) (h b : Nat) : (s.stick h b).clock = s.clock := rfl
@[simp] theorem State.log_stick (s : State) (h b : Nat) : (s.stick h b).log = s.log := rfl
@[simp] theorem State.intN_stick (s : State) (h b : Nat) : (s.stick h b).intN = s.intN := rfl
@[simp] theorem State.faultN_stick (s : State) (h b : Nat) : (s.stick h b).faultN = s.faultN := rfl
@[simp] theorem State.carriers_stick (s : State) (h b : Nat) : (s.stick h b).carriers = s.carriers := rfl
@[simp] theorem State.cap_stick (s : State) (h b : Nat) : (s.stick h b).cap = s.cap := rfl
@[simp] theorem State.obs_stick (s : State) (h b : Nat) : (s.stick h b).obs = s.obs := rfl
@[simp] theorem State.obsPath_stick (s : State) (h b : Nat) : (s.stick h b).obsPath = s.obsPath := rfl
@[simp] theorem State.gates_stick (s : State) (h b : Nat) : (s.stick h b).gates = s.gates := rfl
@[simp] theorem State.txBlocks_stick (s : State) (h b : Nat) : (s.stick h b).txBlocks = s.txBlocks := rfl
@[simp] theorem State.txDone_stick (s : State) (h b : Nat) : (s.stick h b).txDone = s.txDone := rfl
@[simp] theorem State.free_stick (s : State) (h b : Nat) : (s.stick h b).free = s.free := rfl
@[simp] theorem State.beam_stick (s : State) (h b : Nat) : (s.stick h b).beam = s.beam := rfl
@[simp] theorem State.fh_stick (s : State) (h b : Nat) : (s.stick h b).fh = s.fh := rfl
@[simp] theorem State.halls_stick (s : State) (h b : Nat) : (s.stick h b).halls = s.halls := rfl
@[simp] theorem State.alcoves_stick (s : State) (h b : Nat) : (s.stick h b).alcoves = s.alcoves := rfl
@[simp] theorem State.flits_stick (s : State) (h b : Nat) : (s.stick h b).flits = s.flits := rfl
@[simp] theorem State.routers_stick (s : State) (h b : Nat) : (s.stick h b).routers = s.routers := rfl
@[simp] theorem State.stair_stick (s : State) (h b : Nat) : (s.stick h b).stair = s.stair := rfl
@[simp] theorem State.ota_stick (s : State) (h b : Nat) : (s.stick h b).ota = s.ota := rfl
@[simp] theorem State.recov_stick (s : State) (h b : Nat) : (s.stick h b).recov = s.recov := rfl
@[simp] theorem State.energy_stick (s : State) (h b : Nat) : (s.stick h b).energy = s.energy := rfl
@[simp] theorem State.hk_stick (s : State) (h b : Nat) : (s.stick h b).hk = s.hk := rfl
@[simp] theorem State.timers_stick (s : State) (h b : Nat) : (s.stick h b).timers = s.timers := rfl
@[simp] theorem State.out_stick (s : State) (h b : Nat) : (s.stick h b).out = s.out := rfl
@[simp] theorem State.pending_stick (s : State) (h b : Nat) : (s.stick h b).pending = s.pending := rfl

/-! ### modAlcove -/

@[simp] theorem State.now_modAlcove (s : State) (k : Nat) (f : Alcove → Alcove) : (s.modAlcove k f).now = s.now := rfl
@[simp] theorem State.regs_modAlcove (s : State) (k : Nat) (f : Alcove → Alcove) : (s.modAlcove k f).regs = s.regs := rfl
@[simp] theorem State.mem_modAlcove (s : State) (k : Nat) (f : Alcove → Alcove) : (s.modAlcove k f).mem = s.mem := rfl
@[simp] theorem State.trims_modAlcove (s : State) (k : Nat) (f : Alcove → Alcove) : (s.modAlcove k f).trims = s.trims := rfl
@[simp] theorem State.trimsRx_modAlcove (s : State) (k : Nat) (f : Alcove → Alcove) : (s.modAlcove k f).trimsRx = s.trimsRx := rfl
@[simp] theorem State.trimsDelay_modAlcove (s : State) (k : Nat) (f : Alcove → Alcove) : (s.modAlcove k f).trimsDelay = s.trimsDelay := rfl
@[simp] theorem State.trimsTone_modAlcove (s : State) (k : Nat) (f : Alcove → Alcove) : (s.modAlcove k f).trimsTone = s.trimsTone := rfl
@[simp] theorem State.trimsLoaded_modAlcove (s : State) (k : Nat) (f : Alcove → Alcove) : (s.modAlcove k f).trimsLoaded = s.trimsLoaded := rfl
@[simp] theorem State.trimsBad_modAlcove (s : State) (k : Nat) (f : Alcove → Alcove) : (s.modAlcove k f).trimsBad = s.trimsBad := rfl
@[simp] theorem State.chans_modAlcove (s : State) (k : Nat) (f : Alcove → Alcove) : (s.modAlcove k f).chans = s.chans := rfl
@[simp] theorem State.sessions_modAlcove (s : State) (k : Nat) (f : Alcove → Alcove) : (s.modAlcove k f).sessions = s.sessions := rfl
@[simp] theorem State.keep_modAlcove (s : State) (k : Nat) (f : Alcove → Alcove) : (s.modAlcove k f).keep = s.keep := rfl
@[simp] theorem State.sec_modAlcove (s : State) (k : Nat) (f : Alcove → Alcove) : (s.modAlcove k f).sec = s.sec := rfl
@[simp] theorem State.image_modAlcove (s : State) (k : Nat) (f : Alcove → Alcove) : (s.modAlcove k f).image = s.image := rfl
@[simp] theorem State.boot_modAlcove (s : State) (k : Nat) (f : Alcove → Alcove) : (s.modAlcove k f).boot = s.boot := rfl
@[simp] theorem State.txn_modAlcove (s : State) (k : Nat) (f : Alcove → Alcove) : (s.modAlcove k f).txn = s.txn := rfl
@[simp] theorem State.radio_modAlcove (s : State) (k : Nat) (f : Alcove → Alcove) : (s.modAlcove k f).radio = s.radio := rfl
@[simp] theorem State.clock_modAlcove (s : State) (k : Nat) (f : Alcove → Alcove) : (s.modAlcove k f).clock = s.clock := rfl
@[simp] theorem State.log_modAlcove (s : State) (k : Nat) (f : Alcove → Alcove) : (s.modAlcove k f).log = s.log := rfl
@[simp] theorem State.intN_modAlcove (s : State) (k : Nat) (f : Alcove → Alcove) : (s.modAlcove k f).intN = s.intN := rfl
@[simp] theorem State.faultN_modAlcove (s : State) (k : Nat) (f : Alcove → Alcove) : (s.modAlcove k f).faultN = s.faultN := rfl
@[simp] theorem State.carriers_modAlcove (s : State) (k : Nat) (f : Alcove → Alcove) : (s.modAlcove k f).carriers = s.carriers := rfl
@[simp] theorem State.cap_modAlcove (s : State) (k : Nat) (f : Alcove → Alcove) : (s.modAlcove k f).cap = s.cap := rfl
@[simp] theorem State.obs_modAlcove (s : State) (k : Nat) (f : Alcove → Alcove) : (s.modAlcove k f).obs = s.obs := rfl
@[simp] theorem State.obsPath_modAlcove (s : State) (k : Nat) (f : Alcove → Alcove) : (s.modAlcove k f).obsPath = s.obsPath := rfl
@[simp] theorem State.gates_modAlcove (s : State) (k : Nat) (f : Alcove → Alcove) : (s.modAlcove k f).gates = s.gates := rfl
@[simp] theorem State.txBlocks_modAlcove (s : State) (k : Nat) (f : Alcove → Alcove) : (s.modAlcove k f).txBlocks = s.txBlocks := rfl
@[simp] theorem State.txDone_modAlcove (s : State) (k : Nat) (f : Alcove → Alcove) : (s.modAlcove k f).txDone = s.txDone := rfl
@[simp] theorem State.free_modAlcove (s : State) (k : Nat) (f : Alcove → Alcove) : (s.modAlcove k f).free = s.free := rfl
@[simp] theorem State.beam_modAlcove (s : State) (k : Nat) (f : Alcove → Alcove) : (s.modAlcove k f).beam = s.beam := rfl
@[simp] theorem State.fh_modAlcove (s : State) (k : Nat) (f : Alcove → Alcove) : (s.modAlcove k f).fh = s.fh := rfl
@[simp] theorem State.halls_modAlcove (s : State) (k : Nat) (f : Alcove → Alcove) : (s.modAlcove k f).halls = s.halls := rfl
@[simp] theorem State.flits_modAlcove (s : State) (k : Nat) (f : Alcove → Alcove) : (s.modAlcove k f).flits = s.flits := rfl
@[simp] theorem State.routers_modAlcove (s : State) (k : Nat) (f : Alcove → Alcove) : (s.modAlcove k f).routers = s.routers := rfl
@[simp] theorem State.stair_modAlcove (s : State) (k : Nat) (f : Alcove → Alcove) : (s.modAlcove k f).stair = s.stair := rfl
@[simp] theorem State.ota_modAlcove (s : State) (k : Nat) (f : Alcove → Alcove) : (s.modAlcove k f).ota = s.ota := rfl
@[simp] theorem State.recov_modAlcove (s : State) (k : Nat) (f : Alcove → Alcove) : (s.modAlcove k f).recov = s.recov := rfl
@[simp] theorem State.energy_modAlcove (s : State) (k : Nat) (f : Alcove → Alcove) : (s.modAlcove k f).energy = s.energy := rfl
@[simp] theorem State.hk_modAlcove (s : State) (k : Nat) (f : Alcove → Alcove) : (s.modAlcove k f).hk = s.hk := rfl
@[simp] theorem State.timers_modAlcove (s : State) (k : Nat) (f : Alcove → Alcove) : (s.modAlcove k f).timers = s.timers := rfl
@[simp] theorem State.out_modAlcove (s : State) (k : Nat) (f : Alcove → Alcove) : (s.modAlcove k f).out = s.out := rfl
@[simp] theorem State.pending_modAlcove (s : State) (k : Nat) (f : Alcove → Alcove) : (s.modAlcove k f).pending = s.pending := rfl
@[simp] theorem State.word_modAlcove (s : State) (k : Nat) (f : Alcove → Alcove) (r : Nat) : (s.modAlcove k f).word r = s.word r := rfl
@[simp] theorem State.get_modAlcove (s : State) (k : Nat) (f : Alcove → Alcove) (r : Fld) : (s.modAlcove k f).get r = s.get r := rfl
@[simp] theorem State.getS_modAlcove (s : State) (k : Nat) (f : Alcove → Alcove) (r : Fld) : (s.modAlcove k f).getS r = s.getS r := rfl
@[simp] theorem State.flag_modAlcove (s : State) (k : Nat) (f : Alcove → Alcove) (r : Fld) : (s.modAlcove k f).flag r = s.flag r := rfl

/-! ### modSPort -/

@[simp] theorem State.now_modSPort (s : State) (n : Nat) (f : StairPort → StairPort) : (s.modSPort n f).now = s.now := rfl
@[simp] theorem State.regs_modSPort (s : State) (n : Nat) (f : StairPort → StairPort) : (s.modSPort n f).regs = s.regs := rfl
@[simp] theorem State.mem_modSPort (s : State) (n : Nat) (f : StairPort → StairPort) : (s.modSPort n f).mem = s.mem := rfl
@[simp] theorem State.trims_modSPort (s : State) (n : Nat) (f : StairPort → StairPort) : (s.modSPort n f).trims = s.trims := rfl
@[simp] theorem State.trimsRx_modSPort (s : State) (n : Nat) (f : StairPort → StairPort) : (s.modSPort n f).trimsRx = s.trimsRx := rfl
@[simp] theorem State.trimsDelay_modSPort (s : State) (n : Nat) (f : StairPort → StairPort) : (s.modSPort n f).trimsDelay = s.trimsDelay := rfl
@[simp] theorem State.trimsTone_modSPort (s : State) (n : Nat) (f : StairPort → StairPort) : (s.modSPort n f).trimsTone = s.trimsTone := rfl
@[simp] theorem State.trimsLoaded_modSPort (s : State) (n : Nat) (f : StairPort → StairPort) : (s.modSPort n f).trimsLoaded = s.trimsLoaded := rfl
@[simp] theorem State.trimsBad_modSPort (s : State) (n : Nat) (f : StairPort → StairPort) : (s.modSPort n f).trimsBad = s.trimsBad := rfl
@[simp] theorem State.chans_modSPort (s : State) (n : Nat) (f : StairPort → StairPort) : (s.modSPort n f).chans = s.chans := rfl
@[simp] theorem State.sessions_modSPort (s : State) (n : Nat) (f : StairPort → StairPort) : (s.modSPort n f).sessions = s.sessions := rfl
@[simp] theorem State.keep_modSPort (s : State) (n : Nat) (f : StairPort → StairPort) : (s.modSPort n f).keep = s.keep := rfl
@[simp] theorem State.sec_modSPort (s : State) (n : Nat) (f : StairPort → StairPort) : (s.modSPort n f).sec = s.sec := rfl
@[simp] theorem State.image_modSPort (s : State) (n : Nat) (f : StairPort → StairPort) : (s.modSPort n f).image = s.image := rfl
@[simp] theorem State.boot_modSPort (s : State) (n : Nat) (f : StairPort → StairPort) : (s.modSPort n f).boot = s.boot := rfl
@[simp] theorem State.txn_modSPort (s : State) (n : Nat) (f : StairPort → StairPort) : (s.modSPort n f).txn = s.txn := rfl
@[simp] theorem State.radio_modSPort (s : State) (n : Nat) (f : StairPort → StairPort) : (s.modSPort n f).radio = s.radio := rfl
@[simp] theorem State.clock_modSPort (s : State) (n : Nat) (f : StairPort → StairPort) : (s.modSPort n f).clock = s.clock := rfl
@[simp] theorem State.log_modSPort (s : State) (n : Nat) (f : StairPort → StairPort) : (s.modSPort n f).log = s.log := rfl
@[simp] theorem State.intN_modSPort (s : State) (n : Nat) (f : StairPort → StairPort) : (s.modSPort n f).intN = s.intN := rfl
@[simp] theorem State.faultN_modSPort (s : State) (n : Nat) (f : StairPort → StairPort) : (s.modSPort n f).faultN = s.faultN := rfl
@[simp] theorem State.carriers_modSPort (s : State) (n : Nat) (f : StairPort → StairPort) : (s.modSPort n f).carriers = s.carriers := rfl
@[simp] theorem State.cap_modSPort (s : State) (n : Nat) (f : StairPort → StairPort) : (s.modSPort n f).cap = s.cap := rfl
@[simp] theorem State.obs_modSPort (s : State) (n : Nat) (f : StairPort → StairPort) : (s.modSPort n f).obs = s.obs := rfl
@[simp] theorem State.obsPath_modSPort (s : State) (n : Nat) (f : StairPort → StairPort) : (s.modSPort n f).obsPath = s.obsPath := rfl
@[simp] theorem State.gates_modSPort (s : State) (n : Nat) (f : StairPort → StairPort) : (s.modSPort n f).gates = s.gates := rfl
@[simp] theorem State.txBlocks_modSPort (s : State) (n : Nat) (f : StairPort → StairPort) : (s.modSPort n f).txBlocks = s.txBlocks := rfl
@[simp] theorem State.txDone_modSPort (s : State) (n : Nat) (f : StairPort → StairPort) : (s.modSPort n f).txDone = s.txDone := rfl
@[simp] theorem State.free_modSPort (s : State) (n : Nat) (f : StairPort → StairPort) : (s.modSPort n f).free = s.free := rfl
@[simp] theorem State.beam_modSPort (s : State) (n : Nat) (f : StairPort → StairPort) : (s.modSPort n f).beam = s.beam := rfl
@[simp] theorem State.fh_modSPort (s : State) (n : Nat) (f : StairPort → StairPort) : (s.modSPort n f).fh = s.fh := rfl
@[simp] theorem State.halls_modSPort (s : State) (n : Nat) (f : StairPort → StairPort) : (s.modSPort n f).halls = s.halls := rfl
@[simp] theorem State.alcoves_modSPort (s : State) (n : Nat) (f : StairPort → StairPort) : (s.modSPort n f).alcoves = s.alcoves := rfl
@[simp] theorem State.flits_modSPort (s : State) (n : Nat) (f : StairPort → StairPort) : (s.modSPort n f).flits = s.flits := rfl
@[simp] theorem State.routers_modSPort (s : State) (n : Nat) (f : StairPort → StairPort) : (s.modSPort n f).routers = s.routers := rfl
@[simp] theorem State.ota_modSPort (s : State) (n : Nat) (f : StairPort → StairPort) : (s.modSPort n f).ota = s.ota := rfl
@[simp] theorem State.recov_modSPort (s : State) (n : Nat) (f : StairPort → StairPort) : (s.modSPort n f).recov = s.recov := rfl
@[simp] theorem State.energy_modSPort (s : State) (n : Nat) (f : StairPort → StairPort) : (s.modSPort n f).energy = s.energy := rfl
@[simp] theorem State.hk_modSPort (s : State) (n : Nat) (f : StairPort → StairPort) : (s.modSPort n f).hk = s.hk := rfl
@[simp] theorem State.timers_modSPort (s : State) (n : Nat) (f : StairPort → StairPort) : (s.modSPort n f).timers = s.timers := rfl
@[simp] theorem State.out_modSPort (s : State) (n : Nat) (f : StairPort → StairPort) : (s.modSPort n f).out = s.out := rfl
@[simp] theorem State.pending_modSPort (s : State) (n : Nat) (f : StairPort → StairPort) : (s.modSPort n f).pending = s.pending := rfl
@[simp] theorem State.word_modSPort (s : State) (n : Nat) (f : StairPort → StairPort) (r : Nat) : (s.modSPort n f).word r = s.word r := rfl
@[simp] theorem State.get_modSPort (s : State) (n : Nat) (f : StairPort → StairPort) (r : Fld) : (s.modSPort n f).get r = s.get r := rfl
@[simp] theorem State.getS_modSPort (s : State) (n : Nat) (f : StairPort → StairPort) (r : Fld) : (s.modSPort n f).getS r = s.getS r := rfl
@[simp] theorem State.flag_modSPort (s : State) (n : Nat) (f : StairPort → StairPort) (r : Fld) : (s.modSPort n f).flag r = s.flag r := rfl

/-! ### modSLane -/

@[simp] theorem State.now_modSLane (s : State) (i : Nat) (f : StairLane → StairLane) : (s.modSLane i f).now = s.now := rfl
@[simp] theorem State.regs_modSLane (s : State) (i : Nat) (f : StairLane → StairLane) : (s.modSLane i f).regs = s.regs := rfl
@[simp] theorem State.mem_modSLane (s : State) (i : Nat) (f : StairLane → StairLane) : (s.modSLane i f).mem = s.mem := rfl
@[simp] theorem State.trims_modSLane (s : State) (i : Nat) (f : StairLane → StairLane) : (s.modSLane i f).trims = s.trims := rfl
@[simp] theorem State.trimsRx_modSLane (s : State) (i : Nat) (f : StairLane → StairLane) : (s.modSLane i f).trimsRx = s.trimsRx := rfl
@[simp] theorem State.trimsDelay_modSLane (s : State) (i : Nat) (f : StairLane → StairLane) : (s.modSLane i f).trimsDelay = s.trimsDelay := rfl
@[simp] theorem State.trimsTone_modSLane (s : State) (i : Nat) (f : StairLane → StairLane) : (s.modSLane i f).trimsTone = s.trimsTone := rfl
@[simp] theorem State.trimsLoaded_modSLane (s : State) (i : Nat) (f : StairLane → StairLane) : (s.modSLane i f).trimsLoaded = s.trimsLoaded := rfl
@[simp] theorem State.trimsBad_modSLane (s : State) (i : Nat) (f : StairLane → StairLane) : (s.modSLane i f).trimsBad = s.trimsBad := rfl
@[simp] theorem State.chans_modSLane (s : State) (i : Nat) (f : StairLane → StairLane) : (s.modSLane i f).chans = s.chans := rfl
@[simp] theorem State.sessions_modSLane (s : State) (i : Nat) (f : StairLane → StairLane) : (s.modSLane i f).sessions = s.sessions := rfl
@[simp] theorem State.keep_modSLane (s : State) (i : Nat) (f : StairLane → StairLane) : (s.modSLane i f).keep = s.keep := rfl
@[simp] theorem State.sec_modSLane (s : State) (i : Nat) (f : StairLane → StairLane) : (s.modSLane i f).sec = s.sec := rfl
@[simp] theorem State.image_modSLane (s : State) (i : Nat) (f : StairLane → StairLane) : (s.modSLane i f).image = s.image := rfl
@[simp] theorem State.boot_modSLane (s : State) (i : Nat) (f : StairLane → StairLane) : (s.modSLane i f).boot = s.boot := rfl
@[simp] theorem State.txn_modSLane (s : State) (i : Nat) (f : StairLane → StairLane) : (s.modSLane i f).txn = s.txn := rfl
@[simp] theorem State.radio_modSLane (s : State) (i : Nat) (f : StairLane → StairLane) : (s.modSLane i f).radio = s.radio := rfl
@[simp] theorem State.clock_modSLane (s : State) (i : Nat) (f : StairLane → StairLane) : (s.modSLane i f).clock = s.clock := rfl
@[simp] theorem State.log_modSLane (s : State) (i : Nat) (f : StairLane → StairLane) : (s.modSLane i f).log = s.log := rfl
@[simp] theorem State.intN_modSLane (s : State) (i : Nat) (f : StairLane → StairLane) : (s.modSLane i f).intN = s.intN := rfl
@[simp] theorem State.faultN_modSLane (s : State) (i : Nat) (f : StairLane → StairLane) : (s.modSLane i f).faultN = s.faultN := rfl
@[simp] theorem State.carriers_modSLane (s : State) (i : Nat) (f : StairLane → StairLane) : (s.modSLane i f).carriers = s.carriers := rfl
@[simp] theorem State.cap_modSLane (s : State) (i : Nat) (f : StairLane → StairLane) : (s.modSLane i f).cap = s.cap := rfl
@[simp] theorem State.obs_modSLane (s : State) (i : Nat) (f : StairLane → StairLane) : (s.modSLane i f).obs = s.obs := rfl
@[simp] theorem State.obsPath_modSLane (s : State) (i : Nat) (f : StairLane → StairLane) : (s.modSLane i f).obsPath = s.obsPath := rfl
@[simp] theorem State.gates_modSLane (s : State) (i : Nat) (f : StairLane → StairLane) : (s.modSLane i f).gates = s.gates := rfl
@[simp] theorem State.txBlocks_modSLane (s : State) (i : Nat) (f : StairLane → StairLane) : (s.modSLane i f).txBlocks = s.txBlocks := rfl
@[simp] theorem State.txDone_modSLane (s : State) (i : Nat) (f : StairLane → StairLane) : (s.modSLane i f).txDone = s.txDone := rfl
@[simp] theorem State.free_modSLane (s : State) (i : Nat) (f : StairLane → StairLane) : (s.modSLane i f).free = s.free := rfl
@[simp] theorem State.beam_modSLane (s : State) (i : Nat) (f : StairLane → StairLane) : (s.modSLane i f).beam = s.beam := rfl
@[simp] theorem State.fh_modSLane (s : State) (i : Nat) (f : StairLane → StairLane) : (s.modSLane i f).fh = s.fh := rfl
@[simp] theorem State.halls_modSLane (s : State) (i : Nat) (f : StairLane → StairLane) : (s.modSLane i f).halls = s.halls := rfl
@[simp] theorem State.alcoves_modSLane (s : State) (i : Nat) (f : StairLane → StairLane) : (s.modSLane i f).alcoves = s.alcoves := rfl
@[simp] theorem State.flits_modSLane (s : State) (i : Nat) (f : StairLane → StairLane) : (s.modSLane i f).flits = s.flits := rfl
@[simp] theorem State.routers_modSLane (s : State) (i : Nat) (f : StairLane → StairLane) : (s.modSLane i f).routers = s.routers := rfl
@[simp] theorem State.ota_modSLane (s : State) (i : Nat) (f : StairLane → StairLane) : (s.modSLane i f).ota = s.ota := rfl
@[simp] theorem State.recov_modSLane (s : State) (i : Nat) (f : StairLane → StairLane) : (s.modSLane i f).recov = s.recov := rfl
@[simp] theorem State.energy_modSLane (s : State) (i : Nat) (f : StairLane → StairLane) : (s.modSLane i f).energy = s.energy := rfl
@[simp] theorem State.hk_modSLane (s : State) (i : Nat) (f : StairLane → StairLane) : (s.modSLane i f).hk = s.hk := rfl
@[simp] theorem State.timers_modSLane (s : State) (i : Nat) (f : StairLane → StairLane) : (s.modSLane i f).timers = s.timers := rfl
@[simp] theorem State.out_modSLane (s : State) (i : Nat) (f : StairLane → StairLane) : (s.modSLane i f).out = s.out := rfl
@[simp] theorem State.pending_modSLane (s : State) (i : Nat) (f : StairLane → StairLane) : (s.modSLane i f).pending = s.pending := rfl
@[simp] theorem State.word_modSLane (s : State) (i : Nat) (f : StairLane → StairLane) (r : Nat) : (s.modSLane i f).word r = s.word r := rfl
@[simp] theorem State.get_modSLane (s : State) (i : Nat) (f : StairLane → StairLane) (r : Fld) : (s.modSLane i f).get r = s.get r := rfl
@[simp] theorem State.getS_modSLane (s : State) (i : Nat) (f : StairLane → StairLane) (r : Fld) : (s.modSLane i f).getS r = s.getS r := rfl
@[simp] theorem State.flag_modSLane (s : State) (i : Nat) (f : StairLane → StairLane) (r : Fld) : (s.modSLane i f).flag r = s.flag r := rfl

/-! ### modTree -/

@[simp] theorem State.now_modTree (s : State) (f : TreeState → TreeState) : (s.modTree f).now = s.now := rfl
@[simp] theorem State.regs_modTree (s : State) (f : TreeState → TreeState) : (s.modTree f).regs = s.regs := rfl
@[simp] theorem State.mem_modTree (s : State) (f : TreeState → TreeState) : (s.modTree f).mem = s.mem := rfl
@[simp] theorem State.trims_modTree (s : State) (f : TreeState → TreeState) : (s.modTree f).trims = s.trims := rfl
@[simp] theorem State.trimsRx_modTree (s : State) (f : TreeState → TreeState) : (s.modTree f).trimsRx = s.trimsRx := rfl
@[simp] theorem State.trimsDelay_modTree (s : State) (f : TreeState → TreeState) : (s.modTree f).trimsDelay = s.trimsDelay := rfl
@[simp] theorem State.trimsTone_modTree (s : State) (f : TreeState → TreeState) : (s.modTree f).trimsTone = s.trimsTone := rfl
@[simp] theorem State.trimsLoaded_modTree (s : State) (f : TreeState → TreeState) : (s.modTree f).trimsLoaded = s.trimsLoaded := rfl
@[simp] theorem State.trimsBad_modTree (s : State) (f : TreeState → TreeState) : (s.modTree f).trimsBad = s.trimsBad := rfl
@[simp] theorem State.chans_modTree (s : State) (f : TreeState → TreeState) : (s.modTree f).chans = s.chans := rfl
@[simp] theorem State.sessions_modTree (s : State) (f : TreeState → TreeState) : (s.modTree f).sessions = s.sessions := rfl
@[simp] theorem State.keep_modTree (s : State) (f : TreeState → TreeState) : (s.modTree f).keep = s.keep := rfl
@[simp] theorem State.sec_modTree (s : State) (f : TreeState → TreeState) : (s.modTree f).sec = s.sec := rfl
@[simp] theorem State.image_modTree (s : State) (f : TreeState → TreeState) : (s.modTree f).image = s.image := rfl
@[simp] theorem State.boot_modTree (s : State) (f : TreeState → TreeState) : (s.modTree f).boot = s.boot := rfl
@[simp] theorem State.txn_modTree (s : State) (f : TreeState → TreeState) : (s.modTree f).txn = s.txn := rfl
@[simp] theorem State.radio_modTree (s : State) (f : TreeState → TreeState) : (s.modTree f).radio = s.radio := rfl
@[simp] theorem State.clock_modTree (s : State) (f : TreeState → TreeState) : (s.modTree f).clock = s.clock := rfl
@[simp] theorem State.log_modTree (s : State) (f : TreeState → TreeState) : (s.modTree f).log = s.log := rfl
@[simp] theorem State.intN_modTree (s : State) (f : TreeState → TreeState) : (s.modTree f).intN = s.intN := rfl
@[simp] theorem State.faultN_modTree (s : State) (f : TreeState → TreeState) : (s.modTree f).faultN = s.faultN := rfl
@[simp] theorem State.carriers_modTree (s : State) (f : TreeState → TreeState) : (s.modTree f).carriers = s.carriers := rfl
@[simp] theorem State.cap_modTree (s : State) (f : TreeState → TreeState) : (s.modTree f).cap = s.cap := rfl
@[simp] theorem State.obs_modTree (s : State) (f : TreeState → TreeState) : (s.modTree f).obs = s.obs := rfl
@[simp] theorem State.obsPath_modTree (s : State) (f : TreeState → TreeState) : (s.modTree f).obsPath = s.obsPath := rfl
@[simp] theorem State.gates_modTree (s : State) (f : TreeState → TreeState) : (s.modTree f).gates = s.gates := rfl
@[simp] theorem State.txBlocks_modTree (s : State) (f : TreeState → TreeState) : (s.modTree f).txBlocks = s.txBlocks := rfl
@[simp] theorem State.txDone_modTree (s : State) (f : TreeState → TreeState) : (s.modTree f).txDone = s.txDone := rfl
@[simp] theorem State.free_modTree (s : State) (f : TreeState → TreeState) : (s.modTree f).free = s.free := rfl
@[simp] theorem State.beam_modTree (s : State) (f : TreeState → TreeState) : (s.modTree f).beam = s.beam := rfl
@[simp] theorem State.fh_modTree (s : State) (f : TreeState → TreeState) : (s.modTree f).fh = s.fh := rfl
@[simp] theorem State.halls_modTree (s : State) (f : TreeState → TreeState) : (s.modTree f).halls = s.halls := rfl
@[simp] theorem State.alcoves_modTree (s : State) (f : TreeState → TreeState) : (s.modTree f).alcoves = s.alcoves := rfl
@[simp] theorem State.flits_modTree (s : State) (f : TreeState → TreeState) : (s.modTree f).flits = s.flits := rfl
@[simp] theorem State.routers_modTree (s : State) (f : TreeState → TreeState) : (s.modTree f).routers = s.routers := rfl
@[simp] theorem State.ota_modTree (s : State) (f : TreeState → TreeState) : (s.modTree f).ota = s.ota := rfl
@[simp] theorem State.recov_modTree (s : State) (f : TreeState → TreeState) : (s.modTree f).recov = s.recov := rfl
@[simp] theorem State.energy_modTree (s : State) (f : TreeState → TreeState) : (s.modTree f).energy = s.energy := rfl
@[simp] theorem State.hk_modTree (s : State) (f : TreeState → TreeState) : (s.modTree f).hk = s.hk := rfl
@[simp] theorem State.timers_modTree (s : State) (f : TreeState → TreeState) : (s.modTree f).timers = s.timers := rfl
@[simp] theorem State.out_modTree (s : State) (f : TreeState → TreeState) : (s.modTree f).out = s.out := rfl
@[simp] theorem State.pending_modTree (s : State) (f : TreeState → TreeState) : (s.modTree f).pending = s.pending := rfl
@[simp] theorem State.word_modTree (s : State) (f : TreeState → TreeState) (r : Nat) : (s.modTree f).word r = s.word r := rfl
@[simp] theorem State.get_modTree (s : State) (f : TreeState → TreeState) (r : Fld) : (s.modTree f).get r = s.get r := rfl
@[simp] theorem State.getS_modTree (s : State) (f : TreeState → TreeState) (r : Fld) : (s.modTree f).getS r = s.getS r := rfl
@[simp] theorem State.flag_modTree (s : State) (f : TreeState → TreeState) (r : Fld) : (s.modTree f).flag r = s.flag r := rfl

/-! ### addCommit -/

@[simp] theorem State.now_addCommit (s : State) (x : Commit) : (s.addCommit x).now = s.now := rfl
@[simp] theorem State.regs_addCommit (s : State) (x : Commit) : (s.addCommit x).regs = s.regs := rfl
@[simp] theorem State.mem_addCommit (s : State) (x : Commit) : (s.addCommit x).mem = s.mem := rfl
@[simp] theorem State.trims_addCommit (s : State) (x : Commit) : (s.addCommit x).trims = s.trims := rfl
@[simp] theorem State.trimsRx_addCommit (s : State) (x : Commit) : (s.addCommit x).trimsRx = s.trimsRx := rfl
@[simp] theorem State.trimsDelay_addCommit (s : State) (x : Commit) : (s.addCommit x).trimsDelay = s.trimsDelay := rfl
@[simp] theorem State.trimsTone_addCommit (s : State) (x : Commit) : (s.addCommit x).trimsTone = s.trimsTone := rfl
@[simp] theorem State.trimsLoaded_addCommit (s : State) (x : Commit) : (s.addCommit x).trimsLoaded = s.trimsLoaded := rfl
@[simp] theorem State.trimsBad_addCommit (s : State) (x : Commit) : (s.addCommit x).trimsBad = s.trimsBad := rfl
@[simp] theorem State.chans_addCommit (s : State) (x : Commit) : (s.addCommit x).chans = s.chans := rfl
@[simp] theorem State.sessions_addCommit (s : State) (x : Commit) : (s.addCommit x).sessions = s.sessions := rfl
@[simp] theorem State.keep_addCommit (s : State) (x : Commit) : (s.addCommit x).keep = s.keep := rfl
@[simp] theorem State.sec_addCommit (s : State) (x : Commit) : (s.addCommit x).sec = s.sec := rfl
@[simp] theorem State.image_addCommit (s : State) (x : Commit) : (s.addCommit x).image = s.image := rfl
@[simp] theorem State.boot_addCommit (s : State) (x : Commit) : (s.addCommit x).boot = s.boot := rfl
@[simp] theorem State.radio_addCommit (s : State) (x : Commit) : (s.addCommit x).radio = s.radio := rfl
@[simp] theorem State.clock_addCommit (s : State) (x : Commit) : (s.addCommit x).clock = s.clock := rfl
@[simp] theorem State.log_addCommit (s : State) (x : Commit) : (s.addCommit x).log = s.log := rfl
@[simp] theorem State.intN_addCommit (s : State) (x : Commit) : (s.addCommit x).intN = s.intN := rfl
@[simp] theorem State.faultN_addCommit (s : State) (x : Commit) : (s.addCommit x).faultN = s.faultN := rfl
@[simp] theorem State.carriers_addCommit (s : State) (x : Commit) : (s.addCommit x).carriers = s.carriers := rfl
@[simp] theorem State.cap_addCommit (s : State) (x : Commit) : (s.addCommit x).cap = s.cap := rfl
@[simp] theorem State.obs_addCommit (s : State) (x : Commit) : (s.addCommit x).obs = s.obs := rfl
@[simp] theorem State.obsPath_addCommit (s : State) (x : Commit) : (s.addCommit x).obsPath = s.obsPath := rfl
@[simp] theorem State.gates_addCommit (s : State) (x : Commit) : (s.addCommit x).gates = s.gates := rfl
@[simp] theorem State.txBlocks_addCommit (s : State) (x : Commit) : (s.addCommit x).txBlocks = s.txBlocks := rfl
@[simp] theorem State.txDone_addCommit (s : State) (x : Commit) : (s.addCommit x).txDone = s.txDone := rfl
@[simp] theorem State.free_addCommit (s : State) (x : Commit) : (s.addCommit x).free = s.free := rfl
@[simp] theorem State.beam_addCommit (s : State) (x : Commit) : (s.addCommit x).beam = s.beam := rfl
@[simp] theorem State.fh_addCommit (s : State) (x : Commit) : (s.addCommit x).fh = s.fh := rfl
@[simp] theorem State.halls_addCommit (s : State) (x : Commit) : (s.addCommit x).halls = s.halls := rfl
@[simp] theorem State.alcoves_addCommit (s : State) (x : Commit) : (s.addCommit x).alcoves = s.alcoves := rfl
@[simp] theorem State.flits_addCommit (s : State) (x : Commit) : (s.addCommit x).flits = s.flits := rfl
@[simp] theorem State.routers_addCommit (s : State) (x : Commit) : (s.addCommit x).routers = s.routers := rfl
@[simp] theorem State.stair_addCommit (s : State) (x : Commit) : (s.addCommit x).stair = s.stair := rfl
@[simp] theorem State.ota_addCommit (s : State) (x : Commit) : (s.addCommit x).ota = s.ota := rfl
@[simp] theorem State.recov_addCommit (s : State) (x : Commit) : (s.addCommit x).recov = s.recov := rfl
@[simp] theorem State.energy_addCommit (s : State) (x : Commit) : (s.addCommit x).energy = s.energy := rfl
@[simp] theorem State.hk_addCommit (s : State) (x : Commit) : (s.addCommit x).hk = s.hk := rfl
@[simp] theorem State.timers_addCommit (s : State) (x : Commit) : (s.addCommit x).timers = s.timers := rfl
@[simp] theorem State.out_addCommit (s : State) (x : Commit) : (s.addCommit x).out = s.out := rfl
@[simp] theorem State.pending_addCommit (s : State) (x : Commit) : (s.addCommit x).pending = s.pending := rfl
@[simp] theorem State.word_addCommit (s : State) (x : Commit) (r : Nat) : (s.addCommit x).word r = s.word r := rfl
@[simp] theorem State.get_addCommit (s : State) (x : Commit) (r : Fld) : (s.addCommit x).get r = s.get r := rfl
@[simp] theorem State.getS_addCommit (s : State) (x : Commit) (r : Fld) : (s.addCommit x).getS r = s.getS r := rfl
@[simp] theorem State.flag_addCommit (s : State) (x : Commit) (r : Fld) : (s.addCommit x).flag r = s.flag r := rfl

/-! ### addGate -/

@[simp] theorem State.now_addGate (s : State) (g : GateEntry) : (s.addGate g).now = s.now := rfl
@[simp] theorem State.regs_addGate (s : State) (g : GateEntry) : (s.addGate g).regs = s.regs := rfl
@[simp] theorem State.mem_addGate (s : State) (g : GateEntry) : (s.addGate g).mem = s.mem := rfl
@[simp] theorem State.trims_addGate (s : State) (g : GateEntry) : (s.addGate g).trims = s.trims := rfl
@[simp] theorem State.trimsRx_addGate (s : State) (g : GateEntry) : (s.addGate g).trimsRx = s.trimsRx := rfl
@[simp] theorem State.trimsDelay_addGate (s : State) (g : GateEntry) : (s.addGate g).trimsDelay = s.trimsDelay := rfl
@[simp] theorem State.trimsTone_addGate (s : State) (g : GateEntry) : (s.addGate g).trimsTone = s.trimsTone := rfl
@[simp] theorem State.trimsLoaded_addGate (s : State) (g : GateEntry) : (s.addGate g).trimsLoaded = s.trimsLoaded := rfl
@[simp] theorem State.trimsBad_addGate (s : State) (g : GateEntry) : (s.addGate g).trimsBad = s.trimsBad := rfl
@[simp] theorem State.chans_addGate (s : State) (g : GateEntry) : (s.addGate g).chans = s.chans := rfl
@[simp] theorem State.sessions_addGate (s : State) (g : GateEntry) : (s.addGate g).sessions = s.sessions := rfl
@[simp] theorem State.keep_addGate (s : State) (g : GateEntry) : (s.addGate g).keep = s.keep := rfl
@[simp] theorem State.sec_addGate (s : State) (g : GateEntry) : (s.addGate g).sec = s.sec := rfl
@[simp] theorem State.image_addGate (s : State) (g : GateEntry) : (s.addGate g).image = s.image := rfl
@[simp] theorem State.boot_addGate (s : State) (g : GateEntry) : (s.addGate g).boot = s.boot := rfl
@[simp] theorem State.txn_addGate (s : State) (g : GateEntry) : (s.addGate g).txn = s.txn := rfl
@[simp] theorem State.radio_addGate (s : State) (g : GateEntry) : (s.addGate g).radio = s.radio := rfl
@[simp] theorem State.clock_addGate (s : State) (g : GateEntry) : (s.addGate g).clock = s.clock := rfl
@[simp] theorem State.log_addGate (s : State) (g : GateEntry) : (s.addGate g).log = s.log := rfl
@[simp] theorem State.intN_addGate (s : State) (g : GateEntry) : (s.addGate g).intN = s.intN := rfl
@[simp] theorem State.faultN_addGate (s : State) (g : GateEntry) : (s.addGate g).faultN = s.faultN := rfl
@[simp] theorem State.carriers_addGate (s : State) (g : GateEntry) : (s.addGate g).carriers = s.carriers := rfl
@[simp] theorem State.cap_addGate (s : State) (g : GateEntry) : (s.addGate g).cap = s.cap := rfl
@[simp] theorem State.obs_addGate (s : State) (g : GateEntry) : (s.addGate g).obs = s.obs := rfl
@[simp] theorem State.obsPath_addGate (s : State) (g : GateEntry) : (s.addGate g).obsPath = s.obsPath := rfl
@[simp] theorem State.txBlocks_addGate (s : State) (g : GateEntry) : (s.addGate g).txBlocks = s.txBlocks := rfl
@[simp] theorem State.txDone_addGate (s : State) (g : GateEntry) : (s.addGate g).txDone = s.txDone := rfl
@[simp] theorem State.free_addGate (s : State) (g : GateEntry) : (s.addGate g).free = s.free := rfl
@[simp] theorem State.beam_addGate (s : State) (g : GateEntry) : (s.addGate g).beam = s.beam := rfl
@[simp] theorem State.fh_addGate (s : State) (g : GateEntry) : (s.addGate g).fh = s.fh := rfl
@[simp] theorem State.halls_addGate (s : State) (g : GateEntry) : (s.addGate g).halls = s.halls := rfl
@[simp] theorem State.alcoves_addGate (s : State) (g : GateEntry) : (s.addGate g).alcoves = s.alcoves := rfl
@[simp] theorem State.flits_addGate (s : State) (g : GateEntry) : (s.addGate g).flits = s.flits := rfl
@[simp] theorem State.routers_addGate (s : State) (g : GateEntry) : (s.addGate g).routers = s.routers := rfl
@[simp] theorem State.stair_addGate (s : State) (g : GateEntry) : (s.addGate g).stair = s.stair := rfl
@[simp] theorem State.ota_addGate (s : State) (g : GateEntry) : (s.addGate g).ota = s.ota := rfl
@[simp] theorem State.recov_addGate (s : State) (g : GateEntry) : (s.addGate g).recov = s.recov := rfl
@[simp] theorem State.energy_addGate (s : State) (g : GateEntry) : (s.addGate g).energy = s.energy := rfl
@[simp] theorem State.hk_addGate (s : State) (g : GateEntry) : (s.addGate g).hk = s.hk := rfl
@[simp] theorem State.timers_addGate (s : State) (g : GateEntry) : (s.addGate g).timers = s.timers := rfl
@[simp] theorem State.out_addGate (s : State) (g : GateEntry) : (s.addGate g).out = s.out := rfl
@[simp] theorem State.pending_addGate (s : State) (g : GateEntry) : (s.addGate g).pending = s.pending := rfl

/-! ### setWindow -/

@[simp] theorem State.now_setWindow (s : State) (n : Nat) (w : Window) : (s.setWindow n w).now = s.now := rfl
@[simp] theorem State.regs_setWindow (s : State) (n : Nat) (w : Window) : (s.setWindow n w).regs = s.regs := rfl
@[simp] theorem State.mem_setWindow (s : State) (n : Nat) (w : Window) : (s.setWindow n w).mem = s.mem := rfl
@[simp] theorem State.trims_setWindow (s : State) (n : Nat) (w : Window) : (s.setWindow n w).trims = s.trims := rfl
@[simp] theorem State.trimsRx_setWindow (s : State) (n : Nat) (w : Window) : (s.setWindow n w).trimsRx = s.trimsRx := rfl
@[simp] theorem State.trimsDelay_setWindow (s : State) (n : Nat) (w : Window) : (s.setWindow n w).trimsDelay = s.trimsDelay := rfl
@[simp] theorem State.trimsTone_setWindow (s : State) (n : Nat) (w : Window) : (s.setWindow n w).trimsTone = s.trimsTone := rfl
@[simp] theorem State.trimsLoaded_setWindow (s : State) (n : Nat) (w : Window) : (s.setWindow n w).trimsLoaded = s.trimsLoaded := rfl
@[simp] theorem State.trimsBad_setWindow (s : State) (n : Nat) (w : Window) : (s.setWindow n w).trimsBad = s.trimsBad := rfl
@[simp] theorem State.chans_setWindow (s : State) (n : Nat) (w : Window) : (s.setWindow n w).chans = s.chans := rfl
@[simp] theorem State.sessions_setWindow (s : State) (n : Nat) (w : Window) : (s.setWindow n w).sessions = s.sessions := rfl
@[simp] theorem State.keep_setWindow (s : State) (n : Nat) (w : Window) : (s.setWindow n w).keep = s.keep := rfl
@[simp] theorem State.sec_setWindow (s : State) (n : Nat) (w : Window) : (s.setWindow n w).sec = s.sec := rfl
@[simp] theorem State.image_setWindow (s : State) (n : Nat) (w : Window) : (s.setWindow n w).image = s.image := rfl
@[simp] theorem State.boot_setWindow (s : State) (n : Nat) (w : Window) : (s.setWindow n w).boot = s.boot := rfl
@[simp] theorem State.txn_setWindow (s : State) (n : Nat) (w : Window) : (s.setWindow n w).txn = s.txn := rfl
@[simp] theorem State.radio_setWindow (s : State) (n : Nat) (w : Window) : (s.setWindow n w).radio = s.radio := rfl
@[simp] theorem State.clock_setWindow (s : State) (n : Nat) (w : Window) : (s.setWindow n w).clock = s.clock := rfl
@[simp] theorem State.log_setWindow (s : State) (n : Nat) (w : Window) : (s.setWindow n w).log = s.log := rfl
@[simp] theorem State.intN_setWindow (s : State) (n : Nat) (w : Window) : (s.setWindow n w).intN = s.intN := rfl
@[simp] theorem State.faultN_setWindow (s : State) (n : Nat) (w : Window) : (s.setWindow n w).faultN = s.faultN := rfl
@[simp] theorem State.carriers_setWindow (s : State) (n : Nat) (w : Window) : (s.setWindow n w).carriers = s.carriers := rfl
@[simp] theorem State.cap_setWindow (s : State) (n : Nat) (w : Window) : (s.setWindow n w).cap = s.cap := rfl
@[simp] theorem State.obs_setWindow (s : State) (n : Nat) (w : Window) : (s.setWindow n w).obs = s.obs := rfl
@[simp] theorem State.obsPath_setWindow (s : State) (n : Nat) (w : Window) : (s.setWindow n w).obsPath = s.obsPath := rfl
@[simp] theorem State.gates_setWindow (s : State) (n : Nat) (w : Window) : (s.setWindow n w).gates = s.gates := rfl
@[simp] theorem State.txBlocks_setWindow (s : State) (n : Nat) (w : Window) : (s.setWindow n w).txBlocks = s.txBlocks := rfl
@[simp] theorem State.txDone_setWindow (s : State) (n : Nat) (w : Window) : (s.setWindow n w).txDone = s.txDone := rfl
@[simp] theorem State.free_setWindow (s : State) (n : Nat) (w : Window) : (s.setWindow n w).free = s.free := rfl
@[simp] theorem State.beam_setWindow (s : State) (n : Nat) (w : Window) : (s.setWindow n w).beam = s.beam := rfl
@[simp] theorem State.halls_setWindow (s : State) (n : Nat) (w : Window) : (s.setWindow n w).halls = s.halls := rfl
@[simp] theorem State.alcoves_setWindow (s : State) (n : Nat) (w : Window) : (s.setWindow n w).alcoves = s.alcoves := rfl
@[simp] theorem State.flits_setWindow (s : State) (n : Nat) (w : Window) : (s.setWindow n w).flits = s.flits := rfl
@[simp] theorem State.routers_setWindow (s : State) (n : Nat) (w : Window) : (s.setWindow n w).routers = s.routers := rfl
@[simp] theorem State.stair_setWindow (s : State) (n : Nat) (w : Window) : (s.setWindow n w).stair = s.stair := rfl
@[simp] theorem State.ota_setWindow (s : State) (n : Nat) (w : Window) : (s.setWindow n w).ota = s.ota := rfl
@[simp] theorem State.recov_setWindow (s : State) (n : Nat) (w : Window) : (s.setWindow n w).recov = s.recov := rfl
@[simp] theorem State.energy_setWindow (s : State) (n : Nat) (w : Window) : (s.setWindow n w).energy = s.energy := rfl
@[simp] theorem State.hk_setWindow (s : State) (n : Nat) (w : Window) : (s.setWindow n w).hk = s.hk := rfl
@[simp] theorem State.timers_setWindow (s : State) (n : Nat) (w : Window) : (s.setWindow n w).timers = s.timers := rfl
@[simp] theorem State.out_setWindow (s : State) (n : Nat) (w : Window) : (s.setWindow n w).out = s.out := rfl
@[simp] theorem State.pending_setWindow (s : State) (n : Nat) (w : Window) : (s.setWindow n w).pending = s.pending := rfl

/-! ### setSum -/

@[simp] theorem State.now_setSum (s : State) (x : ChunkSum) : (s.setSum x).now = s.now := rfl
@[simp] theorem State.regs_setSum (s : State) (x : ChunkSum) : (s.setSum x).regs = s.regs := rfl
@[simp] theorem State.mem_setSum (s : State) (x : ChunkSum) : (s.setSum x).mem = s.mem := rfl
@[simp] theorem State.trims_setSum (s : State) (x : ChunkSum) : (s.setSum x).trims = s.trims := rfl
@[simp] theorem State.trimsRx_setSum (s : State) (x : ChunkSum) : (s.setSum x).trimsRx = s.trimsRx := rfl
@[simp] theorem State.trimsDelay_setSum (s : State) (x : ChunkSum) : (s.setSum x).trimsDelay = s.trimsDelay := rfl
@[simp] theorem State.trimsTone_setSum (s : State) (x : ChunkSum) : (s.setSum x).trimsTone = s.trimsTone := rfl
@[simp] theorem State.trimsLoaded_setSum (s : State) (x : ChunkSum) : (s.setSum x).trimsLoaded = s.trimsLoaded := rfl
@[simp] theorem State.trimsBad_setSum (s : State) (x : ChunkSum) : (s.setSum x).trimsBad = s.trimsBad := rfl
@[simp] theorem State.chans_setSum (s : State) (x : ChunkSum) : (s.setSum x).chans = s.chans := rfl
@[simp] theorem State.sessions_setSum (s : State) (x : ChunkSum) : (s.setSum x).sessions = s.sessions := rfl
@[simp] theorem State.keep_setSum (s : State) (x : ChunkSum) : (s.setSum x).keep = s.keep := rfl
@[simp] theorem State.sec_setSum (s : State) (x : ChunkSum) : (s.setSum x).sec = s.sec := rfl
@[simp] theorem State.image_setSum (s : State) (x : ChunkSum) : (s.setSum x).image = s.image := rfl
@[simp] theorem State.boot_setSum (s : State) (x : ChunkSum) : (s.setSum x).boot = s.boot := rfl
@[simp] theorem State.txn_setSum (s : State) (x : ChunkSum) : (s.setSum x).txn = s.txn := rfl
@[simp] theorem State.radio_setSum (s : State) (x : ChunkSum) : (s.setSum x).radio = s.radio := rfl
@[simp] theorem State.clock_setSum (s : State) (x : ChunkSum) : (s.setSum x).clock = s.clock := rfl
@[simp] theorem State.log_setSum (s : State) (x : ChunkSum) : (s.setSum x).log = s.log := rfl
@[simp] theorem State.intN_setSum (s : State) (x : ChunkSum) : (s.setSum x).intN = s.intN := rfl
@[simp] theorem State.faultN_setSum (s : State) (x : ChunkSum) : (s.setSum x).faultN = s.faultN := rfl
@[simp] theorem State.carriers_setSum (s : State) (x : ChunkSum) : (s.setSum x).carriers = s.carriers := rfl
@[simp] theorem State.cap_setSum (s : State) (x : ChunkSum) : (s.setSum x).cap = s.cap := rfl
@[simp] theorem State.obs_setSum (s : State) (x : ChunkSum) : (s.setSum x).obs = s.obs := rfl
@[simp] theorem State.obsPath_setSum (s : State) (x : ChunkSum) : (s.setSum x).obsPath = s.obsPath := rfl
@[simp] theorem State.gates_setSum (s : State) (x : ChunkSum) : (s.setSum x).gates = s.gates := rfl
@[simp] theorem State.txBlocks_setSum (s : State) (x : ChunkSum) : (s.setSum x).txBlocks = s.txBlocks := rfl
@[simp] theorem State.txDone_setSum (s : State) (x : ChunkSum) : (s.setSum x).txDone = s.txDone := rfl
@[simp] theorem State.free_setSum (s : State) (x : ChunkSum) : (s.setSum x).free = s.free := rfl
@[simp] theorem State.beam_setSum (s : State) (x : ChunkSum) : (s.setSum x).beam = s.beam := rfl
@[simp] theorem State.fh_setSum (s : State) (x : ChunkSum) : (s.setSum x).fh = s.fh := rfl
@[simp] theorem State.halls_setSum (s : State) (x : ChunkSum) : (s.setSum x).halls = s.halls := rfl
@[simp] theorem State.alcoves_setSum (s : State) (x : ChunkSum) : (s.setSum x).alcoves = s.alcoves := rfl
@[simp] theorem State.flits_setSum (s : State) (x : ChunkSum) : (s.setSum x).flits = s.flits := rfl
@[simp] theorem State.routers_setSum (s : State) (x : ChunkSum) : (s.setSum x).routers = s.routers := rfl
@[simp] theorem State.ota_setSum (s : State) (x : ChunkSum) : (s.setSum x).ota = s.ota := rfl
@[simp] theorem State.recov_setSum (s : State) (x : ChunkSum) : (s.setSum x).recov = s.recov := rfl
@[simp] theorem State.energy_setSum (s : State) (x : ChunkSum) : (s.setSum x).energy = s.energy := rfl
@[simp] theorem State.hk_setSum (s : State) (x : ChunkSum) : (s.setSum x).hk = s.hk := rfl
@[simp] theorem State.timers_setSum (s : State) (x : ChunkSum) : (s.setSum x).timers = s.timers := rfl
@[simp] theorem State.out_setSum (s : State) (x : ChunkSum) : (s.setSum x).out = s.out := rfl
@[simp] theorem State.pending_setSum (s : State) (x : ChunkSum) : (s.setSum x).pending = s.pending := rfl

/-! ### setEpoch -/

@[simp] theorem State.now_setEpoch (s : State) (c : Nat) (e : Epoch) : (s.setEpoch c e).now = s.now := rfl
@[simp] theorem State.regs_setEpoch (s : State) (c : Nat) (e : Epoch) : (s.setEpoch c e).regs = s.regs := rfl
@[simp] theorem State.mem_setEpoch (s : State) (c : Nat) (e : Epoch) : (s.setEpoch c e).mem = s.mem := rfl
@[simp] theorem State.trims_setEpoch (s : State) (c : Nat) (e : Epoch) : (s.setEpoch c e).trims = s.trims := rfl
@[simp] theorem State.trimsRx_setEpoch (s : State) (c : Nat) (e : Epoch) : (s.setEpoch c e).trimsRx = s.trimsRx := rfl
@[simp] theorem State.trimsDelay_setEpoch (s : State) (c : Nat) (e : Epoch) : (s.setEpoch c e).trimsDelay = s.trimsDelay := rfl
@[simp] theorem State.trimsTone_setEpoch (s : State) (c : Nat) (e : Epoch) : (s.setEpoch c e).trimsTone = s.trimsTone := rfl
@[simp] theorem State.trimsLoaded_setEpoch (s : State) (c : Nat) (e : Epoch) : (s.setEpoch c e).trimsLoaded = s.trimsLoaded := rfl
@[simp] theorem State.trimsBad_setEpoch (s : State) (c : Nat) (e : Epoch) : (s.setEpoch c e).trimsBad = s.trimsBad := rfl
@[simp] theorem State.chans_setEpoch (s : State) (c : Nat) (e : Epoch) : (s.setEpoch c e).chans = s.chans := rfl
@[simp] theorem State.sessions_setEpoch (s : State) (c : Nat) (e : Epoch) : (s.setEpoch c e).sessions = s.sessions := rfl
@[simp] theorem State.keep_setEpoch (s : State) (c : Nat) (e : Epoch) : (s.setEpoch c e).keep = s.keep := rfl
@[simp] theorem State.sec_setEpoch (s : State) (c : Nat) (e : Epoch) : (s.setEpoch c e).sec = s.sec := rfl
@[simp] theorem State.image_setEpoch (s : State) (c : Nat) (e : Epoch) : (s.setEpoch c e).image = s.image := rfl
@[simp] theorem State.boot_setEpoch (s : State) (c : Nat) (e : Epoch) : (s.setEpoch c e).boot = s.boot := rfl
@[simp] theorem State.txn_setEpoch (s : State) (c : Nat) (e : Epoch) : (s.setEpoch c e).txn = s.txn := rfl
@[simp] theorem State.radio_setEpoch (s : State) (c : Nat) (e : Epoch) : (s.setEpoch c e).radio = s.radio := rfl
@[simp] theorem State.clock_setEpoch (s : State) (c : Nat) (e : Epoch) : (s.setEpoch c e).clock = s.clock := rfl
@[simp] theorem State.log_setEpoch (s : State) (c : Nat) (e : Epoch) : (s.setEpoch c e).log = s.log := rfl
@[simp] theorem State.intN_setEpoch (s : State) (c : Nat) (e : Epoch) : (s.setEpoch c e).intN = s.intN := rfl
@[simp] theorem State.faultN_setEpoch (s : State) (c : Nat) (e : Epoch) : (s.setEpoch c e).faultN = s.faultN := rfl
@[simp] theorem State.carriers_setEpoch (s : State) (c : Nat) (e : Epoch) : (s.setEpoch c e).carriers = s.carriers := rfl
@[simp] theorem State.cap_setEpoch (s : State) (c : Nat) (e : Epoch) : (s.setEpoch c e).cap = s.cap := rfl
@[simp] theorem State.obs_setEpoch (s : State) (c : Nat) (e : Epoch) : (s.setEpoch c e).obs = s.obs := rfl
@[simp] theorem State.obsPath_setEpoch (s : State) (c : Nat) (e : Epoch) : (s.setEpoch c e).obsPath = s.obsPath := rfl
@[simp] theorem State.gates_setEpoch (s : State) (c : Nat) (e : Epoch) : (s.setEpoch c e).gates = s.gates := rfl
@[simp] theorem State.txBlocks_setEpoch (s : State) (c : Nat) (e : Epoch) : (s.setEpoch c e).txBlocks = s.txBlocks := rfl
@[simp] theorem State.txDone_setEpoch (s : State) (c : Nat) (e : Epoch) : (s.setEpoch c e).txDone = s.txDone := rfl
@[simp] theorem State.free_setEpoch (s : State) (c : Nat) (e : Epoch) : (s.setEpoch c e).free = s.free := rfl
@[simp] theorem State.fh_setEpoch (s : State) (c : Nat) (e : Epoch) : (s.setEpoch c e).fh = s.fh := rfl
@[simp] theorem State.halls_setEpoch (s : State) (c : Nat) (e : Epoch) : (s.setEpoch c e).halls = s.halls := rfl
@[simp] theorem State.alcoves_setEpoch (s : State) (c : Nat) (e : Epoch) : (s.setEpoch c e).alcoves = s.alcoves := rfl
@[simp] theorem State.flits_setEpoch (s : State) (c : Nat) (e : Epoch) : (s.setEpoch c e).flits = s.flits := rfl
@[simp] theorem State.routers_setEpoch (s : State) (c : Nat) (e : Epoch) : (s.setEpoch c e).routers = s.routers := rfl
@[simp] theorem State.stair_setEpoch (s : State) (c : Nat) (e : Epoch) : (s.setEpoch c e).stair = s.stair := rfl
@[simp] theorem State.ota_setEpoch (s : State) (c : Nat) (e : Epoch) : (s.setEpoch c e).ota = s.ota := rfl
@[simp] theorem State.recov_setEpoch (s : State) (c : Nat) (e : Epoch) : (s.setEpoch c e).recov = s.recov := rfl
@[simp] theorem State.energy_setEpoch (s : State) (c : Nat) (e : Epoch) : (s.setEpoch c e).energy = s.energy := rfl
@[simp] theorem State.hk_setEpoch (s : State) (c : Nat) (e : Epoch) : (s.setEpoch c e).hk = s.hk := rfl
@[simp] theorem State.timers_setEpoch (s : State) (c : Nat) (e : Epoch) : (s.setEpoch c e).timers = s.timers := rfl
@[simp] theorem State.out_setEpoch (s : State) (c : Nat) (e : Epoch) : (s.setEpoch c e).out = s.out := rfl
@[simp] theorem State.pending_setEpoch (s : State) (c : Nat) (e : Epoch) : (s.setEpoch c e).pending = s.pending := rfl

/-- What recording the settings in force can do: nothing, or a new list of them. -/
theorem State.recordShot_eq (s : State) : s.recordShot = s ∨ ∃ l, s.recordShot = { s with radio := { s.radio with shots := l } } := by
  unfold State.recordShot
  split
  · exact .inr ⟨_, rfl⟩
  · exact .inl rfl

/-! ### recordShot -/

@[simp] theorem State.now_recordShot (s : State) : s.recordShot.now = s.now := by obtain h | ⟨_, h⟩ := s.recordShot_eq <;> rw [h]
@[simp] theorem State.regs_recordShot (s : State) : s.recordShot.regs = s.regs := by obtain h | ⟨_, h⟩ := s.recordShot_eq <;> rw [h]
@[simp] theorem State.mem_recordShot (s : State) : s.recordShot.mem = s.mem := by obtain h | ⟨_, h⟩ := s.recordShot_eq <;> rw [h]
@[simp] theorem State.trims_recordShot (s : State) : s.recordShot.trims = s.trims := by obtain h | ⟨_, h⟩ := s.recordShot_eq <;> rw [h]
@[simp] theorem State.trimsRx_recordShot (s : State) : s.recordShot.trimsRx = s.trimsRx := by obtain h | ⟨_, h⟩ := s.recordShot_eq <;> rw [h]
@[simp] theorem State.trimsDelay_recordShot (s : State) : s.recordShot.trimsDelay = s.trimsDelay := by obtain h | ⟨_, h⟩ := s.recordShot_eq <;> rw [h]
@[simp] theorem State.trimsTone_recordShot (s : State) : s.recordShot.trimsTone = s.trimsTone := by obtain h | ⟨_, h⟩ := s.recordShot_eq <;> rw [h]
@[simp] theorem State.trimsLoaded_recordShot (s : State) : s.recordShot.trimsLoaded = s.trimsLoaded := by obtain h | ⟨_, h⟩ := s.recordShot_eq <;> rw [h]
@[simp] theorem State.trimsBad_recordShot (s : State) : s.recordShot.trimsBad = s.trimsBad := by obtain h | ⟨_, h⟩ := s.recordShot_eq <;> rw [h]
@[simp] theorem State.chans_recordShot (s : State) : s.recordShot.chans = s.chans := by obtain h | ⟨_, h⟩ := s.recordShot_eq <;> rw [h]
@[simp] theorem State.sessions_recordShot (s : State) : s.recordShot.sessions = s.sessions := by obtain h | ⟨_, h⟩ := s.recordShot_eq <;> rw [h]
@[simp] theorem State.keep_recordShot (s : State) : s.recordShot.keep = s.keep := by obtain h | ⟨_, h⟩ := s.recordShot_eq <;> rw [h]
@[simp] theorem State.sec_recordShot (s : State) : s.recordShot.sec = s.sec := by obtain h | ⟨_, h⟩ := s.recordShot_eq <;> rw [h]
@[simp] theorem State.image_recordShot (s : State) : s.recordShot.image = s.image := by obtain h | ⟨_, h⟩ := s.recordShot_eq <;> rw [h]
@[simp] theorem State.boot_recordShot (s : State) : s.recordShot.boot = s.boot := by obtain h | ⟨_, h⟩ := s.recordShot_eq <;> rw [h]
@[simp] theorem State.txn_recordShot (s : State) : s.recordShot.txn = s.txn := by obtain h | ⟨_, h⟩ := s.recordShot_eq <;> rw [h]
@[simp] theorem State.clock_recordShot (s : State) : s.recordShot.clock = s.clock := by obtain h | ⟨_, h⟩ := s.recordShot_eq <;> rw [h]
@[simp] theorem State.log_recordShot (s : State) : s.recordShot.log = s.log := by obtain h | ⟨_, h⟩ := s.recordShot_eq <;> rw [h]
@[simp] theorem State.intN_recordShot (s : State) : s.recordShot.intN = s.intN := by obtain h | ⟨_, h⟩ := s.recordShot_eq <;> rw [h]
@[simp] theorem State.faultN_recordShot (s : State) : s.recordShot.faultN = s.faultN := by obtain h | ⟨_, h⟩ := s.recordShot_eq <;> rw [h]
@[simp] theorem State.carriers_recordShot (s : State) : s.recordShot.carriers = s.carriers := by obtain h | ⟨_, h⟩ := s.recordShot_eq <;> rw [h]
@[simp] theorem State.cap_recordShot (s : State) : s.recordShot.cap = s.cap := by obtain h | ⟨_, h⟩ := s.recordShot_eq <;> rw [h]
@[simp] theorem State.obs_recordShot (s : State) : s.recordShot.obs = s.obs := by obtain h | ⟨_, h⟩ := s.recordShot_eq <;> rw [h]
@[simp] theorem State.obsPath_recordShot (s : State) : s.recordShot.obsPath = s.obsPath := by obtain h | ⟨_, h⟩ := s.recordShot_eq <;> rw [h]
@[simp] theorem State.gates_recordShot (s : State) : s.recordShot.gates = s.gates := by obtain h | ⟨_, h⟩ := s.recordShot_eq <;> rw [h]
@[simp] theorem State.txBlocks_recordShot (s : State) : s.recordShot.txBlocks = s.txBlocks := by obtain h | ⟨_, h⟩ := s.recordShot_eq <;> rw [h]
@[simp] theorem State.txDone_recordShot (s : State) : s.recordShot.txDone = s.txDone := by obtain h | ⟨_, h⟩ := s.recordShot_eq <;> rw [h]
@[simp] theorem State.free_recordShot (s : State) : s.recordShot.free = s.free := by obtain h | ⟨_, h⟩ := s.recordShot_eq <;> rw [h]
@[simp] theorem State.beam_recordShot (s : State) : s.recordShot.beam = s.beam := by obtain h | ⟨_, h⟩ := s.recordShot_eq <;> rw [h]
@[simp] theorem State.fh_recordShot (s : State) : s.recordShot.fh = s.fh := by obtain h | ⟨_, h⟩ := s.recordShot_eq <;> rw [h]
@[simp] theorem State.halls_recordShot (s : State) : s.recordShot.halls = s.halls := by obtain h | ⟨_, h⟩ := s.recordShot_eq <;> rw [h]
@[simp] theorem State.alcoves_recordShot (s : State) : s.recordShot.alcoves = s.alcoves := by obtain h | ⟨_, h⟩ := s.recordShot_eq <;> rw [h]
@[simp] theorem State.flits_recordShot (s : State) : s.recordShot.flits = s.flits := by obtain h | ⟨_, h⟩ := s.recordShot_eq <;> rw [h]
@[simp] theorem State.routers_recordShot (s : State) : s.recordShot.routers = s.routers := by obtain h | ⟨_, h⟩ := s.recordShot_eq <;> rw [h]
@[simp] theorem State.stair_recordShot (s : State) : s.recordShot.stair = s.stair := by obtain h | ⟨_, h⟩ := s.recordShot_eq <;> rw [h]
@[simp] theorem State.ota_recordShot (s : State) : s.recordShot.ota = s.ota := by obtain h | ⟨_, h⟩ := s.recordShot_eq <;> rw [h]
@[simp] theorem State.recov_recordShot (s : State) : s.recordShot.recov = s.recov := by obtain h | ⟨_, h⟩ := s.recordShot_eq <;> rw [h]
@[simp] theorem State.energy_recordShot (s : State) : s.recordShot.energy = s.energy := by obtain h | ⟨_, h⟩ := s.recordShot_eq <;> rw [h]
@[simp] theorem State.hk_recordShot (s : State) : s.recordShot.hk = s.hk := by obtain h | ⟨_, h⟩ := s.recordShot_eq <;> rw [h]
@[simp] theorem State.timers_recordShot (s : State) : s.recordShot.timers = s.timers := by obtain h | ⟨_, h⟩ := s.recordShot_eq <;> rw [h]
@[simp] theorem State.out_recordShot (s : State) : s.recordShot.out = s.out := by obtain h | ⟨_, h⟩ := s.recordShot_eq <;> rw [h]
@[simp] theorem State.pending_recordShot (s : State) : s.recordShot.pending = s.pending := by obtain h | ⟨_, h⟩ := s.recordShot_eq <;> rw [h]

/-! ### settled -/

@[simp] theorem State.now_settled (s : State) : s.settled.now = s.now := by simp [State.settled]
@[simp] theorem State.regs_settled (s : State) : s.settled.regs = s.regs := by simp [State.settled]
@[simp] theorem State.mem_settled (s : State) : s.settled.mem = s.mem := by simp [State.settled]
@[simp] theorem State.trims_settled (s : State) : s.settled.trims = s.trims := by simp [State.settled]
@[simp] theorem State.trimsRx_settled (s : State) : s.settled.trimsRx = s.trimsRx := by simp [State.settled]
@[simp] theorem State.trimsDelay_settled (s : State) : s.settled.trimsDelay = s.trimsDelay := by simp [State.settled]
@[simp] theorem State.trimsTone_settled (s : State) : s.settled.trimsTone = s.trimsTone := by simp [State.settled]
@[simp] theorem State.trimsLoaded_settled (s : State) : s.settled.trimsLoaded = s.trimsLoaded := by simp [State.settled]
@[simp] theorem State.trimsBad_settled (s : State) : s.settled.trimsBad = s.trimsBad := by simp [State.settled]
@[simp] theorem State.chans_settled (s : State) : s.settled.chans = s.chans := by simp [State.settled]
@[simp] theorem State.sessions_settled (s : State) : s.settled.sessions = s.sessions := by simp [State.settled]
@[simp] theorem State.keep_settled (s : State) : s.settled.keep = s.keep := by simp [State.settled]
@[simp] theorem State.sec_settled (s : State) : s.settled.sec = s.sec := by simp [State.settled]
@[simp] theorem State.image_settled (s : State) : s.settled.image = s.image := by simp [State.settled]
@[simp] theorem State.boot_settled (s : State) : s.settled.boot = s.boot := by simp [State.settled]
@[simp] theorem State.txn_settled (s : State) : s.settled.txn = s.txn := by simp [State.settled]
@[simp] theorem State.clock_settled (s : State) : s.settled.clock = s.clock := by simp [State.settled]
@[simp] theorem State.log_settled (s : State) : s.settled.log = s.log := by simp [State.settled]
@[simp] theorem State.carriers_settled (s : State) : s.settled.carriers = s.carriers := by simp [State.settled]
@[simp] theorem State.cap_settled (s : State) : s.settled.cap = s.cap := by simp [State.settled]
@[simp] theorem State.obs_settled (s : State) : s.settled.obs = s.obs := by simp [State.settled]
@[simp] theorem State.obsPath_settled (s : State) : s.settled.obsPath = s.obsPath := by simp [State.settled]
@[simp] theorem State.gates_settled (s : State) : s.settled.gates = s.gates := by simp [State.settled]
@[simp] theorem State.txBlocks_settled (s : State) : s.settled.txBlocks = s.txBlocks := by simp [State.settled]
@[simp] theorem State.txDone_settled (s : State) : s.settled.txDone = s.txDone := by simp [State.settled]
@[simp] theorem State.free_settled (s : State) : s.settled.free = s.free := by simp [State.settled]
@[simp] theorem State.beam_settled (s : State) : s.settled.beam = s.beam := by simp [State.settled]
@[simp] theorem State.fh_settled (s : State) : s.settled.fh = s.fh := by simp [State.settled]
@[simp] theorem State.halls_settled (s : State) : s.settled.halls = s.halls := by simp [State.settled]
@[simp] theorem State.alcoves_settled (s : State) : s.settled.alcoves = s.alcoves := by simp [State.settled]
@[simp] theorem State.flits_settled (s : State) : s.settled.flits = s.flits := by simp [State.settled]
@[simp] theorem State.routers_settled (s : State) : s.settled.routers = s.routers := by simp [State.settled]
@[simp] theorem State.stair_settled (s : State) : s.settled.stair = s.stair := by simp [State.settled]
@[simp] theorem State.ota_settled (s : State) : s.settled.ota = s.ota := by simp [State.settled]
@[simp] theorem State.recov_settled (s : State) : s.settled.recov = s.recov := by simp [State.settled]
@[simp] theorem State.energy_settled (s : State) : s.settled.energy = s.energy := by simp [State.settled]
@[simp] theorem State.hk_settled (s : State) : s.settled.hk = s.hk := by simp [State.settled]
@[simp] theorem State.timers_settled (s : State) : s.settled.timers = s.timers := by simp [State.settled]
@[simp] theorem State.out_settled (s : State) : s.settled.out = s.out := by simp [State.settled]
@[simp] theorem State.pending_settled (s : State) : s.settled.pending = s.pending := by simp [State.settled]

/-! ### Registers through the end of a command -/

@[simp] theorem State.word_settled (s : State) (a : Nat) : s.settled.word a = s.word a := by simp [State.word]
@[simp] theorem State.get_settled (s : State) (f : Fld) : s.settled.get f = s.get f := by simp [State.get]
@[simp] theorem State.flag_settled (s : State) (f : Fld) : s.settled.flag f = s.flag f := by simp [State.flag]
@[simp] theorem State.arrayNow_settled (s : State) : s.settled.arrayNow = s.arrayNow := by simp [State.arrayNow]

end Sys2Proof.Machine
end

