-- ==== Sys2Proof/Laws/Regs.lean ====
section
/-!
SUPPORT. Reading a field of a register after a field was written (R4 to R7): the field itself reads as written, modulo its width, and
a field that shares no bit with it reads as before.
-/

namespace Sys2Proof.Machine

open Sys2Proof

/-- The field lies within one word. -/
def Fld.fits (f : Fld) : Bool := decide (f.lo + f.width ≤ 32)

/-- Two fields share no bit. -/
def Fld.apart (f g : Fld) : Bool :=
  decide (f.addr ≠ g.addr) || decide (f.lo + f.width ≤ g.lo) || decide (g.lo + g.width ≤ f.lo)

/-! ### Bits of a word -/

theorem getBits_lt (x : Word) (lo width : Nat) : getBits x lo width < 2 ^ width := Nat.mod_lt _ (by positivity)

theorem testBit_getBits (x : Word) (lo width i : Nat) : (getBits x lo width).testBit i = (decide (i < width) && x.toNat.testBit (lo + i)) := by
  unfold getBits
  rw [Nat.testBit_mod_two_pow, Nat.testBit_div_two_pow, Nat.add_comm i lo]

/-- Bit `i` of a word after a field was set: the field's new bit, or the old one. -/
theorem testBit_setBits (x : Word) {lo width : Nat} (h : lo + width ≤ 32) (v i : Nat) :
    (setBits x lo width v).toNat.testBit i =
      if lo ≤ i ∧ i < lo + width then v.testBit (i - lo) else x.toNat.testBit i := by
  have hx := x.isLt
  have low : x.toNat % 2 ^ lo < 2 ^ lo := Nat.mod_lt _ (by positivity)
  have mid : v % 2 ^ width < 2 ^ width := Nat.mod_lt _ (by positivity)
  have e1 : v % 2 ^ width * 2 ^ lo + x.toNat % 2 ^ lo = 2 ^ lo * (v % 2 ^ width) + x.toNat % 2 ^ lo := by ring
  have inner : 2 ^ lo * (v % 2 ^ width) + x.toNat % 2 ^ lo < 2 ^ (lo + width) := by
    have h1 : v % 2 ^ width + 1 ≤ 2 ^ width := mid
    calc 2 ^ lo * (v % 2 ^ width) + x.toNat % 2 ^ lo < 2 ^ lo * (v % 2 ^ width) + 2 ^ lo := by omega
      _ = 2 ^ lo * (v % 2 ^ width + 1) := by ring
      _ ≤ 2 ^ lo * 2 ^ width := Nat.mul_le_mul_left _ h1
      _ = 2 ^ (lo + width) := by rw [pow_add]
  unfold setBits
  rw [BitVec.toNat_ofNat, Nat.testBit_mod_two_pow, add_assoc, e1, Nat.mul_comm (x.toNat / 2 ^ (lo + width)),
    Nat.testBit_two_pow_mul_add _ inner, Nat.testBit_two_pow_mul_add _ low]
  by_cases h32 : i < 32
  · by_cases h1 : i < lo + width
    · by_cases h2 : i < lo
      · simp [h32, h1, h2, Nat.not_le.2 h2]
      · have h3 : lo ≤ i := Nat.le_of_not_lt h2
        have h4 : i - lo < width := by omega
        simp [h32, h1, h2, h3, h4]
    · simp only [h32, h1, if_false, Nat.testBit_div_two_pow, and_false, decide_true, Bool.true_and]
      congr 1; omega
  · have h1 : ¬ i < lo + width := by omega
    have hz : x.toNat.testBit i = false := Nat.testBit_lt_two_pow (lt_of_lt_of_le hx (Nat.pow_le_pow_right (by norm_num) (by omega)))
    simp [h32, h1, hz]

theorem getBits_setBits_same (x : Word) {lo width : Nat} (h : lo + width ≤ 32) (v : Nat) :
    getBits (setBits x lo width v) lo width = v % 2 ^ width := by
  apply Nat.eq_of_testBit_eq
  intro i
  rw [testBit_getBits, testBit_setBits x h, Nat.testBit_mod_two_pow]
  by_cases hi : i < width <;> simp [hi]

theorem getBits_setBits_apart (x : Word) {lo width l w : Nat} (h : lo + width ≤ 32) (v : Nat) (ha : lo + width ≤ l ∨ l + w ≤ lo) :
    getBits (setBits x lo width v) l w = getBits x l w := by
  apply Nat.eq_of_testBit_eq
  intro i
  rw [testBit_getBits, testBit_getBits, testBit_setBits x h]
  by_cases hi : i < w
  · rw [if_neg (by omega)]
  · simp [hi]

/-! ### Words and fields of the state -/

@[simp] theorem State.word_setWord_same (s : State) (a : Nat) (v : Word) : (s.setWord a v).word a = v := RegFile.read_write_same _ _ _

theorem State.word_setWord_other {a b : Nat} (h : b ≠ a) (s : State) (v : Word) : (s.setWord a v).word b = s.word b :=
  RegFile.read_write_other h _ _

theorem State.get_lt (s : State) (f : Fld) : s.get f < 2 ^ f.width := getBits_lt _ _ _

/-- A field reads as it was put, modulo its width. -/
theorem State.get_put_same (s : State) {f : Fld} (h : f.fits = true) (v : Nat) : (s.put f v).get f = v % 2 ^ f.width := by
  unfold State.get State.put
  rw [State.word_setWord_same, getBits_setBits_same _ (of_decide_eq_true h)]

/-- A field that shares no bit with the one put reads as before. -/
theorem State.get_put_apart (s : State) {f g : Fld} (h : f.fits = true) (ha : f.apart g = true) (v : Nat) : (s.put f v).get g = s.get g := by
  unfold State.get State.put
  by_cases hw : f.addr = g.addr
  · rw [← hw, State.word_setWord_same, getBits_setBits_apart _ (of_decide_eq_true h)]
    simpa [Fld.apart, hw] using ha
  · rw [State.word_setWord_other (fun e => hw e.symm)]

/-- Another word reads as before. -/
theorem State.word_put_other (s : State) {f : Fld} {a : Nat} (h : f.addr ≠ a) (v : Nat) : (s.put f v).word a = s.word a :=
  State.word_setWord_other (fun e => h e.symm) _ _

theorem State.get_setWord_same (s : State) (f : Fld) (v : Word) : (s.setWord f.addr v).get f = getBits v f.lo f.width := by
  unfold State.get
  rw [State.word_setWord_same]

theorem State.get_setWord_other (s : State) {f : Fld} {a : Nat} (h : f.addr ≠ a) (v : Word) : (s.setWord a v).get f = s.get f := by
  unfold State.get
  rw [State.word_setWord_other h]

theorem State.get_putB_same (s : State) {f : Fld} (h : f.fits = true) (hw : 0 < f.width) (b : Bool) : (s.putB f b).get f = b2n b := by
  unfold State.putB
  rw [State.get_put_same s h, Nat.mod_eq_of_lt]
  cases b
  · exact Nat.two_pow_pos _
  · exact Nat.one_lt_two_pow (by omega)

theorem State.get_bump_same (s : State) {f : Fld} (h : f.fits = true) : (s.bump f).get f = (s.get f + 1) % 2 ^ f.width :=
  State.get_put_same s h _

theorem State.get_bump_apart (s : State) {f g : Fld} (h : f.fits = true) (ha : f.apart g = true) : (s.bump f).get g = s.get g :=
  State.get_put_apart s h ha _

theorem State.get_addTo_same (s : State) {f : Fld} (h : f.fits = true) (n : Nat) : (s.addTo f n).get f = (s.get f + n) % 2 ^ f.width :=
  State.get_put_same s h _

theorem State.get_bumpSat_same (s : State) {f : Fld} (h : f.fits = true) :
    (s.bumpSat f).get f = min (s.get f + 1) (2 ^ f.width - 1) := by
  unfold State.bumpSat
  rw [State.get_put_same s h, Nat.mod_eq_of_lt]
  have : 0 < 2 ^ f.width := Nat.two_pow_pos _
  omega

/-- A notice leaves every register but INT_STATUS as it was. -/
theorem State.get_notice_other (s : State) (k : Notice) {f : Fld} (h : Reg.HOST.INT_STATUS.fault.addr ≠ f.addr) : (s.notice k).get f = s.get f := by
  unfold State.notice
  rw [State.get_notifyDue]
  cases k <;> exact State.get_put_apart s rfl (by simp [Fld.apart, h]) _

/-- A notice sets its bit. -/
theorem State.get_notice_bit (s : State) (k : Notice) :
    (s.notice k).get ⟨Reg.HOST.INT_STATUS.fault.addr, k.bit, 1⟩ = 1 := by
  unfold State.notice
  rw [State.get_notifyDue]
  cases k <;> exact State.get_put_same s rfl _

end Sys2Proof.Machine
end

