-- ==== Sys2Proof/Tests/Slice0.lean ====
section
/-!
SUPPORT. The model's own tests: for each claim a concrete state and operands that meet its hypotheses, and each clause's result at one point
where the kernel evaluates it; expected values are those of the rules that the claims cite. Last, terms that `Instr.wf` refuses.
-/

namespace Sys2Proof.Tests
open Sys2Proof Sys2Proof.Machine

set_option Elab.async false

/-- The state that a command answers. -/
def ran (c : Instr) (s : State) : State := match exec c s with
  | .next u => u
  | _ => s

/-- Does the command answer the state `u`, whose pins follow? -/
def same (c : Instr) (s u : State) : Bool := match exec c s with
  | .next v => decide (v = u.settled)
  | _ => false

/-- Does every register outside a list read as before? -/
def keeps (s u : State) (l : List Nat) : Bool := (s.regs ++ u.regs).all fun e => l.contains e.1 || u.word e.1 == s.word e.1

/-- The machine at reset: no image, channel 0 open. -/
def r0 : State := State.reset

/-- An image of some sections runs. -/
def planned (l : List Section) (s : State) : State :=
  { s with image := { s.image with running := some { serial := 1, digest := [], sections := l, live := false } },
           boot := { s.boot with phase := .ready } }

/-- An image of no sections runs. -/
def running (s : State) : State := planned [] s

/-- A memory plan of one record: banks of a kind from a first bank on. -/
def memSection (kind first count : Nat) : Section :=
  { type := secMemory, inst := 0,
    bytes := leBytes 4 kind ++ leBytes 2 first ++ leBytes 2 count ++ leBytes 8 0 }

/-- A vestibule frame with its CRC. -/
def sealed (f : VestFrame) : VestFrame := { f with crc := BitVec.ofNat 8 (crc8 (vestBits f)) }
def noImage : State := { r0 with boot := { r0.boot with phase := .noImage } }

/-- A record of an FDD carrier of four PRBs at 15 kHz. -/
def rec4 : CarrierRec := { CarrierRec.none with enable := true, width := 4 }

/-- Array time runs from 0. -/
def timed (s : State) : State := { s with clock := { s.clock with started := true } }

/-- Carrier 0 RUNNING under a record. -/
def carried (r : CarrierRec) (s : State) : State := ((timed s).put (Reg.CARRIER.STATUS.state 0) carrierRunning).modCar 0 fun x => { x with form := some r }

/-- Stair port 3 in a state, its four lanes in another. -/
def stairAt (st lanes : Nat) : State :=
  [12, 13, 14, 15].foldl (fun s i => s.put (Reg.STAIR.LANE_STATUS.state i) lanes) (r0.put (Reg.STAIR.PORT_STATUS.state 3) st)

/-- Stair port 3 UP, codeword 16383 next to arrive, codeword 7 unacknowledged since the time 10. -/
def flown : State :=
  (stairAt spUp slActive).modSPort 3 fun x => { x with rxNext := 16383, unacked := [{ seq := 7, begun := 10, msg := none, load := none }], ackAt := 10, lastHello := 10 }

/-- A running image with a stair role: the landing's number, its role (0 top, 1 inner), four landings, and its expected parent 3. -/
def landed (number role : Nat) (s : State) : State :=
  planned [{ type := secStair, inst := 0, bytes := [BitVec.ofNat 8 number, 0, BitVec.ofNat 8 role, 3, 0, 0, 4, 0] }] s

/-- Landing 1 with its parent on port 3, and the top landing 0 with a child on port 3; both ports UP, the tree in a state. -/
def below (tree : Nat) : State :=
  (((landed 1 1 flown).put Reg.STAIR.STATUS.has_parent 1).put Reg.STAIR.STATUS.parent 3).put Reg.STAIR.STATUS.tree tree
def topped (tree : Nat) : State := ((landed 0 0 flown).put (Reg.STAIR.PORT_STATUS.use 3) useChild).put Reg.STAIR.STATUS.tree tree

/-- A LAYER record of no PRBs. -/
def layerOf (slot sym : Nat) : Chunk := { carrier := 0, layer := 0, slot := slot, sym := sym, first := 0, prbs := [] }

/-- FHL locked, and port 7 in a state, with four ports of two lanes. -/
def fhAt (st : Nat) : State := (r0.put Reg.CLOCK.ISLAND_STATUS.locked 16).put (Reg.FRONTHAUL.PORT_STATUS.state 7) st

/-- The part is in a power state. -/
def powered (st : Nat) (s : State) : State := s.put Reg.POWER.STATUS.state st

/-! ### Register access -/

theorem witness_AccessCodes :
    ([Access.rw, .rwl, .rw1c, .ro, .rc, .wo, .rws].map fun a => (storeField true 0x00F00000 0x00A00000 ⟨20, 4, a, 0⟩).toNat / 2 ^ 20) =
      [0xF, 0xA, 0x0, 0xA, 0xA, 0xA, 0xA] ∧
    storeField false 0xF0000000 0x0000000F ⟨28, 4, .rwl, 0⟩ = 0xF000000F := by decide +kernel

theorem witness_RegisterWrite :
    r0.reaches 5 0 Reg.DEVICE.SCRATCH.word.addr ∧
    same (.registerWrite 5 0 0x8 0x1234) r0 ((r0.atTime 5).setWord Reg.DEVICE.SCRATCH.word.addr 0x1234) = true ∧
    isMapped 0xFFFFFFFC = false ∧ same (.registerWrite 5 0 0xFFFFFFFC 1) r0 (r0.atTime 5) = true ∧
    same (.registerWrite 5 0 0xA 1) r0 (r0.atTime 5) = true := by decide +kernel

/-- TIME_LO, whose high half was read before it. -/
theorem witness_HalfReads :
    r0.reaches 5 0 0x50020 ∧ isLowHalf 0x50020 = true ∧ isHighHalf 0x50024 = true ∧
    ((ran (.lowHalfRead 5 0 0x50020) r0).chan 0).hold = some (0x50020, 0) ∧
    same (.lowHalfRead 5 0 0x50020) r0
        (((r0.atTime 5).modChan 0 fun c => { c with hold := some (0x50020, (r0.atTime 5).readValue 0 0x50024) }).emit
          (.readData 0 0x50020 ((r0.atTime 5).readValue 0 0x50020))) = true ∧
    (let s := r0.modChan 0 fun c => { c with hold := some (0x50020, 7) }
     same (.highHalfRead 5 0 0x50024) s ((s.atTime 5).emit (.readData 0 0x50024 7)) = true) ∧
    (let s := r0.modChan 0 fun c => { c with hold := some (0x20040, 7) }
     same (.highHalfRead 5 0 0x50024) s (((s.atTime 5).modChan 0 fun c => { c with unpaired := true }).emit
            (.readData 0 0x50024 ((s.atTime 5).readValue 0 0x50024))) = true) := by decide +kernel

theorem witness_HalfWritesNoEffect :
    same (.highHalfWrite 5 0 0x50024 9) r0 (r0.atTime 5) = true ∧ same (.lowHalfWrite 5 0 0x50020 9) r0 (r0.atTime 5) = true := by decide +kernel

/-- The last word of bank 11, and the first of bank 12. -/
theorem witness_WindowWrites :
    r0.reaches 5 0 (windowBase + 0x17FFFC) ∧ r0.bankLost (0x17FFFC / bankBytes) = false ∧ (r0.placeIn kindLoad 0x17FFFC).isSome = true ∧
    (let u := ran (.windowWrite 5 0 (BitVec.ofNat 32 (windowBase + 0x17FFFC)) 0x01020304) r0
     u.mem = [(0x17FFFC, 4), (0x17FFFD, 3), (0x17FFFE, 2), (0x17FFFF, 1)] ∧ u.image.ready = none ∧
      u.mem = Memory.writeBytes r0.mem 0x17FFFC (leBytes 4 0x01020304) ∧ keeps r0 u [Reg.IMAGE.STATUS.word.addr] = true) ∧
    same (.windowWrite 5 0 (BitVec.ofNat 32 (windowBase + 0x180000)) 1) r0 (r0.atTime 5) = true ∧
    (let s : State := { r0 with image := { r0.image with cmd := some .verify } }
     s.readsBuffer = true ∧
      same (.windowWrite 5 0 (BitVec.ofNat 32 windowBase) 1) s ((s.atTime 5).put Reg.IMAGE.STATUS.buf_write_lost 1) = true) := by decide +kernel

def vread : VestFrame := sealed { address := 0, command := 1, count := 0, register := 2, data := 0, crc := 0 }

theorem witness_VestibuleFrames :
    same (.read 5 { vread with address := 1 }) r0 (r0.atTime 5) = true ∧
    (r0.atTime 5).channelOpen 0 = true ∧ vestOk vread = true ∧ vestOk { vread with crc := vread.crc + 1 } = false ∧
    same (.read 5 { vread with crc := vread.crc + 1 }) r0
      ((((r0.atTime 5).wakeSource 4).bump Reg.HOST.VEST_CRC_ERR.word).respond statusCrc []) = true ∧
    same (.read 5 vread) r0
      ((((r0.atTime 5).wakeSource 4).readOk 0 8).2.respond statusOk [(((r0.atTime 5).wakeSource 4).readOk 0 8).1]) = true ∧
    (let f := sealed { vread with register := 0x3FFFFFFF }
     same (.read 5 f) r0 (((r0.atTime 5).wakeSource 4).respond statusUnmapped [0]) = true) ∧
    (let f := sealed { vread with command := 2, data := 0xABCD }
     asksReset (4 * f.register.toNat) f.data = false ∧ (ran (.write 5 f) r0).word 8 = 0xABCD ∧
      same (.write 5 f) r0 ((((r0.atTime 5).wakeSource 4).writeOk 0 8 0xABCD).respond statusOk []) = true) ∧
    (let f := sealed { vread with command := 3, count := 2 }
     (ran (.readBurst 5 f) r0).out.map (fun o => match o with | .vest st l _ => (st, l.length) | _ => (9, 0)) = [(0, 3)]) := by decide +kernel

theorem witness_VestibuleTimeout :
    (let u := ran (.vestFrameTimeout 5) r0
     u.get Reg.HOST.VEST_CRC_ERR.word = 1 ∧ keeps r0 u [Reg.HOST.VEST_CRC_ERR.word.addr] = true ∧ u.out = r0.out ∧ u.mem = r0.mem) := by decide +kernel

def src : Source := { port := 0, mac := List.replicate 6 1, vid := none, ip := [10, 0, 0, 1], udp := 5000 }
def key : List Byte := List.replicate 32 7
def sess : Session :=
  { keySlot := 0, src := src, ks := key, lastSeq := 4, response := [1], lastAccept := 0, notifySeq := 0, lastNotify := none, notifyDue := true }
/-- An image runs, port 0 is UP and takes SXM, key slot 0 holds a key. -/
def hears : State :=
  let s := (((running r0).put (Reg.FRONTHAUL.PORT_STATUS.state 0) fhUp).put Reg.FRONTHAUL.SXM_CTL.port_mask 1).put Reg.HOST.SXM_CTL.key_mask 1
  { s with keep := { s.keep with sxmKeys := s.keep.sxmKeys.set 0 (some key) } }
/-- Session 1 is open. -/
def open1 : State := hears.setSession 0 (some sess)
/-- A HELLO with a nonce of 16 bytes, tagged with the key. -/
def hello : List Byte :=
  let h := [1, 1, 0, 0] ++ leBytes 4 0 ++ leBytes 2 16 ++ leBytes 6 0 ++ List.replicate 16 (9 : Byte)
  h ++ sxmTag key h

theorem witness_SxmDropsUnproven :
    hears.sxmHears src = true ∧ r0.sxmHears src = false ∧ same (.sxmHello 5 src [1]) r0 (r0.atTime 5) = true ∧
    sxmFormed [1] = false ∧ same (.close 5 src [1]) hears ((hears.atTime 5).bump Reg.HOST.SXM_DROP_AUTH.word) = true ∧
    (let m := [1, 1, 0, 3] ++ List.replicate 28 (0 : Byte)
     sxmFormed m = true ∧ sxmType m = sxmTypeHello ∧ hears.helloKey (sxmKey m) = none ∧
      same (.sxmHello 5 src m) hears ((hears.atTime 5).bump Reg.HOST.SXM_DROP_AUTH.word) = true) ∧
    (let m := [1, 3, 0, 0] ++ List.replicate 28 (0 : Byte)
     sxmFormed m = true ∧ sxmType m ≠ sxmTypeHello ∧ sxmSession m = 0 ∧
      same (.request 5 src m) hears ((hears.atTime 5).bump Reg.HOST.SXM_DROP_AUTH.word) = true) := by decide +kernel

/-- A HELLO under key 0 names a key, is tagged with it, and the lowest free session is 0; all eight taken, none is. -/
theorem witness_SxmServes_hello :
    hears.sxmHears src = true ∧ sxmFormed hello = true ∧ sxmType hello = sxmTypeHello ∧ hears.helloKey (sxmKey hello) = some key ∧
    sxmTagged key hello = true ∧ (sxmBody hello).length = 16 ∧ (firstIdx 8 fun n => (hears.session n).isNone) = some 0 ∧
    (let s : State := { hears with sessions := List.replicate 8 (some sess) }
     (firstIdx 8 fun n => (s.session n).isNone) = none) := by decide +kernel

theorem witness_SxmServes_session :
    (let m := sxmMessage key sxmTypeRequest 1 5 []
     sxmFormed m = true ∧ sxmType m = sxmTypeRequest ∧ sxmSession m = 1 ∧ open1.session 0 = some sess ∧ sxmTagged key m = true ∧
      sxmSeq m = (sess.lastSeq + 1) % 2 ^ 32) ∧
    (let m := sxmMessage key sxmTypeRequest 1 4 []
     sxmSeq m = sess.lastSeq ∧ sess.response ≠ [] ∧
      same (.request 5 src m) open1 (((open1.atTime 5).setSession 0 (some { sess with src := src })).emit (.sxm src [1])) = true) ∧
    (let m := sxmMessage key sxmTypeRequest 1 3 []
     same (.request 5 src m) open1 ((open1.atTime 5).bump Reg.HOST.SXM_DROP_SEQ.word) = true) ∧
    (let m := sxmMessage key sxmTypeClose 1 5 []
     sxmFormed m = true ∧ sxmType m = sxmTypeClose ∧ sxmSession m = 1) := by decide +kernel

theorem witness_SxmTimers :
    open1.session 0 = some sess ∧
    (sess.lastAccept + open1.sxmIdle ≤ max open1.now (10 * ticksPerSecond) ∧
      same (.sxmIdleTimeout (10 * ticksPerSecond) 0) open1 ((open1.atTime (10 * ticksPerSecond)).endSession 0) = true) ∧
    (max open1.now (10 * ticksPerSecond - 1) < sess.lastAccept + open1.sxmIdle ∧
      same (.sxmIdleTimeout (10 * ticksPerSecond - 1) 0) open1 (open1.atTime (10 * ticksPerSecond - 1)) = true) ∧
    (let u := ran (.notify 5 0) open1
     u.session 0 = some { sess with notifyDue := false, lastNotify := some 5, notifySeq := 1 } ∧ u.regs = open1.regs ∧
      u.out = open1.out ++ [.sxm src (sxmMessage key sxmTypeNotify 1 1 (open1.atTime 5).notifyBody)]) ∧
    (let s := hears.setSession 0 (some { sess with notifyDue := false })
     same (.notify 5 0) s (s.atTime 5) = true) ∧
    open1.reaches 5 1 Reg.HOST.SXM_CTL.word.addr ∧
    same (.sxmCtlWrite 5 1 0x01000001) open1 (((open1.atTime 5).storeWord Reg.HOST.SXM_CTL.word.addr 0x01000001).idleSessions) = true := by
  decide +kernel

/-! ### Keep and security -/

/-- Area 0, page 3. -/
def keep0 : State := (r0.put Reg.KEEP.ADDR.area 0).put Reg.KEEP.ADDR.page 3

/-- A READ of area 0 is accepted, one of area 5 has the cause AREA, and one behind another is lost. -/
theorem witness_KeepCommands :
    keep0.reaches 5 0 Reg.KEEP.CMD.word.addr ∧ keep0.keep.running = none ∧
    ((keep0.atTime 5).put Reg.KEEP.STATUS.done 0).keepRefusal .read = 0 ∧
    (let u := ran (.keepRead 5 0) keep0
     (u.keep.running.map fun j => (j.cmd, j.area, j.page)) = some (.read, 0, 3) ∧ u.get Reg.KEEP.STATUS.busy = 1 ∧
      u.get Reg.KEEP.STATUS.done = 0 ∧ u.mem = keep0.mem ∧ u.out = keep0.out ∧
      same (.copy 6 0) u ((u.atTime 6).put Reg.KEEP.STATUS.cmd_lost 1) = true) ∧
    (let s := r0.put Reg.KEEP.ADDR.area 5
     let x := (s.atTime 5).put Reg.KEEP.STATUS.done 0
     x.keepRefusal .read ≠ 0 ∧
      same (.keepRead 5 0) s ((x.put Reg.KEEP.STATUS.result (x.keepRefusal .read)).put Reg.KEEP.STATUS.done 1) = true) := by decide +kernel

def busyKeep (c : KeepCmd) : State :=
  { r0 with keep := { r0.keep with running := some { cmd := c, area := 1, page := 2, len := 0, data := List.replicate 256 8 } } }

theorem witness_KeepCompletes :
    same (.keepCmdDone 5) r0 (r0.atTime 5) = true ∧
    (let u := ran (.keepCmdDone 5) (busyKeep .begin)
     u.keep.running = none ∧ u.keep.openUpdate = some 1 ∧ u.keep.snap = [] ∧ u.get Reg.KEEP.STATUS.done = 1 ∧ u.get Reg.KEEP.STATUS.result = 0) ∧
    (ran (.keepCmdDone 5) (busyKeep .abortUpdate)).keep.openUpdate = none ∧
    (let u := ran (.keepCmdDone 5) (busyKeep .program)
     u.keep.raw = (r0.keep.programRaw 1 2 [List.replicate 256 8]).raw ∧ u.keep.raw ≠ [] ∧ u.keep.snap = []) ∧
    (let u := ran (.keepCmdDone 5) (busyKeep .eraseSlot)
     u.keep.raw = (((busyKeep .eraseSlot).atTime 5).eraseSectors 1 96).keep.raw ∧ u.keep.snap = []) := by decide +kernel

def aRecord : LogRecord :=
  { seq := 1, time := 0, kind := 1, cls := 0, unit := 1, inst := 0, cause := 0, action := 0, spare := 0, missed := 0, degraded := 0, detail := 0,
    tenths := 0, carriers := 0 }

theorem witness_LogPages :
    (let s : State := ({ r0 with keep := { r0.keep with logBuffer := List.replicate 8 aRecord } } : State).arm .logPage 5
     (s.atTime 5).due .logPage = true ∧ s.power ≠ powerThermalOff ∧ s.keep.logPages.length < logArea ∧
      (let u := ran (.logPageProgram 5) s
       u.keep.logPages = [List.replicate 7 aRecord] ∧ u.keep.logBuffer = [aRecord] ∧ u.keep.logCount = 1 ∧ u.regs = s.regs) ∧
      (s.atTime 4).due .logPage = false ∧ same (.logPageProgram 4) s (s.atTime 4) = true) := by decide +kernel

/-- The OTP word 0x31 with sxm_key_lock, and a locked image. -/
def lockedKeys : State := ({ r0 with sec := { r0.sec with otp := [(0x31, 4)] } } : State).put Reg.IMAGE.STATUS.locked 1

theorem witness_SecurityCommands :
    r0.reaches 5 0 Reg.SECURITY.CMD.word.addr ∧ r0.sec.running = none ∧
    (let u := ran (.nonce 5 0) r0
     u.sec.running = some .nonce ∧ u.get Reg.SECURITY.STATUS.busy = 1 ∧ u.get Reg.SECURITY.STATUS.done = 0 ∧
      same (.unlock 6 0) u ((u.atTime 6).put Reg.SECURITY.STATUS.result secBusy) = true) ∧
    (match (ran (.unlock 5 0) r0).sec.running with
      | some (.unlock token) => token.length == 256
      | _ => false) = true ∧
    (r0.otpRefusal (r0.get Reg.SECURITY.OTP_ADDR.word) (r0.word Reg.SECURITY.OTP_DATA.word.addr) = 0 ∧
      (ran (.otpProgram 5 0) r0).sec.running = some (.otpProgram 0 0)) ∧
    r0.sxmLocked = false ∧ (ran (.sxmKeyClear 5 0 3) r0).sec.running = some (.keyClear 3) ∧
    (match (ran (.sxmKeyStore 5 0 3) r0).sec.running with
      | some (.keyStore slot _) => slot == 3
      | _ => false) = true ∧
    lockedKeys.sxmLocked = true ∧
    (let u := ran (.sxmKeyStore 5 0 3) lockedKeys
     u.sec.running = none ∧ u.get Reg.SECURITY.STATUS.result = secLocked ∧ u.get Reg.SECURITY.STATUS.done = 1) ∧
    open1.reaches 5 1 Reg.SECURITY.CMD.word.addr ∧
    same (.nonce 5 1) open1 ((((open1.atTime 5).put Reg.SECURITY.STATUS.done 0).put Reg.SECURITY.STATUS.result secChannel).put
      Reg.SECURITY.STATUS.done 1) = true := by decide +kernel

def securing (c : SecCmd) : State := { r0 with sec := { r0.sec with running := some c, nonceValid := true, otp := [(7, 1)] } }

theorem witness_SecurityCompletes :
    same (.securityCmdDone 5) r0 (r0.atTime 5) = true ∧
    (let u := ran (.securityCmdDone 5) (securing (.otpProgram 7 6))
     u.otpWord 7 = 7 ∧ u.otpWord 8 = 0 ∧ u.sec.running = none ∧ u.get Reg.SECURITY.STATUS.done = 1 ∧ u.get Reg.SECURITY.STATUS.busy = 0) ∧
    (let u := ran (.securityCmdDone 5) (securing (.unlock [0]))
     u.sec.nonceValid = false ∧ u.sec.jtagOpen = false ∧ u.get Reg.SECURITY.STATUS.result = secToken) ∧
    (let u := ran (.securityCmdDone 5) (securing .nonce)
     u.sec.nonceValid = true ∧ u.sec.drawn = 16) ∧
    (ran (.securityCmdDone 5) (securing (.keyStore 3 key))).keep.sxmKeys = [none, none, none, some key] ∧
    (ran (.securityCmdDone 5) (securing (.keyClear 3))).keep.sxmKeys = [none, none, none, none] := by decide +kernel

/-! ### Image commands -/

theorem witness_ImageCommands :
    noImage.reaches 5 0 Reg.IMAGE.CTL.word.addr ∧ noImage.flag Reg.IMAGE.STATUS.busy = false ∧ noImage.imageAllowed 1 0 = true ∧
    noImage.imageAllowed 4 0 = false ∧ noImage.imageAllowed 7 0 = true ∧ noImage.imageAllowed 6 1 = true ∧
    (let u := ran (.load 5 0) noImage
     u.image = { noImage.image with cmd := some .load } ∧ u.get Reg.IMAGE.STATUS.busy = 1 ∧ u.get Reg.IMAGE.STATUS.done = 0 ∧
      keeps noImage u [Reg.IMAGE.STATUS.word.addr] = true ∧ same (.lock 6 0) u ((u.atTime 6).put Reg.IMAGE.STATUS.cmd_lost 1) = true) ∧
    (let u := ran (.raiseFloor 5 0) noImage
     u.image = { noImage.image with cmd := none } ∧ u.get Reg.IMAGE.STATUS.code = codeCommand ∧ u.get Reg.IMAGE.STATUS.done = 1 ∧
      keeps noImage u [Reg.IMAGE.STATUS.word.addr] = true) ∧
    (let u := ran (.lock 5 0) noImage
     u.get Reg.IMAGE.STATUS.locked = 1 ∧ u.get Reg.IMAGE.STATUS.code = codeOk ∧ u.get Reg.IMAGE.STATUS.done = 1) ∧
    (ran (.tryCmd 5 0 1) noImage).image.cmd = some (.slotUpdate { preferred := 1, trial := true, trialStarted := false, floor := 0 }) := by
  decide +kernel

/-- An image without a load buffer holds no image to load. -/
theorem witness_ImageCompletes :
    (let s : State := { running r0 with image := { (running r0).image with cmd := some .load } }
     let u := ran (.loadInstall 5) s
     s.power ≠ powerThermalOff ∧ s.power ≠ powerWakeFailed ∧ s.image.candidate = none ∧ (s.checkImage false s.bufferImage).1 ≠ codeOk ∧
      u.image = { s.image with cmd := none } ∧ u.get Reg.IMAGE.STATUS.done = 1 ∧ u.carriers = s.carriers) ∧
    (let r : Running := { serial := 1, digest := [], sections := [], live := false }
     let s : State := { noImage with image := { noImage.image with cmd := some .load, candidate := some r } }
     s.power ≠ powerThermalOff ∧ s.power ≠ powerWakeFailed ∧ s.activeCarriers = []) ∧
    (let s : State := { running r0 with image := { (running r0).image with cmd := some .verify } }
     let u := ran (.verifyDone 5) s
     u.image.cmd = none ∧ u.get Reg.IMAGE.STATUS.done = 1 ∧ u.image.ready = none ∧ (s.checkImage true s.bufferImage).1 ≠ codeOk) ∧
    (let r : SlotRecord := { preferred := 1, trial := false, trialStarted := false, floor := 9 }
     let s : State := { noImage with image := { noImage.image with cmd := some (.slotUpdate r) } }
     let u := ran (.slotRecordUpdateDone 5) s
     u.keep = { s.keep with slotRec := r } ∧ u.image.cmd = none ∧ u.get Reg.IMAGE.FLOOR.word = 9) := by decide +kernel

/-! ### Reset and boot -/

theorem witness_PinReset :
    same (.pinReset 5 999) open1 (open1.atTime 5) = true ∧ same (.powerGoodFall 5 3 999) open1 (open1.atTime 5) = true ∧
    (let u := ran (.pinReset 5 1000) open1
     keeps State.reset u [Reg.DEVICE.RESET_CAUSE.word.addr] = true ∧ u.boot.phase = .held ∧ u.session 0 = none ∧ u.image.running = none ∧
      u.word Reg.DEVICE.RESET_CAUSE.word.addr = open1.resetCause srcPin 0 ∧ u.out = open1.out) ∧
    (let u := ran (.powerGoodFall 5 3 1000) open1
     open1.boot.phase ≠ .held ∧ keeps State.reset u [Reg.DEVICE.RESET_CAUSE.word.addr] = true ∧ u.boot.phase = .waitPower ∧ u.session 0 = none) := by
  decide +kernel

theorem witness_HostReset :
    r0.reaches 5 0 Reg.HOST.RESET.word.addr ∧ (1 : Word) ≠ resetKey ∧ same (.hostReset 5 0 1 []) r0 (r0.atTime 5) = true ∧
    (ran (.hostReset 5 0 resetKey []) r0).boot.start = 5 ∧ (ran (.fullReset 5 5 0 []) r0).boot.start = 5 := by decide +kernel

def held : State := { r0 with boot := { r0.boot with phase := .held, resetN := false } }

theorem witness_BootStarts :
    (let s : State := { held with boot := { held.boot with pg := [true, true, false, true] } }
     let u := ran (.resetNRelease 5 3 []) s
     s.railsGood = false ∧ u.boot.devId = 3 ∧ u.boot.phase = .waitPower ∧ u.boot.resetN = true ∧ u.regs = s.regs) ∧
    held.railsGood = true ∧ (ran (.resetNRelease 5 3 []) held).boot.start = 5 ∧
    (let s : State := { r0 with boot := { r0.boot with phase := .waitPower, pg := [true, true, false, true] } }
     (ran (.powerGoodRise 5 2 []) s).boot.start = 5 + ticksOfMs 1 ∧
      same (.powerGoodRise 5 0 []) s { s.atTime 5 with boot := { s.boot with pg := s.boot.pg.set 0 true } } = true) := by decide +kernel

/-- INIT has begun at 0 and is over, or not, on every bus. -/
def initAs (served : Bool) (s : State) : State :=
  { s with radio := { s.radio with initAt := some 0, initDone := List.replicate 8 served } }

/-- An image runs in a boot whose banks serve no path; INIT is over. -/
def bootable : State :=
  let s := initAs true (running r0)
  ({ s with boot := { s.boot with phase := .booting, selected := true } } : State).put Reg.CLOCK.REF_STATUS.refclk_ok 1

theorem witness_BootEnds :
    bootable.boot.selected = true ∧ (bootable.atTime 5).bootComplete = true ∧ (ran (.bootReady 5 [] []) bootable).boot.phase = .ready ∧
    (let s := r0.put Reg.IMAGE.STATUS.state imageBooting
     s.boot.phase = .booting ∧ s.power ≠ powerWakeFailed ∧ s.get Reg.IMAGE.STATUS.state = imageBooting ∧
      (let u := ran (.bootStepTimeout 5 2 0) s
       u.energy.failures = [1, 0, 0] ∧ u.regs = s.regs) ∧
      (let x : State := { s with energy := { s.energy with failures := [0, 0, 2] } }
       (ran (.bootStepTimeout 5 4 0) x).get Reg.POWER.STATUS.state = powerWakeFailed)) := by decide +kernel

/-! ### Paths, front ends and LO banks -/

/-- The DC loop of path 63 tracks and nothing freezes it. -/
def tracking : State :=
  ((((r0.put (Reg.PATH.LOOP_CTL.dc_track 63) 1).put (Reg.PATH.LOOP_CTL.dc_bw 63) 3).put (Reg.PATH.STATUS.rx_valid 63) 1).put
    (Reg.CLOCK.LO_STATUS.state 1) loLocked).put (Reg.PATH.LOOP_CTL.iq_track 63) 1

/-- A mean of 32 codes moves the estimate 0 by 2^-10 of 32, which is 1/32. -/
theorem witness_DcLoopMoves :
    ((tracking.atTime 5).freezes 63).1 = false ∧ tracking.get (Reg.PATH.LOOP_CTL.dc_track 63) = 1 ∧
    (tracking.path 63).dc[(tracking.path 63).gain]? = some { i := 0, q := 0, e := 0 } ∧
    (let u := ran (.dcBlockUpdate 5 63 (List.replicate 64 ⟨32, -64⟩)) tracking
     ((u.path 63).dc[20]?.map fun d => ((d.i : Rat) / 2 ^ d.e, (d.q : Rat) / 2 ^ d.e)) = some (1 / 32, -1 / 16) ∧
      (u.path 63).dc[21]? = (tracking.path 63).dc[21]? ∧ keeps tracking u [(Reg.PATH.LOOP_CTL.word 63).addr] = true) ∧
    (let u := ran (.dcBlockUpdate 5 0 (List.replicate 64 ⟨32, 0⟩)) r0
     ((r0.atTime 5).freezes 0).1 = true ∧ u.path 0 = r0.path 0) := by decide +kernel

/-- The boundary of the power, -50 dBFS. -/
theorem witness_IqTracking :
    tracking.get (Reg.PATH.LOOP_CTL.iq_track 63) = 1 ∧ ((tracking.atTime 5).freezes 63).2 = false ∧ (tracking.path 63).iqDiscard = false ∧
    (let u := ran (.iqWindowEnd 5 63 (-12800) []) tracking
     u.mem = tracking.mem ∧ u.out = tracking.out) ∧
    same (.iqWindowEnd 5 63 (-12801) []) tracking ((tracking.atTime 5).modPath 63 fun x => { x with iqDiscard := false }) = true := by decide +kernel

/-- BLANK3 mutes group 7. -/
def blanker : State := r0.put (Reg.GROUP.BLANK_CTL.actions 7) 64

theorem witness_Blanking :
    (let u := ran (.blankRise 5 3) blanker
     u.radio.blank = [false, false, false, true] ∧ (u.mutes 56).testBit muteBlank = true ∧ (u.mutes 55).testBit muteBlank = false) := by decide +kernel

theorem witness_Retirement :
    r0.reaches 5 0 (Reg.PATH.CTL.word 63).addr ∧ r0.pathState 63 ≠ pathRetired ∧ same (.pathFault 5 63 0) r0 (r0.atTime 5) = true ∧
    (let u := ran (.pathRetire 5 0 63) r0
     u.pathState 63 = pathRetired ∧ u.get (Reg.PATH.STATUS.retire_cause 63) = 6 ∧ (u.mutes 63).testBit muteRetired = true ∧
      u.get (Reg.PATH.STATUS.tx_active 63) = 0 ∧ (u.path 63).cal = none ∧ u.mem = r0.mem ∧ u.out = r0.out ∧
      u.word (Reg.PATH.STATUS.word 62).addr = r0.word (Reg.PATH.STATUS.word 62).addr ∧ same (.pathFault 6 63 5) u (u.atTime 6) = true) ∧
    (ran (.pathFault 5 63 5) r0).get (Reg.PATH.STATUS.retire_cause 63) = 5 := by decide +kernel

/-- Group 7 has INIT at word 63, an END. -/
def femmed : State :=
  ((r0.put (Reg.GROUP.RFFE_CTL.enable 7) 1).put (Reg.GROUP.FEM_ENTRY0.init 7) 63).put ⟨(Reg.GROUP.FEM_SCRIPT.word 7 63).addr, 29, 3⟩ femEnd

theorem witness_FemEvents :
    r0.femScripted 7 .poll = false ∧ same (.femScript 5 7 .poll []) r0 (r0.atTime 5) = true ∧
    r0.initRuns 7 = false ∧ same (.femScript 5 7 .init []) r0 (r0.atTime 5) = true ∧
    r0.femWaits 7 .wake = false ∧ same (.femScript 5 7 .wake []) r0 (r0.atTime 5) = true ∧
    (let s := femmed.put (Reg.GROUP.FEM_ENTRY0.pa_check 7) 63
     s.femEntry 7 .paCheck = 63 ∧ s.get (Reg.GROUP.RFFE_CTL.enable 7) = 1 ∧
      getBits (s.word (Reg.GROUP.FEM_SCRIPT.word 7 63).addr) 29 3 = femEnd ∧
      (let u := ran (.femScript 5 7 .paCheck []) s
       u.out = s.out ∧ u.get (Reg.GROUP.RFFE_STATUS.no_reply 7) = 0 ∧ keeps s u [(Reg.GROUP.RFFE_STATUS.word 7).addr] = true)) ∧
    (let s := { femmed with radio := { femmed.radio with femDue := List.replicate 8 (some .wake) } }
     s.femWaits 7 .wake = true ∧ ((ran (.femScript 5 7 .wake []) s).radio.femDue.getD 7 (some .wake)) = none) ∧
    (let s := initAs false femmed
     let u := ran (.femScript 5 7 .init []) s
     s.initRuns 7 = true ∧ s.radio.initDone.length = 8 ∧ u.radio.initDone = s.radio.initDone.set 7 true ∧ u.radio.initEnd = 5 ∧
      u.radio.femReady.getD 63 false = true) ∧
    (let s := initAs false r0
     (s.atTime (ticksOfMs 5 - 1)).initLate 7 = false ∧
      same (.femInitTimeout (ticksOfMs 5 - 1) 7 3) s (s.atTime (ticksOfMs 5 - 1)) = true ∧ (s.atTime (ticksOfMs 5)).initLate 7 = true ∧
      (let u := ran (.femInitTimeout (ticksOfMs 5) 7 3) s
       u.radio.initDone = s.radio.initDone.set 7 true ∧ u.get (Reg.GROUP.RFFE_STATUS.no_reply 7) = 0xF8 ∧
        u.radio.femReady.getD 63 true = false ∧ keeps s u [(Reg.GROUP.RFFE_STATUS.word 7).addr] = true)) := by decide +kernel

/-- Word 62 of group 7's script is `w`, word 63 an END. -/
def scripted (w : Word) : State := femmed.setWord (Reg.GROUP.FEM_SCRIPT.word 7 62).addr w

theorem witness_FemScriptWords :
    (scripted 0x06123400).femPath 63 62 [] =
      { outs := [.rffe 7 femWrite 3 0x12 0x34], stores := [], rest := [], failures := 0, result := .ok } ∧
    (scripted 0x60000000).femPath 63 62 [] = { outs := [], stores := [], rest := [], failures := 0, result := .ok } ∧
    (let r := (scripted 0x3E120003).femPath 63 62 [some 9]
     r.stores = [(3, 9)] ∧ r.result = .ok) ∧
    (let r := (scripted 0x5E12FFFF).femPath 63 62 [none, none]
     r.result = .noReply ∧ r.failures = 1 ∧ r.outs.length = 2) ∧
    ((scripted 0xC0000000).femPath 63 62 []).result = .scriptError := by decide +kernel

/-- Bank B in a state, its timer due at 5. -/
def bankB (st : Nat) : State := (r0.put (Reg.CLOCK.LO_STATUS.state 1) st).arm (.lo 1) 5

theorem witness_LoLocking :
    same (.loBandDone 4 1) (bankB loBand) ((bankB loBand).atTime 4) = true ∧
    same (.loLockDeclared 5 1) (bankB loBand) ((bankB loBand).atTime 5) = true ∧
    (let u := ran (.loLockDeclared 5 1) (bankB loAcquire)
     u.loState 1 = loSettle ∧ u.get (Reg.CLOCK.LO_STATUS.own_lock 1) = 1 ∧ u.dueAt (.lo 1) = some (5 + ticksOfUs 30) ∧
      keeps (bankB loAcquire) u [(Reg.CLOCK.LO_STATUS.word 1).addr] = true) ∧
    ((bankB loBias).atTime 5).due (.lo 1) = true ∧
    LoDividers.of 6500000 = { d := 2, vco := 13000000, n := 105, f := 97600 } ∧
    (let u := ran (.loBiasDone 5 1) (bankB loBias)
     u.loState 1 = loBand ∧ (u.bank 1).div = LoDividers.of ((bankB loBias).bank 1).freq ∧ u.dueAt (.lo 1) = some (5 + ticksOfUs 40) ∧
      keeps (bankB loBias) u [(Reg.CLOCK.LO_STATUS.word 1).addr, Reg.CLOCK.XFEED_MEAS.word.addr] = true) ∧
    (let u := ran (.loBandDone 5 1) (bankB loBand)
     u.loState 1 = loAcquire ∧ u.dueAt (.lo 1) = some (5 + ticksOfMs 1) ∧
      keeps (bankB loBand) u [(Reg.CLOCK.LO_STATUS.word 1).addr] = true) ∧
    (let u := ran (.loAcquireTimeout 5 1) (bankB loAcquire)
     u.loState 1 = loBand ∧ u.get (Reg.CLOCK.LO_STATUS.attempt 1) = 1 ∧ u.dueAt (.lo 1) = some (5 + ticksOfUs 40)) ∧
    (let u := ran (.loAcquireTimeout 5 1) ((bankB loAcquire).put (Reg.CLOCK.LO_STATUS.attempt 1) 2)
     u.loState 1 = loFailed ∧ u.get (Reg.CLOCK.LO_STATUS.own_lock 1) = 0) ∧
    (let u := ran (.loSettleDone 5 1) (bankB loSettle)
     u.loState 1 = loLocked ∧ u.dueAt (.lo 1) = none ∧ ∀ p ∈ bankPaths 1, (u.mutes p).testBit muteLo = false) := by decide +kernel

/-- Both banks are LOCKED at one frequency, no boot under way. -/
def bothLocked : State :=
  ((({ r0 with boot := { r0.boot with phase := .ready } } : State).put (Reg.CLOCK.LO_STATUS.state 0) loLocked).put (Reg.CLOCK.LO_STATUS.state 1) loLocked).put Reg.CLOCK.XFEED_MEAS.delta 0x8001

theorem witness_LoLoss :
    same (.loLockLoss 5 1) (bankB loBand) ((bankB loBand).atTime 5) = true ∧
    same (.loLockLoss 5 1) (bankB loSettle) (((bankB loSettle).atTime 5).loAttemptFailed 1) = true ∧
    bothLocked.loSameFreq = true ∧ bothLocked.crossfed 0 = false ∧ bothLocked.crossfed 1 = false ∧
    (let u := ran (.loLockLoss 5 1) bothLocked
     u.loState 1 = loBand ∧ u.get (Reg.CLOCK.LO_STATUS.own_lock 1) = 0 ∧ u.get (Reg.CLOCK.LO_COUNT.losses 1) = 1 ∧ u.loState 0 = loLocked ∧
      u.crossfed 1 = true ∧ u.get Reg.BEAM.XFEED_PHASE.delta = bothLocked.get Reg.CLOCK.XFEED_MEAS.delta ∧
      ∀ p ∈ bankPaths 1, (u.mutes p).testBit muteLo = false) ∧
    (let s := r0.put (Reg.CLOCK.LO_STATUS.state 1) loLocked
     let u := ran (.loLockLoss 5 1) s
     u.crossfed 1 = false ∧ ∀ p ∈ bankPaths 1, (u.mutes p).testBit muteLo = true) := by decide +kernel

theorem witness_LoHandover :
    same (.loHandback 5 1) bothLocked (bothLocked.atTime 5) = true ∧
    (let s := bothLocked.put (Reg.CLOCK.LO_STATUS.crossfed 1) 1
     let u := ran (.loHandback 5 1) s
     s.get (Reg.CLOCK.LO_CTL.hold_crossfeed 1) = 0 ∧ s.activeCarriers = [] ∧ (s.atTime 5).radioGap = true ∧ u.crossfed 1 = false ∧
      u.loState 1 = loLocked ∧ u.get Reg.BEAM.XFEED_PHASE.delta = 0x8001 ∧ u.out = s.out) ∧
    (let s := carried rec4 (bothLocked.put (Reg.CLOCK.LO_STATUS.crossfed 1) 1)
     s.allFdd = true ∧ s.activeCarriers ≠ [] ∧ (s.atTime 5).arrayNow % planningSlot ≠ 0 ∧ same (.loHandback 5 1) s (s.atTime 5) = true) ∧
    bothLocked.reaches 5 0 (Reg.CLOCK.LO_CTL.word 1).addr ∧
    same (.loRelock 5 0 1) bothLocked ((bothLocked.atTime 5).modBank 1 fun x => { x with relock := true }) = true := by decide +kernel

/-! ### Calibration -/

/-- Path 56 is out of service, bank B is LOCKED, its scripts are one END on an enabled bus. -/
def calibrable : State :=
  (((((r0.put (Reg.GROUP.RFFE_CTL.enable 7) 1).put (Reg.CLOCK.LO_STATUS.state 1) loLocked).put (Reg.PATH.STATUS.state 56) pathOut).put (Reg.GROUP.FEM_ENTRY0.rx_check 7) 63).put
    (Reg.GROUP.FEM_ENTRY0.pa_check 7) 63).put ⟨(Reg.GROUP.FEM_SCRIPT.word 7 63).addr, 29, 3⟩ femEnd

theorem witness_CalibrationRequests :
    calibrable.reaches 5 0 (Reg.PATH.CAL_CMD.word 56).addr ∧ calibrable.away = false ∧ (calibrable.path 56).cal = none ∧
    ((calibrable.atTime 5).calRequestCheck 56 calAll [] []).2 = 0 ∧
    (let u := ran (.all 5 0 56 [] []) calibrable
     (u.path 56).cal = some { code := calAll, running := true, startAt := 5, endAt := 5 + ticksOfUs 820 } ∧ u.get (Reg.PATH.CAL_STATUS.running 56) = 1 ∧
      u.dueAt (.cal 56) = some (5 + ticksOfUs 820) ∧
      same (.rxDc 6 0 56 []) u ((u.atTime 6).calReport 56 resBusy 0 calRxDc false) = true ∧
      (let v := ran (.obs 6 0 56) u
       v.get (Reg.PATH.CAL_STATUS.result 56) = resBusy)) ∧
    same (.obs 5 0 63) r0 ((r0.atTime 5).calReport 63 resCommand 0 calObs false) = true ∧
    ((r0.atTime 5).calRequestCheck 63 calTxLol [] []).2 = 3 ∧
    (let u := ran (.txLol 5 0 63 []) r0
     u.get (Reg.PATH.CAL_STATUS.result 63) = resPrecond ∧ u.get (Reg.PATH.CAL_STATUS.precond 63) = 3 ∧ u.get (Reg.PATH.CAL_STATUS.done 63) = 1) ∧
    (ran (.rxIq 5 0 56 []) (calibrable.put (Reg.PATH.STATUS.state 56) pathIn)).get (Reg.PATH.CAL_STATUS.precond 56) = 1 ∧
    (let s := calibrable.modPath 57 fun x => { x with cal := some { code := calTxIq, running := true, startAt := 0, endAt := 9 } }
     let u := ran (.txIq 5 0 56 []) s
     (u.path 56).cal = some { code := calTxIq, running := false, startAt := 0, endAt := 0 } ∧ u.get (Reg.PATH.CAL_STATUS.queued 56) = 1) := by decide +kernel

/-- A calibration of path 56 in progress, due at 5. -/
def calibrating (run : Bool) : State :=
  ((calibrable.modPath 56 fun x => { x with cal := some { code := calTxLol, running := run, startAt := 0, endAt := 5 } }).arm (.cal 56) 5)

theorem witness_CalibrationEnds :
    same (.calStart 5 56) calibrable (calibrable.atTime 5) = true ∧ same (.calCancel 5 0 56) calibrable (calibrable.atTime 5) = true ∧
    (let s := calibrating true
     (let u := ran (.calCancel 5 0 56) s
      (u.path 56).cal = none ∧ u.get (Reg.PATH.CAL_STATUS.result 56) = resCancelled ∧ u.coeffWords 56 = s.coeffWords 56) ∧
     (let u := ran (.calLostMidway 5 56 7) s
      (u.path 56).cal = none ∧ u.get (Reg.PATH.CAL_STATUS.precond 56) = 7 ∧ u.get (Reg.PATH.CAL_STATUS.lost_midway 56) = 1) ∧
     calChecks calTxLol 5 = false ∧ same (.calLostMidway 5 56 5) s (s.atTime 5) = true ∧
     (s.atTime 5).due (.cal 56) = true ∧
     (let u := ran (.calDone 5 56 [{ code := calTxLol, values := [⟨32767, -32768⟩], estimates := [] }]) s
      (u.path 56).cal = none ∧ u.get (Reg.PATH.CAL_STATUS.result 56) = resOk ∧ u.word (Reg.PATH.TX_LO_COMP.word 56).addr ≠ 0) ∧
     (let u := ran (.calDone 5 56 [{ code := calTxLol, values := [⟨32768, 0⟩], estimates := [] }]) s
      u.get (Reg.PATH.CAL_STATUS.result 56) = resRange ∧ u.coeffWords 56 = s.coeffWords 56)) ∧
    (let s := calibrating false
     let u := ran (.calStart 5 56) s
     s.calFailing 56 calTxLol = 0 ∧ (s.atTime 5).calWaits 56 calTxLol = false ∧
      (u.path 56).cal = some { code := calTxLol, running := true, startAt := 5, endAt := 5 + ticksOfUs 150 } ∧
      u.get (Reg.PATH.CAL_STATUS.running 56) = 1 ∧
      (let x := s.put (Reg.CLOCK.LO_STATUS.state 1) loBand
       x.calFailing 56 calTxLol = 3 ∧ (ran (.calStart 5 56) x).get (Reg.PATH.CAL_STATUS.precond 56) = 3)) := by decide +kernel

/-! ### Observation and pre-distortion -/

/-- Capture memory for every group; path 63 is scheduled, IN_SERVICE and transmits an FDD carrier; bank B is LOCKED; the period is 196,608
ticks. -/
def observing : State :=
  let s := carried rec4 (planned [memSection kindCapture 12 25] r0)
  ((((s.put (Reg.GROUP.OBS_SCHED.mask 7) 128).put (Reg.GROUP.OBS_SCHED.period 7) 1).put (Reg.PATH.STATUS.state 63) pathIn).put
    (Reg.PATH.STATUS.mute_reasons 63) 0).put (Reg.CLOCK.LO_STATUS.state 1) loLocked

/-- A capture of path 63 for the host, of no samples. -/
def aCapture : ObsCapture := { path := 63, start := 5, stop := 5, host := true, bank := 0, atten := 0, epoch := 0, slot := 0 }

theorem witness_ObsAttempts :
    (let s := timed r0
     s.obsPlace 7 = none ∧ same (.obsAttempt 5 7) s (s.atTime 5) = true) ∧
    (observing.obsGroup 7).capture = none ∧ (observing.obsGroup 7).period ≠ some ((observing.atTime 5).obsPeriodNow 7) ∧
    observing.obsPlace 7 ≠ none ∧ observing.obsNext 7 = some 63 ∧ (observing.atTime 5).obsReady 63 (5 + ticksOfNs 200) (5 + ticksOfNs 200 + 8192) = true ∧
    (let u := ran (.obsAttempt 5 7) observing
     ((u.obsGroup 7).capture.map fun c => (c.path, c.start, c.stop)) = some (63, 5 + ticksOfNs 200, 5 + ticksOfNs 200 + 8192) ∧
      u.get (Reg.GROUP.OBS_STATUS.path 7) = 7 ∧ (u.obsGroup 7).period = some 0 ∧ (u.obsGroup 7).position = some 7 ∧ u.mem = observing.mem) ∧
    (let s := observing.put (Reg.PATH.STATUS.mute_reasons 63) 1
     (s.atTime 196607).obsReady 63 (196607 + ticksOfNs 200) (196607 + ticksOfNs 200 + 8192) = false ∧ ((s.atTime 196607).arrayNow + 1) % s.obsPeriod 7 = 0 ∧
      (let u := ran (.obsAttempt 196607 7) s
       u.get (Reg.GROUP.OBS_STATUS.last_cause 7) = 6 ∧ u.get (Reg.GROUP.OBS_DISCARD.word 7) = 1 ∧ (u.obsGroup 7).period = some 0 ∧
        (u.obsGroup 7).capture = none) ∧
      ((s.atTime 196606).arrayNow + 1) % s.obsPeriod 7 ≠ 0 ∧ same (.obsAttempt 196606 7) s ((s.atTime 196606).modObsGroup 7 fun y => { y with trying := some 0 }) = true ∧
      (let x := s.modObsGroup 7 fun y => { y with trying := some 0, capture := some aCapture }
       (ran (.obsAttempt 196608 7) x).get (Reg.GROUP.OBS_STATUS.last_cause 7) = 6)) := by
  decide +kernel

def capturing (s : State) : State := s.modObsGroup 7 fun y => { y with capture := some aCapture }

theorem witness_ObsCaptures :
    same (.obsCaptureDone 5 7 [] [] 0 1) observing (observing.atTime 5) = true ∧
    (let s := capturing (timed r0)
     s.obsPlace 7 = none ∧ same (.obsCaptureDone 5 7 [] [] 0 1) s ((s.atTime 5).modObsGroup 7 fun y => { y with capture := none }) = true) ∧
    (let s := capturing (observing.put (Reg.PATH.STATUS.mute_reasons 63) 1)
     (s.atTime 4).arrayNow < aCapture.stop ∧ same (.obsCaptureDone 4 7 [] [] 0 1) s (s.atTime 4) = true ∧
      (s.atTime 5).obsCause 7 aCapture [] [] = 2 ∧
      (let u := ran (.obsCaptureDone 5 7 [] [] 0 1) s
       (u.obsGroup 7).capture = none ∧ u.get (Reg.GROUP.OBS_DISCARD.word 7) = 1 ∧ u.get (Reg.GROUP.OBS_STATUS.last_cause 7) = 2 ∧
        u.get (Reg.GROUP.OBS_STATUS.host_done 7) = 1)) ∧
    (let s := capturing observing
     (s.atTime 5).obsCause 7 aCapture [] [] = 0 ∧ (s.atTime 5).obsCause 7 aCapture (List.replicate 9 ⟨2040, 0⟩) [] = 4) := by decide +kernel

theorem witness_ObsHost :
    observing.reaches 5 0 (Reg.GROUP.OBS_CTL.word 7).addr ∧ observing.obs.length = 8 ∧ observing.dpdGoverns 7 = dpdOff ∧
    observing.shedding shedDiag = [] ∧ observing.obsPlace 7 ≠ none ∧
    (let u := ran (.obsHostReq 5 0 7 3) observing
     (u.obsGroup 7).hostReq = some 3 ∧ u.get (Reg.GROUP.OBS_CTL.host_path 7) = 3 ∧ keeps observing u [(Reg.GROUP.OBS_CTL.word 7).addr] = true) ∧
    (let u := ran (.obsHostReq 5 0 7 3) r0
     u.get (Reg.GROUP.OBS_STATUS.host_refused 7) = 1 ∧ u.obs = r0.obs) ∧
    (let s := observing.modObs 63 fun o => { o with attenRef := some 4, misses := [1] }
     let u := ran (.obsRelearn 5 0 7) s
     (u.obsOf 63).attenRef = none ∧ (u.obsOf 63).misses = [] ∧ u.regs = s.regs) := by decide +kernel

/-- Group 7 adapts in a mode, with path 63 used in the round. -/
def adapting (mode : Nat) : State :=
  (observing.put (Reg.GROUP.DPD_ADAPT.mode 7) mode).modObsGroup 7 fun y => { y with used := [63], mode := mode, idle := false }

theorem witness_DpdRounds :
    same (.dpdRoundEnd 5 7) observing (observing.atTime 5) = true ∧
    (let s := adapting dpdStage
     s.dpdGoverns 7 ≠ dpdOff ∧ s.dpdPending 7 = false ∧ s.dpdFrozen 7 = false ∧ (s.atTime 5).dpdRoundOver 7 = true ∧
      s.get (Reg.GROUP.DPD_STATUS.staged_mask 7) = 0 ∧ s.obsPlace 7 ≠ none ∧
      (let x := s.modObsGroup 7 fun y => { y with idle := true }
       same (.dpdRoundEnd 5 7) x ((x.atTime 5).dpdNewRound 7) = true) ∧
      (let x := s.modObsGroup 7 fun y => { y with used := [] }
       (x.atTime 5).dpdRoundOver 7 = false ∧ same (.dpdRoundEnd 5 7) x (x.atTime 5) = true) ∧
      (let u := ran (.dpdRoundEnd 5 7) s
       (u.obsGroup 7).used = [] ∧ (u.obsGroup 7).fit = [63] ∧ u.flag (Reg.GROUP.DPD_STATUS.fitting 7) = true)) ∧
    (let s := (observing.put (Reg.GROUP.DPD_STATUS.verifying 7) 1).modObsGroup 7 fun y => { y with verify := [63], verifyEnd := 1 }
     same (.dpdVerifyEnd 196607 7) s (s.atTime 196607) = true ∧
      (let u := ran (.dpdVerifyEnd 196608 7) s
       u.flag (Reg.GROUP.DPD_STATUS.verifying 7) = false ∧ (u.obsGroup 7).verify = [] ∧
        keeps s u [(Reg.GROUP.DPD_STATUS.word 7).addr] = true)) := by decide +kernel

/-- A fit of path 63 in progress. -/
def fitting (mode : Nat) : State :=
  ((adapting mode).put (Reg.GROUP.DPD_STATUS.fitting 7) 1).modObsGroup 7 fun y => { y with fit := [63] }

theorem witness_DpdFits :
    same (.dpdFitDone 5 7 []) observing (observing.atTime 5) = true ∧
    (fitting dpdAuto).dpdGoverns 7 = dpdAuto ∧ (fitting dpdAuto).dpdFrozen 7 = false ∧ (fitting dpdAuto).internalPrepares = true ∧
    (let s := (fitting dpdAuto).put (Reg.GROUP.OBS_STATUS.suspect 7) 1
     let u := ran (.dpdFitDone 5 7 []) s
     s.dpdFrozen 7 = true ∧ u.txn.commits = [] ∧ (u.obsGroup 7).used = []) ∧
    (let x : Running := { serial := 1, digest := [], sections := [], live := false }
     let s : State := { fitting dpdAuto with image := { (fitting dpdAuto).image with candidate := some x } }
     let u := ran (.dpdFitDone 5 7 []) s
     s.internalPrepares = false ∧ u.get (Reg.GROUP.DPD_STATUS.round_discarded 7) = 1 ∧ u.txn.commits = []) ∧
    (let u := ran (.dpdFitDone 5 7 []) (fitting dpdAuto)
     u.flag (Reg.GROUP.DPD_STATUS.fitting 7) = false ∧ (u.obsGroup 7).fit = [] ∧
      (u.txn.commits.map fun c => (c.decided, c.slot, c.effects)) = [(true, none, [.dpdBank 63 1, .dpdRound 7])]) ∧
    (let u := ran (.dpdFitDone 5 7 []) (fitting dpdStage)
     u.flag (Reg.GROUP.DPD_STATUS.staged 7) = true ∧ u.txn.commits = [] ∧ u.get (Reg.GROUP.DPD_STATUS.staged_mask 7) = 128) ∧
    (let s := (fitting dpdAuto).modObsGroup 7 fun y => { y with abandoned := true }
     let u := ran (.dpdFitDone 5 7 []) s
     u.txn.commits = [] ∧ u.mem = s.mem ∧ u.flag (Reg.GROUP.DPD_STATUS.fitting 7) = false) := by decide +kernel

theorem witness_DpdHost :
    observing.reaches 5 0 (Reg.GROUP.DPD_ADAPT.word 7).addr ∧
    (let s := ((observing.put (Reg.GROUP.DPD_STATUS.staged 7) 1).put (Reg.GROUP.DPD_STATUS.staged_mask 7) 255)
     let u := ran (.dpdDiscard 5 0 7) s
     u.get (Reg.GROUP.DPD_STATUS.staged_mask 7) = 0 ∧ u.get (Reg.GROUP.DPD_STATUS.staged 7) = 0 ∧
      keeps s u [(Reg.GROUP.DPD_STATUS.word 7).addr] = true) ∧
    (let s := adapting dpdStage
     (let u := ran (.dpdModeWrite 5 0 7 3) s
      u.dpdMode 7 = dpdStage ∧ u.obs = s.obs) ∧
     (let u := ran (.dpdModeWrite 5 0 7 1) s
      u.dpdMode 7 = dpdAuto ∧ (u.obsGroup 7).used = [] ∧ u.get (Reg.GROUP.DPD_STATUS.fitting 7) = 0 ∧ u.mem = s.mem)) := by decide +kernel

/-! ### The symbol timeline -/

/-- The second symbol of a half-subframe, at 120 kHz and with extended prefixes at 60 kHz. -/
theorem witness_SymbolTimeline :
    (let r := { rec4 with spacing := 3 }
     r.symbolAt (planningSlot + 37120) = 57 ∧ r.boundary 57 = planningSlot + 37120 ∧ r.symbolAt (planningSlot + 37119) = 56) ∧
    (let r := { rec4 with spacing := 2, ecp := true }
     r.boundary 1 = 81920 ∧ r.symbolAt 81920 = 1 ∧ r.symbolAt 81919 = 0 ∧ r.boundary r.symsPerHalf = planningSlot) := by decide +kernel

/-- An FDD carrier runs; nothing is in the air. -/
def cell : State := carried rec4 (running r0)

theorem witness_SymbolBoundaries :
    same (.internalCheckpoint 5 1) cell (cell.atTime 5) = true ∧ same (.symbolBoundary 5 1 []) cell (cell.atTime 5) = true ∧
    cell.carActive 0 = true ∧ cell.clock.started = true ∧ cell.carriers.length = 8 ∧
    (cell.car 0).begun = none ∧
    (let s := cell.modCar 0 fun x => { x with begun := some 0 }
     same (.symbolBoundary 5 0 []) s (s.atTime 5) = true) := by decide +kernel

/-- A gate of an uplink symbol of carrier 0, due at 7. -/
def aGate (wait : Nat) : GateEntry :=
  { kind := .up, carrier := 0, symbol := 0, release := 7, wait := wait, epoch := 0, form := rec4, msgs := [], frames := [], data := [], force := [], counts := [] }

theorem witness_Releases :
    (let s : State := { cell with gates := [aGate 0] }
     same (.releaseTime 6) s ((s.atTime 6).transmitUpTo 6) = true ∧ (ran (.releaseTime 7) s).gates = [] ∧
      s.noDown (aGate 0) = false ∧ s.withheld (aGate 0) = false ∧ s.shedByHall 0 false = false ∧
      (s.gates.filter fun g => (s.atTime 7).ripe g) = [aGate 0]) ∧
    (let s : State := { cell with gates := [aGate 1] }
     s.withheld (aGate 1) = true ∧ (ran (.releaseTime 7) s).get (Reg.RECOVERY.MISSED_SYM.word 0) = 1) ∧
    r0.noDown { aGate 0 with kind := .down } = true := by decide +kernel

theorem witness_DownlinkDeadlines :
    same (.downlinkDeadline 5 1) cell (cell.atTime 5) = true ∧ cell.form? 0 = some rec4 ∧ cell.clock.started = true ∧ cell.willDl 0 1 = true := by
  decide +kernel

/-- Carrier 0 is due; at 1,966,080 ticks a slot of 15 kHz begins, at 280,576 + 2,048 a symbol. -/
def dueCarrier : State := (cell.put (Reg.CARRIER.STATUS.state 0) carrierStarting).modCar 0 fun x => { x with since := 1 }

theorem witness_CarrierStates :
    same (.carrierStart 282624 0) dueCarrier (dueCarrier.atTime 282624) = true ∧
    rec4.isSlotBoundary (2 * planningSlot) = true ∧ (dueCarrier.atTime (2 * planningSlot)).startHeld 0 (2 * planningSlot) = false ∧
    same (.carrierStop 5 ⟨0, []⟩) cell (cell.atTime 5) = true ∧
    (let s := cell.put (Reg.CARRIER.STATUS.state 0) carrierStopping
     s.carState 0 = carrierStopping ∧ (s.car 0).since ≤ 2 * planningSlot) ∧
    (let s := (cell.put (Reg.CARRIER.STATUS.state 0) carrierStopping).modCar 0 fun x => { x with after := some (some rec4) }
     (((s.atTime (2 * planningSlot)).symbolBoundary 0 []).car 0).after = some (some rec4) ∧ (s.form 0).isSlotBoundary (s.atTime (2 * planningSlot)).arrayNow = true) := by decide +kernel

/-! ### Diagnostic capture, PRACH, weights -/

def armedCap (rec_ : Bool) : State :=
  { cell with cap := { armed := true, recording := rec_, ctl := 0, trig := 0x80000000, start := 0, data := [] } }

theorem witness_DiagnosticCapture :
    r0.reaches 5 0 Reg.CARRIER.CAP_CTL.word.addr ∧ ((r0.atTime 5).storeWord Reg.CARRIER.CAP_CTL.word.addr 0).capRefusal ≠ 0 ∧
    (let u := ran (.capArm 5 0 0) r0
     u.get Reg.CARRIER.CAP_STATUS.refused = 1 ∧ u.cap = r0.cap ∧
      keeps r0 u [Reg.CARRIER.CAP_CTL.word.addr, Reg.CARRIER.CAP_STATUS.word.addr] = true) ∧
    (let s := carried rec4 (planned [{ type := secPaths, inst := 0, bytes := [0, 0, 0, 0, 0, 1, 0, 0] }] r0)
     ((s.atTime 5).storeWord Reg.CARRIER.CAP_CTL.word.addr 0).capRefusal = 0 ∧
      (let u := ran (.capArm 5 0 0) s
       u.cap.armed = true ∧ u.cap.recording = false ∧ u.get Reg.CARRIER.CAP_STATUS.armed = 1)) ∧
    same (.capCancel 5 0) cell (cell.atTime 5) = true ∧ same (.capTrigger 5) cell (cell.atTime 5) = true ∧
    (let u := ran (.capCancel 5 0) (armedCap false)
     u.cap.armed = false ∧ u.get Reg.CARRIER.CAP_STATUS.cause = 7 ∧ u.get Reg.CARRIER.CAP_STATUS.done = 1 ∧ u.mem = cell.mem) ∧
    (let s := armedCap false
     (s.form 0).isBoundary (s.atTime planningSlot).arrayNow = true ∧
      (ran (.capTrigger planningSlot) s).cap = { s.cap with recording := true, start := planningSlot }) ∧
    (let s := armedCap true
     let u := ran (.capEnd 5 []) s
     (s.atTime 5).capFull = true ∧
     u.cap.armed = false ∧ u.cap.recording = false ∧ u.get Reg.CARRIER.CAP_STATUS.cause = 0 ∧ u.get Reg.CARRIER.CAP_STATUS.done = 1 ∧
      keeps s u [Reg.CARRIER.CAP_STATUS.word.addr] = true) := by decide +kernel

/-- An occasion without windows or beams, whose prefix ends at 5. -/
def anOccasion : Occasion :=
  { start := 5, cp := 0, freq := 0, bits := 10, spacing := 1250, windows := 0, prbs := 0, firstPrb := 0, slot := 0, beams := [] }

theorem witness_PrachOccasions :
    same (.prachOccasion 5 0 0 []) cell (cell.atTime 5) = true ∧
    (let s := cell.modCar 0 fun x => { x with occasions := [anOccasion] }
     same (.prachOccasion 4 0 0 []) s (s.atTime 4) = true ∧ s.carActive 0 = true ∧ s.shedUp 0 = false ∧
      (let u := ran (.prachOccasion 5 0 0 []) s
       (u.car 0).occasions = [] ∧ (u.gates.map fun g => (decide (g.kind = .prach), g.carrier)) = [(true, 0)]) ∧
      (let p : Plan := { slot := 0, mv := 700, level := 7, energy := 0, core := 0, noDl := 0, noUl := 1 }
       let x : State := { s with energy := { s.energy with plan := some p } }
       let u := ran (.prachOccasion 5 0 0 []) x
       x.shedUp 0 = true ∧ u.gates = [] ∧ u.get (Reg.POWER.SHED_SYM.word 0) = 1)) ∧
    (let s := r0.modCar 0 fun x => { x with occasions := [anOccasion] }
     let u := ran (.prachOccasion 5 0 0 []) (timed s)
     (u.car 0).occasions = [] ∧ u.gates = [] ∧ u.get (Reg.RECOVERY.MISSED_SYM.word 0) = 1) := by decide +kernel

/-- Carrier 0 in mode CHANNEL with epochs every slot, led by 1,000 µs. -/
def solving : State :=
  let s := carried { rec4 with mode := modeChannel } (running r0)
  (s.put (Reg.SOLVER.EPOCH_CTL.period 0) 1).put (Reg.SOLVER.EPOCH_CTL.lead 0) 1000

def anEpoch (slot : Nat) : Epoch :=
  { slot := slot, start := 0, dlH := [], ulH := [], tags := [], grams := [], heard := [], inverses := [], hasMap := true, ready := false }
def inEpoch (e : Epoch) : State := { solving with beam := { solving.beam with epochs := solving.beam.epochs.set 0 (some e) } }

theorem witness_SolverEpochs_start :
    same (.solverEpochStart 5 0) cell (cell.atTime 5) = true ∧ (solving.form 0).joint = false ∧
    (solving.form 0).slotOf ((solving.form 0).symbolAt ((solving.atTime 5).arrayNow + ticksOfUs 1000)) = 1 ∧
    (solving.form 0).boundary 14 = 2 * planningSlot ∧ solving.shedBit shedEpoch 0 = false ∧ (solving.car 0).setLeft = 0 ∧
    (let u := ran (.solverEpochStart 5 0) solving
     (u.beam.epochs.getD 0 none).map (fun e => (e.slot, e.ready, e.start)) = some (1, false, 5) ∧
      (u.get Reg.SOLVER.STATUS.running).testBit 0 = true) ∧
    (let u := ran (.solverEpochStart 5 0) (inEpoch (anEpoch 0))
     u.beam.epochs.getD 0 none = none ∧ u.get Reg.SOLVER.STATUS.late = 1 ∧ u.get (Reg.SOLVER.LATE_EPOCH.word 0) = 1) := by decide +kernel

theorem witness_SolverEpochs_done :
    same (.solverEpochDone 5 0) solving (solving.atTime 5) = true ∧
    (let s := inEpoch (anEpoch 1)
     let late := 2 * planningSlot - ticksOfUs 2 + 1
     same (.solverEpochDone late 0) s ((s.atTime late).epochLate 0 1) = true ∧
      (let u := ran (.solverEpochDone (late - 1) 0) s
       (u.beam.epochs.getD 0 none).map (fun e => e.ready) = some true ∧
        (u.txn.commits.map fun x => (x.time, x.effects)) = [(2 * planningSlot, [.weights 0 1])] ∧
        (u.get Reg.SOLVER.STATUS.running).testBit 0 = false)) ∧
    (let s := inEpoch { anEpoch 1 with ready := true }
     same (.solverEpochDone 5 0) s (s.atTime 5) = true) := by decide +kernel

/-! ### The hall fabric -/

/-- Hall `h` has a program whose first word is `w`, and its work is `f` of cleared work. -/
def hallAt (h w : Nat) (f : HallCore → HallCore) : State :=
  r0.modHall h fun x => { x with program := some [], half0 := leBytes 4 w, core := f HallCore.clear }

/-- The hall instructions with a valid word for each. -/
def hallWords (h : Fin 136) : List (Instr × Nat × Nat) :=
  [(.nop 5 h, 0x00, 0x00000000), (.jmp 5 h, 0x01, 0x04000FFF), (.call 5 h, 0x02, 0x08000FFF), (.loop 5 h, 0x04, 0x10000005),
   (.waite 5 h, 0x05, 0x1400FFFF), (.evmask 5 h, 0x07, 0x1C00FFFF), (.sig 5 h, 0x08, 0x200000FF), (.addi 5 h, 0x10, 0x43FFFFFF),
   (.lui 5 h, 0x11, 0x47E0FFFF), (.ori 5 h, 0x12, 0x4BFFFFFF), (.add 5 h, 0x13, 0x4FFFF800), (.sub 5 h, 0x14, 0x53FFF800),
   (.hallAnd 5 h, 0x15, 0x57FFF800), (.hallOr 5 h, 0x16, 0x5BFFF800), (.hallXor 5 h, 0x17, 0x5FFFF800), (.shl 5 h, 0x18, 0x63FF001F),
   (.shra 5 h, 0x19, 0x67FF001F), (.shrl 5 h, 0x1A, 0x6BFF001F), (.cmp 5 h, 0x1B, 0x6C1FF800), (.gets 5 h, 0x1C, 0x73E00037),
   (.puts 5 h, 0x1D, 0x741F0036), (.ldv 5 h, 0x20, 0x80000000), (.ldb 5 h, 0x21, 0x84000000), (.ldl 5 h, 0x22, 0x8800000F),
   (.stv 5 h, 0x23, 0x8C000000), (.stl 5 h, 0x24, 0x9000000F), (.ldw 5 h, 0x25, 0x94000000), (.stw 5 h, 0x26, 0x98000000),
   (.cmul 5 h, 0x30, 0xC0600000), (.cmac 5 h, 0x31, 0xC4600000), (.cmsc 5 h, 0x32, 0xC8600000), (.rmac 5 h, 0x33, 0xCC600000),
   (.vadd 5 h, 0x34, 0xD1E00000), (.vsub 5 h, 0x35, 0xD5E00000), (.vshr 5 h, 0x36, 0xD9E0003F), (.vshl 5 h, 0x37, 0xDDE0003F),
   (.vmov 5 h, 0x38, 0xE1E00000), (.clra 5 h, 0x39, 0xE460002B), (.extr 5 h, 0x3A, 0xE9E60000), (.rsum 5 h, 0x3B, 0xEC600000),
   (.hallExp 5 h, 0x3C, 0xF3F84000), (.norm 5 h, 0x3D, 0xF7F82000), (.clrf 5 h, 0x3E, 0xF800FFFF)]

/-- Every word issues in the last hall, none is of another opcode, and none traps. -/
theorem witness_hallWords :
    ∀ p ∈ hallWords 135, (hallAt 135 p.2.2 id).issuing 5 135 p.2.1 p.2.2 ∧ ((ran p.1 (hallAt 135 p.2.2 id)).hall 135).trap = 0 := by
  decide +kernel

/-- A hall without a program, the unlisted opcode 0x3F, an opcode of another instruction, and a NOP with a reserved bit. -/
theorem witness_HallIssue :
    (r0.atTime 5).hallReady 135 = false ∧ same (.nop 5 135) r0 (r0.atTime 5) = true ∧
    ((hallAt 135 0xFC000000 id).atTime 5).hallReady 135 = true ∧ field 0xFC000000 26 6 ∉ hallOpcodes ∧
    ((ran (.nop 5 135) (hallAt 135 0xFC000000 id)).hall 135).trap = 1 ∧
    same (.nop 5 135) (hallAt 135 0x04000000 id) ((hallAt 135 0x04000000 id).atTime 5) = true ∧
    badB 0x00010000 = true ∧
    (let u := ran (.nop 5 135) (hallAt 135 0x00010000 id)
     (u.hall 135).trap = 2 ∧ (u.log.head?.map fun r => (r.kind, r.unit, r.inst, r.cause, r.detail)) = some (3, unitHall, 135, 2, 0) ∧
      u.core 135 = (hallAt 135 0x00010000 id).core 135) := by decide +kernel

/-- ADDI of -1 to 0x80000000 carries and overflows; SUB of 1 from 0 borrows. -/
theorem witness_HallScalar :
    (let c := (ran (.addi 5 135) (hallAt 135 0x43FFFFFF fun c => c.setG 31 0x80000000)).core 135
     c.primary.g.getD 31 0 = 0x7FFFFFFF ∧ c.primary.z = false ∧ c.primary.n = false ∧ c.primary.c = true ∧ c.primary.v = true ∧ c.pc = 1) ∧
    (let c := (ran (.sub 5 135) (hallAt 135 0x53FE0800 fun c => c.setG 1 1)).core 135
     c.primary.g.getD 31 0 = 0xFFFFFFFF ∧ c.primary.n = true ∧ c.primary.c = false ∧ c.primary.v = false) ∧
    badGd 0x6C1FF800 = false := by decide +kernel

/-- The last bit of SHL by 31 and of SHRA by 31. -/
theorem witness_HallShifts :
    (let c := (ran (.shl 5 135) (hallAt 135 0x63FF001F fun c => c.setG 31 3)).core 135
     c.primary.g.getD 31 0 = 0x80000000 ∧ c.primary.c = true ∧ c.primary.n = true) ∧
    (let c := (ran (.shra 5 135) (hallAt 135 0x67FF001F fun c => c.setG 31 0x80000000)).core 135
     c.primary.g.getD 31 0 = 0xFFFFFFFF ∧ c.primary.c = false) ∧
    field 0x63FF0000 0 5 = 0 ∧ (hallAt 135 0x63FF0000 id).issuing 5 135 0x18 0x63FF0000 := by decide +kernel

theorem witness_HallFlow :
    ((ran (.jmp 5 135) (hallAt 135 0x04000FFF id)).core 135).pc = 0xFFF ∧
    branchHolds HallCore.clear 0 1 = false ∧ ((ran (.jmp 5 135) (hallAt 135 0x04400FFF id)).core 135).pc = 1 ∧
    (let c := (ran (.call 5 135) (hallAt 135 0x08000FFF id)).core 135
     c.pc = 0xFFF ∧ c.returns = [1]) ∧
    ((ran (.call 5 135) (hallAt 135 0x08000FFF fun c => { c with returns := [1, 2, 3, 4] })).hall 135).trap = 4 ∧
    ((ran (.ret 5 135) (hallAt 135 0x0C000000 id)).hall 135).trap = 4 ∧
    ((ran (.ret 5 135) (hallAt 135 0x0C000000 fun c => { c with returns := [9] })).core 135).pc = 9 ∧
    ((ran (.loop 5 135) (hallAt 135 0x10000005 id)).core 135).pc = 6 ∧
    ((ran (.loop 5 135) (hallAt 135 0x10000005 fun c => c.setG 0 2)).core 135).loops = [{ first := 1, last := 5, left := 2 }] ∧
    ((ran (.loop 5 135) (hallAt 135 0x10000005 fun c =>
      { c.setG 0 2 with loops := List.replicate 4 { first := 0, last := 5, left := 2 } })).hall 135).trap = 5 ∧
    ((ran (.waite 5 135) (hallAt 135 0x1400FFFF id)).hall 135).waiting = some 0xFFFF ∧
    ((ran (.rete 5 135) (hallAt 135 0x18000000 id)).hall 135).trap = 6 ∧
    (let c := (ran (.rete 5 135) (hallAt 135 0x18000000 fun c => { c with shadow := true, epc := 7 })).core 135
     c.pc = 7 ∧ c.shadow = false) ∧
    (ran (.sig 5 135) (hallAt 135 0x200000FF id)).out = [.sig 135 0xFF] := by decide +kernel

theorem witness_HallFlow_flags :
    (let s := (hallAt 135 0xF80000F0 id).setWord (Reg.HALL.FLAGS.word 135).addr 0x3FF
     (ran (.clrf 5 135) s).get (Reg.HALL.FLAGS.word 135) = 0x30F) ∧
    (hallAt 135 0x1400FFFF fun c => { c with pending := 3, enabled := 4 }).issuing 5 135 0x05 0x1400FFFF := by decide +kernel

theorem witness_HallSpecials :
    ((ran (.gets 5 135) (hallAt 135 0x73E00000 id)).core 135).g 31 = 135 ∧
    (let c := (ran (.gets 5 135) (hallAt 135 0x73E00001 id)).core 135
     c.g 31 = 0 ∧ c.timeHi = some 0) ∧
    ((ran (.gets 5 135) (hallAt 135 0x73E00021 fun c => { c with ag := c.ag.set 3 { c.gen 3 with base := 9 } })).core 135).g 31 = 9 ∧
    ((ran (.gets 5 135) (hallAt 135 0x73E00037 fun c => { c with rings := c.rings.set 7 { rd := 0, count := 4, expected := [] } })).core 135).g 31 = 4 ∧
    ((ran (.gets 5 135) (hallAt 135 0x73E00038 id)).hall 135).trap = 2 ∧
    ((ran (.puts 5 135) (hallAt 135 0x741F0005 id)).hall 135).trap = 2 ∧
    (ran (.puts 5 135) (hallAt 135 0x741F0006 fun c => c.setG 31 5)).get (Reg.HALL.MBOX_OUT.word 135) = 5 ∧
    ((ran (.puts 5 135) (hallAt 135 0x741F0007 fun c => c.setG 31 5)).core 135).timer = 5 ∧
    (let u := ran (.puts 5 135) (hallAt 135 0x741F0022 fun c => { c.setG 31 8 with ag := c.ag.set 3 { c.gen 3 with ptr := 12 } })
     ((u.core 135).gen 3).ptr = 4 ∧ u.get ⟨(Reg.HALL.FLAGS.word 135).addr, 7, 1⟩ = 1) := by decide +kernel

/-- A store of a component that does not fit, with SAT; pm = 0b11 in halls 31 and 32. -/
theorem witness_HallMemory :
    badM 0x8E000000 = false ∧
    (let u := ran (.stv 5 135) (hallAt 135 0x8E000000 fun c => { c with v := c.v.set 0 (List.replicate 16 ⟨40000, -1⟩) })
     u.get (Reg.HALL.FLAGS.sat 135) = 1 ∧ Memory.readBytes (u.core 135).dm 60 4 = [0xFF, 0x7F, 0xFF, 0xFF]) ∧
    ((ran (.ldv 5 32) (hallAt 32 0x80060000 id)).hall 32).trap = 3 ∧ ((ran (.ldv 5 31) (hallAt 31 0x80060000 id)).hall 31).trap = 0 ∧
    mPm 0x80060000 = 3 := by decide +kernel

/-- The largest sum that fits, and one above it. -/
theorem witness_HallMac :
    (let s := hallAt 135 0xC4600000 fun c => { c with acc := c.acc.set 3 (List.replicate 16 ⟨2 ^ 43 - 1, 0⟩) }
     s.issuing 5 135 0x31 0xC4600000 ∧ (ran (.cmac 5 135) s).get (Reg.HALL.FLAGS.word 135) = 0) ∧
    (let s := hallAt 135 0xC4600000 fun c =>
       { c with acc := c.acc.set 3 (List.replicate 16 ⟨2 ^ 43 - 1, 0⟩), v := c.v.set 0 (List.replicate 16 ⟨1, 0⟩) }
     let u := ran (.cmac 5 135) s
     u.get ⟨(Reg.HALL.FLAGS.word 135).addr, 11, 1⟩ = 1 ∧ ((u.core 135).acc.getD 3 []).headD Cplx.zero = ⟨-(2 ^ 43), 0⟩ ∧
      ((u.core 135).pending).testBit evAccOvf = true) := by decide +kernel

theorem witness_HallVector :
    (let s := hallAt 135 0xD3E00000 fun c => { c with v := c.v.set 0 (List.replicate 16 ⟨65536, -65536⟩) }
     let u := ran (.vadd 5 135) s
     vSat 0xD3E00000 = true ∧ u.get (Reg.HALL.FLAGS.sat 135) = 1 ∧ ((u.core 135).vec 15).headD Cplx.zero = ⟨131071, -131072⟩) ∧
    (let s := hallAt 135 0xD5E00000 fun c => { c with v := c.v.set 0 (List.replicate 16 ⟨65536, -65536⟩) }
     (ran (.vsub 5 135) s).get (Reg.HALL.FLAGS.sat 135) = 0) := by decide +kernel

theorem witness_HallAccumulators :
    ((ran (.clra 5 135) (hallAt 135 0xE460002B id)).core 135).acc.getD 3 [] = List.replicate 16 ⟨2 ^ 42, 2 ^ 42⟩ ∧
    ((ran (.rsum 5 135) (hallAt 135 0xEC600000 fun c => { c with acc := c.acc.set 3 (List.replicate 16 ⟨2, -1⟩) })).core 135).acc.getD 3 [] =
      ⟨32, -16⟩ :: List.replicate 15 Cplx.zero ∧
    badX 0xF3F84000 = false ∧
    ((ran (.hallExp 5 135) (hallAt 135 0xF3F84000 fun c => { c with acc := c.acc.set 3 (List.replicate 16 ⟨1, -2 ^ 42⟩) })).core 135).g 31 = 1 ∧
    ((ran (.hallExp 5 135) (hallAt 135 0xF3F84000 id)).core 135).g 31 = 43 ∧
    (((ran (.norm 5 135) (hallAt 135 0xF7F82000 fun c => { c.setG 31 (-1) with acc := c.acc.set 3 (List.replicate 16 ⟨3, -3⟩) })).core 135).acc.getD 3
      []).headD Cplx.zero = ⟨1, -2⟩ := by decide +kernel

/-- Routes of hall 0: flow 0 to memory banks 12 and 13 and ring 0, flow 1 to ring 7 of hall 1. Hall 1's ring 7 has one slot. -/
def routes : Section :=
  let flow := fun kind dest ring first count => leBytes 1 kind ++ leBytes 1 dest ++ leBytes 1 (16 * ring) ++ [0] ++ leBytes 2 first ++ leBytes 2 count
  { type := secRoutes, inst := 0,
    bytes := [0, 0, 0, 0] ++ flow 2 0 0 12 2 ++ flow 1 1 7 0 0 ++ List.replicate (112 + 196 + 132 - 4 - 128 + 56) 0 ++ leBytes 2 128 ++ leBytes 2 64 ++
      List.replicate 4 0 }

def routed (w : Nat) (f : HallCore → HallCore) : State := planned [routes] (hallAt 0 w f)

/-- A held flit of flow 0 of hall 0 to its banks. -/
def memoryFlit : Flit :=
  { hall := 0, flow := 0, seq := 0, kind := 2, dest := 0, ring := 0, cls := 0, links := [], held := true, data := List.replicate 16 7 }

/-- SEND to memory and to hall 1; FETCH of two flits at the end of the banks, where hall 0's ring has no slot. -/
theorem witness_HallCorridors :
    (let s := routed 0xA0000000 fun c => { c with dm := [(0, 5)] }
     (s.route 0 0).kind = 2 ∧ (s.route 0 0).count = 2 ∧ (ran (.send 5 0) s).mem = [(12 * bankBytes, 5)]) ∧
    (let s := routed 0xA0002000 id
     (s.route 0 1).kind = 1 ∧ s.credits 0 1 = some 1 ∧ ((ran (.send 5 0) s).flits.map fun f => (f.hall, f.flow, f.dest, f.ring, f.seq)) = [(0, 1, 1, 7, 0)]) ∧
    (let s := routed 0xA0004000 id
     s.credits 0 2 = some 0 ∧ same (.send 5 0) s ((s.atTime 5).modHall 0 fun x => { x with credit := some 2 }) = true) ∧
    (let s : State := { (routed 0xA0000000 fun c =>
       { c with dm := [(0, 5)], flows := c.flows.modify 0 fun y => { y with rerouted := true } }) with flits := [memoryFlit] }
     let u := ran (.send 5 0) s
     u.mem = [] ∧ (u.flits.map fun f => f.held) = [true, true]) ∧
    (let s := routed 0xA4000002 fun c => c.setG 0 (BitVec.ofNat 32 (windowBase + 14 * bankBytes - 128))
     cCount 0xA4000002 = 2 ∧ s.ringFree 0 0 < 2 ∧ same (.fetch 5 0) s ((s.atTime 5).modHall 0 fun x => { x with credit := some 0 }) = true) ∧
    ((ran (.fetch 5 0) (routed 0xA4000002 fun c => c.setG 0 (BitVec.ofNat 32 (windowBase + 14 * bankBytes - 64)))).hall 0).trap = 7 := by
  decide +kernel

/-- A flit of flow 1 of hall 0 on its way to ring 7 of hall 1. -/
def aFlit (seq : Nat) (held : Bool) : Flit :=
  { hall := 0, flow := 1, seq := seq, kind := 1, dest := 1, ring := 7, cls := 0, links := [], held := held, data := List.replicate 16 9 }
def flying (x : Flit) : State := { routed 0 id with flits := [x] }

theorem witness_HallArrivals :
    same (.flitArrival 5 0 1) (flying (aFlit 0 true)) ((flying (aFlit 0 true)).atTime 5) = true ∧
    (flying (aFlit 0 false)).isWedged .corridors = false ∧ (flying (aFlit 0 false)).replaying 1 = false ∧
    (flying (aFlit 0 false)).ringSlots 1 7 = 1 ∧
    (let u := ran (.flitArrival 5 0 1) (flying (aFlit 0 false))
     u.flits = [] ∧ ((u.core 1).rings.getD 7 default).count = 1 ∧ Memory.readBytes (u.core 1).dm 188 4 = [9, 0, 0, 0] ∧
      assoc? ((u.core 1).rings.getD 7 default).expected 1 = some 1) ∧
    (ran (.flitArrival 5 0 1) (flying (aFlit 1 false))).get (Reg.HALL.SUPPRESSED.word 0) = 1 ∧
    same (.routeFlitRelease 5 0 1) (flying (aFlit 0 false)) ((flying (aFlit 0 false)).atTime 5) = true ∧
    ((ran (.routeFlitRelease 5 0 1) (flying (aFlit 0 true))).flits.map fun x => x.held) = [false] ∧
    (let u := ran (.routeFlitRelease 5 0 0) (flying memoryFlit)
     u.flits = [] ∧ Memory.readBytes u.mem (12 * bankBytes) 4 = [7, 0, 0, 0]) ∧
    (let x : Flit := { aFlit 0 false with links := [(0, 1)] }
     let y : Flit := { aFlit 0 false with hall := 2, cls := 3, links := [(0, 1)] }
     let s : State := { flying x with flits := [x, y] }
     (s.passOutputs 0 x.links).2 = [] ∧
      same (.flitArrival 5 2 1) s (s.atTime 5) = true ∧ (ran (.flitArrival 5 0 1) s).flits = [y] ∧
      runOf ((ran (.flitArrival 5 0 1) s).runsAt (0, 1)) 0 3 = 1) ∧
    (let s := r0.modHall 1 fun x => { x with fetches := [(7, 0)] }
     let u := ran (.fetchResult 5 1) s
     (u.hall 1).fetches = [] ∧ ((u.core 1).rings.getD 7 default).count = 1) := by decide +kernel

/-- Class 2 has waited through 31 grants to class 0. -/
theorem witness_ClassGrants :
    grantFrom [] [0, 2] 4 0 = 0 ∧ runOf [0, 31, 0, 0, 0, 0] 0 2 = 31 ∧ grantFrom [0, 31, 0, 0, 0, 0] [0, 2] 4 0 = 2 ∧
    grantFrom (runsAfter [0, 31, 0, 0, 0, 0] [0, 2] 2) [0, 2] 4 0 = 0 ∧ runOf (runsAfter [0, 30, 0, 0, 0, 0] [0, 2] 0) 0 2 = 31 ∧
    runOf (runsAfter [0, 30, 0, 0, 0, 0] [0] 0) 0 2 = 0 := by decide +kernel

theorem witness_HallEvents :
    same (.eventAccept 5 135) r0 (r0.atTime 5) = true ∧
    (let s := hallAt 135 0 fun c => { c with pending := 0xC000, enabled := 0xE000, pc := 5 }
     (s.atTime 5).hallLive 135 = true ∧
      (let u := ran (.eventAccept 5 135) s
       (u.core 135).pc = 14 ∧ (u.core 135).epc = 5 ∧ (u.core 135).evcause = 14 ∧ (u.core 135).shadow = true ∧ (u.core 135).pending = 0x8000)) ∧
    same (.doorbell 5 135) r0 (r0.atTime 5) = true ∧ ((ran (.doorbell 5 135) (hallAt 135 0 id)).core 135).pending = 2 ^ evDoorbell ∧
    (let s := timed (hallAt 135 0 fun c => { c with timer := 5 })
     ((ran (.hallTimer 5 135) s).core 135).pending = 2 ^ evTimer ∧ same (.hallTimer 6 135) s (s.atTime 6) = true) ∧
    r0.reaches 5 0 (Reg.HALL.MBOX_IN.word 135).addr ∧ (ran (.mboxInWrite 5 0 135 7) r0).word (Reg.HALL.MBOX_IN.word 135).addr = 7 ∧
    r0.reaches 5 0 (Reg.HALL.DM_DATA.word 135).addr ∧ (r0.hall 135).state = hallNoProgram ∧
    (let s := r0.put (Reg.HALL.DM_ADDR.addr 135) 0x3FFF
     let u := ran (.dmDataAccess 5 0 135 (some 0x01020304)) s
     (u.core 135).dm = [(65532, 4), (65533, 3), (65534, 2), (65535, 1)] ∧ u.get (Reg.HALL.DM_ADDR.addr 135) = 0) ∧
    (let s := hallAt 135 0 id
     let u := ran (.dmDataAccess 5 0 135 (some 1)) s
     (s.hall 135).state = hallRunning ∧ u.halls = s.halls ∧ u.get (Reg.HALL.STATUS.dm_write_lost 135) = 1 ∧
      u.get (Reg.HALL.DM_ADDR.addr 135) = 1) := by decide +kernel

/-! ### Fronthaul -/

/-- Eight ports of one lane. -/
def eight (s : State) : State := { s with fh := { s.fh with layout := 2 } }

/-- A static partner in entry 63 at home on one port, with another for alternate. -/
def partnered (home alt port : Nat) (s : State) : State :=
  ((((s.put (Reg.FRONTHAUL.PT_STATUS.state 63) ptActive).put (Reg.FRONTHAUL.PT_CTL.home 63) home).put (Reg.FRONTHAUL.PT_CTL.alt 63) alt).put
    (Reg.FRONTHAUL.PT_STATUS.port 63) port).put (Reg.FRONTHAUL.PT_EAXC.last 63) 0xFFFF

/-- The last instant of the attempts that a timeout forbids, and each end of its 10 ms. -/
theorem witness_FhBringUp :
    r0.fh.ports.length = 8 ∧
    ((fhAt fhListen).fhPort 7).retryAt ≤ max (fhAt fhListen).now 5 ∧ ((fhAt fhListen).get Reg.CLOCK.ISLAND_STATUS.locked).testBit 4 = true ∧
    (let u := ran (.portSignalDetect 5 7) (fhAt fhListen)
     u.fhPortState 7 = fhTrain ∧ (u.fhPort 7).since = 5 ∧ keeps (fhAt fhListen) u [(Reg.FRONTHAUL.PORT_STATUS.word 7).addr] = true) ∧
    (let s := (fhAt fhListen).modFhPort 7 fun x => { x with retryAt := 6 }
     same (.portSignalDetect 5 7) s (s.atTime 5) = true ∧ (ran (.portSignalDetect 6 7) s).fhPortState 7 = fhTrain ∧
      same (.portRetry 5 7) s (s.atTime 5) = true ∧ ((ran (.portRetry 6 7) s).fhPort 7).retryAt = 0) ∧
    (eight r0).fhPorts = 8 ∧ (eight r0).fhLanes 7 = [7] ∧
    (let s := (eight (fhAt fhTrain)).put (Reg.FRONTHAUL.PORT_CTL.fom_min 7) 255
     (let u := ran (.portTrainDone 5 7 [255]) s
      u.fhPortState 7 = fhAlign ∧ u.get (Reg.FRONTHAUL.LANE_RX.fom 7) = 255 ∧ u.get (Reg.FRONTHAUL.LANE_RX.fom_committed 7) = 255) ∧
     (ran (.portTrainDone 5 7 [254]) s).fhPortState 7 = fhTrain) ∧
    (let s := ((partnered 0 7 0 (fhAt fhAlign)).put (Reg.FRONTHAUL.PT_STATUS.unreachable 63) 1)
     let u := ran (.portAlignDone 5 7) s
     u.fhPortState 7 = fhUp ∧ u.get (Reg.FRONTHAUL.PT_STATUS.unreachable 63) = 0 ∧ u.get (Reg.FRONTHAUL.PT_STATUS.port 63) = 7) ∧
    (let s := (fhAt fhAlign).put (Reg.FRONTHAUL.PORT_STATUS.train_fail 7) 255
     (s.fhPort 7).noticed = false ∧ same (.portTrainTimeout (ticksOfMs 10 - 1) 7) s (s.atTime (ticksOfMs 10 - 1)) = true ∧
     (let u := ran (.portTrainTimeout (ticksOfMs 10) 7) s
      u.fhPortState 7 = fhListen ∧ (u.fhPort 7).retryAt = ticksOfMs 110 ∧ u.get (Reg.FRONTHAUL.PORT_STATUS.train_fail 7) = 0 ∧
       u.get Reg.HOST.INT_STATUS.topology = 1)) := by decide +kernel

theorem witness_FhFailover :
    (let s := (partnered 7 3 7 (fhAt fhUp)).put (Reg.FRONTHAUL.PORT_STATUS.state 3) fhUp
     s.fhUpOn 3 = true ∧ same (.linkFault 5 7 0) s (s.atTime 5) = true ∧
     (let u := ran (.linkFault 5 7 5) s
      u.fhPortState 7 = fhListen ∧ u.get (Reg.FRONTHAUL.PORT_STATUS.fault_cause 7) = 5 ∧ u.get (Reg.FRONTHAUL.PORT_STATUS.link_faults 7) = 1 ∧
      (u.fhPort 7).journal = [] ∧ (u.log.head?.map fun r => (r.kind, r.cls, r.unit, r.inst, r.cause)) = some (1, 0x0A, unitFronthaul, 7, 5) ∧
      u.get (Reg.FRONTHAUL.PT_STATUS.port 63) = 3 ∧ u.get (Reg.FRONTHAUL.PT_STATUS.unreachable 63) = 0)) ∧
    (let s := partnered 7 7 7 (fhAt fhUp)
     (ran (.linkFault 5 7 1) s).get (Reg.FRONTHAUL.PT_STATUS.unreachable 63) = 1) ∧
    (let s := partnered 7 3 3 (fhAt fhUp)
     (ran (.linkFault 5 7 1) s).get (Reg.FRONTHAUL.PT_STATUS.port 63) = 3 ∧ s.gates = [] ∧ (s.fhPort 3).queue = [] ∧
     s.get Reg.FRONTHAUL.DH_CTL.hold ≠ 0 ∧
     (ran (.flowReturnHome (ticksOfMs (10 * s.get Reg.FRONTHAUL.DH_CTL.hold)) 63) s).get (Reg.FRONTHAUL.PT_STATUS.port 63) = 7 ∧
     (ran (.flowReturnHome (ticksOfMs (10 * s.get Reg.FRONTHAUL.DH_CTL.hold) - 1) 63) s).get (Reg.FRONTHAUL.PT_STATUS.port 63) = 3) ∧
    same (.flowReturnHome 5 63) r0 (r0.atTime 5 |>.modFhPort 0 fun x => { x with journal := [] }) = true ∧
    (let f : SentFrame := { frame := { entry := 63, eaxc := 0, frame := 0, subframe := 0, slot := 0, sym := 0, sections := [] }, seq := 0,
                            release := 7, start := 10 ^ 9, again := false }
     let s := r0.modFhPort 7 fun x => { x with queue := [f] }
     ((ran (.ulStaleDiscard (7 + ticksOfUs 50) 7) s).fhPort 7).queue = [] ∧
     ((ran (.ulStaleDiscard (6 + ticksOfUs 50) 7) s).fhPort 7).queue = [f]) := by decide +kernel

/-- The MAC address of a test. -/
def macA : List Byte := [2, 0, 0, 0, 0, 9]

/-- Port 7 is UP at the address 02:00:00:00:00:00 + 7, partner 63 is its peer `macA`. -/
def fronted : State :=
  ((partnered 7 7 7 (fhAt fhUp)).put Reg.FRONTHAUL.MAC_HI.word 0x200 |>.put (Reg.FRONTHAUL.PT_MAC_HI.bytes 63) 0x200).put
    (Reg.FRONTHAUL.PT_MAC_LO.word 63) 9

/-- An eCPRI frame for port 7 with one message. -/
def ecpri (m : EcpriMsg) (length : Nat) (ok : Bool) : Frame :=
  { fcsOk := ok, length := length, dst := [2, 0, 0, 0, 0, 7], src := macA, vids := [], etherType := 0xAEFE, body := .ecpri 1 [m] }

theorem witness_FhFrames :
    let m : EcpriMsg := { type := 0, eaxc := 0xFFFF, ebit := true, sub := 0 }
    let mtu := fronted.get Reg.FRONTHAUL.MODE.mtu
    same (.frameReceive 5 7 (ecpri m 64 true)) (fhAt fhListen) ((fhAt fhListen).atTime 5) = true ∧
    fronted.power = powerActive ∧ 64 < mtu ∧ fronted.formOk 7 (ecpri m 64 true) = true ∧
    (fronted.ptUsed.find? fun k => fronted.srcMatches k (ecpri m mtu true) && fronted.ptHas k m.eaxc) = some 63 ∧
    same (.frameReceive 5 7 (ecpri m mtu true)) fronted ((fronted.atTime 5).modPartner 63 fun x => { x with last := 5 }) = true ∧
    same (.frameReceive 5 7 (ecpri m 63 true)) fronted ((fronted.atTime 5).bump (Reg.FRONTHAUL.PORT_DROP_FCS.word 7)) = true ∧
    same (.frameReceive 5 7 (ecpri m (mtu + 1) true)) fronted ((fronted.atTime 5).bump (Reg.FRONTHAUL.PORT_DROP_FCS.word 7)) = true ∧
    same (.frameReceive 5 7 (ecpri m 64 false)) fronted ((fronted.atTime 5).bump (Reg.FRONTHAUL.PORT_DROP_FCS.word 7)) = true ∧
    (let f := { ecpri m 64 true with dst := [2, 0, 0, 0, 0, 6] }
     fronted.formOk 7 f = false ∧ same (.frameReceive 5 7 f) fronted ((fronted.atTime 5).bump (Reg.FRONTHAUL.PORT_DROP_FORM.word 7)) = true) ∧
    (let f := { ecpri m 64 true with etherType := 0x88F7, dst := [1, 0x1B, 0x19, 0, 0, 0], body := .other }
     fronted.formOk 7 f = true ∧ same (.frameReceive 5 7 f) fronted (fronted.atTime 5) = true) ∧
    (let s := fronted.put (Reg.FRONTHAUL.PT_STATUS.state 63) ptEmpty
     s.ptUsed = [] ∧ s.mayEnrol [] m.eaxc = false ∧
     same (.frameReceive 5 7 (ecpri m 64 true)) s ((s.atTime 5).bump (Reg.FRONTHAUL.PORT_DROP_PARTNER.word 7)) = true) ∧
    (let s := fronted.put (Reg.FRONTHAUL.PT_STATUS.state 63) ptProvisional
     s.reaches 5 0 (Reg.FRONTHAUL.PT_CTL.word 63).addr ∧
     (let u := ran (.ptConfirm 5 0 63) s
      u.ptState 63 = ptActive ∧ u.get (Reg.FRONTHAUL.PT_CTL.valid 63) = 1 ∧
       keeps s u [(Reg.FRONTHAUL.PT_CTL.word 63).addr, (Reg.FRONTHAUL.PT_STATUS.word 63).addr] = true)) ∧
    same (.ptConfirm 5 0 63) fronted (fronted.atTime 5) = true := by decide +kernel

/-- The window of eAxC 5 of partner 63 expects 255 and holds some messages. -/
def windowed (held : List Held) : State := fronted.setWindow 63 { eaxc := 5, expected := some 255, held := held }

theorem witness_FhCplane :
    let h : Held := { seq := 0, at_ := 7, sections := [] }
    r0.fh.partners.length = 64 ∧ fronted.ptHas 63 0xFFFF = true ∧
    same (.cplaneMessage 5 62 5 255 []) fronted (fronted.atTime 5) = true ∧
    (let u := ran (.cplaneMessage 5 63 5 255 []) (windowed [h])
     u.window 63 5 = { eaxc := 5, expected := some 1, held := [] }) ∧
    (let u := ran (.cplaneMessage 5 63 5 30 []) (windowed [h])
     u.window 63 5 = { eaxc := 5, expected := some 255, held := [h, { seq := 30, at_ := 5, sections := [] }] } ∧ u.regs = (windowed [h]).regs) ∧
    (ran (.cplaneMessage 5 63 5 0 []) (windowed [h])).get (Reg.FRONTHAUL.PCNT.word 63 PCnt.cDup.idx) = 1 ∧
    (let u := ran (.cplaneMessage 5 63 5 31 []) (windowed [h])
     u.window 63 5 = { eaxc := 5, expected := some 32, held := [] } ∧ u.get (Reg.FRONTHAUL.PCNT.word 63 PCnt.cGap.idx) = 31) ∧
    (ran (.cplaneMessage 5 63 5 127 []) (windowed [])).get (Reg.FRONTHAUL.PCNT.word 63 PCnt.cDup.idx) = 1 ∧
    (ran (.cplaneMessage 5 63 5 126 []) (windowed [])).window 63 5 = { eaxc := 5, expected := some 127, held := [] } ∧
    same (.gapSkip 5 63 5) (windowed []) ((windowed []).atTime 5) = true ∧
    same (.gapSkip (6 + ticksOfUs 100) 63 5) (windowed [h]) ((windowed [h]).atTime (6 + ticksOfUs 100)) = true ∧
    (let u := ran (.gapSkip (7 + ticksOfUs 100) 63 5) (windowed [h])
     u.window 63 5 = { eaxc := 5, expected := some 1, held := [] } ∧ u.get (Reg.FRONTHAUL.PCNT.word 63 PCnt.cGap.idx) = 1) := by decide +kernel

/-- Carrier 0 runs, and a section covers PRBs 0 to 3 of symbols 28 and 29 of the downlink of eAxC 5, under partner 63. -/
def covered : State :=
  let s := carried { rec4 with dl := 8, ul := 8 } fronted
  { s with fh := { s.fh with force := [{ carrier := 0, layer := 5, dl := true, entry := 63, eaxc := 5, sectionId := 1, first := 28, last := 30,
                                         startPrb := 0, numPrb := 4, width := 9, beam := 0 }] } }

/-- A U-plane section of PRBs 2 and 3 of symbol 29. -/
def uSection (comp : Nat) : USection :=
  { frame := 0, subframe := 2, slot := 0, sym := 1, compMeth := comp, width := 9, startPrb := 2, prbs := [(17, []), (2, [])] }

theorem witness_FhUplane :
    covered.eaxcCarrier 5 = 0 ∧ covered.carActive 0 = true ∧ (covered.governs 5 true 29 2).isSome = true ∧
    (covered.governs 5 true 29 3).map (fun f => f.width) = some 9 ∧ covered.fh.lateOf = [] ∧
    ((covered.atTime 5).ptAccept 63).namedSlot (covered.form 0) 0 2 0 = some 2 ∧
    covered.sectionCause 5 { (default : CSection) with type := 2 } = 1 ∧
    same (.uplaneSection 5 62 5 (uSection 1)) covered (covered.atTime 5) = true ∧
    ((covered.atTime 5).ptAccept 63).namedSlot (covered.form 0) 0 10 0 = none ∧
    (ran (.uplaneSection 5 63 5 { uSection 1 with subframe := 10 }) covered).get (Reg.FRONTHAUL.PCNT.word 63 PCnt.uNoCplane.idx) = 1 ∧
    (ran (.uplaneSection 5 63 5 (uSection 0)) covered).get (Reg.FRONTHAUL.PCNT.word 63 PCnt.uComp.idx) = 1 ∧
    (let d : PrbData := { carrier := 0, symbol := 29, layer := 5, prb := 3, exp := 0, vals := [] }
     (ran (.uplaneSection 5 63 5 (uSection 1)) { covered with fh := { covered.fh with data := [d] } }).get
       (Reg.FRONTHAUL.PCNT.word 63 PCnt.uDup.idx) = 1) ∧ (covered.form 0).joint = false := by decide +kernel

/-- After the boundary of symbol 29 its deadline is over; at array time 0 no deadline is. -/
theorem witness_FhUplane_deadline :
    covered.dlDeadline 0 29 < (covered.atTime ((covered.form 0).boundary 29 + 1)).arrayNow ∧ (covered.atTime 0).arrayNow ≤ covered.dlDeadline 0 29 := by
  have h1 : (covered.atTime ((covered.form 0).boundary 29 + 1)).arrayNow = (covered.form 0).boundary 29 + 1 := by decide +kernel
  have h0 : (covered.atTime 0).arrayNow = 0 := by decide +kernel
  rw [h1, h0]
  exact ⟨by unfold State.dlDeadline; omega, Nat.zero_le _⟩

/-- A part with the IPv4 address 10.0.0.1, PTP in domain 3, and a master on port 7. -/
def addressed : State :=
  let s := ((fronted.put Reg.FRONTHAUL.IP4_ADDR.word 0x0A000001).put Reg.FRONTHAUL.PTP_CTL.mode 1).put Reg.FRONTHAUL.PTP_CTL.domain 3
  let s := s.put (Reg.FRONTHAUL.IP6_ADDR.word 3) 0x01000000
  { s with fh := { s.fh with masters := s.fh.masters.set 7 (some { quality := [], at_ := 0, sync := none }) } }

/-- An IPv6 address that ends in 1. -/
def ip6One : List Byte := List.replicate 15 0 ++ [1]

theorem witness_FhAnswers :
    addressed.fhPortState 7 = fhUp ∧ addressed.ownIp4 [10, 0, 0, 1] = true ∧ addressed.ownIp4 [10, 0, 0, 2] = false ∧
    addressed.ownIp6 ip6One = true ∧ addressed.ownIp6 [10, 0, 0, 2] = false ∧
    [(0, 2), (3, 0), (4, 1)].all (fun p => (ran (.delayMeasurement 5 7 p.1 9 11) addressed).out.map (fun o => match o with
      | .delay n a id stamp _ => (n, a, id, stamp)
      | _ => (0, 0, 0, 0)) == [(7, p.2, 9, 11)]) = true ∧
    (let u := ran (.delayMeasurement 5 7 1 9 11) addressed
     u.out = addressed.out ∧ u.fh.asked = [(7, 9, 11)] ∧ same (.delayMeasurement 6 7 5 8 0) u (u.atTime 6) = true ∧
      (ran (.delayMeasurement 6 7 5 9 0) u).fh.asked = [] ∧ (ran (.delayMeasurement 6 7 5 9 0) u).out.length = 1) ∧
    same (.delayMeasurement 5 7 6 9 11) addressed (addressed.atTime 5) = true ∧
    same (.delayMeasurement 5 6 0 9 11) addressed (addressed.atTime 5) = true ∧
    same (.arpRequest 5 7 macA [10, 0, 0, 9] [10, 0, 0, 1]) addressed
      ((addressed.atTime 5).emit (.arpReply 7 macA [10, 0, 0, 9] [10, 0, 0, 1])) = true ∧
    same (.arpRequest 5 7 macA [10, 0, 0, 9] [10, 0, 0, 2]) addressed (addressed.atTime 5) = true ∧
    same (.echoRequest 5 7 [10, 0, 0, 9] [10, 0, 0, 1] 4 6 [8]) addressed
      ((addressed.atTime 5).emit (.echoReply 7 [10, 0, 0, 1] [10, 0, 0, 9] 4 6 [8])) = true ∧
    same (.neighbourSolicitation 5 7 macA ip6One ip6One) addressed ((addressed.atTime 5).emit (.advertise 7 macA ip6One ip6One)) = true ∧
    same (.ptpMessage 5 7 2 (.sync 1 2)) addressed (addressed.atTime 5) = true ∧
    (let u := ran (.ptpMessage 5 7 3 (.sync 1 2)) addressed
     u.fh.masters.getD 7 none = some { quality := [], at_ := 0, sync := some (1, 2) } ∧ u.regs = addressed.regs) := by decide +kernel

theorem witness_FhLanes :
    (let s := ((eight (fhAt fhUp)).put (Reg.FRONTHAUL.LANE_RX.fom_committed 7) 100).put (Reg.FRONTHAUL.LANE_RX.rollback 7) 255
     s.fhPortOf 7 = 7 ∧ s.get (Reg.FRONTHAUL.LANE_RX.freeze 7) = 0 ∧
     [96, 95, 88, 87].map (fun fom => let u := ran (.fhAdaptCommit 5 7 fom) s
       (u.get (Reg.FRONTHAUL.LANE_RX.fom 7), u.get (Reg.FRONTHAUL.LANE_RX.fom_committed 7), u.get (Reg.FRONTHAUL.LANE_RX.rollback 7))) =
       [(96, 96, 255), (95, 100, 255), (88, 100, 255), (87, 100, 0)] ∧
     keeps s (ran (.fhAdaptCommit 5 7 87) s) [(Reg.FRONTHAUL.LANE_RX.word 7).addr] = true ∧
     (ran (.fhAdaptCommit 5 7 87) s).fh.laneBack.getD 7 0 = 5 ∧
     (let x := s.put (Reg.FRONTHAUL.LANE_RX.freeze 7) 1
      same (.fhAdaptCommit 5 7 87) x ((x.atTime 5).put (Reg.FRONTHAUL.LANE_RX.fom 7) 87) = true) ∧
     same (.injOne 5 0 7) s ((s.atTime 5).put (Reg.FRONTHAUL.LANE_TEST.refused 7) 1) = true ∧ same (.checkerLock 5 7 1 1) s (s.atTime 5) = true) ∧
    (let s := (((eight (fhAt fhTest)).put (Reg.FRONTHAUL.LANE_TEST.chk_en 7) 1).put (Reg.FRONTHAUL.LANE_BITS_LO.word 7) 0xFFFFFFFF).put
       (Reg.FRONTHAUL.LANE_ERR_HI.word 7) 0xFFFFFFFF
     s.reaches 5 0 (Reg.FRONTHAUL.LANE_TEST.word 7).addr ∧ same (.fhAdaptCommit 5 7 9) s (s.atTime 5) = true ∧
     (let v := ran (.injOne 5 0 7) s
      v.out = [.injectOne 7] ∧ v.fh.injected.getD 7 0 = 1 ∧
      (let x := ((v.put (Reg.FRONTHAUL.LANE_TEST.loopback 7) 2).put (Reg.FRONTHAUL.LANE_TEST.pattern 7) 1).put (Reg.FRONTHAUL.LANE_ERR_HI.word 7) 0
       let u := ran (.checkerLock 6 7 9 5) x
       x.hearsPattern 7 = true ∧ u.get (Reg.FRONTHAUL.LANE_ERR_LO.word 7) = 1 ∧ u.fh.injected.getD 7 0 = 0)) ∧
     s.hearsPattern 7 = true ∧
     (let u := ran (.checkerLock 5 7 1 (2 ^ 32)) s
      u.get (Reg.FRONTHAUL.LANE_TEST.chk_lock 7) = 1 ∧ u.get (Reg.FRONTHAUL.LANE_BITS_HI.word 7) = 1 ∧ u.get (Reg.FRONTHAUL.LANE_BITS_LO.word 7) = 0 ∧
       u.get (Reg.FRONTHAUL.LANE_ERR_HI.word 7) = 0)) := by decide +kernel

/-! ### Stair ports -/

/-- A detect burst of landing 9, port 0. -/
def burst (ack split : Bool) : Burst := { landing := 9, port := 0, split := split, tag := 0, ack := ack }

theorem witness_StairTraining :
    r0.stair.ports.length = 4 ∧ r0.stair.lanes.length = 16 ∧
    (let s := stairAt spListen slOff
     let u := ran (.detectBurst 5 3 (burst false false)) s
     u.sState 3 = spDetect ∧ (u.sPort 3).far = some (burst false false) ∧ (u.sPort 3).since = 5 ∧
      keeps s u [(Reg.STAIR.PORT_STATUS.word 3).addr] = true) ∧
    [spDisabled, spEcho, spFarEq, spFull, spHoldoff, spWaking].all (fun st =>
      same (.detectBurst 5 3 (burst true false)) (stairAt st slOff) ((stairAt st slOff).atTime 5)) = true ∧
    (let s := stairAt spDetect slOff
     same (.detectBurst 5 3 (burst true false)) s ((s.atTime 5).modSPort 3 fun x => { x with far := some (burst true false) }) = true ∧
     (let u := ran (.detectBurst 5 3 (burst true false)) (s.modSPort 3 fun x => { x with acked := true })
      u.sState 3 = spEcho ∧ u.laneState 12 = slTraining ∧ u.laneState 15 = slTraining) ∧
     (ran (.detectBurst 5 3 (burst true true)) (s.modSPort 3 fun x => { x with acked := true, split := true })).sState 3 = spFarEq ∧
     (let u := ran (.detectBurstSend 5 3) (s.modSPort 3 fun x => { x with burstAt := 5 })
      u.regs = s.regs ∧ (u.sPort 3).burstAt = 5 + ticksOfUs 20 ∧
       u.out = [.detectBurst 3 { landing := 0, port := 3, split := false, tag := 0, ack := false }])) ∧
    same (.detectBurstSend 5 3) (stairAt spUp slActive) ((stairAt spUp slActive).atTime 5) = true := by decide +kernel

theorem witness_StairPhases :
    (let s := stairAt spEcho slTraining
     same (.echoPhaseEnd (ticksOfMs 1 - 1) 3) s (s.atTime (ticksOfMs 1 - 1)) = true ∧
     (let u := ran (.echoPhaseEnd (ticksOfMs 1) 3) s
      (u.sPort 3).echoes = 1 ∧ u.sState 3 = spEcho) ∧
     (ran (.echoPhaseEnd (ticksOfMs 2) 3) (s.modSPort 3 fun x => { x with echoes := 1 })).sState 3 = spFarEq) ∧
    (let s := (stairAt spFarEq slTraining).put (Reg.STAIR.PORT_CTL.fom_min 3) 40
     (let u := ran (.farEqDone 5 3 [40, 255, 40, 41]) s
      u.sState 3 = spFull ∧ (u.sLane 15).startAt = some 5 ∧ u.get (Reg.STAIR.LANE_ADAPT.fom 13) = 255 ∧ u.get (Reg.STAIR.LANE_ADAPT.fom_committed 12) = 40) ∧
     (ran (.farEqDone 5 3 [39, 39, 0, 39]) s).sState 3 = spFarEq) ∧
    (let s := (stairAt spFull slTraining).put (Reg.STAIR.LANE_STATUS.state 15) slOut
     let u := ran (.fullDone 5 3 [1000]) s
     u.sState 3 = spUp ∧ (u.sPort 3).next = 0 ∧ u.laneState 14 = slActive ∧ u.laneState 15 = slOut) ∧
    same (.farEqDone 5 3 []) (stairAt spFull slTraining) ((stairAt spFull slTraining).atTime 5) = true ∧
    same (.fullDone 5 3 []) (stairAt spFarEq slTraining) ((stairAt spFarEq slTraining).atTime 5) = true ∧
    [spDetect, spFull].all (fun st =>
      let s := (stairAt st slTraining).put (Reg.STAIR.PORT_STATUS.train_fail 3) 255
      let u := ran (.portPhaseTimeout (ticksOfMs 10) 3) s
      same (.portPhaseTimeout (ticksOfMs 10 - 1) 3) s (s.atTime (ticksOfMs 10 - 1)) && u.sState 3 == spHoldoff &&
        u.get (Reg.STAIR.PORT_STATUS.cause 3) == st - 1 && u.get (Reg.STAIR.PORT_STATUS.train_fail 3) == 0) = true ∧
    (let s := stairAt spHoldoff slOff
     same (.holdoffEnd (ticksOfMs 100 - 1) 3) s (s.atTime (ticksOfMs 100 - 1)) = true ∧
     (let u := ran (.holdoffEnd (ticksOfMs 100) 3) s
      u.sState 3 = spListen ∧ u.sUse 3 = useNone ∧ u.laneState 15 = slOff)) := by decide +kernel

theorem witness_StairCodewords :
    same (.codewordReceive 5 11 0 true none 0) flown (flown.atTime 5) = true ∧
    flown.sUp 3 = true ∧ flown.laneState 12 = slActive ∧
    same (.codewordReceive 5 12 0 true none 2) flown ((flown.atTime 5).bump (Reg.STAIR.PORT_FEC_UNCORR.word 3)) = true ∧
    same (.codewordReceive 5 12 16383 false none 0) flown ((flown.atTime 5).modSPort 3 fun x => { x with rxNext := 0, rxHave := [] }) = true ∧
    same (.codewordReceive 5 12 16382 false none 0) flown ((flown.atTime 5).bump (Reg.STAIR.PORT_DUP.word 3)) = true ∧
    same (.codewordReceive 5 12 8191 false none 0) flown ((flown.atTime 5).bump (Reg.STAIR.PORT_DUP.word 3)) = true ∧
    same (.codewordReceive 5 12 8190 false none 0) flown ((flown.atTime 5).modSPort 3 fun x => { x with rxHave := [8190] }) = true ∧
    same (.codewordResend (9 + ticksOfUs 2) 3) flown (flown.atTime (9 + ticksOfUs 2)) = true ∧
    (let u := ran (.codewordResend (10 + ticksOfUs 2) 3) (flown.put (Reg.STAIR.PORT_RESENT.word 3) 0xFFFFFFFF)
     u.out.head? = some (.codewordAgain 3 7) ∧ u.get (Reg.STAIR.PORT_RESENT.word 3) = 0 ∧
      (u.sPort 3).unacked.head? = some { seq := 7, begun := 10 + ticksOfUs 2, msg := none, load := none }) ∧
    same (.ackStall (9 + ticksOfUs 20) 3) flown (flown.atTime (9 + ticksOfUs 20)) = true ∧
    (ran (.ackStall (10 + ticksOfUs 20) 3) flown).get (Reg.STAIR.PORT_STATUS.cause 3) = 14 ∧
    same (.helloTimeout (9 + ticksOfMs 1) 3) flown (flown.atTime (9 + ticksOfMs 1)) = true ∧
    (ran (.helloTimeout (10 + ticksOfMs 1) 3) flown).get (Reg.STAIR.PORT_STATUS.cause 3) = 9 := by decide +kernel

/-- Gray coding of the four pairs; a lane of one period; the scrambler's 59th bit, its bits after the first 3, and its seeds. -/
theorem witness_LaneCoding :
    grayLevels [false, false, false, true, true, true, true, false] = [-3, -1, 1, 3] ∧ grayBits [-3, -1, 1, 3] = [false, false, false, true, true, true, true, false] ∧
    (withPilots (List.replicate 64 3) 0 [1, -1]).length = 66 ∧ (withPilots (List.replicate 64 3) 0 [1, -1]).getD 65 0 = -1 ∧
    noPilots 0 (withPilots (List.replicate 64 3) 0 [1, -1]) = [1, -1] ∧ laneSymbol 4032 = 4096 ∧ laneSymbol 4033 = 4096 + 65 ∧
    (let x := scrambler 0x200000000080001 0 60
     x.getD 0 false = true ∧ x.getD 19 false = true ∧ x.getD 57 false = true ∧ x.getD 58 false = false ∧ scrambler 0x200000000080001 57 3 = x.drop 57) ∧
    (codeSymbols { seq := 513, begun := 0, msg := none, load := none }).head? = some 1 := by decide +kernel

theorem witness_StairFaults :
    [7, 13, 15].all (fun c => same (.flightFault 5 3 (Fin.ofNat 16 c)) flown (flown.atTime 5)) = true ∧
    same (.flightFault 5 2 8) flown (flown.atTime 5) = true ∧
    flown.parentPort = none ∧ flown.treeOf.asking = none ∧
    [8, 9, 10, 12, 14].all (fun c =>
      let u := ran (.flightFault 5 3 (Fin.ofNat 16 c)) (flown.put (Reg.STAIR.PORT_STATUS.flight_faults 3) 255)
      u.sState 3 == spHoldoff && u.get (Reg.STAIR.PORT_STATUS.cause 3) == c && u.get (Reg.STAIR.PORT_STATUS.flight_faults 3) == 0 &&
        u.sUse 3 == useNone && u.laneState 15 == slOff && (u.sPort 3).unacked.isEmpty &&
        (u.log.head?.map fun r => (r.kind, r.cls, r.unit, r.inst, r.cause)) == some (1, 0x0C, unitStair, 3, c)) = true ∧
    same (.laneFault 5 15 0) flown (flown.atTime 5) = true ∧ same (.laneFault 5 0 5) flown (flown.atTime 5) = true ∧
    flown.minLanes 3 = 3 ∧ (flown.activeLanes 3).length = 4 ∧
    (let u := ran (.laneFault 5 15 5) (flown.put (Reg.STAIR.LANE_STATUS.faults 15) 255)
     u.laneState 15 = slOut ∧ u.get (Reg.STAIR.LANE_STATUS.cause 15) = 5 ∧ u.get (Reg.STAIR.LANE_STATUS.faults 15) = 0 ∧ u.sUp 3 = true ∧
      (u.get (Reg.STAIR.PORT_STATUS.lanes 3)).testBit 3 = false ∧
      same (.laneRejoin 6 15) u ((u.atTime 6).modSLane 15 fun x => { x with qualified := true }) = true ∧
      (let v := timed u
       (v.atTime planningSlot).arrayNow % planningSlot = 0 ∧
       same (.laneRejoin (planningSlot + 1) 15) v ((v.atTime (planningSlot + 1)).modSLane 15 fun x => { x with qualified := true }) = true ∧
       (let w := ran (.laneRejoin planningSlot 15) v
        w.laneState 15 = slActive ∧ (w.get (Reg.STAIR.PORT_STATUS.lanes 3)).testBit 3 = true))) ∧
    same (.laneRejoin 5 15) flown (flown.atTime 5) = true := by decide +kernel

theorem witness_StairLanes :
    let s := (((flown.put (Reg.STAIR.LANE_ADAPT.fom_committed 15) 100).put (Reg.STAIR.LANE_ADAPT.rollback 15) 255).put
      (Reg.STAIR.LANE_ADAPT.idle 15) 1).modSLane 15 fun x => { x with busyAt := 10 }
    same (.stairAdaptCommit 5 0 255) s (s.atTime 5) = true ∧ same (.laneIdle 5 0) s (s.atTime 5) = true ∧ same (.idleRollback 5 0 0) s (s.atTime 5) = true ∧
    [96, 95].map (fun fom => let u := ran (.stairAdaptCommit 5 15 fom) s
      (u.get (Reg.STAIR.LANE_ADAPT.fom 15), u.get (Reg.STAIR.LANE_ADAPT.fom_committed 15), keeps s u [(Reg.STAIR.LANE_ADAPT.word 15).addr])) =
      [(96, 96, true), (95, 100, true)] ∧
    (ran (.stairAdaptCommit 5 15 101) (s.put (Reg.STAIR.LANE_ADAPT.freeze 15) 1)).get (Reg.STAIR.LANE_ADAPT.fom_committed 15) = 100 ∧
    (let v := s.put (Reg.STAIR.LANE_ADAPT.idle 15) 0
     same (.laneIdle (10 + ticksOfUs 10) 15) v ((v.atTime (10 + ticksOfUs 10)).put (Reg.STAIR.LANE_ADAPT.idle 15) 1) = true ∧
     same (.laneIdle (9 + ticksOfUs 10) 15) v (v.atTime (9 + ticksOfUs 10)) = true) ∧
    (let u := ran (.idleRollback 5 15 87) s
     u.get (Reg.STAIR.LANE_ADAPT.fom 15) = 87 ∧ u.get (Reg.STAIR.LANE_ADAPT.rollback 15) = 0 ∧ u.get (Reg.STAIR.LANE_ADAPT.fom_committed 15) = 100 ∧
      (u.sLane 15).rolled = true) ∧
    same (.idleRollback 5 15 88) s (s.atTime 5) = true := by decide +kernel

theorem witness_StairTime :
    let s := flown.modSPort 3 fun x => { x with markAt := 7, markIndex := 7 }
    same (.timeMark 5 2 none 9) s (s.atTime 5) = true ∧ s.sUse 3 ≠ useChild ∧
    same (.timeMark 5 3 (some 8) 9) s ((s.atTime 5).modSPort 3 fun x => { x with heardMarks := [(0, 9)] }) = true ∧
    same (.timeMark 6 3 none 9) s (s.atTime 6) = true ∧
    (let u := ran (.timeMark 7 3 none 9) s
     u.out.head? = some (.pilotMark 3 7) ∧ u.out.length = 2 ∧ s.activeLanes 3 = [12, 13, 14, 15] ∧ assoc? (u.sPort 3).sentMarks 7 = some 9 ∧
      (u.sPort 3).markAt = 7 + ticksOfMs (s.get Reg.STAIR.TIME_CTL.period) ∧ (u.sPort 3).markIndex = 0) ∧
    same (.time 5 3 0 0 0) s (s.atTime 5) = true ∧
    (let v := ((s.put Reg.STAIR.STATUS.has_parent 1).put Reg.STAIR.STATUS.parent 3).modSPort 3 fun x =>
       { x with heardMarks := [(7, 1010)], sentMarks := [(7, 2000)] }
     v.parentPort = some 3 ∧ v.get Reg.CLOCK.REF_STATUS.source ≠ srcParent ∧ (v.sPort 3).holdDelay = false ∧
     (let u := ran (.time 5 3 15 1000 2999) v
      u.getS Reg.STAIR.TIME_ERR.word = 10 - (1999 - 990) / 2 ∧ (u.sPort 3).delays = [(1999 - 990) / 2] ∧ assoc? (u.sPort 3).heardMarks 7 = none)) := by decide +kernel

theorem witness_StairSleep :
    same (.sleep 5 2) flown (flown.atTime 5) = true ∧ flown.parentPort ≠ some 3 ∧
    (let u := ran (.sleep 5 3) flown
     u.sState 3 = spSleep ∧ u.sUse 3 = useNone) ∧
    [spSleep, spListen, spHoldoff].all (fun st =>
      let s := stairAt st slOff
      decide (s.reaches 5 0 (Reg.STAIR.PORT_CTL.word 3).addr) &&
      (let u := ran (.stairWake 5 0 3) s
       u.sState 3 == spWaking && u.out == [.wakePattern 3])) = true ∧
    [spDisabled, spUp, spDetect, spFull].all (fun st => same (.stairWake 5 0 3) (stairAt st slOff) ((stairAt st slOff).atTime 5)) = true ∧
    same (.stairRetrain 5 0 3) (stairAt spDisabled slOff) ((stairAt spDisabled slOff).atTime 5) = true ∧
    [spListen, spWaking].all (fun st =>
      let u := ran (.stairRetrain 5 0 3) ((stairAt st slOff).put (Reg.STAIR.PORT_CTL.split 3) 1)
      u.sState 3 == spListen && (u.sPort 3).split && u.out.isEmpty) = true ∧
    (let s := stairAt spWaking slOff
     (s.sLane 15).startAt = none ∧ same (.wakePatternSent (ticksOfUs 20 - 1) 3) s (s.atTime (ticksOfUs 20 - 1)) = true ∧ (ran (.wakePatternSent (ticksOfUs 20) 3) s).sState 3 = spListen) ∧
    same (.wakePatternDetect 5 2 true) flown (flown.atTime 5) = true ∧ flown.power ≠ powerIdle ∧
    same (.wakePatternDetect 5 3 false) flown ((flown.atTime 5).wakeSource 2) = true ∧
    same (.wakePatternDetect 5 3 true) flown (((flown.atTime 5).wakeSource 2).wakeSource 3) = true := by decide +kernel

/-- A mask of -6 dB from 0 MHz, and a tap set of a main tap alone. -/
def mask6 : State := (r0.put (Reg.STAIR.MASK.freq 7) 0).putS (Reg.STAIR.MASK.limit 7) (-1536)
def tapMain (m : Nat) : Word := BitVec.ofNat 32 (m * 2 ^ 12)

theorem witness_StairMasks :
    let a := (Reg.STAIR.LANE_TXF.word 15).addr
    let bad := (mask6.atTime 5).storeWord a (tapMain 63)
    let good := (mask6.atTime 5).storeWord a (tapMain 31)
    mask6.reaches 5 0 a ∧ exceedsMask mask6.maskBreaks (bad.word a) = true ∧ exceedsMask mask6.maskBreaks (good.word a) = false ∧
    same (.laneTxfWrite 5 (some 0) 15 (tapMain 31)) mask6 good = true ∧
    same (.laneTxfWrite 5 none 15 (tapMain 63)) mask6 (((mask6.atTime 5).put (Reg.STAIR.LANE_STATUS.mask_fail 15) 1).emit (.tapRefusal 15)) = true := by
  decide +kernel

/-! ### The tree -/

/-- What a landing says of itself, at the ends of the fields. -/
def hello15 : Hello := { landing := 511, role := 3, tree := 7, depth := 15, tag := 0, count := 4, top := 0 }

theorem witness_TreeBeats :
    same (.helloSend 5 2) flown (flown.atTime 5) = true ∧ same (.hello 5 2 hello15) flown (flown.atTime 5) = true ∧
    flown.sUp 3 = true ∧
    (let s := flown.modSPort 3 fun x => { x with since := 3, helloSent := 3 }
     same (.helloSend (2 + ticksOfUs 100) 3) s (s.atTime (2 + ticksOfUs 100)) = true) ∧
    (topped treeFormed).isTop = true ∧
    (let u := ran (.hello 10 3 hello15) (topped treeFormed)
     (u.sPort 3).hello = some hello15 ∧ (u.sPort 3).lastHello = 10 ∧ u.get (Reg.STAIR.PORT_PEER.valid 3) = 1 ∧
      u.get (Reg.STAIR.PORT_PEER.depth 3) = 15 ∧ u.get (Reg.STAIR.PORT_PEER.role 3) = 3 ∧ u.get (Reg.STAIR.PORT_PEER.tree 3) = 7 ∧
      u.get (Reg.STAIR.PORT_PEER.landing 3) = 511 ∧ keeps (topped treeFormed) u [(Reg.STAIR.PORT_PEER.word 3).addr] = true) := by decide +kernel

theorem witness_TreeHeartbeats :
    (below treeFormed).isTop = false ∧ same (.treeHeartbeat (ticksOfMs 1)) (below treeFormed) ((below treeFormed).atTime (ticksOfMs 1)) = true ∧
    [treeForming, treeFormed].all (fun st =>
      let s := (topped st).put Reg.STAIR.TREE.current_path 255
      s.treeState == st && s.isTop && s.childPorts == [3] &&
      same (.treeHeartbeat (ticksOfMs 1 - 1)) s (s.atTime (ticksOfMs 1 - 1))) = true ∧
    [treeNone, treeOrphan, treeLost, treeRefused].all (fun st => same (.treeHeartbeat (ticksOfMs 1)) (topped st) ((topped st).atTime (ticksOfMs 1))) = true ∧
    [treeNone, treeLost, treeRefused].all (fun st => same (.treeLost (ticksOfMs 3)) (below st) ((below st).atTime (ticksOfMs 3))) = true ∧
    [treeForming, treeFormed, treeOrphan].all (fun st =>
      same (.treeLost (ticksOfMs 3 - 1)) (below st) ((below st).atTime (ticksOfMs 3 - 1)) &&
      (let u := ran (.treeLost (ticksOfMs 3)) (below st)
       u.treeState == treeLost && (u.log.head?.map fun r => (r.kind, r.unit)) == some (4, unitStair) && u.get Reg.HOST.INT_STATUS.topology == 1)) = true := by
  decide +kernel

theorem witness_TreeForming :
    (below treeFormed).isTop = false ∧
    (let s := topped treeForming
     s.isTop = true ∧ s.landingCount = 4 ∧ s.stair.tree.joined = [] ∧
     ((ran (.join 5 3 3 77 [1]) s).treeOf.joined.map fun e => e.1) = [3]) ∧
    same (.tree 5 3 treeFormed 1 2 3 none) (topped treeForming) ((topped treeForming).atTime 5) = true ∧
    same (.tree 5 2 treeFormed 1 2 3 none) (below treeForming) ((below treeForming).atTime 5) = true ∧
    (below treeForming).parentPort = some 3 ∧
    (let u := ran (.tree 5 3 treeFormed 255 65535 9 (some 1)) (below treeForming)
     u.treeState = treeFormed ∧ u.get Reg.STAIR.TREE.formed_path = 255 ∧ u.get Reg.STAIR.TREE.current_path = 255 ∧
      u.get Reg.STAIR.TREE.addition = 65535 ∧ u.treeOf.start = 9) ∧
    (ran (.tree 5 3 treeRefused 0 0 0 (some 1)) (below treeForming)).treeState = treeRefused ∧
    (below treeFormed).childPorts = [] ∧
    (let u := ran (.tree 15 3 treeFormed 255 0 9 none) (below treeFormed)
     u.treeState = treeFormed ∧ u.treeOf.lastTree = 15 ∧ u.get Reg.STAIR.TREE.current_path = 255 ∧
      keeps (below treeFormed) u [Reg.STAIR.TREE.word.addr] = true) := by decide +kernel

/-- A landing that asks for a parent on port 2 since the time 10. -/
def asks : State := ((below treeOrphan).put Reg.STAIR.STATUS.has_parent 0).modTree fun x => { x with asking := some (2, 10) }

theorem witness_TreeParents :
    same (.reparent 5 3 9 0 0 2 []) (topped treeFormed) ((topped treeFormed).atTime 5) = true ∧
    same (.reparent 5 3 9 0 0 1 []) (topped treeFormed) (((topped treeFormed).atTime 5).confirmDown 9 0 0) = true ∧
    same (.reparentTimeout 5) (topped treeFormed) ((topped treeFormed).atTime 5) = true ∧
    asks.treeOf.asking = some (2, 10) ∧
    same (.reparentTimeout (9 + ticksOfUs 20)) asks (asks.atTime (9 + ticksOfUs 20)) = true ∧
    (let u := ran (.reparentTimeout (10 + ticksOfUs 20)) asks
     (u.sPort 2).excluded = true ∧ u.treeOf.asking = none) ∧
    asks.landing = 1 ∧ same (.reparent 15 2 1 0 0 1 []) asks ((asks.atTime 15).parentConfirmed 2) = true ∧
    same (.reparent 15 2 1 0 0 2 []) asks (asks.atTime 15).abandon = true ∧
    same (.resume 5 3 0 0) (topped treeFormed) ((topped treeFormed).atTime 5) = true ∧
    (let s := (carried { rec4 with dl := 1 } (topped treeFormed)).modTree fun x => { x with history := [(3, .layer (layerOf 4095 13))] }
     s.ofSymbol 0 (4095 * 14 + 13) (.layer (layerOf 4095 13)) = true ∧
     same (.resume 5 3 0 (4095 * 14 + 13)) s (s.atTime 5) = true ∧
     s.ofSymbol 0 (4095 * 14 + 12) (.layer (layerOf 4095 13)) = false) := by decide +kernel

/-- A chunk sum of landing 1 that holds its own outputs and expects port 3. -/
def partSum (heard : List Nat) (own complete : Bool) : ChunkSum :=
  { carrier := 0, layer := 0, slot := 4095, sym := 13, first := 0, parts := [], expected := [3], heard := heard, own := own, complete := complete,
    form := rec4, total := [], inverses := [], outExp := 0 }

/-- Before array time starts no chunk is late. -/
theorem never_late (s : State) (c slot sym : Nat) (h : s.clock.started = false) : s.chunkLate c slot sym = false := by
  simp [State.chunkLate, State.arrayNow, h]

theorem witness_TreeSums :
    let x : Chunk := layerOf 4095 13
    let held := fun y => (topped treeFormed).setSum y
    let mid := fun y => (below treeFormed).setSum y
    (topped treeFormed).sUse 2 ≠ useChild ∧ same (.partialSum 5 2 x) (topped treeFormed) ((topped treeFormed).atTime 5) = true ∧
    (topped treeFormed).sUse 3 = useChild ∧ ((topped treeFormed).atTime 5).clock.started = false ∧
    ((held (partSum [3] true false)).atTime 5).beginSum 0 0 4095 13 0 = partSum [3] true false ∧
    ((held (partSum [] true true)).atTime 5).beginSum 0 0 4095 13 0 = partSum [] true true ∧
    ((held (partSum [] true false)).atTime 5).beginSum 0 0 4095 13 0 = partSum [] true false ∧
    (partSum [] true false).named 0 0 4095 13 0 = true ∧ (((topped treeFormed).atTime 5).beginSum 0 0 4095 13 0).expected = [] ∧
    same (.chunkForward 5 0 0 4095 13 0) (below treeFormed) ((below treeFormed).atTime 5) = true ∧
    (mid (partSum [] true false)).sumOf 0 0 4095 13 0 = some (partSum [] true false) ∧
    same (.chunkForward 5 0 0 4095 13 0) (mid (partSum [3] true true)) ((mid (partSum [3] true true)).atTime 5) = true ∧
    same (.chunkForward 5 0 0 4095 13 0) (mid (partSum [3] false false)) ((mid (partSum [3] false false)).atTime 5) = true ∧
    (ran (.chunkForward 5 0 0 4095 13 0) (mid (partSum [3] true false))).treeOf.sums = [{ partSum [3] true true with expected := [3] }] ∧
    (below treeFormed).isTop = false ∧
    (topped treeFormed).isTop = true ∧ (topped treeFormed).sumOf 0 0 4095 13 0 = none ∧ (topped treeFormed).treeOf.missing = [] ∧
    (topped treeFormed).treeOf.suppl = [] ∧ assoc? (topped treeFormed).treeOf.moved 1 = none ∧
    (below treeFormed).parentPort = some 3 ∧
    (let s := (below treeFormed).modTree fun y => { y with history := [(3, .layer x), (4, .sections 0 [])] }
     s.holds (.layer x) = true ∧ same (.layer 5 3 x) s (s.atTime 5) = true ∧
     s.holds (.sections 0 []) = true ∧ same (.sections 5 3 0 []) s (s.atTime 5) = true ∧
     s.holds (.layer (layerOf 4095 12)) = false ∧ s.holds (.sections 1 []) = false ∧
     (ran (.layer 5 3 (layerOf 4095 12)) s).treeOf.history.length = 3 ∧ (ran (.sections 5 3 1 []) s).treeOf.history.length = 3) := by decide +kernel

/-- Carrier 0 runs: its egress landing is this one, or landing 1; its uplink gate waits for two chunks of symbol 5. -/
def gated (egress : Nat) : State :=
  let g : GateEntry := { (default : GateEntry) with kind := .up, carrier := 0, form := { rec4 with egress := egress }, symbol := 5, wait := 2 }
  { carried { rec4 with egress := egress } (topped treeFormed) with gates := [g] }

/-- A chunk of one PRB of symbol 5. -/
def chunk5 : Chunk := { layerOf 0 5 with prbs := [(0, [])] }

theorem witness_TreeFinished :
    ((gated 1).formOf 0 0 5).egress = 1 ∧ same (.finished 5 3 chunk5) (gated 1) (((gated 1).atTime 5).sendTo 1 (.finished chunk5)) = true ∧
    ((gated 0).formOf 0 0 5).egress = (gated 0).landing ∧ ((gated 0).formOf 0 0 5).named ((gated 0).atTime 5).arrayNow 0 5 = 5 ∧
    (let u := ran (.finished 5 3 chunk5) (gated 0)
     (u.gates.map fun g => (g.wait, g.data.length)) = [(1, 1)] ∧ u.regs = (gated 0).regs) := by decide +kernel

/-- An epoch of carrier 7 for slot 4095, with no contribution yet. -/
def epoch7 : Epoch := { (default : Epoch) with slot := 4095 + 4096 }
def solvingTop : State := (topped treeFormed).setEpoch 7 epoch7
def gram0 : GramRec := { group := 1, dl := true, g := [], eG := 0 }
def inverse0 : InverseRec := { group := 1, dl := true, a := [], eA := 0, sc := [], eS := 0, failed := true }

theorem witness_TreeGrams :
    solvingTop.epochOf 7 4094 = none ∧ same (.gram 5 3 7 4094 [gram0]) solvingTop (solvingTop.atTime 5) = true ∧
    solvingTop.epochOf 7 4095 = some epoch7 ∧ (solvingTop.form 7).joint = false ∧ solvingTop.beam.epochs.length = 8 ∧
    (let u := ran (.gram 5 3 7 4095 [gram0]) solvingTop
     (u.epochOf 7 4095).map (fun e => e.grams) = some [gram0] ∧
     ((ran (.gram 6 3 7 4095 [gram0]) u).epochOf 7 4095).map (fun e => e.grams) = some [gram0] ∧
     ((ran (.gram 6 2 7 4095 [gram0]) u).epochOf 7 4095).map (fun e => e.grams) = some [gram0, gram0]) ∧
    solvingTop.holds (.inverse 7 4095 [inverse0]) = false ∧
    (let s := solvingTop.put (Reg.STAIR.PORT_STATUS.use 3) useStandby
     s.childPorts = [] ∧
     (let u := ran (.inverse 5 3 7 8191 [inverse0]) s
      (u.epochOf 7 4095).map (fun e => e.inverses) = some [inverse0] ∧ u.holds (.inverse 7 4095 [inverse0]) = true ∧
      same (.inverse 6 3 7 4095 [inverse0]) u (u.atTime 6) = true)) := by decide +kernel

/-! ### Over-the-air calibration -/

/-- Carrier 0 at 30 kHz with 56 PRBs, one slot a period, symbols 6 to 9 flexible: the OTA carrier, on the top landing or on landing 1. -/
def roundIn (role mode : Nat) : State :=
  let s := carried { rec4 with width := 56, spacing := 1, tdd := 1 } ((landed role role r0).put Reg.STAIR.STATUS.tree treeFormed)
  ((s.modCar 0 fun x => { x with pattern := BitVec.ofNat 32 (6 * 2 ^ 16 + 4) }).put Reg.OTA.CTL.mode mode).put Reg.OTA.ROUND.number 65535

theorem witness_OtaRounds :
    let s := roundIn 0 1
    let refused := fun (v : State) cause => same (.otaStart 5 0) v ((v.atTime 5).put Reg.OTA.STATUS.cause cause)
    s.reaches 5 0 Reg.OTA.CMD.word.addr ∧ s.mayStart 5 ∧ s.childPorts = [] ∧
    (let u := ran (.otaStart 5 0) s
     u.get Reg.OTA.STATUS.state = 1 ∧ u.get Reg.OTA.ROUND.number = 0 ∧ u.get Reg.OTA.ROUND.windows = 8 + s.burstCount 4 ∧ u.ota.active = true ∧
      (u.ota.windows.map fun e => e.2.2) = s.roundWindows ∧ u.ota.lastStart = 5 ∧ u.out = s.out) ∧
    refused (roundIn 1 1) 1 = true ∧ refused (s.put Reg.OTA.STATUS.state 1) 2 = true ∧ refused (s.put Reg.OTA.STATUS.staged 1) 2 = true ∧
    refused (roundIn 0 0) 5 = true ∧ refused (s.put Reg.STAIR.STATUS.tree treeForming) 4 = true ∧
    (let v := s.modCar 0 fun x => { x with form := some { rec4 with width := 55, spacing := 1, tdd := 1 } }
     (v.atTime 5).windowOk = false ∧ refused v 3 = true) ∧
    same (.otaDiscard 5 0) (s.put Reg.OTA.STATUS.staged 1) (s.atTime 5) = true ∧
    same (.otaRoundTimer 5) (roundIn 1 1) ((roundIn 1 1).atTime 5) = true ∧
    s.ota.staleAt = none ∧ s.get Reg.OTA.CTL.interval = 10 ∧
    same (.otaRoundTimer (ticksOfMs 1000 - 1)) s (s.atTime (ticksOfMs 1000 - 1)) = true ∧
    s.mayStart (ticksOfMs 1000) ∧ (ran (.otaRoundTimer (ticksOfMs 1000)) s).get Reg.OTA.STATUS.state = 1 ∧
    (ran (.otaRoundTimer 5) { s with ota := { s.ota with staleAt := some 3 } }).get Reg.OTA.STATUS.state = 1 := by decide +kernel

/-- Windows of senders 1 and 3, and of none. -/
def pairWindow (kind : Nat) : OtaWindow := { kind := kind, senders := [1, 3] }
def loopWindow : OtaWindow := { kind := 0, senders := [] }

/-- A round in progress with some windows, number 255 or 65535. -/
def inRound (role mode state : Nat) (l : List (Nat × Nat × OtaWindow)) : State :=
  let s := (roundIn role mode).put Reg.OTA.STATUS.state state
  { s with ota := { s.ota with active := true, windows := l } }

theorem witness_OtaSchedules :
    same (.schedule 5 9 0 0 [loopWindow]) (roundIn 1 0) ((roundIn 1 0).atTime 5) = true ∧
    (roundIn 1 1).running (roundIn 1 1).otaCarrier = true ∧ (roundIn 1 1).isTop = false ∧
    (let u := ran (.schedule 5 (65536 + 9) 0 0 [loopWindow, pairWindow 1]) (roundIn 1 1)
     u.get Reg.OTA.STATUS.state = 1 ∧ u.get Reg.OTA.ROUND.number = 9 ∧ u.get Reg.OTA.ROUND.windows = 2 ∧ u.ota.active = true ∧
      (u.ota.windows.map fun e => (e.1, e.2.2)) = [(0, loopWindow), (1, pairWindow 1)]) ∧
    same (.schedule 5 255 9 0 [pairWindow 2]) (roundIn 1 1) ((roundIn 1 1).atTime 5) = true ∧
    same (.schedule 5 254 9 0 [pairWindow 2]) (inRound 1 1 2 []) ((inRound 1 1 2 []).atTime 5) = true ∧
    (let u := ran (.schedule 5 255 9 0 [pairWindow 2]) (inRound 1 1 2 [(8, 0, pairWindow 1)])
     u.ota.retryKnown = true ∧ (u.ota.windows.map fun e => e.2.2) = [pairWindow 1, pairWindow 2] ∧ u.get Reg.OTA.STATUS.state = 2) ∧
    (ran (.schedule 5 255 9 0 []) (inRound 1 1 2 [])).get Reg.OTA.STATUS.state = 4 := by decide +kernel

theorem witness_OtaWindows :
    let s := inRound 1 1 1 [(7, 0, loopWindow), (8, 0, pairWindow 1)]
    s.windowAt 0 = some (843776, 1404928) ∧ same (.otaWindow 5 9 false []) s (s.atTime 5) = true ∧
    [843775, 1404928].all (fun t => same (.otaWindow t 7 false []) s (s.atTime t)) = true ∧ same (.otaWindow 1404927 7 true []) s (s.atTime 1404927) = true ∧
    s.shedding shedOta = [] ∧ s.carActive s.otaCarrier = true ∧
    (let u := ran (.otaWindow 843776 7 false []) s
     u.ota.now = some (7, true) ∧ u.get Reg.OTA.STATUS.state = 1 ∧ u.out = [.otaLoop 7] ∧ keeps s u [Reg.OTA.STATUS.word.addr] = true) ∧
    (let u := ran (.otaWindow 1404927 8 false []) s
     u.ota.now = some (8, true) ∧ u.get Reg.OTA.STATUS.state = 2 ∧ u.ota.air = some { from_ := 843776 + ticksOfUs 2, until_ := 843776 + ticksOfUs 52, turn := none } ∧
      u.out.map (fun o => match o with
        | .otaBurst w e l h a _ => (w, e, l, h, a)
        | _ => (0, 0, 0, 0, 0)) = [(8, 0, s.get Reg.OTA.CTL.level, burstHeader 1 8 65535 0, 843776 + ticksOfUs 2)]) ∧
    (let policy : Section := { type := secEnergy, inst := 0, bytes := List.replicate 32 0 ++ [3, 0, 0, 0, 0, 0, 0, 0] }
     let v := { s with image := { s.image with running := some { serial := 1, digest := [], sections := [policy], live := false } } }
     let v := v.put Reg.POWER.STATUS.level 1
     v.shedding shedOta ≠ [] ∧ (ran (.otaWindow 843776 7 false []) v).ota.now = some (7, false) ∧ (ran (.otaWindow 843776 7 false []) v).out = []) ∧
    s.ota.newTau.length = 64 ∧ s.ota.newRho.length = 64 ∧
    (let v := ({ s with ota := { s.ota with now := some (7, true) } }.put (Reg.PATH.STATUS.state 63) pathIn).put (Reg.CLOCK.LO_STATUS.state 1) loLocked
     (v.atTime 1404928).loopPath 843776 63 = true ∧ (v.atTime 1404928).loopPath 843776 7 = false ∧
     (let u := ran (.otaWindow 1404928 7 true [(63, 9, 11)]) v
      u.ota.now = none ∧ u.ota.newTau.getD 63 unitCorr = 9 ∧ u.ota.newRho.getD 63 unitCorr = 11 ∧ u.get Reg.OTA.STATUS.loop_fail = 1)) ∧
    (let v := inRound 1 1 1 [(6, 0, loopWindow)]
     let u := ran (.otaWindow 1404928 6 true []) v
     u.ota = { v.ota with now := none, captures := [none, none] } ∧ u.regs = v.regs) ∧
    (let v := inRound 0 1 2 [(8, 0, pairWindow 1)]
     let v := { v with ota := { v.ota with accepted := [1] } }
     v.isTop = true ∧ (ran (.otaWindow 1404928 8 true []) v).ota.missed = [(0, 3)]) ∧
    (ran (.otaWindow 1404928 9 true []) (inRound 0 1 3 [(9, 0, pairWindow 2)])).get Reg.OTA.STATUS.state = 4 := by decide +kernel

/-- The top receives in window 8 at the time `t`, with a capture on K0 or none. -/
def receiving (role t : Nat) (c : Option OtaCapture) : State :=
  let s := (inRound role 1 2 [(8, 0, { kind := 1, senders := [3] })]).put (Reg.CLOCK.LO_STATUS.state 0) loLocked
  { s with now := t, ota := { s.ota with now := some (8, true), captures := [c, none] } }

/-- A capture of window 8 with the metric 2048. -/
def capture (end_ : Nat) : OtaCapture := { window := 8, path := 0, metric := 2048, preambleEnd := end_ }

theorem witness_OtaDetections :
    let s := receiving 0 900000 none
    let other := fun (t : Nat) => { receiving 0 t none with ota := { (receiving 0 t none).ota with captures := [none, some (capture 900000)] } }
    s.ota.captures.length = 2 ∧ (s.receivingWindow.map fun e => e.1) = some 8 ∧ s.get Reg.OTA.DET_CTL.thresh = 32 ∧
    same (.otaDetection 5 0 0 2047) s (s.atTime 5) = true ∧
    same (.otaDetection 5 0 0 9000) (roundIn 0 1) ((roundIn 0 1).atTime 5) = true ∧
    (let u := ran (.otaDetection 5 0 0 2048) s
     u.ota.captures = [some (capture (900000 - 8192)), none] ∧ u.regs = s.regs ∧ u.out = s.out) ∧
    same (.otaDetection 5 0 0 9000) (receiving 0 900000 (some (capture 0))) (receiving 0 900000 (some (capture 0))) = true ∧
    (let u := ran (.otaDetection 5 0 1 3584) (other (900000 + 65535))
     u.ota.captures = [some { window := 8, path := 1, metric := 3584, preambleEnd := 900000 + 65535 - 8192 }, none] ∧
      u.get Reg.OTA.PREEMPTED.word = 1) ∧
    same (.otaDetection 5 0 1 3583) (other (900000 + 65535)) (other (900000 + 65535)) = true ∧
    same (.otaDetection 5 0 1 9000) (other (900000 + 65536)) (other (900000 + 65536)) = true := by decide +kernel

theorem witness_OtaReception :
    let last := 1404928 - 131072
    let s := receiving 0 1404928 (some (capture last))
    let header : BitVec 64 := BitVec.ofNat 64 (burstHeader 3 8 65535 0)
    let ended := fun (v : State) => { v with ota := { v.ota with captures := [none, none] } }
    same (.otaCaptureDone 5 1 header [] 0) s s = true ∧
    same (.otaCaptureDone 5 0 header [] 0) (receiving 0 1404927 (some (capture last))) (receiving 0 1404927 (some (capture last))) = true ∧
    s.payload (capture last) header.toNat = some 3 ∧ s.payload (capture last) (header ^^^ 1).toNat = none ∧
    same (.otaCaptureDone 5 0 (header ^^^ 1) [] 0) s ((ended s).bump Reg.OTA.FALSE_DETECT.word) = true ∧
    s.discardCause (capture last) (last - 512 * 128) (last + 1024 * 128) 8 = 0 ∧
    s.discardCause (capture last) (last - 512 * 128) (last + 1024 * 128) 9 = 3 ∧
    same (.otaCaptureDone 5 0 header [] 9) s (((ended s).put Reg.OTA.STATUS.last_discard 3).bump Reg.OTA.DISCARD.word) = true ∧
    (receiving 0 1404929 none).discardCause (capture (last + 1)) (last + 1 - 512 * 128) (last + 1 + 1024 * 128) 0 = 4 ∧
    s.isTop = true ∧ (receiving 1 1404928 none).isTop = false ∧
    (let u := ran (.otaCaptureDone 5 0 header [] 8) s
     u.get Reg.OTA.CAPTURES.word = 1 ∧ u.ota.accepted = [3] ∧ (u.ota.reports.map fun e => (e.1, e.2.1)) = [(0, 3)]) ∧
    (ran (.otaCaptureDone 5 0 (BitVec.ofNat 64 (burstHeader 3 8 65535 0)) [] 8) (receiving 1 1404928 (some (capture last)))).ota.accepted = [3] := by decide +kernel

theorem witness_OtaSolutions :
    let up := roundIn 1 1
    let top := inRound 0 1 2 [(8, 0, pairWindow 1)]
    up.isTop = false ∧ top.isTop = true ∧ up.txn.slots.length = 29 ∧
    same (.report 5 255 8 3 1 7 9) up (up.atTime 5) = true ∧ same (.otaSolutionDone 5 [] 0) up (up.atTime 5) = true ∧
    same (.stale 5 3) top { top.atTime 5 with ota := { top.ota with staleAt := some 5 } } = true ∧
    same (.report 5 254 8 3 1 7 9) top (top.atTime 5) = true ∧ same (.missed 5 254 8 1 3) top (top.atTime 5) = true ∧
    same (.report 5 255 8 3 1 7 9) { top with ota := { top.ota with reports := [(1, 3, 8, 8), (3, 1, 8, 8)] } }
      { top.atTime 5 with ota := { top.ota with reports := [(3, 1, 8, 8), (1, 3, 7, 9)] } } = true ∧
    same (.missed 5 511 8 1 3) top { top.atTime 5 with ota := { top.ota with missed := [(1, 3)] } } = true ∧
    top.windowAt 0 = some (843776, 1404928) ∧
    same (.otaRetrySchedule 1404927) top (top.atTime 1404927) = true ∧
    same (.otaRetrySchedule 1404928) (top.put Reg.OTA.STATUS.state 1) ((top.put Reg.OTA.STATUS.state 1).atTime 1404928) = true ∧
    (let u := ran (.otaRetrySchedule 1404928) top
     top.retryWindows = [] ∧ u.ota.retryKnown = true ∧ u.get Reg.OTA.STATUS.state = 4) ∧
    (let v := { top with ota := { top.ota with completed := true, missed := [(1, 3)], lastPairs := [(1, 3)] } }
     let u := ran (.otaRetrySchedule 1404928) v
     v.retryWindows = [{ kind := 2, senders := [3] }] ∧ u.get Reg.OTA.STATUS.state = 2 ∧ u.get Reg.OTA.ROUND.windows = 1) ∧
    same (.otaSolutionDone 5 [] 9) top (top.atTime 5) = true ∧
    (let v := { inRound 0 2 4 [] with ota := { (inRound 0 2 4 []).ota with reports := [(1, 0, 7, 9)] } }
     v.landing < v.landingCount ∧ ((v.atTime 5).slot 28).asking = false ∧ v.ota.staleRound = false ∧
     (let u := ran (.otaSolutionDone 5 [] 65537) v
      u.get Reg.OTA.PSI.resid = 1 ∧ u.get Reg.OTA.STATUS.state = 0 ∧ u.get Reg.OTA.STATUS.staged = 1 ∧ u.ota.lastPairs = [(1, 0)] ∧
       u.ota.completed = true ∧ u.ota.active = false)) ∧
    same (.solution 5 254 []) (inRound 1 1 4 []) ((inRound 1 1 4 []).atTime 5) = true ∧
    (let v := (inRound 1 1 4 []).put Reg.OTA.PSI.total 65535
     ((v.atTime 5).slot 28).asking = false ∧ (([(1, 2, false)] : List (Nat × Nat × Bool)).find? fun e => e.1 == v.landing) = some (1, 2, false) ∧
     (let u := ran (.solution 5 255 [(1, 2, false)]) v
      u.get Reg.OTA.STATUS.state = 5 ∧ u.get Reg.OTA.PSI.total = 65535 ∧ ((u.slot 28).part.map fun l => l.getLast?) = some (some (Effect.ota 1)))) := by
  decide +kernel

/-! ### Transactions -/

/-- The stair records that have left, with their ports. -/
def records (s : State) : List (Nat × StairMsg) := s.out.filterMap fun o => match o with
  | .stair n m => some (n, m)
  | _ => none

/-- Every local slot is taken but for one. -/
def taken (free : Nat) : State := (List.range 16).foldl (fun s i => if i = free then s else s.setSlot i { TxnSlot.free with state := txOpen }) r0

theorem witness_TxnOpening :
    r0.txn.slots.length = 29 ∧ r0.chans.length = 9 ∧ r0.reaches 5 0 Reg.TXN.CMD.word.addr ∧ r0.away = false ∧
    (let s := r0.put Reg.POWER.STATUS.state powerIdle
     s.reaches 5 0 Reg.TXN.CMD.word.addr ∧ s.away = true ∧ same (.openLocal 5 0) s ((s.atTime 5).txnDone 0 resultState) = true ∧
      same (.openArray 5 0) s ((s.atTime 5).txnDone 0 resultState) = true) ∧
    ((List.range 16).all fun i => ((taken 16).slot i).state != txFree) = true ∧
    same (.openLocal 5 0) (taken 16) (((taken 16).atTime 5).txnDone 0 resultNoSlot) = true ∧
    [0, 15].all (fun n =>
      let s := { taken n with txn := { (taken n).txn with nextId := 2 ^ 31 - 1 } }
      let u := ran (.openLocal 5 0) s
      u.slot n == { TxnSlot.free with state := txOpen, id := 2 ^ 31 - 1 } && u.txn.nextId == 0 &&
        ((u.chan 0).bound, (u.chan 0).bindSlot, (u.chan 0).slot, (u.chan 0).result, (u.chan 0).busy, (u.chan 0).done) == (true, n, n, resultOk, false, true) &&
        decide (u.regs = s.regs)) = true ∧
    same (.openArray 5 0) (topped treeForming) (((topped treeForming).atTime 5).txnDone 0 resultTree) = true ∧
    (let u := ran (.openArray 5 0) (below treeFormed)
     records u = [(3, .txn (.openReq 1 0))] ∧ (u.chan 0).busy = true ∧ u.txn.openWait = [(0, 0)]) ∧
    ((topped treeFormed).txn.top = [] ∧ (topped treeFormed).txn.openWait = [] ∧ ((topped treeFormed).slot 16).state = txFree) ∧
    (let u := ran (.openArray 5 0) (topped treeFormed)
     (u.slot 16).state = txOpen ∧ (u.slot 16).array = true ∧ (u.slot 16).id = 2 ^ 31 + 1 ∧ u.txn.openWait = [] ∧ (u.chan 0).bindSlot = 16 ∧
      (u.chan 0).done = true) ∧
    r0.reaches 5 0 Reg.TXN.BIND.word.addr ∧
    same (.txnBind 5 0 31) r0 ((r0.atTime 5).modChan 0 fun c => { c with bound := false, bindSlot := 31 }) = true ∧
    (let s := (r0.setSlot 19 { TxnSlot.free with state := txOpen, array := true, owner := 3 }).setSlot 15 { TxnSlot.free with state := txOpen, owner := 3 }
     same (.txnBind 5 0 (32 + 19)) s ((s.atTime 5).modChan 0 fun c => { c with bound := true, bindSlot := 19 }) = true ∧
     [15, 18, 20].all (fun n => same (.txnBind 5 0 (BitVec.ofNat 32 (32 + n))) s
       ((s.atTime 5).modChan 0 fun c => { c with bound := false, bindSlot := n, result := resultNotOwner })) = true) := by decide +kernel

/-- Slot 15 holds a transaction of channel 0; its point is NEXT, or a point of carrier 0, which does not run. -/
def holding (x : TxnSlot) (next : Bool) : State := (r0.setSlot 15 { x with id := 7 }).put (Reg.TXN.SLOT_CTL.word 15) (if next then 2 ^ 31 else 0)

theorem witness_TxnChecks :
    [20, 31].all (fun n => [Instr.prepare 5 0 (Fin.ofNat 32 n), .abort 5 0 (Fin.ofNat 32 n), .release 5 0 (Fin.ofNat 32 n)].all fun c =>
      same c r0 ((r0.atTime 5).txnDone 0 resultCommand)) = true ∧
    [0, 19].all (fun n => [Instr.prepare 5 0 (Fin.ofNat 32 n), .abort 5 0 (Fin.ofNat 32 n), .release 5 0 (Fin.ofNat 32 n)].all fun c =>
      same c r0 ((r0.atTime 5).txnDone 0 resultState)) = true ∧
    (let s := holding { TxnSlot.free with state := txOpen, owner := 3 } true
     [Instr.prepare 5 0 15, .abort 5 0 15, .release 5 0 15].all (fun c => same c s ((s.atTime 5).txnDone 0 resultNotOwner)) = true) ∧
    [txPrepared, txCommitted, txAborted, txTooLate].all (fun st =>
      let s := holding { TxnSlot.free with state := st } true
      same (.prepare 5 0 15) s ((s.atTime 5).txnDone 0 resultState)) = true ∧
    [txOpen, txPrepared].all (fun st =>
      let s := holding { TxnSlot.free with state := st, staged := [.reg 0 0] } true
      let u := ran (.abort 5 0 15) s
      (u.slot 15).state == txAborted && (u.slot 15).cause == causeHost && (u.slot 15).staged.isEmpty && (u.chan 0).done &&
        same (.release 5 0 15) s ((s.atTime 5).txnDone 0 resultState)) = true ∧
    (ran (.abort 5 0 15) (holding { TxnSlot.free with state := txCommitted } true)).slot 15 = { TxnSlot.free with state := txTooLate, id := 7 } ∧
    [txAborted, txTooLate].all (fun st =>
      let s := holding { TxnSlot.free with state := st } true
      same (.abort 5 0 15) s ((s.atTime 5).txnDone 0 resultState) && (ran (.release 5 0 15) s).slot 15 == TxnSlot.free) = true := by decide +kernel

theorem witness_TxnPrepares :
    let x := { TxnSlot.free with state := txOpen, staged := [.reg 0x1000 9] }
    let point := fun (s : State) => (s.atTime 5).checkPoint (pointOf (s.word (Reg.TXN.SLOT_CTL.word 15).addr)) 0 (ticksOfUs 2)
    (let u := ran (.prepare 5 0 15) (holding { x with poisoned := true } true)
     (u.slot 15).state = txAborted ∧ (u.slot 15).cause = causeLimit ∧ (u.slot 15).staged = []) ∧
    (point (holding x false)).2 = causeCarrier ∧
    (let u := ran (.prepare 5 0 15) (holding x false)
     (u.slot 15).state = txAborted ∧ (u.slot 15).cause = causeCarrier ∧ (u.chan 0).result = resultOk) ∧
    point (holding x true) = (planningSlot, 0) ∧
    (let y := { x with staged := [.reg (patAddr 15) 0xFFFFFFFF] }
     ((holding y true).atTime 5 |>.checkStaged 15 planningSlot 5 y.staged).cause = causeValue ∧
     (let u := ran (.prepare 5 0 15) (holding y true)
      (u.slot 15).state = txAborted ∧ (u.slot 15).cause = causeValue ∧ (u.slot 15).refuse = patAddr 15)) ∧
    ((holding x true).atTime 5 |>.checkStaged 15 planningSlot 0 x.staged).cause = 0 ∧ (holding x true).livePartial x.staged = none ∧
    (let u := ran (.prepare 5 0 15) (holding x true)
     (u.slot 15).state = txPrepared ∧ (u.slot 15).time = planningSlot ∧ (u.slot 15).staged = x.staged ∧ (u.chan 0).done = true ∧
      u.txn.commits.map (fun y => (y.time, y.id, y.slot, y.decided)) = [(planningSlot, 7, some 15, true)]) ∧
    (let q : Partial := { serial := 4, digest := [], sections := [] }
     let y := { x with staged := [.reg Reg.IMAGE.LIVE_APPLY.word.addr 4] }
     let s := running (holding y true)
     let s := { s with image := { s.image with ready := some q } }
     s.livePartial y.staged = some q ∧ (s.atTime 5 |>.checkStaged 15 planningSlot 0 y.staged).cause = 0 ∧
     (let u := ran (.prepare 5 0 15) s
      (u.slot 15).state = txOpen ∧ (u.slot 15).preparing = true ∧ (u.slot 15).live = some q ∧ (u.chan 0).busy = true ∧
       u.dueAt (.livePrepare 15) = some (5 + installTicks q) ∧
       same (.livePrepareDone (4 + installTicks q) 15) u (u.atTime (4 + installTicks q)) = true ∧
       (ran (.livePrepareDone (5 + installTicks q) 15) u).slot 15 = { u.slot 15 with state := txPrepared, preparing := false, waiters := [] } ∧
       (let v := { u with image := { u.image with ready := none } }
        let w := ran (.livePrepareDone (5 + installTicks q) 15) v
        (w.slot 15).state = txAborted ∧ (w.slot 15).cause = causeLive ∧ w.get Reg.IMAGE.STATUS.code = codeNotReady))) := by decide +kernel

/-- The top holds an undecided array-wide transaction 9 in slot 19; so does landing 1. -/
def array9 (x : TxnSlot) (s : State) : State :=
  let s := s.setSlot 19 { x with array := true, id := 9 }
  { s with txn := { s.txn with top := [{ id := 9, slot := 19, prepared := false, time := 0, decideAt := 0, decision := none }] } }

theorem witness_TxnRequests :
    let up := below treeFormed
    let top := topped treeFormed
    records (ran (.openReq 5 9 3) up) = [(3, .txn (.openReq 9 3))] ∧
    (let u := ran (.openReq 5 9 3) top
     (u.slot 16).state = txOpen ∧ (u.slot 16).origin = 9 ∧ (u.slot 16).tag = 3 ∧ u.txn.top.map (fun x => (x.id, x.slot)) = [(2 ^ 31 + 1, 16)]) ∧
    (let full := { top with txn := { top.txn with top := [16, 17, 18, 19].map fun n =>
       { id := n, slot := n, prepared := false, time := 0, decideAt := 0, decision := none } } }
     full.isTop = true ∧ records (ran (.openReq 5 9 3) full) = [(3, .txn (.announce 0 0 9 3 resultNoSlot))]) ∧
    same (.announce 5 0 0 9 3 1) up (up.atTime 5) = true ∧
    (let u := ran (.announce 5 9 19 9 3 0) (up.setSlot 19 { TxnSlot.free with state := txAborted })
     u.slot 19 = { TxnSlot.free with state := txOpen, array := true, id := 9, origin := 9, tag := 3 }) ∧
    (let s := { up with txn := { up.txn with openWait := [(3, 8)] } }
     (let u := ran (.announce 5 9 19 1 3 1) s
      (u.chan 8).result = resultNoSlot ∧ u.txn.openWait = []) ∧
     (let u := ran (.announce 5 9 19 1 3 0) s
      (u.slot 19).owner = 8 ∧ (u.chan 8).bound = true ∧ (u.chan 8).bindSlot = 19 ∧ (u.chan 8).result = resultOk)) ∧
    top.topTxn 9 = none ∧ same (.prepareReq 5 9 0) top (top.atTime 5) = true ∧ same (.abortReq 5 9 1) top (top.atTime 5) = true ∧
    (let s := array9 TxnSlot.free top
     s.slotOf 9 = none ∧ ((ran (.abortReq 5 9 1) s).topTxn 9).map (fun y => y.decision) = some (some (false, causeHost, 0xFFFF)) ∧
     ((s.atTime 5).checkPoint (pointOf 0) (ticksOfUs (s.get Reg.TXN.ARRAY_CTL.guard)) (ticksOfNs 5000)).2 = causeCarrier ∧
     ((ran (.prepareReq 5 9 0) s).topTxn 9).map (fun y => y.decision) = some (some (false, causeCarrier, 0xFFFF))) ∧
    (let s := array9 { TxnSlot.free with state := txOpen } top
     let g := ticksOfUs (s.get Reg.TXN.ARRAY_CTL.guard)
     s.slotOf 9 = some 19 ∧ (s.atTime 5).checkPoint (pointOf (2 ^ 31)) g (ticksOfNs 5000) = (planningSlot, 0) ∧
     ((ran (.prepareReq 5 9 (2 ^ 31)) s).topTxn 9).map (fun y => (y.prepared, y.time, y.decideAt)) = some (true, planningSlot, planningSlot - g)) := by
  decide +kernel

theorem witness_TxnVotes :
    let up := below treeFormed
    let top := topped treeFormed
    up.slotOf 9 = none ∧ up.isTop = false ∧ records (ran (.prepareMessage 5 9 0 0 7) up) = [(3, .txn (.vote 9 0 1 causeNotHeld))] ∧
    same (.vote 5 3 9 1 0xFFFF 0) top (top.atTime 5) = true ∧
    (let s := up.setSlot 19 { TxnSlot.free with state := txOpen, array := true, id := 9 }
     s.slotOf 9 = some 19 ∧ s.childPorts = [] ∧ s.isOwnBoundary 7 planningSlot = true ∧ s.isOwnBoundary 7 (planningSlot + 1) = false ∧
     ((s.atTime 5).checkStaged 19 planningSlot 0 []).cause = 0 ∧
     (let u := ran (.prepareMessage 5 9 planningSlot 3 7) s
      (u.slot 19).state = txPrepared ∧ (u.slot 19).time = planningSlot ∧ (u.slot 19).decideAt = 3 ∧ (u.slot 19).ownYes = true ∧ (u.slot 19).voted = 1) ∧
     (let u := ran (.prepareMessage 5 9 (planningSlot + 1) 3 7) s
      (u.slot 19).no = some (1, causeCarrier) ∧ (u.slot 19).voted = 2)) ∧
    (let s := array9 { TxnSlot.free with state := txPrepared, ownYes := true } top
     (s.topTxn 9).isSome = true ∧
     (let u := ran (.vote 5 3 9 3 0xFFFF 0) s
      (u.slot 19).state = txCommitted ∧ u.txn.outcomes.head? = some (9, txCommitted) ∧
       (u.topTxn 9).map (fun z => z.decision) = some (some (true, 0, 0xFFFF))) ∧
     (let u := ran (.vote 5 3 9 2 0xFFFF 0) s
      (u.slot 19).state = txPrepared ∧ (u.slot 19).childYes = [(3, 2)] ∧ u.txn.top = s.txn.top) ∧
     (let u := ran (.vote 5 3 9 0 2 causeValue) s
      (u.slot 19).state = txAborted ∧ (u.slot 19).cause = causePeer ∧ (u.slot 19).peerCause = causeValue ∧ (u.slot 19).peer = 2 ∧
       u.txn.outcomes.head? = some (9, txAborted))) := by decide +kernel

theorem witness_TxnDecisions :
    let up := below treeFormed
    let held := fun (x : TxnSlot) => up.setSlot 19 { x with array := true, id := 9 }
    same (.decision 5 9 true 0 0xFFFF) up (up.atTime 5) = true ∧
    (let s := held { TxnSlot.free with state := txPrepared, inDoubt := true }
     let u := ran (.decision 5 9 true 0 0xFFFF) s
     (u.slot 19).verdict = some (true, 0, 0xFFFF, (s.atTime 5).inOneMs) ∧ (u.slot 19).state = txPrepared) ∧
    (let u := ran (.decision 5 9 true 0 0xFFFF) (held { TxnSlot.free with state := txPrepared })
     (u.slot 19).state = txCommitted ∧ u.txn.outcomes.head? = some (9, txCommitted)) ∧
    (let u := ran (.decision 5 9 false causeValue 2) (held { TxnSlot.free with state := txOpen })
     (u.slot 19).state = txAborted ∧ (u.slot 19).cause = causePeer) ∧
    (ran (.decision 5 9 false causeTimeout 0xFFFF) (held { TxnSlot.free with state := txOpen })).slot 19 =
      { TxnSlot.free with state := txAborted, cause := causeTimeout, array := true, id := 9, peer := 0x1FF } ∧
    same (.txnDecisionTimeout 5 28) up (up.atTime 5) = true ∧
    (let s := (array9 TxnSlot.free (topped treeFormed)).arm (.decide 19) 10
     same (.txnDecisionTimeout 9 19) s (s.atTime 9) = true ∧
     (ran (.txnDecisionTimeout 10 19) s).txn.top.map (fun y => y.decision) = [some (false, causeTimeout, 0xFFFF)] ∧
     (let v := s.modTop 9 fun y => { y with decision := some (true, 0, 0xFFFF) }
      same (.txnDecisionTimeout 10 19) v ((v.atTime 10).disarm (.decide 19)) = true ∧
      records (ran (.query 10 3 9 1) v) = [(3, .txn (.decision 9 true 0 0xFFFF))])) ∧
    records (ran (.query 5 2 9 1) up) = [(3, .txn (.query 9 1))] ∧
    records (ran (.query 5 3 9 1) { up with txn := { up.txn with outcomes := [(9, txAborted)] } }) =
        [(3, .txn (.decision 9 false causeTop 0xFFFF))] ∧
    (let s := (held { TxnSlot.free with state := txPrepared, inDoubt := true }).arm (.query 19) 10
     same (.queryRetry 9 19) s (s.atTime 9) = true ∧
     (let u := ran (.queryRetry 10 19) s
      records u = [(3, .txn (.query 9 1))] ∧ u.dueAt (.query 19) = some (10 + ticksOfUs 100)) ∧
     (let v := s.modSlot 19 fun x => { x with inDoubt := false }
      same (.queryRetry 10 19) v ((v.atTime 10).disarm (.query 19)) = true)) := by decide +kernel

theorem witness_TxnDoubts :
    let up := below treeFormed
    ((ran (.hold 5 3 9 false 0 0) (up.modSPort 3 fun x => { x with heldFrom := some 4 })).sPort 3).heldFrom = none ∧
    (let r := { rec4 with dl := 1 }
     let s := { carried r up with now := r.boundary 65536 }
     65536 ≤ ((s.atTime 5).form 0).symbolAt (s.atTime 5).arrayNow ∧
     ((ran (.hold 5 3 9 true 0 65535) s).sPort 3).heldFrom = some (r.boundary 65535) ∧
     ((ran (.hold 5 3 9 true 0 1) s).sPort 3).heldFrom = some (r.boundary 65537)) ∧
    records (ran (.outcomes 5 2 []) up) = [(3, .txn (.outcomes 2 []))] ∧
    same (.outcomes 5 2 [(9, txCommitted)]) (topped treeFormed) ((topped treeFormed).atTime 5) = true ∧
    (let s := topped treeForming
     s.treeOf.joined = [] ∧ 1 < s.landingCount ∧ (ran (.outcomes 5 2 []) s).treeOf.outcomesFrom = [2] ∧
      (ran (.outcomes 5 2 []) s).treeState = treeForming) ∧
    (let c : Commit := { time := planningSlot, id := 7, slot := some 15, decided := true, latched := false, effects := [], touch := [] }
     let s := timed (holding { TxnSlot.free with state := txPrepared } true)
     let s := { s with txn := { s.txn with commits := [c] } }
     let t := planningSlot - ticksOfUs 1
     (s.atTime t).arrayNow + ticksOfUs 1 = planningSlot ∧
     (let u := ran (.commitLatch t) s
      (u.slot 15).state = txCommitted ∧ u.get Reg.TXN.LAST_COMMIT.word = 7 ∧ u.txn.commits = [{ c with latched := true }]) ∧
     (ran (.commitLatch (t - 1)) s).txn.commits = [c]) ∧
    (let s := timed (up.setSlot 28 { TxnSlot.free with state := txPrepared, array := true, id := 9, time := planningSlot })
     let t := planningSlot - ticksOfUs 1
     (let u := ran (.commitLatch t) s
      (u.slot 28).state = txPrepared ∧ (u.slot 28).inDoubt = true ∧ u.dueAt (.query 28) = some (t + ticksOfUs 100)) ∧
     ((ran (.commitLatch (t - 1)) s).slot 28).inDoubt = false) ∧
    same (.commitLatch 5) r0 (r0.atTime 5) = true := by decide +kernel

/-! ### Recovery -/

/-- A fault policy: halls preempt, banks migrate at 5 corrected words, hall 135 may lose its tile to any other. -/
def policied (s : State) : State :=
  planned [{ type := secFault, inst := 0, bytes := [1, 5] ++ List.replicate (14 + 135) 0 ++ [0x87] }] s

/-- No spare alcove, pipeline or bank is free. -/
def spent (s : State) : State :=
  { s with alcoves := List.replicate 8 { serves := none, retired := true },
           recov := { s.recov with pipes := List.replicate 4 { serves := none, retired := true }, banks := List.replicate 48 { serves := none, retired := true } } }

theorem witness_RecoverHalls :
    r0.halls.length = 136 ∧ r0.alcoves.length = 8 ∧ r0.recov.pipes.length = 4 ∧
    (spent r0).alcoves.getD 7 { serves := none, retired := true } = { serves := none, retired := true } ∧
    same (.hallFault 5 143 0) (spent r0) ((spent r0).atTime 5) = true ∧
    (let u := ran (.hallFault 5 143 0) r0
     u.alcoves.getD 7 { serves := none, retired := false } = { serves := none, retired := true } ∧
      (u.log.head?.map fun r => (r.kind, r.cls, r.unit, r.inst)) = some (1, 1, unitHall, 143) ∧ u.get Reg.HOST.INT_STATUS.fault = 1) ∧
    (let s := r0.modHall 135 fun x => { x with tile := none }
     same (.hallFault 5 135 0) s (s.atTime 5) = true) ∧
    (r0.hall 135).tile = some 135 ∧ r0.recovOf 1 135 = none ∧
    (let u := ran (.hallFault 5 135 256) r0
     (u.hall 135).tile = some 136 ∧ u.alcoves.getD 0 { serves := none, retired := true } = { serves := some 135, retired := false } ∧
      u.recov.running.map (fun x => (x.cls, x.inst, x.spare, x.mask)) = [(1, 135, 136, 0)]) := by decide +kernel

theorem witness_RecoverHallsSpent :
    (spent r0).faultPreempt = false ∧
    (let u := ran (.hallFault 5 135 0) (spent r0)
     (u.hall 135).wedged = true ∧ u.isWedged .halls = true ∧ u.get Reg.RECOVERY.STATUS.wedged_any = 1 ∧
      (u.log.head?.map fun r => (r.kind, r.cls, r.unit, r.inst)) = some (6, 1, unitHall, 135) ∧ u.get Reg.HOST.INT_STATUS.alarm = 1) ∧
    (let s := policied (spent r0)
     s.faultPreempt = true ∧ s.victim 0 = some 135 ∧
     (let u := ran (.hallFault 5 0 0) s
      (u.hall 135).evicted = true ∧ (u.hall 135).tile = none ∧ (u.hall 0).tile = some 135 ∧
       (u.log.head?.map fun r => (r.kind, r.cls, r.unit, r.inst)) = some (2, 0, unitHall, 135))) := by decide +kernel

theorem witness_RecoverPipes :
    (let s := { r0 with recov := { r0.recov with pathsOut := [63] } }
     same (.pipeFault 5 63) s (s.atTime 5) = true) ∧
    (let u := ran (.pipeFault 5 63) r0
     u.recov.pipes.headD { serves := none, retired := true } = { serves := some 63, retired := false } ∧
      u.get ⟨Reg.RECOVERY.PIPE_MAP.word.addr, 0, 8⟩ = 63 ∧ u.recov.running.map (fun x => (x.cls, x.inst, x.spare, x.path)) = [(2, 63, 0, some 63)]) ∧
    (let u := ran (.pipeFault 5 63) (spent r0)
     u.recov.pathsOut = [63] ∧ (u.log.head?.map fun r => (r.kind, r.cls, r.unit, r.inst)) = some (2, 0, unitPath, 63) ∧
      u.get Reg.HOST.INT_STATUS.degradation = 1) := by decide +kernel

theorem witness_RecoverInPlace :
    let began := r0.atTime 5
    same (.beamFault 5) r0 (began.beginRecov (began.newRecov 3 unitBeam 0 2 0xFFFF began.activeMask)) = true ∧
    same (.atriumFault 5 511) r0 (began.beginRecov (began.newRecov 4 unitAtrium 0 2 0xFFFF 255)) = true ∧
    (let u := ran (.beamFault 6) (ran (.beamFault 5) r0)
     u.isWedged .beam = true ∧ u.get Reg.RECOVERY.STATUS.wedged_any = 1 ∧ u.faultAsserted = true ∧
      (u.log.head?.map fun r => (r.kind, r.cls, r.unit, r.inst)) = some (6, 3, unitBeam, 0) ∧ same (.beamFault 7) u (u.atTime 7) = true) ∧
    (let u := ran (.atriumFault 6 0) (ran (.atriumFault 5 0) r0)
     u.isWedged .atrium = true ∧ same (.atriumFault 7 0) u (u.atTime 7) = true) ∧
    same (.corridorCrcError 5 135 false) r0 { began with recov := { r0.recov with hops := 1 } } = true ∧
    (let u := ran (.corridorCrcError 5 135 true) r0
     u.recov.hops = 1 ∧ u.isWedged .corridors = true ∧ (u.log.head?.map fun r => (r.kind, r.cls, r.unit, r.inst)) = some (6, 15, unitCorridor, 135)) ∧
    same (.replayDone 5 4 0) r0 began = true ∧
    (let s := ran (.atriumFault 5 255) r0
     let u := ran (.replayDone (5 + ticksOfUs 10) 4 0) s
     s.recovOf 4 0 = s.recov.running.head? ∧ u.recovOf 4 0 = none ∧ (u.log.head?.map fun r => (r.kind, r.cls, r.unit, r.inst, r.carriers)) = some (1, 4, unitAtrium, 0, 255) ∧
      u.get Reg.HOST.INT_STATUS.fault = 1 ∧ u.get Reg.RECOVERY.REPLAY_MAX.tenths = 100) := by decide +kernel

/-- Bank 767 belongs to customer data; it is marked for scrubbing. -/
def marked (s : State) : State :=
  planned [{ type := secMemory, inst := 0, bytes := leBytes 4 kindCustomer ++ leBytes 2 767 ++ leBytes 2 1 ++ leBytes 8 2 },
           { type := secFault, inst := 0, bytes := [1, 5] }] s

theorem witness_RecoveryOfBanks :
    (let s := { r0 with recov := { r0.recov with lost := [767] } }
     s.bankLost 767 = true ∧ same (.bankUncorrectable 5 767 0 0 []) s (s.atTime 5) = true ∧ same (.scrubPass 5 767 9 none) s (s.atTime 5) = true) ∧
    r0.bankLost 767 = false ∧ (r0.recov.banks.all fun x => x.serves != some 767) = true ∧
    (let u := ran (.bankUncorrectable 5 767 65535 256 []) r0
     u.recov.banks.head? = some { serves := some 767, retired := false } ∧ u.recov.running.map (fun x => (x.cls, x.unit, x.inst, x.spare)) = [(6, unitMemory, 767, 0)] ∧
      u.bankLost 767 = false) ∧
    (spent r0).bankKind 767 ∉ needKinds ∧
    (let u := ran (.bankUncorrectable 5 767 0 0 []) (spent r0)
     u.bankLost 767 = true ∧ (u.log.head?.map fun r => (r.kind, r.cls, r.unit, r.inst)) = some (2, 0, unitMemory, 767)) ∧
    same (.scrubPass 5 766 9 none) (marked r0) ((marked r0).atTime 5) = true ∧ same (.scrubPass 5 767 4 none) (marked r0) ((marked r0).atTime 5) = true ∧
    ((marked r0).bankRec 767).map (fun x => bit x.flags 1) = some true ∧ (marked r0).faultMigrate = 5 ∧
    (let u := ran (.scrubPass 5 767 5 none) (marked r0)
     u.recov.banks.head? = some { serves := some 767, retired := false } ∧ u.recov.running.map (fun x => (x.cls, x.inst, x.spare)) = [(5, 767, 0)] ∧
      same (.scrubPass 6 767 9 none) u (u.atTime 6) = true) := by decide +kernel

/-! ### Clocks -/

/-- REFCLK runs at 491.52 MHz, and the island REF is locked. -/
def refOk : State := ((r0.put Reg.CLOCK.REF_STATUS.rate 2).put Reg.CLOCK.REF_STATUS.refclk_ok 1).put Reg.CLOCK.ISLAND_STATUS.locked 1

theorem witness_Refclk :
    same (.refclkLoss 5) r0 (r0.atTime 5) = true ∧ same (.refPullEnd 5) r0 (r0.atTime 5) = true ∧ same (.refHoldoverLimit 5) refOk (refOk.atTime 5) = true ∧
    (let s := refOk.put (Reg.CLOCK.ISLAND_CNT.losses 0) 255
     let u := ran (.refclkLoss 5) s
     let last := 5 + ticksOfMs (100 * u.get Reg.CLOCK.REF_CTL.holdover_max)
     u.get Reg.CLOCK.REF_STATUS.refclk_ok = 0 ∧ u.get Reg.CLOCK.REF_STATUS.holdover = 1 ∧ u.clock.lostAt = some 5 ∧
      u.get Reg.CLOCK.ISLAND_STATUS.locked = 0 ∧ u.get (Reg.CLOCK.ISLAND_CNT.losses 0) = 0 ∧
      (u.log.head?.map fun r => (r.kind, r.cls, r.unit, r.inst)) = some (3, 0, unitClock, 0) ∧
      u.get Reg.CLOCK.REF_CTL.holdover_max ≠ 0 ∧ same (.refHoldoverLimit (last - 1)) u (u.atTime (last - 1)) = true ∧
      (let v := ran (.refHoldoverLimit last) u
       v.get Reg.CLOCK.REF_STATUS.ref_stop = 1 ∧ (v.log.head?.map fun r => (r.kind, r.cls, r.unit, r.inst)) = some (2, 0, unitClock, 0) ∧
        same (.refHoldoverLimit (last + 1)) v (v.atTime (last + 1)) = true ∧
        same (.refclkAccept (last + 1) 491520000 9999) v (v.atTime (last + 1)) = true ∧
        (let w := ran (.refclkAccept (last + 1) 466944000 10000) v
         w.get Reg.CLOCK.REF_STATUS.refclk_ok = 1 ∧ w.get Reg.CLOCK.REF_STATUS.ref_stop = 0 ∧ w.get Reg.CLOCK.ISLAND_STATUS.locked = 1 ∧
          keeps v w [Reg.CLOCK.REF_STATUS.word.addr, Reg.CLOCK.ISLAND_STATUS.word.addr] = true ∧
          (ran (.refPullEnd (last + 1)) w).get Reg.CLOCK.REF_STATUS.holdover = 0 ∧ (ran (.refPullEnd (last + 1)) w).clock.lostAt = none))) ∧
    r0.get Reg.CLOCK.REF_STATUS.rate = 3 ∧ refRate 466943999 = 3 ∧ refRate 516096000 = 2 ∧ refRate 516096001 = 3 ∧
    same (.refclkAccept 5 466943999 10000) r0 (r0.atTime 5) = true ∧
    (ran (.refclkAccept 5 122880000 0) r0).get Reg.CLOCK.REF_STATUS.rate = 0 := by decide +kernel

/-- A PTP slave whose only master is on port 7. -/
def mastered (state : Nat) : State :=
  let s := ((r0.put Reg.FRONTHAUL.PTP_CTL.mode 1).put Reg.FRONTHAUL.PTP_CTL.port_mask 128).put Reg.CLOCK.TIME_STATUS.state state
  { s.put Reg.CLOCK.REF_STATUS.source srcPtp with fh := { s.fh with masters := s.fh.masters.set 7 (some { quality := [], at_ := 0, sync := none }) } }

theorem witness_TimeSources :
    r0.ptpPort = none ∧ same (.sourceLoss 5) r0 (r0.atTime 5).chooseSource = true ∧
    (mastered timeLocked).ptpPort = some 7 ∧
    (let u := ran (.sourceLoss 5) (mastered timeLocked)
     u.get Reg.CLOCK.TIME_STATUS.state = timeHoldover ∧ u.get Reg.CLOCK.REF_STATUS.source = srcPtp ∧ u.fh.masters.getD 7 none = none) ∧
    (let u := ran (.sourceLoss 5) (mastered timeFree)
     u.get Reg.CLOCK.TIME_STATUS.state = timeFree ∧ u.get Reg.CLOCK.REF_STATUS.source = srcFree) ∧
    same (.syncInEdge 5) (timed r0) ((timed r0).atTime 5) = true ∧
    (let s := (timed r0).put Reg.CLOCK.SYNC_CTL.mode 2
     let half := 10 * planningSlot
     syncOffset (syncPeriod 2) (half - 1) = half - 1 ∧ syncOffset (syncPeriod 2) half = -(half : Int) ∧
     same (.syncInEdge half) s ((s.atTime half).putS Reg.CLOCK.SYNC_OFFSET.word (-(half : Int))) = true ∧
     (let v := { s.put Reg.CLOCK.REF_CTL.step_en 1 with clock := { s.clock with alignArmed := true } }
      v.get Reg.CLOCK.TIME_STATUS.state = timeFree ∧
      (let u := ran (.syncInEdge half) v
       u.clock.alignArmed = false ∧ u.clock.stepDue = some (half : Int) ∧ u.getS Reg.CLOCK.SYNC_OFFSET.word = -(half : Int) ∧
        u.clock.offset = s.clock.offset))) ∧
    r0.reaches 5 0 Reg.CLOCK.SYNC_CTL.word.addr ∧
    same (.align 5 0) r0 { r0.atTime 5 with clock := { r0.clock with alignArmed := true } } = true := by decide +kernel

/-- Every island is locked. -/
def islanded (s : State) : State := s.put Reg.CLOCK.ISLAND_STATUS.locked 255

theorem witness_Islands :
    r0.clock.restarting.length = 8 ∧ r0.clock.attempts.length = 8 ∧ r0.clock.cnvRestarting.length = 2 ∧ r0.clock.cnvAttempts.length = 2 ∧ r0.fh.ports.length = 8 ∧
    [4, 7].all (fun n => same (.synthLockLoss 5 (Fin.ofNat 8 n)) r0 (r0.atTime 5)) = true ∧
    same (.synthLockLoss 5 0) refOk (refOk.atTime 5).refLost = true ∧ same (.synthLockLoss 5 1) r0 ((r0.atTime 5).loLockLoss 0) = true ∧
    same (.synthLockLoss 5 2) r0 ((r0.atTime 5).loLockLoss 1) = true ∧ (ran (.synthLockLoss 5 3) r0).clock.cnvStopped = true ∧
    (ran (.synthLockLoss 5 3) (r0.put Reg.CLOCK.CNV_STATUS.tracking 1)).clock.cnvStopped = false ∧
    [4, 5, 6, 7].all (fun n =>
      let u := ran (.synthLockLoss 5 (Fin.ofNat 8 n)) (islanded (fhAt fhUp))
      !(u.get Reg.CLOCK.ISLAND_STATUS.locked).testBit n && u.get (Reg.CLOCK.ISLAND_CNT.losses n) == 1 && u.clock.restarting.getD n false &&
        (n != 4 || u.fhPortState 7 != fhUp) && (n != 6 || u.get Reg.CLOCK.TIME_STATUS.carried == 1) &&
        (n != 7 || (u.get Reg.CLOCK.ISLAND_STATUS.running).testBit 7)) = true ∧
    [0, 7].all (fun n => same (.synthLockDeclared 5 (Fin.ofNat 8 n) 0) r0 (r0.atTime 5) && same (.synthAttemptTimeout 5 (Fin.ofNat 8 n) 0) r0 (r0.atTime 5)) = true ∧
    [4, 5, 6, 7].all (fun n =>
      let s := ran (.synthLockLoss 5 (Fin.ofNat 8 n)) (islanded r0)
      let third := { s with clock := { s.clock with attempts := s.clock.attempts.set n 2 } }
      let u := ran (.synthLockDeclared 6 (Fin.ofNat 8 n) 1) s
      let v := ran (.synthAttemptTimeout 6 (Fin.ofNat 8 n) 1) s
      let w := ran (.synthAttemptTimeout 6 (Fin.ofNat 8 n) 1) third
      let x := ran (.synthAttemptTimeout 6 (Fin.ofNat 8 n) 1) (third.put Reg.POWER.STATUS.state powerWaking)
      (u.get Reg.CLOCK.ISLAND_STATUS.locked).testBit n && !u.clock.restarting.getD n true && (n != 6 || u.dueAt .tim == some (6 + ticksOfUs 100)) &&
        v.get (Reg.CLOCK.ISLAND_CNT.failed n) == 1 && v.clock.attempts.getD n 0 == 1 && keeps s v [(Reg.CLOCK.ISLAND_CNT.word n).addr] &&
        !w.clock.restarting.getD n true && (n != 4 || w.isWedged .fronthaul) && (n != 5 || w.isWedged .stair) && (n != 7 || w.clock.hkpOscillator) &&
        x.power == powerWakeFailed && x.get Reg.POWER.WAKE_FAIL.step == 3) = true ∧
    (let s := ran (.cnvStop 5) r0
     let u := ran (.synthLockDeclared 6 3 1) s
     s.clock.cnvRestarting = [true, true] ∧ u.get (cnvField 1) = loLocked ∧ u.clock.cnvRestarting = [true, false] ∧ u.get Reg.CLOCK.CNV_STATUS.active = 1 ∧
      u.clock.cnvReturn = true) := by decide +kernel

/-- CNV-Y stands by, locked. -/
def standby (tracking : Nat) : State := (r0.put (cnvField 1) loLocked).put Reg.CLOCK.CNV_STATUS.tracking tracking

theorem witness_ConverterClock :
    same (.cnvHandover 5) r0 (r0.atTime 5) = true ∧ same (.cnvStop 5) (standby 1) ((standby 1).atTime 5) = true ∧
    (let u := ran (.cnvStop 5) (islanded r0)
     u.clock.cnvStopped = true ∧ (u.get Reg.CLOCK.ISLAND_STATUS.locked).testBit 3 = false ∧ u.get Reg.CLOCK.CNV_STATUS.y_state = loAcquire ∧
      (u.recov.running.getLast?.map fun x => (x.cls, x.mask)) = some (7, 0)) ∧
    (let u := ran (.cnvHandover 5) (standby 1)
     u.get Reg.CLOCK.CNV_STATUS.active = 1 ∧ u.get Reg.CLOCK.CNV_STATUS.tracking = 0 ∧ u.get (cnvField 0) = loAcquire ∧
      u.get (Reg.CLOCK.ISLAND_CNT.losses 3) = 1 ∧ (u.log.head?.map fun r => (r.kind, r.cls, r.unit, r.inst)) = some (1, 7, unitClock, cnvInst 0)) ∧
    (let u := ran (.cnvStandbyTracking 5 40000) r0
     u.getS Reg.CLOCK.CNV_STATUS.diff = 32767 ∧ u.clock.cnvSince = 5 ∧ u.clock.cnvStopped = false) ∧
    [(200 : Int), -200].all (fun d =>
      let a := ticksOfUs 100
      let w := fun (t : Nat) => ((standby 0).atTime t).putS Reg.CLOCK.CNV_STATUS.diff d
      same (.cnvStandbyTracking a d) (standby 0) (((w a).put Reg.CLOCK.CNV_STATUS.tracking 1).put Reg.RECOVERY.STATUS.cnv_standby 1) &&
      same (.cnvStandbyTracking (a - 1) d) (standby 0) (w (a - 1))) = true ∧
    [(201 : Int), -1000].all (fun d =>
      let u := ran (.cnvStandbyTracking 5 d) (standby 0)
      u.getS Reg.CLOCK.CNV_STATUS.diff == d && u.clock.cnvSince == 5 && !u.clock.cnvStopped) = true ∧
    (ran (.cnvStandbyTracking 5 (-1001)) (standby 0)).clock.cnvStopped = true ∧
    r0.loSameFreq = true ∧ same (.xfeedMeasure 5 9) r0 (r0.atTime 5) = true ∧
    (let s := (r0.put (Reg.CLOCK.LO_STATUS.own_lock 0) 1).put (Reg.CLOCK.LO_STATUS.own_lock 1) 1
     let locked := (s.put (Reg.CLOCK.LO_STATUS.state 0) loLocked).put (Reg.CLOCK.LO_STATUS.state 1) loLocked
     [(-32768 : Int), 32767].all (fun d =>
       let u := ran (.xfeedMeasure 5 d) s
       u.clock.xfeed == [d] && u.getS Reg.CLOCK.XFEED_MEAS.delta == d && u.get Reg.CLOCK.XFEED_MEAS.valid == 0 &&
         (ran (.xfeedMeasure 5 d) locked).get Reg.CLOCK.XFEED_MEAS.valid == 1) = true) ∧
    r0.reaches 5 0 Reg.CLOCK.DITHER_CTL.word.addr ∧
    (let s := r0.put (Reg.PATH.STATUS.state 63) pathIn
     s.carriesTraffic 1 = true ∧ s.carriesTraffic 0 = false ∧ s.carriesTraffic 2 = false ∧
     (let u := ran (.ditherForceWrite 5 0 7) s
      u.get Reg.CLOCK.DITHER_CTL.refused = 1 ∧ u.get Reg.CLOCK.DITHER_CTL.force = 0 ∧ keeps s u [Reg.CLOCK.DITHER_CTL.word.addr] = true) ∧
     (ran (.ditherForceWrite 5 0 5) s).get Reg.CLOCK.DITHER_CTL.force = 5) := by decide +kernel

/-! ### Power states -/

theorem witness_PowerEntry :
    let open0 := r0.setSlot 28 { TxnSlot.free with state := txOpen }
    r0.reaches 5 0 Reg.POWER.MODE_CTL.word.addr ∧ (r0.atTime 5).refuser 1 0 = none ∧ (r0.atTime 5).refuser 2 0 = none ∧ (r0.atTime 5).refuser 3 0 = none ∧
    (let s := r0.put (Reg.POWER.REFUSE_CNT.word 8) 0xFFFFFFFF
     (s.atTime 5).refuser 3 32 = some 8 ∧
     [Instr.enterIdle 5 0 32, .enterDoze 5 0 32, .enterDeep 5 0 32].all (fun c =>
       let u := ran c s
       u.get Reg.POWER.STATUS.last_refuser == 8 && u.get Reg.POWER.STATUS.refused == 1 && u.get (Reg.POWER.REFUSE_CNT.word 8) == 0 &&
         u.power == powerActive) = true) ∧
    ((r0.put Reg.THERMAL.STATUS.shutdown 1).atTime 5).refuser 1 0 = some 13 ∧
    (let s := carried rec4 open0
     let u := ran (.enterIdle 5 0 0) s
     s.running 0 = true ∧ u.power = powerEntering ∧ u.energy.goal = 1 ∧ u.carState 0 = carrierStopping) ∧
    (let u := ran (.enterIdle 5 0 0) open0
     open0.activeCarriers = [] ∧ u.get Reg.POWER.MODE_CTL.target = 1 ∧ (u.slot 28).state = txAborted ∧ (u.slot 28).cause = causePower) ∧
    (let s := r0.setSession 7 (some default)
     r0.sessions.length = 8 ∧ (s.session 7).isSome = true ∧
     [Instr.enterDoze 5 0 0, .enterDeep 5 0 0].all (fun c => (ran c s).power == powerEntering && (ran c s).session 7 == none) = true) := by decide +kernel

/-- Bus 3 has a script for SLEEP. -/
def dozing (s : State) : State := (s.put (Reg.GROUP.FEM_ENTRY1.sleep 3) 9).put (Reg.GROUP.RFFE_CTL.enable 3) 1

theorem witness_PowerEntrySleeps :
    let s := dozing r0
    let u := ran (.enterDoze 5 0 0) s
    (s.atTime 5).refuser 2 0 = none ∧ s.activeCarriers = [] ∧ s.femScripted 3 .sleep = true ∧ u.femWaits 3 .sleep = true ∧
      u.femWaits 2 .sleep = false := by decide +kernel

/-- An entry of a power state in progress. -/
def entering (goal latched : Nat) : State :=
  let s := powered powerEntering r0
  { s with energy := { s.energy with goal := goal, latched := latched } }

theorem witness_PowerEntered :
    same (.powerStateEntered 5) r0 (r0.atTime 5) = true ∧
    (let s := powered powerEntering (carried rec4 r0)
     s.activeCarriers = [0] ∧ same (.powerStateEntered 5) s (s.atTime 5) = true) ∧
    (let u := ran (.powerStateEntered 5) (entering 1 0)
     u.power = powerIdle ∧ u.energy.waitAt = 5 ∧ u.energy.next = none ∧ (u.mutes 63).testBit muteHost = true) ∧
    (let u := ran (.powerStateEntered 5) (entering 2 0)
     u.power = powerDoze ∧ u.energy.target = 600 ∧ u.loState 1 = loOff ∧ u.out = [.pmbus pmVoutCommand 600]) ∧
    (let u := ran (.powerStateEntered 5) (entering 3 0)
     u.power = powerDeep ∧ u.clock.hkpOscillator = true ∧ u.boot.coreMonitored = false ∧ u.out = [.pmbus pmVoutCommand 600, .pmbus pmOperation pmOff]) ∧
    (let s := (dozing (entering 2 0)).femArises .sleep
     s.femWaits 3 .sleep = true ∧ s.femWaits 2 .sleep = false ∧ (ran (.powerStateEntered 5) s).power = powerDoze) ∧
    (ran (.powerStateEntered 5) (entering 1 1)).power = powerWaking := by decide +kernel

/-- The part is asleep or waking; every wake source is enabled. -/
def sleeping (st goal : Nat) : State :=
  let s := (powered st r0).put Reg.POWER.WAKE_EN.sources 127
  { s with energy := { s.energy with goal := goal, lastActive := 720 } }

theorem witness_PowerWake :
    r0.energy.failures.length = 3 ∧
    (let s := (sleeping powerIdle 1).put Reg.POWER.WAKE_EN.sources 126
     same (.wakeSource 5 0) s (s.atTime 5) = true) ∧
    same (.wakeSource 5 6) (sleeping powerIdle 1) ((sleeping powerIdle 1).atTime 5) = true ∧
    same (.wakeSource 5 4) (sleeping powerWaking 1) ((sleeping powerWaking 1).atTime 5) = true ∧
    [powerActive, powerQuiet].all (fun st => same (.wakeSource 5 5) (sleeping st 1) ((sleeping st 1).atTime 5)) = true ∧
    [powerEntering, powerWaking].all (fun st => (ran (.wakeSource 5 5) (sleeping st 1)).energy.latched == 32) = true ∧
    (let s := (sleeping powerDeep 3).put Reg.POWER.WAKE_TIMER.word 100
     let t := ticksOfMs 98
     (s.atTime (t - 1)).timerElapsed = false ∧ (s.atTime t).timerElapsed = true ∧
     (let u := ran (.wakeSource t 6) s
      u.power = powerWaking ∧ u.energy.target = 720 ∧ u.energy.latched = 64 ∧ u.boot.coreMonitored = true ∧
       u.out = [.pmbus pmOperation pmOn, .pmbus pmVoutCommand 720])) ∧
    (let u := ran (.wakeSource 5 4) (sleeping powerIdle 1)
     u.power = powerWaking ∧ u.energy.latched = 16 ∧ u.out = [] ∧ keeps (sleeping powerIdle 1) u [Reg.POWER.STATUS.word.addr] = true) ∧
    (ran (.wakeSource 5 0) (sleeping powerDoze 2)).out = [.pmbus pmVoutCommand 720] := by decide +kernel

theorem witness_PowerWakeDone :
    same (.wakeStepTimeout 5 1 9) r0 (r0.atTime 5) = true ∧ same (.wakeDone 5 [] []) r0 (r0.atTime 5) = true ∧
    (let s := { sleeping powerWaking 1 with energy := { (sleeping powerWaking 1).energy with latched := 127, bucket := 0, failures := [0, 1, 2] } }
     (ran (.wakeStepTimeout 5 1 15) s).energy.failures = [0, 2, 2] ∧
     (let u := ran (.wakeStepTimeout 6 1 15) (ran (.wakeStepTimeout 5 1 15) s)
      u.power = powerWakeFailed ∧ u.get Reg.POWER.WAKE_FAIL.step = 2 ∧ u.get Reg.POWER.WAKE_FAIL.unit = 15 ∧ u.get Reg.POWER.WAKE_FAIL.attempts = 3 ∧
       u.get Reg.POWER.WAKE_FAIL.sources = 127 ∧ u.faultAsserted = true) ∧
     (let u := ran (.wakeDone 5 [] []) s
      u.power = powerActive ∧ u.energy.bucket = s.depthNj ∧ u.get Reg.POWER.WAKE_CAUSE.sources = 127 ∧ u.energy.latched = 0 ∧
       u.get Reg.HOST.INT_STATUS.wake = 1)) ∧
    (let s := planned [{ type := secPaths, inst := 0, bytes := [0, 0, 0, 0, 0, 1, 0, 0] }] (sleeping powerWaking 2)
     s.bankUsed 0 = true ∧ (s.atTime 5).banksReady = false ∧ same (.wakeDone 5 [] []) s (s.atTime 5) = true) ∧
    ((sleeping powerWaking 2).atTime 5).banksReady = true ∧
    r0.reaches 5 0 Reg.POWER.RET_RELEASE.word.addr ∧
    (let s := ((timed r0).put Reg.POWER.RET_HOLD.held 0x81).put (Reg.CARRIER.STATUS.state 7) carrierStarting
     let u := ran (.retRelease 5 0 0x80) s
     s.carState 7 = carrierStarting ∧ u.get Reg.POWER.RET_HOLD.held = 1 ∧ (u.car 7).since = 5 + ticksOfUs 2 ∧
      keeps s u [Reg.POWER.RET_HOLD.word.addr] = true) := by decide +kernel

/-! ### The energy planner -/

theorem witness_PlannerSlots :
    same (.planningSlotBoundary 5 true) r0 (r0.atTime 5) = true ∧
    (let s := { timed r0 with energy := { r0.energy with slot := some 0 } }
     same (.planningSlotBoundary 5 true) s (s.atTime 5) = true ∧ (s.atTime planningSlot).arrayNow / planningSlot = 1 ∧
     (let u := ran (.planningSlotBoundary planningSlot true) s
      u.energy.slot = some 1 ∧ u.dueAt .energy = some (planningSlot + ticksOfUs 20) ∧ u.energy.next = none)) ∧
    ((running (timed r0)).atTime 5).planning = true ∧
    same (.energyUpdate 5 1 2) r0 (r0.atTime 5) = true ∧
    (let s := r0.arm .energy 9
     same (.energyUpdate 8 1 2) s (s.atTime 8) = true ∧
     same (.energyUpdate 9 1 2) (powered powerWakeFailed s) (((powered powerWakeFailed s).atTime 9).disarm .energy) = true ∧
     (let v := ((s.put (Reg.POWER.E_LO.word 0) 0xFFFFFFFF).put (Reg.POWER.E_HI.word 0) 0xFFFFFFFF).put (Reg.POWER.E_LO.word 6) 0xFFFFFFFF
      let u := ran (.energyUpdate 9 1 2) v
      v.metered = true ∧ u.energy.bucket = min v.depthNj (v.energy.bucket + v.shareNj - 3000) ∧ u.get (Reg.POWER.E_LO.word 0) = 0 ∧
       u.get (Reg.POWER.E_HI.word 0) = 0 ∧ u.get (Reg.POWER.E_HI.word 6) = 1 ∧ u.energy.nonCore.head? = some (0, 2) ∧ u.dueAt .energy = none ∧
       u.get Reg.POWER.GAMMA.gamma = s.get Reg.POWER.GAMMA.gamma)) := by decide +kernel

/-- A plan at a voltage, under a target. -/
def planAt (mv target : Nat) : State :=
  { r0 with energy := { r0.energy with plan := some { slot := 0, mv := mv, level := 0, energy := 0, core := 0, noDl := 0, noUl := 0 }, target := target } }

/-- An energy policy of one item: a task on the downlink of carrier 0, which asks for `w` of its `b` cycles. -/
def oneItem (w b : Nat) : Section :=
  { type := secEnergy, inst := 0,
    bytes := List.replicate 0x12 0 ++ leBytes 2 1 ++ List.replicate 0x4C 0 ++ [0, 0, 0, 5, 0, 0, 0, 0] ++ leBytes 4 w ++ leBytes 4 b ++ leBytes 8 0 }

/-- A policy of one item is in force, planning slot 1 is in progress, the speed of slot 0 has been measured. -/
def budgeted (w b : Nat) : State :=
  let s := planned [oneItem w b] (timed r0)
  { s with energy := { s.energy with slot := some 1, speeds := [(7, List.replicate 16 1000)] } }

/-- A slot below 0.72 V admits the item that fits and not the one that does not; a fixed plan begins as it is, or anew at the lower voltage. -/
theorem witness_PlannedSlots :
    ((budgeted 1 2).admitted ((budgeted 1 2).admitFrom 1 700 0)).length = 1 ∧ (budgeted 1 2).itemFits 0 700 ((budgeted 1 2).workItems.getD 0 default) = true ∧
    (budgeted 2 1).admitted ((budgeted 2 1).admitFrom 1 700 0) = [] ∧
    (let p : Plan := { slot := 2, mv := 720, level := 3, energy := 0, core := 0, noDl := 0, noUl := 0 }
     [true, false].all (fun on =>
       let s := budgeted 1 2
       let s := ({ s with energy := { s.energy with next := some p, settled := on } }.atTime (2 * planningSlot)).slotWork
       let w := s.slotBegins 2
       s.energy.next == some p && w.planning && (w.energy.plan.map fun x => (x.slot, x.mv, x.level)) == some (2, if on then 720 else 800, 3)) = true) ∧
    (let s := ((budgeted 1 2).atTime (2 * planningSlot)).slotWork
     s.energy.next = none ∧ s.planning = true ∧ ((s.slotBegins 2).energy.plan.map fun x => (x.slot, x.mv, x.level)) = some (2, 800, 0)) ∧
    (let s := r0.arm .energy 9
     let s := { s with energy := { s.energy with ended := (planAt 720 720).energy.plan } }
     s.metered = true ∧ s.energy.ended.isSome = true ∧ (s.atTime 9).due .energy = true) := by decide +kernel

theorem witness_PlannerInputs :
    r0.energy.monitors.length = 16 ∧ same (.speedMeasure 5 []) (powered powerDeep r0) ((powered powerDeep r0).atTime 5) = true ∧
    (let l := List.replicate 15 1000 ++ [1151]
     let s := { r0 with energy := { r0.energy with monitors := r0.energy.monitors.set 15 { bad := 2, good := 0, valid := true } } }
     let u := ran (.speedMeasure 5 l) s
     s.coreOn = true ∧ u.get (Reg.POWER.SPEED.rate 15) = 1151 ∧ u.get (Reg.POWER.SPEED.valid 15) = 0 ∧ u.get (Reg.POWER.SPEED.valid 0) = 1 ∧
      (u.energy.monitors.getD 15 default).valid = false ∧
      ((ran (.speedMeasure 5 (List.replicate 15 1000 ++ [1150])) s).energy.monitors.getD 15 default).valid = true) ∧
    same (.speedMiss 5) r0 (r0.atTime 5) = true ∧ same (.speedMiss 5) (planAt 720 720) ((planAt 720 720).atTime 5) = true ∧
    [planAt 719 720, planAt 720 719].all (fun s =>
      let u := ran (.speedMiss 5) (s.put Reg.POWER.SPEED_MISS.word 0xFFFFFFFF)
      u.get Reg.POWER.STATUS.speed_miss == 1 && u.get Reg.POWER.SPEED_MISS.word == 0 && u.energy.missDue) = true ∧
    same (.pmbusReadback 5 none) r0 (r0.atTime 5) = true ∧
    (let s := (planAt 720 810).arm .readVout 9
     let s := { s.put Reg.POWER.PMBUS_STATUS.errors 255 with energy := { s.energy with settled := false } }
     same (.pmbusReadback 8 (some 810)) s (s.atTime 8) = true ∧
     (let u := ran (.pmbusReadback 9 none) s
      u.get Reg.POWER.PMBUS_STATUS.fault = 1 ∧ u.get Reg.POWER.PMBUS_STATUS.errors = 0 ∧ u.dueAt .readVout = some (9 + ticksOfUs 20) ∧
       (u.log.head?.map fun r => (r.kind, r.cls, r.unit, r.inst)) = some (3, 0, unitPmbus, 0)) ∧
     [800, 820].all (fun mv => let u := ran (.pmbusReadback 9 (some mv)) s
       u.get Reg.POWER.PMBUS_STATUS.vout == mv && u.energy.settled && u.energy.confirmed == 810) = true ∧
     [799, 821].all (fun mv => let u := ran (.pmbusReadback 9 (some mv)) s
       !u.energy.settled && u.energy.confirmed == 800) = true) ∧
    (let u := ran (.pmAlert 5 none) r0
     u.get Reg.POWER.PMBUS_STATUS.fault = 1 ∧ u.out = [.pmbus pmStatusWord 0]) ∧
    (let u := ran (.pmAlert 5 (some 65536)) (r0.put Reg.POWER.PMBUS_STATUS.fault 1)
     u.get Reg.POWER.PMBUS_STATUS.fault = 0 ∧ (u.log.head?.map fun x => x.detail) = some 0 ∧ u.get Reg.HOST.INT_STATUS.event = 1) := by decide +kernel

/-! ### Housekeeping and trims -/

/-- The trims are loaded, the host has written those of the converters and of the sensors to their nominal values, and every sensor has a code. -/
def tuned (code : Nat) : State :=
  { r0 with trimsLoaded := true,
            trims := [(0x40014, 0x80000000), (0x40018, 0x80000000)] ++ (List.range 24).map fun n => (0x40100 + 4 * n, 0x3700FC40),
            hk := { r0.hk with codes := List.replicate 24 code } }

/-- A round in progress with some entries left. -/
def sampling (left : List (Nat × Nat × Nat × Nat)) : State := { tuned 8000 with hk := { (tuned 8000).hk with running := true, left := left } }

theorem witness_HkRounds :
    let s := tuned 8000
    same (.hkRoundStart 5) r0 (r0.atTime 5) = true ∧
    (let u := ran (.hkRoundStart 5) s
     s.roundPeriod = 2048 ∧ u.hk.running = true ∧ u.hk.start = some 5 ∧ u.hk.left.length = 40 ∧ u.hk.length = 2048 ∧ u.get Reg.HK.STATUS.stretched = 0 ∧
      same (.hkRoundStart 6) u (u.atTime 6) = true) ∧
    (let v := s.put Reg.HK.CTL.period 1
     v.entriesTime v.roundEntries = 320 ∧ (ran (.hkRoundStart 5) v).hk.length = 512 ∧ (ran (.hkRoundStart 5) v).get Reg.HK.STATUS.stretched = 1) ∧
    (ran (.hkRoundStart 5) (s.put Reg.RECOVERY.STATUS.hkb_standin 1)).hk.byB = true ∧
    same (.hkEntryDone 5 39 [7] 16384) s (s.atTime 5) = true ∧
    (let v := sampling [(39, 0x32, 2, 4)]
     let t := 9 + ticksOfUs 4
     let late := { v with hk := { v.hk with from_ := v.hk.from_.set 0x32 10 } }
     same (.hkEntryDone t 38 [7] 16384) v (v.atTime t) = true ∧
     same (.hkEntryDone t 39 [7] 16384) late ({ late.atTime t with hk := { late.hk with left := [] } }.put (Reg.HK.READ.stale 39) 1) = true ∧
     (let u := ran (.hkEntryDone (t + 1) 39 [6, 7, 8, 8] 16384) late
      u.hk.left = [] ∧ u.get (Reg.HK.READ.stale 39) = 0 ∧ u.get (Reg.HK.READ.value 39) = 7)) ∧
    (let u := ran (.hkEntryDone (ticksOfUs 4) 23 [16000] 16384) (sampling [(23, 23, 2, 4)])
     u.hk.codes.getD 23 0 = 16000 ∧ u.get (Reg.HK.READ.value 23) = 16000 * 14080 / 65536 - 960) ∧
    same (.hkRoundEnd 5 0 0 16384) s (s.atTime 5) = true ∧
    same (.hkRoundEnd 5 0 0 16384) (sampling [(39, 0x32, 2, 4)]) ((sampling [(39, 0x32, 2, 4)]).atTime 5) = true ∧
    same (.hkConversionTimeout 5) s (s.atTime 5) = true ∧
    (let u := ran (.hkConversionTimeout 5) (sampling [(39, 0x32, 2, 4)])
     u.get Reg.HK.STATUS.hka_fault = 1 ∧ u.get Reg.RECOVERY.STATUS.hkb_standin = 1 ∧ u.hk.left = [] ∧
      (u.log.head?.map fun r => (r.kind, r.cls, r.unit, r.inst)) = some (1, 14, unitHk, 0)) ∧
    (let v := (sampling [(39, 0x32, 2, 4)]).put Reg.RECOVERY.STATUS.hkb_standin 1
     let u := ran (.hkConversionTimeout 5) { v with hk := { v.hk with byB := true } }
     u.get Reg.HK.STATUS.hkb_fault = 1 ∧ u.hk.left = [] ∧ u.hk.stopped = true ∧ u.hk.codes = List.replicate 24 0) := by decide +kernel

/-- At the end of a round, cool, while no rail is metered: every sensor reads 758 / 16 °C. -/
theorem witness_HkRoundCool :
    let s := powered powerWakeFailed (sampling [])
    let w := (s.atTime 5).roundJudged 0 0 16384
    w.1.hotRegion = some (0, 758) ∧ 8 ≤ countIf (fun (x : Sensor) => x.valid) w.1.hk.sensors ∧ w.1.power ≠ powerThermalOff ∧
    w.1.get Reg.THERMAL.STATUS.shutdown = 0 ∧ 758 < w.1.level Reg.THERMAL.THRESH.shutdown ∧ 758 < w.1.level Reg.THERMAL.THRESH.warning - 48 ∧
    758 < w.1.level Reg.THERMAL.THRESH.throttle - 48 ∧
    (let u := ran (.hkRoundEnd 5 0 0 16384) s
     u.get Reg.THERMAL.STATUS.t_hot = 758 ∧ u.get Reg.THERMAL.STATUS.hottest = 0 ∧ u.get Reg.THERMAL.STATUS.shutdown = 0) := by decide +kernel

theorem witness_HkInjected :
    let s := (tuned 8000).put Reg.HK.STATUS.ref_settled 1
    let value := fun c => BitVec.ofNat 32 (2 ^ 31 + c * 65536)
    let dropped := fun (v : State) c cause => same (.hkInject 5 0 (value c)) v (((v.atTime 5).storeHk Reg.HK.INJ_CTL.go.addr (value c)).injDrop cause c)
    let busy := { s with hk := { s.hk with injected := some { channel := 0x32, avg := 0, delay := 0, at_ := 0 } } }
    s.reaches 5 0 Reg.HK.INJ_CTL.go.addr ∧ dropped s 0x26 injChannel = true ∧ dropped s 255 injChannel = true ∧
    dropped (s.put Reg.RECOVERY.STATUS.hkb_standin 1) 0 injStandin = true ∧
    dropped { s with hk := { s.hk with cal := some default } } 0x4F injCal = true ∧
    dropped busy 0x4F injBusy = true ∧ dropped (s.put Reg.HK.STATUS.ref_settled 0) 0x40 injRef = true ∧
    (let u := ran (.hkInject 5 0 (value 0x4F)) s
     u.get Reg.HK.INJ_CTL.pending = 1 ∧ (u.hk.injected.map fun j => (j.channel, j.at_)) = some (0x4F, 5) ∧ keeps s u [Reg.HK.INJ_CTL.go.addr] = true) ∧
    same (.hkInjectDone 5 [7] 16384) s (s.atTime 5) = true ∧
    (let t := ticksOfUs 4 + ticksOfUs 1
     same (.hkInjectDone (t - 1) [7] 16384) busy (busy.atTime (t - 1)) = true ∧
     (let u := ran (.hkInjectDone t [7] 16384) busy
      u.get Reg.HK.INJ_RESULT.done = 1 ∧ u.get Reg.HK.INJ_RESULT.channel = 0x32 ∧ u.get Reg.HK.INJ_RESULT.value = 7 ∧
       u.get Reg.HK.INJ_CTL.pending = 0 ∧ u.hk.injected = none) ∧
     (let v := { busy with hk := { busy.hk with bandgapAt := some (ticksOfUs 4 + 1) } }
      same (.hkInjectDone t [7] 16384) v (v.atTime t) = true ∧ (ran (.hkInjectDone (t + 1) [7] 16384) v).hk.injected = none) ∧
     (let v := { s with hk := { s.hk with refAt := some (ticksOfUs 4 + 1), injected := some { channel := 0x40, avg := 0, delay := 0, at_ := 0 } } }
      same (.hkInjectDone t [7] 16384) v ((v.atTime t).dropPending injRef) = true)) := by decide +kernel

theorem witness_HkReference :
    let s := (tuned 8000).put Reg.HK.STATUS.ref_settled 1
    s.reaches 5 0 Reg.HK.CTL.ref.addr ∧ same (.hkRefWrite 5 0 0x900) s ((s.atTime 5).storeHk Reg.HK.CTL.ref.addr 0x900) = true ∧
    (let u := ran (.hkRefWrite 5 0 0x801) { s with hk := { s.hk with cal := some default } }
     u.get Reg.HK.CTL.ref = 1 ∧ u.get Reg.HK.STATUS.ref_settled = 0 ∧ u.hk.refAt = some (5 + ticksOfUs 200) ∧ u.hk.cal = none ∧
      u.get Reg.HK.SYSCAL_STATUS.result = calibRef ∧ u.get Reg.HK.SYSCAL_STATUS.done = 1 ∧
      same (.hkRefSettled (4 + ticksOfUs 200)) u (u.atTime (4 + ticksOfUs 200)) = true ∧
      (ran (.hkRefSettled (5 + ticksOfUs 200)) u).get Reg.HK.STATUS.ref_settled = 1) ∧
    same (.hkRefSettled 5) s (s.atTime 5) = true := by decide +kernel

theorem witness_SysCalibration :
    let s := (tuned 8000).put Reg.HK.STATUS.ref_settled 1
    let value : Word := BitVec.ofNat 32 (15 * 65536 + 8192)
    let zeroed := { s with hk := { s.hk with zeros := [(15, 100)] } }
    let refused := fun (v : State) (c : Instr) code => same c v ((((v.atTime 5).storeHk Reg.HK.SYSCAL_CTL.cmd.addr value).put
      Reg.HK.SYSCAL_STATUS.result code).put Reg.HK.SYSCAL_STATUS.done 1)
    s.reaches 5 0 Reg.HK.SYSCAL_CTL.cmd.addr ∧ refused { s with hk := { s.hk with cal := some default } } (.zero 5 0 value) calibBusy = true ∧
    refused (s.put Reg.HK.STATUS.hkb_fault 1) (.span 5 0 value) calibStandin = true ∧
    refused (s.put Reg.HK.STATUS.ref_settled 0) (.zero 5 0 value) calibRef = true ∧ refused s (.span 5 0 value) calibSequence = true ∧
    (let u := ran (.zero 5 0 value) s
     let t := 5 + ticksOfUs 264
     u.get Reg.HK.SYSCAL_STATUS.running = 1 ∧ u.hk.cal = some { input := 15, full := 8192, zero := none, at_ := 5 } ∧
      same (.syscalCaptureDone (t - 1) [7] 16384) u (u.atTime (t - 1)) = true ∧
      (let v := ran (.syscalCaptureDone t [16383] 16384) u
       v.get Reg.HK.SYSCAL_STATUS.mean = 16383 ∧ assoc? v.hk.zeros 15 = some 16383 ∧ v.hk.cal = none ∧ v.get Reg.HK.SYSCAL_STATUS.done = 1) ∧
      (let v := ran (.syscalCancel 6 0) u
       v.hk.cal = none ∧ v.get Reg.HK.SYSCAL_STATUS.result = calibCancelled ∧ keeps u v [Reg.HK.SYSCAL_STATUS.word.addr] = true)) ∧
    (let u := ran (.span 5 0 value) zeroed
     let v := ran (.syscalCaptureDone (5 + ticksOfUs 264) [8292] 16384) u
     u.hk.cal = some { input := 15, full := 8192, zero := some 100, at_ := 5 } ∧ v.get (Reg.HK.SYSCAL_IN.gain 15) = 16384 ∧
      v.get (Reg.HK.SYSCAL_IN.ofs 15) = 100 ∧ v.get (Reg.HK.SYSCAL_IN.suspect 15) = 0 ∧ v.hk.cal = none ∧
      keeps u v [Reg.HK.SYSCAL_STATUS.word.addr, (Reg.HK.SYSCAL_IN.word 15).addr] = true) ∧
    same (.syscalCancel 5 0) s (s.atTime 5) = true ∧ same (.syscalCaptureDone 5 [7] 16384) s (s.atTime 5) = true := by decide +kernel

theorem witness_Trims :
    let s := tuned 8000
    s.reaches 5 0 Reg.TRIM.CTL.reload.addr ∧
    (let u := ran (.trimReload 5 0) s
     u.hk.copying = true ∧ u.get Reg.TRIM.STATUS.loaded = 0 ∧ u.trims = s.trims ∧ s.reaches 5 0 0x40010 ∧
      same (.trimWrite 6 0 0x40010 5) u ((u.atTime 6).put Reg.TRIM.STATUS.write_lost 1) = true ∧
      (let v := { u with trimsLoaded := false }
       (ran (.trimCopyDone 6) v).hk.copying = false ∧ (ran (.trimCopyDone 6) v).trims = [])) ∧
    isTrim 0x40004 = false ∧ same (.trimWrite 5 0 0x40004 5) s (s.atTime 5) = true ∧ isTrim 0x40010 = true ∧ isTrim 0x43FA8 = true ∧
    (let u := ran (.trimWrite 5 0 0x40014 0xFFFF0000) s
     u.trimWord 0x40014 = 0xFFFF0000 ∧ u.trimWord 0x40018 = 0x80000000) ∧
    (let v := { s with trims := s.trims ++ [(0x40010, 0x200)] }
     let u := ran (.trimWrite 5 0 0x40010 0x1FF) v
     u.trimWord 0x40010 = (fieldsAt 0x40010).foldl (storeField false 0x1FF) 0x200 ∧ u.get Reg.TRIM.STATUS.settling = 1 ∧
      u.hk.bandgapAt = some (5 + ticksOfUs 200) ∧ same (.bandgapSettled (4 + ticksOfUs 200)) u (u.atTime (4 + ticksOfUs 200)) = true ∧
      (ran (.bandgapSettled (5 + ticksOfUs 200)) u).get Reg.TRIM.STATUS.settling = 0) ∧
    same (.trimCopyDone 5) s (s.atTime 5) = true ∧ same (.bandgapSettled 5) s (s.atTime 5) = true := by decide +kernel

/-! ### The queue, the pins and the invariants -/

/-- A machine whose array time runs, with a command in front, meets every premise of the invariants, and its step answers. -/
theorem witness_Invariants :
    let s := { timed r0 with pending := [.speedMiss 5] }
    s.intN = s.intAsserted ∧ s.faultN = s.faultAsserted ∧ s.storesWf = true ∧ s.shaped = true ∧
    (match Machine.step s with
     | .next u => u.pending.isEmpty
     | _ => false) = true := by decide +kernel

/-! ### Commands that `Instr.wf` refuses (the spec's operand ranges) -/

def goodSource : Source := { port := 7, mac := List.replicate 6 1, vid := some 4095, ip := [10, 0, 0, 1], udp := 65535 }
def fullChunk : Chunk := { carrier := 7, layer := 31, slot := 0, sym := 13, first := 0, prbs := [(0, List.replicate 12 ⟨0, 0⟩)] }
def fullSection : USection :=
  { frame := 0, subframe := 0, slot := 0, sym := 13, compMeth := 1, width := 9, startPrb := 0, prbs := [(255, List.replicate 12 ⟨0, 0⟩)] }

theorem smoke_sxm :
    (Instr.sxmHello 0 goodSource []).wf = true ∧ (Instr.sxmHello 0 goodSource (List.replicate 1473 0)).wf = false ∧
    (Instr.request 0 { goodSource with port := 8 } []).wf = false ∧ (Instr.close 0 { goodSource with mac := [] } []).wf = false ∧
    (Instr.request 0 { goodSource with vid := some 4096 } []).wf = false ∧ (Instr.close 0 { goodSource with ip := [1] } []).wf = false ∧
    (Instr.sxmHello 0 { goodSource with udp := 65536 } []).wf = false := by decide +kernel

theorem smoke_boot :
    (Instr.fullReset 0 5 0 [(0, 0x40000), (1, 143), (2, 67), (5, 815)]).wf = true ∧ (Instr.fullReset 0 4 0 []).wf = false ∧
    (Instr.fullReset 0 1 0 [(1, 144)]).wf = false ∧ (Instr.hostReset 0 0 0 [(2, 68)]).wf = false ∧
    (Instr.resetNRelease 0 0 [(5, 816)]).wf = false ∧ (Instr.powerGoodRise 0 0 [(3, 0)]).wf = false ∧
    (Instr.bootStepTimeout 0 4 0).wf = true ∧ (Instr.bootStepTimeout 0 1 0).wf = false ∧ (Instr.bootStepTimeout 0 5 0).wf = false := by decide +kernel

theorem smoke_radio :
    (Instr.dcBlockUpdate 0 0 (List.replicate 64 ⟨0, 0⟩)).wf = true ∧ (Instr.dcBlockUpdate 0 0 []).wf = false ∧
    (Instr.pathFault 0 0 5).wf = true ∧ (Instr.pathFault 0 0 0).wf = false ∧ (Instr.femScript 0 0 .init []).wf = false ∧
    (Instr.femInitTimeout 0 0 8).wf = true ∧ (Instr.femInitTimeout 0 0 9).wf = false ∧ (Instr.symbolBoundary 0 0 []).wf = false := by decide +kernel

theorem smoke_fronthaul :
    (Instr.linkFault 0 0 6).wf = true ∧ (Instr.linkFault 0 0 0).wf = false ∧ (Instr.cplaneMessage 0 0 65535 255 []).wf = true ∧
    (Instr.cplaneMessage 0 0 65536 0 []).wf = false ∧ (Instr.cplaneMessage 0 0 0 256 []).wf = false ∧ (Instr.gapSkip 0 0 65536).wf = false ∧
    (Instr.uplaneSection 0 0 0 fullSection).wf = true ∧ (Instr.uplaneSection 0 0 0 { fullSection with sym := 14 }).wf = false ∧
    (Instr.uplaneSection 0 0 0 { fullSection with prbs := [(256, List.replicate 12 ⟨0, 0⟩)] }).wf = false ∧
    (Instr.uplaneSection 0 0 0 { fullSection with prbs := [(0, [])] }).wf = false := by decide +kernel

theorem smoke_hosts :
    (Instr.arpRequest 0 0 (List.replicate 6 0) (List.replicate 4 0) (List.replicate 4 0)).wf = true ∧
    (Instr.arpRequest 0 0 (List.replicate 6 0) (List.replicate 16 0) (List.replicate 4 0)).wf = false ∧
    (Instr.neighbourSolicitation 0 0 (List.replicate 6 0) (List.replicate 16 0) (List.replicate 4 0)).wf = false ∧
    (Instr.echoRequest 0 0 [0, 0, 0, 0] [0, 0, 0, 0] 65535 65535 []).wf = true ∧
    (Instr.echoRequest 0 0 [0, 0, 0, 0] [0, 0, 0, 0] 65536 0 []).wf = false ∧
    (Instr.echoRequest 0 0 [0, 0, 0, 0] [0, 0, 0, 0] 0 65536 []).wf = false ∧
    (Instr.echoRequest 0 0 [] [0, 0, 0, 0] 0 0 []).wf = false := by decide +kernel

theorem smoke_stair :
    (Instr.fullDone 0 0 (List.replicate 16 0)).wf = true ∧ (Instr.fullDone 0 0 []).wf = false ∧
    (Instr.laneFault 0 0 5).wf = true ∧ (Instr.laneFault 0 0 0).wf = false ∧ (Instr.flightFault 0 0 8).wf = true ∧
    (Instr.flightFault 0 0 7).wf = false ∧ (Instr.flightFault 0 0 15).wf = false ∧ (Instr.partialSum 0 0 fullChunk).wf = true ∧
    (Instr.partialSum 0 0 { fullChunk with carrier := 8 }).wf = false ∧ (Instr.supplement 0 0 512 fullChunk).wf = false ∧
    (Instr.supplement 0 0 511 { fullChunk with layer := 32 }).wf = false ∧ (Instr.layer 0 0 { fullChunk with sym := 14 }).wf = false ∧
    (Instr.finished 0 0 { fullChunk with prbs := [(0, [])] }).wf = false ∧ (Instr.join 0 0 511 0 []).wf = true ∧
    (Instr.join 0 0 512 0 []).wf = false ∧ (Instr.join 0 0 0 (2 ^ 64) []).wf = false := by decide +kernel

theorem smoke_otaTxn :
    (Instr.otaCaptureDone 0 0 0 (List.replicate 64 (List.replicate 768 ⟨0, 0⟩)) 0).wf = true ∧
    (Instr.otaCaptureDone 0 0 0 (List.replicate 64 [⟨0, 0⟩]) 0).wf = false ∧ (Instr.otaCaptureDone 0 0 0 [] 0).wf = false ∧
    (Instr.prepareMessage 0 0 0 0 7).wf = true ∧ (Instr.prepareMessage 0 0 0 0 8).wf = false ∧ (Instr.vote 0 0 0 0 0xFFFF 0).wf = true ∧
    (Instr.vote 0 0 0 0 512 0).wf = false := by decide +kernel

theorem smoke_recover :
    (Instr.hallFault 0 0 255).wf = true ∧ (Instr.hallFault 0 0 256).wf = false ∧ (Instr.atriumFault 0 256).wf = false ∧
    (Instr.scrubPass 0 0 0 none).wf = true ∧ (Instr.scrubPass 0 0 0 (some 0x1FFFF)).wf = true ∧
    (Instr.scrubPass 0 0 0 (some 0x20000)).wf = false ∧ (Instr.bankUncorrectable 0 0 0x20000 0 []).wf = false ∧
    (Instr.bankUncorrectable 0 0 0 256 []).wf = false := by decide +kernel

theorem smoke_clockPower :
    (Instr.synthLockLoss 0 0).wf = true ∧ (Instr.synthLockLoss 0 1).wf = false ∧ (Instr.synthLockDeclared 0 2 0).wf = false ∧
    (Instr.synthAttemptTimeout 0 1 0).wf = false ∧ (Instr.speedMeasure 0 (List.replicate 16 0)).wf = true ∧
    (Instr.speedMeasure 0 []).wf = false ∧ (Instr.wakeDone 0 [767] [(7, 1)]).wf = true ∧ (Instr.wakeDone 0 [768] []).wf = false ∧
    (Instr.wakeDone 0 [] [(8, 0)]).wf = false ∧ (Instr.wakeDone 0 [] [(0, 2)]).wf = false ∧ (Instr.enterIdle 0 0 127).wf = true ∧
    (Instr.enterIdle 0 0 128).wf = false ∧ (Instr.enterDoze 0 0 128).wf = false ∧ (Instr.enterDeep 0 0 128).wf = false := by decide +kernel

end Sys2Proof.Tests
end

