-- ==== Sys2Proof/Proofs/RegisterHalves.lean ====
section
/-!
Reads and writes of the halves of a 64-bit value (R8 to R14, R699): what each of the four commands answers, from one rule per operation
of the holding register.
-/

namespace Sys2Proof.Machine

open Sys2Proof

/-! ### Host commands through a register -/

@[simp] theorem State.when_true (s : State) (f : State → State) : s.when true f = f s := rfl

/-- Where the channel reaches the register, a host's command acts on the state at its time (R650, R660). -/
theorem State.hostCmd_of_reaches {s : State} {t : Nat} {ch : Channel} {a : Nat} (h : s.reaches t ch a) (f : State → State) :
    s.hostCmd t ch.val a f = f (s.atTime t) := by
  obtain ⟨hopen, hanswers⟩ := h
  simp [State.hostCmd, hopen, hanswers]

/-- A host's command that changes nothing only lets time pass, whether or not the channel reaches the register. -/
theorem State.hostCmd_same {f : State → State} (hf : ∀ s, f s = s) (s : State) (t ch a : Nat) : s.hostCmd t ch a f = s.atTime t := by
  simp [State.hostCmd, hf]

/-! ### The holding register and the pending half -/

theorem four_le_of_isHighHalf {a : Nat} (h : isHighHalf a = true) : 4 ≤ a := by
  unfold isHighHalf at h
  exact of_decide_eq_true (Bool.and_eq_true_iff.1 h).1

/-- A high half whose tag matches reads as the held copy, and changes nothing (R11). -/
theorem State.readHigh_of_held {s : State} {ch a : Nat} {v : Word} (ha : 4 ≤ a) (hold : (s.chan ch).hold = some (a - 4, v)) :
    s.readHigh ch a = (v, s) := by
  simp [State.readHigh, hold, Nat.sub_add_cancel ha]

/-- A high half whose tag does not match, or with nothing held, reads live and sets unpaired (R11). -/
theorem State.readHigh_of_not_held {s : State} {ch a : Nat} (hne : ∀ h, (s.chan ch).hold = some h → h.1 + 4 ≠ a) :
    s.readHigh ch a = (s.readValue ch a, s.modChan ch fun c => { c with unpaired := true }) := by
  unfold State.readHigh
  cases hold : (s.chan ch).hold with
  | none => rfl
  | some h => exact if_neg (hne h hold)

/-- No pair of R699 is writable, so a write of a high half leaves no pending half. -/
@[simp] theorem State.highWrite_eq_self (s : State) (ch a : Nat) (v : Word) : s.highWrite ch a v = s := rfl

/-- No pair of R699 is writable, so a write of a low half stores nothing. -/
@[simp] theorem State.lowWrite_eq_self (s : State) (ch a : Nat) (v : Word) : s.lowWrite ch a v = s := rfl

/-! ### What the commands answer -/

/-- LOW_HALF_READ of a low half answers with what `State.readLow` reads and holds (R9, R10). -/
theorem gives_lowHalfRead {s : State} {t : Nat} {ch : Channel} {a : Word} (hr : s.reaches t ch a.toNat) (hlow : isLowHalf a.toNat = true) :
    Gives (.lowHalfRead t ch a) s (readOut ch.val a.toNat ((s.atTime t).readLow ch.val a.toNat)) := by
  change execLowHalfRead t ch a s = _
  rw [execLowHalfRead, State.hostCmd_of_reaches hr, hlow, State.when_true, finish]

/-- HIGH_HALF_READ of a high half answers with what `State.readHigh` reads and changes (R11). -/
theorem gives_highHalfRead {s : State} {t : Nat} {ch : Channel} {a : Word} (hr : s.reaches t ch a.toNat) (hhigh : isHighHalf a.toNat = true) :
    Gives (.highHalfRead t ch a) s (readOut ch.val a.toNat ((s.atTime t).readHigh ch.val a.toNat)) := by
  change execHighHalfRead t ch a s = _
  rw [execHighHalfRead, State.hostCmd_of_reaches hr, hhigh, State.when_true, finish]

theorem gives_highHalfWrite (s : State) (t : Nat) (ch : Channel) (a v : Word) : Gives (.highHalfWrite t ch a v) s (s.atTime t) := by
  change execHighHalfWrite t ch a v s = _
  rw [execHighHalfWrite, State.hostCmd_same (fun u => u.highWrite_eq_self _ _ _), finish]

theorem gives_lowHalfWrite (s : State) (t : Nat) (ch : Channel) (a v : Word) : Gives (.lowHalfWrite t ch a v) s (s.atTime t) := by
  change execLowHalfWrite t ch a v s = _
  rw [execLowHalfWrite, State.hostCmd_same (fun u => u.lowWrite_eq_self _ _ _), finish]

/-! ### The statement -/

theorem claim_halfReads : Claim.HalfReads := by
  intro s t ch a hr
  refine ⟨fun hlow => gives_lowHalfRead hr hlow, fun hhigh => ⟨fun v hold => ?held, fun hne => ?live⟩⟩
  case held =>
    have hread := State.readHigh_of_held (s := s.atTime t) (four_le_of_isHighHalf hhigh) hold
    have hgives := gives_highHalfRead hr hhigh
    rwa [hread] at hgives
  case live =>
    have hread := State.readHigh_of_not_held (s := s.atTime t) hne
    have hgives := gives_highHalfRead hr hhigh
    rwa [hread] at hgives

theorem claim_halfWritesNoEffect : Claim.HalfWritesNoEffect := fun s t ch a v =>
  ⟨gives_highHalfWrite s t ch a v, gives_lowHalfWrite s t ch a v⟩

/-- Settles O17: a read goes through the holding register's two rules (held or live), and no pair is writable. -/
theorem registerHalves : Obligations.RegisterHalves := ⟨claim_halfReads, claim_halfWritesNoEffect⟩

end Sys2Proof.Machine
end

