-- ==== Sys2Proof/Proofs/ImageControl.lean ====
section
/-!
The commands of IMAGE.CTL and their ends (R91 to R98, R110 to R113): what a command that is lost, refused or begun answers, and what the
completions of VERIFY, LOAD and a slot-record update leave.
-/

namespace Sys2Proof.Machine

open Sys2Proof

/-! ### Registers that read as before -/

theorem SameWords.trans {s u v : State} {l : List Nat} (hsu : SameWords s u l) (huv : SameWords u v l) : SameWords s v l :=
  fun a ha => (huv a ha).trans (hsu a ha)

theorem sameWords_atTime (s : State) (t : Nat) (l : List Nat) : SameWords s (s.atTime t) l := fun _ _ => rfl

/-- The internal state of image handling is no register. -/
theorem sameWords_setImage (s : State) (x : ImageState) (l : List Nat) : SameWords s { s with image := x } l := fun _ _ => rfl

theorem sameWords_put (s : State) (f : Fld) (v : Nat) : SameWords s (s.put f v) [f.addr] :=
  fun _ ha => State.word_put_other s (fun e => ha (List.mem_singleton.2 e.symm)) v

theorem sameWords_putB (s : State) (f : Fld) (b : Bool) : SameWords s (s.putB f b) [f.addr] := sameWords_put s f (b2n b)

/-! ### The end of a command (R113) -/

@[simp] theorem State.image_imageOver (s : State) (code i : Nat) : (s.imageOver code i).image = { s.image with cmd := none } := rfl

@[simp] theorem State.get_done_imageOver (s : State) (code i : Nat) : (s.imageOver code i).get Reg.IMAGE.STATUS.done = 1 :=
  State.get_put_same _ rfl 1

@[simp] theorem State.get_busy_imageOver (s : State) (code i : Nat) : (s.imageOver code i).get Reg.IMAGE.STATUS.busy = 0 :=
  (State.get_put_apart _ rfl rfl 1).trans (State.get_put_same _ rfl 0)

@[simp] theorem State.get_code_imageOver (s : State) (code i : Nat) : (s.imageOver code i).get Reg.IMAGE.STATUS.code = code % 256 :=
  calc (s.imageOver code i).get Reg.IMAGE.STATUS.code
    _ = _ := State.get_put_apart _ rfl rfl 1
    _ = _ := State.get_put_apart _ rfl rfl 0
    _ = _ := State.get_put_apart _ rfl rfl i
    _ = code % 256 := State.get_put_same _ rfl code

theorem sameWords_imageOver (s : State) (code i : Nat) : SameWords s (s.imageOver code i) [Reg.IMAGE.STATUS.word.addr] := by
  unfold State.imageOver
  refine SameWords.trans ?_ (sameWords_put _ Reg.IMAGE.STATUS.done 1)
  refine SameWords.trans ?_ (sameWords_put _ Reg.IMAGE.STATUS.busy 0)
  refine SameWords.trans ?_ (sameWords_put _ Reg.IMAGE.STATUS.section i)
  refine SameWords.trans ?_ (sameWords_put _ Reg.IMAGE.STATUS.code code)
  exact sameWords_setImage s _ _

/-- A field that the end of a command does not report reads as before. -/
theorem State.get_imageOver_apart (s : State) (code i : Nat) {f : Fld} (hcode : Reg.IMAGE.STATUS.code.apart f = true)
    (hsection : Reg.IMAGE.STATUS.section.apart f = true) (hbusy : Reg.IMAGE.STATUS.busy.apart f = true)
    (hdone : Reg.IMAGE.STATUS.done.apart f = true) : (s.imageOver code i).get f = s.get f :=
  calc (s.imageOver code i).get f
    _ = _ := State.get_put_apart _ rfl hdone 1
    _ = _ := State.get_put_apart _ rfl hbusy 0
    _ = _ := State.get_put_apart _ rfl hsection i
    _ = _ := State.get_put_apart _ rfl hcode code

/-! ### What a write of IMAGE.CTL does (R110) -/

/-- A command was accepted: done clears and busy sets. -/
def State.imageAccepted (s : State) : State := (s.put Reg.IMAGE.STATUS.done 0).put Reg.IMAGE.STATUS.busy 1

/-- What a command leaves in progress; LOCK is over at once. -/
def State.imageStarts (s : State) (cmd slot : Nat) : Option ImageCmd :=
  if cmd = 1 then some .load
  else if cmd = 2 then some .verify
  else if cmd = 7 then none
  else some (.slotUpdate (s.newSlotRecord cmd slot))

@[simp] theorem State.image_imageAccepted (s : State) : s.imageAccepted.image = s.image := rfl
@[simp] theorem State.keep_imageAccepted (s : State) : s.imageAccepted.keep = s.keep := rfl

theorem State.get_busy_imageAccepted (s : State) : s.imageAccepted.get Reg.IMAGE.STATUS.busy = 1 := State.get_put_same _ rfl 1

theorem State.get_done_imageAccepted (s : State) : s.imageAccepted.get Reg.IMAGE.STATUS.done = 0 :=
  (State.get_put_apart _ rfl rfl 1).trans (State.get_put_same _ rfl 0)

theorem State.get_imageAccepted_apart (s : State) {f : Fld} (hdone : Reg.IMAGE.STATUS.done.apart f = true)
    (hbusy : Reg.IMAGE.STATUS.busy.apart f = true) : s.imageAccepted.get f = s.get f :=
  (State.get_put_apart _ rfl hbusy 1).trans (State.get_put_apart _ rfl hdone 0)

theorem sameWords_imageAccepted (s : State) : SameWords s s.imageAccepted [Reg.IMAGE.STATUS.word.addr] :=
  (sameWords_put s Reg.IMAGE.STATUS.done 0).trans (sameWords_put _ Reg.IMAGE.STATUS.busy 1)

/-- Whether a command is allowed does not turn on the bits that its acceptance changes. -/
theorem State.imageAllowed_imageAccepted (s : State) (cmd slot : Nat) : s.imageAccepted.imageAllowed cmd slot = s.imageAllowed cmd slot := by
  have hpower : s.imageAccepted.power = s.power := s.get_imageAccepted_apart rfl rfl
  have hopen : s.imageAccepted.imageOpen = s.imageOpen := by unfold State.imageOpen State.away; rw [hpower]; rfl
  have htrial : s.imageAccepted.flag Reg.IMAGE.STATUS.trial = s.flag Reg.IMAGE.STATUS.trial := by
    unfold State.flag; rw [s.get_imageAccepted_apart rfl rfl]
  have hbytes : s.imageAccepted.loadBytes = s.loadBytes := rfl
  unfold State.imageAllowed
  rw [hopen, htrial, hbytes, s.image_imageAccepted, s.keep_imageAccepted]

theorem State.imageCommand_of_busy {s : State} {cmd : Nat} (hcmd : cmd ≠ 0) (hbusy : s.flag Reg.IMAGE.STATUS.busy = true) (slot : Nat) :
    s.imageCommand cmd slot = s.put Reg.IMAGE.STATUS.cmd_lost 1 := by
  rw [State.imageCommand, if_neg hcmd, if_pos hbusy]

theorem State.imageCommand_of_refused {s : State} {cmd slot : Nat} (hcmd : cmd ≠ 0) (hbusy : s.flag Reg.IMAGE.STATUS.busy = false)
    (hallowed : s.imageAllowed cmd slot = false) : s.imageCommand cmd slot = s.imageAccepted.imageOver codeCommand 0xFF := by
  rw [← s.imageAllowed_imageAccepted] at hallowed
  rw [State.imageCommand, if_neg hcmd, hbusy]
  exact if_neg (Bool.eq_false_iff.1 hallowed)

theorem State.imageCommand_of_allowed {s : State} {cmd slot : Nat} (hcmd : cmd ≠ 0) (hbusy : s.flag Reg.IMAGE.STATUS.busy = false)
    (hallowed : s.imageAllowed cmd slot = true) : s.imageCommand cmd slot = s.imageAccepted.imageBegin cmd slot := by
  rw [← s.imageAllowed_imageAccepted] at hallowed
  rw [State.imageCommand, if_neg hcmd, hbusy]
  exact if_pos hallowed

theorem State.imageBegin_of_starts {s : State} {cmd slot : Nat} {c : ImageCmd} (h : s.imageStarts cmd slot = some c) :
    s.imageBegin cmd slot = { s with image := { s.image with cmd := some c } } := by
  unfold State.imageStarts at h
  unfold State.imageBegin
  split_ifs at h ⊢ <;> cases h <;> rfl

theorem State.imageBegin_of_lock {s : State} {cmd slot : Nat} (h : s.imageStarts cmd slot = none) :
    s.imageBegin cmd slot = (s.put Reg.IMAGE.STATUS.locked 1).imageOver codeOk 0xFF := by
  unfold State.imageStarts at h
  unfold State.imageBegin
  split_ifs at h ⊢
  rfl

/-! ### The commands of IMAGE.CTL -/

/-- A command of IMAGE.CTL whose channel reaches it answers with what the write does at its time. -/
theorem gives_imageAsk {s : State} {t : Nat} {ch : Channel} {i : Instr} {cmd slot : Nat} (hr : s.reaches t ch Reg.IMAGE.CTL.word.addr)
    (hexec : exec i s = finish (s.imageAsk t ch.val cmd slot)) : Gives i s ((s.atTime t).imageCommand cmd slot) := by
  unfold Gives
  rw [hexec, State.imageAsk, State.hostCmd_of_reaches hr, finish]

theorem claim_imageCommands : Claim.ImageCommands := by
  rintro s t ch n hr ⟨i, cmd, slot, start⟩ hp
  obtain ⟨hexec, hcmd, hstarts⟩ : exec i s = finish (s.imageAsk t ch.val cmd slot) ∧ cmd ≠ 0 ∧ s.imageStarts cmd slot = start := by
    simp only [List.mem_cons, List.not_mem_nil, or_false, Prod.mk.injEq] at hp
    rcases hp with ⟨rfl, rfl, rfl, rfl⟩ | ⟨rfl, rfl, rfl, rfl⟩ | ⟨rfl, rfl, rfl, rfl⟩ | ⟨rfl, rfl, rfl, rfl⟩ | ⟨rfl, rfl, rfl, rfl⟩ |
      ⟨rfl, rfl, rfl, rfl⟩ | ⟨rfl, rfl, rfl, rfl⟩ <;> exact ⟨rfl, by decide, rfl⟩
  have hgives := gives_imageAsk hr hexec
  have hsame : SameWords s (s.atTime t).imageAccepted [Reg.IMAGE.STATUS.word.addr] :=
    (sameWords_atTime s t _).trans (sameWords_imageAccepted _)
  refine ⟨fun hbusy => ?lost, fun hbusy hallowed => ?refused, fun hbusy hallowed => ?begun⟩
  case lost => rwa [State.imageCommand_of_busy (s := s.atTime t) hcmd hbusy] at hgives
  case refused =>
    rw [State.imageCommand_of_refused (s := s.atTime t) hcmd hbusy hallowed] at hgives
    exact ⟨_, hgives, rfl, State.get_code_imageOver .., State.get_busy_imageOver .., State.get_done_imageOver ..,
      hsame.trans (sameWords_imageOver _ _ _)⟩
  case begun =>
    rw [State.imageCommand_of_allowed (s := s.atTime t) hcmd hbusy hallowed] at hgives
    cases start with
    | some c =>
      rw [State.imageBegin_of_starts (s := (s.atTime t).imageAccepted) hstarts] at hgives
      refine ⟨_, hgives, rfl, hsame, fun d hd => ?_, nofun⟩
      cases hd
      exact ⟨rfl, (s.atTime t).get_busy_imageAccepted, (s.atTime t).get_done_imageAccepted⟩
    | none =>
      rw [State.imageBegin_of_lock (s := (s.atTime t).imageAccepted) hstarts] at hgives
      refine ⟨_, hgives, rfl, ?_, nofun, fun _ => ⟨?_, State.get_code_imageOver .., State.get_done_imageOver ..⟩⟩
      · exact (hsame.trans (sameWords_put _ Reg.IMAGE.STATUS.locked 1)).trans (sameWords_imageOver _ _ _)
      · exact (State.get_imageOver_apart _ _ _ rfl rfl rfl rfl).trans (State.get_put_same _ rfl 1)

/-! ### What the completions do -/

/-- The check of an image reads nothing that the time of a command changes. -/
@[simp] theorem State.checkImage_atTime (s : State) (t : Nat) (partialWanted : Bool) (im : List Byte) :
    (s.atTime t).checkImage partialWanted im = s.checkImage partialWanted im := rfl

@[simp] theorem State.bufferImage_atTime (s : State) (t : Nat) : (s.atTime t).bufferImage = s.bufferImage := rfl

/-- VERIFY_DONE of a VERIFY ends it, in a power state that lets verification end. -/
theorem State.verifyOver_of_verify {s : State} (hoff : s.power ≠ powerThermalOff) (hwake : s.power ≠ powerWakeFailed)
    (hcmd : s.image.cmd = some .verify) : s.verifyOver = s.partialVerified := by
  simp [State.verifyOver, hoff, hwake, hcmd]

/-- VERIFY_DONE of a LOAD whose check fails ends it, in a power state that lets verification end (R91). -/
theorem State.verifyOver_of_failed_load {s : State} (hoff : s.power ≠ powerThermalOff) (hwake : s.power ≠ powerWakeFailed)
    (hcmd : s.image.cmd = some .load) (hnone : s.image.candidate = none) (hfails : (s.checkImage false s.bufferImage).1 ≠ codeOk) :
    s.verifyOver = s.imageOver (s.checkImage false s.bufferImage).1 (s.checkImage false s.bufferImage).2 := by
  simp [State.verifyOver, hoff, hwake, hcmd, hnone, State.loadVerified, hfails]

/-- VERIFY_DONE of a LOAD that is verified already changes nothing. -/
theorem State.verifyOver_of_candidate {s : State} {r : Running} (hcmd : s.image.cmd = some .load) (hsome : s.image.candidate = some r) :
    s.verifyOver = s := by
  simp [State.verifyOver, hcmd, hsome]

/-- A VERIFY is over with the code of its check, and readies the partial image exactly where the check passed (R98). -/
theorem State.partialVerified_eq (s : State) : ∃ ready : Option Partial,
    (ready.isSome = true ↔ (s.checkImage true s.bufferImage).1 = codeOk) ∧
      s.partialVerified = (({ s with image := { s.image with ready := ready } } : State).putB Reg.IMAGE.STATUS.partial_ready
        ((s.checkImage true s.bufferImage).1 == codeOk)).imageOver
          (s.checkImage true s.bufferImage).1 (s.checkImage true s.bufferImage).2 := by
  refine ⟨_, ?_, rfl⟩
  split <;> simp_all

/-- LOAD_INSTALL of a LOAD that VERIFY_DONE ends comes to the same end. -/
theorem State.loadInstall_of_over {s : State} {code i : Nat} (hcmd : s.image.cmd = some .load) (hnone : s.image.candidate = none)
    (hover : s.verifyOver = s.imageOver code i) : s.loadInstall = s.imageOver code i := by
  simp [State.loadInstall, hcmd, hover, hnone]

/-- LOAD_INSTALL installs the verified image once no carrier is active (R92). -/
theorem State.loadInstall_of_candidate {s : State} {r : Running} (hcmd : s.image.cmd = some .load) (hsome : s.image.candidate = some r)
    (hidle : s.activeCarriers = []) : s.loadInstall = s.loadInstalled r := by
  simp [State.loadInstall, hcmd, State.verifyOver_of_candidate hcmd hsome, hsome, hidle]

/-- SLOT_RECORD_UPDATE_DONE stores the record that the command wrote while no command of the keep runs. -/
theorem State.slotUpdated_of_free {s : State} {r : SlotRecord} (hcmd : s.image.cmd = some (.slotUpdate r)) (hfree : s.keep.running = none) :
    s.slotUpdated = s.slotRecorded r := by
  simp [State.slotUpdated, hcmd, hfree]

/-- Behind a command of the keep the update waits (R683). -/
theorem State.slotUpdated_of_keep_busy {s : State} {r : SlotRecord} (hcmd : s.image.cmd = some (.slotUpdate r))
    (hbusy : s.keep.running.isSome = true) : s.slotUpdated = s := by
  simp [State.slotUpdated, hcmd, hbusy]

theorem State.get_floor_slotRecorded (s : State) (r : SlotRecord) : (s.slotRecorded r).get Reg.IMAGE.FLOOR.word = r.floor % 2 ^ 32 :=
  calc (s.slotRecorded r).get Reg.IMAGE.FLOOR.word
    _ = _ := State.get_imageOver_apart _ _ _ rfl rfl rfl rfl
    _ = _ := State.get_put_apart _ rfl rfl _
    _ = r.floor % 2 ^ 32 := State.get_put_same _ rfl _

/-! ### The ends of the commands -/

theorem gives_verifyDone (s : State) (t : Nat) : Gives (.verifyDone t) s (s.atTime t).verifyOver := rfl

theorem gives_loadInstall (s : State) (t : Nat) : Gives (.loadInstall t) s (s.atTime t).loadInstall := rfl

theorem gives_slotRecordUpdateDone (s : State) (t : Nat) : Gives (.slotRecordUpdateDone t) s (s.atTime t).slotUpdated := rfl

theorem claim_imageCompletes : Claim.ImageCompletes := by
  intro s t hoff hwake
  refine ⟨fun hcmd => ?verify, fun hcmd hnone hfails => ?fails, fun r hcmd hsome hidle => ?installs, fun r hcmd => ?slot⟩
  case verify =>
    have hgives := gives_verifyDone s t
    rw [State.verifyOver_of_verify (s := s.atTime t) hoff hwake hcmd] at hgives
    obtain ⟨ready, hready, hends⟩ := (s.atTime t).partialVerified_eq
    rw [State.checkImage_atTime, State.bufferImage_atTime] at hready hends
    rw [hends] at hgives
    have hsame := ((sameWords_atTime s t _).trans (sameWords_setImage _ { s.image with ready := ready } _)).trans
      (sameWords_putB _ Reg.IMAGE.STATUS.partial_ready ((s.checkImage true s.bufferImage).1 == codeOk))
    exact ⟨_, hgives, rfl, State.get_done_imageOver .., State.get_busy_imageOver .., State.get_code_imageOver .., hready, rfl,
      hsame.trans (sameWords_imageOver _ _ _)⟩
  case fails =>
    have hover := State.verifyOver_of_failed_load (s := s.atTime t) hoff hwake hcmd hnone
    rw [State.checkImage_atTime, State.bufferImage_atTime] at hover
    have hends : ∀ i ∈ [Instr.verifyDone t, .loadInstall t], Gives i s
        ((s.atTime t).imageOver (s.checkImage false s.bufferImage).1 (s.checkImage false s.bufferImage).2) := by
      have hverify := gives_verifyDone s t
      have hinstall := gives_loadInstall s t
      rw [hover hfails] at hverify
      rw [State.loadInstall_of_over (s := s.atTime t) hcmd hnone (hover hfails)] at hinstall
      simpa using ⟨hverify, hinstall⟩
    exact fun i hi => ⟨_, hends i hi, rfl, State.get_done_imageOver .., State.get_code_imageOver .., rfl,
      (sameWords_atTime s t _).trans (sameWords_imageOver _ _ _)⟩
  case installs =>
    have hgives := gives_loadInstall s t
    rw [State.loadInstall_of_candidate (s := s.atTime t) hcmd hsome hidle] at hgives
    exact ⟨hgives, rfl⟩
  case slot =>
    have hgives := gives_slotRecordUpdateDone s t
    refine ⟨fun hfree => ?_, fun hbusy => ?_⟩
    · rw [State.slotUpdated_of_free (s := s.atTime t) hcmd hfree] at hgives
      exact ⟨_, hgives, rfl, rfl, State.get_done_imageOver .., State.get_floor_slotRecorded ..⟩
    · rwa [State.slotUpdated_of_keep_busy (s := s.atTime t) hcmd hbusy] at hgives

/-- Settles O23: each command of IMAGE.CTL is lost, refused or begun by one rule for all seven, and each completion ends by one rule for the
end of a command. -/
theorem imageControl : Obligations.ImageControl := ⟨claim_imageCommands, claim_imageCompletes⟩

end Sys2Proof.Machine
end

