-- ==== Sys2Proof/Proofs/HallAccumulators.lean ====
section
/-!
CLRA, RSUM, EXP and NORM of a hall (R326 to R332): how an issued instruction ends, what an accumulator bank takes, and the arithmetic of
44-bit components.
-/

namespace Sys2Proof.Machine

open Sys2Proof

/-! ### Changes of one hall -/

@[simp] theorem State.core_atTime (s : State) (t h : Nat) : (s.atTime t).core h = s.core h := rfl

theorem State.core_of_halls_modify {s u : State} {h : Nat} {f : Hall → Hall} (hh : h < s.halls.length)
    (hu : u.halls = s.halls.modify h f) : u.core h = (f (s.hall h)).core := by
  simp [State.core, State.hall, hu, hh]

/-- Work that an instruction does before it retires is part of the retirement. -/
theorem State.retireHall_modCore (s : State) (h : Nat) (f g : HallCore → HallCore) :
    (s.modCore h f).retireHall h g = s.retireHall h fun c => g (f c) :=
  congrArg (fun l => { s with halls := l }) (List.modify_modify_eq ..)

/-! ### How an issued instruction ends -/

/-- A command that issues a listed opcode ends as the result for the word at the PC says (R321, R322). -/
theorem gives_hallDo {i : Instr} {s : State} {t op w : Nat} {h : Fin 136} {f : State → Nat → HallRes}
    (hexec : exec i s = hallDo t h op s f) (hop : op ∈ hallOpcodes) (hissue : s.issuing t h.val op w) :
    Gives i s ((s.atTime t).hallEnd h.val (f (s.atTime t) w)) := by
  obtain ⟨hready, hword, hcode, -⟩ := hissue
  have hword' : (s.atTime t).hallWord h.val = w := hword
  rw [Gives, hexec, hallDo, State.issue]
  simp [hready, hword', hcode, hop, finish]

/-- An instruction that only changes its hall's work completes with that change. -/
theorem gives_completes {i : Instr} {s : State} {t op w : Nat} {h : Fin 136} {f : State → Nat → HallRes} {g : HallCore → HallCore}
    (hexec : exec i s = hallDo t h op s f) (hop : op ∈ hallOpcodes) (hissue : s.issuing t h.val op w)
    (hres : f (s.atTime t) w = .next ((s.atTime t).modCore h.val g)) : Gives i s (s.completes t h.val g) := by
  have hgives := gives_hallDo hexec hop hissue
  rwa [hres, State.hallEnd, State.retireHall_modCore] at hgives

/-- Only what the change makes of the hall's present work matters. -/
theorem State.completes_congr {s : State} {h : Nat} {f g : HallCore → HallCore} (hfg : f (s.core h) = g (s.core h)) (t : Nat) :
    s.completes t h f = s.completes t h g := by
  refine congrArg (fun l => { s.atTime t with halls := l }) (List.ext_getElem? fun i => ?_)
  rw [State.halls_atTime, List.getElem?_modify, List.getElem?_modify]
  split
  case isTrue hi =>
    subst hi
    cases hx : s.halls[h]? with
    | none => rfl
    | some x =>
      have hcore : s.core h = x.core := by simp [State.core, State.hall, hx]
      rw [hcore] at hfg
      simp [hfg]
  case isFalse => rfl

/-! ### Accumulator banks -/

/-- The work of a hall with bank `b` replaced. -/
def HallCore.withBank (c : HallCore) (b : Nat) (l : List Cplx) : HallCore := { c with acc := c.acc.set b l }

/-- Lanes of which none overflowed are written, and no flag changes. -/
theorem State.setAcc_of_exact (s : State) (h b : Nat) {l : List (Cplx × Bool)} (hl : ∀ x ∈ l, x.2 = false) :
    s.setAcc h b l = s.modCore h fun c => c.withBank b (l.map fun x => x.1) := by
  have hany : (l.any fun x => x.2) = false := by simpa using hl
  rw [State.setAcc, hany]
  rfl

/-- The end of a WAITE leaves the accumulators as they were. -/
theorem State.endWaite_keeps_acc (s : State) (h : Nat) :
    ∃ f : Hall → Hall, (s.endWaite h).halls = s.halls.modify h f ∧ ∀ x, (f x).core.acc = x.core.acc := by
  unfold State.endWaite
  cases (s.hall h).waiting with
  | none => exact ⟨id, (List.modify_id ..).symm, fun _ => rfl⟩
  | some mask =>
    dsimp only
    split
    · exact ⟨_, List.modify_modify_eq .., fun _ => rfl⟩
    · exact ⟨id, (List.modify_id ..).symm, fun _ => rfl⟩

/-- The bank that overflows keeps what was written: acc_ovf is a register, and event 15 leaves the accumulators as they were. -/
theorem State.overflow_keeps_acc (s : State) (h b : Nat) :
    ∃ f : Hall → Hall, (s.overflow h b).halls = s.halls.modify h f ∧ ∀ x, (f x).core.acc = x.core.acc := by
  obtain ⟨f, hhalls, hacc⟩ := State.endWaite_keeps_acc
    ((s.stick h (8 + b)).modCore h fun c => { c with pending := withBit c.pending evAccOvf true }) h
  exact ⟨_, hhalls.trans (List.modify_modify_eq ..), fun _ => hacc _⟩

/-- A bank holds the values written, whether or not a lane overflowed (R326). -/
theorem State.setAcc_sets_acc (s : State) (h b : Nat) (l : List (Cplx × Bool)) :
    ∃ f : Hall → Hall, (s.setAcc h b l).halls = s.halls.modify h f ∧ ∀ x, (f x).core.acc = x.core.acc.set b (l.map fun x => x.1) := by
  unfold State.setAcc
  cases l.any fun x => x.2 with
  | false => exact ⟨_, rfl, fun _ => rfl⟩
  | true =>
    obtain ⟨f, hhalls, hacc⟩ := State.overflow_keeps_acc (s.modCore h fun c => c.withBank b (l.map fun x => x.1)) h b
    exact ⟨_, hhalls.trans (List.modify_modify_eq ..), fun _ => hacc _⟩

/-- Completion in sequence leaves the accumulators as the instruction made them. -/
theorem State.acc_hallEnd_next {s u : State} {h : Nat} {f : Hall → Hall} (hh : h < s.halls.length) (hu : u.halls = s.halls.modify h f)
    (v : State) : ((v.hallEnd h (.next u)).core h).acc = (f (s.hall h)).core.acc := by
  have hend : (v.hallEnd h (.next u)).halls = s.halls.modify h _ := (congrArg _ hu).trans (List.modify_modify_eq ..)
  rw [State.core_of_halls_modify hh hend]
  rfl

/-! ### 44-bit components -/

/-- The value fits an accumulator component (R326). -/
def Fits44 (x : Int) : Prop := -(2 ^ 43) ≤ x ∧ x < 2 ^ 43

/-- Both components of a lane fit. -/
def LaneFits (y : Cplx) : Prop := -(2 ^ 43) ≤ y.re ∧ y.re < 2 ^ 43 ∧ -(2 ^ 43) ≤ y.im ∧ y.im < 2 ^ 43

theorem laneFits_iff (y : Cplx) : LaneFits y ↔ Fits44 y.re ∧ Fits44 y.im := and_assoc.symm

/-- The lane with both components times 2^k. -/
def laneShl (k : Nat) (y : Cplx) : Cplx := ⟨y.re * 2 ^ k, y.im * 2 ^ k⟩

/-- An exact sum that fits is taken as it is, with SAT or without. -/
theorem accum_of_fits (sat : Bool) {x : Int} (hx : Fits44 x) : accum sat x = (x, false) := by
  obtain ⟨hlo, hhi⟩ := hx
  have hsat : satS 44 x = x := by
    norm_num [satS, clampInt]
    omega
  have hwrap : signed 44 (unsigned 44 x) = x := by
    norm_num [signed, unsigned]
    omega
  cases sat <;> simp [accum, narrow, hsat, hwrap]

theorem accumC_of_fits (sat : Bool) {y : Cplx} (hy : LaneFits y) : accumC sat y = (y, false) := by
  obtain ⟨hre, him⟩ := (laneFits_iff y).1 hy
  simp [accumC, accum_of_fits sat hre, accum_of_fits sat him]

/-! ### Redundant sign bits (R329) -/

/-- The number whose leading zeros are the redundant sign bits of a component: the value, or its complement where it is negative. -/
def signMag (x : Int) : Nat := if x < 0 then (-x - 1).toNat else x.toNat

/-- A component fits k + 1 bits exactly where its magnitude takes at most k. -/
theorem signMag_lt_two_pow (x : Int) (k : Nat) : signMag x < 2 ^ k ↔ -(2 ^ k) ≤ x ∧ x < 2 ^ k := by
  have hcast : ((2 ^ k : Nat) : Int) = 2 ^ k := by push_cast; rfl
  unfold signMag
  split <;> omega

theorem signBits_eq (x : Int) : signBits x = 43 - (signMag x).size := by
  have hsize : (signMag x).size = if signMag x = 0 then 0 else (signMag x).log2 + 1 := by
    split
    case isTrue h => rw [h, Nat.size_zero]
    case isFalse h => exact eq_of_forall_ge_iff fun k => Nat.size_le.trans (Nat.log2_lt h).symm
  rw [hsize]
  rfl

/-- A component times 2^n fits exactly while 2^n asks for no more than its redundant sign bits. -/
theorem fits44_mul_two_pow_iff {x : Int} (hx : Fits44 x) {n : Nat} (hn : n ≤ 43) : Fits44 (x * 2 ^ n) ↔ n ≤ signBits x := by
  have hpos : (0 : Int) < 2 ^ n := by positivity
  have hsplit : (2 : Int) ^ 43 = 2 ^ (43 - n) * 2 ^ n := by rw [← pow_add, Nat.sub_add_cancel hn]
  have hsize : (signMag x).size ≤ 43 := Nat.size_le.2 ((signMag_lt_two_pow x 43).2 hx)
  calc Fits44 (x * 2 ^ n)
    _ ↔ -(2 ^ (43 - n)) ≤ x ∧ x < 2 ^ (43 - n) := by
      rw [Fits44, hsplit, ← neg_mul, mul_le_mul_iff_left₀ hpos, mul_lt_mul_iff_left₀ hpos]
    _ ↔ (signMag x).size ≤ 43 - n := by rw [Nat.size_le, signMag_lt_two_pow]
    _ ↔ n ≤ signBits x := by rw [signBits_eq]; omega

theorem le_foldl_min_iff (k a : Nat) (l : List Nat) : k ≤ l.foldl min a ↔ k ≤ a ∧ ∀ x ∈ l, k ≤ x := by
  induction l generalizing a with
  | nil => simp
  | cons x l ih => simp [ih, and_assoc]

/-- The redundant sign bits of lanes: the least of their components'. -/
def laneBits (lanes : List Cplx) : Nat := (lanes.map fun y => min (signBits y.re) (signBits y.im)).foldl min 43

theorem laneBits_le (lanes : List Cplx) : laneBits lanes ≤ 43 := ((le_foldl_min_iff _ _ _).1 le_rfl).1

/-- Lanes times 2^n fit exactly while n is at most their redundant sign bits. -/
theorem le_laneBits_iff {lanes : List Cplx} (hfit : ∀ y ∈ lanes, LaneFits y) {n : Nat} (hn : n ≤ 43) :
    n ≤ laneBits lanes ↔ ∀ y ∈ lanes, LaneFits (laneShl n y) := by
  have hlane : ∀ y ∈ lanes, (n ≤ min (signBits y.re) (signBits y.im) ↔ LaneFits (laneShl n y)) := fun y hy => by
    obtain ⟨hre, him⟩ := (laneFits_iff y).1 (hfit y hy)
    rw [le_min_iff, ← fits44_mul_two_pow_iff hre hn, ← fits44_mul_two_pow_iff him hn, laneFits_iff]
    rfl
  rw [laneBits, le_foldl_min_iff]
  simpa [hn] using forall₂_congr hlane

/-! ### Shifts of NORM (R330) -/

/-- A general register read as a signed number. -/
theorem signed_toNat (v : Word) : signed 32 v.toNat = v.toInt := by
  have hlt := v.isLt
  rw [BitVec.toInt_eq_toNat_cond, signed, Nat.mod_eq_of_lt hlt]
  norm_num
  omega

/-- A lane shifted by `k`, and whether a component overflowed. -/
def normLane (sat : Bool) (k : Int) (y : Cplx) : Cplx × Bool :=
  (⟨(normPart sat k y.re).1, (normPart sat k y.im).1⟩, (normPart sat k y.re).2 || (normPart sat k y.im).2)

theorem normLane_right (sat : Bool) {k : Int} (hk : k < 0) (y : Cplx) :
    normLane sat k y = (⟨y.re / 2 ^ (-k).toNat, y.im / 2 ^ (-k).toNat⟩, false) := by
  have hpart : ∀ x, normPart sat k x = (x / 2 ^ (-k).toNat, false) := fun x => by
    rw [normPart, if_neg (by omega), shrFloor, Int.fdiv_eq_ediv_of_nonneg _ (by positivity)]
    push_cast
    rfl
  simp [normLane, hpart]

theorem normLane_left (sat : Bool) {k : Int} (hk : 0 ≤ k) {y : Cplx} (hy : LaneFits (laneShl k.toNat y)) :
    normLane sat k y = (laneShl k.toNat y, false) := by
  have hpart : ∀ x, Fits44 (x * 2 ^ k.toNat) → normPart sat k x = (x * 2 ^ k.toNat, false) := fun x hx => by
    rw [normPart, if_pos hk]
    push_cast
    exact accum_of_fits sat hx
  obtain ⟨hre, him⟩ := (laneFits_iff _).1 hy
  simp [normLane, hpart _ hre, hpart _ him, laneShl]

/-- The shift count of NORM: its register, limited to 43 either way. -/
def HallCore.normCount (c : HallCore) (w : Nat) : Int := clampInt (-43) 43 (signed 32 (c.g (xG w)).toNat)

theorem HallCore.normCount_eq (c : HallCore) (w : Nat) : c.normCount w = clampInt (-43) 43 (c.g (xG w)).toInt :=
  congrArg _ (signed_toNat _)

/-- What NORM makes of its bank. -/
def HallCore.normLanes (c : HallCore) (w : Nat) : List (Cplx × Bool) :=
  (c.bankAcc (xBank w)).map (normLane (w.testBit 13) (c.normCount w))

/-! ### What the commands answer -/

section Commands

variable {s : State} {t w : Nat} {h : Fin 136}

theorem exec_clra (s : State) (t : Nat) (h : Fin 136) : exec (.clra t h) s = execClra t h s := rfl

theorem exec_rsum (s : State) (t : Nat) (h : Fin 136) : exec (.rsum t h) s = execRsum t h s := rfl

theorem exec_hallExp (s : State) (t : Nat) (h : Fin 136) : exec (.hallExp t h) s = execHallExp t h s := rfl

/-- NORM through its lanes (R330). -/
theorem exec_norm (s : State) (t : Nat) (h : Fin 136) :
    exec (.norm t h) s = hallDo t h 0x3D s fun s w => reserved (badX w)
      (.next ((s.setAcc h.val (xBank w) ((s.core h.val).normLanes w)).when
        (w.testBit 13 && ((s.core h.val).normLanes w).any fun x => x.2) fun s => s.stick h.val 0)) := rfl

theorem lt_length_of_issuing {op : Nat} (hissue : s.issuing t h.val op w) : h.val < (s.atTime t).halls.length := by
  obtain ⟨-, -, -, hlen⟩ := hissue
  rw [State.halls_atTime, hlen]
  exact h.isLt

theorem badBank_of_lt {b : Nat} (hb : b < 4) : badBank b = false := by simpa [badBank] using hb

/-- CLRA writes the bias into every lane, or into lane bl alone (R328). -/
theorem gives_clra (hissue : s.issuing t h.val 0x39 w) (hbank : vD w < 4) (hsh : vSh w ≤ 43) {x : Int}
    (hx : x = if vSh w = 0 then 0 else 2 ^ (vSh w - 1)) :
    Gives (.clra t h) s (s.completes t h.val fun c => c.withBank (vD w)
      ((List.range 16).map fun l => if vBb w = true ∧ l ≠ vBl w then Cplx.zero else ⟨x, x⟩)) := by
  refine gives_completes (exec_clra s t h) (by decide) hissue ?_
  simp [reserved, badBank_of_lt hbank, Nat.not_lt.2 hsh, hx, HallCore.withBank]

/-- RSUM of a sum that fits is exact and raises no flag (R326, R332). -/
theorem gives_rsum_exact (hissue : s.issuing t h.val 0x3B w) (hbank : vD w < 4) (hy : LaneFits (sumC ((s.core h.val).bankAcc (vD w)))) :
    Gives (.rsum t h) s (s.completes t h.val fun c => c.withBank (vD w)
      (sumC ((s.core h.val).bankAcc (vD w)) :: List.replicate 15 Cplx.zero)) := by
  refine gives_completes (exec_rsum s t h) (by decide) hissue ?_
  rw [reserved, badBank_of_lt hbank, State.core_atTime, accumC_of_fits _ hy, State.setAcc_of_exact _ _ _ (by simp)]
  simp

/-- RSUM puts the sum narrowed under R326 into lane 0, whether or not it overflows. -/
theorem gives_rsum (hissue : s.issuing t h.val 0x3B w) (hbank : vD w < 4) :
    ∃ u, Gives (.rsum t h) s u ∧ (u.core h.val).acc = (s.core h.val).acc.set (vD w)
      ((accumC (vSat w) (sumC ((s.core h.val).bankAcc (vD w)))).1 :: List.replicate 15 Cplx.zero) := by
  have hgives := gives_hallDo (exec_rsum s t h) (by decide) hissue
  rw [reserved, badBank_of_lt hbank] at hgives
  obtain ⟨f, hhalls, hacc⟩ := (s.atTime t).setAcc_sets_acc h.val (vD w)
    (accumC (vSat w) (sumC ((s.core h.val).bankAcc (vD w))) :: List.replicate 15 (Cplx.zero, false))
  refine ⟨_, hgives, (State.acc_hallEnd_next (lt_length_of_issuing hissue) hhalls _).trans ((hacc _).trans ?_)⟩
  rw [List.map_cons, List.map_replicate]
  rfl

/-- EXP writes the redundant sign bits of the lanes examined (R329, R331). -/
theorem gives_hallExp (hissue : s.issuing t h.val 0x3C w) (hbad : badX w = false) {lanes : List Cplx}
    (hlanes : lanes = if w.testBit 14 then (s.core h.val).bankAcc (xBank w) else
      [((s.core h.val).bankAcc (xBank w)).getD (field w 15 4) Cplx.zero]) :
    Gives (.hallExp t h) s (s.completes t h.val fun c => c.setG (xG w) (BitVec.ofNat 32 (laneBits lanes))) := by
  refine gives_completes (exec_hallExp s t h) (by decide) hissue ?_
  rw [hbad, hlanes]
  rfl

/-- NORM of lanes that stay exact replaces the bank and raises no flag (R327, R330). -/
theorem gives_norm_exact (hissue : s.issuing t h.val 0x3D w) (hbad : badX w = false) {k : Int}
    (hk : k = clampInt (-43) 43 ((s.core h.val).g (xG w)).toInt) {f : Cplx → Cplx}
    (hexact : ∀ y ∈ (s.core h.val).bankAcc (xBank w), normLane (w.testBit 13) k y = (f y, false)) :
    Gives (.norm t h) s (s.completes t h.val fun c => c.withBank (xBank w) ((c.bankAcc (xBank w)).map f)) := by
  have hbank : s.completes t h.val (fun c => c.withBank (xBank w) ((c.bankAcc (xBank w)).map f)) =
      s.completes t h.val fun c => c.withBank (xBank w) (((s.core h.val).bankAcc (xBank w)).map f) :=
    State.completes_congr (by rfl) t
  rw [hbank]
  refine gives_completes (exec_norm s t h) (by decide) hissue ?_
  have hlanes : (s.core h.val).normLanes w = ((s.core h.val).bankAcc (xBank w)).map fun y => (f y, false) := by
    rw [HallCore.normLanes, HallCore.normCount_eq, ← hk]
    exact List.map_congr_left hexact
  rw [hbad, State.core_atTime, hlanes, State.setAcc_of_exact _ _ _ (by simp)]
  simp [reserved, State.when, Function.comp_def]

end Commands

/-- Settles O13: each of the four commands completes with one change of its bank or register; the redundant sign bits are the largest
shift under which every component still fits. -/
theorem hallAccumulators : Obligations.HallAccumulators := by
  rintro s t w h c rfl
  refine ⟨fun hissue hbank hsh x hx => gives_clra hissue hbank hsh hx, ?rsumExact, fun hissue hbank => gives_rsum hissue hbank,
    fun hissue hbad lanes hlanes hfit => ?exp, fun hissue hbad k hk => ⟨fun hneg => ?right, fun hpos hfit => ?left⟩⟩
  case rsumExact =>
    rintro hissue hbank y rfl hrelo hrehi himlo himhi
    exact gives_rsum_exact hissue hbank ⟨hrelo, hrehi, himlo, himhi⟩
  case exp =>
    refine ⟨laneBits lanes, gives_hallExp hissue hbad hlanes, laneBits_le lanes, (le_laneBits_iff hfit (laneBits_le lanes)).1 le_rfl,
      fun hlt => ?_⟩
    have hover : ¬ ∀ y ∈ lanes, LaneFits (laneShl (laneBits lanes + 1) y) := fun hall =>
      absurd ((le_laneBits_iff hfit hlt).2 hall) (Nat.not_succ_le_self _)
    push Not at hover
    obtain ⟨y, hy, hnot⟩ := hover
    refine ⟨y, hy, ?_⟩
    simp only [LaneFits, laneShl] at hnot
    omega
  case right => exact gives_norm_exact hissue hbad hk fun y _ => normLane_right _ hneg y
  case left => exact gives_norm_exact hissue hbad hk fun y hy => normLane_left _ hpos (hfit y hy)

end Sys2Proof.Machine
end

