-- ==== Sys2Proof/Proofs/TxnSlots.lean ====
section
/-!
Slots, channels and the operations on them that the commands of transactions share (R502 to R520): what a slot or a channel reads as after
each, and what each leaves as it was.
-/

namespace Sys2Proof.Machine

open Sys2Proof

/-! ### Host commands through a register -/

/-- A command whose channel reaches its register answers with what its write does at its time (R650, R660). -/
theorem gives_hostCmd {i : Instr} {s : State} {t a : Nat} {ch : Channel} {f : State → State} (hr : s.reaches t ch a)
    (hexec : exec i s = finish (s.hostCmd t ch.val a f)) : Gives i s (f (s.atTime t)) := by
  rw [Gives, hexec, State.hostCmd_of_reaches hr, finish]

/-! ### Slots -/

theorem State.slot_modSlot_same {s : State} {n : Nat} (h : n < s.txn.slots.length) (f : TxnSlot → TxnSlot) :
    (s.modSlot n f).slot n = f (s.slot n) := by
  simp [State.slot, State.modSlot, h]

theorem State.slot_modSlot_other (s : State) {n i : Nat} (h : i ≠ n) (f : TxnSlot → TxnSlot) : (s.modSlot n f).slot i = s.slot i := by
  simp [State.slot, State.modSlot, Ne.symm h]

@[simp] theorem State.length_slots_modSlot (s : State) (n : Nat) (f : TxnSlot → TxnSlot) :
    (s.modSlot n f).txn.slots.length = s.txn.slots.length := List.length_modify ..

@[simp] theorem State.length_slots_atTime (s : State) (t : Nat) : (s.atTime t).txn.slots.length = s.txn.slots.length := List.length_map ..

@[simp] theorem State.slot_modChan (s : State) (ch : Nat) (f : HostChan → HostChan) (n : Nat) : (s.modChan ch f).slot n = s.slot n := rfl
@[simp] theorem State.slot_put (s : State) (f : Fld) (v n : Nat) : (s.put f v).slot n = s.slot n := rfl
@[simp] theorem State.slot_disarm (s : State) (x : Timer) (n : Nat) : (s.disarm x).slot n = s.slot n := rfl
@[simp] theorem State.slot_arm (s : State) (x : Timer) (t n : Nat) : (s.arm x t).slot n = s.slot n := rfl

/-! ### Channels (R519) -/

theorem State.chan_modChan_same {s : State} {ch : Nat} (h : ch < s.chans.length) (f : HostChan → HostChan) :
    (s.modChan ch f).chan ch = f (s.chan ch) := by
  simp [State.chan, State.modChan, h]

@[simp] theorem State.length_chans_modChan (s : State) (ch : Nat) (f : HostChan → HostChan) : (s.modChan ch f).chans.length = s.chans.length :=
  List.length_modify ..

@[simp] theorem State.slot_txnBusy (s : State) (ch n : Nat) : (s.txnBusy ch).slot n = s.slot n := rfl
@[simp] theorem State.chan_arm (s : State) (x : Timer) (t ch : Nat) : (s.arm x t).chan ch = s.chan ch := rfl
@[simp] theorem State.slot_txnDone (s : State) (ch result n : Nat) : (s.txnDone ch result).slot n = s.slot n := rfl
@[simp] theorem State.txn_txnDone (s : State) (ch result : Nat) : (s.txnDone ch result).txn = s.txn := rfl
@[simp] theorem State.regs_txnDone (s : State) (ch result : Nat) : (s.txnDone ch result).regs = s.regs := rfl
@[simp] theorem State.mem_txnDone (s : State) (ch result : Nat) : (s.txnDone ch result).mem = s.mem := rfl

theorem State.chan_txnDone_same {s : State} {ch : Nat} (h : ch < s.chans.length) (result : Nat) :
    (s.txnDone ch result).chan ch = { s.chan ch with result := result, busy := false, done := true } :=
  State.chan_modChan_same h _

/-- A channel bound to the slot that its OPEN has taken. -/
theorem State.chan_bindTo_txnDone {s : State} {ch : Nat} (h : ch < s.chans.length) (n result : Nat) :
    ((s.bindTo ch n).txnDone ch result).chan ch =
      { s.chan ch with bound := true, bindSlot := n, slot := n, result := result, busy := false, done := true } := by
  rw [State.chan_txnDone_same (by simpa [State.bindTo] using h), State.bindTo, State.chan_modChan_same h]

/-- Completions on channels change their copies alone. -/
theorem State.forEach_txnDone_eq (s : State) (l : List Nat) (result : Nat) :
    ∃ c, c.length = s.chans.length ∧ (s.forEach l fun ch s => s.txnDone ch result) = { s with chans := c } := by
  induction l generalizing s with
  | nil => exact ⟨s.chans, rfl, rfl⟩
  | cons ch l ih =>
    obtain ⟨c, hlength, heq⟩ := ih (s.txnDone ch result)
    exact ⟨c, hlength.trans (List.length_modify ..), heq⟩

/-- Waking the channels that wait for a slot empties their list and changes no state but the channels' (R519). -/
theorem State.wakeWaiters_eq (s : State) (n : Nat) :
    ∃ c, c.length = s.chans.length ∧ s.wakeWaiters n = ({ s with chans := c } : State).modSlot n fun x => { x with waiters := [] } := by
  obtain ⟨c, hlength, heq⟩ := (s.modSlot n fun x => { x with waiters := [] }).forEach_txnDone_eq (s.slot n).waiters resultOk
  exact ⟨c, hlength, heq⟩

@[simp] theorem State.regs_wakeWaiters (s : State) (n : Nat) : (s.wakeWaiters n).regs = s.regs := by
  obtain ⟨c, -, heq⟩ := s.wakeWaiters_eq n
  rw [heq]; rfl

@[simp] theorem State.mem_wakeWaiters (s : State) (n : Nat) : (s.wakeWaiters n).mem = s.mem := by
  obtain ⟨c, -, heq⟩ := s.wakeWaiters_eq n
  rw [heq]; rfl

@[simp] theorem State.length_chans_wakeWaiters (s : State) (n : Nat) : (s.wakeWaiters n).chans.length = s.chans.length := by
  obtain ⟨c, hlength, heq⟩ := s.wakeWaiters_eq n
  rw [heq]; exact hlength

theorem State.get_wakeWaiters (s : State) (n : Nat) (f : Fld) : (s.wakeWaiters n).get f = s.get f := by
  rw [State.get, State.word, State.regs_wakeWaiters, State.get, State.word]

theorem State.slot_wakeWaiters_same {s : State} {n : Nat} (h : n < s.txn.slots.length) :
    (s.wakeWaiters n).slot n = { s.slot n with waiters := [] } := by
  obtain ⟨c, -, heq⟩ := s.wakeWaiters_eq n
  rw [heq]; exact State.slot_modSlot_same h _

/-! ### ABORTED and PREPARED (R512, R515) -/

@[simp] theorem State.chans_abortSlot (s : State) (n cause : Nat) : (s.abortSlot n cause).chans = s.chans := rfl
@[simp] theorem State.regs_abortSlot (s : State) (n cause : Nat) : (s.abortSlot n cause).regs = s.regs := rfl
@[simp] theorem State.mem_abortSlot (s : State) (n cause : Nat) : (s.abortSlot n cause).mem = s.mem := rfl

@[simp] theorem State.get_abortSlot (s : State) (n cause : Nat) (f : Fld) : (s.abortSlot n cause).get f = s.get f := rfl

@[simp] theorem State.length_slots_abortSlot (s : State) (n cause : Nat) :
    (s.abortSlot n cause).txn.slots.length = s.txn.slots.length := List.length_modify ..

theorem State.slot_abortSlot_same {s : State} {n : Nat} (h : n < s.txn.slots.length) (cause : Nat) :
    (s.abortSlot n cause).slot n =
      { s.slot n with state := txAborted, cause := cause, staged := [], live := none, preparing := false, inDoubt := false } :=
  State.slot_modSlot_same h _

@[simp] theorem State.slot_showLiveCode (s : State) (v : Verdict) (n : Nat) : (s.showLiveCode v).slot n = s.slot n := by
  unfold State.showLiveCode
  cases v.code != 0 <;> rfl

/-- The standby copies of a live apply are in the halls alone (R100). -/
theorem State.standby_eq (s : State) (p : Partial) : ∃ h, s.standby p = { s with halls := h } := by
  unfold State.standby
  generalize p.sections.filter (fun x => x.type == secHall) = l
  induction l generalizing s with
  | nil => exact ⟨s.halls, rfl⟩
  | cons x l ih =>
    obtain ⟨h, heq⟩ := ih (s.modHall x.inst fun y => y.place y.otherBank x.bytes)
    exact ⟨h, heq⟩

/-- A slot that has become PREPARED. -/
def TxnSlot.prepared (x : TxnSlot) : TxnSlot := { x with state := txPrepared, preparing := false }

/-- Only the halls may differ beside the slot and the new commit. -/
theorem State.prepareSlot_eq (s : State) (n : Nat) (decided : Bool) :
    ∃ h, s.prepareSlot n decided =
      (({ s with halls := h } : State).modSlot n TxnSlot.prepared).addSlotCommit n ((s.modSlot n TxnSlot.prepared).slot n).time decided := by
  unfold State.prepareSlot
  dsimp only
  split
  case h_1 p _ =>
    obtain ⟨h, heq⟩ := State.standby_eq (s.modSlot n TxnSlot.prepared) p
    exact ⟨h, congrArg (fun v => State.addSlotCommit v n (v.slot n).time decided) heq⟩
  case h_2 => exact ⟨s.halls, rfl⟩

@[simp] theorem State.chans_prepareSlot (s : State) (n : Nat) (decided : Bool) : (s.prepareSlot n decided).chans = s.chans := by
  obtain ⟨h, heq⟩ := s.prepareSlot_eq n decided
  rw [heq]; rfl

@[simp] theorem State.regs_prepareSlot (s : State) (n : Nat) (decided : Bool) : (s.prepareSlot n decided).regs = s.regs := by
  obtain ⟨h, heq⟩ := s.prepareSlot_eq n decided
  rw [heq]; rfl

@[simp] theorem State.mem_prepareSlot (s : State) (n : Nat) (decided : Bool) : (s.prepareSlot n decided).mem = s.mem := by
  obtain ⟨h, heq⟩ := s.prepareSlot_eq n decided
  rw [heq]; rfl

@[simp] theorem State.length_slots_prepareSlot (s : State) (n : Nat) (decided : Bool) :
    (s.prepareSlot n decided).txn.slots.length = s.txn.slots.length := by
  obtain ⟨h, heq⟩ := s.prepareSlot_eq n decided
  rw [heq]; exact List.length_modify ..

theorem State.slot_prepareSlot_same {s : State} {n : Nat} (h : n < s.txn.slots.length) (decided : Bool) :
    (s.prepareSlot n decided).slot n = (s.slot n).prepared := by
  obtain ⟨halls, heq⟩ := s.prepareSlot_eq n decided
  rw [heq]; exact State.slot_modSlot_same h _

/-- The commit of a prepared transaction carries its time, its ID, its slot and its effects (R512). -/
theorem State.commits_prepareSlot {s : State} {n : Nat} (h : n < s.txn.slots.length) (hnone : s.txn.commits = []) (decided : Bool) :
    (s.prepareSlot n decided).txn.commits =
      [{ time := (s.slot n).time, id := (s.slot n).id, slot := some n, decided := decided, latched := false, effects := (s.slot n).effects,
         touch := touched (s.slot n).effects }] := by
  obtain ⟨halls, heq⟩ := s.prepareSlot_eq n decided
  have hslot : (({ s with halls := halls } : State).modSlot n TxnSlot.prepared).slot n = (s.slot n).prepared := State.slot_modSlot_same h _
  have hcommits : (({ s with halls := halls } : State).modSlot n TxnSlot.prepared).txn.commits = [] := hnone
  rw [heq, State.slot_modSlot_same h, State.addSlotCommit, State.addCommit, hslot, hcommits]
  rfl

/-! ### Armed instants -/

theorem State.dueAt_arm (s : State) (x : Timer) (t : Nat) : (s.arm x t).dueAt x = some t := by
  have hnone : (s.disarm x).timers.find? (fun e => decide (e.1 = x)) = none := by simp [State.disarm]
  simp [State.dueAt, State.arm, List.find?_append, hnone]

/-! ### The latch (R512) -/

/-- With no commit on its way nothing is latched. -/
theorem State.latchDue_of_no_commits {s : State} (h : s.txn.commits = []) : s.latchDue = s := by
  have hnil : (s.txn.commits.filter fun x => !x.latched && x.decided && x.time ≤ s.arrayNow + ticksOfUs 1) = [] := by rw [h]; rfl
  unfold State.latchDue
  dsimp only
  rw [hnil]
  simp [State.forEach]

/-! ### What records on the stair leave as it was (R442) -/

/-- Transactions, channels and the image are as before. -/
structure KeepsTxn (s u : State) : Prop where
  txn : u.txn = s.txn
  chans : u.chans = s.chans
  image : u.image = s.image

theorem KeepsTxn.refl (s : State) : KeepsTxn s s := ⟨rfl, rfl, rfl⟩

theorem KeepsTxn.trans {s u v : State} (hsu : KeepsTxn s u) (huv : KeepsTxn u v) : KeepsTxn s v :=
  ⟨huv.txn.trans hsu.txn, huv.chans.trans hsu.chans, huv.image.trans hsu.image⟩

theorem keepsTxn_emit (s : State) (o : Output) : KeepsTxn s (s.emit o) := ⟨rfl, rfl, rfl⟩

theorem keepsTxn_modSPort (s : State) (n : Nat) (f : StairPort → StairPort) : KeepsTxn s (s.modSPort n f) := ⟨rfl, rfl, rfl⟩

theorem keepsTxn_modSLane (s : State) (i : Nat) (f : StairLane → StairLane) : KeepsTxn s (s.modSLane i f) := ⟨rfl, rfl, rfl⟩

theorem keepsTxn_forEach {α : Type} {f : α → State → State} (hf : ∀ a s, KeepsTxn s (f a s)) (s : State) (l : List α) :
    KeepsTxn s (s.forEach l f) := by
  induction l generalizing s with
  | nil => exact .refl s
  | cons a l ih => exact (hf a s).trans (ih _)

theorem keepsTxn_padLanes (s : State) (n : Nat) : KeepsTxn s (s.padLanes n) := by
  have hlanes : ∀ l : List (Nat × Nat × Nat), KeepsTxn s (s.forEach l fun e s => s.modSLane e.1 fun x => { x with sent := e.2.1 + e.2.2 }) :=
    keepsTxn_forEach (fun _ s => keepsTxn_modSLane s _ _) s
  unfold State.padLanes
  dsimp only
  split
  · exact .refl s
  · split
    · exact hlanes _
    · exact (hlanes _).trans ((keepsTxn_modSPort _ _ _).trans (keepsTxn_emit _ _))

theorem keepsTxn_onLane (s : State) (i : Nat) (w : Codeword) : KeepsTxn s (s.onLane i w) := by
  unfold State.onLane
  dsimp only
  split <;> exact ⟨rfl, rfl, rfl⟩

theorem keepsTxn_dealCodeword (s : State) (n : Nat) (msg : Option StairMsg) (load : StairMsg × Nat × Nat) :
    KeepsTxn s (s.dealCodeword n msg load) := by
  unfold State.dealCodeword
  dsimp only
  split
  · exact (keepsTxn_modSPort _ _ _).trans (keepsTxn_onLane _ _ _)
  · exact keepsTxn_modSPort _ _ _

theorem keepsTxn_sendUnit (s : State) (n : Nat) (m : StairMsg) (u : Nat) : KeepsTxn s (s.sendUnit n m u) := by
  have hcodewords := (keepsTxn_padLanes s n).trans (keepsTxn_forEach (fun j s => keepsTxn_dealCodeword s n
    (if decide (u + 1 = msgUnits m) && decide (j + 1 = unitCodewords m u) then some m else none) (m, u, j)) _
    (List.range (unitCodewords m u)))
  unfold State.sendUnit
  dsimp only
  split
  · exact hcodewords.trans (keepsTxn_emit _ _)
  · exact hcodewords

theorem keepsTxn_drainUnits (s : State) (n k : Nat) : KeepsTxn s (s.drainUnits n k) := by
  induction k generalizing s with
  | zero => exact .refl s
  | succ k ih =>
    unfold State.drainUnits
    split
    · exact .refl s
    · split
      · exact .refl s
      · exact (keepsTxn_modSPort _ _ _).trans ((keepsTxn_sendUnit _ _ _ _).trans (ih _))

theorem keepsTxn_sendOn (s : State) (n : Nat) (m : StairMsg) : KeepsTxn s (s.sendOn n m) := by
  unfold State.sendOn
  split
  · exact (keepsTxn_modSPort _ _ _).trans (keepsTxn_drainUnits _ _ _)
  · exact .refl s

theorem keepsTxn_sendDown (s : State) (m : StairMsg) : KeepsTxn s (s.sendDown m) := keepsTxn_forEach (fun n s => keepsTxn_sendOn s n m) _ _

theorem slot_of_keepsTxn {s u : State} (h : KeepsTxn s u) (n : Nat) : u.slot n = s.slot n := by rw [State.slot, h.txn, State.slot]

theorem chan_of_keepsTxn {s u : State} (h : KeepsTxn s u) (ch : Nat) : u.chan ch = s.chan ch := by rw [State.chan, h.chans, State.chan]

/-- The landing's number is of the image. -/
theorem landing_of_keepsTxn {s u : State} (h : KeepsTxn s u) : u.landing = s.landing := by
  unfold State.landing State.sectionBytes State.section?
  rw [h.image]

end Sys2Proof.Machine
end

