-- ==== Sys2Proof/Proofs/TxnOpening.lean ====
section
/-!
OPEN, OPEN_ARRAY and BIND (R502, R503, R520): which slot a channel gets, and what its slot and its channel read as afterwards.
-/

namespace Sys2Proof.Machine

open Sys2Proof

/-! ### OPEN (R502, R573) -/

theorem State.freeSlot_zero (s : State) (k : Nat) : s.freeSlot 0 k = (List.range k).find? fun i => (s.slot i).state == txFree := by
  simp [State.freeSlot]

theorem State.txnOpen_of_away {s : State} (haway : s.away = true) (ch : Nat) : s.txnOpen ch = s.txnDone ch resultState := if_pos haway

theorem State.txnOpen_of_full {s : State} (haway : s.away = false) (hfull : ∀ i < 16, (s.slot i).state ≠ txFree) (ch : Nat) :
    s.txnOpen ch = s.txnDone ch resultNoSlot := by
  have hnone : s.freeSlot 0 16 = none := by simpa [State.freeSlot_zero] using hfull
  simp [State.txnOpen, haway, hnone]

/-- The lowest free slot is taken for the channel, with the next ID of the landing. -/
theorem State.txnOpen_of_free {s : State} {n : Nat} (haway : s.away = false) (hn : n < 16) (hfree : (s.slot n).state = txFree)
    (hlow : ∀ i < n, (s.slot i).state ≠ txFree) (ch : Nat) :
    s.txnOpen ch = ((s.newTxnId.2.setSlot n { TxnSlot.free with state := txOpen, owner := ch, id := s.txn.nextId % 2 ^ 31 }).bindTo ch n).txnDone
      ch resultOk := by
  have hsome : s.freeSlot 0 16 = some n := by
    rw [State.freeSlot_zero, List.find?_range_eq_some]
    simpa [hn, hfree] using hlow
  simp [State.txnOpen, haway, hsome, State.newTxnId]

/-! ### OPEN_ARRAY (R520, R573) -/

/-- The state in which an OPEN_ARRAY goes on its way: its channel waits under a new tag. -/
def State.openArrayAsked (s : State) (ch : Nat) : State :=
  ({ s with txn := { s.txn with nextTag := s.txn.nextTag + 1, openWait := s.txn.openWait ++ [(s.txn.nextTag % 2 ^ 16, ch)] } } : State).txnBusy ch

theorem State.txnOpenArray_of_away {s : State} (haway : s.away = true) (ch : Nat) : s.txnOpenArray ch = s.txnDone ch resultState := if_pos haway

theorem State.txnOpenArray_of_not_formed {s : State} (haway : s.away = false) (htree : s.treeState ≠ treeFormed) (ch : Nat) :
    s.txnOpenArray ch = s.txnDone ch resultTree := by
  simp [State.txnOpenArray, haway, htree]

theorem State.txnOpenArray_of_formed {s : State} (haway : s.away = false) (htree : s.treeState = treeFormed) (ch : Nat) :
    s.txnOpenArray ch = if s.isTop then (s.openArrayAsked ch).topOpen s.landing (s.txn.nextTag % 2 ^ 16)
      else (s.openArrayAsked ch).sendUp (.txn (.openReq s.landing (s.txn.nextTag % 2 ^ 16))) := by
  rw [State.txnOpenArray, haway, htree]
  rfl

/-- With no transaction at the top, the request takes slot 16. -/
theorem State.topOpen_of_none {s : State} (htop : s.txn.top = []) (landing tag : Nat) :
    ∃ l, s.topOpen landing tag =
      ({ s.newArrayId.2 with txn := { s.newArrayId.2.txn with top := l } } : State).announced s.newArrayId.1 16 landing tag 0 := by
  unfold State.topOpen
  rw [htop]
  exact ⟨_, rfl⟩

/-- The slot of an announced transaction (R520). -/
def announcedSlot (id origin tag : Nat) (part : Option (List Effect)) : TxnSlot :=
  { TxnSlot.free with state := txOpen, array := true, id := id, origin := origin, tag := tag, part := part }

theorem State.holdAnnounced_of_free {s : State} {n : Nat} (hfree : (s.slot n).state = txFree) (id origin tag : Nat) :
    s.holdAnnounced id n origin tag = s.setSlot n (announcedSlot id origin tag (s.slot n).part) := by
  rw [State.holdAnnounced, hfree]
  rfl

theorem State.openAnswered_of_asked {s : State} {tag ch : Nat} (hwait : s.txn.openWait = [(tag, ch)]) (n : Nat) :
    s.openAnswered tag n 0 =
      ((({ s with txn := { s.txn with openWait := [] } } : State).modSlot n fun x => { x with owner := ch }).bindTo ch n).txnDone ch resultOk := by
  simp [State.openAnswered, hwait, assoc?, assocErase]

@[simp] theorem State.landing_setSlot (s : State) (n : Nat) (x : TxnSlot) : (s.setSlot n x).landing = s.landing := rfl

/-- The announcement of a slot that is FREE here goes down, is held, and answers the channel of this landing that asked for it. -/
theorem State.announced_here {s : State} {n : Nat} (hn : n < 20) (hfree : (s.slot n).state = txFree) (id tag : Nat) :
    ∃ v, KeepsTxn s v ∧ s.announced id n s.landing tag 0 =
      (v.setSlot n (announcedSlot id s.landing tag (s.slot n).part)).openAnswered tag n 0 := by
  have hkeeps := keepsTxn_sendDown s (.txn (.announce id n s.landing tag 0))
  refine ⟨_, hkeeps, ?_⟩
  have hslot := slot_of_keepsTxn hkeeps n
  rw [State.announced, if_pos rfl, State.holdAnnounced_of_free (by rw [hslot, hfree]), hslot]
  exact if_pos (by simp [hn, landing_of_keepsTxn hkeeps])

/-- The channel that asked holds the announced slot, bound. -/
theorem State.announced_to_asker {s : State} {n tag ch : Nat} (id : Nat) (hn : n < 20) (hfree : (s.slot n).state = txFree)
    (hwait : s.txn.openWait = [(tag, ch)]) (hlength : n < s.txn.slots.length) (hch : ch < s.chans.length) :
    (s.announced id n s.landing tag 0).slot n = { announcedSlot id s.landing tag (s.slot n).part with owner := ch } ∧
      (s.announced id n s.landing tag 0).txn.openWait = [] ∧
      (s.announced id n s.landing tag 0).chan ch =
        { s.chan ch with bound := true, bindSlot := n, slot := n, result := resultOk, busy := false, done := true } := by
  obtain ⟨v, hkeeps, heq⟩ := s.announced_here hn hfree id tag
  rw [← hkeeps.txn] at hwait hlength
  rw [← hkeeps.chans] at hch
  rw [heq, State.openAnswered_of_asked (s := v.setSlot n (announcedSlot id s.landing tag (s.slot n).part)) hwait]
  refine ⟨?slot, rfl, ?chan⟩
  case slot =>
    have hset : (v.setSlot n (announcedSlot id s.landing tag (s.slot n).part)).slot n = announcedSlot id s.landing tag (s.slot n).part :=
      State.slot_modSlot_same hlength _
    refine (State.slot_modSlot_same ?_ _).trans ?_
    · simpa [State.setSlot] using hlength
    · exact congrArg (fun x : TxnSlot => { x with owner := ch }) hset
  case chan =>
    rw [← chan_of_keepsTxn hkeeps ch]
    exact State.chan_bindTo_txnDone hch n resultOk

/-- At the top, with no other transaction there, the channel that asks holds slot 16, bound. -/
theorem State.txnOpenArray_at_top {s : State} {ch : Nat} (haway : s.away = false) (htree : s.treeState = treeFormed) (htop : s.isTop = true)
    (hnone : s.txn.top = []) (hidle : s.txn.openWait = []) (hfree : (s.slot 16).state = txFree) (hlength : 16 < s.txn.slots.length)
    (hch : ch < s.chans.length) :
    (s.txnOpenArray ch).slot 16 =
        { announcedSlot s.newArrayId.1 s.landing (s.txn.nextTag % 2 ^ 16) (s.slot 16).part with owner := ch } ∧
      (s.txnOpenArray ch).txn.openWait = [] ∧
      (s.txnOpenArray ch).chan ch = { (s.openArrayAsked ch).chan ch with
        bound := true, bindSlot := 16, slot := 16, result := resultOk, busy := false, done := true } := by
  obtain ⟨l, hopen⟩ := State.topOpen_of_none (s := s.openArrayAsked ch) hnone s.landing (s.txn.nextTag % 2 ^ 16)
  have hwait : (s.openArrayAsked ch).txn.openWait = [(s.txn.nextTag % 2 ^ 16, ch)] := congrArg (· ++ [(s.txn.nextTag % 2 ^ 16, ch)]) hidle
  have hasked : ch < (s.openArrayAsked ch).chans.length := hch.trans_eq (List.length_modify ..).symm
  rw [State.txnOpenArray_of_formed haway htree, if_pos htop, hopen]
  exact State.announced_to_asker _ (by decide) hfree hwait hlength hasked

/-! ### TXN.BIND (R503) -/

theorem State.txnBind_of_unbind {v : Word} (h : getBits v 5 1 = 0) (s : State) (ch : Nat) :
    s.txnBind ch v = s.modChan ch fun c => { c with bound := false, bindSlot := getBits v 0 5 } := if_pos h

theorem State.txnBind_of_allowed {s : State} {v : Word} {ch : Nat} (h : getBits v 5 1 = 1) (hn : getBits v 0 5 < 20)
    (hheld : (s.slot (getBits v 0 5)).state ≠ txFree) (hown : (s.slot (getBits v 0 5)).array = true ∨ (s.slot (getBits v 0 5)).owner = ch) :
    s.txnBind ch v = s.modChan ch fun c => { c with bound := true, bindSlot := getBits v 0 5 } := by
  simp [State.txnBind, h, hn, hheld, hown]

theorem State.txnBind_of_refused {s : State} {v : Word} {ch : Nat} (h : getBits v 5 1 = 1)
    (hno : 20 ≤ getBits v 0 5 ∨ (s.slot (getBits v 0 5)).state = txFree ∨
      ((s.slot (getBits v 0 5)).array = false ∧ (s.slot (getBits v 0 5)).owner ≠ ch)) :
    s.txnBind ch v = s.modChan ch fun c => { c with bound := false, bindSlot := getBits v 0 5, result := resultNotOwner } := by
  have hnot : ¬ (getBits v 0 5 < 20 ∧ (s.slot (getBits v 0 5)).state ≠ txFree ∧
      ((s.slot (getBits v 0 5)).array = true ∨ (s.slot (getBits v 0 5)).owner = ch)) := by
    rintro ⟨hn, hheld, hown⟩
    rcases hno with h20 | hfree | ⟨hlocal, hother⟩
    · omega
    · exact hheld hfree
    · rcases hown with harray | howner
      · exact absurd (hlocal.symm.trans harray) (by decide)
      · exact hother howner
  rw [State.txnBind, h, if_neg (by decide)]
  exact if_neg (by simpa using hnot)

/-! ### What the commands that open and bind answer -/

section Commands

variable {s : State} {t : Nat} {ch : Channel}

theorem gives_openLocal (hr : s.reaches t ch Reg.TXN.CMD.word.addr) : Gives (.openLocal t ch) s ((s.atTime t).txnOpen ch.val) :=
  gives_hostCmd (f := fun s => s.txnOpen ch.val) hr rfl

theorem gives_openArray (hr : s.reaches t ch Reg.TXN.CMD.word.addr) : Gives (.openArray t ch) s ((s.atTime t).txnOpenArray ch.val) :=
  gives_hostCmd (f := fun s => s.txnOpenArray ch.val) hr rfl

theorem gives_txnBind (hr : s.reaches t ch Reg.TXN.BIND.word.addr) (v : Word) : Gives (.txnBind t ch v) s ((s.atTime t).txnBind ch.val v) :=
  gives_hostCmd (f := fun s => s.txnBind ch.val v) hr rfl

end Commands

theorem claim_txnOpening : Claim.TxnOpening := by
  rintro s t ch n v r rfl hslots hchans
  have hch : ch.val < s.chans.length := by rw [hchans]; exact ch.isLt
  refine ⟨fun hr => ⟨fun haway => ?away, fun haway => ⟨fun hfull => ?full, fun hn hfree hlow => ?opens, fun htree => ?notFormed,
    fun htree htop => ?below, fun htree htop hnone hidle hfree => ?top⟩⟩, ?bind⟩
  case away =>
    have hlocal := gives_openLocal hr
    have harray := gives_openArray hr
    rw [State.txnOpen_of_away (s := s.atTime t) haway] at hlocal
    rw [State.txnOpenArray_of_away (s := s.atTime t) haway] at harray
    exact ⟨hlocal, harray⟩
  case full =>
    have hgives := gives_openLocal hr
    rwa [State.txnOpen_of_full (s := s.atTime t) haway hfull] at hgives
  case opens =>
    have hgives := gives_openLocal hr
    rw [State.txnOpen_of_free (s := s.atTime t) haway hn hfree hlow] at hgives
    have hlength : n < (s.atTime t).newTxnId.2.txn.slots.length := by
      rw [State.newTxnId, State.length_slots_atTime, hslots]
      omega
    refine ⟨_, hgives, State.slot_modSlot_same hlength _, rfl, fun i hi => State.slot_modSlot_other _ hi _, rfl, rfl, ?_⟩
    exact congrArg (fun c : HostChan => (c.bound, c.bindSlot, c.slot, c.result, c.busy, c.done)) (State.chan_bindTo_txnDone hch n resultOk)
  case notFormed =>
    have hgives := gives_openArray hr
    rwa [State.txnOpenArray_of_not_formed (s := s.atTime t) haway htree] at hgives
  case below =>
    have hgives := gives_openArray hr
    rw [State.txnOpenArray_of_formed (s := s.atTime t) haway htree, if_neg (by rw [Bool.not_eq_true]; exact htop)] at hgives
    refine ⟨_, hgives, ?_, rfl, rfl, rfl⟩
    exact congrArg HostChan.busy (State.chan_modChan_same hch _)
  case top =>
    have hgives := gives_openArray hr
    obtain ⟨hslot, hwait, hchan⟩ := State.txnOpenArray_at_top (s := s.atTime t) haway htree htop hnone hidle hfree
      (by rw [State.length_slots_atTime, hslots]; decide) hch
    refine ⟨_, hgives, ?_⟩
    rw [hslot, hwait, hchan]
    exact ⟨rfl, rfl, rfl, rfl, rfl, rfl⟩
  case bind =>
    rintro hr rfl
    have hgives := gives_txnBind hr v
    refine ⟨fun h => ?unbind, fun h hn hheld hown => ?binds, fun h hno => ?refused⟩
    case unbind => rwa [State.txnBind_of_unbind h] at hgives
    case binds => rwa [State.txnBind_of_allowed h hn hheld hown] at hgives
    case refused => rwa [State.txnBind_of_refused h hno] at hgives

end Sys2Proof.Machine
end

