-- ==== Sys2Proof/Proofs/TxnOnLanding.lean ====
section
/-!
PREPARE, ABORT and RELEASE of a local transaction (R510 to R516, R519): what they refuse, the checks of a prepare one by one, and how a
prepare, an abort, a release and the copying of a live apply end.
-/

namespace Sys2Proof.Machine

open Sys2Proof

/-! ### What PREPARE, ABORT and RELEASE refuse (R514) -/

/-- The results with which a command is refused for its slot: for the number, for a slot that is FREE, for the owner of a local one. -/
inductive State.Refuses (s : State) (ch n : Nat) : Nat → Prop
  | number (hn : 19 < n) : s.Refuses ch n resultCommand
  | free (hn : n ≤ 19) (hfree : (s.slot n).state = txFree) : s.Refuses ch n resultState
  | owner (hn : n ≤ 19) (hheld : (s.slot n).state ≠ txFree) (hlocal : (s.slot n).array = false) (hother : (s.slot n).owner ≠ ch) :
      s.Refuses ch n resultNotOwner

theorem State.txnPrepare_of_refuses {s : State} {ch n result : Nat} (h : s.Refuses ch n result) : s.txnPrepare ch n = s.txnDone ch result := by
  cases h with
  | number hn => exact if_pos hn
  | free hn hfree => simp [State.txnPrepare, hn, hfree]
  | owner hn hheld hlocal hother => simp [State.txnPrepare, hn, hheld, hother]

theorem State.txnAbort_of_refuses {s : State} {ch n result : Nat} (hnone : s.txn.commits = []) (h : s.Refuses ch n result) :
    s.txnAbort ch n = s.txnDone ch result := by
  rw [State.txnAbort, State.latchDue_of_no_commits hnone]
  cases h with
  | number hn => exact if_pos hn
  | free hn hfree => simp [hn, hfree]
  | owner hn hheld hlocal hother => simp [hn, hheld, hlocal, hother]

theorem State.txnRelease_of_refuses {s : State} {ch n result : Nat} (h : s.Refuses ch n result) : s.txnRelease ch n = s.txnDone ch result := by
  cases h with
  | number hn => exact if_pos hn
  | free hn hfree => simp [State.txnRelease, hn, hfree]
  | owner hn hheld hlocal hother => simp [State.txnRelease, hn, hheld, hlocal, hother]

/-- The slot holds a local transaction of the channel. -/
structure State.OwnLocal (s : State) (ch n : Nat) : Prop where
  number : n ≤ 19
  held : (s.slot n).state ≠ txFree
  isLocal : (s.slot n).array = false
  owner : (s.slot n).owner = ch

section OwnLocal

variable {s : State} {ch n : Nat}

/-! ### PREPARE of a local transaction (R510 to R512) -/

theorem State.txnPrepare_of_not_open (hown : s.OwnLocal ch n) (h : (s.slot n).state ≠ txOpen ∨ (s.slot n).preparing = true) :
    s.txnPrepare ch n = s.txnDone ch resultState := by
  obtain ⟨hn, hheld, hlocal, howner⟩ := hown
  simp [State.txnPrepare, hn, hheld, hlocal, howner, h]

theorem State.txnPrepare_of_open (hown : s.OwnLocal ch n) (hopen : (s.slot n).state = txOpen) (hprep : (s.slot n).preparing = false) :
    s.txnPrepare ch n = s.localPrepare ch n := by
  obtain ⟨hn, hheld, hlocal, howner⟩ := hown
  rw [hopen] at hheld
  simp [State.txnPrepare, hn, hheld, hlocal, howner, hopen, hprep]

/-! ### ABORT of a local transaction (R515) -/

theorem State.txnAbort_of_undecided (hown : s.OwnLocal ch n) (hnone : s.txn.commits = [])
    (h : (s.slot n).state = txOpen ∨ (s.slot n).state = txPrepared) :
    s.txnAbort ch n = ((s.abortSlot n causeHost).wakeWaiters n).txnDone ch resultOk := by
  obtain ⟨hn, hheld, hlocal, howner⟩ := hown
  have hstate : (s.slot n).state ≠ txCommitted := by rcases h with h | h <;> rw [h] <;> decide
  have hfinal : (s.slot n).final = false := by rw [TxnSlot.final]; rcases h with h | h <;> rw [h] <;> decide
  simp [State.txnAbort, State.latchDue_of_no_commits hnone, hn, hheld, hlocal, howner, hstate, hfinal]

theorem State.txnAbort_of_committed (hown : s.OwnLocal ch n) (hnone : s.txn.commits = []) (h : (s.slot n).state = txCommitted) :
    s.txnAbort ch n = (s.modSlot n fun x => { x with state := txTooLate }).txnDone ch resultOk := by
  obtain ⟨hn, hheld, hlocal, howner⟩ := hown
  rw [h] at hheld
  simp [State.txnAbort, State.latchDue_of_no_commits hnone, hn, hheld, hlocal, howner, h]

theorem State.txnAbort_of_over (hown : s.OwnLocal ch n) (hnone : s.txn.commits = [])
    (h : (s.slot n).state = txAborted ∨ (s.slot n).state = txTooLate) : s.txnAbort ch n = s.txnDone ch resultState := by
  obtain ⟨hn, hheld, hlocal, howner⟩ := hown
  have hstate : (s.slot n).state ≠ txCommitted := by rcases h with h | h <;> rw [h] <;> decide
  have hfinal : (s.slot n).final = true := by rw [TxnSlot.final]; rcases h with h | h <;> rw [h] <;> decide
  simp [State.txnAbort, State.latchDue_of_no_commits hnone, hn, hheld, hlocal, howner, hstate, hfinal]

/-! ### RELEASE of a local transaction (R516) -/

theorem State.txnRelease_of_final (hown : s.OwnLocal ch n) (h : (s.slot n).final = true) :
    s.txnRelease ch n = (s.setSlot n TxnSlot.free).txnDone ch resultOk := by
  obtain ⟨hn, hheld, hlocal, howner⟩ := hown
  simp [State.txnRelease, hn, hheld, howner, h]

theorem State.txnRelease_of_not_final (hown : s.OwnLocal ch n) (h : (s.slot n).final = false) : s.txnRelease ch n = s.txnDone ch resultState := by
  obtain ⟨hn, hheld, hlocal, howner⟩ := hown
  simp [State.txnRelease, hn, hheld, howner, h]

end OwnLocal

/-! ### Checks of a prepare read no more of the slots than claims and states (R99, R510) -/

theorem State.claimed_modSlot (s : State) (m : Nat) {f : TxnSlot → TxnSlot} (hf : ∀ x, (f x).claim = x.claim ∧ (f x).state = x.state)
    (n serial : Nat) : (s.modSlot m f).claimed n serial = s.claimed n serial := by
  have hslot : ∀ i, ((s.modSlot m f).slot i).claim = (s.slot i).claim ∧ ((s.modSlot m f).slot i).state = (s.slot i).state := fun i => by
    by_cases hi : i = m
    · subst hi
      by_cases hlength : i < s.txn.slots.length
      · rw [State.slot_modSlot_same hlength]
        exact hf _
      · simp [State.slot, State.modSlot, hlength]
    · rw [State.slot_modSlot_other s hi]
      exact ⟨rfl, rfl⟩
  simp [State.claimed, TxnSlot.final, hslot]

theorem State.checkStaged_modSlot (s : State) (m : Nat) {f : TxnSlot → TxnSlot} (hf : ∀ x, (f x).claim = x.claim ∧ (f x).state = x.state)
    (n time asked : Nat) (l : List Staged) : (s.modSlot m f).checkStaged n time asked l = s.checkStaged n time asked l := by
  have hcode : (s.modSlot m f).liveCode n time asked l = s.liveCode n time asked l := by
    unfold State.liveCode
    simp only [State.claimed_modSlot s m hf]
    rfl
  unfold State.checkStaged
  rw [hcode]
  rfl

/-! ### A local prepare, check by check (R510 to R512) -/

/-- The commit point that the host has written for a slot. -/
def State.pointAt (s : State) (n : Nat) : Point := pointOf (s.word (Reg.TXN.SLOT_CTL.word n).addr)

/-- What the point resolves to for a local transaction, and the cause that stops it. -/
def State.localPoint (s : State) (n : Nat) : Nat × Nat := s.checkPoint (s.pointAt n) 0 (ticksOfUs 2)

/-- The verdict on what a local transaction has staged, at the time that its point resolves to. -/
def State.localVerdict (s : State) (n : Nat) : Verdict := s.checkStaged n (s.localPoint n).1 s.arrayNow (s.slot n).staged

/-- A slot holds the instant and the carrier of the request to prepare it. -/
def State.requested (s : State) (n : Nat) : State := s.modSlot n fun x => { x with asked := s.arrayNow, carrier := (s.pointAt n).carrier }

/-- And the time of its commit. -/
def State.resolved (s : State) (n : Nat) : State := (s.requested n).modSlot n fun x => { x with time := (s.localPoint n).1 }

section LocalPrepare

variable {s : State} {n : Nat}

@[simp] theorem State.chans_resolved : (s.resolved n).chans = s.chans := rfl

@[simp] theorem State.length_slots_requested : (s.requested n).txn.slots.length = s.txn.slots.length := List.length_modify ..

@[simp] theorem State.length_slots_resolved : (s.resolved n).txn.slots.length = s.txn.slots.length :=
  (State.length_slots_modSlot ..).trans State.length_slots_requested

theorem State.slot_requested_same (h : n < s.txn.slots.length) :
    (s.requested n).slot n = { s.slot n with asked := s.arrayNow, carrier := (s.pointAt n).carrier } := State.slot_modSlot_same h _

theorem State.slot_resolved_same (h : n < s.txn.slots.length) :
    (s.resolved n).slot n =
      { s.slot n with asked := s.arrayNow, carrier := (s.pointAt n).carrier, time := (s.localPoint n).1 } := by
  rw [State.resolved, State.slot_modSlot_same (by simpa using h), State.slot_requested_same h]

theorem State.checkStaged_resolved (m time asked : Nat) (l : List Staged) :
    (s.resolved n).checkStaged m time asked l = s.checkStaged m time asked l := by
  rw [State.resolved, State.checkStaged_modSlot _ _ (by simp), State.requested, State.checkStaged_modSlot _ _ (by simp)]

theorem State.localPrepare_of_poisoned (h : n < s.txn.slots.length) (hpoisoned : (s.slot n).poisoned = true) (ch : Nat) :
    s.localPrepare ch n = ((s.requested n).abortSlot n causeLimit).txnDone ch resultOk := by
  have hslot : ((s.requested n).slot n).poisoned = true := by rw [State.slot_requested_same h]; exact hpoisoned
  exact if_pos hslot

/-- What a prepare is judged by once its time is known. -/
theorem State.localPrepare_of_sound (h : n < s.txn.slots.length) (hsound : (s.slot n).poisoned = false) (hpoint : (s.localPoint n).2 = 0) (ch : Nat) :
    s.localPrepare ch n =
      if (s.localVerdict n).cause != 0 then
        ((((s.resolved n).modSlot n fun x => { x with refuse := (s.localVerdict n).refuse }).abortSlot n (s.localVerdict n).cause).showLiveCode
          (s.localVerdict n)).txnDone ch resultOk
      else (s.livePartial (s.slot n).staged).elim (((s.resolved n).prepareSlot n true).txnDone ch resultOk) fun q =>
        (((s.resolved n).modSlot n fun x => { x with live := some q, claim := some q.serial, preparing := true, waiters := [ch] }).txnBusy ch).arm
          (.livePrepare n) (s.now + installTicks q) := by
  have hslot : (s.requested n).slot n = { s.slot n with asked := s.arrayNow, carrier := (s.pointAt n).carrier } := State.slot_requested_same h
  have hpoisoned : ¬ ((s.requested n).slot n).poisoned = true := by rw [hslot]; simpa using hsound
  have hstaged : ((s.requested n).slot n).staged = (s.slot n).staged := by rw [hslot]
  have hok : ¬ ((s.localPoint n).2 != 0) = true := by simpa using hpoint
  have hverdict : (s.resolved n).checkStaged n (s.localPoint n).1 s.arrayNow ((s.requested n).slot n).staged = s.localVerdict n := by
    rw [State.checkStaged_resolved, hstaged]; rfl
  rw [← hstaged, ← hverdict]
  refine (if_neg hpoisoned).trans ((if_neg hok).trans ?_)
  refine if_congr Iff.rfl rfl ?_
  split
  case h_1 q hlive =>
    have hlive' : s.livePartial ((s.requested n).slot n).staged = some q := hlive
    rw [hlive']
    rfl
  case h_2 hlive =>
    have hlive' : s.livePartial ((s.requested n).slot n).staged = none := hlive
    rw [hlive']
    rfl

theorem State.localPrepare_of_point (h : n < s.txn.slots.length) (hsound : (s.slot n).poisoned = false) (hpoint : (s.localPoint n).2 ≠ 0)
    (ch : Nat) : s.localPrepare ch n = ((s.resolved n).abortSlot n (s.localPoint n).2).txnDone ch resultOk := by
  have hpoisoned : ¬ ((s.requested n).slot n).poisoned = true := by rw [State.slot_requested_same h]; simpa using hsound
  have hbad : ((s.localPoint n).2 != 0) = true := by simpa using hpoint
  exact (if_neg hpoisoned).trans (if_pos hbad)

end LocalPrepare

/-! ### How a local prepare ends -/

section LocalPrepareEnds

variable {s : State} {n ch : Nat}

theorem State.localPrepare_aborts_of_poisoned (h : n < s.txn.slots.length) (hpoisoned : (s.slot n).poisoned = true) :
    ((s.localPrepare ch n).slot n).state = txAborted ∧ ((s.localPrepare ch n).slot n).cause = causeLimit ∧
      ((s.localPrepare ch n).slot n).staged = [] := by
  rw [State.localPrepare_of_poisoned h hpoisoned, State.slot_txnDone, State.slot_abortSlot_same (by simpa using h)]
  exact ⟨rfl, rfl, rfl⟩

theorem State.localPrepare_aborts_of_point (h : n < s.txn.slots.length) (hch : ch < s.chans.length) (hsound : (s.slot n).poisoned = false)
    (hpoint : (s.localPoint n).2 ≠ 0) :
    ((s.localPrepare ch n).slot n).state = txAborted ∧ ((s.localPrepare ch n).slot n).cause = (s.localPoint n).2 ∧
      ((s.localPrepare ch n).slot n).staged = [] ∧ ((s.localPrepare ch n).chan ch).result = resultOk := by
  rw [State.localPrepare_of_point h hsound hpoint, State.slot_txnDone, State.slot_abortSlot_same (by simpa using h),
    State.chan_txnDone_same (by simpa using hch)]
  exact ⟨rfl, rfl, rfl, rfl⟩

theorem State.localPrepare_aborts_of_verdict (h : n < s.txn.slots.length) (hsound : (s.slot n).poisoned = false)
    (hpoint : (s.localPoint n).2 = 0) (hno : (s.localVerdict n).cause ≠ 0) :
    ((s.localPrepare ch n).slot n).state = txAborted ∧ ((s.localPrepare ch n).slot n).cause = (s.localVerdict n).cause ∧
      ((s.localPrepare ch n).slot n).refuse = (s.localVerdict n).refuse ∧ ((s.localPrepare ch n).slot n).staged = [] := by
  rw [State.localPrepare_of_sound h hsound hpoint, if_pos (by simpa using hno), State.slot_txnDone, State.slot_showLiveCode,
    State.slot_abortSlot_same (by simpa using h), State.slot_modSlot_same (by simpa using h)]
  exact ⟨rfl, rfl, rfl, rfl⟩

theorem State.localPrepare_of_passed (h : n < s.txn.slots.length) (hsound : (s.slot n).poisoned = false) (hpoint : (s.localPoint n).2 = 0)
    (hyes : (s.localVerdict n).cause = 0) (hplain : s.livePartial (s.slot n).staged = none) :
    s.localPrepare ch n = ((s.resolved n).prepareSlot n true).txnDone ch resultOk := by
  rw [State.localPrepare_of_sound h hsound hpoint, if_neg (by simpa using hyes), hplain]
  rfl

theorem State.localPrepare_of_live {q : Partial} (h : n < s.txn.slots.length) (hsound : (s.slot n).poisoned = false)
    (hpoint : (s.localPoint n).2 = 0) (hyes : (s.localVerdict n).cause = 0) (hlive : s.livePartial (s.slot n).staged = some q) :
    s.localPrepare ch n =
      (((s.resolved n).modSlot n fun x => { x with live := some q, claim := some q.serial, preparing := true, waiters := [ch] }).txnBusy ch).arm
        (.livePrepare n) (s.now + installTicks q) := by
  rw [State.localPrepare_of_sound h hsound hpoint, if_neg (by simpa using hyes), hlive]
  rfl

/-- A prepare that passes with nothing to copy leaves the slot PREPARED and its commit on the way. -/
theorem State.localPrepare_prepares (h : n < s.txn.slots.length) (hch : ch < s.chans.length) (hsound : (s.slot n).poisoned = false)
    (hpoint : (s.localPoint n).2 = 0) (hyes : (s.localVerdict n).cause = 0) (hplain : s.livePartial (s.slot n).staged = none)
    (hnone : s.txn.commits = []) :
    (s.localPrepare ch n).slot n = ((s.resolved n).slot n).prepared ∧
      (s.localPrepare ch n).chan ch = { s.chan ch with result := resultOk, busy := false, done := true } ∧
      (s.localPrepare ch n).mem = s.mem ∧ (s.localPrepare ch n).regs = s.regs ∧
      (s.localPrepare ch n).txn.commits.map (fun y => (y.time, y.id, y.slot, y.decided, y.effects)) =
        [((s.localPoint n).1, (s.slot n).id, some n, true, ((s.resolved n).slot n).effects)] := by
  have hresolved : n < (s.resolved n).txn.slots.length := by simpa using h
  rw [State.localPrepare_of_passed h hsound hpoint hyes hplain]
  refine ⟨State.slot_prepareSlot_same hresolved true, ?chan, State.mem_prepareSlot _ _ true, State.regs_prepareSlot _ _ true, ?commits⟩
  case chan =>
    rw [State.chan_txnDone_same (by simpa using hch), State.chan, State.chans_prepareSlot]
    rfl
  case commits =>
    rw [State.txn_txnDone, State.commits_prepareSlot hresolved hnone, List.map_singleton, State.slot_resolved_same h]

/-- A prepare that passes with a live apply stays OPEN while its sections are copied. -/
theorem State.localPrepare_copies {q : Partial} (h : n < s.txn.slots.length) (hch : ch < s.chans.length) (hsound : (s.slot n).poisoned = false)
    (hpoint : (s.localPoint n).2 = 0) (hyes : (s.localVerdict n).cause = 0) (hlive : s.livePartial (s.slot n).staged = some q) :
    (s.localPrepare ch n).slot n =
        { (s.resolved n).slot n with live := some q, claim := some q.serial, preparing := true, waiters := [ch] } ∧
      ((s.localPrepare ch n).chan ch).busy = true ∧
      (s.localPrepare ch n).dueAt (.livePrepare n) = some (s.now + installTicks q) := by
  have hresolved : n < (s.resolved n).txn.slots.length := by simpa using h
  rw [State.localPrepare_of_live h hsound hpoint hyes hlive]
  refine ⟨?slot, ?chan, State.dueAt_arm _ _ _⟩
  case chan => rw [State.chan_arm, State.txnBusy, State.chan_modChan_same (by simpa using hch)]
  case slot => rw [State.slot_arm, State.slot_txnBusy, State.slot_modSlot_same hresolved]

end LocalPrepareEnds

/-! ### The copying of a live apply ends (R100, R510) -/

section LivePrepared

variable {s : State} {n : Nat}

theorem State.livePrepared_of_not_due (h : s.due (.livePrepare n) = false) : s.livePrepared n = s := by
  simp [State.livePrepared, h]

theorem State.livePrepared_of_ready (hdue : s.due (.livePrepare n) = true) (hlocal : (s.slot n).array = false)
    (hready : s.livePartial (s.slot n).staged ≠ none) :
    s.livePrepared n = ((s.disarm (.livePrepare n)).prepareSlot n true).wakeWaiters n := by
  have hok : ((s.disarm (.livePrepare n)).livePartial (s.slot n).staged).isSome = true := Option.isSome_iff_ne_none.2 hready
  simp [State.livePrepared, hdue, hlocal, hok]

theorem State.livePrepared_of_changed (hdue : s.due (.livePrepare n) = true) (hlocal : (s.slot n).array = false)
    (hgone : s.livePartial (s.slot n).staged = none) :
    s.livePrepared n =
      (((s.disarm (.livePrepare n)).put Reg.IMAGE.STATUS.code codeNotReady).abortSlot n causeLive).wakeWaiters n := by
  have hno : ((s.disarm (.livePrepare n)).livePartial (s.slot n).staged).isSome = false := by
    rw [show (s.disarm (.livePrepare n)).livePartial (s.slot n).staged = none from hgone]
    rfl
  simp [State.livePrepared, hdue, hlocal, hno]

end LivePrepared

section Commands

variable {s : State} {t : Nat} {ch : Channel}

theorem gives_prepare (hr : s.reaches t ch Reg.TXN.CMD.word.addr) (n : Fin 32) :
    Gives (.prepare t ch n) s ((s.atTime t).txnPrepare ch.val n.val) :=
  gives_hostCmd (f := fun s => s.txnPrepare ch.val n.val) hr rfl

theorem gives_abort (hr : s.reaches t ch Reg.TXN.CMD.word.addr) (n : Fin 32) :
    Gives (.abort t ch n) s ((s.atTime t).txnAbort ch.val n.val) :=
  gives_hostCmd (f := fun s => s.txnAbort ch.val n.val) hr rfl

theorem gives_release (hr : s.reaches t ch Reg.TXN.CMD.word.addr) (n : Fin 32) :
    Gives (.release t ch n) s ((s.atTime t).txnRelease ch.val n.val) :=
  gives_hostCmd (f := fun s => s.txnRelease ch.val n.val) hr rfl

theorem gives_livePrepareDone (s : State) (t : Nat) (n : Fin 20) : Gives (.livePrepareDone t n) s ((s.atTime t).livePrepared n.val) := rfl

/-- PREPARE, ABORT and RELEASE refuse a slot alike (R514). -/
theorem gives_refusal (hr : s.reaches t ch Reg.TXN.CMD.word.addr) (hnone : s.txn.commits = []) {n : Fin 32} {result : Nat}
    (h : (s.atTime t).Refuses ch.val n.val result) {c : Instr} (hc : c ∈ [Instr.prepare t ch n, .abort t ch n, .release t ch n]) :
    Gives c s ((s.atTime t).txnDone ch.val result) := by
  have hprepare := gives_prepare hr n
  have habort := gives_abort hr n
  have hrelease := gives_release hr n
  rw [State.txnPrepare_of_refuses h] at hprepare
  rw [State.txnAbort_of_refuses (s := s.atTime t) hnone h] at habort
  rw [State.txnRelease_of_refuses h] at hrelease
  simp only [List.mem_cons, List.not_mem_nil, or_false] at hc
  rcases hc with rfl | rfl | rfl
  · exact hprepare
  · exact habort
  · exact hrelease

end Commands

theorem claim_txnLocal : Claim.TxnLocal := by
  rintro s t ch n r x rfl rfl hslots hchans hnone
  have hch : ch.val < s.chans.length := by rw [hchans]; exact ch.isLt
  have hlength : ∀ m, m ≤ 19 → m < (s.atTime t).txn.slots.length := fun m hm => by
    rw [State.length_slots_atTime, hslots]
    omega
  refine ⟨fun hr c hc => ⟨fun hn => gives_refusal hr hnone (.number hn) hc, fun hn hfree => gives_refusal hr hnone (.free hn hfree) hc,
    fun hn hheld hlocal hother => gives_refusal hr hnone (.owner hn hheld hlocal hother) hc⟩, fun hr hn hheld hlocal howner => ?own,
    fun m hm => ?live⟩
  case own =>
    have hn29 := hlength n.val hn
    have hown : (s.atTime t).OwnLocal ch.val n.val := ⟨hn, hheld, hlocal, howner⟩
    have hprepare := gives_prepare hr n
    have habort := gives_abort hr n
    have hrelease := gives_release hr n
    refine ⟨fun h => ?notOpen, fun hopen hprep p hp => ?opened, fun h => ?undecided, fun h => ?committed, fun h => ?aborted, fun h => ?final,
      fun h => ?notFinal⟩
    case notOpen => rwa [State.txnPrepare_of_not_open hown h] at hprepare
    case opened =>
      subst hp
      rw [State.txnPrepare_of_open hown hopen hprep] at hprepare
      refine ⟨fun hpoisoned => ⟨_, hprepare, State.localPrepare_aborts_of_poisoned hn29 hpoisoned⟩,
        fun hsound hpoint => ⟨_, hprepare, State.localPrepare_aborts_of_point hn29 hch hsound hpoint⟩,
        fun hsound hpoint hno => ⟨_, hprepare, State.localPrepare_aborts_of_verdict hn29 hsound hpoint hno⟩,
        fun hsound hpoint hyes hplain hpart hlive => ⟨_, hprepare, ?_⟩, fun q hsound hpoint hyes hlive => ⟨_, hprepare, ?_⟩⟩
      · obtain ⟨hslot, hchan, hmem, hregs, hcommits⟩ := State.localPrepare_prepares hn29 hch hsound hpoint hyes hplain hnone
        rw [State.slot_resolved_same hn29] at hslot hcommits
        rw [hslot, hchan, hcommits]
        refine ⟨rfl, rfl, rfl, rfl, rfl, hmem, hregs, ?_⟩
        rw [TxnSlot.effects, hpart, hlive]
        rfl
      · obtain ⟨hslot, hbusy, hdue⟩ := State.localPrepare_copies hn29 hch hsound hpoint hyes hlive
        rw [State.slot_resolved_same hn29] at hslot
        rw [hslot]
        exact ⟨hopen, rfl, rfl, hbusy, hdue⟩
    case undecided =>
      rw [State.txnAbort_of_undecided hown hnone h] at habort
      refine ⟨_, habort, ?_⟩
      rw [State.slot_txnDone, State.slot_wakeWaiters_same (by simpa using hn29), State.slot_abortSlot_same hn29,
        State.chan_txnDone_same (by simpa using hch)]
      exact ⟨rfl, rfl, rfl, rfl, rfl, by simp, by simp⟩
    case committed =>
      rw [State.txnAbort_of_committed hown hnone h] at habort
      have hslot := State.slot_modSlot_same hn29 fun x => { x with state := txTooLate }
      exact ⟨_, habort, congrArg TxnSlot.state hslot, congrArg HostChan.result (State.chan_txnDone_same hch resultOk)⟩
    case aborted => rwa [State.txnAbort_of_over hown hnone h] at habort
    case final =>
      rw [State.txnRelease_of_final hown h] at hrelease
      exact ⟨_, hrelease, State.slot_modSlot_same hn29 _, fun i hi => State.slot_modSlot_other _ hi _,
        congrArg HostChan.result (State.chan_txnDone_same hch resultOk), rfl, rfl⟩
    case notFinal => rwa [State.txnRelease_of_not_final hown h] at hrelease
  case live =>
    rw [← hm]
    have hm29 := hlength m.val (Nat.le_of_lt_succ m.isLt)
    have hgives := gives_livePrepareDone s t m
    refine ⟨fun hdue => ?early, fun hdue hlocal => ⟨fun hready => ?ready, fun hgone => ?changed⟩⟩
    case early => rwa [State.livePrepared_of_not_due hdue] at hgives
    case ready =>
      rw [State.livePrepared_of_ready hdue hlocal hready] at hgives
      refine ⟨_, hgives, ?_⟩
      rw [State.slot_wakeWaiters_same (by simpa using hm29), State.slot_prepareSlot_same (by simpa using hm29)]
      exact ⟨rfl, rfl, rfl⟩
    case changed =>
      rw [State.livePrepared_of_changed hdue hlocal hgone] at hgives
      refine ⟨_, hgives, ?_⟩
      rw [State.slot_wakeWaiters_same (by simpa using hm29), State.slot_abortSlot_same (by exact hm29), State.get_wakeWaiters,
        State.get_abortSlot]
      exact ⟨rfl, rfl, State.get_put_same _ rfl codeNotReady⟩

/-- Settles O52: OPEN, OPEN_ARRAY and BIND each answer by one rule per case; PREPARE, ABORT and RELEASE share the order in which they refuse;
and a local transaction's slot and channel read as its end leaves them. -/
theorem txnOnLanding : Obligations.TxnOnLanding := ⟨claim_txnOpening, claim_txnLocal⟩

end Sys2Proof.Machine
end

