-- ==== Sys2Proof/Proofs/SoundState.lean ====
section
/-!
What every step keeps: both stores in canonical form and every fixed collection at its size, as one predicate of the state with two
propositions, so that either invariant is one case of it; and the rules for replacing one part of the state. Within a command the present instant
is kept as well, and by most operations which symbols the carriers have begun: these are two more things that the predicate can speak of.
-/

namespace Sys2Proof.Machine

open Sys2Proof

/-- The fixed collections of the block; and the present instant, which only a command's own time changes, and the symbol that each carrier
has begun last. -/
inductive Coll where
  | nowAt (n : Nat)
  | begunAre (l : List (Option Nat))
  | sxmKeys | pg | slots | paths | radioBanks | blank | femReady | blankedAt | initDone | femDue | attempts | restarting | cnvAttempts
  | cnvRestarting | cnvLfsr | sets | maps | beamReplays | beamChecks | epochs | lastEpoch | fhPorts | partners | masters | fhReplays
  | fhChecks | laneBack | injected | stairPorts | lanes | tau | rho | captures | pipes | recovBanks | monitors | failures | codes | sensors
  | chans | sessions | carriers | obs | obsPath | halls | alcoves
deriving DecidableEq

section Sound

variable {P : Prop} {Q : Coll → Prop}

/-- Where `Q` holds, the collections of the keep have their members. -/
structure Keep.Sized (Q : Coll → Prop) (x : Keep) : Prop where
  sxmKeys : Q .sxmKeys → x.sxmKeys.length = 4

/-- Where `Q` holds, the collections of boot have their members. -/
structure BootState.Sized (Q : Coll → Prop) (x : BootState) : Prop where
  pg : Q .pg → x.pg.length = 4

/-- Where `Q` holds, the collections of transactions have their members. -/
structure TxnState.Sized (Q : Coll → Prop) (x : TxnState) : Prop where
  slots : Q .slots → x.slots.length = 29

/-- Where `Q` holds, the collections of the radio have their members. -/
structure RadioState.Sized (Q : Coll → Prop) (x : RadioState) : Prop where
  paths : Q .paths → x.paths.length = 64
  banks : Q .radioBanks → x.banks.length = 2
  blank : Q .blank → x.blank.length = 4
  femReady : Q .femReady → x.femReady.length = 64
  blankedAt : Q .blankedAt → x.blankedAt.length = 8
  initDone : Q .initDone → x.initDone.length = 8
  femDue : Q .femDue → x.femDue.length = 8

/-- Where `Q` holds, the collections of the clocks have their members. -/
structure ClockState.Sized (Q : Coll → Prop) (x : ClockState) : Prop where
  attempts : Q .attempts → x.attempts.length = 8
  restarting : Q .restarting → x.restarting.length = 8
  cnvAttempts : Q .cnvAttempts → x.cnvAttempts.length = 2
  cnvRestarting : Q .cnvRestarting → x.cnvRestarting.length = 2
  cnvLfsr : Q .cnvLfsr → x.cnvLfsr.length = 2

/-- Where `Q` holds, the collections of the beam engine have their members. -/
structure BeamState.Sized (Q : Coll → Prop) (x : BeamState) : Prop where
  sets : Q .sets → x.sets.length = 8
  maps : Q .maps → x.maps.length = 8
  replays : Q .beamReplays → x.replays.length = 8
  checks : Q .beamChecks → x.checks.length = 8
  epochs : Q .epochs → x.epochs.length = 8
  lastEpoch : Q .lastEpoch → x.lastEpoch.length = 8

/-- Where `Q` holds, the collections of the fronthaul have their members. -/
structure FhState.Sized (Q : Coll → Prop) (x : FhState) : Prop where
  ports : Q .fhPorts → x.ports.length = 8
  partners : Q .partners → x.partners.length = 64
  masters : Q .masters → x.masters.length = 8
  replays : Q .fhReplays → x.replays.length = 8
  checks : Q .fhChecks → x.checks.length = 8
  laneBack : Q .laneBack → x.laneBack.length = 8
  injected : Q .injected → x.injected.length = 8

/-- Where `Q` holds, the collections of the stair network have their members. -/
structure StairState.Sized (Q : Coll → Prop) (x : StairState) : Prop where
  ports : Q .stairPorts → x.ports.length = 4
  lanes : Q .lanes → x.lanes.length = 16

/-- Where `Q` holds, the collections of over-the-air calibration have their members. -/
structure OtaState.Sized (Q : Coll → Prop) (x : OtaState) : Prop where
  tau : Q .tau → x.tau.length = 64
  rho : Q .rho → x.rho.length = 64
  newTau : Q .tau → x.newTau.length = 64
  newRho : Q .rho → x.newRho.length = 64
  captures : Q .captures → x.captures.length = 2

/-- Where `Q` holds, the collections of recovery have their members. -/
structure RecState.Sized (Q : Coll → Prop) (x : RecState) : Prop where
  pipes : Q .pipes → x.pipes.length = 4
  banks : Q .recovBanks → x.banks.length = 48

/-- Where `Q` holds, the collections of energy have their members. -/
structure EnergyState.Sized (Q : Coll → Prop) (x : EnergyState) : Prop where
  monitors : Q .monitors → x.monitors.length = 16
  failures : Q .failures → x.failures.length = 3

/-- Where `Q` holds, the collections of housekeeping have their members. -/
structure HkState.Sized (Q : Coll → Prop) (x : HkState) : Prop where
  codes : Q .codes → x.codes.length = 24
  sensors : Q .sensors → x.sensors.length = 24

/-- Where `P` holds both stores are in canonical form, and where `Q` holds every fixed collection has its members, and the
instant and the symbols begun are those named. -/
structure State.Sound (P : Prop) (Q : Coll → Prop) (s : State) : Prop where
  now : ∀ n, Q (.nowAt n) → s.now = n
  begunAre : ∀ l, Q (.begunAre l) → s.carriers.map (·.begun) = l
  regs : P → RegFile.wf s.regs = true
  mem : P → Memory.wf s.mem = true
  chans : Q .chans → s.chans.length = 9
  sessions : Q .sessions → s.sessions.length = 8
  keep : s.keep.Sized Q
  boot : s.boot.Sized Q
  txn : s.txn.Sized Q
  radio : s.radio.Sized Q
  clock : s.clock.Sized Q
  carriers : Q .carriers → s.carriers.length = 8
  obs : Q .obs → s.obs.length = 8
  obsPath : Q .obsPath → s.obsPath.length = 64
  beam : s.beam.Sized Q
  fh : s.fh.Sized Q
  halls : Q .halls → s.halls.length = 136
  alcoves : Q .alcoves → s.alcoves.length = 8
  stair : s.stair.Sized Q
  ota : s.ota.Sized Q
  recov : s.recov.Sized Q
  energy : s.energy.Sized Q
  hk : s.hk.Sized Q

/-! ### The two invariants are the two sides of soundness -/

/-- The predicate does not speak of the present instant. -/
def Timeless (Q : Coll → Prop) : Prop := ∀ n, ¬ Q (.nowAt n)

/-- The predicate does not speak of the symbols that the carriers have begun. -/
def Symbolless (Q : Coll → Prop) : Prop := ∀ l, ¬ Q (.begunAre l)

/-- The fixed collections alone. -/
def Sizes : Coll → Prop
  | .nowAt _ | .begunAre _ => False
  | _ => True

theorem timeless_false : Timeless fun _ => False := fun _ => id

theorem timeless_sizes : Timeless Sizes := fun _ => id

theorem symbolless_false : Symbolless fun _ => False := fun _ => id

theorem symbolless_sizes : Symbolless Sizes := fun _ => id

theorem Symbolless.begunAre (h : Symbolless Q) {x : List (Option Nat)} : ∀ l, Q (.begunAre l) → x = l := fun l hl => absurd hl (h l)

theorem State.sound_of_storesWf {s : State} : s.Sound True (fun _ => False) ↔ s.storesWf = true := by
  rw [State.storesWf, Bool.and_eq_true]
  refine ⟨fun h => ⟨h.regs trivial, h.mem trivial⟩, fun ⟨hregs, hmem⟩ => ?_⟩
  constructor
  case now | begunAre => exact fun _ => False.elim
  case regs => exact fun _ => hregs
  case mem => exact fun _ => hmem
  case keep | boot | txn | radio | clock | beam | fh | stair | ota | recov | energy | hk => constructor <;> exact False.elim
  all_goals exact False.elim

theorem State.sound_of_shaped {s : State} : s.Sound False Sizes ↔ s.shaped = true := by
  simp only [State.shaped, List.all_cons, List.all_nil, Bool.and_eq_true, beq_iff_eq, and_true]
  constructor
  · intro h
    simp [h.chans trivial, h.sessions trivial, h.carriers trivial, h.obs trivial, h.obsPath trivial, h.halls trivial, h.alcoves trivial,
      h.keep.sxmKeys trivial, h.boot.pg trivial, h.txn.slots trivial, h.radio.paths trivial, h.radio.banks trivial, h.radio.blank trivial,
      h.radio.femReady trivial, h.radio.blankedAt trivial, h.radio.initDone trivial, h.radio.femDue trivial, h.clock.attempts trivial,
      h.clock.restarting trivial, h.clock.cnvAttempts trivial, h.clock.cnvRestarting trivial, h.clock.cnvLfsr trivial, h.beam.sets trivial,
      h.beam.maps trivial, h.beam.replays trivial, h.beam.checks trivial, h.beam.epochs trivial, h.beam.lastEpoch trivial, h.fh.ports trivial,
      h.fh.partners trivial, h.fh.masters trivial, h.fh.replays trivial, h.fh.checks trivial, h.fh.laneBack trivial, h.fh.injected trivial,
      h.stair.ports trivial, h.stair.lanes trivial, h.ota.tau trivial, h.ota.rho trivial, h.ota.newTau trivial, h.ota.newRho trivial,
      h.ota.captures trivial, h.recov.pipes trivial, h.recov.banks trivial, h.energy.monitors trivial, h.energy.failures trivial, h.hk.codes trivial,
      h.hk.sensors trivial]
  · intro h
    constructor
    case now | begunAre => exact fun _ => False.elim
    case regs | mem => exact False.elim
    case keep | boot | txn | radio | clock | beam | fh | stair | ota | recov | energy | hk => constructor <;> simp [h]
    all_goals simp [h]

/-! ### Control -/

theorem State.Sound.foldl {α : Type} {s : State} {l : List α} {f : State → α → State} (hs : s.Sound P Q)
    (hf : ∀ s a, s.Sound P Q → (f s a).Sound P Q) : (l.foldl f s).Sound P Q := by
  induction l generalizing s with
  | nil => exact hs
  | cons a l ih => exact ih (hf s a hs)

theorem State.Sound.forEach {α : Type} {s : State} {l : List α} {f : α → State → State} (hs : s.Sound P Q)
    (hf : ∀ a s, s.Sound P Q → (f a s).Sound P Q) : (s.forEach l f).Sound P Q := hs.foldl fun s a h => hf a s h

theorem State.Sound.ite {c : Prop} [Decidable c] {s t : State} (hs : s.Sound P Q) (ht : t.Sound P Q) : (if c then s else t).Sound P Q := by
  split
  · exact hs
  · exact ht

/-! ### Results of hall instructions and of commands -/

/-- The state in which a hall's instruction leaves the block is sound. -/
def HallRes.Sound (P : Prop) (Q : Coll → Prop) : HallRes → Prop
  | .next s => s.Sound P Q
  | .jump s _ => s.Sound P Q
  | .after s _ => s.Sound P Q
  | .wait s => s.Sound P Q
  | .trap _ => True

theorem HallRes.Sound.ite {c : Prop} [Decidable c] {r x : HallRes} (hr : r.Sound P Q) (hx : x.Sound P Q) : (if c then r else x).Sound P Q := by
  split
  · exact hr
  · exact hx

/-- The next state that an outcome names is sound. -/
def NextSound (P : Prop) (Q : Coll → Prop) (o : Host.Outcome State Fault Refusal) : Prop := ∀ u, o = .next u → u.Sound P Q

theorem State.Sound.of_fst {α : Type} {x : State × α} {s : State} {a : α} (hx : x.1.Sound P Q) (e : x = (s, a)) : s.Sound P Q := by
  rw [e] at hx
  exact hx

theorem State.Sound.of_snd {α : Type} {x : α × State} {s : State} {a : α} (hx : x.2.Sound P Q) (e : x = (a, s)) : s.Sound P Q := by
  rw [e] at hx
  exact hx

/-! ### Replacing one part of the state -/

theorem State.Sound.setNow {s : State} {x : Nat} (hQ : Timeless Q) (hs : s.Sound P Q) : ({ s with now := x } : State).Sound P Q :=
  { hs with now := fun n hn => absurd hn (hQ n) }

theorem State.Sound.setRegs {s : State} {x : List (Nat × Word)} (hs : s.Sound P Q) (hx : RegFile.wf s.regs = true → RegFile.wf x = true) :
    ({ s with regs := x } : State).Sound P Q := { hs with regs := fun hp => hx (hs.regs hp) }

theorem State.Sound.setMem {s : State} {x : List Host.Cell} (hs : s.Sound P Q) (hx : Memory.wf s.mem = true → Memory.wf x = true) :
    ({ s with mem := x } : State).Sound P Q := { hs with mem := fun hp => hx (hs.mem hp) }

theorem State.Sound.setTrims {s : State} {x : List (Nat × Word)} (hs : s.Sound P Q) : ({ s with trims := x } : State).Sound P Q := { hs with }

theorem State.Sound.setTrimsRx {s : State} {x : List (Nat × Word)} (hs : s.Sound P Q) : ({ s with trimsRx := x } : State).Sound P Q := { hs with }

theorem State.Sound.setTrimsDelay {s : State} {x : List (Nat × Word)} (hs : s.Sound P Q) :
  ({ s with trimsDelay := x } : State).Sound P Q := { hs with }

theorem State.Sound.setTrimsTone {s : State} {x : List (Nat × Word)} (hs : s.Sound P Q) : ({ s with trimsTone := x } : State).Sound P Q := { hs with }

theorem State.Sound.setTrimsLoaded {s : State} {x : Bool} (hs : s.Sound P Q) : ({ s with trimsLoaded := x } : State).Sound P Q := { hs with }

theorem State.Sound.setTrimsBad {s : State} {x : List Nat} (hs : s.Sound P Q) : ({ s with trimsBad := x } : State).Sound P Q := { hs with }

theorem State.Sound.setChans {s : State} {x : List HostChan} (hs : s.Sound P Q) (hx : (Q .chans → s.chans.length = 9) → Q .chans → x.length = 9) :
    ({ s with chans := x } : State).Sound P Q := { hs with chans := hx hs.chans }

theorem State.Sound.setSessions {s : State} {x : List (Option Session)} (hs : s.Sound P Q) (hx : (Q .sessions → s.sessions.length = 8) → Q .sessions → x.length = 8) :
    ({ s with sessions := x } : State).Sound P Q := { hs with sessions := hx hs.sessions }

theorem State.Sound.setKeep {s : State} {x : Keep} (hs : s.Sound P Q) (hx : s.keep.Sized Q → x.Sized Q) :
    ({ s with keep := x } : State).Sound P Q := { hs with keep := hx hs.keep }

theorem State.Sound.setSec {s : State} {x : Security} (hs : s.Sound P Q) : ({ s with sec := x } : State).Sound P Q := { hs with }

theorem State.Sound.setImage {s : State} {x : ImageState} (hs : s.Sound P Q) : ({ s with image := x } : State).Sound P Q := { hs with }

theorem State.Sound.setBoot {s : State} {x : BootState} (hs : s.Sound P Q) (hx : s.boot.Sized Q → x.Sized Q) :
    ({ s with boot := x } : State).Sound P Q := { hs with boot := hx hs.boot }

theorem State.Sound.setTxn {s : State} {x : TxnState} (hs : s.Sound P Q) (hx : s.txn.Sized Q → x.Sized Q) :
    ({ s with txn := x } : State).Sound P Q := { hs with txn := hx hs.txn }

theorem State.Sound.setRadio {s : State} {x : RadioState} (hs : s.Sound P Q) (hx : s.radio.Sized Q → x.Sized Q) :
    ({ s with radio := x } : State).Sound P Q := { hs with radio := hx hs.radio }

theorem State.Sound.setClock {s : State} {x : ClockState} (hs : s.Sound P Q) (hx : s.clock.Sized Q → x.Sized Q) :
    ({ s with clock := x } : State).Sound P Q := { hs with clock := hx hs.clock }

theorem State.Sound.setLog {s : State} {x : List LogRecord} (hs : s.Sound P Q) : ({ s with log := x } : State).Sound P Q := { hs with }

theorem State.Sound.setIntN {s : State} {x : Bool} (hs : s.Sound P Q) : ({ s with intN := x } : State).Sound P Q := { hs with }

theorem State.Sound.setFaultN {s : State} {x : Bool} (hs : s.Sound P Q) : ({ s with faultN := x } : State).Sound P Q := { hs with }

theorem State.Sound.setCarriers {s : State} {x : List CarrierState} (hs : s.Sound P Q) (hx : (Q .carriers → s.carriers.length = 8) → Q .carriers → x.length = 8)
    (hb : ∀ l, Q (.begunAre l) → x.map (·.begun) = s.carriers.map (·.begun)) : ({ s with carriers := x } : State).Sound P Q :=
  { hs with carriers := hx hs.carriers, begunAre := fun l h => (hb l h).trans (hs.begunAre l h) }

theorem State.Sound.setCap {s : State} {x : CapState} (hs : s.Sound P Q) : ({ s with cap := x } : State).Sound P Q := { hs with }

theorem State.Sound.setObs {s : State} {x : List ObsGroup} (hs : s.Sound P Q) (hx : (Q .obs → s.obs.length = 8) → Q .obs → x.length = 8) :
    ({ s with obs := x } : State).Sound P Q := { hs with obs := hx hs.obs }

theorem State.Sound.setObsPath {s : State} {x : List ObsPath} (hs : s.Sound P Q) (hx : (Q .obsPath → s.obsPath.length = 64) → Q .obsPath → x.length = 64) :
    ({ s with obsPath := x } : State).Sound P Q := { hs with obsPath := hx hs.obsPath }

theorem State.Sound.setGates {s : State} {x : List GateEntry} (hs : s.Sound P Q) : ({ s with gates := x } : State).Sound P Q := { hs with }

theorem State.Sound.setTxBlocks {s : State} {x : List TxBlock} (hs : s.Sound P Q) : ({ s with txBlocks := x } : State).Sound P Q := { hs with }

theorem State.Sound.setTxDone {s : State} {x : Nat} (hs : s.Sound P Q) : ({ s with txDone := x } : State).Sound P Q := { hs with }

theorem State.Sound.setFree {s : State} {x : Nat} (hs : s.Sound P Q) : ({ s with free := x } : State).Sound P Q := { hs with }

theorem State.Sound.setBeam {s : State} {x : BeamState} (hs : s.Sound P Q) (hx : s.beam.Sized Q → x.Sized Q) :
    ({ s with beam := x } : State).Sound P Q := { hs with beam := hx hs.beam }

theorem State.Sound.setFh {s : State} {x : FhState} (hs : s.Sound P Q) (hx : s.fh.Sized Q → x.Sized Q) :
    ({ s with fh := x } : State).Sound P Q := { hs with fh := hx hs.fh }

theorem State.Sound.setHalls {s : State} {x : List Hall} (hs : s.Sound P Q) (hx : (Q .halls → s.halls.length = 136) → Q .halls → x.length = 136) :
    ({ s with halls := x } : State).Sound P Q := { hs with halls := hx hs.halls }

theorem State.Sound.setAlcoves {s : State} {x : List Alcove} (hs : s.Sound P Q) (hx : (Q .alcoves → s.alcoves.length = 8) → Q .alcoves → x.length = 8) :
    ({ s with alcoves := x } : State).Sound P Q := { hs with alcoves := hx hs.alcoves }

theorem State.Sound.setFlits {s : State} {x : List Flit} (hs : s.Sound P Q) : ({ s with flits := x } : State).Sound P Q := { hs with }

theorem State.Sound.setRouters {s : State} {x : List (Nat × List Nat)} (hs : s.Sound P Q) : ({ s with routers := x } : State).Sound P Q := { hs with }

theorem State.Sound.setStair {s : State} {x : StairState} (hs : s.Sound P Q) (hx : s.stair.Sized Q → x.Sized Q) :
    ({ s with stair := x } : State).Sound P Q := { hs with stair := hx hs.stair }

theorem State.Sound.setOta {s : State} {x : OtaState} (hs : s.Sound P Q) (hx : s.ota.Sized Q → x.Sized Q) :
    ({ s with ota := x } : State).Sound P Q := { hs with ota := hx hs.ota }

theorem State.Sound.setRecov {s : State} {x : RecState} (hs : s.Sound P Q) (hx : s.recov.Sized Q → x.Sized Q) :
    ({ s with recov := x } : State).Sound P Q := { hs with recov := hx hs.recov }

theorem State.Sound.setEnergy {s : State} {x : EnergyState} (hs : s.Sound P Q) (hx : s.energy.Sized Q → x.Sized Q) :
    ({ s with energy := x } : State).Sound P Q := { hs with energy := hx hs.energy }

theorem State.Sound.setHk {s : State} {x : HkState} (hs : s.Sound P Q) (hx : s.hk.Sized Q → x.Sized Q) :
    ({ s with hk := x } : State).Sound P Q := { hs with hk := hx hs.hk }

theorem State.Sound.setTimers {s : State} {x : List (Timer × Nat)} (hs : s.Sound P Q) : ({ s with timers := x } : State).Sound P Q := { hs with }

theorem State.Sound.setOut {s : State} {x : List Output} (hs : s.Sound P Q) : ({ s with out := x } : State).Sound P Q := { hs with }

theorem State.Sound.setPending {s : State} {x : List Instr} (hs : s.Sound P Q) : ({ s with pending := x } : State).Sound P Q := { hs with }

/-! ### Replacing two parts of the state -/

theorem State.Sound.setBeamGates {s : State} {x : BeamState} {g : List GateEntry} (hs : s.Sound P Q) (hx : s.beam.Sized Q → x.Sized Q) :
    ({ s with beam := x, gates := g } : State).Sound P Q := { hs with beam := hx hs.beam }

theorem State.Sound.setClockBoot {s : State} {x : ClockState} {b : BootState} (hs : s.Sound P Q) (hx : s.clock.Sized Q → x.Sized Q)
    (hb : s.boot.Sized Q → b.Sized Q) : ({ s with clock := x, boot := b } : State).Sound P Q := { hs with clock := hx hs.clock, boot := hb hs.boot }

theorem State.Sound.setBootTimers {s : State} {b : BootState} {t : List (Timer × Nat)} (hs : s.Sound P Q) (hb : s.boot.Sized Q → b.Sized Q) :
    ({ s with boot := b, timers := t } : State).Sound P Q := { hs with boot := hb hs.boot }

theorem State.Sound.setSecFree {s : State} {x : Security} {n : Nat} (hs : s.Sound P Q) : ({ s with sec := x, free := n } : State).Sound P Q :=
  { hs with }

theorem State.Sound.setTxBlocksDone {s : State} {n : Nat} {l : List TxBlock} (hs : s.Sound P Q) :
    ({ s with txDone := n, txBlocks := l } : State).Sound P Q := { hs with }

end Sound

end Sys2Proof.Machine
end

