-- ==== Sys2Proof/Proofs/SoundUnits.lean ====
section
/-!
Every operation of the block keeps the state sound, from the registers to the solver: one rule for each operation, whose proof follows its definition.
-/

namespace Sys2Proof.Machine

open Sys2Proof

section Sound

variable {P : Prop} {Q : Coll → Prop}

/-! ### Operations of Machine/State.lean -/

/-- The state of a reset at any instant. -/
theorem State.Sound.reset [hB : Fact (Symbolless Q)] {n : Nat} (hn : ∀ m, Q (.nowAt m) → n = m) :
    ({ State.reset with now := n } : State).Sound P Q := by
  constructor
  case now => exact hn
  case begunAre => exact hB.out.begunAre
  case regs => exact fun _ => (by decide : RegFile.wf State.reset.regs = true)
  case mem => exact fun _ => (by decide : Memory.wf State.reset.mem = true)
  case keep | boot | txn | radio | clock | beam | fh | stair | ota | recov | energy | hk => constructor <;> exact fun _ => rfl
  all_goals exact fun _ => rfl

/-! ### Operations of Machine/Ops.lean -/

theorem State.Sound.setWord {s : State} {a : Nat} {v : Word} (hs : s.Sound P Q) : (s.setWord a v).Sound P Q := by
  unfold State.setWord
  exact .setRegs hs fun h => RegFile.wf_write h _ _

theorem State.Sound.put {s : State} {f : Fld} {v : Nat} (hs : s.Sound P Q) : (s.put f v).Sound P Q := by
  unfold State.put
  exact .setWord hs

theorem State.Sound.putB {s : State} {f : Fld} {b : Bool} (hs : s.Sound P Q) : (s.putB f b).Sound P Q := by
  unfold State.putB
  exact .put hs

theorem State.Sound.putS {s : State} {f : Fld} {x : Int} (hs : s.Sound P Q) : (s.putS f x).Sound P Q := by
  unfold State.putS
  exact .put hs

theorem State.Sound.addTo {s : State} {f : Fld} {n : Nat} (hs : s.Sound P Q) : (s.addTo f n).Sound P Q := by
  unfold State.addTo
  exact .put hs

theorem State.Sound.bump {s : State} {f : Fld} (hs : s.Sound P Q) : (s.bump f).Sound P Q := by
  unfold State.bump
  exact .addTo hs

theorem State.Sound.putBit {s : State} {f : Fld} {i : Nat} {b : Bool} (hs : s.Sound P Q) : (s.putBit f i b).Sound P Q := by
  unfold State.putBit
  exact .put hs

theorem State.Sound.when {s : State} {b : Bool} {f : State → State} (hs : s.Sound P Q) (hf : ∀ s, s.Sound P Q → (f s).Sound P Q) :
    (s.when b f).Sound P Q := by
  unfold State.when
  exact .ite (hf _ hs) hs

theorem State.Sound.resetRange {s : State} {lo hi : Nat} (hs : s.Sound P Q) : (s.resetRange lo hi).Sound P Q := by
  unfold State.resetRange
  exact .setRegs hs fun h => State.regs_wf_resetRange h lo hi

theorem State.Sound.freeDue {s : State} (hs : s.Sound P Q) : (s.freeDue).Sound P Q := by
  unfold State.freeDue
  dsimp only
  exact .setTxn hs fun x => { x with slots := by simpa using x.slots }

theorem State.Sound.atTime [hQ : Fact (Timeless Q)] {s : State} {t : Nat} (hs : s.Sound P Q) : (s.atTime t).Sound P Q := by
  unfold State.atTime
  exact .freeDue (.setNow hQ.out hs)

theorem State.Sound.disarm {s : State} {x : Timer} (hs : s.Sound P Q) : (s.disarm x).Sound P Q := by
  unfold State.disarm
  exact .setTimers hs

theorem State.Sound.arm {s : State} {x : Timer} {t : Nat} (hs : s.Sound P Q) : (s.arm x t).Sound P Q := by
  unfold State.arm
  dsimp only
  exact .setTimers (.disarm hs)

theorem State.Sound.emit {s : State} {o : Output} (hs : s.Sound P Q) : (s.emit o).Sound P Q := by
  unfold State.emit
  exact .setOut hs

theorem State.Sound.modChan {s : State} {ch : Nat} {f : HostChan → HostChan} (hs : s.Sound P Q) : (s.modChan ch f).Sound P Q := by
  unfold State.modChan
  exact .setChans hs fun x => by simpa using x

theorem State.Sound.setSession {s : State} {n : Nat} {x : Option Session} (hs : s.Sound P Q) : (s.setSession n x).Sound P Q := by
  unfold State.setSession
  exact .setSessions hs fun x => by simpa using x

theorem State.Sound.modPath {s : State} {p : Nat} {f : PathState → PathState} (hs : s.Sound P Q) : (s.modPath p f).Sound P Q := by
  unfold State.modPath
  dsimp only
  exact .setRadio hs fun x => { x with paths := by simpa using x.paths }

theorem State.Sound.modBank {s : State} {b : Nat} {f : LoBank → LoBank} (hs : s.Sound P Q) : (s.modBank b f).Sound P Q := by
  unfold State.modBank
  dsimp only
  exact .setRadio hs fun x => { x with banks := by simpa using x.banks }

theorem State.Sound.modSlot {s : State} {n : Nat} {f : TxnSlot → TxnSlot} (hs : s.Sound P Q) : (s.modSlot n f).Sound P Q := by
  unfold State.modSlot
  dsimp only
  exact .setTxn hs fun x => { x with slots := by simpa using x.slots }

theorem State.Sound.idleWake {s : State} {src : Nat} (hs : s.Sound P Q) : (s.idleWake src).Sound P Q := by
  unfold State.idleWake
  dsimp only
  exact .ite (.setEnergy (.put hs) fun x => { x with }) (.ite (.setEnergy hs fun x => { x with }) hs)

theorem State.Sound.notifyDue {s : State} {bits : Nat} (hs : s.Sound P Q) : (s.notifyDue bits).Sound P Q := by
  unfold State.notifyDue
  exact .setSessions hs fun x => by simpa using x

theorem State.Sound.notice {s : State} {k : Notice} (hs : s.Sound P Q) : (s.notice k).Sound P Q := by
  unfold State.notice
  exact .notifyDue (.put hs)

theorem State.Sound.keepLog {s : State} {r : LogRecord} (hs : s.Sound P Q) : (s.keepLog r).Sound P Q := by
  unfold State.keepLog
  dsimp only
  exact .ite (.arm (.setKeep hs fun x => { x with })) (.bump hs)

theorem State.Sound.writeRecord {s : State} {x : Rec} (hs : s.Sound P Q) : (s.writeRecord x).Sound P Q := by
  unfold State.writeRecord
  dsimp only
  split
  · exact .keepLog (.when (.put (.setLog hs)) (fun _ h2 => .bump h2))
  · exact .keepLog (.put (.setLog hs))
  · exact .keepLog (.put (.setLog hs))
  · exact .put (.setLog hs)

theorem State.Sound.record {s : State} {x : Rec} (hs : s.Sound P Q) : (s.record x).Sound P Q := by
  unfold State.record
  exact .notice (.writeRecord hs)

theorem State.Sound.wedge {s : State} {f : Function} {x : Rec} (hs : s.Sound P Q) : (s.wedge f x).Sound P Q := by
  unfold State.wedge
  dsimp only
  exact .ite hs (.record (.put (.put hs)))

theorem State.Sound.drivePins {s : State} (hs : s.Sound P Q) : (s.drivePins).Sound P Q := by
  unfold State.drivePins
  exact { hs with }

theorem State.Sound.recordShot {s : State} (hs : s.Sound P Q) : (s.recordShot).Sound P Q := by
  unfold State.recordShot
  dsimp only
  exact .ite (.setRadio hs fun x => { x with }) hs

theorem State.Sound.settled {s : State} (hs : s.Sound P Q) : (s.settled).Sound P Q := by
  unfold State.settled
  exact .drivePins (.recordShot hs)

theorem State.Sound.memWrite {s : State} {off : Nat} {bs : List Byte} (hs : s.Sound P Q) : (s.memWrite off bs).Sound P Q := by
  unfold State.memWrite
  exact .setMem hs fun h => Memory.wf_writeBytes h _ _

theorem State.Sound.drew {s : State} {n : Nat} (hs : s.Sound P Q) : (s.drew n).Sound P Q := by
  unfold State.drew
  dsimp only
  exact .setSec hs

/-! ### Operations of Machine/RegStore.lean -/

theorem State.Sound.hostCmd [Fact (Timeless Q)] {s : State} {t ch a : Nat} {f : State → State} (hs : s.Sound P Q) (hf : ∀ s, s.Sound P Q → (f s).Sound P Q) :
    (s.hostCmd t ch a f).Sound P Q := by
  unfold State.hostCmd
  dsimp only
  exact .ite (hf _ (.atTime hs)) (.atTime hs)

/-! ### Operations of Machine/Hk.lean -/

theorem State.Sound.staleChannels {s : State} {chs : List Nat} (hs : s.Sound P Q) : (s.staleChannels chs).Sound P Q := by
  unfold State.staleChannels
  exact .forEach hs fun _ _ h1 => .put h1

theorem State.Sound.countFrom {s : State} {chs : List Nat} {at_ : Nat} (hs : s.Sound P Q) : (s.countFrom chs at_).Sound P Q := by
  unfold State.countFrom
  dsimp only
  exact .setHk hs fun x => { x with }

theorem State.Sound.noteVref {s : State} {ch : Nat} {mv : Int} (hs : s.Sound P Q) : (s.noteVref ch mv).Sound P Q := by
  unfold State.noteVref
  exact .ite (.putB hs) hs

theorem State.Sound.postEntry {s : State} {k ch avg code : Nat} (hs : s.Sound P Q) : (s.postEntry k ch avg code).Sound P Q := by
  unfold State.postEntry
  dsimp only
  exact .ite (.put hs) (.ite (.put (.setHk (.noteVref (.putB (.put (.put hs)))) fun x => { x with codes := by simpa using x.codes })) (.noteVref
    (.putB (.put (.put hs)))))

theorem State.Sound.entryDone {s : State} {k : Nat} {inputs : List Int} {ref : Nat} (hs : s.Sound P Q) : (s.entryDone k inputs ref).Sound P Q := by
  unfold State.entryDone
  dsimp only
  split
  · exact hs
  · exact .ite hs (.postEntry (.setHk hs fun x => { x with }))

theorem State.Sound.roundStart {s : State} (hs : s.Sound P Q) : (s.roundStart).Sound P Q := by
  unfold State.roundStart
  dsimp only
  exact .ite hs (.forEach (.putB { hs with clock := { hs.clock with }, hk := { hs.hk with } }) fun _ _ h1 => .setWord h1)

theorem State.Sound.injDrop {s : State} {cause ch : Nat} (hs : s.Sound P Q) : (s.injDrop cause ch).Sound P Q := by
  unfold State.injDrop
  exact .put (.put (.bump hs))

theorem State.Sound.dropPending {s : State} {cause : Nat} (hs : s.Sound P Q) : (s.dropPending cause).Sound P Q := by
  unfold State.dropPending
  dsimp only
  split
  · exact hs
  · exact .injDrop (.put (.setHk hs fun x => { x with }))

theorem State.Sound.calOver {s : State} {code : Nat} (hs : s.Sound P Q) : (s.calOver code).Sound P Q := by
  unfold State.calOver
  dsimp only
  exact .put (.put (.put (.setHk hs fun x => { x with })))

theorem State.Sound.calStopped {s : State} {code : Nat} (hs : s.Sound P Q) : (s.calStopped code).Sound P Q := by
  unfold State.calStopped
  exact .ite (.calOver hs) hs

theorem State.Sound.calCommand {s : State} {span : Bool} (hs : s.Sound P Q) : (s.calCommand span).Sound P Q := by
  unfold State.calCommand
  dsimp only
  exact .ite (.put (.put hs)) (.put (.put (.setHk (.dropPending hs) fun x => { x with })))

theorem State.Sound.setCoefs {s : State} {i : Nat} {w : Word} (hs : s.Sound P Q) : (s.setCoefs i w).Sound P Q := by
  unfold State.setCoefs
  dsimp only
  exact .setWord (.setHk hs fun x => { x with })

theorem State.Sound.sysCaptureDone {s : State} {inputs : List Int} {ref : Nat} (hs : s.Sound P Q) : (s.sysCaptureDone inputs ref).Sound P Q := by
  unfold State.sysCaptureDone
  dsimp only
  split
  · exact hs
  · exact .ite hs (by
      split
      · exact .calOver (.setHk (.put hs) fun x => { x with })
      · exact .calOver (.putB (.setCoefs (.put hs))))

theorem State.Sound.stopRounds {s : State} (hs : s.Sound P Q) : (s.stopRounds).Sound P Q := by
  unfold State.stopRounds
  dsimp only
  exact .forEach (.setHk hs fun x => { x with codes := by simp }) fun _ _ h1 => .put (.put h1)

theorem State.Sound.hkaFault {s : State} (hs : s.Sound P Q) : (s.hkaFault).Sound P Q := by
  unfold State.hkaFault
  dsimp only
  exact .ite hs (.record (.when (.calStopped (.dropPending (.put (.put hs)))) (fun _ h1 => .stopRounds h1)))

theorem State.Sound.hkbFault {s : State} (hs : s.Sound P Q) : (s.hkbFault).Sound P Q := by
  unfold State.hkbFault
  dsimp only
  exact .when (.calStopped (.dropPending (.put hs))) (fun _ h1 => .stopRounds h1)

theorem State.Sound.conversionTimeout {s : State} (hs : s.Sound P Q) : (s.conversionTimeout).Sound P Q := by
  unfold State.conversionTimeout
  dsimp only
  exact .ite hs (.ite (.hkbFault (.setHk hs fun x => { x with })) (.hkaFault (.setHk hs fun x => { x with })))

theorem State.Sound.inject {s : State} (hs : s.Sound P Q) : (s.inject).Sound P Q := by
  unfold State.inject
  dsimp only
  exact .ite (.injDrop hs) (.ite (.injDrop hs) (.ite (.injDrop hs) (.ite (.injDrop hs) (.ite (.injDrop hs) (.ite (.injDrop hs) (.put
    (.setHk hs fun x => { x with })))))))

theorem State.Sound.injPost {s : State} {j : Injection} {began code : Nat} (hs : s.Sound P Q) : (s.injPost j began code).Sound P Q := by
  unfold State.injPost
  dsimp only
  exact .put (.put (.ite (.noteVref (.putB (.put (.put (.setHk hs fun x => { x with }))))) (.forEach (.noteVref (.putB (.put (.put
    (.setHk hs fun x => { x with }))))) fun _ _ h1 => .put h1)))

theorem State.Sound.injectDone {s : State} {inputs : List Int} {ref : Nat} (hs : s.Sound P Q) : (s.injectDone inputs ref).Sound P Q := by
  unfold State.injectDone
  dsimp only
  split
  · exact hs
  · exact .ite hs (.ite (.dropPending hs) (.ite hs (.injPost hs)))

theorem State.Sound.storeHk {s : State} {a : Nat} {v : Word} (hs : s.Sound P Q) : (s.storeHk a v).Sound P Q := by
  unfold State.storeHk
  dsimp only
  exact .setWord hs

theorem State.Sound.hkCtl {s : State} {v : Word} (hs : s.Sound P Q) : (s.hkCtl v).Sound P Q := by
  unfold State.hkCtl
  dsimp only
  exact .ite (.storeHk hs) (.calStopped (.staleChannels (.countFrom (.put (.setHk (.storeHk hs) fun x => { x with })))))

theorem State.Sound.hkInj {s : State} {v : Word} (hs : s.Sound P Q) : (s.hkInj v).Sound P Q := by
  unfold State.hkInj
  exact .when (.storeHk hs) (fun _ h1 => .inject h1)

theorem State.Sound.hkSyscal {s : State} {v : Word} (hs : s.Sound P Q) : (s.hkSyscal v).Sound P Q := by
  unfold State.hkSyscal
  dsimp only
  exact .ite (.calCommand (.storeHk hs)) (.ite (.calCommand (.storeHk hs)) (.ite (.calStopped (.storeHk hs)) (.storeHk hs)))

theorem State.Sound.hkWrite {s : State} {a : Nat} {v : Word} (hs : s.Sound P Q) : (s.hkWrite a v).Sound P Q := by
  unfold State.hkWrite
  dsimp only
  exact .ite (.hkCtl hs) (.ite (.hkInj hs) (.ite (.hkSyscal hs) (.ite hs (.ite (.setCoefs hs) (.storeHk hs)))))

theorem State.Sound.refSettled {s : State} (hs : s.Sound P Q) : (s.refSettled).Sound P Q := by
  unfold State.refSettled
  split
  · exact .ite (.put hs) hs
  · exact hs

theorem State.Sound.unsettle {s : State} {chs : List Nat} {at_ : Nat} (hs : s.Sound P Q) : (s.unsettle chs at_).Sound P Q := by
  unfold State.unsettle
  exact .staleChannels (.countFrom hs)

theorem State.Sound.bandgapWritten {s : State} (hs : s.Sound P Q) : (s.bandgapWritten).Sound P Q := by
  unfold State.bandgapWritten
  dsimp only
  exact .unsettle (.put (.setHk hs fun x => { x with }))

theorem State.Sound.trimTouched {s : State} {a : Nat} (hs : s.Sound P Q) : (s.trimTouched a).Sound P Q := by
  unfold State.trimTouched
  dsimp only
  exact .ite (.bandgapWritten hs) (.ite (.unsettle hs) (.ite (.unsettle hs) (.ite (.unsettle hs) hs)))

theorem State.Sound.writeTrim {s : State} {a : Nat} {v : Word} (hs : s.Sound P Q) : (s.writeTrim a v).Sound P Q := by
  unfold State.writeTrim
  dsimp only
  exact .ite hs (.ite (.put hs) (.trimTouched (.setTrims hs)))

theorem State.Sound.trimReload {s : State} (hs : s.Sound P Q) : (s.trimReload).Sound P Q := by
  unfold State.trimReload
  dsimp only
  exact .put (.setHk hs fun x => { x with })

theorem State.Sound.trimWritten {s : State} {a : Nat} {v : Word} (hs : s.Sound P Q) : (s.trimWritten a v).Sound P Q := by
  unfold State.trimWritten
  exact .ite (.when hs (fun _ h1 => .trimReload h1)) (.ite (.storeHk hs) (.writeTrim hs))

theorem State.Sound.trimsCopied {s : State} (hs : s.Sound P Q) : (s.trimsCopied).Sound P Q := by
  have h1 : ({ s with trims := [], trimsLoaded := true, hk := { s.hk with copying := false } } : State).Sound P Q := { hs with hk := { hs.hk with } }
  unfold State.trimsCopied
  dsimp only
  exact .when (.forEach (.put (.put (.ite h1 { h1 with }))) fun _ _ h => .record (.put h)) fun _ h => .bandgapWritten h

theorem State.Sound.bandgapSettled {s : State} (hs : s.Sound P Q) : (s.bandgapSettled).Sound P Q := by
  unfold State.bandgapSettled
  split
  · exact .ite (.put hs) hs
  · exact hs

/-! ### Operations of Machine/Plan.lean -/

theorem State.Sound.allocWrite {s : State} {k o : Nat} {bs : List Byte} (hs : s.Sound P Q) : (s.allocWrite k o bs).Sound P Q := by
  unfold State.allocWrite
  dsimp only
  refine .setMem hs fun h => List.foldlRecOn (motive := fun m => Memory.wf m = true) _ _ h fun m hm e _ => ?_
  split
  · exact Memory.wf_write hm _ _
  · exact hm

/-! ### Operations of Machine/Carriers.lean -/

theorem map_modify_of_forall {α β : Type} (l : List α) (i : Nat) {f : α → α} {g : α → β} (h : ∀ x, g (f x) = g x) : (l.modify i f).map g = l.map g := by
  refine List.ext_getElem? fun j => ?_
  rw [List.getElem?_map, List.getElem?_map, List.getElem?_modify]
  split
  · cases l[j]? with
    | none => rfl
    | some x => exact congrArg some (h x)
  · cases l[j]? <;> rfl

theorem State.Sound.modCar {s : State} {c : Nat} {f : CarrierState → CarrierState} (hs : s.Sound P Q)
    (hf : ∀ x, (f x).begun = x.begun := by exact fun _ => rfl) : (s.modCar c f).Sound P Q := by
  unfold State.modCar
  exact .setCarriers hs (fun x => by simpa using x) fun _ _ => map_modify_of_forall _ _ hf

/-- A carrier may begin a symbol where the predicate does not speak of it. -/
theorem State.Sound.beginCar [hB : Fact (Symbolless Q)] {s : State} {c : Nat} {f : CarrierState → CarrierState} (hs : s.Sound P Q) :
    (s.modCar c f).Sound P Q := by
  unfold State.modCar
  exact .setCarriers hs (fun x => by simpa using x) fun l h => absurd h (hB.out l)

theorem State.Sound.showForm {s : State} {c : Nat} (hs : s.Sound P Q) : (s.showForm c).Sound P Q := by
  unfold State.showForm
  dsimp only
  exact .put (.put (.put (.put (.put (.put hs)))))

theorem State.Sound.showLatency {s : State} {c : Nat} (hs : s.Sound P Q) : (s.showLatency c).Sound P Q := by
  unfold State.showLatency
  dsimp only
  exact .put (.put (.put hs))

theorem State.Sound.dueStart {s : State} {c a : Nat} {r : CarrierRec} (hs : s.Sound P Q) : (s.dueStart c a r).Sound P Q := by
  unfold State.dueStart
  dsimp only
  exact .showForm (.put (.modCar hs))

theorem State.Sound.decideStop {s : State} {c a : Nat} {next : Option CarrierRec} (hs : s.Sound P Q) : (s.decideStop c a next).Sound P Q := by
  unfold State.decideStop
  dsimp only
  exact .ite (.put (.modCar hs)) (by
      split
      · exact .dueStart hs
      · exact .showForm (.put (.modCar hs)))

theorem State.Sound.newTxnId {s : State} (hs : s.Sound P Q) : (s.newTxnId).2.Sound P Q := by
  unfold State.newTxnId
  dsimp only
  exact .setTxn hs fun x => { x with }

theorem State.Sound.addCommit {s : State} {x : Commit} (hs : s.Sound P Q) : (s.addCommit x).Sound P Q := by
  unfold State.addCommit
  dsimp only
  exact .setTxn hs fun x => { x with }

theorem State.Sound.internalAt {s : State} {a : Nat} {effects : List Effect} (hs : s.Sound P Q) : (s.internalAt a effects).Sound P Q := by
  unfold State.internalAt
  dsimp only
  exact .addCommit (.newTxnId hs)

theorem State.Sound.internalTxn {s : State} {effects : List Effect} (hs : s.Sound P Q) : (s.internalTxn effects).Sound P Q := by
  unfold State.internalTxn
  exact .internalAt hs

theorem State.Sound.degraded {s : State} {c n : Nat} (hs : s.Sound P Q) : (s.degraded c n).Sound P Q := by
  unfold State.degraded
  dsimp only
  exact .ite hs (.ite (.modCar hs) (.bump (.modCar hs)))

theorem State.Sound.countDegraded {s : State} {c n : Nat} (hs : s.Sound P Q) : (s.countDegraded c n).Sound P Q := by
  unfold State.countDegraded
  exact .ite (.bump (.modCar hs)) hs

theorem State.Sound.missedIn {s : State} {f : Nat → Fld} {c n : Nat} {dl : Bool} (hs : s.Sound P Q) : (s.missedIn f c n dl).Sound P Q := by
  unfold State.missedIn
  dsimp only
  exact .ite hs (.bump (.modCar hs fun _ => by split <;> rfl))

theorem State.Sound.missed {s : State} {c n : Nat} {dl : Bool} (hs : s.Sound P Q) : (s.missed c n dl).Sound P Q := by
  unfold State.missed
  exact .missedIn hs

/-! ### Operations of Machine/Links.lean -/

theorem State.Sound.modSPort {s : State} {n : Nat} {f : StairPort → StairPort} (hs : s.Sound P Q) : (s.modSPort n f).Sound P Q := by
  unfold State.modSPort
  dsimp only
  exact .setStair hs fun x => { x with ports := by simpa using x.ports }

theorem State.Sound.modSLane {s : State} {i : Nat} {f : StairLane → StairLane} (hs : s.Sound P Q) : (s.modSLane i f).Sound P Q := by
  unfold State.modSLane
  dsimp only
  exact .setStair hs fun x => { x with lanes := by simpa using x.lanes }

theorem State.Sound.modTree {s : State} {f : TreeState → TreeState} (hs : s.Sound P Q) : (s.modTree f).Sound P Q := by
  unfold State.modTree
  dsimp only
  exact .setStair hs fun x => { x with }

theorem State.Sound.showLanes {s : State} {n : Nat} (hs : s.Sound P Q) : (s.showLanes n).Sound P Q := by
  unfold State.showLanes
  exact .put hs

theorem State.Sound.lanesBegin {s : State} {lanes : List Nat} (hs : s.Sound P Q) : (s.lanesBegin lanes).Sound P Q := by
  unfold State.lanesBegin
  dsimp only
  exact .forEach hs fun _ _ h1 => .modSLane h1

theorem State.Sound.padLanes {s : State} {n : Nat} (hs : s.Sound P Q) : (s.padLanes n).Sound P Q := by
  unfold State.padLanes
  dsimp only
  exact .ite hs (.ite (.forEach hs fun _ _ h1 => .modSLane h1) (.emit (.modSPort (.forEach hs fun _ _ h1 => .modSLane h1))))

theorem State.Sound.onLane {s : State} {i : Nat} {w : Codeword} (hs : s.Sound P Q) : (s.onLane i w).Sound P Q := by
  unfold State.onLane
  dsimp only
  exact .ite (.put (.modSPort (.modSLane (.emit hs)))) (.modSPort (.modSLane (.emit hs)))

theorem State.Sound.dealCodeword {s : State} {n : Nat} {msg : Option StairMsg} {load : StairMsg × Nat × Nat} (hs : s.Sound P Q) :
    (s.dealCodeword n msg load).Sound P Q := by
  unfold State.dealCodeword
  dsimp only
  split
  · exact .onLane (.modSPort hs)
  · exact .modSPort hs

theorem State.Sound.sendUnit {s : State} {n : Nat} {m : StairMsg} {u : Nat} (hs : s.Sound P Q) : (s.sendUnit n m u).Sound P Q := by
  unfold State.sendUnit
  dsimp only
  exact .ite (.emit (.forEach (.padLanes hs) fun _ _ h1 => .dealCodeword h1)) (.forEach (.padLanes hs) fun _ _ h1 => .dealCodeword h1)

theorem State.Sound.drainUnits {s : State} {n x : Nat} (hs : s.Sound P Q) : (s.drainUnits n x).Sound P Q := by
  induction x generalizing s with
  | zero => exact hs
  | succ k ih =>
    unfold State.drainUnits
    split
    · exact hs
    · exact .ite hs (ih (.sendUnit (.modSPort hs)))

theorem State.Sound.drainStair {s : State} {n : Nat} (hs : s.Sound P Q) : (s.drainStair n).Sound P Q := by
  unfold State.drainStair
  exact .drainUnits hs

theorem State.Sound.sendOn {s : State} {n : Nat} {m : StairMsg} (hs : s.Sound P Q) : (s.sendOn n m).Sound P Q := by
  unfold State.sendOn
  exact .ite (.drainStair (.modSPort hs)) hs

theorem State.Sound.sendUp {s : State} {m : StairMsg} (hs : s.Sound P Q) : (s.sendUp m).Sound P Q := by
  unfold State.sendUp
  split
  · exact .sendOn hs
  · exact hs

theorem State.Sound.sendDown {s : State} {m : StairMsg} (hs : s.Sound P Q) : (s.sendDown m).Sound P Q := by
  unfold State.sendDown
  exact .forEach hs fun _ _ h1 => .sendOn h1

theorem State.Sound.sendTo {s : State} {landing : Nat} {m : StairMsg} (hs : s.Sound P Q) : (s.sendTo landing m).Sound P Q := by
  unfold State.sendTo
  split
  · exact .sendOn hs
  · exact hs

theorem State.Sound.sendConfirmed {s : State} {m : StairMsg} (hs : s.Sound P Q) : (s.sendConfirmed m).Sound P Q := by
  unfold State.sendConfirmed
  exact .ite (.sendUp hs) (.modTree hs)

theorem State.Sound.markStale {s : State} (hs : s.Sound P Q) : (s.markStale).Sound P Q := by
  unfold State.markStale
  dsimp only
  exact .ite (.setOta (.setOta (.put hs) fun x => { x with }) fun x => { x with }) (.sendUp (.setOta (.put hs) fun x => { x with }))

theorem State.Sound.otaEnd {s : State} {cause : Nat} (hs : s.Sound P Q) : (s.otaEnd cause).Sound P Q := by
  unfold State.otaEnd
  dsimp only
  exact .setOta (.put (.put (.ite hs (.put hs)))) fun x => { x with captures := by simp }

theorem State.Sound.otaAbandon {s : State} (hs : s.Sound P Q) : (s.otaAbandon).Sound P Q := by
  unfold State.otaAbandon
  exact .ite hs (.otaEnd hs)

theorem State.Sound.otaInForce {s : State} {total : Nat} (hs : s.Sound P Q) : (s.otaInForce total).Sound P Q := by
  unfold State.otaInForce
  dsimp only
  exact .ite (.put (.setOta (.put hs) fun x => { x with tau := x.newTau, rho := x.newRho }))
    (.setOta (.put hs) fun x => { x with tau := x.newTau, rho := x.newRho })

/-! ### Operations of Machine/Paths.lean -/

theorem State.Sound.modObs {s : State} {p : Nat} {f : ObsPath → ObsPath} (hs : s.Sound P Q) : (s.modObs p f).Sound P Q := by
  unfold State.modObs
  exact .setObsPath hs fun x => by simpa using x

theorem State.Sound.setMute {s : State} {p bit : Nat} {on : Bool} (hs : s.Sound P Q) : (s.setMute p bit on).Sound P Q := by
  unfold State.setMute
  exact .ite hs (.putBit hs)

theorem State.Sound.muteByLo {s : State} {b : Nat} (hs : s.Sound P Q) : (s.muteByLo b).Sound P Q := by
  unfold State.muteByLo
  exact .forEach hs fun _ _ h1 => .setMute h1

theorem State.Sound.freezeFor {s : State} {p ns : Nat} (hs : s.Sound P Q) : (s.freezeFor p ns).Sound P Q := by
  unfold State.freezeFor
  exact .modPath hs

theorem State.Sound.setGain {s : State} {p g : Nat} (hs : s.Sound P Q) : (s.setGain p g).Sound P Q := by
  unfold State.setGain
  exact .ite hs (.freezeFor (.modPath hs))

theorem State.Sound.updatePath {s : State} {p : Nat} (hs : s.Sound P Q) : (s.updatePath p).Sound P Q := by
  unfold State.updatePath
  dsimp only
  exact .modPath (.ite (.setGain (.setMute (.modPath hs))) (.setMute (.modPath hs)))

theorem State.Sound.updatePaths {s : State} (hs : s.Sound P Q) : (s.updatePaths).Sound P Q := by
  unfold State.updatePaths
  exact .forEach (.setTrimsRx hs) fun _ _ h1 => .updatePath h1

theorem State.Sound.calReport {s : State} {p result precond code : Nat} {lost : Bool} (hs : s.Sound P Q) :
    (s.calReport p result precond code lost).Sound P Q := by
  unfold State.calReport
  dsimp only
  exact .put (.putB (.put (.put (.put hs))))

theorem State.Sound.calClear {s : State} {p : Nat} (hs : s.Sound P Q) : (s.calClear p).Sound P Q := by
  unfold State.calClear
  dsimp only
  exact .ite (.emit (.disarm (.setMute (.ite (.put (.put (.put (.modPath hs)))) (.put (.put (.modPath hs))))))) (.disarm (.setMute (.ite (.put (.put
    (.put (.modPath hs)))) (.put (.put (.modPath hs))))))

theorem State.Sound.calLost {s : State} {p precond : Nat} (hs : s.Sound P Q) : (s.calLost p precond).Sound P Q := by
  unfold State.calLost
  split
  · exact .ite (.calReport (.calClear hs)) hs
  · exact hs

theorem State.Sound.calRefuse {s : State} {p precond : Nat} (hs : s.Sound P Q) : (s.calRefuse p precond).Sound P Q := by
  unfold State.calRefuse
  split
  · exact .ite (.calLost hs) (.ite (.calReport (.calClear hs)) hs)
  · exact hs

theorem State.Sound.applyService {s : State} {p : Nat} {on : Bool} (hs : s.Sound P Q) : (s.applyService p on).Sound P Q := by
  unfold State.applyService
  dsimp only
  exact .ite hs (.ite (.markStale (.modObs (.setMute (.put (.ite (.calLost hs) hs))))) (.setMute (.put (.ite (.calLost hs) hs))))

theorem State.Sound.retireRecord {s : State} {p detected : Nat} (hs : s.Sound P Q) : (s.retireRecord p detected).Sound P Q := by
  unfold State.retireRecord
  dsimp only
  exact .notice (.record hs)

theorem State.Sound.retire {s : State} {p cause : Nat} (hs : s.Sound P Q) : (s.retire p cause).Sound P Q := by
  unfold State.retire
  dsimp only
  exact .ite hs (.ite (.retireRecord (.modPath (.calRefuse (.setMute (.put (.put hs)))))) (.internalAt (.modPath (.calRefuse (.setMute (.put
    (.put hs)))))))

/-! ### Operations of Machine/Fem.lean -/

theorem State.Sound.femStore {s : State} {p : Nat} {stores : List (Nat × Nat)} (hs : s.Sound P Q) : (s.femStore p stores).Sound P Q := by
  unfold State.femStore
  exact .forEach hs fun _ _ h1 => .put h1

theorem State.Sound.femLeave {s : State} {p : Nat} {r : FemRun} (hs : s.Sound P Q) : (s.femLeave p r).Sound P Q := by
  unfold State.femLeave
  dsimp only
  exact .ite (.put (.putBit (.put (.femStore (.forEach hs fun _ _ h1 => .emit h1))))) (.putBit (.put (.femStore
    (.forEach hs fun _ _ h1 => .emit h1))))

theorem State.Sound.femRun {s : State} {p entry : Nat} {replies : List (Option Byte)} (hs : s.Sound P Q) :
    (s.femRun p entry replies).1.Sound P Q := by
  unfold State.femRun
  dsimp only
  exact .femLeave hs

theorem State.Sound.femCheck {s : State} {p entry : Nat} {x : List Nat} {x' : List (Option Byte)} {x'' : FemResult} (hs : s.Sound P Q) :
    (s.femCheck p entry x x' x'').1.Sound P Q := by
  induction x generalizing s x' x'' with
  | nil => exact hs
  | cons q rest ih =>
    unfold State.femCheck
    dsimp only
    split
    · exact .femLeave hs
    · exact ih (.femLeave hs)

theorem State.Sound.femReady {s : State} {p : Nat} {on : Bool} (hs : s.Sound P Q) : (s.femReady p on).Sound P Q := by
  unfold State.femReady
  dsimp only
  exact .setRadio hs fun x => { x with femReady := by simpa using x.femReady }

theorem State.Sound.femOutcome {s : State} {ev : FemEvent} {p : Nat} {r : FemResult} (hs : s.Sound P Q) : (s.femOutcome ev p r).Sound P Q := by
  unfold State.femOutcome
  dsimp only
  split
  · exact .femReady hs
  · exact .ite (.retire (.modPath hs)) (.modPath hs)
  · exact hs
  · exact hs
  · exact hs
  · exact hs

theorem State.Sound.femServe {s : State} {ev : FemEvent} {entry : Nat} {x : List (Nat × List (Option Byte))} (hs : s.Sound P Q) :
    (s.femServe ev entry x).Sound P Q := by
  induction x generalizing s with
  | nil => exact hs
  | cons e rest ih =>
    unfold State.femServe
    exact .ite (.femOutcome (.femRun hs)) (ih (.femOutcome (.femRun hs)))

theorem State.Sound.femEvent {s : State} {g : Nat} {ev : FemEvent} {replies : List (List (Option Byte))} (hs : s.Sound P Q) :
    (s.femEvent g ev replies).Sound P Q := by
  unfold State.femEvent
  exact .ite (.femServe hs) hs

theorem State.Sound.initEnds {s : State} {g : Nat} (hs : s.Sound P Q) : (s.initEnds g).Sound P Q := by
  unfold State.initEnds
  dsimp only
  exact .ite (.setRadio hs fun x => { x with initDone := by simpa using x.initDone }) hs

theorem State.Sound.initBegins {s : State} (hs : s.Sound P Q) : (s.initBegins).Sound P Q := by
  unfold State.initBegins
  dsimp only
  exact .ite (.setRadio hs fun x => { x with initDone := by simp }) hs

theorem State.Sound.femArises {s : State} {ev : FemEvent} (hs : s.Sound P Q) : (s.femArises ev).Sound P Q := by
  unfold State.femArises
  dsimp only
  exact .setRadio hs fun x => { x with femDue := by simp }

theorem State.Sound.femTaken {s : State} {g : Nat} (hs : s.Sound P Q) : (s.femTaken g).Sound P Q := by
  unfold State.femTaken
  dsimp only
  exact .setRadio hs fun x => { x with femDue := by simpa using x.femDue }

theorem State.Sound.femFlush {s : State} (hs : s.Sound P Q) : (s.femFlush).Sound P Q := by
  unfold State.femFlush
  dsimp only
  exact .forEach hs fun _ _ h1 => by
      split
      · exact .setFree (.femEvent (.femTaken h1))
      · exact h1

theorem State.Sound.femCommand {s : State} {g : Nat} {ev : FemEvent} {replies : List (List (Option Byte))} (hs : s.Sound P Q) :
    (s.femCommand g ev replies).Sound P Q := by
  unfold State.femCommand
  split
  · exact .ite (.initEnds (.femEvent hs)) hs
  · exact .ite (.femEvent (.femTaken hs)) hs
  · exact .ite (.femEvent (.femTaken hs)) hs
  · exact .femEvent hs
  · exact .femEvent hs
  · exact .femEvent hs

theorem State.Sound.initTimeout {s : State} {g served : Nat} (hs : s.Sound P Q) : (s.initTimeout g served).Sound P Q := by
  unfold State.initTimeout
  exact .ite (.initEnds (.forEach hs fun _ _ h1 => .femReady (.putBit h1))) hs

/-! ### Operations of Machine/Calibration.lean -/

theorem State.Sound.calRun {s : State} {p code : Nat} (hs : s.Sound P Q) : (s.calRun p code).Sound P Q := by
  unfold State.calRun
  dsimp only
  exact .ite (.emit (.setMute (.setObs (.arm (.ite (.put (.put (.put (.modPath hs)))) (.put (.put (.modPath hs))))) fun x => by simpa using x))) (.arm
    (.ite (.put (.put (.put (.modPath hs)))) (.put (.put (.modPath hs)))))

theorem State.Sound.calCheck {s : State} {p : Nat} {tx : Bool} {fem : List (Option Byte)} (hs : s.Sound P Q) :
    (s.calCheck p tx fem).1.Sound P Q := by
  have h1 {entry : Nat} {l : List Nat} {r : FemResult} : (s.femCheck p entry l fem r).1.Sound P Q := .femCheck hs
  unfold State.calCheck
  dsimp only
  generalize s.femEntry (groupOf p) (if tx then .paCheck else .rxCheck) = entry
  split
  · exact hs
  · split
    · exact hs
    · exact h1

theorem State.Sound.calAccept {s : State} {p code : Nat} (hs : s.Sound P Q) : (s.calAccept p code).Sound P Q := by
  unfold State.calAccept
  dsimp only
  exact .ite (.put (.modPath hs)) (.calRun hs)

theorem State.Sound.calRequestCheck {s : State} {p code : Nat} {rx tx : List (Option Byte)} (hs : s.Sound P Q) :
    (s.calRequestCheck p code rx tx).1.Sound P Q := by
  unfold State.calRequestCheck
  dsimp only
  split
  · exact hs
  · split
    · exact .calCheck hs
    · split
      · exact .calCheck hs
      · split
        · exact .calCheck hs
        · exact .calCheck (.calCheck hs)

theorem State.Sound.calRequest {s : State} {p code : Nat} {rx tx : List (Option Byte)} (hs : s.Sound P Q) :
    (s.calRequest p code rx tx).Sound P Q := by
  unfold State.calRequest
  dsimp only
  exact .ite (.calReport hs) (.ite (.calReport hs) (.ite (.calReport (.calRequestCheck hs)) (.calAccept (.calRequestCheck hs))))

theorem State.Sound.calApply {s : State} {p : Nat} {r : CalResult} (hs : s.Sound P Q) : (s.calApply p r).Sound P Q := by
  unfold State.calApply
  dsimp only
  exact .ite (.modPath (.putS (.putS hs))) (.ite (.modPath (.forEach hs fun _ _ h1 => .putS (.putS h1))) (.ite (.putS (.putS hs)) (.ite
    (.forEach hs fun _ _ h1 => .putS (.putS h1)) (.ite (.setObs hs fun x => by simpa using x) hs))))

theorem State.Sound.calEffects {s : State} {p code : Nat} (hs : s.Sound P Q) : (s.calEffects p code).Sound P Q := by
  unfold State.calEffects
  dsimp only
  exact .ite (.modObs (.ite (.put (.ite (.put hs) hs)) (.ite (.put hs) hs))) (.ite (.put (.ite (.put hs) hs)) (.ite (.put hs) hs))

theorem State.Sound.calCancelled {s : State} {p : Nat} (hs : s.Sound P Q) : (s.calCancelled p).Sound P Q := by
  unfold State.calCancelled
  split
  · exact .calReport (.calClear hs)
  · exact hs

theorem State.Sound.calStarted {s : State} {p : Nat} (hs : s.Sound P Q) : (s.calStarted p).Sound P Q := by
  unfold State.calStarted
  split
  · exact .ite hs (.ite (.calRefuse hs) (.ite hs (.calRun hs)))
  · exact hs

theorem State.Sound.calDone {s : State} {p : Nat} {results : List CalResult} (hs : s.Sound P Q) : (s.calDone p results).Sound P Q := by
  unfold State.calDone
  dsimp only
  split
  · exact .ite (.calReport (.ite (.calEffects (.forEach (.calClear hs) fun _ _ h2 => .calApply h2)) (.forEach
      (.calClear hs) fun _ _ h2 => .calApply h2))) hs
  · exact hs

/-! ### Operations of Machine/Radio.lean -/

theorem State.Sound.dcBlock {s : State} {p : Nat} {samples : List Cplx} (hs : s.Sound P Q) : (s.dcBlock p samples).Sound P Q := by
  unfold State.dcBlock
  dsimp only
  exact .ite (.modPath hs) hs

theorem State.Sound.iqWindow {s : State} {p : Nat} {power : Int} {residual : List Cplx} (hs : s.Sound P Q) :
    (s.iqWindow p power residual).Sound P Q := by
  unfold State.iqWindow
  dsimp only
  exact .ite hs (.ite (.forEach (.modPath hs) fun _ _ h1 => .putS (.putS h1)) (.modPath hs))

theorem State.Sound.countBlankTx {s : State} {g c n : Nat} (hs : s.Sound P Q) : (s.countBlankTx g c n).Sound P Q := by
  unfold State.countBlankTx
  dsimp only
  exact .ite hs (.addTo (.setRadio hs fun x => { x with }))

theorem State.Sound.countBlankRx {s : State} {g c n : Nat} (hs : s.Sound P Q) : (s.countBlankRx g c n).Sound P Q := by
  unfold State.countBlankRx
  dsimp only
  exact .ite hs (.addTo (.setRadio hs fun x => { x with }))

theorem State.Sound.countBlanked {s : State} {g : Nat} {tx rx : Bool} (hs : s.Sound P Q) : (s.countBlanked g tx rx).Sound P Q := by
  unfold State.countBlanked
  dsimp only
  exact .forEach hs fun _ _ h1 => .ite (.countBlankRx (.ite (.countBlankTx h1) h1)) (.ite (.countBlankTx h1) h1)

theorem State.Sound.blankFollow {s before : State} (hs : s.Sound P Q) : (s.blankFollow before).Sound P Q := by
  unfold State.blankFollow
  dsimp only
  exact .forEach hs fun _ _ h1 => .forEach (.ite (.setRadio (.ite (.setRadio
    (.countBlanked h1) fun x => { x with blankedAt := by simpa using x.blankedAt }) (.countBlanked h1)) fun x => { x with }) (.ite (.setRadio (.ite
    (.setRadio (.countBlanked h1) fun x => { x with blankedAt := by simpa using x.blankedAt }) (.countBlanked h1)) fun x => { x with }) (.ite
    (.setRadio (.countBlanked h1) fun x => { x with blankedAt := by simpa using x.blankedAt }) (.countBlanked h1)))) fun _ _ h2 => .ite (.calLost
    (.ite (.modPath (.setMute h2)) (.setMute h2))) (.ite (.modPath (.setMute h2)) (.setMute h2))

theorem State.Sound.setBlank {s : State} {n : Nat} {on : Bool} (hs : s.Sound P Q) : (s.setBlank n on).Sound P Q := by
  unfold State.setBlank
  dsimp only
  exact .blankFollow (.setRadio hs fun x => { x with blank := by simpa using x.blank })

/-! ### Operations of Machine/Lo.lean -/

theorem State.Sound.showDither {s : State} {b : Nat} (hs : s.Sound P Q) : (s.showDither b).Sound P Q := by
  unfold State.showDither
  dsimp only
  exact .putB hs

theorem State.Sound.loEnter {s : State} {b st : Nat} (hs : s.Sound P Q) : (s.loEnter b st).Sound P Q := by
  unfold State.loEnter
  exact .showDither (.put hs)

theorem State.Sound.loSeeded {s : State} {b : Nat} (hs : s.Sound P Q) : (s.loSeeded b).Sound P Q := by
  unfold State.loSeeded
  dsimp only
  exact .modBank hs

theorem State.Sound.loStart {s : State} {b : Nat} (hs : s.Sound P Q) : (s.loStart b).Sound P Q := by
  unfold State.loStart
  dsimp only
  exact .arm (.modBank (.loSeeded (.put (.loEnter hs))))

theorem State.Sound.xfeedLost {s : State} (hs : s.Sound P Q) : (s.xfeedLost).Sound P Q := by
  unfold State.xfeedLost
  dsimp only
  exact .setClock (.put hs) fun x => { x with }

theorem State.Sound.loToBand {s : State} {b : Nat} (hs : s.Sound P Q) : (s.loToBand b).Sound P Q := by
  unfold State.loToBand
  dsimp only
  exact .arm (.modBank (.loSeeded (.put (.loEnter (.xfeedLost hs)))))

theorem State.Sound.loLeft {s : State} {b : Nat} (hs : s.Sound P Q) : (s.loLeft b).Sound P Q := by
  unfold State.loLeft
  exact .markStale (.forEach hs fun _ _ h1 => .calLost (.modObs h1))

theorem State.Sound.muteByBanks {s : State} (hs : s.Sound P Q) : (s.muteByBanks).Sound P Q := by
  unfold State.muteByBanks
  exact .muteByLo (.muteByLo hs)

theorem State.Sound.loStop {s : State} {b : Nat} (hs : s.Sound P Q) : (s.loStop b).Sound P Q := by
  unfold State.loStop
  dsimp only
  exact .muteByBanks (.disarm (.modBank (.ite (.ite (.loLeft (.xfeedLost hs)) (.xfeedLost hs)) (.put (.put (.put (.loEnter (.ite (.loLeft
    (.xfeedLost hs)) (.xfeedLost hs)))))))))

theorem State.Sound.banksFollow {s : State} (hs : s.Sound P Q) : (s.banksFollow).Sound P Q := by
  unfold State.banksFollow
  dsimp only
  exact .forEach hs fun _ _ h1 => .ite (.loStart h1) (.ite (.loStop h1) h1)

theorem State.Sound.loSwitched {s : State} {b : Nat} (hs : s.Sound P Q) : (s.loSwitched b).Sound P Q := by
  unfold State.loSwitched
  dsimp only
  exact .forEach (.modBank (.put hs)) fun _ _ h1 => .freezeFor h1

theorem State.Sound.loDegraded {s : State} {b : Nat} (hs : s.Sound P Q) : (s.loDegraded b).Sound P Q := by
  unfold State.loDegraded
  dsimp only
  exact .forEach (.addTo hs) fun _ _ h1 => .degraded h1

theorem State.Sound.loRecord {s : State} {b action : Nat} (hs : s.Sound P Q) : (s.loRecord b action).Sound P Q := by
  unfold State.loRecord
  exact .notice (.record hs)

theorem State.Sound.loCrossfeed {s : State} {b : Nat} (hs : s.Sound P Q) : (s.loCrossfeed b).Sound P Q := by
  unfold State.loCrossfeed
  dsimp only
  exact .muteByLo (.loDegraded (.loSwitched (.put hs)))

theorem State.Sound.countLost {s : State} {p c n : Nat} {dl : Bool} (hs : s.Sound P Q) : (s.countLost p c n dl).Sound P Q := by
  unfold State.countLost
  dsimp only
  exact .ite hs (.bump (.modPath hs))

theorem State.Sound.lostOn {s : State} {b c n : Nat} {dl : Bool} (hs : s.Sound P Q) : (s.lostOn b c n dl).Sound P Q := by
  unfold State.lostOn
  exact .ite (.forEach hs fun _ _ h1 => .countLost h1) hs

theorem State.Sound.loLost {s : State} {b : Nat} (hs : s.Sound P Q) : (s.loLost b).Sound P Q := by
  unfold State.loLost
  dsimp only
  exact .forEach hs fun _ _ h1 => .lostOn (.lostOn h1)

theorem State.Sound.loMute {s : State} {b : Nat} (hs : s.Sound P Q) : (s.loMute b).Sound P Q := by
  unfold State.loMute
  exact .muteByLo (.loLost hs)

theorem State.Sound.loLossLocked {s : State} {b : Nat} (hs : s.Sound P Q) : (s.loLossLocked b).Sound P Q := by
  unfold State.loLossLocked
  dsimp only
  exact .ite (.loRecord (.loCrossfeed (.ite (.ite (.muteByLo (.loDegraded (.loSwitched (.put (.loLeft (.loToBand (.modBank (.bump hs)))))))) (.loMute
    (.modBank (.loSwitched (.put (.loLeft (.loToBand (.modBank (.bump hs))))))))) (.loLeft (.loToBand (.modBank (.bump hs))))))) (.loRecord (.loMute
    (.ite (.ite (.muteByLo (.loDegraded (.loSwitched (.put (.loLeft (.loToBand (.modBank (.bump hs)))))))) (.loMute (.modBank (.loSwitched (.put
    (.loLeft (.loToBand (.modBank (.bump hs))))))))) (.loLeft (.loToBand (.modBank (.bump hs)))))))

theorem State.Sound.wakeFail {s : State} {step unit attempts : Nat} (hs : s.Sound P Q) : (s.wakeFail step unit attempts).Sound P Q := by
  unfold State.wakeFail
  dsimp only
  exact .notice (.dropPending (.put (.put (.put (.put (.put hs))))))

theorem State.Sound.loFail {s : State} {b : Nat} (hs : s.Sound P Q) : (s.loFail b).Sound P Q := by
  unfold State.loFail
  dsimp only
  exact .ite (.wakeFail (.disarm (.put (.loEnter hs)))) (.ite (.record (.disarm (.put (.loEnter hs)))) (.ite (.wedge (.disarm (.put (.loEnter hs))))
    (.initBegins (.forEach (.wedge (.disarm (.put (.loEnter hs)))) fun _ _ h1 => .put h1))))

theorem State.Sound.loAttemptFailed {s : State} {b : Nat} (hs : s.Sound P Q) : (s.loAttemptFailed b).Sound P Q := by
  unfold State.loAttemptFailed
  dsimp only
  exact .ite (.loToBand (.put (.bump hs))) (.loFail (.bump hs))

theorem State.Sound.loBiasDone {s : State} {b : Nat} (hs : s.Sound P Q) : (s.loBiasDone b).Sound P Q := by
  unfold State.loBiasDone
  exact .ite (.loToBand (.femFlush hs)) hs

theorem State.Sound.loBandDone {s : State} {b : Nat} (hs : s.Sound P Q) : (s.loBandDone b).Sound P Q := by
  unfold State.loBandDone
  exact .ite (.arm (.loEnter hs)) hs

theorem State.Sound.loLockDeclared {s : State} {b : Nat} (hs : s.Sound P Q) : (s.loLockDeclared b).Sound P Q := by
  unfold State.loLockDeclared
  exact .ite (.arm (.put (.loEnter hs))) hs

theorem State.Sound.loAcquireTimeout {s : State} {b : Nat} (hs : s.Sound P Q) : (s.loAcquireTimeout b).Sound P Q := by
  unfold State.loAcquireTimeout
  exact .ite (.loAttemptFailed hs) hs

theorem State.Sound.loSettleDone {s : State} {b : Nat} (hs : s.Sound P Q) : (s.loSettleDone b).Sound P Q := by
  unfold State.loSettleDone
  dsimp only
  exact .ite (.initBegins (.ite (.notice (.loCrossfeed (.muteByBanks (.modBank (.disarm (.put (.loEnter hs))))))) (.muteByBanks (.modBank (.disarm
    (.put (.loEnter hs))))))) hs

theorem State.Sound.loLockLoss {s : State} {b : Nat} (hs : s.Sound P Q) : (s.loLockLoss b).Sound P Q := by
  unfold State.loLockLoss
  exact .ite (.loLossLocked hs) (.ite (.loAttemptFailed hs) hs)

theorem State.Sound.loHandback {s : State} {b : Nat} (hs : s.Sound P Q) : (s.loHandback b).Sound P Q := by
  unfold State.loHandback
  dsimp only
  exact .ite (.ite (.loDegraded (.loSwitched (.put hs))) (.loSwitched (.put hs))) hs

theorem State.Sound.loLeave {s : State} {b : Nat} (hs : s.Sound P Q) : (s.loLeave b).Sound P Q := by
  unfold State.loLeave
  dsimp only
  exact .ite (.muteByBanks (.ite (.loSwitched (.put (.loLeft (.loToBand (.modBank hs))))) (.loLeft (.loToBand (.modBank hs))))) hs

theorem State.Sound.loRelockNow {s : State} {b : Nat} (hs : s.Sound P Q) : (s.loRelockNow b).Sound P Q := by
  unfold State.loRelockNow
  exact .ite (.loLeave (.modBank hs)) hs

theorem State.Sound.loStale {s : State} {b : Nat} (hs : s.Sound P Q) : (s.loStale b).Sound P Q := by
  unfold State.loStale
  dsimp only
  exact .forEach hs fun _ _ h1 => .forEach (.modPath (.put h1)) fun _ _ h2 => .setWord h2

theorem State.Sound.loRetuneNow {s : State} {b : Nat} (hs : s.Sound P Q) : (s.loRetuneNow b).Sound P Q := by
  unfold State.loRetuneNow
  dsimp only
  split
  · exact .ite (.loToBand (.ite (.loStale (.modBank hs)) (.modBank hs))) (.loLeave (.ite (.loStale (.modBank hs)) (.modBank hs)))
  · exact hs

theorem State.Sound.loDownlink {s : State} {c n a b : Nat} (hs : s.Sound P Q) : (s.loDownlink c n a b).Sound P Q := by
  unfold State.loDownlink
  dsimp only
  exact .ite (.ite (.notice (.modBank (.forEach hs fun _ _ h1 => .setMute h1))) (.forEach hs fun _ _ h1 => .setMute h1)) (.ite (.lostOn
    (.forEach hs fun _ _ h1 => .setMute h1)) (.ite (.forEach (.forEach hs fun _ _ h1 => .setMute h1) fun _ _ h1 => .bump h1) (.modBank (.forEach
    (.forEach hs fun _ _ h1 => .setMute h1) fun _ _ h1 => .bump h1))))

theorem State.Sound.loUplink {s : State} {c n b : Nat} (hs : s.Sound P Q) : (s.loUplink c n b).Sound P Q := by
  unfold State.loUplink
  exact .ite (.lostOn hs) hs

theorem State.Sound.loSymbol {s : State} {c n a : Nat} (hs : s.Sound P Q) : (s.loSymbol c n a).Sound P Q := by
  unfold State.loSymbol
  dsimp only
  exact .forEach hs fun _ _ h1 => .ite (.loDownlink (.ite (.loUplink h1) h1)) (.ite (.loUplink h1) h1)

theorem State.Sound.loBoundary {s : State} {a : Nat} (hs : s.Sound P Q) : (s.loBoundary a).Sound P Q := by
  unfold State.loBoundary
  dsimp only
  exact .ite (.forEach (.ite (.forEach hs fun _ _ h1 => .loRelockNow h1) hs) fun _ _ h1 => .loRetuneNow h1) (.ite
    (.forEach hs fun _ _ h1 => .loRelockNow h1) hs)

/-! ### Operations of Machine/TxChain.lean -/

theorem State.Sound.transmit {s : State} {a b : Nat} (hs : s.Sound P Q) : (s.transmit a b).Sound P Q := by
  unfold State.transmit
  dsimp only
  exact .forEach hs fun _ _ h1 => .emit (.modPath (.addTo (.addTo (.addTo (.addTo (.addTo h1))))))

theorem State.Sound.transmitUpTo {s : State} {a : Nat} (hs : s.Sound P Q) : (s.transmitUpTo a).Sound P Q := by
  have h1 {c : Prop} [Decidable c] {a b : Nat} : (if c then s.transmit a b else s).Sound P Q := .ite (.transmit hs) hs
  unfold State.transmitUpTo
  dsimp only
  exact .ite hs (.forEach (.setTxBlocksDone h1) fun _ _ h => .modPath h)

/-! ### Operations of Machine/Dfe.lean -/

theorem State.Sound.modObsGroup {s : State} {g : Nat} {f : ObsGroup → ObsGroup} (hs : s.Sound P Q) : (s.modObsGroup g f).Sound P Q := by
  unfold State.modObsGroup
  exact .setObs hs fun x => by simpa using x

theorem State.Sound.showCaptureFit {s : State} (hs : s.Sound P Q) : (s.showCaptureFit).Sound P Q := by
  unfold State.showCaptureFit
  exact .forEach hs fun _ _ h1 => .putB h1

theorem State.Sound.obsDiscard {s : State} {g cause : Nat} (hs : s.Sound P Q) : (s.obsDiscard g cause).Sound P Q := by
  unfold State.obsDiscard
  exact .put (.bump hs)

theorem State.Sound.obsBegin {s : State} {p : Nat} (hs : s.Sound P Q) : (s.obsBegin p).Sound P Q := by
  unfold State.obsBegin
  dsimp only
  exact .modObsGroup (.put hs)

theorem State.Sound.obsMissed {s : State} {g : Nat} (hs : s.Sound P Q) : (s.obsMissed g).Sound P Q := by
  unfold State.obsMissed
  split
  · exact .ite (.obsDiscard (.modObsGroup hs)) hs
  · exact hs

theorem State.Sound.obsAttempt {s : State} {g : Nat} (hs : s.Sound P Q) : (s.obsAttempt g).Sound P Q := by
  unfold State.obsAttempt
  dsimp only
  exact .ite (.obsMissed hs) (by
      split
      · exact .obsMissed hs
      · exact .ite (.obsBegin (.obsMissed hs)) (.ite (.obsDiscard (.modObsGroup (.obsMissed hs))) (.modObsGroup (.obsMissed hs))))

theorem State.Sound.switchDpd {s : State} {p bank : Nat} (hs : s.Sound P Q) : (s.switchDpd p bank).Sound P Q := by
  unfold State.switchDpd
  dsimp only
  exact .ite (.put hs) (.ite (.put (.modObsGroup (.putBit (.modObs (.put (.put (.put hs))))))) (.modObsGroup (.putBit (.modObs (.put (.put
    (.put hs)))))))

theorem State.Sound.neighboursChanged {s : State} {old new : List Byte} (hs : s.Sound P Q) : (s.neighboursChanged old new).Sound P Q := by
  unfold State.neighboursChanged
  dsimp only
  exact .forEach hs fun _ _ h1 => .ite h1 (.forEach (.modObsGroup (.modObs (.forEach h1 fun _ _ h2 => .putBit h2))) fun _ _ h2 => .obsDiscard h2)

theorem State.Sound.supervise {s : State} {p : Nat} {c : ObsCapture} {gain : Int} (hs : s.Sound P Q) : (s.supervise p c gain).Sound P Q := by
  unfold State.supervise
  dsimp only
  split
  · exact .modObs (.putS hs)
  · exact .ite (by
      split
      · exact .ite (.retire (.modObs hs)) (.ite (.modObs hs) (.record (.put (.modObs hs))))
      · exact .modObs hs) (.modObs hs)

theorem State.Sound.obsRequest {s : State} {g n : Nat} (hs : s.Sound P Q) : (s.obsRequest g n).Sound P Q := by
  unfold State.obsRequest
  dsimp only
  exact .ite (.put (.put hs)) (.modObsGroup (.put hs))

theorem State.Sound.obsRelearn {s : State} {g : Nat} (hs : s.Sound P Q) : (s.obsRelearn g).Sound P Q := by
  unfold State.obsRelearn
  exact .forEach hs fun _ _ h1 => .modObs h1

theorem State.Sound.dpdNewRound {s : State} {g : Nat} (hs : s.Sound P Q) : (s.dpdNewRound g).Sound P Q := by
  unfold State.dpdNewRound
  dsimp only
  exact .modObsGroup hs

theorem State.Sound.dpdThaw {s : State} {g : Nat} (hs : s.Sound P Q) : (s.dpdThaw g).Sound P Q := by
  unfold State.dpdThaw
  exact .ite (.dpdNewRound hs) hs

theorem State.Sound.dpdGovern {s : State} {g : Nat} (hs : s.Sound P Q) : (s.dpdGovern g).Sound P Q := by
  unfold State.dpdGovern
  dsimp only
  exact .ite hs (.modObsGroup hs)

theorem State.Sound.obsRebase {s : State} {g old : Nat} (hs : s.Sound P Q) : (s.obsRebase g old).Sound P Q := by
  unfold State.obsRebase
  dsimp only
  exact .modObsGroup hs

theorem State.Sound.dpdRollback {s : State} {g : Nat} (hs : s.Sound P Q) : (s.dpdRollback g).Sound P Q := by
  unfold State.dpdRollback
  dsimp only
  exact .record (.modObsGroup (.put (.put (.bump (.internalTxn hs)))))

theorem State.Sound.dpdReturned {s : State} {g : Nat} (hs : s.Sound P Q) : (s.dpdReturned g).Sound P Q := by
  unfold State.dpdReturned
  exact .dpdGovern (.modObsGroup hs)

theorem State.Sound.dpdVerifyEnd {s : State} {g : Nat} (hs : s.Sound P Q) : (s.dpdVerifyEnd g).Sound P Q := by
  unfold State.dpdVerifyEnd
  exact .ite (.dpdGovern (.modObsGroup (.put hs))) hs

theorem State.Sound.dpdVerify {s : State} {g : Nat} {c : ObsCapture} {nmse : Int} (hs : s.Sound P Q) : (s.dpdVerify g c nmse).Sound P Q := by
  unfold State.dpdVerify
  dsimp only
  exact .ite (.ite (.dpdRollback (.modObsGroup hs)) (.modObsGroup hs)) hs

theorem State.Sound.dpdUse {s : State} {g : Nat} {c : ObsCapture} (hs : s.Sound P Q) : (s.dpdUse g c).Sound P Q := by
  unfold State.dpdUse
  exact .ite (.modObsGroup (.dpdThaw hs)) hs

theorem State.Sound.dpdRoundEnd {s : State} {g : Nat} (hs : s.Sound P Q) : (s.dpdRoundEnd g).Sound P Q := by
  unfold State.dpdRoundEnd
  dsimp only
  exact .ite hs (.ite (.dpdThaw hs) (.ite (.dpdNewRound (.dpdThaw hs)) (.dpdNewRound (.put (.modObsGroup (.dpdThaw hs))))))

theorem State.Sound.writeTables {s : State} {p : Nat} {bytes : List Byte} (hs : s.Sound P Q) : (s.writeTables p bytes).Sound P Q := by
  unfold State.writeTables
  dsimp only
  exact .ite (.put hs) (.allocWrite hs)

theorem State.Sound.dpdOffer {s : State} {g : Nat} {fit : List Nat} (hs : s.Sound P Q) : (s.dpdOffer g fit).Sound P Q := by
  unfold State.dpdOffer
  dsimp only
  exact .ite (.ite (.internalTxn (.modObsGroup hs)) (.dpdNewRound (.put hs))) (.put (.put hs))

theorem State.Sound.dpdFitDone {s : State} {g : Nat} {tables : List (Nat × List Byte)} (hs : s.Sound P Q) : (s.dpdFitDone g tables).Sound P Q := by
  unfold State.dpdFitDone
  dsimp only
  exact .ite hs (.ite (.modObsGroup (.put hs)) (.ite (.dpdNewRound (.forEach (.modObsGroup (.put hs)) fun _ _ h1 => .put (.writeTables h1)))
    (.dpdOffer (.forEach (.modObsGroup (.put hs)) fun _ _ h1 => .put (.writeTables h1)))))

theorem State.Sound.dpdCommitted {s : State} {g : Nat} (hs : s.Sound P Q) : (s.dpdCommitted g).Sound P Q := by
  unfold State.dpdCommitted
  dsimp only
  exact .dpdNewRound (.modObsGroup (.put (.bump hs)))

theorem State.Sound.dpdDiscard {s : State} {g : Nat} (hs : s.Sound P Q) : (s.dpdDiscard g).Sound P Q := by
  unfold State.dpdDiscard
  exact .put (.put hs)

theorem State.Sound.dpdModeWrite {s : State} {g : Nat} {v : Word} (hs : s.Sound P Q) : (s.dpdModeWrite g v).Sound P Q := by
  unfold State.dpdModeWrite
  dsimp only
  exact .ite (.ite (.dpdDiscard (.setWord hs)) (.setWord hs)) (.dpdNewRound (.dpdGovern (.ite (.modObsGroup (.put (.forEach (.ite (.dpdDiscard
    (.setWord hs)) (.setWord hs)) fun _ _ h1 => .setFree (.allocWrite h1)))) (.ite (.dpdDiscard (.setWord hs)) (.setWord hs)))))

/-! ### Operations of Machine/Rx.lean -/

theorem State.Sound.agcMeasure {s : State} {c n p : Nat} {codes : List Cplx} (hs : s.Sound P Q) : (s.agcMeasure c n p codes).Sound P Q := by
  unfold State.agcMeasure
  dsimp only
  exact .ite hs (.ite (.modPath (.modPath (.addTo hs))) (.modPath (.addTo hs)))

theorem State.Sound.agcUpdate {s : State} {c n p : Nat} (hs : s.Sound P Q) : (s.agcUpdate c n p).Sound P Q := by
  unfold State.agcUpdate
  dsimp only
  exact .ite hs (.ite (.modPath (.setGain (.ite (by
      split
      · exact .setGain hs
      · exact hs) hs))) (.ite (by
      split
      · exact .setGain hs
      · exact hs) hs))

/-! ### Operations of Machine/Beam.lean -/

theorem State.Sound.showRenorm {s : State} (hs : s.Sound P Q) : (s.showRenorm).Sound P Q := by
  unfold State.showRenorm
  dsimp only
  exact .put (.put (.put hs))

/-! ### Operations of Machine/Flights.lean -/

theorem State.Sound.remember {s : State} {m : StairMsg} (hs : s.Sound P Q) : (s.remember m).Sound P Q := by
  unfold State.remember
  dsimp only
  exact .modTree hs

theorem State.Sound.storeData {s : State} {c n : Nat} {new : List PrbData} (hs : s.Sound P Q) : (s.storeData c n new).Sound P Q := by
  unfold State.storeData
  dsimp only
  exact { hs with fh := { hs.fh with } }

theorem State.Sound.takeLayer {s : State} {x : Chunk} (hs : s.Sound P Q) : (s.takeLayer x).Sound P Q := by
  unfold State.takeLayer
  dsimp only
  exact .storeData hs

theorem State.Sound.spread {s : State} {m : StairMsg} {fromParent : Bool} (hs : s.Sound P Q) : (s.spread m fromParent).1.Sound P Q := by
  unfold State.spread
  split
  · exact .sendDown (.remember hs)
  · exact .sendUp hs

theorem State.Sound.addGate {s : State} {g : GateEntry} (hs : s.Sound P Q) : (s.addGate g).Sound P Q := by
  unfold State.addGate
  exact .setGates hs

theorem State.Sound.stairGate {s : State} {c n release : Nat} {dl : Bool} {r : CarrierRec} {counts : List (Nat × Nat)} {m : StairMsg}
    (hs : s.Sound P Q) : (s.stairGate c n release dl r counts m).Sound P Q := by
  unfold State.stairGate
  exact .ite (.missed hs) (.addGate hs)

theorem State.Sound.sendLayer {s : State} {c n layer : Nat} {new : List PrbData} (hs : s.Sound P Q) : (s.sendLayer c n layer new).Sound P Q := by
  unfold State.sendLayer
  dsimp only
  exact .forEach (.storeData hs) fun _ _ h1 => by
      split
      · exact h1
      · exact .stairGate h1

theorem State.Sound.layerOut {s : State} {x : Chunk} (hs : s.Sound P Q) : (s.layerOut x).Sound P Q := by
  unfold State.layerOut
  dsimp only
  exact .ite (.takeLayer (.spread hs)) (.spread hs)

/-! ### Operations of Machine/Fronthaul.lean -/

theorem State.Sound.modFhPort {s : State} {n : Nat} {f : FhPort → FhPort} (hs : s.Sound P Q) : (s.modFhPort n f).Sound P Q := by
  unfold State.modFhPort
  dsimp only
  exact .setFh hs fun x => { x with ports := by simpa using x.ports }

theorem State.Sound.fhEnter {s : State} {n st : Nat} (hs : s.Sound P Q) : (s.fhEnter n st).Sound P Q := by
  unfold State.fhEnter
  dsimp only
  exact .modFhPort (.put hs)

theorem State.Sound.modPartner {s : State} {n : Nat} {f : Partner → Partner} (hs : s.Sound P Q) : (s.modPartner n f).Sound P Q := by
  unfold State.modPartner
  dsimp only
  exact .setFh hs fun x => { x with partners := by simpa using x.partners }

theorem State.Sound.pcount {s : State} {n : Nat} {k : PCnt} {m : Nat} (hs : s.Sound P Q) : (s.pcount n k m).Sound P Q := by
  unfold State.pcount
  exact .ite (.addTo hs) hs

theorem State.Sound.ptBegin {s : State} {n st : Nat} (hs : s.Sound P Q) : (s.ptBegin n st).Sound P Q := by
  unfold State.ptBegin
  dsimp only
  exact .put (.putB (.put (.forEach (.modPartner hs) fun _ _ h1 => .put h1)))

theorem State.Sound.ptDrop {s : State} {n : Nat} (hs : s.Sound P Q) : (s.ptDrop n).Sound P Q := by
  unfold State.ptDrop
  exact .modPartner (.pcount hs)

theorem State.Sound.ptClear {s : State} {n : Nat} (hs : s.Sound P Q) : (s.ptClear n).Sound P Q := by
  unfold State.ptClear
  dsimp only
  exact .put (.put (.put (.setFh (.modPartner (.ptDrop hs)) fun x => { x with })))

theorem State.Sound.ptFollow {s : State} {n : Nat} (hs : s.Sound P Q) : (s.ptFollow n).Sound P Q := by
  unfold State.ptFollow
  dsimp only
  exact .ite (.ptBegin hs) (.ite (.put hs) (.ite (.ptClear hs) hs))

theorem State.Sound.enrol {s : State} {src : List Byte} {vids : List Nat} (hs : s.Sound P Q) : (s.enrol src vids).1.Sound P Q := by
  unfold State.enrol
  dsimp only
  exact .notice (.ptBegin (.put (.put (.put (.put (.put (.putB (.put (.put hs)))))))))

theorem State.Sound.ptAccept {s : State} {n : Nat} (hs : s.Sound P Q) : (s.ptAccept n).Sound P Q := by
  unfold State.ptAccept
  dsimp only
  exact .ite (.put (.modPartner (.modPartner hs))) (.modPartner hs)

theorem State.Sound.leases {s : State} (hs : s.Sound P Q) : (s.leases).Sound P Q := by
  unfold State.leases
  dsimp only
  exact .forEach hs fun _ _ h1 => .ite h1 (.ite (.record (.put (.ite (.ptClear h1) (.put (.ptDrop h1))))) (.put h1))

theorem State.Sound.section1 {s : State} {n eaxc c layer : Nat} {x : CSection} (hs : s.Sound P Q) : (s.section1 n eaxc c layer x).Sound P Q := by
  unfold State.section1
  dsimp only
  split
  · exact hs
  · exact .ite (.ite hs (.pcount hs)) (.setFh (.ite (.pcount (.ite hs (.pcount hs))) (.ite hs (.pcount hs))) fun x => { x with })

theorem State.Sound.section3 {s : State} {n eaxc came : Nat} {x : CSection} (hs : s.Sound P Q) : (s.section3 n eaxc came x).Sound P Q := by
  unfold State.section3
  dsimp only
  split
  · exact hs
  · exact .ite (.put (.bump hs)) (.ite (.modCar hs) (.put (.modCar hs)))

theorem State.Sound.section5 {s : State} {c layer : Nat} {came : Option Nat} {x : CSection} (hs : s.Sound P Q) :
    (s.section5 c layer came x).Sound P Q := by
  unfold State.section5
  dsimp only
  exact .ite (.bump hs) (by
      split
      · exact hs
      · exact .setBeam (.ite (.put (.bump hs)) hs) fun x => { x with })

theorem State.Sound.section6 {s : State} {eaxc : Nat} {x : CSection} (hs : s.Sound P Q) : (s.section6 eaxc x).Sound P Q := by
  unfold State.section6
  dsimp only
  exact .ite (.bump hs) (.setBeam hs fun x => { x with })

theorem State.Sound.remoteSection {s : State} {c layer : Nat} {x : CSection} (hs : s.Sound P Q) : (s.remoteSection c layer x).Sound P Q := by
  unfold State.remoteSection
  exact .ite (.section1 hs) (.ite (.section5 hs) hs)

theorem State.Sound.applySection {s : State} {n eaxc came : Nat} {x : CSection} (hs : s.Sound P Q) : (s.applySection n eaxc came x).Sound P Q := by
  unfold State.applySection
  dsimp only
  exact .ite (.put (.pcount hs)) (.ite (.section3 hs) (.ite (.section6 hs) (.ite (.spread (.ite (.section1 hs) (.section5 hs))) (.ite (.section1 hs)
    (.section5 hs)))))

theorem State.Sound.applySections {s : State} {n eaxc came : Nat} {l : List CSection} (hs : s.Sound P Q) :
    (s.applySections n eaxc came l).Sound P Q := by
  unfold State.applySections
  exact .forEach hs fun _ _ h1 => .applySection h1

theorem State.Sound.setWindow {s : State} {n : Nat} {w : Window} (hs : s.Sound P Q) : (s.setWindow n w).Sound P Q := by
  unfold State.setWindow
  exact .modPartner hs

theorem State.Sound.drainWindow {s : State} {n eaxc x : Nat} (hs : s.Sound P Q) : (s.drainWindow n eaxc x).Sound P Q := by
  induction x generalizing s with
  | zero => exact hs
  | succ k ih =>
    unfold State.drainWindow
    dsimp only
    split
    · exact ih (.applySections (.setWindow hs))
    · exact hs

theorem State.Sound.skipTo {s : State} {n eaxc seq x : Nat} (hs : s.Sound P Q) : (s.skipTo n eaxc seq x).Sound P Q := by
  induction x generalizing s with
  | zero => exact hs
  | succ k ih =>
    unfold State.skipTo
    dsimp only
    refine .ite hs ?_
    split
    · exact ih (.applySections (.setWindow hs))
    · exact ih (.pcount (.setWindow hs))

theorem State.Sound.cplane {s : State} {n eaxc seq : Nat} {sections : List CSection} (hs : s.Sound P Q) :
    (s.cplane n eaxc seq sections).Sound P Q := by
  unfold State.cplane
  dsimp only
  exact .ite hs (.ite (.drainWindow (.applySections (.setWindow (.ptAccept hs)))) (.ite (.ite (.pcount (.ptAccept hs)) (.setWindow (.ptAccept hs)))
    (.ite (.drainWindow (.applySections (.setWindow (.skipTo (.ptAccept hs))))) (.pcount (.ptAccept hs)))))

theorem State.Sound.gapSkip {s : State} {n eaxc : Nat} (hs : s.Sound P Q) : (s.gapSkip n eaxc).Sound P Q := by
  unfold State.gapSkip
  dsimp only
  split
  · exact hs
  · exact .ite hs (by
      split
      · exact .drainWindow (.skipTo hs)
      · exact hs)

theorem State.Sound.ecpriMsg {s : State} {port : Nat} {f : Frame} {dropped : Bool} {m : EcpriMsg} (hs : s.Sound P Q) :
    (s.ecpriMsg port f dropped m).1.Sound P Q := by
  unfold State.ecpriMsg
  dsimp only
  split
  · split
    · exact .ptAccept hs
    · exact .pcount hs
  · split
    · split
      · exact .pcount hs
      · split
        · exact hs
        · exact .bump hs
    · split
      · split
        · exact .ptAccept (.enrol hs)
        · exact .pcount (.enrol hs)
      · split
        · exact hs
        · split
          · exact .bump hs
          · exact .bump hs

theorem State.Sound.sxmDatagram {s : State} {odd : Bool} {len : Nat} (hs : s.Sound P Q) : (s.sxmDatagram odd len).Sound P Q := by
  unfold State.sxmDatagram
  dsimp only
  exact .ite (.bump (.ite hs (.setFh hs fun x => { x with }))) (.setFh (.ite hs (.setFh hs fun x => { x with })) fun x => { x with })

theorem State.Sound.frame {s : State} {n : Nat} {f : Frame} (hs : s.Sound P Q) : (s.frame n f).Sound P Q := by
  unfold State.frame
  dsimp only
  refine .ite hs (.ite (.bump (.idleWake hs)) (.ite (.bump (.idleWake hs)) ?_))
  split
  · exact List.foldlRecOn (motive := fun (x : State × Bool) => x.1.Sound P Q) _ _ (.idleWake hs) fun _ hx _ _ => hx.ecpriMsg
  · exact .ite (.sxmDatagram (.idleWake hs)) (.idleWake hs)
  · exact .idleWake hs

theorem State.Sound.countLate {s : State} {m : Nat} {f : CForce} (hs : s.Sound P Q) : (s.countLate m f).Sound P Q := by
  unfold State.countLate
  dsimp only
  exact .ite hs (.pcount (.setFh hs fun x => { x with }))

theorem State.Sound.lateSections {s : State} {c m : Nat} (hs : s.Sound P Q) : (s.lateSections c m).Sound P Q := by
  unfold State.lateSections
  dsimp only
  exact .forEach hs fun _ _ h1 => .countLate h1

theorem State.Sound.uplane {s : State} {n eaxc : Nat} {u : USection} (hs : s.Sound P Q) : (s.uplane n eaxc u).Sound P Q := by
  unfold State.uplane
  dsimp only
  exact .ite hs (by
      split
      · exact .pcount (.ptAccept hs)
      · exact .ite (.pcount (.ptAccept hs)) (.ite (.pcount (.ptAccept hs)) (.ite (.pcount (.ptAccept hs)) (.ite (.forEach
          (.ptAccept hs) fun _ _ h2 => .countLate h2) (.ite (.sendLayer (.ptAccept hs)) (.storeData (.ptAccept hs)))))))

theorem State.Sound.sendBefore {s : State} {n edge : Nat} (hs : s.Sound P Q) : (s.sendBefore n edge).Sound P Q := by
  unfold State.sendBefore
  dsimp only
  exact .modFhPort (.forEach hs fun _ _ h1 => .emit (.ite (.pcount h1) h1))

theorem State.Sound.drainPort {s : State} {n : Nat} (hs : s.Sound P Q) : (s.drainPort n).Sound P Q := by
  unfold State.drainPort
  exact .sendBefore hs

theorem State.Sound.queueFrame {s : State} {n release seq : Nat} {again : Bool} {f : UFrame} (hs : s.Sound P Q) :
    (s.queueFrame n release seq again f).Sound P Q := by
  unfold State.queueFrame
  dsimp only
  exact .modFhPort (.sendBefore hs)

theorem State.Sound.releaseFrame {s : State} {release : Nat} {f : UFrame} (hs : s.Sound P Q) : (s.releaseFrame release f).Sound P Q := by
  unfold State.releaseFrame
  dsimp only
  exact .ite (.pcount (.setFh hs fun x => { x with })) (.queueFrame (.setFh hs fun x => { x with }))

theorem State.Sound.drainPorts {s : State} (hs : s.Sound P Q) : (s.drainPorts).Sound P Q := by
  unfold State.drainPorts
  exact .forEach hs fun _ _ h1 => .drainPort h1

theorem State.Sound.staleDiscard {s : State} {n : Nat} (hs : s.Sound P Q) : (s.staleDiscard n).Sound P Q := by
  unfold State.staleDiscard
  dsimp only
  exact .modFhPort (.forEach (.drainPort hs) fun _ _ h1 => .pcount h1)

theorem State.Sound.failoverEntry {s : State} {n port cut : Nat} {lost : List SentFrame} (hs : s.Sound P Q) :
    (s.failoverEntry n port cut lost).Sound P Q := by
  unfold State.failoverEntry
  dsimp only
  exact .ite (.forEach (.put hs) fun _ _ h1 => .queueFrame h1) (.pcount (.put hs))

theorem State.Sound.failover {s : State} {port : Nat} (hs : s.Sound P Q) : (s.failover port).Sound P Q := by
  unfold State.failover
  dsimp only
  exact .forEach (.modFhPort hs) fun _ _ h1 => .failoverEntry h1

theorem State.Sound.linkFault {s : State} {n cause : Nat} (hs : s.Sound P Q) : (s.linkFault n cause).Sound P Q := by
  unfold State.linkFault
  dsimp only
  exact .ite hs (.ite (.failover (.modFhPort (.fhEnter (.bump (.put (.drainPort hs)))))) (.record (.failover (.modFhPort (.fhEnter (.bump (.put
    (.drainPort hs))))))))

theorem State.Sound.fhPortUp {s : State} {n : Nat} (hs : s.Sound P Q) : (s.fhPortUp n).Sound P Q := by
  unfold State.fhPortUp
  dsimp only
  exact .forEach (.modFhPort (.fhEnter hs)) fun _ _ h1 => .ite (.put (.put h1)) h1

theorem State.Sound.trainDone {s : State} {n : Nat} {foms : List Nat} (hs : s.Sound P Q) : (s.trainDone n foms).Sound P Q := by
  unfold State.trainDone
  dsimp only
  exact .ite hs (.ite (.fhEnter (.forEach hs fun _ _ h1 => .put (.put h1))) (.forEach hs fun _ _ h1 => .put (.put h1)))

theorem State.Sound.trainTimeout {s : State} {n : Nat} (hs : s.Sound P Q) : (s.trainTimeout n).Sound P Q := by
  unfold State.trainTimeout
  dsimp only
  exact .ite (.ite (.notice (.modFhPort (.fhEnter (.bump hs)))) (.modFhPort (.fhEnter (.bump hs)))) hs

theorem State.Sound.returnHome {s : State} {n : Nat} (hs : s.Sound P Q) : (s.returnHome n).Sound P Q := by
  unfold State.returnHome
  dsimp only
  exact .ite (.put hs) hs

theorem State.Sound.fhLayout {s : State} (hs : s.Sound P Q) : (s.fhLayout).Sound P Q := by
  unfold State.fhLayout
  dsimp only
  exact .ite hs (.forEach (.setFh (.forEach hs fun _ _ h1 => .linkFault h1) fun x => { x with }) fun _ _ h1 => .fhEnter h1)

theorem State.Sound.fhControl {s : State} {n : Nat} (hs : s.Sound P Q) : (s.fhControl n).Sound P Q := by
  unfold State.fhControl
  dsimp only
  exact .ite hs (.ite hs (.ite (.linkFault hs) (.modFhPort (.fhEnter hs))))

theorem State.Sound.delayAnswer {s : State} {n action id : Nat} {stamp : Int} (hs : s.Sound P Q) : (s.delayAnswer n action id stamp).Sound P Q := by
  unfold State.delayAnswer
  dsimp only
  exact .ite hs (.ite (.emit hs) (.ite (.setFh hs fun x => { x with }) (.ite (by
      split
      · exact .emit (.setFh hs fun x => { x with })
      · exact hs) (.ite (.emit hs) (.ite (.emit hs) hs)))))

theorem State.Sound.fhAdapt {s : State} {lane fom : Nat} (hs : s.Sound P Q) : (s.fhAdapt lane fom).Sound P Q := by
  unfold State.fhAdapt
  dsimp only
  exact .ite hs (.ite (.put hs) (.ite (.put (.put hs)) (.ite (.bump (.setFh (.put hs) fun x => { x with laneBack := by simpa using x.laneBack }))
    (.put hs))))

theorem State.Sound.injectError {s : State} {lane : Nat} (hs : s.Sound P Q) : (s.injectError lane).Sound P Q := by
  unfold State.injectError
  dsimp only
  exact .emit (.setFh hs fun x => { x with injected := by simpa using x.injected })

theorem State.Sound.add64 {s : State} {lo hi : Fld} {n : Nat} (hs : s.Sound P Q) : (s.add64 lo hi n).Sound P Q := by
  unfold State.add64
  dsimp only
  exact .put (.put hs)

/-! ### Operations of Machine/Solver.lean -/

theorem State.Sound.showSrs {s : State} (hs : s.Sound P Q) : (s.showSrs).Sound P Q := by
  unfold State.showSrs
  dsimp only
  exact .forEach hs fun _ _ h1 => .putB (.put h1)

theorem State.Sound.sounding {s : State} {c n : Nat} {blocks : List (List Cplx × Nat)} {valid : List Bool} (hs : s.Sound P Q) :
    (s.sounding c n blocks valid).Sound P Q := by
  unfold State.sounding
  dsimp only
  exact .ite hs (.ite (.put hs) (by
      split
      · exact hs
      · exact .ite (.ite hs (.record (.bump (.modCar hs)))) (.ite hs (.ite (.putBit (.allocWrite (.ite (.putBit (.modCar hs)) (.modCar hs))))
          (.allocWrite (.ite (.putBit (.modCar hs)) (.modCar hs)))))))

theorem State.Sound.epochLate {s : State} {c slot : Nat} (hs : s.Sound P Q) : (s.epochLate c slot).Sound P Q := by
  unfold State.epochLate
  dsimp only
  exact .record (.setBeam (.put (.putBit (.put (.bump hs)))) fun x => { x with epochs := by simpa using x.epochs })

theorem State.Sound.epochStart {s : State} {c : Nat} (hs : s.Sound P Q) : (s.epochStart c).Sound P Q := by
  unfold State.epochStart
  dsimp only
  exact .ite hs (.ite (.setBeam hs fun x => { x with lastEpoch := by simpa using x.lastEpoch }) (.ite (.epochLate
    (.setBeam hs fun x => { x with lastEpoch := by simpa using x.lastEpoch })) (.putBit (by
      split
      · exact .putBit (.setBeam (.addTo (.ite (.bump (.setBeam (.addTo
          (.setBeam hs fun x => { x with lastEpoch := by simpa using x.lastEpoch })) fun x => { x with maps := by simpa using x.maps })) (.setBeam
          (.addTo (.setBeam hs fun x => { x with lastEpoch := by simpa using x.lastEpoch })) fun x => { x with maps := by simpa using x.maps }))) fun
          x => { x with epochs := by simpa using x.epochs })
      · exact .setBeam (.addTo (.ite (.bump (.setBeam (.addTo
          (.setBeam hs fun x => { x with lastEpoch := by simpa using x.lastEpoch })) fun x => { x with maps := by simpa using x.maps })) (.setBeam
          (.addTo (.setBeam hs fun x => { x with lastEpoch := by simpa using x.lastEpoch })) fun x => { x with maps := by simpa using x.maps }))) fun
          x => { x with epochs := by simpa using x.epochs }))))

theorem State.Sound.writeIdleSet {s : State} {c : Nat} {e : Epoch} (hs : s.Sound P Q) : (s.writeIdleSet c e).Sound P Q := by
  have h1 {b : BeamState} {r : RecState} (hb : s.beam.Sized Q → b.Sized Q) (hr : s.recov.Sized Q → r.Sized Q) :
      ({ s with beam := b, recov := r } : State).Sound P Q := { hs with beam := hb hs.beam, recov := hr hs.recov }
  have h2 {pair : WeightSet × WeightSet} (hb : s.beam.Sized Q) : ({ s.beam with sets := s.beam.sets.set c pair } : BeamState).Sized Q :=
    { hb with sets := by simpa using hb.sets }
  unfold State.writeIdleSet
  dsimp only
  exact .ite (.addTo (h1 h2 fun x => { x with })) (.put (.addTo (h1 h2 fun x => { x with })))

theorem State.Sound.epochTime {s : State} {c : Nat} {e : Epoch} (hs : s.Sound P Q) : (s.epochTime c e).Sound P Q := by
  unfold State.epochTime
  dsimp only
  exact .put (.put hs)

theorem State.Sound.switchWeights {s : State} {c set : Nat} (hs : s.Sound P Q) : (s.switchWeights c set).Sound P Q := by
  unfold State.switchWeights
  dsimp only
  exact .setBeam (.modCar hs fun _ => by split <;> rfl) fun x => { x with epochs := by simpa using x.epochs }

theorem State.Sound.setValid {s : State} {first count : Nat} {on : Bool} (hs : s.Sound P Q) : (s.setValid first count on).Sound P Q := by
  unfold State.setValid
  dsimp only
  exact .setBeam hs fun x => { x with }

theorem State.Sound.commitEntry {s : State} {off : Nat} {bytes : List Byte} (hs : s.Sound P Q) : (s.commitEntry off bytes).Sound P Q := by
  unfold State.commitEntry
  exact .forEach (.memWrite hs) fun _ _ h1 => .setValid h1

theorem State.Sound.pruneLeaving {s : State} (hs : s.Sound P Q) : (s.pruneLeaving).Sound P Q := by
  unfold State.pruneLeaving
  dsimp only
  exact .setBeam hs fun x => { x with }

/-! ### Operations of Machine/LostData.lean -/

theorem State.Sound.dropEntries {s : State} (hs : s.Sound P Q) : (s.dropEntries).Sound P Q := by
  unfold State.dropEntries
  dsimp only
  exact .setRecov (.forEach hs fun _ _ h1 => .setValid h1) fun x => { x with }

theorem State.Sound.clearTables {s : State} (hs : s.Sound P Q) : (s.clearTables).Sound P Q := by
  unfold State.clearTables
  dsimp only
  exact .setRecov (.forEach hs fun _ _ h1 => .allocWrite h1) fun x => { x with }

theorem State.Sound.loseWeights {s : State} {c : Nat} {dl : Bool} {g : Nat} (hs : s.Sound P Q) : (s.loseWeights c dl g).Sound P Q := by
  unfold State.loseWeights
  dsimp only
  exact { hs with beam := { hs.beam with sets := by simpa using hs.beam.sets }, recov := { hs.recov with } }

theorem State.Sound.loseJournal {s : State} {port eaxc seq : Nat} (hs : s.Sound P Q) : (s.loseJournal port eaxc seq).Sound P Q := by
  unfold State.loseJournal
  dsimp only
  exact .setFh hs fun x => { x with ports := by simpa using x.ports }

theorem State.Sound.loseData {s : State} {c n l : Nat} (hs : s.Sound P Q) : (s.loseData c n l).Sound P Q := by
  unfold State.loseData
  dsimp only
  exact { hs with fh := { hs.fh with } }

end Sound

end Sys2Proof.Machine
end

