-- ==== Sys2Proof/Proofs/SoundSystem.lean ====
section
/-!
Every operation of the block keeps the state sound, from the halls to the host ports: one rule for each operation, whose proof follows its definition.
-/

namespace Sys2Proof.Machine

open Sys2Proof

section Sound

variable {P : Prop} {Q : Coll → Prop}

/-! ### Operations of Machine/Hall.lean -/

theorem State.Sound.modHall {s : State} {h : Nat} {f : Hall → Hall} (hs : s.Sound P Q) : (s.modHall h f).Sound P Q := by
  unfold State.modHall
  exact .setHalls hs fun x => by simpa using x

theorem State.Sound.modCore {s : State} {h : Nat} {f : HallCore → HallCore} (hs : s.Sound P Q) : (s.modCore h f).Sound P Q := by
  unfold State.modCore
  exact .modHall hs

theorem State.Sound.clearSticky {s : State} {h : Nat} (hs : s.Sound P Q) : (s.clearSticky h).Sound P Q := by
  unfold State.clearSticky
  exact .put hs

theorem State.Sound.startHalls {s : State} (hs : s.Sound P Q) : (s.startHalls).Sound P Q := by
  unfold State.startHalls
  dsimp only
  exact { hs with halls := by simp }

theorem State.Sound.replaceHall {s : State} {h : Nat} {bs : List Byte} (hs : s.Sound P Q) : (s.replaceHall h bs).Sound P Q := by
  unfold State.replaceHall
  dsimp only
  exact .setHalls (.modHall (.clearSticky (.setFlits hs))) fun x => by simpa using x

theorem State.Sound.standby {s : State} {p : Partial} (hs : s.Sound P Q) : (s.standby p).Sound P Q := by
  unfold State.standby
  exact .forEach hs fun _ _ h1 => .modHall h1

theorem State.Sound.hallTrap {s : State} {h cause : Nat} (hs : s.Sound P Q) : (s.hallTrap h cause).Sound P Q := by
  unfold State.hallTrap
  dsimp only
  exact .record (.modHall hs)

theorem State.Sound.retireHall {s : State} {h : Nat} {f : HallCore → HallCore} (hs : s.Sound P Q) : (s.retireHall h f).Sound P Q := by
  unfold State.retireHall
  exact .modHall hs

theorem State.Sound.hallEnd {s : State} {h : Nat} {r : HallRes} (hs : s.Sound P Q) (hr : r.Sound P Q) : (s.hallEnd h r).Sound P Q := by
  unfold State.hallEnd
  split
  · exact .retireHall hr
  · exact .retireHall hr
  · exact .retireHall hr
  · exact hr
  · exact .hallTrap hs

theorem State.Sound.issue {s : State} {h op : Nat} {f : Nat → HallRes} (hs : s.Sound P Q) (hf : ∀ a1, (f a1).Sound P Q) :
    (s.issue h op f).Sound P Q := by
  unfold State.issue
  dsimp only
  exact .ite (.ite (.hallTrap hs) (.ite (.hallEnd hs (hf _ )) hs)) hs

theorem HallRes.Sound.reserved {bad : Bool} {r : HallRes} (hr : r.Sound P Q) : HallRes.Sound P Q (reserved bad r) := by
  unfold Machine.reserved
  exact .ite trivial hr

theorem State.Sound.stick {s : State} {h bit : Nat} (hs : s.Sound P Q) : (s.stick h bit).Sound P Q := by
  unfold State.stick
  exact .put hs

theorem State.Sound.endWaite {s : State} {h : Nat} (hs : s.Sound P Q) : (s.endWaite h).Sound P Q := by
  unfold State.endWaite
  dsimp only
  split
  · exact .ite (.retireHall (.modHall hs)) hs
  · exact hs

theorem State.Sound.raise {s : State} {h e : Nat} (hs : s.Sound P Q) : (s.raise h e).Sound P Q := by
  unfold State.raise
  exact .endWaite (.modCore hs)

theorem State.Sound.raiseAll {s : State} {e : Nat} (hs : s.Sound P Q) : (s.raiseAll e).Sound P Q := by
  unfold State.raiseAll
  exact .forEach hs fun _ _ h1 => .raise h1

theorem State.Sound.overflow {s : State} {h bank : Nat} (hs : s.Sound P Q) : (s.overflow h bank).Sound P Q := by
  unfold State.overflow
  exact .raise (.stick hs)

theorem State.Sound.entered {s : State} {h : Nat} {f : Nat → HallInput} (hs : s.Sound P Q) : (s.entered h f).Sound P Q := by
  unfold State.entered
  exact .modHall hs

theorem State.Sound.advanceGen {s : State} {h k pm : Nat} (hs : s.Sound P Q) : (s.advanceGen h k pm).Sound P Q := by
  unfold State.advanceGen
  exact .modCore hs

theorem HallRes.Sound.withPm {h pm : Nat} {r : HallRes} (hr : r.Sound P Q) : HallRes.Sound P Q (withPm h pm r) := by
  unfold Machine.withPm
  exact .ite trivial hr

theorem State.Sound.setVec {s : State} {h r : Nat} {l : List (Cplx × Bool)} (hs : s.Sound P Q) : (s.setVec h r l).Sound P Q := by
  unfold State.setVec
  exact .when (.modCore hs) (fun _ h1 => .stick h1)

theorem State.Sound.setAcc {s : State} {h b : Nat} {l : List (Cplx × Bool)} (hs : s.Sound P Q) : (s.setAcc h b l).Sound P Q := by
  unfold State.setAcc
  exact .when (.modCore hs) (fun _ h1 => .overflow h1)

/-! ### Operations of Machine/HallScalar.lean -/

theorem HallRes.Sound.getSpecial {s : State} {h gd sreg : Nat} {v : Word} {rec : Bool} (hs : s.Sound P Q) :
    HallRes.Sound P Q (s.getSpecial h gd sreg v rec) := by
  unfold State.getSpecial
  dsimp only
  exact .modCore (.when hs (fun _ h1 => .entered h1))

/-! ### Operations of Machine/HallVector.lean -/

theorem State.Sound.storeElems {s : State} {h : Nat} {sat : Bool} {l : List (Nat × Cplx)} (hs : s.Sound P Q) : (s.storeElems h sat l).Sound P Q := by
  unfold State.storeElems
  dsimp only
  exact .when (.modCore hs) (fun _ h1 => .stick h1)

/-! ### Operations of Machine/HallCorridor.lean -/

theorem State.Sound.waitCredit {s : State} {h f : Nat} (hs : s.Sound P Q) : (s.waitCredit h f).Sound P Q := by
  unfold State.waitCredit
  exact .modHall hs

theorem State.Sound.modFlow {s : State} {h f : Nat} {g : HallFlow → HallFlow} (hs : s.Sound P Q) : (s.modFlow h f g).Sound P Q := by
  unfold State.modFlow
  exact .modCore hs

theorem State.Sound.memFlit {s : State} {h f : Nat} {data : List Word} (hs : s.Sound P Q) : (s.memFlit h f data).Sound P Q := by
  unfold State.memFlit
  dsimp only
  exact .modFlow (.memWrite hs)

theorem State.Sound.sendFlit {s : State} {h f : Nat} {data : List Word} (hs : s.Sound P Q) : (s.sendFlit h f data).Sound P Q := by
  unfold State.sendFlit
  dsimp only
  exact .ite (.memFlit (.modFlow hs)) (.modHall (.setFlits (.modFlow hs)))

theorem State.Sound.enterRing {s : State} {h q : Nat} {data : List Word} (hs : s.Sound P Q) : (s.enterRing h q data).Sound P Q := by
  unfold State.enterRing
  dsimp only
  exact .when (.modCore hs) (fun _ h1 => .raise h1)

theorem State.Sound.passOutputs {s : State} {cls : Nat} {x : List Link} (hs : s.Sound P Q) : (s.passOutputs cls x).1.Sound P Q := by
  induction x generalizing s with
  | nil => exact hs
  | cons o rest ih =>
    unfold State.passOutputs
    dsimp only
    split
    · exact ih (.setRouters hs)
    · exact hs

theorem State.Sound.flitArrives {s : State} {h f : Nat} (hs : s.Sound P Q) : (s.flitArrives h f).Sound P Q := by
  unfold State.flitArrives
  dsimp only
  split
  · exact hs
  · exact .ite hs (.ite (.setFlits (.passOutputs (.setFlits hs))) (.ite (.ite (.enterRing (.entered (.modCore (.passOutputs (.setFlits hs))))) (.bump
      (.passOutputs (.setFlits hs)))) (.emit (.passOutputs (.setFlits hs)))))

theorem State.Sound.routesChanged {s : State} {old : List Byte} (hs : s.Sound P Q) : (s.routesChanged old).Sound P Q := by
  unfold State.routesChanged
  dsimp only
  exact .forEach hs fun _ _ h1 => .forEach h1 fun _ _ h2 => .modFlow h2

theorem State.Sound.acceptEvent {s : State} {h : Nat} (hs : s.Sound P Q) : (s.acceptEvent h).Sound P Q := by
  unfold State.acceptEvent
  dsimp only
  exact .ite (by
      split
      · exact .modHall (.entered hs)
      · exact hs) hs

theorem State.Sound.mboxIn {s : State} {h : Nat} {v : Word} (hs : s.Sound P Q) : (s.mboxIn h v).Sound P Q := by
  unfold State.mboxIn
  dsimp only
  exact .when (.setWord hs) (fun _ h1 => .raise h1)

theorem State.Sound.dmNext {s : State} {h : Nat} (hs : s.Sound P Q) : (s.dmNext h).Sound P Q := by
  unfold State.dmNext
  exact .put hs

theorem State.Sound.dmWrite {s : State} {h : Nat} {v : Word} (hs : s.Sound P Q) : (s.dmWrite h v).Sound P Q := by
  unfold State.dmWrite
  dsimp only
  exact .dmNext (.ite (.modCore hs) (.put hs))

theorem State.Sound.hallCheckpoints {s : State} (hs : s.Sound P Q) : (s.hallCheckpoints).Sound P Q := by
  unfold State.hallCheckpoints
  exact .setHalls hs fun x => by simpa using x

/-! ### Operations of Machine/Apply.lean -/

theorem State.Sound.clearBeam {s : State} {c : Nat} (hs : s.Sound P Q) : (s.clearBeam c).Sound P Q := by
  unfold State.clearBeam
  dsimp only
  exact .setBeam hs fun x =>
    { x with sets := by simpa using x.sets, maps := by simpa using x.maps, epochs := by simpa using x.epochs, lastEpoch := by simpa using x.lastEpoch }

theorem State.Sound.replanCarrier {s : State} {c a : Nat} {old new : CarrierRec} (hs : s.Sound P Q) : (s.replanCarrier c a old new).Sound P Q := by
  unfold State.replanCarrier
  exact .ite hs (.ite (.ite (.decideStop hs) hs) (.ite (.dueStart hs) (.ite (.modCar hs) (.decideStop hs))))

theorem State.Sound.replanBanks {s : State} {old new : List Byte} (hs : s.Sound P Q) : (s.replanBanks old new).Sound P Q := by
  unfold State.replanBanks
  exact .forEach hs fun _ _ h1 => .ite h1 (.modBank h1)

theorem State.Sound.replan {s : State} {a : Nat} {old new : List Byte} (hs : s.Sound P Q) : (s.replan a old new).Sound P Q := by
  unfold State.replan
  dsimp only
  exact .forEach (.forEach (.replanBanks hs) fun _ _ h1 => .replanCarrier h1) fun _ _ h1 => .showLatency (.showForm h1)

theorem State.Sound.pathPlan {s : State} (hs : s.Sound P Q) : (s.pathPlan).Sound P Q := by
  unfold State.pathPlan
  exact .showRenorm (.forEach hs fun _ _ h1 => .ite h1 (.ite (.put h1) (.ite (.applyService (.put h1)) h1)))

theorem State.Sound.loadPartners {s : State} (hs : s.Sound P Q) : (s.loadPartners).Sound P Q := by
  unfold State.loadPartners
  dsimp only
  exact .forEach hs fun _ _ h1 => .ite (.record h1) (.ptBegin (.put (.put (.put (.put (.put (.put (.put h1))))))))

theorem State.Sound.showRunning {s : State} (hs : s.Sound P Q) : (s.showRunning).Sound P Q := by
  unfold State.showRunning
  split <;> exact .forEach (.put hs) fun _ _ h2 => .put h2

theorem State.Sound.liveSection {s : State} {a : Nat} {x : Section} {was : List Byte} (hs : s.Sound P Q) : (s.liveSection a x was).Sound P Q := by
  unfold State.liveSection
  exact .ite (.replaceHall hs) (.ite (.routesChanged hs) (.ite (.banksFollow (.pathPlan (.neighboursChanged hs))) (.ite (.replan hs) (.ite
    (.loadPartners hs) hs))))

theorem State.Sound.applyLive {s : State} {a : Nat} {p : Partial} (hs : s.Sound P Q) : (s.applyLive a p).Sound P Q := by
  unfold State.applyLive
  dsimp only
  split
  · exact hs
  · exact .forEach (.showRunning (.put (.setImage hs))) fun _ _ h2 => .liveSection h2

theorem State.Sound.stagedTaken {s : State} (hs : s.Sound P Q) : (s.stagedTaken).Sound P Q := by
  unfold State.stagedTaken
  exact .ite (.put (.otaInForce hs)) hs

theorem State.Sound.stagedFollow {s : State} {a : Nat} (hs : s.Sound P Q) : (s.stagedFollow a).Sound P Q := by
  unfold State.stagedFollow
  dsimp only
  exact .ite (.ite (.showRenorm (.applyService hs)) hs) (.ite (.switchDpd hs) (.ite (.showSrs hs) (.ite (.setValid hs) (.ite (.setValid hs) (.ite
    (.stagedTaken hs) (.ite (.ptFollow hs) hs))))))

theorem State.Sound.applyReg {s : State} {a : Nat} {v : Word} (hs : s.Sound P Q) : (s.applyReg a v).Sound P Q := by
  unfold State.applyReg
  exact .stagedFollow (.setWord hs)

theorem State.Sound.applyEffect {s : State} {a : Nat} {x : Effect} (hs : s.Sound P Q) : (s.applyEffect a x).Sound P Q := by
  unfold State.applyEffect
  split
  · exact .applyReg hs
  · exact .commitEntry hs
  · exact .applyLive hs
  · exact hs
  · exact .showRenorm (.applyService (.put hs))
  · exact .switchDpd hs
  · exact .dpdCommitted hs
  · exact .dpdReturned hs
  · exact .switchWeights hs
  · exact .otaEnd (.otaInForce hs)

theorem State.Sound.latchSlot {s : State} {n id : Nat} (hs : s.Sound P Q) : (s.latchSlot n id).Sound P Q := by
  unfold State.latchSlot
  exact .modSlot hs

theorem State.Sound.latchDue {s : State} (hs : s.Sound P Q) : (s.latchDue).Sound P Q := by
  unfold State.latchDue
  dsimp only
  exact .setTxn (.forEach hs fun _ _ h1 => by
      split
      · exact .latchSlot (.put h1)
      · exact .put h1) fun x => { x with }

theorem State.Sound.bumpEpoch {s : State} {c : Nat} (hs : s.Sound P Q) : (s.bumpEpoch c).Sound P Q := by
  unfold State.bumpEpoch
  dsimp only
  exact .put (.modCar hs)

theorem State.Sound.excludeOn {s : State} {bc : Option Nat} {p : Nat} (hs : s.Sound P Q) : (s.excludeOn bc p).1.Sound P Q := by
  cases bc with
  | none =>
    unfold State.excludeOn
    dsimp only
    split
    · exact .retireRecord (.showRenorm (.modPath hs))
    · exact hs
  | some c =>
    unfold State.excludeOn
    dsimp only
    split
    · exact .retireRecord (.showRenorm (.modPath (.modPath hs)))
    · exact .modPath hs

theorem State.Sound.applyList {s : State} {bc : Option Nat} {a : Nat} {x : List Effect} (hs : s.Sound P Q) : (s.applyList bc a x).1.Sound P Q := by
  induction x generalizing s with
  | nil => exact hs
  | cons e rest ih =>
    unfold State.applyList
    split
    · exact ih (.excludeOn hs)
    · split
      · exact ih (.applyEffect hs)
      · exact ih hs

theorem State.Sound.applyCommit {s : State} {bc : Option Nat} {x : Commit} (hs : s.Sound P Q) : (s.applyCommit bc x).1.Sound P Q := by
  unfold State.applyCommit
  dsimp only
  split
  · exact hs
  · exact .ite (.raiseAll (by
      split
      · exact .ite (.bumpEpoch (.applyList hs)) (.applyList hs)
      · exact .applyList hs)) (by
      split
      · exact .ite (.bumpEpoch (.applyList hs)) (.applyList hs)
      · exact .applyList hs)

theorem State.Sound.applyAll {s : State} {bc : Option Nat} {x : List Commit} (hs : s.Sound P Q) : (s.applyAll bc x).1.Sound P Q := by
  induction x generalizing s with
  | nil => exact hs
  | cons x rest ih => exact ih (.applyCommit hs)

theorem State.Sound.applyBoundary {s : State} {bc : Option Nat} (hs : s.Sound P Q) : (s.applyBoundary bc).Sound P Q := by
  unfold State.applyBoundary
  dsimp only
  exact .setTxn (.applyAll (.latchDue hs)) fun x => { x with }

theorem State.Sound.followSlot {s : State} {c n : Nat} (hs : s.Sound P Q) : (s.followSlot c n).Sound P Q := by
  unfold State.followSlot
  dsimp only
  exact .ite hs (.ite (.bumpEpoch (.modCar (.ite (.bumpEpoch (.modCar hs)) hs))) (.ite (.bumpEpoch (.modCar hs)) hs))

/-! ### Operations of Machine/TxnCheck.lean -/

theorem State.Sound.rwsLost {s : State} {ch : Nat} {closed : Bool} (hs : s.Sound P Q) : (s.rwsLost ch closed).Sound P Q := by
  unfold State.rwsLost
  exact .bump (.modChan hs)

theorem State.Sound.stage {s : State} {ch : Nat} {x : Staged} (hs : s.Sound P Q) : (s.stage ch x).Sound P Q := by
  unfold State.stage
  dsimp only
  exact .ite (.rwsLost hs) (.ite (.rwsLost hs) (.ite (.modChan (.modSlot hs)) (.modSlot hs)))

/-! ### Operations of Machine/Txn.lean -/

theorem State.Sound.txnDone {s : State} {ch result : Nat} (hs : s.Sound P Q) : (s.txnDone ch result).Sound P Q := by
  unfold State.txnDone
  exact .modChan hs

theorem State.Sound.txnBusy {s : State} {ch : Nat} (hs : s.Sound P Q) : (s.txnBusy ch).Sound P Q := by
  unfold State.txnBusy
  exact .modChan hs

theorem State.Sound.bindTo {s : State} {ch n : Nat} (hs : s.Sound P Q) : (s.bindTo ch n).Sound P Q := by
  unfold State.bindTo
  exact .modChan hs

theorem State.Sound.setSlot {s : State} {n : Nat} {x : TxnSlot} (hs : s.Sound P Q) : (s.setSlot n x).Sound P Q := by
  unfold State.setSlot
  exact .modSlot hs

theorem State.Sound.dropCommit {s : State} {id : Nat} (hs : s.Sound P Q) : (s.dropCommit id).Sound P Q := by
  unfold State.dropCommit
  dsimp only
  exact .setTxn hs fun x => { x with }

theorem State.Sound.abortSlot {s : State} {n cause : Nat} (hs : s.Sound P Q) : (s.abortSlot n cause).Sound P Q := by
  unfold State.abortSlot
  dsimp only
  exact .modSlot (.disarm (.dropCommit hs))

theorem State.Sound.addSlotCommit {s : State} {n time : Nat} {decided : Bool} (hs : s.Sound P Q) : (s.addSlotCommit n time decided).Sound P Q := by
  unfold State.addSlotCommit
  dsimp only
  exact .addCommit hs

theorem State.Sound.prepareSlot {s : State} {n : Nat} {decided : Bool} (hs : s.Sound P Q) : (s.prepareSlot n decided).Sound P Q := by
  unfold State.prepareSlot
  dsimp only
  exact .addSlotCommit (by
      split
      · exact .standby (.modSlot hs)
      · exact .modSlot hs)

theorem State.Sound.txnOpen {s : State} {ch : Nat} (hs : s.Sound P Q) : (s.txnOpen ch).Sound P Q := by
  unfold State.txnOpen
  dsimp only
  exact .ite (.txnDone hs) (by
      split
      · exact .txnDone hs
      · exact .txnDone (.bindTo (.setSlot (.newTxnId hs))))

theorem State.Sound.txnBind {s : State} {ch : Nat} {v : Word} (hs : s.Sound P Q) : (s.txnBind ch v).Sound P Q := by
  unfold State.txnBind
  dsimp only
  exact .ite (.modChan hs) (.ite (.modChan hs) (.modChan hs))

theorem State.Sound.showLiveCode {s : State} {v : Verdict} (hs : s.Sound P Q) : (s.showLiveCode v).Sound P Q := by
  unfold State.showLiveCode
  exact .when hs fun _ h1 => .put h1

theorem State.Sound.localPrepare {s : State} {ch n : Nat} (hs : s.Sound P Q) : (s.localPrepare ch n).Sound P Q := by
  unfold State.localPrepare
  dsimp only
  exact .ite (.txnDone (.abortSlot (.modSlot hs))) (.ite (.txnDone (.abortSlot (.modSlot (.modSlot hs)))) (.ite (.txnDone (.showLiveCode (.abortSlot
    (.modSlot (.modSlot (.modSlot hs)))))) (by
      split
      · exact .arm (.txnBusy (.modSlot (.modSlot (.modSlot hs))))
      · exact .txnDone (.prepareSlot (.modSlot (.modSlot hs))))))

theorem State.Sound.wakeWaiters {s : State} {n : Nat} (hs : s.Sound P Q) : (s.wakeWaiters n).Sound P Q := by
  unfold State.wakeWaiters
  dsimp only
  exact .forEach (.modSlot hs) fun _ _ h1 => .txnDone h1

theorem State.Sound.newArrayId {s : State} (hs : s.Sound P Q) : (s.newArrayId).2.Sound P Q := by
  unfold State.newArrayId
  dsimp only
  exact .setTxn hs fun x => { x with }

theorem State.Sound.modTop {s : State} {id : Nat} {f : TopTxn → TopTxn} (hs : s.Sound P Q) : (s.modTop id f).Sound P Q := by
  unfold State.modTop
  dsimp only
  exact .setTxn hs fun x => { x with }

theorem State.Sound.holdAnnounced {s : State} {id n origin tag : Nat} (hs : s.Sound P Q) : (s.holdAnnounced id n origin tag).Sound P Q := by
  unfold State.holdAnnounced
  dsimp only
  exact .ite hs (.setSlot hs)

theorem State.Sound.openAnswered {s : State} {tag n result : Nat} (hs : s.Sound P Q) : (s.openAnswered tag n result).Sound P Q := by
  unfold State.openAnswered
  dsimp only
  split
  · exact hs
  · exact .ite (.txnDone (.setTxn hs fun x => { x with })) (.txnDone (.bindTo (.modSlot (.setTxn hs fun x => { x with }))))

theorem State.Sound.announced {s : State} {id n origin tag result : Nat} (hs : s.Sound P Q) : (s.announced id n origin tag result).Sound P Q := by
  unfold State.announced
  dsimp only
  exact .ite (.openAnswered (.ite (.holdAnnounced (.sendDown hs)) (.sendDown hs))) (.ite (.holdAnnounced (.sendDown hs)) (.sendDown hs))

theorem State.Sound.topOpen {s : State} {landing tag : Nat} (hs : s.Sound P Q) : (s.topOpen landing tag).Sound P Q := by
  unfold State.topOpen
  dsimp only
  split
  · exact .announced hs
  · exact .announced (.setTxn (.newArrayId hs) fun x => { x with })

theorem State.Sound.txnOpenArray {s : State} {ch : Nat} (hs : s.Sound P Q) : (s.txnOpenArray ch).Sound P Q := by
  unfold State.txnOpenArray
  dsimp only
  exact .ite (.txnDone hs) (.ite (.txnDone hs) (.ite (.topOpen (.txnBusy (.setTxn hs fun x => { x with }))) (.sendUp (.txnBusy
    (.setTxn hs fun x => { x with })))))

theorem State.Sound.keepOutcome {s : State} {id : Nat} {commit : Bool} (hs : s.Sound P Q) : (s.keepOutcome id commit).Sound P Q := by
  unfold State.keepOutcome
  dsimp only
  exact .setTxn hs fun x => { x with }

theorem State.Sound.internalLost {s : State} {n : Nat} (hs : s.Sound P Q) : (s.internalLost n).Sound P Q := by
  unfold State.internalLost
  exact .ite (by
      split
      · exact .epochLate hs
      · exact hs) (.otaEnd hs)

theorem State.Sound.decideSlot {s : State} {n : Nat} {commit : Bool} {cause landing : Nat} (hs : s.Sound P Q) :
    (s.decideSlot n commit cause landing).Sound P Q := by
  unfold State.decideSlot
  dsimp only
  exact .ite (.wakeWaiters (.ite (.modSlot (.setTxn (.keepOutcome hs) fun x => { x with })) (.modSlot (.disarm (.dropCommit (.modSlot
    (.keepOutcome hs))))))) (.setSlot (.ite (.wakeWaiters (.ite (.modSlot (.setTxn (.keepOutcome hs) fun x => { x with })) (.modSlot (.disarm
    (.dropCommit (.modSlot (.keepOutcome hs))))))) (.internalLost (.wakeWaiters (.ite (.modSlot (.setTxn (.keepOutcome hs) fun x => { x with }))
    (.modSlot (.disarm (.dropCommit (.modSlot (.keepOutcome hs))))))))))

theorem State.Sound.decided {s : State} {id : Nat} {commit : Bool} {cause landing : Nat} (hs : s.Sound P Q) :
    (s.decided id commit cause landing).Sound P Q := by
  unfold State.decided
  dsimp only
  split
  · exact .sendDown hs
  · exact .ite (.modSlot (.forEach (.sendDown hs) fun _ _ h2 => .sendOn h2)) (.ite (.disarm (.modSlot (.modSlot (.forEach
      (.sendDown hs) fun _ _ h2 => .sendOn h2)))) (.decideSlot (.modSlot (.forEach (.sendDown hs) fun _ _ h2 => .sendOn h2))))

theorem State.Sound.topDecide {s : State} {id : Nat} {commit : Bool} {cause landing : Nat} (hs : s.Sound P Q) :
    (s.topDecide id commit cause landing).Sound P Q := by
  unfold State.topDecide
  split
  · exact hs
  · exact .ite hs (.decided (.disarm (.modTop hs)))

theorem State.Sound.voteCheck {s : State} {n : Nat} (hs : s.Sound P Q) : (s.voteCheck n).Sound P Q := by
  unfold State.voteCheck
  dsimp only
  split
  · exact .ite (.topDecide hs) (.sendUp (.modSlot hs))
  · exact .ite (.ite (.topDecide hs) hs) (.ite (.sendUp (.modSlot hs)) hs)

theorem State.Sound.voteOwn {s : State} {n cause : Nat} (hs : s.Sound P Q) : (s.voteOwn n cause).Sound P Q := by
  unfold State.voteOwn
  dsimp only
  exact .ite (.voteCheck (.modSlot (.prepareSlot hs))) (.voteCheck (.modSlot hs))

theorem State.Sound.prepareArrived {s : State} {id time decide carrier : Nat} (hs : s.Sound P Q) :
    (s.prepareArrived id time decide carrier).Sound P Q := by
  unfold State.prepareArrived
  dsimp only
  split
  · exact .ite (.topDecide (.sendDown hs)) (.sendUp (.sendDown hs))
  · exact .ite (.ite (.voteOwn (.modSlot (.sendDown hs))) (.modSlot (.sendDown hs))) (.ite (.voteOwn (.modSlot (.sendDown hs))) (.ite (.voteOwn
      (.modSlot (.sendDown hs))) (.ite (.voteOwn (.showLiveCode (.modSlot (.modSlot (.sendDown hs))))) (by
      split
      · exact .arm (.modSlot (.showLiveCode (.modSlot (.modSlot (.sendDown hs)))))
      · exact .voteOwn (.showLiveCode (.modSlot (.modSlot (.sendDown hs))))))))

theorem State.Sound.livePrepared {s : State} {n : Nat} (hs : s.Sound P Q) : (s.livePrepared n).Sound P Q := by
  unfold State.livePrepared
  dsimp only
  exact .ite hs (.ite (.voteOwn (.ite (.disarm hs) (.put (.disarm hs)))) (.wakeWaiters (.ite (.prepareSlot (.ite (.disarm hs) (.put (.disarm hs))))
    (.abortSlot (.ite (.disarm hs) (.put (.disarm hs)))))))

theorem State.Sound.voted {s : State} {port id yes no cause : Nat} (hs : s.Sound P Q) : (s.voted port id yes no cause).Sound P Q := by
  unfold State.voted
  dsimp only
  split
  · exact .ite (.ite hs (.topDecide hs)) (.sendUp hs)
  · exact .ite (.voteCheck (.modSlot hs)) (.ite (.sendUp (.modSlot hs)) (.ite (.modSlot hs) (.voteCheck (.modSlot hs))))

theorem State.Sound.prepareAsked {s : State} {id : Nat} {point : Word} (hs : s.Sound P Q) : (s.prepareAsked id point).Sound P Q := by
  unfold State.prepareAsked
  dsimp only
  exact .ite (.sendUp hs) (by
      split
      · exact hs
      · exact .ite hs (.ite (.topDecide hs) (.prepareArrived (.arm (.modTop hs)))))

theorem State.Sound.decisionTimeout {s : State} {n : Nat} (hs : s.Sound P Q) : (s.decisionTimeout n).Sound P Q := by
  unfold State.decisionTimeout
  dsimp only
  exact .ite hs (by
      split
      · exact .topDecide (.disarm hs)
      · exact .disarm hs)

theorem State.Sound.abortAsked {s : State} {id landing : Nat} (hs : s.Sound P Q) : (s.abortAsked id landing).Sound P Q := by
  unfold State.abortAsked
  exact .ite (.topDecide hs) (.sendUp hs)

theorem State.Sound.txnPrepare {s : State} {ch n : Nat} (hs : s.Sound P Q) : (s.txnPrepare ch n).Sound P Q := by
  unfold State.txnPrepare
  dsimp only
  exact .ite (.txnDone hs) (.ite (.txnDone hs) (.ite (.txnDone hs) (.ite (.txnDone hs) (.ite (.prepareAsked (.txnBusy (.modSlot hs)))
    (.localPrepare hs)))))

theorem State.Sound.txnAbort {s : State} {ch n : Nat} (hs : s.Sound P Q) : (s.txnAbort ch n).Sound P Q := by
  unfold State.txnAbort
  dsimp only
  exact .ite (.txnDone (.latchDue hs)) (.ite (.txnDone (.latchDue hs)) (.ite (.txnDone (.latchDue hs)) (.ite (.txnDone (.modSlot (.latchDue hs)))
    (.ite (.txnDone (.latchDue hs)) (.ite (.abortAsked (.txnBusy (.modSlot (.latchDue hs)))) (.txnDone (.wakeWaiters (.abortSlot
    (.latchDue hs)))))))))

theorem State.Sound.txnRelease {s : State} {ch n : Nat} (hs : s.Sound P Q) : (s.txnRelease ch n).Sound P Q := by
  unfold State.txnRelease
  dsimp only
  exact .ite (.txnDone hs) (.ite (.txnDone hs) (.ite (.txnDone hs) (.ite (.txnDone (.setSlot hs)) (.txnDone hs))))

theorem State.Sound.txnSessionEnd {s : State} {ch : Nat} (hs : s.Sound P Q) : (s.txnSessionEnd ch).Sound P Q := by
  unfold State.txnSessionEnd
  dsimp only
  exact .setTxn (.forEach hs fun _ _ h1 => .ite h1 (.ite (.modSlot (.abortSlot h1)) (.ite (.modSlot h1)
    (.modSlot h1)))) fun x => { x with slots := by simpa using x.slots }

theorem State.Sound.txnAbortAll {s : State} {states : List Nat} {cause : Nat} (hs : s.Sound P Q) : (s.txnAbortAll states cause).Sound P Q := by
  unfold State.txnAbortAll
  exact .forEach hs fun _ _ h1 => .ite (.wakeWaiters (.abortSlot h1)) h1

theorem State.Sound.doubtDue {s : State} (hs : s.Sound P Q) : (s.doubtDue).Sound P Q := by
  unfold State.doubtDue
  dsimp only
  exact .forEach hs fun _ _ h1 => .ite (.arm (.sendUp (.sendUp (.modSlot (.dropCommit h1))))) h1

theorem State.Sound.latchAll {s : State} (hs : s.Sound P Q) : (s.latchAll).Sound P Q := by
  unfold State.latchAll
  exact .doubtDue (.latchDue hs)

theorem State.Sound.verdictsDue {s : State} (hs : s.Sound P Q) : (s.verdictsDue).Sound P Q := by
  unfold State.verdictsDue
  dsimp only
  exact .forEach hs fun _ _ h1 => by
      split
      · exact h1
      · exact .ite h1 (.sendUp (.latchDue (.decideSlot (.modSlot (.ite (.addSlotCommit h1) h1)))))

theorem State.Sound.queried {s : State} {port id landing : Nat} (hs : s.Sound P Q) : (s.queried port id landing).Sound P Q := by
  unfold State.queried
  dsimp only
  split
  · exact .sendOn hs
  · exact .sendOn hs
  · exact .sendUp (by
      split
      · exact .modSlot hs
      · exact hs)

theorem State.Sound.queryAll {s : State} (hs : s.Sound P Q) : (s.queryAll).Sound P Q := by
  unfold State.queryAll
  dsimp only
  exact .forEach hs fun _ _ h1 => .ite (.sendUp h1) h1

theorem State.Sound.queryRetry {s : State} {n : Nat} (hs : s.Sound P Q) : (s.queryRetry n).Sound P Q := by
  unfold State.queryRetry
  dsimp only
  exact .ite hs (.ite (.arm (.sendUp hs)) (.disarm hs))

theorem State.Sound.holdArrived {s : State} {port : Nat} {held : Bool} {carrier symbol : Nat} (hs : s.Sound P Q) :
    (s.holdArrived port held carrier symbol).Sound P Q := by
  unfold State.holdArrived
  dsimp only
  exact .modSPort hs

theorem State.Sound.topInternal {s : State} {n c a : Nat} (hs : s.Sound P Q) : (s.topInternal n c a).Sound P Q := by
  unfold State.topInternal
  dsimp only
  exact .prepareArrived (.arm (.announced (.setTxn (.newArrayId hs) fun x => { x with })))

theorem State.Sound.stagePart {s : State} {n : Nat} {part : List Effect} (hs : s.Sound P Q) : (s.stagePart n part).Sound P Q := by
  unfold State.stagePart
  dsimp only
  exact .ite (.voteOwn (.modSlot hs)) (.modSlot hs)

/-! ### Operations of Machine/Sums.lean -/

theorem State.Sound.setSum {s : State} {x : ChunkSum} (hs : s.Sound P Q) : (s.setSum x).Sound P Q := by
  unfold State.setSum
  exact .modTree hs

theorem State.Sound.ownChunk {s : State} {x : Chunk} {inverses : List (List (List Cplx) × Int)} {outExp : Int} (hs : s.Sound P Q) :
    (s.ownChunk x inverses outExp).Sound P Q := by
  unfold State.ownChunk
  dsimp only
  exact .setSum hs

theorem State.Sound.childChunk {s : State} {port : Nat} {x : Chunk} (hs : s.Sound P Q) : (s.childChunk port x).Sound P Q := by
  unfold State.childChunk
  dsimp only
  exact .ite hs (.ite hs (.setSum hs))

theorem State.Sound.gateChunk {s : State} {c n layer first : Nat} {prbs : List (Int × List Cplx)} {sat : Nat} (hs : s.Sound P Q) :
    (s.gateChunk c n layer first prbs sat).Sound P Q := by
  unfold State.gateChunk
  dsimp only
  exact .setGates hs

theorem State.Sound.deliverLayer {s : State} {layers : List ChunkSum} {x : ChunkSum} {layer : Nat} (hs : s.Sound P Q) :
    (s.deliverLayer layers x layer).Sound P Q := by
  unfold State.deliverLayer
  dsimp only
  exact .ite (.gateChunk hs) (.stairGate hs)

theorem State.Sound.deliverChunk {s : State} {x : ChunkSum} (hs : s.Sound P Q) : (s.deliverChunk x).Sound P Q := by
  unfold State.deliverChunk
  dsimp only
  exact .ite (.deliverLayer hs) (.ite (.forEach hs fun _ _ h1 => .deliverLayer h1) hs)

theorem State.Sound.finishedArrived {s : State} {x : Chunk} (hs : s.Sound P Q) : (s.finishedArrived x).Sound P Q := by
  unfold State.finishedArrived
  dsimp only
  exact .ite (.gateChunk hs) (.sendTo hs)

theorem State.Sound.useSupplement {s : State} {origin : Nat} {x : Chunk} (hs : s.Sound P Q) : (s.useSupplement origin x).Sound P Q := by
  unfold State.useSupplement
  dsimp only
  exact .bump (.modTree (.setSum hs))

theorem State.Sound.topMissing {s : State} {root c layer slot sym first : Nat} (hs : s.Sound P Q) :
    (s.topMissing root c layer slot sym first).Sound P Q := by
  unfold State.topMissing
  dsimp only
  exact .ite hs (by
      split
      · exact .useSupplement (.modTree (.modTree hs))
      · exact .modTree hs)

theorem State.Sound.topSupplement {s : State} {origin : Nat} {x : Chunk} (hs : s.Sound P Q) : (s.topSupplement origin x).Sound P Q := by
  unfold State.topSupplement
  dsimp only
  exact .ite (.bump hs) (.ite (.useSupplement hs) (.modTree hs))

theorem State.Sound.countMissing {s : State} {c n slot sym : Nat} (hs : s.Sound P Q) : (s.countMissing c n slot sym).Sound P Q := by
  unfold State.countMissing
  exact .ite hs (.degraded (.bump (.modTree hs)))

theorem State.Sound.completeSum {s : State} {x : ChunkSum} (hs : s.Sound P Q) : (s.completeSum x).Sound P Q := by
  unfold State.completeSum
  dsimp only
  exact .ite (.setSum hs) (.deliverChunk (.setSum (.modTree (.addTo (.ite hs (.countMissing hs))))))

theorem State.Sound.sendPartial {s : State} {a : Nat} {x : Chunk} (hs : s.Sound P Q) : (s.sendPartial a x).Sound P Q := by
  unfold State.sendPartial
  exact .ite (.sendUp hs) (.sendConfirmed hs)

theorem State.Sound.forwardChunk {s : State} {c layer slot sym first : Nat} (hs : s.Sound P Q) :
    (s.forwardChunk c layer slot sym first).Sound P Q := by
  unfold State.forwardChunk
  dsimp only
  split
  · exact hs
  · exact .ite hs (.ite (.completeSum (.forEach (.setSum hs) fun _ _ h2 => .topMissing h2)) (.setSum (.stairGate
      (.forEach hs fun _ _ h2 => .sendConfirmed h2))))

theorem State.Sound.stairOut {s : State} {r : CarrierRec} {n : Nat} {m : StairMsg} (hs : s.Sound P Q) : (s.stairOut r n m).Sound P Q := by
  unfold State.stairOut
  split
  · exact .layerOut hs
  · exact .sendPartial hs
  · exact .sendTo hs
  · exact hs

theorem State.Sound.pruneSums {s : State} (hs : s.Sound P Q) : (s.pruneSums).Sound P Q := by
  unfold State.pruneSums
  dsimp only
  exact .addTo (.modTree hs)

theorem State.Sound.setEpoch {s : State} {c : Nat} {e : Epoch} (hs : s.Sound P Q) : (s.setEpoch c e).Sound P Q := by
  unfold State.setEpoch
  dsimp only
  exact .setBeam hs fun x => { x with epochs := by simpa using x.epochs }

theorem State.Sound.inversesDown {s : State} {c slot : Nat} {l : List InverseRec} (hs : s.Sound P Q) : (s.inversesDown c slot l).Sound P Q := by
  unfold State.inversesDown
  dsimp only
  split
  · exact .setEpoch (.sendDown (.remember hs))
  · exact .sendDown (.remember hs)

theorem State.Sound.gramsForward {s : State} {c : Nat} (hs : s.Sound P Q) : (s.gramsForward c).Sound P Q := by
  unfold State.gramsForward
  dsimp only
  split
  · exact hs
  · exact .ite hs (.ite hs (.ite (.inversesDown (.setEpoch hs)) (.sendUp (.setEpoch hs))))

theorem State.Sound.gramArrived {s : State} {port c slot : Nat} {l : List GramRec} (hs : s.Sound P Q) : (s.gramArrived port c slot l).Sound P Q := by
  unfold State.gramArrived
  dsimp only
  split
  · exact hs
  · exact .gramsForward (.setEpoch hs)

theorem State.Sound.epochSolved {s : State} {c a : Nat} {e : Epoch} (hs : s.Sound P Q) : (s.epochSolved c a e).Sound P Q := by
  unfold State.epochSolved
  dsimp only
  exact .ite (.internalAt (.setEpoch (.put (.putBit (.epochTime (.writeIdleSet hs)))))) (.stagePart (.ite (.topInternal (.setEpoch (.put (.putBit
    (.epochTime (.writeIdleSet hs)))))) (.setEpoch (.put (.putBit (.epochTime (.writeIdleSet hs)))))))

theorem State.Sound.epochDone {s : State} {c : Nat} (hs : s.Sound P Q) : (s.epochDone c).Sound P Q := by
  unfold State.epochDone
  dsimp only
  split
  · exact hs
  · exact .ite hs (.ite (.ite hs (.epochSolved hs)) (.ite (.epochLate hs) (.epochSolved hs)))

theorem State.Sound.epochOverdue {s : State} {c slot : Nat} (hs : s.Sound P Q) : (s.epochOverdue c slot).Sound P Q := by
  unfold State.epochOverdue
  split
  · exact .ite (.epochLate hs) hs
  · exact hs

/-! ### Operations of Machine/Symbol.lean -/

theorem State.Sound.shedSymbol {s : State} {c : Nat} (hs : s.Sound P Q) : (s.shedSymbol c).Sound P Q := by
  unfold State.shedSymbol
  exact .bump hs

theorem State.Sound.countAll {s : State} {l : List (Nat × Nat)} (hs : s.Sound P Q) : (s.countAll l).Sound P Q := by
  unfold State.countAll
  exact .forEach hs fun _ _ h1 => .addTo h1

theorem State.Sound.upGate {s : State} {c n wait : Nat} {parts : List UpPart} {counts : List (Nat × Nat)} (hs : s.Sound P Q) :
    (s.upGate c n wait parts counts).Sound P Q := by
  unfold State.upGate
  dsimp only
  exact .forEach (.modCar hs) fun _ _ h1 => .addGate h1

theorem State.Sound.measureSymbol {s : State} {c n : Nat} {adc : List (List Cplx)} (hs : s.Sound P Q) : (s.measureSymbol c n adc).Sound P Q := by
  unfold State.measureSymbol
  dsimp only
  exact .forEach hs fun _ _ h1 => .ite (.ite (.bump h1) h1) (.ite (.retire (.modPath (.ite (.retire (.agcMeasure (.ite (.bump h1) h1))) (.agcMeasure
    (.ite (.bump h1) h1))))) (.modPath (.ite (.retire (.agcMeasure (.ite (.bump h1) h1))) (.agcMeasure (.ite (.bump h1) h1)))))

theorem State.Sound.recordReplay {s : State} {c n : Nat} (hs : s.Sound P Q) : (s.recordReplay c n).Sound P Q := by
  unfold State.recordReplay
  dsimp only
  exact { hs with beam := { hs.beam with replays := by simpa using hs.beam.replays }, fh := { hs.fh with replays := by simpa using hs.fh.replays } }

theorem State.Sound.freeReplays {s : State} {c a : Nat} (hs : s.Sound P Q) : (s.freeReplays c a).Sound P Q := by
  unfold State.freeReplays
  dsimp only
  exact { hs with
    beam := { hs.beam with replays := by simpa using hs.beam.replays, checks := by simpa using hs.beam.checks }
    fh := { hs.fh with replays := by simpa using hs.fh.replays, checks := by simpa using hs.fh.checks } }

theorem State.Sound.localUplink {s : State} {c n : Nat} {ys : List (List Cplx)} {e : Int} {rxSat : Nat} (hs : s.Sound P Q) :
    (s.localUplink c n ys e rxSat).Sound P Q := by
  unfold State.localUplink
  dsimp only
  exact .upGate hs

theorem State.Sound.jointUplink {s : State} {c n : Nat} {ys : List (List Cplx)} {e : Int} {rxSat : Nat} (hs : s.Sound P Q) :
    (s.jointUplink c n ys e rxSat).Sound P Q := by
  unfold State.jointUplink
  dsimp only
  exact .ite (.upGate hs) (.forEach (.upGate hs) fun _ _ h1 => .forEach h1 fun _ _ h2 => .ownChunk h2)

theorem State.Sound.uplinkEnd {s : State} {c n : Nat} {adc : List (List Cplx)} (hs : s.Sound P Q) : (s.uplinkEnd c n adc).Sound P Q := by
  unfold State.uplinkEnd
  dsimp only
  exact .ite (.shedSymbol (.measureSymbol hs)) (.ite (.jointUplink (.sounding (.measureSymbol hs))) (.localUplink (.sounding (.measureSymbol hs))))

theorem State.Sound.degradedByPath {s : State} {c n : Nat} (hs : s.Sound P Q) : (s.degradedByPath c n).Sound P Q := by
  unfold State.degradedByPath
  dsimp only
  exact .ite (.degraded (.forEach hs fun _ _ h1 => .modPath h1)) (.forEach hs fun _ _ h1 => .modPath h1)

theorem State.Sound.capTake {s : State} {c n : Nat} {codes : List Cplx} (hs : s.Sound P Q) : (s.capTake c n codes).Sound P Q := by
  unfold State.capTake
  dsimp only
  exact .ite (.ite hs (.setCap hs)) hs

theorem State.Sound.capStop {s : State} {cause : Nat} (hs : s.Sound P Q) : (s.capStop cause).Sound P Q := by
  unfold State.capStop
  dsimp only
  exact .put (.put (.put (.setCap (.ite (.allocWrite hs) hs))))

theorem State.Sound.endSymbol {s : State} {c n : Nat} {adc : List (List Cplx)} (hs : s.Sound P Q) : (s.endSymbol c n adc).Sound P Q := by
  unfold State.endSymbol
  dsimp only
  exact .ite (.degradedByPath (.ite (.uplinkEnd (.capTake hs)) (.sounding (.capTake hs)))) (.ite (.uplinkEnd (.capTake hs)) (.sounding (.capTake hs)))

theorem State.Sound.gateDown {s : State} {c n : Nat} (hs : s.Sound P Q) : (s.gateDown c n).Sound P Q := by
  unfold State.gateDown
  dsimp only
  exact .ite hs (.addGate (.lateSections hs))

theorem State.Sound.deadline {s : State} {c : Nat} (hs : s.Sound P Q) : (s.deadline c).Sound P Q := by
  unfold State.deadline
  dsimp only
  split
  · exact hs
  · exact .ite hs (.forEach hs fun _ _ h2 => .gateDown h2)

theorem State.Sound.releaseDown {s : State} {g : GateEntry} {off : List Nat} (hs : s.Sound P Q) : (s.releaseDown g off).Sound P Q := by
  unfold State.releaseDown
  dsimp only
  exact .countAll (.setTxBlocks (.when hs (fun _ h1 => .shedSymbol h1)))

theorem State.Sound.releaseUp {s : State} {g : GateEntry} (hs : s.Sound P Q) : (s.releaseUp g).Sound P Q := by
  unfold State.releaseUp
  dsimp only
  exact .forEach (.countAll hs) fun _ _ h1 => .releaseFrame h1

theorem State.Sound.releasePrach {s : State} {g : GateEntry} (hs : s.Sound P Q) : (s.releasePrach g).Sound P Q := by
  unfold State.releasePrach
  exact .forEach (.countAll hs) fun _ _ h1 => .releaseFrame h1

theorem State.Sound.releaseStair {s : State} {g : GateEntry} (hs : s.Sound P Q) : (s.releaseStair g).Sound P Q := by
  unfold State.releaseStair
  exact .forEach (.countAll hs) fun _ _ h1 => .stairOut h1

theorem State.Sound.passGate {s : State} {g : GateEntry} (hs : s.Sound P Q) : (s.passGate g).Sound P Q := by
  unfold State.passGate
  split
  · exact .releaseDown hs
  · exact .releaseUp hs
  · exact .releasePrach hs
  · exact .releaseStair hs

theorem State.Sound.missGate {s : State} {g : GateEntry} (hs : s.Sound P Q) : (s.missGate g).Sound P Q := by
  unfold State.missGate
  dsimp only
  split
  · exact .ite (.releaseDown (.missed hs)) (.missed hs)
  · exact .missed hs

theorem State.Sound.releaseOne {s : State} {g : GateEntry} (hs : s.Sound P Q) : (s.releaseOne g).Sound P Q := by
  unfold State.releaseOne
  dsimp only
  exact .ite hs (.ite (.missGate (.ite (.countDegraded hs) hs)) (.ite (.missedIn (.ite (.countDegraded hs) hs)) (.passGate (.ite
    (.countDegraded hs) hs))))

theorem State.Sound.releases {s : State} (hs : s.Sound P Q) : (s.releases).Sound P Q := by
  unfold State.releases
  dsimp only
  exact .transmitUpTo (.drainPorts (.forEach (.setGates hs) fun _ _ h1 => .releaseOne h1))

theorem State.Sound.checkpoint {s : State} {c a : Nat} (hs : s.Sound P Q) : (s.checkpoint c a).Sound P Q := by
  unfold State.checkpoint
  dsimp only
  exact .ite hs (.ite (.hallCheckpoints (.freeReplays (.modCar hs))) (.freeReplays (.modCar hs)))

theorem State.Sound.swapRecord {s : State} {c n a : Nat} (hs : s.Sound P Q) : (s.swapRecord c n a).Sound P Q := by
  unfold State.swapRecord
  dsimp only
  split
  · exact .ite (.showLatency (.showForm (.clearBeam (.modCar hs)))) hs
  · exact hs

theorem State.Sound.updatePoint {s : State} {c n : Nat} (hs : s.Sound P Q) : (s.updatePoint c n).Sound P Q := by
  unfold State.updatePoint
  exact .forEach (.updatePaths (.clearTables hs)) fun _ _ h1 => .agcUpdate h1

theorem State.Sound.showRotation {s : State} (hs : s.Sound P Q) : (s.showRotation).Sound P Q := by
  unfold State.showRotation
  exact .putB (.putB hs)

/-- What follows in a symbol's beginning once the carrier has begun it. -/
theorem State.Sound.beginSymbol_of_begun {s : State} {c n : Nat}
    (h : ∀ feed, ((s.loBoundary ((s.form c).boundary n)).modCar c fun x => { x with feed := feed, begun := some n }).Sound P Q) :
    (s.beginSymbol c n).Sound P Q := by
  have h1 {u : State} (hu : u.Sound P Q) : (u.loSymbol c n ((s.form c).boundary n)).Sound P Q := .loSymbol hu
  have h2 {u : State} (hu : u.Sound P Q) : (((u.forEach (List.range 8) fun g s => s.countBlanked g (s.blankOf g).1 (s.blankOf g).2).gateDown c n).recordReplay
      c n).Sound P Q := .recordReplay (.gateDown (.forEach hu fun _ _ h => .countBlanked h))
  unfold State.beginSymbol
  dsimp only
  exact .releases (.ite (.ite (.raiseAll (.raiseAll (h2 (h1 (.ite (.updatePoint (.showRotation (h _))) (.showRotation (h _)))))))
    (.raiseAll (h2 (h1 (.ite (.updatePoint (.showRotation (h _))) (.showRotation (h _)))))))
    (h2 (h1 (.ite (.updatePoint (.showRotation (h _))) (.showRotation (h _))))))

theorem State.Sound.beginSymbol [Fact (Symbolless Q)] {s : State} {c n : Nat} (hs : s.Sound P Q) : (s.beginSymbol c n).Sound P Q :=
  .beginSymbol_of_begun fun _ => .beginCar (.loBoundary hs)

theorem State.Sound.pruneSymbol {s : State} {c n : Nat} (hs : s.Sound P Q) : (s.pruneSymbol c n).Sound P Q := by
  unfold State.pruneSymbol
  dsimp only
  exact .pruneSums (.pruneLeaving { hs with fh := { hs.fh with }, radio := { hs.radio with } })

theorem State.Sound.passBoundary {s : State} {c n : Nat} {adc : List (List Cplx)} (hs : s.Sound P Q) : (s.passBoundary c n adc).Sound P Q := by
  unfold State.passBoundary
  dsimp only
  exact .ite (.epochOverdue (.followSlot (.dropEntries (.applyBoundary (.ite (.endSymbol (.checkpoint (.latchAll hs))) (.checkpoint
    (.latchAll hs))))))) (.followSlot (.dropEntries (.applyBoundary (.ite (.endSymbol (.checkpoint (.latchAll hs))) (.checkpoint (.latchAll hs))))))

theorem State.Sound.symbolBoundary [Fact (Symbolless Q)] {s : State} {c : Nat} {adc : List (List Cplx)} (hs : s.Sound P Q) :
    (s.symbolBoundary c adc).Sound P Q := by
  unfold State.symbolBoundary
  dsimp only
  exact .ite hs (.ite (.beginCar (.passBoundary hs)) (.pruneSymbol (.beginSymbol (.swapRecord (.passBoundary hs)))))

theorem State.Sound.carrierStart [Fact (Symbolless Q)] {s : State} {c : Nat} (hs : s.Sound P Q) : (s.carrierStart c).Sound P Q := by
  unfold State.carrierStart
  dsimp only
  exact .ite hs (.beginSymbol (.showLatency (.showForm (.beginCar (.put hs)))))

theorem State.Sound.carrierStop [Fact (Symbolless Q)] {s : State} {c : Nat} {adc : List (List Cplx)} (hs : s.Sound P Q) :
    (s.carrierStop c adc).Sound P Q := by
  have h1 {u : State} (hu : u.Sound P Q) : ((u.putBit Reg.SOLVER.STATUS.running c false).put (Reg.CARRIER.SRS_STATUS.held c) 0).Sound P Q := .put
    (.putBit hu)
  unfold State.carrierStop
  dsimp only
  refine .ite hs ?_
  split
  · exact .showLatency (.dueStart (.ite (h1 (.setBeamGates (.ite (.capStop (.symbolBoundary hs))
      (.symbolBoundary hs)) fun x => { x with epochs := by simpa using x.epochs }))
      (.clearBeam (h1 (.setBeamGates (.ite (.capStop (.symbolBoundary hs))
        (.symbolBoundary hs)) fun x => { x with epochs := by simpa using x.epochs })))))
  · exact .showLatency (.showForm (.put (.modCar (.clearBeam (h1 (.setBeamGates (.ite (.capStop (.symbolBoundary hs))
      (.symbolBoundary hs)) fun x => { x with epochs := by simpa using x.epochs }))))))

/-! ### Operations of Machine/Observe.lean -/

theorem State.Sound.obsAccept {s : State} {g : Nat} {c : ObsCapture} {z x : List Cplx} {nmse : Int} (hs : s.Sound P Q) :
    (s.obsAccept g c z x nmse).Sound P Q := by
  unfold State.obsAccept
  dsimp only
  exact .dpdVerify (.dpdUse (.supervise (.putS (.putS hs))))

theorem State.Sound.obsFinish {s : State} {g : Nat} {codes : List Cplx} {nmse : Int} (hs : s.Sound P Q) : (s.obsFinish g codes nmse).Sound P Q := by
  unfold State.obsFinish
  dsimp only
  split
  · exact hs
  · exact .ite hs (by
      split
      · exact .modObsGroup hs
      · exact .ite (.obsDiscard (.ite (.put (.put (.allocWrite (.modObsGroup hs)))) (.allocWrite (.modObsGroup hs)))) (.obsAccept (.ite (.put (.put
          (.allocWrite (.modObsGroup hs)))) (.allocWrite (.modObsGroup hs)))))

/-! ### Operations of Machine/Capture.lean -/

theorem State.Sound.storeWord {s : State} {a : Nat} {v : Word} (hs : s.Sound P Q) : (s.storeWord a v).Sound P Q := by
  unfold State.storeWord
  dsimp only
  exact .setWord hs

theorem State.Sound.capArm {s : State} {v : Word} (hs : s.Sound P Q) : (s.capArm v).Sound P Q := by
  unfold State.capArm
  dsimp only
  exact .ite (.put (.put (.storeWord hs))) (.put (.put (.setCap (.storeWord hs))))

theorem State.Sound.capTrigger {s : State} (hs : s.Sound P Q) : (s.capTrigger).Sound P Q := by
  unfold State.capTrigger
  dsimp only
  exact .ite (.setCap hs) hs

theorem State.Sound.capEnd {s : State} {codes : List Cplx} (hs : s.Sound P Q) : (s.capEnd codes).Sound P Q := by
  unfold State.capEnd
  dsimp only
  exact .ite (.ite (.capStop (.ite hs (.capTake hs))) (.ite hs (.capTake hs))) hs

theorem State.Sound.prachGone {s : State} {c k : Nat} (hs : s.Sound P Q) : (s.prachGone c k).Sound P Q := by
  unfold State.prachGone
  dsimp only
  exact .put (.modCar hs)

theorem State.Sound.prachDone {s : State} {c k : Nat} {o : Occasion} {adc : List (List Cplx)} (hs : s.Sound P Q) :
    (s.prachDone c k o adc).Sound P Q := by
  unfold State.prachDone
  dsimp only
  exact .addGate (.prachGone hs)

theorem State.Sound.prachOccasion {s : State} {c k : Nat} {adc : List (List Cplx)} (hs : s.Sound P Q) : (s.prachOccasion c k adc).Sound P Q := by
  unfold State.prachOccasion
  dsimp only
  split
  · exact hs
  · exact .ite hs (.ite (.missed (.prachGone hs)) (.ite (.missedIn (.prachGone hs)) (.prachDone hs)))

/-! ### Operations of Machine/StairMask.lean -/

theorem State.Sound.writeTaps {s : State} {lane : Nat} {v : Word} (hs : s.Sound P Q) : (s.writeTaps lane v).Sound P Q := by
  unfold State.writeTaps
  dsimp only
  exact .ite (.put hs) (.storeWord hs)

theorem State.Sound.writeMask {s : State} {k : Nat} {v : Word} (hs : s.Sound P Q) : (s.writeMask k v).Sound P Q := by
  unfold State.writeMask
  dsimp only
  exact .forEach (.storeWord hs) fun _ _ h1 => .ite (.put h1) h1

/-! ### Operations of Machine/Discipline.lean -/

theorem State.Sound.takeHold {s : State} {src : Nat} (hs : s.Sound P Q) : (s.takeHold src).Sound P Q := by
  unfold State.takeHold
  dsimp only
  exact .ite hs (.setClock hs fun x => { x with })

theorem State.Sound.chooseSource {s : State} (hs : s.Sound P Q) : (s.chooseSource).Sound P Q := by
  unfold State.chooseSource
  dsimp only
  split
  · exact .setClock (.put (.putB hs)) fun x => { x with }
  · exact .ite (.setClock (.put (.put (.put (.putB hs)))) fun x => { x with }) (.ite (.putB hs) (.ite (.takeHold (.setClock (.put (.put
      (.putB hs))) fun x => { x with })) (.setClock (.put (.put (.putB hs))) fun x => { x with })))

theorem State.Sound.requestStep {s : State} {d : Int} (hs : s.Sound P Q) : (s.requestStep d).Sound P Q := by
  unfold State.requestStep
  dsimp only
  exact .ite hs (.setClock (.forEach hs fun _ _ h1 => .decideStop h1) fun x => { x with })

theorem State.Sound.applyStep {s : State} (hs : s.Sound P Q) : (s.applyStep).Sound P Q := by
  unfold State.applyStep
  dsimp only
  split
  · exact hs
  · exact .record (.put (.bump (.forEach { hs with
      clock := { hs.clock with }, carriers := by simpa using hs.carriers, begunAre := by simpa [Function.comp_def] using hs.begunAre } fun _ _ h2 => by
        split
        · exact h2
        · exact .dueStart h2
        · exact .dueStart h2)))

theorem State.Sound.steered {s : State} (hs : s.Sound P Q) : (s.steered).Sound P Q := by
  unfold State.steered
  dsimp only
  exact .setFree (.putS hs)

theorem State.Sound.disciplined {s : State} {err : Int} {limit : Nat} (hs : s.Sound P Q) : (s.disciplined err limit).Sound P Q := by
  unfold State.disciplined
  dsimp only
  exact .ite (.setClock (.put (.steered (.setClock (.ite (.requestStep (.setClock hs fun x => { x with }))
    (.setClock hs fun x => { x with })) fun x => { x with }))) fun x => { x with }) (.steered (.setClock (.ite (.requestStep
    (.setClock hs fun x => { x with })) (.setClock hs fun x => { x with })) fun x => { x with }))

/-! ### Operations of Machine/StairTree.lean -/

theorem State.Sound.topology {s : State} {port cause action : Nat} (hs : s.Sound P Q) : (s.topology port cause action).Sound P Q := by
  unfold State.topology
  exact .record hs

theorem State.Sound.showLandings {s : State} (hs : s.Sound P Q) : (s.showLandings).Sound P Q := by
  unfold State.showLandings
  exact .put hs

theorem State.Sound.treeEnter {s : State} {st : Nat} (hs : s.Sound P Q) : (s.treeEnter st).Sound P Q := by
  unfold State.treeEnter
  dsimp only
  exact .ite (.put hs) (.forEach (.otaAbandon (.put hs)) fun _ _ h1 => .decideStop h1)

theorem State.Sound.setParent {s : State} {p : Option Nat} (hs : s.Sound P Q) : (s.setParent p).Sound P Q := by
  unfold State.setParent
  split
  · exact .chooseSource (.put (.put (.put hs)))
  · exact .chooseSource (.put (.put hs))

theorem State.Sound.assignUse {s : State} {n : Nat} (hs : s.Sound P Q) : (s.assignUse n).Sound P Q := by
  unfold State.assignUse
  exact .ite (.put hs) (.ite (.setParent hs) (.put hs))

theorem State.Sound.formed {s : State} {path addition start : Nat} (hs : s.Sound P Q) : (s.formed path addition start).Sound P Q := by
  unfold State.formed
  dsimp only
  exact .forEach (.treeEnter (.modTree (.put (.put (.put hs))))) fun _ _ h1 => .showLatency h1

theorem State.Sound.settleDoubts {s : State} (hs : s.Sound P Q) : (s.settleDoubts).Sound P Q := by
  unfold State.settleDoubts
  dsimp only
  exact .modTree (.forEach hs fun _ _ h1 => .decided h1)

theorem State.Sound.topForm {s : State} (hs : s.Sound P Q) : (s.topForm).Sound P Q := by
  unfold State.topForm
  dsimp only
  exact .ite hs (.sendDown (.formed (.settleDoubts hs)))

theorem State.Sound.treeInstall {s : State} (hs : s.Sound P Q) : (s.treeInstall).Sound P Q := by
  unfold State.treeInstall
  dsimp only
  exact .ite (.topForm (.treeEnter (.put (.modTree (.showLandings (.put (.put hs))))))) (.showLandings (.put (.put hs)))

theorem State.Sound.takeDepth {s : State} {parentDepth : Nat} {formed : Bool} (hs : s.Sound P Q) : (s.takeDepth parentDepth formed).Sound P Q := by
  unfold State.takeDepth
  dsimp only
  split
  · exact hs
  · exact .ite (.put (.treeEnter hs)) (.ite (.sendOn (.forEach (.sendOn (.takeHold (.modTree (.treeEnter (.put hs))))) fun _ _ h2 => .sendOn h2))
      (.forEach (.sendOn (.takeHold (.modTree (.treeEnter (.put hs))))) fun _ _ h2 => .sendOn h2))

theorem State.Sound.learn {s : State} {members : List (Nat × List Nat)} (hs : s.Sound P Q) : (s.learn members).Sound P Q := by
  unfold State.learn
  exact .showLandings (.modTree hs)

theorem State.Sound.routeTree {s : State} {st path addition start landing : Nat} (hs : s.Sound P Q) :
    (s.routeTree st path addition start landing).Sound P Q := by
  unfold State.routeTree
  dsimp only
  exact .sendTo (by
      split
      · exact .ite (.modSPort hs) hs
      · exact hs)

theorem State.Sound.childJoins {s : State} {n landing : Nat} (hs : s.Sound P Q) : (s.childJoins n landing).Sound P Q := by
  unfold State.childJoins
  dsimp only
  exact .modSPort hs

theorem State.Sound.topJoin {s : State} {port landing uid : Nat} {path : List Nat} (hs : s.Sound P Q) :
    (s.topJoin port landing uid path).Sound P Q := by
  unfold State.topJoin
  dsimp only
  exact .ite (.topology (by
      split
      · exact .learn (.routeTree (.learn hs))
      · exact .showLandings (.modTree (.routeTree (.learn hs))))) (.ite (.ite (.topology (.routeTree (.put (.ite (.childJoins (.showLandings (.modTree
          (.learn hs)))) (.showLandings (.modTree (.learn hs))))))) (.routeTree (.put (.ite (.childJoins (.showLandings (.modTree (.learn hs))))
          (.showLandings (.modTree (.learn hs))))))) (.topForm (.ite (.childJoins (.showLandings (.modTree (.learn hs)))) (.showLandings (.modTree
          (.learn hs))))))

theorem State.Sound.joinArrived {s : State} {port landing uid : Nat} {path : List Nat} (hs : s.Sound P Q) :
    (s.joinArrived port landing uid path).Sound P Q := by
  unfold State.joinArrived
  dsimp only
  exact .ite (.topJoin hs) (.sendUp (.ite (.childJoins (.learn hs)) (.learn hs)))

theorem State.Sound.outcomesArrived {s : State} {landing : Nat} {entries : List (Nat × Nat)} (hs : s.Sound P Q) :
    (s.outcomesArrived landing entries).Sound P Q := by
  unfold State.outcomesArrived
  dsimp only
  exact .ite (.sendUp hs) (.ite (.topForm (.modTree hs)) (.forEach hs fun _ _ h1 => by
      split
      · exact .decided h1
      · exact h1))

theorem State.Sound.chooseParent {s : State} (hs : s.Sound P Q) : (s.chooseParent).Sound P Q := by
  unfold State.chooseParent
  dsimp only
  split
  · exact .ite hs (.treeEnter hs)
  · exact .topology (.sendOn (.modTree (.bump (.put hs))))

theorem State.Sound.parentLost {s : State} {unsent : List StairMsg} (hs : s.Sound P Q) : (s.parentLost unsent).Sound P Q := by
  unfold State.parentLost
  dsimp only
  exact .ite (.chooseParent (.modTree (.setParent hs))) (.modTree (.setParent hs))

theorem State.Sound.abandon {s : State} (hs : s.Sound P Q) : (s.abandon).Sound P Q := by
  unfold State.abandon
  split
  · exact hs
  · exact .chooseParent (.modTree (.modSPort hs))

theorem State.Sound.holdAgain {s : State} (hs : s.Sound P Q) : (s.holdAgain).Sound P Q := by
  unfold State.holdAgain
  dsimp only
  exact .forEach hs fun _ _ h1 => .ite (.sendUp h1) h1

theorem State.Sound.parentConfirmed {s : State} {n : Nat} (hs : s.Sound P Q) : (s.parentConfirmed n).Sound P Q := by
  unfold State.parentConfirmed
  dsimp only
  exact .ite (.sendUp (.ite (.sendUp (.treeEnter (.holdAgain (.queryAll (.sendUp (.forEach (.setParent (.modTree hs)) fun _ _ h1 => .sendUp h1))))))
    (.holdAgain (.queryAll (.sendUp (.forEach (.setParent (.modTree hs)) fun _ _ h1 => .sendUp h1)))))) (.ite (.sendUp (.treeEnter (.holdAgain
    (.queryAll (.sendUp (.forEach (.setParent (.modTree hs)) fun _ _ h1 => .sendUp h1)))))) (.holdAgain (.queryAll (.sendUp (.forEach (.setParent
    (.modTree hs)) fun _ _ h1 => .sendUp h1)))))

theorem State.Sound.adopt {s : State} {n landing from_ : Nat} (hs : s.Sound P Q) : (s.adopt n landing from_).Sound P Q := by
  unfold State.adopt
  dsimp only
  exact .put (.modSPort hs)

theorem State.Sound.confirmDown {s : State} {landing carrier symbol : Nat} (hs : s.Sound P Q) :
    (s.confirmDown landing carrier symbol).Sound P Q := by
  unfold State.confirmDown
  dsimp only
  split
  · exact .sendOn (.adopt hs)
  · exact .sendTo hs

theorem State.Sound.topReparent {s : State} {port landing carrier symbol : Nat} {members : List (Nat × List Nat)} (hs : s.Sound P Q) :
    (s.topReparent port landing carrier symbol members).Sound P Q := by
  unfold State.topReparent
  dsimp only
  exact .ite (.topology (.confirmDown (.put (.modTree hs)))) (.confirmDown (.put (.modTree hs)))

theorem State.Sound.reparentAsked {s : State} {port landing carrier symbol : Nat} {members : List (Nat × List Nat)} (hs : s.Sound P Q) :
    (s.reparentAsked port landing carrier symbol members).Sound P Q := by
  unfold State.reparentAsked
  dsimp only
  exact .ite (.ite (.abandon hs) hs) (.ite (.sendOn hs) (.ite (.topReparent (.learn (.ite (.modSPort hs) hs))) (.sendUp (.learn (.ite
    (.modSPort hs) hs)))))

theorem State.Sound.showPeer {s : State} {n : Nat} {h : Hello} (hs : s.Sound P Q) : (s.showPeer n h).Sound P Q := by
  unfold State.showPeer
  dsimp only
  exact .put (.put (.put (.put (.put hs))))

theorem State.Sound.parentHello {s : State} {h : Hello} (hs : s.Sound P Q) : (s.parentHello h).Sound P Q := by
  unfold State.parentHello
  dsimp only
  exact .ite (by
      split
      · exact .parentLost (.put (.modTree hs))
      · exact .modTree hs) (.ite (.takeDepth (.modTree hs)) (.ite (.put (.modTree hs)) (.modTree hs)))

theorem State.Sound.helloArrived {s : State} {n : Nat} {h : Hello} (hs : s.Sound P Q) : (s.helloArrived n h).Sound P Q := by
  unfold State.helloArrived
  dsimp only
  exact .ite hs (.ite (.ite (.modTree (.showPeer (.modSPort hs))) (.showPeer (.modSPort hs))) (.ite (.parentHello (.showPeer (.modSPort hs))) (.ite
    (.ite (.parentHello (.setParent (.showPeer (.modSPort hs)))) (.ite (.chooseParent (.showPeer (.modSPort hs))) (.showPeer (.modSPort hs))))
    (.showPeer (.modSPort hs)))))

theorem State.Sound.treeTargeted {s : State} {st path addition start landing : Nat} (hs : s.Sound P Q) :
    (s.treeTargeted st path addition start landing).Sound P Q := by
  unfold State.treeTargeted
  exact .ite (.ite (.treeEnter hs) (.ite (.formed hs) hs)) (.routeTree hs)

theorem State.Sound.treeBroadcast {s : State} {st path addition start : Nat} (hs : s.Sound P Q) :
    (s.treeBroadcast st path addition start).Sound P Q := by
  unfold State.treeBroadcast
  dsimp only
  exact .ite (.takeDepth (.sendDown (.forEach (.modTree hs) fun _ _ h1 => .modSPort h1))) (.ite (.formed (.sendDown (.forEach
    (.modTree hs) fun _ _ h1 => .modSPort h1))) (.ite (.put (.sendDown (.forEach (.modTree hs) fun _ _ h1 => .modSPort h1))) (.sendDown (.forEach
    (.modTree hs) fun _ _ h1 => .modSPort h1))))

/-! ### Operations of Machine/StairPorts.lean -/

theorem State.Sound.sEnter {s : State} {n st : Nat} (hs : s.Sound P Q) : (s.sEnter n st).Sound P Q := by
  unfold State.sEnter
  dsimp only
  exact .modSPort (.put hs)

theorem State.Sound.lanesEnter {s : State} {n st : Nat} (hs : s.Sound P Q) : (s.lanesEnter n st).Sound P Q := by
  unfold State.lanesEnter
  dsimp only
  exact .showLanes (.forEach hs fun _ _ h1 => .modSLane (.put (.put h1)))

theorem State.Sound.portQuiet {s : State} {n st : Nat} (hs : s.Sound P Q) : (s.portQuiet n st).Sound P Q := by
  unfold State.portQuiet
  dsimp only
  exact .modSPort (.put (.put (.lanesEnter (.sEnter (.padLanes hs)))))

theorem State.Sound.portListen {s : State} {n : Nat} (hs : s.Sound P Q) : (s.portListen n).Sound P Q := by
  unfold State.portListen
  dsimp only
  exact .modSPort (.portQuiet hs)

theorem State.Sound.portHoldoff {s : State} {n cause : Nat} (hs : s.Sound P Q) : (s.portHoldoff n cause).Sound P Q := by
  unfold State.portHoldoff
  exact .put (.portQuiet hs)

theorem State.Sound.flightFaultTo {s : State} {n cause st : Nat} (hs : s.Sound P Q) : (s.flightFaultTo n cause st).Sound P Q := by
  unfold State.flightFaultTo
  dsimp only
  exact .ite hs (.ite (.parentLost (.notice (.record (.put (.portQuiet (.bump hs)))))) (.ite (.abandon (.notice (.record (.put (.portQuiet
    (.bump hs)))))) (.notice (.record (.put (.portQuiet (.bump hs)))))))

theorem State.Sound.flightFault {s : State} {n cause : Nat} (hs : s.Sound P Q) : (s.flightFault n cause).Sound P Q := by
  unfold State.flightFault
  exact .flightFaultTo hs

theorem State.Sound.removeLane {s : State} {i cause : Nat} (hs : s.Sound P Q) : (s.removeLane i cause).Sound P Q := by
  unfold State.removeLane
  dsimp only
  exact .ite hs (.record (.ite (.modSPort (.showLanes (.modSLane (.put (.bump (.put (.put (.padLanes hs)))))))) (.showLanes (.modSLane (.put (.bump
    (.put (.put (.padLanes hs)))))))))

theorem State.Sound.laneFault {s : State} {i cause : Nat} (hs : s.Sound P Q) : (s.laneFault i cause).Sound P Q := by
  unfold State.laneFault
  dsimp only
  exact .ite (.flightFault (.removeLane hs)) (.removeLane hs)

theorem State.Sound.laneBack {s : State} {i : Nat} (hs : s.Sound P Q) : (s.laneBack i).Sound P Q := by
  unfold State.laneBack
  dsimp only
  exact .ite (.modSPort (.showLanes (.lanesBegin (.modSLane (.put hs))))) (.showLanes (.lanesBegin (.modSLane (.put hs))))

theorem State.Sound.lanesPlanned {s : State} (hs : s.Sound P Q) : (s.lanesPlanned).Sound P Q := by
  unfold State.lanesPlanned
  dsimp only
  exact .forEach hs fun _ _ h1 => .ite h1 (.ite (.ite (.laneBack h1) (.ite (.modSLane (.put h1)) h1)) (.ite (.modSLane (.put h1)) h1))

theorem State.Sound.detected {s : State} {n : Nat} {b : Burst} (hs : s.Sound P Q) : (s.detected n b).Sound P Q := by
  unfold State.detected
  dsimp only
  exact .ite (.topology (.portHoldoff hs)) (.sEnter (.lanesEnter (.modSPort (.put (.put hs)))))

theorem State.Sound.detectCheck {s : State} {n : Nat} (hs : s.Sound P Q) : (s.detectCheck n).Sound P Q := by
  unfold State.detectCheck
  dsimp only
  split
  · exact .ite (.detected hs) hs
  · exact hs

theorem State.Sound.farEq {s : State} {n : Nat} {foms : List Nat} (hs : s.Sound P Q) : (s.farEq n foms).Sound P Q := by
  unfold State.farEq
  dsimp only
  exact .ite hs (.ite (.forEach hs fun _ _ h1 => .put (.put h1)) (.lanesBegin (.sEnter (.forEach (.forEach hs fun _ _ h1 => .put
    (.put h1)) fun _ _ h1 => .put h1))))

theorem State.Sound.portUp {s : State} {n : Nat} {delays : List Int} (hs : s.Sound P Q) : (s.portUp n delays).Sound P Q := by
  unfold State.portUp
  dsimp only
  exact .assignUse (.put (.putS (.modSPort (.showLanes (.sEnter (.forEach (.padLanes hs) fun _ _ h1 => .modSLane (.ite h1 (.put h1))))))))

theorem State.Sound.portControl {s : State} {n : Nat} (hs : s.Sound P Q) : (s.portControl n).Sound P Q := by
  unfold State.portControl
  dsimp only
  exact .ite (.portListen (.modSPort hs)) (.ite (.portQuiet (.flightFault hs)) hs)

theorem State.Sound.retrain {s : State} {n : Nat} (hs : s.Sound P Q) : (s.retrain n).Sound P Q := by
  unfold State.retrain
  dsimp only
  exact .ite hs (.ite (.portListen (.flightFault (.forEach hs fun _ _ h1 => .removeLane h1))) (.portListen hs))

theorem State.Sound.acked {s : State} {n ack : Nat} (hs : s.Sound P Q) : (s.acked n ack).Sound P Q := by
  unfold State.acked
  dsimp only
  exact .ite hs (.drainStair (.modSPort hs))

theorem State.Sound.codeword {s : State} {n seq : Nat} (hs : s.Sound P Q) : (s.codeword n seq).Sound P Q := by
  unfold State.codeword
  dsimp only
  exact .ite (.bump hs) (.modSPort hs)

theorem State.Sound.timeRecord {s : State} {n index : Nat} (hs : s.Sound P Q) : (s.timeRecord n index).Sound P Q := by
  unfold State.timeRecord
  dsimp only
  exact .ite hs (by
      split
      · exact .sendOn (.modSPort hs)
      · exact hs)

theorem State.Sound.delayMeasured {s : State} {n : Nat} {d : Int} (hs : s.Sound P Q) : (s.delayMeasured n d).Sound P Q := by
  unfold State.delayMeasured
  dsimp only
  exact .ite (.modSPort hs) (.putS (.modSPort hs))

theorem State.Sound.timeArrived {s : State} {n index : Nat} {t1 t4 : Int} (hs : s.Sound P Q) : (s.timeArrived n index t1 t4).Sound P Q := by
  unfold State.timeArrived
  dsimp only
  split
  · exact .ite (.disciplined (.putS (.delayMeasured (.modSPort hs)))) (.putS (.delayMeasured (.modSPort hs)))
  · exact hs

theorem State.Sound.portSleep {s : State} {n : Nat} (hs : s.Sound P Q) : (s.portSleep n).Sound P Q := by
  unfold State.portSleep
  dsimp only
  exact .ite hs (.ite (.setParent (.portQuiet hs)) (.portQuiet hs))

theorem State.Sound.sleepPorts {s : State} (hs : s.Sound P Q) : (s.sleepPorts).Sound P Q := by
  unfold State.sleepPorts
  exact .forEach hs fun _ _ h1 => .portSleep (.sendOn h1)

theorem State.Sound.portWake {s : State} {n : Nat} (hs : s.Sound P Q) : (s.portWake n).Sound P Q := by
  unfold State.portWake
  exact .emit (.portQuiet hs)

/-! ### Operations of Machine/Ota.lean -/

theorem State.Sound.scheduleTaken {s : State} {round first period : Nat} {windows : List OtaWindow} (hs : s.Sound P Q) :
    (s.scheduleTaken round first period windows).Sound P Q := by
  unfold State.scheduleTaken
  dsimp only
  refine .ite (.ite hs (.setOta (.put (.put (.put hs))) fun x => { x with captures := fun _ => rfl, newTau := x.tau, newRho := x.rho })) (.ite hs ?_)
  exact .ite (.put (.setOta (.addTo hs) fun x => { x with })) (.setOta (.addTo hs) fun x => { x with })

theorem State.Sound.beginRound {s : State} (hs : s.Sound P Q) : (s.beginRound).Sound P Q := by
  unfold State.beginRound
  dsimp only
  exact .scheduleTaken (.sendDown (.setOta (.bump hs) fun x => { x with }))

theorem State.Sound.startRound {s : State} (hs : s.Sound P Q) : (s.startRound).Sound P Q := by
  unfold State.startRound
  dsimp only
  exact .ite (.beginRound hs) (.put hs)

theorem State.Sound.loopFactors {s : State} {a number : Nat} {factors : List (Nat × Word × Word)} (hs : s.Sound P Q) :
    (s.loopFactors a number factors).Sound P Q := by
  unfold State.loopFactors
  dsimp only
  exact .forEach hs fun _ _ h1 => by
      split
      · exact .ite (.setOta h1 fun x => { x with newTau := by simpa using x.newTau, newRho := by simpa using x.newRho }) (.put h1)
      · exact .put h1

theorem State.Sound.topMissed {s : State} {receiver sender : Nat} (hs : s.Sound P Q) : (s.topMissed receiver sender).Sound P Q := by
  unfold State.topMissed
  dsimp only
  exact .setOta hs fun x => { x with }

theorem State.Sound.sendMissed {s : State} (hs : s.Sound P Q) : (s.sendMissed).Sound P Q := by
  unfold State.sendMissed
  dsimp only
  exact .forEach hs fun _ _ h1 => .ite (.topMissed h1) (.sendUp h1)

theorem State.Sound.otaSends {s : State} {x : OtaAir} (hs : s.Sound P Q) : (s.otaSends x).Sound P Q := by
  unfold State.otaSends
  dsimp only
  exact .setOta hs fun x => { x with }

theorem State.Sound.windowBegins {s : State} {a number : Nat} {w : OtaWindow} (hs : s.Sound P Q) : (s.windowBegins a number w).Sound P Q := by
  have h1 : ({ s.put Reg.OTA.STATUS.state (w.kind + 1) with
      ota := { s.ota with now := some (number, !(!(s.shedding shedOta).isEmpty || !s.carActive s.otaCarrier)) } } : State).Sound P Q := .setOta (.put hs) fun x => { x with }
  exact .ite h1 (.ite (.emit (.otaSends (.setTrimsTone h1))) (.ite (.emit (.otaSends h1)) h1))

theorem State.Sound.windowEnds {s : State} {a number : Nat} {w : OtaWindow} {factors : List (Nat × Word × Word)} (hs : s.Sound P Q) :
    (s.windowEnds a number w factors).Sound P Q := by
  unfold State.windowEnds
  dsimp only
  exact .ite (.sendMissed (.ite (.loopFactors (.setOta hs fun x => { x with captures := by simp }))
    (.setOta hs fun x => { x with captures := by simp }))) (.ite (.put (.ite (.loopFactors
    (.setOta hs fun x => { x with captures := by simp })) (.setOta hs fun x => { x with captures := by simp })))
    (.ite (.put (.ite (.loopFactors (.setOta hs fun x => { x with captures := by simp }))
    (.setOta hs fun x => { x with captures := by simp }))) (.ite (.loopFactors
    (.setOta hs fun x => { x with captures := by simp })) (.setOta hs fun x => { x with captures := by simp }))))

theorem State.Sound.detection {s : State} {k path : Nat} {metric : Int} (hs : s.Sound P Q) : (s.detection k path metric).Sound P Q := by
  unfold State.detection
  dsimp only
  split
  · exact hs
  · exact .ite hs (by
      split
      · exact .setOta hs fun x => { x with captures := by simpa using x.captures }
      · exact .ite (.bump (.setOta hs fun x => { x with captures := by simpa using x.captures })) hs
      · exact hs)

theorem State.Sound.topReport {s : State} {sender receiver phi : Nat} {metric : Int} (hs : s.Sound P Q) :
    (s.topReport sender receiver phi metric).Sound P Q := by
  unfold State.topReport
  dsimp only
  exact .setOta hs fun x => { x with }

theorem State.Sound.captureDone {s : State} {k header : Nat} {streams : List (List Cplx)} {overloads : Nat} (hs : s.Sound P Q) :
    (s.captureDone k header streams overloads).Sound P Q := by
  unfold State.captureDone
  dsimp only
  split
  · exact hs
  · exact .ite hs (by
      split
      · exact .bump (.setOta hs fun x => { x with captures := by simpa using x.captures })
      · exact .ite (.bump (.put (.setOta hs fun x => { x with captures := by simpa using x.captures }))) (.ite (.topReport (.setOta (.bump
          (.setOta hs fun x => { x with captures := by simpa using x.captures })) fun x => { x with })) (.sendUp (.setOta (.bump
          (.setOta hs fun x => { x with captures := by simpa using x.captures })) fun x => { x with }))))

theorem State.Sound.retrySchedule {s : State} (hs : s.Sound P Q) : (s.retrySchedule).Sound P Q := by
  unfold State.retrySchedule
  dsimp only
  exact .ite hs (.scheduleTaken (.sendDown hs))

theorem State.Sound.stageArea {s : State} {total : Nat} (hs : s.Sound P Q) : (s.stageArea total).Sound P Q := by
  unfold State.stageArea
  dsimp only
  exact .put (.otaEnd (.setOta (.allocWrite hs) fun x => { x with }))

theorem State.Sound.stageAuto {s : State} {total : Nat} (hs : s.Sound P Q) : (s.stageAuto total).Sound P Q := by
  unfold State.stageAuto
  dsimp only
  exact .stagePart (.put hs)

theorem State.Sound.solutionTaken {s : State} {entries : List (Nat × Nat × Bool)} (hs : s.Sound P Q) : (s.solutionTaken entries).Sound P Q := by
  unfold State.solutionTaken
  dsimp only
  exact .ite (.stagePart hs) (.ite (.stageAuto (.ite (.put (.setOta hs fun x => { x with })) (.notice (.put (.setOta hs fun x => { x with }))))) (.ite
    (.stagePart (.stageArea (.ite (.put (.setOta hs fun x => { x with })) (.notice (.put (.setOta hs fun x => { x with })))))) (.stagePart (.otaEnd
    (.ite (.put (.setOta hs fun x => { x with })) (.notice (.put (.setOta hs fun x => { x with }))))))))

theorem State.Sound.solved {s : State} {psi : List (Nat × Nat)} {resid : Nat} (hs : s.Sound P Q) : (s.solved psi resid).Sound P Q := by
  unfold State.solved
  dsimp only
  exact .ite hs (.solutionTaken (.ite (.topInternal (.sendDown (.put (.setOta hs fun x => { x with })))) (.sendDown (.put
    (.setOta hs fun x => { x with })))))

/-! ### Operations of Machine/Recovery.lean -/

theorem State.Sound.beginRecov {s : State} {r : Recov} (hs : s.Sound P Q) : (s.beginRecov r).Sound P Q := by
  unfold State.beginRecov
  dsimp only
  exact .setRecov hs fun x => { x with }

theorem State.Sound.endRecov {s : State} {r : Recov} (hs : s.Sound P Q) : (s.endRecov r).Sound P Q := by
  unfold State.endRecov
  dsimp only
  exact .setRecov hs fun x => { x with }

theorem State.Sound.restartRecov {s : State} {r : Recov} (hs : s.Sound P Q) : (s.restartRecov r).Sound P Q := by
  unfold State.restartRecov
  split
  · exact .beginRecov (.endRecov hs)
  · exact .beginRecov hs

theorem State.Sound.dropRecov {s : State} {cls inst : Nat} (hs : s.Sound P Q) : (s.dropRecov cls inst).Sound P Q := by
  unfold State.dropRecov
  split
  · exact .endRecov hs
  · exact hs

theorem State.Sound.showSpares {s : State} (hs : s.Sound P Q) : (s.showSpares).Sound P Q := by
  unfold State.showSpares
  dsimp only
  exact .put (.put (.put hs))

theorem State.Sound.replayDone {s : State} {cls inst : Nat} (hs : s.Sound P Q) : (s.replayDone cls inst).Sound P Q := by
  unfold State.replayDone
  dsimp only
  split
  · exact hs
  · exact .when (.record (.put (.when (.showSpares (.endRecov hs)) (fun _ h2 => .addTo h2)))) (fun _ h2 => .notice h2)

theorem State.Sound.modAlcove {s : State} {k : Nat} {f : Alcove → Alcove} (hs : s.Sound P Q) : (s.modAlcove k f).Sound P Q := by
  unfold State.modAlcove
  exact .setAlcoves hs fun x => by simpa using x

theorem State.Sound.tileServes {s : State} {h tile : Nat} (hs : s.Sound P Q) : (s.tileServes h tile).Sound P Q := by
  unfold State.tileServes
  dsimp only
  exact .ite (.modAlcove (.modHall hs)) (.modHall hs)

theorem State.Sound.rehouse {s : State} {h mask : Nat} (hs : s.Sound P Q) : (s.rehouse h mask).Sound P Q := by
  unfold State.rehouse
  dsimp only
  split
  · exact .restartRecov (.tileServes hs)
  · split
    · exact .restartRecov (.tileServes (.record (.modHall (.dropRecov hs))))
    · exact .wedge (.record (.showSpares (.modHall (.dropRecov hs))))

theorem State.Sound.hallFault {s : State} {tile mask : Nat} (hs : s.Sound P Q) : (s.hallFault tile mask).Sound P Q := by
  unfold State.hallFault
  dsimp only
  exact .ite (.ite hs (by
      split
      · exact .rehouse (.modAlcove hs)
      · exact .record (.showSpares (.modAlcove hs)))) (by
      split
      · exact .rehouse hs
      · exact hs)

theorem State.Sound.showPipe {s : State} {k : Nat} (hs : s.Sound P Q) : (s.showPipe k).Sound P Q := by
  unfold State.showPipe
  dsimp only
  exact .put hs

theorem State.Sound.setPipe {s : State} {k : Nat} {x : Spare} (hs : s.Sound P Q) : (s.setPipe k x).Sound P Q := by
  unfold State.setPipe
  dsimp only
  exact .showPipe (.setRecov hs fun x => { x with pipes := by simpa using x.pipes })

theorem State.Sound.pipeFault {s : State} {p : Nat} (hs : s.Sound P Q) : (s.pipeFault p).Sound P Q := by
  unfold State.pipeFault
  dsimp only
  exact .ite hs (by
      split
      · exact .restartRecov (.setPipe (by
      split
      · exact .setPipe hs
      · exact hs))
      · exact .record (.internalTxn (.setRecov (.showSpares (.dropRecov (by
      split
      · exact .setPipe hs
      · exact hs))) fun x => { x with })))

theorem State.Sound.inPlace {s : State} {f : Function} {cls unit mask : Nat} (hs : s.Sound P Q) : (s.inPlace f cls unit mask).Sound P Q := by
  unfold State.inPlace
  exact .ite hs (by
      split
      · exact .wedge (.endRecov hs)
      · exact .beginRecov hs)

theorem State.Sound.showBank {s : State} {k : Nat} (hs : s.Sound P Q) : (s.showBank k).Sound P Q := by
  unfold State.showBank
  dsimp only
  exact .put hs

theorem State.Sound.setBank {s : State} {k : Nat} {x : Spare} (hs : s.Sound P Q) : (s.setBank k x).Sound P Q := by
  unfold State.setBank
  dsimp only
  exact .showBank (.setRecov hs fun x => { x with banks := by simpa using x.banks })

theorem State.Sound.spareBank {s : State} {b : Nat} (hs : s.Sound P Q) : (s.spareBank b).2.Sound P Q := by
  unfold State.spareBank
  dsimp only
  split
  · exact .setBank (by
      split
      · exact .setBank hs
      · exact hs)
  · exact hs

theorem State.Sound.loseBytes {s : State} {off n : Nat} {held : List (Nat × Nat × Nat)} (hs : s.Sound P Q) : (s.loseBytes off n held).Sound P Q := by
  unfold State.loseBytes
  dsimp only
  exact .ite (by
      split
      · exact .setRecov hs fun x => { x with }
      · exact hs) (.ite (.forEach hs fun _ _ h1 => .loseWeights h1) (.ite (.setRecov hs fun x => { x with }) (.ite (.forEach hs fun _ _ h1 => .ite
          (.loseData h1) (.loseJournal h1)) (.ite (.setFree (.memWrite hs)) hs))))

theorem State.Sound.stopUntilFit {s : State} (hs : s.Sound P Q) : (s.stopUntilFit).Sound P Q := by
  unfold State.stopUntilFit
  exact .forEach hs fun _ _ h1 => .ite h1 (.record (.decideStop h1))

theorem State.Sound.loseBank {s : State} {b : Nat} {held : List (Nat × Nat × Nat)} (hs : s.Sound P Q) : (s.loseBank b held).Sound P Q := by
  have h1 : (s.loseBytes (b * bankBytes) bankBytes held).Sound P Q := .loseBytes hs
  unfold State.loseBank
  dsimp only
  generalize s.loseBytes (b * bankBytes) bankBytes held = u at h1 ⊢
  have h2 : ({ u with recov := { u.recov with lost := u.recov.lost ++ [b] }, mem := Memory.clear u.mem (b * bankBytes) bankBytes } : State).Sound P Q
    :=
    { h1 with recov := { h1.recov with }, mem := fun hp => Memory.wf_clear (h1.mem hp) _ _ }
  exact .ite (.record h2) (.ite (.stopUntilFit (.record h2)) (.wedge (.stopUntilFit (.record h2))))

theorem State.Sound.wordLost {s : State} {b word mask : Nat} {held : List (Nat × Nat × Nat)} (hs : s.Sound P Q) :
    (s.wordLost b word mask held).Sound P Q := by
  unfold State.wordLost
  dsimp only
  split
  · exact hs
  · split
    next e => exact .loseBytes (.restartRecov (.dropRecov (hs.spareBank.of_snd e)))
    next e => exact .loseBank (.dropRecov (hs.spareBank.of_snd e))

theorem State.Sound.scrubbed {s : State} {b corrected : Nat} {bad : Option Nat} (hs : s.Sound P Q) : (s.scrubbed b corrected bad).Sound P Q := by
  unfold State.scrubbed
  dsimp only
  refine .ite hs ?_
  split
  · exact .wordLost hs
  · refine .ite hs ?_
    split
    next e => exact .beginRecov (hs.spareBank.of_snd e)
    next e => exact hs.spareBank.of_snd e

/-! ### Operations of Machine/Clock.lean -/

theorem State.Sound.setIsland {s : State} {n : Nat} {on : Bool} (hs : s.Sound P Q) : (s.setIsland n on).Sound P Q := by
  unfold State.setIsland
  exact .putBit (.putBit hs)

theorem State.Sound.refLost {s : State} (hs : s.Sound P Q) : (s.refLost).Sound P Q := by
  unfold State.refLost
  dsimp only
  exact .ite hs (.record (.bump (.putBit (.put (.put (.setClock hs fun x => { x with }))))))

theorem State.Sound.refLimit {s : State} (hs : s.Sound P Q) : (s.refLimit).Sound P Q := by
  unfold State.refLimit
  dsimp only
  split
  · exact hs
  · exact .ite hs (.record (.put (.forEach hs fun _ _ h2 => .decideStop h2)))

theorem State.Sound.refAccept {s : State} {hz us : Nat} (hs : s.Sound P Q) : (s.refAccept hz us).Sound P Q := by
  unfold State.refAccept
  dsimp only
  exact .ite (.setIsland (.put (.put (.put hs)))) hs

theorem State.Sound.ptpArrived {s : State} {n domain : Nat} {body : PtpBody} (hs : s.Sound P Q) : (s.ptpArrived n domain body).Sound P Q := by
  unfold State.ptpArrived
  dsimp only
  exact .ite hs (by
      split
      · exact .chooseSource (.setFh hs fun x => { x with masters := by simpa using x.masters })
      · split
        · exact .setFh hs fun x => { x with masters := by simpa using x.masters }
        · exact hs
      · split
        · split
          · exact .ite (.disciplined hs) hs
          · exact hs
        · exact hs)

theorem State.Sound.syncEdge {s : State} (hs : s.Sound P Q) : (s.syncEdge).Sound P Q := by
  unfold State.syncEdge
  dsimp only
  exact .ite hs (.ite (.requestStep (.setClock (.putS hs) fun x => { x with })) (.putS hs))

theorem State.Sound.alignNext {s : State} (hs : s.Sound P Q) : (s.alignNext).Sound P Q := by
  unfold State.alignNext
  dsimp only
  exact .setClock hs fun x => { x with }

theorem State.Sound.cnvUntracked {s : State} (hs : s.Sound P Q) : (s.cnvUntracked).Sound P Q := by
  unfold State.cnvUntracked
  exact .put (.put hs)

theorem State.Sound.cnvSeeded {s : State} {u k : Nat} (hs : s.Sound P Q) : (s.cnvSeeded u k).Sound P Q := by
  unfold State.cnvSeeded
  dsimp only
  exact .setClock hs fun x => { x with cnvLfsr := by simpa using x.cnvLfsr }

theorem State.Sound.cnvRestart {s : State} {u : Nat} (hs : s.Sound P Q) : (s.cnvRestart u).Sound P Q := by
  unfold State.cnvRestart
  dsimp only
  exact .setClock (.put
    (.cnvSeeded hs)) fun x => { x with cnvAttempts := by simpa using x.cnvAttempts, cnvRestarting := by simpa using x.cnvRestarting }

theorem State.Sound.cnvHandover {s : State} (hs : s.Sound P Q) : (s.cnvHandover).Sound P Q := by
  unfold State.cnvHandover
  dsimp only
  exact .ite hs (.record (.bump (.cnvRestart (.cnvUntracked (.put hs)))))

theorem State.Sound.cnvStops {s : State} (hs : s.Sound P Q) : (s.cnvStops).Sound P Q := by
  unfold State.cnvStops
  dsimp only
  exact .ite hs (.beginRecov (.setClock (.cnvRestart (.cnvRestart (.setIsland (.bump (.cnvUntracked hs))))) fun x => { x with }))

theorem State.Sound.cnvResume {s : State} (hs : s.Sound P Q) : (s.cnvResume).Sound P Q := by
  unfold State.cnvResume
  dsimp only
  refine .ite hs ?_
  have h1 : ({ s.setIsland islandCnv true with clock := { (s.setIsland islandCnv true).clock with cnvStopped := false } } : State).Sound P Q :=
    .setClock (.setIsland hs) fun x => { x with }
  split
  · exact { h1 with clock := { h1.clock with } }
  · exact .ite (.beginRecov (.endRecov h1)) (.record (.put (.setClock (.endRecov h1) fun x => { x with })))

theorem State.Sound.cnvFailed {s : State} {u : Nat} (hs : s.Sound P Q) : (s.cnvFailed u).Sound P Q := by
  unfold State.cnvFailed
  dsimp only
  exact .ite (.record (.setClock (.put hs) fun x => { x with cnvRestarting := by simpa using x.cnvRestarting })) (.ite (.wedge (by
      split
      · exact .endRecov (.setClock (.put hs) fun x => { x with cnvRestarting := by simpa using x.cnvRestarting })
      · exact .setClock (.put hs) fun x => { x with cnvRestarting := by simpa using x.cnvRestarting })) (.setClock
          (.put hs) fun x => { x with cnvRestarting := by simpa using x.cnvRestarting }))

theorem State.Sound.cnvTracking {s : State} {diff : Int} (hs : s.Sound P Q) : (s.cnvTracking diff).Sound P Q := by
  have h1 : (s.putS Reg.CLOCK.CNV_STATUS.diff (satS 16 diff)).Sound P Q := .putS hs
  unfold State.cnvTracking
  dsimp only
  generalize s.putS Reg.CLOCK.CNV_STATUS.diff (satS 16 diff) = u at h1 ⊢
  have h2 : (if diff.natAbs ≤ 200 then u else { u with clock := { u.clock with cnvSince := u.now } } : State).Sound P Q :=
    .ite h1 (.setClock h1 fun x => { x with })
  generalize (if diff.natAbs ≤ 200 then u else _ : State) = v at h2 ⊢
  exact .ite h2 (.ite (.ite h2 (.put (.put h2))) (.ite (.cnvStops h2) h2))

theorem State.Sound.islandLost {s : State} {n : Nat} (hs : s.Sound P Q) : (s.islandLost n).Sound P Q := by
  have h1 : ((s.setIsland n false).bump (Reg.CLOCK.ISLAND_CNT.losses n)).Sound P Q := .bump (.setIsland hs)
  unfold State.islandLost
  dsimp only
  generalize (s.setIsland n false).bump (Reg.CLOCK.ISLAND_CNT.losses n) = u at h1 ⊢
  exact .setClock h1 fun x => { x with attempts := by simpa using x.attempts, restarting := by simpa using x.restarting }

theorem State.Sound.synthLost {s : State} {n : Nat} (hs : s.Sound P Q) : (s.synthLost n).Sound P Q := by
  unfold State.synthLost
  dsimp only
  exact .ite (.refLost hs) (.ite (.loLockLoss hs) (.ite (.ite (.cnvHandover hs) (.cnvStops hs)) (.ite hs (.ite (.forEach
    (.islandLost hs) fun _ _ h1 => .linkFault h1) (.ite (.forEach (.islandLost hs) fun _ _ h1 => .flightFault h1) (.ite (.record (.setClock (.disarm
    (.put (.islandLost hs))) fun x => { x with })) (.record (.putBit (.islandLost hs)))))))))

theorem State.Sound.thaw {s : State} (hs : s.Sound P Q) : (s.thaw).Sound P Q := by
  unfold State.thaw
  dsimp only
  split
  · exact hs
  · exact .ite (.setClock hs fun x => { x with }) (.takeHold (.setClock (.put (.setClock hs fun x => { x with })) fun x => { x with }))

theorem State.Sound.synthLocked {s : State} {n u : Nat} (hs : s.Sound P Q) : (s.synthLocked n u).Sound P Q := by
  unfold State.synthLocked
  dsimp only
  exact .ite (.ite hs (.ite (.thaw (.setClock (.put (.setClock
    (.put hs) fun x => { x with cnvRestarting := by simpa using x.cnvRestarting })) fun x => { x with })) (.setClock
    (.put hs) fun x => { x with cnvRestarting := by simpa using x.cnvRestarting }))) (.ite hs (.ite (.arm (.thaw (.setClock
    (.setIsland hs) fun x => { x with restarting := by simpa using x.restarting }))) (.setClock
    (.setIsland hs) fun x => { x with restarting := by simpa using x.restarting })))

theorem State.Sound.synthTimeout {s : State} {n u : Nat} (hs : s.Sound P Q) : (s.synthTimeout n u).Sound P Q := by
  have h1 {k : Nat} :
    (if n = islandCnv then { s.bump (Reg.CLOCK.ISLAND_CNT.failed n) with clock := { s.clock with cnvAttempts := s.clock.cnvAttempts.set u k } }
      else { s.bump (Reg.CLOCK.ISLAND_CNT.failed n) with clock := { s.clock with attempts := s.clock.attempts.set n k } } : State).Sound P Q :=
    .ite (.setClock (.bump hs) fun x => { x with cnvAttempts := by simpa using x.cnvAttempts })
      (.setClock (.bump hs) fun x => { x with attempts := by simpa using x.attempts })
  have h2 {u : State} (hu : u.Sound P Q) : ({ u with clock := { u.clock with restarting := u.clock.restarting.set n false } } : State).Sound P Q :=
    .setClock hu fun x => { x with restarting := by simpa using x.restarting }
  refine .ite hs (.ite (.ite (.cnvSeeded h1) h1) (.ite (.ite (.wakeFail h1) (.cnvFailed h1)) ?_))
  exact .ite (.wakeFail (h2 h1)) (.ite (.wedge (h2 h1)) (.ite (.wedge (h2 h1)) (.ite (.setClock (h2 h1) fun x => { x with }) (h2 h1))))

theorem State.Sound.timResume {s : State} (hs : s.Sound P Q) : (s.timResume).Sound P Q := by
  unfold State.timResume
  exact .ite (.put (.disarm hs)) hs

theorem State.Sound.xfeedMeasured {s : State} {delta : Int} (hs : s.Sound P Q) : (s.xfeedMeasured delta).Sound P Q := by
  unfold State.xfeedMeasured
  dsimp only
  exact .ite hs (.putB (.putS (.setClock hs fun x => { x with })))

theorem State.Sound.ditherWrite {s : State} {v : Word} (hs : s.Sound P Q) : (s.ditherWrite v).Sound P Q := by
  unfold State.ditherWrite
  dsimp only
  exact .ite (.put (.ite (.put hs) hs)) (.forEach (.put (.ite (.put hs) hs)) fun _ _ h1 => .showDither h1)

theorem State.Sound.islandsStop {s : State} {l : List Nat} (hs : s.Sound P Q) : (s.islandsStop l).Sound P Q := by
  unfold State.islandsStop
  dsimp only
  exact .ite (.cnvUntracked (.put (.put (.forEach hs fun _ _ h1 => .setIsland h1)))) (.forEach hs fun _ _ h1 => .setIsland h1)

theorem State.Sound.islandsStart {s : State} {l : List Nat} (hs : s.Sound P Q) : (s.islandsStart l).Sound P Q := by
  unfold State.islandsStart
  dsimp only
  exact .forEach (.ite (.cnvRestart
    (.cnvRestart hs)) hs) fun _ _ h1 => .setClock h1 fun x =>
    { x with attempts := by simpa using x.attempts, restarting := by simpa using x.restarting }

theorem State.Sound.islandsUp {s : State} (hs : s.Sound P Q) : (s.islandsUp).Sound P Q := by
  unfold State.islandsUp
  dsimp only
  exact .put (.put (.setClock
    (.forEach hs fun _ _ h1 => .setIsland h1) fun x =>
    { x with restarting := by simp, cnvRestarting := by simp }))

/-! ### Operations of Machine/Planner.lean -/

theorem State.Sound.showBlocked {s : State} (hs : s.Sound P Q) : (s.showBlocked).Sound P Q := by
  unfold State.showBlocked
  exact .putB hs

theorem State.Sound.speedMeasured {s : State} {readings : List Nat} (hs : s.Sound P Q) : (s.speedMeasured readings).Sound P Q := by
  unfold State.speedMeasured
  dsimp only
  exact .ite hs (.forEach (.showBlocked (.forEach (.setEnergy hs fun x => { x with monitors := by simp }) fun _ _ h1 => .putB
    (.put h1))) fun _ _ h1 => .record h1)

theorem State.Sound.speedMissed {s : State} (hs : s.Sound P Q) : (s.speedMissed).Sound P Q := by
  unfold State.speedMissed
  dsimp only
  split
  · exact .ite (.setEnergy (.bump (.put hs)) fun x => { x with }) hs
  · exact hs

theorem State.Sound.showPEff {s : State} (hs : s.Sound P Q) : (s.showPEff).Sound P Q := by
  unfold State.showPEff
  exact .put hs

theorem State.Sound.setBucket {s : State} {b : Int} (hs : s.Sound P Q) : (s.setBucket b).Sound P Q := by
  unfold State.setBucket
  dsimp only
  exact .putS (.setEnergy hs fun x => { x with })

theorem State.Sound.addEnergy {s : State} {g uJ : Nat} (hs : s.Sound P Q) : (s.addEnergy g uJ).Sound P Q := by
  unfold State.addEnergy
  exact .add64 (.add64 hs)

theorem State.Sound.energyUpdated {s : State} {core nonCore : Nat} (hs : s.Sound P Q) : (s.energyUpdated core nonCore).Sound P Q := by
  unfold State.energyUpdated
  dsimp only
  exact .ite hs (.ite (.disarm hs) (.setEnergy (by
      split
      · exact .put (.setBucket (.addEnergy (.disarm hs)))
      · exact .setBucket (.addEnergy (.disarm hs))) fun x => { x with }))

theorem State.Sound.pmBus {s : State} {ok : Bool} (hs : s.Sound P Q) : (s.pmBus ok).Sound P Q := by
  unfold State.pmBus
  exact .ite (.put hs) (.record (.put (.bump hs)))

theorem State.Sound.voutCommand {s : State} {mv : Nat} {ok : Bool} (hs : s.Sound P Q) : (s.voutCommand mv ok).Sound P Q := by
  unfold State.voutCommand
  dsimp only
  exact .arm (.pmBus (.emit (.setEnergy hs fun x => { x with })))

theorem State.Sound.readback {s : State} {mv : Option Nat} (hs : s.Sound P Q) : (s.readback mv).Sound P Q := by
  unfold State.readback
  dsimp only
  exact .ite hs (by
      split
      · exact .pmBus (.arm (.emit hs))
      · exact .setEnergy (.put (.pmBus (.arm (.emit hs)))) fun x => { x with })

theorem State.Sound.pmAlerted {s : State} {status : Option Nat} (hs : s.Sound P Q) : (s.pmAlerted status).Sound P Q := by
  unfold State.pmAlerted
  dsimp only
  split
  · exact .record (.pmBus (.emit hs))
  · exact .pmBus (.emit hs)

theorem State.Sound.countShed {s : State} {was n : Nat} (hs : s.Sound P Q) : (s.countShed was n).Sound P Q := by
  unfold State.countShed
  dsimp only
  exact .forEach (.when hs (fun _ h1 => .bump h1)) fun _ _ h1 => .bump h1

theorem State.Sound.levelRecord {s : State} {was n : Nat} (hs : s.Sound P Q) : (s.levelRecord was n).Sound P Q := by
  unfold State.levelRecord
  exact .when hs fun _ h1 => .record h1

theorem State.Sound.fixPlan {s : State} {k : Nat} {ok : Bool} (hs : s.Sound P Q) : (s.fixPlan k ok).Sound P Q := by
  unfold State.fixPlan
  dsimp only
  exact .when (.setEnergy (.forEach (.levelRecord (.countShed (.when (.put (.putB (.put (.showPEff (.showBlocked
    (.setEnergy hs fun x => { x with })))))) (fun _ h1 => .bump (.put h1))))) fun _ _ h1 => .raise h1) fun x => { x with })
    (fun _ h1 => .voutCommand h1)

theorem State.Sound.shedNow {s : State} {n : Nat} (hs : s.Sound P Q) : (s.shedNow n).Sound P Q := by
  unfold State.shedNow
  dsimp only
  exact .setHalls (.ite (.capStop (.put hs)) (.put hs)) fun x => by simpa using x

theorem State.Sound.slotBegins {s : State} {k : Nat} (hs : s.Sound P Q) : (s.slotBegins k).Sound P Q := by
  unfold State.slotBegins
  dsimp only
  split
  · exact .shedNow (.levelRecord (.countShed (.setEnergy hs fun x => { x with })))
  · exact .shedNow (.setEnergy hs fun x => { x with })

theorem State.Sound.slotWork {s : State} (hs : s.Sound P Q) : (s.slotWork).Sound P Q := by
  unfold State.slotWork
  dsimp only
  exact .loBoundary (.fhLayout (.leases (.lanesPlanned (.timResume (.cnvResume (.ite (.raiseAll (.raiseAll (.updatePaths (.clearTables (.dropEntries
    (.applyBoundary (.verdictsDue (.latchAll hs)))))))) (.applyBoundary (.verdictsDue (.latchAll hs)))))))))

theorem State.Sound.planningBoundary {s : State} {ok : Bool} (hs : s.Sound P Q) : (s.planningBoundary ok).Sound P Q := by
  unfold State.planningBoundary
  dsimp only
  exact .ite hs (.applyStep (.ite (.emit (.emit (.ite (.fixPlan (.setTrimsDelay (.arm (.slotBegins (.slotWork hs))))) (.setTrimsDelay (.arm
    (.slotBegins (.slotWork hs))))))) (.ite (.fixPlan (.setTrimsDelay (.arm (.slotBegins (.slotWork hs))))) (.setTrimsDelay (.arm (.slotBegins
    (.slotWork hs)))))))

/-! ### Operations of Machine/PowerStates.lean -/

theorem State.Sound.endSession {s : State} {n : Nat} (hs : s.Sound P Q) : (s.endSession n).Sound P Q := by
  unfold State.endSession
  split
  · exact hs
  · exact .modChan (.setSession (.txnSessionEnd hs))

theorem State.Sound.endSessions {s : State} (hs : s.Sound P Q) : (s.endSessions).Sound P Q := by
  unfold State.endSessions
  exact .forEach hs fun _ _ h1 => .endSession h1

theorem State.Sound.entryStopped {s : State} (hs : s.Sound P Q) : (s.entryStopped).Sound P Q := by
  unfold State.entryStopped
  dsimp only
  exact .ite hs (.ite (.txnAbortAll hs) (.femArises (.forEach (.sleepPorts (.txnAbortAll hs)) fun _ _ h1 => .fhEnter h1)))

theorem State.Sound.enterBegin {s : State} {target : Nat} (hs : s.Sound P Q) : (s.enterBegin target).Sound P Q := by
  unfold State.enterBegin
  dsimp only
  exact .entryStopped (.when (.forEach (.setEnergy (.put hs) fun x => { x with }) fun _ _ h1 => .decideStop h1) (fun _ h1 => .endSessions h1))

theorem State.Sound.powerRequest {s : State} {target asserted : Nat} (hs : s.Sound P Q) : (s.powerRequest target asserted).Sound P Q := by
  unfold State.powerRequest
  dsimp only
  split
  · exact .put (.put (.bump (.put (.put hs))))
  · exact .enterBegin (.put hs)

theorem State.Sound.hostMutes {s : State} {all : Bool} (hs : s.Sound P Q) : (s.hostMutes all).Sound P Q := by
  unfold State.hostMutes
  exact .forEach hs fun _ _ h1 => .setMute h1

theorem State.Sound.powerDown {s : State} {target : Nat} (hs : s.Sound P Q) : (s.powerDown target).Sound P Q := by
  unfold State.powerDown
  dsimp only
  have h1 {u : State} (hu : u.Sound P Q) : (((u.loStop 0).loStop 1).islandsStop (sleepIslands target)).Sound P Q := .islandsStop (.loStop
    (.loStop hu))
  exact .ite (.setClockBoot (.putBit (.put (.disarm (.emit (.voutCommand (h1 hs)))))) (fun x => { x with }) fun x => { x with }) (.voutCommand
    (h1 hs))

theorem State.Sound.beginWake {s : State} (hs : s.Sound P Q) : (s.beginWake).Sound P Q := by
  unfold State.beginWake
  dsimp only
  exact .ite (.setEnergy (.put hs) fun x => { x with failures := by simp }) (.femArises (.forEach (.islandsStart (.voutCommand
    (.setBoot (.when (.setEnergy (.put hs) fun x => { x with failures := by simp })
    (fun _ h1 => .emit h1)) fun x => { x with }))) fun _ _ h1 => .loStart h1))

theorem State.Sound.stateEntered {s : State} (hs : s.Sound P Q) : (s.stateEntered).Sound P Q := by
  unfold State.stateEntered
  dsimp only
  exact .ite hs (.ite (.setEnergy (.put (.ite (.hostMutes hs) (.when (.powerDown (.femFlush hs)) (fun _ h1 => .dropPending h1)))) fun x => { x with })
    (.beginWake (.setEnergy (.put (.ite (.hostMutes hs) (.when (.powerDown (.femFlush hs)) (fun _ h1 => .dropPending h1)))) fun x => { x with })))

theorem State.Sound.latchWake {s : State} {src : Nat} (hs : s.Sound P Q) : (s.latchWake src).Sound P Q := by
  unfold State.latchWake
  dsimp only
  exact .setEnergy hs fun x => { x with }

theorem State.Sound.wakeSource {s : State} {src : Nat} (hs : s.Sound P Q) : (s.wakeSource src).Sound P Q := by
  unfold State.wakeSource
  exact .ite hs (.ite (.latchWake hs) (.ite (.beginWake (.latchWake hs)) hs))

theorem State.Sound.wakeTimeout {s : State} {step unit : Nat} (hs : s.Sound P Q) : (s.wakeTimeout step unit).Sound P Q := by
  unfold State.wakeTimeout
  dsimp only
  exact .ite hs (.ite (.setEnergy hs fun x => { x with failures := by simpa using x.failures }) (.wakeFail
    (.setEnergy hs fun x => { x with failures := by simpa using x.failures })))

theorem State.Sound.loseUnretained {s : State} (hs : s.Sound P Q) : (s.loseUnretained).Sound P Q := by
  unfold State.loseUnretained
  dsimp only
  exact .forEach hs fun _ _ h1 => .setFree (.memWrite h1)

theorem State.Sound.loseSets {s : State} (hs : s.Sound P Q) : (s.loseSets).Sound P Q := by
  unfold State.loseSets
  dsimp only
  exact .ite hs { hs with beam := { hs.beam with sets := by simp } }

theorem State.Sound.emptySet {s : State} {c set : Nat} (hs : s.Sound P Q) : (s.emptySet c set).Sound P Q := by
  unfold State.emptySet
  dsimp only
  exact .setBeam hs fun x => { x with sets := by simpa using x.sets }

theorem State.Sound.retentionContent {s : State} {b : Nat} {sets : List (Nat × Nat)} (hs : s.Sound P Q) : (s.retentionContent b sets).Sound P Q := by
  unfold State.retentionContent
  dsimp only
  exact .setMem (.ite (.put (by
      split
      · exact .setValid hs
      · exact hs)) (.ite (.forEach hs fun _ _ h1 => .emptySet h1) hs)) fun h => Memory.wf_clear h _ _

theorem State.Sound.retentionLost {s : State} {b : Nat} {sets : List (Nat × Nat)} (hs : s.Sound P Q) : (s.retentionLost b sets).Sound P Q := by
  unfold State.retentionLost
  dsimp only
  exact .ite hs (.ite (.record (.showSpares (.put (.putBit (.retentionContent (.spareBank hs)))))) (.loseBank (.record (.showSpares (.put (.putBit
    (.retentionContent (.spareBank hs))))))))

theorem State.Sound.wakeUp {s : State} {deep : Bool} {failed : List Nat} {sets : List (Nat × Nat)} (hs : s.Sound P Q) :
    (s.wakeUp deep failed sets).Sound P Q := by
  unfold State.wakeUp
  dsimp only
  exact .ite (.forEach (.ite (.setClock (.when (.put (.islandsUp (.forEach (.startHalls (.forEach (.loseSets (.loseUnretained
    (.femFlush hs))) fun _ _ h1 => .retentionLost h1)) fun _ _ h1 => .clearSticky h1))) (fun _ h1 => .put h1)) fun x => { x with }) (.islandsUp
    (.forEach (.startHalls (.forEach (.loseSets (.loseUnretained
    (.femFlush hs))) fun _ _ h1 => .retentionLost h1)) fun _ _ h1 => .clearSticky h1))) fun _ _ h1 => .portWake h1) (.ite (.setClock (.when (.put
    (.islandsUp (.forEach (.startHalls (.forEach (.loseSets (.loseUnretained
    (.femFlush hs))) fun _ _ h1 => .retentionLost h1)) fun _ _ h1 => .clearSticky h1))) (fun _ h1 => .put h1)) fun x => { x with }) (.islandsUp
    (.forEach (.startHalls (.forEach (.loseSets (.loseUnretained (.femFlush hs))) fun _ _ h1 => .retentionLost h1)) fun _ _ h1 => .clearSticky h1)))

theorem State.Sound.startsFromHere {s : State} {l : List Nat} (hs : s.Sound P Q) : (s.startsFromHere l).Sound P Q := by
  unfold State.startsFromHere
  dsimp only
  exact .forEach hs fun _ _ h1 => .modCar h1

theorem State.Sound.wakeDone {s : State} {failed : List Nat} {sets : List (Nat × Nat)} (hs : s.Sound P Q) : (s.wakeDone failed sets).Sound P Q := by
  unfold State.wakeDone
  dsimp only
  exact .ite hs (.notice (.setEnergy (.put (.put (.startsFromHere (.setBucket (.put (.ite (.hostMutes hs) (.wakeUp hs))))))) fun x => { x with }))

theorem State.Sound.retReleased {s : State} {v : Word} (hs : s.Sound P Q) : (s.retReleased v).Sound P Q := by
  unfold State.retReleased
  dsimp only
  exact .startsFromHere (.put hs)

/-! ### Operations of Machine/Keep.lean -/

theorem State.Sound.wear {s : State} {sectors : List Nat} (hs : s.Sound P Q) : (s.wear sectors).Sound P Q := by
  unfold State.wear
  dsimp only
  exact .put (.setKeep hs fun x => { x with })

theorem State.Sound.eraseSectors {s : State} {slot n : Nat} (hs : s.Sound P Q) : (s.eraseSectors slot n).Sound P Q := by
  unfold State.eraseSectors
  dsimp only
  exact .wear (.setKeep hs fun x => { x with })

theorem State.Sound.reclaim {s : State} (hs : s.Sound P Q) : (s.reclaim).Sound P Q := by
  unfold State.reclaim
  dsimp only
  exact .ite hs (.wear (.setKeep hs fun x => { x with }))

theorem State.Sound.programSnap {s : State} {logical : Nat} {commit : Bool} {data : List Byte} (hs : s.Sound P Q) :
    (s.programSnap logical commit data).Sound P Q := by
  unfold State.programSnap
  dsimp only
  split
  · exact .setKeep hs fun x => { x with }
  · exact hs

theorem State.Sound.logPage {s : State} (hs : s.Sound P Q) : (s.logPage).Sound P Q := by
  unfold State.logPage
  dsimp only
  exact .ite hs (.ite (.setKeep (.disarm (.ite hs (.wear (.setKeep hs fun x => { x with })))) fun x => { x with }) (.arm (.setKeep (.disarm (.ite hs
    (.wear (.setKeep hs fun x => { x with })))) fun x => { x with })))

theorem State.Sound.setKeepBuffer {s : State} {bs : List Byte} (hs : s.Sound P Q) : (s.setKeepBuffer bs).Sound P Q := by
  unfold State.setKeepBuffer
  exact .forEach hs fun _ _ h1 => .put h1

theorem State.Sound.keepRefused {s : State} {code : Nat} (hs : s.Sound P Q) : (s.keepRefused code).Sound P Q := by
  unfold State.keepRefused
  exact .put (.put hs)

theorem State.Sound.keepCmd {s : State} {cmd : Option KeepCmd} (hs : s.Sound P Q) : (s.keepCmd cmd).Sound P Q := by
  unfold State.keepCmd
  dsimp only
  exact .ite (.put hs) (by
      split
      · exact .keepRefused (.put hs)
      · exact .ite (.keepRefused (.put hs)) (.put (.setKeep (.ite (.reclaim (.put hs)) (.put hs)) fun x => { x with })))

theorem State.Sound.keepAsk [Fact (Timeless Q)] {s : State} {t ch : Nat} {c : KeepCmd} (hs : s.Sound P Q) : (s.keepAsk t ch c).Sound P Q := by
  unfold State.keepAsk
  exact .hostCmd hs fun _ h1 => .keepCmd h1

theorem State.Sound.keepPageRead {s : State} {area page : Nat} (hs : s.Sound P Q) : (s.keepPageRead area page).2.Sound P Q := by
  unfold State.keepPageRead
  dsimp only
  split
  · exact hs
  · split
    · split
      · exact hs
      · exact .setFree hs
    · split
      · split
        · exact .setFree hs
        · exact .setFree hs
      · exact .setFree hs

theorem State.Sound.keepEffect {s : State} {j : KeepJob} (hs : s.Sound P Q) : (s.keepEffect j).Sound P Q := by
  have hraw {raw : List (Nat × List Byte)} : ({ s with keep := { s.keep with raw := raw } } : State).Sound P Q := .setKeep hs fun x => { x with }
  have hupdate {n : Nat} {o : Option Nat} : ({ s with keep := { s.keep with snapSeq := n, openUpdate := o } } : State).Sound P Q :=
    .setKeep hs fun x => { x with }
  unfold State.keepEffect
  dsimp only
  split
  · exact .setKeepBuffer (.keepPageRead hs)
  · exact .ite hraw (.programSnap hs)
  · exact .put hupdate
  · split
    next seq _ =>
      have hsnap : (s.programSnap 0xFFFF true (s.keep.commitData seq)).Sound P Q := .programSnap hs
      generalize s.programSnap 0xFFFF true (s.keep.commitData seq) = u at hsnap ⊢
      exact { hsnap with keep := { hsnap.keep with } }
    next => exact hs
  · exact hupdate
  · exact .eraseSectors hs
  · exact hraw

theorem State.Sound.keepOver {s : State} {code : Nat} (hs : s.Sound P Q) : (s.keepOver code).Sound P Q := by
  unfold State.keepOver
  dsimp only
  exact .put (.put (.put (.setKeep hs fun x => { x with })))

theorem State.Sound.keepDone {s : State} (hs : s.Sound P Q) : (s.keepDone).Sound P Q := by
  unfold State.keepDone
  split
  · exact .keepOver (.keepEffect hs)
  · exact hs

theorem State.Sound.keepShutdown {s : State} (hs : s.Sound P Q) : (s.keepShutdown).Sound P Q := by
  unfold State.keepShutdown
  dsimp only
  split
  · exact hs
  · split
    · exact .keepOver { hs with keep := { hs.keep with } }
    · exact .keepOver (.setFree (.eraseSectors hs))
    · exact .keepDone hs

/-! ### Operations of Machine/Security.lean -/

theorem State.Sound.showSecurity {s : State} (hs : s.Sound P Q) : (s.showSecurity).Sound P Q := by
  unfold State.showSecurity
  dsimp only
  exact .putB (.put (.put (.put (.put hs))))

theorem State.Sound.secRefused {s : State} {code : Nat} (hs : s.Sound P Q) : (s.secRefused code).Sound P Q := by
  unfold State.secRefused
  exact .put (.put hs)

theorem State.Sound.secCmd {s : State} {ch code slot : Nat} (hs : s.Sound P Q) : (s.secCmd ch code slot).Sound P Q := by
  unfold State.secCmd
  dsimp only
  refine .ite (.put hs) (.ite (.secRefused (.put hs)) (.ite (.secRefused (.put hs)) (.ite (.ite (.put (.setSec (.put hs))) (.secRefused
    (.put hs))) ?_)))
  refine .ite (.put (.setSec (.put hs))) (.ite (.put (.setSec (.put hs))) (.ite (.secRefused (.put hs)) (.ite ?_ (.put (.setSec (.put hs))))))
  exact .setSecFree (.put (.setSec (.put hs)))

theorem State.Sound.secAsk [Fact (Timeless Q)] {s : State} {t ch code slot : Nat} (hs : s.Sound P Q) : (s.secAsk t ch code slot).Sound P Q := by
  unfold State.secAsk
  exact .hostCmd hs fun _ h1 => .secCmd h1

theorem State.Sound.setNonce {s : State} {bs : List Byte} (hs : s.Sound P Q) : (s.setNonce bs).Sound P Q := by
  unfold State.setNonce
  exact .forEach hs fun _ _ h1 => .put h1

theorem State.Sound.endKeyed {s : State} {slot : Nat} (hs : s.Sound P Q) : (s.endKeyed slot).Sound P Q := by
  unfold State.endKeyed
  exact .forEach hs fun _ _ h1 => by
      split
      · exact .ite (.endSession h1) h1
      · exact h1

theorem State.Sound.secEffect {s : State} {x : SecCmd} (hs : s.Sound P Q) : (s.secEffect x).2.Sound P Q := by
  unfold State.secEffect
  dsimp only
  split
  · exact .setSec hs
  · exact .setSec (.setNonce (.drew hs))
  · exact .setSec (.setNonce hs)
  · exact .setKeep hs fun x => { x with sxmKeys := by simpa using x.sxmKeys }
  · exact .endKeyed (.setKeep hs fun x => { x with sxmKeys := by simpa using x.sxmKeys })

theorem State.Sound.secDone {s : State} (hs : s.Sound P Q) : (s.secDone).Sound P Q := by
  unfold State.secDone
  dsimp only
  split
  · exact hs
  · exact .put (.put (.put (.showSecurity (.setSec (.secEffect hs)))))

/-! ### Operations of Machine/Follow.lean -/

theorem State.Sound.hostStore {s : State} {ch a : Nat} {v : Word} (hs : s.Sound P Q) : (s.hostStore ch a v).Sound P Q := by
  unfold State.hostStore
  exact .storeWord (.when hs (fun _ h1 => .stage h1))

theorem State.Sound.presetStore {s : State} {a : Nat} {v : Word} (hs : s.Sound P Q) : (s.presetStore a v).Sound P Q := by
  unfold State.presetStore
  dsimp only
  exact .when (.setWord hs) (fun _ h1 => .applyReg h1)

theorem State.Sound.stored {s : State} {w : Writer} {a : Nat} {v : Word} (hs : s.Sound P Q) : (s.stored w a v).Sound P Q := by
  unfold State.stored
  split
  · exact .hostStore hs
  · exact .presetStore hs

theorem State.Sound.byChannel {s : State} {w : Writer} {f : Nat → State → State} (hs : s.Sound P Q) (hf : ∀ a1 s, s.Sound P Q →
    (f a1 s).Sound P Q) : (s.byChannel w f).Sound P Q := by
  unfold State.byChannel
  split
  · exact hf _ _ hs
  · exact hs

theorem State.Sound.deviceWrite {s : State} {w : Writer} {a : Nat} {v : Word} (hs : s.Sound P Q) : (s.deviceWrite w a v).Sound P Q := by
  unfold State.deviceWrite
  exact .ite (.byChannel hs (fun _ _ h1 => .when h1 (fun _ h2 => .modChan h2))) (.stored hs)

theorem State.Sound.idleSessions {s : State} (hs : s.Sound P Q) : (s.idleSessions).Sound P Q := by
  unfold State.idleSessions
  exact .forEach hs fun _ _ h1 => by
      split
      · exact .when h1 (fun _ h3 => .endSession h3)
      · exact h1

theorem State.Sound.maskWrite {s : State} {ch : Nat} {v : Word} (hs : s.Sound P Q) : (s.maskWrite ch v).Sound P Q := by
  unfold State.maskWrite
  dsimp only
  exact .ite hs (.ite (.modChan hs) (by
      split
      · exact .setSession (.modChan hs)
      · exact .modChan hs))

theorem State.Sound.hostBlockWrite {s : State} {w : Writer} {a : Nat} {v : Word} (hs : s.Sound P Q) : (s.hostBlockWrite w a v).Sound P Q := by
  unfold State.hostBlockWrite
  exact .ite (.byChannel hs (fun _ _ h1 => .maskWrite h1)) (.ite (.idleSessions (.stored hs)) (.stored hs))

theorem State.Sound.powerWrite {s : State} {w : Writer} {a : Nat} {v : Word} (hs : s.Sound P Q) : (s.powerWrite w a v).Sound P Q := by
  unfold State.powerWrite
  dsimp only
  exact .ite (.when (.stored hs) (fun _ h1 => .powerRequest (.setFree h1))) (.ite (.retReleased (.stored hs)) (.ite (.showPEff (.stored hs))
    (.stored hs)))

theorem State.Sound.clockWrite {s : State} {w : Writer} {a : Nat} {v : Word} (hs : s.Sound P Q) : (s.clockWrite w a v).Sound P Q := by
  unfold State.clockWrite
  dsimp only
  exact .ite (.ditherWrite hs) (.ite (.chooseSource (.stored hs)) (.ite (.when (.stored hs) (fun _ h1 => .alignNext h1)) (.forEach
    (.stored hs) fun _ _ h1 => .when h1 (fun _ h2 => .modBank h2))))

theorem State.Sound.txnCommand {s : State} {ch : Nat} {v : Word} (hs : s.Sound P Q) : (s.txnCommand ch v).Sound P Q := by
  unfold State.txnCommand
  dsimp only
  exact .ite (.txnOpen hs) (.ite (.txnOpenArray hs) (.ite (.txnPrepare hs) (.ite (.txnAbort hs) (.ite (.txnRelease hs) (.txnDone hs)))))

theorem State.Sound.txnWrite {s : State} {w : Writer} {a : Nat} {v : Word} (hs : s.Sound P Q) : (s.txnWrite w a v).Sound P Q := by
  unfold State.txnWrite
  dsimp only
  exact .ite (.byChannel hs (fun _ _ h1 => .txnCommand h1)) (.ite (.byChannel hs (fun _ _ h1 => .txnBind h1)) (.ite (.byChannel hs
    (fun _ _ h1 => .modChan h1)) (by
      split
      · exact .stored hs
      · exact .ite (.when hs (fun _ h2 => .stored h2)) (.stored hs))))

theorem State.Sound.keepWrite {s : State} {w : Writer} {a : Nat} {v : Word} (hs : s.Sound P Q) : (s.keepWrite w a v).Sound P Q := by
  unfold State.keepWrite
  exact .ite (.byChannel hs (fun _ _ h1 => .keepCmd h1)) (.stored hs)

theorem State.Sound.securityWrite {s : State} {w : Writer} {a : Nat} {v : Word} (hs : s.Sound P Q) : (s.securityWrite w a v).Sound P Q := by
  unfold State.securityWrite
  dsimp only
  exact .ite (.byChannel hs (fun _ _ h1 => .secCmd h1)) (.ite (.byChannel hs (fun _ _ h1 => .setSec h1)) (.stored hs))

theorem State.Sound.calWrite {s : State} {p : Nat} {v : Word} (hs : s.Sound P Q) : (s.calWrite p v).Sound P Q := by
  unfold State.calWrite
  dsimp only
  exact .ite hs (.ite (.calCancelled hs) (.calRequest (.setFree hs)))

theorem State.Sound.pathWrite {s : State} {w : Writer} {p o a : Nat} {v : Word} (hs : s.Sound P Q) : (s.pathWrite w p o a v).Sound P Q := by
  unfold State.pathWrite
  dsimp only
  exact .ite (.byChannel hs (fun _ _ h1 => .calWrite h1)) (.when (.stored hs) (fun _ h1 => .retire h1))

theorem State.Sound.groupWrite {s : State} {w : Writer} {g o a : Nat} {v : Word} (hs : s.Sound P Q) : (s.groupWrite w g o a v).Sound P Q := by
  unfold State.groupWrite
  dsimp only
  exact .ite (.dpdModeWrite hs) (.ite (.blankFollow (.stored hs)) (.ite (.when (.when (.showCaptureFit (.stored hs)) (fun _ h1 => .obsRelearn h1))
    (fun _ h1 => .obsRequest h1)) (.ite (.when (.stored hs) (fun _ h1 => .obsRebase h1)) (.stored hs))))

theorem State.Sound.captureWrite {s : State} {w : Writer} {v : Word} (hs : s.Sound P Q) : (s.captureWrite w v).Sound P Q := by
  unfold State.captureWrite
  dsimp only
  exact .ite (.capArm (.when hs (fun _ h1 => .capStop h1))) (.stored (.when hs (fun _ h1 => .capStop h1)))

theorem State.Sound.hallWrite {s : State} {w : Writer} {h o a : Nat} {v : Word} (hs : s.Sound P Q) : (s.hallWrite w h o a v).Sound P Q := by
  unfold State.hallWrite
  exact .ite (.mboxIn hs) (.ite (.dmWrite hs) (.stored hs))

theorem State.Sound.laneTest {s : State} {w : Writer} {lane a : Nat} {v : Word} (hs : s.Sound P Q) : (s.laneTest w lane a v).Sound P Q := by
  unfold State.laneTest
  dsimp only
  exact .ite (.put hs) (.when (.when (.when (.stored hs) (fun _ h1 => .emit h1)) (fun _ h1 => .injectError h1)) (fun _ h1 => .put h1))

theorem State.Sound.ptpWrite {s : State} {w : Writer} {a : Nat} {v : Word} (hs : s.Sound P Q) : (s.ptpWrite w a v).Sound P Q := by
  unfold State.ptpWrite
  dsimp only
  exact .chooseSource (.ite (.stored hs) (.setFh (.stored hs) fun x => { x with masters := by simp }))

theorem State.Sound.confirmEntry {s : State} {n : Nat} (hs : s.Sound P Q) : (s.confirmEntry n).Sound P Q := by
  unfold State.confirmEntry
  exact .ite (.put (.put hs)) hs

theorem State.Sound.fronthaulWrite {s : State} {w : Writer} {a : Nat} {v : Word} (hs : s.Sound P Q) : (s.fronthaulWrite w a v).Sound P Q := by
  unfold State.fronthaulWrite
  dsimp only
  exact .ite (.ptpWrite hs) (.ite (.laneTest hs) (.ite (.fhControl (.stored hs)) (.ite (.when (.stored hs) (fun _ h1 => .confirmEntry h1))
    (.stored hs))))

theorem State.Sound.stairControl {s : State} {w : Writer} {n a : Nat} {v : Word} (hs : s.Sound P Q) : (s.stairControl w n a v).Sound P Q := by
  unfold State.stairControl
  dsimp only
  exact .when (.when (.portControl (.stored hs)) (fun _ h1 => .retrain h1)) (fun _ h1 => .portWake h1)

theorem State.Sound.stairWrite {s : State} {w : Writer} {a : Nat} {v : Word} (hs : s.Sound P Q) : (s.stairWrite w a v).Sound P Q := by
  unfold State.stairWrite
  dsimp only
  exact .ite (.writeMask hs) (.ite (.stairControl hs) (.ite (.writeTaps hs) (.stored hs)))

theorem State.Sound.otaWrite {s : State} {w : Writer} {a : Nat} {v : Word} (hs : s.Sound P Q) : (s.otaWrite w a v).Sound P Q := by
  unfold State.otaWrite
  dsimp only
  exact .ite (.when (.when (.stored hs) (fun _ h1 => .put h1)) (fun _ h1 => .startRound h1)) (.stored hs)

theorem State.Sound.blockWrite {s : State} {w : Writer} {a : Nat} {v : Word} (hs : s.Sound P Q) : (s.blockWrite w a v).Sound P Q := by
  unfold State.blockWrite
  dsimp only
  exact .ite hs (.ite (.deviceWrite hs) (.ite (.hostBlockWrite hs) (.ite (.powerWrite hs) (.ite (.hkWrite hs) (.ite (.showPEff (.stored hs)) (.ite
    (.trimWritten hs) (.ite (.clockWrite hs) (.ite (.txnWrite hs) (.ite (.stored hs) (.ite (.keepWrite hs) (.ite (.securityWrite hs) (.ite
    (.pathWrite hs) (.ite (.groupWrite hs) (.ite (.captureWrite hs) (.ite (.hallWrite hs) (.ite (.fronthaulWrite hs) (.ite (.stairWrite hs) (.ite
    (.otaWrite hs) (.stored hs)))))))))))))))))))

theorem State.Sound.bufferWrite {s : State} {off : Nat} {bytes : List Byte} (hs : s.Sound P Q) : (s.bufferWrite off bytes).Sound P Q := by
  unfold State.bufferWrite
  dsimp only
  exact .ite (.put hs) (.setImage (.put (.memWrite hs)))

theorem State.Sound.windowDirect {s : State} {off : Nat} {v : Word} (hs : s.Sound P Q) : (s.windowDirect off v).Sound P Q := by
  unfold State.windowDirect
  dsimp only
  exact .ite hs (.ite (.bufferWrite hs) (by
      split
      · exact .ite (.put (.bump hs)) (.memWrite hs)
      · split
        · exact .ite (.put hs) (.memWrite hs)
        · exact .memWrite hs))

theorem State.Sound.windowWord {s : State} {ch off : Nat} {v : Word} (hs : s.Sound P Q) : (s.windowWord ch off v).Sound P Q := by
  unfold State.windowWord
  dsimp only
  exact .ite (.stage hs) (.windowDirect hs)

theorem State.Sound.windowWords {s : State} {ch off : Nat} {ws : List Word} (hs : s.Sound P Q) : (s.windowWords ch off ws).Sound P Q := by
  unfold State.windowWords
  dsimp only
  exact .ite (.stage hs) (.forEach hs fun _ _ h1 => .windowWord h1)

/-! ### Operations of Machine/Image.lean -/

theorem State.Sound.showImage {s : State} (hs : s.Sound P Q) : (s.showImage).Sound P Q := by
  unfold State.showImage
  dsimp only
  exact .putB (.put (.put (.showRunning hs)))

theorem State.Sound.policyLoad {s : State} {a : Nat} {l : List (Fld × Nat)} (hs : s.Sound P Q) : (s.policyLoad a l).Sound P Q := by
  unfold State.policyLoad
  dsimp only
  exact .setWord hs

theorem State.Sound.loadEnergy {s : State} (hs : s.Sound P Q) : (s.loadEnergy).Sound P Q := by
  unfold State.loadEnergy
  dsimp only
  exact .showBlocked (.showPEff (.policyLoad (.policyLoad (.policyLoad (.policyLoad (.policyLoad hs))))))

theorem State.Sound.clearTablesAll {s : State} (hs : s.Sound P Q) : (s.clearTablesAll).Sound P Q := by
  unfold State.clearTablesAll
  dsimp only
  exact .forEach (.forEach
    (.forEach hs fun _ _ h1 => .setMem h1 fun h => Memory.wf_clear h _ _) fun _ _ h1 => .setMem h1 fun h => Memory.wf_clear h _ _) fun _ _ h1 => .put
    h1

theorem State.Sound.tuneBanks {s : State} (hs : s.Sound P Q) : (s.tuneBanks).Sound P Q := by
  unfold State.tuneBanks
  dsimp only
  exact .forEach hs fun _ _ h1 => .ite (.modBank h1) (.modBank h1)

theorem State.Sound.applyPresets {s : State} (hs : s.Sound P Q) : (s.applyPresets).Sound P Q := by
  unfold State.applyPresets
  exact .forEach hs fun _ _ h1 => .ite (.windowDirect h1) (.blockWrite h1)

theorem State.Sound.startTime {s : State} (hs : s.Sound P Q) : (s.startTime).Sound P Q := by
  unfold State.startTime
  dsimp only
  exact .ite hs (.setClock hs fun x => { x with })

theorem State.Sound.dueCarriers {s : State} (hs : s.Sound P Q) : (s.dueCarriers).Sound P Q := by
  unfold State.dueCarriers
  dsimp only
  exact .forEach hs fun _ _ h1 => .showLatency (.ite (.dueStart h1) (.showForm h1))

theorem State.Sound.keepRetired {s : State} {retired : List (Nat × Nat)} (hs : s.Sound P Q) : (s.keepRetired retired).Sound P Q := by
  unfold State.keepRetired
  exact .forEach hs fun _ _ h1 => .setMute (.put (.put h1))

theorem State.Sound.installImage {s : State} {r : Running} {source : Nat} (hs : s.Sound P Q) : (s.installImage r source).Sound P Q := by
  unfold State.installImage
  dsimp only
  exact .initBegins (.showSrs (.showCaptureFit (.dueCarriers (.chooseSource (.treeInstall (.muteByLo (.muteByLo (.banksFollow (.setFh (.applyPresets
    (.loadPartners (.pathPlan (.tuneBanks (.loadEnergy (.clearTablesAll (.startHalls (.startTime (.showImage (.put (.put
    (.setImage hs)))))))))))) fun x => { x with })))))))))

theorem State.Sound.clearBlocks [Fact (Symbolless Q)] {s : State} (hs : s.Sound P Q) : (s.clearBlocks).Sound P Q := by
  have h1 : (s.resetRange 0x100000 0x50FFFF).Sound P Q := .resetRange hs
  have h0 : ({ State.reset with now := s.now } : State).Sound P Q := .reset hs.now
  unfold State.clearBlocks
  dsimp only
  generalize s.resetRange 0x100000 0x50FFFF = u at h1 ⊢
  exact .keepRetired { h1 with
    carriers := h0.carriers, begunAre := h0.begunAre, obs := h0.obs, obsPath := h0.obsPath, beam := h0.beam, fh := h0.fh, stair := h0.stair, ota := h0.ota
    radio := { h1.radio with
      paths := h0.radio.paths, femReady := h0.radio.femReady, blankedAt := h0.radio.blankedAt, initDone := h0.radio.initDone, femDue :=
        h0.radio.femDue }
    recov := { h1.recov with } }

theorem State.Sound.imageOver {s : State} {code section_ : Nat} (hs : s.Sound P Q) : (s.imageOver code section_).Sound P Q := by
  unfold State.imageOver
  dsimp only
  exact .put (.put (.put (.put (.setImage hs))))

theorem State.Sound.imageBegin {s : State} {cmd slot : Nat} (hs : s.Sound P Q) : (s.imageBegin cmd slot).Sound P Q := by
  unfold State.imageBegin
  dsimp only
  exact .ite (.setImage hs) (.ite (.setImage hs) (.ite (.imageOver (.put hs)) (.setImage hs)))

theorem State.Sound.imageCommand {s : State} {cmd slot : Nat} (hs : s.Sound P Q) : (s.imageCommand cmd slot).Sound P Q := by
  unfold State.imageCommand
  dsimp only
  exact .ite hs (.ite (.put hs) (.ite (.imageBegin (.put (.put hs))) (.imageOver (.put (.put hs)))))

theorem State.Sound.imageAsk [Fact (Timeless Q)] {s : State} {t ch cmd slot : Nat} (hs : s.Sound P Q) : (s.imageAsk t ch cmd slot).Sound P Q := by
  unfold State.imageAsk
  exact .hostCmd hs fun _ h1 => .imageCommand h1

theorem State.Sound.partialVerified {s : State} (hs : s.Sound P Q) : (s.partialVerified).Sound P Q := by
  unfold State.partialVerified
  dsimp only
  exact .imageOver (.putB (.setImage hs))

theorem State.Sound.loadVerified {s : State} (hs : s.Sound P Q) : (s.loadVerified).Sound P Q := by
  unfold State.loadVerified
  dsimp only
  exact .ite (.imageOver hs) (.txnAbortAll (.forEach (.setImage hs) fun _ _ h1 => .decideStop h1))

theorem State.Sound.verifyOver {s : State} (hs : s.Sound P Q) : (s.verifyOver).Sound P Q := by
  unfold State.verifyOver
  exact .ite hs (by
      split
      · exact .partialVerified hs
      · exact .ite hs (.loadVerified hs)
      · exact hs)

theorem State.Sound.loadInstalled [Fact (Symbolless Q)] {s : State} {r : Running} (hs : s.Sound P Q) : (s.loadInstalled r).Sound P Q := by
  unfold State.loadInstalled
  dsimp only
  exact .setImage (.when (.when (.installImage (.setBoot (.put (.clearBlocks (.setChans (.endSessions (.setTxn
    (.applyBoundary hs) fun x => { x with })) fun x => by simpa using x))) fun x => { x with })) (fun _ h1 => .put h1)) (fun _ h1 => .put h1))

theorem State.Sound.loadInstall [Fact (Symbolless Q)] {s : State} (hs : s.Sound P Q) : (s.loadInstall).Sound P Q := by
  unfold State.loadInstall
  dsimp only
  split
  · split
    · exact .ite (.loadInstalled (.verifyOver hs)) (.verifyOver hs)
    · exact .verifyOver hs
  · exact hs

theorem State.Sound.slotRecorded {s : State} {r : SlotRecord} (hs : s.Sound P Q) : (s.slotRecorded r).Sound P Q := by
  unfold State.slotRecorded
  dsimp only
  exact .imageOver (.putB (.put (.setKeep hs fun x => { x with })))

theorem State.Sound.slotUpdated {s : State} (hs : s.Sound P Q) : (s.slotUpdated).Sound P Q := by
  unfold State.slotUpdated
  split
  · exact .ite hs (.slotRecorded hs)
  · exact hs

/-! ### Operations of Machine/Boot.lean -/

theorem State.Sound.slotShutdown {s : State} (hs : s.Sound P Q) : (s.slotShutdown).Sound P Q := by
  unfold State.slotShutdown
  split
  · exact .ite hs (.slotRecorded hs)
  · exact hs

theorem State.Sound.afterReset [Fact (Symbolless Q)] {s : State} {source ch : Nat} (hs : s.Sound P Q) : (s.afterReset source ch).Sound P Q := by
  have h0 : ({ State.reset with now := s.now } : State).Sound P Q := .reset hs.now
  have h1 := hs.slotShutdown.keepShutdown
  have hnew : (({ State.reset with
      now := s.now, trimsBad := s.trimsBad, keep := s.keepLeft source, sec := { Security.reset with otp := s.sec.otp, drawn := s.sec.drawn }
      radio := { RadioState.reset with blank := s.radio.blank }
      boot := { s.boot with selected := false, coreMonitored := false, left := s.leftUpdate, recordWas := none }
      free := s.free, out := s.out, pending := s.pending } : State).setWord Reg.DEVICE.RESET_CAUSE.word.addr (s.resetCause source ch)).Sound P Q :=
    .setWord { h0 with keep := { h1.keep with }, radio := { h0.radio with blank := hs.radio.blank }, boot := { hs.boot with } }
  exact .ite hnew (.arm hnew)

theorem State.Sound.selfTestUnit {s : State} {cls n : Nat} (hs : s.Sound P Q) : (s.selfTestUnit cls n).1.Sound P Q := by
  unfold State.selfTestUnit
  dsimp only
  split
  · split
    · exact hs
    · split
      · exact .record (.showSpares (.modAlcove hs))
      · split
        · exact .record (.showSpares (.tileServes hs))
        · exact hs
  · split
    · split
      · exact hs
      · split
        · exact .record (.showSpares (.setPipe hs))
        · split
          · exact .record (.showSpares (.setPipe hs))
          · exact hs
    · split
      · split
        · exact hs
        · split
          · exact .record (.showSpares (.setBank hs))
          · split
            next e => exact .record (.showSpares (hs.spareBank.of_snd e))
            · exact hs
      · exact hs

theorem State.Sound.selfTest {s : State} {failed : List (Nat × Nat)} (hs : s.Sound P Q) : (s.selfTest failed).1.Sound P Q := by
  unfold State.selfTest
  refine List.foldlRecOn (motive := fun (acc : State × List (Nat × Nat)) => acc.1.Sound P Q) _ _ hs fun acc hacc e _ => ?_
  dsimp only
  split
  · exact hacc.selfTestUnit
  · exact hacc

theorem State.Sound.selfTestLeft {s : State} {l : List (Nat × Nat)} (hs : s.Sound P Q) : (s.selfTestLeft l).Sound P Q := by
  unfold State.selfTestLeft
  exact .forEach hs fun _ _ h1 => .ite (.hallFault h1) (.ite (.pipeFault h1) (.loseBank h1))

theorem State.Sound.bootSelect {s : State} {unread : List Nat} (hs : s.Sound P Q) : (s.bootSelect unread).Sound P Q := by
  unfold State.bootSelect
  dsimp only
  have h1 : ({ s with
      keep := { s.keep with slotRec := (bootRecord s.keep.slotRec).1 }
      boot := { s.boot with
        recordWas :=
          if (bootRecord s.keep.slotRec).1 = s.keep.slotRec then none
          else some (s.keep.slotRec, s.boot.start + min (ticksOfMs 136) (Config.bootUpdate s.keep.bootCount)) } } : State).Sound P Q :=
    { hs with keep := { hs.keep with }, boot := { hs.boot with } }
  have h2 {b : Bool} {l : List (Nat × Nat × Nat)} := State.Sound.forEach (l := l) (State.Sound.when (b := b) h1 fun _ h => .record
    (x := { kind := .event, unit := unitDevice }) h) fun e _ h =>
      .record (x := { kind := .event, unit := unitDevice, inst := e.1, cause := e.2.1, detail := e.2.2 }) h
  split
  · exact .put (.putB (.setBucket (.installImage (.putB (.put (.put h2))))))
  · exact .notice (.setBoot (.showImage (.put (.put (.put (.put h2))))) fun _ => ⟨(State.Sound.put (.put (.put (.put h2)))).boot.pg⟩)

theorem State.Sound.startBoot {s : State} {start : Nat} {failed : List (Nat × Nat)} (hs : s.Sound P Q) : (s.startBoot start failed).Sound P Q := by
  unfold State.startBoot
  dsimp only
  exact .selfTestLeft (.bootSelect (.selfTest (by
      split
      · exact .record (.showSecurity (.put (.setKeep (.setIsland (.islandsUp (.setEnergy (.voutCommand (.emit (.emit
          (.trimsCopied { hs with boot := { hs.boot with } })))) fun x => { x with }))) fun x => { x with })))
      · exact .showSecurity (.put (.setKeep (.setIsland (.islandsUp (.setEnergy (.voutCommand (.emit (.emit
          (.trimsCopied { hs with boot := { hs.boot with } })))) fun x => { x with }))) fun x => { x with })))))

theorem State.Sound.leaveReset {s : State} {failed : List (Nat × Nat)} (hs : s.Sound P Q) : (s.leaveReset failed).Sound P Q := by
  unfold State.leaveReset
  dsimp only
  exact .ite (.startBoot hs) (.setBoot hs fun x => { x with })

theorem State.Sound.fullReset [Fact (Symbolless Q)] {s : State} {source ch : Nat} {failed : List (Nat × Nat)} (hs : s.Sound P Q) :
    (s.fullReset source ch failed).Sound P Q := by
  unfold State.fullReset
  dsimp only
  exact .ite (.afterReset hs) (.leaveReset (.setBoot (.afterReset hs) fun x => { x with }))

theorem State.Sound.pinLow [Fact (Symbolless Q)] {s : State} {ns : Nat} (hs : s.Sound P Q) : (s.pinLow ns).Sound P Q := by
  unfold State.pinLow
  dsimp only
  exact .ite hs (.setBoot (.afterReset hs) fun x => { x with })

theorem State.Sound.pinHigh {s : State} {devId : Nat} {failed : List (Nat × Nat)} (hs : s.Sound P Q) : (s.pinHigh devId failed).Sound P Q := by
  unfold State.pinHigh
  dsimp only
  exact .ite (.leaveReset (.setBoot hs fun x => { x with })) hs

theorem State.Sound.pgFall [Fact (Symbolless Q)] {s : State} {n ns : Nat} (hs : s.Sound P Q) : (s.pgFall n ns).Sound P Q := by
  unfold State.pgFall
  dsimp only
  exact .ite hs (.when (.setBoot hs fun x => { x with pg := by simpa using x.pg }) (fun _ h1 => .fullReset h1))

theorem State.Sound.hostReset [Fact (Symbolless Q)] {s : State} {ch : Nat} {v : Word} {failed : List (Nat × Nat)} (hs : s.Sound P Q) :
    (s.hostReset ch v failed).Sound P Q := by
  unfold State.hostReset
  exact .ite (.fullReset hs) hs

theorem State.Sound.pgRise {s : State} {n : Nat} {failed : List (Nat × Nat)} (hs : s.Sound P Q) : (s.pgRise n failed).Sound P Q := by
  unfold State.pgRise
  dsimp only
  exact .ite (.startBoot (.setBoot hs fun x => { x with pg := by simpa using x.pg })) (.setBoot hs fun x => { x with pg := by simpa using x.pg })

theorem State.Sound.uninstall [Fact (Symbolless Q)] {s : State} (hs : s.Sound P Q) : (s.uninstall).Sound P Q := by
  unfold State.uninstall
  dsimp only
  exact .startHalls (.setImage (.resetRange (.clearBlocks hs)))

theorem State.Sound.bootTimeout [Fact (Symbolless Q)] {s : State} {step unit : Nat} (hs : s.Sound P Q) : (s.bootTimeout step unit).Sound P Q := by
  unfold State.bootTimeout
  dsimp only
  exact .ite hs (.ite (.setEnergy hs fun x => { x with failures := by simpa using x.failures }) (.wakeFail (.put (.uninstall
    (.setEnergy hs fun x => { x with failures := by simpa using x.failures })))))

theorem State.Sound.startupFailed {s : State} {p code result precond : Nat} (hs : s.Sound P Q) :
    (s.startupFailed p code result precond).Sound P Q := by
  unfold State.startupFailed
  dsimp only
  exact .calReport (.put (.modPath (.resetRange hs)))

theorem State.Sound.startupPassed {s : State} {p : Nat} {results : List CalResult} (hs : s.Sound P Q) : (s.startupPassed p results).Sound P Q := by
  unfold State.startupPassed
  dsimp only
  split
  · exact .startupFailed hs
  · exact .applyService (.put (.put (.forEach hs fun _ _ h2 => .calApply h2)))

theorem State.Sound.startup {s : State} {passed : List (Fin 64 × List CalResult)} {failed : List (Fin 64 × Nat × Nat × Nat)}
    (hs : s.Sound P Q) : (s.startup passed failed).Sound P Q := by
  unfold State.startup
  dsimp only
  exact .showRenorm (.forEach (.forEach (.forEach hs fun _ _ h1 => .startupFailed h1) fun _ _ h1 => .startupPassed h1) fun _ _ h1 => .put h1)

theorem State.Sound.nowReady {s : State} (hs : s.Sound P Q) : (s.nowReady).Sound P Q := by
  unfold State.nowReady
  dsimp only
  exact .startsFromHere (.forEach (.forEach (.ite (.imageOver (.setBoot (.put (.put (.put (.when hs (fun _ h1 => .put h1))))) fun x => { x with }))
    (.setBoot (.put (.put (.put (.when hs (fun _ h1 => .put h1))))) fun x => { x with })) fun _ _ h1 => .fhControl h1) fun _ _ h1 => .portControl h1)

theorem State.Sound.bootReady {s : State} {passed : List (Fin 64 × List CalResult)} {failed : List (Fin 64 × Nat × Nat × Nat)}
    (hs : s.Sound P Q) : (s.bootReady passed failed).Sound P Q := by
  unfold State.bootReady
  dsimp only
  exact .ite (.nowReady (.startup (.ite (.startBoot hs) hs))) (.ite (.startBoot hs) hs)

/-! ### Operations of Machine/Thermal.lean -/

theorem State.Sound.checkServing {s : State} (hs : s.Sound P Q) : (s.checkServing).Sound P Q := by
  unfold State.checkServing
  dsimp only
  exact .ite hs (.ite (.ite (.hkbFault (.setHk hs fun x => { x with })) (.setHk hs fun x => { x with })) (.ite (.hkaFault
    (.setHk hs fun x => { x with })) (.setHk hs fun x => { x with })))

theorem State.Sound.checkStandby {s : State} {zero check : Int} {ref : Nat} (hs : s.Sound P Q) : (s.checkStandby zero check ref).Sound P Q := by
  unfold State.checkStandby
  dsimp only
  exact .ite hs (.ite (.hkbFault (.setHk hs fun x => { x with })) (.setHk hs fun x => { x with }))

theorem State.Sound.roundEnergies {s : State} (hs : s.Sound P Q) : (s.roundEnergies).Sound P Q := by
  unfold State.roundEnergies
  dsimp only
  exact .ite hs (.addEnergy (.forEach hs fun _ _ h1 => .addEnergy h1))

theorem State.Sound.showSensor {s : State} {n : Nat} (hs : s.Sound P Q) : (s.showSensor n).Sound P Q := by
  unfold State.showSensor
  dsimp only
  exact .put (.putB (.putBit (.putB hs)))

theorem State.Sound.judgeSensors {s : State} (hs : s.Sound P Q) : (s.judgeSensors).1.Sound P Q := by
  unfold State.judgeSensors
  dsimp only
  exact .forEach (.forEach (.setHk hs fun x => { x with sensors := by simp }) fun _ _ h1 => .showSensor h1) fun _ _ h1 => .record h1

theorem State.Sound.throttleAt {s : State} {t : Int} {lost : Nat} (hs : s.Sound P Q) : (s.throttleAt t lost).Sound P Q := by
  unfold State.throttleAt
  dsimp only
  exact .when (.showPEff (.putB (.put (.putB (.putB (.setHk hs fun x => { x with })))))) (fun _ h1 => .record h1)

theorem State.Sound.warningAt {s : State} {t : Int} (hs : s.Sound P Q) : (s.warningAt t).Sound P Q := by
  unfold State.warningAt
  dsimp only
  exact .when (.putB (.putB hs)) (fun _ h1 => .notice h1)

theorem State.Sound.workStops [hB : Fact (Symbolless Q)] {s : State} (hs : s.Sound P Q) : (s.workStops).Sound P Q := by
  unfold State.workStops
  dsimp only
  exact .hostMutes
    (.forEach { hs with keep := { hs.keep with }, carriers := by simp, begunAre := hB.out.begunAre, recov := { hs.recov with } } fun _ _ h1 => .showForm
    (.put h1))

theorem State.Sound.thermalOff [Fact (Symbolless Q)] {s : State} (hs : s.Sound P Q) : (s.thermalOff).Sound P Q := by
  unfold State.thermalOff
  dsimp only
  refine .ite hs (.setBootTimers (.emit (.dropPending (.put (.islandsStop (.loStop (.loStop (.forEach (.forEach (.workStops (.keepShutdown
    (.slotShutdown hs))) fun _ _ h => .fhEnter h) fun _ _ h => .portQuiet h))))))) fun x => { x with })

theorem State.Sound.thermal [Fact (Symbolless Q)] {s : State} {lost : Nat} (hs : s.Sound P Q) : (s.thermal lost).Sound P Q := by
  unfold State.thermal
  dsimp only
  exact .ite (.thermalOff (.throttleAt (.warningAt (.putB (.put (.put hs)))))) (.ite (.fullReset (.throttleAt (.warningAt (.putB (.put (.put hs))))))
    (.throttleAt (.warningAt (.putB (.put (.put hs))))))

theorem State.Sound.tempMoved {s : State} (hs : s.Sound P Q) : (s.tempMoved).Sound P Q := by
  unfold State.tempMoved
  split
  · exact .ite (.markStale hs) hs
  · exact hs

theorem State.Sound.roundEnd [Fact (Symbolless Q)] {s : State} {zero check : Int} {ref : Nat} (hs : s.Sound P Q) :
    (s.roundEnd zero check ref).Sound P Q := by
  unfold State.roundEnd
  dsimp only
  exact .ite hs (.thermal (.when (.judgeSensors (.roundEnergies (.checkStandby (.checkServing (.bump (.setHk hs fun x => { x with }))))))
    (fun _ h1 => .tempMoved h1)))

/-! ### Operations of Machine/Host.lean -/

theorem State.Sound.readLow {s : State} {ch a : Nat} (hs : s.Sound P Q) : (s.readLow ch a).2.Sound P Q := by
  unfold State.readLow
  exact .modChan hs

theorem State.Sound.readHigh {s : State} {ch a : Nat} (hs : s.Sound P Q) : (s.readHigh ch a).2.Sound P Q := by
  unfold State.readHigh
  split
  · split
    · exact hs
    · exact .modChan hs
  · exact .modChan hs

theorem State.Sound.windowRead {s : State} {off : Nat} (hs : s.Sound P Q) : (s.windowRead off).2.Sound P Q := by
  unfold State.windowRead
  split
  · exact .setFree hs
  · exact hs

theorem State.Sound.readOk {s : State} {ch a : Nat} (hs : s.Sound P Q) : (s.readOk ch a).2.Sound P Q := by
  unfold State.readOk
  split
  · exact .windowRead hs
  · split
    · exact .readLow hs
    · split
      · exact .readHigh hs
      · split
        · exact .dmNext hs
        · exact hs

theorem State.Sound.readReg {s : State} {answers : Nat → Bool} {ch a : Nat} (hs : s.Sound P Q) : (s.readReg answers ch a).2.2.Sound P Q := by
  unfold State.readReg
  dsimp only
  split
  · exact .readOk hs
  · exact hs

theorem State.Sound.writeOk {s : State} {ch a : Nat} {v : Word} (hs : s.Sound P Q) : (s.writeOk ch a v).Sound P Q := by
  unfold State.writeOk
  exact .ite (.windowWord hs) (.ite (.imageCommand hs) (.blockWrite hs))

theorem State.Sound.writeReg {s : State} {answers : Nat → Bool} {ch a : Nat} {v : Word} (hs : s.Sound P Q) :
    (s.writeReg answers ch a v).2.Sound P Q := by
  unfold State.writeReg
  dsimp only
  split
  · exact .writeOk hs
  · exact hs

theorem State.Sound.resetAsked [Fact (Symbolless Q)] {s : State} {ch : Nat} {asked : Bool} (hs : s.Sound P Q) :
    (s.resetAsked ch asked).Sound P Q := by
  unfold State.resetAsked
  exact .ite (.hostReset (.setFree hs)) hs

theorem State.Sound.readRun {s : State} {answers : Nat → Bool} {ch a n : Nat} (hs : s.Sound P Q) : (s.readRun answers ch a n).2.2.Sound P Q := by
  unfold State.readRun
  exact List.foldlRecOn (motive := fun (x : List Nat × List Word × State) => x.2.2.Sound P Q) _ _ hs fun _ hx _ _ => hx.readReg

theorem State.Sound.registerWrite [Fact (Symbolless Q)] [Fact (Timeless Q)] {s : State} {t ch a : Nat} {v : Word} (hs : s.Sound P Q) :
    (s.registerWrite t ch a v).Sound P Q := by
  unfold State.registerWrite
  exact .hostCmd hs fun _ h1 => .resetAsked (.writeReg h1)

theorem State.Sound.readOut {ch a : Nat} {r : Word × State} (hr : r.2.Sound P Q) : (readOut ch a r).Sound P Q := .emit hr

theorem State.Sound.highWrite {s : State} {ch a : Nat} {v : Word} (hs : s.Sound P Q) : (s.highWrite ch a v).Sound P Q := by
  unfold State.highWrite
  exact .ite (.modChan hs) hs

theorem State.Sound.lowWrite {s : State} {ch a : Nat} {v : Word} (hs : s.Sound P Q) : (s.lowWrite ch a v).Sound P Q := by
  unfold State.lowWrite
  dsimp only
  exact .ite (.modChan (.setWord (.setWord hs))) hs

theorem State.Sound.respond {s : State} {status : Nat} {words : List Word} (hs : s.Sound P Q) : (s.respond status words).Sound P Q := by
  unfold State.respond
  exact .emit hs

theorem State.Sound.vestCommand [Fact (Symbolless Q)] {s : State} {answers : Nat → Bool} {f : VestFrame} (hs : s.Sound P Q) :
    (s.vestCommand answers f).Sound P Q := by
  unfold State.vestCommand
  dsimp only
  exact .ite (.respond (.readRun hs)) (.ite (.resetAsked (.respond (.writeReg hs))) (.ite (.respond (.readRun hs)) (.respond hs)))

theorem State.Sound.vestFrame [Fact (Symbolless Q)] {s : State} {f : VestFrame} (hs : s.Sound P Q) : (s.vestFrame f).Sound P Q := by
  unfold State.vestFrame
  dsimp only
  exact .ite hs (.ite (.vestCommand (.wakeSource hs)) (.respond (.bump (.wakeSource hs))))

/-! ### Operations of Machine/Sxm.lean -/

theorem State.Sound.dropAuth {s : State} (hs : s.Sound P Q) : (s.dropAuth).Sound P Q := by
  unfold State.dropAuth
  exact .bump hs

theorem State.Sound.openSession {s : State} {src : Source} {k : Nat} {kk nh : List Byte} {n : Nat} (hs : s.Sound P Q) :
    (s.openSession src k kk nh n).Sound P Q := by
  unfold State.openSession
  dsimp only
  exact .emit (.setSession (.modChan (.drew hs)))

theorem State.Sound.helloAccepted {s : State} {src : Source} {k : Nat} {kk nh : List Byte} (hs : s.Sound P Q) :
    (s.helloAccepted src k kk nh).Sound P Q := by
  unfold State.helloAccepted
  split
  · exact .openSession hs
  · exact .emit hs

theorem State.Sound.hello {s : State} {src : Source} {m : List Byte} (hs : s.Sound P Q) : (s.hello src m).Sound P Q := by
  unfold State.hello
  split
  · exact .ite (.helloAccepted hs) (.dropAuth hs)
  · exact .dropAuth hs

theorem State.Sound.sxmWrite {s : State} {ch : Nat} {c : SxmCmd} (hs : s.Sound P Q) : (s.sxmWrite ch c).2.Sound P Q := by
  unfold State.sxmWrite
  dsimp only
  split
  · exact .windowWords hs
  · exact List.foldlRecOn (motive := fun (x : List Nat × State) => x.2.Sound P Q) _ _ hs fun _ hx _ _ => hx.writeReg

theorem State.Sound.sxmCommand {s : State} {ch : Nat} {c : SxmCmd} (hs : s.Sound P Q) : (s.sxmCommand ch c).2.2.Sound P Q := by
  unfold State.sxmCommand
  dsimp only
  split
  · exact hs
  · split
    · exact .sxmWrite hs
    · exact .readRun hs

theorem State.Sound.sxmCommands {s : State} {ch : Nat} {l : List SxmCmd} (hs : s.Sound P Q) : (s.sxmCommands ch l).2.2.Sound P Q := by
  unfold State.sxmCommands
  exact List.foldlRecOn (motive := fun (x : List Byte × Bool × State) => x.2.2.Sound P Q) _ _ hs fun _ hx _ _ => hx.sxmCommand

theorem State.Sound.sxmExecute {s : State} {ch : Nat} {body : List Byte} (hs : s.Sound P Q) : (s.sxmExecute ch body).2.2.Sound P Q := by
  unfold State.sxmExecute
  split
  · exact hs
  · split
    · exact hs
    · exact .sxmCommands hs

theorem State.Sound.requestAccepted [Fact (Symbolless Q)] {s : State} {n : Nat} {x : Session} {src : Source} {m : List Byte} (hs : s.Sound P Q) :
    (s.requestAccepted n x src m).Sound P Q := by
  unfold State.requestAccepted
  dsimp only
  exact .resetAsked (.emit (by
      split
      · exact .setSession (.sxmExecute (.setSession hs))
      · exact .sxmExecute (.setSession hs)))

theorem State.Sound.sxmRequest [Fact (Symbolless Q)] {s : State} {n : Nat} {x : Session} {src : Source} {m : List Byte} (hs : s.Sound P Q) :
    (s.sxmRequest n x src m).Sound P Q := by
  unfold State.sxmRequest
  exact .ite (.requestAccepted hs) (.ite (.emit (.setSession hs)) (.bump hs))

theorem State.Sound.sxmMessageIn [Fact (Symbolless Q)] {s : State} {src : Source} {m : List Byte} (hs : s.Sound P Q) :
    (s.sxmMessageIn src m).Sound P Q := by
  unfold State.sxmMessageIn
  dsimp only
  exact .ite hs (.ite (.dropAuth hs) (.ite (.hello hs) (by
      split
      · exact .dropAuth hs
      · exact .ite (.dropAuth hs) (.ite (.sxmRequest hs) (.ite (.endSession hs) hs)))))

theorem State.Sound.sendNotify {s : State} {n : Nat} (hs : s.Sound P Q) : (s.sendNotify n).Sound P Q := by
  unfold State.sendNotify
  dsimp only
  split
  · exact .ite hs (.emit (.setSession hs))
  · exact hs

end Sound

end Sys2Proof.Machine
end

