-- ==== Sys2Proof/Proofs/SoundCommands.lean ====
section
/-!
Every command keeps the state sound and drives the pins; what a step and a reset are follows (R670, R671, R694 to R697).
-/

namespace Sys2Proof.Machine

open Sys2Proof

section Sound

variable {P : Prop} {Q : Coll → Prop} [Fact (Timeless Q)]

/-! ### Operations of Machine/Ops.lean -/

omit [Fact (Timeless Q)] in
theorem NextSound.finish {s : State} (hs : s.Sound P Q) : NextSound P Q (finish s) := by
  rintro _ ⟨⟩
  exact .settled hs

/-! ### Operations of Machine/Hk.lean -/

theorem NextSound.execHkEntryDone {s : State} {t : Nat} {k : Fin 96} {inputs : List Int} {ref : Nat} (hs : s.Sound P Q) :
    NextSound P Q (execHkEntryDone t k inputs ref s) := by
  unfold Machine.execHkEntryDone
  exact .finish (.entryDone (.atTime hs))

theorem NextSound.execHkRoundStart {s : State} {t : Nat} (hs : s.Sound P Q) : NextSound P Q (execHkRoundStart t s) := by
  unfold Machine.execHkRoundStart
  exact .finish (.roundStart (.atTime hs))

theorem NextSound.execSyscalCaptureDone {s : State} {t : Nat} {inputs : List Int} {ref : Nat} (hs : s.Sound P Q) :
    NextSound P Q (execSyscalCaptureDone t inputs ref s) := by
  unfold Machine.execSyscalCaptureDone
  exact .finish (.sysCaptureDone (.atTime hs))

theorem NextSound.execHkConversionTimeout {s : State} {t : Nat} (hs : s.Sound P Q) : NextSound P Q (execHkConversionTimeout t s) := by
  unfold Machine.execHkConversionTimeout
  exact .finish (.conversionTimeout (.atTime hs))

theorem NextSound.execHkInjectDone {s : State} {t : Nat} {inputs : List Int} {ref : Nat} (hs : s.Sound P Q) :
    NextSound P Q (execHkInjectDone t inputs ref s) := by
  unfold Machine.execHkInjectDone
  exact .finish (.injectDone (.atTime hs))

theorem NextSound.execHkInject {s : State} {t : Nat} {ch : Channel} {value : Word} (hs : s.Sound P Q) :
    NextSound P Q (execHkInject t ch value s) := by
  unfold Machine.execHkInject
  exact .finish (.hostCmd hs (fun _ h1 => .inject (.storeHk h1)))

theorem NextSound.execHkRefWrite {s : State} {t : Nat} {ch : Channel} {value : Word} (hs : s.Sound P Q) :
    NextSound P Q (execHkRefWrite t ch value s) := by
  unfold Machine.execHkRefWrite
  exact .finish (.hostCmd hs (fun _ h1 => .hkCtl h1))

theorem NextSound.execZero {s : State} {t : Nat} {ch : Channel} {value : Word} (hs : s.Sound P Q) : NextSound P Q (execZero t ch value s) := by
  unfold Machine.execZero
  exact .finish (.hostCmd hs (fun _ h1 => .calCommand (.storeHk h1)))

theorem NextSound.execSpan {s : State} {t : Nat} {ch : Channel} {value : Word} (hs : s.Sound P Q) : NextSound P Q (execSpan t ch value s) := by
  unfold Machine.execSpan
  exact .finish (.hostCmd hs (fun _ h1 => .calCommand (.storeHk h1)))

theorem NextSound.execSyscalCancel {s : State} {t : Nat} {ch : Channel} (hs : s.Sound P Q) : NextSound P Q (execSyscalCancel t ch s) := by
  unfold Machine.execSyscalCancel
  exact .finish (.hostCmd hs (fun _ h1 => .calStopped h1))

theorem NextSound.execHkRefSettled {s : State} {t : Nat} (hs : s.Sound P Q) : NextSound P Q (execHkRefSettled t s) := by
  unfold Machine.execHkRefSettled
  exact .finish (.refSettled (.atTime hs))

theorem NextSound.execTrimReload {s : State} {t : Nat} {ch : Channel} (hs : s.Sound P Q) : NextSound P Q (execTrimReload t ch s) := by
  unfold Machine.execTrimReload
  exact .finish (.hostCmd hs (fun _ h1 => .trimReload h1))

theorem NextSound.execTrimWrite {s : State} {t : Nat} {ch : Channel} {addr value : Word} (hs : s.Sound P Q) :
    NextSound P Q (execTrimWrite t ch addr value s) := by
  unfold Machine.execTrimWrite
  exact .finish (.ite (.hostCmd hs (fun _ h1 => .writeTrim h1)) (.atTime hs))

theorem NextSound.execTrimCopyDone {s : State} {t : Nat} (hs : s.Sound P Q) : NextSound P Q (execTrimCopyDone t s) := by
  unfold Machine.execTrimCopyDone
  dsimp only
  exact .finish (.ite (.trimsCopied (.atTime hs)) (.atTime hs))

theorem NextSound.execBandgapSettled {s : State} {t : Nat} (hs : s.Sound P Q) : NextSound P Q (execBandgapSettled t s) := by
  unfold Machine.execBandgapSettled
  exact .finish (.bandgapSettled (.atTime hs))

/-! ### Operations of Machine/Fem.lean -/

theorem NextSound.execFemScript {s : State} {t : Nat} {g : Fin 8} {ev : FemEvent} {replies : List (List (Option Byte))} (hs : s.Sound P Q) :
    NextSound P Q (execFemScript t g ev replies s) := by
  unfold Machine.execFemScript
  exact .finish (.femCommand (.atTime hs))

theorem NextSound.execFemInitTimeout {s : State} {t : Nat} {g : Fin 8} {served : Nat} (hs : s.Sound P Q) :
    NextSound P Q (execFemInitTimeout t g served s) := by
  unfold Machine.execFemInitTimeout
  exact .finish (.initTimeout (.atTime hs))

/-! ### Operations of Machine/Calibration.lean -/

theorem NextSound.execRxDc {s : State} {t : Nat} {ch : Channel} {p : Fin 64} {fem : List (Option Byte)} (hs : s.Sound P Q) :
    NextSound P Q (execRxDc t ch p fem s) := by
  unfold Machine.execRxDc
  exact .finish (.hostCmd hs (fun _ h1 => .calRequest h1))

theorem NextSound.execRxIq {s : State} {t : Nat} {ch : Channel} {p : Fin 64} {fem : List (Option Byte)} (hs : s.Sound P Q) :
    NextSound P Q (execRxIq t ch p fem s) := by
  unfold Machine.execRxIq
  exact .finish (.hostCmd hs (fun _ h1 => .calRequest h1))

theorem NextSound.execTxLol {s : State} {t : Nat} {ch : Channel} {p : Fin 64} {fem : List (Option Byte)} (hs : s.Sound P Q) :
    NextSound P Q (execTxLol t ch p fem s) := by
  unfold Machine.execTxLol
  exact .finish (.hostCmd hs (fun _ h1 => .calRequest h1))

theorem NextSound.execTxIq {s : State} {t : Nat} {ch : Channel} {p : Fin 64} {fem : List (Option Byte)} (hs : s.Sound P Q) :
    NextSound P Q (execTxIq t ch p fem s) := by
  unfold Machine.execTxIq
  exact .finish (.hostCmd hs (fun _ h1 => .calRequest h1))

theorem NextSound.execObs {s : State} {t : Nat} {ch : Channel} {p : Fin 64} (hs : s.Sound P Q) : NextSound P Q (execObs t ch p s) := by
  unfold Machine.execObs
  exact .finish (.hostCmd hs (fun _ h1 => .calRequest h1))

theorem NextSound.execAll {s : State} {t : Nat} {ch : Channel} {p : Fin 64} {rx tx : List (Option Byte)} (hs : s.Sound P Q) :
    NextSound P Q (execAll t ch p rx tx s) := by
  unfold Machine.execAll
  exact .finish (.hostCmd hs (fun _ h1 => .calRequest h1))

theorem NextSound.execCalCancel {s : State} {t : Nat} {ch : Channel} {p : Fin 64} (hs : s.Sound P Q) : NextSound P Q (execCalCancel t ch p s) := by
  unfold Machine.execCalCancel
  exact .finish (.hostCmd hs (fun _ h1 => .calCancelled h1))

theorem NextSound.execCalStart {s : State} {t : Nat} {p : Fin 64} (hs : s.Sound P Q) : NextSound P Q (execCalStart t p s) := by
  unfold Machine.execCalStart
  exact .finish (.calStarted (.atTime hs))

theorem NextSound.execCalDone {s : State} {t : Nat} {p : Fin 64} {results : List CalResult} (hs : s.Sound P Q) :
    NextSound P Q (execCalDone t p results s) := by
  unfold Machine.execCalDone
  exact .finish (.calDone (.atTime hs))

theorem NextSound.execCalLostMidway {s : State} {t : Nat} {p : Fin 64} {precond : Nat} (hs : s.Sound P Q) :
    NextSound P Q (execCalLostMidway t p precond s) := by
  unfold Machine.execCalLostMidway
  exact .finish (.calLost (.atTime hs))

/-! ### Operations of Machine/Radio.lean -/

theorem NextSound.execDcBlockUpdate {s : State} {t : Nat} {p : Fin 64} {samples : List Cplx} (hs : s.Sound P Q) :
    NextSound P Q (execDcBlockUpdate t p samples s) := by
  unfold Machine.execDcBlockUpdate
  exact .finish (.dcBlock (.atTime hs))

theorem NextSound.execIqWindowEnd {s : State} {t : Nat} {p : Fin 64} {power : Int} {residual : List Cplx} (hs : s.Sound P Q) :
    NextSound P Q (execIqWindowEnd t p power residual s) := by
  unfold Machine.execIqWindowEnd
  exact .finish (.iqWindow (.atTime hs))

theorem NextSound.execBlankRise {s : State} {t : Nat} {n : Fin 4} (hs : s.Sound P Q) : NextSound P Q (execBlankRise t n s) := by
  unfold Machine.execBlankRise
  exact .finish (.setBlank (.atTime hs))

theorem NextSound.execBlankFall {s : State} {t : Nat} {n : Fin 4} (hs : s.Sound P Q) : NextSound P Q (execBlankFall t n s) := by
  unfold Machine.execBlankFall
  exact .finish (.setBlank (.atTime hs))

theorem NextSound.execPathRetire {s : State} {t : Nat} {ch : Channel} {p : Fin 64} (hs : s.Sound P Q) : NextSound P Q (execPathRetire t ch p s) := by
  unfold Machine.execPathRetire
  exact .finish (.hostCmd hs (fun _ h1 => .retire h1))

theorem NextSound.execPathFault {s : State} {t : Nat} {p : Fin 64} {cause : Fin 6} (hs : s.Sound P Q) :
    NextSound P Q (execPathFault t p cause s) := by
  unfold Machine.execPathFault
  dsimp only
  exact .finish (.ite (.atTime hs) (.retire (.atTime hs)))

/-! ### Operations of Machine/Lo.lean -/

theorem NextSound.execLoBiasDone {s : State} {t : Nat} {b : Fin 2} (hs : s.Sound P Q) : NextSound P Q (execLoBiasDone t b s) := by
  unfold Machine.execLoBiasDone
  exact .finish (.loBiasDone (.atTime hs))

theorem NextSound.execLoBandDone {s : State} {t : Nat} {b : Fin 2} (hs : s.Sound P Q) : NextSound P Q (execLoBandDone t b s) := by
  unfold Machine.execLoBandDone
  exact .finish (.loBandDone (.atTime hs))

theorem NextSound.execLoLockDeclared {s : State} {t : Nat} {b : Fin 2} (hs : s.Sound P Q) : NextSound P Q (execLoLockDeclared t b s) := by
  unfold Machine.execLoLockDeclared
  exact .finish (.loLockDeclared (.atTime hs))

theorem NextSound.execLoAcquireTimeout {s : State} {t : Nat} {b : Fin 2} (hs : s.Sound P Q) : NextSound P Q (execLoAcquireTimeout t b s) := by
  unfold Machine.execLoAcquireTimeout
  exact .finish (.loAcquireTimeout (.atTime hs))

theorem NextSound.execLoSettleDone {s : State} {t : Nat} {b : Fin 2} (hs : s.Sound P Q) : NextSound P Q (execLoSettleDone t b s) := by
  unfold Machine.execLoSettleDone
  exact .finish (.loSettleDone (.atTime hs))

theorem NextSound.execLoLockLoss {s : State} {t : Nat} {b : Fin 2} (hs : s.Sound P Q) : NextSound P Q (execLoLockLoss t b s) := by
  unfold Machine.execLoLockLoss
  exact .finish (.loLockLoss (.atTime hs))

theorem NextSound.execLoHandback {s : State} {t : Nat} {b : Fin 2} (hs : s.Sound P Q) : NextSound P Q (execLoHandback t b s) := by
  unfold Machine.execLoHandback
  exact .finish (.loHandback (.atTime hs))

theorem NextSound.execLoRelock {s : State} {t : Nat} {ch : Channel} {b : Fin 2} (hs : s.Sound P Q) : NextSound P Q (execLoRelock t ch b s) := by
  unfold Machine.execLoRelock
  exact .finish (.hostCmd hs (fun _ h1 => .modBank h1))

/-! ### Operations of Machine/Dfe.lean -/

theorem NextSound.execObsAttempt {s : State} {t : Nat} {g : Fin 8} (hs : s.Sound P Q) : NextSound P Q (execObsAttempt t g s) := by
  unfold Machine.execObsAttempt
  exact .finish (.obsAttempt (.atTime hs))

theorem NextSound.execObsHostReq {s : State} {t : Nat} {ch : Channel} {g n : Fin 8} (hs : s.Sound P Q) :
    NextSound P Q (execObsHostReq t ch g n s) := by
  unfold Machine.execObsHostReq
  exact .finish (.hostCmd hs (fun _ h1 => .obsRequest h1))

theorem NextSound.execObsRelearn {s : State} {t : Nat} {ch : Channel} {g : Fin 8} (hs : s.Sound P Q) : NextSound P Q (execObsRelearn t ch g s) := by
  unfold Machine.execObsRelearn
  exact .finish (.hostCmd hs (fun _ h1 => .obsRelearn h1))

theorem NextSound.execDpdVerifyEnd {s : State} {t : Nat} {g : Fin 8} (hs : s.Sound P Q) : NextSound P Q (execDpdVerifyEnd t g s) := by
  unfold Machine.execDpdVerifyEnd
  exact .finish (.dpdVerifyEnd (.atTime hs))

theorem NextSound.execDpdRoundEnd {s : State} {t : Nat} {g : Fin 8} (hs : s.Sound P Q) : NextSound P Q (execDpdRoundEnd t g s) := by
  unfold Machine.execDpdRoundEnd
  exact .finish (.dpdRoundEnd (.atTime hs))

theorem NextSound.execDpdFitDone {s : State} {t : Nat} {g : Fin 8} {tables : List (Nat × List Byte)} (hs : s.Sound P Q) :
    NextSound P Q (execDpdFitDone t g tables s) := by
  unfold Machine.execDpdFitDone
  exact .finish (.dpdFitDone (.atTime hs))

theorem NextSound.execDpdDiscard {s : State} {t : Nat} {ch : Channel} {g : Fin 8} (hs : s.Sound P Q) : NextSound P Q (execDpdDiscard t ch g s) := by
  unfold Machine.execDpdDiscard
  exact .finish (.hostCmd hs (fun _ h1 => .dpdDiscard h1))

theorem NextSound.execDpdModeWrite {s : State} {t : Nat} {ch : Channel} {g : Fin 8} {value : Word} (hs : s.Sound P Q) :
    NextSound P Q (execDpdModeWrite t ch g value s) := by
  unfold Machine.execDpdModeWrite
  exact .finish (.hostCmd hs (fun _ h1 => .dpdModeWrite h1))

/-! ### Operations of Machine/Fronthaul.lean -/

theorem NextSound.execCplaneMessage {s : State} {t : Nat} {n : Fin 64} {eaxc seq : Nat} {sections : List CSection} (hs : s.Sound P Q) :
    NextSound P Q (execCplaneMessage t n eaxc seq sections s) := by
  unfold Machine.execCplaneMessage
  exact .finish (.cplane (.atTime hs))

theorem NextSound.execGapSkip {s : State} {t : Nat} {n : Fin 64} {eaxc : Nat} (hs : s.Sound P Q) : NextSound P Q (execGapSkip t n eaxc s) := by
  unfold Machine.execGapSkip
  exact .finish (.gapSkip (.atTime hs))

theorem NextSound.execFrameReceive {s : State} {t : Nat} {n : Fin 8} {f : Frame} (hs : s.Sound P Q) : NextSound P Q (execFrameReceive t n f s) := by
  unfold Machine.execFrameReceive
  exact .finish (.frame (.atTime hs))

theorem NextSound.execUlStaleDiscard {s : State} {t : Nat} {n : Fin 8} (hs : s.Sound P Q) : NextSound P Q (execUlStaleDiscard t n s) := by
  unfold Machine.execUlStaleDiscard
  exact .finish (.staleDiscard (.atTime hs))

theorem NextSound.execLinkFault {s : State} {t : Nat} {n : Fin 8} {cause : Fin 7} (hs : s.Sound P Q) :
    NextSound P Q (execLinkFault t n cause s) := by
  unfold Machine.execLinkFault
  exact .finish (.ite (.atTime hs) (.linkFault (.atTime hs)))

theorem NextSound.execPortSignalDetect {s : State} {t : Nat} {n : Fin 8} (hs : s.Sound P Q) : NextSound P Q (execPortSignalDetect t n s) := by
  unfold Machine.execPortSignalDetect
  dsimp only
  exact .finish (.ite (.fhEnter (.atTime hs)) (.atTime hs))

theorem NextSound.execPortTrainDone {s : State} {t : Nat} {n : Fin 8} {foms : List Nat} (hs : s.Sound P Q) :
    NextSound P Q (execPortTrainDone t n foms s) := by
  unfold Machine.execPortTrainDone
  exact .finish (.trainDone (.atTime hs))

theorem NextSound.execPortAlignDone {s : State} {t : Nat} {n : Fin 8} (hs : s.Sound P Q) : NextSound P Q (execPortAlignDone t n s) := by
  unfold Machine.execPortAlignDone
  dsimp only
  exact .finish (.ite (.fhPortUp (.atTime hs)) (.atTime hs))

theorem NextSound.execPortTrainTimeout {s : State} {t : Nat} {n : Fin 8} (hs : s.Sound P Q) : NextSound P Q (execPortTrainTimeout t n s) := by
  unfold Machine.execPortTrainTimeout
  exact .finish (.trainTimeout (.atTime hs))

theorem NextSound.execPortRetry {s : State} {t : Nat} {n : Fin 8} (hs : s.Sound P Q) : NextSound P Q (execPortRetry t n s) := by
  unfold Machine.execPortRetry
  dsimp only
  exact .finish (.ite (.modFhPort (.atTime hs)) (.atTime hs))

theorem NextSound.execFlowReturnHome {s : State} {t : Nat} {n : Fin 64} (hs : s.Sound P Q) : NextSound P Q (execFlowReturnHome t n s) := by
  unfold Machine.execFlowReturnHome
  dsimp only
  exact .finish (.returnHome (.drainPort (.atTime hs)))

theorem NextSound.execPtConfirm {s : State} {t : Nat} {ch : Channel} {n : Fin 64} (hs : s.Sound P Q) : NextSound P Q (execPtConfirm t ch n s) := by
  unfold Machine.execPtConfirm
  exact .finish (.hostCmd hs (fun _ h1 => .ite (.put (.put h1)) h1))

theorem NextSound.execDelayMeasurement {s : State} {t : Nat} {n : Fin 8} {action id : Nat} {stamp : Int} (hs : s.Sound P Q) :
    NextSound P Q (execDelayMeasurement t n action id stamp s) := by
  unfold Machine.execDelayMeasurement
  exact .finish (.delayAnswer (.atTime hs))

theorem NextSound.execArpRequest {s : State} {t : Nat} {n : Fin 8} {mac ip target : List Byte} (hs : s.Sound P Q) :
    NextSound P Q (execArpRequest t n mac ip target s) := by
  unfold Machine.execArpRequest
  dsimp only
  exact .finish (.ite (.emit (.atTime hs)) (.atTime hs))

theorem NextSound.execNeighbourSolicitation {s : State} {t : Nat} {n : Fin 8} {mac ip target : List Byte} (hs : s.Sound P Q) :
    NextSound P Q (execNeighbourSolicitation t n mac ip target s) := by
  unfold Machine.execNeighbourSolicitation
  dsimp only
  exact .finish (.ite (.emit (.atTime hs)) (.atTime hs))

theorem NextSound.execEchoRequest {s : State} {t : Nat} {n : Fin 8} {src dst : List Byte} {id seq : Nat} {data : List Byte}
    (hs : s.Sound P Q) : NextSound P Q (execEchoRequest t n src dst id seq data s) := by
  unfold Machine.execEchoRequest
  dsimp only
  exact .finish (.ite (.emit (.atTime hs)) (.atTime hs))

theorem NextSound.execFhAdaptCommit {s : State} {t : Nat} {lane : Fin 8} {fom : Nat} (hs : s.Sound P Q) :
    NextSound P Q (execFhAdaptCommit t lane fom s) := by
  unfold Machine.execFhAdaptCommit
  exact .finish (.fhAdapt (.atTime hs))

theorem NextSound.execInjOne {s : State} {t : Nat} {ch : Channel} {lane : Fin 8} (hs : s.Sound P Q) : NextSound P Q (execInjOne t ch lane s) := by
  unfold Machine.execInjOne
  exact .finish (.hostCmd hs (fun _ h1 => .ite (.injectError h1) (.put h1)))

theorem NextSound.execCheckerLock {s : State} {t : Nat} {lane : Fin 8} {bits errors : Nat} (hs : s.Sound P Q) :
    NextSound P Q (execCheckerLock t lane bits errors s) := by
  unfold Machine.execCheckerLock
  dsimp only
  exact .finish (.ite (.add64 (.add64 (.put (.setFh (.atTime hs) fun x => { x with injected := by simpa using x.injected })))) (.atTime hs))

/-! ### Operations of Machine/HallScalar.lean -/

theorem NextSound.hallDo {s : State} {t : Nat} {h : Fin 136} {op : Nat} {f : State → Nat → HallRes} (hs : s.Sound P Q)
    (hf : ∀ s a2, s.Sound P Q → (f s a2).Sound P Q) : NextSound P Q (hallDo t h op s f) := by
  unfold Machine.hallDo
  dsimp only
  exact .finish (.issue (.atTime hs) (fun _ => hf _ _ (.atTime hs)))

theorem NextSound.execNop {s : State} {t : Nat} {h : Fin 136} (hs : s.Sound P Q) : NextSound P Q (execNop t h s) := by
  unfold Machine.execNop
  exact .hallDo hs fun _ _ h1 => .reserved h1

theorem NextSound.execJmp {s : State} {t : Nat} {h : Fin 136} (hs : s.Sound P Q) : NextSound P Q (execJmp t h s) := by
  unfold Machine.execJmp
  exact .hallDo hs fun _ _ h1 => .reserved (.ite h1 h1)

theorem NextSound.execCall {s : State} {t : Nat} {h : Fin 136} (hs : s.Sound P Q) : NextSound P Q (execCall t h s) := by
  unfold Machine.execCall
  exact .hallDo hs fun _ _ h1 => .reserved (.ite trivial (.modCore h1))

theorem NextSound.execRet {s : State} {t : Nat} {h : Fin 136} (hs : s.Sound P Q) : NextSound P Q (execRet t h s) := by
  unfold Machine.execRet
  exact .hallDo hs (fun _ _ h1 => .reserved (by
      split
      · exact trivial
      · exact .modCore h1))

theorem NextSound.execLoop {s : State} {t : Nat} {h : Fin 136} (hs : s.Sound P Q) : NextSound P Q (execLoop t h s) := by
  unfold Machine.execLoop
  dsimp only
  exact .hallDo hs fun _ _ h1 => .reserved (.ite h1 (.ite trivial (.modCore h1)))

theorem NextSound.execWaite {s : State} {t : Nat} {h : Fin 136} (hs : s.Sound P Q) : NextSound P Q (execWaite t h s) := by
  unfold Machine.execWaite
  dsimp only
  exact .hallDo hs fun _ _ h1 => .reserved (.ite h1 (.modHall h1))

theorem NextSound.execRete {s : State} {t : Nat} {h : Fin 136} (hs : s.Sound P Q) : NextSound P Q (execRete t h s) := by
  unfold Machine.execRete
  dsimp only
  exact .hallDo hs fun _ _ h1 => .reserved (.ite trivial (.forEach (.retireHall h1) fun _ _ h2 => .raise h2))

theorem NextSound.execEvmask {s : State} {t : Nat} {h : Fin 136} (hs : s.Sound P Q) : NextSound P Q (execEvmask t h s) := by
  unfold Machine.execEvmask
  dsimp only
  exact .hallDo hs fun _ _ h1 => .reserved (.modCore h1)

theorem NextSound.execSig {s : State} {t : Nat} {h : Fin 136} (hs : s.Sound P Q) : NextSound P Q (execSig t h s) := by
  unfold Machine.execSig
  exact .hallDo hs fun _ _ h1 => .reserved (.emit h1)

theorem NextSound.execClrf {s : State} {t : Nat} {h : Fin 136} (hs : s.Sound P Q) : NextSound P Q (execClrf t h s) := by
  unfold Machine.execClrf
  dsimp only
  exact .hallDo hs fun _ _ h1 => .reserved (.put h1)

theorem NextSound.scalarDo {s : State} {t : Nat} {h : Fin 136} {op : Nat} {bad : Nat → Bool} {f : Nat → HallCore → HallCore}
    (hs : s.Sound P Q) : NextSound P Q (scalarDo t h op s bad f) := by
  unfold Machine.scalarDo
  exact .hallDo hs fun _ _ h1 => .reserved (.modCore h1)

theorem NextSound.execAddi {s : State} {t : Nat} {h : Fin 136} (hs : s.Sound P Q) : NextSound P Q (execAddi t h s) := by
  unfold Machine.execAddi
  exact .scalarDo hs

theorem NextSound.execLui {s : State} {t : Nat} {h : Fin 136} (hs : s.Sound P Q) : NextSound P Q (execLui t h s) := by
  unfold Machine.execLui
  exact .scalarDo hs

theorem NextSound.execOri {s : State} {t : Nat} {h : Fin 136} (hs : s.Sound P Q) : NextSound P Q (execOri t h s) := by
  unfold Machine.execOri
  exact .scalarDo hs

theorem NextSound.execAdd {s : State} {t : Nat} {h : Fin 136} (hs : s.Sound P Q) : NextSound P Q (execAdd t h s) := by
  unfold Machine.execAdd
  exact .scalarDo hs

theorem NextSound.execSub {s : State} {t : Nat} {h : Fin 136} (hs : s.Sound P Q) : NextSound P Q (execSub t h s) := by
  unfold Machine.execSub
  exact .scalarDo hs

theorem NextSound.execHallAnd {s : State} {t : Nat} {h : Fin 136} (hs : s.Sound P Q) : NextSound P Q (execHallAnd t h s) := by
  unfold Machine.execHallAnd
  exact .scalarDo hs

theorem NextSound.execHallOr {s : State} {t : Nat} {h : Fin 136} (hs : s.Sound P Q) : NextSound P Q (execHallOr t h s) := by
  unfold Machine.execHallOr
  exact .scalarDo hs

theorem NextSound.execHallXor {s : State} {t : Nat} {h : Fin 136} (hs : s.Sound P Q) : NextSound P Q (execHallXor t h s) := by
  unfold Machine.execHallXor
  exact .scalarDo hs

theorem NextSound.shiftDo {s : State} {t : Nat} {h : Fin 136} {op : Nat} {r : Word → Nat → Word} {out : Word → Nat → Bool} (hs : s.Sound P Q) :
    NextSound P Q (shiftDo t h op s r out) := by
  unfold Machine.shiftDo
  dsimp only
  exact .hallDo hs fun _ _ h1 => .modCore (.ite (.setFree h1) h1)

theorem NextSound.execShl {s : State} {t : Nat} {h : Fin 136} (hs : s.Sound P Q) : NextSound P Q (execShl t h s) := by
  unfold Machine.execShl
  exact .shiftDo hs

theorem NextSound.execShra {s : State} {t : Nat} {h : Fin 136} (hs : s.Sound P Q) : NextSound P Q (execShra t h s) := by
  unfold Machine.execShra
  exact .shiftDo hs

theorem NextSound.execShrl {s : State} {t : Nat} {h : Fin 136} (hs : s.Sound P Q) : NextSound P Q (execShrl t h s) := by
  unfold Machine.execShrl
  exact .shiftDo hs

theorem NextSound.execCmp {s : State} {t : Nat} {h : Fin 136} (hs : s.Sound P Q) : NextSound P Q (execCmp t h s) := by
  unfold Machine.execCmp
  exact .scalarDo hs

theorem NextSound.execGets {s : State} {t : Nat} {h : Fin 136} (hs : s.Sound P Q) : NextSound P Q (execGets t h s) := by
  unfold Machine.execGets
  dsimp only
  exact .hallDo hs fun _ _ h1 => .ite (.getSpecial h1) (.ite (.getSpecial (.modCore h1)) (.ite (.getSpecial h1) (.ite (.getSpecial h1) (.ite
    (.getSpecial h1) (.ite (.getSpecial h1) (.ite (.getSpecial h1) (.ite (.getSpecial h1) (.ite (.ite (.getSpecial h1)
    (.getSpecial h1)) trivial))))))))

theorem NextSound.execPuts {s : State} {t : Nat} {h : Fin 136} (hs : s.Sound P Q) : NextSound P Q (execPuts t h s) := by
  unfold Machine.execPuts
  dsimp only
  exact .hallDo hs fun _ _ h1 => .reserved (.ite (.put h1) (.ite (.modCore h1) (.ite (.ite (.when (.modCore h1) (fun _ h2 => .stick h2))
    (.modCore h1)) (.ite (.modCore h1) trivial))))

/-! ### Operations of Machine/HallVector.lean -/

theorem NextSound.memDo {s : State} {t : Nat} {h : Fin 136} {op : Nat} {f : Nat → AddrGen → State → State} (hs : s.Sound P Q)
    (hf : ∀ a1 a2 s, s.Sound P Q → (f a1 a2 s).Sound P Q) : NextSound P Q (memDo t h op s f) := by
  unfold Machine.memDo
  exact .hallDo hs fun _ _ h1 => .reserved (.withPm (.advanceGen (hf _ _ _ h1)))

theorem NextSound.execLdv {s : State} {t : Nat} {h : Fin 136} (hs : s.Sound P Q) : NextSound P Q (execLdv t h s) := by
  unfold Machine.execLdv
  exact .memDo hs fun _ _ _ h1 => .modCore h1

theorem NextSound.execLdb {s : State} {t : Nat} {h : Fin 136} (hs : s.Sound P Q) : NextSound P Q (execLdb t h s) := by
  unfold Machine.execLdb
  exact .memDo hs fun _ _ _ h1 => .modCore h1

theorem NextSound.execLdl {s : State} {t : Nat} {h : Fin 136} (hs : s.Sound P Q) : NextSound P Q (execLdl t h s) := by
  unfold Machine.execLdl
  exact .memDo hs fun _ _ _ h1 => .modCore h1

theorem NextSound.execStv {s : State} {t : Nat} {h : Fin 136} (hs : s.Sound P Q) : NextSound P Q (execStv t h s) := by
  unfold Machine.execStv
  exact .memDo hs fun _ _ _ h1 => .storeElems h1

theorem NextSound.execStl {s : State} {t : Nat} {h : Fin 136} (hs : s.Sound P Q) : NextSound P Q (execStl t h s) := by
  unfold Machine.execStl
  exact .memDo hs fun _ _ _ h1 => .storeElems h1

theorem NextSound.execLdw {s : State} {t : Nat} {h : Fin 136} (hs : s.Sound P Q) : NextSound P Q (execLdw t h s) := by
  unfold Machine.execLdw
  exact .memDo hs fun _ _ _ h1 => .modCore h1

theorem NextSound.execStw {s : State} {t : Nat} {h : Fin 136} (hs : s.Sound P Q) : NextSound P Q (execStw t h s) := by
  unfold Machine.execStw
  exact .memDo hs fun _ _ _ h1 => .modCore h1

theorem NextSound.macDo {s : State} {t : Nat} {h : Fin 136} {op : Nat} {f : Cplx → Cplx → Cplx → Cplx} (hs : s.Sound P Q) :
    NextSound P Q (macDo t h op s f) := by
  unfold Machine.macDo
  dsimp only
  exact .hallDo hs fun _ _ h1 => .reserved (.setAcc h1)

theorem NextSound.execCmul {s : State} {t : Nat} {h : Fin 136} (hs : s.Sound P Q) : NextSound P Q (execCmul t h s) := by
  unfold Machine.execCmul
  exact .macDo hs

theorem NextSound.execCmac {s : State} {t : Nat} {h : Fin 136} (hs : s.Sound P Q) : NextSound P Q (execCmac t h s) := by
  unfold Machine.execCmac
  exact .macDo hs

theorem NextSound.execCmsc {s : State} {t : Nat} {h : Fin 136} (hs : s.Sound P Q) : NextSound P Q (execCmsc t h s) := by
  unfold Machine.execCmsc
  exact .macDo hs

theorem NextSound.execRmac {s : State} {t : Nat} {h : Fin 136} (hs : s.Sound P Q) : NextSound P Q (execRmac t h s) := by
  unfold Machine.execRmac
  exact .macDo hs

theorem NextSound.vecDo {s : State} {t : Nat} {h : Fin 136} {op : Nat} {bad : Nat → Bool} {f : Nat → HallCore → List Cplx} (hs : s.Sound P Q) :
    NextSound P Q (vecDo t h op s bad f) := by
  unfold Machine.vecDo
  exact .hallDo hs fun _ _ h1 => .reserved (.setVec h1)

theorem NextSound.execVadd {s : State} {t : Nat} {h : Fin 136} (hs : s.Sound P Q) : NextSound P Q (execVadd t h s) := by
  unfold Machine.execVadd
  exact .vecDo hs

theorem NextSound.execVsub {s : State} {t : Nat} {h : Fin 136} (hs : s.Sound P Q) : NextSound P Q (execVsub t h s) := by
  unfold Machine.execVsub
  exact .vecDo hs

theorem NextSound.execVshr {s : State} {t : Nat} {h : Fin 136} (hs : s.Sound P Q) : NextSound P Q (execVshr t h s) := by
  unfold Machine.execVshr
  exact .vecDo hs

theorem NextSound.execVshl {s : State} {t : Nat} {h : Fin 136} (hs : s.Sound P Q) : NextSound P Q (execVshl t h s) := by
  unfold Machine.execVshl
  exact .vecDo hs

theorem NextSound.execVmov {s : State} {t : Nat} {h : Fin 136} (hs : s.Sound P Q) : NextSound P Q (execVmov t h s) := by
  unfold Machine.execVmov
  exact .vecDo hs

theorem NextSound.execClra {s : State} {t : Nat} {h : Fin 136} (hs : s.Sound P Q) : NextSound P Q (execClra t h s) := by
  unfold Machine.execClra
  dsimp only
  exact .hallDo hs fun _ _ h1 => .reserved (.modCore h1)

theorem NextSound.execExtr {s : State} {t : Nat} {h : Fin 136} (hs : s.Sound P Q) : NextSound P Q (execExtr t h s) := by
  unfold Machine.execExtr
  exact .vecDo hs

theorem NextSound.execRsum {s : State} {t : Nat} {h : Fin 136} (hs : s.Sound P Q) : NextSound P Q (execRsum t h s) := by
  unfold Machine.execRsum
  exact .hallDo hs fun _ _ h1 => .reserved (.setAcc h1)

theorem NextSound.execHallExp {s : State} {t : Nat} {h : Fin 136} (hs : s.Sound P Q) : NextSound P Q (execHallExp t h s) := by
  unfold Machine.execHallExp
  dsimp only
  exact .hallDo hs fun _ _ h1 => .reserved (.modCore h1)

theorem NextSound.execNorm {s : State} {t : Nat} {h : Fin 136} (hs : s.Sound P Q) : NextSound P Q (execNorm t h s) := by
  unfold Machine.execNorm
  dsimp only
  exact .hallDo hs fun _ _ h1 => .reserved (.when (.setAcc h1) (fun _ h2 => .stick h2))

/-! ### Operations of Machine/HallCorridor.lean -/

theorem NextSound.execSend {s : State} {t : Nat} {h : Fin 136} (hs : s.Sound P Q) : NextSound P Q (execSend t h s) := by
  unfold Machine.execSend
  dsimp only
  exact .hallDo hs fun _ _ h1 => .withPm (.ite trivial (.ite (.waitCredit h1) (.advanceGen (.sendFlit h1))))

theorem NextSound.execFetch {s : State} {t : Nat} {h : Fin 136} (hs : s.Sound P Q) : NextSound P Q (execFetch t h s) := by
  unfold Machine.execFetch
  dsimp only
  exact .hallDo hs fun _ _ h1 => .reserved (.ite trivial (.ite (.waitCredit h1) (.modHall h1)))

theorem NextSound.execFlitArrival {s : State} {t : Nat} {h : Fin 136} {f : Fin 16} (hs : s.Sound P Q) : NextSound P Q (execFlitArrival t h f s) := by
  unfold Machine.execFlitArrival
  exact .finish (.flitArrives (.atTime hs))

theorem NextSound.execFetchResult {s : State} {t : Nat} {h : Fin 136} (hs : s.Sound P Q) : NextSound P Q (execFetchResult t h s) := by
  unfold Machine.execFetchResult
  dsimp only
  exact .finish (by
      split
      · exact .atTime hs
      · exact .enterRing (.entered (.modHall (.atTime hs))))

theorem NextSound.execRouteFlitRelease {s : State} {t : Nat} {h : Fin 136} {f : Fin 16} (hs : s.Sound P Q) :
    NextSound P Q (execRouteFlitRelease t h f s) := by
  unfold Machine.execRouteFlitRelease
  dsimp only
  exact .finish (.ite (.atTime hs) (.forEach (.modFlow (.setFlits (.atTime hs))) fun _ _ h1 => .memFlit h1))

theorem NextSound.execEventAccept {s : State} {t : Nat} {h : Fin 136} (hs : s.Sound P Q) : NextSound P Q (execEventAccept t h s) := by
  unfold Machine.execEventAccept
  exact .finish (.acceptEvent (.atTime hs))

theorem NextSound.execHallTimer {s : State} {t : Nat} {h : Fin 136} (hs : s.Sound P Q) : NextSound P Q (execHallTimer t h s) := by
  unfold Machine.execHallTimer
  dsimp only
  exact .finish (.ite (.raise (.atTime hs)) (.atTime hs))

theorem NextSound.execDoorbell {s : State} {t : Nat} {h : Fin 136} (hs : s.Sound P Q) : NextSound P Q (execDoorbell t h s) := by
  unfold Machine.execDoorbell
  dsimp only
  exact .finish (.ite (.raise (.atTime hs)) (.atTime hs))

theorem NextSound.execMboxInWrite {s : State} {t : Nat} {ch : Channel} {h : Fin 136} {value : Word} (hs : s.Sound P Q) :
    NextSound P Q (execMboxInWrite t ch h value s) := by
  unfold Machine.execMboxInWrite
  exact .finish (.hostCmd hs (fun _ h1 => .mboxIn h1))

theorem NextSound.execDmDataAccess {s : State} {t : Nat} {ch : Channel} {h : Fin 136} {value : Option Word} (hs : s.Sound P Q) :
    NextSound P Q (execDmDataAccess t ch h value s) := by
  unfold Machine.execDmDataAccess
  dsimp only
  exact .finish (.hostCmd hs (fun _ h1 => by
      split
      · exact .dmWrite h1
      · exact .dmNext (.emit h1)))

/-! ### Operations of Machine/Txn.lean -/

theorem NextSound.execOpenLocal {s : State} {t : Nat} {ch : Channel} (hs : s.Sound P Q) : NextSound P Q (execOpenLocal t ch s) := by
  unfold Machine.execOpenLocal
  exact .finish (.hostCmd hs (fun _ h1 => .txnOpen h1))

theorem NextSound.execOpenArray {s : State} {t : Nat} {ch : Channel} (hs : s.Sound P Q) : NextSound P Q (execOpenArray t ch s) := by
  unfold Machine.execOpenArray
  exact .finish (.hostCmd hs (fun _ h1 => .txnOpenArray h1))

theorem NextSound.execPrepare {s : State} {t : Nat} {ch : Channel} {slot : Fin 32} (hs : s.Sound P Q) : NextSound P Q (execPrepare t ch slot s) := by
  unfold Machine.execPrepare
  exact .finish (.hostCmd hs (fun _ h1 => .txnPrepare h1))

theorem NextSound.execAbort {s : State} {t : Nat} {ch : Channel} {slot : Fin 32} (hs : s.Sound P Q) : NextSound P Q (execAbort t ch slot s) := by
  unfold Machine.execAbort
  exact .finish (.hostCmd hs (fun _ h1 => .txnAbort h1))

theorem NextSound.execRelease {s : State} {t : Nat} {ch : Channel} {slot : Fin 32} (hs : s.Sound P Q) : NextSound P Q (execRelease t ch slot s) := by
  unfold Machine.execRelease
  exact .finish (.hostCmd hs (fun _ h1 => .txnRelease h1))

theorem NextSound.execTxnBind {s : State} {t : Nat} {ch : Channel} {value : Word} (hs : s.Sound P Q) : NextSound P Q (execTxnBind t ch value s) := by
  unfold Machine.execTxnBind
  exact .finish (.hostCmd hs (fun _ h1 => .txnBind h1))

theorem NextSound.execLivePrepareDone {s : State} {t : Nat} {slot : Fin 20} (hs : s.Sound P Q) : NextSound P Q (execLivePrepareDone t slot s) := by
  unfold Machine.execLivePrepareDone
  exact .finish (.livePrepared (.atTime hs))

theorem NextSound.execOpenReq {s : State} {t landing tag : Nat} (hs : s.Sound P Q) : NextSound P Q (execOpenReq t landing tag s) := by
  unfold Machine.execOpenReq
  dsimp only
  exact .finish (.ite (.topOpen (.atTime hs)) (.sendUp (.atTime hs)))

theorem NextSound.execAnnounce {s : State} {t id slot origin tag result : Nat} (hs : s.Sound P Q) :
    NextSound P Q (execAnnounce t id slot origin tag result s) := by
  unfold Machine.execAnnounce
  exact .finish (.announced (.atTime hs))

theorem NextSound.execPrepareReq {s : State} {t id : Nat} {point : Word} (hs : s.Sound P Q) : NextSound P Q (execPrepareReq t id point s) := by
  unfold Machine.execPrepareReq
  exact .finish (.prepareAsked (.atTime hs))

theorem NextSound.execPrepareMessage {s : State} {t id time decide carrier : Nat} (hs : s.Sound P Q) :
    NextSound P Q (execPrepareMessage t id time decide carrier s) := by
  unfold Machine.execPrepareMessage
  exact .finish (.prepareArrived (.atTime hs))

theorem NextSound.execVote {s : State} {t : Nat} {port : Fin 4} {id yes no cause : Nat} (hs : s.Sound P Q) :
    NextSound P Q (execVote t port id yes no cause s) := by
  unfold Machine.execVote
  exact .finish (.voted (.atTime hs))

theorem NextSound.execDecision {s : State} {t id : Nat} {commit : Bool} {cause landing : Nat} (hs : s.Sound P Q) :
    NextSound P Q (execDecision t id commit cause landing s) := by
  unfold Machine.execDecision
  exact .finish (.decided (.atTime hs))

theorem NextSound.execTxnDecisionTimeout {s : State} {t : Nat} {slot : Fin 29} (hs : s.Sound P Q) :
    NextSound P Q (execTxnDecisionTimeout t slot s) := by
  unfold Machine.execTxnDecisionTimeout
  exact .finish (.decisionTimeout (.atTime hs))

theorem NextSound.execAbortReq {s : State} {t id landing : Nat} (hs : s.Sound P Q) : NextSound P Q (execAbortReq t id landing s) := by
  unfold Machine.execAbortReq
  exact .finish (.abortAsked (.atTime hs))

theorem NextSound.execQuery {s : State} {t : Nat} {port : Fin 4} {id landing : Nat} (hs : s.Sound P Q) :
    NextSound P Q (execQuery t port id landing s) := by
  unfold Machine.execQuery
  exact .finish (.queried (.atTime hs))

theorem NextSound.execQueryRetry {s : State} {t : Nat} {slot : Fin 29} (hs : s.Sound P Q) : NextSound P Q (execQueryRetry t slot s) := by
  unfold Machine.execQueryRetry
  exact .finish (.queryRetry (.atTime hs))

theorem NextSound.execHold {s : State} {t : Nat} {port : Fin 4} {_id : Nat} {held : Bool} {carrier symbol : Nat} (hs : s.Sound P Q) :
    NextSound P Q (execHold t port _id held carrier symbol s) := by
  unfold Machine.execHold
  exact .finish (.holdArrived (.atTime hs))

theorem NextSound.execCommitLatch {s : State} {t : Nat} (hs : s.Sound P Q) : NextSound P Q (execCommitLatch t s) := by
  unfold Machine.execCommitLatch
  exact .finish (.latchAll (.atTime hs))

/-! ### Operations of Machine/Sums.lean -/

theorem NextSound.execPartialSum {s : State} {t : Nat} {port : Fin 4} {x : Chunk} (hs : s.Sound P Q) :
    NextSound P Q (execPartialSum t port x s) := by
  unfold Machine.execPartialSum
  exact .finish (.childChunk (.atTime hs))

theorem NextSound.execFinished {s : State} {t : Nat} {_port : Fin 4} {x : Chunk} (hs : s.Sound P Q) : NextSound P Q (execFinished t _port x s) := by
  unfold Machine.execFinished
  exact .finish (.finishedArrived (.atTime hs))

theorem NextSound.execMissing {s : State} {t : Nat} {_port : Fin 4} {root carrier layer slot sym first : Nat} (hs : s.Sound P Q) :
    NextSound P Q (execMissing t _port root carrier layer slot sym first s) := by
  unfold Machine.execMissing
  dsimp only
  exact .finish (.ite (.topMissing (.atTime hs)) (.sendConfirmed (.atTime hs)))

theorem NextSound.execSupplement {s : State} {t : Nat} {_port : Fin 4} {origin : Nat} {x : Chunk} (hs : s.Sound P Q) :
    NextSound P Q (execSupplement t _port origin x s) := by
  unfold Machine.execSupplement
  dsimp only
  exact .finish (.ite (.topSupplement (.atTime hs)) (.sendConfirmed (.atTime hs)))

theorem NextSound.execChunkForward {s : State} {t carrier layer slot sym first : Nat} (hs : s.Sound P Q) :
    NextSound P Q (execChunkForward t carrier layer slot sym first s) := by
  unfold Machine.execChunkForward
  exact .finish (.forwardChunk (.atTime hs))

theorem NextSound.execLayer {s : State} {t : Nat} {port : Fin 4} {x : Chunk} (hs : s.Sound P Q) : NextSound P Q (execLayer t port x s) := by
  unfold Machine.execLayer
  dsimp only
  exact .finish (.ite (.atTime hs) (.ite (.takeLayer (.spread (.atTime hs))) (.spread (.atTime hs))))

theorem NextSound.execSections {s : State} {t : Nat} {port : Fin 4} {carrier : Nat} {l : List (Nat × CSection)} (hs : s.Sound P Q) :
    NextSound P Q (execSections t port carrier l s) := by
  unfold Machine.execSections
  dsimp only
  exact .finish (.ite (.atTime hs) (.ite (.forEach (.spread (.atTime hs)) fun _ _ h1 => .remoteSection h1) (.spread (.atTime hs))))

theorem NextSound.execResume {s : State} {t : Nat} {port : Fin 4} {carrier symbol : Nat} (hs : s.Sound P Q) :
    NextSound P Q (execResume t port carrier symbol s) := by
  unfold Machine.execResume
  dsimp only
  exact .finish (.forEach (.atTime hs) fun _ _ h1 => .sendOn h1)

theorem NextSound.execSolverEpochStart {s : State} {t : Nat} {c : Fin 8} (hs : s.Sound P Q) : NextSound P Q (execSolverEpochStart t c s) := by
  unfold Machine.execSolverEpochStart
  exact .finish (.gramsForward (.epochStart (.atTime hs)))

theorem NextSound.execGram {s : State} {t : Nat} {port : Fin 4} {carrier slot : Nat} {l : List GramRec} (hs : s.Sound P Q) :
    NextSound P Q (execGram t port carrier slot l s) := by
  unfold Machine.execGram
  exact .finish (.gramArrived (.atTime hs))

theorem NextSound.execInverse {s : State} {t : Nat} {_port : Fin 4} {carrier slot : Nat} {l : List InverseRec} (hs : s.Sound P Q) :
    NextSound P Q (execInverse t _port carrier slot l s) := by
  unfold Machine.execInverse
  dsimp only
  exact .finish (.ite (.atTime hs) (.inversesDown (.atTime hs)))

theorem NextSound.execSolverEpochDone {s : State} {t : Nat} {c : Fin 8} (hs : s.Sound P Q) : NextSound P Q (execSolverEpochDone t c s) := by
  unfold Machine.execSolverEpochDone
  exact .finish (.epochDone (.atTime hs))

/-! ### Operations of Machine/Symbol.lean -/

theorem NextSound.execDownlinkDeadline {s : State} {t : Nat} {c : Fin 8} (hs : s.Sound P Q) : NextSound P Q (execDownlinkDeadline t c s) := by
  unfold Machine.execDownlinkDeadline
  exact .finish (.deadline (.atTime hs))

theorem NextSound.execReleaseTime {s : State} {t : Nat} (hs : s.Sound P Q) : NextSound P Q (execReleaseTime t s) := by
  unfold Machine.execReleaseTime
  exact .finish (.releases (.atTime hs))

theorem NextSound.execSymbolBoundary [Fact (Symbolless Q)] {s : State} {t : Nat} {c : Fin 8} {adc : List (List Cplx)} (hs : s.Sound P Q) :
    NextSound P Q (execSymbolBoundary t c adc s) := by
  unfold Machine.execSymbolBoundary
  exact .finish (.symbolBoundary (.atTime hs))

theorem NextSound.execInternalCheckpoint {s : State} {t _unit : Nat} (hs : s.Sound P Q) : NextSound P Q (execInternalCheckpoint t _unit s) := by
  unfold Machine.execInternalCheckpoint
  exact .finish (.atTime hs)

theorem NextSound.execCarrierStart [Fact (Symbolless Q)] {s : State} {t : Nat} {c : Fin 8} (hs : s.Sound P Q) :
    NextSound P Q (execCarrierStart t c s) := by
  unfold Machine.execCarrierStart
  exact .finish (.carrierStart (.atTime hs))

/-! ### Operations of Machine/Observe.lean -/

theorem NextSound.execObsCaptureDone {s : State} {t : Nat} {g : Fin 8} {inPhase quadrature : List Int} {err ref : Nat} (hs : s.Sound P Q) :
    NextSound P Q (execObsCaptureDone t g inPhase quadrature err ref s) := by
  unfold Machine.execObsCaptureDone
  exact .finish (.obsFinish (.atTime hs))

/-! ### Operations of Machine/Capture.lean -/

theorem NextSound.execCapArm {s : State} {t : Nat} {ch : Channel} {value : Word} (hs : s.Sound P Q) : NextSound P Q (execCapArm t ch value s) := by
  unfold Machine.execCapArm
  exact .finish (.hostCmd hs (fun _ h1 => .capArm h1))

theorem NextSound.execCapCancel {s : State} {t : Nat} {ch : Channel} (hs : s.Sound P Q) : NextSound P Q (execCapCancel t ch s) := by
  unfold Machine.execCapCancel
  exact .finish (.hostCmd hs (fun _ h1 => .ite (.capStop h1) h1))

theorem NextSound.execCapTrigger {s : State} {t : Nat} (hs : s.Sound P Q) : NextSound P Q (execCapTrigger t s) := by
  unfold Machine.execCapTrigger
  exact .finish (.capTrigger (.atTime hs))

theorem NextSound.execCapEnd {s : State} {t : Nat} {codes : List Cplx} (hs : s.Sound P Q) : NextSound P Q (execCapEnd t codes s) := by
  unfold Machine.execCapEnd
  exact .finish (.capEnd (.atTime hs))

theorem NextSound.execPrachOccasion {s : State} {t : Nat} {c : Fin 8} {n : Nat} {adc : List (List Cplx)} (hs : s.Sound P Q) :
    NextSound P Q (execPrachOccasion t c n adc s) := by
  unfold Machine.execPrachOccasion
  exact .finish (.prachOccasion (.atTime hs))

/-! ### Operations of Machine/StairMask.lean -/

theorem NextSound.execLaneTxfWrite {s : State} {t : Nat} {ch : Option Channel} {lane : Fin 16} {value : Word} (hs : s.Sound P Q) :
    NextSound P Q (execLaneTxfWrite t ch lane value s) := by
  unfold Machine.execLaneTxfWrite
  dsimp only
  exact .finish (by
      split
      · exact .hostCmd hs fun _ h2 => .writeTaps h2
      · exact .when (.writeTaps (.atTime hs)) (fun _ h2 => .emit h2))

theorem NextSound.execMaskWrite {s : State} {t : Nat} {ch : Channel} {k : Fin 8} {value : Word} (hs : s.Sound P Q) :
    NextSound P Q (execMaskWrite t ch k value s) := by
  unfold Machine.execMaskWrite
  exact .finish (.hostCmd hs (fun _ h1 => .writeMask h1))

/-! ### Operations of Machine/StairTree.lean -/

theorem NextSound.execJoin {s : State} {t : Nat} {port : Fin 4} {landing uid : Nat} {path : List Nat} (hs : s.Sound P Q) :
    NextSound P Q (execJoin t port landing uid path s) := by
  unfold Machine.execJoin
  exact .finish (.joinArrived (.atTime hs))

theorem NextSound.execOutcomes {s : State} {t landing : Nat} {entries : List (Nat × Nat)} (hs : s.Sound P Q) :
    NextSound P Q (execOutcomes t landing entries s) := by
  unfold Machine.execOutcomes
  exact .finish (.outcomesArrived (.atTime hs))

theorem NextSound.execReparent {s : State} {t : Nat} {port : Fin 4} {landing carrier symbol : Nat} {kind : Fin 3} {members : List
    (Nat × List Nat)} (hs : s.Sound P Q) : NextSound P Q (execReparent t port landing carrier symbol kind members s) := by
  unfold Machine.execReparent
  dsimp only
  exact .finish (by
      split
      · exact .reparentAsked (.atTime hs)
      · exact .ite (.parentConfirmed (.atTime hs)) (.confirmDown (.atTime hs))
      · exact .ite (.abandon (.atTime hs)) (.atTime hs))

theorem NextSound.execReparentTimeout {s : State} {t : Nat} (hs : s.Sound P Q) : NextSound P Q (execReparentTimeout t s) := by
  unfold Machine.execReparentTimeout
  dsimp only
  exact .finish (by
      split
      · exact .ite (.abandon (.atTime hs)) (.atTime hs)
      · exact .atTime hs)

theorem NextSound.execHelloSend {s : State} {t : Nat} {port : Fin 4} (hs : s.Sound P Q) : NextSound P Q (execHelloSend t port s) := by
  unfold Machine.execHelloSend
  dsimp only
  exact .finish (.ite (.sendOn (.modSPort (.atTime hs))) (.atTime hs))

theorem NextSound.execHello {s : State} {t : Nat} {port : Fin 4} {h : Hello} (hs : s.Sound P Q) : NextSound P Q (execHello t port h s) := by
  unfold Machine.execHello
  exact .finish (.helloArrived (.atTime hs))

theorem NextSound.execTree {s : State} {t : Nat} {port : Fin 4} {state path addition start : Nat} {target : Option Nat} (hs : s.Sound P Q) :
    NextSound P Q (execTree t port state path addition start target s) := by
  unfold Machine.execTree
  dsimp only
  exact .finish (.ite (.atTime hs) (by
      split
      · exact .treeTargeted (.atTime hs)
      · exact .treeBroadcast (.atTime hs)))

theorem NextSound.execTreeHeartbeat {s : State} {t : Nat} (hs : s.Sound P Q) : NextSound P Q (execTreeHeartbeat t s) := by
  unfold Machine.execTreeHeartbeat
  dsimp only
  exact .finish (.ite (.sendDown (.modTree (.atTime hs))) (.atTime hs))

theorem NextSound.execTreeLost {s : State} {t : Nat} (hs : s.Sound P Q) : NextSound P Q (execTreeLost t s) := by
  unfold Machine.execTreeLost
  dsimp only
  exact .finish (.ite (.topology (.treeEnter (.atTime hs))) (.atTime hs))

/-! ### Operations of Machine/StairPorts.lean -/

theorem NextSound.execFlightFault {s : State} {t : Nat} {port : Fin 4} {cause : Fin 16} (hs : s.Sound P Q) :
    NextSound P Q (execFlightFault t port cause s) := by
  unfold Machine.execFlightFault
  dsimp only
  exact .finish (.ite (.atTime hs) (.ite (.forEach (.atTime hs) fun _ _ h1 => .flightFault h1) (.flightFault (.atTime hs))))

theorem NextSound.execLaneFault {s : State} {t : Nat} {lane : Fin 16} {cause : Fin 6} (hs : s.Sound P Q) :
    NextSound P Q (execLaneFault t lane cause s) := by
  unfold Machine.execLaneFault
  dsimp only
  exact .finish (.ite (.atTime hs) (.laneFault (.atTime hs)))

theorem NextSound.execLaneRejoin {s : State} {t : Nat} {lane : Fin 16} (hs : s.Sound P Q) : NextSound P Q (execLaneRejoin t lane s) := by
  unfold Machine.execLaneRejoin
  dsimp only
  exact .finish (.ite (.atTime hs) (.ite (.laneBack (.atTime hs)) (.modSLane (.atTime hs))))

theorem NextSound.execDetectBurst {s : State} {t : Nat} {port : Fin 4} {b : Burst} (hs : s.Sound P Q) :
    NextSound P Q (execDetectBurst t port b s) := by
  unfold Machine.execDetectBurst
  dsimp only
  exact .finish (.ite (.flightFault (.atTime hs)) (.ite (.modSPort (.modSPort (.sEnter (.atTime hs)))) (.ite (.detectCheck (.modSPort (.atTime hs)))
    (.atTime hs))))

theorem NextSound.execDetectBurstSend {s : State} {t : Nat} {port : Fin 4} (hs : s.Sound P Q) : NextSound P Q (execDetectBurstSend t port s) := by
  unfold Machine.execDetectBurstSend
  dsimp only
  exact .finish (.ite (.detectCheck (.modSPort (.modTree (.emit (.atTime hs))))) (.atTime hs))

theorem NextSound.execEchoPhaseEnd {s : State} {t : Nat} {port : Fin 4} (hs : s.Sound P Q) : NextSound P Q (execEchoPhaseEnd t port s) := by
  unfold Machine.execEchoPhaseEnd
  dsimp only
  exact .finish (.ite (.ite (.sEnter (.modSPort (.atTime hs))) (.modSPort (.atTime hs))) (.atTime hs))

theorem NextSound.execFarEqDone {s : State} {t : Nat} {port : Fin 4} {foms : List Nat} (hs : s.Sound P Q) :
    NextSound P Q (execFarEqDone t port foms s) := by
  unfold Machine.execFarEqDone
  exact .finish (.farEq (.atTime hs))

theorem NextSound.execFullDone {s : State} {t : Nat} {port : Fin 4} {delays : List Int} (hs : s.Sound P Q) :
    NextSound P Q (execFullDone t port delays s) := by
  unfold Machine.execFullDone
  dsimp only
  exact .finish (.ite (.atTime hs) (.ite (.topology (.portHoldoff (.atTime hs))) (.portUp (.atTime hs))))

theorem NextSound.execPortPhaseTimeout {s : State} {t : Nat} {port : Fin 4} (hs : s.Sound P Q) : NextSound P Q (execPortPhaseTimeout t port s) := by
  unfold Machine.execPortPhaseTimeout
  dsimp only
  exact .finish (.ite (.ite (.topology (.modSPort (.portHoldoff (.bump (.atTime hs))))) (.modSPort (.portHoldoff (.bump (.atTime hs))))) (.atTime hs))

theorem NextSound.execHoldoffEnd {s : State} {t : Nat} {port : Fin 4} (hs : s.Sound P Q) : NextSound P Q (execHoldoffEnd t port s) := by
  unfold Machine.execHoldoffEnd
  dsimp only
  exact .finish (.ite (.portListen (.atTime hs)) (.atTime hs))

theorem NextSound.execStairRetrain {s : State} {t : Nat} {ch : Channel} {port : Fin 4} (hs : s.Sound P Q) :
    NextSound P Q (execStairRetrain t ch port s) := by
  unfold Machine.execStairRetrain
  exact .finish (.hostCmd hs (fun _ h1 => .retrain h1))

theorem NextSound.execCodewordReceive {s : State} {t : Nat} {lane : Fin 16} {seq : Nat} {content : Bool} {ack : Option Nat} {fec : Fin 3}
    (hs : s.Sound P Q) : NextSound P Q (execCodewordReceive t lane seq content ack fec s) := by
  unfold Machine.execCodewordReceive
  dsimp only
  exact .finish (.ite (.atTime hs) (.ite (.bump (by
      split
      · exact .acked (.atTime hs)
      · exact .atTime hs)) (.codeword (.ite (.put (.modSLane (.ite (.idleWake (.ite (.add64 (by
      split
      · exact .acked (.atTime hs)
      · exact .atTime hs)) (by
      split
      · exact .acked (.atTime hs)
      · exact .atTime hs))) (.ite (.add64 (by
      split
      · exact .acked (.atTime hs)
      · exact .atTime hs)) (by
      split
      · exact .acked (.atTime hs)
      · exact .atTime hs))))) (.ite (.idleWake (.ite (.add64 (by
      split
      · exact .acked (.atTime hs)
      · exact .atTime hs)) (by
      split
      · exact .acked (.atTime hs)
      · exact .atTime hs))) (.ite (.add64 (by
      split
      · exact .acked (.atTime hs)
      · exact .atTime hs)) (by
      split
      · exact .acked (.atTime hs)
      · exact .atTime hs)))))))

theorem NextSound.execCodewordResend {s : State} {t : Nat} {port : Fin 4} (hs : s.Sound P Q) : NextSound P Q (execCodewordResend t port s) := by
  unfold Machine.execCodewordResend
  dsimp only
  exact .finish (by
      split
      · exact .ite (by
      split
      · exact .onLane (.padLanes (.emit (.bump (.modSPort (.atTime hs)))))
      · exact .padLanes (.emit (.bump (.modSPort (.atTime hs))))) (.atTime hs)
      · exact .atTime hs)

theorem NextSound.execAckStall {s : State} {t : Nat} {port : Fin 4} (hs : s.Sound P Q) : NextSound P Q (execAckStall t port s) := by
  unfold Machine.execAckStall
  dsimp only
  exact .finish (.ite (.flightFault (.atTime hs)) (.atTime hs))

theorem NextSound.execHelloTimeout {s : State} {t : Nat} {port : Fin 4} (hs : s.Sound P Q) : NextSound P Q (execHelloTimeout t port s) := by
  unfold Machine.execHelloTimeout
  dsimp only
  exact .finish (.ite (.flightFault (.atTime hs)) (.atTime hs))

theorem NextSound.execStairAdaptCommit {s : State} {t : Nat} {lane : Fin 16} {fom : Nat} (hs : s.Sound P Q) :
    NextSound P Q (execStairAdaptCommit t lane fom s) := by
  unfold Machine.execStairAdaptCommit
  dsimp only
  exact .finish (.ite (.atTime hs) (.ite (.put (.put (.atTime hs))) (.put (.atTime hs))))

theorem NextSound.execLaneIdle {s : State} {t : Nat} {lane : Fin 16} (hs : s.Sound P Q) : NextSound P Q (execLaneIdle t lane s) := by
  unfold Machine.execLaneIdle
  dsimp only
  exact .finish (.ite (.put (.atTime hs)) (.atTime hs))

theorem NextSound.execIdleRollback {s : State} {t : Nat} {lane : Fin 16} {fom : Nat} (hs : s.Sound P Q) :
    NextSound P Q (execIdleRollback t lane fom s) := by
  unfold Machine.execIdleRollback
  dsimp only
  exact .finish (.ite (.modSLane (.bump (.put (.atTime hs)))) (.atTime hs))

theorem NextSound.execTimeMark {s : State} {t : Nat} {port : Fin 4} {heard : Option Nat} {stamp : Int} (hs : s.Sound P Q) :
    NextSound P Q (execTimeMark t port heard stamp s) := by
  unfold Machine.execTimeMark
  dsimp only
  exact .finish (.ite (.atTime hs) (by
      split
      · exact .timeRecord (.modSPort (.atTime hs))
      · exact .ite (.atTime hs) (.timeRecord (.forEach (.emit (.padLanes (.modSPort (.atTime hs)))) fun _ _ h2 => .emit h2))))

theorem NextSound.execTime {s : State} {t : Nat} {port : Fin 4} {index : Nat} {t1 t4 : Int} (hs : s.Sound P Q) :
    NextSound P Q (execTime t port index t1 t4 s) := by
  unfold Machine.execTime
  dsimp only
  exact .finish (.ite (.timeArrived (.atTime hs)) (.atTime hs))

theorem NextSound.execSleep {s : State} {t : Nat} {port : Fin 4} (hs : s.Sound P Q) : NextSound P Q (execSleep t port s) := by
  unfold Machine.execSleep
  exact .finish (.portSleep (.atTime hs))

theorem NextSound.execStairWake {s : State} {t : Nat} {ch : Channel} {port : Fin 4} (hs : s.Sound P Q) :
    NextSound P Q (execStairWake t ch port s) := by
  unfold Machine.execStairWake
  dsimp only
  exact .finish (.hostCmd hs (fun _ h1 => .ite (.portWake h1) h1))

theorem NextSound.execWakePatternSent {s : State} {t : Nat} {port : Fin 4} (hs : s.Sound P Q) : NextSound P Q (execWakePatternSent t port s) := by
  unfold Machine.execWakePatternSent
  dsimp only
  exact .finish (.ite (.portListen (.atTime hs)) (.atTime hs))

/-! ### Operations of Machine/Ota.lean -/

theorem NextSound.execOtaStart {s : State} {t : Nat} {ch : Channel} (hs : s.Sound P Q) : NextSound P Q (execOtaStart t ch s) := by
  unfold Machine.execOtaStart
  exact .finish (.hostCmd hs (fun _ h1 => .startRound h1))

theorem NextSound.execOtaDiscard {s : State} {t : Nat} {ch : Channel} (hs : s.Sound P Q) : NextSound P Q (execOtaDiscard t ch s) := by
  unfold Machine.execOtaDiscard
  exact .finish (.hostCmd hs (fun _ h1 => .put h1))

theorem NextSound.execOtaRoundTimer {s : State} {t : Nat} (hs : s.Sound P Q) : NextSound P Q (execOtaRoundTimer t s) := by
  unfold Machine.execOtaRoundTimer
  dsimp only
  exact .finish (.ite (.startRound (.atTime hs)) (.atTime hs))

theorem NextSound.execSchedule {s : State} {t round first period : Nat} {windows : List OtaWindow} (hs : s.Sound P Q) :
    NextSound P Q (execSchedule t round first period windows s) := by
  unfold Machine.execSchedule
  exact .finish (.scheduleTaken (.sendDown (.atTime hs)))

theorem NextSound.execOtaWindow {s : State} {t number : Nat} {ends : Bool} {factors : List (Nat × Word × Word)} (hs : s.Sound P Q) :
    NextSound P Q (execOtaWindow t number ends factors s) := by
  unfold Machine.execOtaWindow
  dsimp only
  exact .finish (by
      split
      · split
        · exact .ite (.atTime hs) (.ite (.windowEnds (.atTime hs)) (.ite (.windowBegins (.atTime hs)) (.atTime hs)))
        · exact .atTime hs
      · exact .atTime hs)

theorem NextSound.execOtaDetection {s : State} {t : Nat} {k path : Fin 2} {metric : Int} (hs : s.Sound P Q) :
    NextSound P Q (execOtaDetection t k path metric s) := by
  unfold Machine.execOtaDetection
  exact .finish (.detection (.atTime hs))

theorem NextSound.execOtaCaptureDone {s : State} {t : Nat} {k : Fin 2} {header : BitVec 64} {streams : List (List Cplx)} {overloads : Nat}
    (hs : s.Sound P Q) : NextSound P Q (execOtaCaptureDone t k header streams overloads s) := by
  unfold Machine.execOtaCaptureDone
  exact .finish (.captureDone (.atTime hs))

theorem NextSound.execReport {s : State} {t round window sender receiver phi : Nat} {metric : Int} (hs : s.Sound P Q) :
    NextSound P Q (execReport t round window sender receiver phi metric s) := by
  unfold Machine.execReport
  dsimp only
  exact .finish (.ite (.sendUp (.atTime hs)) (.ite (.topReport (.atTime hs)) (.atTime hs)))

theorem NextSound.execMissed {s : State} {t round window receiver sender : Nat} (hs : s.Sound P Q) :
    NextSound P Q (execMissed t round window receiver sender s) := by
  unfold Machine.execMissed
  dsimp only
  exact .finish (.ite (.sendUp (.atTime hs)) (.ite (.topMissed (.atTime hs)) (.atTime hs)))

theorem NextSound.execOtaRetrySchedule {s : State} {t : Nat} (hs : s.Sound P Q) : NextSound P Q (execOtaRetrySchedule t s) := by
  unfold Machine.execOtaRetrySchedule
  exact .finish (.retrySchedule (.atTime hs))

theorem NextSound.execSolution {s : State} {t round : Nat} {entries : List (Nat × Nat × Bool)} (hs : s.Sound P Q) :
    NextSound P Q (execSolution t round entries s) := by
  unfold Machine.execSolution
  dsimp only
  exact .finish (.ite (.sendDown (.atTime hs)) (.solutionTaken (.sendDown (.atTime hs))))

theorem NextSound.execOtaSolutionDone {s : State} {t : Nat} {psi : List (Nat × Nat)} {resid : Nat} (hs : s.Sound P Q) :
    NextSound P Q (execOtaSolutionDone t psi resid s) := by
  unfold Machine.execOtaSolutionDone
  exact .finish (.solved (.atTime hs))

theorem NextSound.execStale {s : State} {t landing : Nat} (hs : s.Sound P Q) : NextSound P Q (execStale t landing s) := by
  unfold Machine.execStale
  dsimp only
  exact .finish (.ite (.setOta (.atTime hs) fun x => { x with }) (.sendUp (.atTime hs)))

/-! ### Operations of Machine/Recovery.lean -/

theorem NextSound.execReplayDone {s : State} {t cls inst : Nat} (hs : s.Sound P Q) : NextSound P Q (execReplayDone t cls inst s) := by
  unfold Machine.execReplayDone
  exact .finish (.replayDone (.atTime hs))

theorem NextSound.execHallFault {s : State} {t : Nat} {tile : Fin 144} {carriers : Nat} (hs : s.Sound P Q) :
    NextSound P Q (execHallFault t tile carriers s) := by
  unfold Machine.execHallFault
  exact .finish (.hallFault (.atTime hs))

theorem NextSound.execPipeFault {s : State} {t : Nat} {p : Fin 64} (hs : s.Sound P Q) : NextSound P Q (execPipeFault t p s) := by
  unfold Machine.execPipeFault
  exact .finish (.pipeFault (.atTime hs))

theorem NextSound.execBeamFault {s : State} {t : Nat} (hs : s.Sound P Q) : NextSound P Q (execBeamFault t s) := by
  unfold Machine.execBeamFault
  dsimp only
  exact .finish (.inPlace (.atTime hs))

theorem NextSound.execAtriumFault {s : State} {t carriers : Nat} (hs : s.Sound P Q) : NextSound P Q (execAtriumFault t carriers s) := by
  unfold Machine.execAtriumFault
  exact .finish (.inPlace (.atTime hs))

theorem NextSound.execBankUncorrectable {s : State} {t : Nat} {bank : Fin 768} {word carriers : Nat} {held : List (Nat × Nat × Nat)}
    (hs : s.Sound P Q) : NextSound P Q (execBankUncorrectable t bank word carriers held s) := by
  unfold Machine.execBankUncorrectable
  exact .finish (.wordLost (.atTime hs))

theorem NextSound.execScrubPass {s : State} {t : Nat} {bank : Fin 768} {corrected : Nat} {bad : Option Nat} (hs : s.Sound P Q) :
    NextSound P Q (execScrubPass t bank corrected bad s) := by
  unfold Machine.execScrubPass
  exact .finish (.scrubbed (.atTime hs))

theorem NextSound.execCorridorCrcError {s : State} {t : Nat} {h : Fin 136} {persistent : Bool} (hs : s.Sound P Q) :
    NextSound P Q (execCorridorCrcError t h persistent s) := by
  unfold Machine.execCorridorCrcError
  dsimp only
  exact .finish (.ite (.wedge (.setRecov (.atTime hs) fun x => { x with })) (.setRecov (.atTime hs) fun x => { x with }))

/-! ### Operations of Machine/Clock.lean -/

theorem NextSound.execRefclkLoss {s : State} {t : Nat} (hs : s.Sound P Q) : NextSound P Q (execRefclkLoss t s) := by
  unfold Machine.execRefclkLoss
  exact .finish (.refLost (.atTime hs))

theorem NextSound.execRefHoldoverLimit {s : State} {t : Nat} (hs : s.Sound P Q) : NextSound P Q (execRefHoldoverLimit t s) := by
  unfold Machine.execRefHoldoverLimit
  exact .finish (.refLimit (.atTime hs))

theorem NextSound.execRefclkAccept {s : State} {t hz us : Nat} (hs : s.Sound P Q) : NextSound P Q (execRefclkAccept t hz us s) := by
  unfold Machine.execRefclkAccept
  exact .finish (.refAccept (.atTime hs))

theorem NextSound.execRefPullEnd {s : State} {t : Nat} (hs : s.Sound P Q) : NextSound P Q (execRefPullEnd t s) := by
  unfold Machine.execRefPullEnd
  dsimp only
  exact .finish (.ite (.setClock (.put (.atTime hs)) fun x => { x with }) (.atTime hs))

theorem NextSound.execSourceLoss {s : State} {t : Nat} (hs : s.Sound P Q) : NextSound P Q (execSourceLoss t s) := by
  unfold Machine.execSourceLoss
  dsimp only
  exact .finish (.chooseSource (by
      split
      · exact .setFh (.atTime hs) fun x => { x with masters := by simpa using x.masters }
      · exact .atTime hs))

theorem NextSound.execPtpMessage {s : State} {t : Nat} {n : Fin 8} {domain : Nat} {body : PtpBody} (hs : s.Sound P Q) :
    NextSound P Q (execPtpMessage t n domain body s) := by
  unfold Machine.execPtpMessage
  exact .finish (.ptpArrived (.atTime hs))

theorem NextSound.execSyncInEdge {s : State} {t : Nat} (hs : s.Sound P Q) : NextSound P Q (execSyncInEdge t s) := by
  unfold Machine.execSyncInEdge
  exact .finish (.syncEdge (.atTime hs))

theorem NextSound.execAlign {s : State} {t : Nat} {ch : Channel} (hs : s.Sound P Q) : NextSound P Q (execAlign t ch s) := by
  unfold Machine.execAlign
  exact .finish (.hostCmd hs (fun _ h1 => .alignNext h1))

theorem NextSound.execCnvHandover {s : State} {t : Nat} (hs : s.Sound P Q) : NextSound P Q (execCnvHandover t s) := by
  unfold Machine.execCnvHandover
  exact .finish (.cnvHandover (.atTime hs))

theorem NextSound.execCnvStop {s : State} {t : Nat} (hs : s.Sound P Q) : NextSound P Q (execCnvStop t s) := by
  unfold Machine.execCnvStop
  dsimp only
  exact .finish (.ite (.atTime hs) (.cnvStops (.atTime hs)))

theorem NextSound.execCnvStandbyTracking {s : State} {t : Nat} {diff : Int} (hs : s.Sound P Q) :
    NextSound P Q (execCnvStandbyTracking t diff s) := by
  unfold Machine.execCnvStandbyTracking
  exact .finish (.cnvTracking (.atTime hs))

theorem NextSound.execSynthLockLoss {s : State} {t : Nat} {island : Fin 8} (hs : s.Sound P Q) : NextSound P Q (execSynthLockLoss t island s) := by
  unfold Machine.execSynthLockLoss
  exact .finish (.synthLost (.atTime hs))

theorem NextSound.execSynthLockDeclared {s : State} {t : Nat} {island : Fin 8} {unit : Fin 2} (hs : s.Sound P Q) :
    NextSound P Q (execSynthLockDeclared t island unit s) := by
  unfold Machine.execSynthLockDeclared
  exact .finish (.synthLocked (.atTime hs))

theorem NextSound.execSynthAttemptTimeout {s : State} {t : Nat} {island : Fin 8} {unit : Fin 2} (hs : s.Sound P Q) :
    NextSound P Q (execSynthAttemptTimeout t island unit s) := by
  unfold Machine.execSynthAttemptTimeout
  exact .finish (.synthTimeout (.atTime hs))

theorem NextSound.execXfeedMeasure {s : State} {t : Nat} {delta : Int} (hs : s.Sound P Q) : NextSound P Q (execXfeedMeasure t delta s) := by
  unfold Machine.execXfeedMeasure
  exact .finish (.xfeedMeasured (.atTime hs))

theorem NextSound.execDitherForceWrite {s : State} {t : Nat} {ch : Channel} {value : Word} (hs : s.Sound P Q) :
    NextSound P Q (execDitherForceWrite t ch value s) := by
  unfold Machine.execDitherForceWrite
  exact .finish (.hostCmd hs (fun _ h1 => .ditherWrite h1))

/-! ### Operations of Machine/Planner.lean -/

theorem NextSound.execSpeedMeasure {s : State} {t : Nat} {readings : List Nat} (hs : s.Sound P Q) :
    NextSound P Q (execSpeedMeasure t readings s) := by
  unfold Machine.execSpeedMeasure
  exact .finish (.speedMeasured (.atTime hs))

theorem NextSound.execSpeedMiss {s : State} {t : Nat} (hs : s.Sound P Q) : NextSound P Q (execSpeedMiss t s) := by
  unfold Machine.execSpeedMiss
  exact .finish (.speedMissed (.atTime hs))

theorem NextSound.execEnergyUpdate {s : State} {t core nonCore : Nat} (hs : s.Sound P Q) : NextSound P Q (execEnergyUpdate t core nonCore s) := by
  unfold Machine.execEnergyUpdate
  exact .finish (.energyUpdated (.atTime hs))

theorem NextSound.execPmbusReadback {s : State} {t : Nat} {mv : Option Nat} (hs : s.Sound P Q) : NextSound P Q (execPmbusReadback t mv s) := by
  unfold Machine.execPmbusReadback
  exact .finish (.readback (.atTime hs))

theorem NextSound.execPmAlert {s : State} {t : Nat} {status : Option Nat} (hs : s.Sound P Q) : NextSound P Q (execPmAlert t status s) := by
  unfold Machine.execPmAlert
  exact .finish (.pmAlerted (.atTime hs))

theorem NextSound.execPlanningSlotBoundary {s : State} {t : Nat} {ok : Bool} (hs : s.Sound P Q) :
    NextSound P Q (execPlanningSlotBoundary t ok s) := by
  unfold Machine.execPlanningSlotBoundary
  exact .finish (.planningBoundary (.atTime hs))

/-! ### Operations of Machine/PowerStates.lean -/

theorem NextSound.execCarrierStop [Fact (Symbolless Q)] {s : State} {t : Nat} {c : LastSymbol} (hs : s.Sound P Q) :
    NextSound P Q (execCarrierStop t c s) := by
  unfold Machine.execCarrierStop
  dsimp only
  exact .finish (.ite (.carrierStop (.atTime hs)) (.entryStopped (.carrierStop (.atTime hs))))

theorem NextSound.execEnterIdle {s : State} {t : Nat} {ch : Channel} {asserted : Nat} (hs : s.Sound P Q) :
    NextSound P Q (execEnterIdle t ch asserted s) := by
  unfold Machine.execEnterIdle
  exact .finish (.hostCmd hs (fun _ h1 => .powerRequest h1))

theorem NextSound.execEnterDoze {s : State} {t : Nat} {ch : Channel} {asserted : Nat} (hs : s.Sound P Q) :
    NextSound P Q (execEnterDoze t ch asserted s) := by
  unfold Machine.execEnterDoze
  exact .finish (.hostCmd hs (fun _ h1 => .powerRequest h1))

theorem NextSound.execEnterDeep {s : State} {t : Nat} {ch : Channel} {asserted : Nat} (hs : s.Sound P Q) :
    NextSound P Q (execEnterDeep t ch asserted s) := by
  unfold Machine.execEnterDeep
  exact .finish (.hostCmd hs (fun _ h1 => .powerRequest h1))

theorem NextSound.execPowerStateEntered {s : State} {t : Nat} (hs : s.Sound P Q) : NextSound P Q (execPowerStateEntered t s) := by
  unfold Machine.execPowerStateEntered
  exact .finish (.stateEntered (.atTime hs))

theorem NextSound.execWakeSource {s : State} {t : Nat} {src : Fin 7} (hs : s.Sound P Q) : NextSound P Q (execWakeSource t src s) := by
  unfold Machine.execWakeSource
  exact .finish (.wakeSource (.atTime hs))

theorem NextSound.execWakePatternDetect {s : State} {t : Nat} {port : Fin 4} {pattern : Bool} (hs : s.Sound P Q) :
    NextSound P Q (execWakePatternDetect t port pattern s) := by
  unfold Machine.execWakePatternDetect
  dsimp only
  exact .finish (.ite (.atTime hs) (.ite (.wakeSource (.ite (.atTime hs) (.wakeSource (.atTime hs)))) (.ite (.atTime hs) (.wakeSource (.atTime hs)))))

theorem NextSound.execWakeStepTimeout {s : State} {t : Nat} {step : Fin 2} {unit : Nat} (hs : s.Sound P Q) :
    NextSound P Q (execWakeStepTimeout t step unit s) := by
  unfold Machine.execWakeStepTimeout
  exact .finish (.wakeTimeout (.atTime hs))

theorem NextSound.execWakeDone {s : State} {t : Nat} {failed : List Nat} {sets : List (Nat × Nat)} (hs : s.Sound P Q) :
    NextSound P Q (execWakeDone t failed sets s) := by
  unfold Machine.execWakeDone
  exact .finish (.wakeDone (.atTime hs))

theorem NextSound.execRetRelease {s : State} {t : Nat} {ch : Channel} {value : Word} (hs : s.Sound P Q) :
    NextSound P Q (execRetRelease t ch value s) := by
  unfold Machine.execRetRelease
  exact .finish (.hostCmd hs (fun _ h1 => .retReleased h1))

/-! ### Operations of Machine/Keep.lean -/

theorem NextSound.execLogPageProgram {s : State} {t : Nat} (hs : s.Sound P Q) : NextSound P Q (execLogPageProgram t s) := by
  unfold Machine.execLogPageProgram
  exact .finish (.logPage (.atTime hs))

theorem NextSound.execKeepRead {s : State} {t : Nat} {ch : Channel} (hs : s.Sound P Q) : NextSound P Q (execKeepRead t ch s) := by
  unfold Machine.execKeepRead
  exact .finish (.keepAsk hs)

theorem NextSound.execProgram {s : State} {t : Nat} {ch : Channel} (hs : s.Sound P Q) : NextSound P Q (execProgram t ch s) := by
  unfold Machine.execProgram
  exact .finish (.keepAsk hs)

theorem NextSound.execKeepBegin {s : State} {t : Nat} {ch : Channel} (hs : s.Sound P Q) : NextSound P Q (execKeepBegin t ch s) := by
  unfold Machine.execKeepBegin
  exact .finish (.keepAsk hs)

theorem NextSound.execKeepCommit {s : State} {t : Nat} {ch : Channel} (hs : s.Sound P Q) : NextSound P Q (execKeepCommit t ch s) := by
  unfold Machine.execKeepCommit
  exact .finish (.keepAsk hs)

theorem NextSound.execAbortUpdate {s : State} {t : Nat} {ch : Channel} (hs : s.Sound P Q) : NextSound P Q (execAbortUpdate t ch s) := by
  unfold Machine.execAbortUpdate
  exact .finish (.keepAsk hs)

theorem NextSound.execEraseSlot {s : State} {t : Nat} {ch : Channel} (hs : s.Sound P Q) : NextSound P Q (execEraseSlot t ch s) := by
  unfold Machine.execEraseSlot
  exact .finish (.keepAsk hs)

theorem NextSound.execCopy {s : State} {t : Nat} {ch : Channel} (hs : s.Sound P Q) : NextSound P Q (execCopy t ch s) := by
  unfold Machine.execCopy
  exact .finish (.keepAsk hs)

theorem NextSound.execKeepCmdDone {s : State} {t : Nat} (hs : s.Sound P Q) : NextSound P Q (execKeepCmdDone t s) := by
  unfold Machine.execKeepCmdDone
  exact .finish (.keepDone (.atTime hs))

/-! ### Operations of Machine/Security.lean -/

theorem NextSound.execOtpProgram {s : State} {t : Nat} {ch : Channel} (hs : s.Sound P Q) : NextSound P Q (execOtpProgram t ch s) := by
  unfold Machine.execOtpProgram
  exact .finish (.secAsk hs)

theorem NextSound.execNonce {s : State} {t : Nat} {ch : Channel} (hs : s.Sound P Q) : NextSound P Q (execNonce t ch s) := by
  unfold Machine.execNonce
  exact .finish (.secAsk hs)

theorem NextSound.execUnlock {s : State} {t : Nat} {ch : Channel} (hs : s.Sound P Q) : NextSound P Q (execUnlock t ch s) := by
  unfold Machine.execUnlock
  exact .finish (.secAsk hs)

theorem NextSound.execSxmKeyStore {s : State} {t : Nat} {ch : Channel} {slot : Fin 4} (hs : s.Sound P Q) :
    NextSound P Q (execSxmKeyStore t ch slot s) := by
  unfold Machine.execSxmKeyStore
  exact .finish (.secAsk hs)

theorem NextSound.execSxmKeyClear {s : State} {t : Nat} {ch : Channel} {slot : Fin 4} (hs : s.Sound P Q) :
    NextSound P Q (execSxmKeyClear t ch slot s) := by
  unfold Machine.execSxmKeyClear
  exact .finish (.secAsk hs)

theorem NextSound.execSecurityCmdDone {s : State} {t : Nat} (hs : s.Sound P Q) : NextSound P Q (execSecurityCmdDone t s) := by
  unfold Machine.execSecurityCmdDone
  exact .finish (.secDone (.atTime hs))

/-! ### Operations of Machine/Image.lean -/

theorem NextSound.execLoad {s : State} {t : Nat} {ch : Channel} (hs : s.Sound P Q) : NextSound P Q (execLoad t ch s) := by
  unfold Machine.execLoad
  exact .finish (.imageAsk hs)

theorem NextSound.execVerify {s : State} {t : Nat} {ch : Channel} (hs : s.Sound P Q) : NextSound P Q (execVerify t ch s) := by
  unfold Machine.execVerify
  exact .finish (.imageAsk hs)

theorem NextSound.execConfirm {s : State} {t : Nat} {ch : Channel} (hs : s.Sound P Q) : NextSound P Q (execConfirm t ch s) := by
  unfold Machine.execConfirm
  exact .finish (.imageAsk hs)

theorem NextSound.execRaiseFloor {s : State} {t : Nat} {ch : Channel} (hs : s.Sound P Q) : NextSound P Q (execRaiseFloor t ch s) := by
  unfold Machine.execRaiseFloor
  exact .finish (.imageAsk hs)

theorem NextSound.execPrefer {s : State} {t : Nat} {ch : Channel} {slot : Fin 2} (hs : s.Sound P Q) : NextSound P Q (execPrefer t ch slot s) := by
  unfold Machine.execPrefer
  exact .finish (.imageAsk hs)

theorem NextSound.execTryCmd {s : State} {t : Nat} {ch : Channel} {slot : Fin 2} (hs : s.Sound P Q) : NextSound P Q (execTryCmd t ch slot s) := by
  unfold Machine.execTryCmd
  exact .finish (.imageAsk hs)

theorem NextSound.execLock {s : State} {t : Nat} {ch : Channel} (hs : s.Sound P Q) : NextSound P Q (execLock t ch s) := by
  unfold Machine.execLock
  exact .finish (.imageAsk hs)

theorem NextSound.execVerifyDone {s : State} {t : Nat} (hs : s.Sound P Q) : NextSound P Q (execVerifyDone t s) := by
  unfold Machine.execVerifyDone
  exact .finish (.verifyOver (.atTime hs))

theorem NextSound.execLoadInstall [Fact (Symbolless Q)] {s : State} {t : Nat} (hs : s.Sound P Q) : NextSound P Q (execLoadInstall t s) := by
  unfold Machine.execLoadInstall
  exact .finish (.loadInstall (.atTime hs))

theorem NextSound.execSlotRecordUpdateDone {s : State} {t : Nat} (hs : s.Sound P Q) : NextSound P Q (execSlotRecordUpdateDone t s) := by
  unfold Machine.execSlotRecordUpdateDone
  exact .finish (.slotUpdated (.atTime hs))

/-! ### Operations of Machine/Boot.lean -/

theorem NextSound.execPinReset [Fact (Symbolless Q)] {s : State} {t ns : Nat} (hs : s.Sound P Q) : NextSound P Q (execPinReset t ns s) := by
  unfold Machine.execPinReset
  exact .finish (.pinLow (.atTime hs))

theorem NextSound.execResetNRelease {s : State} {t : Nat} {devId : BitVec 9} {failed : List (Nat × Nat)} (hs : s.Sound P Q) :
    NextSound P Q (execResetNRelease t devId failed s) := by
  unfold Machine.execResetNRelease
  exact .finish (.pinHigh (.atTime hs))

theorem NextSound.execFullReset [Fact (Symbolless Q)] {s : State} {t : Nat} {source : Fin 6} {ch : Channel} {failed : List (Nat × Nat)} (hs : s.Sound P Q) :
    NextSound P Q (execFullReset t source ch failed s) := by
  unfold Machine.execFullReset
  dsimp only
  exact .finish (.ite (.atTime hs) (.ite (.pinHigh (.pinLow (.atTime hs))) (.fullReset (.atTime hs))))

theorem NextSound.execPowerGoodFall [Fact (Symbolless Q)] {s : State} {t : Nat} {n : Fin 4} {ns : Nat} (hs : s.Sound P Q) :
    NextSound P Q (execPowerGoodFall t n ns s) := by
  unfold Machine.execPowerGoodFall
  exact .finish (.pgFall (.atTime hs))

theorem NextSound.execHostReset [Fact (Symbolless Q)] {s : State} {t : Nat} {ch : Channel} {value : Word} {failed : List (Nat × Nat)} (hs : s.Sound P Q) :
    NextSound P Q (execHostReset t ch value failed s) := by
  unfold Machine.execHostReset
  exact .finish (.hostCmd hs (fun _ h1 => .hostReset h1))

theorem NextSound.execPowerGoodRise {s : State} {t : Nat} {n : Fin 4} {failed : List (Nat × Nat)} (hs : s.Sound P Q) :
    NextSound P Q (execPowerGoodRise t n failed s) := by
  unfold Machine.execPowerGoodRise
  exact .finish (.pgRise (.atTime hs))

theorem NextSound.execBootStepTimeout [Fact (Symbolless Q)] {s : State} {t step unit : Nat} (hs : s.Sound P Q) :
    NextSound P Q (execBootStepTimeout t step unit s) := by
  unfold Machine.execBootStepTimeout
  exact .finish (.bootTimeout (.atTime hs))

theorem NextSound.execBootReady {s : State} {t : Nat} {passed : List (Fin 64 × List CalResult)} {failed : List (Fin 64 × Nat × Nat × Nat)}
    (hs : s.Sound P Q) : NextSound P Q (execBootReady t passed failed s) := by
  unfold Machine.execBootReady
  exact .finish (.bootReady (.atTime hs))

/-! ### Operations of Machine/Thermal.lean -/

theorem NextSound.execHkRoundEnd [Fact (Symbolless Q)] {s : State} {t : Nat} {zero check : Int} {ref : Nat} (hs : s.Sound P Q) :
    NextSound P Q (execHkRoundEnd t zero check ref s) := by
  unfold Machine.execHkRoundEnd
  exact .finish (.roundEnd (.atTime hs))

/-! ### Operations of Machine/Host.lean -/

theorem NextSound.execRegisterWrite [Fact (Symbolless Q)] {s : State} {t : Nat} {ch : Channel} {addr value : Word} (hs : s.Sound P Q) :
    NextSound P Q (execRegisterWrite t ch addr value s) := by
  unfold Machine.execRegisterWrite
  exact .finish (.registerWrite hs)

theorem NextSound.execLowHalfRead {s : State} {t : Nat} {ch : Channel} {addr : Word} (hs : s.Sound P Q) :
    NextSound P Q (execLowHalfRead t ch addr s) := by
  unfold Machine.execLowHalfRead
  exact .finish (.hostCmd hs (fun _ h1 => .when h1 (fun _ h2 => .readOut (.readLow h2))))

theorem NextSound.execHighHalfRead {s : State} {t : Nat} {ch : Channel} {addr : Word} (hs : s.Sound P Q) :
    NextSound P Q (execHighHalfRead t ch addr s) := by
  unfold Machine.execHighHalfRead
  exact .finish (.hostCmd hs (fun _ h1 => .when h1 (fun _ h2 => .readOut (.readHigh h2))))

theorem NextSound.execHighHalfWrite {s : State} {t : Nat} {ch : Channel} {addr value : Word} (hs : s.Sound P Q) :
    NextSound P Q (execHighHalfWrite t ch addr value s) := by
  unfold Machine.execHighHalfWrite
  exact .finish (.hostCmd hs (fun _ h1 => .highWrite h1))

theorem NextSound.execLowHalfWrite {s : State} {t : Nat} {ch : Channel} {addr value : Word} (hs : s.Sound P Q) :
    NextSound P Q (execLowHalfWrite t ch addr value s) := by
  unfold Machine.execLowHalfWrite
  exact .finish (.hostCmd hs (fun _ h1 => .lowWrite h1))

theorem NextSound.execWindowWrite {s : State} {t : Nat} {ch : Channel} {addr value : Word} (hs : s.Sound P Q) :
    NextSound P Q (execWindowWrite t ch addr value s) := by
  unfold Machine.execWindowWrite
  exact .finish (.hostCmd hs (fun _ h1 => .when h1 (fun _ h2 => .windowWord h2)))

theorem NextSound.execSxmCtlWrite {s : State} {t : Nat} {ch : Channel} {value : Word} (hs : s.Sound P Q) :
    NextSound P Q (execSxmCtlWrite t ch value s) := by
  unfold Machine.execSxmCtlWrite
  exact .finish (.hostCmd hs (fun _ h1 => .blockWrite h1))

theorem NextSound.execRead [Fact (Symbolless Q)] {s : State} {t : Nat} {f : VestFrame} (hs : s.Sound P Q) : NextSound P Q (execRead t f s) := by
  unfold Machine.execRead
  exact .finish (.vestFrame (.atTime hs))

theorem NextSound.execWrite [Fact (Symbolless Q)] {s : State} {t : Nat} {f : VestFrame} (hs : s.Sound P Q) : NextSound P Q (execWrite t f s) := by
  unfold Machine.execWrite
  exact .finish (.vestFrame (.atTime hs))

theorem NextSound.execReadBurst [Fact (Symbolless Q)] {s : State} {t : Nat} {f : VestFrame} (hs : s.Sound P Q) :
    NextSound P Q (execReadBurst t f s) := by
  unfold Machine.execReadBurst
  exact .finish (.vestFrame (.atTime hs))

theorem NextSound.execVestFrameTimeout {s : State} {t : Nat} (hs : s.Sound P Q) : NextSound P Q (execVestFrameTimeout t s) := by
  unfold Machine.execVestFrameTimeout
  dsimp only
  exact .finish (.when (.atTime hs) (fun _ h1 => .bump h1))

theorem NextSound.execUplaneSection {s : State} {t : Nat} {n : Fin 64} {eaxc : Nat} {u : USection} (hs : s.Sound P Q) :
    NextSound P Q (execUplaneSection t n eaxc u s) := by
  unfold Machine.execUplaneSection
  exact .finish (.uplane (.atTime hs))

/-! ### Operations of Machine/Sxm.lean -/

theorem NextSound.execSxmHello [Fact (Symbolless Q)] {s : State} {t : Nat} {src : Source} {msg : List Byte} (hs : s.Sound P Q) :
    NextSound P Q (execSxmHello t src msg s) := by
  unfold Machine.execSxmHello
  exact .finish (.sxmMessageIn (.atTime hs))

theorem NextSound.execRequest [Fact (Symbolless Q)] {s : State} {t : Nat} {src : Source} {msg : List Byte} (hs : s.Sound P Q) :
    NextSound P Q (execRequest t src msg s) := by
  unfold Machine.execRequest
  exact .finish (.sxmMessageIn (.atTime hs))

theorem NextSound.execClose [Fact (Symbolless Q)] {s : State} {t : Nat} {src : Source} {msg : List Byte} (hs : s.Sound P Q) :
    NextSound P Q (execClose t src msg s) := by
  unfold Machine.execClose
  exact .finish (.sxmMessageIn (.atTime hs))

theorem NextSound.execSxmIdleTimeout {s : State} {t : Nat} {n : Fin 8} (hs : s.Sound P Q) : NextSound P Q (execSxmIdleTimeout t n s) := by
  unfold Machine.execSxmIdleTimeout
  dsimp only
  exact .finish (by
      split
      · exact .when (.atTime hs) (fun _ h2 => .endSession h2)
      · exact .atTime hs)

theorem NextSound.execNotify {s : State} {t : Nat} {n : Fin 8} (hs : s.Sound P Q) : NextSound P Q (execNotify t n s) := by
  unfold Machine.execNotify
  exact .finish (.sendNotify (.atTime hs))

/-! ### Operations of Machine/Dispatch.lean -/

theorem NextSound.exec [Fact (Symbolless Q)] {s : State} {i : Instr} (hs : s.Sound P Q) : NextSound P Q (exec i s) := by
  unfold Machine.exec
  split
  · exact .execRegisterWrite hs
  · exact .execLowHalfRead hs
  · exact .execHighHalfRead hs
  · exact .execHighHalfWrite hs
  · exact .execLowHalfWrite hs
  · exact .execWindowWrite hs
  · exact .execRead hs
  · exact .execWrite hs
  · exact .execReadBurst hs
  · exact .execVestFrameTimeout hs
  · exact .execSxmHello hs
  · exact .execRequest hs
  · exact .execClose hs
  · exact .execSxmIdleTimeout hs
  · exact .execSxmCtlWrite hs
  · exact .execNotify hs
  · exact .execKeepRead hs
  · exact .execProgram hs
  · exact .execKeepBegin hs
  · exact .execKeepCommit hs
  · exact .execAbortUpdate hs
  · exact .execEraseSlot hs
  · exact .execCopy hs
  · exact .execKeepCmdDone hs
  · exact .execLogPageProgram hs
  · exact .execOtpProgram hs
  · exact .execNonce hs
  · exact .execUnlock hs
  · exact .execSxmKeyStore hs
  · exact .execSxmKeyClear hs
  · exact .execSecurityCmdDone hs
  · exact .execLoad hs
  · exact .execLoadInstall hs
  · exact .execVerify hs
  · exact .execVerifyDone hs
  · exact .execConfirm hs
  · exact .execRaiseFloor hs
  · exact .execPrefer hs
  · exact .execTryCmd hs
  · exact .execLock hs
  · exact .execSlotRecordUpdateDone hs
  · exact .execFullReset hs
  · exact .execBootReady hs
  · exact .execPinReset hs
  · exact .execPowerGoodFall hs
  · exact .execHostReset hs
  · exact .execBootStepTimeout hs
  · exact .execResetNRelease hs
  · exact .execPowerGoodRise hs
  · exact .execDcBlockUpdate hs
  · exact .execIqWindowEnd hs
  · exact .execBlankRise hs
  · exact .execBlankFall hs
  · exact .execPathRetire hs
  · exact .execPathFault hs
  · exact .execFemScript hs
  · exact .execFemInitTimeout hs
  · exact .execLoBiasDone hs
  · exact .execLoBandDone hs
  · exact .execLoLockDeclared hs
  · exact .execLoAcquireTimeout hs
  · exact .execLoSettleDone hs
  · exact .execLoLockLoss hs
  · exact .execLoHandback hs
  · exact .execLoRelock hs
  · exact .execRxDc hs
  · exact .execRxIq hs
  · exact .execTxLol hs
  · exact .execTxIq hs
  · exact .execObs hs
  · exact .execAll hs
  · exact .execCalCancel hs
  · exact .execCalStart hs
  · exact .execCalDone hs
  · exact .execCalLostMidway hs
  · exact .execObsAttempt hs
  · exact .execObsCaptureDone hs
  · exact .execObsHostReq hs
  · exact .execObsRelearn hs
  · exact .execDpdRoundEnd hs
  · exact .execDpdFitDone hs
  · exact .execDpdVerifyEnd hs
  · exact .execDpdDiscard hs
  · exact .execDpdModeWrite hs
  · exact .execSymbolBoundary hs
  · exact .execReleaseTime hs
  · exact .execDownlinkDeadline hs
  · exact .execCarrierStart hs
  · exact .execCarrierStop hs
  · exact .execCapArm hs
  · exact .execCapCancel hs
  · exact .execCapTrigger hs
  · exact .execCapEnd hs
  · exact .execPrachOccasion hs
  · exact .execSolverEpochStart hs
  · exact .execSolverEpochDone hs
  · exact .execNop hs
  · exact .execJmp hs
  · exact .execCall hs
  · exact .execRet hs
  · exact .execLoop hs
  · exact .execWaite hs
  · exact .execRete hs
  · exact .execEvmask hs
  · exact .execSig hs
  · exact .execAddi hs
  · exact .execLui hs
  · exact .execOri hs
  · exact .execAdd hs
  · exact .execSub hs
  · exact .execHallAnd hs
  · exact .execHallOr hs
  · exact .execHallXor hs
  · exact .execShl hs
  · exact .execShra hs
  · exact .execShrl hs
  · exact .execCmp hs
  · exact .execGets hs
  · exact .execPuts hs
  · exact .execLdv hs
  · exact .execLdb hs
  · exact .execLdl hs
  · exact .execStv hs
  · exact .execStl hs
  · exact .execLdw hs
  · exact .execStw hs
  · exact .execSend hs
  · exact .execFetch hs
  · exact .execCmul hs
  · exact .execCmac hs
  · exact .execCmsc hs
  · exact .execRmac hs
  · exact .execVadd hs
  · exact .execVsub hs
  · exact .execVshr hs
  · exact .execVshl hs
  · exact .execVmov hs
  · exact .execClra hs
  · exact .execExtr hs
  · exact .execRsum hs
  · exact .execHallExp hs
  · exact .execNorm hs
  · exact .execClrf hs
  · exact .execEventAccept hs
  · exact .execMboxInWrite hs
  · exact .execDmDataAccess hs
  · exact .execFlitArrival hs
  · exact .execFetchResult hs
  · exact .execHallTimer hs
  · exact .execDoorbell hs
  · exact .execRouteFlitRelease hs
  · exact .execPortSignalDetect hs
  · exact .execPortTrainDone hs
  · exact .execPortAlignDone hs
  · exact .execPortTrainTimeout hs
  · exact .execPortRetry hs
  · exact .execLinkFault hs
  · exact .execFlowReturnHome hs
  · exact .execUlStaleDiscard hs
  · exact .execFrameReceive hs
  · exact .execCplaneMessage hs
  · exact .execGapSkip hs
  · exact .execUplaneSection hs
  · exact .execDelayMeasurement hs
  · exact .execPtpMessage hs
  · exact .execArpRequest hs
  · exact .execNeighbourSolicitation hs
  · exact .execEchoRequest hs
  · exact .execPtConfirm hs
  · exact .execFhAdaptCommit hs
  · exact .execInjOne hs
  · exact .execCheckerLock hs
  · exact .execCodewordReceive hs
  · exact .execCodewordResend hs
  · exact .execAckStall hs
  · exact .execDetectBurst hs
  · exact .execDetectBurstSend hs
  · exact .execEchoPhaseEnd hs
  · exact .execFarEqDone hs
  · exact .execFullDone hs
  · exact .execPortPhaseTimeout hs
  · exact .execHoldoffEnd hs
  · exact .execStairAdaptCommit hs
  · exact .execIdleRollback hs
  · exact .execLaneIdle hs
  · exact .execLaneFault hs
  · exact .execLaneRejoin hs
  · exact .execFlightFault hs
  · exact .execHelloSend hs
  · exact .execHelloTimeout hs
  · exact .execHello hs
  · exact .execPartialSum hs
  · exact .execChunkForward hs
  · exact .execSupplement hs
  · exact .execMissing hs
  · exact .execLayer hs
  · exact .execSections hs
  · exact .execFinished hs
  · exact .execTime hs
  · exact .execTimeMark hs
  · exact .execJoin hs
  · exact .execTree hs
  · exact .execTreeHeartbeat hs
  · exact .execTreeLost hs
  · exact .execReparent hs
  · exact .execReparentTimeout hs
  · exact .execResume hs
  · exact .execGram hs
  · exact .execInverse hs
  · exact .execSleep hs
  · exact .execWakePatternDetect hs
  · exact .execWakePatternSent hs
  · exact .execStairWake hs
  · exact .execStairRetrain hs
  · exact .execLaneTxfWrite hs
  · exact .execMaskWrite hs
  · exact .execOtaStart hs
  · exact .execOtaDiscard hs
  · exact .execOtaRoundTimer hs
  · exact .execSchedule hs
  · exact .execOtaWindow hs
  · exact .execOtaDetection hs
  · exact .execOtaCaptureDone hs
  · exact .execReport hs
  · exact .execMissed hs
  · exact .execOtaRetrySchedule hs
  · exact .execOtaSolutionDone hs
  · exact .execSolution hs
  · exact .execStale hs
  · exact .execOpenLocal hs
  · exact .execOpenArray hs
  · exact .execPrepare hs
  · exact .execAbort hs
  · exact .execRelease hs
  · exact .execTxnBind hs
  · exact .execLivePrepareDone hs
  · exact .execOpenReq hs
  · exact .execAnnounce hs
  · exact .execPrepareReq hs
  · exact .execPrepareMessage hs
  · exact .execVote hs
  · exact .execDecision hs
  · exact .execTxnDecisionTimeout hs
  · exact .execAbortReq hs
  · exact .execQuery hs
  · exact .execQueryRetry hs
  · exact .execHold hs
  · exact .execOutcomes hs
  · exact .execCommitLatch hs
  · exact .execInternalCheckpoint hs
  · exact .execHallFault hs
  · exact .execPipeFault hs
  · exact .execBeamFault hs
  · exact .execAtriumFault hs
  · exact .execScrubPass hs
  · exact .execBankUncorrectable hs
  · exact .execCorridorCrcError hs
  · exact .execReplayDone hs
  · exact .execRefclkLoss hs
  · exact .execRefHoldoverLimit hs
  · exact .execRefclkAccept hs
  · exact .execRefPullEnd hs
  · exact .execSourceLoss hs
  · exact .execSyncInEdge hs
  · exact .execAlign hs
  · exact .execSynthLockLoss hs
  · exact .execSynthLockDeclared hs
  · exact .execSynthAttemptTimeout hs
  · exact .execCnvHandover hs
  · exact .execCnvStop hs
  · exact .execCnvStandbyTracking hs
  · exact .execXfeedMeasure hs
  · exact .execDitherForceWrite hs
  · exact .execPlanningSlotBoundary hs
  · exact .execPmbusReadback hs
  · exact .execPmAlert hs
  · exact .execEnergyUpdate hs
  · exact .execSpeedMeasure hs
  · exact .execSpeedMiss hs
  · exact .execEnterIdle hs
  · exact .execEnterDoze hs
  · exact .execEnterDeep hs
  · exact .execPowerStateEntered hs
  · exact .execWakeSource hs
  · exact .execWakeStepTimeout hs
  · exact .execWakeDone hs
  · exact .execRetRelease hs
  · exact .execHkRoundStart hs
  · exact .execHkEntryDone hs
  · exact .execHkRoundEnd hs
  · exact .execHkInject hs
  · exact .execHkInjectDone hs
  · exact .execHkRefWrite hs
  · exact .execHkRefSettled hs
  · exact .execZero hs
  · exact .execSpan hs
  · exact .execSyscalCancel hs
  · exact .execSyscalCaptureDone hs
  · exact .execTrimReload hs
  · exact .execTrimWrite hs
  · exact .execTrimCopyDone hs
  · exact .execBandgapSettled hs
  · exact .execHkConversionTimeout hs

end Sound

/-! ### Steps -/

/-- A step that ends in a next state is idle or is the command at the front of the queue. -/
theorem step_eq_next {s t : State} (h : step s = .next t) :
    (s.pending = [] ∧ t = s) ∨ ∃ c rest, s.pending = c :: rest ∧ exec c { s with pending := rest } = .next t := by
  unfold step at h
  split at h
  next hnil => exact .inl ⟨hnil, (Host.Outcome.next.inj h).symm⟩
  next c rest hcons => exact .inr ⟨c, rest, hcons, h⟩

theorem State.Sound.step {P : Prop} {Q : Coll → Prop} [Fact (Symbolless Q)] [Fact (Timeless Q)] {s t : State} (hs : s.Sound P Q) (h : Machine.step s = .next t) :
    t.Sound P Q := by
  rcases step_eq_next h with ⟨-, rfl⟩ | ⟨c, rest, -, hexec⟩
  · exact hs
  · exact NextSound.exec hs.setPending t hexec

theorem finish_pinsTrue (s : State) : ∃ u, finish s = .next u ∧ u.pinsTrue := ⟨_, rfl, rfl, rfl⟩

/-- Every command ends with `finish`, which drives the pins. -/
theorem exec_pinsTrue (s : State) (c : Instr) : ∃ u, exec c s = .next u ∧ u.pinsTrue := by
  cases c <;> exact finish_pinsTrue _

/-! ### The statements -/

/-- Settles O1: both parts are the equations of `step`. -/
theorem stepRunsFrontCommand : Obligations.StepRunsFrontCommand := by
  refine ⟨fun _ _ _ => rfl, fun s hnil => ?_⟩
  rw [step, hnil]

/-- Settles O2: every command drives the pins as it ends, and an idle step changes nothing. -/
theorem pinsTellTruth : Obligations.PinsTellTruth := by
  refine ⟨exec_pinsTrue, fun s t hs h => ?_⟩
  rcases step_eq_next h with ⟨-, rfl⟩ | ⟨c, rest, -, hexec⟩
  · exact hs
  · obtain ⟨u, hu, hpins⟩ := exec_pinsTrue { s with pending := rest } c
    rw [hu] at hexec
    cases hexec
    exact hpins

/-- Settles O3: soundness with the stores as its first proposition. -/
theorem storesStayCanonical : Obligations.StoresStayCanonical := fun _ _ hs h =>
  have : Fact (Timeless fun _ => False) := ⟨timeless_false⟩
  have : Fact (Symbolless fun _ => False) := ⟨symbolless_false⟩
  State.sound_of_storesWf.1 ((State.sound_of_storesWf.2 hs).step h)

/-- Settles O4: soundness with the sizes as its second proposition. -/
theorem shapeIsKept : Obligations.ShapeIsKept := fun _ _ hs h =>
  have : Fact (Timeless Sizes) := ⟨timeless_sizes⟩
  have : Fact (Symbolless Sizes) := ⟨symbolless_sizes⟩
  State.sound_of_shaped.1 ((State.sound_of_shaped.2 hs).step h)

theorem State.reset_pinsTrue : State.reset.pinsTrue := ⟨by decide, by decide⟩

theorem State.storesWf_reset : State.reset.storesWf = true := by decide

theorem State.shaped_reset : State.reset.shaped = true := by decide +kernel

/-- Settles O5: the reset state is evaluated. -/
theorem resetIsSound : Obligations.ResetIsSound := ⟨State.reset_pinsTrue, State.storesWf_reset, State.shaped_reset, rfl, rfl⟩

end Sys2Proof.Machine
end

