-- ==== Sys2Proof/Proofs/AccessCodes.lean ====
section
/-!
What a write makes of a field, by the field's access code (R7).
-/

namespace Sys2Proof.Machine

open Sys2Proof

theorem getBits_and_lt (x : Word) (lo width n : Nat) : getBits x lo width &&& n < 2 ^ width :=
  lt_of_le_of_lt Nat.and_le_left (getBits_lt x lo width)

/-- Settles O6: a code either keeps the word or sets the field to a value that fits it. -/
theorem accessCodes : Obligations.AccessCodes := by
  intro locked v x f hfits
  have hset : ∀ n < 2 ^ f.width, getBits (setBits x f.lo f.width n) f.lo f.width = n := fun n hn => by
    rw [getBits_setBits_same x hfits, Nat.mod_eq_of_lt hn]
  have hapart : ∀ n l w, l + w ≤ f.lo ∨ f.lo + f.width ≤ l → getBits (setBits x f.lo f.width n) l w = getBits x l w :=
    fun n l w h => getBits_setBits_apart x hfits n h.symm
  unfold storeField
  cases f.access with
  | rw => exact ⟨hset _ (getBits_lt ..), hapart _⟩
  | rwl =>
    cases locked with
    | true => exact ⟨rfl, fun _ _ _ => rfl⟩
    | false => exact ⟨hset _ (getBits_lt ..), hapart _⟩
  | rw1c => exact ⟨hset _ (getBits_and_lt ..), hapart _⟩
  | ro | rc | wo | rws => exact ⟨rfl, fun _ _ _ => rfl⟩

end Sys2Proof.Machine
end

