-- ==== Sys2Proof/Proofs/Answers.lean ====
section
/-!
How a statement of what a command gives follows from the state that its meaning computes.
-/

namespace Sys2Proof.Machine

open Sys2Proof

@[simp] theorem State.when_false (s : State) (f : State → State) : s.when false f = s := rfl

@[simp] theorem State.power_atTime (s : State) (t : Nat) : (s.atTime t).power = s.power := rfl

/-- What a command gives may be stated in any equal form. -/
theorem Gives.of_eq {c : Instr} {s u v : State} (h : Gives c s v) (hv : v = u) : Gives c s u := hv ▸ h

/-- What no step of a `forEach` changes, the whole does not change. -/
theorem State.forEach_keeps {α β : Type} {f : α → State → State} (p : State → β) (hf : ∀ a s, p (f a s) = p s) (s : State) (l : List α) :
    p (s.forEach l f) = p s := by
  unfold State.forEach
  induction l generalizing s with
  | nil => rfl
  | cons a l ih => exact (ih _).trans (hf a s)

/-- A field at an address that a change spares reads as before. -/
theorem State.get_of_sameWords {s u : State} {l : List Nat} (h : SameWords s u l) {f : Fld} (hf : f.addr ∉ l) : u.get f = s.get f := by
  rw [State.get, State.get, h f.addr hf]

end Sys2Proof.Machine
end

