-- ==== Sys2Proof/Proofs/HostPorts.lean ====
section
/-!
SXM messages and timers (R662 to R668), and writes of shared memory (R93).
-/

namespace Sys2Proof.Machine

open Sys2Proof

/-! ### SXM timers -/

theorem gives_sxmIdleTimeout {s : State} {n : Fin 8} {x : Session} (hx : s.session n.val = some x) (t : Nat) :
    Gives (.sxmIdleTimeout t n) s ((s.atTime t).when (decide (x.lastAccept + s.sxmIdle ≤ max s.now t)) fun s => s.endSession n.val) := by
  refine Gives.of_eq rfl ?_
  rw [show (s.atTime t).session n.val = some x from hx]
  rfl

/-- NOTIFY sends what is due and clears its mark. -/
theorem State.sendNotify_of_due {s : State} {n : Nat} {x : Session} (hx : s.session n = some x) (hdue : x.notifyDue = true)
    (hlast : ∀ a, x.lastNotify = some a → a + ticksOfMs 1 ≤ s.now) :
    s.sendNotify n =
      (s.setSession n (some { x with notifyDue := false, lastNotify := some s.now, notifySeq := x.notifySeq + 1 })).emit
        (.sxm x.src (sxmMessage x.ks sxmTypeNotify (n + 1) (x.notifySeq + 1) s.notifyBody)) := by
  unfold State.sendNotify
  cases hl : x.lastNotify with
  | none => simp [hx, hdue, hl]
  | some a => simp [hx, hdue, hl, Nat.not_lt.2 (hlast a hl)]

theorem State.sendNotify_of_not_due {s : State} {n : Nat} {x : Session} (hx : s.session n = some x) (hdue : x.notifyDue = false) :
    s.sendNotify n = s := by
  simp [State.sendNotify, hx, hdue]

/-- A session takes the place of another. -/
theorem State.session_setSession_same {s : State} {n : Nat} {y : Session} (hy : s.session n = some y) (x : Option Session) :
    (s.setSession n x).session n = x := by
  have hn : n < s.sessions.length := by
    by_contra hge
    rw [State.session, List.getD_eq_default _ _ (Nat.le_of_not_lt hge)] at hy
    cases hy
  simp [State.session, State.setSession, hn]

theorem gives_sxmCtlWrite {s : State} {t : Nat} {ch : Channel} (hr : s.reaches t ch Reg.HOST.SXM_CTL.word.addr) (v : Word) :
    Gives (.sxmCtlWrite t ch v) s (((s.atTime t).storeWord Reg.HOST.SXM_CTL.word.addr v).idleSessions) :=
  gives_hostCmd (f := fun s => s.blockWrite (some ch.val) Reg.HOST.SXM_CTL.word.addr v) hr rfl

/-- Settles O7: each timer acts on the session where its time has come. -/
theorem sxmTimers : Obligations.SxmTimers := by
  intro s t n x hx
  refine ⟨fun h => ?_, fun h => ?_, fun hdue hlast => ?_, fun hdue => ?_, fun ch v hr => gives_sxmCtlWrite hr v⟩
  · exact (gives_sxmIdleTimeout hx t).of_eq (by rw [decide_eq_true h, State.when_true])
  · exact (gives_sxmIdleTimeout hx t).of_eq (by rw [decide_eq_false (Nat.not_le.2 h), State.when_false])
  · have hx' : (s.atTime t).session n.val = some x := hx
    exact ⟨_, Gives.of_eq rfl (State.sendNotify_of_due hx' hdue hlast), State.session_setSession_same hx' _, rfl, rfl⟩
  · exact Gives.of_eq rfl (State.sendNotify_of_not_due hx hdue)

/-! ### SXM messages -/

/-- An SXM message of any kind acts by its own words. -/
theorem gives_sxmMessage {s : State} {t : Nat} {src : Source} {m : List Byte} {i : Instr}
    (hi : i ∈ [Instr.sxmHello t src m, Instr.request t src m, Instr.close t src m]) : Gives i s ((s.atTime t).sxmMessageIn src m) := by
  simp only [List.mem_cons, List.not_mem_nil, or_false] at hi
  rcases hi with rfl | rfl | rfl <;> rfl

section Message

variable {s : State} {src : Source} {m : List Byte}

theorem State.sxmMessageIn_of_not_heard (h : s.sxmHears src = false) : s.sxmMessageIn src m = s := by
  simp [State.sxmMessageIn, h]

theorem State.sxmMessageIn_of_not_formed (hs : s.sxmHears src = true) (h : sxmFormed m = false) : s.sxmMessageIn src m = s.dropAuth := by
  simp [State.sxmMessageIn, hs, h]

theorem State.sxmMessageIn_of_hello (hs : s.sxmHears src = true) (hm : sxmFormed m = true) (h : sxmType m = sxmTypeHello) :
    s.sxmMessageIn src m = s.hello src m := by
  simp [State.sxmMessageIn, hs, hm, h]

/-- A message in a session that is open and whose tag proves it acts by its type. -/
theorem State.sxmMessageIn_of_session {x : Session} (hs : s.sxmHears src = true) (hm : sxmFormed m = true) (ht : sxmType m ≠ sxmTypeHello)
    (hn : sxmSession m ≠ 0) (hx : s.session (sxmSession m - 1) = some x) (htag : sxmTagged x.ks m = true) :
    s.sxmMessageIn src m =
      if sxmType m = sxmTypeRequest then s.sxmRequest (sxmSession m - 1) x src m
      else if sxmType m = sxmTypeClose then s.endSession (sxmSession m - 1) else s := by
  simp [State.sxmMessageIn, hs, hm, ht, hn, hx, htag]

theorem State.hello_of_unproven (h : ∀ k, s.helloKey (sxmKey m) = some k → sxmTagged k m = false) : s.hello src m = s.dropAuth := by
  unfold State.hello
  split
  next k hk => simp [h k hk]
  next => rfl

/-- A message that is no HELLO, in no open session or with a tag that does not prove it, is dropped. -/
theorem State.sxmMessageIn_of_unproven (hs : s.sxmHears src = true) (hm : sxmFormed m = true) (ht : sxmType m ≠ sxmTypeHello)
    (h : sxmSession m = 0 ∨ ∀ x, s.session (sxmSession m - 1) = some x → sxmTagged x.ks m = false) : s.sxmMessageIn src m = s.dropAuth := by
  unfold State.sxmMessageIn
  simp only [hs, hm, ht, Bool.not_true, Bool.false_eq_true, if_false]
  split
  next => rfl
  next x hx =>
    split at hx
    next => simp at hx
    next h0 => simp [h.resolve_left h0 x hx]

theorem State.hello_of_proven {k : List Byte} (hk : s.helloKey (sxmKey m) = some k) (htag : sxmTagged k m = true)
    (hlen : (sxmBody m).length = 16) : s.hello src m = s.helloAccepted src (sxmKey m) k (sxmBody m) := by
  simp [State.hello, hk, htag, hlen]

end Message

theorem claim_sxmDropsUnproven : Claim.SxmDropsUnproven := by
  intro s t src m i hi
  refine ⟨fun h => (gives_sxmMessage hi).of_eq (State.sxmMessageIn_of_not_heard h), fun h hbad => (gives_sxmMessage hi).of_eq ?_⟩
  rcases Bool.eq_false_or_eq_true (sxmFormed m) with hm | hm
  · rcases hbad with hbad | ⟨ht, hkey⟩ | ⟨ht, hx⟩
    · simp [hm] at hbad
    · exact (State.sxmMessageIn_of_hello (s := s.atTime t) h hm ht).trans (State.hello_of_unproven hkey)
    · exact State.sxmMessageIn_of_unproven (s := s.atTime t) h hm ht hx
  · exact State.sxmMessageIn_of_not_formed h hm

theorem claim_sxmServes : Claim.SxmServes := by
  intro s t src m hs hm
  refine ⟨fun k ht hk htag hlen => ?_, fun x hn hx htag => ⟨fun ht => ?_, fun ht => ?_⟩⟩
  · have hhello : (s.atTime t).sxmMessageIn src m = (s.atTime t).helloAccepted src (sxmKey m) k (sxmBody m) :=
      (State.sxmMessageIn_of_hello (s := s.atTime t) hs hm ht).trans (State.hello_of_proven hk htag hlen)
    unfold State.helloAccepted at hhello
    have hg : Gives (.sxmHello t src m) s ((s.atTime t).sxmMessageIn src m) := rfl
    refine ⟨fun n hfree => hg.of_eq (hhello.trans ?_), fun hnone => hg.of_eq (hhello.trans ?_)⟩
    · rw [show (firstIdx 8 fun n => ((s.atTime t).session n).isNone) = some n from hfree]
    · rw [show (firstIdx 8 fun n => ((s.atTime t).session n).isNone) = none from hnone]
  · have hin : (s.atTime t).sxmMessageIn src m = (s.atTime t).sxmRequest (sxmSession m - 1) x src m := by
      rw [State.sxmMessageIn_of_session (s := s.atTime t) hs hm (by rw [ht]; decide) hn hx htag, if_pos ht]
    have hg : Gives (.request t src m) s ((s.atTime t).sxmRequest (sxmSession m - 1) x src m) := hin ▸ rfl
    refine ⟨fun hnext => hg.of_eq ?_, fun hne hlast hresp => hg.of_eq ?_, fun hne hold => hg.of_eq ?_⟩
    · rw [State.sxmRequest, if_pos hnext]
    · rw [State.sxmRequest, if_neg hne, if_pos (by simp [hlast, hresp])]
    · rw [State.sxmRequest, if_neg hne, if_neg]
      rcases hold with hold | hold <;> simp [hold]
  · have hin := State.sxmMessageIn_of_session (s := s.atTime t) hs hm (by rw [ht]; decide) hn hx htag
    exact Gives.of_eq rfl (hin.trans (by rw [if_neg (by rw [ht]; decide), if_pos ht]))

/-- Settles O20: each message acts by its form, its tag, its type and its number. -/
theorem sxmMessages : Obligations.SxmMessages := ⟨claim_sxmDropsUnproven, claim_sxmServes⟩

/-! ### Writes of shared memory -/

/-- A running image whose memory plan gives bank 0 to the load buffer and to the beam engine at once, with a VERIFY in progress and channel 0
bound to a transaction. R74 lets no image have such a plan; the state alone does not exclude it. -/
def doublyPlanned : State :=
  { State.reset with
    image := { State.reset.image with
      cmd := some .verify
      running := some { serial := 1, digest := [], live := false
                        sections := [{ type := secMemory, inst := 0
                                       bytes := [9, 0, 0, 0, 0, 0, 1, 0, 0, 0, 0, 0, 0, 0, 0, 0, 1, 0, 0, 0, 0, 0, 1, 0, 0, 0, 0, 0, 0, 0, 0, 0] }] } }
    boot := { State.reset.boot with phase := .ready }
    chans := State.reset.chans.modify 0 fun c => { c with bound := true } }

/-- Does the command leave IMAGE.STATUS.buf_write_lost set? -/
def flagsLostWrite (c : Instr) (s : State) : Bool :=
  match exec c s with
  | .next u => u.flag Reg.IMAGE.STATUS.buf_write_lost
  | _ => false

theorem flagsLostWrite_of_gives {c : Instr} {s u : State} (h : Gives c s u) : flagsLostWrite c s = u.flag Reg.IMAGE.STATUS.buf_write_lost := by
  rw [flagsLostWrite, h]
  exact u.flag_settled _

/-- Refutes O18: where the plan gives a bank of the load buffer to the beam engine too, a write from a bound channel is staged (or lost with its
transaction) and not flagged as a lost write of the load buffer. -/
theorem not_hostWrites : ¬ Obligations.HostWrites := by
  rintro ⟨-, hwin⟩
  have hdecided : doublyPlanned.reaches 0 0 windowBase ∧ doublyPlanned.bankLost 0 = false ∧ (doublyPlanned.placeIn kindLoad 0).isSome = true ∧
      flagsLostWrite (.windowWrite 0 0 (BitVec.ofNat 32 (windowBase + 0)) 0) doublyPlanned = false := by decide +kernel
  obtain ⟨hreach, hkept, hload, hflag⟩ := hdecided
  have hgives := ((hwin doublyPlanned 0 0 0 0 hreach rfl (by decide) hkept).2 (.inl rfl) hload).1 rfl
  rw [flagsLostWrite_of_gives hgives] at hflag
  revert hflag
  decide +kernel

end Sys2Proof.Machine
end

