-- ==== Sys2Proof/Proofs/KeepWork.lean ====
section
/-!
Commands of the keep, their ends, and the pages of the log (R677 to R683).
-/

namespace Sys2Proof.Machine

open Sys2Proof

/-! ### Commands -/

/-- A keep command reaches the keep with its operands in the registers. -/
theorem gives_keepAsk {s : State} {t : Nat} {ch : Channel} (hr : s.reaches t ch Reg.KEEP.CMD.word.addr) {p : Instr × KeepCmd}
    (hp : p ∈ [(Instr.keepRead t ch, KeepCmd.read), (.program t ch, .program), (.keepBegin t ch, .begin), (.keepCommit t ch, .commit),
        (.abortUpdate t ch, .abortUpdate), (.eraseSlot t ch, .eraseSlot), (.copy t ch, .copy)]) :
    Gives p.1 s ((s.atTime t).keepCmd (some p.2)) := by
  have hfin (c : KeepCmd) : finish (s.keepAsk t ch.val c) = .next ((s.atTime t).keepCmd (some c)).settled := by
    rw [State.keepAsk, State.hostCmd_of_reaches hr, finish]
  simp only [List.mem_cons, List.not_mem_nil, or_false] at hp
  rcases hp with rfl | rfl | rfl | rfl | rfl | rfl | rfl <;> exact hfin _

theorem sameWords_reclaim (s : State) : SameWords s s.reclaim [Reg.KEEP.WEAR.count.addr] := by
  unfold State.reclaim
  split
  · exact fun _ _ => rfl
  · exact sameWords_put _ _ _

theorem State.mem_reclaim (s : State) : s.reclaim.mem = s.mem := by
  unfold State.reclaim
  split <;> rfl

theorem State.out_reclaim (s : State) : s.reclaim.out = s.out := by
  unfold State.reclaim
  split <;> rfl

/-- The command with its operands from the registers. -/
def State.keepJob (x : State) (c : KeepCmd) : KeepJob where
  cmd := c
  area := x.get Reg.KEEP.ADDR.area
  page := x.get Reg.KEEP.ADDR.page
  len := x.get Reg.KEEP.LEN.bytes
  data := x.keepBuffer

/-- The keep works on a command whose operands the registers hold. -/
def State.keepWorks (x : State) (c : KeepCmd) : State :=
  ({ x with keep := { x.keep with running := some (x.keepJob c) } } : State).put Reg.KEEP.STATUS.busy 1

/-- An accepted command takes its operands from the registers and runs. -/
theorem State.keepCmd_of_accepted {s : State} {c : KeepCmd} (hrun : s.keep.running = none)
    (hcode : (s.put Reg.KEEP.STATUS.done 0).keepRefusal c = 0) :
    ∃ job, (s.keepCmd (some c)).keep.running = some job ∧ job.cmd = c ∧ job.area = s.get Reg.KEEP.ADDR.area ∧
      job.page = s.get Reg.KEEP.ADDR.page ∧ job.len = s.get Reg.KEEP.LEN.bytes ∧ (s.keepCmd (some c)).get Reg.KEEP.STATUS.busy = 1 ∧
      (s.keepCmd (some c)).get Reg.KEEP.STATUS.done = 0 ∧ (s.keepCmd (some c)).mem = s.mem ∧ (s.keepCmd (some c)).out = s.out := by
  obtain ⟨x, hx, hcmd⟩ : ∃ x : State, (x = s.put Reg.KEEP.STATUS.done 0 ∨ x = (s.put Reg.KEEP.STATUS.done 0).reclaim) ∧
      s.keepCmd (some c) = x.keepWorks c := by
    simp only [State.keepCmd, hrun, hcode, Option.isSome_none, Bool.false_eq_true, if_false, bne_self_eq_false]
    split
    · exact ⟨_, .inr rfl, rfl⟩
    · exact ⟨_, .inl rfl, rfl⟩
  have hwords : SameWords (s.put Reg.KEEP.STATUS.done 0) x [Reg.KEEP.WEAR.count.addr] := by
    rcases hx with hx | hx <;> rw [hx]
    · exact fun _ _ => rfl
    · exact sameWords_reclaim _
  have hget {f : Fld} (hf : f.addr ≠ Reg.KEEP.WEAR.count.addr) (hd : Reg.KEEP.STATUS.done.apart f = true) : x.get f = s.get f :=
    (State.get_of_sameWords hwords (by simpa using hf)).trans (State.get_put_apart s rfl hd 0)
  have hout : x.mem = s.mem ∧ x.out = s.out := by
    rcases hx with hx | hx <;> rw [hx]
    · exact ⟨rfl, rfl⟩
    · exact ⟨State.mem_reclaim _, State.out_reclaim _⟩
  rw [hcmd]
  refine ⟨_, rfl, rfl, hget (f := Reg.KEEP.ADDR.area) (by decide) rfl, hget (f := Reg.KEEP.ADDR.page) (by decide) rfl,
    hget (f := Reg.KEEP.LEN.bytes) (by decide) rfl, State.get_put_same _ (f := Reg.KEEP.STATUS.busy) rfl 1, ?_, hout⟩
  calc _ = x.get Reg.KEEP.STATUS.done := State.get_put_apart _ rfl rfl 1
    _ = (s.put Reg.KEEP.STATUS.done 0).get Reg.KEEP.STATUS.done := State.get_of_sameWords hwords (by decide)
    _ = 0 := State.get_put_same s rfl 0

theorem claim_keepCommands : Claim.KeepCommands := by
  intro s t ch hr p hp
  have hg := gives_keepAsk hr hp
  refine ⟨fun hbusy => hg.of_eq ?_, fun hrun code hcode => ⟨fun hne => hg.of_eq ?_, fun h0 => ?_⟩⟩
  · exact if_pos hbusy
  · subst hcode
    simp [State.keepCmd, hrun, hne, State.keepRefused]
  · obtain ⟨job, h⟩ := State.keepCmd_of_accepted (s := s.atTime t) hrun (hcode.trans h0)
    exact ⟨_, job, hg, h⟩

/-! ### Their ends -/

theorem State.keep_setKeepBuffer (s : State) (bs : List Byte) : (s.setKeepBuffer bs).keep = s.keep :=
by
  unfold State.setKeepBuffer
  refine State.forEach_keeps State.keep (fun _ _ => ?_) s _
  exact State.keep_put ..

theorem State.keep_keepPageRead (s : State) (area page : Nat) : (s.keepPageRead area page).2.keep = s.keep := by
  unfold State.keepPageRead
  repeat' split
  all_goals rfl

theorem claim_keepCompletes : Claim.KeepCompletes := by
  intro s t
  refine ⟨fun hnone => Gives.of_eq rfl ?_, fun j hj => ?_⟩
  · rw [State.keepDone, show (s.atTime t).keep.running = none from hnone]
  · have hover : Gives (.keepCmdDone t) s (((s.atTime t).keepEffect j).keepOver 0) := by
      refine Gives.of_eq rfl ?_
      rw [State.keepDone, show (s.atTime t).keep.running = some j from hj]
    refine ⟨hover, _, hover, rfl, ?_, ?_, ?_, fun hc => ?_, fun hc => ?_, fun hc harea => ?_, fun hc => ?_, fun hc => ?_⟩
    · rw [State.keepOver, State.get_put_apart _ rfl rfl, State.get_put_apart _ rfl rfl, State.get_put_same _ rfl, Nat.zero_mod]
    · exact State.get_put_same _ rfl 1
    · rw [State.keepOver, State.get_put_apart _ rfl rfl, State.get_put_same _ rfl, Nat.zero_mod]
    · rw [State.keepEffect, hc]
      exact ⟨rfl, rfl⟩
    · rw [State.keepEffect, hc]
      exact ⟨rfl, rfl⟩
    · simp only [State.keepEffect, hc, harea, if_true]
      exact ⟨rfl, rfl⟩
    · rw [State.keepEffect, hc]
      exact ⟨rfl, rfl⟩
    · have hkeep : ((s.atTime t).keepEffect j).keep = s.keep := by
        simp only [State.keepEffect, hc]
        exact (State.keep_setKeepBuffer _ _).trans (State.keep_keepPageRead _ _ _)
      simp only [State.keepOver, State.keep_put, hkeep, and_self]

/-! ### Pages of the log -/

theorem claim_logPages : Claim.LogPages := by
  intro s t
  refine ⟨fun hdue hrun hpower hbuf hroom => ⟨_, rfl, ?_⟩, fun h => Gives.of_eq rfl ?_⟩
  · have hguard : (!(s.atTime t).due .logPage || (s.atTime t).keep.running.isSome || (s.atTime t).power == powerThermalOff ||
        (s.atTime t).keep.logBuffer.isEmpty) = false := by
      simp [hdue, hrun, hpower, hbuf]
    have hroom' : (s.atTime t).keep.logPages.length < logArea := hroom
    simp only [State.logPage, hguard, Bool.false_eq_true, if_false, if_pos hroom']
    split <;> exact ⟨rfl, rfl, rfl, rfl⟩
  · refine if_pos ?_
    rcases h with h | h
    · simp [h]
    · simp [h]

/-- Settles O21: the refusals and the acceptance of a command, what each command's end does, and when a page of the log is programmed. -/
theorem keepWork : Obligations.KeepWork := ⟨claim_keepCommands, claim_keepCompletes, claim_logPages⟩

end Sys2Proof.Machine
end

