-- ==== Sys2Proof/Proofs/SecurityPort.lean ====
section
/-!
Security commands and their ends (R684 to R688).
-/

namespace Sys2Proof.Machine

open Sys2Proof

/-! ### Commands -/

/-- A security command runs. -/
def State.secRuns (s : State) (c : SecCmd) : State :=
  ({ s.put Reg.SECURITY.STATUS.done 0 with sec := { s.sec with running := some c } } : State).put Reg.SECURITY.STATUS.busy 1

theorem State.busy_secRuns (s : State) (c : SecCmd) : (s.secRuns c).get Reg.SECURITY.STATUS.busy = 1 := State.get_put_same _ rfl 1

theorem State.done_secRuns (s : State) (c : SecCmd) : (s.secRuns c).get Reg.SECURITY.STATUS.done = 0 :=
  (State.get_put_apart _ rfl rfl 1).trans (State.get_put_same s rfl 0)

theorem State.sxmLocked_done (s : State) : (s.put Reg.SECURITY.STATUS.done 0).sxmLocked = s.sxmLocked := by
  have hflag : (s.put Reg.SECURITY.STATUS.done 0).imageLocked = s.imageLocked := by
    rw [State.imageLocked, State.imageLocked, State.flag, State.flag, State.get_put_apart s rfl rfl 0]
  rw [State.sxmLocked, hflag]
  rfl

section Command

variable {s : State} {code slot : Nat}

theorem State.secCmd_of_busy (hrun : s.sec.running.isSome = true) (ch : Nat) :
    s.secCmd ch code slot = s.put Reg.SECURITY.STATUS.result secBusy := if_pos hrun

variable (hrun : s.sec.running = none)
include hrun

theorem State.secCmd_of_channel (hcode : 1 ≤ code ∧ code ≤ 5) {ch : Nat} (hch : ch ≠ 0) :
    s.secCmd ch code slot = (s.put Reg.SECURITY.STATUS.done 0).secRefused secChannel := by
  simp [State.secCmd, hrun, hch, Nat.not_lt.2 hcode.1, Nat.not_lt.2 hcode.2]

theorem State.secCmd_nonce : s.secCmd 0 2 slot = s.secRuns .nonce := by simp [State.secCmd, hrun, State.secRuns]

theorem State.secCmd_unlock :
    s.secCmd 0 3 slot = s.secRuns (.unlock ((List.range 64).map fun k =>
      leBytes 4 ((s.put Reg.SECURITY.STATUS.done 0).get (Reg.SECURITY.TOKEN.word k))).flatten) := by
  simp [State.secCmd, hrun, State.secRuns]

theorem State.secCmd_otp (h : s.otpRefusal (s.get Reg.SECURITY.OTP_ADDR.word) (s.word Reg.SECURITY.OTP_DATA.word.addr) = 0) :
    s.secCmd 0 1 slot = s.secRuns (.otpProgram (s.get Reg.SECURITY.OTP_ADDR.word) (s.word Reg.SECURITY.OTP_DATA.word.addr)) := by
  have haddr : (s.put Reg.SECURITY.STATUS.done 0).get Reg.SECURITY.OTP_ADDR.word = s.get Reg.SECURITY.OTP_ADDR.word :=
    State.get_put_apart s rfl rfl 0
  have hdata : (s.put Reg.SECURITY.STATUS.done 0).word Reg.SECURITY.OTP_DATA.word.addr = s.word Reg.SECURITY.OTP_DATA.word.addr :=
    State.word_put_other s (by decide) 0
  have hotp : (s.put Reg.SECURITY.STATUS.done 0).otpRefusal = s.otpRefusal := rfl
  simp only [State.secCmd, hrun, haddr, hdata, hotp, h]
  rfl

theorem State.secCmd_locked (hlock : s.sxmLocked = true) (hcode : code = 4 ∨ code = 5) :
    s.secCmd 0 code slot = (s.put Reg.SECURITY.STATUS.done 0).secRefused secLocked := by
  rcases hcode with rfl | rfl <;> simp [State.secCmd, hrun, State.sxmLocked_done, hlock]

theorem State.secCmd_keyStore (hlock : s.sxmLocked = false) : ∃ key,
    (s.secCmd 0 4 slot).sec.running = some (.keyStore slot key) ∧ (s.secCmd 0 4 slot).sec.keyData = [] := by
  have h := State.sxmLocked_done s
  simp only [State.secCmd, hrun, h, hlock]
  exact ⟨_, rfl, rfl⟩

theorem State.secCmd_keyClear (hlock : s.sxmLocked = false) : s.secCmd 0 5 slot = s.secRuns (.keyClear slot) := by
  simp [State.secCmd, hrun, State.sxmLocked_done, hlock, State.secRuns]

end Command

/-- Each security command reaches the port under its code. -/
theorem gives_secAsk {i : Instr} {s : State} {t code slot : Nat} {ch : Channel} (hr : s.reaches t ch Reg.SECURITY.CMD.word.addr)
    (hexec : exec i s = finish (s.secAsk t ch.val code slot)) : Gives i s ((s.atTime t).secCmd ch.val code slot) :=
  gives_hostCmd (f := fun s => s.secCmd ch.val code slot) hr hexec

@[simp] theorem length_leBytes (k n : Nat) : (leBytes k n).length = k := by
  induction k generalizing n with
  | zero => rfl
  | succ k ih => simp [leBytes, ih]

theorem claim_securityCommands : Claim.SecurityCommands := by
  intro s t ch k hr
  have hotp := gives_secAsk (i := .otpProgram t ch) (slot := 0) hr rfl
  have hnonce := gives_secAsk (i := .nonce t ch) (slot := 0) hr rfl
  have hunlock := gives_secAsk (i := .unlock t ch) (slot := 0) hr rfl
  have hstore := gives_secAsk (i := .sxmKeyStore t ch k) hr rfl
  have hclear := gives_secAsk (i := .sxmKeyClear t ch k) hr rfl
  refine ⟨fun i hi => ⟨fun hbusy => ?_, fun hrun hch => ?_⟩, fun hrun h0 => ?_⟩
  · simp only [List.mem_cons, List.not_mem_nil, or_false] at hi
    have hcmd {code slot : Nat} := State.secCmd_of_busy (s := s.atTime t) (code := code) (slot := slot) hbusy ch.val
    rcases hi with rfl | rfl | rfl | rfl | rfl
    exacts [hotp.of_eq hcmd, hnonce.of_eq hcmd, hunlock.of_eq hcmd, hstore.of_eq hcmd, hclear.of_eq hcmd]
  · simp only [List.mem_cons, List.not_mem_nil, or_false] at hi
    have hch' : ch.val ≠ 0 := fun h => hch (Fin.ext h)
    have hcmd {code slot : Nat} (hcode : 1 ≤ code ∧ code ≤ 5) := State.secCmd_of_channel (s := s.atTime t) (slot := slot) hrun hcode hch'
    rcases hi with rfl | rfl | rfl | rfl | rfl
    exacts [hotp.of_eq (hcmd (by omega)), hnonce.of_eq (hcmd (by omega)), hunlock.of_eq (hcmd (by omega)),
      hstore.of_eq (hcmd (by omega)), hclear.of_eq (hcmd (by omega))]
  · subst h0
    refine ⟨⟨_, hnonce.of_eq (State.secCmd_nonce hrun), rfl, State.busy_secRuns .., State.done_secRuns ..⟩,
      ⟨_, _, hunlock.of_eq (State.secCmd_unlock hrun), rfl, ?_, State.busy_secRuns .., State.done_secRuns ..⟩,
      fun h => ⟨_, hotp.of_eq (State.secCmd_otp hrun h), rfl, State.busy_secRuns ..⟩,
      fun hlock => ⟨?_, ⟨_, hclear.of_eq (State.secCmd_keyClear hrun hlock), rfl⟩⟩, fun hlock i hi => ?_⟩
    · simp [List.length_flatten, Function.comp_def]
    · obtain ⟨key, h⟩ := State.secCmd_keyStore (s := s.atTime t) (slot := k.val) hrun hlock
      exact ⟨_, key, hstore, h⟩
    · simp only [List.mem_cons, List.not_mem_nil, or_false] at hi
      have hcmd {code slot : Nat} (hcode : code = 4 ∨ code = 5) := State.secCmd_locked (s := s.atTime t) (slot := slot) hrun hlock hcode
      have hget (x : State) : (x.secRefused secLocked).get Reg.SECURITY.STATUS.result = secLocked :=
        (State.get_put_apart _ rfl rfl 1).trans (State.get_put_same x rfl _)
      have hend (x : State) : (x.secRefused secLocked).get Reg.SECURITY.STATUS.done = 1 := State.get_put_same _ rfl 1
      rcases hi with rfl | rfl
      · exact ⟨_, hstore.of_eq (hcmd (.inl rfl)), hrun, hget _, hend _⟩
      · exact ⟨_, hclear.of_eq (hcmd (.inr rfl)), hrun, hget _, hend _⟩

/-! ### Their ends -/

/-- A command in progress ends: what it is for, then the registers. -/
def State.secOver (r : Nat × State) : State :=
  ((({ r.2 with sec := { r.2.sec with running := none } } : State).showSecurity.put Reg.SECURITY.STATUS.busy 0).put
    Reg.SECURITY.STATUS.result r.1).put Reg.SECURITY.STATUS.done 1

theorem gives_secDone {s : State} {c : SecCmd} (hc : s.sec.running = some c) (t : Nat) :
    Gives (.securityCmdDone t) s (State.secOver ((s.atTime t).secEffect c)) := by
  refine Gives.of_eq rfl ?_
  rw [State.secDone, show (s.atTime t).sec.running = some c from hc]
  rfl

theorem State.get_result_secOver (r : Nat × State) : (State.secOver r).get Reg.SECURITY.STATUS.result = r.1 % 256 :=
  (State.get_put_apart _ rfl rfl 1).trans (State.get_put_same _ rfl _)

theorem State.get_busy_secOver (r : Nat × State) : (State.secOver r).get Reg.SECURITY.STATUS.busy = 0 :=
  (State.get_put_apart _ rfl rfl 1).trans ((State.get_put_apart _ rfl rfl _).trans (State.get_put_same _ rfl 0))

theorem State.unlockCode_lt (s : State) (token : List Byte) : s.unlockCode token < 256 := by
  unfold State.unlockCode
  dsimp only
  repeat' split
  all_goals decide

theorem State.sec_setNonce (s : State) (bs : List Byte) : (s.setNonce bs).sec = s.sec := by
  unfold State.setNonce
  refine State.forEach_keeps State.sec (fun _ _ => ?_) s _
  exact State.sec_put ..

/-- No session is under the key, so clearing it ends none. -/
theorem State.endKeyed_of_none {s : State} {slot : Nat} (h : ∀ n x, s.session n = some x → x.keySlot ≠ slot) : s.endKeyed slot = s := by
  unfold State.endKeyed State.forEach
  induction List.range s.sessions.length with
  | nil => rfl
  | cons n l ih =>
    rw [List.foldl_cons]
    cases hx : s.session n with
    | none => simpa [hx] using ih
    | some x => simpa [hx, h n x hx] using ih

theorem claim_securityCompletes : Claim.SecurityCompletes := by
  intro s t
  refine ⟨fun hnone => Gives.of_eq rfl ?_, fun c hc => ⟨_, gives_secDone hc t, rfl, State.get_put_same _ rfl 1, State.get_busy_secOver _, ?_, ?_, ?_, ?_, ?_⟩⟩
  · rw [State.secDone, show (s.atTime t).sec.running = none from hnone]
  · rintro w bits rfl
    exact ⟨findCell_insertCell_same .., fun k hk => congrArg (fun x : Option Word => x.getD 0) (findCell_insertCell_other hk ..), rfl⟩
  · rintro token rfl
    have hsec : (State.secOver ((s.atTime t).secEffect (.unlock token))).sec.jtagOpen = (s.sec.jtagOpen || s.unlockCode token == 0) :=
      congrArg (fun x : Security => x.jtagOpen || s.unlockCode token == 0) (State.sec_setNonce (s.atTime t) _)
    refine ⟨rfl, by simp [hsec], ?_⟩
    exact (State.get_result_secOver _).trans (Nat.mod_eq_of_lt (s.unlockCode_lt token))
  · rintro rfl
    have hsec := State.sec_setNonce ((s.atTime t).drew 16) ((s.atTime t).randomBytes 16)
    exact ⟨rfl, congrArg (·.drawn) hsec, congrArg (·.otp) hsec⟩
  · rintro slot key rfl
    rfl
  · rintro slot rfl hnone
    have hkeyed : ((s.atTime t).secEffect (.keyClear slot)).2 =
        { s.atTime t with keep := { (s.atTime t).keep with sxmKeys := (s.atTime t).keep.sxmKeys.set slot none } } :=
      State.endKeyed_of_none hnone
    exact ⟨congrArg (·.keep.sxmKeys) hkeyed, congrArg (·.sessions) hkeyed⟩

/-- Settles O22: who may send a command and when it runs, and what each command's end does. -/
theorem securityPort : Obligations.SecurityPort := ⟨claim_securityCommands, claim_securityCompletes⟩

end Sys2Proof.Machine
end

