-- ==== Sys2Proof/Proofs/FullResets.lean ====
section
/-!
Full resets (R672, R673, R702).
-/

namespace Sys2Proof.Machine

open Sys2Proof

/-- The registers after a full reset: the reset values, with the cause. -/
theorem State.regs_afterReset (s : State) (source ch : Nat) :
    (s.afterReset source ch).regs = (State.reset.setWord Reg.DEVICE.RESET_CAUSE.word.addr (s.resetCause source ch)).regs := by
  unfold State.afterReset
  dsimp only
  split <;> rfl

theorem sameWords_afterReset (s : State) (source ch : Nat) : SameWords State.reset (s.afterReset source ch) [Reg.DEVICE.RESET_CAUSE.word.addr] := by
  intro a ha
  rw [State.word, State.regs_afterReset]
  exact State.word_setWord_other (by simpa using ha) State.reset _

theorem State.word_cause_afterReset (s : State) (source ch : Nat) :
    (s.afterReset source ch).word Reg.DEVICE.RESET_CAUSE.word.addr = s.resetCause source ch := by
  rw [State.word, State.regs_afterReset]
  exact State.word_setWord_same State.reset _ _

/-- What a full reset leaves besides the registers: no session, no running image, the customer OTP, and what waits. -/
theorem State.afterReset_leaves (s : State) (source ch : Nat) :
    (s.afterReset source ch).sec = { Security.reset with otp := s.sec.otp, drawn := s.sec.drawn } ∧
      (s.afterReset source ch).sessions = List.replicate 8 none ∧ (s.afterReset source ch).image = ImageState.reset ∧
      (s.afterReset source ch).boot.pg = s.boot.pg ∧ (s.afterReset source ch).pending = s.pending ∧ (s.afterReset source ch).out = s.out := by
  unfold State.afterReset
  dsimp only
  split <;> exact ⟨rfl, rfl, rfl, rfl, rfl, rfl⟩

theorem State.session_of_sessions_reset {s : State} (h : s.sessions = List.replicate 8 none) (k : Nat) : s.session k = none := by
  rw [State.session, h]
  simp only [List.getD_eq_getElem?_getD, List.getElem?_replicate]
  split <;> rfl

/-- Out of reset while a rail is down, the part waits for its power. -/
theorem State.fullReset_of_rail_down {s : State} {source ch : Nat} (hheld : s.boot.phase ≠ .held) (hrail : s.railsGood = false)
    (failed : List (Nat × Nat)) :
    s.fullReset source ch failed = { s.afterReset source ch with
      boot := { (s.afterReset source ch).boot with released := (s.afterReset source ch).now, phase := .waitPower } } := by
  have hpg : (s.afterReset source ch).boot.pg = s.boot.pg := (s.afterReset_leaves source ch).2.2.2.1
  have hgood : ({ s.afterReset source ch with
      boot := { (s.afterReset source ch).boot with released := (s.afterReset source ch).now } } : State).railsGood = false := by
    rw [← hrail, State.railsGood, State.railsGood, ← hpg]
  simp [State.fullReset, hheld, State.leaveReset, hgood]

/-- The state in which a power-good input has fallen. -/
def State.pgLow (s : State) (t n : Nat) : State :=
  { s.atTime t with boot := { (s.atTime t).boot with pg := (s.atTime t).boot.pg.set n false } }

theorem claim_pinReset : Claim.PinReset := by
  intro s t ns n
  refine ⟨fun h => ⟨Gives.of_eq rfl (if_pos h), Gives.of_eq rfl (if_pos h)⟩, fun h => ⟨?_, fun hn hheld hpg => ?_⟩⟩
  · obtain ⟨hsec, hsess, himage, -, hpend, hout⟩ := (s.atTime t).afterReset_leaves srcPin 0
    refine ⟨_, Gives.of_eq rfl (if_neg (Nat.not_lt.2 h)), sameWords_afterReset _ _ _, State.word_cause_afterReset _ _ _, rfl, ?_, ?_,
      State.session_of_sessions_reset hsess, congrArg (·.running) himage, hpend, hout⟩
    · exact congrArg (·.otp) hsec
    · exact congrArg (·.jtagOpen) hsec
  · have hrail : (s.pgLow t n.val).railsGood = false := by
      have hn' : n.val ∈ [1, 2, 3] := by
        have := n.isLt
        simp only [List.mem_cons, List.not_mem_nil, or_false]
        omega
      refine List.all_eq_false.2 ⟨n.val, hn', ?_⟩
      simp [State.pgLow, hpg, n.isLt]
    have hwatch : (n.val != 0 || (s.atTime t).boot.coreMonitored) = true := by simp [hn]
    have hfall : (s.atTime t).pgFall n.val ns = (s.pgLow t n.val).fullReset srcPowerOn 0 [] := by
      rw [State.pgFall, if_neg (Nat.not_lt.2 h)]
      dsimp only
      rw [hwatch, State.when_true, State.pgLow]
    obtain ⟨hsec, hsess, -, -, -, -⟩ := (s.pgLow t n.val).afterReset_leaves srcPowerOn 0
    exact ⟨_, Gives.of_eq rfl (hfall.trans (State.fullReset_of_rail_down (s := s.pgLow t n.val) hheld hrail [])),
      sameWords_afterReset (s.pgLow t n.val) srcPowerOn 0, rfl, congrArg (·.otp) hsec, State.session_of_sessions_reset hsess⟩

theorem claim_hostReset : Claim.HostReset := by
  intro s t ch v failed
  refine ⟨fun hr => ?_, fun k hk => ?_, rfl⟩
  · have hg : Gives (.hostReset t ch v failed) s ((s.atTime t).hostReset ch.val v failed) :=
      gives_hostCmd (f := fun s => s.hostReset ch.val v failed) hr rfl
    exact ⟨fun hv => hg.of_eq (if_neg hv), fun hv => hg.of_eq (if_pos hv)⟩
  · rcases hk with rfl | rfl | rfl <;> rfl

/-- Settles O24: each source leads to the state after reset, and pulses that are too short do not. -/
theorem fullResets : Obligations.FullResets := ⟨claim_pinReset, claim_hostReset⟩

end Sys2Proof.Machine
end

