-- ==== Sys2Proof/Proofs/ReceiveLoops.lean ====
section
/-!
The DC and IQ loops of a path (R128 to R133).
-/

namespace Sys2Proof.Machine

open Sys2Proof

/-! ### Signed fields -/

theorem signed_unsigned {w : Nat} (hw : 0 < w) {x : Int} (hlo : -(2 ^ (w - 1)) ≤ x) (hhi : x < 2 ^ (w - 1)) : signed w (unsigned w x) = x := by
  obtain ⟨v, rfl⟩ : ∃ v, w = v + 1 := ⟨w - 1, by omega⟩
  have hpow : ((2 ^ (v + 1) : Nat) : Int) = 2 * ((2 ^ v : Nat) : Int) := by push_cast; ring
  have hpos : (0 : Int) < ((2 ^ v : Nat) : Int) := by positivity
  simp only [Nat.add_sub_cancel] at hlo hhi
  have hlo' : -((2 ^ v : Nat) : Int) ≤ x := by push_cast; exact hlo
  have hhi' : x < ((2 ^ v : Nat) : Int) := by push_cast; exact hhi
  unfold signed unsigned
  simp only [Nat.add_sub_cancel]
  have hnn : 0 ≤ x % ((2 ^ (v + 1) : Nat) : Int) := Int.emod_nonneg _ (by omega)
  have hlt : x % ((2 ^ (v + 1) : Nat) : Int) < ((2 ^ (v + 1) : Nat) : Int) := Int.emod_lt_of_pos _ (by omega)
  rw [Nat.mod_eq_of_lt (by omega)]
  rcases lt_or_ge x 0 with hx | hx
  · have hmod : x % ((2 ^ (v + 1) : Nat) : Int) = x + ((2 ^ (v + 1) : Nat) : Int) := by
      rw [← Int.add_emod_right, Int.emod_eq_of_lt (by omega) (by omega)]
    rw [if_neg (by omega)]
    omega
  · have hmod : x % ((2 ^ (v + 1) : Nat) : Int) = x := Int.emod_eq_of_lt hx (by omega)
    rw [if_pos (by omega)]
    omega

theorem satS_bounds {w : Nat} (x : Int) : -(2 ^ (w - 1)) ≤ satS w x ∧ satS w x < 2 ^ (w - 1) := by
  have hpos : (0 : Int) < 2 ^ (w - 1) := by positivity
  unfold satS clampInt
  push_cast
  omega

theorem State.getS_putS_same (s : State) {f : Fld} (h : f.fits = true) (hw : 0 < f.width) {x : Int} (hlo : -(2 ^ (f.width - 1)) ≤ x)
    (hhi : x < 2 ^ (f.width - 1)) : (s.putS f x).getS f = x := by
  rw [State.getS, State.putS, State.get_put_same s h]
  refine Eq.trans ?_ (signed_unsigned hw hlo hhi)
  simp [signed]

theorem State.getS_put_apart (s : State) {f g : Fld} (h : f.fits = true) (ha : f.apart g = true) (v : Nat) : (s.put f v).getS g = s.getS g := by
  rw [State.getS, State.get_put_apart s h ha, State.getS]

theorem State.getS_of_word {s u : State} {f : Fld} (h : u.word f.addr = s.word f.addr) : u.getS f = s.getS f := by
  rw [State.getS, State.getS, State.get, State.get, h]

/-! ### Steps that each change one word -/

/-- Steps over a range that each change a word of their own: each such word changes as its own step changes it, and no other word does. -/
theorem State.forEach_range_words {f : Nat → State → State} {addr : Nat → Nat} (hinj : ∀ i j, addr i = addr j → i = j)
    (hf : ∀ k u, SameWords u (f k u) [addr k]) (s : State) (n : Nat) :
    SameWords s (s.forEach (List.range n) f) ((List.range n).map addr) ∧
      ∀ k < n, ∃ u : State, u.word (addr k) = s.word (addr k) ∧ (s.forEach (List.range n) f).word (addr k) = (f k u).word (addr k) := by
  induction n with
  | zero => exact ⟨fun _ _ => rfl, fun k hk => absurd hk (Nat.not_lt_zero k)⟩
  | succ n ih =>
    obtain ⟨hsame, hown⟩ := ih
    have hstep : s.forEach (List.range (n + 1)) f = f n (s.forEach (List.range n) f) := by
      simp [State.forEach, List.range_succ]
    have hnew : addr n ∉ (List.range n).map addr := by
      simp only [List.mem_map, List.mem_range, not_exists, not_and]
      intro i hi heq
      exact Nat.ne_of_lt hi (hinj _ _ heq)
    rw [hstep]
    refine ⟨fun a ha => ?_, fun k hk => ?_⟩
    · simp only [List.range_succ, List.map_append, List.map_cons, List.map_nil, List.mem_append, not_or] at ha
      exact (hf n _ a ha.2).trans (hsame a ha.1)
    · rcases Nat.lt_succ_iff_lt_or_eq.1 hk with hlt | rfl
      · obtain ⟨u, hu, hword⟩ := hown k hlt
        refine ⟨u, hu, (hf n _ (addr k) ?_).trans hword⟩
        simpa using fun heq => Nat.ne_of_lt hlt (hinj _ _ heq)
      · exact ⟨_, hsame _ hnew, rfl⟩

/-! ### The DC loop -/

theorem dcStep_eq (x sum : Int) (e k : Nat) :
    (dcStep x sum e k : Rat) / 2 ^ (e + 6 + k) = x / 2 ^ e + (1 / 2 ^ k) * (sum / 64 - x / 2 ^ e) := by
  unfold dcStep
  push_cast
  field_simp
  ring

theorem dcExponent_mem {bw : Nat} (h : bw < 4) : (bw, dcExponent bw) ∈ [(0, 16), (1, 14), (2, 12), (3, 10)] := by
  interval_cases bw <;> decide

theorem State.path_modPath_same {s : State} {p : Nat} (h : p < s.radio.paths.length) (f : PathState → PathState) :
    (s.modPath p f).path p = f (s.path p) := by
  simp [State.path, State.modPath, h]

theorem State.path_modPath_other (s : State) {p q : Nat} (h : q ≠ p) (f : PathState → PathState) : (s.modPath p f).path q = s.path q := by
  simp [State.path, State.modPath, Ne.symm h]

theorem State.flag_iff (s : State) (f : Fld) : s.flag f = true ↔ s.get f ≠ 0 := by simp [State.flag]

/-- An estimate moves by 2^-k of the distance to the block's mean. -/
def DcEst.moved (d : DcEst) (sum : Cplx) (k : Nat) : DcEst where
  i := dcStep d.i sum.re d.e k
  q := dcStep d.q sum.im d.e k
  e := d.e + 6 + k

/-- The DC loop moves the estimate of the gain in force. -/
def PathState.dcMoved (x : PathState) (sum : Cplx) (k : Nat) : PathState :=
  { x with dc := x.dc.set x.gain ((x.estimate x.gain).moved sum k) }

theorem State.dcBlock_of_tracking {s : State} {p : Nat} {samples : List Cplx} (hfree : (s.freezes p).1 = false)
    (htrack : s.flag (Reg.PATH.LOOP_CTL.dc_track p) = true) (hlen : samples.length = 64) :
    s.dcBlock p samples = s.modPath p fun x => x.dcMoved (sumC samples) (dcExponent (s.get (Reg.PATH.LOOP_CTL.dc_bw p))) :=
  if_pos (by simp [hfree, htrack, hlen])

theorem State.dcBlock_of_held {s : State} {p : Nat} {samples : List Cplx}
    (h : (s.freezes p).1 = true ∨ s.flag (Reg.PATH.LOOP_CTL.dc_track p) = false) : s.dcBlock p samples = s :=
  if_neg (by rcases h with h | h <;> simp [h])

/-- A block of samples changes at most the estimates of its path. -/
theorem State.dcBlock_eq (s : State) (p : Nat) (samples : List Cplx) : s.dcBlock p samples = s ∨ ∃ f, s.dcBlock p samples = s.modPath p f := by
  unfold State.dcBlock
  split
  · exact .inr ⟨_, rfl⟩
  · exact .inl rfl

theorem claim_dcLoopMoves : Claim.DcLoopMoves := by
  intro s t p samples hpaths
  have hp : p.val < (s.atTime t).radio.paths.length := by rw [State.radio_atTime, hpaths]; exact p.isLt
  refine ⟨_, rfl, ?_, ?_, ?_, fun q hq => ?_, fun h => ?_, fun hfree htrack hlen d hd => ?_⟩
  · intro a _
    obtain h | ⟨f, h⟩ := (s.atTime t).dcBlock_eq p.val samples <;> rw [h] <;> rfl
  · obtain h | ⟨f, h⟩ := (s.atTime t).dcBlock_eq p.val samples <;> rw [h] <;> rfl
  · obtain h | ⟨f, h⟩ := (s.atTime t).dcBlock_eq p.val samples <;> rw [h] <;> rfl
  · obtain h | ⟨f, h⟩ := (s.atTime t).dcBlock_eq p.val samples <;> rw [h]
    · rfl
    · exact State.path_modPath_other _ hq f
  · rw [State.dcBlock_of_held (h.imp_right fun h0 => by simp [State.flag, h0])]
    rfl
  · have hflag : (s.atTime t).flag (Reg.PATH.LOOP_CTL.dc_track p.val) = true := by simp [State.flag, htrack]
    rw [State.dcBlock_of_tracking hfree hflag hlen, State.path_modPath_same hp]
    have hest : (s.path p.val).estimate (s.path p.val).gain = d := by rw [PathState.estimate, List.getD, hd, Option.getD_some]
    have hgain : (s.path p.val).gain < (s.path p.val).dc.length := (List.getElem?_eq_some_iff.1 hd).1
    refine ⟨d.moved (sumC samples) (dcExponent (s.get (Reg.PATH.LOOP_CTL.dc_bw p.val))), _, ?_, dcExponent_mem (State.get_lt s _),
      dcStep_eq .., dcStep_eq .., fun g hg => List.getElem?_set_ne hg.symm⟩
    rw [← hest]
    exact List.getElem?_set_self hgain

/-! ### The IQ loop -/

/-- The move of a tap is its residual divided by 2^n, to within one code. -/
theorem iqMove_bounds (x : Int) (n : Nat) : (iqMove x n - 1) * 2 ^ n < x ∧ x < (iqMove x n + 1) * 2 ^ n := by
  have hpow : (2 : Int) ^ n = ((2 ^ n : Nat) : Int) := by push_cast; rfl
  have hpos : (0 : Int) < ((2 ^ n : Nat) : Int) := by positivity
  have hfloor : shrFloor x n = x / ((2 ^ n : Nat) : Int) := Int.fdiv_eq_ediv_of_nonneg x hpos.le
  have hdiv : x % ((2 ^ n : Nat) : Int) = x - ((2 ^ n : Nat) : Int) * (x / ((2 ^ n : Nat) : Int)) := Int.emod_def ..
  have hnn := Int.emod_nonneg x (Int.ne_of_gt hpos)
  have hlt := Int.emod_lt_of_pos x hpos
  rw [hpow, iqMove, hfloor]
  generalize ((2 ^ n : Nat) : Int) = N at *
  generalize x / N = q at *
  have hb : ((b2n (Config.iqStep x n) : Nat) : Int) = 0 ∨ ((b2n (Config.iqStep x n) : Nat) : Int) = 1 := by
    cases Config.iqStep x n <;> simp [b2n]
  split
  · constructor <;> nlinarith
  · have hne : 0 < x % N := lt_of_le_of_ne hnn (Ne.symm ‹_›)
    rcases hb with hb | hb <;> rw [hb] <;> constructor <;> nlinarith

/-- The two parts of tap `k` move by the residual. -/
def State.tapMoved (p n : Nat) (residual : List Cplx) (k : Nat) (s : State) : State :=
  let s := s.putS (Reg.PATH.RX_IQ_TAP.re p k) (satS 16 (s.getS (Reg.PATH.RX_IQ_TAP.re p k) + iqMove (residual.getD k Cplx.zero).re n))
  s.putS (Reg.PATH.RX_IQ_TAP.im p k) (satS 16 (s.getS (Reg.PATH.RX_IQ_TAP.im p k) + iqMove (residual.getD k Cplx.zero).im n))

theorem sameWords_tapMoved (p n : Nat) (residual : List Cplx) (k : Nat) (s : State) :
    SameWords s (s.tapMoved p n residual k) [(Reg.PATH.RX_IQ_TAP.word p k).addr] :=
  (sameWords_put s (Reg.PATH.RX_IQ_TAP.re p k) _).trans (sameWords_put _ (Reg.PATH.RX_IQ_TAP.im p k) _)

theorem State.mem_tapMoved (p n : Nat) (residual : List Cplx) (k : Nat) (s : State) : (s.tapMoved p n residual k).mem = s.mem := rfl
theorem State.out_tapMoved (p n : Nat) (residual : List Cplx) (k : Nat) (s : State) : (s.tapMoved p n residual k).out = s.out := rfl

theorem getS_satS_putS (s : State) {f : Fld} (hw : f.width = 16) (h : f.fits = true) (x : Int) : (s.putS f (satS 16 x)).getS f = satS 16 x := by
  have hx := satS_bounds (w := 16) x
  exact s.getS_putS_same h (by omega) (by rw [hw]; exact hx.1) (by rw [hw]; exact hx.2)

theorem State.getS_tapMoved (s : State) (p n : Nat) (residual : List Cplx) (k : Nat) :
    (s.tapMoved p n residual k).getS (Reg.PATH.RX_IQ_TAP.re p k) =
        satS 16 (s.getS (Reg.PATH.RX_IQ_TAP.re p k) + iqMove (residual.getD k Cplx.zero).re n) ∧
      (s.tapMoved p n residual k).getS (Reg.PATH.RX_IQ_TAP.im p k) =
        satS 16 (s.getS (Reg.PATH.RX_IQ_TAP.im p k) + iqMove (residual.getD k Cplx.zero).im n) := by
  have hapart : (Reg.PATH.RX_IQ_TAP.im p k).apart (Reg.PATH.RX_IQ_TAP.re p k) = true := by simp [Fld.apart]
  have hapart' : (Reg.PATH.RX_IQ_TAP.re p k).apart (Reg.PATH.RX_IQ_TAP.im p k) = true := by simp [Fld.apart]
  constructor
  · exact (State.getS_put_apart _ rfl hapart _).trans (getS_satS_putS _ rfl rfl _)
  · refine (getS_satS_putS _ rfl rfl _).trans ?_
    rw [State.putS, State.getS_put_apart _ rfl hapart']

theorem iqTap_addr_inj (p i j : Nat) (h : (Reg.PATH.RX_IQ_TAP.word p i).addr = (Reg.PATH.RX_IQ_TAP.word p j).addr) : i = j := by
  dsimp only at h
  omega

section Window

variable {s : State} {p : Nat} {power : Int} {residual : List Cplx}

theorem State.iqWindow_of_early (h : s.now < (s.path p).iqFrom + ticksOfMs 10) : s.iqWindow p power residual = s := if_pos h

/-- A window that is over begins the next. -/
def State.iqBegins (s : State) (p : Nat) : State := s.modPath p fun x => { x with iqDiscard := false, iqFrom := s.now }

theorem State.iqWindow_of_held (h : (s.path p).iqFrom + ticksOfMs 10 ≤ s.now)
    (hoff : s.flag (Reg.PATH.LOOP_CTL.iq_track p) = false ∨ (s.freezes p).2 = true ∨ (s.path p).iqDiscard = true ∨ power < -12800) :
    s.iqWindow p power residual = s.iqBegins p := by
  refine (if_neg (Nat.not_lt.2 h)).trans (if_neg ?_)
  rcases hoff with h | h | h | h <;> simp [h]

theorem State.iqWindow_of_tracking (h : (s.path p).iqFrom + ticksOfMs 10 ≤ s.now) (htrack : s.flag (Reg.PATH.LOOP_CTL.iq_track p) = true)
    (hfree : (s.freezes p).2 = false) (hkept : (s.path p).iqDiscard = false) (hpower : -12800 ≤ power) :
    s.iqWindow p power residual =
      (s.iqBegins p).forEach (List.range 8) (State.tapMoved p (s.get (Reg.PATH.LOOP_CTL.iq_step p) + 8) residual) :=
  (if_neg (Nat.not_lt.2 h)).trans (if_pos (by simp [htrack, hfree, hkept, hpower]))

end Window

theorem claim_iqTracking : Claim.IqTracking := by
  intro s t p power residual
  refine ⟨fun h => Gives.of_eq rfl (State.iqWindow_of_early h), fun h => ⟨fun hoff => ?_, fun htrack hfree hkept hpower => ?_⟩⟩
  · exact Gives.of_eq rfl (State.iqWindow_of_held h (hoff.imp_left fun h0 => by simp [State.flag, h0]))
  · have hflag : (s.atTime t).flag (Reg.PATH.LOOP_CTL.iq_track p.val) = true := by simp [State.flag, htrack]
    have hstep := State.iqWindow_of_tracking (s := s.atTime t) (residual := residual) h hflag hfree hkept hpower
    have hmoved := State.forEach_range_words (iqTap_addr_inj p.val)
      (sameWords_tapMoved p.val (s.get (Reg.PATH.LOOP_CTL.iq_step p.val) + 8) residual) ((s.atTime t).iqBegins p.val) 8
    refine ⟨_, Gives.of_eq rfl hstep, fun k hk n hn => ?_, hmoved.1,
      State.forEach_keeps State.mem (State.mem_tapMoved p.val _ residual) _ _, State.forEach_keeps State.out (State.out_tapMoved p.val _ residual) _ _⟩
    subst hn
    obtain ⟨u, hu, hword⟩ := hmoved.2 k hk
    obtain ⟨hre, him⟩ := u.getS_tapMoved p.val (s.get (Reg.PATH.LOOP_CTL.iq_step p.val) + 8) residual k
    refine ⟨⟨_, (iqMove_bounds _ _).1, (iqMove_bounds _ _).2, ?_⟩, ⟨_, (iqMove_bounds _ _).1, (iqMove_bounds _ _).2, ?_⟩⟩
    · exact (State.getS_of_word (f := Reg.PATH.RX_IQ_TAP.re p.val k) hword).trans (hre.trans (by rw [State.getS_of_word (f := Reg.PATH.RX_IQ_TAP.re p.val k) hu]; rfl))
    · exact (State.getS_of_word (f := Reg.PATH.RX_IQ_TAP.im p.val k) hword).trans (him.trans (by rw [State.getS_of_word (f := Reg.PATH.RX_IQ_TAP.im p.val k) hu]; rfl))

/-- Settles O26: each loop moves its own values where nothing holds it. -/
theorem receiveLoops : Obligations.ReceiveLoops := ⟨claim_dcLoopMoves, claim_iqTracking⟩

end Sys2Proof.Machine
end

