-- ==== Sys2Proof/Proofs/Frames.lean ====
section
/-!
Which registers an operation can change, and what it leaves alone: rules for the operations that many units share.
-/

namespace Sys2Proof.Machine

open Sys2Proof

/-- Registers outside a set of addresses read as before. -/
def SameOff (A : Nat → Prop) (s u : State) : Prop := ∀ a, ¬ A a → u.word a = s.word a

section SameOff

variable {A : Nat → Prop} {s u v : State}

theorem SameOff.refl (s : State) : SameOff A s s := fun _ _ => rfl

theorem SameOff.trans (hsu : SameOff A s u) (huv : SameOff A u v) : SameOff A s v := fun a ha => (huv a ha).trans (hsu a ha)

theorem SameOff.of_regs (h : u.regs = s.regs) : SameOff A s u := fun a _ => by rw [State.word, h, State.word]

theorem SameOff.put (h : SameOff A s u) {f : Fld} (hf : A f.addr) (n : Nat) : SameOff A s (u.put f n) :=
  h.trans fun a ha => u.word_put_other (fun heq : f.addr = a => ha (heq ▸ hf)) n

theorem SameOff.ite (h1 : SameOff A s u) (h2 : SameOff A s v) {c : Prop} [Decidable c] : SameOff A s (if c then u else v) := by
  split
  · exact h1
  · exact h2

theorem SameOff.forEach {α : Type} {f : α → State → State} (h : SameOff A s u) (hf : ∀ a x, SameOff A x (f a x)) (l : List α) :
    SameOff A s (u.forEach l f) := by
  unfold State.forEach
  induction l generalizing u with
  | nil => exact h
  | cons a l ih => exact ih (h.trans (hf a u))

theorem SameOff.mono {B : Nat → Prop} (h : SameOff A s u) (hAB : ∀ a, A a → B a) : SameOff B s u := fun a ha => h a fun h' => ha (hAB a h')

theorem SameOff.get (h : SameOff A s u) {f : Fld} (hf : ¬ A f.addr) : u.get f = s.get f := by rw [State.get, State.get, h f.addr hf]

theorem SameOff.sameWords {l : List Nat} (h : SameOff (· ∈ l) s u) : SameWords s u l := h

end SameOff

theorem Fld.apart_of_addr {f g : Fld} (h : f.addr ≠ g.addr) : f.apart g = true := by simp [Fld.apart, h]

theorem State.get_put_elsewhere (s : State) {f g : Fld} (h : f.addr ≠ g.addr) (v : Nat) : (s.put f v).get g = s.get g := by
  rw [State.get, s.word_put_other h v, State.get]

/-- What every step of a `forEach` keeps, the whole keeps. -/
theorem State.forEach_induct {α : Type} {P : State → Prop} {f : α → State → State} {s : State} {l : List α} (h : P s)
    (hf : ∀ a ∈ l, ∀ x, P x → P (f a x)) : P (s.forEach l f) := by
  unfold State.forEach
  induction l generalizing s with
  | nil => exact h
  | cons a l ih => exact ih (hf a List.mem_cons_self s h) fun b hb => hf b (List.mem_cons_of_mem a hb)

/-! ### Bits of a field -/

theorem testBit_withBit (n i : Nat) (b : Bool) (j : Nat) : (withBit n i b).testBit j = if j = i then b else n.testBit j := by
  unfold withBit
  cases b with
  | true =>
    by_cases hj : j = i
    · simp [hj]
    · simp [hj, Nat.testBit_two_pow_of_ne (Ne.symm hj)]
  | false =>
    by_cases hbit : n.testBit i = true
    · have hmod : n % 2 ^ (i + 1) = n % 2 ^ i + 2 ^ i := by
        have hodd : n / 2 ^ i % 2 = 1 := by simpa [Nat.testBit_eq_decide_div_mod_eq] using hbit
        rw [Nat.mod_pow_succ, hodd, Nat.mul_one]
      have hdiv := Nat.div_add_mod n (2 ^ (i + 1))
      have hsub : n - 2 ^ i = 2 ^ (i + 1) * (n / 2 ^ (i + 1)) + n % 2 ^ i := by omega
      have hlt : n % 2 ^ i < 2 ^ (i + 1) := by have := Nat.mod_lt n (Nat.two_pow_pos i); rw [pow_succ]; omega
      rw [if_neg Bool.false_ne_true, if_pos hbit, hsub, Nat.testBit_two_pow_mul_add _ hlt, Nat.testBit_mod_two_pow, Nat.testBit_div_two_pow]
      rcases lt_trichotomy j i with hj | rfl | hj
      · simp [hj, Nat.lt_succ_of_lt hj, Nat.ne_of_lt hj]
      · simp
      · have h1 : ¬ j < i + 1 := by omega
        have h2 : j - (i + 1) + (i + 1) = j := by omega
        simp [h1, h2, Nat.ne_of_gt hj]
    · rw [if_neg Bool.false_ne_true, if_neg hbit]
      by_cases hj : j = i
      · simpa [hj] using hbit
      · rw [if_neg hj]

/-! ### Records of the event log -/

/-- The registers that a record can change. -/
def recordWords (a : Nat) : Prop :=
  a ∈ [Reg.HOST.INT_STATUS.fault.addr, Reg.RECOVERY.LOG_HEAD.word.addr, Reg.RECOVERY.FAULTS.word.addr, Reg.RECOVERY.KEEP_LOST.word.addr]

theorem SameOff.notice {A : Nat → Prop} {s u : State} (h : SameOff A s u) (hA : A Reg.HOST.INT_STATUS.fault.addr) (k : Notice) :
    SameOff A s (u.notice k) := (h.put (f := ⟨_, k.bit, 1⟩) hA 1).trans (.of_regs rfl)

theorem sameOff_keepLog (s : State) (r : LogRecord) : SameOff recordWords s (s.keepLog r) := by
  unfold State.keepLog
  split
  · exact .of_regs rfl
  · exact (SameOff.refl s).put (f := Reg.RECOVERY.KEEP_LOST.word) (by simp [recordWords]) _

theorem sameOff_writeRecord (s : State) (x : Rec) : SameOff recordWords s (s.writeRecord x) := by
  have hhead {l : List LogRecord} {n : Nat} : SameOff recordWords s (({ s with log := l } : State).put Reg.RECOVERY.LOG_HEAD.word n) :=
    SameOff.put (u := { s with log := l }) (.of_regs rfl) (by simp [recordWords]) n
  unfold State.writeRecord
  cases x.kind with
  | fault =>
    refine SameOff.trans ?_ (sameOff_keepLog _ _)
    exact .ite (hhead.put (f := Reg.RECOVERY.FAULTS.word) (by simp [recordWords]) _) hhead
  | retention | wedged => exact hhead.trans (sameOff_keepLog _ _)
  | _ => exact hhead

theorem sameOff_record (s : State) (x : Rec) : SameOff recordWords s (s.record x) :=
  (sameOff_writeRecord s x).notice (by simp [recordWords]) _

/-- Two states that differ at most in the log, what is kept of it, the registers, the timers and the sessions. -/
def LogApart (s u : State) : Prop := ∃ regs keep log timers sessions,
  u = { s with regs := regs, keep := keep, log := log, timers := timers, sessions := sessions }

theorem LogApart.trans {s u v : State} (hsu : LogApart s u) (huv : LogApart u v) : LogApart s v := by
  obtain ⟨_, _, _, _, _, rfl⟩ := hsu
  obtain ⟨_, _, _, _, _, rfl⟩ := huv
  exact ⟨_, _, _, _, _, rfl⟩

theorem logApart_put (s : State) (f : Fld) (n : Nat) : LogApart s (s.put f n) := ⟨_, _, _, _, _, rfl⟩

theorem logApart_keepLog (s : State) (r : LogRecord) : LogApart s (s.keepLog r) := by
  unfold State.keepLog
  split
  · exact ⟨_, _, _, _, _, rfl⟩
  · exact logApart_put ..

theorem logApart_record (s : State) (x : Rec) : LogApart s (s.record x) := by
  have hhead {l : List LogRecord} {n : Nat} : LogApart s (({ s with log := l } : State).put Reg.RECOVERY.LOG_HEAD.word n) := ⟨_, _, _, _, _, rfl⟩
  have hwritten : LogApart s (s.writeRecord x) := by
    unfold State.writeRecord
    cases x.kind with
    | fault =>
      refine LogApart.trans ?_ (logApart_keepLog _ _)
      cases hm : x.missed == 0
      · exact hhead
      · exact hhead.trans (logApart_put ..)
    | retention | wedged => exact hhead.trans (logApart_keepLog _ _)
    | _ => exact hhead
  exact hwritten.trans ⟨_, _, _, _, _, rfl⟩

@[simp] theorem State.now_record (s : State) (x : Rec) : (s.record x).now = s.now := by obtain ⟨_, _, _, _, _, h⟩ := logApart_record s x; rw [h]
@[simp] theorem State.mem_record (s : State) (x : Rec) : (s.record x).mem = s.mem := by obtain ⟨_, _, _, _, _, h⟩ := logApart_record s x; rw [h]
@[simp] theorem State.out_record (s : State) (x : Rec) : (s.record x).out = s.out := by obtain ⟨_, _, _, _, _, h⟩ := logApart_record s x; rw [h]
@[simp] theorem State.radio_record (s : State) (x : Rec) : (s.record x).radio = s.radio := by obtain ⟨_, _, _, _, _, h⟩ := logApart_record s x; rw [h]
@[simp] theorem State.clock_record (s : State) (x : Rec) : (s.record x).clock = s.clock := by obtain ⟨_, _, _, _, _, h⟩ := logApart_record s x; rw [h]
@[simp] theorem State.txn_record (s : State) (x : Rec) : (s.record x).txn = s.txn := by obtain ⟨_, _, _, _, _, h⟩ := logApart_record s x; rw [h]
@[simp] theorem State.carriers_record (s : State) (x : Rec) : (s.record x).carriers = s.carriers := by obtain ⟨_, _, _, _, _, h⟩ := logApart_record s x; rw [h]
@[simp] theorem State.chans_record (s : State) (x : Rec) : (s.record x).chans = s.chans := by obtain ⟨_, _, _, _, _, h⟩ := logApart_record s x; rw [h]
@[simp] theorem State.image_record (s : State) (x : Rec) : (s.record x).image = s.image := by obtain ⟨_, _, _, _, _, h⟩ := logApart_record s x; rw [h]
@[simp] theorem State.boot_record (s : State) (x : Rec) : (s.record x).boot = s.boot := by obtain ⟨_, _, _, _, _, h⟩ := logApart_record s x; rw [h]
@[simp] theorem State.halls_record (s : State) (x : Rec) : (s.record x).halls = s.halls := by obtain ⟨_, _, _, _, _, h⟩ := logApart_record s x; rw [h]

end Sys2Proof.Machine
end

