-- ==== Sys2Proof/Proofs/PathMuting.lean ====
section
/-!
Blanking (R143 to R145) and the retirement of a path (R178).
-/

namespace Sys2Proof.Machine

open Sys2Proof

/-! ### Mute reasons -/

/-- A mute reason is set or cleared for one path; the other reasons and the other paths stay. -/
theorem State.testBit_mutes_setMute (s : State) (p i : Nat) (on : Bool) (q : Nat) {j : Nat} (hj : j < 8) :
    ((s.setMute p i on).mutes q).testBit j = if q = p ∧ j = i then on else (s.mutes q).testBit j := by
  unfold State.setMute
  split
  next heq =>
    split
    next h =>
      obtain ⟨rfl, rfl⟩ := h
      simpa using heq
    next => rfl
  next =>
    by_cases hq : q = p
    · subst hq
      rw [State.mutes, State.putBit, State.get_put_same _ rfl, Nat.testBit_mod_two_pow, testBit_withBit]
      simp [hj, State.mutes]
    · rw [State.mutes, State.putBit, State.get_put_apart _ rfl (Fld.apart_of_addr (by dsimp only; omega)), if_neg (by simp [hq])]
      rfl

theorem State.setMute_shape (s : State) (p i : Nat) (on : Bool) : ∃ n, s.setMute p i on = s ∨ s.setMute p i on = s.put (Reg.PATH.STATUS.mute_reasons p) n := by
  unfold State.setMute
  split
  · exact ⟨0, .inl rfl⟩
  · exact ⟨_, .inr rfl⟩

theorem State.get_setMute_apart (s : State) (p i : Nat) (on : Bool) {f : Fld} (h : (Reg.PATH.STATUS.mute_reasons p).apart f = true) :
    (s.setMute p i on).get f = s.get f := by
  obtain ⟨n, h1 | h1⟩ := s.setMute_shape p i on <;> rw [h1]
  exact State.get_put_apart s rfl h n

theorem SameOff.setMute {A : Nat → Prop} {s u : State} (h : SameOff A s u) {p : Nat} (hA : A (Reg.PATH.STATUS.word p).addr) (i : Nat) (on : Bool) :
    SameOff A s (u.setMute p i on) := by
  obtain ⟨n, h1 | h1⟩ := u.setMute_shape p i on <;> rw [h1]
  · exact h
  · exact h.put (f := Reg.PATH.STATUS.mute_reasons p) hA n

@[simp] theorem State.radio_setMute (s : State) (p i : Nat) (on : Bool) : (s.setMute p i on).radio = s.radio := by
  unfold State.setMute
  split <;> rfl
@[simp] theorem State.mem_setMute (s : State) (p i : Nat) (on : Bool) : (s.setMute p i on).mem = s.mem := by
  unfold State.setMute
  split <;> rfl
@[simp] theorem State.out_setMute (s : State) (p i : Nat) (on : Bool) : (s.setMute p i on).out = s.out := by
  unfold State.setMute
  split <;> rfl

/-! ### The end of a calibration -/

/-- The registers that the end of a calibration of path `p` can change. -/
def calWords (p a : Nat) : Prop := a = (Reg.PATH.STATUS.word p).addr ∨ a = (Reg.PATH.CAL_STATUS.word p).addr

/-- What the end of a calibration of path `p` leaves: the other registers, the state and the other mute reasons, the other paths. -/
structure CalEnds (p : Nat) (s u : State) : Prop where
  words : SameOff (calWords p) s u
  state : s.pathState p ≠ pathCal → u.pathState p = s.pathState p
  cause : u.get (Reg.PATH.STATUS.retire_cause p) = s.get (Reg.PATH.STATUS.retire_cause p)
  mutes : ∀ j < 8, j ≠ muteCal → (u.mutes p).testBit j = (s.mutes p).testBit j
  mem : u.mem = s.mem
  blank : u.radio.blank = s.radio.blank
  others : ∀ q, q ≠ p → u.path q = s.path q
  clock : u.clock = s.clock
  quiet : (s.path p).cal = none → u = s

theorem CalEnds.refl (p : Nat) (s : State) : CalEnds p s s :=
  ⟨.refl s, fun _ => rfl, rfl, fun _ _ _ => rfl, rfl, rfl, fun _ _ => rfl, rfl, fun _ => rfl⟩

theorem SameOff.calReport {A : Nat → Prop} {s u : State} {p : Nat} (h : SameOff A s u) (hA : A (Reg.PATH.CAL_STATUS.word p).addr)
    (result precond code : Nat) (lost : Bool) : SameOff A s (u.calReport p result precond code lost) :=
  ((((h.put (f := Reg.PATH.CAL_STATUS.result p) hA _).put (f := Reg.PATH.CAL_STATUS.precond p) hA _).put
    (f := Reg.PATH.CAL_STATUS.last p) hA _).put (f := Reg.PATH.CAL_STATUS.lost_midway p) hA _).put (f := Reg.PATH.CAL_STATUS.done p) hA _

/-- The path's registers once its calibration is over, but for its mute. -/
def State.calHalted (s : State) (p : Nat) : State :=
  let x := ((s.modPath p fun x => { x with cal := none }).put (Reg.PATH.CAL_STATUS.queued p) 0).put (Reg.PATH.CAL_STATUS.running p) 0
  if x.pathState p == pathCal then x.put (Reg.PATH.STATUS.state p) pathOut else x

theorem State.calClear_shape (s : State) (p : Nat) : ∃ l, s.calClear p =
    { ((s.calHalted p).setMute p muteCal false).disarm (.cal p) with out := s.out ++ l } := by
  have hout : (s.calHalted p).out = s.out := by unfold State.calHalted; dsimp only; split <;> rfl
  unfold State.calClear
  dsimp only
  split
  · exact ⟨[_], by rw [← hout, ← State.out_setMute (s.calHalted p) p muteCal false]; rfl⟩
  · exact ⟨[], by rw [List.append_nil, ← hout, ← State.out_setMute (s.calHalted p) p muteCal false]; rfl⟩

theorem SameOff.calHalted {A : Nat → Prop} {s u : State} {p : Nat} (h : SameOff A s u) (hst : A (Reg.PATH.STATUS.word p).addr)
    (hcal : A (Reg.PATH.CAL_STATUS.word p).addr) : SameOff A s (u.calHalted p) := by
  have h1 : SameOff A s (((u.modPath p fun x => { x with cal := none }).put (Reg.PATH.CAL_STATUS.queued p) 0).put
      (Reg.PATH.CAL_STATUS.running p) 0) :=
    ((h.trans (.of_regs rfl)).put (f := Reg.PATH.CAL_STATUS.queued p) hcal 0).put (f := Reg.PATH.CAL_STATUS.running p) hcal 0
  unfold State.calHalted
  dsimp only
  split
  · exact h1.put (f := Reg.PATH.STATUS.state p) hst _
  · exact h1

/-- The halves of the status of a path that a calibration's own register does not hold. -/
theorem State.get_calHalted (s : State) (p : Nat) {f : Fld} (haddr : f.addr = (Reg.PATH.STATUS.word p).addr) :
    (s.calHalted p).get f = s.get f ∨
      s.pathState p = pathCal ∧ ∃ u : State, u.get f = s.get f ∧ s.calHalted p = u.put (Reg.PATH.STATUS.state p) pathOut := by
  have hne {g : Fld} (hg : g.addr = (Reg.PATH.CAL_STATUS.word p).addr) : g.addr ≠ (Reg.PATH.STATUS.word p).addr := by
    rw [hg]; dsimp only; omega
  have hget {g : Fld} (hg : g.addr = (Reg.PATH.STATUS.word p).addr) :
      (((s.modPath p fun x => { x with cal := none }).put (Reg.PATH.CAL_STATUS.queued p) 0).put (Reg.PATH.CAL_STATUS.running p) 0).get g = s.get g :=
    (State.get_put_elsewhere _ (hg ▸ hne rfl) 0).trans (State.get_put_elsewhere _ (hg ▸ hne rfl) 0)
  unfold State.calHalted
  dsimp only
  split
  next h => exact .inr ⟨(hget (g := Reg.PATH.STATUS.state p) rfl).symm.trans (eq_of_beq h), _, hget haddr, rfl⟩
  next => exact .inl (hget haddr)

theorem State.calHalted_leaves (s : State) (p : Nat) : (s.calHalted p).mem = s.mem ∧
    (s.calHalted p).radio = (s.modPath p fun x => { x with cal := none }).radio ∧ (s.calHalted p).clock = s.clock := by
  unfold State.calHalted
  dsimp only
  split <;> exact ⟨rfl, rfl, rfl⟩

/-- The end of a calibration that is queued or runs, with its report. -/
theorem calEnds_report {s : State} {p : Nat} {r : CalRun} (hcal : (s.path p).cal = some r) (result precond code : Nat) (lost : Bool) :
    CalEnds p s ((s.calClear p).calReport p result precond code lost) ∧
      (((s.calClear p).calReport p result precond code lost).path p).cal = none := by
  obtain ⟨l, hl⟩ := s.calClear_shape p
  obtain ⟨hmem, hradio, hclock⟩ := s.calHalted_leaves p
  have hp : p < s.radio.paths.length := by
    by_contra hge
    rw [State.path, List.getD_eq_default _ _ (Nat.le_of_not_lt hge)] at hcal
    cases hcal
  have hwords : SameOff (calWords p) s (s.calClear p) := by
    rw [hl]
    exact (((SameOff.refl s).calHalted (.inl rfl) (.inr rfl)).setMute (.inl rfl) _ _).trans (.of_regs rfl)
  have hreport {f : Fld} (hf : f.addr = (Reg.PATH.STATUS.word p).addr) :
      ((s.calClear p).calReport p result precond code lost).get f = (s.calClear p).get f :=
    (SameOff.calReport (A := (· = (Reg.PATH.CAL_STATUS.word p).addr)) (.refl _) rfl _ _ _ _).get (by rw [hf]; dsimp only; omega)
  have hclear {f : Fld} (hf : (Reg.PATH.STATUS.mute_reasons p).apart f = true) : (s.calClear p).get f = (s.calHalted p).get f := by
    rw [hl]
    exact State.get_setMute_apart _ p muteCal false hf
  have hpath : (s.calClear p).radio = (s.modPath p fun x => { x with cal := none }).radio := by
    rw [hl]
    exact (State.radio_setMute ..).trans hradio
  refine ⟨⟨hwords.calReport (.inr rfl) _ _ _ _, fun hst => ?_, ?_, fun j hj hne => ?_, ?_, ?_, fun q hq => ?_, ?_, fun h => ?_⟩, ?_⟩
  · rw [State.pathState, hreport (f := Reg.PATH.STATUS.state p) rfl, hclear (by simp [Fld.apart])]
    obtain h | ⟨h, -⟩ := s.get_calHalted p (f := Reg.PATH.STATUS.state p) rfl
    · exact h
    · exact absurd h hst
  · rw [hreport (f := Reg.PATH.STATUS.retire_cause p) rfl, hclear (by simp [Fld.apart])]
    obtain h | ⟨-, u, hu, h⟩ := s.get_calHalted p (f := Reg.PATH.STATUS.retire_cause p) rfl
    · exact h
    · rw [h, State.get_put_apart _ rfl (by simp [Fld.apart]), hu]
  · have hmute : (s.calHalted p).mutes p = s.mutes p := by
      obtain h | ⟨-, u, hu, h⟩ := s.get_calHalted p (f := Reg.PATH.STATUS.mute_reasons p) rfl
      · exact h
      · rw [State.mutes, h, State.get_put_apart _ rfl (by simp [Fld.apart]), hu]
        rfl
    have hset := (s.calHalted p).testBit_mutes_setMute p muteCal false p hj
    rw [if_neg (fun h => hne h.2), hmute] at hset
    rw [State.mutes, hreport (f := Reg.PATH.STATUS.mute_reasons p) rfl, hl]
    exact hset
  · rw [← hmem, ← State.mem_setMute (s.calHalted p) p muteCal false]
    show (s.calClear p).mem = _
    rw [hl]
    rfl
  · exact congrArg (·.blank) hpath
  · show (s.calClear p).path q = _
    rw [State.path, hpath]
    exact State.path_modPath_other s hq _
  · show (s.calClear p).clock = _
    rw [hl, ← hclock]
    obtain ⟨n, h | h⟩ := (s.calHalted p).setMute_shape p muteCal false <;> rw [h] <;> rfl
  · rw [hcal] at h
    cases h
  · show ((s.calClear p).path p).cal = none
    rw [State.path, hpath]
    exact congrArg (·.cal) (State.path_modPath_same hp _)

theorem calEnds_calLost (s : State) (p precond : Nat) : CalEnds p s (s.calLost p precond) := by
  unfold State.calLost
  cases hcal : (s.path p).cal with
  | none => exact .refl p s
  | some r =>
    dsimp only
    split
    · exact (calEnds_report hcal ..).1
    · exact .refl p s

/-- The retirement of a path ends its calibration, but for that of its group's observation receiver. -/
theorem calEnds_calRefuse (s : State) (p : Nat) : CalEnds p s (s.calRefuse p 2) ∧
    ((∀ r, (s.path p).cal = some r → r.code ≠ calObs) → ((s.calRefuse p 2).path p).cal = none) := by
  unfold State.calRefuse
  cases hcal : (s.path p).cal with
  | none => exact ⟨.refl p s, fun _ => hcal⟩
  | some r =>
    have hchecks (h : ∀ r', some r = some r' → r'.code ≠ calObs) : calChecks r.code 2 = true := by
      have hne : r.code ≠ 5 := h r rfl
      simp [calChecks, hne]
    dsimp only
    split
    next hrun =>
      refine ⟨calEnds_calLost s p 2, fun h => ?_⟩
      rw [State.calLost, hcal]
      dsimp only
      rw [if_pos (by rw [hrun, hchecks h]; rfl)]
      exact (calEnds_report hcal ..).2
    next =>
      split
      · exact ⟨(calEnds_report hcal ..).1, fun _ => (calEnds_report hcal ..).2⟩
      next h => exact ⟨.refl p s, fun hcode => absurd (hchecks hcode) h⟩

/-! ### Retirement -/

theorem State.retire_of_retired {s : State} {p : Nat} (h : s.pathState p = pathRetired) (cause : Nat) : s.retire p cause = s :=
  if_pos (beq_iff_eq.2 h)

/-- A path that retires, before its recovery is recorded or awaits its slot. -/
def State.retiring (s : State) (p cause : Nat) : State :=
  (((s.put (Reg.PATH.STATUS.retire_cause p) cause).put (Reg.PATH.STATUS.state p) pathRetired).setMute p muteRetired true).calRefuse p 2

/-- The registers that the record of a retirement can change. -/
def retireWords (p a : Nat) : Prop := calWords p a ∨ recordWords a

/-- What the retirement of path `p` does to the path, and what it leaves. -/
structure Retired (p cause : Nat) (s u : State) : Prop where
  words : SameOff (retireWords p) s u
  state : u.pathState p = pathRetired
  shown : u.get (Reg.PATH.STATUS.retire_cause p) = cause % 16
  muted : (u.mutes p).testBit muteRetired = true
  cal : (∀ r, (s.path p).cal = some r → r.code ≠ calObs) → (u.path p).cal = none
  mem : u.mem = s.mem
  quiet : (s.path p).cal = none → u.out = s.out

theorem retired_retiring (s : State) (p cause : Nat) : Retired p cause s (s.retiring p cause) := by
  have hput : SameOff (calWords p) s ((s.put (Reg.PATH.STATUS.retire_cause p) cause).put (Reg.PATH.STATUS.state p) pathRetired) :=
    ((SameOff.refl s).put (f := Reg.PATH.STATUS.retire_cause p) (.inl rfl) _).put (f := Reg.PATH.STATUS.state p) (.inl rfl) _
  have hstate : (((s.put (Reg.PATH.STATUS.retire_cause p) cause).put (Reg.PATH.STATUS.state p) pathRetired).setMute p muteRetired
      true).pathState p = pathRetired := by
    rw [State.pathState, State.get_setMute_apart _ _ _ _ (by simp [Fld.apart]), State.get_put_same _ rfl]
    rfl
  obtain ⟨hends, hover⟩ := calEnds_calRefuse
    (((s.put (Reg.PATH.STATUS.retire_cause p) cause).put (Reg.PATH.STATUS.state p) pathRetired).setMute p muteRetired true) p
  have hpath : (((s.put (Reg.PATH.STATUS.retire_cause p) cause).put (Reg.PATH.STATUS.state p) pathRetired).setMute p muteRetired
      true).path p = s.path p := by rw [State.path, State.radio_setMute]; rfl
  rw [hpath] at hover
  refine ⟨((hput.setMute (.inl rfl) _ _).trans hends.words).mono fun _ => .inl, ?_, ?_, ?_, hover, ?_, fun h => ?_⟩
  · exact (hends.state (by rw [hstate]; decide)).trans hstate
  · refine hends.cause.trans ?_
    rw [State.get_setMute_apart _ _ _ _ (by simp [Fld.apart]), State.get_put_apart _ rfl (by simp [Fld.apart]), State.get_put_same _ rfl]
    rfl
  · refine (hends.mutes muteRetired (by decide) (by decide)).trans ?_
    rw [State.testBit_mutes_setMute _ _ _ _ _ (by decide), if_pos ⟨rfl, rfl⟩]
  · exact hends.mem.trans (State.mem_setMute ..)
  · rw [State.retiring, hends.quiet (hpath ▸ h)]
    exact State.out_setMute ..

theorem Retired.modPath {p cause : Nat} {s u : State} (h : Retired p cause s u) {f : PathState → PathState} (hf : ∀ x, (f x).cal = x.cal) :
    Retired p cause s (u.modPath p f) where
  words := h.words.trans (.of_regs rfl)
  state := h.state
  shown := h.shown
  muted := h.muted
  cal hcode := by
    have hcal := h.cal hcode
    by_cases hp : p < u.radio.paths.length
    · rw [State.path_modPath_same hp, hf, hcal]
    · rw [State.path, List.getD_eq_default _ _ (by simpa [State.modPath] using Nat.le_of_not_lt hp)]
      rfl
  mem := h.mem
  quiet := h.quiet

theorem Retired.of_record {p cause : Nat} {s u v : State} (h : Retired p cause s u) (hwords : SameOff recordWords u v) (hradio : v.radio = u.radio)
    (hmem : v.mem = u.mem) (hout : v.out = u.out) : Retired p cause s v := by
  have hget {f : Fld} (hf : f.addr = (Reg.PATH.STATUS.word p).addr) : v.get f = u.get f :=
    hwords.get (by rw [hf]; simp only [recordWords, List.mem_cons, List.not_mem_nil, or_false]; omega)
  refine ⟨h.words.trans (hwords.mono fun _ => .inr), (hget (f := Reg.PATH.STATUS.state p) rfl).trans h.state,
    (hget (f := Reg.PATH.STATUS.retire_cause p) rfl).trans h.shown, ?_, fun hc => ?_, hmem.trans h.mem, fun hc => hout.trans (h.quiet hc)⟩
  · rw [State.mutes, hget (f := Reg.PATH.STATUS.mute_reasons p) rfl]
    exact h.muted
  · rw [State.path, hradio]
    exact h.cal hc

theorem Retired.internalAt {p cause : Nat} {s u : State} (h : Retired p cause s u) (a : Nat) (l : List Effect) :
    Retired p cause s (u.internalAt a l) := h.of_record (.of_regs rfl) rfl rfl rfl

theorem retired_retire {s : State} {p : Nat} (h : s.pathState p ≠ pathRetired) (cause : Nat) : Retired p cause s (s.retire p cause) := by
  have hretiring := retired_retiring s p cause
  unfold State.retire
  rw [if_neg (by simpa using h)]
  dsimp only
  split
  · refine (hretiring.modPath (f := fun x => { x with failedAt := none, failedIn := false, failedSyms := 0, excluded := List.range 8 })
      fun _ => rfl).of_record ((sameOff_record _ _).notice (by simp [recordWords]) _) ?_ ?_ ?_
    · exact State.radio_record ..
    · exact State.mem_record ..
    · exact State.out_record ..
  · refine (hretiring.modPath ?_).internalAt _ _
    exact fun _ => rfl

theorem claim_retirement : Claim.Retirement := by
  intro s t ch p cause hpaths
  have hfault : Gives (.pathFault t p cause) s (if cause.val = 0 || (cause.val = 4 && !(s.atTime t).loDelivers (bankOf p.val)) then s.atTime t
      else (s.atTime t).retire p.val cause.val) := rfl
  refine ⟨fun h => hfault.of_eq (if_pos ?_), fun c hc hreach hcause hdeliver => ?_⟩
  · rcases h with rfl | ⟨rfl, h⟩
    · rfl
    · simp [show (s.atTime t).loDelivers (bankOf p.val) = false from h]
  · have hg : Gives c.1 s ((s.atTime t).retire p.val c.2) := by
      simp only [List.mem_cons, List.not_mem_nil, or_false] at hc
      rcases hc with rfl | rfl
      · exact gives_hostCmd (f := fun s => s.retire p.val 6) (hreach rfl) rfl
      · refine hfault.of_eq (if_neg ?_)
        by_cases h4 : cause = 4
        · simp [h4, show (s.atTime t).loDelivers (bankOf p.val) = true from hdeliver rfl h4]
        · have : cause.val ≠ 4 := fun h => h4 (Fin.ext h)
          simp [this, hcause]
    have hlt : c.2 < 16 := by
      simp only [List.mem_cons, List.not_mem_nil, or_false] at hc
      rcases hc with rfl | rfl <;> dsimp only <;> omega
    refine ⟨fun h => hg.of_eq (State.retire_of_retired (s := s.atTime t) h _), fun h => ⟨_, hg, ?_⟩⟩
    have hret := retired_retire (s := s.atTime t) h c.2
    refine ⟨hret.state, hret.shown.trans (Nat.mod_eq_of_lt hlt), hret.muted, ?_, ?_, hret.cal, hret.mem, hret.quiet, fun q hq hne => ?_⟩
    · simp [State.trHigh, State.asOf, State.inService, hret.state, pathRetired, pathIn]
    · simp [State.rxValid, State.asOf, hret.state]
    · refine hret.words _ ?_
      simp only [retireWords, calWords, recordWords, List.mem_cons, List.not_mem_nil, or_false]
      omega

/-! ### Blanking -/

/-- The registers that blanking can change. -/
def blankWords (a : Nat) : Prop := a % 0x1000 = 0x4 ∨ a % 0x1000 = 0x1C ∨ a % 0x1000 = 0x20

/-- What a step of blanking leaves: the inputs, the actions of every group, memory, and every output but those of a calibration that ends. -/
structure BlankKeeps (s u : State) : Prop where
  words : SameOff blankWords s u
  blank : u.radio.blank = s.radio.blank
  mem : u.mem = s.mem
  quiet : (∀ p, p < 64 → (s.path p).cal = none) → u.out = s.out ∧ ∀ p, p < 64 → (u.path p).cal = none

theorem BlankKeeps.refl (s : State) : BlankKeeps s s := ⟨.refl s, rfl, rfl, fun h => ⟨rfl, h⟩⟩

theorem BlankKeeps.trans {s u v : State} (hsu : BlankKeeps s u) (huv : BlankKeeps u v) : BlankKeeps s v :=
  ⟨hsu.words.trans huv.words, huv.blank.trans hsu.blank, huv.mem.trans hsu.mem, fun h =>
    ⟨(huv.quiet (hsu.quiet h).2).1.trans (hsu.quiet h).1, (huv.quiet (hsu.quiet h).2).2⟩⟩

theorem BlankKeeps.ite {s u v : State} (hu : BlankKeeps s u) (hv : BlankKeeps s v) {c : Prop} [Decidable c] : BlankKeeps s (if c then u else v) := by
  split
  · exact hu
  · exact hv

theorem BlankKeeps.forEach {α : Type} {s u : State} (h : BlankKeeps s u) {f : α → State → State} {l : List α}
    (hf : ∀ a ∈ l, ∀ x, BlankKeeps x (f a x)) : BlankKeeps s (u.forEach l f) := by
  unfold State.forEach
  induction l generalizing u with
  | nil => exact h
  | cons a l ih => exact ih (h.trans (hf a List.mem_cons_self u)) fun b hb => hf b (List.mem_cons_of_mem a hb)

/-- The actions of every group are those before. -/
theorem BlankKeeps.blankOf {s u : State} (h : BlankKeeps s u) (g : Nat) : u.blankOf g = s.blankOf g := by
  rw [State.blankOf, State.blankOf, h.blank, h.words.get (f := Reg.GROUP.BLANK_CTL.actions g) (by simp only [blankWords]; omega)]

/-- Every path is muted for blanking as before. -/
def BlankBits (s u : State) : Prop := ∀ p, (u.mutes p).testBit muteBlank = (s.mutes p).testBit muteBlank

theorem blankBits_of_words {s u : State} {A : Nat → Prop} (h : SameOff A s u) (hA : ∀ p, ¬ A (Reg.PATH.STATUS.word p).addr) : BlankBits s u :=
  fun p => congrArg (·.testBit muteBlank) (h.get (f := Reg.PATH.STATUS.mute_reasons p) (hA p))

theorem CalEnds.blankKeeps {p : Nat} {s u : State} (hp : p < 64) (h : CalEnds p s u) : BlankKeeps s u := by
  refine ⟨h.words.mono fun a ha => ?_, h.blank, h.mem, fun hnone => ?_⟩
  · rcases ha with rfl | rfl <;> simp only [blankWords] <;> omega
  · rw [h.quiet (hnone p hp)]
    exact ⟨rfl, hnone⟩

theorem CalEnds.blankBits {p : Nat} {s u : State} (h : CalEnds p s u) : BlankBits s u := by
  intro q
  by_cases hq : q = p
  · rw [hq]
    exact h.mutes muteBlank (by decide) (by decide)
  · rw [State.mutes, h.words.get (f := Reg.PATH.STATUS.mute_reasons q) (by simp only [calWords]; omega)]
    rfl

/-- One path of a group follows its blanking: `b` before, `a` now. -/
def State.blankPath (b a : Bool × Bool) (p : Nat) (s : State) : State :=
  let s := s.setMute p muteBlank a.1
  let s := if b.2 && !a.2 then
      s.modPath p fun x => { x with dcUntil := max x.dcUntil (s.now + ticksOfUs 1), iqUntil := max x.iqUntil (s.now + ticksOfUs 1) }
    else s
  if !(b.1 || b.2) && (a.1 || a.2) then s.calLost p 7 else s

/-- What a group's counters, its stamp and its spans record of its blanking. -/
def State.blankNoted (b : Bool × Bool) (g : Nat) (s : State) : State :=
  let a := s.blankOf g
  let s := s.countBlanked g (a.1 || b.1) (a.2 || b.2)
  let s := if a.1 || a.2 || b.1 || b.2 then
      let stamp := some s.arrayNow
      { s with radio := { s.radio with blankedAt := s.radio.blankedAt.set g stamp } }
    else s
  let edge := s.arrayNow + ticksOfNs 100
  if !b.2 && a.2 then
    { s with radio := { s.radio with blankSpans := s.radio.blankSpans ++ [(g, edge, none)] } }
  else if b.2 && !a.2 then
    { s with radio := { s.radio with blankSpans := s.radio.blankSpans.map fun x =>
        if x.1 == g && x.2.2.isNone then (g, x.2.1, some edge) else x } }
  else s

/-- One group follows its blanking. -/
def State.blankGroup (before : Nat → Bool × Bool) (g : Nat) (s : State) : State :=
  (s.blankNoted (before g) g).forEach (groupPaths g) (State.blankPath (before g) (s.blankOf g))

theorem State.blankFollow_eq (s before : State) : s.blankFollow before = s.forEach (List.range 8) (State.blankGroup before.blankOf) := rfl

/-- A change that only the counters of a group's blanked symbols and the records of its blanking can see. -/
def BlankSees (s u : State) : Prop := BlankKeeps s u ∧ BlankBits s u

theorem BlankSees.refl (s : State) : BlankSees s s := ⟨.refl s, fun _ => rfl⟩

theorem BlankSees.trans {s u v : State} (hsu : BlankSees s u) (huv : BlankSees u v) : BlankSees s v :=
  ⟨hsu.1.trans huv.1, fun p => (huv.2 p).trans (hsu.2 p)⟩

theorem BlankSees.ite {s u v : State} (hu : BlankSees s u) (hv : BlankSees s v) {c : Prop} [Decidable c] : BlankSees s (if c then u else v) := by
  split
  · exact hu
  · exact hv

theorem BlankSees.forEach {α : Type} {s u : State} (h : BlankSees s u) {f : α → State → State} (hf : ∀ a x, BlankSees x (f a x)) (l : List α) :
    BlankSees s (u.forEach l f) := by
  unfold State.forEach
  induction l generalizing u with
  | nil => exact h
  | cons a l ih => exact ih (h.trans (hf a u))

/-- A change of the radio's records alone. -/
theorem blankSees_radio {s u : State} (hregs : u.regs = s.regs) (hblank : u.radio.blank = s.radio.blank) (hpaths : ∀ p, (u.path p).cal = (s.path p).cal)
    (hmem : u.mem = s.mem) (hout : u.out = s.out) : BlankSees s u :=
  ⟨⟨.of_regs hregs, hblank, hmem, fun h => ⟨hout, fun p hp => (hpaths p).trans (h p hp)⟩⟩,
    blankBits_of_words (A := fun _ => False) (.of_regs hregs) fun _ h => h⟩

theorem blankSees_addTo (s : State) {f : Fld} (hf : f.addr % 0x1000 = 0x1C ∨ f.addr % 0x1000 = 0x20) (n : Nat) : BlankSees s (s.addTo f n) := by
  refine ⟨⟨(SameOff.refl s).put (f := f) (.inr hf) _, rfl, rfl, fun h => ⟨rfl, h⟩⟩, ?_⟩
  refine blankBits_of_words (SameOff.put (A := (· = f.addr)) (.refl s) rfl _) fun p => ?_
  dsimp only
  omega

theorem blankSees_countBlanked (s : State) (g : Nat) (tx rx : Bool) : BlankSees s (s.countBlanked g tx rx) := by
  have htx (c n : Nat) (x : State) : BlankSees x (x.countBlankTx g c n) := by
    unfold State.countBlankTx
    dsimp only
    refine .ite (.refl x) ?_
    exact BlankSees.trans (u := { x with radio := { x.radio with blankTx := assocSet x.radio.blankTx (8 * g + c) n } })
      (blankSees_radio rfl rfl (fun _ => rfl) rfl rfl) (blankSees_addTo _ (f := Reg.GROUP.BLANK_TX_SYM.word g) (.inl (by dsimp only; omega)) _)
  have hrx (c n : Nat) (x : State) : BlankSees x (x.countBlankRx g c n) := by
    unfold State.countBlankRx
    dsimp only
    refine .ite (.refl x) ?_
    exact BlankSees.trans (u := { x with radio := { x.radio with blankRx := assocSet x.radio.blankRx (8 * g + c) n } })
      (blankSees_radio rfl rfl (fun _ => rfl) rfl rfl) (blankSees_addTo _ (f := Reg.GROUP.BLANK_RX_SYM.word g) (.inr (by dsimp only; omega)) _)
  refine BlankSees.forEach (.refl s) (fun c x => ?_) _
  dsimp only
  exact .ite (.trans (.ite (htx ..) (.refl x)) (hrx ..)) (.ite (htx ..) (.refl x))

theorem blankSees_blankNoted (b : Bool × Bool) (g : Nat) (s : State) : BlankSees s (s.blankNoted b g) := by
  have hcount := blankSees_countBlanked s g ((s.blankOf g).1 || b.1) ((s.blankOf g).2 || b.2)
  unfold State.blankNoted
  dsimp only
  generalize s.countBlanked g ((s.blankOf g).1 || b.1) ((s.blankOf g).2 || b.2) = u at hcount ⊢
  have hstamp : BlankSees s (if (s.blankOf g).1 || (s.blankOf g).2 || b.1 || b.2 then
      { u with radio := { u.radio with blankedAt := u.radio.blankedAt.set g (some u.arrayNow) } } else u) := by
    split
    · exact hcount.trans (blankSees_radio rfl rfl (fun _ => rfl) rfl rfl)
    · exact hcount
  generalize (if (s.blankOf g).1 || (s.blankOf g).2 || b.1 || b.2 then _ else u : State) = v at hstamp ⊢
  split
  · exact hstamp.trans (blankSees_radio rfl rfl (fun _ => rfl) rfl rfl)
  · split
    · exact hstamp.trans (blankSees_radio rfl rfl (fun _ => rfl) rfl rfl)
    · exact hstamp

/-- A path of a group ends muted as its group is; the others stay as they are. -/
theorem blankPath_spec (b a : Bool × Bool) {p : Nat} (hp : p < 64) (s : State) :
    BlankKeeps s (s.blankPath b a p) ∧
      ∀ q, ((s.blankPath b a p).mutes q).testBit muteBlank = if q = p then a.1 else (s.mutes q).testBit muteBlank := by
  have hset : BlankKeeps s (s.setMute p muteBlank a.1) := by
    refine ⟨(SameOff.refl s).setMute (.inl (by dsimp only; omega)) _ _, by rw [State.radio_setMute], State.mem_setMute .., fun h => ?_⟩
    exact ⟨State.out_setMute .., fun q hq => by rw [State.path, State.radio_setMute]; exact h q hq⟩
  have hbits (q : Nat) : ((s.setMute p muteBlank a.1).mutes q).testBit muteBlank = if q = p then a.1 else (s.mutes q).testBit muteBlank := by
    rw [State.testBit_mutes_setMute _ _ _ _ _ (by decide)]
    simp
  unfold State.blankPath
  dsimp only
  generalize s.setMute p muteBlank a.1 = u at hset hbits ⊢
  have hmod (f : PathState → PathState) (hf : ∀ x, (f x).cal = x.cal) : BlankSees u (u.modPath p f) := by
    refine blankSees_radio rfl rfl (fun q => ?_) rfl rfl
    by_cases hq : q = p
    · subst hq
      by_cases hlen : q < u.radio.paths.length
      · rw [State.path_modPath_same hlen, hf]
      · rw [State.path, List.getD_eq_default _ _ (by simpa [State.modPath] using Nat.le_of_not_lt hlen), State.path,
          List.getD_eq_default _ _ (Nat.le_of_not_lt hlen)]
    · rw [State.path_modPath_other u hq]
  have hheld : BlankSees u (if b.2 && !a.2 then u.modPath p fun x =>
      { x with dcUntil := max x.dcUntil (u.now + ticksOfUs 1), iqUntil := max x.iqUntil (u.now + ticksOfUs 1) } else u) :=
    .ite (hmod (fun x => { x with dcUntil := max x.dcUntil (u.now + ticksOfUs 1), iqUntil := max x.iqUntil (u.now + ticksOfUs 1) })
      fun _ => rfl) (.refl u)
  generalize (if b.2 && !a.2 then _ else u : State) = v at hheld ⊢
  have hlost : BlankSees u (if !(b.1 || b.2) && (a.1 || a.2) then v.calLost p 7 else v) :=
    .ite (hheld.trans ⟨(calEnds_calLost v p 7).blankKeeps hp, (calEnds_calLost v p 7).blankBits⟩) hheld
  exact ⟨hset.trans hlost.1, fun q => (hlost.2 q).trans (hbits q)⟩

theorem mem_groupPaths {p g : Nat} : p ∈ groupPaths g ↔ p / 8 = g := by
  simp only [groupPaths, List.mem_map, List.mem_range]
  constructor
  · rintro ⟨n, hn, rfl⟩
    omega
  · rintro rfl
    exact ⟨p % 8, Nat.mod_lt _ (by decide), by omega⟩

theorem blankPaths_spec (b a : Bool × Bool) (l : List Nat) (hl : ∀ p ∈ l, p < 64) (s : State) :
    BlankKeeps s (s.forEach l (State.blankPath b a)) ∧
      ∀ q, ((s.forEach l (State.blankPath b a)).mutes q).testBit muteBlank = if q ∈ l then a.1 else (s.mutes q).testBit muteBlank := by
  induction l generalizing s with
  | nil => exact ⟨.refl s, fun q => by simp [State.forEach]⟩
  | cons p l ih =>
    obtain ⟨hkeep, hbits⟩ := blankPath_spec b a (hl p List.mem_cons_self) s
    obtain ⟨hkeep', hbits'⟩ := ih (fun q hq => hl q (List.mem_cons_of_mem p hq)) (s.blankPath b a p)
    refine ⟨hkeep.trans hkeep', fun q => (hbits' q).trans ?_⟩
    rw [hbits q]
    by_cases hq : q ∈ l
    · simp [hq]
    · by_cases hqp : q = p <;> simp [hq, hqp]

theorem blankGroup_spec (before : Nat → Bool × Bool) {g : Nat} (hg : g < 8) (s : State) :
    BlankKeeps s (s.blankGroup before g) ∧
      ∀ q, ((s.blankGroup before g).mutes q).testBit muteBlank = if q / 8 = g then (s.blankOf g).1 else (s.mutes q).testBit muteBlank := by
  have hnoted := blankSees_blankNoted (before g) g s
  obtain ⟨hkeep, hbits⟩ := blankPaths_spec (before g) (s.blankOf g) (groupPaths g)
    (fun p hp => by have := mem_groupPaths.1 hp; omega) (s.blankNoted (before g) g)
  refine ⟨hnoted.1.trans hkeep, fun q => (hbits q).trans ?_⟩
  rw [hnoted.2 q]
  simp only [mem_groupPaths]

/-- After the first `n` groups, their paths are muted for blanking as their groups are. -/
theorem blankGroups_spec (before : Nat → Bool × Bool) (s : State) {n : Nat} (hn : n ≤ 8) :
    BlankKeeps s (s.forEach (List.range n) (State.blankGroup before)) ∧
      ∀ q, q / 8 < n → ((s.forEach (List.range n) (State.blankGroup before)).mutes q).testBit muteBlank = (s.blankOf (q / 8)).1 := by
  induction n with
  | zero => exact ⟨.refl s, fun q hq => absurd hq (Nat.not_lt_zero _)⟩
  | succ n ih =>
    obtain ⟨hkeep, hbits⟩ := ih (by omega)
    have hstep : s.forEach (List.range (n + 1)) (State.blankGroup before) =
        (s.forEach (List.range n) (State.blankGroup before)).blankGroup before n := by
      simp [State.forEach, List.range_succ]
    obtain ⟨hkeep', hbits'⟩ := blankGroup_spec before (g := n) (by omega) (s.forEach (List.range n) (State.blankGroup before))
    rw [hstep]
    refine ⟨hkeep.trans hkeep', fun q hq => (hbits' q).trans ?_⟩
    split
    next h => rw [hkeep.blankOf, h]
    next h => exact hbits q (by omega)

theorem claim_blanking : Claim.Blanking := by
  intro s t n c hc
  have hg : Gives c.1 s ((s.atTime t).setBlank n.val c.2) := by
    simp only [List.mem_cons, List.not_mem_nil, or_false] at hc
    rcases hc with rfl | rfl <;> rfl
  obtain ⟨hkeep, hbits⟩ := blankGroups_spec (s.atTime t).blankOf
    { s.atTime t with radio := { s.radio with blank := s.radio.blank.set n.val c.2 } } (n := 8) le_rfl
  refine ⟨_, hg, hkeep.blank, hkeep.mem, fun h => (hkeep.quiet h).1, fun g _ => ?_, fun p hp => ?_⟩
  · exact hkeep.words.get (by simp only [blankWords]; omega)
  · exact (hbits p (by omega)).trans (congrArg (·.1) (hkeep.blankOf _)).symm

/-- Settles O27: blanking leaves every path muted as its group is, and retirement leaves what R178 says of the path. -/
theorem pathMuting : Obligations.PathMuting := ⟨claim_blanking, claim_retirement⟩

end Sys2Proof.Machine
end

