-- ==== Sys2Proof/Proofs/FemControl.lean ====
section
/-!
Front-end module events and the words of their scripts (R147 to R151).
-/

namespace Sys2Proof.Machine

open Sys2Proof

/-! ### Script words -/

section ScriptWord

variable {s : State} {g own n i : Nat} {r : FemRun} {w : Word} (hi : i < 64) (hw : s.word (Reg.GROUP.FEM_SCRIPT.word g i).addr = w)
include hi hw

theorem State.femScriptRun_end (hop : getBits w 29 3 = femEnd) : s.femScriptRun g own (n + 1) i r = r := by
  simp [State.femScriptRun, Nat.not_le.2 hi, hw, hop]

theorem State.femScriptRun_undefined (hop : 6 ≤ getBits w 29 3) :
    s.femScriptRun g own (n + 1) i r = { r with result := .scriptError } := by
  have hend : getBits w 29 3 ≠ femEnd := by unfold femEnd; omega
  simp [State.femScriptRun, Nat.not_le.2 hi, hw, hend, show 5 < getBits w 29 3 by omega]

theorem State.femScriptRun_delay (hop : getBits w 29 3 = femDelay) :
    s.femScriptRun g own (n + 1) i r = s.femScriptRun g own n (i + 1) r := by
  simp [State.femScriptRun, Nat.not_le.2 hi, hw, hop, femDelay, femEnd, femReadStore, femReadCheck]

theorem State.femScriptRun_write (hop : getBits w 29 3 = femWrite) :
    s.femScriptRun g own (n + 1) i r = s.femScriptRun g own n (i + 1) { r with outs := r.outs ++
      [.rffe g femWrite (if getBits w 25 4 = 15 then own else getBits w 25 4) (getBits w 16 8) (getBits w 8 8)] } := by
  simp [State.femScriptRun, Nat.not_le.2 hi, hw, hop, femWrite, femDelay, femEnd, femReadStore, femReadCheck]

/-- A read answered at the first try stores the answer. -/
theorem State.femScriptRun_store (hop : getBits w 29 3 = femReadStore) (hid : getBits w 25 4 ≠ 0) {v : Byte} {rest : List (Option Byte)}
    (hr : r.rest = some v :: rest) : s.femScriptRun g own (n + 1) i r = s.femScriptRun g own n (i + 1) { r with
      outs := r.outs ++ [.rffe g femReadStore (if getBits w 25 4 = 15 then own else getBits w 25 4) (getBits w 16 8) (getBits w 8 8)]
      rest := rest, stores := r.stores ++ [(getBits w 0 8 % 8, v.toNat)] } := by
  simp [State.femScriptRun, Nat.not_le.2 hi, hw, hop, hid, hr, femAnswer, femWrite, femWrite0, femDelay, femEnd, femReadStore, femReadCheck]

/-- A read that is not answered goes out twice and ends the script. -/
theorem State.femScriptRun_noReply (hop : getBits w 29 3 = femReadCheck) (hid : getBits w 25 4 ≠ 0) {rest : List (Option Byte)}
    (hr : r.rest = none :: none :: rest) : s.femScriptRun g own (n + 1) i r = { r with
      outs := r.outs ++ List.replicate 2
        (.rffe g femReadCheck (if getBits w 25 4 = 15 then own else getBits w 25 4) (getBits w 16 8) (getBits w 8 8))
      rest := rest, failures := r.failures + 1, result := .noReply } := by
  simp [State.femScriptRun, Nat.not_le.2 hi, hw, hop, hid, hr, femAnswer, femWrite, femWrite0, femDelay, femEnd, femReadStore, femReadCheck]

end ScriptWord

theorem claim_femScriptWords : Claim.FemScriptWords := by
  intro s p i replies w w' hi hw hw' hend
  have hi' : i < 64 := by omega
  refine ⟨fun hop => ?_, fun hop => ?_, fun hop hid v rest hr => ?_, fun hop hid rest hr => ?_, fun hop => ?_⟩
  · rw [State.femPath, State.femScriptRun_write hi' hw hop, State.femScriptRun_end hi hw' hend]
    rfl
  · rw [State.femPath, State.femScriptRun_delay hi' hw hop, State.femScriptRun_end hi hw' hend]
  · rw [State.femPath, State.femScriptRun_store hi' hw hop hid hr, State.femScriptRun_end hi hw' hend]
    exact ⟨rfl, rfl⟩
  · rw [State.femPath, State.femScriptRun_noReply hi' hw hop hid hr]
    exact ⟨rfl, rfl, rfl⟩
  · rw [State.femPath, State.femScriptRun_undefined hi' hw hop]

/-! ### Events -/

/-- A script leaves registers and outputs; nothing else of the state sees it. -/
theorem State.femLeave_shape (s : State) (p : Nat) (r : FemRun) : ∃ regs out, s.femLeave p r = { s with regs := regs, out := out } := by
  have hemit : ∃ regs out, s.forEach r.outs (fun o s => s.emit o) = { s with regs := regs, out := out } :=
    State.forEach_induct (P := fun x => ∃ regs out, x = { s with regs := regs, out := out }) ⟨_, _, rfl⟩ fun o _ x hx => by
      obtain ⟨_, _, rfl⟩ := hx
      exact ⟨_, _, rfl⟩
  obtain ⟨_, _, hemit⟩ := hemit
  have hstore : ∃ regs out, (s.forEach r.outs (fun o s => s.emit o)).femStore p r.stores = { s with regs := regs, out := out } := by
    rw [hemit]
    exact State.forEach_induct (P := fun x => ∃ regs out, x = { s with regs := regs, out := out }) ⟨_, _, rfl⟩ fun o _ x hx => by
      obtain ⟨_, _, rfl⟩ := hx
      exact ⟨_, _, rfl⟩
  obtain ⟨_, _, hstore⟩ := hstore
  unfold State.femLeave
  dsimp only
  rw [hstore]
  split <;> exact ⟨_, _, rfl⟩

/-- INIT touches, beyond registers and outputs, which paths are ready. -/
theorem State.femServe_init_shape (entry : Nat) (l : List (Nat × List (Option Byte))) (s : State) : ∃ regs out ready,
    s.femServe .init entry l = { s with regs := regs, out := out, radio := { s.radio with femReady := ready } } := by
  induction l generalizing s with
  | nil => exact ⟨_, _, _, rfl⟩
  | cons e l ih =>
    obtain ⟨regs, out, hleave⟩ := s.femLeave_shape e.1 (s.femPath e.1 entry e.2)
    unfold State.femServe
    dsimp only [State.femRun, State.femOutcome]
    rw [hleave]
    split
    · exact ⟨_, _, _, rfl⟩
    · obtain ⟨_, _, _, h⟩ := ih (({ s with regs := regs, out := out } : State).femReady e.1 (decide ((s.femPath e.1 entry e.2).result = .ok)))
      exact ⟨_, _, _, h⟩

theorem State.femEvent_of_not_scripted {s : State} {g : Nat} {ev : FemEvent} (h : s.femScripted g ev = false) (replies : List (List (Option Byte))) :
    s.femEvent g ev replies = s := if_neg (by simp [h])

theorem State.femEvent_of_scripted {s : State} {g : Nat} {ev : FemEvent} (h : s.femScripted g ev = true) (replies : List (List (Option Byte))) :
    s.femEvent g ev replies = s.femServe ev (s.femEntry g ev) ((groupPaths g).map fun p => (p, replies.getD (p % 8) [])) := if_pos h

/-- A check or a poll. -/
theorem gives_femCheck {s : State} {ev : FemEvent} (h : ev ∈ [FemEvent.paCheck, .rxCheck, .poll]) (t : Nat) (g : Fin 8)
    (replies : List (List (Option Byte))) : Gives (.femScript t g ev replies) s ((s.atTime t).femEvent g.val ev replies) := by
  simp only [List.mem_cons, List.not_mem_nil, or_false] at h
  rcases h with rfl | rfl | rfl <;> rfl

/-- INIT on a bus where it runs ends there. -/
theorem State.initEnds_of_runs {s : State} {g : Nat} (h : s.radio.initAt.isSome = true) :
    s.initEnds g = { s with radio := { s.radio with initDone := s.radio.initDone.set g true, initEnd := s.now } } := if_pos h

/-- A path whose script ends at once: its group's status shows that it answered, and nothing else changes. -/
structure FemIdle (g : Nat) (s u : State) : Prop where
  words : SameWords s u [(Reg.GROUP.RFFE_STATUS.word g).addr]
  out : u.out = s.out
  mem : u.mem = s.mem
  bits : ∀ n < 8, (s.get (Reg.GROUP.RFFE_STATUS.no_reply g)).testBit n = false → (u.get (Reg.GROUP.RFFE_STATUS.no_reply g)).testBit n = false

theorem FemIdle.refl (g : Nat) (s : State) : FemIdle g s s := ⟨fun _ _ => rfl, rfl, rfl, fun _ _ h => h⟩

theorem FemIdle.trans {g : Nat} {s u v : State} (hsu : FemIdle g s u) (huv : FemIdle g u v) : FemIdle g s v :=
  ⟨hsu.words.trans huv.words, huv.out.trans hsu.out, huv.mem.trans hsu.mem, fun n hn h => huv.bits n hn (hsu.bits n hn h)⟩

theorem femIdle_femLeave (s : State) (p : Nat) {r : FemRun} (houts : r.outs = []) (hstores : r.stores = []) (hres : r.result = .ok) :
    FemIdle (groupOf p) s (s.femLeave p r) ∧ ((s.femLeave p r).get (Reg.GROUP.RFFE_STATUS.no_reply (groupOf p))).testBit (p % 8) = false := by
  have hleave : s.femLeave p r = (s.put (Reg.GROUP.RFFE_STATUS.errors (groupOf p))
      (min (s.get (Reg.GROUP.RFFE_STATUS.errors (groupOf p)) + r.failures) 255)).putBit (Reg.GROUP.RFFE_STATUS.no_reply (groupOf p)) (p % 8) false := by
    unfold State.femLeave State.femStore
    simp [houts, hstores, hres, State.forEach]
  have hget : ∀ n < 8, ((s.femLeave p r).get (Reg.GROUP.RFFE_STATUS.no_reply (groupOf p))).testBit n =
      if n = p % 8 then false else (s.get (Reg.GROUP.RFFE_STATUS.no_reply (groupOf p))).testBit n := by
    intro n hn
    rw [hleave, State.putBit, State.get_put_same _ rfl, Nat.testBit_mod_two_pow, testBit_withBit, State.get_put_apart _ rfl (by simp [Fld.apart])]
    simp [hn]
  refine ⟨⟨?_, by rw [hleave]; rfl, by rw [hleave]; rfl, fun n hn h => ?_⟩, ?_⟩
  · rw [hleave]
    exact (sameWords_put s (Reg.GROUP.RFFE_STATUS.errors (groupOf p)) _).trans (sameWords_put _ (Reg.GROUP.RFFE_STATUS.no_reply (groupOf p)) _)
  · rw [hget n hn]
    split
    · rfl
    · exact h
  · rw [hget _ (Nat.mod_lt _ (by decide)), if_pos rfl]

/-- A check or a poll of a path that answered changes at most the path's count of failed polls. -/
theorem State.femOutcome_ok {ev : FemEvent} (h : ev ∈ [FemEvent.paCheck, .rxCheck, .poll]) (s : State) (p : Nat) :
    s.femOutcome ev p .ok = s ∨ ∃ f, s.femOutcome ev p .ok = s.modPath p f := by
  simp only [List.mem_cons, List.not_mem_nil, or_false] at h
  rcases h with rfl | rfl | rfl
  · exact .inl rfl
  · exact .inl rfl
  · refine .inr ⟨fun x => { x with femFails := 0 }, if_neg ?_⟩
    have hzero : ((s.modPath p fun x => { x with femFails := 0 }).path p).femFails = 0 := by
      by_cases hp : p < s.radio.paths.length
      · rw [State.path_modPath_same hp]
      · rw [State.path, List.getD_eq_default _ _ (by simpa [State.modPath] using Nat.le_of_not_lt hp)]
        rfl
    exact fun h3 => absurd (hzero ▸ h3 : 3 ≤ 0) (by decide)

theorem femIdle_modPath (g : Nat) (s : State) (p : Nat) (f : PathState → PathState) : FemIdle g s (s.modPath p f) :=
  ⟨fun _ _ => rfl, rfl, rfl, fun _ _ h => h⟩

/-- A check or a poll whose script ends at once sends nothing, and every path of it has answered. -/
theorem femServe_idle {ev : FemEvent} (hev : ev ∈ [FemEvent.paCheck, .rxCheck, .poll]) {g entry : Nat} (hentry : entry < 64)
    (l : List (Nat × List (Option Byte))) (hl : ∀ e ∈ l, groupOf e.1 = g) (s : State)
    (hend : getBits (s.word (Reg.GROUP.FEM_SCRIPT.word g entry).addr) 29 3 = femEnd) :
    FemIdle g s (s.femServe ev entry l) ∧
      ∀ e ∈ l, ((s.femServe ev entry l).get (Reg.GROUP.RFFE_STATUS.no_reply g)).testBit (e.1 % 8) = false := by
  induction l generalizing s with
  | nil => exact ⟨.refl g s, fun e he => absurd he List.not_mem_nil⟩
  | cons e l ih =>
    have hg : groupOf e.1 = g := hl e List.mem_cons_self
    have hrun : s.femPath e.1 entry e.2 = { outs := [], stores := [], rest := e.2, failures := 0, result := .ok } := by
      rw [State.femPath, hg, State.femScriptRun_end hentry rfl hend]
    obtain ⟨hidle, hbit⟩ := femIdle_femLeave s e.1 (r := s.femPath e.1 entry e.2) (by rw [hrun]) (by rw [hrun]) (by rw [hrun])
    rw [hg] at hidle hbit
    have hout : ∃ u, u = (s.femLeave e.1 (s.femPath e.1 entry e.2)).femOutcome ev e.1 .ok ∧
        FemIdle g (s.femLeave e.1 (s.femPath e.1 entry e.2)) u ∧ u.regs = (s.femLeave e.1 (s.femPath e.1 entry e.2)).regs := by
      obtain h | ⟨f, h⟩ := State.femOutcome_ok hev (s.femLeave e.1 (s.femPath e.1 entry e.2)) e.1
      · exact ⟨_, h.symm, .refl g _, rfl⟩
      · exact ⟨_, h.symm, femIdle_modPath .., rfl⟩
    obtain ⟨u, hu, hsame, hregs⟩ := hout
    have hword : u.word (Reg.GROUP.FEM_SCRIPT.word g entry).addr = s.word (Reg.GROUP.FEM_SCRIPT.word g entry).addr :=
      (hidle.trans hsame).words _ (by simp only [List.mem_cons, List.not_mem_nil, or_false]; omega)
    have hstep : s.femServe ev entry (e :: l) = u.femServe ev entry l := by
      rw [hu]
      show (if (s.femPath e.1 entry e.2).result = .scriptError then _ else _) = _
      rw [if_neg (by simp [hrun])]
      show State.femServe (State.femOutcome _ ev e.1 (s.femPath e.1 entry e.2).result) ev entry l = _
      rw [show (s.femPath e.1 entry e.2).result = .ok by rw [hrun]]
      rfl
    obtain ⟨hrest, hbits⟩ := ih (fun e' he' => hl e' (List.mem_cons_of_mem e he')) u (by rw [hword]; exact hend)
    rw [hstep]
    refine ⟨(hidle.trans hsame).trans hrest, fun e' he' => ?_⟩
    rcases List.mem_cons.1 he' with rfl | he'
    · refine hrest.bits _ (Nat.mod_lt _ (by decide)) ?_
      rw [State.get, State.word, hregs]
      exact hbit
    · exact hbits e' he'

/-! ### INIT without reply -/

/-- A path of a group that INIT has not served is without reply and not ready. -/
def State.femUnserved (g p : Nat) (s : State) : State := (s.putBit (Reg.GROUP.RFFE_STATUS.no_reply g) (p % 8) true).femReady p false

theorem State.femUnserved_bits (g p : Nat) (s : State) {n : Nat} (hn : n < 8) :
    ((s.femUnserved g p).get (Reg.GROUP.RFFE_STATUS.no_reply g)).testBit n =
      (decide (n = p % 8) || (s.get (Reg.GROUP.RFFE_STATUS.no_reply g)).testBit n) := by
  show ((s.putBit (Reg.GROUP.RFFE_STATUS.no_reply g) (p % 8) true).get (Reg.GROUP.RFFE_STATUS.no_reply g)).testBit n = _
  rw [State.putBit, State.get_put_same _ rfl, Nat.testBit_mod_two_pow, testBit_withBit]
  by_cases h : n = p % 8 <;> simp [hn, h]
  omega

/-- What the unserved paths of a group leave: who is without reply and not ready, and the rest of INIT as it was. -/
theorem femUnserved_spec (g : Nat) (l : List Nat) (hl : ∀ p ∈ l, p < 64) (s : State) (hready : s.radio.femReady.length = 64) :
    (s.forEach l (State.femUnserved g)).now = s.now ∧ (s.forEach l (State.femUnserved g)).radio.initAt = s.radio.initAt ∧
      (s.forEach l (State.femUnserved g)).radio.initDone = s.radio.initDone ∧
      SameWords s (s.forEach l (State.femUnserved g)) [(Reg.GROUP.RFFE_STATUS.word g).addr] ∧
      (∀ n < 8, ((s.forEach l (State.femUnserved g)).get (Reg.GROUP.RFFE_STATUS.no_reply g)).testBit n =
        (decide (n ∈ l.map (· % 8)) || (s.get (Reg.GROUP.RFFE_STATUS.no_reply g)).testBit n)) ∧
      ∀ q, (s.forEach l (State.femUnserved g)).radio.femReady.getD q true = (!decide (q ∈ l) && s.radio.femReady.getD q true) := by
  induction l generalizing s with
  | nil => exact ⟨rfl, rfl, rfl, fun _ _ => rfl, fun n _ => by simp [State.forEach], fun q => by simp [State.forEach]⟩
  | cons p l ih =>
    have hp : p < s.radio.femReady.length := hready.symm ▸ hl p List.mem_cons_self
    obtain ⟨hnow, hat, hdone, hwords, hbits, hset⟩ := ih (fun q hq => hl q (List.mem_cons_of_mem p hq)) (s.femUnserved g p)
      (by show (s.radio.femReady.set p false).length = 64; rw [List.length_set, hready])
    refine ⟨hnow, hat, hdone, (sameWords_put s (Reg.GROUP.RFFE_STATUS.no_reply g) _).trans hwords, fun n hn => (hbits n hn).trans ?_,
      fun q => (hset q).trans ?_⟩
    · rw [State.femUnserved_bits g p s hn]
      by_cases h : n = p % 8 <;> simp [h]
    · have hself : (s.femUnserved g p).radio.femReady.getD q true = (!decide (q = p) && s.radio.femReady.getD q true) := by
        show (s.radio.femReady.set p false).getD q true = _
        by_cases h : q = p
        · simp [h, hp]
        · simp [h, Ne.symm h]
      rw [hself]
      by_cases h : q = p <;> simp [h]

theorem mem_drop_groupPaths {g served n : Nat} (hn : n < 8) : 8 * g + n ∈ (groupPaths g).drop served ↔ served ≤ n := by
  rw [groupPaths, ← List.map_drop, List.mem_map]
  simp only [List.mem_drop_iff_getElem, List.getElem_range, List.length_range]
  constructor
  · rintro ⟨m, ⟨k, hk, rfl⟩, hm⟩
    omega
  · intro h
    exact ⟨n, ⟨n - served, by omega, by omega⟩, rfl⟩

theorem mem_map_drop_groupPaths {g served n : Nat} (hn : n < 8) : n ∈ ((groupPaths g).drop served).map (· % 8) ↔ served ≤ n := by
  rw [List.mem_map]
  constructor
  · rintro ⟨p, hp, hmod⟩
    have hg : p / 8 = g := mem_groupPaths.1 (List.mem_of_mem_drop hp)
    have hpn : p = 8 * g + n := by omega
    exact (mem_drop_groupPaths hn).1 (hpn ▸ hp)
  · intro h
    exact ⟨8 * g + n, (mem_drop_groupPaths hn).2 h, by omega⟩

theorem claim_femEvents : Claim.FemEvents := by
  intro s t g ev replies served
  refine ⟨fun hev hno => ?_, fun e he => ⟨fun hno => ?_, fun hwait => ?_⟩, fun hno => ?_, fun hruns hlen => ?_, fun hev hentry hon => ?_,
    fun hno => ?_, fun hlate hlen => ?_⟩
  · exact (gives_femCheck hev t g replies).of_eq (State.femEvent_of_not_scripted (s := s.atTime t) hno replies)
  · simp only [List.mem_cons, List.not_mem_nil, or_false] at he
    rcases he with rfl | rfl <;> exact Gives.of_eq rfl (if_neg (by simp [show (s.atTime t).femWaits g.val _ = false from hno]))
  · simp only [List.mem_cons, List.not_mem_nil, or_false] at he
    rcases he with rfl | rfl <;> exact Gives.of_eq rfl (if_pos hwait)
  · exact Gives.of_eq rfl (if_neg (by simp [show (s.atTime t).initRuns g.val = false from hno]))
  · have hat : s.radio.initAt.isSome = true := (Bool.and_eq_true_iff.1 hruns).1
    have hg : Gives (.femScript t g .init replies) s (((s.atTime t).femEvent g.val .init replies).initEnds g.val) :=
      Gives.of_eq rfl (if_pos hruns)
    obtain ⟨regs, out, ready, hev, hquiet⟩ : ∃ regs out ready, (s.atTime t).femEvent g.val .init replies =
        { s.atTime t with regs := regs, out := out, radio := { s.radio with femReady := ready } } ∧
        (s.femScripted g.val .init = false → regs = s.regs ∧ out = s.out) := by
      cases hs : s.femScripted g.val .init with
      | false => exact ⟨_, _, _, State.femEvent_of_not_scripted (s := s.atTime t) (g := g.val) (ev := .init) hs replies, fun _ => ⟨rfl, rfl⟩⟩
      | true =>
        obtain ⟨_, _, _, h⟩ := State.femServe_init_shape ((s.atTime t).femEntry g.val .init)
          ((groupPaths g.val).map fun p => (p, replies.getD (p % 8) [])) (s.atTime t)
        exact ⟨_, _, _, (State.femEvent_of_scripted (s := s.atTime t) (g := g.val) (ev := .init) hs replies).trans h, fun h => absurd h (by decide)⟩
    rw [hev, State.initEnds_of_runs (by exact hat)] at hg
    exact ⟨_, hg, rfl, rfl, rfl, hquiet⟩
  · have hscripted : s.femScripted g.val ev = true := by simp [State.femScripted, hentry, State.flag, hon]
    have hg := (gives_femCheck hev t g replies).of_eq (State.femEvent_of_scripted (s := s.atTime t) hscripted replies)
    refine ⟨hg, fun hlt hend => ?_⟩
    obtain ⟨hidle, hbits⟩ := femServe_idle hev hlt ((groupPaths g.val).map fun p => (p, replies.getD (p % 8) []))
      (fun e he => by
        obtain ⟨p, hp, rfl⟩ := List.mem_map.1 he
        exact mem_groupPaths.1 hp) (s.atTime t) hend
    refine ⟨_, hg, hidle.out, hidle.mem, ?_, hidle.words⟩
    refine Nat.eq_of_testBit_eq fun n => ?_
    rw [Nat.zero_testBit]
    by_cases hn : n < 8
    · have hmem : (8 * g.val + n, replies.getD ((8 * g.val + n) % 8) []) ∈
          (groupPaths g.val).map fun p => (p, replies.getD (p % 8) []) := List.mem_map.2 ⟨8 * g.val + n, mem_groupPaths.2 (by omega), rfl⟩
      have hbit := hbits _ hmem
      rwa [show (8 * g.val + n) % 8 = n by omega] at hbit
    · exact Nat.testBit_lt_two_pow (lt_of_lt_of_le (State.get_lt _ _) (Nat.pow_le_pow_right (by decide) (Nat.le_of_not_lt hn)))
  · exact Gives.of_eq rfl (if_neg (by simp [hno]))
  · have hruns : (s.atTime t).initRuns g.val = true := (Bool.and_eq_true_iff.1 hlate).1
    have hat : s.radio.initAt.isSome = true := (Bool.and_eq_true_iff.1 hruns).1
    obtain ⟨hnow, hinit, hdone, hwords, hbits, hready⟩ := femUnserved_spec g.val ((groupPaths g.val).drop served)
      (fun p hp => by have := mem_groupPaths.1 (List.mem_of_mem_drop hp); omega) (s.atTime t) hlen
    have hg : Gives (.femInitTimeout t g served) s
        (((s.atTime t).forEach ((groupPaths g.val).drop served) (State.femUnserved g.val)).initEnds g.val) := Gives.of_eq rfl (if_pos hlate)
    rw [State.initEnds_of_runs (by rw [hinit]; exact hat)] at hg
    refine ⟨_, hg, congrArg (fun l : List Bool => l.set g.val true) hdone, fun n hn hle => ⟨?_, ?_⟩, fun n hn hlt => ?_, hwords⟩
    · refine (hbits n hn).trans ?_
      rw [decide_eq_true ((mem_map_drop_groupPaths hn).2 hle), Bool.true_or]
    · refine (hready (8 * g.val + n)).trans ?_
      rw [decide_eq_true ((mem_drop_groupPaths hn).2 hle), Bool.not_true, Bool.false_and]
    · refine (hbits n hn).trans ?_
      rw [decide_eq_false (fun h => Nat.not_le.2 hlt ((mem_map_drop_groupPaths hn).1 h)), Bool.false_or]
      rfl

/-- Settles O28: when each event runs, what INIT and its timeout leave, and the words of the scripts. -/
theorem femControl : Obligations.FemControl := ⟨claim_femEvents, claim_femScriptWords⟩

end Sys2Proof.Machine
end

