-- ==== Sys2Proof/Proofs/StairSends.lean ====
section
/-!
What a message that a landing sends over the stair leaves alone: everything but the stair's own state, its outputs and the idle bits of its lanes.
-/

namespace Sys2Proof.Machine

open Sys2Proof

/-- The registers that show whether one of the first `k` lanes is idle. -/
def laneAdaptWords (k a : Nat) : Prop := ∃ i < k, a = (Reg.STAIR.LANE_ADAPT.word i).addr

theorem bounds_of_laneAdaptWords {a : Nat} (h : laneAdaptWords 16 a) : 0x480404 ≤ a ∧ a < 0x480604 := by
  obtain ⟨i, hi, rfl⟩ := h
  dsimp only
  omega

/-- The second state differs from the first at most in the stair's ports and lanes, the outputs and the idle bits of the first `k` lanes. -/
structure Sends (k : Nat) (s u : State) : Prop where
  shape : ∃ regs ports lanes out, u = { s with regs := regs, stair := { s.stair with ports := ports, lanes := lanes }, out := out }
  words : SameOff (laneAdaptWords k) s u

section

variable {k : Nat}

theorem Sends.refl (s : State) : Sends k s s := ⟨⟨_, _, _, _, rfl⟩, .refl s⟩

theorem Sends.trans {s u v : State} (hsu : Sends k s u) (huv : Sends k u v) : Sends k s v := by
  refine ⟨?_, hsu.words.trans huv.words⟩
  obtain ⟨_, _, _, _, rfl⟩ := hsu.shape
  obtain ⟨_, _, _, _, rfl⟩ := huv.shape
  exact ⟨_, _, _, _, rfl⟩

theorem Sends.forEach {α : Type} {s : State} {f : α → State → State} {l : List α} (hf : ∀ a ∈ l, ∀ x, Sends k x (f a x)) : Sends k s (s.forEach l f) :=
  State.forEach_induct (P := Sends k s) (.refl s) fun a ha x hx => hx.trans (hf a ha x)

theorem sends_emit (s : State) (o : Output) : Sends k s (s.emit o) := ⟨⟨_, _, _, _, rfl⟩, .of_regs rfl⟩
theorem sends_modSPort (s : State) (n : Nat) (f : StairPort → StairPort) : Sends k s (s.modSPort n f) := ⟨⟨_, _, _, _, rfl⟩, .of_regs rfl⟩
theorem sends_modSLane (s : State) (i : Nat) (f : StairLane → StairLane) : Sends k s (s.modSLane i f) := ⟨⟨_, _, _, _, rfl⟩, .of_regs rfl⟩

theorem sends_padLanes (s : State) (n : Nat) : Sends k s (s.padLanes n) := by
  have hlanes (l : List (Nat × Nat × Nat)) : Sends k s (s.forEach l fun e s => s.modSLane e.1 fun x => { x with sent := e.2.1 + e.2.2 }) :=
    .forEach fun _ _ x => sends_modSLane x _ _
  unfold State.padLanes
  dsimp only
  split
  · exact .refl s
  · split
    · exact hlanes _
    · exact (hlanes _).trans ((sends_modSPort _ _ _).trans (sends_emit _ _))

theorem sends_onLane (s : State) {i : Nat} (hi : i < k) (w : Codeword) : Sends k s (s.onLane i w) := by
  have hidle (x : State) : Sends k x (x.put (Reg.STAIR.LANE_ADAPT.idle i) 0) :=
    ⟨⟨_, _, _, _, rfl⟩, (SameOff.refl x).put (f := Reg.STAIR.LANE_ADAPT.idle i) ⟨i, hi, rfl⟩ 0⟩
  unfold State.onLane
  dsimp only
  split
  · exact (sends_emit ..).trans ((sends_modSLane ..).trans ((sends_modSPort ..).trans (hidle _)))
  · exact (sends_emit ..).trans ((sends_modSLane ..).trans (sends_modSPort ..))

/-- A lane of a port is one of its four. -/
theorem lane_of_mem_dealOrder {s : State} {n i : Nat} (h : i ∈ s.dealOrder n) : i / 4 = n := by
  have hactive : i ∈ s.activeLanes n := by
    unfold State.dealOrder at h
    simp only [List.mem_append, List.mem_filter] at h
    rcases h with h | h <;> exact h.1.1
  unfold State.activeLanes at hactive
  obtain ⟨l, hl, rfl⟩ := List.mem_map.1 (List.mem_of_mem_filter hactive)
  have := List.mem_range.1 hl
  omega

theorem sends_dealCodeword (s : State) {n : Nat} (hn : 4 * n + 4 ≤ k) (msg : Option StairMsg) (load : StairMsg × Nat × Nat) :
    Sends k s (s.dealCodeword n msg load) := by
  unfold State.dealCodeword
  dsimp only
  split
  next i _ hlanes =>
    have hi : i / 4 = n := lane_of_mem_dealOrder (hlanes ▸ List.mem_cons_self)
    exact (sends_modSPort _ _ _).trans (sends_onLane _ (by omega) _)
  next => exact sends_modSPort _ _ _

theorem sends_sendUnit (s : State) {n : Nat} (hn : 4 * n + 4 ≤ k) (m : StairMsg) (u : Nat) : Sends k s (s.sendUnit n m u) := by
  have hcodewords : Sends k s ((s.padLanes n).forEach (List.range (unitCodewords m u)) fun j s =>
      s.dealCodeword n (if decide (u + 1 = msgUnits m) && decide (j + 1 = unitCodewords m u) then some m else none) (m, u, j)) :=
    (sends_padLanes s n).trans (.forEach fun _ _ x => sends_dealCodeword x hn _ _)
  unfold State.sendUnit
  dsimp only
  split
  · exact hcodewords.trans (sends_emit _ _)
  · exact hcodewords

theorem sends_drainUnits (s : State) {n : Nat} (hn : 4 * n + 4 ≤ k) (l : Nat) : Sends k s (s.drainUnits n l) := by
  induction l generalizing s with
  | zero => exact .refl s
  | succ l ih =>
    unfold State.drainUnits
    split
    · exact .refl s
    · split
      · exact .refl s
      · exact (sends_modSPort _ _ _).trans ((sends_sendUnit _ hn _ _).trans (ih _))

theorem sends_drainStair (s : State) {n : Nat} (hn : 4 * n + 4 ≤ k) : Sends k s (s.drainStair n) := sends_drainUnits s hn _

theorem sends_sendOn (s : State) {n : Nat} (hn : 4 * n + 4 ≤ k) (m : StairMsg) : Sends k s (s.sendOn n m) := by
  unfold State.sendOn
  split
  · exact (sends_modSPort _ _ _).trans (sends_drainStair _ hn)
  · exact .refl s

theorem sends_sendUp (s : State) (m : StairMsg) : Sends 16 s (s.sendUp m) := by
  unfold State.sendUp
  split
  next n hn =>
    refine sends_sendOn s ?_ m
    unfold State.parentPort at hn
    split at hn
    · cases hn
      have hlt : s.get Reg.STAIR.STATUS.parent < 4 := s.get_lt Reg.STAIR.STATUS.parent
      omega
    · cases hn
  next => exact .refl s

theorem sends_sendDown (s : State) (m : StairMsg) : Sends 16 s (s.sendDown m) :=
  .forEach fun _ hn x => sends_sendOn x (by have := List.mem_range.1 (List.mem_of_mem_filter hn); omega) m

end

end Sys2Proof.Machine
end

