-- ==== Sys2Proof/Proofs/LoBanks.lean ====
section
/-!
The states of an LO bank: locking, loss, hand-back and relock (R152 to R163, R612).
-/

namespace Sys2Proof.Machine

open Sys2Proof

/-! ### Dividers -/

theorem loDividers_of_spec {f : Nat} (hf : f ≤ 7200000) :
    (LoDividers.of f).d ∈ [2, 4, 8, 16] ∧ (LoDividers.of f).d * f ≤ 14400000 ∧
      ∀ e ∈ [2, 4, 8, 16], e * f ≤ 14400000 → e ≤ (LoDividers.of f).d := by
  simp only [LoDividers.of, List.mem_cons, List.not_mem_nil, or_false, forall_eq_or_imp, forall_eq]
  split
  · omega
  · split
    · omega
    · split <;> omega

/-! ### One bank's status -/

/-- The registers of the paths. -/
def pathBlock (a : Nat) : Prop := 0x100000 ≤ a ∧ a < 0x140000

theorem lt_of_mem_bankPaths {b p : Nat} (hb : b < 2) (hp : p ∈ bankPaths b) : p < 64 := by
  obtain ⟨n, hn, rfl⟩ := List.mem_map.1 hp
  have := List.mem_range.1 hn
  omega

section Status

variable (s : State) (b st : Nat)

theorem State.loState_loEnter : (s.loEnter b st).loState b = st % 16 := by
  rw [State.loEnter, State.showDither, State.putB, State.loState, State.get_put_apart _ rfl (by simp [Fld.apart]), State.get_put_same _ rfl]
  rfl

theorem sameWords_loEnter : SameWords s (s.loEnter b st) [(Reg.CLOCK.LO_STATUS.word b).addr] :=
  (sameWords_put s (Reg.CLOCK.LO_STATUS.state b) st).trans (sameWords_putB _ (Reg.CLOCK.LO_STATUS.dither b) _)

/-- The fields of a bank's status besides its state and its dither stay as the bank enters a state. -/
theorem State.get_loEnter {f : Fld} (hst : (Reg.CLOCK.LO_STATUS.state b).apart f = true) (hdither : (Reg.CLOCK.LO_STATUS.dither b).apart f = true) :
    (s.loEnter b st).get f = s.get f := by
  rw [State.loEnter, State.showDither, State.putB, State.get_put_apart _ rfl hdither, State.get_put_apart _ rfl hst]

end Status

theorem State.regs_loToBand (s : State) (b : Nat) :
    (s.loToBand b).regs = ((s.xfeedLost.loEnter b loBand).put (Reg.CLOCK.LO_STATUS.own_lock b) 0).regs := rfl

/-- The state of a bank that has entered BAND and not yet armed its time. -/
def State.loBanded (s : State) (b : Nat) : State := ((s.xfeedLost.loEnter b loBand).put (Reg.CLOCK.LO_STATUS.own_lock b) 0).loSeeded b

theorem State.now_loBanded (s : State) (b : Nat) : (s.loBanded b).now = s.now := by
  simp only [State.loBanded, State.loSeeded, State.now_modBank, State.now_put, State.loEnter, State.showDither, State.now_putB, State.xfeedLost]

theorem State.dueAt_loToBand_loBanded (s : State) (b : Nat) : (s.loToBand b).dueAt (.lo b) = some ((s.loBanded b).now + ticksOfUs 40) := by
  simp only [State.loToBand, State.dueAt_arm, State.loBanded]

theorem State.dueAt_loToBand (s : State) (b : Nat) : (s.loToBand b).dueAt (.lo b) = some (s.now + ticksOfUs 40) :=
  (s.dueAt_loToBand_loBanded b).trans (congrArg (fun n => some (n + ticksOfUs 40)) (s.now_loBanded b))

theorem State.get_of_regs {s u : State} (h : u.regs = s.regs) (f : Fld) : u.get f = s.get f :=
  (SameOff.of_regs (A := fun _ => False) h).get (f := f) id

theorem State.loState_loToBand (s : State) (b : Nat) : (s.loToBand b).loState b = loBand := by
  rw [State.loState, State.get_of_regs (s.regs_loToBand b) (Reg.CLOCK.LO_STATUS.state b), State.get_put_apart _ rfl (by simp [Fld.apart])]
  exact State.loState_loEnter ..

theorem State.own_lock_loToBand (s : State) (b : Nat) : (s.loToBand b).get (Reg.CLOCK.LO_STATUS.own_lock b) = 0 :=
  (State.get_of_regs (s.regs_loToBand b) (Reg.CLOCK.LO_STATUS.own_lock b)).trans (State.get_put_same _ rfl 0)

theorem sameWords_loToBand (s : State) (b : Nat) :
    SameWords s (s.loToBand b) [(Reg.CLOCK.LO_STATUS.word b).addr, Reg.CLOCK.XFEED_MEAS.word.addr] := by
  have h1 : SameOff (· ∈ [(Reg.CLOCK.LO_STATUS.word b).addr, Reg.CLOCK.XFEED_MEAS.word.addr]) s s.xfeedLost :=
    ((SameOff.refl s).put (f := Reg.CLOCK.XFEED_MEAS.valid) (by simp) 0).trans (.of_regs rfl)
  have h2 : SameOff (· ∈ [(Reg.CLOCK.LO_STATUS.word b).addr, Reg.CLOCK.XFEED_MEAS.word.addr]) s (s.xfeedLost.loEnter b loBand) :=
    (h1.put (f := Reg.CLOCK.LO_STATUS.state b) (by simp) _).put (f := Reg.CLOCK.LO_STATUS.dither b) (by simp) _
  exact (h2.put (f := Reg.CLOCK.LO_STATUS.own_lock b) (by simp) 0).trans (.of_regs (s.regs_loToBand b))

theorem State.div_loToBand (s : State) (b : Nat) (hb : b < s.radio.banks.length) :
    ((s.loToBand b).bank b).div = LoDividers.of (s.bank b).freq := by
  simp [State.loToBand, State.loSeeded, State.modBank, State.bank, State.arm, State.disarm, State.loEnter, State.showDither, State.xfeedLost,
    State.putB, hb]

/-- The fields of a bank's status besides its state, its lock and its dither stay as it enters BAND. -/
theorem State.get_loToBand (s : State) (b : Nat) {f : Fld} (hst : (Reg.CLOCK.LO_STATUS.state b).apart f = true)
    (hdither : (Reg.CLOCK.LO_STATUS.dither b).apart f = true) (hlock : (Reg.CLOCK.LO_STATUS.own_lock b).apart f = true)
    (hmeas : Reg.CLOCK.XFEED_MEAS.valid.apart f = true) : (s.loToBand b).get f = s.get f := by
  show ((s.xfeedLost.loEnter b loBand).put (Reg.CLOCK.LO_STATUS.own_lock b) 0).get f = _
  rw [State.get_put_apart _ rfl hlock, State.get_loEnter _ _ _ hst hdither]
  exact State.get_put_apart s rfl hmeas 0

theorem claim_loDividers : Claim.LoDividers := by
  refine ⟨fun f hf x hx => ?_, fun s b hb => s.div_loToBand b hb⟩
  subst hx
  obtain ⟨hmem, hle, hmax⟩ := loDividers_of_spec hf
  exact ⟨hmem, hle, hmax, rfl, Nat.div_add_mod' _ _, Nat.mod_lt _ (by decide)⟩

/-! ### The mutes of a bank's paths -/

/-- A mute reason set or cleared for some paths by what the path registers do not hold. -/
theorem setMutes_spec {i : Nat} {on : State → Bool} (hon : ∀ x u : State, SameOff pathBlock x u → on u = on x) {l : List Nat} (hl : ∀ p ∈ l, p < 64)
    (s : State) :
    (∃ regs, s.forEach l (fun p s => s.setMute p i (on s)) = { s with regs := regs }) ∧
      SameOff pathBlock s (s.forEach l (fun p s => s.setMute p i (on s))) ∧
      ∀ q, ∀ j < 8, ((s.forEach l (fun p s => s.setMute p i (on s))).mutes q).testBit j =
        if q ∈ l ∧ j = i then on s else (s.mutes q).testBit j := by
  induction l generalizing s with
  | nil => exact ⟨⟨_, rfl⟩, .refl s, fun q j _ => by simp [State.forEach]⟩
  | cons p l ih =>
    have hp := hl p List.mem_cons_self
    obtain ⟨⟨regs, hshape⟩, hwords, hbits⟩ := ih (fun q hq => hl q (List.mem_cons_of_mem p hq)) (s.setMute p i (on s))
    have hset : SameOff pathBlock s (s.setMute p i (on s)) := (SameOff.refl s).setMute (by simp only [pathBlock]; omega) _ _
    have hone : ∃ r, s.setMute p i (on s) = { s with regs := r } := by
      obtain ⟨n, h | h⟩ := s.setMute_shape p i (on s)
      · exact ⟨s.regs, h⟩
      · exact ⟨_, h⟩
    obtain ⟨r, hone⟩ := hone
    refine ⟨⟨regs, hshape.trans (by rw [hone])⟩, hset.trans hwords, fun q j hj => (hbits q j hj).trans ?_⟩
    rw [hon _ _ hset, State.testBit_mutes_setMute _ _ _ _ _ hj]
    by_cases hj' : j = i <;> by_cases hq : q ∈ l <;> by_cases hqp : q = p <;> simp [hj', hq, hqp]

theorem loDelivers_of_sameOff {s u : State} {A : Nat → Prop} (h : SameOff A s u) {b : Nat} (hb : ¬ A (Reg.CLOCK.LO_STATUS.word b).addr)
    (ho : ¬ A (Reg.CLOCK.LO_STATUS.word (1 - b)).addr) : u.loDelivers b = s.loDelivers b := by
  rw [State.loDelivers, State.loDelivers, State.loState, State.loState, State.loState, State.loState, State.crossfed, State.crossfed, State.flag, State.flag,
    h.get (f := Reg.CLOCK.LO_STATUS.state b) hb, h.get (f := Reg.CLOCK.LO_STATUS.crossfed b) hb, h.get (f := Reg.CLOCK.LO_STATUS.state (1 - b)) ho]

/-- A bank's paths lose the mute reason lo exactly where the bank delivers. -/
theorem muteByLo_spec (s : State) {b : Nat} (hb : b < 2) :
    (∃ regs, s.muteByLo b = { s with regs := regs }) ∧ SameOff pathBlock s (s.muteByLo b) ∧
      ∀ q, ∀ j < 8, ((s.muteByLo b).mutes q).testBit j = if q ∈ bankPaths b ∧ j = muteLo then !s.loDelivers b else (s.mutes q).testBit j :=
  setMutes_spec (on := fun s => !s.loDelivers b)
    (fun _ _ h => congrArg (!·) (loDelivers_of_sameOff h (by simp only [pathBlock]; omega) (by simp only [pathBlock]; omega)))
    (fun _ hp => lt_of_mem_bankPaths hb hp) s

/-! ### Locking -/

/-- A word that no step of a `forEach` touches, the whole does not touch. -/
theorem SameOff.forEach_mem {α : Type} {A : Nat → Prop} {s : State} {f : α → State → State} {l : List α}
    (hf : ∀ a ∈ l, ∀ x, SameOff A x (f a x)) : SameOff A s (s.forEach l f) :=
  State.forEach_induct (P := SameOff A s) (.refl s) fun a ha x hx => hx.trans (hf a ha x)

theorem State.femFlush_of_nothing_due {s : State} (h : ∀ g, g < 8 → s.radio.femDue.getD g none = none) : s.femFlush = s := by
  unfold State.femFlush
  refine State.forEach_induct (P := fun x => x = s) rfl fun g hg x hx => ?_
  subst hx
  dsimp only
  rw [h g (List.mem_range.1 hg)]

theorem State.initBegins_shape (s : State) : ∃ radio, s.initBegins = { s with radio := radio } := by
  unfold State.initBegins
  split
  · exact ⟨_, rfl⟩
  · exact ⟨_, rfl⟩

/-- What an LO bank that locks, fails or hands over changes besides the registers of the clock. -/
def loSide (a : Nat) : Prop :=
  pathBlock a ∨ laneAdaptWords 16 a ∨ recordWords a ∨ a = Reg.OTA.STATUS.word.addr ∨ (0x70004 ≤ a ∧ a < 0x70080)

theorem loSide_bounds {a : Nat} (h : loSide a) : a < 0x50000 ∨ 0x60000 ≤ a := by
  rcases h with h | h | h | h | h
  · exact .inr (le_trans (by decide) h.1)
  · exact .inr (le_trans (by decide) (bounds_of_laneAdaptWords h).1)
  · simp only [recordWords, List.mem_cons, List.not_mem_nil, or_false] at h
    rcases h with rfl | rfl | rfl | rfl <;> simp
  · subst h; simp
  · omega

theorem sameOff_wedge (s : State) (f : Function) (x : Rec) : SameOff loSide s (s.wedge f x) := by
  unfold State.wedge
  split
  · exact .refl s
  · have hbits : SameOff loSide s ((s.put ⟨Reg.RECOVERY.WEDGED.word.addr, f.bit, 1⟩ 1).put Reg.RECOVERY.STATUS.wedged_any 1) :=
      ((SameOff.refl s).put (f := ⟨Reg.RECOVERY.WEDGED.word.addr, f.bit, 1⟩) (by simp [loSide]) 1).put (f := Reg.RECOVERY.STATUS.wedged_any)
        (by simp [loSide]) 1
    exact hbits.trans ((sameOff_record _ _).mono fun _ h => .inr (.inr (.inl h)))

theorem not_loSide_status (b : Fin 2) : ¬ loSide (Reg.CLOCK.LO_STATUS.word b.val).addr := fun h => by
  have := loSide_bounds h
  dsimp only at this
  omega

theorem sameOff_initBegins {A : Nat → Prop} (s : State) : SameOff A s s.initBegins := by
  obtain ⟨_, h⟩ := s.initBegins_shape
  rw [h]
  exact .of_regs rfl

/-- A bank that fails outside of a wake (R156). -/
theorem loFail_spec (s : State) (b : Fin 2) (hpower : s.power ≠ powerWaking) :
    (s.loFail b.val).loState b.val = loFailed ∧ (s.loFail b.val).get (Reg.CLOCK.LO_STATUS.own_lock b.val) = 0 := by
  obtain ⟨x, hx⟩ : ∃ x, x = ((s.loEnter b.val loFailed).put (Reg.CLOCK.LO_STATUS.own_lock b.val) 0).disarm (.lo b.val) := ⟨_, rfl⟩
  have hstate : x.loState b.val = loFailed := by
    rw [hx, State.loState, State.get_disarm, State.get_put_apart _ rfl (by simp [Fld.apart])]
    exact State.loState_loEnter ..
  have hlock : x.get (Reg.CLOCK.LO_STATUS.own_lock b.val) = 0 := by
    rw [hx, State.get_disarm]
    exact State.get_put_same _ rfl 0
  have hxpower : x.power ≠ powerWaking := by
    have hsame : SameWords s (s.loEnter b.val loFailed) _ := sameWords_loEnter s b.val loFailed
    rw [hx, State.power, State.get_disarm, State.get_put_elsewhere _ (by dsimp only; omega), State.get_of_sameWords hsame (by simp; omega)]
    exact hpower
  have hrest : SameOff loSide x (s.loFail b.val) := by
    have hpaths (u : State) (l : List Nat) (hl : ∀ p ∈ l, p < 64) :
        SameOff loSide u (u.forEach l fun p s => s.put (Reg.PATH.STATUS.uncal p) 1) :=
      .forEach_mem fun p hp y => (SameOff.refl y).put (f := Reg.PATH.STATUS.uncal p) (.inl (by have := hl p hp; simp only [pathBlock]; omega)) 1
    unfold State.loFail
    dsimp only
    rw [← hx, if_neg (by simpa using hxpower)]
    split
    · exact (sameOff_record _ _).mono fun _ h => .inr (.inr (.inl h))
    · split
      · exact sameOff_wedge _ _ _
      · exact (sameOff_wedge _ _ _).trans ((hpaths _ _ fun p hp => lt_of_mem_bankPaths b.isLt (List.mem_of_mem_filter hp)).trans (sameOff_initBegins _))
  exact ⟨(hrest.get (f := Reg.CLOCK.LO_STATUS.state b.val) (not_loSide_status b)).trans hstate,
    (hrest.get (f := Reg.CLOCK.LO_STATUS.own_lock b.val) (not_loSide_status b)).trans hlock⟩

/-- An attempt that fails: BAND again twice, then the bank has failed (R155, R156). -/
theorem loAttemptFailed_spec (s : State) (b : Fin 2) :
    (s.get (Reg.CLOCK.LO_STATUS.attempt b.val) < 2 →
      (s.loAttemptFailed b.val).loState b.val = loBand ∧
      (s.loAttemptFailed b.val).get (Reg.CLOCK.LO_STATUS.attempt b.val) = s.get (Reg.CLOCK.LO_STATUS.attempt b.val) + 1 ∧
      (s.loAttemptFailed b.val).dueAt (.lo b.val) = some (s.now + ticksOfUs 40)) ∧
    (2 ≤ s.get (Reg.CLOCK.LO_STATUS.attempt b.val) → s.power ≠ powerWaking →
      (s.loAttemptFailed b.val).loState b.val = loFailed ∧ (s.loAttemptFailed b.val).get (Reg.CLOCK.LO_STATUS.own_lock b.val) = 0) := by
  have hattempt : (s.bump (Reg.CLOCK.LO_COUNT.relock_fail b.val)).get (Reg.CLOCK.LO_STATUS.attempt b.val) =
      s.get (Reg.CLOCK.LO_STATUS.attempt b.val) := State.get_put_elsewhere _ (by dsimp only; omega) _
  have hpower : (s.bump (Reg.CLOCK.LO_COUNT.relock_fail b.val)).power = s.power := State.get_put_elsewhere _ (by dsimp only; omega) _
  unfold State.loAttemptFailed
  dsimp only
  rw [hattempt]
  refine ⟨fun hlt => ?_, fun hle hp => ?_⟩
  · rw [if_pos hlt]
    refine ⟨State.loState_loToBand _ _, ?_, State.dueAt_loToBand _ _⟩
    rw [State.get_loToBand _ _ (by simp [Fld.apart]) (by simp [Fld.apart]) (by simp [Fld.apart]) (by simp [Fld.apart]), State.get_put_same _ rfl]
    exact Nat.mod_eq_of_lt (by dsimp only; omega)
  · rw [if_neg (by omega)]
    exact loFail_spec _ b (by rw [hpower]; exact hp)

/-! ### Hand-over of a bank's paths -/

/-- The counts of a carrier's degraded symbols. -/
def degradedWords (a : Nat) : Prop := 0x70060 ≤ a ∧ a < 0x70080

theorem sameOff_degradedOn (s : State) (l : List Nat) (hl : ∀ c ∈ l, c < 8) (n : State → Nat → Nat) :
    SameOff degradedWords s (s.forEach l fun c s => s.degraded c (n s c)) := by
  refine .forEach_mem fun c hc x => ?_
  unfold State.degraded
  dsimp only
  have hmod {f : CarrierState → CarrierState} : SameOff degradedWords x (x.modCar c f) := .of_regs rfl
  split
  · exact .refl x
  · split
    · exact hmod
    · exact hmod.put (f := Reg.RECOVERY.DEGRADED_SYM.word c) (by have := hl c hc; simp only [degradedWords]; omega) _

theorem mem_activeCarriers {s : State} {c : Nat} (h : c ∈ s.activeCarriers) : c < 8 := List.mem_range.1 (List.mem_of_mem_filter h)

theorem mem_carriersOn {s : State} {c : Nat} (h : c ∈ s.carriersOn) : c < 8 := mem_activeCarriers (List.mem_of_mem_filter h)

theorem State.regs_loSwitched (s : State) (b : Nat) :
    (s.loSwitched b).regs = (s.put Reg.BEAM.XFEED_PHASE.delta (s.get Reg.CLOCK.XFEED_MEAS.delta)).regs := by
  unfold State.loSwitched
  dsimp only
  exact State.forEach_keeps (f := fun p s => s.freezeFor p 10000) State.regs (fun _ _ => rfl) _ _

theorem State.loSwitched_keeps (s : State) (b : Nat) : (s.loSwitched b).mem = s.mem ∧ (s.loSwitched b).out = s.out := by
  unfold State.loSwitched
  dsimp only
  exact ⟨State.forEach_keeps (f := fun p s => s.freezeFor p 10000) State.mem (fun _ _ => rfl) _ _,
    State.forEach_keeps (f := fun p s => s.freezeFor p 10000) State.out (fun _ _ => rfl) _ _⟩

theorem State.timers_loSwitched (s : State) (b : Nat) : (s.loSwitched b).timers = s.timers := by
  unfold State.loSwitched
  dsimp only
  exact State.forEach_keeps (f := fun p s => s.freezeFor p 10000) State.timers (fun _ _ => rfl) _ _

theorem State.timers_forEach {α : Type} {f : α → State → State} (hf : ∀ a x, (f a x).timers = x.timers) (s : State) (l : List α) :
    (s.forEach l f).timers = s.timers := State.forEach_keeps State.timers hf s l

theorem State.timers_muteByLo (s : State) {b : Nat} (hb : b < 2) : (s.muteByLo b).timers = s.timers := by
  obtain ⟨⟨_, h⟩, _, _⟩ := muteByLo_spec s hb
  rw [h]

/-- What a hand-over of the paths of bank `b` changes besides. -/
def loSwitchWords (b a : Nat) : Prop :=
  loSide a ∨ a = (Reg.CLOCK.LO_STATUS.word b).addr ∨ a = (Reg.CLOCK.LO_COUNT.word b).addr ∨ a = Reg.BEAM.XFEED_PHASE.word.addr

theorem sameOff_loSwitched (s : State) (b : Nat) : SameOff (loSwitchWords b) s (s.loSwitched b) :=
  ((SameOff.refl s).put (f := Reg.BEAM.XFEED_PHASE.delta) (.inr (.inr (.inr rfl))) _).trans (.of_regs (s.regs_loSwitched b))

/-- The symbols that a hand-over degrades touch neither the state of a bank nor its losses. -/
theorem loDegraded_spec (s : State) (b : Fin 2) :
    SameOff (fun a => degradedWords a ∨ a = (Reg.CLOCK.LO_COUNT.word b.val).addr) s (s.loDegraded b.val) ∧
      (s.loDegraded b.val).get (Reg.CLOCK.LO_COUNT.losses b.val) = s.get (Reg.CLOCK.LO_COUNT.losses b.val) ∧
      (s.loDegraded b.val).timers = s.timers := by
  obtain ⟨x, hx⟩ : ∃ x, x = s.addTo (Reg.CLOCK.LO_COUNT.degraded_sym b.val) s.carriersOn.length := ⟨_, rfl⟩
  have heq : s.loDegraded b.val = x.forEach x.carriersOn fun c s => s.degraded c ((s.form c).symbolAt s.arrayNow) := by rw [hx]; rfl
  have hside : SameOff degradedWords x (s.loDegraded b.val) := by
    rw [heq]
    exact sameOff_degradedOn x _ (fun c hc => mem_carriersOn hc) fun s c => (s.form c).symbolAt s.arrayNow
  have hcount : ¬ degradedWords (Reg.CLOCK.LO_COUNT.word b.val).addr := by simp only [degradedWords]; omega
  refine ⟨?_, ?_, ?_⟩
  · have hfirst : SameOff (fun a => degradedWords a ∨ a = (Reg.CLOCK.LO_COUNT.word b.val).addr) s x := by
      rw [hx]
      exact (SameOff.refl s).put (f := Reg.CLOCK.LO_COUNT.degraded_sym b.val) (.inr rfl) _
    exact hfirst.trans (hside.mono fun _ => .inl)
  · rw [hside.get (f := Reg.CLOCK.LO_COUNT.losses b.val) hcount, hx]
    exact State.get_put_apart _ rfl (by simp [Fld.apart]) _
  · rw [heq, State.timers_forEach (fun c u => ?_), hx]
    · rfl
    · unfold State.degraded
      dsimp only
      split
      · rfl
      · split <;> rfl

/-- The other bank takes over the paths of bank `b` (R157). -/
theorem loCrossfeed_spec (s : State) (b : Fin 2) :
    (s.loCrossfeed b.val).crossfed b.val = true ∧ (s.loCrossfeed b.val).get Reg.BEAM.XFEED_PHASE.delta = s.get Reg.CLOCK.XFEED_MEAS.delta ∧
      (s.loCrossfeed b.val).get (Reg.CLOCK.LO_COUNT.losses b.val) = s.get (Reg.CLOCK.LO_COUNT.losses b.val) ∧
      (s.loCrossfeed b.val).loState b.val = s.loState b.val ∧
      (s.loCrossfeed b.val).get (Reg.CLOCK.LO_STATUS.own_lock b.val) = s.get (Reg.CLOCK.LO_STATUS.own_lock b.val) ∧
      SameOff (loSwitchWords b.val) s (s.loCrossfeed b.val) ∧ (s.loCrossfeed b.val).timers = s.timers ∧
      ∀ q, ∀ j < 8, ((s.loCrossfeed b.val).mutes q).testBit j =
        if q ∈ bankPaths b.val ∧ j = muteLo then !(s.loState b.val == loLocked || s.loState (1 - b.val) == loLocked) else (s.mutes q).testBit j := by
  obtain ⟨x, hx⟩ : ∃ x, x = s.put (Reg.CLOCK.LO_STATUS.crossfed b.val) 1 := ⟨_, rfl⟩
  obtain ⟨y, hy⟩ : ∃ y, y = (x.loSwitched b.val).loDegraded b.val := ⟨_, rfl⟩
  have heq : s.loCrossfeed b.val = y.muteByLo b.val := by rw [hy, hx]; rfl
  obtain ⟨hdeg, hlosses, htimers⟩ := loDegraded_spec (x.loSwitched b.val) b
  rw [← hy] at hdeg hlosses htimers
  obtain ⟨_, hmuteWords, hmute⟩ := muteByLo_spec y b.isLt
  have hsx : SameOff (loSwitchWords b.val) s x := by rw [hx]; exact (SameOff.refl s).put (f := Reg.CLOCK.LO_STATUS.crossfed b.val) (.inr (.inl rfl)) 1
  have hsy : SameOff (loSwitchWords b.val) s y :=
    (hsx.trans (sameOff_loSwitched x b.val)).trans (hdeg.mono fun a h => h.elim (fun h => .inl (.inr (.inr (.inr (.inr (by simp only [degradedWords] at h; omega)))))) fun h => .inr (.inr (.inl h)))
  have hstatus {f : Fld} (hf : f.addr = (Reg.CLOCK.LO_STATUS.word b.val).addr) : y.get f = x.get f := by
    rw [hdeg.get (f := f) (by rw [hf]; simp only [degradedWords]; omega), State.get_of_regs (x.regs_loSwitched b.val) f]
    exact State.get_put_elsewhere _ (by rw [hf]; dsimp only; omega) _
  have hmuted {f : Fld} (hf : f.addr < 0x100000 ∨ 0x140000 ≤ f.addr) : (y.muteByLo b.val).get f = y.get f :=
    hmuteWords.get (f := f) fun hp => by simp only [pathBlock] at hp; omega
  have hphase : ¬ (degradedWords Reg.BEAM.XFEED_PHASE.delta.addr ∨ Reg.BEAM.XFEED_PHASE.delta.addr = (Reg.CLOCK.LO_COUNT.word b.val).addr) := by
    simp only [degradedWords]
    omega
  have hstate : y.loState b.val = s.loState b.val := by
    rw [State.loState, hstatus (f := Reg.CLOCK.LO_STATUS.state b.val) rfl, hx]
    exact State.get_put_apart _ rfl (by simp [Fld.apart]) _
  have hother : y.loState (1 - b.val) = s.loState (1 - b.val) := by
    refine hsy.get (f := Reg.CLOCK.LO_STATUS.state (1 - b.val)) fun h => ?_
    rcases h with h | h | h | h
    · have := loSide_bounds h
      dsimp only at this
      omega
    all_goals dsimp only at h; omega
  have hcross : y.get (Reg.CLOCK.LO_STATUS.crossfed b.val) = 1 := by
    rw [hstatus (f := Reg.CLOCK.LO_STATUS.crossfed b.val) rfl, hx]
    exact State.get_put_same _ rfl 1
  rw [heq]
  refine ⟨?_, ?_, ?_, ?_, ?_, hsy.trans (hmuteWords.mono fun _ h => .inl (.inl h)), ?_, fun q j hj => (hmute q j hj).trans ?_⟩
  · rw [State.crossfed, State.flag, hmuted (f := Reg.CLOCK.LO_STATUS.crossfed b.val) (by dsimp only; omega), hcross]
    rfl
  · rw [hmuted (f := Reg.BEAM.XFEED_PHASE.delta) (by decide), hdeg.get (f := Reg.BEAM.XFEED_PHASE.delta) hphase,
      State.get_of_regs (x.regs_loSwitched b) Reg.BEAM.XFEED_PHASE.delta, State.get_put_same _ rfl, hx,
      State.get_put_elsewhere s (g := Reg.CLOCK.XFEED_MEAS.delta) (by dsimp only; omega)]
    exact Nat.mod_eq_of_lt (State.get_lt _ _)
  · rw [hmuted (f := Reg.CLOCK.LO_COUNT.losses b.val) (by dsimp only; omega), hlosses,
      State.get_of_regs (x.regs_loSwitched b) (Reg.CLOCK.LO_COUNT.losses b.val), State.get_put_elsewhere x (by dsimp only; omega), hx,
      State.get_put_elsewhere s (by dsimp only; omega)]
  · exact (hmuted (f := Reg.CLOCK.LO_STATUS.state b.val) (by dsimp only; omega)).trans hstate
  · rw [hmuted (f := Reg.CLOCK.LO_STATUS.own_lock b.val) (by dsimp only; omega), hstatus (f := Reg.CLOCK.LO_STATUS.own_lock b.val) rfl, hx]
    exact State.get_put_apart _ rfl (by simp [Fld.apart]) _
  · rw [State.timers_muteByLo y b.isLt, htimers, State.timers_loSwitched, hx, State.timers_put]
  · rw [State.loDelivers, hstate, hother, State.crossfed, State.flag, hcross]
    have hmutes : y.mutes q = s.mutes q := by
      rw [State.mutes, State.mutes, hdeg.get (f := Reg.PATH.STATUS.mute_reasons q) (by simp only [degradedWords]; omega),
        State.get_of_regs (x.regs_loSwitched b) (Reg.PATH.STATUS.mute_reasons q), State.get_put_elsewhere x (by dsimp only; omega), hx,
        State.get_put_elsewhere s (by dsimp only; omega)]
    rw [hmutes]
    simp

/-! ### The claims -/

theorem mem_bankPaths {b p : Nat} : p ∈ bankPaths b ↔ p / 32 = b := by
  constructor
  · intro h
    obtain ⟨n, hn, rfl⟩ := List.mem_map.1 h
    have := List.mem_range.1 hn
    omega
  · rintro rfl
    exact List.mem_map.2 ⟨p % 32, List.mem_range.2 (Nat.mod_lt _ (by decide)), by omega⟩

/-- A bank that locks takes its paths out of the mute, whatever it then does for the other bank. -/
theorem muteByBanks_spec (s : State) :
    SameOff pathBlock s s.muteByBanks ∧ s.muteByBanks.timers = s.timers ∧
      ∀ b : Fin 2, s.loDelivers b.val = true → ∀ q ∈ bankPaths b.val, (s.muteByBanks.mutes q).testBit muteLo = false := by
  obtain ⟨_, hwords0, hmute0⟩ := muteByLo_spec s (b := 0) (by decide)
  obtain ⟨_, hwords1, hmute1⟩ := muteByLo_spec (s.muteByLo 0) (b := 1) (by decide)
  refine ⟨hwords0.trans hwords1, (State.timers_muteByLo _ (by decide)).trans (State.timers_muteByLo _ (by decide)), fun b hdel q hq => ?_⟩
  refine (hmute1 q muteLo (by decide)).trans ?_
  rw [hmute0 q muteLo (by decide), loDelivers_of_sameOff hwords0 (by simp [pathBlock]) (by simp [pathBlock])]
  rw [mem_bankPaths] at hq
  by_cases hb : b.val = 1
  · rw [hb] at hq hdel
    simp [mem_bankPaths, hq, hdel]
  · rw [show b.val = 0 by omega] at hq hdel
    simp [mem_bankPaths, hq, hdel]

/-- What a bank that has locked reads. -/
structure LoLocked (b : Nat) (s : State) : Prop where
  state : s.loState b = loLocked
  attempt : s.get (Reg.CLOCK.LO_STATUS.attempt b) = 0
  timer : s.dueAt (.lo b) = none

theorem LoLocked.of_sameOff {A : Nat → Prop} {b : Nat} {s u : State} (h : LoLocked b s) (hw : SameOff A s u)
    (hA : ¬ A (Reg.CLOCK.LO_STATUS.word b).addr) (ht : u.timers = s.timers) : LoLocked b u where
  state := (hw.get (f := Reg.CLOCK.LO_STATUS.state b) hA).trans h.state
  attempt := (hw.get (f := Reg.CLOCK.LO_STATUS.attempt b) hA).trans h.attempt
  timer := by rw [State.dueAt, ht]; exact h.timer

/-- The bank that locks stays so while it takes over the other bank's paths. -/
theorem LoLocked.loCrossfeed_other {b : Fin 2} {s : State} (h : LoLocked b.val s) :
    LoLocked b.val ((s.loCrossfeed (otherBank b.val)).notice .degradation) ∧
      ∀ p ∈ bankPaths b.val, ((s.loCrossfeed (otherBank b.val)).notice .degradation).mutes p = (s.loCrossfeed (otherBank b.val)).mutes p := by
  obtain ⟨_, _, _, _, _, hwords, htimers, _⟩ := loCrossfeed_spec s ⟨otherBank b.val, by simp only [otherBank]; omega⟩
  have hnotice : SameOff recordWords (s.loCrossfeed (otherBank b.val)) ((s.loCrossfeed (otherBank b.val)).notice .degradation) :=
    (SameOff.refl _).notice (by simp [recordWords]) _
  refine ⟨h.of_sameOff (hwords.trans (hnotice.mono fun _ h => .inl (.inr (.inr (.inl h))))) (fun hA => ?_) (by rw [State.timers_notice, htimers]),
    fun p hp => hnotice.get (f := Reg.PATH.STATUS.mute_reasons p) ?_⟩
  · rcases hA with h | h | h | h
    · exact not_loSide_status b h
    all_goals simp only [otherBank] at h; omega
  · simp only [recordWords, List.mem_cons, List.not_mem_nil, or_false]
    omega

theorem locked_muteByBanks {b : Fin 2} {s : State} (h : LoLocked b.val s) :
    LoLocked b.val s.muteByBanks ∧ ∀ p ∈ bankPaths b.val, (s.muteByBanks.mutes p).testBit muteLo = false := by
  obtain ⟨hwords, htimers, hmutes⟩ := muteByBanks_spec s
  exact ⟨h.of_sameOff hwords (by simp only [pathBlock]; omega) htimers, hmutes b (by simp [State.loDelivers, h.state])⟩

/-- A bank that has settled, before its paths are asked. -/
def State.loSettled (s : State) (b : Nat) : State :=
  (((s.loEnter b loLocked).put (Reg.CLOCK.LO_STATUS.attempt b) 0).disarm (.lo b)).modBank b fun x =>
    { x with everLocked := true, lockedAt := ((s.loEnter b loLocked).put (Reg.CLOCK.LO_STATUS.attempt b) 0).arrayNow }

theorem State.dueAt_disarm (s : State) (x : Timer) : (s.disarm x).dueAt x = none := by simp [State.dueAt, State.disarm]

theorem locked_loSettled (s : State) (b : Nat) : LoLocked b (s.loSettled b) := by
  refine ⟨?_, ?_, ?_⟩
  · rw [State.loState, State.loSettled, State.get_modBank, State.get_disarm, State.get_put_apart _ rfl (by simp [Fld.apart])]
    exact State.loState_loEnter ..
  · rw [State.loSettled, State.get_modBank, State.get_disarm]
    exact State.get_put_same _ rfl 0
  · rw [State.dueAt, State.loSettled, State.timers_modBank]
    exact State.dueAt_disarm ..

/-- A bank that has settled is LOCKED, and may take over the other bank's paths (R153, R155). -/
theorem State.loSettleDone_of_due {s : State} {b : Nat} (hstate : s.loState b = loSettle) (hdue : s.due (.lo b) = true) :
    s.loSettleDone b = (s.loSettled b).muteByBanks.initBegins ∨
      s.loSettleDone b = (((s.loSettled b).muteByBanks.loCrossfeed (otherBank b)).notice .degradation).initBegins := by
  unfold State.loSettleDone
  rw [if_pos (by rw [hstate, hdue]; rfl)]
  dsimp only
  split
  · exact .inr rfl
  · exact .inl rfl

theorem locked_initBegins {b : Nat} {u : State} (h : LoLocked b u ∧ ∀ p ∈ bankPaths b, (u.mutes p).testBit muteLo = false) :
    LoLocked b u.initBegins ∧ ∀ p ∈ bankPaths b, (u.initBegins.mutes p).testBit muteLo = false := by
  have hregs : u.initBegins.regs = u.regs := by obtain ⟨_, heq⟩ := u.initBegins_shape; rw [heq]
  have htimers : u.initBegins.timers = u.timers := by obtain ⟨_, heq⟩ := u.initBegins_shape; rw [heq]
  refine ⟨h.1.of_sameOff (A := fun _ => False) (.of_regs hregs) id htimers, fun p hp => ?_⟩
  rw [State.mutes, State.get_of_regs hregs]
  exact h.2 p hp

theorem loSettleDone_spec (s : State) (b : Fin 2) (hstate : s.loState b.val = loSettle) (hdue : s.due (.lo b.val) = true) :
    LoLocked b.val (s.loSettleDone b.val) ∧ ∀ p ∈ bankPaths b.val, ((s.loSettleDone b.val).mutes p).testBit muteLo = false := by
  obtain ⟨hall, hmutes⟩ := locked_muteByBanks (locked_loSettled s b.val)
  obtain h | h := State.loSettleDone_of_due hstate hdue
  · rw [h]
    exact locked_initBegins ⟨hall, hmutes⟩
  · obtain ⟨hrest, hsame⟩ := hall.loCrossfeed_other
    obtain ⟨_, _, _, _, _, _, _, hbits⟩ := loCrossfeed_spec (s.loSettled b.val).muteByBanks ⟨otherBank b.val, by simp only [otherBank]; omega⟩
    rw [h]
    refine locked_initBegins ⟨hrest, fun p hp => ?_⟩
    rw [hsame p hp, hbits p muteLo (by decide), if_neg]
    · exact hmutes p hp
    · rw [mem_bankPaths] at hp
      simp only [mem_bankPaths, otherBank]
      omega

theorem claim_loLocking : Claim.LoLocking := by
  intro s t b
  have hrun {n : Nat} (h : s.loState b.val = n) (hd : (s.atTime t).due (.lo b.val) = true) :
      ((s.atTime t).loState b.val == n && (s.atTime t).due (.lo b.val)) = true := by
    rw [Bool.and_eq_true_iff, beq_iff_eq]
    exact ⟨h, hd⟩
  refine ⟨fun c hc hno => ?_, fun hno => Gives.of_eq rfl (if_neg (by simpa [State.loState] using hno)), fun hacq => ?_, fun hdue => ⟨fun hst => ?_, fun hst => ?_,
    fun hst => ⟨fun hlt => ?_, fun hle hpower => ?_⟩, fun hst => ?_⟩⟩
  · have hcond {n : Nat} (h : s.loState b.val ≠ n ∨ (s.atTime t).due (.lo b.val) = false) :
        ¬ (((s.atTime t).loState b.val == n && (s.atTime t).due (.lo b.val)) = true) := by
      rw [Bool.and_eq_true_iff, beq_iff_eq]
      rintro ⟨h1, h2⟩
      exact h.elim (fun h => h h1) fun h => by rw [h] at h2; exact Bool.noConfusion h2
    simp only [List.mem_cons, List.not_mem_nil, or_false] at hc
    rcases hc with rfl | rfl | rfl | rfl <;> exact Gives.of_eq rfl (if_neg (hcond hno))
  · have hg : Gives (.loLockDeclared t b) s
        ((((s.atTime t).loEnter b.val loSettle).put (Reg.CLOCK.LO_STATUS.own_lock b.val) 1).arm (.lo b.val)
          ((((s.atTime t).loEnter b.val loSettle).put (Reg.CLOCK.LO_STATUS.own_lock b.val) 1).now + ticksOfUs 30)) :=
      Gives.of_eq rfl (if_pos (by simpa [State.loState] using hacq))
    refine ⟨_, hg, ?_, ?_, ?_, ?_, rfl⟩
    · rw [State.loState, State.get_arm, State.get_put_apart _ rfl (by simp [Fld.apart])]
      exact State.loState_loEnter ..
    · rw [State.get_arm]
      exact State.get_put_same _ rfl 1
    · exact State.dueAt_arm ..
    · have hwords : SameOff (· ∈ [(Reg.CLOCK.LO_STATUS.word b.val).addr]) s ((s.atTime t).loEnter b.val loSettle) :=
        fun a ha => (sameWords_loEnter (s.atTime t) b.val loSettle) a ha
      exact (hwords.put (f := Reg.CLOCK.LO_STATUS.own_lock b.val) (by simp) 1).trans (.of_regs rfl)
  · have hg : Gives (.loBiasDone t b) s ((s.atTime t).femFlush.loToBand b.val) := Gives.of_eq rfl (if_pos (hrun hst hdue))
    refine ⟨hg, fun hnone => ?_⟩
    rw [State.femFlush_of_nothing_due (s := s.atTime t) hnone] at hg
    exact ⟨_, hg, State.loState_loToBand _ _, State.dueAt_loToBand _ _,
      fun hlen => State.div_loToBand (s.atTime t) _ (lt_of_lt_of_eq b.isLt hlen.symm), fun a ha => sameWords_loToBand (s.atTime t) b.val a ha⟩
  · refine ⟨((s.atTime t).loEnter b.val loAcquire).arm (.lo b.val) ((s.atTime t).now + ticksOfMs 1), Gives.of_eq rfl (if_pos (hrun hst hdue)), ?_,
      State.dueAt_arm _ _ _, fun a ha => sameWords_loEnter (s.atTime t) b.val loAcquire a ha⟩
    rw [State.loState, State.get_arm]
    exact State.loState_loEnter ..
  · have hg : Gives (.loAcquireTimeout t b) s ((s.atTime t).loAttemptFailed b.val) := Gives.of_eq rfl (if_pos (hrun hst hdue))
    obtain ⟨hband, hattempt, htimer⟩ := (loAttemptFailed_spec (s.atTime t) b).1 hlt
    exact ⟨_, hg, hband, hattempt, htimer⟩
  · have hg : Gives (.loAcquireTimeout t b) s ((s.atTime t).loAttemptFailed b.val) := Gives.of_eq rfl (if_pos (hrun hst hdue))
    obtain ⟨hfailed, hlock⟩ := (loAttemptFailed_spec (s.atTime t) b).2 hle hpower
    exact ⟨_, hg, hfailed, hlock⟩
  · obtain ⟨⟨hstate, hattempt, htimer⟩, hmutes⟩ := loSettleDone_spec (s.atTime t) b hst hdue
    exact ⟨_, Gives.of_eq rfl rfl, hstate, hattempt, htimer, hmutes⟩

/-! ### Loss of lock -/

theorem sameOff_loLeft (s : State) {b : Nat} (hb : b < 2) : SameOff loSide s (s.loLeft b) := by
  have hpaths : SameOff loSide s (s.forEach (bankPaths b) fun p s => (s.modObs p fun o => { o with attenRef := none }).calLost p 3) := by
    refine .forEach_mem fun p hp x => SameOff.trans (.of_regs rfl) ((calEnds_calLost (x.modObs p fun o => { o with attenRef := none }) p 3).words.mono ?_)
    have := lt_of_mem_bankPaths hb hp
    rintro a (rfl | rfl) <;> exact .inl (by simp only [pathBlock]; omega)
  refine hpaths.trans ?_
  show SameOff loSide _ (State.markStale _)
  generalize s.forEach (bankPaths b) _ = x
  have hmark {u : State} (h : u.regs = (x.put Reg.OTA.STATUS.stale 1).regs) : SameOff loSide x u :=
    ((SameOff.refl x).put (f := Reg.OTA.STATUS.stale) (.inr (.inr (.inr (.inl rfl)))) 1).trans (.of_regs h)
  unfold State.markStale
  dsimp only
  split
  · exact hmark rfl
  · exact (hmark rfl).trans ((sends_sendUp _ _).words.mono fun _ h => .inr (.inl h))

theorem sameOff_loLost (s : State) {b : Nat} (hb : b < 2) : SameOff pathBlock s (s.loLost b) := by
  have hcount (x : State) (p c n : Nat) (dl : Bool) (hp : p < 64) : SameOff pathBlock x (x.countLost p c n dl) := by
    unfold State.countLost
    dsimp only
    split
    · exact .refl x
    · exact SameOff.put (f := Reg.PATH.LOST_SYM.word p) (.of_regs rfl) (by simp only [pathBlock]; omega) _
  have hon (x : State) (c n : Nat) (dl : Bool) : SameOff pathBlock x (x.lostOn b c n dl) := by
    unfold State.lostOn
    refine .ite (.forEach_mem fun p hp y => hcount y p c n dl ?_) (.refl x)
    exact lt_of_mem_bankPaths hb (List.mem_of_mem_filter hp)
  exact .forEach_mem fun c _ x => (hon x c _ true).trans (hon _ c _ false)

theorem sameOff_loRecord (s : State) (b action : Nat) : SameOff recordWords s (s.loRecord b action) :=
  (sameOff_record _ _).notice (by simp [recordWords]) _

/-- What a bank reads that has just lost lock, before the other one is asked. -/
structure LoLossState (b : Nat) (s u : State) : Prop where
  state : u.loState b = loBand
  lock : u.get (Reg.CLOCK.LO_STATUS.own_lock b) = 0
  losses : u.get (Reg.CLOCK.LO_COUNT.losses b) = (s.get (Reg.CLOCK.LO_COUNT.losses b) + 1) % 2 ^ (Reg.CLOCK.LO_COUNT.losses b).width
  other : u.loState (1 - b) = s.loState (1 - b)

/-- The state of a bank that lost lock, once it is in BAND and its paths are left. -/
def State.loLossLeft (s : State) (b : Nat) : State :=
  (((s.bump (Reg.CLOCK.LO_COUNT.losses b)).modBank b fun x => { x with byLoss := true }).loToBand b).loLeft b

theorem State.loLossLocked_of_not_feeding {s : State} {b : Nat} (h : s.crossfed (otherBank b) = false) :
    s.loLossLocked b =
      if (s.loState (otherBank b) == loLocked && s.loSameFreq && !decide (s.boot.phase = .booting)) = true then
        ((s.loLossLeft b).loCrossfeed b).loRecord b 6
      else ((s.loLossLeft b).loMute b).loRecord b 0 := by
  unfold State.loLossLocked
  dsimp only
  rw [h, if_neg Bool.false_ne_true]
  rfl

theorem loLossLeft_spec (s : State) (b : Fin 2) :
    LoLossState b.val s (s.loLossLeft b.val) ∧ (s.loLossLeft b.val).crossfed b.val = s.crossfed b.val ∧
      (s.loLossLeft b.val).get Reg.CLOCK.XFEED_MEAS.delta = s.get Reg.CLOCK.XFEED_MEAS.delta := by
  obtain ⟨x, hx⟩ : ∃ x, x = (s.bump (Reg.CLOCK.LO_COUNT.losses b.val)).modBank b.val fun x => { x with byLoss := true } := ⟨_, rfl⟩
  have hleft {f : Fld} (h1 : 0x50000 ≤ f.addr) (h2 : f.addr < 0x60000) : (s.loLossLeft b.val).get f = (x.loToBand b.val).get f := by
    rw [State.loLossLeft, ← hx]
    exact (sameOff_loLeft _ b.isLt).get (f := f) fun h => by have := loSide_bounds h; omega
  have hbump {f : Fld} (h : (Reg.CLOCK.LO_COUNT.losses b.val).apart f = true) : x.get f = s.get f := by
    rw [hx, State.get_modBank]
    exact State.get_put_apart _ rfl h _
  have hfar {f : Fld} (h : f.addr ∉ [(Reg.CLOCK.LO_STATUS.word b.val).addr, Reg.CLOCK.XFEED_MEAS.word.addr]) :
      (x.loToBand b.val).get f = x.get f := State.get_of_sameWords (sameWords_loToBand x b.val) h
  refine ⟨⟨?_, ?_, ?_, ?_⟩, ?_, ?_⟩
  · rw [State.loState, hleft (by dsimp only; omega) (by dsimp only; omega)]
    exact State.loState_loToBand x b.val
  · rw [hleft (by dsimp only; omega) (by dsimp only; omega)]
    exact State.own_lock_loToBand x b.val
  · rw [hleft (by dsimp only; omega) (by dsimp only; omega), hfar (by simp; omega), hx, State.get_modBank]
    exact State.get_put_same _ rfl _
  · rw [State.loState, hleft (by dsimp only; omega) (by dsimp only; omega), hfar (by simp; omega), hbump (by simp [Fld.apart]; omega)]
    rfl
  · rw [State.crossfed, State.flag, hleft (by dsimp only; omega) (by dsimp only; omega),
      State.get_loToBand _ _ (by simp [Fld.apart]) (by simp [Fld.apart]) (by simp [Fld.apart]) (by simp [Fld.apart]), hbump (by simp [Fld.apart])]
    rfl
  · rw [hleft (by decide) (by decide), State.get_loToBand _ _ (by simp [Fld.apart]) (by simp [Fld.apart]) (by simp [Fld.apart])
      (by simp [Fld.apart]), hbump (by simp [Fld.apart])]

/-- A record and its notice leave what a bank reads. -/
theorem LoLossState.loRecord {b : Fin 2} {s u : State} (h : LoLossState b.val s u) (action : Nat) : LoLossState b.val s (u.loRecord b.val action) := by
  have hget {f : Fld} (h1 : 0x50000 ≤ f.addr) (h2 : f.addr < 0x60000) : (u.loRecord b.val action).get f = u.get f :=
    (sameOff_loRecord u b.val action).get (f := f) fun h => by have := loSide_bounds (.inr (.inr (.inl h))); omega
  exact ⟨(hget (by dsimp only; omega) (by dsimp only; omega)).trans h.state, (hget (by dsimp only; omega) (by dsimp only; omega)).trans h.lock,
    (hget (by dsimp only; omega) (by dsimp only; omega)).trans h.losses, (hget (by dsimp only; omega) (by dsimp only; omega)).trans h.other⟩

/-- A record and its notice leave the cross-feed and the mutes. -/
theorem loRecord_keeps (u : State) (b : Fin 2) (action : Nat) :
    (u.loRecord b.val action).crossfed b.val = u.crossfed b.val ∧
      (u.loRecord b.val action).get Reg.BEAM.XFEED_PHASE.delta = u.get Reg.BEAM.XFEED_PHASE.delta ∧
      ∀ p, (u.loRecord b.val action).mutes p = u.mutes p := by
  have hget {f : Fld} (h : 0x50000 ≤ f.addr ∧ f.addr < 0x60000 ∨ 0x100000 ≤ f.addr) : (u.loRecord b.val action).get f = u.get f :=
    (sameOff_loRecord u b.val action).get (f := f) fun h' => by
      simp only [recordWords, List.mem_cons, List.not_mem_nil, or_false] at h'
      rcases h' with h' | h' | h' | h' <;> rw [h'] at h <;> revert h <;> decide
  refine ⟨?_, hget (by decide), fun p => hget (.inr (by dsimp only; omega))⟩
  rw [State.crossfed, State.flag, hget (.inl (by dsimp only; omega))]
  rfl

/-- The lost symbols and the mute of a bank's paths leave what the bank reads. -/
theorem LoLossState.loMute {b : Fin 2} {s u : State} (h : LoLossState b.val s u) (hfed : u.crossfed b.val = false) :
    LoLossState b.val s (u.loMute b.val) ∧ (u.loMute b.val).crossfed b.val = false ∧
      ∀ p ∈ bankPaths b.val, ((u.loMute b.val).mutes p).testBit muteLo = true := by
  obtain ⟨_, hmuted, hbits⟩ := muteByLo_spec (u.loLost b.val) b.isLt
  have hlost : SameOff pathBlock u (u.loLost b.val) := sameOff_loLost u b.isLt
  have hget {f : Fld} (h : f.addr < 0x60000) : (u.loMute b.val).get f = u.get f :=
    (hlost.trans hmuted).get (f := f) fun h' => by simp only [pathBlock] at h'; omega
  have hnone : (u.loLost b.val).loDelivers b.val = false := by
    rw [loDelivers_of_sameOff hlost (by simp only [pathBlock]; omega) (by simp only [pathBlock]; omega), State.loDelivers, h.state, hfed]
    rfl
  refine ⟨⟨(hget (by dsimp only; omega)).trans h.state, (hget (by dsimp only; omega)).trans h.lock, (hget (by dsimp only; omega)).trans h.losses,
    (hget (by dsimp only; omega)).trans h.other⟩, ?_, fun p hp => (hbits p muteLo (by decide)).trans ?_⟩
  · rw [← hfed, State.crossfed, State.flag, hget (by dsimp only; omega)]
    rfl
  · rw [if_pos ⟨hp, rfl⟩, hnone]
    rfl

theorem LoLossState.loCrossfeed {b : Fin 2} {s u : State} (h : LoLossState b.val s u) (hother : u.loState (1 - b.val) = loLocked) :
    LoLossState b.val s (u.loCrossfeed b.val) ∧ (u.loCrossfeed b.val).crossfed b.val = true ∧
      (u.loCrossfeed b.val).get Reg.BEAM.XFEED_PHASE.delta = u.get Reg.CLOCK.XFEED_MEAS.delta ∧
      ∀ p ∈ bankPaths b.val, ((u.loCrossfeed b.val).mutes p).testBit muteLo = false := by
  obtain ⟨hfed, hphase, hlosses, hstate, hlock, hwords, _, hbits⟩ := loCrossfeed_spec u b
  refine ⟨⟨hstate.trans h.state, hlock.trans h.lock, hlosses.trans h.losses, ?_⟩, hfed, hphase, fun p hp => (hbits p muteLo (by decide)).trans ?_⟩
  · rw [← h.other]
    refine hwords.get (f := Reg.CLOCK.LO_STATUS.state (1 - b.val)) fun h => ?_
    rcases h with h | h | h | h
    · have := loSide_bounds h
      dsimp only at this
      omega
    all_goals dsimp only at h; omega
  · rw [if_pos ⟨hp, rfl⟩, hother]
    simp

theorem claim_loLoss : Claim.LoLoss := by
  intro s t b
  refine ⟨fun hlock hset => ?_, fun hset => ?_, fun hlock hfed hfeeds => ?_⟩
  · exact Gives.of_eq rfl (by
      unfold State.loLockLoss
      rw [if_neg (by simpa [State.loState] using hlock), if_neg (by simpa [State.loState] using hset)])
  · exact Gives.of_eq rfl (by
      unfold State.loLockLoss
      rw [if_neg (by simp [show (s.atTime t).loState b.val = loSettle from hset, loSettle, loLocked]), if_pos (by simpa [State.loState] using hset)])
  · obtain ⟨hleft, hcross, hdelta⟩ := loLossLeft_spec (s.atTime t) b
    have hgood : ((s.atTime t).loState (otherBank b.val) == loLocked && (s.atTime t).loSameFreq && !decide ((s.atTime t).boot.phase = .booting)) = true ↔
        s.loState (1 - b.val) = loLocked ∧ s.loSameFreq = true ∧ s.boot.phase ≠ .booting := by
      rw [Bool.and_eq_true_iff, Bool.and_eq_true_iff, beq_iff_eq, Bool.not_eq_true', decide_eq_false_iff_not, and_assoc]
      exact Iff.rfl
    have hg : Gives (.loLockLoss t b) s ((s.atTime t).loLossLocked b.val) := Gives.of_eq rfl (if_pos (beq_iff_eq.2 hlock))
    rw [State.loLossLocked_of_not_feeding (s := s.atTime t) hfeeds] at hg
    by_cases hok : s.loState (1 - b.val) = loLocked ∧ s.loSameFreq = true ∧ s.boot.phase ≠ .booting
    · rw [if_pos (hgood.2 hok)] at hg
      obtain ⟨hbank, hfed', hphase, hmutes⟩ := hleft.loCrossfeed (hleft.other.trans hok.1)
      obtain ⟨hfedR, hphaseR, hmutesR⟩ := loRecord_keeps (((s.atTime t).loLossLeft b.val).loCrossfeed b.val) b 6
      obtain ⟨hstate, hlock', hlosses, hother⟩ := hbank.loRecord 6
      exact ⟨_, hg, hstate, hlock', hlosses, hother,
        fun _ _ _ => ⟨hfedR.trans hfed', hphaseR.trans (hphase.trans hdelta), fun p hp => by rw [hmutesR]; exact hmutes p hp⟩,
        fun h => h.elim (fun h => absurd hok.1 h) fun h => h.elim (fun h => absurd (hok.2.1.symm.trans h) (by decide)) fun h => absurd h hok.2.2⟩
    · rw [if_neg (fun h => hok (hgood.1 h))] at hg
      obtain ⟨hbank, hfed', hmutes⟩ := hleft.loMute (hcross.trans hfed)
      obtain ⟨hfedR, _, hmutesR⟩ := loRecord_keeps (((s.atTime t).loLossLeft b.val).loMute b.val) b 0
      obtain ⟨hstate, hlock', hlosses, hother⟩ := hbank.loRecord 0
      exact ⟨_, hg, hstate, hlock', hlosses, hother, fun h1 h2 h3 => absurd ⟨h1, h2, h3⟩ hok,
        fun _ => ⟨hfedR.trans hfed', fun p hp => by rw [hmutesR]; exact hmutes p hp⟩⟩

/-! ### Hand-back and relock -/

theorem claim_loHandover : Claim.LoHandover := by
  intro s t ch b
  refine ⟨fun hno => ?_, fun hlock hfed hhold => ⟨fun hone hgap => ?_, fun hfdd hact hbound => ?_⟩, fun hr => ?_⟩
  · refine Gives.of_eq rfl (if_neg ?_)
    simp only [Bool.and_eq_true_iff, beq_iff_eq, Bool.not_eq_true', State.flag]
    rintro ⟨⟨⟨h1, h2⟩, h3⟩, -⟩
    rcases hno with h | h | h
    · exact h h1
    · exact absurd (h2.symm.trans h) (by decide)
    · rw [State.get_atTime, h] at h3
      exact absurd h3 (by decide)
  · have hfdd : (s.allFdd && !s.activeCarriers.isEmpty) = false := by
      rcases hone with h | h
      · rw [h, Bool.false_and]
      · rw [h]
        simp
    have hg : Gives (.loHandback t b) s (((s.atTime t).put (Reg.CLOCK.LO_STATUS.crossfed b.val) 0).loSwitched b.val) := by
      refine Gives.of_eq rfl ?_
      unfold State.loHandback
      dsimp only
      rw [show (s.atTime t).allFdd = s.allFdd from rfl, show (s.atTime t).activeCarriers = s.activeCarriers from rfl, hfdd]
      exact if_pos (by
        rw [show (s.atTime t).loState b.val = loLocked from hlock, show (s.atTime t).crossfed b.val = true from hfed, State.flag, State.get_atTime, hhold,
          if_neg Bool.false_ne_true, hgap]
        rfl)
    have hregs := State.regs_loSwitched ((s.atTime t).put (Reg.CLOCK.LO_STATUS.crossfed b.val) 0) b.val
    obtain ⟨hmem, hout⟩ := State.loSwitched_keeps ((s.atTime t).put (Reg.CLOCK.LO_STATUS.crossfed b.val) 0) b.val
    refine ⟨_, hg, ?_, ?_, ?_, hmem, hout, ?_⟩
    · rw [State.crossfed, State.flag, State.get_of_regs hregs, State.get_put_elsewhere _ (by dsimp only; omega), State.get_put_same _ rfl]
      rfl
    · rw [State.loState, State.get_of_regs hregs, State.get_put_elsewhere _ (by dsimp only; omega), State.get_put_apart _ rfl (by simp [Fld.apart])]
      exact hlock
    · rw [State.get_of_regs hregs, State.get_put_same _ rfl, State.get_put_elsewhere _ (by dsimp only; omega)]
      exact Nat.mod_eq_of_lt (State.get_lt _ _)
    · rw [State.get_of_regs hregs, State.get_put_elsewhere _ (by dsimp only; omega), State.get_put_elsewhere _ (by dsimp only; omega)]
      rfl
  · refine Gives.of_eq rfl (if_neg ?_)
    have hboth : ((s.atTime t).allFdd && !(s.atTime t).activeCarriers.isEmpty) = true := by
      rw [Bool.and_eq_true_iff]
      exact ⟨hfdd, by simpa [List.isEmpty_iff] using show (s.atTime t).activeCarriers ≠ [] from hact⟩
    rw [hboth, if_pos rfl, Bool.and_eq_true_iff, beq_iff_eq]
    exact fun h => hbound h.2
  · exact gives_hostCmd (f := fun s => s.modBank b.val fun x => { x with relock := true }) hr rfl

/-- Settles O29: the dividers, the steps of locking, what a loss of lock leaves to each bank, and the ways back. -/
theorem loBanks : Obligations.LoBanks := ⟨claim_loDividers, claim_loLocking, claim_loLoss, claim_loHandover⟩

end Sys2Proof.Machine
end

