-- ==== Sys2Proof/Proofs/CarrierTimeline.lean ====
section
/-!
The symbols of a carrier on the array's time line (R238).
-/

namespace Sys2Proof.Machine

open Sys2Proof

/-! ### The timeline -/

/-- A half-subframe is its symbols, the first longer by what is left over (R238). -/
theorem CarrierRec.half_eq {r : CarrierRec} (h : r.spacing ≤ 3) :
    r.symsPerHalf * r.symLen + r.symExtra = planningSlot ∧ 0 < r.symsPerHalf ∧ 0 < r.symLen := by
  obtain h | h | h | h : r.spacing = 0 ∨ r.spacing = 1 ∨ r.spacing = 2 ∨ r.spacing = 3 := by omega
  all_goals
    simp only [symsPerHalf, symLen, symExtra, h]
    cases r.ecp <;> decide

section

variable {r : CarrierRec} (h : r.spacing ≤ 3)

include h

/-- The symbol `l` of a half-subframe `k` begins at its place in it. -/
theorem CarrierRec.boundary_place (k : Nat) {l : Nat} (hl : l < r.symsPerHalf) :
    r.boundary (k * r.symsPerHalf + l) = k * planningSlot + if l = 0 then 0 else l * r.symLen + r.symExtra := by
  obtain ⟨_, hpos, _⟩ := half_eq h
  rw [boundary, Nat.mul_add_mod_of_lt hl, Nat.mul_comm k, Nat.mul_add_div hpos, Nat.div_eq_of_lt hl, Nat.add_zero]

/-- The first symbol of the next half-subframe ends the last one of this. -/
theorem CarrierRec.boundary_next (k : Nat) {l : Nat} (hl : l < r.symsPerHalf) :
    r.boundary (k * r.symsPerHalf + l + 1) = k * planningSlot + ((l + 1) * r.symLen + r.symExtra) := by
  obtain ⟨hhalf, hpos, _⟩ := half_eq h
  by_cases hlast : l + 1 < r.symsPerHalf
  · rw [Nat.add_assoc, boundary_place h k hlast, if_neg (Nat.succ_ne_zero l)]
  · have hl1 : l + 1 = r.symsPerHalf := by omega
    have hnext := boundary_place h (k + 1) hpos
    rw [Nat.add_zero, if_pos rfl, Nat.add_zero] at hnext
    rw [Nat.add_assoc, hl1, hhalf, ← Nat.succ_mul, hnext, Nat.succ_mul, Nat.add_zero]

/-- The place of an array time in its half-subframe. -/
theorem CarrierRec.symbolAt_place (a : Nat) : ∃ l < r.symsPerHalf, r.symbolAt a = a / planningSlot * r.symsPerHalf + l ∧
    (if l = 0 then 0 else l * r.symLen + r.symExtra) ≤ a % planningSlot ∧ a % planningSlot < (l + 1) * r.symLen + r.symExtra := by
  obtain ⟨hhalf, hpos, hlen⟩ := half_eq h
  have ho : a % planningSlot < planningSlot := Nat.mod_lt _ (by decide)
  by_cases hfirst : a % planningSlot < r.symLen + r.symExtra
  · refine ⟨0, hpos, ?_, Nat.zero_le _, by omega⟩
    simp only [symbolAt, if_pos hfirst]
  · obtain ⟨d, hd⟩ : ∃ d, d = (a % planningSlot - r.symExtra) / r.symLen := ⟨_, rfl⟩
    have hlow : d * r.symLen ≤ a % planningSlot - r.symExtra := hd ▸ Nat.div_mul_le_self _ _
    have hhigh : a % planningSlot - r.symExtra < (d + 1) * r.symLen := (Nat.div_lt_iff_lt_mul hlen).1 (hd ▸ Nat.lt_succ_self d)
    have hd0 : d ≠ 0 := by
      rintro rfl
      omega
    have hdN : d < r.symsPerHalf := by
      by_contra hge
      have := Nat.mul_le_mul_right r.symLen (Nat.le_of_not_lt hge)
      omega
    refine ⟨d, hdN, ?_, ?_, by omega⟩
    · simp only [symbolAt, if_neg hfirst, ← hd]
      rw [Nat.min_eq_left (by omega)]
    · rw [if_neg hd0]
      omega

theorem CarrierRec.boundary_symbolAt (a : Nat) : r.boundary (r.symbolAt a) ≤ a ∧ a < r.boundary (r.symbolAt a + 1) := by
  obtain ⟨l, hl, heq, hlow, hhigh⟩ := symbolAt_place h a
  have ha := Nat.div_add_mod' a planningSlot
  rw [heq, boundary_place h _ hl, boundary_next h _ hl]
  omega

theorem CarrierRec.strictMono_boundary : StrictMono r.boundary := by
  refine strictMono_nat_of_lt_succ fun n => ?_
  obtain ⟨_, hpos, hlen⟩ := half_eq h
  have hl : n % r.symsPerHalf < r.symsPerHalf := Nat.mod_lt _ hpos
  have hplace := boundary_place h (n / r.symsPerHalf) hl
  have hnext := boundary_next h (n / r.symsPerHalf) hl
  rw [Nat.div_add_mod'] at hplace hnext
  rw [hplace, hnext]
  split
  · rw [Nat.add_mul]
    omega
  · rw [Nat.add_mul]
    omega

end

/-- Settles O8: an array time has its place in a half-subframe, and boundaries rise strictly. -/
theorem symbolTimeline : Obligations.SymbolTimeline := by
  intro r h
  refine ⟨CarrierRec.boundary_symbolAt h, fun n => ?_, fun k => ?_⟩
  · obtain ⟨hlow, hhigh⟩ := CarrierRec.boundary_symbolAt h (r.boundary n)
    have h1 := (CarrierRec.strictMono_boundary h).le_iff_le.1 hlow
    have h2 := (CarrierRec.strictMono_boundary h).lt_iff_lt.1 hhigh
    omega
  · have := CarrierRec.boundary_place h k (CarrierRec.half_eq h).2.1
    rwa [if_pos rfl, Nat.add_zero, Nat.add_zero] at this

end Sys2Proof.Machine
end

