-- ==== Sys2Proof/Proofs/HallScalars.lean ====
section
/-!
The scalar results and flags of a hall (R333).
-/

namespace Sys2Proof.Machine

open Sys2Proof

/-! ### Flags -/

/-- The flags of a result and the register that takes it are one change of the set in force. -/
theorem HallCore.flags_setG (c : HallCore) (r : Word) (cy ov : Bool) (gd : Nat) :
    (c.flags r cy ov).setG gd r = c.modSet fun x => { g := x.g.set gd r, z := r == 0, n := r.msb, c := cy, v := ov } := by
  unfold flags setG modSet
  cases h : c.shadow <;> simp

theorem overflow_add (a b : Word) : (a.msb == b.msb && (a + b).msb != a.msb) = decide (a.toInt + b.toInt ≠ (a + b).toInt) := by
  rw [Bool.eq_iff_iff]
  simp only [Bool.and_eq_true, beq_iff_eq, bne_iff_ne, decide_eq_true_eq, BitVec.msb_eq_decide, BitVec.toInt_eq_toNat_cond, BitVec.toNat_add]
  have ha := a.isLt
  have hb := b.isLt
  simp only [ne_eq, decide_eq_decide]
  split <;> split <;> split <;> omega

theorem overflow_sub (a b : Word) : (a.msb != b.msb && (a - b).msb != a.msb) = decide (a.toInt - b.toInt ≠ (a - b).toInt) := by
  rw [Bool.eq_iff_iff]
  simp only [Bool.and_eq_true, bne_iff_ne, decide_eq_true_eq, BitVec.msb_eq_decide, BitVec.toInt_eq_toNat_cond, BitVec.toNat_sub]
  have ha := a.isLt
  have hb := b.isLt
  simp only [ne_eq, decide_eq_decide]
  split <;> split <;> split <;> omega

/-- The flags of a difference (R333). -/
theorem HallCore.subFlags_eq (c : HallCore) (a b : Word) :
    c.subFlags a b = c.flags (a - b) (decide (b.toNat ≤ a.toNat)) (decide (a.toInt - b.toInt ≠ (a - b).toInt)) := by
  rw [subFlags, overflow_sub]

/-- The low half of a word as a number is the word's own low half. -/
theorem simm_eq (w : Nat) : simm w = (BitVec.ofNat 16 w).signExtend 32 := by
  have hw : field w 0 16 = w % 2 ^ 16 := by simp [field]
  have hsigned : signed 16 (field w 0 16) = (BitVec.ofNat 16 w).toInt := by
    rw [hw, signed, BitVec.toInt_eq_toNat_cond, BitVec.toNat_ofNat]
    split <;> split <;> omega
  rw [simm, hsigned, BitVec.signExtend]

theorem toInt_simm (w : Nat) : (simm w).toInt = (BitVec.ofNat 16 w).toInt := by
  rw [simm_eq]
  exact BitVec.toInt_signExtend_of_le (by decide)

theorem ofNat_field (w : Nat) : BitVec.ofNat 32 (field w 0 16) = (BitVec.ofNat 16 w).zeroExtend 32 := by
  apply BitVec.eq_of_toNat_eq
  simp [field]

theorem ofNat_field_shift (w : Nat) : BitVec.ofNat 32 (field w 0 16 * 2 ^ 16) = (BitVec.ofNat 16 w).zeroExtend 32 <<< 16 := by
  apply BitVec.eq_of_toNat_eq
  simp [field, Nat.shiftLeft_eq]

/-! ### The instructions -/

/-- A scalar instruction without a reserved bit completes with its change of the register set. -/
theorem gives_scalarDo {i : Instr} {s : State} {t op w : Nat} {h : Fin 136} {bad : Nat → Bool} {f : Nat → HallCore → HallCore} {g : HallCore → HallCore}
    (hexec : exec i s = scalarDo t h op s bad f) (hop : op ∈ hallOpcodes) (hissue : s.issuing t h.val op w) (hbad : bad w = false)
    (hfg : f w (s.core h.val) = g (s.core h.val)) : Gives i s (s.completes t h.val g) := by
  rw [← State.completes_congr hfg]
  exact gives_completes (f := fun s w => reserved (bad w) (.next (s.modCore h.val (f w)))) hexec hop hissue
    (by simp only [hbad, reserved, Bool.false_eq_true, if_false])

/-- A sum completes with its carry and its signed overflow. -/
theorem HallCore.addG_eq (c : HallCore) (gd : Nat) (a b : Word) :
    c.addG gd a b = c.modSet fun x => { g := x.g.set gd (a + b), z := a + b == 0, n := (a + b).msb, c := decide (2 ^ 32 ≤ a.toNat + b.toNat),
                                        v := decide (a.toInt + b.toInt ≠ (a + b).toInt) } := by
  rw [addG, overflow_add, flags_setG]

theorem claim_hallScalar : Claim.HallScalar := by
  intro s t w h p hp hissue hbad r hr
  subst hr
  simp only [List.mem_cons, List.not_mem_nil, or_false] at hp
  obtain rfl | rfl | rfl | rfl | rfl | rfl | rfl | rfl | rfl := hp
  · refine gives_scalarDo rfl (by decide) hissue rfl ?_
    dsimp only
    rw [HallCore.addG_eq, toInt_simm, simm_eq]
    rfl
  · refine gives_scalarDo rfl (by decide) hissue rfl ?_
    dsimp only
    rw [HallCore.logicG, HallCore.flags_setG, ofNat_field_shift]
    rfl
  · refine gives_scalarDo rfl (by decide) hissue rfl ?_
    dsimp only
    rw [HallCore.logicG, HallCore.flags_setG, ofNat_field]
    rfl
  · refine gives_scalarDo rfl (by decide) hissue rfl ?_
    dsimp only
    rw [HallCore.addG_eq]
    rfl
  · refine gives_scalarDo rfl (by decide) hissue rfl ?_
    dsimp only
    rw [HallCore.subFlags_eq, HallCore.flags_setG]
    rfl
  iterate 3
    · refine gives_scalarDo rfl (by decide) hissue rfl ?_
      dsimp only
      rw [HallCore.logicG, HallCore.flags_setG]
      rfl
  · refine gives_scalarDo rfl (by decide) hissue (hbad rfl) ?_
    dsimp only
    rw [HallCore.subFlags_eq]
    rfl

/-- A shift by some places completes with the last bit shifted out, a shift by none with the operand and a free value as C. -/
theorem gives_shiftDo {i : Instr} {s : State} {t op w : Nat} {h : Fin 136} {r : Word → Nat → Word} {out : Word → Nat → Bool} {v : Word} {cy : Bool}
    (hexec : exec i s = shiftDo t h op s r out) (hop : op ∈ hallOpcodes) (hissue : s.issuing t h.val op w)
    (hv : r ((s.core h.val).ga w) (field w 0 5) = v) (hcy : field w 0 5 ≠ 0 → out ((s.core h.val).ga w) (field w 0 5) = cy)
    (hzero : field w 0 5 = 0 → v = (s.core h.val).ga w) :
    (field w 0 5 ≠ 0 → Gives i s (s.completes t h.val fun c => c.modSet fun x =>
      { g := x.g.set (field w 21 5) v, z := v == 0, n := v.msb, c := cy, v := false })) ∧
    (field w 0 5 = 0 → Gives i s { s.completes t h.val fun c => c.modSet fun x =>
      { g := x.g.set (field w 21 5) ((s.core h.val).ga w), z := (s.core h.val).ga w == 0, n := ((s.core h.val).ga w).msb,
        c := (Config.freeByte s.free).getLsbD 0, v := false } with free := s.free + 1 }) := by
  have hgives := gives_hallDo hexec hop hissue
  dsimp only [State.core_atTime] at hgives
  rw [hv] at hgives
  refine ⟨fun hn => ?_, fun hn => ?_⟩
  · rw [if_neg hn, if_neg hn, State.hallEnd, State.retireHall_modCore, hcy hn] at hgives
    refine hgives.of_eq (State.completes_congr (f := fun c => (c.flags _ _ _).setG _ _) ?_ t)
    exact HallCore.flags_setG ..
  · rw [if_pos hn, if_pos hn, State.hallEnd, State.retireHall_modCore, hzero hn] at hgives
    refine hgives.of_eq (congrArg (fun u : State => { u with free := s.free + 1 })
      (State.completes_congr (s := s) (f := fun c => (c.flags _ _ _).setG _ _) ?_ t))
    exact HallCore.flags_setG ..

theorem getLsbD_eq_decide (a : Word) (n : Nat) : a.getLsbD n = decide (a.toNat / 2 ^ n % 2 = 1) := by
  rw [BitVec.getLsbD, Nat.testBit_eq_decide_div_mod_eq]

theorem sshiftRight_eq_div (a : Word) (n : Nat) : a.sshiftRight n = BitVec.ofInt 32 (a.toInt / 2 ^ n) := by
  rw [BitVec.sshiftRight, Int.shiftRight_eq_div_pow]
  rfl

theorem ushiftRight_eq_div (a : Word) (n : Nat) : a >>> n = BitVec.ofNat 32 (a.toNat / 2 ^ n) := by
  refine BitVec.eq_of_toNat_eq ?_
  rw [BitVec.toNat_ushiftRight, Nat.shiftRight_eq_div_pow, BitVec.toNat_ofNat,
    Nat.mod_eq_of_lt (lt_of_le_of_lt (Nat.div_le_self _ _) a.isLt)]

theorem claim_hallShifts : Claim.HallShifts := by
  intro s t w n h a hn ha p hp hissue
  subst hn ha
  simp only [List.mem_cons, List.not_mem_nil, or_false] at hp
  obtain rfl | rfl | rfl := hp
  · exact gives_shiftDo (op := 0x18) (r := fun a n => a <<< n) (out := fun a n => a.getLsbD (32 - n)) rfl (by decide) hissue rfl (fun _ => getLsbD_eq_decide ..) fun hn => by
      rw [hn]
      exact BitVec.shiftLeft_zero _
  · exact gives_shiftDo (op := 0x19) (r := fun a n => a.sshiftRight n) (out := fun a n => a.getLsbD (n - 1)) rfl (by decide) hissue (sshiftRight_eq_div ..) (fun _ => getLsbD_eq_decide ..) fun hn => by
      rw [hn, ← sshiftRight_eq_div]
      exact BitVec.sshiftRight_zero
  · exact gives_shiftDo (op := 0x1A) (r := fun a n => a >>> n) (out := fun a n => a.getLsbD (n - 1)) rfl (by decide) hissue (ushiftRight_eq_div ..) (fun _ => getLsbD_eq_decide ..) fun hn => by
      rw [hn, ← ushiftRight_eq_div]
      exact BitVec.ushiftRight_zero ..

/-- Settles O36: each instruction is a change of the register set in force, and the flags are those of 32-bit arithmetic. -/
theorem hallScalarUnit : Obligations.HallScalarUnit := ⟨claim_hallScalar, claim_hallShifts⟩

end Sys2Proof.Machine
end

