-- ==== Sys2Proof/Proofs/HallIssues.lean ====
section
/-!
Which words a hall issues, and which trap (R321, R322, R349).
-/

namespace Sys2Proof.Machine

open Sys2Proof

/-! ### The newest record -/

/-- What the event log keeps of a record (R544). -/
def State.recordOf (s : State) (x : Rec) : LogRecord :=
  { seq := (s.get Reg.RECOVERY.LOG_HEAD.word + 1) % 2 ^ 32, time := x.since.getD s.arrayNow, kind := x.kind.code, cls := x.cls, unit := x.unit,
    inst := x.inst, cause := x.cause, action := x.action, spare := x.spare, missed := x.missed, degraded := x.degraded, detail := x.detail,
    tenths := x.tenths, carriers := x.carriers }

theorem State.log_keepLog (s : State) (r : LogRecord) : (s.keepLog r).log = s.log := by
  unfold State.keepLog
  split <;> rfl

/-- A record becomes the newest of the event log. -/
theorem State.log_record (s : State) (x : Rec) : (s.record x).log = (s.recordOf x :: s.log).take 256 := by
  rw [State.record, State.log_notice, State.writeRecord, State.recordOf]
  cases x.kind with
  | fault =>
    refine (State.log_keepLog _ _).trans ?_
    cases x.missed == 0 <;> rfl
  | retention | wedged => exact State.log_keepLog _ _
  | _ => rfl

theorem State.head_log_record (s : State) (x : Rec) : (s.record x).log.head? = some (s.recordOf x) := by
  rw [State.log_record]
  rfl

/-! ### Traps -/

/-- A trap leaves the hall's work and says so in the event log (R349). -/
theorem traps_of_gives {i : Instr} {s : State} {t h cause : Nat} (hlen : h < s.halls.length) (hgives : Gives i s ((s.atTime t).hallTrap h cause)) :
    Traps i s h cause := by
  have hhall : ((s.atTime t).modHall h fun x => { x with trap := cause, credit := none }).hall h =
      { s.hall h with trap := cause, credit := none } := by simp [State.hall, State.modHall, hlen]
  have hcore : ((s.atTime t).modHall h fun x => { x with trap := cause, credit := none }).core h = s.core h := by
    rw [State.core, hhall, State.core]
  have hkeeps (x : Rec) (u : State) : (u.record x).hall h = u.hall h := by rw [State.hall, State.hall, State.halls_record]
  refine ⟨_, hgives, ?_, ?_, ?_, ?_⟩
  · rw [State.hallTrap, hkeeps, hhall]
  · rw [State.hallTrap, State.core, hkeeps, ← State.core, hcore]
  · rw [State.hallTrap, State.mem_record]
    rfl
  · rw [State.hallTrap, State.head_log_record]
    simp only [State.recordOf, hcore]
    rfl

/-! ### Issue -/

theorem reserved_of_bad {bad : Bool} {r : HallRes} (hb : bad = true) : reserved bad r = .trap trapField := if_pos hb

/-- What each hall instruction does before its own meaning: it waits for its hall, traps, or is not the word's. -/
abbrev Issues (i : Instr) (op : Nat) (bad : Nat → Bool) (s : State) (t : Nat) (h : Fin 136) : Prop :=
  ((s.atTime t).hallReady h.val = false → Gives i s (s.atTime t)) ∧
  ((s.atTime t).hallReady h.val = true → field (s.hallWord h.val) 26 6 ∉ hallOpcodes → Traps i s h.val 1) ∧
  ((s.atTime t).hallReady h.val = true → field (s.hallWord h.val) 26 6 ∈ hallOpcodes → field (s.hallWord h.val) 26 6 ≠ op → Gives i s (s.atTime t)) ∧
  ((s.atTime t).hallReady h.val = true → field (s.hallWord h.val) 26 6 = op → bad (s.hallWord h.val) = true → Traps i s h.val 2)

section

variable {s : State} {t op : Nat} {h : Fin 136} {i : Instr} {bad : Nat → Bool} {f : State → Nat → HallRes}

theorem issues_hallDo (hlen : s.halls.length = 136) (hexec : exec i s = hallDo t h op s f) (hop : op ∈ hallOpcodes)
    (hbad : ∀ w, bad w = true → f (s.atTime t) w = .trap trapField) : Issues i op bad s t h := by
  have hh : h.val < s.halls.length := lt_of_lt_of_eq h.isLt hlen.symm
  have hg : Gives i s ((s.atTime t).issue h.val op fun w => f (s.atTime t) w) := by
    rw [Gives, hexec]
    rfl
  have hword : (s.atTime t).hallWord h.val = s.hallWord h.val := rfl
  refine ⟨fun hno => ?_, fun hready hill => ?_, fun hready hin hne => ?_, fun hready heq hb => ?_⟩
  · exact hg.of_eq (if_neg (by rw [hno]; exact Bool.false_ne_true))
  · refine traps_of_gives (t := t) hh (hg.of_eq ?_)
    simp [State.issue, hready, hword, hill, trapIllegal]
  · refine hg.of_eq ?_
    simp [State.issue, hready, hword, hin, hne]
  · refine traps_of_gives (t := t) hh (hg.of_eq ?_)
    simp [State.issue, hready, hword, heq, hop, hbad _ hb, State.hallEnd, trapField]

theorem issues_scalarDo {f : Nat → HallCore → HallCore} (hlen : s.halls.length = 136) (hexec : exec i s = scalarDo t h op s bad f)
    (hop : op ∈ hallOpcodes) : Issues i op bad s t h :=
  issues_hallDo (f := fun s w => reserved (bad w) (.next (s.modCore h.val (f w)))) hlen hexec hop fun _ hb => reserved_of_bad hb

theorem issues_vecDo {f : Nat → HallCore → List Cplx} (hlen : s.halls.length = 136) (hexec : exec i s = vecDo t h op s bad f)
    (hop : op ∈ hallOpcodes) : Issues i op bad s t h :=
  issues_hallDo (f := fun s w => reserved (bad w) (.next (s.setVec h.val (vD w) ((f w (s.core h.val)).map fun y => narrowC (vSat w) 18 y))))
    hlen hexec hop fun _ hb => reserved_of_bad hb

theorem issues_memDo {f : Nat → AddrGen → State → State} (hlen : s.halls.length = 136) (hexec : exec i s = memDo t h op s f)
    (hop : op ∈ hallOpcodes) : Issues i op badM s t h :=
  issues_hallDo (f := fun s w => reserved (badM w) (withPm h.val (mPm w)
      (.next ((f w ((s.core h.val).gen (mAg w)) s).advanceGen h.val (mAg w) (mPm w))))) hlen hexec hop fun _ hb => reserved_of_bad hb

theorem issues_macDo {f : Cplx → Cplx → Cplx → Cplx} (hlen : s.halls.length = 136) (hexec : exec i s = macDo t h op s f)
    (hop : op ∈ hallOpcodes) : Issues i op (fun w => badBank (vD w)) s t h := by
  unfold macDo at hexec
  exact issues_hallDo hlen hexec hop fun w hb => reserved_of_bad hb

/-- An instruction of which every field is valid. -/
theorem issues_anyField (hlen : s.halls.length = 136) (hexec : exec i s = hallDo t h op s f) (hop : op ∈ hallOpcodes) : Issues i op anyField s t h :=
  issues_hallDo hlen hexec hop fun _ hb => absurd hb Bool.false_ne_true

theorem issues_shiftDo {r : Word → Nat → Word} {out : Word → Nat → Bool} (hlen : s.halls.length = 136) (hexec : exec i s = shiftDo t h op s r out)
    (hop : op ∈ hallOpcodes) : Issues i op anyField s t h := issues_anyField hlen hexec hop

end

section

variable (s : State) (t : Nat) (h : Fin 136)

theorem exec_nop : exec (.nop t h) s = execNop t h s := rfl
theorem exec_jmp : exec (.jmp t h) s = execJmp t h s := rfl
theorem exec_call : exec (.call t h) s = execCall t h s := rfl
theorem exec_ret : exec (.ret t h) s = execRet t h s := rfl
theorem exec_loop : exec (.loop t h) s = execLoop t h s := rfl
theorem exec_waite : exec (.waite t h) s = execWaite t h s := rfl
theorem exec_rete : exec (.rete t h) s = execRete t h s := rfl
theorem exec_evmask : exec (.evmask t h) s = execEvmask t h s := rfl
theorem exec_sig : exec (.sig t h) s = execSig t h s := rfl
theorem exec_gets : exec (.gets t h) s = execGets t h s := rfl
theorem exec_puts : exec (.puts t h) s = execPuts t h s := rfl
theorem exec_send : exec (.send t h) s = execSend t h s := rfl
theorem exec_fetch : exec (.fetch t h) s = execFetch t h s := rfl
theorem exec_addi : exec (.addi t h) s = execAddi t h s := rfl
theorem exec_lui : exec (.lui t h) s = execLui t h s := rfl
theorem exec_ori : exec (.ori t h) s = execOri t h s := rfl
theorem exec_add : exec (.add t h) s = execAdd t h s := rfl
theorem exec_sub : exec (.sub t h) s = execSub t h s := rfl
theorem exec_hallAnd : exec (.hallAnd t h) s = execHallAnd t h s := rfl
theorem exec_hallOr : exec (.hallOr t h) s = execHallOr t h s := rfl
theorem exec_hallXor : exec (.hallXor t h) s = execHallXor t h s := rfl
theorem exec_shl : exec (.shl t h) s = execShl t h s := rfl
theorem exec_shra : exec (.shra t h) s = execShra t h s := rfl
theorem exec_shrl : exec (.shrl t h) s = execShrl t h s := rfl
theorem exec_cmp : exec (.cmp t h) s = execCmp t h s := rfl
theorem exec_ldv : exec (.ldv t h) s = execLdv t h s := rfl
theorem exec_ldb : exec (.ldb t h) s = execLdb t h s := rfl
theorem exec_ldl : exec (.ldl t h) s = execLdl t h s := rfl
theorem exec_stv : exec (.stv t h) s = execStv t h s := rfl
theorem exec_stl : exec (.stl t h) s = execStl t h s := rfl
theorem exec_ldw : exec (.ldw t h) s = execLdw t h s := rfl
theorem exec_stw : exec (.stw t h) s = execStw t h s := rfl
theorem exec_cmul : exec (.cmul t h) s = execCmul t h s := rfl
theorem exec_cmac : exec (.cmac t h) s = execCmac t h s := rfl
theorem exec_cmsc : exec (.cmsc t h) s = execCmsc t h s := rfl
theorem exec_rmac : exec (.rmac t h) s = execRmac t h s := rfl
theorem exec_vadd : exec (.vadd t h) s = execVadd t h s := rfl
theorem exec_vsub : exec (.vsub t h) s = execVsub t h s := rfl
theorem exec_vshr : exec (.vshr t h) s = execVshr t h s := rfl
theorem exec_vshl : exec (.vshl t h) s = execVshl t h s := rfl
theorem exec_vmov : exec (.vmov t h) s = execVmov t h s := rfl
theorem exec_extr : exec (.extr t h) s = execExtr t h s := rfl
theorem exec_clrf : exec (.clrf t h) s = execClrf t h s := rfl

end

/-- The instructions that a hall gives a meaning of their own, with their reserved bits and fields. -/
theorem issues_own {s : State} (t : Nat) (h : Fin 136) (hlen : s.halls.length = 136) :
    (Issues (.nop t h) 0x00 badB s t h ∧ Issues (.jmp t h) 0x01 (fun w => badB w || field w 22 4 == 0xF) s t h ∧ Issues (.call t h) 0x02 badB s t h ∧
      Issues (.ret t h) 0x03 badB s t h ∧ Issues (.loop t h) 0x04 badB s t h ∧ Issues (.waite t h) 0x05 badMask s t h ∧
      Issues (.rete t h) 0x06 badB s t h ∧ Issues (.evmask t h) 0x07 badMask s t h ∧ Issues (.sig t h) 0x08 badB s t h) ∧
    (Issues (.gets t h) 0x1C anyField s t h ∧ Issues (.puts t h) 0x1D badGd s t h ∧ Issues (.send t h) 0x28 anyField s t h ∧
      Issues (.fetch t h) 0x29 (fun w => cCount w == 0) s t h ∧ Issues (.clra t h) 0x39 (fun w => badBank (vD w) || decide (43 < vSh w)) s t h ∧
      Issues (.rsum t h) 0x3B (fun w => badBank (vD w)) s t h ∧ Issues (.hallExp t h) 0x3C badX s t h ∧ Issues (.norm t h) 0x3D badX s t h ∧
      Issues (.clrf t h) 0x3E badMask s t h) := by
  refine ⟨⟨issues_hallDo hlen (exec_nop s t h) (by decide) ?_, issues_hallDo hlen (exec_jmp s t h) (by decide) ?_,
    issues_hallDo hlen (exec_call s t h) (by decide) ?_, issues_hallDo hlen (exec_ret s t h) (by decide) ?_,
    issues_hallDo hlen (exec_loop s t h) (by decide) ?_, issues_hallDo hlen (exec_waite s t h) (by decide) ?_,
    issues_hallDo hlen (exec_rete s t h) (by decide) ?_, issues_hallDo hlen (exec_evmask s t h) (by decide) ?_,
    issues_hallDo hlen (exec_sig s t h) (by decide) ?_⟩,
    ⟨issues_anyField hlen (exec_gets s t h) (by decide), issues_hallDo hlen (exec_puts s t h) (by decide) ?_,
    issues_anyField hlen (exec_send s t h) (by decide), issues_hallDo hlen (exec_fetch s t h) (by decide) ?_,
    issues_hallDo hlen (exec_clra s t h) (by decide) ?_, issues_hallDo hlen (exec_rsum s t h) (by decide) ?_,
    issues_hallDo hlen (exec_hallExp s t h) (by decide) ?_, issues_hallDo hlen (exec_norm s t h) (by decide) ?_,
    issues_hallDo hlen (exec_clrf s t h) (by decide) ?_⟩⟩
  all_goals exact fun _ hb => reserved_of_bad hb

/-- Settles O12: one lemma on the issue of a word, for each instruction. -/
theorem hallIssue : Obligations.HallIssue := by
  intro s t h hlen
  obtain ⟨⟨hnop, hjmp, hcall, hret, hloop, hwaite, hrete, hevmask, hsig⟩, hgets, hputs, hsend, hfetch, hclra, hrsum, hexp, hnorm, hclrf⟩ :=
    issues_own t h hlen
  intro p hp
  simp only [List.mem_cons, List.not_mem_nil, or_false] at hp
  rcases hp with rfl | rfl | rfl | rfl | rfl | rfl | rfl | rfl | rfl | rfl | rfl | rfl | rfl | rfl | rfl | rfl | rfl | rfl | rfl | rfl | rfl | rfl | rfl | rfl | rfl | rfl | rfl | rfl | rfl | rfl | rfl | rfl | rfl | rfl | rfl | rfl | rfl | rfl | rfl | rfl | rfl | rfl | rfl | rfl | rfl | rfl | rfl
  · exact hnop
  · exact hjmp
  · exact hcall
  · exact hret
  · exact hloop
  · exact hwaite
  · exact hrete
  · exact hevmask
  · exact hsig
  · exact issues_scalarDo (op := 0x10) hlen (exec_addi s t h) (by decide)
  · exact issues_scalarDo (op := 0x11) hlen (exec_lui s t h) (by decide)
  · exact issues_scalarDo (op := 0x12) hlen (exec_ori s t h) (by decide)
  · exact issues_scalarDo (op := 0x13) hlen (exec_add s t h) (by decide)
  · exact issues_scalarDo (op := 0x14) hlen (exec_sub s t h) (by decide)
  · exact issues_scalarDo (op := 0x15) hlen (exec_hallAnd s t h) (by decide)
  · exact issues_scalarDo (op := 0x16) hlen (exec_hallOr s t h) (by decide)
  · exact issues_scalarDo (op := 0x17) hlen (exec_hallXor s t h) (by decide)
  · exact issues_shiftDo (op := 0x18) hlen (exec_shl s t h) (by decide)
  · exact issues_shiftDo (op := 0x19) hlen (exec_shra s t h) (by decide)
  · exact issues_shiftDo (op := 0x1A) hlen (exec_shrl s t h) (by decide)
  · exact issues_scalarDo (op := 0x1B) hlen (exec_cmp s t h) (by decide)
  · exact hgets
  · exact hputs
  · exact issues_memDo (op := 0x20) hlen (exec_ldv s t h) (by decide)
  · exact issues_memDo (op := 0x21) hlen (exec_ldb s t h) (by decide)
  · exact issues_memDo (op := 0x22) hlen (exec_ldl s t h) (by decide)
  · exact issues_memDo (op := 0x23) hlen (exec_stv s t h) (by decide)
  · exact issues_memDo (op := 0x24) hlen (exec_stl s t h) (by decide)
  · exact issues_memDo (op := 0x25) hlen (exec_ldw s t h) (by decide)
  · exact issues_memDo (op := 0x26) hlen (exec_stw s t h) (by decide)
  · exact hsend
  · exact hfetch
  · exact issues_macDo (op := 0x30) hlen (exec_cmul s t h) (by decide)
  · exact issues_macDo (op := 0x31) hlen (exec_cmac s t h) (by decide)
  · exact issues_macDo (op := 0x32) hlen (exec_cmsc s t h) (by decide)
  · exact issues_macDo (op := 0x33) hlen (exec_rmac s t h) (by decide)
  · exact issues_vecDo (op := 0x34) hlen (exec_vadd s t h) (by decide)
  · exact issues_vecDo (op := 0x35) hlen (exec_vsub s t h) (by decide)
  · exact issues_vecDo (op := 0x36) hlen (exec_vshr s t h) (by decide)
  · exact issues_vecDo (op := 0x37) hlen (exec_vshl s t h) (by decide)
  · exact issues_vecDo (op := 0x38) hlen (exec_vmov s t h) (by decide)
  · exact hclra
  · exact issues_vecDo (op := 0x3A) hlen (exec_extr s t h) (by decide)
  · exact hrsum
  · exact hexp
  · exact hnorm
  · exact hclrf

end Sys2Proof.Machine
end

