-- ==== Sys2Proof/Proofs/HallVectors.lean ====
section
/-!
Multiply-accumulate and vector results of a hall (R325 to R331).
-/

namespace Sys2Proof.Machine

open Sys2Proof

/-! ### Flags and events of a hall that does not wait -/

theorem State.endWaite_of_not_waiting {s : State} {h : Nat} (hno : (s.hall h).waiting = none) : s.endWaite h = s := by
  unfold State.endWaite
  rw [hno]

theorem waiting_of_issuing {s : State} {t h op w : Nat} (hissue : s.issuing t h op w) : (s.hall h).waiting = none := by
  obtain ⟨hready, -⟩ := hissue
  rw [State.hallReady, Bool.and_eq_true_iff, Bool.and_eq_true_iff] at hready
  obtain ⟨⟨-, hnone⟩, -⟩ := hready
  exact Option.isNone_iff_eq_none.1 hnone

theorem State.hall_modHall_same {s : State} {h : Nat} (hh : h < s.halls.length) (f : Hall → Hall) : (s.modHall h f).hall h = f (s.hall h) := by
  simp [State.hall, State.modHall, hh]

theorem State.hall_modCore_same {s : State} {h : Nat} (hh : h < s.halls.length) (f : HallCore → HallCore) :
    (s.modCore h f).hall h = { s.hall h with core := f (s.core h) } := State.hall_modHall_same hh _

/-- An overflow of a hall that does not wait sets its flag and its event (R326, R343). -/
theorem State.overflow_eq {s : State} {h b : Nat} (hh : h < s.halls.length) (hno : (s.hall h).waiting = none) :
    s.overflow h b = (s.stick h (8 + b)).modCore h fun c => { c with pending := withBit c.pending evAccOvf true } := by
  refine State.endWaite_of_not_waiting ?_
  rw [State.hall_modCore_same (s := s.stick h (8 + b)) hh]
  exact hno

theorem State.core_retireHall_same {s : State} {h : Nat} (hh : h < s.halls.length) (f : HallCore → HallCore) :
    (s.retireHall h f).core h = f (s.core h) := by
  rw [State.core, State.retireHall, State.hall_modHall_same hh, State.core]

theorem State.core_modCore_same {s : State} {h : Nat} (hh : h < s.halls.length) (f : HallCore → HallCore) :
    (s.modCore h f).core h = f (s.core h) := by rw [State.core, State.hall_modCore_same hh]

/-! ### Multiply-accumulate -/

/-- The work of a hall whose bank `b` overflowed. -/
def HallCore.withOverflow (c : HallCore) (b : Nat) (l : List Cplx) : HallCore :=
  { c.withBank b l with pending := withBit c.pending evAccOvf true }

theorem accumC_overflows_iff (sat : Bool) (y : Cplx) :
    (accumC sat y).2 = true ↔ y.re < -(2 ^ 43) ∨ 2 ^ 43 ≤ y.re ∨ y.im < -(2 ^ 43) ∨ 2 ^ 43 ≤ y.im := by
  have hpart (x : Int) : (accum sat x).2 = true ↔ x < -(2 ^ 43) ∨ 2 ^ 43 ≤ x := by
    norm_num [accum, satS, clampInt]
    omega
  rw [accumC, Bool.or_eq_true, hpart, hpart, or_assoc]

section

variable {s : State} {t op w : Nat} {h : Fin 136} {i : Instr}

/-- A multiply-accumulate of lanes that all fit is exact; one that overflows sets its flag and its event, and takes the narrowed lanes (R325 to R327). -/
theorem gives_macDo {f : Cplx → Cplx → Cplx → Cplx} {sums : List Cplx} (hexec : exec i s = macDo t h op s f) (hop : op ∈ hallOpcodes)
    (hissue : s.issuing t h.val op w) (hbank : vD w < 4)
    (hsums : sums = List.zipWith (fun q ab => f q ab.1 ab.2) ((s.core h.val).bankAcc (vD w)) (List.zip ((s.core h.val).opA w) ((s.core h.val).opB w))) :
    ((∀ y ∈ sums, LaneFits y) → Gives i s (s.completes t h.val fun c => c.withBank (vD w) sums)) ∧
    ((∃ y ∈ sums, y.re < -(2 ^ 43) ∨ 2 ^ 43 ≤ y.re ∨ y.im < -(2 ^ 43) ∨ 2 ^ 43 ≤ y.im) →
      Gives i s (((s.atTime t).stick h.val (8 + vD w)).retireHall h.val fun c =>
        (c.withOverflow (vD w) (sums.map fun y => (accumC (vSat w) y).1)).afterAt c.pc)) := by
  have hh := lt_length_of_issuing hissue
  unfold macDo at hexec
  have hgives := gives_hallDo hexec hop hissue
  rw [reserved, badBank_of_lt hbank, if_neg Bool.false_ne_true] at hgives
  dsimp only [State.core_atTime] at hgives
  have hlanes : List.zipWith (fun q ab => accumC (vSat w) (f q ab.1 ab.2)) ((s.core h.val).bankAcc (vD w))
      (List.zip ((s.core h.val).opA w) ((s.core h.val).opB w)) = sums.map (accumC (vSat w)) := by
    rw [hsums, List.map_zipWith]
  rw [hlanes] at hgives
  refine ⟨fun hfit => ?_, fun hover => ?_⟩
  · have hexact : (sums.map (accumC (vSat w))).map (fun x => x.1) = sums := by
      rw [List.map_map]
      exact (List.map_congr_left fun y hy => congrArg Prod.fst (accumC_of_fits _ (hfit y hy))).trans (List.map_id' _)
    rw [State.setAcc_of_exact _ _ _ (fun x hx => ?_), hexact, State.hallEnd, State.retireHall_modCore] at hgives
    · exact hgives
    · obtain ⟨y, hy, rfl⟩ := List.mem_map.1 hx
      rw [accumC_of_fits _ (hfit y hy)]
  · have hany : (sums.map (accumC (vSat w))).any (fun x => x.2) = true := by
      rw [List.any_map, List.any_eq_true]
      exact hover.imp fun y ⟨hy, hout⟩ => ⟨hy, (accumC_overflows_iff _ y).2 hout⟩
    rw [State.setAcc, hany, State.when, if_pos rfl, State.overflow_eq, State.hallEnd, State.retireHall_modCore] at hgives
    · rw [List.map_map] at hgives
      exact hgives.of_eq (State.retireHall_modCore ((s.atTime t).stick h.val (8 + vD w)) h.val
        (fun c => c.withBank (vD w) (sums.map ((fun x : Cplx × Bool => x.1) ∘ accumC (vSat w)))) _)
    · exact lt_of_lt_of_eq hh (List.length_modify ..).symm
    · rw [State.hall_modCore_same hh]
      exact waiting_of_issuing (s := s) (t := t) hissue

end

theorem claim_hallMac : Claim.HallMac := by
  rintro s t w h c rfl hbank p hp hissue sums hsums
  have hof {i : Instr} {f : Cplx → Cplx → Cplx → Cplx} {op : Nat} (hexec : exec i s = macDo t h op s f) (hop : op ∈ hallOpcodes)
      (hissue : s.issuing t h.val op w) (hsums : sums = List.zipWith (fun q ab => f q ab.1 ab.2) ((s.core h.val).bankAcc (vD w))
        (List.zip ((s.core h.val).opA w) ((s.core h.val).opB w))) :
      ((∀ y ∈ sums, -(2 ^ 43) ≤ y.re ∧ y.re < 2 ^ 43 ∧ -(2 ^ 43) ≤ y.im ∧ y.im < 2 ^ 43) →
        Gives i s (s.completes t h.val fun c => { c with acc := c.acc.set (vD w) sums })) ∧
      ((∃ y ∈ sums, y.re < -(2 ^ 43) ∨ 2 ^ 43 ≤ y.re ∨ y.im < -(2 ^ 43) ∨ 2 ^ 43 ≤ y.im) →
        ∃ u, Gives i s u ∧ u.get ⟨(Reg.HALL.FLAGS.word h.val).addr, 8 + vD w, 1⟩ = 1 ∧
          (u.core h.val).acc = (s.core h.val).acc.set (vD w) (sums.map fun y => (accumC (vSat w) y).1) ∧
          ((u.core h.val).pending).testBit evAccOvf = true ∧
          (u.core h.val).v = (s.core h.val).v ∧ (u.core h.val).dm = (s.core h.val).dm ∧ u.mem = s.mem) := by
    obtain ⟨hfits, hover⟩ := gives_macDo hexec hop hissue hbank hsums
    refine ⟨hfits, fun hany => ⟨_, hover hany, ?_, ?_⟩⟩
    · rw [State.get_retireHall]
      exact State.get_put_same (f := ⟨(Reg.HALL.FLAGS.word h.val).addr, 8 + vD w, 1⟩) _ (decide_eq_true (by dsimp only; omega)) 1
    · rw [State.core_retireHall_same (s := (s.atTime t).stick h.val (8 + vD w)) (lt_length_of_issuing (t := t) hissue)]
      exact ⟨rfl, show (withBit (s.core h.val).pending evAccOvf true).testBit evAccOvf = true by rw [testBit_withBit, if_pos rfl], rfl, rfl, rfl⟩
  simp only [List.mem_cons, List.not_mem_nil, or_false] at hp
  obtain rfl | rfl | rfl | rfl := hp
  · exact hof (exec_cmul s t h) (by decide) hissue hsums
  · exact hof (exec_cmac s t h) (by decide) hissue hsums
  · exact hof (exec_cmsc s t h) (by decide) hissue hsums
  · exact hof (exec_rmac s t h) (by decide) hissue hsums

/-! ### Vector results -/

/-- The work of a hall with vector register `r` replaced. -/
def HallCore.withVec (c : HallCore) (r : Nat) (l : List Cplx) : HallCore := { c with v := c.v.set r l }

theorem narrow_of_fits (sat : Bool) {x : Int} (h1 : -(2 ^ 17) ≤ x) (h2 : x < 2 ^ 17) : narrow sat 18 x = (x, false) := by
  have hsat : satS 18 x = x := by
    norm_num [satS, clampInt]
    omega
  have hwrap : signed 18 (unsigned 18 x) = x := by
    norm_num [signed, unsigned]
    omega
  cases sat <;> simp [narrow, hsat, hwrap]

theorem narrowC_of_fits (sat : Bool) {y : Cplx} (h : -(2 ^ 17) ≤ y.re ∧ y.re < 2 ^ 17 ∧ -(2 ^ 17) ≤ y.im ∧ y.im < 2 ^ 17) :
    narrowC sat 18 y = (y, false) := by
  obtain ⟨h1, h2, h3, h4⟩ := h
  simp [narrowC, narrow_of_fits sat h1 h2, narrow_of_fits sat h3 h4]

theorem narrowC_saturates_iff (sat : Bool) (y : Cplx) :
    (narrowC sat 18 y).2 = true ↔ sat = true ∧ (y.re < -(2 ^ 17) ∨ 2 ^ 17 ≤ y.re ∨ y.im < -(2 ^ 17) ∨ 2 ^ 17 ≤ y.im) := by
  have hpart (x : Int) : (narrow sat 18 x).2 = true ↔ sat = true ∧ (x < -(2 ^ 17) ∨ 2 ^ 17 ≤ x) := by
    cases sat with
    | false => simp [narrow]
    | true =>
      norm_num [narrow, satS, clampInt]
      omega
  rw [narrowC, Bool.or_eq_true, hpart, hpart, ← and_or_left, or_assoc]

section

variable {s : State} {t op w : Nat} {h : Fin 136} {i : Instr}

/-- A vector result is narrowed lane by lane; where a lane saturates, sat is set (R327). -/
theorem gives_vecDo {bad : Nat → Bool} {f : Nat → HallCore → List Cplx} {l : List Cplx} (hexec : exec i s = vecDo t h op s bad f)
    (hop : op ∈ hallOpcodes) (hissue : s.issuing t h.val op w) (hbad : bad w = false) (hl : f w (s.core h.val) = l) :
    ((∀ y ∈ l, -(2 ^ 17) ≤ y.re ∧ y.re < 2 ^ 17 ∧ -(2 ^ 17) ≤ y.im ∧ y.im < 2 ^ 17) →
      Gives i s (s.completes t h.val fun c => { c with v := c.v.set (vD w) l })) ∧
    (∃ u, Gives i s u ∧ (u.core h.val).v = (s.core h.val).v.set (vD w) (l.map fun y => (narrowC (vSat w) 18 y).1) ∧
      (u.core h.val).acc = (s.core h.val).acc ∧ (u.core h.val).dm = (s.core h.val).dm ∧ u.mem = s.mem ∧
      (u.get (Reg.HALL.FLAGS.sat h.val) = 1 ↔ s.get (Reg.HALL.FLAGS.sat h.val) = 1 ∨
        (vSat w = true ∧ ∃ y ∈ l, y.re < -(2 ^ 17) ∨ 2 ^ 17 ≤ y.re ∨ y.im < -(2 ^ 17) ∨ 2 ^ 17 ≤ y.im))) := by
  unfold vecDo at hexec
  have hgives := gives_hallDo hexec hop hissue
  rw [reserved, hbad, if_neg Bool.false_ne_true, State.core_atTime, hl] at hgives
  have hany : (l.map fun y => narrowC (vSat w) 18 y).any (fun x => x.2) = true ↔
      vSat w = true ∧ ∃ y ∈ l, y.re < -(2 ^ 17) ∨ 2 ^ 17 ≤ y.re ∨ y.im < -(2 ^ 17) ∨ 2 ^ 17 ≤ y.im := by
    rw [List.any_map, List.any_eq_true]
    simp only [Function.comp_apply, narrowC_saturates_iff]
    exact ⟨fun ⟨y, hy, hs, hout⟩ => ⟨hs, y, hy, hout⟩, fun ⟨hs, y, hy, hout⟩ => ⟨y, hy, hs, hout⟩⟩
  have hhalls : h.val < (s.atTime t).halls.length := lt_length_of_issuing hissue
  have hmap : (l.map fun y => narrowC (vSat w) 18 y).map (fun x : Cplx × Bool => x.1) = l.map fun y => (narrowC (vSat w) 18 y).1 := by
    rw [List.map_map]
    rfl
  have hnext (x : State) : State.hallEnd (s.atTime t) h.val (.next (x.modCore h.val fun c => c.withVec (vD w) (l.map fun y => (narrowC (vSat w) 18 y).1))) =
      x.retireHall h.val fun c => (c.withVec (vD w) (l.map fun y => (narrowC (vSat w) 18 y).1)).afterAt c.pc :=
    State.retireHall_modCore x h.val (fun c => c.withVec (vD w) (l.map fun y => (narrowC (vSat w) 18 y).1)) fun c => c.afterAt c.pc
  have hset : (s.atTime t).setVec h.val (vD w) (l.map fun y => narrowC (vSat w) 18 y) =
      ((s.atTime t).when ((l.map fun y => narrowC (vSat w) 18 y).any fun x => x.2) fun s => s.stick h.val 0).modCore h.val fun c =>
        c.withVec (vD w) (l.map fun y => (narrowC (vSat w) 18 y).1) := by
    rw [State.setVec, hmap]
    cases (l.map fun y => narrowC (vSat w) 18 y).any fun x => x.2 <;> rfl
  rw [hset, hnext] at hgives
  refine ⟨fun hfit => ?_, ?_⟩
  · have hnone : (l.map fun y => narrowC (vSat w) 18 y).any (fun x => x.2) = false := by
      rw [← Bool.not_eq_true, hany]
      rintro ⟨-, y, hy, hout⟩
      have := hfit y hy
      omega
    have hexact : (l.map fun y => (narrowC (vSat w) 18 y).1) = l :=
      (List.map_congr_left fun y hy => congrArg Prod.fst (narrowC_of_fits _ (hfit y hy))).trans (List.map_id' _)
    rw [hnone, hexact] at hgives
    exact hgives
  · have hwhen (b : Bool) : ((s.atTime t).when b fun s => s.stick h.val 0).halls = s.halls := by cases b <;> rfl
    refine ⟨_, hgives, ?_⟩
    have hcore : ((s.atTime t).when ((l.map fun y => narrowC (vSat w) 18 y).any fun x => x.2) fun s => s.stick h.val 0).core h.val = s.core h.val := by
      rw [State.core, State.hall, hwhen, State.core, State.hall]
    rw [State.core_retireHall_same (by rw [hwhen]; exact hhalls), hcore]
    refine ⟨rfl, rfl, rfl, ?_, ?_⟩
    · cases (l.map fun y => narrowC (vSat w) 18 y).any fun x => x.2 <;> rfl
    · rw [State.get_retireHall, ← hany]
      cases (l.map fun y => narrowC (vSat w) 18 y).any fun x => x.2 with
      | false => simp [State.when]
      | true =>
        refine ⟨fun _ => .inr rfl, fun _ => ?_⟩
        exact State.get_put_same (f := Reg.HALL.FLAGS.sat h.val) _ rfl 1

end

theorem claim_hallVector : Claim.HallVector := by
  rintro s t w h c rfl p hp hissue hbank
  have hshr (l : List Cplx) : l.map (Cplx.shr (vSh w)) = l.map fun y => ⟨y.re / 2 ^ vSh w, y.im / 2 ^ vSh w⟩ := by
    refine List.map_congr_left fun y _ => ?_
    simp [Cplx.shr, Cplx.map, shrFloor, Int.fdiv_eq_ediv_of_nonneg]
  simp only [List.mem_cons, List.not_mem_nil, or_false] at hp
  obtain rfl | rfl | rfl | rfl | rfl | rfl := hp
  · exact gives_vecDo (op := 0x34) (exec_vadd s t h) (by decide) hissue rfl rfl
  · exact gives_vecDo (op := 0x35) (exec_vsub s t h) (by decide) hissue rfl rfl
  · exact gives_vecDo (op := 0x36) (exec_vshr s t h) (by decide) hissue rfl (hshr _)
  · refine gives_vecDo (op := 0x37) (exec_vshl s t h) (by decide) hissue rfl (List.map_congr_left fun y _ => ?_)
    simp [Cplx.smul, Int.mul_comm]
  · exact gives_vecDo (op := 0x38) (exec_vmov s t h) (by decide) hissue rfl rfl
  · exact gives_vecDo (op := 0x3A) (exec_extr s t h) (by decide) hissue (badBank_of_lt (hbank rfl)) (hshr _)

/-- Settles O39: one lemma for the instructions that accumulate and one for those that write a vector. -/
theorem hallVectorUnit : Obligations.HallVectorUnit := ⟨claim_hallMac, claim_hallVector⟩

end Sys2Proof.Machine
end

