-- ==== Sys2Proof/Proofs/HallPrograms.lean ====
section
/-!
Program flow and special registers of a hall (R322, R323, R339 to R347).
-/

namespace Sys2Proof.Machine

open Sys2Proof

/-! ### How an instruction without reserved bits ends -/

theorem reserved_of_ok {bad : Bool} {r : HallRes} (hb : bad = false) : reserved bad r = r := if_neg (by rw [hb]; exact Bool.false_ne_true)

section

variable {s : State} {t op w : Nat} {h : Fin 136} {i : Instr}

theorem lt_halls_of_issuing (hissue : s.issuing t h.val op w) : h.val < s.halls.length := lt_length_of_issuing (t := t) hissue

theorem gives_of_issuing {r : HallRes} {f : State → Nat → HallRes} (hexec : exec i s = hallDo t h op s f) (hop : op ∈ hallOpcodes)
    (hissue : s.issuing t h.val op w) (hres : f (s.atTime t) w = r) : Gives i s ((s.atTime t).hallEnd h.val r) := hres ▸ gives_hallDo hexec hop hissue

theorem traps_of_issuing {cause : Nat} {f : State → Nat → HallRes} (hexec : exec i s = hallDo t h op s f) (hop : op ∈ hallOpcodes)
    (hissue : s.issuing t h.val op w) (htrap : f (s.atTime t) w = .trap cause) : Traps i s h.val cause := by
  have hgives := gives_hallDo hexec hop hissue
  rw [htrap] at hgives
  exact traps_of_gives (lt_halls_of_issuing hissue) hgives

/-- An instruction that changes nothing besides the program counter. -/
theorem gives_completes_id {f : State → Nat → HallRes} (hexec : exec i s = hallDo t h op s f) (hop : op ∈ hallOpcodes)
    (hissue : s.issuing t h.val op w) (hres : f (s.atTime t) w = .next (s.atTime t)) : Gives i s (s.completes t h.val id) := by
  have hgives := gives_hallDo hexec hop hissue
  rwa [hres] at hgives

/-- An instruction that jumps, having changed its hall's work. -/
theorem gives_jump {f : State → Nat → HallRes} {g : HallCore → HallCore} {a : Nat} (hexec : exec i s = hallDo t h op s f) (hop : op ∈ hallOpcodes)
    (hissue : s.issuing t h.val op w) (hres : f (s.atTime t) w = .jump ((s.atTime t).modCore h.val g) a) :
    Gives i s ((s.atTime t).retireHall h.val fun c => (g c).jumpTo a) := by
  have hgives := gives_hallDo hexec hop hissue
  rw [hres] at hgives
  exact hgives.of_eq (State.retireHall_modCore (s.atTime t) h.val g fun c => c.jumpTo a)

/-- A retirement looks at the hall's present work alone. -/
theorem State.retireHall_congr {h : Nat} {f g : HallCore → HallCore} (hfg : f (s.core h) = g (s.core h)) : s.retireHall h f = s.retireHall h g := by
  refine congrArg (fun l => { s with halls := l }) (List.ext_getElem? fun i => ?_)
  rw [List.getElem?_modify, List.getElem?_modify]
  split
  case isTrue hi =>
    subst hi
    cases hx : s.halls[h]? with
    | none => rfl
    | some x =>
      have hcore : s.core h = x.core := by simp [State.core, State.hall, hx]
      rw [hcore] at hfg
      simp [hfg]
  case isFalse => rfl

end

/-! ### RETE -/

/-- Events that arise in a hall that does not wait leave everything but its pending events. -/
theorem State.raises_of_not_waiting {h : Nat} (l : List Nat) (e : Nat) {s : State} (hh : h < s.halls.length) (hno : (s.hall h).waiting = none) :
    (∃ n, (s.forEach l fun q s => s.raise h (e + q)).core h = { s.core h with pending := n }) ∧
      (s.forEach l fun q s => s.raise h (e + q)).regs = s.regs ∧ (s.forEach l fun q s => s.raise h (e + q)).mem = s.mem := by
  obtain ⟨hcore, hregs, hmem, -, -⟩ := State.forEach_induct (s := s) (l := l) (f := fun q s => s.raise h (e + q))
    (P := fun u => (∃ n, u.core h = { s.core h with pending := n }) ∧ u.regs = s.regs ∧ u.mem = s.mem ∧ h < u.halls.length ∧ (u.hall h).waiting = none)
    ⟨⟨_, rfl⟩, rfl, rfl, hh, hno⟩ fun q _ x ⟨⟨n, hcore⟩, hregs, hmem, hlen, hwait⟩ => by
      have hstill : ((x.modCore h fun c => { c with pending := withBit c.pending (e + q) true }).hall h).waiting = none := by
        rw [State.hall_modCore_same hlen]
        exact hwait
      have hraise : x.raise h (e + q) = x.modCore h fun c => { c with pending := withBit c.pending (e + q) true } :=
        State.endWaite_of_not_waiting hstill
      rw [hraise]
      refine ⟨⟨withBit n (e + q) true, ?_⟩, hregs, hmem, lt_of_lt_of_eq hlen (List.length_modify ..).symm, hstill⟩
      rw [State.core_modCore_same hlen, hcore]
  exact ⟨hcore, hregs, hmem⟩

theorem claim_hallFlow : Claim.HallFlow := by
  rintro s t w h c rfl
  refine ⟨fun hi hb => ?_, fun hi hb hcond => ⟨fun hj => ?_, fun hj => ?_⟩, fun hi hb => ⟨fun hlen => ?_, fun hlen => ?_⟩,
    fun hi hb => ⟨fun hnil => ?_, fun a rest hcons => ?_⟩, fun hi hb => ⟨fun hz => ?_, fun hz hlen => ?_, fun hz hlen => ?_⟩,
    fun hi hb => ⟨fun hev => ?_, fun hev => ?_⟩, fun hi hb => ⟨fun hno => ?_, fun hsh => ?_⟩, fun hi hb => ?_, fun hi hb => ?_, fun hi hb => ?_⟩
  · exact gives_completes_id (exec_nop s t h) (by decide) hi (reserved_of_ok hb)
  · exact gives_of_issuing (exec_jmp s t h) (by decide) hi ((reserved_of_ok (by simp [hb, hcond])).trans (if_pos hj))
  · refine gives_completes_id (exec_jmp s t h) (by decide) hi ((reserved_of_ok (by simp [hb, hcond])).trans (if_neg ?_))
    exact fun h => Bool.false_ne_true (hj.symm.trans h)
  · exact traps_of_issuing (exec_call s t h) (by decide) hi ((reserved_of_ok hb).trans (if_pos hlen))
  · exact gives_jump (exec_call s t h) (by decide) hi ((reserved_of_ok hb).trans (if_neg (Nat.not_le.2 hlen)))
  · refine traps_of_issuing (exec_ret s t h) (by decide) hi ((reserved_of_ok hb).trans ?_)
    dsimp only [State.core_atTime]
    rw [hnil]
    rfl
  · refine gives_jump (exec_ret s t h) (by decide) hi ((reserved_of_ok hb).trans ?_)
    dsimp only [State.core_atTime]
    rw [hcons]
  · exact gives_of_issuing (exec_loop s t h) (by decide) hi ((reserved_of_ok hb).trans (if_pos (congrArg BitVec.toNat hz)))
  · exact traps_of_issuing (exec_loop s t h) (by decide) hi ((reserved_of_ok hb).trans
      ((if_neg fun h0 => hz (BitVec.eq_of_toNat_eq h0)).trans (if_pos hlen)))
  · have hgives := gives_jump (exec_loop s t h) (by decide) hi ((reserved_of_ok hb).trans
      ((if_neg (fun h0 => hz (BitVec.eq_of_toNat_eq h0))).trans (if_neg (Nat.not_le.2 hlen))))
    exact hgives.of_eq (State.retireHall_congr rfl)
  · refine gives_completes_id (exec_waite s t h) (by decide) hi ((reserved_of_ok hb).trans (if_pos (bne_iff_ne.2 hev)))
  · exact gives_of_issuing (exec_waite s t h) (by decide) hi ((reserved_of_ok hb).trans (if_neg fun h0 => bne_iff_ne.1 h0 hev))
  · exact traps_of_issuing (exec_rete s t h) (by decide) hi ((reserved_of_ok hb).trans (if_pos (congrArg (!·) hno)))
  · have hgives := gives_of_issuing (exec_rete s t h) (by decide) hi ((reserved_of_ok hb).trans (if_neg fun h0 =>
      Bool.false_ne_true ((congrArg (!·) hsh).symm.trans h0)))
    have hlen : h.val < (s.atTime t).halls.length := lt_length_of_issuing hi
    obtain ⟨⟨n, hcore⟩, hregs, hmem⟩ := State.raises_of_not_waiting (h := h.val) ((List.range 8).filter fun q => (s.atTime t).ringFull h.val q) evInq
      (s := (s.atTime t).retireHall h.val fun c => { c with shadow := false, pc := c.epc, loops := c.keptLoops,
                                                            returns := c.returns.drop (c.returns.length - c.returnsAt) })
      (lt_of_lt_of_eq hlen (List.length_modify ..).symm) (by
        rw [State.retireHall, State.hall_modHall_same hlen]
        exact waiting_of_issuing (s := s) (t := t) hi)
    rw [State.core_retireHall_same hlen] at hcore
    refine ⟨_, hgives, ?_⟩
    dsimp only [State.hallEnd]
    rw [hcore]
    exact ⟨rfl, rfl, rfl, rfl, rfl, (SameOff.of_regs (A := (· ∈ [])) hregs).sameWords, hmem⟩
  · exact gives_completes (exec_evmask s t h) (by decide) hi (reserved_of_ok hb)
  · have hgives := gives_hallDo (exec_sig s t h) (by decide) hi
    rw [reserved_of_ok hb] at hgives
    exact hgives
  · have hgives := gives_hallDo (exec_clrf s t h) (by decide) hi
    rw [reserved_of_ok hb] at hgives
    refine ⟨_, hgives, ?_, rfl, ?_, rfl⟩
    · exact (State.get_put_same (f := Reg.HALL.FLAGS.word h.val) (s.atTime t) rfl _).trans
        (Nat.mod_eq_of_lt (lt_of_le_of_lt (Nat.sub_le _ _) (State.get_lt s (Reg.HALL.FLAGS.word h.val))))
    · exact sameWords_put (s.atTime t) (Reg.HALL.FLAGS.word h.val) _

/-! ### Special registers -/

theorem HallCore.setG_fields (c : HallCore) (gd : Nat) (v : Word) :
    ((c.setG gd v).afterAt (c.setG gd v).pc).set.g = c.set.g.set gd v ∧ ((c.setG gd v).afterAt (c.setG gd v).pc).pc = (c.afterAt c.pc).pc ∧
      ((c.setG gd v).afterAt (c.setG gd v).pc).timeHi = c.timeHi ∧ ((c.setG gd v).afterAt (c.setG gd v).pc).dm = c.dm ∧
      ((c.setG gd v).afterAt (c.setG gd v).pc).v = c.v ∧ ((c.setG gd v).afterAt (c.setG gd v).pc).acc = c.acc := by
  simp only [setG, modSet, HallCore.set, afterAt, ownLoops, keptLoops]
  cases c.shadow <;> simp

/-- The read of a special register writes gd, and is remembered where a replay has to see it again. -/
theorem State.hallEnd_getSpecial {x : State} {h : Nat} (hh : h < x.halls.length) (y : State) (gd r : Nat) (v : Word) (rec : Bool) :
    (y.hallEnd h (x.getSpecial h gd r v rec)).core h = ((x.core h).setG gd v).afterAt ((x.core h).setG gd v).pc ∧
      (y.hallEnd h (x.getSpecial h gd r v rec)).regs = x.regs ∧ (y.hallEnd h (x.getSpecial h gd r v rec)).mem = x.mem ∧
      (y.hallEnd h (x.getSpecial h gd r v rec)).out = x.out := by
  obtain ⟨u, hu⟩ : ∃ u, u = x.when rec fun s => s.entered h fun n => .special n r v := ⟨_, rfl⟩
  have hlen : h < u.halls.length := by
    rw [hu]
    cases rec
    · exact hh
    · exact lt_of_lt_of_eq hh (List.length_modify ..).symm
  have hcore : u.core h = x.core h := by
    rw [hu]
    cases rec
    · rfl
    · rw [State.when, if_pos rfl, State.entered, State.core, State.hall_modHall_same hh, State.core]
  have hsame : u.regs = x.regs ∧ u.mem = x.mem ∧ u.out = x.out := by
    rw [hu]
    cases rec <;> exact ⟨rfl, rfl, rfl⟩
  rw [State.getSpecial, ← hu, State.hallEnd, State.retireHall_modCore, State.core_retireHall_same hlen, hcore]
  exact ⟨rfl, hsame⟩

section

variable {s : State} {t w : Nat} {h : Fin 136}

/-- What GETS leaves, given the value that it reads. -/
theorem gets_spec (hi : s.issuing t h.val 0x1C w) {r : Nat} {v : Word} {rec : Bool} {x : State} {hold : Option Nat}
    (hg : Gives (.gets t h) s ((s.atTime t).hallEnd h.val (x.getSpecial h.val (field w 21 5) r v rec)))
    (hlen : x.halls.length = s.halls.length) (hcore : x.core h.val = { s.core h.val with timeHi := hold })
    (hsame : x.regs = s.regs ∧ x.mem = s.mem ∧ x.out = s.out) :
    ∃ u, Gives (.gets t h) s u ∧ (u.core h.val).set.g = (s.core h.val).set.g.set (field w 21 5) v ∧
      (u.core h.val).pc = ((s.core h.val).afterAt (s.core h.val).pc).pc ∧ (u.core h.val).timeHi = hold ∧
      (u.core h.val).dm = (s.core h.val).dm ∧ (u.core h.val).v = (s.core h.val).v ∧ (u.core h.val).acc = (s.core h.val).acc ∧
      u.regs = s.regs ∧ u.mem = s.mem ∧ u.out = s.out := by
  obtain ⟨hend, hregs, hmem, hout⟩ := State.hallEnd_getSpecial (x := x) (h := h.val) (lt_of_lt_of_eq (lt_halls_of_issuing hi) hlen.symm) (s.atTime t)
    (field w 21 5) r v rec
  obtain ⟨hset, hpc, hhold, hdm, hv, hacc⟩ := HallCore.setG_fields (x.core h.val) (field w 21 5) v
  refine ⟨_, hg, ?_⟩
  rw [hend, hset, hpc, hhold, hdm, hv, hacc, hregs, hmem, hout, hcore]
  exact ⟨rfl, rfl, rfl, rfl, rfl, rfl, hsame⟩

/-- GETS of a register whose read changes nothing else. -/
theorem gets_plain (hi : s.issuing t h.val 0x1C w) {r : Nat} {v : Word} {rec : Bool} (hr : r ≠ 1)
    (hg : Gives (.gets t h) s ((s.atTime t).hallEnd h.val ((s.atTime t).getSpecial h.val (field w 21 5) r v rec))) :
    ∃ u, Gives (.gets t h) s u ∧ (u.core h.val).set.g = (s.core h.val).set.g.set (field w 21 5) v ∧
      (u.core h.val).pc = ((s.core h.val).afterAt (s.core h.val).pc).pc ∧ (r = 1 → (u.core h.val).timeHi = some (timeHi (s.atTime t).arrayNow)) ∧
      (r ≠ 1 → (u.core h.val).timeHi = (s.core h.val).timeHi) ∧
      (u.core h.val).dm = (s.core h.val).dm ∧ (u.core h.val).v = (s.core h.val).v ∧ (u.core h.val).acc = (s.core h.val).acc ∧
      u.regs = s.regs ∧ u.mem = s.mem ∧ u.out = s.out := by
  obtain ⟨u, hgives, hset, hpc, hhold, hrest⟩ := gets_spec hi hg rfl rfl ⟨rfl, rfl, rfl⟩
  exact ⟨u, hgives, hset, hpc, fun h1 => absurd h1 hr, fun _ => hhold, hrest⟩

theorem traps_gets (hi : s.issuing t h.val 0x1C w)
    (hr : field w 0 6 = 6 ∨ (0x08 ≤ field w 0 6 ∧ field w 0 6 < 0x10) ∨ (0x24 ≤ field w 0 6 ∧ field w 0 6 < 0x28) ∨ 0x38 ≤ field w 0 6) :
    Traps (.gets t h) s h.val 2 := by
  refine traps_of_issuing (exec_gets s t h) (by decide) hi ?_
  have hno {a b : Nat} (hab : ¬ (a ≤ field w 0 6 ∧ field w 0 6 < b)) : ¬ ((decide (a ≤ field w 0 6) && decide (field w 0 6 < b)) = true) := by
    rwa [Bool.and_eq_true, decide_eq_true_eq, decide_eq_true_eq]
  exact (if_neg (by omega)).trans ((if_neg (by omega)).trans ((if_neg (by omega)).trans ((if_neg (by omega)).trans ((if_neg (by omega)).trans
    ((if_neg (by omega)).trans ((if_neg (by omega)).trans ((if_neg (hno (by omega))).trans (if_neg (hno (by omega))))))))))

end

/-- An address generator whose new length wraps its pointer (R336). -/
def AddrGen.wrapped (x : AddrGen) (n : Nat) : AddrGen := { x with len := n, ptr := (word4 x.base + x.offset % word4 n) % 65536 }

theorem claim_hallSpecials : Claim.HallSpecials := by
  rintro s t w h c rfl
  refine ⟨fun hi => ⟨?_, fun hr => traps_gets hi hr⟩, fun hi hb v hv => ?_⟩
  · intro k hk f hf q hq p hp hr
    have hin {a b : Nat} (hab : a ≤ field w 0 6 ∧ field w 0 6 < b) : (decide (a ≤ field w 0 6) && decide (field w 0 6 < b)) = true := by
      rwa [Bool.and_eq_true, decide_eq_true_eq, decide_eq_true_eq]
    have hno {a b : Nat} (hab : ¬ (a ≤ field w 0 6 ∧ field w 0 6 < b)) : ¬ ((decide (a ≤ field w 0 6) && decide (field w 0 6 < b)) = true) := by
      rwa [Bool.and_eq_true, decide_eq_true_eq, decide_eq_true_eq]
    simp only [List.mem_cons, List.not_mem_nil, or_false] at hp
    obtain rfl | rfl | rfl | rfl | rfl | rfl | rfl | rfl | rfl | rfl := hp
    · rw [← hr]
      exact gets_plain hi (by omega) (gives_of_issuing (exec_gets s t h) (by decide) hi
        (if_pos hr))
    · have hg := gives_of_issuing (exec_gets s t h) (by decide) hi ((if_neg (by omega)).trans (if_pos hr))
      obtain ⟨u, hgives, hset, hpc, hhold, hrest⟩ := gets_spec (hold := some (timeHi (s.atTime t).arrayNow)) hi hg (List.length_modify ..)
        (State.core_modCore_same (s := s.atTime t) (lt_length_of_issuing hi) _) ⟨rfl, rfl, rfl⟩
      exact ⟨u, hgives, hset, hpc, fun _ => hhold, fun h1 => absurd rfl h1, hrest⟩
    · rw [← hr]
      exact gets_plain hi (by omega) (gives_of_issuing (exec_gets s t h) (by decide) hi
        ((if_neg (by omega)).trans ((if_neg (by omega)).trans (if_pos hr))))
    · rw [← hr]
      exact gets_plain hi (by omega) (gives_of_issuing (exec_gets s t h) (by decide) hi
        ((if_neg (by omega)).trans ((if_neg (by omega)).trans ((if_neg (by omega)).trans (if_pos hr)))))
    · rw [← hr]
      exact gets_plain hi (by omega) (gives_of_issuing (exec_gets s t h) (by decide) hi
        ((if_neg (by omega)).trans ((if_neg (by omega)).trans ((if_neg (by omega)).trans ((if_neg (by omega)).trans (if_pos hr))))))
    · rw [← hr]
      exact gets_plain hi (by omega) (gives_of_issuing (exec_gets s t h) (by decide) hi
        ((if_neg (by omega)).trans ((if_neg (by omega)).trans ((if_neg (by omega)).trans ((if_neg (by omega)).trans ((if_neg (by omega)).trans (if_pos hr)))))))
    · rw [← hr]
      exact gets_plain hi (by omega) (gives_of_issuing (exec_gets s t h) (by decide) hi
        ((if_neg (by omega)).trans ((if_neg (by omega)).trans ((if_neg (by omega)).trans ((if_neg (by omega)).trans ((if_neg (by omega)).trans ((if_neg (by omega)).trans (if_pos hr))))))))
    · have hk' : (field w 0 6 - 0x10) / 5 = k := by rw [hr]; dsimp only; omega
      have hf' : (field w 0 6 - 0x10) % 5 = f := by rw [hr]; dsimp only; omega
      rw [← hr]
      refine gets_plain hi (by omega) (gives_of_issuing (exec_gets s t h) (by decide) hi (r := (s.atTime t).getSpecial h.val (field w 21 5) (field w 0 6) (((s.core h.val).gen k).read f) false)
        ((if_neg (by omega)).trans ((if_neg (by omega)).trans ((if_neg (by omega)).trans ((if_neg (by omega)).trans ((if_neg (by omega)).trans ((if_neg (by omega)).trans ((if_neg (by omega)).trans ((if_pos (hin (by omega))).trans ?_)))))))))
      rw [hk', hf']
      rfl
    · have hq' : (field w 0 6 - 0x28) / 2 = q := by rw [hr]; dsimp only; omega
      rw [← hr]
      refine gets_plain hi (by omega) (gives_of_issuing (exec_gets s t h) (by decide) hi (r := (s.atTime t).getSpecial h.val (field w 21 5) (field w 0 6) (BitVec.ofNat 32 ((s.core h.val).rings.getD q default).rd) false)
        ((if_neg (by omega)).trans ((if_neg (by omega)).trans ((if_neg (by omega)).trans ((if_neg (by omega)).trans ((if_neg (by omega)).trans ((if_neg (by omega)).trans ((if_neg (by omega)).trans ((if_neg (hno (by omega))).trans ((if_pos (hin (by omega))).trans ((if_pos (by omega)).trans ?_)))))))))))
      rw [hq']
      rfl
    · have hq' : (field w 0 6 - 0x28) / 2 = q := by rw [hr]; dsimp only; omega
      rw [← hr]
      refine gets_plain hi (by omega) (gives_of_issuing (exec_gets s t h) (by decide) hi (r := (s.atTime t).getSpecial h.val (field w 21 5) (field w 0 6) (BitVec.ofNat 32 ((s.core h.val).rings.getD q default).count) true)
        ((if_neg (by omega)).trans ((if_neg (by omega)).trans ((if_neg (by omega)).trans ((if_neg (by omega)).trans ((if_neg (by omega)).trans ((if_neg (by omega)).trans ((if_neg (by omega)).trans ((if_neg (hno (by omega))).trans ((if_pos (hin (by omega))).trans ((if_neg (by omega)).trans ?_)))))))))))
      rw [hq']
      rfl
  · subst hv
    have hin {a b : Nat} (hab : a ≤ field w 0 6 ∧ field w 0 6 < b) : (decide (a ≤ field w 0 6) && decide (field w 0 6 < b)) = true := by
      rwa [Bool.and_eq_true, decide_eq_true_eq, decide_eq_true_eq]
    have hno {a b : Nat} (hab : ¬ (a ≤ field w 0 6 ∧ field w 0 6 < b)) : ¬ ((decide (a ≤ field w 0 6) && decide (field w 0 6 < b)) = true) := by
      rwa [Bool.and_eq_true, decide_eq_true_eq, decide_eq_true_eq]
    refine ⟨fun hr => ?_, fun hr => ?_, fun k f hk hf hr => ?_, fun q hq hr => ?_, fun hr => ?_⟩
    · have hg := gives_of_issuing (exec_puts s t h) (by decide) hi ((reserved_of_ok hb).trans (if_pos hr))
      refine ⟨_, hg, ?_, sameWords_put (s.atTime t) (Reg.HALL.MBOX_OUT.word h.val) _, rfl, rfl⟩
      exact (State.get_put_same (f := Reg.HALL.MBOX_OUT.word h.val) (s.atTime t) rfl _).trans (Nat.mod_eq_of_lt (BitVec.isLt _))
    · exact gives_completes (exec_puts s t h) (by decide) hi ((reserved_of_ok hb).trans ((if_neg (by omega)).trans (if_pos hr)))
    · have hk' : (field w 0 6 - 0x10) / 5 = k := by omega
      have hf' : (field w 0 6 - 0x10) % 5 = f := by omega
      refine ⟨fun hne => ?_, fun heq hsmall => ?_, fun heq hpos hle => ?_⟩
      · refine gives_completes (exec_puts s t h) (by decide) hi ((reserved_of_ok hb).trans ((if_neg (by omega)).trans ((if_neg (by omega)).trans
          ((if_pos (hin (by omega))).trans ((if_neg (by omega)).trans ?_)))))
        rw [hk', hf']
        rfl
      · have hlen : ((s.core h.val).gen k).setLen (((s.core h.val).ga w).toNat % 65536) =
            ({ (s.core h.val).gen k with len := ((s.core h.val).ga w).toNat % 65536 }, false) := if_neg (by
          rw [Bool.and_eq_true, bne_iff_ne, decide_eq_true_eq]
          omega)
        have hg := gives_completes (g := fun c => { c with ag := c.ag.set k { (s.core h.val).gen k with len := ((s.core h.val).ga w).toNat % 65536 } })
          (exec_puts s t h) (by decide) hi ((reserved_of_ok hb).trans ((if_neg (by omega)).trans ((if_neg (by omega)).trans
            ((if_pos (hin (by omega))).trans ((if_pos (by omega)).trans (by
              rw [hk', State.core_atTime, hlen]
              rfl))))))
        refine hg.of_eq (State.completes_congr ?_ t)
        rfl
      · have hlen : ((s.core h.val).gen k).setLen (((s.core h.val).ga w).toNat % 65536) =
            (((s.core h.val).gen k).wrapped (((s.core h.val).ga w).toNat % 65536), true) := if_pos (by
          rw [Bool.and_eq_true, bne_iff_ne, decide_eq_true_eq]
          exact ⟨hpos, hle⟩)
        have hg := gives_of_issuing (r := .next (((s.atTime t).modCore h.val fun c =>
            { c with ag := c.ag.set k (((s.core h.val).gen k).wrapped (((s.core h.val).ga w).toNat % 65536)) }).stick h.val (4 + k)))
          (exec_puts s t h) (by decide) hi ((reserved_of_ok hb).trans ((if_neg (by omega)).trans ((if_neg (by omega)).trans
            ((if_pos (hin (by omega))).trans ((if_pos (by omega)).trans (by
              rw [hk', State.core_atTime, hlen]
              rfl))))))
        refine ⟨_, hg, fun hlt => ?_, ?_⟩
        · have hh : h.val < (((s.atTime t).modCore h.val fun c => { c with ag := c.ag.set k (((s.core h.val).gen k).wrapped
              (((s.core h.val).ga w).toNat % 65536)) }).stick h.val (4 + k)).halls.length :=
            lt_of_lt_of_eq (lt_length_of_issuing (t := t) hi) (List.length_modify ..).symm
          have hcore := State.core_modCore_same (s := s.atTime t) (lt_length_of_issuing (t := t) hi) fun c =>
            { c with ag := c.ag.set k (((s.core h.val).gen k).wrapped (((s.core h.val).ga w).toNat % 65536)) }
          have hset : ((s.core h.val).ag.set k (((s.core h.val).gen k).wrapped (((s.core h.val).ga w).toNat % 65536))).getD k default =
              ((s.core h.val).gen k).wrapped (((s.core h.val).ga w).toNat % 65536) := by simp [List.getD, hlt]
          rw [State.hallEnd, State.core_retireHall_same hh]
          exact (congrArg (fun c : HallCore => c.gen k) hcore).trans hset
        · exact State.get_put_same (f := ⟨(Reg.HALL.FLAGS.word h.val).addr, 4 + k, 1⟩) _ (decide_eq_true (by dsimp only; omega)) 1
    · have hq' : (field w 0 6 - 0x28) / 2 = q := by omega
      refine gives_completes (exec_puts s t h) (by decide) hi ((reserved_of_ok hb).trans ((if_neg (by omega)).trans ((if_neg (by omega)).trans
        ((if_neg (hno (by omega))).trans ((if_pos ?_).trans ?_)))))
      · rw [hin (by omega), Bool.true_and, decide_eq_true_eq]
        omega
      · rw [hq']
        rfl
    · refine traps_of_issuing (exec_puts s t h) (by decide) hi ((reserved_of_ok hb).trans ((if_neg (by omega)).trans ((if_neg (by omega)).trans
        ((if_neg (hno (by omega))).trans (if_neg ?_)))))
      rw [Bool.and_eq_true]
      exact fun h0 => hno (by omega) h0.1

/-- Settles O37: every instruction ends as its equation says, and the special registers are read and written one by one. -/
theorem hallProgramFlow : Obligations.HallProgramFlow := ⟨claim_hallFlow, claim_hallSpecials⟩

end Sys2Proof.Machine
end

