-- ==== Sys2Proof/Proofs/HallMemories.lean ====
section
/-!
Data memory accesses, SEND and FETCH of a hall (R324, R334 to R338, R359 to R362).
-/

namespace Sys2Proof.Machine

open Sys2Proof

/-! ### Data memory -/

section

variable {s : State} {t op w : Nat} {h : Fin 136} {i : Instr}

theorem withPm_of_ok {h pm : Nat} {r : HallRes} (hok : pm ≠ 3 ∨ h < 32) : withPm h pm r = r := if_neg (by
  rw [Bool.and_eq_true, beq_iff_eq, Bool.not_eq_true']
  rintro ⟨h1, h2⟩
  have : ¬ h < 32 := of_decide_eq_false h2
  omega)

theorem withPm_of_bad {h pm : Nat} {r : HallRes} (hpm : pm = 3) (hh : 32 ≤ h) : withPm h pm r = .trap trapBitrev := if_pos (by
  rw [Bool.and_eq_true, beq_iff_eq, Bool.not_eq_true']
  exact ⟨hpm, decide_eq_false (by omega)⟩)

/-- An access with bit reversal where it is not valid traps (R336). -/
theorem traps_memDo {f : Nat → AddrGen → State → State} (hexec : exec i s = memDo t h op s f) (hop : op ∈ hallOpcodes)
    (hissue : s.issuing t h.val op w) (hb : badM w = false) (hpm : mPm w = 3) (hh : 32 ≤ h.val) : Traps i s h.val 3 := by
  unfold memDo at hexec
  exact traps_of_issuing hexec hop hissue ((reserved_of_ok hb).trans (withPm_of_bad hpm hh))

/-- An access does its work, and its pointer moves (R336). -/
theorem gives_memDo {f : Nat → AddrGen → State → State} (hexec : exec i s = memDo t h op s f) (hop : op ∈ hallOpcodes)
    (hissue : s.issuing t h.val op w) (hb : badM w = false) (hok : mPm w ≠ 3 ∨ h.val < 32) :
    Gives i s ((f w ((s.core h.val).gen (mAg w)) (s.atTime t)).retireHall h.val fun c =>
      { c with ag := c.ag.modify (mAg w) fun x => x.advance (mPm w) }.afterAt c.pc) := by
  unfold memDo at hexec
  exact (gives_of_issuing hexec hop hissue ((reserved_of_ok hb).trans (withPm_of_ok hok))).of_eq (State.retireHall_modCore _ h.val
    (fun c => { c with ag := c.ag.modify (mAg w) fun x => x.advance (mPm w) }) fun c => c.afterAt c.pc)

/-- An access that changes only its hall's work completes. -/
theorem completes_memDo {f : Nat → AddrGen → State → State} {g : HallCore → HallCore} (hexec : exec i s = memDo t h op s f) (hop : op ∈ hallOpcodes)
    (hissue : s.issuing t h.val op w) (hb : badM w = false) (hok : mPm w ≠ 3 ∨ h.val < 32)
    (hf : f w ((s.core h.val).gen (mAg w)) (s.atTime t) = (s.atTime t).modCore h.val g) (hag : (g (s.core h.val)).ag = (s.core h.val).ag) :
    Gives i s (s.completes t h.val fun c => { g c with ag := c.ag.modify (mAg w) fun x => x.advance (mPm w) }) := by
  have hgives := gives_memDo hexec hop hissue hb hok
  rw [hf, State.retireHall_modCore] at hgives
  refine hgives.of_eq (State.retireHall_congr ?_)
  dsimp only [State.core_atTime]
  rw [hag]

/-- Stores leave everything of the hall's work but data memory. -/
theorem HallCore.foldl_store (l : List (Nat × Cplx × Bool)) (c : HallCore) :
    l.foldl (fun c e => c.store e.1 (e.2.1.word).toNat) c =
      { c with dm := l.foldl (fun m e => Memory.writeBytes m e.1 (leBytes 4 (e.2.1.word).toNat)) c.dm } := by
  induction l generalizing c with
  | nil => rfl
  | cons e l ih => rw [List.foldl_cons, ih, List.foldl_cons]; rfl

theorem stores_memDo {l : List (Nat × Cplx)} {f : Nat → AddrGen → State → State} (hexec : exec i s = memDo t h op s f) (hop : op ∈ hallOpcodes)
    (hissue : s.issuing t h.val op w) (hb : badM w = false) (hok : mPm w ≠ 3 ∨ h.val < 32)
    (hf : f w ((s.core h.val).gen (mAg w)) (s.atTime t) = (s.atTime t).storeElems h.val (mSat w) l) :
    ∃ u, Gives i s u ∧ (u.core h.val).dm = l.foldl (fun m e =>
        Memory.writeBytes m e.1 (leBytes 4 ((narrowC (mSat w) 16 e.2).1.word).toNat)) (s.core h.val).dm ∧
      (u.core h.val).ag = (s.core h.val).ag.modify (mAg w) (fun x => x.advance (mPm w)) ∧
      (u.core h.val).pc = ((s.core h.val).afterAt (s.core h.val).pc).pc ∧
      (u.core h.val).v = (s.core h.val).v ∧ u.mem = s.mem ∧
      (u.get (Reg.HALL.FLAGS.sat h.val) = 1 ↔ s.get (Reg.HALL.FLAGS.sat h.val) = 1 ∨ ∃ e ∈ l, (narrowC (mSat w) 16 e.2).2 = true) := by
  have hgives := gives_memDo hexec hop hissue hb hok
  have hh : h.val < (s.atTime t).halls.length := lt_length_of_issuing hissue
  obtain ⟨b, hbit⟩ : ∃ b, b = (l.map fun e => (e.1, narrowC (mSat w) 16 e.2)).any fun e => e.2.2 := ⟨_, rfl⟩
  have hany : b = true ↔ ∃ e ∈ l, (narrowC (mSat w) 16 e.2).2 = true := by
    rw [hbit, List.any_map, List.any_eq_true]
    rfl
  have hstore : (s.atTime t).storeElems h.val (mSat w) l = ((s.atTime t).when b fun s => s.stick h.val 0).modCore h.val fun c =>
      { c with dm := l.foldl (fun m e => Memory.writeBytes m e.1 (leBytes 4 ((narrowC (mSat w) 16 e.2).1.word).toNat)) c.dm } := by
    have hmodify : (fun c : HallCore => (l.map fun e => (e.1, narrowC (mSat w) 16 e.2)).foldl (fun c e => c.store e.1 (e.2.1.word).toNat) c) = fun c =>
        { c with dm := l.foldl (fun m e => Memory.writeBytes m e.1 (leBytes 4 ((narrowC (mSat w) 16 e.2).1.word).toNat)) c.dm } := by
      funext c
      rw [HallCore.foldl_store, List.foldl_map]
    rw [State.storeElems, hmodify, ← hbit]
    cases b <;> rfl
  rw [hf, hstore, State.retireHall_modCore] at hgives
  have hwhen : ((s.atTime t).when b fun s => s.stick h.val 0).halls = s.halls := by cases b <;> rfl
  have hcore : ((s.atTime t).when b fun s => s.stick h.val 0).core h.val = s.core h.val := by
    rw [State.core, State.hall, hwhen, State.core, State.hall]
  refine ⟨_, hgives, ?_⟩
  rw [State.core_retireHall_same (by rw [hwhen]; exact hh), hcore]
  refine ⟨rfl, rfl, rfl, rfl, ?_, ?_⟩
  · cases b <;> rfl
  · rw [State.get_retireHall, ← hany]
    cases b with
    | false => simp [State.when]
    | true =>
      refine ⟨fun _ => .inr rfl, fun _ => ?_⟩
      exact State.get_put_same (f := Reg.HALL.FLAGS.sat h.val) _ rfl 1

end

theorem claim_hallMemory : Claim.HallMemory := by
  rintro s t w h c x rfl rfl hb
  refine ⟨fun p hp hi hpm hh => ?_, fun hok => ⟨fun p hp hi => ?_, fun p hp hi => ?_⟩⟩
  · simp only [List.mem_cons, List.not_mem_nil, or_false] at hp
    obtain rfl | rfl | rfl | rfl | rfl | rfl | rfl := hp
    · exact traps_memDo (op := 0x20) (exec_ldv s t h) (by decide) hi hb hpm hh
    · exact traps_memDo (op := 0x21) (exec_ldb s t h) (by decide) hi hb hpm hh
    · exact traps_memDo (op := 0x22) (exec_ldl s t h) (by decide) hi hb hpm hh
    · exact traps_memDo (op := 0x23) (exec_stv s t h) (by decide) hi hb hpm hh
    · exact traps_memDo (op := 0x24) (exec_stl s t h) (by decide) hi hb hpm hh
    · exact traps_memDo (op := 0x25) (exec_ldw s t h) (by decide) hi hb hpm hh
    · exact traps_memDo (op := 0x26) (exec_stw s t h) (by decide) hi hb hpm hh
  · simp only [List.mem_cons, List.not_mem_nil, or_false] at hp
    obtain rfl | rfl | rfl | rfl | rfl := hp
    · exact completes_memDo (op := 0x20) (exec_ldv s t h) (by decide) hi hb hok rfl rfl
    · exact completes_memDo (op := 0x21) (exec_ldb s t h) (by decide) hi hb hok rfl rfl
    · exact completes_memDo (op := 0x22) (exec_ldl s t h) (by decide) hi hb hok rfl rfl
    · refine completes_memDo (op := 0x25) (exec_ldw s t h) (by decide) hi hb hok rfl ?_
      simp only [HallCore.setG, HallCore.modSet]
      cases (s.core h.val).shadow <;> rfl
    · exact completes_memDo (op := 0x26) (exec_stw s t h) (by decide) hi hb hok rfl rfl
  · simp only [List.mem_cons, List.not_mem_nil, or_false] at hp
    obtain rfl | rfl := hp
    · exact stores_memDo (op := 0x23) (exec_stv s t h) (by decide) hi hb hok rfl
    · exact stores_memDo (op := 0x24) (exec_stl s t h) (by decide) hi hb hok rfl

/-! ### SEND -/

theorem leNat_lt (l : List Byte) : leNat l < 256 ^ l.length := by
  induction l with
  | nil => simp [leNat]
  | cons b l ih =>
    rw [leNat, List.length_cons, pow_succ]
    have := b.isLt
    omega

section

variable {s : State} {t w : Nat} {h : Fin 136}

/-- Does the flow wait for flits of its old route? -/
def State.heldFlow (s : State) (h f : Nat) : Bool :=
  ((s.core h).flows.getD f default).rerouted && s.flits.any fun y => y.hall == h && y.flow == f

theorem State.heldFlow_iff (s : State) (h f : Nat) : s.heldFlow h f = true ↔
    ((s.core h).flows.getD f default).rerouted = true ∧ ∃ x ∈ s.flits, x.hall = h ∧ x.flow = f := by
  simp [State.heldFlow]

/-- The 16 elements that SEND takes. -/
def HallCore.sent (c : HallCore) (x : AddrGen) : List Word := (List.range 16).map fun j => BitVec.ofNat 32 (c.load (x.element j))

theorem HallCore.bytes_sent (c : HallCore) (x : AddrGen) :
    ((c.sent x).map fun w => leBytes 4 w.toNat).flatten = ((List.range 16).map fun j => leBytes 4 (c.load (x.element j))).flatten := by
  rw [sent, List.map_map]
  refine congrArg List.flatten (List.map_congr_left fun j _ => ?_)
  have hlt : c.load (x.element j) < 2 ^ 32 := lt_of_lt_of_eq (leNat_lt _) (by simp [Memory.readBytes])
  simp only [Function.comp_apply, BitVec.toNat_ofNat, Nat.mod_eq_of_lt hlt]

/-- What a change of one member keeps of each, it keeps of every one. -/
theorem getD_modify_keeps {α β : Type} (p : α → β) {f : α → α} (hf : ∀ x, p (f x) = p x) (l : List α) (i n : Nat) (d : α) :
    p ((l.modify i f).getD n d) = p (l.getD n d) := by
  rw [List.getD, List.getElem?_modify, List.getD]
  cases l[n]? with
  | none => rfl
  | some x =>
    by_cases hi : i = n
    · simp [hi, hf]
    · simp [hi]

theorem State.tileOf_modCore (s : State) (h : Nat) (f : HallCore → HallCore) : (s.modCore h f).tileOf = s.tileOf := by
  funext n
  exact congrArg (fun o : Option Nat => o.getD n) (getD_modify_keeps Hall.tile (f := fun x => { x with core := f x.core }) (fun _ => rfl) s.halls h n _)

theorem State.outputs_modFlow (s : State) (h f h' f' : Nat) (g : HallFlow → HallFlow) : (s.modFlow h f g).outputs h' f' = s.outputs h' f' := by
  rw [State.outputs, State.modFlow, State.tileOf_modCore]
  rfl

/-- A flow whose kind is not memory, or that is held, gets one flit in the corridors (R359, R361). -/
theorem State.flits_sendFlit {h f : Nat} {data : List Word} (hno : (decide ((s.route h f).kind = 2) && !s.heldFlow h f) = false) :
    ∃ y : Flit, (s.sendFlit h f data).flits = s.flits ++ [y] ∧ y.hall = h ∧ y.flow = f ∧ y.dest = (s.route h f).dest ∧ y.ring = (s.route h f).ring ∧
      y.cls = (s.route h f).cls ∧ y.links = s.outputs h f ∧ y.held = s.heldFlow h f ∧ y.seq = ((s.core h).flows.getD f default).seq ∧ y.data = data ∧
      (s.sendFlit h f data).mem = s.mem ∧ (s.sendFlit h f data).regs = s.regs := by
  unfold State.sendFlit
  dsimp only
  rw [show (((s.core h).flows.getD f default).rerouted && s.flits.any fun y => y.hall == h && y.flow == f) = s.heldFlow h f from rfl, hno,
    if_neg Bool.false_ne_true]
  exact ⟨_, rfl, rfl, rfl, rfl, rfl, rfl, State.outputs_modFlow .., rfl, rfl, rfl, rfl, rfl⟩

/-- A change of a flow's number and route leaves its place. -/
theorem State.place_modFlow (s : State) (h f : Nat) {g : HallFlow → HallFlow} (hg : ∀ x, (g x).place = x.place) :
    (((s.modFlow h f g).core h).flows.getD f default).place = ((s.core h).flows.getD f default).place :=
  getD_modify_keeps (fun x : Hall => (x.core.flows.getD f default).place)
    (f := fun x => { x with core := { x.core with flows := x.core.flows.modify f g } })
    (fun x => getD_modify_keeps HallFlow.place hg x.core.flows f f default) s.halls h h _

theorem State.modCore_modCore (s : State) (h : Nat) (f g : HallCore → HallCore) : (s.modCore h f).modCore h g = s.modCore h fun c => g (f c) :=
  congrArg (fun l => { s with halls := l }) (List.modify_modify_eq ..)

/-- A flow to memory writes its banks at its place (R347). -/
theorem State.sendFlit_to_memory {h f : Nat} {data : List Word} (hkind : (s.route h f).kind = 2) (hcount : (s.route h f).count ≠ 0)
    (hold : s.heldFlow h f = false) : ∃ flows : HallCore → List HallFlow,
      s.sendFlit h f data = (s.memWrite ((s.route h f).first * bankBytes + ((s.core h).flows.getD f default).place % ((s.route h f).count * 2048) * 64)
        (data.map fun w => leBytes 4 w.toNat).flatten).modCore h fun c => { c with flows := flows c } := by
  obtain ⟨g, hplace, hg⟩ : ∃ g : HallFlow → HallFlow, (∀ x, (g x).place = x.place) ∧
      s.sendFlit h f data = (s.modFlow h f g).memFlit h f data := by
    refine ⟨fun x => { x with seq := (x.seq + 1) % 2 ^ 32, rerouted := s.heldFlow h f }, fun _ => rfl, if_pos ?_⟩
    rw [show (((s.core h).flows.getD f default).rerouted && s.flits.any fun y => y.hall == h && y.flow == f) = s.heldFlow h f from rfl, hold, hkind]
    rfl
  have hroute : (s.modFlow h f g).route h f = s.route h f := rfl
  have hpos : ¬ (s.route h f).count * 2048 = 0 := by omega
  rw [hg, State.memFlit]
  rw [hroute, State.place_modFlow s h f hplace, if_neg hpos, if_neg hpos]
  refine ⟨fun c => (c.flows.modify f g).modify f fun x =>
    { x with place := (((s.core h).flows.getD f default).place + 1) % ((s.route h f).count * 2048) }, ?_⟩
  exact State.modCore_modCore (s.memWrite _ _) h (fun c => { c with flows := c.flows.modify f g }) _

theorem exec_send_of_issuing (hi : s.issuing t h.val 0x28 w) (hok : mPm w ≠ 3 ∨ h.val < 32) :
    ((s.route h.val (cFlow w)).kind = 2 → (s.route h.val (cFlow w)).count = 0 → Traps (.send t h) s h.val 7) ∧
    (¬ ((s.route h.val (cFlow w)).kind = 2 ∧ (s.route h.val (cFlow w)).count = 0) → s.credits h.val (cFlow w) = some 0 →
      Gives (.send t h) s ((s.atTime t).modHall h.val fun x => { x with credit := some (cFlow w) })) ∧
    (¬ ((s.route h.val (cFlow w)).kind = 2 ∧ (s.route h.val (cFlow w)).count = 0) → s.credits h.val (cFlow w) ≠ some 0 →
      Gives (.send t h) s (((s.atTime t).sendFlit h.val (cFlow w) ((s.core h.val).sent ((s.core h.val).gen (mAg w)))).retireHall h.val fun c =>
        { c with ag := c.ag.modify (mAg w) fun x => x.advance (mPm w) }.afterAt c.pc)) := by
  have hand : ((s.route h.val (cFlow w)).kind == 2 && (s.route h.val (cFlow w)).count == 0) = true ↔
      (s.route h.val (cFlow w)).kind = 2 ∧ (s.route h.val (cFlow w)).count = 0 := by
    rw [Bool.and_eq_true, beq_iff_eq, beq_iff_eq]
  refine ⟨fun hk hc => ?_, fun hno hcr => ?_, fun hno hcr => ?_⟩
  · exact traps_of_issuing (exec_send s t h) (by decide) hi ((withPm_of_ok hok).trans (if_pos (hand.2 ⟨hk, hc⟩)))
  · exact gives_of_issuing (exec_send s t h) (by decide) hi ((withPm_of_ok hok).trans ((if_neg fun h => hno (hand.1 h)).trans (if_pos (beq_iff_eq.2 hcr))))
  · exact (gives_of_issuing (exec_send s t h) (by decide) hi ((withPm_of_ok hok).trans ((if_neg fun h => hno (hand.1 h)).trans
      (if_neg fun h => hcr (beq_iff_eq.1 h))))).of_eq (State.retireHall_modCore _ h.val
        (fun c => { c with ag := c.ag.modify (mAg w) fun x => x.advance (mPm w) }) fun c => c.afterAt c.pc)

end

theorem claim_hallCorridors : Claim.HallCorridors := by
  rintro s t w h c r old rfl rfl rfl
  refine ⟨fun hi => ⟨fun hpm hh => traps_of_issuing (exec_send s t h) (by decide) hi (withPm_of_bad hpm hh), fun hok => ?_⟩, fun hi hn a ha => ?_⟩
  · obtain ⟨htrap, hwait, hsend⟩ := exec_send_of_issuing hi hok
    have hmem (hk : (s.route h.val (cFlow w)).kind = 2) : s.credits h.val (cFlow w) ≠ some 0 := by
      rw [State.credits]
      rw [if_neg (by omega), if_pos hk]
      exact nofun
    refine ⟨htrap, hwait, fun hk hc hnot data hdata => ?_, fun hk hc hold => ?_, fun hk hcr => ?_⟩
    · have hheld : (s.atTime t).heldFlow h.val (cFlow w) = false := by
        rw [← Bool.not_eq_true, State.heldFlow_iff]
        exact hnot
      obtain ⟨flows, hflit⟩ := State.sendFlit_to_memory (s := s.atTime t) (data := (s.core h.val).sent ((s.core h.val).gen (mAg w))) hk hc hheld
      have hg := hsend (fun h0 => hc h0.2) (hmem hk)
      rw [hflit, State.retireHall_modCore, HallCore.bytes_sent, ← hdata] at hg
      refine ⟨_, hg, rfl, rfl, ?_⟩
      rw [State.core_retireHall_same (s := (s.atTime t).memWrite _ _) (lt_length_of_issuing (t := t) hi)]
      exact ⟨rfl, rfl, rfl, (SameOff.of_regs (A := (· ∈ [])) rfl).sameWords⟩
    · have hheld : (s.atTime t).heldFlow h.val (cFlow w) = true := (State.heldFlow_iff (s.atTime t) _ _).2 hold
      obtain ⟨y, hflits, -, -, -, -, -, -, hy, -, -, hym, -⟩ := State.flits_sendFlit (s := s.atTime t) (h := h.val) (f := cFlow w)
        (data := (s.core h.val).sent ((s.core h.val).gen (mAg w))) (by rw [hheld, Bool.not_true, Bool.and_false])
      exact ⟨_, y, hsend (fun h0 => hc h0.2) (hmem hk), hflits, hy.trans hheld, hym⟩
    · have hk2 : (s.route h.val (cFlow w)).kind ≠ 2 := by omega
      obtain ⟨y, hflits, hy1, hy2, hy3, hy4, hy5, hy6, hy7, hy8, hy9, hym, hyr⟩ := State.flits_sendFlit (s := s.atTime t) (h := h.val) (f := cFlow w)
        (data := (s.core h.val).sent ((s.core h.val).gen (mAg w))) (by
          rw [show ((s.atTime t).route h.val (cFlow w)).kind = (s.route h.val (cFlow w)).kind from rfl, decide_eq_false hk2, Bool.false_and])
      refine ⟨_, y, hsend (fun h0 => hk2 h0.1) hcr, hflits, hy1, hy2, hy3, hy4, hy5, hy6, ?_, hy8, hy9, hym, (SameOff.of_regs (A := (· ∈ [])) hyr).sameWords⟩
      rw [hy7, State.heldFlow_iff]
      exact Iff.rfl
  · subst ha
    have hcount : (cCount w == 0) = false := beq_eq_false_iff_ne.2 hn
    have hrange : ((s.route h.val (cFlow w)).kind == 2 && decide (windowBase + (s.route h.val (cFlow w)).first * bankBytes ≤ ((s.core h.val).g (cG w)).toNat) &&
        decide (((s.core h.val).g (cG w)).toNat + 64 * cCount w ≤
          windowBase + (s.route h.val (cFlow w)).first * bankBytes + (s.route h.val (cFlow w)).count * bankBytes)) = true ↔
        (s.route h.val (cFlow w)).kind = 2 ∧ windowBase + (s.route h.val (cFlow w)).first * bankBytes ≤ ((s.core h.val).g (cG w)).toNat ∧
          ((s.core h.val).g (cG w)).toNat + 64 * cCount w ≤ windowBase + ((s.route h.val (cFlow w)).first + (s.route h.val (cFlow w)).count) * bankBytes := by
      rw [Bool.and_eq_true, Bool.and_eq_true, beq_iff_eq, decide_eq_true_eq, decide_eq_true_eq, Nat.add_mul, Nat.add_assoc, and_assoc]
    refine ⟨fun hno => ?_, fun hk hlo hhi => ⟨fun hfull => ?_, fun hroom => ?_⟩⟩
    · refine traps_of_issuing (exec_fetch s t h) (by decide) hi ((reserved_of_ok hcount).trans (if_pos ?_))
      rw [Bool.not_eq_true', ← Bool.not_eq_true]
      exact fun h0 => hno (hrange.1 h0)
    · refine gives_of_issuing (exec_fetch s t h) (by decide) hi ((reserved_of_ok hcount).trans ((if_neg ?_).trans (if_pos hfull)))
      rw [Bool.not_eq_true', Bool.not_eq_false]
      exact hrange.2 ⟨hk, hlo, hhi⟩
    · have hg := gives_of_issuing (exec_fetch s t h) (by decide) hi ((reserved_of_ok hcount).trans ((if_neg (by
        rw [Bool.not_eq_true', Bool.not_eq_false]
        exact hrange.2 ⟨hk, hlo, hhi⟩)).trans (if_neg (Nat.not_lt.2 hroom))))
      have hh : h.val < (s.atTime t).halls.length := lt_length_of_issuing hi
      obtain ⟨n, hhall⟩ : ∃ n, ((s.atTime t).hallEnd h.val (.next ((s.atTime t).modHall h.val fun x =>
          { x with fetches := x.fetches ++ (List.range (cCount w)).map fun i =>
            ((s.route h.val (cFlow w)).ring, ((s.core h.val).g (cG w)).toNat - windowBase + 64 * i) }))).hall h.val =
          { s.hall h.val with
            core := (s.core h.val).afterAt (s.core h.val).pc, retired := n, credit := none,
            fetches := (s.hall h.val).fetches ++ (List.range (cCount w)).map fun i =>
              ((s.route h.val (cFlow w)).ring, ((s.core h.val).g (cG w)).toNat - windowBase + 64 * i) } := by
        refine ⟨((s.hall h.val).retired + 1) % 2 ^ 64, ?_⟩
        rw [State.hallEnd, State.retireHall, State.hall_modHall_same (lt_of_lt_of_eq hh (List.length_modify ..).symm), State.hall_modHall_same hh]
        rfl
      refine ⟨_, hg, congrArg Hall.fetches hhall, ?_, ?_, rfl, (SameOff.of_regs (A := (· ∈ [])) rfl).sameWords⟩
      · exact (congrArg (fun x : Hall => x.core.pc) hhall :)
      · exact (congrArg (fun x : Hall => x.core.dm) hhall :)

/-- Settles O38: accesses go through one lemma on memory instructions, and SEND through what a flow makes of its flit. -/
theorem hallMemoryAccess : Obligations.HallMemoryAccess := ⟨claim_hallMemory, claim_hallCorridors⟩

end Sys2Proof.Machine
end

