-- ==== Sys2Proof/Proofs/HallArrivals.lean ====
section
/-!
Grants of router outputs, arrivals at a hall, and the events that a hall accepts (R342 to R362, R368, R442).
-/

namespace Sys2Proof.Machine

open Sys2Proof

/-! ### Grants -/

section

variable {runs : List Nat}

theorem mem_of_mem_due {l : List Nat} {j k : Nat} (h : k ∈ l.filter fun k => decide (j < k) && decide (31 ≤ runOf runs j k)) :
    k ∈ l ∧ j < k ∧ 31 ≤ runOf runs j k := by
  rwa [List.mem_filter, Bool.and_eq_true, decide_eq_true_eq, decide_eq_true_eq] at h

/-- A grant goes to one of those that wait. -/
theorem grantFrom_mem {l : List Nat} {n j : Nat} (hl : ∀ k ∈ l, j ≤ k ∧ k < j + n) (hne : l ≠ []) : grantFrom runs l n j ∈ l := by
  induction n generalizing l j with
  | zero =>
    obtain ⟨k, hk⟩ := List.exists_mem_of_ne_nil l hne
    have := hl k hk
    omega
  | succ n ih =>
    unfold grantFrom
    by_cases hj : j ∈ l
    · rw [if_neg (by simpa using hj)]
      dsimp only
      split
      · exact hj
      next hdue =>
        refine (mem_of_mem_due (ih (fun k hk => ?_) fun h => hdue (by rw [h]; rfl))).1
        obtain ⟨hk, hlt, -⟩ := mem_of_mem_due hk
        have := hl k hk
        omega
    · rw [if_pos (by simpa using hj)]
      refine ih (fun k hk => ?_) hne
      have := hl k hk
      have : k ≠ j := fun h => hj (h ▸ hk)
      omega

/-- The lowest class that waits is granted, unless one has waited long for it. -/
theorem grantFrom_eq {l : List Nat} {n j g : Nat} (hlow : ∀ k ∈ l, g ≤ k) (hg : g ∈ l) (hj : j ≤ g) (hn : g < j + n)
    (hshort : ∀ k ∈ l, g < k → runOf runs g k < 31) : grantFrom runs l n j = g := by
  induction n generalizing j with
  | zero => omega
  | succ n ih =>
    unfold grantFrom
    by_cases hjg : j = g
    · subst hjg
      rw [if_neg (by simpa using hg)]
      refine if_pos (List.isEmpty_iff.2 (List.eq_nil_iff_forall_not_mem.2 fun k hk => ?_))
      obtain ⟨hk, hlt, hlong⟩ := mem_of_mem_due hk
      have := hshort k hk hlt
      omega
    · rw [if_pos (by
        have : j ∉ l := fun h => by have := hlow j h; omega
        simpa using this)]
      exact ih (by omega) (by omega)

theorem runOf_runsAfter_zero (runs waits : List Nat) (g : Nat) {k : Nat} (h0 : 0 < k) (hk : k < 4) :
    runOf (runsAfter runs waits g) 0 k = if g = 0 ∧ k ∈ waits then min 31 (runOf runs 0 k + 1) else 0 := by
  obtain rfl | rfl | rfl : k = 1 ∨ k = 2 ∨ k = 3 := by omega
  all_goals simp [runOf, runPlace, runsAfter]

end

theorem claim_classGrants : Claim.ClassGrants := by
  intro runs waits hlt
  refine ⟨fun hne => grantFrom_mem (fun k hk => ⟨Nat.zero_le k, by have := hlt k hk; omega⟩) hne, fun h0 hshort => ?_,
    fun h0 g hg hpos hlong hlow hhigh => ⟨?_, fun next hnext hzero => ?_⟩, fun h0 k hk hpos => ?_, fun h0 k hpos hk hno => ?_⟩
  · exact grantFrom_eq (fun k _ => Nat.zero_le k) h0 le_rfl (by omega) fun k hk hpos => (hshort k hk).resolve_left (by omega)
  · unfold grantFrom
    have hin : g ∈ waits.filter fun k => decide (0 < k) && decide (31 ≤ runOf runs 0 k) := by
      rw [List.mem_filter, Bool.and_eq_true, decide_eq_true_eq, decide_eq_true_eq]
      exact ⟨hg, hpos, hlong⟩
    rw [if_neg (by simpa using h0)]
    dsimp only
    rw [if_neg (fun h => by rw [List.isEmpty_iff.1 h] at hin; exact List.not_mem_nil hin)]
    refine grantFrom_eq (fun k hk => ?_) hin hpos (by have := hlt g hg; omega) fun k hk hgk => hhigh k (mem_of_mem_due hk).1 hgk
    obtain ⟨hk, hkpos, hklong⟩ := mem_of_mem_due hk
    by_contra hlt'
    have := hlow k hk hkpos (by omega)
    omega
  · refine grantFrom_eq (fun k _ => Nat.zero_le k) hzero le_rfl (by omega) fun k hk hkpos => ?_
    rw [runOf_runsAfter_zero _ _ _ hkpos (hnext k hk), if_neg (by omega)]
    decide
  · rw [runOf_runsAfter_zero _ _ _ hpos (hlt k hk), if_pos ⟨rfl, hk⟩]
  · rw [runOf_runsAfter_zero _ _ _ hpos hk, if_neg (fun h => hno h.2)]

/-! ### Events and rings -/

theorem State.modHall_modHall (s : State) (h : Nat) (f g : Hall → Hall) : (s.modHall h f).modHall h g = s.modHall h fun x => g (f x) :=
  congrArg (fun l => { s with halls := l }) (List.modify_modify_eq ..)

/-- What the hall of a raised event keeps; the event is pending (R343). -/
def Hall.Raises (e : Nat) (f : Hall → Hall) : Prop :=
  ∀ x, (f x).core.pending = withBit x.core.pending e true ∧ (f x).core.dm = x.core.dm ∧ (f x).core.rings = x.core.rings ∧ (f x).fetches = x.fetches

theorem State.raise_spec (s : State) (h e : Nat) : ∃ f, s.raise h e = s.modHall h f ∧ Hall.Raises e f := by
  unfold State.raise State.endWaite
  split
  · dsimp only
    split
    · rw [State.retireHall, State.modCore, State.modHall_modHall, State.modHall_modHall]
      exact ⟨_, rfl, fun x => ⟨rfl, rfl, rfl, rfl⟩⟩
    · exact ⟨_, rfl, fun x => ⟨rfl, rfl, rfl, rfl⟩⟩
  · exact ⟨_, rfl, fun x => ⟨rfl, rfl, rfl, rfl⟩⟩

theorem State.raise_pending {s : State} {h : Nat} (e : Nat) (hh : h < s.halls.length) :
    ((s.raise h e).core h).pending.testBit e = true ∧ (s.raise h e).regs = s.regs ∧ (s.raise h e).mem = s.mem := by
  obtain ⟨f, hf, hkeep⟩ := s.raise_spec h e
  obtain ⟨hpend, -⟩ := hkeep (s.hall h)
  rw [hf, State.core, State.hall_modHall_same hh, hpend, testBit_withBit, if_pos rfl]
  exact ⟨rfl, rfl, rfl⟩

/-- The place of the next slot of a ring in data memory (R354). -/
def State.nextSlot (s : State) (h q : Nat) : Nat :=
  ringBase (s.sectionBytes secRoutes) h q +
    64 * (if s.ringSlots h q = 0 then 0 else (((s.core h).rings.getD q default).rd + ((s.core h).rings.getD q default).count) % s.ringSlots h q)

/-- What a flit leaves of a hall: the ring counts it, and its slot holds it (R354). -/
structure Hall.Entered (q at_ : Nat) (data : List Word) (x y : Hall) : Prop where
  rings : y.core.rings = x.core.rings.modify q fun r => { r with count := r.count + 1 }
  dm : y.core.dm = Memory.writeBytes x.core.dm at_ (data.map fun w => leBytes 4 w.toNat).flatten
  fetches : y.fetches = x.fetches

theorem State.enterRing_spec (s : State) (h q : Nat) (data : List Word) :
    ∃ f, s.enterRing h q data = s.modHall h f ∧ ∀ x, Hall.Entered q (s.nextSlot h q) data x (f x) := by
  obtain ⟨g, hg⟩ : ∃ g : HallCore → HallCore, g = fun c =>
      { c with
        dm := Memory.writeBytes c.dm (s.nextSlot h q) (data.map fun w => leBytes 4 w.toNat).flatten
        rings := c.rings.modify q fun x => { x with count := x.count + 1 } } := ⟨_, rfl⟩
  have hu : s.enterRing h q data = (s.modCore h g).when ((s.modCore h g).ringFull h q) fun s => s.raise h (evInq + q) := by
    rw [hg]
    rfl
  have hentered (x : Hall) : Hall.Entered q (s.nextSlot h q) data x { x with core := g x.core } := by
    rw [hg]
    exact ⟨rfl, rfl, rfl⟩
  rw [hu, State.when]
  split
  · obtain ⟨f, hf, hkeep⟩ := State.raise_spec (s.modCore h g) h (evInq + q)
    refine ⟨_, hf.trans (State.modHall_modHall ..), fun x => ?_⟩
    obtain ⟨-, hdm, hrings, hfetch⟩ := hkeep { x with core := g x.core }
    exact ⟨hrings.trans (hentered x).rings, hdm.trans (hentered x).dm, hfetch⟩
  · exact ⟨_, rfl, hentered⟩

/-! ### Events of a hall -/

theorem firstIdx_eq {n e : Nat} {p : Nat → Bool} (hn : e < n) (he : p e = true) (hlow : ∀ d, d < e → p d = false) : firstIdx n p = some e := by
  rw [firstIdx, List.find?_range_eq_some]
  simp [he, hn]
  exact hlow

theorem Hall.acceptable_iff (x : Hall) : x.acceptable = true ↔ x.core.shadow = false ∧ x.core.pending &&& x.core.enabled ≠ 0 := by
  simp [Hall.acceptable]

theorem State.get_dmNext (s : State) (h : Nat) :
    (s.dmNext h).get (Reg.HALL.DM_ADDR.addr h) = (s.get (Reg.HALL.DM_ADDR.addr h) + 1) % 2 ^ 14 := State.get_put_same _ rfl _

theorem claim_hallEvents : Claim.HallEvents := by
  rintro s t h ch v x rfl hlen
  have hh : h.val < (s.atTime t).halls.length := lt_of_lt_of_eq h.isLt hlen.symm
  refine ⟨fun hno => ?_, fun e he hlive hwait hprim hev hlow => ?_, fun hnone => ⟨?_, ?_⟩, fun hsome => ⟨?_, fun hst ht => ?_, fun hno => ?_⟩,
    fun hr => ?_, fun hr a ha => ⟨?_, fun hst => ?_, fun hst1 hst2 => ?_⟩⟩
  · refine Gives.of_eq rfl (if_neg ?_)
    rw [Bool.and_eq_true, Bool.and_eq_true, Option.isNone_iff_eq_none, Hall.acceptable_iff]
    rintro ⟨⟨h1, h2⟩, h3, h4⟩
    rcases hno with h5 | h5 | h5 | h5
    · exact Bool.false_ne_true (h5.symm.trans h1)
    · exact h5 h2
    · exact Bool.false_ne_true (h3.symm.trans h5)
    · exact h4 h5
  · have hcond : ((s.atTime t).hallLive h.val && ((s.atTime t).hall h.val).waiting.isNone && ((s.atTime t).hall h.val).acceptable) = true := by
      rw [Bool.and_eq_true, Bool.and_eq_true, Option.isNone_iff_eq_none, Hall.acceptable_iff]
      refine ⟨⟨hlive, hwait⟩, hprim, fun h0 => ?_⟩
      rw [show (s.hall h.val).core.pending &&& (s.hall h.val).core.enabled = 0 from h0] at hev
      simp at hev
    have hu : (s.atTime t).acceptEvent h.val = ((s.atTime t).entered h.val fun n => .event n e).modHall h.val fun x =>
        { x with
          credit := none
          core :=
            { x.core with
              epc := x.core.pc
              pc := e
              pending := withBit x.core.pending e false
              evcause := e
              shadow := true
              loopsAt := x.core.loops.length
              returnsAt := x.core.returns.length } } := by
      unfold State.acceptEvent
      dsimp only
      rw [if_pos hcond, show firstIdx 16 (((s.atTime t).hall h.val).core.pending &&& ((s.atTime t).hall h.val).core.enabled).testBit = some e from
        firstIdx_eq he hev hlow]
    refine ⟨_, Gives.of_eq rfl hu, ?_⟩
    rw [State.entered, State.modHall_modHall, State.core, State.hall_modHall_same hh]
    exact ⟨rfl, rfl, rfl, rfl, by dsimp only; rw [testBit_withBit, if_pos rfl], rfl, rfl, rfl, rfl⟩
  · exact Gives.of_eq rfl (if_neg (by rw [show ((s.atTime t).hall h.val).program = none from hnone]; exact Bool.false_ne_true))
  · exact Gives.of_eq rfl (if_neg (by rw [show ((s.atTime t).hall h.val).program = none from hnone]; simp))
  · exact ⟨_, Gives.of_eq rfl (if_pos (Option.isSome_iff_ne_none.2 hsome)), State.raise_pending _ hh⟩
  · refine ⟨_, Gives.of_eq rfl (if_pos ?_), State.raise_pending _ hh⟩
    rw [Bool.and_eq_true, Bool.and_eq_true, beq_iff_eq]
    exact ⟨⟨hst, Option.isSome_iff_ne_none.2 hsome⟩, ht⟩
  · refine Gives.of_eq rfl (if_neg ?_)
    rw [Bool.and_eq_true, Bool.and_eq_true, beq_iff_eq]
    rintro ⟨⟨h1, -⟩, h2⟩
    rcases hno with h3 | h3
    · exact Bool.false_ne_true (h3.symm.trans h1)
    · exact h3 h2
  · have hu : (s.hostCmd t ch.val (Reg.HALL.MBOX_IN.word h.val).addr fun s => s.mboxIn h.val v) = (s.atTime t).mboxIn h.val v :=
      State.hostCmd_of_reaches hr _
    refine ⟨_, Gives.of_eq rfl hu, ?_⟩
    have hword (u : State) (hu : u.regs = ((s.atTime t).setWord (Reg.HALL.MBOX_IN.word h.val).addr v).regs) :
        u.word (Reg.HALL.MBOX_IN.word h.val).addr = v ∧ SameWords s u [(Reg.HALL.MBOX_IN.word h.val).addr] := by
      refine ⟨by rw [State.word, hu]; exact RegFile.read_write_same .., fun a ha => ?_⟩
      rw [State.word, hu]
      exact State.word_setWord_other (fun h0 => ha (by simp [h0])) (s.atTime t) v
    unfold State.mboxIn State.when
    dsimp only
    split
    next hp =>
      obtain ⟨hpend, hregs, hmem⟩ := State.raise_pending (s := (s.atTime t).setWord (Reg.HALL.MBOX_IN.word h.val).addr v) evMbox hh
      obtain ⟨hw, hsame⟩ := hword _ hregs
      exact ⟨hw, fun _ => hpend, fun h0 => absurd h0 (Option.isSome_iff_ne_none.1 hp), hsame, hmem⟩
    next hp =>
      obtain ⟨hw, hsame⟩ := hword _ rfl
      exact ⟨hw, fun h0 => absurd (Option.isSome_iff_ne_none.2 h0) hp, fun _ => rfl, hsame, rfl⟩
  · refine ⟨_, Gives.of_eq rfl (State.hostCmd_of_reaches hr _), rfl, ?_, rfl⟩
    rw [ha]
    exact State.get_dmNext (State.emit (s.atTime t) _) h.val
  · have hcond : (((s.atTime t).hall h.val).state == hallNoProgram || ((s.atTime t).hall h.val).state == hallTrapped) = true := by
      rw [Bool.or_eq_true, beq_iff_eq, beq_iff_eq]
      exact hst
    have hu : (s.atTime t).dmWrite h.val v =
        ((s.atTime t).modCore h.val fun c => c.store (4 * s.get (Reg.HALL.DM_ADDR.addr h.val)) v.toNat).dmNext h.val := by
      unfold State.dmWrite
      dsimp only
      rw [if_pos hcond]
      rfl
    refine ⟨_, Gives.of_eq rfl ((State.hostCmd_of_reaches hr _).trans hu), ?_, ?_⟩
    · rw [ha]
      exact (congrArg HallCore.dm (State.core_modCore_same (s := s.atTime t) hh fun c => c.store (4 * s.get (Reg.HALL.DM_ADDR.addr h.val)) v.toNat) :)
    · rw [ha]
      exact State.get_dmNext ((s.atTime t).modCore h.val _) h.val
  · have hcond : ¬ (((s.atTime t).hall h.val).state == hallNoProgram || ((s.atTime t).hall h.val).state == hallTrapped) = true := by
      rw [Bool.or_eq_true, beq_iff_eq, beq_iff_eq]
      exact fun h0 => h0.elim hst1 hst2
    have hu : (s.atTime t).dmWrite h.val v = ((s.atTime t).put (Reg.HALL.STATUS.dm_write_lost h.val) 1).dmNext h.val := by
      unfold State.dmWrite
      dsimp only
      rw [if_neg hcond]
    refine ⟨_, Gives.of_eq rfl ((State.hostCmd_of_reaches hr _).trans hu), rfl, ?_, ?_⟩
    · rw [State.dmNext, State.get_put_apart _ rfl (Fld.apart_of_addr (by dsimp only; omega))]
      exact State.get_put_same _ rfl 1
    · rw [State.get_dmNext, State.get_put_apart _ rfl (Fld.apart_of_addr (by dsimp only; omega)), ha]
      rfl

/-! ### Arrivals -/

/-- What the router outputs grant hangs on the flits and the counts alone; passing them changes the counts alone (R362). -/
theorem State.passOutputs_eq {u v : State} (cls : Nat) (l : List Link) (hflits : u.flits = v.flits) (hrouters : u.routers = v.routers) :
    u.passOutputs cls l = ({ u with routers := (v.passOutputs cls l).1.routers }, (v.passOutputs cls l).2) := by
  induction l generalizing u v with
  | nil =>
    rw [State.passOutputs, State.passOutputs, ← hrouters]
  | cons o l ih =>
    have hclasses : u.classesAt o cls = v.classesAt o cls := by rw [State.classesAt, State.classesAt, hflits]
    have hruns : u.runsAt o = v.runsAt o := by rw [State.runsAt, State.runsAt, hrouters]
    rw [State.passOutputs, State.passOutputs, hclasses, hruns]
    split
    · exact ih hflits (by rw [hrouters])
    · rw [← hrouters]

theorem takeFirst_eq_none {α : Type} {p : α → Bool} {l : List α} (h : ∀ x ∈ l, p x = false) : takeFirst p l = none := by
  induction l with
  | nil => rfl
  | cons a l ih => simp [takeFirst, h a, ih fun x hx => h x (List.mem_cons_of_mem _ hx)]

theorem takeFirst_some {α : Type} {p : α → Bool} {l rest : List α} {x : α} (h : takeFirst p l = some (x, rest)) : p x = true := by
  induction l generalizing rest with
  | nil => cases h
  | cons a l ih =>
    rw [takeFirst] at h
    split at h
    next ha =>
      cases h
      exact ha
    next =>
      obtain ⟨r, hr, heq⟩ := Option.map_eq_some_iff.1 h
      cases heq
      exact ih hr

theorem assoc?_assocSet_same {α : Type} (l : List (Nat × α)) (k : Nat) (v : α) : assoc? (assocSet l k v) k = some v := by
  unfold assoc? assocSet
  split
  next hany =>
    induction l with
    | nil => cases hany
    | cons e l ih =>
      by_cases he : e.1 = k
      · simp [he]
      · have hrest : (l.any fun e => e.1 == k) = true := by simpa [he] using hany
        simpa [he] using ih hrest
  next hno =>
    have hnone : (l.find? fun e => e.1 == k) = none := by
      rw [List.find?_eq_none]
      intro e he hk
      exact hno (List.any_eq_true.2 ⟨e, he, hk⟩)
    rw [List.find?_append, hnone]
    simp

/-- The oldest flit of a flow on its way; what it does where it passes every router output, and where it does not (R354, R358). -/
theorem State.flitArrives_of_some {s : State} {h f : Nat} {x : Flit} {rest : List Flit}
    (hx : takeFirst (fun x : Flit => x.hall == h && x.flow == f && !x.held) s.flits = some (x, rest)) (hw : s.isWedged .corridors = false) :
    (x.kind = 1 → s.replaying x.dest = true → s.flitArrives h f = s) ∧
    ((x.kind = 1 → s.replaying x.dest = false) → ∀ p, p = ({ s with flits := rest } : State).passOutputs x.cls x.links →
      ∀ want, want = (assoc? ((p.1.core x.dest).rings.getD x.ring default).expected (16 * h + f)).getD 0 → s.flitArrives h f =
        if !p.2.isEmpty then
          { p.1 with flits := s.flits.map fun y => if y.hall == h && y.flow == f && y.seq == x.seq then { y with links := p.2 } else y }
        else if x.kind = 1 then
          if x.seq = want then
            ((p.1.modCore x.dest fun c => { c with rings := c.rings.modify x.ring fun r =>
              { r with expected := assocSet r.expected (16 * h + f) ((want + 1) % 2 ^ 32) } }).entered x.dest fun n => .flit n x.ring x.data).enterRing x.dest x.ring x.data
          else p.1.bump (Reg.HALL.SUPPRESSED.word h)
        else p.1.emit (.unitFlit x.dest h f x.data)) := by
  unfold State.flitArrives
  rw [hx]
  refine ⟨fun hk hr => if_pos (by simp [hk, hr]), fun hr p hp want hwant => ?_⟩
  rw [hwant, hp]
  refine if_neg ?_
  rw [hw, Bool.false_or, Bool.and_eq_true, decide_eq_true_eq]
  exact fun h0 => Bool.false_ne_true ((hr h0.1).symm.trans h0.2)

/-- A flit with the number expected is in its ring (R354). -/
theorem State.flitEnters_spec {s : State} {q k n dest : Nat} {data : List Word} {i : Nat → HallInput} (hh : dest < s.halls.length)
    (hq : q < (s.core dest).rings.length) :
    ∀ u, u = ((s.modCore dest fun c => { c with rings := c.rings.modify q fun r => { r with expected := assocSet r.expected k n } }).entered dest
        i).enterRing dest q data →
      ((u.core dest).rings.getD q default).count = ((s.core dest).rings.getD q default).count + 1 ∧
      assoc? ((u.core dest).rings.getD q default).expected k = some n ∧
      (u.core dest).dm = Memory.writeBytes (s.core dest).dm (s.nextSlot dest q) (data.map fun w => leBytes 4 w.toNat).flatten ∧
      u.mem = s.mem ∧ u.regs = s.regs ∧ u.flits = s.flits := by
  rintro u rfl
  obtain ⟨g, hg⟩ : ∃ g : Hall → Hall, g = fun x =>
      { x with
        core := { x.core with rings := x.core.rings.modify q fun r => { r with expected := assocSet r.expected k n } }
        inputs := x.inputs ++ [i x.retired] } := ⟨_, rfl⟩
  have hu : (s.modCore dest fun c => { c with rings := c.rings.modify q fun r => { r with expected := assocSet r.expected k n } }).entered dest i =
      s.modHall dest g := by
    rw [hg]
    exact State.modHall_modHall ..
  have hrings : (g (s.hall dest)).core.rings = (s.core dest).rings.modify q fun r => { r with expected := assocSet r.expected k n } := by
    rw [hg]
    rfl
  have hdm : (g (s.hall dest)).core.dm = (s.core dest).dm := by
    rw [hg]
    rfl
  have hslot : (s.modHall dest g).nextSlot dest q = s.nextSlot dest q := by
    have hring : (((s.modHall dest g).core dest).rings.getD q default).rd = ((s.core dest).rings.getD q default).rd ∧
        (((s.modHall dest g).core dest).rings.getD q default).count = ((s.core dest).rings.getD q default).count := by
      rw [State.core, State.hall_modHall_same hh, hrings]
      exact ⟨getD_modify_keeps (fun r : HallRing => r.rd) (f := fun r => { r with expected := assocSet r.expected k n }) (fun _ => rfl) ..,
        getD_modify_keeps (fun r : HallRing => r.count) (f := fun r => { r with expected := assocSet r.expected k n }) (fun _ => rfl) ..⟩
    rw [State.nextSlot, hring.1, hring.2]
    rfl
  obtain ⟨f, hf, hent⟩ := (s.modHall dest g).enterRing_spec dest q data
  obtain ⟨hr2, hd2, -⟩ := hent (g (s.hall dest))
  rw [hu, hf, State.modHall_modHall, State.core, State.hall_modHall_same hh, hr2, hd2, hrings, hdm, hslot]
  refine ⟨?_, ?_, rfl, rfl, rfl, rfl⟩
  · simp [List.getD, hq]
  · simp [List.getD, hq, assoc?_assocSet_same]

theorem State.memFlits_keep {h f : Nat} (s : State) (l : List Flit) :
    (s.forEach l fun x s => s.memFlit h f x.data).flits = s.flits ∧ (s.forEach l fun x s => s.memFlit h f x.data).regs = s.regs :=
  State.forEach_induct (P := fun u => u.flits = s.flits ∧ u.regs = s.regs) ⟨rfl, rfl⟩ fun _ _ _ hx => hx

theorem claim_hallArrivals : Claim.HallArrivals := by
  intro s t h f hlen
  refine ⟨fun hno => ?_, fun x rest hx hw => ⟨fun hk hr => ?_, fun o l hl hsame hgrant => ?_, fun p hp hpast => ?_⟩,
    fun hnil => ?_, fun q off rest hcons hq => ?_, fun hany => ?_, fun hheld mine hmine => ?_⟩
  · refine Gives.of_eq rfl ?_
    unfold State.flitArrives
    rw [show takeFirst (fun x : Flit => x.hall == h.val && x.flow == f.val && !x.held) (s.atTime t).flits = none from
      takeFirst_eq_none fun x hx => by simpa using hno x hx]
  · exact Gives.of_eq rfl ((State.flitArrives_of_some (s := s.atTime t) hx hw).1 hk hr)
  · by_cases hrep : x.kind = 1 ∧ s.replaying x.dest = true
    · exact Gives.of_eq rfl ((State.flitArrives_of_some (s := s.atTime t) hx hw).1 hrep.1 hrep.2)
    · have hpass : ({ s.atTime t with flits := rest } : State).passOutputs x.cls x.links = ({ s.atTime t with flits := rest }, o :: l) := by
        rw [hl, State.passOutputs]
        exact if_neg hgrant
      have hmap : (s.flits.map fun y => if y.hall == h.val && y.flow == f.val && y.seq == x.seq then { y with links := o :: l } else y) = s.flits := by
        refine (List.map_congr_left fun y hy => ?_).trans (List.map_id _)
        split
        next hcond =>
          rw [Bool.and_eq_true, Bool.and_eq_true, beq_iff_eq, beq_iff_eq, beq_iff_eq] at hcond
          rw [← hl, ← hsame y hy hcond.1.1 hcond.1.2 hcond.2]
          rfl
        next => rfl
      refine Gives.of_eq rfl (((State.flitArrives_of_some (s := s.atTime t) hx hw).2
        (fun hk => Bool.eq_false_iff.2 fun h0 => hrep ⟨hk, h0⟩) _ hpass.symm _ rfl).trans ?_)
      refine (if_pos rfl).trans ?_
      exact congrArg (fun l => { s.atTime t with flits := l }) hmap
  · have hpass : (({ s.atTime t with flits := rest, routers := p.1.routers } : State), p.2) =
        ({ s.atTime t with flits := rest } : State).passOutputs x.cls x.links := by
      rw [hp]
      exact (State.passOutputs_eq (u := { s.atTime t with flits := rest }) (v := { s with flits := rest }) x.cls x.links rfl rfl).symm
    have hno : ¬ (!p.2.isEmpty) = true := by
      rw [hpast]
      exact Bool.false_ne_true
    refine ⟨fun hk => ?_, fun want hwant hk hr => ?_⟩
    · exact Gives.of_eq rfl (((State.flitArrives_of_some (s := s.atTime t) hx hw).2 (fun h1 => absurd h1 hk) _ hpass _ rfl).trans
        ((if_neg hno).trans (if_neg hk)))
    · have hu := ((State.flitArrives_of_some (s := s.atTime t) hx hw).2 (fun _ => hr) _ hpass want hwant).trans ((if_neg hno).trans (if_pos hk))
      refine ⟨fun hne => Gives.of_eq rfl (hu.trans (if_neg hne)), fun heq hd hring => ⟨_, Gives.of_eq rfl (hu.trans (if_pos heq)), ?_⟩⟩
      obtain ⟨hcount, hexp, hdm, hmem, hregs, hflits⟩ := State.flitEnters_spec
        (s := { s.atTime t with flits := rest, routers := p.1.routers }) (k := 16 * h.val + f.val) (n := (want + 1) % 2 ^ 32)
        (data := x.data) (i := fun n => .flit n x.ring x.data) (lt_of_lt_of_eq hd hlen.symm) hring _ rfl
      refine ⟨hflits, hcount, hexp, fun n hn hpos => hdm.trans ?_, hmem, hregs⟩
      subst hn
      exact congrArg (fun a => Memory.writeBytes (s.core x.dest).dm a (x.data.map fun w => leBytes 4 w.toNat).flatten)
        (congrArg (fun a => ringBase (s.sectionBytes secRoutes) x.dest x.ring + 64 * a) (if_neg hpos))
  · refine Gives.of_eq rfl ?_
    rw [show ((s.atTime t).hall h.val).fetches = [] from hnil]
  · obtain ⟨g, hg⟩ : ∃ g : Hall → Hall, g = fun x =>
        { x with
          fetches := rest
          inputs := x.inputs ++ [.fetch x.retired q (leWords 16 ((s.atTime t).memRead off 64))] } := ⟨_, rfl⟩
    obtain ⟨k, hk, hent⟩ := ((s.atTime t).modHall h.val g).enterRing_spec h.val q (leWords 16 ((s.atTime t).memRead off 64))
    have hh : h.val < (s.atTime t).halls.length := lt_of_lt_of_eq h.isLt hlen.symm
    obtain ⟨hrings, -, hfetch⟩ := hent (g (s.hall h.val))
    refine ⟨_, Gives.of_eq rfl (u := ((s.atTime t).modHall h.val fun x => k (g x))) ?_, ?_⟩
    · rw [← State.modHall_modHall, ← hk, hg, show ((s.atTime t).hall h.val).fetches = (q, off) :: rest from hcons]
      exact congrArg (fun u : State => u.enterRing h.val q (leWords 16 ((s.atTime t).memRead off 64))) (State.modHall_modHall ..)
    · rw [State.core, State.hall_modHall_same hh]
      refine ⟨hfetch.trans (by rw [hg]), ?_, rfl, rfl⟩
      rw [show (k (g ((s.atTime t).hall h.val))).core.rings = _ from hrings, hg]
      have hq' : q < (s.hall h.val).core.rings.length := hq
      simp [List.getD, hq', State.core]
  · refine Gives.of_eq rfl (if_pos (List.any_eq_true.2 ?_))
    obtain ⟨x, hx, h1, h2, h3⟩ := hany
    exact ⟨x, hx, by simp [h1, h2, h3]⟩
  · subst hmine
    have hno : ¬ (s.flits.any fun x => (x.hall == h.val && x.flow == f.val) && !x.held) = true := by
      rw [List.any_eq_true]
      rintro ⟨x, hx, hcond⟩
      rw [Bool.and_eq_true, Bool.and_eq_true, beq_iff_eq, beq_iff_eq] at hcond
      simp [hheld x hx hcond.1.1 hcond.1.2] at hcond
    obtain ⟨free, hfree⟩ : ∃ l, l = (s.flits.filter fun x => !((x.hall == h.val && x.flow == f.val) && x.kind == 2)).map
        fun x => if (x.hall == h.val && x.flow == f.val) = true then { x with held := false } else x := ⟨_, rfl⟩
    obtain ⟨v, hv⟩ : ∃ v : State, v = { s.atTime t with flits := free }.modFlow h.val f.val fun x => { x with rerouted := false } := ⟨_, rfl⟩
    have hkeep := State.memFlits_keep (h := h.val) (f := f.val) v (s.flits.filter fun x => (x.hall == h.val && x.flow == f.val) && x.kind == 2)
    refine ⟨_, Gives.of_eq rfl ((if_neg hno).trans (congrArg (a₂ := v) (fun u : State => u.forEach (s.flits.filter fun x =>
      (x.hall == h.val && x.flow == f.val) && x.kind == 2) fun x s => s.memFlit h.val f.val x.data) (by rw [hv, hfree]; rfl))), ?_, ?_, fun hnone => ?_,
        fun x hx r hr hcount => ?_⟩
    · rw [hkeep.1, hv, ← hfree]
      rfl
    · rw [hkeep.2, hv]
      rfl
    · have hnil : (s.flits.filter fun x => (x.hall == h.val && x.flow == f.val) && x.kind == 2) = [] := by
        rw [List.filter_eq_nil_iff]
        intro x hx hcond
        rw [Bool.and_eq_true, beq_iff_eq] at hcond
        exact hnone x hx hcond.1 hcond.2
      rw [hnil, hv]
      rfl
    · have hplace : ((v.core h.val).flows.getD f.val default).place = ((s.core h.val).flows.getD f.val default).place := by
        rw [hv]
        exact State.place_modFlow _ h.val f.val fun _ => rfl
      have hmem : v.mem = s.mem := by
        rw [hv]
        rfl
      have hroute : v.route h.val f.val = r := by
        rw [hv, hr]
        rfl
      have hpos : r.count * 2048 ≠ 0 := by omega
      rw [hx, State.forEach, List.foldl_cons, List.foldl_nil, State.memFlit, hroute, hplace, if_neg hpos, if_neg hpos, ← hmem]
      rfl

/-- Settles O40: a flit's way is what the outputs grant it, and every event goes through what its raising keeps of the hall. -/
theorem hallArrivalsEvents : Obligations.HallArrivalsEvents := ⟨claim_classGrants, claim_hallArrivals, claim_hallEvents⟩

end Sys2Proof.Machine
end

