-- ==== Sys2Proof/Proofs/LaneCoding.lean ====
section
/-!
What a stair lane carries (R422 to R427): Gray coding, pilot blocks, codewords, and the scrambler's sequence.
-/

namespace Sys2Proof.Machine

open Sys2Proof

/-! ### Gray coding -/

theorem grayPair_grayLevel (a b : Bool) : grayPair (grayLevel a b) = (a, b) := by cases a <;> cases b <;> rfl

theorem grayBits_grayLevels : ∀ {l : List Bool}, l.length % 2 = 0 → grayBits (grayLevels l) = l
  | [], _ => rfl
  | [_], h => absurd h (by simp)
  | a :: b :: l, h => by
    have ih : grayBits (grayLevels l) = l := grayBits_grayLevels (by
      rw [List.length_cons, List.length_cons] at h
      omega)
    rw [grayLevels, grayBits, List.map_cons, List.flatten_cons, grayPair_grayLevel, ← grayBits, ih]
    rfl

theorem scrambled_scrambled {l key : List Bool} (h : key.length = l.length) : scrambled (scrambled l key) key = l := by
  induction l generalizing key with
  | nil => rfl
  | cons a l ih =>
    cases key with
    | nil => cases h
    | cons b key =>
      have hrest := ih (key := key) (by simpa using h)
      simp only [scrambled] at hrest ⊢
      simp [hrest]

/-! ### Pilot blocks -/

/-- Data symbol `d` itself, past its pilot block. -/
def dataSymbol (d : Nat) : Nat := 4096 * (d / 4032) + 64 + d % 4032

theorem dataSymbol_mod (d : Nat) : 64 ≤ dataSymbol d % 4096 := by unfold dataSymbol; omega

theorem laneSymbol_of_block {d : Nat} (h : d % 4032 = 0) : laneSymbol d % 4096 = 0 ∧ laneSymbol d + 64 = dataSymbol d := by
  rw [laneSymbol, if_pos h, dataSymbol]
  omega

theorem laneSymbol_of_inside {d : Nat} (h : d % 4032 ≠ 0) : laneSymbol d = dataSymbol d := by
  rw [laneSymbol, if_neg h, dataSymbol]
  omega

theorem dataSymbol_succ (d : Nat) : dataSymbol d + 1 = laneSymbol (d + 1) := by
  unfold dataSymbol laneSymbol
  split <;> omega

theorem noPilots_pilot {p : List Int} (l : List Int) {at_ : Nat} (h : at_ % 4096 + p.length ≤ 64) :
    noPilots at_ (p ++ l) = noPilots (at_ + p.length) l := by
  induction p generalizing at_ with
  | nil => rfl
  | cons v p ih =>
    rw [List.length_cons] at h
    rw [List.cons_append, noPilots, if_pos (by omega), ih (by omega), List.length_cons]
    congr 1
    omega

section

variable {pilot : List Int} (hp : pilot.length = 64)
include hp

theorem noPilots_withPilots (l : List Int) (d : Nat) : noPilots (laneSymbol d) (withPilots pilot d l) = l := by
  induction l generalizing d with
  | nil => rfl
  | cons v l ih =>
    have hdata := dataSymbol_mod d
    rw [withPilots]
    by_cases hd : d % 4032 = 0
    · obtain ⟨hz, hs⟩ := laneSymbol_of_block hd
      rw [if_pos hd, noPilots_pilot _ (by omega), hp, hs, noPilots, if_neg (by omega), dataSymbol_succ, ih]
    · rw [if_neg hd, laneSymbol_of_inside hd, noPilots, if_neg (by omega), dataSymbol_succ, ih]

/-- From data symbol `e` on, what stands at a place is the first data symbol past its pilot block, or what follows it. -/
theorem getD_withPilots_cons (v : Int) (l : List Int) (e n : Nat) :
    (withPilots pilot e (v :: l)).getD (dataSymbol e - laneSymbol e) 0 = v ∧
    (dataSymbol e < laneSymbol e + n → (withPilots pilot e (v :: l)).getD n 0 = (withPilots pilot (e + 1) l).getD (laneSymbol e + n - laneSymbol (e + 1)) 0) := by
  rw [withPilots]
  by_cases he : e % 4032 = 0
  · obtain ⟨-, hs⟩ := laneSymbol_of_block he
    have hnext := dataSymbol_succ e
    rw [if_pos he]
    refine ⟨by simp [← hs, List.getD, hp], fun hn => ?_⟩
    obtain ⟨m, rfl⟩ : ∃ m, n = 65 + m := ⟨n - 65, by omega⟩
    rw [show laneSymbol e + (65 + m) - laneSymbol (e + 1) = m by omega]
    simp only [List.getD]
    rw [List.getElem?_append_right (by omega), hp, show 65 + m - 64 = m + 1 by omega, List.getElem?_cons_succ]
  · have hnext := dataSymbol_succ e
    have hs := laneSymbol_of_inside he
    rw [if_neg he]
    refine ⟨by rw [hs, Nat.sub_self]; rfl, fun hn => ?_⟩
    obtain ⟨m, rfl⟩ : ∃ m, n = 1 + m := ⟨n - 1, by omega⟩
    rw [show laneSymbol e + (1 + m) - laneSymbol (e + 1) = m by omega, Nat.add_comm 1 m]
    rfl

theorem getD_withPilots_data (l : List Int) {e d : Nat} (hd : d < l.length) :
    (withPilots pilot e l).getD (dataSymbol (e + d) - laneSymbol e) 0 = l.getD d 0 := by
  induction l generalizing e d with
  | nil => simp at hd
  | cons v l ih =>
    obtain ⟨hfirst, hrest⟩ := getD_withPilots_cons hp v l e (dataSymbol (e + d) - laneSymbol e)
    cases d with
    | zero => exact hfirst
    | succ d =>
      have hmono : dataSymbol e < dataSymbol (e + (d + 1)) ∧ laneSymbol e ≤ dataSymbol e := by
        unfold dataSymbol laneSymbol
        split <;> omega
      rw [hrest (by omega), List.getD_cons_succ, show laneSymbol e + (dataSymbol (e + (d + 1)) - laneSymbol e) = dataSymbol (e + 1 + d) by
        rw [Nat.add_right_comm e 1 d]; rw [Nat.add_assoc]; omega]
      exact ih (by simpa using hd)

theorem getD_withPilots_pilot (l : List Int) {e k j : Nat} (hk : e ≤ 4032 * k) (hlt : 4032 * k < e + l.length) (hj : j < 64) :
    (withPilots pilot e l).getD (4096 * k + j - laneSymbol e) 0 = pilot.getD j 0 := by
  induction l generalizing e with
  | nil => simp at hlt; omega
  | cons v l ih =>
    by_cases he : e = 4032 * k
    · have hz : e % 4032 = 0 := by omega
      rw [withPilots, if_pos hz, show 4096 * k + j - laneSymbol e = j by rw [laneSymbol, if_pos hz]; omega]
      simp only [List.getD]
      rw [List.getElem?_append_left (by omega)]
    · have hplace : dataSymbol e < 4096 * k + j ∧ laneSymbol e ≤ dataSymbol e := by
        unfold dataSymbol laneSymbol
        split <;> omega
      obtain ⟨-, hrest⟩ := getD_withPilots_cons hp v l e (4096 * k + j - laneSymbol e)
      rw [hrest (by omega), show laneSymbol e + (4096 * k + j - laneSymbol e) = 4096 * k + j by omega]
      exact ih (by omega) (by rw [List.length_cons] at hlt; omega)

end

/-! ### Codewords -/

theorem length_symbols10 (k : Nat) (l : List Bool) : (symbols10 k l).length = k := by
  induction k generalizing l with
  | zero => rfl
  | succ k ih => rw [symbols10, List.length_cons, ih]

theorem length_codeSymbols (w : Codeword) : (codeSymbols w).length = 288 := by
  simp [codeSymbols, length_symbols10]

theorem length_codewordBits (w : Codeword) : (codewordBits w).length = 2880 := by
  have hten : ∀ l : List Nat, ((l.map (msbBits 10)).flatten).length = 10 * l.length := by
    intro l
    induction l with
    | nil => rfl
    | cons n l ih =>
      rw [List.map_cons, List.flatten_cons, List.length_append, ih, List.length_cons, msbBits, List.length_map, List.length_range]
      omega
  rw [codewordBits, hten, length_codeSymbols]

/-! ### The scrambler -/

/-- A function of words that keeps sums over GF(2). -/
def Additive (f : Nat → Nat) : Prop := ∀ a b, f (a ^^^ b) = f a ^^^ f b

theorem Additive.map_zero {f : Nat → Nat} (hf : Additive f) : f 0 = 0 := by
  have h := hf 0 0
  rwa [Nat.xor_self, Nat.xor_self] at h

theorem Additive.comp {f g : Nat → Nat} (hf : Additive f) (hg : Additive g) : Additive fun a => f (g a) := fun a b => by
  dsimp only
  rw [hg, hf]

theorem Additive.iterate {f : Nat → Nat} (hf : Additive f) (n : Nat) : Additive f^[n] := by
  induction n with
  | zero => exact fun _ _ => rfl
  | succ n ih =>
    intro a b
    rw [Function.iterate_succ_apply', Function.iterate_succ_apply', Function.iterate_succ_apply', ih, hf]

theorem xor_four (a b c d : Nat) : (a ^^^ b) ^^^ (c ^^^ d) = (a ^^^ c) ^^^ (b ^^^ d) := by ac_rfl

theorem Additive.xor {f g : Nat → Nat} (hf : Additive f) (hg : Additive g) : Additive fun a => f a ^^^ g a := fun a b => by
  dsimp only
  rw [hf, hg]
  exact xor_four ..

/-- Two such functions that agree on the powers of two below 2^n agree on every word of n bits. -/
theorem Additive.ext {f g : Nat → Nat} (hf : Additive f) (hg : Additive g) {n : Nat} (h : ∀ j, j < n → f (2 ^ j) = g (2 ^ j)) {b : Nat} (hb : b < 2 ^ n) :
    f b = g b := by
  induction n generalizing b with
  | zero =>
    obtain rfl : b = 0 := by simpa using hb
    rw [hf.map_zero, hg.map_zero]
  | succ n ih =>
    have hlow := fun j (hj : j < n) => h j (by omega)
    by_cases hbit : b.testBit n = true
    · have hrest : b ^^^ 2 ^ n < 2 ^ n := Nat.lt_pow_two_of_testBit _ fun i hi => by
        rw [Nat.testBit_xor, Nat.testBit_two_pow]
        by_cases hin : i = n
        · simp [hin, hbit]
        · rw [Nat.testBit_lt_two_pow (lt_of_lt_of_le hb (Nat.pow_le_pow_right (by omega) (by omega)))]
          simp [Ne.symm hin]
      rw [← Nat.xor_xor_cancel_right b (2 ^ n), hf, hg, ih hlow hrest, h n (by omega)]
    · exact ih hlow (Nat.lt_pow_two_of_testBit _ fun i hi => by
        by_cases hin : i = n
        · rw [hin]
          exact Bool.eq_false_iff.2 hbit
        · exact Nat.testBit_lt_two_pow (lt_of_lt_of_le hb (Nat.pow_le_pow_right (by omega) (by omega))))

theorem scrTimesZ_eq (p : Nat) : scrTimesZ p = 2 * p ^^^ (if p.testBit 57 then 2 ^ 58 ^^^ 0x80001 else 0) := by
  unfold scrTimesZ
  split
  next h =>
    have hsub : 2 * p - 2 ^ 58 = 2 * p ^^^ 2 ^ 58 := by
      have hbit : (2 * p).testBit 58 = true := by
        rw [show 58 = 57 + 1 from rfl, Nat.testBit_succ, Nat.mul_div_cancel_left _ (by omega)]
        exact h
      have hclear : withBit (2 * p) 58 false = 2 * p - 2 ^ 58 := if_pos hbit
      rw [← hclear]
      refine Nat.eq_of_testBit_eq fun j => ?_
      rw [testBit_withBit, Nat.testBit_xor, Nat.testBit_two_pow]
      by_cases hj : j = 58
      · simp [hj, hbit]
      · simp [hj, Ne.symm hj]
    rw [hsub, Nat.xor_assoc]
  next => rw [Nat.xor_zero]

theorem additive_scrTimesZ : Additive scrTimesZ := by
  intro a b
  have hdouble : 2 * (a ^^^ b) = 2 * a ^^^ 2 * b := by
    refine Nat.eq_of_testBit_eq fun j => ?_
    cases j with
    | zero => simp
    | succ j =>
      rw [Nat.testBit_xor]
      simp only [Nat.testBit_xor, Nat.testBit_succ, Nat.mul_div_cancel_left _ (show 0 < 2 by decide)]
  rw [scrTimesZ_eq, scrTimesZ_eq a, scrTimesZ_eq b, xor_four, hdouble, Nat.testBit_xor]
  congr 1
  cases a.testBit 57 <;> cases b.testBit 57 <;> simp

theorem scrTimesZ_lt {p : Nat} (h : p < 2 ^ 58) : scrTimesZ p < 2 ^ 58 := by
  unfold scrTimesZ
  split
  · exact Nat.xor_lt_two_pow (by omega) (by decide)
  next hno =>
    have : p < 2 ^ 57 := Nat.lt_pow_two_of_testBit _ fun i hi => by
      by_cases h57 : i = 57
      · rw [h57]
        exact Bool.eq_false_iff.2 hno
      · exact Nat.testBit_lt_two_pow (lt_of_lt_of_le h (Nat.pow_le_pow_right (by omega) (by omega)))
    omega

theorem iterate_scrTimesZ_lt {p : Nat} (h : p < 2 ^ 58) (n : Nat) : scrTimesZ^[n] p < 2 ^ 58 := by
  induction n with
  | zero => exact h
  | succ n ih =>
    rw [Function.iterate_succ_apply']
    exact scrTimesZ_lt ih

theorem scrTimesZ_two_pow {j : Nat} (h : j < 57) : scrTimesZ (2 ^ j) = 2 ^ (j + 1) := by
  rw [scrTimesZ, Nat.testBit_two_pow, if_neg (by simp; omega), Nat.pow_succ']

theorem iterate_scrTimesZ_one {j : Nat} (h : j < 58) : scrTimesZ^[j] 1 = 2 ^ j := by
  induction j with
  | zero => rfl
  | succ j ih => rw [Function.iterate_succ_apply', ih (by omega), scrTimesZ_two_pow (by omega)]

/-- z^58 = z^19 + 1 (R422). -/
theorem iterate_scrTimesZ_58 {p : Nat} (h : p < 2 ^ 58) : scrTimesZ^[58] p = scrTimesZ^[19] p ^^^ p := by
  refine Additive.ext (additive_scrTimesZ.iterate 58) ((additive_scrTimesZ.iterate 19).xor (g := fun a => a) fun _ _ => rfl) (fun j hj => ?_) h
  have hone : scrTimesZ^[58] 1 = scrTimesZ^[19] 1 ^^^ 1 := by
    rw [Function.iterate_succ_apply', iterate_scrTimesZ_one (by omega), iterate_scrTimesZ_one (by omega)]
    decide
  rw [← iterate_scrTimesZ_one hj, ← Function.iterate_add_apply, Nat.add_comm, Function.iterate_add_apply, hone, additive_scrTimesZ.iterate,
    ← Function.iterate_add_apply, ← Function.iterate_add_apply, Nat.add_comm]

/-- The sums of Horner's rule for the product of `a` and `b`. -/
def hornerSum (a b n : Nat) : Nat :=
  (List.range n).foldl (fun r i => if b.testBit (57 - i) then scrTimesZ r ^^^ a else scrTimesZ r) 0

theorem hornerSum_succ (a b n : Nat) : hornerSum a b (n + 1) = scrTimesZ (hornerSum a b n) ^^^ (if b.testBit (57 - n) then a else 0) := by
  rw [hornerSum, List.range_succ, List.foldl_append, List.foldl_cons, List.foldl_nil, ← hornerSum]
  split
  · rfl
  · rw [Nat.xor_zero]

theorem additive_hornerSum (a n : Nat) : Additive fun b => hornerSum a b n := by
  induction n with
  | zero => exact fun _ _ => (Nat.xor_self 0).symm
  | succ n ih =>
    intro b c
    have hih : hornerSum a (b ^^^ c) n = hornerSum a b n ^^^ hornerSum a c n := ih b c
    dsimp only
    rw [hornerSum_succ, hornerSum_succ, hornerSum_succ, hih, additive_scrTimesZ, xor_four, Nat.testBit_xor]
    congr 1
    cases b.testBit (57 - n) <;> cases c.testBit (57 - n) <;> simp

theorem hornerSum_two_pow (a : Nat) {j n : Nat} (hj : j < 58) (hn : n ≤ 58) :
    hornerSum a (2 ^ j) n = if n + j < 58 then 0 else scrTimesZ^[n + j - 58] a := by
  induction n with
  | zero => rw [if_pos (by omega)]; rfl
  | succ n ih =>
    rw [hornerSum_succ, ih (by omega), Nat.testBit_two_pow]
    by_cases hlt : n + 1 + j < 58
    · rw [if_pos (by omega), if_pos hlt, if_neg (by simp; omega), additive_scrTimesZ.map_zero, Nat.xor_zero]
    · by_cases heq : n + 1 + j = 58
      · rw [if_pos (by omega), if_neg hlt, if_pos (by simp; omega), additive_scrTimesZ.map_zero, Nat.zero_xor, heq]
        rfl
      · rw [if_neg (by omega), if_neg hlt, if_neg (by simp; omega), Nat.xor_zero, show n + 1 + j - 58 = n + j - 58 + 1 by omega,
          Function.iterate_succ_apply']

theorem scrMul_two_pow (a : Nat) {j : Nat} (hj : j < 58) : scrMul a (2 ^ j) = scrTimesZ^[j] a :=
  (hornerSum_two_pow a hj le_rfl).trans (by rw [if_neg (by omega), Nat.add_sub_cancel_left])

theorem additive_scrMul (a : Nat) : Additive (scrMul a) := additive_hornerSum a 58

theorem scrMul_scrTimesZ {a b : Nat} (ha : a < 2 ^ 58) (hb : b < 2 ^ 58) : scrMul a (scrTimesZ b) = scrTimesZ (scrMul a b) := by
  refine Additive.ext ((additive_scrMul a).comp additive_scrTimesZ) (additive_scrTimesZ.comp (additive_scrMul a)) (fun j hj => ?_) hb
  rw [scrMul_two_pow a hj, ← Function.iterate_succ_apply' scrTimesZ]
  by_cases hlast : j = 57
  · subst hlast
    rw [show scrTimesZ (2 ^ 57) = 2 ^ 19 ^^^ 2 ^ 0 by decide, additive_scrMul, scrMul_two_pow a (by omega), scrMul_two_pow a (by omega)]
    exact (iterate_scrTimesZ_58 ha).symm
  · rw [scrTimesZ_two_pow (by omega), scrMul_two_pow a (by omega)]

theorem scrMul_power {a : Nat} (ha : a < 2 ^ 58) (m : Nat) : scrMul a (scrTimesZ^[m] 1) = scrTimesZ^[m] a := by
  induction m with
  | zero => exact scrMul_two_pow a (j := 0) (by omega)
  | succ m ih =>
    rw [Function.iterate_succ_apply', scrMul_scrTimesZ ha (iterate_scrTimesZ_lt (by decide) m), ih, ← Function.iterate_succ_apply' scrTimesZ]

/-- The power of z is z times itself. -/
theorem scrPower_eq {f k : Nat} (hk : k < 2 ^ f) : scrPower f k = scrTimesZ^[k] 1 := by
  induction f generalizing k with
  | zero =>
    obtain rfl : k = 0 := by simpa using hk
    rfl
  | succ f ih =>
    unfold scrPower
    split
    next h0 => rw [h0]; rfl
    next =>
      dsimp only
      have hsquare : scrMul (scrPower f (k / 2)) (scrPower f (k / 2)) = scrTimesZ^[k / 2 + k / 2] 1 := by
        rw [ih (by omega), scrMul_power (iterate_scrTimesZ_lt (by decide) _), ← Function.iterate_add_apply]
      rw [hsquare]
      split
      · rw [← Function.iterate_succ_apply' scrTimesZ, show (k / 2 + k / 2).succ = k by omega]
      · rw [show k / 2 + k / 2 = k by omega]

theorem oddOnes_xor (a b : Nat) : oddOnes (a ^^^ b) = (oddOnes a ^^ oddOnes b) := by
  have hfold : ∀ (l : List Nat) (c d : Bool), l.foldl (fun x i => x ^^ (a ^^^ b).testBit i) (c ^^ d) =
      (l.foldl (fun x i => x ^^ a.testBit i) c ^^ l.foldl (fun x i => x ^^ b.testBit i) d) := by
    intro l
    induction l with
    | nil => exact fun _ _ => rfl
    | cons i l ih =>
      intro c d
      rw [List.foldl_cons, List.foldl_cons, List.foldl_cons, Nat.testBit_xor, ← ih]
      congr 1
      simp only [Bool.xor_assoc, Bool.xor_left_comm]
  exact hfold (List.range 58) false false

theorem oddOnes_and_two_pow (seed : Nat) {i : Nat} (hi : i < 58) : oddOnes (2 ^ i &&& seed) = seed.testBit i := by
  have hfold : ∀ n, (List.range n).foldl (fun x j => x ^^ (2 ^ i &&& seed).testBit j) false = (decide (i < n) && seed.testBit i) := by
    intro n
    induction n with
    | zero => rfl
    | succ n ih =>
      rw [List.range_succ, List.foldl_append, ih, List.foldl_cons, List.foldl_nil, Nat.testBit_and, Nat.testBit_two_pow]
      by_cases h : i = n
      · simp [h]
      · simp [h, show (i < n + 1) = (i < n) from propext ⟨fun _ => by omega, fun _ => by omega⟩]
  rw [oddOnes, hfold]
  simp [hi]

theorem getD_scrRun (seed n p : Nat) {i : Nat} (hi : i < n) : (scrRun seed n p).getD i false = oddOnes (scrTimesZ^[i] p &&& seed) := by
  induction n generalizing p i with
  | zero => omega
  | succ n ih =>
    cases i with
    | zero => rw [scrRun, List.getD_cons_zero, Function.iterate_zero_apply]
    | succ i =>
      rw [scrRun, List.getD_cons_succ, ih _ (by omega)]
      rfl

theorem scrRun_add (seed n m p : Nat) : scrRun seed (n + m) p = scrRun seed n p ++ scrRun seed m (scrTimesZ^[n] p) := by
  induction n generalizing p with
  | zero => rw [Nat.zero_add]; rfl
  | succ n ih =>
    rw [Nat.add_right_comm, scrRun, ih, scrRun, List.cons_append]
    rfl

/-- Settles O14: the scrambler's sequence is the powers of z, in which z^58 = z^19 + 1; pilot blocks are followed by their data symbols' places. -/
theorem laneCoding : Obligations.LaneCoding := by
  refine ⟨fun l h => grayBits_grayLevels h, by decide, fun l key h => scrambled_scrambled h, fun pilot l hp => ⟨?_, fun d hd => ?_, fun k j hk hj => ?_⟩,
    fun w => ⟨length_codeSymbols w, rfl, length_codewordBits w⟩, fun lane dir => ?_, fun seed n i hi => ?_, fun seed i hi => ?_, fun seed k n m hlt => ?_⟩
  · exact noPilots_withPilots hp l 0
  · simpa [laneSymbol, dataSymbol] using getD_withPilots_data hp l (e := 0) hd
  · simpa [laneSymbol] using getD_withPilots_pilot hp l (e := 0) (Nat.zero_le _) (by rwa [Nat.zero_add]) hj
  · rw [laneSeed]
    have := Nat.mod_lt (Config.laneSeed lane dir) (show 0 < 2 ^ 58 - 1 by decide)
    omega
  · have hzero : scrPower 64 0 = 1 := rfl
    rw [scrambler, hzero, getD_scrRun _ _ _ hi, getD_scrRun _ _ _ (by omega), getD_scrRun _ _ _ (by omega), Nat.add_comm i 58, Nat.add_comm i 19,
      Function.iterate_add_apply, Function.iterate_add_apply, iterate_scrTimesZ_58 (iterate_scrTimesZ_lt (by decide) i), Nat.and_xor_distrib_right,
      oddOnes_xor]
  · rw [scrambler, show scrPower 64 0 = 1 from rfl, getD_scrRun _ _ _ hi, iterate_scrTimesZ_one hi, oddOnes_and_two_pow seed hi]
  · rw [scrambler, scrambler, scrambler, scrRun_add, scrPower_eq (show k < 2 ^ 64 by omega), scrPower_eq hlt, Nat.add_comm k n,
      Function.iterate_add_apply]

end Sys2Proof.Machine
end

