-- ==== Sys2Proof/Proofs/SolverEpochs.lean ====
section
/-!
Solver epochs of a local carrier (R300 to R303).
-/

namespace Sys2Proof.Machine

open Sys2Proof

theorem State.gramsForward_of_local {s : State} {c : Nat} (h : (s.form c).joint = false) : s.gramsForward c = s := by
  unfold State.gramsForward
  split
  · rfl
  · rw [h]
    rfl

section

variable {s : State} {c : Nat}

theorem State.epochStart_of_none (h : s.running c = false ∨ s.get (Reg.SOLVER.EPOCH_CTL.period c) = 0 ∨ (s.form c).mode = modeBeamId) :
    s.epochStart c = s := by
  unfold State.epochStart
  refine if_pos ?_
  rcases h with h | h | h <;> simp [h]

theorem State.epochStart_of_due {n : Nat}
    (hn : n = (s.form c).slotOf ((s.form c).symbolAt (s.arrayNow + ticksOfUs (s.get (Reg.SOLVER.EPOCH_CTL.lead c)))))
    (hrun : s.running c = true) (hp : s.get (Reg.SOLVER.EPOCH_CTL.period c) ≠ 0) (hmod : n % s.get (Reg.SOLVER.EPOCH_CTL.period c) = 0)
    (hlast : s.beam.lastEpoch.getD c none ≠ some n) (hmode : (s.form c).mode ≠ modeBeamId)
    (hahead : s.arrayNow < (s.form c).boundary (n * (s.form c).symbols)) (hshed : s.shedBit shedEpoch c = false) :
    ∃ x, x = ({ s with beam := { s.beam with lastEpoch := s.beam.lastEpoch.set c (some n) } } : State) ∧
      ((s.beam.epochs.getD c none).isSome = true → s.epochStart c = x.epochLate c n) ∧
      (c < s.beam.epochs.length → s.beam.epochs.getD c none = none → (s.car c).setLeft = 0 →
        ∃ regs beam e, s.epochStart c = State.putBit { s with regs := regs, beam := beam } Reg.SOLVER.STATUS.running c true ∧
          beam.epochs.getD c none = some e ∧ e.slot = n ∧ e.ready = false ∧ e.start = s.arrayNow) := by
  refine ⟨_, rfl, fun hsome => ?_, fun hc hnone hleft => ?_⟩
  all_goals
    obtain ⟨u, hu⟩ : ∃ u, u = s.epochStart c := ⟨_, rfl⟩
    rw [← hu]
    unfold State.epochStart at hu
    extract_lets r p lead n' b0 s1 x due map split s2 b2 s3 syms useDl useUl sound area s4 sources y rows tags dlH ulH s5 e b5 s6 s7 at hu
    have hn' : n' = n := hn.symm
    clear_value n'
    subst hn'
    rw [if_neg (by
      have hlast' : (s.beam.lastEpoch.getD c none == some n') = false := beq_eq_false_iff_ne.2 hlast
      rw [hlast']
      simpa [r, p, hrun, hp, hmod, hmode] using hahead)] at hu
    rw [if_neg (by rw [show s1.shedBit shedEpoch c = false from hshed]; exact Bool.false_ne_true)] at hu
  · rw [if_pos (by rw [show s1.beam.epochs = s.beam.epochs from rfl, hsome]; rfl)] at hu
    exact hu
  · rw [if_neg (by
      rw [show s1.beam.epochs = s.beam.epochs from rfl, hnone, show (s1.car c).setLeft = 0 from hleft]
      exact Bool.false_ne_true)] at hu
    obtain ⟨regs4, h4⟩ : ∃ regs, s4 = { s3 with regs := regs } := by
      simp only [s4]
      split <;> exact ⟨_, rfl⟩
    obtain ⟨regs7, h7⟩ : ∃ regs, s7 = { s6 with regs := regs } := by
      simp only [s7]
      generalize area = a
      cases a with
      | none => exact ⟨_, rfl⟩
      | some a => exact ⟨_, rfl⟩
    have hstate : s7 = { s with regs := regs7, beam := s6.beam } := by
      rw [h7]
      simp only [s6, s5, h4]
      rfl
    rw [hstate] at hu
    have hlen : c < s5.beam.epochs.length := by
      simp only [s5, h4]
      exact hc
    exact ⟨_, _, e, hu, by simp [s6, List.getD, hlen], rfl, rfl, by simp [e, s5, h4]; rfl⟩

end

/-- A bit that is put is there. -/
theorem State.testBit_putBit (s : State) {f : Fld} (hf : f.fits = true) {i : Nat} (hi : i < f.width) (b : Bool) :
    ((s.putBit f i b).get f).testBit i = b := by
  rw [State.putBit, State.get_put_same _ hf, Nat.testBit_mod_two_pow, testBit_withBit, if_pos rfl, decide_eq_true hi, Bool.true_and]

section

variable {s : State} {c : Nat}

/-- A late epoch is given up and counted (R303). -/
theorem State.epochLate_spec (n : Nat) (hc : c < s.beam.epochs.length) (h8 : c < 8) :
    (s.epochLate c n).beam.epochs.getD c none = none ∧ (s.epochLate c n).get Reg.SOLVER.STATUS.late = 1 ∧
      (s.epochLate c n).get (Reg.SOLVER.LATE_EPOCH.word c) = (s.get (Reg.SOLVER.LATE_EPOCH.word c) + 1) % 2 ^ 32 ∧
      (s.epochLate c n).carriers = s.carriers := by
  unfold State.epochLate
  extract_lets s1 s2 b s3
  obtain ⟨_, _, _, _, _, h⟩ := logApart_record s3 { kind := .event, unit := unitSolver, inst := c, detail := n % 2 ^ 32 }
  refine ⟨?_, ?_, ?_, State.carriers_record ..⟩
  · rw [h]
    show (s.beam.epochs.set c none).getD c none = none
    simp [List.getD, hc]
  · rw [(sameOff_record _ _).get (by simp [recordWords]), State.get_of_regs (s := s2) (u := s3) rfl, State.get_put_elsewhere _ (by dsimp only; omega),
      State.putBit, State.get_put_apart _ rfl (by decide), State.get_put_same _ rfl]
    rfl
  · rw [(sameOff_record _ _).get (by simp [recordWords]; omega), State.get_of_regs (s := s2) (u := s3) rfl, State.get_put_elsewhere _ (by dsimp only; omega),
      State.putBit, State.get_put_elsewhere _ (by dsimp only; omega), State.get_put_elsewhere _ (by dsimp only; omega), State.get_bump_same _ rfl]

theorem mem_insertCommit (x : Commit) (l : List Commit) : x ∈ insertCommit x l := by
  induction l with
  | nil => exact List.mem_singleton.2 rfl
  | cons y l ih =>
    rw [insertCommit]
    split
    · exact List.mem_cons_self
    · exact List.mem_cons_of_mem _ ih

theorem State.writeIdleSet_shape (s : State) (c : Nat) (e : Epoch) : ∃ regs sets recov, s.writeIdleSet c e =
    { s with regs := regs, beam := { s.beam with sets := sets }, recov := recov } := by
  unfold State.writeIdleSet
  dsimp only
  split
  · exact ⟨_, _, _, rfl⟩
  · exact ⟨_, _, _, rfl⟩

theorem State.epochDone_of_local (s : State) {c : Nat} {e : Epoch} (hjoint : (s.form c).joint = false) (he : s.beam.epochs.getD c none = some e) :
    s.epochDone c =
      if e.ready = true then s
      else if (s.form c).boundary (e.slot * (s.form c).symbols) < s.arrayNow + ticksOfUs 2 then s.epochLate c e.slot
      else s.epochSolved c ((s.form c).boundary (e.slot * (s.form c).symbols)) { e with inverses := s.solveAll c e.grams } := by
  rw [State.epochDone, he]
  dsimp only
  rw [hjoint, if_neg Bool.false_ne_true]

/-- A solved epoch of a local carrier asks for its switch (R303). -/
theorem State.epochSolved_of_local (hjoint : (s.form c).joint = false) (a : Nat) (e : Epoch) (hc : c < s.beam.epochs.length) (h8 : c < 8) :
    (s.epochSolved c a e).beam.epochs.getD c none = some { e with ready := true } ∧
      (∃ x ∈ (s.epochSolved c a e).txn.commits, x.time = a ∧ x.effects = [.weights c (1 - (s.car c).set)]) ∧
      ((s.epochSolved c a e).get Reg.SOLVER.STATUS.running).testBit c = false := by
  obtain ⟨regs, sets, recov, hw⟩ := s.writeIdleSet_shape c e
  unfold State.epochSolved
  rw [hw]
  extract_lets idle s1 s2 s3 s4
  have hj : (s4.form c).joint = false := hjoint
  rw [hj, Bool.not_false, if_pos rfl]
  refine ⟨?_, ⟨_, mem_insertCommit _ _, rfl, rfl⟩, ?_⟩
  · show (s.beam.epochs.set c (some { e with ready := true })).getD c none = _
    simp [List.getD, hc]
  · rw [State.get_of_regs (s := s3) (u := s4.internalAt a [.weights c idle]) rfl, State.get_put_elsewhere _ (by dsimp only; omega)]
    exact State.testBit_putBit _ rfl h8 false

end

/-- Settles O11: an epoch's start and end, by the branches of each and what they leave of the carrier's epoch. -/
theorem solverEpochs : Obligations.SolverEpochs := by
  intro s t c hlen hlast hjoint
  have hc : c.val < s.beam.epochs.length := lt_of_lt_of_eq c.isLt hlen.symm
  have hgives {u : State} (hu : (s.atTime t).epochStart c.val = u) (hcar : u.carriers = s.carriers) : Gives (.solverEpochStart t c) s u := by
    refine Gives.of_eq rfl ?_
    rw [hu]
    refine State.gramsForward_of_local ?_
    rw [State.form, State.form?, State.car, hcar]
    exact hjoint
  refine ⟨fun h => hgives (State.epochStart_of_none h) rfl, fun n hn hrun hp hmod hl hmode hahead hshed => ?_, fun hnone => ?_, fun e he => ⟨fun hr => ?_,
    fun hr => ⟨fun hlate => ?_, fun htime => ?_⟩⟩⟩
  · obtain ⟨x, hx, hlate, hon⟩ := State.epochStart_of_due (s := s.atTime t) hn hrun hp hmod hl hmode hahead hshed
    refine ⟨fun hsome => ?_, fun hnone hleft => ?_⟩
    · obtain ⟨h1, h2, h3, h4⟩ := State.epochLate_spec (s := x) n (by rw [hx]; exact hc) c.isLt
      rw [hx] at h3 h4
      refine ⟨_, hgives (hlate hsome) ?_, h1, h2, ?_⟩
      · rw [hx, h4]
        rfl
      · rw [hx, h3]
        rfl
    · obtain ⟨regs, beam, e, hu, he, hslot, hready, hstart⟩ := hon hc hnone hleft
      refine ⟨_, e, hgives hu rfl, he, hslot, hready, hstart, State.testBit_putBit _ rfl c.isLt true⟩
  · refine Gives.of_eq rfl ?_
    rw [State.epochDone, show (s.atTime t).beam.epochs.getD c.val none = none from hnone]
  all_goals
    have hdone := (s.atTime t).epochDone_of_local hjoint he
  · exact Gives.of_eq rfl (hdone.trans (if_pos hr))
  · exact Gives.of_eq rfl (hdone.trans ((if_neg (by rw [hr]; exact Bool.false_ne_true)).trans (if_pos hlate)))
  · obtain ⟨h1, h2, h3⟩ := State.epochSolved_of_local (s := s.atTime t) hjoint ((s.form c.val).boundary (e.slot * (s.form c.val).symbols))
      { e with inverses := (s.atTime t).solveAll c.val e.grams } hc c.isLt
    exact ⟨_, _, Gives.of_eq rfl (hdone.trans ((if_neg (by rw [hr]; exact Bool.false_ne_true)).trans (if_neg (Nat.not_lt.2 htime)))), h1, rfl, h2, h3⟩

end Sys2Proof.Machine
end

