-- ==== Sys2Proof/Proofs/TxnDecisions.lean ====
section
/-!
Decisions on array-wide transactions, queries, holds and the latch (R512, R523, R525 to R528).
-/

namespace Sys2Proof.Machine

open Sys2Proof

/-! ### Messages leave transactions as they were -/

section

variable {k : Nat} {s u : State}

theorem Sends.mono {l : Nat} (h : Sends k s u) (hkl : k ≤ l) : Sends l s u :=
  ⟨h.shape, h.words.mono fun _ ⟨i, hi, ha⟩ => ⟨i, lt_of_lt_of_le hi hkl, ha⟩⟩

theorem Sends.keepsTxn (h : Sends k s u) : KeepsTxn s u := by
  obtain ⟨_, _, _, _, rfl⟩ := h.shape
  exact ⟨rfl, rfl, rfl⟩

theorem Sends.now (h : Sends k s u) : u.now = s.now := by
  obtain ⟨_, _, _, _, rfl⟩ := h.shape
  rfl

theorem Sends.clock (h : Sends k s u) : u.clock = s.clock := by
  obtain ⟨_, _, _, _, rfl⟩ := h.shape
  rfl

theorem Sends.timers (h : Sends k s u) : u.timers = s.timers := by
  obtain ⟨_, _, _, _, rfl⟩ := h.shape
  rfl

theorem Sends.mem (h : Sends k s u) : u.mem = s.mem := by
  obtain ⟨_, _, _, _, rfl⟩ := h.shape
  rfl

theorem Sends.arrayNow (h : Sends k s u) : u.arrayNow = s.arrayNow := by rw [State.arrayNow, State.arrayNow, h.clock, h.now]

/-- Messages on any ports are messages. -/
theorem sends_forEach_sendOn (s : State) (l : List Nat) (m : StairMsg) : ∃ k, 16 ≤ k ∧ Sends k s (s.forEach l fun p s => s.sendOn p m) := by
  induction l generalizing s with
  | nil => exact ⟨16, le_rfl, .refl s⟩
  | cons p l ih =>
    obtain ⟨k, hk, hrest⟩ := ih (s.sendOn p m)
    exact ⟨max k (4 * p + 4), le_trans hk (le_max_left ..), ((sends_sendOn s le_rfl m).mono (le_max_right ..)).trans (hrest.mono (le_max_left ..))⟩

end

/-! ### Decisions -/

theorem State.slotOf_some {s : State} {id n : Nat} (h : s.slotOf id = some n) : n < s.txn.slots.length ∧ (s.slot n).id = id := by
  have hfind := List.find?_some h
  rw [Bool.and_eq_true, Bool.and_eq_true, beq_iff_eq] at hfind
  exact ⟨List.mem_range.1 (List.mem_of_find?_eq_some h), hfind.2⟩

theorem State.slotOf_of_slots {s u : State} (h : u.txn.slots = s.txn.slots) (id : Nat) : u.slotOf id = s.slotOf id := by
  unfold State.slotOf State.slot
  rw [h]

theorem State.decided_of_none {s : State} {id : Nat} (h : s.slotOf id = none) (commit : Bool) (cause landing : Nat) :
    s.decided id commit cause landing = s.sendDown (.txn (.decision id commit cause landing)) := by
  unfold State.decided
  dsimp only
  rw [State.slotOf_of_slots (congrArg TxnState.slots (keepsTxn_sendDown s _).txn), h]

/-- A decision on a transaction that the landing holds goes on its way, and meets the slot (R525, R526). -/
theorem State.decided_of_some {s : State} {id n : Nat} (h : s.slotOf id = some n) (commit : Bool) (cause landing : Nat) :
    ∃ k v, Sends k s v ∧ s.decided id commit cause landing =
      if (s.slot n).final || (s.slot n).verdict.isSome then v.modSlot n fun y => { y with queries := [] }
      else if (s.slot n).inDoubt then
        ((v.modSlot n fun y => { y with queries := [] }).modSlot n fun y => { y with verdict := some (commit, cause, landing, s.inOneMs) }).disarm
          (.query n)
      else (v.modSlot n fun y => { y with queries := [] }).decideSlot n commit cause landing := by
  obtain ⟨k, hk, hsends⟩ := sends_forEach_sendOn (s.sendDown (.txn (.decision id commit cause landing)))
    ((s.slot n).queries.filter fun p => !(s.sendDown (.txn (.decision id commit cause landing))).childPorts.contains p)
    (.txn (.decision id commit cause landing))
  have hall := ((sends_sendDown s (.txn (.decision id commit cause landing))).mono hk).trans hsends
  refine ⟨k, _, hall, ?_⟩
  unfold State.decided
  dsimp only
  rw [State.slotOf_of_slots (congrArg TxnState.slots (keepsTxn_sendDown s _).txn), h]
  dsimp only
  rw [slot_of_keepsTxn (keepsTxn_sendDown s _)]
  generalize State.forEach _ ((s.slot n).queries.filter _) _ = v at hall ⊢
  have hms : (v.modSlot n fun y => { y with queries := [] }).inOneMs = s.inOneMs := by
    rw [State.inOneMs, State.inOneMs, ← hall.arrayNow]
    rfl
  rw [hms]

section

variable {s : State} {n : Nat}

theorem State.wakeWaiters_txn (s : State) (n : Nat) :
    (s.wakeWaiters n).txn = { s.txn with slots := s.txn.slots.modify n fun x => { x with waiters := [] } } := by
  obtain ⟨c, -, heq⟩ := s.wakeWaiters_eq n
  rw [heq]
  rfl

/-- A slot that a decision ends, and the outcome that the landing keeps of it (R525). -/
theorem State.decideSlot_commit (hn : n < s.txn.slots.length) (h20 : n < 20) (hno : (s.slot n).aborters = []) (cause landing : Nat) :
    ((s.decideSlot n true cause landing).slot n).state = txCommitted ∧ ((s.decideSlot n true cause landing).slot n).waiters = [] ∧
      (s.decideSlot n true cause landing).txn.outcomes.head? = some ((s.slot n).id, txCommitted) := by
  obtain ⟨w, hw, hlen, hstate, hout⟩ : ∃ w : State, s.decideSlot n true cause landing = w.wakeWaiters n ∧ n < w.txn.slots.length ∧
      (w.slot n).state = (if (s.slot n).aborters.isEmpty then txCommitted else txTooLate) ∧
      w.txn.outcomes = ((s.slot n).id, txCommitted) :: s.txn.outcomes.take 3 :=
    ⟨_, if_pos h20, lt_of_lt_of_eq hn (List.length_modify ..).symm,
      congrArg TxnSlot.state (State.slot_modSlot_same (s := { s.keepOutcome (s.slot n).id true with txn := _ }) hn _), rfl⟩
  rw [hw, State.slot_wakeWaiters_same hlen, State.wakeWaiters_txn, hout]
  exact ⟨hstate.trans (by rw [hno]; rfl), rfl, rfl⟩

theorem State.decideSlot_abort (hn : n < s.txn.slots.length) (h20 : n < 20) (cause landing : Nat) :
    ((s.decideSlot n false cause landing).slot n).state = txAborted ∧ ((s.decideSlot n false cause landing).slot n).waiters = [] ∧
      (s.decideSlot n false cause landing).txn.outcomes.head? = some ((s.slot n).id, txAborted) ∧
      ((s.decideSlot n false cause landing).slot n).cause = (if landing = 0xFFFF then cause else causePeer) ∧
      ((s.decideSlot n false cause landing).slot n).staged = [] ∧
      ∀ y ∈ (s.decideSlot n false cause landing).txn.commits, y.id = (s.slot n).id → y.latched = true := by
  obtain ⟨v, hv, hlen, hout, hcommits⟩ : ∃ v : State, v = ((s.keepOutcome (s.slot n).id false).modSlot n fun x =>
      { x with
        peerCause := if landing != 0xFFFF then cause else 0
        peer := if landing != 0xFFFF then landing else 0x1FF }).dropCommit (s.slot n).id ∧ n < v.txn.slots.length ∧
      v.txn.outcomes = ((s.slot n).id, txAborted) :: s.txn.outcomes.take 3 ∧ ∀ y ∈ v.txn.commits, y.id = (s.slot n).id → y.latched = true := by
    refine ⟨_, rfl, lt_of_lt_of_eq hn (List.length_modify ..).symm, rfl, fun y hy hid => ?_⟩
    have := (List.mem_filter.1 hy).2
    simpa [hid] using this
  obtain ⟨w, hw, hslot⟩ : ∃ w : State, s.decideSlot n false cause landing = w.wakeWaiters n ∧ w = (v.disarm (.livePrepare n)).modSlot n fun x =>
      { x with
        state := txAborted
        cause := if landing != 0xFFFF then causePeer else cause
        staged := []
        live := none
        preparing := false
        abortPending := false } := ⟨_, if_pos h20, by rw [hv]; rfl⟩
  rw [hw, State.slot_wakeWaiters_same (by rw [hslot]; exact lt_of_lt_of_eq hlen (List.length_modify ..).symm), State.wakeWaiters_txn, hslot,
    State.slot_modSlot_same (s := v.disarm (.livePrepare n)) hlen]
  refine ⟨rfl, rfl, ?_, ?_, rfl, hcommits⟩
  · exact congrArg List.head? hout
  · by_cases h : landing = 0xFFFF
    · rw [if_pos h, h]
      rfl
    · rw [if_neg h, bne_iff_ne.2 h]
      rfl

end

/-! ### The latch and its doubts (R512, R527) -/

/-- A transaction of the array that is prepared, and due without a decision. -/
def TxnSlot.undecided (x : TxnSlot) (a : Nat) : Bool := x.array && x.state == txPrepared && !x.inDoubt && decide (x.time ≤ a + ticksOfUs 1)

/-- What `doubtDue` makes of one slot. -/
def State.doubt (s : State) (n : Nat) : State :=
  if (s.slot n).undecided s.arrayNow then
    let u := (s.dropCommit (s.slot n).id).modSlot n fun x => { x with inDoubt := true }
    let f := u.firstHeld (s.slot n).time
    let u := u.sendUp (.txn (.hold (s.slot n).id true f.1 (f.2 % 65536)))
    (u.sendUp (.txn (.query (s.slot n).id u.landing))).arm (.query n) (u.now + ticksOfUs 100)
  else s

theorem State.doubtDue_eq (s : State) : s.doubtDue = s.forEach (List.range s.txn.slots.length) fun n s => s.doubt n := rfl

theorem State.doubt_of_undecided {s : State} {n : Nat} (h : (s.slot n).undecided s.arrayNow = true) :
    ∃ v, Sends 16 ((s.dropCommit (s.slot n).id).modSlot n fun x => { x with inDoubt := true }) v ∧
      s.doubt n = v.arm (.query n) (s.now + ticksOfUs 100) := by
  rw [State.doubt, if_pos h]
  extract_lets u f v
  have hv : Sends 16 u v := sends_sendUp u _
  refine ⟨v.sendUp (.txn (.query (s.slot n).id v.landing)), hv.trans (sends_sendUp v _), ?_⟩
  rw [hv.now]
  rfl

theorem State.doubt_of_decided {s : State} {n : Nat} (h : (s.slot n).undecided s.arrayNow = false) : s.doubt n = s := if_neg (by rw [h]; exact Bool.false_ne_true)

theorem TxnSlot.undecided_iff (x : TxnSlot) (a : Nat) :
    x.undecided a = true ↔ x.array = true ∧ x.state = txPrepared ∧ x.inDoubt = false ∧ x.time ≤ a + ticksOfUs 1 := by
  simp [TxnSlot.undecided, and_assoc]

theorem State.dueAt_arm_other {s : State} {x y : Timer} (h : y ≠ x) (t : Nat) : (s.arm x t).dueAt y = s.dueAt y := by
  have hfind : (s.timers.filter fun e => !decide (e.1 = x)).find? (fun e => decide (e.1 = y)) = s.timers.find? fun e => decide (e.1 = y) := by
    rw [List.find?_filter]
    congr 1
    funext e
    by_cases he : e.1 = y
    · simp [he, h]
    · simp [he]
  simp [State.dueAt, State.arm, State.disarm, List.find?_append, hfind, Ne.symm h]

/-- What one member of a list brings about, and the others keep, holds after all of them. -/
theorem State.forEach_reaches {α : Type} {A B : State → Prop} {f : α → State → State} {a : α} {l : List α} {s : State} (ha : a ∈ l) (hs : A s)
    (hother : ∀ b, b ≠ a → ∀ x, A x → A (f b x)) (hreach : ∀ x, A x → B (f a x)) (hkeep : ∀ b x, B x → B (f b x)) : B (s.forEach l f) := by
  induction l generalizing s with
  | nil => cases ha
  | cons b l ih =>
    rw [State.forEach, List.foldl_cons, ← State.forEach]
    by_cases hb : b = a
    · exact State.forEach_induct (hb ▸ hreach s hs) fun c _ x hx => hkeep c x hx
    · exact ih ((List.mem_cons.1 ha).resolve_left (Ne.symm hb)) (hother b hb s hs)

/-- The landing is in doubt about a transaction that is due (R527). -/
theorem State.doubtDue_spec {s : State} {n : Nat} (hn : n < s.txn.slots.length) (h : (s.slot n).undecided s.arrayNow = true) :
    (s.doubtDue.slot n).state = txPrepared ∧ (s.doubtDue.slot n).inDoubt = true ∧ s.doubtDue.dueAt (.query n) = some (s.now + ticksOfUs 100) := by
  rw [State.doubtDue_eq]
  refine State.forEach_reaches (A := fun u => u.slot n = s.slot n ∧ n < u.txn.slots.length ∧ u.arrayNow = s.arrayNow ∧ u.now = s.now)
    (B := fun u => (u.slot n).state = txPrepared ∧ (u.slot n).inDoubt = true ∧ u.dueAt (.query n) = some (s.now + ticksOfUs 100))
    (List.mem_range.2 hn) ⟨rfl, hn, rfl, rfl⟩ (fun m hm x hx => ?_) (fun x hx => ?_) fun m x hx => ?_
  · obtain ⟨hslot, hlen, harray, hnow⟩ := hx
    by_cases hu : (x.slot m).undecided x.arrayNow = true
    · obtain ⟨v, hv, hd⟩ := State.doubt_of_undecided hu
      rw [hd]
      refine ⟨?_, ?_, hv.arrayNow.trans harray, hv.now.trans hnow⟩
      · rw [State.slot_arm, slot_of_keepsTxn hv.keepsTxn, State.slot_modSlot_other _ (Ne.symm hm)]
        exact hslot
      · rw [show (v.arm (.query m) (x.now + ticksOfUs 100)).txn = v.txn from rfl, hv.keepsTxn.txn]
        exact lt_of_lt_of_eq hlen (List.length_modify ..).symm
    · rw [State.doubt_of_decided (Bool.eq_false_iff.2 hu)]
      exact ⟨hslot, hlen, harray, hnow⟩
  · obtain ⟨hslot, hlen, harray, hnow⟩ := hx
    obtain ⟨v, hv, hd⟩ := State.doubt_of_undecided (s := x) (n := n) (by rw [hslot, harray]; exact h)
    rw [hd, hnow]
    have hv' : v.slot n = { x.slot n with inDoubt := true } := by
      rw [slot_of_keepsTxn hv.keepsTxn, State.slot_modSlot_same (s := x.dropCommit (x.slot n).id) hlen]
      rfl
    refine ⟨?_, ?_, State.dueAt_arm ..⟩
    · rw [State.slot_arm, hv', hslot]
      exact ((TxnSlot.undecided_iff ..).1 h).2.1
    · rw [State.slot_arm, hv']
  · obtain ⟨hstate, hdoubt, hdue⟩ := hx
    by_cases hu : (x.slot m).undecided x.arrayNow = true
    · have hm : n ≠ m := by
        rintro rfl
        exact Bool.false_ne_true (((TxnSlot.undecided_iff ..).1 hu).2.2.1.symm.trans hdoubt)
      obtain ⟨v, hv, hd⟩ := State.doubt_of_undecided hu
      rw [hd, State.slot_arm, slot_of_keepsTxn hv.keepsTxn, State.slot_modSlot_other _ hm, State.dueAt_arm_other (by simpa using hm)]
      refine ⟨hstate, hdoubt, ?_⟩
      rw [State.dueAt, hv.timers]
      exact hdue
    · rw [State.doubt_of_decided (Bool.eq_false_iff.2 hu)]
      exact ⟨hstate, hdoubt, hdue⟩

/-- The doubts leave a transaction of the landing alone, and what is latched (R512). -/
theorem State.doubtDue_keeps {s : State} {n : Nat} {c : Commit} (harray : (s.slot n).array = false) (hc : s.txn.commits = [c]) (hl : c.latched = true) :
    s.doubtDue.slot n = s.slot n ∧ s.doubtDue.txn.commits = [c] ∧ s.doubtDue.mem = s.mem ∧ SameOff (laneAdaptWords 16) s s.doubtDue := by
  rw [State.doubtDue_eq]
  refine State.forEach_induct (P := fun u => u.slot n = s.slot n ∧ u.txn.commits = [c] ∧ u.mem = s.mem ∧ SameOff (laneAdaptWords 16) s u)
    ⟨rfl, hc, rfl, .refl s⟩ fun m _ x hx => ?_
  obtain ⟨hslot, hcommits, hmem, hregs⟩ := hx
  by_cases hu : (x.slot m).undecided x.arrayNow = true
  · have hm : n ≠ m := by
      rintro rfl
      exact Bool.false_ne_true (harray.symm.trans (hslot ▸ ((TxnSlot.undecided_iff ..).1 hu).1))
    obtain ⟨v, hv, hd⟩ := State.doubt_of_undecided hu
    rw [hd]
    refine ⟨?_, ?_, hv.mem.trans hmem, hregs.trans (SameOff.trans (.of_regs rfl) (SameOff.trans hv.words (.of_regs rfl)))⟩
    · rw [State.slot_arm, slot_of_keepsTxn hv.keepsTxn, State.slot_modSlot_other _ hm]
      exact hslot
    · rw [show (v.arm (.query m) (x.now + ticksOfUs 100)).txn = v.txn from rfl, hv.keepsTxn.txn]
      show x.txn.commits.filter _ = [c]
      rw [hcommits]
      simp [hl]
  · rw [State.doubt_of_decided (Bool.eq_false_iff.2 hu)]
    exact ⟨hslot, hcommits, hmem, hregs⟩

theorem State.doubtDue_of_none {s : State} (h : ∀ y ∈ s.txn.slots, y.array = false ∨ y.state ≠ txPrepared) : s.doubtDue = s := by
  rw [State.doubtDue_eq]
  refine State.forEach_induct (P := (· = s)) rfl fun m hm x hx => ?_
  subst hx
  refine State.doubt_of_decided (Bool.eq_false_iff.2 fun hu => ?_)
  obtain ⟨h1, h2, -⟩ := (TxnSlot.undecided_iff ..).1 hu
  have hlt := List.mem_range.1 hm
  have hmem : x.slot m ∈ x.txn.slots := by
    rw [State.slot, List.getD_eq_getElem _ _ hlt]
    exact List.getElem_mem hlt
  rcases h _ hmem with h3 | h3
  · exact Bool.false_ne_true (h3.symm.trans h1)
  · exact h3 h2

/-- A prepared transaction of the landing that is due is committed (R512). -/
theorem State.latchDue_of_due {s : State} {c : Commit} {n : Nat} (hc : s.txn.commits = [c]) (hdec : c.decided = true) (hno : c.latched = false)
    (hslot : c.slot = some n) (htime : c.time ≤ s.arrayNow + ticksOfUs 1) :
    s.latchDue.txn = { ((s.put Reg.TXN.LAST_COMMIT.word c.id).latchSlot n c.id).txn with commits := [{ c with latched := true }] } ∧
      s.latchDue.regs = (s.put Reg.TXN.LAST_COMMIT.word c.id).regs ∧ s.latchDue.mem = s.mem := by
  have hdue : (s.txn.commits.filter fun x => !x.latched && x.decided && x.time ≤ s.arrayNow + ticksOfUs 1) = [c] := by
    rw [hc]
    simp [hno, hdec, htime]
  unfold State.latchDue
  dsimp only
  rw [hdue]
  simp only [State.forEach, List.foldl_cons, List.foldl_nil, hslot]
  refine ⟨?_, rfl, rfl⟩
  rw [show ((s.put Reg.TXN.LAST_COMMIT.word c.id).latchSlot n c.id).txn.commits = [c] from hc]
  simp [hslot]

theorem State.decisionTimeout_of_none {s : State} {n : Nat} (hdue : s.due (.decide n) = true)
    (h : s.txn.top.find? (fun x => x.slot == n && x.decision.isNone) = none) : s.decisionTimeout n = s.disarm (.decide n) := by
  refine (if_neg (by rw [hdue]; exact Bool.false_ne_true)).trans ?_
  dsimp only
  rw [show (s.disarm (.decide n)).txn.top.find? (fun x => x.slot == n && x.decision.isNone) = none from h]

theorem State.decisionTimeout_of_some {s : State} {n : Nat} {y : TopTxn} (hdue : s.due (.decide n) = true)
    (h : s.txn.top.find? (fun x => x.slot == n && x.decision.isNone) = some y) :
    s.decisionTimeout n = (s.disarm (.decide n)).topDecide y.id false causeTimeout 0xFFFF := by
  refine (if_neg (by rw [hdue]; exact Bool.false_ne_true)).trans ?_
  dsimp only
  rw [show (s.disarm (.decide n)).txn.top.find? (fun x => x.slot == n && x.decision.isNone) = some y from h]

theorem State.queried_of_known {s : State} {id : Nat} {y : TopTxn} {d : Bool × Nat × Nat} (hy : s.topTxn id = some y) (hd : y.decision = some d)
    (port landing : Nat) : s.queried port id landing = s.sendOn port (.txn (.decision id d.1 d.2.1 d.2.2)) := by
  unfold State.queried
  rw [hy]
  dsimp only
  rw [hd]

theorem State.queried_of_none {s : State} {id : Nat} (htop : s.topTxn id = none) (hnone : s.slotOf id = none) (port landing : Nat) :
    s.queried port id landing = match assoc? s.txn.outcomes id with
      | some o => s.sendOn port (.txn (.decision id (o == txCommitted) causeTop 0xFFFF))
      | none => s.sendUp (.txn (.query id landing)) := by
  unfold State.queried
  rw [htop, hnone]
  cases assoc? s.txn.outcomes id <;> rfl

theorem State.sPort_modSPort_same {s : State} {n : Nat} (h : n < s.stair.ports.length) (f : StairPort → StairPort) :
    (s.modSPort n f).sPort n = f (s.sPort n) := by
  simp [State.sPort, State.modSPort, h]

/-- The symbol that a HOLD names, nearest to the present one (R527). -/
def heldSymbol (here symbol : Nat) : Nat :=
  if (symbol + 65536 - here % 65536) % 65536 < 32768 then here + (symbol + 65536 - here % 65536) % 65536
  else here + (symbol + 65536 - here % 65536) % 65536 - 65536

theorem heldSymbol_mod {here symbol : Nat} (hbig : 65536 ≤ here) (hsym : symbol < 65536) : heldSymbol here symbol % 65536 = symbol := by
  unfold heldSymbol
  split <;> omega

theorem State.topForm_of_missing {s : State} (h : s.treeOf.joined.length + 1 ≠ s.landingCount) : s.topForm = s := by
  refine if_pos ?_
  rw [bne_iff_ne.2 h, Bool.or_true, Bool.true_or]

/-- Settles O15: a decision, a query and a hold each meet the slot of their transaction; the latch's doubts keep what it has committed. -/
theorem txnDecisions : Obligations.TxnDecisions := by
  intro s t id cause landing n carrier symbol commit port slot r x hr hx hlen hports
  subst hr hx
  have hlen' : (s.atTime t).txn.slots.length = 29 := (State.length_slots_atTime s t).trans hlen
  refine ⟨fun hnone => Gives.of_eq rfl (State.decided_of_none hnone ..), fun hsome h20 hstate hverdict => ?_, fun hnot => ?_, fun hdue => ⟨fun hno => ?_,
    fun y htop hyslot hydec hynone => ?_⟩, fun y d hy hd => ?_, fun htop hnone => ⟨fun hout => ?_, fun o hout => ?_⟩, fun hnot => ?_,
    fun hdue => ⟨fun h1 h2 h3 => ?_, fun hno => ?_⟩, ?_, fun hbig hsym => ?_, fun htop l => ?_, fun htop htree l hl => ?_, fun htop htree hjoin hcount => ?_,
    fun c hc hdec hno hslot hid hstate harray hlt htime => ?_, fun hc hn harray hstate hdoubt htime => ?_, fun hc hno => ?_⟩
  · obtain ⟨hn, hid⟩ := State.slotOf_some hsome
    obtain ⟨k, v, hv, hdecided⟩ := State.decided_of_some hsome commit cause landing
    have hfinal : ¬ (((s.atTime t).slot n).final || ((s.atTime t).slot n).verdict.isSome) = true := by
      rw [hverdict]
      rcases hstate with h | h <;> simp [TxnSlot.final, h] <;> decide
    rw [if_neg hfinal] at hdecided
    have hlenv : n < v.txn.slots.length := by
      rw [hv.keepsTxn.txn]
      exact hn
    have hlenw : n < (v.modSlot n fun y => { y with queries := [] }).txn.slots.length := lt_of_lt_of_eq hlenv (List.length_modify ..).symm
    have hslot : (v.modSlot n fun y => { y with queries := [] }).slot n = { (s.atTime t).slot n with queries := [] } := by
      rw [State.slot_modSlot_same hlenv, slot_of_keepsTxn hv.keepsTxn]
    refine ⟨fun hdoubt => ⟨_, Gives.of_eq rfl (hdecided.trans (if_pos hdoubt)), ?_, ?_, State.dueAt_disarm ..⟩, fun hdoubt hab => ?_⟩
    · rw [State.slot_disarm, State.slot_modSlot_same hlenw]
    · rw [State.slot_disarm, State.slot_modSlot_same hlenw, hslot]
    · rw [if_neg (by rw [hdoubt]; exact Bool.false_ne_true)] at hdecided
      cases commit with
      | true =>
        obtain ⟨h1, h2, h3⟩ := State.decideSlot_commit hlenw h20 (by rw [hslot]; exact hab) cause landing
        rw [hslot] at h3
        exact ⟨_, Gives.of_eq rfl hdecided, h1, h3.trans (by rw [← hid]; rfl), h2, nofun⟩
      | false =>
        obtain ⟨h1, h2, h3, h4, h5, h6⟩ := State.decideSlot_abort hlenw h20 cause landing
        rw [hslot] at h3 h6
        exact ⟨_, Gives.of_eq rfl hdecided, h1, h3.trans (by rw [← hid]; rfl), h2, fun _ => ⟨h4, h5, fun y hy h => h6 y hy (h.trans hid.symm)⟩⟩
  · exact Gives.of_eq rfl (if_pos (by rw [hnot]; rfl))
  · refine Gives.of_eq rfl (State.decisionTimeout_of_none hdue (List.find?_eq_none.2 fun y hy h => ?_))
    rw [Bool.and_eq_true, beq_iff_eq, Option.isNone_iff_eq_none] at h
    exact hno y hy h.1 h.2
  · have hfind : (s.atTime t).txn.top.find? (fun x => x.slot == slot.val && x.decision.isNone) = some y := by
      rw [show (s.atTime t).txn.top = [y] from htop]
      simp [hyslot, hydec]
    have htopTxn : ((s.atTime t).disarm (.decide slot.val)).topTxn y.id = some y := by
      show s.txn.top.find? _ = _
      rw [htop]
      simp
    obtain ⟨v, hv⟩ : ∃ v : State, v = (((s.atTime t).disarm (.decide slot.val)).modTop y.id fun y =>
        { y with decision := some (false, causeTimeout, 0xFFFF) }).disarm (.decide y.slot) := ⟨_, rfl⟩
    have hnone : v.slotOf y.id = none := by
      rw [hv]
      exact (State.slotOf_of_slots (s := s.atTime t) rfl y.id).trans hynone
    refine ⟨v.sendDown (.txn (.decision y.id false causeTimeout 0xFFFF)), Gives.of_eq rfl ((State.decisionTimeout_of_some hdue hfind).trans ?_), ?_⟩
    · rw [State.topDecide, htopTxn]
      dsimp only
      rw [hydec, if_neg (by decide), ← hv, State.decided_of_none hnone]
    · rw [(keepsTxn_sendDown v _).txn, hv]
      show s.txn.top.map _ = _
      rw [htop]
      simp
  · exact Gives.of_eq rfl (State.queried_of_known (s := s.atTime t) hy hd port.val landing)
  · exact Gives.of_eq rfl ((State.queried_of_none (s := s.atTime t) htop hnone port.val landing).trans (by
      rw [show assoc? (s.atTime t).txn.outcomes id = none from hout]))
  · exact Gives.of_eq rfl ((State.queried_of_none (s := s.atTime t) htop hnone port.val landing).trans (by
      rw [show assoc? (s.atTime t).txn.outcomes id = some o from hout]))
  · exact Gives.of_eq rfl (if_pos (by rw [hnot]; rfl))
  · refine Gives.of_eq rfl ((if_neg (by rw [hdue]; exact Bool.false_ne_true)).trans (if_pos ?_))
    rw [h1, h2, h3]
    rfl
  · refine Gives.of_eq rfl ((if_neg (by rw [hdue]; exact Bool.false_ne_true)).trans (if_neg ?_))
    rw [Bool.and_eq_true, Bool.and_eq_true, beq_iff_eq, Option.isNone_iff_eq_none]
    rintro ⟨⟨h1, h2⟩, h3⟩
    rcases hno with h | h | h
    · exact Bool.false_ne_true (h.symm.trans h1)
    · exact h h2
    · exact h h3
  · refine ⟨_, rfl, ?_, rfl⟩
    exact congrArg StairPort.heldFrom (State.sPort_modSPort_same (s := s.atTime t) (lt_of_lt_of_eq port.isLt hports.symm) _)
  · refine ⟨_, heldSymbol ((s.atTime t).form carrier |>.symbolAt (s.atTime t).arrayNow) symbol, rfl, ?_, heldSymbol_mod hbig hsym, rfl, rfl⟩
    exact congrArg StairPort.heldFrom (State.sPort_modSPort_same (s := s.atTime t) (lt_of_lt_of_eq port.isLt hports.symm) _)
  · exact Gives.of_eq rfl (if_pos (by rw [show (s.atTime t).isTop = false from htop]; rfl))
  · have hdoubts : (l.filter fun e => e.2 == txPrepared) = [] := List.filter_eq_nil_iff.2 fun e he h => hl e he (beq_iff_eq.1 h)
    refine Gives.of_eq rfl ((if_neg (by rw [show (s.atTime t).isTop = true from htop]; exact Bool.false_ne_true)).trans ((if_neg htree).trans ?_))
    rw [hdoubts]
    rfl
  · refine ⟨_, Gives.of_eq rfl ((if_neg (by rw [show (s.atTime t).isTop = true from htop]; exact Bool.false_ne_true)).trans ((if_pos htree).trans
      (State.topForm_of_missing ?_))), rfl, htree⟩
    show s.stair.tree.joined.length + 1 ≠ s.landingCount
    rw [show s.stair.tree.joined = [] from hjoin]
    exact ne_of_lt hcount
  · obtain ⟨htxn, hregs, hmem⟩ := State.latchDue_of_due (s := s.atTime t) hc hdec hno hslot htime
    have hn : n < s.txn.slots.length := by
      by_contra hge
      have hfree : (s.atTime t).slot n = TxnSlot.free := by
        rw [State.slot, List.getD_eq_default _ _ (by rw [State.length_slots_atTime]; omega)]
      rw [hfree] at hstate
      exact absurd hstate (by decide)
    have hslotn : (s.atTime t).latchDue.slot n = { (s.atTime t).slot n with state := txCommitted } := by
      rw [State.slot, htxn]
      refine (State.slot_modSlot_same (s := (s.atTime t).put Reg.TXN.LAST_COMMIT.word c.id) (by rw [State.txn_put, State.length_slots_atTime]; exact hn) _).trans
        (if_pos ?_)
      rw [Bool.and_eq_true, decide_eq_true_eq, decide_eq_true_eq]
      exact ⟨hid, hstate⟩
    obtain ⟨h1, h2, h3, h4⟩ := State.doubtDue_keeps (s := (s.atTime t).latchDue) (n := n) (c := { c with latched := true }) (by rw [hslotn]; exact harray)
      (by rw [htxn]) rfl
    refine ⟨_, rfl, by rw [State.latchAll, h1, hslotn], ?_, h2, h3.trans hmem⟩
    rw [State.latchAll, h4.get (fun h => by have := bounds_of_laneAdaptWords h; dsimp only at this; omega), State.get_of_regs hregs, State.get_put_same _ rfl]
    exact Nat.mod_eq_of_lt hlt
  · have hdue := State.doubtDue_spec (s := s.atTime t) (n := n) (by rw [hlen']; exact hn) ((TxnSlot.undecided_iff ..).2 ⟨harray, hstate, hdoubt, htime⟩)
    obtain ⟨h1, h2, h3⟩ := hdue
    refine ⟨_, Gives.of_eq rfl ?_, h1, h2, h3⟩
    rw [State.latchAll, State.latchDue_of_no_commits (s := s.atTime t) hc]
  · refine Gives.of_eq rfl ?_
    rw [State.latchAll, State.latchDue_of_no_commits (s := s.atTime t) hc]
    exact State.doubtDue_of_none hno

end Sys2Proof.Machine
end

