-- ==== Sys2Proof/Proofs/StairTime.lean ====
section
/-!
Array time over a flight and the spectral mask of its lanes (R430 to R432, R463, R464).
-/

namespace Sys2Proof.Machine

open Sys2Proof

/-! ### Marks -/

theorem assoc?_assocErase {α : Type} (l : List (Nat × α)) (k : Nat) : assoc? (assocErase l k) k = none := by
  rw [assoc?, assocErase, Option.map_eq_none_iff, List.find?_eq_none]
  intro e he hk
  have := (List.mem_filter.1 he).2
  simp_all

/-- Pads are put on the lanes of a port by at most one output; of the port only its next number moves (R427). -/
theorem State.padLanes_spec (s : State) {n : Nat} (hn : n < s.stair.ports.length) : ∃ pads next, pads.length ≤ 1 ∧
    (∀ o ∈ pads, ∃ first l, o = .pads n first l) ∧ (s.padLanes n).out = s.out ++ pads ∧ (s.padLanes n).regs = s.regs ∧
    (s.padLanes n).sPort n = { s.sPort n with next := next } := by
  have hlanes : ∀ l : List (Nat × Nat × Nat), ∃ lanes, (s.forEach l fun e s => s.modSLane e.1 fun x => { x with sent := e.2.1 + e.2.2 }) =
      { s with stair := { s.stair with lanes := lanes } } := fun l =>
    State.forEach_induct (P := fun u => ∃ lanes, u = { s with stair := { s.stair with lanes := lanes } }) ⟨_, rfl⟩ fun e _ x ⟨lanes, hx⟩ =>
      ⟨lanes.modify e.1 fun x => { x with sent := e.2.1 + e.2.2 }, by rw [hx]; rfl⟩
  unfold State.padLanes
  extract_lets due first u
  obtain ⟨lanes, hu⟩ : ∃ lanes, u = { s with stair := { s.stair with lanes := lanes } } := hlanes due
  clear_value u
  subst hu
  split
  · exact ⟨[], _, by simp, nofun, (List.append_nil _).symm, rfl, rfl⟩
  · split
    · exact ⟨[], _, by simp, nofun, (List.append_nil _).symm, rfl, rfl⟩
    · refine ⟨[.pads n first due], (first + sumNat (due.map fun e => e.2.2)) % 16384, by simp, fun o ho => ⟨first, due, List.mem_singleton.1 ho⟩, rfl, rfl, ?_⟩
      exact State.sPort_modSPort_same (s := { s with stair := { s.stair with lanes := lanes } }) hn _

theorem State.forEach_emit {α : Type} (s : State) (l : List α) (f : State → α → Output) (hf : ∀ x out a, f { x with out := out } a = f x a) :
    s.forEach l (fun a s => s.emit (f s a)) = { s with out := s.out ++ l.map (f s) } := by
  induction l generalizing s with
  | nil => simp [State.forEach]
  | cons a l ih =>
    have hrest := ih (s.emit (f s a))
    rw [State.forEach, List.foldl_cons, ← State.forEach, hrest]
    have hmap : l.map (f (s.emit (f s a))) = l.map (f s) := List.map_congr_left fun b _ => hf s _ b
    rw [hmap]
    simp [State.emit]

theorem State.timeRecord_of_no_child {s : State} {n index : Nat} (h : s.sUse n ≠ useChild) : s.timeRecord n index = s := if_pos (bne_iff_ne.2 h)

/-- A mark is being sent on a port. -/
def State.marked (s : State) (n : Nat) (stamp : Int) : State :=
  s.modSPort n fun x =>
    { x with
      sentMarks := assocSet x.sentMarks (s.sPort n).markIndex stamp
      markIndex := ((s.sPort n).markIndex + 1) % 8
      markAt := s.now + ticksOfMs (s.get Reg.STAIR.TIME_CTL.period) }

/-- A mark goes out in a pilot block of the lowest active lane, after what pads the lanes. -/
theorem gives_timeMark_sent {s : State} {n : Fin 4} {t : Nat} (hup : s.sUp n.val = true) (huse : s.sUse n.val ≠ useChild)
    (hdue : (s.sPort n.val).markAt ≤ max s.now t) (stamp : Int) (hn : n.val < s.stair.ports.length) :
    ∃ u w, Gives (.timeMark t n none stamp) s u ∧ w = ((s.atTime t).marked n.val stamp).padLanes n.val ∧
      u = { w with
        out := w.out ++ [.pilotMark n.val (s.sPort n.val).markIndex] ++ ((s.activeLanes n.val).take 1).map fun l =>
          .pilot l (pilotBlock l (w.sPort n.val).next (w.sPort n.val).rxNext (some (s.sPort n.val).markIndex) 0) } := by
  obtain ⟨w, hw⟩ : ∃ w, w = ((s.atTime t).marked n.val stamp).padLanes n.val := ⟨_, rfl⟩
  refine ⟨_, w, ?_, hw, rfl⟩
  refine Gives.of_eq rfl ((if_neg (by rw [show (s.atTime t).sUp n.val = true from hup]; exact Bool.false_ne_true)).trans
    ((if_neg (Nat.not_lt.2 hdue)).trans ?_))
  have hregs : w.regs = s.regs := by
    obtain ⟨-, -, -, -, -, h, -⟩ := ((s.atTime t).marked n.val stamp).padLanes_spec (n := n.val) (lt_of_lt_of_eq hn (List.length_modify ..).symm)
    rw [hw, h]
    rfl
  have hlanes : (w.emit (.pilotMark n.val (s.sPort n.val).markIndex)).activeLanes n.val = s.activeLanes n.val := by
    unfold State.activeLanes State.laneState State.get State.word
    rw [show (w.emit (.pilotMark n.val (s.sPort n.val).markIndex)).regs = s.regs from hregs]
  show ((State.emit (((s.atTime t).marked n.val stamp).padLanes n.val) (.pilotMark n.val (s.sPort n.val).markIndex)).forEach
    ((State.activeLanes (State.emit (((s.atTime t).marked n.val stamp).padLanes n.val) (.pilotMark n.val (s.sPort n.val).markIndex)) n.val).take 1)
    fun l s' => s'.emit (.pilot l (pilotBlock l (s'.sPort n.val).next (s'.sPort n.val).rxNext (some (s.sPort n.val).markIndex) 0))).timeRecord n.val
      (s.sPort n.val).markIndex = _
  rw [← hw, hlanes, State.forEach_emit _ _
    (fun s' l => .pilot l (pilotBlock l (s'.sPort n.val).next (s'.sPort n.val).rxNext (some (s.sPort n.val).markIndex) 0)) fun _ _ _ => rfl]
  exact State.timeRecord_of_no_child fun h =>
    huse ((State.get_of_regs (u := w) (s := s) hregs (Reg.STAIR.PORT_STATUS.use n.val)).symm.trans h)

/-- A delay that no hold keeps back is shown as the mean of the last ones (R464). -/
theorem State.delayMeasured_of_free {s : State} {n : Nat} (hn : n < s.stair.ports.length) (hhold : (s.sPort n).holdDelay = false) (d : Int) :
    ∃ l v, l = (d :: (s.sPort n).delays).take (s.get Reg.STAIR.TIME_CTL.filter) ∧
      v = s.modSPort n (fun x => { x with delays := l, holdDelay := false }) ∧ v.sPort n = { s.sPort n with delays := l, holdDelay := false } ∧
      s.delayMeasured n d = v.putS (Reg.STAIR.PORT_DELAY.word n) (meanOf l) := by
  refine ⟨_, _, rfl, rfl, State.sPort_modSPort_same hn _, ?_⟩
  unfold State.delayMeasured
  rw [hhold]
  rfl

theorem State.timeArrived_of_marks {s : State} {n index : Nat} {t2 t3 : Int} (h2 : assoc? (s.sPort n).heardMarks index = some t2)
    (h3 : assoc? (s.sPort n).sentMarks index = some t3) (hsrc : s.get Reg.CLOCK.REF_STATUS.source ≠ srcParent) (t1 t4 : Int) :
    ∀ d v, d = ((t4 - t1) - (t3 - t2)) / 2 + s.getS (Reg.STAIR.PORT_ASYM.word n) →
      v = (s.modSPort n fun x => { x with sentMarks := assocErase x.sentMarks index, heardMarks := assocErase x.heardMarks index }).delayMeasured n d →
      v.get Reg.CLOCK.REF_STATUS.source = s.get Reg.CLOCK.REF_STATUS.source →
      s.timeArrived n index t1 t4 = v.putS Reg.STAIR.TIME_ERR.word (satS 32 (t2 - t1 - d)) := by
  rintro d v hd hv hkeep
  unfold State.timeArrived
  dsimp only
  rw [h2, h3]
  dsimp only
  rw [Int.fdiv_eq_ediv_of_nonneg _ (by decide : (0 : Int) ≤ 2)]
  rw [show State.getS (State.modSPort s n _) (Reg.STAIR.PORT_ASYM.word n) = s.getS (Reg.STAIR.PORT_ASYM.word n) from rfl, ← hd, ← hv]
  refine if_neg fun h => hsrc (hkeep.symm.trans ?_)
  rwa [State.putS, State.get_put_elsewhere _ (by dsimp only; omega)] at h

theorem claim_stairTime : Claim.StairTime := by
  intro s t n index stamp t1 t2 t3 t4 hports
  have hn : n.val < s.stair.ports.length := lt_of_lt_of_eq n.isLt hports.symm
  have hup {u : State} (hu : s.sUp n.val = true) : ¬ (!s.sUp n.val) = true := by
    rw [hu]
    exact Bool.false_ne_true
  refine ⟨fun hdown heard => ?_, fun hu huse => ⟨?_, fun hearly => ?_, fun hdue => ?_⟩, fun hno => ?_, fun hpar h2 h3 hsrc hhold d hd => ?_⟩
  · exact Gives.of_eq rfl (if_pos (by rw [show (s.atTime t).sUp n.val = false from hdown]; rfl))
  · refine Gives.of_eq rfl ((if_neg (hup (u := s) hu)).trans ?_)
    exact State.timeRecord_of_no_child (s := (s.atTime t).modSPort n.val _) huse
  · exact Gives.of_eq rfl ((if_neg (hup (u := s) hu)).trans (if_pos hearly))
  · obtain ⟨u, w, hgives, hw, hout⟩ := gives_timeMark_sent (t := t) hu huse hdue stamp hn
    obtain ⟨pads, next, hlen, hpads, hwout, -, hport⟩ := ((s.atTime t).marked n.val stamp).padLanes_spec (n := n.val)
      (lt_of_lt_of_eq hn (List.length_modify ..).symm)
    rw [show ((s.atTime t).marked n.val stamp).sPort n.val = _ from State.sPort_modSPort_same (s := s.atTime t) hn _, ← hw] at hport
    have huport : u.sPort n.val = w.sPort n.val := by rw [hout]; rfl
    refine ⟨u, pads, hgives, hlen, hpads, ?_, ?_, ?_⟩
    · rw [huport, hout]
      dsimp only
      rw [hw, hwout, ← hw, hport]
      simp
      rfl
    · rw [huport, hport]
      exact assoc?_assocSet_same ..
    · rw [huport, hport]
      rfl
  · refine Gives.of_eq rfl (if_neg ?_)
    rw [State.fromParent, beq_iff_eq]
    exact hno
  · obtain ⟨w, hw⟩ : ∃ w : State, w = (s.atTime t).modSPort n.val fun x =>
        { x with
          sentMarks := assocErase x.sentMarks (index % 8)
          heardMarks := assocErase x.heardMarks (index % 8) } := ⟨_, rfl⟩
    have hport : w.sPort n.val = { s.sPort n.val with
        sentMarks := assocErase (s.sPort n.val).sentMarks (index % 8)
        heardMarks := assocErase (s.sPort n.val).heardMarks (index % 8) } := by
      rw [hw]
      exact State.sPort_modSPort_same (s := s.atTime t) hn _
    have hget (f : Fld) : w.get f = s.get f := by
      rw [hw]
      rfl
    obtain ⟨l, v, hl, hv, hvport, hdelay⟩ := State.delayMeasured_of_free (s := w) (n := n.val)
      (by rw [hw]; exact lt_of_lt_of_eq hn (List.length_modify ..).symm) (by rw [hport]; exact hhold) d
    have hregs : v.regs = s.regs := by
      rw [hv, hw]
      rfl
    have hkeep : (w.delayMeasured n.val d).get Reg.CLOCK.REF_STATUS.source = (s.atTime t).get Reg.CLOCK.REF_STATUS.source := by
      rw [hdelay, State.putS, State.get_put_elsewhere _ (by dsimp only; omega)]
      exact State.get_of_regs (s := s) hregs _
    refine ⟨(w.delayMeasured n.val d).putS Reg.STAIR.TIME_ERR.word (satS 32 (t2 - t1 - d)), Gives.of_eq rfl ((if_pos (beq_iff_eq.2 hpar)).trans
      (State.timeArrived_of_marks (s := s.atTime t) h2 h3 hsrc t1 t4 d _ hd (by rw [hw]) hkeep)), ?_, ?_, ?_⟩
    · obtain ⟨hlo, hhi⟩ := satS_bounds (w := 32) (t2 - t1 - d)
      exact State.getS_putS_same _ rfl (by decide) hlo hhi
    · rw [hdelay]
      show (v.sPort n.val).delays = _
      rw [hvport, hl, hget, hport]
    · rw [hdelay]
      show assoc? (v.sPort n.val).heardMarks _ = _
      rw [hvport, hport]
      exact assoc?_assocErase ..

/-! ### The spectral mask -/

/-- The lanes whose taps exceed a mask say so; nothing else changes. -/
theorem State.forEach_maskFail (m : List (Nat × Int)) (l : List Nat) (s : State) :
    ∀ u, u = (s.forEach l fun i s =>
      if exceedsMask m (s.word (Reg.STAIR.LANE_TXF.word i).addr) then s.put (Reg.STAIR.LANE_STATUS.mask_fail i) 1 else s) →
    SameOff (fun a => ∃ i, a = (Reg.STAIR.LANE_STATUS.word i).addr) s u ∧ (∃ regs, u = { s with regs := regs }) ∧
      ∀ i, u.get (Reg.STAIR.LANE_STATUS.mask_fail i) =
        if i ∈ l ∧ exceedsMask m (s.word (Reg.STAIR.LANE_TXF.word i).addr) = true then 1 else s.get (Reg.STAIR.LANE_STATUS.mask_fail i) := by
  induction l generalizing s with
  | nil =>
    rintro u rfl
    exact ⟨.refl _, ⟨_, rfl⟩, fun i => (if_neg fun h => List.not_mem_nil h.1).symm⟩
  | cons j l ih =>
    rintro u hu
    rw [State.forEach, List.foldl_cons, ← State.forEach] at hu
    by_cases hj : exceedsMask m (s.word (Reg.STAIR.LANE_TXF.word j).addr) = true
    · rw [if_pos hj] at hu
      obtain ⟨hwords, ⟨regs, hregs⟩, hfail⟩ := ih _ u hu
      refine ⟨SameOff.trans ((SameOff.refl s).put (f := Reg.STAIR.LANE_STATUS.mask_fail j) ⟨j, rfl⟩ 1) hwords, ⟨regs, hregs⟩, fun i => ?_⟩
      rw [hfail, State.word_put_other _ (by dsimp only; omega)]
      by_cases hij : i = j
      · subst hij
        rw [State.get_put_same _ rfl]
        exact (ite_self 1).trans (if_pos ⟨List.mem_cons_self, hj⟩).symm
      · rw [State.get_put_elsewhere _ (by dsimp only; omega)]
        simp [hij]
    · rw [if_neg hj] at hu
      obtain ⟨hwords, hregs, hfail⟩ := ih s u hu
      refine ⟨hwords, hregs, fun i => ?_⟩
      rw [hfail]
      by_cases hij : i = j
      · subst hij
        simp [hj]
      · simp [hij]

theorem State.maskBreaks_congr {s u : State} (h : ∀ k < 8, u.word (Reg.STAIR.MASK.word k).addr = s.word (Reg.STAIR.MASK.word k).addr) :
    u.maskBreaks = s.maskBreaks := by
  unfold State.maskBreaks
  rw [List.filterMap_congr fun k hk => ?_]
  have hword := h k (List.mem_range.1 hk)
  rw [State.getS, State.getS, State.get, State.get, State.get, State.get, hword]

theorem claim_stairMasks : Claim.StairMasks := by
  intro s t ch lane k v new hnew
  subst hnew
  have hbad (h : exceedsMask s.maskBreaks (((s.atTime t).storeWord (Reg.STAIR.LANE_TXF.word lane.val).addr v).word (Reg.STAIR.LANE_TXF.word lane.val).addr) =
      true) : (s.atTime t).writeTaps lane.val v = (s.atTime t).put (Reg.STAIR.LANE_STATUS.mask_fail lane.val) 1 := if_pos h
  have hgood (h : exceedsMask s.maskBreaks (((s.atTime t).storeWord (Reg.STAIR.LANE_TXF.word lane.val).addr v).word (Reg.STAIR.LANE_TXF.word lane.val).addr) =
      false) : (s.atTime t).writeTaps lane.val v = (s.atTime t).storeWord (Reg.STAIR.LANE_TXF.word lane.val).addr v :=
    if_neg (by rw [show (s.atTime t).maskBreaks = s.maskBreaks from rfl, h]; exact Bool.false_ne_true)
  refine ⟨fun hr => ⟨fun h => ?_, fun h => ?_⟩, fun h => ?_, fun h => ?_, fun hr => ?_⟩
  · exact Gives.of_eq rfl ((State.hostCmd_of_reaches hr _).trans (hbad h))
  · exact Gives.of_eq rfl ((State.hostCmd_of_reaches hr _).trans (hgood h))
  · refine Gives.of_eq rfl ?_
    dsimp only
    rw [hbad h]
    exact if_pos h
  · refine Gives.of_eq rfl ?_
    dsimp only
    rw [hgood h]
    exact if_neg (by rw [show (s.atTime t).maskBreaks = s.maskBreaks from rfl, h]; exact Bool.false_ne_true)
  · refine ⟨_, Gives.of_eq rfl (State.hostCmd_of_reaches hr _), ?_⟩
    obtain ⟨w, hw⟩ : ∃ w, w = (s.atTime t).storeWord (Reg.STAIR.MASK.word k.val).addr v := ⟨_, rfl⟩
    have hwother {a : Nat} (ha : a ≠ (Reg.STAIR.MASK.word k.val).addr) : w.word a = s.word a := by
      rw [hw]
      exact State.word_setWord_other ha (s.atTime t) _
    obtain ⟨hwords, ⟨regs, hregs⟩, hfail⟩ := State.forEach_maskFail w.maskBreaks (List.range 16) w _ rfl
    have hu : (s.atTime t).writeMask k.val v = w.forEach (List.range 16) fun i s =>
        if exceedsMask w.maskBreaks (s.word (Reg.STAIR.LANE_TXF.word i).addr) then s.put (Reg.STAIR.LANE_STATUS.mask_fail i) 1 else s := by
      rw [hw]
      rfl
    rw [← hu] at hwords hregs hfail
    have hbreaks : ((s.atTime t).writeMask k.val v).maskBreaks = w.maskBreaks :=
      State.maskBreaks_congr fun j hj => hwords _ fun ⟨i, hi⟩ => by dsimp only at hi; omega
    refine ⟨fun i hi => ?_, by rw [hregs, hw]; rfl, by rw [hregs, hw]; rfl⟩
    have htaps : ((s.atTime t).writeMask k.val v).word (Reg.STAIR.LANE_TXF.word i).addr = w.word (Reg.STAIR.LANE_TXF.word i).addr :=
      hwords _ fun ⟨j, hj⟩ => by dsimp only at hj; omega
    rw [hbreaks, htaps, hfail]
    refine ⟨hwother (by dsimp only; omega), fun h => if_pos ⟨List.mem_range.2 hi, h⟩, fun h => ?_⟩
    rw [if_neg (fun h' => Bool.false_ne_true (h.symm.trans h'.2)), State.get, State.get, hwother (by dsimp only; omega)]

/-- Settles O47: what a mark leaves of a port's marks, and what exceeds the mask, lane by lane. -/
theorem stairTimeMasks : Obligations.StairTimeMasks := ⟨claim_stairTime, claim_stairMasks⟩

end Sys2Proof.Machine
end

