-- ==== Sys2Proof/Proofs/ReferenceTime.lean ====
section
/-!
The reference clock and the source of array time (R595, R598, R602 to R607).
-/

namespace Sys2Proof.Machine

open Sys2Proof

/-! ### Records and stops -/

/-- A record raises the notice of its kind (R544). -/
theorem State.get_record_bit (s : State) (x : Rec) : (s.record x).get ⟨Reg.HOST.INT_STATUS.fault.addr, x.kind.notice.bit, 1⟩ = 1 :=
  State.get_notice_bit _ _

/-- A record leaves the registers of other units alone. -/
theorem State.get_record (s : State) (x : Rec) {f : Fld} (hf : ¬ recordWords f.addr) : (s.record x).get f = s.get f := (sameOff_record s x).get hf

theorem State.get_bump_elsewhere (s : State) {f g : Fld} (h : f.addr ≠ g.addr) : (s.bump f).get g = s.get g := State.get_put_elsewhere s h _

theorem State.get_putBit_elsewhere (s : State) {f g : Fld} (h : f.addr ≠ g.addr) (i : Nat) (b : Bool) : (s.putBit f i b).get g = s.get g :=
  State.get_put_elsewhere s h _

theorem State.newest_record (s : State) (x : Rec) : (s.record x).newest = some (x.kind.code, x.cls, x.unit, x.inst) := by
  rw [State.newest, State.head_log_record]
  rfl

/-- Running carriers that are to stop read STOPPING, and nothing else of the landing changes but their records. -/
theorem State.stops_spec {f : Nat → State → State} (hf : ∀ c x, ∃ a next, f c x = x.decideStop c a next) {l : List Nat} (hnodup : l.Nodup)
    {s : State} (hl : ∀ c ∈ l, s.running c = true) : ∀ u, u = s.forEach l f →
    (∃ regs carriers, u = { s with regs := regs, carriers := carriers }) ∧
      SameOff (fun a => ∃ c ∈ l, a = (Reg.CARRIER.STATUS.word c).addr) s u ∧ ∀ c ∈ l, u.carState c = carrierStopping := by
  induction l generalizing s with
  | nil =>
    rintro u rfl
    exact ⟨⟨_, _, rfl⟩, .refl _, nofun⟩
  | cons d l ih =>
    rintro u hu
    obtain ⟨hd, hnodup⟩ := List.nodup_cons.1 hnodup
    rw [State.forEach, List.foldl_cons, ← State.forEach] at hu
    obtain ⟨a, next, hstep⟩ := hf d s
    obtain ⟨v, hv⟩ : ∃ v : State, v = s.modCar d fun x => { x with after := some next, since := a } := ⟨_, rfl⟩
    have hstop : f d s = v.put (Reg.CARRIER.STATUS.state d) carrierStopping := by
      rw [hstep, hv]
      exact if_pos (by rw [State.carActive, hl d List.mem_cons_self]; rfl)
    rw [hstop] at hu
    have hrun (c : Nat) (hc : c ∈ l) : (v.put (Reg.CARRIER.STATUS.state d) carrierStopping).running c = true := by
      have hne : c ≠ d := fun h => hd (h ▸ hc)
      rw [State.running, State.carState, State.get_put_elsewhere _ (by dsimp only; omega), hv]
      exact hl c (List.mem_cons_of_mem _ hc)
    obtain ⟨⟨regs, carriers, hshape⟩, hwords, hstopped⟩ := ih hnodup hrun u hu
    refine ⟨⟨regs, carriers, by rw [hshape, hv]; rfl⟩, ?_, fun c hc => ?_⟩
    · refine SameOff.trans (u := v.put (Reg.CARRIER.STATUS.state d) carrierStopping) ?_ (hwords.mono fun a ⟨c, hc, ha⟩ => ⟨c, List.mem_cons_of_mem _ hc, ha⟩)
      exact SameOff.put (u := v) (.of_regs (by rw [hv]; rfl)) (f := Reg.CARRIER.STATUS.state d) ⟨d, List.mem_cons_self, rfl⟩ carrierStopping
    · by_cases hcl : c ∈ l
      · exact hstopped c hcl
      · obtain rfl : c = d := (List.mem_cons.1 hc).resolve_right hcl
        rw [State.carState, hwords.get (fun ⟨c', hc', ha⟩ => hcl (by dsimp only at ha; rwa [show c = c' by omega])), State.get_put_same _ rfl]
        rfl

theorem State.nodup_runningCarriers (s : State) : s.runningCarriers.Nodup := List.Nodup.filter _ List.nodup_range

theorem State.mem_runningCarriers {s : State} {c : Nat} (h : c ∈ s.runningCarriers) : c < 8 ∧ s.running c = true :=
  ⟨List.mem_range.1 (List.mem_of_mem_filter h), (List.mem_filter.1 h).2⟩

/-! ### REFCLK -/

theorem State.flag_eq_false {s : State} {f : Fld} (h : s.get f = 0) : s.flag f = false := by
  rw [← Bool.not_eq_true, State.flag_iff]
  exact not_not.2 h

theorem State.flag_eq_true {s : State} {f : Fld} (h : s.get f = 1) : s.flag f = true := by
  rw [State.flag_iff, h]
  decide

theorem refRate_lt (hz : Nat) : refRate hz < 4 := by
  unfold refRate
  cases h : refRates.findIdx? fun r => decide (95 * r ≤ 100 * hz) && decide (100 * hz ≤ 105 * r) with
  | none => decide
  | some i =>
    have := (List.findIdx?_eq_some_iff_findIdx_eq.1 h).1
    exact lt_trans this (by decide)

/-- A REFCLK that is accepted (R595, R607). -/
def State.refAccepted (s : State) (r : Nat) : State :=
  (((s.put Reg.CLOCK.REF_STATUS.rate r).put Reg.CLOCK.REF_STATUS.refclk_ok 1).put Reg.CLOCK.REF_STATUS.ref_stop 0).setIsland islandRef true

theorem State.refAccept_eq (s : State) (hz us : Nat) : s.refAccept hz us =
    if (s.get Reg.CLOCK.REF_STATUS.rate = 3 ∧ refRate hz ≠ 3) ∨
      (s.get Reg.CLOCK.REF_STATUS.rate ≠ 3 ∧ refRate hz = s.get Reg.CLOCK.REF_STATUS.rate ∧ s.get Reg.CLOCK.REF_STATUS.refclk_ok = 0 ∧ 10000 ≤ us)
    then s.refAccepted (refRate hz) else s := by
  unfold State.refAccept
  refine if_congr ?_ rfl rfl
  simp [State.flag, and_assoc]

theorem refAccepted_spec (s : State) {r : Nat} (hr : r < 4) :
    (s.refAccepted r).get Reg.CLOCK.REF_STATUS.rate = r ∧ (s.refAccepted r).get Reg.CLOCK.REF_STATUS.refclk_ok = 1 ∧
      (s.refAccepted r).get Reg.CLOCK.REF_STATUS.ref_stop = 0 ∧ ((s.refAccepted r).get Reg.CLOCK.ISLAND_STATUS.locked).testBit 0 = true ∧
      ((s.refAccepted r).get Reg.CLOCK.ISLAND_STATUS.running).testBit 0 = true ∧
      SameWords s (s.refAccepted r) [Reg.CLOCK.REF_STATUS.word.addr, Reg.CLOCK.ISLAND_STATUS.word.addr] := by
  obtain ⟨v, hv⟩ : ∃ v, v = ((s.put Reg.CLOCK.REF_STATUS.rate r).put Reg.CLOCK.REF_STATUS.refclk_ok 1).put Reg.CLOCK.REF_STATUS.ref_stop 0 := ⟨_, rfl⟩
  have hu : s.refAccepted r = v.setIsland islandRef true := by rw [hv]; rfl
  have hout {f : Fld} (hf : f.addr ≠ Reg.CLOCK.ISLAND_STATUS.word.addr) : (v.setIsland islandRef true).get f = v.get f := by
    exact (State.get_put_elsewhere _ (f := Reg.CLOCK.ISLAND_STATUS.locked) (Ne.symm hf) _).trans
      (State.get_put_elsewhere _ (f := Reg.CLOCK.ISLAND_STATUS.running) (Ne.symm hf) _)
  rw [hu, hout (by decide), hout (by decide), hout (by decide), hv]
  refine ⟨?_, ?_, State.get_put_same _ rfl 0, State.testBit_putBit _ rfl (by decide) true, ?_, SameOff.sameWords ?_⟩
  · rw [State.get_put_apart _ rfl (by decide), State.get_put_apart _ rfl (by decide), State.get_put_same _ rfl]
    exact Nat.mod_eq_of_lt hr
  · rw [State.get_put_apart _ rfl (by decide), State.get_put_same _ rfl]
    rfl
  · rw [State.setIsland, State.putBit, State.get_put_apart _ rfl (by decide)]
    exact State.testBit_putBit _ rfl (by decide) true
  · have hmem : Reg.CLOCK.REF_STATUS.word.addr ∈ [Reg.CLOCK.REF_STATUS.word.addr, Reg.CLOCK.ISLAND_STATUS.word.addr] := List.mem_cons_self
    have hmem2 : Reg.CLOCK.ISLAND_STATUS.word.addr ∈ [Reg.CLOCK.REF_STATUS.word.addr, Reg.CLOCK.ISLAND_STATUS.word.addr] :=
      List.mem_cons_of_mem _ List.mem_cons_self
    exact ((((((SameOff.refl s).put (f := Reg.CLOCK.REF_STATUS.rate) hmem r).put (f := Reg.CLOCK.REF_STATUS.refclk_ok) hmem 1).put
      (f := Reg.CLOCK.REF_STATUS.ref_stop) hmem 0).put (f := Reg.CLOCK.ISLAND_STATUS.running) hmem2 _).put (f := Reg.CLOCK.ISLAND_STATUS.locked) hmem2 _)

theorem refLost_spec {s : State} (hok : s.get Reg.CLOCK.REF_STATUS.refclk_ok = 1) :
    s.refLost.get Reg.CLOCK.REF_STATUS.refclk_ok = 0 ∧ s.refLost.get Reg.CLOCK.REF_STATUS.holdover = 1 ∧ s.refLost.clock.lostAt = some s.now ∧
      (s.refLost.get Reg.CLOCK.ISLAND_STATUS.locked).testBit 0 = false ∧
      s.refLost.get (Reg.CLOCK.ISLAND_CNT.losses 0) = (s.get (Reg.CLOCK.ISLAND_CNT.losses 0) + 1) % 256 ∧ s.refLost.newest = some (3, 0, unitClock, 0) ∧
      s.refLost.get Reg.HOST.INT_STATUS.event = 1 ∧ s.refLost.carriers = s.carriers := by
  obtain ⟨v, hv⟩ : ∃ v : State, v = (({ s with clock := { s.clock with lostAt := some s.now } } : State).put Reg.CLOCK.REF_STATUS.refclk_ok 0).put
      Reg.CLOCK.REF_STATUS.holdover 1 := ⟨_, rfl⟩
  have hu : s.refLost = ((v.putBit Reg.CLOCK.ISLAND_STATUS.locked islandRef false).bump (Reg.CLOCK.ISLAND_CNT.losses islandRef)).record
      { kind := .event, unit := unitClock, inst := islandRef } := by
    rw [hv]
    exact if_neg (by rw [State.flag_eq_true hok]; exact Bool.false_ne_true)
  rw [hu]
  refine ⟨?_, ?_, ?_, ?_, ?_, State.newest_record .., State.get_record_bit .., ?_⟩
  · rw [State.get_record _ _ (by simp [recordWords]), State.get_bump_elsewhere _ (by decide), State.get_putBit_elsewhere _ (by decide), hv,
      State.get_put_apart _ rfl (by decide), State.get_put_same _ rfl]
    rfl
  · rw [State.get_record _ _ (by simp [recordWords]), State.get_bump_elsewhere _ (by decide), State.get_putBit_elsewhere _ (by decide), hv,
      State.get_put_same _ rfl]
    rfl
  · rw [State.clock_record, hv]
    rfl
  · rw [State.get_record _ _ (by simp [recordWords]), State.get_bump_elsewhere _ (by decide)]
    exact State.testBit_putBit _ rfl (by decide) false
  · rw [State.get_record _ _ (by simp [recordWords]), islandRef, State.get_bump_same _ rfl, State.get_putBit_elsewhere _ (by decide), hv,
      State.get_put_elsewhere _ (by decide), State.get_put_elsewhere _ (by decide)]
    rfl
  · rw [State.carriers_record, hv]
    rfl

theorem State.refLimit_of_idle {s : State} (h : s.get Reg.CLOCK.REF_CTL.holdover_max = 0 ∨ s.get Reg.CLOCK.REF_STATUS.refclk_ok = 1 ∨
    s.get Reg.CLOCK.REF_STATUS.ref_stop = 1 ∨ ∀ a, s.clock.lostAt = some a → s.now < a + ticksOfMs (100 * s.get Reg.CLOCK.REF_CTL.holdover_max)) :
    s.refLimit = s := by
  unfold State.refLimit
  dsimp only
  cases ha : s.clock.lostAt with
  | none => rfl
  | some a =>
    refine if_pos ?_
    rcases h with h | h | h | h
    · simp [h]
    · simp [State.flag_eq_true h]
    · simp [State.flag_eq_true h]
    · simp [h a ha]

theorem refLimit_spec {s : State} {a : Nat} (ha : s.clock.lostAt = some a) (htime : a + ticksOfMs (100 * s.get Reg.CLOCK.REF_CTL.holdover_max) ≤ s.now)
    (hmax : s.get Reg.CLOCK.REF_CTL.holdover_max ≠ 0) (hok : s.get Reg.CLOCK.REF_STATUS.refclk_ok = 0) (hstop : s.get Reg.CLOCK.REF_STATUS.ref_stop = 0) :
    s.refLimit.get Reg.CLOCK.REF_STATUS.ref_stop = 1 ∧ s.refLimit.newest = some (2, 0, unitClock, 0) ∧
      s.refLimit.get Reg.HOST.INT_STATUS.degradation = 1 ∧ ∀ c ∈ s.runningCarriers, (s.form c).joint = true → s.refLimit.running c = false := by
  obtain ⟨v, hv⟩ : ∃ v, v = s.forEach (s.runningCarriers.filter fun c => (s.form c).joint) fun c s => s.decideStop c s.arrayNow (some (s.form c)) := ⟨_, rfl⟩
  have hu : s.refLimit = (v.put Reg.CLOCK.REF_STATUS.ref_stop 1).record { kind := .degradation, unit := unitClock, inst := islandRef } := by
    unfold State.refLimit
    dsimp only
    rw [ha, hv]
    refine if_neg ?_
    rw [State.flag_eq_false hok, State.flag_eq_false hstop, decide_eq_false hmax, decide_eq_false (Nat.not_lt.2 htime)]
    exact Bool.false_ne_true
  obtain ⟨-, -, hstopped⟩ := State.stops_spec (f := fun c s => s.decideStop c s.arrayNow (some (s.form c))) (fun _ _ => ⟨_, _, rfl⟩)
    (s.nodup_runningCarriers.filter _) (fun c hc => (State.mem_runningCarriers (List.mem_of_mem_filter hc)).2) v hv
  rw [hu]
  refine ⟨?_, State.newest_record .., State.get_record_bit .., fun c hc hj => ?_⟩
  · rw [State.get_record _ _ (by simp [recordWords]), State.get_put_same _ rfl]
    rfl
  · obtain ⟨h8, -⟩ := State.mem_runningCarriers hc
    have hstate := hstopped c (List.mem_filter.2 ⟨hc, hj⟩)
    rw [State.running, State.carState, State.get_record _ _ (by simp [recordWords]; omega), State.get_put_elsewhere _ (by dsimp only; omega),
      ← State.carState, hstate]
    rfl

theorem claim_refclk : Claim.Refclk := by
  rintro s t hz us r rfl
  refine ⟨fun h => ⟨?_, ?_⟩, fun h => ⟨⟨_, rfl, refLost_spec (s := s.atTime t) h⟩, ?_, ?_⟩, fun h => ?_, fun a ha => ⟨fun h => ?_, fun h1 h2 h3 h4 => ?_⟩,
    fun h1 h2 => ?_, fun h1 h2 => ?_, fun h => ?_⟩
  · exact Gives.of_eq rfl (if_pos (by rw [show (s.atTime t).flag Reg.CLOCK.REF_STATUS.refclk_ok = false from State.flag_eq_false h]; rfl))
  · exact Gives.of_eq rfl (if_neg (by rw [show (s.atTime t).flag Reg.CLOCK.REF_STATUS.refclk_ok = false from State.flag_eq_false h]; exact Bool.false_ne_true))
  · exact Gives.of_eq rfl (if_pos (State.flag_eq_true (s := s.atTime t) h))
  · exact Gives.of_eq rfl (State.refLimit_of_idle (.inr (.inl h)))
  · rcases h with h | h | h
    · exact Gives.of_eq rfl (State.refLimit_of_idle (.inl h))
    · exact Gives.of_eq rfl (State.refLimit_of_idle (.inr (.inr (.inl h))))
    · exact Gives.of_eq rfl (State.refLimit_of_idle (.inr (.inr (.inr fun a ha => nomatch h.symm.trans ha))))
  · exact Gives.of_eq rfl (State.refLimit_of_idle (.inr (.inr (.inr fun b hb => by
      obtain rfl : b = a := Option.some.inj (hb.symm.trans ha)
      exact h))))
  · exact ⟨_, rfl, refLimit_spec (s := s.atTime t) ha h1 h2 h3 h4⟩
  all_goals have heq := (s.atTime t).refAccept_eq hz us
  · exact Gives.of_eq rfl (heq.trans (if_neg fun h => h.elim (fun h => h.2 h2) fun h => h.1 h1))
  · refine Gives.of_eq rfl (heq.trans (if_neg ?_))
    rintro (h | ⟨-, h3, h4, h5⟩)
    · exact h1 h.1
    · rcases h2 with h2 | h2 | h2
      · exact h2 h3
      · exact absurd h5 (Nat.not_le.2 h2)
      · exact absurd (h2.symm.trans h4) (by decide)
  · exact ⟨_, Gives.of_eq rfl (heq.trans (if_pos h)), refAccepted_spec (s.atTime t) (refRate_lt hz)⟩

/-! ### The source of array time -/

theorem State.wantedSource_putB (s : State) (b : Bool) : (s.putB Reg.STAIR.STATUS.ptp_ignored b).wantedSource = s.wantedSource := by
  have hparent : (s.putB Reg.STAIR.STATUS.ptp_ignored b).hasParent = s.hasParent := by
    rw [State.hasParent, State.flag, State.putB, State.get_put_apart _ rfl (by decide)]
    rfl
  have hget {f : Fld} (hf : Reg.STAIR.STATUS.ptp_ignored.addr ≠ f.addr) : (s.putB Reg.STAIR.STATUS.ptp_ignored b).get f = s.get f :=
    State.get_put_elsewhere s hf _
  have hport : (s.putB Reg.STAIR.STATUS.ptp_ignored b).ptpPort = s.ptpPort := by
    unfold State.ptpPort
    have hmasters (n : Nat) (hn : n ∈ List.range 8) :
        (if ((s.putB Reg.STAIR.STATUS.ptp_ignored b).get Reg.FRONTHAUL.PTP_CTL.port_mask).testBit n then
          ((s.putB Reg.STAIR.STATUS.ptp_ignored b).fh.masters.getD n none).map fun m => ((s.putB Reg.STAIR.STATUS.ptp_ignored b).masterKey n m, n) else none) =
        (if (s.get Reg.FRONTHAUL.PTP_CTL.port_mask).testBit n then (s.fh.masters.getD n none).map fun m => (s.masterKey n m, n) else none) := by
      have h8 := List.mem_range.1 hn
      rw [hget (by decide)]
      simp only [State.masterKey]
      rw [hget (by dsimp only; omega)]
      rfl
    rw [List.filterMap_congr hmasters]
  rw [State.wantedSource, State.wantedSource, State.ptpSlave, State.ptpSlave, hparent, hport, hget (by decide), hget (by decide), hget (by decide)]

theorem chooseSource_of_none {s : State} (h : s.wantedSource = none) :
    s.chooseSource.get Reg.CLOCK.TIME_STATUS.state = timeHoldover ∧ s.chooseSource.get Reg.CLOCK.REF_STATUS.source = s.get Reg.CLOCK.REF_STATUS.source ∧
      s.chooseSource.fh = s.fh := by
  obtain ⟨w, hw⟩ : ∃ w, w = s.putB Reg.STAIR.STATUS.ptp_ignored (s.hasParent && s.ptpSlave) := ⟨_, rfl⟩
  have hwant : w.wantedSource = none := by rw [hw, State.wantedSource_putB, h]
  have hu : s.chooseSource = { w.put Reg.CLOCK.TIME_STATUS.state timeHoldover with clock := { w.clock with good := 0 } } := by
    unfold State.chooseSource
    dsimp only
    rw [← hw, hwant]
  have hget (f : Fld) : s.chooseSource.get f = (w.put Reg.CLOCK.TIME_STATUS.state timeHoldover).get f := by
    rw [hu]
    rfl
  rw [hget, hget, State.get_put_same _ rfl, State.get_put_elsewhere _ (by decide), hw]
  refine ⟨rfl, State.get_put_elsewhere s (by decide) _, ?_⟩
  rw [hu, hw]
  rfl

theorem chooseSource_of_free {s : State} (h : s.wantedSource = some srcFree) :
    s.chooseSource.get Reg.CLOCK.TIME_STATUS.state = timeFree ∧ s.chooseSource.get Reg.CLOCK.REF_STATUS.source = srcFree ∧
      s.chooseSource.get Reg.CLOCK.REF_STEER.word = 0 := by
  obtain ⟨w, hw⟩ : ∃ w, w = s.putB Reg.STAIR.STATUS.ptp_ignored (s.hasParent && s.ptpSlave) := ⟨_, rfl⟩
  have hwant : w.wantedSource = some srcFree := by rw [hw, State.wantedSource_putB, h]
  obtain ⟨x, hx⟩ : ∃ x, x = ((w.put Reg.CLOCK.REF_STATUS.source srcFree).put Reg.CLOCK.TIME_STATUS.state timeFree).put Reg.CLOCK.REF_STEER.word 0 := ⟨_, rfl⟩
  have hu : s.chooseSource = { x with clock := { x.clock with await := false, good := 0 } } := by
    unfold State.chooseSource
    dsimp only
    rw [← hw, hwant]
    dsimp only
    rw [if_pos rfl, ← hx]
  have hget (f : Fld) : s.chooseSource.get f = x.get f := by
    rw [hu]
    rfl
  rw [hget, hget, hget, hx, State.get_put_same _ rfl, State.get_put_elsewhere _ (by decide), State.get_put_same _ rfl, State.get_put_elsewhere _ (by decide),
    State.get_put_elsewhere _ (by decide), State.get_put_same _ rfl, Nat.zero_mod]
  exact ⟨rfl, rfl, rfl⟩

theorem syncOffset_bounds {mode : Nat} (a : Nat) : -(2 ^ 31) ≤ syncOffset (syncPeriod mode) a ∧ syncOffset (syncPeriod mode) a < 2 ^ 31 := by
  have hperiod : 0 < syncPeriod mode ∧ syncPeriod mode < 2 ^ 32 := by
    unfold syncPeriod ticksPerSecond planningSlot
    split <;> omega
  have hlt := Nat.mod_lt a hperiod.1
  unfold syncOffset
  split <;> omega

/-- A step of array time that is asked for stops the running carriers and waits (R604). -/
theorem State.requestStep_of_free {s : State} (hen : s.get Reg.CLOCK.REF_CTL.step_en = 1) (hdue : s.clock.stepDue = none) (d : Int) :
    ∃ v : State, ((∃ regs carriers, v = { s with regs := regs, carriers := carriers }) ∧
      SameOff (fun a => ∃ c ∈ s.runningCarriers, a = (Reg.CARRIER.STATUS.word c).addr) s v ∧ ∀ c ∈ s.runningCarriers, v.carState c = carrierStopping) ∧
      s.requestStep d = { v with clock := { v.clock with stepDue := some d } } := by
  refine ⟨_, State.stops_spec (f := fun c x => x.decideStop c (max s.arrayNow ((x.form c).boundary
    ((x.form c).symbolAt (planningFrom (s.arrayNow + 1)) / (x.form c).symbols * (x.form c).symbols))) (some (x.form c))) (fun _ _ => ⟨_, _, rfl⟩)
    s.nodup_runningCarriers (fun c hc => (State.mem_runningCarriers hc).2) _ rfl, ?_⟩
  refine (if_neg ?_)
  rw [State.flag_eq_true hen, hdue]
  exact Bool.false_ne_true

theorem State.getS_of_get {s u : State} {f : Fld} (h : u.get f = s.get f) : u.getS f = s.getS f := by rw [State.getS, h, State.getS]

theorem claim_timeSources : Claim.TimeSources := by
  rintro s t ch r v rfl
  refine ⟨fun hnone => ?_, fun n hn hv => ⟨fun hw => ?_, fun hw => ?_⟩, fun h => ?_, fun hmode hstart o ho => ⟨fun h => ?_, fun ha hst hen hdue => ?_⟩,
    fun hr => Gives.of_eq rfl (State.hostCmd_of_reaches hr _)⟩
  · refine Gives.of_eq rfl ?_
    dsimp only
    rw [show (s.atTime t).ptpPort = none from hnone]
  · refine ⟨v.chooseSource, Gives.of_eq rfl ?_, ?_⟩
    · dsimp only
      rw [show (s.atTime t).ptpPort = some n from hn, hv]
      rfl
    · obtain ⟨h1, h2, h3⟩ := chooseSource_of_none hw
      refine ⟨h1, h2.trans ?_, ?_⟩
      · rw [hv]
        rfl
      · rw [h3, hv]
  · refine ⟨v.chooseSource, Gives.of_eq rfl ?_, chooseSource_of_free hw⟩
    dsimp only
    rw [show (s.atTime t).ptpPort = some n from hn, hv]
    rfl
  · refine Gives.of_eq rfl (if_pos ?_)
    rcases h with h | h
    · rw [show (s.atTime t).get Reg.CLOCK.SYNC_CTL.mode = 0 from h]
      rfl
    · rw [show (s.atTime t).clock.started = false from h, Bool.not_false, Bool.or_true]
  all_goals
    have hgo : ¬ (decide ((s.atTime t).get Reg.CLOCK.SYNC_CTL.mode = 0) || !(s.atTime t).clock.started) = true := by
      rw [show (s.atTime t).clock.started = true from hstart, decide_eq_false (show (s.atTime t).get Reg.CLOCK.SYNC_CTL.mode ≠ 0 from hmode)]
      exact Bool.false_ne_true
    have hstate : ((s.atTime t).putS Reg.CLOCK.SYNC_OFFSET.word o).get Reg.CLOCK.TIME_STATUS.state = s.get Reg.CLOCK.TIME_STATUS.state :=
      State.get_put_elsewhere (s.atTime t) (by decide) _
  · refine Gives.of_eq rfl ((if_neg hgo).trans ?_)
    rw [show syncOffset (syncPeriod ((s.atTime t).get Reg.CLOCK.SYNC_CTL.mode)) (s.atTime t).arrayNow = o from ho.symm]
    refine if_neg ?_
    rw [Bool.and_eq_true, decide_eq_true_eq, hstate]
    rintro ⟨h1, h2⟩
    rcases h with h | h
    · exact Bool.false_ne_true (h.symm.trans h1)
    · exact h h2
  · obtain ⟨w, hw⟩ : ∃ w : State, w = { (s.atTime t).putS Reg.CLOCK.SYNC_OFFSET.word o with clock := { s.clock with alignArmed := false } } := ⟨_, rfl⟩
    have hu : (s.atTime t).syncEdge = w.requestStep (-o) := by
      refine (if_neg hgo).trans ?_
      rw [show syncOffset (syncPeriod ((s.atTime t).get Reg.CLOCK.SYNC_CTL.mode)) (s.atTime t).arrayNow = o from ho.symm, hw]
      refine if_pos ?_
      rw [Bool.and_eq_true, decide_eq_true_eq, hstate]
      exact ⟨ha, hst⟩
    obtain ⟨v, hv, hstep⟩ := State.requestStep_of_free (s := w) (by
      rw [hw]
      exact (State.get_put_elsewhere (s.atTime t) (by decide) _).trans hen) (by rw [hw]; exact hdue) (-o)
    obtain ⟨⟨regs, carriers, hshape⟩, hwords, -⟩ := hv
    refine ⟨_, Gives.of_eq rfl (hu.trans hstep), ?_, rfl, ?_, ?_⟩
    · rw [hshape, hw]
    · refine (State.getS_of_get (s := w) ?_).trans ?_
      · exact hwords.get fun ⟨c, hc, h⟩ => by
          have := (State.mem_runningCarriers hc).1
          dsimp only at h
          omega
      · rw [hw]
        obtain ⟨hlo, hhi⟩ := syncOffset_bounds (mode := s.get Reg.CLOCK.SYNC_CTL.mode) (s.atTime t).arrayNow
        exact State.getS_putS_same (s.atTime t) rfl (by decide) (ho ▸ hlo) (ho ▸ hhi)
    · rw [hshape, hw]

/-- Settles O55: each event of the reference clock and of array time's source, by the state that it meets. -/
theorem referenceTime : Obligations.ReferenceTime := ⟨claim_refclk, claim_timeSources⟩

end Sys2Proof.Machine
end

