-- ==== Sys2Proof/Proofs/CaptureOutputs.lean ====
section
/-!
Diagnostic capture and PRACH occasions (R251 to R258, R264 to R266).
-/

namespace Sys2Proof.Machine

open Sys2Proof

/-! ### Diagnostic capture -/

theorem capRefusal_lt (s : State) : s.capRefusal < 16 := by
  unfold State.capRefusal
  dsimp only
  repeat' split
  all_goals decide

/-- A capture that is refused shows its cause (R265). -/
theorem capArm_of_refused {s : State} {v : Word} {code : Nat} (hcode : (s.storeWord Reg.CARRIER.CAP_CTL.word.addr v).capRefusal = code) (hne : code ≠ 0) :
    (s.capArm v).get Reg.CARRIER.CAP_STATUS.refused = 1 ∧ (s.capArm v).get Reg.CARRIER.CAP_STATUS.cause = code ∧ (s.capArm v).cap = s.cap ∧
      SameWords s (s.capArm v) [Reg.CARRIER.CAP_CTL.word.addr, Reg.CARRIER.CAP_STATUS.word.addr] := by
  obtain ⟨w, hw⟩ : ∃ w, w = s.storeWord Reg.CARRIER.CAP_CTL.word.addr v := ⟨_, rfl⟩
  have hu : s.capArm v = (w.put Reg.CARRIER.CAP_STATUS.cause code).put Reg.CARRIER.CAP_STATUS.refused 1 := by
    unfold State.capArm
    dsimp only
    rw [hcode, if_pos (bne_iff_ne.2 hne), hw]
  have hlt : code < 16 := hcode ▸ capRefusal_lt _
  rw [hu, State.get_put_same _ rfl, State.get_put_apart _ rfl (by decide), State.get_put_same _ rfl]
  refine ⟨rfl, Nat.mod_eq_of_lt hlt, by rw [hw]; rfl, SameOff.sameWords ?_⟩
  refine SameOff.put (f := Reg.CARRIER.CAP_STATUS.refused) (SameOff.put (f := Reg.CARRIER.CAP_STATUS.cause) (fun a ha => ?_) (by simp) code) (by simp) 1
  rw [hw]
  exact State.word_setWord_other (fun h => ha (by rw [h]; exact List.mem_cons_self)) s _

theorem capArm_of_allowed {s : State} {v : Word} (hcode : (s.storeWord Reg.CARRIER.CAP_CTL.word.addr v).capRefusal = 0) :
    (s.capArm v).cap.armed = true ∧ (s.capArm v).cap.recording = false ∧ (s.capArm v).cap.ctl = (s.capArm v).word Reg.CARRIER.CAP_CTL.word.addr ∧
      (s.capArm v).cap.trig = s.word Reg.CARRIER.CAP_TRIG.word.addr ∧ (s.capArm v).get Reg.CARRIER.CAP_STATUS.armed = 1 ∧ (s.capArm v).mem = s.mem := by
  obtain ⟨w, hw⟩ : ∃ w, w = s.storeWord Reg.CARRIER.CAP_CTL.word.addr v := ⟨_, rfl⟩
  obtain ⟨x, hx⟩ : ∃ x : State, x = { w with cap :=
      { armed := true, recording := false, start := 0, data := []
        ctl := w.word Reg.CARRIER.CAP_CTL.word.addr, trig := w.word Reg.CARRIER.CAP_TRIG.word.addr } } := ⟨_, rfl⟩
  have hu : s.capArm v = (x.put Reg.CARRIER.CAP_STATUS.cause 0).put Reg.CARRIER.CAP_STATUS.armed 1 := by
    unfold State.capArm
    dsimp only
    rw [hcode, hx, hw]
    rfl
  rw [hu, State.get_put_same _ rfl, State.word_put_other _ (by decide), State.word_put_other _ (by decide)]
  refine ⟨by rw [hx]; rfl, by rw [hx]; rfl, by rw [hx]; rfl, ?_, rfl, by rw [hx, hw]; rfl⟩
  rw [hx]
  show w.word Reg.CARRIER.CAP_TRIG.word.addr = _
  rw [hw]
  exact State.word_setWord_other (by decide) s _

theorem capStop_spec (s : State) {cause : Nat} (hlt : cause < 16) :
    (s.capStop cause).cap.armed = false ∧ (s.capStop cause).cap.recording = false ∧ (s.capStop cause).get Reg.CARRIER.CAP_STATUS.cause = cause ∧
      (s.capStop cause).get Reg.CARRIER.CAP_STATUS.done = 1 ∧ (s.capStop cause).get Reg.CARRIER.CAP_STATUS.armed = 0 ∧
      (s.cap.recording = false → (s.capStop cause).mem = s.mem) ∧ SameWords s (s.capStop cause) [Reg.CARRIER.CAP_STATUS.word.addr] := by
  obtain ⟨m, w, hw, hm, hu⟩ : ∃ m, ∃ w : State, w = { s with mem := m, cap := { s.cap with armed := false, recording := false } } ∧
      (s.cap.recording = false → m = s.mem) ∧
      s.capStop cause = ((w.put Reg.CARRIER.CAP_STATUS.cause cause).put Reg.CARRIER.CAP_STATUS.armed 0).put Reg.CARRIER.CAP_STATUS.done 1 := by
    unfold State.capStop
    dsimp only
    split
    next h => exact ⟨_, _, rfl, fun h' => absurd (h.symm.trans h') (by decide), rfl⟩
    next h => exact ⟨_, _, rfl, fun _ => rfl, rfl⟩
  rw [hu, State.get_put_apart _ rfl (by decide), State.get_put_apart _ rfl (by decide), State.get_put_same _ rfl, State.get_put_same _ rfl,
    State.get_put_apart _ rfl (by decide), State.get_put_same _ rfl]
  refine ⟨by rw [hw]; rfl, by rw [hw]; rfl, Nat.mod_eq_of_lt hlt, rfl, rfl, fun h => ?_, SameOff.sameWords ?_⟩
  · rw [hw, ← hm h]
    rfl
  · exact SameOff.put (f := Reg.CARRIER.CAP_STATUS.done) (SameOff.put (f := Reg.CARRIER.CAP_STATUS.armed) (SameOff.put (f := Reg.CARRIER.CAP_STATUS.cause)
      (.of_regs (by rw [hw])) (by simp) cause) (by simp) 0) (by simp) 1

theorem capTake_keeps (s : State) (c n : Nat) (codes : List Cplx) :
    ∃ data, s.capTake c n codes = { s with cap := { s.cap with data := data } } := by
  unfold State.capTake
  dsimp only
  split
  · split
    · exact ⟨_, rfl⟩
    · exact ⟨_, rfl⟩
  · exact ⟨_, rfl⟩

theorem claim_diagnosticCapture : Claim.DiagnosticCapture := by
  intro s t ch v codes
  refine ⟨fun hr => ⟨fun code hcode => ⟨fun hne => ?_, fun hz => ?_⟩, fun hno => ?_, fun ha => ?_⟩, fun hno => ⟨?_, ?_⟩, fun hno => ?_,
    fun ha hrec hact hb htrig => ?_, fun ha hrec w hw => ?_⟩
  · obtain ⟨h1, h2, h3, h4⟩ := capArm_of_refused hcode hne
    exact ⟨_, Gives.of_eq rfl (State.hostCmd_of_reaches hr _), h1, h2, h3, h4⟩
  · obtain ⟨h1, h2, h3, h4, h5, h6⟩ := capArm_of_allowed (hcode.trans hz)
    exact ⟨_, Gives.of_eq rfl (State.hostCmd_of_reaches hr _), h1, h2, h3, h4, h5, h6⟩
  · exact Gives.of_eq rfl ((State.hostCmd_of_reaches hr _).trans (if_neg (by rw [show (s.atTime t).cap.armed = false from hno]; exact Bool.false_ne_true)))
  · obtain ⟨h1, -, h3, h4, h5, h6, -⟩ := capStop_spec (s.atTime t) (cause := capCancelled) (by decide)
    exact ⟨_, Gives.of_eq rfl ((State.hostCmd_of_reaches hr _).trans (if_pos ha)), h1, h3, h4, h5, h6⟩
  · exact Gives.of_eq rfl (if_neg (by rw [show (s.atTime t).cap.armed = false from hno]; exact Bool.false_ne_true))
  · exact Gives.of_eq rfl (if_neg (by rw [show (s.atTime t).cap.armed = false from hno]; exact Bool.false_ne_true))
  · exact Gives.of_eq rfl (if_neg (by rw [show (s.atTime t).cap.recording = false from hno, Bool.and_false]; exact Bool.false_ne_true))
  · refine Gives.of_eq rfl (if_pos ?_)
    rw [show (s.atTime t).cap = s.cap from rfl, ha, hrec, htrig]
    exact Bool.and_eq_true_iff.2 ⟨Bool.and_eq_true_iff.2 ⟨hact, hb⟩, rfl⟩
  · have hu : (s.atTime t).capEnd codes = if w.capFull then w.capStop 0 else w := by
      refine (if_pos (Bool.and_eq_true_iff.2 ⟨ha, hrec⟩)).trans ?_
      have hcond : (if (s.atTime t).capFull || decide ((s.atTime t).capTapOf = 2) then s.atTime t
          else (s.atTime t).capTake s.capCarrier ((s.form s.capCarrier).symbolAt (s.atTime t).arrayNow) codes) = w := by
        rw [hw]
        exact if_congr (by rw [Bool.or_eq_true, decide_eq_true_eq]; exact Iff.rfl) rfl rfl
      exact congrArg (fun x : State => if x.capFull then x.capStop 0 else x) hcond
    obtain ⟨data, hdata⟩ : ∃ data, w = { s.atTime t with cap := { s.cap with data := data } } := by
      rw [hw]
      split
      · exact ⟨_, rfl⟩
      · exact capTake_keeps ..
    refine ⟨fun hfull => ⟨Gives.of_eq rfl (hu.trans (if_neg (by rw [hfull]; exact Bool.false_ne_true))), ?_, ?_, ?_⟩, fun hfull => ?_⟩
    · rw [hdata]
      rfl
    · rw [hdata]
      rfl
    · rw [hdata]
      exact ha
    · obtain ⟨h1, h2, h3, h4, -, -, h7⟩ := capStop_spec w (cause := 0) (by decide)
      refine ⟨_, Gives.of_eq rfl (hu.trans (if_pos hfull)), h1, h2, h3, h4, fun a ha => (h7 a ha).trans ?_⟩
      rw [hdata]
      rfl

/-! ### PRACH occasions -/

theorem State.car_modCar_same {s : State} {c : Nat} (h : c < s.carriers.length) (f : CarrierState → CarrierState) : (s.modCar c f).car c = f (s.car c) := by
  simp [State.car, State.modCar, h]

/-- What is counted as missed leaves the occasions and the gates of the landing. -/
theorem State.missedIn_keeps {s : State} {c : Nat} (h : c < s.carriers.length) (f : Nat → Fld) (n : Nat) (dl : Bool) :
    ((s.missedIn f c n dl).car c).occasions = (s.car c).occasions ∧ (s.missedIn f c n dl).gates = s.gates := by
  unfold State.missedIn
  extract_lets x
  generalize (if dl = true then x.missedDl else x.missedUl).contains n = already
  cases already with
  | true => exact ⟨rfl, rfl⟩
  | false =>
    refine ⟨(congrArg CarrierState.occasions (State.car_modCar_same h _)).trans ?_, rfl⟩
    cases dl <;> rfl

theorem claim_prachOccasions : Claim.PrachOccasions := by
  intro s t c k adc hlen
  have hc : c.val < (s.atTime t).carriers.length := lt_of_lt_of_eq c.isLt hlen.symm
  have hgone : (((s.atTime t).prachGone c.val k).car c.val).occasions = (s.car c.val).occasions.eraseIdx k :=
    congrArg CarrierState.occasions (State.car_modCar_same hc _)
  have hgonelen : c.val < ((s.atTime t).prachGone c.val k).carriers.length := lt_of_lt_of_eq hc (List.length_modify ..).symm
  refine ⟨fun hnone => ?_, fun o stop ho hstop => ?_⟩
  · refine Gives.of_eq rfl ?_
    rw [State.prachOccasion, show ((s.atTime t).car c.val).occasions[k]? = none from hnone]
  · have hu : (s.atTime t).prachOccasion c.val k adc = if (s.atTime t).arrayNow < stop then s.atTime t
        else if !s.carActive c.val then ((s.atTime t).prachGone c.val k).missed c.val ((s.form c.val).symbolAt o.start) false
        else if s.shedUp c.val then ((s.atTime t).prachGone c.val k).missedIn Reg.POWER.SHED_SYM.word c.val ((s.form c.val).symbolAt o.start) false
        else (s.atTime t).prachDone c.val k o adc := by
      rw [State.prachOccasion, show ((s.atTime t).car c.val).occasions[k]? = some o from ho, hstop]
      rfl
    refine ⟨fun h => Gives.of_eq rfl (hu.trans (if_pos h)), fun h => ?_⟩
    have hu := hu.trans (if_neg (Nat.not_lt.2 h))
    cases hact : s.carActive c.val with
    | false =>
      have hu := hu.trans (if_pos (by rw [hact]; rfl))
      obtain ⟨hocc, hgates⟩ := State.missedIn_keeps hgonelen Reg.RECOVERY.MISSED_SYM.word ((s.form c.val).symbolAt o.start) false
      exact ⟨_, Gives.of_eq rfl hu, hocc.trans hgone, nofun, fun _ => ⟨hgates, rfl⟩, nofun⟩
    | true =>
      have hu := hu.trans (if_neg (by rw [hact]; exact Bool.false_ne_true))
      cases hshed : s.shedUp c.val with
      | true =>
        have hu := hu.trans (if_pos hshed)
        obtain ⟨hocc, hgates⟩ := State.missedIn_keeps hgonelen Reg.POWER.SHED_SYM.word ((s.form c.val).symbolAt o.start) false
        exact ⟨_, Gives.of_eq rfl hu, hocc.trans hgone, nofun, nofun, fun _ _ => ⟨hgates, rfl⟩⟩
      | false =>
        have hu := hu.trans (if_neg (by rw [hshed]; exact Bool.false_ne_true))
        refine ⟨_, Gives.of_eq rfl hu, hgone, fun _ _ => ⟨_, rfl, rfl, rfl, ?_⟩, nofun, nofun⟩
        rw [hstop]
        rfl

/-- Settles O35: a capture by the branches of its commands, an occasion by what its carrier is worth when it ends. -/
theorem captureOutputs : Obligations.CaptureOutputs := ⟨claim_diagnosticCapture, claim_prachOccasions⟩

end Sys2Proof.Machine
end

