-- ==== Sys2Proof/Proofs/FronthaulPorts.lean ====
section
/-!
Bring-up of fronthaul ports, link faults and the return home (R372 to R375, R402 to R407).
-/

namespace Sys2Proof.Machine

open Sys2Proof

/-! ### One member of a list -/

/-- What one member of a list brings about, and the other members keep, holds after all of them. -/
theorem State.forEach_at {α : Type} {A B : State → Prop} {f : α → State → State} {a : α} {l : List α} {s : State} (hnodup : l.Nodup) (ha : a ∈ l) (hs : A s)
    (hother : ∀ b ∈ l, b ≠ a → ∀ x, A x → A (f b x)) (hreach : ∀ x, A x → B (f a x)) (hkeep : ∀ b ∈ l, b ≠ a → ∀ x, B x → B (f b x)) :
    B (s.forEach l f) := by
  induction l generalizing s with
  | nil => cases ha
  | cons b l ih =>
    obtain ⟨hb, hnodup⟩ := List.nodup_cons.1 hnodup
    rw [State.forEach, List.foldl_cons, ← State.forEach]
    by_cases hba : b = a
    · subst hba
      exact State.forEach_induct (hreach s hs) fun c hc x hx => hkeep c (List.mem_cons_of_mem _ hc) (fun h => hb (h ▸ hc)) x hx
    · exact ih hnodup ((List.mem_cons.1 ha).resolve_left (Ne.symm hba)) (hother b List.mem_cons_self hba s hs)
        (fun c hc => hother c (List.mem_cons_of_mem _ hc)) fun c hc => hkeep c (List.mem_cons_of_mem _ hc)

/-! ### Frames leave a port -/

/-- The partners' counters. -/
def pcntWords (a : Nat) : Prop := 0x404000 ≤ a ∧ a < 0x405000

theorem State.fhPort_modFhPort_same {s : State} {n : Nat} (h : n < s.fh.ports.length) (f : FhPort → FhPort) :
    (s.modFhPort n f).fhPort n = f (s.fhPort n) := by
  simp [State.fhPort, State.modFhPort, h]

theorem State.fhPort_modFhPort_other (s : State) {n m : Nat} (h : m ≠ n) (f : FhPort → FhPort) : (s.modFhPort n f).fhPort m = s.fhPort m := by
  simp [State.fhPort, State.modFhPort, Ne.symm h]

/-- The second state differs from the first at most in outputs, the partners' counters and port `n`. -/
structure FhSends (n : Nat) (s u : State) : Prop where
  shape : ∃ regs out ports, u = { s with regs := regs, out := out, fh := { s.fh with ports := ports } }
  words : SameOff pcntWords s u
  others : ∀ m, m ≠ n → u.fhPort m = s.fhPort m
  length : u.fh.ports.length = s.fh.ports.length

section

variable {n : Nat}

theorem FhSends.refl (s : State) : FhSends n s s := ⟨⟨_, _, _, rfl⟩, .refl s, fun _ _ => rfl, rfl⟩

theorem FhSends.trans {s u v : State} (hsu : FhSends n s u) (huv : FhSends n u v) : FhSends n s v := by
  refine ⟨?_, hsu.words.trans huv.words, fun m hm => (huv.others m hm).trans (hsu.others m hm), huv.length.trans hsu.length⟩
  obtain ⟨_, _, _, rfl⟩ := hsu.shape
  obtain ⟨_, _, _, rfl⟩ := huv.shape
  exact ⟨_, _, _, rfl⟩

theorem FhSends.forEach {α : Type} {s : State} {f : α → State → State} {l : List α} (hf : ∀ a ∈ l, ∀ x, FhSends n x (f a x)) :
    FhSends n s (s.forEach l f) :=
  State.forEach_induct (P := FhSends n s) (.refl s) fun a ha x hx => hx.trans (hf a ha x)

theorem fhSends_pcount (s : State) (e : Nat) (k : PCnt) (m : Nat) : FhSends n s (s.pcount e k m) := by
  unfold State.pcount
  split
  next he =>
    have hk : k.idx < 14 := by cases k <;> decide
    exact ⟨⟨_, _, _, rfl⟩, (SameOff.refl s).put (f := Reg.FRONTHAUL.PCNT.word e k.idx) (by simp only [pcntWords]; omega) _, fun _ _ => rfl, rfl⟩
  next => exact .refl s

theorem fhSends_emit (s : State) (o : Output) : FhSends n s (s.emit o) := ⟨⟨_, _, _, rfl⟩, .of_regs rfl, fun _ _ => rfl, rfl⟩

theorem fhSends_modFhPort (s : State) (f : FhPort → FhPort) : FhSends n s (s.modFhPort n f) :=
  ⟨⟨_, _, _, rfl⟩, .of_regs rfl, fun _ hm => s.fhPort_modFhPort_other hm f, List.length_modify ..⟩

theorem fhSends_sendBefore (s : State) (n edge : Nat) : FhSends n s (s.sendBefore n edge) := by
  unfold State.sendBefore
  extract_lets gone busy u at0
  have hu : FhSends n s u := .forEach fun f _ x => by
    dsimp only
    split
    · exact (fhSends_pcount ..).trans (fhSends_emit ..)
    · exact fhSends_emit ..
  exact hu.trans (fhSends_modFhPort u _)

theorem fhSends_drainPort (s : State) (n : Nat) : FhSends n s (s.drainPort n) := fhSends_sendBefore s n _

theorem fhSends_queueFrame (s : State) (n release seq : Nat) (again : Bool) (f : UFrame) : FhSends n s (s.queueFrame n release seq again f) :=
  (fhSends_sendBefore s n s.now).trans (fhSends_modFhPort _ _)

end

/-- Where nothing waits, a port sends nothing (R393). -/
theorem State.sendBefore_of_empty {s : State} {n : Nat} (h : (s.fhPort n).queue = []) (edge : Nat) :
    ∃ f : FhPort → FhPort, s.sendBefore n edge = s.modFhPort n f ∧ ∀ x, (f x).queue = x.queue := by
  unfold State.sendBefore
  rw [h]
  exact ⟨_, rfl, fun _ => rfl⟩

/-! ### Flows that move -/

/-- The second state differs from the first at most in outputs, the registers of `A` and the ports other than `n`. -/
structure FhMoves (n : Nat) (A : Nat → Prop) (s u : State) : Prop where
  shape : ∃ regs out ports, u = { s with regs := regs, out := out, fh := { s.fh with ports := ports } }
  words : SameOff A s u
  port : u.fhPort n = s.fhPort n
  length : u.fh.ports.length = s.fh.ports.length

theorem FhMoves.refl (n : Nat) (A : Nat → Prop) (s : State) : FhMoves n A s s := ⟨⟨_, _, _, rfl⟩, .refl s, rfl, rfl⟩

theorem FhMoves.trans {n : Nat} {A : Nat → Prop} {s u v : State} (hsu : FhMoves n A s u) (huv : FhMoves n A u v) : FhMoves n A s v := by
  refine ⟨?_, hsu.words.trans huv.words, huv.port.trans hsu.port, huv.length.trans hsu.length⟩
  obtain ⟨_, _, _, rfl⟩ := hsu.shape
  obtain ⟨_, _, _, rfl⟩ := huv.shape
  exact ⟨_, _, _, rfl⟩

theorem FhMoves.mono {n : Nat} {A B : Nat → Prop} {s u : State} (h : FhMoves n A s u) (hAB : ∀ a, A a → B a) : FhMoves n B s u :=
  ⟨h.shape, h.words.mono hAB, h.port, h.length⟩

theorem FhSends.moves {n m : Nat} {s u : State} (h : FhSends m s u) (hnm : n ≠ m) : FhMoves n pcntWords s u :=
  ⟨h.shape, h.words, h.others n hnm, h.length⟩

/-- The port that takes over the flows of an entry from `port` (R403). -/
def State.otherPort (s : State) (e port : Nat) : Nat :=
  if port = s.get (Reg.FRONTHAUL.PT_CTL.home e) then s.get (Reg.FRONTHAUL.PT_CTL.alt e) else s.get (Reg.FRONTHAUL.PT_CTL.home e)

/-- What a fault of `port` makes of an entry's flows: they move to the other port, or their partner is unreachable (R403, R406). -/
def State.Failed (s u : State) (e port : Nat) : Prop :=
  (s.otherPort e port ≠ port → s.fhUpOn (s.otherPort e port) = true → u.get (Reg.FRONTHAUL.PT_STATUS.port e) = s.otherPort e port) ∧
    (s.otherPort e port = port ∨ s.fhUpOn (s.otherPort e port) = false → u.get (Reg.FRONTHAUL.PT_STATUS.unreachable e) = 1)

/-- The registers that the move of one entry's flows changes. -/
def entryWords (e a : Nat) : Prop := pcntWords a ∨ a = (Reg.FRONTHAUL.PT_STATUS.word e).addr

section

variable {s : State} {e port : Nat}

theorem failoverEntry_spec (he : e < 64) (cut : Nat) (lost : List SentFrame) :
    FhMoves port (entryWords e) s (s.failoverEntry e port cut lost) ∧ s.Failed (s.failoverEntry e port cut lost) e port := by
  obtain ⟨o, ho⟩ : ∃ o, o = s.otherPort e port := ⟨_, rfl⟩
  obtain ⟨mine, hmine⟩ : ∃ mine, mine = lost.filter fun f => f.frame.entry == e := ⟨_, rfl⟩
  have hput (f : Fld) (hf : f.addr = (Reg.FRONTHAUL.PT_STATUS.word e).addr) (v : Nat) : FhMoves port (entryWords e) s (s.put f v) :=
    ⟨⟨_, _, _, rfl⟩, (SameOff.refl s).put (.inr hf) v, rfl, rfl⟩
  have hout : ¬ pcntWords (Reg.FRONTHAUL.PT_STATUS.word e).addr := by simp only [pcntWords]; omega
  have hu : s.failoverEntry e port cut lost =
      if s.fhUpOn o && o != port then
        (s.put (Reg.FRONTHAUL.PT_STATUS.port e) o).forEach mine fun f s =>
          s.queueFrame o f.release f.seq (decide (f.start ≤ s.now) && decide (cut ≤ f.start)) f.frame
      else (s.put (Reg.FRONTHAUL.PT_STATUS.unreachable e) 1).pcount e .ulDiscard (countIf (fun f => decide (s.now < f.start)) mine) := by
    rw [ho, hmine]
    rfl
  rw [State.Failed, hu, ← ho]
  by_cases hcond : s.fhUpOn o = true ∧ o ≠ port
  · obtain ⟨hup, hne⟩ := hcond
    have ho8 : o < 8 := by
      rw [State.fhUpOn, Bool.and_eq_true, decide_eq_true_eq] at hup
      exact hup.1
    have hmoves := (FhSends.forEach (n := o) (s := s.put (Reg.FRONTHAUL.PT_STATUS.port e) o) (l := mine)
      (f := fun f s => s.queueFrame o f.release f.seq (decide (f.start ≤ s.now) && decide (cut ≤ f.start)) f.frame)
      fun f _ x => fhSends_queueFrame x o _ _ _ _)
    have hyes : (s.fhUpOn o && o != port) = true := by
      rw [hup, bne_iff_ne.2 hne]
      rfl
    rw [if_pos hyes]
    refine ⟨(hput (Reg.FRONTHAUL.PT_STATUS.port e) rfl o).trans ((hmoves.moves (Ne.symm hne)).mono fun a ha => .inl ha), fun _ _ => ?_, fun h => ?_⟩
    · rw [hmoves.words.get (f := Reg.FRONTHAUL.PT_STATUS.port e) hout, State.get_put_same _ rfl]
      exact Nat.mod_eq_of_lt ho8
    · rcases h with h | h
      · exact absurd h hne
      · exact absurd (h.symm.trans hup) (by decide)
  · have hno : ¬ (s.fhUpOn o && o != port) = true := by
      rw [Bool.and_eq_true, bne_iff_ne]
      exact hcond
    have hcount : FhSends (port + 1) (s.put (Reg.FRONTHAUL.PT_STATUS.unreachable e) 1) _ :=
      fhSends_pcount _ e .ulDiscard (countIf (fun f => decide (s.now < f.start)) mine)
    rw [if_neg hno]
    refine ⟨(hput (Reg.FRONTHAUL.PT_STATUS.unreachable e) rfl 1).trans ((hcount.moves (by omega)).mono fun a ha => .inl ha), fun h1 h2 => absurd ⟨h2, h1⟩ hcond, fun _ => ?_⟩
    rw [hcount.words.get (f := Reg.FRONTHAUL.PT_STATUS.unreachable e) hout, State.get_put_same _ rfl]
    rfl

theorem State.otherPort_congr {u : State} (h : u.word (Reg.FRONTHAUL.PT_CTL.word e).addr = s.word (Reg.FRONTHAUL.PT_CTL.word e).addr) (port : Nat) :
    u.otherPort e port = s.otherPort e port := by
  rw [State.otherPort, State.otherPort, State.get, State.get, State.get, State.get, h]

end

/-- The registers of the partner table that a link fault changes. -/
def faultWords (a : Nat) : Prop := pcntWords a ∨ ∃ e < 64, a = (Reg.FRONTHAUL.PT_STATUS.word e).addr

theorem faultWords_bounds {a : Nat} (h : faultWords a) : (0x401000 ≤ a ∧ a < 0x401800 ∧ a % 32 = 16) ∨ (0x404000 ≤ a ∧ a < 0x405000) := by
  rcases h with h | ⟨e, he, rfl⟩
  · exact .inr h
  · exact .inl ⟨by dsimp only; omega, by dsimp only; omega, by dsimp only; omega⟩

/-- The flows of the entries on a port that is no longer UP move, each as the other ports stand; other entries keep their flows (R403, R406). -/
theorem failover_spec (s : State) (port : Nat) :
    ∃ v : State, v = (s.modFhPort port fun y => { y with queue := [], journal := [], busy := 0 }) ∧ FhMoves port faultWords v (s.failover port) ∧
      ∀ e, e < 64 →
        (s.ptState e ≠ ptEmpty → s.get (Reg.FRONTHAUL.PT_STATUS.port e) = port → s.Failed (s.failover port) e port) ∧
        (s.get (Reg.FRONTHAUL.PT_STATUS.port e) ≠ port →
          (s.failover port).word (Reg.FRONTHAUL.PT_STATUS.word e).addr = s.word (Reg.FRONTHAUL.PT_STATUS.word e).addr) := by
  obtain ⟨v, hv⟩ : ∃ v : State, v = s.modFhPort port fun y => { y with queue := [], journal := [], busy := 0 } := ⟨_, rfl⟩
  obtain ⟨cut, lost, l, hl, hu⟩ : ∃ cut lost, ∃ l : List Nat, l = v.ptUsed.filter (fun n => v.get (Reg.FRONTHAUL.PT_STATUS.port n) == port) ∧
      s.failover port = v.forEach l fun n s => s.failoverEntry n port cut lost := ⟨_, _, _, rfl, by rw [hv]; rfl⟩
  have hl64 : ∀ e ∈ l, e < 64 := fun e he => by
    rw [hl] at he
    exact List.mem_range.1 (List.mem_of_mem_filter (List.mem_of_mem_filter he))
  have hword (a : Nat) : v.word a = s.word a := by
    rw [hv]
    rfl
  refine ⟨v, hv, ?_, fun e he => ⟨fun hused hon => ?_, fun hoff => ?_⟩⟩
  · rw [hu]
    exact State.forEach_induct (P := FhMoves port faultWords v) (.refl ..) fun e he x hx =>
      hx.trans ((failoverEntry_spec (hl64 e he) cut lost).1.mono fun a ha => ha.imp_right fun h => ⟨e, hl64 e he, h⟩)
  · have hmem : e ∈ l := by
      rw [hl, List.mem_filter, State.ptUsed, List.mem_filter, beq_iff_eq, State.ptState, State.get, State.get, hword]
      exact ⟨⟨List.mem_range.2 he, bne_iff_ne.2 hused⟩, hon⟩
    have hnodup : l.Nodup := by
      rw [hl]
      exact (List.nodup_range.filter _).filter _
    have hother (b : Nat) (hb : b ∈ l) (hbe : b ≠ e) (x : State) : SameOff (fun a => pcntWords a ∨ ∃ d, d < 64 ∧ d ≠ e ∧ a = (Reg.FRONTHAUL.PT_STATUS.word d).addr) x
        (x.failoverEntry b port cut lost) :=
      (failoverEntry_spec (hl64 b hb) cut lost).1.words.mono fun a ha => ha.imp_right fun h => ⟨b, hl64 b hb, hbe, h⟩
    rw [hu]
    refine State.forEach_at
      (A := fun x => SameOff (fun a => pcntWords a ∨ ∃ d, d < 64 ∧ d ≠ e ∧ a = (Reg.FRONTHAUL.PT_STATUS.word d).addr) v x)
      (B := fun x => s.Failed x e port) hnodup hmem (.refl v) (fun b hb hbe x hx => hx.trans (hother b hb hbe x)) (fun x hx => ?_)
      fun b hb hbe x hx => ?_
    · have hsame (a : Nat) (ha : a < 0x401000 ∨ (a < 0x404000 ∧ a % 32 = 12)) : x.word a = s.word a := by
        refine (hx a fun h => ?_).trans (hword a)
        rcases h with ⟨h1, h2⟩ | ⟨d, hd, -, rfl⟩
        · omega
        · dsimp only at ha
          omega
      have hctl : x.otherPort e port = s.otherPort e port := State.otherPort_congr (hsame _ (.inr ⟨by dsimp only; omega, by dsimp only; omega⟩)) port
      have hup (m : Nat) : x.fhUpOn m = s.fhUpOn m := by
        unfold State.fhUpOn
        by_cases hm : m < 8
        · rw [State.fhPortState, State.fhPortState, State.get, State.get, hsame _ (.inl (by dsimp only; omega))]
        · simp [hm]
      have hspec := (failoverEntry_spec (s := x) (port := port) he cut lost).2
      rwa [State.Failed, hctl, hup] at hspec
    · have hget (f : Fld) (hf : f.addr = (Reg.FRONTHAUL.PT_STATUS.word e).addr) : (x.failoverEntry b port cut lost).get f = x.get f :=
        (hother b hb hbe x).get (by
          rw [hf]
          rintro (⟨h1, h2⟩ | ⟨d, hd, hde, h⟩)
          · dsimp only at h1
            omega
          · dsimp only at h
            omega)
      rw [State.Failed, hget (Reg.FRONTHAUL.PT_STATUS.port e) rfl, hget (Reg.FRONTHAUL.PT_STATUS.unreachable e) rfl]
      exact hx
  · have hwords : SameOff (fun a => pcntWords a ∨ ∃ d, d < 64 ∧ d ≠ e ∧ a = (Reg.FRONTHAUL.PT_STATUS.word d).addr) v (s.failover port) := by
      rw [hu]
      refine State.forEach_induct (P := SameOff (fun a => pcntWords a ∨ ∃ d, d < 64 ∧ d ≠ e ∧ a = (Reg.FRONTHAUL.PT_STATUS.word d).addr) v) (.refl v)
        fun b hb x hx => hx.trans ((failoverEntry_spec (hl64 b hb) cut lost).1.words.mono fun a ha => ha.imp_right fun h => ⟨b, hl64 b hb, ?_, h⟩)
      rintro rfl
      rw [hl] at hb
      have := beq_iff_eq.1 (List.mem_filter.1 hb).2
      rw [State.get, hword] at this
      exact hoff this
    refine (hwords _ ?_).trans (hword _)
    rintro (⟨h1, h2⟩ | ⟨d, hd, hde, h⟩)
    · dsimp only at h1
      omega
    · dsimp only at h
      omega

/-! ### Link faults -/

/-- A port in UP that a link fault has taken to LISTEN, before its flows move (R375). -/
def State.faulted (s : State) (n cause : Nat) : State :=
  (((((s.drainPort n).put (Reg.FRONTHAUL.PORT_STATUS.fault_cause n) cause).bump (Reg.FRONTHAUL.PORT_STATUS.link_faults n)).fhEnter n fhListen).modFhPort n
    fun x => { x with noticed := false })

theorem State.linkFault_of_up {s : State} {n cause : Nat} (hup : s.fhUpOn n = true) (hcause : cause ≠ 6) :
    s.linkFault n cause =
      ((s.faulted n cause).failover n).record { kind := .fault, cls := 0x0A, unit := unitFronthaul, inst := n, cause := cause, action := 7 } := by
  refine (if_neg (by rw [hup]; exact Bool.false_ne_true)).trans ((if_neg hcause).trans ?_)
  rw [if_neg hcause]
  rfl

theorem faulted_spec {s : State} {n cause : Nat} (hn : n < 8) (hlen : s.fh.ports.length = 8) (hcause : cause < 16) :
    (s.faulted n cause).fhPortState n = fhListen ∧ (s.faulted n cause).get (Reg.FRONTHAUL.PORT_STATUS.fault_cause n) = cause ∧
      (s.faulted n cause).get (Reg.FRONTHAUL.PORT_STATUS.link_faults n) = (s.get (Reg.FRONTHAUL.PORT_STATUS.link_faults n) + 1) % 256 ∧
      SameOff (fun a => pcntWords a ∨ a = (Reg.FRONTHAUL.PORT_STATUS.word n).addr) s (s.faulted n cause) ∧ (s.faulted n cause).fh.ports.length = 8 := by
  have hdrain := fhSends_drainPort s n
  have hregs : (s.faulted n cause).regs = ((((s.drainPort n).put (Reg.FRONTHAUL.PORT_STATUS.fault_cause n) cause).bump
    (Reg.FRONTHAUL.PORT_STATUS.link_faults n)).put (Reg.FRONTHAUL.PORT_STATUS.state n) fhListen).regs := rfl
  have hget (f : Fld) := State.get_of_regs hregs f
  have hout (f : Fld) (hf : f.addr = (Reg.FRONTHAUL.PORT_STATUS.word n).addr) : (s.drainPort n).get f = s.get f :=
    hdrain.words.get (by rw [hf]; simp only [pcntWords]; omega)
  refine ⟨?_, ?_, ?_, ?_, ?_⟩
  · rw [State.fhPortState, hget, State.get_put_same _ rfl]
    rfl
  · rw [hget, State.get_put_apart _ rfl (by simp [Fld.apart]), State.get_bump_apart _ rfl (by simp [Fld.apart]), State.get_put_same _ rfl]
    exact Nat.mod_eq_of_lt hcause
  · rw [hget, State.get_put_apart _ rfl (by simp [Fld.apart]), State.get_bump_same _ rfl, State.get_put_apart _ rfl (by simp [Fld.apart]),
      hout (Reg.FRONTHAUL.PORT_STATUS.link_faults n) rfl]
    rfl
  · have hstart : SameOff (fun a => pcntWords a ∨ a = (Reg.FRONTHAUL.PORT_STATUS.word n).addr) s (s.drainPort n) := hdrain.words.mono fun a ha => .inl ha
    exact (((hstart.put (f := Reg.FRONTHAUL.PORT_STATUS.fault_cause n) (.inr rfl) cause).put (f := Reg.FRONTHAUL.PORT_STATUS.link_faults n) (.inr rfl) _).put
      (f := Reg.FRONTHAUL.PORT_STATUS.state n) (.inr rfl) fhListen).trans (.of_regs hregs)
  · exact ((List.length_modify ..).trans (List.length_modify ..)).trans (hdrain.length.trans hlen)

theorem State.fh_record (s : State) (x : Rec) : (s.record x).fh = s.fh := by
  obtain ⟨_, _, _, _, _, h⟩ := logApart_record s x
  rw [h]

/-- What a link fault of port `n` makes of its registers, its journal, the log and the flows on it (R375, R403). -/
def State.LinkFailed (s u : State) (n cause : Nat) : Prop :=
  u.fhPortState n = fhListen ∧ u.get (Reg.FRONTHAUL.PORT_STATUS.fault_cause n) = cause ∧
    u.get (Reg.FRONTHAUL.PORT_STATUS.link_faults n) = (s.get (Reg.FRONTHAUL.PORT_STATUS.link_faults n) + 1) % 256 ∧ (u.fhPort n).journal = [] ∧
    (u.log.head?.map fun r => (r.kind, r.cls, r.unit, r.inst, r.cause)) = some (1, 0x0A, unitFronthaul, n, cause) ∧
    ∀ e, e < 64 →
      (s.ptState e ≠ ptEmpty → s.get (Reg.FRONTHAUL.PT_STATUS.port e) = n → s.Failed u e n) ∧
      (s.get (Reg.FRONTHAUL.PT_STATUS.port e) ≠ n →
        u.word (Reg.FRONTHAUL.PT_STATUS.word e).addr = s.word (Reg.FRONTHAUL.PT_STATUS.word e).addr)

/-- The flows of the other ports as the fault finds them are the flows of the state before it. -/
theorem failed_of_faulted {s w u : State} {n e : Nat} (he : e < 64)
    (hwords : SameOff (fun a => pcntWords a ∨ a = (Reg.FRONTHAUL.PORT_STATUS.word n).addr) s w) (h : w.Failed u e n) : s.Failed u e n := by
  have hctl : w.otherPort e n = s.otherPort e n := State.otherPort_congr (hwords _ fun h => by
    rcases h with ⟨h3, h4⟩ | h
    · dsimp only at h3 h4
      omega
    · dsimp only at h
      omega) n
  have hupo (o : Nat) (ho : o ≠ n) : w.fhUpOn o = s.fhUpOn o := by
    unfold State.fhUpOn
    by_cases h8 : o < 8
    · rw [State.fhPortState, State.fhPortState, hwords.get (fun h => ?_)]
      rcases h with ⟨h3, -⟩ | h
      · dsimp only at h3
        omega
      · dsimp only at h
        omega
    · simp [h8]
  obtain ⟨h1, h2⟩ := h
  rw [hctl] at h1 h2
  refine ⟨fun hne hup => h1 hne ((hupo _ hne).trans hup), fun h => h2 ?_⟩
  by_cases hne : s.otherPort e n = n
  · exact .inl hne
  · exact .inr ((hupo _ hne).trans (h.resolve_left hne))

theorem linkFailed_of_failover {s w v u : State} {n cause : Nat} {x : Rec} (hn : n < 8)
    (hx : x = { kind := .fault, cls := 0x0A, unit := unitFronthaul, inst := n, cause := cause, action := 7 })
    (hw : w.fhPortState n = fhListen ∧ w.get (Reg.FRONTHAUL.PORT_STATUS.fault_cause n) = cause ∧
      w.get (Reg.FRONTHAUL.PORT_STATUS.link_faults n) = (s.get (Reg.FRONTHAUL.PORT_STATUS.link_faults n) + 1) % 256 ∧
      SameOff (fun a => pcntWords a ∨ a = (Reg.FRONTHAUL.PORT_STATUS.word n).addr) s w ∧ w.fh.ports.length = 8)
    (hv : v = w.failover n) (hu : u = v.record x) : s.LinkFailed u n cause := by
  obtain ⟨hstate, hfc, hlf, hwords, hflen⟩ := hw
  obtain ⟨z, hz, hmoves, hentries⟩ := failover_spec w n
  rw [← hv] at hmoves hentries
  have hzget (f : Fld) : z.get f = w.get f := by
    rw [hz]
    rfl
  have hstatus (f : Fld) (hf : f.addr = (Reg.FRONTHAUL.PORT_STATUS.word n).addr) : u.get f = w.get f := by
    rw [hu, State.get_record _ _ (by rw [hf]; simp [recordWords]; omega), hmoves.words.get (fun h => ?_), hzget]
    have := faultWords_bounds h
    rw [hf] at this
    dsimp only at this
    omega
  refine ⟨(hstatus (Reg.FRONTHAUL.PORT_STATUS.state n) rfl).trans hstate, (hstatus (Reg.FRONTHAUL.PORT_STATUS.fault_cause n) rfl).trans hfc,
    (hstatus (Reg.FRONTHAUL.PORT_STATUS.link_faults n) rfl).trans hlf, ?_, ?_, fun e he => ?_⟩
  · rw [hu, State.fhPort, State.fh_record, ← State.fhPort, hmoves.port, hz, State.fhPort_modFhPort_same (by rw [hflen]; exact hn)]
  · rw [hu, State.head_log_record, Option.map_some, State.recordOf, hx]
    rfl
  · have hsame (a : Nat) (h1 : 0x401000 ≤ a) (h2 : a < 0x404000) : w.word a = s.word a := hwords a fun h => by
      rcases h with ⟨h3, -⟩ | h
      · omega
      · dsimp only at h
        omega
    have hrec (f : Fld) (hf : f.addr = (Reg.FRONTHAUL.PT_STATUS.word e).addr) : u.get f = v.get f := by
      rw [hu]
      exact State.get_record _ _ (by rw [hf]; simp [recordWords]; omega)
    obtain ⟨hon, hoff⟩ := hentries e he
    rw [State.get, hsame _ (by dsimp only; omega) (by dsimp only; omega)] at hon hoff
    refine ⟨fun hused hport => failed_of_faulted he hwords ?_, fun hport => ?_⟩
    · have hused' : w.ptState e ≠ ptEmpty := by
        rwa [State.ptState, State.get, hsame _ (by dsimp only; omega) (by dsimp only; omega)]
      have hfailed := hon hused' hport
      rw [State.Failed, hrec (Reg.FRONTHAUL.PT_STATUS.port e) rfl, hrec (Reg.FRONTHAUL.PT_STATUS.unreachable e) rfl]
      exact hfailed
    · rw [hu, sameOff_record v x _ (by simp [recordWords]; omega)]
      exact hoff hport

theorem linkFault_spec {s : State} {n cause : Nat} (hn : n < 8) (hlen : s.fh.ports.length = 8) (hcause : cause < 16) (h6 : cause ≠ 6)
    (hup : s.fhPortState n = fhUp) : s.LinkFailed (s.linkFault n cause) n cause := by
  have hupOn : s.fhUpOn n = true := by
    rw [State.fhUpOn, hup, decide_eq_true hn]
    rfl
  exact linkFailed_of_failover hn rfl (faulted_spec hn hlen hcause) rfl (State.linkFault_of_up hupOn h6)


/-! ### Bring-up -/

section

variable {s : State} {n : Nat}

theorem State.fhPortState_fhEnter (s : State) {n st : Nat} (hst : st < 16) : (s.fhEnter n st).fhPortState n = st := by
  have hregs : (s.fhEnter n st).regs = (s.put (Reg.FRONTHAUL.PORT_STATUS.state n) st).regs := rfl
  rw [State.fhPortState, State.get_of_regs hregs, State.get_put_same _ rfl]
  exact Nat.mod_eq_of_lt hst

theorem State.fhPort_fhEnter {st : Nat} (hn : n < s.fh.ports.length) : (s.fhEnter n st).fhPort n = { s.fhPort n with since := s.now } :=
  State.fhPort_modFhPort_same (s := s.put (Reg.FRONTHAUL.PORT_STATUS.state n) st) hn fun x => { x with since := s.now }

theorem nodup_fhLanes (s : State) (n : Nat) : (s.fhLanes n).Nodup := by
  refine List.Nodup.map_on (fun a _ b _ h => ?_) List.nodup_range
  omega

/-- The figures of merit that training leaves, each shown and committed on its lane (R373). -/
def State.withFoms (s : State) (l : List (Nat × Nat)) : State :=
  s.forEach l fun e s => (s.put (Reg.FRONTHAUL.LANE_RX.fom e.1) e.2).put (Reg.FRONTHAUL.LANE_RX.fom_committed e.1) e.2

/-- The words of the lanes' figures of merit. -/
def fomWords (a : Nat) : Prop := ∃ k, a = (Reg.FRONTHAUL.LANE_RX.word k).addr

theorem sameOff_withFoms (s : State) (l : List (Nat × Nat)) : SameOff fomWords s (s.withFoms l) :=
  State.forEach_induct (P := SameOff fomWords s) (.refl s) fun e _ _ hx =>
    (hx.put (f := Reg.FRONTHAUL.LANE_RX.fom e.1) ⟨e.1, rfl⟩ e.2).put (f := Reg.FRONTHAUL.LANE_RX.fom_committed e.1) ⟨e.1, rfl⟩ e.2

theorem State.fom_withFoms (s : State) {l : List (Nat × Nat)} (hl : (l.map Prod.fst).Nodup) (hfom : ∀ e ∈ l, e.2 < 256) {e : Nat × Nat} (he : e ∈ l) :
    (s.withFoms l).get (Reg.FRONTHAUL.LANE_RX.fom e.1) = e.2 ∧ (s.withFoms l).get (Reg.FRONTHAUL.LANE_RX.fom_committed e.1) = e.2 := by
  refine State.forEach_at (A := fun _ => True) (B := fun x => x.get (Reg.FRONTHAUL.LANE_RX.fom e.1) = e.2 ∧ x.get (Reg.FRONTHAUL.LANE_RX.fom_committed e.1) = e.2)
    (List.Nodup.of_map _ hl) he trivial (fun _ _ _ _ _ => trivial) (fun _ _ => ⟨?_, ?_⟩) fun b hb hbe x hx => ?_
  · rw [State.get_put_apart _ rfl (by simp [Fld.apart]), State.get_put_same _ rfl]
    exact Nat.mod_eq_of_lt (hfom e he)
  · rw [State.get_put_same _ rfl]
    exact Nat.mod_eq_of_lt (hfom e he)
  · have hne : b.1 ≠ e.1 := fun h => hbe (List.inj_on_of_nodup_map hl hb he h)
    have haddr : 0x400404 + 0x20 * b.1 ≠ 0x400404 + 0x20 * e.1 := by omega
    rw [State.get_put_elsewhere _ haddr, State.get_put_elsewhere _ haddr, State.get_put_elsewhere _ haddr, State.get_put_elsewhere _ haddr]
    exact hx

theorem trainDone_spec {foms : List Nat} (hn : n < 8) (hst : s.fhPortState n = fhTrain) (hlen : foms.length = (s.fhLanes n).length) :
    ∃ v u, v = s.withFoms ((s.fhLanes n).zip foms) ∧ s.trainDone n foms = u ∧ SameOff (fun a => a < 0x400400) v u ∧
      u.fhPortState n = if ∀ f ∈ foms, s.get (Reg.FRONTHAUL.PORT_CTL.fom_min n) ≤ f then fhAlign else fhTrain := by
  obtain ⟨v, hv⟩ : ∃ v, v = s.withFoms ((s.fhLanes n).zip foms) := ⟨_, rfl⟩
  have hu : s.trainDone n foms =
      if (foms.length == (s.fhLanes n).length && foms.all fun f => decide (v.get (Reg.FRONTHAUL.PORT_CTL.fom_min n) ≤ f)) = true then v.fhEnter n fhAlign else v := by
    rw [hv]
    exact if_neg (by rw [hst]; decide)
  have hlow (f : Fld) (hf : f.addr < 0x400400) : v.get f = s.get f := by
    rw [hv]
    exact (sameOff_withFoms _ _).get (by rintro ⟨k, hk⟩; dsimp only at hk; omega)
  have hcond : (foms.length == (s.fhLanes n).length && foms.all fun f => decide (v.get (Reg.FRONTHAUL.PORT_CTL.fom_min n) ≤ f)) = true ↔
      ∀ f ∈ foms, s.get (Reg.FRONTHAUL.PORT_CTL.fom_min n) ≤ f := by
    rw [hlow _ (by dsimp only; omega)]
    simp [hlen]
  refine ⟨v, _, hv, rfl, ?_, ?_⟩ <;> rw [hu]
  · split
    · have hregs : (v.fhEnter n fhAlign).regs = (v.put (Reg.FRONTHAUL.PORT_STATUS.state n) fhAlign).regs := rfl
      exact ((SameOff.refl v).put (f := Reg.FRONTHAUL.PORT_STATUS.state n) (by dsimp only; omega) fhAlign).trans (.of_regs hregs)
    · exact .refl v
  · simp only [hcond]
    split
    · exact v.fhPortState_fhEnter (by decide)
    · exact (hlow (Reg.FRONTHAUL.PORT_STATUS.state n) (by dsimp only; omega)).trans hst

/-- An entry whose flows no port carries comes back to port `n` where that is one of its two (R402, R406). -/
def takeBack (n e : Nat) (s : State) : State :=
  if s.get (Reg.FRONTHAUL.PT_CTL.home e) == n || s.get (Reg.FRONTHAUL.PT_CTL.alt e) == n then
    (s.put (Reg.FRONTHAUL.PT_STATUS.port e) n).put (Reg.FRONTHAUL.PT_STATUS.unreachable e) 0
  else s

theorem sameOff_takeBack (n e : Nat) (s : State) : SameOff (· = (Reg.FRONTHAUL.PT_STATUS.word e).addr) s (takeBack n e s) := by
  unfold takeBack
  split
  · have hs : SameOff (· = (Reg.FRONTHAUL.PT_STATUS.word e).addr) s s := .refl s
    exact (hs.put (f := Reg.FRONTHAUL.PT_STATUS.port e) rfl n).put (f := Reg.FRONTHAUL.PT_STATUS.unreachable e) rfl 0
  · exact .refl s

theorem fh_takeBack (n e : Nat) (s : State) : (takeBack n e s).fh = s.fh := by
  unfold takeBack
  split <;> rfl

/-- A port that reaches UP takes back the flows of its partners that no port carries (R402, R406). -/
theorem fhPortUp_spec (hn : n < 8) (hlen : s.fh.ports.length = 8) :
    (s.fhPortUp n).fhPortState n = fhUp ∧ ((s.fhPortUp n).fhPort n).queue = [] ∧
      ∀ e, e < 64 → s.ptState e ≠ ptEmpty → s.get (Reg.FRONTHAUL.PT_STATUS.unreachable e) = 1 →
        (s.get (Reg.FRONTHAUL.PT_CTL.home e) = n ∨ s.get (Reg.FRONTHAUL.PT_CTL.alt e) = n) →
        (s.fhPortUp n).get (Reg.FRONTHAUL.PT_STATUS.unreachable e) = 0 ∧ (s.fhPortUp n).get (Reg.FRONTHAUL.PT_STATUS.port e) = n := by
  obtain ⟨v, hv⟩ : ∃ v : State, v = (s.fhEnter n fhUp).modFhPort n fun x => { x with noticed := false, queue := [], journal := [], busy := 0 } := ⟨_, rfl⟩
  obtain ⟨l, hl, hu⟩ : ∃ l, l = v.ptUsed.filter (fun e => v.flag (Reg.FRONTHAUL.PT_STATUS.unreachable e)) ∧ s.fhPortUp n = v.forEach l (takeBack n) :=
    ⟨_, rfl, by rw [hv]; rfl⟩
  have hregs : v.regs = (s.put (Reg.FRONTHAUL.PORT_STATUS.state n) fhUp).regs := by
    rw [hv]
    rfl
  have hstart : SameOff (· = (Reg.FRONTHAUL.PORT_STATUS.word n).addr) s s := .refl s
  have hwords : SameOff (· = (Reg.FRONTHAUL.PORT_STATUS.word n).addr) s v :=
    (hstart.put (f := Reg.FRONTHAUL.PORT_STATUS.state n) rfl fhUp).trans (.of_regs hregs)
  have hstatus : SameOff (fun a => ∃ e, a = (Reg.FRONTHAUL.PT_STATUS.word e).addr) v (s.fhPortUp n) := by
    rw [hu]
    exact State.forEach_induct (P := SameOff _ v) (.refl v) fun e _ x hx => hx.trans ((sameOff_takeBack n e x).mono fun a ha => ⟨e, ha⟩)
  refine ⟨?_, ?_, fun e he hused hun hport => ?_⟩
  · rw [State.fhPortState, hstatus.get (by rintro ⟨k, hk⟩; dsimp only at hk; omega), State.get_of_regs hregs, State.get_put_same _ rfl]
    rfl
  · have hfh : (s.fhPortUp n).fh = v.fh := by
      rw [hu]
      exact State.forEach_keeps State.fh (fh_takeBack n) v l
    rw [State.fhPort, hfh, hv, ← State.fhPort, State.fhPort_modFhPort_same (by rw [State.fhEnter]; simpa [State.modFhPort] using hlen ▸ hn)]
  · have hlow (f : Fld) (hf : f.addr % 64 ≠ 4) : v.get f = s.get f := hwords.get (by dsimp only; omega)
    have hmem : e ∈ l := by
      rw [hl, List.mem_filter, State.ptUsed, List.mem_filter, State.flag_iff, State.ptState, hlow _ (by dsimp only; omega), hlow _ (by dsimp only; omega)]
      exact ⟨⟨List.mem_range.2 he, bne_iff_ne.2 hused⟩, by rw [hun]; decide⟩
    have hnodup : l.Nodup := by
      rw [hl]
      exact (List.nodup_range.filter _).filter _
    rw [hu]
    refine State.forEach_at
      (A := fun x => SameOff (fun a => ∃ d, d ≠ e ∧ a = (Reg.FRONTHAUL.PT_STATUS.word d).addr) v x)
      (B := fun x => x.get (Reg.FRONTHAUL.PT_STATUS.unreachable e) = 0 ∧ x.get (Reg.FRONTHAUL.PT_STATUS.port e) = n) hnodup hmem (.refl v)
      (fun b _ hbe x hx => hx.trans ((sameOff_takeBack n b x).mono fun a ha => ⟨b, hbe, ha⟩)) (fun x hx => ?_) fun b _ hbe x hx => ?_
    · have hctl (f : Fld) (hf : f.addr = (Reg.FRONTHAUL.PT_CTL.word e).addr) : x.get f = s.get f := by
        rw [hx.get (by rw [hf]; rintro ⟨d, hd, h⟩; dsimp only at h; omega), hlow f (by rw [hf]; dsimp only; omega)]
      have hyes : (x.get (Reg.FRONTHAUL.PT_CTL.home e) == n || x.get (Reg.FRONTHAUL.PT_CTL.alt e) == n) = true := by
        rw [hctl (Reg.FRONTHAUL.PT_CTL.home e) rfl, hctl (Reg.FRONTHAUL.PT_CTL.alt e) rfl, Bool.or_eq_true, beq_iff_eq, beq_iff_eq]
        exact hport
      rw [takeBack, if_pos hyes]
      refine ⟨?_, ?_⟩
      · rw [State.get_put_same _ rfl]
        rfl
      · rw [State.get_put_apart _ rfl (by simp [Fld.apart]), State.get_put_same _ rfl]
        exact Nat.mod_eq_of_lt hn
    · have hne : (Reg.FRONTHAUL.PT_STATUS.word e).addr ≠ (Reg.FRONTHAUL.PT_STATUS.word b).addr := by
        dsimp only
        omega
      rw [(sameOff_takeBack n b x).get (f := Reg.FRONTHAUL.PT_STATUS.unreachable e) hne, (sameOff_takeBack n b x).get (f := Reg.FRONTHAUL.PT_STATUS.port e) hne]
      exact hx

theorem trainTimeout_spec (hn : n < 8) (hlen : s.fh.ports.length = 8)
    (hyes : ((s.fhPortState n == fhTrain || s.fhPortState n == fhAlign) && decide ((s.fhPort n).since + ticksOfMs 10 ≤ s.now)) = true) :
    ∃ u, s.trainTimeout n = u ∧ u.fhPortState n = fhListen ∧ (u.fhPort n).retryAt = s.now + ticksOfMs 100 ∧
      u.get (Reg.FRONTHAUL.PORT_STATUS.train_fail n) = (s.get (Reg.FRONTHAUL.PORT_STATUS.train_fail n) + 1) % 256 ∧
      ((s.fhPort n).noticed = false → u.get Reg.HOST.INT_STATUS.topology = 1) := by
  obtain ⟨v, hv⟩ : ∃ v : State, v = ((s.bump (Reg.FRONTHAUL.PORT_STATUS.train_fail n)).fhEnter n fhListen).modFhPort n
      fun x => { x with retryAt := s.now + ticksOfMs 100, noticed := true } := ⟨_, rfl⟩
  have hregs : v.regs = ((s.bump (Reg.FRONTHAUL.PORT_STATUS.train_fail n)).put (Reg.FRONTHAUL.PORT_STATUS.state n) fhListen).regs := by
    rw [hv]
    rfl
  have hget (f : Fld) := State.get_of_regs hregs f
  have hstate : v.fhPortState n = fhListen := by
    rw [State.fhPortState, hget, State.get_put_same _ rfl]
    rfl
  have hretry : (v.fhPort n).retryAt = s.now + ticksOfMs 100 := by
    rw [hv, State.fhPort_modFhPort_same]
    exact (List.length_modify ..).symm ▸ hlen.symm ▸ hn
  have hcount : v.get (Reg.FRONTHAUL.PORT_STATUS.train_fail n) = (s.get (Reg.FRONTHAUL.PORT_STATUS.train_fail n) + 1) % 256 := by
    rw [hget, State.get_put_apart _ rfl (by simp [Fld.apart]), State.get_bump_same _ rfl]
    rfl
  cases hfirst : (s.fhPort n).noticed with
  | true =>
    have hu : s.trainTimeout n = v := by
      rw [hv]
      refine (if_pos hyes).trans (if_neg ?_)
      rw [show ((s.bump (Reg.FRONTHAUL.PORT_STATUS.train_fail n)).fhPort n).noticed = true from hfirst]
      exact Bool.false_ne_true
    exact ⟨v, hu, hstate, hretry, hcount, fun h => nomatch h⟩
  | false =>
    have hu : s.trainTimeout n = v.notice .topology := by
      rw [hv]
      refine (if_pos hyes).trans (if_pos ?_)
      rw [show ((s.bump (Reg.FRONTHAUL.PORT_STATUS.train_fail n)).fhPort n).noticed = false from hfirst]
      rfl
    have hkeep (f : Fld) (hf : f.addr = (Reg.FRONTHAUL.PORT_STATUS.word n).addr) : (v.notice .topology).get f = v.get f :=
      (SameOff.notice (A := (· = Reg.HOST.INT_STATUS.fault.addr)) (.refl v) rfl .topology).get (by rw [hf]; dsimp only; omega)
    refine ⟨_, hu, (hkeep (Reg.FRONTHAUL.PORT_STATUS.state n) rfl).trans hstate, ?_, (hkeep (Reg.FRONTHAUL.PORT_STATUS.train_fail n) rfl).trans hcount,
      fun _ => v.get_notice_bit .topology⟩
    rw [← hretry]
    rfl

theorem claim_fhBringUp : Claim.FhBringUp := by
  intro s t n foms hlen
  have hnlen : n.val < (s.atTime t).fh.ports.length := hlen.symm ▸ n.isLt
  refine ⟨⟨fun h => ?_, fun hst hretry hlock => ?_⟩, ⟨fun hst => ?_, fun hst _ _ hfl hfom => ?_⟩, ⟨fun hst => ?_, fun hst => ?_⟩,
    ⟨fun h => ?_, fun hst htime => ?_⟩, fun hst htime => ?_, fun h => ?_⟩
  · have hno : ¬ (((s.atTime t).get Reg.CLOCK.ISLAND_STATUS.locked).testBit 4 && (s.atTime t).fhPortState n.val == fhListen &&
        decide (((s.atTime t).fhPort n.val).retryAt ≤ (s.atTime t).now)) = true := by
      simp only [Bool.and_eq_true, beq_iff_eq, decide_eq_true_eq]
      rintro ⟨⟨h1, h2⟩, h3⟩
      rcases h with h | h | h
      · exact h h2
      · exact absurd h (Nat.not_lt.2 h3)
      · exact absurd (h.symm.trans h1) (by decide)
    exact .of_eq rfl (if_neg hno)
  · have hyes : (((s.atTime t).get Reg.CLOCK.ISLAND_STATUS.locked).testBit 4 && (s.atTime t).fhPortState n.val == fhListen &&
        decide (((s.atTime t).fhPort n.val).retryAt ≤ (s.atTime t).now)) = true := by
      simp only [Bool.and_eq_true, beq_iff_eq, decide_eq_true_eq]
      exact ⟨⟨hlock, hst⟩, hretry⟩
    refine ⟨_, .of_eq rfl (if_pos hyes), (s.atTime t).fhPortState_fhEnter (by decide), ?_, fun a ha => ?_⟩
    · rw [State.fhPort_fhEnter hnlen]
      rfl
    · exact State.word_put_other (f := Reg.FRONTHAUL.PORT_STATUS.state n.val) (s.atTime t) (fun h => ha (List.mem_singleton.2 h.symm)) fhTrain
  · exact .of_eq rfl (if_pos (bne_iff_ne.2 hst))
  · obtain ⟨v, u, hv, hu, hsame, hstate⟩ := trainDone_spec (s := s.atTime t) n.isLt hst hfl
    refine ⟨u, .of_eq rfl hu, hstate, fun e he => ?_⟩
    have hnodup : (((s.fhLanes n.val).zip foms).map Prod.fst).Nodup := by
      rw [List.map_fst_zip (Nat.le_of_eq hfl.symm)]
      exact nodup_fhLanes s n.val
    obtain ⟨h1, h2⟩ := (s.atTime t).fom_withFoms hnodup (fun e he => hfom e.2 (List.of_mem_zip he).2) he
    rw [hsame.get (f := Reg.FRONTHAUL.LANE_RX.fom e.1) (by dsimp only; omega), hsame.get (f := Reg.FRONTHAUL.LANE_RX.fom_committed e.1) (by dsimp only; omega), hv]
    exact ⟨h1, h2⟩
  · exact .of_eq rfl (if_neg (by rw [beq_iff_eq]; exact hst))
  · exact ⟨_, .of_eq rfl (if_pos (beq_iff_eq.2 hst)), fhPortUp_spec (s := s.atTime t) n.isLt hlen⟩
  · refine .of_eq rfl (if_neg ?_)
    simp only [Bool.and_eq_true, Bool.or_eq_true, beq_iff_eq, decide_eq_true_eq]
    rintro ⟨h1, h2⟩
    rcases h with ⟨h3, h4⟩ | h
    · exact h1.elim h3 h4
    · exact absurd h (Nat.not_lt.2 h2)
  · have hyes : (((s.atTime t).fhPortState n.val == fhTrain || (s.atTime t).fhPortState n.val == fhAlign) &&
        decide (((s.atTime t).fhPort n.val).since + ticksOfMs 10 ≤ (s.atTime t).now)) = true := by
      simp only [Bool.and_eq_true, Bool.or_eq_true, beq_iff_eq, decide_eq_true_eq]
      exact ⟨hst, htime⟩
    obtain ⟨u, hu, h⟩ := trainTimeout_spec (s := s.atTime t) n.isLt hlen hyes
    exact ⟨u, .of_eq rfl hu, h⟩
  · have hyes : ((s.atTime t).fhPortState n.val == fhListen && decide (((s.atTime t).fhPort n.val).retryAt ≤ (s.atTime t).now)) = true := by
      simp only [Bool.and_eq_true, beq_iff_eq, decide_eq_true_eq]
      exact ⟨hst, htime⟩
    refine ⟨_, .of_eq rfl (if_pos hyes), ?_, rfl⟩
    rw [State.fhPort_modFhPort_same hnlen]
  · refine .of_eq rfl (if_neg ?_)
    simp only [Bool.and_eq_true, beq_iff_eq, decide_eq_true_eq]
    rintro ⟨h1, h2⟩
    rcases h with h | h
    · exact h h1
    · exact absurd h (Nat.not_lt.2 h2)

/-! ### The return home, and frames too late -/

/-- Where nothing waits at a port, its drain changes the port's own record alone. -/
theorem State.drainPort_of_empty {s : State} {n : Nat} (h : (s.fhPort n).queue = []) :
    ∃ f : FhPort → FhPort, s.drainPort n = s.modFhPort n f ∧ ∀ x, (f x).queue = x.queue := State.sendBefore_of_empty h _

theorem State.queue_drainPort_of_empty {s : State} {n : Nat} (h : (s.fhPort n).queue = []) : ((s.drainPort n).fhPort n).queue = [] := by
  obtain ⟨f, hf, hq⟩ := State.drainPort_of_empty h
  rw [hf]
  by_cases hn : n < s.fh.ports.length
  · rw [State.fhPort_modFhPort_same hn, hq, h]
  · rw [State.fhPort, State.modFhPort, List.getD_eq_default _ _ (by rw [List.length_modify]; omega)]
    rfl

theorem returnHome_spec {s : State} {e : Nat} {home port : Nat} (hhome : home = s.get (Reg.FRONTHAUL.PT_CTL.home e))
    (hport : port = s.get (Reg.FRONTHAUL.PT_STATUS.port e)) (hused : s.ptState e ≠ ptEmpty) (hne : port ≠ home) (hup : s.fhPortState home = fhUp)
    (hhold : (s.fhPort home).since + ticksOfMs (10 * s.get Reg.FRONTHAUL.DH_CTL.hold) ≤ s.now) (hempty : (s.fhPort port).queue = []) (hgates : s.gates = []) :
    ((s.drainPort port).returnHome e).get (Reg.FRONTHAUL.PT_STATUS.port e) = home ∧ ((s.drainPort port).returnHome e).mem = s.mem := by
  have hqueue := State.queue_drainPort_of_empty hempty
  obtain ⟨f, hf, -⟩ := State.drainPort_of_empty hempty
  have hother := s.fhPort_modFhPort_other (Ne.symm hne) f
  rw [← hf] at hother
  obtain ⟨v, hv⟩ : ∃ v, v = s.drainPort port := ⟨_, rfl⟩
  have hshape : v.regs = s.regs ∧ v.gates = s.gates ∧ v.mem = s.mem ∧ v.now = s.now := by
    rw [hv, hf]
    exact ⟨rfl, rfl, rfl, rfl⟩
  obtain ⟨hregs, hg, hmem, hnow⟩ := hshape
  have hget (g : Fld) := State.get_of_regs hregs g
  have h8 : home < 8 := by
    rw [hhome]
    exact Nat.mod_lt _ (Nat.two_pow_pos 3)
  rw [← hv] at hqueue hother ⊢
  have hdo : v.returnHome e = v.put (Reg.FRONTHAUL.PT_STATUS.port e) home := by
    have hsteady : (v.fhUpOn (v.get (Reg.FRONTHAUL.PT_CTL.home e)) && decide ((v.fhPort (v.get (Reg.FRONTHAUL.PT_CTL.home e))).since +
        ticksOfMs (10 * v.get Reg.FRONTHAUL.DH_CTL.hold) ≤ v.now)) = true := by
      rw [hget, ← hhome, hother, hget, hnow, State.fhUpOn, State.fhPortState, hget, ← State.fhPortState, hup, decide_eq_true h8, decide_eq_true hhold]
      rfl
    unfold State.returnHome
    dsimp only
    rw [hsteady, hg, hgates, State.ptState, hget, hget, hget, ← hhome, ← hport, hqueue, ← State.ptState, bne_iff_ne.2 hused, bne_iff_ne.2 hne]
    rfl
  rw [hdo, State.get_put_same _ rfl]
  exact ⟨Nat.mod_eq_of_lt h8, hmem⟩

/-- A flow at home, of an entry that is empty, or whose home port is not UP, stays where it is (R407). -/
theorem State.returnHome_of_home {s : State} {e : Nat} (h : s.ptState e = ptEmpty ∨ s.get (Reg.FRONTHAUL.PT_STATUS.port e) = s.get (Reg.FRONTHAUL.PT_CTL.home e) ∨
      s.fhPortState (s.get (Reg.FRONTHAUL.PT_CTL.home e)) ≠ fhUp) : s.returnHome e = s := by
  unfold State.returnHome
  dsimp only
  refine if_neg ?_
  simp only [Bool.and_eq_true, bne_iff_ne, State.fhUpOn, beq_iff_eq]
  rintro ⟨⟨⟨⟨h1, h2⟩, ⟨-, h3⟩, -⟩, -⟩, -⟩
  exact h.elim h1 fun h => h.elim h2 fun h => h h3

theorem staleDiscard_spec (s : State) (n : Nat) :
    (∀ f ∈ ((s.staleDiscard n).fhPort n).queue, s.now < f.release + ticksOfUs 50) ∧ (s.staleDiscard n).mem = s.mem ∧
      ((s.fhPort n).queue = [] → SameWords s (s.staleDiscard n) [] ∧ (s.staleDiscard n).out = s.out) := by
  obtain ⟨stale, v, hstale, hv, hu⟩ : ∃ stale, ∃ v : State,
      stale = ((s.drainPort n).fhPort n).queue.filter (fun f => decide (f.release + ticksOfUs 50 ≤ (s.drainPort n).now)) ∧
      v = (s.drainPort n).forEach stale (fun f s => s.pcount f.frame.entry .ulStale 1) ∧
      s.staleDiscard n = v.modFhPort n fun x => { x with queue := x.queue.filter fun f => decide (v.now < f.release + ticksOfUs 50) } :=
    ⟨_, _, rfl, rfl, rfl⟩
  have hsends : FhSends n s v := by
    rw [hv]
    exact (fhSends_drainPort s n).trans (.forEach fun f _ x => fhSends_pcount x ..)
  have hkeep : v.now = s.now ∧ v.mem = s.mem := by
    obtain ⟨_, _, _, h⟩ := hsends.shape
    rw [h]
    exact ⟨rfl, rfl⟩
  obtain ⟨hnow, hmem⟩ := hkeep
  refine ⟨fun f hf => ?_, ?_, fun hempty => ?_⟩
  · rw [hu] at hf
    by_cases hn : n < v.fh.ports.length
    · rw [State.fhPort_modFhPort_same hn] at hf
      have := of_decide_eq_true (List.mem_filter.1 hf).2
      rwa [hnow] at this
    · rw [State.fhPort, State.modFhPort, List.getD_eq_default _ _ (by rw [List.length_modify]; omega)] at hf
      cases hf
  · rw [hu]
    exact hmem
  · rw [State.queue_drainPort_of_empty hempty] at hstale
    obtain ⟨f, hf, -⟩ := State.drainPort_of_empty hempty
    rw [hstale, hf] at hv
    rw [hu, hv]
    exact ⟨fun _ _ => rfl, rfl⟩

theorem claim_fhFailover : Claim.FhFailover := by
  intro s t n e cause hlen
  refine ⟨fun h => ?_, fun h0 h6 hup => ?_, fun home port hhome hport => ⟨fun hused hne hup hhold hempty hgates => ?_, fun h hempty => ?_⟩,
    _, .of_eq rfl rfl, staleDiscard_spec (s.atTime t) n.val⟩
  · by_cases h0 : cause.val = 0
    · exact .of_eq rfl (if_pos h0)
    · have hno : (!(s.atTime t).fhUpOn n.val) = true := by
        rw [State.fhUpOn, beq_eq_false_iff_ne.2 (show (s.atTime t).fhPortState n.val ≠ fhUp from h.resolve_left fun h => h0 (congrArg Fin.val h)), Bool.and_false]
        rfl
      exact .of_eq rfl ((if_neg h0).trans (if_pos hno))
  · have h0' : cause.val ≠ 0 := fun h => h0 (Fin.ext h)
    have h6' : cause.val ≠ 6 := fun h => h6 (Fin.ext h)
    obtain ⟨h1, h2, h3, h4, h5, hentries⟩ := linkFault_spec (s := s.atTime t) n.isLt hlen (cause := cause.val) (by omega) h6' hup
    obtain ⟨hon, hoff⟩ := hentries e.val e.isLt
    refine ⟨_, .of_eq rfl (if_neg h0'), h1, h2, h3, h4, h5, ?_, fun hport => ?_⟩
    · rintro hused hport home alt other rfl rfl rfl
      exact hon hused hport
    · have hword := hoff hport
      exact ⟨by rw [State.get, hword]; rfl, by rw [State.get, hword]; rfl⟩
  · refine ⟨_, .of_eq rfl rfl, ?_⟩
    have hspec := returnHome_spec (s := s.atTime t) hhome hport hused hne hup hhold hempty hgates
    rw [hport] at hspec
    exact hspec
  · obtain ⟨f, hf, -⟩ := State.drainPort_of_empty (s := s.atTime t) hempty
    obtain ⟨v, hv⟩ : ∃ v, v = (s.atTime t).drainPort port := ⟨_, rfl⟩
    have hshape : v.regs = s.regs ∧ v.out = s.out ∧ v.mem = s.mem := by
      rw [hv, hf]
      exact ⟨rfl, rfl, rfl⟩
    obtain ⟨hregs, hout, hmem⟩ := hshape
    have hstay : v.returnHome e.val = v := by
      refine State.returnHome_of_home ?_
      rw [State.ptState, State.get_of_regs hregs, State.get_of_regs hregs, State.get_of_regs hregs, State.fhPortState, State.get_of_regs hregs, ← hhome, ← hport]
      exact h
    refine ⟨_, .of_eq (u := v) rfl ?_, fun a _ => ?_, hout, hmem⟩
    · rw [← hstay, hv, hport]
      rfl
    · rw [State.word, State.word, hregs]

end

/-- Settles O41: a link fault moves each flow on its port by its own entry, so what one entry's move keeps of the others is all that is needed. -/
theorem fronthaulPorts : Obligations.FronthaulPorts := ⟨claim_fhBringUp, claim_fhFailover⟩

end Sys2Proof.Machine
end

