-- ==== Sys2Proof/Proofs/PredistortionHost.lean ====
section
/-!
What the host asks of observation and of pre-distortion (R216 to R218, R225, R227).
-/

namespace Sys2Proof.Machine

open Sys2Proof

/-! ### Groups and paths of observation -/

theorem State.obsGroup_modObsGroup_same {s : State} {g : Nat} (h : g < s.obs.length) (f : ObsGroup → ObsGroup) :
    (s.modObsGroup g f).obsGroup g = f (s.obsGroup g) := by
  simp [State.obsGroup, State.modObsGroup, h]

theorem State.obsOf_modObs_same {s : State} {p : Nat} (h : p < s.obsPath.length) (f : ObsPath → ObsPath) : (s.modObs p f).obsOf p = f (s.obsOf p) := by
  simp [State.obsOf, State.modObs, h]

theorem State.obsOf_modObs_other (s : State) {p q : Nat} (h : q ≠ p) (f : ObsPath → ObsPath) : (s.modObs p f).obsOf q = s.obsOf q := by
  simp [State.obsOf, State.modObs, Ne.symm h]

theorem nodup_groupPaths (g : Nat) : (groupPaths g).Nodup := List.Nodup.map_on (fun a _ b _ h => by omega) List.nodup_range

/-! ### Requests -/

section

variable {s : State} {g : Nat}

/-- The place of a capture follows the memory and the lengths of the groups' captures (R206). -/
theorem State.obsPlace_congr {u : State} (hshape : ∃ regs, u = { s with regs := regs })
    (hlen : ∀ k, k < 8 → u.get (Reg.GROUP.OBS_CTL.len k) = s.get (Reg.GROUP.OBS_CTL.len k)) : u.obsPlace g = s.obsPlace g := by
  have hslots : (List.range 8).map u.obsSlotBytes = (List.range 8).map s.obsSlotBytes :=
    List.map_congr_left fun k hk => by rw [State.obsSlotBytes, State.obsLen, hlen k (List.mem_range.1 hk)]; rfl
  have hbytes : u.allocBytes kindCapture = s.allocBytes kindCapture := by
    obtain ⟨_, rfl⟩ := hshape
    rfl
  rw [State.obsPlace, hbytes, hslots, State.obsPlace]

/-- The request's path is stored before the group is asked for. -/
theorem State.asked_hostPath (n : Nat) :
    (((s.put (Reg.GROUP.OBS_CTL.host_path g) n).dpdGoverns g != dpdOff || !((s.put (Reg.GROUP.OBS_CTL.host_path g) n).shedding shedDiag).isEmpty ||
      ((s.put (Reg.GROUP.OBS_CTL.host_path g) n).obsPlace g).isNone) = true) ↔
      s.dpdGoverns g ≠ dpdOff ∨ s.shedding shedDiag ≠ [] ∨ s.obsPlace g = none := by
  obtain ⟨u, hu⟩ : ∃ u, u = s.put (Reg.GROUP.OBS_CTL.host_path g) n := ⟨_, rfl⟩
  have hshape : ∃ regs, u = { s with regs := regs } := ⟨_, hu⟩
  have hplace : u.obsPlace g = s.obsPlace g := State.obsPlace_congr hshape fun k _ => by
    rw [hu]
    by_cases h : k = g
    · subst h
      exact s.get_put_apart (f := Reg.GROUP.OBS_CTL.host_path k) (g := Reg.GROUP.OBS_CTL.len k) rfl (by simp [Fld.apart]) n
    · exact s.get_put_elsewhere (f := Reg.GROUP.OBS_CTL.host_path g) (g := Reg.GROUP.OBS_CTL.len k) (by dsimp only; omega) n
  have hlevel : u.get Reg.POWER.STATUS.level = s.get Reg.POWER.STATUS.level := by
    rw [hu]
    exact s.get_put_elsewhere (f := Reg.GROUP.OBS_CTL.host_path g) (by dsimp only; omega) n
  have hkeep : u.shedEntry = s.shedEntry ∧ u.dpdGoverns g = s.dpdGoverns g := by
    obtain ⟨_, rfl⟩ := hshape
    exact ⟨rfl, rfl⟩
  obtain ⟨hentry, hgoverns⟩ := hkeep
  have hshed : u.shedding shedDiag = s.shedding shedDiag := by
    rw [State.shedding, hlevel, hentry, State.shedding]
  rw [← hu, hplace, hshed, hgoverns, Bool.or_eq_true, Bool.or_eq_true, bne_iff_ne, Bool.not_eq_true', List.isEmpty_eq_false_iff, Option.isNone_iff_eq_none,
    or_assoc]

theorem claim_obsHost : Claim.ObsHost := by
  intro s t ch g n hr hlen
  refine ⟨fun h => ?_, fun hgov hshed hplace => ?_, fun hpaths => ?_⟩
  · refine ⟨_, .of_eq (gives_hostCmd hr rfl) (if_pos (((s.atTime t).asked_hostPath n.val).2 h)), ?_, rfl⟩
    rw [State.get_put_same _ rfl]
    rfl
  · have hno : ¬ (s.dpdGoverns g.val ≠ dpdOff ∨ s.shedding shedDiag ≠ [] ∨ s.obsPlace g.val = none) := by
      rintro (h | h | h)
      · exact h hgov
      · exact h hshed
      · exact hplace h
    refine ⟨_, .of_eq (gives_hostCmd hr rfl) (if_neg (mt ((s.atTime t).asked_hostPath n.val).1 hno)), ?_, ?_, fun a ha => ?_⟩
    · have hg : g.val < ((s.atTime t).put (Reg.GROUP.OBS_CTL.host_path g.val) n.val).obs.length := hlen.symm ▸ g.isLt
      rw [State.obsGroup_modObsGroup_same hg]
    · exact (State.get_put_same (f := Reg.GROUP.OBS_CTL.host_path g.val) (s.atTime t) rfl n.val).trans (Nat.mod_eq_of_lt n.isLt)
    · exact State.word_put_other (f := Reg.GROUP.OBS_CTL.host_path g.val) (s.atTime t) (fun h => ha (List.mem_singleton.2 h.symm)) n.val
  · refine ⟨_, gives_hostCmd hr rfl, ?_, ?_, fun p hp => ?_, fun p hp => ?_⟩
    · exact State.forEach_keeps (f := fun p s => s.modObs p fun o => { o with attenRef := none, misses := [] }) State.regs (fun _ _ => rfl) (s.atTime t) _
    · exact State.forEach_keeps (f := fun p s => s.modObs p fun o => { o with attenRef := none, misses := [] }) State.mem (fun _ _ => rfl) (s.atTime t) _
    · have hp64 : p < 64 := by
        have := mem_groupPaths.1 hp
        omega
      refine State.forEach_at (A := fun x => x.obsPath.length = 64) (B := fun x => (x.obsOf p).attenRef = none ∧ (x.obsOf p).misses = []) (nodup_groupPaths g.val) hp
        hpaths (fun b _ _ x hx => (List.length_modify ..).trans hx) (fun x hx => ?_) fun b _ hb x hx => ?_
      · rw [State.obsOf_modObs_same (hx.symm ▸ hp64)]
        exact ⟨rfl, rfl⟩
      · rw [State.obsOf_modObs_other x hb.symm]
        exact hx
    · refine State.forEach_induct (P := fun x => x.obsOf p = s.obsOf p) rfl fun b hb x hx => ?_
      rw [State.obsOf_modObs_other x (by rintro rfl; exact hp (mem_groupPaths.1 hb))]
      exact hx

/-! ### The mode of adaptation -/

theorem fieldsAt_dpdAdapt (g : Fin 8) : fieldsAt (Reg.GROUP.DPD_ADAPT.word g.val).addr = [⟨8, 4, .rw, 3⟩, ⟨4, 4, .rw, 2⟩, ⟨3, 1, .wo, 0⟩, ⟨0, 2, .rw, 0⟩] := by
  revert g
  decide +kernel

/-- A write of DPD_ADAPT, before its mode acts (R225): the fields are stored, mode 0b11 keeps the mode, and `discard` releases the staged tables. -/
def State.dpdStored (s : State) (g : Nat) (v : Word) : State :=
  let a := (Reg.GROUP.DPD_ADAPT.word g).addr
  let u := s.setWord a ((fieldsAt a).foldl (storeField false (keepF (s.word a) 0 2 (· == 3) v)) (s.word a))
  if getBits v 3 1 = 1 then u.dpdDiscard g else u

/-- A fit in progress stops, and the banks it wrote are undefined (R225). -/
def State.dpdStopped (s : State) (g : Nat) : State :=
  if s.flag (Reg.GROUP.DPD_STATUS.fitting g) then
    ((s.forEach (s.obsGroup g).fit fun p s =>
        let idle := 1 - s.get (Reg.PIPE.DPD_STATUS.bank_in_force p)
        let s' := s.allocWrite kindDpd (dpdPlace p idle) (s.freeBytes dpdBytes)
        { s' with free := s'.free + dpdBytes }).put (Reg.GROUP.DPD_STATUS.fitting g) 0).modObsGroup g fun y => { y with fit := [], abandoned := false }
  else s

theorem State.dpdModeWrite_eq (v : Word) :
    s.dpdModeWrite g v = if getBits v 0 2 = 3 then s.dpdStored g v else (((s.dpdStored g v).dpdStopped g).dpdGovern g).dpdNewRound g := rfl

theorem dpdStored_spec (g : Fin 8) (v : Word) :
    (s.dpdStored g.val v).obs = s.obs ∧ (s.dpdStored g.val v).mem = s.mem ∧
      (s.dpdStored g.val v).dpdMode g.val = (if getBits v 0 2 = 3 then s.dpdMode g.val else getBits v 0 2) ∧
      (s.dpdStored g.val v).get (Reg.GROUP.DPD_STATUS.fitting g.val) = s.get (Reg.GROUP.DPD_STATUS.fitting g.val) ∧
      (s.dpdStored g.val v).get (Reg.GROUP.DPD_STATUS.verifying g.val) = s.get (Reg.GROUP.DPD_STATUS.verifying g.val) ∧
      SameOff (· ∈ [(Reg.GROUP.DPD_ADAPT.word g.val).addr, (Reg.GROUP.DPD_STATUS.word g.val).addr]) s (s.dpdStored g.val v) ∧
      ∃ regs, s.dpdStored g.val v = { s with regs := regs } := by
  obtain ⟨w, hw⟩ : ∃ w, w = (fieldsAt (Reg.GROUP.DPD_ADAPT.word g.val).addr).foldl
      (storeField false (keepF (s.word (Reg.GROUP.DPD_ADAPT.word g.val).addr) 0 2 (· == 3) v)) (s.word (Reg.GROUP.DPD_ADAPT.word g.val).addr) := ⟨_, rfl⟩
  obtain ⟨r, hr⟩ : ∃ r, r = s.setWord (Reg.GROUP.DPD_ADAPT.word g.val).addr w := ⟨_, rfl⟩
  have hu : s.dpdStored g.val v = if getBits v 3 1 = 1 then r.dpdDiscard g.val else r := by
    rw [hr, hw]
    rfl
  have hmode : getBits w 0 2 = if getBits v 0 2 = 3 then s.dpdMode g.val else getBits v 0 2 := by
    rw [hw, fieldsAt_dpdAdapt]
    simp only [List.foldl_cons, List.foldl_nil, storeField]
    rw [getBits_setBits_same _ (by decide), Nat.mod_eq_of_lt (getBits_lt _ 0 2), keepF]
    by_cases h : getBits v 0 2 = 3
    · rw [if_pos (beq_iff_eq.2 h), if_pos h, getBits_setBits_same _ (by decide), Nat.mod_eq_of_lt (getBits_lt _ 0 2)]
      rfl
    · rw [if_neg (by rw [beq_iff_eq]; exact h), if_neg h]
  have hne : (Reg.GROUP.DPD_STATUS.word g.val).addr ≠ (Reg.GROUP.DPD_ADAPT.word g.val).addr := by
    dsimp only
    omega
  have hrmode : r.dpdMode g.val = if getBits v 0 2 = 3 then s.dpdMode g.val else getBits v 0 2 := by
    rw [← hmode, hr]
    exact s.get_setWord_same (Reg.GROUP.DPD_ADAPT.mode g.val) w
  have hrget (f : Fld) (hf : f.addr = (Reg.GROUP.DPD_STATUS.word g.val).addr) : r.get f = s.get f := by
    rw [hr]
    exact s.get_setWord_other (by rw [hf]; exact hne) w
  have hrsame : SameOff (· ∈ [(Reg.GROUP.DPD_ADAPT.word g.val).addr, (Reg.GROUP.DPD_STATUS.word g.val).addr]) s r := by
    intro a ha
    rw [hr]
    exact State.word_setWord_other (fun h => ha (List.mem_cons.2 (.inl h))) s w
  have hrshape : ∃ regs, r = { s with regs := regs } := ⟨_, hr⟩
  rw [hu]
  split
  · refine ⟨?_, ?_, ?_, ?_, ?_, ?_, ?_⟩
    · obtain ⟨_, rfl⟩ := hrshape
      rfl
    · obtain ⟨_, rfl⟩ := hrshape
      rfl
    · have hput (x : State) (f : Fld) (hf : f.addr = (Reg.GROUP.DPD_STATUS.word g.val).addr) : (x.put f 0).dpdMode g.val = x.dpdMode g.val :=
        x.get_put_elsewhere (by rw [hf]; exact hne) 0
      rw [State.dpdDiscard, hput _ (Reg.GROUP.DPD_STATUS.staged g.val) rfl, hput _ (Reg.GROUP.DPD_STATUS.staged_mask g.val) rfl]
      exact hrmode
    · rw [State.dpdDiscard, State.get_put_apart _ rfl (by simp [Fld.apart]), State.get_put_apart _ rfl (by simp [Fld.apart])]
      exact hrget (Reg.GROUP.DPD_STATUS.fitting g.val) rfl
    · rw [State.dpdDiscard, State.get_put_apart _ rfl (by simp [Fld.apart]), State.get_put_apart _ rfl (by simp [Fld.apart])]
      exact hrget (Reg.GROUP.DPD_STATUS.verifying g.val) rfl
    · exact (hrsame.put (f := Reg.GROUP.DPD_STATUS.staged_mask g.val) (by simp) 0).put (f := Reg.GROUP.DPD_STATUS.staged g.val) (by simp) 0
    · obtain ⟨_, rfl⟩ := hrshape
      exact ⟨_, rfl⟩
  · refine ⟨?_, ?_, hrmode, hrget (Reg.GROUP.DPD_STATUS.fitting g.val) rfl, hrget (Reg.GROUP.DPD_STATUS.verifying g.val) rfl, hrsame, hrshape⟩
    · obtain ⟨_, rfl⟩ := hrshape
      rfl
    · obtain ⟨_, rfl⟩ := hrshape
      rfl

end

section

variable {s : State} {g : Nat}

theorem State.shape_allocWrite (s : State) (k o : Nat) (bs : List Byte) : ∃ mem, s.allocWrite k o bs = { s with mem := mem } := ⟨_, rfl⟩

/-- What stops a fit touches but the group's own record: memory, the fitting bit and the free values. -/
theorem dpdStopped_spec (hg : g < s.obs.length) :
    (s.dpdStopped g).get (Reg.GROUP.DPD_STATUS.fitting g) = 0 ∧
      SameOff (· = (Reg.GROUP.DPD_STATUS.word g).addr) s (s.dpdStopped g) ∧
      (s.dpdStopped g).dpdPending g = s.dpdPending g ∧ (s.dpdStopped g).dpdGoverns g = s.dpdGoverns g ∧
      (s.dpdStopped g).obs.length = s.obs.length ∧ (s.dpdStopped g).arrayNow = s.arrayNow ∧
      (s.get (Reg.GROUP.DPD_STATUS.fitting g) = 0 → s.dpdStopped g = s) := by
  by_cases hfit : s.flag (Reg.GROUP.DPD_STATUS.fitting g) = true
  · obtain ⟨f, v, hf, hv⟩ : ∃ f : Nat → State → State, ∃ v : State, (f = fun p s =>
        let idle := 1 - s.get (Reg.PIPE.DPD_STATUS.bank_in_force p)
        let s' := s.allocWrite kindDpd (dpdPlace p idle) (s.freeBytes dpdBytes)
        { s' with free := s'.free + dpdBytes }) ∧ v = s.forEach (s.obsGroup g).fit f := ⟨_, _, rfl, rfl⟩
    have hshape : ∃ mem free, v = { s with mem := mem, free := free } := by
      rw [hv]
      refine State.forEach_induct (P := fun x => ∃ mem free, x = { s with mem := mem, free := free }) ⟨_, _, rfl⟩ fun p _ x hx => ?_
      obtain ⟨mem, free, hx⟩ := hx
      obtain ⟨mem', h⟩ := x.shape_allocWrite kindDpd (dpdPlace p (1 - x.get (Reg.PIPE.DPD_STATUS.bank_in_force p))) (x.freeBytes dpdBytes)
      refine ⟨mem', (x.allocWrite kindDpd (dpdPlace p (1 - x.get (Reg.PIPE.DPD_STATUS.bank_in_force p))) (x.freeBytes dpdBytes)).free + dpdBytes, ?_⟩
      rw [hf]
      dsimp only
      rw [h, hx]
    have hu : s.dpdStopped g = (v.put (Reg.GROUP.DPD_STATUS.fitting g) 0).modObsGroup g fun y => { y with fit := [], abandoned := false } := by
      rw [hv, hf]
      exact if_pos hfit
    have hkeep : v.regs = s.regs ∧ v.obs = s.obs ∧ v.arrayNow = s.arrayNow := by
      obtain ⟨_, _, h⟩ := hshape
      rw [h]
      exact ⟨rfl, rfl, rfl⟩
    obtain ⟨hregs, hobs, hnow⟩ := hkeep
    obtain ⟨u, hw⟩ : ∃ u, u = s.dpdStopped g := ⟨_, rfl⟩
    rw [← hw] at hu ⊢
    have huregs : u.regs = (v.put (Reg.GROUP.DPD_STATUS.fitting g) 0).regs := by
      rw [hu]
      rfl
    have hgroup : u.obsGroup g = { s.obsGroup g with fit := [], abandoned := false } := by
      rw [hu, State.obsGroup_modObsGroup_same (show g < (v.put (Reg.GROUP.DPD_STATUS.fitting g) 0).obs.length from hobs.symm ▸ hg), State.obsGroup,
        show (v.put (Reg.GROUP.DPD_STATUS.fitting g) 0).obs = s.obs from hobs, ← State.obsGroup]
    have hverifying : u.get (Reg.GROUP.DPD_STATUS.verifying g) = s.get (Reg.GROUP.DPD_STATUS.verifying g) := by
      rw [State.get_of_regs huregs, State.get_put_apart _ rfl (by simp [Fld.apart]), State.get_of_regs hregs]
    have hv' : SameOff (· = (Reg.GROUP.DPD_STATUS.word g).addr) s v := .of_regs hregs
    refine ⟨?_, (hv'.put (f := Reg.GROUP.DPD_STATUS.fitting g) rfl 0).trans (.of_regs huregs), ?_, ?_, ?_, ?_, fun h => ?_⟩
    · rw [State.get_of_regs huregs, State.get_put_same _ rfl]
      rfl
    · rw [State.dpdPending, State.flag, hverifying, hgroup]
      rfl
    · rw [State.dpdGoverns, hgroup]
      rfl
    · rw [hu]
      exact (List.length_modify ..).trans (congrArg List.length hobs)
    · rw [hu]
      exact hnow
    · exact absurd h ((State.flag_iff ..).1 hfit)
  · have hstay : s.dpdStopped g = s := if_neg hfit
    rw [hstay]
    exact ⟨by_contra fun h => hfit ((State.flag_iff ..).2 h), .refl s, rfl, rfl, rfl, rfl, fun _ => rfl⟩

theorem State.dpdGovern_of_pending (h : s.dpdPending g = true) : s.dpdGovern g = s := if_pos h

theorem State.dpdGovern_of_free (h : s.dpdPending g = false) : s.dpdGovern g = s.modObsGroup g fun y => { y with mode := s.dpdMode g } :=
  if_neg (by rw [h]; exact Bool.false_ne_true)

/-- What a new round with the mode that may govern makes of the group's record. -/
theorem dpdGovern_newRound_spec (hg : g < s.obs.length) :
    ∃ u, (s.dpdGovern g).dpdNewRound g = u ∧ u.regs = s.regs ∧ u.mem = s.mem ∧ (u.obsGroup g).used = [] ∧
      (u.obsGroup g).roundStart = s.obsPeriodNow g ∧ u.dpdGoverns g = if s.dpdPending g then s.dpdGoverns g else s.dpdMode g := by
  obtain ⟨f, hf, hmode⟩ : ∃ f : ObsGroup → ObsGroup, s.dpdGovern g = s.modObsGroup g f ∧
      (f (s.obsGroup g)).mode = if s.dpdPending g then s.dpdGoverns g else s.dpdMode g := by
    cases hp : s.dpdPending g with
    | true => exact ⟨id, by rw [State.dpdGovern_of_pending hp, State.modObsGroup, List.modify_id], rfl⟩
    | false => exact ⟨_, State.dpdGovern_of_free hp, rfl⟩
  have hlen : g < (s.modObsGroup g f).obs.length := (List.length_modify ..).symm ▸ hg
  refine ⟨_, rfl, ?_, ?_, ?_, ?_, ?_⟩ <;> rw [hf]
  · rfl
  · rfl
  · rw [State.dpdNewRound, State.obsGroup_modObsGroup_same hlen]
  · rw [State.dpdNewRound, State.obsGroup_modObsGroup_same hlen]
    rfl
  · rw [State.dpdGoverns, State.dpdNewRound, State.obsGroup_modObsGroup_same hlen, State.obsGroup_modObsGroup_same hg]
    exact hmode

end

theorem claim_dpdHost : Claim.DpdHost := by
  intro s t ch g v hr hlen
  refine ⟨?_, fun hmode => ?_, fun hmode => ?_⟩
  · refine ⟨_, gives_hostCmd hr rfl, ?_, ?_, fun a ha => ?_, rfl⟩
    · rw [State.dpdDiscard, State.get_put_apart _ rfl (by simp [Fld.apart]), State.get_put_same _ rfl]
      rfl
    · rw [State.dpdDiscard, State.get_put_same _ rfl]
      rfl
    · have hne : (Reg.GROUP.DPD_STATUS.word g.val).addr ≠ a := fun h => ha (List.mem_singleton.2 h.symm)
      rw [State.dpdDiscard, State.word_put_other (f := Reg.GROUP.DPD_STATUS.staged g.val) _ hne, State.word_put_other (f := Reg.GROUP.DPD_STATUS.staged_mask g.val) _ hne]
      rfl
  · obtain ⟨hobs, hmem, hstored, hfitting, -⟩ := dpdStored_spec (s := s.atTime t) g v
    rw [if_pos hmode] at hstored
    exact ⟨_, .of_eq (gives_hostCmd hr rfl) (State.dpdModeWrite_eq v |>.trans (if_pos hmode)), hstored, hobs, hmem, hfitting⟩
  · obtain ⟨hobs, hmem, hstored, hfitting, hverifying, hsame, hshape⟩ := dpdStored_spec (s := s.atTime t) g v
    obtain ⟨w, hw⟩ : ∃ w, w = (s.atTime t).dpdStored g.val v := ⟨_, rfl⟩
    rw [← hw] at hobs hmem hstored hfitting hverifying hsame hshape
    have hg : g.val < w.obs.length := by
      rw [hobs]
      exact hlen.symm ▸ g.isLt
    obtain ⟨hzero, hwords, hpending, hgoverns, hlength, hnow, hstay⟩ := dpdStopped_spec hg
    obtain ⟨u, hu, huregs, humem, hused, hround, hugov⟩ := dpdGovern_newRound_spec (hlength.symm ▸ hg)
    have hgives : Gives (.dpdModeWrite t ch g v) s u := by
      rw [← hu, hw]
      exact .of_eq (gives_hostCmd hr rfl) (State.dpdModeWrite_eq v |>.trans (if_neg hmode))
    rw [if_neg hmode] at hstored
    have hmodeStopped : (w.dpdStopped g.val).dpdMode g.val = getBits v 0 2 := (hwords.get (by dsimp only; omega)).trans hstored
    have hwgroup : w.obsGroup g.val = s.obsGroup g.val := by
      rw [State.obsGroup, hobs]
      rfl
    have hwpending : w.dpdPending g.val = s.dpdPending g.val := by
      rw [State.dpdPending, State.flag, hverifying, hwgroup]
      rfl
    have hperiod : (w.dpdStopped g.val).obsPeriodNow g.val = (s.atTime t).obsPeriodNow g.val := by
      have hwnow : w.arrayNow = (s.atTime t).arrayNow := by
        obtain ⟨_, h⟩ := hshape
        rw [h]
        rfl
      rw [State.obsPeriodNow, State.obsPeriod, hnow, hwnow, hwords.get (by dsimp only; omega), hsame.get (by simp), State.obsPeriodNow, State.obsPeriod]
    refine ⟨u, hgives, ?_, ?_, hused, hround.trans (congrArg Int.ofNat hperiod), ?_, fun hfit => ?_⟩
    · rw [State.dpdMode, State.get_of_regs huregs]
      exact hmodeStopped
    · rw [State.get_of_regs huregs]
      exact hzero
    · rw [hugov, hpending, hwpending, hgoverns, hmodeStopped, State.dpdGoverns, hwgroup]
      rfl
    · rw [humem, hstay (hfitting.trans hfit), hmem]
      rfl

/-- Settles O32: what a mode write stores, what stops a fit, and what begins a round change different parts of the group. -/
theorem predistortionHost : Obligations.PredistortionHost := ⟨claim_obsHost, claim_dpdHost⟩

end Sys2Proof.Machine
end

