-- ==== Sys2Proof/Proofs/FronthaulFrames.lean ====
section
/-!
Fronthaul frames, partners and the answers of a port (R378, R379, R396, R410 to R414).
-/

namespace Sys2Proof.Machine

open Sys2Proof

/-! ### Frames -/

section

variable {s : State} {n : Nat} {f : Frame}

theorem State.fhUpOn_of_up (hn : n < 8) (h : s.fhPortState n = fhUp) : s.fhUpOn n = true := by
  rw [State.fhUpOn, h, decide_eq_true hn]
  rfl

theorem State.fhUpOn_of_down (h : s.fhPortState n ≠ fhUp) : s.fhUpOn n = false := by
  rw [State.fhUpOn, beq_eq_false_iff_ne.2 h, Bool.and_false]

/-- A frame wakes nothing in a part that is ACTIVE (R575). -/
theorem State.idleWake_of_active (h : s.power = powerActive) (src : Nat) : s.idleWake src = s := by
  unfold State.idleWake
  rw [h]
  rfl

theorem State.frame_of_down (h : s.fhPortState n ≠ fhUp) : s.frame n f = s := if_pos (by rw [State.fhUpOn_of_down h]; rfl)

/-- A frame on a port in UP, with its checks (R378, R379). -/
theorem State.frame_of_up (hn : n < 8) (hup : s.fhPortState n = fhUp) (hactive : s.power = powerActive) :
    s.frame n f =
      if !f.fcsOk || f.length < 64 || s.get Reg.FRONTHAUL.MODE.mtu < f.length then s.bump (Reg.FRONTHAUL.PORT_DROP_FCS.word n)
      else if !s.formOk n f then s.bump (Reg.FRONTHAUL.PORT_DROP_FORM.word n)
      else match f.body with
        | .ecpri _ msgs => (msgs.foldl (fun (x : State × Bool) m => x.1.ecpriMsg n f x.2 m) (s, false)).1
        | .ip _ odd udp len =>
          if (s.get Reg.FRONTHAUL.SXM_CTL.port_mask).testBit n && s.sxmVlan == f.vids.head? &&
              (udp.isNone || udp == some (s.get Reg.FRONTHAUL.SXM_CTL.udp)) && (udp.isSome || odd) then s.sxmDatagram odd len
          else s
        | .other => s := by
  have hno : ¬ (!s.fhUpOn n) = true := by
    rw [State.fhUpOn_of_up hn hup]
    exact Bool.false_ne_true
  refine (if_neg hno).trans ?_
  rw [State.idleWake_of_active hactive] <;> rfl

theorem State.frame_of_badCheck (hn : n < 8) (hup : s.fhPortState n = fhUp) (hactive : s.power = powerActive)
    (h : f.fcsOk = false ∨ f.length < 64 ∨ s.get Reg.FRONTHAUL.MODE.mtu < f.length) : s.frame n f = s.bump (Reg.FRONTHAUL.PORT_DROP_FCS.word n) := by
  rw [State.frame_of_up hn hup hactive]
  refine if_pos ?_
  rw [Bool.or_eq_true, Bool.or_eq_true, Bool.not_eq_true', decide_eq_true_eq, decide_eq_true_eq, or_assoc]
  exact h

/-- What a frame whose length and check sequence pass is to a port in UP. -/
theorem State.frame_of_checked (hn : n < 8) (hup : s.fhPortState n = fhUp) (hactive : s.power = powerActive) (hfcs : f.fcsOk = true) (hshort : 64 ≤ f.length)
    (hlong : f.length ≤ s.get Reg.FRONTHAUL.MODE.mtu) :
    (s.formOk n f = false → s.frame n f = s.bump (Reg.FRONTHAUL.PORT_DROP_FORM.word n)) ∧
      (s.formOk n f = true → f.body = .other → s.frame n f = s) ∧
      ∀ r m, s.formOk n f = true → f.body = .ecpri r [m] → s.frame n f = (s.ecpriMsg n f false m).1 := by
  have hchecked : ¬ (!f.fcsOk || decide (f.length < 64) || decide (s.get Reg.FRONTHAUL.MODE.mtu < f.length)) = true := by
    rw [hfcs, decide_eq_false (Nat.not_lt.2 hshort), decide_eq_false (Nat.not_lt.2 hlong)]
    exact Bool.false_ne_true
  have hformed (h : s.formOk n f = true) : ¬ (!s.formOk n f) = true := by
    rw [h]
    exact Bool.false_ne_true
  rw [State.frame_of_up hn hup hactive, if_neg hchecked]
  refine ⟨fun h => if_pos (by rw [h]; rfl), fun h hbody => ?_, fun r m h hbody => ?_⟩
  · rw [if_neg (hformed h), hbody]
  · rw [if_neg (hformed h), hbody]
    rfl

/-- A message of a known partner renews its lease and does no more while the partner is ACTIVE (R395). -/
theorem State.ecpriMsg_of_partner {m : EcpriMsg} {p : Nat} (htype : m.type = 0) (hebit : m.ebit = true) (hsub : m.sub = 0)
    (hfind : (s.ptUsed.find? fun k => s.srcMatches k f && s.ptHas k m.eaxc) = some p) (hactive : s.ptState p = ptActive) :
    (s.ecpriMsg n f false m).1 = s.modPartner p fun x => { x with last := s.now } := by
  have haccept : s.ptAccept p = s.modPartner p fun x => { x with last := s.now } := by
    refine if_neg ?_
    rw [show (s.modPartner p fun x => { x with last := s.now }).ptState p = ptActive from hactive]
    decide
  have hmine : (fun k => s.srcMatches k f && (m.type == 5 || s.ptHas k m.eaxc)) = fun k => s.srcMatches k f && s.ptHas k m.eaxc := by
    rw [htype]
    rfl
  unfold State.ecpriMsg
  dsimp only
  rw [← haccept, hmine, hfind, htype, hebit, hsub]
  rfl

/-- A message of no partner that may not enrol is counted where no partner is known (R379, R380). -/
theorem State.ecpriMsg_of_stranger {m : EcpriMsg} (htype : m.type = 0) (hused : s.ptUsed = []) (hmay : s.mayEnrol f.vids m.eaxc = false) :
    (s.ecpriMsg n f false m).1 = s.bump (Reg.FRONTHAUL.PORT_DROP_PARTNER.word n) := by
  rw [State.ecpriMsg, htype, hused, hmay]
  rfl

end

/-! ### Partners and answers -/

theorem claim_fhFrames : Claim.FhFrames := by
  intro s t n f ch e
  refine ⟨fun h => .of_eq rfl (State.frame_of_down h), fun hup hactive => ⟨fun h => .of_eq rfl (State.frame_of_badCheck n.isLt hup hactive h),
    fun hfcs hshort hlong => ?_⟩, fun hr => ⟨fun h => ?_, fun h => ?_⟩⟩
  · obtain ⟨hform, hother, hmsg⟩ := State.frame_of_checked (s := s.atTime t) n.isLt hup hactive hfcs hshort hlong
    refine ⟨fun h => .of_eq rfl (hform h), fun h hbody => .of_eq rfl (hother h hbody), fun m p h hbody htype hebit hsub hfind _ hp => ?_,
      fun m h hbody htype _ _ hused hmay => ?_⟩
    · exact .of_eq rfl ((hmsg 1 m h hbody).trans (State.ecpriMsg_of_partner htype hebit hsub hfind hp))
    · exact .of_eq rfl ((hmsg 1 m h hbody).trans (State.ecpriMsg_of_stranger htype hused hmay))
  · exact .of_eq (gives_hostCmd hr rfl) (if_neg (by rw [beq_iff_eq]; exact h))
  · have hne : (Reg.FRONTHAUL.PT_STATUS.word e.val).addr ≠ (Reg.FRONTHAUL.PT_CTL.word e.val).addr := by
      dsimp only
      omega
    refine ⟨_, .of_eq (gives_hostCmd hr rfl) (if_pos (beq_iff_eq.2 h)), ?_, ?_, fun a ha => ?_, rfl⟩
    · rw [State.ptState, State.get_put_same _ rfl]
      rfl
    · rw [State.get_put_elsewhere (f := Reg.FRONTHAUL.PT_STATUS.state e.val) (g := Reg.FRONTHAUL.PT_CTL.valid e.val) _ hne, State.get_put_same _ rfl]
      rfl
    · have hout : SameOff (· ∈ [(Reg.FRONTHAUL.PT_CTL.word e.val).addr, (Reg.FRONTHAUL.PT_STATUS.word e.val).addr]) s (s.atTime t) := .of_regs rfl
      exact ((hout.put (f := Reg.FRONTHAUL.PT_CTL.valid e.val) (by simp) 1).put (f := Reg.FRONTHAUL.PT_STATUS.state e.val) (by simp) ptActive) a ha

section

variable {s : State} {n action id : Nat} {stamp : Int}

theorem State.delayAnswer_of_down (h : s.fhPortState n ≠ fhUp) : s.delayAnswer n action id stamp = s :=
  if_pos (by rw [State.fhUpOn_of_down h]; rfl)

theorem State.delayAnswer_of_up (hn : n < 8) (hup : s.fhPortState n = fhUp) :
    s.delayAnswer n action id stamp =
      if action = 0 then s.emit (.delay n 2 id stamp (Config.compensation n))
      else if action = 1 then { s with fh := { s.fh with asked := (s.fh.asked.filter fun a => !(a.1 == n && a.2.1 == id)) ++ [(n, id, stamp)] } }
      else if action = 5 then
        match s.fh.asked.find? fun a => a.1 == n && a.2.1 == id with
        | some a =>
          ({ s with fh := { s.fh with asked := s.fh.asked.filter fun a => !(a.1 == n && a.2.1 == id) } } : State).emit
            (.delay n 2 id a.2.2 (Config.compensation n))
        | none => s
      else if action = 3 then s.emit (.delay n 0 id stamp (Config.compensation n))
      else if action = 4 then s.emit (.delay n 1 id stamp (Config.compensation n))
      else s := if_neg (by rw [State.fhUpOn_of_up hn hup]; exact Bool.false_ne_true)

theorem State.followUp_of_unasked (hn : n < 8) (hup : s.fhPortState n = fhUp) (h : (s.fh.asked.find? fun a => a.1 == n && a.2.1 == id) = none) :
    s.delayAnswer n 5 id stamp = s := by
  rw [State.delayAnswer_of_up hn hup, if_neg (by decide), if_neg (by decide), if_pos rfl, h]

/-- The answer carries the receive timestamp of the Request (R413). -/
theorem State.followUp_of_asked {a : Nat × Nat × Int} (hn : n < 8) (hup : s.fhPortState n = fhUp)
    (h : (s.fh.asked.find? fun a => a.1 == n && a.2.1 == id) = some a) :
    s.delayAnswer n 5 id stamp =
      ({ s with fh := { s.fh with asked := s.fh.asked.filter fun a => !(a.1 == n && a.2.1 == id) } } : State).emit
        (.delay n 2 id a.2.2 (Config.compensation n)) := by
  rw [State.delayAnswer_of_up hn hup, if_neg (by decide), if_neg (by decide), if_pos rfl, h]

/-- No Follow_Up of a measurement waits once those of its ID are gone. -/
theorem not_mem_asked_filter {l : List (Nat × Nat × Int)} : ∀ a ∈ l.filter fun a => !(a.1 == n && a.2.1 == id), ¬ (a.1 = n ∧ a.2.1 = id) := by
  rintro a ha ⟨h1, h2⟩
  have := (List.mem_filter.1 ha).2
  rw [h1, h2] at this
  simp at this

theorem State.ptpArrived_of_unheard {domain : Nat} {body : PtpBody}
    (h : s.fhPortState n ≠ fhUp ∨ s.get Reg.FRONTHAUL.PTP_CTL.mode = 0 ∨ domain ≠ s.get Reg.FRONTHAUL.PTP_CTL.domain) : s.ptpArrived n domain body = s := by
  refine if_pos ?_
  rw [Bool.or_eq_true, Bool.or_eq_true, Bool.not_eq_true', decide_eq_true_eq, bne_iff_ne, or_assoc]
  exact h.imp_left State.fhUpOn_of_down

theorem State.ptpArrived_sync {domain : Nat} {t1 t2 : Int} {x : PtpMaster} (hn : n < 8) (hup : s.fhPortState n = fhUp)
    (hmode : s.get Reg.FRONTHAUL.PTP_CTL.mode ≠ 0) (hdomain : domain = s.get Reg.FRONTHAUL.PTP_CTL.domain) (hx : s.fh.masters.getD n none = some x) :
    s.ptpArrived n domain (.sync t1 t2) = { s with fh := { s.fh with masters := s.fh.masters.set n (some { x with sync := some (t1, t2) }) } } := by
  refine (if_neg ?_).trans ?_
  · rw [State.fhUpOn_of_up hn hup, hdomain, decide_eq_false hmode, bne_self_eq_false]
    exact Bool.false_ne_true
  · dsimp only
    rw [hx]

end

theorem claim_fhAnswers : Claim.FhAnswers := by
  intro s t n action id seq domain stamp mac ip target data body
  refine ⟨fun hdown => ?_, fun hup => ?_⟩
  · have hoff : (s.atTime t).fhUpOn n.val = false := State.fhUpOn_of_down hdown
    have hno (b : Bool) : ¬ ((s.atTime t).fhUpOn n.val && b) = true := by
      rw [hoff]
      exact Bool.false_ne_true
    simp only [List.mem_cons, List.not_mem_nil, or_false]
    rintro i (rfl | rfl | rfl | rfl | rfl)
    · exact .of_eq rfl (State.delayAnswer_of_down hdown)
    · exact .of_eq rfl (if_neg (hno _))
    · exact .of_eq rfl (if_neg (hno _))
    · exact .of_eq rfl (if_neg (hno _))
    · exact .of_eq rfl (State.ptpArrived_of_unheard (.inl hdown))
  · have hon : (s.atTime t).fhUpOn n.val = true := State.fhUpOn_of_up n.isLt hup
    have hdelay := State.delayAnswer_of_up (s := s.atTime t) (action := action) (id := id) (stamp := stamp) n.isLt hup
    refine ⟨?_, fun h => ?_, fun h hnone => ?_, fun x h hmem hall => ?_, fun h => ?_, fun h => ⟨?_, ?_⟩, fun h => ?_, fun h => ⟨?_, fun h6 => ?_⟩, fun h => ?_,
      fun h => .of_eq rfl (State.ptpArrived_of_unheard (.inr h)), fun t1 t2 x hmode hdomain hbody hx hlen => ?_⟩
    · simp only [List.mem_cons, List.not_mem_nil, or_false]
      rintro p (rfl | rfl | rfl) rfl <;> exact .of_eq rfl hdelay
    · refine ⟨_, .of_eq rfl (hdelay.trans ((if_neg (by omega)).trans (if_pos h))), List.mem_append_right _ List.mem_cons_self, fun a ha h1 h2 => ?_, rfl, rfl⟩
      rcases List.mem_append.1 ha with ha | ha
      · exact absurd ⟨h1, h2⟩ (not_mem_asked_filter a ha)
      · rw [List.mem_singleton.1 ha]
    · have hfind : ((s.atTime t).fh.asked.find? fun a => a.1 == n.val && a.2.1 == id) = none := by
        rw [List.find?_eq_none]
        intro a ha h
        rw [Bool.and_eq_true, beq_iff_eq, beq_iff_eq] at h
        exact hnone a ha h
      rw [h]
      exact .of_eq rfl (State.followUp_of_unasked n.isLt hup hfind)
    · obtain ⟨a, ha⟩ : ∃ a, ((s.atTime t).fh.asked.find? fun a => a.1 == n.val && a.2.1 == id) = some a := by
        rw [← Option.isSome_iff_exists, List.find?_isSome]
        exact ⟨_, hmem, by simp⟩
      have hprop := List.find?_some ha
      rw [Bool.and_eq_true, beq_iff_eq, beq_iff_eq] at hprop
      have hstamp := hall a (List.mem_of_find?_eq_some ha) hprop.1 hprop.2
      rw [h]
      refine ⟨_, .of_eq rfl (State.followUp_of_asked n.isLt hup ha), ?_, not_mem_asked_filter, rfl⟩
      rw [hstamp]
      rfl
    · refine .of_eq rfl (hdelay.trans ?_)
      rw [if_neg (by omega), if_neg (by omega), if_neg (by omega), if_neg (by omega), if_neg (by omega)]
    · exact .of_eq rfl (if_pos (Bool.and_eq_true_iff.2 ⟨hon, h⟩))
    · exact .of_eq rfl (if_pos (Bool.and_eq_true_iff.2 ⟨hon, Bool.or_eq_true_iff.2 (.inl h)⟩))
    · exact .of_eq rfl (if_pos (Bool.and_eq_true_iff.2 ⟨hon, h⟩))
    · exact .of_eq rfl (if_neg fun hyes => Bool.false_ne_true (h.symm.trans (Bool.and_eq_true_iff.1 hyes).2))
    · refine .of_eq rfl (if_neg fun hyes => ?_)
      rcases Bool.or_eq_true_iff.1 (Bool.and_eq_true_iff.1 hyes).2 with h' | h'
      · exact Bool.false_ne_true (h.symm.trans h')
      · exact Bool.false_ne_true (h6.symm.trans h')
    · exact .of_eq rfl (if_neg fun hyes => Bool.false_ne_true (h.symm.trans (Bool.and_eq_true_iff.1 hyes).2))
    · rw [hbody]
      refine ⟨_, .of_eq rfl (State.ptpArrived_sync (s := s.atTime t) n.isLt hup hmode hdomain hx), ?_, rfl, rfl⟩
      have hn : n.val < s.fh.masters.length := hlen.symm ▸ n.isLt
      simp [List.getD_eq_getElem?_getD, hn]

/-- Settles O42: a frame is judged by its checks before its body, and an answer goes out only from a port in UP. -/
theorem fronthaulFrames : Obligations.FronthaulFrames := ⟨claim_fhFrames, claim_fhAnswers⟩

end Sys2Proof.Machine
end

