-- ==== Sys2Proof/Proofs/LaneTuning.lean ====
section
/-!
Adaptation and test of fronthaul and stair lanes (R417 to R419, R433, R434).
-/

namespace Sys2Proof.Machine

open Sys2Proof

/-! ### Fronthaul lanes -/

section

variable {s : State} {lane fom : Nat}

theorem State.fhAdapt_of_idle (h : s.fhPortState (s.fhPortOf lane) ≠ fhTrain ∧ s.fhPortState (s.fhPortOf lane) ≠ fhUp) : s.fhAdapt lane fom = s :=
  if_pos (Bool.and_eq_true_iff.2 ⟨bne_iff_ne.2 h.1, bne_iff_ne.2 h.2⟩)

/-- A commit on a lane whose port trains or is UP (R417). -/
theorem State.fhAdapt_of_active (h : s.fhPortState (s.fhPortOf lane) = fhTrain ∨ s.fhPortState (s.fhPortOf lane) = fhUp) (hfom : fom < 256) {v : State}
    (hv : v = s.put (Reg.FRONTHAUL.LANE_RX.fom lane) fom) :
    s.fhAdapt lane fom =
      if v.flag (Reg.FRONTHAUL.LANE_RX.freeze lane) then v
      else if s.get (Reg.FRONTHAUL.LANE_RX.fom_committed lane) ≤ fom + 4 then v.put (Reg.FRONTHAUL.LANE_RX.fom_committed lane) fom
      else if fom + 12 < s.get (Reg.FRONTHAUL.LANE_RX.fom_committed lane) then
        ({ v with fh := { v.fh with laneBack := v.fh.laneBack.set lane v.now } } : State).bump (Reg.FRONTHAUL.LANE_RX.rollback lane)
      else v := by
  have hno : ¬ (s.fhPortState (s.fhPortOf lane) != fhTrain && s.fhPortState (s.fhPortOf lane) != fhUp) = true := by
    rw [Bool.and_eq_true, bne_iff_ne, bne_iff_ne]
    rintro ⟨h1, h2⟩
    exact h.elim h1 h2
  have hmin : min 255 fom = fom := by omega
  refine (if_neg hno).trans ?_
  rw [hmin, hv]

theorem flag_freeze_fom (n : Nat) : (s.put (Reg.FRONTHAUL.LANE_RX.fom lane) n).flag (Reg.FRONTHAUL.LANE_RX.freeze lane) = s.flag (Reg.FRONTHAUL.LANE_RX.freeze lane) := by
  rw [State.flag, State.flag, State.get_put_apart _ rfl (by simp [Fld.apart])]

theorem fhAdapt_spec (h : s.fhPortState (s.fhPortOf lane) = fhTrain ∨ s.fhPortState (s.fhPortOf lane) = fhUp) (hfom : fom < 256)
    (hfreeze : s.get (Reg.FRONTHAUL.LANE_RX.freeze lane) = 0) {old : Nat} (hold : old = s.get (Reg.FRONTHAUL.LANE_RX.fom_committed lane)) :
    ∃ u, s.fhAdapt lane fom = u ∧ u.get (Reg.FRONTHAUL.LANE_RX.fom lane) = fom ∧
      u.get (Reg.FRONTHAUL.LANE_RX.fom_committed lane) = (if old ≤ fom + 4 then fom else old) ∧
      u.get (Reg.FRONTHAUL.LANE_RX.rollback lane) = (s.get (Reg.FRONTHAUL.LANE_RX.rollback lane) + (if fom + 12 < old then 1 else 0)) % 256 ∧
      u.fh.laneBack = (if fom + 12 < old then s.fh.laneBack.set lane s.now else s.fh.laneBack) ∧
      SameWords s u [(Reg.FRONTHAUL.LANE_RX.word lane).addr] := by
  obtain ⟨v, hv⟩ : ∃ v, v = s.put (Reg.FRONTHAUL.LANE_RX.fom lane) fom := ⟨_, rfl⟩
  have hnot : ¬ v.flag (Reg.FRONTHAUL.LANE_RX.freeze lane) = true := by
    rw [hv, flag_freeze_fom, State.flag_eq_false hfreeze]
    exact Bool.false_ne_true
  have hvfom : v.get (Reg.FRONTHAUL.LANE_RX.fom lane) = fom := by
    rw [hv, State.get_put_same _ rfl]
    exact Nat.mod_eq_of_lt hfom
  have hvold : v.get (Reg.FRONTHAUL.LANE_RX.fom_committed lane) = old := by
    rw [hv, State.get_put_apart _ rfl (by simp [Fld.apart]), hold]
  have hvback : v.get (Reg.FRONTHAUL.LANE_RX.rollback lane) = s.get (Reg.FRONTHAUL.LANE_RX.rollback lane) := by
    rw [hv, State.get_put_apart _ rfl (by simp [Fld.apart])]
  have hback : v.get (Reg.FRONTHAUL.LANE_RX.rollback lane) = (s.get (Reg.FRONTHAUL.LANE_RX.rollback lane) + 0) % 256 := by
    rw [hvback]
    exact (Nat.mod_eq_of_lt (s.get_lt (Reg.FRONTHAUL.LANE_RX.rollback lane))).symm
  have hsame : SameOff (· ∈ [(Reg.FRONTHAUL.LANE_RX.word lane).addr]) s v := by
    rw [hv]
    exact (SameOff.refl s).put (f := Reg.FRONTHAUL.LANE_RX.fom lane) (List.mem_singleton.2 rfl) fom
  have hfh : v.fh = s.fh ∧ v.now = s.now := by
    rw [hv]
    exact ⟨rfl, rfl⟩
  refine ⟨_, (State.fhAdapt_of_active h hfom hv).trans (if_neg hnot), ?_⟩
  rw [← hold]
  by_cases hkeep : old ≤ fom + 4
  · rw [if_pos hkeep, if_pos hkeep, if_neg (by omega), if_neg (by omega)]
    refine ⟨?_, ?_, ?_, congrArg FhState.laneBack hfh.1, hsame.put (f := Reg.FRONTHAUL.LANE_RX.fom_committed lane) (List.mem_singleton.2 rfl) fom⟩
    · rw [State.get_put_apart _ rfl (by simp [Fld.apart]), hvfom]
    · rw [State.get_put_same _ rfl]
      exact Nat.mod_eq_of_lt hfom
    · rw [State.get_put_apart _ rfl (by simp [Fld.apart]), hback]
  · rw [if_neg hkeep, if_neg hkeep]
    by_cases hfall : fom + 12 < old
    · rw [if_pos hfall, if_pos hfall, if_pos hfall]
      obtain ⟨w, hw⟩ : ∃ w : State, w = { v with fh := { v.fh with laneBack := v.fh.laneBack.set lane v.now } } := ⟨_, rfl⟩
      have hwget (f : Fld) : w.get f = v.get f := by
        rw [hw]
        rfl
      have hwsame : SameOff (· ∈ [(Reg.FRONTHAUL.LANE_RX.word lane).addr]) s w := hsame.trans (.of_regs (by rw [hw]))
      have hwback : w.fh.laneBack = s.fh.laneBack.set lane s.now := by
        rw [hw, ← hfh.1, ← hfh.2]
      rw [← hw]
      refine ⟨?_, ?_, ?_, hwback, hwsame.put (f := Reg.FRONTHAUL.LANE_RX.rollback lane) (List.mem_singleton.2 rfl) _⟩
      · rw [State.get_bump_apart _ rfl (by simp [Fld.apart]), hwget, hvfom]
      · rw [State.get_bump_apart _ rfl (by simp [Fld.apart]), hwget, hvold]
      · rw [State.get_bump_same _ rfl, hwget, hvback]
        rfl
    · rw [if_neg hfall, if_neg hfall, if_neg hfall]
      exact ⟨hvfom, hvold, hback, congrArg FhState.laneBack hfh.1, hsame⟩

/-- A 64-bit count in two registers grows modulo 2^64. -/
theorem State.add64_spec {lo hi : Fld} (hlo : lo.fits = true) (hhi : hi.fits = true) (hlow : lo.width = 32) (hhiw : hi.width = 32) (hne : hi.addr ≠ lo.addr) (n : Nat) :
    (s.add64 lo hi n).get hi * 2 ^ 32 + (s.add64 lo hi n).get lo = (s.get hi * 2 ^ 32 + s.get lo + n) % 2 ^ 64 ∧
      SameOff (· ∈ [lo.addr, hi.addr]) s (s.add64 lo hi n) ∧ ∃ regs, s.add64 lo hi n = { s with regs := regs } := by
  refine ⟨?_, ?_, ⟨_, rfl⟩⟩
  · unfold State.add64
    rw [State.get_put_same _ hhi, State.get_put_elsewhere _ hne, State.get_put_same _ hlo, hlow, hhiw]
    omega
  · exact ((SameOff.refl s).put (f := lo) List.mem_cons_self _).put (f := hi) (List.mem_cons_of_mem _ List.mem_cons_self) _

end

/-- A checker that locks, with the bits it heard and the errors found (R418). -/
def State.locked (s : State) (lane bits found : Nat) : State :=
  ((({ s with fh := { s.fh with injected := s.fh.injected.set lane 0 } } : State).put (Reg.FRONTHAUL.LANE_TEST.chk_lock lane) 1).add64
    (Reg.FRONTHAUL.LANE_BITS_LO.word lane) (Reg.FRONTHAUL.LANE_BITS_HI.word lane) bits).add64
    (Reg.FRONTHAUL.LANE_ERR_LO.word lane) (Reg.FRONTHAUL.LANE_ERR_HI.word lane) found

theorem locked_spec {s : State} {lane : Nat} (hlane : lane < s.fh.injected.length) (bits found : Nat) {u : State} (hu : u = s.locked lane bits found) :
    u.get (Reg.FRONTHAUL.LANE_TEST.chk_lock lane) = 1 ∧
      u.get (Reg.FRONTHAUL.LANE_BITS_HI.word lane) * 2 ^ 32 + u.get (Reg.FRONTHAUL.LANE_BITS_LO.word lane) =
        (s.get (Reg.FRONTHAUL.LANE_BITS_HI.word lane) * 2 ^ 32 + s.get (Reg.FRONTHAUL.LANE_BITS_LO.word lane) + bits) % 2 ^ 64 ∧
      u.get (Reg.FRONTHAUL.LANE_ERR_HI.word lane) * 2 ^ 32 + u.get (Reg.FRONTHAUL.LANE_ERR_LO.word lane) =
        (s.get (Reg.FRONTHAUL.LANE_ERR_HI.word lane) * 2 ^ 32 + s.get (Reg.FRONTHAUL.LANE_ERR_LO.word lane) + found) % 2 ^ 64 ∧
      u.fh.injected.getD lane 0 = 0 ∧ u.mem = s.mem ∧ u.out = s.out := by
  obtain ⟨v, hv⟩ : ∃ v : State, v = ({ s with fh := { s.fh with injected := s.fh.injected.set lane 0 } } : State) := ⟨_, rfl⟩
  obtain ⟨w, hw⟩ : ∃ w, w = v.put (Reg.FRONTHAUL.LANE_TEST.chk_lock lane) 1 := ⟨_, rfl⟩
  obtain ⟨hbits, hbitsSame, hbitsShape⟩ := State.add64_spec (s := w) (lo := Reg.FRONTHAUL.LANE_BITS_LO.word lane) (hi := Reg.FRONTHAUL.LANE_BITS_HI.word lane) rfl rfl
    rfl rfl (by dsimp only; omega) bits
  obtain ⟨x, hx⟩ : ∃ x, x = w.add64 (Reg.FRONTHAUL.LANE_BITS_LO.word lane) (Reg.FRONTHAUL.LANE_BITS_HI.word lane) bits := ⟨_, rfl⟩
  rw [← hx] at hbits hbitsSame hbitsShape
  obtain ⟨herr, herrSame, herrShape⟩ := State.add64_spec (s := x) (lo := Reg.FRONTHAUL.LANE_ERR_LO.word lane) (hi := Reg.FRONTHAUL.LANE_ERR_HI.word lane) rfl rfl
    rfl rfl (by dsimp only; omega) found
  have hux : u = x.add64 (Reg.FRONTHAUL.LANE_ERR_LO.word lane) (Reg.FRONTHAUL.LANE_ERR_HI.word lane) found := by
    rw [hu, hx, hw, hv]
    rfl
  rw [← hux] at herr herrSame herrShape
  have hwget (f : Fld) (hf : f.addr ≠ (Reg.FRONTHAUL.LANE_TEST.word lane).addr) : w.get f = s.get f := by
    rw [hw, State.get_put_elsewhere (f := Reg.FRONTHAUL.LANE_TEST.chk_lock lane) _ hf.symm, hv]
    rfl
  have hkeep : u.fh = v.fh ∧ u.mem = v.mem ∧ u.out = v.out := by
    obtain ⟨_, h1⟩ := hbitsShape
    obtain ⟨_, h2⟩ := herrShape
    rw [h2, h1, hw]
    exact ⟨rfl, rfl, rfl⟩
  obtain ⟨hfh, hmem, hout⟩ := hkeep
  refine ⟨?_, ?_, ?_, ?_, ?_, ?_⟩
  · rw [herrSame.get (by simp), hbitsSame.get (by simp), hw, State.get_put_same _ rfl]
    rfl
  · rw [herrSame.get (by simp), herrSame.get (by simp), hbits, hwget _ (by simp), hwget _ (by simp)]
  · rw [herr, hbitsSame.get (by simp), hbitsSame.get (by simp), hwget _ (by simp), hwget _ (by simp)]
  · rw [hfh, hv]
    simp [List.getD_eq_getElem?_getD, hlane]
  · rw [hmem, hv]
  · rw [hout, hv]

theorem State.laneHears_eq (s : State) (lane : Nat) :
    s.laneHears lane = if s.get (Reg.FRONTHAUL.LANE_TEST.loopback lane) = 1 then .output
      else if s.get (Reg.FRONTHAUL.LANE_TEST.loopback lane) = 2 then .parallel else .link := by
  unfold State.laneHears
  split
  next h => rw [h, if_pos rfl]
  next h => rw [h, if_neg (by decide), if_pos rfl]
  next h1 h2 => rw [if_neg h1, if_neg h2]

theorem State.laneHears_parallel (s : State) (lane : Nat) : s.laneHears lane = .parallel ↔ s.get (Reg.FRONTHAUL.LANE_TEST.loopback lane) = 2 := by
  rw [State.laneHears_eq]
  split
  next h => rw [h]; decide
  next => split <;> simp_all

theorem claim_fhLanes : Claim.FhLanes := by
  intro s t ch lane fom bits errors st old found hst hold hfom hinj hback
  refine ⟨fun h => ?_, fun h => ⟨fun hfreeze => ?_, fun hfreeze => ?_⟩, fun hr => ⟨fun h => ?_, fun h => ?_⟩, fun h => ?_, ?_, fun h hen hhears hfound => ?_⟩
  · rw [hst] at h
    exact .of_eq rfl (State.fhAdapt_of_idle h)
  · rw [hst] at h
    refine .of_eq rfl ((State.fhAdapt_of_active (s := s.atTime t) h hfom rfl).trans (if_pos ?_))
    rw [flag_freeze_fom]
    exact State.flag_eq_true hfreeze
  · rw [hst] at h
    obtain ⟨u, hu, hspec⟩ := fhAdapt_spec (s := s.atTime t) h hfom hfreeze hold
    exact ⟨u, .of_eq rfl hu, hspec⟩
  · have htest : (s.atTime t).laneInTest lane.val = true := beq_iff_eq.2 (hst.symm.trans h)
    have hlane : lane.val < s.fh.injected.length := hinj.symm ▸ lane.isLt
    refine ⟨_, .of_eq (gives_hostCmd hr rfl) (if_pos htest), rfl, rfl, ?_⟩
    simp [State.injectError, State.emit, List.getD_eq_getElem?_getD, hlane]
  · have htest : ¬ (s.atTime t).laneInTest lane.val = true := fun h' => h (hst.trans (beq_iff_eq.1 h'))
    exact .of_eq (gives_hostCmd hr rfl) (if_neg htest)
  · refine .of_eq rfl (if_neg ?_)
    rw [Bool.and_eq_true, Bool.and_eq_true]
    rintro ⟨⟨h1, h2⟩, h3⟩
    rcases h with h | h | h
    · exact h (hst.trans (beq_iff_eq.1 h1))
    · exact (State.flag_iff ..).1 h2 h
    · exact Bool.false_ne_true (h.symm.trans h3)
  · rintro mode rfl
    exact ⟨s.laneHears_eq lane.val, rfl⟩
  · have hyes : ((s.atTime t).laneInTest lane.val && (s.atTime t).flag (Reg.FRONTHAUL.LANE_TEST.chk_en lane.val) && (s.atTime t).hearsPattern lane.val) = true :=
      Bool.and_eq_true_iff.2 ⟨Bool.and_eq_true_iff.2 ⟨beq_iff_eq.2 (hst.symm.trans h), State.flag_eq_true hen⟩, hhears⟩
    have herrors : (s.atTime t).checkedErrors lane.val bits errors = found := by
      rw [hfound]
      unfold State.checkedErrors
      dsimp only
      simp only [State.laneHears_parallel]
      rfl
    refine ⟨_, .of_eq rfl (if_pos hyes), locked_spec (s := s.atTime t) (hinj.symm ▸ lane.isLt) bits found ?_⟩
    rw [herrors]
    rfl

/-! ### Stair lanes -/

theorem stairAdaptCommit_spec {s : State} {i fom : Nat} (hfom : fom < 256) :
    ∃ v, v = s.put (Reg.STAIR.LANE_ADAPT.fom i) fom ∧ ∀ u, u = (if !(v.flag (Reg.STAIR.LANE_ADAPT.freeze i) || (v.sLane i).rolled) &&
        v.get (Reg.STAIR.LANE_ADAPT.fom_committed i) ≤ v.get (Reg.STAIR.LANE_ADAPT.fom i) + 4 then v.put (Reg.STAIR.LANE_ADAPT.fom_committed i) fom else v) →
      u.get (Reg.STAIR.LANE_ADAPT.fom i) = fom ∧
      u.get (Reg.STAIR.LANE_ADAPT.fom_committed i) =
        (if s.get (Reg.STAIR.LANE_ADAPT.freeze i) = 0 ∧ (s.sLane i).rolled = false ∧ s.get (Reg.STAIR.LANE_ADAPT.fom_committed i) ≤ fom + 4 then fom
          else s.get (Reg.STAIR.LANE_ADAPT.fom_committed i)) ∧
      SameWords s u [(Reg.STAIR.LANE_ADAPT.word i).addr] := by
  obtain ⟨v, hv⟩ : ∃ v, v = s.put (Reg.STAIR.LANE_ADAPT.fom i) fom := ⟨_, rfl⟩
  refine ⟨v, hv, ?_⟩
  have hvfom : v.get (Reg.STAIR.LANE_ADAPT.fom i) = fom := by
    rw [hv, State.get_put_same _ rfl]
    exact Nat.mod_eq_of_lt hfom
  have hvold : v.get (Reg.STAIR.LANE_ADAPT.fom_committed i) = s.get (Reg.STAIR.LANE_ADAPT.fom_committed i) := by
    rw [hv, State.get_put_apart _ rfl (by simp [Fld.apart])]
  have hfreeze : v.flag (Reg.STAIR.LANE_ADAPT.freeze i) = true ↔ s.get (Reg.STAIR.LANE_ADAPT.freeze i) ≠ 0 := by
    rw [State.flag_iff, hv, State.get_put_apart _ rfl (by simp [Fld.apart])]
  have hlane : v.sLane i = s.sLane i := by
    rw [hv]
    rfl
  have hcond : (!(v.flag (Reg.STAIR.LANE_ADAPT.freeze i) || (v.sLane i).rolled) &&
      decide (v.get (Reg.STAIR.LANE_ADAPT.fom_committed i) ≤ v.get (Reg.STAIR.LANE_ADAPT.fom i) + 4)) = true ↔
      s.get (Reg.STAIR.LANE_ADAPT.freeze i) = 0 ∧ (s.sLane i).rolled = false ∧ s.get (Reg.STAIR.LANE_ADAPT.fom_committed i) ≤ fom + 4 := by
    rw [hlane, hvold, hvfom, Bool.and_eq_true, Bool.not_eq_true', Bool.or_eq_false_iff, decide_eq_true_eq, and_assoc, ← Bool.not_eq_true, hfreeze, not_not]
  have hsame : SameOff (· ∈ [(Reg.STAIR.LANE_ADAPT.word i).addr]) s v := by
    rw [hv]
    exact (SameOff.refl s).put (f := Reg.STAIR.LANE_ADAPT.fom i) (List.mem_singleton.2 rfl) fom
  rintro u rfl
  by_cases h : s.get (Reg.STAIR.LANE_ADAPT.freeze i) = 0 ∧ (s.sLane i).rolled = false ∧ s.get (Reg.STAIR.LANE_ADAPT.fom_committed i) ≤ fom + 4
  · rw [if_pos (hcond.2 h), if_pos h]
    refine ⟨?_, ?_, hsame.put (f := Reg.STAIR.LANE_ADAPT.fom_committed i) (List.mem_singleton.2 rfl) fom⟩
    · rw [State.get_put_apart _ rfl (by simp [Fld.apart]), hvfom]
    · rw [State.get_put_same _ rfl]
      exact Nat.mod_eq_of_lt hfom
  · rw [if_neg (mt hcond.1 h), if_neg h]
    exact ⟨hvfom, hvold, hsame⟩

theorem claim_stairLanes : Claim.StairLanes := by
  intro s t lane fom hfom hlen
  refine ⟨fun h => ⟨?_, ?_, ?_⟩, fun h => ⟨?_, fun htime => ?_, fun htime => ?_, fun hidle hlow hrolled => ?_⟩⟩
  · exact .of_eq rfl (if_pos (bne_iff_ne.2 h))
  · exact .of_eq rfl (if_neg fun h' => h (beq_iff_eq.1 (Bool.and_eq_true_iff.1 h').1))
  · refine .of_eq rfl (if_neg ?_)
    rw [Bool.and_eq_true, Bool.and_eq_true, Bool.and_eq_true, beq_iff_eq]
    exact fun h' => h h'.1.1.1
  · obtain ⟨v, rfl, hspec⟩ := stairAdaptCommit_spec (s := s.atTime t) (i := lane.val) hfom
    have hno : ¬ ((s.atTime t).laneState lane.val != slActive) = true := fun h' => bne_iff_ne.1 h' h
    exact ⟨_, .of_eq rfl (if_neg hno), hspec _ rfl⟩
  · exact .of_eq rfl (if_pos (Bool.and_eq_true_iff.2 ⟨beq_iff_eq.2 h, decide_eq_true htime⟩))
  · exact .of_eq rfl (if_neg fun h' => Nat.not_lt.2 (of_decide_eq_true (Bool.and_eq_true_iff.1 h').2) htime)
  · have hyes : ((s.atTime t).laneState lane.val == slActive && (s.atTime t).flag (Reg.STAIR.LANE_ADAPT.idle lane.val) &&
        decide (fom + 12 < (s.atTime t).get (Reg.STAIR.LANE_ADAPT.fom_committed lane.val)) && !((s.atTime t).sLane lane.val).rolled) = true := by
      rw [Bool.and_eq_true, Bool.and_eq_true, Bool.and_eq_true, Bool.not_eq_true', decide_eq_true_eq]
      exact ⟨⟨⟨beq_iff_eq.2 h, State.flag_eq_true hidle⟩, hlow⟩, hrolled⟩
    obtain ⟨v, hv⟩ : ∃ v, v = ((s.atTime t).put (Reg.STAIR.LANE_ADAPT.fom lane.val) fom).bump (Reg.STAIR.LANE_ADAPT.rollback lane.val) := ⟨_, rfl⟩
    have hvlen : lane.val < v.stair.lanes.length := by
      rw [hv]
      exact hlen.symm ▸ lane.isLt
    have hgives : Gives (.idleRollback t lane fom) s (v.modSLane lane.val fun x => { x with rolled := true }) := by
      rw [hv]
      exact .of_eq rfl (if_pos hyes)
    refine ⟨_, hgives, ?_, ?_, ?_, ?_⟩
    · refine Eq.trans (b := v.get (Reg.STAIR.LANE_ADAPT.fom lane.val)) rfl ?_
      rw [hv, State.get_bump_apart _ rfl (by simp [Fld.apart]), State.get_put_same _ rfl]
      exact Nat.mod_eq_of_lt hfom
    · refine Eq.trans (b := v.get (Reg.STAIR.LANE_ADAPT.rollback lane.val)) rfl ?_
      rw [hv, State.get_bump_same _ rfl, State.get_put_apart _ rfl (by simp [Fld.apart])]
      rfl
    · refine Eq.trans (b := v.get (Reg.STAIR.LANE_ADAPT.fom_committed lane.val)) rfl ?_
      rw [hv, State.get_bump_apart _ rfl (by simp [Fld.apart]), State.get_put_apart _ rfl (by simp [Fld.apart])]
      rfl
    · simp [State.sLane, State.modSLane, List.getD_eq_getElem?_getD, hvlen]

/-- Settles O44: each commit compares the figure it has just shown with the committed one, and a checker finds what its lane hears. -/
theorem laneTuning : Obligations.LaneTuning := ⟨claim_fhLanes, claim_stairLanes⟩

end Sys2Proof.Machine
end

