-- ==== Sys2Proof/Proofs/HkCalibrationTrims.lean ====
section
/-!
System calibration and factory trims (R640 to R648).
-/

namespace Sys2Proof.Machine

open Sys2Proof

/-! ### The calibration commands -/

section

variable {s : State}

/-- The registers of the injected conversions. -/
def injWords (a : Nat) : Prop := a ∈ [Reg.HK.INJ_CTL.pending.addr, Reg.HK.INJ_DROP.word.addr, Reg.HK.INJ_LAST.word.addr]

/-- What gives a pending request up. -/
theorem dropPending_spec {cause : Nat} (hcause : cause < 16) :
    (s.dropPending cause).hk = { s.hk with injected := none } ∧ SameOff injWords s (s.dropPending cause) ∧ (s.dropPending cause).mem = s.mem ∧
      (s.dropPending cause).now = s.now ∧ (s.hk.injected ≠ none → (s.dropPending cause).get Reg.HK.INJ_LAST.cause = cause) := by
  unfold State.dropPending
  split
  next h =>
    refine ⟨?_, .refl s, rfl, rfl, fun h' => absurd h h'⟩
    rw [← h]
  next j h =>
    refine ⟨rfl, ?_, rfl, rfl, fun _ => ?_⟩
    · have hs : SameOff injWords s ({ s with hk := { s.hk with injected := none } } : State) := .of_regs rfl
      exact (((hs.put (f := Reg.HK.INJ_CTL.pending) (by simp [injWords]) 0).put (f := Reg.HK.INJ_DROP.word) (by simp [injWords]) _).put
        (f := Reg.HK.INJ_LAST.cause) (by simp [injWords]) _).put (f := Reg.HK.INJ_LAST.channel) (by simp [injWords]) _
    · rw [State.injDrop, State.get_put_apart _ rfl (by simp [Fld.apart]), State.get_put_same _ rfl]
      exact Nat.mod_eq_of_lt hcause

theorem calOver_spec {code : Nat} (hcode : code < 16) :
    (s.calOver code).get Reg.HK.SYSCAL_STATUS.result = code ∧ (s.calOver code).get Reg.HK.SYSCAL_STATUS.done = 1 ∧
      (s.calOver code).get Reg.HK.SYSCAL_STATUS.running = 0 ∧ (s.calOver code).hk = { s.hk with cal := none } ∧
      SameOff (· ∈ [Reg.HK.SYSCAL_STATUS.word.addr]) s (s.calOver code) ∧
      (s.calOver code).get Reg.HK.SYSCAL_STATUS.mean = s.get Reg.HK.SYSCAL_STATUS.mean ∧
      (s.calOver code).get Reg.HK.SYSCAL_STATUS.suspect = s.get Reg.HK.SYSCAL_STATUS.suspect := by
  unfold State.calOver
  refine ⟨?_, ?_, ?_, rfl, ?_, ?_, ?_⟩
  · rw [State.get_put_apart _ rfl (by simp [Fld.apart]), State.get_put_same _ rfl]
    exact Nat.mod_eq_of_lt hcode
  · rw [State.get_put_same _ rfl]
    rfl
  · rw [State.get_put_apart _ rfl (by simp [Fld.apart]), State.get_put_apart _ rfl (by simp [Fld.apart]), State.get_put_same _ rfl]
    rfl
  · have hs : SameOff (· ∈ [Reg.HK.SYSCAL_STATUS.word.addr]) s ({ s with hk := { s.hk with cal := none } } : State) := .of_regs rfl
    exact ((hs.put (f := Reg.HK.SYSCAL_STATUS.running) (by simp) 0).put (f := Reg.HK.SYSCAL_STATUS.result) (by simp) _).put
      (f := Reg.HK.SYSCAL_STATUS.done) (by simp) 1
  · rw [State.get_put_apart _ rfl (by simp [Fld.apart]), State.get_put_apart _ rfl (by simp [Fld.apart]), State.get_put_apart _ rfl (by simp [Fld.apart])]
    rfl
  · rw [State.get_put_apart _ rfl (by simp [Fld.apart]), State.get_put_apart _ rfl (by simp [Fld.apart]), State.get_put_apart _ rfl (by simp [Fld.apart])]
    rfl

/-- Storing the command changes no cause that refuses it. -/
theorem State.calRefusal_storeHk (v : Word) (span : Bool) (x : Nat) :
    (s.storeHk Reg.HK.SYSCAL_CTL.cmd.addr v).calRefusal span x = s.calRefusal span x := by
  have hget (f : Fld) (hf : f.addr ≠ Reg.HK.SYSCAL_CTL.cmd.addr) : (s.storeHk Reg.HK.SYSCAL_CTL.cmd.addr v).get f = s.get f := s.get_setWord_other hf _
  unfold State.calRefusal State.hkbTaken State.flag
  rw [hget _ (by decide), hget _ (by decide), hget _ (by decide)]
  rfl

/-- An accepted command gives a pending request up and begins its capture (R640, R641). -/
theorem calCommand_spec {span : Bool} (hok : s.calRefusal span (s.get Reg.HK.SYSCAL_CTL.input) = 0) :
    ∃ u, s.calCommand span = u ∧ u.get Reg.HK.SYSCAL_STATUS.running = 1 ∧ u.get Reg.HK.SYSCAL_STATUS.done = 0 ∧ u.hk.injected = none ∧
      u.hk.cal = some { input := s.get Reg.HK.SYSCAL_CTL.input, full := s.get Reg.HK.SYSCAL_CTL.fs_code,
                        zero := if span then assoc? s.hk.zeros (s.get Reg.HK.SYSCAL_CTL.input) else none, at_ := s.now } ∧
      (s.hk.injected ≠ none → u.get Reg.HK.INJ_LAST.cause = injCal) ∧ u.mem = s.mem := by
  obtain ⟨hhk, hsame, hmem, hnow, hcause⟩ := dropPending_spec (s := s) (cause := injCal) (by decide)
  obtain ⟨v, hv⟩ : ∃ v, v = s.dropPending injCal := ⟨_, rfl⟩
  rw [← hv] at hhk hsame hmem hnow hcause
  obtain ⟨j, hj⟩ : ∃ j : SysCal, j = { input := s.get Reg.HK.SYSCAL_CTL.input
                                       full := v.get Reg.HK.SYSCAL_CTL.fs_code
                                       zero := if span then assoc? v.hk.zeros (s.get Reg.HK.SYSCAL_CTL.input) else none
                                       at_ := v.now } := ⟨_, rfl⟩
  obtain ⟨w, hw⟩ : ∃ w : State, w = { v with hk := { v.hk with cal := some j, zeros := if span then [] else v.hk.zeros } } := ⟨_, rfl⟩
  have hu : s.calCommand span = (w.put Reg.HK.SYSCAL_STATUS.running 1).put Reg.HK.SYSCAL_STATUS.done 0 := by
    rw [hw, hj, hv]
    exact if_neg (by rw [bne_iff_ne, not_not]; exact hok)
  refine ⟨_, hu, ?_, ?_, ?_, ?_, fun h => ?_, ?_⟩
  · rw [State.get_put_apart _ rfl (by simp [Fld.apart]), State.get_put_same _ rfl]
    rfl
  · rw [State.get_put_same _ rfl]
    rfl
  · refine Eq.trans (b := w.hk.injected) rfl ?_
    rw [hw, hhk]
  · refine Eq.trans (b := w.hk.cal) rfl ?_
    rw [hw, hj, hhk, hnow, hsame.get (by simp [injWords])]
  · rw [State.get_put_apart _ rfl (by simp [Fld.apart]), State.get_put_apart _ rfl (by simp [Fld.apart]), ← hcause h, hw]
    rfl
  · refine Eq.trans (b := w.mem) rfl ?_
    rw [hw, hmem]

/-! ### The end of a capture -/

theorem spanGain_lt (z f : Int) (full : Nat) : spanGain z f full < 2 ^ 16 := by
  unfold spanGain
  split <;> omega

theorem unsigned_lt (w : Nat) (x : Int) : unsigned w x < 2 ^ w := by
  have hpos : (0 : Int) < ((2 ^ w : Nat) : Int) := by positivity
  have h1 := Int.emod_lt_of_pos x hpos
  have h2 := Int.emod_nonneg x hpos.ne'
  rw [unsigned]
  omega

/-- The fields of the coefficients that a SPAN leaves (R641). -/
theorem getBits_spanWord {gain ofs : Nat} (hgain : gain < 2 ^ 16) (hofs : ofs < 2 ^ 14) (sus : Bool) {w : Word}
    (hw : w = BitVec.ofNat 32 (gain * 65536 + b2n sus * 32768 + ofs)) : getBits w 16 16 = gain ∧ getBits w 0 14 = ofs ∧ getBits w 15 1 = b2n sus := by
  have hb : b2n sus < 2 := by cases sus <;> decide
  have hn : w.toNat = gain * 65536 + b2n sus * 32768 + ofs := by
    rw [hw, BitVec.toNat_ofNat]
    omega
  unfold getBits
  rw [hn]
  omega

/-- The end of a SPAN shows its coefficients and leaves the mean (R641). -/
theorem spanEnd_spec {i m full : Nat} {z : Int} {sus : Bool} (hsus : sus = spanSuspect z m full) :
    ∃ u, ((s.setCoefs i (BitVec.ofNat 32 (spanGain z m full * 65536 + b2n sus * 32768 + unsigned 14 z))).putB Reg.HK.SYSCAL_STATUS.suspect sus).calOver 0 = u ∧
      u.get Reg.HK.SYSCAL_STATUS.mean = s.get Reg.HK.SYSCAL_STATUS.mean ∧
      u.get (Reg.HK.SYSCAL_IN.gain i) = spanGain z m full ∧ u.get (Reg.HK.SYSCAL_IN.ofs i) = unsigned 14 z ∧
      u.get (Reg.HK.SYSCAL_IN.suspect i) = b2n sus ∧ u.get Reg.HK.SYSCAL_STATUS.suspect = b2n sus ∧ u.get Reg.HK.SYSCAL_STATUS.result = 0 ∧
      u.get Reg.HK.SYSCAL_STATUS.done = 1 ∧ u.hk.cal = none ∧
      SameOff (· ∈ [Reg.HK.SYSCAL_STATUS.word.addr, (Reg.HK.SYSCAL_IN.word i).addr]) s u := by
  obtain ⟨w, hw⟩ : ∃ w, w = BitVec.ofNat 32 (spanGain z m full * 65536 + b2n sus * 32768 + unsigned 14 z) := ⟨_, rfl⟩
  obtain ⟨hgain, hofs, hsuspect⟩ := getBits_spanWord (spanGain_lt z m full) (unsigned_lt 14 z) sus hw
  obtain ⟨x, hx⟩ : ∃ x, x = s.setCoefs i w := ⟨_, rfl⟩
  obtain ⟨y, hy⟩ : ∃ y, y = x.putB Reg.HK.SYSCAL_STATUS.suspect sus := ⟨_, rfl⟩
  obtain ⟨h1, h2, -, hhk, hsame, hmean, hstatus⟩ := calOver_spec (s := y) (code := 0) (by decide)
  have hx' : SameOff (· ∈ [Reg.HK.SYSCAL_STATUS.word.addr, (Reg.HK.SYSCAL_IN.word i).addr]) s x := fun a ha => by
    rw [hx]
    exact State.word_setWord_other (fun h => ha (List.mem_cons_of_mem _ (List.mem_singleton.2 h))) _ w
  have hxmean : x.get Reg.HK.SYSCAL_STATUS.mean = s.get Reg.HK.SYSCAL_STATUS.mean := by
    rw [hx]
    exact State.get_setWord_other (f := Reg.HK.SYSCAL_STATUS.mean) (a := (Reg.HK.SYSCAL_IN.word i).addr) _ (by dsimp only; omega) w
  have hcoef (f : Fld) (hf : f.addr = (Reg.HK.SYSCAL_IN.word i).addr) : (y.calOver 0).get f = getBits w f.lo f.width := by
    rw [hsame.get (by rw [hf, List.mem_singleton]; dsimp only; omega), hy, State.putB, State.get_put_elsewhere _ (by rw [hf]; dsimp only; omega), hx, State.setCoefs,
      State.get, hf]
    exact congrArg (fun v => getBits v f.lo f.width) (State.word_setWord_same ..)
  refine ⟨_, rfl, ?_⟩
  rw [← hw, ← hx, ← hy]
  refine ⟨?_, (hcoef (Reg.HK.SYSCAL_IN.gain i) rfl).trans hgain, (hcoef (Reg.HK.SYSCAL_IN.ofs i) rfl).trans hofs,
    (hcoef (Reg.HK.SYSCAL_IN.suspect i) rfl).trans hsuspect, ?_, h1, h2, ?_, ?_⟩
  · rw [hmean, hy, State.putB, State.get_put_apart _ rfl (by simp [Fld.apart]), hxmean]
  · rw [hstatus, hy, State.putB, State.get_put_same _ rfl]
    exact Nat.mod_eq_of_lt (by cases sus <;> decide)
  · rw [hhk]
  · rw [hy] at hsame ⊢
    exact (hx'.put (f := Reg.HK.SYSCAL_STATUS.suspect) (by simp) _).trans (hsame.mono fun a ha => List.mem_cons.2 (.inl (List.mem_singleton.1 ha)))

theorem State.sysCaptureDone_of_early {j : SysCal} {inputs : List Int} {ref : Nat} (hj : s.hk.cal = some j)
    (h : s.hkbOff = true ∨ s.now < max j.at_ (s.hk.bandgapAt.getD 0) + ticksOfUs 264) : s.sysCaptureDone inputs ref = s := by
  unfold State.sysCaptureDone
  rw [hj]
  exact if_pos (by rw [Bool.or_eq_true, decide_eq_true_eq]; exact h)

/-- The mean of a capture that has ended is shown, and the command goes on by it (R641). -/
theorem State.sysCaptureDone_of_over {j : SysCal} {inputs : List Int} {ref m : Nat} (hj : s.hk.cal = some j) (hoff : s.hkbOff = false)
    (htime : max j.at_ (s.hk.bandgapAt.getD 0) + ticksOfUs 264 ≤ s.now) (hm : m = s.meanCode true inputs ref) {v : State}
    (hv : v = s.put Reg.HK.SYSCAL_STATUS.mean m) :
    (j.zero = none → s.sysCaptureDone inputs ref =
      ({ v with hk := { v.hk with zeros := assocSet v.hk.zeros j.input (m : Int) } } : State).calOver 0) ∧
    ∀ z, j.zero = some z → s.sysCaptureDone inputs ref =
      ((v.setCoefs j.input (BitVec.ofNat 32 (spanGain z m j.full * 65536 + b2n (spanSuspect z m j.full) * 32768 + unsigned 14 z))).putB
        Reg.HK.SYSCAL_STATUS.suspect (spanSuspect z m j.full)).calOver 0 := by
  have hno : ¬ (s.hkbOff || decide (s.now < max j.at_ (s.hk.bandgapAt.getD 0) + ticksOfUs 264)) = true := by
    rw [hoff, decide_eq_false (Nat.not_lt.2 htime)]
    exact Bool.false_ne_true
  unfold State.sysCaptureDone
  rw [hj]
  dsimp only
  rw [if_neg hno, ← hm, ← hv]
  refine ⟨fun hz => ?_, fun z hz => ?_⟩ <;> rw [hz]

end

theorem claim_sysCalibration : Claim.SysCalibration := by
  rintro s t ch value inputs ref span r rfl
  refine ⟨?_, fun hr => ⟨fun hnone => ?_, fun hsome => ?_⟩, fun hnone => ?_, fun j hj => ⟨fun h => ?_, fun hoff htime m hm hm14 => ⟨fun hz => ?_, fun z hz => ?_⟩⟩⟩
  · rintro hr v c x hv rfl rfl
    have hgives : Gives (if span then Instr.span t ch value else Instr.zero t ch value) s (v.calCommand span) := by
      rw [hv]
      cases span with
      | true => exact gives_hostCmd (i := .span t ch value) (f := fun s => (s.storeHk Reg.HK.SYSCAL_CTL.cmd.addr value).calCommand true) hr rfl
      | false => exact gives_hostCmd (i := .zero t ch value) (f := fun s => (s.storeHk Reg.HK.SYSCAL_CTL.cmd.addr value).calCommand false) hr rfl
    have hrefusal : v.calRefusal span (v.get Reg.HK.SYSCAL_CTL.input) = s.calRefusal span (v.get Reg.HK.SYSCAL_CTL.input) := by
      rw [hv, State.calRefusal_storeHk]
      rfl
    have hkeep : v.hk = s.hk ∧ v.now = max s.now t ∧ v.mem = s.mem := by
      rw [hv]
      exact ⟨rfl, rfl, rfl⟩
    obtain ⟨hhk, hnow, hmem⟩ := hkeep
    refine ⟨?_, fun hzero => ?_⟩
    · rintro code rfl hcode
      rw [← hrefusal] at hcode ⊢
      exact .of_eq hgives (if_pos (bne_iff_ne.2 hcode))
    · obtain ⟨u, hu, h1, h2, h3, h4, h5, h6⟩ := calCommand_spec (hrefusal.trans hzero)
      rw [hhk, hnow] at h4
      rw [hhk] at h5
      exact ⟨u, .of_eq hgives hu, h1, h2, h3, h4, h5, h6.trans hmem⟩
  · exact .of_eq (gives_hostCmd hr rfl) (if_neg (by rw [show (s.atTime t).hk.cal = none from hnone]; exact Bool.false_ne_true))
  · have hyes : (s.atTime t).hk.cal.isSome = true := Option.isSome_iff_ne_none.2 hsome
    obtain ⟨h1, h2, h3, hhk, hsame, -, -⟩ := calOver_spec (s := s.atTime t) (code := calibCancelled) (by decide)
    refine ⟨_, .of_eq (gives_hostCmd hr rfl) (if_pos hyes), ?_, h1, h2, h3, hsame.sameWords⟩
    rw [hhk]
  · refine .of_eq rfl ?_
    unfold State.sysCaptureDone
    rw [show (s.atTime t).hk.cal = none from hnone]
  · exact .of_eq rfl (State.sysCaptureDone_of_early (s := s.atTime t) hj h)
  · obtain ⟨v, hv⟩ : ∃ v, v = (s.atTime t).put Reg.HK.SYSCAL_STATUS.mean m := ⟨_, rfl⟩
    obtain ⟨w, hw⟩ : ∃ w : State, w = { v with hk := { v.hk with zeros := assocSet v.hk.zeros j.input (m : Int) } } := ⟨_, rfl⟩
    obtain ⟨h1, h2, -, hhk, hsame, hmean, -⟩ := calOver_spec (s := w) (code := 0) (by decide)
    have hwget : w.get Reg.HK.SYSCAL_STATUS.mean = m := by
      refine Eq.trans (b := v.get Reg.HK.SYSCAL_STATUS.mean) (by rw [hw]; rfl) ?_
      rw [hv, State.get_put_same _ rfl]
      exact Nat.mod_eq_of_lt hm14
    have hstart : SameOff (· ∈ [Reg.HK.SYSCAL_STATUS.word.addr]) s w := by
      have hr : SameOff (· ∈ [Reg.HK.SYSCAL_STATUS.word.addr]) s (s.atTime t) := .of_regs rfl
      rw [hw, hv]
      exact (hr.put (f := Reg.HK.SYSCAL_STATUS.mean) (by simp) m).trans (.of_regs rfl)
    refine ⟨_, .of_eq rfl ((State.sysCaptureDone_of_over (s := s.atTime t) hj hoff htime hm hv).1 hz), ?_⟩
    rw [← hw]
    refine ⟨hmean.trans hwget, ?_, h1, h2, ?_, (hstart.trans hsame).sameWords⟩
    · rw [hhk, hw]
      exact assoc?_assocSet_same ..
    · rw [hhk]
  · obtain ⟨v, hv⟩ : ∃ v, v = (s.atTime t).put Reg.HK.SYSCAL_STATUS.mean m := ⟨_, rfl⟩
    obtain ⟨u, hu, hmean, h⟩ := spanEnd_spec (s := v) (i := j.input) (z := z) (m := m) (full := j.full) rfl
    have hstart : SameOff (· ∈ [Reg.HK.SYSCAL_STATUS.word.addr, (Reg.HK.SYSCAL_IN.word j.input).addr]) s v := by
      have hr : SameOff (· ∈ [Reg.HK.SYSCAL_STATUS.word.addr, (Reg.HK.SYSCAL_IN.word j.input).addr]) s (s.atTime t) := .of_regs rfl
      rw [hv]
      exact hr.put (f := Reg.HK.SYSCAL_STATUS.mean) (by simp) m
    obtain ⟨h1, h2, h3, h4, h5, h6, h7, hsame⟩ := h
    refine ⟨u, .of_eq rfl (((State.sysCaptureDone_of_over (s := s.atTime t) hj hoff htime hm hv).2 z hz).trans hu), hmean.trans ?_, h1, h2, h3, h4, h5, h6, h7,
      (hstart.trans hsame).sameWords⟩
    rw [hv, State.get_put_same _ rfl]
    exact Nat.mod_eq_of_lt hm14

/-! ### Trims -/

section

variable {s : State}

/-- The second state differs from the first at most in the instants from which channels count, and in what the readings' entries show. -/
def Unsettles (s u : State) : Prop :=
  (∃ regs from_, u = { s with regs := regs, hk := { s.hk with from_ := from_ } }) ∧ SameOff (fun a => 0x30100 ≤ a ∧ a < 0x40000) s u

theorem Unsettles.refl (s : State) : Unsettles s s := ⟨⟨_, _, rfl⟩, .refl s⟩

theorem unsettles_unsettle (s : State) (chs : List Nat) (at_ : Nat) : Unsettles s (s.unsettle chs at_) := by
  obtain ⟨v, hv⟩ : ∃ v, v = s.countFrom chs at_ := ⟨_, rfl⟩
  have hu : ∃ l : List Nat, (∀ k ∈ l, k < 96) ∧ s.unsettle chs at_ = v.forEach l fun k s => s.put (Reg.HK.READ.stale k) 1 :=
    ⟨_, fun k hk => List.mem_range.1 (List.mem_of_mem_filter hk), by rw [hv]; rfl⟩
  have hvs : Unsettles s v := by
    rw [hv]
    exact ⟨⟨_, _, rfl⟩, .of_regs rfl⟩
  obtain ⟨l, hl, hu⟩ := hu
  rw [hu]
  refine State.forEach_induct (P := Unsettles s) hvs fun k hk x hx => ?_
  obtain ⟨⟨_, _, rfl⟩, hsame⟩ := hx
  exact ⟨⟨_, _, rfl⟩, hsame.put (f := Reg.HK.READ.stale k) (by have := hl k hk; dsimp only; omega) 1⟩

theorem bandgapWritten_spec (s : State) :
    s.bandgapWritten.get Reg.TRIM.STATUS.settling = 1 ∧ s.bandgapWritten.hk.bandgapAt = some (s.now + ticksOfUs 200) ∧
      ∃ v : State, v = (({ s with hk := { s.hk with bandgapAt := some (s.now + ticksOfUs 200) } } : State).put Reg.TRIM.STATUS.settling 1) ∧
        Unsettles v s.bandgapWritten := by
  obtain ⟨v, hv⟩ : ∃ v : State, v = (({ s with hk := { s.hk with bandgapAt := some (s.now + ticksOfUs 200) } } : State).put Reg.TRIM.STATUS.settling 1) := ⟨_, rfl⟩
  have hun : Unsettles v s.bandgapWritten := by
    rw [hv]
    exact unsettles_unsettle _ _ _
  refine ⟨?_, ?_, v, hv, hun⟩
  · rw [hun.2.get (by decide), hv, State.get_put_same _ rfl]
    rfl
  · obtain ⟨_, _, h⟩ := hun.1
    rw [h, hv]
    rfl

/-- The second state has the trims, memory and outputs of the first. -/
structure KeepsTrims (s u : State) : Prop where
  trims : u.trims = s.trims
  loaded : u.trimsLoaded = s.trimsLoaded
  bad : u.trimsBad = s.trimsBad
  mem : u.mem = s.mem
  out : u.out = s.out

theorem KeepsTrims.refl (s : State) : KeepsTrims s s := ⟨rfl, rfl, rfl, rfl, rfl⟩

theorem KeepsTrims.trans {s u v : State} (hsu : KeepsTrims s u) (huv : KeepsTrims u v) : KeepsTrims s v :=
  ⟨huv.trims.trans hsu.trims, huv.loaded.trans hsu.loaded, huv.bad.trans hsu.bad, huv.mem.trans hsu.mem, huv.out.trans hsu.out⟩

theorem keepsTrims_hk (s : State) (hk : HkState) : KeepsTrims s { s with hk := hk } := ⟨rfl, rfl, rfl, rfl, rfl⟩

theorem keepsTrims_put (s : State) (f : Fld) (v : Nat) : KeepsTrims s (s.put f v) := ⟨rfl, rfl, rfl, rfl, rfl⟩

theorem Unsettles.keepsTrims {s u : State} (h : Unsettles s u) : KeepsTrims s u := by
  obtain ⟨_, _, rfl⟩ := h.1
  exact ⟨rfl, rfl, rfl, rfl, rfl⟩

theorem keepsTrims_bandgapWritten (s : State) : KeepsTrims s s.bandgapWritten := by
  obtain ⟨-, -, v, hv, h⟩ := bandgapWritten_spec s
  refine KeepsTrims.trans ?_ h.keepsTrims
  rw [hv]
  exact (keepsTrims_hk s _).trans (keepsTrims_put ..)

/-- A touched trim changes what readings count, and no trim. -/
theorem keepsTrims_trimTouched (s : State) (a : Nat) : KeepsTrims s (s.trimTouched a) := by
  unfold State.trimTouched
  dsimp only
  split_ifs
  · exact keepsTrims_bandgapWritten s
  · exact (unsettles_unsettle ..).keepsTrims
  · exact (unsettles_unsettle ..).keepsTrims
  · exact (unsettles_unsettle ..).keepsTrims
  · exact .refl s

theorem assoc?_assocSet_other {α : Type} (l : List (Nat × α)) {k k' : Nat} (h : k' ≠ k) (v : α) : assoc? (assocSet l k v) k' = assoc? l k' := by
  have hmap : (l.map fun e => if e.1 == k then (k, v) else e).find? (fun e => e.1 == k') = l.find? fun e => e.1 == k' := by
    induction l with
    | nil => rfl
    | cons e l ih =>
      rw [List.map_cons, List.find?_cons, List.find?_cons, ih]
      by_cases hk : e.1 = k
      · have hno : (k == k') = false := beq_eq_false_iff_ne.2 h.symm
        rw [if_pos (beq_iff_eq.2 hk), hk, hno]
      · rw [if_neg (by rw [beq_iff_eq]; exact hk)]
  unfold assoc? assocSet
  split
  · rw [hmap]
  · rw [List.find?_append, List.find?_singleton, if_neg (by rw [beq_iff_eq]; exact Ne.symm h), Option.or_none]

/-- A write of a trim outside a copy (R647). -/
theorem writeTrim_spec {a : Nat} {v : Word} (htrim : isTrim a = true) (hcopy : s.hk.copying = false) (hloaded : s.trimsLoaded = true) :
    ∃ u, s.writeTrim a v = u ∧ u.trimWord a = (fieldsAt a).foldl (storeField false v) (s.trimWord a) ∧ (∀ b, b ≠ a → u.trimWord b = s.trimWord b) ∧
      u.mem = s.mem ∧ u.out = s.out ∧
      (a = 0x40010 → u.get Reg.TRIM.STATUS.settling = 1 ∧ u.hk.bandgapAt = some (s.now + ticksOfUs 200)) := by
  obtain ⟨w, hw⟩ : ∃ w, w = (fieldsAt a).foldl (storeField false v) (s.trimWord a) := ⟨_, rfl⟩
  obtain ⟨x, hx⟩ : ∃ x : State, x = { s with trims := assocSet s.trims a w } := ⟨_, rfl⟩
  obtain ⟨htrims, hl, hbad, hmem, hout⟩ := keepsTrims_trimTouched x a
  have hu : s.writeTrim a v = x.trimTouched a := by
    rw [hx, hw]
    exact (if_neg (by rw [htrim]; exact Bool.false_ne_true)).trans (if_neg (by rw [hcopy]; exact Bool.false_ne_true))
  have hword (b : Nat) : (x.trimTouched a).trimWord b = (assoc? (assocSet s.trims a w) b).getD (s.trimLoaded b) := by
    unfold State.trimWord State.trimLoaded
    rw [htrims, hl, hbad, hx]
    exact if_pos hloaded
  refine ⟨_, hu, ?_, fun b hb => ?_, ?_, ?_, fun ha => ?_⟩
  · rw [hword, assoc?_assocSet_same, ← hw]
    rfl
  · rw [hword, assoc?_assocSet_other _ hb, State.trimWord, if_pos hloaded]
  · rw [hmem, hx]
  · rw [hout, hx]
  · have htouched : x.trimTouched a = x.bandgapWritten := by
      rw [ha, State.trimTouched, if_pos rfl]
    obtain ⟨h1, h2, -⟩ := bandgapWritten_spec x
    rw [htouched, h2, hx]
    rw [hx] at h1
    exact ⟨h1, rfl⟩

theorem keepsTrims_record (s : State) (x : Rec) : KeepsTrims s (s.record x) ∧ (s.record x).hk = s.hk ∧ (s.record x).now = s.now := by
  obtain ⟨_, _, _, _, _, h⟩ := logApart_record s x
  rw [h]
  exact ⟨⟨rfl, rfl, rfl, rfl, rfl⟩, rfl, rfl⟩

/-- A word that failed its check is named by an event record (R644). -/
def State.otpError (s : State) (a : Nat) : State :=
  (s.put Reg.TRIM.STATUS.otp_error 1).record { kind := .event, unit := unitHk, detail := a }

theorem otpError_spec (s : State) (a : Nat) :
    KeepsTrims s (s.otpError a) ∧ (s.otpError a).hk = s.hk ∧ (s.otpError a).now = s.now ∧ (s.otpError a).get Reg.TRIM.STATUS.otp_error = 1 ∧
      ∀ f : Fld, f.addr = Reg.TRIM.STATUS.word.addr → Reg.TRIM.STATUS.otp_error.apart f = true → (s.otpError a).get f = s.get f := by
  obtain ⟨v, hv⟩ : ∃ v, v = s.put Reg.TRIM.STATUS.otp_error 1 := ⟨_, rfl⟩
  obtain ⟨hkeeps, hhk, hnow⟩ := keepsTrims_record v { kind := .event, unit := unitHk, detail := a }
  have hput : KeepsTrims s v ∧ v.hk = s.hk ∧ v.now = s.now := by
    rw [hv]
    exact ⟨keepsTrims_put .., rfl, rfl⟩
  obtain ⟨hp, hphk, hpnow⟩ := hput
  rw [State.otpError, ← hv]
  refine ⟨hp.trans hkeeps, hhk.trans hphk, hnow.trans hpnow, ?_, fun f hf hapart => ?_⟩
  · rw [State.get_record _ _ (by simp [recordWords]), hv, State.get_put_same _ rfl]
    rfl
  · rw [State.get_record _ _ (by rw [hf]; simp [recordWords]), hv, State.get_put_apart _ rfl hapart]

theorem otpErrors_spec (s : State) (l : List Nat) :
    ∃ u, s.forEach l (fun a s => s.otpError a) = u ∧ KeepsTrims s u ∧ u.hk = s.hk ∧ u.now = s.now ∧
      (∀ f : Fld, f.addr = Reg.TRIM.STATUS.word.addr → Reg.TRIM.STATUS.otp_error.apart f = true → u.get f = s.get f) ∧
      (l ≠ [] → u.get Reg.TRIM.STATUS.otp_error = 1) := by
  refine ⟨_, rfl, ?_, State.forEach_keeps State.hk (fun a s => (otpError_spec s a).2.1) s l,
    State.forEach_keeps State.now (fun a s => (otpError_spec s a).2.2.1) s l, fun f hf hapart => ?_, fun hl => ?_⟩
  · exact State.forEach_induct (P := KeepsTrims s) (.refl s) fun a _ x hx => hx.trans (otpError_spec x a).1
  · refine State.forEach_keeps (fun x => x.get f) (fun a x => ?_) s l
    obtain ⟨-, -, -, -, hget⟩ := otpError_spec x a
    exact hget f hf hapart
  · obtain ⟨a, ha⟩ := List.exists_mem_of_ne_nil l hl
    have hset (b : Nat) (x : State) : (x.otpError b).get Reg.TRIM.STATUS.otp_error = 1 := by
      obtain ⟨-, -, -, h, -⟩ := otpError_spec x b
      exact h
    exact State.forEach_reaches (A := fun _ => True) (B := fun x => x.get Reg.TRIM.STATUS.otp_error = 1) ha trivial (fun _ _ _ _ => trivial)
      (fun x _ => hset a x) fun b x _ => hset b x

/-- The copy is complete (R644, R646). -/
theorem trimsCopied_spec (s : State) :
    ∃ u, s.trimsCopied = u ∧ u.hk.copying = false ∧ u.trimsLoaded = true ∧ u.trims = [] ∧
      u.get Reg.TRIM.STATUS.loaded = 1 ∧ u.get Reg.TRIM.STATUS.version = Config.otpTrimVersion.toNat ∧
      (∀ a, u.trimWord a = s.trimLoaded a) ∧ ((∃ a ∈ trimAddrs, a ∈ s.trimsBad) → u.get Reg.TRIM.STATUS.otp_error = 1) ∧
      (s.trimsLoaded = true → u.get Reg.TRIM.STATUS.settling = 1) := by
  obtain ⟨v, hv⟩ : ∃ v : State, v = if s.trimsLoaded then ({ s with trims := [], trimsLoaded := true, hk := { s.hk with copying := false } } : State)
      else { s with trims := [], trimsLoaded := true, hk := { s.hk with copying := false }, trimsRx := [], trimsDelay := [], trimsTone := [] } := ⟨_, rfl⟩
  have hvkeep : v.trims = [] ∧ v.trimsLoaded = true ∧ v.hk.copying = false ∧ v.trimsBad = s.trimsBad := by
    rw [hv]
    split <;> exact ⟨rfl, rfl, rfl, rfl⟩
  obtain ⟨w, hw⟩ : ∃ w, w = (v.put Reg.TRIM.STATUS.loaded 1).put Reg.TRIM.STATUS.version Config.otpTrimVersion.toNat := ⟨_, rfl⟩
  obtain ⟨x, hx, hkeeps, hhk, hnow, hget, herr⟩ := otpErrors_spec w (trimAddrs.filter w.trimsBad.contains)
  have hu : s.trimsCopied = if s.trimsLoaded then x.bandgapWritten else x := by
    rw [← hx, hw, hv]
    rfl
  obtain ⟨hvt, hvl, hvc, hvb⟩ := hvkeep
  have hwkeep : w.trims = v.trims ∧ w.trimsLoaded = v.trimsLoaded ∧ w.hk = v.hk ∧ w.trimsBad = v.trimsBad := by
    rw [hw]
    exact ⟨rfl, rfl, rfl, rfl⟩
  obtain ⟨hwt, hwl, hwh, hwb⟩ := hwkeep
  have hxloaded : x.get Reg.TRIM.STATUS.loaded = 1 := by
    rw [hget Reg.TRIM.STATUS.loaded rfl (by decide), hw, State.get_put_apart _ rfl (by decide), State.get_put_same _ rfl]
    rfl
  have hxversion : x.get Reg.TRIM.STATUS.version = Config.otpTrimVersion.toNat := by
    rw [hget Reg.TRIM.STATUS.version rfl (by decide), hw, State.get_put_same _ rfl]
    exact Nat.mod_eq_of_lt Config.otpTrimVersion.isLt
  have hxerr (h : ∃ a ∈ trimAddrs, a ∈ s.trimsBad) : x.get Reg.TRIM.STATUS.otp_error = 1 := by
    obtain ⟨a, ha, hbad⟩ := h
    rw [← hvb, ← hwb] at hbad
    exact herr (List.ne_nil_of_mem (List.mem_filter.2 ⟨ha, List.contains_iff_mem.2 hbad⟩))
  have hmain (u : State) (huk : KeepsTrims x u) (huc : u.hk.copying = x.hk.copying)
      (hug : ∀ f ∈ [Reg.TRIM.STATUS.loaded, Reg.TRIM.STATUS.version, Reg.TRIM.STATUS.otp_error], u.get f = x.get f) :
      u.hk.copying = false ∧ u.trimsLoaded = true ∧ u.trims = [] ∧ u.get Reg.TRIM.STATUS.loaded = 1 ∧
        u.get Reg.TRIM.STATUS.version = Config.otpTrimVersion.toNat ∧ (∀ a, u.trimWord a = s.trimLoaded a) ∧
        ((∃ a ∈ trimAddrs, a ∈ s.trimsBad) → u.get Reg.TRIM.STATUS.otp_error = 1) := by
    have huw := hkeeps.trans huk
    have hut : u.trims = [] := huw.trims.trans (hwt.trans hvt)
    have hul : u.trimsLoaded = true := huw.loaded.trans (hwl.trans hvl)
    have hub : u.trimsBad = s.trimsBad := huw.bad.trans (hwb.trans hvb)
    refine ⟨?_, hul, hut, (hug _ (by simp)).trans hxloaded, (hug _ (by simp)).trans hxversion, fun a => ?_, fun h => (hug _ (by simp)).trans (hxerr h)⟩
    · rw [huc, hhk, hwh, hvc]
    · rw [State.trimWord, if_pos hul, hut, State.trimLoaded, State.trimLoaded, hub]
      rfl
  refine ⟨_, hu, ?_⟩
  cases hagain : s.trimsLoaded with
  | false =>
    rw [if_neg Bool.false_ne_true]
    obtain ⟨h1, h2, h3, h4, h5, h6, h7⟩ := hmain x (.refl x) rfl fun _ _ => rfl
    exact ⟨h1, h2, h3, h4, h5, h6, h7, fun h => nomatch h⟩
  | true =>
    rw [if_pos rfl]
    obtain ⟨hsettling, -, y, hy, hun⟩ := bandgapWritten_spec x
    have hcopy : x.bandgapWritten.hk.copying = x.hk.copying := by
      obtain ⟨_, _, h⟩ := hun.1
      rw [h, hy]
      rfl
    have hstatus (f : Fld) (hf : f ∈ [Reg.TRIM.STATUS.loaded, Reg.TRIM.STATUS.version, Reg.TRIM.STATUS.otp_error]) : x.bandgapWritten.get f = x.get f := by
      have haddr : f.addr = 0x40004 ∧ Reg.TRIM.STATUS.settling.apart f = true := by
        simp only [List.mem_cons, List.not_mem_nil, or_false] at hf
        rcases hf with rfl | rfl | rfl <;> decide
      rw [hun.2.get (by rw [haddr.1]; decide), hy, State.get_put_apart _ rfl haddr.2]
      rfl
    obtain ⟨h1, h2, h3, h4, h5, h6, h7⟩ := hmain _ (keepsTrims_bandgapWritten x) hcopy hstatus
    exact ⟨h1, h2, h3, h4, h5, h6, h7, fun _ => hsettling⟩

end

theorem claim_trims : Claim.Trims := by
  rintro s t ch addr value r rfl
  refine ⟨fun hr => ?_, fun h => ?_, fun htrim hr => ⟨fun hcopy => ?_, fun hcopy hloaded => ?_⟩, fun hcopy => ?_, fun hcopy => ?_, fun x hx => ⟨fun h => ?_, fun h => ?_⟩,
    fun hnone => ?_⟩
  · refine ⟨_, gives_hostCmd hr rfl, rfl, ?_, rfl, fun a ha => ?_⟩
    · rw [State.trimReload, State.get_put_same _ rfl]
      rfl
    · have hstart : SameOff (· ∈ [Reg.TRIM.STATUS.word.addr]) s ({ s.atTime t with hk := { (s.atTime t).hk with copying := true } } : State) := .of_regs rfl
      exact (hstart.put (f := Reg.TRIM.STATUS.loaded) (by simp) 0) a ha
  · exact .of_eq rfl (if_neg (by rw [h]; exact Bool.false_ne_true))
  · have hgives : Gives (.trimWrite t ch addr value) s ((s.atTime t).writeTrim addr.toNat value) :=
      .of_eq rfl ((if_pos htrim).trans (State.hostCmd_of_reaches hr _))
    exact .of_eq hgives ((if_neg (by rw [htrim]; exact Bool.false_ne_true)).trans (if_pos hcopy))
  · have hgives : Gives (.trimWrite t ch addr value) s ((s.atTime t).writeTrim addr.toNat value) :=
      .of_eq rfl ((if_pos htrim).trans (State.hostCmd_of_reaches hr _))
    obtain ⟨u, hu, h⟩ := writeTrim_spec (s := s.atTime t) (v := value) htrim hcopy hloaded
    exact ⟨u, .of_eq hgives hu, h⟩
  · exact .of_eq rfl (if_neg (by rw [show (s.atTime t).hk.copying = false from hcopy]; exact Bool.false_ne_true))
  · obtain ⟨u, hu, h⟩ := trimsCopied_spec (s.atTime t)
    exact ⟨u, .of_eq rfl ((if_pos hcopy).trans hu), h⟩
  · refine .of_eq rfl ?_
    unfold State.bandgapSettled
    rw [show (s.atTime t).hk.bandgapAt = some x from hx]
    exact if_pos h
  · refine .of_eq rfl ?_
    unfold State.bandgapSettled
    rw [show (s.atTime t).hk.bandgapAt = some x from hx]
    exact if_neg (Nat.not_le.2 h)
  · refine .of_eq rfl ?_
    unfold State.bandgapSettled
    rw [show (s.atTime t).hk.bandgapAt = none from hnone]

/-- Settles O60: a capture's end is its mean and its coefficients, and neither a touched trim nor the record of a bad word is itself a trim. -/
theorem hkCalibrationTrims : Obligations.HkCalibrationTrims := ⟨claim_sysCalibration, claim_trims⟩

end Sys2Proof.Machine
end

