-- ==== Sys2Proof/Proofs/Housekeeping.lean ====
section
/-!
Housekeeping rounds, thermal limits and injected conversions (R584 to R591, R626 to R639).
-/

namespace Sys2Proof.Machine

open Sys2Proof

/-! ### Injected conversions -/

section

variable {s : State}

theorem State.get_storeHk_other {a : Nat} (v : Word) {f : Fld} (hf : f.addr ≠ a) : (s.storeHk a v).get f = s.get f := s.get_setWord_other hf _

theorem State.hkbTaken_storeHk {a : Nat} (v : Word) (h1 : Reg.RECOVERY.STATUS.hkb_standin.addr ≠ a) (h2 : Reg.HK.STATUS.hkb_fault.addr ≠ a) :
    (s.storeHk a v).hkbTaken = s.hkbTaken := by
  rw [State.hkbTaken, State.flag, State.flag, State.get_storeHk_other v h1, State.get_storeHk_other v h2]
  rfl

/-- The first cause that drops a request of channel `c`, none where it waits (R637). -/
def State.injCause (s : State) (c : Nat) : Option Nat :=
  if !hkChannel c then some injChannel
  else if s.hkbOff then some injPower
  else if s.hkbTaken then some injStandin
  else if s.hk.cal.isSome then some injCal
  else if s.hk.injected.isSome then some injBusy
  else if isHkIn c && !s.flag Reg.HK.STATUS.ref_settled then some injRef
  else none

/-- A request that waits (R635). -/
def State.injWaits (s : State) : State :=
  ({ s with hk := { s.hk with injected := some { channel := s.get Reg.HK.INJ_CTL.channel, avg := s.get Reg.HK.INJ_CTL.avg,
                                                 delay := s.get Reg.HK.INJ_CTL.delay, at_ := s.now } } } : State).put Reg.HK.INJ_CTL.pending 1

theorem State.inject_eq (s : State) :
    s.inject = match s.injCause (s.get Reg.HK.INJ_CTL.channel) with
      | some cause => s.injDrop cause (s.get Reg.HK.INJ_CTL.channel)
      | none => s.injWaits := by
  unfold State.inject State.injCause
  dsimp only
  split_ifs <;> rfl

theorem State.inject_of_cause {cause : Nat} (h : s.injCause (s.get Reg.HK.INJ_CTL.channel) = some cause) :
    s.inject = s.injDrop cause (s.get Reg.HK.INJ_CTL.channel) := by rw [State.inject_eq, h]

theorem State.inject_of_none (h : s.injCause (s.get Reg.HK.INJ_CTL.channel) = none) : s.inject = s.injWaits := by rw [State.inject_eq, h]

/-- The words of the readings' entries. -/
def readWords (a : Nat) : Prop := 0x30300 ≤ a ∧ a < 0x30480

/-- Whether HK_VREF is in range shows in its own bit alone. -/
theorem State.noteVref_spec (ch : Nat) (mv : Int) :
    SameOff (· = Reg.HK.STATUS.vref_range.addr) s (s.noteVref ch mv) ∧ ∃ regs, s.noteVref ch mv = { s with regs := regs } := by
  unfold State.noteVref
  split
  · have hs : SameOff (· = Reg.HK.STATUS.vref_range.addr) s s := .refl s
    exact ⟨hs.put (f := Reg.HK.STATUS.vref_range) rfl _, ⟨_, rfl⟩⟩
  · exact ⟨.refl s, ⟨_, rfl⟩⟩

/-- A request that has been served posts its reading (R636). -/
theorem injPost_spec {j : Injection} (hch : j.channel < 256) {began code : Nat} {v : Int} (hv : v = s.reading (s.coefAt j.channel began) j.channel code) :
    ∃ u, s.injPost j began code = u ∧ u.get Reg.HK.INJ_RESULT.done = 1 ∧ u.get Reg.HK.INJ_RESULT.channel = j.channel ∧
      u.get Reg.HK.INJ_RESULT.value = unsigned 16 v ∧ u.get Reg.HK.INJ_CTL.pending = 0 ∧ u.hk.injected = none ∧ u.mem = s.mem := by
  obtain ⟨w, hw⟩ : ∃ w : State, w = { s with hk := { s.hk with injected := none } } := ⟨_, rfl⟩
  obtain ⟨x, hx⟩ : ∃ x : State, x = ((w.put Reg.HK.INJ_RESULT.value (unsigned 16 v)).put Reg.HK.INJ_RESULT.channel j.channel).putB Reg.HK.INJ_RESULT.suspect
      (isHkIn j.channel && bit (s.coefAt j.channel began).toNat 15) := ⟨_, rfl⟩
  obtain ⟨hvref, hvshape⟩ := State.noteVref_spec (s := x) j.channel v
  obtain ⟨y, hy⟩ : ∃ y, y = x.noteVref j.channel v := ⟨_, rfl⟩
  rw [← hy] at hvref hvshape
  obtain ⟨l, hl, z, hz, hu⟩ : ∃ l : List Nat, (∀ k ∈ l, k < 96) ∧ ∃ z : State,
      z = (if began < y.hkFrom j.channel then y else y.forEach l fun k s => s.put (Reg.HK.READ.stale k) 0) ∧
        s.injPost j began code = (z.put Reg.HK.INJ_CTL.pending 0).put Reg.HK.INJ_RESULT.done 1 :=
    ⟨_, fun k hk => List.mem_range.1 (List.mem_of_mem_filter hk), _, rfl, by rw [hy, hx, hw, hv]; rfl⟩
  have hzy : SameOff readWords y z ∧ z.hk = y.hk ∧ z.mem = y.mem := by
    rw [hz]
    split
    · exact ⟨.refl y, rfl, rfl⟩
    · refine ⟨.forEach_mem fun k hk x => (SameOff.refl x).put (f := Reg.HK.READ.stale k) ?_ 0, 
        State.forEach_keeps (f := fun k s => s.put (Reg.HK.READ.stale k) 0) State.hk (fun _ _ => rfl) y l,
        State.forEach_keeps (f := fun k s => s.put (Reg.HK.READ.stale k) 0) State.mem (fun _ _ => rfl) y l⟩
      have := hl k hk
      simp only [readWords]
      omega
  obtain ⟨hread, hzhk, hzmem⟩ := hzy
  have hkeep : y.hk = w.hk ∧ y.mem = w.mem := by
    obtain ⟨_, h⟩ := hvshape
    rw [h, hx]
    exact ⟨rfl, rfl⟩
  have hresult (f : Fld) (hf : f.addr = 0x3000C) : z.get f = x.get f := by
    rw [hread.get (by rw [hf]; simp [readWords]), hvref.get (by rw [hf]; decide)]
  refine ⟨_, hu, ?_, ?_, ?_, ?_, ?_, ?_⟩
  · rw [State.get_put_same _ rfl]
    rfl
  · rw [State.get_put_apart _ rfl (by simp [Fld.apart]), State.get_put_apart _ rfl (by simp [Fld.apart]), hresult Reg.HK.INJ_RESULT.channel rfl, hx, State.putB,
      State.get_put_apart _ rfl (by simp [Fld.apart]), State.get_put_same _ rfl]
    exact Nat.mod_eq_of_lt hch
  · rw [State.get_put_apart _ rfl (by simp [Fld.apart]), State.get_put_apart _ rfl (by simp [Fld.apart]), hresult Reg.HK.INJ_RESULT.value rfl, hx, State.putB,
      State.get_put_apart _ rfl (by simp [Fld.apart]), State.get_put_apart _ rfl (by simp [Fld.apart]), State.get_put_same _ rfl]
    exact Nat.mod_eq_of_lt (unsigned_lt 16 v)
  · rw [State.get_put_apart _ rfl (by simp [Fld.apart]), State.get_put_same _ rfl]
    rfl
  · refine Eq.trans (b := z.hk.injected) rfl ?_
    rw [hzhk, hkeep.1, hw]
  · refine Eq.trans (b := z.mem) rfl ?_
    rw [hzmem, hkeep.2, hw]

theorem State.injectDone_of_some {j : Injection} {inputs : List Int} {ref : Nat} (hj : s.hk.injected = some j) {began : Nat}
    (hbegan : began = s.now - ticksOfUs (2 ^ j.avg)) :
    s.injectDone inputs ref = if began < j.at_ + ticksOfUs (j.delay + 4) then s
      else if isHkIn j.channel && decide (began < s.hk.refAt.getD 0) then s.dropPending injRef
      else if began < s.hk.bandgapAt.getD 0 then s
      else s.injPost j began (s.meanCode true inputs ref) := by
  unfold State.injectDone
  rw [hj, hbegan]

/-- A change of the reference (R628, R643). -/
theorem hkCtl_spec {value : Word} {v : State} (hv : v = s.storeHk Reg.HK.CTL.ref.addr value) (hne : v.get Reg.HK.CTL.ref ≠ s.get Reg.HK.CTL.ref) :
    ∃ u, s.hkCtl value = u ∧ u.get Reg.HK.CTL.ref = v.get Reg.HK.CTL.ref ∧ u.get Reg.HK.STATUS.ref_settled = 0 ∧
      u.hk.refAt = some (s.now + ticksOfUs 200) ∧
      (s.hk.cal ≠ none → u.hk.cal = none ∧ u.get Reg.HK.SYSCAL_STATUS.result = calibRef ∧ u.get Reg.HK.SYSCAL_STATUS.done = 1 ∧
        u.get Reg.HK.SYSCAL_STATUS.running = 0) := by
  have hvkeep : v.hk = s.hk ∧ v.now = s.now := by
    rw [hv]
    exact ⟨rfl, rfl⟩
  obtain ⟨hvhk, hvnow⟩ := hvkeep
  obtain ⟨w, hw⟩ : ∃ w : State, w = ({ v with hk := { v.hk with refAt := some (v.now + ticksOfUs 200) } } : State).put Reg.HK.STATUS.ref_settled 0 := ⟨_, rfl⟩
  obtain ⟨x, hx⟩ : ∃ x, x = w.unsettle hkInChannels (v.now + ticksOfUs 200) := ⟨_, rfl⟩
  have hun : Unsettles w x := by
    rw [hx]
    exact unsettles_unsettle ..
  have hu : s.hkCtl value = x.calStopped calibRef := by
    rw [hx, hw, hv]
    rw [hv] at hne
    exact if_neg hne
  have hxhk : x.hk.refAt = some (s.now + ticksOfUs 200) ∧ x.hk.cal = s.hk.cal := by
    obtain ⟨_, _, h⟩ := hun.1
    rw [h, hw, ← hvnow, ← hvhk]
    exact ⟨rfl, rfl⟩
  have hxref : x.get Reg.HK.CTL.ref = v.get Reg.HK.CTL.ref := by
    rw [hun.2.get (by decide), hw, State.get_put_elsewhere _ (by decide)]
    rfl
  have hxsettled : x.get Reg.HK.STATUS.ref_settled = 0 := by
    rw [hun.2.get (by decide), hw, State.get_put_same _ rfl]
    rfl
  obtain ⟨h1, h2, h3, hhk, hsame, -, -⟩ := calOver_spec (s := x) (code := calibRef) (by decide)
  refine ⟨_, hu, ?_⟩
  unfold State.calStopped
  split
  next hcal =>
    refine ⟨?_, ?_, ?_, fun _ => ⟨?_, h1, h2, h3⟩⟩
    · rw [hsame.get (by decide), hxref]
    · rw [hsame.get (by decide), hxsettled]
    · rw [hhk]
      exact hxhk.1
    · rw [hhk]
  next hcal =>
    refine ⟨hxref, hxsettled, hxhk.1, fun h => absurd ?_ hcal⟩
    rw [hxhk.2]
    exact Option.isSome_iff_ne_none.2 h

end

theorem claim_hkInjected : Claim.HkInjected := by
  rintro s t ch value inputs ref r rfl
  refine ⟨?_, fun hnone => ?_, ?_, ?_, fun x hx => ⟨fun h => ?_, fun h => ?_⟩, fun hnone => ?_⟩
  · rintro hr v c hv rfl
    have hgives : Gives (.hkInject t ch value) s v.inject := by
      rw [hv]
      exact gives_hostCmd (f := fun s => (s.storeHk Reg.HK.INJ_CTL.go.addr value).inject) hr rfl
    have hkeep : v.hk = s.hk ∧ v.hkbOff = s.hkbOff ∧ v.hkbTaken = s.hkbTaken ∧ v.flag Reg.HK.STATUS.ref_settled = s.flag Reg.HK.STATUS.ref_settled ∧
        v.now = max s.now t ∧ v.mem = s.mem := by
      rw [hv]
      have hpower : ((s.atTime t).storeHk Reg.HK.INJ_CTL.go.addr value).power = s.power := State.get_storeHk_other value (by decide)
      refine ⟨rfl, by rw [State.hkbOff, hpower]; rfl, ?_, ?_, rfl, rfl⟩
      · rw [State.hkbTaken_storeHk value (by decide) (by decide)]
        rfl
      · rw [State.flag, State.get_storeHk_other value (by decide)]
        rfl
    obtain ⟨hhk, hoff, htaken, href, hnow, hmem⟩ := hkeep
    have hdrop {cause : Nat} (h : v.injCause (v.get Reg.HK.INJ_CTL.channel) = some cause) :
        Gives (.hkInject t ch value) s (v.injDrop cause (v.get Reg.HK.INJ_CTL.channel)) := .of_eq hgives (State.inject_of_cause h)
    simp only [State.injCause, hhk, hoff, htaken, href] at hdrop
    refine ⟨fun h => hdrop (by simp [h]), fun h1 h2 => hdrop (by simp [h1, h2]), fun h1 h2 h3 => hdrop (by simp [h1, h2, h3]), fun h1 h2 h3 => ⟨fun h4 => ?_, fun h4 h5 => ?_, fun h4 h5 => ⟨fun h6 h7 => ?_, fun h6 => ?_⟩⟩⟩
    · have hsome := Option.isSome_iff_ne_none.2 h4
      exact hdrop (by simp [h1, h2, h3, hsome])
    · have hsome := Option.isSome_iff_ne_none.2 h5
      exact hdrop (by simp [h1, h2, h3, h4, hsome])
    · exact hdrop (by simp [h1, h2, h3, h4, h5, h6, State.flag_eq_false h7])
    · have hnone : v.injCause (v.get Reg.HK.INJ_CTL.channel) = none := by
        have hlast : (isHkIn (v.get Reg.HK.INJ_CTL.channel) && !s.flag Reg.HK.STATUS.ref_settled) = false := by
          rcases h6 with h6 | h6
          · rw [h6]
            rfl
          · rw [State.flag_eq_true h6]
            exact Bool.and_false _
        rw [State.injCause, hhk, hoff, htaken, href, h1, h2, h3, h4, h5, hlast]
        rfl
      refine ⟨_, .of_eq hgives (State.inject_of_none hnone), ?_, ?_, ?_, ?_⟩
      · rw [State.injWaits, State.get_put_same _ rfl]
        rfl
      · rw [← hnow]
        rfl
      · have hsame : SameOff (· ∈ [Reg.HK.INJ_CTL.go.addr]) s v := fun a ha => by
          rw [hv]
          exact State.word_setWord_other (fun h => ha (List.mem_singleton.2 h)) (s.atTime t) _
        exact (SameOff.put (f := Reg.HK.INJ_CTL.pending) (hsame.trans (.of_regs rfl)) (by simp) 1).sameWords
      · exact hmem
  · refine .of_eq rfl ?_
    unfold State.injectDone
    rw [show (s.atTime t).hk.injected = none from hnone]
  · rintro j hj began hbegan
    have hdone := State.injectDone_of_some (s := s.atTime t) (inputs := inputs) (ref := ref) hj hbegan
    have href (h : isHkIn j.channel = false ∨ s.hk.refAt.getD 0 ≤ began) : ¬ (isHkIn j.channel && decide (began < (s.atTime t).hk.refAt.getD 0)) = true := by
      rw [Bool.and_eq_true, decide_eq_true_eq]
      rintro ⟨h1, h2⟩
      rcases h with h | h
      · exact Bool.false_ne_true (h.symm.trans h1)
      · exact Nat.not_lt.2 h h2
    refine ⟨fun h => .of_eq rfl (hdone.trans (if_pos h)), fun h => ?_⟩
    rw [if_neg (Nat.not_lt.2 h)] at hdone
    refine ⟨fun h1 h2 => .of_eq rfl (hdone.trans (if_pos (Bool.and_eq_true_iff.2 ⟨h1, decide_eq_true h2⟩))), fun h1 h2 => ?_, fun h1 h2 hch => ?_⟩
    · exact .of_eq rfl (hdone.trans ((if_neg (href h1)).trans (if_pos h2)))
    · obtain ⟨u, hu, hspec⟩ := injPost_spec (s := s.atTime t) hch (began := began) (code := (s.atTime t).meanCode true inputs ref) rfl
      exact ⟨u, .of_eq rfl (hdone.trans ((if_neg (href h1)).trans ((if_neg (Nat.not_lt.2 h2)).trans hu))), hspec⟩
  · rintro hr v hv
    refine ⟨fun h => .of_eq (gives_hostCmd hr rfl) ?_, fun h => ?_⟩
    · rw [hv] at h ⊢
      exact if_pos h
    · obtain ⟨u, hu, hspec⟩ := hkCtl_spec (s := s.atTime t) hv h
      exact ⟨u, .of_eq (gives_hostCmd hr rfl) hu, hspec⟩
  · refine .of_eq rfl ?_
    unfold State.refSettled
    rw [show (s.atTime t).hk.refAt = some x from hx]
    exact if_pos h
  · refine .of_eq rfl ?_
    unfold State.refSettled
    rw [show (s.atTime t).hk.refAt = some x from hx]
    exact if_neg (Nat.not_le.2 h)
  · refine .of_eq rfl ?_
    unfold State.refSettled
    rw [show (s.atTime t).hk.refAt = none from hnone]


/-! ### The round -/

section

variable {s : State}

theorem State.roundStart_of_not (hh : s.hk.running = true ∨ s.hk.stopped = true ∨ s.trimsLoaded = false ∨ s.roundDue = false) : s.roundStart = s := by
  refine if_pos ?_
  rw [Bool.or_eq_true, Bool.or_eq_true, Bool.or_eq_true, Bool.not_eq_true', Bool.not_eq_true', or_assoc, or_assoc]
  exact hh

/-- The entries of a round that begins, in their order, each with the time in µs after which it is over (R630, R632). -/
def State.roundOrder (s : State) : List (Nat × Nat × Nat × Nat) :=
  (List.range s.roundEntries.length).map fun i =>
    (s.roundEntries.getD i 0, entryChannel (s.entryWord (s.roundEntries.getD i 0)), entryAvg (s.entryWord (s.roundEntries.getD i 0)),
      s.entriesTime (s.roundEntries.take (i + 1)))

/-- The length of a round that begins (R631). -/
def State.roundLength (s : State) : Nat :=
  if s.roundPeriod < s.entriesTime s.roundEntries then ceilDiv (s.entriesTime s.roundEntries) 256 * 256 else s.roundPeriod

theorem State.roundOrder_entries (s : State) :
    (s.roundOrder.map fun e => (e.1, e.2.1, e.2.2.1)) = s.roundEntries.map fun k => (k, entryChannel (s.entryWord k), entryAvg (s.entryWord k)) := by
  rw [State.roundOrder, List.map_map]
  apply List.ext_getElem
  · simp
  · intro i h1 h2
    have hi : i < s.roundEntries.length := by simpa using h2
    simp [hi]

theorem State.roundOrder_times (s : State) {i : Nat} (hi : i < s.roundEntries.length) :
    (s.roundOrder.map fun e => e.2.2.2).getD i 0 = s.entriesTime (s.roundEntries.take (i + 1)) := by
  rw [State.roundOrder, List.map_map]
  simp [hi, List.getD_eq_getElem?_getD]

theorem State.roundLength_spec (s : State) :
    (s.entriesTime s.roundEntries ≤ s.roundPeriod → s.roundLength = s.roundPeriod) ∧
      (s.roundPeriod < s.entriesTime s.roundEntries →
        256 ∣ s.roundLength ∧ s.entriesTime s.roundEntries ≤ s.roundLength ∧ s.roundLength < s.entriesTime s.roundEntries + 256) := by
  unfold State.roundLength ceilDiv
  refine ⟨fun h => if_neg (Nat.not_lt.2 h), fun h => ?_⟩
  rw [if_pos h]
  omega

/-- A round that begins. -/
theorem roundStart_spec (hrunning : s.hk.running = false) (hstopped : s.hk.stopped = false) (hloaded : s.trimsLoaded = true) (hdue : s.roundDue = true) :
    ∃ u, s.roundStart = u ∧ u.hk.running = true ∧ u.hk.start = some s.now ∧ u.hk.left = s.roundOrder ∧ u.hk.length = s.roundLength ∧
      u.hk.byB = s.flag Reg.RECOVERY.STATUS.hkb_standin ∧
      u.get Reg.HK.STATUS.stretched = b2n (decide (s.roundPeriod < s.entriesTime s.roundEntries)) := by
  obtain ⟨ssc, skipped, v, hskipped, hv, hu⟩ : ∃ ssc, ∃ skipped : List Nat, ∃ v : State, (∀ k ∈ skipped, k < 96) ∧
      v = ({ s with hk := { s.hk with running := true, start := some s.now, length := s.roundLength,
                                      byB := s.flag Reg.RECOVERY.STATUS.hkb_standin, left := s.roundOrder },
                    clock := { s.clock with ssc := ssc } } : State).putB Reg.HK.STATUS.stretched (decide (s.roundPeriod < s.entriesTime s.roundEntries)) ∧
      s.roundStart = v.forEach skipped fun k s => s.setWord (Reg.HK.READ.word k).addr 0 := by
    refine ⟨s.get ⟨Reg.CLOCK.SSC_CTL.mode.addr, 0, 32⟩, (List.range 96).filter fun k => entryOn (s.entryWord k) && !hkChannel (entryChannel (s.entryWord k)), _,
      fun k hk => List.mem_range.1 (List.mem_of_mem_filter hk), rfl, (if_neg ?_).trans ?_⟩
    · rw [hrunning, hstopped, hloaded, hdue]
      exact Bool.false_ne_true
    · simp only [State.roundLength]
      rfl
  have hsame : SameOff readWords v s.roundStart := by
    rw [hu]
    refine .forEach_mem fun k hk x a ha => State.word_setWord_other (fun h => ha ?_) x 0
    have := hskipped k hk
    rw [h]
    simp only [readWords]
    omega
  have hhk : s.roundStart.hk = v.hk := by
    rw [hu]
    exact State.forEach_keeps (f := fun k s => s.setWord (Reg.HK.READ.word k).addr 0) State.hk (fun _ _ => rfl) v skipped
  refine ⟨_, rfl, ?_, ?_, ?_, ?_, ?_, ?_⟩
  · rw [hhk, hv]
    rfl
  · rw [hhk, hv]
    rfl
  · rw [hhk, hv]
    rfl
  · rw [hhk, hv]
    rfl
  · rw [hhk, hv]
    rfl
  · rw [hsame.get (by simp [readWords]), hv, State.putB, State.get_put_same _ rfl]
    exact Nat.mod_eq_of_lt (by cases decide (s.roundPeriod < s.entriesTime s.roundEntries) <;> decide)

theorem State.entryDone_of_idle {k : Nat} {inputs : List Int} {ref : Nat} (h : s.hk.running = false ∨ s.hk.left = []) : s.entryDone k inputs ref = s := by
  unfold State.entryDone
  rcases h with h | h
  · split
    · rfl
    · exact if_pos (by rw [h]; rfl)
  · rw [h]

theorem State.entryDone_of_other {k k' c a due : Nat} {rest : List (Nat × Nat × Nat × Nat)} {inputs : List Int} {ref : Nat}
    (hleft : s.hk.left = (k', c, a, due) :: rest) (h : k' ≠ k ∨ s.now < s.hk.start.getD 0 + ticksOfUs due) : s.entryDone k inputs ref = s := by
  unfold State.entryDone
  rw [hleft]
  refine if_pos ?_
  rw [Bool.or_eq_true, Bool.or_eq_true, bne_iff_ne, decide_eq_true_eq, or_assoc]
  exact .inr (h.imp_left Ne.symm)

theorem State.entryDone_of_next {k c a due : Nat} {rest : List (Nat × Nat × Nat × Nat)} {inputs : List Int} {ref : Nat}
    (hleft : s.hk.left = (k, c, a, due) :: rest) (hdue : s.hk.start.getD 0 + ticksOfUs due ≤ s.now) (hrunning : s.hk.running = true) :
    s.entryDone k inputs ref = ({ s with hk := { s.hk with left := rest } } : State).postEntry k c a (s.meanCode s.hk.byB inputs ref) := by
  unfold State.entryDone
  rw [hleft]
  refine if_neg ?_
  rw [hrunning, bne_self_eq_false, decide_eq_false (Nat.not_lt.2 hdue)]
  exact Bool.false_ne_true

theorem State.postEntry_of_unsettled {k ch avg code began : Nat} (hbegan : began = s.now - ticksOfUs (2 ^ avg)) (h : began < s.hkFrom ch) :
    s.postEntry k ch avg code = s.put (Reg.HK.READ.stale k) 1 := by
  rw [hbegan] at h
  exact if_pos h

/-- An entry whose channel counts posts its reading (R632). -/
theorem postEntry_spec {k ch avg code began : Nat} (hk : k < 96) (hbegan : began = s.now - ticksOfUs (2 ^ avg)) (h : s.hkFrom ch ≤ began) {v : Int}
    (hv : v = s.reading (s.coefAt ch began) ch code) :
    ∃ u, s.postEntry k ch avg code = u ∧ u.hk.left = s.hk.left ∧ u.get (Reg.HK.READ.stale k) = 0 ∧ u.get (Reg.HK.READ.value k) = unsigned 16 v ∧
      (k < 24 → s.hk.codes.length = 24 → u.hk.codes.getD k 0 = code) ∧ u.mem = s.mem ∧ u.out = s.out := by
  obtain ⟨x, hx⟩ : ∃ x, x = ((s.put (Reg.HK.READ.value k) (unsigned 16 v)).put (Reg.HK.READ.stale k) 0).putB (Reg.HK.READ.suspect k)
      (isHkIn ch && bit (s.coefAt ch began).toNat 15) := ⟨_, rfl⟩
  obtain ⟨hvref, hshape⟩ := State.noteVref_spec (s := x) ch v
  obtain ⟨y, hy⟩ : ∃ y, y = x.noteVref ch v := ⟨_, rfl⟩
  rw [← hy] at hvref hshape
  have hu : s.postEntry k ch avg code = if k < 24 then ({ y with hk := { y.hk with codes := y.hk.codes.set k code } } : State).put (Reg.THERMAL.TS.reading k) (unsigned 16 v)
      else y := by
    rw [hbegan] at h hv hx
    rw [hy, hx, hv]
    exact if_neg (Nat.not_lt.2 h)
  have hkeep : y.hk = s.hk ∧ y.mem = s.mem ∧ y.out = s.out := by
    obtain ⟨_, h⟩ := hshape
    rw [h, hx]
    exact ⟨rfl, rfl, rfl⟩
  obtain ⟨hhk, hmem, hout⟩ := hkeep
  have hystale : y.get (Reg.HK.READ.stale k) = 0 := by
    rw [hvref.get (by dsimp only; omega), hx, State.putB, State.get_put_apart _ rfl (by simp [Fld.apart]), State.get_put_same _ rfl]
    rfl
  have hyvalue : y.get (Reg.HK.READ.value k) = unsigned 16 v := by
    rw [hvref.get (by dsimp only; omega), hx, State.putB, State.get_put_apart _ rfl (by simp [Fld.apart]), State.get_put_apart _ rfl (by simp [Fld.apart]),
      State.get_put_same _ rfl]
    exact Nat.mod_eq_of_lt (unsigned_lt 16 v)
  refine ⟨_, hu, ?_⟩
  split
  next hk24 =>
    have hthermal (f : Fld) (hf : f.addr = (Reg.HK.READ.word k).addr) (w : State) : (w.put (Reg.THERMAL.TS.reading k) (unsigned 16 v)).get f = w.get f :=
      w.get_put_elsewhere (by rw [hf]; dsimp only; omega) _
    refine ⟨Eq.trans (b := y.hk.left) rfl (congrArg HkState.left hhk), (hthermal (Reg.HK.READ.stale k) rfl _).trans hystale, (hthermal (Reg.HK.READ.value k) rfl _).trans hyvalue, fun _ hlen => ?_, hmem, hout⟩
    refine Eq.trans (b := (y.hk.codes.set k code).getD k 0) rfl ?_
    rw [hhk]
    simp [List.getD_eq_getElem?_getD, hlen, hk24]
  next hk24 => exact ⟨congrArg HkState.left hhk, hystale, hyvalue, fun h => absurd h hk24, hmem, hout⟩

/-! ### Faults of the converters -/

/-- The registers of readings and sensors. -/
def sensorWords (a : Nat) : Prop := readWords a ∨ (0x38100 ≤ a ∧ a < 0x38160)

theorem stopRounds_spec (s : State) :
    SameOff sensorWords s s.stopRounds ∧ s.stopRounds.hk = { s.hk with stopped := true, left := [], codes := List.replicate 24 0 } ∧
      s.stopRounds.log = s.log := by
  obtain ⟨v, hv⟩ : ∃ v : State, v = { s with hk := { s.hk with stopped := true, left := [], codes := List.replicate 24 0 } } := ⟨_, rfl⟩
  have hu : s.stopRounds = v.forEach (List.range 24) fun n s =>
      (s.put (Reg.HK.READ.value n) (unsigned 16 (s.reading 0 n 0))).put (Reg.THERMAL.TS.reading n) (unsigned 16 (s.reading 0 n 0)) := by
    rw [hv]
    rfl
  rw [hu]
  have hvs : SameOff sensorWords s v := .of_regs (by rw [hv])
  refine ⟨hvs.trans (.forEach_mem fun n hn x => ?_), ?_, ?_⟩
  · have := List.mem_range.1 hn
    exact ((SameOff.refl x).put (f := Reg.HK.READ.value n) (by simp only [sensorWords, readWords]; omega) _).put (f := Reg.THERMAL.TS.reading n)
      (by simp only [sensorWords, readWords]; omega) _
  · refine (State.forEach_keeps (f := fun n s => (s.put (Reg.HK.READ.value n) (unsigned 16 (s.reading 0 n 0))).put (Reg.THERMAL.TS.reading n)
      (unsigned 16 (s.reading 0 n 0))) State.hk (fun _ _ => rfl) v _).trans ?_
    rw [hv]
  · refine (State.forEach_keeps (f := fun n s => (s.put (Reg.HK.READ.value n) (unsigned 16 (s.reading 0 n 0))).put (Reg.THERMAL.TS.reading n)
      (unsigned 16 (s.reading 0 n 0))) State.log (fun _ _ => rfl) v _).trans ?_
    rw [hv]

/-- A fault of a converter ends what waits for it. -/
theorem standinEnds_spec (s : State) :
    ∃ u, (s.dropPending injStandin).calStopped calibStandin = u ∧ u.hk = { s.hk with injected := none, cal := none } ∧
      SameOff (fun a => injWords a ∨ a = Reg.HK.SYSCAL_STATUS.word.addr) s u := by
  obtain ⟨hhk, hsame, -⟩ := dropPending_spec (s := s) (cause := injStandin) (by decide)
  obtain ⟨v, hv⟩ : ∃ v, v = s.dropPending injStandin := ⟨_, rfl⟩
  rw [← hv] at hhk hsame ⊢
  obtain ⟨-, -, -, hchk, hcsame, -⟩ := calOver_spec (s := v) (code := calibStandin) (by decide)
  refine ⟨_, rfl, ?_⟩
  unfold State.calStopped
  split
  next =>
    refine ⟨by rw [hchk, hhk], (hsame.mono fun a ha => .inl ha).trans (hcsame.mono fun a ha => .inr (List.mem_singleton.1 ha))⟩
  next hcal =>
    have hnone : s.hk.cal = none := by
      rw [hhk] at hcal
      exact Option.not_isSome_iff_eq_none.1 hcal
    refine ⟨?_, hsame.mono fun a ha => .inl ha⟩
    rw [hhk, ← hnone]

theorem injWords_bounds {a : Nat} (h : injWords a) : 0x30008 ≤ a ∧ a < 0x30018 := by
  simp only [injWords, List.mem_cons, List.not_mem_nil, or_false] at h
  rcases h with rfl | rfl | rfl <;> decide

/-- HK-B faults while it stands in: the rounds stop (R639). -/
theorem hkbFault_spec (hstandin : s.get Reg.RECOVERY.STATUS.hkb_standin = 1) :
    ∃ u, s.hkbFault = u ∧ u.get Reg.HK.STATUS.hkb_fault = 1 ∧ u.hk.left = [] ∧ u.hk.stopped = true ∧ u.hk.codes = List.replicate 24 0 := by
  obtain ⟨v, hv⟩ : ∃ v, v = s.put Reg.HK.STATUS.hkb_fault 1 := ⟨_, rfl⟩
  obtain ⟨w, hw, -, hsame⟩ := standinEnds_spec v
  have hflag : w.flag Reg.RECOVERY.STATUS.hkb_standin = true := by
    refine State.flag_eq_true ?_
    rw [hsame.get (by rintro (h | h); exacts [absurd (injWords_bounds h) (by decide), absurd h (by decide)]), hv, State.get_put_elsewhere _ (by decide)]
    exact hstandin
  have hu : s.hkbFault = w.stopRounds := by
    rw [State.hkbFault, ← hv, hw, hflag]
    rfl
  obtain ⟨hstop, hhk, -⟩ := stopRounds_spec w
  refine ⟨_, hu, ?_, ?_, ?_, ?_⟩
  · rw [hstop.get (by simp [sensorWords, readWords]), hsame.get (by rintro (h | h); exacts [absurd (injWords_bounds h) (by decide), absurd h (by decide)]), hv,
      State.get_put_same _ rfl]
    rfl
  · rw [hhk]
  · rw [hhk]
  · rw [hhk]

/-- HK-A faults: HK-B stands in (R638). -/
theorem hkaFault_spec (hka : s.get Reg.HK.STATUS.hka_fault = 0) (hkb : s.get Reg.HK.STATUS.hkb_fault = 0) :
    ∃ u, s.hkaFault = u ∧ u.get Reg.HK.STATUS.hka_fault = 1 ∧ u.get Reg.RECOVERY.STATUS.hkb_standin = 1 ∧ u.hk.left = s.hk.left ∧
      u.newest = some (1, 0x0E, unitHk, 0) ∧ u.get Reg.HOST.INT_STATUS.fault = 1 := by
  obtain ⟨v, hv⟩ : ∃ v, v = (s.put Reg.HK.STATUS.hka_fault 1).put Reg.RECOVERY.STATUS.hkb_standin 1 := ⟨_, rfl⟩
  obtain ⟨w, hw, hhk, hsame⟩ := standinEnds_spec v
  have hwget (f : Fld) (hf : f.addr = Reg.HK.STATUS.word.addr ∨ f.addr = Reg.RECOVERY.STATUS.word.addr) : w.get f = v.get f :=
    hsame.get (by
      rintro (h | h)
      · have := injWords_bounds h
        dsimp only at hf
        omega
      · dsimp only at hf h
        omega)
  have hflag : w.flag Reg.HK.STATUS.hkb_fault = false := by
    refine State.flag_eq_false ?_
    rw [hwget Reg.HK.STATUS.hkb_fault (.inl rfl), hv, State.get_put_elsewhere _ (by decide), State.get_put_apart _ rfl (by decide)]
    exact hkb
  have hu : s.hkaFault = w.record { kind := .fault, cls := 0x0E, unit := unitHk, action := 1, spare := 1 } := by
    refine (if_neg ?_).trans ?_
    · rw [State.flag_eq_false hka]
      exact Bool.false_ne_true
    · rw [← hv]
      dsimp only
      rw [hw, hflag]
      rfl
  refine ⟨_, hu, ?_, ?_, ?_, ?_, State.get_record_bit _ _⟩
  · rw [State.get_record _ _ (by simp [recordWords]), hwget Reg.HK.STATUS.hka_fault (.inl rfl), hv, State.get_put_elsewhere _ (by decide), State.get_put_same _ rfl]
    rfl
  · rw [State.get_record _ _ (by simp [recordWords]), hwget Reg.RECOVERY.STATUS.hkb_standin (.inr rfl), hv, State.get_put_same _ rfl]
    rfl
  · rw [(keepsTrims_record w _).2.1, hhk, hv]
    rfl
  · rw [State.newest_record]
    rfl

end


/-! ### Shutdown -/

/-- The words that a part going to THERMAL_OFF may change once its carriers are OFF: neither those of the carriers' states nor that of the thermal state. -/
def besideShutdown (a : Nat) : Prop := a < 0x200000 ∧ a ≠ Reg.THERMAL.STATUS.word.addr ∨ 0x300000 ≤ a

/-- The second state has the gates of the first, the same carriers' states and the same thermal state. -/
structure StaysShut (s u : State) : Prop where
  words : SameOff besideShutdown s u
  gates : u.gates = s.gates

theorem StaysShut.refl (s : State) : StaysShut s s := ⟨.refl s, rfl⟩

theorem StaysShut.trans {s u v : State} (hsu : StaysShut s u) (huv : StaysShut u v) : StaysShut s v := ⟨hsu.words.trans huv.words, huv.gates.trans hsu.gates⟩

theorem StaysShut.put {s u : State} (h : StaysShut s u) {f : Fld} (hf : besideShutdown f.addr) (v : Nat) : StaysShut s (u.put f v) :=
  ⟨h.words.put (f := f) hf v, h.gates⟩

theorem StaysShut.of_regs {s u : State} (hregs : u.regs = s.regs) (hgates : u.gates = s.gates) : StaysShut s u := ⟨.of_regs hregs, hgates⟩

theorem StaysShut.forEach {α : Type} {s : State} {f : α → State → State} {l : List α} (hf : ∀ a ∈ l, ∀ x, StaysShut x (f a x)) : StaysShut s (s.forEach l f) :=
  State.forEach_induct (P := StaysShut s) (.refl s) fun a ha x hx => hx.trans (hf a ha x)

theorem StaysShut.ite {s u v : State} {c : Prop} [Decidable c] (hu : StaysShut s u) (hv : StaysShut s v) : StaysShut s (if c then u else v) := by
  split
  · exact hu
  · exact hv

section

variable (s : State)

theorem staysShut_setMute {p : Nat} (hp : p < 64) (i : Nat) (on : Bool) : StaysShut s (s.setMute p i on) := by
  obtain ⟨n, h | h⟩ := s.setMute_shape p i on
  · rw [h]
    exact .refl s
  · rw [h]
    exact (StaysShut.refl s).put (f := Reg.PATH.STATUS.mute_reasons p) (.inl (by dsimp only; omega)) n

theorem staysShut_disarm (x : Timer) : StaysShut s (s.disarm x) := .of_regs rfl rfl

theorem staysShut_sendUp (m : StairMsg) : StaysShut s (s.sendUp m) := by
  obtain ⟨⟨_, _, _, _, hshape⟩, hwords⟩ := sends_sendUp s m
  refine ⟨hwords.mono fun a ha => ?_, by rw [hshape]⟩
  have := bounds_of_laneAdaptWords ha
  exact .inr (by omega)

theorem staysShut_calHalted {p : Nat} (hp : p < 64) : StaysShut s (s.calHalted p) := by
  refine ⟨SameOff.calHalted (.refl s) (.inl (by dsimp only; omega)) (.inl (by dsimp only; omega)), ?_⟩
  unfold State.calHalted
  dsimp only
  split <;> rfl

theorem staysShut_calClear {p : Nat} (hp : p < 64) : StaysShut s (s.calClear p) := by
  obtain ⟨_, h⟩ := s.calClear_shape p
  have hx := (staysShut_calHalted s hp).trans ((staysShut_setMute (s.calHalted p) hp muteCal false).trans (staysShut_disarm _ (.cal p)))
  rw [h]
  generalize ((s.calHalted p).setMute p muteCal false).disarm (.cal p) = x at hx ⊢
  exact hx.trans (.of_regs rfl rfl)

theorem staysShut_calLost {p : Nat} (hp : p < 64) (precond : Nat) : StaysShut s (s.calLost p precond) := by
  unfold State.calLost
  split
  next r _ =>
    refine .ite ?_ (.refl s)
    have hclear := staysShut_calClear s hp
    exact ⟨hclear.words.calReport (.inl (by dsimp only; omega)) _ _ _ _, hclear.gates⟩
  next => exact .refl s

theorem staysShut_markStale : StaysShut s s.markStale := by
  have hput : StaysShut s (s.put Reg.OTA.STATUS.stale 1) := (StaysShut.refl s).put (f := Reg.OTA.STATUS.stale) (.inr (by decide)) 1
  unfold State.markStale
  dsimp only
  generalize s.put Reg.OTA.STATUS.stale 1 = x at hput
  obtain ⟨y, hy⟩ : ∃ y : State, y = { x with ota := { x.ota with staleRound := x.ota.staleRound || x.ota.active } } := ⟨_, rfl⟩
  have hxy : StaysShut s y := by
    rw [hy]
    exact hput.trans (.of_regs rfl rfl)
  rw [← hy]
  split
  · exact hput.trans (.of_regs rfl rfl)
  · exact hxy.trans (staysShut_sendUp y _)

theorem staysShut_loLeft {b : Nat} (hb : b < 2) : StaysShut s (s.loLeft b) := by
  have hpaths : StaysShut s (s.forEach (bankPaths b) fun p s => (s.modObs p fun o => { o with attenRef := none }).calLost p 3) :=
    .forEach fun p hp x => (StaysShut.of_regs rfl rfl : StaysShut x (x.modObs p fun o => { o with attenRef := none })).trans
      (staysShut_calLost _ (lt_of_mem_bankPaths hb hp) 3)
  exact hpaths.trans (staysShut_markStale _)

theorem staysShut_muteByLo {b : Nat} (hb : b < 2) : StaysShut s (s.muteByLo b) := by
  obtain ⟨⟨_, hshape⟩, hwords, -⟩ := muteByLo_spec s hb
  refine ⟨hwords.mono fun a ha => ?_, by rw [hshape]⟩
  obtain ⟨h1, h2⟩ := ha
  exact .inl ⟨by omega, by dsimp only; omega⟩

theorem staysShut_loEnter {b : Nat} (hb : b < 2) (st : Nat) : StaysShut s (s.loEnter b st) :=
  ((StaysShut.refl s).put (f := Reg.CLOCK.LO_STATUS.state b) (.inl (by dsimp only; omega)) st).put (f := Reg.CLOCK.LO_STATUS.dither b) (.inl (by dsimp only; omega)) _

theorem staysShut_xfeedLost : StaysShut s s.xfeedLost := by
  have hput : StaysShut s (s.put Reg.CLOCK.XFEED_MEAS.valid 0) := (StaysShut.refl s).put (f := Reg.CLOCK.XFEED_MEAS.valid) (.inl (by decide)) 0
  unfold State.xfeedLost
  generalize s.put Reg.CLOCK.XFEED_MEAS.valid 0 = x at hput ⊢
  exact hput.trans (.of_regs rfl rfl)

theorem staysShut_modBank (b : Nat) (f : LoBank → LoBank) : StaysShut s (s.modBank b f) := .of_regs rfl rfl

theorem staysShut_muteByBanks : StaysShut s s.muteByBanks := (staysShut_muteByLo s (by decide)).trans (staysShut_muteByLo _ (by decide))

/-- A bank that delivers leaves its paths. -/
def State.loLeaves (s : State) (b : Nat) : State := if s.loState b == loLocked then s.loLeft b else s

/-- A bank that has not failed reads OFF. -/
def State.loOffed (s : State) (b : Nat) : State :=
  if s.loState b == loFailed then s
  else (((s.loEnter b loOff).put (Reg.CLOCK.LO_STATUS.own_lock b) 0).put (Reg.CLOCK.LO_STATUS.crossfed b) 0).put (Reg.CLOCK.LO_STATUS.attempt b) 0

theorem State.loStop_eq (b : Nat) :
    s.loStop b = ((((s.xfeedLost.loLeaves b).loOffed b).modBank b fun x => { x with retune := none, relock := false }).disarm (.lo b)).muteByBanks := rfl

theorem staysShut_loLeaves {b : Nat} (hb : b < 2) : StaysShut s (s.loLeaves b) := .ite (staysShut_loLeft s hb) (.refl s)

theorem staysShut_loOffed {b : Nat} (hb : b < 2) : StaysShut s (s.loOffed b) :=
  .ite (.refl s) ((((staysShut_loEnter s hb loOff).put (f := Reg.CLOCK.LO_STATUS.own_lock b) (.inl (by dsimp only; omega)) 0).put
    (f := Reg.CLOCK.LO_STATUS.crossfed b) (.inl (by dsimp only; omega)) 0).put (f := Reg.CLOCK.LO_STATUS.attempt b) (.inl (by dsimp only; omega)) 0)

theorem staysShut_loStop {b : Nat} (hb : b < 2) : StaysShut s (s.loStop b) := by
  rw [State.loStop_eq]
  exact (staysShut_xfeedLost s).trans ((staysShut_loLeaves _ hb).trans ((staysShut_loOffed _ hb).trans ((staysShut_modBank ..).trans
    ((staysShut_disarm ..).trans (staysShut_muteByBanks _)))))

theorem staysShut_islandsStop (l : List Nat) : StaysShut s (s.islandsStop l) := by
  unfold State.islandsStop
  extract_lets x
  have hx : StaysShut s x := .forEach fun n _ y =>
    ((StaysShut.refl y).put (f := Reg.CLOCK.ISLAND_STATUS.running) (.inl (by decide)) _).put (f := Reg.CLOCK.ISLAND_STATUS.locked) (.inl (by decide)) _
  clear_value x
  refine hx.trans (.ite ?_ (.refl x))
  exact ((((StaysShut.refl x).put (f := cnvField 0) (.inl (by decide)) loOff).put (f := cnvField 1) (.inl (by decide)) loOff).put
    (f := Reg.CLOCK.CNV_STATUS.tracking) (.inl (by decide)) 0).put (f := Reg.RECOVERY.STATUS.cnv_standby) (.inl (by decide)) 0

theorem staysShut_modFhPort (n : Nat) (f : FhPort → FhPort) : StaysShut s (s.modFhPort n f) := .of_regs rfl rfl

theorem staysShut_modSPort (n : Nat) (f : StairPort → StairPort) : StaysShut s (s.modSPort n f) := .of_regs rfl rfl

theorem staysShut_modSLane (i : Nat) (f : StairLane → StairLane) : StaysShut s (s.modSLane i f) := .of_regs rfl rfl

theorem staysShut_emit (o : Output) : StaysShut s (s.emit o) := .of_regs rfl rfl

theorem staysShut_fhEnter (n st : Nat) : StaysShut s (s.fhEnter n st) :=
  ((StaysShut.refl s).put (f := Reg.FRONTHAUL.PORT_STATUS.state n) (.inr (by dsimp only; omega)) st).trans (staysShut_modFhPort _ _ _)

theorem staysShut_padLanes (n : Nat) : StaysShut s (s.padLanes n) := by
  unfold State.padLanes
  extract_lets due first u
  have hu : StaysShut s u := .forEach fun e _ x => staysShut_modSLane ..
  clear_value u
  exact .ite (.refl s) (.ite hu ((hu.trans (staysShut_modSPort ..)).trans (staysShut_emit ..)))

theorem staysShut_lanesEnter (n st : Nat) : StaysShut s (s.lanesEnter n st) := by
  unfold State.lanesEnter
  extract_lets at0 u
  have hu : StaysShut s u := .forEach fun i _ x =>
    (((StaysShut.refl x).put (f := Reg.STAIR.LANE_STATUS.state i) (.inr (by dsimp only; omega)) st).put (f := Reg.STAIR.LANE_ADAPT.idle i) (.inr (by dsimp only; omega))
      0).trans (staysShut_modSLane ..)
  clear_value u
  exact hu.put (f := Reg.STAIR.PORT_STATUS.lanes n) (.inr (by dsimp only; omega)) _

theorem staysShut_sEnter (n st : Nat) : StaysShut s (s.sEnter n st) :=
  ((StaysShut.refl s).put (f := Reg.STAIR.PORT_STATUS.state n) (.inr (by dsimp only; omega)) st).trans (staysShut_modSPort ..)

theorem staysShut_portQuiet (n st : Nat) : StaysShut s (s.portQuiet n st) := by
  obtain ⟨u, hu⟩ : ∃ u, u = ((s.padLanes n).sEnter n st).lanesEnter n slOff := ⟨_, rfl⟩
  have hsu : StaysShut s u := by
    rw [hu]
    exact (staysShut_padLanes s n).trans ((staysShut_sEnter _ n st).trans (staysShut_lanesEnter _ n slOff))
  unfold State.portQuiet
  rw [← hu]
  exact ((hsu.put (f := Reg.STAIR.PORT_STATUS.use n) (.inr (by dsimp only; omega)) useNone).put (f := Reg.STAIR.PORT_PEER.valid n)
    (.inr (by dsimp only; omega)) 0).trans (staysShut_modSPort ..)

theorem staysShut_dropPending (cause : Nat) (hcause : cause < 16) : StaysShut s (s.dropPending cause) := by
  obtain ⟨-, hsame, -⟩ := dropPending_spec (s := s) hcause
  refine ⟨hsame.mono fun a ha => ?_, ?_⟩
  · have := injWords_bounds ha
    exact .inl ⟨by omega, by dsimp only; omega⟩
  · unfold State.dropPending
    split <;> rfl

end


section

variable (s : State)

theorem staysShut_keep (k : Keep) : StaysShut s { s with keep := k } := .of_regs rfl rfl

theorem staysShut_imageOver (code sect : Nat) : StaysShut s (s.imageOver code sect) := by
  unfold State.imageOver
  dsimp only
  have hs : StaysShut s ({ s with image := { s.image with cmd := none } } : State) := .of_regs rfl rfl
  generalize ({ s with image := { s.image with cmd := none } } : State) = x at hs ⊢
  exact (((hs.put (f := Reg.IMAGE.STATUS.code) (.inl (by decide)) code).put (f := Reg.IMAGE.STATUS.section) (.inl (by decide)) sect).put
    (f := Reg.IMAGE.STATUS.busy) (.inl (by decide)) 0).put (f := Reg.IMAGE.STATUS.done) (.inl (by decide)) 1

theorem staysShut_slotShutdown : StaysShut s s.slotShutdown := by
  unfold State.slotShutdown
  split
  next r _ =>
    refine .ite (.refl s) ?_
    unfold State.slotRecorded
    dsimp only
    have hs := staysShut_keep s { s.keep with slotRec := r }
    generalize ({ s with keep := { s.keep with slotRec := r } } : State) = x at hs ⊢
    exact ((hs.put (f := Reg.IMAGE.FLOOR.word) (.inl (by decide)) _).put (f := Reg.IMAGE.STATUS.trial) (.inl (by decide)) _).trans (staysShut_imageOver ..)
  next => exact .refl s

theorem staysShut_keepOver (code : Nat) : StaysShut s (s.keepOver code) := by
  unfold State.keepOver
  dsimp only
  have hs := staysShut_keep s { s.keep with running := none }
  generalize ({ s with keep := { s.keep with running := none } } : State) = x at hs ⊢
  exact ((hs.put (f := Reg.KEEP.STATUS.busy) (.inl (by decide)) 0).put (f := Reg.KEEP.STATUS.result) (.inl (by decide)) code).put
    (f := Reg.KEEP.STATUS.done) (.inl (by decide)) 1

theorem staysShut_wear (l : List Nat) : StaysShut s (s.wear l) := by
  unfold State.wear
  extract_lets er k x
  have hs : StaysShut s x := staysShut_keep s _
  clear_value x
  exact hs.put (f := Reg.KEEP.WEAR.count) (.inl (by decide)) _

theorem staysShut_eraseSectors (slot n : Nat) : StaysShut s (s.eraseSectors slot n) := by
  obtain ⟨k, hk⟩ : ∃ k, s.eraseSectors slot n = ({ s with keep := k } : State).wear ((List.range n).map fun i => 96 * slot + i) := ⟨_, rfl⟩
  rw [hk]
  exact (staysShut_keep s k).trans (staysShut_wear _ _)

theorem staysShut_programSnap (logical : Nat) (commit : Bool) (data : List Byte) : StaysShut s (s.programSnap logical commit data) := by
  unfold State.programSnap
  split
  · exact staysShut_keep ..
  · exact .refl s

theorem staysShut_free (n : Nat) : StaysShut s { s with free := n } := .of_regs rfl rfl

theorem staysShut_keepPageRead (area page : Nat) : StaysShut s (s.keepPageRead area page).2 := by
  have hfree := staysShut_free s (s.free + 248)
  unfold State.keepPageRead
  dsimp only
  split_ifs
  · exact .refl s
  · split
    · exact .refl s
    · exact hfree
  · split
    · exact hfree
    · exact hfree
  · exact hfree

theorem staysShut_setKeepBuffer (bs : List Byte) : StaysShut s (s.setKeepBuffer bs) :=
  .forEach fun k hk x => by
    have := List.mem_range.1 hk
    exact (StaysShut.refl x).put (f := Reg.KEEP.PAGE.word k) (.inl (by dsimp only; omega)) _

theorem staysShut_keepEffect (j : KeepJob) : StaysShut s (s.keepEffect j) := by
  unfold State.keepEffect
  split
  · exact (staysShut_keepPageRead s _ _).trans (staysShut_setKeepBuffer _ _)
  · exact .ite (staysShut_keep ..) (staysShut_programSnap ..)
  · generalize (s.keep.snapSeq + 1) % 2 ^ 32 = n
    exact (staysShut_keep s { s.keep with snapSeq := n, openUpdate := some n }).put (f := Reg.KEEP.UPDATE.word) (.inl (by decide)) n
  · split
    · exact (staysShut_programSnap s _ _ _).trans (staysShut_keep ..)
    · exact .refl s
  · exact staysShut_keep ..
  · exact staysShut_eraseSectors ..
  · exact staysShut_keep ..

theorem staysShut_keepShutdown : StaysShut s s.keepShutdown := by
  unfold State.keepShutdown
  split
  · exact .refl s
  next j _ =>
    dsimp only
    split
    · have hs : StaysShut s ({ s with keep := s.keep.programRaw j.area j.page ((s.copyPages (ceilDiv j.len 256)).take (Config.keepStopped s.free)),
                                      free := s.free + 1 } : State) := .of_regs rfl rfl
      exact hs.trans (staysShut_keepOver ..)
    · exact ((staysShut_eraseSectors s j.area _).trans (staysShut_free ..)).trans (staysShut_keepOver ..)
    · unfold State.keepDone
      split
      · exact (staysShut_keepEffect s _).trans (staysShut_keepOver ..)
      · exact .refl s

end

/-- The words that show a carrier's form. -/
def formWords (c a : Nat) : Prop := a = (Reg.CARRIER.TX_NCO.word c).addr ∨ a = (Reg.CARRIER.STATUS.word c).addr

theorem showForm_spec (s : State) (c : Nat) :
    SameOff (formWords c) s (s.showForm c) ∧ (s.showForm c).carState c = s.carState c ∧ (s.showForm c).gates = s.gates := by
  unfold State.showForm
  extract_lets x r on y z v w
  have hx : SameOff (formWords c) s x := (SameOff.refl s).put (f := Reg.CARRIER.TX_NCO.word c) (.inl rfl) _
  have hxstate : x.get (Reg.CARRIER.STATUS.state c) = s.get (Reg.CARRIER.STATUS.state c) := State.get_put_elsewhere _ (by dsimp only; omega) _
  have hxgates : x.gates = s.gates := rfl
  clear_value r on
  refine ⟨((((hx.put (f := Reg.CARRIER.STATUS.joint c) (.inr rfl) _).put (f := Reg.CARRIER.STATUS.spacing c) (.inr rfl) _).put (f := Reg.CARRIER.STATUS.ecp c) (.inr rfl) _).put
    (f := Reg.CARRIER.STATUS.tdd c) (.inr rfl) _).put (f := Reg.CARRIER.STATUS.fft c) (.inr rfl) _, ?_, hxgates⟩
  have hput (u : State) {f : Fld} (hfits : f.fits = true) (hapart : f.apart (Reg.CARRIER.STATUS.state c) = true) (n : Nat) :
      (u.put f n).get (Reg.CARRIER.STATUS.state c) = u.get (Reg.CARRIER.STATUS.state c) := u.get_put_apart hfits hapart n
  rw [State.carState, hput w rfl (by simp [Fld.apart]), hput v rfl (by simp [Fld.apart]), hput z rfl (by simp [Fld.apart]), hput y rfl (by simp [Fld.apart]),
    hput x rfl (by simp [Fld.apart]), hxstate, State.carState]

theorem workStops_spec (s : State) :
    s.workStops.get Reg.THERMAL.STATUS.shutdown = s.get Reg.THERMAL.STATUS.shutdown ∧ s.workStops.gates = [] ∧ ∀ c, c < 8 → s.workStops.carState c = carrierOff := by
  obtain ⟨v, hv⟩ : ∃ v : State, v = { s with gates := [], txBlocks := [], timers := [], carriers := List.replicate 8 CarrierState.off,
                                             recov := { s.recov with running := [] }, keep := { s.keep with logBuffer := [] } } := ⟨_, rfl⟩
  have hvkeep : v.regs = s.regs ∧ v.gates = [] := by
    rw [hv]
    exact ⟨rfl, rfl⟩
  obtain ⟨hvregs, hvgates⟩ := hvkeep
  obtain ⟨w, hw⟩ : ∃ w, w = v.forEach (List.range 8) fun c s => (s.put (Reg.CARRIER.STATUS.state c) carrierOff).showForm c := ⟨_, rfl⟩
  have hone (c : Nat) (x : State) : SameOff (formWords c) x ((x.put (Reg.CARRIER.STATUS.state c) carrierOff).showForm c) := by
    have hx : SameOff (formWords c) x x := .refl x
    exact (hx.put (f := Reg.CARRIER.STATUS.state c) (.inr rfl) carrierOff).trans (showForm_spec _ c).1
  have hmutes : StaysShut w (w.hostMutes true) := .forEach fun p hp x => staysShut_setMute x (List.mem_range.1 hp) _ _
  have hu : s.workStops = w.hostMutes true := by
    rw [hw, hv]
    rfl
  have hwstatus : w.get Reg.THERMAL.STATUS.shutdown = s.get Reg.THERMAL.STATUS.shutdown := by
    have hsame : SameOff (fun a => 0x200000 ≤ a) v w := by
      rw [hw]
      refine .forEach_mem fun c _ x => (hone c x).mono ?_
      rintro a (rfl | rfl) <;> dsimp only <;> omega
    rw [hsame.get (by decide), State.get_of_regs hvregs]
  have hwgates : w.gates = [] := by
    rw [hw]
    exact (State.forEach_keeps (f := fun c s => (s.put (Reg.CARRIER.STATUS.state c) carrierOff).showForm c) State.gates
      (fun c x => (showForm_spec (x.put (Reg.CARRIER.STATUS.state c) carrierOff) c).2.2) v _).trans hvgates
  have hwstate (c : Nat) (hc : c < 8) : w.carState c = carrierOff := by
    rw [hw]
    refine State.forEach_at (A := fun _ => True) (B := fun x => x.carState c = carrierOff) List.nodup_range (List.mem_range.2 hc) trivial (fun _ _ _ _ _ => trivial)
      (fun x _ => ?_) fun b hb hbc x hx => ?_
    · rw [(showForm_spec _ c).2.1, State.carState, State.get_put_same _ rfl]
      rfl
    · have := List.mem_range.1 hb
      refine ((hone b x).get (f := Reg.CARRIER.STATUS.state c) ?_).trans hx
      rintro (h | h)
      · dsimp only at h
        omega
      · dsimp only at h
        omega
  rw [hu]
  refine ⟨(hmutes.words.get ?_).trans hwstatus, hmutes.gates.trans hwgates, fun c hc => (hmutes.words.get ?_).trans (hwstate c hc)⟩
  · rintro (⟨-, h⟩ | h)
    · exact h rfl
    · exact absurd h (by decide)
  · rintro (⟨h, -⟩ | h)
    · dsimp only at h
      omega
    · dsimp only at h
      omega

/-- What a part going to THERMAL_OFF reads. -/
structure ShutOff (u : State) : Prop where
  power : u.power = powerThermalOff
  shutdown : u.get Reg.THERMAL.STATUS.shutdown = 1
  gates : u.gates = []
  timers : u.timers = []
  carriers : ∀ c, c < 8 → u.carState c = carrierOff

theorem ShutOff.faultAsserted {u : State} (h : ShutOff u) : u.faultAsserted = true := by
  rw [State.faultAsserted, h.power]
  simp

/-- The shutdown threshold is reached (R590, R591). -/
theorem shutOff_thermalOff {s : State} (hoff : s.power ≠ powerThermalOff) (hfailed : s.power ≠ powerWakeFailed) (hshut : s.get Reg.THERMAL.STATUS.shutdown = 1) :
    ShutOff s.thermalOff := by
  obtain ⟨v, hv⟩ : ∃ v, v = s.slotShutdown.keepShutdown := ⟨_, rfl⟩
  have hsv : StaysShut s v := by
    rw [hv]
    exact (staysShut_slotShutdown s).trans (staysShut_keepShutdown _)
  obtain ⟨hwshut, hwgates, hwstate⟩ := workStops_spec v
  obtain ⟨w, hw⟩ : ∃ w, w = v.workStops := ⟨_, rfl⟩
  rw [← hw] at hwshut hwgates hwstate
  obtain ⟨x, hx⟩ : ∃ x, x = (w.forEach (List.range 8) fun n s => s.fhEnter n fhDisabled).forEach (List.range 4) fun n s => s.portQuiet n spDisabled := ⟨_, rfl⟩
  have hwx : StaysShut w x := by
    rw [hx]
    exact (StaysShut.forEach fun n _ y => staysShut_fhEnter y n _).trans (.forEach fun n _ y => staysShut_portQuiet y n _)
  obtain ⟨y, hy⟩ : ∃ y, y = ((x.loStop 0).loStop 1).islandsStop [islandRef, islandCnv, islandFhl, islandStl, islandTim] := ⟨_, rfl⟩
  have hxy : StaysShut x y := by
    rw [hy]
    exact (staysShut_loStop x (by decide)).trans ((staysShut_loStop _ (by decide)).trans (staysShut_islandsStop _ _))
  obtain ⟨z, hz⟩ : ∃ z, z = (y.put Reg.POWER.STATUS.state powerThermalOff).dropPending injPower := ⟨_, rfl⟩
  have hyz : StaysShut y z := by
    rw [hz]
    exact ((StaysShut.refl y).put (f := Reg.POWER.STATUS.state) (.inl (by decide)) powerThermalOff).trans (staysShut_dropPending _ _ (by decide))
  have hwz := hwx.trans (hxy.trans hyz)
  obtain ⟨boot, u, hu, huz⟩ : ∃ boot, ∃ u : State, u = s.thermalOff ∧ u = { z.emit (.pmbus pmOperation pmOff) with boot := boot, timers := [] } := by
    refine ⟨{ (z.emit (.pmbus pmOperation pmOff)).boot with coreMonitored := false }, _, rfl, ?_⟩
    rw [hz, hy, hx, hw, hv]
    refine if_neg ?_
    rw [Bool.or_eq_true, beq_iff_eq, beq_iff_eq]
    exact fun h => h.elim hoff hfailed
  have hukeep : u.regs = z.regs ∧ u.gates = z.gates ∧ u.timers = [] := by
    rw [huz]
    exact ⟨rfl, rfl, rfl⟩
  obtain ⟨hregs, hgates, htimers⟩ := hukeep
  rw [← hu]
  refine ⟨?_, ?_, hgates.trans (hwz.gates.trans hwgates), htimers, fun c hc => ?_⟩
  · rw [State.power, State.get_of_regs hregs, hz, (dropPending_spec (by decide)).2.1.get (by simp [injWords]), State.get_put_same _ rfl]
    rfl
  · rw [State.get_of_regs hregs, hwz.words.get (f := Reg.THERMAL.STATUS.shutdown) (fun h => h.elim (fun h => h.2 rfl) fun h => absurd h (by decide)), hwshut,
      hsv.words.get (f := Reg.THERMAL.STATUS.shutdown) (fun h => h.elim (fun h => h.2 rfl) fun h => absurd h (by decide)), hshut]
  · rw [State.carState, State.get_of_regs hregs, hwz.words.get (f := Reg.CARRIER.STATUS.state c) ?_]
    · exact hwstate c hc
    · rintro (⟨h, -⟩ | h)
      · dsimp only at h
        omega
      · dsimp only at h
        omega

/-! ### Thermal control -/

section

variable {s : State}

/-- The thermal state that T_hot leaves, before warning, throttle and shutdown act (R585). -/
def State.tHot (s : State) (n : Nat) (T : Int) (shut : Bool) : State :=
  ((s.put Reg.THERMAL.STATUS.hottest n).put Reg.THERMAL.STATUS.t_hot (unsigned 16 T)).putB Reg.THERMAL.STATUS.shutdown shut

theorem State.thermal_eq {n : Nat} {T : Int} (lost : Nat) (hhot : s.hotRegion = some (n, T)) (hmany : 8 ≤ countIf (fun (x : Sensor) => x.valid) s.hk.sensors)
    {shut : Bool} (hshut : shut = hysteresis (s.flag Reg.THERMAL.STATUS.shutdown) T (s.level Reg.THERMAL.THRESH.shutdown) 15) {x : State}
    (hx : x = ((s.tHot n T shut).warningAt T).throttleAt T lost) :
    s.thermal lost = if shut then x.thermalOff
      else if x.power == powerThermalOff && x.flag Reg.THERMAL.CTL.restart then x.fullReset srcAutoRestart 0 [] else x := by
  have hflag : ((s.put Reg.THERMAL.STATUS.hottest n).put Reg.THERMAL.STATUS.t_hot (unsigned 16 T)).flag Reg.THERMAL.STATUS.shutdown =
      s.flag Reg.THERMAL.STATUS.shutdown := by
    rw [State.flag, State.get_put_apart _ rfl (by decide), State.get_put_apart _ rfl (by decide), State.flag]
  unfold State.thermal
  dsimp only
  rw [hhot, decide_eq_false (Nat.not_lt.2 hmany), Option.getD_some, if_neg Bool.false_ne_true, hflag, ← hshut]
  dsimp only
  rw [← State.tHot, ← hx]

theorem State.when_spec {P : State → Prop} {u : State} {f : State → State} (hu : P u) (hf : P (f u)) (b : Bool) : P (u.when b f) := by
  cases b
  · exact hu
  · exact hf

theorem warningAt_spec {T : Int} {on : Bool} (hon : on = hysteresis (s.flag Reg.THERMAL.STATUS.warning) T (s.level Reg.THERMAL.THRESH.warning) 3) :
    (s.warningAt T).gates = s.gates ∧ (s.warningAt T).get Reg.THERMAL.STATUS.warning = b2n on ∧
      ∀ f : Fld, Reg.THERMAL.STATUS.warning.apart f = true → Reg.POWER.STATUS.warning.apart f = true → f.addr ≠ Reg.HOST.INT_STATUS.fault.addr →
        (s.warningAt T).get f = s.get f := by
  obtain ⟨v, hv⟩ : ∃ v, v = (s.putB Reg.THERMAL.STATUS.warning on).putB Reg.POWER.STATUS.warning on := ⟨_, rfl⟩
  have hu : s.warningAt T = v.when (on && !s.flag Reg.THERMAL.STATUS.warning) fun s => s.notice .event := by
    rw [hv, hon]
    rfl
  have hnotice : (v.notice .event).gates = v.gates ∧ SameOff (· = Reg.HOST.INT_STATUS.fault.addr) v (v.notice .event) :=
    ⟨rfl, SameOff.notice (A := (· = Reg.HOST.INT_STATUS.fault.addr)) (.refl v) rfl .event⟩
  have hwhen : (s.warningAt T).gates = v.gates ∧ SameOff (· = Reg.HOST.INT_STATUS.fault.addr) v (s.warningAt T) := by
    rw [hu]
    exact State.when_spec (P := fun u => u.gates = v.gates ∧ SameOff (· = Reg.HOST.INT_STATUS.fault.addr) v u) ⟨rfl, .refl v⟩ hnotice _
  obtain ⟨hgates, hsame⟩ := hwhen
  refine ⟨?_, ?_, fun f h1 h2 h3 => ?_⟩
  · rw [hgates, hv]
    rfl
  · rw [hsame.get (by decide), hv, State.putB, State.get_put_elsewhere _ (by decide), State.putB, State.get_put_same _ rfl]
    exact Nat.mod_eq_of_lt (by cases on <;> decide)
  · rw [hsame.get (f := f) h3, hv, State.putB, State.get_put_apart _ rfl h2, State.putB, State.get_put_apart _ rfl h1]

/-- The throttle's registers, before the record of a change (R587 to R589). -/
def State.throttled (s : State) (on : Bool) (held : Option Nat) (excess : Nat) : State :=
  (((((({ s with hk := { s.hk with held := held } } : State).putB Reg.THERMAL.STATUS.throttle on).putB Reg.THERMAL.STATUS.held held.isSome).put
    Reg.THERMAL.THROTTLE.excess excess).putB Reg.POWER.STATUS.throttle on).showPEff)

/-- The fields that the throttle leaves. -/
def Fld.besideThrottle (f : Fld) : Bool :=
  Reg.THERMAL.STATUS.throttle.apart f && Reg.THERMAL.STATUS.held.apart f && Reg.THERMAL.THROTTLE.excess.apart f && Reg.POWER.STATUS.throttle.apart f &&
    Reg.THERMAL.P_EFF.word.apart f

theorem State.get_throttled {on : Bool} {held : Option Nat} {excess : Nat} {f : Fld} (hf : f.besideThrottle = true) : (s.throttled on held excess).get f = s.get f := by
  simp only [Fld.besideThrottle, Bool.and_eq_true] at hf
  obtain ⟨⟨⟨⟨h1, h2⟩, h3⟩, h4⟩, h5⟩ := hf
  rw [State.throttled, State.showPEff, State.get_put_apart _ rfl h5, State.putB, State.get_put_apart _ rfl h4, State.get_put_apart _ rfl h3, State.putB,
    State.get_put_apart _ rfl h2, State.putB, State.get_put_apart _ rfl h1]
  rfl

theorem throttled_off (s : State) :
    (s.throttled false none 0).get Reg.THERMAL.STATUS.throttle = 0 ∧ (s.throttled false none 0).get Reg.THERMAL.THROTTLE.excess = 0 ∧
      (s.throttled false none 0).get Reg.THERMAL.P_EFF.word = s.get Reg.POWER.ENVELOPE.word := by
  obtain ⟨v, hv⟩ : ∃ v : State, v = ((((({ s with hk := { s.hk with held := none } } : State).putB Reg.THERMAL.STATUS.throttle false).putB Reg.THERMAL.STATUS.held false).put
    Reg.THERMAL.THROTTLE.excess 0).putB Reg.POWER.STATUS.throttle false) := ⟨_, rfl⟩
  have hu : s.throttled false none 0 = v.put Reg.THERMAL.P_EFF.word v.pEff := by
    rw [hv]
    rfl
  have hthrottle : v.get Reg.THERMAL.STATUS.throttle = 0 := by
    rw [hv, State.putB, State.get_put_elsewhere _ (by decide), State.get_put_elsewhere _ (by decide), State.putB, State.get_put_apart _ rfl (by decide), State.putB,
      State.get_put_same _ rfl]
    rfl
  have henv : v.get Reg.POWER.ENVELOPE.word = s.get Reg.POWER.ENVELOPE.word := by
    rw [hv, State.putB, State.get_put_elsewhere _ (by decide), State.get_put_elsewhere _ (by decide), State.putB, State.get_put_elsewhere _ (by decide), State.putB,
      State.get_put_elsewhere _ (by decide)]
    rfl
  have hpeff : v.pEff = s.get Reg.POWER.ENVELOPE.word := by
    rw [← henv]
    exact if_neg (by rw [State.flag_eq_false hthrottle]; exact Bool.false_ne_true)
  rw [hu]
  refine ⟨?_, ?_, ?_⟩
  · rw [State.get_put_elsewhere _ (by decide), hthrottle]
  · rw [State.get_put_elsewhere _ (by decide), hv, State.putB, State.get_put_elsewhere _ (by decide), State.get_put_same _ rfl]
    rfl
  · rw [State.get_put_same _ rfl, hpeff]
    exact Nat.mod_eq_of_lt (s.get_lt Reg.POWER.ENVELOPE.word)

/-- The excess that the throttle holds (R589). -/
def State.throttleHeld (s : State) (on : Bool) (lost : Nat) : Option Nat :=
  if !on then none
  else if s.flag Reg.THERMAL.STATUS.throttle && lost != 0 then some (max (s.get Reg.THERMAL.THROTTLE.excess) (s.hk.held.getD 0))
  else s.hk.held

/-- The excess that the throttle shows (R587). -/
def State.throttleExcess (s : State) (on : Bool) (T : Int) (held : Option Nat) : Nat :=
  if on then min 255 (max (excessAt T (s.level Reg.THERMAL.THRESH.throttle)) (held.getD 0)) else 0

theorem throttleAt_spec (T : Int) (lost : Nat) {on : Bool} (hon : on = hysteresis (s.flag Reg.THERMAL.STATUS.throttle) T (s.level Reg.THERMAL.THRESH.throttle) 3) :
    ∃ held excess, (on = false → held = none ∧ excess = 0) ∧ (s.throttleAt T lost).gates = s.gates ∧
      SameOff recordWords (s.throttled on held excess) (s.throttleAt T lost) := by
  obtain ⟨held, hheld⟩ : ∃ held, held = s.throttleHeld on lost := ⟨_, rfl⟩
  obtain ⟨excess, hexcess⟩ : ∃ excess, excess = s.throttleExcess on T held := ⟨_, rfl⟩
  have hu : s.throttleAt T lost = (s.throttled on held excess).when (on != s.flag Reg.THERMAL.STATUS.throttle || excess != s.get Reg.THERMAL.THROTTLE.excess)
      fun s => s.record { kind := .event, unit := unitEnergy, detail := excess } := by
    rw [hexcess, hheld, hon]
    rfl
  refine ⟨held, excess, fun h => ?_, ?_⟩
  · rw [hexcess, hheld, h]
    exact ⟨rfl, rfl⟩
  · have hgates : (s.throttled on held excess).gates = s.gates := rfl
    rw [hu]
    generalize s.throttled on held excess = v at hgates ⊢
    refine State.when_spec (P := fun u => u.gates = s.gates ∧ SameOff recordWords v u) ⟨hgates, .refl v⟩ ⟨?_, sameOff_record v _⟩ _
    obtain ⟨_, _, _, _, _, h⟩ := logApart_record v { kind := .event, unit := unitEnergy, detail := excess }
    rw [h]
    exact hgates

theorem tHot_get {n : Nat} {T : Int} {shut : Bool} {f : Fld} (h1 : Reg.THERMAL.STATUS.hottest.apart f = true) (h2 : Reg.THERMAL.STATUS.t_hot.apart f = true)
    (h3 : Reg.THERMAL.STATUS.shutdown.apart f = true) : (s.tHot n T shut).get f = s.get f := by
  rw [State.tHot, State.putB, State.get_put_apart _ rfl h3, State.get_put_apart _ rfl h2, State.get_put_apart _ rfl h1]

/-- What T_hot shows, with the warning and the throttle that follow it. -/
theorem tHot_shown {n : Nat} {T : Int} {shut : Bool} (lost : Nat) {x : State} (hx : x = ((s.tHot n T shut).warningAt T).throttleAt T lost) :
    x.power = s.power ∧ x.get Reg.THERMAL.STATUS.shutdown = b2n shut ∧ x.get Reg.THERMAL.STATUS.hottest = n % 32 ∧
      x.get Reg.THERMAL.STATUS.t_hot = unsigned 16 T ∧ x.gates = s.gates := by
  obtain ⟨y, hy⟩ : ∃ y, y = s.tHot n T shut := ⟨_, rfl⟩
  obtain ⟨hwgates, -, hwget⟩ := warningAt_spec (s := y) (T := T) rfl
  obtain ⟨w, hw⟩ : ∃ w, w = y.warningAt T := ⟨_, rfl⟩
  rw [← hw] at hwgates hwget
  obtain ⟨held, excess, -, htgates, htsame⟩ := throttleAt_spec (s := w) T lost rfl
  have hget (f : Fld) (h1 : Reg.THERMAL.STATUS.warning.apart f = true) (h2 : Reg.POWER.STATUS.warning.apart f = true) (h3 : ¬ recordWords f.addr)
      (h4 : f.besideThrottle = true) : x.get f = y.get f := by
    rw [hx, ← hy, ← hw, htsame.get h3, State.get_throttled h4, hwget f h1 h2 fun h => h3 (by rw [h]; simp [recordWords])]
  refine ⟨?_, ?_, ?_, ?_, ?_⟩
  · rw [State.power, hget Reg.POWER.STATUS.state (by decide) (by decide) (by simp [recordWords]) (by decide), hy, tHot_get (by decide) (by decide) (by decide), State.power]
  · rw [hget _ (by decide) (by decide) (by simp [recordWords]) (by decide), hy, State.tHot, State.putB, State.get_put_same _ rfl]
    exact Nat.mod_eq_of_lt (by cases shut <;> decide)
  · rw [hget _ (by decide) (by decide) (by simp [recordWords]) (by decide), hy, State.tHot, State.putB, State.get_put_apart _ rfl (by decide),
      State.get_put_apart _ rfl (by decide), State.get_put_same _ rfl]
    rfl
  · rw [hget _ (by decide) (by decide) (by simp [recordWords]) (by decide), hy, State.tHot, State.putB, State.get_put_apart _ rfl (by decide), State.get_put_same _ rfl]
    exact Nat.mod_eq_of_lt (unsigned_lt 16 T)
  · rw [hx, ← hy, ← hw, htgates, hwgates, hy]
    rfl

/-- Below the levels of warning and throttle neither is on. -/
theorem hysteresis_below {on : Bool} {T level h : Int} (hpos : 0 ≤ h) (hT : T < level - 16 * h) : hysteresis on T level h = false := by
  cases on with
  | true => exact decide_eq_false (by omega)
  | false => exact decide_eq_false (by omega)

theorem tHot_cool {n : Nat} {T : Int} {shut : Bool} (lost : Nat) {x : State} (hx : x = ((s.tHot n T shut).warningAt T).throttleAt T lost)
    (hwarning : T < s.level Reg.THERMAL.THRESH.warning - 48) (hthrottle : T < s.level Reg.THERMAL.THRESH.throttle - 48) :
    x.get Reg.THERMAL.STATUS.warning = 0 ∧ x.get Reg.THERMAL.STATUS.throttle = 0 ∧ x.get Reg.THERMAL.THROTTLE.excess = 0 ∧
      x.get Reg.THERMAL.P_EFF.word = s.get Reg.POWER.ENVELOPE.word := by
  obtain ⟨y, hy⟩ : ∃ y, y = s.tHot n T shut := ⟨_, rfl⟩
  have hylevel (f : Fld) (hf : f.addr = Reg.THERMAL.THRESH.word.addr) : y.level f = s.level f := by
    have hne : Reg.THERMAL.STATUS.word.addr ≠ f.addr := by rw [hf]; decide
    rw [State.level, hy, tHot_get (Fld.apart_of_addr hne) (Fld.apart_of_addr hne) (Fld.apart_of_addr hne), State.level]
  obtain ⟨-, hwon, hwget⟩ := warningAt_spec (s := y) (T := T) (on := false) (hysteresis_below (by decide) (by rw [hylevel Reg.THERMAL.THRESH.warning rfl]; omega)).symm
  obtain ⟨w, hw⟩ : ∃ w, w = y.warningAt T := ⟨_, rfl⟩
  rw [← hw] at hwon hwget
  have hwlevel : w.level Reg.THERMAL.THRESH.throttle = s.level Reg.THERMAL.THRESH.throttle := by
    rw [State.level, hwget _ (by decide) (by decide) (by decide), ← State.level, hylevel Reg.THERMAL.THRESH.throttle rfl]
  obtain ⟨held, excess, hoff, -, htsame⟩ := throttleAt_spec (s := w) T lost (on := false) (hysteresis_below (by decide) (by rw [hwlevel]; omega)).symm
  obtain ⟨rfl, rfl⟩ := hoff rfl
  obtain ⟨h1, h2, h3⟩ := throttled_off w
  have hget (f : Fld) (hf : ¬ recordWords f.addr) : x.get f = (w.throttled false none 0).get f := by
    rw [hx, ← hy, ← hw, htsame.get hf]
  refine ⟨?_, ?_, ?_, ?_⟩
  · rw [hget _ (by simp [recordWords]), State.get_throttled (by decide), hwon]
    rfl
  · rw [hget _ (by simp [recordWords]), h1]
  · rw [hget _ (by simp [recordWords]), h2]
  · rw [hget _ (by simp [recordWords]), h3, hwget _ (by decide) (by decide) (by decide), hy, tHot_get (by decide) (by decide) (by decide)]

end

theorem claim_hkRounds : Claim.HkRounds := by
  rintro s t k inputs zero check ref r rfl
  refine ⟨fun h => .of_eq rfl (State.roundStart_of_not h), fun hrunning hstopped hloaded hdue => ?_, fun h => .of_eq rfl (State.entryDone_of_idle h),
    fun k' c a due rest hleft => ⟨fun h => .of_eq rfl (State.entryDone_of_other (s := s.atTime t) hleft h), ?_⟩, fun h => ?_, ?_, fun h => ?_, fun hrunning hb hstandin => ?_,
    fun hrunning hb hka hkb => ?_⟩
  · obtain ⟨u, hu, h1, h2, h3, h4, h5, h6⟩ := roundStart_spec (s := s.atTime t) hrunning hstopped hloaded hdue
    obtain ⟨hshort, hlong⟩ := (s.atTime t).roundLength_spec
    refine ⟨u, .of_eq rfl hu, h1, h2, ?_, fun i hi => ?_, ?_, ?_, fun h => ?_, fun h => ?_⟩
    · rw [h3]
      exact (s.atTime t).roundOrder_entries
    · rw [h3]
      exact (s.atTime t).roundOrder_times hi
    · rw [h5, State.flag_iff]
      have : (s.atTime t).get Reg.RECOVERY.STATUS.hkb_standin < 2 := State.get_lt ..
      have hget : (s.atTime t).get Reg.RECOVERY.STATUS.hkb_standin = s.get Reg.RECOVERY.STATUS.hkb_standin := rfl
      omega
    · rw [h6]
      by_cases h : s.roundPeriod < s.entriesTime s.roundEntries
      · rw [decide_eq_true (show (s.atTime t).roundPeriod < (s.atTime t).entriesTime (s.atTime t).roundEntries from h)]
        exact ⟨fun _ => h, fun _ => rfl⟩
      · rw [decide_eq_false (show ¬ (s.atTime t).roundPeriod < (s.atTime t).entriesTime (s.atTime t).roundEntries from h)]
        exact ⟨fun h' => absurd h' (by decide), fun h' => absurd h' h⟩
    · rw [h4]
      exact hshort h
    · rw [h4]
      exact hlong h
  · rintro rfl hdue hrunning began hbegan
    have hdone := State.entryDone_of_next (s := s.atTime t) (inputs := inputs) (ref := ref) hleft hdue hrunning
    refine ⟨fun h => ?_, fun h => ?_⟩
    · exact .of_eq rfl (hdone.trans (State.postEntry_of_unsettled hbegan h))
    · obtain ⟨u, hu, h1, h2, h3, h4, h5, h6⟩ := postEntry_spec (s := ({ s.atTime t with hk := { (s.atTime t).hk with left := rest } } : State)) (avg := a)
        (code := (s.atTime t).meanCode (s.atTime t).hk.byB inputs ref) k.isLt hbegan h rfl
      exact ⟨u, .of_eq rfl (hdone.trans hu), h1, h2, h3, h4, h5, h6⟩
  · refine .of_eq rfl (if_pos ?_)
    rw [Bool.or_eq_true, Bool.not_eq_true', Bool.not_eq_true', List.isEmpty_eq_false_iff]
    exact h
  · rintro w hw hrunning hleft n T hhot hmany
    have hgives : Gives (.hkRoundEnd t zero check ref) s (w.1.thermal w.2) := by
      refine .of_eq rfl ((if_neg ?_).trans ?_)
      · rw [show (s.atTime t).hk.running = true from hrunning, show (s.atTime t).hk.left = [] from hleft]
        exact Bool.false_ne_true
      · rw [hw]
        rfl
    refine ⟨fun hpower hshut hbelow hwarning hthrottle => ?_, fun hpower hfailed hreached => ?_⟩
    · obtain ⟨x, hx⟩ : ∃ x, x = ((w.1.tHot n T false).warningAt T).throttleAt T w.2 := ⟨_, rfl⟩
      have hoff : false = hysteresis (w.1.flag Reg.THERMAL.STATUS.shutdown) T (w.1.level Reg.THERMAL.THRESH.shutdown) 15 := by
        rw [State.flag_eq_false hshut]
        exact (decide_eq_false (Int.not_le.2 hbelow)).symm
      obtain ⟨h1, h2, h3, h4, h5⟩ := tHot_shown w.2 hx
      obtain ⟨h6, h7, h8, h9⟩ := tHot_cool w.2 hx hwarning hthrottle
      have heq := State.thermal_eq w.2 hhot hmany hoff hx
      rw [if_neg Bool.false_ne_true, if_neg] at heq
      · exact ⟨x, .of_eq hgives heq, h1, h3, h4, h6, h7, h2, h8, h9, h5⟩
      · rw [Bool.and_eq_true, beq_iff_eq, h1]
        exact fun h => hpower h.1
    · obtain ⟨x, hx⟩ : ∃ x, x = ((w.1.tHot n T true).warningAt T).throttleAt T w.2 := ⟨_, rfl⟩
      have hon : true = hysteresis (w.1.flag Reg.THERMAL.STATUS.shutdown) T (w.1.level Reg.THERMAL.THRESH.shutdown) 15 := by
        unfold hysteresis
        split
        · exact (decide_eq_true (by omega)).symm
        · exact (decide_eq_true hreached).symm
      obtain ⟨h1, h2, -, -, -⟩ := tHot_shown w.2 hx
      have heq := State.thermal_eq w.2 hhot hmany hon hx
      rw [if_pos rfl] at heq
      have hshut := shutOff_thermalOff (s := x) (by rw [h1]; exact hpower) (by rw [h1]; exact hfailed) h2
      exact ⟨_, .of_eq hgives heq, hshut.power, hshut.shutdown, hshut.gates, hshut.timers, hshut.faultAsserted, hshut.carriers⟩
  · refine .of_eq rfl (if_pos ?_)
    rw [show (s.atTime t).hk.running = false from h]
    rfl
  · obtain ⟨u, hu, hspec⟩ := hkbFault_spec (s := ({ s.atTime t with hk := { (s.atTime t).hk with left := [] } } : State)) hstandin
    refine ⟨u, .of_eq rfl ((if_neg ?_).trans ((if_pos ?_).trans hu)), hspec⟩
    · rw [show (s.atTime t).hk.running = true from hrunning]
      exact Bool.false_ne_true
    · exact hb
  · obtain ⟨u, hu, hspec⟩ := hkaFault_spec (s := ({ s.atTime t with hk := { (s.atTime t).hk with left := [] } } : State)) hka hkb
    refine ⟨u, .of_eq rfl ((if_neg ?_).trans ((if_neg ?_).trans hu)), hspec⟩
    · rw [show (s.atTime t).hk.running = true from hrunning]
      exact Bool.false_ne_true
    · rw [show (s.atTime t).hk.byB = false from hb]
      exact Bool.false_ne_true

/-- Settles O59: the end of a round acts on T_hot alone, and what a part going to THERMAL_OFF still changes is beside its carriers and its gates. -/
theorem housekeeping : Obligations.Housekeeping := ⟨claim_hkRounds, claim_hkInjected⟩

end Sys2Proof.Machine
end

