-- ==== Sys2Proof/Proofs/Islands.lean ====
section
/-!
Islands, their synthesisers and the converter clock (R608 to R621).
-/

namespace Sys2Proof.Machine

open Sys2Proof

/-! ### What a fault of every port leaves of the islands -/

/-- The words that a fault of ports or flights may change: neither that of the islands' states nor those of their counts. -/
def besideIslands (a : Nat) : Prop := a ≠ Reg.CLOCK.ISLAND_STATUS.word.addr ∧ (a < 0x50080 ∨ 0x500A0 ≤ a)

/-- The second state has the first one's words of the islands and the same synthesisers restarting. -/
structure KeepsIslands (s u : State) : Prop where
  words : SameOff besideIslands s u
  restarting : u.clock.restarting = s.clock.restarting

theorem KeepsIslands.refl (s : State) : KeepsIslands s s := ⟨.refl s, rfl⟩

theorem KeepsIslands.trans {s u v : State} (hsu : KeepsIslands s u) (huv : KeepsIslands u v) : KeepsIslands s v :=
  ⟨hsu.words.trans huv.words, huv.restarting.trans hsu.restarting⟩

theorem KeepsIslands.put {s u : State} (h : KeepsIslands s u) {f : Fld} (hf : besideIslands f.addr) (v : Nat) : KeepsIslands s (u.put f v) :=
  ⟨h.words.put (f := f) hf v, h.restarting⟩

theorem KeepsIslands.of_regs {s u : State} (hregs : u.regs = s.regs) (hclock : u.clock.restarting = s.clock.restarting) : KeepsIslands s u :=
  ⟨.of_regs hregs, hclock⟩

theorem KeepsIslands.forEach {α : Type} {s : State} {f : α → State → State} {l : List α} (hf : ∀ a ∈ l, ∀ x, KeepsIslands x (f a x)) :
    KeepsIslands s (s.forEach l f) :=
  State.forEach_induct (P := KeepsIslands s) (.refl s) fun a ha x hx => hx.trans (hf a ha x)

theorem KeepsIslands.ite {s u v : State} {c : Prop} [Decidable c] (hu : KeepsIslands s u) (hv : KeepsIslands s v) :
    KeepsIslands s (if c then u else v) := by
  split
  · exact hu
  · exact hv

/-- A word above those of the clocks is beside the islands'. -/
theorem besideIslands_of_le {a : Nat} (h : 0x60000 ≤ a) : besideIslands a := ⟨by dsimp only; omega, by omega⟩

section

variable (s : State)

theorem keepsIslands_record (x : Rec) : KeepsIslands s (s.record x) := by
  refine ⟨(sameOff_record s x).mono fun a ha => ?_, by rw [State.clock_record]⟩
  simp only [recordWords, List.mem_cons, List.not_mem_nil, or_false] at ha
  rcases ha with rfl | rfl | rfl | rfl <;> exact ⟨by decide, by decide⟩

theorem keepsIslands_notice (k : Notice) : KeepsIslands s (s.notice k) := ⟨(SameOff.refl s).notice ⟨by decide, by decide⟩ k, rfl⟩

theorem keepsIslands_modSPort (n : Nat) (f : StairPort → StairPort) : KeepsIslands s (s.modSPort n f) := .of_regs rfl rfl

theorem keepsIslands_modSLane (i : Nat) (f : StairLane → StairLane) : KeepsIslands s (s.modSLane i f) := .of_regs rfl rfl

theorem keepsIslands_modTree (f : TreeState → TreeState) : KeepsIslands s (s.modTree f) := .of_regs rfl rfl

theorem keepsIslands_emit (o : Output) : KeepsIslands s (s.emit o) := .of_regs rfl rfl

theorem keepsIslands_ota (o : OtaState) : KeepsIslands s { s with ota := o } := .of_regs rfl rfl

theorem keepsIslands_sendOn {n : Nat} (hn : n < 4) (m : StairMsg) : KeepsIslands s (s.sendOn n m) := by
  obtain ⟨⟨_, _, _, _, hshape⟩, hwords⟩ := sends_sendOn s (k := 16) (by omega : 4 * n + 4 ≤ 16) m
  refine ⟨hwords.mono fun a ha => besideIslands_of_le ?_, by rw [hshape]⟩
  have := bounds_of_laneAdaptWords ha
  omega

theorem keepsIslands_padLanes (n : Nat) : KeepsIslands s (s.padLanes n) := by
  unfold State.padLanes
  extract_lets due first u
  have hu : KeepsIslands s u := .forEach fun e _ x => keepsIslands_modSLane ..
  clear_value u
  exact .ite (.refl s) (.ite hu ((hu.trans (keepsIslands_modSPort ..)).trans (keepsIslands_emit ..)))

theorem keepsIslands_lanesEnter (n st : Nat) : KeepsIslands s (s.lanesEnter n st) := by
  unfold State.lanesEnter
  extract_lets at0 u
  have hu : KeepsIslands s u := .forEach fun i _ x =>
    (((KeepsIslands.refl x).put (f := Reg.STAIR.LANE_STATUS.state i) (besideIslands_of_le (by dsimp only; omega)) st).put (f := Reg.STAIR.LANE_ADAPT.idle i)
      (besideIslands_of_le (by dsimp only; omega)) 0).trans (keepsIslands_modSLane ..)
  clear_value u
  exact hu.put (f := Reg.STAIR.PORT_STATUS.lanes n) (besideIslands_of_le (by dsimp only; omega)) _

theorem keepsIslands_sEnter (n st : Nat) : KeepsIslands s (s.sEnter n st) :=
  ((KeepsIslands.refl s).put (f := Reg.STAIR.PORT_STATUS.state n) (besideIslands_of_le (by dsimp only; omega)) st).trans (keepsIslands_modSPort ..)

theorem keepsIslands_portQuiet (n st : Nat) : KeepsIslands s (s.portQuiet n st) := by
  obtain ⟨u, hu⟩ : ∃ u, u = ((s.padLanes n).sEnter n st).lanesEnter n slOff := ⟨_, rfl⟩
  have hsu : KeepsIslands s u := by
    rw [hu]
    exact (keepsIslands_padLanes s n).trans ((keepsIslands_sEnter _ n st).trans (keepsIslands_lanesEnter _ n slOff))
  unfold State.portQuiet
  rw [← hu]
  exact ((hsu.put (f := Reg.STAIR.PORT_STATUS.use n) (besideIslands_of_le (by dsimp only; omega)) useNone).put (f := Reg.STAIR.PORT_PEER.valid n)
    (besideIslands_of_le (by dsimp only; omega)) 0).trans (keepsIslands_modSPort ..)

theorem keepsIslands_takeHold (src : Nat) : KeepsIslands s (s.takeHold src) := by
  unfold State.takeHold
  exact .ite (.refl s) (.of_regs rfl rfl)

/-- Array time goes on in holdover. -/
def State.sourceLost (s : State) : State := { s.put Reg.CLOCK.TIME_STATUS.state timeHoldover with clock := { s.clock with good := 0 } }

/-- Array time runs free under source `w`. -/
def State.sourceFree (s : State) (w : Nat) : State :=
  let s := ((s.put Reg.CLOCK.REF_STATUS.source w).put Reg.CLOCK.TIME_STATUS.state timeFree).put Reg.CLOCK.REF_STEER.word 0
  { s with clock := { s.clock with await := false, good := 0 } }

/-- Source `w` disciplines array time from now on. -/
def State.sourceTaken (s : State) (w : Nat) : State :=
  let s := (s.put Reg.CLOCK.REF_STATUS.source w).put Reg.CLOCK.TIME_STATUS.state timeAcquiring
  { s with clock := { s.clock with good := 0 } }

theorem State.chooseSource_eq (s x : State) (h : x = s.putB Reg.STAIR.STATUS.ptp_ignored (s.hasParent && s.ptpSlave)) : s.chooseSource =
    match x.wantedSource with
    | none => x.sourceLost
    | some w =>
      if w = srcFree then x.sourceFree w
      else if w = x.get Reg.CLOCK.REF_STATUS.source &&
          (x.get Reg.CLOCK.TIME_STATUS.state = timeAcquiring || x.get Reg.CLOCK.TIME_STATUS.state = timeLocked) then x
      else if w = srcPtp then (x.sourceTaken w).takeHold srcPtp else x.sourceTaken w := by
  subst h
  rfl

theorem keepsIslands_sourceLost : KeepsIslands s s.sourceLost :=
  ⟨((SameOff.refl s).put (f := Reg.CLOCK.TIME_STATUS.state) ⟨by decide, by decide⟩ timeHoldover).trans (.of_regs rfl), rfl⟩

theorem keepsIslands_sourceFree (w : Nat) : KeepsIslands s (s.sourceFree w) := by
  refine ⟨?_, rfl⟩
  exact ((((SameOff.refl s).put (f := Reg.CLOCK.REF_STATUS.source) ⟨by decide, by decide⟩ w).put (f := Reg.CLOCK.TIME_STATUS.state)
    ⟨by decide, by decide⟩ timeFree).put (f := Reg.CLOCK.REF_STEER.word) ⟨by decide, by decide⟩ 0).trans (.of_regs rfl)

theorem keepsIslands_sourceTaken (w : Nat) : KeepsIslands s (s.sourceTaken w) := by
  refine ⟨?_, rfl⟩
  exact (((SameOff.refl s).put (f := Reg.CLOCK.REF_STATUS.source) ⟨by decide, by decide⟩ w).put (f := Reg.CLOCK.TIME_STATUS.state)
    ⟨by decide, by decide⟩ timeAcquiring).trans (.of_regs rfl)

theorem keepsIslands_chooseSource : KeepsIslands s s.chooseSource := by
  obtain ⟨x, hx⟩ : ∃ x, x = s.putB Reg.STAIR.STATUS.ptp_ignored (s.hasParent && s.ptpSlave) := ⟨_, rfl⟩
  have hsx : KeepsIslands s x := by
    rw [hx]
    exact (KeepsIslands.refl s).put (f := Reg.STAIR.STATUS.ptp_ignored) (besideIslands_of_le (by decide)) _
  rw [State.chooseSource_eq s x hx]
  split
  next => exact hsx.trans (keepsIslands_sourceLost x)
  next w _ =>
    have htaken := hsx.trans (keepsIslands_sourceTaken x w)
    exact .ite (hsx.trans (keepsIslands_sourceFree x w)) (.ite hsx (.ite (htaken.trans (keepsIslands_takeHold _ _)) htaken))

theorem keepsIslands_setParent_none : KeepsIslands s (s.setParent none) :=
  (((KeepsIslands.refl s).put (f := Reg.STAIR.STATUS.has_parent) (besideIslands_of_le (by decide)) 0).put (f := Reg.STAIR.STATUS.parent)
    (besideIslands_of_le (by decide)) 0).trans (keepsIslands_chooseSource _)

theorem keepsIslands_showForm (c : Nat) : KeepsIslands s (s.showForm c) := by
  obtain ⟨hwords, -, -⟩ := showForm_spec s c
  refine ⟨hwords.mono fun a ha => besideIslands_of_le ?_, rfl⟩
  rcases ha with rfl | rfl <;> dsimp only <;> omega

theorem keepsIslands_modCar (c : Nat) (f : CarrierState → CarrierState) : KeepsIslands s (s.modCar c f) := .of_regs rfl rfl

theorem keepsIslands_decideStop (c a : Nat) (next : Option CarrierRec) : KeepsIslands s (s.decideStop c a next) := by
  have hstate (x : State) (st : Nat) : KeepsIslands x (x.put (Reg.CARRIER.STATUS.state c) st) :=
    (KeepsIslands.refl x).put (f := Reg.CARRIER.STATUS.state c) (besideIslands_of_le (by dsimp only; omega)) st
  unfold State.decideStop
  refine .ite ((keepsIslands_modCar s ..).trans (hstate _ _)) ?_
  cases next with
  | some r => exact (keepsIslands_modCar s ..).trans ((hstate _ _).trans (keepsIslands_showForm _ c))
  | none => exact (keepsIslands_modCar s ..).trans ((hstate _ _).trans (keepsIslands_showForm _ c))

theorem keepsIslands_otaAbandon : KeepsIslands s s.otaAbandon := by
  unfold State.otaAbandon
  refine .ite (.refl s) ?_
  exact ((((KeepsIslands.refl s).put (f := Reg.OTA.STATUS.cause) (besideIslands_of_le (by decide)) 4).put (f := Reg.OTA.STATUS.state)
    (besideIslands_of_le (by decide)) 0).put (f := Reg.OTA.STATUS.done) (besideIslands_of_le (by decide)) 1).trans (keepsIslands_ota ..)

theorem keepsIslands_treeEnter (st : Nat) : KeepsIslands s (s.treeEnter st) := by
  unfold State.treeEnter
  dsimp only
  have hx := (KeepsIslands.refl s).put (f := Reg.STAIR.STATUS.tree) (besideIslands_of_le (by decide)) st
  generalize s.put Reg.STAIR.STATUS.tree st = x at hx ⊢
  exact .ite hx ((hx.trans (keepsIslands_otaAbandon x)).trans (.forEach fun c _ y => keepsIslands_decideStop y ..))

end

/-- A best parent is one of the four ports. -/
theorem State.lt_of_bestParent {s : State} {n depth : Nat} (h : s.bestParent = some (n, depth)) : n < 4 := by
  unfold State.bestParent at h
  extract_lets l at h
  have hl : ∀ y ∈ l, y.2 < 4 := fun y hy => by
    obtain ⟨m, hm, hsome⟩ := List.mem_filterMap.1 hy
    obtain ⟨k, -, rfl⟩ := Option.map_eq_some_iff.1 hsome
    exact List.mem_range.1 hm
  clear_value l
  cases l with
  | nil => cases h
  | cons x xs =>
    have hfold : ∀ (ys : List ((Nat × Nat) × Nat)) (b : (Nat × Nat) × Nat), b.2 < 4 → (∀ y ∈ ys, y.2 < 4) →
        (ys.foldl (fun b y => if y.1.1 < b.1.1 || (y.1.1 == b.1.1 && y.1.2 < b.1.2) then y else b) b).2 < 4 := by
      intro ys
      induction ys with
      | nil => exact fun b hb _ => hb
      | cons y ys ih =>
        refine fun b hb hys => ih _ ?_ fun z hz => hys z (List.mem_cons_of_mem _ hz)
        dsimp only
        split
        · exact hys y List.mem_cons_self
        · exact hb
    have := hfold xs x (hl x List.mem_cons_self) fun y hy => hl y (List.mem_cons_of_mem _ hy)
    simp only [Option.some.injEq, Prod.mk.injEq] at h
    obtain ⟨rfl, -⟩ := h
    exact this

section

variable (s : State)

theorem keepsIslands_chooseParent : KeepsIslands s s.chooseParent := by
  unfold State.chooseParent
  split
  next => exact .ite (.refl s) (keepsIslands_treeEnter s _)
  next n depth hbest =>
    extract_lets f from_ at0 x y z
    have hx : KeepsIslands s x := ((KeepsIslands.refl s).put (f := Reg.STAIR.STATUS.depth) (besideIslands_of_le (by decide)) _).put
      (f := Reg.STAIR.REPARENTS.word) (besideIslands_of_le (by decide)) _
    have hy : KeepsIslands s y := hx.trans (keepsIslands_modTree ..)
    clear_value y
    exact (hy.trans (keepsIslands_sendOn y (State.lt_of_bestParent hbest) _)).trans (keepsIslands_record ..)

theorem keepsIslands_parentLost (unsent : List StairMsg) : KeepsIslands s (s.parentLost unsent) := by
  unfold State.parentLost
  extract_lets here x y
  have hy : KeepsIslands s y := (keepsIslands_setParent_none s).trans (keepsIslands_modTree ..)
  clear_value y
  exact .ite (hy.trans (keepsIslands_chooseParent y)) hy

theorem keepsIslands_abandon : KeepsIslands s s.abandon := by
  unfold State.abandon
  split
  next => exact .refl s
  next n at0 _ => exact ((keepsIslands_modSPort ..).trans (keepsIslands_modTree ..)).trans (keepsIslands_chooseParent _)

theorem keepsIslands_flightFault (n cause : Nat) : KeepsIslands s (s.flightFault n cause) := by
  unfold State.flightFault State.flightFaultTo
  refine .ite (.refl s) ?_
  extract_lets parent asked unsent x y z
  have hx : KeepsIslands s x := (KeepsIslands.refl s).put (f := Reg.STAIR.PORT_STATUS.flight_faults n) (besideIslands_of_le (by dsimp only; omega)) _
  have hy : KeepsIslands s y := (hx.trans (keepsIslands_portQuiet x n _)).put (f := Reg.STAIR.PORT_STATUS.cause n)
    (besideIslands_of_le (by dsimp only; omega)) _
  have hz : KeepsIslands s z := (hy.trans (keepsIslands_record ..)).trans (keepsIslands_notice ..)
  clear_value parent asked z
  exact .ite (hz.trans (keepsIslands_parentLost ..)) (.ite (hz.trans (keepsIslands_abandon z)) hz)

end

/-! ### Link faults of every port -/

/-- The words that a link fault of port `n` changes. -/
def linkWords (n a : Nat) : Prop := recordWords a ∨ a = (Reg.FRONTHAUL.PORT_STATUS.word n).addr ∨ 0x401000 ≤ a ∧ a < 0x405000

theorem linkFault_keeps (s : State) {n cause : Nat} (hn : n < 8) (hlen : s.fh.ports.length = 8) (hcause : cause < 16) (h6 : cause ≠ 6) :
    SameOff (linkWords n) s (s.linkFault n cause) ∧ (s.linkFault n cause).clock = s.clock ∧ (s.linkFault n cause).fh.ports.length = 8 ∧
      (s.linkFault n cause).fhPortState n ≠ fhUp := by
  cases hup : s.fhUpOn n with
  | false =>
    have hsame : s.linkFault n cause = s := if_pos (by rw [hup]; rfl)
    rw [hsame]
    refine ⟨.refl s, rfl, hlen, fun h => ?_⟩
    rw [State.fhUpOn, decide_eq_true hn, h] at hup
    exact absurd hup (by decide)
  | true =>
    have hstate : s.fhPortState n = fhUp := by
      rw [State.fhUpOn, Bool.and_eq_true] at hup
      exact beq_iff_eq.1 hup.2
    obtain ⟨hlisten, -⟩ := linkFault_spec hn hlen hcause h6 hstate
    obtain ⟨-, -, -, hwords, hflen⟩ := faulted_spec (s := s) (cause := cause) hn hlen hcause
    obtain ⟨v, hv, hmoves, -⟩ := failover_spec (s.faulted n cause) n
    have hclock : (s.faulted n cause).clock = s.clock := by
      obtain ⟨_, _, _, h⟩ := (fhSends_drainPort s n).shape
      rw [State.faulted, h]
      rfl
    have hfaulted : SameOff (linkWords n) (s.faulted n cause) v := by
      rw [hv]
      exact (fhSends_modFhPort (n := n) _ _).words.mono fun a ⟨h1, h2⟩ => .inr (.inr ⟨by omega, h2⟩)
    have hfail : SameOff (linkWords n) s ((s.faulted n cause).failover n) := by
      refine (hwords.mono fun a ha => ?_).trans (SameOff.trans (u := v) hfaulted (hmoves.words.mono fun a ha => ?_))
      · rcases ha with ⟨h1, h2⟩ | h
        · exact .inr (.inr ⟨by omega, h2⟩)
        · exact .inr (.inl h)
      · have := faultWords_bounds ha
        exact .inr (.inr (by omega))
    have hfclock : ((s.faulted n cause).failover n).clock = s.clock := by
      obtain ⟨_, _, _, h⟩ := hmoves.shape
      rw [h, ← hclock, hv]
      rfl
    refine ⟨?_, ?_, ?_, by rw [hlisten]; decide⟩
    · rw [State.linkFault_of_up hup h6]
      exact hfail.trans ((sameOff_record _ _).mono fun a ha => .inl ha)
    · rw [State.linkFault_of_up hup h6, State.clock_record, hfclock]
    · rw [State.linkFault_of_up hup h6, State.fh_record, hmoves.length, hv]
      exact (List.length_modify ..).trans hflen

theorem keepsIslands_linkFault (s : State) {n cause : Nat} (hn : n < 8) (hlen : s.fh.ports.length = 8) (hcause : cause < 16) (h6 : cause ≠ 6) :
    KeepsIslands s (s.linkFault n cause) := by
  obtain ⟨hwords, hclock, -, -⟩ := linkFault_keeps s hn hlen hcause h6
  refine ⟨hwords.mono fun a ha => ?_, by rw [hclock]⟩
  rcases ha with h | rfl | ⟨h, -⟩
  · simp only [recordWords, List.mem_cons, List.not_mem_nil, or_false] at h
    rcases h with rfl | rfl | rfl | rfl <;> exact ⟨by decide, by decide⟩
  · exact besideIslands_of_le (by dsimp only; omega)
  · exact besideIslands_of_le (by omega)

/-- A link fault of one port leaves the states of the others. -/
theorem fhPortState_linkFault_other (s : State) {n m cause : Nat} (hn : n < 8) (hm : m < 8) (hnm : n ≠ m) (hlen : s.fh.ports.length = 8)
    (hcause : cause < 16) (h6 : cause ≠ 6) : (s.linkFault n cause).fhPortState m = s.fhPortState m := by
  obtain ⟨hwords, -, -, -⟩ := linkFault_keeps s hn hlen hcause h6
  refine hwords.get (f := Reg.FRONTHAUL.PORT_STATUS.state m) fun h => ?_
  simp only [linkWords, recordWords, List.mem_cons, List.not_mem_nil, or_false] at h
  omega

/-- The link faults of every port leave none of them in UP, and the islands as they were. -/
theorem linkFaults_spec (s : State) (hlen : s.fh.ports.length = 8) {cause : Nat} (hcause : cause < 16) (h6 : cause ≠ 6) :
    KeepsIslands s (s.forEach (List.range 8) fun p s => s.linkFault p cause) ∧
      ∀ p, p < 8 → (s.forEach (List.range 8) fun p s => s.linkFault p cause).fhPortState p ≠ fhUp := by
  constructor
  · refine (State.forEach_induct (P := fun x => KeepsIslands s x ∧ x.fh.ports.length = 8) ⟨.refl s, hlen⟩ fun p hp x hx => ?_).1
    obtain ⟨hkeeps, hx8⟩ := hx
    exact ⟨hkeeps.trans (keepsIslands_linkFault x (List.mem_range.1 hp) hx8 hcause h6), (linkFault_keeps x (List.mem_range.1 hp) hx8 hcause h6).2.2.1⟩
  · intro p hp
    refine (State.forEach_at (A := fun x => x.fh.ports.length = 8) (B := fun x => x.fh.ports.length = 8 ∧ x.fhPortState p ≠ fhUp) List.nodup_range
      (List.mem_range.2 hp) hlen (fun b hb _ x hx => ?_) (fun x hx => ?_) fun b hb hbp x hx => ?_).2
    · exact (linkFault_keeps x (List.mem_range.1 hb) hx hcause h6).2.2.1
    · obtain ⟨-, -, h8, hstate⟩ := linkFault_keeps x hp hx hcause h6
      exact ⟨h8, hstate⟩
    · obtain ⟨h8, hstate⟩ := hx
      refine ⟨(linkFault_keeps x (List.mem_range.1 hb) h8 hcause h6).2.2.1, ?_⟩
      rwa [fhPortState_linkFault_other x (List.mem_range.1 hb) hp hbp h8 hcause h6]

/-! ### Loss of lock, and the attempts to restart -/

section

variable {s : State} {n : Nat}

/-- An island that loses lock neither runs nor has lock, and its synthesiser restarts. -/
theorem islandLost_spec (hn : n < 8) (h8 : s.clock.restarting.length = 8) :
    ((s.islandLost n).get Reg.CLOCK.ISLAND_STATUS.locked).testBit n = false ∧
      (s.islandLost n).get (Reg.CLOCK.ISLAND_CNT.losses n) = (s.get (Reg.CLOCK.ISLAND_CNT.losses n) + 1) % 256 ∧
      (s.islandLost n).clock.restarting.getD n false = true := by
  have hregs : (s.islandLost n).regs = (((s.putBit Reg.CLOCK.ISLAND_STATUS.running n false).putBit Reg.CLOCK.ISLAND_STATUS.locked n false).bump
    (Reg.CLOCK.ISLAND_CNT.losses n)).regs := rfl
  refine ⟨?_, ?_, ?_⟩
  · rw [State.get_of_regs hregs, State.get_bump_elsewhere _ (by dsimp only; omega)]
    exact State.testBit_putBit _ rfl hn false
  · rw [State.get_of_regs hregs, State.get_bump_same _ rfl, State.get_putBit_elsewhere _ (by dsimp only; omega),
      State.get_putBit_elsewhere _ (by dsimp only; omega)]
    rfl
  · have hset : (s.islandLost n).clock.restarting = s.clock.restarting.set n true := rfl
    rw [hset, List.getD_eq_getElem?_getD, List.getElem?_set_self (by omega)]
    rfl

/-- What stays of an island that has lost lock once its faults are done. -/
theorem lost_of_keeps {x u : State} (hx : (x.get Reg.CLOCK.ISLAND_STATUS.locked).testBit n = false ∧
      x.get (Reg.CLOCK.ISLAND_CNT.losses n) = (s.get (Reg.CLOCK.ISLAND_CNT.losses n) + 1) % 256 ∧ x.clock.restarting.getD n false = true)
    (hn : n < 8) (h : KeepsIslands x u) : (u.get Reg.CLOCK.ISLAND_STATUS.locked).testBit n = false ∧
      u.get (Reg.CLOCK.ISLAND_CNT.losses n) = (s.get (Reg.CLOCK.ISLAND_CNT.losses n) + 1) % 256 ∧ u.clock.restarting.getD n false = true := by
  obtain ⟨hlocked, hlosses, hrestarting⟩ := hx
  refine ⟨?_, ?_, by rw [h.restarting, hrestarting]⟩
  · rw [h.words.get (f := Reg.CLOCK.ISLAND_STATUS.locked) fun h => h.1 rfl, hlocked]
  · rw [h.words.get (f := Reg.CLOCK.ISLAND_CNT.losses n) fun h => ?_, hlosses]
    obtain ⟨-, h⟩ := h
    dsimp only at h
    omega

/-- What the loss of an island's lock brings with it, by the island (R621). -/
def State.islandFaults (s : State) (n : Nat) : State :=
  if n = islandFhl then s.forEach (List.range 8) fun p s => s.linkFault p 1
  else if n = islandStl then s.forEach (List.range 4) fun p s => s.flightFault p 0xB
  else if n = islandTim then
    let hold := if s.clock.cnvStopped then some s.arrayNow else none
    let s : State := { (s.put Reg.CLOCK.TIME_STATUS.carried 1).disarm .tim with clock := { s.clock with frozen := hold } }
    s.record { kind := .event, unit := unitClock, inst := n }
  else (s.putBit Reg.CLOCK.ISLAND_STATUS.running n true).record { kind := .event, unit := unitClock, inst := n }

theorem State.synthLost_of_unlocked (h4 : 4 ≤ n) (h : (s.get Reg.CLOCK.ISLAND_STATUS.locked).testBit n = false) : s.synthLost n = s := by
  refine (if_neg (by unfold islandRef; omega)).trans ((if_neg ?_).trans ((if_neg (by unfold islandCnv; omega)).trans (if_pos ?_)))
  · rw [decide_eq_false (by omega), decide_eq_false (by omega)]
    exact Bool.false_ne_true
  · rw [h]
    rfl

theorem State.synthLost_of_locked (h4 : 4 ≤ n) (h : (s.get Reg.CLOCK.ISLAND_STATUS.locked).testBit n = true) :
    s.synthLost n = (s.islandLost n).islandFaults n := by
  refine (if_neg (by unfold islandRef; omega)).trans ((if_neg ?_).trans ((if_neg (by unfold islandCnv; omega)).trans (if_neg ?_)))
  · rw [decide_eq_false (by omega), decide_eq_false (by omega)]
    exact Bool.false_ne_true
  · rw [h]
    exact Bool.false_ne_true

/-- Array time as TIM's loss leaves it, before its record. -/
def State.timCarried (s : State) : State :=
  { (s.put Reg.CLOCK.TIME_STATUS.carried 1).disarm .tim with
    clock := { s.clock with frozen := if s.clock.cnvStopped then some s.arrayNow else none } }

theorem State.islandFaults_fhl : s.islandFaults 4 = s.forEach (List.range 8) fun p s => s.linkFault p 1 := rfl

theorem State.islandFaults_stl : s.islandFaults 5 = s.forEach (List.range 4) fun p s => s.flightFault p 0xB := rfl

theorem State.islandFaults_tim : s.islandFaults 6 = s.timCarried.record { kind := .event, unit := unitClock, inst := 6 } := rfl

theorem State.islandFaults_hkp :
    s.islandFaults 7 = (s.putBit Reg.CLOCK.ISLAND_STATUS.running 7 true).record { kind := .event, unit := unitClock, inst := 7 } := rfl

theorem keepsIslands_timCarried (s : State) : KeepsIslands s s.timCarried :=
  ⟨((SameOff.refl s).put (f := Reg.CLOCK.TIME_STATUS.carried) ⟨by decide, by decide⟩ 1).trans (.of_regs rfl), rfl⟩

theorem fhPorts_islandLost : (s.islandLost n).fh = s.fh := rfl

theorem cnvStopped_islandLost : (s.islandLost n).clock.cnvStopped = s.clock.cnvStopped := rfl

theorem arrayNow_islandLost : (s.islandLost n).arrayNow = s.arrayNow := rfl

/-- The loss of the lock of FHL, STL, TIM or HKP, by its row of R621. -/
theorem synthLost_spec (h4 : 4 ≤ n) (hn : n < 8) (hlocked : (s.get Reg.CLOCK.ISLAND_STATUS.locked).testBit n = true)
    (h8 : s.clock.restarting.length = 8) (hports : s.fh.ports.length = 8) :
    (((s.synthLost n).get Reg.CLOCK.ISLAND_STATUS.locked).testBit n = false ∧
        (s.synthLost n).get (Reg.CLOCK.ISLAND_CNT.losses n) = (s.get (Reg.CLOCK.ISLAND_CNT.losses n) + 1) % 256 ∧
        (s.synthLost n).clock.restarting.getD n false = true) ∧
      (n = 4 → ∀ p, p < 8 → (s.synthLost n).fhPortState p ≠ fhUp) ∧
      (n = 6 → (s.synthLost n).get Reg.CLOCK.TIME_STATUS.carried = 1 ∧
        (s.synthLost n).clock.frozen = (if s.clock.cnvStopped then some s.arrayNow else none) ∧ (s.synthLost n).newest = some (3, 0, unitClock, 6)) ∧
      (n = 7 → ((s.synthLost n).get Reg.CLOCK.ISLAND_STATUS.running).testBit 7 = true ∧ (s.synthLost n).newest = some (3, 0, unitClock, 7)) := by
  rw [State.synthLost_of_locked h4 hlocked]
  have hlost := islandLost_spec (s := s) hn h8
  obtain ⟨x, hx⟩ : ∃ x, x = s.islandLost n := ⟨_, rfl⟩
  have hxports : x.fh.ports.length = 8 := by rw [hx, fhPorts_islandLost, hports]
  have hstopped : x.clock.cnvStopped = s.clock.cnvStopped := by rw [hx, cnvStopped_islandLost]
  have hnow : x.arrayNow = s.arrayNow := by rw [hx, arrayNow_islandLost]
  rw [← hx] at hlost ⊢
  clear hx
  obtain rfl | rfl | rfl | rfl : n = 4 ∨ n = 5 ∨ n = 6 ∨ n = 7 := by omega
  · rw [State.islandFaults_fhl]
    obtain ⟨hkeeps, hdown⟩ := linkFaults_spec x hxports (cause := 1) (by decide) (by decide)
    exact ⟨lost_of_keeps hlost hn hkeeps, fun _ => hdown, fun h => absurd h (by decide), fun h => absurd h (by decide)⟩
  · rw [State.islandFaults_stl]
    exact ⟨lost_of_keeps hlost hn (.forEach fun p _ y => keepsIslands_flightFault y p 0xB), fun h => absurd h (by decide),
      fun h => absurd h (by decide), fun h => absurd h (by decide)⟩
  · rw [State.islandFaults_tim]
    have hcarried : x.timCarried.get Reg.CLOCK.TIME_STATUS.carried = 1 := State.get_put_same x rfl 1
    have hfrozen : x.timCarried.clock.frozen = (if x.clock.cnvStopped then some x.arrayNow else none) := rfl
    refine ⟨lost_of_keeps hlost hn ((keepsIslands_timCarried x).trans (keepsIslands_record ..)), fun h => absurd h (by decide), fun _ => ⟨?_, ?_, ?_⟩,
      fun h => absurd h (by decide)⟩
    · rw [State.get_record _ _ (by simp [recordWords]), hcarried]
    · rw [State.clock_record, hfrozen, hstopped, hnow]
    · rw [State.newest_record]
      rfl
  · rw [State.islandFaults_hkp]
    obtain ⟨hlockedx, hlosses, hrestarting⟩ := hlost
    refine ⟨⟨?_, ?_, ?_⟩, fun h => absurd h (by decide), fun h => absurd h (by decide), fun _ => ⟨?_, ?_⟩⟩
    · rw [State.get_record _ _ (by simp [recordWords]), State.putBit, State.get_put_apart _ rfl (by decide), hlockedx]
    · rw [State.get_record _ _ (by simp [recordWords]), State.get_putBit_elsewhere _ (by decide), hlosses]
    · rw [State.clock_record]
      exact hrestarting
    · rw [State.get_record _ _ (by simp [recordWords])]
      exact State.testBit_putBit _ rfl (by decide) true
    · rw [State.newest_record]
      rfl

/-! ### Lock found -/

/-- Array time `a`, which was held, runs again. -/
def State.thawedAt (s : State) (a : Nat) : State := { s with clock := { s.clock with frozen := none, offset := (a : Int) - s.now, held := [] } }

/-- Discipline of array time starts anew. -/
def State.acquires (s : State) : State := { s.put Reg.CLOCK.TIME_STATUS.state timeAcquiring with clock := { s.clock with good := 0 } }

theorem State.thaw_of_none (h : s.clock.frozen = none) : s.thaw = s := by
  unfold State.thaw
  rw [h]

theorem State.thaw_of_some {a : Nat} (h : s.clock.frozen = some a) :
    s.thaw = if (s.thawedAt a).get Reg.CLOCK.REF_STATUS.source = srcFree then s.thawedAt a
      else (s.thawedAt a).acquires.takeHold ((s.thawedAt a).get Reg.CLOCK.REF_STATUS.source) := by
  unfold State.thaw
  rw [h]
  rfl

/-- What frees array time leaves of the clocks. -/
structure KeepsClocks (s u : State) : Prop where
  words : SameOff (· = Reg.CLOCK.TIME_STATUS.word.addr) s u
  restarting : u.clock.restarting = s.clock.restarting
  cnvRestarting : u.clock.cnvRestarting = s.clock.cnvRestarting
  cnvReturn : u.clock.cnvReturn = s.clock.cnvReturn

theorem KeepsClocks.refl (s : State) : KeepsClocks s s := ⟨.refl s, rfl, rfl, rfl⟩

theorem KeepsClocks.trans {s u v : State} (hsu : KeepsClocks s u) (huv : KeepsClocks u v) : KeepsClocks s v :=
  ⟨hsu.words.trans huv.words, huv.restarting.trans hsu.restarting, huv.cnvRestarting.trans hsu.cnvRestarting, huv.cnvReturn.trans hsu.cnvReturn⟩

theorem keepsClocks_acquires (s : State) : KeepsClocks s s.acquires :=
  ⟨(SameOff.put (A := (· = Reg.CLOCK.TIME_STATUS.word.addr)) (.refl s) (f := Reg.CLOCK.TIME_STATUS.state) rfl timeAcquiring).trans (.of_regs rfl), rfl, rfl, rfl⟩

theorem keepsClocks_thawedAt (s : State) (a : Nat) : KeepsClocks s (s.thawedAt a) := ⟨.of_regs rfl, rfl, rfl, rfl⟩

theorem keepsClocks_takeHold (s : State) (src : Nat) : KeepsClocks s (s.takeHold src) := by
  unfold State.takeHold
  split
  · exact .refl s
  · exact ⟨.of_regs rfl, rfl, rfl, rfl⟩

theorem keepsClocks_thaw (s : State) : KeepsClocks s s.thaw := by
  cases h : s.clock.frozen with
  | none =>
    rw [State.thaw_of_none h]
    exact .refl s
  | some a =>
    rw [State.thaw_of_some h]
    split
    · exact keepsClocks_thawedAt s a
    · exact (keepsClocks_thawedAt s a).trans ((keepsClocks_acquires _).trans (keepsClocks_takeHold _ _))

theorem keepsIslands_thaw (s : State) : KeepsIslands s s.thaw := by
  have h := keepsClocks_thaw s
  refine ⟨h.words.mono fun a ha => ?_, h.restarting⟩
  rw [ha]
  exact ⟨by decide, by decide⟩

/-- An island whose synthesiser has found lock, before what TIM's lock does besides. -/
def State.islandUp (s : State) (n : Nat) : State :=
  { s.setIsland n true with clock := { s.clock with restarting := s.clock.restarting.set n false } }

theorem State.synthLocked_of_idle {u : Nat} (h3 : n ≠ 3) (h : s.clock.restarting.getD n false = false) : s.synthLocked n u = s :=
  (if_neg h3).trans (if_pos (by rw [h]; rfl))

theorem State.synthLocked_of_restarting {u : Nat} (h3 : n ≠ 3) (h : s.clock.restarting.getD n false = true) :
    s.synthLocked n u = if n = islandTim then (s.islandUp n).thaw.arm .tim ((s.islandUp n).now + ticksOfUs 100) else s.islandUp n :=
  (if_neg h3).trans (if_neg (by rw [h]; exact Bool.false_ne_true))

theorem islandUp_spec (hn : n < 8) (h8 : s.clock.restarting.length = 8) :
    ((s.islandUp n).get Reg.CLOCK.ISLAND_STATUS.locked).testBit n = true ∧ ((s.islandUp n).get Reg.CLOCK.ISLAND_STATUS.running).testBit n = true ∧
      (s.islandUp n).clock.restarting.getD n true = false := by
  have hregs : (s.islandUp n).regs = (s.setIsland n true).regs := rfl
  refine ⟨?_, ?_, ?_⟩
  · rw [State.get_of_regs hregs]
    exact State.testBit_putBit _ rfl hn true
  · rw [State.get_of_regs hregs, State.setIsland, State.putBit, State.get_put_apart _ rfl (by decide)]
    exact State.testBit_putBit _ rfl hn true
  · have hset : (s.islandUp n).clock.restarting = s.clock.restarting.set n false := rfl
    rw [hset, List.getD_eq_getElem?_getD, List.getElem?_set_self (by omega)]
    rfl

theorem synthLocked_spec {u : Nat} (hn : n < 8) (h3 : n ≠ 3) (h8 : s.clock.restarting.length = 8) (h : s.clock.restarting.getD n false = true) :
    ((s.synthLocked n u).get Reg.CLOCK.ISLAND_STATUS.locked).testBit n = true ∧ ((s.synthLocked n u).get Reg.CLOCK.ISLAND_STATUS.running).testBit n = true ∧
      (s.synthLocked n u).clock.restarting.getD n true = false ∧ (n = 6 → (s.synthLocked n u).dueAt .tim = some (s.now + ticksOfUs 100)) := by
  obtain ⟨hlocked, hrunning, hdone⟩ := islandUp_spec hn h8
  rw [State.synthLocked_of_restarting h3 h]
  by_cases h6 : n = islandTim
  · rw [if_pos h6]
    obtain ⟨x, hx⟩ : ∃ x, x = s.islandUp n := ⟨_, rfl⟩
    have hnow : x.now = s.now := by
      rw [hx]
      rfl
    rw [← hx] at hlocked hrunning hdone ⊢
    have hkeeps : KeepsIslands x (x.thaw.arm .tim (x.now + ticksOfUs 100)) := (keepsIslands_thaw x).trans (.of_regs rfl rfl)
    refine ⟨?_, ?_, by rw [hkeeps.restarting, hdone], fun _ => by rw [State.dueAt_arm, hnow]⟩
    · rw [hkeeps.words.get (f := Reg.CLOCK.ISLAND_STATUS.locked) fun h => h.1 rfl, hlocked]
    · rw [hkeeps.words.get (f := Reg.CLOCK.ISLAND_STATUS.running) fun h => h.1 rfl, hrunning]
  · rw [if_neg h6]
    exact ⟨hlocked, hrunning, hdone, fun h => absurd h h6⟩

end

/-! ### Attempts without lock -/

section

variable {s : State} {n : Nat}

/-- An island's attempt that has found no lock is counted. -/
def State.attemptOver (s : State) (n : Nat) : State :=
  { s.bump (Reg.CLOCK.ISLAND_CNT.failed n) with
    clock := { s.clock with attempts := s.clock.attempts.set n (s.clock.attempts.getD n 0 + 1) } }

/-- An island whose third attempt has found no lock, before what that means for the part. -/
def State.attemptsOver (s : State) (n : Nat) : State :=
  { s.attemptOver n with
    clock := { s.clock with
               attempts := s.clock.attempts.set n (s.clock.attempts.getD n 0 + 1)
               restarting := s.clock.restarting.set n false } }

/-- What giving an island up means for the part, by the island (R580, R621). -/
def State.givenUp (s : State) (n : Nat) : State :=
  if s.power == powerWaking then s.wakeFail stepPll n 3
  else if n = islandFhl then s.wedge .fronthaul { kind := .wedged, unit := unitFronthaul }
  else if n = islandStl then s.wedge .stair { kind := .wedged, unit := unitStair }
  else if n = islandHkp then { s with clock := { s.clock with hkpOscillator := true } }
  else s

theorem State.synthTimeout_of_idle {u : Nat} (h3 : n ≠ islandCnv) (h : s.clock.restarting.getD n false = false) : s.synthTimeout n u = s := by
  refine if_pos ?_
  rw [if_neg h3, h]
  rfl

theorem State.synthTimeout_of_restarting {u : Nat} (h3 : n ≠ islandCnv) (h : s.clock.restarting.getD n false = true) :
    s.synthTimeout n u = if s.clock.attempts.getD n 0 + 1 < 3 then s.attemptOver n else (s.attemptsOver n).givenUp n := by
  have hgo : ¬ (!if n = islandCnv then s.clock.cnvRestarting.getD u false else s.clock.restarting.getD n false) = true := by
    rw [if_neg h3, h]
    exact Bool.false_ne_true
  refine (if_neg hgo).trans ?_
  simp only [if_neg h3]
  rfl

/-- A wedge marks its function and says so in the log alone. -/
theorem wedge_spec (s : State) (f : Function) (x : Rec) :
    SameOff (fun a => recordWords a ∨ a = Reg.RECOVERY.WEDGED.word.addr ∨ a = Reg.RECOVERY.STATUS.wedged_any.addr) s (s.wedge f x) ∧
      (s.wedge f x).clock = s.clock ∧ (s.wedge f x).isWedged f = true := by
  unfold State.wedge
  cases h : s.isWedged f with
  | true => exact ⟨.refl s, rfl, h⟩
  | false =>
    rw [if_neg Bool.false_ne_true]
    refine ⟨?_, ?_, ?_⟩
    · exact (((SameOff.refl s).put (f := ⟨Reg.RECOVERY.WEDGED.word.addr, f.bit, 1⟩) (.inr (.inl rfl)) 1).put (f := Reg.RECOVERY.STATUS.wedged_any)
        (.inr (.inr rfl)) 1).trans ((sameOff_record _ _).mono fun _ h => .inl h)
    · rw [State.clock_record]
      rfl
    · rw [State.isWedged, State.flag_iff, State.get_record _ _ (by simp [recordWords]), State.get_put_elsewhere (g := ⟨Reg.RECOVERY.WEDGED.word.addr, f.bit, 1⟩) _
        (show Reg.RECOVERY.STATUS.wedged_any.addr ≠ Reg.RECOVERY.WEDGED.word.addr by decide), State.get_put_same _ (by cases f <;> rfl)]
      exact Nat.one_ne_zero

/-- A failed wake shows its step and takes the part to WAKE_FAILED. -/
theorem wakeFail_spec (s : State) {step : Nat} (hstep : step < 16) (unit attempts : Nat) :
    SameOff (fun a => injWords a ∨ a = Reg.HOST.INT_STATUS.fault.addr ∨ a = Reg.POWER.WAKE_FAIL.word.addr ∨ a = Reg.POWER.STATUS.state.addr) s
        (s.wakeFail step unit attempts) ∧
      (s.wakeFail step unit attempts).clock = s.clock ∧ (s.wakeFail step unit attempts).power = powerWakeFailed ∧
      (s.wakeFail step unit attempts).get Reg.POWER.WAKE_FAIL.step = step := by
  unfold State.wakeFail
  extract_lets x y
  have hy : SameOff (fun a => injWords a ∨ a = Reg.HOST.INT_STATUS.fault.addr ∨ a = Reg.POWER.WAKE_FAIL.word.addr ∨ a = Reg.POWER.STATUS.state.addr) s y :=
    ((((SameOff.refl s).put (f := Reg.POWER.WAKE_FAIL.step) (.inr (.inr (.inl rfl))) step).put (f := Reg.POWER.WAKE_FAIL.unit)
      (.inr (.inr (.inl rfl))) unit).put (f := Reg.POWER.WAKE_FAIL.attempts) (.inr (.inr (.inl rfl))) attempts).put (f := Reg.POWER.WAKE_FAIL.sources)
      (.inr (.inr (.inl rfl))) _
  have hyclock : y.clock = s.clock := rfl
  have hystep : y.get Reg.POWER.WAKE_FAIL.step = step := by
    rw [State.get_put_apart _ rfl (by decide), State.get_put_apart _ rfl (by decide), State.get_put_apart _ rfl (by decide), State.get_put_same _ rfl]
    exact Nat.mod_eq_of_lt hstep
  clear_value y
  obtain ⟨z, hz⟩ : ∃ z, z = y.put Reg.POWER.STATUS.state powerWakeFailed := ⟨_, rfl⟩
  have hzstate : z.get Reg.POWER.STATUS.state = powerWakeFailed := by
    rw [hz, State.get_put_same _ rfl]
    rfl
  have hzstep : z.get Reg.POWER.WAKE_FAIL.step = step := by rw [hz, State.get_put_elsewhere _ (by decide), hystep]
  have hyz : SameOff (fun a => injWords a ∨ a = Reg.HOST.INT_STATUS.fault.addr ∨ a = Reg.POWER.WAKE_FAIL.word.addr ∨ a = Reg.POWER.STATUS.state.addr) s z := by
    rw [hz]
    exact hy.put (f := Reg.POWER.STATUS.state) (.inr (.inr (.inr rfl))) _
  have hzclock : z.clock = s.clock := by
    rw [hz, ← hyclock]
    rfl
  rw [← hz]
  clear hz
  obtain ⟨-, hdrop, -⟩ := dropPending_spec (s := z) (cause := injPower) (by decide)
  have hdropped (f : Fld) (hf : ¬ injWords f.addr) (hf2 : f.addr ≠ Reg.HOST.INT_STATUS.fault.addr) :
      ((z.dropPending injPower).notice .event).get f = z.get f :=
    (SameOff.notice (A := fun a => injWords a ∨ a = Reg.HOST.INT_STATUS.fault.addr) (hdrop.mono fun a ha => .inl ha) (.inr rfl) .event).get
      fun h => h.elim hf hf2
  refine ⟨hyz.trans (SameOff.notice (hdrop.mono fun a ha => .inl ha) (.inr (.inl rfl)) .event), ?_, ?_, ?_⟩
  · rw [← hzclock]
    unfold State.dropPending
    split <;> rfl
  · exact (hdropped Reg.POWER.STATUS.state (by simp [injWords]) (by decide)).trans hzstate
  · exact (hdropped Reg.POWER.WAKE_FAIL.step (by simp [injWords]) (by decide)).trans hzstep

theorem givenUp_spec (s : State) (n : Nat) :
    KeepsIslands s (s.givenUp n) ∧ (s.givenUp n).clock.attempts = s.clock.attempts ∧
      (s.power = powerWaking → (s.givenUp n).power = powerWakeFailed ∧ (s.givenUp n).get Reg.POWER.WAKE_FAIL.step = 3) ∧
      (s.power ≠ powerWaking → (n = 4 → (s.givenUp n).isWedged .fronthaul = true) ∧ (n = 5 → (s.givenUp n).isWedged .stair = true) ∧
        (n = 7 → (s.givenUp n).clock.hkpOscillator = true)) := by
  have hwedge (f : Function) (x : Rec) : KeepsIslands s (s.wedge f x) := by
    obtain ⟨hwords, hclock, -⟩ := wedge_spec s f x
    refine ⟨hwords.mono fun a ha => ?_, by rw [hclock]⟩
    simp only [recordWords, List.mem_cons, List.not_mem_nil, or_false] at ha
    rcases ha with (rfl | rfl | rfl | rfl) | rfl | rfl <;> exact ⟨by decide, by decide⟩
  unfold State.givenUp
  by_cases hwake : s.power = powerWaking
  · rw [if_pos (beq_iff_eq.2 hwake)]
    obtain ⟨hwords, hclock, hpower, hstep⟩ := wakeFail_spec s (step := stepPll) (by decide) n 3
    refine ⟨⟨hwords.mono fun a ha => ?_, by rw [hclock]⟩, by rw [hclock], fun _ => ⟨hpower, hstep⟩, fun h => absurd hwake h⟩
    rcases ha with h | rfl | rfl | rfl
    · have := injWords_bounds h
      exact ⟨by dsimp only; omega, by omega⟩
    all_goals exact ⟨by decide, by decide⟩
  · rw [if_neg (by rw [beq_iff_eq]; exact hwake)]
    by_cases h4 : n = islandFhl
    · rw [if_pos h4]
      obtain ⟨-, hclock, hwedged⟩ := wedge_spec s .fronthaul { kind := .wedged, unit := unitFronthaul }
      exact ⟨hwedge .., by rw [hclock], fun h => absurd h hwake, fun _ => ⟨fun _ => hwedged, fun h => absurd (h4.symm.trans h) (by decide),
        fun h => absurd (h4.symm.trans h) (by decide)⟩⟩
    rw [if_neg h4]
    by_cases h5 : n = islandStl
    · rw [if_pos h5]
      obtain ⟨-, hclock, hwedged⟩ := wedge_spec s .stair { kind := .wedged, unit := unitStair }
      exact ⟨hwedge .., by rw [hclock], fun h => absurd h hwake, fun _ => ⟨fun h => absurd h h4, fun _ => hwedged,
        fun h => absurd (h5.symm.trans h) (by decide)⟩⟩
    rw [if_neg h5]
    by_cases h7 : n = islandHkp
    · rw [if_pos h7]
      exact ⟨.of_regs rfl rfl, rfl, fun h => absurd h hwake, fun _ => ⟨fun h => absurd h h4, fun h => absurd h h5, fun _ => rfl⟩⟩
    · rw [if_neg h7]
      exact ⟨.refl s, rfl, fun h => absurd h hwake, fun _ => ⟨fun h => absurd h h4, fun h => absurd h h5, fun h => absurd h h7⟩⟩

theorem synthTimeout_spec {u : Nat} (hn : n < 8) (h3 : n ≠ 3) (h8 : s.clock.restarting.length = 8) (hatt : s.clock.attempts.length = 8)
    (h : s.clock.restarting.getD n false = true) :
    (s.synthTimeout n u).get (Reg.CLOCK.ISLAND_CNT.failed n) = (s.get (Reg.CLOCK.ISLAND_CNT.failed n) + 1) % 256 ∧
      (s.synthTimeout n u).clock.attempts.getD n 0 = s.clock.attempts.getD n 0 + 1 ∧
      (s.clock.attempts.getD n 0 < 2 → SameWords s (s.synthTimeout n u) [(Reg.CLOCK.ISLAND_CNT.word n).addr]) ∧
      (2 ≤ s.clock.attempts.getD n 0 → (s.synthTimeout n u).clock.restarting.getD n true = false ∧
        (s.power = powerWaking → (s.synthTimeout n u).power = powerWakeFailed ∧ (s.synthTimeout n u).get Reg.POWER.WAKE_FAIL.step = 3) ∧
        (s.power ≠ powerWaking → (n = 4 → (s.synthTimeout n u).isWedged .fronthaul = true) ∧ (n = 5 → (s.synthTimeout n u).isWedged .stair = true) ∧
          (n = 7 → (s.synthTimeout n u).clock.hkpOscillator = true))) := by
  rw [State.synthTimeout_of_restarting h3 h]
  have hfailed : (s.bump (Reg.CLOCK.ISLAND_CNT.failed n)).get (Reg.CLOCK.ISLAND_CNT.failed n) = (s.get (Reg.CLOCK.ISLAND_CNT.failed n) + 1) % 256 :=
    State.get_bump_same _ rfl
  have hset : (s.clock.attempts.set n (s.clock.attempts.getD n 0 + 1)).getD n 0 = s.clock.attempts.getD n 0 + 1 := by
    rw [List.getD_eq_getElem?_getD (l := List.set ..), List.getElem?_set_self (by omega)]
    rfl
  by_cases hk : s.clock.attempts.getD n 0 < 2
  · rw [if_pos (by omega)]
    refine ⟨hfailed, hset, fun _ => SameOff.sameWords ?_, fun h => absurd hk (by omega)⟩
    exact ((SameOff.refl s).put (f := Reg.CLOCK.ISLAND_CNT.failed n) List.mem_cons_self _).trans (.of_regs rfl)
  · rw [if_neg (by omega)]
    obtain ⟨hkeeps, hattempts, hwaking, helse⟩ := givenUp_spec (s.attemptsOver n) n
    have hrestart : (s.attemptsOver n).clock.restarting = s.clock.restarting.set n false := rfl
    have hatts : (s.attemptsOver n).clock.attempts = s.clock.attempts.set n (s.clock.attempts.getD n 0 + 1) := rfl
    have hcount : (s.attemptsOver n).get (Reg.CLOCK.ISLAND_CNT.failed n) = (s.get (Reg.CLOCK.ISLAND_CNT.failed n) + 1) % 256 := hfailed
    have hpower : (s.attemptsOver n).power = s.power := by
      have hregs : (s.attemptsOver n).regs = (s.bump (Reg.CLOCK.ISLAND_CNT.failed n)).regs := rfl
      rw [State.power, State.get_of_regs hregs, State.get_bump_elsewhere _ (by dsimp only; omega)]
      rfl
    rw [hpower] at hwaking helse
    refine ⟨?_, by rw [hattempts, hatts, hset], fun h => absurd h hk, fun _ => ⟨?_, hwaking, helse⟩⟩
    · rw [hkeeps.words.get (f := Reg.CLOCK.ISLAND_CNT.failed n) fun h => ?_, hcount]
      obtain ⟨-, h⟩ := h
      dsimp only at h
      omega
    · rw [hkeeps.restarting, hrestart, List.getD_eq_getElem?_getD, List.getElem?_set_self (by omega)]
      rfl

end

/-! ### The converter clock -/

section

variable {s : State}

/-- CNV synthesiser `u` has lock. -/
def State.cnvFound (s : State) (u : Nat) : State :=
  { s.put (cnvField u) loLocked with clock := { s.clock with cnvRestarting := s.clock.cnvRestarting.set u false, cnvSince := s.now } }

/-- A stopped converter clock is to return with synthesiser `u`. -/
def State.cnvBack (s : State) (u : Nat) : State := { s.put Reg.CLOCK.CNV_STATUS.active u with clock := { s.clock with cnvReturn := true } }

/-- An attempt of CNV synthesiser `u` that has found no lock is counted. -/
def State.cnvAttemptOver (s : State) (u : Nat) : State :=
  { s.bump (Reg.CLOCK.ISLAND_CNT.failed islandCnv) with
    clock := { s.clock with cnvAttempts := s.clock.cnvAttempts.set u (s.clock.cnvAttempts.getD u 0 + 1) } }

theorem State.synthLocked_of_cnv {u : Nat} (h : s.clock.cnvRestarting.getD u false = true) :
    s.synthLocked 3 u = if s.clock.cnvStopped && !s.clock.cnvReturn then ((s.cnvFound u).cnvBack u).thaw else s.cnvFound u :=
  if_neg (c := (!s.clock.cnvRestarting.getD u false) = true) (by rw [h]; exact Bool.false_ne_true)

theorem State.synthTimeout_of_cnv {u : Nat} (h : s.clock.cnvRestarting.getD u false = true) (hk : s.clock.cnvAttempts.getD u 0 < 2) :
    s.synthTimeout 3 u = (s.cnvAttemptOver u).cnvSeeded u (s.clock.cnvAttempts.getD u 0 + 1) := by
  refine (if_neg (c := (!s.clock.cnvRestarting.getD u false) = true) ?_).trans (if_pos (c := s.clock.cnvAttempts.getD u 0 + 1 < 3) ?_)
  · rw [h]
    exact Bool.false_ne_true
  · omega

theorem cnvFound_spec {u : Nat} (hu : u < 2) (h2 : s.clock.cnvRestarting.length = 2) :
    (s.cnvFound u).get (cnvField u) = loLocked ∧ (s.cnvFound u).clock.cnvRestarting.getD u true = false := by
  have hregs : (s.cnvFound u).regs = (s.put (cnvField u) loLocked).regs := rfl
  have hset : (s.cnvFound u).clock.cnvRestarting = s.clock.cnvRestarting.set u false := rfl
  refine ⟨?_, ?_⟩
  · rw [State.get_of_regs hregs]
    obtain rfl | rfl : u = 0 ∨ u = 1 := by omega
    · exact State.get_put_same s rfl loLocked
    · exact State.get_put_same s rfl loLocked
  · rw [hset, List.getD_eq_getElem?_getD, List.getElem?_set_self (by omega)]
    rfl

theorem cnvBack_spec {u : Nat} (hu : u < 2) :
    (s.cnvBack u).get (cnvField u) = s.get (cnvField u) ∧ (s.cnvBack u).get Reg.CLOCK.CNV_STATUS.active = u ∧
      (s.cnvBack u).clock.cnvRestarting = s.clock.cnvRestarting ∧ (s.cnvBack u).clock.cnvReturn = true := by
  have hregs : (s.cnvBack u).regs = (s.put Reg.CLOCK.CNV_STATUS.active u).regs := rfl
  refine ⟨?_, ?_, rfl, rfl⟩
  · rw [State.get_of_regs hregs]
    obtain rfl | rfl : u = 0 ∨ u = 1 := by omega
    · exact State.get_put_apart s (f := Reg.CLOCK.CNV_STATUS.active) (g := cnvField 0) rfl (by decide) _
    · exact State.get_put_apart s (f := Reg.CLOCK.CNV_STATUS.active) (g := cnvField 1) rfl (by decide) _
  · rw [State.get_of_regs hregs, State.get_put_same s rfl]
    exact Nat.mod_eq_of_lt hu

theorem cnvLocked_spec {u : Nat} (hu : u < 2) (h2 : s.clock.cnvRestarting.length = 2) (h : s.clock.cnvRestarting.getD u false = true) :
    (s.synthLocked 3 u).get (cnvField u) = loLocked ∧ (s.synthLocked 3 u).clock.cnvRestarting.getD u true = false ∧
      (s.clock.cnvStopped = true → s.clock.cnvReturn = false →
        (s.synthLocked 3 u).get Reg.CLOCK.CNV_STATUS.active = u ∧ (s.synthLocked 3 u).clock.cnvReturn = true) := by
  obtain ⟨hstate, hdone⟩ := cnvFound_spec hu h2
  rw [State.synthLocked_of_cnv h]
  split
  next =>
    obtain ⟨hkeep, hactive, hrestarting, hreturn⟩ := cnvBack_spec (s := s.cnvFound u) hu
    have hthaw := keepsClocks_thaw ((s.cnvFound u).cnvBack u)
    have hfield : (cnvField u).addr ≠ Reg.CLOCK.TIME_STATUS.word.addr := by
      obtain rfl | rfl : u = 0 ∨ u = 1 := by omega
      · decide
      · decide
    refine ⟨?_, by rw [hthaw.cnvRestarting, hrestarting, hdone], fun _ _ => ⟨?_, by rw [hthaw.cnvReturn, hreturn]⟩⟩
    · rw [hthaw.words.get hfield, hkeep, hstate]
    · rw [hthaw.words.get (f := Reg.CLOCK.CNV_STATUS.active) (by decide), hactive]
  next hback =>
    refine ⟨hstate, hdone, fun hs hr => absurd ?_ hback⟩
    rw [hs, hr]
    rfl

theorem cnvAttempt_spec {u : Nat} (hu : u < 2) (h2 : s.clock.cnvAttempts.length = 2) (hlfsr : s.clock.cnvLfsr.length = 2)
    (h : s.clock.cnvRestarting.getD u false = true) (hk : s.clock.cnvAttempts.getD u 0 < 2) :
    (s.synthTimeout 3 u).clock.cnvAttempts.getD u 0 = s.clock.cnvAttempts.getD u 0 + 1 ∧
      (s.synthTimeout 3 u).get (Reg.CLOCK.ISLAND_CNT.failed 3) = (s.get (Reg.CLOCK.ISLAND_CNT.failed 3) + 1) % 256 ∧
      (s.synthTimeout 3 u).clock.cnvLfsr.getD u 0 = ditherLoad (Config.cnvSeed u + s.clock.cnvAttempts.getD u 0 + 1) := by
  rw [State.synthTimeout_of_cnv h hk]
  have hatts : ((s.cnvAttemptOver u).cnvSeeded u (s.clock.cnvAttempts.getD u 0 + 1)).clock.cnvAttempts =
    s.clock.cnvAttempts.set u (s.clock.cnvAttempts.getD u 0 + 1) := rfl
  have hseed : ((s.cnvAttemptOver u).cnvSeeded u (s.clock.cnvAttempts.getD u 0 + 1)).clock.cnvLfsr =
    s.clock.cnvLfsr.set u (ditherLoad (Config.cnvSeed u + (s.clock.cnvAttempts.getD u 0 + 1))) := rfl
  have hregs : ((s.cnvAttemptOver u).cnvSeeded u (s.clock.cnvAttempts.getD u 0 + 1)).regs = (s.bump (Reg.CLOCK.ISLAND_CNT.failed islandCnv)).regs := rfl
  refine ⟨?_, ?_, ?_⟩
  · rw [hatts, List.getD_eq_getElem?_getD (l := List.set ..), List.getElem?_set_self (by omega)]
    rfl
  · rw [State.get_of_regs hregs]
    exact State.get_bump_same _ rfl
  · rw [hseed, List.getD_eq_getElem?_getD (l := List.set ..), List.getElem?_set_self (by omega), Nat.add_assoc]
    rfl

end

theorem claim_islands : Claim.Islands := by
  rintro s t n unit r rfl h8 hatt hcnv hcnvatt hports
  have hn := n.isLt
  have hne {k : Nat} (hk : k < 8) (h : n ≠ ⟨k, hk⟩) : n.val ≠ k := fun he => h (Fin.ext he)
  have hval {k : Nat} (hk : k < 8) (h : n = ⟨k, hk⟩) : n.val = k := congrArg Fin.val h
  refine ⟨fun h4 hun => ?_, fun h => ?_, fun h => ?_, fun h => ?_, fun h => ?_, fun h4 hl => ?_, fun h3 hidle => ⟨?_, ?_⟩, fun h3 hrun => ⟨?_, ?_⟩,
    fun h hrun => ?_, fun h hrun hk hlfsr => ?_⟩
  · exact Gives.of_eq rfl ((s.atTime t).synthLost_of_unlocked h4 hun)
  · subst h
    exact Gives.of_eq rfl rfl
  · subst h
    exact Gives.of_eq rfl rfl
  · subst h
    exact Gives.of_eq rfl rfl
  · subst h
    refine Gives.of_eq rfl (Eq.trans (b := if (s.atTime t).flag Reg.CLOCK.CNV_STATUS.tracking then (s.atTime t).cnvHandover else (s.atTime t).cnvStops)
      rfl ?_)
    by_cases htracks : s.get Reg.CLOCK.CNV_STATUS.tracking = 1
    · rw [if_pos htracks, if_pos (State.flag_eq_true (s := s.atTime t) htracks)]
    · have hlost : (s.atTime t).get Reg.CLOCK.CNV_STATUS.tracking = 0 := by
        have h2 : (s.atTime t).get Reg.CLOCK.CNV_STATUS.tracking < 2 := State.get_lt _ _
        have h1 : (s.atTime t).get Reg.CLOCK.CNV_STATUS.tracking ≠ 1 := htracks
        omega
      rw [if_neg htracks, State.flag_eq_false hlost, if_neg Bool.false_ne_true]
  · obtain ⟨⟨hlocked, hlosses, hrestarting⟩, h4', h6', h7'⟩ := synthLost_spec (s := s.atTime t) h4 hn hl h8 hports
    exact ⟨_, Gives.of_eq rfl rfl, hlocked, hlosses, hrestarting, fun h => h4' (hval (by decide) h), fun h => h6' (hval (by decide) h),
      fun h => h7' (hval (by decide) h)⟩
  · exact Gives.of_eq rfl (State.synthLocked_of_idle (hne (by decide) h3) hidle)
  · exact Gives.of_eq rfl (State.synthTimeout_of_idle (hne (by decide) h3) hidle)
  · obtain ⟨hlocked, hrunning, hdone, hdue⟩ := synthLocked_spec (s := s.atTime t) (u := unit.val) hn (hne (by decide) h3) h8 hrun
    exact ⟨_, Gives.of_eq rfl rfl, hlocked, hrunning, hdone, fun h => hdue (hval (by decide) h)⟩
  · obtain ⟨hfailed, hattempts, hagain, hover⟩ := synthTimeout_spec (s := s.atTime t) (u := unit.val) hn (hne (by decide) h3) h8 hatt hrun
    refine ⟨_, Gives.of_eq rfl rfl, hfailed, hattempts, hagain, fun hk => ?_⟩
    obtain ⟨hdone, hwaking, helse⟩ := hover hk
    refine ⟨hdone, hwaking, fun hp => ?_⟩
    obtain ⟨hfh, hstair, hhkp⟩ := helse hp
    exact ⟨fun h => hfh (hval (by decide) h), fun h => hstair (hval (by decide) h), fun h => hhkp (hval (by decide) h)⟩
  · subst h
    exact ⟨_, Gives.of_eq rfl rfl, cnvLocked_spec (s := s.atTime t) unit.isLt hcnv hrun⟩
  · subst h
    exact ⟨_, Gives.of_eq rfl rfl, cnvAttempt_spec (s := s.atTime t) unit.isLt hcnvatt hlfsr hrun hk⟩


section

variable {s : State}

theorem State.get_cnvRestart (s : State) (u : Nat) (f : Fld) : (s.cnvRestart u).get f = (s.put (cnvField u) loAcquire).get f := State.get_of_regs rfl f

theorem State.get_cnvUntracked_elsewhere (s : State) {f : Fld} (h1 : Reg.CLOCK.CNV_STATUS.tracking.apart f = true)
    (h2 : Reg.RECOVERY.STATUS.cnv_standby.apart f = true) : s.cnvUntracked.get f = s.get f := by
  rw [State.cnvUntracked, State.get_put_apart _ rfl h2, State.get_put_apart _ rfl h1]

/-- The standby has taken the converter clock of synthesiser `u`, before the record. -/
def State.handedOver (s : State) (u : Nat) : State :=
  ((s.put Reg.CLOCK.CNV_STATUS.active (1 - u)).cnvUntracked.cnvRestart u).bump (Reg.CLOCK.ISLAND_CNT.losses islandCnv)

theorem State.cnvHandover_of_idle (h : s.get Reg.CLOCK.CNV_STATUS.tracking = 0 ∨ s.clock.cnvStopped = true) : s.cnvHandover = s := by
  refine if_pos ?_
  rcases h with h | h
  · rw [State.flag_eq_false h]
    rfl
  · rw [h, Bool.or_true]

theorem State.cnvHandover_of_tracking (h : s.get Reg.CLOCK.CNV_STATUS.tracking = 1) (hrun : s.clock.cnvStopped = false) :
    s.cnvHandover = (s.handedOver s.cnvActive).record {
      kind := .fault
      cls := 7
      unit := unitClock
      inst := cnvInst s.cnvActive
      action := 1
      spare := cnvInst (1 - s.cnvActive)
      carriers := (s.handedOver s.cnvActive).activeMask } := by
  refine if_neg ?_
  rw [State.flag_eq_true h, hrun]
  exact Bool.false_ne_true

theorem handedOver_spec {u : Nat} (hu : u < 2) :
    (s.handedOver u).get Reg.CLOCK.CNV_STATUS.active = 1 - u ∧ (s.handedOver u).get Reg.CLOCK.CNV_STATUS.tracking = 0 ∧
      (s.handedOver u).get Reg.RECOVERY.STATUS.cnv_standby = 0 ∧ (s.handedOver u).get (cnvField u) = loAcquire ∧
      (s.handedOver u).get (Reg.CLOCK.ISLAND_CNT.losses 3) = (s.get (Reg.CLOCK.ISLAND_CNT.losses 3) + 1) % 256 := by
  unfold State.handedOver
  obtain rfl | rfl : u = 0 ∨ u = 1 := by omega
  all_goals
    refine ⟨?_, ?_, ?_, ?_, ?_⟩
    · rw [State.get_bump_elsewhere _ (by decide), State.get_cnvRestart, State.get_put_apart _ rfl (by decide),
        State.get_cnvUntracked_elsewhere _ (by decide) (by decide), State.get_put_same _ rfl]
      rfl
    · rw [State.get_bump_elsewhere _ (by decide), State.get_cnvRestart, State.get_put_apart _ rfl (by decide), State.cnvUntracked,
        State.get_put_elsewhere _ (by decide), State.get_put_same _ rfl]
      rfl
    · rw [State.get_bump_elsewhere _ (by decide), State.get_cnvRestart, State.get_put_elsewhere _ (by decide), State.cnvUntracked, State.get_put_same _ rfl]
      rfl
    · rw [State.get_bump_elsewhere _ (by decide), State.get_cnvRestart]
      exact State.get_put_same _ rfl loAcquire
    · rw [islandCnv, State.get_bump_same _ rfl, State.get_cnvRestart, State.get_put_elsewhere _ (by decide),
        State.get_cnvUntracked_elsewhere _ (by decide) (by decide), State.get_put_elsewhere _ (by decide)]
      rfl

theorem cnvHandover_spec (h : s.get Reg.CLOCK.CNV_STATUS.tracking = 1) (hrun : s.clock.cnvStopped = false) :
    s.cnvHandover.get Reg.CLOCK.CNV_STATUS.active = 1 - s.cnvActive ∧ s.cnvHandover.get Reg.CLOCK.CNV_STATUS.tracking = 0 ∧
      s.cnvHandover.get Reg.RECOVERY.STATUS.cnv_standby = 0 ∧ s.cnvHandover.get (cnvField s.cnvActive) = loAcquire ∧
      s.cnvHandover.get (Reg.CLOCK.ISLAND_CNT.losses 3) = (s.get (Reg.CLOCK.ISLAND_CNT.losses 3) + 1) % 256 ∧
      s.cnvHandover.newest = some (1, 7, unitClock, cnvInst s.cnvActive) ∧ s.cnvHandover.clock.cnvStopped = false := by
  have hu : s.cnvActive < 2 := State.get_lt _ _
  obtain ⟨hactive, htracking, hstandby, hstate, hlosses⟩ := handedOver_spec (s := s) hu
  have hstopped : (s.handedOver s.cnvActive).clock.cnvStopped = s.clock.cnvStopped := rfl
  have hfield : (cnvField s.cnvActive).addr = Reg.CLOCK.CNV_STATUS.word.addr := by
    unfold cnvField
    split
    · rfl
    · rfl
  rw [State.cnvHandover_of_tracking h hrun]
  refine ⟨?_, ?_, ?_, ?_, ?_, ?_, ?_⟩
  · rw [State.get_record _ _ (by simp [recordWords]), hactive]
  · rw [State.get_record _ _ (by simp [recordWords]), htracking]
  · rw [State.get_record _ _ (by simp [recordWords]), hstandby]
  · rw [State.get_record _ _ (by rw [hfield]; simp [recordWords]), hstate]
  · rw [State.get_record _ _ (by simp [recordWords]), hlosses]
  · rw [State.newest_record]
    rfl
  · rw [State.clock_record, hstopped, hrun]

/-- Both CNV synthesisers restart, with the island down. -/
def State.cnvDown (s : State) : State := (((s.cnvUntracked.bump (Reg.CLOCK.ISLAND_CNT.losses islandCnv)).setIsland islandCnv false).cnvRestart 0).cnvRestart 1

/-- The converter clock has stopped while the carriers of `mask` were active, before the recovery that waits for its return. -/
def State.cnvHeld (s : State) (mask : Nat) : State :=
  { s with clock := { s.clock with
      cnvStopped := true
      cnvReturn := false
      cnvMask := mask
      frozen := if s.flag Reg.CLOCK.TIME_STATUS.carried then some s.arrayNow else s.clock.frozen } }

theorem State.cnvStops_of_stopped (h : s.clock.cnvStopped = true) : s.cnvStops = s := if_pos h

theorem State.cnvStops_of_running (h : s.clock.cnvStopped = false) :
    s.cnvStops = (s.cnvDown.cnvHeld s.activeMask).beginRecov
      { (s.cnvDown.cnvHeld s.activeMask).newRecov 7 unitClock (cnvInst s.cnvActive) 0 0xFFFF s.activeMask with degrades := false } :=
  if_neg (by rw [h]; exact Bool.false_ne_true)

theorem State.arrayNow_cnvRestart (s : State) (u : Nat) : (s.cnvRestart u).arrayNow = s.arrayNow := rfl

theorem State.frozen_cnvRestart (s : State) (u : Nat) : (s.cnvRestart u).clock.frozen = s.clock.frozen := rfl

theorem State.arrayNow_cnvDown (s : State) : s.cnvDown.arrayNow = s.arrayNow := by
  rw [State.cnvDown, State.arrayNow_cnvRestart, State.arrayNow_cnvRestart]
  rfl

theorem State.frozen_cnvDown (s : State) : s.cnvDown.clock.frozen = s.clock.frozen := by
  rw [State.cnvDown, State.frozen_cnvRestart, State.frozen_cnvRestart]
  rfl

theorem cnvDown_spec (s : State) :
    (s.cnvDown.get Reg.CLOCK.ISLAND_STATUS.running).testBit 3 = false ∧ (s.cnvDown.get Reg.CLOCK.ISLAND_STATUS.locked).testBit 3 = false ∧
      s.cnvDown.get Reg.CLOCK.CNV_STATUS.x_state = loAcquire ∧ s.cnvDown.get Reg.CLOCK.CNV_STATUS.y_state = loAcquire ∧
      s.cnvDown.get Reg.CLOCK.TIME_STATUS.carried = s.get Reg.CLOCK.TIME_STATUS.carried := by
  unfold State.cnvDown
  refine ⟨?_, ?_, ?_, ?_, ?_⟩
  · rw [State.get_cnvRestart, State.get_put_elsewhere _ (by decide), State.get_cnvRestart, State.get_put_elsewhere _ (by decide), State.setIsland,
      State.putBit, State.get_put_apart _ rfl (by decide)]
    exact State.testBit_putBit _ rfl (by decide) false
  · rw [State.get_cnvRestart, State.get_put_elsewhere _ (by decide), State.get_cnvRestart, State.get_put_elsewhere _ (by decide)]
    exact State.testBit_putBit _ rfl (by decide) false
  · rw [State.get_cnvRestart, State.get_put_apart _ rfl (by decide), State.get_cnvRestart]
    exact State.get_put_same _ rfl loAcquire
  · rw [State.get_cnvRestart]
    exact State.get_put_same _ rfl loAcquire
  · rw [State.get_cnvRestart, State.get_put_elsewhere _ (by decide), State.get_cnvRestart, State.get_put_elsewhere _ (by decide), State.setIsland,
      State.get_putBit_elsewhere _ (by decide), State.get_putBit_elsewhere _ (by decide), State.get_bump_elsewhere _ (by decide),
      State.get_cnvUntracked_elsewhere _ (by decide) (by decide)]

section

variable (x : State) (m : Nat) (r : Recov)

theorem State.get_beginRecov (f : Fld) : (x.beginRecov r).get f = x.get f := rfl

theorem State.clock_beginRecov : (x.beginRecov r).clock = x.clock := rfl

theorem State.running_beginRecov : (x.beginRecov r).recov.running = x.recov.running ++ [r] := rfl

theorem State.get_cnvHeld (f : Fld) : (x.cnvHeld m).get f = x.get f := rfl

theorem State.cnvStopped_cnvHeld : (x.cnvHeld m).clock.cnvStopped = true := rfl

theorem State.frozen_cnvHeld :
    (x.cnvHeld m).clock.frozen = if x.flag Reg.CLOCK.TIME_STATUS.carried then some x.arrayNow else x.clock.frozen := rfl

end

theorem cnvStops_spec (h : s.clock.cnvStopped = false) :
    s.cnvStops.clock.cnvStopped = true ∧ (s.cnvStops.get Reg.CLOCK.ISLAND_STATUS.running).testBit 3 = false ∧
      (s.cnvStops.get Reg.CLOCK.ISLAND_STATUS.locked).testBit 3 = false ∧ s.cnvStops.get Reg.CLOCK.CNV_STATUS.x_state = loAcquire ∧
      s.cnvStops.get Reg.CLOCK.CNV_STATUS.y_state = loAcquire ∧
      (s.cnvStops.recov.running.getLast?.map fun x => (x.cls, x.mask)) = some (7, s.activeMask) ∧
      s.cnvStops.clock.frozen = (if s.get Reg.CLOCK.TIME_STATUS.carried = 1 then some s.arrayNow else s.clock.frozen) := by
  obtain ⟨hrunning, hlocked, hx, hy, hcarried⟩ := cnvDown_spec s
  have harray := s.arrayNow_cnvDown
  have hold := s.frozen_cnvDown
  rw [State.cnvStops_of_running h]
  generalize s.cnvDown = x at *
  obtain ⟨y, hy'⟩ : ∃ y, y = x.cnvHeld s.activeMask := ⟨_, rfl⟩
  obtain ⟨r, hr⟩ : ∃ r : Recov, r = { y.newRecov 7 unitClock (cnvInst s.cnvActive) 0 0xFFFF s.activeMask with degrades := false } := ⟨_, rfl⟩
  have hrec : (r.cls, r.mask) = (7, s.activeMask) := by rw [hr, State.newRecov]
  have hget (f : Fld) : (y.beginRecov r).get f = x.get f := by rw [State.get_beginRecov, hy', State.get_cnvHeld]
  rw [← hy', ← hr, hget, hget, hget, hget, State.clock_beginRecov, State.running_beginRecov, List.getLast?_concat, Option.map_some, hrec, hy',
    State.cnvStopped_cnvHeld, State.frozen_cnvHeld]
  refine ⟨rfl, hrunning, hlocked, hx, hy, rfl, ?_⟩
  · rw [harray, hold]
    by_cases h : s.get Reg.CLOCK.TIME_STATUS.carried = 1
    · rw [if_pos h, if_pos (State.flag_eq_true (hcarried.trans h))]
    · have hcarried0 : x.get Reg.CLOCK.TIME_STATUS.carried = 0 := by
        have h2 : s.get Reg.CLOCK.TIME_STATUS.carried < 2 := State.get_lt _ _
        omega
      rw [if_neg h, State.flag_eq_false hcarried0, if_neg Bool.false_ne_true]

end

/-! ### The comparator, the inter-bank phase and dither -/

section

variable {s : State}

/-- The comparator's reading `diff` shown; one beyond ±2 ps begins the 100 µs anew. -/
def State.compared (s : State) (diff : Int) : State :=
  if diff.natAbs ≤ 200 then s.putS Reg.CLOCK.CNV_STATUS.diff (satS 16 diff)
  else { s.putS Reg.CLOCK.CNV_STATUS.diff (satS 16 diff) with clock := { s.clock with cnvSince := s.now } }

/-- The standby tracks. -/
def State.standbyTracks (s : State) : State := (s.put Reg.CLOCK.CNV_STATUS.tracking 1).put Reg.RECOVERY.STATUS.cnv_standby 1

/-- What the reading decides, once the standby has lock (R618). -/
def State.judged (s : State) (diff : Int) : State :=
  if !(s.get (cnvField (1 - s.cnvActive)) = loLocked && !s.clock.cnvStopped) then s
  else if diff.natAbs ≤ 200 then if s.now < s.clock.cnvSince + ticksOfUs 100 then s else s.standbyTracks
  else if 1000 < diff.natAbs then s.cnvStops
  else s

theorem State.cnvTracking_eq (s : State) (diff : Int) : s.cnvTracking diff = (s.compared diff).judged diff := rfl

theorem State.get_compared (s : State) (diff : Int) {f : Fld} (hf : Reg.CLOCK.CNV_STATUS.diff.apart f = true) : (s.compared diff).get f = s.get f := by
  unfold State.compared
  split
  · exact State.get_put_apart s rfl hf _
  · exact (State.get_of_regs rfl f).trans (State.get_put_apart s rfl hf _)

theorem State.cnvStopped_compared (s : State) (diff : Int) : (s.compared diff).clock.cnvStopped = s.clock.cnvStopped := by
  unfold State.compared
  split
  · rfl
  · rfl

theorem State.now_compared (s : State) (diff : Int) : (s.compared diff).now = s.now := by
  unfold State.compared
  split
  · rfl
  · rfl

theorem State.cnvSince_compared (s : State) {diff : Int} (h : diff.natAbs ≤ 200) : (s.compared diff).clock.cnvSince = s.clock.cnvSince := by
  rw [State.compared, if_pos h]
  rfl

theorem State.standby_compared (s : State) (diff : Int) :
    (s.compared diff).get (cnvField (1 - (s.compared diff).cnvActive)) = s.get (cnvField (1 - s.cnvActive)) := by
  have hactive : (s.compared diff).cnvActive = s.cnvActive := State.get_compared s diff (f := Reg.CLOCK.CNV_STATUS.active) (by decide)
  rw [hactive]
  refine State.get_compared s diff ?_
  unfold cnvField
  split
  · decide
  · decide

theorem State.judged_of_unlocked (diff : Int) (h : s.get (cnvField (1 - s.cnvActive)) ≠ loLocked ∨ s.clock.cnvStopped = true) : s.judged diff = s := by
  refine if_pos ?_
  rcases h with h | h
  · rw [decide_eq_false h]
    rfl
  · rw [h, Bool.not_true, Bool.and_false]
    rfl

theorem State.judged_of_locked (diff : Int) (h : s.get (cnvField (1 - s.cnvActive)) = loLocked) (hrun : s.clock.cnvStopped = false) :
    s.judged diff = if diff.natAbs ≤ 200 then if s.now < s.clock.cnvSince + ticksOfUs 100 then s else s.standbyTracks
      else if 1000 < diff.natAbs then s.cnvStops else s := by
  refine if_neg ?_
  rw [decide_eq_true h, hrun]
  exact Bool.false_ne_true

theorem cnvTracking_spec (s : State) (diff : Int) :
    (s.get (cnvField (1 - s.cnvActive)) ≠ loLocked ∨ s.clock.cnvStopped = true → s.cnvTracking diff = s.compared diff) ∧
      (s.get (cnvField (1 - s.cnvActive)) = loLocked → s.clock.cnvStopped = false →
        (diff.natAbs ≤ 200 → s.now < s.clock.cnvSince + ticksOfUs 100 → s.cnvTracking diff = s.compared diff) ∧
        (diff.natAbs ≤ 200 → s.clock.cnvSince + ticksOfUs 100 ≤ s.now → s.cnvTracking diff = (s.compared diff).standbyTracks) ∧
        (200 < diff.natAbs → diff.natAbs ≤ 1000 → s.cnvTracking diff = s.compared diff) ∧
        (1000 < diff.natAbs → (s.cnvTracking diff).clock.cnvStopped = true)) := by
  rw [State.cnvTracking_eq]
  have hstopped := s.cnvStopped_compared diff
  have hstandby := s.standby_compared diff
  have hnow := s.now_compared diff
  refine ⟨fun h => ?_, fun hl hrun => ?_⟩
  · refine State.judged_of_unlocked diff ?_
    rwa [hstandby, hstopped]
  · rw [State.judged_of_locked diff (hstandby.trans hl) (hstopped.trans hrun), hnow]
    refine ⟨fun h2 h => ?_, fun h2 h => ?_, fun h2 h => ?_, fun h => ?_⟩
    · rw [if_pos h2, s.cnvSince_compared h2, if_pos h]
    · rw [if_pos h2, s.cnvSince_compared h2, if_neg (by omega)]
    · rw [if_neg (by omega), if_neg (by omega)]
    · rw [if_neg (by omega), if_pos h]
      exact (cnvStops_spec (hstopped.trans hrun)).1

theorem meanOf_singleton (x : Int) : meanOf [x] = x := by
  have hlen : (([x] : List Int).length : Int) = 1 := rfl
  have hsum : sumInt [x] = x := by simp [sumInt]
  rw [meanOf, if_neg (by simp), hsum, hlen, Int.fdiv_eq_ediv_of_nonneg _ (by omega)]
  omega

/-- The first measurement of the inter-bank phase is its mean. -/
theorem xfeedMeasured_spec (hfreq : s.loSameFreq = true) (hown : ∀ b < 2, s.get (Reg.CLOCK.LO_STATUS.own_lock b) = 1) (hnone : s.clock.xfeed = [])
    {delta : Int} (hlo : -32768 ≤ delta) (hhi : delta ≤ 32767) :
    (s.xfeedMeasured delta).clock.xfeed = [delta] ∧ (s.xfeedMeasured delta).getS Reg.CLOCK.XFEED_MEAS.delta = delta ∧
      ((s.xfeedMeasured delta).get Reg.CLOCK.XFEED_MEAS.valid = 1 ↔ s.loState 0 = loLocked ∧ s.loState 1 = loLocked) ∧
      SameWords s (s.xfeedMeasured delta) [Reg.CLOCK.XFEED_MEAS.word.addr] := by
  obtain ⟨x, hx⟩ : ∃ x : State, x = { s with clock := { s.clock with xfeed := [delta] } } := ⟨_, rfl⟩
  have hregs : x.regs = s.regs := by rw [hx]
  have hxfeed : x.clock.xfeed = [delta] := by rw [hx]
  have hu : s.xfeedMeasured delta = (x.putS Reg.CLOCK.XFEED_MEAS.delta delta).putB Reg.CLOCK.XFEED_MEAS.valid
      ((x.putS Reg.CLOCK.XFEED_MEAS.delta delta).loState 0 == loLocked && (x.putS Reg.CLOCK.XFEED_MEAS.delta delta).loState 1 == loLocked) := by
    refine (if_neg ?_).trans ?_
    · rw [hfreq, State.flag_eq_true (hown 0 (by decide)), State.flag_eq_true (hown 1 (by decide))]
      exact Bool.false_ne_true
    · dsimp only
      rw [hnone, List.map_nil, show ([delta] : List Int).take 16 = [delta] from rfl, meanOf_singleton, hx]
  have hstate (b : Nat) : (x.putS Reg.CLOCK.XFEED_MEAS.delta delta).loState b = s.loState b := by
    rw [State.loState, State.putS, State.get_put_elsewhere _ (by dsimp only; omega), State.get_of_regs hregs]
    rfl
  rw [hu, hstate, hstate]
  refine ⟨hxfeed, ?_, ?_, SameOff.sameWords ?_⟩
  · rw [State.getS, State.putB, State.get_put_apart _ rfl (by decide), ← State.getS]
    exact x.getS_putS_same (f := Reg.CLOCK.XFEED_MEAS.delta) rfl (by decide) hlo (Int.lt_add_one_of_le hhi)
  · rw [State.putB, State.get_put_same _ rfl]
    rw [← beq_iff_eq (a := s.loState 0), ← beq_iff_eq (a := s.loState 1), ← Bool.and_eq_true]
    cases s.loState 0 == loLocked && s.loState 1 == loLocked <;> decide
  · exact (SameOff.of_regs hregs).trans (((SameOff.refl x).put (f := Reg.CLOCK.XFEED_MEAS.delta) List.mem_cons_self _).put
      (f := Reg.CLOCK.XFEED_MEAS.valid) List.mem_cons_self _)

/-- The mark of a refused write as the write clears it. -/
def State.ditherAcked (s : State) (v : Word) : State := if bit v.toNat 8 then s.put Reg.CLOCK.DITHER_CTL.refused 0 else s

/-- Whether a write forces dither on an island that carries traffic. -/
def State.ditherBad (s : State) (v : Word) : Bool :=
  (List.range 3).any fun i => (getBits v 0 3).testBit i && !(s.get Reg.CLOCK.DITHER_CTL.force).testBit i && s.carriesTraffic i

theorem State.ditherWrite_eq (s : State) (v : Word) :
    s.ditherWrite v = if s.ditherBad v then (s.ditherAcked v).put Reg.CLOCK.DITHER_CTL.refused 1
      else ((s.ditherAcked v).put Reg.CLOCK.DITHER_CTL.force (getBits v 0 3)).forEach [0, 1] fun b s => s.showDither b := rfl

theorem sameOff_showDither (s : State) (b : Nat) : SameOff (· = (Reg.CLOCK.LO_STATUS.word b).addr) s (s.showDither b) := by
  unfold State.showDither
  exact SameOff.put (A := (· = (Reg.CLOCK.LO_STATUS.word b).addr)) (.refl s) (f := Reg.CLOCK.LO_STATUS.dither b) rfl _

theorem ditherAcked_spec (s : State) (v : Word) :
    SameOff (· = Reg.CLOCK.DITHER_CTL.word.addr) s (s.ditherAcked v) ∧
      (s.ditherAcked v).get Reg.CLOCK.DITHER_CTL.force = s.get Reg.CLOCK.DITHER_CTL.force := by
  unfold State.ditherAcked
  split
  · exact ⟨SameOff.put (A := (· = Reg.CLOCK.DITHER_CTL.word.addr)) (.refl s) (f := Reg.CLOCK.DITHER_CTL.refused) rfl 0, State.get_put_apart s rfl (by decide) 0⟩
  · exact ⟨.refl s, rfl⟩

theorem ditherWrite_of_bad {v : Word} (h : s.ditherBad v = true) :
    (s.ditherWrite v).get Reg.CLOCK.DITHER_CTL.refused = 1 ∧ (s.ditherWrite v).get Reg.CLOCK.DITHER_CTL.force = s.get Reg.CLOCK.DITHER_CTL.force ∧
      SameWords s (s.ditherWrite v) [Reg.CLOCK.DITHER_CTL.word.addr] := by
  obtain ⟨hwords, hforce⟩ := ditherAcked_spec s v
  rw [State.ditherWrite_eq, if_pos h]
  refine ⟨State.get_put_same _ rfl 1, (State.get_put_apart _ rfl (by decide) 1).trans hforce, SameOff.sameWords ?_⟩
  exact (hwords.mono fun a ha => by rw [ha]; exact List.mem_cons_self).put (f := Reg.CLOCK.DITHER_CTL.refused) List.mem_cons_self 1

theorem ditherWrite_of_good {v : Word} (h : s.ditherBad v = false) :
    (s.ditherWrite v).get Reg.CLOCK.DITHER_CTL.force = getBits v 0 3 ∧
      SameWords s (s.ditherWrite v) [Reg.CLOCK.DITHER_CTL.word.addr, (Reg.CLOCK.LO_STATUS.word 0).addr, (Reg.CLOCK.LO_STATUS.word 1).addr] := by
  obtain ⟨hwords, -⟩ := ditherAcked_spec s v
  rw [State.ditherWrite_eq, h, if_neg Bool.false_ne_true]
  obtain ⟨x, hx⟩ : ∃ x, x = (s.ditherAcked v).put Reg.CLOCK.DITHER_CTL.force (getBits v 0 3) := ⟨_, rfl⟩
  have hforce : x.get Reg.CLOCK.DITHER_CTL.force = getBits v 0 3 := by
    rw [hx, State.get_put_same _ rfl]
    exact Nat.mod_eq_of_lt (getBits_lt v 0 3)
  have hsx : SameOff (· = Reg.CLOCK.DITHER_CTL.word.addr) s x := by
    rw [hx]
    exact hwords.put (f := Reg.CLOCK.DITHER_CTL.force) rfl _
  have hshown : SameOff (fun a => a ∈ [(Reg.CLOCK.LO_STATUS.word 0).addr, (Reg.CLOCK.LO_STATUS.word 1).addr]) x (x.forEach [0, 1] fun b s => s.showDither b) :=
    ((sameOff_showDither x 0).mono fun a ha => by rw [ha]; exact List.mem_cons_self).trans
      ((sameOff_showDither _ 1).mono fun a ha => by rw [ha]; exact List.mem_cons_of_mem _ List.mem_cons_self)
  rw [← hx]
  refine ⟨(hshown.get (f := Reg.CLOCK.DITHER_CTL.force) (by decide)).trans hforce, SameOff.sameWords ?_⟩
  exact (hsx.mono fun a ha => by rw [ha]; exact List.mem_cons_self).trans (hshown.mono fun a ha => List.mem_cons_of_mem _ ha)

end

theorem claim_converterClock : Claim.ConverterClock := by
  rintro s t ch delta v r rfl
  refine ⟨fun h => ?_, fun h => ?_, fun h => ?_, fun htrack hrun => ?_, fun htrack hrun => ?_, fun w hw => ?_, fun h => ?_,
    fun hfreq h0 h1 hnone hlo hhi => ?_, fun hr => ⟨fun hbad => ?_, fun hgood => ?_⟩⟩
  · exact Gives.of_eq rfl (State.cnvHandover_of_idle (s := s.atTime t) h)
  · refine Gives.of_eq rfl (if_pos ?_)
    exact State.flag_eq_true (s := s.atTime t) h
  · refine Gives.of_eq rfl ?_
    rw [State.cnvStops_of_stopped (s := s.atTime t) h, ite_self]
  · exact ⟨_, Gives.of_eq rfl rfl, cnvHandover_spec (s := s.atTime t) htrack hrun⟩
  · refine ⟨(s.atTime t).cnvStops, Gives.of_eq rfl (if_neg ?_), ?_⟩
    · rw [State.flag_eq_false (s := s.atTime t) htrack]
      exact Bool.false_ne_true
    · exact cnvStops_spec (s := s.atTime t) hrun
  · have hwc : w = (s.atTime t).compared delta := hw
    obtain ⟨hidle, hlocked⟩ := cnvTracking_spec (s.atTime t) delta
    rw [← hwc] at hidle hlocked
    refine ⟨fun h => Gives.of_eq rfl (hidle h), fun hl hrun => ?_⟩
    obtain ⟨hearly, htracks, hbetween, hstops⟩ := hlocked hl hrun
    exact ⟨fun h1 h2 => Gives.of_eq rfl (hearly h1 h2), fun h1 h2 => Gives.of_eq rfl (htracks h1 h2), fun h1 h2 => Gives.of_eq rfl (hbetween h1 h2),
      fun h => ⟨_, Gives.of_eq rfl rfl, hstops h⟩⟩
  · refine Gives.of_eq rfl (if_pos ?_)
    rcases h with h | h | h
    · rw [show (s.atTime t).loSameFreq = false from h]
      rfl
    · rw [State.flag_eq_false (s := s.atTime t) h, Bool.not_false, Bool.or_true, Bool.true_or]
    · rw [State.flag_eq_false (s := s.atTime t) h, Bool.not_false, Bool.or_true]
  · have hown : ∀ b < 2, (s.atTime t).get (Reg.CLOCK.LO_STATUS.own_lock b) = 1 := fun b hb => by
      obtain rfl | rfl : b = 0 ∨ b = 1 := by omega
      · exact h0
      · exact h1
    exact ⟨_, Gives.of_eq rfl rfl, xfeedMeasured_spec (s := s.atTime t) hfreq hown hnone hlo hhi⟩
  · refine ⟨(s.atTime t).ditherWrite v, Gives.of_eq rfl (State.hostCmd_of_reaches hr _), ditherWrite_of_bad (s := s.atTime t) ?_⟩
    obtain ⟨i, hi, hnew, hold, htraffic⟩ := hbad
    refine List.any_eq_true.2 ⟨i, List.mem_range.2 hi, ?_⟩
    rw [hnew, show ((s.atTime t).get Reg.CLOCK.DITHER_CTL.force).testBit i = false from hold, show (s.atTime t).carriesTraffic i = true from htraffic]
    rfl
  · refine ⟨(s.atTime t).ditherWrite v, Gives.of_eq rfl (State.hostCmd_of_reaches hr _), ditherWrite_of_good (s := s.atTime t) ?_⟩
    refine List.any_eq_false.2 fun i hi => ?_
    rw [Bool.and_eq_true, Bool.and_eq_true]
    rintro ⟨⟨hnew, hold⟩, htraffic⟩
    exact Bool.false_ne_true ((hgood i (List.mem_range.1 hi) hnew (by simpa using hold)).symm.trans htraffic)

/-- Settles O56: the losses, locks and attempts of the islands, and the cases of the converter clock. -/
theorem clockIslands : Obligations.ClockIslands := ⟨claim_islands, claim_converterClock⟩

end Sys2Proof.Machine
end

