-- ==== Sys2Proof/Proofs/Energy.lean ====
section
/-!
The energy planner, its account and its inputs (R548 to R569, R690, R691, R720).
-/

namespace Sys2Proof.Machine

open Sys2Proof

/-! ### Timers and registers beside the log -/

theorem State.dueAt_keepLog (s : State) (r : LogRecord) {x : Timer} (hx : x ≠ .logPage) : (s.keepLog r).dueAt x = s.dueAt x := by
  unfold State.keepLog
  split
  · exact State.dueAt_arm_other hx _
  · rfl

theorem State.dueAt_writeRecord (s : State) (r : Rec) {x : Timer} (hx : x ≠ .logPage) : (s.writeRecord r).dueAt x = s.dueAt x := by
  unfold State.writeRecord
  cases r.kind with
  | fault =>
    refine (State.dueAt_keepLog _ _ hx).trans ?_
    cases hm : r.missed == 0
    · rfl
    · rfl
  | retention | wedged => exact (State.dueAt_keepLog _ _ hx).trans rfl
  | _ => rfl

/-- A record touches no timer but the log's. -/
theorem State.dueAt_record (s : State) (r : Rec) {x : Timer} (hx : x ≠ .logPage) : (s.record r).dueAt x = s.dueAt x :=
  Eq.trans (b := (s.writeRecord r).dueAt x) rfl (s.dueAt_writeRecord r hx)

theorem State.energy_record (s : State) (x : Rec) : (s.record x).energy = s.energy := by
  obtain ⟨_, _, _, _, _, h⟩ := logApart_record s x
  rw [h]

theorem State.power_record (s : State) (x : Rec) : (s.record x).power = s.power := State.get_record s x (by simp [recordWords])

theorem State.dueAt_of_due_false {s : State} {x : Timer} {t : Nat} (h : s.dueAt x = some t) (hd : s.due x = false) : s.now < t := by
  rw [State.due, h] at hd
  exact Nat.lt_of_not_le (of_decide_eq_false hd)

/-! ### Speed monitors -/

section

variable {s : State}

/-- The readings as the monitors show them. -/
def shownSpeeds (readings : List Nat) : List Nat := (List.range 16).map fun n => readings.getD n 0 % 65536

/-- The monitors judged by the readings. -/
def State.judgedSpeeds (s : State) (readings : List Nat) : List Monitor :=
  (List.range 16).map fun n => (s.energy.monitors.getD n default).judge ((shownSpeeds readings).getD n 0) (median2 (shownSpeeds readings))

/-- The readings and judgements taken in. -/
def State.speedsTaken (s : State) (readings : List Nat) : State :=
  { s with energy := { s.energy with monitors := s.judgedSpeeds readings
                                     speeds := (s.arrayNow, shownSpeeds readings) :: s.energy.speeds.take 200 } }

/-- What the registers show of monitor `n`. -/
def State.showSpeed (s : State) (rates : List Nat) (monitors : List Monitor) (n : Nat) : State :=
  (s.put (Reg.POWER.SPEED.rate n) (rates.getD n 0)).putB (Reg.POWER.SPEED.valid n) (monitors.getD n default).valid

/-- The registers show every monitor. -/
def State.showSpeeds (s : State) (rates : List Nat) (monitors : List Monitor) : State :=
  s.forEach (List.range 16) fun n s => s.showSpeed rates monitors n

/-- The block follows, and each monitor whose validity has changed is recorded. -/
def State.noteSpeeds (s : State) (changed : List Nat) : State :=
  s.showBlocked.forEach changed fun n s => s.record { kind := .event, unit := unitEnergy, inst := n }

theorem State.speedMeasured_eq (h : s.coreOn = true) (readings : List Nat) : ∃ changed : List Nat, s.speedMeasured readings =
    ((s.speedsTaken readings).showSpeeds (shownSpeeds readings) (s.judgedSpeeds readings)).noteSpeeds changed :=
  ⟨_, if_neg (by rw [h]; exact Bool.false_ne_true)⟩

theorem State.monitors_speedsTaken (s : State) (readings : List Nat) : (s.speedsTaken readings).energy.monitors = s.judgedSpeeds readings := rfl

theorem getD_shownSpeeds (readings : List Nat) {n : Nat} (hn : n < 16) : (shownSpeeds readings).getD n 0 = readings.getD n 0 % 65536 := by
  rw [shownSpeeds, List.getD_eq_getElem?_getD, List.getElem?_map, List.getElem?_range hn]
  rfl

theorem getD_judgedSpeeds (s : State) (readings : List Nat) {n : Nat} (hn : n < 16) : (s.judgedSpeeds readings).getD n default =
    (s.energy.monitors.getD n default).judge (readings.getD n 0 % 65536) (median2 (shownSpeeds readings)) := by
  rw [State.judgedSpeeds, List.getD_eq_getElem?_getD, List.getElem?_map, List.getElem?_range hn, Option.map_some, getD_shownSpeeds readings hn]
  rfl

theorem showSpeed_spec (s : State) (rates : List Nat) (l : List Monitor) (n : Nat) :
    (s.showSpeed rates l n).get (Reg.POWER.SPEED.rate n) = rates.getD n 0 % 65536 ∧
      ((s.showSpeed rates l n).get (Reg.POWER.SPEED.valid n) = 1 ↔ (l.getD n default).valid = true) ∧
      SameOff (· = (Reg.POWER.SPEED.word n).addr) s (s.showSpeed rates l n) ∧ (s.showSpeed rates l n).energy = s.energy := by
  refine ⟨?_, ?_, ?_, rfl⟩
  · rw [State.showSpeed, State.putB, State.get_put_apart _ rfl (by simp [Fld.apart]), State.get_put_same _ rfl]
    rfl
  · rw [State.showSpeed, State.putB, State.get_put_same _ rfl]
    cases (l.getD n default).valid
    · show b2n false % 2 ^ 1 = 1 ↔ false = true
      decide
    · show b2n true % 2 ^ 1 = 1 ↔ true = true
      decide
  · exact (SameOff.put (A := (· = (Reg.POWER.SPEED.word n).addr)) (.refl s) (f := Reg.POWER.SPEED.rate n) rfl _).put (f := Reg.POWER.SPEED.valid n) rfl _

theorem showSpeeds_spec (s : State) (readings : List Nat) (l : List Monitor) {n : Nat} (hn : n < 16) :
    ((s.showSpeeds (shownSpeeds readings) l).get (Reg.POWER.SPEED.rate n) = readings.getD n 0 % 65536 ∧
      ((s.showSpeeds (shownSpeeds readings) l).get (Reg.POWER.SPEED.valid n) = 1 ↔ (l.getD n default).valid = true)) ∧
      (s.showSpeeds (shownSpeeds readings) l).energy = s.energy := by
  refine ⟨?_, State.forEach_keeps (fun y => y.energy) (f := fun n s => s.showSpeed (shownSpeeds readings) l n)
    (fun n y => (showSpeed_spec y _ l n).2.2.2) s _⟩
  refine State.forEach_at (A := fun _ => True)
    (B := fun y => y.get (Reg.POWER.SPEED.rate n) = readings.getD n 0 % 65536 ∧ (y.get (Reg.POWER.SPEED.valid n) = 1 ↔ (l.getD n default).valid = true))
    List.nodup_range (List.mem_range.2 hn) trivial (fun _ _ _ _ _ => trivial) (fun y _ => ?_) fun b _ hbn y hy => ?_
  · obtain ⟨hrate, hvalid, -⟩ := showSpeed_spec y (shownSpeeds readings) l n
    rw [getD_shownSpeeds readings hn, Nat.mod_mod] at hrate
    exact ⟨hrate, hvalid⟩
  · obtain ⟨-, -, hwords, -⟩ := showSpeed_spec y (shownSpeeds readings) l b
    rw [hwords.get (f := Reg.POWER.SPEED.rate n) (by dsimp only; omega), hwords.get (f := Reg.POWER.SPEED.valid n) (by dsimp only; omega)]
    exact hy

theorem energy_showBlocked (s : State) : s.showBlocked.energy = s.energy := rfl

theorem noteSpeeds_spec (s : State) (changed : List Nat) :
    SameOff (fun a => recordWords a ∨ a = Reg.POWER.STATUS.word.addr) s (s.noteSpeeds changed) ∧ (s.noteSpeeds changed).energy = s.energy := by
  have hstart : SameOff (fun a => recordWords a ∨ a = Reg.POWER.STATUS.word.addr) s s.showBlocked :=
    (SameOff.refl s).put (f := Reg.POWER.STATUS.sub072_blocked) (.inr rfl) _
  exact State.forEach_induct (P := fun z => SameOff (fun a => recordWords a ∨ a = Reg.POWER.STATUS.word.addr) s z ∧ z.energy = s.energy)
    ⟨hstart, energy_showBlocked s⟩ fun n _ z hz => ⟨hz.1.trans ((sameOff_record z _).mono fun a ha => .inl ha), (State.energy_record z _).trans hz.2⟩

theorem speedMeasured_spec (h : s.coreOn = true) (readings : List Nat) {n : Nat} (hn : n < 16) :
    (s.speedMeasured readings).get (Reg.POWER.SPEED.rate n) = readings.getD n 0 % 65536 ∧
      (s.speedMeasured readings).energy.monitors.getD n default =
        (s.energy.monitors.getD n default).judge (readings.getD n 0 % 65536) (median2 (shownSpeeds readings)) ∧
      ((s.speedMeasured readings).get (Reg.POWER.SPEED.valid n) = 1 ↔
        ((s.speedMeasured readings).energy.monitors.getD n default).valid = true) := by
  obtain ⟨changed, hu⟩ := State.speedMeasured_eq h readings
  have hmonitors := s.monitors_speedsTaken readings
  have hjudged := getD_judgedSpeeds s readings hn
  generalize s.judgedSpeeds readings = l at *
  generalize s.speedsTaken readings = x at *
  obtain ⟨⟨hrate, hvalid⟩, henergy⟩ := showSpeeds_spec x readings l hn
  rw [hu]
  generalize x.showSpeeds (shownSpeeds readings) l = y at *
  obtain ⟨hwords, henergyu⟩ := noteSpeeds_spec y changed
  have hkeep (f : Fld) (hf : f.addr = (Reg.POWER.SPEED.word n).addr) : (y.noteSpeeds changed).get f = y.get f := hwords.get (by
    rw [hf]
    simp only [recordWords, List.mem_cons, List.not_mem_nil, or_false]
    omega)
  rw [henergyu, henergy, hmonitors, hkeep (Reg.POWER.SPEED.rate n) rfl, hkeep (Reg.POWER.SPEED.valid n) rfl]
  exact ⟨hrate, hjudged, hvalid⟩

end

/-! ### The regulator -/

section

variable {s : State}

/-- What PMBus transactions answer is shown in PMBUS_STATUS; a failed one is counted and recorded. -/
theorem pmBus_failed (s : State) :
    (s.pmBus false).get Reg.POWER.PMBUS_STATUS.fault = 1 ∧
      (s.pmBus false).get Reg.POWER.PMBUS_STATUS.errors = (s.get Reg.POWER.PMBUS_STATUS.errors + 1) % 256 ∧
      (s.pmBus false).newest = some (3, 0, unitPmbus, 0) ∧ (s.pmBus false).get Reg.HOST.INT_STATUS.event = 1 ∧ (s.pmBus false).energy = s.energy ∧
      (s.pmBus false).out = s.out ∧ ∀ x, x ≠ .logPage → (s.pmBus false).dueAt x = s.dueAt x := by
  refine ⟨?_, ?_, ?_, ?_, State.energy_record _ _, State.out_record _ _, fun x hx => (State.dueAt_record _ _ hx).trans rfl⟩
  · refine (State.get_record _ _ (by simp [recordWords])).trans ?_
    exact State.get_put_same _ rfl 1
  · refine (State.get_record _ _ (by simp [recordWords])).trans ?_
    rw [State.get_put_apart _ rfl (by decide), State.get_bump_same _ rfl]
    rfl
  · exact State.newest_record _ _
  · exact State.get_record_bit _ _

theorem State.readback_of_early (h : s.due .readVout = false) (mv : Option Nat) : s.readback mv = s := if_pos (by rw [h]; rfl)

/-- READ_VOUT goes out, and the next one is due. -/
def State.readSent (s : State) : State := (s.emit (.pmbus pmReadVout 0)).arm .readVout (s.now + ticksOfUs 20)

/-- A reading `v` taken in. -/
def State.readTaken (s : State) (v : Nat) : State :=
  { (s.put Reg.POWER.PMBUS_STATUS.fault 0).put Reg.POWER.PMBUS_STATUS.vout v with
    energy := { s.energy with
                vouts := (s.arrayNow, v) :: s.energy.vouts.take 200
                settled := s.energy.settled || decide (((v : Int) - s.energy.target).natAbs ≤ 10)
                confirmed := if decide (((v : Int) - s.energy.target).natAbs ≤ 10) then s.energy.target else s.energy.confirmed } }

theorem State.readback_of_none (h : s.due .readVout = true) : s.readback none = s.readSent.pmBus false :=
  if_neg (by rw [h]; exact Bool.false_ne_true)

theorem State.readback_of_some (h : s.due .readVout = true) (v : Nat) : s.readback (some v) = s.readSent.readTaken (v % 65536) :=
  if_neg (by rw [h]; exact Bool.false_ne_true)

theorem State.out_readSent (s : State) : s.readSent.out = s.out ++ [.pmbus pmReadVout 0] := rfl

theorem State.energy_readSent (s : State) : s.readSent.energy = s.energy := rfl

theorem State.regs_readSent (s : State) : s.readSent.regs = s.regs := rfl

theorem State.dueAt_readSent (s : State) : s.readSent.dueAt .readVout = some (s.now + ticksOfUs 20) := State.dueAt_arm _ _ _

theorem readTaken_spec (s : State) {v : Nat} (hv : v < 65536) :
    (s.readTaken v).get Reg.POWER.PMBUS_STATUS.vout = v ∧ (s.readTaken v).get Reg.POWER.PMBUS_STATUS.fault = 0 ∧
      (s.readTaken v).energy.target = s.energy.target ∧
      (((v : Int) - s.energy.target).natAbs ≤ 10 → (s.readTaken v).energy.settled = true ∧ (s.readTaken v).energy.confirmed = s.energy.target) ∧
      (10 < ((v : Int) - s.energy.target).natAbs →
        (s.readTaken v).energy.settled = s.energy.settled ∧ (s.readTaken v).energy.confirmed = s.energy.confirmed) ∧
      SameWords s (s.readTaken v) [Reg.POWER.PMBUS_STATUS.word.addr] ∧ (s.readTaken v).out = s.out := by
  have hregs : (s.readTaken v).regs = ((s.put Reg.POWER.PMBUS_STATUS.fault 0).put Reg.POWER.PMBUS_STATUS.vout v).regs := rfl
  have hsettled : (s.readTaken v).energy.settled = (s.energy.settled || decide (((v : Int) - s.energy.target).natAbs ≤ 10)) := rfl
  have hconfirmed : (s.readTaken v).energy.confirmed =
    if decide (((v : Int) - s.energy.target).natAbs ≤ 10) then s.energy.target else s.energy.confirmed := rfl
  refine ⟨?_, ?_, rfl, fun h => ?_, fun h => ?_, SameOff.sameWords ?_, rfl⟩
  · rw [State.get_of_regs hregs, State.get_put_same _ rfl]
    exact Nat.mod_eq_of_lt hv
  · rw [State.get_of_regs hregs, State.get_put_apart _ rfl (by decide), State.get_put_same _ rfl]
    rfl
  · rw [hsettled, hconfirmed, decide_eq_true h, Bool.or_true]
    exact ⟨rfl, rfl⟩
  · rw [hsettled, hconfirmed, decide_eq_false (by omega), Bool.or_false]
    exact ⟨rfl, rfl⟩
  · exact (((SameOff.refl s).put (f := Reg.POWER.PMBUS_STATUS.fault) List.mem_cons_self 0).put (f := Reg.POWER.PMBUS_STATUS.vout)
      List.mem_cons_self v).trans (.of_regs hregs)

end

theorem State.detail_log_record (s : State) (x : Rec) : ((s.record x).log.head?.map fun r => r.detail) = some x.detail := by
  rw [State.head_log_record]
  rfl

theorem claim_plannerInputs : Claim.PlannerInputs := by
  rintro s t readings r rfl -
  refine ⟨fun h => ?_, fun h => ?_, fun h => ?_, fun p hp hlow => ?_, fun h mv => ?_, fun h => ⟨?_, fun mv hmv => ?_⟩, ?_, fun w => ?_⟩
  · refine Gives.of_eq rfl (if_pos ?_)
    rw [show (s.atTime t).coreOn = false from h]
    rfl
  · exact ⟨_, Gives.of_eq rfl rfl, fun n hn => speedMeasured_spec (s := s.atTime t) h readings hn⟩
  · refine Gives.of_eq rfl ?_
    unfold State.speedMissed
    rcases h with h | ⟨p, hp, hhigh, htarget⟩
    · rw [show (s.atTime t).energy.plan = none from h]
    · rw [show (s.atTime t).energy.plan = some p from hp]
      refine if_neg ?_
      rw [Bool.or_eq_true, decide_eq_true_eq, decide_eq_true_eq]
      rintro (h | h)
      · omega
      · exact absurd h (Nat.not_lt.2 htarget)
  · obtain ⟨x, hx⟩ : ∃ x, x = ((s.atTime t).put Reg.POWER.STATUS.speed_miss 1).bump Reg.POWER.SPEED_MISS.word := ⟨_, rfl⟩
    refine ⟨{ x with energy := { x.energy with missDue := true } }, Gives.of_eq rfl ?_, ?_, ?_, rfl, SameOff.sameWords ?_, by rw [hx]; rfl, by rw [hx]; rfl⟩
    · unfold State.speedMissed
      rw [show (s.atTime t).energy.plan = some p from hp, hx]
      refine if_pos ?_
      rw [Bool.or_eq_true, decide_eq_true_eq, decide_eq_true_eq]
      exact hlow
    · refine Eq.trans (b := x.get Reg.POWER.STATUS.speed_miss) rfl ?_
      rw [hx, State.get_bump_elsewhere _ (by decide)]
      exact State.get_put_same _ rfl 1
    · refine Eq.trans (b := x.get Reg.POWER.SPEED_MISS.word) rfl ?_
      rw [hx, State.get_bump_same _ rfl, State.get_put_elsewhere _ (by decide)]
      rfl
    · refine SameOff.trans (u := x) ?_ (.of_regs rfl)
      rw [hx]
      exact ((SameOff.of_regs rfl : SameOff _ s (s.atTime t)).put (f := Reg.POWER.STATUS.speed_miss) List.mem_cons_self 1).put (f := Reg.POWER.SPEED_MISS.word)
        (List.mem_cons_of_mem _ List.mem_cons_self) _
  · exact Gives.of_eq rfl ((s.atTime t).readback_of_early h mv)
  · obtain ⟨hfault, herrors, hnewest, hevent, henergy, -, hdue⟩ := pmBus_failed (s.atTime t).readSent
    refine ⟨(s.atTime t).readSent.pmBus false, Gives.of_eq rfl (State.readback_of_none h), hfault, ?_, hnewest, hevent, ?_, ?_⟩
    · rw [herrors, State.get_of_regs (s.atTime t).regs_readSent]
      rfl
    · rw [henergy, State.energy_readSent]
      rfl
    · rw [hdue _ (by decide), State.dueAt_readSent]
      rfl
  · obtain ⟨hvout, hfault, htarget, hnear, hfar, hwords, hout⟩ := readTaken_spec (s.atTime t).readSent (Nat.mod_lt mv (by decide : 0 < 65536))
    rw [Nat.mod_eq_of_lt hmv] at hvout hfault htarget hnear hfar hwords hout
    refine ⟨(s.atTime t).readSent.readTaken mv, Gives.of_eq rfl ?_, hvout, hfault, htarget, hnear, hfar, ?_, hout⟩
    · rw [State.readback_of_some h, Nat.mod_eq_of_lt hmv]
    · exact hwords
  · obtain ⟨hfault, -, hnewest, -, -, hout, -⟩ := pmBus_failed ((s.atTime t).emit (.pmbus pmStatusWord 0))
    exact ⟨_, Gives.of_eq rfl rfl, hfault, hout, hnewest⟩
  · obtain ⟨x, hx⟩ : ∃ x, x = ((s.atTime t).emit (.pmbus pmStatusWord 0)).pmBus true := ⟨_, rfl⟩
    have hfault : x.get Reg.POWER.PMBUS_STATUS.fault = 0 := by
      rw [hx]
      exact State.get_put_same _ rfl 0
    have hout : x.out = s.out ++ [.pmbus pmStatusWord 0] := by
      rw [hx]
      rfl
    have hgives : Gives (.pmAlert t (some w)) s (x.record { kind := .event, unit := unitPmbus, detail := w % 65536 }) := by
      rw [hx]
      exact Gives.of_eq rfl rfl
    refine ⟨_, hgives, ?_, State.newest_record _ _, State.detail_log_record _ _, State.get_record_bit _ _, ?_⟩
    · rw [State.get_record _ _ (by simp [recordWords]), hfault]
    · rw [State.out_record, hout]

/-! ### The account -/

section

variable {s : State}

theorem energyUpdated_of_early (h : s.due .energy = false) (core nonCore : Nat) : s.energyUpdated core nonCore = s := if_pos (by rw [h]; rfl)

theorem energyUpdated_of_unmetered (h : s.due .energy = true) (hm : s.metered = false) (core nonCore : Nat) :
    s.energyUpdated core nonCore = s.disarm .energy :=
  (if_neg (by rw [h]; exact Bool.false_ne_true)).trans (if_pos (by rw [hm]; rfl))

/-- Both counters and the bucket of a slot of `core` and `nonCore` µJ. -/
def State.energyEntered (s : State) (core nonCore : Nat) : State :=
  ((s.disarm .energy).addEnergy 0 core).setBucket (min ((s.disarm .energy).addEnergy 0 core).depthNj
    (((s.disarm .energy).addEnergy 0 core).energy.bucket + ((s.disarm .energy).addEnergy 0 core).shareNj - ((core + nonCore) * 1000 : Nat)))

/-- γ follows the slot that has ended under a plan. -/
def State.gammaMoved (s : State) (core : Nat) : State :=
  match s.energy.ended with
  | some p => s.put Reg.POWER.GAMMA.gamma (gammaNext (s.get Reg.POWER.GAMMA.gamma) core p)
  | none => s

/-- The slot's non-core energy is noted. -/
def State.nonCoreNoted (s : State) (nonCore : Nat) : State :=
  { s with energy := { s.energy with nonCore := (s.energy.endSlot, nonCore) :: s.energy.nonCore.take 40 } }

theorem energyUpdated_of_metered (h : s.due .energy = true) (hm : s.metered = true) (core nonCore : Nat) :
    s.energyUpdated core nonCore = ((s.energyEntered core nonCore).gammaMoved core).nonCoreNoted nonCore :=
  (if_neg (by rw [h]; exact Bool.false_ne_true)).trans (if_neg (by rw [hm]; exact Bool.false_ne_true))

/-- The words of the energy counters. -/
def counterWords (g a : Nat) : Prop := a ∈ [(Reg.POWER.E_LO.word g).addr, (Reg.POWER.E_HI.word g).addr]

theorem gammaNext_lt (γ coreUj : Nat) (p : Plan) : gammaNext γ coreUj p < 65536 := by
  have : gammaNext γ coreUj p ≤ 32768 := Nat.min_le_left _ _
  omega

theorem energyEntered_spec (s : State) (core nonCore : Nat) :
    (s.energyEntered core nonCore).energy = { s.energy with
        bucket := min s.depthNj (s.energy.bucket + s.shareNj - ((core + nonCore) * 1000 : Nat)) } ∧
      (∀ g, g = 0 ∨ g = 6 → (s.energyEntered core nonCore).get (Reg.POWER.E_HI.word g) * 2 ^ 32 + (s.energyEntered core nonCore).get (Reg.POWER.E_LO.word g) =
        (s.get (Reg.POWER.E_HI.word g) * 2 ^ 32 + s.get (Reg.POWER.E_LO.word g) + core) % 2 ^ 64) ∧
      (s.energyEntered core nonCore).get Reg.POWER.GAMMA.gamma = s.get Reg.POWER.GAMMA.gamma ∧
      (s.energyEntered core nonCore).dueAt .energy = none ∧ (s.energyEntered core nonCore).mem = s.mem ∧
      (s.energyEntered core nonCore).out = s.out := by
  unfold State.energyEntered
  obtain ⟨x, hx⟩ : ∃ x, x = s.disarm .energy := ⟨_, rfl⟩
  have hxregs : x.regs = s.regs := by rw [hx]; rfl
  have hxenergy : x.energy = s.energy := by rw [hx]; rfl
  have hxdue : x.dueAt .energy = none := by rw [hx, State.dueAt_disarm]
  have hxmem : x.mem = s.mem := by rw [hx]; rfl
  have hxout : x.out = s.out := by rw [hx]; rfl
  rw [← hx]
  clear hx
  obtain ⟨h0, hwords0, regs0, hshape0⟩ := State.add64_spec (s := x) (lo := Reg.POWER.E_LO.word 0) (hi := Reg.POWER.E_HI.word 0) rfl rfl rfl rfl (by decide) core
  obtain ⟨y, hy⟩ : ∃ y, y = x.add64 (Reg.POWER.E_LO.word 0) (Reg.POWER.E_HI.word 0) core := ⟨_, rfl⟩
  obtain ⟨h6, hwords6, regs6, hshape6⟩ := State.add64_spec (s := y) (lo := Reg.POWER.E_LO.word 6) (hi := Reg.POWER.E_HI.word 6) rfl rfl rfl rfl (by decide) core
  have hz : x.addEnergy 0 core = y.add64 (Reg.POWER.E_LO.word 6) (Reg.POWER.E_HI.word 6) core := by rw [State.addEnergy, hy]
  rw [hz]
  obtain ⟨z, hzz⟩ : ∃ z, z = y.add64 (Reg.POWER.E_LO.word 6) (Reg.POWER.E_HI.word 6) core := ⟨_, rfl⟩
  rw [← hy] at h0 hwords0 hshape0
  rw [← hzz] at h6 hwords6 hshape6 ⊢
  clear hz hy hzz
  have hxy : SameOff (fun a => counterWords 0 a ∨ counterWords 6 a) x y := hwords0.mono fun a ha => .inl ha
  have hxz : SameOff (fun a => counterWords 0 a ∨ counterWords 6 a) x z := hxy.trans (hwords6.mono fun a ha => .inr ha)
  have hkeep {f : Fld} (hf : ¬ (counterWords 0 f.addr ∨ counterWords 6 f.addr)) : z.get f = s.get f :=
    (hxz.get hf).trans (State.get_of_regs hxregs f)
  have hdepth : z.depthNj = s.depthNj := by rw [State.depthNj, hkeep (by simp [counterWords]), State.depthNj]
  have hshare : z.shareNj = s.shareNj := by rw [State.shareNj, hkeep (by simp [counterWords]), State.shareNj]
  have hzenergy : z.energy = s.energy := by rw [hshape6, hshape0, ← hxenergy]
  have hcount (f : Fld) (hf : f.addr ≠ Reg.POWER.BUCKET_LEVEL.word.addr) (b : Int) : (z.setBucket b).get f = z.get f :=
    State.get_put_elsewhere _ (Ne.symm hf) _
  have hbucket (b : Int) : (z.setBucket b).energy = { z.energy with bucket := b } := rfl
  have hrest (b : Int) : (z.setBucket b).timers = z.timers ∧ (z.setBucket b).mem = z.mem ∧ (z.setBucket b).out = z.out := ⟨rfl, rfl, rfl⟩
  rw [hdepth, hshare, hbucket, hzenergy]
  refine ⟨rfl, fun g hg => ?_, ?_, ?_, ?_, ?_⟩
  · obtain rfl | rfl := hg
    · rw [hcount _ (by decide), hcount _ (by decide), hwords6.get (f := Reg.POWER.E_HI.word 0) (by decide),
        hwords6.get (f := Reg.POWER.E_LO.word 0) (by decide), h0, State.get_of_regs hxregs, State.get_of_regs hxregs]
    · rw [hcount _ (by decide), hcount _ (by decide), h6, hwords0.get (f := Reg.POWER.E_HI.word 6) (by decide),
        hwords0.get (f := Reg.POWER.E_LO.word 6) (by decide), State.get_of_regs hxregs, State.get_of_regs hxregs]
  · rw [hcount _ (by decide), hkeep (by simp [counterWords])]
  · rw [State.dueAt, (hrest _).1, ← State.dueAt]
    refine Eq.trans (b := x.dueAt .energy) ?_ hxdue
    rw [State.dueAt, hshape6, hshape0]
    rfl
  · rw [(hrest _).2.1, hshape6, hshape0, hxmem]
  · rw [(hrest _).2.2, hshape6, hshape0, hxout]

theorem gammaMoved_spec (s : State) (core : Nat) :
    (∀ p, s.energy.ended = some p → (s.gammaMoved core).get Reg.POWER.GAMMA.gamma = gammaNext (s.get Reg.POWER.GAMMA.gamma) core p) ∧
      (s.energy.ended = none → (s.gammaMoved core).get Reg.POWER.GAMMA.gamma = s.get Reg.POWER.GAMMA.gamma) ∧
      SameOff (· = Reg.POWER.GAMMA.word.addr) s (s.gammaMoved core) ∧ ∃ regs, s.gammaMoved core = { s with regs := regs } := by
  unfold State.gammaMoved
  split
  next p hp =>
    refine ⟨fun q hq => ?_, fun h => ?_, SameOff.put (A := (· = Reg.POWER.GAMMA.word.addr)) (.refl s) (f := Reg.POWER.GAMMA.gamma) rfl _, _, rfl⟩
    · obtain rfl := Option.some.inj (hp.symm.trans hq)
      rw [State.get_put_same _ rfl]
      exact Nat.mod_eq_of_lt (gammaNext_lt ..)
    · cases hp.symm.trans h
  next hp => exact ⟨fun q hq => (by cases hp.symm.trans hq), fun _ => rfl, .refl s, _, rfl⟩

section

variable (s : State) (n : Nat)

theorem State.get_nonCoreNoted (f : Fld) : (s.nonCoreNoted n).get f = s.get f := rfl

theorem State.bucket_nonCoreNoted : (s.nonCoreNoted n).energy.bucket = s.energy.bucket := rfl

theorem State.head_nonCoreNoted : (s.nonCoreNoted n).energy.nonCore.head? = some (s.energy.endSlot, n) := rfl

theorem State.dueAt_nonCoreNoted (x : Timer) : (s.nonCoreNoted n).dueAt x = s.dueAt x := rfl

theorem State.mem_nonCoreNoted : (s.nonCoreNoted n).mem = s.mem := rfl

theorem State.out_nonCoreNoted : (s.nonCoreNoted n).out = s.out := rfl

end

theorem energyUpdated_spec (h : s.due .energy = true) (hm : s.metered = true) (core nonCore : Nat) :
    ∃ u, s.energyUpdated core nonCore = u ∧ u.energy.bucket = min s.depthNj (s.energy.bucket + s.shareNj - ((core + nonCore) * 1000 : Nat)) ∧
      u.get (Reg.POWER.E_HI.word 0) * 2 ^ 32 + u.get (Reg.POWER.E_LO.word 0) =
        (s.get (Reg.POWER.E_HI.word 0) * 2 ^ 32 + s.get (Reg.POWER.E_LO.word 0) + core) % 2 ^ 64 ∧
      u.get (Reg.POWER.E_HI.word 6) * 2 ^ 32 + u.get (Reg.POWER.E_LO.word 6) =
        (s.get (Reg.POWER.E_HI.word 6) * 2 ^ 32 + s.get (Reg.POWER.E_LO.word 6) + core) % 2 ^ 64 ∧
      u.energy.nonCore.head? = some (s.energy.endSlot, nonCore) ∧ u.dueAt .energy = none ∧
      (∀ p, s.energy.ended = some p → u.get Reg.POWER.GAMMA.gamma = gammaNext (s.get Reg.POWER.GAMMA.gamma) core p) ∧
      (s.energy.ended = none → u.get Reg.POWER.GAMMA.gamma = s.get Reg.POWER.GAMMA.gamma) ∧ u.mem = s.mem ∧ u.out = s.out := by
  obtain ⟨henergy, hcounters, hgamma, hdue, hmem, hout⟩ := energyEntered_spec s core nonCore
  refine ⟨_, energyUpdated_of_metered h hm core nonCore, ?_⟩
  generalize s.energyEntered core nonCore = x at *
  obtain ⟨hmoved, hstays, hwords, regs, hshape⟩ := gammaMoved_spec x core
  have hended : x.energy.ended = s.energy.ended := by rw [henergy]
  rw [hended, hgamma] at hmoved hstays
  generalize x.gammaMoved core = y at *
  have hyenergy : y.energy = x.energy := by rw [hshape]
  have hydue : y.dueAt .energy = x.dueAt .energy := by rw [State.dueAt, State.dueAt, hshape]
  have hymem : y.mem = x.mem := by rw [hshape]
  have hyout : y.out = x.out := by rw [hshape]
  simp only [State.get_nonCoreNoted]
  refine ⟨?_, ?_, ?_, ?_, ?_, hmoved, hstays, ?_, ?_⟩
  · rw [State.bucket_nonCoreNoted, hyenergy, henergy]
  · rw [hwords.get (f := Reg.POWER.E_HI.word 0) (by decide), hwords.get (f := Reg.POWER.E_LO.word 0) (by decide)]
    exact hcounters 0 (.inl rfl)
  · rw [hwords.get (f := Reg.POWER.E_HI.word 6) (by decide), hwords.get (f := Reg.POWER.E_LO.word 6) (by decide)]
    exact hcounters 6 (.inr rfl)
  · rw [State.head_nonCoreNoted, hyenergy, henergy]
  · rw [State.dueAt_nonCoreNoted, hydue, hdue]
  · rw [State.mem_nonCoreNoted, hymem, hmem]
  · rw [State.out_nonCoreNoted, hyout, hout]

end

/-! ### Admission -/

theorem nodup_eraseDups {α : Type} [BEq α] [LawfulBEq α] : ∀ l : List α, l.eraseDups.Nodup
  | [] => by simp
  | a :: l => by
    rw [List.eraseDups_cons]
    refine List.nodup_cons.2 ⟨fun h => ?_, nodup_eraseDups _⟩
    simpa using (List.mem_filter.1 (List.mem_eraseDups.1 h)).2
termination_by l => l.length
decreasing_by
  have := List.length_filter_le (fun b => !b == a) l
  simp only [List.length_cons]
  omega

/-- Bit `c` of a mask of carriers is set where the carrier is one of them. -/
theorem testBit_maskOf {l : List Nat} (hl : l.Nodup) (c : Nat) : (sumNat (l.map fun c => 2 ^ c)).testBit c = true ↔ c ∈ l := by
  have hsum : sumNat (l.map fun c => 2 ^ c) = ∑ i ∈ l.toFinset, 2 ^ i := by
    rw [List.sum_toFinset _ hl]
    exact List.sum_eq_foldl.symm
  rw [hsum, ← Nat.mem_bitIndices, ← List.mem_toFinset, Finset.toFinset_bitIndices_sum_two_pow, List.mem_toFinset]

section

variable {s : State}

/-- The items of level 7 that do not fit. -/
def State.lateItems (s : State) (k mv : Nat) : List WorkItem := (s.itemsAt k 7).filter fun x => !s.itemFits (k - 1) mv x

/-- The carriers of the late items of kind bit `b`. -/
def State.lateCarriers (s : State) (k mv b : Nat) : List Nat :=
  (((s.lateItems k mv).filter fun x => bit x.kind b && decide (x.carrier < 8)).map fun x => x.carrier).eraseDups

theorem State.mem_lateCarriers {k mv b : Nat} {x : WorkItem} (hx : x ∈ s.itemsAt k 7) (hlate : s.itemFits (k - 1) mv x = false)
    (hb : bit x.kind b = true) (hc : x.carrier < 8) : x.carrier ∈ s.lateCarriers k mv b := by
  refine List.mem_eraseDups.2 (List.mem_map.2 ⟨x, List.mem_filter.2 ⟨List.mem_filter.2 ⟨hx, ?_⟩, ?_⟩, rfl⟩)
  · rw [hlate]
    rfl
  · rw [hb, decide_eq_true hc]
    rfl

theorem State.admitFrom_of_none {k mv n : Nat}
    (h : ((List.range 8).find? fun m => decide (n ≤ m) && s.allFit (k - 1) mv (s.itemsAt k m)) = none) :
    (s.admitFrom k mv n).slot = k ∧ (s.admitFrom k mv n).level = 7 ∧
      (s.admitFrom k mv n).noDl = sumNat ((s.lateCarriers k mv 0).map fun c => 2 ^ c) ∧
      (s.admitFrom k mv n).noUl = sumNat ((s.lateCarriers k mv 1).map fun c => 2 ^ c) := by
  unfold State.admitFrom
  rw [h]
  exact ⟨rfl, rfl, rfl, rfl⟩

theorem State.admitFrom_of_some {k mv n m : Nat}
    (h : ((List.range 8).find? fun m => decide (n ≤ m) && s.allFit (k - 1) mv (s.itemsAt k m)) = some m) :
    s.admitFrom k mv n = s.planAt k mv m := by
  unfold State.admitFrom
  rw [h]

/-- Under R27 a slot below 0.72 V admits no work of a carrier that does not fit. -/
theorem itemFits_of_admitted {k mv n : Nat} {x : WorkItem} (hmv : mv < 720) (hx : x ∈ s.admitted (s.admitFrom k mv n)) (hc : x.carrier < 8)
    (hkind : bit x.kind 0 = true ∨ bit x.kind 1 = true) : s.itemFits (k - 1) mv x = true := by
  obtain ⟨hitem, hmasks⟩ := List.mem_filter.1 hx
  cases hfind : (List.range 8).find? fun m => decide (n ≤ m) && s.allFit (k - 1) mv (s.itemsAt k m) with
  | some m =>
    have hplan := State.admitFrom_of_some hfind
    have hfits := List.find?_some hfind
    rw [hplan] at hitem
    rw [Bool.and_eq_true, State.allFit, decide_eq_false (Nat.not_le.2 hmv), Bool.false_or, List.all_eq_true] at hfits
    exact hfits.2 x hitem
  | none =>
    obtain ⟨hslot, hlevel, hdl, hul⟩ := State.admitFrom_of_none hfind
    rw [hslot, hlevel] at hitem
    rw [hdl, hul, Bool.and_eq_true, Bool.not_eq_true', Bool.not_eq_true'] at hmasks
    cases hlate : s.itemFits (k - 1) mv x with
    | true => rfl
    | false =>
      have hbit (b : Nat) (hb : bit x.kind b = true) : (sumNat ((s.lateCarriers k mv b).map fun c => 2 ^ c)).testBit x.carrier = true :=
        (testBit_maskOf (nodup_eraseDups _) _).2 (State.mem_lateCarriers hitem hlate hb hc)
      rcases hkind with h | h
      · have := hmasks.1
        rw [h, hbit 0 h] at this
        cases this
      · have := hmasks.2
        rw [h, hbit 1 h] at this
        cases this

end

/-! ### The slot and its plan -/

/-- The second state has the planning slot of the first: its plan, the next one, the plan shown and the instant of its energy update. -/
structure KeepsSlots (s u : State) : Prop where
  slot : u.energy.slot = s.energy.slot
  plan : u.energy.plan = s.energy.plan
  next : u.energy.next = s.energy.next
  ended : u.energy.ended = s.energy.ended
  shown : u.word Reg.POWER.PLAN.word.addr = s.word Reg.POWER.PLAN.word.addr
  due : u.dueAt .energy = s.dueAt .energy

theorem KeepsSlots.refl (s : State) : KeepsSlots s s := ⟨rfl, rfl, rfl, rfl, rfl, rfl⟩

theorem KeepsSlots.trans {s u v : State} (hsu : KeepsSlots s u) (huv : KeepsSlots u v) : KeepsSlots s v :=
  ⟨huv.slot.trans hsu.slot, huv.plan.trans hsu.plan, huv.next.trans hsu.next, huv.ended.trans hsu.ended, huv.shown.trans hsu.shown,
    huv.due.trans hsu.due⟩

theorem KeepsSlots.of_eq {s u : State} (hregs : u.regs = s.regs) (henergy : u.energy = s.energy) (htimers : u.timers = s.timers) : KeepsSlots s u :=
  ⟨by rw [henergy], by rw [henergy], by rw [henergy], by rw [henergy], by rw [State.word, hregs]; rfl, by rw [State.dueAt, htimers]; rfl⟩

theorem KeepsSlots.forEach {α : Type} {s : State} {f : α → State → State} {l : List α} (hf : ∀ a ∈ l, ∀ x, KeepsSlots x (f a x)) :
    KeepsSlots s (s.forEach l f) :=
  State.forEach_induct (P := KeepsSlots s) (.refl s) fun a ha x hx => hx.trans (hf a ha x)

theorem KeepsSlots.ite {s u v : State} {c : Prop} [Decidable c] (hu : KeepsSlots s u) (hv : KeepsSlots s v) : KeepsSlots s (if c then u else v) := by
  split
  · exact hu
  · exact hv

section

variable (s : State)

theorem keepsSlots_put {f : Fld} (hf : f.addr ≠ Reg.POWER.PLAN.word.addr) (v : Nat) : KeepsSlots s (s.put f v) :=
  ⟨rfl, rfl, rfl, rfl, State.word_put_other s hf v, rfl⟩

theorem keepsSlots_record (x : Rec) : KeepsSlots s (s.record x) :=
  have henergy := State.energy_record s x
  ⟨by rw [henergy], by rw [henergy], by rw [henergy], by rw [henergy], sameOff_record s x _ (by simp [recordWords]),
    State.dueAt_record s x (by decide)⟩

theorem keepsSlots_modHall (h : Nat) (f : Hall → Hall) : KeepsSlots s (s.modHall h f) := .of_eq rfl rfl rfl

theorem keepsSlots_raise (h e : Nat) : KeepsSlots s (s.raise h e) := by
  obtain ⟨f, hf, -⟩ := State.raise_spec s h e
  rw [hf]
  exact keepsSlots_modHall s h f

theorem keepsSlots_emit (o : Output) : KeepsSlots s (s.emit o) := .of_eq rfl rfl rfl

theorem keepsSlots_modCar (c : Nat) (f : CarrierState → CarrierState) : KeepsSlots s (s.modCar c f) := .of_eq rfl rfl rfl

theorem keepsSlots_pmBus (ok : Bool) : KeepsSlots s (s.pmBus ok) := by
  unfold State.pmBus
  exact .ite (keepsSlots_put s (f := Reg.POWER.PMBUS_STATUS.fault) (by decide) _)
    (((keepsSlots_put s (f := Reg.POWER.PMBUS_STATUS.errors) (by decide) _).trans
      (keepsSlots_put _ (f := Reg.POWER.PMBUS_STATUS.fault) (by decide) _)).trans (keepsSlots_record _ _))

/-- The target goes to `mv`, unconfirmed. -/
def State.targeted (s : State) (mv : Nat) : State :=
  { s with energy := { s.energy with before := s.energy.target, target := mv, settled := false } }

theorem keepsSlots_targeted (mv : Nat) : KeepsSlots s (s.targeted mv) := ⟨rfl, rfl, rfl, rfl, rfl, rfl⟩

theorem keepsSlots_arm {x : Timer} (hx : .energy ≠ x) (t : Nat) : KeepsSlots s (s.arm x t) :=
  ⟨rfl, rfl, rfl, rfl, rfl, State.dueAt_arm_other hx t⟩

theorem State.voutCommand_eq (mv : Nat) (ok : Bool) : s.voutCommand mv ok =
    (((s.targeted mv).emit (.pmbus pmVoutCommand mv)).pmBus ok).arm .readVout
      ((s.targeted mv).now + ticksOfUs 20) := rfl

theorem keepsSlots_voutCommand (mv : Nat) (ok : Bool) : KeepsSlots s (s.voutCommand mv ok) := by
  rw [State.voutCommand_eq]
  exact (((keepsSlots_targeted s mv).trans (keepsSlots_emit _ _)).trans (keepsSlots_pmBus _ _)).trans (keepsSlots_arm _ (by decide) _)

theorem keepsSlots_countShed (was n : Nat) : KeepsSlots s (s.countShed was n) := by
  unfold State.countShed State.when
  extract_lets x
  have hx : KeepsSlots s x := .ite (keepsSlots_put s (f := Reg.POWER.SHED_SLOTS.word) (by decide) _) (.refl s)
  clear_value x
  exact hx.trans (.forEach fun j _ y => keepsSlots_put y (f := Reg.POWER.SHED_ACT.word j) (by dsimp only; omega) _)

theorem keepsSlots_levelRecord (was n : Nat) : KeepsSlots s (s.levelRecord was n) := by
  unfold State.levelRecord State.when
  exact .ite (keepsSlots_record s _) (.refl s)

theorem keepsSlots_capStop (cause : Nat) : KeepsSlots s (s.capStop cause) := by
  unfold State.capStop
  extract_lets header x c y
  have hx : KeepsSlots s x := by
    refine .ite ?_ (.refl s)
    obtain ⟨mem, h⟩ := State.shape_allocWrite s kindCapture s.capPlace (header ++ s.cap.data)
    exact .of_eq (by rw [h]) (by rw [h]) (by rw [h])
  have hy : KeepsSlots s y := hx.trans (.of_eq rfl rfl rfl)
  clear_value y
  exact ((hy.trans (keepsSlots_put y (f := Reg.CARRIER.CAP_STATUS.cause) (by decide) _)).trans
    (keepsSlots_put _ (f := Reg.CARRIER.CAP_STATUS.armed) (by decide) _)).trans (keepsSlots_put _ (f := Reg.CARRIER.CAP_STATUS.done) (by decide) _)

theorem keepsSlots_halls (l : List Hall) : KeepsSlots s { s with halls := l } := .of_eq rfl rfl rfl

theorem keepsSlots_shedNow (n : Nat) : KeepsSlots s (s.shedNow n) := by
  unfold State.shedNow
  extract_lets x y shed
  have hx : KeepsSlots s x := keepsSlots_put s (f := Reg.POWER.STATUS.level) (by decide) n
  have hy : KeepsSlots s y := .ite (hx.trans (keepsSlots_capStop x 7)) hx
  clear_value y
  exact hy.trans (keepsSlots_halls y _)

theorem keepsSlots_showForm (c : Nat) : KeepsSlots s (s.showForm c) := by
  obtain ⟨hwords, -, -⟩ := showForm_spec s c
  exact ⟨rfl, rfl, rfl, rfl, hwords _ (by unfold formWords; dsimp only; omega), rfl⟩

theorem keepsSlots_dueStart (c a : Nat) (r : CarrierRec) : KeepsSlots s (s.dueStart c a r) :=
  (keepsSlots_modCar s c _).trans ((keepsSlots_put _ (f := Reg.CARRIER.STATUS.state c) (by dsimp only; omega) _).trans (keepsSlots_showForm _ c))

/-- The step `d` of array time taken, with the gates and the carriers. -/
def State.stepped (s : State) (d : Int) : State :=
  { s with
    clock := { s.clock with stepDue := none, offset := s.clock.offset + d }
    gates := s.gates.map fun (g : GateEntry) => { g with release := ((g.release : Int) + d).toNat }
    carriers := s.carriers.map fun (x : CarrierState) => { x with since := ((x.since : Int) + d).toNat } }

/-- Every active carrier starts anew. -/
def State.restarted (s : State) : State :=
  s.forEach s.activeCarriers fun c x => match (x.car c).after with
    | some none => x
    | some (some r) => x.dueStart c s.arrayNow r
    | none => x.dueStart c s.arrayNow (x.form c)

theorem State.applyStep_of_none (h : s.clock.stepDue = none) : s.applyStep = s := by
  unfold State.applyStep
  rw [h]

theorem State.applyStep_of_some {d : Int} (h : s.clock.stepDue = some d) :
    s.applyStep = (((s.stepped d).restarted.bump Reg.CLOCK.TIME_STEPS.word).put Reg.CLOCK.TIME_STATUS.stepped 1).record
      { kind := .event, unit := unitDevice, detail := unsigned 32 d } := by
  unfold State.applyStep
  rw [h]
  rfl

theorem keepsSlots_stepped (d : Int) : KeepsSlots s (s.stepped d) := .of_eq rfl rfl rfl

theorem keepsSlots_restarted : KeepsSlots s s.restarted := by
  refine .forEach fun c _ x => ?_
  split
  · exact .refl x
  · exact keepsSlots_dueStart x ..
  · exact keepsSlots_dueStart x ..

theorem keepsSlots_applyStep : KeepsSlots s s.applyStep := by
  cases h : s.clock.stepDue with
  | none =>
    rw [State.applyStep_of_none s h]
    exact .refl s
  | some d =>
    rw [State.applyStep_of_some s h]
    exact ((((keepsSlots_stepped s d).trans (keepsSlots_restarted _)).trans (keepsSlots_put _ (f := Reg.CLOCK.TIME_STEPS.word) (by decide) _)).trans
      (keepsSlots_put _ (f := Reg.CLOCK.TIME_STATUS.stepped) (by decide) _)).trans (keepsSlots_record _ _)

end

section

variable {s : State} {k : Nat}

/-- The plan that slot `k` begins under, with the level that it was planned at. -/
def State.slotPlan (s : State) (k : Nat) : Option (Plan × Nat) :=
  match s.energy.next.filter fun p => p.slot == k with
  | some p => some (s.replanSlot p, p.level)
  | none => if s.planning then some (s.admitFrom k s.railMv 0, 0) else none

/-- Slot `k` in progress under a plan. -/
def State.slotTaken (s : State) (k : Nat) (plan : Option Plan) : State :=
  { s with energy := { s.energy with endSlot := s.energy.slot.getD 0, ended := s.energy.plan, slot := some k, plan := plan, next := none } }

/-- What a plan sheds takes effect. -/
def State.slotShed (s : State) : Option (Plan × Nat) → State
  | some (q, planned) => ((s.countShed planned q.level).levelRecord planned q.level).shedNow q.level
  | none => s.shedNow 0

theorem State.slotBegins_eq (s : State) (k : Nat) :
    s.slotBegins k = (s.slotTaken k ((s.slotPlan k).map fun x => x.1)).slotShed (s.slotPlan k) := rfl

theorem keepsSlots_slotShed (s : State) (p : Option (Plan × Nat)) : KeepsSlots s (s.slotShed p) := by
  cases p with
  | none => exact keepsSlots_shedNow s 0
  | some x => exact ((keepsSlots_countShed s _ _).trans (keepsSlots_levelRecord _ _ _)).trans (keepsSlots_shedNow _ _)

theorem slotBegins_spec (s : State) (k : Nat) :
    (s.slotBegins k).energy.slot = some k ∧ (s.slotBegins k).energy.next = none ∧ (s.slotBegins k).energy.plan = (s.slotPlan k).map fun x => x.1 := by
  rw [State.slotBegins_eq]
  have hkeeps := keepsSlots_slotShed (s.slotTaken k ((s.slotPlan k).map fun x => x.1)) (s.slotPlan k)
  exact ⟨hkeeps.slot, hkeeps.next, hkeeps.plan⟩

theorem State.slotPlan_of_next {p : Plan} (h : s.energy.next = some p) (hp : p.slot = k) :
    (s.slotPlan k).map (fun x => x.1) = some (if s.energy.settled then p else s.admitFrom k (min s.energy.before s.energy.target) p.level) := by
  have hfilter : (s.energy.next.filter fun p => p.slot == k) = some p := by
    rw [h, Option.filter_some, if_pos (beq_iff_eq.2 hp)]
  rw [State.slotPlan, hfilter, Option.map_some, State.replanSlot, State.railMv, hp]
  cases s.energy.settled
  · rfl
  · rfl

theorem State.slotPlan_of_none (h : s.energy.next = none) :
    (s.slotPlan k).map (fun x => x.1) = if s.planning then some (s.admitFrom k s.railMv 0) else none := by
  rw [State.slotPlan, h, Option.filter_none]
  cases s.planning
  · rfl
  · rfl

theorem fitPlan_spec (s : State) (k : Nat) (budget : Int) (fuel n : Nat) :
    (s.fitPlan k budget fuel n).1.slot = k ∧ (s.fitPlan k budget fuel n).1.level ≤ n + fuel := by
  induction fuel generalizing n with
  | zero => exact ⟨rfl, le_rfl⟩
  | succ fuel ih =>
    rw [State.fitPlan]
    split
    · exact ⟨rfl, Nat.le_add_right ..⟩
    · obtain ⟨hslot, hlevel⟩ := ih (n + 1)
      exact ⟨hslot, by omega⟩

/-- A plan shown. -/
def State.showPlan (s : State) (p : Plan) : State :=
  ((s.put Reg.POWER.PLAN.v_target p.mv).putB Reg.POWER.PLAN.below_072 (p.mv < 720)).put Reg.POWER.PLAN.level p.level

/-- What the planner does once a plan is chosen, up to the plan's own place. -/
def State.planTold (s : State) (p : Plan) (deficit : Bool) (was : Nat) : State :=
  ((((s.showPlan p).when deficit fun s => (s.put Reg.POWER.STATUS.over_budget 1).bump Reg.POWER.OVER_BUDGET.word).countShed 0 p.level).levelRecord was
    p.level)

/-- The halls that a level sheds hear of it. -/
def State.hallsTold (s : State) (n : Nat) : State := s.forEach (s.hallsShed n) fun h s => s.raise h evShed

/-- The plan of the next slot in its place. -/
def State.nextFixed (s : State) (p : Plan) : State := { s with energy := { s.energy with next := some p } }

/-- The state the planner plans in. -/
def State.planStart (s : State) : State :=
  ({ s with energy := { s.energy with
                        missDue := false
                        blockedTo := if s.energy.missDue then s.now + ticksPerSecond else s.energy.blockedTo } } : State).showBlocked.showPEff

theorem State.fixPlan_eq (s : State) (k : Nat) (ok : Bool) : ∃ budget was, ∃ r, r = s.planStart.fitPlan k budget 7 0 ∧
    s.fixPlan k ok = (((s.planStart.planTold r.1 r.2 was).hallsTold r.1.level).nextFixed r.1).when
      (r.1.mv != (((s.planStart.planTold r.1 r.2 was).hallsTold r.1.level).nextFixed r.1).energy.target) fun s => s.voutCommand r.1.mv ok :=
  ⟨_, _, _, rfl, rfl⟩

theorem keepsSlots_planStart (s : State) : KeepsSlots s s.planStart := by
  obtain ⟨x, hx⟩ : ∃ x : State, x = { s with energy := { s.energy with
                        missDue := false
                        blockedTo := if s.energy.missDue then s.now + ticksPerSecond else s.energy.blockedTo } } := ⟨_, rfl⟩
  have hsx : KeepsSlots s x := by
    rw [hx]
    exact ⟨rfl, rfl, rfl, rfl, rfl, rfl⟩
  rw [State.planStart, ← hx]
  exact (hsx.trans (keepsSlots_put x (f := Reg.POWER.STATUS.sub072_blocked) (by decide) _)).trans
    (keepsSlots_put _ (f := Reg.THERMAL.P_EFF.word) (by decide) _)

/-- What PLAN shows of a plan. -/
def State.ShowsPlan (s : State) (p : Plan) : Prop :=
  s.get Reg.POWER.PLAN.level = p.level ∧ s.get Reg.POWER.PLAN.v_target = p.mv % 65536 ∧ (s.get Reg.POWER.PLAN.below_072 = 1 ↔ p.mv < 720)

theorem showPlan_spec (s : State) {p : Plan} (hp : p.level ≤ 7) : (s.showPlan p).ShowsPlan p := by
  refine ⟨?_, ?_, ?_⟩
  · rw [State.showPlan, State.get_put_same _ rfl]
    exact Nat.mod_eq_of_lt (Nat.lt_succ_of_le hp)
  · rw [State.showPlan, State.get_put_apart _ rfl (by decide), State.putB, State.get_put_apart _ rfl (by decide), State.get_put_same _ rfl]
    rfl
  · rw [State.showPlan, State.get_put_apart _ rfl (by decide), State.putB, State.get_put_same _ rfl]
    by_cases h : p.mv < 720
    · rw [decide_eq_true h]
      exact ⟨fun _ => h, fun _ => rfl⟩
    · rw [decide_eq_false h]
      exact ⟨fun h1 => absurd h1 (by decide), fun h1 => absurd h1 h⟩

theorem State.ShowsPlan.keeps {s u : State} {p : Plan} (h : s.ShowsPlan p) (hword : u.word Reg.POWER.PLAN.word.addr = s.word Reg.POWER.PLAN.word.addr) :
    u.ShowsPlan p := by
  unfold State.ShowsPlan at h ⊢
  rwa [State.get, State.get, State.get, show u.word Reg.POWER.PLAN.level.addr = s.word Reg.POWER.PLAN.level.addr from hword]

theorem showPlan_energy (s : State) (p : Plan) :
    (s.showPlan p).energy = s.energy ∧ (s.showPlan p).timers = s.timers := ⟨rfl, rfl⟩

/-- The plan for slot `k` is fixed and shown; the slot in progress goes on as it is. -/
theorem fixPlan_spec (s : State) (k : Nat) (ok : Bool) :
    ∃ p, (s.fixPlan k ok).energy.next = some p ∧ p.slot = k ∧ p.level ≤ 7 ∧ (s.fixPlan k ok).ShowsPlan p ∧
      (s.fixPlan k ok).energy.slot = s.energy.slot ∧ (s.fixPlan k ok).energy.plan = s.energy.plan ∧ (s.fixPlan k ok).energy.ended = s.energy.ended ∧
      (s.fixPlan k ok).dueAt .energy = s.dueAt .energy := by
  obtain ⟨budget, was, r, hr, hu⟩ := s.fixPlan_eq k ok
  obtain ⟨hslot, hlevel⟩ := fitPlan_spec s.planStart k budget 7 0
  rw [← hr, Nat.zero_add] at hlevel
  rw [← hr] at hslot
  have hstart := keepsSlots_planStart s
  generalize s.planStart = x at *
  have hshown := showPlan_spec x hlevel
  obtain ⟨hyenergy, hytimers⟩ := showPlan_energy x r.1
  have htold : KeepsSlots (x.showPlan r.1) (x.planTold r.1 r.2 was) := by
    unfold State.planTold State.when
    refine (KeepsSlots.trans (.ite ?_ (.refl _)) (keepsSlots_countShed _ _ _)).trans (keepsSlots_levelRecord _ _ _)
    exact (keepsSlots_put _ (f := Reg.POWER.STATUS.over_budget) (by decide) _).trans (keepsSlots_put _ (f := Reg.POWER.OVER_BUDGET.word) (by decide) _)
  have hhalls : KeepsSlots (x.showPlan r.1) ((x.planTold r.1 r.2 was).hallsTold r.1.level) := htold.trans (.forEach fun h _ z => keepsSlots_raise z h _)
  clear htold
  rw [hu]
  generalize (x.planTold r.1 r.2 was).hallsTold r.1.level = z at *
  generalize x.showPlan r.1 = y at *
  have hfinal : KeepsSlots (z.nextFixed r.1) ((z.nextFixed r.1).when (r.1.mv != (z.nextFixed r.1).energy.target) fun s => s.voutCommand r.1.mv ok) := by
    unfold State.when
    exact .ite (keepsSlots_voutCommand _ _ _) (.refl _)
  generalize (z.nextFixed r.1).when (r.1.mv != (z.nextFixed r.1).energy.target) (fun s => s.voutCommand r.1.mv ok) = u at *
  refine ⟨r.1, hfinal.next.trans rfl, hslot, hlevel, ?_, ?_, ?_, ?_, ?_⟩
  · exact (hshown.keeps hhalls.shown).keeps hfinal.shown
  · exact hfinal.slot.trans (hhalls.slot.trans ((congrArg _ hyenergy).trans hstart.slot))
  · exact hfinal.plan.trans (hhalls.plan.trans ((congrArg _ hyenergy).trans hstart.plan))
  · exact hfinal.ended.trans (hhalls.ended.trans ((congrArg _ hyenergy).trans hstart.ended))
  · exact hfinal.due.trans (hhalls.due.trans (Eq.trans (by rw [State.dueAt, hytimers]; rfl) hstart.due))

end

/-! ### The instant within a command -/

theorem State.sound_now (s : State) : s.Sound False (· = .nowAt s.now) := by
  constructor
  case now =>
    rintro n h
    cases h
    rfl
  case begunAre => exact fun _ h => nomatch h
  case regs | mem => exact False.elim
  case keep | boot | txn | radio | clock | beam | fh | stair | ota | recov | energy | hk => constructor <;> exact fun h => nomatch h
  all_goals exact fun h => nomatch h

theorem State.Sound.now_eq {s : State} {n : Nat} (h : s.Sound False (· = .nowAt n)) : s.now = n := h.now n rfl

/-! ### The boundary of a planning slot -/

section

variable {s : State}

theorem State.now_slotTaken (s : State) (k : Nat) (plan : Option Plan) : (s.slotTaken k plan).now = s.now := rfl

theorem State.now_slotBoundary (s : State) (k : Nat) : (s.slotWork.slotBegins k).now = s.now :=
  (State.Sound.slotBegins (State.Sound.slotWork s.sound_now)).now_eq

/-- The trims in force from the boundary on. -/
def State.trimsHeld (s : State) : State := { s with trimsDelay := s.trims }

/-- Slot `k` planned, where the planner runs. -/
def State.planAhead (s : State) (k : Nat) (ok : Bool) : State := if s.planning then s.fixPlan k ok else s

/-- The regulator asked for its readings, every 64 slots. -/
def State.polled (s : State) (k : Nat) : State :=
  if k % 64 = 0 && s.coreOn then (s.emit (.pmbus pmReadVout 0)).emit (.pmbus pmReadIout 0) else s

theorem State.planningBoundary_of_begun {ok : Bool} (h : s.clock.started = false ∨ s.energy.slot = some (s.arrayNow / planningSlot)) :
    s.planningBoundary ok = s := by
  refine if_pos ?_
  rcases h with h | h
  · rw [h]
    rfl
  · rw [h, beq_self_eq_true, Bool.or_true]

theorem State.planningBoundary_of_new {ok : Bool} {k : Nat} (hk : k = s.arrayNow / planningSlot) (hstart : s.clock.started = true)
    (hslot : s.energy.slot ≠ some k) : s.planningBoundary ok =
      (((((s.slotWork.slotBegins k).arm .energy (s.now + ticksOfUs 20)).trimsHeld).planAhead (k + 1) ok).polled k).applyStep := by
  subst hk
  refine if_neg ?_
  rw [hstart, beq_eq_false_iff_ne.2 hslot]
  exact Bool.false_ne_true

theorem keepsSlots_polled (s : State) (k : Nat) : KeepsSlots s (s.polled k) :=
  .ite ((keepsSlots_emit s _).trans (keepsSlots_emit _ _)) (.refl s)

section

variable (x : State) (t : Nat)

theorem State.planning_armed : (x.arm .energy t).trimsHeld.planning = x.planning := rfl

theorem State.energy_armed : (x.arm .energy t).trimsHeld.energy = x.energy := rfl

theorem State.dueAt_armed : (x.arm .energy t).trimsHeld.dueAt .energy = some t := State.dueAt_arm x .energy t

end

/-- The boundary of a planning slot that has begun: its plan, the next one, and its energy update. -/
theorem planningBoundary_spec (ok : Bool) {k : Nat} {w : State} (hk : k = s.arrayNow / planningSlot) (hw : w = s.slotWork.slotBegins k)
    (hstart : s.clock.started = true) (hslot : s.energy.slot ≠ some k) :
    (s.planningBoundary ok).energy.slot = some k ∧ (s.planningBoundary ok).energy.ended = w.energy.ended ∧
      (s.planningBoundary ok).dueAt .energy = some (w.now + ticksOfUs 20) ∧ (s.planningBoundary ok).energy.plan = w.energy.plan ∧
      (w.planning = true → ∃ p, (s.planningBoundary ok).energy.next = some p ∧ p.slot = k + 1 ∧ p.level ≤ 7 ∧ (s.planningBoundary ok).ShowsPlan p) ∧
      (w.planning = false → (s.planningBoundary ok).energy.next = none) := by
  obtain ⟨hwslot, hwnext, -⟩ := slotBegins_spec s.slotWork k
  rw [State.planningBoundary_of_new hk hstart hslot, ← hw]
  rw [← hw] at hwslot hwnext
  have hnow : s.now = w.now := by rw [hw, s.now_slotBoundary k]
  rw [hnow]
  clear hw hnow hk hstart hslot
  have hplanning := w.planning_armed (w.now + ticksOfUs 20)
  have henergy := w.energy_armed (w.now + ticksOfUs 20)
  have hdue := w.dueAt_armed (w.now + ticksOfUs 20)
  generalize (w.arm .energy (w.now + ticksOfUs 20)).trimsHeld = x at *
  have hafter : KeepsSlots (x.planAhead (k + 1) ok) ((x.planAhead (k + 1) ok).polled k).applyStep :=
    (keepsSlots_polled _ k).trans (keepsSlots_applyStep _)
  generalize ((x.planAhead (k + 1) ok).polled k).applyStep = u at *
  cases hp : w.planning with
  | true =>
    obtain ⟨p, hnext, hpslot, hlevel, hshown, hslot, hplan, hended, hpdue⟩ := fixPlan_spec x (k + 1) ok
    have hahead : x.planAhead (k + 1) ok = x.fixPlan (k + 1) ok := if_pos (hplanning.trans hp)
    rw [hahead] at hafter
    refine ⟨?_, ?_, ?_, ?_, fun _ => ⟨p, hafter.next.trans hnext, hpslot, hlevel, hshown.keeps hafter.shown⟩, fun h => absurd h (by decide)⟩
    · rw [hafter.slot, hslot, henergy, hwslot]
    · rw [hafter.ended, hended, henergy]
    · rw [hafter.due, hpdue, hdue]
    · rw [hafter.plan, hplan, henergy]
  | false =>
    have hahead : x.planAhead (k + 1) ok = x := if_neg (by rw [hplanning, hp]; exact Bool.false_ne_true)
    rw [hahead] at hafter
    refine ⟨?_, ?_, ?_, ?_, fun h => absurd h (by decide), fun _ => ?_⟩
    · rw [hafter.slot, henergy, hwslot]
    · rw [hafter.ended, henergy]
    · rw [hafter.due, hdue]
    · rw [hafter.plan, henergy]
    · rw [hafter.next, henergy, hwnext]

end

theorem claim_plannerSlots : Claim.PlannerSlots := by
  rintro s t core nonCore ok r rfl
  refine ⟨fun h => ?_, fun k w hk hw hstart hslot => ?_, fun k mv n x hmv hx hc hkind => itemFits_of_admitted hmv hx hc hkind, fun h => ?_, fun h hm => ?_,
    fun h hm => ?_⟩
  · exact Gives.of_eq rfl (State.planningBoundary_of_begun (s := s.atTime t) h)
  · obtain ⟨hbegun, hended, hdue, hplan, hahead, hidle⟩ := planningBoundary_spec (s := s.atTime t) ok hk hw hstart hslot
    refine ⟨_, Gives.of_eq rfl rfl, hbegun, hended, hdue, fun h => ?_, hidle, fun v hv => ⟨fun p hp hpk => ?_, fun hnone => ?_⟩⟩
    · obtain ⟨p, hnext, hpslot, hlevel, hshown⟩ := hahead h
      exact ⟨p, hnext, hpslot, hlevel, hshown⟩
    all_goals
      obtain ⟨-, -, hwplan⟩ := slotBegins_spec (s.atTime t).slotWork k
      rw [hplan, hw, hwplan, ← hv]
    · exact State.slotPlan_of_next hp hpk
    · exact State.slotPlan_of_none hnone
  · exact Gives.of_eq rfl (energyUpdated_of_early (s := s.atTime t) h core nonCore)
  · exact Gives.of_eq rfl (energyUpdated_of_unmetered (s := s.atTime t) h hm core nonCore)
  · obtain ⟨u, hu, hrest⟩ := energyUpdated_spec (s := s.atTime t) h hm core nonCore
    exact ⟨u, Gives.of_eq rfl hu, hrest⟩

/-- Settles O58: the boundary of a planning slot, admission, the account, and the planner's inputs. -/
theorem energyPlanner : Obligations.EnergyPlanner := ⟨claim_plannerSlots, claim_plannerInputs⟩

end Sys2Proof.Machine
end

