-- ==== Sys2Proof/Proofs/PowerEntry.lean ====
section
/-!
Entering DOZE with an LO bank that has FAILED (R152, R573).
-/

namespace Sys2Proof.Machine

open Sys2Proof

/-- An entry of DOZE, no carrier being active, with LO bank A given up. -/
def failedInEntry : State :=
  { (State.reset.put Reg.POWER.STATUS.state powerEntering).put (Reg.CLOCK.LO_STATUS.state 0) loFailed with
    energy := { State.reset.energy with goal := 2 } }

/-- The state of LO bank A that a command leaves. -/
def loStateAfter (c : Instr) (s : State) : Nat :=
  match exec c s with
  | .next u => u.loState 0
  | _ => 0

theorem loStateAfter_of_gives {c : Instr} {s u : State} (h : Gives c s u) : loStateAfter c s = u.loState 0 := by
  rw [loStateAfter, h]
  exact u.get_settled _

/-- Refutes O57: POWER_STATE_ENTERED for DOZE leaves a bank that has FAILED in FAILED; it does not read OFF. -/
theorem not_powerStates : ¬ Obligations.PowerStates := by
  rintro ⟨hentry, -⟩
  have hdecided : failedInEntry.power = powerEntering ∧ failedInEntry.activeCarriers = [] ∧ failedInEntry.txn.slots.length = 29 ∧
      failedInEntry.energy.goal = 2 ∧ failedInEntry.energy.latched = 0 ∧
      loStateAfter (.powerStateEntered 0) failedInEntry = loFailed := by decide +kernel
  obtain ⟨hpower, hactive, hslots, hgoal, hlatched, hfailed⟩ := hdecided
  obtain ⟨-, -, hentered⟩ := hentry failedInEntry 0 0 0 _ _ rfl hslots rfl
  obtain ⟨-, hdoze, -⟩ := hentered hpower hactive
  obtain ⟨u, hgives, -, -, -, -, hoff, -⟩ := hdoze hgoal hlatched
  rw [loStateAfter_of_gives hgives, hoff] at hfailed
  exact absurd hfailed (by decide)

end Sys2Proof.Machine
end

