-- ==== Sys2Proof/Proofs/OtaRoundWindows.lean ====
section
/-!
Over-the-air calibration: rounds and the windows of a round (R475 to R482, R490, R564).
-/

namespace Sys2Proof.Machine

open Sys2Proof

/-! ### Schedules -/

section

variable {k : Nat} {s u : State}

theorem Sends.ota (h : Sends k s u) : u.ota = s.ota := by
  obtain ⟨_, _, _, _, rfl⟩ := h.shape
  rfl

theorem Sends.image (h : Sends k s u) : u.image = s.image := by
  obtain ⟨_, _, _, _, rfl⟩ := h.shape
  rfl

/-- A message changes no register beside the idle bits of the stair lanes. -/
theorem Sends.get (h : Sends 16 s u) {f : Fld} (hf : f.addr < 0x480404 ∨ 0x480604 ≤ f.addr) : u.get f = s.get f :=
  h.words.get fun ha => by have := bounds_of_laneAdaptWords ha; omega

theorem Sends.isTop (h : Sends k s u) : u.isTop = s.isTop := by
  obtain ⟨_, _, _, _, rfl⟩ := h.shape
  rfl

theorem Sends.running (h : Sends 16 s u) {c : Nat} (hc : c < 8) : u.running c = s.running c := by
  have hget : u.get (Reg.CARRIER.STATUS.state c) = s.get (Reg.CARRIER.STATUS.state c) := h.get (by dsimp only; omega)
  rw [State.running, State.running, State.carState, State.carState, hget]

end

/-- The windows of a schedule, numbered from `first` on and placed from period `p` on. -/
def numberedWindows (first p : Nat) (windows : List OtaWindow) : List (Nat × Nat × OtaWindow) :=
  (List.range windows.length).zip windows |>.map fun e => (first + e.1, p + e.1, e.2)

/-- The period that a schedule of period `period` names: the one nearest to the period in progress. -/
def State.schedulePeriod (s : State) (period : Nat) : Nat :=
  let here := s.arrayNow / s.otaPeriod
  let d := (period + 2 ^ 32 - here % 2 ^ 32) % 2 ^ 32
  if d < 2 ^ 31 then here + d else here + d - 2 ^ 32

theorem map_numberedWindows (first p : Nat) (windows : List OtaWindow) : ((numberedWindows first p windows).map fun e => e.2.2) = windows := by
  rw [numberedWindows, List.map_map]
  exact List.map_snd_zip (by rw [List.length_range])

theorem map_numberedWindows_zero (p : Nat) (windows : List OtaWindow) :
    ((numberedWindows 0 p windows).map fun e => (e.1, e.2.2)) = (List.range windows.length).zip windows := by
  rw [numberedWindows, List.map_map]
  exact (List.map_congr_left fun e _ => by simp).trans (List.map_id _)

theorem State.otaCarrier_lt (s : State) : s.otaCarrier < 8 := s.get_lt Reg.OTA.CTL.carrier

/-- A round's first schedule in force: its registers, then its windows. -/
def State.firstScheduleRegs (s : State) (round count : Nat) : State :=
  ((s.put Reg.OTA.ROUND.number (if s.isTop then s.get Reg.OTA.ROUND.number else round)).put Reg.OTA.ROUND.windows count).put Reg.OTA.STATUS.state 1

def State.firstSchedule (s : State) (windows : List (Nat × Nat × OtaWindow)) : State :=
  { s with ota := { s.ota with active := true, windows := windows, retryKnown := false, now := none, captures := [none, none], accepted := [],
                               newTau := s.ota.tau, newRho := s.ota.rho, staleRound := false } }

/-- The RETRY windows in force. -/
def State.moreWindows (s : State) (windows : List (Nat × Nat × OtaWindow)) : State :=
  { s with ota := { s.ota with windows := s.ota.windows ++ windows, retryKnown := true } }

theorem State.scheduleTaken_zero (s : State) (round period : Nat) (windows : List OtaWindow) :
    s.scheduleTaken round 0 period windows = if (s.get Reg.OTA.CTL.mode == 0 || !s.running s.otaCarrier) = true then s
      else (s.firstScheduleRegs round windows.length).firstSchedule (numberedWindows 0 (s.schedulePeriod period) windows) := rfl

theorem State.scheduleTaken_pos {first : Nat} (hf : first ≠ 0) (s : State) (round period : Nat) (windows : List OtaWindow) :
    s.scheduleTaken round first period windows =
      if (!s.ota.active || round % 256 != s.get Reg.OTA.ROUND.number % 256) = true then s
      else if windows.isEmpty = true then
        ((s.addTo Reg.OTA.ROUND.windows windows.length).moreWindows (numberedWindows first (s.schedulePeriod period) windows)).put
          Reg.OTA.STATUS.state 4
      else (s.addTo Reg.OTA.ROUND.windows windows.length).moreWindows (numberedWindows first (s.schedulePeriod period) windows) := if_neg hf

theorem State.scheduleTaken_of_off {s : State} (h : s.get Reg.OTA.CTL.mode = 0 ∨ s.running s.otaCarrier = false) (round period : Nat)
    (windows : List OtaWindow) : s.scheduleTaken round 0 period windows = s := by
  have hoff : (s.get Reg.OTA.CTL.mode == 0 || !s.running s.otaCarrier) = true := by rcases h with h | h <;> simp [h]
  exact (s.scheduleTaken_zero ..).trans (if_pos hoff)

/-- The first schedule of a round as a landing that takes part takes it (R478). -/
theorem State.scheduleTaken_first {s : State} (hmode : s.get Reg.OTA.CTL.mode ≠ 0) (hrun : s.running s.otaCarrier = true) (round period : Nat)
    (windows : List OtaWindow) :
    ∃ u, s.scheduleTaken round 0 period windows = u ∧ u.get Reg.OTA.STATUS.state = 1 ∧
      u.get Reg.OTA.ROUND.number = (if s.isTop then s.get Reg.OTA.ROUND.number else round % 65536) ∧
      u.get Reg.OTA.ROUND.windows = windows.length % 65536 ∧
      u.ota = { s.ota with active := true, windows := numberedWindows 0 (s.schedulePeriod period) windows, retryKnown := false, now := none,
                           captures := [none, none], accepted := [], newTau := s.ota.tau, newRho := s.ota.rho, staleRound := false } ∧
      u.out = s.out ∧ u.now = s.now := by
  have hoff : ¬ (s.get Reg.OTA.CTL.mode == 0 || !s.running s.otaCarrier) = true := by simp [hmode, hrun]
  obtain ⟨v, hv⟩ : ∃ v : State, v = s.firstScheduleRegs round windows.length := ⟨_, rfl⟩
  have hota : v.ota = s.ota := by rw [hv]; rfl
  refine ⟨_, (s.scheduleTaken_zero ..).trans (if_neg hoff), ?_⟩
  rw [← hv]
  refine ⟨?_, ?_, ?_, ?_, ?_, ?_⟩
  · show v.get Reg.OTA.STATUS.state = 1
    rw [hv, State.firstScheduleRegs, State.get_put_same _ (by decide)]
    rfl
  · show v.get Reg.OTA.ROUND.number = _
    rw [hv, State.firstScheduleRegs, State.get_put_elsewhere _ (by decide), State.get_put_apart _ (by decide) (by decide),
      State.get_put_same _ (by decide)]
    split
    · exact Nat.mod_eq_of_lt (s.get_lt Reg.OTA.ROUND.number)
    · rfl
  · show v.get Reg.OTA.ROUND.windows = _
    rw [hv, State.firstScheduleRegs, State.get_put_elsewhere _ (by decide), State.get_put_same _ (by decide)]
    rfl
  · rw [State.firstSchedule, hota]
  · show v.out = s.out
    rw [hv]
    rfl
  · show v.now = s.now
    rw [hv]
    rfl

theorem State.scheduleTaken_of_other {s : State} {first : Nat} (hf : first ≠ 0) {round : Nat}
    (h : s.ota.active = false ∨ round % 256 ≠ s.get Reg.OTA.ROUND.number % 256) (period : Nat) (windows : List OtaWindow) :
    s.scheduleTaken round first period windows = s := by
  refine (State.scheduleTaken_pos hf ..).trans (if_pos ?_)
  rcases h with h | h <;> simp [h]

/-- The schedule of the RETRY windows (R491). -/
theorem State.scheduleTaken_retry {s : State} {first : Nat} (hf : first ≠ 0) {round : Nat} (hact : s.ota.active = true)
    (hround : round % 256 = s.get Reg.OTA.ROUND.number % 256) (period : Nat) (windows : List OtaWindow) :
    ∃ u, s.scheduleTaken round first period windows = u ∧ u.ota.retryKnown = true ∧
      (u.ota.windows.map fun e => e.2.2) = (s.ota.windows.map fun e => e.2.2) ++ windows ∧
      u.get Reg.OTA.ROUND.windows = (s.get Reg.OTA.ROUND.windows + windows.length) % 65536 ∧
      u.get Reg.OTA.STATUS.state = (if windows = [] then 4 else s.get Reg.OTA.STATUS.state) := by
  obtain ⟨v, hv⟩ : ∃ v, v = (s.addTo Reg.OTA.ROUND.windows windows.length).moreWindows (numberedWindows first (s.schedulePeriod period) windows) :=
    ⟨_, rfl⟩
  have hno : ¬ (!s.ota.active || round % 256 != s.get Reg.OTA.ROUND.number % 256) = true := by simp [hact, hround]
  have heq : s.scheduleTaken round first period windows = if windows.isEmpty = true then v.put Reg.OTA.STATUS.state 4 else v := by
    rw [hv]
    exact (State.scheduleTaken_pos hf ..).trans (if_neg hno)
  have hwindows : (v.ota.windows.map fun e => e.2.2) = (s.ota.windows.map fun e => e.2.2) ++ windows := by
    rw [hv, State.moreWindows, List.map_append, map_numberedWindows]
    rfl
  have hcount : v.get Reg.OTA.ROUND.windows = (s.get Reg.OTA.ROUND.windows + windows.length) % 65536 := by
    rw [hv]
    exact State.get_addTo_same s (by decide) _
  have hstate : v.get Reg.OTA.STATUS.state = s.get Reg.OTA.STATUS.state := by
    rw [hv]
    exact State.get_put_elsewhere s (by decide) _
  cases windows with
  | nil =>
    exact ⟨_, heq, by show v.ota.retryKnown = true; rw [hv]; rfl, hwindows, (State.get_put_elsewhere v (by decide) _).trans hcount, State.get_put_same v (by decide) _⟩
  | cons w l =>
    exact ⟨_, heq, by rw [if_neg (by simp), hv]; rfl, hwindows, hcount, hstate⟩

theorem length_roundWindows (s : State) : s.roundWindows.length = 8 + s.burstCount s.landingCount := by
  simp only [State.roundWindows, List.length_append, List.length_map, List.length_range]

theorem State.childPorts_of_ports {s u : State} (h : ∀ n < 4, u.get (Reg.STAIR.PORT_STATUS.state n) = s.get (Reg.STAIR.PORT_STATUS.state n) ∧
    u.get (Reg.STAIR.PORT_STATUS.use n) = s.get (Reg.STAIR.PORT_STATUS.use n)) : u.childPorts = s.childPorts := by
  refine List.filter_congr fun n hn => ?_
  obtain ⟨hstate, huse⟩ := h n (List.mem_range.1 hn)
  rw [State.sUp, State.sUp, State.sState, State.sState, State.sUse, State.sUse, hstate, huse]

theorem State.sendDown_of_childless {s : State} (h : s.childPorts = []) (m : StairMsg) : s.sendDown m = s := by
  rw [State.sendDown, h]
  rfl

/-- A new round of which nothing is known yet. -/
def State.roundCleared (s : State) : State :=
  { s.bump Reg.OTA.ROUND.number with ota := { s.ota with reports := [], missed := [], staleAt := none, lastStart := s.now } }

theorem State.beginRound_eq (s : State) :
    s.beginRound = (s.roundCleared.sendDown (.ota (.schedule (s.roundCleared.get Reg.OTA.ROUND.number % 256) 0
      (ceilDiv (s.roundCleared.arrayNow + ticksOfMs 2) s.roundCleared.otaPeriod % 2 ^ 32) s.roundWindows))).scheduleTaken
        (s.roundCleared.get Reg.OTA.ROUND.number % 256) 0 (ceilDiv (s.roundCleared.arrayNow + ticksOfMs 2) s.roundCleared.otaPeriod) s.roundWindows := rfl

/-- A round that begins (R476 to R478). -/
theorem State.beginRound_spec {s : State} (htop : s.isTop = true) (hmode : s.get Reg.OTA.CTL.mode ≠ 0) (hrun : s.running s.otaCarrier = true) :
    RoundBegun s s.beginRound := by
  obtain ⟨v, hv⟩ : ∃ v, v = s.roundCleared := ⟨_, rfl⟩
  have hvget {f : Fld} (hf : f.addr ≠ Reg.OTA.ROUND.number.addr) : v.get f = s.get f := by
    rw [hv]
    exact get_bump_elsewhere s (Ne.symm hf)
  have hvnum : v.get Reg.OTA.ROUND.number = (s.get Reg.OTA.ROUND.number + 1) % 65536 := by
    rw [hv]
    exact State.get_bump_same s (by decide)
  obtain ⟨w, hw⟩ : ∃ w, w = v.sendDown (.ota (.schedule (v.get Reg.OTA.ROUND.number % 256) 0
      (ceilDiv (v.arrayNow + ticksOfMs 2) v.otaPeriod % 2 ^ 32) s.roundWindows)) := ⟨_, rfl⟩
  have hsend : Sends 16 v w := by
    rw [hw]
    exact sends_sendDown v _
  have hcar : w.otaCarrier = s.otaCarrier := (hsend.get (by decide)).trans (hvget (by decide))
  have hcar8 := s.otaCarrier_lt
  have hcarV : v.running s.otaCarrier = s.running s.otaCarrier := by
    have hget : v.get (Reg.CARRIER.STATUS.state s.otaCarrier) = s.get (Reg.CARRIER.STATUS.state s.otaCarrier) := hvget (by dsimp only; omega)
    rw [State.running, State.running, State.carState, State.carState, hget]
  have htopV : w.isTop = true := by
    rw [hsend.isTop, hv]
    exact htop
  obtain ⟨u, hu, hstate, hnum, hwin, hota, hout, hnow⟩ := State.scheduleTaken_first (s := w)
    (by rw [hsend.get (by decide), hvget (by decide)]; exact hmode) (by rw [hcar, hsend.running hcar8, hcarV]; exact hrun)
    (v.get Reg.OTA.ROUND.number % 256) (ceilDiv (v.arrayNow + ticksOfMs 2) v.otaPeriod) s.roundWindows
  have heq : s.beginRound = u := by
    rw [← hu, hw, hv, State.beginRound_eq]
  rw [heq]
  refine ⟨hstate, by rw [hnum, if_pos htopV, hsend.get (by decide), hvnum], by rw [hwin, length_roundWindows], by rw [hota],
    by rw [hota]; exact map_numberedWindows .., ?_, ?_, ?_, fun hchild => ?_⟩
  · rw [hota, hsend.ota, hv]
    rfl
  · rw [hota, hsend.ota, hv]
    rfl
  · rw [hota, hnow, hsend.ota, hsend.now, hv]
    rfl
  · have hchildV : v.childPorts = [] := by
      rw [← hchild, hv]
      exact State.childPorts_of_ports fun n hn => ⟨get_bump_elsewhere s (by dsimp only; omega), get_bump_elsewhere s (by dsimp only; omega)⟩
    rw [hout, hw, State.sendDown_of_childless hchildV, hv]
    rfl


/-! ### Starts -/

/-- May a round begin now, but for the windows of its carrier (R475, R477, R495)? -/
theorem State.startCause_eq {s : State} (htop : s.isTop = true) (hstate : s.get Reg.OTA.STATUS.state = 0) (hstaged : s.get Reg.OTA.STATUS.staged = 0)
    (hpower : s.power = powerActive ∨ s.power = powerQuiet) :
    s.startCause = if s.get Reg.OTA.CTL.mode = 0 then 5 else if s.treeState != treeFormed then 4 else if !s.windowOk then 3 else 0 := by
  have hbusy : ¬ (s.get Reg.OTA.STATUS.state != 0 || s.flag Reg.OTA.STATUS.staged || !(s.power == powerActive || s.power == powerQuiet)) = true := by
    rw [hstate, flag_eq_false hstaged]
    rcases hpower with h | h <;> rw [h] <;> decide
  exact (if_neg (by rw [htop]; decide)).trans (if_neg hbusy)

theorem State.startCause_of_busy {s : State} (htop : s.isTop = true) (h : s.get Reg.OTA.STATUS.state ≠ 0 ∨ s.get Reg.OTA.STATUS.staged = 1) :
    s.startCause = 2 := by
  refine (if_neg (by rw [htop]; decide)).trans (if_pos ?_)
  rcases h with h | h
  · simp [h]
  · simp [(State.flag_iff ..).2 (show s.get Reg.OTA.STATUS.staged ≠ 0 by rw [h]; decide)]

theorem State.startRound_of_cause {s : State} {c : Nat} (h : s.startCause = c) (hc : c ≠ 0) : s.startRound = s.put Reg.OTA.STATUS.cause c := by
  rw [State.startRound, h]
  exact if_neg hc

theorem State.running_of_windowOk {s : State} (h : s.windowOk = true) : s.running s.otaCarrier = true := by
  unfold State.windowOk at h
  rw [Bool.and_eq_true, Bool.and_eq_true] at h
  exact h.1.1

/-- Where a round may begin, a start begins one (R477). -/
theorem State.startRound_of_mayStart {s : State} {t : Nat} (h : s.mayStart t) : RoundBegun s (s.atTime t).startRound := by
  obtain ⟨htop, hstate, hstaged, hpower, hmode, htree, hok⟩ := h
  have hcause : (s.atTime t).startCause = 0 := by
    rw [State.startCause_eq (s := s.atTime t) htop hstate hstaged hpower, State.get_atTime, if_neg hmode, if_neg (by rw [show (s.atTime t).treeState = _ from htree]; decide),
      if_neg (by rw [hok]; decide)]
  have heq : (s.atTime t).startRound = (s.atTime t).beginRound := by
    rw [State.startRound, hcause]
    exact if_pos rfl
  rw [heq]
  exact State.beginRound_spec (s := s.atTime t) htop hmode (State.running_of_windowOk hok)

theorem otaRounds : Claim.OtaRounds := by
  intro s t ch round first period windows
  refine ⟨fun hr => ⟨fun hmay => ⟨_, Gives.of_eq rfl (State.hostCmd_of_reaches hr _), State.startRound_of_mayStart hmay⟩, fun htop => ?_, fun htop hbusy => ?_,
    fun htop hstate hstaged hpower => ⟨fun hmode => ?_, fun hmode htree => ?_, fun hmode htree hok => ?_⟩,
    Gives.of_eq rfl (State.hostCmd_of_reaches hr _)⟩, fun hno => ?_, fun hstale hint => ?_, fun hmay hmode hdue => ?_, fun hoff => ?_, fun hmode hrun htop => ?_,
    fun hf => ⟨fun hother => ?_, fun hact hround => ?_⟩⟩
  · exact Gives.of_eq rfl ((State.hostCmd_of_reaches hr _).trans (State.startRound_of_cause (if_pos (by rw [show (s.atTime t).isTop = _ from htop]; rfl)) (by decide)))
  · exact Gives.of_eq rfl ((State.hostCmd_of_reaches hr _).trans (State.startRound_of_cause (State.startCause_of_busy (s := s.atTime t) htop hbusy) (by decide)))
  · refine Gives.of_eq rfl ((State.hostCmd_of_reaches hr _).trans (State.startRound_of_cause ?_ (by decide)))
    rw [State.startCause_eq (s := s.atTime t) htop hstate hstaged hpower, State.get_atTime, if_pos hmode]
  · refine Gives.of_eq rfl ((State.hostCmd_of_reaches hr _).trans (State.startRound_of_cause ?_ (by decide)))
    rw [State.startCause_eq (s := s.atTime t) htop hstate hstaged hpower, State.get_atTime, if_neg hmode, if_pos (bne_iff_ne.2 (show (s.atTime t).treeState ≠ _ from htree))]
  · refine Gives.of_eq rfl ((State.hostCmd_of_reaches hr _).trans (State.startRound_of_cause ?_ (by decide)))
    rw [State.startCause_eq (s := s.atTime t) htop hstate hstaged hpower, State.get_atTime, if_neg hmode, if_neg (by rw [show (s.atTime t).treeState = _ from htree]; decide),
      if_pos (by rw [hok]; rfl)]
  · refine Gives.of_eq rfl (if_neg ?_)
    rw [Bool.and_eq_true, Bool.and_eq_true, beq_iff_eq]
    rintro ⟨⟨h1, h2⟩, -⟩
    rcases hno with h | h
    · exact Bool.false_ne_true (h.symm.trans h1)
    · exact h h2
  · refine Gives.of_eq rfl (if_neg ?_)
    rw [Bool.and_eq_true, Bool.or_eq_true, Bool.and_eq_true (a := _ != _), bne_iff_ne, decide_eq_true_eq]
    rintro ⟨-, ⟨h1, h2⟩ | h⟩
    · rcases hint with h0 | hlt
      · exact h1 h0
      · exact absurd h2 (Nat.not_le.2 hlt)
    · rw [show (s.atTime t).ota.staleAt = none from hstale] at h
      exact Bool.false_ne_true h
  · refine ⟨_, Gives.of_eq rfl (if_pos ?_), State.startRound_of_mayStart hmay⟩
    rw [Bool.and_eq_true, Bool.and_eq_true, beq_iff_eq, Bool.or_eq_true, Bool.and_eq_true, bne_iff_ne, decide_eq_true_eq]
    refine ⟨⟨hmay.1, hmode⟩, ?_⟩
    rcases hdue with h | h
    · exact .inr (Option.isSome_iff_ne_none.2 h)
    · exact .inl h
  · have hsend := sends_sendDown (s.atTime t) (.ota (.schedule round 0 period windows))
    have hcar : ((s.atTime t).sendDown (.ota (.schedule round 0 period windows))).otaCarrier = s.otaCarrier := hsend.get (by decide)
    refine Gives.of_eq rfl (State.scheduleTaken_of_off ?_ ..)
    rw [hcar, hsend.get (by decide), hsend.running s.otaCarrier_lt]
    exact hoff
  · have hsend := sends_sendDown (s.atTime t) (.ota (.schedule round 0 period windows))
    have hcar : ((s.atTime t).sendDown (.ota (.schedule round 0 period windows))).otaCarrier = s.otaCarrier := hsend.get (by decide)
    obtain ⟨u, hu, hstate, hnum, hwin, hota, -, -⟩ := State.scheduleTaken_first (s := (s.atTime t).sendDown (.ota (.schedule round 0 period windows)))
      (by rw [hsend.get (by decide)]; exact hmode) (by rw [hcar, hsend.running s.otaCarrier_lt]; exact hrun) round period windows
    refine ⟨u, Gives.of_eq rfl hu, hstate, ?_, hwin, by rw [hota], by rw [hota], by rw [hota], by rw [hota]; exact map_numberedWindows_zero ..⟩
    rw [hnum, if_neg]
    rw [hsend.isTop, show (s.atTime t).isTop = _ from htop]
    exact Bool.false_ne_true
  · have hsend := sends_sendDown (s.atTime t) (.ota (.schedule round first period windows))
    refine Gives.of_eq rfl (State.scheduleTaken_of_other hf ?_ ..)
    rw [hsend.ota, hsend.get (by decide)]
    exact hother
  · have hsend := sends_sendDown (s.atTime t) (.ota (.schedule round first period windows))
    obtain ⟨u, hu, hknown, hwin, -, hstate⟩ := State.scheduleTaken_retry (s := (s.atTime t).sendDown (.ota (.schedule round first period windows))) hf
      (round := round)
      (by rw [hsend.ota]; exact hact) (by rw [hsend.get (by decide)]; exact hround) period windows
    exact ⟨u, Gives.of_eq rfl hu, hknown, by rw [hwin, hsend.ota, State.ota_atTime], by rw [hstate, hsend.get (by decide), State.get_atTime]⟩

/-! ### A window begins -/

/-- A window under way: `took` says that the landing takes part in it. -/
def State.windowOpen (s : State) (number kind : Nat) (took : Bool) : State :=
  { s.put Reg.OTA.STATUS.state (kind + 1) with ota := { s.ota with now := some (number, took) } }

/-- What a landing that takes part sends in a window that began at `a` (R480 to R482). -/
def State.windowSends (s : State) (a number : Nat) (w : OtaWindow) : State :=
  if w.kind = 0 then (({ s with trimsTone := s.trims } : State).otaSends (loopAir a number)).emit (.otaLoop number)
  else if w.senders.contains s.landing then
    (s.otaSends (burstAir a)).emit (.otaBurst number (s.get Reg.OTA.BEAM.entry) (s.get Reg.OTA.CTL.level)
      (burstHeader s.landing number (s.get Reg.OTA.ROUND.number) (s.get Reg.STAIR.ARRAY_TAG.word)) (a + ticksOfUs 2)
      (burstWave (burstHeader s.landing number (s.get Reg.OTA.ROUND.number) (s.get Reg.STAIR.ARRAY_TAG.word))))
  else s

theorem State.windowBegins_eq (s : State) (a number : Nat) (w : OtaWindow) :
    s.windowBegins a number w =
      if (!(s.shedding shedOta).isEmpty || !s.carActive s.otaCarrier) = true then
        s.windowOpen number w.kind !(!(s.shedding shedOta).isEmpty || !s.carActive s.otaCarrier)
      else (s.windowOpen number w.kind !(!(s.shedding shedOta).isEmpty || !s.carActive s.otaCarrier)).windowSends a number w := rfl

theorem State.windowBegins_of_skip {s : State} (h : s.shedding shedOta ≠ [] ∨ s.carActive s.otaCarrier = false) (a number : Nat) (w : OtaWindow) :
    s.windowBegins a number w = s.windowOpen number w.kind false := by
  have hskip : (!(s.shedding shedOta).isEmpty || !s.carActive s.otaCarrier) = true := by rcases h with h | h <;> simp [h]
  rw [State.windowBegins_eq, hskip]
  rfl

theorem State.windowBegins_of_on {s : State} (hshed : s.shedding shedOta = []) (hact : s.carActive s.otaCarrier = true) (a number : Nat) (w : OtaWindow) :
    s.windowBegins a number w = (s.windowOpen number w.kind true).windowSends a number w := by
  rw [State.windowBegins_eq, hshed, hact]
  rfl

theorem State.get_state_windowOpen (s : State) (number kind : Nat) (took : Bool) :
    (s.windowOpen number kind took).get Reg.OTA.STATUS.state = (kind + 1) % 16 := s.get_put_same (by decide) _

theorem sameWords_windowOpen (s : State) (number kind : Nat) (took : Bool) :
    SameWords s (s.windowOpen number kind took) [Reg.OTA.STATUS.word.addr] := fun a ha =>
  s.word_put_other (f := Reg.OTA.STATUS.state) (fun h => ha (by rw [← h]; exact List.mem_singleton_self _)) _

theorem State.regs_windowSends (s : State) (a number : Nat) (w : OtaWindow) : (s.windowSends a number w).regs = s.regs := by
  unfold State.windowSends
  split_ifs <;> rfl

theorem State.mem_windowSends (s : State) (a number : Nat) (w : OtaWindow) : (s.windowSends a number w).mem = s.mem := by
  unfold State.windowSends
  split_ifs <;> rfl

theorem State.now_windowSends (s : State) (a number : Nat) (w : OtaWindow) : (s.windowSends a number w).ota.now = s.ota.now := by
  unfold State.windowSends
  split_ifs <;> rfl

theorem State.out_windowSends (s : State) (a number : Nat) (w : OtaWindow) :
    (s.windowSends a number w).out = s.out ++ (if w.kind = 0 then [.otaLoop number] else if s.landing ∈ w.senders then
      [.otaBurst number (s.get Reg.OTA.BEAM.entry) (s.get Reg.OTA.CTL.level)
        (burstHeader s.landing number (s.get Reg.OTA.ROUND.number) (s.get Reg.STAIR.ARRAY_TAG.word)) (a + ticksOfUs 2)
        (burstWave (burstHeader s.landing number (s.get Reg.OTA.ROUND.number) (s.get Reg.STAIR.ARRAY_TAG.word)))] else []) := by
  unfold State.windowSends
  by_cases h0 : w.kind = 0
  · rw [if_pos h0, if_pos h0]
    rfl
  · rw [if_neg h0, if_neg h0]
    by_cases hs : s.landing ∈ w.senders
    · rw [if_pos hs, if_pos (List.contains_iff_mem.2 hs)]
      rfl
    · rw [if_neg hs, if_neg (mt List.contains_iff_mem.1 hs), List.append_nil]

theorem State.air_windowSends (s : State) (a number : Nat) (w : OtaWindow) :
    (s.windowSends a number w).ota.air = if w.kind = 0 then some (loopAir a number) else if s.landing ∈ w.senders then some (burstAir a)
      else s.ota.air := by
  unfold State.windowSends
  by_cases h0 : w.kind = 0
  · rw [if_pos h0, if_pos h0]
    rfl
  · rw [if_neg h0, if_neg h0]
    by_cases hs : s.landing ∈ w.senders
    · rw [if_pos hs, if_pos (List.contains_iff_mem.2 hs)]
      rfl
    · rw [if_neg hs, if_neg (mt List.contains_iff_mem.1 hs)]

theorem length_burstWave (header : Nat) : (burstWave header).length = 1536 := by
  have hbits : (((List.range 64).map fun k => List.replicate 4 (if header.testBit (63 - k) then burstSample 0 else (burstSample 0).neg)).flatten).length
      = 256 := by
    rw [List.length_flatten, List.map_map]
    exact (congrArg List.sum (List.map_congr_left (g := fun _ => 4) fun _ _ => List.length_replicate)).trans rfl
  have hperiods (n : Nat) : ((List.replicate n ((List.range 128).map burstSample)).flatten).length = n * 128 := by
    rw [List.length_flatten, List.map_replicate, List.length_map, List.length_range, List.sum_replicate, smul_eq_mul]
  exact (List.length_append ..).trans (by rw [List.length_append, hperiods, hperiods, hbits])

/-! ### A LOOP window ends -/

/-- Only the factors in hand and OTA.STATUS differ. -/
structure FactorsOnly (s u : State) : Prop where
  shape : ∃ regs tau rho, u = { s with regs := regs, ota := { s.ota with newTau := tau, newRho := rho } }
  words : SameOff (· = Reg.OTA.STATUS.word.addr) s u
  tau : u.ota.newTau.length = s.ota.newTau.length
  rho : u.ota.newRho.length = s.ota.newRho.length

theorem FactorsOnly.refl (s : State) : FactorsOnly s s := ⟨⟨_, _, _, rfl⟩, .refl s, rfl, rfl⟩

theorem FactorsOnly.trans {s u v : State} (hsu : FactorsOnly s u) (huv : FactorsOnly u v) : FactorsOnly s v := by
  refine ⟨?_, hsu.words.trans huv.words, huv.tau.trans hsu.tau, huv.rho.trans hsu.rho⟩
  obtain ⟨_, _, _, rfl⟩ := hsu.shape
  obtain ⟨_, _, _, rfl⟩ := huv.shape
  exact ⟨_, _, _, rfl⟩

theorem FactorsOnly.get {s u : State} (h : FactorsOnly s u) {f : Fld} (hf : f.addr ≠ Reg.OTA.STATUS.word.addr) : u.get f = s.get f := h.words.get hf

/-- Whether a path takes part does not depend on the factors in hand. -/
theorem FactorsOnly.loopPath {s u : State} (h : FactorsOnly s u) (a : Nat) {p : Nat} (hp : p < 64) : u.loopPath a p = s.loopPath a p := by
  have hbank : bankOf p < 2 := by unfold bankOf; omega
  have hgroup : groupOf p < 8 := by unfold groupOf; omega
  have hpath : u.get (Reg.PATH.STATUS.state p) = s.get (Reg.PATH.STATUS.state p) := h.get (by dsimp only; omega)
  have hlo : u.get (Reg.CLOCK.LO_STATUS.state (bankOf p)) = s.get (Reg.CLOCK.LO_STATUS.state (bankOf p)) := h.get (by dsimp only; omega)
  have hfed : u.get (Reg.CLOCK.LO_STATUS.crossfed (bankOf p)) = s.get (Reg.CLOCK.LO_STATUS.crossfed (bankOf p)) := h.get (by dsimp only; omega)
  have hctl : u.get (Reg.GROUP.BLANK_CTL.actions (groupOf p)) = s.get (Reg.GROUP.BLANK_CTL.actions (groupOf p)) := h.get (by dsimp only; omega)
  have hradio : u.radio = s.radio := by
    obtain ⟨_, _, _, rfl⟩ := h.shape
    rfl
  have hnow : u.arrayNow = s.arrayNow := by
    obtain ⟨_, _, _, rfl⟩ := h.shape
    rfl
  unfold State.loopPath State.blanked State.blankOf State.inService State.pathState State.loState State.crossfed State.bank State.blankMet State.flag
  rw [hpath, hlo, hfed, hctl, hradio, hnow]

/-- What a LOOP window makes of one path. -/
def State.loopFactor (s : State) (a : Nat) (factors : List (Nat × Word × Word)) (p : Nat) : State :=
  match assoc? factors p with
  | some f => if s.loopPath a p then { s with ota := { s.ota with newTau := s.ota.newTau.set p f.1, newRho := s.ota.newRho.set p f.2 } }
              else s.put Reg.OTA.STATUS.loop_fail 1
  | none => s.put Reg.OTA.STATUS.loop_fail 1

theorem State.loopFactors_eq (s : State) (a number : Nat) (factors : List (Nat × Word × Word)) :
    s.loopFactors a number factors = s.forEach ((List.range 8).map fun g => 8 * g + number) fun p s => s.loopFactor a factors p := rfl

theorem factorsOnly_put_fail (s : State) : FactorsOnly s (s.put Reg.OTA.STATUS.loop_fail 1) :=
  ⟨⟨_, _, _, rfl⟩, (SameOff.refl s).put (A := (· = Reg.OTA.STATUS.word.addr)) (f := Reg.OTA.STATUS.loop_fail) rfl _, rfl, rfl⟩

theorem factorsOnly_loopFactor (s : State) (a : Nat) (factors : List (Nat × Word × Word)) (p : Nat) : FactorsOnly s (s.loopFactor a factors p) := by
  unfold State.loopFactor
  split
  next f _ =>
    split
    · exact ⟨⟨_, _, _, rfl⟩, .of_regs rfl, List.length_set .., List.length_set ..⟩
    · exact factorsOnly_put_fail s
  next => exact factorsOnly_put_fail s

theorem State.loopFactor_of_fail {s : State} {a p : Nat} (h : s.loopPath a p = false) (factors : List (Nat × Word × Word)) :
    s.loopFactor a factors p = s.put Reg.OTA.STATUS.loop_fail 1 := by
  unfold State.loopFactor
  split
  next => exact if_neg (by rw [h]; exact Bool.false_ne_true)
  next => rfl

theorem State.loopFactor_keeps_fail {s : State} (h : s.get Reg.OTA.STATUS.loop_fail = 1) (a : Nat) (factors : List (Nat × Word × Word)) (p : Nat) :
    (s.loopFactor a factors p).get Reg.OTA.STATUS.loop_fail = 1 := by
  have hput : (s.put Reg.OTA.STATUS.loop_fail 1).get Reg.OTA.STATUS.loop_fail = 1 := s.get_put_same (by decide) _
  unfold State.loopFactor
  split
  next f _ =>
    split
    · exact h
    · exact hput
  next => exact hput

theorem State.loopFactor_keeps_other {s : State} {p q : Nat} (hpq : q ≠ p) (a : Nat) (factors : List (Nat × Word × Word)) :
    (s.loopFactor a factors q).ota.newTau.getD p unitCorr = s.ota.newTau.getD p unitCorr ∧
      (s.loopFactor a factors q).ota.newRho.getD p unitCorr = s.ota.newRho.getD p unitCorr := by
  unfold State.loopFactor
  split
  next f _ =>
    split
    · simp [List.getD_eq_getElem?_getD, List.getElem?_set_ne hpq]
    · exact ⟨rfl, rfl⟩
  next => exact ⟨rfl, rfl⟩

/-- The paths that a LOOP window calibrates. -/
theorem nodup_loopPaths (number : Nat) : ((List.range 8).map fun g => 8 * g + number).Nodup :=
  List.Nodup.map (fun a b (h : 8 * a + number = 8 * b + number) => by omega) List.nodup_range

/-- The factors of a LOOP window (R472, R479). -/
theorem State.loopFactors_spec (s : State) (a : Nat) {number : Nat} (hn : number < 8) (factors : List (Nat × Word × Word))
    (htau : s.ota.newTau.length = 64) (hrho : s.ota.newRho.length = 64) :
    FactorsOnly s (s.loopFactors a number factors) ∧ ∀ g, g < 8 →
      (∀ f, assoc? factors (8 * g + number) = some f → s.loopPath a (8 * g + number) = true →
        (s.loopFactors a number factors).ota.newTau.getD (8 * g + number) unitCorr = f.1 ∧
        (s.loopFactors a number factors).ota.newRho.getD (8 * g + number) unitCorr = f.2) ∧
      (s.loopPath a (8 * g + number) = false → (s.loopFactors a number factors).get Reg.OTA.STATUS.loop_fail = 1) := by
  rw [State.loopFactors_eq]
  refine ⟨State.forEach_induct (P := FactorsOnly s) (.refl s) fun p _ x hx => hx.trans (factorsOnly_loopFactor ..), fun g hg => ⟨fun f hf hpath => ?_,
    fun hpath => ?_⟩⟩
  · refine State.forEach_at (A := FactorsOnly s) (B := fun u => u.ota.newTau.getD (8 * g + number) unitCorr = f.1 ∧
      u.ota.newRho.getD (8 * g + number) unitCorr = f.2) (nodup_loopPaths number) (List.mem_map.2 ⟨g, List.mem_range.2 hg, rfl⟩) (.refl s)
      (fun p _ _ x hx => hx.trans (factorsOnly_loopFactor ..)) (fun x hx => ?_) fun q _ hq x hx => ?_
    · have hlt : 8 * g + number < x.ota.newTau.length := by rw [hx.tau, htau]; omega
      have hlt' : 8 * g + number < x.ota.newRho.length := by rw [hx.rho, hrho]; omega
      have heq : x.loopFactor a factors (8 * g + number) = { x with ota := { x.ota with
          newTau := x.ota.newTau.set (8 * g + number) f.1, newRho := x.ota.newRho.set (8 * g + number) f.2 } } := by
        rw [State.loopFactor, hf]
        exact if_pos (by rw [hx.loopPath a (by omega)]; exact hpath)
      rw [heq]
      simp [List.getD_eq_getElem?_getD, List.getElem?_set_self hlt, List.getElem?_set_self hlt']
    · rw [(State.loopFactor_keeps_other hq a factors).1, (State.loopFactor_keeps_other hq a factors).2]
      exact hx
  · refine State.forEach_at (A := FactorsOnly s) (B := fun u => u.get Reg.OTA.STATUS.loop_fail = 1) (nodup_loopPaths number)
      (List.mem_map.2 ⟨g, List.mem_range.2 hg, rfl⟩) (.refl s) (fun p _ _ x hx => hx.trans (factorsOnly_loopFactor ..)) (fun x hx => ?_)
      fun q _ _ x hx => State.loopFactor_keeps_fail hx ..
    rw [State.loopFactor_of_fail ((hx.loopPath a (by omega)).trans hpath)]
    exact x.get_put_same (by decide) _

/-! ### The last BURST window ends -/

/-- The scheduled senders of the BURST windows, with their windows. -/
def burstSenders (windows : List (Nat × Nat × OtaWindow)) : List (Nat × Nat) :=
  windows.foldl (fun l e => if e.2.2.kind = 1 then l ++ e.2.2.senders.map fun x => (e.1, x) else l) []

theorem mem_burstSenders {windows : List (Nat × Nat × OtaWindow)} {e : Nat × Nat × OtaWindow} (he : e ∈ windows) (hk : e.2.2.kind = 1) {x : Nat}
    (hx : x ∈ e.2.2.senders) : (e.1, x) ∈ burstSenders windows := by
  have hgen : ∀ (l : List (Nat × Nat × OtaWindow)) (acc : List (Nat × Nat)), ((e.1, x) ∈ acc ∨ e ∈ l) → (e.1, x) ∈ l.foldl (fun l (e : Nat × Nat × OtaWindow) =>
      if e.2.2.kind = 1 then l ++ e.2.2.senders.map fun x => (e.1, x) else l) acc := by
    intro l
    induction l with
    | nil => exact fun acc h => h.resolve_right (List.not_mem_nil)
    | cons d l ih =>
      intro acc h
      rw [List.foldl_cons]
      refine ih _ ?_
      rcases h with h | h
      · exact .inl (by split; exacts [List.mem_append_left _ h, h])
      · rcases List.mem_cons.1 h with rfl | h
        · rw [if_pos hk]
          exact .inl (List.mem_append_right _ (List.mem_map.2 ⟨x, hx, rfl⟩))
        · exact .inr h
  exact hgen windows [] (.inr he)

/-- Senders that the top has to miss. -/
def State.lostSenders (s : State) : List (Nat × Nat) :=
  (burstSenders s.ota.windows).filter fun e => e.2 != s.landing && !s.ota.accepted.contains e.2

theorem State.sendMissed_of_top {s : State} (h : s.isTop = true) :
    s.sendMissed = { s with ota := { s.ota with missed := s.ota.missed ++ s.lostSenders.map fun e => (s.landing, e.2) } } := by
  have hgen : ∀ (l : List (Nat × Nat)) (u : State), u.isTop = true → (u.forEach l fun e s' =>
      if s'.isTop then s'.topMissed s.landing e.2 else s'.sendUp (.ota (.missed (s.get Reg.OTA.ROUND.number % 256) e.1 s.landing e.2))) =
      { u with ota := { u.ota with missed := u.ota.missed ++ l.map fun e => (s.landing, e.2) } } := by
    intro l
    induction l with
    | nil =>
      intro u _
      rw [State.forEach, List.foldl_nil, List.map_nil, List.append_nil]
    | cons e l ih =>
      intro u hu
      rw [State.forEach, List.foldl_cons, ← State.forEach, if_pos hu, ih (u.topMissed s.landing e.2) hu, State.topMissed, List.map_cons, List.append_assoc]
      rfl
  exact hgen s.lostSenders s h

/-! ### Windows take place -/

/-- A scheduled window begins or ends, where its time has come. -/
def State.windowStep (s : State) (span : Nat × Nat) (number : Nat) (w : OtaWindow) (ends : Bool) (factors : List (Nat × Word × Word)) : State :=
  if !s.ota.active || s.arrayNow < (if ends then span.2 else span.1) then s
  else if ends then s.windowEnds span.1 number w factors
  else if s.arrayNow < span.2 then s.windowBegins span.1 number w
  else s

theorem gives_otaWindow {s : State} {number period : Nat} {w : OtaWindow} {span : Nat × Nat}
    (hfind : (s.ota.windows.find? fun e => e.1 == number) = some (number, period, w)) (hat : s.windowAt period = some span) (t : Nat) (ends : Bool)
    (factors : List (Nat × Word × Word)) : Gives (.otaWindow t number ends factors) s ((s.atTime t).windowStep span number w ends factors) := by
  refine Gives.of_eq rfl ?_
  rw [show ((s.atTime t).ota.windows.find? fun e => e.1 == number) = _ from hfind]
  dsimp only
  rw [show (s.atTime t).windowAt period = _ from hat]
  rfl

theorem otaWindow_of_none {s : State} {number : Nat} (h : (s.ota.windows.find? fun e => e.1 == number) = none) (t : Nat) (ends : Bool)
    (factors : List (Nat × Word × Word)) : Gives (.otaWindow t number ends factors) s (s.atTime t) := by
  refine Gives.of_eq rfl ?_
  rw [show ((s.atTime t).ota.windows.find? fun e => e.1 == number) = _ from h]

theorem otaWindow_of_idle {s : State} (h : s.ota.active = false) (t number : Nat) (ends : Bool)
    (factors : List (Nat × Word × Word)) : Gives (.otaWindow t number ends factors) s (s.atTime t) := by
  have hact : (s.atTime t).ota.active = false := h
  refine Gives.of_eq rfl ?_
  split
  · split
    · exact if_pos (by rw [hact]; rfl)
    · rfl
  · rfl

theorem State.windowStep_begins {s : State} (hact : s.ota.active = true) {span : Nat × Nat} (h1 : span.1 ≤ s.arrayNow) (h2 : s.arrayNow < span.2)
    (number : Nat) (w : OtaWindow) (factors : List (Nat × Word × Word)) :
    s.windowStep span number w false factors = s.windowBegins span.1 number w := by
  refine (if_neg ?_).trans ((if_neg Bool.false_ne_true).trans (if_pos h2))
  rw [hact, if_neg Bool.false_ne_true, decide_eq_false (Nat.not_lt.2 h1)]
  exact Bool.false_ne_true

theorem State.windowStep_ends {s : State} (hact : s.ota.active = true) {span : Nat × Nat} (h2 : span.2 ≤ s.arrayNow)
    (number : Nat) (w : OtaWindow) (factors : List (Nat × Word × Word)) :
    s.windowStep span number w true factors = s.windowEnds span.1 number w factors := by
  refine (if_neg ?_).trans (if_pos rfl)
  rw [hact, if_pos rfl, decide_eq_false (Nat.not_lt.2 h2)]
  exact Bool.false_ne_true

theorem State.windowStep_early {s : State} {span : Nat × Nat} {ends : Bool} (h : s.arrayNow < if ends then span.2 else span.1)
    (number : Nat) (w : OtaWindow) (factors : List (Nat × Word × Word)) : s.windowStep span number w ends factors = s :=
  if_pos (by rw [decide_eq_true h, Bool.or_true])

theorem State.windowStep_late {s : State} {span : Nat × Nat} (h : span.2 ≤ s.arrayNow) (number : Nat) (w : OtaWindow)
    (factors : List (Nat × Word × Word)) : s.windowStep span number w false factors = s := by
  unfold State.windowStep
  simp only [Bool.false_eq_true, if_false, if_neg (Nat.not_lt.2 h), ite_self]

/-- No window is in progress, and no capture. -/
def State.windowShut (s : State) : State := { s with ota := { s.ota with now := none, captures := [none, none] } }

/-- Does the landing take part in the window in progress, of this number? -/
def State.tookPart (s : State) (number : Nat) : Bool :=
  match s.ota.now with
  | some (n, yes) => n == number && yes
  | none => false

/-- Is the window of this number the last of its kind? -/
def State.lastWindow (s : State) (number kind : Nat) : Bool := !(s.ota.windows.any fun e => e.2.2.kind == kind && decide (number < e.1))

/-- The window has ended, its factors taken: the MISSED records, or the end of reception. -/
def State.windowOver (s : State) (number kind : Nat) : State :=
  if kind = 1 && s.lastWindow number 1 then s.sendMissed
  else if kind = 2 && s.lastWindow number 2 then s.put Reg.OTA.STATUS.state 4
  else if kind = 0 && number = 7 && s.lastWindow number 1 then s.put Reg.OTA.STATUS.state 4
  else s

theorem State.windowEnds_eq (s : State) (a number : Nat) (w : OtaWindow) (factors : List (Nat × Word × Word)) :
    s.windowEnds a number w factors =
      (if (decide (w.kind = 0) && s.tookPart number) = true then s.windowShut.loopFactors a number factors else s.windowShut).windowOver number w.kind := rfl

theorem State.tookPart_iff (s : State) (number : Nat) : s.tookPart number = true ↔ s.ota.now = some (number, true) := by
  unfold State.tookPart
  cases s.ota.now with
  | none => simp
  | some x =>
    obtain ⟨n, yes⟩ := x
    simp

theorem State.lastWindow_of_le {s : State} {number kind : Nat} (h : ∀ e ∈ s.ota.windows, e.2.2.kind = kind → e.1 ≤ number) :
    s.lastWindow number kind = true := by
  unfold State.lastWindow
  rw [Bool.not_eq_true', List.any_eq_false]
  intro e he hk
  rw [Bool.and_eq_true, beq_iff_eq, decide_eq_true_eq] at hk
  exact absurd hk.2 (Nat.not_lt.2 (h e he hk.1))

theorem State.windowOver_loop (s : State) (number : Nat) :
    s.windowOver number 0 = if number = 7 ∧ s.lastWindow number 1 = true then s.put Reg.OTA.STATUS.state 4 else s := by
  refine (if_neg (by simp)).trans ((if_neg (by simp)).trans ?_)
  by_cases h : number = 7 ∧ s.lastWindow number 1 = true
  · rw [if_pos h, if_pos (by rw [h.2, decide_eq_true h.1]; rfl)]
  · rw [if_neg h, if_neg]
    intro h'
    rw [Bool.and_eq_true, Bool.and_eq_true, decide_eq_true_eq, decide_eq_true_eq] at h'
    exact h ⟨h'.1.2, h'.2⟩

theorem otaWindows : Claim.OtaWindows := by
  intro s t number period w span factors begins ends hbegins hends
  subst hbegins hends
  refine ⟨fun hno b => ?_, fun hact hfind hat => ⟨fun hno => ?_, fun hno => ?_, fun hb hskip => ?_, fun hb hshed hcar => ?_,
    fun he hkind hnow htau hrho hn => ?_, fun he hkind hnow hn => ?_, fun he hkind hlast htop => ?_, fun he hkind hlast => ?_⟩⟩
  · rcases hno with hno | hno
    · exact otaWindow_of_none (List.find?_eq_none.2 fun e he h => hno e he (beq_iff_eq.1 h)) ..
    · exact otaWindow_of_idle hno ..
  · refine (gives_otaWindow hfind hat t false factors).of_eq ?_
    rcases Nat.lt_or_ge (s.atTime t).arrayNow span.1 with h | h
    · exact State.windowStep_early (by rw [if_neg Bool.false_ne_true]; exact h) ..
    · exact State.windowStep_late (Nat.not_lt.1 fun h2 => hno ⟨h, h2⟩) ..
  · exact (gives_otaWindow hfind hat t true factors).of_eq (State.windowStep_early (by rw [if_pos rfl]; exact Nat.not_le.1 hno) ..)
  · have heq := (State.windowStep_begins (s := s.atTime t) hact hb.1 hb.2 number w factors).trans (State.windowBegins_of_skip (s := s.atTime t) hskip ..)
    exact ⟨_, (gives_otaWindow hfind hat t false factors).of_eq heq, rfl, rfl, State.get_state_windowOpen ..⟩
  · obtain ⟨v, hv⟩ : ∃ v, v = (s.atTime t).windowOpen number w.kind true := ⟨_, rfl⟩
    have heq := (State.windowStep_begins (s := s.atTime t) hact hb.1 hb.2 number w factors).trans (State.windowBegins_of_on (s := s.atTime t) hshed hcar ..)
    rw [← hv] at heq
    have hget {f : Fld} (hf : Reg.OTA.STATUS.state.addr ≠ f.addr) : v.get f = s.get f := by
      rw [hv]
      exact State.get_put_elsewhere (s.atTime t) hf _
    have hland : v.landing = s.landing := by rw [hv]; rfl
    refine ⟨_, (gives_otaWindow hfind hat t false factors).of_eq heq, ?_, ?_, ?_, fun a ha => ?_, ?_, ?_⟩
    · rw [State.now_windowSends, hv]
      rfl
    · rw [State.get_of_regs (State.regs_windowSends ..), hv, State.get_state_windowOpen]
    · rw [State.mem_windowSends, hv]
      rfl
    · rw [State.word, State.regs_windowSends, hv]
      exact sameWords_windowOpen (s.atTime t) number w.kind true a ha
    · rintro header rfl
      refine ⟨length_burstWave _, ?_⟩
      rw [State.out_windowSends, hland, hget (by decide), hget (by decide), hget (by decide), hget (by decide), show v.out = s.out by rw [hv]; rfl]
    · rw [State.air_windowSends, hland, show v.ota.air = s.ota.air by rw [hv]; rfl]
      rfl
  · have htook : (decide (w.kind = 0) && (s.atTime t).tookPart number) = true := by
      rw [decide_eq_true hkind, (State.tookPart_iff (s.atTime t) number).2 hnow]
      rfl
    obtain ⟨v, hv⟩ : ∃ v, v = (s.atTime t).windowShut := ⟨_, rfl⟩
    have heq := (State.windowStep_ends (s := s.atTime t) hact he number w factors).trans ((s.atTime t).windowEnds_eq ..)
    rw [if_pos htook, hkind, State.windowOver_loop, ← hv] at heq
    obtain ⟨honly, hpaths⟩ := v.loopFactors_spec span.1 hn factors (by rw [hv]; exact htau) (by rw [hv]; exact hrho)
    obtain ⟨u, hu⟩ : ∃ u, u = v.loopFactors span.1 number factors := ⟨_, rfl⟩
    rw [← hu] at heq honly hpaths
    have hloop (p : Nat) : v.loopPath span.1 p = (s.atTime t).loopPath span.1 p := by rw [hv]; rfl
    have hnone : u.ota.now = none := by
      obtain ⟨_, _, _, h⟩ := honly.shape
      rw [h, hv]
      rfl
    have hout : u.out = s.out := by
      obtain ⟨_, _, _, h⟩ := honly.shape
      rw [h, hv]
      rfl
    have hget : (u.put Reg.OTA.STATUS.state 4).get Reg.OTA.STATUS.loop_fail = u.get Reg.OTA.STATUS.loop_fail := u.get_put_apart (by decide) (by decide) _
    refine ⟨_, (gives_otaWindow hfind hat t true factors).of_eq heq, ?_, ?_, fun g hg => ?_⟩
    · split
      exacts [hnone, hnone]
    · split
      exacts [hout, hout]
    · obtain ⟨hvalues, hfail⟩ := hpaths g hg
      rw [hloop] at hvalues hfail
      split
      · exact ⟨hvalues, fun h => hget.trans (hfail h)⟩
      · exact ⟨hvalues, hfail⟩
  · have htook : ¬ (decide (w.kind = 0) && (s.atTime t).tookPart number) = true := by
      rw [Bool.and_eq_true, State.tookPart_iff]
      exact fun h => hnow h.2
    have heq := (State.windowStep_ends (s := s.atTime t) hact he number w factors).trans ((s.atTime t).windowEnds_eq ..)
    rw [if_neg htook, hkind, State.windowOver_loop, if_neg fun h => hn h.1] at heq
    exact ⟨_, (gives_otaWindow hfind hat t true factors).of_eq heq, rfl, rfl⟩
  · have htook : ¬ (decide (w.kind = 0) && (s.atTime t).tookPart number) = true := by simp [hkind]
    have heq := (State.windowStep_ends (s := s.atTime t) hact he number w factors).trans ((s.atTime t).windowEnds_eq ..)
    have hlast' : ((s.atTime t).windowShut).lastWindow number 1 = true := State.lastWindow_of_le hlast
    have hover : (s.atTime t).windowShut.windowOver number 1 = (s.atTime t).windowShut.sendMissed := if_pos (by rw [hlast']; rfl)
    rw [if_neg htook, hkind, hover, State.sendMissed_of_top (s := (s.atTime t).windowShut) htop] at heq
    refine ⟨_, (gives_otaWindow hfind hat t true factors).of_eq heq, rfl, rfl, fun e hmem hk x hx hland hacc => ?_, fun x hacc hmiss => ?_⟩
    · refine List.mem_append_right _ (List.mem_map.2 ⟨(e.1, x), List.mem_filter.2 ⟨mem_burstSenders hmem hk hx, ?_⟩, rfl⟩)
      rw [Bool.and_eq_true, bne_iff_ne, Bool.not_eq_true', ← Bool.not_eq_true, List.contains_iff_mem]
      exact ⟨hland, hacc⟩
    · refine (List.mem_append.1 hmiss).resolve_right fun h => ?_
      obtain ⟨e, he, heq⟩ := List.mem_map.1 h
      have hnot := (List.mem_filter.1 he).2
      rw [Bool.and_eq_true, Bool.not_eq_true', ← Bool.not_eq_true, List.contains_iff_mem, (Prod.mk.inj heq).2] at hnot
      exact hnot.2 hacc
  · have htook : ¬ (decide (w.kind = 0) && (s.atTime t).tookPart number) = true := by simp [hkind]
    have heq := (State.windowStep_ends (s := s.atTime t) hact he number w factors).trans ((s.atTime t).windowEnds_eq ..)
    have hlast' : ((s.atTime t).windowShut).lastWindow number 2 = true := State.lastWindow_of_le hlast
    have hover : (s.atTime t).windowShut.windowOver number 2 = (s.atTime t).windowShut.put Reg.OTA.STATUS.state 4 :=
      (if_neg (by simp)).trans (if_pos (by rw [hlast']; rfl))
    rw [if_neg htook, hkind, hover] at heq
    exact ⟨_, (gives_otaWindow hfind hat t true factors).of_eq heq, State.get_put_same _ (by decide) _, rfl, rfl⟩

/-- Settles O50: rounds by the cases of a start and of a schedule, windows by what each kind does as it begins and ends. -/
theorem otaRoundWindows : Obligations.OtaRoundWindows := ⟨otaRounds, otaWindows⟩

end Sys2Proof.Machine
end

