-- ==== Sys2Proof/Proofs/OtaCaptures.lean ====
section
/-!
Over-the-air calibration: detections, captures, reports and the solution (R473, R483 to R495, R497).
-/

namespace Sys2Proof.Machine

open Sys2Proof

/-! ### Detections -/

/-- Correlator `k` begins a capture, and the other one's ends. -/
def State.captureBegun (s : State) (k : Nat) (c : OtaCapture) : State :=
  { s with ota := { s.ota with captures := (s.ota.captures.set k (some c)).set (1 - k) none } }

theorem State.captures_captureBegun {s : State} (hlen : s.ota.captures.length = 2) {k : Nat} (hk : k < 2) (c : OtaCapture) :
    (s.captureBegun k c).ota.captures.getD k none = some c ∧ (s.captureBegun k c).ota.captures.getD (1 - k) none = none := by
  have hne : 1 - k ≠ k := by omega
  unfold State.captureBegun
  dsimp only
  rw [List.getD_eq_getElem?_getD, List.getD_eq_getElem?_getD, List.getElem?_set_ne hne, List.getElem?_set_self (by omega),
    List.getElem?_set_self (by rw [List.length_set]; omega)]
  exact ⟨rfl, rfl⟩

/-- The capture that a detection of path `path` with a metric begins in a window. -/
def State.captureOf (s : State) (number path : Nat) (metric : Int) : OtaCapture :=
  { window := number, path := path, metric := metric, preambleEnd := s.arrayNow - 64 * 128 }

section

variable {s : State} {k path number : Nat} {metric : Int} {x : Nat × OtaWindow}

theorem State.detection_of_none (h : s.receivingWindow = none) (k path : Nat) (metric : Int) : s.detection k path metric = s := by
  unfold State.detection
  rw [h]

theorem State.detection_of_low (h : metric < 64 * (s.get Reg.OTA.DET_CTL.thresh : Nat)) (k path : Nat) : s.detection k path metric = s := by
  unfold State.detection
  split
  · rfl
  · exact if_pos h

theorem State.detection_of_busy (hwin : s.receivingWindow = some (number, x)) (hlow : 64 * (s.get Reg.OTA.DET_CTL.thresh : Nat) ≤ metric)
    (h : s.ota.captures.getD k none ≠ none) (path : Nat) : s.detection k path metric = s := by
  obtain ⟨c, hc⟩ := Option.ne_none_iff_exists'.1 h
  unfold State.detection
  rw [hwin]
  dsimp only
  rw [if_neg (Int.not_lt.2 hlow), hc]

theorem State.detection_of_idle (hwin : s.receivingWindow = some (number, x)) (hlow : 64 * (s.get Reg.OTA.DET_CTL.thresh : Nat) ≤ metric)
    (hk : s.ota.captures.getD k none = none) (hother : s.ota.captures.getD (1 - k) none = none) (path : Nat) :
    s.detection k path metric = s.captureBegun k (s.captureOf number path metric) := by
  unfold State.detection
  rw [hwin]
  dsimp only
  rw [if_neg (Int.not_lt.2 hlow), hk, hother]
  rfl

theorem State.detection_of_other {o : OtaCapture} (hwin : s.receivingWindow = some (number, x))
    (hlow : 64 * (s.get Reg.OTA.DET_CTL.thresh : Nat) ≤ metric) (hk : s.ota.captures.getD k none = none)
    (hother : s.ota.captures.getD (1 - k) none = some o) (path : Nat) :
    s.detection k path metric = if o.metric + 1536 ≤ metric ∧ s.arrayNow < o.preambleEnd + 512 * 128 then
      (s.captureBegun k (s.captureOf number path metric)).bump Reg.OTA.PREEMPTED.word else s := by
  unfold State.detection
  rw [hwin]
  dsimp only
  rw [if_neg (Int.not_lt.2 hlow), hk, hother]
  dsimp only
  by_cases h : o.metric + 1536 ≤ metric ∧ s.arrayNow < o.preambleEnd + 512 * 128
  · rw [if_pos h, if_pos (by rw [decide_eq_true h.1, decide_eq_true (show s.arrayNow < o.preambleEnd + 512 * burstTick from h.2)]; rfl)]
    rfl
  · rw [if_neg h, if_neg]
    rw [Bool.and_eq_true, decide_eq_true_eq, decide_eq_true_eq]
    exact h

end

/-! ### Captures end -/

/-- The capture of correlator `k` is over. -/
def State.captureShut (s : State) (k : Nat) : State := { s with ota := { s.ota with captures := s.ota.captures.set k none } }

/-- The phase of R489 that the measurement samples of a burst give. -/
def State.burstPhase (s : State) (streams : List (List Cplx)) : Nat :=
  phaseOf (sumC ((List.range 768).map fun i => (burstSample i).conj.mul ((s.otaCombined streams).getD i Cplx.zero)))

/-- A sender's burst is accepted. -/
def State.burstAccepted (s : State) (sender : Nat) : State :=
  { s.bump Reg.OTA.CAPTURES.word with ota := { s.ota with accepted := s.ota.accepted ++ [sender] } }

section

variable {s : State} {k header overloads : Nat} {c : OtaCapture}

theorem State.captureDone_of_none (h : s.ota.captures.getD k none = none) (header : Nat) (streams : List (List Cplx)) (overloads : Nat) :
    s.captureDone k header streams overloads = s := by
  unfold State.captureDone
  rw [h]

theorem State.captureDone_of_early (h : s.ota.captures.getD k none = some c) (hearly : s.arrayNow < c.preambleEnd + 1024 * 128) (header : Nat)
    (streams : List (List Cplx)) (overloads : Nat) : s.captureDone k header streams overloads = s := by
  unfold State.captureDone
  rw [h]
  exact if_pos hearly

variable (h : s.ota.captures.getD k none = some c) (hlate : c.preambleEnd + 1024 * 128 ≤ s.arrayNow)

include h hlate

theorem State.captureDone_of_false (hpay : s.payload c header = none) (streams : List (List Cplx)) (overloads : Nat) :
    s.captureDone k header streams overloads = (s.captureShut k).bump Reg.OTA.FALSE_DETECT.word := by
  unfold State.captureDone
  rw [h]
  refine (if_neg (Nat.not_lt.2 hlate)).trans ?_
  dsimp only
  rw [show ({ s with ota := { s.ota with captures := s.ota.captures.set k none } } : State).payload c header = _ from hpay]
  rfl

variable {sender : Nat} (hpay : s.payload c header = some sender)

include hpay

theorem State.captureDone_of_discard (hcause : s.discardCause c (c.preambleEnd - 512 * 128) (c.preambleEnd + 1024 * 128) overloads ≠ 0)
    (streams : List (List Cplx)) :
    s.captureDone k header streams overloads = ((s.captureShut k).put Reg.OTA.STATUS.last_discard
      (s.discardCause c (c.preambleEnd - 512 * 128) (c.preambleEnd + 1024 * 128) overloads)).bump Reg.OTA.DISCARD.word := by
  unfold State.captureDone
  rw [h]
  refine (if_neg (Nat.not_lt.2 hlate)).trans ?_
  dsimp only
  rw [show ({ s with ota := { s.ota with captures := s.ota.captures.set k none } } : State).payload c header = _ from hpay]
  exact if_pos (bne_iff_ne.2 hcause)

theorem State.captureDone_of_accepted (hcause : s.discardCause c (c.preambleEnd - 512 * 128) (c.preambleEnd + 1024 * 128) overloads = 0)
    (streams : List (List Cplx)) :
    s.captureDone k header streams overloads =
      if s.isTop then ((s.captureShut k).burstAccepted sender).topReport sender s.landing (s.burstPhase streams) c.metric
      else ((s.captureShut k).burstAccepted sender).sendUp
        (.ota (.report (((s.captureShut k).burstAccepted sender).get Reg.OTA.ROUND.number % 256) c.window sender s.landing (s.burstPhase streams) c.metric)) := by
  unfold State.captureDone
  rw [h]
  refine (if_neg (Nat.not_lt.2 hlate)).trans ?_
  dsimp only
  rw [show ({ s with ota := { s.ota with captures := s.ota.captures.set k none } } : State).payload c header = _ from hpay]
  refine (if_neg ?_).trans ?_
  · rw [bne_iff_ne, not_not]
    exact hcause
  · simp only [Array.getD_eq_getD_getElem?, List.getElem?_toArray, ← List.getD_eq_getElem?_getD]
    rfl

end

theorem otaReception : Claim.OtaReception := by
  intro s t k path metric header streams overloads r hr hlen
  subst hr
  refine ⟨fun hno => ?_, fun number x hwin hlow c hc => ⟨fun hbusy => ?_, fun hk hother => ?_, fun o hk hother => ⟨fun hhigh hnow => ?_, fun hno => ?_⟩⟩,
    fun hk => ?_, fun c hk => ⟨fun hearly => ?_, fun hlate v hv => ⟨fun hpay => ?_, fun sender cause hpay hcause => ⟨fun hne => ?_, fun h0 htop => ?_, fun h0 htop => ?_⟩⟩⟩⟩
  · refine Gives.of_eq rfl ?_
    rcases hno with h | h
    · exact State.detection_of_none (s := s.atTime t) h ..
    · exact State.detection_of_low (s := s.atTime t) h ..
  · exact Gives.of_eq rfl (State.detection_of_busy (s := s.atTime t) hwin hlow hbusy _)
  · obtain ⟨h1, h2⟩ := State.captures_captureBegun (s := s.atTime t) hlen k.isLt c
    exact ⟨_, Gives.of_eq rfl ((State.detection_of_idle (s := s.atTime t) hwin hlow hk hother _).trans (by rw [State.captureOf, ← hc])), h1, h2, rfl, rfl⟩
  · obtain ⟨h1, h2⟩ := State.captures_captureBegun (s := s.atTime t) hlen k.isLt c
    have heq := (State.detection_of_other (s := s.atTime t) hwin hlow hk hother path.val).trans (if_pos ⟨hhigh, hnow⟩)
    rw [State.captureOf, ← hc] at heq
    refine ⟨_, Gives.of_eq rfl heq, h1, h2, State.get_bump_same _ (by decide), fun a ha => ?_⟩
    exact State.word_put_other _ (f := Reg.OTA.PREEMPTED.word) (fun h => ha (by rw [← h]; exact List.mem_singleton_self _)) _
  · refine Gives.of_eq rfl ((State.detection_of_other (s := s.atTime t) hwin hlow hk hother path.val).trans (if_neg fun h => ?_))
    rcases hno with h' | h'
    · exact absurd h.1 (Int.not_le.2 h')
    · exact absurd h.2 (Nat.not_lt.2 h')
  · exact Gives.of_eq rfl (State.captureDone_of_none (s := s.atTime t) hk ..)
  · exact Gives.of_eq rfl (State.captureDone_of_early (s := s.atTime t) hk hearly ..)
  · exact Gives.of_eq rfl ((State.captureDone_of_false (s := s.atTime t) hk hlate hpay ..).trans (by rw [hv]; rfl))
  · exact Gives.of_eq rfl ((State.captureDone_of_discard (s := s.atTime t) hk hlate hpay (hcause ▸ hne) streams).trans (by rw [← hcause, hv]; rfl))
  · have heq := (State.captureDone_of_accepted (s := s.atTime t) hk hlate hpay (hcause.symm.trans h0) streams).trans (if_pos htop)
    refine ⟨_, Gives.of_eq rfl heq, State.get_bump_same (s.atTime t) (by decide), rfl, rfl, fun a ha => ?_⟩
    exact State.word_put_other (s.atTime t) (f := Reg.OTA.CAPTURES.word) (fun h => ha (by rw [← h]; exact List.mem_singleton_self _)) _
  · have heq := (State.captureDone_of_accepted (s := s.atTime t) hk hlate hpay (hcause.symm.trans h0) streams).trans (if_neg (ne_true_of_eq_false htop))
    have hround : (((s.atTime t).captureShut k.val).burstAccepted sender).get Reg.OTA.ROUND.number = s.get Reg.OTA.ROUND.number :=
      State.get_bump_elsewhere (s.atTime t) (by decide)
    rw [hround] at heq
    exact Gives.of_eq rfl (heq.trans (by rw [hv]; rfl))

/-! ### Reports and the RETRY windows -/

section

variable {s : State}

theorem State.retrySchedule_of_not (h : s.isTop = false ∨ s.ota.active = false ∨ s.ota.retryKnown = true ∨ s.get Reg.OTA.STATUS.state ≠ 2) :
    s.retrySchedule = s := by
  refine if_pos ?_
  rcases h with h | h | h | h <;> simp [h]

/-- The windows of the BURST kind in a round. -/
def State.burstWindows (s : State) : List (Nat × Nat × OtaWindow) := s.ota.windows.filter fun e => e.2.2.kind == 1

variable {e : Nat × Nat × OtaWindow} {w : Nat × Nat} (hlast : s.burstWindows.getLast? = some e) (hw : s.windowAt e.2.1 = some w)

include hlast hw

theorem State.retrySchedule_of_early (h : s.arrayNow < w.2) : s.retrySchedule = s := by
  unfold State.retrySchedule
  refine if_pos ?_
  rw [show (s.ota.windows.filter fun e => e.2.2.kind == 1).getLast? = _ from hlast]
  dsimp only
  rw [hw]
  simp [h]

/-- The top sends the schedule of the RETRY windows, and takes it (R491). -/
theorem State.retrySchedule_of_late (hlate : w.2 ≤ s.arrayNow) (htop : s.isTop = true) (hact : s.ota.active = true) (hknown : s.ota.retryKnown = false)
    (hstate : s.get Reg.OTA.STATUS.state = 2) :
    ∃ p m, s.retrySchedule = (s.sendDown m).scheduleTaken (s.get Reg.OTA.ROUND.number % 256) (8 + s.burstWindows.length) p s.retryWindows := by
  refine ⟨s.periodFrom (s.arrayNow + ticksOfUs 500) 4 (s.arrayNow / s.otaPeriod), .ota (.schedule (s.get Reg.OTA.ROUND.number % 256) (8 + s.burstWindows.length)
    (s.periodFrom (s.arrayNow + ticksOfUs 500) 4 (s.arrayNow / s.otaPeriod) % 2 ^ 32) s.retryWindows), if_neg ?_⟩
  rw [show (s.ota.windows.filter fun e => e.2.2.kind == 1).getLast? = _ from hlast]
  dsimp only
  rw [hw]
  simp [hlate, htop, hact, hknown, hstate]

end

/-! ### The solution -/

theorem mem_reachedFrom {pairs : List (Nat × Nat)} {x : Nat} (k : Nat) {l : List Nat} (h : x ∈ l) : x ∈ reachedFrom pairs k l := by
  induction k generalizing l with
  | zero => exact h
  | succ k ih => exact ih (List.mem_append_left _ h)

theorem find?_range_beq {n x : Nat} (h : x < n) : (List.range n).find? (fun k => k == x) = some x := by
  obtain ⟨y, hy⟩ := Option.isSome_iff_exists.1 (List.find?_isSome (p := fun k => k == x).2 ⟨x, List.mem_range.2 h, beq_self_eq_true x⟩)
  have hyx : (y == x) = true := List.find?_some (p := fun k => k == x) hy
  exact hy.trans (congrArg some (beq_iff_eq.1 hyx))

/-- The entries of the solution: each landing's phase, or that the spanning tree does not reach it (R492, R493). -/
def State.solutionEntries (s : State) (psi : List (Nat × Nat)) : List (Nat × Nat × Bool) :=
  (List.range s.landingCount).map fun k =>
    if (reachedFrom s.otaPairs s.landingCount [s.landing]).contains k then (k, if k = s.landing then 0 else (assoc? psi k).getD 0 % 65536, false)
    else (k, 0, true)

theorem State.find?_solutionEntries {s : State} (h : s.landing < s.landingCount) (psi : List (Nat × Nat)) :
    (s.solutionEntries psi).find? (fun e => e.1 == s.landing) = some (s.landing, 0, false) := by
  obtain ⟨f, hf⟩ : ∃ f : Nat → Nat × Nat × Bool, f = fun k => if (reachedFrom s.otaPairs s.landingCount [s.landing]).contains k then
      (k, if k = s.landing then 0 else (assoc? psi k).getD 0 % 65536, false) else (k, 0, true) := ⟨_, rfl⟩
  have hfst (k : Nat) : (f k).1 = k := by
    rw [hf]
    dsimp only
    split_ifs <;> rfl
  have hown : f s.landing = (s.landing, 0, false) := by
    rw [hf]
    dsimp only
    rw [if_pos (List.contains_iff_mem.2 (mem_reachedFrom _ (List.mem_singleton_self _))), if_pos rfl]
  have hp : ((fun e : Nat × Nat × Bool => e.1 == s.landing) ∘ f) = fun k => k == s.landing := funext fun k => by rw [Function.comp_apply, hfst]
  rw [State.solutionEntries, ← hf, List.find?_map, hp, find?_range_beq h, Option.map_some, hown]

/-- The pairs of the round that is complete are kept, and the residual is shown. -/
def State.solutionKnown (s : State) (resid : Nat) : State :=
  ({ s with ota := { s.ota with lastPairs := s.ota.reports.map fun e => (e.1, e.2.1), completed := true } } : State).put Reg.OTA.PSI.resid resid

/-- The solution goes down, and the top takes it, where no transaction commits it (R494, R495). -/
theorem State.solved_of_stage {s : State} (htop : s.isTop = true) (hact : s.ota.active = true) (hstate : s.get Reg.OTA.STATUS.state = 4)
    (hmode : s.get Reg.OTA.CTL.mode = 2) (psi : List (Nat × Nat)) (resid : Nat) :
    s.solved psi resid = ((s.solutionKnown resid).sendDown (.ota (.solution (s.get Reg.OTA.ROUND.number % 256) (s.solutionEntries psi)))).solutionTaken
      (s.solutionEntries psi) := by
  obtain ⟨v, hv⟩ : ∃ v, v = (s.solutionKnown resid).sendDown (.ota (.solution (s.get Reg.OTA.ROUND.number % 256) (s.solutionEntries psi))) := ⟨_, rfl⟩
  have hmodeV : v.get Reg.OTA.CTL.mode = 2 := by
    rw [hv, (sends_sendDown _ _).get (by decide)]
    exact (State.get_put_elsewhere _ (by decide) _).trans hmode
  rw [← hv]
  have heq : s.solved psi resid = (if v.get Reg.OTA.CTL.mode = 1 then v.topInternal 28 v.otaCarrier (planningFrom (s.arrayNow + ticksOfMs 2)) else v).solutionTaken
      (s.solutionEntries psi) := by
    rw [hv]
    exact if_neg (by simp [htop, hact, hstate])
  rw [heq, if_neg (by rw [hmodeV]; decide)]

/-- The landing is reached by the solution. -/
def State.solutionReached (s : State) : State := ({ s with ota := { s.ota with reached := true } } : State).put Reg.OTA.STATUS.unreached 0

theorem State.solutionTaken_of_own {s : State} {entries : List (Nat × Nat × Bool)} {p : Nat} (hact : s.ota.active = true) (hstale : s.ota.staleRound = false)
    (hfind : entries.find? (fun e => e.1 == s.landing) = some (s.landing, p, false)) :
    s.solutionTaken entries =
      if s.solutionReached.get Reg.OTA.CTL.mode = 1 then s.solutionReached.stageAuto ((s.get Reg.OTA.PSI.total + p) % 65536)
      else if s.solutionReached.get Reg.OTA.CTL.mode = 2 then (s.solutionReached.stageArea ((s.get Reg.OTA.PSI.total + p) % 65536)).stagePart 28 []
      else (s.solutionReached.otaEnd 0).stagePart 28 [] := by
  unfold State.solutionTaken
  rw [if_neg (by rw [hact]; exact Bool.false_ne_true), hfind, hstale]
  rfl

theorem State.stagePart_of_idle {s : State} {n : Nat} (hn : n < s.txn.slots.length) (h : (s.slot n).asking = false) (part : List Effect) :
    s.stagePart n part = s.modSlot n fun x => { x with part := some part } := by
  refine if_neg ?_
  rw [State.slot_modSlot_same hn, h, Bool.and_false, Bool.false_and]
  exact Bool.false_ne_true

theorem State.derived_congr {s u : State} (hota : u.ota.newTau = s.ota.newTau ∧ u.ota.newRho = s.ota.newRho) {p : Nat}
    (htx : u.word (Reg.OTA.STATIC_TX.word p).addr = s.word (Reg.OTA.STATIC_TX.word p).addr)
    (hrx : u.word (Reg.OTA.STATIC_RX.word p).addr = s.word (Reg.OTA.STATIC_RX.word p).addr) (total : Nat) :
    u.derived total p = s.derived total p := by
  rw [State.derived, State.derived, hota.1, hota.2, htx, hrx]

/-- The effects that switch a landing to the corrections of an array phase (R494). -/
def State.correctionEffects (s : State) (total : Nat) : List Effect :=
  ((List.range 64).map fun i => Effect.reg (Reg.BEAM.TX_CORR.word i).addr (s.derived total i).1) ++
    ((List.range 64).map fun i => Effect.reg (Reg.BEAM.RX_CORR.word i).addr (s.derived total i).2) ++ [Effect.ota total]

theorem State.correctionEffects_congr {s u : State} (total : Nat) (h : ∀ p < 64, u.derived total p = s.derived total p) :
    u.correctionEffects total = s.correctionEffects total := by
  unfold State.correctionEffects
  rw [List.map_congr_left fun i hi => by rw [h i (List.mem_range.1 hi)], List.map_congr_left (l := List.range 64)
    (f := fun i => Effect.reg (Reg.BEAM.RX_CORR.word i).addr (u.derived total i).2) fun i hi => by rw [h i (List.mem_range.1 hi)]]

/-- The area of staged corrections holds these bytes, derived with an array phase. -/
def State.correctionsStored (s : State) (total : Nat) (bs : List Byte) : State :=
  { s.allocWrite kindStair stagedPlace bs with ota := { s.ota with newTotal := total } }

theorem State.stageArea_eq (s : State) (total : Nat) :
    ∃ bs, s.stageArea total = ((s.correctionsStored total bs).otaEnd 0).put Reg.OTA.STATUS.staged 1 := ⟨_, rfl⟩

/-- No round is active. -/
def State.roundOver (s : State) : State :=
  { s with ota := { s.ota with active := false, windows := [], now := none, captures := [none, none] } }

theorem State.otaEnd_zero (s : State) : s.otaEnd 0 = ((s.put Reg.OTA.STATUS.state 0).put Reg.OTA.STATUS.done 1).roundOver := rfl

theorem State.get_roundOver (s : State) (f : Fld) : s.roundOver.get f = s.get f := rfl

theorem State.txn_roundOver (s : State) : s.roundOver.txn = s.txn := rfl

theorem State.ota_roundOver (s : State) :
    s.roundOver.ota = { s.ota with active := false, windows := [], now := none, captures := [none, none] } := rfl

theorem State.regs_correctionsStored (s : State) (total : Nat) (bs : List Byte) : (s.correctionsStored total bs).regs = s.regs := rfl

theorem State.txn_correctionsStored (s : State) (total : Nat) (bs : List Byte) : (s.correctionsStored total bs).txn = s.txn := rfl

theorem State.ota_correctionsStored (s : State) (total : Nat) (bs : List Byte) :
    (s.correctionsStored total bs).ota = { s.ota with newTotal := total } := rfl

/-- The area of staged corrections, the round over (R495). -/
theorem State.stageArea_spec (s : State) (total : Nat) :
    (s.stageArea total).get Reg.OTA.STATUS.state = 0 ∧ (s.stageArea total).get Reg.OTA.STATUS.done = 1 ∧
      (s.stageArea total).get Reg.OTA.STATUS.staged = 1 ∧ (s.stageArea total).get Reg.OTA.STATUS.unreached = s.get Reg.OTA.STATUS.unreached ∧
      (s.stageArea total).get Reg.OTA.PSI.resid = s.get Reg.OTA.PSI.resid ∧ (s.stageArea total).txn = s.txn ∧
      (s.stageArea total).ota = { s.ota with newTotal := total, active := false, windows := [], now := none, captures := [none, none] } := by
  obtain ⟨bs, heq⟩ := s.stageArea_eq total
  obtain ⟨v, hv⟩ : ∃ v, v = s.correctionsStored total bs := ⟨_, rfl⟩
  have hregs : v.regs = s.regs := by rw [hv, State.regs_correctionsStored]
  have htxn : v.txn = s.txn := by rw [hv, State.txn_correctionsStored]
  have hota : v.ota = { s.ota with newTotal := total } := by rw [hv, State.ota_correctionsStored]
  obtain ⟨w, hw⟩ : ∃ w, w = (v.put Reg.OTA.STATUS.state 0).put Reg.OTA.STATUS.done 1 := ⟨_, rfl⟩
  rw [← hv, State.otaEnd_zero, ← hw] at heq
  have hend (f : Fld) : w.roundOver.get f = ((v.put Reg.OTA.STATUS.state 0).put Reg.OTA.STATUS.done 1).get f := by rw [State.get_roundOver, hw]
  rw [heq]
  refine ⟨?_, ?_, State.get_put_same _ (by decide) _, ?_, ?_, ?_, ?_⟩
  · rw [State.get_put_apart _ (by decide) (by decide), hend, State.get_put_apart _ (by decide) (by decide), State.get_put_same _ (by decide)]
    rfl
  · rw [State.get_put_apart _ (by decide) (by decide), hend, State.get_put_same _ (by decide)]
    rfl
  · rw [State.get_put_apart _ (by decide) (by decide), hend, State.get_put_apart _ (by decide) (by decide), State.get_put_apart _ (by decide) (by decide),
      State.get_of_regs hregs]
  · rw [State.get_put_elsewhere _ (by decide), hend, State.get_put_elsewhere _ (by decide), State.get_put_elsewhere _ (by decide), State.get_of_regs hregs]
  · rw [State.txn_put, State.txn_roundOver, hw, State.txn_put, State.txn_put, htxn]
  · rw [State.ota_put, State.ota_roundOver, hw, State.ota_put, State.ota_put, hota]

theorem otaSolutions : Claim.OtaSolutions := by
  intro s t round window sender receiver phi resid metric psi entries r hr hslots
  subst hr
  have hlen : (s.atTime t).txn.slots.length = 29 := (State.length_slots_atTime s t).trans hslots
  refine ⟨fun htop => ⟨?_, ?_, fun l => ?_, ?_, ?_⟩, fun htop => ⟨fun l => ?_, fun hno => ⟨?_, ?_⟩, fun hact hround => ⟨?_, ?_⟩, fun hno => ?_,
    fun e w hlast hw => ⟨fun hearly => ?_, fun hlate hact hknown hstate => ?_⟩, fun hno => ?_, fun hact hstate hmode hstale hland hask => ?_⟩,
    fun hact hround => ?_, fun hact hround hmode hstale hask p hfind total htotal => ?_⟩
  · exact Gives.of_eq rfl (if_pos (by rw [show (s.atTime t).isTop = _ from htop]; rfl))
  · exact Gives.of_eq rfl (if_pos (by rw [show (s.atTime t).isTop = _ from htop]; rfl))
  · exact Gives.of_eq rfl (if_neg (by rw [show (s.atTime t).isTop = _ from htop]; exact Bool.false_ne_true))
  · exact Gives.of_eq rfl (State.retrySchedule_of_not (s := s.atTime t) (.inl htop))
  · exact Gives.of_eq rfl (if_pos (by simp [show (s.atTime t).isTop = _ from htop]))
  · exact Gives.of_eq rfl (if_pos htop)
  · refine Gives.of_eq rfl ((if_neg (by rw [show (s.atTime t).isTop = _ from htop]; decide)).trans (if_neg ?_))
    rcases hno with h | h <;> simp [h]
  · refine Gives.of_eq rfl ((if_neg (by rw [show (s.atTime t).isTop = _ from htop]; decide)).trans (if_neg ?_))
    rcases hno with h | h <;> simp [h]
  · exact Gives.of_eq rfl ((if_neg (by rw [show (s.atTime t).isTop = _ from htop]; decide)).trans (if_pos (by simp [hact, hround])))
  · exact Gives.of_eq rfl ((if_neg (by rw [show (s.atTime t).isTop = _ from htop]; decide)).trans (if_pos (by simp [hact, hround])))
  · exact Gives.of_eq rfl (State.retrySchedule_of_not (s := s.atTime t) (.inr hno))
  · exact Gives.of_eq rfl (State.retrySchedule_of_early (s := s.atTime t) hlast hw hearly)
  · obtain ⟨p, m, heq⟩ := State.retrySchedule_of_late (s := s.atTime t) hlast hw hlate htop hact hknown hstate
    have hsend := sends_sendDown (s.atTime t) m
    obtain ⟨u, hu, hkn, hwin, hcount, hst⟩ := State.scheduleTaken_retry (s := (s.atTime t).sendDown m) (first := 8 + (s.atTime t).burstWindows.length)
      (by omega) (round := (s.atTime t).get Reg.OTA.ROUND.number % 256) (by rw [hsend.ota]; exact hact) (by rw [hsend.get (by decide), Nat.mod_mod]) p
      (s.atTime t).retryWindows
    refine ⟨u, Gives.of_eq rfl (heq.trans hu), hkn, by rw [hwin, hsend.ota]; rfl, by rw [hcount, hsend.get (by decide)]; rfl, ?_⟩
    rw [hst, hsend.get (by decide), State.get_atTime, hstate]
    rfl
  · refine Gives.of_eq rfl (if_pos ?_)
    rcases hno with h | h <;> simp [h]
  · obtain ⟨v, hv⟩ : ∃ v, v = ((s.atTime t).solutionKnown resid).sendDown
        (.ota (.solution ((s.atTime t).get Reg.OTA.ROUND.number % 256) ((s.atTime t).solutionEntries psi))) := ⟨_, rfl⟩
    have hsend : Sends 16 ((s.atTime t).solutionKnown resid) v := by
      rw [hv]
      exact sends_sendDown ..
    have hget {f : Fld} (hf : f.addr < 0x480404 ∨ 0x480604 ≤ f.addr) (hpsi : Reg.OTA.PSI.resid.apart f = true) : v.get f = s.get f := by
      rw [hsend.get hf]
      exact State.get_put_apart _ (by decide) hpsi _
    have hresid : v.get Reg.OTA.PSI.resid = resid % 65536 := by
      rw [hsend.get (by decide)]
      exact State.get_put_same _ (by decide) _
    have hota : v.ota = { s.ota with lastPairs := s.ota.reports.map fun e => (e.1, e.2.1), completed := true } := hsend.ota
    have hlandV : v.landing = s.landing := by
      obtain ⟨_, _, _, _, h⟩ := hsend.shape
      rw [h]
      rfl
    have htxn : v.txn = (s.atTime t).txn := hsend.keepsTxn.txn
    have htotal : (v.get Reg.OTA.PSI.total + 0) % 65536 = s.get Reg.OTA.PSI.total := by
      rw [hget (by decide) (by decide), Nat.add_zero]
      exact Nat.mod_eq_of_lt (s.get_lt Reg.OTA.PSI.total)
    have hreach {f : Fld} (hf : Reg.OTA.STATUS.unreached.apart f = true) : v.solutionReached.get f = v.get f := State.get_put_apart _ (by decide) hf _
    have hmodeV : v.solutionReached.get Reg.OTA.CTL.mode = 2 := by
      rw [hreach (by decide), hget (by decide) (by decide)]
      exact hmode
    have htaken := v.solutionTaken_of_own (entries := (s.atTime t).solutionEntries psi) (p := 0) (by rw [hota]; exact hact) (by rw [hota]; exact hstale)
      (by rw [hlandV]; exact State.find?_solutionEntries (s := s.atTime t) hland psi)
    rw [if_neg (by rw [hmodeV]; decide), if_pos hmodeV, htotal] at htaken
    obtain ⟨h1, h2, h3, h4, h5, h6, h7⟩ := v.solutionReached.stageArea_spec (s.get Reg.OTA.PSI.total)
    obtain ⟨w, hw⟩ : ∃ w, w = v.solutionReached.stageArea (s.get Reg.OTA.PSI.total) := ⟨_, rfl⟩
    rw [← hw] at htaken h1 h2 h3 h4 h5 h6 h7
    have htxnW : w.txn = (s.atTime t).txn := h6.trans htxn
    have hlenW : 28 < w.txn.slots.length := by rw [htxnW, hlen]; decide
    rw [State.stagePart_of_idle hlenW (by rw [State.slot, htxnW]; exact hask)] at htaken
    have hkeep (f : Fld) : (w.modSlot 28 fun x => { x with part := some [] }).get f = w.get f := rfl
    have hsolved := (State.solved_of_stage (s := s.atTime t) htop hact hstate hmode psi resid).trans ((congrArg (State.solutionTaken · _) hv.symm).trans htaken)
    have hotaW : w.ota = { v.ota with reached := true, newTotal := s.get Reg.OTA.PSI.total, active := false, windows := [], now := none, captures := [none, none] } := h7
    refine ⟨_, Gives.of_eq rfl hsolved, ?_, (hkeep _).trans h1, (hkeep _).trans h2, (hkeep _).trans h3, ?_, ?_, ?_, ?_, ?_⟩
    · rw [hkeep, h5, hreach (by decide), hresid]
    · rw [hkeep, h4]
      exact State.get_put_same _ (by decide) _
    · show w.ota.lastPairs = _
      rw [hotaW, hota]
    · show w.ota.completed = _
      rw [hotaW, hota]
    · show w.ota.active = _
      rw [hotaW]
    · show w.ota.newTotal = _
      rw [hotaW]
  · have hsend := sends_sendDown (s.atTime t) (.ota (.solution round entries))
    refine Gives.of_eq rfl (if_pos ?_)
    rw [hsend.ota, hsend.get (by decide), show (s.atTime t).ota.active = _ from hact]
    exact bne_iff_ne.2 hround
  · obtain ⟨v, hv⟩ : ∃ v, v = (s.atTime t).sendDown (.ota (.solution round entries)) := ⟨_, rfl⟩
    have hsend : Sends 16 (s.atTime t) v := by
      rw [hv]
      exact sends_sendDown ..
    have hlandV : v.landing = s.landing := by
      obtain ⟨_, _, _, _, h⟩ := hsend.shape
      rw [h]
      rfl
    have hreach {f : Fld} (hf : Reg.OTA.STATUS.unreached.apart f = true) : v.solutionReached.get f = v.get f := State.get_put_apart _ (by decide) hf _
    have hmodeV : v.solutionReached.get Reg.OTA.CTL.mode = 1 := by
      rw [hreach (by decide), hsend.get (by decide)]
      exact hmode
    have hactV : v.ota.active = true := by rw [hsend.ota]; exact hact
    have htaken := v.solutionTaken_of_own (entries := entries) (p := p) hactV (by rw [hsend.ota]; exact hstale) (by rw [hlandV]; exact hfind)
    rw [if_pos hmodeV, hsend.get (by decide), State.get_atTime, ← htotal] at htaken
    have hword (a : Nat) (ha : a < 0x480404 ∨ 0x480604 ≤ a) (hne : Reg.OTA.STATUS.word.addr ≠ a) : v.solutionReached.word a = s.word a :=
      (State.word_put_other (f := Reg.OTA.STATUS.unreached) _ hne _).trans (hsend.words a fun h => by have := bounds_of_laneAdaptWords h; omega)
    have heffects : v.solutionReached.correctionEffects total = s.correctionEffects total := by
      refine State.correctionEffects_congr total fun i hi => State.derived_congr ⟨?_, ?_⟩ (hword _ ?_ ?_) (hword _ ?_ ?_) total
      · show v.ota.newTau = s.ota.newTau
        rw [hsend.ota]
        rfl
      · show v.ota.newRho = s.ota.newRho
        rw [hsend.ota]
        rfl
      all_goals dsimp only; omega
    obtain ⟨w, hw⟩ : ∃ w, w = v.solutionReached.put Reg.OTA.STATUS.state 5 := ⟨_, rfl⟩
    have hauto : v.solutionReached.stageAuto total = w.stagePart 28 (v.solutionReached.correctionEffects total) := by
      rw [hw]
      rfl
    have htxnW : w.txn = (s.atTime t).txn := by
      rw [hw]
      exact hsend.keepsTxn.txn
    have hlenW : 28 < w.txn.slots.length := by rw [htxnW, hlen]; decide
    rw [hauto, State.stagePart_of_idle hlenW (by rw [State.slot, htxnW]; exact hask), heffects] at htaken
    have hkeep (f : Fld) : (w.modSlot 28 fun x => { x with part := some (s.correctionEffects total) }).get f = w.get f := rfl
    have hnot : ¬ (v.ota.active && round % 256 != v.get Reg.OTA.ROUND.number % 256) = true := by
      rw [hsend.get (by decide), hactV]
      simp [hround]
    refine ⟨_, Gives.of_eq rfl ((congrArg (fun v : State => if v.ota.active && round % 256 != v.get Reg.OTA.ROUND.number % 256 then v else
      v.solutionTaken entries) hv.symm).trans ((if_neg hnot).trans htaken)), ?_, ?_, ?_, ?_⟩
    · rw [hkeep, hw]
      exact State.get_put_same _ (by decide) _
    · rw [hkeep, hw, State.get_put_apart _ (by decide) (by decide)]
      exact State.get_put_same _ (by decide) _
    · rw [hkeep, hw, State.get_put_elsewhere _ (by decide), hreach (by decide), hsend.get (by decide), State.get_atTime]
    · rw [State.slot_modSlot_same hlenW]
      rfl

/-- Settles O51: detections and captures by the capture that a correlator holds, the solution by the mode that takes it. -/
theorem otaCapturesSolution : Obligations.OtaCapturesSolution := ⟨otaReception, otaSolutions⟩

end Sys2Proof.Machine
end

