-- ==== Sys2Proof/Proofs/StairPortRules.lean ====
section
/-!
Stair ports: what each operation on a port and on its lanes reads afterwards (R435 to R441).
-/

namespace Sys2Proof.Machine

open Sys2Proof

/-! ### Fields beside those of a port -/

/-- A field that is no lane's. -/
def Fld.offLanes (f : Fld) : Prop := f.addr < 0x480404 ∨ 0x480600 ≤ f.addr

/-- A field that a port's entry into another state leaves alone: of another register than PORT_STATUS, PORT_PEER and the lanes', or one of the
counts of PORT_STATUS. -/
def Fld.offPort (f : Fld) (n : Nat) : Prop :=
  f.offLanes ∧ f.addr ≠ (Reg.STAIR.PORT_PEER.word n).addr ∧ (f.addr = (Reg.STAIR.PORT_STATUS.word n).addr → f.lo + f.width ≤ 18)

theorem Fld.apart_of_lo {f g : Fld} (h : f.addr = g.addr → f.lo + f.width ≤ g.lo ∨ g.lo + g.width ≤ f.lo) : f.apart g = true := by
  unfold Fld.apart
  by_cases ha : f.addr = g.addr
  · rcases h ha with h' | h' <;> simp [h']
  · simp [ha]

theorem mem_portLanes {n i : Nat} : i ∈ portLanes n ↔ i / 4 = n := by
  unfold portLanes
  rw [List.mem_map]
  constructor
  · rintro ⟨l, hl, rfl⟩
    have := List.mem_range.1 hl
    omega
  · rintro rfl
    exact ⟨i % 4, List.mem_range.2 (Nat.mod_lt _ (by decide)), by omega⟩

theorem nodup_portLanes (n : Nat) : (portLanes n).Nodup := List.Nodup.map (fun a b (h : 4 * n + a = 4 * n + b) => by omega) List.nodup_range

/-- States that differ in registers, in the ports and lanes of the stair, and in what the landing has sent. -/
def StairShape (s u : State) : Prop := ∃ regs ports lanes out, u = { s with regs := regs, stair := { s.stair with ports := ports, lanes := lanes }, out := out }

section StairShape

variable {s u v : State}

theorem StairShape.refl (s : State) : StairShape s s := ⟨_, _, _, _, rfl⟩

theorem StairShape.trans (hsu : StairShape s u) (huv : StairShape u v) : StairShape s v := by
  obtain ⟨_, _, _, _, rfl⟩ := hsu
  obtain ⟨_, _, _, _, rfl⟩ := huv
  exact ⟨_, _, _, _, rfl⟩

theorem stairShape_put (s : State) (f : Fld) (v : Nat) : StairShape s (s.put f v) := ⟨_, _, _, _, rfl⟩
theorem stairShape_modSPort (s : State) (n : Nat) (f : StairPort → StairPort) : StairShape s (s.modSPort n f) := ⟨_, _, _, _, rfl⟩
theorem stairShape_modSLane (s : State) (i : Nat) (f : StairLane → StairLane) : StairShape s (s.modSLane i f) := ⟨_, _, _, _, rfl⟩
theorem stairShape_emit (s : State) (o : Output) : StairShape s (s.emit o) := ⟨_, _, _, _, rfl⟩

theorem StairShape.now (h : StairShape s u) : u.now = s.now := by
  obtain ⟨_, _, _, _, rfl⟩ := h
  rfl

theorem StairShape.mem (h : StairShape s u) : u.mem = s.mem := by
  obtain ⟨_, _, _, _, rfl⟩ := h
  rfl

theorem StairShape.image (h : StairShape s u) : u.image = s.image := by
  obtain ⟨_, _, _, _, rfl⟩ := h
  rfl

theorem StairShape.treeOf (h : StairShape s u) : u.treeOf = s.treeOf := by
  obtain ⟨_, _, _, _, rfl⟩ := h
  rfl

theorem StairShape.arrayNow (h : StairShape s u) : u.arrayNow = s.arrayNow := by
  obtain ⟨_, _, _, _, rfl⟩ := h
  rfl

end StairShape

/-! ### Ports and lanes beside one another -/

section

variable (s : State)

theorem State.length_ports_modSPort (n : Nat) (f : StairPort → StairPort) : (s.modSPort n f).stair.ports.length = s.stair.ports.length :=
  List.length_modify ..

theorem State.length_lanes_modSLane (i : Nat) (f : StairLane → StairLane) : (s.modSLane i f).stair.lanes.length = s.stair.lanes.length :=
  List.length_modify ..

theorem State.sLane_modSLane_same {i : Nat} (h : i < s.stair.lanes.length) (f : StairLane → StairLane) : (s.modSLane i f).sLane i = f (s.sLane i) := by
  unfold State.sLane State.modSLane
  simp [List.getD_eq_getElem?_getD, h]

theorem State.sLane_modSLane_other {i j : Nat} (h : j ≠ i) (f : StairLane → StairLane) : (s.modSLane i f).sLane j = s.sLane j := by
  unfold State.sLane State.modSLane
  simp [List.getD_eq_getElem?_getD, h.symm]

theorem State.laneState_modSLane (i : Nat) (f : StairLane → StairLane) (j : Nat) : (s.modSLane i f).laneState j = s.laneState j := rfl
theorem State.ports_modSLane (i : Nat) (f : StairLane → StairLane) : (s.modSLane i f).stair.ports = s.stair.ports := rfl
theorem State.laneState_modSPort (n : Nat) (f : StairPort → StairPort) (j : Nat) : (s.modSPort n f).laneState j = s.laneState j := rfl
theorem State.sLane_modSPort (n : Nat) (f : StairPort → StairPort) (j : Nat) : (s.modSPort n f).sLane j = s.sLane j := rfl
theorem State.sPort_put (f : Fld) (v n : Nat) : (s.put f v).sPort n = s.sPort n := rfl
theorem State.sLane_put (f : Fld) (v i : Nat) : (s.put f v).sLane i = s.sLane i := rfl

theorem State.laneState_put_same (i v : Nat) : (s.put (Reg.STAIR.LANE_STATUS.state i) v).laneState i = v % 16 := s.get_put_same rfl v

theorem State.laneState_put_other {i j : Nat} (h : i ≠ j) (v : Nat) : (s.put (Reg.STAIR.LANE_STATUS.state i) v).laneState j = s.laneState j :=
  s.get_put_elsewhere (by dsimp only; omega) v

/-- A write elsewhere than in a lane's status leaves the states of the lanes alone. -/
theorem State.laneState_put_off {f : Fld} (h : ∀ i, f.addr ≠ (Reg.STAIR.LANE_STATUS.state i).addr) (v i : Nat) : (s.put f v).laneState i = s.laneState i :=
  s.get_put_elsewhere (g := Reg.STAIR.LANE_STATUS.state i) (h i) v

theorem State.get_of_offLanes_put {f : Fld} (hf : f.offLanes) {i : Nat} (hi : i < 16) (v : Nat) :
    (s.put (Reg.STAIR.LANE_STATUS.state i) v).get f = s.get f ∧ (s.put (Reg.STAIR.LANE_ADAPT.idle i) v).get f = s.get f :=
  ⟨s.get_put_elsewhere (by unfold Fld.offLanes at hf; dsimp only; omega) v, s.get_put_elsewhere (by unfold Fld.offLanes at hf; dsimp only; omega) v⟩

end

/-! ### One lane enters a state -/

/-- A lane enters a state: its status, then what the landing knows of it. -/
def State.laneEnter (s : State) (st at0 i : Nat) : State :=
  ((s.put (Reg.STAIR.LANE_STATUS.state i) st).put (Reg.STAIR.LANE_ADAPT.idle i) 0).modSLane i fun x =>
    { x with since := at0, rolled := false, qualified := false, startAt := none, sent := 0 }

theorem State.lanesEnter_eq (s : State) (n st : Nat) : s.lanesEnter n st = (s.forEach (portLanes n) fun i s' => s'.laneEnter st s.now i).showLanes n := rfl

section

variable (s : State) {n : Nat}

theorem stairShape_laneEnter (st at0 i : Nat) : StairShape s (s.laneEnter st at0 i) :=
  ((stairShape_put ..).trans (stairShape_put ..)).trans (stairShape_modSLane ..)

theorem State.laneState_laneEnter_same (st at0 i : Nat) : (s.laneEnter st at0 i).laneState i = st % 16 := by
  rw [State.laneEnter, State.laneState_modSLane, State.laneState, State.get_put_elsewhere _ (by dsimp only; omega)]
  exact s.laneState_put_same i st

theorem State.laneState_laneEnter_other (st at0 : Nat) {i j : Nat} (h : i ≠ j) : (s.laneEnter st at0 i).laneState j = s.laneState j := by
  rw [State.laneEnter, State.laneState_modSLane, State.laneState, State.get_put_elsewhere _ (by dsimp only; omega)]
  exact s.laneState_put_other h st

theorem State.get_laneEnter (st at0 : Nat) {i : Nat} (hi : i < 16) {f : Fld} (hf : f.offLanes) : (s.laneEnter st at0 i).get f = s.get f := by
  rw [State.laneEnter, State.get_modSLane, (State.get_of_offLanes_put _ hf hi 0).2, (s.get_of_offLanes_put hf hi st).1]

theorem State.ports_laneEnter (st at0 i : Nat) : (s.laneEnter st at0 i).stair.ports = s.stair.ports := by
  rw [State.laneEnter, State.ports_modSLane, State.stair_put, State.stair_put]

theorem State.out_laneEnter (st at0 i : Nat) : (s.laneEnter st at0 i).out = s.out := by
  rw [State.laneEnter, State.out_modSLane, State.out_put, State.out_put]

/-! ### The lanes of a port enter a state -/

theorem stairShape_lanesEnter (n st : Nat) : StairShape s (s.lanesEnter n st) := by
  rw [State.lanesEnter_eq]
  exact (State.forEach_induct (P := StairShape s) (.refl s) fun i _ x hx => hx.trans (stairShape_laneEnter ..)).trans (stairShape_put ..)

theorem State.get_lanesEnter (hn : n < 4) (st : Nat) {f : Fld} (hf : f.offLanes) (ha : (Reg.STAIR.PORT_STATUS.lanes n).apart f = true) :
    (s.lanesEnter n st).get f = s.get f := by
  rw [State.lanesEnter_eq, State.showLanes, State.get_put_apart _ rfl ha]
  exact State.forEach_induct (P := fun u => u.get f = s.get f) rfl fun i hi x hx =>
    (x.get_laneEnter st s.now (by have := mem_portLanes.1 hi; omega) hf).trans hx

theorem State.laneState_lanesEnter (st : Nat) {i : Nat} (hi : i ∈ portLanes n) : (s.lanesEnter n st).laneState i = st % 16 := by
  rw [State.lanesEnter_eq, State.showLanes, State.laneState_put_off _ (fun i => by dsimp only; omega)]
  refine State.forEach_at (A := fun _ => True) (B := fun u => u.laneState i = st % 16) (nodup_portLanes n) hi trivial (fun _ _ _ _ _ => trivial)
    (fun x _ => x.laneState_laneEnter_same ..) fun j hj hne x hx => ?_
  exact (x.laneState_laneEnter_other st s.now hne).trans hx

theorem State.ports_lanesEnter (n st : Nat) : (s.lanesEnter n st).stair.ports = s.stair.ports := by
  rw [State.lanesEnter_eq, State.showLanes, State.stair_put]
  exact State.forEach_induct (P := fun u => u.stair.ports = s.stair.ports) rfl fun i _ x hx => (x.ports_laneEnter ..).trans hx

theorem State.out_lanesEnter (n st : Nat) : (s.lanesEnter n st).out = s.out := by
  rw [State.lanesEnter_eq, State.showLanes, State.out_put]
  exact State.forEach_induct (P := fun u => u.out = s.out) rfl fun i _ x hx => (x.out_laneEnter ..).trans hx

/-! ### A port enters a state -/

theorem stairShape_sEnter (n st : Nat) : StairShape s (s.sEnter n st) := (stairShape_put ..).trans (stairShape_modSPort ..)

theorem State.sState_sEnter (n st : Nat) : (s.sEnter n st).sState n = st % 16 := by
  rw [State.sEnter, State.sState, State.get_modSPort]
  exact s.get_put_same rfl st

theorem State.get_sEnter (n st : Nat) {f : Fld} (ha : (Reg.STAIR.PORT_STATUS.state n).apart f = true) : (s.sEnter n st).get f = s.get f := by
  rw [State.sEnter, State.get_modSPort]
  exact s.get_put_apart rfl ha st

theorem State.sPort_sEnter (hn : n < s.stair.ports.length) (st : Nat) : (s.sEnter n st).sPort n = { s.sPort n with since := s.now } := by
  rw [State.sEnter]
  exact State.sPort_modSPort_same (s := s.put (Reg.STAIR.PORT_STATUS.state n) st) hn _

theorem State.length_ports_sEnter (n st : Nat) : (s.sEnter n st).stair.ports.length = s.stair.ports.length := List.length_modify ..

theorem State.out_sEnter (n st : Nat) : (s.sEnter n st).out = s.out := by
  rw [State.sEnter, State.out_modSPort, State.out_put]

/-! ### Pads -/

theorem State.padLanes_of_idle (h : ∀ i ∈ portLanes n, (s.sLane i).startAt = none) : s.padLanes n = s := by
  unfold State.padLanes
  extract_lets due first u
  have hdue : due = [] := List.filterMap_eq_nil_iff.2 fun i hi => by
    dsimp only
    rw [h i hi]
  rw [hdue]
  rfl

theorem stairShape_padLanes (n : Nat) : StairShape s (s.padLanes n) := (sends_padLanes (k := 0) s n).shape

theorem State.length_ports_padLanes (n : Nat) : (s.padLanes n).stair.ports.length = s.stair.ports.length := by
  unfold State.padLanes
  extract_lets due first u
  have hu : u.stair.ports = s.stair.ports :=
    State.forEach_induct (P := fun u => u.stair.ports = s.stair.ports) rfl fun _ _ _ hx => hx
  clear_value u
  split
  · rfl
  · split
    · rw [hu]
    · exact (List.length_modify ..).trans (congrArg List.length hu)

end


/-! ### A port without traffic -/

/-- What a port that carries no traffic keeps of itself. -/
def StairPort.quiet (x : StairPort) (at0 next : Nat) : StairPort :=
  { x with since := at0, next := next, queue := [], unacked := [], parts := [0, 0, 0], runs := [0, 0, 0, 0, 0, 0], hello := none, adopted := false,
           adopting := none, gone := x.child.isSome }

/-- Port `n` has become quiet in state `st`. -/
structure PortQuieted (n st : Nat) (s u : State) : Prop where
  shape : StairShape s u
  state : u.sState n = st % 16
  use : u.sUse n = useNone
  lanes : ∀ i ∈ portLanes n, u.laneState i = slOff
  port : ∃ next, u.sPort n = (s.sPort n).quiet s.now next
  count : u.stair.ports.length = s.stair.ports.length
  other : ∀ f, f.offPort n → u.get f = s.get f
  out : (∀ i ∈ portLanes n, (s.sLane i).startAt = none) → u.out = s.out

/-- The port and its lanes in their states, before what the port held for the far end is dropped. -/
def State.portOff (s : State) (n st : Nat) : State :=
  (((s.padLanes n).sEnter n st).lanesEnter n slOff)

/-- The port forgets its peer. -/
def State.portForgets (s : State) (n : Nat) : State :=
  ((s.put (Reg.STAIR.PORT_STATUS.use n) useNone).put (Reg.STAIR.PORT_PEER.valid n) 0).modSPort n fun x =>
    { x with queue := [], unacked := [], parts := [0, 0, 0], runs := [0, 0, 0, 0, 0, 0], hello := none, adopted := false, adopting := none,
             gone := x.child.isSome }

theorem State.portQuiet_eq (s : State) (n st : Nat) : s.portQuiet n st = (s.portOff n st).portForgets n := rfl

/-- The port and its lanes are in their states. -/
theorem State.portOff_spec {s : State} {n : Nat} (hn : n < 4) (hports : s.stair.ports.length = 4) (st : Nat) :
    StairShape s (s.portOff n st) ∧ (s.portOff n st).sState n = st % 16 ∧ (∀ i ∈ portLanes n, (s.portOff n st).laneState i = slOff) ∧
      (∃ next, (s.portOff n st).sPort n = { s.sPort n with since := s.now, next := next }) ∧
      (s.portOff n st).stair.ports.length = s.stair.ports.length ∧ (∀ f, f.offPort n → (s.portOff n st).get f = s.get f) ∧
      ((∀ i ∈ portLanes n, (s.sLane i).startAt = none) → (s.portOff n st).out = s.out) := by
  obtain ⟨pads, next, -, -, hout, hregs, hport⟩ := s.padLanes_spec (n := n) (by omega)
  have hlen := s.length_ports_padLanes n
  have hshape := stairShape_padLanes s n
  have hidle (h : ∀ i ∈ portLanes n, (s.sLane i).startAt = none) : (s.padLanes n).out = s.out := by rw [s.padLanes_of_idle h]
  obtain ⟨v, hv⟩ : ∃ v, v = s.padLanes n := ⟨_, rfl⟩
  rw [State.portOff]
  rw [← hv] at hregs hport hlen hshape hidle ⊢
  have hoffState : (Reg.STAIR.PORT_STATUS.state n).offLanes := .inl (by dsimp only; omega)
  refine ⟨(hshape.trans (stairShape_sEnter ..)).trans (stairShape_lanesEnter ..), ?_, fun i hi => State.laneState_lanesEnter _ _ hi,
    ⟨next, ?_⟩, ?_, fun f hf => ?_, fun h => ?_⟩
  · rw [State.sState, State.get_lanesEnter _ hn _ hoffState (Fld.apart_of_lo fun _ => .inl (by dsimp only; omega))]
    exact v.sState_sEnter n st
  · rw [State.sPort, State.ports_lanesEnter]
    exact (v.sPort_sEnter (by omega) st).trans (by rw [hport, hshape.now])
  · rw [State.ports_lanesEnter, State.length_ports_sEnter, hlen]
  · obtain ⟨hlanes, -, hcount⟩ := hf
    rw [State.get_lanesEnter _ hn _ hlanes (Fld.apart_of_lo fun h => .inr (by have := hcount h.symm; dsimp only; omega)),
      State.get_sEnter _ _ _ (Fld.apart_of_lo fun h => .inr (by have := hcount h.symm; dsimp only; omega)), State.get_of_regs hregs]
  · rw [State.out_lanesEnter, State.out_sEnter, hidle h]

theorem portQuieted_portQuiet {s : State} {n : Nat} (hn : n < 4) (hports : s.stair.ports.length = 4) (st : Nat) : PortQuieted n st s (s.portQuiet n st) := by
  obtain ⟨hshape, hstate, hlanes, ⟨next, hport⟩, hlen, hother, hout⟩ := State.portOff_spec (s := s) hn hports st
  rw [State.portQuiet_eq]
  obtain ⟨v, hv⟩ : ∃ v, v = s.portOff n st := ⟨_, rfl⟩
  rw [← hv] at hshape hstate hlanes hport hlen hother hout ⊢
  have hget {f : Fld} (h1 : (Reg.STAIR.PORT_STATUS.use n).apart f = true) (h2 : (Reg.STAIR.PORT_PEER.valid n).apart f = true) :
      (v.portForgets n).get f = v.get f := by
    rw [State.portForgets, State.get_modSPort, State.get_put_apart _ rfl h2, State.get_put_apart _ rfl h1]
  refine ⟨hshape.trans (((stairShape_put ..).trans (stairShape_put ..)).trans (stairShape_modSPort ..)), ?_, ?_, fun i hi => ?_, ⟨next, ?_⟩, ?_,
    fun f hf => ?_, fun h => ?_⟩
  · exact (hget (Fld.apart_of_lo fun _ => .inl (by dsimp only; omega)) (Fld.apart_of_addr (by dsimp only; omega))).trans hstate
  · rw [State.sUse, State.portForgets, State.get_modSPort, State.get_put_elsewhere _ (by dsimp only; omega)]
    exact State.get_put_same _ rfl _
  · exact (hget (Fld.apart_of_addr (by dsimp only; omega)) (Fld.apart_of_addr (by have := mem_portLanes.1 hi; dsimp only; omega))).trans (hlanes i hi)
  · rw [State.portForgets, State.sPort_modSPort_same (by rw [State.stair_put, State.stair_put]; omega), State.sPort_put, State.sPort_put, hport]
    rfl
  · rw [State.portForgets, State.length_ports_modSPort, State.stair_put, State.stair_put, hlen]
  · obtain ⟨hlanes, hpeer, hcount⟩ := hf
    rw [hget (Fld.apart_of_lo fun h => .inr (by have := hcount h.symm; dsimp only; omega)) (Fld.apart_of_addr fun h => hpeer h.symm)]
    exact hother f ⟨hlanes, hpeer, hcount⟩
  · rw [State.portForgets, State.out_modSPort, State.out_put, State.out_put, hout h]

end Sys2Proof.Machine
end

