-- ==== Sys2Proof/Proofs/StairDelivery.lean ====
section
/-!
Codewords on a flight, and the faults of flights and lanes (R427 to R429, R440, R447, R453, R454).
-/

namespace Sys2Proof.Machine

open Sys2Proof

/-! ### Codewords received -/

theorem seqAhead_self (q : Nat) : seqAhead q q = 0 := by
  unfold seqAhead
  omega

theorem State.codeword_of_next {s : State} {n seq : Nat} (hnext : seq % 16384 = (s.sPort n).rxNext) (hhave : (s.sPort n).rxHave = []) :
    s.codeword n seq = s.modSPort n fun x => { x with rxNext := (seq % 16384 + 1) % 16384, rxHave := [] } := by
  have hahead : seqAhead (seq % 16384) (s.sPort n).rxNext = 0 := by rw [← hnext, seqAhead_self]
  have hrow : takeRow ((s.sPort n).rxHave.length + 1) (s.sPort n).rxNext (seq % 16384 :: (s.sPort n).rxHave) = ((seq % 16384 + 1) % 16384, []) := by
    rw [hhave, ← hnext]
    simp [takeRow]
  unfold State.codeword
  dsimp only
  rw [hrow, hahead, hhave]
  rfl

theorem State.codeword_of_duplicate {s : State} {n seq : Nat}
    (h : 8192 ≤ seqAhead (seq % 16384) (s.sPort n).rxNext ∨ seq % 16384 ∈ (s.sPort n).rxHave) : s.codeword n seq = s.bump (Reg.STAIR.PORT_DUP.word n) := by
  refine if_pos ?_
  rw [Bool.or_eq_true, decide_eq_true_eq, List.contains_iff_mem]
  exact h

/-! ### Codewords sent again -/

/-- The earliest of codewords: the first, where none begun earlier follows. -/
def earliest (c : Codeword) (l : List Codeword) : Codeword := l.foldl (fun b y => if y.begun < b.begun then y else b) c

theorem earliest_spec (c : Codeword) (l : List Codeword) :
    (earliest c l = c ∨ earliest c l ∈ l) ∧ (earliest c l).begun ≤ c.begun ∧ ∀ d ∈ l, (earliest c l).begun ≤ d.begun := by
  induction l generalizing c with
  | nil => exact ⟨.inl rfl, le_rfl, fun d hd => absurd hd List.not_mem_nil⟩
  | cons y l ih =>
    obtain ⟨hmem, hle, hall⟩ := ih (if y.begun < c.begun then y else c)
    have heq : earliest c (y :: l) = earliest (if y.begun < c.begun then y else c) l := rfl
    rw [heq]
    by_cases h : y.begun < c.begun
    · rw [if_pos h] at hmem hle hall ⊢
      refine ⟨.inr (List.mem_cons.2 hmem), le_of_lt (lt_of_le_of_lt hle h), fun d hd => ?_⟩
      rcases List.mem_cons.1 hd with rfl | hd
      exacts [hle, hall d hd]
    · rw [if_neg h] at hmem hle hall ⊢
      refine ⟨hmem.imp_right (List.mem_cons_of_mem _), hle, fun d hd => ?_⟩
      rcases List.mem_cons.1 hd with rfl | hd
      exacts [le_trans hle (Nat.not_lt.1 h), hall d hd]

/-- The codewords of a port that are due to be sent again. -/
def State.againDue (s : State) (n : Nat) : List Codeword :=
  if 512 ≤ (s.sPort n).unacked.length then (s.sPort n).unacked
  else (s.sPort n).unacked.filter fun c => decide (c.begun + ticksOfUs 2 ≤ s.now)

theorem State.againOf_nil {s : State} {n : Nat} (h : s.againDue n = []) : s.againOf n = none := by
  rw [State.againDue] at h
  unfold State.againOf
  dsimp only
  rw [h]

theorem State.againOf_cons {s : State} {n : Nat} {c : Codeword} {rest : List Codeword} (h : s.againDue n = c :: rest) :
    s.againOf n = some (earliest c rest) := by
  rw [State.againDue] at h
  unfold State.againOf
  dsimp only
  rw [h]
  rfl

theorem State.mem_againDue {s : State} {n : Nat} {c : Codeword} :
    c ∈ s.againDue n ↔ c ∈ (s.sPort n).unacked ∧ (512 ≤ (s.sPort n).unacked.length ∨ c.begun + ticksOfUs 2 ≤ s.now) := by
  unfold State.againDue
  split
  next h => exact ⟨fun hc => ⟨hc, .inl h⟩, fun hc => hc.1⟩
  next h =>
    rw [List.mem_filter, decide_eq_true_eq]
    exact ⟨fun hc => ⟨hc.1, .inr hc.2⟩, fun hc => ⟨hc.1, hc.2.resolve_left h⟩⟩

theorem State.againOf_of_none {s : State} {n : Nat} (h : ∀ c ∈ (s.sPort n).unacked, ¬ (512 ≤ (s.sPort n).unacked.length ∨ c.begun + ticksOfUs 2 ≤ s.now)) :
    s.againOf n = none := by
  have hnil : s.againDue n = [] := List.eq_nil_iff_forall_not_mem.2 fun c hc => h c (State.mem_againDue.1 hc).1 (State.mem_againDue.1 hc).2
  exact State.againOf_nil hnil

/-- The one sent longest ago of those that are due (R429). -/
theorem State.againOf_of_some {s : State} {n : Nat} (h : ∃ c, c ∈ s.againDue n) :
    ∃ c, s.againOf n = some c ∧ c ∈ s.againDue n ∧ ∀ d ∈ s.againDue n, c.begun ≤ d.begun := by
  obtain ⟨c, hc⟩ := h
  obtain ⟨x, rest, hl⟩ := List.exists_cons_of_ne_nil (List.ne_nil_of_mem hc)
  obtain ⟨hmem, hle, hall⟩ := earliest_spec x rest
  refine ⟨earliest x rest, State.againOf_cons hl, ?_, fun d hd => ?_⟩
  · rw [hl]
    exact List.mem_cons.2 hmem
  · rw [hl] at hd
    rcases List.mem_cons.1 hd with rfl | hd
    exacts [hle, hall d hd]

theorem State.dealOrder_congr {s u : State} {n : Nat} (hlane : ∀ i ∈ portLanes n, u.laneState i = s.laneState i)
    (hsplit : (u.sPort n).split = (s.sPort n).split) (hturn : (u.sPort n).turn = (s.sPort n).turn) : u.dealOrder n = s.dealOrder n := by
  have hlanes : (u.activeLanes n).filter u.transmits = (s.activeLanes n).filter s.transmits := by
    rw [State.activeLanes, State.activeLanes, List.filter_filter, List.filter_filter]
    refine List.filter_congr fun i hi => ?_
    rw [hlane i hi, State.transmits, State.transmits, mem_portLanes.1 hi, hsplit]
  rw [State.dealOrder, State.dealOrder, hlanes, hturn]

/-- A lane sends, and the next one has its turn. -/
def State.laneSends (s : State) (i : Nat) (o : Output) (f : StairLane → StairLane) : State :=
  ((s.emit o).modSLane i f).modSPort (i / 4) fun y => { y with turn := (i + 1) % 4 }

theorem State.onLane_eq (s : State) (i : Nat) (w : Codeword) : ∃ place levels f, s.onLane i w =
    if w.load.isSome then (s.laneSends i (.codeword i place w.seq levels) f).put (Reg.STAIR.LANE_ADAPT.idle i) 0
    else s.laneSends i (.codeword i place w.seq levels) f := ⟨_, _, _, rfl⟩

/-- What a codeword on a lane of its port changes (R427). -/
theorem State.onLane_spec {s : State} {i n : Nat} (hi : i / 4 = n) (hn : n < s.stair.ports.length) (w : Codeword) :
    (∃ place levels, (s.onLane i w).out = s.out ++ [.codeword i place w.seq levels]) ∧
      (s.onLane i w).sPort n = { s.sPort n with turn := (i + 1) % 4 } ∧
      (∀ f, f.addr ≠ (Reg.STAIR.LANE_ADAPT.word i).addr → (s.onLane i w).get f = s.get f) ∧ (s.onLane i w).mem = s.mem := by
  subst hi
  obtain ⟨place, levels, f, heq⟩ := s.onLane_eq i w
  have hport : (s.laneSends i (.codeword i place w.seq levels) f).sPort (i / 4) = { s.sPort (i / 4) with turn := (i + 1) % 4 } :=
    State.sPort_modSPort_same (s := (s.emit (.codeword i place w.seq levels)).modSLane i f) hn _
  have hout : (s.laneSends i (.codeword i place w.seq levels) f).out = s.out ++ [.codeword i place w.seq levels] := rfl
  have hget (g : Fld) : (s.laneSends i (.codeword i place w.seq levels) f).get g = s.get g := rfl
  have hmem : (s.laneSends i (.codeword i place w.seq levels) f).mem = s.mem := rfl
  rw [heq]
  generalize s.laneSends i (.codeword i place w.seq levels) f = v at hport hout hget hmem
  split
  · exact ⟨⟨_, _, hout⟩, hport, fun f hf => (v.get_put_elsewhere (f := Reg.STAIR.LANE_ADAPT.idle i) (Ne.symm hf) 0).trans (hget f), hmem⟩
  · exact ⟨⟨_, _, hout⟩, hport, fun f _ => hget f, hmem⟩

/-- The codeword of a number is in hand again since `at0`. -/
def Codeword.again (seq at0 : Nat) (y : Codeword) : Codeword := if y.seq = seq then { y with begun := at0 } else y

/-- A port counts and announces a codeword that it sends again, and pads its lanes. -/
def State.againCounted (s : State) (n : Nat) (c : Codeword) : State :=
  (((s.modSPort n fun x => { x with unacked := x.unacked.map (Codeword.again c.seq s.now) }).bump (Reg.STAIR.PORT_RESENT.word n)).emit
    (.codewordAgain n c.seq)).padLanes n

theorem State.againCounted_spec {s : State} {n : Nat} (hn : n < s.stair.ports.length) (c : Codeword) :
    (∃ pads, (s.againCounted n c).out = s.out ++ [.codewordAgain n c.seq] ++ pads) ∧
      (s.againCounted n c).get (Reg.STAIR.PORT_RESENT.word n) = (s.get (Reg.STAIR.PORT_RESENT.word n) + 1) % 2 ^ 32 ∧
      (s.againCounted n c).dealOrder n = s.dealOrder n ∧
      (∃ next, (s.againCounted n c).sPort n = { s.sPort n with unacked := (s.sPort n).unacked.map (Codeword.again c.seq s.now), next := next }) ∧
      (s.againCounted n c).stair.ports.length = s.stair.ports.length ∧ (s.againCounted n c).mem = s.mem := by
  obtain ⟨m, hm⟩ : ∃ m, m = s.modSPort n fun x => { x with unacked := x.unacked.map (Codeword.again c.seq s.now) } := ⟨_, rfl⟩
  have hmport : m.sPort n = { s.sPort n with unacked := (s.sPort n).unacked.map (Codeword.again c.seq s.now) } := by
    rw [hm]
    exact State.sPort_modSPort_same hn _
  have hmlen : m.stair.ports.length = s.stair.ports.length := by rw [hm, State.length_ports_modSPort]
  have hmget (f : Fld) : m.get f = s.get f := by rw [hm, State.get_modSPort]
  have hmout : m.out = s.out := by rw [hm, State.out_modSPort]
  have hmmem : m.mem = s.mem := by rw [hm]; rfl
  obtain ⟨v, hv⟩ : ∃ v, v = (m.bump (Reg.STAIR.PORT_RESENT.word n)).emit (.codewordAgain n c.seq) := ⟨_, rfl⟩
  have hvport : v.sPort n = m.sPort n := by rw [hv]; rfl
  have hvlen : v.stair.ports.length = m.stair.ports.length := by rw [hv]; rfl
  have hvout : v.out = m.out ++ [.codewordAgain n c.seq] := by rw [hv]; rfl
  have hvget (f : Fld) : v.get f = (m.bump (Reg.STAIR.PORT_RESENT.word n)).get f := by rw [hv]; rfl
  have hvmem : v.mem = m.mem := by rw [hv]; rfl
  have heq : s.againCounted n c = v.padLanes n := by rw [State.againCounted, ← hm, ← hv]
  obtain ⟨pads, next, -, -, hout, hregs, hport⟩ := v.padLanes_spec (n := n) (by rw [hvlen, hmlen]; exact hn)
  have hlen := v.length_ports_padLanes n
  have hmem := (stairShape_padLanes v n).mem
  rw [← heq] at hout hregs hport hlen hmem
  have hget (f : Fld) : (s.againCounted n c).get f = (m.bump (Reg.STAIR.PORT_RESENT.word n)).get f := (State.get_of_regs hregs f).trans (hvget f)
  refine ⟨⟨pads, ?_⟩, ?_, State.dealOrder_congr (fun i _ => ?_) ?_ ?_, ⟨next, ?_⟩, ?_, ?_⟩
  · rw [hout, hvout, hmout]
  · rw [hget, State.get_bump_same _ rfl, hmget]
  · rw [State.laneState, hget, State.get_bump_elsewhere _ (by dsimp only; omega), hmget]
    rfl
  · rw [hport, hvport, hmport]
  · rw [hport, hvport, hmport]
  · rw [hport, hvport, hmport]
  · rw [hlen, hvlen, hmlen]
  · rw [hmem, hvmem, hmmem]

/-- A port in UP sends again the codeword that is due longest, unchanged, on the next lane (R429). -/
theorem gives_codewordResend {s : State} {n : Fin 4} (hports : s.stair.ports.length = 4) (hup : s.sUp n.val = true) {t : Nat} {c : Codeword}
    (hc : (s.atTime t).againOf n.val = some c) :
    ∃ u, Gives (.codewordResend t n) s u ∧ (s.out ++ [.codewordAgain n.val c.seq]) <+: u.out ∧
      u.get (Reg.STAIR.PORT_RESENT.word n.val) = (s.get (Reg.STAIR.PORT_RESENT.word n.val) + 1) % 2 ^ 32 ∧
      (u.sPort n.val).unacked = (s.sPort n.val).unacked.map (Codeword.again c.seq (max s.now t)) ∧
      (∀ i rest, s.dealOrder n.val = i :: rest → ∃ place levels, u.out.getLast? = some (.codeword i place c.seq levels)) ∧ u.mem = s.mem := by
  obtain ⟨⟨pads, hout⟩, hresent, hdeal, ⟨next, hport⟩, hlen, hmem⟩ := State.againCounted_spec (s := s.atTime t) (n := n.val) (by
    rw [State.stair_atTime, hports]
    exact n.isLt) c
  obtain ⟨v, hv⟩ : ∃ v, v = (s.atTime t).againCounted n.val c := ⟨_, rfl⟩
  rw [← hv] at hout hresent hdeal hport hlen hmem
  have hgives : Gives (.codewordResend t n) s (match v.dealOrder n.val with
      | i :: _ => v.onLane i c
      | [] => v) := by
    refine Gives.of_eq rfl ?_
    rw [hc]
    dsimp only
    rw [if_pos (show (s.atTime t).sUp n.val = true from hup), hv]
    rfl
  have hprefix (l : List Output) : (s.out ++ [.codewordAgain n.val c.seq]) <+: v.out ++ l := by
    rw [hout, List.append_assoc]
    exact List.prefix_append ..
  have hdealt : v.dealOrder n.val = s.dealOrder n.val := hdeal
  cases hl : v.dealOrder n.val with
  | nil =>
    rw [hl] at hgives
    refine ⟨v, hgives, ?_, hresent, ?_, fun i rest h => ?_, hmem⟩
    · rw [← List.append_nil v.out]
      exact hprefix []
    · rw [hport]
      rfl
    · rw [← hdealt, hl] at h
      cases h
  | cons i rest =>
    rw [hl] at hgives
    have hi : i / 4 = n.val := lane_of_mem_dealOrder (s := v) (by rw [hl]; exact List.mem_cons_self)
    obtain ⟨⟨place, levels, hlast⟩, hturn, hget, hmem'⟩ := State.onLane_spec (s := v) hi (by rw [hlen, State.stair_atTime, hports]; exact n.isLt) c
    refine ⟨v.onLane i c, hgives, ?_, (hget _ (by have := n.isLt; dsimp only; omega)).trans hresent, ?_, fun j rest' h => ?_, hmem'.trans hmem⟩
    · rw [hlast]
      exact hprefix _
    · rw [hturn, hport]
      rfl
    · rw [← hdealt, hl] at h
      cases h
      rw [hlast]
      exact ⟨place, levels, List.getLast?_concat ..⟩

theorem stairCodewords : Claim.StairCodewords := by
  intro s t lane n seq content ack fec hports
  have hup : ∀ {m : Nat}, s.sUp m = false → (s.atTime t).sUp m = false := fun h => h
  refine ⟨fun hno => ?_, fun hu hact => ⟨?_, fun hnext hhave => ?_, fun hdup => ?_⟩, fun hno => ?_, fun due hdue hex hu => ?_, fun hno => ?_,
    fun hu hne hlate => ?_, fun hu hlate => ?_, fun hno => ?_⟩
  · refine Gives.of_eq rfl (if_pos ?_)
    rw [Bool.or_eq_true, Bool.not_eq_true', bne_iff_ne]
    exact hno
  · exact Gives.of_eq rfl ((if_neg (by rw [show (s.atTime t).sUp _ = true from hu, show (s.atTime t).laneState _ = _ from hact]; decide)).trans (if_pos rfl))
  · exact Gives.of_eq rfl ((if_neg (by rw [show (s.atTime t).sUp _ = true from hu, show (s.atTime t).laneState _ = _ from hact]; decide)).trans
      (State.codeword_of_next (s := s.atTime t) hnext hhave))
  · exact Gives.of_eq rfl ((if_neg (by rw [show (s.atTime t).sUp _ = true from hu, show (s.atTime t).laneState _ = _ from hact]; decide)).trans
      (State.codeword_of_duplicate (s := s.atTime t) hdup))
  · refine Gives.of_eq rfl ?_
    rcases hno with ⟨hlen, hall⟩ | hno
    · rw [State.againOf_of_none (s := s.atTime t) fun c hc h => h.elim (Nat.not_le.2 hlen) (Nat.not_le.2 (hall c hc))]
    · split
      · exact if_neg (by rw [hup hno]; exact Bool.false_ne_true)
      · rfl
  · subst hdue
    obtain ⟨d, hd, hdd⟩ := hex
    obtain ⟨c, hc, hmem, hall⟩ := State.againOf_of_some (s := s.atTime t) (n := n.val) ⟨d, State.mem_againDue.2 ⟨hd, hdd⟩⟩
    obtain ⟨u, hgives, h1, h2, h3, h4, h5⟩ := gives_codewordResend hports hu hc
    exact ⟨u, c, hgives, (State.mem_againDue.1 hmem).1, (State.mem_againDue.1 hmem).2, fun d hd hdd => hall d (State.mem_againDue.2 ⟨hd, hdd⟩), h1, h2, h3, h4, h5⟩
  · refine Gives.of_eq rfl (if_neg ?_)
    rw [Bool.and_eq_true, Bool.and_eq_true, Bool.not_eq_true', decide_eq_true_eq]
    rintro ⟨⟨h1, h2⟩, h3⟩
    rcases hno with h | h | h
    · exact Bool.false_ne_true ((hup h).symm.trans h1)
    · exact Bool.false_ne_true (h2.symm.trans (List.isEmpty_iff.2 h))
    · exact absurd h3 (Nat.not_le.2 h)
  · refine Gives.of_eq rfl (if_pos ?_)
    rw [Bool.and_eq_true, Bool.and_eq_true, Bool.not_eq_true', decide_eq_true_eq]
    exact ⟨⟨hu, List.isEmpty_eq_false_iff.2 hne⟩, hlate⟩
  · refine Gives.of_eq rfl (if_pos ?_)
    rw [Bool.and_eq_true, decide_eq_true_eq]
    exact ⟨hu, hlate⟩
  · refine Gives.of_eq rfl (if_neg ?_)
    rw [Bool.and_eq_true, decide_eq_true_eq]
    rintro ⟨h1, h2⟩
    rcases hno with h | h
    · exact Bool.false_ne_true ((hup h).symm.trans h1)
    · exact absurd h2 (Nat.not_le.2 h)

/-! ### Flight faults -/

theorem State.stair_record (s : State) (x : Rec) : (s.record x).stair = s.stair := by
  obtain ⟨_, _, _, _, _, h⟩ := logApart_record s x
  rw [h]

theorem offPort_of_elsewhere {f : Fld} {n : Nat} (h : f.addr < 0x480104 ∨ 0x480600 ≤ f.addr) (hn : n < 4) : f.offPort n :=
  ⟨by unfold Fld.offLanes; omega, by dsimp only; omega, fun h' => by dsimp only at h'; omega⟩

/-- A port leaves UP with a fault that is counted and recorded. -/
def State.flightLost (s : State) (n cause st : Nat) : State :=
  (((s.bump (Reg.STAIR.PORT_STATUS.flight_faults n)).portQuiet n st).put (Reg.STAIR.PORT_STATUS.cause n) cause)

/-- The record and the notice of a flight fault. -/
def State.flightRecorded (s : State) (n cause action : Nat) : State :=
  (s.record { kind := .fault, cls := 0x0C, unit := unitStair, inst := n, cause := cause, action := action }).notice .topology

/-- Does the landing ask for the parent on this port? -/
def State.asksOn (s : State) (n : Nat) : Bool :=
  match s.treeOf.asking with
  | some (m, _) => m == n
  | none => false

theorem State.flightFaultTo_eq (s : State) (n cause st : Nat) :
    s.flightFaultTo n cause st =
      if !s.sUp n then s
      else if s.parentPort == some n then
        ((s.flightLost n cause st).flightRecorded n cause (if s.parentPort == some n then 8 else 0)).parentLost (s.unsent n)
      else if s.asksOn n then ((s.flightLost n cause st).flightRecorded n cause (if s.parentPort == some n then 8 else 0)).abandon
      else (s.flightLost n cause st).flightRecorded n cause (if s.parentPort == some n then 8 else 0) := rfl

/-- A fault of a flight that is neither the parent's nor that of a parent asked for (R454). -/
theorem State.flightFaultTo_of_plain {s : State} {n : Nat} (hup : s.sUp n = true) (hparent : s.parentPort ≠ some n)
    (hask : ∀ x, s.treeOf.asking = some x → x.1 ≠ n) (cause st : Nat) : s.flightFaultTo n cause st = (s.flightLost n cause st).flightRecorded n cause 0 := by
  have hp : ¬ (s.parentPort == some n) = true := by rw [beq_iff_eq]; exact hparent
  have ha : ¬ s.asksOn n = true := by
    unfold State.asksOn
    split
    next m since h => rw [beq_iff_eq]; exact hask _ h
    next => exact Bool.false_ne_true
  rw [State.flightFaultTo_eq, if_neg (by rw [hup]; decide), if_neg hp, if_neg ha, if_neg hp]

theorem State.get_flightRecorded (s : State) (n cause action : Nat) {f : Fld} (h : ¬ recordWords f.addr) :
    (s.flightRecorded n cause action).get f = s.get f := by
  rw [State.flightRecorded, State.get_notice_other _ _ fun h' => h (by simp [recordWords, ← h']), State.get_record _ _ h]

/-- What a flight fault leaves of its port (R454). -/
theorem State.flightLost_spec {s : State} {n : Nat} (hn : n < 4) (hports : s.stair.ports.length = 4) {cause : Nat} (hcause : cause < 16) (st : Nat) :
    (s.flightLost n cause st).sState n = st % 16 ∧ (s.flightLost n cause st).get (Reg.STAIR.PORT_STATUS.cause n) = cause ∧
      (s.flightLost n cause st).get (Reg.STAIR.PORT_STATUS.flight_faults n) = (s.get (Reg.STAIR.PORT_STATUS.flight_faults n) + 1) % 256 ∧
      (s.flightLost n cause st).sUse n = useNone ∧ (∀ i ∈ portLanes n, (s.flightLost n cause st).laneState i = slOff) ∧
      ((s.flightLost n cause st).sPort n).queue = [] ∧ ((s.flightLost n cause st).sPort n).unacked = [] ∧
      ∀ f : Fld, f.addr < 0x480104 ∨ 0x480600 ≤ f.addr → (s.flightLost n cause st).get f = s.get f := by
  obtain ⟨v, hv⟩ : ∃ v, v = s.bump (Reg.STAIR.PORT_STATUS.flight_faults n) := ⟨_, rfl⟩
  have hvget {f : Fld} (h : (Reg.STAIR.PORT_STATUS.flight_faults n).apart f = true) : v.get f = s.get f := by
    rw [hv]
    exact State.get_bump_apart s rfl h
  have hvfaults : v.get (Reg.STAIR.PORT_STATUS.flight_faults n) = (s.get (Reg.STAIR.PORT_STATUS.flight_faults n) + 1) % 256 := by
    rw [hv]
    exact State.get_bump_same s rfl
  have hvports : v.stair.ports.length = 4 := by rw [hv]; exact hports
  obtain ⟨-, hstate, huse, hlanes, ⟨next, hport⟩, -, hother, -⟩ := portQuieted_portQuiet hn hvports st
  have heq : s.flightLost n cause st = (v.portQuiet n st).put (Reg.STAIR.PORT_STATUS.cause n) cause := by rw [State.flightLost, hv]
  rw [heq]
  generalize v.portQuiet n st = w at hstate huse hlanes hport hother
  refine ⟨?_, ?_, ?_, ?_, fun i hi => ?_, ?_, ?_, fun f hf => ?_⟩
  · exact (State.get_put_apart w rfl (Fld.apart_of_lo fun _ => .inl (by dsimp only; omega)) _).trans hstate
  · rw [State.get_put_same w rfl]
    exact Nat.mod_eq_of_lt hcause
  · rw [State.get_put_apart w rfl (Fld.apart_of_lo fun _ => .inr (by dsimp only; omega)), hother _ ⟨.inl (by dsimp only; omega), by dsimp only; omega,
      fun _ => by dsimp only; omega⟩, hvfaults]
  · exact (State.get_put_apart w rfl (Fld.apart_of_lo fun _ => .inr (by dsimp only; omega)) _).trans huse
  · exact (State.laneState_put_off w (fun j => by dsimp only; omega) _ _).trans (hlanes i hi)
  · rw [State.sPort_put, hport]
    rfl
  · rw [State.sPort_put, hport]
    rfl
  · rw [State.get_put_elsewhere w (by dsimp only; omega), hother f (offPort_of_elsewhere hf hn), hvget (Fld.apart_of_addr (by dsimp only; omega))]

/-! ### Lanes of a port -/

/-- The mask of the active lanes of a port. -/
theorem testBit_laneMask (p : Nat → Bool) {k : Nat} (hk : k < 4) :
    (sumNat ((List.range 4).map fun l => if p l then 2 ^ l else 0)).testBit k = p k := by
  have hlist : (List.range 4).map (fun l => if p l then 2 ^ l else 0) =
      [if p 0 then 1 else 0, if p 1 then 2 else 0, if p 2 then 4 else 0, if p 3 then 8 else 0] := rfl
  rw [hlist]
  interval_cases k <;> cases p 0 <;> cases p 1 <;> cases p 2 <;> cases p 3 <;> rfl

theorem laneMask_lt (p : Nat → Bool) : sumNat ((List.range 4).map fun l => if p l then 2 ^ l else 0) < 16 := by
  have hlist : (List.range 4).map (fun l => if p l then 2 ^ l else 0) =
      [if p 0 then 1 else 0, if p 1 then 2 else 0, if p 2 then 4 else 0, if p 3 then 8 else 0] := rfl
  rw [hlist]
  cases p 0 <;> cases p 1 <;> cases p 2 <;> cases p 3 <;> decide

section

variable {s : State}

/-- PORT_STATUS shows whether a lane is active. -/
theorem State.testBit_showLanes (s : State) (i : Nat) :
    ((s.showLanes (i / 4)).get (Reg.STAIR.PORT_STATUS.lanes (i / 4))).testBit (i % 4) = (s.laneState i == slActive) := by
  rw [State.showLanes, State.get_put_same _ rfl]
  refine (congrArg (Nat.testBit · (i % 4)) (Nat.mod_eq_of_lt (laneMask_lt fun l => s.laneState (4 * (i / 4) + l) == slActive))).trans ?_
  rw [testBit_laneMask (fun l => s.laneState (4 * (i / 4) + l) == slActive) (Nat.mod_lt _ (by decide)), Nat.div_add_mod]

theorem State.laneState_showLanes (s : State) (n i : Nat) : (s.showLanes n).laneState i = s.laneState i :=
  State.laneState_put_off s (fun j => by dsimp only; omega) _ _

theorem State.get_showLanes (s : State) (n : Nat) {f : Fld} (h : (Reg.STAIR.PORT_STATUS.lanes n).apart f = true) : (s.showLanes n).get f = s.get f :=
  s.get_put_apart rfl h _

theorem State.sPort_showLanes (s : State) (n m : Nat) : (s.showLanes n).sPort m = s.sPort m := rfl

/-- Where all lanes but one are as they were, the port has at most one active lane less. -/
theorem State.length_activeLanes_of_other {s u : State} {n i : Nat} (h : ∀ j, j ≠ i → u.laneState j = s.laneState j) :
    (s.activeLanes n).length ≤ (u.activeLanes n).length + 1 := by
  have hsub : ((s.activeLanes n).erase i) ⊆ u.activeLanes n := fun j hj => by
    obtain ⟨hne, hmem⟩ := ((List.Nodup.filter _ (nodup_portLanes n)).mem_erase_iff).1 hj
    obtain ⟨hport, hact⟩ := List.mem_filter.1 hmem
    exact List.mem_filter.2 ⟨hport, by rw [h j hne]; exact hact⟩
  have hle : ((s.activeLanes n).erase i).length ≤ (u.activeLanes n).length := (((List.Nodup.filter _ (nodup_portLanes n)).erase i).subperm hsub).length_le
  have hlen := List.length_erase (a := i) (l := s.activeLanes n)
  split at hlen <;> omega

end

/-! ### Lane faults -/

/-- A lane is out, with its cause and its count. -/
def State.laneLost (s : State) (i cause : Nat) : State :=
  (((s.put (Reg.STAIR.LANE_STATUS.state i) slOut).put (Reg.STAIR.LANE_STATUS.cause i) cause).bump (Reg.STAIR.LANE_STATUS.faults i)).put
    (Reg.STAIR.LANE_ADAPT.idle i) 0

/-- What the landing knows of a lane starts anew. -/
def State.laneAnew (s : State) (i : Nat) : State :=
  s.modSLane i fun x => { x with since := s.now, rolled := false, qualified := false, startAt := none, sent := 0 }

/-- The average of the port's delay starts anew, where its lowest lane changes (R466). -/
def State.delayAnew (s : State) (n : Nat) (anew : Bool) : State :=
  if anew then s.modSPort n fun x => { x with delays := [], holdDelay := true, sentMarks := [], heardMarks := [] } else s

theorem State.removeLane_of_active {s : State} {i : Nat} (hup : s.sUp (i / 4) = true) (hact : s.laneState i = slActive) (cause : Nat) :
    s.removeLane i cause = ((((((s.padLanes (i / 4)).laneLost i cause).laneAnew i).showLanes (i / 4)).delayAnew (i / 4)
      ((s.activeLanes (i / 4)).head? == some i)).record
        { kind := .fault, cls := 0x0B, unit := unitStair, inst := i, cause := cause, action := 9 }) := by
  refine (if_neg (by rw [hup, hact]; decide)).trans ?_
  rfl

theorem State.removeLane_of_down {s : State} {i : Nat} (h : s.sUp (i / 4) = false) (cause : Nat) : s.removeLane i cause = s :=
  if_pos (by rw [h]; rfl)

theorem State.get_delayAnew (s : State) (n : Nat) (anew : Bool) (f : Fld) : (s.delayAnew n anew).get f = s.get f := by
  cases anew <;> rfl

theorem State.port_delayAnew {s : State} {n : Nat} (hn : n < s.stair.ports.length) (anew : Bool) :
    ((s.delayAnew n anew).sPort n).split = (s.sPort n).split ∧ ((s.delayAnew n anew).sPort n).min4 = (s.sPort n).min4 := by
  cases anew with
  | false => exact ⟨rfl, rfl⟩
  | true =>
    have h : (s.delayAnew n true).sPort n = { s.sPort n with delays := [], holdDelay := true, sentMarks := [], heardMarks := [] } :=
      State.sPort_modSPort_same hn _
    rw [h]
    exact ⟨rfl, rfl⟩

theorem State.stair_laneLost (s : State) (i cause : Nat) : (s.laneLost i cause).stair = s.stair := by
  rw [State.laneLost, State.stair_put, State.stair_bump, State.stair_put, State.stair_put]

/-- What the registers of a lane that is lost read. -/
theorem State.laneLost_spec (s : State) (i : Nat) {cause : Nat} (hc : cause < 16) :
    (s.laneLost i cause).laneState i = slOut ∧ (s.laneLost i cause).get (Reg.STAIR.LANE_STATUS.cause i) = cause ∧
      (s.laneLost i cause).get (Reg.STAIR.LANE_STATUS.faults i) = (s.get (Reg.STAIR.LANE_STATUS.faults i) + 1) % 256 ∧
      ∀ f : Fld, f.addr ≠ (Reg.STAIR.LANE_STATUS.word i).addr → f.addr ≠ (Reg.STAIR.LANE_ADAPT.word i).addr → (s.laneLost i cause).get f = s.get f := by
  have hlo {f g : Fld} (h : f.lo + f.width ≤ g.lo ∨ g.lo + g.width ≤ f.lo) : f.apart g = true := Fld.apart_of_lo fun _ => h
  unfold State.laneLost
  refine ⟨?_, ?_, ?_, fun f h1 h2 => ?_⟩
  · rw [State.laneState, State.get_put_elsewhere _ (by dsimp only; omega), State.get_bump_apart _ rfl (hlo (.inl (by dsimp only; omega))),
      State.get_put_apart _ rfl (hlo (.inl (by dsimp only; omega))), State.get_put_same _ rfl]
    rfl
  · rw [State.get_put_elsewhere _ (by dsimp only; omega), State.get_bump_apart _ rfl (hlo (.inl (by dsimp only; omega))), State.get_put_same _ rfl]
    exact Nat.mod_eq_of_lt hc
  · rw [State.get_put_elsewhere _ (by dsimp only; omega), State.get_bump_same _ rfl, State.get_put_apart _ rfl (hlo (.inr (by dsimp only; omega))),
      State.get_put_apart _ rfl (hlo (.inr (by dsimp only; omega)))]
    rfl
  · rw [State.get_put_elsewhere _ (f := Reg.STAIR.LANE_ADAPT.idle i) (Ne.symm h2),
      State.get_bump_elsewhere _ (f := Reg.STAIR.LANE_STATUS.faults i) (Ne.symm h1),
      State.get_put_elsewhere _ (f := Reg.STAIR.LANE_STATUS.cause i) (Ne.symm h1), State.get_put_elsewhere _ (f := Reg.STAIR.LANE_STATUS.state i) (Ne.symm h1)]

/-- A lane that is removed from its port in UP (R453). -/
theorem State.removeLane_spec {s : State} {i : Nat} (hi : i < 16) (hports : s.stair.ports.length = 4) (hup : s.sUp (i / 4) = true)
    (hact : s.laneState i = slActive) {cause : Nat} (hc : cause < 16) :
    (s.removeLane i cause).laneState i = slOut ∧ (s.removeLane i cause).get (Reg.STAIR.LANE_STATUS.cause i) = cause ∧
      (s.removeLane i cause).get (Reg.STAIR.LANE_STATUS.faults i) = (s.get (Reg.STAIR.LANE_STATUS.faults i) + 1) % 256 ∧
      (s.removeLane i cause).sUp (i / 4) = true ∧
      ((s.removeLane i cause).get (Reg.STAIR.PORT_STATUS.lanes (i / 4))).testBit (i % 4) = false ∧
      (s.removeLane i cause).minLanes (i / 4) = s.minLanes (i / 4) ∧ ∀ j, j ≠ i → (s.removeLane i cause).laneState j = s.laneState j := by
  have hn : i / 4 < 4 := by omega
  obtain ⟨pads, next, -, -, -, hregs, hport⟩ := s.padLanes_spec (n := i / 4) (by omega)
  have hlen := s.length_ports_padLanes (i / 4)
  rw [State.removeLane_of_active hup hact]
  generalize s.padLanes (i / 4) = v at hregs hport hlen
  have hvget (f : Fld) : v.get f = s.get f := State.get_of_regs hregs f
  obtain ⟨hout, hcause, hfaults, hother⟩ := v.laneLost_spec i hc
  obtain ⟨w, hw⟩ : ∃ w, w = (v.laneLost i cause).laneAnew i := ⟨_, rfl⟩
  have hwports : w.stair.ports = v.stair.ports := by rw [hw, State.laneAnew, State.ports_modSLane, State.stair_laneLost]
  have hwport (m : Nat) : w.sPort m = v.sPort m := by rw [State.sPort, State.sPort, hwports]
  have hwget (f : Fld) : w.get f = (v.laneLost i cause).get f := by rw [hw, State.laneAnew, State.get_modSLane]
  have hwlane (j : Nat) : w.laneState j = (v.laneLost i cause).laneState j := hwget _
  rw [← hw]
  obtain ⟨anew, hanew⟩ : ∃ b, b = ((s.activeLanes (i / 4)).head? == some i) := ⟨_, rfl⟩
  rw [← hanew]
  obtain ⟨hsplit, hmin⟩ := State.port_delayAnew (s := w.showLanes (i / 4)) (n := i / 4) (by rw [State.showLanes, State.stair_put, hwports]; omega) anew
  have hget {f : Fld} (hf : ¬ recordWords f.addr) (h : (Reg.STAIR.PORT_STATUS.lanes (i / 4)).apart f = true) (x : Rec) :
      (((w.showLanes (i / 4)).delayAnew (i / 4) anew).record x).get f = (v.laneLost i cause).get f := by
    rw [State.get_record _ _ hf, State.get_delayAnew, State.get_showLanes _ _ h, hwget]
  have hrec {a : Nat} (h1 : 0x480000 ≤ a) (h2 : a < 0x480700) : ¬ recordWords a := by
    simp only [recordWords, List.mem_cons, List.not_mem_nil, or_false]
    omega
  have hlaneGet (j : Nat) (hj : j < 16) (x : Rec) :
      (((w.showLanes (i / 4)).delayAnew (i / 4) anew).record x).laneState j = (v.laneLost i cause).laneState j :=
    hget (hrec (by dsimp only; omega) (by dsimp only; omega)) (Fld.apart_of_addr (by dsimp only; omega)) x
  refine ⟨(hlaneGet i hi _).trans hout, ?_, ?_, ?_, ?_, ?_, fun j hj => ?_⟩
  · rw [hget (hrec (by dsimp only; omega) (by dsimp only; omega)) (Fld.apart_of_addr (by dsimp only; omega)), hcause]
  · rw [hget (hrec (by dsimp only; omega) (by dsimp only; omega)) (Fld.apart_of_addr (by dsimp only; omega)), hfaults, hvget]
  · rw [State.sUp, State.sState, hget (hrec (by dsimp only; omega) (by dsimp only; omega)) (Fld.apart_of_lo fun _ => .inl (by dsimp only; omega)),
      hother _ (by dsimp only; omega) (by dsimp only; omega), hvget]
    exact hup
  · rw [State.get_record _ _ (hrec (by dsimp only; omega) (by dsimp only; omega)), State.get_delayAnew, State.testBit_showLanes, hwlane, hout]
    rfl
  · have hp (x : Rec) : (((w.showLanes (i / 4)).delayAnew (i / 4) anew).record x).sPort (i / 4) = ((w.showLanes (i / 4)).delayAnew (i / 4) anew).sPort (i / 4) := by
      rw [State.sPort, State.stair_record, State.sPort]
    rw [State.minLanes, State.minLanes, hp, hsplit, hmin, State.sPort_showLanes, hwport, hport]
  · rw [State.laneState, State.get_record _ _ (by simp only [recordWords, List.mem_cons, List.not_mem_nil, or_false]; omega), State.get_delayAnew,
      State.get_showLanes _ _ (Fld.apart_of_addr (by dsimp only; omega)), hwget, hother _ (by dsimp only; omega) (by dsimp only; omega), hvget]
    rfl

/-- A lane fault of an active lane, where enough lanes stay (R440, R453). -/
theorem State.laneFault_of_enough {s : State} {i : Nat} (hi : i < 16) (hports : s.stair.ports.length = 4) (hup : s.sUp (i / 4) = true)
    (hact : s.laneState i = slActive) (hmin : s.minLanes (i / 4) < (s.activeLanes (i / 4)).length) {cause : Nat} (hc : cause < 16) :
    s.laneFault i cause = s.removeLane i cause := by
  obtain ⟨-, -, -, -, -, hminR, hother⟩ := State.removeLane_spec hi hports hup hact hc
  refine if_neg ?_
  rw [Bool.and_eq_true, decide_eq_true_eq, hminR]
  rintro ⟨-, hlt⟩
  have := State.length_activeLanes_of_other (n := i / 4) hother
  omega

/-! ### Lanes rejoin -/

/-- A lane is active again, and its average of delays starts anew where it is the lowest. -/
def State.laneActive (s : State) (i : Nat) : State :=
  (((s.put (Reg.STAIR.LANE_STATUS.state i) slActive).modSLane i fun x => { x with since := s.now, busyAt := s.now, qualified := false }).lanesBegin [i])

theorem State.laneBack_eq (s : State) (i : Nat) :
    s.laneBack i = ((s.laneActive i).showLanes (i / 4)).delayAnew (i / 4)
      ((((s.laneActive i).showLanes (i / 4)).activeLanes (i / 4)).head? == some i) := rfl

theorem State.get_lanesBegin (s : State) (l : List Nat) (f : Fld) : (s.lanesBegin l).get f = s.get f :=
  State.forEach_induct (P := fun u => u.get f = s.get f) rfl fun _ _ _ hx => hx

/-- A lane that rejoins is active, and PORT_STATUS shows it (R453). -/
theorem State.laneBack_spec (s : State) (i : Nat) :
    (s.laneBack i).laneState i = slActive ∧ ((s.laneBack i).get (Reg.STAIR.PORT_STATUS.lanes (i / 4))).testBit (i % 4) = true := by
  have hact : (s.laneActive i).laneState i = slActive := by
    rw [State.laneActive, State.laneState, State.get_lanesBegin, State.get_modSLane]
    exact s.laneState_put_same i slActive
  rw [State.laneBack_eq]
  refine ⟨?_, ?_⟩
  · rw [State.laneState, State.get_delayAnew]
    exact (State.laneState_showLanes ..).trans hact
  · rw [State.get_delayAnew, State.testBit_showLanes, hact]
    rfl

/-- The causes of R454 but that of the stair clock. -/
theorem faultCause_of {cause : Fin 16} (h8 : 8 ≤ cause.val) (h14 : cause.val ≤ 14) (h13 : cause.val ≠ 13) :
    ¬ (decide (cause.val < 8) || decide (14 < cause.val) || decide (cause.val = 13)) = true := by
  rw [Bool.or_eq_true, Bool.or_eq_true, decide_eq_true_eq, decide_eq_true_eq, decide_eq_true_eq]
  omega

theorem stairFaults : Claim.StairFaults := by
  intro s t n lane cause lc hports _
  refine ⟨fun hc => ?_, fun h8 h14 h11 h13 => ⟨fun hno => ?_, fun hup hparent hask => ?_⟩, fun hno => ?_, fun h0 h4 hup hact hmin => ?_, fun hno => ?_,
    fun hup hout => ⟨fun hstart hgrid => ?_, fun hno => ?_⟩⟩
  · refine Gives.of_eq rfl (if_pos ?_)
    have := cause.isLt
    rw [Bool.or_eq_true, Bool.or_eq_true, decide_eq_true_eq, decide_eq_true_eq, decide_eq_true_eq]
    omega
  · exact Gives.of_eq rfl ((if_neg (faultCause_of h8 h14 h13)).trans ((if_neg h11).trans (if_pos (by rw [show (s.atTime t).sUp n.val = _ from hno]; rfl))))
  · have heq : (s.atTime t).flightFault n.val cause.val = _ := State.flightFaultTo_of_plain (s := s.atTime t) hup hparent hask cause.val spHoldoff
    obtain ⟨h1, h2, h3, h4, h5, h6, h7, hkeep⟩ := State.flightLost_spec (s := s.atTime t) n.isLt hports cause.isLt spHoldoff
    obtain ⟨v, hv⟩ : ∃ v, v = (s.atTime t).flightLost n.val cause.val spHoldoff := ⟨_, rfl⟩
    rw [← hv] at heq h1 h2 h3 h4 h5 h6 h7 hkeep
    have hrec {a : Nat} (h : 0x480000 ≤ a) (h' : a < 0x480700) : ¬ recordWords a := by
      simp only [recordWords, List.mem_cons, List.not_mem_nil, or_false]
      omega
    have hn := n.isLt
    have hget {f : Fld} (h : 0x480000 ≤ f.addr) (h' : f.addr < 0x480700) : (v.flightRecorded n.val cause.val 0).get f = v.get f :=
      v.get_flightRecorded _ _ _ (hrec h h')
    have hport : (v.flightRecorded n.val cause.val 0).sPort n.val = v.sPort n.val := by
      rw [State.sPort, State.flightRecorded, State.stair_notice, State.stair_record, State.sPort]
    refine ⟨_, Gives.of_eq rfl ((if_neg (faultCause_of h8 h14 h13)).trans ((if_neg h11).trans heq)), ?_, ?_, ?_, ?_, fun i hi => ?_, ?_, ?_, ?_, ?_⟩
    · exact (hget (by dsimp only; omega) (by dsimp only; omega)).trans h1
    · exact (hget (by dsimp only; omega) (by dsimp only; omega)).trans h2
    · exact (hget (by dsimp only; omega) (by dsimp only; omega)).trans h3
    · exact (hget (by dsimp only; omega) (by dsimp only; omega)).trans h4
    · exact (hget (by dsimp only; omega) (by have := mem_portLanes.1 hi; dsimp only; omega)).trans (h5 i hi)
    · rw [hport, h6]
    · rw [hport, h7]
    · rw [hget (by decide) (by decide), hkeep _ (.inl (by decide)), State.get_atTime]
    · rw [State.flightRecorded, State.log_notice, State.head_log_record]
      rfl
  · refine Gives.of_eq rfl ?_
    split
    · rfl
    next h =>
      rcases hno with h0 | hno
      · exact absurd (by rw [h0]; rfl) h
      · have hno' : (s.atTime t).sUp (lane.val / 4) = false := hno
        rw [State.laneFault, State.removeLane_of_down hno', hno']
        rfl
  · have hidle : ¬ (decide (lc.val = 0) || (lc.val == 4 && (s.atTime t).flag (Reg.STAIR.LANE_ADAPT.idle lane.val))) = true := by
      rw [decide_eq_false (show ¬ lc.val = 0 from fun h => h0 (Fin.ext h)), show (lc.val == 4) = false from beq_eq_false_iff_ne.2 fun h => h4 (Fin.ext h)]
      exact Bool.false_ne_true
    have hlc := lc.isLt
    obtain ⟨h1, h2, h3, h4, h5, -, -⟩ := State.removeLane_spec (s := s.atTime t) lane.isLt hports hup hact (cause := lc.val) (by omega)
    exact ⟨_, Gives.of_eq rfl ((if_neg hidle).trans (State.laneFault_of_enough (s := s.atTime t) lane.isLt hports hup hact hmin (by omega))),
      h1, h2, h3, h4, h5⟩
  · refine Gives.of_eq rfl (if_pos ?_)
    rw [Bool.or_eq_true, Bool.not_eq_true', bne_iff_ne]
    exact hno
  · obtain ⟨h1, h2⟩ := (s.atTime t).laneBack_spec lane.val
    refine ⟨_, Gives.of_eq rfl ((if_neg (by rw [show (s.atTime t).sUp _ = _ from hup, show (s.atTime t).laneState _ = _ from hout]; decide)).trans (if_pos ?_)), h1, h2⟩
    rw [Bool.and_eq_true, decide_eq_true_eq]
    exact ⟨hstart, hgrid⟩
  · refine Gives.of_eq rfl ((if_neg (by rw [show (s.atTime t).sUp _ = _ from hup, show (s.atTime t).laneState _ = _ from hout]; decide)).trans (if_neg ?_))
    rw [Bool.and_eq_true, decide_eq_true_eq]
    rintro ⟨h1, h2⟩
    rcases hno with h | h
    · exact Bool.false_ne_true (h.symm.trans h1)
    · exact h h2

/-- Settles O46: codewords by the number expected and the one that is due longest, faults by the port or lane that leaves. -/
theorem stairDelivery : Obligations.StairDelivery := ⟨stairCodewords, stairFaults⟩

end Sys2Proof.Machine
end

