-- ==== Sys2Proof/Proofs/StairBringUp.lean ====
section
/-!
Stair flights: training, sleep and the wake pattern (R422, R435 to R441, R467 to R469, R736).
-/

namespace Sys2Proof.Machine

open Sys2Proof

/-! ### LISTEN and HOLDOFF -/

section

variable {s : State} {n : Nat}

theorem State.portListen_eq (s : State) (n : Nat) :
    s.portListen n = (s.portQuiet n spListen).modSPort n fun x =>
      { x with burstAt := s.now, far := none, acked := false, echoes := 0, split := s.flag (Reg.STAIR.PORT_CTL.split n),
               min4 := s.flag (Reg.STAIR.PORT_CTL.min4 n) } := rfl

/-- What a port that listens reads (R435, R441). -/
theorem State.portListen_spec (hn : n < 4) (hports : s.stair.ports.length = 4) :
    (s.portListen n).sState n = spListen ∧ (s.portListen n).sUse n = useNone ∧ (∀ i ∈ portLanes n, (s.portListen n).laneState i = slOff) ∧
      ((s.portListen n).sPort n).split = s.flag (Reg.STAIR.PORT_CTL.split n) ∧ (s.portListen n).mem = s.mem ∧
      ((∀ i ∈ portLanes n, (s.sLane i).startAt = none) → (s.portListen n).out = s.out) := by
  obtain ⟨hshape, hstate, huse, hlanes, -, hlen, -, hout⟩ := portQuieted_portQuiet hn hports spListen
  rw [State.portListen_eq]
  generalize s.portQuiet n spListen = v at hshape hstate huse hlanes hlen hout
  have hget (f : Fld) := v.get_modSPort n (fun x => { x with
    burstAt := s.now, far := none, acked := false, echoes := 0, split := s.flag (Reg.STAIR.PORT_CTL.split n), min4 := s.flag (Reg.STAIR.PORT_CTL.min4 n) }) f
  refine ⟨(hget _).trans hstate, (hget _).trans huse, fun i hi => (hget _).trans (hlanes i hi), ?_, ?_, fun h => ?_⟩
  · rw [State.sPort_modSPort_same (by omega)]
  · rw [State.mem_modSPort, hshape.mem]
  · rw [State.out_modSPort, hout h]

/-- What a port in HOLDOFF reads (R438). -/
theorem State.portHoldoff_spec (hn : n < 4) (hports : s.stair.ports.length = 4) {cause : Nat} (hc : cause < 16) :
    (s.portHoldoff n cause).sState n = spHoldoff ∧ (s.portHoldoff n cause).get (Reg.STAIR.PORT_STATUS.cause n) = cause ∧
      (s.portHoldoff n cause).get (Reg.STAIR.PORT_STATUS.train_fail n) = s.get (Reg.STAIR.PORT_STATUS.train_fail n) := by
  obtain ⟨-, hstate, -, -, -, -, hother, -⟩ := portQuieted_portQuiet hn hports spHoldoff
  rw [State.portHoldoff]
  generalize s.portQuiet n spHoldoff = v at hstate hother
  refine ⟨(State.get_put_apart v rfl (Fld.apart_of_lo fun _ => .inl (by dsimp only; omega)) _).trans hstate, ?_, ?_⟩
  · rw [State.get_put_same v rfl]
    exact Nat.mod_eq_of_lt hc
  · rw [State.get_put_apart v rfl (Fld.apart_of_lo fun _ => .inr (by dsimp only; omega))]
    exact hother _ ⟨.inl (by dsimp only; omega), by dsimp only; omega, fun _ => by dsimp only; omega⟩

/-! ### Detect bursts -/

/-- A burst that begins a port's training (R435). -/
def State.burstBegins (s : State) (n : Nat) (b : Burst) : State :=
  ((s.sEnter n spDetect).modSPort n fun x => { x with burstAt := s.now, acked := false }).modSPort n fun x => { x with far := some b }

/-- A burst heard by a port in DETECT. -/
def State.burstHeard (s : State) (n : Nat) (b : Burst) : State := s.modSPort n fun x => { x with far := some b }

theorem State.detectCheck_of_unacked {b : Burst} (hfar : (s.sPort n).far = some b) (h : b.ack = false ∨ (s.sPort n).acked = false) :
    s.detectCheck n = s := by
  unfold State.detectCheck
  dsimp only
  rw [hfar]
  refine if_neg ?_
  rw [Bool.and_eq_true, Bool.and_eq_true]
  rintro ⟨⟨-, h1⟩, h2⟩
  rcases h with h | h
  · exact Bool.false_ne_true (h.symm.trans h1)
  · exact Bool.false_ne_true (h.symm.trans h2)

theorem State.detectCheck_of_far_none (hfar : (s.sPort n).far = none) : s.detectCheck n = s := by
  unfold State.detectCheck
  dsimp only
  rw [hfar]

theorem State.detectCheck_of_acked {b : Burst} (hfar : (s.sPort n).far = some b) (hst : s.sState n = spDetect) (hack : b.ack = true)
    (hacked : (s.sPort n).acked = true) : s.detectCheck n = s.detected n b := by
  unfold State.detectCheck
  dsimp only
  rw [hfar]
  exact if_pos (by rw [hst, hack, hacked]; rfl)

/-- The far end is shown, and training of the lanes begins. -/
def State.peerFound (s : State) (n : Nat) (b : Burst) : State :=
  ((((s.put (Reg.STAIR.PORT_PEER.landing n) b.landing).put (Reg.STAIR.PORT_PEER.port n) b.port).modSPort n fun x => { x with echoes := 0 }).lanesEnter n
    slTraining)

/-- Both ends have acknowledged, and nothing refuses the flight (R436). -/
theorem State.detected_spec {b : Burst} (htag : b.tag = s.get Reg.STAIR.ARRAY_TAG.word) (hsplit : b.split = (s.sPort n).split)
    (hland : b.landing ≠ s.get Reg.STAIR.STATUS.landing) :
    (s.detected n b).sState n = (if b.split then spFarEq else spEcho) ∧ ∀ i ∈ portLanes n, (s.detected n b).laneState i = slTraining := by
  have heq : s.detected n b = (s.peerFound n b).sEnter n (if (s.sPort n).split then spFarEq else spEcho) := by
    refine (if_neg ?_).trans rfl
    simp [htag, hsplit, hland]
  rw [heq, ← hsplit]
  refine ⟨?_, fun i hi => ?_⟩
  · rw [State.sState_sEnter]
    cases b.split <;> rfl
  · rw [State.laneState, State.get_sEnter _ _ _ (Fld.apart_of_addr (by have := mem_portLanes.1 hi; dsimp only; omega))]
    exact State.laneState_lanesEnter _ _ hi

/-! ### Lanes that begin -/

theorem State.lanesBegin_spec {l : List Nat} (hl : l.Nodup) {i : Nat} (hi : i ∈ l) (hlen : i < s.stair.lanes.length) (ht : s.transmits i = true) :
    ((s.lanesBegin l).sLane i).startAt = some s.now ∧ ((s.lanesBegin l).sLane i).sent = 0 := by
  refine State.forEach_at (A := fun u => u.stair.lanes.length = s.stair.lanes.length) (B := fun u => (u.sLane i).startAt = some s.now ∧ (u.sLane i).sent = 0)
    (hl.filter _) (List.mem_filter.2 ⟨hi, ht⟩) rfl (fun j _ _ x hx => (x.length_lanes_modSLane ..).trans hx) (fun x hx => ?_) fun j _ hj x hx => ?_
  · rw [x.sLane_modSLane_same (by rw [hx]; exact hlen)]
    exact ⟨rfl, rfl⟩
  · rw [x.sLane_modSLane_other (Ne.symm hj)]
    exact hx

/-! ### Figures of merit -/

/-- The figures of merit of a port's lanes are shown, and committed (R437). -/
def State.fomsShown (s : State) (n : Nat) (foms : List Nat) : State :=
  s.forEach ((portLanes n).zip foms) fun e s => (s.put (Reg.STAIR.LANE_ADAPT.fom e.1) e.2).put (Reg.STAIR.LANE_ADAPT.fom_committed e.1) e.2

theorem State.get_fomsShown {f : Fld} (hn : n < 4) (hf : f.offLanes) (foms : List Nat) : (s.fomsShown n foms).get f = s.get f := by
  refine State.forEach_induct (P := fun u => u.get f = s.get f) rfl fun e he x hx => ?_
  have hlane := mem_portLanes.1 (List.of_mem_zip he).1
  unfold Fld.offLanes at hf
  rw [State.get_put_elsewhere _ (by dsimp only; omega), State.get_put_elsewhere _ (by dsimp only; omega)]
  exact hx

theorem State.shape_fomsShown (foms : List Nat) : ∃ regs, s.fomsShown n foms = { s with regs := regs } :=
  State.forEach_induct (P := fun u => ∃ regs, u = { s with regs := regs }) ⟨_, rfl⟩ fun e _ x ⟨regs, hx⟩ => by
    rw [hx]
    exact ⟨_, rfl⟩

theorem State.foms_fomsShown {foms : List Nat} (hlen : foms.length = 4) {e : Nat × Nat} (he : e ∈ (portLanes n).zip foms) (hlt : e.2 < 256) :
    (s.fomsShown n foms).get (Reg.STAIR.LANE_ADAPT.fom e.1) = e.2 ∧ (s.fomsShown n foms).get (Reg.STAIR.LANE_ADAPT.fom_committed e.1) = e.2 := by
  have hfst : ((portLanes n).zip foms).map Prod.fst = portLanes n := List.map_fst_zip (by rw [hlen]; simp [portLanes])
  have hnodup : (((portLanes n).zip foms).map Prod.fst).Nodup := by rw [hfst]; exact nodup_portLanes n
  refine State.forEach_at (A := fun _ => True) (B := fun u => u.get (Reg.STAIR.LANE_ADAPT.fom e.1) = e.2 ∧
    u.get (Reg.STAIR.LANE_ADAPT.fom_committed e.1) = e.2) hnodup.of_map he trivial (fun _ _ _ _ _ => trivial) (fun x _ => ⟨?_, ?_⟩) fun d hd hne x hx => ?_
  · rw [State.get_put_apart _ rfl (Fld.apart_of_lo fun _ => .inl (by dsimp only; omega)), State.get_put_same _ rfl]
    exact Nat.mod_eq_of_lt hlt
  · rw [State.get_put_same _ rfl]
    exact Nat.mod_eq_of_lt hlt
  · have hlane : d.1 ≠ e.1 := fun h => hne (List.inj_on_of_nodup_map hnodup hd he h)
    rw [State.get_put_elsewhere _ (by dsimp only; omega), State.get_put_elsewhere _ (by dsimp only; omega), State.get_put_elsewhere _ (by dsimp only; omega),
      State.get_put_elsewhere _ (by dsimp only; omega)]
    exact hx

/-- The lanes that do not qualify at the end of FAR_EQ (R437, R440). -/
def State.unqualified (s : State) (n : Nat) (foms : List Nat) : List Nat :=
  (portLanes n).filter fun i => !(((s.sPort n).split && i % 4 < 2) || decide (s.get (Reg.STAIR.PORT_CTL.fom_min n) ≤ foms.getD (i % 4) 0))

/-- A port goes on to FULL with the lanes that qualify. -/
def State.fullBegins (s : State) (n : Nat) (out : List Nat) : State :=
  ((s.forEach out fun i s => s.put (Reg.STAIR.LANE_STATUS.state i) slOut).sEnter n spFull).lanesBegin ((portLanes n).filter fun i => !out.contains i)

theorem State.farEq_eq (hst : s.sState n = spFarEq) (foms : List Nat) :
    s.farEq n foms = if 4 < ((s.fomsShown n foms).unqualified n foms).length + (s.fomsShown n foms).minLanes n then s.fomsShown n foms
      else (s.fomsShown n foms).fullBegins n ((s.fomsShown n foms).unqualified n foms) := by
  refine (if_neg (by rw [hst]; decide)).trans ?_
  rfl

theorem State.minLanes_le (s : State) (n : Nat) : 3 ≤ s.minLanes n ∧ s.minLanes n ≤ 4 := by
  unfold State.minLanes
  split <;> decide

theorem getD_mem_of_length {l : List Nat} (hlen : l.length = 4) (i : Nat) : l.getD (i % 4) 0 ∈ l := by
  have hlt : i % 4 < l.length := by omega
  rw [List.getD_eq_getElem _ _ hlt]
  exact List.getElem_mem hlt

end

/-! ### The source of array time -/

/-- The registers of the source of array time. -/
def sourceWords (a : Nat) : Prop :=
  a = Reg.STAIR.STATUS.word.addr ∨ a = Reg.CLOCK.TIME_STATUS.word.addr ∨ a = Reg.CLOCK.REF_STATUS.word.addr ∨ a = Reg.CLOCK.REF_STEER.word.addr

/-- The choice of a source changes the source's registers and the clock. -/
structure SourceOnly (s u : State) : Prop where
  shape : ∃ regs clock, u = { s with regs := regs, clock := clock }
  words : SameOff sourceWords s u

section

variable {s u v : State}

theorem SourceOnly.trans (hsu : SourceOnly s u) (huv : SourceOnly u v) : SourceOnly s v := by
  refine ⟨?_, hsu.words.trans huv.words⟩
  obtain ⟨_, _, rfl⟩ := hsu.shape
  obtain ⟨_, _, rfl⟩ := huv.shape
  exact ⟨_, _, rfl⟩

theorem SourceOnly.ite (h1 : SourceOnly s u) (h2 : SourceOnly s v) {c : Prop} [Decidable c] : SourceOnly s (if c then u else v) := by
  split
  exacts [h1, h2]

theorem SourceOnly.refl (s : State) : SourceOnly s s := ⟨⟨_, _, rfl⟩, .refl s⟩

theorem sourceOnly_put (s : State) {f : Fld} (hf : sourceWords f.addr) (v : Nat) : SourceOnly s (s.put f v) := ⟨⟨_, _, rfl⟩, (SameOff.refl s).put hf v⟩

theorem sourceOnly_clock (s : State) (c : ClockState) : SourceOnly s { s with clock := c } := ⟨⟨_, _, rfl⟩, .of_regs rfl⟩

theorem sourceOnly_chooseSource (s : State) : SourceOnly s s.chooseSource := by
  have hbit := sourceOnly_put s (f := Reg.STAIR.STATUS.ptp_ignored) (.inl rfl) (b2n (s.hasParent && s.ptpSlave))
  obtain ⟨x, hx⟩ : ∃ x, x = s.putB Reg.STAIR.STATUS.ptp_ignored (s.hasParent && s.ptpSlave) := ⟨_, rfl⟩
  have hsx : SourceOnly s x := by
    rw [hx]
    exact hbit
  rw [State.chooseSource_eq s x hx]
  have htime (y : State) (k : Nat) : SourceOnly y (y.put Reg.CLOCK.TIME_STATUS.state k) :=
    sourceOnly_put y (f := Reg.CLOCK.TIME_STATUS.state) (.inr (.inl rfl)) k
  have href (y : State) (k : Nat) : SourceOnly y (y.put Reg.CLOCK.REF_STATUS.source k) :=
    sourceOnly_put y (f := Reg.CLOCK.REF_STATUS.source) (.inr (.inr (.inl rfl))) k
  split
  next => exact hsx.trans ((htime x _).trans (sourceOnly_clock ..))
  next w _ =>
    have htaken : SourceOnly s (x.sourceTaken w) := hsx.trans (((href x w).trans (htime _ _)).trans (sourceOnly_clock ..))
    refine .ite (hsx.trans ((((href x w).trans (htime _ _)).trans (sourceOnly_put _ (.inr (.inr (.inr rfl))) 0)).trans (sourceOnly_clock ..)))
      (.ite hsx (.ite (htaken.trans ?_) htaken))
    unfold State.takeHold
    exact .ite (.refl _) (sourceOnly_clock ..)

/-- The parent chosen is shown in STAIR.STATUS and as the use of its port. -/
theorem State.setParent_spec (s : State) (n : Nat) : (s.setParent (some n)).stair = s.stair ∧
    ∀ f : Fld, ¬ sourceWords f.addr → (Reg.STAIR.PORT_STATUS.use n).apart f = true → (s.setParent (some n)).get f = s.get f := by
  obtain ⟨v, hv⟩ : ∃ v, v = ((s.put Reg.STAIR.STATUS.has_parent 1).put Reg.STAIR.STATUS.parent n).put (Reg.STAIR.PORT_STATUS.use n) useParent := ⟨_, rfl⟩
  have heq : s.setParent (some n) = v.chooseSource := by
    rw [hv]
    rfl
  have hstair : v.stair = s.stair := by rw [hv, State.stair_put, State.stair_put, State.stair_put]
  obtain ⟨⟨regs, clock, hshape⟩, hwords⟩ := sourceOnly_chooseSource v
  refine ⟨by rw [heq, hshape, ← hstair], fun f hf hapart => ?_⟩
  have hstatus : Reg.STAIR.STATUS.word.addr ≠ f.addr := fun h => hf (.inl h.symm)
  rw [heq, hwords.get hf, hv, State.get_put_apart _ rfl hapart, State.get_put_elsewhere _ (f := Reg.STAIR.STATUS.parent) hstatus,
    State.get_put_elsewhere _ (f := Reg.STAIR.STATUS.has_parent) hstatus]

/-- The use of a flight in UP shows in its port, and nowhere else on the stair (R448). -/
theorem State.assignUse_spec (s : State) (n : Nat) : (s.assignUse n).stair = s.stair ∧
    ∀ f : Fld, ¬ sourceWords f.addr → (Reg.STAIR.PORT_STATUS.use n).apart f = true → (s.assignUse n).get f = s.get f := by
  unfold State.assignUse
  split_ifs
  · exact ⟨State.stair_put .., fun f _ h => s.get_put_apart rfl h _⟩
  · exact s.setParent_spec n
  · exact ⟨State.stair_put .., fun f _ h => s.get_put_apart rfl h _⟩
  · exact ⟨State.stair_put .., fun f _ h => s.get_put_apart rfl h _⟩

/-! ### A port reaches UP -/

/-- A lane of a port that reaches UP carries traffic, unless it is out. -/
def State.laneUp (s : State) (at0 i : Nat) : State :=
  (if s.laneState i == slOut then s else s.put (Reg.STAIR.LANE_STATUS.state i) slActive).modSLane i fun x =>
    { x with since := at0, busyAt := at0, rolled := false, qualified := false }

/-- The lanes of a port that reaches UP, and the port's state. -/
def State.lanesUp (s : State) (n : Nat) : State :=
  (((s.padLanes n).forEach (portLanes n) fun i x => x.laneUp s.now i).sEnter n spUp).showLanes n

/-- Nothing has been sent yet on a flight that reaches UP. -/
def State.flightFresh (s : State) (n at0 : Nat) (delays : List Int) : State :=
  s.modSPort n fun x =>
    { x with noticed := false, queue := [], next := 0, unacked := [], parts := [0, 0, 0], runs := [0, 0, 0, 0, 0, 0], turn := 0,
             ackAt := at0, rxNext := 0, rxHave := [], lastHello := at0, helloSent := 0,
             hello := none, markAt := at0, markIndex := 0, sentMarks := [], heardMarks := [], delays := delays.reverse, excluded := false,
             holdDelay := false }

theorem State.portUp_eq (s : State) (n : Nat) (delays : List Int) :
    s.portUp n delays = (((((s.lanesUp n).flightFresh n s.now delays).putS (Reg.STAIR.PORT_DELAY.word n) (meanOf delays)).put
      (Reg.STAIR.PORT_PEER.valid n) 0).assignUse n) := rfl

theorem State.laneState_laneUp_same (s : State) (at0 i : Nat) :
    (s.laneUp at0 i).laneState i = if s.laneState i = slOut then slOut else slActive := by
  unfold State.laneUp
  rw [State.laneState_modSLane]
  by_cases h : s.laneState i = slOut
  · rw [if_pos (beq_iff_eq.2 h), if_pos h, h]
  · rw [if_neg (by rw [beq_iff_eq]; exact h), if_neg h]
    exact s.laneState_put_same i slActive

theorem State.laneState_laneUp_other (s : State) (at0 : Nat) {i j : Nat} (h : i ≠ j) : (s.laneUp at0 i).laneState j = s.laneState j := by
  unfold State.laneUp
  rw [State.laneState_modSLane]
  split
  · rfl
  · exact s.laneState_put_other h slActive

theorem State.ports_laneUp (s : State) (at0 i : Nat) : (s.laneUp at0 i).stair.ports = s.stair.ports := by
  unfold State.laneUp
  rw [State.ports_modSLane]
  split
  · rfl
  · rw [State.stair_put]

/-- The lanes that are not out carry traffic, and the port is in UP. -/
theorem State.lanesUp_spec {s : State} {n : Nat} (hn : n < 4) (hports : s.stair.ports.length = 4) :
    (s.lanesUp n).sState n = spUp ∧ (∀ i ∈ portLanes n, (s.lanesUp n).laneState i = if s.laneState i = slOut then slOut else slActive) ∧
      (s.lanesUp n).stair.ports.length = 4 := by
  obtain ⟨pads, next, -, -, -, hregs, -⟩ := s.padLanes_spec (n := n) (by omega)
  have hlen := s.length_ports_padLanes n
  rw [State.lanesUp]
  generalize s.padLanes n = v at hregs hlen
  have hvlane (i : Nat) : v.laneState i = s.laneState i := State.get_of_regs hregs _
  obtain ⟨w, hw⟩ : ∃ w, w = v.forEach (portLanes n) fun i x => x.laneUp s.now i := ⟨_, rfl⟩
  have hwports : w.stair.ports = v.stair.ports := by
    rw [hw]
    exact State.forEach_induct (P := fun u => u.stair.ports = v.stair.ports) rfl fun i _ x hx => (x.ports_laneUp ..).trans hx
  have hwlane {i : Nat} (hi : i ∈ portLanes n) : w.laneState i = if s.laneState i = slOut then slOut else slActive := by
    rw [hw]
    refine State.forEach_at (A := fun u => u.laneState i = s.laneState i) (B := fun u => u.laneState i = if s.laneState i = slOut then slOut else slActive)
      (nodup_portLanes n) hi (hvlane i) (fun j _ hj x hx => (x.laneState_laneUp_other s.now hj).trans hx) (fun x hx => ?_)
      fun j _ hj x hx => (x.laneState_laneUp_other s.now hj).trans hx
    rw [x.laneState_laneUp_same, hx]
  rw [← hw]
  refine ⟨?_, fun i hi => ?_, ?_⟩
  · rw [State.sState, State.get_showLanes _ _ (Fld.apart_of_lo fun _ => .inl (by dsimp only; omega))]
    exact w.sState_sEnter n spUp
  · rw [State.laneState_showLanes, State.laneState, State.get_sEnter _ _ _ (Fld.apart_of_addr (by have := mem_portLanes.1 hi; dsimp only; omega))]
    exact hwlane hi
  · rw [State.showLanes, State.stair_put, State.length_ports_sEnter, hwports, hlen, hports]

/-- What a port that has reached UP reads (R437). -/
theorem State.portUp_spec {s : State} {n : Nat} (hn : n < 4) (hports : s.stair.ports.length = 4) (delays : List Int) :
    (s.portUp n delays).sState n = spUp ∧ ((s.portUp n delays).sPort n).unacked = [] ∧ ((s.portUp n delays).sPort n).next = 0 ∧
      ∀ i ∈ portLanes n, (s.portUp n delays).laneState i = if s.laneState i = slOut then slOut else slActive := by
  obtain ⟨hstate, hlanes, hlen⟩ := State.lanesUp_spec (s := s) hn hports
  rw [State.portUp_eq]
  generalize s.lanesUp n = v at hstate hlanes hlen
  have hport : (v.flightFresh n s.now delays).sPort n = _ := State.sPort_modSPort_same (by omega) _
  have hget (f : Fld) : (v.flightFresh n s.now delays).get f = v.get f := by rw [State.flightFresh, State.get_modSPort]
  generalize v.flightFresh n s.now delays = w at hport hget
  obtain ⟨x, hx⟩ : ∃ x, x = (w.putS (Reg.STAIR.PORT_DELAY.word n) (meanOf delays)).put (Reg.STAIR.PORT_PEER.valid n) 0 := ⟨_, rfl⟩
  have hxstair : x.stair = w.stair := by rw [hx, State.stair_put, State.stair_putS]
  have hxget {f : Fld} (h1 : f.addr ≠ (Reg.STAIR.PORT_DELAY.word n).addr) (h2 : f.addr ≠ (Reg.STAIR.PORT_PEER.valid n).addr) : x.get f = v.get f := by
    rw [hx, State.get_put_elsewhere _ (Ne.symm h2), State.putS, State.get_put_elsewhere _ (Ne.symm h1), hget]
  rw [← hx]
  obtain ⟨hstair, huse⟩ := x.assignUse_spec n
  have huport : (x.assignUse n).sPort n = w.sPort n := by rw [State.sPort, State.sPort, hstair, hxstair]
  have hsource {a : Nat} (h1 : 0x480100 ≤ a) (h2 : a < 0x480700) : ¬ sourceWords a := by
    simp only [sourceWords]
    omega
  refine ⟨?_, ?_, ?_, fun i hi => ?_⟩
  · rw [State.sState, huse _ (hsource (by dsimp only; omega) (by dsimp only; omega)) (Fld.apart_of_lo fun _ => .inl (by dsimp only; omega)),
      hxget (by dsimp only; omega) (by dsimp only; omega)]
    exact hstate
  · rw [huport, hport]
  · rw [huport, hport]
  · have hi' := mem_portLanes.1 hi
    rw [State.laneState, huse _ (hsource (by dsimp only; omega) (by dsimp only; omega)) (Fld.apart_of_addr (by dsimp only; omega)),
      hxget (by dsimp only; omega) (by dsimp only; omega)]
    exact hlanes i hi

end

/-! ### Training -/

/-- What a burst of a port that has heard none says (R435). -/
def State.plainBurst (s : State) (n : Nat) : Burst where
  landing := s.get Reg.STAIR.STATUS.landing
  port := n
  split := (s.sPort n).split
  tag := s.get Reg.STAIR.ARRAY_TAG.word
  ack := false

/-- A port in DETECT that has heard no burst sends one. -/
def State.burstSent (s : State) (n : Nat) : State :=
  ((s.emit (.detectBurst n (s.plainBurst n))).modTree fun x => { x with bursts := s.treeOf.bursts + 1 }).modSPort n fun x =>
    { x with burstAt := x.burstAt + ticksOfUs 20, acked := x.acked || false }

/-- A burst heard by a port that is neither in UP nor listening. -/
theorem gives_detectBurst {s : State} {n : Fin 4} {t st : Nat} (hst : s.sState n.val = st) (hup : st ≠ spUp) (hlisten : st ≠ spListen)
    (hsleep : st ≠ spSleep) (b : Burst) :
    Gives (.detectBurst t n b) s (if st == spDetect then ((s.atTime t).burstHeard n.val b).detectCheck n.val else s.atTime t) := by
  have hst' : (s.atTime t).sState n.val = st := hst
  refine Gives.of_eq rfl ?_
  rw [hst']
  refine (if_neg (by rw [beq_iff_eq]; exact hup)).trans ((if_neg ?_).trans rfl)
  rw [show (st == spListen) = false from beq_eq_false_iff_ne.2 hlisten, show (st == spSleep) = false from beq_eq_false_iff_ne.2 hsleep]
  exact Bool.false_ne_true

/-- A port in FAR_EQ all of whose lanes qualify goes on to FULL (R437). -/
theorem State.farEq_of_good {s : State} {n : Nat} (hn : n < 4) (hlanes : s.stair.lanes.length = 16) (hst : s.sState n = spFarEq) {foms : List Nat}
    (hlen : foms.length = 4) (hall : ∀ f ∈ foms, s.get (Reg.STAIR.PORT_CTL.fom_min n) ≤ f ∧ f < 256) :
    (s.farEq n foms).sState n = spFull ∧
      (∀ i ∈ portLanes n, s.transmits i = true → ((s.farEq n foms).sLane i).startAt = some s.now ∧ ((s.farEq n foms).sLane i).sent = 0) ∧
      ∀ e ∈ (portLanes n).zip foms, (s.farEq n foms).get (Reg.STAIR.LANE_ADAPT.fom e.1) = e.2 ∧
        (s.farEq n foms).get (Reg.STAIR.LANE_ADAPT.fom_committed e.1) = e.2 := by
  obtain ⟨regs, hshape⟩ := s.shape_fomsShown (n := n) foms
  have hfoms {e : Nat × Nat} (he : e ∈ (portLanes n).zip foms) := s.foms_fomsShown hlen he (hall _ (List.of_mem_zip he).2).2
  have hmin : (s.fomsShown n foms).get (Reg.STAIR.PORT_CTL.fom_min n) = s.get (Reg.STAIR.PORT_CTL.fom_min n) :=
    s.get_fomsShown hn (.inl (by dsimp only; omega)) foms
  have hout : (s.fomsShown n foms).unqualified n foms = [] := by
    refine List.filter_eq_nil_iff.2 fun i _ => ?_
    rw [hmin, decide_eq_true (hall _ (getD_mem_of_length hlen i)).1, Bool.or_true]
    exact Bool.false_ne_true
  rw [State.farEq_eq hst, hout, if_neg (by have := (s.fomsShown n foms).minLanes_le n; simp only [List.length_nil]; omega)]
  have hvport (m : Nat) : (s.fomsShown n foms).sPort m = s.sPort m := by rw [hshape]; rfl
  have hvlanes : (s.fomsShown n foms).stair.lanes.length = 16 := by rw [hshape]; exact hlanes
  have hvnow : (s.fomsShown n foms).now = s.now := by rw [hshape]
  generalize s.fomsShown n foms = v at hfoms hvport hvlanes hvnow
  have hports : v.fullBegins n [] = (v.sEnter n spFull).lanesBegin (portLanes n) := by
    rw [State.fullBegins, List.filter_eq_self.2 fun i _ => by rfl]
    rfl
  rw [hports]
  refine ⟨?_, fun i hi ht => ?_, fun e he => ?_⟩
  · rw [State.sState, State.get_lanesBegin]
    exact v.sState_sEnter n spFull
  · have hilt : i < (v.sEnter n spFull).stair.lanes.length := by
      have := mem_portLanes.1 hi
      show i < v.stair.lanes.length
      omega
    have htr : (v.sEnter n spFull).transmits i = true := by
      rw [← ht, State.transmits, State.transmits, mem_portLanes.1 hi]
      have hsplit : ((v.sEnter n spFull).sPort n).split = (s.sPort n).split := by
        by_cases hp : n < v.stair.ports.length
        · rw [v.sPort_sEnter hp, hvport]
        · rw [← hvport n, State.sPort, State.sPort, List.getD_eq_default _ _ (by rw [State.length_ports_sEnter]; omega),
            List.getD_eq_default _ _ (by omega)]
      rw [hsplit]
    have hnow : (v.sEnter n spFull).now = s.now := (stairShape_sEnter v n spFull).now.trans hvnow
    rw [← hnow]
    exact State.lanesBegin_spec (nodup_portLanes n) hi hilt htr
  · have hlane := mem_portLanes.1 (List.of_mem_zip he).1
    rw [State.get_lanesBegin, State.get_lanesBegin, State.get_sEnter _ _ _ (Fld.apart_of_addr (by dsimp only; omega)),
      State.get_sEnter _ _ _ (Fld.apart_of_addr (by dsimp only; omega))]
    exact hfoms he

/-- A port in FAR_EQ too few of whose lanes qualify stays there (R437). -/
theorem State.farEq_of_bad {s : State} {n : Nat} (hn : n < 4) (hst : s.sState n = spFarEq) {foms : List Nat}
    (hlen : foms.length = 4) (hsplit : (s.sPort n).split = false) (hall : ∀ f ∈ foms, f < s.get (Reg.STAIR.PORT_CTL.fom_min n)) :
    (s.farEq n foms).sState n = spFarEq := by
  obtain ⟨regs, hshape⟩ := s.shape_fomsShown (n := n) foms
  have hmin : (s.fomsShown n foms).get (Reg.STAIR.PORT_CTL.fom_min n) = s.get (Reg.STAIR.PORT_CTL.fom_min n) :=
    s.get_fomsShown hn (.inl (by dsimp only; omega)) foms
  have hvsplit : ((s.fomsShown n foms).sPort n).split = false := by rw [hshape]; exact hsplit
  have hout : (s.fomsShown n foms).unqualified n foms = portLanes n := by
    refine List.filter_eq_self.2 fun i _ => ?_
    rw [hmin, hvsplit, decide_eq_false (Nat.not_le.2 (hall _ (getD_mem_of_length hlen i)))]
    rfl
  have hfour : (portLanes n).length = 4 := by simp [portLanes]
  rw [State.farEq_eq hst, hout, if_pos (by have := (s.fomsShown n foms).minLanes_le n; omega)]
  exact (s.get_fomsShown hn (.inl (by dsimp only; omega)) foms).trans hst

/-- A phase that lasts too long fails, counted (R438). -/
theorem gives_portPhaseTimeout {s : State} {n : Fin 4} {t : Nat} (hports : s.stair.ports.length = 4) (h1 : spDetect ≤ s.sState n.val)
    (h2 : s.sState n.val ≤ spFull) (hlate : (s.sPort n.val).since + ticksOfMs 10 ≤ max s.now t) :
    ∃ u, Gives (.portPhaseTimeout t n) s u ∧ u.sState n.val = spHoldoff ∧ u.get (Reg.STAIR.PORT_STATUS.cause n.val) = s.sState n.val - 1 ∧
      u.get (Reg.STAIR.PORT_STATUS.train_fail n.val) = (s.get (Reg.STAIR.PORT_STATUS.train_fail n.val) + 1) % 256 := by
  have hn := n.isLt
  obtain ⟨v, hv⟩ : ∃ v, v = (s.atTime t).bump (Reg.STAIR.PORT_STATUS.train_fail n.val) := ⟨_, rfl⟩
  have hcause : s.sState n.val - 1 < 16 := by
    have : spFull = 5 := rfl
    omega
  obtain ⟨hstate, hc, hfail⟩ := State.portHoldoff_spec (s := v) (n := n.val) hn (by rw [hv]; exact hports) hcause
  have hvfail : v.get (Reg.STAIR.PORT_STATUS.train_fail n.val) = (s.get (Reg.STAIR.PORT_STATUS.train_fail n.val) + 1) % 256 := by
    rw [hv]
    exact State.get_bump_same (s.atTime t) rfl
  obtain ⟨w, hw⟩ : ∃ w, w = (v.portHoldoff n.val (s.sState n.val - 1)).modSPort n.val fun x => { x with noticed := true } := ⟨_, rfl⟩
  have hwget (f : Fld) : w.get f = (v.portHoldoff n.val (s.sState n.val - 1)).get f := by rw [hw, State.get_modSPort]
  have hgives : Gives (.portPhaseTimeout t n) s (if !((s.atTime t).sPort n.val).noticed then w.topology n.val (s.sState n.val - 1) 0 else w) := by
    refine Gives.of_eq rfl ((if_pos ?_).trans (by rw [hw, hv]; rfl))
    rw [Bool.and_eq_true, Bool.and_eq_true, decide_eq_true_eq, decide_eq_true_eq, decide_eq_true_eq]
    exact ⟨⟨h1, h2⟩, hlate⟩
  have hget {f : Fld} (hf : 0x480100 ≤ f.addr ∧ f.addr < 0x480700) :
      (if !((s.atTime t).sPort n.val).noticed then w.topology n.val (s.sState n.val - 1) 0 else w).get f = w.get f := by
    split
    · exact State.get_record _ _ (by simp only [recordWords, List.mem_cons, List.not_mem_nil, or_false]; omega)
    · rfl
  refine ⟨_, hgives, ?_, ?_, ?_⟩
  · rw [State.sState, hget (by dsimp only; omega), hwget]
    exact hstate
  · rw [hget (by dsimp only; omega), hwget, hc]
  · rw [hget (by dsimp only; omega), hwget, hfail, hvfail]

theorem stairTraining : Claim.StairTraining := by
  intro s t n b foms delays hports hlanes
  have hn := n.isLt
  have hlen : n.val < (s.atTime t).stair.ports.length := by rw [State.stair_atTime, hports]; exact hn
  refine ⟨fun hst => ?_, fun hst => ?_, fun hst hno => ?_, fun hst hack hacked htag hsplit hland => ?_, fun h1 h2 => ?_, fun hst hdue hfar => ?_,
    fun hno => ?_, fun hst hdue => ?_, fun hst => ?_, fun hst hfl hall => ?_, fun hst hfl hsplit hall => ?_, fun hst => ?_, fun hst hsplit => ?_,
    fun hno => ?_, fun h1 h2 hlate => gives_portPhaseTimeout hports h1 h2 hlate, fun hst hlate => ?_, fun hno => ?_⟩
  · have hport : ((s.atTime t).burstBegins n.val b).sPort n.val =
        { s.sPort n.val with since := max s.now t, burstAt := max s.now t, acked := false, far := some b } := by
      rw [State.burstBegins, State.sPort_modSPort_same (by rw [State.length_ports_modSPort, State.length_ports_sEnter]; exact hlen),
        State.sPort_modSPort_same (by rw [State.length_ports_sEnter]; exact hlen), State.sPort_sEnter _ hlen]
      rfl
    have hst' : (s.atTime t).sState n.val = spListen := hst
    refine ⟨(s.atTime t).burstBegins n.val b, Gives.of_eq rfl ?_, ?_, by rw [hport], by rw [hport], by rw [hport], fun a ha => ?_⟩
    · rw [hst']
      rfl
    · exact (s.atTime t).sState_sEnter n.val spDetect
    · exact State.word_put_other (s.atTime t) (f := Reg.STAIR.PORT_STATUS.state n.val) (fun h => ha (by rw [← h]; exact List.mem_singleton_self _)) _
  · have hcases : s.sState n.val ≠ spUp ∧ s.sState n.val ≠ spListen ∧ s.sState n.val ≠ spSleep ∧ s.sState n.val ≠ spDetect := by
      rcases hst with h | h | h | h | h | h <;> rw [h] <;> decide
    obtain ⟨h1, h2, h3, h4⟩ := hcases
    exact (gives_detectBurst rfl h1 h2 h3 b).of_eq (if_neg (by rw [beq_iff_eq]; exact h4))
  · have hport : ((s.atTime t).burstHeard n.val b).sPort n.val = { s.sPort n.val with far := some b } := State.sPort_modSPort_same hlen _
    refine (gives_detectBurst hst (by decide) (by decide) (by decide) b).of_eq ((if_pos rfl).trans (State.detectCheck_of_unacked (b := b) ?_ ?_))
    · rw [hport]
    · rw [hport]
      exact hno
  · have hport : ((s.atTime t).burstHeard n.val b).sPort n.val = { s.sPort n.val with far := some b } := State.sPort_modSPort_same hlen _
    have hget (f : Fld) : ((s.atTime t).burstHeard n.val b).get f = s.get f := rfl
    obtain ⟨h1, h2⟩ := State.detected_spec (s := (s.atTime t).burstHeard n.val b) (n := n.val) (b := b) (by rw [hget]; exact htag) (by rw [hport]; exact hsplit)
      (by rw [hget]; exact hland)
    exact ⟨_, (gives_detectBurst hst (by decide) (by decide) (by decide) b).of_eq ((if_pos rfl).trans
      (State.detectCheck_of_acked (b := b) (by rw [hport]) hst hack (by rw [hport]; exact hacked))), h1, h2⟩
  · refine Gives.of_eq rfl (if_neg ?_)
    rw [show ((s.atTime t).sState n.val == spListen) = false from beq_eq_false_iff_ne.2 h1,
      show ((s.atTime t).sState n.val == spDetect) = false from beq_eq_false_iff_ne.2 h2]
    exact Bool.false_ne_true
  · obtain ⟨v, hv⟩ : ∃ v, v = (s.atTime t).burstSent n.val := ⟨_, rfl⟩
    have hport : v.sPort n.val = { s.sPort n.val with burstAt := (s.sPort n.val).burstAt + ticksOfUs 20, acked := (s.sPort n.val).acked || false } := by
      rw [hv]
      exact State.sPort_modSPort_same (s := ((s.atTime t).emit (.detectBurst n.val (s.plainBurst n.val))).modTree fun x =>
        { x with bursts := s.treeOf.bursts + 1 }) hlen _
    have hst' : (s.atTime t).sState n.val = spDetect := hst
    have hfar' : ((s.atTime t).sPort n.val).far = none := hfar
    refine ⟨v, Gives.of_eq rfl ?_, by rw [hv]; rfl, by rw [hport], by rw [hv]; rfl⟩
    rw [hst', hfar']
    refine (if_pos ?_).trans ?_
    · rw [Bool.and_eq_true, decide_eq_true_eq]
      exact ⟨rfl, hdue⟩
    · refine Eq.trans ?_ (State.detectCheck_of_far_none (s := v) (n := n.val) (by rw [hport]; exact hfar))
      rw [hv]
      rfl
  · refine Gives.of_eq rfl (if_neg ?_)
    rw [Bool.and_eq_true, beq_iff_eq, decide_eq_true_eq]
    rintro ⟨h1, h2⟩
    rcases hno with h | h
    · exact h h1
    · exact absurd h2 (Nat.not_le.2 h)
  · obtain ⟨v, hv⟩ : ∃ v, v = (s.atTime t).modSPort n.val fun x => { x with echoes := (s.sPort n.val).echoes + 1 } := ⟨_, rfl⟩
    have hport : v.sPort n.val = { s.sPort n.val with echoes := (s.sPort n.val).echoes + 1 } := by
      rw [hv]
      exact State.sPort_modSPort_same hlen _
    have hvlen : n.val < v.stair.ports.length := by rw [hv, State.length_ports_modSPort]; exact hlen
    have hvstate : v.sState n.val = spEcho := by
      rw [hv]
      exact hst
    have hgives : Gives (.echoPhaseEnd t n) s (if (s.sPort n.val).echoes + 1 = 2 then v.sEnter n.val spFarEq else v) := by
      refine Gives.of_eq rfl ((if_pos ?_).trans (by rw [hv]; rfl))
      rw [Bool.and_eq_true, beq_iff_eq, decide_eq_true_eq]
      exact ⟨hst, hdue⟩
    refine ⟨_, hgives, ?_, ?_⟩
    · split
      · rw [v.sPort_sEnter hvlen, hport]
      · rw [hport]
    · by_cases h1 : (s.sPort n.val).echoes = 1
      · rw [if_pos h1, if_pos (by rw [h1])]
        exact v.sState_sEnter n.val spFarEq
      · rw [if_neg h1, if_neg fun h => h1 (Nat.succ.inj h)]
        exact hvstate
  · exact Gives.of_eq rfl (if_pos (bne_iff_ne.2 hst))
  · obtain ⟨h1, h2, h3⟩ := State.farEq_of_good (s := s.atTime t) hn hlanes hst hfl hall
    exact ⟨_, Gives.of_eq rfl rfl, h1, h2, h3⟩
  · exact ⟨_, Gives.of_eq rfl rfl, State.farEq_of_bad (s := s.atTime t) hn hst hfl hsplit hall⟩
  · exact Gives.of_eq rfl (if_pos (bne_iff_ne.2 hst))
  · obtain ⟨h1, h2, h3, h4⟩ := State.portUp_spec (s := s.atTime t) hn hports delays
    refine ⟨_, Gives.of_eq rfl ((if_neg ?_).trans (if_neg ?_)), h1, h2, h3, fun i hi hne => ?_, fun i hi heq => ?_⟩
    · rw [show (s.atTime t).sState n.val = _ from hst]
      decide
    · rw [show ((s.atTime t).sPort n.val).split = _ from hsplit]
      exact Bool.false_ne_true
    · rw [h4 i hi]
      exact if_neg hne
    · rw [h4 i hi]
      exact if_pos heq
  · refine Gives.of_eq rfl (if_neg ?_)
    rw [Bool.and_eq_true, Bool.and_eq_true, decide_eq_true_eq, decide_eq_true_eq, decide_eq_true_eq]
    rintro ⟨⟨h1, h2⟩, h3⟩
    rcases hno with h | h | h
    · exact absurd h1 (Nat.not_le.2 h)
    · exact absurd h2 (Nat.not_le.2 h)
    · exact absurd h3 (Nat.not_le.2 h)
  · obtain ⟨h1, h2, h3, -, -, -⟩ := State.portListen_spec (s := s.atTime t) hn hports
    refine ⟨_, Gives.of_eq rfl (if_pos ?_), h1, h2, h3⟩
    rw [Bool.and_eq_true, beq_iff_eq, decide_eq_true_eq]
    exact ⟨hst, hlate⟩
  · refine Gives.of_eq rfl (if_neg ?_)
    rw [Bool.and_eq_true, beq_iff_eq, decide_eq_true_eq]
    rintro ⟨h1, h2⟩
    rcases hno with h | h
    · exact h h1
    · exact absurd h2 (Nat.not_le.2 h)

/-! ### Sleep and wake -/

theorem stairSleep : Claim.StairSleep := by
  intro s t ch n hports
  have hn := n.isLt
  refine ⟨fun hno => ?_, fun hup hparent => ?_, fun hr => ⟨fun hst => ?_, fun hst => ?_, fun hst => ?_, fun h0 hup => ?_⟩, fun hno => ?_, fun hst hlate => ?_,
    fun hst pat => ?_, fun hst hpower => ⟨?_, ?_⟩⟩
  · exact Gives.of_eq rfl (if_pos (by rw [show (s.atTime t).sUp n.val = _ from hno]; rfl))
  · obtain ⟨-, hstate, huse, -, -, -, hother, -⟩ := portQuieted_portQuiet (s := s.atTime t) hn hports spSleep
    refine ⟨_, Gives.of_eq rfl ((if_neg (by rw [show (s.atTime t).sUp n.val = _ from hup]; decide)).trans (if_neg ?_)), hstate, huse,
      hother _ (offPort_of_elsewhere (.inl (by decide)) hn)⟩
    rw [beq_iff_eq]
    exact hparent
  · obtain ⟨-, hstate, -, -, -, -, -, hout⟩ := portQuieted_portQuiet (s := s.atTime t) hn hports spWaking
    have hcond : ((s.atTime t).sState n.val == spSleep || (s.atTime t).sState n.val == spListen || (s.atTime t).sState n.val == spHoldoff) = true := by
      rw [show (s.atTime t).sState n.val = s.sState n.val from rfl]
      rcases hst with h | h | h <;> rw [h] <;> rfl
    have hgives : Gives (.stairWake t ch n) s ((s.atTime t).portWake n.val) := (gives_hostCmd hr rfl).of_eq (if_pos hcond)
    rw [State.portWake] at hgives
    generalize (s.atTime t).portQuiet n.val spWaking = v at hgives hstate hout
    have hemit : (v.emit (.wakePattern n.val)).out = v.out ++ [.wakePattern n.val] := rfl
    refine ⟨_, hgives, ?_, ?_, fun h => ?_⟩
    · rw [State.sState, State.get_emit]
      exact hstate
    · rw [hemit]
      exact List.getLast?_concat ..
    · rw [hemit, hout h, State.out_atTime]
  · refine (gives_hostCmd hr rfl).of_eq (if_neg ?_)
    rw [show (s.atTime t).sState n.val = s.sState n.val from rfl, Bool.or_eq_true, Bool.or_eq_true, beq_iff_eq, beq_iff_eq, beq_iff_eq]
    have : spSleep = 8 ∧ spListen = 1 ∧ spHoldoff = 7 ∧ spDisabled = 0 ∧ spUp = 6 ∧ spDetect = 2 ∧ spFull = 5 := by decide
    omega
  · exact (gives_hostCmd (f := fun s => s.retrain n.val) hr rfl).of_eq (if_pos (beq_iff_eq.2 hst))
  · obtain ⟨h1, -, -, h4, h5, h6⟩ := State.portListen_spec (s := s.atTime t) hn hports
    refine ⟨_, (gives_hostCmd (f := fun s => s.retrain n.val) hr rfl).of_eq ((if_neg ?_).trans (if_neg ?_)), h1, h4, h6, h5⟩
    · rw [beq_iff_eq]
      exact h0
    · rw [State.sUp, beq_iff_eq]
      exact hup
  · refine Gives.of_eq rfl (if_neg ?_)
    rw [Bool.and_eq_true, beq_iff_eq, decide_eq_true_eq]
    rintro ⟨h1, h2⟩
    rcases hno with h | h
    · exact h h1
    · exact absurd h2 (Nat.not_le.2 h)
  · refine ⟨_, Gives.of_eq rfl (if_pos ?_), (State.portListen_spec (s := s.atTime t) hn hports).1⟩
    rw [Bool.and_eq_true, beq_iff_eq, decide_eq_true_eq]
    exact ⟨hst, hlate⟩
  · exact Gives.of_eq rfl (if_pos (beq_iff_eq.2 hst))
  all_goals
    have hno : ¬ ((s.atTime t).power == powerIdle) = true := by
      rw [beq_iff_eq]
      exact hpower
    refine Gives.of_eq rfl ((if_neg (by rw [beq_iff_eq]; exact hst)).trans ?_)
    rw [if_neg hno]
    rfl

/-- Settles O45: each phase of a flight by the state that it acts in, sleep and wake by the quiet port that they leave. -/
theorem stairBringUp : Obligations.StairBringUp := ⟨stairTraining, stairSleep⟩

end Sys2Proof.Machine
end

