-- ==== Sys2Proof/Proofs/StairTree.lean ====
section
/-!
The stair tree: HELLO, the heartbeat, joining and forming, and changes of parent (R447 to R460, R527, R739).
-/

namespace Sys2Proof.Machine

open Sys2Proof

/-! ### What sending leaves of the ports -/

/-- A stair port without what it sends, and without what waits for its acknowledgement. -/
def StairPort.settled (x : StairPort) : StairPort :=
  { x with queue := [], next := 0, unacked := [], parts := [], runs := [], turn := 0, ackAt := 0 }

/-- The ports of the second state are those of the first, but for what they send. -/
structure KeepsPorts (s u : State) : Prop where
  port : ∀ k, (u.sPort k).settled = (s.sPort k).settled

section

variable {s u v : State}

theorem KeepsPorts.refl (s : State) : KeepsPorts s s := ⟨fun _ => rfl⟩
theorem KeepsPorts.trans (hsu : KeepsPorts s u) (huv : KeepsPorts u v) : KeepsPorts s v := ⟨fun k => (huv.port k).trans (hsu.port k)⟩

theorem KeepsPorts.forEach {α : Type} {f : α → State → State} {l : List α} (hf : ∀ a ∈ l, ∀ x, KeepsPorts x (f a x)) : KeepsPorts s (s.forEach l f) :=
  State.forEach_induct (P := KeepsPorts s) (.refl s) fun a ha x hx => hx.trans (hf a ha x)

theorem KeepsPorts.of_ports (h : u.stair.ports = s.stair.ports) : KeepsPorts s u := ⟨fun k => by rw [State.sPort, h, State.sPort]⟩

theorem keepsPorts_modSPort (s : State) (n : Nat) {f : StairPort → StairPort} (hf : ∀ x, (f x).settled = x.settled) : KeepsPorts s (s.modSPort n f) := by
  refine ⟨fun k => ?_⟩
  unfold State.sPort State.modSPort
  simp only [List.getD_eq_getElem?_getD, List.getElem?_modify]
  cases s.stair.ports[k]? with
  | none => rfl
  | some x =>
    by_cases hnk : n = k
    · simp [hnk, hf]
    · simp [hnk]

theorem keepsPorts_modSLane (s : State) (i : Nat) (f : StairLane → StairLane) : KeepsPorts s (s.modSLane i f) := .of_ports rfl
theorem keepsPorts_emit (s : State) (o : Output) : KeepsPorts s (s.emit o) := .of_ports rfl

theorem keepsPorts_padLanes (s : State) (n : Nat) : KeepsPorts s (s.padLanes n) := by
  have hlanes (l : List (Nat × Nat × Nat)) : KeepsPorts s (s.forEach l fun e s => s.modSLane e.1 fun x => { x with sent := e.2.1 + e.2.2 }) :=
    .forEach fun _ _ x => keepsPorts_modSLane x _ _
  unfold State.padLanes
  dsimp only
  split
  · exact .refl s
  · split
    · exact hlanes _
    · exact (hlanes _).trans ((keepsPorts_modSPort _ _ (by exact fun _ => rfl)).trans (keepsPorts_emit _ _))

theorem keepsPorts_onLane (s : State) (i : Nat) (w : Codeword) : KeepsPorts s (s.onLane i w) := by
  unfold State.onLane
  dsimp only
  split
  · exact (keepsPorts_emit ..).trans ((keepsPorts_modSLane ..).trans ((keepsPorts_modSPort _ _ (by exact fun _ => rfl)).trans (.of_ports rfl)))
  · exact (keepsPorts_emit ..).trans ((keepsPorts_modSLane ..).trans (keepsPorts_modSPort _ _ (by exact fun _ => rfl)))

theorem keepsPorts_dealCodeword (s : State) (n : Nat) (msg : Option StairMsg) (load : StairMsg × Nat × Nat) :
    KeepsPorts s (s.dealCodeword n msg load) := by
  unfold State.dealCodeword
  dsimp only
  split
  · exact (keepsPorts_modSPort _ _ (by exact fun _ => rfl)).trans (keepsPorts_onLane _ _ _)
  · exact keepsPorts_modSPort _ _ (by exact fun _ => rfl)

theorem keepsPorts_sendUnit (s : State) (n : Nat) (m : StairMsg) (u : Nat) : KeepsPorts s (s.sendUnit n m u) := by
  have hcodewords : KeepsPorts s ((s.padLanes n).forEach (List.range (unitCodewords m u)) fun j s =>
      s.dealCodeword n (if decide (u + 1 = msgUnits m) && decide (j + 1 = unitCodewords m u) then some m else none) (m, u, j)) :=
    (keepsPorts_padLanes s n).trans (.forEach fun _ _ x => keepsPorts_dealCodeword x _ _ _)
  unfold State.sendUnit
  dsimp only
  split
  · exact hcodewords.trans (keepsPorts_emit _ _)
  · exact hcodewords

theorem keepsPorts_drainUnits (s : State) (n l : Nat) : KeepsPorts s (s.drainUnits n l) := by
  induction l generalizing s with
  | zero => exact .refl s
  | succ l ih =>
    unfold State.drainUnits
    split
    · exact .refl s
    · split
      · exact .refl s
      · exact (keepsPorts_modSPort _ _ (by exact fun _ => rfl)).trans ((keepsPorts_sendUnit _ _ _ _).trans (ih _))

theorem keepsPorts_sendOn (s : State) (n : Nat) (m : StairMsg) : KeepsPorts s (s.sendOn n m) := by
  unfold State.sendOn
  split
  · exact (keepsPorts_modSPort _ _ (by exact fun _ => rfl)).trans (keepsPorts_drainUnits _ _ _)
  · exact .refl s

theorem keepsPorts_sendUp (s : State) (m : StairMsg) : KeepsPorts s (s.sendUp m) := by
  unfold State.sendUp
  split
  · exact keepsPorts_sendOn _ _ _
  · exact .refl s

theorem KeepsPorts.child (h : KeepsPorts s u) (n : Nat) : (u.sPort n).child = (s.sPort n).child := (congrArg StairPort.child (h.port n) :)
theorem KeepsPorts.helloSent (h : KeepsPorts s u) (n : Nat) : (u.sPort n).helloSent = (s.sPort n).helloSent := (congrArg StairPort.helloSent (h.port n) :)

theorem Sends.treeOf {k : Nat} (h : Sends k s u) : u.treeOf = s.treeOf := by
  obtain ⟨⟨_, _, _, _, rfl⟩, -⟩ := h
  rfl

theorem Sends.treeState (h : Sends 16 s u) : u.treeState = s.treeState := h.get (f := Reg.STAIR.STATUS.tree) (.inl (by decide))

end

/-! ### Entering a state of the tree -/

/-- The words of no stair register. -/
def besideStair (a : Nat) : Prop := a < 0x480000 ∨ 0x480700 ≤ a

/-- The second state keeps the first one's stair, registers and all. -/
structure KeepsStair (s u : State) : Prop where
  words : SameOff besideStair s u
  stair : u.stair = s.stair

section

variable {s u v : State}

theorem KeepsStair.refl (s : State) : KeepsStair s s := ⟨.refl s, rfl⟩
theorem KeepsStair.trans (hsu : KeepsStair s u) (huv : KeepsStair u v) : KeepsStair s v := ⟨hsu.words.trans huv.words, huv.stair.trans hsu.stair⟩
theorem KeepsStair.of_regs (hregs : u.regs = s.regs) (hstair : u.stair = s.stair) : KeepsStair s u := ⟨.of_regs hregs, hstair⟩

theorem KeepsStair.put (h : KeepsStair s u) {f : Fld} (hf : besideStair f.addr) (v : Nat) : KeepsStair s (u.put f v) :=
  ⟨h.words.put hf v, (State.stair_put ..).trans h.stair⟩

theorem KeepsStair.ite {c : Prop} [Decidable c] (hu : KeepsStair s u) (hv : KeepsStair s v) : KeepsStair s (if c then u else v) := by
  split
  · exact hu
  · exact hv

theorem KeepsStair.forEach {α : Type} {f : α → State → State} {l : List α} (h : KeepsStair s u) (hf : ∀ a ∈ l, ∀ x, KeepsStair x (f a x)) :
    KeepsStair s (u.forEach l f) :=
  State.forEach_induct (P := KeepsStair s) h fun a ha x hx => hx.trans (hf a ha x)

theorem KeepsStair.get (h : KeepsStair s u) {f : Fld} (h1 : 0x480000 ≤ f.addr) (h2 : f.addr < 0x480700) : u.get f = s.get f :=
  h.words.get (by unfold besideStair; omega)

theorem keepsStair_showForm (s : State) {c : Nat} (hc : c < 8) : KeepsStair s (s.showForm c) := by
  obtain ⟨hwords, -, -⟩ := showForm_spec s c
  refine ⟨hwords.mono fun a ha => .inl ?_, rfl⟩
  rcases ha with rfl | rfl <;> dsimp only <;> omega

theorem keepsStair_decideStop (s : State) {c : Nat} (hc : c < 8) (a : Nat) (next : Option CarrierRec) : KeepsStair s (s.decideStop c a next) := by
  have hstate (x : State) (st : Nat) : KeepsStair x (x.put (Reg.CARRIER.STATUS.state c) st) :=
    (KeepsStair.refl x).put (f := Reg.CARRIER.STATUS.state c) (.inl (by dsimp only; omega)) st
  have hcar (f : CarrierState → CarrierState) : KeepsStair s (s.modCar c f) := .of_regs rfl rfl
  unfold State.decideStop
  refine .ite ((hcar _).trans (hstate _ _)) ?_
  cases next with
  | some r => exact (hcar _).trans ((hstate _ _).trans (keepsStair_showForm _ hc))
  | none => exact (hcar _).trans ((hstate _ _).trans (keepsStair_showForm _ hc))

end

theorem keepsStair_ota (s : State) (o : OtaState) : KeepsStair s { s with ota := o } := .of_regs rfl rfl

/-- A state of the tree is shown; but for the word that shows it, entering it leaves the stair alone. -/
theorem keepsStair_treeEnter (s : State) (st : Nat) : KeepsStair (s.put Reg.STAIR.STATUS.tree st) (s.treeEnter st) := by
  unfold State.treeEnter
  dsimp only
  generalize s.put Reg.STAIR.STATUS.tree st = x
  have hota : KeepsStair x x.otaAbandon := by
    unfold State.otaAbandon
    refine .ite (.refl x) ?_
    exact ((((KeepsStair.refl x).put (f := Reg.OTA.STATUS.cause) (.inr (by decide)) 4).put (f := Reg.OTA.STATUS.state) (.inr (by decide)) 0).put
      (f := Reg.OTA.STATUS.done) (.inr (by decide)) 1).trans (keepsStair_ota ..)
  exact .ite (.refl x) (hota.forEach fun c hc y => keepsStair_decideStop y (State.mem_runningCarriers (List.mem_of_mem_filter hc)).1 _ _)

theorem State.treeState_put (s : State) (st : Nat) : (s.put Reg.STAIR.STATUS.tree st).treeState = st % 16 :=
  s.get_put_same (f := Reg.STAIR.STATUS.tree) rfl st

theorem State.treeState_treeEnter (s : State) (st : Nat) : (s.treeEnter st).treeState = st % 16 :=
  ((keepsStair_treeEnter s st).get (f := Reg.STAIR.STATUS.tree) (by decide) (by decide)).trans (s.treeState_put st)

theorem State.treeEnter_formed (s : State) : s.treeEnter treeFormed = s.put Reg.STAIR.STATUS.tree treeFormed := by
  unfold State.treeEnter
  exact if_pos rfl

/-! ### Topology events -/

section

variable (s : State) (port cause action : Nat)

/-- A topology event is the newest record, and raises its notice. -/
theorem State.head_log_topology : (s.topology port cause action).log.head?.map (fun r => (r.kind, r.unit, r.inst)) = some (4, unitStair, port) := by
  rw [State.topology, State.head_log_record]
  rfl

theorem State.topology_notice : (s.topology port cause action).get Reg.HOST.INT_STATUS.topology = 1 := s.get_record_bit _

theorem State.stair_topology : (s.topology port cause action).stair = s.stair := s.stair_record _

theorem State.treeState_topology : (s.topology port cause action).treeState = s.treeState := s.get_record _ (by simp [recordWords])

end

/-! ### Beats -/

section

variable {s : State} {n : Nat}

theorem State.showPeer_spec (s : State) (n : Nat) {h : Hello} (hdepth : h.depth < 16) (hrole : h.role < 4) (htree : h.tree < 8)
    (hlanding : h.landing < 512) :
    (s.showPeer n h).get (Reg.STAIR.PORT_PEER.valid n) = 1 ∧ (s.showPeer n h).get (Reg.STAIR.PORT_PEER.depth n) = h.depth ∧
      (s.showPeer n h).get (Reg.STAIR.PORT_PEER.role n) = h.role ∧ (s.showPeer n h).get (Reg.STAIR.PORT_PEER.tree n) = h.tree ∧
      (s.showPeer n h).get (Reg.STAIR.PORT_PEER.landing n) = h.landing ∧ SameWords s (s.showPeer n h) [(Reg.STAIR.PORT_PEER.word n).addr] := by
  have hput (x : State) {f g : Fld} (hf : f.fits = true) (h : f.lo + f.width ≤ g.lo ∨ g.lo + g.width ≤ f.lo) (v : Nat) : (x.put f v).get g = x.get g :=
    State.get_put_apart x hf (Fld.apart_of_lo fun _ => h) v
  unfold State.showPeer
  refine ⟨?_, ?_, ?_, ?_, ?_, ?_⟩
  · rw [hput _ rfl (by dsimp only; omega), hput _ rfl (by dsimp only; omega), hput _ rfl (by dsimp only; omega), hput _ rfl (by dsimp only; omega), State.get_put_same _ rfl]
    rfl
  · rw [hput _ rfl (by dsimp only; omega), hput _ rfl (by dsimp only; omega), hput _ rfl (by dsimp only; omega), State.get_put_same _ rfl]
    exact Nat.mod_eq_of_lt hdepth
  · rw [hput _ rfl (by dsimp only; omega), hput _ rfl (by dsimp only; omega), State.get_put_same _ rfl]
    exact Nat.mod_eq_of_lt hrole
  · rw [hput _ rfl (by dsimp only; omega), State.get_put_same _ rfl]
    exact Nat.mod_eq_of_lt htree
  · rw [State.get_put_same _ rfl]
    exact Nat.mod_eq_of_lt hlanding
  · refine SameOff.sameWords ?_
    exact (((((SameOff.refl s).put (f := Reg.STAIR.PORT_PEER.valid n) (by simp) _).put (f := Reg.STAIR.PORT_PEER.depth n) (by simp) _).put
      (f := Reg.STAIR.PORT_PEER.role n) (by simp) _).put (f := Reg.STAIR.PORT_PEER.tree n) (by simp) _).put (f := Reg.STAIR.PORT_PEER.landing n) (by simp) _

theorem State.sPort_showPeer (s : State) (n : Nat) (h : Hello) (k : Nat) : (s.showPeer n h).sPort k = s.sPort k := by
  simp only [State.showPeer, State.sPort_put]

theorem State.isTop_put (s : State) (f : Fld) (v : Nat) : (s.put f v).isTop = s.isTop := rfl
theorem State.isTop_modSPort (s : State) (n : Nat) (f : StairPort → StairPort) : (s.modSPort n f).isTop = s.isTop := rfl

theorem State.isTop_showPeer (s : State) (n : Nat) (h : Hello) : (s.showPeer n h).isTop = s.isTop := by
  simp only [State.showPeer, State.isTop_put]

theorem State.sPort_modTree (s : State) (f : TreeState → TreeState) (k : Nat) : (s.modTree f).sPort k = s.sPort k := rfl
theorem State.treeOf_modTree (s : State) (f : TreeState → TreeState) : (s.modTree f).treeOf = f s.treeOf := rfl

/-- A HELLO is remembered and shown. -/
def State.helloShown (s : State) (n : Nat) (h : Hello) : State := (s.modSPort n fun x => { x with hello := some h, lastHello := s.now }).showPeer n h

/-- The top remembers and shows a HELLO, and asks for outcomes again where the sender has lost the tree (R447, R528). -/
theorem State.helloArrived_of_top (hup : s.sUp n = true) (htop : s.isTop = true) (h : Hello) :
    s.helloArrived n h = s.helloShown n h ∨ s.helloArrived n h = (s.helloShown n h).modTree fun t => { t with again := true } := by
  have htop' : (s.helloShown n h).isTop = true := by rw [State.helloShown, State.isTop_showPeer, State.isTop_modSPort, htop]
  have heq : s.helloArrived n h = if (s.helloShown n h).treeState == treeForming && h.tree == treeLost then
      (s.helloShown n h).modTree fun t => { t with again := true } else s.helloShown n h := by
    refine (if_neg (by rw [hup]; decide)).trans ?_
    exact if_pos htop'
  rw [heq]
  split
  · exact .inr rfl
  · exact .inl rfl

end

theorem treeBeats : Claim.TreeBeats := by
  intro s t n h hports
  have hlen : n.val < s.stair.ports.length := by omega
  refine ⟨fun hdown => ⟨Gives.of_eq rfl (if_neg ?_), Gives.of_eq rfl (if_pos ?_)⟩, fun hup hdue => ?_, fun hup htop hdepth hrole htree hlanding => ?_,
    fun hno => Gives.of_eq rfl (if_neg ?_), fun htop hst hdue => Gives.of_eq rfl (if_pos ?_), fun hno => Gives.of_eq rfl (if_neg ?_),
    fun htop hst hdue => ?_⟩
  · rw [show (s.atTime t).sUp n.val = false from hdown, Bool.false_and]
    exact Bool.false_ne_true
  · rw [show (s.atTime t).sUp n.val = false from hdown]
    rfl
  · refine ⟨_, Gives.of_eq rfl (if_pos ?_), ?_, rfl⟩
    · rw [show (s.atTime t).sUp n.val = true from hup, Bool.true_and, Bool.or_eq_true, decide_eq_true_eq, decide_eq_true_eq]
      exact hdue
    · rw [(keepsPorts_sendOn _ _ _).helloSent, State.sPort_modSPort_same (s := s.atTime t) hlen]
      rfl
  · have hport : ((s.atTime t).helloShown n.val h).sPort n.val = { s.sPort n.val with hello := some h, lastHello := max s.now t } := by
      rw [State.helloShown, State.sPort_showPeer]
      exact State.sPort_modSPort_same hlen _
    obtain ⟨h1, h2, h3, h4, h5, h6⟩ :=
      State.showPeer_spec ((s.atTime t).modSPort n.val fun x => { x with hello := some h, lastHello := (s.atTime t).now }) n.val hdepth hrole htree hlanding
    obtain ⟨u, hu, hport', hregs⟩ : ∃ u, Gives (.hello t n h) s u ∧ u.sPort n.val = ((s.atTime t).helloShown n.val h).sPort n.val ∧
        u.regs = ((s.atTime t).helloShown n.val h).regs := by
      rcases State.helloArrived_of_top (s := s.atTime t) hup htop h with heq | heq
      · exact ⟨_, Gives.of_eq rfl heq, rfl, rfl⟩
      · exact ⟨_, Gives.of_eq rfl heq, State.sPort_modTree .., State.regs_modTree ..⟩
    have hget := State.get_of_regs hregs
    refine ⟨u, hu, ?_, ?_, (hget _).trans h1, (hget _).trans h2, (hget _).trans h3, (hget _).trans h4, (hget _).trans h5, fun a ha => ?_⟩
    · rw [hport', hport]
    · rw [hport', hport]
    · rw [State.word, hregs]
      exact h6 a ha
  · rw [Bool.and_eq_true, Bool.and_eq_true, Bool.or_eq_true, beq_iff_eq, beq_iff_eq, decide_eq_true_eq]
    rintro ⟨⟨h1, h2⟩, h3⟩
    rcases hno with h | ⟨hf, hf'⟩ | h
    · exact Bool.false_ne_true (h.symm.trans h1)
    · exact h2.elim hf hf'
    · exact absurd h3 (Nat.not_le.2 h)
  · rw [Bool.and_eq_true, Bool.and_eq_true, Bool.or_eq_true, beq_iff_eq, beq_iff_eq, decide_eq_true_eq]
    exact ⟨⟨htop, hst⟩, hdue⟩
  · rw [Bool.and_eq_true, Bool.and_eq_true, Bool.or_eq_true, Bool.or_eq_true, beq_iff_eq, beq_iff_eq, beq_iff_eq, decide_eq_true_eq, Bool.not_eq_true']
    rintro ⟨⟨h1, h2⟩, h3⟩
    rcases hno with h | h | h | h | h
    · exact Bool.false_ne_true (h1.symm.trans h)
    · exact absurd (h ▸ h2) (by decide)
    · exact absurd (h ▸ h2) (by decide)
    · exact absurd (h ▸ h2) (by decide)
    · exact absurd h3 (Nat.not_le.2 h)
  · refine ⟨_, Gives.of_eq rfl (if_pos ?_), ?_, ?_, State.topology_notice _ 0 0 0⟩
    · rw [Bool.and_eq_true, Bool.and_eq_true, Bool.or_eq_true, Bool.or_eq_true, beq_iff_eq, beq_iff_eq, beq_iff_eq, decide_eq_true_eq, Bool.not_eq_true']
      exact ⟨⟨htop, or_assoc.2 hst⟩, hdue⟩
    · rw [State.treeState_topology, State.treeState_treeEnter]
      rfl
    · rw [State.topology, State.head_log_record]
      rfl

/-! ### Joining and forming -/

theorem assoc?_learned {l : List (Nat × List Nat)} (k : Nat) (p : List Nat) :
    assoc? ((l.filter fun e => !([(k, p)].any fun m => m.1 == e.1)) ++ [(k, p)]) k = some p := by
  have hnone : (l.filter fun e => !([(k, p)].any fun m => m.1 == e.1)).find? (fun e => e.1 == k) = none := by
    rw [List.find?_eq_none]
    intro e he
    have hne := (List.mem_filter.1 he).2
    intro h
    rw [beq_iff_eq] at h
    simp [h] at hne
  rw [assoc?, List.find?_append, hnone]
  simp

section

variable {s : State} {n : Nat}

theorem State.treeState_showLandings (s : State) : s.showLandings.treeState = s.treeState :=
  State.get_put_elsewhere (f := Reg.STAIR.LANDINGS.count) (g := Reg.STAIR.STATUS.tree) s (by decide) _

theorem State.stair_showLandings (s : State) : s.showLandings.stair = s.stair := rfl

theorem State.treeOf_learn (s : State) (members : List (Nat × List Nat)) : (s.learn members).treeOf =
    { s.treeOf with below := (s.treeOf.below.filter fun e => !(members.any fun m => m.1 == e.1)) ++ members } := rfl

theorem State.treeState_learn (s : State) (members : List (Nat × List Nat)) : (s.learn members).treeState = s.treeState :=
  (State.treeState_showLandings _).trans (State.get_modTree ..)

theorem State.length_ports_learn (s : State) (members : List (Nat × List Nat)) : (s.learn members).stair.ports.length = s.stair.ports.length := rfl

theorem State.treeOf_childJoins (s : State) (n landing : Nat) : (s.childJoins n landing).treeOf = s.treeOf := rfl
theorem State.treeState_childJoins (s : State) (n landing : Nat) : (s.childJoins n landing).treeState = s.treeState := State.get_modSPort ..

theorem State.child_childJoins (hn : n < s.stair.ports.length) (landing : Nat) : ((s.childJoins n landing).sPort n).child = some landing := by
  unfold State.childJoins
  dsimp only
  rw [State.sPort_modSPort_same hn]

/-- What a landing below the top keeps of a JOIN (R449, R450). -/
theorem State.joinArrived_spec (htop : s.isTop = false) (hn : n < s.stair.ports.length) (landing uid : Nat) (via : List Nat) :
    assoc? (s.joinArrived n landing uid via).treeOf.below landing = some (n :: via) ∧
      (via = [] → ((s.joinArrived n landing uid via).sPort n).child = some landing) ∧ (s.joinArrived n landing uid via).treeState = s.treeState := by
  obtain ⟨x, hx⟩ : ∃ x, x = s.learn [(landing, n :: via)] := ⟨_, rfl⟩
  have hbelow : assoc? x.treeOf.below landing = some (n :: via) := by
    rw [hx, State.treeOf_learn]
    exact assoc?_learned ..
  have hstate : x.treeState = s.treeState := by rw [hx, State.treeState_learn]
  have hlen : n < x.stair.ports.length := by rw [hx, State.length_ports_learn]; exact hn
  have heq : s.joinArrived n landing uid via =
      (if (n :: via).length = 1 then x.childJoins n landing else x).sendUp (.join landing uid (n :: via)) := by
    rw [hx]
    exact if_neg (by rw [htop]; decide)
  obtain ⟨y, hy⟩ : ∃ y, y = if (n :: via).length = 1 then x.childJoins n landing else x := ⟨_, rfl⟩
  rw [← hy] at heq
  have hsend := sends_sendUp y (.join landing uid (n :: via))
  rw [heq]
  refine ⟨?_, fun hvia => ?_, ?_⟩
  · rw [hsend.treeOf, hy]
    split
    · rw [State.treeOf_childJoins, hbelow]
    · exact hbelow
  · rw [(keepsPorts_sendUp _ _).child, hy, if_pos (by rw [hvia]; rfl)]
    exact State.child_childJoins hlen landing
  · rw [hsend.treeState, hy]
    split
    · rw [State.treeState_childJoins, hstate]
    · exact hstate

/-- The top refuses a JOIN of a landing that its image does not count (R450). -/
theorem State.joinArrived_of_uncounted (htop : s.isTop = true) {landing : Nat} (hcount : s.landingCount ≤ landing) (hjoined : s.treeOf.joined = [])
    (uid : Nat) (via : List Nat) {x y : State} (hx : x = s.learn [(landing, n :: via)]) (hy : y = x.routeTree treeRefused 0 0 0 landing) :
    s.joinArrived n landing uid via =
      ((y.modTree fun t => { t with below := t.below.filter fun e => e.1 != landing }).showLandings).topology n 0 0 := by
  have hfind : s.treeOf.joined.find? (fun e => e.1 == landing) = none := by rw [hjoined]; rfl
  refine (if_pos htop).trans ?_
  unfold State.topJoin
  dsimp only
  have hcond : (decide (s.landingCount ≤ landing) || landing == s.landing) = true := by rw [decide_eq_true hcount, Bool.true_or]
  rw [hfind, ← hx]
  dsimp only
  rw [← hy]
  rw [hx]
  exact if_pos hcond

theorem keepsStair_showLatency (s : State) {c : Nat} (hc : c < 8) : KeepsStair s (s.showLatency c) := by
  have h : besideStair (Reg.CARRIER.DL_LATENCY.ns c).addr ∧ besideStair (Reg.CARRIER.UL_LATENCY.ns c).addr ∧
      besideStair (Reg.CARRIER.PRACH_LATENCY.ns c).addr :=
    ⟨.inl (by dsimp only; omega), .inl (by dsimp only; omega), .inl (by dsimp only; omega)⟩
  obtain ⟨h1, h2, h3⟩ := h
  exact (((KeepsStair.refl s).put h1 _).put h2 _).put h3 _

/-- A landing that joins the formed tree reads its path, its addition and the boundary from which it delivers (R450, R451). -/
theorem State.formed_spec (s : State) {path addition : Nat} (hpath : path < 256) (hadd : addition < 65536) (start : Nat) :
    (s.formed path addition start).treeState = treeFormed ∧ (s.formed path addition start).get Reg.STAIR.TREE.formed_path = path ∧
      (s.formed path addition start).get Reg.STAIR.TREE.current_path = path ∧ (s.formed path addition start).get Reg.STAIR.TREE.addition = addition ∧
      (s.formed path addition start).treeOf.start = start := by
  obtain ⟨x, hx⟩ : ∃ x, x = ((s.put Reg.STAIR.TREE.formed_path path).put Reg.STAIR.TREE.current_path path).put Reg.STAIR.TREE.addition addition := ⟨_, rfl⟩
  obtain ⟨y, hy⟩ : ∃ y, y = (x.modTree fun t => { t with start := start }).put Reg.STAIR.STATUS.tree treeFormed := ⟨_, rfl⟩
  have heq : s.formed path addition start = y.forEach (List.range 8) fun c s => s.showLatency c := by
    rw [hy, ← State.treeEnter_formed, hx]
    rfl
  have hkeep : KeepsStair y (s.formed path addition start) := by
    rw [heq]
    exact (KeepsStair.refl y).forEach fun c hc z => keepsStair_showLatency z (List.mem_range.1 hc)
  have hxget (f : Fld) (hf : f.addr = Reg.STAIR.TREE.word.addr) : (s.formed path addition start).get f = x.get f := by
    rw [hkeep.get (by rw [hf]; decide) (by rw [hf]; decide), hy, State.get_put_elsewhere _ (by rw [hf]; decide), State.get_modTree]
  refine ⟨?_, ?_, ?_, ?_, ?_⟩
  · refine (hkeep.get (f := Reg.STAIR.STATUS.tree) (by decide) (by decide)).trans ?_
    rw [hy]
    exact State.treeState_put _ _
  · rw [hxget Reg.STAIR.TREE.formed_path rfl, hx, State.get_put_apart _ rfl (by decide), State.get_put_apart _ rfl (by decide), State.get_put_same _ rfl]
    exact Nat.mod_eq_of_lt hpath
  · rw [hxget Reg.STAIR.TREE.current_path rfl, hx, State.get_put_apart _ rfl (by decide), State.get_put_same _ rfl]
    exact Nat.mod_eq_of_lt hpath
  · rw [hxget Reg.STAIR.TREE.addition rfl, hx, State.get_put_same _ rfl]
    exact Nat.mod_eq_of_lt hadd
  · rw [State.treeOf, hkeep.stair, hy]
    rfl

end

/-- A heartbeat of the tree reaches a landing: every peer may be a parent again (R452, R456). -/
def State.beatHeard (s : State) : State :=
  (s.modTree fun t => { t with lastTree := s.now }).forEach (List.range 4) fun n s => s.modSPort n fun x => { x with excluded := false }

theorem State.beatHeard_spec (s : State) : s.beatHeard.regs = s.regs ∧ s.beatHeard.treeOf = { s.treeOf with lastTree := s.now } := by
  refine State.forEach_induct (P := fun u => u.regs = s.regs ∧ u.treeOf = { s.treeOf with lastTree := s.now }) ⟨rfl, rfl⟩ fun n _ x hx => ?_
  obtain ⟨hregs, htree⟩ := hx
  exact ⟨(State.regs_modSPort ..).trans hregs, htree⟩

/-- A FORMED landing without children hears the tree's heartbeat (R452). -/
theorem State.treeBroadcast_of_formed {s : State} (hst : s.treeState = treeFormed) (hchild : s.childPorts = []) (path addition start : Nat) :
    s.treeBroadcast treeFormed path addition start = s.beatHeard.put Reg.STAIR.TREE.current_path path := by
  obtain ⟨hregs, -⟩ := s.beatHeard_spec
  have hget := State.get_of_regs hregs
  have hchild' : s.beatHeard.childPorts = [] := (State.childPorts_of_ports fun n _ => ⟨hget _, hget _⟩).trans hchild
  have hst' : s.beatHeard.treeState = treeFormed := (hget _).trans hst
  have heq : s.treeBroadcast treeFormed path addition start =
      let u := s.beatHeard.sendDown (.tree treeFormed path addition start none)
      if u.treeState = treeLost && (treeFormed = treeForming || treeFormed = treeFormed) then u.takeDepth u.parentDepth (treeFormed == treeFormed)
      else if u.treeState = treeForming && treeFormed = treeFormed && !u.treeOf.waits then u.formed path addition start
      else if u.treeState = treeFormed && treeFormed = treeFormed then u.put Reg.STAIR.TREE.current_path path
      else u := rfl
  rw [heq]
  dsimp only
  rw [State.sendDown_of_childless hchild', hst']
  rfl

theorem treeRecords : Claim.TreeForming := by
  intro s t n landing uid st path addition start via target hports
  have hlen : n.val < s.stair.ports.length := by omega
  refine ⟨fun htop => ⟨_, Gives.of_eq rfl rfl, State.joinArrived_spec (s := s.atTime t) htop hlen landing uid via⟩, fun htop hcount hjoined => ?_,
    fun hno => Gives.of_eq rfl (if_pos ?_), fun htop hpar => ?_⟩
  · obtain ⟨x, hx⟩ : ∃ x, x = (s.atTime t).learn [(landing, n.val :: via)] := ⟨_, rfl⟩
    obtain ⟨y, hy⟩ : ∃ y, y = x.routeTree treeRefused 0 0 0 landing := ⟨_, rfl⟩
    have hxtree : x.treeOf.joined = [] := by
      rw [hx, State.treeOf_learn]
      exact hjoined
    have hbelow : assoc? x.treeOf.below landing = some (n.val :: via) := by
      rw [hx, State.treeOf_learn]
      exact assoc?_learned ..
    have hsend : Sends 16 x y := by
      rw [hy, State.routeTree, hbelow]
      have hto : (x.sendTo landing (.tree treeRefused 0 0 0 (some landing))) = x.sendOn n.val (.tree treeRefused 0 0 0 (some landing)) := by
        rw [State.sendTo, hbelow]
      have hon := sends_sendOn x (k := 16) (n := n.val) (by omega) (.tree treeRefused 0 0 0 (some landing))
      rw [← hto] at hon
      cases via with
      | nil => exact hon
      | cons m rest => exact hon
    refine ⟨_, Gives.of_eq rfl (State.joinArrived_of_uncounted (s := s.atTime t) htop hcount hjoined uid via hx hy), ?_, ?_, State.head_log_topology ..⟩
    · rw [State.treeOf, State.stair_topology]
      show y.treeOf.joined = []
      rw [hsend.treeOf, hxtree]
    · rw [State.treeState_topology, State.treeState_showLandings]
      exact (State.get_modTree ..).trans (hsend.treeState.trans (by rw [hx, State.treeState_learn]; rfl))
  · rw [Bool.or_eq_true, Bool.not_eq_true', State.fromParent, beq_eq_false_iff_ne]
    exact hno
  · have hstep (tgt : Option Nat) : Gives (.tree t n st path addition start tgt) s (match tgt with
        | some l => (s.atTime t).treeTargeted st path addition start l
        | none => (s.atTime t).treeBroadcast st path addition start) := by
      refine Gives.of_eq rfl (if_neg ?_)
      rw [Bool.or_eq_true, Bool.not_eq_true', State.fromParent, show (s.atTime t).isTop = false from htop,
        show (s.atTime t).parentPort = some n.val from hpar]
      simp
    refine ⟨fun hst hforming hpath hadd => ?_, fun hst => ?_, fun hst hformed hchild hpath => ?_⟩
    · refine ⟨_, (hstep (some s.landing)).of_eq ((if_pos rfl).trans ((if_neg (by rw [hst]; decide)).trans (if_pos ?_))),
        State.formed_spec (s.atTime t) hpath hadd start⟩
      rw [hst, show (s.atTime t).treeState = treeForming from hforming]
      rfl
    · refine ⟨_, (hstep (some s.landing)).of_eq ((if_pos rfl).trans (if_pos hst)), ?_⟩
      rw [State.treeState_treeEnter]
      rfl
    · obtain ⟨hregs, htree⟩ := (s.atTime t).beatHeard_spec
      obtain ⟨v, hv⟩ : ∃ v, v = (s.atTime t).beatHeard := ⟨_, rfl⟩
      rw [← hv] at hregs htree
      refine ⟨v.put Reg.STAIR.TREE.current_path path, (hstep none).of_eq (by
        rw [hst, hv]
        exact State.treeBroadcast_of_formed (s := s.atTime t) hformed hchild ..), ?_, ?_, ?_, ?_⟩
      · exact (State.get_put_elsewhere v (by decide) _).trans ((State.get_of_regs hregs _).trans hformed)
      · show v.treeOf.lastTree = _
        rw [htree]
        rfl
      · rw [State.get_put_same _ rfl]
        exact Nat.mod_eq_of_lt hpath
      · exact SameOff.sameWords (((SameOff.of_regs hregs).put (f := Reg.STAIR.TREE.current_path) (by simp) _))

/-! ### A new parent -/

section

variable {s : State}

theorem State.treeOf_sendOn (s : State) (n : Nat) (m : StairMsg) : (s.sendOn n m).treeOf = s.treeOf :=
  (sends_sendOn s (n := n) (Nat.le_refl _) m).treeOf

theorem State.treeOf_confirmDown (s : State) (landing carrier symbol : Nat) : (s.confirmDown landing carrier symbol).treeOf = s.treeOf := by
  unfold State.confirmDown
  dsimp only
  split
  next n a _ => exact (State.treeOf_sendOn _ _ _).trans rfl
  next =>
    unfold State.sendTo
    split
    · exact State.treeOf_sendOn _ _ _
    · rfl

theorem assoc?_moved {l : List (Nat × Nat)} (k a : Nat) : assoc? ((l.filter fun e => e.1 != k) ++ [(k, a)]) k = some a := by
  have hnone : (l.filter fun e => e.1 != k).find? (fun e => e.1 == k) = none := by
    rw [List.find?_eq_none]
    intro e he h
    have hne := (List.mem_filter.1 he).2
    rw [beq_iff_eq] at h
    simp [h] at hne
  rw [assoc?, List.find?_append, hnone]
  simp

/-- The top delivers to a subtree below its new parent from the symbol that the REPARENT names (R456). -/
theorem State.moved_topReparent (s : State) (port landing carrier symbol : Nat) (members : List (Nat × List Nat)) :
    assoc? (s.topReparent port landing carrier symbol members).treeOf.moved landing = some ((s.form carrier).boundary symbol) := by
  obtain ⟨x, hx⟩ : ∃ x, x = s.modTree fun t =>
    { t with joined := t.joined.map fun e => match assoc? members e.1 with
               | some p => (e.1, p, e.2.2)
               | none => e,
             moved := (t.moved.filter fun e => e.1 != landing) ++ [(landing, (s.form carrier).boundary symbol)] } := ⟨_, rfl⟩
  obtain ⟨y, hy⟩ : ∃ y, y = (x.put Reg.STAIR.TREE.current_path x.longestPath).confirmDown landing carrier symbol := ⟨_, rfl⟩
  have heq : s.topReparent port landing carrier symbol members =
      if y.get Reg.STAIR.TREE.addition < jointAddition x.longestPath then y.topology port 0 8 else y := by
    rw [hy, hx]
    rfl
  have hmoved : assoc? y.treeOf.moved landing = some ((s.form carrier).boundary symbol) := by
    rw [hy, State.treeOf_confirmDown]
    show assoc? x.treeOf.moved landing = _
    rw [hx]
    exact assoc?_moved ..
  rw [heq]
  split
  · rw [State.treeOf, State.stair_topology]
    exact hmoved
  · exact hmoved

theorem State.reparentAsked_of_top (htop : s.isTop = true) {port landing carrier symbol : Nat} {members : List (Nat × List Nat)}
    (hne : landing ≠ s.landing) :
    ∃ v : State, s.reparentAsked port landing carrier symbol members =
      v.topReparent port landing carrier symbol (members.map fun e => (e.1, port :: e.2)) ∧ v.form carrier = s.form carrier := by
  obtain ⟨v, hv⟩ : ∃ v, v = (if assoc? (members.map fun e => (e.1, port :: e.2)) landing == some [port] then
      s.modSPort port fun x => { x with adopting := some (landing, (s.form carrier).boundary symbol) } else s).learn
        (members.map fun e => (e.1, port :: e.2)) := ⟨_, rfl⟩
  have hform : v.form carrier = s.form carrier := by
    rw [hv]
    split <;> rfl
  have htop' : v.isTop = true := by
    rw [hv]
    split <;> exact htop
  refine ⟨v, (if_neg hne).trans ((if_neg ?_).trans ?_), hform⟩
  · rw [htop]
    simp
  · refine Eq.trans ?_ (if_pos htop' : (if v.isTop = true then
      v.topReparent port landing carrier symbol (members.map fun e => (e.1, port :: e.2)) else
        v.sendUp (.reparent landing carrier symbol 0 (members.map fun e => (e.1, port :: e.2)))) = _)
    rw [hv]

end

theorem afterLast_singleton {α : Type} (f : α → Bool) (x : α) : afterLast f [x] = if f x then [] else [x] := by
  unfold afterLast
  cases h : f x <;> simp [h]

theorem treeParents : Claim.TreeParents := by
  intro s t n landing carrier symbol members
  refine ⟨fun hnone => ⟨?_, ?_, ?_⟩, fun m since hask => ⟨fun hearly => ?_, fun hlate => ?_, fun hm hl => ⟨?_, ?_⟩⟩, fun hne htop => ?_, fun hempty => ?_,
    fun at0 m hone hother => ?_, fun at0 m hone hsame => ?_⟩
  · refine Gives.of_eq rfl ?_
    rw [show (s.atTime t).treeOf.asking = none from hnone]
    rfl
  · refine Gives.of_eq rfl ?_
    rw [show (s.atTime t).treeOf.asking = none from hnone]
    rfl
  · refine Gives.of_eq rfl ?_
    rw [show (s.atTime t).treeOf.asking = none from hnone]
  · refine Gives.of_eq rfl ?_
    rw [show (s.atTime t).treeOf.asking = some (m, since) from hask]
    exact if_neg (Nat.not_le.2 hearly)
  · refine ⟨_, Gives.of_eq rfl ?_, rfl⟩
    rw [show (s.atTime t).treeOf.asking = some (m, since) from hask]
    refine (if_pos hlate).trans ?_
    rw [State.abandon, show (s.atTime t).treeOf.asking = some (m, since) from hask]
  · refine Gives.of_eq rfl ?_
    rw [show (s.atTime t).treeOf.asking = some (m, since) from hask, hm, hl]
    exact if_pos (by simp; rfl)
  · refine Gives.of_eq rfl ?_
    rw [show (s.atTime t).treeOf.asking = some (m, since) from hask, hm, hl]
    exact if_pos (by simp; rfl)
  · obtain ⟨v, heq, hform⟩ := State.reparentAsked_of_top (s := s.atTime t) htop (port := n.val) (carrier := carrier) (symbol := symbol) (members := members) hne
    refine ⟨_, Gives.of_eq rfl heq, (v.moved_topReparent ..).trans ?_⟩
    rw [hform]
    rfl
  · refine Gives.of_eq rfl ?_
    rw [show (s.atTime t).treeOf.history = [] from hempty]
    rfl
  · refine Gives.of_eq rfl ?_
    rw [show (s.atTime t).treeOf.history = _ from hone, afterLast_singleton, if_neg (by rw [show (s.atTime t).ofSymbol carrier symbol m = false from hother]; decide)]
    rfl
  · refine Gives.of_eq rfl ?_
    rw [show (s.atTime t).treeOf.history = _ from hone, afterLast_singleton, if_pos hsame]
    rfl

/-- Settles O48: HELLO, the heartbeat, JOIN, TREE, REPARENT and RESUME, from what each leaves of the tree. -/
theorem treeFormation : Obligations.TreeFormation := ⟨treeBeats, treeRecords, treeParents⟩

end Sys2Proof.Machine
end

