-- ==== Sys2Proof/Proofs/TxnVoting.lean ====
section
/-!
Array-wide transactions: requests and their answers, announcements, PREPARE and votes (R520 to R525).
-/

namespace Sys2Proof.Machine

open Sys2Proof

/-! ### What the top knows of its transactions -/

section

variable {s u v : State}

theorem State.topTxn_modTop (s : State) (id : Nat) {f : TopTxn → TopTxn} (hf : ∀ x, (f x).id = x.id) :
    (s.modTop id f).topTxn id = (s.topTxn id).map f := by
  unfold State.topTxn State.modTop
  dsimp only
  rw [List.find?_map]
  have hcomp : ((fun x : TopTxn => x.id == id) ∘ fun x => if x.id == id then f x else x) = fun x => x.id == id := by
    funext x
    simp only [Function.comp]
    split
    · rw [hf]
    · rfl
  rw [hcomp]
  cases h : s.txn.top.find? fun x => x.id == id with
  | none => rfl
  | some x =>
    have := List.find?_some h
    simp only [Option.map_some, this, if_true]

/-- What the top has fixed of a transaction before its decision. -/
def TopTxn.plan (y : TopTxn) : Nat × Bool × Nat × Nat := (y.id, y.prepared, y.time, y.decideAt)

/-- The second state's top has fixed what the first one's has. -/
structure KeepsPlans (s u : State) : Prop where
  plans : u.txn.top.map TopTxn.plan = s.txn.top.map TopTxn.plan

theorem KeepsPlans.refl (s : State) : KeepsPlans s s := ⟨rfl⟩
theorem KeepsPlans.trans (hsu : KeepsPlans s u) (huv : KeepsPlans u v) : KeepsPlans s v := ⟨huv.plans.trans hsu.plans⟩
theorem KeepsPlans.of_top (h : u.txn.top = s.txn.top) : KeepsPlans s u := ⟨by rw [h]⟩
theorem KeepsPlans.of_keepsTxn (h : KeepsTxn s u) : KeepsPlans s u := .of_top (by rw [h.txn])

theorem KeepsPlans.ite {c : Prop} [Decidable c] (hu : KeepsPlans s u) (hv : KeepsPlans s v) : KeepsPlans s (if c then u else v) := by
  split
  · exact hu
  · exact hv

theorem KeepsPlans.topTxn (h : KeepsPlans s u) (id : Nat) : (u.topTxn id).map TopTxn.plan = (s.topTxn id).map TopTxn.plan := by
  have hfind (l : List TopTxn) : (l.find? fun x => x.id == id).map TopTxn.plan = (l.map TopTxn.plan).find? fun p => p.1 == id := by
    rw [List.find?_map]
    rfl
  rw [State.topTxn, State.topTxn, hfind, hfind, h.plans]

theorem keepsPlans_modTop (s : State) (id : Nat) {f : TopTxn → TopTxn} (hf : ∀ x, (f x).plan = x.plan) : KeepsPlans s (s.modTop id f) := by
  refine ⟨?_⟩
  unfold State.modTop
  dsimp only
  rw [List.map_map]
  refine List.map_congr_left fun x _ => ?_
  simp only [Function.comp]
  split
  · exact hf x
  · rfl

theorem keepsPlans_modSlot (s : State) (n : Nat) (f : TxnSlot → TxnSlot) : KeepsPlans s (s.modSlot n f) := .of_top rfl
theorem keepsPlans_disarm (s : State) (x : Timer) : KeepsPlans s (s.disarm x) := .of_top rfl
theorem keepsPlans_sendUp (s : State) (m : StairMsg) : KeepsPlans s (s.sendUp m) := .of_keepsTxn (sends_sendUp s m).keepsTxn
theorem keepsPlans_sendDown (s : State) (m : StairMsg) : KeepsPlans s (s.sendDown m) := .of_keepsTxn (keepsTxn_sendDown s m)

theorem keepsPlans_wakeWaiters (s : State) (n : Nat) : KeepsPlans s (s.wakeWaiters n) := .of_top (by rw [State.wakeWaiters_txn])

theorem State.top_internalLost (s : State) (n : Nat) : (s.internalLost n).txn.top = s.txn.top := by
  unfold State.internalLost
  split
  · split
    · rw [State.epochLate, State.txn_record]
      rfl
    · rfl
  · rfl

theorem State.topTxn_arm (s : State) (x : Timer) (t id : Nat) : (s.arm x t).topTxn id = s.topTxn id := rfl

/-- A decision in a slot leaves what the top holds. -/
theorem State.top_decideSlot (s : State) (n : Nat) (commit : Bool) (cause landing : Nat) : (s.decideSlot n commit cause landing).txn.top = s.txn.top := by
  have hend (x : State) (hx : x.txn.top = s.txn.top) : (if n < 20 then x.wakeWaiters n else
      (if commit then x.wakeWaiters n else (x.wakeWaiters n).internalLost n).setSlot n TxnSlot.free).txn.top = s.txn.top := by
    have hwake : (x.wakeWaiters n).txn.top = s.txn.top := by rw [State.wakeWaiters_txn, hx]
    split
    · exact hwake
    · refine Eq.trans (b := (if commit then x.wakeWaiters n else (x.wakeWaiters n).internalLost n).txn.top) rfl ?_
      split
      · exact hwake
      · rw [State.top_internalLost, hwake]
  cases commit with
  | true => exact hend _ rfl
  | false => exact hend _ rfl

theorem keepsPlans_decided (s : State) (id : Nat) (commit : Bool) (cause landing : Nat) : KeepsPlans s (s.decided id commit cause landing) := by
  cases h : s.slotOf id with
  | none =>
    rw [State.decided_of_none h]
    exact keepsPlans_sendDown ..
  | some n =>
    obtain ⟨k, v, hv, heq⟩ := State.decided_of_some h commit cause landing
    rw [heq]
    have hkept := (KeepsPlans.of_keepsTxn hv.keepsTxn).trans (keepsPlans_modSlot v n fun y => { y with queries := [] })
    exact .ite hkept (.ite ((hkept.trans (keepsPlans_modSlot ..)).trans (keepsPlans_disarm ..)) (hkept.trans (.of_top (State.top_decideSlot ..))))

theorem keepsPlans_topDecide (s : State) (id : Nat) (commit : Bool) (cause landing : Nat) : KeepsPlans s (s.topDecide id commit cause landing) := by
  unfold State.topDecide
  split
  · exact .refl s
  · exact .ite (.refl s) (((keepsPlans_modTop s id (by exact fun _ => rfl)).trans (keepsPlans_disarm ..)).trans (keepsPlans_decided ..))

theorem keepsPlans_voteCheck (s : State) (n : Nat) : KeepsPlans s (s.voteCheck n) := by
  unfold State.voteCheck
  dsimp only
  split
  · exact .ite (keepsPlans_topDecide ..) ((keepsPlans_modSlot ..).trans (keepsPlans_sendUp ..))
  · exact .ite (.ite (keepsPlans_topDecide ..) (.refl s)) (.ite ((keepsPlans_modSlot ..).trans (keepsPlans_sendUp ..)) (.refl s))

theorem keepsPlans_prepareSlot (s : State) (n : Nat) (decided : Bool) : KeepsPlans s (s.prepareSlot n decided) := by
  obtain ⟨h, heq⟩ := s.prepareSlot_eq n decided
  exact .of_top (by rw [heq]; rfl)

theorem keepsPlans_voteOwn (s : State) (n cause : Nat) : KeepsPlans s (s.voteOwn n cause) := by
  unfold State.voteOwn
  refine .ite (((keepsPlans_prepareSlot ..).trans (keepsPlans_modSlot ..)).trans (keepsPlans_voteCheck ..)) ?_
  exact (keepsPlans_modSlot ..).trans (keepsPlans_voteCheck ..)

theorem keepsPlans_showLiveCode (s : State) (v : Verdict) : KeepsPlans s (s.showLiveCode v) := State.when_spec (.refl s) (.of_top rfl) _

/-- PREPARE leaves what the top has fixed. -/
theorem keepsPlans_prepareArrived (s : State) (id time decide carrier : Nat) : KeepsPlans s (s.prepareArrived id time decide carrier) := by
  unfold State.prepareArrived
  dsimp only
  have hdown := keepsPlans_sendDown s (.txn (.prepare id time decide carrier))
  generalize s.sendDown (.txn (.prepare id time decide carrier)) = r at hdown ⊢
  refine hdown.trans ?_
  split
  · exact .ite (keepsPlans_topDecide ..) (keepsPlans_sendUp ..)
  next n _ =>
    have hasked := keepsPlans_modSlot r n fun x =>
      { x with asking := true, preparing := true, asked := r.arrayNow, time := time, decideAt := decide, carrier := carrier }
    generalize (r.modSlot n fun x =>
      { x with asking := true, preparing := true, asked := r.arrayNow, time := time, decideAt := decide, carrier := carrier }) = r at hasked ⊢
    refine hasked.trans ?_
    refine .ite (.ite (keepsPlans_voteOwn ..) (.refl r)) (.ite (keepsPlans_voteOwn ..) (.ite (keepsPlans_voteOwn ..) ?_))
    have hshow (v : Verdict) := (keepsPlans_modSlot r n fun x => { x with refuse := v.refuse }).trans (keepsPlans_showLiveCode _ v)
    refine .ite ((hshow _).trans (keepsPlans_voteOwn ..)) ?_
    split
    · exact ((hshow _).trans (keepsPlans_modSlot ..)).trans (.of_top rfl)
    · exact (hshow _).trans (keepsPlans_voteOwn ..)

end

/-! ### Requests and announcements -/

section

variable {s : State} {n : Nat}

/-- The top holds its first transaction, in slot 16. -/
def State.topOpened (s : State) : State :=
  { s.newArrayId.2 with
    txn := { s.newArrayId.2.txn with top := [{ id := s.newArrayId.1, slot := 16, prepared := false, time := 0, decideAt := 0, decision := none }] } }

theorem State.topOpen_of_empty (htop : s.txn.top = []) (landing tag : Nat) :
    s.topOpen landing tag = s.topOpened.announced s.newArrayId.1 16 landing tag 0 := by
  unfold State.topOpen
  rw [htop]
  have hnew : s.newArrayId.2.txn.top = [] := htop
  dsimp only
  simp only [List.any_nil, Bool.not_false, List.find?_cons_of_pos, hnew, List.filter_nil, List.nil_append]
  rfl

theorem State.topOpen_of_full (h : ∀ m ∈ [16, 17, 18, 19], ∃ x ∈ s.txn.top, x.slot = m ∧ x.decision = none) (landing tag : Nat) :
    s.topOpen landing tag = s.announced 0 0 landing tag resultNoSlot := by
  have hnone : [16, 17, 18, 19].find? (fun n => !s.txn.top.any fun x => x.slot == n && x.decision.isNone) = none := by
    rw [List.find?_eq_none]
    intro m hm htaken
    obtain ⟨x, hx, hslot, hdec⟩ := h m hm
    have hany : (s.txn.top.any fun x => x.slot == m && x.decision.isNone) = true :=
      List.any_eq_true.2 ⟨x, hx, by rw [hslot, hdec, beq_self_eq_true]; rfl⟩
    rw [hany] at htaken
    exact absurd htaken (by decide)
  unfold State.topOpen
  dsimp only
  rw [hnone]

theorem State.holdAnnounced_of_open (hnot : (s.slot n).state ≠ txPrepared) (hopen : (s.slot n).state = txOpen → (s.slot n).asking = false)
    (id origin tag : Nat) : s.holdAnnounced id n origin tag = s.setSlot n (announcedSlot id origin tag (s.slot n).part) := by
  refine if_neg ?_
  rw [Bool.or_eq_true, Bool.and_eq_true, beq_iff_eq, beq_iff_eq]
  rintro (h | ⟨h, h'⟩)
  · exact hnot h
  · exact Bool.false_ne_true ((hopen h).symm.trans h')

theorem State.landing_holdAnnounced (s : State) (id n origin tag : Nat) : (s.holdAnnounced id n origin tag).landing = s.landing := by
  unfold State.holdAnnounced
  dsimp only
  split <;> rfl

theorem State.holdAnnounced_keeps (s : State) (id n origin tag : Nat) : (s.holdAnnounced id n origin tag).chans = s.chans ∧
    (s.holdAnnounced id n origin tag).txn.openWait = s.txn.openWait ∧
      (s.holdAnnounced id n origin tag).txn.slots.length = s.txn.slots.length := by
  unfold State.holdAnnounced
  dsimp only
  split
  · exact ⟨rfl, rfl, rfl⟩
  · exact ⟨rfl, rfl, List.length_modify ..⟩

/-- An announcement of another landing's transaction is held, and goes down (R520). -/
theorem State.announced_elsewhere {origin : Nat} (hne : origin ≠ s.landing) (id tag result : Nat) :
    s.announced id n origin tag result = if result = 0 then
      (s.sendDown (.txn (.announce id n origin tag result))).holdAnnounced id n origin tag else s.sendDown (.txn (.announce id n origin tag result)) := by
  unfold State.announced
  dsimp only
  have hl : (if result = 0 then (s.sendDown (.txn (.announce id n origin tag result))).holdAnnounced id n origin tag else
      s.sendDown (.txn (.announce id n origin tag result))).landing = s.landing := by
    have hdown := landing_of_keepsTxn (keepsTxn_sendDown s (.txn (.announce id n origin tag result)))
    split
    · rw [State.landing_holdAnnounced, hdown]
    · exact hdown
  rw [hl, if_neg]
  simp [hne]

/-- An announcement of this landing's transaction is held, goes down, and answers the channel that asked (R520). -/
theorem State.announced_own (hn : n < 20) (id tag result : Nat) :
    ∃ v : State, s.announced id n s.landing tag result = v.openAnswered tag n result ∧
      v = if result = 0 then (s.sendDown (.txn (.announce id n s.landing tag result))).holdAnnounced id n s.landing tag
        else s.sendDown (.txn (.announce id n s.landing tag result)) := by
  refine ⟨_, if_pos ?_, rfl⟩
  have hdown := landing_of_keepsTxn (keepsTxn_sendDown s (.txn (.announce id n s.landing tag result)))
  rw [Bool.and_eq_true, decide_eq_true_eq, decide_eq_true_eq]
  refine ⟨?_, hn⟩
  split
  · rw [State.landing_holdAnnounced, hdown]
  · exact hdown.symm

/-- The answer of an announcement leaves the slot but for its owner, and the top. -/
theorem State.openAnswered_slot (hn : n < s.txn.slots.length) (tag : Nat) :
    (∃ o, (s.openAnswered tag n 0).slot n = { s.slot n with owner := o }) ∧ (s.openAnswered tag n 0).txn.top = s.txn.top := by
  unfold State.openAnswered
  cases h : assoc? s.txn.openWait tag with
  | none => exact ⟨⟨_, rfl⟩, rfl⟩
  | some ch => exact ⟨⟨ch, State.slot_modSlot_same (s := { s with txn := { s.txn with openWait := assocErase s.txn.openWait tag } }) hn _⟩, rfl⟩

/-- The slot of an announced transaction, whose owner may be a channel of this landing (R520). -/
theorem State.announced_slot (h20 : n < 20) (hn : n < s.txn.slots.length) (hfree : (s.slot n).state = txFree) (id origin tag : Nat) :
    (∃ o, (s.announced id n origin tag 0).slot n = { announcedSlot id origin tag (s.slot n).part with owner := o }) ∧
      (s.announced id n origin tag 0).txn.top = s.txn.top := by
  have hkeeps := keepsTxn_sendDown s (.txn (.announce id n origin tag 0))
  have hheld : (s.sendDown (.txn (.announce id n origin tag 0))).holdAnnounced id n origin tag =
      (s.sendDown (.txn (.announce id n origin tag 0))).setSlot n (announcedSlot id origin tag (s.slot n).part) := by
    rw [State.holdAnnounced_of_free (by rw [slot_of_keepsTxn hkeeps, hfree]), slot_of_keepsTxn hkeeps]
  obtain ⟨w, hw⟩ : ∃ w, w = (s.sendDown (.txn (.announce id n origin tag 0))).setSlot n (announcedSlot id origin tag (s.slot n).part) := ⟨_, rfl⟩
  have hlenv : n < (s.sendDown (.txn (.announce id n origin tag 0))).txn.slots.length := by rw [hkeeps.txn]; exact hn
  have hslot : w.slot n = announcedSlot id origin tag (s.slot n).part := by
    rw [hw]
    exact State.slot_modSlot_same hlenv _
  have htop : w.txn.top = s.txn.top := by
    rw [hw, ← hkeeps.txn]
    rfl
  have hlen : n < w.txn.slots.length := by
    rw [hw]
    exact lt_of_lt_of_eq hlenv (List.length_modify ..).symm
  by_cases horig : origin = s.landing
  · subst horig
    obtain ⟨v, heq, hv⟩ := State.announced_own (s := s) h20 id tag 0
    rw [if_pos rfl, hheld, ← hw] at hv
    rw [heq, hv]
    obtain ⟨⟨o, ho⟩, htop'⟩ := State.openAnswered_slot hlen tag
    exact ⟨⟨o, by rw [ho, hslot]⟩, htop'.trans htop⟩
  · rw [State.announced_elsewhere horig, if_pos rfl, hheld, ← hw]
    exact ⟨⟨_, hslot⟩, htop⟩

/-- The channel that asked learns that there is no slot (R520). -/
theorem State.openAnswered_of_refused {tag ch result : Nat} (hwait : s.txn.openWait = [(tag, ch)]) (hres : result ≠ 0) (n : Nat) :
    s.openAnswered tag n result = ({ s with txn := { s.txn with openWait := [] } } : State).txnDone ch resultNoSlot := by
  simp [State.openAnswered, hwait, assoc?, assocErase, hres]

theorem State.slot_atTime (s : State) (t n : Nat) : (s.atTime t).slot n = s.slot n ∨ (s.atTime t).slot n = TxnSlot.free := by
  have hslots : (s.atTime t).txn.slots = s.txn.slots.map fun x => match x.freeAt with
      | some a => if a ≤ max s.now t then TxnSlot.free else x
      | none => x := rfl
  rw [State.slot, State.slot, hslots]
  simp only [List.getD_eq_getElem?_getD, List.getElem?_map]
  cases s.txn.slots[n]? with
  | none => exact .inl rfl
  | some x =>
    simp only [Option.map_some, Option.getD_some]
    split
    · split
      · exact .inr rfl
      · exact .inl rfl
    · exact .inl rfl

/-- A transaction that the landing does not hold, it does not hold later. -/
theorem State.slotOf_atTime {id : Nat} (h : s.slotOf id = none) (t : Nat) : (s.atTime t).slotOf id = none := by
  have hnone := List.find?_eq_none.1 h
  refine List.find?_eq_none.2 fun n hn => ?_
  rw [State.length_slots_atTime] at hn
  rcases s.slot_atTime t n with heq | heq
  · rw [heq]
    exact hnone n hn
  · rw [heq]
    simp [TxnSlot.free]

/-- A decision of the top on a transaction that it does not hold is kept, and goes down (R523). -/
theorem State.topDecide_of_unheld {id : Nat} {x : TopTxn} (hx : s.topTxn id = some x) (hdec : x.decision = none) (hslot : s.slotOf id = none)
    (commit : Bool) (cause landing : Nat) :
    ((s.topDecide id commit cause landing).topTxn id).map (fun y => y.decision) = some (some (commit, cause, landing)) := by
  obtain ⟨v, hv⟩ : ∃ v : State, v = (s.modTop id fun y => { y with decision := some (commit, cause, landing) }).disarm (.decide x.slot) := ⟨_, rfl⟩
  have hnone : v.slotOf id = none := by
    rw [hv]
    exact (State.slotOf_of_slots (s := s) rfl id).trans hslot
  have heq : s.topDecide id commit cause landing = v.sendDown (.txn (.decision id commit cause landing)) := by
    rw [State.topDecide, hx]
    dsimp only
    rw [hdec, if_neg (by decide), ← hv, State.decided_of_none hnone]
  have htop : v.topTxn id = some { x with decision := some (commit, cause, landing) } := by
    rw [hv]
    refine (State.topTxn_modTop s id (by exact fun _ => rfl)).trans ?_
    rw [hx]
    rfl
  rw [heq, State.topTxn, (keepsTxn_sendDown v _).txn, ← State.topTxn, htop]
  rfl

theorem State.topDecide_of_decided {id : Nat} {x : TopTxn} (hx : s.topTxn id = some x) (hdec : x.decision ≠ none) (commit : Bool) (cause landing : Nat) :
    s.topDecide id commit cause landing = s := by
  rw [State.topDecide, hx]
  exact if_pos (by cases h : x.decision with | none => exact absurd h hdec | some d => rfl)

theorem State.prepareAsked_of_idle (htop : s.isTop = true) {id : Nat} {x : TopTxn} (hx : s.topTxn id = some x)
    (hidle : x.prepared = true ∨ x.decision ≠ none) (point : Word) : s.prepareAsked id point = s := by
  refine (if_neg (by rw [htop]; decide)).trans ?_
  rw [hx]
  refine if_pos ?_
  rw [Bool.or_eq_true, Option.isSome_iff_ne_none]
  exact hidle

/-- The margin of the array: 5 µs and 1.2 µs for each flight of the longest path (R521). -/
def State.arrayMargin (s : State) : Nat := ticksOfNs (5000 + 1200 * s.get Reg.STAIR.TREE.formed_path)

theorem State.prepareAsked_of_asked (htop : s.isTop = true) {id : Nat} {x : TopTxn} (hx : s.topTxn id = some x) (hprep : x.prepared = false)
    (hdec : x.decision = none) (point : Word) {g : Nat} {p : Nat × Nat} (hg : g = ticksOfUs (s.get Reg.TXN.ARRAY_CTL.guard))
    (hp : p = s.checkPoint (pointOf point) g s.arrayMargin) :
    s.prepareAsked id point = if p.2 != 0 then s.topDecide id false p.2 0xFFFF
      else (((s.modTop id fun y => { y with prepared := true, time := p.1, decideAt := p.1 - g }).arm (.decide x.slot)
        ((s.modTop id fun y => { y with prepared := true, time := p.1, decideAt := p.1 - g }).instantOf (p.1 - g))).prepareArrived id p.1 (p.1 - g)
          (pointOf point).carrier) := by
  refine (if_neg (by rw [htop]; decide)).trans ?_
  rw [hx, hp, hg]
  refine if_neg ?_
  rw [hprep, hdec]
  decide

end

theorem txnRequests : Claim.TxnRequests := by
  rintro s t landing tag id slot origin result point r rfl hslots hchans
  have hlen : (s.atTime t).txn.slots.length = 29 := (State.length_slots_atTime s t).trans hslots
  refine ⟨fun hbelow => ⟨Gives.of_eq rfl (if_neg ?_), Gives.of_eq rfl (if_pos ?_), Gives.of_eq rfl (if_neg ?_)⟩, fun htop hnone hfree => ?_,
    fun htop hfull => ?_, fun hres hne => ?_, fun hlt hnot hopen hne => ?_, fun ch hwait hlt horig => ⟨fun hres => ?_, ?_⟩,
    fun htop hnone => ⟨?_, ?_⟩, fun x htop hx => ⟨fun hdec => ⟨?_, ?_⟩, fun hprep => ?_, fun hdec hslot => ?_, fun hprep hdec g p hg hp =>
      ⟨fun hp0 hslot => ?_, fun n hp0 hslot h20 => ?_⟩⟩⟩
  · rw [show (s.atTime t).isTop = false from hbelow]
    exact Bool.false_ne_true
  · rw [show (s.atTime t).isTop = false from hbelow]
    rfl
  · rw [show (s.atTime t).isTop = false from hbelow]
    exact Bool.false_ne_true
  · have hopen := State.topOpen_of_empty (s := s.atTime t) hnone landing tag
    obtain ⟨⟨o, ho⟩, htop'⟩ := State.announced_slot (s := (s.atTime t).topOpened) (n := 16) (by decide) (by
      show 16 < (s.atTime t).txn.slots.length
      omega) hfree (s.atTime t).newArrayId.1 landing tag
    rw [← hopen] at ho htop'
    refine ⟨_, Gives.of_eq rfl (if_pos htop), ?_, ?_, ?_, ?_, ?_, ?_⟩
    · rw [ho]
      rfl
    · rw [ho]
      rfl
    · rw [ho]
      rfl
    · rw [ho]
      rfl
    · rw [ho]
      rfl
    · rw [htop', ho]
      rfl
  · exact Gives.of_eq rfl ((if_pos htop).trans (State.topOpen_of_full (s := s.atTime t) hfull landing tag))
  · exact Gives.of_eq rfl ((State.announced_elsewhere (s := s.atTime t) hne id tag result).trans (if_neg hres))
  · have hkeeps := keepsTxn_sendDown (s.atTime t) (.txn (.announce id slot origin tag 0))
    have heq := (State.announced_elsewhere (s := s.atTime t) (n := slot) hne id tag 0).trans (if_pos rfl)
    rw [State.holdAnnounced_of_open (by rw [slot_of_keepsTxn hkeeps]; exact hnot) (by rw [slot_of_keepsTxn hkeeps]; exact hopen)] at heq
    refine ⟨_, Gives.of_eq rfl heq, ?_, fun i hi => ?_⟩
    · rw [State.setSlot, State.slot_modSlot_same (by rw [hkeeps.txn, hlen]; omega), slot_of_keepsTxn hkeeps]
      rfl
    · rw [State.setSlot, State.slot_modSlot_other _ hi, slot_of_keepsTxn hkeeps]
  · subst horig
    obtain ⟨v, heq, hv⟩ := State.announced_own (s := s.atTime t) hlt id tag result
    rw [if_neg hres] at hv
    have hkeeps := keepsTxn_sendDown (s.atTime t) (.txn (.announce id slot (s.atTime t).landing tag result))
    rw [← hv] at hkeeps
    rw [State.openAnswered_of_refused (by rw [hkeeps.txn]; exact hwait) hres] at heq
    have hchan := State.chan_txnDone_same (s := { v with txn := { v.txn with openWait := [] } }) (ch := ch.val) (by
      show ch.val < v.chans.length
      rw [hkeeps.chans]
      show ch.val < s.chans.length
      omega) resultNoSlot
    exact ⟨_, Gives.of_eq rfl heq, by rw [hchan], by rw [hchan], rfl⟩
  · subst horig
    obtain ⟨v, heq, hv⟩ := State.announced_own (s := s.atTime t) hlt id tag 0
    rw [if_pos rfl] at hv
    have hkeeps := keepsTxn_sendDown (s.atTime t) (.txn (.announce id slot (s.atTime t).landing tag 0))
    obtain ⟨hvchans, hvwait, hvlen⟩ := State.holdAnnounced_keeps ((s.atTime t).sendDown (.txn (.announce id slot (s.atTime t).landing tag 0))) id slot
      (s.atTime t).landing tag
    rw [← hv] at hvchans hvwait hvlen
    rw [hkeeps.chans] at hvchans
    rw [hkeeps.txn] at hvwait hvlen
    rw [State.openAnswered_of_asked (s := v) (ch := ch.val) (hvwait.trans hwait)] at heq
    obtain ⟨w, hw⟩ : ∃ w, w = ({ v with txn := { v.txn with openWait := [] } } : State).modSlot slot fun x => { x with owner := ch.val } := ⟨_, rfl⟩
    rw [← hw] at heq
    have hchans : w.chans = s.chans := by
      rw [hw]
      exact hvchans
    have hchan := State.chan_bindTo_txnDone (s := w) (ch := ch.val) (by rw [hchans]; omega) slot resultOk
    refine ⟨_, Gives.of_eq rfl heq, ?_, by rw [hchan], by rw [hchan], by rw [hchan], by rw [hchan]⟩
    show (w.slot slot).owner = _
    rw [hw, State.slot_modSlot_same (s := { v with txn := { v.txn with openWait := [] } }) (by
      show slot < v.txn.slots.length
      rw [hvlen, hlen]
      omega)]
  · refine Gives.of_eq rfl ((if_neg (by rw [show (s.atTime t).isTop = true from htop]; decide)).trans ?_)
    rw [show (s.atTime t).topTxn id = none from hnone]
  · refine Gives.of_eq rfl ((if_pos htop).trans ?_)
    rw [State.topDecide, show (s.atTime t).topTxn id = none from hnone]
  · exact Gives.of_eq rfl (State.prepareAsked_of_idle (s := s.atTime t) htop hx (.inr hdec) point)
  · exact Gives.of_eq rfl ((if_pos htop).trans (State.topDecide_of_decided (s := s.atTime t) hx hdec ..))
  · exact Gives.of_eq rfl (State.prepareAsked_of_idle (s := s.atTime t) htop hx (.inl hprep) point)
  · exact ⟨_, Gives.of_eq rfl (if_pos htop), State.topDecide_of_unheld (s := s.atTime t) hx hdec (State.slotOf_atTime hslot t) ..⟩
  · exact ⟨_, Gives.of_eq rfl ((State.prepareAsked_of_asked (s := s.atTime t) htop hx hprep hdec point hg hp).trans (if_pos (bne_iff_ne.2 hp0))),
      State.topDecide_of_unheld (s := s.atTime t) hx hdec hslot ..⟩
  · refine ⟨_, Gives.of_eq rfl ((State.prepareAsked_of_asked (s := s.atTime t) htop hx hprep hdec point hg hp).trans (if_neg (by rw [hp0]; decide))), ?_⟩
    have hplan := (keepsPlans_prepareArrived (((s.atTime t).modTop id fun y => { y with prepared := true, time := p.1, decideAt := p.1 - g }).arm
      (.decide x.slot) (((s.atTime t).modTop id fun y => { y with prepared := true, time := p.1, decideAt := p.1 - g }).instantOf (p.1 - g))) id p.1 (p.1 - g)
        (pointOf point).carrier).topTxn id
    rw [State.topTxn_arm, State.topTxn_modTop (s.atTime t) id (by exact fun _ => rfl), show (s.atTime t).topTxn id = some x from hx] at hplan
    cases hu : State.topTxn _ id with
    | none =>
      rw [hu] at hplan
      cases hplan
    | some y =>
      rw [hu] at hplan
      have hy := Option.some.inj hplan
      simp only [TopTxn.plan, Prod.mk.injEq] at hy
      obtain ⟨-, h1, h2, h3⟩ := hy
      rw [Option.map_some, h1, h2, h3]

/-! ### Votes -/

section

variable {s : State} {n : Nat}

/-- A change of a slot that keeps what a transaction is found by. -/
theorem State.slotOf_modSlot (s : State) (m : Nat) {f : TxnSlot → TxnSlot} (hf : ∀ x, (f x).array = x.array ∧ (f x).state = x.state ∧ (f x).id = x.id)
    (id : Nat) : (s.modSlot m f).slotOf id = s.slotOf id := by
  have hslot (i : Nat) : ((s.modSlot m f).slot i).array = (s.slot i).array ∧ ((s.modSlot m f).slot i).state = (s.slot i).state ∧
      ((s.modSlot m f).slot i).id = (s.slot i).id := by
    by_cases hi : i = m
    · subst hi
      by_cases hlen : i < s.txn.slots.length
      · rw [State.slot_modSlot_same hlen]
        exact hf _
      · simp [State.slot, State.modSlot, hlen]
    · rw [State.slot_modSlot_other s hi]
      exact ⟨rfl, rfl, rfl⟩
  have hpred : (fun i => ((s.modSlot m f).slot i).array && ((s.modSlot m f).slot i).state != txFree && ((s.modSlot m f).slot i).id == id) =
      fun i => (s.slot i).array && (s.slot i).state != txFree && (s.slot i).id == id := by
    funext i
    obtain ⟨h1, h2, h3⟩ := hslot i
    rw [h1, h2, h3]
  rw [State.slotOf, State.slotOf, State.length_slots_modSlot, hpred]

/-- A landing that has decided against a transaction says so to its parent (R522). -/
theorem State.voteCheck_no_below (htop : s.isTop = false) {no : Nat × Nat} (h : (s.slot n).no = some no) :
    s.voteCheck n = (s.modSlot n fun y => { y with voted := 2 }).sendUp (.txn (.vote (s.slot n).id 0 no.1 no.2)) := by
  unfold State.voteCheck
  dsimp only
  rw [h]
  exact if_neg (by rw [htop]; decide)

theorem State.voteCheck_no_top (htop : s.isTop = true) {no : Nat × Nat} (h : (s.slot n).no = some no) :
    s.voteCheck n = s.topDecide (s.slot n).id false no.2 no.1 := by
  unfold State.voteCheck
  dsimp only
  rw [h]
  exact if_pos htop

theorem State.voteCheck_yes_top (htop : s.isTop = true) (h : (s.slot n).no = none) (hown : (s.slot n).ownYes = true) :
    s.voteCheck n = if (s.slot n).yes = s.landingCount then s.topDecide (s.slot n).id true 0 0xFFFF else s := by
  unfold State.voteCheck
  dsimp only
  rw [h]
  refine (if_pos htop).trans ?_
  rw [hown]
  exact if_congr (by simp) rfl rfl

/-- A landing without children votes YES as soon as it can (R522). -/
theorem State.voteCheck_yes_below (htop : s.isTop = false) (h : (s.slot n).no = none) (hvoted : (s.slot n).voted = 0) (hask : (s.slot n).asking = true)
    (hown : (s.slot n).ownYes = true) (hchild : s.childPorts = []) :
    s.voteCheck n = (s.modSlot n fun y => { y with voted := 1 }).sendUp (.txn (.vote (s.slot n).id (s.slot n).yes 0xFFFF 0)) := by
  unfold State.voteCheck
  dsimp only
  rw [h]
  refine (if_neg (by rw [htop]; decide)).trans (if_pos ?_)
  rw [hvoted, hask, hown, State.liveChildren, hchild]
  rfl

/-- The top decides on a transaction that it holds, undecided (R523). -/
theorem State.topDecide_of_held {id : Nat} {y : TopTxn} (hy : s.topTxn id = some y) (hdec : y.decision = none) (hslot : s.slotOf id = some n)
    (hstate : (s.slot n).state = txOpen ∨ (s.slot n).state = txPrepared) (hverdict : (s.slot n).verdict = none) (hdoubt : (s.slot n).inDoubt = false)
    (commit : Bool) (cause landing : Nat) :
    ∃ w : State, s.topDecide id commit cause landing = w.decideSlot n commit cause landing ∧ w.slot n = { s.slot n with queries := [] } ∧
      n < w.txn.slots.length ∧ (w.topTxn id).map (fun z => z.decision) = some (some (commit, cause, landing)) := by
  obtain ⟨v, hv⟩ : ∃ v : State, v = (s.modTop id fun y => { y with decision := some (commit, cause, landing) }).disarm (.decide y.slot) := ⟨_, rfl⟩
  have hvslots : v.txn.slots = s.txn.slots := by
    rw [hv]
    rfl
  have hvslot : v.slot n = s.slot n := by rw [State.slot, hvslots, State.slot]
  have heq : s.topDecide id commit cause landing = v.decided id commit cause landing := by
    rw [State.topDecide, hy]
    dsimp only
    rw [hdec, if_neg (by decide), ← hv]
  have htop : v.topTxn id = some { y with decision := some (commit, cause, landing) } := by
    rw [hv]
    refine (State.topTxn_modTop s id (by exact fun _ => rfl)).trans ?_
    rw [hy]
    rfl
  obtain ⟨k, w, hw, hdecided⟩ := State.decided_of_some ((State.slotOf_of_slots hvslots id).trans hslot) commit cause landing
  have hfinal : ¬ ((v.slot n).final || (v.slot n).verdict.isSome) = true := by
    rw [hvslot, hverdict]
    rcases hstate with h | h <;> simp [TxnSlot.final, h] <;> decide
  rw [if_neg hfinal, if_neg (by rw [hvslot, hdoubt]; decide)] at hdecided
  have hlen : n < w.txn.slots.length := by
    rw [hw.keepsTxn.txn, hvslots]
    exact (State.slotOf_some hslot).1
  refine ⟨w.modSlot n fun y => { y with queries := [] }, heq.trans hdecided, ?_, lt_of_lt_of_eq hlen (List.length_modify ..).symm, ?_⟩
  · rw [State.slot_modSlot_same hlen, slot_of_keepsTxn hw.keepsTxn, hvslot]
  · have htopw : (w.modSlot n fun y => { y with queries := [] }).topTxn id = v.topTxn id := by
      show w.txn.top.find? _ = _
      rw [hw.keepsTxn.txn]
      rfl
    rw [htopw, htop]
    rfl

theorem State.topTxn_decideSlot (s : State) (n : Nat) (commit : Bool) (cause landing id : Nat) :
    (s.decideSlot n commit cause landing).topTxn id = s.topTxn id := by rw [State.topTxn, State.top_decideSlot, State.topTxn]

/-- Of a transaction that a decision commits, every commit on its way is decided (R525). -/
theorem State.commits_decideSlot (h20 : n < 20) (cause landing : Nat) :
    ∀ z ∈ (s.decideSlot n true cause landing).txn.commits, z.id = (s.slot n).id → z.decided = true := by
  have hcommits : (s.decideSlot n true cause landing).txn.commits =
      s.txn.commits.map fun y => if y.id == (s.slot n).id then { y with decided := true } else y := by
    refine Eq.trans (b := (State.wakeWaiters _ n).txn.commits) (congrArg (fun x : State => x.txn.commits) (if_pos h20)) ?_
    rw [State.wakeWaiters_txn]
    rfl
  intro z hz hid
  rw [hcommits] at hz
  obtain ⟨y, -, rfl⟩ := List.mem_map.1 hz
  by_cases h : (y.id == (s.slot n).id) = true
  · rw [if_pos h]
  · rw [if_neg h] at hid
    exact absurd (beq_iff_eq.2 hid) h

/-- The landing whose NO ends a transaction is shown with its cause (R525). -/
theorem State.peer_decideSlot (hn : n < s.txn.slots.length) (h20 : n < 20) (cause : Nat) {landing : Nat} (hpeer : landing ≠ 0xFFFF) :
    ((s.decideSlot n false cause landing).slot n).peerCause = cause ∧ ((s.decideSlot n false cause landing).slot n).peer = landing := by
  obtain ⟨v, hv, hlen, hslotv⟩ : ∃ v : State, v = ((s.keepOutcome (s.slot n).id false).modSlot n fun x =>
      { x with
        peerCause := if landing != 0xFFFF then cause else 0
        peer := if landing != 0xFFFF then landing else 0x1FF }).dropCommit (s.slot n).id ∧ n < v.txn.slots.length ∧
      v.slot n = { s.slot n with peerCause := cause, peer := landing } := by
    refine ⟨_, rfl, lt_of_lt_of_eq hn (List.length_modify ..).symm, ?_⟩
    refine (State.slot_modSlot_same (s := s.keepOutcome (s.slot n).id false) hn _).trans ?_
    rw [bne_iff_ne.2 hpeer]
    rfl
  obtain ⟨w, hw, hslot⟩ : ∃ w : State, s.decideSlot n false cause landing = w.wakeWaiters n ∧ w = (v.disarm (.livePrepare n)).modSlot n fun x =>
      { x with
        state := txAborted
        cause := if landing != 0xFFFF then causePeer else cause
        staged := []
        live := none
        preparing := false
        abortPending := false } := ⟨_, if_pos h20, by rw [hv]; rfl⟩
  rw [hw, State.slot_wakeWaiters_same (by rw [hslot]; exact lt_of_lt_of_eq hlen (List.length_modify ..).symm), hslot,
    State.slot_modSlot_same (s := v.disarm (.livePrepare n)) hlen, State.slot_disarm, hslotv]
  exact ⟨rfl, rfl⟩

end

/-! ### PREPARE at a landing without children -/

section

variable {s : State} {id n time decide carrier : Nat}

/-- A slot that a PREPARE has reached. -/
def State.slotAsked (s : State) (n time decide carrier : Nat) : State :=
  s.modSlot n fun x => { x with asking := true, preparing := true, asked := s.arrayNow, time := time, decideAt := decide, carrier := carrier }

theorem State.slot_slotAsked (hn : n < s.txn.slots.length) : (s.slotAsked n time decide carrier).slot n =
    { s.slot n with asking := true, preparing := true, asked := s.arrayNow, time := time, decideAt := decide, carrier := carrier } :=
  State.slot_modSlot_same hn _

theorem State.length_slots_slotAsked : (s.slotAsked n time decide carrier).txn.slots.length = s.txn.slots.length := List.length_modify ..

/-- What a PREPARE meets in a slot of the host's (R522). -/
theorem State.prepareArrived_of_held (hslot : s.slotOf id = some n) (h20 : n < 20) (hchild : s.childPorts = []) (hsound : (s.slot n).poisoned = false) :
    s.prepareArrived id time decide carrier = if !s.isOwnBoundary carrier time then (s.slotAsked n time decide carrier).voteOwn n causeCarrier
      else
        let v := (s.slotAsked n time decide carrier).checkStaged n time s.arrayNow ((s.slotAsked n time decide carrier).slot n).staged
        let u := ((s.slotAsked n time decide carrier).modSlot n fun x => { x with refuse := v.refuse }).showLiveCode v
        if v.cause != 0 then u.voteOwn n v.cause
        else match u.livePartial ((s.slotAsked n time decide carrier).slot n).staged with
          | some q => (u.modSlot n fun x => { x with live := some q, claim := some q.serial }).arm (.livePrepare n) (u.now + installTicks q)
          | none => u.voteOwn n 0 := by
  obtain ⟨hn, -⟩ := State.slotOf_some hslot
  unfold State.prepareArrived
  dsimp only
  rw [State.sendDown_of_childless hchild, hslot]
  refine (if_neg (by omega)).trans (if_neg ?_)
  rw [State.slot_modSlot_same hn, hsound]
  exact Bool.false_ne_true

theorem State.prepareArrived_of_offBoundary (hslot : s.slotOf id = some n) (h20 : n < 20) (hchild : s.childPorts = [])
    (hsound : (s.slot n).poisoned = false) (hoff : s.isOwnBoundary carrier time = false) :
    s.prepareArrived id time decide carrier = (s.slotAsked n time decide carrier).voteOwn n causeCarrier := by
  rw [State.prepareArrived_of_held hslot h20 hchild hsound, hoff]
  rfl

theorem State.image_showLiveCode (s : State) (v : Verdict) : (s.showLiveCode v).image = s.image := State.when_spec (P := fun u => u.image = s.image) rfl rfl _

theorem State.prepareArrived_of_passed (hslot : s.slotOf id = some n) (h20 : n < 20) (hchild : s.childPorts = []) (hsound : (s.slot n).poisoned = false)
    (hown : s.isOwnBoundary carrier time = true) (hcause : (s.checkStaged n time s.arrayNow (s.slot n).staged).cause = 0)
    (hplain : s.livePartial (s.slot n).staged = none) {v : Verdict} (hv : v = s.checkStaged n time s.arrayNow (s.slot n).staged) :
    s.prepareArrived id time decide carrier =
      (((s.slotAsked n time decide carrier).modSlot n fun x => { x with refuse := v.refuse }).showLiveCode v).voteOwn n 0 := by
  obtain ⟨hn, -⟩ := State.slotOf_some hslot
  rw [State.prepareArrived_of_held hslot h20 hchild hsound, hown, State.slot_slotAsked hn]
  dsimp only
  have hcheck : (s.slotAsked n time decide carrier).checkStaged n time s.arrayNow (s.slot n).staged = v := by
    rw [hv, State.slotAsked, State.checkStaged_modSlot _ _ (by simp)]
  rw [hcheck]
  have hlive : (((s.slotAsked n time decide carrier).modSlot n fun x => { x with refuse := v.refuse }).showLiveCode v).livePartial (s.slot n).staged = none := by
    rw [State.livePartial, State.image_showLiveCode]
    exact hplain
  rw [hlive]
  refine (if_neg (by decide)).trans (if_neg ?_)
  rw [hv, hcause]
  decide

theorem State.isTop_showLiveCode (s : State) (v : Verdict) : (s.showLiveCode v).isTop = s.isTop := State.when_spec (P := fun u => u.isTop = s.isTop) rfl rfl _

theorem State.childPorts_showLiveCode (s : State) (v : Verdict) : (s.showLiveCode v).childPorts = s.childPorts :=
  State.when_spec (P := fun u => u.childPorts = s.childPorts) rfl (State.childPorts_of_ports fun m _ =>
    ⟨State.get_put_elsewhere s (by dsimp only; omega) _, State.get_put_elsewhere s (by dsimp only; omega) _⟩) _

theorem State.length_slots_showLiveCode (s : State) (v : Verdict) : (s.showLiveCode v).txn.slots.length = s.txn.slots.length :=
  State.when_spec (P := fun u => u.txn.slots.length = s.txn.slots.length) rfl rfl _

theorem State.image_prepareSlot (s : State) (n : Nat) (decided : Bool) : (s.prepareSlot n decided).image = s.image := by
  obtain ⟨h, heq⟩ := s.prepareSlot_eq n decided
  rw [heq]
  rfl

/-- A landing without children that votes YES for itself votes YES to its parent (R522). -/
theorem State.voteOwn_yes (hn : n < s.txn.slots.length) (htop : s.isTop = false) (hchild : s.childPorts = []) (hask : (s.slot n).asking = true)
    (hno : (s.slot n).no = none) (hvoted : (s.slot n).voted = 0) :
    (s.voteOwn n 0).slot n = { (s.slot n).prepared with ownYes := true, voted := 1 } := by
  obtain ⟨u, hu⟩ : ∃ u, u = (s.prepareSlot n false).modSlot n fun x => { x with ownYes := true } := ⟨_, rfl⟩
  have heq : s.voteOwn n 0 = u.voteCheck n := by
    rw [hu]
    rfl
  have hprep : n < (s.prepareSlot n false).txn.slots.length := by rw [State.length_slots_prepareSlot]; exact hn
  have hslot : u.slot n = { (s.slot n).prepared with ownYes := true } := by
    rw [hu, State.slot_modSlot_same hprep, State.slot_prepareSlot_same hn]
  have hlen : n < u.txn.slots.length := by
    rw [hu]
    exact lt_of_lt_of_eq hprep (List.length_modify ..).symm
  have himage : u.image = s.image := by
    rw [hu]
    exact State.image_prepareSlot s n false
  have htop' : u.isTop = false := by
    rw [← htop]
    unfold State.isTop State.role State.sectionBytes State.section?
    rw [himage]
  have hregs : u.regs = s.regs := by
    rw [hu]
    exact State.regs_prepareSlot s n false
  have hchild' : u.childPorts = [] := (State.childPorts_of_ports fun m _ => ⟨State.get_of_regs hregs _, State.get_of_regs hregs _⟩).trans hchild
  rw [heq, State.voteCheck_yes_below htop' (by rw [hslot]; exact hno) (by rw [hslot]; exact hvoted) (by rw [hslot]; exact hask) (by rw [hslot]) hchild',
    slot_of_keepsTxn (sends_sendUp _ _).keepsTxn, State.slot_modSlot_same hlen, hslot]

/-- A landing that votes NO for itself votes NO to its parent (R522). -/
theorem State.voteOwn_no (hn : n < s.txn.slots.length) (htop : s.isTop = false) (hno : (s.slot n).no = none) {cause : Nat} (hcause : cause ≠ 0) :
    (s.voteOwn n cause).slot n = { s.slot n with no := some (s.landing, cause), voted := 2 } := by
  obtain ⟨u, hu⟩ : ∃ u, u = s.modSlot n fun x => { x with no := lowestNo x.no s.landing cause } := ⟨_, rfl⟩
  have heq : s.voteOwn n cause = u.voteCheck n := by
    rw [hu]
    exact if_neg hcause
  have hslot : u.slot n = { s.slot n with no := some (s.landing, cause) } := by
    rw [hu, State.slot_modSlot_same hn, hno]
    rfl
  have hlen : n < u.txn.slots.length := by
    rw [hu]
    exact lt_of_lt_of_eq hn (List.length_modify ..).symm
  have htop' : u.isTop = false := by
    rw [hu]
    exact htop
  rw [heq, State.voteCheck_no_below htop' (no := (s.landing, cause)) (by rw [hslot]), slot_of_keepsTxn (sends_sendUp _ _).keepsTxn,
    State.slot_modSlot_same hlen, hslot]

/-- A YES of a child's subtree is added to those of the slot (R523). -/
def State.yesAdded (s : State) (n port yes : Nat) : State :=
  s.modSlot n fun x => { x with childYes := assocSet x.childYes port ((assoc? x.childYes port).getD 0 + yes) }

theorem State.voted_of_yes (hslot : s.slotOf id = some n) (hvoted : (s.slot n).voted = 0) (port yes cause : Nat) :
    s.voted port id yes 0xFFFF cause = (s.yesAdded n port yes).voteCheck n := by
  unfold State.voted
  rw [hslot]
  refine (if_neg (by decide)).trans ((if_neg ?_).trans (if_neg ?_))
  · rw [hvoted]
    decide
  · rw [hvoted]
    decide

theorem State.slot_yesAdded (hn : n < s.txn.slots.length) (hyes : (s.slot n).childYes = []) (port yes : Nat) :
    (s.yesAdded n port yes).slot n = { s.slot n with childYes := [(port, yes)] } := by
  rw [State.yesAdded, State.slot_modSlot_same hn, hyes]
  simp [assocSet, assoc?]

theorem State.slotOf_yesAdded (s : State) (n port yes id : Nat) : (s.yesAdded n port yes).slotOf id = s.slotOf id :=
  State.slotOf_modSlot _ _ (by exact fun _ => ⟨rfl, rfl, rfl⟩) _

/-- The top that has voted YES decides once every landing has (R523). -/
theorem State.voted_of_yes_top (hslot : s.slotOf id = some n) (htop : s.isTop = true) (hno : (s.slot n).no = none) (hown : (s.slot n).ownYes = true)
    (hvoted : (s.slot n).voted = 0) (hyes : (s.slot n).childYes = []) (port yes cause : Nat) :
    s.voted port id yes 0xFFFF cause = if yes + 1 = s.landingCount then (s.yesAdded n port yes).topDecide id true 0 0xFFFF else s.yesAdded n port yes := by
  obtain ⟨hn, hid⟩ := State.slotOf_some hslot
  have hslotv := State.slot_yesAdded hn hyes port yes
  have hsum : ((s.yesAdded n port yes).slot n).yes = yes + 1 := by
    rw [hslotv, TxnSlot.yes, hown]
    simp [sumNat, b2n]
    omega
  have hidv : ((s.yesAdded n port yes).slot n).id = id := by
    rw [hslotv]
    exact hid
  rw [State.voted_of_yes hslot hvoted, State.voteCheck_yes_top (s := s.yesAdded n port yes) htop (by rw [hslotv]; exact hno) (by rw [hslotv]; exact hown), hsum, hidv]
  rfl

/-- A NO of a child's subtree is noted in the slot (R523). -/
def State.noAdded (s : State) (n no cause : Nat) : State := s.modSlot n fun x => { x with no := lowestNo x.no no cause }

theorem State.voted_of_no (hslot : s.slotOf id = some n) {no : Nat} (hno : no ≠ 0xFFFF) (port yes cause : Nat) :
    s.voted port id yes no cause = (s.noAdded n no cause).voteCheck n := by
  unfold State.voted
  rw [hslot]
  exact if_pos (bne_iff_ne.2 hno)

theorem State.slot_noAdded (hn : n < s.txn.slots.length) (hno : (s.slot n).no = none) (no cause : Nat) :
    (s.noAdded n no cause).slot n = { s.slot n with no := some (no, cause) } := by
  rw [State.noAdded, State.slot_modSlot_same hn, hno]
  rfl

theorem State.slotOf_noAdded (s : State) (n no cause id : Nat) : (s.noAdded n no cause).slotOf id = s.slotOf id :=
  State.slotOf_modSlot _ _ (by exact fun _ => ⟨rfl, rfl, rfl⟩) _

/-- The top decides ABORT at the first NO (R523). -/
theorem State.voted_of_no_top (hslot : s.slotOf id = some n) (htop : s.isTop = true) (hno : (s.slot n).no = none) {no : Nat} (hne : no ≠ 0xFFFF)
    (port yes cause : Nat) : s.voted port id yes no cause = (s.noAdded n no cause).topDecide id false cause no := by
  obtain ⟨hn, hid⟩ := State.slotOf_some hslot
  have hslotv := State.slot_noAdded hn hno no cause
  have hidv : ((s.noAdded n no cause).slot n).id = id := by
    rw [hslotv]
    exact hid
  rw [State.voted_of_no hslot hne, State.voteCheck_no_top (s := s.noAdded n no cause) htop (no := (no, cause)) (by rw [hslotv]), hidv]

end

theorem txnVotes : Claim.TxnVotes := by
  rintro s t id time decide carrier yes no cause n port r x rfl rfl hslots
  have hlen : (s.atTime t).txn.slots.length = 29 := (State.length_slots_atTime s t).trans hslots
  refine ⟨fun hslot htop => ⟨?_, ?_⟩, fun hslot htop => ?_, fun hslot h20 htop hchild hstate hsound hno hvoted hown hcause hplain => ?_,
    fun hslot h20 htop hchild hsound hno hoff => ?_, fun y hslot h20 htop hy hdec hno hverdict hdoubt hstate =>
      ⟨fun hown hvoted hyes hab hcount => ?_, fun hown hvoted hyes hcount => ?_, fun hpeer => ?_⟩⟩
  · obtain ⟨v, hv⟩ : ∃ v, v = (s.atTime t).sendDown (.txn (.prepare id time decide carrier)) := ⟨_, rfl⟩
    have hsend : Sends 16 (s.atTime t) v := by rw [hv]; exact sends_sendDown ..
    have hnone : v.slotOf id = none := (State.slotOf_of_slots (congrArg TxnState.slots hsend.keepsTxn.txn) id).trans hslot
    refine Gives.of_eq rfl ?_
    show State.prepareArrived _ _ _ _ _ = _
    unfold State.prepareArrived
    dsimp only
    rw [← hv, hnone]
    refine (if_neg (by rw [hsend.isTop, show (s.atTime t).isTop = false from htop]; decide)).trans ?_
    rw [landing_of_keepsTxn hsend.keepsTxn]
    rfl
  · refine Gives.of_eq rfl ?_
    show State.voted _ _ _ _ _ _ = _
    unfold State.voted
    rw [hslot]
    exact if_neg (by rw [show (s.atTime t).isTop = false from htop]; exact Bool.false_ne_true)
  · refine Gives.of_eq rfl ?_
    show State.voted _ _ _ _ _ _ = _
    unfold State.voted
    rw [hslot]
    exact (if_pos htop).trans (if_pos rfl)
  · obtain ⟨v, hv⟩ : ∃ v, v = (s.atTime t).checkStaged n time (s.atTime t).arrayNow ((s.atTime t).slot n).staged := ⟨_, rfl⟩
    have heq := State.prepareArrived_of_passed (s := s.atTime t) (decide := decide) hslot h20 hchild hsound hown hcause hplain hv
    have hn : n < (s.atTime t).txn.slots.length := by omega
    obtain ⟨w, hw⟩ : ∃ w, w = ((s.atTime t).slotAsked n time decide carrier).modSlot n fun x => { x with refuse := v.refuse } := ⟨_, rfl⟩
    have hwslot : w.slot n = { (s.atTime t).slot n with asking := true, preparing := true, asked := (s.atTime t).arrayNow, time := time, decideAt := decide, carrier := carrier, refuse := v.refuse } := by
      rw [hw, State.slot_modSlot_same (by rw [State.length_slots_slotAsked]; exact hn), State.slot_slotAsked hn]
    have hwlen : n < w.txn.slots.length := by
      rw [hw, State.length_slots_modSlot, State.length_slots_slotAsked]
      exact hn
    have hwtop : w.isTop = false := by
      rw [hw]
      exact htop
    have hwchild : w.childPorts = [] := by
      rw [hw]
      exact hchild
    rw [← hw] at heq
    have hvote := State.voteOwn_yes (s := w.showLiveCode v) (n := n) (by rw [State.length_slots_showLiveCode]; exact hwlen)
      (by rw [State.isTop_showLiveCode]; exact hwtop) (by rw [State.childPorts_showLiveCode]; exact hwchild) (by rw [State.slot_showLiveCode, hwslot])
      (by rw [State.slot_showLiveCode, hwslot]; exact hno) (by rw [State.slot_showLiveCode, hwslot]; exact hvoted)
    rw [State.slot_showLiveCode, hwslot] at hvote
    exact ⟨_, Gives.of_eq rfl heq, by rw [hvote]; rfl, by rw [hvote]; rfl, by rw [hvote]; rfl, by rw [hvote], by rw [hvote], by rw [hvote]; rfl⟩
  · have hn : n < ((s.atTime t).slotAsked n time decide carrier).txn.slots.length := by rw [State.length_slots_slotAsked, hlen]; omega
    have hslotn := State.slot_slotAsked (s := s.atTime t) (n := n) (time := time) (decide := decide) (carrier := carrier) (by omega)
    have hvote := State.voteOwn_no (s := (s.atTime t).slotAsked n time decide carrier) hn htop (by rw [hslotn]; exact hno) (cause := causeCarrier) (by decide)
    exact ⟨_, Gives.of_eq rfl (State.prepareArrived_of_offBoundary (s := s.atTime t) hslot h20 hchild hsound hoff), by rw [hvote]; rfl, by rw [hvote]⟩
  · have hn : n < (s.atTime t).txn.slots.length := by omega
    obtain ⟨-, hid⟩ := State.slotOf_some hslot
    have heq := (State.voted_of_yes_top (s := s.atTime t) hslot htop hno hown hvoted hyes port.val yes cause).trans (if_pos hcount)
    have hslotv := State.slot_yesAdded (s := s.atTime t) hn hyes port.val yes
    have hofv := (State.slotOf_yesAdded (s.atTime t) n port.val yes id).trans hslot
    obtain ⟨w, hdecide, hwslot, hwlen, hwtop⟩ := State.topDecide_of_held (s := (s.atTime t).yesAdded n port.val yes) hy hdec hofv
      (by rw [hslotv]; exact hstate) (by rw [hslotv]; exact hverdict) (by rw [hslotv]; exact hdoubt) true 0 0xFFFF
    have hwid : (w.slot n).id = id := by
      rw [hwslot, hslotv]
      exact hid
    obtain ⟨h1, -, h3⟩ := State.decideSlot_commit hwlen h20 (by rw [hwslot, hslotv]; exact hab) 0 0xFFFF
    have h4 := State.commits_decideSlot (s := w) h20 0 0xFFFF
    rw [hwid] at h3 h4
    exact ⟨_, Gives.of_eq rfl (heq.trans hdecide), h1, h3, by rw [State.topTxn_decideSlot]; exact hwtop, h4⟩
  · have hn : n < (s.atTime t).txn.slots.length := by omega
    have heq := (State.voted_of_yes_top (s := s.atTime t) hslot htop hno hown hvoted hyes port.val yes cause).trans (if_neg (Nat.ne_of_lt hcount))
    have hslotv := State.slot_yesAdded (s := s.atTime t) hn hyes port.val yes
    exact ⟨_, Gives.of_eq rfl heq, by rw [hslotv], by rw [hslotv], rfl⟩
  · have hn : n < (s.atTime t).txn.slots.length := by omega
    obtain ⟨-, hid⟩ := State.slotOf_some hslot
    have heq := State.voted_of_no_top (s := s.atTime t) hslot htop hno hpeer port.val yes cause
    have hslotv := State.slot_noAdded (s := s.atTime t) hn hno no cause
    have hofv := (State.slotOf_noAdded (s.atTime t) n no cause id).trans hslot
    obtain ⟨w, hdecide, hwslot, hwlen, -⟩ := State.topDecide_of_held (s := (s.atTime t).noAdded n no cause) hy hdec hofv
      (by rw [hslotv]; exact hstate) (by rw [hslotv]; exact hverdict) (by rw [hslotv]; exact hdoubt) false cause no
    have hwid : (w.slot n).id = id := by
      rw [hwslot, hslotv]
      exact hid
    obtain ⟨h1, -, h3, h4, h5, -⟩ := State.decideSlot_abort hwlen h20 cause no
    obtain ⟨h6, h7⟩ := State.peer_decideSlot hwlen h20 cause hpeer
    rw [hwid] at h3
    exact ⟨_, Gives.of_eq rfl (heq.trans hdecide), h1, h4.trans (if_neg hpeer), h6, h7, h5, h3⟩

/-- Settles O53: requests and announcements at the top and at other landings, PREPARE and votes, each by the slot that it meets. -/
theorem txnRequestsVotes : Obligations.TxnRequestsVotes := ⟨txnRequests, txnVotes⟩

end Sys2Proof.Machine
end

