-- ==== Sys2Proof/Proofs/UnitRecovery.lean ====
section
/-!
Recovery of halls, path pipelines, the beam engine, the atrium and the corridors (R536, R540 to R545, R741).
-/

namespace Sys2Proof.Machine

open Sys2Proof

/-! ### Records and the functions that are given up -/

section

variable (s : State) (x : Rec)

theorem State.alcoves_record : (s.record x).alcoves = s.alcoves := by
  obtain ⟨_, _, _, _, _, h⟩ := logApart_record s x
  rw [h]

theorem State.recov_record : (s.record x).recov = s.recov := by
  obtain ⟨_, _, _, _, _, h⟩ := logApart_record s x
  rw [h]

/-- The words that a record writes beside the notices. -/
def logWords (a : Nat) : Prop := a ∈ [Reg.RECOVERY.LOG_HEAD.word.addr, Reg.RECOVERY.FAULTS.word.addr, Reg.RECOVERY.KEEP_LOST.word.addr]

theorem sameOff_writeRecord_logWords : SameOff logWords s (s.writeRecord x) := by
  have hkeep (u : State) (r : LogRecord) (hu : SameOff logWords s u) : SameOff logWords s (u.keepLog r) := by
    unfold State.keepLog
    split
    · exact hu.trans (.of_regs rfl)
    · exact hu.put (f := Reg.RECOVERY.KEEP_LOST.word) (by simp [logWords]) _
  have hhead {l : List LogRecord} {n : Nat} : SameOff logWords s (({ s with log := l } : State).put Reg.RECOVERY.LOG_HEAD.word n) :=
    SameOff.put (u := { s with log := l }) (.of_regs rfl) (by simp [logWords]) n
  unfold State.writeRecord
  cases x.kind with
  | fault => exact hkeep _ _ (.ite (hhead.put (f := Reg.RECOVERY.FAULTS.word) (by simp [logWords]) _) hhead)
  | retention | wedged => exact hkeep _ _ hhead
  | _ => exact hhead

/-- A notice leaves the other notices. -/
theorem State.get_notice_apart (k : Notice) {b : Nat} (hb : b ≠ k.bit) :
    (s.notice k).get ⟨Reg.HOST.INT_STATUS.fault.addr, b, 1⟩ = s.get ⟨Reg.HOST.INT_STATUS.fault.addr, b, 1⟩ := by
  unfold State.notice
  rw [State.get_notifyDue]
  refine State.get_put_apart s ?_ (Fld.apart_of_lo fun _ => by dsimp only; omega) _
  cases k <;> rfl

/-- A record leaves the notices of other kinds. -/
theorem State.get_record_apart {b : Nat} (hb : b ≠ x.kind.notice.bit) :
    (s.record x).get ⟨Reg.HOST.INT_STATUS.fault.addr, b, 1⟩ = s.get ⟨Reg.HOST.INT_STATUS.fault.addr, b, 1⟩ := by
  rw [State.record, State.get_notice_apart _ _ hb]
  exact (sameOff_writeRecord_logWords s x).get (by simp [logWords])

end

section

variable {s : State} {f : Function} {x : Rec}

/-- The bits of a function that is given up. -/
def State.wedgeMarked (s : State) (f : Function) : State := (s.put ⟨Reg.RECOVERY.WEDGED.word.addr, f.bit, 1⟩ 1).put Reg.RECOVERY.STATUS.wedged_any 1

theorem State.wedge_of_sound (h : s.isWedged f = false) (x : Rec) : s.wedge f x = (s.wedgeMarked f).record { x with kind := .wedged, action := 5 } :=
  if_neg (by rw [h]; exact Bool.false_ne_true)

/-- A function that is given up shows, and says so in the log and by the alarm (R543). -/
theorem State.wedge_shown (h : s.isWedged f = false) (x : Rec) : (s.wedge f x).isWedged f = true ∧ (s.wedge f x).get Reg.RECOVERY.STATUS.wedged_any = 1 ∧
    (s.wedge f x).newest = some (6, x.cls, x.unit, x.inst) ∧ (s.wedge f x).get Reg.HOST.INT_STATUS.alarm = 1 ∧ (s.wedge f x).faultAsserted = true := by
  obtain ⟨-, -, hwedged⟩ := wedge_spec s f x
  have hany : (s.wedge f x).get Reg.RECOVERY.STATUS.wedged_any = 1 := by
    rw [State.wedge_of_sound h, State.get_record _ _ (by simp [recordWords])]
    exact State.get_put_same _ rfl 1
  refine ⟨hwedged, hany, ?_, ?_, ?_⟩
  · rw [State.wedge_of_sound h, State.newest_record]
    rfl
  · rw [State.wedge_of_sound h]
    exact State.get_record_bit _ _
  · rw [State.faultAsserted, (State.flag_iff ..).2 (by rw [hany]; decide)]
    rfl

theorem State.halls_wedge (s : State) (f : Function) (x : Rec) : (s.wedge f x).halls = s.halls := by
  unfold State.wedge
  split
  · rfl
  · rw [State.halls_record]
    rfl

theorem State.recov_wedge (s : State) (f : Function) (x : Rec) : (s.wedge f x).recov = s.recov := by
  unfold State.wedge
  split
  · rfl
  · rw [State.recov_record]
    rfl

/-- Notices beside the alarm are left by a function that is given up. -/
theorem State.get_wedge_notice (s : State) (f : Function) (x : Rec) {b : Nat} (hb : b ≠ 5) :
    (s.wedge f x).get ⟨Reg.HOST.INT_STATUS.fault.addr, b, 1⟩ = s.get ⟨Reg.HOST.INT_STATUS.fault.addr, b, 1⟩ := by
  unfold State.wedge
  split
  · rfl
  · rw [State.get_record_apart _ _ (by exact hb)]
    exact (State.get_put_elsewhere _ (by dsimp only; decide) _).trans (State.get_put_elsewhere (f := ⟨Reg.RECOVERY.WEDGED.word.addr, f.bit, 1⟩) _ (by
      show Reg.RECOVERY.WEDGED.word.addr ≠ Reg.HOST.INT_STATUS.fault.addr
      decide) _)

end

/-! ### Recoveries in progress -/

section

variable {s : State}

theorem State.restartRecov_of_none {r : Recov} (h : s.recovOf r.cls r.inst = none) : s.restartRecov r = s.beginRecov r := by
  unfold State.restartRecov
  rw [h]

theorem State.dropRecov_of_none {cls inst : Nat} (h : s.recovOf cls inst = none) : s.dropRecov cls inst = s := by
  unfold State.dropRecov
  rw [h]

/-- Beginning a recovery anew changes the recoveries in progress alone. -/
theorem State.restartRecov_spec (s : State) (r : Recov) : ∃ l, s.restartRecov r = { s with recov := { s.recov with running := l } } := by
  unfold State.restartRecov
  split
  · exact ⟨_, rfl⟩
  · exact ⟨_, rfl⟩

theorem State.dropRecov_spec (s : State) (cls inst : Nat) : ∃ l, s.dropRecov cls inst = { s with recov := { s.recov with running := l } } := by
  unfold State.dropRecov
  split
  · exact ⟨_, rfl⟩
  · exact ⟨_, rfl⟩

theorem State.halls_showSpares (s : State) : s.showSpares.halls = s.halls := rfl
theorem State.alcoves_showSpares (s : State) : s.showSpares.alcoves = s.alcoves := rfl
theorem State.recov_showSpares (s : State) : s.showSpares.recov = s.recov := rfl

theorem State.get_showSpares (s : State) {g : Fld} (h : g.addr ≠ 0x70004) : s.showSpares.get g = s.get g := by
  unfold State.showSpares
  dsimp only
  rw [State.get_put_elsewhere _ (by exact fun h' => h h'.symm), State.get_put_elsewhere _ (by exact fun h' => h h'.symm),
    State.get_put_elsewhere _ (by exact fun h' => h h'.symm)]

end

/-! ### Halls -/

section

variable {s : State} {h tile mask : Nat}

theorem State.hall_modHall_other {k : Nat} (hk : k ≠ h) (f : Hall → Hall) : (s.modHall h f).hall k = s.hall k := by
  simp [State.hall, State.modHall, Ne.symm hk]

theorem State.halls_tileServes : (s.tileServes h tile).halls = (s.modHall h fun x => { x with tile := some tile }).halls := by
  unfold State.tileServes
  dsimp only
  split <;> rfl

theorem State.tileServes_of_alcove {k : Nat} : s.tileServes h (136 + k) =
    (s.modHall h fun x => { x with tile := some (136 + k) }).modAlcove k fun a => { a with serves := some h } := by
  refine (if_pos (by omega)).trans ?_
  rw [Nat.add_sub_cancel_left]

/-- The recovery that a failed hall's work begins. -/
def State.hallRecov (s : State) (h tile mask : Nat) : Recov := { s.newRecov 1 unitHall h 1 tile mask with detail := (s.hall h).check.pc }

/-- A free alcove takes the work of a failed hall (R540). -/
theorem State.rehouse_of_alcove {k : Nat} (hk : (s.alcoves.findIdx? fun a => !a.retired && a.serves.isNone) = some k) :
    s.rehouse h mask = (s.tileServes h (136 + k)).restartRecov (s.hallRecov h (136 + k) mask) := by
  unfold State.rehouse
  rw [hk]
  rfl

/-- A hall that loses its tile to another. -/
def State.evict (s : State) (v : Nat) : State :=
  ((s.dropRecov 1 v).modHall v fun x => { x with evicted := true, tile := none }).record { kind := .degradation, unit := unitHall, inst := v, action := 4 }

theorem State.rehouse_of_victim (hnone : (s.alcoves.findIdx? fun a => !a.retired && a.serves.isNone) = none) (hpre : s.faultPreempt = true) {v tv : Nat}
    (hv : s.victim h = some v) (htv : (s.hall v).tile = some tv) :
    s.rehouse h mask = ((s.evict v).tileServes h tv).restartRecov ((s.evict v).hallRecov h tv mask) := by
  unfold State.rehouse
  rw [hnone]
  dsimp only
  rw [if_pos hpre, hv]
  dsimp only
  rw [htv]
  rfl

/-- A hall whose work is given up (R540). -/
def State.giveUp (s : State) (h : Nat) : State :=
  ((s.dropRecov 1 h).modHall h fun x => { x with wedged := true, tile := none }).showSpares.record
    { kind := .degradation, unit := unitHall, inst := h, action := 5 }

theorem State.rehouse_of_none (hnone : (s.alcoves.findIdx? fun a => !a.retired && a.serves.isNone) = none) (hpre : s.faultPreempt = false) :
    s.rehouse h mask = (s.giveUp h).wedge .halls { kind := .wedged, cls := 1, unit := unitHall, inst := h } := by
  unfold State.rehouse
  rw [hnone]
  dsimp only
  rw [if_neg (by rw [hpre]; exact Bool.false_ne_true)]
  rfl

theorem foldl_victim_spec {p : Nat → Nat} {q : Nat → Prop} {l : List Nat} (hl : ∀ v ∈ l, q v) :
    ∀ best : Option Nat, (∀ b, best = some b → q b) → ∀ v, l.foldl (fun best v => match best with
      | some b => if p b ≤ p v then some v else best
      | none => some v) best = some v → q v := by
  induction l with
  | nil => exact fun best hbest v hv => hbest v hv
  | cons a l ih =>
    intro best hbest v hv
    refine ih (fun v hv => hl v (List.mem_cons_of_mem a hv)) _ (fun b hb => ?_) v hv
    have ha := hl a List.mem_cons_self
    cases best with
    | none => exact (Option.some.inj hb) ▸ ha
    | some c =>
      dsimp only at hb
      split at hb
      · exact (Option.some.inj hb) ▸ ha
      · exact hbest b hb

/-- A hall takes no tile from itself. -/
theorem State.victim_ne {v : Nat} (hv : s.victim h = some v) : v ≠ h := by
  have hlt : s.hallPrio h < s.hallPrio v := by
    refine foldl_victim_spec (q := fun v => s.hallPrio h < s.hallPrio v) (fun w hw => ?_) none (fun b hb => by cases hb) v hv
    have := (List.mem_filter.1 hw).2
    simp only [Bool.and_eq_true, decide_eq_true_eq] at this
    exact this.1.2
  rintro rfl
  exact Nat.lt_irrefl _ hlt

/-- The work of a hall moves to a free alcove (R540). -/
theorem State.rehouse_alcove_spec (hh : h < s.halls.length) (hnone : s.recovOf 1 h = none) {k : Nat}
    (hk : (s.alcoves.findIdx? fun a => !a.retired && a.serves.isNone) = some k) :
    ((s.rehouse h mask).hall h).tile = some (136 + k) ∧
      (s.rehouse h mask).alcoves.getD k { serves := none, retired := true } = { serves := some h, retired := false } ∧
      (s.rehouse h mask).recov.running = s.recov.running ++ [s.hallRecov h (136 + k) mask] ∧ (s.rehouse h mask).log = s.log ∧
      (s.rehouse h mask).mem = s.mem := by
  obtain ⟨hlt, hfree, -⟩ := List.findIdx?_eq_some_iff_getElem.1 hk
  rw [Bool.and_eq_true, Bool.not_eq_true'] at hfree
  rw [State.rehouse_of_alcove hk, State.restartRecov_of_none (by rw [State.tileServes_of_alcove]; exact hnone), State.tileServes_of_alcove]
  refine ⟨?_, ?_, rfl, rfl, rfl⟩
  · exact congrArg Hall.tile (State.hall_modHall_same hh _)
  · show (s.alcoves.modify k fun a => { a with serves := some h }).getD k _ = _
    rw [List.getD_eq_getElem _ _ (by rw [List.length_modify]; exact hlt), List.getElem_modify_eq, hfree.1]

/-- With no alcove free, a hall of lower priority loses its tile (R540). -/
theorem State.rehouse_victim_spec (hh : h < s.halls.length) (hnone : (s.alcoves.findIdx? fun a => !a.retired && a.serves.isNone) = none)
    (hpre : s.faultPreempt = true) {v tv : Nat} (hv : s.victim h = some v) (hvlen : v < s.halls.length) (htv : (s.hall v).tile = some tv) :
    ((s.rehouse h mask).hall v).evicted = true ∧ ((s.rehouse h mask).hall v).tile = none ∧ ((s.rehouse h mask).hall h).tile = some tv ∧
      (s.rehouse h mask).newest = some (2, 0, unitHall, v) ∧ (s.rehouse h mask).get Reg.HOST.INT_STATUS.degradation = 1 := by
  rw [State.rehouse_of_victim hnone hpre hv htv]
  obtain ⟨e, he⟩ : ∃ e, e = s.evict v := ⟨_, rfl⟩
  have hhalls : e.halls = (s.modHall v fun x => { x with evicted := true, tile := none }).halls := by
    obtain ⟨l, hl⟩ := s.dropRecov_spec 1 v
    rw [he, State.evict, State.halls_record, hl]
    rfl
  have hnewest : e.newest = some (2, 0, unitHall, v) := by
    rw [he, State.evict, State.newest_record]
    rfl
  have hbit : e.get Reg.HOST.INT_STATUS.degradation = 1 := by
    rw [he]
    exact State.get_record_bit _ _
  rw [← he]
  obtain ⟨l, hl⟩ := (e.tileServes h tv).restartRecov_spec (e.hallRecov h tv mask)
  have htile : (e.tileServes h tv).log = e.log ∧ (e.tileServes h tv).regs = e.regs := by
    unfold State.tileServes
    dsimp only
    split <;> exact ⟨rfl, rfl⟩
  obtain ⟨htlog, htregs⟩ := htile
  have hend : ((e.tileServes h tv).restartRecov (e.hallRecov h tv mask)).halls = (e.tileServes h tv).halls ∧
      ((e.tileServes h tv).restartRecov (e.hallRecov h tv mask)).log = e.log ∧ ((e.tileServes h tv).restartRecov (e.hallRecov h tv mask)).regs = e.regs := by
    rw [hl]
    exact ⟨rfl, htlog, htregs⟩
  generalize (e.tileServes h tv).restartRecov (e.hallRecov h tv mask) = u at hend
  obtain ⟨huhalls, hulog, huregs⟩ := hend
  have hev : e.hall v = { s.hall v with evicted := true, tile := none } := by
    rw [State.hall, hhalls]
    exact State.hall_modHall_same hvlen _
  have helen : e.halls.length = s.halls.length := by
    rw [hhalls]
    exact List.length_modify ..
  have huv : u.hall v = e.hall v := by
    rw [State.hall, huhalls, State.halls_tileServes]
    exact State.hall_modHall_other (State.victim_ne hv) _
  have huh : (u.hall h).tile = some tv := by
    rw [State.hall, huhalls, State.halls_tileServes]
    exact congrArg Hall.tile (State.hall_modHall_same (s := e) (by rw [helen]; exact hh) _)
  refine ⟨by rw [huv, hev], by rw [huv, hev], huh, ?_, (State.get_of_regs huregs _).trans hbit⟩
  rw [State.newest, hulog]
  exact hnewest

/-- With no tile to take, the work of a hall is given up (R540, R543). -/
theorem State.rehouse_wedged_spec (hh : h < s.halls.length) (hnone : (s.alcoves.findIdx? fun a => !a.retired && a.serves.isNone) = none)
    (hpre : s.faultPreempt = false) (hsound : s.isWedged .halls = false) :
    ((s.rehouse h mask).hall h).wedged = true ∧ ((s.rehouse h mask).hall h).tile = none ∧ (s.rehouse h mask).isWedged .halls = true ∧
      (s.rehouse h mask).get Reg.RECOVERY.STATUS.wedged_any = 1 ∧ (s.rehouse h mask).newest = some (6, 1, unitHall, h) ∧
      (s.rehouse h mask).get Reg.HOST.INT_STATUS.alarm = 1 ∧ (s.rehouse h mask).get Reg.HOST.INT_STATUS.degradation = 1 := by
  rw [State.rehouse_of_none hnone hpre]
  obtain ⟨g, hg⟩ : ∃ g, g = s.giveUp h := ⟨_, rfl⟩
  have hhalls : g.hall h = { s.hall h with wedged := true, tile := none } := by
    obtain ⟨l, hl⟩ := s.dropRecov_spec 1 h
    rw [hg, State.giveUp, State.hall, State.halls_record, State.halls_showSpares, hl]
    exact State.hall_modHall_same (s := { s with recov := { s.recov with running := l } }) hh _
  have hgw : g.isWedged .halls = false := by
    obtain ⟨l, hl⟩ := s.dropRecov_spec 1 h
    rw [← hsound, State.isWedged, State.isWedged, State.flag, State.flag, hg, State.giveUp, State.get_record _ _ (by simp [recordWords]),
      State.get_showSpares _ (by decide), hl]
    rfl
  have hbit : g.get Reg.HOST.INT_STATUS.degradation = 1 := by
    rw [hg]
    exact State.get_record_bit _ _
  rw [← hg]
  obtain ⟨h1, h2, h3, h4, -⟩ := State.wedge_shown hgw { kind := .wedged, cls := 1, unit := unitHall, inst := h }
  have hhall : (g.wedge .halls { kind := .wedged, cls := 1, unit := unitHall, inst := h }).hall h = g.hall h := by
    rw [State.hall, State.halls_wedge, State.hall]
  exact ⟨by rw [hhall, hhalls], by rw [hhall, hhalls], h1, h2, h3, h4, (g.get_wedge_notice _ _ (b := 1) (by decide)).trans hbit⟩

end

/-! ### Path pipelines -/

section

variable {s : State} {p k : Nat}

/-- The field of PIPE_MAP for a spare pipeline. -/
abbrev pipeField (k : Nat) : Fld := ⟨Reg.RECOVERY.PIPE_MAP.word.addr, 8 * k, 8⟩

theorem State.setPipe_eq (s : State) (hk : k < s.recov.pipes.length) (x : Spare) :
    s.setPipe k x = ({ s with recov := { s.recov with pipes := s.recov.pipes.set k x } } : State).put (pipeField k) (x.serves.getD 0xFF) := by
  unfold State.setPipe State.showPipe
  dsimp only
  rw [List.getD_eq_getElem _ _ (by rw [List.length_set]; exact hk), List.getElem_set_self]

theorem State.activeMask_congr {u : State} (h : ∀ c < 8, u.get (Reg.CARRIER.STATUS.state c) = s.get (Reg.CARRIER.STATUS.state c)) :
    u.activeMask = s.activeMask := by
  have hactive : u.activeCarriers = s.activeCarriers := by
    refine List.filter_congr fun c hc => ?_
    rw [State.carActive, State.carActive, State.running, State.running, State.carState, State.carState, h c (List.mem_range.1 hc)]
  rw [State.activeMask, State.activeMask, hactive]

theorem State.newRecov_congr {u : State} (hnow : u.now = s.now) (harray : u.arrayNow = s.arrayNow)
    (hget : ∀ g : Fld, g.addr ≠ Reg.RECOVERY.PIPE_MAP.word.addr → u.get g = s.get g) (cls unit inst action spare mask : Nat) :
    u.newRecov cls unit inst action spare mask = s.newRecov cls unit inst action spare mask := by
  have hmissed : u.missedOf mask = s.missedOf mask := by
    unfold State.missedOf
    congr 1
    exact List.map_congr_left fun c _ => hget _ (by dsimp only; omega)
  have hdegraded : u.degradedOf mask = s.degradedOf mask := by
    unfold State.degradedOf
    congr 1
    exact List.map_congr_left fun c _ => hget _ (by dsimp only; omega)
  rw [State.newRecov, State.newRecov, hmissed, hdegraded, hnow, harray]

theorem findIdx?_serves {l : List Spare} (h : ∀ x ∈ l, x.serves ≠ some p) : (l.findIdx? fun x => x.serves == some p) = none :=
  List.findIdx?_eq_none_iff.2 fun x hx => beq_eq_false_iff_ne.2 (h x hx)

/-- A free spare pipeline takes the path of a failed one (R541). -/
theorem State.pipeFault_spare_spec (hin : p ∉ s.recov.pathsOut) (hp : p < 256) (hnone : s.recovOf 2 p = none) (hserve : ∀ x ∈ s.recov.pipes, x.serves ≠ some p)
    (hk : (s.recov.pipes.findIdx? fun x => !x.retired && x.serves.isNone) = some k) (hk4 : k < 4) :
    (s.pipeFault p).recov.pipes = s.recov.pipes.set k { serves := some p, retired := false } ∧ (s.pipeFault p).get (pipeField k) = p ∧
      (s.pipeFault p).recov.pathsOut = s.recov.pathsOut ∧
      (s.pipeFault p).recov.running = s.recov.running ++ [{ s.newRecov 2 unitPath p 1 k s.activeMask with path := some p }] ∧
      (s.pipeFault p).log = s.log := by
  obtain ⟨hklt, -, -⟩ := List.findIdx?_eq_some_iff_getElem.1 hk
  obtain ⟨v, hv⟩ : ∃ v, v = s.setPipe k { serves := some p, retired := false } := ⟨_, rfl⟩
  have hveq := s.setPipe_eq hklt { serves := some p, retired := false }
  rw [← hv] at hveq
  have hvget (g : Fld) (hg : g.addr ≠ Reg.RECOVERY.PIPE_MAP.word.addr) : v.get g = s.get g := by
    rw [hveq]
    exact State.get_put_elsewhere (f := pipeField k) _ (by exact fun h => hg h.symm) _
  have hvof : v.recovOf 2 p = none := by
    rw [hveq]
    exact hnone
  have hmask : v.activeMask = s.activeMask := State.activeMask_congr fun c _ => hvget _ (by dsimp only; omega)
  have heq : s.pipeFault p = v.beginRecov { s.newRecov 2 unitPath p 1 k s.activeMask with path := some p } := by
    have hrestart : v.restartRecov { v.newRecov 2 unitPath p 1 k v.activeMask with path := some p } =
        v.beginRecov { s.newRecov 2 unitPath p 1 k s.activeMask with path := some p } := by
      rw [State.restartRecov_of_none hvof, hmask, State.newRecov_congr (s := s) (by rw [hveq]; rfl) (by rw [hveq]; rfl) hvget]
    rw [← hrestart, hv]
    refine (if_neg (by simpa using hin)).trans ?_
    rw [findIdx?_serves hserve]
    dsimp only
    rw [hk]
  rw [heq]
  refine ⟨?_, ?_, ?_, ?_, ?_⟩
  · rw [hveq]
    rfl
  · rw [State.get_beginRecov, hveq, State.get_put_same _ (by unfold Fld.fits; exact decide_eq_true (by dsimp only; omega))]
    exact Nat.mod_eq_of_lt hp
  · rw [hveq]
    rfl
  · rw [State.running_beginRecov, hveq]
    rfl
  · rw [hveq]
    rfl

/-- With no spare free, the path leaves service (R541). -/
theorem State.pipeFault_out_spec (hin : p ∉ s.recov.pathsOut) (hnone : s.recovOf 2 p = none) (hserve : ∀ x ∈ s.recov.pipes, x.serves ≠ some p)
    (hfull : ∀ x ∈ s.recov.pipes, x.retired = true ∨ x.serves ≠ none) :
    (s.pipeFault p).recov.pathsOut = s.recov.pathsOut ++ [p] ∧ (s.pipeFault p).newest = some (2, 0, unitPath, p) ∧
      (s.pipeFault p).get Reg.HOST.INT_STATUS.degradation = 1 ∧ (s.pipeFault p).recov.running = s.recov.running := by
  have hnofree : (s.recov.pipes.findIdx? fun x => !x.retired && x.serves.isNone) = none := by
    refine List.findIdx?_eq_none_iff.2 fun x hx => ?_
    rcases hfull x hx with h | h
    · rw [h]
      rfl
    · rw [Bool.and_eq_false_iff]
      exact .inr (by simpa [Option.isSome_iff_ne_none] using h)
  obtain ⟨w, hw⟩ : ∃ w : State, w = ({ s.showSpares with recov := { s.showSpares.recov with pathsOut := s.showSpares.recov.pathsOut ++ [p] } } : State).internalTxn
      [.pathOut p] := ⟨_, rfl⟩
  have heq : s.pipeFault p = w.record { kind := .degradation, unit := unitPath, inst := p } := by
    rw [hw]
    refine (if_neg (by simpa using hin)).trans ?_
    rw [findIdx?_serves hserve]
    dsimp only
    rw [hnofree]
    dsimp only
    rw [State.dropRecov_of_none hnone]
  have hwrecov : w.recov = { s.recov with pathsOut := s.recov.pathsOut ++ [p] } := by
    rw [hw]
    rfl
  rw [heq, State.recov_record, hwrecov, State.newest_record]
  exact ⟨rfl, rfl, State.get_record_bit _ _, rfl⟩

end

theorem findIdx?_of_full {l : List Alcove} (h : ∀ a ∈ l, a.retired = true ∨ a.serves ≠ none) :
    (l.findIdx? fun a => !a.retired && a.serves.isNone) = none := by
  refine List.findIdx?_eq_none_iff.2 fun x hx => ?_
  rcases h x hx with h | h
  · rw [h]
    rfl
  · rw [Bool.and_eq_false_iff]
    exact .inr (by simpa [Option.isSome_iff_ne_none] using h)

theorem State.hallFault_of_tile {s : State} {tile h : Nat} (hlt : tile < 136)
    (hfind : (List.range 136).find? (fun h => (s.hall h).tile == some tile) = some h) (mask : Nat) : s.hallFault tile mask = s.rehouse h mask := by
  refine (if_neg (by omega)).trans ?_
  rw [hfind]

theorem State.alcoves_modAlcove (s : State) (k : Nat) (f : Alcove → Alcove) : (s.modAlcove k f).alcoves = s.alcoves.modify k f := rfl

/-- The fault of an idle alcove is recorded at once (R540). -/
theorem State.hallFault_of_idle {s : State} {tile : Nat} (hge : 136 ≤ tile)
    (hidle : s.alcoves.getD (tile - 136) { serves := none, retired := true } = { serves := none, retired := false }) (mask : Nat) :
    s.hallFault tile mask = (s.modAlcove (tile - 136) fun _ => { serves := none, retired := true }).showSpares.record
      { kind := .fault, cls := 1, unit := unitHall, inst := tile, action := 3 } := by
  refine (if_pos hge).trans ?_
  rw [hidle]
  rfl

theorem recoverUnits : Claim.RecoverUnits := by
  rintro s t tile p carriers r rfl hhalls halcoves hpipes
  refine ⟨fun hge hret => ?_, fun hge hidle => ?_, fun hlt hno => ?_, fun h hlt hfind hnone => ⟨fun k hk => ?_, fun hfull => ⟨fun hpre hsound => ?_,
    fun v tv hpre hv hvlt htv => ?_⟩⟩, fun hout => ?_, fun hin hnone hserve => ⟨fun k hk => ?_, fun hfull => ?_⟩⟩
  · exact Gives.of_eq rfl ((if_pos hge).trans (if_pos hret))
  · refine ⟨_, Gives.of_eq rfl (State.hallFault_of_idle (s := s.atTime t) hge hidle (carriers % 256)), ?_, ?_, State.get_record_bit _ _, ?_⟩
    · rw [State.alcoves_record, State.alcoves_showSpares, List.set_eq_modify, State.alcoves_modAlcove, State.alcoves_atTime]
    · rw [State.newest_record]
      rfl
    · rw [State.halls_record, State.halls_showSpares]
      rfl
  · refine Gives.of_eq rfl ((if_neg (by omega)).trans ?_)
    have hnone : (List.range 136).find? (fun h => ((s.atTime t).hall h).tile == some tile.val) = none := by
      rw [List.find?_eq_none]
      intro h hh
      rw [beq_iff_eq]
      exact hno h (List.mem_range.1 hh)
    rw [hnone]
  · have h136 := List.mem_range.1 (List.mem_of_find?_eq_some hfind)
    exact ⟨_, Gives.of_eq rfl (State.hallFault_of_tile (s := s.atTime t) hlt hfind (carriers % 256)),
      State.rehouse_alcove_spec (s := s.atTime t) (lt_of_lt_of_eq h136 hhalls.symm) hnone hk⟩
  · have h136 := List.mem_range.1 (List.mem_of_find?_eq_some hfind)
    exact ⟨_, Gives.of_eq rfl (State.hallFault_of_tile (s := s.atTime t) hlt hfind (carriers % 256)),
      State.rehouse_wedged_spec (s := s.atTime t) (lt_of_lt_of_eq h136 hhalls.symm) (findIdx?_of_full hfull) hpre hsound⟩
  · have h136 := List.mem_range.1 (List.mem_of_find?_eq_some hfind)
    exact ⟨_, Gives.of_eq rfl (State.hallFault_of_tile (s := s.atTime t) hlt hfind (carriers % 256)),
      State.rehouse_victim_spec (s := s.atTime t) (lt_of_lt_of_eq h136 hhalls.symm) (findIdx?_of_full hfull) hpre hv
        (lt_of_lt_of_eq hvlt hhalls.symm) htv⟩
  · exact Gives.of_eq rfl (if_pos (by simpa using hout))
  · obtain ⟨hklt, -, -⟩ := List.findIdx?_eq_some_iff_getElem.1 hk
    exact ⟨_, Gives.of_eq rfl rfl, State.pipeFault_spare_spec (s := s.atTime t) hin (by omega) hnone hserve hk (by omega)⟩
  · exact ⟨_, Gives.of_eq rfl rfl, State.pipeFault_out_spec (s := s.atTime t) hin hnone hserve hfull⟩

/-! ### Replay in place, and the end of a recovery -/

section

variable {s : State} {f : Function} {cls unit mask inst : Nat}

theorem State.inPlace_of_wedged (h : s.isWedged f = true) : s.inPlace f cls unit mask = s := if_pos h

theorem State.inPlace_of_first (h : s.isWedged f = false) (hnone : s.recovOf cls 0 = none) :
    s.inPlace f cls unit mask = s.beginRecov (s.newRecov cls unit 0 2 0xFFFF mask) := by
  refine (if_neg (by rw [h]; exact Bool.false_ne_true)).trans ?_
  rw [hnone]

theorem State.inPlace_of_second (h : s.isWedged f = false) {x : Recov} (hx : s.recovOf cls 0 = some x) :
    s.inPlace f cls unit mask = (s.endRecov x).wedge f { kind := .wedged, cls := cls, unit := unit } := by
  refine (if_neg (by rw [h]; exact Bool.false_ne_true)).trans ?_
  rw [hx]

theorem State.recovOf_some {x : Recov} (h : s.recovOf cls inst = some x) : x.cls = cls ∧ x.inst = inst := by
  have := List.find?_some h
  rwa [Bool.and_eq_true, beq_iff_eq, beq_iff_eq] at this

theorem State.recovOf_endRecov {x : Recov} (h : x.cls = cls ∧ x.inst = inst) : (s.endRecov x).recovOf cls inst = none := by
  obtain ⟨rfl, rfl⟩ := h
  refine List.find?_eq_none.2 fun y hy => ?_
  have := (List.mem_filter.1 hy).2
  simpa [imp_iff_not_or] using this

/-- A completed recovery: its spare counts, its suppressed flits are counted, and the longest recovery is shown (R545). -/
def State.recovShown (s : State) (x : Recov) : State :=
  let v := (s.endRecov x).showSpares.when (x.cls == 1) fun u => u.addTo (Reg.HALL.SUPPRESSED.word x.inst) (u.hall x.inst).sent.length
  v.put Reg.RECOVERY.REPLAY_MAX.tenths (max (min 65535 ((v.now - x.at_) * 10000 / 3932160)) (v.get Reg.RECOVERY.REPLAY_MAX.tenths))

/-- The record of a completed recovery. -/
def State.recovRecord (s : State) (x : Recov) : Rec :=
  { kind := .fault, cls := x.cls, unit := x.unit, inst := x.inst, action := x.action, spare := x.spare, missed := s.missedOf x.mask - x.missed,
    degraded := s.degradedOf x.mask - x.degraded, detail := x.detail, tenths := min 65535 ((s.now - x.at_) * 10000 / 3932160), carriers := x.mask,
    since := some x.since }

theorem State.replayDone_of_some {x : Recov} (hx : s.recovOf cls inst = some x) :
    s.replayDone cls inst = ((s.recovShown x).record ((s.recovShown x).recovRecord x)).when x.degrades fun u => u.notice .degradation := by
  obtain ⟨rfl, rfl⟩ := State.recovOf_some hx
  unfold State.replayDone
  rw [hx]
  rfl

/-- What the end of a recovery shows (R545). -/
theorem State.replayDone_spec {x : Recov} (hx : s.recovOf cls inst = some x) (hmax : s.get Reg.RECOVERY.REPLAY_MAX.tenths < 65536) :
    (s.replayDone cls inst).recovOf cls inst = none ∧ (s.replayDone cls inst).newest = some (1, cls, x.unit, inst) ∧
      (s.replayDone cls inst).get Reg.HOST.INT_STATUS.fault = 1 ∧
      (x.degrades = true → (s.replayDone cls inst).get Reg.HOST.INT_STATUS.degradation = 1) ∧
      ((s.replayDone cls inst).log.head?.map fun y => y.carriers) = some x.mask ∧ (s.replayDone cls inst).mem = s.mem ∧
      (s.replayDone cls inst).get Reg.RECOVERY.REPLAY_MAX.tenths =
        max (min 65535 ((s.now - x.at_) * 10000 / 3932160)) (s.get Reg.RECOVERY.REPLAY_MAX.tenths) := by
  rw [State.replayDone_of_some hx]
  obtain ⟨hcls, hinst⟩ := State.recovOf_some hx
  obtain ⟨v, hv⟩ : ∃ v, v = (s.endRecov x).showSpares.when (x.cls == 1) fun u => u.addTo (Reg.HALL.SUPPRESSED.word x.inst) (u.hall x.inst).sent.length :=
    ⟨_, rfl⟩
  have hvkeep : v.now = s.now ∧ v.recov = (s.endRecov x).recov ∧ v.mem = s.mem ∧
      v.get Reg.RECOVERY.REPLAY_MAX.tenths = s.get Reg.RECOVERY.REPLAY_MAX.tenths := by
    have hbase : (s.endRecov x).showSpares.get Reg.RECOVERY.REPLAY_MAX.tenths = s.get Reg.RECOVERY.REPLAY_MAX.tenths := State.get_showSpares _ (by decide)
    rw [hv]
    refine State.when_spec (P := fun v : State => v.now = s.now ∧ v.recov = (s.endRecov x).recov ∧ v.mem = s.mem ∧
      v.get Reg.RECOVERY.REPLAY_MAX.tenths = s.get Reg.RECOVERY.REPLAY_MAX.tenths) (u := (s.endRecov x).showSpares)
        (f := fun u => u.addTo (Reg.HALL.SUPPRESSED.word x.inst) (u.hall x.inst).sent.length) ⟨rfl, rfl, rfl, hbase⟩ ⟨rfl, rfl, rfl, ?_⟩ _
    exact (State.get_put_elsewhere _ (by dsimp only; omega) _).trans hbase
  obtain ⟨hnow, hrecov, hmem, hget⟩ := hvkeep
  obtain ⟨w, hw⟩ : ∃ w, w = s.recovShown x := ⟨_, rfl⟩
  have hweq : w = v.put Reg.RECOVERY.REPLAY_MAX.tenths (max (min 65535 ((s.now - x.at_) * 10000 / 3932160)) (s.get Reg.RECOVERY.REPLAY_MAX.tenths)) := by
    rw [hw, State.recovShown, ← hv, hnow, hget]
  have hwrecov : w.recov = (s.endRecov x).recov := by
    rw [hweq]
    exact hrecov
  have hwmax : w.get Reg.RECOVERY.REPLAY_MAX.tenths = max (min 65535 ((s.now - x.at_) * 10000 / 3932160)) (s.get Reg.RECOVERY.REPLAY_MAX.tenths) := by
    rw [hweq, State.get_put_same _ rfl]
    exact Nat.mod_eq_of_lt (by dsimp only; omega)
  rw [← hw]
  obtain ⟨y, hy⟩ : ∃ y, y = w.record (w.recovRecord x) := ⟨_, rfl⟩
  have hyof : y.recovOf cls inst = none := by
    rw [State.recovOf, hy, State.recov_record, hwrecov]
    exact State.recovOf_endRecov ⟨hcls, hinst⟩
  have hynew : y.newest = some (1, cls, x.unit, inst) := by
    rw [hy, State.newest_record, ← hcls, ← hinst]
    rfl
  have hyfault : y.get Reg.HOST.INT_STATUS.fault = 1 := by
    rw [hy]
    exact State.get_record_bit _ _
  have hylog : (y.log.head?.map fun y => y.carriers) = some x.mask := by
    rw [hy, State.head_log_record]
    rfl
  have hymem : y.mem = s.mem := by
    rw [hy, State.mem_record, hweq]
    exact hmem
  have hymax : y.get Reg.RECOVERY.REPLAY_MAX.tenths = max (min 65535 ((s.now - x.at_) * 10000 / 3932160)) (s.get Reg.RECOVERY.REPLAY_MAX.tenths) := by
    rw [hy, State.get_record _ _ (by simp [recordWords]), hwmax]
  rw [← hy]
  cases x.degrades with
  | false => exact ⟨hyof, hynew, hyfault, nofun, hylog, hymem, hymax⟩
  | true =>
    exact ⟨hyof, hynew, (y.get_notice_apart .degradation (b := 0) (by decide)).trans hyfault, fun _ => y.get_notice_bit .degradation, hylog, hymem,
      (State.get_notice_other y .degradation (by decide)).trans hymax⟩

end

theorem recoverInPlace : Claim.RecoverInPlace := by
  rintro s t h carriers cls inst r rfl
  refine ⟨fun hw => ?_, fun hw => ?_, fun hw hnone => ?_, fun hw hnone => ?_, fun x hw hx => ?_, fun x hw hx => ?_, ?_, fun hw => ?_, fun hnone => ?_,
    fun x hx => ?_⟩
  · exact Gives.of_eq rfl (State.inPlace_of_wedged (s := s.atTime t) hw)
  · exact Gives.of_eq rfl (State.inPlace_of_wedged (s := s.atTime t) hw)
  · exact Gives.of_eq rfl (State.inPlace_of_first (s := s.atTime t) hw hnone)
  · exact Gives.of_eq rfl (State.inPlace_of_first (s := s.atTime t) hw hnone)
  · obtain ⟨h1, h2, h3, h4, h5⟩ := State.wedge_shown (s := (s.atTime t).endRecov x) (f := .beam) hw { kind := .wedged, cls := 3, unit := unitBeam }
    exact ⟨_, Gives.of_eq rfl (State.inPlace_of_second (s := s.atTime t) hw hx), h1, h2, h3, h4, h5⟩
  · obtain ⟨h1, h2, h3, h4, -⟩ := State.wedge_shown (s := (s.atTime t).endRecov x) (f := .atrium) hw { kind := .wedged, cls := 4, unit := unitAtrium }
    exact ⟨_, Gives.of_eq rfl (State.inPlace_of_second (s := s.atTime t) hw hx), h1, h2, h3, h4⟩
  · exact Gives.of_eq rfl (if_neg Bool.false_ne_true)
  · obtain ⟨v, hv⟩ : ∃ v : State, v = { s.atTime t with recov := { (s.atTime t).recov with hops := s.recov.hops + 1 } } := ⟨_, rfl⟩
    have hvw : v.isWedged .corridors = false := by
      rw [hv]
      exact hw
    obtain ⟨h1, -, h3, h4, -⟩ := State.wedge_shown hvw { kind := .wedged, cls := 0x0F, unit := unitCorridor, inst := h.val }
    refine ⟨v.wedge .corridors { kind := .wedged, cls := 0x0F, unit := unitCorridor, inst := h.val }, Gives.of_eq rfl ((if_pos rfl).trans (by rw [hv]; rfl)), ?_,
      h1, h3, h4⟩
    rw [State.recov_wedge, hv]
  · refine Gives.of_eq rfl ?_
    rw [State.replayDone, show (s.atTime t).recovOf cls inst = none from hnone]
  · exact ⟨_, Gives.of_eq rfl rfl, State.replayDone_spec (s := s.atTime t) hx (State.get_lt _ _)⟩

/-- Settles O54: each unit's fault by the spare, the replay in place or the wedge that it meets; REPLAY_DONE by the recovery it ends. -/
theorem recoveryOfUnits : Obligations.RecoveryOfUnits := ⟨recoverUnits, recoverInPlace⟩

end Sys2Proof.Machine
end

