-- ==== Sys2Proof/Proofs/PredistortionRounds.lean ====
section
/-!
Rounds, fits and verifications of the pre-distortion (R208, R209, R216, R221 to R228).
-/

namespace Sys2Proof.Machine

open Sys2Proof

/-! ### Rounds -/

section

variable {s : State} {g : Nat}

theorem State.obsGroup_dpdNewRound (hg : g < s.obs.length) :
    (s.dpdNewRound g).obsGroup g = { s.obsGroup g with used := [], roundStart := s.obsPeriodNow g, idle := s.dpdFrozen g } :=
  State.obsGroup_modObsGroup_same hg _

theorem State.dpdNewRound_again : (s.dpdNewRound g).dpdNewRound g = s.dpdNewRound g := by
  have hobs : (s.obs.modify g fun y => { y with used := [], roundStart := s.obsPeriodNow g, idle := s.dpdFrozen g }).modify g
      (fun y => { y with used := [], roundStart := s.obsPeriodNow g, idle := s.dpdFrozen g }) =
        s.obs.modify g fun y => { y with used := [], roundStart := s.obsPeriodNow g, idle := s.dpdFrozen g } := by
    rw [List.modify_modify_eq]
    rfl
  exact congrArg (fun l => { s with obs := l }) hobs

/-- Nothing holds back the fit of a round (R221, R224, R225, R228). -/
def State.dpdMayFit (s : State) (g : Nat) : Prop :=
  s.dpdGoverns g ≠ dpdOff ∧ s.dpdPending g = false ∧ s.flag (Reg.GROUP.DPD_STATUS.fitting g) = false ∧
    s.get (Reg.GROUP.DPD_STATUS.staged_mask g) = 0 ∧ s.dpdFrozen g = false ∧ s.obsPlace g ≠ none

theorem State.dpdRoundEnd_of_held (h : ¬ s.dpdMayFit g) : s.dpdRoundEnd g = s := by
  refine if_pos (by_contra fun hno => h ?_)
  simp only [Bool.or_eq_true, beq_iff_eq, bne_iff_ne, not_or, Option.isNone_iff_eq_none, Bool.not_eq_true, ne_eq, not_not] at hno
  obtain ⟨⟨⟨h1, ⟨h2, h3⟩, h4⟩, h5⟩, h6⟩ := hno
  exact ⟨h1, h2, h3, h4, h5, h6⟩

theorem State.dpdRoundEnd_of_free (h : s.dpdMayFit g) :
    s.dpdRoundEnd g = if !(s.dpdThaw g).dpdRoundOver g then s.dpdThaw g
      else if ((s.dpdThaw g).obsGroup g).used.isEmpty then (s.dpdThaw g).dpdNewRound g
      else (((s.dpdThaw g).modObsGroup g fun y => { y with fit := y.used.eraseDups, abandoned := false }).put (Reg.GROUP.DPD_STATUS.fitting g) 1).dpdNewRound
        g := by
  obtain ⟨h1, h2, h3, h4, h5, h6⟩ := h
  refine if_neg ?_
  simp only [Bool.or_eq_true, beq_iff_eq, bne_iff_ne, not_or, Option.isNone_iff_eq_none, Bool.not_eq_true, ne_eq, not_not]
  exact ⟨⟨⟨h1, ⟨h2, h3⟩, h4⟩, h5⟩, h6⟩

/-- A round that a freeze has held back begins (R228). -/
theorem State.dpdRoundEnd_of_idle (hg : g < s.obs.length) (h : s.dpdMayFit g) (hidle : (s.obsGroup g).idle = true) :
    s.dpdRoundEnd g = s.dpdNewRound g := by
  have hthaw : s.dpdThaw g = s.dpdNewRound g := if_pos (by rw [hidle, h.2.2.2.2.1]; rfl)
  have hused : ((s.dpdNewRound g).obsGroup g).used = [] := by rw [State.obsGroup_dpdNewRound hg]
  rw [State.dpdRoundEnd_of_free h, hthaw, hused, State.dpdNewRound_again]
  split <;> rfl

theorem State.dpdThaw_of_round (hidle : (s.obsGroup g).idle = false) : s.dpdThaw g = s := if_neg (by rw [hidle]; exact Bool.false_ne_true)

/-- The fit of a round that is over starts, or the next round (R221). -/
theorem State.dpdRoundEnd_of_over (hg : g < s.obs.length) (h : s.dpdMayFit g) (hidle : (s.obsGroup g).idle = false) (hover : s.dpdRoundOver g = true) :
    ((s.dpdRoundEnd g).obsGroup g).used = [] ∧ ((s.dpdRoundEnd g).obsGroup g).roundStart = s.obsPeriodNow g ∧
      ((s.obsGroup g).used = [] → (s.dpdRoundEnd g).flag (Reg.GROUP.DPD_STATUS.fitting g) = false) ∧
      ((s.obsGroup g).used ≠ [] → (s.dpdRoundEnd g).flag (Reg.GROUP.DPD_STATUS.fitting g) = true ∧
        ((s.dpdRoundEnd g).obsGroup g).fit = (s.obsGroup g).used.eraseDups) ∧ (s.dpdRoundEnd g).mem = s.mem := by
  have heq := State.dpdRoundEnd_of_free h
  rw [State.dpdThaw_of_round hidle, hover] at heq
  by_cases hused : (s.obsGroup g).used = []
  · have heq' : s.dpdRoundEnd g = s.dpdNewRound g := heq.trans (by rw [hused]; rfl)
    rw [heq', State.obsGroup_dpdNewRound hg]
    exact ⟨rfl, rfl, fun _ => h.2.2.1, fun hne => absurd hused hne, rfl⟩
  · obtain ⟨v, hv⟩ : ∃ v, v = (s.modObsGroup g fun y => { y with fit := y.used.eraseDups, abandoned := false }).put (Reg.GROUP.DPD_STATUS.fitting g) 1 :=
      ⟨_, rfl⟩
    have heq' : s.dpdRoundEnd g = v.dpdNewRound g := by
      rw [heq, hv]
      exact (if_neg (by decide)).trans (if_neg (by simpa using hused))
    have hvlen : g < v.obs.length := by
      rw [hv]
      exact lt_of_lt_of_eq hg (List.length_modify ..).symm
    have hvgroup : v.obsGroup g = { s.obsGroup g with fit := (s.obsGroup g).used.eraseDups, abandoned := false } := by
      rw [hv]
      exact State.obsGroup_modObsGroup_same hg _
    have hvperiod : v.obsPeriodNow g = s.obsPeriodNow g := by
      have hget : v.get (Reg.GROUP.OBS_SCHED.period g) = s.get (Reg.GROUP.OBS_SCHED.period g) := by
        rw [hv]
        exact State.get_put_elsewhere _ (by dsimp only; omega) _
      rw [State.obsPeriodNow, State.obsPeriod, hget, hv]
      rfl
    have hvfit : v.flag (Reg.GROUP.DPD_STATUS.fitting g) = true := by
      rw [State.flag_iff, hv, State.get_put_same _ rfl]
      exact Nat.one_ne_zero
    rw [heq', State.obsGroup_dpdNewRound hvlen, hvgroup, hvperiod]
    refine ⟨rfl, rfl, fun h => absurd h hused, fun _ => ⟨hvfit, rfl⟩, ?_⟩
    show v.mem = s.mem
    rw [hv]
    rfl

/-- The end of a verification (R223). -/
theorem State.dpdVerifyEnd_of_over (hg : g < s.obs.length) (hver : s.flag (Reg.GROUP.DPD_STATUS.verifying g) = true)
    (hover : (s.obsGroup g).verify = [] ∨ (s.obsGroup g).verifyEnd ≤ s.obsPeriodNow g) :
    (s.dpdVerifyEnd g).flag (Reg.GROUP.DPD_STATUS.verifying g) = false ∧ ((s.dpdVerifyEnd g).obsGroup g).verify = [] ∧
      ((s.obsGroup g).committing = false → (s.obsGroup g).returning = false → (s.dpdVerifyEnd g).dpdGoverns g = s.dpdMode g) ∧
      SameWords s (s.dpdVerifyEnd g) [(Reg.GROUP.DPD_STATUS.word g).addr] := by
  obtain ⟨v, hv⟩ : ∃ v, v = (s.put (Reg.GROUP.DPD_STATUS.verifying g) 0).modObsGroup g fun y => { y with commit := [], verify := [] } := ⟨_, rfl⟩
  have heq : s.dpdVerifyEnd g = v.dpdGovern g := by
    rw [hv]
    refine if_pos ?_
    rw [hver, State.dpdVerifyLate, Bool.true_and, Bool.or_eq_true, List.isEmpty_iff, decide_eq_true_eq]
    exact hover
  have hvgroup : v.obsGroup g = { s.obsGroup g with commit := [], verify := [] } := by
    rw [hv]
    exact State.obsGroup_modObsGroup_same hg _
  have hvlen : g < v.obs.length := by
    rw [hv]
    exact lt_of_lt_of_eq hg (List.length_modify ..).symm
  have hvflag : v.flag (Reg.GROUP.DPD_STATUS.verifying g) = false := by
    rw [hv]
    exact State.flag_eq_false (s.get_put_same rfl 0)
  have hvwords : SameOff (· ∈ [(Reg.GROUP.DPD_STATUS.word g).addr]) s v := by
    rw [hv]
    exact ((SameOff.refl s).put (f := Reg.GROUP.DPD_STATUS.verifying g) (by simp) 0).trans (.of_regs rfl)
  rw [heq]
  cases hpend : v.dpdPending g with
  | true =>
    rw [State.dpdGovern_of_pending hpend, hvgroup]
    refine ⟨hvflag, rfl, fun h1 h2 => ?_, hvwords⟩
    rw [State.dpdPending, hvflag, hvgroup, h1, h2] at hpend
    cases hpend
  | false =>
    rw [State.dpdGovern_of_free hpend]
    have hgroup := State.obsGroup_modObsGroup_same hvlen fun y => { y with mode := v.dpdMode g }
    refine ⟨hvflag, by rw [hgroup, hvgroup], fun _ _ => ?_, hvwords.trans (.of_regs rfl)⟩
    rw [State.dpdGoverns, hgroup]
    exact hvwords.get (f := Reg.GROUP.DPD_ADAPT.mode g) (by simp)

end

theorem dpdRounds : Claim.DpdRounds := by
  intro s t g hlen
  have hg : g.val < s.obs.length := by omega
  refine ⟨fun hno => ?_, fun h1 h2 h3 h4 h5 h6 => ⟨fun hidle => ⟨?_, ?_⟩, fun hidle hover => ?_, fun hidle hover => ?_⟩, fun hver => ⟨fun hover => ?_, fun hne hearly => ?_⟩,
    fun hver => ?_⟩
  · refine Gives.of_eq rfl (State.dpdRoundEnd_of_held (s := s.atTime t) fun h => ?_)
    obtain ⟨h1, h2, h3, h4, h5, h6⟩ := h
    rcases hno with h | h | h | h | h | h
    · exact h1 h
    · exact Bool.false_ne_true (h2.symm.trans h)
    · exact Bool.false_ne_true (h3.symm.trans h)
    · exact h h4
    · exact Bool.false_ne_true (h5.symm.trans h)
    · exact h6 h
  · exact Gives.of_eq rfl (State.dpdRoundEnd_of_idle (s := s.atTime t) hg ⟨h1, h2, h3, h4, h5, h6⟩ hidle)
  · rw [State.obsGroup_dpdNewRound (s := s.atTime t) hg]
    exact h5
  · refine Gives.of_eq rfl ((State.dpdRoundEnd_of_free (s := s.atTime t) (g := g.val) ⟨h1, h2, h3, h4, h5, h6⟩).trans ?_)
    rw [State.dpdThaw_of_round (s := s.atTime t) hidle, hover]
    rfl
  · exact ⟨_, Gives.of_eq rfl rfl, State.dpdRoundEnd_of_over (s := s.atTime t) hg ⟨h1, h2, h3, h4, h5, h6⟩ hidle hover⟩
  · exact ⟨_, Gives.of_eq rfl rfl, State.dpdVerifyEnd_of_over (s := s.atTime t) hg hver hover⟩
  · refine Gives.of_eq rfl (if_neg ?_)
    rw [Bool.and_eq_true, Bool.or_eq_true, List.isEmpty_iff, State.dpdVerifyLate, decide_eq_true_eq]
    rintro ⟨-, h | h⟩
    · exact hne h
    · exact absurd h (not_le.2 hearly)
  · refine Gives.of_eq rfl (if_neg ?_)
    rw [show (s.atTime t).flag (Reg.GROUP.DPD_STATUS.verifying g.val) = false from hver, Bool.false_and]
    exact Bool.false_ne_true


/-! ### Fits -/

/-- The registers of the pipelines of the paths. -/
def pipeWords (a : Nat) : Prop := 0x180000 ≤ a ∧ a < 0x1C0000

/-- The second state differs from the first at most in memory and in what the pipelines show beside their banks in force. -/
structure TablesOnly (s u : State) : Prop where
  words : SameOff pipeWords s u
  bank : ∀ q, u.get (Reg.PIPE.DPD_STATUS.bank_in_force q) = s.get (Reg.PIPE.DPD_STATUS.bank_in_force q)
  last : ∀ q, u.get (Reg.PIPE.DPD_NMSE.nmse_last q) = s.get (Reg.PIPE.DPD_NMSE.nmse_last q)
  txn : u.txn = s.txn
  obs : u.obs = s.obs
  image : u.image = s.image

section

variable {s u v : State}

theorem TablesOnly.refl (s : State) : TablesOnly s s := ⟨.refl s, fun _ => rfl, fun _ => rfl, rfl, rfl, rfl⟩

theorem TablesOnly.trans (hsu : TablesOnly s u) (huv : TablesOnly u v) : TablesOnly s v :=
  ⟨hsu.words.trans huv.words, fun q => (huv.bank q).trans (hsu.bank q), fun q => (huv.last q).trans (hsu.last q), huv.txn.trans hsu.txn,
    huv.obs.trans hsu.obs, huv.image.trans hsu.image⟩

/-- The tables of one path are written, and the figure of its fit is kept (R205, R222). -/
def State.tablesDone (s : State) (tables : List (Nat × List Byte)) (p : Nat) : State :=
  (s.writeTables p ((assoc? tables p).getD [])).put (Reg.PIPE.DPD_NMSE.nmse_commit p)
    ((s.writeTables p ((assoc? tables p).getD [])).get (Reg.PIPE.DPD_NMSE.nmse_last p))

theorem tablesOnly_writeTables (s : State) {p : Nat} (hp : p < 64) (bytes : List Byte) : TablesOnly s (s.writeTables p bytes) := by
  unfold State.writeTables
  dsimp only
  split
  · refine ⟨(SameOff.refl s).put (f := Reg.PIPE.DPD_STATUS.write_lost p) ⟨by dsimp only; omega, by dsimp only; omega⟩ 1, fun q => ?_, fun q => ?_, rfl,
      rfl, rfl⟩
    · exact State.get_put_apart s rfl (Fld.apart_of_lo fun _ => .inl (by dsimp only; omega)) _
    · exact State.get_put_elsewhere s (by dsimp only; omega) _
  · exact ⟨.of_regs rfl, fun _ => rfl, fun _ => rfl, rfl, rfl, rfl⟩

theorem tablesOnly_tablesDone (s : State) (tables : List (Nat × List Byte)) {p : Nat} (hp : p < 64) : TablesOnly s (s.tablesDone tables p) := by
  have hw := tablesOnly_writeTables s hp ((assoc? tables p).getD [])
  unfold State.tablesDone
  generalize s.writeTables p ((assoc? tables p).getD []) = x at hw ⊢
  refine hw.trans ⟨(SameOff.refl x).put (f := Reg.PIPE.DPD_NMSE.nmse_commit p) ⟨by dsimp only; omega, by dsimp only; omega⟩ _, fun q => ?_, fun q => ?_, rfl,
    rfl, rfl⟩
  · exact State.get_put_elsewhere x (by dsimp only; omega) _
  · exact State.get_put_apart x rfl (Fld.apart_of_lo fun _ => .inr (by dsimp only; omega)) _

theorem State.nmse_tablesDone (s : State) (tables : List (Nat × List Byte)) {p : Nat} (hp : p < 64) :
    (s.tablesDone tables p).get (Reg.PIPE.DPD_NMSE.nmse_commit p) = s.get (Reg.PIPE.DPD_NMSE.nmse_last p) := by
  rw [State.tablesDone, State.get_put_same _ rfl, (tablesOnly_writeTables s hp _).last]
  exact Nat.mod_eq_of_lt (s.get_lt _)

theorem State.nmse_tablesDone_other (s : State) (tables : List (Nat × List Byte)) {p q : Nat} (hq : q ≠ p) :
    (s.tablesDone tables p).get (Reg.PIPE.DPD_NMSE.nmse_commit q) = s.get (Reg.PIPE.DPD_NMSE.nmse_commit q) := by
  have hw : (s.writeTables p ((assoc? tables p).getD [])).get (Reg.PIPE.DPD_NMSE.nmse_commit q) = s.get (Reg.PIPE.DPD_NMSE.nmse_commit q) := by
    unfold State.writeTables
    dsimp only
    split
    · exact State.get_put_elsewhere s (by dsimp only; omega) _
    · rfl
  rw [State.tablesDone, State.get_put_elsewhere _ (by dsimp only; omega), hw]

/-- The fit's tables are written, path by path. -/
theorem tablesWritten_spec (s : State) (tables : List (Nat × List Byte)) {l : List Nat} (hl : ∀ p ∈ l, p < 64) :
    TablesOnly s (s.forEach l fun p s => s.tablesDone tables p) ∧ ∀ p ∈ l,
      (s.forEach l fun p s => s.tablesDone tables p).get (Reg.PIPE.DPD_NMSE.nmse_commit p) = s.get (Reg.PIPE.DPD_NMSE.nmse_last p) := by
  induction l generalizing s with
  | nil => exact ⟨.refl s, fun p hp => by cases hp⟩
  | cons a l ih =>
    have ha := hl a List.mem_cons_self
    have hstep := tablesOnly_tablesDone s tables ha
    obtain ⟨h1, h2⟩ := ih (s.tablesDone tables a) fun p hp => hl p (List.mem_cons_of_mem a hp)
    refine ⟨hstep.trans h1, fun p hp => ?_⟩
    by_cases hpl : p ∈ l
    · exact (h2 p hpl).trans (hstep.last p)
    · obtain rfl : p = a := (List.mem_cons.1 hp).resolve_right hpl
      have hkeep : ∀ x : State, (x.forEach l fun p s => s.tablesDone tables p).get (Reg.PIPE.DPD_NMSE.nmse_commit p) = x.get (Reg.PIPE.DPD_NMSE.nmse_commit p) :=
        fun x => State.forEach_induct (P := fun y => y.get (Reg.PIPE.DPD_NMSE.nmse_commit p) = x.get (Reg.PIPE.DPD_NMSE.nmse_commit p)) rfl fun b hb y hy =>
          (State.nmse_tablesDone_other y tables fun h => hpl (by rw [h]; exact hb)).trans hy
      exact (hkeep (s.tablesDone tables p)).trans (s.nmse_tablesDone tables ha)

end

section

variable {s : State} {g : Nat}

/-- A fit ends. -/
def State.fitEnded (s : State) (g : Nat) : State :=
  (s.put (Reg.GROUP.DPD_STATUS.fitting g) 0).modObsGroup g fun y => { y with fit := [], abandoned := false }

theorem State.dpdFitDone_eq (hfit : s.flag (Reg.GROUP.DPD_STATUS.fitting g) = true) (tables : List (Nat × List Byte)) {v : State}
    (hv : v = (s.fitEnded g).forEach (s.obsGroup g).fit fun p s => s.tablesDone tables p) :
    s.dpdFitDone g tables = if (s.obsGroup g).abandoned || ((s.fitEnded g).obsPlace g).isNone then s.fitEnded g
      else if v.dpdFrozen g && v.dpdGoverns g == dpdAuto then v.dpdNewRound g else v.dpdOffer g (s.obsGroup g).fit := by
  rw [hv]
  exact if_neg (by rw [hfit]; decide)

theorem State.obsPlace_fitEnded : (s.fitEnded g).obsPlace g = s.obsPlace g :=
  State.obsPlace_congr (u := s.put (Reg.GROUP.DPD_STATUS.fitting g) 0) ⟨_, rfl⟩ fun k _ => State.get_put_elsewhere s (by dsimp only; omega) _

theorem State.dpdFrozen_congr {u : State} (hg : g < 8) (himage : u.image = s.image) (h1 : u.get (Reg.GROUP.OBS_STATUS.suspect g) = s.get (Reg.GROUP.OBS_STATUS.suspect g))
    (h2 : u.get Reg.POWER.STATUS.level = s.get Reg.POWER.STATUS.level)
    (h3 : ∀ b < 2, u.get (Reg.CLOCK.LO_STATUS.state b) = s.get (Reg.CLOCK.LO_STATUS.state b))
    (h4 : ∀ b < 2, u.get (Reg.CLOCK.LO_STATUS.crossfed b) = s.get (Reg.CLOCK.LO_STATUS.crossfed b)) : u.dpdFrozen g = s.dpdFrozen g := by
  have hshed : u.shedding shedAdapt = s.shedding shedAdapt := by
    unfold State.shedding State.shedEntry State.sectionBytes State.section?
    rw [h2, himage]
  rw [State.dpdFrozen, State.dpdFrozen, State.shedBit, hshed, State.shedBit, State.flag, State.flag, h1, State.loDelivers, State.loDelivers, State.loState,
    State.loState, State.loState, State.loState, State.crossfed, State.crossfed, State.flag, State.flag, h3 _ (by omega), h3 _ (by omega), h4 _ (by omega)]

/-- A group whose fit has ended, with the tables of the fit in the idle banks. -/
def State.fitWritten (s : State) (g : Nat) (tables : List (Nat × List Byte)) : State :=
  (s.fitEnded g).forEach (s.obsGroup g).fit fun p s => s.tablesDone tables p

/-- What the end of a fit leaves, whatever becomes of its tables. -/
structure FitDone (s u : State) (g : Nat) : Prop where
  fitting : u.flag (Reg.GROUP.DPD_STATUS.fitting g) = false
  fit : (u.obsGroup g).fit = []
  nmse : ∀ p ∈ (s.obsGroup g).fit, u.get (Reg.PIPE.DPD_NMSE.nmse_commit p) = s.get (Reg.PIPE.DPD_NMSE.nmse_last p)

theorem State.fitEnded_spec (hg : g < s.obs.length) : (s.fitEnded g).flag (Reg.GROUP.DPD_STATUS.fitting g) = false ∧
    (s.fitEnded g).obsGroup g = { s.obsGroup g with fit := [], abandoned := false } :=
  ⟨State.flag_eq_false (s.get_put_same rfl 0), State.obsGroup_modObsGroup_same hg _⟩

/-- What is known of a group when the tables of its fit are written. -/
theorem State.fitWritten_spec (hg : g < s.obs.length) (h8 : g < 8) (tables : List (Nat × List Byte)) (hl : ∀ p ∈ (s.obsGroup g).fit, p / 8 = g) :
    FitDone s (s.fitWritten g tables) g ∧ (s.fitWritten g tables).obsGroup g = { s.obsGroup g with fit := [], abandoned := false } ∧
      g < (s.fitWritten g tables).obs.length ∧ (s.fitWritten g tables).txn = s.txn ∧ (s.fitWritten g tables).dpdFrozen g = s.dpdFrozen g ∧
      (s.fitWritten g tables).internalPrepares = s.internalPrepares ∧
      ∀ q, (s.fitWritten g tables).get (Reg.PIPE.DPD_STATUS.bank_in_force q) = s.get (Reg.PIPE.DPD_STATUS.bank_in_force q) := by
  obtain ⟨hflag, hgroup⟩ := State.fitEnded_spec hg
  obtain ⟨honly, hnmse⟩ := tablesWritten_spec (s.fitEnded g) tables (l := (s.obsGroup g).fit) fun p hp => by
    have := hl p hp
    omega
  rw [← State.fitWritten] at honly hnmse
  have hend {f : Fld} (hf : f.addr ≠ (Reg.GROUP.DPD_STATUS.word g).addr) : (s.fitEnded g).get f = s.get f :=
    State.get_put_elsewhere (f := Reg.GROUP.DPD_STATUS.fitting g) s (by exact fun h => hf h.symm) 0
  have hget {f : Fld} (hf : f.addr ≠ (Reg.GROUP.DPD_STATUS.word g).addr) (hpipe : ¬ pipeWords f.addr) : (s.fitWritten g tables).get f = s.get f :=
    (honly.words.get hpipe).trans (hend hf)
  have hbank (q : Nat) : (s.fitEnded g).get (Reg.PIPE.DPD_STATUS.bank_in_force q) = s.get (Reg.PIPE.DPD_STATUS.bank_in_force q) := by
    refine hend ?_
    dsimp only
    omega
  have hg' : (s.fitWritten g tables).obsGroup g = { s.obsGroup g with fit := [], abandoned := false } := by
    rw [State.obsGroup, honly.obs, ← State.obsGroup, hgroup]
  refine ⟨⟨?_, ?_, fun p hp => ?_⟩, hg', ?_, ?_, ?_, ?_, fun q => (honly.bank q).trans (hbank q)⟩
  · have h := honly.words.get (f := Reg.GROUP.DPD_STATUS.fitting g) (by unfold pipeWords; dsimp only; omega)
    rw [State.flag, h, ← State.flag, hflag]
  · rw [hg']
  · exact (hnmse p hp).trans (hend (by dsimp only; omega))
  · rw [honly.obs]
    exact lt_of_lt_of_eq hg (List.length_modify ..).symm
  · rw [honly.txn]
    rfl
  · exact State.dpdFrozen_congr h8 honly.image (hget (by dsimp only; omega) (by unfold pipeWords; dsimp only; omega))
      (hget (by dsimp only; omega) (by unfold pipeWords; decide)) (fun b hb => hget (by dsimp only; omega) (by unfold pipeWords; dsimp only; omega))
      fun b hb => hget (by dsimp only; omega) (by unfold pipeWords; dsimp only; omega)
  · have hpower : (s.fitWritten g tables).power = s.power := hget (f := Reg.POWER.STATUS.state) (by dsimp only; omega) (by unfold pipeWords; decide)
    rw [State.internalPrepares, State.away, hpower, honly.image]
    rfl

end

section

variable {s : State} {g : Nat}

theorem FitDone.congr {v u : State} (h : FitDone s v g) (hfitting : u.get (Reg.GROUP.DPD_STATUS.fitting g) = v.get (Reg.GROUP.DPD_STATUS.fitting g))
    (hfit : (u.obsGroup g).fit = (v.obsGroup g).fit)
    (hnmse : ∀ p, u.get (Reg.PIPE.DPD_NMSE.nmse_commit p) = v.get (Reg.PIPE.DPD_NMSE.nmse_commit p)) : FitDone s u g :=
  ⟨by rw [State.flag, hfitting, ← State.flag, h.fitting], hfit.trans h.fit, fun p hp => (hnmse p).trans (h.nmse p hp)⟩

/-- A fit whose tables are void, or have no place any more, ends without them (R209, R216). -/
theorem State.dpdFitDone_of_void (hfit : s.flag (Reg.GROUP.DPD_STATUS.fitting g) = true)
    (h : (s.obsGroup g).abandoned = true ∨ s.obsPlace g = none) (tables : List (Nat × List Byte)) : s.dpdFitDone g tables = s.fitEnded g := by
  rw [State.dpdFitDone_eq hfit tables rfl, State.obsPlace_fitEnded]
  refine if_pos ?_
  rw [Bool.or_eq_true, Option.isNone_iff_eq_none]
  exact h

theorem State.dpdFitDone_of_written (hg : g < s.obs.length) (h8 : g < 8) (hfit : s.flag (Reg.GROUP.DPD_STATUS.fitting g) = true)
    (hsound : (s.obsGroup g).abandoned = false) (hplace : s.obsPlace g ≠ none) (tables : List (Nat × List Byte))
    (hl : ∀ p ∈ (s.obsGroup g).fit, p / 8 = g) :
    s.dpdFitDone g tables = if s.dpdFrozen g && s.dpdGoverns g == dpdAuto then (s.fitWritten g tables).dpdNewRound g
      else (s.fitWritten g tables).dpdOffer g (s.obsGroup g).fit := by
  obtain ⟨-, hgroup, -, -, hfrozen, -, -⟩ := State.fitWritten_spec hg h8 tables hl
  have hgov : (s.fitWritten g tables).dpdGoverns g = s.dpdGoverns g := by rw [State.dpdGoverns, hgroup, State.dpdGoverns]
  rw [State.dpdFitDone_eq hfit tables rfl, State.obsPlace_fitEnded, ← State.fitWritten, hfrozen, hgov]
  refine if_neg ?_
  rw [hsound, Bool.false_or, Option.isNone_iff_eq_none]
  exact hplace

/-- The round of a fit that commits nothing is over: the next begins. -/
theorem fitDone_newRound {v : State} (h : FitDone s v g) (hg : g < v.obs.length) :
    FitDone s (v.dpdNewRound g) g ∧ ((v.dpdNewRound g).obsGroup g).used = [] ∧ (v.dpdNewRound g).txn = v.txn := by
  refine ⟨h.congr rfl ?_ fun _ => rfl, ?_, rfl⟩
  · rw [State.obsGroup_dpdNewRound hg]
  · rw [State.obsGroup_dpdNewRound hg]

/-- Tables of AUTO that no transaction commits are discarded (R222). -/
theorem fitDone_discarded {v : State} (h : FitDone s v g) (hg : g < v.obs.length) {fit : List Nat} (hauto : v.dpdGoverns g = dpdAuto)
    (hprep : v.internalPrepares = false) :
    FitDone s (v.dpdOffer g fit) g ∧ (v.dpdOffer g fit).txn = v.txn ∧ (v.dpdOffer g fit).get (Reg.GROUP.DPD_STATUS.round_discarded g) = 1 ∧
      ((v.dpdOffer g fit).obsGroup g).used = [] := by
  have heq : v.dpdOffer g fit = (v.put (Reg.GROUP.DPD_STATUS.round_discarded g) 1).dpdNewRound g :=
    (if_pos (beq_iff_eq.2 hauto)).trans (if_neg (by rw [hprep]; exact Bool.false_ne_true))
  have hput : FitDone s (v.put (Reg.GROUP.DPD_STATUS.round_discarded g) 1) g :=
    h.congr (State.get_put_apart v rfl (Fld.apart_of_lo fun _ => .inl (by dsimp only; omega)) _) rfl
      fun p => State.get_put_elsewhere v (by dsimp only; omega) _
  obtain ⟨h1, h2, h3⟩ := fitDone_newRound hput hg
  rw [heq]
  exact ⟨h1, h3, v.get_put_same rfl 1, h2⟩

/-- One internal transaction switches the banks of AUTO's tables (R222). -/
theorem fitDone_committed {v : State} (h : FitDone s v g) (hg : g < v.obs.length) {fit : List Nat} (hauto : v.dpdGoverns g = dpdAuto)
    (hprep : v.internalPrepares = true) :
    FitDone s (v.dpdOffer g fit) g ∧ ((v.dpdOffer g fit).obsGroup g).committing = true ∧ ((v.dpdOffer g fit).obsGroup g).commit = fit ∧
      ∃ c ∈ (v.dpdOffer g fit).txn.commits, c.decided = true ∧ c.slot = none ∧
        c.effects = (fit.map fun p => Effect.dpdBank p (1 - v.get (Reg.PIPE.DPD_STATUS.bank_in_force p))) ++ [.dpdRound g] := by
  obtain ⟨w, hw⟩ : ∃ w, w = v.modObsGroup g fun y => { y with commit := fit, committing := true } := ⟨_, rfl⟩
  have hwgroup : w.obsGroup g = { v.obsGroup g with commit := fit, committing := true } := by
    rw [hw]
    exact State.obsGroup_modObsGroup_same hg _
  have heq : v.dpdOffer g fit = w.internalTxn ((fit.map fun p => .dpdBank p (1 - v.get (Reg.PIPE.DPD_STATUS.bank_in_force p))) ++ [.dpdRound g]) := by
    rw [hw]
    exact (if_pos (beq_iff_eq.2 hauto)).trans (if_pos hprep)
  have hwdone : FitDone s w g := h.congr (by rw [hw]; rfl) (by rw [hwgroup]) fun _ => by rw [hw]; rfl
  rw [heq]
  obtain ⟨e, he⟩ : ∃ e, e = (fit.map fun p => Effect.dpdBank p (1 - v.get (Reg.PIPE.DPD_STATUS.bank_in_force p))) ++ [.dpdRound g] := ⟨_, rfl⟩
  rw [← he]
  have hgroup : (w.internalTxn e).obsGroup g = w.obsGroup g := rfl
  refine ⟨hwdone.congr rfl rfl fun _ => rfl, by rw [hgroup, hwgroup], by rw [hgroup, hwgroup], _, mem_insertCommit _ _, rfl, rfl, rfl⟩

/-- STAGE offers the tables to the host (R225). -/
theorem fitDone_staged {v : State} (h : FitDone s v g) {fit : List Nat} (hauto : v.dpdGoverns g ≠ dpdAuto) :
    FitDone s (v.dpdOffer g fit) g ∧ (v.dpdOffer g fit).flag (Reg.GROUP.DPD_STATUS.staged g) = true ∧ (v.dpdOffer g fit).txn = v.txn ∧
      (v.dpdOffer g fit).get (Reg.GROUP.DPD_STATUS.staged_mask g) = sumNat (fit.map fun p => 2 ^ (p % 8)) % 256 := by
  have heq : v.dpdOffer g fit = (v.put (Reg.GROUP.DPD_STATUS.staged_mask g) (sumNat (fit.map fun p => 2 ^ (p % 8)))).put (Reg.GROUP.DPD_STATUS.staged g) 1 :=
    if_neg (by rw [beq_iff_eq]; exact hauto)
  rw [heq]
  generalize sumNat (fit.map fun p => 2 ^ (p % 8)) = m
  refine ⟨h.congr ?_ rfl fun p => ?_, State.flag_eq_true (State.get_put_same _ rfl 1), rfl, ?_⟩
  · rw [State.get_put_apart _ rfl (Fld.apart_of_lo fun _ => .inl (by dsimp only; omega)), State.get_put_apart _ rfl (Fld.apart_of_lo fun _ => .inr (by
      dsimp only
      omega))]
  · rw [State.get_put_elsewhere _ (by dsimp only; omega), State.get_put_elsewhere _ (by dsimp only; omega)]
  · rw [State.get_put_apart _ rfl (Fld.apart_of_lo fun _ => .inl (by dsimp only; omega)), State.get_put_same _ rfl]
    rfl

end

/-- What the end of a fit makes of its tables (R222, R225, R228). -/
theorem dpdFits : Claim.DpdFits := by
  intro s t g tables hlen
  have hg : g.val < (s.atTime t).obs.length := lt_of_lt_of_eq g.isLt hlen.symm
  refine ⟨fun hno => Gives.of_eq rfl (if_pos (by rw [show (s.atTime t).flag (Reg.GROUP.DPD_STATUS.fitting g.val) = false from hno]; rfl)), fun hfit hl => ?_⟩
  by_cases hvoid : (s.obsGroup g.val).abandoned = true ∨ s.obsPlace g.val = none
  · obtain ⟨hflag, hgroup⟩ := State.fitEnded_spec hg
    refine ⟨_, Gives.of_eq rfl (State.dpdFitDone_of_void (s := s.atTime t) hfit hvoid tables), hflag, by rw [hgroup], fun _ => ⟨rfl, rfl⟩, fun h1 h2 => ?_⟩
    rcases hvoid with h | h
    · exact absurd (h1.symm.trans h) (by decide)
    · exact absurd h h2
  · have hsound : (s.obsGroup g.val).abandoned = false := Bool.eq_false_iff.2 fun h => hvoid (.inl h)
    have hplace : s.obsPlace g.val ≠ none := fun h => hvoid (.inr h)
    obtain ⟨hdone, hgroup, hlenw, htxn, -, hprep, hbank⟩ := State.fitWritten_spec (s := s.atTime t) hg g.isLt tables hl
    have heq := State.dpdFitDone_of_written (s := s.atTime t) hg g.isLt hfit hsound hplace tables hl
    have hgov : ((s.atTime t).fitWritten g.val tables).dpdGoverns g.val = s.dpdGoverns g.val := by
      rw [State.dpdGoverns, hgroup, State.dpdGoverns]
      rfl
    generalize (s.atTime t).fitWritten g.val tables = v at hdone hgroup hlenw htxn hprep hbank heq hgov
    have hvoid' {P : Prop} (h : (s.obsGroup g.val).abandoned = true ∨ s.obsPlace g.val = none) : P := absurd h hvoid
    by_cases hauto : s.dpdGoverns g.val = dpdAuto
    · cases hfrozen : s.dpdFrozen g.val with
      | true =>
        have hu := heq.trans (if_pos (by
          rw [show (s.atTime t).dpdFrozen g.val = true from hfrozen, show (s.atTime t).dpdGoverns g.val = dpdAuto from hauto]
          rfl))
        obtain ⟨h1, h2, h3⟩ := fitDone_newRound hdone hlenw
        exact ⟨_, Gives.of_eq rfl hu, h1.fitting, h1.fit, hvoid', fun _ _ => ⟨h1.nmse, fun _ _ => ⟨by rw [h3, htxn], h2⟩, nofun, nofun,
          fun h => absurd hauto h⟩⟩
      | false =>
        have hu := heq.trans (if_neg (by
          rw [show (s.atTime t).dpdFrozen g.val = false from hfrozen]
          exact Bool.false_ne_true))
        cases hp : s.internalPrepares with
        | false =>
          obtain ⟨h1, h2, h3, h4⟩ := fitDone_discarded hdone hlenw (fit := ((s.atTime t).obsGroup g.val).fit) (hgov.trans hauto) (hprep.trans hp)
          exact ⟨_, Gives.of_eq rfl hu, h1.fitting, h1.fit, hvoid', fun _ _ => ⟨h1.nmse, nofun, fun _ _ _ => ⟨by rw [h2, htxn], h3, h4⟩, nofun,
            fun h => absurd hauto h⟩⟩
        | true =>
          obtain ⟨h1, h2, h3, c, h4, h5, h6, h7⟩ := fitDone_committed hdone hlenw (fit := ((s.atTime t).obsGroup g.val).fit) (hgov.trans hauto) (hprep.trans hp)
          refine ⟨_, Gives.of_eq rfl hu, h1.fitting, h1.fit, hvoid', fun _ _ => ⟨h1.nmse, nofun, nofun, fun _ _ _ => ⟨h2, h3, c, h4, h5, h6, ?_⟩,
            fun h => absurd hauto h⟩⟩
          rw [h7]
          congr 1
          exact List.map_congr_left fun p _ => by rw [hbank]; rfl
    · have hu := heq.trans (if_neg (by
        rw [Bool.and_eq_true, beq_iff_eq]
        exact fun h => hauto h.2))
      obtain ⟨h1, h2, h3, h4⟩ := fitDone_staged hdone (fit := ((s.atTime t).obsGroup g.val).fit) (fun h => hauto (hgov.symm.trans h))
      exact ⟨_, Gives.of_eq rfl hu, h1.fitting, h1.fit, hvoid', fun _ _ => ⟨h1.nmse, fun h => absurd h hauto, fun h => absurd h hauto,
        fun h => absurd h hauto, fun _ => ⟨h2, by rw [h3, htxn], h4⟩⟩⟩

/-- Settles O33: the end of a round, of a verification and of a fit, each by what holds it back. -/
theorem predistortionRounds : Obligations.PredistortionRounds := ⟨dpdRounds, dpdFits⟩

end Sys2Proof.Machine
end

