-- ==== Sys2Proof/Proofs/FronthaulPlanes.lean ====
section
/-!
C-plane windows and downlink U-plane sections (R386 to R389, R399, R400).
-/

namespace Sys2Proof.Machine

open Sys2Proof

/-! ### Windows -/

section

variable {s : State} {n eaxc : Nat}

theorem State.eaxc_window (s : State) (n eaxc : Nat) : (s.window n eaxc).eaxc = eaxc := by
  unfold State.window
  cases h : (s.partner n).windows.find? fun w => w.eaxc == eaxc with
  | none => rfl
  | some w =>
    have := List.find?_some h
    exact beq_iff_eq.1 this

theorem State.partner_modPartner_same (hn : n < s.fh.partners.length) (f : Partner → Partner) : (s.modPartner n f).partner n = f (s.partner n) := by
  simp [State.partner, State.modPartner, hn]

/-- A window that is set is the partner's window of its eAxC. -/
theorem State.window_setWindow (hn : n < s.fh.partners.length) {w : Window} (hw : w.eaxc = eaxc) : (s.setWindow n w).window n eaxc = w := by
  have hnone : ((s.partner n).windows.filter fun y => y.eaxc != w.eaxc).find? (fun y => y.eaxc == eaxc) = none := by
    rw [List.find?_eq_none]
    intro y hy h
    have hne := (List.mem_filter.1 hy).2
    rw [hw, beq_iff_eq.1 h] at hne
    simp at hne
  rw [State.window, State.setWindow, State.partner_modPartner_same hn]
  dsimp only
  rw [List.find?_append, hnone]
  simp [hw]

theorem State.length_partners_setWindow (w : Window) : (s.setWindow n w).fh.partners.length = s.fh.partners.length := List.length_modify ..

theorem State.pcount_of_entry (hn : n < 64) (k : PCnt) (m : Nat) : s.pcount n k m = s.addTo (Reg.FRONTHAUL.PCNT.word n k.idx) m := if_pos hn

theorem State.window_pcount (k : PCnt) (m j : Nat) : (s.pcount j k m).window n eaxc = s.window n eaxc := by
  unfold State.pcount
  split <;> rfl

theorem State.skipTo_reached {seq k : Nat} (h : (s.window n eaxc).expected.getD seq = seq) : s.skipTo n eaxc seq k = s := by
  cases k with
  | zero => rfl
  | succ k => exact if_pos h

/-- A gap of one missing message is counted and skipped (R399, R400). -/
theorem State.skipTo_one (hn : n < s.fh.partners.length) {e seq : Nat} (he : (s.window n eaxc).expected = some e) (hseq : seq = (e + 1) % 256)
    (hheld : ∀ h ∈ (s.window n eaxc).held, h.seq ≠ e) (k : Nat) :
    s.skipTo n eaxc seq (k + 2) = (s.setWindow n { s.window n eaxc with expected := some ((e + 1) % 256) }).pcount n .cGap 1 := by
  have hnone : (s.window n eaxc).held.find? (fun h => h.seq == e) = none := List.find?_eq_none.2 fun h hh => by
    rw [beq_iff_eq]
    exact hheld h hh
  have hfirst : s.skipTo n eaxc seq (k + 2) =
      ((s.setWindow n { s.window n eaxc with expected := some ((e + 1) % 256) }).pcount n .cGap 1).skipTo n eaxc seq (k + 1) := by
    rw [State.skipTo]
    dsimp only
    rw [he]
    refine (if_neg ?_).trans ?_
    · rw [Option.getD_some]
      omega
    · rw [Option.getD_some, hnone]
  rw [hfirst]
  refine State.skipTo_reached ?_
  rw [State.window_pcount, State.window_setWindow hn (by exact s.eaxc_window n eaxc), Option.getD_some, hseq]

/-- One held message whose wait is over, with one missing before it, is reached by skipping that one (R400). -/
theorem State.gapSkip_of_one (hn : n < s.fh.partners.length) (h64 : n < 64) {h : Held} (hheld : (s.window n eaxc).held = [h])
    (hdue : h.at_ + ticksOfUs 100 ≤ s.now) {e : Nat} (he : (s.window n eaxc).expected = some e) (hseq : h.seq = (e + 1) % 256) :
    s.gapSkip n eaxc = ((s.setWindow n { s.window n eaxc with expected := some ((e + 1) % 256) }).addTo
      (Reg.FRONTHAUL.PCNT.word n PCnt.cGap.idx) 1).drainWindow n eaxc 32 := by
  have hnext : ((List.range 32).map fun i => (e + i) % 256).find? (fun q => [h].any fun x => x.seq == q) = some ((e + 1) % 256) := by
    have hrange : List.range 32 = 0 :: 1 :: (List.range 30).map (· + 2) := by decide
    rw [hrange, List.map_cons, List.map_cons, List.find?_cons_of_neg, List.find?_cons_of_pos]
    · simp [hseq]
    · simp only [List.any_cons, List.any_nil, Bool.or_false, beq_iff_eq, hseq]
      omega
  have hskip := State.skipTo_one hn he rfl (by
    rw [hheld]
    intro x hx
    rw [List.mem_singleton.1 hx, hseq]
    omega) 254
  have heq : s.gapSkip n eaxc = (s.skipTo n eaxc ((e + 1) % 256) 256).drainWindow n eaxc 32 := by
    unfold State.gapSkip
    dsimp only
    rw [hheld, he]
    dsimp only
    refine (if_neg (Nat.not_lt.2 hdue)).trans ?_
    rw [Option.getD_some, hnext]
  rw [heq, hskip, State.pcount_of_entry h64]

end

/-! ### What accepting a message of a partner leaves -/

/-- A message of a partner changes at most when the partner was last heard, its windows and its state. -/
structure Accepted (s u : State) (n : Nat) : Prop where
  words : SameOff (· = (Reg.FRONTHAUL.PT_STATUS.word n).addr) s u
  shape : ∃ regs partners, u = { s with regs := regs, fh := { s.fh with partners := partners } }
  length : u.fh.partners.length = s.fh.partners.length

theorem State.accepted_ptAccept (s : State) (n : Nat) : Accepted s (s.ptAccept n) n := by
  unfold State.ptAccept
  dsimp only
  split
  · exact ⟨SameOff.put (A := (· = (Reg.FRONTHAUL.PT_STATUS.word n).addr)) (f := Reg.FRONTHAUL.PT_STATUS.state n) (.of_regs rfl) rfl _, ⟨_, _, rfl⟩, (List.length_modify ..).trans (List.length_modify ..)⟩
  · exact ⟨.of_regs rfl, ⟨_, _, rfl⟩, List.length_modify ..⟩

section

variable {s u : State} {n : Nat}

theorem Accepted.get (h : Accepted s u n) {f : Fld} (hf : f.addr ≠ (Reg.FRONTHAUL.PT_STATUS.word n).addr) : u.get f = s.get f := h.words.get hf

theorem Accepted.eaxcCarrier (h : Accepted s u n) (e : Nat) : u.eaxcCarrier e = s.eaxcCarrier e := by
  rw [State.eaxcCarrier, State.eaxcCarrier, h.get (by dsimp only; omega), h.get (by dsimp only; omega)]

theorem Accepted.eaxcPort (h : Accepted s u n) (e : Nat) : u.eaxcPort e = s.eaxcPort e := by
  rw [State.eaxcPort, State.eaxcPort, h.get (by dsimp only; omega)]

theorem Accepted.form (h : Accepted s u n) (c : Nat) : u.form c = s.form c := by
  obtain ⟨_, _, hu⟩ := h.shape
  rw [hu]
  rfl

theorem Accepted.carActive (h : Accepted s u n) (c : Nat) : u.carActive c = s.carActive c := by
  have hget : u.get (Reg.CARRIER.STATUS.state c) = s.get (Reg.CARRIER.STATUS.state c) := h.get (by dsimp only; omega)
  rw [State.carActive, State.carActive, State.running, State.running, State.carState, State.carState, hget]

theorem Accepted.isIngress (h : Accepted s u n) (c : Nat) : u.isIngress c = s.isIngress c := by
  obtain ⟨_, _, hu⟩ := h.shape
  rw [hu]
  rfl

theorem Accepted.arrayNow (h : Accepted s u n) : u.arrayNow = s.arrayNow := by
  obtain ⟨_, _, hu⟩ := h.shape
  rw [hu]
  rfl

theorem Accepted.now (h : Accepted s u n) : u.now = s.now := by
  obtain ⟨_, _, hu⟩ := h.shape
  rw [hu]

theorem Accepted.fh (h : Accepted s u n) : u.fh.force = s.fh.force ∧ u.fh.data = s.fh.data ∧ u.fh.lateOf = s.fh.lateOf := by
  obtain ⟨_, _, hu⟩ := h.shape
  rw [hu]
  exact ⟨rfl, rfl, rfl⟩

theorem Accepted.governs (h : Accepted s u n) (e : Nat) (dl : Bool) (m q : Nat) : u.governs e dl m q = s.governs e dl m q := by
  rw [State.governs, h.fh.1, State.governs]

theorem Accepted.dlDeadline (h : Accepted s u n) (c m : Nat) : u.dlDeadline c m = s.dlDeadline c m := by
  have hget : u.get Reg.STAIR.TREE.addition = s.get Reg.STAIR.TREE.addition := h.get (by dsimp only; omega)
  have hbytes : u.formBytes c = s.formBytes c ∧ u.formJoint c = s.formJoint c ∧ u.car c = s.car c := by
    obtain ⟨_, _, hu⟩ := h.shape
    rw [hu]
    exact ⟨rfl, rfl, rfl⟩
  obtain ⟨h1, h2, h3⟩ := hbytes
  rw [State.dlDeadline, State.dlDeadline, State.dlLatency, State.dlLatency, h.form, h1, h2, h3, hget]

/-- A message of a partner that the table holds is that of its entry (R395, R399). -/
theorem State.known_iff (s : State) (n eaxc : Nat) :
    (s.ptState n == ptEmpty || !s.ptHas n eaxc) = true ↔ s.ptState n = ptEmpty ∨ s.ptHas n eaxc = false := by
  rw [Bool.or_eq_true, beq_iff_eq, Bool.not_eq_true']

end

theorem fhCplane : Claim.FhCplane := by
  rintro s t n eaxc seq l w rfl hlen
  refine ⟨fun hno => Gives.of_eq rfl (if_pos ((State.known_iff _ _ _).2 hno)), fun hst hhas s' w' hs' hw' d hd => ?_, fun hheld => ?_, fun h hheld => ⟨fun hearly => ?_, fun hdue e he hseq _ => ?_⟩⟩
  · have hacc := (s.atTime t).accepted_ptAccept n.val
    rw [← hs'] at hacc
    have hnow : s'.now = max s.now t := hacc.now
    have hlen' : n.val < s'.fh.partners.length := by
      rw [hacc.length]
      exact lt_of_lt_of_eq n.isLt hlen.symm
    have hgives : Gives (.cplaneMessage t n eaxc seq l) s
        (if d = 0 then
          ((s'.setWindow n.val { w' with expected := some ((seq % 256 + 1) % 256) }).applySections n.val eaxc
            (s'.setWindow n.val { w' with expected := some ((seq % 256 + 1) % 256) }).now l).drainWindow n.val eaxc 32
        else if d < 32 then
          if w'.held.any fun h => h.seq == seq % 256 then s'.pcount n.val .cDup 1
          else s'.setWindow n.val { w' with held := w'.held ++ [{ seq := seq % 256, at_ := s'.now, sections := l }] }
        else if d < 128 then
          let v := s'.skipTo n.val eaxc (seq % 256) 256
          let v := v.setWindow n.val { v.window n.val eaxc with expected := some ((seq % 256 + 1) % 256) }
          (v.applySections n.val eaxc v.now l).drainWindow n.val eaxc 32
        else s'.pcount n.val .cDup 1) := by
      refine Gives.of_eq rfl ((if_neg (fun h => ?_)).trans ?_)
      · rcases (State.known_iff (s.atTime t) n.val eaxc).1 h with h | h
        · exact hst h
        · exact Bool.false_ne_true (h.symm.trans hhas)
      · rw [hd, hw', hs']
    have hcount : s'.pcount n.val .cDup 1 = s'.addTo (Reg.FRONTHAUL.PCNT.word n.val PCnt.cDup.idx) 1 := State.pcount_of_entry n.isLt _ _
    refine ⟨fun h0 => ?_, fun hpos h32 hnew => ?_, fun hpos h32 hdup => ?_, fun h32 h128 v hv => ?_, fun h128 => ?_⟩
    · rw [if_pos h0] at hgives
      rw [← hnow]
      exact hgives
    · have hany : (w'.held.any fun h => h.seq == seq % 256) = false := by
        rw [List.any_eq_false]
        intro h hh
        rw [beq_iff_eq]
        exact hnew h hh
      rw [if_neg (by omega), if_pos h32, if_neg (by rw [hany]; exact Bool.false_ne_true), hnow] at hgives
      refine ⟨_, hgives, State.window_setWindow hlen' ?_, rfl, hacc.fh.1⟩
      rw [hw']
      exact s'.eaxc_window n.val eaxc
    · obtain ⟨h, hh, hseq⟩ := hdup
      have hany : (w'.held.any fun h => h.seq == seq % 256) = true := List.any_eq_true.2 ⟨h, hh, beq_iff_eq.2 hseq⟩
      rw [if_neg (by omega), if_pos h32, if_pos hany, hcount] at hgives
      exact hgives
    · have hkept : v.now = max s.now t := by
        rw [hv]
        exact (State.Sound.skipTo s'.sound_now).now_eq.trans hnow
      rw [if_neg (by omega), if_neg (by omega), if_pos h128, ← hv] at hgives
      rw [← hkept]
      exact hgives
    · rw [if_neg (by omega), if_neg (by omega), if_neg (by omega), hcount] at hgives
      exact hgives
  · refine Gives.of_eq rfl ?_
    unfold State.gapSkip
    dsimp only
    rw [show ((s.atTime t).window n.val eaxc).held = [] from hheld]
  · refine Gives.of_eq rfl ?_
    unfold State.gapSkip
    dsimp only
    rw [show ((s.atTime t).window n.val eaxc).held = [h] from hheld]
    exact if_pos hearly
  · exact Gives.of_eq rfl (State.gapSkip_of_one (s := s.atTime t) (lt_of_lt_of_eq n.isLt hlen.symm) n.isLt hheld hdue he hseq)

/-! ### Downlink U-plane sections -/

section

variable {s : State} {n eaxc : Nat} {u : USection}

theorem State.uplane_of_unnamed (h : ¬ (s.ptState n == ptEmpty || !s.ptHas n eaxc) = true)
    (hslot : (s.ptAccept n).namedSlot (s.form (s.eaxcCarrier eaxc)) u.frame u.subframe u.slot = none) :
    s.uplane n eaxc u = (s.ptAccept n).pcount n .uNoCplane 1 := by
  have hacc := s.accepted_ptAccept n
  unfold State.uplane
  rw [if_neg h]
  dsimp only
  rw [hacc.eaxcCarrier, hacc.form, hslot]

/-- What becomes of a section whose slot its partner's message names, in terms of the state before it. -/
theorem State.uplane_of_named {c m slot : Nat} {prbs : List Nat} (h : ¬ (s.ptState n == ptEmpty || !s.ptHas n eaxc) = true)
    (hc : c = s.eaxcCarrier eaxc) (hprbs : prbs = (List.range u.prbs.length).map fun i => u.startPrb + i)
    (hslot : (s.ptAccept n).namedSlot (s.form c) u.frame u.subframe u.slot = some slot) (hm : m = slot * (s.form c).symbols + u.sym) :
    s.uplane n eaxc u =
      if (!s.carActive c || ((s.form c).joint && !s.isIngress c) || prbs.any fun q => (s.governs eaxc true m q).isNone) = true then
        (s.ptAccept n).pcount n .uNoCplane 1
      else if (u.compMeth != 1 || prbs.any fun q => (s.governs eaxc true m q).any fun f => f.width != u.width) = true then
        (s.ptAccept n).pcount n .uComp 1
      else if (s.fh.data.any fun d => d.carrier == c && d.symbol == m && d.layer == s.eaxcPort eaxc && prbs.contains d.prb) = true then
        (s.ptAccept n).pcount n .uDup 1
      else if s.dlDeadline c m < s.arrayNow then
        (s.ptAccept n).forEach ((prbs.filterMap (s.governs eaxc true m)).eraseDups) fun f s => s.countLate m f
      else
        if (s.form c).joint then
          (s.ptAccept n).sendLayer c m (s.eaxcPort eaxc) ((prbs.zip u.prbs).map fun e =>
            { carrier := c, symbol := m, layer := s.eaxcPort eaxc, prb := e.1,
              exp := (normSums 12 (e.2.2.map fun v => [(v, ((e.2.1 % 16 : Nat) : Int))])).2,
              vals := (normSums 12 (e.2.2.map fun v => [(v, ((e.2.1 % 16 : Nat) : Int))])).1 })
        else
          (s.ptAccept n).storeData c m ((prbs.zip u.prbs).map fun e =>
            { carrier := c, symbol := m, layer := s.eaxcPort eaxc, prb := e.1, exp := ((e.2.1 % 16 : Nat) : Int), vals := e.2.2 }) := by
  have hacc := s.accepted_ptAccept n
  subst hc hprbs hm
  unfold State.uplane
  rw [if_neg h]
  dsimp only
  rw [hacc.eaxcCarrier, hacc.form, hslot]
  dsimp only
  simp only [hacc.carActive, hacc.isIngress, hacc.governs, hacc.dlDeadline, hacc.arrayNow, hacc.eaxcPort, hacc.fh.2.1]
  cases (s.form (s.eaxcCarrier eaxc)).joint
  · simp only [Bool.false_eq_true, if_false]
  · simp only [if_true]

theorem eraseDups_eq_singleton {α : Type} [BEq α] [LawfulBEq α] {l : List α} {a : α} (hne : l ≠ []) (h : ∀ x ∈ l, x = a) : l.eraseDups = [a] := by
  cases l with
  | nil => exact absurd rfl hne
  | cons x l =>
    have hrest : l.filter (fun y => !y == x) = [] := List.filter_eq_nil_iff.2 fun y hy => by
      rw [h y (List.mem_cons_of_mem _ hy), h x List.mem_cons_self]
      simp
    rw [List.eraseDups_cons, hrest, h x List.mem_cons_self]
    rfl

/-- The sections that govern the blocks of a late message, where one governs them all. -/
theorem eraseDups_filterMap_eq_singleton {α β : Type} [BEq β] [LawfulBEq β] {l : List α} {g : α → Option β} {b : β} (hne : l ≠ []) (h : ∀ x ∈ l, g x = some b) :
    (l.filterMap g).eraseDups = [b] := by
  refine eraseDups_eq_singleton (fun hnil => ?_) fun y hy => ?_
  · obtain ⟨x, hx⟩ := List.exists_mem_of_ne_nil l hne
    have := List.mem_filterMap.2 ⟨x, hx, h x hx⟩
    rw [hnil] at this
    exact List.not_mem_nil this
  · obtain ⟨x, hx, hxy⟩ := List.mem_filterMap.1 hy
    exact Option.some.inj (hxy.symm.trans (h x hx))

end

theorem fhUplane : Claim.FhUplane := by
  rintro s t n eaxc x v c m slot prbs s' rfl hs' hprbs
  refine ⟨fun hcause => if_pos (bne_iff_ne.2 hcause), fun hno => Gives.of_eq rfl (if_pos ((State.known_iff _ _ _).2 hno)), fun hst hhas => ?_⟩
  have hknown : ¬ ((s.atTime t).ptState n.val == ptEmpty || !(s.atTime t).ptHas n.val eaxc) = true := fun h => by
    rcases (State.known_iff (s.atTime t) n.val eaxc).1 h with h | h
    · exact hst h
    · exact Bool.false_ne_true (h.symm.trans hhas)
  have hcount : ∀ k, s'.pcount n.val k 1 = s'.addTo (Reg.FRONTHAUL.PCNT.word n.val k.idx) 1 := fun k => State.pcount_of_entry n.isLt _ _
  have hacc := (s.atTime t).accepted_ptAccept n.val
  have huplane : ∀ {slot m}, s'.namedSlot (s.form (s.eaxcCarrier eaxc)) v.frame v.subframe v.slot = some slot →
      m = slot * (s.form (s.eaxcCarrier eaxc)).symbols + v.sym → _ := fun {slot m} hslot hm =>
    State.uplane_of_named (s := s.atTime t) (slot := slot) (m := m) hknown rfl hprbs (hs' ▸ hslot) hm
  rw [← hs'] at huplane hacc
  refine ⟨fun hwhy => ?_, fun hslot hm hact hin => ?_⟩
  · rw [← hcount]
    refine Gives.of_eq rfl ?_
    cases hslot : s'.namedSlot (s.form (s.eaxcCarrier eaxc)) v.frame v.subframe v.slot with
    | none => exact (State.uplane_of_unnamed (s := s.atTime t) hknown (hs' ▸ hslot)).trans (by rw [hs'])
    | some slot =>
      refine (huplane hslot rfl).trans (if_pos ?_)
      rw [Bool.or_eq_true, Bool.or_eq_true, Bool.and_eq_true, Bool.not_eq_true', Bool.not_eq_true']
      rcases hwhy with hnone | hoff | hjoint
      · exact absurd (hslot.symm.trans hnone) (Option.some_ne_none _)
      · exact .inl (.inl hoff)
      · exact .inl (.inr hjoint)
  specialize huplane hslot hm
  have hadmit : (!s.carActive (s.eaxcCarrier eaxc) || ((s.form (s.eaxcCarrier eaxc)).joint && !s.isIngress (s.eaxcCarrier eaxc))) = false := by
    rw [hact]
    rcases hin with hin | hin <;> simp [hin]
  refine ⟨fun hbare => ?_, fun hcover => ?_⟩
  · rw [← hcount]
    refine Gives.of_eq rfl (huplane.trans (if_pos ?_))
    obtain ⟨q, hq, hnone⟩ := hbare
    exact Bool.or_eq_true_iff.2 (.inr (List.any_eq_true.2 ⟨q, hq, Option.isNone_iff_eq_none.2 hnone⟩))
  replace huplane := huplane.trans (if_neg (by
    rw [Bool.or_eq_true, not_or, Bool.not_eq_true, Bool.not_eq_true]
    refine ⟨hadmit, List.any_eq_false.2 fun q hq h => ?_⟩
    obtain ⟨f, hf⟩ := hcover q hq
    exact Option.some_ne_none f (hf.symm.trans (Option.isNone_iff_eq_none.1 h))))
  refine ⟨fun hcomp => ?_, fun hmeth hwidth => ?_⟩
  · rw [← hcount]
    refine Gives.of_eq rfl (huplane.trans (if_pos (Bool.or_eq_true_iff.2 (hcomp.imp bne_iff_ne.2 fun ⟨q, hq, f, hf, hne⟩ => ?_))))
    exact List.any_eq_true.2 ⟨q, hq, (Option.any_eq_true ..).2 ⟨f, hf, bne_iff_ne.2 hne⟩⟩
  replace huplane := huplane.trans (if_neg (by
    rw [Bool.or_eq_true, not_or, bne_iff_ne, not_not, Bool.not_eq_true]
    refine ⟨hmeth, List.any_eq_false.2 fun q hq h => ?_⟩
    obtain ⟨f, hf, hne⟩ := (Option.any_eq_true ..).1 h
    exact bne_iff_ne.1 hne (hwidth q hq f hf)))
  have hheld : ∀ d : PrbData, (d.carrier == s.eaxcCarrier eaxc && d.symbol == m && d.layer == s.eaxcPort eaxc && prbs.contains d.prb) = true ↔
      d.carrier = s.eaxcCarrier eaxc ∧ d.symbol = m ∧ d.layer = s.eaxcPort eaxc ∧ d.prb ∈ prbs := fun d => by
    simp [and_assoc]
  refine ⟨fun ⟨d, hd, hdup⟩ => ?_, fun hnew => ?_⟩
  · rw [← hcount]
    exact Gives.of_eq rfl (huplane.trans (if_pos (List.any_eq_true.2 ⟨d, hd, (hheld d).2 hdup⟩)))
  replace huplane := huplane.trans (if_neg fun h => by
    obtain ⟨d, hd, hdup⟩ := List.any_eq_true.1 h
    exact hnew d hd ((hheld d).1 hdup))
  refine ⟨fun hlate hne f key hf hentry hkey => ?_, fun htime hjoint => ?_⟩
  · replace huplane := huplane.trans (if_pos hlate)
    rw [eraseDups_filterMap_eq_singleton (g := (s.atTime t).governs eaxc true m) hne hf] at huplane
    have hlateOf : s'.fh.lateOf = s.fh.lateOf := hacc.fh.2.2
    have hcounts : s'.countLate m f = if s'.fh.lateOf.contains key = true then s' else
        ({ s' with fh := { s'.fh with lateOf := s'.fh.lateOf ++ [key] } } : State).pcount f.entry .uLate 1 := by
      rw [hkey]
      rfl
    rw [hlateOf] at hcounts
    refine ⟨fun hin => Gives.of_eq rfl (huplane.trans (hcounts.trans (if_pos (List.contains_iff_mem.2 hin)))), fun hout => ?_⟩
    refine Gives.of_eq rfl (huplane.trans (hcounts.trans ((if_neg fun h => hout (List.contains_iff_mem.1 h)).trans ?_)))
    exact State.pcount_of_entry hentry _ _
  · refine ⟨_, Gives.of_eq rfl (huplane.trans ((if_neg (Nat.not_lt.2 htime)).trans (if_neg (ne_true_of_eq_false hjoint)))), rfl, ?_⟩
    exact congrArg (· ++ _) hacc.fh.2.1

/-- Settles O43: C-plane messages pass their window in sequence, and a downlink U-plane section waits as data only with cover and in time. -/
theorem fronthaulPlanes : Obligations.FronthaulPlanes := ⟨fhCplane, fhUplane⟩

end Sys2Proof.Machine
end

