-- ==== Sys2Proof/Proofs/CarrierStart.lean ====
section
/-!
CARRIER_START with an output due whose counters name the carrier's own status register (R48, R250).
-/

namespace Sys2Proof.Machine

open Sys2Proof

/-- A frame of a PRACH occasion that waits for array time 0, and whose one counter is CARRIER.STATUS of carrier 0. No rule gives a gate such a
counter; the state alone does not exclude it. -/
def statusCounter : GateEntry :=
  { kind := .prach, carrier := 0, form := CarrierRec.none, symbol := 0, release := 0, wait := 0, epoch := 0, msgs := [], frames := [], data := [],
    force := [], counts := [((Reg.CARRIER.STATUS.word 0).addr, 2 ^ 30)] }

/-- Carrier 0 is due at array time 0, a slot boundary, its pattern word being 0 (no downlink there), and the gate of `statusCounter` is ripe. -/
def dueWithCounter : State :=
  { (State.reset.put (Reg.CARRIER.STATUS.state 0) carrierStarting).modCar 0 fun x => { x with form := some { CarrierRec.none with enable := true, tdd := 1 } } with
    boot := { State.reset.boot with phase := .ready }
    clock := { State.reset.clock with started := true }
    gates := [statusCounter] }

/-- The state of carrier 0 that a command leaves. -/
def carStateAfter (c : Instr) (s : State) : Nat :=
  match exec c s with
  | .next u => u.carState 0
  | _ => 0

theorem carStateAfter_of_gives {c : Instr} {s u : State} (h : Gives c s u) : carStateAfter c s = u.carState 0 := by
  rw [carStateAfter, h]
  exact u.get_settled _

/-- Refutes O10: the symbol that a start begins releases the outputs that are due, and a counter of theirs that names CARRIER.STATUS counts the
state of the carrier on from RUNNING. -/
theorem not_carrierStates : ¬ Obligations.CarrierStates := by
  intro h
  have hdecided : dueWithCounter.carriers.length = 8 ∧ dueWithCounter.carState 0 = carrierStarting ∧ dueWithCounter.form? 0 ≠ none ∧
      (dueWithCounter.car 0).since ≤ (dueWithCounter.atTime 0).arrayNow ∧
      (dueWithCounter.form 0).isSlotBoundary (dueWithCounter.atTime 0).arrayNow = true ∧
      (dueWithCounter.atTime 0).startHeld 0 (dueWithCounter.atTime 0).arrayNow = false ∧
      carStateAfter (.carrierStart 0 0) dueWithCounter ≠ carrierRunning := by decide +kernel
  obtain ⟨hlen, hstate, hform, hsince, hslot, hfree, hafter⟩ := hdecided
  obtain ⟨-, hstart, -⟩ := h dueWithCounter 0 0 [] hlen
  obtain ⟨u, hgives, hrunning, -⟩ := hstart hstate hform hsince hslot hfree
  exact hafter ((carStateAfter_of_gives hgives).trans hrunning)

end Sys2Proof.Machine
end

