-- ==== Sys2Proof/Proofs/DownlinkDeadline.lean ====
section
/-!
DOWNLINK_DEADLINE of a carrier whose record names its TDD pattern beyond the patterns, where a counter of the fronthaul stands (R29, R40).
-/

namespace Sys2Proof.Machine

open Sys2Proof

/-- The record of a carrier whose TDD pattern is read where the late counter of partner 0 stands. The record's field of four bits cannot hold
such a number; the state alone does not exclude it. -/
def counterPattern : CarrierRec := { CarrierRec.none with enable := true, tdd := 520199 }

/-- A downlink section of partner 0 in force for the first symbols of carrier 0, whose data has not come. -/
def bareSection : CForce :=
  { carrier := 0, layer := 0, dl := true, entry := 0, eaxc := 0, sectionId := 0, first := 0, last := 9, startPrb := 0, numPrb := 1, width := 9, beam := 0 }

/-- Carrier 0 is due to start at array time 0, with a replay reserve of more than two symbols; the late counter of partner 0 is full. -/
def fullCounter : State :=
  { ((State.reset.put (Reg.CARRIER.STATUS.state 0) carrierStarting).put (Reg.FRONTHAUL.PCNT.word 0 PCnt.uLate.idx) 0xFFFFFFFF).modCar 0 fun x =>
      { x with form := some counterPattern, reserve := 300 } with
    clock := { State.reset.clock with started := true }
    fh := { State.reset.fh with force := [bareSection] } }

/-- The state once symbol 1 has its gate: the late section has been counted, and the counter has begun again at 0. -/
def counterWrapped : State := fullCounter.gateDown 0 1

theorem carriesDl_of_empty {r : CarrierRec} {x : Pattern} (hr : r.tdd ≠ 0) (hslots : x.dlSlots = 0) (hsyms : x.dlSyms = 0) (n : Nat) :
    carriesDl r x n = false := by
  have hdir : x.dirOf r n ≠ .dl := by
    unfold Pattern.dirOf
    dsimp only
    rw [hslots, hsyms]
    split_ifs <;> simp_all
  rw [carriesDl, Bool.or_eq_false_iff]
  exact ⟨beq_eq_false_iff_ne.2 hr, decide_eq_false hdir⟩

/-- No symbol carries downlink once the counter has wrapped: the pattern that the record names is empty. -/
theorem counterWrapped_willDl (n : Nat) : counterWrapped.willDl 0 n = false := by
  have hdecided : counterWrapped.carState 0 = carrierStarting ∧ (counterWrapped.form 0).tdd ≠ 0 ∧
      (patternOf (counterWrapped.patternWord (counterWrapped.form 0))).dlSlots = 0 ∧
      (patternOf (counterWrapped.patternWord (counterWrapped.form 0))).dlSyms = 0 := by decide +kernel
  obtain ⟨hstate, htdd, hslots, hsyms⟩ := hdecided
  unfold State.willDl
  dsimp only
  rw [if_pos (beq_iff_eq.2 hstate), carriesDl_of_empty htdd hslots hsyms, Bool.false_and]

/-- Nothing gets a gate any more. -/
theorem counterWrapped_gateDown (n : Nat) : counterWrapped.gateDown 0 n = counterWrapped := by
  unfold State.gateDown
  dsimp only
  refine if_pos ?_
  rw [counterWrapped_willDl, Bool.not_false, Bool.or_true]

/-- The deadlines of the symbols to come, however many they are, leave a gate for symbol 1 alone. -/
theorem fullCounter_gateDowns (k : Nat) : fullCounter.forEach ((List.range (k + 1)).map fun i => 0 + 1 + i) (fun n s => s.gateDown 0 n) = counterWrapped := by
  rw [List.range_succ_eq_map, List.map_cons, State.forEach, List.foldl_cons]
  exact State.forEach_induct (P := (· = counterWrapped)) rfl fun n _ u hu => hu ▸ counterWrapped_gateDown n

theorem State.deadline_of_form {s : State} {c : Nat} {r : CarrierRec} (hr : s.form? c = some r) (hstarted : s.clock.started = true) :
    s.deadline c = s.forEach ((List.range (r.symbolAt (s.arrayNow + ticksOfNs (s.dlLatency c) + ticksOfUs (s.car c).reserve) + 1 -
      (r.symbolAt s.arrayNow + 1))).map fun i => r.symbolAt s.arrayNow + 1 + i) fun n s => s.gateDown c n := by
  unfold State.deadline
  rw [hr]
  refine if_neg ?_
  rw [hstarted]
  exact Bool.false_ne_true

/-- The replay reserve alone is longer than two symbols. -/
theorem two_le_symbolAt (latency : Nat) : 2 ≤ counterPattern.symbolAt (0 + ticksOfNs latency + ticksOfUs 300) := by
  have hspacing : counterPattern.spacing ≤ 3 := by decide
  have hreserve : counterPattern.boundary 2 ≤ ticksOfUs 300 := by decide +kernel
  by_contra hlt
  have hend := (CarrierRec.boundary_symbolAt hspacing (0 + ticksOfNs latency + ticksOfUs 300)).2
  have hmono := (CarrierRec.strictMono_boundary hspacing).monotone (by omega : counterPattern.symbolAt (0 + ticksOfNs latency + ticksOfUs 300) + 1 ≤ 2)
  omega

/-- Refutes O34: symbols 1 and 2 are to carry downlink, and as the first deadline counts its late section, the second symbol gets no gate. -/
theorem not_releaseGates : ¬ Obligations.ReleaseGates := by
  rintro ⟨-, h⟩
  have hdecided : fullCounter.atTime 0 = fullCounter ∧ fullCounter.form? 0 = some counterPattern ∧ fullCounter.clock.started = true ∧
      fullCounter.arrayNow = 0 ∧ (fullCounter.car 0).reserve = 300 ∧ counterPattern.symbolAt 0 = 0 ∧ fullCounter.willDl 0 2 = true ∧
      ∀ g ∈ counterWrapped.gates, g.symbol ≠ 2 := by decide +kernel
  obtain ⟨htime, hform, hstarted, hnow, hreserve, hfirst, hwill, hgates⟩ := hdecided
  obtain ⟨-, hopen⟩ := h fullCounter 0 0
  rw [Fin.val_zero] at hopen
  have hlast := two_le_symbolAt (fullCounter.dlLatency 0)
  have hupto : counterPattern.symbolAt ((fullCounter.atTime 0).arrayNow + ticksOfNs (fullCounter.dlLatency 0) + ticksOfUs (fullCounter.car 0).reserve) =
      counterPattern.symbolAt (0 + ticksOfNs (fullCounter.dlLatency 0) + ticksOfUs 300) := by rw [htime, hnow, hreserve]
  obtain ⟨-, u, hgives, -, -, -, -, hevery⟩ := hopen counterPattern 0 _ hform hstarted (by rw [htime, hnow, hfirst]) hupto.symm
  obtain ⟨k, hk⟩ := Nat.exists_eq_add_of_le' (le_trans one_le_two hlast)
  have hdeadline : (fullCounter.atTime 0).deadline 0 = counterWrapped := by
    rw [htime, State.deadline_of_form hform hstarted, hnow, hreserve, hfirst, hk]
    exact fullCounter_gateDowns k
  have hsettled : counterWrapped.settled = u.settled := Host.Outcome.next.inj ((congrArg finish hdeadline).symm.trans hgives)
  have hu : u.gates = counterWrapped.gates := by rw [← u.gates_settled, ← hsettled, State.gates_settled]
  obtain ⟨g, hg, -, -, hsymbol⟩ := hevery 2 two_pos hlast hwill
  exact hgates g (hu ▸ hg) hsymbol

end Sys2Proof.Machine
end

