-- ==== Sys2Proof/Proofs/SymbolBoundaries.lean ====
section
/-!
What a symbol boundary leaves: the carrier has begun the symbol, whatever its outputs and its units do (R45, R250).
-/

namespace Sys2Proof.Machine

open Sys2Proof

/-- A state in which the carriers have begun the symbols of a list. -/
theorem State.sound_symbols {s : State} {l : List (Option Nat)} (h : s.carriers.map (·.begun) = l) : s.Sound False (· = .begunAre l) := by
  constructor
  case begunAre =>
    rintro _ ⟨⟩
    exact h
  case now => exact fun _ h => nomatch h
  case regs | mem => exact False.elim
  case keep | boot | txn | radio | clock | beam | fh | stair | ota | recov | energy | hk => constructor <;> exact fun h => nomatch h
  all_goals exact fun h => nomatch h

/-- The carriers alone are eight. -/
theorem State.sound_carriers {s : State} (h : s.carriers.length = 8) : s.Sound False (· = .carriers) := by
  constructor
  case carriers => exact fun _ => h
  case now | begunAre => exact fun _ h => nomatch h
  case regs | mem => exact False.elim
  case keep | boot | txn | radio | clock | beam | fh | stair | ota | recov | energy | hk => constructor <;> exact fun h => nomatch h
  all_goals exact fun h => nomatch h

theorem State.begun_car {s : State} {l : List (Option Nat)} (h : s.carriers.map (·.begun) = l) {c n : Nat} (hl : l[c]? = some (some n)) :
    (s.car c).begun = some n := by
  rw [← h, List.getElem?_map, Option.map_eq_some_iff] at hl
  obtain ⟨x, hx, hbegun⟩ := hl
  rw [State.car, List.getD_eq_getElem?_getD, hx]
  exact hbegun

/-- The symbols begun once one carrier begins another. -/
theorem State.begun_modCar (s : State) (c n : Nat) {f : CarrierState → CarrierState} (hf : ∀ x, (f x).begun = some n) :
    (s.modCar c f).carriers.map (·.begun) = (s.carriers.map (·.begun)).modify c fun _ => some n := by
  refine List.ext_getElem? fun j => ?_
  rw [State.modCar, List.getElem?_map, List.getElem?_modify, List.getElem?_modify, List.getElem?_map]
  split
  · cases s.carriers[j]? with
    | none => rfl
    | some x => exact congrArg some (hf x)
  · cases s.carriers[j]? <;> rfl

/-- The carrier has begun the symbol in the state that its beginning and the pruning after it leave. -/
theorem State.begun_beginSymbol {s : State} {c n : Nat} (hlen : s.carriers.length = 8) (hc : c < 8) :
    (((s.beginSymbol c n).pruneSymbol c n).car c).begun = some n := by
  have hlo : (s.loBoundary ((s.form c).boundary n)).carriers.length = 8 := (State.Sound.loBoundary (State.sound_carriers hlen)).carriers rfl
  have hbegun := State.Sound.pruneSymbol (c := c) (n := n) (State.Sound.beginSymbol_of_begun (s := s) (c := c) (n := n)
    fun _ => State.sound_symbols (State.begun_modCar _ c n fun _ => rfl))
  refine State.begun_car (hbegun.begunAre _ rfl) ?_
  rw [List.getElem?_modify, List.getElem?_map, List.getElem?_eq_getElem (hlo.symm ▸ hc)]
  exact congrArg some (if_pos rfl)

/-- Where a carrier processes symbols and array time runs, the boundary of a symbol that it has not begun is passed. -/
theorem State.symbolBoundary_of_next {s : State} {c n : Nat} (adc : List (List Cplx)) (hact : s.carActive c = true) (hstarted : s.clock.started = true)
    (hn : n = (s.form c).symbolAt s.arrayNow) (hbegun : ∀ m, (s.car c).begun = some m → m < n) :
    s.symbolBoundary c adc = if s.stopsBy c n then (s.passBoundary c n adc).modCar c fun x => { x with begun := some n }
      else (((s.passBoundary c n adc).swapRecord c n ((s.form c).boundary n)).beginSymbol c n).pruneSymbol c n := by
  subst hn
  unfold State.symbolBoundary
  dsimp only
  refine if_neg ?_
  rw [hact, hstarted]
  cases h : (s.car c).begun with
  | none => exact Bool.false_ne_true
  | some m => simpa using hbegun m h

theorem State.symbolBoundary_of_idle {s : State} {c : Nat} (adc : List (List Cplx)) (h : s.carActive c = false ∨ s.clock.started = false ∨
    ∃ m, (s.car c).begun = some m ∧ (s.form c).symbolAt s.arrayNow ≤ m) : s.symbolBoundary c adc = s := by
  unfold State.symbolBoundary
  dsimp only
  refine if_pos ?_
  rcases h with h | h | ⟨m, hm, hle⟩
  · rw [h]
    rfl
  · rw [h, Bool.not_false, Bool.or_true, Bool.true_or]
  · rw [hm, Bool.or_eq_true]
    exact .inr (decide_eq_true hle)

/-- Settles O9: each clause is the definition's, and no unit changes the symbol that the carrier has begun. -/
theorem symbolBoundaries : Obligations.SymbolBoundaries := by
  rintro s t c adc unit
  refine ⟨rfl, fun hidle => Gives.of_eq rfl (State.symbolBoundary_of_idle (s := s.atTime t) adc hidle), fun hact hstarted hlen n hn hbegun => ?_⟩
  have hnext := State.symbolBoundary_of_next (s := s.atTime t) adc hact hstarted hn hbegun
  refine ⟨fun hstop => Gives.of_eq rfl (hnext.trans (if_pos hstop)), fun hgo =>
    ⟨_, Gives.of_eq rfl (hnext.trans (if_neg (ne_true_of_eq_false hgo))), State.begun_beginSymbol ?_ c.isLt, rfl⟩⟩
  exact (State.Sound.swapRecord (State.Sound.passBoundary (State.sound_carriers (s := s.atTime t) hlen))).carriers rfl

end Sys2Proof.Machine
end
